-- ==== Sys2Proof/Word.lean ====
section
/-! DEFINITION. The word types of the EW1672 and the shapes of its register index: a register word (16 R456), a 16-byte flit slot (03 R70), a line of 128 bytes, an access type (16 R459), a register field and a register row. -/

namespace Sys2Proof

/-- One register word (16 R456). -/
abbrev Word := BitVec 32

/-- One byte. -/
abbrev Byte := BitVec 8

/-- One 16-byte flit slot (03 R70); bits 127 to 120 are its byte 0 (04 R109). -/
abbrev Slot := BitVec 128

namespace Machine

/-- The access types of 16 R459. `ST` registers are those of the AON block and carry their other type here; `IX` entries are not registers. -/
inductive Acc where
  | ro | rw | wm | wg | w1c | rc | wo
  deriving DecidableEq, Repr

/-- A register field by its place: the register's offset in its block, the field's lowest bit and its width. -/
structure Fld where
  off : Nat
  lsb : Nat
  width : Nat
  deriving DecidableEq, Repr

/-- A field row of the register index: its name, place and access type. -/
structure FieldD where
  name : String
  lsb : Nat
  width : Nat
  acc : Acc
  deriving DecidableEq, Repr

/-- A register row of the register index: its name without the block, its offset, how many registers of 4-byte stride it stands for, its cold-reset word, whether it is a statistics counter (16 R471), and its fields. -/
structure RegD where
  name : String
  off : Nat
  count : Nat
  reset : Nat
  counter : Bool
  fields : List FieldD
  deriving DecidableEq, Repr

end Machine

end Sys2Proof
end

