-- ==== Sys2Proof/Syntax.lean ====
section
/-! DEFINITION. The commands of the EW1672: one constructor for each row of spec/opcode_table.json, with the operands that the row's rule speaks of, and the types of those operands. What the outside world decides (bit errors, measured eyes, pin levels) is an operand too. -/

namespace Sys2Proof

/-- Slot 0 of a request with an OPC from 0x0 to 0x7 (04 R110), without the opcode, which the command's row gives, and without the reserved bits, which the EW1672 ignores. -/
structure Hdr where
  tag : BitVec 12
  stream : BitVec 12
  seq : BitVec 16
  man : BitVec 8
  deadline : BitVec 32
  /-- message bits [43:7] (04 R111) -/
  arg : BitVec 37
  ndf : Bool
  sub : BitVec 4
  deriving DecidableEq, Repr, Inhabited

/-- The request opcodes that carry a header (04 R109). -/
inductive Opc where
  | rd | wr | wrp | add | enq | deq | walk | sync
  deriving DecidableEq, Repr, Inhabited

/-- The opcode's value (04 R109), which is also the journal's (01 R20). -/
def Opc.code : Opc → Nat
  | .rd => 0 | .wr => 1 | .wrp => 2 | .add => 3 | .enq => 4 | .deq => 5 | .walk => 6 | .sync => 7

/-- A request as it stands complete in an intake buffer (02 R56): its opcode, its header and the slots after slot 0. -/
structure Req where
  opc : Opc
  hdr : Hdr
  slots : List Slot
  /-- the port was reset after its arrival, so its tag is void (03 R98) -/
  void : Bool := false
  deriving DecidableEq, Repr, Inhabited

/-- What the ECC of a journal entry's two copies showed when a step read them (01 R37, R539). The errors themselves come from outside the machine, so a command that acts on the journal carries them. -/
structure JournalErr where
  ring : Fin 16
  entry : BitVec 12
  /-- copy A has an uncorrectable error -/
  badA : Bool
  /-- copy B has an uncorrectable error -/
  badB : Bool
  deriving DecidableEq, Repr

/-- What SEC-DED found in a Waystation line (07 R210). -/
inductive LineEcc where
  | clean | corrected | uncorrectable
  deriving DecidableEq, Repr, Inhabited

/-- A place that a command names by its number (in a channel's command line, in a journal ring), with what the ECC of the journal entries that the command reads or writes showed (01 R539). -/
structure Pick where
  no : Nat
  errs : List JournalErr := []
  deriving DecidableEq, Repr, Inhabited

/-- A channel that a command names, with what the ECC of the journal entries that the command acts on showed (01 R539), and what SEC-DED found in the line of a displaced row's copy that it reads (13 R378). -/
structure ChPick where
  ch : Fin 16
  errs : List JournalErr := []
  ecc : LineEcc := .clean
  deriving DecidableEq, Repr, Inhabited

/-- A background request by its number in its channel's list, with what SEC-DED found in the Waystation line that it reads (07 R210). -/
structure BgPick where
  no : Nat
  ecc : LineEcc := .clean
  deriving DecidableEq, Repr, Inhabited

/-- A received flit (03 R70, R71): its header fields, its slots, its CRC field, and what the FEC decoder did with the codewords it overlaps (03 R68, R69). -/
structure Flit where
  ft : BitVec 4
  fseq : BitVec 12
  ackseq : BitVec 12
  ackk : BitVec 2
  cumx : BitVec 16
  cumt : BitVec 8
  cumc : BitVec 8
  /-- header bits [33:19]; bit i is set when a message starts in slot i -/
  som : BitVec 15
  padfrom : BitVec 4
  rply : Bool
  epoch : BitVec 3
  lreq : BitVec 3
  badlane : BitVec 4
  resv : BitVec 4
  slots : Vector Slot 15
  crc : BitVec 32
  /-- a codeword the flit overlaps was uncorrectable (03 R69) -/
  fecBad : Bool
  /-- the corrected symbols of those codewords, as physical lane and count (03 R107) -/
  fecCorr : List (Fin 16 × Nat)
  deriving DecidableEq, Repr

/-- The training record of a TRAIN flit (03 R89). -/
structure TrainRec where
  tstate : BitVec 4
  twidth : BitVec 2
  trate : Bool
  lgood : BitVec 16
  tepoch : BitVec 3
  nextrx : BitVec 12
  advx : BitVec 15
  advt : BitVec 6
  advc : BitVec 7
  lossless : Bool
  laneid : BitVec 4
  deriving DecidableEq, Repr

/-- A symbol error of a burst: the symbol position and what is XORed onto the symbol (10 R294 to R297). -/
abbrev SymErr := Fin 72 × BitVec 16

/-- The symbol errors that the read of a line meets, and those of its reread (10 R304); `key` names the journal entry that is replayed, or the line. -/
structure ReadErrs where
  key : Nat
  sym : List SymErr
  again : List SymErr := []
  deriving DecidableEq, Repr, Inhabited

/-- What the replay of a ring meets: errors of the journal's copies (01 R539), and of the lines that its entries read. -/
structure RplErrs where
  copies : List JournalErr := []
  reads : List ReadErrs := []
  deriving DecidableEq, Repr, Inhabited

/-- A channel whose TWIN lines are copied back, with the errors of lines that are read for it (01 R41). -/
structure CopyPick where
  ch : Fin 16
  reads : List ReadErrs := []
  deriving DecidableEq, Repr, Inhabited

/-- One device's burst of an MR4 poll (10 R316, R317). -/
inductive Mr4 where
  /-- a refresh rate of 1x or less -/
  | cool
  /-- a refresh rate above 1x -/
  | hot
  /-- a temperature above the range that 2x refresh covers -/
  | over
  /-- no valid burst, or a reserved code -/
  | bad
  deriving DecidableEq, Repr, Inhabited


/-- The manifest classes (05 R139), with the codes of 05 R164. -/
inductive MClass where
  | shared | guar | rt
  deriving DecidableEq, Repr, Inhabited

def MClass.code : MClass → Nat
  | .shared => 0 | .guar => 1 | .rt => 2

/-- The reservation fields of a manifest (05 R139). -/
structure MFields where
  cls : MClass := .shared
  twin : Bool := false
  ports : BitVec 4 := 0
  bw : Nat := 0
  lat : Nat := 0
  way : Nat := 0
  qbase : Nat := 0
  qcount : Nat := 0
  blocks : Nat := 0
  dirty : Nat := 0
  jshare : Nat := 0
  ishare : Nat := 0
  deriving DecidableEq, Repr, Inhabited

/-- The fields a `manifest modify` line gives (05 R150); none leaves a field as it is. -/
structure MMod where
  ports : Option (BitVec 4) := none
  bw : Option Nat := none
  lat : Option Nat := none
  way : Option Nat := none
  q : Option (Nat × Nat) := none
  blocks : Option Nat := none
  dirty : Option Nat := none
  jshare : Option Nat := none
  ishare : Option Nat := none
  cls : Option MClass := none
  twin : Option Bool := none
  deriving DecidableEq, Repr, Inhabited

/-- The widest run of passing points that a sweep found for one bit, pair, pin or device of a rank (11 R333): none passes where `right < left`. -/
structure Eye where
  rank : Fin 2
  unit : Nat
  left : Nat
  right : Nat
  deriving DecidableEq, Repr, Inhabited

/-- WIDTH of an eye (11 R333). -/
def Eye.width (e : Eye) : Nat := e.right + 1 - e.left

/-- CENTRE of an eye (11 R333). -/
def Eye.centre (e : Eye) : Nat := (e.left + e.right) / 2

/-- How a device answers IDENT (11 R334): whether it answers at all, is x16 or stacked, is x8, and its density in Gb. -/
structure DevId where
  rank : Fin 2
  dev : Nat
  answers : Bool
  x16 : Bool
  stacked : Bool
  x8 : Bool
  gb : Nat
  /-- the refresh-management thresholds that it reports (11 R338) -/
  imt : Nat := 32
  mmt : Nat := 96
  deriving DecidableEq, Repr, Inhabited

/-- A burst as received on the 72 DQ bits: bit b of beat t stands at 72 t + b (11 R331). -/
abbrev Burst := BitVec 1152

/-- The bursts received at one point: at a setting of a swept control, or at an offset from the present settings. A burst that is not listed was received as expected. -/
structure Probe where
  pos : Int
  got : List Burst
  deriving DecidableEq, Repr, Inhabited

/-- What the channel's devices and board answer to one step of the training sequence (11 R334). The steps come in the sequence's order. -/
inductive StepAns where
  | reset (rcd : Bool)
  /-- RCD_CA and DEV_CA: eyes of the CA and CS_N pins, or of the devices, and the Vref codes found -/
  | ca (eyes : List Eye)
  | ident (devs : List DevId)
  /-- WLVL and RGATE: the position found for each strobe pair of each rank, or none -/
  | found (l : List (Fin 2 × Nat × Option Nat))
  /-- RD_DQ, RD_VREF, WR_DQ, WR_VREF and DFE: eyes in steps or codes -/
  | eyes (l : List Eye)
  /-- OSC: rank, device and count -/
  | osc (l : List (Fin 2 × Nat × Nat))
  | skew (rr ww rw wr : Nat)
  /-- CHECK: the receive, transmit, CA and Vref eyes at the applied centres, and what IDENT, WLVL and RGATE find again -/
  | check (rd wr ca vref : List Eye) (devs : List DevId) (lvl gate : List (Fin 2 × Nat × Option Nat))
  | fill
  deriving DecidableEq, Repr, Inhabited

/-- What a proofing pause receives (11 R342, R344): each device's oscillator count, none where the MRR is no valid burst, and the bursts at its probe points, by their offset from the present settings. -/
structure PauseRes where
  counts : List (Option Nat)
  points : List Probe
  deriving DecidableEq, Repr, Inhabited

/-- What a PHY slice receives (13 R384): the bursts at its probe points, or in the CA kind the pins and offsets at which CHn_ALERT_N went low. -/
structure PhyRes where
  points : List Probe
  low : List (Nat × Int)
  deriving DecidableEq, Repr, Inhabited

/-- Why a domain faults (14 R415). -/
inductive GateCause where
  | current | timeout | trip
  deriving DecidableEq, Repr, Inhabited

def GateCause.code : GateCause → Nat
  | .current => 1 | .timeout => 2 | .trip => 3

/-- The cause of a gate fault, with what the ECC of the journal entries that it makes the part act on showed (01 R539, 14 R415). -/
structure GatePick where
  cause : GateCause
  errs : List JournalErr := []
  deriving DecidableEq, Repr, Inhabited

/-- The targets of self-test (13 R370, R387), with the codes of BST_COVt. -/
inductive BTarget where
  | way | dram | patrol | phy | lane
  deriving DecidableEq, Repr, Inhabited

def BTarget.code : BTarget → Nat
  | .way => 0 | .dram => 1 | .patrol => 2 | .phy => 3 | .lane => 4

/-- The IEEE 1149.1 instructions (18 R534): BYPASS, IDCODE, or any other. -/
inductive TapIr where
  | bypass | idcode | other
  deriving DecidableEq, Repr, Inhabited

/-- The form `train ch=<n> sweep ctrl= rank= src= first= last= step= bursts= apply=` (15 R445): `ctrl` is a code of PHYn_SWP_CTL.CTRL. -/
structure SweepForm where
  ctrl : Nat := 0
  rank : Nat := 0
  src : Nat := 0
  first : Nat := 0
  last : Nat := 127
  step : Nat := 1
  bursts : Nat := 64
  app : Bool := false
  deriving DecidableEq, Repr, Inhabited

/-- The value of a `set` line (15 R447). -/
inductive SetVal where
  | num (n : Nat)
  | sym (w : String)
  deriving DecidableEq, Repr, Inhabited

/-- What `help` is asked for (15 R445). -/
inductive HelpOf where
  | all
  | verb (w : String)
  | name (w : String)
  | code (n : Nat)
  deriving DecidableEq, Repr, Inhabited

/-- The views of `show` with their arguments (15 R448). -/
inductive View where
  | journal (ch : Nat)
  | stream (port strm : Nat)
  | clocks
  | probe
  | port (p : Nat)
  | txn
  | capacity (ch : Nat)
  | toll (port : Nat)
  | arb (ch : Nat)
  | account (man ch : Nat)
  | walk (h : Nat)
  | pool
  | queue (q : Nat)
  | queueMan (man : Nat)
  | map (addr : Nat)
  | channel (n : Nat)
  | ecc (ch : Nat)
  | rowact (ch : Nat)
  | phy (ch rank bit : Nat)
  | power
  | console
  | other (w : String)
  deriving DecidableEq, Repr, Inhabited

/-- A command: one row of the table of operations and events. -/
inductive Instr where
  /-- RD, R62. A complete RD request is taken from the intake buffer, classified and checked, and sent to contest its arbiter. -/
  | rd (port : Fin 4) (h : Hdr) (ue : Bool)
  /-- WR, R62. A complete WR request is classified, checked and sent to contest for an intake slot. -/
  | wr (port : Fin 4) (h : Hdr) (body : List Slot) (ue : Bool)
  /-- WRP, R62. A complete partial-write request is classified, checked and sent to contest for an intake slot. -/
  | wrp (port : Fin 4) (h : Hdr) (body : List Slot) (ue : Bool)
  /-- ADD, R112. A complete counter ADD request is classified, checked and sent to contest for an intake slot. -/
  | add (port : Fin 4) (h : Hdr) (body : List Slot) (ue : Bool)
  /-- ENQ, R245. A complete ENQ request is classified, quota-checked against BLOCKS and sent to contest at the Waystation arbiter. -/
  | enq (port : Fin 4) (h : Hdr) (body : List Slot) (ue : Bool)
  /-- DEQ, R248. A complete DEQ request is classified, checked and sent to contest at the Waystation arbiter. -/
  | deq (port : Fin 4) (h : Hdr) (ue : Bool)
  /-- WALK, R216. A complete WALK request is classified, checked against its descriptor and sent to contest at the Waystation arbiter. -/
  | walk (port : Fin 4) (h : Hdr) (body : List Slot) (ue : Bool)
  /-- SYNC, R133. A SYNC request is classified and accepted without quota, journal entry or contest. -/
  | sync (port : Fin 4) (h : Hdr) (ue : Bool)
  /-- TIME, R131. A TIME request is answered by the port from its DTIME copy with TIME_R carrying T2 and T3. -/
  | time (port : Fin 4) (slot : Slot) (rply : Bool)
  /-- CON_MESSAGE, R428. A class C tunnel message delivers its console bytes to the tunnel input FIFO, or discards the partial line when LEN is 0. -/
  | conMessage (port : Fin 4) (slot : Slot)
  /-- ARBITER_CONTEST, R170. Each CK_CORE cycle an arbiter ranks its contestants by the ordering key and grants slots, refusing rank-0 losers and keeping others in contest. -/
  | arbiterContest (arb : Fin 17) (errs : List JournalErr)
  /-- RESV_GRANT, R180. The oldest waiting RESV attempt takes its journal weight, reservation and reserved slot together once they are free. -/
  | resvGrant (arb : Fin 17) (errs : List JournalErr)
  /-- WAYSTATION_ACCESS_COMPLETE, R61. A granted Waystation read or write completes, reaching data valid or a written line, and its outcome is recorded and sent. -/
  | waystationAccessComplete (idx : Nat) (ecc : LineEcc) (errs : List JournalErr)
  /-- COMMAND_ADMISSION, R277. A granted command enters the channel's command line, with same-line hold and in-order mode decided at admission. -/
  | commandAdmission (ch : ChPick)
  /-- COMMAND_ISSUE, R279. The channel issues the ACT, PRE or column command that timing allows, in command-line order. -/
  | commandIssue (ch : Fin 16) (pos : Pick)
  /-- BURST_DECODE, R296. A read burst is decoded as CLEAN, CORRECTED, POISON or UNCORRECTABLE, and its data goes to the merge unit, response assembly or a reread. -/
  | burstDecode (ch : Fin 16) (sym again : List SymErr) (errs : List JournalErr)
  /-- ALERT_WINDOW_CLOSE, R310. A command's alert window closes clean and it leaves the retry buffer; a write becomes durable, ending in-order mode and allowing retirement and DONE. -/
  | alertWindowClose (ch : Fin 16) (errs : List JournalErr)
  /-- ALERT, R311. A low CHn_ALERT_N starts or restarts a replay from the retry buffer. -/
  | alert (ch : ChPick)
  /-- ALERT_HOLD_EXPIRY, R311. ALERT_N held low for more than 256 DRAM CK cycles makes the channel clear the RCD's error state. -/
  | alertHoldExpiry (ch : Fin 16)
  /-- REPLAY_TIMEOUT, R312. After 1,500 ns without a successful attempt, the replay is abandoned and the channel enters CHANNEL_FAULT. -/
  | replayTimeout (ch : ChPick)
  /-- REFRESH_DUE, R315. A refresh interval expires, and the rank's REFsb commands fall due at entry boundaries. -/
  | refreshDue (ch : Fin 16) (rank : Fin 2)
  /-- MR4_POLL, R316. The MR4 poll timer expires, the devices' refresh-rate fields are read, and the refresh rate is doubled or restored. -/
  | mr4Poll (ch : Fin 16) (r0 r1 : List Mr4)
  /-- ROWACT_WINDOW_BOUNDARY, R322. At a tracker window boundary, the trackers are cleared and throttle levels and manifest limits are relaxed. -/
  | rowactWindowBoundary (ch : Fin 16)
  /-- MARK_WINDOW_END, R298. A mark window ends, and the per-device window counts return to 0. -/
  | markWindowEnd (ch : Fin 16)
  /-- RANK_POWER_DOWN, R286. A rank's idle timer expires with nothing due for it, and the rank enters power-down. -/
  | rankPowerDown (ch : Fin 16) (rank : Fin 2)
  /-- PAGE_TIMEOUT, R279. An open row has had no access for PAGE_TMO cycles and is precharged. -/
  | pageTimeout (ch : Fin 16) (bank : Nat)
  /-- SPARE_REWRITE, R300. One line of the marked rank is read, re-encoded in the spared layout and written, advancing CHn_SPAREPTR. -/
  | spareRewrite (ch : Fin 16) (sym : List SymErr)
  /-- SCRUB_READ, R307. Patrol scrub reads the next line and writes it back if it is corrected. -/
  | scrubRead (ch : Fin 16) (sym again : List SymErr)
  /-- BACKGROUND_GRANT, R288. A background request takes a background slot, drawing on its bucket or on unclaimed capacity. -/
  | backgroundGrant (ch : Fin 16) (req : BgPick)
  /-- PROOF_PAUSE_DUE, R341. The pause interval expires and a proofing pause becomes due, stopping column issue once a start condition holds. -/
  | proofPauseDue (ch : Fin 16)
  /-- PROOF_PAUSE_START, R342. With the retry buffer empty, a proofing pause starts its oscillator and probe steps on its rank. -/
  | proofPauseStart (ch : Fin 16)
  /-- PROOF_PAUSE_END, R343. A pause ends, applying read, Vref and drift adjustments and resuming issue. -/
  | proofPauseEnd (ch : Fin 16) (res : PauseRes)
  /-- PAUSE_HOLDBACK_EXPIRY, R356. A pause held back by the ledger for 4 × INT_US must start regardless of the ledger. -/
  | pauseHoldbackExpiry (ch : Fin 16)
  /-- PERIOD_BOUNDARY, R176. At each 1,024 ns boundary, accounts restart and deliverable capacity, effective minima, limits and buckets are updated. -/
  | periodBoundary
  /-- TOLL_GATE_REFILL, R182. Every 64 ns each port's toll gate gains RATE sixteenths of a line, up to BURST. -/
  | tollGateRefill
  /-- HORIZON_HOLD_EXPIRY, R33. The old horizon has elapsed once more, and HORIZON_US takes the lower computed value. -/
  | horizonHoldExpiry
  /-- MIGRATION_EPOCH, R201. At each epoch boundary, hot-filter counters halve, AGE falls and stalled promotions are abandoned. -/
  | migrationEpoch
  /-- PROMOTION_COMPLETE, R203. A FILLING frame becomes RESIDENT once all lines are filled, none is stale and no probed miss is outstanding. -/
  | promotionComplete (pinned : Bool) (frame : Nat)
  /-- DEMOTION_COMPLETE, R204. A LEAVING frame with no dirty line and no pending hitter becomes FREE. -/
  | demotionComplete (pinned : Bool) (frame : Nat)
  /-- STAGE_IMAGE_LOADED, R221. A stage image becomes present, and caravans waiting on it proceed. -/
  | stageImageLoaded (desc slot : Nat)
  /-- CARAVAN_STAGE_END, R220. Every key of a caravan has ended a stage, and the next stage begins or the results are returned. -/
  | caravanStageEnd (ring : Fin 16) (entry : Pick)
  /-- WALK_HOLD_EXPIRY, R224. A caravan's WAIT hold time expires, and the stage is resolved by BYPASS. -/
  | walkHoldExpiry (ring : Fin 16) (entry : Nat)
  /-- WALK_READ_RETRY, R222. After its back-off, the walk engine retries a lost caravan line read or image load read. -/
  | walkReadRetry (idx : Nat)
  /-- ENQ_APPLY, R247. After earlier queue work has written its descriptor, an ENQ computes its descriptor image, goes to RSLT and writes the descriptor. -/
  | enqApply (ring : Fin 16) (entry : Pick) (recBad : Option Nat)
  /-- DEQ_APPLY, R250. After earlier queue work has written its descriptor, a DEQ reads its cells, records the result, writes the descriptor and streams the cells. -/
  | deqApply (ring : Fin 16) (entry : Pick) (recBad : Option Nat) (eccs : List LineEcc)
  /-- QUEUE_POOL_READY, R236. Pool initialisation finishes, QUE_RSV and MAN_BLKMAX are set, and the event is emitted. -/
  | queuePoolReady
  /-- DATA_FLIT, R79. A DATA flit is received and either delivered in order, discarded as a replay overlap or used to start a NAK episode; its acknowledgement and credits are processed. -/
  | dataFlit (port : Fin 4) (f : Flit)
  /-- IDLE_FLIT, R72. An IDLE flit is received, and its acknowledgement, credit and LREQ fields are processed. -/
  | idleFlit (port : Fin 4) (f : Flit)
  /-- TRAIN_FLIT, R89. A TRAIN flit's record is checked and advances ALIGN, INIT or RETRAIN. -/
  | trainFlit (port : Fin 4) (f : Flit) (lock pass : BitVec 16) (rev : Bool)
  /-- NAK_TIMEOUT, R79. A NAK episode lasts NAK_TMO cycles, and the NAK is sent again. -/
  | nakTimeout (port : Fin 4)
  /-- ACK_TIMEOUT, R81. No acknowledgement has advanced for ACK_TMO cycles, so the sender retransmits, entering RETRAIN after RPL_MAX tries. -/
  | ackTimeout (port : Fin 4)
  /-- DETECT_LOCK, R91. Lanes of a supported group hold lock for 16,384 cycles, and the port enters EQUALISE. -/
  | detectLock (port : Fin 4) (good inv : BitVec 16)
  /-- EQUALISE_DONE, R91. After 2,000,000 cycles with lock held, the port enters ALIGN. -/
  | equaliseDone (port : Fin 4) (good : BitVec 16)
  /-- TRAINING_TIMEOUT, R92. A training state times out, and the port returns to DETECT or goes DOWN, or resets from RETRAIN. -/
  | trainingTimeout (port : Fin 4)
  /-- LANE_SIGNAL_LOSS, R95. A receiver loses CDR lock or signal for 64 cycles, the lane is failed and RETRAIN begins. -/
  | laneSignalLoss (port : Fin 4) (lane : Fin 16)
  /-- LANE_SER_WINDOW, R95. A 65,536-codeword window ends, and lanes whose corrected errors exceeded SER_TH are failed. -/
  | laneSerWindow (port : Fin 4)
  /-- PORT_RESET, R98. A port reset discards buffers, restores credits, voids tags and retrains with a new epoch. -/
  | portReset (port : Fin 4)
  /-- RETRAIN, R104. HPn_CMD.RETRAIN starts a lossless RETRAIN at the current width. -/
  | retrain (port : Fin 4)
  /-- UPGRADE, R97. An upgrade starts a lossless RETRAIN that re-tests lanes up to WIDTH_MAX. -/
  | upgrade (port : Fin 4)
  /-- PORT_ENABLE, R103. Setting HPn_CTL.EN starts training from DETECT, and clearing it takes the port DOWN through a port reset. -/
  | portEnable (port : Fin 4) (en : Bool)
  /-- TUNNEL_ENABLE, R102. A TUN_EN write makes the port carry the console tunnel, or is discarded if another port has it. -/
  | tunnelEnable (port : Fin 4) (en : Bool)
  /-- TX_PLL_LOCK_LOSS, R98. A port's transmit PLL loses lock, and the port resets. -/
  | txPllLockLoss (port : Fin 4)
  /-- JOURNAL_REPLAY, R36. When a channel returns to service after warm reset, its ring is replayed from oldest to newest. -/
  | journalReplay (ch : Fin 16) (errs : RplErrs)
  /-- POISON_FILL_DONE, R305. A restored channel finishes its poison fill, returns to IN_SERVICE and starts at the doubled refresh rate. -/
  | poisonFillDone (ch : Fin 16)
  /-- TWIN_RESYNC, R41. The copy-back of TWIN data to a restored channel finishes. -/
  | twinResync (ch : CopyPick)
  /-- MAP_LOAD, R275. GLB_MAP_CTL.LOAD checks the map and loads it, putting member channels into service. -/
  | mapLoad
  /-- LOAD_TIMING_PROFILE, R283. CHn_CMD.PROFILE loads the built-in timing profile for the channel's rate when not in service. -/
  | loadTimingProfile (ch : Fin 16)
  /-- TRAIN_START, R334. Training starts the reference sequence, or RESET only in manual mode. -/
  | trainStart (ch : Fin 16) (manual : Bool) (ans : List StepAns)
  /-- TRAIN_END, R339. A manual session is ended by running IDENT, OSC, SKEW, CHECK and FILL. -/
  | trainEnd (ch : Fin 16) (ans : List StepAns)
  /-- TRAINING_COMPLETE, R337. Training finishes FILL, and the channel becomes READY with train_done. -/
  | trainingComplete (ch : Fin 16) (ans : List StepAns)
  /-- TRAINING_STEP_TIMEOUT, R335. A training step exceeds 50 ms, and training fails with REASON 11. -/
  | trainingStepTimeout (ch : Fin 16)
  /-- MANUAL_TRAINING_TIMEOUT, R339. A manual session passes 10 s, and training fails. -/
  | manualTrainingTimeout (ch : Fin 16)
  /-- SWEEP_START, R333. A sweep of one control starts, moving from FIRST to LAST. -/
  | sweepStart (ch : Fin 16) (form : Option SweepForm)
  /-- SWEEP_DONE, R333. A sweep ends, reporting each bit's eye and applying or restoring the control. -/
  | sweepDone (ch : Fin 16) (eyes : List Probe)
  /-- COMPARE_CLEAR, R332. PHYn_SWP_CTL.CLR clears the compare counters and the first-failure record. -/
  | compareClear (ch : Fin 16)
  /-- RELOCK_DONE, R340. A channel leaving self-refresh finishes its refreshes and re-lock pauses and returns to IN_SERVICE. -/
  | relockDone (ch : Fin 16) (res : List PauseRes)
  /-- LEDGER_WINDOW_END, R353. A 10.24 µs window ends, and its energy E_k is evaluated. -/
  | ledgerWindowEnd
  /-- LEDGER_ACTION_POINT, R359. At the action point, the throttle level changes and background work is planned into the headroom. -/
  | ledgerActionPoint
  /-- HOLD_APPLY, R362. A hold-up declaration is checked, and either sets N_hold and MAN_DIRTYMAX or is refused. -/
  | holdApply (decl : Option (Nat × Nat))
  /-- PFAIL, R364. PFAIL_N asserts, classification stops and the dirty-data flush begins. -/
  | pfail (lowNs : Nat)
  /-- PFAIL_FLUSH_DONE, R364. The flush ends with channels in self-refresh, WAY_RET_EN asserted and the result recorded. -/
  | pfailFlushDone
  /-- PFAIL_RELEASE, R365. PFAIL_N rises again after or during a flush, leading to a warm reset once VDD_WAY is at run level. -/
  | pfailRelease
  /-- WAY_SLICE_START, R373. A Waystation slice takes and relocates its frames and begins the march once all are TEST. -/
  | waySliceStart
  /-- WAY_SLICE_END, R374. A Waystation slice finishes its march and read-scrub and returns or retires its frames. -/
  | waySliceEnd (bad : List Nat) (scrub : List (Nat × LineEcc)) (errs : List JournalErr)
  /-- DRAM_SLICE_START, R376. A DRAM slice takes account room and frames and begins copying its row. -/
  | dramSliceStart (ch : Fin 16)
  /-- ROW_DISPLACED, R377. The row copy is complete, and commands to the row are served from the copy. -/
  | rowDisplaced (ch : Fin 16) (eccs : List LineEcc)
  /-- DRAM_PHASE_END, R380. A test phase ends, is repeated on error, and may mark a device or stop the slice. -/
  | dramPhaseEnd (ch : Fin 16) (bits : BitVec 72)
  /-- ROW_RESTORED, R381. The row restore completes, and the slice releases its frames and account room. -/
  | rowRestored (ch : Fin 16)
  /-- SLICE_BUDGET_EXPIRY, R382. A DRAM slice phase passes its time budget, and the slice stops and restores its row. -/
  | sliceBudgetExpiry (ch : Fin 16)
  /-- PHY_SLICE_START, R383. A PHY slice starts as a pause probing margins of one kind. -/
  | phySliceStart (ch : Fin 16)
  /-- PHY_SLICE_END, R384. A PHY slice ends, recording margins and restoring the settings file. -/
  | phySliceEnd (ch : Fin 16) (margins : PhyRes)
  /-- LANE_SLICE, R386. A lane eye-monitor scan runs and records eye height and width. -/
  | laneSlice (port : Fin 4) (mv mui : Nat)
  /-- BIST_RUN, R393. The bist run command starts the next slice of a target at once, or refuses it. -/
  | bistRun (target : BTarget) (unit : Option Nat)
  /-- BIST_SHOW, R393. The bist show command reports coverage and slice state. -/
  | bistShow (target : Option BTarget) (unit : Option Nat)
  /-- BIST_LOG, R392. The bist log command lists self-test fault-log entries, newest first. -/
  | bistLog (last : Nat)
  /-- SLEEP_DOZE, R401. The sleep doze command stops intake and starts the drain toward DOZE. -/
  | sleepDoze
  /-- SLEEP_BANKED, R401. The sleep banked command stops intake and starts the drain toward BANKED. -/
  | sleepBanked
  /-- DRAIN_COMPLETE, R400. The drain ends, and the entry proceeds through write-back, QUIET and self-refresh. -/
  | drainComplete
  /-- DRAIN_TIMEOUT, R400. The drain passes DRAIN_US, and the entry is abandoned. -/
  | drainTimeout
  /-- SLEEP_PARK_DONE, R401. All channels are in self-refresh; DOZE gates clocks, or BANKED saves the bank image and Starter store. -/
  | sleepParkDone
  /-- WAKE_WINDOW_END, R404. Three CK_SLOW edges after the save, the matcher arms, WAKE_N is sampled and the gates open. -/
  | wakeWindowEnd
  /-- RETENTION_CHECK, R401. RET_US after the gates open, VDD_WAY is checked, CK_FIO stops and the regulator goes to low power. -/
  | retentionCheck (inWindow : Bool)
  /-- WAKE_N, R405. WAKE_N held low for at least 2 µs ends DOZE or BANKED, or aborts an entry. -/
  | wakeN (lowNs : Nat)
  /-- WAKE_PORT_MATCH, R406. A wake-port address match is acknowledged and triggers a wake. -/
  | wakePortMatch (addr : BitVec 7) (read : Bool) (bytes : Nat)
  /-- LINK_WAKE, R405. Receive signal on an enabled QUIET port ends DOZE. -/
  | linkWake (port : Fin 4)
  /-- AON_TIMER_WAKE, R405. AON_TIMER reaches its count and ends BANKED. -/
  | aonTimerWake
  /-- BANK_IMAGE_RESTORED, R410. The bank image restore ends, the console comes alive and the device awaits resume. -/
  | bankImageRestored (ok : Bool)
  /-- RETENTION_SETTLE, R521. RET_US after WAY_RET_EN falls, the Waystation is used at run voltage. -/
  | retentionSettle
  /-- SLEEP_WAKE, R405. The sleep wake command ends DOZE. -/
  | sleepWake
  /-- SLEEP_RESUME, R412. The sleep resume command brings channels out of self-refresh and starts port training after a BANKED wake. -/
  | sleepResume
  /-- CLOCK_RUN, R411. The clock run command locks the core PLL and switches CK_CORE, CK_MGT and DTIME to it. -/
  | clockRun (lock : Bool)
  /-- GATE_RAMP_STAGE, R414. A gate ramp stage ends, and the next stage begins or the domain is released as on. -/
  | gateRampStage (dom : Fin 23)
  /-- GATE_FAULT, R415. A domain's current exceeds its limit or its rail times out, and its gate opens and is latched faulted. -/
  | gateFault (dom : Fin 23) (cause : GatePick)
  /-- POWER_RETRY, R418. PWR_RETRY ramps a faulted channel or port domain once, or refuses. -/
  | powerRetry (dom : Nat)
  /-- BROWNOUT, R419. The AON output stays below brown-out for more than 1 µs, so AON state is lost and the next start is cold. -/
  | brownout
  /-- RETENTION_LOST, R522. VDD_WAY falls out of its retention window while WAY_RET_EN is high, and RET_LOST is set. -/
  | retentionLost
  /-- POWER_ON, R519. VIN_AON rises, the AON domain starts and the start kind is decided. -/
  | powerOn
  /-- WAYSTATION_CLEAR_DONE, R494. The background Waystation clear ends, releasing commands that wait for it. -/
  | waystationClearDone
  /-- RESET_N, R501. RESET_N held low for 1 µs starts a warm reset, which holds after step 4 while the pin stays low. -/
  | resetN (lowNs : Nat)
  /-- RESET_N_RELEASE, R501. Release of RESET_N completes the held warm reset and the console restarts. -/
  | resetNRelease
  /-- WATCHDOG_EXPIRY, R506. The watchdog count reaches its timeout, and a warm reset follows. -/
  | watchdogExpiry
  /-- WATCHDOG_KICK, R506. GLB_WDOG_KICK restarts the watchdog count. -/
  | watchdogKick
  /-- CORE_PLL_LOCK_LOSS, R500. The core PLL loses lock, and a warm reset runs on CK_FIO with replay held until clock run. -/
  | corePllLockLoss
  /-- RESET_WARM, R449. The reset warm command answers ok and starts a warm reset once the answer has left. -/
  | resetWarm
  /-- RESET_COLD, R449. The reset cold command answers ok and starts a cold reset. -/
  | resetCold
  /-- RESET_PORT, R503. The reset port command starts a per-port reset, or refuses it for an isolated port. -/
  | resetPort (port : Fin 4)
  /-- PER_CHANNEL_RESET, R504. The reset ch command loses the channel, retrains it and poison-fills it, or refuses it. -/
  | perChannelReset (ch : ChPick)
  /-- SNAPSHOT_CAPTURE, R472. SNP_CMD.CAPTURE copies every clocked domain's counters into shadow sets. -/
  | snapshotCapture
  /-- SNAPSHOT_DONE, R472. The shadow set reaches the holding set, SNP_SEQ advances and BUSY clears. -/
  | snapshotDone
  /-- LAYOUT_COMMIT, R197. WAY_CTL.COMMIT, or the first reaching manifest open, fixes the Waystation layout and its derived limits. -/
  | layoutCommit
  /-- WAY_CARVE_WRITE, R197. A WAY_CARVE write is stored, or discarded with CARVE_REJ if out of range or committed. -/
  | wayCarveWrite (v : Word)
  /-- PIN_ENABLE, R206. Setting a pin entry's EN fills its segments into pinned frames, or is discarded. -/
  | pinEnable (k : Fin 16)
  /-- PIN_DISABLE, R206. Clearing a pin entry's EN demotes and frees its segments. -/
  | pinDisable (k : Fin 16)
  /-- QUEUE_POOL_INIT, R236. QUE_CTL.INIT or queue pool checks the pool region and starts writing the free-block stack. -/
  | queuePoolInit (cmd : Option (Nat × Nat))
  /-- QUEUE_RESET, R264. The queue reset command frees a queue's readable blocks and sets it EMPTY, or refuses while requests are in flight. -/
  | queueReset (q : Nat)
  /-- MANIFEST_OPEN, R146. The manifest open command runs the admission checks and opens the manifest or refuses it. -/
  | manifestOpen (man : Nat) (f : MFields)
  /-- MANIFEST_MODIFY, R150. The manifest modify command re-checks admission with the old reservation removed. -/
  | manifestModify (man : Nat) (m : MMod)
  /-- MANIFEST_CLOSE, R151. The manifest close command puts the manifest in CLOSING and writes back its dirty lines, or is blocked. -/
  | manifestClose (man : Nat) (force : Bool)
  /-- MANIFEST_CLOSED, R151. A CLOSING manifest's last journal entry retires, and its reservations are freed. -/
  | manifestClosed (man : Nat)
  /-- WALK_DEFINE, R212. The walk define command writes descriptor words 0–1 of an unloaded descriptor. -/
  | walkDefine (desc man home : Nat) (bypass : Bool) (hold slots slotseg nctx : Nat)
  /-- WALK_STAGE, R213. The walk stage command writes one stage record of an unloaded descriptor. -/
  | walkStage (desc stage : Nat) (gather : Bool) (base segs shift width : Nat)
  /-- WALK_LOAD, R214. The walk load command checks a descriptor, reserves window space and sets VALID. -/
  | walkLoad (desc : Nat)
  /-- WALK_UNLOAD, R215. The walk unload command makes new WALKs of the descriptor fail and waits for USE to reach 0. -/
  | walkUnload (desc : Nat)
  /-- WALK_UNLOADED, R215. An unloading descriptor's USE reaches 0, so its reservation is freed and VALID is cleared. -/
  | walkUnloaded (desc : Nat)
  /-- STREAM_OPEN, R28. Setting a frozen stream open reopens it, resetting N and the window after a record error. -/
  | streamOpen (port : Fin 4) (strm : BitVec 12)
  /-- MARK_COMMAND, R326. The mark command marks a device of a rank in service, or refuses. -/
  | markCommand (ch : Fin 16) (rank : Fin 2) (dev : Nat)
  /-- PROBE_ARM, R65. TXN_PROBE_CTL.ARM arms the path probe to capture the next matching accepted request. -/
  | probeArm
  /-- GUARDED_VALUE_WRITE, R464. A write to a WG register makes its value pending, failing any older pending pair. -/
  | guardedValueWrite (addr : Nat) (v : Word)
  /-- GUARDED_COMPLEMENT_WRITE, R464. A complement-port write completes the guarded pair, or fails it. -/
  | guardedComplementWrite (addr : Nat) (v : Word)
  /-- GUARD_TIMEOUT, R464. 256 CK_MGT cycles pass without the complement, and the pending value is discarded. -/
  | guardTimeout
  /-- MASKED_WRITE, R463. A write to a WM register changes only the bits its mask selects. -/
  | maskedWrite (addr : Nat) (v : Word)
  /-- CLEAR_ON_READ, R466. A read of an RC field returns it and restarts the field. -/
  | clearOnRead (addr : Nat)
  /-- IND_DATA_READ, R468. A read of BLOCK_IND_DATA returns the indexed entry word, latching multi-word entries, and advances the index. -/
  | indDataRead (block : Nat)
  /-- IND_DATA_WRITE, R468. A write of BLOCK_IND_DATA writes the indexed entry word and advances the index. -/
  | indDataWrite (block : Nat) (v : Word)
  /-- AON_WRITE_EFFECT, R467. A queued AON register write takes effect at the second CK_SLOW rising edge. -/
  | aonWriteEffect
  /-- REGISTER_WRITE, R459. A write to a register with no row of its own is applied by its access type, or discarded with the flag its chapter names. -/
  | registerWrite (addr : Nat) (v : Word)
  /-- UART_BYTE, R432. A UART byte enters the line assembler, being stored, edited, echoed or ending the line, or overrunning the FIFO. -/
  | uartByte (b : Byte) (frame : Bool)
  /-- UART_BREAK, R427. A break on CON_RXD discards the partial line without an answer. -/
  | uartBreak
  /-- UNKNOWN_VERB, R450. A completed line whose first token is no verb, or that fails its line checks, is answered with an error. -/
  | unknownVerb
  /-- ID, R445. The id command reports vendor, device, revision, grade, serial, start kind and DTIME. -/
  | conId
  /-- HELP, R445. The help command lists verbs, forms, parameter names or error codes. -/
  | conHelp (topic : HelpOf)
  /-- CONSOLE_RD, R446. The rd command reads n registers. -/
  | conRd (addr n : Nat)
  /-- CONSOLE_WR, R446. The wr command writes an RW, W1C or WO register. -/
  | conWr (addr v : Nat)
  /-- WRM, R445. The wrm command makes a masked write to a WM register. -/
  | conWrm (addr mask v : Nat)
  /-- WRG, R446. The wrg command makes a guarded pair of writes. -/
  | conWrg (addr v : Nat)
  /-- IRD, R446. The ird command checks the index range, sets the index and reads n indirect words. -/
  | conIrd (block index n : Nat)
  /-- IWR, R446. The iwr command checks the index range, sets the index and writes indirect words. -/
  | conIwr (block index : Nat) (vs : List Nat)
  /-- GET, R447. The get command reads a named parameter. -/
  | conGet (name : String)
  /-- SET, R447. The set command validates a value and writes the parameter's whole register once. -/
  | conSet (name : String) (v : SetVal)
  /-- SHOW, R448. The show command reports one view of a chapter's registers. -/
  | conShow (view : View)
  /-- LEDGER_SHOW, R360. The ledger show command reports the ledger state or a manifest's energy account. -/
  | ledgerShow (man : Option Nat)
  /-- LOG, R452. The log command lists logged events, newest first. -/
  | conLog (last : Nat)
  /-- LOG_CLEAR, R452. The log clear command empties the console event log. -/
  | conLogClear
  /-- ECHO, R438. The echo command turns echo on or off, refusing on in strict mode. -/
  | conEcho (on : Bool)
  /-- MODE, R437. The mode command switches between typed and strict mode. -/
  | conMode (strict : Bool)
  /-- ANSWER_SENT, R441. The last character of an answer leaves CON_TXD, applying a pending baud change or starting a pending warm or cold reset, and the next line is read. -/
  | answerSent
  /-- EVENT_SEND, R442. A queued event is sent between output lines and logged, or lost when the queue is full. -/
  | eventSend
  /-- THERM_SAMPLE, R532. Each millisecond the temperature sensor is read, and THERM_N is asserted or released. -/
  | thermSample (tenths : Int)
  /-- XTAL_QUALIFIED, R526. After 4,096 qualifying crystal cycles, CK_SLOW switches to the crystal on an edge. -/
  | xtalQualified
  /-- XTAL_LOSS, R526. The crystal misses 4 expected edges in a row, and CK_SLOW returns to the RC oscillator. -/
  | xtalLoss
  /-- VIN_AON_OFF, R523. VIN_AON falls below its power-on level for more than 1 µs, and the device enters OFF with every domain and the AON state lost. -/
  | vinAonOff
  /-- CORE_SUPPLY_LOSS, R16. The board's core, PHY, link or I/O supplies are lost with VIN_AON kept and without a completed flush, so operation ends and the next start is cold. -/
  | coreSupplyLoss
  /-- CHANNEL_PLL_LOCK_LOSS, R64. A locked channel PLL loses lock, so its CH_LOCK bit clears and GLB_CLKSTAT.LOCK_LOSS is set. -/
  | channelPllLockLoss (ch : Fin 16)
  /-- TAP_INSTRUCTION, R534. An IEEE 1149.1 instruction is shifted in on TCK, TMS and TDI, giving IDCODE or BYPASS or taking the chained pins under boundary-scan control. -/
  | tapInstruction (ir : TapIr)
  /-- WAKE_PORT_STOP_CONDITION, R408. The first STOP condition on the wake bus after the management domain is running passes the wake port from the matcher to the responder. -/
  | wakePortStopCondition
  /-- ALIGNED_MILLISECOND_END, R306. At each multiple of 1,000,000 ns of DTIME, a channel's count of uncorrectable lines ends, ev ecc_ue reports that millisecond's lines, and the count restarts. -/
  | alignedMillisecondEnd (ch : Fin 16)
  /-- AON_REGULATOR_SETTLED, R410. After a BANKED wake trigger the AON regulator settles in normal mode, CK_FIO starts, and the MGT and CORE ramps begin. -/
  | aonRegulatorSettled
  deriving DecidableEq, Repr

end Sys2Proof
end

