-- ==== Sys2Proof/Decode.lean ====
section
/-! DEFINITION. The decoder of the table of operations and events. No row of that table gives bits: the part takes commands, not instruction words, so no word spells a command. -/

namespace Sys2Proof

/-- The command that a word of `nbits` bits spells by the table's bits. The table gives no row bits, so there is none. -/
def decodeTableWord (_nbits _w : Nat) : Option Instr := none

end Sys2Proof
end

