-- ==== Sys2Proof/Machine/RegTable.lean ====
section
/-! DEFINITION. The register index (16 R456-R492): every register of every block with its offset, its fields, their access types and its cold-reset word, and one named field for each. The rows follow the register tables of the chapters; the rule named beside a row is the one that gives its fields. -/

namespace Sys2Proof.Machine

/-! ### GLB -/

def GLB_DTIME_LO_NS_LO : Fld := ⟨0x020, 0, 32⟩
def GLB_DTIME_HI_NS_HI : Fld := ⟨0x024, 0, 32⟩
def GLB_CLKSTAT_CORE_LOCK : Fld := ⟨0x028, 0, 1⟩
def GLB_CLKSTAT_CORE_ON_PLL : Fld := ⟨0x028, 1, 1⟩
def GLB_CLKSTAT_MGT_ON_PLL : Fld := ⟨0x028, 2, 1⟩
def GLB_CLKSTAT_DTIME_FINE : Fld := ⟨0x028, 3, 1⟩
def GLB_CLKSTAT_SLOW_XTAL : Fld := ⟨0x028, 4, 1⟩
def GLB_CLKSTAT_LOCK_LOSS : Fld := ⟨0x028, 5, 1⟩
def GLB_CLKSTAT_LINK_LOCK : Fld := ⟨0x028, 8, 4⟩
def GLB_CLKSTAT_CH_LOCK : Fld := ⟨0x028, 16, 16⟩
def GLB_MAP_CTL_LOAD : Fld := ⟨0x100, 0, 1⟩
def GLB_MAP_CTL_LOADED : Fld := ⟨0x100, 1, 1⟩
def GLB_MAP_CTL_REJ : Fld := ⟨0x100, 2, 1⟩
def GLB_MAP_CTL_REASON : Fld := ⟨0x100, 4, 3⟩
def GLB_MAP_GEOM_WIDTH : Fld := ⟨0x104, 0, 1⟩
def GLB_MAP_GEOM_DENS : Fld := ⟨0x104, 1, 2⟩
def GLB_MAP_GEOM_RANKS : Fld := ⟨0x104, 3, 1⟩
def GLB_MAP_TWIN_EIGHTHS : Fld := ⟨0x108, 0, 4⟩
def GLB_MAP_EXCL_EXCL : Fld := ⟨0x10C, 0, 16⟩
def GLB_MAP_MEMBERS_MEMBERS : Fld := ⟨0x110, 0, 16⟩
def GLB_MAP_MEMBERS_COUNT : Fld := ⟨0x110, 16, 5⟩
def GLB_MAP_MEMBERS_PAIRS : Fld := ⟨0x110, 24, 4⟩
def GLB_MAP_TOP_TOP_MB : Fld := ⟨0x114, 0, 32⟩
def GLB_MAP_TWINBASE_BASE_MB : Fld := ⟨0x118, 0, 32⟩
def GLB_ID_DEVICE : Fld := ⟨0x000, 0, 16⟩
def GLB_ID_REV : Fld := ⟨0x000, 16, 8⟩
def GLB_ID_GRADE : Fld := ⟨0x000, 24, 4⟩
def GLB_STATUS_GUARD_FAIL : Fld := ⟨0x004, 0, 1⟩
def GLB_STATUS_BAD_ADDR : Fld := ⟨0x004, 1, 1⟩
def GLB_STATUS_IND_RANGE : Fld := ⟨0x004, 2, 1⟩
def GLB_STATUS_RO_WRITE : Fld := ⟨0x004, 3, 1⟩
def GLB_STATUS_DOM_OFF : Fld := ⟨0x004, 4, 1⟩
def GLB_IRQ_STAT_EVENT : Fld := ⟨0x008, 0, 1⟩
def GLB_IRQ_STAT_CH_LOST : Fld := ⟨0x008, 1, 1⟩
def GLB_IRQ_STAT_PORT_DOWN : Fld := ⟨0x008, 2, 1⟩
def GLB_IRQ_STAT_SHORTFALL : Fld := ⟨0x008, 3, 1⟩
def GLB_IRQ_STAT_POWER : Fld := ⟨0x008, 4, 1⟩
def GLB_IRQ_STAT_GATE : Fld := ⟨0x008, 5, 1⟩
def GLB_IRQ_STAT_PFAIL : Fld := ⟨0x008, 6, 1⟩
def GLB_IRQ_STAT_BIST : Fld := ⟨0x008, 7, 1⟩
def GLB_IRQ_STAT_GUARD : Fld := ⟨0x008, 8, 1⟩
def GLB_IRQ_STAT_ECC_UE : Fld := ⟨0x008, 9, 1⟩
def GLB_IRQ_EN_EN : Fld := ⟨0x00C, 0, 16⟩
def GLB_SCRATCH_DATA : Fld := ⟨0x010, 0, 32⟩
def GLB_WDOG_CTL_EN : Fld := ⟨0x040, 0, 1⟩
def GLB_WDOG_CTL_TIMEOUT_MS : Fld := ⟨0x040, 16, 16⟩
def GLB_WDOG_KICK_KICK : Fld := ⟨0x044, 0, 1⟩
def GLB_RESET_CAUSE_CAUSE : Fld := ⟨0x048, 0, 4⟩
def GLB_RESET_CAUSE_KIND : Fld := ⟨0x048, 4, 1⟩
def GLB_RESET_CAUSE_START : Fld := ⟨0x048, 8, 3⟩
def GLB_RESET_CAUSE_WARM_CNT : Fld := ⟨0x048, 16, 8⟩

def glbRegs : List RegD :=
  [ ⟨"dtime_lo", 0x020, 1, 0x00000000, false, [⟨"ns_lo", 0, 32, .ro⟩]⟩,
    ⟨"dtime_hi", 0x024, 1, 0x00000000, false, [⟨"ns_hi", 0, 32, .ro⟩]⟩,
    ⟨"clkstat", 0x028, 1, 0x00000000, false, [⟨"core_lock", 0, 1, .ro⟩, ⟨"core_on_pll", 1, 1, .ro⟩, ⟨"mgt_on_pll", 2, 1, .ro⟩, ⟨"dtime_fine", 3, 1, .ro⟩, ⟨"slow_xtal", 4, 1, .ro⟩, ⟨"lock_loss", 5, 1, .w1c⟩, ⟨"link_lock", 8, 4, .ro⟩, ⟨"ch_lock", 16, 16, .ro⟩]⟩,
    ⟨"map_ctl", 0x100, 1, 0x00000000, false, [⟨"load", 0, 1, .wg⟩, ⟨"loaded", 1, 1, .ro⟩, ⟨"rej", 2, 1, .w1c⟩, ⟨"reason", 4, 3, .ro⟩]⟩,
    ⟨"map_geom", 0x104, 1, 0x0000000C, false, [⟨"width", 0, 1, .rw⟩, ⟨"dens", 1, 2, .rw⟩, ⟨"ranks", 3, 1, .rw⟩]⟩,
    ⟨"map_twin", 0x108, 1, 0x00000000, false, [⟨"eighths", 0, 4, .rw⟩]⟩,
    ⟨"map_excl", 0x10C, 1, 0x00000000, false, [⟨"excl", 0, 16, .rw⟩]⟩,
    ⟨"map_members", 0x110, 1, 0x00000000, false, [⟨"members", 0, 16, .ro⟩, ⟨"count", 16, 5, .ro⟩, ⟨"pairs", 24, 4, .ro⟩]⟩,
    ⟨"map_top", 0x114, 1, 0x00000000, false, [⟨"top_mb", 0, 32, .ro⟩]⟩,
    ⟨"map_twinbase", 0x118, 1, 0x00000000, false, [⟨"base_mb", 0, 32, .ro⟩]⟩,
    ⟨"id", 0x000, 1, 0x00011672, false, [⟨"device", 0, 16, .ro⟩, ⟨"rev", 16, 8, .ro⟩, ⟨"grade", 24, 4, .ro⟩]⟩,
    ⟨"status", 0x004, 1, 0x00000000, false, [⟨"guard_fail", 0, 1, .w1c⟩, ⟨"bad_addr", 1, 1, .w1c⟩, ⟨"ind_range", 2, 1, .w1c⟩, ⟨"ro_write", 3, 1, .w1c⟩, ⟨"dom_off", 4, 1, .w1c⟩]⟩ ] ++
  [ ⟨"irq_stat", 0x008, 1, 0x00000000, false, [⟨"event", 0, 1, .w1c⟩, ⟨"ch_lost", 1, 1, .w1c⟩, ⟨"port_down", 2, 1, .w1c⟩, ⟨"shortfall", 3, 1, .w1c⟩, ⟨"power", 4, 1, .w1c⟩, ⟨"gate", 5, 1, .w1c⟩, ⟨"pfail", 6, 1, .w1c⟩, ⟨"bist", 7, 1, .w1c⟩, ⟨"guard", 8, 1, .w1c⟩, ⟨"ecc_ue", 9, 1, .w1c⟩]⟩,
    ⟨"irq_en", 0x00C, 1, 0x00000000, false, [⟨"en", 0, 16, .wm⟩]⟩,
    ⟨"scratch", 0x010, 1, 0x00000000, false, [⟨"data", 0, 32, .rw⟩]⟩,
    ⟨"wdog_ctl", 0x040, 1, 0x00000000, false, [⟨"en", 0, 1, .wg⟩, ⟨"timeout_ms", 16, 16, .wg⟩]⟩,
    ⟨"wdog_kick", 0x044, 1, 0x00000000, false, [⟨"kick", 0, 1, .wo⟩]⟩,
    ⟨"reset_cause", 0x048, 1, 0x00000000, false, [⟨"cause", 0, 4, .ro⟩, ⟨"kind", 4, 1, .ro⟩, ⟨"start", 8, 3, .ro⟩, ⟨"warm_cnt", 16, 8, .ro⟩]⟩ ]

/-! ### CON -/

def CON_CTL_MODE : Fld := ⟨0x000, 0, 1⟩
def CON_CTL_ECHO : Fld := ⟨0x000, 1, 1⟩
def CON_CTL_BAUD : Fld := ⟨0x000, 4, 3⟩
def CON_STATUS_UART_OVF : Fld := ⟨0x004, 0, 1⟩
def CON_STATUS_MIXED : Fld := ⟨0x004, 1, 1⟩
def CON_STATUS_EV_LOST : Fld := ⟨0x004, 2, 1⟩
def CON_STATUS_TUN_DROP : Fld := ⟨0x004, 3, 1⟩
def CON_STATUS_TUN_ACT : Fld := ⟨0x004, 4, 1⟩
def CON_STATUS_TUN_PORT : Fld := ⟨0x004, 5, 2⟩
def CON_STATUS_LINE_LEN : Fld := ⟨0x004, 8, 9⟩
def CON_LINES_COUNT : Fld := ⟨0x100, 0, 32⟩
def CON_ERRS_COUNT : Fld := ⟨0x104, 0, 32⟩
def CON_CHKERR_COUNT : Fld := ⟨0x108, 0, 32⟩
def CON_UART_LOST_COUNT : Fld := ⟨0x10C, 0, 32⟩
def CON_EVLOST_COUNT : Fld := ⟨0x110, 0, 32⟩
def CON_TUNDROP_COUNT : Fld := ⟨0x114, 0, 32⟩
def CON_MIXED_COUNT : Fld := ⟨0x118, 0, 32⟩

def conRegs : List RegD :=
  [ ⟨"ctl", 0x000, 1, 0x00000002, false, [⟨"mode", 0, 1, .rw⟩, ⟨"echo", 1, 1, .rw⟩, ⟨"baud", 4, 3, .rw⟩]⟩,
    ⟨"status", 0x004, 1, 0x00000000, false, [⟨"uart_ovf", 0, 1, .w1c⟩, ⟨"mixed", 1, 1, .w1c⟩, ⟨"ev_lost", 2, 1, .w1c⟩, ⟨"tun_drop", 3, 1, .w1c⟩, ⟨"tun_act", 4, 1, .ro⟩, ⟨"tun_port", 5, 2, .ro⟩, ⟨"line_len", 8, 9, .ro⟩]⟩,
    ⟨"lines", 0x100, 1, 0x00000000, true, [⟨"count", 0, 32, .ro⟩]⟩,
    ⟨"errs", 0x104, 1, 0x00000000, true, [⟨"count", 0, 32, .ro⟩]⟩,
    ⟨"chkerr", 0x108, 1, 0x00000000, true, [⟨"count", 0, 32, .ro⟩]⟩,
    ⟨"uart_lost", 0x10C, 1, 0x00000000, true, [⟨"count", 0, 32, .ro⟩]⟩,
    ⟨"evlost", 0x110, 1, 0x00000000, true, [⟨"count", 0, 32, .ro⟩]⟩,
    ⟨"tundrop", 0x114, 1, 0x00000000, true, [⟨"count", 0, 32, .ro⟩]⟩,
    ⟨"mixed", 0x118, 1, 0x00000000, true, [⟨"count", 0, 32, .ro⟩]⟩ ]

/-! ### HP -/

def HP_CTL_EN : Fld := ⟨0x000, 0, 1⟩
def HP_CTL_WIDTH_MAX : Fld := ⟨0x000, 1, 2⟩
def HP_CTL_RATE : Fld := ⟨0x000, 3, 1⟩
def HP_CTL_TUN_EN : Fld := ⟨0x000, 4, 1⟩
def HP_CTL_DEGRADE_EN : Fld := ⟨0x000, 5, 1⟩
def HP_CTL_TRN_TRIES : Fld := ⟨0x000, 8, 2⟩
def HP_CMD_PORT_RESET : Fld := ⟨0x004, 0, 1⟩
def HP_CMD_RETRAIN : Fld := ⟨0x004, 1, 1⟩
def HP_CMD_UPGRADE : Fld := ⟨0x004, 2, 1⟩
def HP_STATUS_STATE : Fld := ⟨0x008, 0, 4⟩
def HP_STATUS_WIDTH : Fld := ⟨0x008, 4, 2⟩
def HP_STATUS_RATE_NOW : Fld := ⟨0x008, 6, 1⟩
def HP_STATUS_REV_RX : Fld := ⟨0x008, 7, 1⟩
def HP_STATUS_REV_TX : Fld := ⟨0x008, 8, 1⟩
def HP_STATUS_EPOCH : Fld := ⟨0x008, 9, 3⟩
def HP_STATUS_DEGRADED : Fld := ⟨0x008, 12, 1⟩
def HP_STATUS_TUN_ACT : Fld := ⟨0x008, 13, 1⟩
def HP_STATUS_TRN_TMO : Fld := ⟨0x008, 16, 1⟩
def HP_STATUS_TUN_REJ : Fld := ⟨0x008, 17, 1⟩
def HP_STATUS_PROTO : Fld := ⟨0x008, 18, 1⟩
def HP_STATUS_TRN_FAIL : Fld := ⟨0x008, 24, 4⟩
def HP_LANES_GOOD : Fld := ⟨0x00C, 0, 16⟩
def HP_LANES_INV : Fld := ⟨0x00C, 16, 16⟩
def HP_LTMR_NAK_TMO : Fld := ⟨0x010, 0, 12⟩
def HP_LTMR_ACK_TMO : Fld := ⟨0x010, 12, 12⟩
def HP_LTMR_RPL_MAX : Fld := ⟨0x010, 24, 4⟩
def HP_LANECFG_SER_TH : Fld := ⟨0x014, 0, 16⟩
def HP_CRED_PEER_ADVX : Fld := ⟨0x018, 0, 15⟩
def HP_CRED_PEER_ADVT : Fld := ⟨0x018, 16, 6⟩
def HP_CRED_PEER_ADVC : Fld := ⟨0x018, 24, 7⟩
def HP_CRED_NOW_CRX : Fld := ⟨0x01C, 0, 15⟩
def HP_CRED_NOW_RAB_FILL : Fld := ⟨0x01C, 16, 16⟩
def HP_PIPE_RX_LAT : Fld := ⟨0x020, 0, 16⟩
def HP_PIPE_TX_LAT : Fld := ⟨0x020, 16, 16⟩
def HP_FEC_CORR_COUNT : Fld := ⟨0x040, 0, 32⟩
def HP_FEC_UNC_COUNT : Fld := ⟨0x044, 0, 32⟩
def HP_CRC_ERR_COUNT : Fld := ⟨0x048, 0, 32⟩
def HP_NAK_TX_COUNT : Fld := ⟨0x04C, 0, 32⟩
def HP_NAK_RX_COUNT : Fld := ⟨0x050, 0, 32⟩
def HP_RPL_TMO_COUNT : Fld := ⟨0x054, 0, 32⟩
def HP_RETRAIN_LOSSLESS : Fld := ⟨0x058, 0, 16⟩
def HP_RETRAIN_DEGRADE : Fld := ⟨0x058, 16, 16⟩
def HP_RESETS_COUNT : Fld := ⟨0x05C, 0, 32⟩

def hpRegs : List RegD :=
  [ ⟨"ctl", 0x000, 1, 0x0000032C, false, [⟨"en", 0, 1, .rw⟩, ⟨"width_max", 1, 2, .rw⟩, ⟨"rate", 3, 1, .rw⟩, ⟨"tun_en", 4, 1, .rw⟩, ⟨"degrade_en", 5, 1, .rw⟩, ⟨"trn_tries", 8, 2, .rw⟩]⟩,
    ⟨"cmd", 0x004, 1, 0x00000000, false, [⟨"port_reset", 0, 1, .wo⟩, ⟨"retrain", 1, 1, .wo⟩, ⟨"upgrade", 2, 1, .wo⟩]⟩,
    ⟨"status", 0x008, 1, 0x00000000, false, [⟨"state", 0, 4, .ro⟩, ⟨"width", 4, 2, .ro⟩, ⟨"rate_now", 6, 1, .ro⟩, ⟨"rev_rx", 7, 1, .ro⟩, ⟨"rev_tx", 8, 1, .ro⟩, ⟨"epoch", 9, 3, .ro⟩, ⟨"degraded", 12, 1, .ro⟩, ⟨"tun_act", 13, 1, .ro⟩, ⟨"trn_tmo", 16, 1, .w1c⟩, ⟨"tun_rej", 17, 1, .w1c⟩, ⟨"proto", 18, 1, .w1c⟩, ⟨"trn_fail", 24, 4, .ro⟩]⟩,
    ⟨"lanes", 0x00C, 1, 0x00000000, false, [⟨"good", 0, 16, .ro⟩, ⟨"inv", 16, 16, .ro⟩]⟩,
    ⟨"ltmr", 0x010, 1, 0x08800400, false, [⟨"nak_tmo", 0, 12, .rw⟩, ⟨"ack_tmo", 12, 12, .rw⟩, ⟨"rpl_max", 24, 4, .rw⟩]⟩,
    ⟨"lanecfg", 0x014, 1, 0x00000400, false, [⟨"ser_th", 0, 16, .rw⟩]⟩,
    ⟨"cred_peer", 0x018, 1, 0x00000000, false, [⟨"advx", 0, 15, .ro⟩, ⟨"advt", 16, 6, .ro⟩, ⟨"advc", 24, 7, .ro⟩]⟩,
    ⟨"cred_now", 0x01C, 1, 0x00000000, false, [⟨"crx", 0, 15, .ro⟩, ⟨"rab_fill", 16, 16, .ro⟩]⟩,
    ⟨"pipe", 0x020, 1, 0x00000000, false, [⟨"rx_lat", 0, 16, .ro⟩, ⟨"tx_lat", 16, 16, .ro⟩]⟩,
    ⟨"fec_corr", 0x040, 1, 0x00000000, true, [⟨"count", 0, 32, .ro⟩]⟩,
    ⟨"fec_unc", 0x044, 1, 0x00000000, true, [⟨"count", 0, 32, .ro⟩]⟩,
    ⟨"crc_err", 0x048, 1, 0x00000000, true, [⟨"count", 0, 32, .ro⟩]⟩ ] ++
  [ ⟨"nak_tx", 0x04C, 1, 0x00000000, true, [⟨"count", 0, 32, .ro⟩]⟩,
    ⟨"nak_rx", 0x050, 1, 0x00000000, true, [⟨"count", 0, 32, .ro⟩]⟩,
    ⟨"rpl_tmo", 0x054, 1, 0x00000000, true, [⟨"count", 0, 32, .ro⟩]⟩,
    ⟨"retrain", 0x058, 1, 0x00000000, true, [⟨"lossless", 0, 16, .ro⟩, ⟨"degrade", 16, 16, .ro⟩]⟩,
    ⟨"resets", 0x05C, 1, 0x00000000, true, [⟨"count", 0, 32, .ro⟩]⟩ ]

/-! ### TXN -/

def TXN_HORIZON_HORIZON_US : Fld := ⟨0x010, 0, 16⟩
def TXN_DUPSTAT_DUP_DONE : Fld := ⟨0x014, 0, 16⟩
def TXN_DUPSTAT_DUP_ACC : Fld := ⟨0x014, 16, 16⟩
def TXN_PROBE_CTL_ARM : Fld := ⟨0x040, 0, 1⟩
def TXN_PROBE_CTL_DONE : Fld := ⟨0x040, 1, 1⟩
def TXN_PROBE_CTL_PORT : Fld := ⟨0x040, 2, 2⟩
def TXN_PROBE_CTL_OPC : Fld := ⟨0x040, 4, 4⟩
def TXN_PROBE_STAMP_STAMP : Fld := ⟨0x044, 0, 32⟩
def TXN_PROBE_ID_SEQ : Fld := ⟨0x060, 0, 16⟩
def TXN_PROBE_ID_STREAM : Fld := ⟨0x060, 16, 12⟩
def TXN_BACKOFF_BASE_NS : Fld := ⟨0x018, 0, 10⟩
def TXN_ACC_CNT_COUNT : Fld := ⟨0x080, 0, 32⟩
def TXN_DONE_CNT_COUNT : Fld := ⟨0x084, 0, 32⟩
def TXN_LATE_CNT_COUNT : Fld := ⟨0x088, 0, 32⟩
def TXN_DEFER_CNT_COUNT : Fld := ⟨0x08C, 0, 32⟩
def TXN_REF_CNT_COUNT : Fld := ⟨0x090, 0, 32⟩
def TXN_TIME_CNT_COUNT : Fld := ⟨0x0A8, 0, 32⟩
def TXN_LASTREF_CODE : Fld := ⟨0x0B0, 0, 4⟩
def TXN_LASTREF_PORT : Fld := ⟨0x0B0, 4, 2⟩
def TXN_LASTREF_STREAM : Fld := ⟨0x0B0, 6, 12⟩
def TXN_LASTREF_CAUSE : Fld := ⟨0x0B0, 18, 4⟩

def txnRegs : List RegD :=
  [ ⟨"horizon", 0x010, 1, 0x0000FFFF, false, [⟨"horizon_us", 0, 16, .ro⟩]⟩,
    ⟨"dupstat", 0x014, 1, 0x00000000, false, [⟨"dup_done", 0, 16, .rc⟩, ⟨"dup_acc", 16, 16, .rc⟩]⟩,
    ⟨"probe_ctl", 0x040, 1, 0x000000F0, false, [⟨"arm", 0, 1, .rw⟩, ⟨"done", 1, 1, .w1c⟩, ⟨"port", 2, 2, .rw⟩, ⟨"opc", 4, 4, .rw⟩]⟩,
    ⟨"probe_stamp", 0x044, 7, 0x00000000, false, [⟨"stamp", 0, 32, .ro⟩]⟩,
    ⟨"probe_id", 0x060, 1, 0x00000000, false, [⟨"seq", 0, 16, .ro⟩, ⟨"stream", 16, 12, .ro⟩]⟩,
    ⟨"backoff", 0x018, 1, 0x00000020, false, [⟨"base_ns", 0, 10, .rw⟩]⟩,
    ⟨"acc_cnt", 0x080, 1, 0x00000000, true, [⟨"count", 0, 32, .ro⟩]⟩,
    ⟨"done_cnt", 0x084, 1, 0x00000000, true, [⟨"count", 0, 32, .ro⟩]⟩,
    ⟨"late_cnt", 0x088, 1, 0x00000000, true, [⟨"count", 0, 32, .ro⟩]⟩,
    ⟨"defer_cnt", 0x08C, 1, 0x00000000, true, [⟨"count", 0, 32, .ro⟩]⟩,
    ⟨"ref_cnt", 0x090, 6, 0x00000000, true, [⟨"count", 0, 32, .ro⟩]⟩,
    ⟨"time_cnt", 0x0A8, 1, 0x00000000, true, [⟨"count", 0, 32, .ro⟩]⟩ ] ++
  [ ⟨"lastref", 0x0B0, 1, 0x00000000, false, [⟨"code", 0, 4, .ro⟩, ⟨"port", 4, 2, .ro⟩, ⟨"stream", 6, 12, .ro⟩, ⟨"cause", 18, 4, .ro⟩]⟩ ]

/-! ### MAN -/

def MAN_CFG_PROFILE : Fld := ⟨0x000, 0, 1⟩
def MAN_STATUS_OPEN_CNT : Fld := ⟨0x004, 0, 9⟩
def MAN_STATUS_SHORT : Fld := ⟨0x004, 9, 1⟩
def MAN_STATUS_PROF_REJ : Fld := ⟨0x004, 16, 1⟩
def MAN_WAYMAX_SEG : Fld := ⟨0x010, 0, 18⟩
def MAN_BLKMAX_BLK : Fld := ⟨0x014, 0, 28⟩
def MAN_DIRTYMAX_LINES : Fld := ⟨0x018, 0, 22⟩
def MAN_WAYSUM_SEG : Fld := ⟨0x020, 0, 18⟩
def MAN_BLKSUM_BLK : Fld := ⟨0x024, 0, 28⟩
def MAN_DIRTYSUM_LINES : Fld := ⟨0x028, 0, 22⟩
def MAN_JISUM_JSUM : Fld := ⟨0x02C, 0, 14⟩
def MAN_JISUM_ISUM : Fld := ⟨0x02C, 16, 9⟩
def MAN_CHCAP_NOMINAL : Fld := ⟨0x040, 0, 10⟩
def MAN_CHCAP_DELIV : Fld := ⟨0x040, 16, 10⟩
def MAN_CHCAP_CAUSE : Fld := ⟨0x040, 28, 3⟩
def MAN_CHCOM_RT : Fld := ⟨0x080, 0, 10⟩
def MAN_CHCOM_GUAR : Fld := ⟨0x080, 10, 10⟩
def MAN_CHCOM_SHARED : Fld := ⟨0x080, 20, 10⟩
def MAN_FLOOR_RT : Fld := ⟨0x0C0, 0, 16⟩
def MAN_FLOOR_GUAR : Fld := ⟨0x0C0, 16, 16⟩
def MAN_FLOORS_SHARED : Fld := ⟨0x100, 0, 16⟩

def manRegs : List RegD :=
  [ ⟨"cfg", 0x000, 1, 0x00000000, false, [⟨"profile", 0, 1, .rw⟩]⟩,
    ⟨"status", 0x004, 1, 0x00000000, false, [⟨"open_cnt", 0, 9, .ro⟩, ⟨"short", 9, 1, .ro⟩, ⟨"prof_rej", 16, 1, .w1c⟩]⟩,
    ⟨"waymax", 0x010, 1, 0x00000000, false, [⟨"seg", 0, 18, .ro⟩]⟩,
    ⟨"blkmax", 0x014, 1, 0x00000000, false, [⟨"blk", 0, 28, .ro⟩]⟩,
    ⟨"dirtymax", 0x018, 1, 0x00000000, false, [⟨"lines", 0, 22, .ro⟩]⟩,
    ⟨"waysum", 0x020, 1, 0x00000000, false, [⟨"seg", 0, 18, .ro⟩]⟩,
    ⟨"blksum", 0x024, 1, 0x00000000, false, [⟨"blk", 0, 28, .ro⟩]⟩,
    ⟨"dirtysum", 0x028, 1, 0x00000000, false, [⟨"lines", 0, 22, .ro⟩]⟩,
    ⟨"jisum", 0x02C, 1, 0x00000000, false, [⟨"jsum", 0, 14, .ro⟩, ⟨"isum", 16, 9, .ro⟩]⟩,
    ⟨"chcap", 0x040, 16, 0x00000000, false, [⟨"nominal", 0, 10, .ro⟩, ⟨"deliv", 16, 10, .ro⟩, ⟨"cause", 28, 3, .ro⟩]⟩,
    ⟨"chcom", 0x080, 16, 0x00000000, false, [⟨"rt", 0, 10, .ro⟩, ⟨"guar", 10, 10, .ro⟩, ⟨"shared", 20, 10, .ro⟩]⟩,
    ⟨"floor", 0x0C0, 16, 0xFFFFFFFF, false, [⟨"rt", 0, 16, .ro⟩, ⟨"guar", 16, 16, .ro⟩]⟩ ] ++
  [ ⟨"floors", 0x100, 16, 0x0000FFFF, false, [⟨"shared", 0, 16, .ro⟩]⟩ ]

/-! ### ARB -/

def ARB_CLSOFS0_RT : Fld := ⟨0x000, 0, 16⟩
def ARB_CLSOFS0_GUAR : Fld := ⟨0x000, 16, 16⟩
def ARB_CLSOFS1_SHARED : Fld := ⟨0x004, 0, 16⟩
def ARB_BOOST_GAIN : Fld := ⟨0x008, 0, 4⟩
def ARB_BOOST_MAX_NS : Fld := ⟨0x008, 16, 16⟩
def ARB_STATUS_INORD : Fld := ⟨0x00C, 0, 16⟩
def ARB_TOLL_RATE : Fld := ⟨0x010, 0, 16⟩
def ARB_TOLL_BURST : Fld := ⟨0x010, 16, 16⟩
def ARB_TOLLLVL_LEVEL : Fld := ⟨0x020, 0, 24⟩
def ARB_THRCH_LIMIT : Fld := ⟨0x040, 0, 10⟩
def ARB_GRANT_COUNT : Fld := ⟨0x100, 0, 32⟩
def ARB_LOSS_COUNT : Fld := ⟨0x140, 0, 32⟩
def ARB_WAIT_COUNT : Fld := ⟨0x180, 0, 32⟩
def ARB_RESV_COUNT : Fld := ⟨0x1C0, 0, 32⟩
def ARB_ION_COUNT : Fld := ⟨0x200, 0, 32⟩
def ARB_IOTIME_COUNT : Fld := ⟨0x240, 0, 32⟩
def ARB_TOLLREF_COUNT : Fld := ⟨0x280, 0, 32⟩
def ARB_THRREF_COUNT : Fld := ⟨0x290, 0, 32⟩
def ARB_WAY_GRANT_COUNT : Fld := ⟨0x2A0, 0, 32⟩
def ARB_WAY_LOSS_COUNT : Fld := ⟨0x2A4, 0, 32⟩
def ARB_WAY_RESV_COUNT : Fld := ⟨0x2A8, 0, 32⟩

def arbRegs : List RegD :=
  [ ⟨"clsofs0", 0x000, 1, 0x01000200, false, [⟨"rt", 0, 16, .rw⟩, ⟨"guar", 16, 16, .rw⟩]⟩,
    ⟨"clsofs1", 0x004, 1, 0x00000000, false, [⟨"shared", 0, 16, .rw⟩]⟩,
    ⟨"boost", 0x008, 1, 0x20000008, false, [⟨"gain", 0, 4, .rw⟩, ⟨"max_ns", 16, 16, .rw⟩]⟩,
    ⟨"status", 0x00C, 1, 0x00000000, false, [⟨"inord", 0, 16, .ro⟩]⟩,
    ⟨"toll", 0x010, 4, 0x01000000, false, [⟨"rate", 0, 16, .rw⟩, ⟨"burst", 16, 16, .rw⟩]⟩,
    ⟨"tolllvl", 0x020, 4, 0x00000000, false, [⟨"level", 0, 24, .ro⟩]⟩,
    ⟨"thrch", 0x040, 16, 0x00000000, false, [⟨"limit", 0, 10, .ro⟩]⟩,
    ⟨"grant", 0x100, 16, 0x00000000, true, [⟨"count", 0, 32, .ro⟩]⟩,
    ⟨"loss", 0x140, 16, 0x00000000, true, [⟨"count", 0, 32, .ro⟩]⟩,
    ⟨"wait", 0x180, 16, 0x00000000, true, [⟨"count", 0, 32, .ro⟩]⟩,
    ⟨"resv", 0x1C0, 16, 0x00000000, true, [⟨"count", 0, 32, .ro⟩]⟩,
    ⟨"ion", 0x200, 16, 0x00000000, true, [⟨"count", 0, 32, .ro⟩]⟩ ] ++
  [ ⟨"iotime", 0x240, 16, 0x00000000, true, [⟨"count", 0, 32, .ro⟩]⟩,
    ⟨"tollref", 0x280, 4, 0x00000000, true, [⟨"count", 0, 32, .ro⟩]⟩,
    ⟨"thrref", 0x290, 1, 0x00000000, true, [⟨"count", 0, 32, .ro⟩]⟩,
    ⟨"way_grant", 0x2A0, 1, 0x00000000, true, [⟨"count", 0, 32, .ro⟩]⟩,
    ⟨"way_loss", 0x2A4, 1, 0x00000000, true, [⟨"count", 0, 32, .ro⟩]⟩,
    ⟨"way_resv", 0x2A8, 1, 0x00000000, true, [⟨"count", 0, 32, .ro⟩]⟩ ]

/-! ### WAY -/

def WAY_CTL_COMMIT : Fld := ⟨0x000, 0, 1⟩
def WAY_CTL_MIG_EN : Fld := ⟨0x000, 1, 1⟩
def WAY_CARVE_QCACHE : Fld := ⟨0x004, 0, 7⟩
def WAY_CARVE_WALK : Fld := ⟨0x004, 8, 6⟩
def WAY_CARVE_PIN : Fld := ⟨0x004, 16, 7⟩
def WAY_STATUS_COMMITTED : Fld := ⟨0x008, 0, 1⟩
def WAY_STATUS_CARVE_REJ : Fld := ⟨0x008, 1, 1⟩
def WAY_STATUS_PIN_REJ : Fld := ⟨0x008, 2, 1⟩
def WAY_STATUS_WT_FULL : Fld := ⟨0x008, 3, 1⟩
def WAY_TIER_FRAMES : Fld := ⟨0x00C, 0, 17⟩
def WAY_TIERRSV_RSV : Fld := ⟨0x010, 0, 17⟩
def WAY_WALKSEG_TOTAL : Fld := ⟨0x014, 0, 16⟩
def WAY_WALKSEG_FREE : Fld := ⟨0x014, 16, 16⟩
def WAY_MIG_PROMO_TH : Fld := ⟨0x020, 0, 8⟩
def WAY_MIG_EPOCH_US : Fld := ⟨0x020, 8, 8⟩
def WAY_MIG_MIG_RETRY : Fld := ⟨0x020, 16, 4⟩
def WAY_MIG_WB_HI : Fld := ⟨0x020, 24, 4⟩
def WAY_WT_MAX : Fld := ⟨0x024, 0, 13⟩
def WAY_WT_USE : Fld := ⟨0x024, 16, 13⟩
def WAY_DIRTY_SUM : Fld := ⟨0x028, 0, 22⟩
def WAY_HIT_COUNT : Fld := ⟨0x100, 0, 32⟩
def WAY_MISS_COUNT : Fld := ⟨0x104, 0, 32⟩
def WAY_PROMO_COUNT : Fld := ⟨0x108, 0, 32⟩
def WAY_DEMOTE_COUNT : Fld := ⟨0x10C, 0, 32⟩
def WAY_WB_COUNT : Fld := ⟨0x110, 0, 32⟩
def WAY_WTCNT_COUNT : Fld := ⟨0x114, 0, 32⟩
def WAY_CE_COUNT : Fld := ⟨0x118, 0, 32⟩
def WAY_UE_COUNT : Fld := ⟨0x11C, 0, 32⟩
def WAY_RETIRED_COUNT : Fld := ⟨0x120, 0, 32⟩

def wayRegs : List RegD :=
  [ ⟨"ctl", 0x000, 1, 0x00000002, false, [⟨"commit", 0, 1, .rw⟩, ⟨"mig_en", 1, 1, .rw⟩]⟩,
    ⟨"carve", 0x004, 1, 0x00000820, false, [⟨"qcache", 0, 7, .rw⟩, ⟨"walk", 8, 6, .rw⟩, ⟨"pin", 16, 7, .rw⟩]⟩,
    ⟨"status", 0x008, 1, 0x00000000, false, [⟨"committed", 0, 1, .ro⟩, ⟨"carve_rej", 1, 1, .w1c⟩, ⟨"pin_rej", 2, 1, .w1c⟩, ⟨"wt_full", 3, 1, .ro⟩]⟩,
    ⟨"tier", 0x00C, 1, 0x00011000, false, [⟨"frames", 0, 17, .ro⟩]⟩,
    ⟨"tierrsv", 0x010, 1, 0x00000880, false, [⟨"rsv", 0, 17, .ro⟩]⟩,
    ⟨"walkseg", 0x014, 1, 0x1EC02000, false, [⟨"total", 0, 16, .ro⟩, ⟨"free", 16, 16, .ro⟩]⟩,
    ⟨"mig", 0x020, 1, 0x0C034008, false, [⟨"promo_th", 0, 8, .rw⟩, ⟨"epoch_us", 8, 8, .rw⟩, ⟨"mig_retry", 16, 4, .rw⟩, ⟨"wb_hi", 24, 4, .rw⟩]⟩,
    ⟨"wt", 0x024, 1, 0x00001000, false, [⟨"max", 0, 13, .rw⟩, ⟨"use", 16, 13, .ro⟩]⟩,
    ⟨"dirty", 0x028, 1, 0x00000000, false, [⟨"sum", 0, 22, .ro⟩]⟩,
    ⟨"hit", 0x100, 1, 0x00000000, true, [⟨"count", 0, 32, .ro⟩]⟩,
    ⟨"miss", 0x104, 1, 0x00000000, true, [⟨"count", 0, 32, .ro⟩]⟩,
    ⟨"promo", 0x108, 1, 0x00000000, true, [⟨"count", 0, 32, .ro⟩]⟩ ] ++
  [ ⟨"demote", 0x10C, 1, 0x00000000, true, [⟨"count", 0, 32, .ro⟩]⟩,
    ⟨"wb", 0x110, 1, 0x00000000, true, [⟨"count", 0, 32, .ro⟩]⟩,
    ⟨"wtcnt", 0x114, 1, 0x00000000, true, [⟨"count", 0, 32, .ro⟩]⟩,
    ⟨"ce", 0x118, 1, 0x00000000, true, [⟨"count", 0, 32, .ro⟩]⟩,
    ⟨"ue", 0x11C, 1, 0x00000000, true, [⟨"count", 0, 32, .ro⟩]⟩,
    ⟨"retired", 0x120, 1, 0x00000000, true, [⟨"count", 0, 32, .ro⟩]⟩ ]

/-! ### QUE -/

def QUE_CTL_INIT : Fld := ⟨0x000, 0, 1⟩
def QUE_CTL_PREF_EN : Fld := ⟨0x000, 1, 1⟩
def QUE_POOL_BASE_LO_BASE : Fld := ⟨0x004, 20, 12⟩
def QUE_POOL_BASE_HI_BASE : Fld := ⟨0x008, 0, 12⟩
def QUE_POOL_BLOCKS_P : Fld := ⟨0x00C, 0, 28⟩
def QUE_STATUS_INIT_BUSY : Fld := ⟨0x010, 0, 1⟩
def QUE_STATUS_INIT_DONE : Fld := ⟨0x010, 1, 1⟩
def QUE_STATUS_CFG_REJ : Fld := ⟨0x010, 2, 1⟩
def QUE_STATUS_POOL_SHORT : Fld := ⟨0x010, 3, 1⟩
def QUE_RSV_RSV : Fld := ⟨0x014, 0, 28⟩
def QUE_FREE_FREE : Fld := ⟨0x018, 0, 28⟩
def QUE_FRM_FRAMES : Fld := ⟨0x01C, 0, 16⟩
def QUE_FRM_LOW : Fld := ⟨0x01C, 16, 16⟩
def QUE_FRMFREE_FREE : Fld := ⟨0x020, 0, 16⟩
def QUE_ENQ_CNT_COUNT : Fld := ⟨0x100, 0, 32⟩
def QUE_DEQ_CNT_COUNT : Fld := ⟨0x104, 0, 32⟩
def QUE_EMPTY_CNT_COUNT : Fld := ⟨0x108, 0, 32⟩
def QUE_CELLS_IN_COUNT : Fld := ⟨0x10C, 0, 32⟩
def QUE_CELLS_OUT_COUNT : Fld := ⟨0x110, 0, 32⟩
def QUE_EVICT_COUNT : Fld := ⟨0x114, 0, 32⟩
def QUE_WBLINE_COUNT : Fld := ⟨0x118, 0, 32⟩
def QUE_DIRECT_COUNT : Fld := ⟨0x11C, 0, 32⟩
def QUE_PREF_COUNT : Fld := ⟨0x120, 0, 32⟩
def QUE_RESWAIT_COUNT : Fld := ⟨0x124, 0, 32⟩
def QUE_FAULT_COUNT : Fld := ⟨0x128, 0, 32⟩
def QUE_LOST_COUNT : Fld := ⟨0x12C, 0, 32⟩
def QUE_FRMRET_COUNT : Fld := ⟨0x130, 0, 32⟩

def queRegs : List RegD :=
  [ ⟨"ctl", 0x000, 1, 0x00000002, false, [⟨"init", 0, 1, .wo⟩, ⟨"pref_en", 1, 1, .rw⟩]⟩,
    ⟨"pool_base_lo", 0x004, 1, 0x00000000, false, [⟨"base", 20, 12, .rw⟩]⟩,
    ⟨"pool_base_hi", 0x008, 1, 0x00000000, false, [⟨"base", 0, 12, .rw⟩]⟩,
    ⟨"pool_blocks", 0x00C, 1, 0x00000000, false, [⟨"p", 0, 28, .rw⟩]⟩,
    ⟨"status", 0x010, 1, 0x00000000, false, [⟨"init_busy", 0, 1, .ro⟩, ⟨"init_done", 1, 1, .ro⟩, ⟨"cfg_rej", 2, 1, .w1c⟩, ⟨"pool_short", 3, 1, .ro⟩]⟩,
    ⟨"rsv", 0x014, 1, 0x00000000, false, [⟨"rsv", 0, 28, .ro⟩]⟩,
    ⟨"free", 0x018, 1, 0x00000000, false, [⟨"free", 0, 28, .ro⟩]⟩,
    ⟨"frm", 0x01C, 1, 0x02003400, false, [⟨"frames", 0, 16, .ro⟩, ⟨"low", 16, 16, .rw⟩]⟩,
    ⟨"frmfree", 0x020, 1, 0x00003400, false, [⟨"free", 0, 16, .ro⟩]⟩,
    ⟨"enq_cnt", 0x100, 1, 0x00000000, true, [⟨"count", 0, 32, .ro⟩]⟩,
    ⟨"deq_cnt", 0x104, 1, 0x00000000, true, [⟨"count", 0, 32, .ro⟩]⟩,
    ⟨"empty_cnt", 0x108, 1, 0x00000000, true, [⟨"count", 0, 32, .ro⟩]⟩ ] ++
  [ ⟨"cells_in", 0x10C, 1, 0x00000000, true, [⟨"count", 0, 32, .ro⟩]⟩,
    ⟨"cells_out", 0x110, 1, 0x00000000, true, [⟨"count", 0, 32, .ro⟩]⟩,
    ⟨"evict", 0x114, 1, 0x00000000, true, [⟨"count", 0, 32, .ro⟩]⟩,
    ⟨"wbline", 0x118, 1, 0x00000000, true, [⟨"count", 0, 32, .ro⟩]⟩,
    ⟨"direct", 0x11C, 1, 0x00000000, true, [⟨"count", 0, 32, .ro⟩]⟩,
    ⟨"pref", 0x120, 1, 0x00000000, true, [⟨"count", 0, 32, .ro⟩]⟩,
    ⟨"reswait", 0x124, 1, 0x00000000, true, [⟨"count", 0, 32, .ro⟩]⟩,
    ⟨"fault", 0x128, 1, 0x00000000, true, [⟨"count", 0, 32, .ro⟩]⟩,
    ⟨"lost", 0x12C, 1, 0x00000000, true, [⟨"count", 0, 32, .ro⟩]⟩,
    ⟨"frmret", 0x130, 1, 0x00000000, true, [⟨"count", 0, 32, .ro⟩]⟩ ]

/-! ### WLK -/

def WLK_STATUS_LOADED : Fld := ⟨0x000, 0, 13⟩
def WLK_STATUS_RSVCTX : Fld := ⟨0x000, 16, 7⟩
def WLK_STATUS_DESC_REJ : Fld := ⟨0x000, 24, 1⟩
def WLK_CARAVAN_COUNT : Fld := ⟨0x100, 0, 32⟩
def WLK_KEYS_COUNT : Fld := ⟨0x104, 0, 32⟩
def WLK_STALL_COUNT : Fld := ⟨0x108, 0, 32⟩
def WLK_BYPASS_COUNT : Fld := ⟨0x10C, 0, 32⟩
def WLK_LOAD_COUNT : Fld := ⟨0x110, 0, 32⟩
def WLK_LOADLINE_COUNT : Fld := ⟨0x114, 0, 32⟩
def WLK_GATHER_COUNT : Fld := ⟨0x118, 0, 32⟩
def WLK_CTXBUSY_COUNT : Fld := ⟨0x11C, 0, 32⟩

def wlkRegs : List RegD :=
  [ ⟨"status", 0x000, 1, 0x00000000, false, [⟨"loaded", 0, 13, .ro⟩, ⟨"rsvctx", 16, 7, .ro⟩, ⟨"desc_rej", 24, 1, .w1c⟩]⟩,
    ⟨"caravan", 0x100, 1, 0x00000000, true, [⟨"count", 0, 32, .ro⟩]⟩,
    ⟨"keys", 0x104, 1, 0x00000000, true, [⟨"count", 0, 32, .ro⟩]⟩,
    ⟨"stall", 0x108, 1, 0x00000000, true, [⟨"count", 0, 32, .ro⟩]⟩,
    ⟨"bypass", 0x10C, 1, 0x00000000, true, [⟨"count", 0, 32, .ro⟩]⟩,
    ⟨"load", 0x110, 1, 0x00000000, true, [⟨"count", 0, 32, .ro⟩]⟩,
    ⟨"loadline", 0x114, 1, 0x00000000, true, [⟨"count", 0, 32, .ro⟩]⟩,
    ⟨"gather", 0x118, 1, 0x00000000, true, [⟨"count", 0, 32, .ro⟩]⟩,
    ⟨"ctxbusy", 0x11C, 1, 0x00000000, true, [⟨"count", 0, 32, .ro⟩]⟩ ]

/-! ### CH -/

def CH_TIM0_CL : Fld := ⟨0x100, 0, 8⟩
def CH_TIM0_CWL : Fld := ⟨0x100, 8, 8⟩
def CH_TIM0_TRCD : Fld := ⟨0x100, 16, 8⟩
def CH_TIM0_TRP : Fld := ⟨0x100, 24, 8⟩
def CH_TIM1_TRRD_S : Fld := ⟨0x104, 0, 8⟩
def CH_TIM1_TRRD_L : Fld := ⟨0x104, 8, 8⟩
def CH_TIM1_TFAW : Fld := ⟨0x104, 16, 8⟩
def CH_TIM1_TCCD_S : Fld := ⟨0x104, 24, 8⟩
def CH_TIM2_TCCD_L : Fld := ⟨0x108, 0, 8⟩
def CH_TIM2_TCCD_L_WR : Fld := ⟨0x108, 8, 8⟩
def CH_TIM2_TWTR_S : Fld := ⟨0x108, 16, 8⟩
def CH_TIM2_TWTR_L : Fld := ⟨0x108, 24, 8⟩
def CH_TIM3_TRTP : Fld := ⟨0x10C, 0, 8⟩
def CH_TIM3_TXP : Fld := ⟨0x10C, 8, 8⟩
def CH_TIM3_TPD : Fld := ⟨0x10C, 16, 8⟩
def CH_TIM3_TWR : Fld := ⟨0x10C, 24, 8⟩
def CH_TIM4_TRAS : Fld := ⟨0x110, 0, 8⟩
def CH_TIM4_TRC : Fld := ⟨0x110, 8, 8⟩
def CH_TIM5_TRFC1 : Fld := ⟨0x114, 0, 12⟩
def CH_TIM5_TRFCSB : Fld := ⟨0x114, 16, 12⟩
def CH_TIM6_TREFI : Fld := ⟨0x118, 0, 16⟩
def CH_TIM6_TXS : Fld := ⟨0x118, 16, 12⟩
def CH_CTL_RATE : Fld := ⟨0x000, 0, 3⟩
def CH_CTL_PAGE : Fld := ⟨0x000, 3, 1⟩
def CH_CMD_PROFILE : Fld := ⟨0x004, 0, 1⟩
def CH_STATUS_STATE : Fld := ⟨0x008, 0, 4⟩
def CH_STATUS_MEMBER : Fld := ⟨0x008, 4, 1⟩
def CH_STATUS_TIM_REJ : Fld := ⟨0x008, 5, 1⟩
def CH_STATUS_RANK_PD : Fld := ⟨0x008, 8, 2⟩
def CH_SCHED_LOOKAHEAD : Fld := ⟨0x00C, 0, 5⟩
def CH_SCHED_PAGE_TMO : Fld := ⟨0x00C, 16, 16⟩
def CH_PD_IDLE : Fld := ⟨0x010, 0, 16⟩
def CH_FILL_FILL : Fld := ⟨0x014, 0, 7⟩
def CH_FILL_HWM : Fld := ⟨0x014, 16, 7⟩
def CH_BGMIG_RATE : Fld := ⟨0x020, 0, 16⟩
def CH_BGMIG_DEPTH : Fld := ⟨0x020, 16, 16⟩
def CH_BGSCR_RATE : Fld := ⟨0x024, 0, 16⟩
def CH_BGSCR_DEPTH : Fld := ⟨0x024, 16, 16⟩
def CH_BGBST_RATE : Fld := ⟨0x028, 0, 16⟩
def CH_BGBST_DEPTH : Fld := ⟨0x028, 16, 16⟩
def CH_BGPAUSE_RATE : Fld := ⟨0x02C, 0, 16⟩
def CH_BGPAUSE_DEPTH : Fld := ⟨0x02C, 16, 16⟩
def CH_RDCMD_COUNT : Fld := ⟨0x200, 0, 32⟩
def CH_WRCMD_COUNT : Fld := ⟨0x204, 0, 32⟩
def CH_ACTCNT_COUNT : Fld := ⟨0x208, 0, 32⟩
def CH_PAGEHIT_COUNT : Fld := ⟨0x20C, 0, 32⟩
def CH_TURN_COUNT : Fld := ⟨0x210, 0, 32⟩
def CH_IDLEBUS_COUNT : Fld := ⟨0x214, 0, 32⟩
def CH_CLASH_COUNT : Fld := ⟨0x218, 0, 32⟩
def CH_PDENT_COUNT : Fld := ⟨0x21C, 0, 32⟩
def CH_PDCYC_COUNT : Fld := ⟨0x220, 0, 32⟩
def CH_HOLD_COUNT : Fld := ⟨0x224, 0, 32⟩
def CH_BGLINE_COUNT : Fld := ⟨0x228, 0, 32⟩
def CH_BUSY_COUNT : Fld := ⟨0x22C, 0, 32⟩
def CH_ECCCFG_MARK_TH : Fld := ⟨0x040, 0, 8⟩
def CH_ECCCFG_UE_FAULT : Fld := ⟨0x040, 8, 8⟩
def CH_ECCCFG_SCRUB_EN : Fld := ⟨0x040, 16, 1⟩
def CH_ECCCFG_MARK_WIN : Fld := ⟨0x040, 24, 8⟩
def CH_SPARE_MDEV0 : Fld := ⟨0x044, 0, 5⟩
def CH_SPARE_MARK0 : Fld := ⟨0x044, 5, 1⟩
def CH_SPARE_SPARED0 : Fld := ⟨0x044, 6, 1⟩
def CH_SPARE_MDEV1 : Fld := ⟨0x044, 8, 5⟩
def CH_SPARE_MARK1 : Fld := ⟨0x044, 13, 1⟩
def CH_SPARE_SPARED1 : Fld := ⟨0x044, 14, 1⟩
def CH_SPARE_BUSY : Fld := ⟨0x044, 16, 1⟩
def CH_SPARE_BRANK : Fld := ⟨0x044, 17, 1⟩
def CH_SPAREPTR_PTR : Fld := ⟨0x048, 0, 32⟩
def CH_ALERTCFG_CA_WIN : Fld := ⟨0x04C, 0, 8⟩
def CH_ALERTCFG_CRC_WIN : Fld := ⟨0x04C, 8, 8⟩
def CH_ALERTCFG_WCRC_EN : Fld := ⟨0x04C, 16, 1⟩
def CH_REF_POLL_MS : Fld := ⟨0x050, 0, 8⟩
def CH_REF_COOL_POLLS : Fld := ⟨0x050, 8, 4⟩
def CH_REF_RATE2X : Fld := ⟨0x050, 16, 1⟩
def CH_REF_CAUSE : Fld := ⟨0x050, 17, 1⟩
def CH_REF_OVERTEMP : Fld := ⟨0x050, 18, 1⟩
def CH_RAA_IMT : Fld := ⟨0x054, 0, 9⟩
def CH_RAA_MMT : Fld := ⟨0x054, 16, 9⟩
def CH_RAA_REFDEC : Fld := ⟨0x054, 25, 7⟩
def CH_ROWACT_T1 : Fld := ⟨0x058, 0, 16⟩
def CH_ROWACT_T2 : Fld := ⟨0x058, 16, 16⟩
def CH_ROWACT2_T3 : Fld := ⟨0x05C, 0, 16⟩
def CH_ROWACT2_MAN_LIM : Fld := ⟨0x05C, 16, 8⟩
def CH_ROWACT2_WIN_MS : Fld := ⟨0x05C, 24, 8⟩
def CH_ROWSTAT_LEVEL : Fld := ⟨0x060, 0, 2⟩
def CH_ROWSTAT_RFM_BUD : Fld := ⟨0x060, 8, 8⟩
def CH_ROWSTAT_LIMITED : Fld := ⟨0x060, 16, 9⟩
def CH_INTSTAT_CE : Fld := ⟨0x064, 0, 1⟩
def CH_INTSTAT_UE : Fld := ⟨0x064, 1, 1⟩
def CH_INTSTAT_POISON_RD : Fld := ⟨0x064, 2, 1⟩
def CH_INTSTAT_MARK : Fld := ⟨0x064, 3, 1⟩
def CH_INTSTAT_MARK_REF : Fld := ⟨0x064, 4, 1⟩
def CH_INTSTAT_ALERT_CA : Fld := ⟨0x064, 5, 1⟩
def CH_INTSTAT_ALERT_CRC : Fld := ⟨0x064, 6, 1⟩
def CH_INTSTAT_REPLAY_FAIL : Fld := ⟨0x064, 7, 1⟩
def CH_INTSTAT_PAUSE_ABORT : Fld := ⟨0x064, 8, 1⟩
def CH_INTSTAT_MR4_FAIL : Fld := ⟨0x064, 9, 1⟩
def CH_INTSTAT_THROTTLE : Fld := ⟨0x064, 10, 1⟩
def CH_INTSTAT_INTEGRITY : Fld := ⟨0x064, 11, 1⟩
def CH_SCRUB_POS : Fld := ⟨0x068, 0, 32⟩
def CH_SCRUBCYC_LAST_S : Fld := ⟨0x06C, 0, 32⟩
def CH_CE_LINES_COUNT : Fld := ⟨0x280, 0, 32⟩
def CH_CE_SYMS_COUNT : Fld := ⟨0x284, 0, 32⟩
def CH_UE_LINES_COUNT : Fld := ⟨0x288, 0, 32⟩
def CH_REREAD_OK_COUNT : Fld := ⟨0x28C, 0, 32⟩
def CH_POISON_RD_COUNT : Fld := ⟨0x290, 0, 32⟩
def CH_POISON_WR_COUNT : Fld := ⟨0x294, 0, 32⟩
def CH_SCRUB_LINES_COUNT : Fld := ⟨0x298, 0, 32⟩
def CH_SCRUB_FIX_COUNT : Fld := ⟨0x29C, 0, 32⟩
def CH_ALERT_CA_COUNT : Fld := ⟨0x2A0, 0, 32⟩
def CH_ALERT_CRC_COUNT : Fld := ⟨0x2A4, 0, 32⟩
def CH_REPLAY_COUNT : Fld := ⟨0x2A8, 0, 32⟩
def CH_REPLAY_ATT_COUNT : Fld := ⟨0x2AC, 0, 32⟩
def CH_REFSB_COUNT : Fld := ⟨0x2B0, 0, 32⟩
def CH_REFAB_COUNT : Fld := ⟨0x2B4, 0, 32⟩
def CH_RFM_COUNT : Fld := ⟨0x2B8, 0, 32⟩
def CH_MR4_POLL_COUNT : Fld := ⟨0x2BC, 0, 32⟩
def CH_MR4_FAIL_COUNT : Fld := ⟨0x2C0, 0, 32⟩
def CH_THR_ENT_COUNT : Fld := ⟨0x2C4, 0, 32⟩
def CH_PAUSE_ABORT_COUNT : Fld := ⟨0x2C8, 0, 32⟩

def chRegs : List RegD :=
  [ ⟨"tim0", 0x100, 1, 0x28282628, false, [⟨"cl", 0, 8, .rw⟩, ⟨"cwl", 8, 8, .rw⟩, ⟨"trcd", 16, 8, .rw⟩, ⟨"trp", 24, 8, .rw⟩]⟩,
    ⟨"tim1", 0x104, 1, 0x08200C08, false, [⟨"trrd_s", 0, 8, .rw⟩, ⟨"trrd_l", 8, 8, .rw⟩, ⟨"tfaw", 16, 8, .rw⟩, ⟨"tccd_s", 24, 8, .rw⟩]⟩,
    ⟨"tim2", 0x108, 1, 0x1806300C, false, [⟨"tccd_l", 0, 8, .rw⟩, ⟨"tccd_l_wr", 8, 8, .rw⟩, ⟨"twtr_s", 16, 8, .rw⟩, ⟨"twtr_l", 24, 8, .rw⟩]⟩,
    ⟨"tim3", 0x10C, 1, 0x48121212, false, [⟨"trtp", 0, 8, .rw⟩, ⟨"txp", 8, 8, .rw⟩, ⟨"tpd", 16, 8, .rw⟩, ⟨"twr", 24, 8, .rw⟩]⟩,
    ⟨"tim4", 0x110, 1, 0x0000754D, false, [⟨"tras", 0, 8, .rw⟩, ⟨"trc", 8, 8, .rw⟩]⟩,
    ⟨"tim5", 0x114, 1, 0x01C803D8, false, [⟨"trfc1", 0, 12, .rw⟩, ⟨"trfcsb", 16, 12, .rw⟩]⟩,
    ⟨"tim6", 0x118, 1, 0x03F02490, false, [⟨"trefi", 0, 16, .rw⟩, ⟨"txs", 16, 12, .rw⟩]⟩,
    ⟨"ctl", 0x000, 1, 0x00000000, false, [⟨"rate", 0, 3, .rw⟩, ⟨"page", 3, 1, .rw⟩]⟩,
    ⟨"cmd", 0x004, 1, 0x00000000, false, [⟨"profile", 0, 1, .wo⟩]⟩,
    ⟨"status", 0x008, 1, 0x00000000, false, [⟨"state", 0, 4, .ro⟩, ⟨"member", 4, 1, .ro⟩, ⟨"tim_rej", 5, 1, .w1c⟩, ⟨"rank_pd", 8, 2, .ro⟩]⟩,
    ⟨"sched", 0x00C, 1, 0x00400010, false, [⟨"lookahead", 0, 5, .rw⟩, ⟨"page_tmo", 16, 16, .rw⟩]⟩,
    ⟨"pd", 0x010, 1, 0x00000100, false, [⟨"idle", 0, 16, .rw⟩]⟩ ] ++
  [ ⟨"fill", 0x014, 1, 0x00000000, false, [⟨"fill", 0, 7, .ro⟩, ⟨"hwm", 16, 7, .rc⟩]⟩,
    ⟨"bgmig", 0x020, 1, 0x00000000, false, [⟨"rate", 0, 16, .rw⟩, ⟨"depth", 16, 16, .rw⟩]⟩,
    ⟨"bgscr", 0x024, 1, 0x00000000, false, [⟨"rate", 0, 16, .rw⟩, ⟨"depth", 16, 16, .rw⟩]⟩,
    ⟨"bgbst", 0x028, 1, 0x00000000, false, [⟨"rate", 0, 16, .rw⟩, ⟨"depth", 16, 16, .rw⟩]⟩,
    ⟨"bgpause", 0x02C, 1, 0x00000000, false, [⟨"rate", 0, 16, .rw⟩, ⟨"depth", 16, 16, .rw⟩]⟩,
    ⟨"rdcmd", 0x200, 1, 0x00000000, true, [⟨"count", 0, 32, .ro⟩]⟩,
    ⟨"wrcmd", 0x204, 1, 0x00000000, true, [⟨"count", 0, 32, .ro⟩]⟩,
    ⟨"actcnt", 0x208, 1, 0x00000000, true, [⟨"count", 0, 32, .ro⟩]⟩,
    ⟨"pagehit", 0x20C, 1, 0x00000000, true, [⟨"count", 0, 32, .ro⟩]⟩,
    ⟨"turn", 0x210, 1, 0x00000000, true, [⟨"count", 0, 32, .ro⟩]⟩,
    ⟨"idlebus", 0x214, 1, 0x00000000, true, [⟨"count", 0, 32, .ro⟩]⟩,
    ⟨"clash", 0x218, 1, 0x00000000, true, [⟨"count", 0, 32, .ro⟩]⟩ ] ++
  [ ⟨"pdent", 0x21C, 1, 0x00000000, true, [⟨"count", 0, 32, .ro⟩]⟩,
    ⟨"pdcyc", 0x220, 1, 0x00000000, true, [⟨"count", 0, 32, .ro⟩]⟩,
    ⟨"hold", 0x224, 1, 0x00000000, true, [⟨"count", 0, 32, .ro⟩]⟩,
    ⟨"bgline", 0x228, 1, 0x00000000, true, [⟨"count", 0, 32, .ro⟩]⟩,
    ⟨"busy", 0x22C, 1, 0x00000000, true, [⟨"count", 0, 32, .ro⟩]⟩,
    ⟨"ecccfg", 0x040, 1, 0x0A014020, false, [⟨"mark_th", 0, 8, .rw⟩, ⟨"ue_fault", 8, 8, .rw⟩, ⟨"scrub_en", 16, 1, .rw⟩, ⟨"mark_win", 24, 8, .rw⟩]⟩,
    ⟨"spare", 0x044, 1, 0x00000000, false, [⟨"mdev0", 0, 5, .ro⟩, ⟨"mark0", 5, 1, .ro⟩, ⟨"spared0", 6, 1, .ro⟩, ⟨"mdev1", 8, 5, .ro⟩, ⟨"mark1", 13, 1, .ro⟩, ⟨"spared1", 14, 1, .ro⟩, ⟨"busy", 16, 1, .ro⟩, ⟨"brank", 17, 1, .ro⟩]⟩,
    ⟨"spareptr", 0x048, 1, 0x00000000, false, [⟨"ptr", 0, 32, .ro⟩]⟩,
    ⟨"alertcfg", 0x04C, 1, 0x00016020, false, [⟨"ca_win", 0, 8, .rw⟩, ⟨"crc_win", 8, 8, .rw⟩, ⟨"wcrc_en", 16, 1, .rw⟩]⟩,
    ⟨"ref", 0x050, 1, 0x00000210, false, [⟨"poll_ms", 0, 8, .rw⟩, ⟨"cool_polls", 8, 4, .rw⟩, ⟨"rate2x", 16, 1, .ro⟩, ⟨"cause", 17, 1, .ro⟩, ⟨"overtemp", 18, 1, .w1c⟩]⟩,
    ⟨"raa", 0x054, 1, 0x20600020, false, [⟨"imt", 0, 9, .rw⟩, ⟨"mmt", 16, 9, .rw⟩, ⟨"refdec", 25, 7, .rw⟩]⟩,
    ⟨"rowact", 0x058, 1, 0x10000800, false, [⟨"t1", 0, 16, .rw⟩, ⟨"t2", 16, 16, .rw⟩]⟩ ] ++
  [ ⟨"rowact2", 0x05C, 1, 0x20102000, false, [⟨"t3", 0, 16, .rw⟩, ⟨"man_lim", 16, 8, .rw⟩, ⟨"win_ms", 24, 8, .rw⟩]⟩,
    ⟨"rowstat", 0x060, 1, 0x00001000, false, [⟨"level", 0, 2, .ro⟩, ⟨"rfm_bud", 8, 8, .rw⟩, ⟨"limited", 16, 9, .ro⟩]⟩,
    ⟨"intstat", 0x064, 1, 0x00000000, false, [⟨"ce", 0, 1, .w1c⟩, ⟨"ue", 1, 1, .w1c⟩, ⟨"poison_rd", 2, 1, .w1c⟩, ⟨"mark", 3, 1, .w1c⟩, ⟨"mark_ref", 4, 1, .w1c⟩, ⟨"alert_ca", 5, 1, .w1c⟩, ⟨"alert_crc", 6, 1, .w1c⟩, ⟨"replay_fail", 7, 1, .w1c⟩, ⟨"pause_abort", 8, 1, .w1c⟩, ⟨"mr4_fail", 9, 1, .w1c⟩, ⟨"throttle", 10, 1, .w1c⟩, ⟨"integrity", 11, 1, .w1c⟩]⟩,
    ⟨"scrub", 0x068, 1, 0x00000000, false, [⟨"pos", 0, 32, .ro⟩]⟩,
    ⟨"scrubcyc", 0x06C, 1, 0x00000000, false, [⟨"last_s", 0, 32, .ro⟩]⟩,
    ⟨"ce_lines", 0x280, 1, 0x00000000, true, [⟨"count", 0, 32, .ro⟩]⟩,
    ⟨"ce_syms", 0x284, 1, 0x00000000, true, [⟨"count", 0, 32, .ro⟩]⟩,
    ⟨"ue_lines", 0x288, 1, 0x00000000, true, [⟨"count", 0, 32, .ro⟩]⟩,
    ⟨"reread_ok", 0x28C, 1, 0x00000000, true, [⟨"count", 0, 32, .ro⟩]⟩,
    ⟨"poison_rd", 0x290, 1, 0x00000000, true, [⟨"count", 0, 32, .ro⟩]⟩,
    ⟨"poison_wr", 0x294, 1, 0x00000000, true, [⟨"count", 0, 32, .ro⟩]⟩,
    ⟨"scrub_lines", 0x298, 1, 0x00000000, true, [⟨"count", 0, 32, .ro⟩]⟩ ] ++
  [ ⟨"scrub_fix", 0x29C, 1, 0x00000000, true, [⟨"count", 0, 32, .ro⟩]⟩,
    ⟨"alert_ca", 0x2A0, 1, 0x00000000, true, [⟨"count", 0, 32, .ro⟩]⟩,
    ⟨"alert_crc", 0x2A4, 1, 0x00000000, true, [⟨"count", 0, 32, .ro⟩]⟩,
    ⟨"replay", 0x2A8, 1, 0x00000000, true, [⟨"count", 0, 32, .ro⟩]⟩,
    ⟨"replay_att", 0x2AC, 1, 0x00000000, true, [⟨"count", 0, 32, .ro⟩]⟩,
    ⟨"refsb", 0x2B0, 1, 0x00000000, true, [⟨"count", 0, 32, .ro⟩]⟩,
    ⟨"refab", 0x2B4, 1, 0x00000000, true, [⟨"count", 0, 32, .ro⟩]⟩,
    ⟨"rfm", 0x2B8, 1, 0x00000000, true, [⟨"count", 0, 32, .ro⟩]⟩,
    ⟨"mr4_poll", 0x2BC, 1, 0x00000000, true, [⟨"count", 0, 32, .ro⟩]⟩,
    ⟨"mr4_fail", 0x2C0, 1, 0x00000000, true, [⟨"count", 0, 32, .ro⟩]⟩,
    ⟨"thr_ent", 0x2C4, 1, 0x00000000, true, [⟨"count", 0, 32, .ro⟩]⟩,
    ⟨"pause_abort", 0x2C8, 1, 0x00000000, true, [⟨"count", 0, 32, .ro⟩]⟩ ]

/-! ### PHY -/

def PHY_CTL_PROOF_EN : Fld := ⟨0x000, 0, 1⟩
def PHY_CTL_DRIFT_EN : Fld := ⟨0x000, 1, 1⟩
def PHY_CTL_HDFE_EN : Fld := ⟨0x000, 2, 1⟩
def PHY_PROOF_INT_US : Fld := ⟨0x004, 0, 16⟩
def PHY_PROOF_GUARD : Fld := ⟨0x004, 16, 6⟩
def PHY_PROOF_VGUARD : Fld := ⟨0x004, 24, 4⟩
def PHY_PROOF2_MAXADJ : Fld := ⟨0x008, 0, 6⟩
def PHY_PROOF2_OSC_RUN : Fld := ⟨0x008, 8, 2⟩
def PHY_PASS_RD_MIN : Fld := ⟨0x00C, 0, 8⟩
def PHY_PASS_WR_MIN : Fld := ⟨0x00C, 8, 8⟩
def PHY_PASS_CA_MIN : Fld := ⟨0x00C, 16, 8⟩
def PHY_PASS_VREF_MIN : Fld := ⟨0x00C, 24, 8⟩
def PHY_TRN_CTL_START : Fld := ⟨0x010, 0, 1⟩
def PHY_TRN_CTL_END : Fld := ⟨0x010, 1, 1⟩
def PHY_TRN_CTL_MODE : Fld := ⟨0x010, 2, 1⟩
def PHY_TRN_STATUS_BUSY : Fld := ⟨0x014, 0, 1⟩
def PHY_TRN_STATUS_DONE : Fld := ⟨0x014, 1, 1⟩
def PHY_TRN_STATUS_FAIL : Fld := ⟨0x014, 2, 1⟩
def PHY_TRN_STATUS_STEP : Fld := ⟨0x014, 4, 4⟩
def PHY_TRN_STATUS_REASON : Fld := ⟨0x014, 8, 4⟩
def PHY_TRN_STATUS_DEV : Fld := ⟨0x014, 12, 5⟩
def PHY_TRN_STATUS_BIT : Fld := ⟨0x014, 17, 7⟩
def PHY_STATUS_WR_REJ : Fld := ⟨0x018, 0, 1⟩
def PHY_STATUS_DRIFT_LIM : Fld := ⟨0x018, 1, 1⟩
def PHY_STATUS_MARGIN : Fld := ⟨0x018, 2, 1⟩
def PHY_STATUS_NEXT : Fld := ⟨0x018, 4, 2⟩
def PHY_LASTPAUSE_END_NS : Fld := ⟨0x01C, 0, 32⟩
def PHY_SWP_CTL_START : Fld := ⟨0x020, 0, 1⟩
def PHY_SWP_CTL_CLR : Fld := ⟨0x020, 1, 1⟩
def PHY_SWP_CTL_APPLY : Fld := ⟨0x020, 2, 1⟩
def PHY_SWP_CTL_RANK : Fld := ⟨0x020, 3, 1⟩
def PHY_SWP_CTL_CTRL : Fld := ⟨0x020, 4, 4⟩
def PHY_SWP_CTL_SRC : Fld := ⟨0x020, 8, 2⟩
def PHY_SWP_RANGE_FIRST : Fld := ⟨0x024, 0, 14⟩
def PHY_SWP_RANGE_LAST : Fld := ⟨0x024, 16, 14⟩
def PHY_SWP_STEP_STEP : Fld := ⟨0x028, 0, 6⟩
def PHY_SWP_CNT_BURSTS : Fld := ⟨0x02C, 0, 16⟩
def PHY_SWP_CNT_ERR_TH : Fld := ⟨0x02C, 16, 16⟩
def PHY_SWP_STATUS_BUSY : Fld := ⟨0x030, 0, 1⟩
def PHY_SWP_STATUS_DONE : Fld := ⟨0x030, 1, 1⟩
def PHY_PAT_SRC : Fld := ⟨0x034, 0, 2⟩
def PHY_PAT_POLY : Fld := ⟨0x034, 2, 2⟩
def PHY_TURN_RR : Fld := ⟨0x038, 0, 4⟩
def PHY_TURN_WW : Fld := ⟨0x038, 4, 4⟩
def PHY_TURN_RW : Fld := ⟨0x038, 8, 4⟩
def PHY_TURN_WR : Fld := ⟨0x038, 12, 4⟩
def PHY_PAUSES_COUNT : Fld := ⟨0x100, 0, 32⟩
def PHY_PAUSE_CYC_COUNT : Fld := ⟨0x104, 0, 32⟩
def PHY_ADJ_RD_COUNT : Fld := ⟨0x108, 0, 32⟩
def PHY_ADJ_VREF_COUNT : Fld := ⟨0x10C, 0, 32⟩
def PHY_ADJ_WR_COUNT : Fld := ⟨0x110, 0, 32⟩
def PHY_OSC_BAD_COUNT : Fld := ⟨0x114, 0, 32⟩
def PHY_CENTRE_ERR_COUNT : Fld := ⟨0x118, 0, 32⟩
def PHY_LATE_COUNT : Fld := ⟨0x11C, 0, 32⟩

def phyRegs : List RegD :=
  [ ⟨"ctl", 0x000, 1, 0x00000007, false, [⟨"proof_en", 0, 1, .rw⟩, ⟨"drift_en", 1, 1, .rw⟩, ⟨"hdfe_en", 2, 1, .rw⟩]⟩,
    ⟨"proof", 0x004, 1, 0x030C0080, false, [⟨"int_us", 0, 16, .rw⟩, ⟨"guard", 16, 6, .rw⟩, ⟨"vguard", 24, 4, .rw⟩]⟩,
    ⟨"proof2", 0x008, 1, 0x00000210, false, [⟨"maxadj", 0, 6, .rw⟩, ⟨"osc_run", 8, 2, .rw⟩]⟩,
    ⟨"pass", 0x00C, 1, 0x06201414, false, [⟨"rd_min", 0, 8, .rw⟩, ⟨"wr_min", 8, 8, .rw⟩, ⟨"ca_min", 16, 8, .rw⟩, ⟨"vref_min", 24, 8, .rw⟩]⟩,
    ⟨"trn_ctl", 0x010, 1, 0x00000000, false, [⟨"start", 0, 1, .wo⟩, ⟨"end", 1, 1, .wo⟩, ⟨"mode", 2, 1, .rw⟩]⟩,
    ⟨"trn_status", 0x014, 1, 0x00000000, false, [⟨"busy", 0, 1, .ro⟩, ⟨"done", 1, 1, .w1c⟩, ⟨"fail", 2, 1, .w1c⟩, ⟨"step", 4, 4, .ro⟩, ⟨"reason", 8, 4, .ro⟩, ⟨"dev", 12, 5, .ro⟩, ⟨"bit", 17, 7, .ro⟩]⟩,
    ⟨"status", 0x018, 1, 0x00000000, false, [⟨"wr_rej", 0, 1, .w1c⟩, ⟨"drift_lim", 1, 1, .w1c⟩, ⟨"margin", 2, 1, .w1c⟩, ⟨"next", 4, 2, .ro⟩]⟩,
    ⟨"lastpause", 0x01C, 1, 0x00000000, false, [⟨"end_ns", 0, 32, .ro⟩]⟩,
    ⟨"swp_ctl", 0x020, 1, 0x00000000, false, [⟨"start", 0, 1, .wo⟩, ⟨"clr", 1, 1, .wo⟩, ⟨"apply", 2, 1, .rw⟩, ⟨"rank", 3, 1, .rw⟩, ⟨"ctrl", 4, 4, .rw⟩, ⟨"src", 8, 2, .rw⟩]⟩,
    ⟨"swp_range", 0x024, 1, 0x007F0000, false, [⟨"first", 0, 14, .rw⟩, ⟨"last", 16, 14, .rw⟩]⟩,
    ⟨"swp_step", 0x028, 1, 0x00000001, false, [⟨"step", 0, 6, .rw⟩]⟩,
    ⟨"swp_cnt", 0x02C, 1, 0x00000040, false, [⟨"bursts", 0, 16, .rw⟩, ⟨"err_th", 16, 16, .rw⟩]⟩ ] ++
  [ ⟨"swp_status", 0x030, 1, 0x00000000, false, [⟨"busy", 0, 1, .ro⟩, ⟨"done", 1, 1, .w1c⟩]⟩,
    ⟨"pat", 0x034, 1, 0x0000000D, false, [⟨"src", 0, 2, .rw⟩, ⟨"poly", 2, 2, .rw⟩]⟩,
    ⟨"turn", 0x038, 1, 0x00000000, false, [⟨"rr", 0, 4, .ro⟩, ⟨"ww", 4, 4, .ro⟩, ⟨"rw", 8, 4, .ro⟩, ⟨"wr", 12, 4, .ro⟩]⟩,
    ⟨"pauses", 0x100, 1, 0x00000000, true, [⟨"count", 0, 32, .ro⟩]⟩,
    ⟨"pause_cyc", 0x104, 1, 0x00000000, true, [⟨"count", 0, 32, .ro⟩]⟩,
    ⟨"adj_rd", 0x108, 1, 0x00000000, true, [⟨"count", 0, 32, .ro⟩]⟩,
    ⟨"adj_vref", 0x10C, 1, 0x00000000, true, [⟨"count", 0, 32, .ro⟩]⟩,
    ⟨"adj_wr", 0x110, 1, 0x00000000, true, [⟨"count", 0, 32, .ro⟩]⟩,
    ⟨"osc_bad", 0x114, 1, 0x00000000, true, [⟨"count", 0, 32, .ro⟩]⟩,
    ⟨"centre_err", 0x118, 1, 0x00000000, true, [⟨"count", 0, 32, .ro⟩]⟩,
    ⟨"late", 0x11C, 1, 0x00000000, true, [⟨"count", 0, 32, .ro⟩]⟩ ]

/-! ### LED -/

def LED_CTL_PLAN_EN : Fld := ⟨0x000, 0, 1⟩
def LED_CTL_THR_EN : Fld := ⟨0x000, 1, 1⟩
def LED_CAP_CAP : Fld := ⟨0x004, 0, 10⟩
def LED_CAP_HOLD : Fld := ⟨0x004, 16, 4⟩
def LED_STATUS_LEVEL : Fld := ⟨0x008, 0, 4⟩
def LED_STATUS_CAP_MISS : Fld := ⟨0x008, 4, 1⟩
def LED_STATUS_HOLD_REJ : Fld := ⟨0x008, 5, 1⟩
def LED_STATUS_HOLD_OK : Fld := ⟨0x008, 6, 1⟩
def LED_STATUS_FLUSH : Fld := ⟨0x008, 7, 1⟩
def LED_WIN_E_NJ : Fld := ⟨0x00C, 0, 32⟩
def LED_WINMAX_E_NJ : Fld := ⟨0x010, 0, 32⟩
def LED_HEAD_H_NJ : Fld := ⟨0x014, 0, 32⟩
def LED_HOLD_HOLD_UJ : Fld := ⟨0x020, 0, 24⟩
def LED_HOLD2_HOLD_US : Fld := ⟨0x024, 0, 16⟩
def LED_HOLD2_APPLY : Fld := ⟨0x024, 31, 1⟩
def LED_NHOLD_N_HOLD : Fld := ⟨0x028, 0, 23⟩

def ledRegs : List RegD :=
  [ ⟨"ctl", 0x000, 1, 0x00000003, false, [⟨"plan_en", 0, 1, .rw⟩, ⟨"thr_en", 1, 1, .rw⟩]⟩,
    ⟨"cap", 0x004, 1, 0x00040398, false, [⟨"cap", 0, 10, .rw⟩, ⟨"hold", 16, 4, .rw⟩]⟩,
    ⟨"status", 0x008, 1, 0x00000000, false, [⟨"level", 0, 4, .ro⟩, ⟨"cap_miss", 4, 1, .w1c⟩, ⟨"hold_rej", 5, 1, .w1c⟩, ⟨"hold_ok", 6, 1, .ro⟩, ⟨"flush", 7, 1, .ro⟩]⟩,
    ⟨"win", 0x00C, 1, 0x00000000, false, [⟨"e_nj", 0, 32, .ro⟩]⟩,
    ⟨"winmax", 0x010, 1, 0x00000000, false, [⟨"e_nj", 0, 32, .rc⟩]⟩,
    ⟨"head", 0x014, 1, 0x00000000, false, [⟨"h_nj", 0, 32, .ro⟩]⟩,
    ⟨"hold", 0x020, 1, 0x00000000, false, [⟨"hold_uj", 0, 24, .wg⟩]⟩,
    ⟨"hold2", 0x024, 1, 0x00000000, false, [⟨"hold_us", 0, 16, .wg⟩, ⟨"apply", 31, 1, .wo⟩]⟩,
    ⟨"nhold", 0x028, 1, 0x00000000, false, [⟨"n_hold", 0, 23, .ro⟩]⟩ ]

/-! ### BST -/

def BST_CTL_WAY_EN : Fld := ⟨0x000, 0, 1⟩
def BST_CTL_DRAM_EN : Fld := ⟨0x000, 1, 1⟩
def BST_CTL_PHY_EN : Fld := ⟨0x000, 2, 1⟩
def BST_CTL_LANE_EN : Fld := ⟨0x000, 3, 1⟩
def BST_STAG_PMAX_MW : Fld := ⟨0x004, 0, 16⟩
def BST_STAG_GAP_NS : Fld := ⟨0x004, 16, 12⟩
def BST_WAY_INT_US : Fld := ⟨0x008, 0, 16⟩
def BST_DRAM_BUDGET_US : Fld := ⟨0x00C, 0, 12⟩
def BST_DRAM_PHY_EVERY : Fld := ⟨0x00C, 16, 5⟩
def BST_DRAM_WGUARD : Fld := ⟨0x00C, 24, 6⟩
def BST_PHY_RD_MIN : Fld := ⟨0x010, 0, 8⟩
def BST_PHY_VREF_MIN : Fld := ⟨0x010, 8, 8⟩
def BST_PHY_CA_MIN : Fld := ⟨0x010, 16, 8⟩
def BST_LANE_INT_US : Fld := ⟨0x014, 0, 16⟩
def BST_LANE_H_MIN : Fld := ⟨0x014, 16, 8⟩
def BST_LANE_W_MIN : Fld := ⟨0x014, 24, 8⟩
def BST_STATUS_CH_RUN : Fld := ⟨0x018, 0, 16⟩
def BST_STATUS_LANE_RUN : Fld := ⟨0x018, 16, 4⟩
def BST_STATUS_WAY_RUN : Fld := ⟨0x018, 20, 1⟩
def BST_STATUS_FAULT : Fld := ⟨0x018, 24, 1⟩
def BST_COV_COV : Fld := ⟨0x040, 0, 16⟩
def BST_CYC_MS : Fld := ⟨0x060, 0, 32⟩
def BST_SLICE_COUNT : Fld := ⟨0x100, 0, 32⟩
def BST_STOP_COUNT : Fld := ⟨0x120, 0, 32⟩
def BST_WAITLED_COUNT : Fld := ⟨0x124, 0, 32⟩
def BST_TRANS_COUNT : Fld := ⟨0x128, 0, 32⟩
def BST_FAULTS_COUNT : Fld := ⟨0x12C, 0, 32⟩

def bstRegs : List RegD :=
  [ ⟨"ctl", 0x000, 1, 0x0000000F, false, [⟨"way_en", 0, 1, .rw⟩, ⟨"dram_en", 1, 1, .rw⟩, ⟨"phy_en", 2, 1, .rw⟩, ⟨"lane_en", 3, 1, .rw⟩]⟩,
    ⟨"stag", 0x004, 1, 0x01000FA0, false, [⟨"pmax_mw", 0, 16, .rw⟩, ⟨"gap_ns", 16, 12, .rw⟩]⟩,
    ⟨"way", 0x008, 1, 0x000003E8, false, [⟨"int_us", 0, 16, .rw⟩]⟩,
    ⟨"dram", 0x00C, 1, 0x0A1000C8, false, [⟨"budget_us", 0, 12, .rw⟩, ⟨"phy_every", 16, 5, .rw⟩, ⟨"wguard", 24, 6, .rw⟩]⟩,
    ⟨"phy", 0x010, 1, 0x00100308, false, [⟨"rd_min", 0, 8, .rw⟩, ⟨"vref_min", 8, 8, .rw⟩, ⟨"ca_min", 16, 8, .rw⟩]⟩,
    ⟨"lane", 0x014, 1, 0x190F03E8, false, [⟨"int_us", 0, 16, .rw⟩, ⟨"h_min", 16, 8, .rw⟩, ⟨"w_min", 24, 8, .rw⟩]⟩,
    ⟨"status", 0x018, 1, 0x00000000, false, [⟨"ch_run", 0, 16, .ro⟩, ⟨"lane_run", 16, 4, .ro⟩, ⟨"way_run", 20, 1, .ro⟩, ⟨"fault", 24, 1, .w1c⟩]⟩,
    ⟨"cov", 0x040, 5, 0x00000000, false, [⟨"cov", 0, 16, .ro⟩]⟩,
    ⟨"cyc", 0x060, 5, 0x00000000, false, [⟨"ms", 0, 32, .ro⟩]⟩,
    ⟨"slice", 0x100, 5, 0x00000000, true, [⟨"count", 0, 32, .ro⟩]⟩,
    ⟨"stop", 0x120, 1, 0x00000000, true, [⟨"count", 0, 32, .ro⟩]⟩,
    ⟨"waitled", 0x124, 1, 0x00000000, true, [⟨"count", 0, 32, .ro⟩]⟩ ] ++
  [ ⟨"trans", 0x128, 1, 0x00000000, true, [⟨"count", 0, 32, .ro⟩]⟩,
    ⟨"faults", 0x12C, 1, 0x00000000, true, [⟨"count", 0, 32, .ro⟩]⟩ ]

/-! ### PWR -/

def PWR_STATE_STATE : Fld := ⟨0x000, 0, 2⟩
def PWR_STATE_SUB : Fld := ⟨0x000, 4, 3⟩
def PWR_STATE_LAST_WAKE : Fld := ⟨0x000, 8, 4⟩
def PWR_SLEEP_DRAIN_US : Fld := ⟨0x004, 0, 16⟩
def PWR_SLEEP_RET_US : Fld := ⟨0x004, 16, 12⟩
def PWR_WAKESRC_WAKEN : Fld := ⟨0x008, 0, 1⟩
def PWR_WAKESRC_PORT : Fld := ⟨0x008, 1, 1⟩
def PWR_WAKESRC_TIMER : Fld := ⟨0x008, 2, 1⟩
def PWR_WAKESRC_LINK : Fld := ⟨0x008, 4, 4⟩
def PWR_GATECFG_MAXPAR : Fld := ⟨0x00C, 0, 2⟩
def PWR_GATE_FAULT_FAULT : Fld := ⟨0x010, 0, 23⟩
def PWR_RETRY_DOM : Fld := ⟨0x014, 0, 5⟩
def PWR_ENTRY_US : Fld := ⟨0x020, 0, 32⟩
def PWR_WAKELAT_US : Fld := ⟨0x024, 0, 32⟩
def PWR_DOMSTAT_STATE : Fld := ⟨0x040, 0, 2⟩
def PWR_DOMSTAT_CAUSE : Fld := ⟨0x040, 2, 2⟩
def PWR_DOMSTAT_RAMP_US : Fld := ⟨0x040, 8, 8⟩
def PWR_DOMSTAT_TRIPS : Fld := ⟨0x040, 16, 16⟩

def pwrRegs : List RegD :=
  [ ⟨"state", 0x000, 1, 0x00000000, false, [⟨"state", 0, 2, .ro⟩, ⟨"sub", 4, 3, .ro⟩, ⟨"last_wake", 8, 4, .ro⟩]⟩,
    ⟨"sleep", 0x004, 1, 0x006400C8, false, [⟨"drain_us", 0, 16, .rw⟩, ⟨"ret_us", 16, 12, .rw⟩]⟩,
    ⟨"wakesrc", 0x008, 1, 0x00000003, false, [⟨"waken", 0, 1, .rw⟩, ⟨"port", 1, 1, .rw⟩, ⟨"timer", 2, 1, .rw⟩, ⟨"link", 4, 4, .rw⟩]⟩,
    ⟨"gatecfg", 0x00C, 1, 0x00000002, false, [⟨"maxpar", 0, 2, .rw⟩]⟩,
    ⟨"gate_fault", 0x010, 1, 0x00000000, false, [⟨"fault", 0, 23, .ro⟩]⟩,
    ⟨"retry", 0x014, 1, 0x00000000, false, [⟨"dom", 0, 5, .wg⟩]⟩,
    ⟨"entry", 0x020, 1, 0x00000000, false, [⟨"us", 0, 32, .ro⟩]⟩,
    ⟨"wakelat", 0x024, 1, 0x00000000, false, [⟨"us", 0, 32, .ro⟩]⟩,
    ⟨"domstat", 0x040, 23, 0x00000000, false, [⟨"state", 0, 2, .ro⟩, ⟨"cause", 2, 2, .ro⟩, ⟨"ramp_us", 8, 8, .ro⟩, ⟨"trips", 16, 16, .ro⟩]⟩ ]

/-! ### AON -/

def AON_STATUS_START : Fld := ⟨0x000, 0, 3⟩
def AON_STATUS_BROWNOUT : Fld := ⟨0x000, 3, 1⟩
def AON_STATUS_RET_LOST : Fld := ⟨0x000, 4, 1⟩
def AON_STATUS_PFAIL_SEEN : Fld := ⟨0x000, 5, 1⟩
def AON_STATUS_FLUSH_OK : Fld := ⟨0x000, 6, 1⟩
def AON_STATUS_GATE_FAULT : Fld := ⟨0x000, 7, 1⟩
def AON_STATUS_LAST_WAKE : Fld := ⟨0x000, 8, 4⟩
def AON_WAKE_ADDR : Fld := ⟨0x004, 0, 7⟩
def AON_WAKE_ADDR_REJ : Fld := ⟨0x004, 16, 1⟩
def AON_TIMER_EDGES : Fld := ⟨0x008, 0, 32⟩
def AON_SLOWCNT_EDGES : Fld := ⟨0x00C, 0, 32⟩
def AON_STARTER_VALID : Fld := ⟨0x010, 0, 1⟩
def AON_STARTER_WORDS : Fld := ⟨0x010, 16, 16⟩

def aonRegs : List RegD :=
  [ ⟨"status", 0x000, 1, 0x00000000, false, [⟨"start", 0, 3, .ro⟩, ⟨"brownout", 3, 1, .w1c⟩, ⟨"ret_lost", 4, 1, .w1c⟩, ⟨"pfail_seen", 5, 1, .w1c⟩, ⟨"flush_ok", 6, 1, .ro⟩, ⟨"gate_fault", 7, 1, .w1c⟩, ⟨"last_wake", 8, 4, .ro⟩]⟩,
    ⟨"wake", 0x004, 1, 0x00000052, false, [⟨"addr", 0, 7, .rw⟩, ⟨"addr_rej", 16, 1, .w1c⟩]⟩,
    ⟨"timer", 0x008, 1, 0x00000000, false, [⟨"edges", 0, 32, .rw⟩]⟩,
    ⟨"slowcnt", 0x00C, 1, 0x00000000, false, [⟨"edges", 0, 32, .ro⟩]⟩,
    ⟨"starter", 0x010, 1, 0x00000000, false, [⟨"valid", 0, 1, .ro⟩, ⟨"words", 16, 16, .ro⟩]⟩ ]

/-! ### SNP -/

def SNP_CMD_CAPTURE : Fld := ⟨0x000, 0, 1⟩
def SNP_SEQ_SEQ : Fld := ⟨0x004, 0, 32⟩
def SNP_STATUS_BUSY : Fld := ⟨0x008, 0, 1⟩
def SNP_STATUS_REJ : Fld := ⟨0x008, 1, 1⟩
def SNP_VALID_CH : Fld := ⟨0x00C, 0, 16⟩
def SNP_VALID_HP : Fld := ⟨0x00C, 16, 4⟩
def SNP_VALID_CORE : Fld := ⟨0x00C, 20, 1⟩
def SNP_VALID_MGT : Fld := ⟨0x00C, 21, 1⟩
def SNP_DTIME_LO_NS_LO : Fld := ⟨0x010, 0, 32⟩
def SNP_DTIME_HI_NS_HI : Fld := ⟨0x014, 0, 32⟩
def SNP_SKEW_PS : Fld := ⟨0x018, 0, 32⟩

def snpRegs : List RegD :=
  [ ⟨"cmd", 0x000, 1, 0x00000000, false, [⟨"capture", 0, 1, .wo⟩]⟩,
    ⟨"seq", 0x004, 1, 0x00000000, false, [⟨"seq", 0, 32, .ro⟩]⟩,
    ⟨"status", 0x008, 1, 0x00000000, false, [⟨"busy", 0, 1, .ro⟩, ⟨"rej", 1, 1, .w1c⟩]⟩,
    ⟨"valid", 0x00C, 1, 0x00000000, false, [⟨"ch", 0, 16, .ro⟩, ⟨"hp", 16, 4, .ro⟩, ⟨"core", 20, 1, .ro⟩, ⟨"mgt", 21, 1, .ro⟩]⟩,
    ⟨"dtime_lo", 0x010, 1, 0x00000000, false, [⟨"ns_lo", 0, 32, .ro⟩]⟩,
    ⟨"dtime_hi", 0x014, 1, 0x00000000, false, [⟨"ns_hi", 0, 32, .ro⟩]⟩,
    ⟨"skew", 0x018, 1, 0x00000000, false, [⟨"ps", 0, 32, .ro⟩]⟩ ]

/-! ### JRN -/

def JRN_STATUS_REPLAY_ACTIVE : Fld := ⟨0x000, 0, 1⟩
def JRN_STATUS_REPLAY_DONE : Fld := ⟨0x000, 1, 1⟩
def JRN_STATUS_CAP_REJ : Fld := ⟨0x000, 2, 1⟩
def JRN_STATUS_RING_ACT : Fld := ⟨0x000, 16, 16⟩
def JRN_CAP_CAP : Fld := ⟨0x004, 0, 14⟩
def JRN_ERR_UE_A : Fld := ⟨0x008, 0, 1⟩
def JRN_ERR_UE_B : Fld := ⟨0x008, 1, 1⟩
def JRN_ERR_UE_BOTH : Fld := ⟨0x008, 2, 1⟩
def JRN_ERR_STREAM_UE : Fld := ⟨0x008, 3, 1⟩
def JRN_LOST_CNT_COUNT : Fld := ⟨0x00C, 0, 32⟩
def JRN_FILL_FILL : Fld := ⟨0x040, 0, 14⟩
def JRN_FILL_HWM : Fld := ⟨0x040, 16, 14⟩
def JRN_RPL_PEND : Fld := ⟨0x080, 0, 16⟩
def JRN_RPL_RSLT : Fld := ⟨0x080, 16, 16⟩

def jrnRegs : List RegD :=
  [ ⟨"status", 0x000, 1, 0x00000000, false, [⟨"replay_active", 0, 1, .ro⟩, ⟨"replay_done", 1, 1, .w1c⟩, ⟨"cap_rej", 2, 1, .w1c⟩, ⟨"ring_act", 16, 16, .ro⟩]⟩,
    ⟨"cap", 0x004, 1, 0x00000800, false, [⟨"cap", 0, 14, .rw⟩]⟩,
    ⟨"err", 0x008, 1, 0x00000000, false, [⟨"ue_a", 0, 1, .w1c⟩, ⟨"ue_b", 1, 1, .w1c⟩, ⟨"ue_both", 2, 1, .w1c⟩, ⟨"stream_ue", 3, 1, .w1c⟩]⟩,
    ⟨"lost_cnt", 0x00C, 1, 0x00000000, false, [⟨"count", 0, 32, .ro⟩]⟩,
    ⟨"fill", 0x040, 16, 0x00000000, false, [⟨"fill", 0, 14, .ro⟩, ⟨"hwm", 16, 14, .rc⟩]⟩,
    ⟨"rpl", 0x080, 16, 0x00000000, false, [⟨"pend", 0, 16, .ro⟩, ⟨"rslt", 16, 16, .ro⟩]⟩ ]

end Sys2Proof.Machine
end

