-- ==== Sys2Proof/Machine/Tbl.lean ====
section
/-! DEFINITION. Sparse tables: a list of key and value pairs in rising order of key, with no entry equal to what an unlisted key reads as. Registers, memory bytes, stream records and every other large table of the machine are kept this way, so that equal contents are equal lists. -/

namespace Sys2Proof.Machine

/-- What key `k` holds: the listed value, or `d k` where the table lists none. -/
def tblGet {α : Type} (d : Nat → α) : List (Nat × α) → Nat → α
  | [], k => d k
  | (k0, v) :: r, k => if k < k0 then d k else if k = k0 then v else tblGet d r k

/-- Put an entry in front of a tail unless it holds the value an unlisted key reads as. -/
def tblCons {α : Type} [DecidableEq α] (d : Nat → α) (k : Nat) (v : α) (r : List (Nat × α)) : List (Nat × α) :=
  if v = d k then r else (k, v) :: r

/-- The table with key `k` holding `v`; writing the value an unlisted key reads as removes the entry. -/
def tblSet {α : Type} [DecidableEq α] (d : Nat → α) : List (Nat × α) → Nat → α → List (Nat × α)
  | [], k, v => tblCons d k v []
  | (k0, v0) :: r, k, v =>
    if k < k0 then tblCons d k v ((k0, v0) :: r)
    else if k = k0 then tblCons d k v (r.dropWhile fun e => decide (e.1 ≤ k))
    else (k0, v0) :: tblSet d r k v

/-- Remove every entry whose key lies in `[lo, hi)`: those keys read as unlisted again. -/
def tblClear {α : Type} (t : List (Nat × α)) (lo hi : Nat) : List (Nat × α) :=
  t.filter fun e => decide (e.1 < lo ∨ hi ≤ e.1)

/-- The canonical form: keys strictly rising from `b`, and no entry equal to what its key reads as unlisted. -/
def tblWfFrom {α : Type} [DecidableEq α] (d : Nat → α) : Nat → List (Nat × α) → Bool
  | _, [] => true
  | b, (k, v) :: r => decide (b ≤ k) && decide (v ≠ d k) && tblWfFrom d (k + 1) r

/-- The canonical form of a whole table. -/
def tblWf {α : Type} [DecidableEq α] (d : Nat → α) (t : List (Nat × α)) : Bool := tblWfFrom d 0 t

end Sys2Proof.Machine
end

