-- ==== Sys2Proof/Machine/State.lean ====
section
/-! DEFINITION. The state of the EW1672 as plain data: everything the spec gives the part beside the commands that wait. Registers and counters that software can read live in one register file; tables with structure live in records. The reset state is the part after a cold start, with its console running (17 R494). -/

namespace Sys2Proof.Machine

/-! ### Host ports (03) -/

/-- The credit classes (03 R74). -/
inductive Cls where
  | x | t | c
  deriving DecidableEq, Repr, Inhabited

/-- A DATA flit in the replay buffer: the fields that a replay repeats unchanged (03 R73). -/
structure TxFlit where
  fseq : BitVec 12
  som : BitVec 15
  padfrom : BitVec 4
  slots : List Slot
  deriving DecidableEq, Repr, Inhabited

/-- A response of class X (04 R115, R116) with the slots after its slot 0. -/
structure Resp where
  rtype : BitVec 4
  tag : BitVec 12
  stream : BitVec 12
  seq : BitVec 16
  opc : BitVec 4
  dup : Bool
  poison : Bool
  code : BitVec 4
  info : BitVec 64
  data : List Slot
  /-- the manifest that the slots' energy goes to; none for the device account (12 R360) -/
  man : Option (BitVec 8) := none
  deriving DecidableEq, Repr, Inhabited

/-- One credit class of one direction as its sender keeps it (03 R85): slots sent and released, as running totals. -/
structure Credit where
  sent : Nat := 0
  released : Nat := 0
  deriving DecidableEq, Repr, Inhabited

/-- How far a RETRAIN has come (03 R91): the lanes' re-test, ALIGN, INIT. -/
inductive RtPhase where
  | test | align | init
  deriving DecidableEq, Repr, Inhabited

/-- What a host port holds beside its registers (03). -/
structure PortState where
  /-- DATA flits sent and not acknowledged, oldest first (03 R76, R77) -/
  replay : List TxFlit := []
  /-- the FSEQ of the next DATA flit (03 R72) -/
  nextFseq : BitVec 12 := 0
  /-- the first FSEQ of the retransmission last begun (03 R80, R81) -/
  resentFrom : Option (BitVec 12) := none
  /-- retransmissions since an acknowledgement last advanced (03 R81) -/
  retries : Nat := 0
  /-- the FSEQ expected next (03 R79) -/
  expect : BitVec 12 := 0
  /-- a NAK episode is open, and the last NAK's DTIME in eighths of a ns (03 R79) -/
  nak : Bool := false
  nakAt8 : Nat := 0
  /-- the next flit sent carries the NAK of the open episode (03 R79) -/
  nakDue : Bool := false
  /-- the flits sent at the last instant at which the port sent any, oldest first, and that instant in eighths of a ns (03 R70 to R73) -/
  out : List Flit := []
  outAt8 : Nat := 0
  /-- the place of the next received flit in the two codewords and five flits that share their boundaries (03 R68) -/
  fecPos : Nat := 0
  /-- DTIME of the last advance of an acknowledgement or retransmission, in eighths of a ns (03 R81) -/
  ackAt8 : Nat := 0
  /-- a DATA flit was received in this epoch, so an acknowledgement is sent (03 R78) -/
  ackSeen : Bool := false
  /-- credits the port holds of the host, per class (03 R85) -/
  crX : Credit := {}
  crT : Credit := {}
  crC : Credit := {}
  /-- slots the host has begun and slots the port has released, per class (03 R86, R87) -/
  rxX : Credit := {}
  rxT : Credit := {}
  rxC : Credit := {}
  /-- the message left open at the end of the last DATA flit (03 R75) -/
  part : List Slot := []
  /-- slots the open message still lacks -/
  partNeed : Nat := 0
  /-- complete requests not yet taken (02 R56) -/
  intake : List Req := []
  /-- the DTIME in ns at which each request of the intake buffer arrived (02 R65) -/
  arrived : List (Req × Nat) := []
  /-- TIME messages not yet answered, with the RPLY bit of their flit and the DTIME in eighths of a ns at which it was unpacked (04 R131) -/
  timeQ : List (Slot × Bool × Nat) := []
  /-- console messages not yet taken (15 R428) -/
  conQ : List Slot := []
  /-- responses waiting in the response-assembly buffer (03 R88) -/
  rab : List Resp := []
  /-- TIME_R responses waiting (04 R118); T3 is put in when their flit is formed (04 R131) -/
  txT : List (List Slot) := []
  /-- consecutive intact INIT records received (03 R90, R91) -/
  initSeen : Nat := 0
  /-- TRAIN flits sent in the present INIT (03 R91) -/
  initSent : Nat := 0
  /-- how far the RETRAIN in progress has come (03 R91) -/
  rtPhase : RtPhase := .test
  /-- lanes that hold lock in the present training, in both directions as far as the peer has reported, physical -/
  trnGood : BitVec 16 := 0
  /-- lane pairs newly failed in ACTIVE or in the present RETRAIN (03 R95, R96) -/
  newFail : BitVec 16 := 0
  /-- the first physical lane of the trained group (03 R66) -/
  group : Nat := 0
  /-- WIDTH_MAX and RATE as taken at the last entry to DETECT (03 R103) -/
  widthTry : Nat := 2
  rateTry : Bool := true
  /-- the training in progress is lossless (03 R93) -/
  lossless : Bool := false
  /-- the RETRAIN in progress is an upgrade (03 R97) -/
  upgrade : Bool := false
  /-- LREQ or a lane fault allows a TRAIN flit in ACTIVE (03 R99) -/
  trainOk : Bool := false
  /-- the equaliser settings of the last training are kept (03 R96) -/
  eqKept : Bool := false
  /-- DTIME of the entry to the present state, in eighths of a ns, and the width code and group before the RETRAIN in progress -/
  stAt8 : Nat := 0
  widthWas : Nat := 0
  groupWas : Nat := 0
  /-- the entry to QUIET has begun: new DATA flits are not taken, and QUIET follows once all are acknowledged (03 R94) -/
  toQuiet : Bool := false
  /-- corrected symbols per physical lane in the present window of 65,536 codewords (03 R95) -/
  ser : Vector Nat 16 := Vector.replicate 16 0
  deriving DecidableEq, Repr

/-! ### Streams and the journal (01, 04) -/

/-- A recorded final outcome (01 R11, 04 R117, R124). -/
structure Final where
  late : Bool := false
  /-- REFUSE_FAULT with FINAL: its REASON and CH fields -/
  fault : Option (BitVec 4 × BitVec 4) := none
  info : BitVec 64 := 0
  poison : Bool := false
  deriving DecidableEq, Repr, Inhabited

/-- A window slot of a stream record (01 R24, R25): the request's fingerprint and status, and the tag to answer on. -/
structure WinSlot where
  seq : BitVec 16
  fp : Word
  opc : Opc
  /-- the tag that the final response goes to; none once voided (01 R36, 03 R98) -/
  tag : Option (BitVec 12)
  /-- the tag is that of a reissue, so the answer carries DUP (01 R25) -/
  dup : Bool := false
  fin : Option Final := none
  /-- INFO of its ACCEPT (04 R117) -/
  acc : BitVec 64 := 0
  /-- the result slots of a WALK, which the walk window keeps until the slot leaves the window (01 R29) -/
  walk : List Slot := []
  /-- the cells that a DEQ retains: the first block, the first cell and their number (08 R253) -/
  ret : Option (Nat × Nat × Nat) := none
  deriving DecidableEq, Repr, Inhabited

/-- An accepted SYNC that has not reached its service point (04 R133). -/
structure SyncRec where
  seq : BitVec 16
  tag : Option (BitVec 12)
  dup : Bool := false
  /-- the 64-bit deadline in ns, and whether it was past at intake (04 R128, R129) -/
  d : Nat
  late : Bool
  deriving DecidableEq, Repr, Inhabited

/-- A stream record (01 R24 to R30, 04 R138) and the requests of the stream that wait at classification (04 R120). -/
structure StreamRec where
  n : BitVec 16 := 0
  frozen : Bool := false
  ue : Bool := false
  /-- newest first, at most 32 -/
  win : List WinSlot := []
  k : Nat := 0
  resv : Bool := false
  /-- RETRY_AT in whole ns of DTIME (04 R125) -/
  retryAt : Option Nat := none
  sync : Option SyncRec := none
  /-- a request of the stream is between classification and its refusal or grant (04 R120) -/
  busy : Bool := false
  waiting : List Req := []
  /-- the window slots, by number, of requests whose entries still stand in the journal since before the record was emptied (01 R30) -/
  old : List (Nat × WinSlot) := []
  deriving DecidableEq, Repr, Inhabited

/-- The states of a journal entry (01, "Entry states and the results rule"). -/
inductive JState where
  | free | pend | rslt | lost
  deriving DecidableEq, Repr, Inhabited

def JState.code : JState → Nat
  | .free => 0 | .pend => 1 | .rslt => 2 | .lost => 3

/-- A journal entry (01 R20), the staged data its STAGE lines hold (01 R21), and what its retirement waits for (01 R19). -/
structure JEntry where
  st : JState := .free
  opc : Opc := .rd
  twin : Bool := false
  rpl : Bool := false
  man : BitVec 8 := 0
  port : Fin 4 := 0
  stream : BitVec 12 := 0
  seq : BitVec 16 := 0
  tag : BitVec 12 := 0
  weight : Nat := 0
  target : BitVec 44 := 0
  resp : BitVec 64 := 0
  stageV : Bool := false
  deadline : BitVec 32 := 0
  staged : List Slot := []
  /-- the request's header operands that its execution needs -/
  sub : BitVec 4 := 0
  arg : BitVec 37 := 0
  /-- the deadline D of 04 R128 in ns, and whether it was past at intake -/
  d : Nat := 0
  late : Bool := false
  ndf : Bool := false
  deferSent : Bool := false
  /-- served in the Waystation (02 R57 step 5) -/
  hit : Bool := false
  /-- DTIME in ns of the service point, once it has been reached -/
  served : Option Nat := none
  /-- DTIME in ns at which the write of a TWIN write's partner copy left its command line (02 R62) -/
  twinAt : Option Nat := none
  /-- DTIME of the grant in eighths of a ns (06 R181) -/
  grant8 : Nat := 0
  /-- the effect is durable (01 R19) -/
  durable : Bool := false
  /-- the outcome is recorded in the stream record (01 R19) -/
  recorded : Bool := false
  /-- TWIN copies still not durable (01 R19) -/
  twinLeft : Bool := false
  /-- the stream was set open after an error of its record while the entry stood (01 R30): the number of its slot in `StreamRec.old` -/
  orphan : Option Nat := none
  deriving DecidableEq, Repr, Inhabited

/-- A journal ring (01 R17 to R22): the slot of its oldest non-FREE entry, and its non-FREE entries in ring order, in two copies. -/
structure Ring where
  head : Nat := 0
  /-- slots that have held an entry since cold reset: a FREE slot at or above this number reads zero (01 R20) -/
  used : Nat := 0
  /-- copy A, which every step acts on (01 R37) -/
  entries : List JEntry := []
  /-- copy B, written after copy A (01 R17) -/
  copyB : List JEntry := []
  deriving DecidableEq, Repr, Inhabited

/-! ### Manifests (05) -/

/-- The states of a manifest (05 R164). -/
inductive MState where
  | closed | opened | closing
  deriving DecidableEq, Repr, Inhabited

def MState.code : MState → Nat
  | .closed => 0 | .opened => 1 | .closing => 2

/-- An entry of the manifest table (05 R164). -/
structure Manifest where
  st : MState := .closed
  f : MFields := {}
  gen : BitVec 16 := 0
  shortCh : BitVec 16 := 0
  achv : Nat := 0
  floorNs : Nat := 0
  /-- a forced close discards the queues' cells (05 R151) -/
  forced : Bool := false
  /-- the Waystation share to which 05 R159 has reduced WAY_SEG, as last reported; none while the share is whole -/
  wayRed : Option Nat := none
  deriving DecidableEq, Repr, Inhabited

/-- The account of one manifest at one channel (05 R140, R154, 06 R195). -/
structure Account where
  count : Nat := 0
  emin : Nat := 0
  thr : Nat := 0x3FF
  deriving DecidableEq, Repr, Inhabited

/-! ### Arbiters (06) -/

/-- A request between intake step 5 and its grant or refusal (06 R169), or a RESV attempt that waits (06 R180). -/
structure Contestant where
  port : Fin 4
  req : Req
  /-- fingerprint (04 R114) -/
  fp : Word
  /-- classification DTIME in ns (04 R128) -/
  t : Nat
  /-- the deadline D, or t plus LAT_NS where it was past at intake (06 R173) -/
  o : Nat
  late : Bool
  boost : Nat
  /-- order of classification, which names the contestant -/
  order : Nat
  /-- the CK_CORE cycle of its classification, and its entry cycle m, as DTIME in eighths of a ns (06 R169, R171) -/
  cyc : Nat := 0
  at8 : Nat := 0
  /-- DTIME in ns at which the request was usable in the core (02 R65) -/
  arr : Nat := 0
  /-- home channel of the journal entry (01 R10) -/
  home : Fin 16
  weight : Nat
  /-- lines charged to the toll gate at grant (06 R183) -/
  toll : Nat
  resv : Bool
  twin : Bool
  hit : Bool
  /-- has lost before and is counted as waiting (06 R194) -/
  waited : Bool := false
  deriving DecidableEq, Repr

/-- What an intake slot is (06 R166). -/
inductive SlotKind where
  | general | portRes | background | selfTest
  deriving DecidableEq, Repr, Inhabited

/-- A held intake slot (06 R166, R167). -/
structure HeldSlot where
  kind : SlotKind
  man : BitVec 8
  port : Fin 4
  home : Fin 16
  /-- the journal entry's slot in the ring of `home` -/
  entry : Nat
  /-- the slot is a TWIN write's slot at the partner channel (06 R190) -/
  partner : Bool := false
  deriving DecidableEq, Repr

/-- One arbiter (06 R166). -/
structure ArbState where
  contest : List Contestant := []
  resvWait : List Contestant := []
  held : List HeldSlot := []
  rr : Fin 4 := 0
  /-- the CK_CORE cycle of the last RESV grant as DTIME in eighths of a ns, the RESV grants made in it, and the macro groups they took (06 R180) -/
  resvAt : Nat := 0
  resvN : Nat := 0
  resvGroups : List Nat := []
  /-- the CK_CORE cycle whose contest has been decided, as DTIME in eighths of a ns (06 R169, R170) -/
  doneAt8 : Option Nat := none
  deriving DecidableEq, Repr

/-! ### Waystation (07) -/

/-- The states of a tier or pinned frame (07 R199), with the codes of 07 R231. -/
inductive FrSt where
  | free | filling | resident | leaving | pinned | test | retired
  deriving DecidableEq, Repr, Inhabited

def FrSt.code : FrSt → Nat
  | .free => 0 | .filling => 1 | .resident => 2 | .leaving => 3 | .pinned => 4 | .test => 5 | .retired => 6

/-- Who a dirty line is charged to (07 R207, R208). -/
inductive DirtyTo where
  | man (m : BitVec 8)
  | account
  deriving DecidableEq, Repr, Inhabited

/-- A frame of the tier cache or of the pinned carve-out (07 R199 to R206). -/
structure Frame where
  st : FrSt := .free
  seg : Nat := 0
  owner : Option (BitVec 8) := none
  dirty : BitVec 16 := 0
  age : Nat := 0
  /-- what each dirty line is charged to -/
  charge : List (Nat × DirtyTo) := []
  /-- lines filled and lines stale while FILLING (07 R203) -/
  filled : BitVec 16 := 0
  stale : BitVec 16 := 0
  /-- fill reads issued and not returned -/
  reading : BitVec 16 := 0
  /-- lines whose write-back is in progress -/
  wb : BitVec 16 := 0
  /-- lines recorded as poisoned (01 R42, 07 R210) -/
  psn : BitVec 16 := 0
  /-- the epoch in which FILLING began (07 R203) -/
  since : Nat := 0
  restarts : Nat := 0
  /-- the demotion is never abandoned (07 R204) -/
  forced : Bool := false
  /-- the demotion is retried at the next epoch (07 R204) -/
  retry : Bool := false
  /-- the frame is to be retired, or lent to self-test, once it is FREE (07 R204, R210, 13 R373) -/
  thenRetire : Bool := false
  thenTest : Bool := false
  /-- the segment the frame is to be filled with once it is FREE, and for whom (07 R203) -/
  thenFill : Option (Nat × BitVec 8) := none
  /-- the pin entry a pinned frame belongs to (07 R206) -/
  pin : Option (Fin 16) := none
  deriving DecidableEq, Repr, Inhabited

/-- A pin entry (07 R206, R231). -/
structure PinEntry where
  addrLo : Word := 0
  addrHi : BitVec 12 := 0
  segs : BitVec 16 := 0
  man : BitVec 8 := 0
  en : Bool := false
  pstate : BitVec 2 := 0
  deriving DecidableEq, Repr, Inhabited

/-- What the Waystation holds beside its registers, its line data and its tables of words (07). -/
structure WayState where
  /-- tier frames, by frame number -/
  tier : List (Nat × Frame) := []
  /-- pinned frames, by number from 0 -/
  pinned : List (Nat × Frame) := []
  pins : Vector PinEntry 16 := Vector.replicate 16 {}
  /-- hot-filter counters, by channel * 16384 + counter (07 R201) -/
  hot : List (Nat × Nat) := []
  /-- epochs ended, the end of the present epoch in ns of DTIME, and its length in us (07 R201) -/
  epoch : Nat := 0
  epochEnd : Nat := 64000
  /-- segments whose promotion waits for their frame -/
  pinQueue : List (Fin 16 × Nat) := []
  /-- places of the write-through account held by grants (07 R208) -/
  wtHeld : Nat := 0
  /-- the Waystation clear of a cold start is running (17 R494) -/
  clearing : Bool := false
  deriving DecidableEq, Repr

/-! ### Walks (07) -/

/-- A stage-image slot (07 R221). -/
structure ImgSlot where
  stage : Option Nat := none
  present : Bool := false
  /-- lines read by the load in progress -/
  loaded : Nat := 0
  total : Nat := 0
  /-- order of the last resolution from the image, 0 for never -/
  used : Nat := 0
  deriving DecidableEq, Repr, Inhabited

/-- The caravan that triggers an image load, as the load's reads contest for it (07 R222, 06 R171): its port, its effective deadline less the class offset, its classification cycle and its stream. -/
structure Trigger where
  port : Fin 4
  o : Nat
  cyc : Nat := 0
  strm : Nat := 0
  deriving DecidableEq, Repr, Inhabited

/-- What a walk descriptor holds beside its words (07 R215, R218, R221). -/
structure WalkRt where
  reserved : Nat := 0
  unloading : Bool := false
  slots : List ImgSlot := []
  ctx : Nat := 0
  /-- image loads that wait for a slot: the stage, and who triggered it (07 R221, R222) -/
  wanted : List (Nat × Trigger) := []
  /-- resolutions from images so far (07 R221) -/
  uses : Nat := 0
  deriving DecidableEq, Repr, Inhabited

/-- One key of a caravan (07 R217, R225). -/
structure KeySt where
  key : Slot
  next : Nat := 0
  /-- STATUS, VALUE and STAGE once the key's walk has ended -/
  res : Option (Nat × Nat × Nat) := none
  deriving DecidableEq, Repr, Inhabited

/-- How a caravan stands at its stage (07 R220, R224). -/
inductive StagePh where
  | start | image | waiting (since : Nat) | lines
  /-- a walk for a reissue that waits for a context (07 R218, R227) -/
  | context
  deriving DecidableEq, Repr, Inhabited

/-- The reissue of a completed WALK that a caravan walks again for (07 R227): the tag to answer on, none once it is void, the request's names, and the outcome recorded. -/
structure DupWalk where
  tag : Option (BitVec 12)
  stream : BitVec 12
  seq : BitVec 16
  fin : Final
  deriving DecidableEq, Repr, Inhabited

/-- A caravan in execution (07 R218 to R227), named by the journal entry it runs for; one that walks again for a reissue has a number of its own from 4,096 on. -/
structure Caravan where
  ring : Fin 16
  entry : Nat
  desc : Nat
  keys : List KeySt
  port : Fin 4 := 0
  man : BitVec 8 := 0
  /-- the effective deadline less the class offset (06 R173) -/
  o : Nat := 0
  stage : Nat := 0
  ph : StagePh := .start
  waited : Nat := 0
  bypassed : Nat := 0
  /-- the context comes from the device reserve (07 R218) -/
  reserve : Bool := false
  /-- the WALK's classification cycle, as DTIME in eighths of a ns, and its stream (06 R171) -/
  cyc : Nat := 0
  strm : Nat := 0
  dup : Option DupWalk := none
  deriving DecidableEq, Repr, Inhabited

/-- A line read of the walk engine (07 R220, R222): for key `key` of a caravan, or for line `key` of a stage image. -/
structure WalkRead where
  /-- the caravan's ring and entry, or the descriptor and slot of an image load -/
  image : Bool
  a : Nat
  b : Nat
  key : Nat
  line : Nat
  port : Fin 4
  man : BitVec 8
  /-- effective-deadline inputs -/
  o : Nat
  losses : Nat := 0
  /-- retry time in ns after a lost contest -/
  retryAt : Option Nat := none
  /-- takes the reserved slot at its next attempt -/
  resv : Bool := false
  /-- DTIME of its grant in eighths of a ns (06 R181) -/
  grant8 : Nat := 0
  /-- the classification cycle and the stream of the WALK that it serves (06 R171) -/
  cyc : Nat := 0
  strm : Nat := 0
  /-- in a contest, or granted and not yet returned -/
  busy : Bool := false
  /-- the line has returned: whether it was poisoned, and its 8-byte entry -/
  back : Option (Bool × BitVec 64) := none
  deriving DecidableEq, Repr, Inhabited

/-! ### Queue engine (08) -/

/-- The states of a queue (08 R239). -/
inductive QSt where
  | empty | active | faulted
  deriving DecidableEq, Repr, Inhabited

def QSt.code : QSt → Nat
  | .empty => 0 | .active => 1 | .faulted => 2

/-- A queue descriptor (08 R239), less OWNED and OWNER, which follow from the manifest table, INFLIGHT, which follows from the journal, and the frame fields, which follow from the frames. -/
structure QDesc where
  st : QSt := .empty
  headCell : Nat := 0
  tailFill : Nat := 0
  midpkt : Bool := false
  freason : Nat := 0
  headBlk : Nat := 0
  tailBlk : Nat := 0
  depth : Nat := 0
  pkts : Nat := 0
  nblk : Nat := 0
  enqPkts : BitVec 32 := 0
  deqPkts : BitVec 32 := 0
  deriving DecidableEq, Repr, Inhabited

/-- A block record (08 R235). -/
structure BlockRec where
  next : Option Nat := none
  cellMeta : List (BitVec 8) := List.replicate 32 0
  rcnt : Nat := 0
  queue : Nat := 0
  /-- the block is off the stack: in a chain, in an ENQ's plan or held by retention -/
  out : Bool := false
  /-- the block has left its chain (08 R253) -/
  gone : Bool := false
  /-- the record has an uncorrectable error (08 R257) -/
  bad : Bool := false
  deriving DecidableEq, Repr, Inhabited

/-- The roles of a queue-cache frame (08 R241), with the codes of 08 R262. -/
inductive QRole where
  | free | head | tail | pref | full | retired
  deriving DecidableEq, Repr, Inhabited

def QRole.code : QRole → Nat
  | .free => 0 | .head => 1 | .tail => 2 | .pref => 3 | .full => 4 | .retired => 5

/-- A queue-cache frame (08 R240, R241). -/
structure QFrame where
  role : QRole := .free
  queue : Nat := 0
  block : Nat := 0
  valid : BitVec 32 := 0
  dirty : BitVec 32 := 0
  /-- dirty lines with an uncorrectable error, to be written back as poisoned (08 R257) -/
  psn : BitVec 32 := 0
  /-- order of last use (08 R242) -/
  used : Nat := 0
  thenRetire : Bool := false
  /-- an eviction writes it back (08 R242) -/
  evict : Bool := false
  /-- the frame holds the block's record: not before the record has been read into it (08 R240, R257) -/
  recOk : Bool := true
  deriving DecidableEq, Repr, Inhabited

/-- The plan of a granted ENQ (08 R247). -/
structure EnqPlan where
  ring : Fin 16
  entry : Nat
  queue : Nat
  cells : Nat
  bytes : Nat
  newBlks : List Nat
  newFrms : List Nat
  /-- the tail after this ENQ: block and fill -/
  tailBlk : Nat
  tailFill : Nat
  /-- the chain the ENQ starts, when the queue is empty at its turn -/
  first : Nat
  firstCell : Nat
  /-- the old tail block whose record must be read from DRAM before the ENQ takes effect (08 R240, R259) -/
  oldRec : Option Nat := none
  /-- the tail block behind which the ENQ's cells lie; none on an empty queue -/
  oldBlk : Option Nat := none
  deriving DecidableEq, Repr, Inhabited

/-- A direct read of a DEQ, or an ENQ's read of a record (08 R250, R256): its entry, which of its cells, or as cell 72 + j the record of its j-th block, and once the line is back whether it was poisoned. -/
structure DirRead where
  ring : Fin 16
  entry : Nat
  cell : Nat
  /-- the line of memory that it reads -/
  line : Nat := 0
  back : Option Bool := none
  deriving DecidableEq, Repr, Inhabited

/-- A reissue of a completed DEQ whose retained cells are being read (08 R253, R256): a number of its own from 4,096 on, the tag to answer on, none once it is void, the request's names, the outcome recorded, and the cells' lines with their poison as they come. -/
structure DupDeq where
  id : Nat
  port : Fin 4
  tag : Option (BitVec 12)
  stream : BitVec 12
  seq : BitVec 16
  fin : Final
  cells : List (Option (BitVec 1024 × Bool))
  deriving DecidableEq, Repr, Inhabited

/-- What the queue engine holds beside its registers (08). -/
structure QueueState where
  desc : List (Nat × QDesc) := []
  blocks : List (Nat × BlockRec) := []
  frames : List (Nat × QFrame) := []
  plans : List EnqPlan := []
  reads : List DirRead := []
  /-- reissues of completed DEQs that wait for reads -/
  dups : List DupDeq := []
  /-- uses of frames so far (08 R242) -/
  uses : Nat := 0
  /-- freed blocks on the stack, newest first, and below them the blocks never taken, as runs of a first block and a length, uppermost first (08 R244) -/
  freed : List Nat := []
  fresh : List (Nat × Nat) := []
  /-- entries of the stack in its cached top (08 R244) -/
  cached : Nat := 0
  lost : Nat := 0
  /-- lines of the stack not yet written by initialisation, and the next one to be issued (08 R236) -/
  initLeft : Nat := 0
  initNext : Nat := 0
  initDone : Bool := false
  /-- `ev pool_short` has been emitted for the present occurrence (08 R255) -/
  shortSent : Bool := false
  deriving DecidableEq, Repr

/-! ### DRAM channels (09, 10) -/

/-- A line's data: byte i in bits 8i+7 to 8i (04 R112). -/
abbrev Line := BitVec 1024

/-- The part of a request that a channel command carries out (02 R62). -/
inductive ReqPh where
  /-- the read of an RD -/
  | read
  /-- the read phase of a WRP or ADD -/
  | rphase
  /-- the write of a WR, WRP or ADD -/
  | write
  /-- the TWIN copy of such a write, at the partner -/
  | twin
  deriving DecidableEq, Repr, Inhabited

/-- What a channel command is for (09 R277). -/
inductive CmdSrc where
  | req (ring : Fin 16) (entry : Nat) (ph : ReqPh)
  /-- a line read of the walk engine: `image`, `a`, `b`, `key` name its WalkRead -/
  | walk (image : Bool) (a b key : Nat)
  /-- a tier or pinned frame's fill read, and its write-back (07 R203, R205) -/
  | fill (pinned : Bool) (frame line : Nat)
  | wback (pinned : Bool) (frame line : Nat)
  /-- the partner copy of a write-back of the TWIN region (07 R205) -/
  | wbackTwin (pinned : Bool) (frame line : Nat)
  /-- the read of the DRAM copy of a frame's clean line that SEC-DED found uncorrectable (07 R210) -/
  | wayUe (pinned : Bool) (frame line : Nat)
  /-- queue-engine traffic (08 R242): a write-back of a block's cell, or of its record as cell 32; a prefetch read; a DEQ's direct read -/
  | queWb (block cell : Nat)
  | quePref (block cell : Nat)
  | queRead (ring : Fin 16) (entry cell : Nat)
  /-- free-block stack traffic (08 R244), of n entries of one line from stack entry e on: a read, a write-back; and initialisation's write of the k-th line (08 R236) -/
  | stack (write : Bool) (e n : Nat)
  | stackInit (k : Nat)
  /-- a patrol scrub read and its write-back (10 R307), and the two phases of a sparing rewrite (10 R300) -/
  | scrub
  | spare
  /-- a line of a DRAM slice's row (13 R377 to R381) -/
  | bist
  /-- a poison word that replaces a line found uncorrectable (10 R304) -/
  | poison
  /-- the command of a request that has ended: what it reads or writes serves nothing (01 R42) -/
  | gone
  deriving DecidableEq, Repr, Inhabited

/-- A column command on its way through a channel (09 R277 to R280). -/
structure Cmd where
  src : CmdSrc
  /-- the channel-local line -/
  line : Nat
  wr : Bool
  man : Option (BitVec 8) := none
  /-- write data, or a read's data as captured at issue -/
  data : Line := 0
  psn : Bool := false
  /-- the intake slot it holds until it enters the command line, and its port (06 R166) -/
  slot : SlotKind := .general
  port : Fin 4 := 0
  /-- its number in the order of admission -/
  sn : Nat := 0
  /-- held in its intake slot and counted (09 R278, R290), and an ACT was issued for it (09 R290) -/
  held : Bool := false
  act : Bool := false
  /-- symbol errors of the line's read and of its reread, where the command that asked for the read states them -/
  sym : List SymErr := []
  again : List SymErr := []
  /-- it reads its line again (10 R304); it, or the poison word that it writes, serves patrol scrub (10 R325); and its delay at the head by another row of its bank has been counted (09 R290) -/
  reread : Bool := false
  byScrub : Bool := false
  clash : Bool := false
  /-- deferrable background work, whose energy the ledger leaves out of its headroom (12 R355) -/
  defr : Bool := false
  deriving DecidableEq, Repr, Inhabited

/-- The kinds of DRAM command that timing speaks of (09 R283). -/
inductive DKind where
  | act | pre | rd | wr | ref | rfm | pdx | pde
  deriving DecidableEq, Repr, Inhabited

/-- An issued DRAM command, for the timing rules (09 R283): when, in eighths of a ns of DTIME, and where. -/
structure Issued where
  kind : DKind
  rank : Nat
  bg : Nat
  bank : Nat
  at8 : Nat
  deriving DecidableEq, Repr, Inhabited

/-- The traffic classes of the background regulators (09 R287). -/
inductive BgCls where
  | mig
  /-- self-test slices -/
  | bst
  /-- queue cell and record traffic, reads of 07 R210, and the restore of a displaced row (13 R381): drawing on no bucket -/
  | free
  deriving DecidableEq, Repr, Inhabited

/-- A background request that waits for a slot (09 R288). -/
structure BgReq where
  cls : BgCls
  cmd : Cmd
  deriving DecidableEq, Repr, Inhabited

/-- An entry of a row tracker (10 R319). -/
structure Track where
  row : Nat := 0
  count : Nat := 0
  cand : Option (BitVec 8) := none
  vote : Nat := 0
  deriving DecidableEq, Repr, Inhabited

/-- An entry of a channel's fault log (10 R325). -/
structure FaultEnt where
  time : Word := 0
  lam : Nat := 0
  kind : Nat := 0
  scrub : Bool := false
  nsym : Nat := 0
  dev : Nat := 0
  mask : BitVec 18 := 0
  deriving DecidableEq, Repr, Inhabited

/-- Why a proofing pause or a phy slice runs (11 R341, 13 R383): what it probes. -/
inductive PauseKind where
  | timing (rank : Fin 2)
  | vref (rank : Fin 2)
  deriving DecidableEq, Repr, Inhabited

/-- A replay in progress (10 R311, R312). -/
structure Replay where
  /-- DTIME in ns of the first low level of ALERT_N -/
  since : Nat
  attempt : Nat
  deriving DecidableEq, Repr, Inhabited

/-- A column command issued to the DRAM and not yet finished (09 R280, 10 R296, R309). -/
structure Flight where
  cmd : Cmd
  /-- DTIME of issue, in eighths of a ns -/
  at8 : Nat := 0
  /-- in the retry buffer: its alert window is open -/
  window : Bool := true
  /-- a read whose burst has not been decoded -/
  burst : Bool := false
  /-- it is to be issued again in the replay that runs (10 R311) -/
  due : Bool := false
  deriving DecidableEq, Repr, Inhabited

/-- An open row of a bank (09 R279). -/
structure OpenRow where
  row : Nat := 0
  /-- last access, in eighths of a ns -/
  used8 : Nat := 0
  deriving DecidableEq, Repr, Inhabited

/-- What a channel holds beside its registers, its DRAM contents and its fault log (09, 10). -/
structure ChanState where
  /-- granted commands that wait in the intake slots they hold (09 R277) -/
  intake : List Cmd := []
  /-- writes of the merge unit that wait for the command line -/
  mergeQ : List Cmd := []
  /-- lines locked by a read phase, by the request's ring and entry (09 R278) -/
  locks : List Nat := []
  line : List Cmd := []
  flight : List Flight := []
  /-- the number of commands admitted, which names them -/
  sn : Nat := 0
  /-- in-order mode: the number of the matched write (06 R188) -/
  inord : Option Nat := none
  inordAt8 : Nat := 0
  /-- from when the bus is idle while the line is not empty (09 R290) -/
  idleFrom8 : Nat := 0
  /-- lines granted in the present period to background slots that no manifest is charged with (06 R187, 09 R288) -/
  bgLines : Nat := 0
  /-- until when refresh, RFM, an MR4 poll or a replay keeps column commands from issuing, from when the command bus is free, and from when the next command may be admitted (09 R277, R279, R281) -/
  stopTo8 : Nat := 0
  caAt8 : Nat := 0
  admAt8 : Nat := 0
  /-- open rows by bank number rank * 32 + bank group * 4 + bank -/
  rows : List (Nat × OpenRow) := []
  /-- the row of the last ACT to each bank (09 R290) -/
  lastRow : List (Nat × Nat) := []
  /-- recently issued DRAM commands, newest first -/
  hist : List Issued := []
  /-- the direction of the last column command: a write -/
  lastWr : Bool := false
  /-- ranks in power-down and the last access of each rank, in eighths of a ns (09 R286) -/
  pd : Vector Bool 2 := Vector.replicate 2 false
  rankUsed8 : Vector Nat 2 := Vector.replicate 2 0
  pdAt8 : Vector Nat 2 := Vector.replicate 2 0
  /-- the end of each rank's present refresh interval, in eighths of a ns; 0 before service (10 R315) -/
  refAt8 : Vector Nat 2 := Vector.replicate 2 0
  /-- refreshes postponed on each rank -/
  refDebt : Vector Nat 2 := Vector.replicate 2 0
  /-- consecutive cool MR4 polls, and the last poll in ns (10 R316) -/
  cool : Nat := 0
  mr4At : Nat := 0
  /-- background buckets in sixteenths of a line, and the pause bucket in sixteenths of a CK_CHn cycle (09 R287) -/
  bkMig : Int := 0
  bkScr : Int := 0
  bkBst : Int := 0
  bkPause : Int := 0
  bg : List BgReq := []
  /-- the self-test bucket's depth in force, in lines (09 R288) -/
  bstDepth : Nat := 0
  /-- replay in progress (10 R311) -/
  replay : Option Replay := none
  /-- consecutive pauses stopped by an alert (10 R314) -/
  pauseAborts : Nat := 0
  /-- activation counts per bank, bank indices with an extra RFM due, and the RFM commands of the last 100 us, in ns (10 R318, R320) -/
  raa : List (Nat × Nat) := []
  rfmDue : List (Nat × Nat) := []
  rfmAt : List Nat := []
  /-- row trackers by bank (10 R319) -/
  trk : List (Nat × List Track) := []
  /-- the end of the tracker window in ms: the first ends after the reset value of WIN_MS (10 R323); a row reached T2 or the RFM budget was passed in it (10 R322) -/
  actWinEnd : Nat := 32
  actT2 : Bool := false
  /-- manifests limited on this channel with their limits (10 R320), and those that were the candidate of a row that reached T1 in the window -/
  actLimit : List (BitVec 8 × Nat) := []
  actT1 : List (BitVec 8) := []
  markWinEnd : Nat := 0
  /-- from when each rank's mark acts, in eighths of a ns (10 R299), and the devices of a corrected line of this mark window, by rank * 32 + device (10 R325) -/
  markAt8 : Vector Nat 2 := Vector.replicate 2 0
  markSeen : List Nat := []
  /-- sparing rewrites that wait, by rank, and rewrites done in the period (10 R300) -/
  spareQ : List (Fin 2) := []
  spareLeft : Nat := 0
  /-- uncorrectable lines of an aligned ms, and that ms of DTIME (10 R306) -/
  ueMs : Nat := 0
  ueAt : Nat := 0
  flog : List (Nat × FaultEnt) := []
  flogHead : Nat := 0
  /-- start of the present scrub pass in ns (10 R307) -/
  scrubStart : Nat := 0
  /-- every line outside, and every line inside the TWIN range, is recorded as poisoned unless `psn` lists it (01 R41, R42) -/
  psnAll : Bool := false
  psnTwin : Bool := false
  /-- lines whose poison differs from the flag of their range, in rising order -/
  psn : List Nat := []
  /-- the copy-back of TWIN lines has not ended (01 R41) -/
  resync : Bool := false
  /-- this channel's journal ring is to be replayed (01 R36) -/
  replayDue : Bool := false
  /-- the channel is lost: FAULT, ISOLATED or under restoration (01 R40 to R42) -/
  lost : Bool := false
  /-- a per-channel reset is restoring the channel (17 R504) -/
  restoring : Bool := false
  /-- its RATE code as trained (11 R334) -/
  trnRate : Nat := 0
  /-- entries lost while the ring waits for its replay (01 R47) -/
  rplLost : Nat := 0
  deriving DecidableEq, Repr

/-- What a PHY holds beside its registers and its indirect words (11). -/
structure PhyState where
  /-- the settings file is valid (11 R330) -/
  valid : Bool := false
  /-- a pause is due, and since when in ns (11 R341) -/
  due : Option Nat := none
  /-- column issue has stopped for a due pause -/
  stopped : Bool := false
  /-- the pause that runs, with its start in eighths of a ns -/
  active : Option (PauseKind × Nat) := none
  /-- the ledger's hold-back has expired (12 R356) -/
  mustRun : Bool := false
  /-- an alert stopped the pause: it waits for a full bucket (10 R314) -/
  fullNext : Bool := false
  lateCounted : Bool := false
  /-- the ledger has held the due pause back (11 R348), and the pause that runs had to start whatever the ledger allowed (12 R356) -/
  held : Bool := false
  forced : Bool := false
  /-- self-refresh entry waits for the running pause to end (11 R346) -/
  parkDue : Bool := false
  /-- bits with centre errors in the last pause of each kind and rank (11 R343) -/
  centre : Vector (BitVec 72) 4 := Vector.replicate 4 0
  /-- the last drift event per rank * 18 + device, in ns (11 R345) -/
  driftAt : List (Nat × Nat) := []
  /-- re-lock pauses left after self-refresh (11 R340) -/
  relock : Bool := false
  /-- a training runs: the start of its present step in ns, whether it is manual, and the start of a manual session (11 R334, R339) -/
  trn : Option (Nat × Bool) := none
  trnManualAt : Nat := 0
  /-- a manual session is held after RESET, and END has been written in it (11 R339) -/
  trnHold : Bool := false
  trnEnd : Bool := false
  /-- trained DQ receive delays by rank * 72 + bit (11 R345), and the DRAM VrefCA and VrefCS codes by rank * 18 + device (11 R328) -/
  rxTrained : List (Nat × Nat) := []
  vrefCa : List (Nat × Nat) := []
  vrefCs : List (Nat × Nat) := []
  /-- DRAM DFE taps 2 to 4, by (tap - 2) * 36 + rank * 18 + device (11 R328) -/
  dfeTaps : List (Nat × Nat) := []
  /-- in the devices since IDENT: write CRC, and the seeds of the read-training pattern (11 R338) -/
  wcrc : Bool := false
  rdSeed0 : Nat := 0
  rdSeed1 : Nat := 0
  /-- the end of the last pause, or the entry into service, in ns (11 R341) -/
  lastNs : Nat := 0
  sweep : Bool := false
  /-- narrowest read and write eye of CHECK -/
  rdMin : Nat := 0
  wrMin : Nat := 0
  /-- CHn_ALERT_N is held low, as last seen -/
  alertLow : Bool := false
  deriving DecidableEq, Repr

/-! ### Energy ledger (12) -/

/-- The power-fail flush (12 R364, R365). -/
inductive PfSt where
  /-- no power fail -/
  | none
  /-- the flush runs; PFAIL_N may have gone high again -/
  | flush (high : Bool)
  /-- the flush has ended and PFAIL_N is low -/
  | done
  deriving DecidableEq, Repr, Inhabited

/-- What the ledger holds beside its registers (12). Energies are in pJ, times in ns unless said otherwise. -/
structure LedState where
  /-- coefficients in force, by index; the indirect window holds the values written (12 R352) -/
  coef : List (Nat × Nat) := []
  /-- the CAP in force (12 R354) -/
  cap : Nat := 920
  /-- start of the present window -/
  winAt : Nat := 0
  opPj : Nat := 0
  /-- static energy of the window, in eighths of a pJ -/
  stPj8 : Nat := 0
  /-- energy of deferrable background work in the window (12 R355) -/
  defPj : Nat := 0
  /-- the last evaluated window: its energy, its X, in nJ, and that its action point is due -/
  eLast : Nat := 0
  xLast : Nat := 0
  bLast : Nat := 0
  due : Bool := false
  below : Nat := 0
  /-- DTIME in ms of the last power_cap_miss event (12 R359) -/
  missMs : Option Nat := none
  /-- allowances of the five items for the present window; none is unlimited (12 R355) -/
  allow : Vector (Option Nat) 5 := Vector.replicate 5 none
  /-- accounts in pJ by manifest, 256 for the device (12 R360, R367) -/
  acct : List (Nat × Nat) := []
  /-- energy per manifest in the present and in the last window -/
  winMan : List (Nat × Nat) := []
  lastMan : List (Nat × Nat) := []
  /-- the declaration in force: HOLD_UJ, HOLD_US, N_hold (12 R362) -/
  hold : Option (Nat × Nat × Nat) := none
  pf : PfSt := .none
  deriving DecidableEq, Repr

/-! ### Self-test (13) -/

/-- A Waystation slice (13 R373, R374). -/
structure WaySlice where
  frames : List Nat := []
  running : Bool := false
  at8 : Nat := 0
  /-- the self-test slots of the Waystation's arbiter that it holds (06 R166, 13 R370) -/
  slots : Nat := 4
  deriving DecidableEq, Repr, Inhabited

/-- The stages of a DRAM slice (13 R377 to R382). -/
inductive DPhase where
  | copy
  /-- phase 1 to 5, and whether it is the repeat -/
  | test (n : Nat) (again : Bool)
  /-- the restore; whether the slice earns coverage -/
  | restore (ok : Bool)
  deriving DecidableEq, Repr, Inhabited

/-- A DRAM slice (13 R376 to R382): its row, the frames lent to it, and its phase. The copy of a displaced row stands at the lines' own places in `dram`. -/
structure DramSlice where
  /-- index of the row in the order of 13 R376 -/
  idx : Nat := 0
  frames : List Nat := []
  at8 : Nat := 0
  ph : DPhase := .copy
  /-- batches of the phase's commands that have ended (13 R379) -/
  step : Nat := 0
  deriving DecidableEq, Repr

/-- An entry of the self-test fault log (13 R392). -/
structure BistEnt where
  time : Word := 0
  target : Nat := 0
  kind : Nat := 0
  unit : Nat := 0
  what : Nat := 0
  mask : BitVec 18 := 0
  action : Nat := 0
  deriving DecidableEq, Repr, Inhabited

/-- What self-test holds beside its registers (13). -/
structure BistState where
  way : Option WaySlice := none
  wayNext : Nat := 0
  scrub : Nat := 0
  wayDue : Nat := 0
  dram : Vector (Option DramSlice) 16 := Vector.replicate 16 none
  /-- next row per channel in the order of 13 R376 -/
  next : Vector Nat 16 := Vector.replicate 16 0
  sincePhy : Vector Nat 16 := Vector.replicate 16 0
  /-- next kind per channel: 0 and 1 read delay, 2 and 3 read Vref, 4 CA; and the start of a running PHY slice in eighths of a ns -/
  phyKind : Vector Nat 16 := Vector.replicate 16 0
  phyRun : Vector (Option Nat) 16 := Vector.replicate 16 none
  caFirst : Vector Nat 16 := Vector.replicate 16 0
  laneNext : Vector Nat 4 := Vector.replicate 4 0
  laneDue : Vector Nat 4 := Vector.replicate 4 0
  /-- the start of a running LANE slice per port, in eighths of a ns; and the physical lanes of a port since it was last ACTIVE (13 R386, R387) -/
  laneRun : Vector (Option Nat) 4 := Vector.replicate 4 none
  lanesIn : Vector (List Nat) 4 := Vector.replicate 4 []
  /-- tier frames that WAY slices skipped and that are due in the next one that can take them (13 R373) -/
  waySkip : List Nat := []
  /-- units that left service during the present cycles: the target's number, and the channel, or port * 16 + lane (13 R387) -/
  out : List (Nat × Nat) := []
  /-- last start of a slice in ns (13 R371) -/
  lastStart : Option Nat := none
  /-- starts that the ledger has delayed and that have been counted: target and unit (13 R391) -/
  waitSeen : List (Nat × Nat) := []
  /-- units counted in the present cycles (13 R387), rows and lines as runs from a first one up to before a last; and the cycles' starts in ns, none before a target has first been able to run -/
  cycWay : List Nat := []
  cycScrub : Nat := 0
  cycDram : Vector (List (Nat × Nat)) 16 := Vector.replicate 16 []
  cycPatrol : Vector (List (Nat × Nat)) 16 := Vector.replicate 16 []
  cycPhy : Vector (List Nat) 16 := Vector.replicate 16 []
  cycLane : List (Fin 4 × Nat) := []
  cycAt : Vector (Option Nat) 5 := Vector.replicate 5 none
  log : List (Nat × BistEnt) := []
  head : Nat := 0
  deriving DecidableEq, Repr

/-! ### Power, clocks, pins and reset (14, 17, 18) -/

/-- The power states (14 R394), with the fault-off of 14 R416. -/
inductive PMode where
  | run | doze | banked | off | faultOff
  deriving DecidableEq, Repr, Inhabited

/-- How far an entry to DOZE or BANKED has come (14 R401). -/
inductive EntryAt where
  | drain
  /-- steps 4 and 5: the command has been answered, and the point of no return lies ahead -/
  | work
  /-- steps 6 to 8: the ports are in QUIET or on their way -/
  | park
  /-- BANKED: the wake window of step 9, and the wait of step 11 -/
  | window
  | retain
  deriving DecidableEq, Repr, Inhabited

/-- How far a BANKED wake or a cold start has come (14 R410, 17 R494). -/
inductive WakeAt where
  | regulator | ramps | settled | image | awaiting
  /-- `sleep resume` has been accepted and waits for the channels (14 R412) -/
  | resuming
  deriving DecidableEq, Repr, Inhabited

/-- Who serves the wake port (14 R404, R408). -/
inductive WkOwner where
  | responder | matcher | nobody
  deriving DecidableEq, Repr, Inhabited

/-- The causes of a reset (17 R493, R507). -/
inductive RstCause where
  | power | coldCmd | aon | pin | warmCmd | watchdog | pll | pfail
  deriving DecidableEq, Repr, Inhabited

def RstCause.code : RstCause → Nat
  | .power => 0 | .coldCmd => 1 | .aon => 2 | .pin => 3 | .warmCmd => 4 | .watchdog => 5 | .pll => 6 | .pfail => 7

/-- A warm reset in progress after its step 4 (17 R499). -/
inductive WarmAt where
  | idle
  /-- held by RESET_N after step 4 (17 R501) -/
  | held (c : RstCause)
  /-- the channels leave self-refresh and replay -/
  | replay
  /-- the core PLL is lost: waits for `clock run` (17 R500) -/
  | noClock
  deriving DecidableEq, Repr, Inhabited

/-- What a save for BANKED or power-fail keeps outside the Starter store (14 R397). -/
structure BankImg where
  regs : List (Nat × Word) := []
  ix : List (Nat × Word) := []
  /-- the ledger's accounts -/
  acct : List (Nat × Nat) := []
  deriving DecidableEq, Repr

/-- The ramp of a domain (14 R414): its stage 1 to 4, the start of that stage and the length of those before it, in eighths of a ns. -/
structure Ramp where
  dom : Nat
  stage : Nat := 1
  at8 : Nat
  len8 : Nat := 0
  deriving DecidableEq, Repr

/-- Power, clocks, pins and resets (14, 17, 18). -/
structure PwrState where
  mode : PMode := .run
  /-- an entry in progress: the target is BANKED, its start in ns, how far it is -/
  entry : Option (Bool × Nat × EntryAt) := none
  /-- a wake that came after the point of no return: its cause code (14 R403) -/
  wakeAfter : Option Nat := none
  /-- a warm reset follows the exit -/
  warmAfter : Option RstCause := none
  wake : Option WakeAt := none
  /-- start of the wake in progress, in eighths of a ns, and its cause -/
  wakeAt8 : Nat := 0
  cause : Nat := 0
  /-- the DOZE exit in progress: the event's cause (14 R424) -/
  dozeExit : Option Nat := none
  warm : WarmAt := .idle
  /-- classification has stopped for a power-fail flush or a warm reset -/
  halted : Bool := false
  vinOn : Bool := true
  resetN : Bool := true
  pfailN : Bool := true
  wakeN : Bool := true
  retEn : Bool := false
  /-- the level of THERM_N: low while asserted (18 R532) -/
  thermN : Bool := true
  /-- the chained pins have been under boundary-scan control since the last cold start (18 R534) -/
  scan : Bool := false
  /-- the instruction last shifted into the test access port (18 R534) -/
  tapIr : TapIr := .idcode
  /-- CK_SLOW is taken from the crystal (18 R526) -/
  xtal : Bool := false
  lowPower : Bool := false
  wk : WkOwner := .responder
  /-- the status bytes sent so far in the present read of the wake port, as the number of the next (14 R407) -/
  wkByte : Nat := 0
  /-- the acknowledge bits driven in the last transfer on the wake port: the address byte's, then those of data bytes written to it (14 R406) -/
  wkAcks : List Bool := []
  /-- edge e of a BANKED entry, and edge e + 3, in eighths of a ns (14 R404) -/
  edgeAt8 : Option (Nat × Nat) := none
  /-- a brown-out has not been reported yet (14 R419) -/
  brown : Bool := false
  /-- DTIME at the beginning of DOZE, in ns -/
  dozeAt : Nat := 0
  /-- gate ramps in progress, and domains that wait (14 R414, R417) -/
  ramps : List Ramp := []
  /-- the start of the last ramp, in eighths of a ns (14 R417) -/
  rampAt8 : Option Nat := none
  rampQ : List Nat := []
  /-- AON writes under way: register offset, word, and when each was made, in eighths of a ns (16 R467) -/
  aonQ : List (Nat × Word × Nat) := []
  /-- CK_SLOW edges counted since edge e of the BANKED entry, and how many of them had passed at step 11 (02 R52, 14 R405) -/
  slowEdges : Nat := 0
  bankEdges : Nat := 0
  /-- DTIME saved at the BANKED entry, in eighths of a ns (02 R52) -/
  savedD8 : Nat := 0
  /-- VDD_WAY is not yet known to be at its run level after WAY_RET_EN fell (18 R521) -/
  retWait : Bool := false
  /-- the AON domain has had its power-on reset and no start has followed (14 R398) -/
  fresh : Bool := false
  /-- the status bytes sent in the last read of the wake port (14 R407) -/
  wkSent : List Byte := []
  /-- the Starter store passes its checks; KIND is 1 or 2 -/
  starter : Option Nat := none
  img : Option BankImg := none
  flushOk : Bool := false
  /-- last kick of the watchdog, in eighths of a ns (17 R506) -/
  kick8 : Nat := 0
  /-- CK_CORE and DTIME run from the core PLL: DTIME counts 0.625 ns -/
  pll : Bool := false
  deriving DecidableEq, Repr

/-! ### Console (15) -/

/-- A value in an output line: a decimal number, a hexadecimal number of at least so many digits, a hexadecimal number in groups of four digits, or a word. -/
inductive FVal where
  | n (v : Nat)
  | h (v : Nat) (digits : Nat := 1)
  | a (v : Nat) (digits : Nat)
  | s (w : String)
  deriving DecidableEq, Repr, Inhabited

/-- An event or an answer line: its first words and its fields; a field with an empty key is positional (15 R440, R451). -/
structure OutLn where
  head : String := ""
  fields : List (String × FVal) := []
  deriving DecidableEq, Repr, Inhabited

/-- What an answer starts once it has left CON_TXD (15 R444, R449). -/
inductive AfterAns where
  | nothing | warm | cold | baud
  deriving DecidableEq, Repr, Inhabited

/-- A received byte with its source and whether it had a framing error (15 R426, R430). -/
structure ConByte where
  tun : Bool := false
  byte : Byte := 0
  frame : Bool := false
  /-- no byte, but the mark of bytes lost to a full FIFO at this place, or of a break or of a tunnel message of length 0 (15 R427, R428) -/
  lost : Nat := 0
  brk : Bool := false
  deriving DecidableEq, Repr, Inhabited

/-- A line in the assembler, or complete (15 R432, R433). -/
structure ConLine where
  /-- stored characters, last first, each with its source -/
  chars : List ConByte := []
  /-- the first bad byte (15 R432) -/
  bad : Option Byte := none
  tooLong : Bool := false
  /-- UART bytes lost while the FIFO was full (15 R427) -/
  lost : Nat := 0
  /-- the line lost tunnel bytes to a port reset (15 R429) -/
  cut : Bool := false
  uart : Bool := false
  tun : Bool := false
  deriving DecidableEq, Repr, Inhabited

/-- An entry of the event log (15 R452, R455). -/
structure EvLogEnt where
  seq : Nat := 0
  time : Word := 0
  ev : OutLn := {}
  deriving DecidableEq, Repr, Inhabited

/-- What a line waits for before it is answered. -/
inductive ConWait where
  /-- `snap` waits for its snapshot (15 R445) -/
  | snap
  /-- `train ... sweep` waits for its sweep (11 R350) -/
  | sweep (ch : Fin 16)
  deriving DecidableEq, Repr, Inhabited

/-- What the console holds beside its registers (15). -/
structure ConState where
  /-- the word that the last read of the register bus returned -/
  rdata : Word := 0
  /-- bytes received while a line waits for its answer, oldest first (15 R427, R429) -/
  fifo : List ConByte := []
  buf : ConLine := {}
  afterCr : Bool := false
  /-- UART input is discarded up to the next terminator (15 R427) -/
  skip : Bool := false
  /-- the completed line that waits for its answer -/
  line : Option ConLine := none
  /-- what the line that is being executed waits for -/
  wait : Option ConWait := none
  /-- the answer that is being sent -/
  ans : List OutLn := []
  after : AfterAns := .nothing
  /-- the rate in force on the UART, as a BAUD code (15 R444) -/
  baud : Nat := 0
  evq : List (Nat × OutLn) := []
  /-- events lost since the last event was sent (15 R442) -/
  evLost : Nat := 0
  log : List EvLogEnt := []
  logSeq : Nat := 0
  /-- tunnel lines dropped since the last line sent there (15 R443) -/
  drops : Nat := 0
  /-- bytes in the tunnel output buffer -/
  tunOut : List Byte := []
  /-- the port whose tunnel has come up and has not been reset since (15 R429) -/
  tunUp : Option (Fin 4) := none
  /-- the bytes that the last command put out on CON_TXD -/
  txd : List Byte := []
  /-- a prompt or echoed characters stand on the current output line of the UART, and of the tunnel (15 R442) -/
  dirtyU : Bool := false
  dirtyT : Bool := false
  deriving DecidableEq, Repr


/-! ### The machine -/

/-- A granted access of the Waystation that has not completed (02 R61): what it is for, the manifest and port it is granted to, its intake slot, the frame and line it goes to, the channel line that the frame's line stands for, and whether it writes, and whether it is written through (07 R208). -/
structure WayOp where
  src : CmdSrc
  man : BitVec 8 := 0
  port : Fin 4 := 0
  slot : SlotKind := .general
  pinned : Bool := false
  frame : Nat := 0
  line : Nat := 0
  wr : Bool := false
  thru : Bool := false
  /-- SEC-DED has found the clean line uncorrectable, and a read of its DRAM copy is on its way (07 R210) -/
  asked : Bool := false
  /-- what that read has returned: the line and its poison -/
  back : Option (Line × Bool) := none
  deriving DecidableEq, Repr, Inhabited

/-- The horizon's lower value and the DTIME in ns from which it is taken (01 R33). -/
structure HorizonHold where
  us : Nat := 0
  due : Nat := 0
  deriving DecidableEq, Repr, Inhabited

/-- A snapshot in progress: the shadow sets and their DTIME (16 R472). -/
structure Shadow where
  /-- SNP_VALID and SNP_SKEW of it -/
  valid : Nat := 0
  skew : Nat := 0
  regs : List (Nat × Word) := []
  ix : List (Nat × Word) := []
  dtime : Nat := 0
  deriving DecidableEq, Repr

/-- A path-probe capture in progress: the request it follows (02 R65). -/
structure ProbeRun where
  port : Fin 4
  stream : BitVec 12
  seq : BitVec 16
  deriving DecidableEq, Repr, Inhabited

/-- The whole machine, and the queue of commands that wait for it. -/
structure State where
  /-- commands that wait, oldest first -/
  pending : List Instr := []
  /-- core DTIME in eighths of a ns (02 R51) -/
  d8 : Nat := 0
  /-- the model's own counter of free values taken -/
  free : Nat := 0
  /-- the register file: words that differ from their cold-reset value, by byte address (16 R456) -/
  regs : List (Nat × Word) := []
  /-- words of indirect tables that are plain words, by block base * 2^24 + index (16 R468) -/
  ix : List (Nat × Word) := []
  /-- DRAM contents: byte i of line l of channel c at c * 2^37 + l * 128 + i -/
  dram : List Host.Cell := []
  /-- Waystation contents: byte i of Waystation line w at w * 128 + i -/
  wmem : List Host.Cell := []
  ports : Vector PortState 4 := Vector.replicate 4 {}
  /-- stream records by port * 4096 + stream (01 R24) -/
  streams : List (Nat × StreamRec) := []
  rings : Vector Ring 16 := Vector.replicate 16 {}
  mans : List (Nat × Manifest) := []
  /-- accounts by manifest * 16 + channel (05 R140) -/
  accts : List (Nat × Account) := []
  arbs : Vector ArbState 17 := Vector.replicate 17 {}
  /-- the number of requests classified, which orders contestants -/
  order : Nat := 0
  /-- offsets and boost words that grants still use after a write: the DTIME in eighths of a ns from which the new word counts, the register's address, and the old word, newest last (06 R175) -/
  ofsOld : List (Nat × Nat × Word) := []
  /-- toll-gate levels in sixteenths of a line (06 R182) -/
  toll : Vector Int 4 := Vector.replicate 4 0
  way : WayState := {}
  wayOps : List WayOp := []
  /-- walk descriptors by number (07 R212) -/
  walks : List (Nat × WalkRt) := []
  caravans : List Caravan := []
  wreads : List WalkRead := []
  que : QueueState := {}
  chans : Vector ChanState 16 := Vector.replicate 16 {}
  phys : Vector PhyState 16 := Vector.replicate 16 {}
  led : LedState := {}
  bist : BistState := {}
  pwr : PwrState := {}
  con : ConState := {}
  /-- MAN_CFG.PROFILE in force: set for cool (05 R144) -/
  prof : Bool := false
  /-- the end of the present accounting period, and of the present 64 ns, in ns (05 R140, 06 R182) -/
  perEnd : Nat := 1024
  tollEnd : Nat := 64
  horizon : Option HorizonHold := none
  probe : Option ProbeRun := none
  /-- a guarded value that waits for its complement: address, word, time in eighths of a ns (16 R464) -/
  guard : Option (Nat × Word × Nat) := none
  /-- the entries latched by reads of a word 0: block, first index, words (16 R469) -/
  latches : List (Nat × Nat × List Word) := []
  shadow : Option Shadow := none
  /-- the holding set of the last snapshot (16 R472) -/
  hold : Shadow := {}
  deriving DecidableEq, Repr

/-- Ways in which a command ends the run. The spec gives every command an effect, so no command of this model raises one. -/
inductive Fault where
  deriving DecidableEq, Repr

/-- Commands that the model turns away. -/
inductive Refusal where
  /-- An arm of exec whose command has no meaning yet raises this; safe: nothing can be proved of the command. -/
  | notModelled (mnemonic : String)
  deriving DecidableEq, Repr

/-- The machine after a cold start whose cause is power (17 R494, 16 R476), once `ev reset` and the prompt have been sent: every register at its reset value, but the gated domains are on, so each PWR_DOMSTATd.STATE reads 2 (14 R413, R414); DTIME 0, CK_CORE on CK_FIO, the ports DOWN, the channels OFF, the toll gates at BURST (06 R182), the background Waystation clear running, and the console in typed mode. -/
def State.reset : State :=
  { regs := (List.range 23).map fun d => (0x320040 + 4 * d, 2), toll := Vector.replicate 4 4096, way := { clearing := true } }

end Sys2Proof.Machine
end

