-- ==== Sys2Proof/Machine/Bits.lean ====
section
/-! DEFINITION. Bit fields of slots, byte order, and the cyclic redundancy checks of the spec. -/

namespace Sys2Proof.Machine

/-- Bits [hi:lo] of a slot. -/
def slotBits (s : Slot) (hi lo : Nat) : Nat := s.toNat / 2 ^ lo % 2 ^ (hi - lo + 1)

/-- Byte i of a slot; byte 0 holds bits [127:120] (04, "Messages"). -/
def slotByte (s : Slot) (i : Nat) : Byte := BitVec.ofNat 8 (s.toNat / 2 ^ (8 * (15 - i)))

/-- The sixteen bytes of a slot in order. -/
def slotBytes (s : Slot) : List Byte := (List.range 16).map (slotByte s)

/-- A number's n bytes, the most significant first. -/
def bytesBE (n : Nat) (v : Nat) : List Byte := (List.range n).map fun i => BitVec.ofNat 8 (v / 2 ^ (8 * (n - 1 - i)))

/-- The number that bytes spell, the most significant first. -/
def natBE (l : List Byte) : Nat := l.foldl (fun a b => a * 256 + b.toNat) 0

/-- The number that bytes spell, the least significant first. -/
def natLE : List Byte → Nat
  | [] => 0
  | b :: r => b.toNat + 256 * natLE r

/-- One bit step of a reflected 32-bit CRC. -/
def crcBit (poly : Nat) (c : Nat) : Nat := if c % 2 = 1 then Nat.xor (c / 2) poly else c / 2

/-- One byte of a reflected 32-bit CRC. -/
def crcByte (poly : Nat) (c : Nat) (b : Byte) : Nat :=
  let c := Nat.xor c b.toNat
  crcBit poly (crcBit poly (crcBit poly (crcBit poly (crcBit poly (crcBit poly (crcBit poly (crcBit poly c)))))))

/-- A reflected 32-bit CRC with initial value and final XOR of all ones; `poly` is the reflected polynomial. -/
def crcRefl (poly : Nat) (l : List Byte) : Nat := Nat.xor (l.foldl (crcByte poly) 0xFFFFFFFF) 0xFFFFFFFF

/-- CRC-32 with polynomial 0x04C11DB7 (03 R70). -/
def crc32 (l : List Byte) : Nat := crcRefl 0xEDB88320 l

/-- CRC-32C with polynomial 0x1EDC6F41 (04 R114). -/
def crc32c (l : List Byte) : Nat := crcRefl 0x82F63B78 l

/-- One bit step of the CRC-8 with polynomial 0x07. -/
def crc8Bit (c : Nat) : Nat := if 128 ≤ c then Nat.xor (c * 2 % 256) 7 else c * 2

/-- The line check of the console (15 R436). -/
def crc8 (l : List Byte) : Nat :=
  l.foldl (fun c b => crc8Bit (crc8Bit (crc8Bit (crc8Bit (crc8Bit (crc8Bit (crc8Bit (crc8Bit (Nat.xor c b.toNat))))))))) 0

/-- Bit i of a number. -/
def bitOf (v i : Nat) : Bool := v / 2 ^ i % 2 = 1

/-- The number of set bits among the low n. -/
def popCount : Nat → Nat → Nat
  | 0, _ => 0
  | n + 1, v => popCount n v + (if bitOf v n then 1 else 0)

/-- The lowest n bits of a number set. -/
def ones (n : Nat) : Nat := 2 ^ n - 1

/-- Quotient rounded up. -/
def cdiv (a b : Nat) : Nat := (a + b - 1) / b

/-- The header of a flit as its 96-bit value (03 R71). -/
def flitHeader (f : Flit) : Nat :=
  f.ft.toNat * 2 ^ 92 + f.fseq.toNat * 2 ^ 80 + f.ackseq.toNat * 2 ^ 68 + f.ackk.toNat * 2 ^ 66 + f.cumx.toNat * 2 ^ 50
    + f.cumt.toNat * 2 ^ 42 + f.cumc.toNat * 2 ^ 34 + f.som.toNat * 2 ^ 19 + f.padfrom.toNat * 2 ^ 15
    + (if f.rply then 2 ^ 14 else 0) + f.epoch.toNat * 2 ^ 11 + f.lreq.toNat * 2 ^ 8 + f.badlane.toNat * 2 ^ 4 + f.resv.toNat

/-- Bytes 0 to 251 of a flit (03 R70). -/
def flitBody (f : Flit) : List Byte := bytesBE 12 (flitHeader f) ++ f.slots.toList.flatMap slotBytes

/-- The CRC that a flit should carry (03 R70). -/
def flitCrc (f : Flit) : BitVec 32 := BitVec.ofNat 32 (crc32 (flitBody f))

/-- The length of a message in slots, by its slot 0 (04 R109); none for a reserved opcode or an ENQ whose BYTES has no meaning (04 R113). -/
def msgLen (s : Slot) : Option Nat :=
  match slotBits s 127 124 with
  | 0 => some 1
  | 1 => some 9
  | 2 => some 10
  | 3 => some 2
  | 4 => let b := slotBits s 37 24
         if b = 0 ∨ 9216 < b then none else some (1 + 8 * cdiv b 128)
  | 5 => some 1
  | 6 => some (2 + slotBits s 24 19)
  | 7 => some 1
  | 8 => some 1
  | 9 => some 1
  | _ => none

/-- The opcode of a request with a header. -/
def opcOf (n : Nat) : Option Opc :=
  match n with
  | 0 => some .rd | 1 => some .wr | 2 => some .wrp | 3 => some .add | 4 => some .enq | 5 => some .deq | 6 => some .walk | 7 => some .sync
  | _ => none

/-- The header fields of slot 0 of a request (04 R110). -/
def hdrOf (s : Slot) : Hdr where
  tag := BitVec.ofNat 12 (slotBits s 123 112)
  stream := BitVec.ofNat 12 (slotBits s 111 100)
  seq := BitVec.ofNat 16 (slotBits s 99 84)
  man := BitVec.ofNat 8 (slotBits s 83 76)
  deadline := BitVec.ofNat 32 (slotBits s 75 44)
  arg := BitVec.ofNat 37 (slotBits s 43 7)
  ndf := slotBits s 6 6 = 1
  sub := BitVec.ofNat 4 (slotBits s 3 0)

/-- Slot 0 of a response (04 R116). -/
def respSlot0 (r : Resp) : Slot :=
  BitVec.ofNat 128 (r.rtype.toNat * 2 ^ 124 + r.tag.toNat * 2 ^ 112 + r.stream.toNat * 2 ^ 100 + r.seq.toNat * 2 ^ 84 + r.opc.toNat * 2 ^ 80
    + (if r.dup then 2 ^ 79 else 0) + (if r.poison then 2 ^ 78 else 0) + r.code.toNat * 2 ^ 74 + r.info.toNat)

/-- The data rate in MT/s of a RATE code (09 R265, 15 R447). -/
def mtsOf (code : Nat) : Nat :=
  match code with
  | 0 => 4800 | 1 => 5600 | 2 => 6400 | 3 => 7200 | 4 => 8000 | _ => 8800

/-- A flag as bit k of a word. -/
def atBit (b : Bool) (k : Nat) : Nat := if b then 2 ^ k else 0

end Sys2Proof.Machine
end

