-- ==== Sys2Proof/Config.lean ====
section
/-! DEFINITION. What one unit or one board fixes, and the free values of the model. Each is an opaque constant: no proof can see its value, so a statement about it holds for every value. -/

namespace Sys2Proof.Config

/-- A stream of free values, one for each reading of the State's counter `free`: wherever the spec leaves a value open and the part goes on, the value is the next of this stream, reduced to the range the spec gives. -/
opaque free : Nat → Nat

/-- The grade code of the unit: set for grade code 1 (18 R537). -/
opaque gradeOne : Bool

/-- The unit's serial number as `id` reports it (15 R445, 18 R537). -/
opaque serial : String

/-- Which Waystation line holds the staged data of a ring's entry (01 R20 STAGE), by ring and entry slot. -/
opaque stageLine : Nat → Nat → Nat

/-- REFDEC as the DDR5 standard relates it to IMT and MMT (11 R338). -/
opaque refDec : Nat → Nat → Nat

/-- The window between DQS and CK that the DDR5 standard allows, as the least and the greatest DQS transmit delay (11 R336). -/
opaque dqsLow : Nat
opaque dqsHigh : Nat

end Sys2Proof.Config
end

