-- ==== Sys2Proof/Machine/Regs.lean ====
section
/-! DEFINITION. The register file: block bases, fields, counters, and the few operations that every other file uses: an event, a free value, an energy charge. -/

namespace Sys2Proof.Machine

/-! ### Blocks (16 R457) -/

def GLB : Nat := 0x000000
def CON : Nat := 0x010000
def HP (p : Nat) : Nat := 0x020000 + p * 0x1000
def TXN : Nat := 0x030000
def MAN : Nat := 0x040000
def ARB : Nat := 0x050000
def WAY : Nat := 0x060000
def QUE : Nat := 0x070000
def WLK : Nat := 0x080000
def CH (n : Nat) : Nat := 0x100000 + n * 0x10000
def PHY (n : Nat) : Nat := 0x200000 + n * 0x10000
def LED : Nat := 0x300000
def BST : Nat := 0x310000
def PWR : Nat := 0x320000
def AON : Nat := 0x330000
def SNP : Nat := 0x340000
def JRN : Nat := 0x350000

/-- The block of an address: its base and its register rows; none outside the first 4 KiB of a block (16 R457, R458). -/
def blockOf (a : Nat) : Option (Nat × List RegD) :=
  if a < 0x1000 then some (0, glbRegs)
  else if 0x10000 ≤ a ∧ a < 0x11000 then some (CON, conRegs)
  else if 0x20000 ≤ a ∧ a < 0x24000 then some (a / 0x1000 * 0x1000, hpRegs)
  else if a / 0x1000 = 0x30 then some (TXN, txnRegs)
  else if a / 0x1000 = 0x40 then some (MAN, manRegs)
  else if a / 0x1000 = 0x50 then some (ARB, arbRegs)
  else if a / 0x1000 = 0x60 then some (WAY, wayRegs)
  else if a / 0x1000 = 0x70 then some (QUE, queRegs)
  else if a / 0x1000 = 0x80 then some (WLK, wlkRegs)
  else if 0x100000 ≤ a ∧ a < 0x200000 then if a % 0x10000 < 0x1000 then some (a / 0x10000 * 0x10000, chRegs) else none
  else if 0x200000 ≤ a ∧ a < 0x300000 then if a % 0x10000 < 0x1000 then some (a / 0x10000 * 0x10000, phyRegs) else none
  else if a / 0x1000 = 0x300 then some (LED, ledRegs)
  else if a / 0x1000 = 0x310 then some (BST, bstRegs)
  else if a / 0x1000 = 0x320 then some (PWR, pwrRegs)
  else if a / 0x1000 = 0x330 then some (AON, aonRegs)
  else if a / 0x1000 = 0x340 then some (SNP, snpRegs)
  else if a / 0x1000 = 0x350 then some (JRN, jrnRegs)
  else none

/-- The register row that holds an offset, and which register of the row it is. -/
def rowAt (rows : List RegD) (off : Nat) : Option (RegD × Nat) :=
  (rows.find? fun r => decide (r.off ≤ off ∧ off < r.off + 4 * r.count ∧ (off - r.off) % 4 = 0)).map fun r => (r, (off - r.off) / 4)

/-- The row of a register address (16 R480 to R492); none where no register stands (16 R458). -/
def regRow (a : Nat) : Option (RegD × Nat) :=
  match blockOf a with
  | none => none
  | some (b, rows) => rowAt rows (a - b)

/-- The cold-reset word of the register at an address (16 R476). -/
def regReset (a : Nat) : Word :=
  match regRow a with
  | none => 0
  | some (r, _) => BitVec.ofNat 32 r.reset

/-- The word the register file holds at an address. -/
def rg (s : State) (a : Nat) : Word := tblGet regReset s.regs a

/-- Put a word into the register file. -/
def rgSet (a : Nat) (w : Word) (s : State) : State := { s with regs := tblSet regReset s.regs a w }

/-- Every listed register is put at the word that `f` gives, or at its reset value where it gives none. -/
def regsMap (f : Nat → Word → Option Word) (s : State) : State :=
  { s with regs := s.regs.foldl (fun t e => match f e.1 e.2 with
      | some w => tblSet regReset t e.1 w
      | none => t) [] }

/-- The same field in the k-th register of a row of registers. -/
def Fld.nth (f : Fld) (k : Nat) : Fld := { f with off := f.off + 4 * k }

/-- A field's value in a word. -/
def Fld.get (f : Fld) (w : Word) : Nat := w.toNat / 2 ^ f.lsb % 2 ^ f.width

/-- A word with a field replaced; the value is reduced to the field's width. -/
def Fld.put (f : Fld) (v : Nat) (w : Word) : Word :=
  BitVec.ofNat 32 (w.toNat - f.get w * 2 ^ f.lsb + v % 2 ^ f.width * 2 ^ f.lsb)

/-- A field of a block's register. -/
def fget (s : State) (b : Nat) (f : Fld) : Nat := f.get (rg s (b + f.off))

/-- A field as a flag. -/
def fbit (s : State) (b : Nat) (f : Fld) : Bool := fget s b f != 0

/-- Set a field by hardware. -/
def fset (b : Nat) (f : Fld) (v : Nat) (s : State) : State := rgSet (b + f.off) (f.put v (rg s (b + f.off))) s

/-- Set a flag by hardware. -/
def fsetB (b : Nat) (f : Fld) (v : Bool) (s : State) : State := fset b f (if v then 1 else 0) s

/-- A field raised by `n` and held at its highest value (16 R471). -/
def fbumpN (b : Nat) (f : Fld) (n : Nat) (s : State) : State :=
  fset b f (min (fget s b f + n) (2 ^ f.width - 1)) s

def fbump (b : Nat) (f : Fld) (s : State) : State := fbumpN b f 1 s

/-- A high-water mark follows a value. -/
def fmax (b : Nat) (f : Fld) (v : Nat) (s : State) : State := if fget s b f < v then fset b f v s else s

/-- Reset values of the coefficients (12 R352). -/
def coefReset (i : Nat) : Nat :=
  match i with
  | 0x00 => 1150 | 0x01 => 1400 | 0x02 => 5200 | 0x03 => 5800 | 0x04 => 180 | 0x05 => 240 | 0x06 => 600 | 0x07 => 1900
  | 0x08 => 700 | 0x09 => 90 | 0x0A => 300 | 0x0B => 140 | 0x0C => 700 | 0x0D => 95
  | 0x20 => 38000 | 0x21 => 9600 | 0x22 => 900 | 0x23 => 60 | 0x24 => 520 | 0x25 => 300
  | 0x30 => 1600 | 0x31 => 48000 | 0x32 => 20
  | _ => 0

/-- ROWB of the reset geometry is 13; the reset masks of the bank hash are those of 09 R274. -/
def bkMaskFor (rowb j : Nat) : Nat := 2 ^ j + 2 ^ (rowb + j) + 2 ^ (rowb + j + 6)

/-- The cold-reset word of a GLB indirect index (09 R274, R292). -/
def glbIxReset (i : Nat) : Word :=
  if 0x100 ≤ i ∧ i < 0x108 then
    let k := (i - 0x100) / 2
    if i % 2 = 0 then BitVec.ofNat 32 (2 ^ k + 2 ^ (k + 8) + 2 ^ (k + 16) + 2 ^ (k + 24)) else 0
  else if 0x110 ≤ i ∧ i < 0x116 then BitVec.ofNat 32 (bkMaskFor 13 (i - 0x110))
  else 0

/-- The cold-reset word of an indirect table of plain words: the hash masks (09 R292), the coefficients (12 R352), the walk descriptors (07 R212), and zero elsewhere. DESIGN CHOICE (log 108): zero also for the transmit equaliser presets, for which the rules give no value. -/
def ixReset (k : Nat) : Word :=
  let b := k / 16777216
  let i := k % 16777216
  if b = GLB then glbIxReset i
  else if b = LED then BitVec.ofNat 32 (coefReset i)
  else if b = WLK then
    match i % 32 with
    | 0 => BitVec.ofNat 32 (32 + 100 * 2 ^ 20)
    | 1 => 256
    | _ => 0
  else 0

/-- A word of an indirect table of plain words: its key. -/
def ixKey (b i : Nat) : Nat := b * 16777216 + i

/-- Read such a word. -/
def ixGet (s : State) (b i : Nat) : Word := tblGet ixReset s.ix (ixKey b i)

/-- Write such a word. -/
def ixSet (b i : Nat) (w : Word) (s : State) : State := { s with ix := tblSet ixReset s.ix (ixKey b i) w }

/-- A block's words of an indirect table are put at reset. -/
def ixDrop (b : Nat) (s : State) : State := { s with ix := tblClear s.ix (ixKey b 0) (ixKey b 0 + 2 ^ 24) }

/-- The words of the indirect tables whose keys are not held are put at those of a list. -/
def ixRestore (held : Nat → Bool) (l : List (Nat × Word)) (s : State) : State :=
  { s with ix := ((s.ix.filter fun e => held e.1) ++ l.filter fun e => !held e.1).foldl (fun t e => tblSet ixReset t e.1 e.2) [] }

/-! ### Time, free values, events -/

/-- DTIME in whole ns (02 R51). -/
def State.ns (s : State) : Nat := s.d8 / 8

/-- Take the next free value. -/
def takeFree (s : State) : Nat × State := (Config.free s.free, { s with free := s.free + 1 })

/-- An interrupt cause is set in GLB_IRQ_STAT (16 R477). -/
def irq (f : Fld) (s : State) : State := fset GLB f 1 s

/-- Queue an event, or lose it when 64 wait (15 R442, 16 R477). -/
def emit (head : String) (fields : List (String × FVal)) (s : State) : State :=
  if s.con.evq.length < 64 then
    irq GLB_IRQ_STAT_EVENT { s with con := { s.con with evq := s.con.evq ++ [(s.ns, ⟨head, fields⟩)] } }
  else
    fset CON CON_STATUS_EV_LOST 1 (fbump CON CON_EVLOST_COUNT { s with con := { s.con with evLost := s.con.evLost + 1 } })

/-! ### Vectors of units -/

def State.port (s : State) (p : Fin 4) : PortState := s.ports[p]
def State.chan (s : State) (c : Fin 16) : ChanState := s.chans[c]
def State.phy (s : State) (c : Fin 16) : PhyState := s.phys[c]
def State.arb (s : State) (a : Fin 17) : ArbState := s.arbs[a]
def State.ring (s : State) (c : Fin 16) : Ring := s.rings[c]

def updPort (p : Fin 4) (f : PortState → PortState) (s : State) : State := { s with ports := s.ports.set p (f s.ports[p]) }
def updChan (c : Fin 16) (f : ChanState → ChanState) (s : State) : State := { s with chans := s.chans.set c (f s.chans[c]) }
def updPhy (c : Fin 16) (f : PhyState → PhyState) (s : State) : State := { s with phys := s.phys.set c (f s.phys[c]) }
def updArb (a : Fin 17) (f : ArbState → ArbState) (s : State) : State := { s with arbs := s.arbs.set a (f s.arbs[a]) }
def updRing (c : Fin 16) (f : Ring → Ring) (s : State) : State := { s with rings := s.rings.set c (f s.rings[c]) }

/-- Apply a step to every element of a list in order. -/
def forAll {α : Type} (l : List α) (f : α → State → State) (s : State) : State := l.foldl (fun s a => f a s) s

def allPorts : List (Fin 4) := List.finRange 4
def allChans : List (Fin 16) := List.finRange 16

/-- Do a step only where a condition holds. -/
def onlyIf (c : Bool) (f : State → State) (s : State) : State := if c then f s else s

/-- The state of a stream's record, by port and stream (01 R24). -/
def strmKey (p : Fin 4) (t : BitVec 12) : Nat := p.val * 4096 + t.toNat

def State.strm (s : State) (p : Fin 4) (t : BitVec 12) : StreamRec := tblGet (fun _ => {}) s.streams (strmKey p t)

def setStrm (p : Fin 4) (t : BitVec 12) (r : StreamRec) (s : State) : State :=
  { s with streams := tblSet (fun _ => {}) s.streams (strmKey p t) r }

/-- Every stream record is changed. -/
def strmMap (f : Nat → StreamRec → StreamRec) (s : State) : State :=
  { s with streams := s.streams.foldl (fun t e => tblSet (fun _ => {}) t e.1 (f e.1 e.2)) [] }

def State.man (s : State) (m : Nat) : Manifest := tblGet (fun _ => {}) s.mans m

def setMan (m : Nat) (x : Manifest) (s : State) : State := { s with mans := tblSet (fun _ => {}) s.mans m x }

def State.acct (s : State) (m c : Nat) : Account := tblGet (fun _ => {}) s.accts (m * 16 + c)

def setAcct (m c : Nat) (x : Account) (s : State) : State := { s with accts := tblSet (fun _ => {}) s.accts (m * 16 + c) x }

/-- The accounts that `keep` selects restart at 0 (05 R140, 06 R176); the others are gone. -/
def acctsZero (keep : Nat → Bool) (s : State) : State :=
  { s with accts := s.accts.foldl (fun t e => if keep e.1 then tblSet (fun _ => {}) t e.1 { e.2 with count := 0 } else t) [] }

/-- A bit of a register field that holds one bit for each unit. -/
def fsetBit (b : Nat) (f : Fld) (i : Nat) (v : Bool) (s : State) : State :=
  let w := fget s b f
  fset b f (if bitOf w i then (if v then w else w - 2 ^ i) else (if v then w + 2 ^ i else w)) s

/-- Units leave the count of a self-test target's present cycle (13 R387). -/
def leaveCycle (l : List (Nat × Nat)) (s : State) : State := { s with bist := { s.bist with out := s.bist.out ++ l.filter fun u => !s.bist.out.contains u } }

/-! ### Energy (12 R352, R360) -/

/-- The coefficient in force in the present window. -/
def State.coef (s : State) (i : Nat) : Nat := tblGet coefReset s.led.coef i

/-- The account of energy: a manifest's, or the device's, which is number 256 (12 R360, R367). -/
def acctNo (m : Option (BitVec 8)) : Nat :=
  match m with
  | some m => m.toNat
  | none => 256

/-- Charge an energy in pJ to the present window and to an account (12 R353, R360). -/
def chargePj (pj : Nat) (m : Option (BitVec 8)) (s : State) : State :=
  let a := acctNo m
  { s with led := { s.led with
      opPj := s.led.opPj + pj,
      acct := tblSet (fun _ => 0) s.led.acct a (tblGet (fun _ => 0) s.led.acct a + pj),
      winMan := tblSet (fun _ => 0) s.led.winMan a (tblGet (fun _ => 0) s.led.winMan a + pj) } }

/-- Count `n` operations of coefficient `i` (12 R352). -/
def charge (i n : Nat) (m : Option (BitVec 8)) (s : State) : State := chargePj (s.coef i * n) m s

end Sys2Proof.Machine
end

