-- ==== Sys2Proof/Machine/Clock.lean ====
section
/-! DEFINITION. Time: DTIME in eighths of a ns, its cycles, and the static energy that passes with it (02 R51, 12 R352, R353). -/

namespace Sys2Proof.Machine

/-- A CK_CORE cycle in eighths of a ns: 0.625 ns on the core PLL, 15.625 ns on CK_FIO (02 R48, R51). -/
def coreTick8 (s : State) : Nat := if s.pwr.pll then 5 else 125

/-- Channel states (09 R289). -/
def CH_OFF : Nat := 0

/-- CHn_STATUS.STATE as hardware last set it. -/
def chState (s : State) (c : Fin 16) : Nat := fget s (CH c) CH_STATUS_STATE

/-- The static power of a channel in mW (12 R352): none when OFF or ISOLATED, CH_SR in self-refresh, else CH_ST. -/
def chStaticMw (s : State) (c : Fin 16) : Nat :=
  match chState s c with
  | 0 => 0
  | 4 => s.coef 0x23
  | 7 => 0
  | _ => s.coef 0x22

/-- A power-fail flush has begun: transmitters are off, and background work has stopped, until the warm reset that follows (12 R364, R365). -/
def flushOn (s : State) : Bool := s.led.pf != .none

/-- The transmitters that a port has on, in lane pairs (12 R352). -/
def lanesOn (s : State) (p : Fin 4) : Nat :=
  if flushOn s then 0 else
  match fget s (HP p) HP_STATUS_STATE with
  | 0 => 0
  | 1 => 16
  | 2 => 16
  | 7 => 0
  | _ => 4 * 2 ^ fget s (HP p) HP_STATUS_WIDTH

/-- The static power of a port in mW (12 R352). -/
def portStaticMw (s : State) (p : Fin 4) : Nat :=
  lanesOn s p * (if (s.port p).rateTry then s.coef 0x24 else s.coef 0x25)

/-- The static power of every unit that is powered, in mW (12 R352). In a wake from BANKED these are the units that are on again. -/
def staticMw (s : State) : Nat :=
  match s.pwr.mode with
  | .run | .doze =>
    (if s.pwr.pll then s.coef 0x20 else 0) + (if s.pwr.retEn then 0 else s.coef 0x21)
      + (allChans.map (chStaticMw s)).sum + (allPorts.map (portStaticMw s)).sum
  | .banked =>
    (if s.pwr.retEn || s.pwr.retWait then 0 else s.coef 0x21)
      + ((allChans.filter fun c => fget s PWR (PWR_DOMSTAT_STATE.nth (3 + c.val)) = 2).map (chStaticMw s)).sum
  | _ => 0

/-- The added power of the self-test slices that run, in mW (13 R370). -/
def sliceMw (s : State) : Nat :=
  (match s.bist.way with
    | some w => if w.running then 1200 else 0
    | none => 0)
    + (allChans.map fun c => (if s.bist.dram[c].isSome then 120 else 0) + (if s.bist.phyRun[c].isSome then 90 else 0)).sum
    + (allPorts.map fun p => if s.bist.laneRun[p].isSome then 100 else 0).sum

/-- `n8` eighths of a ns pass: DTIME counts, and each powered unit draws its static power. -/
def advance (n8 : Nat) (s : State) : State :=
  { s with
    d8 := s.d8 + n8,
    led := { s.led with
      stPj8 := s.led.stPj8 + (staticMw s + sliceMw s) * n8,
      defPj := s.led.defPj + sliceMw s * n8 / 8,
      acct := if n8 = 0 then s.led.acct else
        tblSet (fun _ => 0) s.led.acct 256 (tblGet (fun _ => 0) s.led.acct 256 + (staticMw s + sliceMw s) * n8 / 8),
      winMan := if n8 = 0 then s.led.winMan else
        tblSet (fun _ => 0) s.led.winMan 256 (tblGet (fun _ => 0) s.led.winMan 256 + (staticMw s + sliceMw s) * n8 / 8) } }

/-- Time passes up to the first CK_CORE cycle at or after an instant in eighths of a ns, or not at all where that instant is past: DTIME moves by whole steps (02 R51). -/
def advanceTo8 (t8 : Nat) (s : State) : State := advance (cdiv (t8 - s.d8) (coreTick8 s) * coreTick8 s) s

/-- A span in eighths of a ns passes, up to the end of the CK_CORE cycle that it ends in. -/
def elapse (n8 : Nat) (s : State) : State := advanceTo8 (s.d8 + n8) s

/-- Time passes up to an instant in ns. -/
def advanceToNs (t : Nat) (s : State) : State := advanceTo8 (t * 8) s

/-- DTIME counts: in RUN and DOZE, and in a wake from BANKED once it has been restored (14 R394, R410). -/
def dtimeRuns (s : State) : Bool :=
  match s.pwr.mode with
  | .run | .doze => true
  | .banked => s.pwr.wake == some .settled || s.pwr.wake == some .image
  | _ => false

/-- What an empty queue does: one CK_CORE cycle passes while DTIME counts; in BANKED one CK_SLOW edge is counted until a wake is triggered (02 R52), and likewise after a completed power-fail flush while the core supply is off (14 R398); and nothing else happens. -/
def idle (s : State) : State :=
  if dtimeRuns s then advance (coreTick8 s) s
  else if (s.pwr.mode == .banked || (s.pwr.mode == .off && s.pwr.starter == some 2)) && s.pwr.wake.isNone then { s with pwr := { s.pwr with slowEdges := s.pwr.slowEdges + 1 } }
  else s

/-! ### Who is powered (14 R394, R413, 16 R462) -/

/-- The console runs: the management domain is on and clocked, and no warm reset holds it (14 R394, 17 R501). -/
def consoleOn (s : State) : Bool :=
  (match s.pwr.mode with
    | .run | .doze => true
    | _ => false)
  && (match s.pwr.warm with
    | .held _ => false
    | _ => true)

/-- PWR_DOMSTATd.STATE (14 R420): 0 off, 1 ramping, 2 on, 3 faulted. -/
def domState (s : State) (d : Nat) : Nat := fget s PWR (PWR_DOMSTAT_STATE.nth d)

/-- The power domain of a block's registers, and whether its clock stops in DOZE (14 R394, R413). -/
def blockDom (b : Nat) : Nat × Bool :=
  if b = GLB ∨ b = CON ∨ b = PWR ∨ b = AON ∨ b = SNP then (0, false)
  else if b = WAY then (2, true)
  else if 0x20000 ≤ b ∧ b < 0x24000 then (19 + (b - 0x20000) / 0x1000, true)
  else if 0x100000 ≤ b ∧ b < 0x300000 then (3 + b / 0x10000 % 16, true)
  else (1, true)

/-- The registers of a block can be accessed (16 R462). -/
def blockOn (s : State) (b : Nat) : Bool :=
  consoleOn s && domState s (blockDom b).1 == 2 && !(s.pwr.mode == .doze && (blockDom b).2)

/-! ### Writes of the register bus (16 R456, R462, R464) -/

/-- GLB_STATUS.GUARD_FAIL is set, and with it GLB_IRQ_STAT.GUARD (16 R464, R477). -/
def guardFail (s : State) : State := irq GLB_IRQ_STAT_GUARD (fset GLB GLB_STATUS_GUARD_FAIL 1 s)

/-- Another write reaches the register bus: a pair that waits for its complement fails (16 R464). -/
def breakPair (s : State) : State :=
  match s.guard with
  | some _ => guardFail { s with guard := none }
  | none => s

/-- An access finds its domain off or gated (16 R462). -/
def domOff (s : State) : State := fset GLB GLB_STATUS_DOM_OFF 1 s

/-- A write to a block with the effect `f`, made by the console interpreter: it fails a pending pair, and is made only where the block can be accessed (16 R462, R464). -/
def busWr (b : Nat) (f : State → State) (s : State) : State :=
  if !consoleOn s then s
  else if blockOn s b then f (breakPair s)
  else domOff (breakPair s)

end Sys2Proof.Machine
end

