-- ==== Sys2Proof/Machine/Port.lean ====
section
/-! DEFINITION. The flit layer of a host port: transmission, credits, acknowledgement and replay, resets (03 R66 to R108), and TIME (04 R131). -/

namespace Sys2Proof.Machine

/-! ### Names of states and widths (03 R105) -/

def PORT_DOWN : Nat := 0
def PORT_DETECT : Nat := 1
def PORT_EQUALISE : Nat := 2
def PORT_ALIGN : Nat := 3
def PORT_INIT : Nat := 4
def PORT_ACTIVE : Nat := 5
def PORT_RETRAIN : Nat := 6
def PORT_QUIET : Nat := 7

def portSt (s : State) (p : Fin 4) : Nat := fget s (HP p) HP_STATUS_STATE

/-- TUN_ACT follows the port's state: the tunnel is active while its port is ACTIVE (03 R102, 15 R453). -/
def tunFollow (p : Fin 4) (s : State) : State :=
  let on := portSt s p == PORT_ACTIVE && fbit s (HP p) HP_CTL_TUN_EN
  let s := fsetB (HP p) HP_STATUS_TUN_ACT on s
  if on then fset CON CON_STATUS_TUN_ACT 1 (fset CON CON_STATUS_TUN_PORT p s)
  else onlyIf (fget s CON CON_STATUS_TUN_PORT == p.val) (fset CON CON_STATUS_TUN_ACT 0) s

/-- A cycle of coverage begins, where a target's first has not begun (13 R387). -/
def cycStart (t : Fin 5) (s : State) : State :=
  if (s.bist.cycAt[t]).isSome then s else { s with bist := { s.bist with cycAt := s.bist.cycAt.set t (some s.ns) } }

/-- A LANE slice stops: its lane is tested again at its next turn in the rotation (13 R372). -/
def stopLane (p : Fin 4) (s : State) : State :=
  if s.bist.laneRun[p].isNone then s else
    fbump BST BST_STOP_COUNT (fsetBit BST BST_STATUS_LANE_RUN p.val false { s with bist := { s.bist with
      laneRun := s.bist.laneRun.set p none, laneNext := s.bist.laneNext.set p (s.bist.laneNext[p] + 1) } })

/-- Self-test's lanes follow the port's state: lanes that it gives up leave their cycle, and a LANE slice stops when the port leaves ACTIVE (13 R386, R387). -/
def laneFollow (p : Fin 4) (s : State) : State :=
  let st := portSt s p
  let was := s.bist.lanesIn[p]
  let now := if st = PORT_ACTIVE then (List.range (4 * 2 ^ fget s (HP p) HP_STATUS_WIDTH)).map ((s.port p).group + ·)
    else if st = PORT_DOWN ∨ st = PORT_DETECT then [] else was
  let s := leaveCycle ((was.filter fun l => !now.contains l).map fun l => (4, p.val * 16 + l)) s
  let s := { s with bist := { s.bist with lanesIn := s.bist.lanesIn.set p now } }
  if st = PORT_ACTIVE then onlyIf (fbit s BST BST_CTL_LANE_EN) (cycStart 4) s else stopLane p s

/-- A port enters a training state: the console tunnel and the lanes of self-test follow it (13 R386, R387, 15 R453). -/
def setPortSt (p : Fin 4) (v : Nat) (s : State) : State :=
  laneFollow p <| tunFollow p (fset (HP p) HP_STATUS_STATE v (updPort p (fun ps => { ps with stAt8 := s.d8 }) s))

/-- Lanes of a width code; the code 0b11 is treated as 0b10 (03 R103). -/
def lanesOf (w : Nat) : Nat := if w = 0 then 4 else if w = 1 then 8 else 16

/-- The number that events and answers give for a rate bit (15 R447). -/
def rateNo (r : Nat) : Nat := if r = 0 then 53 else 106

/-! ### Transmission -/

/-- The slots a waiting response takes (04 R115, R117). -/
def respLen (r : Resp) : Nat := 1 + r.data.length

/-- The fill of the response-assembly buffer in slots (03 R106). -/
def rabFill (ps : PortState) : Nat := (ps.rab.map respLen).sum

/-- Credits a sender holds (03 R85). -/
def creditsOf (adv : Nat) (c : Credit) : Nat := adv + c.released - c.sent

/-- A message's slots with their SOM bits. -/
def withSom : List Slot → List (Slot × Bool)
  | [] => []
  | a :: r => (a, true) :: r.map fun b => (b, false)

/-- Cut slots into DATA flits of 15 slots (03 R70); `fuel` bounds the number of flits. -/
def cutFlits : Nat → BitVec 12 → List (Slot × Bool) → List TxFlit
  | 0, _, _ => []
  | fuel + 1, q, l =>
    if l.isEmpty then [] else
      let h := l.take 15
      let som := (h.zipIdx.map fun x => if x.1.2 then 2 ^ x.2 else 0).sum
      ⟨q, BitVec.ofNat 15 som, BitVec.ofNat 4 h.length, h.map (·.1)⟩ :: cutFlits fuel (q + 1) (l.drop 15)

/-- What can be sent now: the class T messages, then the class C messages, then the class X messages, each class in order, as far as credits and the 512 flits allow (03 R75, R76, 04 R118). The result lists slots; the last three numbers are messages taken per class. -/
def takeT (cr : Nat) : List (List Slot) → List (List Slot) × Nat
  | [] => ([], 0)
  | m :: r => if m.length ≤ cr then let x := takeT (cr - m.length) r; (m :: x.1, x.2 + 1) else ([], 0)

/-- Responses that credits and room in the replay buffer cover, in order. -/
def takeX (cr room : Nat) : List Resp → List Resp
  | [] => []
  | r :: l => if respLen r ≤ cr ∧ respLen r ≤ room then r :: takeX (cr - respLen r) (room - respLen r) l else []

/-- A console message's slot: up to 15 bytes (15 R428). -/
def conSlot (l : List Byte) : Slot :=
  BitVec.ofNat 128 (9 * 2 ^ 124 + l.length * 2 ^ 120 + natBE (l ++ List.replicate (15 - l.length) 0))

/-- Console bytes cut into class C messages; `fuel` bounds their number. -/
def conMsgs : Nat → List Byte → List Slot
  | 0, _ => []
  | fuel + 1, l => if l.isEmpty then [] else conSlot (l.take 15) :: conMsgs fuel (l.drop 15)

/-- The lane at the other end of a group of `w` lanes, where the direction is lane-reversed: logical to position in the group, and back (03 R66). -/
def revLane (rev : Bool) (w l : Nat) : Nat := if rev then w - 1 - l else l

/-- ACKK of the next flit (03 R78, R79): a NAK in the first flit of an episode and at each repeat, no acknowledgement between NAKs, and else an ACK in ACTIVE and once a DATA flit has been received in the epoch. -/
def ackKind (st : Nat) (ps : PortState) : Nat :=
  if ps.nak then (if ps.nakDue then 2 else 0) else if st = PORT_ACTIVE ∨ ps.ackSeen then 1 else 0

/-- LREQ and BADLANE of a flit that the port sends (03 R71): its TRAIN flits of a RETRAIN ask for the upgrade, or name the logical lane that failed. -/
def lreqNow (s : State) (p : Fin 4) : Nat × Nat :=
  let ps := s.port p
  if portSt s p ≠ PORT_RETRAIN then (0, 0)
  else if ps.upgrade then (2, 0)
  else
    let w := lanesOf (fget s (HP p) HP_STATUS_WIDTH)
    match (List.range w).find? fun l => bitOf ps.newFail.toNat (ps.group + revLane (fbit s (HP p) HP_STATUS_REV_RX) w l) with
    | some l => (1, l)
    | none => (0, 0)

/-- A flit as a port transmits it (03 R70, R71, R73): the header fields that are filled in afresh at each transmission, and the CRC. -/
def wireFlit (s : State) (p : Fin 4) (ft : BitVec 4) (rply : Bool) (t : TxFlit) : Flit :=
  let ps := s.port p
  let f : Flit := {
    ft := ft, fseq := t.fseq, ackseq := ps.expect - 1, ackk := BitVec.ofNat 2 (ackKind (portSt s p) ps),
    cumx := BitVec.ofNat 16 ps.rxX.released, cumt := BitVec.ofNat 8 ps.rxT.released, cumc := BitVec.ofNat 8 ps.rxC.released,
    som := t.som, padfrom := t.padfrom, rply := rply, epoch := BitVec.ofNat 3 (fget s (HP p) HP_STATUS_EPOCH),
    lreq := BitVec.ofNat 3 (lreqNow s p).1, badlane := BitVec.ofNat 4 (lreqNow s p).2, resv := 0,
    slots := Vector.ofFn fun i => t.slots.getD i.val 0, crc := 0, fecBad := false, fecCorr := [] }
  { f with crc := flitCrc f }

/-- A flit leaves a port, which a NAK due goes with (03 R79); none does once a power-fail flush has turned the transmitters off (12 R364). `out` keeps the flits of one instant. -/
def sendFlit (p : Fin 4) (ft : BitVec 4) (rply : Bool) (t : TxFlit) (s : State) : State :=
  if flushOn s then s else
  let f := wireFlit s p ft rply t
  let s := onlyIf ((s.port p).nak && (s.port p).nakDue) (fbump (HP p) HP_NAK_TX_COUNT) s
  updPort p (fun ps => { ps with out := (if ps.outAt8 = s.d8 then ps.out else []) ++ [f], outAt8 := s.d8, nakDue := false }) s

/-- DATA flits leave in order; a replayed copy has RPLY set (03 R72, R73, R80). -/
def sendData (p : Fin 4) (rply : Bool) (l : List TxFlit) (s : State) : State := forAll l (fun t s => sendFlit p 1 rply t s) s

/-- An IDLE flit leaves: no message, SOM 0 and PADFROM 0, and the FSEQ of the next DATA flit (03 R71, R72). -/
def sendIdle (p : Fin 4) (s : State) : State := sendFlit p 2 false ⟨(s.port p).nextFseq, 0, 0, []⟩ s

/-- A TIME_R response whose flit is formed now: T3 is the present DTIME, at which the flit enters the transmit pipeline, plus HPn_PIPE.TX_LAT (04 R131). -/
def stampT3 (s : State) (p : Fin 4) (m : List Slot) : List Slot :=
  match m with
  | [a, b] => [a, BitVec.ofNat 128 (slotBits b 127 64 * 2 ^ 64 + (s.d8 + fget s (HP p) HP_PIPE_TX_LAT) % 2 ^ 64)]
  | m => m

/-- HPn_CRED_NOW.RAB_FILL follows the response-assembly buffer (03 R106). -/
def showRab (p : Fin 4) (s : State) : State := fset (HP p) HP_CRED_NOW_RAB_FILL (rabFill (s.port p)) s

/-- Pack what can be sent into DATA flits, put them into the replay buffer and send them, or send an IDLE flit where no DATA flit is ready (03 R72, R73, R76). A port sends so only in ACTIVE, no new DATA flit while it enters QUIET (03 R94), and nothing once a power-fail flush has turned its transmitters off (12 R364). -/
def pump (p : Fin 4) (s : State) : State :=
  let ps := s.port p
  if portSt s p ≠ PORT_ACTIVE ∨ flushOn s then showRab p s
  else if ps.toQuiet then sendIdle p (showRab p s) else
  let room := (512 - ps.replay.length) * 15
  let ts := takeT (min (creditsOf (fget s (HP p) HP_CRED_PEER_ADVT) ps.crT) room) ps.txT
  let nT := (ts.1.map List.length).sum
  let nC := if fbit s (HP p) HP_STATUS_TUN_ACT then
      min (cdiv s.con.tunOut.length 15) (min (creditsOf (fget s (HP p) HP_CRED_PEER_ADVC) ps.crC) (room - nT)) else 0
  let cs := conMsgs nC s.con.tunOut
  let xs := takeX (creditsOf (fget s (HP p) HP_CRED_PEER_ADVX) ps.crX) (room - nT - nC) ps.rab
  let nX := (xs.map respLen).sum
  let slots := (ts.1.map (stampT3 s p)).flatMap withSom ++ cs.map (fun c => (c, true)) ++ xs.flatMap fun r => withSom (respSlot0 r :: r.data)
  let flits := cutFlits 512 ps.nextFseq slots
  if slots.isEmpty then sendIdle p (showRab p s) else
  let ps' := { ps with
    replay := ps.replay ++ flits,
    nextFseq := ps.nextFseq + BitVec.ofNat 12 flits.length,
    ackAt8 := if ps.replay.isEmpty then s.d8 else ps.ackAt8,
    txT := ps.txT.drop ts.2,
    rab := ps.rab.drop xs.length,
    crT := { ps.crT with sent := ps.crT.sent + nT },
    crC := { ps.crC with sent := ps.crC.sent + nC },
    crX := { ps.crX with sent := ps.crX.sent + nX } }
  let s := { updPort p (fun _ => ps') s with con := { s.con with tunOut := s.con.tunOut.drop (15 * nC) } }
  let s := forAll xs (fun r => charge 0x09 (respLen r) r.man) s
  let s := charge 0x09 nT none s
  sendData p false flits (showRab p (fset (HP p) HP_CRED_NOW_CRX (creditsOf (fget s (HP p) HP_CRED_PEER_ADVX) ps'.crX) s))

/-- A response enters response assembly (03 R88). -/
def assemble (p : Fin 4) (r : Resp) (s : State) : State := updPort p (fun ps => { ps with rab := ps.rab ++ [r] }) s

/-- A response enters response assembly and leaves as credits allow (03 R88). -/
def respond (p : Fin 4) (r : Resp) (s : State) : State := pump p (assemble p r s)

/-! ### Console tunnel of a port (03 R102, 15 R429) -/

/-- The tunnel's port is reset, or gives the tunnel up: its bytes are lost, and a line that holds tunnel bytes is cut. -/
def tunnelDown (p : Fin 4) (s : State) : State :=
  if s.con.tunUp = some p then
    let c := s.con
    let buf := if c.buf.tun then { ({} : ConLine) with cut := true } else c.buf
    let c := { c with fifo := c.fifo.filter (fun b => !b.tun), tunOut := [], drops := 0, dirtyT := false, tunUp := none }
    let c := if buf.cut then
        (match c.line with
         | none => { c with line := some buf, buf := {} }
         | some _ => { c with buf := buf })
      else c
    emit "tunnel" [("port", .n p), ("state", .s "down")] { s with con := c }
  else s

/-- The tunnel's port is ACTIVE: the first time since the tunnel was taken up or its port was reset, an event says so. -/
def tunnelUp (p : Fin 4) (s : State) : State :=
  let s := tunFollow p s
  if fbit s (HP p) HP_CTL_TUN_EN ∧ s.con.tunUp ≠ some p then
    emit "tunnel" [("port", .n p), ("state", .s "up")] { s with con := { s.con with tunUp := some p } }
  else s

/-! ### Training -/

/-- The groups of a width, as their first lanes (03 R66). -/
def groupsOf (w : Nat) : List Nat := (List.range (16 / w)).map (· * w)

/-- Every lane of the group of `w` lanes at `g` is set in a mask. -/
def groupGood (good : Nat) (g w : Nat) : Bool := (List.range w).all fun i => bitOf good (g + i)

/-- The group of `w` good lanes within the lanes `lo` to `lo + span - 1`, by its first lane. DESIGN CHOICE (log 106): of several the lowest-numbered. -/
def goodGroup (good lo span w : Nat) : Option Nat :=
  (groupsOf w).find? fun g => decide (lo ≤ g ∧ g + w ≤ lo + span) && groupGood good g w

/-- The widest group of good lanes within the lanes `lo` to `lo + span - 1` whose width code is at most `c`: its first lane and its width code (03 R67). -/
def bestGroup (good lo span c : Nat) : Option (Nat × Nat) :=
  match (if 2 ≤ c then goodGroup good lo span 16 else none) with
  | some g => some (g, 2)
  | none =>
    match (if 1 ≤ c then goodGroup good lo span 8 else none) with
    | some g => some (g, 1)
    | none => (goodGroup good lo span 4).map fun g => (g, 0)

/-- A training record as its 256-bit value (03 R89). -/
def recVal (t : TrainRec) : Nat :=
  t.tstate.toNat * 2 ^ 252 + t.twidth.toNat * 2 ^ 250 + (if t.trate then 2 ^ 249 else 0) + t.lgood.toNat * 2 ^ 233 + t.tepoch.toNat * 2 ^ 230
    + t.nextrx.toNat * 2 ^ 218 + t.advx.toNat * 2 ^ 203 + t.advt.toNat * 2 ^ 197 + t.advc.toNat * 2 ^ 190
    + (if t.lossless then 2 ^ 189 else 0) + t.laneid.toNat * 2 ^ 185

/-- The two slots of a TRAIN flit that hold a record, slot 0 first (03 R89). -/
def recSlots (t : TrainRec) : List Slot := [BitVec.ofNat 128 (recVal t / 2 ^ 128), BitVec.ofNat 128 (recVal t)]

/-- The training record that slots 0 and 1 of a flit hold (03 R89). -/
def recOf (f : Flit) : TrainRec :=
  let v := f.slots[0].toNat * 2 ^ 128 + f.slots[1].toNat
  let b := fun (hi lo : Nat) => v / 2 ^ lo % 2 ^ (hi - lo + 1)
  { tstate := BitVec.ofNat 4 (b 255 252), twidth := BitVec.ofNat 2 (b 251 250), trate := b 249 249 = 1, lgood := BitVec.ofNat 16 (b 248 233),
    tepoch := BitVec.ofNat 3 (b 232 230), nextrx := BitVec.ofNat 12 (b 229 218), advx := BitVec.ofNat 15 (b 217 203),
    advt := BitVec.ofNat 6 (b 202 197), advc := BitVec.ofNat 7 (b 196 190), lossless := b 189 189 = 1, laneid := BitVec.ofNat 4 (b 188 185) }

/-- TSTATE of the TRAIN flits that a port sends (03 R89, R91). -/
def tstateNow (s : State) (p : Fin 4) : Nat :=
  let st := portSt s p
  if st = PORT_RETRAIN then
    match (s.port p).rtPhase with
    | .test => 6
    | .align => 3
    | .init => 4
  else st

/-- TEPOCH: the present epoch in a lossless training, else the next one (03 R93). -/
def epochNow (s : State) (p : Fin 4) : Nat :=
  if (s.port p).lossless then fget s (HP p) HP_STATUS_EPOCH else (fget s (HP p) HP_STATUS_EPOCH + 1) % 8

/-- The record that a port sends on logical lane `l` (03 R84, R89, R93). LGOOD gives the lanes of the tried group on which its receiver holds lock. -/
def recNow (s : State) (p : Fin 4) (l : Nat) : TrainRec :=
  let ps := s.port p
  let w := fget s (HP p) HP_STATUS_WIDTH
  let n := lanesOf w
  let rev := fbit s (HP p) HP_STATUS_REV_RX
  { tstate := BitVec.ofNat 4 (tstateNow s p), twidth := BitVec.ofNat 2 w, trate := ps.rateTry,
    lgood := BitVec.ofNat 16 (((List.range n).map fun i => if bitOf ps.trnGood.toNat (ps.group + revLane rev n i) then 2 ^ i else 0).sum),
    tepoch := BitVec.ofNat 3 (epochNow s p), nextrx := ps.expect, advx := 16384, advt := 32, advc := 64,
    lossless := ps.lossless, laneid := BitVec.ofNat 4 l }

/-- A port sends its TRAIN flit, one copy for each lane of the group being tried (03 R89); those of INIT are counted (03 R91). -/
def sendTrain (p : Fin 4) (s : State) : State :=
  let n := lanesOf (fget s (HP p) HP_STATUS_WIDTH)
  let s := forAll (List.range n) (fun l s => sendFlit p 14 false ⟨(s.port p).nextFseq, 0, 0, recSlots (recNow s p l)⟩ s) s
  onlyIf (tstateNow s p == 4 && !flushOn s) (updPort p (fun ps => { ps with initSent := ps.initSent + 1 })) s

/-- A port begins to train from DETECT: it takes WIDTH_MAX and RATE as they stand (03 R91, R103). -/
def toDetect (p : Fin 4) (s : State) : State :=
  let w := fget s (HP p) HP_CTL_WIDTH_MAX
  setPortSt p PORT_DETECT
    (fset GLB GLB_CLKSTAT_LINK_LOCK (Nat.lor (fget s GLB GLB_CLKSTAT_LINK_LOCK) (2 ^ p.val))
      (updPort p (fun ps => { ps with
        widthTry := if w = 0 then 0 else if w = 1 then 1 else 2, rateTry := fbit s (HP p) HP_CTL_RATE,
        lossless := false, upgrade := false, initSeen := 0, trnGood := 0, newFail := 0 }) s))

/-- Every tag on a port becomes void (03 R98, 04 R119). -/
def voidTags (p : Fin 4) (s : State) : State :=
  let s := strmMap (fun k r => if k / 4096 = p.val then { r with
      win := r.win.map fun w => { w with tag := none },
      old := r.old.map fun x => (x.1, { x.2 with tag := none }),
      sync := r.sync.map fun y => { y with tag := none },
      waiting := r.waiting.map fun r => { r with void := true } } else r) s
  { s with
    caravans := s.caravans.map fun c => if c.port = p then { c with dup := c.dup.map fun x => { x with tag := none } } else c,
    que := { s.que with dups := s.que.dups.map fun d => if d.port = p then { d with tag := none } else d },
    arbs := s.arbs.map fun a => { a with
      contest := a.contest.map fun c => if c.port = p then { c with req := { c.req with void := true } } else c,
      resvWait := a.resvWait.map fun c => if c.port = p then { c with req := { c.req with void := true } } else c } }

/-- What a port reset clears, whatever follows it (03 R98): replay buffers, response assembly, incomplete requests, tags; and credits are at their advertised values again, those that the host advertised last (17 R503 leaves HPn_CRED_PEER as it is). -/
def clearPort (p : Fin 4) (s : State) : State :=
  let s := tunnelDown p s
  let s := updPort p (fun ps => { ps with
    replay := [], nextFseq := 0, resentFrom := none, retries := 0, expect := 0, nak := false, nakDue := false, ackSeen := false,
    crX := {}, crT := {}, crC := {}, rxX := {}, rxT := {}, rxC := {}, part := [], partNeed := 0,
    intake := ps.intake.map fun r => { r with void := true },
    arrived := ps.arrived.map fun x => ({ x.1 with void := true }, x.2),
    timeQ := [], conQ := [], rab := [], txT := [], initSeen := 0, initSent := 0, lossless := false, upgrade := false, trainOk := false,
    toQuiet := false, ser := Vector.replicate 16 0 }) s
  let s := voidTags p s
  fset (HP p) HP_CRED_NOW_CRX (fget s (HP p) HP_CRED_PEER_ADVX)
    (fset (HP p) HP_CRED_NOW_RAB_FILL 0 (fset (HP p) HP_PIPE_RX_LAT 0 (fset (HP p) HP_PIPE_TX_LAT 0 s)))

/-- A port reset with the cause its event gives (03 R98): the port trains again from DETECT where EN is 1. DESIGN CHOICE (log 108): the count of consecutive timeouts, TRN_FAIL, starts again. -/
def portReset (p : Fin 4) (cause : String) (s : State) : State :=
  let s := clearPort p s
  let s := fbump (HP p) HP_RESETS_COUNT s
  let s := irq GLB_IRQ_STAT_PORT_DOWN (emit "port_down" [("port", .n p), ("cause", .s cause)] s)
  let s := fset (HP p) HP_STATUS_TRN_FAIL 0 s
  if fbit s (HP p) HP_CTL_EN then toDetect p s else setPortSt p PORT_DOWN s

/-- A protocol error (03 R99). -/
def protocolError (p : Fin 4) (s : State) : State :=
  portReset p "protocol" (fset (HP p) HP_STATUS_PROTO 1 s)

/-- A port reset of 03 R96: a group of at least 4 good lanes trains from ALIGN with the equaliser settings kept, else the port goes DOWN. -/
def portResetLanes (p : Fin 4) (good : BitVec 16) (s : State) : State :=
  let s := clearPort p s
  let s := fbump (HP p) HP_RESETS_COUNT s
  let s := irq GLB_IRQ_STAT_PORT_DOWN (emit "port_down" [("port", .n p), ("cause", .s "lanes")] s)
  match bestGroup good.toNat 0 16 (s.port p).widthTry with
  | some (g, w) => sendTrain p (setPortSt p PORT_ALIGN (fset (HP p) HP_STATUS_WIDTH w (updPort p (fun ps => { ps with trnGood := good, newFail := 0, group := g, fecPos := 0 }) s)))
  | none => setPortSt p PORT_DOWN s

/-- The lanes of the trained group as a mask of physical lanes. -/
def groupMask (s : State) (p : Fin 4) : Nat := ones (lanesOf (fget s (HP p) HP_STATUS_WIDTH)) * 2 ^ (s.port p).group

/-- A port enters a lossless RETRAIN and sends TRAIN flits (03 R91, R95). -/
def toRetrain (p : Fin 4) (upgrade : Bool) (s : State) : State :=
  sendTrain p (setPortSt p PORT_RETRAIN (updPort p (fun ps => { ps with
    lossless := true, upgrade := upgrade, initSeen := 0, initSent := 0, trnGood := 0, nak := false, nakDue := false, rtPhase := .test,
    widthWas := fget s (HP p) HP_STATUS_WIDTH, groupWas := ps.group }) s))

/-- A RETRAIN has found the lanes of the mask `f` newly failed (03 R96): one of them narrows the port within its group and lets ALIGN run again, where HPn_CTL.DEGRADE_EN allows it (03 R103); more of them, or no group left, reset the port. -/
def retrainFail (p : Fin 4) (f : Nat) (s : State) : State :=
  let ps := s.port p
  let w := fget s (HP p) HP_STATUS_WIDTH
  let left := Nat.land (fget s (HP p) HP_LANES_GOOD) (0xFFFF - f)
  if popCount 16 f = 0 then s
  else if !fbit s (HP p) HP_CTL_DEGRADE_EN then portReset p "lanes" s
  else if popCount 16 f = 1 then
    match bestGroup (Nat.land (groupMask s p) (0xFFFF - f)) ps.group (lanesOf w) w with
    | some (g, w') =>
      fset (HP p) HP_STATUS_WIDTH w' (fset (HP p) HP_LANES_GOOD left
        (updPort p (fun ps => { ps with group := g, newFail := BitVec.ofNat 16 f, rtPhase := .align }) s))
    | none => portResetLanes p (BitVec.ofNat 16 left) s
  else portResetLanes p (BitVec.ofNat 16 left) s

/-- A lane pair of an ACTIVE port has failed (03 R95, R103 DEGRADE_EN); a second one in RETRAIN resets the port (03 R96). -/
def laneFault (p : Fin 4) (lane : Nat) (s : State) : State :=
  if !bitOf (groupMask s p) lane then s
  else if portSt s p = PORT_ACTIVE then
    if fbit s (HP p) HP_CTL_DEGRADE_EN then
      toRetrain p false (updPort p (fun ps => { ps with newFail := BitVec.ofNat 16 (2 ^ lane), trainOk := true }) s)
    else portReset p "lanes" s
  else if portSt s p = PORT_RETRAIN then
    let f := Nat.lor (s.port p).newFail.toNat (2 ^ lane)
    if (s.port p).rtPhase = .test ∧ popCount 16 f ≤ 1 then updPort p (fun ps => { ps with newFail := BitVec.ofNat 16 f }) s
    else retrainFail p f s
  else s

/-- An upgrade request (03 R97). -/
def upgradeReq (p : Fin 4) (s : State) : State :=
  if portSt s p = PORT_ACTIVE then toRetrain p true (updPort p (fun ps => { ps with trainOk := true }) s) else s

/-- The entry to QUIET has begun: once every DATA flit sent is acknowledged and every one received is delivered, the port sends 8 TRAIN flits with TSTATE QUIET, turns its transmitters off and is in QUIET (03 R94). -/
def quietCheck (p : Fin 4) (s : State) : State :=
  let ps := s.port p
  if ps.toQuiet && !flushOn s && portSt s p == PORT_ACTIVE && ps.replay.isEmpty && !ps.nak then
    forAll (List.range 8) (fun _ s => sendTrain p s) (setPortSt p PORT_QUIET (updPort p (fun y => { y with toQuiet := false, lossless := true }) s))
  else s

/-! ### Reception -/

/-- Count what the FEC decoder did with the codewords of a flit (03 R69, R106, R107). Two codewords carry five flits (03 R68): the first flit overlaps the first codeword only and the fourth the second only, so each codeword is counted once, with those. -/
def fecCount (p : Fin 4) (f : Flit) (s : State) : State :=
  let pos := (s.port p).fecPos
  let s := updPort p (fun ps => { ps with fecPos := (ps.fecPos + 1) % 5 }) s
  if pos = 0 ∨ pos = 3 then
    let s := onlyIf f.fecBad (fbump (HP p) HP_FEC_UNC_COUNT) s
    let s := onlyIf (!f.fecCorr.isEmpty) (fbump (HP p) HP_FEC_CORR_COUNT) s
    forAll f.fecCorr (fun x s =>
      let s := ixSet (HP p) x.1.val (BitVec.ofNat 32 (min ((ixGet s (HP p) x.1.val).toNat + x.2) 0xFFFFFFFF)) s
      updPort p (fun ps => { ps with ser := ps.ser.set x.1 (ps.ser[x.1] + x.2) }) s) s
  else s

/-- The port receives the FEC stream: from ALIGN onward, but not in QUIET (03 R91). -/
def fecStream (s : State) (p : Fin 4) : Bool :=
  let st := portSt s p
  st == PORT_ALIGN || st == PORT_INIT || st == PORT_ACTIVE || st == PORT_RETRAIN

/-- The epoch is agreed: in ACTIVE and in a lossless training (03 R74, R93). -/
def epochAgreed (s : State) (p : Fin 4) : Bool := portSt s p == PORT_ACTIVE || (s.port p).lossless

/-- A flit of the type a row names is intact and has no fault of 03 R74; the epoch counts once it is agreed. -/
def flitOk (s : State) (p : Fin 4) (f : Flit) (ft : Nat) : Bool :=
  !f.fecBad && f.crc == flitCrc f && f.ft.toNat == ft && f.ackk.toNat != 3
    && (f.padfrom.toNat == 15 || f.som.toNat / 2 ^ f.padfrom.toNat == 0)
    && (!epochAgreed s p || f.epoch.toNat == fget s (HP p) HP_STATUS_EPOCH)

/-- A flit is discarded (03 R74). -/
def badFlit (p : Fin 4) (s : State) : State := fbump (HP p) HP_CRC_ERR_COUNT s

/-- Start a NAK episode, or do nothing in one: the next flit sent carries the NAK (03 R79). -/
def startNak (p : Fin 4) (s : State) : State :=
  if (s.port p).nak then s else updPort p (fun ps => { ps with nak := true, nakDue := true, nakAt8 := s.d8 }) s

/-- Retransmit every buffered DATA flit from a sequence number on (03 R80, R81); where RPL_MAX retransmissions have passed without an acknowledgement advancing, the port enters RETRAIN instead. DESIGN CHOICE (log 107): RPL_MAX 0, below its range, acts as 1. -/
def retransmit (p : Fin 4) (q : BitVec 12) (s : State) : State :=
  let ps := s.port p
  if ps.replay.isEmpty ∨ flushOn s then s
  else if max 1 (fget s (HP p) HP_LTMR_RPL_MAX) ≤ ps.retries then
    toRetrain p false (updPort p (fun ps => { ps with trainOk := true, newFail := 0 }) s)
  else
    sendData p true (ps.replay.filter fun t => (t.fseq - q).toNat < 512)
      (updPort p (fun ps => { ps with resentFrom := some q, retries := ps.retries + 1, ackAt8 := s.d8 }) s)

/-- The oldest unacknowledged sequence number (03 R77). -/
def oldestSeq (ps : PortState) : BitVec 12 :=
  match ps.replay with
  | [] => ps.nextFseq
  | f :: _ => f.fseq

/-- An acknowledgement (03 R77): none where it is out of range. -/
def ackFree (p : Fin 4) (a : BitVec 12) (s : State) : Option State :=
  let ps := s.port p
  let b := oldestSeq ps
  if a = b - 1 then some s
  else if (a - b).toNat < ps.replay.length then
    some (updPort p (fun ps => { ps with replay := ps.replay.drop ((a - b).toNat + 1), retries := 0, resentFrom := none, ackAt8 := s.d8 }) s)
  else none

/-- A class's running total takes a new cumulative value; a step of half the counter's range or more is a stale value (03 R85). -/
def creditTake (k old new : Nat) : Nat :=
  let d := (new + 2 ^ k - old % 2 ^ k) % 2 ^ k
  if 2 * d < 2 ^ k then old + d else old

/-- The credit fields of a flit (03 R85). -/
def creditFields (p : Fin 4) (f : Flit) (s : State) : State :=
  let s := updPort p (fun ps => { ps with
    crX := { ps.crX with released := creditTake 16 ps.crX.released f.cumx.toNat },
    crT := { ps.crT with released := creditTake 8 ps.crT.released f.cumt.toNat },
    crC := { ps.crC with released := creditTake 8 ps.crC.released f.cumc.toNat } }) s
  fset (HP p) HP_CRED_NOW_CRX (creditsOf (fget s (HP p) HP_CRED_PEER_ADVX) (s.port p).crX) s

/-- The acknowledgement and credit fields of an intact DATA or IDLE flit (03 R71, R77, R80, R85): none where the acknowledgement is out of range. -/
def linkFields (p : Fin 4) (f : Flit) (s : State) : Option State :=
  (if f.ackk = 1 then ackFree p f.ackseq s
    else if f.ackk = 2 then
      (ackFree p f.ackseq s).map (retransmit p (f.ackseq + 1))
    else some s).map (creditFields p f)

/-- A NAK has been received, whatever its ACKSEQ (03 R106). -/
def nakSeen (p : Fin 4) (f : Flit) (s : State) : State := onlyIf (f.ackk == 2) (fbump (HP p) HP_NAK_RX_COUNT) s

/-- A DATA or IDLE flit of a port that trains: it is not acted on, and counted where it is in error (03 R74, R106). -/
def strayFlit (p : Fin 4) (f : Flit) (ft : Nat) (s : State) : State :=
  if !fecStream s p then s else
    let s := fecCount p f s
    if flitOk s p f ft then s else badFlit p s

/-- The LREQ field of an intact DATA or IDLE flit of an ACTIVE port (03 R71, R95, R97). BADLANE is a logical lane of the transmit direction. DESIGN CHOICE (log 106): a BADLANE at or beyond the trained width names no lane, and the flit then asks for a RETRAIN only. -/
def lreqField (p : Fin 4) (f : Flit) (s : State) : State :=
  if portSt s p ≠ PORT_ACTIVE then s
  else if f.lreq = 1 then
    let n := lanesOf (fget s (HP p) HP_STATUS_WIDTH)
    let s := updPort p (fun ps => { ps with trainOk := true }) s
    if f.badlane.toNat < n then laneFault p ((s.port p).group + revLane (fbit s (HP p) HP_STATUS_REV_TX) n f.badlane.toNat) s
    else toRetrain p false (updPort p (fun ps => { ps with newFail := 0 }) s)
  else if f.lreq = 2 then upgradeReq p s
  else s

/-- What the slots of DATA flits have built up (03 R75). -/
structure RxAcc where
  part : List Slot
  need : Nat
  reqs : List Req
  times : List (Slot × Bool)
  cons : List Slot
  xs : Nat
  ts : Nat
  cs : Nat
  bad : Bool

/-- A complete message goes to its class's queue. -/
def rxDone (rply : Bool) (m : List Slot) (a : RxAcc) : RxAcc :=
  match m with
  | [] => a
  | h :: r =>
    let n := slotBits h 127 124
    match opcOf n with
    | some o => { a with reqs := a.reqs ++ [⟨o, hdrOf h, r, false⟩], xs := a.xs + m.length }
    | none => if n = 8 then { a with times := a.times ++ [(h, rply)], ts := a.ts + 1 } else { a with cons := a.cons ++ [h], cs := a.cs + 1 }

/-- One slot of a DATA flit (03 R75): `som` starts a message, which must not interrupt another; other slots continue one. -/
def rxSlot (rply : Bool) (a : RxAcc) (x : Slot × Bool) : RxAcc :=
  if a.bad then a
  else if x.2 then
    if a.need ≠ 0 then { a with bad := true } else
      match msgLen x.1 with
      | none => { a with bad := true }
      | some n => if n = 1 then rxDone rply [x.1] a else { a with part := [x.1], need := n - 1 }
  else if a.need = 0 then { a with bad := true }
  else if a.need = 1 then rxDone rply (a.part ++ [x.1]) { a with part := [], need := 0 }
  else { a with part := a.part ++ [x.1], need := a.need - 1 }

/-- The slots of a DATA flit before PADFROM, with their SOM bits. -/
def flitMsgSlots (f : Flit) : List (Slot × Bool) :=
  (f.slots.toList.zipIdx.map fun x => (x.1, bitOf f.som.toNat x.2)).take f.padfrom.toNat

/-- Slots a message in progress will have taken of each class when it is begun: credits count from its beginning (03 R85). -/
def begunX (part : List Slot) (need : Nat) : Nat := if need = 0 then 0 else part.length + need

/-- Deliver the slots of an in-order DATA flit (03 R75, R79, R87). -/
def deliver (p : Fin 4) (f : Flit) (s : State) : State :=
  let ps := s.port p
  let a0 : RxAcc := ⟨ps.part, ps.partNeed, [], [], [], 0, 0, 0, false⟩
  let a := (flitMsgSlots f).foldl (rxSlot f.rply) a0
  let sentX := ps.rxX.sent + a.xs
  let tooMany := 16384 + ps.rxX.released < sentX + begunX a.part a.need ∨ 32 + ps.rxT.released < ps.rxT.sent + a.ts ∨ 64 + ps.rxC.released < ps.rxC.sent + a.cs
  if a.bad ∨ tooMany ∨ (f.padfrom.toNat < 15 ∧ a.need ≠ 0) then protocolError p s else
    updPort p (fun ps => { ps with
      part := a.part, partNeed := a.need, expect := ps.expect + 1, nak := false, nakDue := false, ackSeen := true,
      rxX := { ps.rxX with sent := sentX }, rxT := { ps.rxT with sent := ps.rxT.sent + a.ts }, rxC := { ps.rxC with sent := ps.rxC.sent + a.cs },
      intake := ps.intake ++ a.reqs, arrived := ps.arrived ++ a.reqs.map (fun r => (r, s.ns)), timeQ := ps.timeQ ++ a.times.map (fun x => (x.1, x.2, s.d8)), conQ := ps.conQ ++ a.cons }) s

/-- What follows the fields of a received flit: its LREQ, the flits that the port sends, and QUIET where it waits for this. -/
def afterFlit (p : Fin 4) (f : Flit) (s : State) : State := quietCheck p (pump p (lreqField p f s))

/-- DATA_FLIT (03 R79): delivered, discarded as a replay overlap, or the start of a NAK episode; its other fields are processed. -/
def execDataFlit (port : Fin 4) (f : Flit) (s : State) : Host.Outcome State Fault Refusal :=
  .next <|
    if portSt s port ≠ PORT_ACTIVE then strayFlit port f 1 s else
    let s := fecCount port f s
    if !flitOk s port f 1 then pump port (startNak port (badFlit port s)) else
    let s := nakSeen port f s
    match linkFields port f s with
    | none => protocolError port s
    | some s =>
      let e := (s.port port).expect
      afterFlit port f (if f.fseq = e then deliver port f s else if (e - f.fseq).toNat ≤ 512 then s else startNak port s)

/-- IDLE_FLIT (03 R72, R74). -/
def execIdleFlit (port : Fin 4) (f : Flit) (s : State) : Host.Outcome State Fault Refusal :=
  .next <|
    if portSt s port ≠ PORT_ACTIVE then strayFlit port f 2 s else
    let s := fecCount port f s
    if !flitOk s port f 2 then badFlit port s else
    let s := nakSeen port f s
    match linkFields port f s with
    | none => protocolError port s
    | some s => afterFlit port f s

/-! ### Training flits -/

/-- The faults of a training record (03 R90). DESIGN CHOICE (log 112): the width being tried, at or beyond which no LANEID may lie, is that of the receiving port, not the record's own TWIDTH. -/
def recBad (s : State) (p : Fin 4) (t : TrainRec) : Bool :=
  let ts := t.tstate.toNat
  !(ts == 3 || ts == 4 || ts == 6 || ts == 7) || t.twidth.toNat == 3
    || (ts == 4 && (t.advx.toNat < 1024 || 16384 < t.advx.toNat || t.advt.toNat < 8 || 32 < t.advt.toNat || t.advc.toNat < 16 || 64 < t.advc.toNat))
    || lanesOf (fget s (HP p) HP_STATUS_WIDTH) ≤ t.laneid.toNat

/-- The measured pipeline latencies of a trained port (03 R101): free values. -/
def measurePipe (p : Fin 4) (s : State) : State :=
  let (f1, s) := takeFree s
  let (f2, s) := takeFree s
  fset (HP p) HP_PIPE_RX_LAT f1 (fset (HP p) HP_PIPE_TX_LAT f2 s)

/-- INIT ends and the port becomes ACTIVE (03 R84, R93, R101, R108): after a lossless training every buffered DATA flit is sent again, else the epoch and the credits that INIT agreed come into force. DEGRADED says that lane faults keep the width below WIDTH_MAX (03 R105). DESIGN CHOICE (log 106): lane_degrade names the physical lane. -/
def toActive (p : Fin 4) (t : TrainRec) (s : State) : State :=
  let ps := s.port p
  let w := fget s (HP p) HP_STATUS_WIDTH
  let s := measurePipe p s
  let s := fset (HP p) HP_STATUS_RATE_NOW (if ps.rateTry then 1 else 0) (fset (HP p) HP_STATUS_TRN_FAIL 0 s)
  let s := updPort p (fun ps => { ps with lossless := false, upgrade := false, trainOk := false, newFail := 0, initSeen := 0, ackAt8 := s.d8 }) s
  let s := setPortSt p PORT_ACTIVE s
  if ps.lossless then
    let degraded := decide (w < ps.widthWas) && ps.newFail != 0
    let s := fsetB (HP p) HP_STATUS_DEGRADED (decide (w < ps.widthTry) && (degraded || fbit s (HP p) HP_STATUS_DEGRADED)) s
    let s := fbump (HP p) HP_RETRAIN_LOSSLESS s
    let lane := ((List.range 16).find? fun i => bitOf ps.newFail.toNat i).getD 0
    let s := if degraded then emit "lane_degrade" [("port", .n p), ("lane", .n lane), ("width", .n (lanesOf w))] (fbump (HP p) HP_RETRAIN_DEGRADE s)
      else if ps.widthWas < w then emit "lane_upgrade" [("port", .n p), ("width", .n (lanesOf w))] s else s
    quietCheck p (pump p (tunnelUp p (sendData p true ps.replay s)))
  else
    let best := match bestGroup (fget s (HP p) HP_LANES_GOOD) 0 16 ps.widthTry with
      | some x => x.2
      | none => 0
    let s := fsetB (HP p) HP_STATUS_DEGRADED (decide (w < ps.widthTry) && decide (best < ps.widthTry)) s
    let e := (fget s (HP p) HP_STATUS_EPOCH + 1) % 8
    let s := fset (HP p) HP_STATUS_EPOCH e s
    let s := fset (HP p) HP_CRED_PEER_ADVX t.advx.toNat (fset (HP p) HP_CRED_PEER_ADVT t.advt.toNat (fset (HP p) HP_CRED_PEER_ADVC t.advc.toNat
      (fset (HP p) HP_CRED_NOW_CRX t.advx.toNat s)))
    let s := emit "port_up" [("port", .n p), ("width", .n (lanesOf w)), ("rate", .n (rateNo (fget s (HP p) HP_STATUS_RATE_NOW))), ("epoch", .n e)] s
    pump p (tunnelUp p s)

/-- A record of INIT agrees with the training: its rate, the epoch that it echoes, and whether it is lossless (03 R66, R89). DESIGN CHOICE (log 112): a record that does not agree is not counted. -/
def recAgrees (s : State) (p : Fin 4) (t : TrainRec) : Bool :=
  t.trate == (s.port p).rateTry && t.tepoch.toNat == epochNow s p && t.lossless == (s.port p).lossless

/-- One intact INIT record; the eighth in a row ends INIT, once 8 have been sent (03 R91, R93). In a lossless training NEXTRX must be in the range of 03 R77. -/
def initRecord (p : Fin 4) (t : TrainRec) (s : State) : State :=
  if !recAgrees s p t ∨ flushOn s then s else
  let s := updPort p (fun ps => { ps with initSeen := ps.initSeen + 1 }) s
  if (s.port p).initSeen < 8 ∨ (s.port p).initSent < 8 then s
  else if (s.port p).lossless then
    match ackFree p (t.nextrx - 1) s with
    | none => portReset p "retrain" s
    | some s' => toActive p t (updPort p (fun ps => { ps with resentFrom := if ps.replay.isEmpty then none else some t.nextrx }) s')
  else toActive p t s

/-- The lanes of the tried group, physical, that the peer's LGOOD lacks: LGOOD tells of the transmit direction (03 R89). -/
def peerBad (s : State) (p : Fin 4) (t : TrainRec) : Nat :=
  let n := lanesOf (fget s (HP p) HP_STATUS_WIDTH)
  ((List.range n).map fun l => if bitOf t.lgood.toNat l then 0 else 2 ^ ((s.port p).group + revLane (fbit s (HP p) HP_STATUS_REV_TX) n l)).sum

/-- ALIGN (03 R91): both sides agree a width whose lanes are good at both ends, and INIT begins. Lanes that the peer reports without lock at the width being tried are no longer taken as good. DESIGN CHOICE (log 112): a lane outside the tried group, of which LGOOD says nothing, counts as good in both directions by its receive lock alone. -/
def alignRecord (p : Fin 4) (t : TrainRec) (good : BitVec 16) (rev : Bool) (s : State) : State :=
  let s := fsetB (HP p) HP_STATUS_REV_RX rev s
  let bad := if t.twidth.toNat = fget s (HP p) HP_STATUS_WIDTH then peerBad s p t else 0
  let both := Nat.land (Nat.land (s.port p).trnGood.toNat good.toNat) (0xFFFF - bad)
  match bestGroup both 0 16 (min (s.port p).widthTry t.twidth.toNat) with
  | none => s
  | some (g, w) =>
    let s := fset (HP p) HP_STATUS_WIDTH w (updPort p (fun ps => { ps with group := g, trnGood := BitVec.ofNat 16 both }) s)
    if t.twidth.toNat = w ∧ groupGood t.lgood.toNat 0 (lanesOf w) then
      let s := setPortSt p PORT_INIT (fset (HP p) HP_LANES_GOOD both (updPort p (fun ps => { ps with initSeen := 0, initSent := 0, fecPos := 0 }) s))
      if t.tstate = 4 then initRecord p t s else s
    else s

/-- The re-test of a RETRAIN (03 R96, R97): `good` are the physical lanes that pass it. ALIGN follows. An upgrade takes the widest good group up to the WIDTH_MAX of the last DETECT (03 R103). -/
def retest (p : Fin 4) (good : BitVec 16) (s : State) : State :=
  let ps := s.port p
  let mask := groupMask s p
  let f := Nat.lor (Nat.land mask (0xFFFF - good.toNat)) (Nat.land mask ps.newFail.toNat)
  let s := updPort p (fun ps => { ps with trnGood := good, rtPhase := .align }) s
  if f ≠ 0 then retrainFail p f s
  else if ps.upgrade then
    let s := fset (HP p) HP_LANES_GOOD good.toNat s
    match bestGroup good.toNat 0 16 ps.widthTry with
    | some (g, w') => if fget s (HP p) HP_STATUS_WIDTH < w' then
        fset (HP p) HP_STATUS_WIDTH w' (updPort p (fun ps => { ps with group := g }) s) else s
    | none => s
  else s

/-- ALIGN of a RETRAIN (03 R91): lanes that the peer reports without lock fail their re-test in the transmit direction (03 R95), or leave the width of an upgrade as it was (03 R97); a narrower width that the peer tries is followed. -/
def realign (p : Fin 4) (t : TrainRec) (s : State) : State :=
  let ps := s.port p
  let w := fget s (HP p) HP_STATUS_WIDTH
  let bad := if t.twidth.toNat = w then peerBad s p t else 0
  if bad ≠ 0 then
    if ps.upgrade && decide (ps.widthWas < w) then
      fset (HP p) HP_STATUS_WIDTH ps.widthWas (fset (HP p) HP_LANES_GOOD (Nat.land (fget s (HP p) HP_LANES_GOOD) (0xFFFF - bad))
        (updPort p (fun ps => { ps with group := ps.groupWas }) s))
    else retrainFail p (Nat.lor ps.newFail.toNat bad) s
  else if t.twidth.toNat = w then
    let s := updPort p (fun ps => { ps with rtPhase := .init, initSeen := 0, initSent := 0, fecPos := 0 }) s
    if t.tstate = 4 then initRecord p t s else s
  else
    match bestGroup (groupMask s p) ps.group (lanesOf w) (min w t.twidth.toNat) with
    | some (g, w') => fset (HP p) HP_STATUS_WIDTH w' (updPort p (fun ps => { ps with group := g }) s)
    | none => s

/-- A TRAIN flit's record in RETRAIN (03 R91): the re-test, then ALIGN, then INIT. -/
def retrainRecord (p : Fin 4) (t : TrainRec) (good : BitVec 16) (s : State) : State :=
  match (s.port p).rtPhase with
  | .test => if t.tstate = 3 ∨ t.tstate = 6 then retest p good s else s
  | .align => if t.tstate = 3 ∨ t.tstate = 4 then realign p t s else s
  | .init => if t.tstate = 4 then initRecord p t s else s

/-- A TRAIN flit as a flit: intact, of its type, with no fault of 03 R74. -/
def trainOkFlit (s : State) (p : Fin 4) (f : Flit) : Bool := flitOk s p f 14

/-- A port that trains in ALIGN, INIT or RETRAIN goes on sending TRAIN flits (03 R91). -/
def trainReply (p : Fin 4) (s : State) : State :=
  let st := portSt s p
  onlyIf (st == PORT_ALIGN || st == PORT_INIT || st == PORT_RETRAIN) (sendTrain p) s

/-- TRAIN_FLIT (03 R89 to R97, R99): slots 0 and 1 hold the record. `lock` are the physical lanes on which the receiver holds lock, `pass` those that pass the re-test, and `rev` whether the receive direction is lane-reversed. DESIGN CHOICE (log 112): the acknowledgement, credit, LREQ and BADLANE fields of a TRAIN flit's own header are not acted on, and in INIT an intact TRAIN flit of another TSTATE is neither counted nor starts the count of 8 again. -/
def execTrainFlit (port : Fin 4) (f : Flit) (lock pass : BitVec 16) (rev : Bool) (s : State) : Host.Outcome State Fault Refusal :=
  .next <|
    let st := portSt s port
    let t := recOf f
    if !fecStream s port then s else
    let s := fecCount port f s
    if !trainOkFlit s port f ∨ recBad s port t then
      trainReply port (badFlit port (if st = PORT_ACTIVE then s else updPort port (fun ps => { ps with initSeen := 0 }) s))
    else if st = PORT_ACTIVE then
      if (s.port port).trainOk then toRetrain port false (updPort port (fun ps => { ps with newFail := 0 }) s) else protocolError port s
    else trainReply port <|
      if st = PORT_ALIGN then
        if t.tstate = 3 ∨ t.tstate = 4 then alignRecord port t lock rev s else s
      else if st = PORT_INIT then
        if t.tstate = 4 then initRecord port t s else s
      else retrainRecord port t pass s

/-! ### Timers and training events -/

/-- A CK_LINKn cycle at 800 MHz in eighths of a ns (03 R91). -/
def LINK8 : Nat := 10

/-- NAK_TIMEOUT (03 R79): the NAK is sent once more. DESIGN CHOICE (log 107): NAK_TMO below its range acts as 64. -/
def execNakTimeout (port : Fin 4) (s : State) : Host.Outcome State Fault Refusal :=
  .next <|
    if portSt s port = PORT_ACTIVE ∧ (s.port port).nak then
      let s := advanceTo8 ((s.port port).nakAt8 + LINK8 * max 64 (fget s (HP port) HP_LTMR_NAK_TMO)) s
      pump port (updPort port (fun ps => { ps with nakAt8 := s.d8, nakDue := true }) s)
    else s

/-- ACK_TIMEOUT (03 R81): a retransmission that it drives is counted (03 R106). DESIGN CHOICE (log 107): ACK_TMO below its range acts as 256. -/
def execAckTimeout (port : Fin 4) (s : State) : Host.Outcome State Fault Refusal :=
  .next <|
    if portSt s port = PORT_ACTIVE ∧ !(s.port port).replay.isEmpty ∧ !flushOn s then
      let s := advanceTo8 ((s.port port).ackAt8 + LINK8 * max 256 (fget s (HP port) HP_LTMR_ACK_TMO)) s
      retransmit port (oldestSeq (s.port port)) (onlyIf (decide ((s.port port).retries < max 1 (fget s (HP port) HP_LTMR_RPL_MAX))) (fbump (HP port) HP_RPL_TMO_COUNT) s)
    else s

/-- DETECT_LOCK (03 R91): `good` are the lanes with pattern lock for 16,384 cycles, `inv` those whose polarity is corrected. -/
def execDetectLock (port : Fin 4) (good inv : BitVec 16) (s : State) : Host.Outcome State Fault Refusal :=
  .next <|
    if portSt s port = PORT_DETECT then
      match bestGroup good.toNat 0 16 (s.port port).widthTry with
      | none => s
      | some _ =>
        let s := advanceTo8 ((s.port port).stAt8 + LINK8 * 16384) s
        setPortSt port PORT_EQUALISE (fset (HP port) HP_LANES_INV inv.toNat (updPort port (fun ps => { ps with trnGood := good }) s))
    else s

/-- EQUALISE_DONE (03 R91): `good` are the lanes that held lock. What the peer will report of the transmit direction's reversal has no field in its record: a free value (log 18). -/
def execEqualiseDone (port : Fin 4) (good : BitVec 16) (s : State) : Host.Outcome State Fault Refusal :=
  .next <|
    if portSt s port = PORT_EQUALISE then
      let g0 := (s.port port).trnGood &&& good
      match bestGroup g0.toNat 0 16 (s.port port).widthTry with
      | none => s
      | some (g, w) =>
        let s := advanceTo8 ((s.port port).stAt8 + LINK8 * 2000000) s
        let (k, s) := takeFree s
        let s := fset (HP port) HP_STATUS_REV_TX k (updPort port (fun ps => { ps with trnGood := g0, group := g, eqKept := true, fecPos := 0 }) s)
        sendTrain port (setPortSt port PORT_ALIGN (fset (HP port) HP_STATUS_WIDTH w s))
    else s

/-- TRAINING_TIMEOUT (03 R91, R92). -/
def execTrainingTimeout (port : Fin 4) (s : State) : Host.Outcome State Fault Refusal :=
  .next <|
    let st := portSt s port
    let lim := if st = PORT_DETECT then 80000000 else if st = PORT_EQUALISE then 40000000 else if st = PORT_RETRAIN then 4000000 else 800000
    if st = PORT_RETRAIN then portReset port "retrain" (advanceTo8 ((s.port port).stAt8 + LINK8 * lim) s)
    else if st = PORT_DETECT ∨ st = PORT_EQUALISE ∨ st = PORT_ALIGN ∨ st = PORT_INIT then
      let s := advanceTo8 ((s.port port).stAt8 + LINK8 * lim) s
      let n := fget s (HP port) HP_STATUS_TRN_FAIL + 1
      let s := fset (HP port) HP_STATUS_TRN_FAIL (min n 3) s
      if max 1 (fget s (HP port) HP_CTL_TRN_TRIES) ≤ n then
        setPortSt port PORT_DOWN (fset (HP port) HP_STATUS_TRN_TMO 1
          (irq GLB_IRQ_STAT_PORT_DOWN (emit "port_down" [("port", .n port), ("cause", .s "training")] s)))
      else toDetect port s
    else s

/-- LANE_SIGNAL_LOSS (03 R95): `lane` is a physical lane. -/
def execLaneSignalLoss (port : Fin 4) (lane : Fin 16) (s : State) : Host.Outcome State Fault Refusal :=
  .next (laneFault port lane (if portSt s port = PORT_ACTIVE then elapse (LINK8 * 64) s else s))

/-- LANE_SER_WINDOW (03 R95): lanes above SER_TH are failed, and the counts start again. -/
def execLaneSerWindow (port : Fin 4) (s : State) : Host.Outcome State Fault Refusal :=
  .next <|
    let th := fget s (HP port) HP_LANECFG_SER_TH
    let weak := (List.finRange 16).filter fun l => decide (th < (s.port port).ser[l])
    let s := updPort port (fun ps => { ps with ser := Vector.replicate 16 0 }) s
    if portSt s port = PORT_ACTIVE then forAll weak (fun l s => laneFault port l s) s else s

/-- PORT_RESET, by HPn_CMD.PORT_RESET (03 R98, R104). -/
def execPortReset (port : Fin 4) (s : State) : Host.Outcome State Fault Refusal :=
  .next (busWr (HP port) (portReset port "command") s)

/-- HPn_CMD.RETRAIN (03 R104): in ACTIVE, a lossless RETRAIN at the current width. -/
def retrainReq (port : Fin 4) (s : State) : State :=
  if portSt s port = PORT_ACTIVE then toRetrain port false (updPort port (fun ps => { ps with newFail := 0, trainOk := true }) s) else s

/-- HPn_CMD.UPGRADE (03 R97, R104). -/
def upgradeCmd (port : Fin 4) (s : State) : State := upgradeReq port (updPort port (fun ps => { ps with newFail := 0 }) s)

/-- RETRAIN (03 R104): in ACTIVE, a lossless RETRAIN at the current width. -/
def execRetrain (port : Fin 4) (s : State) : Host.Outcome State Fault Refusal :=
  .next (busWr (HP port) (retrainReq port) s)

/-- UPGRADE, by HPn_CMD.UPGRADE (03 R97, R104). -/
def execUpgrade (port : Fin 4) (s : State) : Host.Outcome State Fault Refusal :=
  .next (busWr (HP port) (upgradeCmd port) s)

/-- EN is set or cleared (03 R103). DESIGN CHOICE (log 108): a port that begins to train so has no earlier timeouts. -/
def setPortEn (p : Fin 4) (en : Bool) (s : State) : State :=
  let was := fbit s (HP p) HP_CTL_EN
  let s := fsetB (HP p) HP_CTL_EN en s
  if en && !was then (if portSt s p = PORT_DOWN then toDetect p (fset (HP p) HP_STATUS_TRN_FAIL 0 s) else s)
  else if !en && was then portReset p "command" s
  else s

/-- PORT_ENABLE (03 R103). -/
def execPortEnable (port : Fin 4) (en : Bool) (s : State) : Host.Outcome State Fault Refusal :=
  .next (busWr (HP port) (setPortEn port en) s)

/-- TUN_EN is written (03 R102): discarded while another port has it. -/
def setTunEn (p : Fin 4) (en : Bool) (s : State) : State :=
  if en then
    if allPorts.any fun q => q ≠ p && fbit s (HP q) HP_CTL_TUN_EN then fset (HP p) HP_STATUS_TUN_REJ 1 s
    else
      let s := fset (HP p) HP_CTL_TUN_EN 1 s
      if portSt s p = PORT_ACTIVE then tunnelUp p s else s
  else tunFollow p (fset (HP p) HP_CTL_TUN_EN 0 (tunnelDown p s))

/-- TUNNEL_ENABLE (03 R102). -/
def execTunnelEnable (port : Fin 4) (en : Bool) (s : State) : Host.Outcome State Fault Refusal :=
  .next (busWr (HP port) (setTunEn port en) s)

/-- TX_PLL_LOCK_LOSS (03 R98, 02 R64). -/
def execTxPllLockLoss (port : Fin 4) (s : State) : Host.Outcome State Fault Refusal :=
  .next <|
    if !bitOf (fget s GLB GLB_CLKSTAT_LINK_LOCK) port.val then s else
    let s := fset GLB GLB_CLKSTAT_LOCK_LOSS 1
      (fset GLB GLB_CLKSTAT_LINK_LOCK (Nat.land (fget s GLB GLB_CLKSTAT_LINK_LOCK) (0xF - 2 ^ port.val)) s)
    portReset port "pll" s

/-! ### TIME (04 R131) -/

/-- T2 of a TIME message that was unpacked at `t8`: that instant less HPn_PIPE.RX_LAT, in eighths of a ns, modulo 2^64 (04 R131). -/
def stampT2 (s : State) (p : Fin 4) (t8 : Nat) : Nat := (t8 + 2 ^ 64 - fget s (HP p) HP_PIPE_RX_LAT) % 2 ^ 64

/-- TIME: the port answers from its DTIME copy with T2, and with T3 once the response's flit is formed (04 R118, R131), while it is ACTIVE. The credits of a request that arrived in a flit are released; one that is not waiting counts as unpacked now. -/
def execTime (port : Fin 4) (slot : Slot) (rply : Bool) (s : State) : Host.Outcome State Fault Refusal :=
  .next <|
    if portSt s port ≠ PORT_ACTIVE ∨ slotBits slot 127 124 ≠ 8 then s else
    let had := (s.port port).timeQ.find? fun x => x.1 == slot && x.2.1 == rply
    let t8 := match had with
      | some x => x.2.2
      | none => s.d8
    let r0 : Slot := BitVec.ofNat 128 (8 * 2 ^ 124 + slotBits slot 123 112 * 2 ^ 112 + (if rply then 2 ^ 111 else 0) + slotBits slot 63 0)
    let r1 : Slot := BitVec.ofNat 128 (stampT2 s port t8 * 2 ^ 64)
    let s := updPort port (fun ps => { ps with
      timeQ := ps.timeQ.eraseP fun x => x.1 == slot && x.2.1 == rply,
      rxT := if had.isSome then { ps.rxT with released := ps.rxT.released + 1 } else ps.rxT,
      txT := ps.txT ++ [[r0, r1]] }) s
    pump port (fbump TXN TXN_TIME_CNT_COUNT s)

end Sys2Proof.Machine
end

