-- ==== Sys2Proof/Machine/Journal.lean ====
section
/-! DEFINITION. Stream records, the journal, responses and outcomes (01 R8 to R30, R539, 04 R115 to R133). -/

namespace Sys2Proof.Machine

/-! ### Fingerprints and deadlines -/

/-- Slot 0 with TAG, STREAM, SEQ, DEADLINE, NDF and the reserved bits at 0, rebuilt from the parts that 04 R114 covers. -/
def fpSlot0 (o : Opc) (h : Hdr) : Slot :=
  let a := h.arg.toNat
  let sub := h.sub.toNat
  let (arg, sub) := match o with
    | .rd | .wr | .wrp => (a, sub)
    | .add => (a, sub)
    | .enq => (a % 2 ^ 31, sub)
    | .deq => (a % 2 ^ 24, sub % 2)
    | .walk => (a % 2 ^ 18, sub)
    | .sync => (0, sub)
  BitVec.ofNat 128 (o.code * 2 ^ 124 + h.man.toNat * 2 ^ 76 + arg * 2 ^ 7 + sub)

/-- The slots after slot 0 with their reserved bits at 0 (04 R111, R114, 07 R216). -/
def fpBody (o : Opc) (body : List Slot) : List Slot :=
  match o with
  | .add => body.map fun x => x &&& BitVec.ofNat 128 ((2 ^ 64 - 1) * 2 ^ 64)
  | _ => body

/-- The fingerprint of a request: CRC-32C over its slots with the excluded bits at 0 (04 R114). -/
def fingerprint (r : Req) : Word :=
  BitVec.ofNat 32 (crc32c ((fpSlot0 r.opc r.hdr :: fpBody r.opc r.slots).flatMap slotBytes))

/-- The deadline D in ns and whether it is past at intake, for a DEADLINE read at DTIME t (04 R128). -/
def deadlineOf (t : Nat) (dl : BitVec 32) : Nat × Bool :=
  let d := (dl.toNat + 2 ^ 32 - t % 2 ^ 32) % 2 ^ 32
  if d < 2 ^ 31 then (t + d, false) else (t, true)

/-! ### Responses -/

/-- The INFO field of a final fault (04 R123). -/
def faultInfo (reason ch : Nat) : Nat := reason + ch * 16 + 256

/-- A final response (04 R117, R123, R124). -/
def finalResp (o : Opc) (t : BitVec 12) (strm : BitVec 12) (seq : BitVec 16) (dup : Bool) (man : Option (BitVec 8)) (f : Final) (data : List Slot) : Resp :=
  match f.fault with
  | some (r, c) => ⟨4, t, strm, seq, BitVec.ofNat 4 o.code, dup, false, 5, BitVec.ofNat 64 (faultInfo r.toNat c.toNat), [], man⟩
  | none => ⟨if f.late then 3 else 2, t, strm, seq, BitVec.ofNat 4 o.code, dup, f.poison, 0, f.info,
      if f.poison then data.map (fun _ => 0) else data, man⟩

/-- Record the most recent refusal (04 R137). -/
def lastRef (p : Fin 4) (strm : BitVec 12) (code sub : Nat) (s : State) : State :=
  rgSet (TXN + TXN_LASTREF_CODE.off) (BitVec.ofNat 32 (code + p.val * 16 + strm.toNat * 64 + sub * 2 ^ 18)) s

/-- Count a refusal (04 R137). -/
def countRef (code : Nat) (s : State) : State := fbump TXN (TXN_REF_CNT_COUNT.nth (code - 1)) s

/-- The slots of a request that has left the intake buffer are released (03 R86). -/
def releaseX (p : Fin 4) (r : Req) (s : State) : State :=
  if (s.port p).intake.contains r then
    updPort p (fun ps => { ps with
      intake := ps.intake.erase r,
      arrived := ps.arrived.eraseP fun x => x.1 = r,
      rxX := if r.void then ps.rxX else { ps.rxX with released := ps.rxX.released + 1 + r.slots.length } }) s
  else s

/-- The DTIME in ns at which a request of a port was usable in the core: its arrival in the intake buffer; now, for a request that stands in none. -/
def arrivedNs (s : State) (p : Fin 4) (r : Req) : Nat := (((s.port p).arrived.find? fun x => x.1 = r).map (·.2)).getD s.ns

/-- A refusal at intake (04 R123): `sub` is the CAUSE, RES, WHY, REASON or KIND. -/
def refuseResp (p : Fin 4) (r : Req) (code info sub : Nat) (dup : Bool) (s : State) : State :=
  let s := releaseX p r (lastRef p r.hdr.stream code sub (countRef code s))
  if r.void then s else
    respond p ⟨4, r.hdr.tag, r.hdr.stream, r.hdr.seq, BitVec.ofNat 4 r.opc.code, dup, false, BitVec.ofNat 4 code, BitVec.ofNat 64 info, [], some r.hdr.man⟩ s

/-! ### Path probe (02 R65) -/

/-- Stamp k takes a DTIME in ns. -/
def probeStampAt (k t : Nat) (s : State) : State := rgSet (TXN + TXN_PROBE_STAMP_STAMP.off + 4 * k) (BitVec.ofNat 32 t) s

def probeStamp (k : Nat) (s : State) : State := probeStampAt k s.ns s

/-- An accepted request is captured where the probe is armed for it; `arr` is when it was usable in the core, `t` its classification, in ns. -/
def probeAccept (p : Fin 4) (o : Opc) (strm : BitVec 12) (seq : BitVec 16) (arr t : Nat) (s : State) : State :=
  if fbit s TXN TXN_PROBE_CTL_ARM ∧ fget s TXN TXN_PROBE_CTL_PORT = p.val
      ∧ (fget s TXN TXN_PROBE_CTL_OPC = 15 ∨ fget s TXN TXN_PROBE_CTL_OPC = o.code) then
    let s := probeStampAt 0 arr (probeStampAt 1 t s)
    let s := probeStamp 2 (probeStamp 3 s)
    let s := rgSet (TXN + TXN_PROBE_ID_SEQ.off) (BitVec.ofNat 32 (seq.toNat + strm.toNat * 2 ^ 16)) s
    { fset TXN TXN_PROBE_CTL_ARM 0 s with probe := some ⟨p, strm, seq⟩ }
  else s

/-- The service point of the followed request, with the DTIME in ns that decides its deadline (02 R53, R65). -/
def probeService (p : Fin 4) (strm : BitVec 12) (seq : BitVec 16) (t : Nat) (s : State) : State :=
  if s.probe = some ⟨p, strm, seq⟩ then probeStampAt 4 t s else s

/-- The outcome of the followed request is recorded and sent. -/
def probeEnd (p : Fin 4) (strm : BitVec 12) (seq : BitVec 16) (s : State) : State :=
  if s.probe = some ⟨p, strm, seq⟩ then
    { fset TXN TXN_PROBE_CTL_DONE 1 (probeStamp 5 (probeStamp 6 s)) with probe := none }
  else s

/-! ### Stream records -/

/-- The window slot of a sequence number. -/
def winSlot (r : StreamRec) (q : BitVec 16) : Option WinSlot := r.win.find? fun w => w.seq = q

/-- Change the window slot of a sequence number. -/
def updWin (r : StreamRec) (q : BitVec 16) (f : WinSlot → WinSlot) : StreamRec :=
  { r with win := r.win.map fun w => if w.seq = q then f w else w }

/-- The window slot of a journal entry's request; that of a request accepted before its stream's record was emptied stands apart (01 R30). -/
def entrySlot (s : State) (e : JEntry) : Option WinSlot :=
  let r := s.strm e.port e.stream
  match e.orphan with
  | some k => (r.old.find? fun x => x.1 = k).map (·.2)
  | none => winSlot r e.seq

/-- The stream record with an entry's outcome: in the window, or, for a request accepted before the record was emptied, nowhere, since that outcome cannot be returned to a reissue (01 R30). -/
def recordFin (r : StreamRec) (e : JEntry) (f : Final) (walk : List Slot) : StreamRec :=
  match e.orphan with
  | some k => { r with old := r.old.filter fun x => x.1 ≠ k }
  | none => updWin r e.seq fun w => { w with fin := some f, walk := walk }

/-- The runs for reissues of a request that are numbered below `id` answer no more: a later reissue has been answered, and an earlier tag of the request receives no further message (01 R26). -/
def voidRuns (p : Fin 4) (strm : BitVec 12) (seq : BitVec 16) (id : Nat) (s : State) : State :=
  { s with
    caravans := s.caravans.map fun c => if c.port = p ∧ c.entry < id ∧ c.dup.any (fun x => x.stream = strm ∧ x.seq = seq) then { c with dup := c.dup.map fun x => { x with tag := none } } else c,
    que := { s.que with dups := s.que.dups.map fun d => if d.port = p ∧ d.stream = strm ∧ d.seq = seq ∧ d.id < id then { d with tag := none } else d } }

/-- A sequence number is accepted: N advances, the loss count and its consequences go, and the window takes the slot (01 R24, 04 R125). -/
def pushWin (r : StreamRec) (w : WinSlot) : StreamRec :=
  { r with n := r.n + 1, k := 0, resv := false, retryAt := none, win := (w :: r.win).take 32 }

/-- Every accepted request of a stream before sequence number q has its outcome recorded (04 R133). -/
def priorDone (r : StreamRec) (q : BitVec 16) : Bool :=
  r.win.all fun w => w.fin.isSome || (q - w.seq).toNat = 0 || 32768 ≤ (q - w.seq).toNat

/-- The counters of final responses: those of DONE and DONE_LATE leave out answers to reissues, that of REFUSE_FAULT does not (04 R137). -/
def countFinal (f : Final) (dup : Bool) (s : State) : State :=
  match f.fault with
  | some _ => countRef 5 s
  | none => if dup then s else fbump TXN (if f.late then TXN_LATE_CNT_COUNT else TXN_DONE_CNT_COUNT) s

/-- A SYNC whose predecessors all have outcomes reaches its service point (04 R133). -/
def syncService (p : Fin 4) (strm : BitVec 12) (s : State) : State :=
  let r := s.strm p strm
  match r.sync with
  | none => s
  | some y =>
    if priorDone r y.seq then
      let f : Final := { late := y.late || decide (y.d < s.ns) }
      let s := setStrm p strm { updWin r y.seq (fun w => { w with fin := some f }) with sync := none } s
      let s := countFinal f y.dup (probeService p strm y.seq s.ns s)
      let s := match y.tag with
        | some t => respond p (finalResp .sync t strm y.seq y.dup none f []) s
        | none => s
      probeEnd p strm y.seq s
    else s

/-! ### Rings -/

/-- The line weight on a ring (01 R22). -/
def ringWeight (r : Ring) : Nat := (r.entries.map JEntry.weight).sum

/-- FILL and its high-water mark follow the ring (01 R46). -/
def ringStat (c : Fin 16) (s : State) : State :=
  let w := ringWeight (s.ring c)
  fmax JRN (JRN_FILL_HWM.nth c) w (fset JRN (JRN_FILL_FILL.nth c) w s)

/-- The place of a ring slot among the ring's entries. -/
def entryIdx (r : Ring) (slot : Nat) : Nat := (slot + 4096 - r.head % 4096) % 4096

/-- The entry in a ring slot. -/
def getEntry (s : State) (c : Fin 16) (slot : Nat) : Option JEntry := (s.ring c).entries[entryIdx (s.ring c) slot]?

/-- The entry at a place of a ring is written to copy A, then to copy B (01 R17). -/
def writeCopies (r : Ring) (i : Nat) (f : JEntry → JEntry) : Ring :=
  match r.entries[i]? with
  | none => r
  | some e => { r with entries := r.entries.set i (f e), copyB := r.copyB.set i (f e) }

/-- Change the entry in a ring slot. -/
def updEntry (c : Fin 16) (slot : Nat) (f : JEntry → JEntry) (s : State) : State :=
  updRing c (fun r => writeCopies r (entryIdx r slot) f) s

/-- One copy of a ring slot is written over the other: copy B over copy A where `fromB` holds, else copy A over copy B (01 R539). -/
def copyOver (c : Fin 16) (slot : Nat) (fromB : Bool) (s : State) : State :=
  updRing c (fun r =>
    let i := entryIdx r slot
    if fromB then
      (match r.copyB[i]? with
        | some e => { r with entries := r.entries.set i e }
        | none => r)
    else
      match r.entries[i]? with
        | some e => { r with copyB := r.copyB.set i e }
        | none => r) s

/-- The macro group in which a copy of a channel's ring lies (01 R17). -/
def copyGroup (c : Fin 16) (b : Bool) : Nat := if b then (c.val + 2) % 4 else c.val % 4

/-- A change of an entry's state, which writes both copies (12 R352 JOURNAL). -/
def setEntrySt (c : Fin 16) (slot : Nat) (st : JState) (s : State) : State :=
  match getEntry s c slot with
  | none => s
  | some e => charge 0x08 1 (some e.man) (updEntry c slot (fun e => { e with st := st }) s)

/-- A new entry takes the ring's next slot. -/
def pushEntry (c : Fin 16) (e : JEntry) (s : State) : State × Nat :=
  let r := s.ring c
  let slot := (r.head + r.entries.length) % 4096
  (ringStat c (charge 0x08 1 (some e.man) (updRing c (fun r => { r with entries := r.entries ++ [e], copyB := r.copyB ++ [e], used := max r.used (slot + 1) }) s)), slot)

/-- An entry may retire once it is the oldest (01 R19). -/
def canRetire (e : JEntry) : Bool := e.recorded && e.durable && !e.twinLeft

/-- Retire the oldest entries that may (01 R19); `fuel` bounds their number. -/
def retireFuel : Nat → Fin 16 → State → State
  | 0, _, s => s
  | fuel + 1, c, s =>
    match (s.ring c).entries with
    | [] => s
    | e :: rest =>
      if canRetire e then
        retireFuel fuel c (charge 0x08 1 (some e.man) (updRing c (fun r => { r with head := (r.head + 1) % 4096, entries := rest, copyB := r.copyB.drop 1 }) s))
      else s

/-- Entries retire in ring order. -/
def retire (c : Fin 16) (s : State) : State := ringStat c (retireFuel (s.ring c).entries.length c s)

/-- The intake slots that an entry holds are released (06 R167). -/
def releaseSlots (c : Fin 16) (slot : Nat) (partner : Bool) (s : State) : State :=
  { s with arbs := s.arbs.map fun a => { a with
      held := a.held.filter fun h => !(h.home = c && h.entry = slot && h.partner = partner && h.kind != .background) } }

/-! ### Outcomes -/

/-- An accepted request has its outcome: it is recorded in the stream record unless one stands there, and the final response goes to the newest tag (01 R11, R25, R38, 04 R118). During replay, `quiet`, every tag is void, so only a reissue that has come meanwhile is answered, and an outcome that is not sent is not counted (01 R38). DESIGN CHOICE (log 126): outside replay, an outcome whose tag a port reset has voided is counted like one that is sent, as are its ACCEPT and a refusal (04 R137). The walk window keeps the results of a WALK (01 R29). The service point of a TWIN write whose home copy never left a command line is that of its partner copy (02 R62, R65). -/
def outcome (c : Fin 16) (slot : Nat) (f : Final) (data : List Slot) (quiet : Bool) (s : State) : State :=
  match getEntry s c slot with
  | none => s
  | some e =>
    if e.recorded then s else
    let r := s.strm e.port e.stream
    let s := updEntry c slot (fun e => { e with recorded := true }) s
    match entrySlot s e with
    | none => s
    | some w =>
      if w.fin.isSome then s else
      let s := setStrm e.port e.stream (recordFin r e f (if e.opc = .walk then data else [])) s
      let s := match e.served, e.twinAt with
        | none, some t => probeService e.port e.stream e.seq t s
        | _, _ => s
      let silent := quiet && w.tag.isNone
      let s := if silent then s else countFinal f w.dup s
      let s := match f.fault with
        | some (rs, _) => if silent then s else lastRef e.port e.stream 5 rs.toNat s
        | none => s
      let s := match w.tag with
        | some t => respond e.port (finalResp e.opc t e.stream e.seq w.dup (if w.dup then none else some e.man) f data) s
        | none => s
      syncService e.port e.stream (probeEnd e.port e.stream e.seq s)

/-- DONE or DONE_LATE for an entry by the DTIME of its service point (02 R54): for a TWIN write whose home copy was never issued, that of its partner copy. DESIGN CHOICE (log 109): both times are taken in whole ns, so a service point less than 1 ns after D counts as served in time. -/
def doneFor (e : JEntry) (info : BitVec 64) (poison : Bool) : Final :=
  { late := e.late || e.deferSent || (match e.served.or e.twinAt with | some t => decide (e.d < t) | none => false), info := info, poison := poison }

/-- The service point of an entry is now (02 R62). -/
def servePoint (c : Fin 16) (slot : Nat) (s : State) : State :=
  match getEntry s c slot with
  | none => s
  | some e => probeService e.port e.stream e.seq s.ns (updEntry c slot (fun e => { e with served := some s.ns }) s)

/-- A channel's DTIME copy in ns, which differs from core DTIME by at most two cycles of CK_CHn (02 R53): a free value within that bound. -/
def chCopyNs (ch : Fin 16) (s : State) : Nat × State :=
  let (f, s) := takeFree s
  let k := 128000 / mtsOf (s.chan ch).trnRate
  ((s.d8 + f % (2 * k + 1) - k) / 8, s)

/-- The service point in the domain of channel `ch` is judged by the channel's DTIME copy (02 R53). -/
def servePointCh (ch c : Fin 16) (slot : Nat) (s : State) : State :=
  match getEntry s c slot with
  | none => s
  | some e =>
    let (t, s) := chCopyNs ch s
    probeService e.port e.stream e.seq t (updEntry c slot (fun e => { e with served := some t }) s)

/-- The partner copy of a TWIN write leaves the command line of channel `ch`: the service point of the write where its home copy never leaves one (02 R62). -/
def twinPointCh (ch c : Fin 16) (slot : Nat) (s : State) : State :=
  match getEntry s c slot with
  | none => s
  | some _ =>
    let (t, s) := chCopyNs ch s
    updEntry c slot (fun e => { e with twinAt := some t }) s

/-- An accepted request ends with REFUSE_FAULT (04 R123, R124). -/
def faultEntry (c : Fin 16) (slot : Nat) (reason ch : Nat) (quiet : Bool) (s : State) : State :=
  outcome c slot { fault := some (BitVec.ofNat 4 reason, BitVec.ofNat 4 ch) } [] quiet (updEntry c slot (fun e => { e with durable := true, twinLeft := false }) s)

/-- A command that carries out a given entry's request. -/
def cmdOf (c : Fin 16) (slot : Nat) (x : Cmd) : Bool :=
  match x.src with
  | .req r e _ => r = c && e = slot
  | _ => false

/-- A command that holds its line's lock or ends one (09 R278). -/
def cmdLocks (x : Cmd) : Bool :=
  match x.src with
  | .req _ _ .rphase => true
  | .req _ _ .write => true
  | _ => false

/-- CHn_FILL follows the command line (09 R289). -/
def fillStat (c : Fin 16) (s : State) : State :=
  let n := (s.chan c).line.length
  fmax (CH c) CH_FILL_HWM n (fset (CH c) CH_FILL_FILL n s)

/-- The commands of an entry that has ended serve nothing from now on: those not yet issued are withdrawn, and their lines unlocked. -/
def killCmds (c : Fin 16) (slot : Nat) (s : State) : State :=
  let mine := cmdOf c slot
  let hit := allChans.filter fun c => (s.chan c).line.any mine
  forAll hit fillStat { s with chans := s.chans.map fun y =>
      let off := ((y.mergeQ ++ y.line ++ y.flight.map Flight.cmd).filter fun x => mine x && cmdLocks x).map Cmd.line
      { y with
        intake := y.intake.filter fun x => !mine x,
        mergeQ := y.mergeQ.filter fun x => !mine x,
        line := y.line.filter fun x => !mine x,
        locks := y.locks.filter fun l => !off.contains l,
        flight := y.flight.map fun f => if mine f.cmd then { f with cmd := { f.cmd with src := .gone } } else f } }

/-- An entry becomes LOST and its request ends with REFUSE_FAULT (01 R20, R42, R46). On a ring that waits for its replay it counts for that replay's event (01 R47). -/
def loseEntry (c : Fin 16) (slot : Nat) (reason : Nat) (quiet : Bool) (s : State) : State :=
  let s := onlyIf ((s.chan c).replayDue && !quiet) (updChan c (fun y => { y with rplLost := y.rplLost + 1 })) s
  fbump JRN JRN_LOST_CNT_COUNT (killCmds c slot (releaseSlots c slot false (releaseSlots c slot true
    (faultEntry c slot reason c.val quiet (setEntrySt c slot .lost s)))))

/-- Report an uncorrectable error of a journal copy, or of both (01 R45, R47, 07 R230). -/
def journalUe (c : Fin 16) (slot : Nat) (copy : String) (f : Fld) (s : State) : State :=
  emit "journal_ue" [("ch", .n c), ("entry", .n slot), ("copy", .s copy)] (fset JRN f 1 (fbumpN WAY WAY_UE_COUNT (if copy = "both" then 2 else 1) s))

/-- A step acts on an entry and reads both copies (01 R37, R539): copy A is used where neither is bad, whether they agree or not; else the good copy is used and written over the bad one, and an entry with two bad copies becomes LOST. The answer says whether the entry still stands. -/
def actEntry (errs : List JournalErr) (c : Fin 16) (slot : Nat) (quiet : Bool) (s : State) : State × Bool :=
  match errs.find? fun x => x.ring = c && x.entry.toNat = slot with
  | none => (s, true)
  | some x =>
    if x.badA && x.badB then
      (retire c (loseEntry c slot 3 quiet (journalUe c slot "both" JRN_ERR_UE_BOTH (fset JRN JRN_ERR_UE_A 1 (fset JRN JRN_ERR_UE_B 1 s)))), false)
    else if x.badA then (journalUe c slot "a" JRN_ERR_UE_A (copyOver c slot true s), true)
    else if x.badB then (journalUe c slot "b" JRN_ERR_UE_B (copyOver c slot false s), true)
    else (s, true)

end Sys2Proof.Machine
end

