-- ==== Sys2Proof/Machine/ConBase.lean ====
section
/-! DEFINITION. The console's lines and answers: line checks, the wrapper in which every verb runs, and the text of output lines (15 R432 to R450). -/

namespace Sys2Proof.Machine

/-! ### Text of output lines -/

/-- The bytes of a word. -/
def strBytes (w : String) : List Byte := w.toList.map fun c => BitVec.ofNat 8 c.toNat

/-- Decimal digits, least significant first; `fuel` bounds their number. -/
def decRev : Nat → Nat → List Byte
  | 0, _ => []
  | fuel + 1, n => BitVec.ofNat 8 (48 + n % 10) :: (if n / 10 = 0 then [] else decRev fuel (n / 10))

/-- A hexadecimal digit in upper case. -/
def hexDigit (n : Nat) : Byte := BitVec.ofNat 8 (if n < 10 then 48 + n else 55 + n)

/-- Hexadecimal digits, least significant first. -/
def hexRev : Nat → Nat → List Byte
  | 0, _ => []
  | fuel + 1, n => hexDigit (n % 16) :: (if n / 16 = 0 then [] else hexRev fuel (n / 16))

/-- Digits, least significant first, with zeros up to `d` of them. -/
def padHex (d : Nat) (l : List Byte) : List Byte := l ++ List.replicate (d - l.length) 48

/-- An underscore after every fourth digit from the right. -/
def groupHex : Nat → List Byte → List Byte
  | _, [] => []
  | k, b :: r => if k = 4 then 95 :: b :: groupHex 1 r else b :: groupHex (k + 1) r

/-- The bytes of a value. -/
def fvalBytes : FVal → List Byte
  | .n v => (decRev 40 v).reverse
  | .h v d => [48, 120] ++ (padHex d (hexRev 40 v)).reverse
  | .a v d => [48, 120] ++ (groupHex 0 (padHex d (hexRev 40 v))).reverse
  | .s w => strBytes w

/-- The bytes of an output line without its check and CR LF (15 R440). -/
def lineBytes (l : OutLn) : List Byte :=
  strBytes l.head ++ l.fields.flatMap fun f => 32 :: ((if f.1 = "" then [] else strBytes f.1 ++ [61]) ++ fvalBytes f.2)

/-- The bytes that go out for a line: with its check in strict mode, and CR LF (15 R436, R437, R440). -/
def outBytes (strict : Bool) (l : OutLn) : List Byte :=
  let b := lineBytes l
  let c := crc8 b
  b ++ (if strict then [32, 35, hexDigit (c / 16), hexDigit (c % 16)] else []) ++ [13, 10]

/-- The line of an event (15 R451). -/
def evLine (e : OutLn) : OutLn := ⟨"ev", ("", .s e.head) :: e.fields⟩

def okLn (fields : List (String × FVal)) : OutLn := ⟨"ok", fields⟩
def moreLn (fields : List (String × FVal)) : OutLn := ⟨"+", fields⟩

/-- An error answer (15 R450). -/
def erLn (code : Nat) (text : String) (fields : List (String × FVal)) : OutLn :=
  ⟨"er", ("", .n code) :: ("", .s text) :: fields⟩

/-! ### Line checks -/

/-- A line's characters in order. -/
def lineText (l : ConLine) : List Byte := l.chars.reverse.map ConByte.byte

/-- A hexadecimal digit's value. -/
def hexVal (b : Byte) : Option Nat :=
  let n := b.toNat
  if 48 ≤ n ∧ n ≤ 57 then some (n - 48) else if 65 ≤ n ∧ n ≤ 70 then some (n - 55) else if 97 ≤ n ∧ n ≤ 102 then some (n - 87) else none

/-- The line check of a line: the characters before it and the value it gives (15 R436). `rev` is the line with its last character first. -/
def checkOf (rev : List Byte) : Option (List Byte × Nat) :=
  match rev with
  | lo :: hi :: h :: sp :: rest =>
    if h = 35 ∧ sp = 32 then
      match hexVal hi, hexVal lo with
      | some a, some b => some (rest.reverse, a * 16 + b)
      | _, _ => none
    else none
  | _ => none

/-- The console is in strict mode (15 R437). -/
def strictMode (s : State) : Bool := fbit s CON CON_CTL_MODE

/-- The error that a line gets before its verb is read (15 R427, R429, R432, R433, R437). -/
def lineErr (strict : Bool) (l : ConLine) : Option OutLn :=
  if 0 < l.lost then some (erLn 108 "input overrun" [("lost", .n l.lost)])
  else if l.cut then some (erLn 109 "line lost" [])
  else if l.tooLong then some (erLn 103 "line too long" [])
  else match l.bad with
    | some b => some (erLn 104 "bad character" [("byte", .h b.toNat 2)])
    | none =>
      match checkOf (l.chars.map ConByte.byte) with
      | none => if strict then some (erLn 101 "check missing" []) else none
      | some (t, c) => if crc8 t = c then none else some (erLn 102 "check wrong" [])

/-- An answer is that of an error (15 R450). -/
def isErr (l : List OutLn) : Bool :=
  match l with
  | x :: _ => x.head == "er"
  | [] => false

/-- The answer's code. -/
def errCode (l : List OutLn) : Option Nat :=
  match l with
  | ⟨"er", ("", .n c) :: _⟩ :: _ => some c
  | _ => none

/-- The answer of a line begins to leave (15 R441), and is counted (15 R454). -/
def answer (l : List OutLn) (s : State) : State :=
  let s := fbump CON CON_LINES_COUNT s
  let s := onlyIf (isErr l) (fbump CON CON_ERRS_COUNT) s
  let s := onlyIf (errCode l == some 101 || errCode l == some 102) (fbump CON CON_CHKERR_COUNT) s
  { s with con := { s.con with ans := l } }

/-- The interpreter is busy with a `sleep` whose drain has not ended (14 R403), with a `sleep resume` that waits for the channels (14 R412), or with a line that waits for a snapshot or a sweep. -/
def sleepBusy (s : State) : Bool :=
  s.con.wait.isSome || s.pwr.wake == some .resuming
    || (match s.pwr.entry with
      | some (_, _, .drain) => true
      | _ => false)

/-- The interpreter executes one line completely and answers it (15 R441): `f` is the verb's effect and its answer. Nothing happens while the console is off or the answer before is still being sent. A completed line that fails its checks is answered with the error, and nothing is executed. -/
def runVerb (f : State → State × List OutLn) (s : State) : State :=
  if !consoleOn s || !s.con.ans.isEmpty || sleepBusy s then s else
    match s.con.line.bind (lineErr (strictMode s)) with
    | some e => answer [e] s
    | none => let r := f s; answer r.2 r.1

/-- A verb that answers one line. -/
def runVerb1 (f : State → State × OutLn) (s : State) : State := runVerb (fun s => let r := f s; (r.1, [r.2])) s

/-- `on` or `off`, and other pairs of words. -/
def word2 (b : Bool) (t f : String) : FVal := .s (if b then t else f)

end Sys2Proof.Machine
end

