-- ==== Sys2Proof/Machine/Ops.lean ====
section
/-! DEFINITION. The named operations over memory: lines of DRAM and of the Waystation, byte by byte, their canonical form, poison marks, and the address map from a device address to its one place (09 R265 to R276). -/

namespace Sys2Proof.Machine

/-! ### Lines -/

/-- Byte i of a line (04 R112). -/
def lineByte (l : Line) (i : Nat) : Byte := BitVec.ofNat 8 (l.toNat / 2 ^ (8 * i))

/-- The line whose bytes are given, byte 0 first. -/
def lineOf (l : List Byte) : Line := BitVec.ofNat 1024 (natLE l)

/-- The bytes of a line, byte 0 first. -/
def lineList (l : Line) : List Byte := (List.range 128).map (lineByte l)

/-- The line that eight data slots carry: slot j carries line bytes 16j to 16j + 15 (04 R112). -/
def slotsLine (l : List Slot) : Line := lineOf (l.flatMap slotBytes)

/-- The eight data slots of a line (04 R112). -/
def lineSlots (l : Line) : List Slot := (List.range 8).map fun j => BitVec.ofNat 128 (natBE ((List.range 16).map fun i => lineByte l (16 * j + i)))

/-- Counter k of a line, little-endian (04 R112). -/
def counterOf (l : Line) (k : Nat) : BitVec 64 := BitVec.ofNat 64 (l.toNat / 2 ^ (64 * k))

/-- A line with counter k replaced. -/
def setCounter (l : Line) (k : Nat) (v : BitVec 64) : Line :=
  BitVec.ofNat 1024 (l.toNat - (counterOf l k).toNat * 2 ^ (64 * k) + v.toNat * 2 ^ (64 * k))

/-- A line with the bytes that the enables select replaced (04 R111). -/
def mergeLine (base data : Line) (en : Slot) : Line :=
  lineOf ((List.range 128).map fun i => if bitOf en.toNat i then lineByte data i else lineByte base i)

/-! ### Cells -/

/-- What a byte that nothing has written reads as. -/
def emptyByte (_ : Nat) : Byte := 0

/-- One byte of a memory. -/
def cellGet (m : List Host.Cell) (a : Nat) : Byte := tblGet emptyByte m a

/-- A memory with one byte replaced, in canonical form. -/
def cellSet (m : List Host.Cell) (a : Nat) (b : Byte) : List Host.Cell := tblSet emptyByte m a b

/-- A memory with consecutive bytes replaced. -/
def cellsSet : List Host.Cell → Nat → List Byte → List Host.Cell
  | m, _, [] => m
  | m, a, b :: r => cellsSet (cellSet m a b) (a + 1) r

/-- The 128 bytes of a memory at an address as a line. -/
def cellLine (m : List Host.Cell) (a : Nat) : Line := lineOf ((List.range 128).map fun i => cellGet m (a + i))

/-- A memory is in canonical form. -/
abbrev Memory.wf (m : List Host.Cell) : Prop := tblWf emptyByte m = true

/-- Where line lam of channel c begins in `dram`. -/
def dramAddr (c : Fin 16) (lam : Nat) : Nat := c.val * 2 ^ 37 + lam * 128

/-- Read a DRAM line. -/
def dramLine (s : State) (c : Fin 16) (lam : Nat) : Line := cellLine s.dram (dramAddr c lam)

/-- Write a DRAM line. -/
def setDram (c : Fin 16) (lam : Nat) (l : Line) (s : State) : State := { s with dram := cellsSet s.dram (dramAddr c lam) (lineList l) }

/-- Every line of a channel reads as the all-zero line. -/
def dramClear (c : Fin 16) (s : State) : State := { s with dram := tblClear s.dram (dramAddr c 0) (dramAddr c 0 + 2 ^ 37) }

/-- Bytes `lo` to `hi` of channel q are copied to channel c. -/
def dramCopy (q c : Fin 16) (lo hi : Nat) (s : State) : State :=
  let src := s.dram.filter fun e => decide (dramAddr q 0 + lo ≤ e.1 ∧ e.1 < dramAddr q 0 + hi)
  { s with dram := src.foldl (fun m e => cellSet m (e.1 - dramAddr q 0 + dramAddr c 0) e.2) (tblClear s.dram (dramAddr c 0 + lo) (dramAddr c 0 + hi)) }

/-- Read a Waystation line. -/
def wayLine (s : State) (w : Nat) : Line := cellLine s.wmem (w * 128)

/-- Write a Waystation line. -/
def setWayLine (w : Nat) (l : Line) (s : State) : State := { s with wmem := cellsSet s.wmem (w * 128) (lineList l) }

/-! ### Geometry (09 R266, R267, R271) -/

def geoX8 (s : State) : Bool := fbit s GLB GLB_MAP_GEOM_WIDTH
def geoRanks (s : State) : Nat := if fbit s GLB GLB_MAP_GEOM_RANKS then 2 else 1

/-- DENS: 0 for 16 Gb, 1 for 24 Gb, 2 for 32 Gb; the value 3 is treated as 2 (09 R291). -/
def geoDens (s : State) : Nat := min 2 (fget s GLB GLB_MAP_GEOM_DENS)

/-- Devices of a rank (09 R265). -/
def geoDevs (s : State) : Nat := if geoX8 s then 9 else 18

/-- Rows of a bank (09 R267). -/
def geoRows (s : State) : Nat := match geoDens s with | 0 => 65536 | 1 => 98304 | _ => 131072

/-- Lines of a row (09 R267). -/
def geoCols (s : State) : Nat := if geoX8 s then 64 else 128

/-- Lines of a rank (09 R267): 32 banks of rows of lines. -/
def rankLines (s : State) : Nat := 32 * geoRows s * geoCols s

/-- N_ch (09 R267). -/
def chLines (s : State) : Nat := rankLines s * geoRanks s

/-- The lowest row bit, ROWB (09 R271). -/
def rowB (s : State) : Nat := 5 + (geoRanks s - 1) + (if geoX8 s then 6 else 7)

/-- The number of row bits (09 R271). -/
def rowBits (s : State) : Nat := if geoDens s = 0 then 16 else 17

/-! ### The loaded map (09 R269, R270) -/

/-- A channel is a member of the loaded map (09 R270). -/
def inMap (s : State) (c : Fin 16) : Bool := bitOf (fget s GLB GLB_MAP_MEMBERS_MEMBERS) c.val && fbit s GLB GLB_MAP_CTL_LOADED

def mapLoaded (s : State) : Bool := fbit s GLB GLB_MAP_CTL_LOADED

/-- The members of the loaded map. -/
def members (s : State) : List (Fin 16) := allChans.filter (inMap s)

/-- The partner of a channel (05 R160). -/
def partnerOf (c : Fin 16) : Fin 16 := c + 8

/-- The paired channels, ascending (09, "Decoding an address"). -/
def pairedChans (s : State) : List (Fin 16) := (members s).filter fun c => inMap s (partnerOf c)

/-- E, with a value above 8 read as 8, which no loaded map holds (09 R275). -/
def twinE (s : State) : Nat := min 8 (fget s GLB GLB_MAP_TWIN_EIGHTHS)

/-- T_L: the first channel-local line of the TWIN range. -/
def twinFirst (s : State) : Nat := chLines s * (8 - twinE s) / 8

/-- The number of lines of the ordinary region. -/
def ordLines (s : State) : Nat := (members s).length * twinFirst s

/-- The number of installed lines (09 R270). -/
def topLines (s : State) : Nat := ordLines s + (pairedChans s).length / 2 * (chLines s * twinE s / 8)

/-! ### Hashes (09 R272) -/

/-- The parity of the low `n` bits of a number. -/
def parity (n v : Nat) : Bool := popCount n v % 2 = 1

/-- Replace the target bits by the parities of the input under their masks. -/
def hashBits (width : Nat) (masks : List Nat) (x : Nat) : Nat :=
  x / 2 ^ masks.length * 2 ^ masks.length
    + (masks.zipIdx.map fun m => if parity width (Nat.land x m.1) then 2 ^ m.2 else 0).sum

/-- CHMASKk (09 R292). -/
def chMask (s : State) (k : Nat) : Nat := (ixGet s GLB (0x100 + 2 * k)).toNat + (ixGet s GLB (0x101 + 2 * k)).toNat % 32 * 2 ^ 32

/-- BKMASKj (09 R292). -/
def bkMask (s : State) (j : Nat) : Nat := (ixGet s GLB (0x110 + j)).toNat % 2 ^ 30

/-- The channel hash. -/
def chHash (s : State) (x : Nat) : Nat := hashBits 37 ((List.range 4).map (chMask s)) x

/-- The target bits of the bank hash. -/
def bkTargets (s : State) : Nat := 4 + geoRanks s

/-- The bank hash. -/
def bkHash (s : State) (lam : Nat) : Nat := hashBits (rowB s + rowBits s) ((List.range (bkTargets s)).map (bkMask s)) lam

/-! ### Places -/

/-- The place of a line: its home channel, its channel-local line, and its region. -/
structure Place where
  ch : Fin 16
  lam : Nat
  twin : Bool
  deriving DecidableEq, Repr

/-- The place of line index L (09 R269); none at or above the top of installed memory. -/
def placeOf (s : State) (l : Nat) : Option Place :=
  let m := (members s).length
  if m = 0 ∨ topLines s ≤ l then none
  else if l < ordLines s then
    let x := chHash s l
    ((members s)[x % m]?).map fun c => ⟨c, x / m, false⟩
  else
    let ps := pairedChans s
    let x := chHash s (l - ordLines s)
    (ps[x % ps.length]?).map fun c => ⟨c, twinFirst s + 2 * (x / ps.length) + (if c.val < 8 then 0 else 1), true⟩

/-- A place in a rank (09 R271), after the bank hash. -/
structure Bank where
  rank : Nat
  bg : Nat
  bank : Nat
  row : Nat
  col : Nat
  deriving DecidableEq, Repr

/-- Rank, bank group, bank, row and column-line of a channel-local line (09 R269 step 7, R271). -/
def bankOf (s : State) (lam : Nat) : Bank :=
  let x := bkHash s lam
  ⟨if geoRanks s = 2 then x / 32 % 2 else 0, x % 8, x / 8 % 4, x / 2 ^ rowB s, x / 2 ^ (4 + geoRanks s) % geoCols s⟩

/-- The number of a bank on its channel: rank * 32 + bank group * 4 + bank. -/
def Bank.no (b : Bank) : Nat := b.rank * 32 + b.bg * 4 + b.bank

/-- The rank-local index ρ of a line: row, column-line, bank and bank group, row most significant (10 R300). -/
def rhoOf (s : State) (lam : Nat) : Nat :=
  let b := bankOf s lam
  ((b.row * geoCols s + b.col) * 4 + b.bank) * 8 + b.bg

/-! ### Poison (01 R42, 10 R302) -/

/-- The poison flag of the range that a line lies in. -/
def psnBase (s : State) (c : Fin 16) (lam : Nat) : Bool := if lam < twinFirst s then (s.chan c).psnAll else (s.chan c).psnTwin

/-- A DRAM line is recorded as poisoned. -/
def dramPsn (s : State) (c : Fin 16) (lam : Nat) : Bool := psnBase s c lam != (s.chan c).psn.contains lam

/-- Insert into a rising list. -/
def insRising (k : Nat) : List Nat → List Nat
  | [] => [k]
  | a :: r => if k < a then k :: a :: r else if k = a then a :: r else a :: insRising k r

/-- Record whether a DRAM line is poisoned. -/
def setDramPsn (c : Fin 16) (lam : Nat) (p : Bool) (s : State) : State :=
  if p = psnBase s c lam then updChan c (fun x => { x with psn := x.psn.filter fun k => k ≠ lam }) s
  else updChan c (fun x => { x with psn := insRising lam x.psn }) s

/-- Write a DRAM line and its poison mark. -/
def storeLine (c : Fin 16) (lam : Nat) (l : Line) (p : Bool) (s : State) : State := setDramPsn c lam p (setDram c lam l s)

end Sys2Proof.Machine
end

