-- ==== Sys2Proof/Machine/Man.lean ====
section
/-! DEFINITION. The capacity model, admission of manifests, and opening, modifying and closing them (05 R139 to R165). -/

namespace Sys2Proof.Machine

/-! ### Rates and capacity -/

/-- The committable capacity of a rate in lines per period: ⌊P × 110 ÷ 176⌋ hot-safe and ⌊P × 120 ÷ 176⌋ cool, with P = rate × 0.064 (05 R142). -/
def capHot (mts : Nat) : Nat := mts * 64 * 110 / 176000
def capCool (mts : Nat) : Nat := mts * 64 * 120 / 176000

/-- The profile of MAN_CFG: cool (05 R144). -/
def coolProfile (s : State) : Bool := s.prof

/-- The nominal committable capacity of a member channel, by its trained rate and the profile (05 R142, R145). -/
def nominalC (s : State) (c : Fin 16) : Nat :=
  let r := mtsOf (s.chan c).trnRate
  if coolProfile s then capCool r else capHot r

/-! ### Sums over manifests -/

def listedMans (s : State) : List (Nat × Manifest) := s.mans.filter fun x => x.2.st ≠ .closed

/-- The bandwidth charge of a manifest's fields (05 R146). -/
def bwCharge (f : MFields) : Nat := if f.twin then 2 * f.bw else f.bw

/-- The fields in force, with manifest `m` left out and `extra` in its place. -/
def fieldsWith (s : State) (m : Nat) (extra : Option MFields) : List (Nat × MFields) :=
  ((listedMans s).filter fun x => x.1 ≠ m).map (fun x => (x.1, x.2.f)) ++ (match extra with | some f => [(m, f)] | none => [])

/-- Every manifest's fields. -/
def fieldsNow (s : State) : List (Nat × MFields) := (listedMans s).map fun x => (x.1, x.2.f)

def sumCls (l : List (Nat × MFields)) (k : MClass) : Nat := ((l.filter fun x => x.2.cls = k).map fun x => bwCharge x.2).sum

/-- L(c, n) in ns, rounded up (05 R147), for a capacity, a rate in MT/s and the charges of higher and equal classes. A CK_CHn cycle is 8,000 ÷ rate ns. -/
def latFloor (cap mts a : Nat) : Nat :=
  if cap = 0 then 0xFFFF else
    cdiv (40 * mts * cap + 1250 * 8000 * cap + (64 + a) * 1024 * mts) (mts * cap)

/-- A_c for a class: RT; RT and GUAR; or the capacity itself (05 R147). -/
def classA (rt guar cap : Nat) : MClass → Nat
  | .rt => rt
  | .guar => rt + guar
  | .shared => cap

/-- The floor of a class over the map's channels (05 R147). -/
def manFloor (s : State) (l : List (Nat × MFields)) (k : MClass) : Nat :=
  ((members s).map fun c =>
    let cap := nominalC s c
    latFloor cap (mtsOf (s.chan c).trnRate) (classA (sumCls l .rt) (sumCls l .guar) cap k)).foldl max 0

/-! ### Uses -/

/-- A manifest's line weight on a ring. -/
def ringUse (s : State) (m : BitVec 8) (c : Fin 16) : Nat := (((s.ring c).entries.filter fun e => e.man = m).map JEntry.weight).sum

/-- Journal entries of a manifest on all rings. -/
def entriesOf (s : State) (m : BitVec 8) : Nat := (allChans.map fun c => ((s.ring c).entries.filter fun e => e.man = m).length).sum

/-- The dirty lines charged to a manifest (07 R207). -/
def dirtyOf (s : State) (m : BitVec 8) : Nat :=
  let cnt := fun (l : List (Nat × Frame)) => (l.map fun f => (f.2.charge.filter fun x => x.2 = DirtyTo.man m).length).sum
  cnt s.way.tier + cnt s.way.pinned

/-- The dirty lines of the write-through account, with the room that grants and self-test hold (07 R208, 13 R376). -/
def wtUse (s : State) : Nat :=
  let cnt := fun (l : List (Nat × Frame)) => (l.map fun f => (f.2.charge.filter fun x => x.2 = DirtyTo.account).length).sum
  cnt s.way.tier + cnt s.way.pinned + s.way.wtHeld

/-- The Waystation share in force: WAY_SEG, or what 05 R159 has left of it. -/
def wayEff (x : Manifest) : Nat :=
  match x.wayRed with
  | some v => min v x.f.way
  | none => x.f.way

/-! ### Admission (05 R146) -/

/-- Each field with its value and its range, in the order of 05 R139; QBASE has none of its own. -/
def fieldRanges (f : MFields) : List (Nat × Nat × Nat) :=
  [(f.ports.toNat, 1, 15), (f.bw, 0, 384), (f.lat, 1, 1000000), (f.way, 0, 131072), (f.qcount, 0, 131072), (f.blocks, 0, 2 ^ 28 - 1),
    (f.dirty, 0, 2097152), (f.jshare, 16, 8192), (f.ishare, 1, 256)]

/-- The first field outside its range, with the figures of its refusal. -/
def fieldBad (f : MFields) : Option (List (String × FVal)) :=
  ((fieldRanges f).find? fun x => x.1 < x.2.1 || x.2.2 < x.1).map fun x => [("value", .n x.1), ("min", .n x.2.1), ("max", .n x.2.2)]

/-- Two queue ranges overlap. -/
def qOverlap (a b : MFields) : Bool := a.qcount ≠ 0 && b.qcount ≠ 0 && a.qbase < b.qbase + b.qcount && b.qbase < a.qbase + a.qcount

/-- What fails in the check of the queue range, with its figures (05 R146): a range that does not lie within 0 to 131,071, one that overlaps another manifest's, one of a TWIN manifest, or a non-empty queue of the old range `was` that the new one leaves out. -/
def queueBad (s : State) (rest : List (Nat × MFields)) (f : MFields) (was : Option MFields) : Option (List (String × FVal)) :=
  let mine : List (String × FVal) := [("first", .n f.qbase), ("count", .n f.qcount)]
  let full := was.bind fun w => s.que.desc.find? fun d => decide (w.qbase ≤ d.1 ∧ d.1 < w.qbase + w.qcount) && d.2.st != .empty
    && !decide (f.qbase ≤ d.1 ∧ d.1 < f.qbase + f.qcount)
  if 131071 < f.qbase ∨ 131072 < f.qbase + f.qcount then some (mine ++ [("max", .n 131071)])
  else match rest.find? fun x => qOverlap f x.2 with
  | some x => some ([("man", .n x.1)] ++ mine ++ [("other", .n x.2.qbase), ("others", .n x.2.qcount)])
  | none =>
    if f.twin ∧ f.qcount ≠ 0 then some (mine ++ [("max", .n 0)])
    else full.map fun d => mine ++ [("q", .h d.1 5), ("depth", .n d.2.depth)]

/-- The first check that fails, with the fields of its answer (05 R146, R165); `was` is the reservation that a modify replaces. DESIGN CHOICE (log 128): of several manifests whose targets fall below their new floors the lowest ID is named, of several channels whose charges do not fit the lowest-numbered one's figures are given, and the figures' names, which the rules give for resource=latency alone, are the model's. -/
def manCheck (s : State) (m : Nat) (f : MFields) (was : Option MFields) : Option (List (String × FVal)) :=
  let l := fieldsWith s m (some f)
  let rest := fieldsWith s m none
  let total := sumCls l .rt + sumCls l .guar + sumCls l .shared
  let short := (members s).find? fun c => decide (nominalC s c < total)
  let own := manFloor s l f.cls
  let others := (listedMans s).find? fun x => x.1 ≠ m && x.2.st == .opened && decide (x.2.f.lat < manFloor s l x.2.f.cls)
  let sumOf := fun (g : MFields → Nat) => (l.map fun x => g x.2).sum
  let cap := fget s JRN JRN_CAP_CAP
  let needJ := cdiv (f.bw * f.lat) 1024
  let dsum := ((rest.map fun x => max x.2.dirty (dirtyOf s (BitVec.ofNat 8 x.1))).sum) + f.dirty
  match fieldBad f with
  | some fs => some (("resource", .s "field") :: fs)
  | none =>
  match short with
  | some c => some [("resource", .s "bandwidth"), ("ch", .n c), ("need", .n total), ("have", .n (nominalC s c))]
  | none =>
  if f.lat < own then some [("resource", .s "latency"), ("floor", .n own), ("target", .n f.lat)]
  else match others with
  | some x => some [("resource", .s "latency"), ("man", .n x.1), ("floor", .n (manFloor s l x.2.f.cls)), ("target", .n x.2.f.lat)]
  | none =>
  if cap < sumOf MFields.jshare ∨ f.jshare < needJ then
    some [("resource", .s "journal"), ("sum", .n (sumOf MFields.jshare)), ("max", .n cap), ("need", .n needJ), ("jshare", .n f.jshare)]
  else if 256 < sumOf MFields.ishare then some [("resource", .s "intake"), ("sum", .n (sumOf MFields.ishare)), ("max", .n 256)]
  else if fget s MAN MAN_WAYMAX_SEG < sumOf MFields.way then
    some [("resource", .s "waystation"), ("sum", .n (sumOf MFields.way)), ("max", .n (fget s MAN MAN_WAYMAX_SEG))]
  else match queueBad s rest f was with
  | some fs => some (("resource", .s "queue") :: fs)
  | none =>
  if fget s MAN MAN_BLKMAX_BLK < sumOf MFields.blocks then
    some [("resource", .s "blocks"), ("sum", .n (sumOf MFields.blocks)), ("max", .n (fget s MAN MAN_BLKMAX_BLK))]
  else if fget s MAN MAN_DIRTYMAX_LINES < dsum then
    some [("resource", .s "dirty"), ("sum", .n dsum), ("max", .n (fget s MAN MAN_DIRTYMAX_LINES))]
  else if f.twin ∧ (fget s GLB GLB_MAP_TWIN_EIGHTHS = 0 ∨ fget s GLB GLB_MAP_MEMBERS_PAIRS = 0) then
    some [("resource", .s "twin"), ("eighths", .n (fget s GLB GLB_MAP_TWIN_EIGHTHS)), ("pairs", .n (fget s GLB GLB_MAP_MEMBERS_PAIRS))]
  else none

/-! ### Registers of the sums (05 R163) -/

/-- The sum registers follow the table. -/
def manSums (s : State) : State :=
  let l := fieldsNow s
  let sumOf := fun (g : MFields → Nat) => (l.map fun x => g x.2).sum
  fset MAN MAN_STATUS_OPEN_CNT l.length (fset MAN MAN_WAYSUM_SEG (sumOf MFields.way) (fset MAN MAN_BLKSUM_BLK (sumOf MFields.blocks)
    (fset MAN MAN_DIRTYSUM_LINES (sumOf MFields.dirty) (fset MAN MAN_JISUM_JSUM (sumOf MFields.jshare) (fset MAN MAN_JISUM_ISUM (sumOf MFields.ishare) s)))))

/-- The charges and floors in force at each channel, taken at a boundary (05 R149, R163). -/
def manBoundary (s : State) : State :=
  let l := fieldsNow s
  let rt := sumCls l .rt
  let gu := sumCls l .guar
  let sh := sumCls l .shared
  forAll (members s) (fun c s =>
    let cap := nominalC s c
    let mts := mtsOf (s.chan c).trnRate
    let fl := fun k => min 0xFFFF (latFloor cap mts (classA rt gu cap k))
    fset MAN (MAN_CHCOM_RT.nth c) rt (fset MAN (MAN_CHCOM_GUAR.nth c) gu (fset MAN (MAN_CHCOM_SHARED.nth c) sh
      (fset MAN (MAN_FLOOR_RT.nth c) (fl .rt) (fset MAN (MAN_FLOOR_GUAR.nth c) (fl .guar) (fset MAN (MAN_FLOORS_SHARED.nth c) (fl .shared)
        (fset MAN (MAN_CHCAP_NOMINAL.nth c) cap s))))))) s

/-! ### The verb -/

def stateWord : MState → String
  | .closed => "closed" | .opened => "open" | .closing => "closing"

/-- A reservation goes into the table; its account of energy starts at 0 on an open (05 R149, R164, 12 R360). Its minima, its charges and the floor in word 9 follow at the next boundary. -/
def putMan (m : Nat) (f : MFields) (fresh : Bool) (s : State) : State × OutLn :=
  let x := s.man m
  let l := fieldsWith s m (some f)
  let fl := manFloor s l f.cls
  let x' := { x with st := .opened, f := f, gen := x.gen + 1 }
  let s := setMan m x' s
  let s := if fresh then
      { s with led := { s.led with acct := tblSet (fun _ => 0) s.led.acct m 0 } }
    else s
  (manSums s, okLn [("id", .n m), ("gen", .n x'.gen.toNat), ("floor", .n fl)])

/-- `manifest open` (05 R146, R148, 17 R496). The layout is committed by the first open that reaches the checks (07 R197): `commit` does that. -/
def manOpen (commit : State → State) (m : Nat) (f : MFields) (s : State) : State × OutLn :=
  if 255 < m then (s, erLn 106 "out of range" [("arg", .s "id"), ("min", .n 0), ("max", .n 255)])
  else if !mapLoaded s then (s, erLn 411 "manifest state" [("id", .n m), ("state", .s "nomap")])
  else if (s.man m).st ≠ .closed then (s, erLn 411 "manifest state" [("id", .n m), ("state", .s (stateWord (s.man m).st))])
  else
    let s := commit s
    match manCheck s m f none with
    | some fs => (s, erLn 410 "refused" fs)
    | none => putMan m f true s

/-- The fields after a modify. -/
def applyMod (f : MFields) (x : MMod) : MFields :=
  { f with
    ports := x.ports.getD f.ports, bw := x.bw.getD f.bw, lat := x.lat.getD f.lat, way := x.way.getD f.way,
    qbase := (x.q.map Prod.fst).getD f.qbase, qcount := (x.q.map Prod.snd).getD f.qcount, blocks := x.blocks.getD f.blocks,
    dirty := x.dirty.getD f.dirty, jshare := x.jshare.getD f.jshare, ishare := x.ishare.getD f.ishare,
    cls := x.cls.getD f.cls }

/-- `manifest modify` (05 R146, R150). -/
def manModify (m : Nat) (x : MMod) (s : State) : State × OutLn :=
  if 255 < m then (s, erLn 106 "out of range" [("arg", .s "id"), ("min", .n 0), ("max", .n 255)])
  else
    let cur := s.man m
    if cur.st ≠ .opened then (s, erLn 411 "manifest state" [("id", .n m), ("state", .s (stateWord cur.st))])
    else if x.twin.getD cur.f.twin ≠ cur.f.twin then (s, erLn 411 "manifest state" [("id", .n m), ("state", .s "twin")])
    else
      let f := applyMod cur.f x
      match manCheck s m f (some cur.f) with
      | some fs => (s, erLn 410 "refused" fs)
      | none => putMan m f false s

end Sys2Proof.Machine
end

