-- ==== Sys2Proof/Machine/WayBase.lean ====
section
/-! DEFINITION. The Waystation's layout, frames, directory probe, dirty lines, write-backs, hot filters and the start of promotion and demotion (07 R196 to R208). -/

namespace Sys2Proof.Machine

/-! ### Layout (07 R196) -/

/-- Lines of a 2 MiB carve-out unit. -/
def carveUnit : Nat := 16384

def carveQ (s : State) : Nat := fget s WAY WAY_CARVE_QCACHE
def carveW (s : State) : Nat := fget s WAY WAY_CARVE_WALK
def carveP (s : State) : Nat := fget s WAY WAY_CARVE_PIN

/-- The first line of each carve-out; the system carve-out of 40 MiB comes first. -/
def queLine0 : Nat := 20 * carveUnit
def walkLine0 (s : State) : Nat := queLine0 + carveQ s * carveUnit
def pinLine0 (s : State) : Nat := walkLine0 s + carveW s * carveUnit
def tierLine0 (s : State) : Nat := pinLine0 s + carveP s * carveUnit

/-- The frames of the tier carve-out, retired ones among them. -/
def tierFrames (s : State) : Nat := (108 - carveQ s - carveW s - carveP s) * 1024

/-- The frames of the pinned carve-out. -/
def pinFrames (s : State) : Nat := carveP s * 1024

/-- The Waystation line of line i of a frame. -/
def frameLine (s : State) (pinned : Bool) (f i : Nat) : Nat := (if pinned then pinLine0 s else tierLine0 s) + f * 16 + i

/-- What waits for the background clear of a cold start acts once the clear has ended (17 R494). -/
def afterClear (s : State) : State := { s with way := { s.way with clearing := false } }

/-! ### Frames -/

def State.frame (s : State) (pinned : Bool) (f : Nat) : Frame := tblGet (fun _ => {}) (if pinned then s.way.pinned else s.way.tier) f

def setFrame (pinned : Bool) (f : Nat) (x : Frame) (s : State) : State :=
  if pinned then { s with way := { s.way with pinned := tblSet (fun _ => {}) s.way.pinned f x } }
  else { s with way := { s.way with tier := tblSet (fun _ => {}) s.way.tier f x } }

def updFrame (pinned : Bool) (f : Nat) (g : Frame → Frame) (s : State) : State := setFrame pinned f (g (s.frame pinned f)) s

/-- A bit of a line mask. -/
def bit16 (m : BitVec 16) (i : Nat) : Bool := bitOf m.toNat i

def setBit16 (m : BitVec 16) (i : Nat) (b : Bool) : BitVec 16 :=
  let v := m.toNat
  BitVec.ofNat 16 (if bitOf v i then (if b then v else v - 2 ^ i) else (if b then v + 2 ^ i else v))

/-- The states in which a probe hits (07 R199). -/
def FrSt.hits : FrSt → Bool
  | .resident | .leaving | .pinned => true
  | _ => false

/-- The frame that holds a segment, among those whose state satisfies `p`. -/
def findSeg (s : State) (p : FrSt → Bool) (seg : Nat) : Option (Bool × Nat) :=
  match s.way.pinned.find? fun f => p f.2.st && f.2.seg = seg with
  | some f => some (true, f.1)
  | none => (s.way.tier.find? fun f => p f.2.st && f.2.seg = seg).map fun f => (false, f.1)

/-- The directory probe for a line index (07 R199). -/
def probeLine (s : State) (l : Nat) : Option (Bool × Nat) := findSeg s FrSt.hits (l / 16)

/-- Which channel serves a place: the home channel, or for a TWIN line the partner while the home channel is lost or not yet copied back (01 R41). -/
def servedAt (s : State) (p : Place) : Fin 16 :=
  if p.twin && ((s.chan p.ch).lost || (s.chan p.ch).resync) then partnerOf p.ch else p.ch

/-- The channel commands may reach a TWIN copy there. -/
def chanUp (s : State) (c : Fin 16) : Bool := inMap s c && !(s.chan c).lost

/-- A channel takes TWIN writes: it is up, and its copy-back has ended (01 R41). -/
def twinUp (s : State) (c : Fin 16) : Bool := chanUp s c && !(s.chan c).resync

/-- The present value of a line and its poison: the frame's where the probe hits, else the DRAM's; none beyond installed memory. -/
def memLine (s : State) (l : Nat) : Option (Line × Bool) :=
  match placeOf s l with
  | none => none
  | some p =>
    match probeLine s l with
    | some (pin, f) => some (wayLine s (frameLine s pin f (l % 16)), bit16 (s.frame pin f).psn (l % 16))
    | none => some (dramLine s (servedAt s p) p.lam, dramPsn s (servedAt s p) p.lam)

/-! ### Dirty lines (07 R207, R208) -/

/-- The write-through account's size. -/
def wtMax (s : State) : Nat := fget s WAY WAY_WT_MAX

/-- A line is clean, and no granted write is to make it dirty. -/
def lineClean (f : Frame) (i : Nat) : Bool := !bit16 f.dirty i && !(f.charge.any fun x => x.1 = i)

/-- Where a write that hits line i of a frame is charged: nowhere where the line is dirty, to the manifest or to the write-through account where it is clean; none where it needs a place in the account and there is none. DESIGN CHOICE (log 129): the writing request's manifest is charged in a pinned frame too, where 07 R231 calls the entry's MAN the manifest charged for dirty lines. -/
def writeCharge (s : State) (m : BitVec 8) (f : Frame) (i : Nat) : Option (Option DirtyTo) :=
  if !lineClean f i then some none
  else if dirtyOf s m < (s.man m.toNat).f.dirty then some (some (.man m))
  else if wtUse s < wtMax s then some (some .account)
  else none

/-- The registers of the dirty sums follow (07 R229). -/
def wayStat (s : State) : State :=
  let cnt := fun (l : List (Nat × Frame)) => (l.map fun f => (f.2.charge.filter fun x => x.2 ≠ DirtyTo.account).length).sum
  let u := wtUse s
  fset WAY WAY_DIRTY_SUM (cnt s.way.tier + cnt s.way.pinned) (fset WAY WAY_WT_USE u (fsetB WAY WAY_STATUS_WT_FULL (decide (wtMax s ≤ u)) s))

/-! ### Background requests -/

/-- A background request joins its channel's queue. -/
def pushBg (c : Fin 16) (k : BgCls) (x : Cmd) (s : State) : State := updChan c (fun y => { y with bg := y.bg ++ [⟨k, x⟩] }) s

/-- The manifest that a dirty line is charged to. -/
def chargeMan (f : Frame) (i : Nat) : Option (BitVec 8) :=
  match f.charge.find? fun x => x.1 = i with
  | some (_, .man m) => some m
  | _ => none

/-- A write-back of a dirty line is issued, to both channels of its pair for a line of the TWIN region (07 R205). -/
def pushWb (pinned : Bool) (f i : Nat) (s : State) : State :=
  let x := s.frame pinned f
  if bit16 x.wb i ∨ !bit16 x.dirty i then s else
    match placeOf s (x.seg * 16 + i) with
    | none => s
    | some p =>
      let s := setFrame pinned f { x with wb := setBit16 x.wb i true } s
      let m := chargeMan x i
      let s := onlyIf (chanUp s p.ch) (pushBg p.ch .mig { src := .wback pinned f i, line := p.lam, wr := true, man := m, slot := .background }) s
      onlyIf (p.twin && chanUp s (partnerOf p.ch))
        (pushBg (partnerOf p.ch) .mig { src := if chanUp s p.ch then .wbackTwin pinned f i else .wback pinned f i, line := p.lam, wr := true, man := m, slot := .background }) s

/-- Write-backs of all dirty lines of a frame. -/
def pushWbAll (pinned : Bool) (f : Nat) (s : State) : State := forAll (List.range 16) (pushWb pinned f) s

/-- A granted write to a line of a frame has not completed. -/
def writeGranted (s : State) (pinned : Bool) (f i : Nat) : Bool := s.wayOps.any fun o => o.wr && o.pinned = pinned && o.frame = f && o.line = i

/-- A line of a frame has been written back, or no longer needs it: it is clean and leaves its account, unless a granted write is to make it dirty again, whose line stays charged (07 R207, R209). -/
def cleanLine (pinned : Bool) (f i : Nat) (s : State) : State :=
  let keep := writeGranted s pinned f i
  wayStat (updFrame pinned f (fun x => { x with
    dirty := setBit16 x.dirty i false, wb := setBit16 x.wb i false, charge := x.charge.filter fun c => keep || c.1 ≠ i }) s)

/-- The manifest's dirty lines above WB_HI sixteenths of its DIRTY, and above DIRTY after a modify, are written back in ascending AGE (07 R207, 05 R150). DESIGN CHOICE (log 129): of lines of equal AGE those of pinned frames come first, then those of tier frames, each by frame number. -/
def wbHigh (m : BitVec 8) (s : State) : State :=
  let lvl := fget s WAY WAY_MIG_WB_HI * (s.man m.toNat).f.dirty / 16
  let n := dirtyOf s m
  let pick := fun (pin : Bool) (l : List (Nat × Frame)) => l.flatMap fun f => (f.2.charge.filter fun c => c.2 = DirtyTo.man m && bit16 f.2.dirty c.1).map fun c => (f.2.age, pin, f.1, c.1)
  let all := pick true s.way.pinned ++ pick false s.way.tier
  let sorted := (all.filter fun x => x.1 = 0) ++ (all.filter fun x => x.1 = 1) ++ (all.filter fun x => x.1 = 2) ++ all.filter fun x => 3 ≤ x.1
  forAll (sorted.take (n - lvl)) (fun x => pushWb x.2.1 x.2.2.1 x.2.2.2) s

/-! ### Walk reservations (07 R200, R215) -/

/-- Word w of a walk descriptor. -/
def wdWord (s : State) (h w : Nat) : Nat := (ixGet s WLK (h * 32 + w)).toNat

def wdMan (s : State) (h : Nat) : Nat := wdWord s h 0 / 256 % 256
def wdValid (s : State) (h : Nat) : Bool := bitOf (wdWord s h 0) 0

/-- W of a manifest: the segments its loaded descriptors have reserved. -/
def walkResv (s : State) (m : Nat) : Nat := ((s.walks.filter fun w => wdMan s w.1 = m).map fun w => w.2.reserved).sum

/-- The tier frames that a manifest may own. -/
def frameLimit (s : State) (m : Nat) : Nat := wayEff (s.man m) - walkResv s m

/-- The tier frames that a manifest owns. -/
def framesOwned (s : State) (m : BitVec 8) : Nat := (s.way.tier.filter fun f => f.2.owner = some m && f.2.st != .free).length

/-- FREE tier frames. -/
def freeTier (s : State) : Nat := fget s WAY WAY_TIER_FRAMES - (s.way.tier.filter fun f => f.2.st != .free && f.2.st != .retired).length

/-- The lowest FREE frame of a carve-out of n frames. -/
def lowestFree (n : Nat) (l : List (Nat × Frame)) : Option Nat :=
  let used := (l.filter fun f => f.2.st != .free).map (·.1)
  ((List.range (used.length + 1)).find? fun k => !used.contains k).bind fun k => if k < n then some k else none

/-! ### Filling and emptying -/

/-- A line of a FILLING frame has been read: it is filled, or read again where it has become stale (07 R203). The line keeps its poison. -/
def fillLine (pinned : Bool) (f i : Nat) (l : Line) (psn : Bool) (s : State) : State :=
  let x := s.frame pinned f
  setWayLine (frameLine s pinned f i) l (setFrame pinned f { x with
    filled := setBit16 x.filled i true, reading := setBit16 x.reading i false, psn := setBit16 x.psn i psn } (charge 0x01 1 none s))

/-- A frame's fill read of a line is issued to the channel that serves it (07 R203); a line of a lost channel is filled as poisoned. -/
def pushFill (pinned : Bool) (f i : Nat) (s : State) : State :=
  match placeOf s ((s.frame pinned f).seg * 16 + i) with
  | none => s
  | some p =>
    if chanUp s (servedAt s p) then pushBg (servedAt s p) .mig { src := .fill pinned f i, line := p.lam, wr := false, slot := .background } s
    else fillLine pinned f i 0 true s

/-- A frame enters FILLING for a segment (07 R203 steps 2 and 3). -/
def startFill (pinned : Bool) (f seg : Nat) (owner : Option (BitVec 8)) (pin : Option (Fin 16)) (s : State) : State :=
  forAll (List.range 16) (pushFill pinned f) (setFrame pinned f { st := .filling, seg := seg, owner := owner, since := s.way.epoch, pin := pin } s)

/-- A demotion begins (07 R204 steps 1 and 2). -/
def startDemote (pinned : Bool) (f : Nat) (forced : Bool) (s : State) : State :=
  let x := s.frame pinned f
  if x.st = .resident ∨ x.st = .pinned then
    pushWbAll pinned f (setFrame pinned f { x with st := .leaving, restarts := 0, retry := false, forced := forced || x.forced } s)
  else if x.st = .leaving then setFrame pinned f { x with forced := forced || x.forced } s
  else s

/-- The victim for a promotion (07 R202): a frame of the manifest with AGE 0, or an unowned one where `other` allows it, clean before dirty, then the lowest number. -/
def victim (s : State) (m : BitVec 8) (other : Bool) : Option Nat :=
  let ok := s.way.tier.filter fun f => f.2.st = .resident && ((f.2.owner = some m && f.2.age = 0) || (other && f.2.owner = none))
  match ok.find? fun f => f.2.dirty = 0 && f.2.charge.isEmpty with
  | some f => some f.1
  | none => ok.head?.map (·.1)

/-- A segment is a candidate for a manifest (07 R201); before a hold-up declaration is in force nothing is promoted (12 R361). -/
def promote (seg : Nat) (m : BitVec 8) (s : State) : State :=
  let lim := frameLimit s m.toNat
  let room := decide (framesOwned s m < lim)
  if !fbit s WAY WAY_CTL_MIG_EN ∨ s.led.hold.isNone ∨ lim = 0 ∨ (s.man m.toNat).st ≠ .opened ∨ (findSeg s (fun t => t != .free && t != .retired && t != .test) seg).isSome then s
  else if room ∧ fget s WAY WAY_TIERRSV_RSV < freeTier s then
    match lowestFree (tierFrames s) s.way.tier with
    | some f => startFill false f seg (some m) none s
    | none => s
  else
    match victim s m room with
    | some f => startDemote false f false (updFrame false f (fun x => { x with thenFill := some (seg, m) }) s)
    | none => s

/-- PROMO_TH, with 0 read as 1 (07 R229). -/
def promoTh (s : State) : Nat := max 1 (fget s WAY WAY_MIG_PROMO_TH)

/-- The counter of a segment in a channel's hot filter (07 R201). -/
def hotIdx (seg : Nat) : Nat := Nat.xor (Nat.xor (seg % 16384) (seg / 16384 % 16384)) (seg / 2 ^ 28 % 32)

/-- An access granted at a channel advances the segment's counter; reaching the threshold makes the segment a candidate (07 R201). -/
def hotBump (c : Fin 16) (seg : Nat) (m : BitVec 8) (s : State) : State :=
  let k := c.val * 16384 + hotIdx seg
  let v := min 255 (tblGet (fun _ => 0) s.way.hot k + 1)
  let was := tblGet (fun _ => 0) s.way.hot k
  let s := { s with way := { s.way with hot := tblSet (fun _ => 0) s.way.hot k v } }
  if was < promoTh s ∧ promoTh s ≤ v then promote seg m s else s

/-- A write to a line is granted at a channel: a line of a frame that is FILLING whose fill read was issued becomes stale; a filled line is read again (07 R203). -/
def markStale (l : Nat) (s : State) : State :=
  match findSeg s (fun t => t == .filling) (l / 16) with
  | none => s
  | some (pin, f) =>
    let x := s.frame pin f
    let i := l % 16
    if bit16 x.filled i then pushFill pin f i (setFrame pin f { x with filled := setBit16 x.filled i false, stale := setBit16 x.stale i false } s)
    else if bit16 x.reading i then setFrame pin f { x with stale := setBit16 x.stale i true } s
    else s

/-- An entry that targets a line, by its line index. -/
def isLineOp : Opc → Bool
  | .rd | .wr | .wrp | .add => true
  | _ => false

/-- The access of an entry to its target is complete (02 R59): data valid for a read, the effect durable for a write; a Waystation access ends at its service point. -/
def accessDone (e : JEntry) : Bool :=
  e.st == .lost || (if e.opc == .rd || e.hit then e.served.isSome else e.durable && !e.twinLeft)

/-- A frame that is being emptied for good holds off the writes that hit it (07 R204). -/
def frameHolds (s : State) (pin : Bool) (f : Nat) : Bool :=
  let x := s.frame pin f
  x.st == .leaving && x.forced && decide (fget s WAY WAY_MIG_MIG_RETRY ≤ x.restarts)

/-- A contestant that its frame holds off: it waits for the frame, and the frame not for it (07 R204). -/
def heldOff (s : State) (x : Contestant) : Bool :=
  (match x.req.opc with
    | .wr | .wrp | .add => true
    | _ => false)
  && (match probeLine s x.req.hdr.arg.toNat with
    | some (pin, f) => frameHolds s pin f
    | none => false)

/-- A request whose probe of a segment gave `hit` is still to complete its access (02 R59, 07 R203, R204). -/
def segBusy (s : State) (seg : Nat) (hit : Bool) : Bool :=
  (allChans.any fun c => (s.ring c).entries.any fun e => isLineOp e.opc && e.hit == hit && e.target.toNat / 2048 = seg && !accessDone e)
    || (s.arbs.toList.any fun a => (a.contest ++ a.resvWait).any fun x => isLineOp x.req.opc && x.hit == hit && x.req.hdr.arg.toNat / 16 = seg && !heldOff s x)
    || (s.wreads.any fun r => r.busy && r.back.isNone && r.line / 16 = seg)
    || (hit && s.wayOps.any fun o => (s.frame o.pinned o.frame).seg = seg)

end Sys2Proof.Machine
end

