-- ==== Sys2Proof/Machine/QueBase.lean ====
section
/-! DEFINITION. Queues: the pool region, descriptors and block records, frames, the plan of an ENQ, the cells of a DEQ, retention and faults (08 R234 to R259). -/

namespace Sys2Proof.Machine

/-! ### The pool region (08 R234, R236) -/

def poolBlocks (s : State) : Nat := fget s QUE QUE_POOL_BLOCKS_P
def poolBase (s : State) : Nat := fget s QUE QUE_POOL_BASE_LO_BASE * 2 ^ 20 + fget s QUE QUE_POOL_BASE_HI_BASE * 2 ^ 32

/-- The pool has been set up. -/
def poolSet (s : State) : Bool := fbit s QUE QUE_STATUS_INIT_BUSY || fbit s QUE QUE_STATUS_INIT_DONE

/-- A line index lies in the pool region (08 R237). -/
def inPool (s : State) (l : Nat) : Bool := poolSet s && decide (poolBase s ≤ l * 128 + 127 ∧ l * 128 < poolBase s + poolBlocks s * 4164)

/-- The line index of cell c of block b. -/
def cellLineNo (s : State) (b c : Nat) : Nat := poolBase s / 128 + b * 32 + c

/-- The line index of a block's record. -/
def recLineNo (s : State) (b : Nat) : Nat := poolBase s / 128 + poolBlocks s * 32 + b / 2

/-- Entries by which the stack starts behind a line's first byte: 16 where P is odd, after the last block's record (08 R234). -/
def stackShift (s : State) : Nat := poolBlocks s % 2 * 16

/-- The line of the stack that holds entry e, counted from the stack's first line, and its line index. -/
def stackRow (s : State) (e : Nat) : Nat := (e + stackShift s) / 32
def stackLineNo (s : State) (e : Nat) : Nat := (poolBase s + poolBlocks s * 4160) / 128 + stackRow s e

/-- The first entry of the stack's k-th line, and the first one behind it. -/
def rowFirst (s : State) (k : Nat) : Nat := 32 * k - stackShift s
def rowEnd (s : State) (k : Nat) : Nat := min (poolBlocks s) (32 * (k + 1) - stackShift s)

/-- The number of lines that hold entries of the stack. DEDUCED (log 130): for odd P the displaced stack can reach one line more than ⌈P ÷ 32⌉. -/
def stackRows (s : State) : Nat := cdiv (poolBlocks s + stackShift s) 32

/-! ### Tables -/

def State.qd (s : State) (q : Nat) : QDesc := tblGet (fun _ => {}) s.que.desc q
def State.brec (s : State) (b : Nat) : BlockRec := tblGet (fun _ => {}) s.que.blocks b
def State.qfr (s : State) (f : Nat) : QFrame := tblGet (fun _ => {}) s.que.frames f

def setQd (q : Nat) (d : QDesc) (s : State) : State := { s with que := { s.que with desc := tblSet (fun _ => {}) s.que.desc q d } }
def setBrec (b : Nat) (r : BlockRec) (s : State) : State := { s with que := { s.que with blocks := tblSet (fun _ => {}) s.que.blocks b r } }

/-- Frames that are not FREE. -/
def usedQFrames (s : State) : Nat := (s.que.frames.filter fun f => f.2.role != .free && f.2.role != .retired).length

/-- FREE frames (08 R240). -/
def freeQFrames (s : State) : Nat := fget s QUE QUE_FRM_FRAMES - usedQFrames s

/-- Blocks on the stack. -/
def freeBlocks (s : State) : Nat := s.que.freed.length + (s.que.fresh.map (·.2)).sum

/-- The stack is empty, and the blocks lost number more than the reserve (08 R255). -/
def shortNow (s : State) : Bool := fbit s QUE QUE_STATUS_INIT_DONE && freeBlocks s == 0 && decide (fget s QUE QUE_RSV_RSV < s.que.lost)

/-- The counts and the flag that QUE registers show (08 R260). The event of a short pool may be emitted again once the shortage has passed (08 R255). -/
def queStat (s : State) : State :=
  let s := fset QUE QUE_FREE_FREE (freeBlocks s) (fset QUE QUE_FRMFREE_FREE (freeQFrames s) s)
  fsetB QUE QUE_STATUS_POOL_SHORT (shortNow s) { s with que := { s.que with shortSent := s.que.shortSent && shortNow s } }

/-- A frame is used (08 R242). -/
def nextUse (s : State) : State := { s with que := { s.que with uses := s.que.uses + 1 } }

def setQfr (f : Nat) (x : QFrame) (s : State) : State :=
  queStat { s with que := { s.que with frames := tblSet (fun _ => {}) s.que.frames f x } }

/-- The number of queue-cache frames in the committed layout (08 R240). -/
def qFrameTotal (s : State) : Nat := (2 * carveQ s - 12) * 256

/-- The frame that holds a block of a queue. -/
def qFrameOf (s : State) (b : Nat) : Option Nat :=
  (s.que.frames.find? fun f => f.2.role != .free && f.2.role != .retired && f.2.block = b).map (·.1)

/-- A frame holds a block's record. -/
def recHeld (s : State) (b : Nat) : Bool := (qFrameOf s b).any fun f => (s.qfr f).recOk

/-! ### Block records (08 R235) -/

/-- The 64 bytes of a block record, byte i in bits 8i + 7 to 8i. -/
def recNat (r : BlockRec) : Nat :=
  (match r.next with
    | some n => n + 2 ^ 31
    | none => 0)
  + ((r.cellMeta.zipIdx.map fun x => x.1.toNat * 2 ^ (32 + 8 * x.2)).sum) + r.rcnt % 64 * 2 ^ 288 + r.queue % 2 ^ 17 * 2 ^ 296

/-- A line of block records with the record of block b put in; the line holds the records of two blocks. -/
def recLine (s : State) (b : Nat) (old : Line) : Line :=
  let r := recNat (s.brec b)
  BitVec.ofNat 1024 (if b % 2 = 0 then old.toNat / 2 ^ 512 * 2 ^ 512 + r else old.toNat % 2 ^ 512 + r * 2 ^ 512)

/-! ### Ownership (08 R238) -/

/-- The manifest whose range holds a queue. -/
def queOwner (s : State) (q : Nat) : Option Nat :=
  ((listedMans s).find? fun m => decide (m.2.f.qbase ≤ q ∧ q < m.2.f.qbase + m.2.f.qcount)).map (·.1)

/-- A manifest's own queue. -/
def ownsQueue (s : State) (m : Nat) (q : Nat) : Bool := decide ((s.man m).f.qbase ≤ q ∧ q < (s.man m).f.qbase + (s.man m).f.qcount)

/-- The home channel of a queue: CH(q mod 16), or the next channel of the map above it. -/
def queHome (s : State) (q : Nat) : Option (Fin 16) :=
  (((List.range 16).map fun k => Fin.ofNat 16 (q + k)).find? fun c => inMap s c)

/-- Blocks charged to a manifest (08 R254). -/
def blocksHeld (s : State) (m : Nat) : Nat := (s.que.blocks.filter fun b => b.2.out && ownsQueue s m b.2.queue).length

/-- Accepted ENQ and DEQ of a queue without a final outcome (08 R239). -/
def inflight (s : State) (q : Nat) : Nat :=
  (allChans.map fun c => ((s.ring c).entries.filter fun e => (e.opc == .enq || e.opc == .deq) && e.target.toNat = q && !e.recorded).length).sum

/-! ### Stack traffic (08 R244) -/

/-- The i-th block of a list of runs. -/
def runAt : List (Nat × Nat) → Nat → Nat
  | [], _ => 0
  | (b, n) :: r, i => if i < n then b + i else runAt r (i - n)

/-- A block is taken out of a list of runs. -/
def cutRun (x : Nat) (l : List (Nat × Nat)) : List (Nat × Nat) :=
  l.flatMap fun y => if y.1 ≤ x ∧ x < y.1 + y.2 then [(y.1, x - y.1), (x + 1, y.1 + y.2 - x - 1)].filter fun z => z.2 ≠ 0 else [y]

/-- The block number in entry e of the stack, counted from its bottom. -/
def stackEntry (s : State) (e : Nat) : Nat :=
  let i := freeBlocks s - 1 - e
  match s.que.freed[i]? with
  | some b => b
  | none => runAt s.que.fresh (i - s.que.freed.length)

/-- The stack's k-th line: 32 entries of 4 bytes, of which those from `lo` to below `hi` are given and the rest is that of an old line: other entries, and what lies before or behind the stack (08 R234). -/
def entriesLine (s : State) (f : Nat → Nat) (k lo hi : Nat) (old : Line) : Line :=
  BitVec.ofNat 1024 (((List.range 32).map fun j =>
    let e := 32 * k + j
    (if lo + stackShift s ≤ e ∧ e < hi + stackShift s then f (e - stackShift s) else old.toNat / 2 ^ (32 * j)) % 2 ^ 32 * 2 ^ (32 * j)).sum)

/-- Read of the stack's lines. -/
def isStackRead (x : Cmd) : Bool :=
  match x.src with
  | .stack false _ _ => true
  | _ => false

/-- Lines of the stack are being read. -/
def stackReading (s : State) : Bool :=
  allChans.any fun c => ((s.chan c).bg.any fun b => isStackRead b.cmd) || (s.chan c).intake.any isStackRead || (s.chan c).line.any isStackRead
    || (s.chan c).flight.any fun f => isStackRead f.cmd

/-- The reads of entries above a place stand n places lower, since the n entries there are lost. -/
def shiftStack (e n : Nat) (s : State) : State :=
  let go := fun (x : Cmd) => match x.src with
    | .stack false k m => if e < k then { x with src := .stack false (k - n) m } else x
    | _ => x
  { s with chans := s.chans.map fun y => { y with
      bg := y.bg.map (fun b => { b with cmd := go b.cmd }), intake := y.intake.map go, line := y.line.map go,
      flight := y.flight.map fun f => { f with cmd := go f.cmd } } }

/-- A line of the stack is lost with the n entries from e on: their blocks are lost (08 R257). -/
def stackLost (e n : Nat) (s : State) : State :=
  let l := (List.range n).map fun k => stackEntry s (e + k)
  let s := fbumpN QUE QUE_LOST_COUNT n { s with que := { s.que with lost := s.que.lost + n } }
  queStat (shiftStack e n { s with que := { s.que with freed := s.que.freed.filter (fun b => !l.contains b), fresh := l.foldl (fun r b => cutRun b r) s.que.fresh } })

/-- The part of the stack's k-th line that lies below entry `hi` and not below `lo` is read or written back through a migration slot; that of a lost channel is lost. -/
def pushStack (wr : Bool) (lo hi k : Nat) (s : State) : State :=
  let a := max lo (rowFirst s k)
  let b := min hi (rowEnd s k)
  if b ≤ a then s else
    match placeOf s (stackLineNo s a) with
    | some p =>
      if chanUp s p.ch then
        pushBg p.ch .mig { src := .stack wr a (b - a), line := p.lam, wr := wr, data := entriesLine s (stackEntry s) k a b 0, slot := .background } s
      else stackLost a (b - a) s
    | none => s

/-- Sixteen lines are read into the cached top below 256 entries, or written back above 896 (08 R244). The entries written back leave the cached top as their writes are issued. -/
def stackLevel (s : State) : State :=
  let deep := freeBlocks s - s.que.cached
  if s.que.cached < 256 ∧ 0 < deep then
    if stackReading s then s else
      let top := stackRow s (deep - 1)
      forAll (List.range (min 16 (top + 1))) (fun k => pushStack false 0 deep (top - k)) s
  else if 896 < s.que.cached then
    forAll (List.range 17) (fun k => pushStack true deep (deep + 512) (stackRow s deep + k)) { s with que := { s.que with cached := s.que.cached - 512 } }
  else s

/-- A line of the stack has been read: its n entries join the cached top. -/
def stackDone (n : Nat) (s : State) : State := stackLevel { s with que := { s.que with cached := min (freeBlocks s) (s.que.cached + n) } }

/-! ### Blocks -/

/-- A block returns to the cached top of the stack (08 R244). -/
def pushBlock (b : Nat) (s : State) : State :=
  queStat (stackLevel (setBrec b {} { s with que := { s.que with freed := b :: s.que.freed, cached := s.que.cached + 1 } }))

/-- A block that has left its chain is freed once no retained cells reference it (08 R253). -/
def tryFree (b : Nat) (s : State) : State :=
  let r := s.brec b
  if r.out ∧ r.gone ∧ r.rcnt = 0 then pushBlock b s else s

/-- Take k blocks off the cached top, in the order they come. Blocks never taken lie below the freed ones, in ascending number. -/
def takeBlocks : Nat → State → List Nat × State
  | 0, s => ([], s)
  | k + 1, s =>
    match s.que.freed with
    | b :: rest =>
      let r := takeBlocks k { s with que := { s.que with freed := rest, cached := s.que.cached - 1 } }
      (b :: r.1, r.2)
    | [] =>
      match s.que.fresh with
      | [] => ([], s)
      | (b, n) :: rest =>
        let r := takeBlocks k { s with que := { s.que with fresh := if n ≤ 1 then rest else (b + 1, n - 1) :: rest, cached := s.que.cached - 1 } }
        (b :: r.1, r.2)

/-- The lowest FREE frames, `k` of them. -/
def takeQFrames : Nat → Nat → State → List Nat
  | _, 0, _ => []
  | lo, k + 1, s =>
    let used := (s.que.frames.filter fun f => f.2.role != .free).map (·.1)
    match (List.range (used.length + k + 2)).find? fun j => !used.contains (lo + j) with
    | some j => (lo + j) :: takeQFrames (lo + j + 1) k s
    | none => []

/-! ### Words of descriptors (08 R239, R263) -/

/-- A frame number as a descriptor holds it (08 R239). -/
def frmNo (f : Option Nat) : Nat := f.getD 0xFFFF

/-- The frame that a descriptor shows for a block: not one that a granted ENQ has taken and not yet reached its service point with (08 R263). -/
def shownFrame (s : State) (d : QDesc) (b : Nat) : Option Nat :=
  if d.nblk = 0 then none else (qFrameOf s b).filter fun f => !(s.que.plans.any fun p => p.newFrms.contains f)

/-- Word k of the descriptor of queue q with contents d (08 R239). -/
def qdWord (s : State) (q : Nat) (d : QDesc) (k : Nat) : Nat :=
  match k with
  | 0 => d.st.code + atBit (queOwner s q).isSome 2 + (queOwner s q).getD 0 * 2 ^ 8 + d.headCell % 32 * 2 ^ 16 + d.tailFill % 64 * 2 ^ 21
      + atBit d.midpkt 27 + d.freason % 16 * 2 ^ 28
  | 1 => d.headBlk
  | 2 => d.tailBlk
  | 3 => d.depth
  | 4 => d.pkts
  | 5 => d.nblk
  | 6 => frmNo (shownFrame s d d.headBlk) + frmNo (shownFrame s d d.tailBlk) * 2 ^ 16
  | 7 => frmNo ((s.que.frames.find? fun f => f.2.role = .pref ∧ f.2.queue = q).map (·.1)) + min (inflight s q) 255 * 2 ^ 16
  | 8 => d.enqPkts.toNat
  | 9 => d.deqPkts.toNat
  | _ => 0

/-- The descriptor image that a journal entry stages: words 0 to 7, the lower word lower in its slot (01 R21, 08 R239). -/
def qdImage (s : State) (q : Nat) (d : QDesc) : List Slot :=
  [0, 4].map fun b => BitVec.ofNat 128 (((List.range 4).map fun k => qdWord s q d (b + k) % 2 ^ 32 * 2 ^ (32 * k)).sum)

/-- A descriptor with the fields that a staged image holds (08 R239). -/
def qdOfImage (l : List Slot) (d : QDesc) : QDesc :=
  let w := fun (k : Nat) => ((l[k / 4]?).getD 0).toNat / 2 ^ (32 * (k % 4)) % 2 ^ 32
  { d with
    st := (match w 0 % 4 with
      | 0 => .empty
      | 1 => .active
      | _ => .faulted),
    headCell := w 0 / 2 ^ 16 % 32, tailFill := w 0 / 2 ^ 21 % 64, midpkt := bitOf (w 0) 27, freason := w 0 / 2 ^ 28,
    headBlk := w 1, tailBlk := w 2, depth := w 3, pkts := w 4, nblk := w 5 }

/-! ### Images of descriptors (08 R247, R248) -/

/-- The state of a queue after an ENQ. -/
def enqImage (d : QDesc) (p : EnqPlan) : QDesc :=
  if d.st = .empty then
    { d with
      st := .active, headBlk := p.first, headCell := p.firstCell, tailBlk := p.tailBlk, tailFill := p.tailFill, midpkt := false,
      depth := p.cells, pkts := 1, nblk := p.newBlks.length, enqPkts := d.enqPkts + 1 }
  else
    { d with
      tailBlk := p.tailBlk, tailFill := p.tailFill, depth := d.depth + p.cells, pkts := d.pkts + 1,
      nblk := d.nblk + p.newBlks.length, enqPkts := d.enqPkts + 1 }

/-- One cell a DEQ takes: its block, its number and its CELLMETA. -/
structure TakenCell where
  blk : Nat
  cell : Nat
  eop : Bool
  bytes : Nat
  deriving DecidableEq, Repr

/-- The cells from a place on, up to the first EOP, a maximum, or the end of the queue; none where a record is bad or a NEXT link is missing (08 R248, R257). -/
def takeCells (s : State) : Nat → Nat → Nat → Nat → Option (List TakenCell)
  | 0, _, _, _ => some []
  | fuel + 1, b, c, left =>
    let r := s.brec b
    if left = 0 then some [] else
      if r.bad ∨ !r.out then none else
        let m := (r.cellMeta[c]?).getD 0
        let x : TakenCell := ⟨b, c, bitOf m.toNat 7, m.toNat % 128 + 1⟩
        if x.eop then some [x]
        else if c + 1 < 32 then (takeCells s fuel b (c + 1) (left - 1)).map fun l => x :: l
        else if left = 1 then some [x]
        else r.next.bind fun n => (takeCells s fuel n 0 (left - 1)).map fun l => x :: l

/-- The cells of a DEQ of the queue described by d (08 R248). -/
def deqCells (s : State) (d : QDesc) (count : Bool) (ncellMax : Nat) : Option (List TakenCell) :=
  if d.st = .empty then some []
  else if count then takeCells s (min ncellMax d.depth) d.headBlk d.headCell d.depth
  else takeCells s (min 72 d.depth) d.headBlk d.headCell d.depth

/-- The state of a queue after a DEQ of given cells, and the blocks that leave the chain; none where a next block is needed and its link is missing (08 R248, R250). -/
def deqImage (s : State) (d : QDesc) (l : List TakenCell) : Option (QDesc × List Nat) :=
  match l.getLast? with
  | none => some (d, [])
  | some x =>
    let left := d.depth - l.length
    let ended := x.eop
    let blks := (l.map (·.blk)).eraseDups
    let d1 := { d with
      depth := left, pkts := if ended then d.pkts - 1 else d.pkts, midpkt := !ended,
      deqPkts := if ended then d.deqPkts + 1 else d.deqPkts }
    if left = 0 then some ({ d1 with st := .empty, nblk := 0, midpkt := false, headCell := 0, tailFill := 0, headBlk := 0, tailBlk := 0 }, blks)
    else if x.cell = 31 then
      (s.brec x.blk).next.map fun n => ({ d1 with headBlk := n, headCell := 0, nblk := d.nblk - blks.length }, blks)
    else some ({ d1 with headBlk := x.blk, headCell := x.cell + 1, nblk := d.nblk - (blks.length - 1) }, blks.dropLast)

/-- DEQ operands (04 R111). -/
def deqCount (h : Hdr) : Bool := bitOf h.sub.toNat 0
def deqMax (h : Hdr) : Nat := h.arg.toNat / 2 ^ 17 % 128

/-- The queue as the granted ENQ and DEQ among the first n entries of its ring will leave it (08 R245). -/
def virtualQdTo (n : Nat) (s : State) (q : Nat) : QDesc :=
  match queHome s q with
  | none => s.qd q
  | some c =>
    ((s.ring c).entries.zipIdx.take n).foldl (fun d x =>
      let e := x.1
      let slot := ((s.ring c).head + x.2) % 4096
      if e.target.toNat ≠ q ∨ e.st ≠ .pend then d
      else if e.opc = .enq then
        match s.que.plans.find? fun p => p.ring = c && p.entry = slot with
        | some p => enqImage d p
        | none => d
      else if e.opc = .deq then
        match deqCells s d (bitOf e.sub.toNat 0) (e.arg.toNat / 2 ^ 17 % 128) with
        | some l => ((deqImage s d l).map (·.1)).getD d
        | none => d
      else d) (s.qd q)

/-- The queue as earlier granted ENQ and DEQ will leave it (08 R245). -/
def virtualQd (s : State) (q : Nat) : QDesc := virtualQdTo 4096 s q

/-- New blocks that an ENQ of n cells needs behind the tail of d (08 R245). -/
def enqBlocks (d : QDesc) (n : Nat) : Nat := if d.st = .empty then cdiv n 32 else cdiv (n - (32 - d.tailFill)) 32

/-- An ENQ writes into the old tail block, and no frame holds that block. -/
def enqTailFrame (s : State) (d : QDesc) : Nat := if d.st ≠ .empty ∧ d.tailFill < 32 ∧ (qFrameOf s d.tailBlk).isNone then 1 else 0

/-- The stack and the frames can supply an ENQ, outside the kept parts unless it holds a port-reserved slot (08 R246). -/
def enqFits (s : State) (q n : Nat) (resv : Bool) : Bool :=
  let d := virtualQd s q
  let k := enqBlocks d n
  decide (k ≤ freeBlocks s ∧ k + (if resv then 0 else 192) ≤ s.que.cached ∨ k = 0)
    && decide (k + enqTailFrame s d + (if resv then 0 else 256) ≤ freeQFrames s ∨ k + enqTailFrame s d = 0)

/-! ### Frames: write-back and eviction (08 R241, R242) -/

/-- A bit of a frame's mask is set, or cleared; there is none for cell 32, the record. -/
def setBit32 (m : BitVec 32) (c : Nat) : BitVec 32 := m ||| BitVec.ofNat 32 (2 ^ c)
def clrBit32 (m : BitVec 32) (c : Nat) : BitVec 32 := m &&& ~~~(BitVec.ofNat 32 (2 ^ c))

/-- A frame becomes FREE, or RETIRED where it is to be retired. -/
def freeQFrame (f : Nat) (s : State) : State :=
  if (s.qfr f).thenRetire then
    setQfr f { role := .retired } (fbump QUE QUE_FRMRET_COUNT (fset QUE QUE_FRM_FRAMES (fget s QUE QUE_FRM_FRAMES - 1) s))
  else setQfr f {} s

/-- A queue-cache write-back of a block's cell, or of its record as cell 32, is durable; with the last dirty cell the frame becomes FREE, or HEAD (08 R241). -/
def qWbDone (b c : Nat) (s : State) : State :=
  let s := fbump QUE QUE_WBLINE_COUNT s
  match qFrameOf s b with
  | none => s
  | some f =>
    let x := s.qfr f
    let x := { x with dirty := clrBit32 x.dirty c }
    let s := setQfr f x s
    if x.dirty ≠ 0 then s
    else if x.role = .full then
      if (s.qd x.queue).st = .active ∧ (s.qd x.queue).headBlk = x.block ∧ !x.thenRetire then setQfr f { x with role := .head } s else freeQFrame f s
    else if x.role = .tail ∧ (x.evict ∨ x.thenRetire) then freeQFrame f s
    else s

/-- A line of the pool region is written in the background; on a lost channel it is poisoned at once instead (08 R256, R259). -/
def pushQueWb (b c l : Nat) (man : Option (BitVec 8)) (s : State) : State :=
  match placeOf s l with
  | none => s
  | some p =>
    if chanUp s p.ch then pushBg p.ch .free { src := .queWb b c, line := p.lam, wr := true, man := man, slot := .background } s
    else qWbDone b c (setDramPsn p.ch p.lam true s)

/-- The write-back of a frame's dirty lines and its record is issued. -/
def qWriteBack (f : Nat) (s : State) : State :=
  let x := s.qfr f
  let man := (queOwner s x.queue).map (BitVec.ofNat 8)
  let s := onlyIf x.recOk (pushQueWb x.block 32 (recLineNo s x.block) man) s
  forAll ((List.range 32).filter fun c => bitOf x.dirty.toNat c) (fun c s => pushQueWb x.block c (cellLineNo s x.block c) man s) s

/-- LOW, held to 256 to 4,096 (08 R260). -/
def qLow (s : State) : Nat := max 256 (min 4096 (fget s QUE QUE_FRM_LOW))

/-- The least recently used idle frame with one of two roles. -/
def lruFrame (s : State) (p : QRole → Bool) : Option Nat :=
  ((s.que.frames.filter fun f => p f.2.role && !f.2.evict && inflight s f.2.queue = 0).foldl
    (fun (a : Option (Nat × Nat)) f => match a with
      | some b => if f.2.used < b.2 then some (f.1, f.2.used) else a
      | none => some (f.1, f.2.used)) none).map (·.1)

/-- Frames that are being written back so as to become FREE (08 R242). -/
def evicting (s : State) : Nat := (s.que.frames.filter fun f => f.2.evict).length

/-- Evict idle frames while fewer than LOW are FREE, or on their way to be (08 R242); `fuel` bounds their number. -/
def evictFuel : Nat → State → State
  | 0, s => s
  | fuel + 1, s =>
    if qLow s ≤ freeQFrames s + evicting s then s else
      match lruFrame s (fun r => r == .head || r == .pref) with
      | some f => evictFuel fuel (fbump QUE QUE_EVICT_COUNT (freeQFrame f s))
      | none =>
        match lruFrame s (fun r => r == .tail) with
        | some f => evictFuel fuel (qWriteBack f (setQfr f { s.qfr f with evict := true } (fbump QUE QUE_EVICT_COUNT s)))
        | none => s

/-- Whenever frames have become fewer, or idle, or LOW has been raised, the frames kept FREE are seen to. -/
def evict (s : State) : State := evictFuel s.que.frames.length s

/-! ### The grant of an ENQ (08 R247) -/

/-- Write one cell of an ENQ: its data at its place, its CELLMETA and its frame's masks. The data stands at the cell's place in memory from now on; only a frame's masks say that DRAM does not hold it yet. -/
def putCell (b c f : Nat) (l : Line) (psn : Bool) (m : BitVec 8) (used : Nat) (s : State) : State :=
  let s := match placeOf s (cellLineNo s b c) with
    | some p => setDram p.ch p.lam l s
    | none => s
  let r := s.brec b
  let s := setBrec b { r with cellMeta := r.cellMeta.set c m } s
  let x := s.qfr f
  setQfr f { x with valid := setBit32 x.valid c, dirty := setBit32 x.dirty c, psn := if psn then setBit32 x.psn c else clrBit32 x.psn c, used := used, evict := false } s

/-- The places of n cells behind a tail: block and cell, in the old tail block and then in the new ones. -/
def enqPlaces (d : QDesc) (news : List Nat) (n : Nat) : List (Nat × Nat) :=
  let old := if d.st = .empty then [] else (List.range (32 - d.tailFill)).map fun k => (d.tailBlk, d.tailFill + k)
  (old ++ news.flatMap fun b => (List.range 32).map fun c => (b, c)).take n

/-- The blocks of a chain get their NEXT links. -/
def linkBlocks : List Nat → State → State
  | a :: b :: r, s => linkBlocks (b :: r) (setBrec a { s.brec a with next := some b } s)
  | _, s => s

/-- A read of queue-engine traffic for an entry is issued through a background slot; a line of a lost channel comes back poisoned at once. -/
def pushRead (ring : Fin 16) (entry cell l : Nat) (man : Option (BitVec 8)) (s : State) : State :=
  let add := fun (b : Option Bool) (s : State) => { s with que := { s.que with reads := s.que.reads ++ [⟨ring, entry, cell, l, b⟩] } }
  match placeOf s l with
  | none => add (some true) s
  | some p =>
    if chanUp s p.ch then pushBg p.ch .free { src := .queRead ring entry cell, line := p.lam, wr := false, man := man, slot := .background } (add none s)
    else add (some true) s

/-- The read with a number of an entry. -/
def dirRead (s : State) (ring : Fin 16) (slot k : Nat) : Option DirRead := s.que.reads.find? fun r => r.ring = ring && r.entry = slot && r.cell = k

/-- A granted ENQ of `bytes` bytes behind the queue as d describes it takes its blocks and frames, writes its cells beyond the visible tail, and has its plan (08 R246, R247); `bad` marks cells whose data is poisoned. An old tail block whose record no frame holds has it read into its frame, or, where it is full, its NEXT link written to its record in DRAM. -/
def planEnq (d : QDesc) (ring : Fin 16) (entry q bytes : Nat) (data : List Slot) (bad : List Bool) (s : State) : State :=
  let s := nextUse s
  let n := cdiv bytes 128
  let man := (queOwner s q).map (BitVec.ofNat 8)
  let (news, s) := takeBlocks (enqBlocks d n) s
  let s := forAll news (fun b s => setBrec b { out := true, queue := q } s) s
  let s := linkBlocks ((if d.st = .empty then [] else [d.tailBlk]) ++ news) s
  let useOld := d.st ≠ .empty ∧ d.tailFill < 32
  let oldNew := if useOld ∧ (qFrameOf s d.tailBlk).isNone then [d.tailBlk] else []
  let oldRec := if useOld ∧ !recHeld s d.tailBlk ∧ !(s.que.plans.any fun p => p.oldRec = some d.tailBlk) then [d.tailBlk] else []
  let frs := takeQFrames 0 (oldNew.length + news.length) s
  let linkOld := d.st ≠ .empty ∧ !news.isEmpty ∧ d.tailFill = 32 ∧ (qFrameOf s d.tailBlk).isNone
  let s := forAll ((oldNew ++ news).zip frs) (fun x s => setQfr x.2 { role := .tail, queue := q, block := x.1, used := s.que.uses, recOk := !oldNew.contains x.1 } s) s
  let s := forAll oldRec (fun b s => pushRead ring entry 72 (recLineNo s b) man s) s
  let s := if linkOld then pushQueWb d.tailBlk 32 (recLineNo s d.tailBlk) man s else s
  let places := enqPlaces d news n
  let s := forAll places.zipIdx (fun x s =>
    let k := x.2
    let m : Nat := if k + 1 = n then 128 + (bytes - 128 * (n - 1) - 1) else 0
    match qFrameOf s x.1.1 with
    | some f => putCell x.1.1 x.1.2 f (slotsLine ((data.drop (8 * k)).take 8)) ((bad[k]?).getD false) (BitVec.ofNat 8 m) s.que.uses (charge 0x01 1 man s)
    | none => s) s
  let last := (places.getLast?).getD (0, 0)
  stackLevel (evict (queStat { s with que := { s.que with
    plans := s.que.plans ++ [⟨ring, entry, q, n, bytes, news, frs, last.1, last.2 + 1, (news.head?).getD 0, 0, oldRec.head?, if d.st = .empty then none else some d.tailBlk⟩] } }))

/-- A granted ENQ goes behind every earlier granted ENQ of its queue (08 R247). -/
def enqGrant (ring : Fin 16) (entry q bytes : Nat) (data : List Slot) (s : State) : State := planEnq (virtualQd s q) ring entry q bytes data [] s

/-- The places of a planned ENQ's cells: block and cell. -/
def planPlaces (p : EnqPlan) : List (Nat × Nat) :=
  match p.newBlks with
  | [] => (List.range p.cells).map fun k => (p.tailBlk, p.tailFill - p.cells + k)
  | _ :: r =>
    let k := p.cells - (32 * r.length + p.tailFill)
    ((List.range k).map fun j => (p.oldBlk.getD 0, 32 - k + j)) ++ (p.newBlks.flatMap fun b => (List.range 32).map fun c => (b, c)).take (p.cells - k)

/-- The plan of a lost ENQ is undone: its blocks and frames go back, and its cells leave the frame of the old tail block. -/
def dropPlan (ring : Fin 16) (slot : Nat) (s : State) : State :=
  let s := forAll (s.que.plans.filter fun p => p.ring = ring && p.entry = slot) (fun p s =>
    let s := forAll p.newFrms (fun f s => if p.newBlks.contains (s.qfr f).block then setQfr f {} s else s) s
    let s := forAll ((planPlaces p).filter fun x => !p.newBlks.contains x.1) (fun x s => match qFrameOf s x.1 with
      | some f => setQfr f { s.qfr f with valid := clrBit32 (s.qfr f).valid x.2, dirty := clrBit32 (s.qfr f).dirty x.2, psn := clrBit32 (s.qfr f).psn x.2 } s
      | none => s) s
    let s := match p.oldBlk with
      | some b => onlyIf ((s.brec b).next.isSome && (s.brec b).next == p.newBlks.head?) (setBrec b { s.brec b with next := none }) s
      | none => s
    forAll p.newBlks.reverse pushBlock s) s
  { s with que := { s.que with
      plans := s.que.plans.filter fun p => !(p.ring = ring && p.entry = slot),
      reads := s.que.reads.filter fun p => !(p.ring = ring && p.entry = slot) } }

/-- The data of a planned cell, and whether it is poisoned: in its block's frame, or once that has been written back in DRAM. -/
def plannedCell (s : State) (x : Nat × Nat) : List Slot × Bool :=
  match placeOf s (cellLineNo s x.1 x.2) with
  | none => (List.replicate 8 0, true)
  | some p =>
    (lineSlots (dramLine s p.ch p.lam), match (qFrameOf s x.1).filter fun f => bitOf (s.qfr f).valid.toNat x.2 with
      | some f => bitOf (s.qfr f).psn.toNat x.2
      | none => dramPsn s p.ch p.lam)

/-- An ENQ or DEQ of a ring slot is lost before its effect: its plan goes, and the ENQs of its queue that were granted after it are planned anew, in their order, behind what then stands before them (08 R247, R251). `was` is the state in which the entry still stood. DESIGN CHOICE (log 131): their cells are moved from the places of their first plans. -/
def replan (was : State) (ring : Fin 16) (slot : Nat) (s : State) : State :=
  let i := entryIdx (was.ring ring)
  let later := match (was.ring ring).entries[i slot]? with
    | some e => if e.opc = .enq ∨ e.opc = .deq then was.que.plans.filter fun p => p.ring = ring && p.queue = e.target.toNat && decide (i slot < i p.entry) else []
    | none => []
  let s := dropPlan ring slot (forAll later.reverse (fun p s => dropPlan ring p.entry s) s)
  forAll later (fun p s =>
    let l := (planPlaces p).map (plannedCell was)
    planEnq (virtualQdTo (entryIdx (s.ring ring) p.entry) s p.queue) ring p.entry p.queue p.bytes (l.flatMap (·.1)) (l.map (·.2)) s) s

/-! ### Retention (08 R253) -/

/-- The blocks that hold a run of cells. -/
def retBlocks (s : State) : Nat → Nat → Nat → Nat → List Nat
  | 0, _, _, _ => []
  | fuel + 1, b, c, n =>
    if n = 0 then [] else
      if 32 - c < n then b :: (match (s.brec b).next with
        | some x => retBlocks s fuel x 0 (n - (32 - c))
        | none => [])
      else [b]

/-- A stream slot that retains cells leaves the window: RCNT falls, and blocks that have left the chain are freed. -/
def releaseRet (r : Option (Nat × Nat × Nat)) (s : State) : State :=
  match r with
  | none => s
  | some (b, c, n) =>
    stackLevel (forAll (retBlocks s 4 b c n) (fun b s => tryFree b (setBrec b { s.brec b with rcnt := (s.brec b).rcnt - 1 } s)) s)

/-! ### Initialisation of the stack (08 R236) -/

/-- Entries of a line of the stack that is lost at initialisation are lost blocks. -/
def initLose (k : Nat) (s : State) : State :=
  let n := rowEnd s k - rowFirst s k
  let l := (List.range n).map fun j => poolBlocks s - 1 - (rowFirst s k + j)
  fbumpN QUE QUE_LOST_COUNT n { s with que := { s.que with lost := s.que.lost + n, initLeft := s.que.initLeft - 1, fresh := l.foldl (fun r b => cutRun b r) s.que.fresh } }

/-- The next line of the stack goes to its channel; a line of a lost channel is lost with its entries. `fuel` bounds the lines. Block b stands in entry P - 1 - b, so that the lowest number lies on top. -/
def initFuel : Nat → State → State
  | 0, s => s
  | fuel + 1, s =>
    let k := s.que.initNext
    if stackRows s ≤ k then s else
      let s := { s with que := { s.que with initNext := k + 1 } }
      match placeOf s (stackLineNo s (rowFirst s k)) with
      | some p =>
        if chanUp s p.ch then
          pushBg p.ch .mig { src := .stackInit k, line := p.lam, wr := true, data := entriesLine s (fun e => poolBlocks s - 1 - e) k (rowFirst s k) (rowEnd s k) 0, slot := .background } s
        else initFuel fuel (initLose k s)
      | none => initFuel fuel (initLose k s)

def initPush (s : State) : State := initFuel (stackRows s - s.que.initNext) s

/-- Initialisation issues its first lines. DESIGN CHOICE (log 45): as many at a time as R244 moves, sixteen. -/
def initStart (s : State) : State :=
  forAll (List.range 16) (fun _ => initPush) { s with que := { s.que with initLeft := stackRows s, initNext := 0, fresh := [(0, poolBlocks s)] } }

/-- A line that initialisation wrote is durable, or lost with its channel, and the next one is issued. -/
def initDone (k : Nat) (lost : Bool) (s : State) : State :=
  initPush (if lost then initLose k s else { s with que := { s.que with initLeft := s.que.initLeft - 1 } })

end Sys2Proof.Machine
end

