-- ==== Sys2Proof/Machine/WalkBase.lean ====
section
/-! DEFINITION. Walk descriptors, caravans, their stages, stage images and line reads (07 R212 to R228). -/

namespace Sys2Proof.Machine

/-! ### Descriptors (07 R212, R213) -/

def wdStages (s : State) (h : Nat) : Nat := wdWord s h 0 / 2 % 8 + 1
def wdBypass (s : State) (h : Nat) : Bool := bitOf (wdWord s h 0) 4
def wdSlots (s : State) (h : Nat) : Nat := wdWord s h 0 / 32 % 8 + 1
def wdHome (s : State) (h : Nat) : Fin 16 := Fin.ofNat 16 (wdWord s h 0 / 65536 % 16)
def wdHoldNs (s : State) (h : Nat) : Nat := wdWord s h 0 / 2 ^ 20 % 4096 * 4
def wdSlotSeg (s : State) (h : Nat) : Nat := wdWord s h 1 % 256
def wdNctx (s : State) (h : Nat) : Nat := wdWord s h 1 / 256 % 128

/-- A stage record. -/
structure Stage where
  gather : Bool
  shift : Nat
  width : Nat
  base : Nat
  segs : Nat
  deriving DecidableEq, Repr

/-- The record of stage k of descriptor h. -/
def wdStage (s : State) (h k : Nat) : Stage :=
  let a := wdWord s h (4 + 3 * k)
  let c := wdWord s h (6 + 3 * k)
  ⟨bitOf a 0, a / 2 % 128, a / 256 % 64, wdWord s h (5 + 3 * k) + c % 4096 * 2 ^ 32, c / 4096 % 256⟩

def State.walkRt (s : State) (h : Nat) : WalkRt := tblGet (fun _ => {}) s.walks h
def setWalkRt (h : Nat) (x : WalkRt) (s : State) : State := { s with walks := tblSet (fun _ => {}) s.walks h x }

/-- A descriptor's USE (07 R212): caravans accepted and unfinished, those whose WALK waits for its replay and those that walk again for a reissue among them. -/
def wdUse (s : State) (h : Nat) : Nat :=
  (allChans.map fun c => ((s.ring c).entries.filter fun e => e.opc == .walk && e.target.toNat = h && !e.recorded).length).sum
    + (s.caravans.filter fun c => c.desc = h && c.dup.isSome).length

/-! ### WALK operands (04 R111, 07 R219) -/

def walkDesc (h : Hdr) : Nat := h.arg.toNat % 2 ^ 12
def walkKeys (h : Hdr) : Nat := h.arg.toNat / 2 ^ 12 % 64 + 1

/-- The journal weight of a WALK (07 R219). -/
def walkWeight (s : State) (h : Hdr) : Nat :=
  let d := walkDesc h
  let g := ((List.range (wdStages s d)).filter fun k => (wdStage s d k).gather).length
  min 128 (cdiv (walkKeys h) 8 + g * walkKeys h)

/-- A byte range lies in the TWIN region (05 R160). -/
def inTwin (s : State) (a n : Nat) : Bool := decide (ordLines s * 128 ≤ a ∧ a + n ≤ topLines s * 128)

/-- A TWIN manifest's descriptor has a stage table outside the TWIN region (05 R161). -/
def walkTwinBad (s : State) (d : Nat) : Bool :=
  (List.range (wdStages s d)).any fun k =>
    let x := wdStage s d k
    !inTwin s x.base (if x.gather then 8 else x.segs * 2048)

/-- A context can be had (07 R218). -/
def ctxFree (s : State) (d : Nat) (resv : Bool) : Bool :=
  if resv then decide (fget s WLK WLK_STATUS_RSVCTX < 64) else decide ((s.walkRt d).ctx < wdNctx s d)

/-! ### Keys (07 R217) -/

/-- The address of a key's entry at a stage, with INDEX. -/
def keyAddr (x : Stage) (k : KeySt) : Nat × Nat :=
  let i := k.next + k.key.toNat / 2 ^ x.shift % 2 ^ x.width
  (x.base + 8 * i, i)

/-- A key's entry is out of range at a stage: STATUS 2 (07 R217, 08 R237). -/
def keyOut (s : State) (m : Nat) (x : Stage) (k : KeySt) : Bool :=
  let (a, i) := keyAddr x k
  (if x.gather then decide (topLines s * 128 ≤ a) || ((s.man m).f.twin && !inTwin s a 8) else decide (x.segs * 2048 ≤ 8 * i))
    || inPool s (a / 128)

/-- The 8-byte entry at an address: its poison and value; a line beyond memory reads as poisoned. -/
def readEntry (s : State) (a : Nat) : Bool × BitVec 64 :=
  match memLine s (a / 128) with
  | none => (true, 0)
  | some (l, p) => (p, counterOf l (a % 128 / 8))

/-- A key after its entry has been read at a stage (07 R217, R225); `last` is set at the last stage. -/
def keyStep (stage : Nat) (last : Bool) (e : Bool × BitVec 64) (k : KeySt) : KeySt :=
  let v := e.2.toNat
  if e.1 then { k with res := some (3, 0, stage) }
  else match v / 2 ^ 62 with
  | 0 => { k with res := some (1, 0, stage) }
  | 1 => if last then { k with next := v % 2 ^ 44, res := some (4, v % 2 ^ 44, stage) } else { k with next := v % 2 ^ 44 }
  | 2 => { k with res := some (0, v % 2 ^ 62, stage) }
  | _ => { k with res := some (5, 0, stage) }

/-- The keys that go out of range at a stage end. -/
def keysRange (s : State) (m d stage : Nat) (l : List KeySt) : List KeySt :=
  l.map fun k => if k.res.isNone && keyOut s m (wdStage s d stage) k then { k with res := some (2, 0, stage) } else k

/-- Every walking key reads its entry from memory as it stands (07 R220, R223). -/
def keysResolve (s : State) (m d stage : Nat) (l : List KeySt) : List KeySt :=
  (keysRange s m d stage l).map fun k =>
    if k.res.isNone then keyStep stage (decide (stage + 1 = wdStages s d)) (readEntry s (keyAddr (wdStage s d stage) k).1) k else k

/-- A whole walk on memory as it stands, as a completed WALK's reissue takes it (07 R227). -/
def walkAll (s : State) (m d : Nat) (keys : List Slot) : List KeySt :=
  (List.range (wdStages s d)).foldl (fun l k => keysResolve s m d k l) (keys.map fun k => { key := k })

/-- A result slot (07 R225). -/
def resSlot (i : Nat) (k : KeySt) : Slot :=
  let (st, v, sg) := k.res.getD (0, 0, 0)
  BitVec.ofNat 128 (v * 2 ^ 64 + st * 2 ^ 56 + sg * 2 ^ 48 + i * 2 ^ 42)

def walkSlots (l : List KeySt) : List Slot := l.zipIdx.map fun x => resSlot x.2 x.1

/-- INFO of a WALK's DONE (04 R117, 07 R226). -/
def walkInfo (l : List KeySt) (waited bypassed : Nat) : BitVec 64 :=
  let n := fun (p : Nat → Bool) => (l.filter fun k => p (k.res.getD (0, 0, 0)).1).length
  BitVec.ofNat 64 (l.length + n (· == 0) * 2 ^ 8 + n (· == 1) * 2 ^ 16 + n (2 ≤ ·) * 2 ^ 24 + waited * 2 ^ 32 + bypassed * 2 ^ 40)

/-! ### Images (07 R221, R222) -/

/-- The slot whose image is of a stage. -/
def imgOf (rt : WalkRt) (stage : Nat) : Option (Nat × ImgSlot) :=
  (rt.slots.zipIdx.find? fun x => x.1.stage = some stage).map fun x => (x.2, x.1)

/-- A slot is in use (07 R221). -/
def slotBusy (s : State) (h : Nat) (x : ImgSlot) : Bool :=
  match x.stage with
  | none => false
  | some k => !x.present || (s.caravans.any fun c => c.desc = h && c.ph != .context && ((c.stage = k && c.ph != .lines) || c.stage + 1 = k))

/-- The slot that a new image takes: an empty one, or the least recently used that is not in use. -/
def pickSlot (s : State) (h : Nat) : Option Nat :=
  let l := (s.walkRt h).slots.zipIdx
  match l.find? fun x => x.1.stage.isNone with
  | some x => some x.2
  | none =>
    ((l.filter fun x => !slotBusy s h x.1).foldl (fun (a : Option (Nat × Nat)) x => match a with
      | some b => if x.1.used < b.2 then some (x.2, x.1.used) else a
      | none => some (x.2, x.1.used)) none).map (·.1)

/-- A line read joins the walk engine's reads; a line of a lost channel comes back poisoned at once (07 R228). -/
def addRead (r : WalkRead) (s : State) : State :=
  let lost := match placeOf s r.line with
    | none => true
    | some p => (probeLine s r.line).isNone && !chanUp s (servedAt s p)
  { s with wreads := s.wreads ++ [if lost then { r with back := some (true, 0) } else r] }

/-- A load of a stage's image starts if the stage is STREAM and its image is neither present nor loading; with no slot free it waits for one. -/
def checkStage (h stage : Nat) (t : Trigger) (s : State) : State :=
  let x := wdStage s h stage
  let rt := s.walkRt h
  if wdStages s h ≤ stage ∨ x.gather ∨ (imgOf rt stage).isSome then s else
    match pickSlot s h with
    | none => if rt.wanted.any fun w => w.1 = stage then s else setWalkRt h { rt with wanted := rt.wanted ++ [(stage, t)] } s
    | some k =>
      let n := x.segs * 16
      let s := setWalkRt h { rt with slots := rt.slots.set k { stage := some stage, total := n } } s
      forAll (List.range n) (fun i s =>
        addRead { image := true, a := h, b := k, key := i, line := x.base / 128 + i, port := t.port, man := BitVec.ofNat 8 (wdMan s h), o := t.o, cyc := t.cyc, strm := t.strm } s) s

/-- Loads that waited for a slot start as slots come free. -/
def startWanted (h : Nat) (s : State) : State :=
  let w := (s.walkRt h).wanted
  forAll w (fun x s => checkStage h x.1 x.2 s) (setWalkRt h { s.walkRt h with wanted := [] } s)

/-! ### Stages (07 R220, R224) -/

def updCaravan (ring : Fin 16) (entry : Nat) (f : Caravan → Caravan) (s : State) : State :=
  { s with caravans := s.caravans.map fun c => if c.ring = ring ∧ c.entry = entry then f c else c }

def State.caravan (s : State) (ring : Fin 16) (entry : Nat) : Option Caravan := s.caravans.find? fun c => c.ring = ring && c.entry = entry

/-- A caravan as the trigger of image loads. -/
def Caravan.trigger (c : Caravan) : Trigger := ⟨c.port, c.o, c.cyc, c.strm⟩

/-- A caravan's stage is resolved by one line read for each key still walking (07 R217, R224). -/
def lineStage (ring : Fin 16) (entry : Nat) (s : State) : State :=
  match s.caravan ring entry with
  | none => s
  | some c =>
    let keys := keysRange s c.man.toNat c.desc c.stage c.keys
    let s := updCaravan ring entry (fun c => { c with ph := .lines, keys := keys }) s
    forAll (keys.zipIdx.filter fun x => x.1.res.isNone) (fun x s =>
      addRead { image := false, a := ring.val, b := entry, key := x.2, line := (keyAddr (wdStage s c.desc c.stage) x.1).1 / 128, port := c.port, man := c.man, o := c.o, cyc := c.cyc, strm := c.strm }
        (fbump WLK WLK_GATHER_COUNT s)) s

/-- A caravan's STREAM stage is resolved by BYPASS (07 R224). -/
def bypassStage (ring : Fin 16) (entry : Nat) (s : State) : State :=
  lineStage ring entry (fbump WLK WLK_BYPASS_COUNT (updCaravan ring entry (fun c => { c with bypassed := c.bypassed + 1 }) s))

/-- A caravan's STREAM stage has no present image: it proceeds by its descriptor's POLICY (07 R224). -/
def stageAbsent (ring : Fin 16) (entry : Nat) (s : State) : State :=
  match s.caravan ring entry with
  | none => s
  | some c =>
    if wdBypass s c.desc then bypassStage ring entry s
    else
      let s := fbump WLK WLK_STALL_COUNT (updCaravan ring entry (fun c => { c with ph := .waiting s.ns, waited := c.waited + 1 }) s)
      if wdHoldNs s c.desc = 0 then bypassStage ring entry s else s

/-- A slot's image is resolved from: it is now the one most recently used (07 R221). -/
def useSlot (h k : Nat) (s : State) : State :=
  let rt := s.walkRt h
  setWalkRt h { rt with uses := rt.uses + 1, slots := rt.slots.modify k fun x => { x with used := rt.uses + 1 } } s

/-- A caravan begins a stage: the next stage's image is looked after, and the stage begins from its image, waits, or is read line by line (07 R220 to R224). -/
def beginStage (ring : Fin 16) (entry stage : Nat) (s : State) : State :=
  match s.caravan ring entry with
  | none => s
  | some c =>
    let s := updCaravan ring entry (fun c => { c with stage := stage }) s
    let s := checkStage c.desc (stage + 1) c.trigger s
    if (wdStage s c.desc stage).gather then lineStage ring entry s
    else
      match imgOf (s.walkRt c.desc) stage with
      | some (k, x) =>
        if x.present then useSlot c.desc k (updCaravan ring entry (fun c => { c with ph := .image }) s) else stageAbsent ring entry s
      | none => stageAbsent ring entry (checkStage c.desc stage c.trigger s)

/-- A caravan that has its context begins: stage 0 is looked after, and begins (07 R221). -/
def startCaravan (c : Caravan) (s : State) : State := beginStage c.ring c.entry 0 (checkStage c.desc 0 c.trigger s)

/-- A granted WALK takes its context and begins (07 R218, R221). -/
def walkGrant (ring : Fin 16) (entry : Nat) (d : Nat) (keys : List Slot) (t : Trigger) (man : BitVec 8) (resv : Bool) (s : State) : State :=
  let s := fbumpN WLK WLK_KEYS_COUNT keys.length (fbump WLK WLK_CARAVAN_COUNT s)
  let s := if resv then fset WLK WLK_STATUS_RSVCTX (fget s WLK WLK_STATUS_RSVCTX + 1) s
    else setWalkRt d { s.walkRt d with ctx := (s.walkRt d).ctx + 1 } s
  let c : Caravan := { ring := ring, entry := entry, desc := d, keys := keys.map fun k => { key := k }, port := t.port, man := man, o := t.o, reserve := resv, cyc := t.cyc, strm := t.strm }
  startCaravan c { s with caravans := s.caravans ++ [c] }

/-- The oldest walk for a reissue that waits for a context of a descriptor takes one and begins (07 R218, R227). -/
def startContext (d : Nat) (s : State) : State :=
  match s.caravans.find? fun c => c.desc = d && c.ph == .context with
  | none => s
  | some c =>
    if !ctxFree s d false then s else
      startCaravan c (updCaravan c.ring c.entry (fun c => { c with ph := .start }) (setWalkRt d { s.walkRt d with ctx := (s.walkRt d).ctx + 1 } s))

/-- A reissue of a completed WALK is walked again, as a caravan of its own that takes a context as under 07 R218 (07 R227). DESIGN CHOICE (log 115): it waits for a context where none is free. -/
def dupWalk (p : Fin 4) (d o : Nat) (keys : List Slot) (man : BitVec 8) (x : DupWalk) (s : State) : State :=
  let c : Caravan := { ring := 0, entry := 4096 + s.order, desc := d, keys := keys.map fun k => { key := k }, port := p, man := man, o := o, ph := .context, dup := some x, cyc := s.d8, strm := x.stream.toNat }
  startContext d (fbumpN WLK WLK_KEYS_COUNT keys.length { s with order := s.order + 1, caravans := s.caravans ++ [c] })

/-- A caravan ends: its context is freed and its reads go (07 R218). -/
def endCaravan (c : Caravan) (s : State) : State :=
  let s := { s with
    caravans := s.caravans.filter fun x => !(x.ring = c.ring && x.entry = c.entry),
    wreads := s.wreads.filter fun r => r.image || !(r.a = c.ring.val && r.b = c.entry) }
  let s := if c.reserve then fset WLK WLK_STATUS_RSVCTX (fget s WLK WLK_STATUS_RSVCTX - 1) s
    else setWalkRt c.desc { s.walkRt c.desc with ctx := (s.walkRt c.desc).ctx - 1 } s
  startContext c.desc (startWanted c.desc s)

end Sys2Proof.Machine
end

