-- ==== Sys2Proof/Machine/Operands.lean ====
section
/-! DEFINITION. The operand forms of requests: where each opcode's ARG and SUB point, its home channel, its journal weight and its charges (01 R10, R22, 04 R111, 05 R140, 06 R183). -/

namespace Sys2Proof.Machine

/-- The line index of an RD, WR, WRP or ADD (04 R111). -/
def reqLine (h : Hdr) : Nat := h.arg.toNat

/-- The queue of an ENQ or DEQ (04 R111). -/
def reqQueue (h : Hdr) : Nat := h.arg.toNat % 2 ^ 17

/-- BYTES of an ENQ (04 R111). -/
def enqBytes (h : Hdr) : Nat := h.arg.toNat / 2 ^ 17 % 2 ^ 14

/-- The home channel of a request (01 R10); none where its address lies beyond installed memory. -/
def reqHome (s : State) (r : Req) : Option (Fin 16) :=
  match r.opc with
  | .rd | .wr | .wrp | .add => (placeOf s (reqLine r.hdr)).map (·.ch)
  | .enq | .deq => queHome s (reqQueue r.hdr)
  | .walk => some (wdHome s (walkDesc r.hdr))
  | .sync => none

/-- The journal weight of a request (01 R22). -/
def reqWeight (s : State) (r : Req) : Nat :=
  match r.opc with
  | .rd | .wr => 1
  | .wrp | .add => 2
  | .enq => cdiv (enqBytes r.hdr) 128 + 1
  | .deq => 73
  | .walk => walkWeight s r.hdr
  | .sync => 0

/-- The lines charged to the port's toll gate at grant (06 R183). -/
def reqToll (r : Req) : Nat :=
  match r.opc with
  | .enq => cdiv (enqBytes r.hdr) 128
  | .walk => cdiv (walkKeys r.hdr) 8
  | .sync => 0
  | _ => 1

/-- The lines charged to the manifest's account at the channel that serves the request (05 R140). -/
def reqLines : Opc → Nat
  | .wrp | .add => 2
  | _ => 1

/-- A request that writes a line. -/
def isWrite : Opc → Bool
  | .wr | .wrp | .add => true
  | _ => false

/-- TARGET of a journal entry (01 R20, 04 R112). -/
def reqTarget (r : Req) : BitVec 44 :=
  match r.opc with
  | .add => BitVec.ofNat 44 (reqLine r.hdr * 128 + 8 * r.hdr.sub.toNat)
  | .rd | .wr | .wrp => BitVec.ofNat 44 (reqLine r.hdr * 128)
  | .enq | .deq => BitVec.ofNat 44 (reqQueue r.hdr)
  | .walk => BitVec.ofNat 44 (walkDesc r.hdr)
  | .sync => 0

/-- OPERAND of an ADD (04 R111). -/
def addOperand (body : List Slot) : BitVec 64 := BitVec.ofNat 64 (slotBits ((body.head?).getD 0) 127 64)

/-- The data slots that an entry stages (01 R21): the payload of WR and WRP, the keys of WALK. -/
def reqStaged (r : Req) : List Slot :=
  match r.opc with
  | .wr | .wrp | .walk => r.slots
  | _ => []

/-- The journal entry that a granted request begins with (01 R20, R21). -/
def reqEntry (s : State) (r : Req) (p : Fin 4) (d : Nat) (late hit twin : Bool) : JEntry where
  st := if r.opc = .wr then .rslt else .pend
  opc := r.opc
  twin := twin
  man := r.hdr.man
  port := p
  stream := r.hdr.stream
  seq := r.hdr.seq
  tag := r.hdr.tag
  weight := reqWeight s r
  target := reqTarget r
  resp := if r.opc = .add then addOperand r.slots else 0
  stageV := r.opc == .wr || r.opc == .wrp || r.opc == .enq || r.opc == .walk
  deadline := r.hdr.deadline
  staged := reqStaged r
  sub := r.hdr.sub
  arg := r.hdr.arg
  d := d
  late := late
  ndf := r.hdr.ndf
  hit := hit

end Sys2Proof.Machine
end

