-- ==== Sys2Proof/Machine/Flags.lean ====
section
/-! DEFINITION. The flags and standings that rules compute: RT flag, below-minimum rank, class offset, boost and effective deadline, throttles and shares (06 R171 to R187), and the states in which intake refuses (04 R123). -/

namespace Sys2Proof.Machine

/-! ### Accounts (06 R172, R176, R195) -/

/-- The account is below its effective minimum. -/
def acctBelow (s : State) (m c : Nat) : Bool := decide ((s.acct m c).count < (s.acct m c).emin)

/-- The class of a manifest. -/
def manCls (s : State) (m : Nat) : MClass := (s.man m).f.cls

/-- The RT flag at an arbiter (06 R172); arbiter 16 is the Waystation's. -/
def rtFlag (s : State) (m : Nat) (a : Fin 17) : Bool := manCls s m == .rt && (a.val == 16 || acctBelow s m a.val)

/-- The below-minimum rank at an arbiter (06 R172). -/
def belowRank (s : State) (m : Nat) (a : Fin 17) : Nat :=
  if a.val = 16 ∨ acctBelow s m a.val then
    match manCls s m with
    | .guar => 2
    | .shared => 1
    | .rt => 0
  else 0

/-- The word of an offset or boost register that the present CK_CORE cycle's grants and classifications use: for one more cycle after a write, the old one (06 R175). -/
def ofsWord (s : State) (f : Fld) : Word :=
  match s.ofsOld.find? fun x => x.2.1 = ARB + f.off && decide (s.d8 < x.1) with
  | some x => x.2.2
  | none => rg s (ARB + f.off)

/-- A write of an offset or boost register reaches the core: the word it had counts for this cycle and the next (06 R175). -/
def keepOfs (off : Nat) (s : State) : State :=
  { s with ofsOld := (s.ofsOld.filter fun x => decide (s.d8 < x.1)) ++ [(s.d8 + 2 * coreTick8 s, ARB + off, rg s (ARB + off))] }

/-- OFS(class) (06 R173, R175). -/
def clsOfs (s : State) (k : MClass) : Nat :=
  match k with
  | .rt => ARB_CLSOFS0_RT.get (ofsWord s ARB_CLSOFS0_RT)
  | .guar => ARB_CLSOFS0_GUAR.get (ofsWord s ARB_CLSOFS0_GUAR)
  | .shared => ARB_CLSOFS1_SHARED.get (ofsWord s ARB_CLSOFS1_SHARED)

/-- BOOST (06 R174) of a request with deadline d classified at t under a latency target. -/
def boostOf (s : State) (d t lat : Nat) (late : Bool) : Nat :=
  if late then 0 else min (ARB_BOOST_MAX_NS.get (ofsWord s ARB_BOOST_MAX_NS)) ((d - t - lat) * ARB_BOOST_GAIN.get (ofsWord s ARB_BOOST_GAIN) / 16)

/-! ### Throttles and shares (06 R185, R187) -/

/-- Lines granted at a channel in the present period: those charged to manifests, and those of background slots that no manifest is charged with. -/
def linesGranted (s : State) (c : Fin 16) : Nat :=
  ((s.accts.filter fun a => a.1 % 16 = c.val).map fun a => a.2.count).sum + (s.chan c).bgLines

/-- A channel limit is reached. -/
def chThrottled (s : State) (c : Fin 16) : Bool :=
  let l := fget s ARB (ARB_THRCH_LIMIT.nth c)
  l != 0 && decide (l ≤ linesGranted s c)

/-- A manifest limit is reached. -/
def manThrottled (s : State) (m : Nat) (c : Fin 16) : Bool :=
  (s.acct m c).thr != 0x3FF && decide ((s.acct m c).thr ≤ (s.acct m c).count)

/-- General slots that a manifest holds at an arbiter (06 R185). -/
def heldGeneral (s : State) (m : BitVec 8) (a : Fin 17) : Nat :=
  if h : a.val < 16 then ((s.chan ⟨a.val, h⟩).intake.filter fun x => x.slot == .general && x.man = some m).length
  else ((s.arb a).held.filter fun x => x.kind == .general && x.man = m).length + (s.wayOps.filter fun x => x.slot == .general && x.man = m).length

/-- The intake share of a manifest at an arbiter (06 R185). -/
def intakeShare (s : State) (m : Nat) (a : Fin 17) : Nat := cdiv ((s.man m).f.ishare * (if a.val = 16 then 256 else 56)) 256

/-- A manifest holds its share. -/
def shareFull (s : State) (m : BitVec 8) (a : Fin 17) : Bool := decide (intakeShare s m.toNat a ≤ heldGeneral s m a)

/-- Free general slots at an arbiter (06 R166). -/
def freeGeneral (s : State) (a : Fin 17) : Nat :=
  if h : a.val < 16 then 56 - ((s.chan ⟨a.val, h⟩).intake.filter fun x => x.slot == .general).length
  else 256 - ((s.arb a).held.filter fun x => x.kind == .general).length - (s.wayOps.filter fun x => x.slot == .general).length

/-- Commands granted at a channel and not issued (06 R168). -/
def windowUse (s : State) (c : Fin 16) : Nat := (s.chan c).intake.length + (s.chan c).line.length

/-- There is room under the window of 06 R168. -/
def windowRoom (s : State) (c : Fin 16) : Bool := decide (windowUse s c < 64)

/-! ### Background slots (06 R166, 09 R288) -/

/-- One of the five items' allowances of the ledger pays for a unit (12 R355). -/
def allowed (s : State) (k : Fin 5) : Bool :=
  match s.led.allow[k] with
  | none => true
  | some n => decide (0 < n)

/-- The ledger's item that a background request falls under; none is never withheld. Item 2 holds the write-backs above WB_HI alone: not those of a demotion, of a close or of a reduced DIRTY. -/
def bgItem (s : State) (x : Cmd) : Option (Fin 5) :=
  let wb := fun (pin : Bool) (f i : Nat) =>
    let y := s.frame pin f
    match y.charge.find? fun q => q.1 = i with
    | some (_, .man m) => if y.st = .leaving ∨ (s.man m.toNat).st ≠ .opened ∨ (s.man m.toNat).f.dirty < dirtyOf s m then none else some 1
    | _ => none
  match x.src with
  | .wback pin f i => wb pin f i
  | .wbackTwin pin f i => wb pin f i
  | .fill pin _ _ => if pin then none else some 4
  | _ => none

/-- A channel's two background slots of a kind: one for migration, scrub and queue-engine traffic, one for self-test. -/
def bgSlotFree (s : State) (c : Fin 16) (k : SlotKind) : Bool := decide (((s.chan c).intake.filter fun x => x.slot == k).length < 2)

/-- A background command that holds one of the Waystation's migration slots too: a fill, or the write-back of a line. -/
def onWay (x : Cmd) : Bool :=
  match x.src with
  | .wback _ _ _ => true
  | .fill _ _ _ => true
  | _ => false

/-- The Waystation's four migration slots that are taken. DESIGN CHOICE (log 127): a write-back or a fill holds one from its grant until it is admitted. -/
def wayMigUse (s : State) : Nat := (allChans.map fun c => ((s.chan c).intake.filter onWay).length).sum

/-- A background request has its slots, and the ledger does not hold it back. -/
def bgOffered (s : State) (c : Fin 16) (x : Cmd) : Bool :=
  bgSlotFree s c x.slot
    && (!onWay x || decide (wayMigUse s < 4))
    && (match bgItem s x with
      | none => true
      | some k => allowed s k)

/-! ### Self-test's hold on a channel's rows (13 R376 to R382) -/

/-- A number joins a set that is kept as runs, each from its first up to before its last, in ascending order. -/
def putRun (n : Nat) : List (Nat × Nat) → List (Nat × Nat)
  | [] => [(n, n + 1)]
  | (a, b) :: l =>
    if n + 1 < a then (n, n + 1) :: (a, b) :: l
    else if n + 1 = a then (n, b) :: l
    else if n < b then (a, b) :: l
    else if n = b then (match l with
      | (a2, b2) :: r => if a2 = b + 1 then (a, b2) :: r else (a, b + 1) :: l
      | [] => [(a, b + 1)])
    else (a, b) :: putRun n l

/-- The size of such a set. -/
def runsLen (l : List (Nat × Nat)) : Nat := (l.map fun x => x.2 - x.1).sum

/-- The Waystation arbiter's self-test slots that are taken (06 R166, 13 R370). -/
def waySelfUse (s : State) : Nat :=
  match s.bist.way with
  | some x => x.slots
  | none => 0

/-- Lines of a row (09 R267). -/
def rowLen (s : State) : Nat := geoCols s

/-- The place of the row with a given index in the order of 13 R376: row, rank, bank group, bank. -/
def sliceRow (s : State) (idx : Nat) : Nat × Nat × Nat × Nat :=
  let k := idx % (geoRanks s * 32)
  (idx / (geoRanks s * 32), k / 32, k % 32 / 4, k % 4)

/-- A line lies in a row given by its index. -/
def inSliceRow (s : State) (idx lam : Nat) : Bool :=
  let b := bankOf s lam
  (b.row, b.rank, b.bg, b.bank) == sliceRow s idx

/-- The line of a rank with rank-local index ρ: the target bits of λ are those that the bank hash maps to the place. -/
def lamOf (s : State) (r rho : Nat) : Option Nat :=
  let bg := rho % 8
  let bk := rho / 8 % 4
  let col := rho / 32 % geoCols s
  let row := rho / 32 / geoCols s
  let base := row * 2 ^ rowB s + col * 2 ^ (4 + geoRanks s)
  ((List.range (2 ^ bkTargets s)).map fun t => base + t).find? fun l =>
    let b := bankOf s l
    (b.rank, b.bg, b.bank, b.row, b.col) == (r, bg, bk, row, col)

/-- The lines of the slice's row. -/
def rowLams (s : State) (idx : Nat) : List Nat :=
  let (row, rank, bg, bank) := sliceRow s idx
  (List.range (geoCols s)).filterMap fun col => lamOf s rank (((row * geoCols s + col) * 4 + bank) * 8 + bg)

/-- A command of a DRAM slice (13 R377 to R381). -/
def isBist (x : Cmd) : Bool := x.src == .bist

/-- Commands of a slice wait for a slot or in one. -/
def bistWaits (s : State) (c : Fin 16) : Bool := ((s.chan c).bg.any fun b => isBist b.cmd) || (s.chan c).intake.any isBist

/-- Commands of a slice have not all ended. -/
def bistOut (s : State) (c : Fin 16) : Bool := bistWaits s c || (s.chan c).line.any isBist || (s.chan c).flight.any fun f => isBist f.cmd

/-- A line of a channel is displaced (13 R377, R378): from the end of its row's copy until the restore's last write is admitted (13 R381). -/
def displaced (s : State) (c : Fin 16) (lam : Nat) : Bool :=
  match s.bist.dram[c] with
  | some x => inSliceRow s x.idx lam && (match x.ph with
    | .copy => false
    | .test _ _ => true
    | .restore _ => bistWaits s c)
  | none => false

/-! ### The sparing rewrite (10 R300, R301) -/

/-- Lines of the rewrite that have been admitted and not yet written. -/
def spareOut (s : State) (c : Fin 16) : Nat :=
  let y := s.chan c
  ((y.line ++ y.mergeQ ++ y.flight.map Flight.cmd).filter fun x => x.src == .spare && !x.wr).length + (y.mergeQ.filter fun x => x.src == .spare && x.wr).length

/-- The next line of a channel's rewrite, where it may be asked for now: a rewrite waits until the one before it has been admitted, and for the restore of a displaced row (13 R381). -/
def spareNext (s : State) (c : Fin 16) : Option Nat :=
  match (s.chan c).spareQ with
  | [] => none
  | r :: _ =>
    let rho := fget s (CH c) CH_SPAREPTR_PTR + spareOut s c
    if rankLines s ≤ rho ∨ (s.chan c).spareLeft = 0 ∨ ((s.chan c).intake.any fun x => x.src == .spare) then none
    else (lamOf s r.val rho).filter fun lam => !displaced s c lam

/-! ### Who comes first (09 R288) -/

/-- The bucket of a background request holds a line, or the request draws on none. -/
def bgFull (s : State) (c : Fin 16) (k : BgCls) : Bool :=
  match k with
  | .mig => decide (16 ≤ (s.chan c).bkMig)
  | .bst => decide (16 ≤ (s.chan c).bkBst)
  | .free => true

/-- A background request that ranks ahead of every contestant stands at a channel's arbiter: one whose bucket holds a line, or the next line of a sparing rewrite (10 R300). -/
def bgFirst (s : State) (c : Fin 16) : Bool :=
  windowRoom s c && (((s.chan c).bg.any fun r => bgFull s c r.cls && bgOffered s c r.cmd) || (bgSlotFree s c .background && (spareNext s c).isSome))

/-! ### Clocks of a channel (02 R48, 11 R342) -/

/-- The data rate a channel runs at. -/
def chMts (s : State) (c : Fin 16) : Nat := mtsOf (s.chan c).trnRate

/-- n DRAM CK cycles in eighths of a ns, rounded up. -/
def ck8 (s : State) (c : Fin 16) (n : Nat) : Nat := cdiv (n * 16000) (chMts s c)

/-- n CK_CHn cycles in eighths of a ns, rounded up. -/
def chCk8 (s : State) (c : Fin 16) (n : Nat) : Nat := cdiv (n * 64000) (chMts s c)

/-- The length of a command's alert window, in eighths of a ns (10 R309). -/
def windowLen8 (s : State) (c : Fin 16) (wr : Bool) : Nat :=
  let ca := fget s (CH c) CH_ALERTCFG_CA_WIN
  ck8 s c (if wr then max ca (fget s (CH c) CH_TIM0_CWL + 8 + fget s (CH c) CH_ALERTCFG_CRC_WIN) else min ca (fget s (CH c) CH_TIM0_CL))

/-- The end of a command's alert window, in eighths of a ns (10 R309). -/
def windowEnd8 (s : State) (c : Fin 16) (f : Flight) : Nat := f.at8 + windowLen8 s c f.cmd.wr

def PauseKind.isVref : PauseKind → Bool
  | .timing _ => false
  | .vref _ => true

/-- The length of a pause in CK_CHn cycles, by its kind and OSC_RUN (11 R342). -/
def pauseLen (s : State) (c : Fin 16) (k : PauseKind) : Nat :=
  let run := match fget s (PHY c) PHY_PROOF2_OSC_RUN with
    | 0 => 256
    | 1 => 512
    | _ => 1024
  (if k.isVref then 1008 else 840) - 256 + run / 4

/-! ### Toll gates (06 R182 to R184) -/

def tollRate (s : State) (p : Fin 4) : Nat := fget s ARB (ARB_TOLL_RATE.nth p)

/-- BURST, with 0 read as 1 (06 R193). -/
def tollBurst (s : State) (p : Fin 4) : Nat := max 1 (fget s ARB (ARB_TOLL_BURST.nth p))

/-- The gate's level is below a charge in lines. -/
def tollShort (s : State) (p : Fin 4) (lines : Nat) : Bool := tollRate s p != 0 && decide (s.toll[p] < 16 * (lines : Int))

/-- Put a level into a gate; the register shows it as 24-bit two's complement. -/
def setToll (p : Fin 4) (v : Int) (s : State) : State :=
  fset ARB (ARB_TOLLLVL_LEVEL.nth p) (v % 2 ^ 24).toNat { s with toll := s.toll.set p v }

/-- Charge lines to a gate, not below -BURST. -/
def tollCharge (p : Fin 4) (lines : Nat) (s : State) : State :=
  if tollRate s p = 0 then s else setToll p (max (-(16 * (tollBurst s p : Int))) (s.toll[p] - 16 * (lines : Int))) s

/-! ### Intake states (04 R123) -/

/-- A channel is IN_SERVICE. -/
def inService (s : State) (c : Fin 16) : Bool := chState s c == 3 && !(s.phy c).parkDue

/-- Warm-reset replay is in progress: a ring that is not lost waits for its own (01 R39). -/
def replaying (s : State) : Bool := allChans.any fun c => (s.chan c).replayDue && !(s.chan c).lost

/-- WHY of a REFUSE_STATE; none where New requests are taken. -/
def stateWhy (s : State) : Option Nat :=
  if replaying s then some 1
  else if s.pwr.entry.isSome || s.pwr.dozeExit.isSome then some 2
  else if allChans.any (inService s) then none
  else some 0

/-- An entry to DOZE or BANKED has passed its drain: background work has stopped (14 R401). -/
def entering (s : State) : Bool :=
  match s.pwr.entry with
  | none => false
  | some (_, _, k) => k != .drain

/-- The core domain is clocked and classification has not stopped. -/
def coreRuns (s : State) : Bool :=
  s.pwr.mode == .run && !s.pwr.halted
    && (match s.pwr.warm with
      | .held _ => false
      | _ => true)

end Sys2Proof.Machine
end

