-- ==== Sys2Proof/Machine/Arb.lean ====
section
/-! DEFINITION. The arbiters: the ordering key, eligibility, grants with acceptance, losses with back-off, reserved slots and DEFER (06 R166 to R191, 01 R8, 04 R125 to R130). -/

namespace Sys2Proof.Machine

/-! ### Bids and their order (06 R171) -/

/-- A contestant of an arbiter as the ordering key sees it: a request, or a line read of the walk engine by its place in `wreads`. -/
structure Bid where
  flag : Bool
  rank : Nat
  e : Int
  dist : Nat
  order : Nat
  strm : Nat
  req : Option Contestant
  read : Nat
  deriving DecidableEq, Repr

/-- The ordering key: whether `a` comes before `b` (06 R171). -/
def bidBefore (a b : Bid) : Bool :=
  if a.flag ≠ b.flag then a.flag
  else if a.rank ≠ b.rank then decide (b.rank < a.rank)
  else if a.e ≠ b.e then decide (a.e < b.e)
  else if a.dist ≠ b.dist then decide (a.dist < b.dist)
  else if a.order ≠ b.order then decide (a.order < b.order)
  else decide (a.strm < b.strm)

def insBid (x : Bid) : List Bid → List Bid
  | [] => [x]
  | a :: r => if bidBefore x a then x :: a :: r else a :: insBid x r

/-- Bids in rank order; those that tie in every level keep their order. -/
def sortBids (l : List Bid) : List Bid := l.foldl (fun a x => insBid x a) []

/-- How far a port is behind an arbiter's round-robin pointer. -/
def rrDist (s : State) (a : Fin 17) (p : Fin 4) : Nat := (p.val + 4 - (s.arb a).rr.val) % 4

/-- A request's bid at an arbiter; its flag and rank are those at arbiter `at_` (06 R172, R190). DESIGN CHOICE (log 110): in the partner's contest of a TWIN write the round-robin pointer is the partner's. -/
def bidOf (s : State) (a at_ : Fin 17) (c : Contestant) : Bid where
  flag := rtFlag s c.req.hdr.man.toNat at_
  rank := belowRank s c.req.hdr.man.toNat at_
  e := (c.o : Int) - clsOfs s (manCls s c.req.hdr.man.toNat) - c.boost
  dist := rrDist s a c.port
  order := c.cyc
  strm := c.req.hdr.stream.toNat
  req := some c
  read := 0

/-- The arbiter that a line of the walk engine contests (07 R220): 16 on a probe hit. -/
def readArb (s : State) (r : WalkRead) : Option Nat :=
  match probeLine s r.line with
  | some _ => some 16
  | none => (placeOf s r.line).map fun p => (servedAt s p).val

/-- A line read stands in contest. -/
def readReady (s : State) (r : WalkRead) : Bool :=
  !r.busy && r.back.isNone && (match r.retryAt with
    | some t => decide (t ≤ s.ns)
    | none => true)

/-- A line read's bid, with the classification cycle and the stream of the WALK that it serves. DESIGN CHOICE (log 110): a tie in every level it loses against a request, and between line reads the older one wins. -/
def readBid (s : State) (a : Fin 17) (r : WalkRead) (i : Nat) : Bid where
  flag := rtFlag s r.man.toNat a
  rank := belowRank s r.man.toNat a
  e := (r.o : Int) - clsOfs s (manCls s r.man.toNat)
  dist := rrDist s a r.port
  order := r.cyc
  strm := r.strm
  req := none
  read := i

/-- A channel's arbiter. -/
def chArb (c : Fin 16) : Fin 17 := ⟨c.val, by omega⟩

/-- The channel of an arbiter. -/
def arbCh (a : Fin 17) : Fin 16 := Fin.ofNat 16 a.val

/-- TWIN writes of the partner's arbiter that also stand in this channel's contest (06 R190). -/
def twinBids (s : State) (a : Fin 17) : List Bid :=
  if a.val = 16 then [] else
    let p := chArb (partnerOf (arbCh a))
    ((s.arb p).contest.filter fun c => decide (c.at8 < s.d8) && c.twin && !c.hit && isWrite c.req.opc && c.home = partnerOf (arbCh a) && twinUp s (arbCh a)).map (bidOf s a p)

/-- The bids at an arbiter of its own requests and line reads. A request's key is evaluated in the cycle after its entry (06 R169); a line read that is due a reserved slot takes one only at a channel arbiter (06 R179). -/
def ownBids (s : State) (a : Fin 17) : List Bid :=
  ((s.arb a).contest.filter fun c => decide (c.at8 < s.d8)).map (bidOf s a a)
    ++ (s.wreads.zipIdx.filter fun x => readReady s x.1 && (!x.1.resv || a.val = 16) && readArb s x.1 == some a.val).map (fun x => readBid s a x.1 x.2)

/-- Every bid at an arbiter, in rank order. -/
def arbBids (s : State) (a : Fin 17) : List Bid := sortBids (ownBids s a ++ twinBids s a)

/-! ### Eligibility -/

/-- Why a bid cannot be granted: a throttle, a toll gate and nothing else, or another reason; or it can. -/
inductive Verdict where
  | ok | throttle | toll | other
  deriving DecidableEq, Repr

/-- A TWIN write that needs both channels of its pair. -/
def needsPartner (s : State) (c : Contestant) : Bool := c.twin && !c.hit && isWrite c.req.opc && twinUp s c.home && twinUp s (partnerOf c.home)

/-- The ledger's level makes a rank-0 contestant ineligible (12 R357, R358). -/
def ledgerBars (s : State) (m : Nat) : Bool :=
  let l := fget s LED LED_STATUS_LEVEL
  decide (3 ≤ l) || (decide (l = 2) && manCls s m == .shared)

/-- The channels at which a request takes a slot: both of its pair for a TWIN write (06 R190). -/
def slotChans (s : State) (a : Fin 17) (c : Contestant) : List (Fin 16) :=
  if a.val = 16 then [] else if needsPartner s c then [c.home, partnerOf c.home] else [arbCh a]

/-- A general slot can be had at a channel (06 R166, R168). -/
def slotAt (s : State) (c : Fin 16) : Bool := freeGeneral s (chArb c) != 0 && windowRoom s c

/-- A request's eligibility at an arbiter, its toll gate aside. `resv` is set for a RESV attempt, which needs a general slot at the partner of its home channel only. -/
def eligible (s : State) (a : Fin 17) (c : Contestant) (resv : Bool) : Verdict :=
  let m := c.req.hdr.man
  if (slotChans s a c).any fun ch => chThrottled s ch || manThrottled s m.toNat ch then .throttle
  else if !resv && (shareFull s m a || ((slotChans s a c).any fun ch => shareFull s m (chArb ch))) then .other
  else if a.val ≠ 16 then
    if needsPartner s c ∧ !(slotAt s (partnerOf c.home) && (resv || slotAt s c.home)) then .other else .ok
  else
    match c.req.opc with
    | .enq => if enqFits s (reqQueue c.req.hdr) (cdiv (enqBytes c.req.hdr) 128) resv then .ok else .other
    | .walk => if ctxFree s (walkDesc c.req.hdr) resv then .ok else .other
    | .wr | .wrp | .add =>
      match probeLine s (reqLine c.req.hdr) with
      | some (pin, f) =>
        if frameHolds s pin f ∨ (writeCharge s m (s.frame pin f) (reqLine c.req.hdr % 16)).isNone then .other else .ok
      | none => .ok
    | _ => .ok

/-- A bid's verdict. No manifest limit covers the line reads of accepted work (10 R321). -/
def verdict (s : State) (a : Fin 17) (b : Bid) : Verdict :=
  match b.req with
  | none =>
    match s.wreads[b.read]? with
    | some r =>
      if a.val ≠ 16 ∧ chThrottled s (arbCh a) then .throttle
      else if shareFull s r.man a then .other else .ok
    | none => .other
  | some c =>
    match eligible s a c false with
    | .ok =>
      if b.flag ∨ 0 < b.rank then .ok
      else if ledgerBars s c.req.hdr.man.toNat then .other
      else if tollShort s c.port c.toll then .toll else .ok
    | v => v

/-- No eligible bid of an arbiter ranks ahead of a request's (06 R190). -/
def firstAt (s : State) (a : Fin 17) (c : Contestant) : Bool :=
  match (arbBids s a).find? fun b => verdict s a b == .ok || b.req == some c with
  | some b => b.req == some c
  | none => false

/-- The macro group that a Waystation request's target lies in (06 R166, 07 R199, 08 R238): none for a WALK, which has no target line there. -/
def macroGroup (s : State) (b : Bid) : Option Nat :=
  let ofLine := fun l => (probeLine s l).map fun x => x.2 % 4
  match b.req with
  | some c =>
    match c.req.opc with
    | .enq | .deq => some (reqQueue c.req.hdr % 4)
    | .walk | .sync => none
    | _ => ofLine (reqLine c.req.hdr)
  | none => (s.wreads[b.read]?).bind fun r => ofLine r.line

/-! ### DEFER (04 R130, 06 R181) -/

/-- Commands granted at a channel and not issued that stand ahead of one that a condition picks: none once it has issued. -/
def aheadOf (s : State) (c : Fin 16) (mine : CmdSrc → Bool) : Nat :=
  let y := s.chan c
  if y.line.any fun x => mine x.src then (y.line.takeWhile fun x => !mine x.src).length
  else if (y.flight.any fun f => mine f.cmd.src) || y.mergeQ.any fun x => mine x.src then 0
  else y.line.length + (y.intake.takeWhile fun x => !mine x.src).length

/-- T_stall in eighths of a ns (06 R181): the remaining time of a pause or a refresh in progress at a channel; of a replay and of an in-order stall, whose ends are not known, the part that is: the alert windows that must close first. -/
def stallLeft8 (c : Fin 16) (s : State) : Nat :=
  let y := s.chan c
  let pause := match (s.phy c).active with
    | some (k, at8) => at8 + chCk8 s c (pauseLen s c k) - s.d8
    | none => 0
  let refr := (y.hist.filter fun x => x.kind == .ref).foldl (fun a x => max a (x.at8 + ck8 s c (fget s (CH c) CH_TIM5_TRFCSB))) 0 - s.d8
  let wins := fun (p : Cmd → Bool) => (y.flight.filter fun f => f.window && p f.cmd).foldl (fun a f => max a (windowEnd8 s c f)) 0 - s.d8
  let repl := if y.replay.isSome then wins (fun _ => true) else 0
  let inord := match y.inord with
    | some sn => if y.line.any fun x => x.sn = sn then windowLen8 s c true else wins (fun x => x.sn == sn)
    | none => 0
  max (max pause refr) (max repl inord)

/-- The ETA of an access of a channel, in whole ns, rounded up: t_g + T_min + Q × (1,024 ns ÷ P_n) + T_stall (06 R181). -/
def lineEta (c : Fin 16) (g8 : Nat) (rd : Bool) (mine : CmdSrc → Bool) (s : State) : Nat :=
  let mts := chMts s c
  cdiv ((g8 + stallLeft8 c s) * mts + 8 * ((if rd then 48 else 4) * 8000 + aheadOf s c mine * 16000)) (8 * mts)

/-- The ETA of an access of the Waystation, in whole ns, rounded up (06 R181). -/
def wayEta (s : State) (g8 : Nat) : Nat := cdiv (g8 + 6 * coreTick8 s) 8

/-- The ETA of a line read: of a channel, or, where the directory finds its line and no channel has its command, of the Waystation. -/
def readEta (line g8 : Nat) (mine : CmdSrc → Bool) (s : State) : Nat :=
  match placeOf s line with
  | none => 0
  | some p =>
    let y := s.chan (servedAt s p)
    let there := y.intake.any (fun x => mine x.src) || y.line.any (fun x => mine x.src) || y.flight.any fun f => mine f.cmd.src
    if (probeLine s line).isSome ∧ !there then wayEta s g8 else lineEta (servedAt s p) g8 true mine s

/-- The latest ETA among line reads: each with its line, its grant where it has been granted, and what its command is. -/
def latestEta (l : List (Nat × Nat × (CmdSrc → Bool))) (s : State) : Nat := l.foldl (fun a x => max a (readEta x.1 x.2.1 x.2.2 s)) 0

/-- The line reads that a WALK or a DEQ still needs: those of its caravan, those of the image it waits for, its direct reads. -/
def readsNeeded (s : State) (ring : Fin 16) (slot : Nat) (e : JEntry) : List (Nat × Nat × (CmdSrc → Bool)) :=
  let own := fun (l : List WalkRead) => l.map fun r =>
    (r.line, if r.busy then r.grant8 else s.d8, fun x => x == CmdSrc.walk r.image r.a r.b r.key)
  match e.opc with
  | .walk =>
    match s.caravan ring slot with
    | none => []
    | some c =>
      match c.ph with
      | .lines => own (s.wreads.filter fun r => !r.image && r.a = ring.val && r.b = slot && r.back.isNone)
      | .waiting _ =>
        (match imgOf (s.walkRt c.desc) c.stage with
          | some (k, _) => own (s.wreads.filter fun r => r.image && r.a = c.desc && r.b = k && r.back.isNone)
          | none => [])
      | _ => []
  | .deq => (s.que.reads.filter fun r => r.ring = ring && r.entry = slot && r.back.isNone).map fun r =>
      (r.line, e.grant8, fun x => x == CmdSrc.queRead ring slot r.cell)
  | _ => []

/-- The ETA of an accepted request (06 R181). -/
def etaOf (ring : Fin 16) (slot : Nat) (e : JEntry) (s : State) : Nat :=
  if isLineOp e.opc && !e.hit then
    match placeOf s (e.target.toNat / 128) with
    | some p => lineEta (servedAt s p) e.grant8 (e.opc == .rd) (fun x => match x with
        | .req r k _ => r = ring && k = slot
        | _ => false) s
    | none => 0
  else
    match readsNeeded s ring slot e with
    | [] => wayEta s e.grant8
    | l => latestEta l s

/-- Evaluate ETA for an accepted request and send DEFER the first time it exceeds the deadline (04 R130). -/
def deferEval (ring : Fin 16) (slot : Nat) (s : State) : State :=
  match getEntry s ring slot with
  | none => s
  | some e =>
    let w := entrySlot s e
    if e.ndf || e.late || e.deferSent || e.served.isSome || e.recorded || (match w with
        | some w => w.dup || w.tag.isNone
        | none => true) then s else
      let eta := etaOf ring slot e s
      if e.d < eta then
        let s := fbump TXN TXN_DEFER_CNT_COUNT (updEntry ring slot (fun e => { e with deferSent := true }) s)
        match w.bind (·.tag) with
        | some t => respond e.port ⟨1, t, e.stream, e.seq, BitVec.ofNat 4 e.opc.code, false, false, 0, BitVec.ofNat 64 (eta % 2 ^ 32), [], some e.man⟩ s
        | none => s
      else s

/-- An accepted request has an access at a channel that has not reached its service point. -/
def accessAt (s : State) (c ring : Fin 16) (slot : Nat) (e : JEntry) : Bool :=
  let here := fun (l : Nat) => (placeOf s l).map (servedAt s) == some c
  e.served.isNone && (if isLineOp e.opc then !e.hit && here (e.target.toNat / 128) else (readsNeeded s ring slot e).any fun x => here x.1)

/-- A pause, refresh, replay or in-order stall begins at a channel: ETA is evaluated again for every accepted request there (06 R181). -/
def deferAll (c : Fin 16) (s : State) : State :=
  forAll allChans (fun r s =>
    forAll ((s.ring r).entries.zipIdx.filter fun x => accessAt s c r (((s.ring r).head + x.2) % 4096) x.1)
      (fun x s => deferEval r (((s.ring r).head + x.2) % 4096) s) s) s

/-! ### Grants -/

/-- The writes of a grant (01 R8, 02 R57 step 7, R58): the journal entry, the stream record, ACCEPT. The answer is the entry's slot. -/
def accept (c : Contestant) (s : State) : State × Nat :=
  let h := c.req.hdr
  let (s, slot) := pushEntry c.home { reqEntry s c.req c.port c.o c.late c.hit c.twin with grant8 := s.d8 } s
  let r := s.strm c.port h.stream
  let lostSlot := if r.win.length < 32 then none else (r.win.getLast?).bind (·.ret)
  let info : BitVec 64 := BitVec.ofNat 64 (s.ns % 2 ^ 32 + (if c.late then 2 ^ 32 else 0))
  let w : WinSlot := { seq := h.seq, fp := c.fp, opc := c.req.opc, tag := if c.req.void then none else some h.tag, acc := info }
  let s := setStrm c.port h.stream { pushWin r w with busy := false } s
  let s := releaseX c.port c.req (releaseRet lostSlot s)
  let s := fbump TXN TXN_ACC_CNT_COUNT s
  let s := if c.req.void then s else
    respond c.port ⟨0, h.tag, h.stream, h.seq, BitVec.ofNat 4 c.req.opc.code, false, false, 0, info, [], some h.man⟩ s
  (probeAccept c.port c.req.opc h.stream h.seq c.arr c.t (tollCharge c.port c.toll s), slot)

/-- Charge lines to a manifest's account at a channel (05 R140, 06 R176). -/
def chargeLine (m : Nat) (c : Fin 16) (n : Nat) (s : State) : State :=
  let a := s.acct m c.val
  setAcct m c.val { a with count := a.count + n } s

/-- A granted command joins the channel's intake. -/
def pushCmd (c : Fin 16) (x : Cmd) (s : State) : State := updChan c (fun y => { y with intake := y.intake ++ [x] }) s

/-- The round-robin pointer stands at the port after the winner. -/
def setRr (a : Fin 17) (p : Fin 4) (s : State) : State := updArb a (fun x => { x with rr := p + 1 }) s

/-- A request leaves the contest of every arbiter. -/
def leaveContest (c : Contestant) (s : State) : State :=
  { s with arbs := s.arbs.map fun a => { a with contest := a.contest.filter fun x => x.order ≠ c.order, resvWait := a.resvWait.filter fun x => x.order ≠ c.order } }

/-- A request is granted at a channel (02 R62, 05 R140, 06 R190, 07 R201, R203). -/
def grantCh (a : Fin 17) (c : Contestant) (kind : SlotKind) (s : State) : State :=
  let ch := arbCh a
  let h := c.req.hdr
  let m := h.man
  let both := needsPartner s c
  let s := leaveContest c s
  let (s, slot) := accept c s
  let lam := match placeOf s (reqLine h) with
    | some p => p.lam
    | none => 0
  let s := chargeLine m.toNat ch (reqLines c.req.opc) s
  let s := fbump ARB (ARB_GRANT_COUNT.nth ch) (setRr a c.port s)
  let s := onlyIf (kind == .portRes) (fbump ARB (ARB_RESV_COUNT.nth ch)) s
  let s := onlyIf (isWrite c.req.opc) (markStale (reqLine h)) s
  let ph : ReqPh := match c.req.opc with
    | .rd => .read
    | .wr => .write
    | _ => .rphase
  let s := pushCmd ch { src := .req c.home slot ph, line := lam, wr := c.req.opc == .wr, man := some m, slot := kind, port := c.port, data := if c.req.opc = .wr then slotsLine c.req.slots else 0 } s
  let s := if both then
      let pc := partnerOf c.home
      let s := updEntry c.home slot (fun e => { e with twinLeft := true }) s
      let s := fbump ARB (ARB_GRANT_COUNT.nth pc) (chargeLine m.toNat pc 1 (setRr (chArb pc) c.port s))
      pushCmd pc { src := .req c.home slot .twin, line := lam, wr := true, man := some m, port := c.port, data := if c.req.opc = .wr then slotsLine c.req.slots else 0 } s
    else s
  deferEval c.home slot (hotBump ch (reqLine h / 16) m s)

/-- A request is granted at the Waystation arbiter (02 R62, 07 R208, R218, 08 R247). -/
def grantWay (c : Contestant) (kind : SlotKind) (s : State) : State :=
  let h := c.req.hdr
  let s := leaveContest c s
  let (s, slot) := accept c s
  let s := fbump ARB ARB_WAY_GRANT_COUNT (setRr 16 c.port s)
  let s := onlyIf (kind == .portRes) (fbump ARB ARB_WAY_RESV_COUNT) s
  let hold := fun (s : State) => updArb 16 (fun x => { x with held := x.held ++ [{ kind := kind, man := h.man, port := c.port, home := c.home, entry := slot }] }) s
  let s := match c.req.opc with
    | .enq => enqGrant c.home slot (reqQueue h) (enqBytes h) c.req.slots (hold s)
    | .deq => hold s
    | .walk => walkGrant c.home slot (walkDesc h) c.req.slots ⟨c.port, c.o - c.boost, c.cyc, h.stream.toNat⟩ h.man (kind == .portRes) (hold s)
    | .rd | .sync =>
      match probeLine s (reqLine h) with
      | some (pin, f) => { s with wayOps := s.wayOps ++ [{ src := .req c.home slot .read, man := h.man, port := c.port, slot := kind, pinned := pin, frame := f, line := reqLine h % 16 }] }
      | none => s
    | _ =>
      match probeLine s (reqLine h) with
      | some (pin, f) =>
        let i := reqLine h % 16
        let x := s.frame pin f
        match writeCharge s h.man x i with
        | some (some tgt) =>
          let s := onlyIf (tgt == .account) (fbump WAY WAY_WTCNT_COUNT) s
          let s := wayStat (setFrame pin f { x with charge := x.charge ++ [(i, tgt)] } s)
          { s with wayOps := s.wayOps ++ [{ src := .req c.home slot .write, man := h.man, port := c.port, slot := kind, pinned := pin, frame := f, line := i, wr := true, thru := tgt == .account }] }
        | _ =>
          { s with wayOps := s.wayOps ++ [{ src := .req c.home slot .write, man := h.man, port := c.port, slot := kind, pinned := pin, frame := f, line := i, wr := true }] }
      | none => s
  deferEval c.home slot s

/-- The k-th line read of the walk engine changes. -/
def updRead (i : Nat) (f : WalkRead → WalkRead) (s : State) : State := { s with wreads := s.wreads.modify i f }

/-- A directory probe is counted, and a hit sets the frame's AGE (07 R202, R230). -/
def probeStat (l : Nat) (s : State) : State :=
  match probeLine s l with
  | some (pin, f) => updFrame pin f (fun x => { x with age := 3 }) (fbump WAY WAY_HIT_COUNT s)
  | none => fbump WAY WAY_MISS_COUNT s

/-- A line read is granted at an arbiter (07 R220, R222). -/
def grantRead (a : Fin 17) (i : Nat) (kind : SlotKind) (s : State) : State :=
  match s.wreads[i]? with
  | none => s
  | some r =>
    let s := updRead i (fun r => { r with busy := true, retryAt := none, grant8 := s.d8 }) s
    let src : CmdSrc := .walk r.image r.a r.b r.key
    let s := probeStat r.line s
    if a.val = 16 then
      match probeLine s r.line with
      | some (pin, f) =>
        let s := fbump ARB ARB_WAY_GRANT_COUNT (setRr a r.port s)
        { s with wayOps := s.wayOps ++ [{ src := src, man := r.man, port := r.port, slot := kind, pinned := pin, frame := f, line := r.line % 16 }] }
      | none => s
    else
      match placeOf s r.line with
      | some p =>
        let c := arbCh a
        let s := chargeLine r.man.toNat c 1 (fbump ARB (ARB_GRANT_COUNT.nth c) (setRr a r.port s))
        let s := onlyIf (kind == .portRes) (fbump ARB (ARB_RESV_COUNT.nth c)) s
        let s := pushCmd c { src := src, line := p.lam, wr := false, man := some r.man, slot := kind, port := r.port } s
        if r.image then s else hotBump c (r.line / 16) r.man s
      | none => s

/-! ### Losses (04 R125, 06 R177) -/

/-- The back-off base B (04 R136). -/
def backoffB (s : State) : Nat := max 8 (fget s TXN TXN_BACKOFF_BASE_NS)

/-- REFUSE_BUSY with CAUSE 0, 1 or 2 (04 R125): the loss count rises, and the stream backs off. DESIGN CHOICE (log 109): RETRY_AT is kept in whole ns. -/
def refuseBusy (p : Fin 4) (r : Req) (cause : Nat) (s : State) : State :=
  let x := s.strm p r.hdr.stream
  let k := min 11 (x.k + 1)
  let after := backoffB s * 2 ^ (k - 1)
  let s := setStrm p r.hdr.stream { x with k := k, resv := k == 11, retryAt := some (s.ns + after), busy := false } s
  refuseResp p r 1 (after + k * 2 ^ 32 + (if k = 11 then 2 ^ 36 else 0) + cause * 2 ^ 37) cause false s

/-- Any other refusal of sequence number N (04 R125): the loss count and its consequences go. -/
def refuseNew (p : Fin 4) (r : Req) (code info sub : Nat) (s : State) : State :=
  let x := s.strm p r.hdr.stream
  refuseResp p r code info sub false (setStrm p r.hdr.stream { x with k := 0, resv := false, retryAt := none, busy := false } s)

/-- A loser of a contest at an arbiter (06 R177, R184, R187, R192, 07 R218, 08 R246). -/
def lose (a : Fin 17) (b : Bid) (v : Verdict) (s : State) : State :=
  match b.req with
  | none =>
    match s.wreads[b.read]? with
    | none => s
    | some r =>
      if v ≠ .throttle ∧ (b.flag ∨ 0 < b.rank) then s else
        let k := min 11 (r.losses + 1)
        updRead b.read (fun r => { r with losses := k, retryAt := some (s.ns + backoffB s * 2 ^ (k - 1)), resv := k == 11 }) s
  | some c =>
    let stop := a.val == 16 && v == .other && !shareFull s c.req.hdr.man a
    let s := onlyIf (stop && c.req.opc == .enq && !enqFits s (reqQueue c.req.hdr) (cdiv (enqBytes c.req.hdr) 128) false) (fbump QUE QUE_RESWAIT_COUNT) s
    let s := onlyIf (stop && c.req.opc == .walk && !ctxFree s (walkDesc c.req.hdr) false) (fbump WLK WLK_CTXBUSY_COUNT) s
    let lossCnt := fun (s : State) => if a.val = 16 then fbump ARB ARB_WAY_LOSS_COUNT s else fbump ARB (ARB_LOSS_COUNT.nth a.val) s
    match v with
    | .throttle => refuseBusy c.port c.req 0 (fbump ARB ARB_THRREF_COUNT (lossCnt (leaveContest c s)))
    | _ =>
      if b.flag ∨ 0 < b.rank then
        if c.waited then s else
          let s := onlyIf (a.val != 16) (fbump ARB (ARB_WAIT_COUNT.nth a.val)) s
          { s with arbs := s.arbs.map fun x => { x with contest := x.contest.map fun y => if y.order = c.order then { y with waited := true } else y } }
      else if v = .toll then refuseBusy c.port c.req 2 (fbump ARB (ARB_TOLLREF_COUNT.nth c.port) (leaveContest c s))
      else refuseBusy c.port c.req 0 (lossCnt (leaveContest c s))

/-! ### Granting and losing (06 R170) -/

/-- What is left to grant in this cycle, and the macro groups taken. -/
structure Left where
  rate : Nat
  groups : List Nat

/-- A general slot can be granted to a bid. -/
def hasRoom (s : State) (a : Fin 17) (l : Left) (b : Bid) : Bool :=
  decide (0 < l.rate) && decide (0 < freeGeneral s a)
    && (if a.val = 16 then (match macroGroup s b with
        | some g => !l.groups.contains g
        | none => true)
      else windowRoom s (arbCh a))

/-- What the CK_CORE cycle's grants leave of an arbiter's grant rate: one grant at a channel, four at the Waystation (06 R166, R180). -/
def leftNow (s : State) (a : Fin 17) : Left :=
  let n := if a.val = 16 then 4 else 1
  let x := s.arb a
  if x.resvAt = s.d8 then ⟨n - x.resvN, x.resvGroups⟩ else ⟨n, []⟩

/-- The cycle counts a grant (06 R166, R180). -/
def noteResv (a : Fin 17) (g : Option Nat) (s : State) : State :=
  let now := fun (x : ArbState) => x.resvAt = s.d8
  updArb a (fun x => { x with resvAt := s.d8, resvN := (if now x then x.resvN else 0) + 1, resvGroups := g.toList ++ (if now x then x.resvGroups else []) }) s

/-- An arbiter has decided its contest of this CK_CORE cycle. -/
def decided (s : State) (a : Fin 17) : Bool := (s.arb a).doneAt8 == some s.d8

/-! ### Reserved slots (06 R179, R180) -/

/-- The reservation of a port for a home channel is held by a RESV attempt. -/
def resvHeld (s : State) (p : Fin 4) (home : Fin 16) : Bool :=
  (allChans.any fun c => (s.chan c).intake.any fun x => x.slot == .portRes && x.port = p && (match x.src with
      | .req r _ _ => r = home
      | _ => false))
    || ((s.arb 16).held.any fun x => x.kind == .portRes && x.port = p && x.home = home)
    || (s.wayOps.any fun x => x.slot == .portRes && x.port = p && (match x.src with
      | .req r _ _ => r = home
      | _ => false))

/-- A port's reserved slot at an arbiter is free. -/
def resvSlotFree (s : State) (a : Fin 17) (p : Fin 4) (home : Fin 16) : Bool :=
  if a.val = 16 then !resvHeld s p home
  else !((s.chan (arbCh a)).intake.any fun x => x.slot == .portRes && x.port = p)

/-- A macro group, where a grant has one, is not taken in this cycle. -/
def groupFree (l : Left) (g : Option Nat) : Bool :=
  match g with
  | some g => !l.groups.contains g
  | none => true

/-- An attempt of the same port for the same home channel has waited longer (06 R180). -/
def resvBehind (s : State) (c : Contestant) : Bool :=
  s.arbs.toList.any fun a => a.resvWait.any fun x => x.port = c.port && x.home = c.home && decide (x.order < c.order)

/-- The requests in contest that hold weight of a ring reserved, and their number (06 R177). -/
def contestWeight (s : State) (c : Fin 16) : Nat := (s.arbs.toList.map fun a => ((a.contest.filter fun x => x.home = c).map (·.weight)).sum).sum
def contestCount (s : State) (c : Fin 16) : Nat := (s.arbs.toList.map fun a => (a.contest.filter fun x => x.home = c).length).sum

/-- A waiting RESV attempt can be granted (06 R180, R187, 01 R23). -/
def resvReady (s : State) (a : Fin 17) (c : Contestant) : Bool :=
  decide (c.at8 < s.d8) && !resvBehind s c && !resvHeld s c.port c.home && resvSlotFree s a c.port c.home
    && decide ((s.ring c.home).entries.length + contestCount s c.home < 4096)
    && (if a.val = 16 then groupFree (leftNow s a) (macroGroup s (bidOf s a a c)) else windowRoom s (arbCh a))
    && (!needsPartner s c || (!decided s (chArb (partnerOf c.home)) && decide (0 < (leftNow s (chArb (partnerOf c.home))).rate)))
    && eligible s a c true == .ok

/-- The waiting RESV attempts that need an arbiter: its own, and at a channel those TWIN writes of the partner's that take a general slot here (06 R180, R190). -/
def resvNeeds (s : State) (a : Fin 17) : List Contestant :=
  (s.arb a).resvWait ++ (if a.val = 16 then [] else (s.arb (chArb (partnerOf (arbCh a)))).resvWait.filter (needsPartner s))

/-- The oldest of the RESV attempts that need an arbiter and can be granted now. -/
def resvHead (s : State) (a : Fin 17) : Option Contestant :=
  let own := fun (c : Contestant) => if a.val = 16 then a else if (s.arb a).resvWait.contains c then a else chArb (partnerOf (arbCh a))
  ((resvNeeds s a).filter fun c => resvReady s (own c) c).foldl (fun (m : Option Contestant) c => match m with
    | some x => if c.order < x.order then some c else m
    | none => some c) none

/-! ### Granting to a bid (06 R170, R190) -/

/-- The arbiter that grants nothing else in the cycle in which a TWIN write takes its second slot there (06 R190). -/
def otherArb (a : Fin 17) (c : Contestant) : Fin 17 := if a.val = c.home.val then chArb (partnerOf c.home) else chArb c.home

/-- A TWIN write may be granted where it ranks first at both arbiters, and the other one has granted nothing in this cycle, has no RESV attempt that is granted before it (06 R180), and no background request that ranks ahead of it (06 R190, 09 R288). -/
def twinFirstBoth (s : State) (a : Fin 17) (c : Contestant) : Bool :=
  !needsPartner s c || (firstAt s (chArb c.home) c && firstAt s (chArb (partnerOf c.home)) c && (a.val = c.home.val || a.val = (partnerOf c.home).val)
    && !decided s (otherArb a c) && decide (0 < (leftNow s (otherArb a c)).rate)
    && (resvHead s (otherArb a c)).isNone && !bgFirst s (arbCh (otherArb a c)))

/-- Nothing but a bid's toll gate stands against its grant. -/
def canGrant (s : State) (a : Fin 17) (l : Left) (b : Bid) : Bool :=
  hasRoom s a l b && (match b.req with
    | some c => a.val = 16 || twinFirstBoth s a c
    | none => true)

/-- The bids that a granted TWIN write outranks at the other arbiter lose there, whose grant of the cycle is gone, and that arbiter's cycle is over (06 R190). -/
def loseAt (a : Fin 17) (s : State) : State :=
  forAll (sortBids (ownBids s a)) (fun b s => lose a b (match verdict s a b with
    | .toll => .other
    | v => v) s) (updArb a (fun x => { x with doneAt8 := some s.d8 }) s)

/-- A bid is granted a general slot. -/
def grantBid (a : Fin 17) (b : Bid) (s : State) : State :=
  match b.req with
  | none => noteResv a none (grantRead a b.read .general s)
  | some c =>
    if a.val = 16 then grantWay c .general s
    else if needsPartner s c then loseAt (otherArb a c) (noteResv (otherArb a c) none (noteResv a none (grantCh (chArb c.home) c .general s)))
    else noteResv a none (grantCh a c .general s)

/-- Rank by rank: grant, or lose. A TWIN write that stands here from its partner's arbiter is a loser only there. -/
def contestLoop (a : Fin 17) : List Bid → Left → State → State
  | [], _, s => s
  | b :: rest, l, s =>
    let v := verdict s a b
    if v = .ok ∧ canGrant s a l b then
      contestLoop a rest { rate := l.rate - 1, groups := (if a.val = 16 then (macroGroup s b).toList else []) ++ l.groups } (grantBid a b s)
    else
      let foreign := match b.req with
        | some c => a.val != 16 && c.twin && !((s.arb a).contest.any fun x => x.order = c.order)
        | none => false
      contestLoop a rest l (onlyIf (!foreign) (lose a b (if v = .toll ∧ !canGrant s a l b then .other else v)) s)

/-! ### Granting to a RESV attempt (06 R179, R180) -/

/-- The RESV attempt that an arbiter grants: the oldest that needs it and can be granted, unless that one is a TWIN write that the partner's arbiter puts behind an older attempt; then the oldest of the others. -/
def resvPick (s : State) (a : Fin 17) : Option Contestant :=
  match resvHead s a with
  | none => none
  | some c =>
    if a.val = 16 ∨ !needsPartner s c ∨ resvHead s (otherArb a c) = some c then some c
    else (s.arb a).resvWait.find? fun x => !needsPartner s x && resvReady s a x

/-- A line read that takes its port's reserved slot at a channel arbiter (06 R179, R192). -/
def readPick (s : State) (a : Fin 17) : Option Nat :=
  if a.val = 16 then none else
  (s.wreads.zipIdx.find? fun x => readReady s x.1 && x.1.resv && readArb s x.1 == some a.val
    && windowRoom s (arbCh a) && !chThrottled s (arbCh a)
    && !((s.chan (arbCh a)).intake.any fun y => y.slot == .portRes && y.port = x.1.port)).map (·.2)

/-- RESV_GRANT: the oldest RESV attempt that can, or else a line read that takes a reserved slot, is granted, while the cycle's grant rate lasts and its contest has not been decided. -/
def resvGrant (a : Fin 17) (s : State) : State :=
  if (leftNow s a).rate = 0 ∨ decided s a then s else
    match resvPick s a with
    | some c =>
      if a.val = 16 then noteResv a (macroGroup s (bidOf s a a c)) (grantWay c .portRes s)
      else
        let two := needsPartner s c
        let own := if two then chArb c.home else a
        onlyIf two (noteResv (chArb (partnerOf c.home)) none) (noteResv own none (grantCh own c .portRes s))
    | none =>
      match readPick s a with
      | some i => noteResv a none (grantRead a i .portRes s)
      | none => s

/-! ### The contest (06 R170) -/

/-- One contest of an arbiter, in one CK_CORE cycle (06 R169, R170): RESV attempts first (06 R180), then rank by rank. DESIGN CHOICE (log 127): a RESV attempt comes before a background request that 09 R288 ranks ahead of every contestant. A background request whose bucket holds a line has the channel's grant of the cycle, and every contestant loses (09 R288). The cycle has one contest. -/
def contest (a : Fin 17) (s : State) : State :=
  if decided s a then s else
    let s := resvGrant a (resvGrant a (resvGrant a (resvGrant a s)))
    let s := updArb a (fun x => { x with doneAt8 := some s.d8 }) s
    contestLoop a (arbBids s a) (if a.val ≠ 16 ∧ bgFirst s (arbCh a) then ⟨0, []⟩ else leftNow s a) s

end Sys2Proof.Machine
end

