-- ==== Sys2Proof/Machine/Txn.lean ====
section
/-! DEFINITION. Transaction intake: classification, duplicates, deadline, quota, step-4 checks, the probe and the way into a contest; SYNC; and the contests' own commands (01 R24 to R30, 02 R57, 04 R109 to R135, 06 R170, R180). -/

namespace Sys2Proof.Machine

/-! ### Freezing (01 R24, R28, R30) -/

/-- A stream is frozen for a conflict. -/
def freezeStream (p : Fin 4) (r : Req) (kind : String) (s : State) : State :=
  let x := s.strm p r.hdr.stream
  emit "conflict" [("port", .n p), ("stream", .h r.hdr.stream.toNat 3), ("seq", .n r.hdr.seq.toNat), ("kind", .s kind)]
    (setStrm p r.hdr.stream { x with frozen := true } s)

/-- A stream record has an uncorrectable error: the stream is frozen, and its pending SYNC is dropped (01 R30). -/
def recordError (p : Fin 4) (t : BitVec 12) (s : State) : State :=
  let x := s.strm p t
  emit "stream_ue" [("port", .n p), ("stream", .h t.toNat 3)] (fset JRN JRN_ERR_STREAM_UE 1 (fbump WAY WAY_UE_COUNT (setStrm p t { x with frozen := true, ue := true, sync := none } s)))

/-- REFUSE_CONFLICT with KIND and EXPECT (04 R123). -/
def conflictInfo (kind : Nat) (n : BitVec 16) : Nat := kind + n.toNat * 2 ^ 16

/-- A refusal made before the request is known to be New: of sequence number N it clears the loss count (04 R125). -/
def refuseAt (p : Fin 4) (r : Req) (code info sub : Nat) (s : State) : State :=
  if r.hdr.seq = (s.strm p r.hdr.stream).n then refuseNew p r code info sub s else refuseResp p r code info sub false s

/-! ### Duplicates (01 R25, R29) -/

/-- A response marked DUP, on the reissue's tag. -/
def respondDup (p : Fin 4) (r : Req) (x : Resp) (s : State) : State :=
  let s := releaseX p r s
  if r.void then s else respond p { x with tag := r.hdr.tag, dup := true, man := none } s

/-- A cell of a reissued DEQ is there. -/
def dupCell (id k : Nat) (l : Line) (psn : Bool) (s : State) : State :=
  { s with que := { s.que with dups := s.que.dups.map fun d => if d.id = id then { d with cells := d.cells.set k (some (l, psn)) } else d } }

/-- A reissued DEQ is answered once all its cells are there (08 R253): the outcome as recorded, with POISON and zeros where a cell is poisoned. -/
def dupAnswer (id : Nat) (s : State) : State :=
  match s.que.dups.find? fun d => d.id = id with
  | none => s
  | some d =>
    if d.cells.any Option.isNone then s else
      let s := voidRuns d.port d.stream d.seq (if d.tag.isSome then id else 0) { s with que := { s.que with dups := s.que.dups.filter fun d => d.id ≠ id } }
      let got := d.cells.flatMap Option.toList
      match d.tag with
      | some t => respond d.port (finalResp .deq t d.stream d.seq true none { d.fin with poison := d.fin.poison || got.any (·.2) } (got.flatMap fun x => lineSlots x.1)) s
      | none => s

/-- The read of one retained cell of a queue begins (08 R253, R256): a line that stands in a frame is there at once, another one is read through a background slot and charged to the queue's owner. -/
def dupRead (id q k : Nat) (x : Nat × Nat) (s : State) : State :=
  match placeOf s (cellLineNo s x.1 x.2) with
  | none => dupCell id k 0 true s
  | some p =>
    match (qFrameOf s x.1).filter fun f => bitOf (s.qfr f).valid.toNat x.2 with
    | some f => dupCell id k (dramLine s p.ch p.lam) (bitOf (s.qfr f).psn.toNat x.2) (charge 0x00 1 none s)
    | none =>
      if chanUp s p.ch then
        pushBg p.ch .free { src := .queRead 0 id k, line := p.lam, wr := false, man := (queOwner s q).map (BitVec.ofNat 8), slot := .background } s
      else dupCell id k 0 true s

/-- The cells that a DEQ has retained, by block and number; `none` for those whose block can no longer be told (08 R253). -/
def retained (s : State) (ret : Nat × Nat × Nat) : List (Option (Nat × Nat)) :=
  let (b0, c0, n) := ret
  let cells := (retBlocks s 4 b0 c0 n).zipIdx.flatMap fun x =>
    ((List.range 32).filter fun c => (x.2 != 0 || decide (c0 ≤ c))).map fun c => some (x.1, c)
  (cells ++ List.replicate n none).take n

/-- The number under which the reads of a reissued DEQ return: apart from the numbers of the entries. -/
def dupId (s : State) : Nat := 4096 + s.order

/-- A reissue of a completed DEQ reads its retained cells (08 R253, R256). -/
def dupDeq (p : Fin 4) (q : Nat) (ret : Nat × Nat × Nat) (tag strm : BitVec 12) (seq : BitVec 16) (f : Final) (s : State) : State :=
  let id := dupId s
  let l := retained s ret
  let s := { s with order := s.order + 1, que := { s.que with dups := s.que.dups ++ [⟨id, p, some tag, strm, seq, f, l.map fun _ => none⟩] } }
  dupAnswer id (forAll l.zipIdx (fun x s => match x.1 with
    | some y => dupRead id q x.2 y s
    | none => dupCell id x.2 0 true s) s)

/-- The final response of a reissue leaves, and earlier tags of the request are void from then on (01 R26). -/
def sendDup (p : Fin 4) (r : Req) (f : Final) (data : List Slot) (s : State) : State :=
  let s := onlyIf (!r.void) (voidRuns p r.hdr.stream r.hdr.seq (dupId s)) s
  respondDup p r (finalResp r.opc r.hdr.tag r.hdr.stream r.hdr.seq true none f data) s

/-- A reissue of a completed RD reads its line again. -/
def dupRd (p : Fin 4) (r : Req) (f : Final) (s : State) : State :=
  match memLine s (reqLine r.hdr) with
  | some (l, psn) => sendDup p r { f with poison := psn } (lineSlots l) (charge (if (probeLine s (reqLine r.hdr)).isSome then 0x00 else 0x02) 1 none s)
  | none => sendDup p r { f with poison := true } (List.replicate 8 0) s

/-- The service-by time of a reissued WALK: its deadline, or, where that is past, the latency of its manifest from now. DESIGN CHOICE (log 115). -/
def dupBy (h : Hdr) (s : State) : Nat :=
  let x := deadlineOf s.ns h.deadline
  if x.2 then s.ns + (s.man h.man.toNat).f.lat else x.1

/-- A reissue of a completed WALK is walked again. DESIGN CHOICE (log 115): one whose descriptor is VALID no more is walked at once by the words that stand. -/
def dupWlk (p : Fin 4) (r : Req) (f : Final) (s : State) : State :=
  let h := r.hdr
  let d := walkDesc h
  if r.void then releaseX p r s
  else if !wdValid s d then
    let ks := walkAll s h.man.toNat d r.slots
    sendDup p r { f with info := walkInfo ks 0 0 } (walkSlots ks) s
  else dupWalk p d (dupBy h s) r.slots h.man ⟨some h.tag, h.stream, h.seq, f⟩ (releaseX p r s)

/-- The answer to a reissue whose original has completed: the stored outcome, an RD or WALK taken again, or the retained cells of a DEQ. A REFUSE_FAULT counts as a refusal (04 R137). -/
def dupDone (p : Fin 4) (r : Req) (w : WinSlot) (f : Final) (s : State) : State :=
  let s := fbump TXN TXN_DUPSTAT_DUP_DONE s
  match f.fault with
  | some (rs, _) => sendDup p r f [] (onlyIf (!r.void) (fun s => lastRef p r.hdr.stream 5 rs.toNat (countRef 5 s)) s)
  | none =>
    match r.opc with
    | .rd => dupRd p r f s
    | .walk => dupWlk p r f s
    | .deq =>
      match w.ret with
      | some ret => if r.void then releaseX p r s else dupDeq p (reqQueue r.hdr) ret r.hdr.tag r.hdr.stream r.hdr.seq f (releaseX p r s)
      | none => sendDup p r f [] s
    | _ => sendDup p r f [] s

/-- The journal entry of an accepted request takes the reissue's tag. -/
def retag (p : Fin 4) (t : BitVec 12) (seq : BitVec 16) (tag : BitVec 12) (s : State) : State :=
  let f := fun (e : JEntry) => if e.orphan = none ∧ e.port = p ∧ e.stream = t ∧ e.seq = seq then { e with tag := tag } else e
  { s with rings := s.rings.map fun r => { r with entries := r.entries.map f, copyB := r.copyB.map f } }

/-- A reissue of an accepted request that has no outcome yet: ACCEPT marked DUP, and the final response goes to the reissue's tag. -/
def dupAccept (p : Fin 4) (r : Req) (w : WinSlot) (s : State) : State :=
  let h := r.hdr
  let x := s.strm p h.stream
  let s := setStrm p h.stream (updWin x h.seq fun w => { w with tag := if r.void then none else some h.tag, dup := true }) s
  let s := fbump TXN TXN_DUPSTAT_DUP_ACC (retag p h.stream h.seq h.tag s)
  respondDup p r ⟨0, h.tag, h.stream, h.seq, BitVec.ofNat 4 r.opc.code, true, false, 0, w.acc, [], none⟩ s

/-! ### Quota (02 R57 step 3, 05 R139) -/

/-- An ENQ needs blocks, and the losses have eaten the reserve (08 R255). -/
def poolShort (s : State) (r : Req) : Bool :=
  r.opc == .enq && shortNow s
    && decide (0 < enqBlocks (virtualQd s (reqQueue r.hdr)) (cdiv (enqBytes r.hdr) 128))

/-- The write needs a place in the write-through account while the account is full (07 R208). -/
def accountFull (s : State) (r : Req) : Bool :=
  isWrite r.opc && (match probeLine s (reqLine r.hdr) with
    | some (pin, f) => (writeCharge s r.hdr.man (s.frame pin f) (reqLine r.hdr % 16)).isNone
    | none => false)

/-- The lowest failing RES of the quota checks (05 R139); none where all pass. -/
def quotaRes (s : State) (p : Fin 4) (r : Req) : Option Nat :=
  let m := r.hdr.man
  let x := s.man m.toNat
  let home := reqHome s r
  let line := isLineOp r.opc
  if x.st ≠ .opened ∨ !bitOf x.f.ports.toNat p.val then some 0
  else if shareFull s m 16 || (line && (match home with
      | some c => shareFull s m (chArb c)
      | none => false)) then some 1
  else if r.opc = .walk ∧ wayEff x < walkResv s m.toNat then some 2
  else if (r.opc = .enq ∨ r.opc = .deq) ∧ !ownsQueue s m.toNat (reqQueue r.hdr) then some 3
  else if r.opc = .enq ∧ (x.f.blocks < blocksHeld s m.toNat + enqBlocks (virtualQd s (reqQueue r.hdr)) (cdiv (enqBytes r.hdr) 128) ∨ poolShort s r) then some 4
  else if accountFull s r then some 5
  else match home with
    | some c => if x.f.jshare < ringUse s m c + reqWeight s r then some 6 else none
    | none => none

/-! ### Step 4 (02 R57, 04 R123) -/

/-- A line's home channel, or for a TWIN line its partner, can serve it (01 R41, R42). -/
def placeUp (s : State) (p : Place) : Bool := chanUp s (servedAt s p) && (!(p.twin && (s.chan (servedAt s p)).resync))

/-- The REASON and CH of a REFUSE_FAULT at step 4; none where the request passes. -/
def stepFault (s : State) (r : Req) : Option (Nat × Nat) :=
  let m := s.man r.hdr.man.toNat
  match r.opc with
  | .rd | .wr | .wrp | .add =>
    match placeOf s (reqLine r.hdr) with
    | none => some (1, 0)
    | some p =>
      if p.twin ≠ m.f.twin ∨ inPool s (reqLine r.hdr) then some (7, 0)
      else if !placeUp s p then some (0, p.ch.val)
      else none
  | .enq | .deq =>
    let q := reqQueue r.hdr
    if r.opc = .deq ∧ deqCount r.hdr ∧ (deqMax r.hdr = 0 ∨ 72 < deqMax r.hdr) then some (7, 0)
    else match queHome s q with
      | none => some (0, 0)
      | some c => if (s.chan c).lost then some (0, c.val) else if (s.qd q).st = .faulted then some (6, 0) else none
  | .walk =>
    let d := walkDesc r.hdr
    let c := wdHome s d
    if !wdValid s d ∨ (s.walkRt d).unloading ∨ wdMan s d ≠ r.hdr.man.toNat ∨ (m.f.twin ∧ walkTwinBad s d) then some (5, 0)
    else if (s.chan c).lost ∧ !(m.f.twin ∧ chanUp s (partnerOf c)) then some (0, c.val)
    else none
  | .sync => none

/-- A ring has no room for a weight (01 R22). -/
def ringFull (s : State) (c : Fin 16) (w : Nat) : Bool :=
  decide (fget s JRN JRN_CAP_CAP < ringWeight (s.ring c) + contestWeight s c + w) || decide (4096 ≤ (s.ring c).entries.length + contestCount s c)

/-! ### Intake of a New request -/

/-- Requests in contest that entered it in a CK_CORE cycle, from a port, and at an arbiter where one is given. -/
def enteredAt (s : State) (p : Fin 4) (a : Option (Fin 17)) (t8 : Nat) : Nat :=
  ((List.finRange 17).map fun b => if a.isNone || a = some b then
    (((s.arb b).contest ++ (s.arb b).resvWait).filter fun c => c.port = p && c.at8 = t8).length else 0).sum

/-- The entry cycle of a request: the first one after the present cycle, that of intake step 5, in which its port presents no other request to the arbiter and fewer than four in all (06 R169). -/
def entryCycle (s : State) (p : Fin 4) (a : Fin 17) : Nat :=
  let n := ((List.finRange 17).map fun b => (s.arb b).contest.length + (s.arb b).resvWait.length).sum
  (((List.range (n + 1)).map fun k => s.d8 + (k + 1) * coreTick8 s).find? fun t => enteredAt s p (some a) t = 0 && decide (enteredAt s p none t < 4)).getD (s.d8 + coreTick8 s)

/-- A request enters the contest of the arbiter that the probe selects, or waits there for its reserved slot (02 R57 steps 5 and 6, 04 R127); its port's response assembly may have no room left (04 R123). -/
def enterContest (p : Fin 4) (r : Req) (home : Fin 16) (t d : Nat) (late resv : Bool) (s : State) : State :=
  let m := s.man r.hdr.man.toNat
  let hit := isLineOp r.opc && (probeLine s (reqLine r.hdr)).isSome
  let s := onlyIf (isLineOp r.opc) (probeStat (reqLine r.hdr)) s
  let a : Fin 17 := if !isLineOp r.opc || hit then 16 else
    match placeOf s (reqLine r.hdr) with
    | some pl => chArb (servedAt s pl)
    | none => chArb home
  if 6144 < rabFill (s.port p) then
    let x := s.strm p r.hdr.stream
    refuseResp p r 1 (backoffB s + x.k * 2 ^ 32 + (if x.resv then 2 ^ 36 else 0) + 3 * 2 ^ 37) 3 false
      (setStrm p r.hdr.stream { x with busy := false, retryAt := some (t + backoffB s) } s)
  else
  let c : Contestant := {
    port := p, req := r, fp := fingerprint r, t := t, o := if late then t + m.f.lat else d, late := late, boost := boostOf s d t m.f.lat late,
    order := s.order, cyc := s.d8, at8 := entryCycle s p a, arr := arrivedNs s p r, home := home, weight := reqWeight s r, toll := reqToll r, resv := resv, twin := m.f.twin, hit := hit }
  let s := { s with order := s.order + 1 }
  updArb a (fun x => if resv then { x with resvWait := x.resvWait ++ [c] } else { x with contest := x.contest ++ [c] }) s

/-- A SYNC is accepted and, with nothing of its stream unfinished, served at once: then its ACCEPT and DONE leave in one flit (04 R133). -/
def acceptSync (p : Fin 4) (r : Req) (d : Nat) (late : Bool) (t : Nat) (s : State) : State :=
  let h := r.hdr
  let x := s.strm p h.stream
  let tag := if r.void then none else some h.tag
  let arr := arrivedNs s p r
  let lostSlot := if x.win.length < 32 then none else (x.win.getLast?).bind (·.ret)
  let info : BitVec 64 := BitVec.ofNat 64 (s.ns % 2 ^ 32 + (if late then 2 ^ 32 else 0))
  let s := setStrm p h.stream { pushWin x { seq := h.seq, fp := fingerprint r, opc := .sync, tag := tag, acc := info } with
    busy := false, sync := some { seq := h.seq, tag := tag, d := d, late := late } } s
  let s := fbump TXN TXN_ACC_CNT_COUNT (releaseX p r (releaseRet lostSlot s))
  let s := match tag with
    | some t => assemble p ⟨0, t, h.stream, h.seq, 7, false, false, 0, info, [], some h.man⟩ s
    | none => s
  pump p (syncService p h.stream (probeAccept p .sync h.stream h.seq arr t s))

/-- The one event of a pool without a free block (08 R255). -/
def reportShort (s : State) : State :=
  if s.que.shortSent then s else emit "pool_short" [("free", .n 0), ("lost", .n s.que.lost)] { s with que := { s.que with shortSent := true } }

/-- A request classified New (02 R57, 04 R123 to R130). -/
def intakeNew (p : Fin 4) (r : Req) (s : State) : State :=
  let t := s.ns
  let x := s.strm p r.hdr.stream
  match stateWhy s with
  | some w => refuseNew p r 4 w w s
  | none =>
  if x.retryAt.any fun a => decide (t < a) then
    refuseResp p r 1 ((x.retryAt.getD t - t) + x.k * 2 ^ 32 + (if x.resv then 2 ^ 36 else 0) + 4 * 2 ^ 37) 4 false
      (setStrm p r.hdr.stream { x with busy := false } s)
  else
  let (d, late) := deadlineOf t r.hdr.deadline
  if r.opc = .sync then acceptSync p r d late t s else
  match quotaRes s p r with
  | some res =>
    refuseNew p r 2 res res (onlyIf (decide (res = 4) && poolShort s r) reportShort s)
  | none =>
  match stepFault s r with
  | some (reason, ch) => refuseNew p r 5 (reason + ch * 16) reason s
  | none =>
  match reqHome s r with
  | none => refuseNew p r 5 1 1 s
  | some home =>
  if !x.resv && ringFull s home (reqWeight s r) then refuseBusy p r 1 s
  else enterContest p r home t d late x.resv s

/-- The manifest that a request's intake is charged to: none for a reissue, and for an ID that no open manifest has (12 R360). -/
def intakeMan (s : State) (x : StreamRec) (h : Hdr) : Option (BitVec 8) :=
  let again := !x.frozen && decide (65504 ≤ (h.seq - x.n).toNat)
  if again || (s.man h.man.toNat).st == .closed then none else some h.man

/-- Classification of a request against its stream (01 R24, R25, R28). -/
def classify (p : Fin 4) (r : Req) (ue : Bool) (s : State) : State :=
  let h := r.hdr
  let s := if ue then recordError p h.stream s else s
  let x := s.strm p h.stream
  let s := charge 0x07 1 (intakeMan s x h) s
  let s := setStrm p h.stream { x with busy := true } s
  let free := fun (s : State) => setStrm p h.stream { s.strm p h.stream with busy := false } s
  let dlt := (h.seq - x.n).toNat
  if x.frozen then
    if x.ue then free (refuseAt p r 5 4 4 s) else free (refuseAt p r 6 (conflictInfo 2 x.n) 2 s)
  else if dlt = 0 then intakeNew p r s
  else if dlt < 32768 then free (refuseResp p r 3 x.n.toNat 0 false s)
  else if dlt < 65504 then free (refuseResp p r 6 (conflictInfo 1 x.n) 1 false (freezeStream p r "stale" s))
  else match winSlot x h.seq with
    | none => free (refuseResp p r 6 (conflictInfo 1 x.n) 1 false (freezeStream p r "stale" s))
    | some w =>
      if w.fp ≠ fingerprint r then free (refuseResp p r 6 (conflictInfo 0 x.n) 0 false (freezeStream p r "content" s))
      else match w.fin with
        | some f => free (dupDone p r w f s)
        | none => free (dupAccept p r w s)

/-- A stream whose next request can be classified. -/
def readyStream (s : State) : Option (Nat × StreamRec) := s.streams.find? fun e => !e.2.busy && e.2.sync.isNone && !e.2.waiting.isEmpty

/-- Requests that waited for their turn are classified (04 R120); `fuel` bounds their number. -/
def drainFuel : Nat → State → State
  | 0, s => s
  | fuel + 1, s =>
    match readyStream s with
    | none => s
    | some (k, x) =>
      match x.waiting with
      | [] => s
      | r :: rest =>
        let p : Fin 4 := Fin.ofNat 4 (k / 4096)
        drainFuel fuel (classify p r false (setStrm p (BitVec.ofNat 12 k) { x with waiting := rest } s))

/-- Caravans whose entry is LOST or has gone end (01 R42, 07 R228). -/
def reapCaravans (s : State) : State :=
  forAll (s.caravans.filter fun c => c.dup.isNone && (match getEntry s c.ring c.entry with
    | none => true
    | some e => e.recorded)) endCaravan s

/-- What follows any command that may record an outcome or free a stream: caravans that lost their entry end, and waiting requests are classified unless classification has stopped (12 R364). -/
def settle (s : State) : State :=
  let s := reapCaravans s
  if s.pwr.halted then s else drainFuel ((s.streams.map fun e => e.2.waiting.length).sum) s

/-- A complete request is taken (02 R56, 04 R120): it waits behind its stream's previous request or pending SYNC, or is classified. One that arrived after a request of its stream that has not been taken yet is not taken before it. -/
def takeReq (p : Fin 4) (r : Req) (ue : Bool) (s : State) : State :=
  if !coreRuns s then s else
    let r := if (s.port p).intake.contains r then r else
      if (s.port p).intake.contains { r with void := true } then { r with void := true } else r
    let x := s.strm p r.hdr.stream
    let ahead := (((s.port p).intake.takeWhile fun q => q ≠ r).filter fun q => q.hdr.stream = r.hdr.stream).length
    if (s.port p).intake.contains r ∧ x.waiting.length + (if x.busy then 1 else 0) < ahead then s
    else if x.busy ∨ x.sync.isSome then setStrm p r.hdr.stream { x with waiting := x.waiting ++ [r] } s
    else settle (classify p r ue s)

/-- A step acts on an entry whose copies may show errors (01 R539). The plan of an ENQ that is lost is undone, and later ENQs of its queue are planned anew. -/
def actOn (errs : List JournalErr) (c : Fin 16) (slot : Nat) (quiet : Bool) (s : State) : State × Bool :=
  let r := actEntry errs c slot quiet s
  if r.2 then r else (evict (replan s c slot r.1), false)

/-- Steps of a journal entry whose copies showed errors (01 R539). -/
def actAll (errs : List JournalErr) (s : State) : State :=
  forAll errs (fun x s => if (getEntry s x.ring x.entry.toNat).isSome then (actOn [x] x.ring x.entry.toNat false s).1 else s) s

/-! ### Commands -/

/-- RD (02 R62). -/
def execRd (port : Fin 4) (h : Hdr) (ue : Bool) (s : State) : Host.Outcome State Fault Refusal := .next (takeReq port ⟨.rd, h, [], false⟩ ue s)

/-- WR (02 R62). -/
def execWr (port : Fin 4) (h : Hdr) (body : List Slot) (ue : Bool) (s : State) : Host.Outcome State Fault Refusal := .next (takeReq port ⟨.wr, h, body, false⟩ ue s)

/-- WRP (02 R62). -/
def execWrp (port : Fin 4) (h : Hdr) (body : List Slot) (ue : Bool) (s : State) : Host.Outcome State Fault Refusal := .next (takeReq port ⟨.wrp, h, body, false⟩ ue s)

/-- ADD (04 R112). -/
def execAdd (port : Fin 4) (h : Hdr) (body : List Slot) (ue : Bool) (s : State) : Host.Outcome State Fault Refusal := .next (takeReq port ⟨.add, h, body, false⟩ ue s)

/-- ENQ (08 R245): an ENQ whose BYTES fixes no length is a framing fault (04 R113). -/
def execEnq (port : Fin 4) (h : Hdr) (body : List Slot) (ue : Bool) (s : State) : Host.Outcome State Fault Refusal :=
  .next (if enqBytes h = 0 ∨ 9216 < enqBytes h then (if coreRuns s then protocolError port s else s) else takeReq port ⟨.enq, h, body, false⟩ ue s)

/-- DEQ (08 R248). -/
def execDeq (port : Fin 4) (h : Hdr) (ue : Bool) (s : State) : Host.Outcome State Fault Refusal := .next (takeReq port ⟨.deq, h, [], false⟩ ue s)

/-- WALK (07 R216). -/
def execWalk (port : Fin 4) (h : Hdr) (body : List Slot) (ue : Bool) (s : State) : Host.Outcome State Fault Refusal := .next (takeReq port ⟨.walk, h, body, false⟩ ue s)

/-- SYNC (04 R133). -/
def execSync (port : Fin 4) (h : Hdr) (ue : Bool) (s : State) : Host.Outcome State Fault Refusal := .next (takeReq port ⟨.sync, h, [], false⟩ ue s)

/-- ARBITER_CONTEST (06 R170). -/
def execArbiterContest (arb : Fin 17) (errs : List JournalErr) (s : State) : Host.Outcome State Fault Refusal :=
  .next (if coreRuns s && !entering s then settle (contest arb (actAll errs s)) else s)

/-- RESV_GRANT (06 R180). -/
def execResvGrant (arb : Fin 17) (errs : List JournalErr) (s : State) : Host.Outcome State Fault Refusal :=
  .next (if coreRuns s && !entering s then settle (resvGrant arb (actAll errs s)) else s)

end Sys2Proof.Machine
end

