-- ==== Sys2Proof/Machine/ChanBase.lean ====
section
/-! DEFINITION. Channels: their time, horizon, fault log, the ends of column commands, and the loss of a channel (01 R19, R31 to R42, 09 R277 to R280, 10 R304 to R312, R325). -/

namespace Sys2Proof.Machine

/-! ### Time in a channel (02 R48, 09 R283) -/

/-- The whole CK_CHn cycles of a span in eighths of a ns. -/
def chCycles (s : State) (c : Fin 16) (t8 : Nat) : Nat := t8 * chMts s c / 64000

/-- A member channel carries out commands. -/
def chanRuns (s : State) (c : Fin 16) : Bool := s.pwr.mode == .run && inService s c

/-- The accounting-period capacity in peak lines: P of 05 R142. -/
def peakP1000 (s : State) (c : Fin 16) : Nat := chMts s c * 64

/-! ### The horizon (01 R32, R33) -/

/-- The horizon of one channel in us, rounded up. -/
def chHorizon (s : State) (c : Fin 16) : Nat :=
  let r := chMts s c
  let cap := capHot r
  if cap = 0 then 0 else
    cdiv ((fget s JRN JRN_CAP_CAP + 512) * 4096 * r + 1100 * 8000 * cap + 3500 * r * cap) (1000 * r * cap)

/-- A new value of HORIZON_US. -/
def setHorizon (us : Nat) (s : State) : State :=
  emit "horizon" [("us", .n us)] (fset TXN TXN_HORIZON_HORIZON_US us { s with horizon := none })

/-- The horizon is computed from the channels in service: a rise acts at once, a fall once the old value has elapsed once more. DESIGN CHOICE (log 105): another value below the one in force, computed while a fall is held, starts the hold again. -/
def horizonCheck (s : State) : State :=
  match allChans.filter fun c => inMap s c && inService s c with
  | [] => s
  | l =>
    let v := (l.map (chHorizon s)).foldl max 0
    let cur := fget s TXN TXN_HORIZON_HORIZON_US
    if cur = 0xFFFF ∨ cur < v then setHorizon v s
    else if v = cur then { s with horizon := none }
    else if (s.horizon.map (·.us)) = some v then s
    else { s with horizon := some ⟨v, s.ns + cur * 1000⟩ }

/-! ### The fault log (10 R325) -/

/-- An entry joins a channel's fault log. -/
def logFault (c : Fin 16) (e : FaultEnt) (s : State) : State :=
  let e := { e with time := BitVec.ofNat 32 s.ns }
  updChan c (fun x => { x with flog := tblSet (fun _ => {}) x.flog x.flogHead e, flogHead := (x.flogHead + 1) % 64 }) s

/-- An entry that concerns no line: its LAMBDA is a free value. -/
def logFree (c : Fin 16) (kind dev : Nat) (s : State) : State :=
  let (l, s) := takeFree s
  logFault c { kind := kind, dev := dev, lam := l % 2 ^ 30 } s

/-! ### Registers of a channel -/

def setChState (c : Fin 16) (st : Nat) (s : State) : State := fset (CH c) CH_STATUS_STATE st s

/-- The time within a span in which data is on CHn_DQ, in eighths of a ns. -/
def busBusy8 (s : State) (c : Fin 16) (a b : Nat) : Nat :=
  ((s.chan c).hist.map fun x =>
    let go := fun (lat : Fld) =>
      let t := x.at8 + ck8 s c (fget s (CH c) lat)
      min b (t + ck8 s c 8) - max a t
    match x.kind with
    | .rd => go CH_TIM0_CL
    | .wr => go CH_TIM0_CWL
    | _ => 0).sum

/-- The idle cycles of the data bus up to now that are not counted yet: with the command line not empty, no interruption, and no data on CHn_DQ (09 R290). -/
def idleNow (s : State) (c : Fin 16) : Nat :=
  let y := s.chan c
  if y.line.isEmpty ∨ y.inord.isSome ∨ y.replay.isSome ∨ (s.phy c).stopped ∨ (s.phy c).active.isSome ∨ (s.bist.phyRun[c]).isSome then 0 else chCycles s c (s.d8 - y.idleFrom8 - busBusy8 s c y.idleFrom8 s.d8)

/-- The idle time up to now is counted. -/
def stopIdle (c : Fin 16) (s : State) : State :=
  if s.d8 ≤ (s.chan c).idleFrom8 then s else updChan c (fun y => { y with idleFrom8 := s.d8 }) (fbumpN (CH c) CH_IDLEBUS_COUNT (idleNow s c) s)

/-- The cycles of a rank's present stay in power-down (09 R290). -/
def pdNow (s : State) (c : Fin 16) (r : Fin 2) : Nat := if (s.chan c).pd[r] then chCycles s c (s.d8 - (s.chan c).pdAt8[r]) else 0

/-- An interruption lasts until an instant: no column command or ACT issues before it, and its time is not idle time. -/
def stopUntil (c : Fin 16) (t8 : Nat) (s : State) : State :=
  updChan c (fun y => { y with stopTo8 := max y.stopTo8 t8, idleFrom8 := max y.idleFrom8 t8 }) s

/-- In-order mode ends (06 R189), and its time is counted (06 R194). -/
def endInord (c : Fin 16) (s : State) : State :=
  if (s.chan c).inord.isSome then
    fsetBit ARB ARB_STATUS_INORD c.val false
      (fbumpN ARB (ARB_IOTIME_COUNT.nth c) (chCycles s c (s.d8 - (s.chan c).inordAt8)) (updChan c (fun x => { x with inord := none, idleFrom8 := max x.idleFrom8 s.d8 }) s))
  else s

/-! ### The cost and the stop of pauses (11 R346, R348, 13 R372, R383) -/

/-- Deferrable background energy, which the ledger leaves out of its headroom (12 R355). -/
def deferPj (pj : Nat) (s : State) : State := { s with led := { s.led with defPj := s.led.defPj + pj } }

/-- One operation made for a command: its energy, deferrable where the command's work is (12 R352, R355). -/
def chargeFor (x : Cmd) (k : Nat) (man : Option (BitVec 8)) (s : State) : State := charge k 1 man (onlyIf x.defr (deferPj (s.coef k)) s)

/-- The time and the energy of a pause, of its actual length (09 R287, 11 R341, R348, 12 R352); one that had to start is no deferrable work (12 R356). -/
def pausePay (c : Fin 16) (len : Nat) (s : State) : State :=
  let b := (s.chan c).bkPause
  let b' := if 1100 * 16 ≤ b then b - 16 * (len : Int) else if b < 0 then b else max 0 (b - 16 * (len : Int))
  let s := fbumpN (PHY c) PHY_PAUSE_CYC_COUNT len (updChan c (fun y => { y with bkPause := b' }) s)
  onlyIf (!(s.phy c).forced) (deferPj (s.coef 0x0D * len)) (charge 0x0D len none s)

/-- A running pause is cut off: its time up to now is paid for, and its adjustments are not applied (11 R346, R348). -/
def cutPause (c : Fin 16) (s : State) : State :=
  match (s.phy c).active with
  | some (k, t) => pausePay c (min (pauseLen s c k) (chCycles s c (s.d8 - t))) s
  | none => s

/-- A PHY slice draws one line for every two cycles of its actual length, 550 lines at most (13 R383). -/
def phyPay (c : Fin 16) (len : Nat) (s : State) : State :=
  let n := min 1100 len / 2
  updChan c (fun y => { y with bkBst := y.bkBst - 16 * (n : Int) }) (fbumpN (CH c) CH_BGLINE_COUNT n s)

/-- The rotation of PHY slices moves on: after PHY_EVERY DRAM slices comes the next kind (13 R372, R383). -/
def phyNext (c : Fin 16) (s : State) : State :=
  { s with bist := { s.bist with phyRun := s.bist.phyRun.set c none, phyKind := s.bist.phyKind.set c ((s.bist.phyKind[c] + 1) % 5), sincePhy := s.bist.sincePhy.set c 0 } }

/-- A PHY slice stops; its unit is tested again at its next turn (13 R372). -/
def stopPhy (c : Fin 16) (s : State) : State :=
  match s.bist.phyRun[c] with
  | none => s
  | some t => stopUntil c s.d8 <| phyPay c (chCycles s c (s.d8 - t)) <| fbump BST BST_STOP_COUNT <|
      fsetBit BST BST_STATUS_CH_RUN c.val (s.bist.dram[c]).isSome (phyNext c s)

/-! ### Slices of self-test on a channel's rows (13 R376 to R382) -/

/-- The next batch of a phase's commands: its lines, and whether they are written (13 R377, R379, R381); none after the last. -/
def batchOf (s : State) (x : DramSlice) : Option (Nat × Bool) :=
  match x.ph with
  | .copy => if x.step = 0 then some (rowLen s, false) else none
  | .test n _ => if x.step < (if n = 5 then 4 else 2) then some (if n = 5 then 16 else rowLen s, x.step % 2 == 0) else none
  | .restore _ => if x.step = 0 then some (rowLen s, true) else none

/-- A background request of a slice: it draws on the self-test bucket, but for the restore (13 R381). -/
def bistReq (ph : DPhase) (wr : Bool) (lam : Nat) : BgReq :=
  ⟨match ph with
    | .restore _ => .free
    | _ => .bst, { src := .bist, line := lam, wr := wr, slot := .selfTest }⟩

/-- The next batch of a channel's slice asks for its slots. -/
def beginBatch (c : Fin 16) (s : State) : State :=
  match s.bist.dram[c] with
  | none => s
  | some x =>
    match batchOf s x with
    | none => s
    | some (n, wr) => updChan c (fun y => { y with bg := y.bg ++ ((rowLams s x.idx).take n).map (bistReq x.ph wr) }) s

/-- The slice of a channel goes on with a phase. -/
def setPh (c : Fin 16) (p : DPhase) (s : State) : State :=
  match s.bist.dram[c] with
  | none => s
  | some x => beginBatch c { s with bist := { s.bist with dram := s.bist.dram.set c (some { x with ph := p, step := 0 }) } }

/-- A command of a slice has ended: with the last of a batch, the next batch begins. Reads so follow when every write has left the retry buffer (13 R379). -/
def batchDone (c : Fin 16) (s : State) : State :=
  match s.bist.dram[c] with
  | none => s
  | some x =>
    if bistOut s c then s else beginBatch c { s with bist := { s.bist with dram := s.bist.dram.set c (some { x with step := x.step + 1 }) } }

/-- Every command of the slice's phase has ended. -/
def phaseOver (s : State) (c : Fin 16) (x : DramSlice) : Bool := (batchOf s x).isNone && !bistOut s c

/-- The requests of a channel's slice that wait for a slot, or in one, are given up. -/
def dropBist (granted : Bool) (c : Fin 16) (s : State) : State :=
  updChan c (fun y => { y with bg := y.bg.filter fun b => !isBist b.cmd, intake := if granted then y.intake.filter fun x => !isBist x else y.intake }) s

/-- The number of rows that a channel's slices visit (13 R376). -/
def sliceRows (s : State) : Nat := geoRows s * (geoRanks s * 32)

/-- A DRAM slice ends: its frames and its room in the write-through account are released, and the rotation moves on (13 R372, R376, R381). -/
def dropSlice (c : Fin 16) (s : State) : State :=
  match s.bist.dram[c] with
  | none => s
  | some x =>
    let s := forAll x.frames (fun f s => setFrame false f {} s) (dropBist true c s)
    let s := { s with
      bist := { s.bist with
        dram := s.bist.dram.set c none, next := s.bist.next.set c ((x.idx + 1) % sliceRows s), sincePhy := s.bist.sincePhy.set c (s.bist.sincePhy[c] + 1) },
      way := { s.way with wtHeld := s.way.wtHeld - rowLen s } }
    fsetBit BST BST_STATUS_CH_RUN c.val (s.bist.phyRun[c]).isSome (wayStat s)

/-- A DRAM slice stops (13 R382): a row that is displaced is restored next, and a copy not yet complete is given up. -/
def stopSlice (c : Fin 16) (s : State) : State :=
  match s.bist.dram[c] with
  | none => s
  | some x =>
    match x.ph with
    | .copy => fbump BST BST_STOP_COUNT (dropSlice c s)
    | .test _ _ => fbump BST BST_STOP_COUNT (setPh c (.restore false) (dropBist false c s))
    | .restore true => fbump BST BST_STOP_COUNT { s with bist := { s.bist with dram := s.bist.dram.set c (some { x with ph := .restore false }) } }
    | .restore false => s

/-- A DRAM slice ends with the loss of its channel, whose copy is discarded: it is stopped, unless it was already (13 R382, R391). -/
def loseSlice (c : Fin 16) (s : State) : State :=
  match s.bist.dram[c] with
  | none => s
  | some x => dropSlice c (onlyIf (x.ph != .restore false) (fbump BST BST_STOP_COUNT) s)

/-! ### The end of requests' accesses -/

/-- Every effect of a request's write is durable: its outcome is recorded and sent (02 R62), and entries retire. -/
def finishWrite (ring : Fin 16) (slot : Nat) (s : State) : State :=
  match getEntry s ring slot with
  | none => s
  | some e =>
    if e.st = .lost ∨ e.recorded then retire ring s else
      retire ring (outcome ring slot (doneFor e (if e.opc = .add then e.resp else 0) false) [] false s)

/-- The home copy of a request's write is durable. -/
def homeDurable (ring : Fin 16) (slot : Nat) (s : State) : State :=
  match getEntry s ring slot with
  | none => s
  | some e =>
    let s := updEntry ring slot (fun e => { e with durable := true }) s
    if e.twinLeft then s else finishWrite ring slot s

/-- The partner copy is durable, or is no longer needed (01 R19, R41). -/
def twinDurable (ring : Fin 16) (slot : Nat) (s : State) : State :=
  match getEntry s ring slot with
  | none => s
  | some e =>
    let s := updEntry ring slot (fun e => { e with twinLeft := false }) s
    if e.durable then finishWrite ring slot s else s

/-- A read's data is valid (02 R60): the outcome of an RD, which leaves the journal (01 R21). -/
def readValid (ring : Fin 16) (slot : Nat) (l : Line) (psn : Bool) (s : State) : State :=
  let s := servePoint ring slot s
  match getEntry s ring slot with
  | none => s
  | some e =>
    let s := updEntry ring slot (fun e => { e with durable := true }) s
    retire ring (outcome ring slot (doneFor e 0 psn) (lineSlots l) false s)

/-- The line that a WRP or ADD writes, from the line it read (04 R111, R112). -/
def mergedLine (e : JEntry) (l : Line) : Line :=
  if e.opc = .add then
    setCounter l (e.sub.toNat % 16) (counterOf l (e.sub.toNat % 16) + e.resp)
  else mergeLine l (slotsLine (e.staged.drop 1)) ((e.staged.head?).getD 0)

/-- The read phase of a WRP or ADD has its data: the result is computed and recorded in RSLT (01 R18, R21). -/
def toRslt (ring : Fin 16) (slot : Nat) (l : Line) (s : State) : State :=
  match getEntry s ring slot with
  | none => s
  | some e =>
    let n := mergedLine e l
    let s := charge 0x0A 1 (some e.man) s
    setEntrySt ring slot .rslt (updEntry ring slot (fun e => { e with
      staged := lineSlots n, stageV := true, resp := if e.opc = .add then counterOf l (e.sub.toNat % 16) else e.resp }) s)

/-- A WRP or ADD finds its line poisoned: it ends with REFUSE_FAULT, REASON 2, and nothing is written (04 R124, 10 R304). -/
def mergePoison (ring : Fin 16) (slot : Nat) (ch : Fin 16) (s : State) : State :=
  retire ring (killCmds ring slot (releaseSlots ring slot false (faultEntry ring slot 2 ch.val false s)))

/-! ### Write-backs (07 R204, R205, R208) -/

/-- A command that writes back a line of a frame. -/
def isWb (pinned : Bool) (f i : Nat) (x : Cmd) : Bool :=
  x.src == .wback pinned f i || x.src == .wbackTwin pinned f i

/-- A write-back of a line is still on its way at some channel. -/
def wbOut (s : State) (pinned : Bool) (f i : Nat) : Bool :=
  allChans.any fun c =>
    let y := s.chan c
    let p := isWb pinned f i
    (y.bg.any fun b => p b.cmd) || y.intake.any p || y.line.any p || y.flight.any fun g => g.window && p g.cmd

/-- A line of a frame must be written back, whatever its manifest's level: the frame is being emptied, the line stands in the write-through account, its manifest is no longer OPEN, or it has no owner (05 R151, 07 R204, R208). -/
def wbOwed (s : State) (x : Frame) (i : Nat) : Bool :=
  x.st == .leaving || (match chargeMan x i with
    | some m => (s.man m.toNat).st != .opened
    | none => true)

/-- A write-back of a line is durable at every channel it went to: the line is clean, unless a write has changed it since; then it is written back again where it must be. -/
def wbDone (pinned : Bool) (f i : Nat) (l : Line) (s : State) : State :=
  if wbOut s pinned f i then s else
    let x := s.frame pinned f
    let s := fbump WAY WAY_WB_COUNT s
    if !bit16 x.dirty i then updFrame pinned f (fun x => { x with wb := setBit16 x.wb i false }) s
    else if wayLine s (frameLine s pinned f i) = l then cleanLine pinned f i s
    else
      let s := updFrame pinned f (fun x => { x with wb := setBit16 x.wb i false }) s
      if wbOwed s x i then pushWb pinned f i s
      else match chargeMan x i with
        | some m => wbHigh m s
        | none => s

/-! ### Where a read's data goes -/

/-- Mark a line read of the walk engine as returned; one of an image load is counted, and written into the Waystation for the descriptor's manifest (07 R232, 12 R352, R360). -/
def walkBack (image : Bool) (a b key : Nat) (l : Line) (psn : Bool) (s : State) : State :=
  let s := match (if image then s.wreads.find? fun r => r.image && r.a = a && r.b = b && r.key = key && r.back.isNone else none) with
    | some r => fbump WLK WLK_LOADLINE_COUNT (charge 0x01 1 (some r.man) s)
    | none => s
  { s with wreads := s.wreads.map fun r =>
      if r.image = image ∧ r.a = a ∧ r.b = b ∧ r.key = key ∧ r.back.isNone then
        let off := match s.caravan (Fin.ofNat 16 a) b with
          | some c => if image then 0 else (match c.keys[key]? with
            | some k => (keyAddr (wdStage s c.desc c.stage) k).1 % 128 / 8
            | none => 0)
          | none => 0
        { r with busy := false, back := some (psn, if image then 0 else counterOf l off) }
      else r }

/-- A read for an entry of the queue engine has returned, or one of a reissued DEQ's (08 R250, R253). -/
def queBack (ring : Fin 16) (entry cell : Nat) (l : Line) (psn : Bool) (s : State) : State :=
  if 4096 ≤ entry then dupAnswer entry (dupCell entry cell l psn s) else
    { s with que := { s.que with reads := s.que.reads.map fun r =>
        if r.ring = ring ∧ r.entry = entry ∧ r.cell = cell then { r with back := some psn } else r } }

/-- A prefetched cell is in its block's frame, or the block's record, as cell 32 (08 R243). A poisoned cell or record is left to be read from DRAM when it is needed. -/
def prefBack (b cell : Nat) (psn : Bool) (s : State) : State :=
  match qFrameOf s b with
  | some f =>
    if psn then s else if cell = 32 then setQfr f { s.qfr f with recOk := true } s else setQfr f { s.qfr f with valid := setBit32 (s.qfr f).valid cell } s
  | none => s

/-- The DRAM copy of a frame's line has been read: the oldest access that waits for it has its line (07 R210). -/
def ueBack (pinned : Bool) (f i : Nat) (l : Line) (psn : Bool) (s : State) : State :=
  match s.wayOps.findIdx? fun o => o.asked && o.back.isNone && o.pinned = pinned && o.frame = f && o.line = i with
  | some k => { s with wayOps := s.wayOps.modify k fun o => { o with back := some (l, psn) } }
  | none => s

/-- The data of a read is there, decoded (09 R278, 02 R62): `psn` marks a poisoned line. -/
def readDone (c : Fin 16) (x : Cmd) (l : Line) (psn : Bool) (s : State) : State :=
  match x.src with
  | .req ring slot .read => readValid ring slot l psn s
  | .req ring slot .rphase =>
    if psn then mergePoison ring slot c (updChan c (fun y => { y with locks := y.locks.erase x.line }) s)
    else
      let s := toRslt ring slot l s
      match getEntry s ring slot with
      | some e => updChan c (fun y => { y with mergeQ := y.mergeQ ++ [{ x with src := .req ring slot .write, wr := true, data := slotsLine e.staged }] }) s
      | none => updChan c (fun y => { y with locks := y.locks.erase x.line }) s
  | .walk image a b key => walkBack image a b key l psn s
  | .fill pinned f i =>
    if bit16 (s.frame pinned f).stale i then
      pushFill pinned f i (updFrame pinned f (fun y => { y with stale := setBit16 y.stale i false, reading := setBit16 y.reading i false }) s)
    else if (s.frame pinned f).st = .filling then fillLine pinned f i l psn (onlyIf x.defr (deferPj (s.coef 0x01)) s) else s
  | .wayUe pinned f i => ueBack pinned f i l psn s
  | .quePref b cell => prefBack b cell psn s
  | .queRead ring entry cell => queBack ring entry cell l psn s
  | .stack _ e n => if psn then stackLevel (stackLost e n s) else stackDone n s
  | .bist => batchDone c s
  | _ => s

/-- A write is durable at its channel (01 R19). -/
def writeDone (c : Fin 16) (x : Cmd) (s : State) : State :=
  match x.src with
  | .req ring slot .write => homeDurable ring slot s
  | .req ring slot .twin => twinDurable ring slot s
  | .wback pinned f i => wbDone pinned f i x.data s
  | .wbackTwin pinned f i => wbDone pinned f i x.data s
  | .queWb b cell => evict (qWbDone b cell s)
  | .stackInit e => initDone e false s
  | .bist => batchDone c s
  | _ => s

/-! ### The loss of a channel (01 R41, R42, 08 R257 to R259, 13 R382) -/

/-- The partner holds a whole copy of a channel's TWIN lines. -/
def twinCopy (s : State) (c : Fin 16) : Bool := twinUp s (partnerOf c)

/-- A journal entry whose request a lost channel ends: one on the channel's ring, unless it is a TWIN manifest's and the partner can complete it; and without such a partner, the TWIN entries on the partner's own ring. -/
def entryLost (both : Bool) (c ring : Fin 16) (e : JEntry) : Bool :=
  if e.st == .free || e.st == .lost then false
  else if ring = c then !e.twin || both
  else ring = partnerOf c && e.twin && both

/-- The ring slots whose entries satisfy a condition. -/
def slotsOf (s : State) (ring : Fin 16) (p : JEntry → Bool) : List Nat :=
  ((s.ring ring).entries.zipIdx.filter fun x => p x.1).map fun x => ((s.ring ring).head + x.2) % 4096

/-- The entries of a ring that are lost with a channel, and their number. -/
def loseRing (both : Bool) (c ring : Fin 16) (s : State) : State × Nat :=
  let l := slotsOf s ring (entryLost both c ring)
  (evict (retire ring (forAll l (fun k s => dropPlan ring k (loseEntry ring k 0 false s)) s)), l.length)

/-- Lines of frames that a condition on their place picks are recorded as poisoned, and their dirty data is given up (01 R42). -/
def poisonFrames (bad : Place → Bool) (s : State) : State :=
  let hit := fun (x : Frame) => (List.range 16).filter fun i => match placeOf s (x.seg * 16 + i) with
    | some p => bad p
    | none => false
  let one := fun (pinned : Bool) (f : Nat × Frame) (s : State) =>
    if f.2.st = .free ∨ f.2.st = .test ∨ f.2.st = .retired then s else
      updFrame pinned f.1 (fun x => (hit x).foldl (fun x i => { x with
        psn := setBit16 x.psn i true, dirty := setBit16 x.dirty i false, wb := setBit16 x.wb i false,
        charge := x.charge.filter fun q => q.1 ≠ i }) x) s
  wayStat (forAll s.way.pinned (one true) (forAll s.way.tier (one false) s))

/-- A command of a lost channel finds another way: to the partner for a TWIN line, or to its end with a poisoned line. -/
def redirect (c : Fin 16) (twin : Bool) (x : Cmd) (s : State) : State :=
  let q := partnerOf c
  match x.src with
  | .req ring slot .read => if twin then pushCmd q x s else readValid ring slot 0 true s
  | .req ring slot .rphase =>
    let s := updEntry ring slot (fun e => { e with twinLeft := false }) s
    pushCmd q x (updChan q (fun y => { y with intake := y.intake.filter fun z => z.src != .req ring slot .twin }) s)
  | .req ring slot .write => homeDurable ring slot s
  | .req ring slot .twin => twinDurable ring slot s
  | .walk image a b key =>
    if twin then { s with wreads := s.wreads.map fun r => if r.image = image ∧ r.a = a ∧ r.b = b ∧ r.key = key then { r with busy := false, retryAt := none } else r }
    else walkBack image a b key 0 true s
  | .fill pinned f i => pushFill pinned f i (updFrame pinned f (fun y => { y with reading := setBit16 y.reading i false, stale := setBit16 y.stale i false }) s)
  | .wback pinned f i => if twin then wbDone pinned f i (wayLine s (frameLine s pinned f i)) s else cleanLine pinned f i s
  | .wbackTwin pinned f i => if twin then wbDone pinned f i (wayLine s (frameLine s pinned f i)) s else cleanLine pinned f i s
  | .wayUe pinned f i => if twin then pushCmd q x s else ueBack pinned f i 0 true s
  | .queWb b cell => qWbDone b cell s
  | .queRead ring entry cell => queBack ring entry cell 0 true s
  | .stack false e n => stackLost e n s
  | .stackInit e => initDone e true s
  | _ => s

/-- Contestants that step 4 would now refuse are refused, and those of the lost channel's arbiter whose lines the partner serves move there. -/
def moveContest (c : Fin 16) (s : State) : State :=
  let all := s.arbs.toList.flatMap fun a => a.contest ++ a.resvWait
  let s := forAll all (fun x s => match stepFault s x.req with
    | some (0, ch) => refuseNew x.port x.req 5 (ch * 16) 0 (leaveContest x s)
    | _ => s) s
  let a := s.arb (chArb c)
  updArb (chArb (partnerOf c)) (fun y => { y with contest := y.contest ++ a.contest, resvWait := y.resvWait ++ a.resvWait })
    (updArb (chArb c) (fun y => { y with contest := [], resvWait := [] }) s)

/-- The commands of a channel, its open rows, and a pause that is due but has not started end (10 R312, 11 R346). -/
def clearWork (c : Fin 16) (s : State) : State :=
  let s := forAll [(0 : Fin 2), 1] (fun r s => fbumpN (CH c) CH_PDCYC_COUNT (pdNow s c r) s) (endInord c s)
  let s := updChan c (fun y => { y with intake := [], mergeQ := [], locks := [], line := [], flight := [], rows := [], bg := [], replay := none, pd := Vector.replicate 2 false }) s
  let s := updPhy c (fun y => { y with due := none, stopped := false, mustRun := false, alertLow := false }) s
  fillStat c (fset (CH c) CH_STATUS_RANK_PD 0 s)

/-- What the channel and its PHY were doing ends, a running pause or PHY slice too (10 R312, 11 R341, R346). -/
def clearChan (c : Fin 16) (s : State) : State :=
  updPhy c (fun y => { y with active := none, parkDue := false }) (clearWork c (stopPhy c (cutPause c s)))

/-- Line reads of the walk engine that stand in contest or back-off and that no channel can serve come back poisoned (07 R228). -/
def walkLost (s : State) : State :=
  { s with wreads := s.wreads.map fun r =>
      if !r.busy && r.back.isNone && (probeLine s r.line).isNone && (match placeOf s r.line with
        | some p => !chanUp s (servedAt s p)
        | none => true) then { r with back := some (true, 0) } else r }

/-- A channel in service is lost (01 R41, R42): it takes state `st`, and `cause` is reported. -/
def channelLost (c : Fin 16) (cause : String) (st : Nat) (s : State) : State :=
  let both := !twinCopy s c
  let y := s.chan c
  let cmds := (y.flight.map Flight.cmd) ++ y.line ++ y.mergeQ ++ y.intake ++ y.bg.map BgReq.cmd
  let s := updChan c (fun y => { y with
    lost := true, resync := false, psnAll := true, psnTwin := both || y.psnTwin,
    psn := if both then [] else y.psn.filter fun l => decide (twinFirst s ≤ l) }) s
  let s := if both then updChan (partnerOf c) (fun y => if y.lost ∨ y.resync then
      { y with psnTwin := true, psn := y.psn.filter fun l => decide (l < twinFirst s) } else y) s else s
  let s := setChState c st (loseSlice c (clearChan c (leaveCycle [(1, c.val), (2, c.val), (3, c.val)] s)))
  let (s, n) := loseRing both c c s
  let (s, m) := loseRing both c (partnerOf c) s
  let s := forAll cmds (fun x s =>
    let stands := match x.src with
      | .req ring slot _ => (match getEntry s ring slot with
        | some e => e.st == .pend || e.st == .rslt
        | none => false)
      | _ => true
    onlyIf stands (redirect c (decide (twinFirst s ≤ x.line) && !both) x) s) s
  let s := walkLost s
  let s := moveContest c (poisonFrames (fun p => (p.ch = c && !p.twin) || (both && p.twin && (p.ch = c || p.ch = partnerOf c))) s)
  horizonCheck (emit "channel_lost" [("ch", .n c), ("cause", .s cause), ("lost", .n (n + m))] (irq GLB_IRQ_STAT_CH_LOST s))

end Sys2Proof.Machine
end

