-- ==== Sys2Proof/Machine/Ecc.lean ====
section
/-! DEFINITION. The line code: Reed-Solomon codewords over GF(2^16), their layouts, the poison word, and the decoder (10 R294 to R297, R300 to R303). -/

namespace Sys2Proof.Machine

/-! ### The field GF(2^16) (10 R294) -/

/-- Multiply by x. -/
def gfX (a : Nat) : Nat := if 32768 ≤ a then Nat.xor (a * 2 % 65536) 0x100B else a * 2

/-- Multiply by x^n. -/
def gfXn : Nat → Nat → Nat
  | 0, a => a
  | n + 1, a => gfX (gfXn n a)

/-- Multiply, over the low `n` bits of `b`. -/
def gfMulN : Nat → Nat → Nat → Nat
  | 0, _, _ => 0
  | n + 1, a, b => Nat.xor (if b % 2 = 1 then a else 0) (gfMulN n (gfX a) (b / 2))

def gfMul (a b : Nat) : Nat := gfMulN 16 a b

/-- a^(2^(n+1) - 2): with n = 15 the inverse of a. -/
def gfInvN : Nat → Nat → Nat
  | 0, _ => 1
  | n + 1, a => let b := gfInvN n a; let sq := gfMul b b; gfMul sq (gfMul a a)

def gfInv (a : Nat) : Nat := gfInvN 15 a

/-- The sum of a list. -/
def gfSum (l : List Nat) : Nat := l.foldl Nat.xor 0

/-- The coefficient of x^i of a polynomial, lowest first. -/
def coef (l : List Nat) (i : Nat) : Nat := (l[i]?).getD 0

/-- The product of two polynomials, lowest coefficient first, up to x^(n-1). -/
def polyMul (n : Nat) (a b : List Nat) : List Nat :=
  (List.range n).map fun k => gfSum ((List.range (k + 1)).map fun i => gfMul (coef a i) (coef b (k - i)))

/-- The value of a polynomial. -/
def polyAt (a : List Nat) (x : Nat) : Nat := a.foldr (fun c v => Nat.xor c (gfMul v x)) 0

/-! ### Codewords (10 R294, R295, R300) -/

/-- How a line of a rank is stored: the rank's width, its marked device, and whether the line stands in the spared layout. -/
structure Lay where
  x8 : Bool
  mark : Option Nat
  spared : Bool
  deriving DecidableEq, Repr

/-- Symbols of a device: 4 in an x4 rank, 8 in an x8 rank (10 R295). -/
def symsOf (x8 : Bool) : Nat := if x8 then 8 else 4

/-- The device that holds a symbol position. -/
def devOf (x8 : Bool) (p : Nat) : Nat := p / symsOf x8

/-- The symbol positions of the marked device. -/
def Lay.marked (y : Lay) : List Nat :=
  match y.mark with
  | some d => (List.range (symsOf y.x8)).map (symsOf y.x8 * d + ·)
  | none => []

/-- The positions that hold symbols, in order: in the spared layout, those that survive. -/
def Lay.alive (y : Lay) : List Nat := if y.spared then (List.range 72).filter fun p => !y.marked.contains p else List.range 72

/-- The number of check symbols: 8, or 4 in the spared layout of an x4 rank; the one of an x8 rank has none. -/
def Lay.checks (y : Lay) : Nat := if y.spared then (if y.x8 then 0 else 4) else 8

/-- The generator (x - α^0) … (x - α^(n-1)), highest coefficient first. -/
def genPoly : Nat → List Nat
  | 0 => [1]
  | n + 1 => List.zipWith Nat.xor (genPoly n ++ [0]) (0 :: (genPoly n).map (gfXn n))

/-- The remainder of D(x) · x^n divided by the generator, highest coefficient first. -/
def remainder (n : Nat) (d : List Nat) : List Nat :=
  let g := (genPoly n).drop 1
  d.foldl (fun r x => let f := Nat.xor x ((r.head?).getD 0); List.zipWith Nat.xor (r.drop 1 ++ [0]) (g.map (gfMul f))) (List.replicate n 0)

/-- The codeword of 64 data symbols in a layout, in the order of `Lay.alive`. -/
def codeword (y : Lay) (d : List Nat) : List Nat := d ++ remainder y.checks d

/-- Data symbol k of a line (10 R294). -/
def dataSym (l : Line) (k : Nat) : Nat := l.toNat / 2 ^ (16 * k) % 65536

/-- The line of 64 data symbols. -/
def symLine (f : Nat → Nat) : Line := BitVec.ofNat 1024 (((List.range 64).map fun k => f k % 65536 * 2 ^ (16 * k)).sum)

/-- The constants Q0 to Q7 (10 R302). -/
def qConst : List Nat := [0x3C5A, 0x96E1, 0x0F78, 0xD2B4, 0x6A0D, 0xB13E, 0x48C7, 0xE59F]

/-- The poison word of a layout: the codeword of 64 symbols 0xFA11 with Q0 on XORed into its checks (10 R302). -/
def poisonWord (y : Lay) : List Nat :=
  let d := List.replicate 64 0xFA11
  d ++ List.zipWith Nat.xor (remainder y.checks d) qConst

/-- What stands in the DRAM for a line: its codeword, or the poison word. -/
def storedWord (y : Lay) (l : Line) (psn : Bool) : List Nat := if psn then poisonWord y else codeword y ((List.range 64).map (dataSym l))

/-! ### Decoding (10 R296, R297, R303) -/

/-- An outcome of the decoder, with the positions that were corrected. -/
inductive Dec where
  | clean
  | corrected (l : List Nat)
  | poison
  | uncorrectable
  deriving DecidableEq, Repr

/-- The symbol errors of a burst, one for each position hit. -/
def foldErrs (l : List SymErr) : List (Nat × Nat) :=
  ((List.range 72).map fun p => (p, (l.filter fun e => e.1.val = p).foldl (fun a e => Nat.xor a e.2.toNat) 0)).filter fun e => e.2 ≠ 0

/-- The value that a pattern has at an index; 0 where it has none. -/
def errAt (l : List (Nat × Nat)) (i : Nat) : Nat := ((l.find? fun e => e.1 = i).map (·.2)).getD 0

/-- The locator of the i-th symbol of a word of n: the coefficient of x^(n - 1 - i) has it to the power n - 1 - i. -/
def locator (n i : Nat) : Nat := gfXn (n - 1 - i) 1

/-- x^k. -/
def gfPow (x : Nat) : Nat → Nat
  | 0 => 1
  | k + 1 => gfMul x (gfPow x k)

/-- The r syndromes of a pattern of errors, by index, in a word of n symbols. A codeword has none, so the pattern's are those of the word read. -/
def syndromes (n r : Nat) (e : List (Nat × Nat)) : List Nat :=
  (List.range r).map fun j => gfSum (e.map fun x => gfMul x.2 (gfPow (locator n x.1) j))

/-- The state of the search for the shortest locator polynomial: the polynomial, its length, the last one of another length, the shift since, and its discrepancy. -/
structure Search where
  c : List Nat := [1]
  len : Nat := 0
  b : List Nat := [1]
  m : Nat := 1
  d : Nat := 1

/-- One step of the search, on the k-th syndrome. -/
def searchStep (t : List Nat) (k : Nat) (x : Search) : Search :=
  let d := gfSum ((List.range (x.len + 1)).map fun i => gfMul (coef x.c i) (coef t (k - i)))
  if d = 0 then { x with m := x.m + 1 } else
    let f := gfMul d (gfInv x.d)
    let n := max x.c.length (x.b.length + x.m)
    let c := (List.range n).map fun i => Nat.xor (coef x.c i) (if i < x.m then 0 else gfMul f (coef x.b (i - x.m)))
    if 2 * x.len ≤ k then ⟨c, k + 1 - x.len, x.c, 1, d⟩ else { x with c := c, m := x.m + 1 }

/-- The shortest polynomial that makes a sequence of syndromes. -/
def search (t : List Nat) : Search := (List.range t.length).foldl (fun x k => searchStep t k x) {}

/-- The value at one of some positions that r syndromes ask for, where all errors lie at these positions. -/
def solveAt (n r : Nat) (s : List Nat) (l : List Nat) (j : Nat) : Nat :=
  let q := (l.filter fun m => m ≠ j).foldl (fun a m =>
    let f := gfInv (Nat.xor (locator n j) (locator n m))
    polyMul r a [gfMul (locator n m) f, f]) [1]
  gfSum ((List.range r).map fun k => gfMul (coef q k) (coef s k))

/-- The pattern that a decoder with r checks finds for syndromes: any values at the erased indices and at most (r - erased) / 2 errors elsewhere. -/
def findErrs (n r : Nat) (erased : List Nat) (s : List Nat) : Option (List (Nat × Nat)) :=
  let g := erased.foldl (fun a i => polyMul (r + 1) a [1, locator n i]) [1]
  let t := ((List.range r).map fun k => gfSum ((List.range (k + 1)).map fun i => gfMul (coef g i) (coef s (k - i)))).drop erased.length
  let x := search t
  let roots := (List.range n).filter fun i => !erased.contains i && polyAt x.c (gfInv (locator n i)) == 0
  if (r - erased.length) / 2 < x.len ∨ roots.length ≠ x.len then none else
    let l := erased ++ roots
    let e := (l.map fun j => (j, solveAt n r s l j)).filter fun x => x.2 ≠ 0
    if syndromes n r e = s then some e else none

/-- The pattern that the decoder corrects for the errors e of a word: e itself where it lies within the limits, since no other such pattern has its syndromes. -/
def correct (n r : Nat) (erased : List Nat) (e : List (Nat × Nat)) : Option (List (Nat × Nat)) :=
  if (e.filter fun x => !erased.contains x.1).length ≤ (r - erased.length) / 2 then some e else findErrs n r erased (syndromes n r e)

/-- The symbols outside the erased ones in which the word read differs from the poison word, as far as its data go, and then in all. -/
def poisonFar (y : Lay) (l : Line) (psn : Bool) (erased : List Nat) (e : List (Nat × Nat)) : Nat × Nat :=
  let live := fun (i : Nat) => !erased.contains i
  if psn then
    let out := (e.filter fun x => live x.1).map (·.1)
    ((out.filter fun i => decide (i < 64)).length, out.length)
  else
    let d := ((List.range 64).filter fun k => live k && Nat.xor (dataSym l k) (errAt e k) != 0xFA11).length
    if 2 < d then (d, d) else
      let a := storedWord y l false
      let b := poisonWord y
      (d, d + ((List.range y.checks).filter fun j => live (64 + j) && Nat.xor (coef a (64 + j)) (errAt e (64 + j)) != coef b (64 + j)).length)

/-- The decoder's outcome for a burst of a line whose stored data and poison are known, and the data it delivers. The errors on positions that hold nothing go unseen. -/
def decodeLine (y : Lay) (l : Line) (psn : Bool) (sym : List SymErr) : Dec × Line :=
  let alive := y.alive
  let n := alive.length
  let r := y.checks
  let e := (foldErrs sym).filterMap fun x => (alive.findIdx? fun p => p = x.1).map fun i => (i, x.2)
  let erased := if y.spared then [] else y.marked
  let far := poisonFar y l psn erased e
  let isPoison := if y.x8 && y.mark.isSome then decide (far.1 ≤ 2) else if y.spared then far.2 == 0 else decide (far.2 ≤ 2)
  if isPoison then (.poison, 0) else
    let base := fun k => if psn then 0xFA11 else dataSym l k
    let off := if psn then
        ((List.range n).map fun i => (i, Nat.xor (errAt e i) (if i < 64 then 0 else coef qConst (i - 64)))).filter fun x => x.2 ≠ 0
      else e
    let out := fun (fix : List (Nat × Nat)) => symLine fun k => Nat.xor (base k) (Nat.xor (errAt off k) (errAt fix k))
    if off.isEmpty then (.clean, l)
    else if r = 0 then (.clean, out [])
    else match correct n r erased off with
      | none => (.uncorrectable, 0)
      | some [] => (.clean, out [])
      | some fix => (.corrected (fix.filterMap fun x => alive[x.1]?), out fix)

end Sys2Proof.Machine
end

