-- ==== Sys2Proof/Machine/Integ.lean ====
section
/-! DEFINITION. DRAM integrity: the line code's outcomes, marking and sparing, poison, patrol scrub, alerts and replay, refresh, MR4, RFM and the row-activation tracker (10 R294 to R327). -/

namespace Sys2Proof.Machine

/-! ### Rank states (10 R297, R299, R301) -/

/-- The register fields of a rank's mark. -/
def markF (r : Nat) : Fld := if r = 0 then CH_SPARE_MARK0 else CH_SPARE_MARK1
def mdevF (r : Nat) : Fld := if r = 0 then CH_SPARE_MDEV0 else CH_SPARE_MDEV1
def sparedF (r : Nat) : Fld := if r = 0 then CH_SPARE_SPARED0 else CH_SPARE_SPARED1

/-- The marked device of a rank. -/
def markOf (s : State) (c : Fin 16) (r : Nat) : Option Nat :=
  if fbit s (CH c) (markF r) then some (fget s (CH c) (mdevF r)) else none

/-- A line of a rank stands in the spared layout (10 R301). -/
def isSpared (s : State) (c : Fin 16) (lam : Nat) : Bool :=
  let r := (bankOf s lam).rank
  fbit s (CH c) (sparedF r)
    || (fbit s (CH c) CH_SPARE_BUSY && decide (fget s (CH c) CH_SPARE_BRANK = r) && decide (rhoOf s lam < fget s (CH c) CH_SPAREPTR_PTR))

/-- The marked device of a rank once its mark acts: from the first entry boundary after the mark (10 R299). -/
def markIn (s : State) (c : Fin 16) (r : Nat) : Option Nat := if (s.chan c).markAt8[(Fin.ofNat 2 r : Fin 2)] ≤ s.d8 then markOf s c r else none

/-- The layout in which a line stands and is decoded. -/
def layOf (s : State) (c : Fin 16) (lam : Nat) : Lay := ⟨geoX8 s, markIn s c (bankOf s lam).rank, isSpared s c lam⟩

/-- The codeword that stands in the DRAM for a line (10 R294, R302). -/
def dramWord (s : State) (c : Fin 16) (lam : Nat) : List Nat := storedWord (layOf s c lam) (dramLine s c lam) (dramPsn s c lam)

/-- The decoder's outcome for a burst of a line whose stored value and poison are known, and the data it delivers (10 R296). -/
def decode (s : State) (c : Fin 16) (lam : Nat) (l : Line) (psn : Bool) (sym : List SymErr) : Dec × Line := decodeLine (layOf s c lam) l psn sym

/-- The 9-cycle path (10 R296). -/
def slowPath (s : State) (c : Fin 16) (lam : Nat) (d : Dec) : Bool :=
  d != .clean || ((markIn s c (bankOf s lam).rank).isSome && !isSpared s c lam)

/-! ### Marks (10 R298 to R300) -/

/-- The earliest time that a kind of earlier command allows. -/
def after8 (s : State) (c : Fin 16) (p : Issued → Bool) (n : Nat) : Nat :=
  ((s.chan c).hist.filter p).foldl (fun a x => max a (x.at8 + ck8 s c n)) 0

/-- The end of the last burst on CHn_DQ: the boundary between two entries at which an interruption may begin (09 R281). -/
def burstEnd8 (s : State) (c : Fin 16) : Nat :=
  max (after8 s c (fun x => x.kind == .rd) (fget s (CH c) CH_TIM0_CL + 8)) (after8 s c (fun x => x.kind == .wr) (fget s (CH c) CH_TIM0_CWL + 8))

/-- The sparing rewrite of the next rank that waits starts. -/
def nextSpare (c : Fin 16) (s : State) : State :=
  match (s.chan c).spareQ with
  | [] => fset (CH c) CH_SPARE_BUSY 0 s
  | r :: _ =>
    if fbit s (CH c) CH_SPARE_BUSY then s else
      fset (CH c) CH_SPARE_BUSY 1 (fset (CH c) CH_SPARE_BRANK r.val (fset (CH c) CH_SPAREPTR_PTR 0 s))

/-- A mark is refused: the rank has one (10 R299). -/
def markRefuse (c : Fin 16) (r d : Nat) (s : State) : State :=
  emit "mark_refused" [("ch", .n c), ("rank", .n r), ("dev", .n d)] (fset (CH c) CH_INTSTAT_MARK_REF 1 s)

/-- A device reaches a mark trigger (10 R298, R299): it is marked and the sparing rewrite of its rank is started, or the trigger is refused. A DRAM slice on the rank stops (13 R382). -/
def markDev (c : Fin 16) (r d : Nat) (cause : String) (s : State) : State :=
  match markOf s c r with
  | some m => if m = d then s else markRefuse c r d s
  | none =>
    let s := fset (CH c) (markF r) 1 (fset (CH c) (mdevF r) d s)
    let s := logFree c 5 d (fset (CH c) CH_INTSTAT_MARK 1 s)
    let s := emit "dev_marked" [("ch", .n c), ("rank", .n r), ("dev", .n d), ("cause", .s cause)] s
    let s := match s.bist.dram[c] with
      | some x => if (sliceRow s x.idx).2.1 = r then stopSlice c s else s
      | none => s
    nextSpare c (updChan c (fun y => { y with spareQ := y.spareQ ++ [Fin.ofNat 2 r], markAt8 := y.markAt8.set (Fin.ofNat 2 r) (max s.d8 (burstEnd8 s c)) }) s)

/-- The word of the CHn window that counts a device's corrected lines (10 R325). -/
def devWord (c : Fin 16) (r d : Nat) (s : State) : Nat := (ixGet s (CH c) (r * 32 + d)).toNat

def setDevWord (c : Fin 16) (r d v : Nat) (s : State) : State := ixSet (CH c) (r * 32 + d) (BitVec.ofNat 32 v) s

/-- MARK_WIN in ns, with 0 read as 1. -/
def markWinNs (s : State) (c : Fin 16) : Nat := max 1 (fget s (CH c) CH_ECCCFG_MARK_WIN) * 100000000

/-- The devices of corrected positions as a mask. -/
def devMask (x8 : Bool) (l : List Nat) : Nat := (((l.map (devOf x8)).eraseDups).map fun d => 2 ^ d).sum

/-- One device of a corrected line is counted, and its mark triggers are tried; those of a marked device count in its total alone (10 R298, R299, R325). -/
def countDev (c : Fin 16) (r lam : Nat) (scrub : Bool) (l : List Nat) (d : Nat) (s : State) : State :=
  let x8 := geoX8 s
  let marked := markIn s c r == some d
  let w := devWord c r d s
  let win := w % 65536
  let tot := min 65535 (w / 65536 + 1)
  let s := setDevWord c r d ((if marked then win else min 65535 (win + 1)) + tot * 65536) s
  let s := if (s.chan c).markSeen.contains (r * 32 + d) then s else
      logFault c { kind := 1, lam := lam, scrub := scrub, nsym := l.length, mask := BitVec.ofNat 18 (devMask x8 l) } (updChan c (fun y => { y with markSeen := (r * 32 + d) :: y.markSeen }) s)
  let th := fget s (CH c) CH_ECCCFG_MARK_TH
  if marked then s
  else if th ≠ 0 ∧ win + 1 = th then markDev c r d "count" s
  else if 3 ≤ (l.filter fun p => devOf x8 p = d).length then markDev c r d "burst" s
  else s

/-- A decoded line is counted (10 R298, R323, R324); the 9-cycle path is charged to the manifest of the request that it is read for (12 R360). -/
def countDec (c : Fin 16) (x : Cmd) (d : Dec) (s : State) : State :=
  let lam := x.line
  let s := onlyIf (slowPath s c lam d) (chargeFor x 0x06 x.man) s
  match d with
  | .clean => s
  | .corrected l =>
    let s := fset (CH c) CH_INTSTAT_CE 1 (fbumpN (CH c) CH_CE_SYMS_COUNT l.length (fbump (CH c) CH_CE_LINES_COUNT s))
    forAll ((l.map (devOf (geoX8 s))).eraseDups) (countDev c (bankOf s lam).rank lam x.byScrub l) s
  | .poison => fset (CH c) CH_INTSTAT_POISON_RD 1 (fbump (CH c) CH_POISON_RD_COUNT s)
  | .uncorrectable => fset (CH c) CH_INTSTAT_UE 1 s

/-! ### Uncorrectable lines (10 R304, R306) -/

/-- A poison word that is written to a line is counted and logged (10 R324, R325). -/
def notePoison (c : Fin 16) (lam : Nat) (scrub : Bool) (s : State) : State :=
  logFault c { kind := 3, lam := lam, scrub := scrub } (fbump (CH c) CH_POISON_WR_COUNT s)

/-- The count of an aligned millisecond ends with its event (10 R306, R327). -/
def closeMs (c : Fin 16) (s : State) : State :=
  let k := (s.chan c).ueMs
  if k = 0 then s else emit "ecc_ue" [("ch", .n c), ("lines", .n k)] (updChan c (fun y => { y with ueMs := 0 }) s)

/-- An uncorrectable line joins the count of the present millisecond. -/
def countMs (c : Fin 16) (s : State) : State :=
  let s := onlyIf (decide ((s.chan c).ueAt < s.ns / 1000000)) (closeMs c) s
  updChan c (fun y => { y with ueMs := y.ueMs + 1, ueAt := s.ns / 1000000 }) s

/-- A line has decoded UNCORRECTABLE, whether or not it is read again: it counts in its millisecond, and one too many is the channel's fault (10 R306, R327). -/
def ueSeen (c : Fin 16) (s : State) : State :=
  let s := irq GLB_IRQ_STAT_ECC_UE (countMs c s)
  let th := fget s (CH c) CH_ECCCFG_UE_FAULT
  if th ≠ 0 ∧ th ≤ (s.chan c).ueMs ∧ inService s c then channelLost c "integrity" 6 (fset (CH c) CH_INTSTAT_INTEGRITY 1 s) else s

/-- A line stays UNCORRECTABLE: it is logged and counted (10 R304). -/
def ueLine (c : Fin 16) (lam : Nat) (scrub : Bool) (s : State) : State := logFault c { kind := 2, lam := lam, scrub := scrub } (fbump (CH c) CH_UE_LINES_COUNT s)

/-- A reread has recovered its line. -/
def rereadGood (c : Fin 16) (lam : Nat) (scrub : Bool) (s : State) : State := logFault c { kind := 4, lam := lam, scrub := scrub } (fbump (CH c) CH_REREAD_OK_COUNT s)

/-! ### Background capacity (09 R288) -/

/-- A contestant with the RT flag, rank 1 or rank 2 stands at a channel's arbiter. -/
def rankedAt (s : State) (c : Fin 16) : Bool := (arbBids s (chArb c)).any fun b => b.flag || decide (0 < b.rank)

/-- Unclaimed capacity: no ranked contestant, and lines left below D. -/
def unclaimed (s : State) (c : Fin 16) : Bool :=
  !rankedAt s c && decide (linesGranted s c < fget s MAN (MAN_CHCAP_DELIV.nth c))

/-- A bucket in sixteenths pays for n lines, or unclaimed capacity does; none where neither can. -/
def payBucket (s : State) (c : Fin 16) (b : Int) (n : Nat) : Option Int :=
  if 16 * (n : Int) ≤ b then some (b - 16 * n)
  else if unclaimed s c then some (if b < 0 then b else max 0 (b - 16 * n))
  else none

def spendAllow (k : Fin 5) (s : State) : State :=
  { s with led := { s.led with allow := s.led.allow.set k ((s.led.allow[k]).map (· - 1)) } }

/-! ### The scrub position (10 R307) -/

/-- The number of installed lines of a member channel: all, or those below T_L where its partner is outside the map (09 R270). -/
def installed (s : State) (c : Fin 16) : Nat := if (pairedChans s).contains c then chLines s else twinFirst s

/-- A line joins a coverage cycle's patrol (13 R387). -/
def coverPatrol (c : Fin 16) (lam : Nat) (s : State) : State :=
  { s with bist := { s.bist with cycPatrol := s.bist.cycPatrol.set c (putRun lam s.bist.cycPatrol[c]) } }

/-- The scrub position moves on; a full pass records its length. -/
def scrubNext (c : Fin 16) (s : State) : State :=
  let p := fget s (CH c) CH_SCRUB_POS
  if installed s c ≤ p + 1 then
    let s := rgSet (CH c + CH_SCRUBCYC_LAST_S.off) (BitVec.ofNat 32 ((s.ns - (s.chan c).scrubStart) / 1000000000)) s
    fbump BST (BST_SLICE_COUNT.nth 2) (fset (CH c) CH_SCRUB_POS 0 (updChan c (fun y => { y with scrubStart := s.ns }) s))
  else fset (CH c) CH_SCRUB_POS (p + 1) s

/-! ### Coverage (13 R387) -/

/-- A target's name. -/
def targetWord : BTarget → String
  | .way => "way" | .dram => "dram" | .patrol => "patrol" | .phy => "phy" | .lane => "lane"

/-- Channels in service. -/
def servChans (s : State) : List (Fin 16) := allChans.filter fun c => inMap s c && inService s c

/-- The kinds of PHY slices of a channel's rotation (13 R383). -/
def phyKinds (s : State) : List Nat := if geoRanks s = 2 then [0, 1, 2, 3, 4] else [0, 2, 4]

/-- Channels whose units a cycle of a target counts: the members that are not lost. A unit that has left service counts again from the next cycle; a cycle that no unit is left in takes them all (13 R387). -/
def cycChans (s : State) (t : Nat) : List (Fin 16) :=
  let l := allChans.filter fun c => inMap s c && !(s.chan c).lost
  let m := l.filter fun c => !s.bist.out.contains (t, c.val)
  if m.isEmpty then l else m

/-- The lanes that a cycle counts, likewise. -/
def cycLanes (s : State) : List (Fin 4 × Nat) :=
  let l := allPorts.flatMap fun p => s.bist.lanesIn[p].map fun k => (p, k)
  let m := l.filter fun x => !s.bist.out.contains (4, x.1.val * 16 + x.2)
  if m.isEmpty then l else m

/-- Trained lanes of an ACTIVE port: the physical lanes of its group (03 R66). -/
def laneGroup (s : State) (p : Fin 4) : List Nat :=
  if fget s (HP p) HP_STATUS_STATE = 5 then (List.range (4 * 2 ^ fget s (HP p) HP_STATUS_WIDTH)).map ((s.port p).group + ·) else []

/-- The scrub list's lines: every carve-out but the tier's (13 R374). -/
def scrubLines (s : State) : Nat := tierLine0 s

/-- Units counted and units of a target (13 R387). -/
def covOf (s : State) (t : BTarget) : Nat × Nat :=
  match t with
  | .way => (16 * s.bist.cycWay.length + min (scrubLines s) s.bist.cycScrub, 16 * fget s WAY WAY_TIER_FRAMES + scrubLines s)
  | .dram => (((cycChans s 1).map fun c => min (sliceRows s) (runsLen s.bist.cycDram[c])).sum, (cycChans s 1).length * sliceRows s)
  | .patrol => (((cycChans s 2).map fun c => min (installed s c) (runsLen s.bist.cycPatrol[c])).sum, ((cycChans s 2).map (installed s)).sum)
  | .phy => (((cycChans s 3).map fun c => (s.bist.cycPhy[c]).length).sum, (cycChans s 3).length * (phyKinds s).length)
  | .lane => (((cycLanes s).filter fun x => s.bist.cycLane.contains x).length, (cycLanes s).length)

/-- The number of a target, as BST_COVt has it. -/
def targetNo (t : BTarget) : Fin 5 :=
  match t with
  | .way => 0 | .dram => 1 | .patrol => 2 | .phy => 3 | .lane => 4

/-- A cycle's counts begin again, with every unit in service. -/
def cycClear (t : BTarget) (b : BistState) : BistState :=
  let b := { b with out := b.out.filter fun u => u.1 ≠ (targetNo t).val }
  match t with
  | .way => { b with cycWay := [], cycScrub := 0 }
  | .dram => { b with cycDram := Vector.replicate 16 [] }
  | .patrol => { b with cycPatrol := Vector.replicate 16 [] }
  | .phy => { b with cycPhy := Vector.replicate 16 [] }
  | .lane => { b with cycLane := [] }

/-- Coverage follows the counts; a complete cycle is recorded and reported (13 R387). Without units it stays as it is. -/
def covStat (t : BTarget) (s : State) : State :=
  let (k, n) := covOf s t
  if n = 0 then s else
  let s := fset BST (BST_COV_COV.nth (targetNo t)) (min 65535 (65536 * k / n)) s
  if k < n then s else
    let ms := (s.ns - (s.bist.cycAt[(targetNo t)]).getD s.ns) / 1000000
    let s := { s with bist := { cycClear t s.bist with cycAt := s.bist.cycAt.set (targetNo t) (some s.ns) } }
    emit "bist_cycle" [("target", .s (targetWord t)), ("ms", .n ms)] (fset BST (BST_CYC_MS.nth (targetNo t)) ms s)

/-- The first cycles of the targets that can run begin: those enabled, with the layout committed and the map loaded (13 R371, R387). -/
def cycBegin (s : State) : State :=
  if !(fbit s WAY WAY_STATUS_COMMITTED && mapLoaded s) then s else
    let s := onlyIf (fbit s BST BST_CTL_WAY_EN) (cycStart 0) s
    let s := onlyIf (fbit s BST BST_CTL_DRAM_EN) (cycStart 1) s
    onlyIf (fbit s BST BST_CTL_PHY_EN) (cycStart 3) s

/-- Patrol scrub's first cycle begins: the map is loaded, and a channel scrubs (10 R307, 13 R387). -/
def cycPatrolBegin (s : State) : State :=
  onlyIf ((servChans s).any fun c => fbit s (CH c) CH_ECCCFG_SCRUB_EN) (cycStart 2) s

/-- Coverage of every target follows the units in service. -/
def covAll (s : State) : State := forAll [BTarget.way, .dram, .patrol, .phy, .lane] covStat (cycPatrolBegin (cycBegin s))

/-- A step whose operations are not charged under their coefficients (13 R370). -/
def uncharged (f : State → State) (s : State) : State :=
  let r := f s
  { r with led := { r.led with opPj := s.led.opPj, acct := s.led.acct, winMan := s.led.winMan } }

/-! ### Background commands (06 R166, 09 R288) -/

/-- Beside the rest, a channel's arbiter can grant a background command of a slot kind in this cycle. -/
def bgRoom (s : State) (c : Fin 16) (k : SlotKind) : Bool :=
  chanRuns s c && !entering s && !flushOn s && windowRoom s c && bgSlotFree s c k && decide (0 < (leftNow s (chArb c)).rate)

/-- A background command is granted: it takes its slot and the arbiter's grant of the cycle, and its lines are counted. -/
def takeBg (c : Fin 16) (lines : Nat) (x : Cmd) (s : State) : State :=
  let s := fbump ARB (ARB_GRANT_COUNT.nth c) (fbumpN (CH c) CH_BGLINE_COUNT lines (noteResv (chArb c) none s))
  updChan c (fun y => { y with intake := y.intake ++ [x], bgLines := if x.man.isNone then y.bgLines + lines else y.bgLines }) s

/-- A line's lock is released. -/
def unlock (c : Fin 16) (lam : Nat) (s : State) : State := updChan c (fun y => { y with locks := y.locks.erase lam }) s

/-- The write of a line that scrub or a sparing rewrite has read waits for the command line, ahead of the commands its lock holds. -/
def writeBack (c : Fin 16) (x : Cmd) (l : Line) (psn : Bool) (s : State) : State :=
  updChan c (fun y => { y with mergeQ := y.mergeQ ++ [{ x with wr := true, data := l, psn := psn }] }) s

/-! ### Patrol scrub (10 R307) -/

/-- SCRUB_READ: patrol scrub's next read takes a migration background slot, and CHn_BGSCR pays for it. A displaced row is skipped (13 R378). -/
def scrub (c : Fin 16) (sym again : List SymErr) (s : State) : State :=
  let lam := fget s (CH c) CH_SCRUB_POS
  if !chanRuns s c || !fbit s (CH c) CH_ECCCFG_SCRUB_EN then s
  else if displaced s c lam then scrubNext c s
  else if !bgRoom s c .background || !allowed s 2 then s
  else
    match payBucket s c (s.chan c).bkScr 1 with
    | none => s
    | some b =>
      let s := spendAllow 2 (updChan c (fun y => { y with bkScr := b }) s)
      scrubNext c (takeBg c 1 { src := .scrub, line := lam, wr := false, slot := .background, sym := sym, again := again, byScrub := true, defr := true } s)

/-- A line that patrol scrub read has been decoded: corrected, it is written back; else its lock ends. -/
def scrubBack (c : Fin 16) (x : Cmd) (l : Option (Line × Bool)) (s : State) : State :=
  let s := covStat .patrol (coverPatrol c x.line (fbump (CH c) CH_SCRUB_LINES_COUNT s))
  match l with
  | some (l, true) => writeBack c x l false (fbump (CH c) CH_SCRUB_FIX_COUNT s)
  | _ => unlock c x.line s

/-! ### The sparing rewrite (10 R300, R301) -/

/-- SPARE_REWRITE: the rewrite's next line takes a migration background slot. -/
def spareStep (c : Fin 16) (sym : List SymErr) (s : State) : State :=
  match spareNext s c with
  | none => s
  | some lam =>
    if !bgRoom s c .background then s else
      takeBg c 2 { src := .spare, line := lam, wr := false, slot := .background, sym := sym } (updChan c (fun y => { y with spareLeft := y.spareLeft - 1 }) s)

/-- A line that the rewrite read has been decoded: it is written in the spared layout, as a poison word where it is poisoned or cannot be corrected. -/
def spareBack (c : Fin 16) (x : Cmd) (l : Option (Line × Bool)) (s : State) : State :=
  match l with
  | some (l, _) => writeBack c x l false s
  | none => writeBack c x x.data true s

/-- The write of a rewritten line is admitted: CHn_SPAREPTR moves on, and after the last line the rank is spared (10 R300, R301). -/
def spareAdmit (c : Fin 16) (lam : Nat) (s : State) : State :=
  let s := unlock c lam s
  match (s.chan c).spareQ with
  | [] => s
  | r :: rest =>
    let ptr := fget s (CH c) CH_SPAREPTR_PTR
    if ptr + 1 < rankLines s then fset (CH c) CH_SPAREPTR_PTR (ptr + 1) s
    else
      let s := fset (CH c) (sparedF r.val) 1 (fset (CH c) CH_SPARE_BUSY 0 (updChan c (fun y => { y with spareQ := rest }) s))
      nextSpare c (emit "spare_done" [("ch", .n c), ("rank", .n r.val), ("dev", .n (fget s (CH c) (mdevF r.val)))] s)



/-! ### Rows, power-down and refresh (09 R279, R286, 10 R315) -/

/-- A DRAM command is remembered for the timing rules, and its rank is in use; the newest 512 are kept. Leaving and entering power-down are no commands to the rank (09 R286). -/
def pushHist (c : Fin 16) (k : DKind) (r bg bk at8 : Nat) (s : State) : State :=
  updChan c (fun y => { y with
    hist := (⟨k, r, bg, bk, at8⟩ :: y.hist).take 512,
    rankUsed8 := if k = .pdx ∨ k = .pde then y.rankUsed8 else y.rankUsed8.set (Fin.ofNat 2 r) (max y.rankUsed8[(Fin.ofNat 2 r : Fin 2)] s.d8) }) s

/-- The open row of a bank. -/
def rowOpen (s : State) (c : Fin 16) (bank : Nat) : Option OpenRow := ((s.chan c).rows.find? fun x => x.1 = bank).map (·.2)

/-- A bank is precharged. -/
def closeRow (c : Fin 16) (bank : Nat) (s : State) : State := updChan c (fun y => { y with rows := y.rows.filter fun x => x.1 ≠ bank }) s

/-- A rank leaves power-down after a stay of at least TPD (09 R286). -/
def exitPd (c : Fin 16) (r : Fin 2) (s : State) : State :=
  if (s.chan c).pd[r] then
    let t := max s.d8 ((s.chan c).pdAt8[r] + ck8 s c (fget s (CH c) CH_TIM3_TPD))
    let s := fbumpN (CH c) CH_PDCYC_COUNT (chCycles s c (t - (s.chan c).pdAt8[r])) s
    let s := fsetBit (CH c) CH_STATUS_RANK_PD r.val false s
    pushHist c .pdx r.val 0 0 t (updChan c (fun y => { y with pd := y.pd.set r false, rankUsed8 := y.rankUsed8.set r t }) s)
  else s

/-! ### Timing (09 R283, 11 R340) -/

def sameBank (b : Bank) (k : DKind) (x : Issued) : Bool := x.kind == k && x.rank = b.rank && x.bg = b.bg && x.bank = b.bank
def sameGroup (b : Bank) (k : DKind) (x : Issued) : Bool := x.kind == k && x.rank = b.rank && x.bg = b.bg
def otherGroup (b : Bank) (k : DKind) (x : Issued) : Bool := x.kind == k && x.rank = b.rank && x.bg ≠ b.bg
def otherRank (b : Bank) (k : DKind) (x : Issued) : Bool := x.kind == k && x.rank ≠ b.rank
def sameIndex (b : Bank) (k : DKind) (x : Issued) : Bool := x.kind == k && x.rank = b.rank && x.bank = b.bank

def maxOf (l : List Nat) : Nat := l.foldl max 0

/-- The earliest ACT. -/
def actAt8 (s : State) (c : Fin 16) (b : Bank) : Nat :=
  let t := fun (f : Fld) => fget s (CH c) f
  maxOf [s.d8, (s.chan c).stopTo8, (s.chan c).caAt8, after8 s c (sameBank b .act) (t CH_TIM4_TRC), after8 s c (sameBank b .pre) (t CH_TIM0_TRP),
    after8 s c (sameGroup b .act) (t CH_TIM1_TRRD_L), after8 s c (otherGroup b .act) (t CH_TIM1_TRRD_S),
    (match ((s.chan c).hist.filter fun x => x.kind == .act && x.rank = b.rank)[3]? with
      | some x => x.at8 + ck8 s c (t CH_TIM1_TFAW)
      | none => 0),
    after8 s c (fun x => x.kind == .pdx && x.rank = b.rank) (t CH_TIM3_TXP),
    after8 s c (sameIndex b .ref) (t CH_TIM5_TRFCSB), after8 s c (sameIndex b .rfm) (t CH_TIM5_TRFCSB)]

/-- The earliest PRE. -/
def preAt8 (s : State) (c : Fin 16) (b : Bank) : Nat :=
  let t := fun (f : Fld) => fget s (CH c) f
  maxOf [s.d8, (s.chan c).caAt8, after8 s c (sameBank b .act) (t CH_TIM4_TRAS), after8 s c (sameBank b .rd) (t CH_TIM3_TRTP),
    after8 s c (fun x => x.kind == .pdx && x.rank = b.rank) (t CH_TIM3_TXP),
    after8 s c (sameBank b .wr) (t CH_TIM0_CWL + 8 + t CH_TIM3_TWR)]

/-- The earliest column command. -/
def colAt8 (s : State) (c : Fin 16) (b : Bank) (wr : Bool) : Nat :=
  let t := fun (f : Fld) => fget s (CH c) f
  let k := fun (f : Fld) => fget s (PHY c) f
  let cl := t CH_TIM0_CL
  let cwl := t CH_TIM0_CWL
  maxOf ([s.d8, (s.chan c).stopTo8, (s.chan c).caAt8, after8 s c (sameBank b .act) (t CH_TIM0_TRCD), after8 s c (fun x => x.kind == .pdx && x.rank = b.rank) (t CH_TIM3_TXP)]
    ++ (if wr then
        [after8 s c (sameGroup b .wr) (t CH_TIM2_TCCD_L_WR), after8 s c (otherGroup b .wr) (t CH_TIM1_TCCD_S),
         after8 s c (otherRank b .wr) (8 + k PHY_TURN_WW), after8 s c (fun x => x.kind == .rd) (cl + 8 + k PHY_TURN_RW - cwl)]
      else
        [after8 s c (sameGroup b .rd) (t CH_TIM2_TCCD_L), after8 s c (otherGroup b .rd) (t CH_TIM1_TCCD_S),
         after8 s c (otherRank b .rd) (8 + k PHY_TURN_RR), after8 s c (sameGroup b .wr) (cwl + 8 + t CH_TIM2_TWTR_L + k PHY_TURN_WR),
         after8 s c (otherGroup b .wr) (cwl + 8 + t CH_TIM2_TWTR_S + k PHY_TURN_WR), after8 s c (otherRank b .wr) (cwl + 8 + k PHY_TURN_WR - cl)]))

/-- Column issue stops at an entry boundary. -/
def entryStop (c : Fin 16) (s : State) : State := stopIdle c (advanceTo8 (burstEnd8 s c) s)

/-- The bank of a number rank * 32 + bank group * 4 + bank. -/
def bankAt (n : Nat) : Bank := ⟨n / 32, n % 32 / 4, n % 4, 0, 0⟩

/-- The open rows of the banks that a condition picks are precharged, when the timing of each allows it. -/
def closeBanks (c : Fin 16) (p : Nat → Bool) (s : State) : State :=
  let l := (s.chan c).rows.filter fun x => p x.1
  if l.isEmpty then s else
    let s := advanceTo8 (maxOf (l.map fun x => preAt8 s c (bankAt x.1))) s
    forAll l (fun x s => pushHist c .pre (bankAt x.1).rank (bankAt x.1).bg (bankAt x.1).bank s.d8 s)
      (updChan c (fun y => { y with rows := y.rows.filter fun x => !p x.1 }) s)

/-- The earliest REFsb or RFM to a rank: its precharges, its exit from power-down, and the refreshes before it. -/
def refAt8 (s : State) (c : Fin 16) (r : Nat) : Nat :=
  let t := fun (f : Fld) => fget s (CH c) f
  maxOf [s.d8, after8 s c (fun x => x.kind == .pre && x.rank = r) (t CH_TIM0_TRP), after8 s c (fun x => x.kind == .pdx && x.rank = r) (t CH_TIM3_TXP),
    (s.chan c).caAt8, after8 s c (fun x => (x.kind == .ref || x.kind == .rfm) && x.rank = r) (t CH_TIM5_TRFCSB)]

/-- The command/address slot of a command: two DRAM CK cycles (log 119). -/
def useCa (c : Fin 16) (s : State) : State := updChan c (fun y => { y with caAt8 := s.d8 + ck8 s c 2 }) s

/-- A refresh interval in eighths of a ns: TREFI, or half of it at the doubled rate. -/
def refInterval8 (s : State) (c : Fin 16) : Nat :=
  let t := fget s (CH c) CH_TIM6_TREFI
  ck8 s c (if fbit s (CH c) CH_REF_RATE2X then t / 2 else t)

/-- RAA counts of banks change. -/
def mapRaa (c : Fin 16) (p : Nat → Bool) (f : Nat → Nat) (s : State) : State :=
  updChan c (fun y => { y with raa := (y.raa.map fun x => if p x.1 then (x.1, f x.2) else x).filter fun x => x.2 ≠ 0 }) s

def raaOf (s : State) (c : Fin 16) (bank : Nat) : Nat := (((s.chan c).raa.find? fun x => x.1 = bank).map (·.2)).getD 0

/-- The four REFsb of an interval on a rank, `n` times: each bank index once, at an entry boundary, with its banks precharged and their counts lowered (10 R315, R318). Column issue stops until the time of the last of them has passed (log 118). -/
def refreshRank (c : Fin 16) (r : Fin 2) (n : Nat) (s : State) : State :=
  let s := closeBanks c (fun b => b / 32 = r.val) (exitPd c r (entryStop c s))
  let s := advanceTo8 (refAt8 s c r.val) s
  let last := s.d8 + (n - 1) * ck8 s c (fget s (CH c) CH_TIM5_TRFCSB)
  let s := charge 0x05 (4 * n) none (fbumpN (CH c) CH_REFSB_COUNT (4 * n) s)
  let s := mapRaa c (fun b => b / 32 = r.val) (fun v => v - n * fget s (CH c) CH_RAA_REFDEC) s
  stopUntil c (last + ck8 s c (fget s (CH c) CH_TIM5_TRFCSB)) (useCa c <| forAll (List.range 4) (fun bk s => pushHist c .ref r.val 0 bk last s) s)

/-- REFab to each rank, outside IN_SERVICE (10 R315, R318). -/
def refreshAll (c : Fin 16) (s : State) : State :=
  let s := charge 0x05 (geoRanks s) none (fbumpN (CH c) CH_REFAB_COUNT (geoRanks s) s)
  mapRaa c (fun _ => true) (fun v => v - fget s (CH c) CH_RAA_REFDEC) s

/-- The refreshes that a pause has held up issue at its end (11 R346). -/
def refreshOwed (c : Fin 16) (s : State) : State :=
  forAll [(0 : Fin 2), 1] (fun r s =>
    let debt := (s.chan c).refDebt[r]
    if debt = 0 then s else refreshRank c r debt (updChan c (fun y => { y with refDebt := y.refDebt.set r 0 }) s)) s

/-- REFab to each rank, then self-refresh (10 R315). -/
def selfRefresh (c : Fin 16) (s : State) : State := setChState c 4 (refreshAll c s)

/-- REFRESH_DUE (10 R315): while a replay or a pause runs, the refreshes of the interval wait. -/
def refreshDue (c : Fin 16) (r : Fin 2) (s : State) : State :=
  if !chanRuns s c ∨ geoRanks s ≤ r.val then s else
    let s := advanceTo8 (s.chan c).refAt8[r] s
    let iv := refInterval8 s c
    let s := updChan c (fun y => { y with refAt8 := y.refAt8.set r (max s.d8 y.refAt8[r] + iv) }) s
    let debt := (s.chan c).refDebt[r]
    if ((s.chan c).replay.isSome || (s.phy c).active.isSome || (s.bist.phyRun[c]).isSome) && decide (debt < 4) then
      updChan c (fun y => { y with refDebt := y.refDebt.set r (debt + 1) }) s
    else
      deferAll c (refreshRank c r (debt + 1) (updChan c (fun y => { y with refDebt := y.refDebt.set r 0 }) s))

/-! ### MR4 (10 R316, R317) -/

/-- The refresh rate changes. -/
def setRate2x (c : Fin 16) (v fail : Bool) (cause : String) (s : State) : State :=
  let s := if v then fsetB (CH c) CH_REF_CAUSE fail s else s
  emit "refresh_rate" [("ch", .n c), ("rate", .s (if v then "2x" else "1x")), ("cause", .s cause)] (fsetB (CH c) CH_REF_RATE2X v s)

/-- The readings of one rank: failures counted, devices over temperature reported. -/
def mr4Rank (c : Fin 16) (r : Nat) (l : List Mr4) (s : State) : State :=
  forAll l.zipIdx (fun x s => match x.1 with
    | .bad => fset (CH c) CH_INTSTAT_MR4_FAIL 1 (fbump (CH c) CH_MR4_FAIL_COUNT s)
    | .over => emit "dram_overtemp" [("ch", .n c), ("rank", .n r), ("dev", .n x.2)] (fset (CH c) CH_REF_OVERTEMP 1 s)
    | _ => s) s

/-- POLL_MS in ns, with 0 read as 1. -/
def pollNs (s : State) (c : Fin 16) : Nat := max 1 (fget s (CH c) CH_REF_POLL_MS) * 1000000

/-- MR4_POLL: the readings of each device of each rank; those beyond the geometry do not exist. A poll waits for a replay and for a running pause (10 R312, 11 R346). -/
def mr4Poll (c : Fin 16) (r0 r1 : List Mr4) (s : State) : State :=
  if !chanRuns s c ∨ (s.chan c).replay.isSome ∨ (s.phy c).active.isSome ∨ (s.bist.phyRun[c]).isSome then s else
    let s := advanceToNs ((s.chan c).mr4At + pollNs s c) s
    let r0 := r0.take (geoDevs s)
    let r1 := if geoRanks s = 2 then r1.take (geoDevs s) else []
    let s := exitPd c 0 (if geoRanks s = 2 then exitPd c 1 (entryStop c s) else entryStop c s)
    let s := advanceTo8 (after8 s c (fun x => x.kind == .pdx) (fget s (CH c) CH_TIM3_TXP)) s
    let s := stopUntil c (s.d8 + ck8 s c (geoRanks s * (fget s (CH c) CH_TIM0_CL + 8))) (updChan c (fun y => { y with rankUsed8 := Vector.replicate 2 s.d8 }) s)
    let s := charge 0x05 1 none (fbump (CH c) CH_MR4_POLL_COUNT (updChan c (fun y => { y with mr4At := s.ns }) s))
    let s := mr4Rank c 1 r1 (mr4Rank c 0 r0 s)
    let all := r0 ++ r1
    let hot := all.any fun x => x == .hot || x == .over
    let bad := all.any fun x => x == .bad
    let was := fbit s (CH c) CH_REF_RATE2X
    if hot ∨ bad then
      let s := updChan c (fun y => { y with cool := 0 }) s
      if was then s else setRate2x c true (!hot) (if hot then "hot" else "readfail") s
    else
      let n := (s.chan c).cool + 1
      let s := updChan c (fun y => { y with cool := n }) s
      if was ∧ max 1 (fget s (CH c) CH_REF_COOL_POLLS) ≤ n then setRate2x c false false "cool" s else s

/-! ### Row activation (10 R318 to R322) -/

/-- The level of a channel's row-activation throttle is raised and a manifest limit set, with one event. -/
def throttle (c : Fin 16) (level : Nat) (man : Option (BitVec 8)) (s : State) : State :=
  let old := fget s (CH c) CH_ROWSTAT_LEVEL
  let new := max old level
  let fresh := man.filter fun m => !((s.chan c).actLimit.any fun x => x.1 = m)
  let s := if old < new then fbump (CH c) CH_THR_ENT_COUNT (fset (CH c) CH_ROWSTAT_LEVEL new s) else s
  let s := match fresh with
    | some m => updChan c (fun y => { y with actLimit := y.actLimit ++ [(m, max 1 (fget s (CH c) CH_ROWACT2_MAN_LIM))] }) s
    | none => s
  let s := fset (CH c) CH_ROWSTAT_LIMITED (s.chan c).actLimit.length s
  if old < new ∨ fresh.isSome then
    emit "act_throttle" ([("ch", .n c), ("level", .n new)] ++ (match fresh with | some m => [("man", .n m.toNat)] | none => []))
      (fset (CH c) CH_INTSTAT_THROTTLE 1 s)
  else s

/-- RFM commands leave for a rank's bank indices, or one RFMab for four of them (10 R318); the budget of 10 R320 is checked. -/
def issueRfm (c : Fin 16) (r : Nat) (bks : List Nat) (s : State) : State :=
  if bks.isEmpty then s else
    let n := if 4 ≤ bks.length then 1 else bks.length
    let s := closeBanks c (fun b => b / 32 = r && bks.contains (b % 4)) (exitPd c (Fin.ofNat 2 r) (entryStop c s))
    let s := advanceTo8 (refAt8 s c r) s
    let imt := fget s (CH c) CH_RAA_IMT
    let s := charge 0x05 n none (fbumpN (CH c) CH_RFM_COUNT n s)
    let s := updChan c (fun y => { y with
      rfmDue := y.rfmDue.filter fun x => !(x.1 = r && bks.contains x.2),
      rfmAt := (y.rfmAt.filter fun t => decide (s.ns < t + 100000)) ++ List.replicate n s.ns }) s
    let s := mapRaa c (fun b => b / 32 = r && bks.contains (b % 4)) (fun v => v - imt) s
    let s := stopUntil c (s.d8 + ck8 s c (fget s (CH c) CH_TIM5_TRFCSB)) (useCa c <| forAll bks (fun bk s => pushHist c .rfm r 0 bk s.d8 s) s)
    let bud := fget s (CH c) CH_ROWSTAT_RFM_BUD
    if bud ≠ 0 ∧ bud < (s.chan c).rfmAt.length then throttle c 2 none (updChan c (fun y => { y with actT2 := true }) s) else s

/-- The bank indices of a rank whose RFM is due. -/
def rfmBanks (s : State) (c : Fin 16) (r : Nat) : List Nat :=
  (List.range 4).filter fun bk =>
    ((s.chan c).raa.any fun x => x.1 / 32 = r && x.1 % 4 = bk && decide (fget s (CH c) CH_RAA_IMT ≤ x.2))
      || (s.chan c).rfmDue.contains (r, bk)

/-- At an entry boundary, every due RFM leaves. -/
def rfmBoundary (c : Fin 16) (s : State) : State := forAll (List.range (geoRanks s)) (fun r s => issueRfm c r (rfmBanks s c r) s) s

/-- A vote for a candidate manifest (10 R319). -/
def voteFor (m : Option (BitVec 8)) (t : Track) : Track :=
  match m with
  | none => t
  | some m =>
    if t.cand = some m then { t with vote := min 32767 (t.vote + 1) }
    else if t.vote ≤ 1 then { t with cand := some m, vote := 1 }
    else { t with vote := t.vote - 1 }

/-- An ACT in a tracker: the tracker, the row's count before and after, and its candidate. -/
def trackAct (row : Nat) (m : Option (BitVec 8)) (l : List Track) : List Track × Nat × Track :=
  match l.find? fun t => t.row = row with
  | some t =>
    let t' := voteFor m { t with count := min 32767 (t.count + 1) }
    (l.map fun x => if x.row = row then t' else x, t.count, t')
  | none =>
    if l.length < 16 then
      let t' := voteFor m { row := row, count := 1 }
      (l ++ [t'], 0, t')
    else
      let low := (l.map Track.count).foldl min 32767
      let t' := voteFor m { row := row, count := min 32767 (low + 1) }
      match l.findIdx? fun t => t.count = low with
      | some i => (l.set i t', 0, t')
      | none => (l, 0, t')

/-- An ACT is counted (10 R318 to R320): `m` is the manifest of the request it is made for. What it reaches is one change, with one event. -/
def countAct (c : Fin 16) (b : Bank) (m : Option (BitVec 8)) (s : State) : State :=
  let k := b.no
  let s := updChan c (fun y => { y with raa := (y.raa.filter fun x => x.1 ≠ k) ++ [(k, raaOf s c k + 1)] }) s
  let old := (((s.chan c).trk.find? fun x => x.1 = k).map (·.2)).getD []
  let (l, was, t) := trackAct b.row m old
  let s := updChan c (fun y => { y with trk := (y.trk.filter fun x => x.1 ≠ k) ++ [(k, l)] }) s
  let t1 := fget s (CH c) CH_ROWACT_T1
  let t2 := fget s (CH c) CH_ROWACT_T2
  let t3 := fget s (CH c) CH_ROWACT2_T3
  let reach := fun th => decide (was < th ∧ th ≤ t.count)
  let s := onlyIf (reach t1) (updChan c (fun y => { y with rfmDue := y.rfmDue ++ [(b.rank, b.bank)], actT1 := y.actT1 ++ t.cand.toList })) s
  let s := onlyIf (reach t2) (updChan c (fun y => { y with actT2 := true })) s
  let level := if reach t3 then 3 else if reach t2 then 2 else if reach t1 then 1 else 0
  onlyIf (level != 0) (throttle c level (if reach t1 then t.cand else none)) s

/-- WIN_MS, with 0 read as 1. -/
def winMs (s : State) (c : Fin 16) : Nat := max 1 (fget s (CH c) CH_ROWACT2_WIN_MS)

/-- The next multiple of the tracker window in ms. -/
def nextWin (s : State) (c : Fin 16) : Nat := (s.ns / 1000000 / winMs s c + 1) * winMs s c

/-- The channel limit of row-activation throttling: ⌊C ÷ 2⌋ at level 2 and ⌈C ÷ 4⌉ at level 3; none below (10 R320). -/
def actChLimit (s : State) (c : Fin 16) : Option Nat :=
  match fget s (CH c) CH_ROWSTAT_LEVEL with
  | 2 => some (nominalC s c / 2)
  | 3 => some (cdiv (nominalC s c) 4)
  | _ => none

/-- Limits that are lifted end at once, in the accounts of the running period too (10 R322); one that has been lowered meanwhile waits for the next accounting period (10 R320). -/
def liftLimits (c : Fin 16) (gone : List (BitVec 8 × Nat)) (s : State) : State :=
  let s := forAll gone (fun x s => setAcct x.1.toNat c.val { s.acct x.1.toNat c.val with thr := 0x3FF } s) s
  let cur := fget s ARB (ARB_THRCH_LIMIT.nth c)
  if cur = 0 then s else fset ARB (ARB_THRCH_LIMIT.nth c) (match actChLimit s c with
    | some v => max cur v
    | none => 0) s

/-- ROWACT_WINDOW_BOUNDARY (10 R319, R322). -/
def rowactBoundary (c : Fin 16) (s : State) : State :=
  if !dtimeRuns s then s else
    let y := s.chan c
    let s := advanceToNs (y.actWinEnd * 1000000) s
    let keep := y.actLimit.filter fun x => y.actT1.contains x.1
    let old := fget s (CH c) CH_ROWSTAT_LEVEL
    let chLim := if 2 ≤ old ∧ !y.actT2 then old - 1 else old
    let new := if 2 ≤ chLim then chLim else if keep.isEmpty then 0 else 1
    let s := updChan c (fun y => { y with trk := [], actT1 := [], actT2 := false, actLimit := keep }) s
    let s := updChan c (fun y => { y with actWinEnd := nextWin s c }) s
    let s := fset (CH c) CH_ROWSTAT_LIMITED keep.length (fset (CH c) CH_ROWSTAT_LEVEL new s)
    let s := liftLimits c (y.actLimit.filter fun x => !y.actT1.contains x.1) s
    if new = old then s else emit "act_throttle" [("ch", .n c), ("level", .n new)] s

/-! ### Alerts and replay (10 R309 to R314) -/

/-- An alert is a CRC alert: some write's CRC window is open, from its last data beat on, and no command's CA window is (10 R309, R313). -/
def crcAlert (s : State) (c : Fin 16) : Bool :=
  let open_ := (s.chan c).flight.filter fun f => f.window && !f.due
  let ca := fun (f : Flight) => f.at8 + ck8 s c (if f.cmd.wr then fget s (CH c) CH_ALERTCFG_CA_WIN else min (fget s (CH c) CH_ALERTCFG_CA_WIN) (fget s (CH c) CH_TIM0_CL))
  let beat := fun (f : Flight) => f.at8 + ck8 s c (fget s (CH c) CH_TIM0_CWL + 8)
  let crc := fun (f : Flight) => f.at8 + ck8 s c (fget s (CH c) CH_TIM0_CWL + 8 + fget s (CH c) CH_ALERTCFG_CRC_WIN)
  (open_.any fun f => f.cmd.wr && decide (beat f ≤ s.d8 ∧ s.d8 ≤ crc f)) && !open_.any fun f => decide (s.d8 < ca f)

/-- A replay is abandoned (10 R312). -/
def replayFail (c : Fin 16) (s : State) : State :=
  channelLost c "replay" 6 (logFree c 8 0 (fset (CH c) CH_INTSTAT_REPLAY_FAIL 1 s))

/-- A replay has succeeded: issue resumes from the command line (10 R311). -/
def replayOver (c : Fin 16) (s : State) : State := stopUntil c s.d8 (fbump (CH c) CH_REPLAY_COUNT (updChan c (fun y => { y with replay := none }) s))

/-- An attempt begins: every rank is precharged, and every command of the retry buffer is to be issued again, in order; the data of its reads is discarded (10 R311). -/
def reissue (c : Fin 16) (attempt since : Nat) (s : State) : State :=
  let s := closeBanks c (fun _ => true) (fbump (CH c) CH_REPLAY_ATT_COUNT s)
  let s := forAll (List.range (geoRanks s)) (fun r s => forAll (List.range 32) (fun k s => pushHist c .pre r (k / 4) (k % 4) s.d8 s) s) (updChan c (fun y => { y with rows := [] }) s)
  let s := useCa c (updChan c (fun y => { y with replay := some ⟨since, attempt⟩, flight := y.flight.map fun f => if f.window then { f with due := true, cmd := { f.cmd with act := false } } else f }) s)
  if (s.chan c).flight.any Flight.window then s else replayOver c s

/-! ### Accesses made at once -/

/-- An access that is made at once, as replay, parking and the like make them, opens its row: the ACT is counted, and an RFM that falls due leaves (10 R318, R319). -/
def rowOnce (c : Fin 16) (lam : Nat) (man : Option (BitVec 8)) (s : State) : State :=
  rfmBoundary c (countAct c (bankOf s lam) man (charge 0x04 1 man (fbump (CH c) CH_ACTCNT_COUNT s)))

/-- A line is written at once. -/
def writeNow (c : Fin 16) (lam : Nat) (l : Line) (psn scrub : Bool) (man : Option (BitVec 8)) (s : State) : State :=
  let s := rowOnce c lam man (charge 0x03 1 man (fbump (CH c) CH_WRCMD_COUNT (storeLine c lam l psn s)))
  onlyIf psn (notePoison c lam scrub) s

/-- The burst of a line that is read at once is decoded, with its reread where it is uncorrectable: the data and whether it was corrected, or none for poison (10 R296, R304). -/
def decodeNow (c : Fin 16) (x : Cmd) (s : State) : Option (Line × Bool) × State :=
  let (d, l) := decode s c x.line x.data x.psn x.sym
  let s := countDec c x d s
  match d with
  | .clean | .corrected _ => (some (l, d != .clean), s)
  | .poison => (none, s)
  | .uncorrectable =>
    let s := rowOnce c x.line x.man (charge 0x02 1 x.man (fbump (CH c) CH_RDCMD_COUNT (ueSeen c s)))
    let (d, l) := decode s c x.line x.data x.psn x.again
    let s := countDec c x d s
    match d with
    | .clean | .corrected _ => (some (l, d != .clean), rereadGood c x.line x.byScrub s)
    | _ => (none, ueLine c x.line x.byScrub (writeNow c x.line x.data true x.byScrub x.man s))

/-- A line is read at once. -/
def readNow (c : Fin 16) (x : Cmd) (s : State) : Option (Line × Bool) × State :=
  decodeNow c { x with data := dramLine s c x.line, psn := dramPsn s c x.line }
    (rowOnce c x.line x.man (charge 0x02 1 x.man (fbump (CH c) CH_RDCMD_COUNT s)))

/-- A proofing pause, or a PHY slice's pause, is stopped by an alert (10 R314, 13 R384): a proofing pause waits for a bucket that holds a full pause. -/
def pauseAbort (c : Fin 16) (s : State) : State :=
  match (s.phy c).active with
  | some _ =>
    let s := cutPause c s
    let s := updPhy c (fun y => { y with active := none, stopped := false, fullNext := true, due := some s.ns }) (stopUntil c s.d8 s)
    let s := emit "proof_abort" [("ch", .n c)] (fset (CH c) CH_INTSTAT_PAUSE_ABORT 1 (fbump (CH c) CH_PAUSE_ABORT_COUNT s))
    let s := updChan c (fun y => { y with pauseAborts := y.pauseAborts + 1 }) s
    if 4 ≤ (s.chan c).pauseAborts then channelLost c "replay" 6 s else refreshOwed c s
  | none => refreshOwed c (emit "proof_abort" [("ch", .n c)] (stopPhy c s))

/-- A low CHn_ALERT_N (10 R311 to R314). In the CA kind of a PHY slice it only marks its point as failing. -/
def alertLow (c : Fin 16) (s : State) : State :=
  if !chanRuns s c then s
  else
    let s := updPhy c (fun y => { y with alertLow := true }) s
    if (s.bist.phyRun[c]).isSome ∧ s.bist.phyKind[c] = 4 then s
    else if (s.phy c).active.isSome ∨ (s.bist.phyRun[c]).isSome then pauseAbort c s
    else
      let crc := crcAlert s c
      let s := if crc then fset (CH c) CH_INTSTAT_ALERT_CRC 1 (fbump (CH c) CH_ALERT_CRC_COUNT s)
        else fset (CH c) CH_INTSTAT_ALERT_CA 1 (fbump (CH c) CH_ALERT_CA_COUNT s)
      let s := logFree c (if crc then 7 else 6) 0 s
      match (s.chan c).replay with
      | none => deferAll c (reissue c 1 s.ns (stopIdle c s))
      | some r => if 4 ≤ r.attempt then replayFail c s else reissue c (r.attempt + 1) r.since s

/-! ### Commands -/

/-- ALERT (10 R311). -/
def execAlert (ch : ChPick) (s : State) : Host.Outcome State Fault Refusal := .next (settle (alertLow ch.ch (actAll ch.errs s)))

/-- ALERT_HOLD_EXPIRY (10 R311): the channel clears the RCD's error state, and CHn_ALERT_N is no longer held. -/
def execAlertHoldExpiry (ch : Fin 16) (s : State) : Host.Outcome State Fault Refusal :=
  .next (if chanRuns s ch && (s.phy ch).alertLow then updPhy ch (fun y => { y with alertLow := false }) (elapse (ck8 s ch 257) s) else s)

/-- REPLAY_TIMEOUT (10 R312). -/
def execReplayTimeout (ch : ChPick) (s : State) : Host.Outcome State Fault Refusal :=
  .next (match (s.chan ch.ch).replay with
    | none => s
    | some r => settle (replayFail ch.ch (actAll ch.errs (advanceToNs (r.since + 1500) s))))

/-- REFRESH_DUE (10 R315). -/
def execRefreshDue (ch : Fin 16) (rank : Fin 2) (s : State) : Host.Outcome State Fault Refusal := .next (refreshDue ch rank s)

/-- MR4_POLL (10 R316). -/
def execMr4Poll (ch : Fin 16) (r0 r1 : List Mr4) (s : State) : Host.Outcome State Fault Refusal := .next (mr4Poll ch r0 r1 s)

/-- ROWACT_WINDOW_BOUNDARY (10 R322). -/
def execRowactWindowBoundary (ch : Fin 16) (s : State) : Host.Outcome State Fault Refusal := .next (rowactBoundary ch s)

/-- MARK_WINDOW_END (10 R298): the window counts return to 0. -/
def execMarkWindowEnd (ch : Fin 16) (s : State) : Host.Outcome State Fault Refusal :=
  .next (if !dtimeRuns s then s else
    let w := markWinNs s ch
    let e := (s.chan ch).markWinEnd
    let s := advanceToNs (if e = 0 then (s.ns / w + 1) * w else e) s
    let s := updChan ch (fun y => { y with markWinEnd := s.ns + markWinNs s ch, markSeen := [] }) s
    forAll (List.range 2) (fun r s => forAll (List.range 18) (fun d s => setDevWord ch r d (devWord ch r d s / 65536 * 65536) s) s) s)

/-- PAGE_TIMEOUT (09 R279): in open-page mode a row without an access for PAGE_TMO cycles is precharged. -/
def execPageTimeout (ch : Fin 16) (bank : Nat) (s : State) : Host.Outcome State Fault Refusal :=
  .next (match rowOpen s ch bank with
    | none => s
    | some r =>
      if !chanRuns s ch ∨ !fbit s (CH ch) CH_CTL_PAGE ∨ (s.chan ch).replay.isSome ∨ (s.phy ch).active.isSome then s else
        let s := advanceTo8 (max (preAt8 s ch (bankAt bank)) (r.used8 + chCk8 s ch (fget s (CH ch) CH_SCHED_PAGE_TMO))) s
        pushHist ch .pre (bank / 32) (bank % 32 / 4) (bank % 4) s.d8 (closeRow ch bank s))

/-- SPARE_REWRITE (10 R300): `sym` are the symbol errors that the read of the line meets. -/
def execSpareRewrite (ch : Fin 16) (sym : List SymErr) (s : State) : Host.Outcome State Fault Refusal := .next (spareStep ch sym s)

/-- SCRUB_READ (10 R307): `sym` and `again` are the symbol errors that the read and its reread meet. -/
def execScrubRead (ch : Fin 16) (sym again : List SymErr) (s : State) : Host.Outcome State Fault Refusal := .next (scrub ch sym again s)

/-- ALIGNED_MILLISECOND_END (10 R306, R327). -/
def execAlignedMillisecondEnd (ch : Fin 16) (s : State) : Host.Outcome State Fault Refusal :=
  .next (if !dtimeRuns s then s else
    let y := s.chan ch
    closeMs ch (advanceToNs (((if y.ueMs = 0 then s.ns / 1000000 else y.ueAt) + 1) * 1000000) s))

/-- Why a mark from the console is refused (10 R326). -/
def markRefusal (s : State) (ch : Fin 16) (rank : Fin 2) (dev : Nat) : Option String :=
  if !inMap s ch ∨ !inService s ch then some "state"
  else if geoRanks s ≤ rank.val ∨ geoDevs s ≤ dev then some "range"
  else if (markOf s ch rank.val).isSome then some "marked"
  else none

/-- A mark from the console. -/
def markVerb (ch : Fin 16) (rank : Fin 2) (dev : Nat) (s : State) : State × OutLn :=
  match markRefusal s ch rank dev with
  | some r => (s, erLn 450 "mark refused" [("ch", .n ch), ("rank", .n rank), ("reason", .s r)])
  | none => (markDev ch rank.val dev "console" s, okLn [])

/-- MARK_COMMAND (10 R326): `set chN.rankR.mark`. -/
def execMarkCommand (ch : Fin 16) (rank : Fin 2) (dev : Nat) (s : State) : Host.Outcome State Fault Refusal :=
  .next (runVerb1 (markVerb ch rank dev) s)

end Sys2Proof.Machine
end

