-- ==== Sys2Proof/Machine/Chan.lean ====
section
/-! DEFINITION. The command line of a channel: admission with the same-line hold and in-order mode, issue under the timing rules, the alert windows, the decoded bursts, background slots, and the timing profiles (06 R167, R188, R189, 09 R277 to R290, 10 R296 to R310). -/

namespace Sys2Proof.Machine

/-! ### Admission (09 R277, R278, 06 R188) -/

/-- A granted command may be admitted, as far as it alone goes: its line is not locked, and a TWIN copy's result is recorded (01 R18), and a sparing rewrite waits for the restore of a displaced row (13 R381). -/
def cmdReady (s : State) (c : Fin 16) (x : Cmd) : Bool :=
  !(s.chan c).locks.contains x.line && !(x.src == .spare && displaced s c x.line) && (match x.src with
    | .req ring slot .twin => (match getEntry s ring slot with
      | some e => e.st != .pend
      | none => true)
    | _ => true)

/-- The place in intake of the first command that a condition picks and that is ready, with no earlier command to its line. -/
def pickIntake (s : State) (c : Fin 16) (p : Cmd → Bool) : Option Nat :=
  let l := (s.chan c).intake
  (List.range l.length).find? fun i => match l[i]? with
    | some x => p x && cmdReady s c x && !((l.take i).any fun y => y.line = x.line)
    | none => false

/-- The write buffer has room for a command's data, which stays there until its alert window closes (09 R277, R280). -/
def writeRoom (s : State) (c : Fin 16) (x : Cmd) : Bool :=
  !x.wr || decide (((s.chan c).line.filter Cmd.wr).length + ((s.chan c).flight.filter fun f => f.window && f.cmd.wr).length < 64)

/-- Commands that a lock holds are counted once (09 R278, R290). -/
def countHeld (c : Fin 16) (n : Nat) (s : State) : State :=
  let y := s.chan c
  let hit := fun (x : Cmd) => y.locks.contains x.line && !x.held
  let k := ((y.intake.take n).filter hit).length
  fbumpN (CH c) CH_HOLD_COUNT k (updChan c (fun y => { y with intake := (y.intake.take n).map (fun x => if hit x then { x with held := true } else x) ++ y.intake.drop n }) s)

/-- Two lines lie in one row. -/
def sameRow (s : State) (a b : Nat) : Bool :=
  let x := bankOf s a
  let y := bankOf s b
  (x.rank, x.bg, x.bank, x.row) == (y.rank, y.bg, y.bank, y.row)

/-- A write that a read can match: a request's, a TWIN copy, queue-engine or migration traffic (06 R188). -/
def inordWrite (x : Cmd) : Bool :=
  match x.src with
  | .scrub | .spare | .bist | .poison => false
  | _ => true

/-- The newest write in the command line or with an open alert window whose row a line matches (06 R188). -/
def matchedWrite (s : State) (c : Fin 16) (lam : Nat) : Option Nat :=
  let y := s.chan c
  let ws := (y.line ++ (y.flight.filter Flight.window).map Flight.cmd).filter fun x => x.wr && inordWrite x && sameRow s x.line lam
  if ws.isEmpty then none else some ((ws.map Cmd.sn).foldl max 0)

/-- An RD or the read phase of a WRP or ADD (06 R188). -/
def isReqRead (x : Cmd) : Bool :=
  match x.src with
  | .req _ _ .read => true
  | .req _ _ .rphase => true
  | _ => false

/-- The write data of a command as it is admitted: a TWIN copy's from its entry, a write-back's from its frame, queue data from its place. -/
def admitData (s : State) (x : Cmd) : Cmd :=
  match x.src with
  | .req ring slot .twin => (match getEntry s ring slot with
    | some e => { x with data := slotsLine e.staged }
    | none => x)
  | .wback p f i => { x with data := wayLine s (frameLine s p f i), psn := bit16 (s.frame p f).psn i }
  | .wbackTwin p f i => { x with data := wayLine s (frameLine s p f i), psn := bit16 (s.frame p f).psn i }
  | _ => x

/-- The line that a write puts into the DRAM, and its poison: a queue's cell stands at its place already, poisoned where its frame's line is; a block's record goes into its half of its line (08 R235, R241), and entries of the stack go beside what else stands in theirs (08 R234). -/
def writeLine (s : State) (c : Fin 16) (x : Cmd) : Line × Bool :=
  match x.src with
  | .queWb b k =>
    if k = 32 then (recLine s b (dramLine s c x.line), false)
    else (dramLine s c x.line, x.psn || (match qFrameOf s b with
      | some f => bitOf (s.qfr f).psn.toNat k
      | none => false))
  | .stack true e n => (entriesLine s (fun k => x.data.toNat / 2 ^ (32 * ((k + stackShift s) % 32))) (stackRow s e) e (e + n) (dramLine s c x.line), false)
  | .stackInit k => (entriesLine s (fun e => poolBlocks s - 1 - e) k (rowFirst s k) (rowEnd s k) (dramLine s c x.line), false)
  | _ => (x.data, x.psn)

/-- What else the write of a line of records does: the other record of a poisoned line is lost (08 R257). -/
def besideRec (c : Fin 16) (x : Cmd) (s : State) : State :=
  match x.src with
  | .queWb b 32 =>
    let o := b / 2 * 2 + (b + 1) % 2
    if dramPsn s c x.line ∧ (s.brec o).out ∧ !recHeld s o then setBrec o { s.brec o with bad := true } s else s
  | _ => s

/-- The lock of a line follows the phases of a WRP or ADD (09 R278), of a scrub read and its write-back, and of a sparing rewrite (10 R300, R307). -/
def admitLock (c : Fin 16) (x : Cmd) (s : State) : State :=
  match x.src with
  | .req _ _ .rphase => updChan c (fun y => { y with locks := y.locks ++ [x.line] }) s
  | .scrub => if x.wr then unlock c x.line s else updChan c (fun y => { y with locks := y.locks ++ [x.line] }) s
  | .spare => if x.wr then spareAdmit c x.line s else updChan c (fun y => { y with locks := y.locks ++ [x.line] }) s
  | .req ring slot .write =>
    match getEntry s ring slot with
    | some e => if e.opc = .wr then s else unlock c x.line s
    | none => unlock c x.line s
  | _ => s

/-- What SEC-DED finds in a line of the copy of a displaced row (13 R378). DEDUCED (log 137): a line that cannot be corrected is poisoned, as a dirty line is (07 R210). -/
def copyEcc (c : Fin 16) (lam : Nat) (ecc : LineEcc) (s : State) : State :=
  match ecc with
  | .clean => s
  | .corrected => fbump WAY WAY_CE_COUNT s
  | .uncorrectable => storeLine c lam (dramLine s c lam) true (fbump WAY WAY_UE_COUNT s)

/-- A command to a displaced row is carried out against the copy at once; patrol scrub skips the row (13 R378). -/
def runDisplaced (c : Fin 16) (ecc : LineEcc) (x : Cmd) (s : State) : State :=
  if x.src = .scrub then unlock c x.line s
  else if x.wr then
    let w := writeLine s c x
    let s := chargeFor x 0x01 x.man (storeLine c x.line w.1 w.2 (besideRec c x s))
    let s := match x.src with
      | .req ring slot .write => servePoint ring slot s
      | _ => s
    writeDone c x s
  else
    let s := copyEcc c x.line ecc (chargeFor x 0x00 x.man s)
    readDone c x (dramLine s c x.line) (dramPsn s c x.line) s

/-- A write to a row that is being copied, admitted after its line's copy read, makes the copy stale: the line is copied again (13 R377). -/
def recopy (c : Fin 16) (x : Cmd) (s : State) : State :=
  match s.bist.dram[c] with
  | some y =>
    let waits := fun (z : Cmd) => isBist z && z.line = x.line
    if x.wr ∧ y.ph = .copy ∧ inSliceRow s y.idx x.line ∧ !((s.chan c).bg.any fun b => waits b.cmd) ∧ !(s.chan c).intake.any waits then
      updChan c (fun z => { z with bg := z.bg ++ [bistReq .copy false x.line] }) s
    else s
  | none => s

/-- A command takes a slot of the command line. -/
def enterLine (c : Fin 16) (x : Cmd) (s : State) : State :=
  let x := { admitData s x with sn := (s.chan c).sn + 1 }
  let s := recopy c x (admitLock c x s)
  let s := exitPd c (Fin.ofNat 2 (bankOf s x.line).rank) s
  let y := s.chan c
  fillStat c (updChan c (fun z => { z with
    sn := x.sn, line := z.line ++ [x], idleFrom8 := if y.line.isEmpty then max y.idleFrom8 s.d8 else y.idleFrom8 }) s)

/-- A command's line lies in the displaced row: it is carried out in the channel's core-side half and takes no slot of the command line (13 R378). -/
def toCopy (s : State) (c : Fin 16) (x : Cmd) : Bool := displaced s c x.line && !isBist x

/-- A command is carried out against the copy. -/
def enterCopy (c : Fin 16) (ecc : LineEcc) (x : Cmd) (s : State) : State :=
  let x := admitData s x
  runDisplaced c ecc x (admitLock c x s)

/-- In-order mode begins (06 R188). -/
def startInord (c : Fin 16) (sn : Nat) (s : State) : State :=
  deferAll c (fsetBit ARB ARB_STATUS_INORD c.val true (fbump ARB (ARB_ION_COUNT.nth c)
    (updChan c (fun y => { y with inord := some sn, inordAt8 := s.d8 }) (stopIdle c s))))

/-- The command at a place in intake is admitted, unless it is a read that begins in-order mode or its data has no room (06 R188, 09 R277). -/
def admitAt (c : Fin 16) (i : Nat) (s : State) : State :=
  match (s.chan c).intake[i]? with
  | none => s
  | some x =>
    match (if isReqRead x then matchedWrite s c x.line else none) with
    | some sn => startInord c sn s
    | none => if writeRoom s c x then enterLine c x (updChan c (fun y => { y with intake := y.intake.eraseIdx i }) s) else s

/-- The next command for the line is admitted: at most one per CK_CHn cycle (09 R277). Commands that a lock held come directly after the write that ended it, in the order of their grants; then the writes of the merge unit; then the others, in that order (09 R278). -/
def admitNext (c : Fin 16) (s : State) : State :=
  if (s.chan c).inord.isSome ∨ 64 ≤ (s.chan c).line.length then s else
    let s := countHeld c (s.chan c).intake.length (advanceTo8 (s.chan c).admAt8 s)
    let s := updChan c (fun y => { y with admAt8 := s.d8 + chCk8 s c 1 }) s
    match pickIntake s c Cmd.held with
    | some i => admitAt c i s
    | none =>
      match (s.chan c).mergeQ with
      | x :: rest => if writeRoom s c x then enterLine c x (updChan c (fun y => { y with mergeQ := rest }) s) else s
      | [] =>
        match pickIntake s c (fun _ => true) with
        | none => s
        | some i => admitAt c i s

/-- COMMAND_ADMISSION (09 R277). A command to the displaced row goes first: it waits for nothing in the command line, and meets the copy in the order of the grants (13 R378). `ecc` is what SEC-DED finds in the line of the copy that it reads. -/
def admission (c : Fin 16) (ecc : LineEcc) (s : State) : State :=
  if !chanRuns s c then s else
    match (s.chan c).mergeQ.findIdx? (toCopy s c) with
    | some i =>
      (match (s.chan c).mergeQ[i]? with
        | some x => enterCopy c ecc x (updChan c (fun y => { y with mergeQ := y.mergeQ.eraseIdx i }) s)
        | none => s)
    | none =>
      match pickIntake s c (toCopy s c) with
      | some i =>
        (match (s.chan c).intake[i]? with
          | some x => enterCopy c ecc x (updChan c (fun y => { y with intake := y.intake.eraseIdx i }) s)
          | none => s)
      | none => admitNext c s

/-! ### Issue (09 R279 to R281) -/

/-- LOOKAHEAD, held to 1 to 16. -/
def lookahead (s : State) (c : Fin 16) : Nat := max 1 (min 16 (fget s (CH c) CH_SCHED_LOOKAHEAD))

/-- The manifest of the request that an ACT is made for (10 R319). -/
def actMan (x : Cmd) : Option (BitVec 8) :=
  match x.src with
  | .req _ _ _ => x.man
  | .walk _ _ _ _ => x.man
  | _ => none

/-- A command's energy, where its operations are charged under their coefficients: not a self-test slice's (13 R370). -/
def chargeCmd (x : Cmd) (k : Nat) (man : Option (BitVec 8)) (s : State) : State := if isBist x then s else chargeFor x k man s

/-- The commands that may issue next: those of the command line, or during a replay those that it is to issue again (10 R311). -/
def issuable (s : State) (c : Fin 16) : List Cmd :=
  if (s.chan c).replay.isSome then ((s.chan c).flight.filter Flight.due).map Flight.cmd else (s.chan c).line

/-- Change the command at a position of these. -/
def updIssuable (c : Fin 16) (pos : Nat) (f : Cmd → Cmd) (s : State) : State :=
  updChan c (fun y =>
    if y.replay.isSome then
      match ((List.range y.flight.length).filter fun i => (y.flight[i]?).any Flight.due)[pos]? with
      | some i => { y with flight := y.flight.modify i fun g => { g with cmd := f g.cmd } }
      | none => y
    else { y with line := y.line.modify pos f }) s

/-- The head entry is delayed because its bank is held by another row: it is counted once (09 R290). -/
def noteClash (c : Fin 16) (pos : Nat) (held : Bool) (s : State) : State :=
  if pos = 0 ∧ held ∧ (s.chan c).replay.isNone ∧ !((s.chan c).line.head?.any Cmd.clash) then
    updIssuable c 0 (fun x => { x with clash := true }) (fbump (CH c) CH_CLASH_COUNT s)
  else s

/-- A bank still holds another row, or has not been precharged since it did. -/
def otherRow (s : State) (c : Fin 16) (b : Bank) : Bool :=
  ((s.chan c).lastRow.any fun x => x.1 = b.no && x.2 != b.row)
    && decide (s.d8 < max (after8 s c (sameBank b .act) (fget s (CH c) CH_TIM4_TRC)) (after8 s c (sameBank b .pre) (fget s (CH c) CH_TIM0_TRP)))

/-- An ACT leaves for the entry at a position. -/
def issueAct (c : Fin 16) (pos : Nat) (x : Cmd) (b : Bank) (s : State) : State :=
  let s := advanceTo8 (actAt8 s c b) (noteClash c pos (otherRow s c b) s)
  let s := chargeCmd x 0x04 x.man (fbump (CH c) CH_ACTCNT_COUNT (pushHist c .act b.rank b.bg b.bank s.d8 s))
  let s := updChan c (fun y => { y with rows := y.rows ++ [(b.no, { row := b.row, used8 := s.d8 })], lastRow := (y.lastRow.filter fun z => z.1 ≠ b.no) ++ [(b.no, b.row)] }) s
  countAct c b (actMan x) (useCa c (updIssuable c pos (fun x => { x with act := true }) s))

/-- A PRE leaves for the entry at a position. -/
def issuePre (c : Fin 16) (pos : Nat) (b : Bank) (s : State) : State :=
  let s := advanceTo8 (preAt8 s c b) (noteClash c pos true s)
  useCa c (pushHist c .pre b.rank b.bg b.bank s.d8 (closeRow c b.no s))

/-- A bank's row after a column command: closed by auto-precharge in closed-page mode, else used. -/
def afterCol (c : Fin 16) (b : Bank) (wr : Bool) (s : State) : State :=
  if fbit s (CH c) CH_CTL_PAGE then
    updChan c (fun y => { y with rows := y.rows.map fun x => if x.1 = b.no then (x.1, { x.2 with used8 := s.d8 }) else x }) s
  else
    let t := fun (f : Fld) => fget s (CH c) f
    let pre := maxOf [after8 s c (sameBank b .act) (t CH_TIM4_TRAS),
      s.d8 + ck8 s c (if wr then t CH_TIM0_CWL + 8 + t CH_TIM3_TWR else t CH_TIM3_TRTP)]
    pushHist c .pre b.rank b.bg b.bank pre (closeRow c b.no s)

/-- The data bus: turns, time in use, and the idle time before (09 R290). -/
def busStat (c : Fin 16) (wr : Bool) (s : State) : State :=
  let s := stopIdle c s
  let s := onlyIf ((s.chan c).lastWr != wr) (fbump (CH c) CH_TURN_COUNT) s
  updChan c (fun y => { y with lastWr := wr }) (fbumpN (CH c) CH_BUSY_COUNT 2 s)

/-- A slice writes a line of its row back as poisoned (13 R381). -/
def bistPoison (s : State) (c : Fin 16) (x : Cmd) : Bool :=
  match s.bist.dram[c] with
  | some y => isBist x && dramPsn s c x.line && (match y.ph with
    | .restore _ => true
    | _ => false)
  | none => false

/-- A write leaves the command line: its data is in the DRAM, and it is the service point of its request (02 R62); poison words are counted (10 R324). The writes of a slice change no line: the row's contents stand in the copy (13 R377, R379). -/
def issueWrite (c : Fin 16) (x : Cmd) (s : State) : State :=
  let w := writeLine s c x
  let s := onlyIf (if isBist x then bistPoison s c x else w.2) (notePoison c x.line x.byScrub) s
  let s := chargeCmd x 0x03 x.man (fbump (CH c) CH_WRCMD_COUNT (if isBist x then s else storeLine c x.line w.1 w.2 (besideRec c x s)))
  match x.src with
  | .req ring slot .write => servePointCh c ring slot s
  | .req ring slot .twin => twinPointCh c ring slot s
  | _ => s

/-- The head's column command leaves for the PHY and enters the retry buffer. -/
def issueCol (c : Fin 16) (x : Cmd) (b : Bank) (s : State) : State :=
  let s := advanceTo8 (colAt8 s c b x.wr) s
  let s := pushHist c (if x.wr then .wr else .rd) b.rank b.bg b.bank s.d8 s
  let s := onlyIf (!x.act) (fbump (CH c) CH_PAGEHIT_COUNT) (busStat c x.wr s)
  let s := useCa c (updChan c (fun y => { y with line := y.line.drop 1 }) s)
  let s := fillStat c (afterCol c b x.wr s)
  let s := if x.wr then
      updChan c (fun y => { y with flight := y.flight ++ [{ cmd := x, at8 := s.d8 }] }) (issueWrite c x s)
    else
      let x := { x with data := dramLine s c x.line, psn := dramPsn s c x.line }
      chargeCmd x 0x02 x.man (fbump (CH c) CH_RDCMD_COUNT (updChan c (fun y => { y with flight := y.flight ++ [{ cmd := x, at8 := s.d8, burst := true }] }) s))
  rfmBoundary c s

/-- The first command of the retry buffer that a replay is to issue again leaves (10 R311): a write with the data that it had, a read for new data. What a later write of the buffer has put into a read's line already does not count: the read stands before it (04 R134). -/
def reissueCol (c : Fin 16) (x : Cmd) (b : Bank) (s : State) : State :=
  let s := advanceTo8 (colAt8 s c b x.wr) s
  let s := pushHist c (if x.wr then .wr else .rd) b.rank b.bg b.bank s.d8 s
  let s := onlyIf (!x.act) (fbump (CH c) CH_PAGEHIT_COUNT) (busStat c x.wr s)
  let s := afterCol c b x.wr (useCa c s)
  let y := s.chan c
  let i := y.flight.findIdx Flight.due
  let hides := (y.flight.drop (i + 1)).any fun g => g.due && g.cmd.wr && g.cmd.line = x.line
  let x := if x.wr ∨ hides then x else { x with data := dramLine s c x.line, psn := dramPsn s c x.line }
  let s := updChan c (fun y => { y with flight := y.flight.modify i fun f => { f with due := false, at8 := s.d8, cmd := x } }) s
  if x.wr then chargeCmd x 0x03 x.man (fbump (CH c) CH_WRCMD_COUNT s) else chargeCmd x 0x02 x.man (fbump (CH c) CH_RDCMD_COUNT s)

/-- Column issue is free: no due or running pause, and room in the retry buffer (09 R281, 10 R310, 11 R341); the commands of a replay have theirs. -/
def colFree (s : State) (c : Fin 16) : Bool :=
  (s.chan c).replay.isSome || (!(s.phy c).stopped && decide (((s.chan c).flight.filter Flight.window).length < 64))

/-- ACT and PRE issue is free. -/
def rowFree (s : State) (c : Fin 16) : Bool := (s.phy c).active.isNone && (s.bist.phyRun[c]).isNone

/-- The earliest instant of the next command that an entry needs, where nothing else stops it. -/
def nextAt8 (s : State) (c : Fin 16) (x : Cmd) : Option Nat :=
  let b := bankOf s x.line
  match rowOpen s c b.no with
  | some r => if r.row = b.row then (if colFree s c then some (colAt8 s c b x.wr) else none) else some (preAt8 s c b)
  | none => if fget s (CH c) CH_RAA_MMT ≤ raaOf s c b.no then none else some (actAt8 s c b)

/-- A command for an entry behind the head may issue early: it leaves the head the command/address slot that it needs (09 R279). -/
def leavesHead (s : State) (c : Fin 16) (pos : Nat) (x : Cmd) : Bool :=
  match (if pos = 0 then none else (issuable s c).head?.bind (nextAt8 s c)), nextAt8 s c x with
  | some h, some t => decide (s.d8 + cdiv (t - s.d8) (coreTick8 s) * coreTick8 s + ck8 s c 2 ≤ h)
  | _, _ => true

/-- COMMAND_ISSUE: the next command that the entry at a position needs leaves; during a replay, a position among the commands that it issues again. An RFM waits for the replay's end (10 R312) unless a bank is closed to ACTs without it. -/
def issue (c : Fin 16) (pos : Nat) (s : State) : State :=
  match (issuable s c)[pos]? with
  | none => s
  | some x =>
    if !chanRuns s c ∨ !rowFree s c ∨ lookahead s c < pos ∨ !leavesHead s c pos x then s else
      let b := bankOf s x.line
      let needed := ((issuable s c).take pos).any fun y => (bankOf s y.line).no = b.no
      match rowOpen s c b.no with
      | some r =>
        if r.row = b.row then (if pos = 0 ∧ colFree s c then (if (s.chan c).replay.isSome then reissueCol c x b s else issueCol c x b s) else s)
        else if needed then s else issuePre c pos b s
      | none =>
        if needed then s
        else if fget s (CH c) CH_RAA_MMT ≤ raaOf s c b.no then (if pos = 0 then rfmBoundary c s else s)
        else issueAct c pos x b s

/-! ### Alert windows and bursts (10 R296, R304, R310) -/

/-- In-order mode ends when its write is durable, or with the replay that repeats it (06 R189). -/
def inordOver (c : Fin 16) (s : State) : State :=
  let y := s.chan c
  match y.inord with
  | none => s
  | some n =>
    if y.replay.isSome ∨ (y.line.any fun x => x.sn = n) ∨ (y.flight.any fun f => f.window && f.cmd.wr && f.cmd.sn = n) then s
    else endInord c s

/-- ALERT_WINDOW_CLOSE: the oldest open window closes clean. -/
def closeWindow (c : Fin 16) (s : State) : State :=
  match (s.chan c).flight.findIdx? fun f => f.window && !f.due with
  | none => s
  | some i =>
    match (s.chan c).flight[i]? with
    | none => s
    | some f =>
      if !chanRuns s c then s else
        let s := advanceTo8 (windowEnd8 s c f) s
        let s := updChan c (fun y => { y with
          flight := if f.cmd.wr then y.flight.eraseIdx i else y.flight.modify i fun f => { f with window := false } }) s
        let s := onlyIf ((s.chan c).replay.isSome && !(s.chan c).flight.any Flight.window) (fun s => rfmBoundary c (replayOver c s)) s
        inordOver c (if f.cmd.wr then writeDone c f.cmd s else s)

/-- A line belongs to the row that a channel's slice is copying (13 R377). -/
def copying (s : State) (c : Fin 16) (lam : Nat) : Bool :=
  match s.bist.dram[c] with
  | some y => y.ph == .copy && inSliceRow s y.idx lam
  | none => false

/-- A line has been copied in decoded form; the copy reads count as the row's scrub (13 R377, R378). A copy that a write has made stale is not kept. -/
def copyBack (c : Fin 16) (x : Cmd) (l : Option (Line × Bool)) (s : State) : State :=
  let s := coverPatrol c x.line s
  let s := match l with
    | some (l, _) => if dramLine s c x.line = x.data then setDram c x.line l s else s
    | none => s
  batchDone c s

/-- Decoded data goes where it is wanted. -/
def burstData (c : Fin 16) (x : Cmd) (l : Option (Line × Bool)) (s : State) : State :=
  match x.src with
  | .scrub => scrubBack c x l s
  | .spare => spareBack c x l s
  | .bist => copyBack c x l s
  | _ =>
    match l with
    | some (l, _) => readDone c x l false s
    | none => readDone c x 0 true s

/-- A command goes to the front of the command line: the next entry boundary is its own (10 R304). -/
def frontLine (c : Fin 16) (x : Cmd) (s : State) : State :=
  let s := exitPd c (Fin.ofNat 2 (bankOf s x.line).rank) s
  fillStat c (updChan c (fun z => { z with
    sn := z.sn + 1, line := { x with sn := z.sn + 1 } :: z.line, idleFrom8 := if z.line.isEmpty then max z.idleFrom8 s.d8 else z.idleFrom8 }) s)

/-- A line that a read has found poisoned beyond repair gets the poison word, unless a later write to it has been admitted (10 R304). -/
def poisonLine (c : Fin 16) (x : Cmd) (later : Bool) (s : State) : State :=
  ueLine c x.line x.byScrub (if later then s else frontLine c { src := .poison, line := x.line, wr := true, man := x.man, psn := true, slot := x.slot, byScrub := x.byScrub, defr := x.defr } s)

/-- What a decoded burst leads to: its data or its poison goes where it is wanted, or its line is read again first (10 R304). `behind` is set where a command to the line stands behind the read, `later` where a later write to it has been admitted. The rewrite of a line is no read of a request or of patrol scrub: it is not read again, and its own write poisons the line. -/
def burstDec (c : Fin 16) (x : Cmd) (d : Dec) (l : Line) (behind later : Bool) (again : List SymErr) (s : State) : State :=
  let own := x.src == .spare
  match d with
  | .clean | .corrected _ => burstData c x (some (l, d != .clean)) (onlyIf x.reread (rereadGood c x.line x.byScrub) s)
  | .poison => burstData c x none (onlyIf x.reread (poisonLine c x later) s)
  | .uncorrectable =>
    let s := onlyIf (!x.reread) (ueSeen c) s
    if (s.chan c).lost then redirect c (decide (twinFirst s ≤ x.line) && twinCopy s c) x s
    else if x.reread ∨ behind ∨ own then burstData c x none (poisonLine c x (later || own) s)
    else frontLine c { x with reread := true, act := false, held := false, sym := [], again := x.again ++ again } s

/-- BURST_DECODE: the oldest burst whose window has closed is decoded (10 R296). To the symbol errors of the command come those that the request of the read stated. The reads of a slice's patterns bypass the code (13 R379). Decoding takes 3 or 9 cycles. -/
def burst (c : Fin 16) (sym again : List SymErr) (s : State) : State :=
  match (s.chan c).flight.findIdx? fun f => f.burst && !f.window with
  | none => s
  | some i =>
    match (s.chan c).flight[i]? with
    | none => s
    | some f =>
      if !chanRuns s c then s else
        let x := f.cmd
        let (d, l) := decode s c x.line x.data x.psn ((if x.reread then x.again else x.sym) ++ sym)
        let slow := slowPath s c x.line d
        let s := advanceTo8 (f.at8 + ck8 s c (fget s (CH c) CH_TIM0_CL + 8) + chCk8 s c (if slow then 9 else 3)) s
        let s := updChan c (fun y => { y with flight := y.flight.eraseIdx i }) s
        let y := s.chan c
        let newer := (y.flight.drop i).map Flight.cmd
        let behind := (y.line ++ newer ++ y.intake.filter Cmd.held).any fun z => z.line = x.line
        let later := (y.line ++ newer).any fun z => z.wr && z.line = x.line
        if isBist x && !copying s c x.line then readDone c x 0 false s
        else
          let count := countDec c x d
          let s := if isBist x then uncharged count s else count s
          if (s.chan c).lost then redirect c (decide (twinFirst s ≤ x.line) && twinCopy s c) x s
          else burstDec c x d l behind later again s

/-! ### Background slots (06 R166, 09 R287, R288, 12 R355, R356) -/

/-- A background request of a class pays for its line; none where it cannot be granted (09 R287, R288). -/
def bgPay (s : State) (c : Fin 16) (k : BgCls) : Option State :=
  match k with
  | .mig => (payBucket s c (s.chan c).bkMig 1).map fun b => updChan c (fun y => { y with bkMig := b }) s
  | .bst => (payBucket s c (s.chan c).bkBst 1).map fun b => updChan c (fun y => { y with bkBst := b }) s
  | .free => some s

/-- What a grant starts in the Waystation: a fill read is on its way; a write-back reads its line, and makes it stale in a frame that is being filled with its segment (07 R203). -/
def bgStart (x : Cmd) (s : State) : State :=
  match x.src with
  | .fill pin f i => updFrame pin f (fun y => { y with reading := setBit16 y.reading i true }) s
  | .queWb _ k => if k < 32 then chargeFor x 0x00 x.man s else s
  | .wback pin f i => markStale ((s.frame pin f).seg * 16 + i) (chargeFor x 0x00 x.man s)
  | .wbackTwin pin f i => markStale ((s.frame pin f).seg * 16 + i) s
  | _ => s

/-- What SEC-DED found in the Waystation line that a write-back reads, or the write that restores a displaced row (13 R378, R381): a dirty line that cannot be corrected is written back as poisoned, and its frame is retired (07 R210, 08 R257). -/
def wbRead (c : Fin 16) (x : Cmd) (ecc : LineEcc) (s : State) : State :=
  let mark := fun (s : State) => match x.src with
    | .wback pin f i => updFrame pin f (fun y => { y with psn := setBit16 y.psn i true, thenRetire := true }) s
    | .queWb b k => (match qFrameOf s b with
      | some f => setQfr f { s.qfr f with psn := setBit32 (s.qfr f).psn k, thenRetire := true } s
      | none => s)
    | _ => s
  let reads := match x.src with
    | .wback _ _ _ => true
    | .queWb _ k => decide (k < 32)
    | _ => false
  if isBist x then onlyIf x.wr (copyEcc c x.line ecc) s
  else if !reads then s else match ecc with
  | .clean => s
  | .corrected => fbump WAY WAY_CE_COUNT s
  | .uncorrectable => mark (fbump WAY WAY_UE_COUNT s)

/-- BACKGROUND_GRANT: one of the arbiter's grants of the cycle (06 R166). `ecc` is what SEC-DED finds in the Waystation line that a write-back reads. -/
def bgGrant (c : Fin 16) (idx : Nat) (ecc : LineEcc) (s : State) : State :=
  match (s.chan c).bg[idx]? with
  | none => s
  | some r =>
    if !bgRoom s c r.cmd.slot ∨ !bgOffered s c r.cmd then s else
      match bgPay s c r.cls with
      | none => s
      | some s =>
        let x := { r.cmd with defr := (bgItem s r.cmd).isSome }
        let s := match bgItem s r.cmd with
          | some k => spendAllow k s
          | none => s
        let s := match x.man with
          | some m => chargeLine m.toNat c 1 s
          | none => s
        let rest := isBist x && x.wr && !(match s.bist.dram[c] with
          | some y => (y.ph matches .restore _)
          | none => false)
        takeBg c 1 x (wbRead c x (if rest then .clean else ecc) (bgStart x (updChan c (fun y => { y with bg := y.bg.eraseIdx idx }) s)))

/-! ### Timing profiles (09 R283 to R285) -/

/-- CL, CWL, and tRCD with tRP, by RATE (09 R284). -/
def profCl (k : Nat) : Nat := match k with | 0 => 40 | 1 => 46 | 2 => 52 | 3 => 58 | 4 => 60 | _ => 64
def profCwl (k : Nat) : Nat := match k with | 0 => 38 | 1 => 44 | 2 => 50 | 3 => 56 | 4 => 58 | _ => 62
def profTrcd (k : Nat) : Nat := match k with | 0 => 40 | 1 => 46 | 2 => 52 | 3 => 58 | 4 => 64 | _ => 70

/-- RATE, with 6 and 7 read as 0 (09 R289). -/
def rateCode (s : State) (c : Fin 16) : Nat := let r := fget s (CH c) CH_CTL_RATE; if 6 ≤ r then 0 else r

/-- A parameter of the built-in profile: the larger of its nCK minimum and ⌈t × r ÷ 2,000⌉, with t in tenths of a ns. -/
def prof (k nck t10 : Nat) : Nat := max nck (cdiv (t10 * mtsOf k) 20000)

/-- The built-in profile of a rate goes into CHn_TIM0 to CHn_TIM6. -/
def loadProfile (c : Fin 16) (k : Nat) (s : State) : State :=
  let p := prof k
  let ras := p 0 320
  let put := fun (l : List (Fld × Nat)) (s : State) => forAll l (fun x s => fset (CH c) x.1 x.2 s) s
  put [(CH_TIM0_CL, profCl k), (CH_TIM0_CWL, profCwl k), (CH_TIM0_TRCD, profTrcd k), (CH_TIM0_TRP, profTrcd k),
    (CH_TIM1_TRRD_S, 8), (CH_TIM1_TRRD_L, p 8 50), (CH_TIM1_TFAW, p 32 100), (CH_TIM1_TCCD_S, 8),
    (CH_TIM2_TCCD_L, p 8 50), (CH_TIM2_TCCD_L_WR, p 32 200), (CH_TIM2_TWTR_S, p 4 25), (CH_TIM2_TWTR_L, p 16 100)]
    (put [(CH_TIM3_TRTP, p 12 75), (CH_TIM3_TXP, p 8 75), (CH_TIM3_TPD, p 8 75), (CH_TIM3_TWR, p 0 300),
      (CH_TIM4_TRAS, ras), (CH_TIM4_TRC, ras + profTrcd k), (CH_TIM5_TRFC1, p 0 4100), (CH_TIM5_TRFCSB, p 0 1900),
      (CH_TIM6_TREFI, p 0 39000), (CH_TIM6_TXS, p 0 4100 + cdiv (100 * mtsOf k) 20000)] s)

/-- Timing registers may be written: not IN_SERVICE and not SELF_REFRESH. -/
def timOpen (s : State) (c : Fin 16) : Bool := chState s c != 3 && chState s c != 4

/-- CHn_CMD.PROFILE (09 R285). -/
def profileCmd (c : Fin 16) (s : State) : State :=
  if timOpen s c then loadProfile c (rateCode s c) s else fset (CH c) CH_STATUS_TIM_REJ 1 s

/-! ### Commands -/

/-- COMMAND_ADMISSION (09 R277). -/
def execCommandAdmission (ch : ChPick) (s : State) : Host.Outcome State Fault Refusal := .next (settle (admission ch.ch ch.ecc (actAll ch.errs s)))

/-- COMMAND_ISSUE (09 R279). -/
def execCommandIssue (ch : Fin 16) (pos : Pick) (s : State) : Host.Outcome State Fault Refusal :=
  .next (issue ch pos.no (if pos.errs.isEmpty then s else settle (actAll pos.errs s)))

/-- BURST_DECODE (10 R296). -/
def execBurstDecode (ch : Fin 16) (sym again : List SymErr) (errs : List JournalErr) (s : State) : Host.Outcome State Fault Refusal :=
  .next (settle (burst ch sym again (actAll errs s)))

/-- ALERT_WINDOW_CLOSE (10 R310). -/
def execAlertWindowClose (ch : Fin 16) (errs : List JournalErr) (s : State) : Host.Outcome State Fault Refusal :=
  .next (settle (closeWindow ch (actAll errs s)))

/-- BACKGROUND_GRANT (09 R288). -/
def execBackgroundGrant (ch : Fin 16) (req : BgPick) (s : State) : Host.Outcome State Fault Refusal := .next (bgGrant ch req.no req.ecc s)

/-- LOAD_TIMING_PROFILE (09 R283, R285). -/
def execLoadTimingProfile (ch : Fin 16) (s : State) : Host.Outcome State Fault Refusal :=
  .next (busWr (CH ch) (profileCmd ch) s)

end Sys2Proof.Machine
end

