-- ==== Sys2Proof/Machine/Way.lean ====
section
/-! DEFINITION. What the Waystation does: accesses completing, promotion and demotion ending, epochs, errors, the layout and the pin table (07 R196 to R211, R229 to R231). -/

namespace Sys2Proof.Machine

/-! ### Frames coming free -/

/-- A tier frame is withdrawn (07 R210). -/
def retireTier (f : Nat) (s : State) : State :=
  let s := setFrame false f { st := .retired } s
  emit "way_retire" [("frame", .n f)] (fbump WAY WAY_RETIRED_COUNT (fset WAY WAY_TIER_FRAMES (fget s WAY WAY_TIER_FRAMES - 1) s))

/-- A pinned frame is withdrawn (07 R210); its number follows those of the tier carve-out (log 23). -/
def retirePin (f : Nat) (s : State) : State :=
  emit "way_retire" [("frame", .n (tierFrames s + f))] (fbump WAY WAY_RETIRED_COUNT (setFrame true f { st := .retired } s))

/-- A pin entry's PSTATE follows its frames (07 R231). -/
def pinStat (k : Fin 16) (s : State) : State :=
  let p := s.way.pins[k]
  let mine := (s.way.pinned.filter fun f => f.2.pin = some k && f.2.st != .free).map (·.2)
  let waits := s.way.pinQueue.any fun x => x.1 = k
  let st : Nat := if p.en then (if !waits && mine.all fun f => f.st == .pinned then 2 else 1) else if mine.isEmpty then 0 else 3
  { s with way := { s.way with pins := s.way.pins.set k { p with pstate := BitVec.ofNat 2 st } } }

/-- A segment that waited for its tier frame to empty goes on into a pinned frame (07 R206). -/
def pinNext (seg : Nat) (s : State) : State :=
  match s.way.pinQueue.find? fun x => x.2 = seg with
  | none => s
  | some (k, _) =>
    let s := { s with way := { s.way with pinQueue := s.way.pinQueue.filter fun x => x.2 ≠ seg } }
    match lowestFree (pinFrames s) s.way.pinned with
    | some f => startFill true f seg none (some k) s
    | none => s

/-- Fill reads of a frame that is given up serve nothing. -/
def killFills (pinned : Bool) (f : Nat) (s : State) : State :=
  let off := fun (x : Cmd) => match x.src with
    | .fill p g _ => if p = pinned ∧ g = f then { x with src := .gone } else x
    | _ => x
  { s with chans := s.chans.map fun y => { y with
      intake := y.intake.map off, line := y.line.map off, flight := y.flight.map fun g => { g with cmd := off g.cmd },
      bg := y.bg.filter fun b => (off b.cmd).src == b.cmd.src } }

/-- Writes that a frame held off until it was FREE go on at the channel of their line, as writes that miss. DEDUCED (log 113): 07 R204 has them wait until F is FREE and does not say where they contest from then on. -/
def moveHeld (seg : Nat) (s : State) : State :=
  let mine := fun (x : Contestant) => x.hit && x.req.hdr.arg.toNat / 16 = seg && isWrite x.req.opc && (probeLine s x.req.hdr.arg.toNat).isNone
  let a := s.arb 16
  let s' := updArb 16 (fun a => { a with contest := a.contest.filter fun x => !mine x, resvWait := a.resvWait.filter fun x => !mine x }) s
  let dest := fun (x : Contestant) => match placeOf s x.req.hdr.arg.toNat with
    | some p => chArb (servedAt s p)
    | none => chArb x.home
  forAll (a.resvWait.filter mine) (fun x => updArb (dest x) fun y => { y with resvWait := y.resvWait ++ [{ x with hit := false }] })
    (forAll (a.contest.filter mine) (fun x => updArb (dest x) fun y => { y with contest := y.contest ++ [{ x with hit := false }] }) s')

/-- An emptied or abandoned frame goes to its next use (07 R199, R203, R204). -/
def freeFrame (pinned : Bool) (f : Nat) (s : State) : State :=
  let x := s.frame pinned f
  let s := setFrame pinned f {} (if x.st = .filling then killFills pinned f s else s)
  let s := if pinned then onlyIf x.thenRetire (retirePin f) s
    else if x.thenRetire then retireTier f s
    else if x.thenTest then setFrame false f { st := .test } s
    else match x.thenFill with
      | some (seg, m) =>
        if (findSeg s (fun t => t != .free && t != .retired && t != .test) seg).isNone ∧ (s.man m.toNat).st = .opened
          ∧ framesOwned s m < frameLimit s m.toNat then startFill false f seg (some m) none s else s
      | none => s
  let s := moveHeld x.seg (pinNext x.seg s)
  match x.pin with
  | some k => pinStat k s
  | none => s

/-- PROMOTION_COMPLETE (07 R203 step 4). A frame that refills the segment of another one waits until that one, which still hits, is empty (07 R210). -/
def promotionComplete (pinned : Bool) (f : Nat) (s : State) : State :=
  let x := s.frame pinned f
  if x.st ≠ .filling ∨ x.filled ≠ 0xFFFF ∨ x.stale ≠ 0 ∨ segBusy s x.seg false ∨ (findSeg s FrSt.hits x.seg).isSome then s else
    let s := fbump WAY WAY_PROMO_COUNT (setFrame pinned f { x with st := if pinned then .pinned else .resident, age := 3, reading := 0 } s)
    match x.pin with
    | some k => pinStat k s
    | none => s

/-- A frame's demotion is restarted by a write (07 R204). -/
def restartDemote (pinned : Bool) (f i : Nat) (s : State) : State :=
  let x := s.frame pinned f
  if x.st ≠ .leaving then s
  else if fget s WAY WAY_MIG_MIG_RETRY ≤ x.restarts ∧ !x.forced then
    setFrame pinned f { x with st := if pinned then .pinned else .resident, retry := true } s
  else pushWb pinned f i (setFrame pinned f { x with restarts := x.restarts + 1 } s)

/-- EPOCH_US, with 0 read as 1, in ns. -/
def epochNs (s : State) : Nat := max 1 (fget s WAY WAY_MIG_EPOCH_US) * 1000

/-- MIGRATION_EPOCH (07 R201 to R204). -/
def migrationEpoch (s : State) : State :=
  if !dtimeRuns s then s else
    let s := advanceToNs s.way.epochEnd s
    let s := { s with way := { s.way with
      epoch := s.way.epoch + 1, epochEnd := s.way.epochEnd + epochNs s,
      hot := (s.way.hot.map fun x => (x.1, x.2 / 2)).filter fun x => x.2 ≠ 0,
      tier := s.way.tier.map fun f => (f.1, if f.2.st = .free then f.2 else { f.2 with age := f.2.age - 1 }),
      pinned := s.way.pinned.map fun f => (f.1, if f.2.st = .free then f.2 else { f.2 with age := f.2.age - 1 }) } }
    let old := s.way.tier.filter fun f => f.2.st = .filling && decide (f.2.since + 16 ≤ s.way.epoch)
    let s := forAll old (fun f s => freeFrame false f.1 (updFrame false f.1 (fun x => { x with thenFill := none }) s)) s
    let again := fun (pin : Bool) (l : List (Nat × Frame)) (s : State) => forAll (l.filter fun f => f.2.retry) (fun f s => startDemote pin f.1 false s) s
    again true s.way.pinned (again false s.way.tier s)

/-! ### The layout (07 R197, R198, 08 R240) -/

/-- The layout is committed, and its derived limits are set. -/
def layoutCommit (s : State) : State :=
  if fbit s WAY WAY_STATUS_COMMITTED then s else
    let n := tierFrames s
    let w := carveW s * 1024
    let s := fset WAY WAY_CTL_COMMIT 1 (fset WAY WAY_STATUS_COMMITTED 1 s)
    let s := fset WAY WAY_TIER_FRAMES n (fset WAY WAY_TIERRSV_RSV (n / 32) s)
    let s := fset WAY WAY_WALKSEG_TOTAL w (fset WAY WAY_WALKSEG_FREE (w - 320) s)
    let s := fset MAN MAN_WAYMAX_SEG ((n - n / 32) + (w - 320)) s
    cycBegin (queStat (fset QUE QUE_FRM_FRAMES (qFrameTotal s) s))

/-- A write of WAY_CARVE is in range and leaves the tier cache its 32 MiB. -/
def carveOk (v : Word) : Bool :=
  let q := WAY_CARVE_QCACHE.get v
  let w := WAY_CARVE_WALK.get v
  let p := WAY_CARVE_PIN.get v
  decide (8 ≤ q ∧ q ≤ 64 ∧ 1 ≤ w ∧ w ≤ 32 ∧ p ≤ 64 ∧ q + w + p ≤ 92)

/-- A WAY_CARVE write (07 R197). -/
def carveWrite (v : Word) (s : State) : State :=
  if fbit s WAY WAY_STATUS_COMMITTED ∨ !carveOk v then fset WAY WAY_STATUS_CARVE_REJ 1 s
  else fset WAY WAY_CARVE_QCACHE (WAY_CARVE_QCACHE.get v) (fset WAY WAY_CARVE_WALK (WAY_CARVE_WALK.get v) (fset WAY WAY_CARVE_PIN (WAY_CARVE_PIN.get v) s))

/-! ### The pin table (07 R206) -/

/-- The first segment of a pin entry. -/
def pinSeg0 (p : PinEntry) : Nat := p.addrLo.toNat / 2048 + p.addrHi.toNat * 2 ^ 21

/-- FREE pinned frames. -/
def freePins (s : State) : Nat := pinFrames s - (s.way.pinned.filter fun f => f.2.st != .free).length - s.way.pinQueue.length

/-- Why an enable is discarded. -/
def pinBad (s : State) (k : Fin 16) : Option String :=
  let p := s.way.pins[k]
  if freePins s < p.segs.toNat then some "space"
  else if (List.finRange 16).any fun j => j ≠ k && s.way.pins[j].en
      && decide (pinSeg0 p < pinSeg0 s.way.pins[j] + s.way.pins[j].segs.toNat ∧ pinSeg0 s.way.pins[j] < pinSeg0 p + p.segs.toNat) then some "overlap"
  else none

/-- A segment of a pin entry goes into a pinned frame, once its tier frame, if it has one, is empty. -/
def pinSeg (k : Fin 16) (seg : Nat) (s : State) : State :=
  let s := match findSeg s (fun t => t == .filling) seg with
    | some (pin, f) => if pin then s else freeFrame false f (updFrame false f (fun x => { x with thenFill := none }) s)
    | none => s
  match findSeg s FrSt.hits seg with
  | some (pin, f) => startDemote pin f false { s with way := { s.way with pinQueue := s.way.pinQueue ++ [(k, seg)] } }
  | none =>
    match lowestFree (pinFrames s) s.way.pinned with
    | some f => startFill true f seg none (some k) s
    | none => s

/-- Enabled pin entries whose segments have no frame, because an entry to DOZE or BANKED gave their fills up, are filled again. -/
def pinRefill (s : State) : State :=
  forAll (List.finRange 16) (fun k s =>
    let p := s.way.pins[k]
    if !p.en then s else
      pinStat k (forAll (List.range p.segs.toNat) (fun j s =>
        if (s.way.pinned.any fun f => f.2.st != .free && f.2.seg = pinSeg0 p + j) || (s.way.pinQueue.any fun q => q.2 = pinSeg0 p + j) then s
        else pinSeg k (pinSeg0 p + j) s) s)) s

/-- Setting a pin entry's EN; before a hold-up declaration is in force it is discarded (12 R361). -/
def pinEnable (k : Fin 16) (s : State) : State :=
  let p := s.way.pins[k]
  if p.en then s
  else if s.led.hold.isNone ∨ (pinBad s k).isSome then fset WAY WAY_STATUS_PIN_REJ 1 s
  else
    let s := { s with way := { s.way with pins := s.way.pins.set k { p with en := true, pstate := 1 } } }
    pinStat k (forAll (List.range p.segs.toNat) (fun j s => pinSeg k (pinSeg0 p + j) s) s)

/-- Clearing a pin entry's EN. -/
def pinDisable (k : Fin 16) (s : State) : State :=
  let p := s.way.pins[k]
  if !p.en then s else
    let s := { s with way := { s.way with pins := s.way.pins.set k { p with en := false }, pinQueue := s.way.pinQueue.filter fun x => x.1 ≠ k } }
    pinStat k (forAll (s.way.pinned.filter fun f => f.2.pin = some k) (fun f s =>
      if f.2.st = .filling then freeFrame true f.1 s else startDemote true f.1 false s) s)

/-- An enabled pin entry whose frame has been withdrawn: its segment is filled into another pinned frame if one is free, else the entry is disabled (07 R210). -/
def pinAgain (k : Fin 16) (seg : Nat) (s : State) : State :=
  if !s.way.pins[k].en then s else
    match lowestFree (pinFrames s) s.way.pinned with
    | some g => pinStat k (startFill true g seg none (some k) s)
    | none => pinDisable k s

/-- DEMOTION_COMPLETE (07 R204 step 3). -/
def demotionComplete (pinned : Bool) (f : Nat) (s : State) : State :=
  let x := s.frame pinned f
  if x.st ≠ .leaving ∨ x.dirty ≠ 0 ∨ !x.charge.isEmpty ∨ segBusy s x.seg true then s
  else
    let s := freeFrame pinned f (fbump WAY WAY_DEMOTE_COUNT s)
    match x.pin with
    | some k => onlyIf (pinned && x.thenRetire) (pinAgain k x.seg) s
    | none => s

/-! ### Errors of frames (07 R210) -/

/-- An uncorrectable error stands in a line of a frame that holds a segment. A pinned frame is refilled once: not when it is LEAVING already, or its entry is disabled. -/
def frameUe (pinned : Bool) (f i : Nat) (s : State) : State :=
  let x := s.frame pinned f
  let s := fbump WAY WAY_UE_COUNT s
  if bit16 x.dirty i then setFrame pinned f { x with psn := setBit16 x.psn i true, thenRetire := true } s
  else if pinned then
    if x.st ≠ .pinned then s else
    match x.pin, lowestFree (pinFrames s) s.way.pinned with
    | some k, some g => if !s.way.pins[k].en then s else startDemote true f true (startFill true g x.seg none (some k) s)
    | some k, none => pinDisable k s
    | none, _ => s
  else startDemote false f true (setFrame false f { x with thenRetire := true } s)

/-- The k-th access of the Waystation changes. -/
def updWayOp (k : Nat) (f : WayOp → WayOp) (s : State) : State := { s with wayOps := s.wayOps.modify k f }

/-- The DRAM copy of a clean line that is uncorrectable in its frame is read through a migration slot of the line's home channel (07 R210); the access keeps its slot until its service point (06 R191). -/
def askDram (k : Nat) (o : WayOp) (p : Place) (s : State) : State :=
  if chanUp s (servedAt s p) then
    pushBg (servedAt s p) .free { src := .wayUe o.pinned o.frame o.line, line := p.lam, wr := false, man := some o.man, slot := .background, port := o.port }
      (updWayOp k (fun x => { x with asked := true }) s)
  else updWayOp k (fun x => { x with asked := true, back := some (0, true) }) s

/-- What the k-th access reads from a line of a frame: the line and its poison; none while the DRAM copy of a line with an uncorrectable error is still to come (07 R210). -/
def frameRead (k : Nat) (o : WayOp) (ecc : LineEcc) (s : State) : Option (Line × Bool) × State :=
  let x := s.frame o.pinned o.frame
  let here := (wayLine s (frameLine s o.pinned o.frame o.line), bit16 x.psn o.line)
  if o.asked then (o.back, s) else
    let s := charge 0x00 1 (some o.man) s
    match ecc with
    | .clean => (some here, s)
    | .corrected => (some here, fbump WAY WAY_CE_COUNT s)
    | .uncorrectable =>
      let s' := frameUe o.pinned o.frame o.line s
      if bit16 x.dirty o.line then (some (0, true), s')
      else
        match placeOf s (x.seg * 16 + o.line) with
        | some p => (none, askDram k o p s')
        | none => (some (0, true), s')

/-! ### Accesses (02 R61, R62, 07 R207, R208) -/

/-- A line of a frame has been written by a request: it is dirty, and is written back where it must be. -/
def frameWrite (o : WayOp) (l : Line) (s : State) : State :=
  let x := s.frame o.pinned o.frame
  let s := setWayLine (frameLine s o.pinned o.frame o.line) l (setFrame o.pinned o.frame { x with
    dirty := setBit16 x.dirty o.line true, psn := setBit16 x.psn o.line false } (charge 0x01 1 (some o.man) s))
  let s := restartDemote o.pinned o.frame o.line s
  let s := onlyIf (o.thru || wbOwed s (s.frame o.pinned o.frame) o.line) (pushWb o.pinned o.frame o.line) s
  let s := onlyIf (x.thenRetire && bit16 x.psn o.line) (startDemote o.pinned o.frame true) s
  wbHigh o.man (wayStat s)

/-- The place that a granted write holds in an account is given back where the write does not happen. -/
def dropCharge (o : WayOp) (s : State) : State :=
  let x := s.frame o.pinned o.frame
  if bit16 x.dirty o.line ∨ writeGranted s o.pinned o.frame o.line then s
  else wayStat (setFrame o.pinned o.frame { x with charge := x.charge.filter fun q => q.1 ≠ o.line } s)

/-- A request's write in the Waystation completes with what it has read of its line: WRP and ADD merge it, and a poisoned line ends them (02 R62). -/
def wayWrite (o : WayOp) (ring : Fin 16) (slot : Nat) (r : Line × Bool) (s : State) : State :=
  match getEntry s ring slot with
  | none => dropCharge o s
  | some e =>
    if e.st = .lost then dropCharge o s
    else
      let finish := fun (s : State) =>
        homeDurable ring slot (updEntry ring slot (fun e => { e with twinLeft := false }) (servePoint ring slot s))
      if e.opc = .wr then finish (frameWrite o (slotsLine e.staged) s)
      else if r.2 then dropCharge o (mergePoison ring slot ring s)
      else
        let s := toRslt ring slot r.1 s
        match getEntry s ring slot with
        | some e => finish (frameWrite o (slotsLine e.staged) s)
        | none => s

/-- A request's or a line read's read in the Waystation completes with its line. -/
def wayRead (o : WayOp) (r : Line × Bool) (s : State) : State :=
  match o.src with
  | .req ring slot .read => readValid ring slot r.1 r.2 s
  | .walk image a b key => walkBack image a b key r.1 r.2 s
  | _ => s

/-- The access reads its line: a WR does not, nor does an access whose entry is gone. -/
def opReads (s : State) (o : WayOp) : Bool :=
  if o.wr then
    match o.src with
    | .req ring slot _ => (match getEntry s ring slot with
      | some e => e.opc != .wr && e.st != .lost
      | none => false)
    | _ => false
  else true

/-- The access ends, having read `r`. -/
def opEnd (idx : Nat) (o : WayOp) (r : Line × Bool) (s : State) : State :=
  let s := { s with wayOps := s.wayOps.eraseIdx idx }
  if o.wr then
    match o.src with
    | .req ring slot _ => wayWrite o ring slot r s
    | _ => dropCharge o s
  else wayRead o r s

/-- WAYSTATION_ACCESS_COMPLETE: accesses to one line complete in the order of their grants (04 R134). One whose line must be read from DRAM keeps its place until that read has returned (07 R210). -/
def accessComplete (idx : Nat) (ecc : LineEcc) (s : State) : State :=
  match s.wayOps[idx]? with
  | none => s
  | some o =>
    if (s.wayOps.take idx).any fun p => p.pinned = o.pinned && p.frame = o.frame && p.line = o.line then s
    else if opReads s o then
      match frameRead idx o ecc s with
      | (none, s) => s
      | (some r, s) => opEnd idx o r s
    else opEnd idx o (0, false) s

/-! ### Commands -/

/-- WAYSTATION_ACCESS_COMPLETE (02 R61). -/
def execWaystationAccessComplete (idx : Nat) (ecc : LineEcc) (errs : List JournalErr) (s : State) : Host.Outcome State Fault Refusal :=
  .next (if s.pwr.mode == .run then settle (accessComplete idx ecc (actAll errs s)) else s)

/-- PROMOTION_COMPLETE (07 R203). -/
def execPromotionComplete (pinned : Bool) (frame : Nat) (s : State) : Host.Outcome State Fault Refusal := .next (if coreRuns s then promotionComplete pinned frame s else s)

/-- DEMOTION_COMPLETE (07 R204). -/
def execDemotionComplete (pinned : Bool) (frame : Nat) (s : State) : Host.Outcome State Fault Refusal := .next (if coreRuns s then demotionComplete pinned frame s else s)

/-- MIGRATION_EPOCH (07 R201). -/
def execMigrationEpoch (s : State) : Host.Outcome State Fault Refusal := .next (migrationEpoch s)

/-- LAYOUT_COMMIT (07 R197). -/
def execLayoutCommit (s : State) : Host.Outcome State Fault Refusal := .next (busWr WAY (fun s => layoutCommit (afterClear s)) s)

/-- WAY_CARVE_WRITE (07 R197). -/
def execWayCarveWrite (v : Word) (s : State) : Host.Outcome State Fault Refusal := .next (busWr WAY (carveWrite v) s)

/-- PIN_ENABLE (07 R206). -/
def execPinEnable (k : Fin 16) (s : State) : Host.Outcome State Fault Refusal := .next (busWr WAY (pinEnable k) s)

/-- PIN_DISABLE (07 R206). -/
def execPinDisable (k : Fin 16) (s : State) : Host.Outcome State Fault Refusal := .next (busWr WAY (pinDisable k) s)

end Sys2Proof.Machine
end

