-- ==== Sys2Proof/Machine/Walk.lean ====
section
/-! DEFINITION. What the walk engine does: stage images and stages ending, holds and retries, and the `walk` verb with its descriptors (07 R212 to R228, R233). -/

namespace Sys2Proof.Machine

/-! ### Checks of a verb's numbers (15 R450) -/

/-- The first argument outside its range, as the error that answers it. -/
def rangeErr : List (String × Nat × Nat × Nat) → Option OutLn
  | [] => none
  | (n, lo, hi, v) :: r => if v < lo ∨ hi < v then some (erLn 106 "out of range" [("arg", .s n), ("min", .n lo), ("max", .n hi)]) else rangeErr r

/-! ### Reads that serve nothing any more -/

/-- Commands of walk reads that a condition picks serve nothing from now on. -/
def dropWalkCmds (p : CmdSrc → Bool) (s : State) : State :=
  let off := fun (x : Cmd) => if p x.src then { x with src := CmdSrc.gone } else x
  { s with
    chans := s.chans.map fun y => { y with
      intake := y.intake.map off, line := y.line.map off, flight := y.flight.map fun f => { f with cmd := off f.cmd } },
    wayOps := s.wayOps.map fun o => if p o.src then { o with src := CmdSrc.gone } else o }

/-! ### Images (07 R221 to R223) -/

/-- The reads of an image load. -/
def imageReads (s : State) (h k : Nat) : List WalkRead := s.wreads.filter fun r => r.image && r.a = h && r.b = k

/-- STAGE_IMAGE_LOADED: every line of a slot's image is back, so the image is present, and the caravans that wait for it resolve from it. -/
def imageLoaded (h k : Nat) (s : State) : State :=
  let rt := s.walkRt h
  match rt.slots[k]? with
  | none => s
  | some x =>
    let l := imageReads s h k
    match x.stage with
    | none => s
    | some st =>
      if x.present ∨ x.loaded + l.length ≠ x.total ∨ (l.any fun r => r.back.isNone) then s else
        let s := { s with wreads := s.wreads.filter fun r => !(r.image && r.a = h && r.b = k) }
        let s := onlyIf (x.loaded == 0) (fbump WLK WLK_LOAD_COUNT) s
        let waits := s.caravans.any fun c => c.desc = h && c.stage = st && (match c.ph with
          | .waiting _ => true
          | _ => false)
        let s := onlyIf waits (useSlot h k) (setWalkRt h { rt with slots := rt.slots.set k { x with present := true, loaded := x.total } } s)
        startWanted h { s with caravans := s.caravans.map fun c =>
          if c.desc = h ∧ c.stage = st then
            (match c.ph with
              | .waiting _ => { c with ph := .image }
              | _ => c)
          else c }

/-! ### Errors in the walk window (07 R210) -/

/-- A read starts anew. -/
def againRead (r : WalkRead) : WalkRead := { r with losses := 0, retryAt := none, resv := false, busy := false, back := none }

/-- A line of a stage image has an uncorrectable error: it is loaded again, and a caravan that resolves from the image waits as at a stage that has not arrived. -/
def imageUe (h k i : Nat) (s : State) : State :=
  let rt := s.walkRt h
  match rt.slots[k]? with
  | none => s
  | some x =>
    match x.stage with
    | none => s
    | some st =>
      let mine := fun (r : WalkRead) => r.image && r.a = h && r.b = k && r.key = i
      if x.total ≤ i then s
      else if s.wreads.any mine then { s with wreads := s.wreads.map fun r => if mine r && r.back.isSome then againRead r else r }
      else
        let (port, o) := ((s.caravans.find? fun c => c.desc = h).map fun c => (c.port, c.o)).getD (0, s.ns)
        let s := setWalkRt h { rt with slots := rt.slots.set k { x with present := false, loaded := x.loaded - 1 } } s
        let s := addRead { image := true, a := h, b := k, key := i, line := (wdStage s h st).base / 128 + i, port := port, man := BitVec.ofNat 8 (wdMan s h), o := o } s
        forAll (s.caravans.filter fun c => c.desc = h && c.stage = st && c.ph == .image) (fun c => stageAbsent c.ring c.entry) s

/-- A line of a caravan's context has an uncorrectable error: for the keys that lie in it, 144 bytes each, the stage is resolved again. -/
def contextUe (c : Caravan) (i : Nat) (s : State) : State :=
  let mine := fun (r : WalkRead) => !r.image && r.a = c.ring.val && r.b = c.entry && decide (128 * i < 144 * (r.key + 1) ∧ 144 * r.key < 128 * (i + 1))
  let n := (s.wreads.filter fun r => mine r && r.back.isSome).length
  fbumpN WLK WLK_GATHER_COUNT n { s with wreads := s.wreads.map fun r => if mine r && r.back.isSome then againRead r else r }

/-- What a line of the walk windows is for: a descriptor, whether it is a line of an image, the slot or the context, and the line in it. The loaded descriptors lie in ascending order, each with its slots before its contexts of 5 segments. -/
def winLine (s : State) : List (Nat × WalkRt) → Nat → Option (Nat × Bool × Nat × Nat)
  | [], _ => none
  | (h, rt) :: rest, l =>
    let n := wdSlotSeg s h * 16
    let a := rt.slots.length * n
    if l < a then some (h, true, l / n, l % n)
    else if l < rt.reserved * 16 then some (h, false, (l - a) / 80, (l - a) % 80)
    else winLine s rest (l - rt.reserved * 16)

/-- An uncorrectable error in line l of the walk-window carve-out. DESIGN CHOICE (log 23): the device reserve of 64 contexts lies last. -/
def walkUe (l : Nat) (s : State) : State :=
  let s := fbump WAY WAY_UE_COUNT s
  let r0 := carveW s * carveUnit - 5120
  if r0 ≤ l then
    match (s.caravans.filter fun c => c.reserve)[(l - r0) / 80]? with
    | some c => contextUe c ((l - r0) % 80) s
    | none => s
  else
    match winLine s (s.walks.filter fun w => w.2.reserved ≠ 0) l with
    | some (h, true, k, i) => imageUe h k i s
    | some (h, false, k, i) =>
      (match (s.caravans.filter fun c => c.desc = h && !c.reserve && c.ph != .context)[k]? with
        | some c => contextUe c i s
        | none => s)
    | none => s

/-! ### Stages ending (07 R217 to R226) -/

/-- A granted write to a line has not been applied to it yet (07 R223). -/
def writePending (s : State) (l : Nat) : Bool :=
  allChans.any fun c => (s.ring c).entries.any fun e => isWrite e.opc && e.target.toNat / 128 = l && !accessDone e && !e.recorded

/-- The keys of a caravan whose stage is resolved from its image; none while a write granted to a line of theirs is still to be applied. -/
def imageKeys (s : State) (c : Caravan) : Option (List KeySt) :=
  let m := c.man.toNat
  let st := wdStage s c.desc c.stage
  let keys := keysRange s m c.desc c.stage c.keys
  if (keys.filter fun k => k.res.isNone).any fun k => writePending s ((keyAddr st k).1 / 128) then none
  else some (keysResolve s m c.desc c.stage keys)

/-- The keys of a caravan whose stage is resolved line by line; none while a line is still to come back. -/
def lineKeys (s : State) (c : Caravan) : Option (List KeySt) :=
  let last := decide (c.stage + 1 = wdStages s c.desc)
  let got := c.keys.zipIdx.map fun x =>
    if x.1.res.isSome then some x.1 else
      ((s.wreads.find? fun r => !r.image && r.a = c.ring.val && r.b = c.entry && r.key = x.2).bind fun r => r.back).map fun e => keyStep c.stage last e x.1
  if got.any Option.isNone then none else some (got.filterMap id)

/-- The results of a caravan are returned: this is its service point (02 R62, 07 R218, R225, R226). -/
def caravanEnd (c : Caravan) (keys : List KeySt) (s : State) : State :=
  match c.dup with
  | some x =>
    let s := voidRuns c.port x.stream x.seq (if x.tag.isSome then c.entry else 0) (endCaravan c s)
    (match x.tag with
      | some t => respond c.port (finalResp .walk t x.stream x.seq true none { x.fin with info := walkInfo keys c.waited c.bypassed } (walkSlots keys)) s
      | none => s)
  | none =>
  let s := servePoint c.ring c.entry (endCaravan c s)
  match getEntry s c.ring c.entry with
  | none => s
  | some e =>
    let s := updEntry c.ring c.entry (fun e => { e with durable := true }) s
    retire c.ring (releaseSlots c.ring c.entry false
      (outcome c.ring c.entry (doneFor e (walkInfo keys c.waited c.bypassed) false) (walkSlots keys) false s))

/-- CARAVAN_STAGE_END: every key has ended the stage, and the next stage begins or the results are returned. A key that its image resolves reads a line of it (12 R352). -/
def caravanStageEnd (ring : Fin 16) (entry : Nat) (s : State) : State :=
  match s.caravan ring entry with
  | none => s
  | some c =>
    let keys := match c.ph with
      | .image => imageKeys s c
      | .lines => lineKeys s c
      | _ => none
    match keys with
    | none => s
    | some keys =>
      let n := (c.keys.filter fun k => k.res.isNone).length
      let who := if c.dup.isSome then none else some c.man
      let s := charge 0x0B n who s
      let s := onlyIf (c.ph == .image) (charge 0x00 ((keysRange s c.man.toNat c.desc c.stage c.keys).filter fun k => k.res.isNone).length who) s
      let s := { s with wreads := s.wreads.filter fun r => r.image || !(r.a = ring.val && r.b = entry) }
      let s := updCaravan ring entry (fun c => { c with keys := keys, ph := .start }) s
      if c.stage + 1 < wdStages s c.desc then startWanted c.desc (beginStage ring entry (c.stage + 1) s)
      else caravanEnd c keys s

/-- WALK_HOLD_EXPIRY (07 R224). -/
def holdExpiry (ring : Fin 16) (entry : Nat) (s : State) : State :=
  match s.caravan ring entry with
  | none => s
  | some c =>
    match c.ph with
    | .waiting since => bypassStage ring entry (advanceToNs (since + wdHoldNs s c.desc) s)
    | _ => s

/-- WALK_READ_RETRY (06 R192, 07 R222): the back-off of a lost read has passed, and the read stands in contest again. -/
def readRetry (i : Nat) (s : State) : State :=
  match s.wreads[i]? with
  | none => s
  | some r =>
    match r.retryAt with
    | none => s
    | some t => updRead i (fun r => { r with retryAt := none }) (advanceToNs t s)

/-! ### Reservations (07 R200, R215) -/

/-- The frames of a manifest in the order in which they are given up (07 R202): lowest AGE, clean before dirty, lowest number. -/
def framesToGive (s : State) (m : BitVec 8) : List Nat :=
  let own := s.way.tier.filter fun f => f.2.owner = some m && (f.2.st == .resident || f.2.st == .filling)
  let pick := fun (a : Nat) (clean : Bool) => (own.filter fun f => min 3 f.2.age = a && (f.2.dirty == 0 && f.2.charge.isEmpty) == clean).map (·.1)
  (List.range 4).flatMap fun a => pick a true ++ pick a false

/-- The manifest's frames above its limit are demoted (05 R150, R159, 07 R200, R215): those that leave already, then those it gives first. `forced` demotions are never abandoned: those of a reduction, not those of a walk load (07 R204). -/
def trimFrames (forced : Bool) (m : BitVec 8) (s : State) : State :=
  let leaving := s.way.tier.filter fun f => f.2.owner = some m && f.2.st == .leaving
  let going := if forced then (leaving.filter fun f => f.2.forced).length else leaving.length
  let n := framesOwned s m - going - frameLimit s m.toNat
  let again := if forced then (leaving.filter fun f => !f.2.forced).map (·.1) else []
  forAll ((again ++ framesToGive s m).take n) (fun f s =>
    if (s.frame false f).st = .filling then freeFrame false f (updFrame false f (fun x => { x with thenFill := none }) s)
    else startDemote false f forced s) s

/-! ### The verb (07 R212 to R215, R233) -/

/-- VALID or unloading, as `er 422` reports it. -/
def descState (s : State) (h : Nat) : String :=
  if (s.walkRt h).unloading then "unloading" else if wdValid s h then "valid" else "unloaded"

def descErr (s : State) (h : Nat) : OutLn := erLn 422 "descriptor in use" [("h", .h h 3), ("state", .s (descState s h))]

/-- A word of a descriptor is written; of a VALID one the write is discarded. -/
def putDesc (h w : Nat) (v : Nat) (s : State) : State :=
  if wdValid s h then fset WLK WLK_STATUS_DESC_REJ 1 s else ixSet WLK (h * 32 + w) (BitVec.ofNat 32 v) s

/-- `walk define`: words 0 and 1, with no stage beyond stage 0 until `walk stage` gives one. -/
def walkDefine (h man home : Nat) (bypass : Bool) (hold slots slotseg nctx : Nat) (s : State) : State × OutLn :=
  match rangeErr [("h", 0, 4095, h), ("man", 0, 255, man), ("home", 0, 15, home), ("hold", 0, 16380, hold),
      ("slots", 1, 8, slots), ("slotseg", 1, 128, slotseg), ("nctx", 1, 64, nctx)] with
  | some e => (s, e)
  | none =>
    if hold % 4 ≠ 0 then (s, erLn 106 "out of range" [("arg", .s "hold"), ("min", .n 0), ("max", .n 16380)])
    else if wdValid s h then (fset WLK WLK_STATUS_DESC_REJ 1 s, descErr s h)
    else
      (putDesc h 0 ((if bypass then 16 else 0) + (slots - 1) * 32 + man * 256 + home * 65536 + hold / 4 * 2 ^ 20)
        (putDesc h 1 (slotseg + nctx * 256) s), okLn [])

/-- `walk stage`: the three words of a stage's record; NSTG rises to the stage where it is below it. -/
def walkStage (h st : Nat) (gather : Bool) (base segs shift width : Nat) (s : State) : State × OutLn :=
  match rangeErr [("h", 0, 4095, h), ("s", 0, 7, st), ("base", 0, 2 ^ 44 - 1, base), ("segs", if gather then 0 else 1, if gather then 255 else 128, segs),
      ("shift", 0, 127, shift), ("width", 0, 32, width)] with
  | some e => (s, e)
  | none =>
    if wdValid s h then (fset WLK WLK_STATUS_DESC_REJ 1 s, descErr s h)
    else
      let w0 := wdWord s h 0
      let n := max (w0 / 2 % 8) st
      (putDesc h 0 (w0 - w0 / 2 % 8 * 2 + n * 2)
        (putDesc h (4 + 3 * st) ((if gather then 1 else 0) + shift * 2 + width * 256)
          (putDesc h (5 + 3 * st) (base % 2 ^ 32) (putDesc h (6 + 3 * st) (base / 2 ^ 32 + segs * 4096) s))), okLn [])

/-- The first check of 07 R214 that fails. -/
def loadCheck (s : State) (h : Nat) : Option Nat :=
  let m := wdMan s h
  let l := (List.range (wdStages s h)).map (wdStage s h)
  let strm := l.filter fun x => !x.gather
  let twin := (s.man m).f.twin
  let seg := fun (x : Stage) => if x.gather then 8 else x.segs * 2048
  if (s.man m).st ≠ .opened then some 1
  else if !inMap s (wdHome s h) then some 2
  else if l.any fun x => decide (128 < x.shift + x.width) then some 3
  else if strm.any fun x => decide (x.segs = 0 ∨ wdSlotSeg s h < x.segs ∨ x.base % 2048 ≠ 0) then some 4
  else if l.any fun x => x.gather && decide (x.base % 8 ≠ 0) then some 5
  else if strm.any fun x => decide (topLines s * 128 < x.base + x.segs * 2048) then some 6
  else if twin then (if l.any fun x => !inTwin s x.base (seg x) then some 7 else none)
  else if strm.any fun x => decide (ordLines s * 128 < x.base + x.segs * 2048 ∧ x.base < topLines s * 128) then some 7
  else none

/-- R of 07 R215: the segments that a load reserves. -/
def loadNeed (s : State) (h : Nat) : Nat := wdSlots s h * wdSlotSeg s h + wdNctx s h * 5

/-- `walk load`. -/
def walkLoad (h : Nat) (s : State) : State × OutLn :=
  match rangeErr [("h", 0, 4095, h)] with
  | some e => (s, e)
  | none =>
    if wdValid s h then (s, descErr s h)
    else match loadCheck s h with
    | some k => (s, erLn 421 "descriptor check" [("h", .h h 3), ("check", .n k)])
    | none =>
      let m := wdMan s h
      let r := loadNeed s h
      let room := min (wayEff (s.man m) - walkResv s m) (fget s WAY WAY_WALKSEG_FREE)
      if room < r then (s, erLn 423 "window full" [("h", .h h 3), ("need", .n r), ("free", .n room)])
      else
        let gen := (wdWord s h 2 / 65536 + 1) % 65536
        let s := fset WAY WAY_WALKSEG_FREE (fget s WAY WAY_WALKSEG_FREE - r) (fbump WLK WLK_STATUS_LOADED s)
        let s := setWalkRt h { reserved := r, slots := List.replicate (wdSlots s h) {} } s
        let s := ixSet WLK (h * 32) (BitVec.ofNat 32 (wdWord s h 0 / 2 * 2 + 1)) (ixSet WLK (h * 32 + 2) (BitVec.ofNat 32 (gen * 65536)) s)
        (trimFrames false (BitVec.ofNat 8 m) s, okLn [("h", .h h 3), ("gen", .n gen), ("reserve", .n r)])

/-- A descriptor begins to unload. -/
def unloadStart (h : Nat) (s : State) : State :=
  if wdValid s h then setWalkRt h { s.walkRt h with unloading := true } s else s

/-- `walk unload`. -/
def walkUnload (h : Nat) (s : State) : State × OutLn :=
  match rangeErr [("h", 0, 4095, h)] with
  | some e => (s, e)
  | none =>
    if !wdValid s h ∨ (s.walkRt h).unloading then (s, descErr s h)
    else (unloadStart h s, okLn [("h", .h h 3), ("state", .s "unloading")])

/-- WALK_UNLOADED: the descriptor's USE is 0, so its reservation is freed and VALID is cleared. -/
def walkUnloaded (h : Nat) (s : State) : State :=
  let rt := s.walkRt h
  if !rt.unloading ∨ wdUse s h ≠ 0 then s else
    let s := dropWalkCmds (fun x => match x with
      | .walk image a _ _ => image && a = h
      | _ => false) { s with wreads := s.wreads.filter fun r => !(r.image && r.a = h) }
    let s := fset WAY WAY_WALKSEG_FREE (fget s WAY WAY_WALKSEG_FREE + rt.reserved) (fset WLK WLK_STATUS_LOADED (fget s WLK WLK_STATUS_LOADED - 1) s)
    let s := ixSet WLK (h * 32) (BitVec.ofNat 32 (wdWord s h 0 / 2 * 2)) (setWalkRt h {} s)
    emit "walk_unloaded" [("h", .h h 3)] s

/-- The descriptors that a manifest owns begin to unload (07 R215). -/
def unloadMan (m : Nat) (s : State) : State :=
  forAll ((s.walks.filter fun w => wdValid s w.1 && wdMan s w.1 = m).map (·.1)) unloadStart s

/-! ### Commands -/

/-- STAGE_IMAGE_LOADED (07 R221). -/
def execStageImageLoaded (desc slot : Nat) (s : State) : Host.Outcome State Fault Refusal := .next (if coreRuns s then imageLoaded desc slot s else s)

/-- CARAVAN_STAGE_END (07 R220). -/
def execCaravanStageEnd (ring : Fin 16) (entry : Pick) (s : State) : Host.Outcome State Fault Refusal :=
  .next (if coreRuns s then settle (caravanStageEnd ring entry.no (actAll entry.errs s)) else s)

/-- WALK_HOLD_EXPIRY (07 R224). -/
def execWalkHoldExpiry (ring : Fin 16) (entry : Nat) (s : State) : Host.Outcome State Fault Refusal := .next (if coreRuns s then holdExpiry ring entry s else s)

/-- WALK_READ_RETRY (07 R222). -/
def execWalkReadRetry (idx : Nat) (s : State) : Host.Outcome State Fault Refusal := .next (if coreRuns s then readRetry idx s else s)

/-- WALK_DEFINE (07 R212). -/
def execWalkDefine (desc man home : Nat) (bypass : Bool) (hold slots slotseg nctx : Nat) (s : State) : Host.Outcome State Fault Refusal :=
  .next (runVerb1 (walkDefine desc man home bypass hold slots slotseg nctx) s)

/-- WALK_STAGE (07 R213). -/
def execWalkStage (desc stage : Nat) (gather : Bool) (base segs shift width : Nat) (s : State) : Host.Outcome State Fault Refusal :=
  .next (runVerb1 (walkStage desc stage gather base segs shift width) s)

/-- WALK_LOAD (07 R214, R215). -/
def execWalkLoad (desc : Nat) (s : State) : Host.Outcome State Fault Refusal := .next (runVerb1 (fun s => walkLoad desc (afterClear s)) s)

/-- WALK_UNLOAD (07 R215). -/
def execWalkUnload (desc : Nat) (s : State) : Host.Outcome State Fault Refusal := .next (runVerb1 (walkUnload desc) s)

/-- WALK_UNLOADED (07 R215). -/
def execWalkUnloaded (desc : Nat) (s : State) : Host.Outcome State Fault Refusal := .next (if coreRuns s then walkUnloaded desc s else s)

end Sys2Proof.Machine
end

