-- ==== Sys2Proof/Machine/Queue.lean ====
section
/-! DEFINITION. What the queue engine does: ENQ and DEQ taking effect, direct reads, prefetch, pool initialisation, and the `queue` verb (08 R236, R243 to R259, R264). -/

namespace Sys2Proof.Machine

/-! ### Whose turn it is (08 R247, R250, R251) -/

/-- The entry is an accepted ENQ or DEQ of opcode `o` that has not taken effect, and every earlier ENQ and DEQ of its queue has. -/
def queTurn (s : State) (ring : Fin 16) (slot : Nat) (o : Opc) : Option JEntry :=
  match getEntry s ring slot with
  | none => none
  | some e =>
    let ahead := (s.ring ring).entries.take (entryIdx (s.ring ring) slot)
    if e.opc = o ∧ e.st = .pend ∧ !e.recorded
      ∧ !(ahead.any fun x => (x.opc == .enq || x.opc == .deq) && x.target = e.target && x.st == .pend && !x.recorded) then some e
    else none

/-- How a block's record can be read (08 R257, R259): `none` where it can, else the FREASON and cause of the fault. A record in a frame is in the Waystation. -/
def recFault (s : State) (b : Nat) : Option (Nat × String) :=
  if (s.brec b).bad then some (1, "record")
  else if recHeld s b then none
  else match placeOf s (recLineNo s b) with
  | none => some (1, "record")
  | some p => if !chanUp s p.ch then some (2, "channel") else if dramPsn s p.ch p.lam then some (1, "record") else none

/-- The blocks of queue q's chain from its head, as far as their records are readable and name the queue. -/
def chainBlocks (s : State) (q : Nat) : Nat → Nat → List Nat
  | 0, _ => []
  | fuel + 1, b =>
    if (recFault s b).isSome ∨ !(s.brec b).out ∨ (s.brec b).gone ∨ (s.brec b).queue ≠ q then [] else
      b :: (match (s.brec b).next with
        | some n => chainBlocks s q fuel n
        | none => [])

/-- A queue becomes FAULTED, and its accepted work ends with REFUSE_FAULT, REASON 6 (08 R258). DESIGN CHOICE (log 116): its requests that are in contest are refused as at intake step 4. -/
def queueFault (q reason : Nat) (cause : String) (s : State) : State :=
  let d := s.qd q
  if d.st = .faulted then s else
  let s := setQd q { d with st := .faulted, freason := reason } (fbump QUE QUE_FAULT_COUNT s)
  let s := emit "queue_fault" [("q", .h q 5), ("cause", .s cause)] s
  let mine := fun (x : Contestant) => (x.req.opc == .enq || x.req.opc == .deq) && reqQueue x.req.hdr = q
  let s := forAll (((s.arb 16).contest ++ (s.arb 16).resvWait).filter mine) (fun x s => refuseNew x.port x.req 5 6 6 (leaveContest x s)) s
  evict <| forAll allChans retire <| forAll allChans (fun c s =>
    forAll ((s.ring c).entries.zipIdx.filter fun x => (x.1.opc == .enq || x.1.opc == .deq) && x.1.target.toNat = q && !x.1.recorded) (fun x s =>
      let slot := ((s.ring c).head + x.2) % 4096
      releaseSlots c slot false (faultEntry c slot 6 0 false (dropPlan c slot s))) s) s

/-- An uncorrectable error met as queue work reads the record of its queue's k-th block, from the head, or the descriptor where the chain has no such block: the queue becomes FAULTED, and the record stays unreadable (08 R257). -/
def recError (q k : Nat) (s : State) : State :=
  let d := s.qd q
  let l := if d.st = .empty then [] else chainBlocks s q d.nblk d.headBlk
  queueFault q 1 "record" (match l[k]? with
    | some b => setBrec b { s.brec b with bad := true } s
    | none => s)

/-- A queue's descriptor is written (12 R352). -/
def writeQd (q : Nat) (d : QDesc) (m : BitVec 8) (s : State) : State := charge 0x0C 1 (some m) (setQd q d s)

/-! ### ENQ (08 R247) -/

/-- A block's frame stops being a tail frame where its block is full: it becomes FULL and is written back. -/
def fillFrame (q b : Nat) (s : State) : State :=
  let d := s.qd q
  match qFrameOf s b with
  | none => s
  | some f =>
    if (s.qfr f).role = .tail ∧ (b ≠ d.tailBlk ∨ d.tailFill = 32) then qWriteBack f (setQfr f { s.qfr f with role := .full } s) else s

/-- The entry's request has its effect: outcome, release and retirement; `quiet` holds during replay. -/
def queDone (ring : Fin 16) (slot : Nat) (info : BitVec 64) (poison : Bool) (data : List Slot) (quiet : Bool) (s : State) : State :=
  let s := servePoint ring slot (updEntry ring slot (fun e => { e with durable := true }) s)
  match getEntry s ring slot with
  | none => s
  | some e =>
    let f := doneFor e info poison
    retire ring (releaseSlots ring slot false (outcome ring slot { f with late := f.late || quiet } data quiet s))

/-- An ENQ takes effect: its entry holds the descriptor image and the depth in RSLT before the descriptor is written (01 R18, R21). -/
def enqEffect (ring : Fin 16) (slot : Nat) (quiet : Bool) (s : State) : State :=
  match getEntry s ring slot, s.que.plans.find? fun p => p.ring = ring && p.entry = slot with
  | some e, some p =>
    let old := s.qd p.queue
    let d := enqImage old p
    let s := match p.oldRec.bind (qFrameOf s) with
      | some f => setQfr f { s.qfr f with recOk := true } s
      | none => s
    let s := { s with que := { s.que with
      plans := s.que.plans.filter fun x => !(x.ring = ring && x.entry = slot), reads := s.que.reads.filter fun r => !(r.ring = ring && r.entry = slot) } }
    let s := setEntrySt ring slot .rslt (updEntry ring slot (fun e => { e with resp := BitVec.ofNat 64 d.depth, stageV := true, staged := qdImage s p.queue d }) s)
    let s := writeQd p.queue d e.man s
    let s := fbumpN QUE QUE_CELLS_IN_COUNT p.cells (fbump QUE QUE_ENQ_CNT_COUNT s)
    let s := forAll ((if old.st = .empty then [] else [old.tailBlk]) ++ p.newBlks) (fillFrame p.queue) s
    evict (queDone ring slot (BitVec.ofNat 64 (min d.depth (2 ^ 32 - 1))) false [] quiet s)
  | _, _ => s

/-- How the record of the old tail block stands that an ENQ needs from DRAM (08 R259): the ENQ waits for it, or its queue faults with an FREASON and a cause, or it is there. Replay reads it at once. -/
def oldRecord (s : State) (ring : Fin 16) (slot : Nat) (quiet : Bool) : Option (Option (Nat × String)) :=
  match (s.que.plans.find? fun p => p.ring = ring && p.entry = slot).bind (·.oldRec) with
  | none => some none
  | some b =>
    if (s.brec b).bad then some (some (1, "record"))
    else match placeOf s (recLineNo s b) with
      | none => some (some (1, "record"))
      | some p =>
        if !chanUp s p.ch then some (some (2, "channel"))
        else match dirRead s ring slot 72 with
          | some r => r.back.map fun psn => if psn then some (1, "record") else none
          | none => if quiet then some (if dramPsn s p.ch p.lam then some (1, "record") else none) else some none

/-- A line is read in the background for a manifest and is there at once, as replay, a discarded queue and the like read (08 R256). DESIGN CHOICE (log 132): the read counts as a granted one, without the slot that it would hold meanwhile. -/
def readAtOnce (c : Fin 16) (lam : Nat) (man : Option (BitVec 8)) (s : State) : State :=
  let s := fbump ARB (ARB_GRANT_COUNT.nth c) (fbump (CH c) CH_BGLINE_COUNT (fbump (CH c) CH_RDCMD_COUNT s))
  rowOnce c lam none <| charge 0x02 1 man (match man with
    | some m => chargeLine m.toNat c 1 s
    | none => updChan c (fun y => { y with bgLines := y.bgLines + 1 }) s)

/-- The line of a block's record is read at once. -/
def recAtOnce (man : Option (BitVec 8)) (b : Nat) (s : State) : State :=
  match placeOf s (recLineNo s b) with
  | some p => onlyIf (chanUp s p.ch) (readAtOnce p.ch p.lam man) s
  | none => s

/-- Replay reads at once the record that an ENQ needs from DRAM and that no read has brought. -/
def payOldRec (ring : Fin 16) (slot : Nat) (man : BitVec 8) (s : State) : State :=
  match (s.que.plans.find? fun p => p.ring = ring && p.entry = slot).bind (·.oldRec) with
  | some b => onlyIf ((dirRead s ring slot 72).isNone && !(s.brec b).bad) (recAtOnce (some man) b) s
  | none => s

/-- ENQ_APPLY: `recBad` says which record or descriptor that it reads has an uncorrectable error, as `recError` takes it (08 R257). -/
def enqApply (ring : Fin 16) (slot : Nat) (recBad : Option Nat) (quiet : Bool) (s : State) : State :=
  match queTurn s ring slot .enq with
  | none => s
  | some e => match recBad with
    | some k => recError e.target.toNat k s
    | none => match oldRecord s ring slot quiet with
      | none => s
      | some (some (k, cause)) => queueFault e.target.toNat k cause s
      | some none => enqEffect ring slot quiet (onlyIf quiet (payOldRec ring slot e.man) s)

/-! ### Errors of frames (08 R257) -/

/-- An uncorrectable error stands in a line of a frame: a dirty line is to be written back as poisoned, its TAIL frame at once, and a clean one is read from DRAM from now on; the frame is retired. -/
def frameLineUe (f c : Nat) (s : State) : State :=
  let s := fbump WAY WAY_UE_COUNT s
  let x := s.qfr f
  if bitOf x.dirty.toNat c then
    let go := x.role == .tail && !x.evict
    onlyIf go (qWriteBack f) (setQfr f { x with psn := setBit32 x.psn c, thenRetire := true, evict := x.evict || go } s)
  else
    let s := setQfr f { x with valid := clrBit32 x.valid c, thenRetire := true } s
    onlyIf (x.role == .head || x.role == .pref) (freeQFrame f) s

/-- A line of a frame is read: whether the cell is poisoned. -/
def frameCell (f c : Nat) (ecc : LineEcc) (man : Option (BitVec 8)) (s : State) : Bool × State :=
  let s := charge 0x00 1 man s
  match ecc with
  | .clean => (bitOf (s.qfr f).psn.toNat c, s)
  | .corrected => (bitOf (s.qfr f).psn.toNat c, fbump WAY WAY_CE_COUNT s)
  | .uncorrectable => (true, frameLineUe f c s)

/-! ### DEQ (08 R248 to R250, R253) -/

/-- A cell is read from a frame. -/
def inFrame (s : State) (x : TakenCell) : Option Nat :=
  (qFrameOf s x.blk).bind fun f => if bitOf (s.qfr f).valid.toNat x.cell then some f else none

/-- The cells of a DEQ that are read directly, by their number. -/
def directCells (s : State) (l : List TakenCell) : List (TakenCell × Nat) := l.zipIdx.filter fun x => (inFrame s x.1).isNone

/-- A direct read of a cell is issued through a background slot; a cell of a lost channel comes back poisoned at once. -/
def pushDirect (ring : Fin 16) (slot : Nat) (man : BitVec 8) (x : TakenCell × Nat) (s : State) : State :=
  pushRead ring slot x.2 (cellLineNo s x.1.blk x.1.cell) (some man) (fbump QUE QUE_DIRECT_COUNT s)

/-- The blocks whose records a DEQ must read from DRAM, with the numbers of their reads. -/
def recordReads (s : State) (l : List TakenCell) : List (Nat × Nat) :=
  (((l.map (·.blk)).eraseDups.zipIdx).filter fun x => !recHeld s x.1).map fun x => (x.1, 72 + x.2)

/-- Clean lines of frames that a DEQ finds uncorrectable are read from DRAM instead (08 R257). -/
def dropBadCells (eccs : List LineEcc) (l : List TakenCell) (s : State) : State :=
  forAll l.zipIdx (fun x s => match inFrame s x.1 with
    | some f => onlyIf ((eccs[x.2]?).getD .clean == .uncorrectable && !bitOf (s.qfr f).dirty.toNat x.1.cell) (frameLineUe f x.1.cell) s
    | none => s) s

/-- The data of cells, by the places they stand at. -/
def cellsData (s : State) (l : List TakenCell) : List Slot :=
  l.flatMap fun x => match placeOf s (cellLineNo s x.blk x.cell) with
    | some p => lineSlots (dramLine s p.ch p.lam)
    | none => List.replicate 8 0

/-- INFO of a DEQ's DONE (04 R117, 08 R248). -/
def deqInfo (d d' : QDesc) (l : List TakenCell) : BitVec 64 :=
  match l.getLast? with
  | none => 0
  | some x =>
    let bytes := 128 * (l.length - 1) + (if x.eop then x.bytes else 128)
    BitVec.ofNat 64 (l.length + bytes * 2 ^ 7 + (if d.midpkt then 0 else 2 ^ 21) + (if x.eop then 2 ^ 22 else 0) + min d'.depth (2 ^ 32 - 1) * 2 ^ 23)

/-- The write-backs of a block that leaves its chain serve nothing any more: those not yet issued are withdrawn. -/
def dropQueWb (b : Nat) (s : State) : State :=
  let mine := fun (x : Cmd) => match x.src with
    | .queWb k _ => decide (k = b)
    | _ => false
  let hit := allChans.filter fun c => (s.chan c).line.any mine
  let n := (allChans.map fun c => ((s.chan c).flight.filter fun f => mine f.cmd).length).sum
  forAll hit fillStat <| fbumpN QUE QUE_WBLINE_COUNT n { s with chans := s.chans.map fun y => { y with
    bg := y.bg.filter fun x => !mine x.cmd, intake := y.intake.filter fun x => !mine x, line := y.line.filter fun x => !mine x,
    flight := y.flight.map fun f => if mine f.cmd then { f with cmd := { f.cmd with src := .gone } } else f } }

/-- A block leaves its queue's chain: its frame becomes FREE, and it is freed once nothing retains it. Cells that its frame alone held stand at their places (log 24). -/
def leaveChain (b : Nat) (s : State) : State :=
  let s := dropQueWb b s
  let s := match qFrameOf s b with
    | some f =>
      let x := s.qfr f
      freeQFrame f (forAll ((List.range 32).filter fun c => bitOf x.dirty.toNat c) (fun c s => match placeOf s (cellLineNo s b c) with
        | some p => setDramPsn p.ch p.lam (bitOf x.psn.toNat c) s
        | none => s) s)
    | none => s
  tryFree b (setBrec b { s.brec b with gone := true } s)

/-- The new head block's prefetched frame becomes its HEAD frame (08 R243). -/
def headFrame (q : Nat) (s : State) : State :=
  let d := s.qd q
  if d.st ≠ .active then s else
    match qFrameOf s d.headBlk with
    | some f => if (s.qfr f).role = .pref then setQfr f { s.qfr f with role := .head } s else s
    | none => s

/-- The block after the head block is read into a PREF frame (08 R243). -/
def prefetch (q : Nat) (s : State) : State :=
  let d := s.qd q
  if d.st ≠ .active ∨ d.headCell < 16 ∨ !fbit s QUE QUE_CTL_PREF_EN ∨ freeQFrames s ≤ qLow s ∨ d.headBlk = d.tailBlk then s else
    match (s.brec d.headBlk).next with
    | none => s
    | some b =>
      if b = d.tailBlk ∨ (qFrameOf s b).isSome then s else
        match takeQFrames 0 1 s with
        | f :: _ =>
          let man := (queOwner s q).map (BitVec.ofNat 8)
          let s := nextUse s
          let s := fbump QUE QUE_PREF_COUNT (setQfr f { role := .pref, queue := q, block := b, used := s.que.uses, recOk := false } s)
          forAll (List.range 33) (fun c s => match placeOf s (if c = 32 then recLineNo s b else cellLineNo s b c) with
            | some p => onlyIf (chanUp s p.ch) (pushBg p.ch .free { src := .quePref b c, line := p.lam, wr := false, man := man, slot := .background }) s
            | none => s) s
        | [] => s

/-- A DEQ with its cells at hand takes effect: its entry holds the descriptor image and the handle of the retained cells in RSLT before the descriptor is written (01 R18, R21). Cells are retained while the stream's window holds the request's slot (08 R253). -/
def deqEffect (ring : Fin 16) (slot q : Nat) (e : JEntry) (l : List TakenCell) (poison quiet : Bool) (s : State) : State :=
  let d := s.qd q
  match deqImage s d l with
  | none => queueFault q 1 "record" s
  | some (d', gone) =>
    let data := cellsData s l
    let n := l.length
    let first := (l.head?).getD ⟨0, 0, false, 0⟩
    let s := forAll (l.map (·.blk)).eraseDups (fun b s => match qFrameOf s b with
      | some f => setQfr f { s.qfr f with used := s.que.uses } s
      | none => s) (nextUse s)
    let s := { s with que := { s.que with reads := s.que.reads.filter fun r => !(r.ring = ring && r.entry = slot) } }
    let handle := if n = 0 then 0 else first.blk + first.cell * 2 ^ 28 + n * 2 ^ 33
    let s := setEntrySt ring slot .rslt (updEntry ring slot (fun e => { e with resp := BitVec.ofNat 64 handle, stageV := true, staged := qdImage s q d' }) s)
    let kept := decide (0 < n) && e.orphan.isNone && (entrySlot s e).isSome
    let s := onlyIf kept (fun s => setStrm e.port e.stream (updWin (s.strm e.port e.stream) e.seq fun w => { w with ret := some (first.blk, first.cell, n) }) s) s
    let s := onlyIf kept (forAll (l.map (·.blk)).eraseDups fun b s => setBrec b { s.brec b with rcnt := (s.brec b).rcnt + 1 } s) s
    let s := writeQd q d' e.man s
    let s := fbumpN QUE QUE_CELLS_OUT_COUNT n (fbump QUE QUE_DEQ_CNT_COUNT (onlyIf (n == 0) (fbump QUE QUE_EMPTY_CNT_COUNT) s))
    let s := prefetch q (headFrame q (stackLevel (forAll gone leaveChain s)))
    let s := if quiet then s else tollCharge e.port (n - 1) s
    evict (queDone ring slot (deqInfo d d' l) poison data quiet s)

/-- How a DEQ comes by the record of one of its blocks (08 R257, R259): the fault of one that is known to be bad, lies on a lost channel, or has come back poisoned. Replay reads it at once. -/
def deqRecFault (ring : Fin 16) (slot : Nat) (quiet : Bool) (s : State) (x : Nat × Nat) : Option (Nat × String) :=
  match recFault s x.1 with
  | some (1, _) => if (s.brec x.1).bad ∨ quiet ∨ (dirRead s ring slot x.2).any fun r => r.back == some true then some (1, "record") else none
  | r => r

/-- DEQ_APPLY: `recBad` says which record or descriptor that it reads has an uncorrectable error, as `recError` takes it, and `eccs` what SEC-DED found in the cells, in order. Cells and records in no frame are read directly first, together (08 R250). -/
def deqApply (ring : Fin 16) (slot : Nat) (recBad : Option Nat) (eccs : List LineEcc) (quiet : Bool) (s : State) : State :=
  match queTurn s ring slot .deq with
  | none => s
  | some e =>
    let q := e.target.toNat
    match recBad with
    | some k => recError q k s
    | none =>
    match deqCells s (s.qd q) (bitOf e.sub.toNat 0) (e.arg.toNat / 2 ^ 17 % 128) with
    | none => queueFault q 1 "record" s
    | some l =>
      match ((l.map (·.blk)).eraseDups.zipIdx.map fun x => (x.1, 72 + x.2)).findSome? (deqRecFault ring slot quiet s) with
      | some (k, cause) => queueFault q k cause s
      | none =>
        let s := if quiet then s else dropBadCells eccs l s
        let direct := directCells s l
        let recs := recordReads s l
        let fresh := fun (k : Nat) => (dirRead s ring slot k).isNone
        let todo := direct.filter fun x => fresh x.2
        let todoR := recs.filter fun x => fresh x.2
        if !(todo.isEmpty && todoR.isEmpty) ∧ !quiet then
          deferEval ring slot (forAll todoR (fun x s => pushRead ring slot x.2 (recLineNo s x.1) (some e.man) s) (forAll todo (pushDirect ring slot e.man) s))
        else if !quiet ∧ ((direct.map (·.2) ++ recs.map (·.2)).any fun k => match dirRead s ring slot k with
            | some r => r.back.isNone
            | none => true) then s
        else
          let s := if quiet then forAll todoR (fun x s => recAtOnce (some e.man) x.1 s) s else s
          let (bad, s) := l.zipIdx.foldl (fun (a : Bool × State) x =>
            let s : State := a.2
            match inFrame s x.1 with
            | some f =>
              let r := frameCell f x.1.cell ((eccs[x.2]?).getD .clean) (some e.man) s
              (a.1 || r.1, r.2)
            | none =>
              match dirRead s ring slot x.2 with
              | some r => (a.1 || r.back == some true, s)
              | none =>
                match placeOf s (cellLineNo s x.1.blk x.1.cell) with
                | some p => (a.1 || dramPsn s p.ch p.lam, readAtOnce p.ch p.lam (some e.man) (fbump QUE QUE_DIRECT_COUNT s))
                | none => (true, s)) (false, s)
          deqEffect ring slot q e l bad quiet s

/-! ### The pool (08 R236, R254) -/

/-- Why an initialisation of a pool of P blocks at a base is refused. -/
def poolRefusal (s : State) (base p : Nat) : Option String :=
  if poolSet s then some "done"
  else if base % 2 ^ 20 ≠ 0 then some "align"
  else if p < 65536 ∨ 2 ^ 28 ≤ p then some "size"
  else if topLines s * 128 < base + p * 4164 then some "range"
  else if ordLines s * 128 < base + p * 4164 then some "twin"
  else none

/-- Initialisation starts, or is refused. -/
def poolStart (base p : Nat) (s : State) : State × Option String :=
  match poolRefusal s base p with
  | some r => (fset QUE QUE_STATUS_CFG_REJ 1 s, some r)
  | none =>
    let s := fset QUE QUE_POOL_BASE_LO_BASE (base / 2 ^ 20 % 4096) (fset QUE QUE_POOL_BASE_HI_BASE (base / 2 ^ 32) (fset QUE QUE_POOL_BLOCKS_P p s))
    (initStart (fset QUE QUE_STATUS_INIT_BUSY 1 s), none)

/-- QUEUE_POOL_READY: the last line of the stack is written, and the pool's limits are set. -/
def poolReady (s : State) : State :=
  if !fbit s QUE QUE_STATUS_INIT_BUSY ∨ s.que.initLeft ≠ 0 then s else
    let p := poolBlocks s
    let s := { s with que := { s.que with freed := [], initDone := true, cached := min 896 (freeBlocks { s with que := { s.que with freed := [] } }) } }
    let rsv := max 8192 (p / 256)
    let s := fset QUE QUE_STATUS_INIT_BUSY 0 (fset QUE QUE_STATUS_INIT_DONE 1 s)
    let s := fset MAN MAN_BLKMAX_BLK (p - rsv) (fset QUE QUE_RSV_RSV rsv (queStat s))
    emit "queue_pool_ready" [("blocks", .n p), ("rsv", .n rsv)] s

/-- `queue pool`. -/
def queuePool (base p : Nat) (s : State) : State × OutLn :=
  match poolStart base p s with
  | (s, some r) => (s, erLn 430 "pool refused" [("reason", .s r)])
  | (s, none) => (s, okLn [("state", .s "init")])

/-! ### Discarding a queue (05 R151, 08 R258, R264) -/

/-- The record of a block of a queue's chain is read to follow the chain: from its frame, or from DRAM at one line's charge to the queue's owner (08 R256). -/
def readRec (q b : Nat) (s : State) : State :=
  let man := (queOwner s q).map (BitVec.ofNat 8)
  if recHeld s b then charge 0x00 1 man s else recAtOnce man b s

/-- A queue's cells are discarded and it becomes EMPTY; the answer is the number of blocks freed and of those lost. -/
def dropQueue (q : Nat) (s : State) : State × Nat × Nat :=
  let d := s.qd q
  let l := if d.st = .empty then [] else chainBlocks s q d.nblk d.headBlk
  let lost := d.nblk - l.length
  let before := freeBlocks s
  let s := forAll l (readRec q) s
  let s := forAll l leaveChain s
  let freed := freeBlocks s - before
  let gone := (s.que.blocks.filter fun b => b.2.out && b.2.queue = q && !b.2.gone).map (·.1)
  let s := forAll gone (fun b s => setBrec b {} (match qFrameOf s b with
    | some f => freeQFrame f s
    | none => s)) s
  let s := fbumpN QUE QUE_LOST_COUNT lost { s with que := { s.que with lost := s.que.lost + lost } }
  (evict (queStat (stackLevel (setQd q { enqPkts := d.enqPkts, deqPkts := d.deqPkts } s))), freed, lost)

/-- `queue reset`. -/
def queueReset (q : Nat) (s : State) : State × OutLn :=
  if 131071 < q then (s, erLn 432 "queue range" [("q", .h q 5)])
  else if inflight s q ≠ 0 then (s, erLn 431 "queue busy" [("q", .h q 5), ("inflight", .n (inflight s q))])
  else
    let r := dropQueue q s
    (r.1, okLn [("q", .h q 5), ("freed", .n r.2.1), ("lost", .n r.2.2)])

/-! ### Commands -/

/-- ENQ_APPLY (08 R247). -/
def execEnqApply (ring : Fin 16) (entry : Pick) (recBad : Option Nat) (s : State) : Host.Outcome State Fault Refusal :=
  .next (if coreRuns s then settle (enqApply ring entry.no recBad false (actAll entry.errs s)) else s)

/-- DEQ_APPLY (08 R250). -/
def execDeqApply (ring : Fin 16) (entry : Pick) (recBad : Option Nat) (eccs : List LineEcc) (s : State) : Host.Outcome State Fault Refusal :=
  .next (if coreRuns s then settle (deqApply ring entry.no recBad eccs false (actAll entry.errs s)) else s)

/-- QUEUE_POOL_READY (08 R236). -/
def execQueuePoolReady (s : State) : Host.Outcome State Fault Refusal := .next (if coreRuns s then poolReady s else s)

/-- QUEUE_POOL_INIT (08 R236): by QUE_CTL.INIT on the registers' values, or by `queue pool`. -/
def execQueuePoolInit (cmd : Option (Nat × Nat)) (s : State) : Host.Outcome State Fault Refusal :=
  .next (match cmd with
    | none => busWr QUE (fun s => (poolStart (poolBase s) (poolBlocks s) (afterClear s)).1) s
    | some (base, p) => runVerb1 (fun s => queuePool base p (afterClear s)) s)

/-- QUEUE_RESET (08 R264). -/
def execQueueReset (q : Nat) (s : State) : Host.Outcome State Fault Refusal := .next (runVerb1 (queueReset q) s)

end Sys2Proof.Machine
end

