-- ==== Sys2Proof/Machine/Manifest.lean ====
section
/-! DEFINITION. The `manifest` verb and the end of a close (05 R146 to R151, R165). -/

namespace Sys2Proof.Machine

/-- The queues of a manifest's range that hold cells. -/
def fullQueues (s : State) (m : Nat) : List Nat := (s.que.desc.filter fun d => ownsQueue s m d.1 && decide (0 < d.2.depth)).map (·.1)

/-- A forced close discards a queue's cells (05 R151); a chain that cannot be followed to its end leaves the queue FAULTED, its unread blocks still counted in NBLK (08 R239 FREASON 3). -/
def forceDrop (q : Nat) (s : State) : State :=
  let d := s.qd q
  let l := if d.st = .empty then [] else chainBlocks s q d.nblk d.headBlk
  if l.length = d.nblk then (dropQueue q s).1
  else
    let head := ((l.getLast?).bind fun b => (s.brec b).next).getD d.headBlk
    let s := stackLevel (forAll l leaveChain (forAll l (readRec q) s))
    let s := setQd q { d with st := .faulted, freason := 3, headBlk := head, headCell := if l.isEmpty then d.headCell else 0, nblk := d.nblk - l.length } (fbump QUE QUE_FAULT_COUNT s)
    emit "queue_fault" [("q", .h q 5), ("cause", .s "record")] s

/-- A closing manifest's dirty lines are written back, and its segments lose their owner (05 R151). -/
def releaseFrames (m : BitVec 8) (s : State) : State :=
  let go := fun (pin : Bool) (l : List (Nat × Frame)) (s : State) => forAll l (fun f s =>
    forAll ((f.2.charge.filter fun q => q.2 = DirtyTo.man m).map (·.1)) (pushWb pin f.1) s) s
  let s := go true s.way.pinned (go false s.way.tier s)
  { s with way := { s.way with tier := s.way.tier.map fun f => if f.2.owner = some m then (f.1, { f.2 with owner := none }) else f } }

/-- `manifest close`. -/
def manClose (m : Nat) (force : Bool) (s : State) : State × OutLn :=
  if 255 < m then (s, erLn 106 "out of range" [("arg", .s "id"), ("min", .n 0), ("max", .n 255)])
  else
    let cur := s.man m
    let full := fullQueues s m
    if cur.st ≠ .opened then (s, erLn 411 "manifest state" [("id", .n m), ("state", .s (stateWord cur.st))])
    else if !full.isEmpty ∧ !force then (s, erLn 412 "close blocked" [("nonempty", .n full.length)])
    else
      let s := setMan m { cur with st := .closing, forced := force } s
      let s := forAll (if force then full.filter fun q => inflight s q = 0 else []) forceDrop s
      (unloadMan m (releaseFrames (BitVec.ofNat 8 m) s), okLn [("id", .n m), ("state", .s "closing")])

/-- MANIFEST_CLOSED: the last journal entry has retired and the dirty lines are written back, so the reservations are freed (05 R151, 12 R363). -/
def manClosed (m : Nat) (s : State) : State :=
  let cur := s.man m
  let b := BitVec.ofNat 8 m
  if cur.st ≠ .closing ∨ entriesOf s b ≠ 0 ∨ dirtyOf s b ≠ 0 then s else
    let s := forAll (if cur.forced then fullQueues s m else []) forceDrop s
    let s := forAll ((s.walks.filter fun w => wdValid s w.1 && wdMan s w.1 = m).map (·.1)) walkUnloaded s
    emit "manifest_closed" [("id", .n m)] (manSums (setMan m { gen := cur.gen } s))

/-- `manifest modify`, and what a reduction brings about at once (05 R150). -/
def manModifyAll (m : Nat) (x : MMod) (s : State) : State × OutLn :=
  let r := manModify m x s
  if r.2.head == "ok" then (wbHigh (BitVec.ofNat 8 m) (trimFrames true (BitVec.ofNat 8 m) r.1), r.2) else r

/-! ### Commands -/

/-- MANIFEST_OPEN (05 R146). -/
def execManifestOpen (man : Nat) (f : MFields) (s : State) : Host.Outcome State Fault Refusal := .next (runVerb1 (fun s => manOpen layoutCommit man f (afterClear s)) s)

/-- MANIFEST_MODIFY (05 R150). -/
def execManifestModify (man : Nat) (m : MMod) (s : State) : Host.Outcome State Fault Refusal := .next (runVerb1 (manModifyAll man m) s)

/-- MANIFEST_CLOSE (05 R151). -/
def execManifestClose (man : Nat) (force : Bool) (s : State) : Host.Outcome State Fault Refusal := .next (runVerb1 (manClose man force) s)

/-- MANIFEST_CLOSED (05 R151). -/
def execManifestClosed (man : Nat) (s : State) : Host.Outcome State Fault Refusal := .next (if coreRuns s then manClosed man s else s)

end Sys2Proof.Machine
end

