-- ==== Sys2Proof/Machine/Period.lean ====
section
/-! DEFINITION. Accounting periods: deliverable capacity, effective minima, limits and buckets; the toll gates' refill; the horizon's fall (01 R33, 05 R153 to R159, 06 R176, R182, 09 R287). -/

namespace Sys2Proof.Machine

/-! ### Deliverable capacity (05 R153) -/

/-- The ledger's power limit at levels 4 to 9 (12 R357). -/
def powerLimit (s : State) (c : Fin 16) : Option Nat :=
  let l := fget s LED LED_STATUS_LEVEL
  if 4 ≤ l then some (nominalC s c - (l - 3) * (nominalC s c / 8)) else none

/-- A step that lowers D reports its cause. -/
def lowerD (x : Nat × Nat) (v cause : Nat) : Nat × Nat := if v < x.1 then (v, cause) else x

/-- D of a channel and the code of its cause (05 R153, R163). -/
def delivOf (s : State) (c : Fin 16) : Nat × Nat :=
  let d : Nat × Nat := (nominalC s c, 0)
  let d := if coolProfile s ∧ fbit s (CH c) CH_REF_RATE2X then lowerD d (capHot (mtsOf (s.chan c).trnRate)) 1 else d
  let d := if fbit s (CH c) CH_SPARE_BUSY then lowerD d (d.1 * 7 / 8) 2 else d
  let d := match actChLimit s c with
    | some v => lowerD d v 4
    | none => d
  let d := match powerLimit s c with
    | some v => lowerD d v 3
    | none => d
  if (s.chan c).lost then (0, 5) else d

def causeWord (k : Nat) : String :=
  match k with
  | 1 => "hot" | 2 => "spare" | 3 => "power" | 4 => "throttle" | 5 => "lost" | _ => "none"

def clsWord : MClass → String
  | .rt => "rt" | .guar => "guar" | .shared => "shared"

/-! ### Effective minima (05 R154, R158) -/

/-- The scaling table: what a charge of a class becomes under a capacity. -/
def scaled (d rt gu sh : Nat) (k : MClass) (charge : Nat) : Nat :=
  if rt + gu + sh ≤ d then charge
  else if rt + gu ≤ d then (match k with
    | .shared => charge * (d - rt - gu) / sh
    | _ => charge)
  else if rt ≤ d then (match k with
    | .rt => charge
    | .guar => charge * (d - rt) / gu
    | .shared => 0)
  else (match k with
    | .rt => charge * d / rt
    | _ => 0)

/-- A manifest's effective minimum at a channel, by D alone. At a lost channel a TWIN manifest's stays whole unless the partner is lost as well. -/
def scaledMin (s : State) (l : List (Nat × MFields)) (d : Nat × Nat) (c : Fin 16) (f : MFields) : Nat :=
  let halved := d.2 = 5 ∧ inMap s (partnerOf c) ∧ !(s.chan (partnerOf c)).lost
  if halved ∧ f.twin then f.bw
  else if halved then 0
  else
    let v := scaled d.1 (sumCls l .rt) (sumCls l .guar) (sumCls l .shared) f.cls (bwCharge f)
    if f.twin then v / 2 else v

/-- The limit that row-activation throttling sets on a manifest at a channel. -/
def actManLimit (s : State) (c : Fin 16) (m : Nat) : Option Nat := ((s.chan c).actLimit.find? fun x => x.1.toNat = m).map (·.2)

/-- The effective minimum of a manifest at a channel, and the code of its cause. -/
def effMin (s : State) (l : List (Nat × MFields)) (c : Fin 16) (m : Nat) (f : MFields) : Nat × Nat :=
  let d := delivOf s c
  let v := scaledMin s l d c f
  match actManLimit s c m with
  | some k => if k < v then (k, 4) else (v, d.2)
  | none => (v, d.2)

/-- A manifest's account at a channel for the new period, with the event of a change (05 R156, 06 R176, R195). -/
def periodAccount (l : List (Nat × MFields)) (c : Fin 16) (m : Nat) (s : State) : State :=
  let x := s.man m
  let (v, cause) := effMin s l c m x.f
  let a := s.acct m c
  let was := bitOf x.shortCh.toNat c.val
  let short := decide (v < x.f.bw)
  let bits := if short = was then x.shortCh.toNat else if short then x.shortCh.toNat + 2 ^ c.val else x.shortCh.toNat - 2 ^ c.val
  let s := setMan m { x with shortCh := BitVec.ofNat 16 bits } (setAcct m c { count := 0, emin := v, thr := (actManLimit s c m).getD 0x3FF } s)
  if short then
    if a.emin = v ∧ was then s else
      onlyIf (!was) (irq GLB_IRQ_STAT_SHORTFALL) <| emit "shortfall" [("man", .n m), ("ch", .n c), ("class", .s (clsWord x.f.cls)), ("promised", .n x.f.bw), ("achieved", .n v), ("cause", .s (causeWord cause))] s
  else if was then emit "shortfall_end" [("man", .n m), ("ch", .n c)] s
  else s

/-- Word 9 of a manifest: the lowest effective minimum over its short channels, and its floor with D and the effective minima there (05 R147, R157). -/
def manWord9 (l : List (Nat × MFields)) (m : Nat) (s : State) : State :=
  let x := s.man m
  let short := (members s).filter fun c => bitOf x.shortCh.toNat c.val
  let low := (short.map fun (c : Fin 16) => (s.acct m c).emin).foldl min 0x3FF
  let eff := fun (c : Fin 16) (k : MClass) =>
    ((l.filter fun y => y.2.cls = k).map fun y => if y.2.twin then 2 * (s.acct y.1 c).emin else (s.acct y.1 c).emin).sum
  let fl := (members s).map fun c =>
    let mts := mtsOf (s.chan c).trnRate
    if bitOf x.shortCh.toNat c.val then
      let d := (delivOf s c).1
      latFloor d mts (classA (eff c .rt) (eff c .guar) d x.f.cls)
    else latFloor (nominalC s c) mts (classA (sumCls l .rt) (sumCls l .guar) (nominalC s c) x.f.cls)
  setMan m { x with achv := if short.isEmpty then 0 else low, floorNs := min 0xFFFF (fl.foldl max 0) } s

/-! ### Waystation shares (05 R159) -/

/-- The segments of the tier-cache carve-out, less the retired frames. DEDUCED (log 53): frames that are lent to self-test still count. -/
def waySeats (s : State) : Nat := fget s WAY WAY_TIER_FRAMES

/-- A manifest's share under R159, with the event of a change. -/
def wayShare (l : List (Nat × MFields)) (m : Nat) (s : State) : State :=
  let x := s.man m
  let sum := fun (k : MClass) => ((l.filter fun y => y.2.cls = k).map fun y => y.2.way).sum
  let v := scaled (waySeats s) (sum .rt) (sum .guar) (sum .shared) x.f.cls x.f.way
  if v < x.f.way then
    if x.wayRed = some v then s else
      onlyIf x.wayRed.isNone (irq GLB_IRQ_STAT_SHORTFALL) <| trimFrames true (BitVec.ofNat 8 m) (emit "shortfall" [("man", .n m), ("res", .s "waystation"), ("promised", .n x.f.way), ("achieved", .n v), ("cause", .s "retire")]
        (setMan m { x with wayRed := some v } s))
  else if x.wayRed.isSome then emit "shortfall_end" [("man", .n m), ("res", .s "waystation")] (setMan m { x with wayRed := none } s)
  else s

/-! ### Buckets (09 R287) -/

/-- The rates at map load, in sixteenths of a line, and of a CK_CHn cycle for the pauses. -/
def bgRate (mts n : Nat) : Nat := 16 * mts * 64 * n / 176000
def pauseRate (mts : Nat) : Nat := 16 * 1024 * mts * 2 / (8000 * 176)

/-- A bucket gains its rate, up to its depth. -/
def refill (v : Int) (rate depth : Nat) : Int := min (16 * (depth : Int)) (v + rate)

/-- The buckets and the sparing rewrite's budget of a channel for a new period. -/
def bucketPeriod (c : Fin 16) (s : State) : State :=
  let r := mtsOf (s.chan c).trnRate
  let g := fget s (CH c)
  updChan c (fun y => { y with
    bkMig := refill y.bkMig (min (g CH_BGMIG_RATE) (bgRate r 9)) (g CH_BGMIG_DEPTH),
    bkScr := refill y.bkScr (min (g CH_BGSCR_RATE) (bgRate r 1)) (g CH_BGSCR_DEPTH),
    bkBst := refill y.bkBst (min (g CH_BGBST_RATE) (bgRate r 4)) (g CH_BGBST_DEPTH),
    bstDepth := g CH_BGBST_DEPTH,
    bkPause := refill y.bkPause (min (g CH_BGPAUSE_RATE) (pauseRate r)) (g CH_BGPAUSE_DEPTH),
    spareLeft := nominalC s c / 16, bgLines := 0 }) s

/-! ### The boundary (05 R155, 06 R176) -/

/-- Profile, deliverable capacities and limits of a new period, and, unless a warm reset's replay is in progress, its minima, shares and shortfalls (05 R152). -/
def periodAccounts (replay : Bool) (s : State) : State :=
    let s := manBoundary { s with prof := fbit s MAN MAN_CFG_PROFILE }
    let l := fieldsNow s
    let s := acctsZero (fun k => l.any fun x => x.1 = k / 16) s
    let s := forAll (members s) (fun c s =>
      let d := delivOf s c
      let s := fset MAN (MAN_CHCAP_DELIV.nth c) d.1 (fset MAN (MAN_CHCAP_CAUSE.nth c) d.2 s)
      let s := fset ARB (ARB_THRCH_LIMIT.nth c) ((actChLimit s c).getD 0) s
      forAll (l.map (·.1)) (if replay then fun m s => setAcct m c { s.acct m c with thr := (actManLimit s c m).getD 0x3FF } s else periodAccount l c) s) s
    if replay then s else
    let s := forAll (l.map (·.1)) (fun m s => wayShare l m (manWord9 l m s)) s
    fsetB MAN MAN_STATUS_SHORT (s.mans.any fun m => m.2.shortCh != 0 || m.2.wayRed.isSome) s

/-- A warm reset's replay has not ended (17 R499). -/
def warmReplay (s : State) : Bool := s.pwr.warm != .idle

/-- PERIOD_BOUNDARY, at which the coverage of self-test follows the units in service too (13 R387). After a warm reset, shortfall state is computed again at the first boundary after replay (05 R152). DEDUCED (log 125): D, the profile and the limits are taken at every boundary, and the effective minima wait with the shortfalls. -/
def periodBoundary (s : State) : State :=
  if s.pwr.mode ≠ .run then s else
    let s := advanceToNs s.perEnd s
    let s := { s with perEnd := (s.ns / 1024 + 1) * 1024 }
    let s := periodAccounts (warmReplay s) s
    covAll (forAll (members s) bucketPeriod s)

/-! ### Toll gates and the horizon -/

/-- A gate gains its RATE `n` times, up to BURST. -/
def tollRefill (n : Nat) (p : Fin 4) (s : State) : State :=
  if tollRate s p = 0 then s else setToll p (min (16 * (tollBurst s p : Int)) (s.toll[p] + n * tollRate s p)) s

/-! ### Commands -/

/-- PERIOD_BOUNDARY (06 R176). -/
def execPeriodBoundary (s : State) : Host.Outcome State Fault Refusal := .next (periodBoundary s)

/-- TOLL_GATE_REFILL (06 R182): every 64 ns, and once for those that passed while the clocks were gated (14 R395). -/
def execTollGateRefill (s : State) : Host.Outcome State Fault Refusal :=
  .next (if s.pwr.mode ≠ .run then s else
    let s := advanceToNs s.tollEnd s
    let n := (s.ns - s.tollEnd) / 64 + 1
    forAll allPorts (tollRefill n) { s with tollEnd := s.tollEnd + 64 * n })

/-- HORIZON_HOLD_EXPIRY (01 R33): nothing while no horizon is computed. -/
def execHorizonHoldExpiry (s : State) : Host.Outcome State Fault Refusal :=
  .next (match s.horizon with
    | none => s
    | some h => if !dtimeRuns s || s.pwr.mode == .doze || !(allChans.any fun c => inMap s c && inService s c) then s else setHorizon h.us (advanceToNs h.due s))

end Sys2Proof.Machine
end

