-- ==== Sys2Proof/Machine/Compare.lean ====
section
/-! DEFINITION. The settings file of a PHY, the bursts that its helpers expect, and the compare engine (11 R328, R331 to R333, R349). -/

namespace Sys2Proof.Machine

/-! ### The settings file (11 R328, R349) -/

/-- Bits of a word of an indirect table. -/
def ixBits (s : State) (b i lo w : Nat) : Nat := (ixGet s b i).toNat / 2 ^ lo % 2 ^ w

/-- Replace bits of a word of an indirect table. -/
def ixPut (b i lo w v : Nat) (s : State) : State := ixSet b i ((⟨0, lo, w⟩ : Fld).put v (ixGet s b i)) s

/-- The index of a rank's entry. -/
def rIx (r k : Nat) : Nat := r * 0x400 + k

/-- The device of a DQ bit. -/
def bitDev (s : State) (b : Nat) : Nat := b / (if geoX8 s then 8 else 4)

/-- The ranks of a channel. -/
def ranksOf (s : State) : List Nat := List.range (geoRanks s)

/-- The CS_N pins of a channel (11 R349). -/
def csPins (s : State) : List Nat := if geoRanks s = 2 then [8, 9] else [8]

/-- The pins whose CA training is checked: CA, and CS_N of each rank (11 R334, R349). -/
def caPins (s : State) : List Nat := List.range 7 ++ csPins s

/-! ### The expected bursts (11 R331) -/

/-- The stages that a polynomial feeds back: the last one and another. PRESUMED (log 135): x^7 + x^6 + 1, x^15 + x^14 + 1, x^23 + x^18 + 1 and x^31 + x^28 + 1. -/
def prbsTaps (k : Nat) : Nat × Nat :=
  match k with
  | 0 => (7, 6) | 1 => (15, 14) | 2 => (23, 18) | _ => (31, 28)

/-- One step of a generator: its output bit and its next contents. -/
def prbsStep (k x : Nat) : Bool × Nat :=
  let (n, m) := prbsTaps k
  let o := bitOf x (n - 1)
  (o, x * 2 % 2 ^ n + (if o != bitOf x (m - 1) then 1 else 0))

/-- The first bits of a generator, from its seed. -/
def prbsRun (k : Nat) : Nat → Nat → List Bool
  | 0, _ => []
  | n + 1, x => (prbsStep k x).1 :: prbsRun k n (prbsStep k x).2

/-- Bit b of a beat of the pattern memory: 32 bursts of 16 beats, and then from burst 0 again. -/
def patternBit (s : State) (c : Fin 16) (b t : Nat) : Bool :=
  bitOf (ixGet s (PHY c) (0x1000 + t / 16 % 32 * 48 + t % 16 * 3 + b / 32)).toNat (b % 32)

/-- The first beats that a DQ bit is expected to carry since START, inverted after the source where INV is set. -/
def laneBits (s : State) (c : Fin 16) (b n : Nat) : List Bool :=
  let seed := (ixGet s (PHY c) (0x1800 + b)).toNat
  let lfsr := prbsRun (fget s (PHY c) PHY_PAT_POLY) n (seed % 2 ^ 31)
  let pat := (List.range n).map (patternBit s c b)
  let l := match fget s (PHY c) PHY_PAT_SRC with
    | 0 => pat
    | 2 => List.zipWith (· != ·) pat lfsr
    | _ => lfsr
  l.map (· != bitOf seed 31)

/-! ### The compare engine (11 R332) -/

/-- Bit b of a beat of a burst. -/
def burstBit (x : Burst) (t b : Nat) : Bool := bitOf x.toNat (72 * t + b)

/-- A bit that is not compared. -/
def bitMasked (s : State) (c : Fin 16) (b : Nat) : Bool := bitOf (ixGet s (PHY c) (0x1900 + b)).toNat 31

/-- Of some bits those that are compared. -/
def comparedBits (s : State) (c : Fin 16) (m : BitVec 72) : BitVec 72 :=
  BitVec.ofNat 72 (((List.range 72).filter fun b => bitOf m.toNat b && !bitMasked s c b).map (2 ^ ·)).sum

/-- The beats of received bursts at which a bit differs from what is expected, where `i0` bursts went before since START. -/
def laneDiffs (s : State) (c : Fin 16) (b i0 : Nat) (got : List Burst) : List Nat :=
  let want := (laneBits s c b (16 * (i0 + got.length))).drop (16 * i0)
  let have_ := got.flatMap fun x => (List.range 16).map fun t => burstBit x t b
  (want.zip have_).zipIdx.filterMap fun x => if x.1.1 != x.1.2 then some x.2 else none

/-- The beats that differ, for every bit; none for a masked bit. -/
def burstDiffs (s : State) (c : Fin 16) (i0 : Nat) (got : List Burst) : List (List Nat) :=
  (List.range 72).map fun b => if bitMasked s c b then [] else laneDiffs s c b i0 got

/-- The bits that have an error. -/
def hitBits (ds : List (List Nat)) : BitVec 72 := BitVec.ofNat 72 ((ds.zipIdx.map fun x => if x.1.isEmpty then 0 else 2 ^ x.2).sum)

/-- The first beat that differs, and the lowest bit that differs in it. -/
def firstDiff (ds : List (List Nat)) : Option (Nat × Nat) :=
  (ds.zipIdx.filterMap fun x => x.1.head?.map fun t => (t, x.2)).foldl (fun m x => match m with
    | some y => if x.1 < y.1 then some x else some y
    | none => some x) none

/-- The error counter of a bit. -/
def errCount (s : State) (c : Fin 16) (b : Nat) : Nat := ixBits s (PHY c) (0x1900 + b) 0 16

/-- Differences are counted; the first one is recorded where none has been since the counters were cleared. -/
def countDiffs (c : Fin 16) (ds : List (List Nat)) (s : State) : State :=
  let fresh := (List.range 72).all fun b => errCount s c b == 0
  let s := forAll ds.zipIdx (fun x s =>
    if x.1.isEmpty then s else ixPut (PHY c) (0x1900 + x.2) 0 16 (min 65535 (errCount s c x.2 + x.1.length)) s) s
  match firstDiff ds with
  | some (t, b) => if fresh then ixSet (PHY c) 0x19FF (BitVec.ofNat 32 (t % 16 + b * 2 ^ 4 + t / 16 % 2 ^ 16 * 2 ^ 11)) s else s
  | none => s

/-- The compare counters and the first failure are cleared; the masks stay (11 R332). -/
def compareClear (c : Fin 16) (s : State) : State :=
  ixSet (PHY c) 0x19FF 0 (forAll (List.range 72) (fun b s => ixPut (PHY c) (0x1900 + b) 0 16 0 s) s)

/-- What was received at a point, up to a number of bursts. -/
def gotAt (l : List Probe) (pos : Int) (n : Nat) : List Burst := (((l.find? fun p => p.pos = pos).map Probe.got).getD []).take n

/-- A probe point of 32 pattern MRRs (11 R342): its errors are counted, and the bits that have some are given. The generators restart at each point (log 58). -/
def probeAt (c : Fin 16) (l : List Probe) (pos : Int) (s : State) : BitVec 72 × State :=
  let ds := burstDiffs s c 0 (gotAt l pos 32)
  (hitBits ds, countDiffs c ds s)

/-! ### Sweep points (11 R333) -/

/-- The points of a sweep: from FIRST up to LAST, STEP apart; 0 is read as 1. -/
def sweepPoints (s : State) (c : Fin 16) : List Nat :=
  let a := fget s (PHY c) PHY_SWP_RANGE_FIRST
  let z := fget s (PHY c) PHY_SWP_RANGE_LAST
  let d := max 1 (fget s (PHY c) PHY_SWP_STEP_STEP)
  if z < a then [] else (List.range ((z - a) / d + 1)).map fun k => a + k * d

/-- Each point in turn: the counters are cleared, BURSTS bursts are compared, and each bit is judged by ERR_TH. `j` points went before. The bits that pass are given for each point. -/
def sweepScan (c : Fin 16) (l : List Probe) : List Nat → Nat → State → List (Nat × List Bool) × State
  | [], _, s => ([], s)
  | p :: ps, j, s =>
    let n := fget s (PHY c) PHY_SWP_CNT_BURSTS
    let s := compareClear c s
    let s := countDiffs c (burstDiffs s c (j * n) (gotAt l p n)) s
    let ok := (List.range 72).map fun b => decide (errCount s c b ≤ fget s (PHY c) PHY_SWP_CNT_ERR_TH)
    let r := sweepScan c l ps (j + 1) s
    ((p, ok) :: r.1, r.2)

/-- The runs of consecutive passing points, as their first and last. -/
def passRuns : List (Nat × Bool) → Option (Nat × Nat) → List (Nat × Nat)
  | [], none => []
  | [], some r => [r]
  | (p, true) :: l, none => passRuns l (some (p, p))
  | (p, true) :: l, some r => passRuns l (some (r.1, p))
  | (_, false) :: l, none => passRuns l none
  | (_, false) :: l, some r => r :: passRuns l none

/-- The widest run; of equals the first. -/
def widestRun (l : List (Nat × Bool)) : Option (Nat × Nat) :=
  (passRuns l none).foldl (fun m r => match m with
    | some x => if x.2 - x.1 < r.2 - r.1 then some r else some x
    | none => some r) none

/-! ### The lines that a destructive sweep writes (11 R333, 10 R295) -/

/-- The data of a line whose burst carries given bits, by beat and DQ bit. -/
def rawLine (x8 : Bool) (bit : Nat → Nat → Bool) : Line :=
  let w := if x8 then 8 else 4
  let per := if x8 then 2 else 4
  BitVec.ofNat 1024 (((List.range 64).map fun p =>
    ((List.range 16).map fun k => if bit (per * (p % w) + k / w) (w * (p / w) + k % w) then 2 ^ (16 * p + k) else 0).sum).sum)

/-- The lines of row 0 in every bank of a rank, in the order of the banks and then of the columns. -/
def rowZero (s : State) (r : Nat) : List Nat := (List.range 32).flatMap fun k => rowLams s (r * 32 + k)

/-- SRC 1 writes the bursts of the sweep to the lines of row 0, in turn and from the first line again (11 R333): each line holds the last one written to it. -/
def sweepWrite (c : Fin 16) (r total : Nat) (s : State) : State :=
  let ls := rowZero s r
  let n := ls.length
  let lanes := (List.range 72).map fun b => laneBits s c b (16 * total)
  forAll ls.zipIdx (fun x s =>
    if total ≤ x.2 then s else
      let i := x.2 + (total - 1 - x.2) / n * n
      storeLine c x.1 (rawLine (geoX8 s) fun t b => (((lanes[b]?).getD [])[16 * i + t]?).getD false) false s) s

end Sys2Proof.Machine
end

