-- ==== Sys2Proof/Machine/Phy.lean ====
section
/-! DEFINITION. The PHYs: training, sweeps, the compare engine, proofing pauses with their adjustments, and the re-lock after self-refresh; and the load of the address map, which puts the trained channels into service (09 R273 to R276, 11 R328 to R350). -/

namespace Sys2Proof.Machine

/-! ### Eyes -/

/-- The eye found for a unit of a rank. -/
def eyeOf (l : List Eye) (r u : Nat) : Option Eye := l.find? fun e => e.rank.val = r && e.unit = u

/-- Its width; 0 where nothing passed. -/
def eyeWidth (l : List Eye) (r u : Nat) : Nat := ((eyeOf l r u).map Eye.width).getD 0

/-- The first unit of a rank whose eye is narrower than a limit. -/
def narrowEye (l : List Eye) (ranks units : List Nat) (lim : Nat) : Option (Nat × Nat) :=
  (ranks.flatMap fun r => units.map fun u => (r, u)).find? fun x => decide (eyeWidth l x.1 x.2 < lim)

/-- Every unit of each rank that has an eye takes its centre. -/
def applyEyes (c : Fin 16) (l : List Eye) (u0 n base lo w : Nat) (s : State) : State :=
  forAll (ranksOf s) (fun r s => forAll (List.range n) (fun k s =>
    match eyeOf l r (u0 + k) with
    | some e => if 0 < e.width then ixPut (PHY c) (rIx r (base + k)) lo w e.centre s else s
    | none => s) s) s

/-- The widths of the bits' eyes are recorded (11 R349). -/
def recordEyes (c : Fin 16) (l : List Eye) (lo : Nat) (s : State) : State :=
  forAll (ranksOf s) (fun r s => forAll (List.range 72) (fun b s =>
    match eyeOf l r b with
    | some e => ixPut (PHY c) (rIx r (0x1E0 + b)) lo 8 (min 255 e.width) s
    | none => s) s) s

/-- The narrowest eye of the 72 bits of every rank. -/
def minEye (s : State) (l : List Eye) : Nat := ((ranksOf s).flatMap fun r => (List.range 72).map (eyeWidth l r)).foldl min 1023

/-! ### Training (11 R334 to R339) -/

/-- The names of the steps (11 R334). -/
def stepWord (k : Nat) : String :=
  match k with
  | 1 => "reset" | 2 => "rcd_ca" | 3 => "dev_ca" | 4 => "ident" | 5 => "wlvl" | 6 => "rgate" | 7 => "rd_dq" | 8 => "rd_vref"
  | 9 => "wr_dq" | 10 => "wr_vref" | 11 => "dfe" | 12 => "osc" | 13 => "skew" | 14 => "check" | _ => "fill"

/-- The names of the reasons. -/
def reasonWord (k : Nat) : String :=
  match k with
  | 1 => "rcd" | 2 => "ca" | 3 => "identity" | 4 => "leveling" | 5 => "gate" | 6 => "read" | 7 => "write" | 8 => "vref"
  | 9 => "oscillator" | 10 => "skew" | 11 => "timeout" | _ => "interrupted"

/-- The names of the channel states (09 R289). -/
def chWord (k : Nat) : String :=
  match k with
  | 0 => "off" | 1 => "training" | 2 => "ready" | 3 => "in_service" | 4 => "self_refresh" | 5 => "resetting" | 6 => "fault" | 7 => "isolated" | _ => "failed"

/-- A failing step: its reason, device and bit. -/
abbrev TrnFail := Nat × Option Nat × Option Nat

/-- Training fails (11 R335). -/
def trainFail (c : Fin 16) (f : TrnFail) (s : State) : State :=
  let step := fget s (PHY c) PHY_TRN_STATUS_STEP
  let opt := fun (k : String) (v : Option Nat) => match v with
    | some v => [(k, FVal.n v)]
    | none => []
  let s := updPhy c (fun y => { y with trn := none, trnHold := false, trnEnd := false, sweep := false }) s
  let s := updChan c (fun y => { y with restoring := false }) s
  let s := fset (PHY c) PHY_SWP_STATUS_BUSY 0 (setChState c 8 s)
  let s := fset (PHY c) PHY_TRN_STATUS_BUSY 0 (fset (PHY c) PHY_TRN_STATUS_FAIL 1 (fset (PHY c) PHY_TRN_STATUS_REASON f.1 s))
  let s := fset (PHY c) PHY_TRN_STATUS_DEV (f.2.1.getD 0) (fset (PHY c) PHY_TRN_STATUS_BIT (f.2.2.getD 0) s)
  emit "train_fail" ([("ch", .n c), ("step", .s (stepWord step)), ("reason", .s (reasonWord f.1))] ++ opt "dev" f.2.1 ++ opt "bit" f.2.2) s

def caMin (s : State) (c : Fin 16) : Nat := fget s (PHY c) PHY_PASS_CA_MIN
def rdMinP (s : State) (c : Fin 16) : Nat := fget s (PHY c) PHY_PASS_RD_MIN
def wrMinP (s : State) (c : Fin 16) : Nat := fget s (PHY c) PHY_PASS_WR_MIN
def vrefMin (s : State) (c : Fin 16) : Nat := fget s (PHY c) PHY_PASS_VREF_MIN

/-- Every bit has an eye of at least a width, or the step fails with a reason. -/
def bitsPass (s : State) (l : List Eye) (lim reason : Nat) : Option TrnFail :=
  (narrowEye l (ranksOf s) (List.range 72) lim).map fun x => (reason, some (bitDev s x.2), some x.2)

/-- Every pair or device has an eye of at least a width, or the step fails with a reason. -/
def devsPass (s : State) (l : List Eye) (u0 lim reason : Nat) : Option TrnFail :=
  (narrowEye l (ranksOf s) ((List.range (geoDevs s)).map (u0 + ·)) lim).map fun x => (reason, some (x.2 - u0), none)

/-- CS and CA of every device pass. -/
def caDevsPass (s : State) (c : Fin 16) (l : List Eye) : Option TrnFail :=
  (devsPass s l 128 (caMin s c) 2).or (devsPass s l 160 (caMin s c) 2)

/-- Every CS_N and CA pin passes. -/
def pinsPass (s : State) (c : Fin 16) (l : List Eye) : Option TrnFail :=
  (narrowEye l [0] (caPins s) (caMin s c)).map fun _ => (2, none, none)

/-- The density in Gb that the geometry asks for. -/
def geoGb (s : State) : Nat := match geoDens s with | 0 => 16 | 1 => 24 | _ => 32

/-- Every device answers and matches the geometry (11 R334). -/
def identPass (s : State) (l : List DevId) : Option TrnFail :=
  ((ranksOf s).flatMap fun r => (List.range (geoDevs s)).map fun d => (r, d)).findSome? fun x =>
    match l.find? fun y => y.rank.val = x.1 && y.dev = x.2 with
    | some y => if y.answers && !y.x16 && !y.stacked && y.x8 == geoX8 s && y.gb == geoGb s then none else some (3, some x.2, none)
    | none => some (3, some x.2, none)

/-- Every strobe pair of every rank has a position, or the step fails with a reason. -/
def foundPass (s : State) (l : List (Fin 2 × Nat × Option Nat)) (reason : Nat) : Option TrnFail :=
  ((ranksOf s).flatMap fun r => (List.range (geoDevs s)).map fun d => (r, d)).findSome? fun x =>
    if l.any fun y => y.1.val = x.1 && y.2.1 = x.2 && y.2.2.isSome then none else some (reason, some x.2, none)

/-- The positions found go into the settings file. -/
def applyFound (c : Fin 16) (l : List (Fin 2 × Nat × Option Nat)) (base w : Nat) (s : State) : State :=
  forAll l (fun x s => match x.2.2 with
    | some v => if x.1.val < geoRanks s ∧ x.2.1 < geoDevs s then ixPut (PHY c) (rIx x.1 (base + x.2.1)) 0 w v s else s
    | none => s) s

/-- Every device returns a valid count (11 R334). -/
def oscPass (s : State) (l : List (Fin 2 × Nat × Nat)) : Option TrnFail :=
  ((ranksOf s).flatMap fun r => (List.range (geoDevs s)).map fun d => (r, d)).findSome? fun x =>
    if l.any fun y => y.1.val = x.1 && y.2.1 = x.2 && decide (16 ≤ y.2.2) && decide (y.2.2 ≤ 65535) then none else some (9, some x.2, none)

/-- The most restrictive value that the devices of the ranks report (11 R338). -/
def leastOf (s : State) (l : List DevId) (f : DevId → Nat) : Nat :=
  ((l.filter fun d => d.rank.val < geoRanks s && d.dev < geoDevs s).map f).foldl min 511

/-- IDENT writes the refresh-management values, and programs the devices: write CRC, and the read-training pattern with the seeds of lanes 0 and 1 (11 R338). -/
def identEffect (c : Fin 16) (l : List DevId) (s : State) : State :=
  let imt := leastOf s l DevId.imt
  let mmt := leastOf s l DevId.mmt
  let s := fset (CH c) CH_RAA_IMT imt (fset (CH c) CH_RAA_MMT mmt (fset (CH c) CH_RAA_REFDEC (Config.refDec imt mmt) s))
  updPhy c (fun y => { y with
    wcrc := fbit s (CH c) CH_ALERTCFG_WCRC_EN, rdSeed0 := ixBits s (PHY c) 0x1800 0 31, rdSeed1 := ixBits s (PHY c) 0x1801 0 31 }) s

/-- The DQS transmit delays found by WLVL, kept within the window that the DDR5 standard allows (11 R336). -/
def keepDqs (l : List (Fin 2 × Nat × Option Nat)) : List (Fin 2 × Nat × Option Nat) :=
  l.map fun x => (x.1, x.2.1, x.2.2.map fun v => max Config.dqsLow (min v Config.dqsHigh))

/-- The codes of DRAM DFE taps 2 to 4 that DFE finds: units 320, 352 and 384 on (11 R328). -/
def putTaps (c : Fin 16) (l : List Eye) (s : State) : State :=
  updPhy c (fun y => { y with dfeTaps := l.foldl (fun t e =>
    if 320 ≤ e.unit ∧ e.unit < 416 ∧ (e.unit - 320) % 32 < geoDevs s ∧ e.rank.val < geoRanks s ∧ 0 < e.width then
      tblSet (fun _ => 0) t ((e.unit - 320) / 32 * 36 + e.rank * 18 + (e.unit - 320) % 32) (e.centre % 64) else t) y.dfeTaps }) s

/-- The host DFE of every pair is adapted to values that the spec leaves to the adaptation. -/
def adaptDfe (c : Fin 16) (s : State) : State :=
  if !fbit s (PHY c) PHY_CTL_HDFE_EN then s else
    forAll (ranksOf s) (fun r s => forAll (List.range (geoDevs s)) (fun p s =>
      let (f, s) := takeFree s
      ixSet (PHY c) (rIx r (0x180 + p)) (BitVec.ofNat 32 (f % 64 + f / 64 % 64 * 2 ^ 8 + f / 4096 % 64 * 2 ^ 16 + f / 262144 % 64 * 2 ^ 24)) s) s) s

/-- Every line of every rank holds the all-zero line (11 R337). The lines of queue-cache frames are in the Waystation and keep their data (08 R259, log 24). -/
def zeroFill (c : Fin 16) (s : State) : State :=
  let kept := s.que.frames.flatMap fun f => ((List.range 32).filter fun k => bitOf f.2.valid.toNat k).filterMap fun k =>
    (placeOf s (cellLineNo s f.2.block k)).bind fun p => if p.ch = c then some (p.lam, dramLine s c p.lam) else none
  forAll kept (fun x => setDram c x.1 x.2) (updChan c (fun y => { y with psnAll := false, psnTwin := false, psn := [] }) (dramClear c s))

/-- The controls as they stand are the trained values (11 R345, R349). -/
def keepTrained (c : Fin 16) (s : State) : State :=
  forAll (ranksOf s) (fun r s =>
    let s := forAll (List.range 72) (fun b s =>
      let s := ixPut (PHY c) (rIx r (0x80 + b)) 16 9 (ixBits s (PHY c) (rIx r (0x80 + b)) 0 9) s
      updPhy c (fun y => { y with rxTrained := tblSet (fun _ => 0) y.rxTrained (r * 72 + b) (ixBits s (PHY c) (rIx r b) 0 7) }) s) s
    forAll (List.range (geoDevs s)) (fun p s => ixPut (PHY c) (rIx r (0x160 + p)) 16 7 (ixBits s (PHY c) (rIx r (0x160 + p)) 0 7) s) s) s

/-- Training has succeeded: the channel is READY (11 R337); a lost channel that is being restored goes on to its poison fill (10 R305). -/
def trainDone (c : Fin 16) (s : State) : State :=
  let s := keepTrained c (updPhy c (fun y => { y with trn := none, trnHold := false, trnEnd := false, sweep := false, valid := true }) s)
  let s := fset (PHY c) PHY_SWP_STATUS_BUSY 0 (fset (PHY c) PHY_TRN_STATUS_BUSY 0 (fset (PHY c) PHY_TRN_STATUS_DONE 1 s))
  let s := if (s.chan c).restoring then s else setChState c 2 (zeroFill c s)
  emit "train_done" [("ch", .n c), ("rate", .n (chMts s c)), ("rd_min", .n (s.phy c).rdMin), ("wr_min", .n (s.phy c).wrMin)] s

/-- What a step that passes leaves in the settings file. -/
def stepEffect (c : Fin 16) (k : Nat) (a : StepAns) (s : State) : State :=
  match k, a with
  | 2, .ca l => forAll (caPins s) (fun i s => match eyeOf l 0 i with
      | some e => ixPut (PHY c) (0x800 + i) 0 8 e.centre s
      | none => s) s
  | 3, .ca l =>
    let put := fun (u0 : Nat) (t : List (Nat × Nat)) => l.foldl (fun t e =>
      if u0 ≤ e.unit ∧ e.unit < u0 + geoDevs s then tblSet (fun _ => 0) t (e.rank * 18 + (e.unit - u0)) e.centre else t) t
    updPhy c (fun y => { y with vrefCa := put 128 y.vrefCa, vrefCs := put 160 y.vrefCs }) s
  | 4, .ident l => identEffect c l s
  | 5, .found l => applyFound c (keepDqs l) 0x120 10 s
  | 6, .found l => applyFound c l 0x140 14 s
  | 7, .eyes l => adaptDfe c (recordEyes c l 0 (applyEyes c l 0 72 0 0 7 s))
  | 8, .eyes l => recordEyes c l 0 (applyEyes c l 128 18 0x160 0 7 (applyEyes c l 0 72 0 0 7 s))
  | 9, .eyes l => recordEyes c l 8 (applyEyes c l 0 72 0x80 0 9 s)
  | 10, .eyes l => recordEyes c l 8 (applyEyes c l 128 18 0x1A0 0 8 (applyEyes c l 0 72 0x80 0 9 s))
  | 11, .eyes l => putTaps c l (recordEyes c l 8 (applyEyes c l 288 18 0x1A0 12 6 (applyEyes c l 256 18 0x1A0 8 4 s)))
  | 12, .osc l => forAll l (fun x s => if x.1.val < geoRanks s ∧ x.2.1 < geoDevs s then ixPut (PHY c) (rIx x.1 (0x1C0 + x.2.1)) 0 16 x.2.2 s else s) s
  | 13, .skew rr ww rw wr => fset (PHY c) PHY_TURN_RR rr (fset (PHY c) PHY_TURN_WW ww (fset (PHY c) PHY_TURN_RW rw (fset (PHY c) PHY_TURN_WR wr s)))
  | 14, .check rd wr _ _ _ _ _ => updPhy c (fun y => { y with rdMin := minEye s rd, wrMin := minEye s wr }) s
  | _, _ => s

/-- A step's verdict (11 R334): none where the answer is not one to this step, so that the step goes on; else whether and how it fails. -/
def stepVerdict (s : State) (c : Fin 16) (k : Nat) (a : StepAns) : Option (Option TrnFail) :=
  match k, a with
  | 1, .reset ok => some (if ok then none else some (1, none, none))
  | 2, .ca l => some (pinsPass s c l)
  | 3, .ca l => some (caDevsPass s c l)
  | 4, .ident l => some (identPass s l)
  | 5, .found l => some (foundPass s l 4)
  | 6, .found l => some (foundPass s l 5)
  | 7, .eyes l => some (bitsPass s l (rdMinP s c) 6)
  | 8, .eyes l => some ((bitsPass s l (rdMinP s c) 6).or (devsPass s l 128 (vrefMin s c) 8))
  | 9, .eyes l => some (bitsPass s l (wrMinP s c) 7)
  | 10, .eyes l => some ((bitsPass s l (wrMinP s c) 7).or (devsPass s l 128 (vrefMin s c) 8))
  | 11, .eyes l => some (bitsPass s l (wrMinP s c) 7)
  | 12, .osc l => some (oscPass s l)
  | 13, .skew rr ww rw wr => some (if rr < 16 ∧ ww < 16 ∧ rw < 16 ∧ wr < 16 then none else some (10, none, none))
  | 14, .check rd wr ca vref devs lvl gate =>
    some ((pinsPass s c ca).or ((caDevsPass s c ca).or ((identPass s devs).or ((foundPass s lvl 4).or ((foundPass s gate 5).or ((bitsPass s rd (rdMinP s c) 6).or
      ((devsPass s vref 128 (vrefMin s c) 8).or ((bitsPass s wr (wrMinP s c) 7).or (devsPass s vref 160 (vrefMin s c) 8)))))))))
  | 15, .fill => some none
  | _, _ => none

/-- The step after one that has passed: a manual session goes from IDENT to OSC, and a channel that is being restored skips FILL (11 R337, R339). -/
def stepNext (k : Nat) (manual restoring : Bool) : Option Nat :=
  if manual ∧ k = 4 then some 12
  else if 15 ≤ k ∨ (restoring ∧ k = 14) then none
  else some (k + 1)

/-- One answer is given to the step in progress. -/
def trainStep (c : Fin 16) (a : StepAns) (s : State) : State :=
  match (s.phy c).trn with
  | none => s
  | some (_, manual) =>
    let k := fget s (PHY c) PHY_TRN_STATUS_STEP
    if (s.phy c).trnHold then s else
      match stepVerdict s c k a with
      | none => s
      | some (some f) => trainFail c f s
      | some none =>
        let s := stepEffect c k a s
        if manual ∧ k = 1 ∧ !(s.phy c).trnEnd then updPhy c (fun y => { y with trnHold := true }) s
        else match stepNext k manual (s.chan c).restoring with
          | none => trainDone c s
          | some k' => fset (PHY c) PHY_TRN_STATUS_STEP k' (updPhy c (fun y => { y with trn := some (s.ns, manual) }) s)

/-- The answers are given in order. -/
def trainRun (c : Fin 16) (l : List StepAns) (s : State) : State := forAll l (trainStep c) s

/-- Training begins with RESET, at the rate of CHn_CTL (11 R334, 09 R289); the channel PLL locks. -/
def trainBegin (c : Fin 16) (manual : Bool) (s : State) : State :=
  let s := updPhy c (fun y => { y with trn := some (s.ns, manual), trnManualAt := s.ns, trnHold := false, trnEnd := false, valid := false }) s
  let s := updChan c (fun y => { y with trnRate := rateCode s c }) s
  fsetBit GLB GLB_CLKSTAT_CH_LOCK c.val true (fset (PHY c) PHY_TRN_STATUS_BUSY 1 (fset (PHY c) PHY_TRN_STATUS_STEP 1 s))

/-- A channel may be trained (11 R334, R350). -/
def trainable (s : State) (c : Fin 16) : Bool := (chState s c == 0 || chState s c == 2 || chState s c == 8) && !inMap s c

/-- A `train` verb or a START, in full or manual mode. -/
def trainStart (c : Fin 16) (manual : Bool) (ans : List StepAns) (s : State) : State :=
  trainRun c ans (trainBegin c manual (setChState c 1 s))

/-- END ends a manual session that is held (11 R339). -/
def trainEnd (c : Fin 16) (ans : List StepAns) (s : State) : State :=
  trainRun c ans (fset (PHY c) PHY_TRN_STATUS_STEP 4 (updPhy c (fun y => { y with trnHold := false, trnEnd := true, trn := some (s.ns, true) }) s))

/-- Training ends because time has run out, or because a reset strikes it (11 R335). -/
def trainAbort (c : Fin 16) (reason : Nat) (s : State) : State := trainFail c (reason, none, none) s

/-! ### Sweeps (11 R331 to R333) -/

/-- The helpers work: the channel is in TRAINING (11, "Helpers"). -/
def helperOn (s : State) (c : Fin 16) : Bool := chState s c == 1

/-- A helper START outside TRAINING is discarded. -/
def wrRej (c : Fin 16) (s : State) : State := fset (PHY c) PHY_STATUS_WR_REJ 1 s

/-- A sweep starts. -/
def sweepStart (c : Fin 16) (s : State) : State :=
  if helperOn s c then fset (PHY c) PHY_SWP_STATUS_BUSY 1 (updPhy c (fun y => { y with sweep := true }) s) else wrRej c s

/-- Where a control's values stand: index of the first unit, number of units, index of the first entry, its bits (11 R349); none of the CA and CS_N pins, which are not per rank. -/
def ctrlPlace (k : Nat) : Option (Nat × Nat × Nat × Nat) :=
  match k with
  | 0 => some (72, 0x000, 0, 7)
  | 1 => some (72, 0x080, 0, 9)
  | 2 => some (18, 0x120, 0, 10)
  | 3 => some (18, 0x140, 0, 14)
  | 4 => some (18, 0x160, 0, 7)
  | 5 => some (18, 0x1A0, 0, 8)
  | 8 => some (18, 0x1A0, 8, 4)
  | 9 => some (18, 0x1A0, 12, 6)
  | _ => none

/-- The results of a sweep for one unit (11 R349). -/
def sweepResult (c : Fin 16) (u : Nat) (e : Option (Nat × Nat)) (s : State) : State :=
  match e with
  | some (l, r) =>
    ixSet (PHY c) (0x2000 + u) (BitVec.ofNat 32 (l % 2 ^ 14 + r % 2 ^ 14 * 2 ^ 16))
      (ixSet (PHY c) (0x2100 + u) (BitVec.ofNat 32 ((l + r) / 2 % 2 ^ 14 + (r - l + 1) % 2 ^ 14 * 2 ^ 16)) s)
  | none => ixPut (PHY c) (0x2100 + u) 16 14 0 s

/-- The units that a sweep of a control reports. -/
def ctrlUnits (s : State) (k : Nat) : List Nat :=
  match ctrlPlace k with
  | some p => if p.1 = 72 then List.range 72 else List.range (geoDevs s)
  | none => if k = 6 then List.range 7 else if k = 7 then csPins s else []

/-- The bits by which a unit is judged: its own, or those of the strobe pair or device (log 136). -/
def unitBits (s : State) (k u : Nat) : List Nat :=
  match ctrlPlace k with
  | some p => if p.1 = 72 then [u] else (List.range 72).filter fun b => bitDev s b = u
  | none => [u]

/-- The widest run of points at which a unit passes. -/
def unitEye (s : State) (k u : Nat) (l : List (Nat × List Bool)) : Option (Nat × Nat) :=
  widestRun (l.map fun x => (x.1, (unitBits s k u).all fun b => (x.2[b]?).getD true))

/-- The centre of a unit is applied. -/
def applyCentre (c : Fin 16) (k r u v : Nat) (s : State) : State :=
  match ctrlPlace k with
  | some (_, base, lo, w) => ixPut (PHY c) (rIx r (base + u)) lo w v s
  | none => ixPut (PHY c) (0x800 + u) 0 8 v s

/-- A sweep ends with the bursts that it received at its points (11 R333). -/
def sweepDone (c : Fin 16) (got : List Probe) (s : State) : State :=
  if !(s.phy c).sweep then s
  else if !helperOn s c then fset (PHY c) PHY_SWP_STATUS_BUSY 0 (updPhy c (fun y => { y with sweep := false }) s)
  else
    let k := fget s (PHY c) PHY_SWP_CTL_CTRL
    let r := fget s (PHY c) PHY_SWP_CTL_RANK
    let ps := sweepPoints s c
    let s := onlyIf (fget s (PHY c) PHY_SWP_CTL_SRC == 1) (sweepWrite c r (ps.length * fget s (PHY c) PHY_SWP_CNT_BURSTS)) s
    let (l, s) := sweepScan c got ps 0 s
    let s := forAll (ctrlUnits s k) (fun u s => sweepResult c u (unitEye s k u l) s) s
    let s := if !fbit s (PHY c) PHY_SWP_CTL_APPLY then s else
      forAll (ctrlUnits s k) (fun u s => match unitEye s k u l with
        | some e => applyCentre c k r u ((e.1 + e.2) / 2) s
        | none => s) s
    fset (PHY c) PHY_SWP_STATUS_BUSY 0 (fset (PHY c) PHY_SWP_STATUS_DONE 1 (updPhy c (fun y => { y with sweep := false }) s))

/-- The answer of a `train ... sweep` that has ended (11 R350): the number of units, the least WIDTH, and the first unit that has it; or that the channel has left TRAINING. -/
def sweepAnswer (c : Fin 16) (ended : Bool) (s : State) : OutLn :=
  if !ended then erLn 461 "helper refused" [("ch", .n c), ("state", .s (chWord (chState s c)))]
  else
    let units := ctrlUnits s (fget s (PHY c) PHY_SWP_CTL_CTRL)
    let width := fun (u : Nat) => (ixGet s (PHY c) (0x2100 + u)).toNat / 2 ^ 16 % 2 ^ 14
    let w := (units.map width).foldl min 0x3FFF
    okLn [("ch", .n c), ("bits", .n units.length), ("min_width", .n w), ("worst_bit", .n ((units.find? fun u => width u = w).getD 0))]

/-- The console's line that waits for a sweep is answered. -/
def sweepReply (c : Fin 16) (ended : Bool) (s : State) : State :=
  if s.con.wait = some (.sweep c) then answer [sweepAnswer c ended s] { s with con := { s.con with wait := none } } else s

/-- An argument of the sweep form that is out of its range. -/
def sweepBad (f : SweepForm) : Option OutLn :=
  let bad := fun (l : List (String × Nat × Nat × Nat)) => l.find? fun x => decide (x.2.1 < x.2.2.1 ∨ x.2.2.2 < x.2.1)
  (bad [("ctrl", f.ctrl, 0, 9), ("rank", f.rank, 0, 1), ("src", f.src, 0, 2), ("first", f.first, 0, 0x3FFF), ("last", f.last, 0, 0x3FFF),
    ("step", f.step, 0, 63), ("bursts", f.bursts, 0, 0xFFFF)]).map fun x => erLn 106 "out of range" [("arg", .s x.1), ("min", .n x.2.2.1), ("max", .n x.2.2.2)]

/-- `train ... sweep` writes the sweep registers and starts the sweep (11 R350). -/
def sweepVerb (c : Fin 16) (f : SweepForm) (s : State) : State :=
  let p := PHY c
  let s := fset p PHY_SWP_CTL_CTRL f.ctrl (fset p PHY_SWP_CTL_RANK f.rank (fset p PHY_SWP_CTL_SRC f.src (fsetB p PHY_SWP_CTL_APPLY f.app s)))
  let s := fset p PHY_SWP_RANGE_FIRST f.first (fset p PHY_SWP_RANGE_LAST f.last (fset p PHY_SWP_STEP_STEP f.step (fset p PHY_SWP_CNT_BURSTS f.bursts s)))
  let s := sweepStart c s
  { s with con := { s.con with wait := some (.sweep c) } }

/-! ### Proofing pauses (11 R341 to R346) -/

/-- INT_US in ns, held to at least 32 us. -/
def intNs (s : State) (c : Fin 16) : Nat := max 32 (fget s (PHY c) PHY_PROOF_INT_US) * 1000

def PauseKind.rank : PauseKind → Fin 2
  | .timing r => r
  | .vref r => r

/-- The number of a kind and rank: as PHYn_STATUS.NEXT (11 R347). -/
def PauseKind.no : PauseKind → Fin 4
  | .timing r => if r.val = 0 then 0 else 1
  | .vref r => if r.val = 0 then 2 else 3

/-- The pause that PHYn_STATUS.NEXT names; on a one-rank channel those of rank 1 do not come. -/
def nextPause (s : State) (c : Fin 16) : PauseKind :=
  match fget s (PHY c) PHY_STATUS_NEXT with
  | 0 => .timing 0
  | 1 => if geoRanks s = 2 then .timing 1 else .vref 0
  | 2 => .vref 0
  | _ => if geoRanks s = 2 then .vref 1 else .timing 0

/-- The number of the pause after one. -/
def pauseAfter (s : State) (k : PauseKind) : Nat :=
  if geoRanks s = 2 then (k.no.val + 1) % 4 else if k.isVref then 0 else 2

/-- PROOF_PAUSE_DUE (11 R341). -/
def pauseDue (c : Fin 16) (s : State) : State :=
  let y := s.phy c
  if !chanRuns s c ∨ flushOn s ∨ !fbit s (PHY c) PHY_CTL_PROOF_EN ∨ y.due.isSome ∨ y.active.isSome then s else
    let s := advanceToNs (y.lastNs + intNs s c) s
    updPhy c (fun y => { y with due := some s.ns, mustRun := false, lateCounted := false, held := false }) s

/-- The bucket holds a pause, or the short-bucket conditions hold (09 R288, 11 R341); a pause that an alert has stopped waits for the bucket (10 R314). -/
def pauseRoom (s : State) (c : Fin 16) : Bool :=
  decide (1100 * 16 ≤ (s.chan c).bkPause) || (!(s.phy c).fullNext && unclaimed s c && (s.chan c).line.isEmpty)

/-- A pause that the ledger has held back beyond INT_US is counted, once (11 R348). -/
def noteLate (c : Fin 16) (s : State) : State :=
  let y := s.phy c
  match y.due with
  | some t => if y.held ∧ t + intNs s c < s.ns ∧ !y.lateCounted then fbump (PHY c) PHY_LATE_COUNT (updPhy c (fun y => { y with lateCounted := true }) s) else s
  | none => s

/-- A due pause stops column issue (11 R341), unless the ledger holds it back. -/
def pauseStop (c : Fin 16) (s : State) : State :=
  let y := s.phy c
  let stop := fun (s : State) => updPhy c (fun y => { y with stopped := true, forced := y.mustRun }) (stopIdle c (noteLate c s))
  if y.due.isNone ∨ y.stopped ∨ !pauseRoom s c then s
  else if y.mustRun then stop s
  else if allowed s 0 then stop (spendAllow 0 s)
  else noteLate c (updPhy c (fun y => { y with held := true }) s)

/-- PROOF_PAUSE_START (11 R341, R342); in an entry to DOZE or BANKED a due pause is dropped (11 R346). -/
def pauseStart (c : Fin 16) (s : State) : State :=
  if !chanRuns s c ∨ entering s ∨ flushOn s ∨ (s.phy c).active.isSome then s else
    let s := pauseStop c s
    if !(s.phy c).stopped ∨ ((s.chan c).flight.any Flight.window) ∨ (s.chan c).replay.isSome ∨ (s.bist.phyRun[c]).isSome then s else
      let k := nextPause s c
      let s := closeBanks c (fun b => b / 32 = k.rank.val) (exitPd c k.rank (entryStop c s))
      deferAll c (updPhy c (fun y => { y with active := some (k, s.d8), due := none, mustRun := false, fullNext := false }) s)

/-- A limit on how far a control may stand from its trained value. -/
def clampAdj (lim : Nat) (trained : Nat) (want : Int) : Int := max ((trained : Int) - lim) (min ((trained : Int) + lim) want)

/-- A clamped adjustment of a device is reported, at most once per second (11 R345). -/
def driftLim (c : Fin 16) (r d : Nat) (steps : Int) (s : State) : State :=
  let s := fset (PHY c) PHY_STATUS_DRIFT_LIM 1 s
  let k := r * 18 + d
  match (s.phy c).driftAt.find? fun x => x.1 = k with
  | some (_, t) =>
    if s.ns < t + 1000000000 then s else
      emit "phy_drift" [("ch", .n c), ("rank", .n r), ("dev", .n d), ("steps", .s (toString steps))]
        (updPhy c (fun y => { y with driftAt := (y.driftAt.filter fun x => x.1 ≠ k) ++ [(k, s.ns)] }) s)
  | none =>
    emit "phy_drift" [("ch", .n c), ("rank", .n r), ("dev", .n d), ("steps", .s (toString steps))]
      (updPhy c (fun y => { y with driftAt := y.driftAt ++ [(k, s.ns)] }) s)

/-- A control moves to a wanted value, within MAXADJ of its trained value and within its range. -/
def adjust (c : Fin 16) (r d i w trained : Nat) (want : Int) (cnt : Fld) (s : State) : State :=
  let lim := fget s (PHY c) PHY_PROOF2_MAXADJ
  let cur := ixBits s (PHY c) i 0 w
  let v := clampAdj lim trained want
  let s := if v = want then s else driftLim c r d (want - trained) s
  let v := (max 0 (min ((2 : Int) ^ w - 1) v)).toNat
  if v = cur then s else fbump (PHY c) cnt (ixPut (PHY c) i 0 w v s)

/-- The step of R343: up, down or none, by errors at the minus and the plus point. -/
def probeStep (minus plus : Bool) : Int := if minus && !plus then 1 else if plus && !minus then -1 else 0

/-- The bits with errors at the three probe points of a pause. -/
structure PauseErr where
  minus : BitVec 72
  centre : BitVec 72
  plus : BitVec 72
  deriving DecidableEq, Repr, Inhabited

/-- The offset of a kind's probe points: GUARD steps or VGUARD codes, with 0 read as 1 (11 R342, R347). -/
def guardOf (s : State) (c : Fin 16) (k : PauseKind) : Int :=
  (max 1 (fget s (PHY c) (if k.isVref then PHY_PROOF_VGUARD else PHY_PROOF_GUARD)) : Nat)

/-- The three probe points of a pause are compared (11 R342 step 4). -/
def pauseProbe (c : Fin 16) (k : PauseKind) (res : PauseRes) (s : State) : PauseErr × State :=
  let g := guardOf s c k
  let (a, s) := probeAt c res.points (-g) s
  let (b, s) := probeAt c res.points 0 s
  let (d, s) := probeAt c res.points g s
  (⟨a, b, d⟩, s)

/-- The adjustments of the timing kind, for every bit. -/
def adjustTiming (c : Fin 16) (r : Nat) (res : PauseErr) (s : State) : State :=
  forAll (List.range 72) (fun b s =>
    let st := probeStep (bitOf res.minus.toNat b) (bitOf res.plus.toNat b)
    if st = 0 then s else
      adjust c r (bitDev s b) (rIx r b) 7 (tblGet (fun _ => 0) (s.phy c).rxTrained (r * 72 + b)) ((ixBits s (PHY c) (rIx r b) 0 7 : Int) + st) PHY_ADJ_RD_COUNT s) s

/-- The errors of a strobe pair's bits. -/
def pairHit (s : State) (m : BitVec 72) (p : Nat) : Bool := (List.range 72).any fun b => bitDev s b = p && bitOf m.toNat b

/-- The adjustments of the Vref kind, for every pair. -/
def adjustVref (c : Fin 16) (r : Nat) (res : PauseErr) (s : State) : State :=
  forAll (List.range (geoDevs s)) (fun p s =>
    let i := rIx r (0x160 + p)
    let st := probeStep (pairHit s res.minus p) (pairHit s res.plus p)
    if st = 0 then s else
      adjust c r p i 7 (ixBits s (PHY c) i 16 7) ((ixBits s (PHY c) i 0 7 : Int) + st) PHY_ADJ_VREF_COUNT s) s

/-- S of 11 R344: round((I - I0) / step). With I = T / (2N), and a step of 1/64 of a UI, which is 1/128 of a DRAM CK cycle, this is round(64 R (N0 - N) / (N N0)), R being OSC_RUN. Halves round away from zero. -/
def driftSteps (run n0 n : Nat) : Int :=
  if n0 = 0 ∨ n = 0 then 0 else
    let num : Int := 64 * run * ((n0 : Int) - n)
    let den : Int := n * n0
    if 0 ≤ num then (2 * num + den) / (2 * den) else -((2 * (-num) + den) / (2 * den))

/-- The drift adjustment of a rank (11 R344). -/
def adjustDrift (c : Fin 16) (r : Nat) (res : PauseRes) (s : State) : State :=
  let run := match fget s (PHY c) PHY_PROOF2_OSC_RUN with
    | 0 => 256
    | 1 => 512
    | _ => 1024
  forAll (List.range (geoDevs s)) (fun d s =>
    match (res.counts[d]?).getD none with
    | none => fbump (PHY c) PHY_OSC_BAD_COUNT s
    | some n =>
      let i := rIx r (0x1C0 + d)
      let s := ixPut (PHY c) i 16 16 n s
      if n < 16 ∨ 65535 < n then fbump (PHY c) PHY_OSC_BAD_COUNT s
      else if !fbit s (PHY c) PHY_CTL_DRIFT_EN then s
      else
        let st := driftSteps run (ixBits s (PHY c) i 0 16) n
        forAll ((List.range 72).filter fun b => bitDev s b = d) (fun b s =>
          let j := rIx r (0x80 + b)
          let t := ixBits s (PHY c) j 16 9
          adjust c r d j 9 t ((t : Int) + st) PHY_ADJ_WR_COUNT s) s) s

/-- Centre errors are counted, and repeated ones reported (11 R343). -/
def centreErrs (c : Fin 16) (k : PauseKind) (res : PauseErr) (s : State) : State :=
  let was := (s.phy c).centre[k.no]
  let s := fbumpN (PHY c) PHY_CENTRE_ERR_COUNT (popCount 72 res.centre.toNat) s
  let s := forAll ((List.range 72).filter fun b => bitOf res.centre.toNat b && bitOf was.toNat b) (fun b s =>
    emit "phy_margin" [("ch", .n c), ("rank", .n k.rank.val), ("bit", .n b)] (fset (PHY c) PHY_STATUS_MARGIN 1 s)) s
  updPhy c (fun y => { y with centre := y.centre.set k.no res.centre }) s

/-- The probe points of a pause and their evaluation: read and drift adjustments (11 R342 steps 4 and 5). -/
def pauseEval (c : Fin 16) (k : PauseKind) (res : PauseRes) (s : State) : State :=
  let r := k.rank.val
  let (e, s) := pauseProbe c k res s
  centreErrs c k e (adjustDrift c r res (if k.isVref then adjustVref c r e s else adjustTiming c r e s))

/-- The end of a pause is recorded. -/
def pauseOver (c : Fin 16) (k : PauseKind) (s : State) : State :=
  let s := fset (PHY c) PHY_LASTPAUSE_END_NS (s.ns % 2 ^ 32) (fset (PHY c) PHY_STATUS_NEXT (pauseAfter s k) (fbump (PHY c) PHY_PAUSES_COUNT s))
  updChan c (fun y => { y with pauseAborts := 0 }) (updPhy c (fun y => { y with lastNs := s.ns }) s)

/-- A channel that waited for its pause to end enters self-refresh, and re-locks where the channels may run already (11 R346, 17 R499). -/
def parkNow (c : Fin 16) (s : State) : State :=
  let s := selfRefresh c s
  updPhy c (fun y => { y with parkDue := false, relock := !s.pwr.halted && s.pwr.warm != .noClock }) s

/-- What follows a pause: the entry to self-refresh that it held up, or the refreshes (11 R346). -/
def afterPause (c : Fin 16) (s : State) : State := if (s.phy c).parkDue then parkNow c s else refreshOwed c s

/-- PROOF_PAUSE_END (11 R342 to R346). -/
def pauseEnd (c : Fin 16) (res : PauseRes) (s : State) : State :=
  match (s.phy c).active with
  | none => s
  | some (k, at8) =>
    if s.pwr.mode ≠ .run then s else
      let len := pauseLen s c k
      let s := advanceTo8 (at8 + chCk8 s c len) s
      let s := pausePay c len (pauseEval c k res s)
      afterPause c <| stopUntil c s.d8 (updPhy c (fun y => { y with active := none, stopped := false }) (pauseOver c k (updChan c (fun y => { y with rankUsed8 := y.rankUsed8.set k.rank s.d8 }) s)))

/-- PAUSE_HOLDBACK_EXPIRY (12 R356, 11 R341): after 4 INT_US the pause must start. -/
def pauseHoldback (c : Fin 16) (s : State) : State :=
  match (s.phy c).due with
  | none => s
  | some t => if (s.phy c).stopped ∨ !chanRuns s c then s else
      let s := advanceToNs (t + 4 * intNs s c) s
      noteLate c (updPhy c (fun y => { y with mustRun := true, held := y.held || !allowed s 0 }) s)

/-! ### Power-down (09 R286) -/

/-- A proofing pause for a rank is due, or falls due by an instant: the next pause is of that rank. -/
def pauseSoon (s : State) (c : Fin 16) (r : Fin 2) (soon : Nat) : Bool :=
  (nextPause s c).rank == r && ((s.phy c).due.isSome || (fbit s (PHY c) PHY_CTL_PROOF_EN && decide (((s.phy c).lastNs + intNs s c) * 8 ≤ soon)))

/-- Patrol scrub of a rank is due, or falls due by an instant: the next line is of that rank, and the bucket holds a line by then. -/
def scrubSoon (s : State) (c : Fin 16) (r soon : Nat) : Bool :=
  fbit s (CH c) CH_ECCCFG_SCRUB_EN && allowed s 2 && decide ((bankOf s (fget s (CH c) CH_SCRUB_POS)).rank = r)
    && (decide (16 ≤ (s.chan c).bkScr) || (decide (s.perEnd * 8 ≤ soon) && decide (16 ≤ (s.chan c).bkScr + min (fget s (CH c) CH_BGSCR_RATE) (bgRate (mtsOf (s.chan c).trnRate) 1))))

/-- RANK_POWER_DOWN (09 R286). An RFM falls due only with an ACT, so none falls due later in an idle rank. -/
def execRankPowerDown (ch : Fin 16) (rank : Fin 2) (s : State) : Host.Outcome State Fault Refusal :=
  .next (
    let idle := fget s (CH ch) CH_PD_IDLE
    let y := s.chan ch
    let busy := (y.intake ++ y.mergeQ ++ y.line ++ y.flight.map Flight.cmd).any fun x => (bankOf s x.line).rank = rank.val
    if !chanRuns s ch ∨ geoRanks s ≤ rank.val ∨ idle = 0 ∨ busy ∨ y.pd[rank] ∨ y.replay.isSome ∨ (s.phy ch).active.isSome ∨ (s.bist.phyRun[ch]).isSome then s else
      let s := advanceTo8 (y.rankUsed8[rank] + chCk8 s ch idle) s
      let soon := s.d8 + ck8 s ch (fget s (CH ch) CH_TIM3_TXP + fget s (CH ch) CH_TIM3_TPD)
      if y.refAt8[rank] ≤ soon ∨ (y.mr4At + pollNs s ch) * 8 ≤ soon ∨ pauseSoon s ch rank soon ∨ scrubSoon s ch rank.val soon ∨ !(rfmBanks s ch rank.val).isEmpty then s else
        let s := fsetBit (CH ch) CH_STATUS_RANK_PD rank.val true (fbump (CH ch) CH_PDENT_COUNT s)
        pushHist ch .pde rank.val 0 0 s.d8 (updChan ch (fun y => { y with pd := y.pd.set rank true, pdAt8 := y.pdAt8.set rank s.d8 }) s))

/-! ### Entering service (09 R275, 11 R340) -/

/-- A channel becomes IN_SERVICE: its refresh intervals, its MR4 polls and its pauses begin. -/
def enterService (c : Fin 16) (s : State) : State :=
  let s := setChState c 3 s
  let iv := refInterval8 s c
  let d := s.d8
  let n := s.ns
  let s := updChan c (fun y => { y with
    refAt8 := Vector.replicate 2 (d + iv), refDebt := Vector.replicate 2 0, mr4At := n, idleFrom8 := d, rankUsed8 := Vector.replicate 2 d,
    pd := Vector.replicate 2 false, rows := [], lost := false, restoring := false }) s
  updPhy c (fun y => { y with lastNs := n, due := none, stopped := false, active := none, mustRun := false, relock := false }) s

/-- RELOCK_DONE (11 R340): TXS, one REFab for each rank with its TRFC1, one pause of each kind for each rank, and the channel is in service again; a row that self-test had displaced is restored (13 R382), a ring that waits is replayed (01 R36), and a channel outside the map is READY again (17 R502). The channel's PLL has locked (02 R64, 14 R412). After DOZE the first MR4 poll is due at once (14 R409). -/
def relockDone (c : Fin 16) (res : List PauseRes) (s : State) : State :=
  if !(s.phy c).relock ∨ s.pwr.mode ≠ .run ∨ (s.phy c).active.isSome ∨ s.pwr.halted then s else
    let kinds : List PauseKind := if geoRanks s = 2 then [.timing 0, .vref 0, .timing 1, .vref 1] else [.timing 0, .vref 0]
    let s := elapse (ck8 s c (fget s (CH c) CH_TIM6_TXS)) (fsetBit GLB GLB_CLKSTAT_CH_LOCK c.val true s)
    let s := refreshAll c s
    let s := elapse (ck8 s c (fget s (CH c) CH_TIM5_TRFC1)) s
    let s := forAll kinds.zipIdx (fun x s =>
      let s := elapse (chCk8 s c (pauseLen s c x.1)) s
      let s := match res[x.2]? with
        | some r => pauseEval c x.1 r s
        | none => s
      let s := fbumpN (PHY c) PHY_PAUSE_CYC_COUNT (pauseLen s c x.1) s
      pauseOver c x.1 (charge 0x0D (pauseLen s c x.1) none s)) s
    let s := if inMap s c then
        (if s.pwr.dozeExit.isSome then updChan c (fun y => { y with mr4At := 0 }) (enterService c s) else enterService c s)
      else setChState c 2 (updPhy c (fun y => { y with relock := false, lastNs := s.ns }) s)
    let s := if (s.chan c).replayDue then fsetBit JRN JRN_STATUS_RING_ACT c.val true (fset JRN JRN_STATUS_REPLAY_ACTIVE 1 s) else s
    let s := match s.bist.dram[c] with
      | some x => if x.ph == .copy then s else dropSlice c s
      | none => s
    horizonCheck s

/-! ### Map load (09 R273 to R276) -/

/-- The rank over GF(2) of rows, by the columns below `n`. -/
def gfRank : Nat → List Nat → Nat
  | 0, _ => 0
  | j + 1, rows =>
    match rows.find? fun r => bitOf r j with
    | none => gfRank j rows
    | some p => 1 + gfRank j ((rows.erase p).map fun r => if bitOf r j then Nat.xor r p else r)

/-- The masks restricted to the target bits form an invertible matrix. -/
def masksRegular (l : List Nat) : Bool := gfRank l.length (l.map fun m => m % 2 ^ l.length) == l.length

/-- The masks of a hash, judged (09 R273): out of range, or singular with a reason of its own. -/
def maskCheck (width sing : Nat) (l : List Nat) : Option Nat :=
  if l.any fun m => decide (2 ^ width ≤ m) then some 6 else if masksRegular l then none else some sing

/-- The channels that a load takes as members. -/
def mapMembers (s : State) : List (Fin 16) := allChans.filter fun c => chState s c == 2 && !bitOf (fget s GLB GLB_MAP_EXCL_EXCL) c.val

/-- The first check of 09 R275 that fails. -/
def mapCheck (s : State) : Option Nat :=
  let ms := mapMembers s
  if mapLoaded s then some 1
  else if !(listedMans s).isEmpty then some 2
  else if ms.isEmpty then some 3
  else
    (maskCheck 37 4 ((List.range 4).map (chMask s))).or
      ((maskCheck (rowB s + rowBits s) 5 ((List.range (bkTargets s)).map (bkMask s))).or
        (if 8 < fget s GLB GLB_MAP_TWIN_EIGHTHS ∨ (0 < fget s GLB GLB_MAP_TWIN_EIGHTHS ∧ !ms.any fun c => c.val < 8 && ms.contains (partnerOf c)) then some 7 else none))

def mapReason (k : Nat) : String :=
  match k with
  | 1 => "loaded" | 2 => "manifest" | 3 => "nochannel" | 4 => "chsingular" | 5 => "banksingular" | 6 => "range" | _ => "twin"

/-- A load or a map write is refused. -/
def mapRefuse (k : Nat) (s : State) : State := fset GLB GLB_MAP_CTL_REASON k (fset GLB GLB_MAP_CTL_REJ 1 s)

/-- A member enters service with its capacity and its background regulators (05 R145, 09 R287). -/
def mapMember (c : Fin 16) (s : State) : State :=
  let r := mtsOf (s.chan c).trnRate
  let s := fset MAN (MAN_CHCAP_NOMINAL.nth c) (nominalC s c) (enterService c s)
  let set2 := fun (rate depth : Fld) (x n : Nat) (s : State) => fset (CH c) rate x (fset (CH c) depth n s)
  let s := set2 CH_BGMIG_RATE CH_BGMIG_DEPTH (bgRate r 9) 64 (set2 CH_BGSCR_RATE CH_BGSCR_DEPTH (bgRate r 1) 16
    (set2 CH_BGBST_RATE CH_BGBST_DEPTH (bgRate r 4) 64 (set2 CH_BGPAUSE_RATE CH_BGPAUSE_DEPTH (pauseRate r) 1100 s)))
  updChan c (fun y => { y with bkMig := 16 * 64, bkScr := 16 * 16, bkBst := 16 * 64, bkPause := 16 * 1100, bstDepth := 64, scrubStart := s.ns }) s

/-- A write of 1 to GLB_MAP_CTL.LOAD: the state after it, and the reason of a refusal (09 R275). -/
def mapLoad (s : State) : State × Option Nat :=
  match mapCheck s with
  | some k => (mapRefuse k s, some k)
  | none =>
    let ms := mapMembers s
    let mask := (ms.map fun c => 2 ^ c.val).sum
    let s := fset GLB GLB_MAP_MEMBERS_MEMBERS mask (fset GLB GLB_MAP_MEMBERS_COUNT ms.length (fset GLB GLB_MAP_CTL_LOADED 1 s))
    let s := fset GLB GLB_MAP_MEMBERS_PAIRS ((pairedChans s).length / 2) s
    let top := topLines s
    let base := if twinE s = 0 then top else ordLines s
    let s := fset GLB GLB_MAP_TOP_TOP_MB (top / 8192) (fset GLB GLB_MAP_TWINBASE_BASE_MB (base / 8192) s)
    let s := forAll ms mapMember s
    let s := emit "map_loaded" [("members", .h mask 4), ("count", .n ms.length), ("pairs", .n ((pairedChans s).length / 2)),
      ("top", .a (top * 128) 11), ("twinbase", .a (base * 128) 11)] s
    (cycPatrolBegin (cycBegin (horizonCheck s)), none)

/-! ### Commands -/

/-- PROOF_PAUSE_DUE (11 R341). -/
def execProofPauseDue (ch : Fin 16) (s : State) : Host.Outcome State Fault Refusal := .next (pauseDue ch s)

/-- PROOF_PAUSE_START (11 R342). -/
def execProofPauseStart (ch : Fin 16) (s : State) : Host.Outcome State Fault Refusal := .next (pauseStart ch s)

/-- PROOF_PAUSE_END (11 R343). -/
def execProofPauseEnd (ch : Fin 16) (res : PauseRes) (s : State) : Host.Outcome State Fault Refusal := .next (pauseEnd ch res s)

/-- PAUSE_HOLDBACK_EXPIRY (12 R356). -/
def execPauseHoldbackExpiry (ch : Fin 16) (s : State) : Host.Outcome State Fault Refusal := .next (pauseHoldback ch s)

/-- MAP_LOAD (09 R275). -/
def execMapLoad (s : State) : Host.Outcome State Fault Refusal := .next (if blockOn s GLB then (mapLoad s).1 else s)

/-- TRAIN_START (11 R334, R339, R350): the `train` verb. -/
def execTrainStart (ch : Fin 16) (manual : Bool) (ans : List StepAns) (s : State) : Host.Outcome State Fault Refusal :=
  .next (runVerb1 (fun s =>
    if !trainable s ch then (s, erLn 460 "training refused" [("ch", .n ch), ("state", .s (chWord (chState s ch)))])
    else (trainStart ch manual ans s,
      okLn ([("ch", .n ch), ("state", .s "training")] ++ (if manual then [("step", .s "reset")] else [])))) s)

/-- TRAIN_END (11 R339): the `train` verb with `end`. -/
def execTrainEnd (ch : Fin 16) (ans : List StepAns) (s : State) : Host.Outcome State Fault Refusal :=
  .next (runVerb1 (fun s =>
    if !(s.phy ch).trnHold then (wrRej ch s, erLn 461 "helper refused" [("ch", .n ch), ("state", .s (chWord (chState s ch)))])
    else (trainEnd ch ans s, okLn [("ch", .n ch), ("state", .s "training")])) s)

/-- TRAINING_COMPLETE (11 R337): the steps that are left are answered; at the end of FILL the channel is READY. -/
def execTrainingComplete (ch : Fin 16) (ans : List StepAns) (s : State) : Host.Outcome State Fault Refusal :=
  .next (if s.pwr.mode = .run then trainRun ch ans s else s)

/-- TRAINING_STEP_TIMEOUT (11 R335): FILL has no limit, and a held session has its own. -/
def execTrainingStepTimeout (ch : Fin 16) (s : State) : Host.Outcome State Fault Refusal :=
  .next (match (s.phy ch).trn with
    | none => s
    | some (t, _) => if (s.phy ch).trnHold ∨ fget s (PHY ch) PHY_TRN_STATUS_STEP = 15 ∨ !dtimeRuns s then s
        else trainAbort ch 11 (advanceToNs (t + 50000000) s))

/-- MANUAL_TRAINING_TIMEOUT (11 R339). -/
def execManualTrainingTimeout (ch : Fin 16) (s : State) : Host.Outcome State Fault Refusal :=
  .next (match (s.phy ch).trn with
    | some (_, true) => if (s.phy ch).trnEnd ∨ !dtimeRuns s then s else trainAbort ch 11 (advanceToNs ((s.phy ch).trnManualAt + 10000000000) s)
    | _ => s)

/-- SWEEP_START (11 R333): a write of PHYn_SWP_CTL.START, or the verb, whose line waits for the sweep. -/
def execSweepStart (ch : Fin 16) (form : Option SweepForm) (s : State) : Host.Outcome State Fault Refusal :=
  .next (match form with
    | none => busWr (PHY ch) (sweepStart ch) s
    | some f =>
      if !consoleOn s || !s.con.ans.isEmpty || sleepBusy s then s else
        match (s.con.line.bind (lineErr (strictMode s))).or (sweepBad f) with
        | some e => answer [e] s
        | none =>
          if !blockOn s (PHY ch) then answer [erLn 204 "domain off" [("addr", .a (PHY ch + PHY_SWP_CTL_START.off) 8), ("dom", .s ("ch" ++ toString ch.val))]] s
          else if helperOn s ch then sweepVerb ch f s
          else answer [sweepAnswer ch false s] (wrRej ch s))

/-- SWEEP_DONE (11 R333). -/
def execSweepDone (ch : Fin 16) (eyes : List Probe) (s : State) : Host.Outcome State Fault Refusal :=
  .next (let ended := (s.phy ch).sweep && helperOn s ch
    sweepReply ch ended (sweepDone ch eyes s))

/-- COMPARE_CLEAR (11 R332). -/
def execCompareClear (ch : Fin 16) (s : State) : Host.Outcome State Fault Refusal := .next (busWr (PHY ch) (fun s => if helperOn s ch then compareClear ch s else wrRej ch s) s)

end Sys2Proof.Machine
end

