-- ==== Sys2Proof/Machine/Bist.lean ====
section
/-! DEFINITION. In-service self-test: Waystation, DRAM, PHY and lane slices, their coverage and their fault log (13 R370 to R393). -/

namespace Sys2Proof.Machine

/-! ### Starting a slice (13 R370, R371) -/

/-- The added power of each target in mW. -/
def wayMw : Nat := 1200
def dramMw : Nat := 120
def phyMw : Nat := 90
def laneMw : Nat := 100

/-- BUDGET_US of a DRAM slice, held to at least 120, in ns. -/
def dramBudgetNs (s : State) : Nat := max 120 (fget s BST BST_DRAM_BUDGET_US) * 1000

/-- The budget of a PHY slice in ns, rounded up. -/
def phyBudgetNs (s : State) (c : Fin 16) : Nat := cdiv (chCk8 s c 1100) 8

/-- The self-test item of the ledger holds a slice's energy; its allowance is kept in nJ (12 R355). -/
def sliceAllowed (s : State) (nj : Nat) : Bool :=
  match s.led.allow[3] with
  | none => true
  | some n => decide (nj ≤ n)

/-- Why a slice of a power and a budget cannot start, as far as every target shares it. None starts in an entry to DOZE or BANKED (13 R372). -/
def sliceGate (s : State) (mw ns : Nat) (lane : Bool) : Option String :=
  if !coreRuns s || entering s then some "state"
  else if !lane && !(fbit s WAY WAY_STATUS_COMMITTED && mapLoaded s) then some "state"
  else if fget s LED LED_STATUS_LEVEL ≠ 0 || !sliceAllowed s (mw * ns / 1000) then some "ledger"
  else if decide (fget s BST BST_STAG_PMAX_MW < sliceMw s + mw)
      || (match s.bist.lastStart with
          | some t => decide (s.ns < t + fget s BST BST_STAG_GAP_NS)
          | none => false) then some "stagger"
  else none

/-- The ledger delays a start: it is counted once (13 R391). -/
def noteWait (t u : Nat) (s : State) : State :=
  if s.bist.waitSeen.contains (t, u) then s else
    fbump BST BST_WAITLED_COUNT { s with bist := { s.bist with waitSeen := s.bist.waitSeen ++ [(t, u)] } }

/-- A due start that cannot be made waits; the ledger's part in it is counted. -/
def waitFor (t u : Nat) (why : Option String) (s : State) : State := onlyIf (why == some "ledger") (noteWait t u) s

/-- A slice of unit `u` of target `t` starts: the spacing of starts and the ledger's allowance. -/
def sliceStart (t u mw ns : Nat) (s : State) : State :=
  { s with
    bist := { s.bist with lastStart := some s.ns, waitSeen := s.bist.waitSeen.filter fun x => x ≠ (t, u) },
    led := { s.led with allow := s.led.allow.set 3 ((s.led.allow[3]).map (· - mw * ns / 1000)) } }

/-! ### The fault log and coverage (13 R387 to R392) -/

/-- An entry joins the fault log (13 R392). -/
def bistLog (e : BistEnt) (s : State) : State :=
  let e := { e with time := BitVec.ofNat 32 s.ns }
  let s := irq GLB_IRQ_STAT_BIST (fbump BST BST_FAULTS_COUNT (fset BST BST_STATUS_FAULT 1 s))
  { s with bist := { s.bist with log := tblSet (fun _ => {}) s.bist.log s.bist.head e, head := (s.bist.head + 1) % 64 } }

/-- A slice of a target has ended without stopping (13 R391). -/
def sliceDone (t : BTarget) (s : State) : State := covStat t (fbump BST (BST_SLICE_COUNT.nth (targetNo t)) s)

/-! ### Waystation slices (13 R373 to R375) -/

/-- A slice can take a frame: others are skipped, and remain due (13 R373). -/
def takeable (s : State) (f : Nat) : Bool := (s.frame false f).st == .free || (s.frame false f).st == .resident

/-- The frames that were skipped and that the next slice takes. -/
def wayDueFrames (s : State) : List Nat := (s.bist.waySkip.filter (takeable s)).take 16

/-- The tier frames of the next group: those that were skipped and can be taken now, and the next in ascending number. -/
def wayGroup (s : State) : List Nat :=
  let due := wayDueFrames s
  (due ++ (List.range (16 - due.length)).map fun k => (s.bist.wayNext + k) % tierFrames s).eraseDups

/-- A resident frame whose segment may be relocated now: no access and no write-back is on its way, so that the directory may switch (02 R59). -/
def canRelocate (s : State) (f : Nat) : Bool :=
  let x := s.frame false f
  x.wb == 0 && !(s.wayOps.any fun o => !o.pinned && o.frame = f) && !segBusy s x.seg true && x.thenFill.isNone && !x.thenRetire

/-- FREE frames beyond TIER_RSV. -/
def freeBeyond (s : State) : Nat := freeTier s - fget s WAY WAY_TIERRSV_RSV

/-- The lowest FREE frame outside a group. -/
def freeOutside (s : State) (g : List Nat) : Option Nat :=
  let used := (s.way.tier.filter fun f => f.2.st != .free).map (·.1) ++ g
  ((List.range (used.length + 1)).find? fun k => !used.contains k).bind fun k => if k < tierFrames s then some k else none

/-- One frame of the group is taken. -/
def takeTest (g : List Nat) (f : Nat) (s : State) : State :=
  let x := s.frame false f
  match x.st with
  | .free => setFrame false f { st := .test } s
  | .resident =>
    match freeOutside s g with
    | none => s
    | some d =>
      let s := forAll (List.range 16) (fun i s => setWayLine (frameLine s false d i) (wayLine s (frameLine s false f i)) s) s
      setFrame false f { st := .test } (setFrame false d x s)
  | _ => s

/-- Why a WAY slice cannot start now. -/
def waySliceBad (s : State) : Option String :=
  if s.bist.way.isSome then some "state"
  else match sliceGate s wayMw 2000 false with
    | some r => some r
    | none =>
      if waySelfUse s ≠ 0 then some "state"
      else if freeBeyond s < 16 then some "frames"
      else if (wayGroup s).any fun f => (s.frame false f).st == .resident && !canRelocate s f then some "frames"
      else none

/-- WAY_SLICE_START: the frames are taken and the march begins; a frame that is FILLING, LEAVING, PINNED, RETIRED or TEST already is skipped and stays due. The slice holds the four self-test slots of the Waystation's arbiter (13 R370). -/
def waySliceGo (s : State) : State :=
  let g := wayGroup s
  let fit := g.filter (takeable s)
  let skip := g.filter fun f => !takeable s f
  let next := (s.bist.wayNext + (16 - (wayDueFrames s).length)) % tierFrames s
  let s := sliceStart 0 0 wayMw 2000 (forAll fit (takeTest g) s)
  let mine := fit.filter fun f => (s.frame false f).st == .test
  let s := { s with bist := { s.bist with
    way := some { frames := mine, running := true, at8 := s.d8 }, wayNext := next, waySkip := (s.bist.waySkip.filter fun f => !g.contains f) ++ skip } }
  fset BST BST_STATUS_WAY_RUN 1 s

/-- INT_US of WAY slices in ns, held to at least 10 us. -/
def wayIntNs (s : State) : Nat := max 10 (fget s BST BST_WAY_INT_US) * 1000

def waySliceStart (s : State) : State :=
  if !coreRuns s || !fbit s BST BST_CTL_WAY_EN || s.bist.way.isSome then s else
    let s := advanceToNs s.bist.wayDue s
    if (waySliceBad s).isSome then waitFor 0 0 (waySliceBad s) s
    else
      let s := { s with bist := { s.bist with wayDue := s.ns + wayIntNs s } }
      waySliceGo s

/-- The stream record that a line of the system carve-out belongs to, in the order of R196's table: journal, staging lines, stream records. -/
def lineStream (w : Nat) : Option (Fin 4 × BitVec 12) :=
  if 172032 ≤ w ∧ w < 303104 then some (Fin.ofNat 4 ((w - 172032) / 8 / 4096), BitVec.ofNat 12 ((w - 172032) / 8)) else none

/-- The journal copies that a line of the journal rings holds: the ring, whether it is copy B, and the first of its four slots. Line w lies in macro group w mod 4, where the copies A of rings g, g + 4, g + 8 and g + 12 come before the copies B (01 R17, log 23). -/
def lineJournal (w : Nat) : Fin 16 × Bool × Nat :=
  let j := w / 4096
  if j < 4 then (Fin.ofNat 16 (w % 4 + 4 * j), false, w / 4 % 1024 * 4) else (Fin.ofNat 16 ((w + 2) % 4 + 4 * (j - 4)), true, w / 4 % 1024 * 4)

/-- Read-scrub finds a line of the journal rings bad: the entries in it are written again from their other copy (01 R539). -/
def scrubJournal (w : Nat) (s : State) : State :=
  let (c, b, k) := lineJournal w
  let l := ((List.range 4).map (k + ·)).filter fun slot => (getEntry s c slot).isSome
  if l.isEmpty then fbump WAY WAY_UE_COUNT s
  else forAll l (fun slot s => (actOn [⟨c, BitVec.ofNat 12 slot, !b, b⟩] c slot false s).1) s

/-- Read-scrub finds line i of the queue-cache carve-out's fixed area bad (08 R240, R257). DESIGN CHOICE (log 64): the descriptors stand first, two to a line, and behind them the frames' copies of records, two to a line; which half of the line is bad is a free value, and a line of what follows is only counted. A queue with a bad descriptor, or a bad record that only a TAIL or FULL frame holds, becomes FAULTED; a HEAD or PREF frame with a bad record is retired, and its block's record is read from DRAM. -/
def scrubFixed (i : Nat) (s : State) : State :=
  let s := fbump WAY WAY_UE_COUNT s
  let (v, s) := takeFree s
  if i < 65536 then queueFault (2 * i + v % 2) 1 "record" s
  else
    let f := 2 * (i - 65536) + v % 2
    let x := s.qfr f
    if qFrameTotal s ≤ f then s else
      match x.role with
      | .head | .pref => evict (freeQFrame f (setQfr f { x with thenRetire := true } s))
      | .tail | .full => queueFault x.queue 1 "record" (setBrec x.block { s.brec x.block with bad := true } s)
      | .free | .retired => s

/-- An uncorrectable error that read-scrub found in a line (13 R374, 07 R210, 08 R257). -/
def scrubUe (w : Nat) (s : State) : State :=
  let s := bistLog { target := 0, kind := 2, what := w } s
  let s := emit "bist_fault" [("target", .s "way"), ("line", .n w)] s
  if w < queLine0 then
    if w < 32768 then scrubJournal w s
    else match lineStream w with
    | some (p, t) => recordError p t s
    | none => fbump WAY WAY_UE_COUNT s
  else if w < walkLine0 s then
    let f := (w - queLine0) / 32
    let i := (w - queLine0) % 32
    if qFrameTotal s ≤ f then scrubFixed (w - queLine0 - qFrameTotal s * 32) s
    else if bitOf (s.qfr f).valid.toNat i ∧ (s.qfr f).role ≠ .free ∧ (s.qfr f).role ≠ .retired then
      evict (frameCell f i .uncorrectable none s).2
    else fbump WAY WAY_UE_COUNT s
  else if w < pinLine0 s then walkUe (w - walkLine0 s) s
  else
    let f := (w - pinLine0 s) / 16
    let i := (w - pinLine0 s) % 16
    match (s.frame true f).st with
    | .pinned | .leaving => frameUe true f i s
    | _ => fbump WAY WAY_UE_COUNT s

/-- What read-scrub found in the k-th line of the slice. -/
def scrubLine (x : Nat × LineEcc) (s : State) : State :=
  if 256 ≤ x.1 then s else
    match x.2 with
    | .clean => s
    | .corrected => fbump WAY WAY_CE_COUNT s
    | .uncorrectable => scrubUe ((s.bist.scrub + x.1) % scrubLines s) s

/-- A frame's march has ended. -/
def marchEnd (bad : List Nat) (f : Nat) (s : State) : State :=
  let s := forAll (List.range 16) (fun i s => setWayLine (frameLine s false f i) 0 s) s
  if bad.contains f then
    let s := bistLog { target := 0, kind := 1, what := f, action := 1 } s
    retireTier f (emit "bist_fault" [("target", .s "way"), ("frame", .n f)] s)
  else
    let s := setFrame false f {} s
    if s.bist.cycWay.contains f then s else { s with bist := { s.bist with cycWay := f :: s.bist.cycWay } }

/-- WAY_SLICE_END (13 R374, R375): the march and the read-scrub of 256 lines take the slice's budget of 2 us. -/
def waySliceEnd (bad : List Nat) (scrub : List (Nat × LineEcc)) (s : State) : State :=
  match s.bist.way with
  | none => s
  | some x =>
    if !coreRuns s then s else
      let s := advanceTo8 (x.at8 + 16000) s
      let s := { s with bist := { s.bist with way := none } }
      let s := uncharged (fun s => forAll scrub scrubLine (forAll x.frames (marchEnd bad) s)) s
      let s := { s with bist := { s.bist with scrub := (s.bist.scrub + 256) % scrubLines s, cycScrub := min (scrubLines s) (s.bist.cycScrub + 256) } }
      sliceDone .way (fset BST BST_STATUS_WAY_RUN 0 s)

/-- A WAY slice stops (13 R372): its frames return to FREE, holding zero data. -/
def stopWay (s : State) : State :=
  match s.bist.way with
  | none => s
  | some x =>
    let s := forAll x.frames (fun f s => setFrame false f {} (forAll (List.range 16) (fun i s => setWayLine (frameLine s false f i) 0 s) s)) s
    fbump BST BST_STOP_COUNT (fset BST BST_STATUS_WAY_RUN 0 { s with bist := { s.bist with way := none } })

/-! ### DRAM slices (13 R376 to R382) -/

/-- Frames that hold the copy of a row. -/
def copyFrames (s : State) : Nat := rowLen s / 16

/-- The self-test bucket holds its full depth. -/
def bstFull (s : State) (c : Fin 16) : Bool := decide (16 * ((s.chan c).bstDepth : Int) ≤ (s.chan c).bkBst)

/-- Why a DRAM slice of a channel cannot start now. -/
def dramSliceBad (s : State) (c : Fin 16) : Option String :=
  if !inMap s c || !inService s c || (s.bist.dram[c]).isSome || (s.bist.phyRun[c]).isSome then some "state"
  else match sliceGate s dramMw (dramBudgetNs s) false with
    | some r => some r
    | none =>
      if !bstFull s c then some "bucket"
      else if fbit s (CH c) CH_SPARE_BUSY && decide (fget s (CH c) CH_SPARE_BRANK = (sliceRow s s.bist.next[c]).2.1) then some "state"
      else if wtMax s < wtUse s + rowLen s then some "account"
      else if freeBeyond s < copyFrames s then some "frames"
      else none

/-- The lowest FREE tier frames become TEST, `k` of them. -/
def lendFrames : Nat → State → List Nat × State
  | 0, s => ([], s)
  | k + 1, s =>
    match lowestFree (tierFrames s) s.way.tier with
    | none => ([], s)
    | some f =>
      let r := lendFrames k (setFrame false f { st := .test } s)
      (f :: r.1, r.2)

/-- A DRAM slice begins its copy. -/
def dramSliceGo (c : Fin 16) (s : State) : State :=
  let (fs, s) := lendFrames (copyFrames s) (sliceStart 1 c.val dramMw (dramBudgetNs s) s)
  let s := { s with
    bist := { s.bist with dram := s.bist.dram.set c (some { idx := s.bist.next[c], frames := fs, at8 := s.d8 }) },
    way := { s.way with wtHeld := s.way.wtHeld + rowLen s } }
  beginBatch c (fsetBit BST BST_STATUS_CH_RUN c.val true (wayStat s))

/-- The channel's next slice is a PHY slice (13 R383). -/
def phyTurn (s : State) (c : Fin 16) : Bool := fbit s BST BST_CTL_PHY_EN && decide (max 1 (fget s BST BST_DRAM_PHY_EVERY) ≤ s.bist.sincePhy[c])

/-- DRAM_SLICE_START: the channel's turn in the rotation is a DRAM slice. -/
def dramSliceStart (c : Fin 16) (s : State) : State :=
  if !coreRuns s || !fbit s BST BST_CTL_DRAM_EN || phyTurn s c then s
  else if (dramSliceBad s c).isSome then onlyIf (bstFull s c) (waitFor 1 c.val (dramSliceBad s c)) s
  else dramSliceGo c s

/-- A command to the row stands in the command line or has an open window. -/
def rowBusy (s : State) (c : Fin 16) (idx : Nat) : Bool :=
  let y := s.chan c
  (y.line ++ (y.flight.filter Flight.window).map Flight.cmd).any fun x => inSliceRow s idx x.line

/-- ROW_DISPLACED (13 R377): every line is copied, no copy is stale, and no command to the row is on its way: the row is displaced, and the first phase begins. `eccs` is what SEC-DED finds in the lines of the copy, in their order. At level 2 of the ledger the slice stops at this boundary (13 R382). -/
def rowDisplaced (c : Fin 16) (eccs : List LineEcc) (s : State) : State :=
  match s.bist.dram[c] with
  | none => s
  | some x =>
    if x.ph ≠ .copy ∨ !chanRuns s c ∨ !phaseOver s c x ∨ rowBusy s c x.idx then s else
    let s := forAll ((rowLams s x.idx).zip eccs) (fun e s => copyEcc c e.1 e.2 s) s
    if 2 ≤ fget s LED LED_STATUS_LEVEL then stopSlice c s
    else setPh c (.test 1 false) s

/-- The devices that hold failing DQ bits (10 R295). -/
def failDevs (s : State) (bits : BitVec 72) : List Nat := ((List.range 72).filter fun b => bitOf bits.toNat b).map (bitDev s) |>.eraseDups

/-- A phase has failed twice (13 R380, R389). -/
def phaseFail (c : Fin 16) (idx n : Nat) (bits : BitVec 72) (s : State) : State :=
  let (row, rank, _, _) := sliceRow s idx
  let devs := failDevs s bits
  let mask := BitVec.ofNat 18 ((devs.map fun d => 2 ^ d).sum)
  if n = 5 then
    forAll ((List.range 72).filter fun b => bitOf bits.toNat b) (fun b s =>
      let (f, s) := takeFree s
      let g := max 1 (fget s BST BST_DRAM_WGUARD)
      let s := bistLog { target := 1, kind := 6, unit := c, what := b + rank * 128 } s
      emit "bist_margin" [("ch", .n c), ("rank", .n rank), ("kind", .s "write"), ("unit", .n b),
        ("left", .n (if f % 3 = 1 then g else 0)), ("right", .n (if f % 3 = 2 then g else 0))] s) s
  else
    let where_ := [("target", FVal.s "dram"), ("ch", .n c), ("rank", .n rank), ("row", .h row 4)]
    match devs with
    | [d] =>
      let has := (markOf s c rank).isSome
      let s := bistLog { target := 1, kind := 3, unit := c, what := row + rank * 131072, mask := mask, action := if has then 3 else 2 } s
      let s := emit "bist_fault" (where_ ++ [("dev", .n d)]) s
      if has then markRefuse c rank d s else markDev c rank d "selftest" s
    | _ =>
      let s := bistLog { target := 1, kind := 4, unit := c, what := row + rank * 131072, mask := mask } s
      emit "bist_fault" (where_ ++ [("devmask", .h mask.toNat 5)]) s

/-- DRAM_PHASE_END (13 R379, R380): a phase whose commands have all ended is judged by the DQ bits that failed, but for those that are not compared (11 R332). -/
def dramPhaseEnd (c : Fin 16) (raw : BitVec 72) (s : State) : State :=
  let bits := comparedBits s c raw
  match s.bist.dram[c] with
  | none => s
  | some x =>
    match x.ph with
    | .test n again =>
      if !chanRuns s c || !phaseOver s c x then s else
        if bits ≠ 0 ∧ again then stopSlice c (phaseFail c x.idx n bits s)
        else
          let s := if bits = 0 ∧ again then bistLog { target := 1, kind := 5, unit := c, what := (sliceRow s x.idx).1 + (sliceRow s x.idx).2.1 * 131072 } (fbump BST BST_TRANS_COUNT s) else s
          let s := setPh c (if bits ≠ 0 then .test n true else if 5 ≤ n then .restore true else .test (n + 1) false) s
          if 2 ≤ fget s LED LED_STATUS_LEVEL then (match s.bist.dram[c] with
            | some y => if y.ph = .restore true then s else stopSlice c s
            | none => s) else s
    | _ => s

/-- ROW_RESTORED (13 R381): every restore write has left the retry buffer. -/
def rowRestored (c : Fin 16) (s : State) : State :=
  match s.bist.dram[c] with
  | none => s
  | some x =>
    match x.ph with
    | .restore ok =>
      if !chanRuns s c || !phaseOver s c x then s else
        let s := dropSlice c s
        if ok then
          sliceDone .dram { s with bist := { s.bist with cycDram := s.bist.cycDram.set c (putRun x.idx s.bist.cycDram[c]) } }
        else s
    | _ => s

/-- SLICE_BUDGET_EXPIRY (13 R382). -/
def sliceBudget (c : Fin 16) (s : State) : State :=
  match s.bist.dram[c] with
  | none => s
  | some x =>
    match x.ph with
    | .restore _ => s
    | _ => if !chanRuns s c then s else stopSlice c (advanceTo8 (x.at8 + dramBudgetNs s * 8) s)

/-! ### PHY slices (13 R383 to R385) -/

/-- Why a PHY slice of a channel cannot start now. -/
def phySliceBad (s : State) (c : Fin 16) : Option String :=
  let y := s.chan c
  if !chanRuns s c || (s.bist.dram[c]).isSome || (s.bist.phyRun[c]).isSome || (s.phy c).due.isSome || (s.phy c).active.isSome || y.replay.isSome
      || y.flight.any Flight.window then some "state"
  else match sliceGate s phyMw (phyBudgetNs s c) false with
    | some r => some r
    | none => if !bstFull s c then some "bucket" else none

/-- A PHY slice begins; a one-rank channel omits the kinds of rank 1. -/
def phySliceGo (c : Fin 16) (s : State) : State :=
  let k := s.bist.phyKind[c]
  let k := if (phyKinds s).contains k then k else k + 1
  let s := sliceStart 3 c.val phyMw (phyBudgetNs s c) s
  let r : Fin 2 := if k = 1 ∨ k = 3 then 1 else 0
  let s := if k = 4 then entryStop c s else closeBanks c (fun b => b / 32 = r.val) (exitPd c r (entryStop c s))
  deferAll c (fsetBit BST BST_STATUS_CH_RUN c.val true
    { s with bist := { s.bist with phyRun := s.bist.phyRun.set c (some s.d8), phyKind := s.bist.phyKind.set c k } })

/-- PHY_SLICE_START: after PHY_EVERY DRAM slices. -/
def phySliceStart (c : Fin 16) (s : State) : State :=
  if !coreRuns s || !phyTurn s c then s
  else if (phySliceBad s c).isSome then onlyIf (bstFull s c) (waitFor 3 c.val (phySliceBad s c)) s
  else phySliceGo c s

/-- A margin of a bit, a strobe pair or a pin: the largest passing offset on each side (13 R384). -/
structure Margin where
  unit : Nat
  left : Nat
  right : Nat
  deriving DecidableEq, Repr

/-- The margin of a unit of which a condition says whether it passes at an offset. -/
def marginOf (u : Nat) (offs : List Nat) (ok : Int → Bool) : Margin :=
  ⟨u, (offs.filter fun (o : Nat) => ok (-(o : Int))).foldl max 0, (offs.filter fun (o : Nat) => ok (o : Int)).foldl max 0⟩

/-- The offsets of a kind's probe points on each side, and the cost of a point in CK_CHn cycles (13 R384). -/
def phyOffs (k : Nat) : List Nat := if k = 4 then [16, 32] else if k ≤ 1 then [8, 16, 24] else [3, 6]
def phyCost (k : Nat) : Nat := if k = 4 then 24 else if k ≤ 1 then 156 else 212

/-- The offsets of both sides, in ascending order. -/
def bothSides (l : List Nat) : List Int := (l.reverse.map fun (o : Nat) => -(o : Int)) ++ l.map fun (o : Nat) => (o : Int)

/-- The probe points of a read kind are compared (11 R332, R342): the bits that have errors at each. -/
def probeAll (c : Fin 16) (l : List Probe) : List Int → State → List (Int × BitVec 72) × State
  | [], s => ([], s)
  | p :: ps, s =>
    let (m, s) := probeAt c l p s
    let r := probeAll c l ps s
    ((p, m) :: r.1, r.2)

/-- The precharge, the mode changes and the restore of a pause, without its oscillator run (11 R342). -/
def phyOver : Nat := 24 + 16 + 16 + 8

/-- The margins of a read kind, and the length of its slice: every bit's, or every strobe pair's. -/
def readMargins (c : Fin 16) (k : Nat) (l : List Probe) (s : State) : List Margin × Nat × State :=
  let (hits, s) := probeAll c l (bothSides (phyOffs k)) s
  let bad := fun (o : Int) => ((hits.find? fun x => x.1 = o).map (·.2)).getD 0
  let ms := if k ≤ 1 then (List.range 72).map fun b => marginOf b (phyOffs k) fun o => !bitOf (bad o).toNat b
    else (List.range (geoDevs s)).map fun p => marginOf p (phyOffs k) fun o => !pairHit s (bad o) p
  (ms, phyOver + 2 * (phyOffs k).length * phyCost k, s)

/-- The pins of the CA kind, from the first that the last slice did not reach on: CA, CAPAR and CS_N (11 R349). -/
def caTurn (s : State) (c : Fin 16) : List Nat :=
  let l := List.range 8 ++ csPins s
  l.dropWhile (· ≠ s.bist.caFirst[c]) ++ l.takeWhile (· ≠ s.bist.caFirst[c])

/-- The margins of the CA kind: pin by pin, up to the first that 1,100 cycles do not reach. After a failing point the RCD's error state is cleared, which takes a free number of cycles (log 138). -/
def caMargins (low : List (Nat × Int)) : List Nat → Nat → State → List Margin × Option Nat × Nat × State
  | [], t, s => ([], none, t, s)
  | i :: l, t, s =>
    let bad := (bothSides (phyOffs 4)).filter fun o => low.contains (i, o)
    let (t', s) := bad.foldl (fun (a : Nat × State) _ => (a.1 + (takeFree a.2).1, (takeFree a.2).2)) (t + 4 * phyCost 4, s)
    if 1100 < t' then ([], some i, 1100, s)
    else
      let r := caMargins low l t' s
      (marginOf i (phyOffs 4) (fun o => !low.contains (i, o)) :: r.1, r.2)

/-- The name of a kind. -/
def phyKindWord (k : Nat) : String := if k = 4 then "ca" else if k ≤ 1 then "rxdly" else "vref"

/-- One margin is recorded, and reported where it is below its threshold (13 R385, R392). -/
def putMargin (c : Fin 16) (k : Nat) (m : Margin) (s : State) : State :=
  let r := if k = 1 ∨ k = 3 then 1 else 0
  let i := if k = 4 then 0x2500 + c.val * 16 + m.unit else if k ≤ 1 then 0x0100 + (c.val * 2 + r) * 128 + m.unit else 0x2100 + (c.val * 2 + r) * 32 + m.unit
  let s := ixSet BST i (BitVec.ofNat 32 (m.left % 256 + m.right % 256 * 256)) s
  let th := fget s BST (if k = 4 then BST_PHY_CA_MIN else if k ≤ 1 then BST_PHY_RD_MIN else BST_PHY_VREF_MIN)
  if min m.left m.right < th then
    let s := bistLog { target := 3, kind := 6, unit := c, what := m.unit + r * 128 } s
    emit "bist_margin" [("ch", .n c), ("rank", .n r), ("kind", .s (phyKindWord k)), ("unit", .n m.unit), ("left", .n m.left), ("right", .n m.right)] s
  else s

/-- PHY_SLICE_END (13 R383, R384): the margins are recorded, the refreshes that waited issue, and the rotation moves on. -/
def phySliceEnd (c : Fin 16) (res : PhyRes) (s : State) : State :=
  match s.bist.phyRun[c] with
  | none => s
  | some t =>
    if !chanRuns s c then s else
      let k := s.bist.phyKind[c]
      let (ms, first, len, s) : List Margin × Option Nat × Nat × State :=
        if k = 4 then caMargins res.low (caTurn s c) phyOver s
        else
          let r := readMargins c k res.points s
          (r.1, none, r.2)
      let s := phyPay c len (advanceTo8 (t + chCk8 s c len) s)
      let s := forAll ms (putMargin c k) (stopUntil c s.d8 s)
      let seen := s.bist.cycPhy[c]
      let s := phyNext c { s with bist := { s.bist with
        caFirst := if k = 4 then s.bist.caFirst.set c (first.getD 0) else s.bist.caFirst,
        cycPhy := s.bist.cycPhy.set c (if seen.contains k then seen else k :: seen) } }
      refreshOwed c (sliceDone .phy (fsetBit BST BST_STATUS_CH_RUN c.val (s.bist.dram[c]).isSome s))

/-! ### Lane slices (13 R386) -/

/-- INT_US of lane slices in ns, held to at least 200 us. -/
def laneIntNs (s : State) : Nat := max 200 (fget s BST BST_LANE_INT_US) * 1000

/-- A LANE slice begins: a scan of the next lane of the trained group, of 200 us at 100 mW. -/
def laneSliceGo (p : Fin 4) (s : State) : State :=
  let s := sliceStart 4 p.val laneMw 200000 s
  fsetBit BST BST_STATUS_LANE_RUN p.val true { s with bist := { s.bist with laneRun := s.bist.laneRun.set p (some s.d8) } }

/-- The scan ends: the lane's eye is recorded, and a weak lane is logged and reported. -/
def laneSliceEnd (p : Fin 4) (t8 mv mui : Nat) (s : State) : State :=
  let g := laneGroup s p
  let s := advanceTo8 (t8 + 1600000) s
  let l := (g[s.bist.laneNext[p] % g.length]?).getD 0
  let s := { s with bist := { s.bist with
    laneRun := s.bist.laneRun.set p none, laneNext := s.bist.laneNext.set p ((s.bist.laneNext[p] + 1) % g.length),
    cycLane := if s.bist.cycLane.contains (p, l) then s.bist.cycLane else (p, l) :: s.bist.cycLane } }
  let s := fsetBit BST BST_STATUS_LANE_RUN p.val false (ixSet (HP p) (0x20 + l) (BitVec.ofNat 32 (mv % 65536 + mui % 65536 * 65536)) s)
  let s := if mv < fget s BST BST_LANE_H_MIN * 2 ∨ mui < fget s BST BST_LANE_W_MIN * 10 then
      let s := bistLog { target := 4, kind := 7, unit := p, what := l } s
      emit "bist_lane" [("port", .n p), ("lane", .n l), ("height_mv", .n mv), ("width_mui", .n mui)] s
    else s
  sliceDone .lane s

/-- LANE_SLICE: the scan that runs on the port ends with what the eye monitor found; where none runs, the next one begins when it is due (log 120). -/
def laneSlice (p : Fin 4) (mv mui : Nat) (s : State) : State :=
  if !coreRuns s then s else
    match s.bist.laneRun[p] with
    | some t => laneSliceEnd p t mv mui s
    | none =>
      if !fbit s BST BST_CTL_LANE_EN || (laneGroup s p).isEmpty then s else
        let s := advanceToNs s.bist.laneDue[p] s
        if (sliceGate s laneMw 200000 true).isSome then waitFor 4 p.val (sliceGate s laneMw 200000 true) s
        else laneSliceGo p { s with bist := { s.bist with laneDue := s.bist.laneDue.set p (s.ns + laneIntNs s) } }

/-! ### The `bist` verb (13 R393) -/

def slice480 (t : BTarget) (r : String) : OutLn := erLn 480 "slice refused" [("target", .s (targetWord t)), ("reason", .s r)]
def slice481 (t : BTarget) (u : Nat) : OutLn := erLn 481 "target unavailable" [("target", .s (targetWord t)), ("unit", .n u)]

/-- `bist run`: the next slice of a target or unit starts at once, or is refused. -/
def bistRun (t : BTarget) (unit : Option Nat) (s : State) : State × OutLn :=
  let u := unit.getD 0
  let c : Fin 16 := Fin.ofNat 16 u
  let p : Fin 4 := Fin.ofNat 4 u
  match t with
  | .way =>
    if !fbit s BST BST_CTL_WAY_EN then (s, slice481 t u)
    else match waySliceBad s with
      | some r => (s, slice480 t r)
      | none => (waySliceGo s, okLn [])
  | .dram =>
    if !fbit s BST BST_CTL_DRAM_EN ∨ 16 ≤ u ∨ !inService s c then (s, slice481 t u)
    else match dramSliceBad s c with
      | some r => (s, slice480 t r)
      | none => (dramSliceGo c s, okLn [])
  | .phy =>
    if !fbit s BST BST_CTL_PHY_EN ∨ 16 ≤ u ∨ !inService s c then (s, slice481 t u)
    else match phySliceBad s c with
      | some r => (s, slice480 t r)
      | none => (phySliceGo c s, okLn [])
  | .lane =>
    if !fbit s BST BST_CTL_LANE_EN ∨ 4 ≤ u ∨ (laneGroup s p).isEmpty then (s, slice481 t u)
    else match sliceGate s laneMw 200000 true with
      | some r => (s, slice480 t r)
      | none => if (s.bist.laneRun[p]).isSome then (s, slice480 t "state") else (laneSliceGo p s, okLn [])
  | .patrol => (s, slice481 t u)

/-- `bist show`. -/
def bistShow (t : Option BTarget) (unit : Option Nat) (s : State) : OutLn :=
  let cov := fun (k : Nat) => FVal.n (fget s BST (BST_COV_COV.nth k))
  match t with
  | none =>
    okLn [("way", cov 0), ("dram", cov 1), ("patrol", cov 2), ("phy", cov 3), ("lane", cov 4),
      ("cyc_way_ms", .n (fget s BST (BST_CYC_MS.nth 0))), ("cyc_dram_ms", .n (fget s BST (BST_CYC_MS.nth 1))), ("faults", .n (fget s BST BST_FAULTS_COUNT))]
  | some t =>
    let c : Fin 16 := Fin.ofNat 16 (unit.getD 0)
    let tail := [("slices", FVal.n (fget s BST (BST_SLICE_COUNT.nth (targetNo t)))), ("stopped", .n (fget s BST BST_STOP_COUNT)), ("trans", .n (fget s BST BST_TRANS_COUNT))]
    match t with
    | .dram =>
      let (row, rank, bg, bank) := sliceRow s s.bist.next[c]
      okLn ([("ch", .n c), ("next_row", .s ("0x" ++ String.ofList ((hexRev 40 row).reverse.map fun b => Char.ofNat b.toNat) ++ ":r" ++ toString rank ++ ":bg" ++ toString bg ++ ":b" ++ toString bank))] ++ tail)
    | _ => okLn ([("target", FVal.s (targetWord t)), ("cov", cov (targetNo t)), ("cyc_ms", .n (fget s BST (BST_CYC_MS.nth (targetNo t))))] ++ tail)

def kindWord (k : Nat) : String :=
  match k with
  | 1 => "march" | 2 => "scrub" | 3 => "device" | 4 => "multi" | 5 => "transient" | 6 => "margin" | _ => "lane"

def actionWord (k : Nat) : String := match k with | 0 => "report" | 1 => "retire" | 2 => "mark" | _ => "refused"

/-- The fields of an entry of the fault log. -/
def bistFields (s : State) (k : Nat) : List (String × FVal) :=
  let e := tblGet (fun _ => ({} : BistEnt)) s.bist.log k
  [("e", .n k), ("time", .n e.time.toNat), ("target", .s (match e.target with | 0 => "way" | 1 => "dram" | 2 => "patrol" | 3 => "phy" | _ => "lane")),
    ("kind", .s (kindWord e.kind))] ++
  (match e.kind with
    | 1 => [("frame", FVal.n e.what)]
    | 2 => [("line", .n e.what)]
    | 6 => [("ch", .n e.unit), ("rank", .n (e.what / 128)), ("unit", .n (e.what % 128))]
    | 7 => [("port", .n e.unit), ("lane", .n e.what)]
    | k => [("ch", .n e.unit), ("rank", .n (e.what / 131072)), ("row", .h (e.what % 131072) 4)] ++
      (if k = 3 then [("dev", .n (Nat.log2 e.mask.toNat))] else if k = 4 then [("devmask", .h e.mask.toNat 5)] else [])) ++
  [("action", .s (actionWord e.action))]

/-- A listing: the first entry on the `ok` line, the others on `+` lines (15 R441). -/
def listing (l : List (List (String × FVal))) : List OutLn :=
  match l with
  | [] => [okLn []]
  | x :: r => okLn x :: r.map moreLn

/-- The entries of the fault log, newest first. -/
def bistNewest (s : State) (n : Nat) : List Nat :=
  ((List.range 64).map fun k => (s.bist.head + 63 - k) % 64).filter (fun k => decide (tblGet (fun _ => ({} : BistEnt)) s.bist.log k ≠ {})) |>.take n

/-! ### Commands -/

/-- WAY_SLICE_START (13 R373). -/
def execWaySliceStart (s : State) : Host.Outcome State Fault Refusal := .next (waySliceStart s)

/-- WAY_SLICE_END (13 R374). -/
def execWaySliceEnd (bad : List Nat) (scrub : List (Nat × LineEcc)) (errs : List JournalErr) (s : State) : Host.Outcome State Fault Refusal :=
  .next (settle (waySliceEnd bad scrub (actAll errs s)))

/-- DRAM_SLICE_START (13 R376). -/
def execDramSliceStart (ch : Fin 16) (s : State) : Host.Outcome State Fault Refusal := .next (dramSliceStart ch s)

/-- ROW_DISPLACED (13 R377): `eccs` is what SEC-DED found in the lines of the copy. -/
def execRowDisplaced (ch : Fin 16) (eccs : List LineEcc) (s : State) : Host.Outcome State Fault Refusal := .next (rowDisplaced ch eccs s)

/-- DRAM_PHASE_END (13 R380). -/
def execDramPhaseEnd (ch : Fin 16) (bits : BitVec 72) (s : State) : Host.Outcome State Fault Refusal := .next (dramPhaseEnd ch bits s)

/-- ROW_RESTORED (13 R381). -/
def execRowRestored (ch : Fin 16) (s : State) : Host.Outcome State Fault Refusal := .next (rowRestored ch s)

/-- SLICE_BUDGET_EXPIRY (13 R382). -/
def execSliceBudgetExpiry (ch : Fin 16) (s : State) : Host.Outcome State Fault Refusal := .next (sliceBudget ch s)

/-- PHY_SLICE_START (13 R383). -/
def execPhySliceStart (ch : Fin 16) (s : State) : Host.Outcome State Fault Refusal := .next (phySliceStart ch s)

/-- PHY_SLICE_END (13 R384). -/
def execPhySliceEnd (ch : Fin 16) (margins : PhyRes) (s : State) : Host.Outcome State Fault Refusal := .next (phySliceEnd ch margins s)

/-- LANE_SLICE (13 R386). -/
def execLaneSlice (port : Fin 4) (mv mui : Nat) (s : State) : Host.Outcome State Fault Refusal := .next (laneSlice port mv mui s)

/-- BIST_RUN (13 R393). -/
def execBistRun (target : BTarget) (unit : Option Nat) (s : State) : Host.Outcome State Fault Refusal := .next (runVerb1 (bistRun target unit) s)

/-- BIST_SHOW (13 R393). -/
def execBistShow (target : Option BTarget) (unit : Option Nat) (s : State) : Host.Outcome State Fault Refusal :=
  .next (runVerb1 (fun s => (s, bistShow target unit s)) s)

/-- BIST_LOG (13 R392, R393). -/
def execBistLog (last : Nat) (s : State) : Host.Outcome State Fault Refusal :=
  .next (runVerb (fun s =>
    if last < 1 ∨ 64 < last then (s, [erLn 106 "out of range" [("arg", .s "last"), ("min", .n 1), ("max", .n 64)]])
    else (s, listing ((bistNewest s last).map (bistFields s)))) s)

end Sys2Proof.Machine
end

