-- ==== Sys2Proof/Machine/Ledger.lean ====
section
/-! DEFINITION. The energy ledger: windows, planning, the throttle level, the hold-up declaration (12 R351 to R363, R366 to R369). -/

namespace Sys2Proof.Machine

/-! ### Windows (12 R352 to R354) -/

/-- The budget of a window in nJ, for the CAP in force. -/
def budgetNj (cap : Nat) : Nat := cap * 2560

/-- CAP, with a value below 240 read as 240. -/
def capWord (s : State) : Nat := max 240 (fget s LED LED_CAP_CAP)

/-- The coefficients as the indirect window holds them. -/
def coefTable (s : State) : List (Nat × Nat) :=
  let l : List (Nat × Nat) := (s.ix.filter fun x => decide (ixKey LED 0 ≤ x.1 ∧ x.1 < ixKey LED 0x40)).map fun x => (x.1 - ixKey LED 0, x.2.toNat)
  l.filter fun x => x.2 ≠ coefReset x.1

/-- LEDGER_WINDOW_END: the window's energy is evaluated, and the coefficients and the CAP written take effect. -/
def windowEnd (s : State) : State :=
  if !dtimeRuns s then s else
    let s := advanceToNs (s.led.winAt + 10240) s
    let e := cdiv (s.led.opPj * 8 + s.led.stPj8) 8000
    let b := budgetNj s.led.cap
    let s := fset LED LED_WIN_E_NJ (min e (2 ^ 32 - 1)) (fmax LED LED_WINMAX_E_NJ (min e (2 ^ 32 - 1)) s)
    { s with led := { s.led with
        winAt := s.ns / 10240 * 10240, eLast := e, xLast := s.led.defPj / 1000, bLast := b, due := true,
        opPj := 0, stPj8 := 0, defPj := 0, lastMan := s.led.winMan, winMan := [],
        coef := coefTable s, cap := capWord s } }

/-! ### Planning (12 R355) -/

/-- The lines that a background bucket allows over a window of ten periods, at most at its rate at map load. -/
def bucketLines (v : Int) (rate top : Nat) : Nat := (v + 10 * min rate top).toNat / 16

/-- The background requests of an item that wait at a channel, as far as the channel's migration bucket allows them for the window (12 R355). -/
def migWork (s : State) (c : Fin 16) (k : Fin 5) : Nat :=
  min ((s.chan c).bg.filter fun b => bgItem s b.cmd = some k).length
    (bucketLines (s.chan c).bkMig (fget s (CH c) CH_BGMIG_RATE) (bgRate (chMts s c) 9))

/-- Units due or pending of each item, and a unit's energy in nJ, rounded up. -/
def planItems (s : State) : List (Nat × Nat) :=
  let l : List (Fin 16) := servChans s
  let g : Fin 16 → Fld → Nat := fun c f => fget s (CH c) f
  let fin := s.ns + 10240
  let pauses := (l.filter fun (c : Fin 16) => fbit s (PHY c) PHY_CTL_PROOF_EN && ((s.phy c).due.isSome || decide ((s.phy c).lastNs + intNs s c ≤ fin))
    && decide (1100 * 16 ≤ (s.chan c).bkPause + 10 * min (g c CH_BGPAUSE_RATE) (pauseRate (chMts s c)))).length
  let scr := ((l.filter fun (c : Fin 16) => fbit s (CH c) CH_ECCCFG_SCRUB_EN).map fun c => bucketLines (s.chan c).bkScr (g c CH_BGSCR_RATE) (bgRate (chMts s c) 1)).sum
  [(pauses, cdiv (1100 * s.coef 0x0D + geoRanks s * s.coef 0x05) 1000),
   ((l.map fun (c : Fin 16) => migWork s c 1).sum, cdiv (s.coef 0x00 + s.coef 0x03) 1000),
   (scr, cdiv (s.coef 0x02 + s.coef 0x04) 1000),
   (0, 1),
   (cdiv ((l.map fun (c : Fin 16) => migWork s c 4).sum) 16, cdiv (16 * (s.coef 0x02 + s.coef 0x01) + s.coef 0x04) 1000)]

/-- A slice that is due: its target and unit, its power in mW and its energy in nJ. -/
structure DueSlice where
  target : Nat
  unit : Nat
  mw : Nat
  nj : Nat

/-- The slices that are due or fall due in the window, in the order of the targets. -/
def slicesDue (s : State) : List DueSlice :=
  let l : List (Fin 16) := servChans s
  let on := fbit s WAY WAY_STATUS_COMMITTED && mapLoaded s
  let way := if on && fbit s BST BST_CTL_WAY_EN && s.bist.way.isNone && decide (s.bist.wayDue ≤ s.ns + 10240) then [⟨0, 0, wayMw, wayMw * 2000 / 1000⟩] else []
  let ready := l.filter fun (c : Fin 16) => on && (s.bist.dram[c]).isNone && (s.bist.phyRun[c]).isNone && bstFull s c
  let dram := if fbit s BST BST_CTL_DRAM_EN then
      (ready.filter fun c => !phyTurn s c).map fun (c : Fin 16) => ⟨1, c.val, dramMw, dramMw * dramBudgetNs s / 1000⟩ else []
  let phy := (ready.filter (phyTurn s)).map fun (c : Fin 16) => ⟨3, c.val, phyMw, phyMw * phyBudgetNs s c / 1000⟩
  let lane := if fbit s BST BST_CTL_LANE_EN then
      (allPorts.filter fun p => !(laneGroup s p).isEmpty && (s.bist.laneRun[p]).isNone && decide (s.bist.laneDue[p] ≤ s.ns + 10240)).map
        fun (p : Fin 4) => ⟨4, p.val, laneMw, laneMw * 200000 / 1000⟩ else []
  way ++ dram ++ phy ++ lane

/-- What fitting slices into a headroom has come to: the energy taken, the power that runs, the starts left, and the slices that did not fit. -/
structure Fit where
  used : Nat
  mw : Nat
  left : Nat
  late : List DueSlice

/-- As many of the due slices as fit a headroom, among those that the staggering rules let start in the window (12 R355, 13 R371). -/
def fitSlices (s : State) (h : Nat) (l : List DueSlice) : Fit :=
  l.foldl (fun a x =>
    if a.left = 0 ∨ fget s BST BST_STAG_PMAX_MW < a.mw + x.mw then a
    else if a.used + x.nj ≤ h then { a with used := a.used + x.nj, mw := a.mw + x.mw, left := a.left - 1 }
    else { a with late := a.late ++ [x] }) ⟨0, sliceMw s, 10240 / max 1 (fget s BST BST_STAG_GAP_NS) + 1, []⟩

/-- The ledger delays slices. -/
def noteLateSlices (l : List DueSlice) (s : State) : State := forAll l (fun x s => noteWait x.target x.unit s) s

/-- An item's allowance, and the headroom left by it. -/
def grantItem (h : Nat) (n e : Nat) : Nat × Nat :=
  let k := if e = 0 then n else min n (h / e)
  (k, h - k * e)

/-- The allowances for a headroom in nJ: units for the pauses, write-backs and scrub reads, nJ for the slices, lines for the fills; and the slices delayed. -/
def plan (s : State) (h : Nat) : Vector (Option Nat) 5 × List DueSlice :=
  let items := planItems s
  let it := fun k => (items[k]?).getD (0, 1)
  let (a0, h) := grantItem h (it 0).1 (it 0).2
  let (a1, h) := grantItem h (it 1).1 (it 1).2
  let (a2, h) := grantItem h (it 2).1 (it 2).2
  let fit := fitSlices s h (slicesDue s)
  let (a4, _) := grantItem (h - fit.used) (it 4).1 (it 4).2
  (#v[some a0, some a1, some a2, some fit.used, some (16 * a4)], fit.late)

/-! ### The throttle level (12 R357, R359) -/

/-- LED_CAP.HOLD, with 0 read as 1. -/
def holdWindows (s : State) : Nat := max 1 (fget s LED LED_CAP_HOLD)

/-- The level changes, with its event, and with GLB_IRQ_STAT.POWER where it rises to 4 (16 R477). -/
def setLevel (v : Nat) (s : State) : State :=
  onlyIf (v == 4 && fget s LED LED_STATUS_LEVEL == 3) (irq GLB_IRQ_STAT_POWER) <| emit "power_level" [("level", .n v), ("e_nj", .n s.led.eLast)] (fset LED LED_STATUS_LEVEL v s)

/-- The level after a window of energy `e` under the budget `b` (12 R359). -/
def judge (s : State) : State :=
  let lv := fget s LED LED_STATUS_LEVEL
  let e := s.led.eLast
  let b := s.led.bLast
  if !fbit s LED LED_CTL_THR_EN then
    let s := { s with led := { s.led with below := 0 } }
    if lv = 0 then s else setLevel 0 s
  else if b < e then
    let s := { s with led := { s.led with below := 0 } }
    if lv < 9 then setLevel (lv + 1) s
    else
      let s := irq GLB_IRQ_STAT_POWER (fset LED LED_STATUS_CAP_MISS 1 s)
      let ms := s.ns / 1000000
      if s.led.missMs = some ms then s else
        emit "power_cap_miss" [("e_nj", .n e), ("b_nj", .n b)] { s with led := { s.led with missMs := some ms } }
  else if e * 16 ≤ b * 15 then
    let n := s.led.below + 1
    if holdWindows s ≤ n then
      let s := { s with led := { s.led with below := 0 } }
      if lv = 0 then s else setLevel (lv - 1) s
    else { s with led := { s.led with below := n } }
  else { s with led := { s.led with below := 0 } }

/-- Two's complement in 32 bits. -/
def twos32 (v : Int) : Nat := (v % 2 ^ 32).toNat

/-- LEDGER_ACTION_POINT: the level is judged, the headroom is set and background work is planned into it. -/
def actionPoint (s : State) : State :=
  if !s.led.due ∨ !dtimeRuns s then s else
    let s := judge (advanceToNs (s.led.winAt + 1024) s)
    let h : Int := (s.led.bLast : Int) - ((s.led.eLast : Int) - s.led.xLast)
    let s := fset LED LED_HEAD_H_NJ (twos32 h) { s with led := { s.led with due := false } }
    if fget s LED LED_STATUS_LEVEL ≠ 0 then
      noteLateSlices (slicesDue s) { s with led := { s.led with allow := Vector.replicate 5 (some 0) } }
    else if !fbit s LED LED_CTL_PLAN_EN then { s with led := { s.led with allow := Vector.replicate 5 none } }
    else
      let (a, late) := plan s h.toNat
      noteLateSlices late { s with led := { s.led with allow := a } }

/-! ### The hold-up declaration (12 R361, R362) -/

def eLine : Nat := 1600
def pFlush : Nat := 48000
def tFixed : Nat := 20

/-- C_slow: the lowest hot-safe capacity over the map's channels. -/
def cSlow (s : State) : Nat :=
  match (members s).map fun c => capHot (mtsOf (s.chan c).trnRate) with
  | [] => 0
  | a :: l => l.foldl min a

/-- e_flush in pJ. -/
def eFlush (s : State) : Nat := cdiv (pFlush * 1024) (cSlow s) + eLine * (if fget s GLB GLB_MAP_TWIN_EIGHTHS = 0 then 1 else 2)

/-- N_hold of a declaration; below 0 where it does not even cover the fixed part. -/
def nHold (s : State) (uj us : Nat) : Int :=
  let ne : Int := ((uj : Int) - 960) * 1000000 / (eFlush s : Int)
  let nt : Int := ((us : Int) - tFixed) * (cSlow s * 1000 : Nat) / 1024
  min ne nt

/-- Σ max(DIRTY, dirty count) over open and closing manifests. -/
def dirtyNeed (s : State) : Nat := ((listedMans s).map fun m => max m.2.f.dirty (dirtyOf s (BitVec.ofNat 8 m.1))).sum

/-- The registers show the declaration in force (12 R362). -/
def holdShow (s : State) : State :=
  let (uj, us, n) := s.led.hold.getD (0, 0, 0)
  fset LED LED_HOLD_HOLD_UJ uj (fset LED LED_HOLD2_HOLD_US us (fset LED LED_NHOLD_N_HOLD n s))

/-- A declaration is refused. -/
def holdRefuse (reason : String) (need have_ : Nat) (s : State) : State × OutLn :=
  (holdShow (fset LED LED_STATUS_HOLD_REJ 1 s), erLn 470 "hold refused" [("reason", .s reason), ("need", .n need), ("have", .n have_)])

/-- A declaration is checked and takes effect, or is refused. -/
def holdApply (uj us : Nat) (s : State) : State × OutLn :=
  if !mapLoaded s then holdRefuse "nomap" 0 0 s
  else if !fbit s WAY WAY_STATUS_COMMITTED then holdRefuse "layout" 0 0 s
  else
    let n := nHold s uj us
    let wt := wtMax s
    let dm := min (n - wt).toNat 2097152
    if n < wt then holdRefuse "small" wt n.toNat s
    else if dm < dirtyNeed s then holdRefuse "dirty" (dirtyNeed s) dm s
    else
      let s := { s with led := { s.led with hold := some (uj, us, n.toNat) } }
      let s := holdShow (fset LED LED_STATUS_HOLD_OK 1 (fset MAN MAN_DIRTYMAX_LINES dm s))
      (emit "hold" [("dirtymax", .n dm)] s, okLn [("n_hold", .n n.toNat), ("dirtymax", .n dm)])

/-! ### Commands -/

/-- LEDGER_WINDOW_END (12 R353). -/
def execLedgerWindowEnd (s : State) : Host.Outcome State Fault Refusal := .next (windowEnd s)

/-- LEDGER_ACTION_POINT (12 R359). -/
def execLedgerActionPoint (s : State) : Host.Outcome State Fault Refusal := .next (actionPoint s)

/-- HOLD_APPLY (12 R362): the `ledger hold` verb, or a write of 1 to LED_HOLD2.APPLY. -/
def execHoldApply (decl : Option (Nat × Nat)) (s : State) : Host.Outcome State Fault Refusal :=
  .next (match decl with
    | some (uj, us) => runVerb1 (fun s =>
        if 2 ^ 24 ≤ uj then (s, erLn 106 "out of range" [("arg", .s "uj"), ("min", .n 0), ("max", .n (2 ^ 24 - 1))])
        else if 2 ^ 16 ≤ us then (s, erLn 106 "out of range" [("arg", .s "us"), ("min", .n 0), ("max", .n (2 ^ 16 - 1))])
        else holdApply uj us s) s
    | none => if !consoleOn s then s else if blockOn s LED then (holdApply (fget s LED LED_HOLD_HOLD_UJ) (fget s LED LED_HOLD2_HOLD_US) s).1 else domOff s)

end Sys2Proof.Machine
end

