-- ==== Sys2Proof/Machine/Reset.lean ====
section
/-! DEFINITION. Resets: the warm reset with its parking of channels and the replay of the journal, the cold start, the per-channel reset with its poison fill and copy-back, and the watchdog (01 R36 to R41, 10 R305, 17 R493 to R508). -/

namespace Sys2Proof.Machine

/-! ### Domains and causes -/

/-- The domains' names (14 R413). -/
def domName (d : Nat) : String :=
  match d with
  | 0 => "mgt" | 1 => "core" | 2 => "wayp"
  | 3 => "ch0" | 4 => "ch1" | 5 => "ch2" | 6 => "ch3" | 7 => "ch4" | 8 => "ch5" | 9 => "ch6" | 10 => "ch7" | 11 => "ch8" | 12 => "ch9"
  | 13 => "ch10" | 14 => "ch11" | 15 => "ch12" | 16 => "ch13" | 17 => "ch14" | 18 => "ch15"
  | 19 => "hp0" | 20 => "hp1" | 21 => "hp2" | _ => "hp3"

/-- The cause field of `ev reset`, by the code of GLB_RESET_CAUSE (17 R507, R508). -/
def rstWord (k : Nat) : String :=
  match k with
  | 0 => "power" | 1 => "command" | 2 => "aon" | 3 => "pin" | 4 => "command" | 5 => "watchdog" | 6 => "pll" | _ => "pfail"

/-- AON_STATUS.START. -/
def aonStart (s : State) : Nat := fget s AON AON_STATUS_START

/-- An event goes in front of the events that wait. -/
def emitFirst (head : String) (fields : List (String × FVal)) (s : State) : State :=
  irq GLB_IRQ_STAT_EVENT { s with con := { s.con with evq := (s.ns, ⟨head, fields⟩) :: s.con.evq } }

/-- The event of a reset (17 R508): the events that wait have arisen during the reset and follow it. -/
def emitReset (warm : Bool) (s : State) : State :=
  emitFirst "reset" [("kind", word2 warm "warm" "cold"), ("cause", .s (rstWord (fget s GLB GLB_RESET_CAUSE_CAUSE))), ("start", .n (aonStart s))] s

/-! ### Warm reset (17 R499) -/

/-- Step 1: GLB_RESET_CAUSE is written (17 R507). -/
def warmCause (c : RstCause) (s : State) : State :=
  fbump GLB GLB_RESET_CAUSE_WARM_CNT (fset GLB GLB_RESET_CAUSE_KIND 1 (fset GLB GLB_RESET_CAUSE_CAUSE c.code s))

/-- Step 2: a port is reset; it trains from DETECT where it is enabled and powered. Its events are discarded with the event queue. -/
def warmPort (p : Fin 4) (s : State) : State :=
  let s := updPort p (fun y => { y with intake := [], arrived := [] }) (clearPort p s)
  let s := irq GLB_IRQ_STAT_PORT_DOWN (fbump (HP p) HP_RESETS_COUNT (fset (HP p) HP_STATUS_TRN_FAIL 0 s))
  if fbit s (HP p) HP_CTL_EN && domState s (19 + p.val) == 2 then toDetect p s else setPortSt p PORT_DOWN s

/-- Every slice stops (13 R372). -/
def stopSlices (s : State) : State := forAll allPorts stopLane (forAll allChans (fun c s => stopPhy c (stopSlice c s)) (stopWay s))

/-- Step 3: a channel is parked. Its work is discarded; a running pause goes on to its end (11 R346); a training is interrupted (11 R335), and a per-channel reset is abandoned (17 R504). -/
def parkChan (c : Fin 16) (s : State) : State :=
  match chState s c with
  | 1 => trainAbort c 12 s
  | 2 | 3 => if (s.phy c).active.isSome then updPhy c (fun y => { y with parkDue := true }) (clearWork c s) else selfRefresh c (clearChan c s)
  | 5 =>
    let s := if (s.phy c).trn.isSome then trainAbort c 12 s else s
    setChState c 6 (updChan c (fun y => { y with restoring := false }) s)
  | _ => s

/-- What a frame of the tier cache or of the pinned carve-out is after a warm reset (07 R211). -/
def warmFrame (pinned : Bool) (x : Frame) : Frame :=
  match x.st with
  | .filling => {}
  | .leaving => { x with st := if pinned then .pinned else .resident, wb := 0, restarts := 0, retry := false, thenFill := none, thenTest := false }
  | _ => { x with wb := 0, reading := 0, thenFill := none, thenTest := false }

/-- What a warm reset broke off and the frames' owners still ask for begins again: write-backs that are owed or above WB_HI (05 R151, 07 R207, R208), demotions that are never abandoned, demotions for pins, and fills of enabled pin entries. `was` is the state before. -/
def warmAgain (was : State) (s : State) : State :=
  let dem := fun (pin : Bool) (f : Nat × Frame) (s : State) =>
    let off : Bool := match f.2.pin with
      | some k => !s.way.pins[k].en
      | none => false
    if f.2.st = .leaving ∧ (f.2.forced ∨ off ∨ s.way.pinQueue.any fun q => q.2 = f.2.seg) then startDemote pin f.1 f.2.forced s
    else forAll ((f.2.charge.map (·.1)).filter (wbOwed s (s.frame pin f.1))) (pushWb pin f.1) s
  let fill := fun (f : Nat × Frame) (s : State) =>
    match f.2.st, f.2.pin with
    | .filling, some k => if s.way.pins[k].en then startFill true f.1 f.2.seg none (some k) s else pinStat k s
    | _, _ => s
  forAll (listedMans s) (fun m s => wbHigh (BitVec.ofNat 8 m.1) s) (forAll was.way.pinned fill (forAll was.way.pinned (dem true) (forAll was.way.tier (dem false) s)))

/-- Queue frames whose write-back was broken off write back again, and an initialisation of the pool begins again. -/
def warmQueue (s : State) : State :=
  onlyIf (fbit s QUE QUE_STATUS_INIT_BUSY) initStart <| forAll (s.que.frames.filter fun f => f.2.role == .full || (f.2.role == .tail && f.2.evict)) (fun f s => qWriteBack f.1 s) s

/-- The tables of the Waystation at a warm reset (07 R211). -/
def warmWay (s : State) : State :=
  let was := s
  let s := forAll was.way.tier (fun f s => setFrame false f.1 (warmFrame false f.2) s) s
  let s := forAll was.way.pinned (fun f s => setFrame true f.1 (warmFrame true f.2) s) s
  let held := (allChans.filter fun c => (s.bist.dram[c]).isSome).length * rowLen s
  let s := { s with way := { s.way with wtHeld := held } }
  let s := { s with walks := s.walks.map fun w => (w.1, { w.2 with slots := w.2.slots.map fun _ => {}, ctx := 0, wanted := [] }) }
  warmQueue (warmAgain was (wayStat (fset WLK WLK_STATUS_RSVCTX 0 s)))

/-- Step 4: core and management logic are reset (17 R497, R498). Registers keep their values but for those of R498. -/
def coreReset (s : State) : State :=
  let s := rgSet (GLB + GLB_WDOG_CTL_EN.off) 0 s
  let s := fset TXN TXN_PROBE_CTL_ARM 0 (fset LED LED_STATUS_LEVEL 0 (fset SNP SNP_STATUS_BUSY 0 (fset JRN JRN_STATUS_REPLAY_DONE 0 s)))
  let s := fset JRN JRN_STATUS_REPLAY_ACTIVE 0 (fset JRN JRN_STATUS_RING_ACT 0 s)
  let s := { s with
    probe := none, guard := none, latches := [], shadow := none,
    arbs := s.arbs.map fun _ => {}, wayOps := [], caravans := [], wreads := [],
    que := { s.que with reads := [], dups := [] },
    led := { s.led with below := 0, due := false } }
  let s := strmMap (fun _ r => { r with busy := false, waiting := [], sync := r.sync.map fun y => { y with late := true } }) (acctsZero (fun _ => true) s)
  let s := forAll allPorts (fun p s => setToll p (16 * (tollBurst s p : Int)) s) s
  let s := { s with con := { s.con with
    fifo := [], buf := {}, afterCr := false, skip := false, line := none, ans := [], wait := none, after := .nothing, evLost := 0, drops := 0, tunOut := [],
    dirtyU := false, dirtyT := false, txd := [], baud := fget s CON CON_CTL_BAUD } }
  warmWay s

/-- The rings that are to be replayed (01 R36): those of the members of the map, lost or not; a lost member's ring that holds no entry is not. The counts of every ring begin anew (01 R46). -/
def markReplay (s : State) : State :=
  let s := forAll allChans (fun c => rgSet (JRN + JRN_RPL_PEND.off + 4 * c.val) 0) s
  forAll (members s) (fun c s =>
    if (s.chan c).lost ∧ (s.ring c).entries.isEmpty then s
    else updChan c (fun y => { y with replayDue := true, rplLost := 0 }) s) s

/-- Where a warm reset stands once the channels may run: at its replay while a ring waits for one, else at its end. DESIGN CHOICE (log 125): where no ring is to be replayed, neither `ev replay_done` nor JRN_STATUS.REPLAY_DONE follows. -/
def afterReset (s : State) : WarmAt := if allChans.any fun c => (s.chan c).replayDue then .replay else .idle

/-- Steps 5 and 6: the console restarts, and every channel in self-refresh leaves it and re-locks, unless the core PLL is lost (17 R500). -/
def warmGo (s : State) : State :=
  let wait := s.pwr.warm == .noClock
  let s := emitReset true { s with pwr := { s.pwr with halted := false, warm := if wait then .noClock else afterReset s } }
  if wait then s else
    forAll allChans (fun c s => onlyIf (chState s c == 4) (updPhy c (fun y => { y with relock := true })) s) s

/-- No PHY has a re-lock to make (17 R496). -/
def relockNone (s : State) : State := forAll allChans (fun c s => updPhy c (fun y => { y with relock := false }) s) s

/-- A warm reset (17 R499): steps 1 to 4, and steps 5 and 6 unless RESET_N is held low (17 R501). While CK_CORE is not on the core PLL the channels stay in self-refresh (17 R500). -/
def warmReset (c : RstCause) (s : State) : State :=
  let noClock := !s.pwr.pll
  let s := warmCause c (fset PWR PWR_STATE_SUB 0 { s with con := { s.con with evq := [] }, pwr := { s.pwr with wake := none, dozeExit := none } })
  let s := forAll allPorts warmPort s
  let s := forAll allChans parkChan (stopSlices s)
  let s := markReplay (coreReset s)
  let s := relockNone s
  let s := { s with pwr := { s.pwr with halted := true, warm := if noClock then .noClock else .replay } }
  if s.pwr.resetN then warmGo s else { s with pwr := { s.pwr with warm := .held (if noClock then .pll else c) } }

/-! ### Journal replay (01 R36 to R39, 08 R252) -/

/-- A line's result is written to its target: to the frame that holds it, else to DRAM, at both channels of the pair where both take it (01 R19, R21). -/
def replayWrite (e : JEntry) (l : Line) (s : State) : State :=
  let n := e.target.toNat / 128
  match probeLine s n, placeOf s n with
  | some (pin, f), _ =>
    let i := n % 16
    let x := s.frame pin f
    let (s, thru) := match writeCharge s e.man x i with
      | some (some tgt) =>
        (wayStat (setFrame pin f { x with charge := x.charge ++ [(i, tgt)] } (onlyIf (tgt == .account) (fbump WAY WAY_WTCNT_COUNT) s)), tgt == .account)
      | some none => (s, x.charge.any fun q => q.1 = i && q.2 == .account)
      | none => (s, true)
    frameWrite { src := .gone, man := e.man, port := e.port, pinned := pin, frame := f, line := i, wr := true, thru := thru } l s
  | none, some p =>
    let put := fun (c : Fin 16) (s : State) => writeNow c p.lam l false false (some e.man) s
    if p.twin then onlyIf (twinUp s (partnerOf p.ch)) (put (partnerOf p.ch)) (onlyIf (twinUp s p.ch) (put p.ch) s)
    else onlyIf (chanUp s p.ch) (put p.ch) s
  | none, none => s

/-- A read of replay: from the frame that holds the line, else from DRAM, with the errors that the command states (10 R296). -/
def replayRead (e : JEntry) (x : ReadErrs) (s : State) : Line × Bool × State :=
  let n := e.target.toNat / 128
  match probeLine s n, placeOf s n with
  | some _, _ =>
    let s := charge 0x00 1 (some e.man) s
    match memLine s n with
    | some (l, psn) => (l, psn, s)
    | none => (0, true, s)
  | none, some p =>
    let c := servedAt s p
    if !chanUp s c then (0, true, s) else
      match readNow c { src := .gone, line := p.lam, wr := false, man := some e.man, sym := x.sym, again := x.again } s with
      | (some (l, _), s) => (l, false, s)
      | (none, s) => (0, true, s)
  | none, none => (0, true, s)

/-- An entry's effect is durable and its outcome, where none is recorded yet, is DONE_LATE (01 R38). -/
def replayDone (c : Fin 16) (slot : Nat) (info : BitVec 64) (psn : Bool) (data : List Slot) (s : State) : State :=
  outcome c slot { late := true, info := info, poison := psn } data true
    (updEntry c slot (fun e => { e with durable := true, twinLeft := false, served := some (e.served.getD s.ns) }) s)

/-- The action of 01 R21 for one entry that still stands. -/
def replayAct (c : Fin 16) (slot : Nat) (e : JEntry) (x : ReadErrs) (s : State) : State :=
  let s := updEntry c slot (fun e => { e with rpl := true }) s
  match e.opc, e.st with
  | .rd, .pend =>
    let (l, psn, s) := replayRead e x s
    replayDone c slot 0 psn (lineSlots (if psn then 0 else l)) s
  | .walk, .pend =>
    let ks := walkAll s e.man.toNat e.target.toNat e.staged
    replayDone c slot (walkInfo ks 0 0) false (walkSlots ks) s
  | .enq, .pend => if e.recorded then s else enqApply c slot none true s
  | .deq, .pend => if e.recorded then s else deqApply c slot none [] true s
  | .enq, .rslt => replayDone c slot 0 false [] (writeQd e.target.toNat (qdOfImage e.staged (s.qd e.target.toNat)) e.man s)
  | .deq, .rslt => replayDone c slot 0 false [] (writeQd e.target.toNat (qdOfImage e.staged (s.qd e.target.toNat)) e.man s)
  | _, .pend =>
    let (l, psn, s) := replayRead e x s
    if psn then faultEntry c slot 2 c.val true s
    else
      let s := toRslt c slot l s
      match getEntry s c slot with
      | some e => replayDone c slot (if e.opc = .add then e.resp else 0) false [] (replayWrite e (slotsLine e.staged) s)
      | none => s
  | _, .rslt => replayDone c slot (if e.opc = .add then e.resp else 0) false [] (replayWrite e (slotsLine e.staged) s)
  | _, _ => s

/-- What replay has counted on a ring: entries from PEND, from RSLT, and lost. -/
structure RplCount where
  pend : Nat := 0
  rslt : Nat := 0
  lost : Nat := 0
  deriving DecidableEq, Repr

/-- A stream record shows a sequence number as accepted (02 R58): its window holds it, or, once the window is full, it lies before N. The emptied record of a stream that was set open after an error shows none (01 R30). -/
def acceptedIn (r : StreamRec) (q : BitVec 16) : Bool := (winSlot r q).isSome || (decide (32 ≤ r.win.length) && decide (32768 ≤ (q - r.n).toNat))

/-- One entry of a ring is replayed; one whose number its stream record does not show as accepted is freed without action (02 R58), but not one whose record was emptied since: it still completes (01 R30). -/
def replayEntry (errs : RplErrs) (c : Fin 16) (a : RplCount × State) (slot : Nat) : RplCount × State :=
  let s : State := a.2
  let (s, stands) := actOn errs.copies c slot true s
  if !stands then ({ a.1 with lost := a.1.lost + 1 }, s) else
    match getEntry s c slot with
    | none => (a.1, s)
    | some e =>
      if e.orphan.isNone && !acceptedIn (s.strm e.port e.stream) e.seq then
        (a.1, replan s c slot (updEntry c slot (fun e => { e with st := .free, recorded := true, durable := true, twinLeft := false }) s))
      else
      let x := (errs.reads.find? fun x => x.key = slot).getD ⟨slot, [], []⟩
      match e.st with
      | .pend => ({ a.1 with pend := a.1.pend + 1 }, replayAct c slot e x s)
      | .rslt => ({ a.1 with rslt := a.1.rslt + 1 }, replayAct c slot e x s)
      | _ => (a.1, s)

/-- A ring may be replayed now: its channel is in service, or lost, and so is the partner where TWIN entries need it (01 R19, R36, R41). -/
def replayReady (s : State) (c : Fin 16) : Bool :=
  let ok := fun (c : Fin 16) => inService s c || (s.chan c).lost || !inMap s c
  (s.chan c).replayDue && coreRuns s && ok c && (!(s.ring c).entries.any JEntry.twin || ok (partnerOf c))

/-- JOURNAL_REPLAY: a ring is replayed from its oldest entry to its newest. REPLAY_ACTIVE stands while some ring's RING_ACT does (01 R43). The last ring in service ends the replay, once (01 R47). -/
def journalReplay (c : Fin 16) (errs : RplErrs) (s : State) : State :=
  if !replayReady s c then s else
    let going := s.pwr.warm == .replay
    let r := s.ring c
    let slots := (List.range r.entries.length).map fun k => (r.head + k) % 4096
    let (n, s) := slots.foldl (replayEntry errs c) ({ lost := (s.chan c).rplLost }, s)
    let s := updChan c (fun y => { y with replayDue := false, rplLost := 0 }) (retire c s)
    let s := fset JRN (JRN_RPL_PEND.nth c) n.pend (fset JRN (JRN_RPL_RSLT.nth c) n.rslt (fsetBit JRN JRN_STATUS_RING_ACT c.val false s))
    let s := fsetB JRN JRN_STATUS_REPLAY_ACTIVE (decide (0 < fget s JRN JRN_STATUS_RING_ACT)) s
    let s := emit "replay" [("ch", .n c), ("pend", .n n.pend), ("rslt", .n n.rslt), ("lost", .n n.lost)] s
    let s := if !going || allChans.any (fun c => (s.chan c).replayDue && !(s.chan c).lost) then s
      else emit "replay_done" [] (fset JRN JRN_STATUS_REPLAY_DONE 1 { s with pwr := { s.pwr with warm := .idle } })
    settle s

/-! ### Per-channel reset (10 R305, 17 R504, R505) -/

/-- Why `reset ch=` is refused. -/
def chResetBad (s : State) (c : Fin 16) : Option String :=
  if !inMap s c then some "member"
  else
    let st := chState s c
    if replaying s || !(st == 3 || st == 6 || st == 0 || st == 8) then some "state" else none

/-- A channel's row-activation trackers are empty, and it has no limit (10 R320, 14 R395). -/
def clearTrackers (c : Fin 16) (s : State) : State :=
  let s := forAll (s.chan c).actLimit (fun m s => setAcct m.1.toNat c.val { s.acct m.1.toNat c.val with thr := 0x3FF } s) s
  let s := updChan c (fun y => { y with trk := [], raa := [], rfmDue := [], rfmAt := [], actT2 := false, actLimit := [], actT1 := [] }) s
  fset (CH c) CH_ROWSTAT_LEVEL 0 (fset (CH c) CH_ROWSTAT_LIMITED 0 (fset ARB (ARB_THRCH_LIMIT.nth c) 0 s))

/-- The channel's fields of R498, its trackers and its limits (17 R497). -/
def chResetFields (c : Fin 16) (s : State) : State :=
  fset (CH c) CH_FILL_FILL 0 (fset (CH c) CH_FILL_HWM 0 (clearTrackers c s))

/-- `reset ch=`: the channel is lost and retrains at the rate it had (17 R504 steps 1 to 4). -/
def chReset (c : Fin 16) (s : State) : State × OutLn :=
  match chResetBad s c with
  | some r => (s, erLn 494 "reset refused" [("unit", .s ("ch" ++ toString c.val)), ("reason", .s r)])
  | none =>
    let s := emit "channel_reset" [("ch", .n c), ("state", .s "start")] s
    let s := if inService s c then channelLost c "reset" 5 (stopPhy c s) else setChState c 5 (clearChan c s)
    let rate := (s.chan c).trnRate
    let s := updChan c (fun y => { y with restoring := true, resync := false }) (chResetFields c s)
    (settle (trainBegin c false (fset (CH c) CH_CTL_RATE rate s)), okLn [])

/-- POISON_FILL_DONE: every line outside the TWIN region holds the poison word, and the channel is in service again (17 R504 steps 5 and 6). TWIN lines without a good copy at the partner stay poisoned (01 R41, R42). -/
def poisonFill (c : Fin 16) (s : State) : State :=
  if !(s.chan c).restoring ∨ (s.phy c).trn.isSome ∨ chState s c ≠ 5 ∨ s.pwr.mode ≠ .run then s else
    let good := twinUp s (partnerOf c) && decide (0 < twinE s)
    let s := updChan c (fun y => { y with
      psnAll := true, psnTwin := !good || y.psnTwin, psn := if good then y.psn.filter fun l => decide (twinFirst s ≤ l) else [], resync := good }) s
    let s := enterService c s
    let s := fset (CH c) CH_REF_RATE2X 1 (fset (CH c) CH_REF_CAUSE 1 (updChan c (fun y => { y with cool := 0 }) s))
    let s := emit "refresh_rate" [("ch", .n c), ("rate", .s "2x"), ("cause", .s "readfail")] s
    horizonCheck (emit "channel_reset" [("ch", .n c), ("state", .s "done")] s)

/-- A write to a line of the TWIN region is on its way at a channel. -/
def twinBusy (s : State) (c : Fin 16) : Bool :=
  let y := s.chan c
  let t := twinFirst s
  let w := fun (x : Cmd) => decide (t ≤ x.line) && (x.wr || cmdLocks x)
  y.intake.any w || y.mergeQ.any w || y.line.any w || (y.flight.any fun f => w f.cmd) || (y.bg.any fun b => w b.cmd)

/-- The reads of the copy: every TWIN line of the partner is read there, decoded with what the channel gave for it, and written at the channel restored (12 R352). -/
def resyncReads (c : Fin 16) (errs : List ReadErrs) (s : State) : State :=
  let q := partnerOf c
  let n := chLines s - twinFirst s
  let s := charge 0x02 n none (charge 0x03 n none (fbumpN (CH q) CH_RDCMD_COUNT n (fbumpN (CH c) CH_WRCMD_COUNT n s)))
  forAll (errs.filter fun x => decide (twinFirst s ≤ x.key ∧ x.key < chLines s)) (fun x s =>
    (decodeNow q { src := .gone, line := x.key, wr := false, data := dramLine s q x.key, psn := dramPsn s q x.key, sym := x.sym, again := x.again } s).2) s

/-- TWIN_RESYNC: the partner's TWIN lines have all been read, decoded and copied (01 R41, 10 R296); a line that cannot be corrected is poisoned at both. The copy ends while no write to such a line is on its way, so that both channels hold the same lines from then on. -/
def twinResync (c : Fin 16) (errs : List ReadErrs) (s : State) : State :=
  let q := partnerOf c
  if !(s.chan c).resync ∨ !chanRuns s c ∨ !twinUp s q ∨ twinBusy s q then s else
    let s := resyncReads c errs s
    if !(s.chan c).resync ∨ !twinUp s q then s else
    let s := dramCopy q c (twinFirst s * 128) (chLines s * 128) s
    let y := s.chan q
    let s := updChan c (fun x => { x with
      resync := false, psnTwin := y.psnTwin,
      psn := (x.psn.filter fun l => decide (l < twinFirst s)) ++ y.psn.filter fun l => decide (twinFirst s ≤ l) }) s
    emit "twin_resync" [("ch", .n c)] s

/-! ### Cold start (17 R494, R497, 16 R476) -/

/-- The state of a cold start before its ramps: everything is at reset but the AON registers, the pins, the crystal and the commands that wait. -/
def coldState (c : RstCause) (start : Nat) (s : State) : State :=
  let p := s.pwr
  let s' : State := { State.reset with
    pending := s.pending, free := s.free, con := {},
    regs := (regsMap (fun a w => if AON ≤ a ∧ a < AON + 0x1000 then some w else none) s).regs,
    pwr := { mode := .off, wake := some .ramps, vinOn := p.vinOn, resetN := p.resetN, pfailN := p.pfailN, wakeN := p.wakeN, scan := p.tapIr == .other, tapIr := p.tapIr, xtal := p.xtal, brown := p.brown,
             retWait := p.retEn || p.retWait, aonQ := p.aonQ, pll := false } }
  let s' := fset AON AON_STATUS_START start (fset AON AON_STARTER_VALID 0 s')
  let s' := fsetB GLB GLB_CLKSTAT_SLOW_XTAL p.xtal s'
  fset GLB GLB_RESET_CAUSE_CAUSE c.code (fset GLB GLB_RESET_CAUSE_START start s')

/-- A ramp of a domain begins, at least 1 us after the one before it (14 R414, R417). -/
def rampStart (d : Nat) (s : State) : State :=
  let t := match s.pwr.rampAt8 with
    | some t => max s.d8 (t + 8000)
    | none => s.d8
  fset PWR (PWR_DOMSTAT_STATE.nth d) 1 { s with pwr := { s.pwr with rampAt8 := some t, ramps := s.pwr.ramps ++ [⟨d, 1, t, 0⟩] } }

/-- MAXPAR, with 0 read as 1 (14 R420). -/
def maxPar (s : State) : Nat := max 1 (fget s PWR PWR_GATECFG_MAXPAR)

/-- Waiting domains begin to ramp while fewer than MAXPAR do (14 R417); `fuel` bounds their number. -/
def rampFuel : Nat → State → State
  | 0, s => s
  | fuel + 1, s =>
    match s.pwr.rampQ with
    | [] => s
    | d :: rest => if s.pwr.ramps.length < maxPar s then rampFuel fuel (rampStart d { s with pwr := { s.pwr with rampQ := rest } }) else s

/-- Domains join those that wait to ramp. -/
def rampMore (l : List Nat) (s : State) : State := rampFuel 23 { s with pwr := { s.pwr with rampQ := s.pwr.rampQ ++ l } }

/-- A cold start begins: every gated domain ramps in ascending order (17 R494, 14 R413). -/
def coldBegin (c : RstCause) (start : Nat) (s : State) : State := rampMore (List.range 23) (coldState c start s)

/-- A cold start ends: the console runs and reports it (17 R494); a brown-out is reported at the first start after it (14 R419). -/
def coldDone (s : State) : State :=
  let brown := s.pwr.brown
  onlyIf brown (emit "brownout" []) (emitReset false { s with pwr := { s.pwr with mode := .run, wake := none, brown := false } })

/-! ### Triggers (17 R493, R501, R506, 14 R403) -/

/-- An entry that has not passed its point of no return is abandoned (14 R403). -/
def sleepAbort (cause : String) (s : State) : State :=
  emit "sleep" [("state", .s "aborted"), ("cause", .s cause)] (fset PWR PWR_STATE_SUB 0 { s with pwr := { s.pwr with entry := none } })

/-- What triggers a warm reset meets an entry to DOZE or BANKED: before the point of no return the entry is abandoned; after it the entry completes and the reset follows the exit (14 R403). During a power-fail flush it waits for the flush's own warm reset. -/
def warmTrigger (c : RstCause) (s : State) : State :=
  if s.led.pf ≠ .none then s else
    match s.pwr.mode, s.pwr.entry with
    | .run, none => warmReset c s
    | .run, some (_, _, .drain) => sleepAbort "reset" (warmReset c s)
    | .run, some (_, _, .work) => sleepAbort "reset" (warmReset c (pinRefill s))
    | .run, some _ => { s with pwr := { s.pwr with warmAfter := some c, wakeAfter := some 6 } }
    | _, _ => s

/-- The watchdog's timeout in ms, with 0 read as 1,000 (17 R507). -/
def wdogMs (s : State) : Nat := if fget s GLB GLB_WDOG_CTL_TIMEOUT_MS = 0 then 1000 else fget s GLB GLB_WDOG_CTL_TIMEOUT_MS

/-- The watchdog's count begins anew. -/
def wdogKick (s : State) : State := { s with pwr := { s.pwr with kick8 := s.d8 } }

/-- WATCHDOG_EXPIRY: TIMEOUT_MS times 64,000 cycles of CK_FIO after the last kick; how far CK_FIO is off, within 3 %, is a free value (17 R506). -/
def wdogExpire (s : State) : State :=
  if !fbit s GLB GLB_WDOG_CTL_EN ∨ s.pwr.mode ≠ .run then s else
    let (f, s) := takeFree s
    warmTrigger .watchdog (advanceTo8 (s.pwr.kick8 + wdogMs s * 8000 * (970 + f % 61)) s)

/-! ### Commands -/

/-- JOURNAL_REPLAY (01 R36). -/
def execJournalReplay (ch : Fin 16) (errs : RplErrs) (s : State) : Host.Outcome State Fault Refusal := .next (journalReplay ch errs s)

/-- POISON_FILL_DONE (10 R305). -/
def execPoisonFillDone (ch : Fin 16) (s : State) : Host.Outcome State Fault Refusal := .next (poisonFill ch s)

/-- TWIN_RESYNC (01 R41). -/
def execTwinResync (ch : CopyPick) (s : State) : Host.Outcome State Fault Refusal := .next (twinResync ch.ch ch.reads s)

/-- PER_CHANNEL_RESET (17 R504). -/
def execPerChannelReset (ch : ChPick) (s : State) : Host.Outcome State Fault Refusal := .next (runVerb1 (fun s => chReset ch.ch (actAll ch.errs s)) s)

/-- RESET_PORT (17 R503). -/
def execResetPort (port : Fin 4) (s : State) : Host.Outcome State Fault Refusal :=
  .next (runVerb1 (fun s =>
    if domState s (19 + port.val) ≠ 2 then (s, erLn 494 "reset refused" [("unit", .s ("port" ++ toString port.val)), ("reason", .s "state")])
    else (settle (portReset port "command" s), okLn [])) s)

/-- RESET_WARM (15 R449): the answer goes out first. -/
def execResetWarm (s : State) : Host.Outcome State Fault Refusal :=
  .next (runVerb1 (fun s => ({ s with con := { s.con with after := .warm } }, okLn [])) s)

/-- RESET_COLD (15 R449): the answer goes out first. -/
def execResetCold (s : State) : Host.Outcome State Fault Refusal :=
  .next (runVerb1 (fun s => ({ s with con := { s.con with after := .cold } }, okLn [])) s)

/-- WATCHDOG_EXPIRY (17 R506). -/
def execWatchdogExpiry (s : State) : Host.Outcome State Fault Refusal := .next (wdogExpire s)

/-- WATCHDOG_KICK (17 R506). -/
def execWatchdogKick (s : State) : Host.Outcome State Fault Refusal := .next (busWr GLB wdogKick s)

/-- CORE_PLL_LOCK_LOSS (17 R500, 02 R64): CK_CORE, CK_MGT and DTIME fall back to CK_FIO, and a warm reset follows. -/
def execCorePllLockLoss (s : State) : Host.Outcome State Fault Refusal :=
  .next <| if !s.pwr.pll then s else
    let s := { s with pwr := { s.pwr with pll := false } }
    let s := fset GLB GLB_CLKSTAT_CORE_LOCK 0 (fset GLB GLB_CLKSTAT_CORE_ON_PLL 0 (fset GLB GLB_CLKSTAT_MGT_ON_PLL 0
      (fset GLB GLB_CLKSTAT_DTIME_FINE 0 (fset GLB GLB_CLKSTAT_LOCK_LOSS 1 s))))
    warmTrigger .pll s

/-- WAYSTATION_CLEAR_DONE (17 R494). -/
def execWaystationClearDone (s : State) : Host.Outcome State Fault Refusal :=
  .next (if s.pwr.retWait then s else { s with way := { s.way with clearing := false } })

end Sys2Proof.Machine
end

