-- ==== Sys2Proof/Machine/Sleep.lean ====
section
/-! DEFINITION. Power states: the drain and the entry to DOZE and BANKED, the Starter store, the wake sources, the exits, and resume (14 R394 to R412, R422 to R424). -/

namespace Sys2Proof.Machine

/-! ### The Starter store and the bank image (14 R396, R397) -/

/-- A word with only its RW, WM and WG fields. -/
def keptWord (s : State) (a : Nat) : Word :=
  match regRow a with
  | none => 0
  | some (r, _) =>
    let keep := r.fields.filter fun f => f.acc == .rw || f.acc == .wm || f.acc == .wg
    BitVec.ofNat 32 (keep.map fun f => (⟨0, f.lsb, f.width⟩ : Fld).get (rg s a) * 2 ^ f.lsb).sum

/-- Words 12 to 33: the map registers, the 14 mask words, and a reserved word. -/
def starterMap (s : State) : List Word :=
  ([0x100, 0x104, 0x108, 0x10C, 0x110, 0x114, 0x118].map fun o => rg s (GLB + o))
    ++ ((List.range 8).map fun k => ixGet s GLB (0x100 + k)) ++ ((List.range 6).map fun k => ixGet s GLB (0x110 + k)) ++ [0]

/-- Words 34 to 37: baud rate, mode, echo, and the tunnel port. -/
def starterCon (s : State) : List Word :=
  [BitVec.ofNat 32 (fget s CON CON_CTL_BAUD), BitVec.ofNat 32 (fget s CON CON_CTL_MODE), BitVec.ofNat 32 (fget s CON CON_CTL_ECHO),
    BitVec.ofNat 32 (((allPorts.find? fun (p : Fin 4) => fbit s (HP p) HP_CTL_TUN_EN).map fun p => p.val).getD 0)]

/-- The 19 words of a port. -/
def starterPort (s : State) (p : Fin 4) : List Word :=
  [rg s (HP p + HP_CTL_EN.off), rg s (HP p + HP_LTMR_NAK_TMO.off), rg s (HP p + HP_LANECFG_SER_TH.off)]
    ++ (List.range 16).map fun l => ixGet s (HP p) (0x010 + l)

/-- The registers of words 114 to 159 in ascending address. -/
def starterRw : List Nat :=
  [TXN + TXN_BACKOFF_BASE_NS.off, TXN + TXN_PROBE_CTL_ARM.off, MAN + MAN_CFG_PROFILE.off, ARB + ARB_CLSOFS0_RT.off, ARB + ARB_CLSOFS1_SHARED.off,
    ARB + ARB_BOOST_GAIN.off, ARB + ARB_TOLL_RATE.off, ARB + ARB_TOLL_RATE.off + 4, ARB + ARB_TOLL_RATE.off + 8, ARB + ARB_TOLL_RATE.off + 12,
    WAY + WAY_CTL_COMMIT.off, WAY + WAY_CARVE_QCACHE.off, WAY + WAY_MIG_PROMO_TH.off, WAY + WAY_WT_MAX.off, QUE + QUE_CTL_INIT.off,
    QUE + QUE_POOL_BASE_LO_BASE.off, QUE + QUE_POOL_BASE_HI_BASE.off, QUE + QUE_POOL_BLOCKS_P.off, QUE + QUE_FRM_LOW.off, LED + LED_CTL_PLAN_EN.off,
    LED + LED_CAP_CAP.off, LED + LED_HOLD_HOLD_UJ.off, LED + LED_HOLD2_HOLD_US.off, BST + BST_CTL_WAY_EN.off, BST + BST_STAG_PMAX_MW.off,
    BST + BST_WAY_INT_US.off, BST + BST_DRAM_BUDGET_US.off, BST + BST_PHY_RD_MIN.off, BST + BST_LANE_INT_US.off, JRN + JRN_CAP_CAP.off]

/-- The 26 words of a channel and its PHY. -/
def starterChan (s : State) (c : Nat) : List Word :=
  ([0x000, 0x00C, 0x010, 0x020, 0x024, 0x028, 0x02C, 0x040, 0x04C, 0x050, 0x054, 0x058, 0x05C, 0x060, 0x100, 0x104, 0x108, 0x10C, 0x110, 0x114, 0x118].map
      fun o => rg s (CH c + o))
    ++ [0x000, 0x004, 0x008, 0x00C, 0x034].map fun o => rg s (PHY c + o)

/-- A list of words brought to a length. -/
def padTo (n : Nat) (l : List Word) : List Word := l ++ List.replicate (n - l.length) 0

/-- Words 6 to 1,023. -/
def starterTail (s : State) : List Word :=
  let head := [BitVec.ofNat 32 s.ns, BitVec.ofNat 32 (s.ns / 2 ^ 32), rg s (PWR + PWR_SLEEP_DRAIN_US.off),
    BitVec.ofNat 32 ((rg s (PWR + PWR_WAKESRC_WAKEN.off)).toNat % 256 + fget s PWR PWR_GATECFG_MAXPAR * 256),
    rg s (GLB + GLB_IRQ_EN_EN.off), rg s (GLB + GLB_SCRATCH_DATA.off)]
  let rwl := starterRw.map fun a => if a = TXN + TXN_PROBE_CTL_ARM.off then TXN_PROBE_CTL_ARM.put 0 (keptWord s a) else keptWord s a
  padTo 1018 (head ++ starterMap s ++ starterCon s ++ allPorts.flatMap (starterPort s) ++ padTo 46 rwl ++ (List.range 16).flatMap (starterChan s))

/-- The Starter store is valid no longer. -/
def starterDrop (s : State) : State := fset AON AON_STARTER_VALID 0 { s with pwr := { s.pwr with starter := none, img := none } }

/-! ### Work that ends before a channel is parked -/

/-- A command is carried out at once. -/
def finishOne (c : Fin 16) (x : Cmd) (s : State) : State :=
  if x.wr then
    let x := admitData s x
    writeDone c x (issueWrite c x (rowOnce c x.line (actMan x) s))
  else
    match readNow c x s with
    | (some (l, _), s) => readDone c x l false s
    | (none, s) => readDone c x 0 true s

/-- A command of a channel that has been granted is carried out: what it writes is durable, what it reads is back (14 R400, R401, 12 R364). A slice's operations are not charged under their coefficients (13 R370), and deferrable work stays so (12 R355). -/
def finishCmd (c : Fin 16) (x : Cmd) (s : State) : State :=
  if isBist x then uncharged (finishOne c x) s
  else
    let r := finishOne c { x with defr := false } s
    onlyIf x.defr (deferPj (r.led.opPj - s.led.opPj)) r

/-- A command in flight ends: a write's data stands in the DRAM since its issue, and a read delivers what it captured. -/
def finishFlight (c : Fin 16) (f : Flight) (s : State) : State :=
  if f.cmd.wr then writeDone c f.cmd s
  else if f.burst then
    match decodeNow c { f.cmd with sym := if f.cmd.reread then f.cmd.again else f.cmd.sym } s with
    | (some (l, _), s) => readDone c f.cmd l false s
    | (none, s) => readDone c f.cmd 0 true s
  else s

/-- The commands of a channel's line and retry buffer complete, and then those that they lead to in the merge unit. -/
def finishLine (c : Fin 16) (s : State) : State :=
  let y := s.chan c
  let s := updChan c (fun y => { y with flight := [], line := [], mergeQ := [], locks := [] }) s
  let s := forAll (y.line ++ y.mergeQ) (finishCmd c) (forAll y.flight (finishFlight c) s)
  let more := (s.chan c).mergeQ
  fillStat c (forAll more (finishCmd c) (updChan c (fun y => { y with mergeQ := [], locks := [] }) s))

/-- The commands that wait in a channel's intake slots complete too. -/
def finishIntake (c : Fin 16) (s : State) : State :=
  let l := (s.chan c).intake
  forAll l (finishCmd c) (updChan c (fun y => { y with intake := [] }) s)

/-- A dirty line is written back, to both channels of its pair for a TWIN line, and is clean (14 R401, 12 R364). -/
def flushLine (pinned : Bool) (f i : Nat) (s : State) : State :=
  let x := s.frame pinned f
  if !bit16 x.dirty i then s else
    match placeOf s (x.seg * 16 + i) with
    | none => s
    | some p =>
      let l := wayLine s (frameLine s pinned f i)
      let s := charge 0x00 1 (chargeMan x i) s
      let put := fun (c : Fin 16) (s : State) => writeNow c p.lam l (bit16 x.psn i) false (chargeMan x i) s
      let s := onlyIf (chanUp s p.ch) (put p.ch) s
      let s := onlyIf (p.twin && chanUp s (partnerOf p.ch)) (put (partnerOf p.ch)) s
      cleanLine pinned f i (fbump WAY WAY_WB_COUNT s)

/-- Every dirty line of every frame is written back. -/
def flushAll (s : State) : State :=
  let all := fun (pinned : Bool) (l : List (Nat × Frame)) (s : State) => forAll l (fun f s => forAll (List.range 16) (flushLine pinned f.1) s) s
  all true s.way.pinned (all false s.way.tier s)

/-- Write-backs and fills that wait in a channel serve nothing more. -/
def dropMig (c : Fin 16) (s : State) : State :=
  let mig := fun (x : Cmd) => match x.src with
    | .fill _ _ _ => true
    | .wback _ _ _ => true
    | .wbackTwin _ _ _ => true
    | _ => false
  updChan c (fun y => { y with bg := y.bg.filter fun b => !mig b.cmd, intake := y.intake.filter fun x => !mig x }) s

/-- Every slice stops, and displaced rows are restored (13 R372, R382). -/
def endSlices (s : State) : State := forAll allChans dropSlice (stopSlices s)

/-- A frame at step 4 of an entry: FILLING frames and emptied LEAVING frames become FREE (14 R401). -/
def quietFrame (pinned : Bool) (f : Nat × Frame) (s : State) : State :=
  let x := f.2
  match x.st with
  | .filling => setFrame pinned f.1 {} (killFills pinned f.1 s)
  | .leaving =>
    let s := setFrame pinned f.1 {} (fbump WAY WAY_DEMOTE_COUNT s)
    let s := onlyIf x.thenRetire (if pinned then retirePin f.1 else retireTier f.1) s
    (match x.pin with
      | some k => pinStat k s
      | none => s)
  | _ => updFrame pinned f.1 (fun x => { x with wb := 0, thenFill := none, thenTest := false }) s

/-- Steps 4 and 5 of an entry (14 R401). -/
def quietWay (s : State) : State :=
  let s := forAll allChans (fun c s => dropMig c (finishIntake c (finishLine c s))) (endSlices s)
  let s := flushAll s
  let s := forAll s.way.pinned (quietFrame true) (forAll s.way.tier (quietFrame false) s)
  wayStat { s with way := { s.way with pinQueue := [] } }

/-! ### Entering (14 R399 to R403) -/

/-- The state field of `er 491`. -/
def powerWord (s : State) : String :=
  if s.pwr.mode == .doze then "doze" else if s.pwr.dozeExit.isSome then "waking"
  else if s.pwr.wake.isSome then "resume" else if s.pwr.entry.isSome then "entering" else "run"

def er490 (reason : String) (more : List (String × FVal)) : OutLn := erLn 490 "sleep refused" ([("reason", .s reason)] ++ more)
def er491 (s : State) : OutLn := erLn 491 "wrong state" [("state", .s (powerWord s))]

/-- Why `sleep doze` or `sleep banked` is refused (14 R399). -/
def sleepBad (s : State) (banked : Bool) : Option OutLn :=
  if powerWord s ≠ "run" then some (er491 s)
  else if replaying s || (members s).any fun c => chState s c == 1 || chState s c == 5 then some (er490 "state" [])
  else if !s.pwr.pfailN ∨ s.led.pf ≠ .none then some (er490 "pfail" [])
  else if banked && !fbit s PWR PWR_WAKESRC_WAKEN && !fbit s PWR PWR_WAKESRC_PORT && !fbit s PWR PWR_WAKESRC_TIMER then some (er490 "nowake" [])
  else none

/-- `sleep doze` and `sleep banked`: step 1, or a refusal. The answer of an accepted command follows the drain. -/
def sleepVerb (banked : Bool) (s : State) : State :=
  if !consoleOn s || !s.con.ans.isEmpty || sleepBusy s then s else
    match (s.con.line.bind (lineErr (strictMode s))).or (sleepBad s banked) with
    | some e => answer [e] s
    | none => fset PWR PWR_STATE_SUB 1 { s with pwr := { s.pwr with entry := some (banked, s.ns, .drain) } }

/-- The drain has ended (14 R400): no entry, SYNC, response or unacknowledged flit is left. -/
def drained (s : State) : Bool :=
  (s.rings.toList.all fun r => r.entries.isEmpty) && (s.streams.all fun e => e.2.sync.isNone)
    && (s.ports.toList.all fun p => p.rab.isEmpty && p.replay.isEmpty)

/-- Step 6: a port in ACTIVE begins its entry to QUIET, and one in RETRAIN once it is ACTIVE again (03 R94). -/
def toQuiet (p : Fin 4) (s : State) : State :=
  if portSt s p = PORT_ACTIVE ∨ portSt s p = PORT_RETRAIN then quietCheck p (updPort p (fun y => { y with toQuiet := true }) s) else s

/-- Every port whose entry to QUIET has begun is there (14 R401 step 6). -/
def portsQuiet (s : State) : Bool := s.ports.toList.all fun p => !p.toQuiet

/-- DRAIN_COMPLETE: steps 3 to 5. -/
def drainComplete (s : State) : State :=
  match s.pwr.entry with
  | some (b, t0, .drain) =>
    if !drained s then s else
      let s := quietWay (answer [okLn [("state", .s "entering")]] s)
      fset PWR PWR_STATE_SUB 2 { s with pwr := { s.pwr with entry := some (b, t0, .work) } }
  | _ => s

/-- An entry that is abandoned in steps 4 and 5 takes up again what it gave up; its command has been answered. -/
def workAbort (cause : String) (s : State) : State := sleepAbort cause (pinRefill s)

/-- An entry that is abandoned during its drain answers its command with a reason. -/
def drainAbort (reason cause : String) (more : List (String × FVal)) (s : State) : State :=
  settle (sleepAbort cause (answer [er490 reason more] s))

/-- DRAIN_US in ns, with 0 read as 1. -/
def drainNs (s : State) : Nat := max 1 (fget s PWR PWR_SLEEP_DRAIN_US) * 1000

/-- DRAIN_TIMEOUT (14 R400). -/
def drainTimeout (s : State) : State :=
  match s.pwr.entry with
  | some (_, t0, .drain) =>
    if drained s then s else
      let s := advanceToNs (t0 + drainNs s) s
      drainAbort "drain" "drain" [("pending", .n ((s.rings.toList.map fun r => r.entries.length).sum))] s
  | _ => s

/-- Step 7 for a channel: what waits in it stays, and a training is interrupted. -/
def parkSleep (c : Fin 16) (s : State) : State :=
  match chState s c with
  | 1 => trainAbort c 12 s
  | 2 | 3 =>
    let bg := (s.chan c).bg
    selfRefresh c (updChan c (fun y => { y with bg := bg }) (clearChan c s))
  | _ => s

/-! ### Wakes (14 R403 to R409) -/

/-- The event word of a wake cause (14 R405, R424). -/
def wakeWord (k : Nat) : String :=
  match k with
  | 1 => "uart" | 2 => "waken" | 3 => "port" | 4 => "link" | 5 => "timer" | _ => "reset"

/-- The cause is recorded in PWR_STATE and in AON_STATUS. -/
def lastWake (k : Nat) (s : State) : State := fset PWR PWR_STATE_LAST_WAKE k (fset AON AON_STATUS_LAST_WAKE k s)

/-- What waits for the exit: a warm reset. The event of the exit has been sent before it (14, corner cases). -/
def exitDone (s : State) : State :=
  match s.pwr.warmAfter with
  | some c =>
    let sent := s.con.evq.drop (s.con.evq.length - 1)
    let s := warmReset c { s with pwr := { s.pwr with warmAfter := none } }
    { s with con := { s.con with evq := sent ++ s.con.evq } }
  | none => s

/-- The cycles of the self-test have paused for some ns (14 R395). -/
def sleepPause (n : Nat) (s : State) : State := { s with bist := { s.bist with cycAt := s.bist.cycAt.map fun t => t.map (· + n) } }

/-- A DOZE exit ends once every member that is not lost is in service (14 R409). -/
def dozeCheck (s : State) : State :=
  match s.pwr.dozeExit with
  | none => s
  | some k =>
    if (members s).any fun c => !(s.chan c).lost && !inService s c then s else
      exitDone (emit "sleep" [("state", .s "run"), ("cause", .s (wakeWord k))] (fset PWR PWR_STATE_SUB 0
        { s with pwr := { s.pwr with dozeExit := none } }))

/-- DOZE ends (14 R409): the clocks run, channels in self-refresh re-lock, ports in QUIET retrain, the watchdog counts anew (17 R506), and what the entry gave up is taken up again. -/
def dozeWake (k : Nat) (s : State) : State :=
  let s := lastWake k (fset PWR PWR_STATE_STATE 0 (fset PWR PWR_STATE_SUB 3 { s with pwr := { s.pwr with mode := .run, dozeExit := some k } }))
  let s := sleepPause (s.ns - s.pwr.dozeAt) s
  let s := forAll allChans (fun c s => onlyIf (chState s c == 4) (updPhy c (fun y => { y with relock := true })) s) s
  let s := forAll allPorts (fun p s => onlyIf (portSt s p == PORT_QUIET) (toRetrain p false) s) s
  dozeCheck (pinRefill (wdogKick s))

/-- RET_US, with values below 10 read as 10. -/
def retUs (s : State) : Nat := max 10 (fget s PWR PWR_SLEEP_RET_US)

/-- WAY_RET_EN falls: the Waystation is used again after RET_US (18 R521). -/
def retFall (s : State) : State := { s with pwr := { s.pwr with retEn := false, retWait := true, wakeAt8 := s.d8 } }

/-- A BANKED wake is triggered (14 R410 step 1). -/
def bankedWake (k : Nat) (s : State) : State :=
  let s := rgSet (AON + AON_SLOWCNT_EDGES.off) (BitVec.ofNat 32 s.pwr.slowEdges) (lastWake k (fset PWR PWR_STATE_SUB 3 s))
  retFall { s with pwr := { s.pwr with wake := some .regulator, cause := k, lowPower := false } }

/-- A wake after the point of no return waits for the entry's end (14 R403). -/
def wakeLater (k : Nat) (s : State) : State :=
  { s with pwr := { s.pwr with wakeAfter := some (s.pwr.wakeAfter.getD k) } }

/-- A source counts for a target state: BANKED where `banked`, else DOZE (14 R405). -/
def wakeFor (banked : Bool) (k : Nat) : Bool := if banked then k = 2 || k = 3 || k = 5 || k = 6 else k = 1 || k = 2 || k = 3 || k = 4 || k = 6

/-- An enabled wake source (14 R403, R405): it ends DOZE or BANKED, abandons an entry before its point of no return, and waits for the end of an entry after it. -/
def wakeBy (k : Nat) (s : State) : State :=
  match s.pwr.mode, s.pwr.entry with
  | .doze, _ => if wakeFor false k then dozeWake k s else s
  | .banked, some _ => if wakeFor true k then wakeLater k s else s
  | .banked, none => if s.pwr.wake.isNone ∧ wakeFor true k then bankedWake k s else s
  | .run, some (b, _, .drain) => if wakeFor b k then drainAbort "state" (wakeWord k) [] s else s
  | .run, some (b, _, .work) => if wakeFor b k then settle (workAbort (wakeWord k) s) else s
  | .run, some (b, _, _) => if wakeFor b k then wakeLater k s else s
  | _, _ => s

/-! ### What BANKED loses (14 R395, R396) -/

/-- W1C fields of a register at their reset values. -/
def clearW1c (a : Nat) (w : Word) : Word :=
  match regRow a with
  | none => w
  | some (r, _) => (r.fields.filter fun f => f.acc == .w1c).foldl (fun w f =>
      let g : Fld := ⟨0, f.lsb, f.width⟩
      g.put (g.get (BitVec.ofNat 32 r.reset)) w) w

/-- Registers after a BANKED stay: W1C flags outside the AON block at reset, and every BLOCK_IND_ADDR at 0. -/
def bankRegs (s : State) : State :=
  regsMap (fun a w => if a % 0x1000 = 0xFF0 then none else some (if AON ≤ a ∧ a < AON + 0x1000 then w else clearW1c a w)) s

/-- A port whose lanes have lost their supply. -/
def portOff (p : Fin 4) (s : State) : State :=
  let s := setPortSt p PORT_DOWN (clearPort p s)
  fset GLB GLB_CLKSTAT_LINK_LOCK (Nat.land (fget s GLB GLB_CLKSTAT_LINK_LOCK) (0xF - 2 ^ p.val)) s

/-- The core PLL, the channel PLLs and the transmit PLLs are off: CK_CORE, CK_MGT and DTIME use CK_FIO. -/
def clocksOff (s : State) : State :=
  fset GLB GLB_CLKSTAT_CORE_LOCK 0 (fset GLB GLB_CLKSTAT_CORE_ON_PLL 0 (fset GLB GLB_CLKSTAT_MGT_ON_PLL 0 (fset GLB GLB_CLKSTAT_DTIME_FINE 0
    (fset GLB GLB_CLKSTAT_LINK_LOCK 0 (fset GLB GLB_CLKSTAT_CH_LOCK 0 { s with pwr := { s.pwr with pll := false } })))))

/-- What is lost or cleared where the core supply goes away and the state is restored afterwards (14 R395, R396). -/
def bankLost (s : State) : State :=
  let s := forAll allPorts portOff (bankRegs s)
  let s := forAll allChans (fun c s => updChan c (fun y => { y with hist := [] }) (clearTrackers c s)) s
  let s := acctsZero (fun _ => true) { s with way := { s.way with hot := [] } }
  let s := forAll allPorts (fun p s => setToll p (16 * (tollBurst s p : Int)) s) s
  let s := fset PWR PWR_RETRY_DOM 0 (rgSet (GLB + GLB_WDOG_CTL_EN.off) 0 (fset LED LED_STATUS_LEVEL 0 (fset TXN TXN_PROBE_CTL_ARM 0 s)))
  let s := fset SNP SNP_STATUS_BUSY 0 (rgSet (SNP + SNP_VALID_CH.off) 0 (rgSet (SNP + SNP_DTIME_LO_NS_LO.off) 0 (rgSet (SNP + SNP_DTIME_HI_NS_HI.off) 0
    (rgSet (SNP + SNP_SKEW_PS.off) 0 (rgSet (SNP + SNP_SEQ_SEQ.off) 0 s)))))
  clocksOff <| strmMap (fun _ r => { r with busy := false, waiting := [] }) { s with
    probe := none, guard := none, latches := [], shadow := none, hold := {}, led := { s.led with below := 0, due := false },
    arbs := s.arbs.map fun _ => {},
    con := { (({} : ConState)) with baud := s.con.baud } }

/-- What the bank image and the Starter store hold at a save: what is left of the registers and the accounts once the core supply is gone; after a power-fail flush the next start resets the core as well (14 R398). -/
def bankImg (kind : Nat) (s : State) : BankImg :=
  let s := if kind = 2 then coreReset (bankLost s) else bankLost s
  ⟨s.regs, s.ix, s.led.acct⟩

/-- The Starter store and the bank image are written (14 R396, R397): where the image lies and its CRC are free values. -/
def starterSave (kind : Nat) (s : State) : State :=
  let (f1, s) := takeFree s
  let (f2, s) := takeFree s
  let (f3, s) := takeFree s
  let w2 : List Word := [BitVec.ofNat 32 f1, BitVec.ofNat 32 f2, 0x80000, BitVec.ofNat 32 f3] ++ starterTail s
  let crc := crc32 (w2.flatMap fun w => (bytesBE 4 w.toNat).reverse)
  let all : List Word := [BitVec.ofNat 32 (0xA5 + kind * 2 ^ 8 + 1024 * 2 ^ 16), BitVec.ofNat 32 crc] ++ w2
  let s := forAll all.zipIdx (fun x s => ixSet AON x.2 x.1 s) s
  fset AON AON_STARTER_VALID 1 (fset AON AON_STARTER_WORDS 1024
    { s with pwr := { s.pwr with starter := some kind, img := some (bankImg kind s), savedD8 := s.d8, slowEdges := 0, bankEdges := 0 } })

/-- Registers that the AON domain holds itself, so that no restore writes them: its own block, and the gate sequencer's but for the RW registers of PWR (14 R396, R413). -/
def aonHeld (a : Nat) : Bool :=
  decide (AON ≤ a ∧ a < AON + 0x1000)
    || decide (PWR ≤ a ∧ a < PWR + 0x1000 ∧ a ≠ PWR + PWR_SLEEP_DRAIN_US.off ∧ a ≠ PWR + PWR_WAKESRC_WAKEN.off ∧ a ≠ PWR + PWR_GATECFG_MAXPAR.off)

/-- The Starter store and the bank image are restored (14 R397, R410): what was written after the save is gone. GLB_CLKSTAT.SLOW_XTAL shows what the AON domain holds. -/
def restoreImg (s : State) : State :=
  match s.pwr.img with
  | none => s
  | some g =>
    let s := regsMap (fun a w => if aonHeld a then some w else none) s
    let s := forAll (g.regs.filter fun e => !aonHeld e.1) (fun e => rgSet e.1 e.2) s
    let s := ixRestore (fun k => decide (ixKey AON 0 ≤ k ∧ k < ixKey AON 0 + 2 ^ 24)) g.ix s
    fsetB GLB GLB_CLKSTAT_SLOW_XTAL s.pwr.xtal { s with led := { s.led with acct := g.acct } }

/-- The gates open: domains that were on are off; faulted ones stay faulted. -/
def gatesOpen (s : State) : State :=
  forAll (List.range 23) (fun d s => onlyIf (domState s d != 3) (fset PWR (PWR_DOMSTAT_STATE.nth d) 0) s)
    { s with pwr := { s.pwr with ramps := [], rampQ := [], thermN := true } }

/-- The period of CK_SLOW in eighths of a ns: the crystal's, or the RC oscillator's, which `f` picks within its bounds (14 R404). -/
def slowPer8 (s : State) (f : Nat) : Nat := if s.pwr.xtal then 1953125 / 8 else 221600 + f % 49601

/-- Steps 7 and 8 (14 R401), once the ports are in QUIET and no pause and no replay runs. Where CK_SLOW's next rising edge falls is a free value within its period. -/
def parkStep (b : Bool) (t0 : Nat) (s : State) : State :=
  if !portsQuiet s ∨ allChans.any fun c => (s.phy c).active.isSome || (s.chan c).replay.isSome then s else
    let s := forAll allChans parkSleep s
    let s := rgSet (PWR + PWR_ENTRY_US.off) (BitVec.ofNat 32 ((s.ns - t0) / 1000)) s
    let ev := fun (w : String) (s : State) => emit "sleep" [("state", .s w), ("cause", .s "command")] s
    if b then
      let (f1, s) := takeFree (ev "banked" (starterSave 1 s))
      let (f2, s) := takeFree s
      let per := slowPer8 s f1
      let e := s.d8 + f2 % per
      { s with pwr := { s.pwr with entry := some (b, t0, .window), edgeAt8 := some (e, e + 3 * per), wakeN := true } }
    else
      let s := ev "doze" s
      let s := fset PWR PWR_STATE_STATE 1 (fset PWR PWR_STATE_SUB 0 { s with pwr := { s.pwr with entry := none, mode := .doze, dozeAt := s.ns } })
      match s.pwr.wakeAfter with
      | some k => dozeWake k { s with pwr := { s.pwr with wakeAfter := none } }
      | none => s

/-- SLEEP_PARK_DONE: step 6 begins, past the point of no return, and steps 7 and 8 follow once the ports are in QUIET (14 R401). -/
def sleepParkDone (s : State) : State :=
  if s.pwr.mode ≠ .run then s else
    match s.pwr.entry with
    | some (b, t0, .work) => parkStep b t0 (forAll allPorts toQuiet { s with pwr := { s.pwr with entry := some (b, t0, .park) } })
    | some (b, t0, .park) => parkStep b t0 s
    | _ => s

/-- The CK_SLOW edges since the save that cover the time DTIME has counted since then, so that it never decreases (02 R52). -/
def edgesSince (s : State) : Nat := cdiv ((s.d8 - s.pwr.savedD8 / 8 * 8) * 8) 1953125

/-- WAKE_WINDOW_END: steps 9 and 10 (14 R401, R404). Edge e and the three after it have been counted, and any that fell since. -/
def wakeWindowEnd (s : State) : State :=
  match s.pwr.entry with
  | some (b, t0, .window) =>
    let s := match s.pwr.edgeAt8 with
      | some (_, e3) => advanceTo8 e3 s
      | none => s
    let s := if !s.pwr.wakeN ∧ fbit s PWR PWR_WAKESRC_WAKEN then wakeLater 2 s else s
    let s := gatesOpen (bankLost s)
    { s with pwr := { s.pwr with
        entry := some (b, t0, .retain), edgeAt8 := none, wk := .matcher, wakeN := true, mode := .banked, retEn := true, slowEdges := max 4 (edgesSince s) } }
  | _ => s

/-- RETENTION_CHECK: step 11 (14 R401, 18 R522). How many CK_SLOW edges the wait takes depends on CK_SLOW's error: a free value within it. -/
def retentionCheck (inWindow : Bool) (s : State) : State :=
  match s.pwr.entry with
  | some (_, _, .retain) =>
    let s := onlyIf (!inWindow) (fset AON AON_STATUS_RET_LOST 1) s
    let base := retUs s * 1000000000 / 30517578125
    let (f, s) := takeFree s
    let n := s.pwr.slowEdges + base * 9 / 10 + f % (base / 5 + 2)
    let s := { s with pwr := { s.pwr with lowPower := true, entry := none, slowEdges := n, bankEdges := n } }
    (match s.pwr.wakeAfter with
      | some k => bankedWake k { s with pwr := { s.pwr with wakeAfter := none } }
      | none => s)
  | _ => s

/-- Who serves the wake port: from edge e to edge e + 3 of a BANKED entry nobody does (14 R404). -/
def wkOwner (s : State) : WkOwner :=
  match s.pwr.edgeAt8 with
  | some (e, _) => if e ≤ s.d8 then .nobody else s.pwr.wk
  | none => s.pwr.wk

/-- WAKE_N is held low for a time: between the two figures of 18 R529 it is recognised or not. From edge e on its level at edge e + 3 counts (14 R404). -/
def wakeN (lowNs : Nat) (s : State) : State :=
  if !fbit s PWR PWR_WAKESRC_WAKEN ∨ lowNs ≤ 200 then s
  else
    let (f, s) := takeFree s
    if lowNs < 2000 ∧ f % 2 = 0 then s
    else match s.pwr.edgeAt8 with
      | some (e, e3) => if e ≤ s.d8 then { s with pwr := { s.pwr with wakeN := !decide (e3 ≤ s.d8 + 8 * lowNs) } } else wakeBy 2 s
      | none => wakeBy 2 s

/-- Byte 0 of the wake port's status (14 R407). -/
def statusByte0 (s : State) : Nat :=
  match s.pwr.mode with
  | .faultOff => 6
  | .doze => 1
  | .banked => if s.pwr.entry.isSome then 5 else if s.pwr.wake.isSome then 3 else 2
  | .off => 3
  | .run =>
    if s.pwr.entry.isSome then 5
    else if s.pwr.dozeExit.isSome then 3
    else match s.pwr.wake with
      | some .awaiting => 4
      | some .resuming => 4
      | _ => 0

/-- The three status bytes (14 R407). -/
def statusBytes (s : State) : List Nat :=
  let w := (rg s AON).toNat
  [statusByte0 s, w / 256 % 16 + w % 8 * 16, w / 8 % 32]

/-- WAKE_PORT_MATCH (14 R406, R407): an address byte with its read bit, and the number of data bytes that the master writes or reads. The port acknowledges its own address only, and no data byte written to it. -/
def wakePortMatch (addr : BitVec 7) (read : Bool) (bytes : Nat) (s : State) : State :=
  let ack := fun (l : List Bool) (s : State) => { s with pwr := { s.pwr with wkAcks := l } }
  if !s.pwr.vinOn then s
  else if wkOwner s = .nobody ∨ addr.toNat ≠ fget s AON AON_WAKE_ADDR then ack [false] s
  else
    let s := if fbit s PWR PWR_WAKESRC_PORT then wakeBy 3 s else s
    if !read then ack (true :: List.replicate bytes false) s else
      let s := ack [true] s
      let b := statusBytes s
      { s with pwr := { s.pwr with
          wkSent := (List.range bytes).map fun i => BitVec.ofNat 8 ((b[i % 3]?).getD 0), wkByte := bytes % 3 } }

/-! ### Resume and clocks (14 R411, R412) -/

/-- `sleep resume` is answered once the channels are in service. -/
def resumeCheck (s : State) : State :=
  if s.pwr.wake ≠ some .resuming ∨ (members s).any (fun c => !(s.chan c).lost && !inService s c) then s else
    let s := answer [okLn [("channels", .n ((members s).filter (inService s)).length)]] s
    emit "sleep" [("state", .s "run"), ("cause", .s "resume")] (fset PWR PWR_STATE_SUB 0 { s with pwr := { s.pwr with wake := none } })

/-- `sleep resume` (14 R412). A power-return start is a warm reset whose replay follows (17 R493). -/
def resumeVerb (s : State) : State :=
  if !consoleOn s || !s.con.ans.isEmpty || sleepBusy s then s else
    match s.con.line.bind (lineErr (strictMode s)) with
    | some e => answer [e] s
    | none =>
      if s.pwr.wake ≠ some .awaiting then answer [er491 s] s
      else if !s.pwr.pll then answer [erLn 491 "wrong state" [("state", .s "fio")]] s
      else
        let s := { s with pwr := { s.pwr with wake := some .resuming } }
        let s := if aonStart s = 5 then markReplay (emitReset true (warmCause .pfail s)) else s
        let s := onlyIf (aonStart s = 5) (fun s => { s with pwr := { s.pwr with warm := afterReset s } }) s
        let s := forAll allChans (fun c s => onlyIf (chState s c == 4) (updPhy c (fun y => { y with relock := true })) s) s
        let s := forAll allPorts (fun p s => onlyIf (fbit s (HP p) HP_CTL_EN && domState s (19 + p.val) == 2 && portSt s p == PORT_DOWN) (toDetect p) s) s
        resumeCheck (pinRefill s)

/-- `clock run` (14 R411, 17 R500). -/
def clockRun (lock : Bool) (s : State) : State × OutLn :=
  if s.pwr.pll then (s, erLn 492 "clock refused" [("reason", .s "state")])
  else if !lock then (elapse 800000 s, erLn 492 "clock refused" [("reason", .s "nolock")])
  else
    let wait := s.pwr.warm == .noClock
    let s := { s with pwr := { s.pwr with pll := true, warm := if wait then afterReset s else s.pwr.warm } }
    let s := fset GLB GLB_CLKSTAT_CORE_LOCK 1 (fset GLB GLB_CLKSTAT_CORE_ON_PLL 1 (fset GLB GLB_CLKSTAT_MGT_ON_PLL 1 (fset GLB GLB_CLKSTAT_DTIME_FINE 1 s)))
    let s := if wait then forAll allChans (fun c s => onlyIf (chState s c == 4) (updPhy c (fun y => { y with relock := true })) s) s else s
    (s, okLn [("core", .s "pll")])

/-! ### Commands -/

/-- SLEEP_DOZE (14 R401). -/
def execSleepDoze (s : State) : Host.Outcome State Fault Refusal := .next (sleepVerb false s)

/-- SLEEP_BANKED (14 R401). -/
def execSleepBanked (s : State) : Host.Outcome State Fault Refusal := .next (sleepVerb true s)

/-- DRAIN_COMPLETE (14 R400). -/
def execDrainComplete (s : State) : Host.Outcome State Fault Refusal := .next (drainComplete s)

/-- DRAIN_TIMEOUT (14 R400). -/
def execDrainTimeout (s : State) : Host.Outcome State Fault Refusal := .next (drainTimeout s)

/-- SLEEP_PARK_DONE (14 R401). -/
def execSleepParkDone (s : State) : Host.Outcome State Fault Refusal := .next (sleepParkDone s)

/-- WAKE_WINDOW_END (14 R404). -/
def execWakeWindowEnd (s : State) : Host.Outcome State Fault Refusal := .next (wakeWindowEnd s)

/-- RETENTION_CHECK (14 R401). -/
def execRetentionCheck (inWindow : Bool) (s : State) : Host.Outcome State Fault Refusal := .next (retentionCheck inWindow s)

/-- WAKE_N (14 R405, 18 R529). -/
def execWakeN (lowNs : Nat) (s : State) : Host.Outcome State Fault Refusal := .next (wakeN lowNs s)

/-- WAKE_PORT_MATCH (14 R406). -/
def execWakePortMatch (addr : BitVec 7) (read : Bool) (bytes : Nat) (s : State) : Host.Outcome State Fault Refusal := .next (wakePortMatch addr read bytes s)

/-- LINK_WAKE (14 R405): signal on a port in QUIET whose bit is set. -/
def execLinkWake (port : Fin 4) (s : State) : Host.Outcome State Fault Refusal :=
  .next (if portSt s port = PORT_QUIET ∧ bitOf (fget s PWR PWR_WAKESRC_LINK) port.val then wakeBy 4 s else s)

/-- AON_TIMER_WAKE (14 R405): EDGES edges of CK_SLOW after step 11. -/
def execAonTimerWake (s : State) : Host.Outcome State Fault Refusal :=
  .next (if s.pwr.mode = .banked ∧ s.pwr.entry.isNone ∧ s.pwr.wake.isNone ∧ fbit s PWR PWR_WAKESRC_TIMER then
    wakeBy 5 { s with pwr := { s.pwr with slowEdges := max s.pwr.slowEdges (s.pwr.bankEdges + fget s AON AON_TIMER_EDGES) } } else s)

/-- SLEEP_WAKE (14 R405): in DOZE. -/
def execSleepWake (s : State) : Host.Outcome State Fault Refusal :=
  .next (runVerb1 (fun s => if s.pwr.mode = .doze then (dozeWake 1 s, okLn []) else (s, er491 s)) s)

/-- SLEEP_RESUME (14 R412). -/
def execSleepResume (s : State) : Host.Outcome State Fault Refusal := .next (settle (resumeVerb s))

/-- CLOCK_RUN (14 R411). -/
def execClockRun (lock : Bool) (s : State) : Host.Outcome State Fault Refusal := .next (runVerb1 (clockRun lock) s)

/-- RELOCK_DONE (11 R340): the last channel ends a DOZE exit or a resume (14 R409, R412). -/
def execRelockDone (ch : Fin 16) (res : List PauseRes) (s : State) : Host.Outcome State Fault Refusal :=
  .next (settle (resumeCheck (dozeCheck (relockDone ch res s))))

end Sys2Proof.Machine
end

