-- ==== Sys2Proof/Machine/Power.lean ====
section
/-! DEFINITION. Power gates, the AON regulator, the kind of a start, the power-fail flush, and the pins RESET_N and PFAIL_N (12 R364, R365, 14 R398, R410, R413 to R419, 17 R501, 18 R519 to R523). -/

namespace Sys2Proof.Machine

/-! ### Starts (14 R398, R410) -/

/-- AON registers at their power-on values (14 R419, R421, 17 R494). -/
def aonReset (s : State) : State :=
  let s := ixDrop AON (regsMap (fun a w => if AON ≤ a ∧ a < AON + 0x1000 then none else some w) s)
  starterDrop { s with pwr := { s.pwr with aonQ := [] } }

/-- The kind of start that the AON domain decides before the bank image is checked, as START of 14 R398. -/
def startKind (s : State) : Nat :=
  if s.pwr.fresh then 0
  else if fbit s AON AON_STATUS_BROWNOUT then 1
  else match s.pwr.starter with
    | none => 0
    | some k =>
      if fbit s AON AON_STATUS_RET_LOST then 2
      else if k = 1 then 4
      else if fbit s AON AON_STATUS_FLUSH_OK then 5
      else 0

/-- A start's kind is a restore. -/
def isRestore (k : Nat) : Bool := k == 4 || k == 5

/-- The cause of a cold start that the AON domain decides (17 R493). -/
def coldCause (s : State) : RstCause := if s.pwr.fresh then .power else .aon

/-- DTIME as restored, in eighths of a ns: the saved value in whole ns and the CK_SLOW edges counted since, at 30,517.578125 ns each (02 R52). -/
def restored8 (s : State) : Nat := s.pwr.savedD8 / 8 * 8 + s.pwr.slowEdges * 1953125 / 8

/-- Domains that may ramp, of a list: those not faulted. -/
def sound (s : State) (l : List Nat) : List Nat := l.filter fun d => domState s d != 3

/-- VDD_WAY is at its run level and the Starter store is restored: WAYP ramps (14 R410 step 5). -/
def waypGo (s : State) : State := if s.pwr.wake = some .settled ∧ !s.pwr.retWait then rampMore [2] s else s

/-- The CORE domain is on (14 R410 step 4): the kind of start is decided; a restore takes what was saved and DTIME and goes on, else a cold start begins. -/
def decideStart (s : State) : State :=
  let k := startKind s
  if isRestore k then
    let s := restoreImg { s with d8 := restored8 s }
    let p := s.pwr
    waypGo (fset AON AON_STATUS_START k { s with pwr := { p with
      wake := some .settled, rampAt8 := p.rampAt8.map (min s.d8), ramps := p.ramps.map fun x => { x with at8 := s.d8 } } })
  else coldBegin (coldCause s) k s

/-- AON_REGULATOR_SETTLED (14 R410 steps 2 and 3). -/
def regulatorSettled (s : State) : State :=
  if s.pwr.wake = some .regulator then rampMore (sound s [0, 1]) { s with pwr := { s.pwr with wake := some .ramps } } else s

/-- BANK_IMAGE_RESTORED (14 R410 steps 6 and 7), once every domain has ramped: the console is alive and resume is awaited; a failed image makes the start cold. How long the wake took is a free value, since it runs in part without a count of time. A warm reset that waited for the wake follows; it runs on CK_FIO (17 R500). -/
def bankImage (ok : Bool) (s : State) : State :=
  if s.pwr.wake ≠ some .image ∨ !s.pwr.ramps.isEmpty ∨ !s.pwr.rampQ.isEmpty then s
  else if !ok then coldBegin .aon 3 s
  else
    let (f, s) := takeFree s
    let s := rgSet (PWR + PWR_WAKELAT_US.off) (BitVec.ofNat 32 f) (sleepPause (s.ns - s.pwr.savedD8 / 8) s)
    let s := fset PWR PWR_STATE_SUB 4 { s with pwr := { s.pwr with mode := .run, wake := some .awaiting, fresh := false } }
    let s := emit "wake" [("cause", .s (wakeWord s.pwr.cause)), ("start", word2 (aonStart s = 5) "power_return" "banked")] s
    if s.pwr.warmAfter.isNone then s else
      exitDone (fset PWR PWR_STATE_SUB 0 { s with pwr := { s.pwr with wake := none, warm := .noClock } })

/-! ### Gates (14 R413 to R418) -/

/-- The channel of a domain, and the port of a domain. -/
def domChan (d : Nat) : Fin 16 := Fin.ofNat 16 (d - 3)
def domPort (d : Nat) : Fin 4 := Fin.ofNat 4 (d - 19)

/-- A domain of a channel or a port that comes on after a retry (14 R418). -/
def unitOn (d : Nat) (s : State) : State :=
  if d < 3 then s
  else if d < 19 then (if chState s (domChan d) = 7 then setChState (domChan d) 0 s else s)
  else if fbit s (HP (domPort d)) HP_CTL_EN ∧ portSt s (domPort d) = PORT_DOWN then toDetect (domPort d) s
  else s

/-- A domain is on after a ramp of some eighths of a ns, and what waited for it goes on (14 R410, R414, 17 R494). -/
def domOn (d len8 : Nat) (s : State) : State :=
  let s := fset PWR (PWR_DOMSTAT_STATE.nth d) 2 (fset PWR (PWR_DOMSTAT_RAMP_US.nth d) (min (len8 / 8000) 255) s)
  let s := rampFuel 23 { s with pwr := { s.pwr with ramps := s.pwr.ramps.filter fun x => x.dom ≠ d } }
  match s.pwr.mode with
  | .off => if s.pwr.ramps.isEmpty ∧ s.pwr.rampQ.isEmpty then coldDone s else s
  | .banked =>
    if d = 1 ∧ s.pwr.wake = some .ramps then decideStart s
    else if d = 2 then rampMore (sound s ((List.range 20).map (3 + ·))) { s with pwr := { s.pwr with wake := some .image } }
    else s
  | .run => unitOn d s
  | _ => s

/-- GATE_RAMP_STAGE: a stage has lasted at least 2 us and the domain's current is below its limit (14 R414). How long that takes is a free value, such that the four stages fit into the 20 us of 14 R415. -/
def rampStage (d : Nat) (s : State) : State :=
  match s.pwr.ramps.find? fun x => x.dom = d with
  | none => s
  | some x =>
    let (f, s) := takeFree s
    let len := 16000 + f % 24001
    let s := onlyIf (dtimeRuns s) (advanceTo8 (x.at8 + len)) s
    let x := { x with stage := x.stage + 1, at8 := s.d8, len8 := x.len8 + (if dtimeRuns s then s.d8 - x.at8 else len) }
    if x.stage ≤ 4 then { s with pwr := { s.pwr with ramps := s.pwr.ramps.map fun y => if y.dom = d then x else y } }
    else domOn d x.len8 s

/-- Operation has ended and every gate is open (14 R416, 01 R16). -/
def coreLost (mode : PMode) (s : State) : State :=
  starterDrop (gatesOpen { s with pwr := { s.pwr with mode := mode, entry := none, wake := none, dozeExit := none, wakeAfter := none, warmAfter := none, warm := .idle, retEn := false } })

/-- A channel loses its domain (14 R415): a member is lost as a whole, the channel is ISOLATED, and its PLL has no supply (02 R64). -/
def chanGate (c : Fin 16) (s : State) : State :=
  let s := fsetB GLB GLB_CLKSTAT_LOCK_LOSS (fbit s GLB GLB_CLKSTAT_LOCK_LOSS || bitOf (fget s GLB GLB_CLKSTAT_CH_LOCK) c.val) s
  if inMap s c && !(s.chan c).lost then fsetBit GLB GLB_CLKSTAT_CH_LOCK c.val false (channelLost c "gate" 7 (stopPhy c s))
  else
    let s := if (s.phy c).trn.isSome then trainAbort c 12 s else s
    fsetBit GLB GLB_CLKSTAT_CH_LOCK c.val false <| setChState c 7 (updChan c (fun y => { y with restoring := false }) (updPhy c (fun y => { y with relock := false }) (clearChan c s)))

/-- The code of a gate fault in PWR_DOMSTATd (14 R420), and its word in the event. -/
def gateWord : GateCause → String
  | .current => "current" | .timeout => "timeout" | .trip => "trip"

/-- GATE_FAULT (14 R415, R416). A ramp faults by current or by time, a domain that is on by a trip. A port that falls to DOWN so says it with an event (03 R108). DESIGN CHOICE (log 108): of the causes of 03 R108, pll, since its transmit PLL loses its supply. -/
def gateFault (d : Nat) (c : GateCause) (s : State) : State :=
  if !(if c = .trip then domState s d == 2 else domState s d == 1) then s else
    let s := fset PWR (PWR_DOMSTAT_STATE.nth d) 3 (fset PWR (PWR_DOMSTAT_CAUSE.nth d) c.code (fbump PWR (PWR_DOMSTAT_TRIPS.nth d) s))
    let s := irq GLB_IRQ_STAT_GATE (fsetBit PWR PWR_GATE_FAULT_FAULT d true s)
    let s := { s with pwr := { s.pwr with ramps := s.pwr.ramps.filter fun x => x.dom ≠ d } }
    let s := emit "gate_fault" [("dom", .s (domName d)), ("cause", .s (gateWord c))] s
    if d < 3 then fset AON AON_STATUS_GATE_FAULT 1 (coreLost .faultOff s)
    else
      let s := rampFuel 23 s
      let s := if d < 19 then chanGate (domChan d) s
        else
          let p := domPort d
          let was := portSt s p
          let s := fsetB GLB GLB_CLKSTAT_LOCK_LOSS (fbit s GLB GLB_CLKSTAT_LOCK_LOSS || bitOf (fget s GLB GLB_CLKSTAT_LINK_LOCK) p.val) s
          onlyIf (was != PORT_DOWN) (fun s => irq GLB_IRQ_STAT_PORT_DOWN (emit "port_down" [("port", .n p), ("cause", .s "pll")] s)) (portOff p s)
      let s := match s.pwr.mode with
        | .off => if s.pwr.ramps.isEmpty ∧ s.pwr.rampQ.isEmpty then coldDone s else s
        | _ => s
      settle (resumeCheck (dozeCheck s))

/-- A retry of a domain, or why it is refused (14 R418). -/
def powerRetry (d : Nat) (s : State) : State × Option String :=
  if d < 3 then (s, some "core")
  else if 23 ≤ d ∨ domState s d ≠ 3 ∨ !bitOf (fget s PWR PWR_GATE_FAULT_FAULT) d then (s, some "notfaulted")
  else (rampMore [d] (fsetBit PWR PWR_GATE_FAULT_FAULT d false s), none)

/-- `power retry`: the guarded pair is written for the user. -/
def retryVerb (d : Nat) (s : State) : State × OutLn :=
  if 23 ≤ d then (s, erLn 106 "out of range" [("arg", .s "dom"), ("min", .n 0), ("max", .n 22)])
  else
    let (s, r) := powerRetry d (fset PWR PWR_RETRY_DOM d s)
    match r with
    | some w => (s, erLn 493 "retry refused" [("dom", .s (domName d)), ("reason", .s w)])
    | none => (s, okLn [])

/-! ### The power-fail flush (12 R364, R365) -/

/-- A proofing pause stops at its next step, and one that is due is given up (11 R346, 12 R365). -/
def flushPause (c : Fin 16) (s : State) : State :=
  let off := fun (s : State) => updPhy c (fun y => { y with active := none, due := none, stopped := false, mustRun := false }) s
  if (s.phy c).active.isSome then refreshOwed c (stopUntil c s.d8 (off (cutPause c s))) else off s

/-- Steps 1 and 2: classification stops, transmitters turn off, and every tag is void. -/
def flushStart (s : State) : State :=
  let s := { s with led := { s.led with pf := .flush false }, pwr := { s.pwr with halted := true } }
  let s := forAll allPorts voidTags (forAll allChans flushPause s)
  let s := fset LED LED_STATUS_FLUSH 1 (fset AON AON_STATUS_FLUSH_OK 0 s)
  emit "pfail" [("state", .s "flush")] (irq GLB_IRQ_STAT_PFAIL (endSlices s))

/-- PFAIL_N has been recognised (12 R364, R365, 14 R403): in RUN the flush begins; past the point of no return of an entry, in DOZE and in BANKED nothing is dirty, and the AON domain records it. -/
def pfailSeen (s : State) : State :=
  let s := { s with pwr := { s.pwr with pfailN := false } }
  let note := fset AON AON_STATUS_PFAIL_SEEN 1
  match s.pwr.mode, s.pwr.entry, s.led.pf with
  | .run, none, .none => flushStart s
  | .run, some (_, _, .drain), .none => flushStart (sleepAbort "pfail" (answer [er490 "pfail" []] s))
  | .run, some (_, _, .work), .none => flushStart (workAbort "pfail" s)
  | .run, some _, _ => note s
  | .run, none, .flush _ => { s with led := { s.led with pf := .flush false } }
  | .doze, _, _ => note s
  | .banked, _, _ => note s
  | _, _, _ => s

/-- PFAIL: between the two figures of 18 R529 a low pulse is recognised or not. -/
def pfail (lowNs : Nat) (s : State) : State :=
  if !s.pwr.vinOn ∨ lowNs ≤ 50 then s
  else if 200 ≤ lowNs then pfailSeen s
  else
    let (f, s) := takeFree s
    if f % 2 = 1 then pfailSeen s else s

/-- Granted Waystation accesses complete; `fuel` bounds their number. -/
def finishWay : Nat → State → State
  | 0, s => s
  | fuel + 1, s => if s.wayOps.isEmpty then s else finishWay fuel (accessComplete 0 .clean s)

/-- A channel at step 5: REFab to each rank, then self-refresh; a training is interrupted. In a warm reset's replay a channel that was in self-refresh has left it with REFab for the flush (12 R365). -/
def parkFlush (c : Fin 16) (s : State) : State :=
  match chState s c with
  | 1 => trainAbort c 12 s
  | 2 | 3 => selfRefresh c (clearChan c s)
  | 4 => if s.pwr.warm = .idle ∧ !(s.phy c).relock then s else refreshAll c (refreshAll c s)
  | _ => s

/-- PFAIL_N is high again after the flush: WAY_RET_EN falls, and the warm reset follows once VDD_WAY is at its run level (12 R365). -/
def pfailRise (s : State) : State := retFall { s with pwr := { s.pwr with warmAfter := some .pfail } }

/-- PFAIL_FLUSH_DONE: steps 3 to 6. -/
def flushDone (s : State) : State :=
  match s.led.pf with
  | .flush high =>
    let s := finishWay s.wayOps.length s
    let s := flushAll (forAll allChans finishLine s)
    let s := reapCaravans (forAll allChans parkFlush s)
    let s := starterSave 2 (fset LED LED_STATUS_FLUSH 0 (fset AON AON_STATUS_FLUSH_OK 1 s))
    let s := emit "pfail" [("state", .s "done")] { s with led := { s.led with pf := .done }, pwr := { s.pwr with retEn := true } }
    if high then pfailRise s else s
  | _ => s

/-- PFAIL_RELEASE (12 R365). -/
def pfailRelease (s : State) : State :=
  let was := s.pwr.pfailN
  let s := { s with pwr := { s.pwr with pfailN := true } }
  match s.led.pf with
  | .flush _ => { s with led := { s.led with pf := .flush true } }
  | .done => if was ∨ s.pwr.mode ≠ .run then s else pfailRise s
  | .none => s

/-- RETENTION_SETTLE: VDD_WAY is at its run level (18 R521): WAYP ramps in a wake; after a flush the warm reset follows. -/
def retentionSettle (s : State) : State :=
  if !s.pwr.retWait then s else
    let s := { s with pwr := { s.pwr with retWait := false } }
    if s.led.pf = .done ∧ s.pwr.mode = .run then
      let s := advanceTo8 (s.pwr.wakeAt8 + retUs s * 8000) s
      let s := warmReset .pfail { s with led := { s.led with pf := .none }, pwr := { s.pwr with warmAfter := none } }
      emit "pfail" [("state", .s "warm")] s
    else waypGo s

/-- CORE_SUPPLY_LOSS (01 R16): after a completed flush what is kept waits for the power's return; otherwise the next start is cold. -/
def supplyLoss (s : State) : State :=
  if s.pwr.mode = .off ∨ s.pwr.mode = .faultOff ∨ (s.pwr.mode = .banked ∧ s.pwr.wake.isNone ∧ s.pwr.entry.isNone) then s
  else if s.led.pf = .done ∧ s.pwr.retEn then
    let s := gatesOpen (coreReset (bankLost s))
    { s with led := { s.led with pf := .none }, pwr := { s.pwr with slowEdges := max s.pwr.slowEdges (edgesSince s), mode := .off, wake := none, warm := .idle, halted := false } }
  else coreLost .off s

/-! ### RESET_N and the supplies of the AON domain (17 R501, 18 R519, R523) -/

/-- RESET_N is low (14 R403, R405, 17 R501). -/
def resetLow (s : State) : State :=
  let s := { s with pwr := { s.pwr with resetN := false } }
  let later := fun (s : State) => { s with pwr := { s.pwr with warmAfter := some .pin } }
  match s.pwr.mode with
  | .run => if s.pwr.dozeExit.isSome then later s else warmTrigger .pin s
  | .doze => dozeWake 6 (later s)
  | .banked => wakeBy 6 (later s)
  | _ => s

/-- RESET_N: between the two figures of 18 R529 a pulse is recognised or not. -/
def resetN (lowNs : Nat) (s : State) : State :=
  if !s.pwr.resetN ∨ !s.pwr.vinOn ∨ lowNs ≤ 100 then s
  else if 1000 ≤ lowNs then resetLow s
  else
    let (f, s) := takeFree s
    if f % 2 = 1 then resetLow s else s

/-- A start from OFF: a power return runs the steps of a BANKED wake, with the regulator in normal mode already (14 R398, R410, 18 R521). -/
def startOff (s : State) : State :=
  let k := startKind s
  if isRestore k then
    let s := retFall (lastWake 6 { s with pwr := { s.pwr with mode := .banked, wake := some .ramps, cause := 6 } })
    rampMore (sound s [0, 1]) s
  else coldBegin (coldCause s) k s

/-- RESET_N_RELEASE: a held warm reset goes on; a device that is off starts (14 R416, 17 R501, 18 R519). -/
def resetRelease (s : State) : State :=
  if s.pwr.resetN then s else
    let s := { s with pwr := { s.pwr with resetN := true } }
    match s.pwr.mode, s.pwr.warm with
    | .off, _ => if s.pwr.vinOn ∧ s.pwr.wake.isNone then startOff s else s
    | .faultOff, _ => coldBegin .aon (startKind s) s
    | .run, .held c => settle (warmGo { s with pwr := { s.pwr with warm := if c = .pll then .noClock else .replay } })
    | _, _ => s

/-- POWER_ON: VIN_AON rises; the AON domain has a power-on reset and drives WAY_RET_EN low, and RESET_N is low (18 R519). -/
def powerOn (s : State) : State :=
  if s.pwr.vinOn then s else
    let s := aonReset s
    { s with pwr := { s.pwr with vinOn := true, fresh := true, brown := false, resetN := false, mode := .off, wake := none, retEn := false, retWait := false } }

/-- VIN_AON_OFF (14 R394, 18 R523). -/
def vinOff (s : State) : State :=
  if !s.pwr.vinOn then s else
    let s := aonReset (coreLost .off s)
    { s with pwr := { s.pwr with vinOn := false, lowPower := false, xtal := false } }

/-- BROWNOUT (14 R419): in BANKED, with the regulator in low-power mode, the AON state is lost. -/
def brownout (s : State) : State :=
  if s.pwr.lowPower then fset AON AON_STATUS_BROWNOUT 1 (aonReset { s with pwr := { s.pwr with brown := true } }) else s

/-! ### Commands -/

/-- AON_REGULATOR_SETTLED (14 R410). -/
def execAonRegulatorSettled (s : State) : Host.Outcome State Fault Refusal := .next (regulatorSettled s)

/-- BANK_IMAGE_RESTORED (14 R410). -/
def execBankImageRestored (ok : Bool) (s : State) : Host.Outcome State Fault Refusal := .next (bankImage ok s)

/-- RETENTION_SETTLE (18 R521). -/
def execRetentionSettle (s : State) : Host.Outcome State Fault Refusal := .next (retentionSettle s)

/-- GATE_RAMP_STAGE (14 R414). -/
def execGateRampStage (dom : Fin 23) (s : State) : Host.Outcome State Fault Refusal := .next (rampStage dom.val s)

/-- GATE_FAULT (14 R415). -/
def execGateFault (dom : Fin 23) (cause : GatePick) (s : State) : Host.Outcome State Fault Refusal := .next (gateFault dom.val cause.cause (actAll cause.errs s))

/-- POWER_RETRY (14 R418). -/
def execPowerRetry (dom : Nat) (s : State) : Host.Outcome State Fault Refusal := .next (runVerb1 (retryVerb dom) s)

/-- BROWNOUT (14 R419). -/
def execBrownout (s : State) : Host.Outcome State Fault Refusal := .next (brownout s)

/-- RETENTION_LOST (18 R522): while WAY_RET_EN is high. -/
def execRetentionLost (s : State) : Host.Outcome State Fault Refusal := .next (if s.pwr.retEn then fset AON AON_STATUS_RET_LOST 1 s else s)

/-- POWER_ON (18 R519). -/
def execPowerOn (s : State) : Host.Outcome State Fault Refusal := .next (powerOn s)

/-- RESET_N (17 R501). -/
def execResetN (lowNs : Nat) (s : State) : Host.Outcome State Fault Refusal := .next (resetN lowNs s)

/-- RESET_N_RELEASE (17 R501). -/
def execResetNRelease (s : State) : Host.Outcome State Fault Refusal := .next (resetRelease s)

/-- PFAIL (12 R364). -/
def execPfail (lowNs : Nat) (s : State) : Host.Outcome State Fault Refusal := .next (pfail lowNs s)

/-- PFAIL_FLUSH_DONE (12 R364). -/
def execPfailFlushDone (s : State) : Host.Outcome State Fault Refusal := .next (flushDone s)

/-- PFAIL_RELEASE (12 R365). -/
def execPfailRelease (s : State) : Host.Outcome State Fault Refusal := .next (pfailRelease s)

/-- CORE_SUPPLY_LOSS (01 R16). -/
def execCoreSupplyLoss (s : State) : Host.Outcome State Fault Refusal := .next (supplyLoss s)

/-- VIN_AON_OFF (18 R523). -/
def execVinAonOff (s : State) : Host.Outcome State Fault Refusal := .next (vinOff s)

end Sys2Proof.Machine
end

