-- ==== Sys2Proof/Machine/RegBus.lean ====
section
/-! DEFINITION. The register bus (16): reads and writes by access type, masked and guarded writes, clear-on-read, the queue of AON writes, the indirect windows, snapshots, and the register writes whose chapters give them an effect. -/

namespace Sys2Proof.Machine

/-! ### Time on CK_MGT and CK_SLOW -/

/-- A CK_MGT cycle in eighths of a ns: 2.5 ns on the core PLL, 15.625 ns on CK_FIO (02 R48). -/
def mgt8 (s : State) : Nat := if fbit s GLB GLB_CLKSTAT_MGT_ON_PLL then 20 else 125

/-- DTIME in ns as the management domain reads it: at most 3 CK_MGT cycles old (02 R63); how old is a free value. -/
def mgtDtime (s : State) : Nat × State :=
  let (f, s) := takeFree s
  ((s.d8 - f % (3 * mgt8 s + 1)) / 8, s)

/-- IRQ_N is driven low (16 R478, 14 R416). -/
def irqLow (s : State) : Bool :=
  s.pwr.mode == .faultOff || Nat.land (rg s (GLB + GLB_IRQ_STAT_EVENT.off)).toNat (fget s GLB GLB_IRQ_EN_EN) != 0

/-! ### Access types (16 R459, R460) -/

/-- A register has a field of one of these access types. -/
def hasAcc (r : RegD) (p : Acc → Bool) : Bool := r.fields.any fun f => p f.acc

/-- A register has a writable field. -/
def writable (r : RegD) : Bool := hasAcc r fun a => a != .ro && a != .rc

/-- A register is written through the guarded pair (16 R465). -/
def guarded (r : RegD) : Bool := hasAcc r (· == .wg)

/-- The register's word after a write of `v` by its access types: RO, RC and reserved bits keep their value, and WO fields store nothing (16 R459, R460, R463). -/
def writeWord (r : RegD) (old v : Word) : Word :=
  r.fields.foldl (fun w f =>
    let fl : Fld := ⟨0, f.lsb, f.width⟩
    match f.acc with
    | .rw | .wg => fl.put (fl.get v) w
    | .w1c => fl.put (Nat.xor (fl.get w) (Nat.land (fl.get w) (fl.get v))) w
    | .wm =>
      let m := v.toNat / 65536
      let o := fl.get w
      fl.put (Nat.lor (Nat.xor o (Nat.land o m)) (Nat.land (v.toNat % 65536) m)) w
    | _ => w) old

/-! ### Reads of registers -/

/-- The word a register reads, less the effects of the read (16 R459): a few fields follow the state directly. -/
def regVal (s : State) (a : Nat) : Word :=
  if a = GLB + GLB_ID_GRADE.off then GLB_ID_GRADE.put (if Config.gradeOne then 1 else 0) (rg s a)
  else if a = CON + CON_STATUS_LINE_LEN.off then CON_STATUS_LINE_LEN.put s.con.buf.chars.length (rg s a)
  else if 0x100000 ≤ a ∧ a < 0x200000 ∧ a % 0x10000 = CH_STATUS_MEMBER.off then
    CH_STATUS_MEMBER.put (if inMap s (Fin.ofNat 16 (a / 0x10000)) then 1 else 0) (rg s a)
  else if 0x100000 ≤ a ∧ a < 0x200000 ∧ a % 0x10000 = CH_IDLEBUS_COUNT.off then
    BitVec.ofNat 32 (min 0xFFFFFFFF ((rg s a).toNat + idleNow s (Fin.ofNat 16 (a / 0x10000))))
  else if 0x100000 ≤ a ∧ a < 0x200000 ∧ a % 0x10000 = CH_PDCYC_COUNT.off then
    let c := Fin.ofNat 16 (a / 0x10000)
    BitVec.ofNat 32 (min 0xFFFFFFFF ((rg s a).toNat + pdNow s c 0 + pdNow s c 1))
  else rg s a

/-- RC fields restart after a read of their register (16 R466). -/
def rcRestart (a : Nat) (s : State) : State :=
  if a = TXN + TXN_DUPSTAT_DUP_DONE.off then rgSet a 0 s
  else if a = LED + LED_WINMAX_E_NJ.off then rgSet a (rg s (LED + LED_WIN_E_NJ.off)) s
  else if JRN + 0x40 ≤ a ∧ a < JRN + 0x80 then
    let f := fget s JRN (JRN_FILL_FILL.nth ((a - JRN - 0x40) / 4))
    fset JRN (JRN_FILL_HWM.nth ((a - JRN - 0x40) / 4)) f s
  else if 0x100000 ≤ a ∧ a < 0x200000 ∧ a % 0x10000 = CH_FILL_FILL.off then
    fset (a / 0x10000 * 0x10000) CH_FILL_HWM (fget s (a / 0x10000 * 0x10000) CH_FILL_FILL) s
  else s

/-! ### Indirect tables (16 R468 to R470) -/

def w32 (n : Nat) : Word := BitVec.ofNat 32 n

/-- The entry of the event log in a slot (15 R452, R455). -/
def evEntry (s : State) (e : Nat) : Option EvLogEnt := s.con.log.find? fun x => x.seq % 256 = e

/-- A word of the event log (15 R455). -/
def conTab (s : State) (i : Nat) : Option Word :=
  if i = 0x4000 then some (w32 (s.con.logSeq % 256))
  else if 0x4000 < i ∨ i % 64 = 63 then none
  else match evEntry s (i / 64) with
    | none => some 0
    | some x =>
      if i % 64 = 0 then some x.time
      else
        let b := lineBytes (evLine x.ev)
        let at_ := fun (k : Nat) => ((b[(i % 64 - 1) * 4 + k]?).getD 0).toNat
        some (w32 (at_ 0 + at_ 1 * 2 ^ 8 + at_ 2 * 2 ^ 16 + at_ 3 * 2 ^ 24))

/-- A word of a stream record (04 R138). -/
def txnTab (s : State) (i : Nat) : Option Word :=
  if 0x10000 ≤ i then none else
    let r := s.strm (Fin.ofNat 4 (i / 16384)) (BitVec.ofNat 12 (i / 4))
    match i % 4 with
    | 0 => some (w32 (r.n.toNat + atBit r.frozen 16 + atBit r.ue 17 + r.k % 16 * 2 ^ 18 + atBit r.resv 22 + atBit r.sync.isSome 23))
    | 1 => some (w32 (r.retryAt.getD 0))
    | 2 => some (w32 (((r.sync.map fun y => y.seq.toNat).getD 0) + (r.win.filter fun w => w.fin.isNone).length * 2 ^ 16))
    | _ => some 0

/-- A word of the manifest table (05 R164). -/
def manTab (s : State) (i : Nat) : Option Word :=
  if 0x1000 ≤ i then none else
    let x := s.man (i / 16)
    let f := x.f
    let cls := match f.cls with | .shared => 0 | .guar => 1 | .rt => 2
    match i % 16 with
    | 0 => some (w32 (x.st.code + cls * 4 + atBit f.twin 4 + f.ports.toNat * 2 ^ 8 + x.gen.toNat * 2 ^ 16))
    | 1 => some (w32 (f.bw % 1024 + f.lat % 2 ^ 20 * 2 ^ 12))
    | 2 => some (w32 f.way)
    | 3 => some (w32 f.qbase)
    | 4 => some (w32 f.qcount)
    | 5 => some (w32 f.blocks)
    | 6 => some (w32 f.dirty)
    | 7 => some (w32 (f.jshare % 2 ^ 14 + f.ishare % 512 * 2 ^ 16))
    | 8 => some (w32 x.shortCh.toNat)
    | 9 => some (w32 (x.achv % 1024 + x.floorNs % 65536 * 2 ^ 16))
    | _ => some 0

/-- A word of the per-manifest accounts (06 R195). -/
def arbTab (s : State) (i : Nat) : Option Word :=
  if 0x4000 ≤ i then none else
    let m := i / 64
    let w := i % 64
    let a := s.acct m w
    if w < 16 then
      some (w32 (a.count % 1024 + a.emin % 1024 * 2 ^ 10 + a.thr % 1024 * 2 ^ 20 + atBit (acctBelow s m w) 30 + atBit (rtFlag s m (Fin.ofNat 17 w)) 31))
    else if w < 33 then some (w32 (heldGeneral s (BitVec.ofNat 8 m) (Fin.ofNat 17 (w - 16))))
    else some 0

/-- The frame that stands at place `f` of the frame directory: the tier frames, and after them the pinned frames (07 R231). -/
def dirFrame (s : State) (f : Nat) : Option Frame :=
  if f < tierFrames s then some (s.frame false f)
  else if f < tierFrames s + pinFrames s then some (s.frame true (f - tierFrames s))
  else none

/-- A word of the frame directory or of the pin table (07 R231). -/
def wayTab (s : State) (i : Nat) : Option Word :=
  if i < 0x40000 then
    match dirFrame s (i / 2) with
    | none => none
    | some f =>
      if i % 2 = 0 then some (w32 f.seg)
      else some (w32 (f.seg / 2 ^ 32 % 2 + f.st.code * 2 + ((f.owner.map BitVec.toNat).getD 0) * 2 ^ 4 + f.dirty.toNat * 2 ^ 12 + f.age % 4 * 2 ^ 28))
  else if i < 0x40040 then
    let p := s.way.pins[Fin.ofNat 16 ((i - 0x40000) / 4)]
    match i % 4 with
    | 0 => some p.addrLo
    | 1 => some (w32 p.addrHi.toNat)
    | 2 => some (w32 (p.segs.toNat + p.man.toNat * 2 ^ 16 + atBit p.en 24 + p.pstate.toNat * 2 ^ 25))
    | _ => none
  else none

/-- A word of the queue descriptors, the frames or the manifests' block counts (08 R239, R262). R262 gives ROLE two bits and six codes: what they read for codes 4 and 5 is a free value `fr`. -/
def queTab (s : State) (fr i : Nat) : Option Word :=
  if i < 0x200000 then
    let q := i / 16
    let d := s.qd q
    some (w32 (qdWord s q d (i % 16)))
  else if i < 0x210000 then
    if qFrameTotal s ≤ i - 0x200000 then none
    else
      let f := s.qfr (i - 0x200000)
      some (w32 ((if f.role.code < 4 then f.role.code else fr % 4) + f.queue * 4))
  else if 0x300000 ≤ i ∧ i < 0x300400 then
    let m := (i - 0x300000) / 4
    match i % 4 with
    | 0 => some (w32 (blocksHeld s m))
    | 1 => some (w32 (s.que.blocks.filter fun b => b.2.out && b.2.gone && ownsQueue s m b.2.queue).length)
    | 2 => some (w32 ((s.que.desc.filter fun d => ownsQueue s m d.1).map fun d => d.2.depth).sum)
    | _ => some (w32 (s.que.desc.filter fun d => ownsQueue s m d.1 && decide (0 < d.2.depth)).length)
  else none

/-- A word of a channel's device windows, fault log and row trackers (10 R325). -/
def chTab (s : State) (b i : Nat) : Option Word :=
  let y := s.chan (Fin.ofNat 16 (b / 0x10000))
  if i < 0x40 then if i % 32 < 18 then some (ixGet s b i) else none
  else if 0x100 ≤ i ∧ i < 0x200 then
    let e := tblGet (fun _ => ({} : FaultEnt)) y.flog ((i - 0x100) / 4)
    match i % 4 with
    | 0 => some e.time
    | 1 => some (w32 e.lam)
    | 2 => some (w32 (e.kind + atBit e.scrub 4 + e.nsym % 256 * 2 ^ 8 + e.dev % 32 * 2 ^ 16))
    | _ => some (w32 e.mask.toNat)
  else if i = 0x200 then some (w32 (y.flogHead % 64))
  else if 0x1000 ≤ i ∧ i < 0x1800 then
    let k := (i - 0x1000) / 32
    let l := tblGet (fun _ => ([] : List Track)) y.trk (k / 32 * 32 + k % 8 * 4 + k / 8 % 4)
    let t := (l[(i - 0x1000) / 2 % 16]?).getD {}
    if i % 2 = 0 then some (w32 (t.row % 2 ^ 17 + min t.count 32767 * 2 ^ 17))
    else some (w32 (((t.cand.map BitVec.toNat).getD 0) + atBit t.cand.isSome 8 + min t.vote 32767 * 2 ^ 9))
  else none

/-- The writable bits of a PHY entry: none where no entry is assigned (11 R349). -/
def phyMask (i : Nat) : Option Nat :=
  if i < 0x800 then
    let j := i % 0x400
    if j < 72 then some 0x7F
    else if 0x080 ≤ j ∧ j < 0x0C8 then some 0x1FF
    else if 0x100 ≤ j ∧ j < 0x112 then some 0x7F
    else if 0x120 ≤ j ∧ j < 0x132 then some 0x3FF
    else if 0x140 ≤ j ∧ j < 0x152 then some 0x3FFF
    else if 0x160 ≤ j ∧ j < 0x172 then some 0x7F
    else if 0x180 ≤ j ∧ j < 0x192 then some 0x3F3F3F3F
    else if 0x1A0 ≤ j ∧ j < 0x1B2 then some 0x3FFFF
    else if 0x1C0 ≤ j ∧ j < 0x1D2 then some 0
    else if 0x1E0 ≤ j ∧ j < 0x228 then some 0
    else none
  else if i < 0x80B then some 0xFF
  else if 0x1000 ≤ i ∧ i < 0x1600 then some (if i % 3 = (0x1000 + 2) % 3 then 0xFF else 0xFFFFFFFF)
  else if 0x1800 ≤ i ∧ i < 0x1848 then some 0xFFFFFFFF
  else if 0x1900 ≤ i ∧ i < 0x1948 then some 0x80000000
  else if i = 0x19FF then some 0
  else if (0x2000 ≤ i ∧ i < 0x2048) ∨ (0x2100 ≤ i ∧ i < 0x2148) then some 0
  else none

/-- An index of the coefficient table and the bits of its entry (12 R352). -/
def coefMask (i : Nat) : Option Nat :=
  if i < 0x0E then some 0xFFFFF
  else if 0x20 ≤ i ∧ i < 0x26 then some 0xFFFFFF
  else if 0x30 ≤ i ∧ i < 0x33 then some 0
  else none

/-- A word of the energy accounts in nJ, by LED index from 0x100 (12 R367). -/
def acctWord (s : State) (i : Nat) : Word :=
  w32 (tblGet (fun _ => 0) s.led.acct ((i - 0x100) / 2) / 1000 / (if i % 2 = 0 then 1 else 2 ^ 32))

/-- A word of the self-test tables (13 R392). -/
def bstTab (s : State) (i : Nat) : Option Word :=
  if i < 0x10 then some (w32 s.bist.next[Fin.ofNat 16 i])
  else if 0x100 ≤ i ∧ i < 0x1100 then if (i - 0x100) % 128 < 72 then some (ixGet s BST i) else none
  else if 0x2100 ≤ i ∧ i < 0x2500 then if (i - 0x2100) % 32 < 18 then some (ixGet s BST i) else none
  else if 0x2500 ≤ i ∧ i < 0x2600 then if (i - 0x2500) % 16 < 11 then some (ixGet s BST i) else none
  else if 0x3000 ≤ i ∧ i < 0x3100 then
    let e := tblGet (fun _ => ({} : BistEnt)) s.bist.log ((i - 0x3000) / 4)
    match i % 4 with
    | 0 => some e.time
    | 1 => some (w32 (e.target + e.kind * 16 + e.unit * 256))
    | 2 => some (w32 e.what)
    | _ => some (w32 (e.mask.toNat + e.action * 2 ^ 18))
  else if i = 0x3100 then some (w32 s.bist.head)
  else none

/-- A 64-bit word of a journal entry (01 R20). -/
def jrnEntWord (c slot : Nat) (e : JEntry) (k : Nat) : Nat :=
  match k with
  | 0 => e.st.code * 2 ^ 62 + e.opc.code * 2 ^ 58 + atBit e.twin 57 + atBit e.rpl 56 + e.man.toNat * 2 ^ 48 + e.port.val * 2 ^ 46
      + e.stream.toNat * 2 ^ 34 + e.seq.toNat * 2 ^ 18 + e.tag.toNat * 2 ^ 6
  | 1 => e.weight % 256 * 2 ^ 44 + e.target.toNat
  | 2 => e.resp.toNat
  | _ => (if e.stageV then Config.stageLine c slot % 2 ^ 21 * 2 ^ 43 else 0) + atBit e.stageV 42 + e.deadline.toNat

/-- A word of the journal (01 R20). Both copies hold the same entry. What the fields of an entry beside STATE hold once it has returned to FREE is a free value `f`; a slot not used since cold reset reads zero. -/
def jrnTab (s : State) (f i : Nat) : Option Word :=
  if 0x100000 ≤ i then none else
    let c := i % 0x80000 / 0x8000
    let slot := i / 8 % 4096
    let w := i % 8
    match getEntry s (Fin.ofNat 16 c) slot with
    | some e => some (w32 (jrnEntWord c slot e (w / 2) / (if w % 2 = 0 then 1 else 2 ^ 32)))
    | none =>
      if (s.ring (Fin.ofNat 16 c)).used ≤ slot then some 0
      else if w = 1 then some (w32 (f % 2 ^ 30)) else if w = 0 then some (w32 (f % 2 ^ 26 * 64)) else some (w32 f)

/-- A word of the holding set (16 R475). -/
def snpTab (s : State) (i : Nat) : Option Word :=
  if i < 0x400000 then some (tblGet (fun _ => 0) s.hold.regs (i * 4))
  else if 0x400100 ≤ i ∧ i < 0x400302 then some (tblGet (fun _ => 0) s.hold.ix (ixKey LED (i - 0x400000)))
  else none

/-- A word of a walk descriptor (07 R212, R213): USE follows the caravans. -/
def wlkTab (s : State) (i : Nat) : Option Word :=
  if i < 0x20000 ∧ i % 32 < 28 then
    some (if i % 32 = 2 then w32 (wdWord s (i / 32) 2 / 65536 * 65536 + wdUse s (i / 32) % 65536) else ixGet s WLK i)
  else none

/-- The entry word at an index of a block's window; none where the block's table assigns none (16 R468, R470). -/
def ixWord (s : State) (f b i : Nat) : Option Word :=
  if b = GLB then if (0x100 ≤ i ∧ i < 0x108) ∨ (0x110 ≤ i ∧ i < 0x116) then some (ixGet s GLB i) else none
  else if b = CON then conTab s i
  else if 0x20000 ≤ b ∧ b < 0x24000 then if i < 0x30 then some (ixGet s b i) else none
  else if b = TXN then txnTab s i
  else if b = MAN then manTab s i
  else if b = ARB then arbTab s i
  else if b = WAY then wayTab s i
  else if b = QUE then queTab s f i
  else if b = WLK then wlkTab s i
  else if 0x100000 ≤ b ∧ b < 0x200000 then chTab s b i
  else if 0x200000 ≤ b ∧ b < 0x300000 then (phyMask i).map fun _ => ixGet s b i
  else if b = LED then
    if 0x100 ≤ i ∧ i < 0x302 then some (acctWord s i) else (coefMask i).map fun _ => ixGet s LED i
  else if b = BST then bstTab s i
  else if b = AON then if i < 1024 then some (ixGet s AON i) else none
  else if b = SNP then snpTab s i
  else if b = JRN then jrnTab s f i
  else none

/-- The entry that an index belongs to: its first index, and its number of words (16 R469). -/
def ixSpan (b i : Nat) : Nat × Nat :=
  let n : Nat :=
    if b = CON then if i < 0x4000 then 64 else 1
    else if b = TXN then 4
    else if b = MAN then 16
    else if b = ARB then 64
    else if b = WAY then if i < 0x40000 then 2 else 4
    else if b = QUE then if i < 0x200000 then 16 else 1
    else if b = WLK then 32
    else if 0x100000 ≤ b ∧ b < 0x200000 then if 0x100 ≤ i ∧ i < 0x200 then 4 else if 0x1000 ≤ i then 2 else 1
    else if b = LED then if 0x100 ≤ i then 2 else 1
    else if b = BST then if 0x3000 ≤ i ∧ i < 0x3100 then 4 else 1
    else if b = JRN then 8
    else 1
  (i / n * n, n)

/-- The index ranges of a block (16 R470), as first and last index. -/
def ixRanges (b : Nat) : List (Nat × Nat) :=
  if b = GLB then [(0x100, 0x107), (0x110, 0x115)]
  else if b = CON then [(0, 0x3FFF), (0x4000, 0x4000)]
  else if 0x20000 ≤ b ∧ b < 0x24000 then [(0, 0x2F)]
  else if b = TXN then [(0, 0xFFFF)]
  else if b = MAN then [(0, 0xFFF)]
  else if b = ARB then [(0, 0x3FFF)]
  else if b = WAY then [(0, 0x3FFFF), (0x40000, 0x4003F)]
  else if b = QUE then [(0, 0x1FFFFF), (0x200000, 0x20FFFF), (0x300000, 0x3003FF)]
  else if b = WLK then [(0, 0x1FFFF)]
  else if 0x100000 ≤ b ∧ b < 0x200000 then [(0, 0x3F), (0x100, 0x200), (0x1000, 0x17FF)]
  else if 0x200000 ≤ b ∧ b < 0x300000 then
    [(0, 0x7FF), (0x800, 0x80A), (0x1000, 0x15FF), (0x1800, 0x1847), (0x1900, 0x1947), (0x19FF, 0x19FF), (0x2000, 0x2047), (0x2100, 0x2147)]
  else if b = LED then [(0, 0xD), (0x20, 0x25), (0x30, 0x32), (0x100, 0x2FF), (0x300, 0x301)]
  else if b = BST then [(0, 0x3100)]
  else if b = AON then [(0, 0x3FF)]
  else if b = SNP then [(0, 0x3FFFFF), (0x400100, 0x400301)]
  else if b = JRN then [(0, 0xFFFFF)]
  else []

/-- An index lies in a listed range. -/
def ixListed (b i : Nat) : Bool := (ixRanges b).any fun r => decide (r.1 ≤ i ∧ i ≤ r.2)

/-- The current index of a block's window. -/
def ixAt (s : State) (b : Nat) : Nat := (rg s (b + 0xFF0)).toNat % 2 ^ 24

/-- The latch of a block is dropped. -/
def dropLatch (b : Nat) (s : State) : State := { s with latches := s.latches.filter fun l => l.1 ≠ b }

/-- The index steps on by 1 modulo 2^24 (16 R468). -/
def ixStep (b : Nat) (s : State) : State := rgSet (b + 0xFF0) (w32 ((ixAt s b + 1) % 2 ^ 24)) s

/-- A read of BLOCK_IND_DATA (16 R468, R469). -/
def indRead (b : Nat) (s : State) : Word × State :=
  let i := ixAt s b
  let (i0, n) := ixSpan b i
  let (f, s) := takeFree s
  let s := ixStep b s
  match ixWord s f b i with
  | none => (0, fset GLB GLB_STATUS_IND_RANGE 1 (dropLatch b s))
  | some w =>
    if n = 1 then (w, dropLatch b s)
    else if i = i0 then
      let ws := (List.range n).map fun k => (ixWord s (Config.free (s.free + k)) b (i0 + k)).getD 0
      (w, { dropLatch b s with latches := (b, i0, w :: ws.tail) :: (dropLatch b s).latches, free := s.free + n })
    else match s.latches.find? fun l => l.1 = b ∧ l.2.1 = i0 with
      | some l => ((l.2.2[i - i0]?).getD 0, s)
      | none => (w, dropLatch b s)

/-! ### Writes of indirect entries -/

/-- A frozen stream is set open (01 R28, R30). -/
def openStream (p : Fin 4) (t : BitVec 12) (s : State) : State :=
  let r := s.strm p t
  if !r.frozen then s
  else if r.ue then
    let mine := fun (e : JEntry) => e.orphan.isNone && !e.recorded && e.port == p && e.stream == t
    let seqs := (s.rings.toList.flatMap fun x => x.entries.filter mine).map (·.seq)
    let num := fun (q : BitVec 16) => s.order * 65536 + q.toNat
    let mark := fun (e : JEntry) => if mine e then { e with orphan := some (num e.seq) } else e
    let s := { s with order := s.order + 1, rings := s.rings.map fun x => { x with entries := x.entries.map mark, copyB := x.copyB.map mark } }
    let kept := r.win.filterMap fun w => if seqs.contains w.seq then some (num w.seq, w) else none
    setStrm p t { s.strm p t with old := r.old ++ kept, n := 0, win := [], k := 0, resv := false, retryAt := none, frozen := false, ue := false } (forAll r.win (fun w s => releaseRet w.ret s) s)
  else setStrm p t { r with frozen := false } s

/-- A write of a pin entry's word (07 R206, R231). -/
def pinWrite (k : Fin 16) (w : Nat) (v : Word) (s : State) : State :=
  let p := s.way.pins[k]
  let put := fun (q : PinEntry) (s : State) => { s with way := { s.way with pins := s.way.pins.set k q } }
  if p.en then if w = 2 ∧ !bitOf v.toNat 24 then pinDisable k s else s
  else match w with
    | 0 => put { p with addrLo := v } s
    | 1 => put { p with addrHi := BitVec.ofNat 12 v.toNat } s
    | _ =>
      let s := put { p with segs := BitVec.ofNat 16 v.toNat, man := BitVec.ofNat 8 (v.toNat / 65536) } s
      if bitOf v.toNat 24 then pinEnable k s else s

/-- The writable bits of a word of a walk descriptor (07 R212, R213). -/
def wlkMask (w : Nat) : Nat :=
  if w = 0 then 0xFFFFFFFE
  else if w = 1 then 0x7FFF
  else if w < 4 then 0
  else match (w - 4) % 3 with
    | 0 => 0x3FFF
    | 1 => 0xFFFFFFFF
    | _ => 0xFFFFF

/-- A word with the bits of a mask replaced. -/
def maskPut (m : Nat) (old v : Word) : Word := (old &&& ~~~(w32 m)) ||| (v &&& w32 m)

/-- An entry is a setting of a PHY whose channel is in service or in self-refresh: it takes no write (11 R329). -/
def settingsShut (s : State) (b i : Nat) : Bool :=
  let c : Fin 16 := Fin.ofNat 16 (b / 0x10000)
  decide (0x200000 ≤ b ∧ b < 0x300000) && (phyMask i).getD 0 != 0 && (chState s c == 3 || chState s c == 4)

/-- A write to an assigned entry (16 R468): none where the entry is read-only. -/
def ixWrite (b i : Nat) (v : Word) (s : State) : Option State :=
  let store := fun (m : Nat) => if m = 0 then none else some (ixSet b i (maskPut m (ixGet s b i) v) s)
  if b = GLB then
    if mapLoaded s then some (mapRefuse 1 s)
    else store (if 0x110 ≤ i then 0x3FFFFFFF else if i % 2 = 0 then 0xFFFFFFFF else 0x1F)
  else if 0x20000 ≤ b ∧ b < 0x24000 then if 0x10 ≤ i ∧ i < 0x20 then store 0xF else none
  else if b = TXN then
    if i % 4 = 0 then some (if bitOf v.toNat 16 then openStream (Fin.ofNat 4 (i / 16384)) (BitVec.ofNat 12 (i / 4)) s else s) else none
  else if b = WAY then if 0x40000 ≤ i then some (pinWrite (Fin.ofNat 16 ((i - 0x40000) / 4)) (i % 4) v s) else none
  else if b = WLK then
    if wlkMask (i % 32) = 0 then none
    else if wdValid s (i / 32) then some s
    else store (wlkMask (i % 32))
  else if 0x200000 ≤ b ∧ b < 0x300000 then
    let c : Fin 16 := Fin.ofNat 16 (b / 0x10000)
    if (phyMask i).getD 0 = 0 then none
    else if settingsShut s b i then some (wrRej c s)
    else store ((phyMask i).getD 0)
  else if b = LED then store ((coefMask i).getD 0)
  else none

/-- A write of BLOCK_IND_DATA (16 R468). Any word of a VALID walk descriptor is refused as such (07 R213). -/
def indWrite (b : Nat) (v : Word) (s : State) : State :=
  let i := ixAt s b
  let (i0, n) := ixSpan b i
  let s := ixStep b s
  let s := if n ≠ 1 ∧ (s.latches.any fun l => l.1 = b && l.2.1 = i0) then s else dropLatch b s
  let s := onlyIf (b == WLK && decide (i < 0x20000) && wdValid s (i / 32)) (fset WLK WLK_STATUS_DESC_REJ 1) s
  match ixWord s 0 b i with
  | none => fset GLB GLB_STATUS_IND_RANGE 1 s
  | some _ =>
    match ixWrite b i v s with
    | some s => s
    | none => fset GLB GLB_STATUS_RO_WRITE 1 s

/-! ### Snapshots (16 R471 to R475) -/

/-- The blocks that hold statistics counters (16 R471). -/
def counterBlocks : List Nat :=
  [CON] ++ (List.range 4).map HP ++ [TXN, ARB, WAY, QUE, WLK] ++ (List.range 16).map CH ++ (List.range 16).map PHY ++ [BST]

/-- The addresses of a block's counters. -/
def counterAddrs (b : Nat) : List Nat :=
  match blockOf b with
  | none => []
  | some (_, rows) => (rows.filter (·.counter)).flatMap fun r => (List.range r.count).map fun k => b + r.off + 4 * k

/-- Put the words of a list of keys into a table. -/
def putAll (l : List (Nat × Word)) (t : List (Nat × Word)) : List (Nat × Word) := l.foldl (fun t e => tblSet (fun _ => 0) t e.1 e.2) t

/-- Every domain that is on and clocked copies its counters into a shadow set (16 R472 to R474). -/
def snapCapture (s : State) : State :=
  if fbit s SNP SNP_STATUS_BUSY then fset SNP SNP_STATUS_REJ 1 s
  else
    let core := blockOn s TXN
    let (t, s) := mgtDtime s
    let regs := (counterBlocks.filter (blockOn s)).flatMap fun b => (counterAddrs b).map fun a => (a, regVal s a)
    let ix := if core then (List.range 0x202).map fun k => (ixKey LED (0x100 + k), acctWord s (0x100 + k)) else []
    let valid := ((List.range 16).map fun n => atBit (blockOn s (CH n)) n).sum + ((List.range 4).map fun n => atBit (blockOn s (HP n)) (16 + n)).sum
      + atBit core 20 + 2 ^ 21
    fset SNP SNP_STATUS_BUSY 1 { s with shadow := some { valid := valid, skew := mgt8 s * 375, regs := regs, ix := ix, dtime := if core then s.ns else t } }

/-- The shadow set becomes the holding set (16 R472), and a `snap` that waited for it is answered. -/
def snapDone (s : State) : State :=
  match s.shadow with
  | none => s
  | some h =>
    let s := { s with shadow := none, hold := { h with regs := putAll h.regs s.hold.regs, ix := putAll h.ix s.hold.ix } }
    let s := fset SNP SNP_STATUS_BUSY 0 (rgSet (SNP + SNP_SEQ_SEQ.off) (rg s (SNP + SNP_SEQ_SEQ.off) + 1) s)
    let s := rgSet (SNP + 0x00C) (w32 h.valid) (rgSet (SNP + 0x010) (w32 h.dtime) (rgSet (SNP + 0x014) (w32 (h.dtime / 2 ^ 32)) (rgSet (SNP + 0x018) (w32 h.skew) s)))
    if s.con.wait = some .snap then
      answer [okLn [("seq", .n (rg s (SNP + SNP_SEQ_SEQ.off)).toNat)]] { s with con := { s.con with wait := none } }
    else s

/-! ### The AON queue (16 R467) -/

/-- A write takes effect in an AON register (14 R421). -/
def aonStore (off : Nat) (v : Word) (s : State) : State :=
  match rowAt aonRegs off with
  | none => s
  | some (r, _) =>
    if off = AON_WAKE_ADDR.off then
      let s1 := if bitOf v.toNat 16 then fset AON AON_WAKE_ADDR_REJ 0 s else s
      let a := v.toNat % 128
      if 0x08 ≤ a ∧ a ≤ 0x77 then fset AON AON_WAKE_ADDR a s1 else fset AON AON_WAKE_ADDR_REJ 1 s1
    else rgSet (AON + off) (writeWord r (rg s (AON + off)) v) s

/-- The oldest AON write takes effect at the second CK_SLOW rising edge after it: one to two CK_SLOW periods later, of 30.5 us on the crystal and at most 33.9 us on the RC oscillator; where the edges fall is a free value. -/
def aonEffect (s : State) : State :=
  match s.pwr.aonQ with
  | [] => s
  | (off, v, t) :: r =>
    let (f, s) := takeFree s
    let lo := if fbit s GLB GLB_CLKSTAT_SLOW_XTAL then 244141 else 221946
    let hi := if fbit s GLB GLB_CLKSTAT_SLOW_XTAL then 488281 else 542535
    let s := if dtimeRuns s then advanceTo8 (t + lo + f % (hi - lo + 1)) s else s
    aonStore off v { s with pwr := { s.pwr with aonQ := r } }

/-- A write to an AON register waits in the queue of 4; a fifth write waits for the oldest. -/
def aonWrite (off : Nat) (v : Word) (s : State) : State :=
  let s := if 4 ≤ s.pwr.aonQ.length then aonEffect s else s
  { s with pwr := { s.pwr with aonQ := s.pwr.aonQ ++ [(off, v, s.d8)] } }

/-! ### Register writes with an effect -/

/-- The committed charges fit the hot-safe capacity on every channel (05 R144). -/
def hotFits (s : State) : Bool :=
  let sum := (fieldsNow s).map (fun x => bwCharge x.2) |>.sum
  (members s).all fun c => decide (sum ≤ capHot (mtsOf (s.chan c).trnRate))

/-- A register takes the written word by its access types. -/
def store (a : Nat) (r : RegD) (v : Word) (s : State) : State := rgSet a (writeWord r (rg s a) v) s

/-- A new geometry sets each bank mask for its target bits (09 R274). -/
def geomMasks (s : State) : State :=
  forAll (List.range (bkTargets s)) (fun j s => ixSet GLB (0x110 + j) (BitVec.ofNat 32 (2 ^ j + 2 ^ (rowB s + j) + 2 ^ (rowB s + j + 6))) s) s

/-- A write to GLB (09 R274, R275, R291; 17 R506). -/
def glbWrite (off : Nat) (r : RegD) (v : Word) (s : State) : State :=
  let put := store (GLB + off) r v
  if off = GLB_MAP_GEOM_WIDTH.off ∨ off = GLB_MAP_TWIN_EIGHTHS.off ∨ off = GLB_MAP_EXCL_EXCL.off then
    if mapLoaded s then mapRefuse 1 s
    else if off = GLB_MAP_GEOM_WIDTH.off then geomMasks (put s)
    else put s
  else if off = GLB_MAP_CTL_LOAD.off then
    let s := fset GLB GLB_MAP_CTL_LOAD 0 (put s)
    if bitOf v.toNat 0 then (mapLoad s).1 else s
  else if off = GLB_WDOG_CTL_EN.off then if bitOf v.toNat 0 then wdogKick (put s) else put s
  else if off = GLB_WDOG_KICK_KICK.off then if bitOf v.toNat 0 then wdogKick s else s
  else put s

/-- A write to CON_CTL: a new rate waits for the answer (15 R444, R453). -/
def conWrite (off : Nat) (r : RegD) (v : Word) (s : State) : State :=
  let s' := store (CON + off) r v s
  if off = CON_CTL_BAUD.off ∧ fget s' CON CON_CTL_BAUD ≠ s.con.baud ∧ s.con.after = .nothing then { s' with con := { s'.con with after := .baud } } else s'

/-- A write to HPn_CTL or HPn_CMD (03 R102 to R104). DESIGN CHOICE (log 108): of several command bits UPGRADE acts first, then RETRAIN, then PORT_RESET. -/
def hpWrite (p : Fin 4) (off : Nat) (r : RegD) (v : Word) (s : State) : State :=
  if off = HP_CTL_EN.off then
    let tun := bitOf v.toNat 4
    if tun ∧ (allPorts.any fun q => q ≠ p && fbit s (HP q) HP_CTL_TUN_EN) then fset (HP p) HP_STATUS_TUN_REJ 1 s
    else
      let en := fbit s (HP p) HP_CTL_EN
      let was := fbit s (HP p) HP_CTL_TUN_EN
      let s := fsetB (HP p) HP_CTL_EN en (fsetB (HP p) HP_CTL_TUN_EN was (store (HP p + off) r v s))
      setPortEn p (bitOf v.toNat 0) (if tun = was then s else setTunEn p tun s)
  else if off = HP_CMD_PORT_RESET.off then
    let s := if bitOf v.toNat 2 then upgradeCmd p s else s
    let s := if bitOf v.toNat 1 then retrainReq p s else s
    if bitOf v.toNat 0 then portReset p "command" s else s
  else store (HP p + off) r v s

/-- A write to WAY (07 R197, R229). -/
def wayWriteReg (off : Nat) (r : RegD) (v : Word) (s : State) : State :=
  if off = WAY_CTL_COMMIT.off then
    let s := fset WAY WAY_CTL_MIG_EN (WAY_CTL_MIG_EN.get v) s
    if bitOf v.toNat 0 then layoutCommit (afterClear s) else s
  else if off = WAY_CARVE_QCACHE.off then carveWrite v s
  else if off = WAY_WT_MAX.off then if fbit s WAY WAY_STATUS_COMMITTED then fset WAY WAY_STATUS_CARVE_REJ 1 s else wayStat (store (WAY + off) r v s)
  else if off = WAY_MIG_WB_HI.off then forAll (listedMans s) (fun m => wbHigh (BitVec.ofNat 8 m.1)) (store (WAY + off) r v s)
  else store (WAY + off) r v s

/-- A write to QUE (08 R236, R260). -/
def queWrite (off : Nat) (r : RegD) (v : Word) (s : State) : State :=
  if off = QUE_CTL_INIT.off then
    let s := store (QUE + off) r v s
    if bitOf v.toNat 0 then (poolStart (poolBase s) (poolBlocks s) (afterClear s)).1 else s
  else if (off = QUE_POOL_BASE_LO_BASE.off ∨ off = QUE_POOL_BASE_HI_BASE.off ∨ off = QUE_POOL_BLOCKS_P.off) ∧ poolSet s then s
  else onlyIf (off == QUE_FRM_LOW.off) evict (store (QUE + off) r v s)

/-- A write to CHn (09 R285, R289; 10 R317). -/
def chWrite (c : Fin 16) (off : Nat) (r : RegD) (v : Word) (s : State) : State :=
  if off = CH_CMD_PROFILE.off then if bitOf v.toNat 0 then profileCmd c s else s
  else if ((CH_TIM0_CL.off ≤ off ∧ off ≤ CH_TIM6_TREFI.off) ∨ off = CH_RAA_IMT.off) ∧ !timOpen s c then fset (CH c) CH_STATUS_TIM_REJ 1 s
  else store (CH c + off) r v s

/-- A write to PHYn (11 R332 to R339). -/
def phyWrite (c : Fin 16) (off : Nat) (r : RegD) (v : Word) (s : State) : State :=
  let s := store (PHY c + off) r v s
  if off = PHY_TRN_CTL_START.off then
    if bitOf v.toNat 0 ∧ trainable s c then trainStart c (bitOf v.toNat 2) [] s
    else if bitOf v.toNat 1 ∧ (s.phy c).trnHold then trainEnd c [] s
    else s
  else if off = PHY_SWP_CTL_START.off then
    let s := if bitOf v.toNat 1 then if helperOn s c then compareClear c s else wrRej c s else s
    if bitOf v.toNat 0 then sweepStart c s else s
  else s

/-- A write to LED (12 R362, R366). -/
def ledWrite (off : Nat) (r : RegD) (v : Word) (s : State) : State :=
  let s := store (LED + off) r v s
  if off = LED_HOLD2_HOLD_US.off ∧ bitOf v.toNat 31 then (holdApply (fget s LED LED_HOLD_HOLD_UJ) (fget s LED LED_HOLD2_HOLD_US) s).1 else s

/-- The value written to JRN_CAP is out of range, or a manifest is OPEN or CLOSING (01 R44). -/
def capBad (s : State) (v : Word) : Bool :=
  decide (JRN_CAP_CAP.get v < 512 ∨ 8192 < JRN_CAP_CAP.get v) || fget s MAN MAN_STATUS_OPEN_CNT != 0

/-- A write takes effect in a register that has a writable field (16 R459): `b` is its block, `off` its offset. -/
def regWrite (b off : Nat) (r : RegD) (v : Word) (s : State) : State :=
  if b = GLB then glbWrite off r v s
  else if b = CON then conWrite off r v s
  else if 0x20000 ≤ b ∧ b < 0x24000 then hpWrite (Fin.ofNat 4 (b / 0x1000)) off r v s
  else if b = MAN ∧ off = MAN_CFG_PROFILE.off ∧ !bitOf v.toNat 0 ∧ !hotFits s then fset MAN MAN_STATUS_PROF_REJ 1 s
  else if b = ARB ∧ off < 12 then store (b + off) r v (keepOfs off s)
  else if b = ARB ∧ ARB_TOLL_RATE.off ≤ off ∧ off < ARB_TOLL_RATE.off + 16 then
    let p : Fin 4 := Fin.ofNat 4 (off / 4)
    let s := store (b + off) r v s
    setToll p (16 * (tollBurst s p : Int)) s
  else if b = WAY then wayWriteReg off r v s
  else if b = QUE then queWrite off r v s
  else if 0x100000 ≤ b ∧ b < 0x200000 then chWrite (Fin.ofNat 16 (b / 0x10000)) off r v s
  else if 0x200000 ≤ b ∧ b < 0x300000 then phyWrite (Fin.ofNat 16 (b / 0x10000)) off r v s
  else if b = LED then ledWrite off r v s
  else if b = PWR ∧ off = PWR_RETRY_DOM.off then (powerRetry (PWR_RETRY_DOM.get v) (store (b + off) r v s)).1
  else if b = AON then aonWrite off v s
  else if b = SNP ∧ off = SNP_CMD_CAPTURE.off then if bitOf v.toNat 0 then snapCapture s else s
  else if b = JRN ∧ off = JRN_CAP_CAP.off then
    if capBad s v then fset JRN JRN_STATUS_CAP_REJ 1 s else horizonCheck (store (b + off) r v s)
  else store (b + off) r v s

/-! ### The bus -/

/-- A write to the complement port of address `a` completes the guarded pair, or fails it (16 R464, R465). -/
def compWrite (a : Nat) (v : Word) (s : State) : State :=
  match s.guard with
  | none => guardFail s
  | some (ga, gv, t) =>
    let s := { s with guard := none }
    if ga = a ∧ v = ~~~gv ∧ s.d8 ≤ t + 256 * mgt8 s then
      match blockOf a with
      | none => s
      | some (b, rows) =>
        if !blockOn s b then domOff s
        else match rowAt rows (a - b) with
          | none => s
          | some (r, _) => regWrite b (a - b) r gv s
    else guardFail s

/-- A write of the register bus (16 R456 to R468). -/
def busWrite (a : Nat) (v : Word) (s : State) : State :=
  if !consoleOn s then s else
    match blockOf a with
    | none => fset GLB GLB_STATUS_BAD_ADDR 1 (breakPair s)
    | some (b, rows) =>
      let off := a - b
      if 0x800 ≤ off ∧ off < 0xFF0 then compWrite (a - 0x800) v s
      else
        let s := breakPair s
        if off = 0xFF0 ∨ off = 0xFF4 then
          if !blockOn s b then domOff s
          else if off = 0xFF0 then rgSet a (w32 (v.toNat % 2 ^ 24)) (dropLatch b s)
          else indWrite b v s
        else match rowAt rows off with
          | none => fset GLB GLB_STATUS_BAD_ADDR 1 s
          | some (r, _) =>
            if !blockOn s b then domOff s
            else if !writable r then fset GLB GLB_STATUS_RO_WRITE 1 s
            else if guarded r then { s with guard := some (a, v, s.d8) }
            else regWrite b off r v s

/-- A read of the register bus (16 R458, R459, R462, R466, R468); GLB_DTIME_LO latches GLB_DTIME_HI (02 R63). -/
def busRead (a : Nat) (s : State) : Word × State :=
  if !consoleOn s then (0, s) else
    match blockOf a with
    | none => (0, fset GLB GLB_STATUS_BAD_ADDR 1 s)
    | some (b, rows) =>
      let off := a - b
      if 0x800 ≤ off ∧ off < 0xFF0 then (0, s)
      else if off = 0xFF0 then if blockOn s b then (w32 (ixAt s b), s) else (0, domOff s)
      else if off = 0xFF4 then if blockOn s b then indRead b s else (0, domOff s)
      else match rowAt rows off with
        | none => (0, fset GLB GLB_STATUS_BAD_ADDR 1 s)
        | some _ =>
          if !blockOn s b then (0, domOff s)
          else if a = GLB + GLB_DTIME_LO_NS_LO.off then
            let (t, s) := mgtDtime s
            (w32 t, rgSet (GLB + GLB_DTIME_HI_NS_HI.off) (w32 (t / 2 ^ 32)) s)
          else (regVal s a, rcRestart a s)

/-- A read whose word the console interpreter takes. -/
def readBus (a : Nat) (s : State) : State :=
  let (w, s) := busRead a s
  if consoleOn s then { s with con := { s.con with rdata := w } } else s

/-! ### Commands -/

/-- REGISTER_WRITE (16 R459). -/
def execRegisterWrite (addr : Nat) (v : Word) (s : State) : Host.Outcome State Fault Refusal := .next (settle (busWrite addr v s))

/-- MASKED_WRITE (16 R463). -/
def execMaskedWrite (addr : Nat) (v : Word) (s : State) : Host.Outcome State Fault Refusal := .next (busWrite addr v s)

/-- GUARDED_VALUE_WRITE (16 R464): the value goes to the register's address. -/
def execGuardedValueWrite (addr : Nat) (v : Word) (s : State) : Host.Outcome State Fault Refusal := .next (busWrite addr v s)

/-- GUARDED_COMPLEMENT_WRITE (16 R464): `v` goes to the complement port of the register at `addr`. -/
def execGuardedComplementWrite (addr : Nat) (v : Word) (s : State) : Host.Outcome State Fault Refusal := .next (settle (busWrite (addr + 0x800) v s))

/-- GUARD_TIMEOUT (16 R464): 256 CK_MGT cycles have passed since the value was written. -/
def execGuardTimeout (s : State) : Host.Outcome State Fault Refusal :=
  .next (match s.guard with
    | none => s
    | some (_, _, t) => if dtimeRuns s then guardFail { advanceTo8 (t + 256 * mgt8 s) s with guard := none } else s)

/-- CLEAR_ON_READ (16 R466). -/
def execClearOnRead (addr : Nat) (s : State) : Host.Outcome State Fault Refusal := .next (readBus addr s)

/-- IND_DATA_READ (16 R468): `block` is the block's base. -/
def execIndDataRead (block : Nat) (s : State) : Host.Outcome State Fault Refusal := .next (readBus (block + 0xFF4) s)

/-- IND_DATA_WRITE (16 R468). -/
def execIndDataWrite (block : Nat) (v : Word) (s : State) : Host.Outcome State Fault Refusal := .next (settle (busWrite (block + 0xFF4) v s))

/-- AON_WRITE_EFFECT (16 R467). -/
def execAonWriteEffect (s : State) : Host.Outcome State Fault Refusal := .next (aonEffect s)

/-- STREAM_OPEN (01 R28, R30). -/
def execStreamOpen (port : Fin 4) (strm : BitVec 12) (s : State) : Host.Outcome State Fault Refusal := .next (settle (busWr TXN (openStream port strm) s))

/-- PROBE_ARM (02 R65). -/
def execProbeArm (s : State) : Host.Outcome State Fault Refusal := .next (busWr TXN (fset TXN TXN_PROBE_CTL_ARM 1) s)

/-- SNAPSHOT_CAPTURE (16 R472): the `snap` verb writes SNP_CMD, and its line waits for the snapshot. -/
def execSnapshotCapture (s : State) : Host.Outcome State Fault Refusal :=
  .next (if !consoleOn s || !s.con.ans.isEmpty || sleepBusy s then s else
    match s.con.line.bind (lineErr (strictMode s)) with
    | some e => answer [e] s
    | none =>
      let s := busWr SNP snapCapture s
      { s with con := { s.con with wait := some .snap } })

/-- SNAPSHOT_DONE (16 R472). -/
def execSnapshotDone (s : State) : Host.Outcome State Fault Refusal := .next (if consoleOn s then snapDone s else s)

end Sys2Proof.Machine
end

