-- ==== Sys2Proof/Machine/ConIn.lean ====
section
/-! DEFINITION. The console's inputs and outputs (15 R426 to R444): the two FIFOs, the line assembler, echo and prompt, answers and events on CON_TXD and on the tunnel; and the answers that a line gets before its verb is carried out (15 R434, R445, R450). -/

namespace Sys2Proof.Machine

/-! ### Output (15 R437 to R443) -/

/-- The port whose tunnel is active (15 R428). -/
def tunPort (s : State) : Option (Fin 4) := allPorts.find? fun p => fbit s (HP p) HP_STATUS_TUN_ACT

/-- Echo is on: in typed mode, as CON_CTL.ECHO says (15 R437). -/
def echoOn (s : State) : Bool := !strictMode s && fbit s CON CON_CTL_ECHO

/-- Bytes go out on CON_TXD. -/
def putU (l : List Byte) (s : State) : State := { s with con := { s.con with txd := s.con.txd ++ l } }

/-- Bytes go into the tunnel output buffer, and on as credits allow, where they fit whole (15 R443). -/
def putT (l : List Byte) (s : State) : State :=
  match tunPort s with
  | none => s
  | some p => if s.con.tunOut.length + l.length ≤ 4096 then pump p { s with con := { s.con with tunOut := s.con.tunOut ++ l } } else s

/-- An event that is sent is logged with the low 32 bits of DTIME at which it was queued (15 R452). -/
def logEvent (t : Nat) (e : OutLn) (s : State) : State :=
  let x : EvLogEnt := { seq := s.con.logSeq, time := w32 t, ev := e }
  { s with con := { s.con with log := (s.con.log ++ [x]).drop (s.con.log.length + 1 - 256), logSeq := s.con.logSeq + 1 } }

/-- The event of dropped tunnel lines (15 R443). -/
def dropEvent (s : State) : OutLn := ⟨"console_drop", [("lines", .n s.con.drops)]⟩

/-- A line goes to the tunnel while it is active: whole, after the count of lines dropped before it, or not at all (15 R443). -/
def lineT (l : List Byte) (s : State) : State :=
  if (tunPort s).isNone then s else
    let pre := if s.con.drops = 0 then [] else outBytes (strictMode s) (evLine (dropEvent s))
    if s.con.tunOut.length + (pre ++ l).length ≤ 4096 then
      let s := onlyIf (s.con.drops != 0) (logEvent s.ns (dropEvent s)) s
      putT (pre ++ l) { s with con := { s.con with drops := 0 } }
    else fset CON CON_STATUS_TUN_DROP 1 (fbump CON CON_TUNDROP_COUNT { s with con := { s.con with drops := s.con.drops + 1 } })

/-- A line goes to every active output, with its check in strict mode (15 R437, R440). -/
def sendLine (l : OutLn) (s : State) : State :=
  let b := outBytes (strictMode s) l
  let s := lineT b (putU b s)
  { s with con := { s.con with dirtyU := false, dirtyT := false } }

/-- The prompt goes to every active output in typed mode (15 R437, R439). -/
def prompt (s : State) : State :=
  if strictMode s then s
  else
    let s := putT [62, 32] (putU [62, 32] s)
    { s with con := { s.con with dirtyU := true, dirtyT := true } }

/-- Echoed bytes go back to the source of the byte (15 R438). -/
def echoTo (tun : Bool) (l : List Byte) (s : State) : State :=
  if !echoOn s then s
  else if tun then putT l { s with con := { s.con with dirtyT := true } }
  else putU l { s with con := { s.con with dirtyU := true } }

/-- A terminator is echoed as CR LF, and the output line is clean (15 R438). -/
def echoEnd (tun : Bool) (s : State) : State :=
  if !echoOn s then s
  else if tun then putT [13, 10] { s with con := { s.con with dirtyT := false } }
  else putU [13, 10] { s with con := { s.con with dirtyU := false } }

/-- The echoed characters of the partial line, by source. -/
def partLine (s : State) (tun : Bool) : List Byte :=
  if echoOn s then (s.con.buf.chars.reverse.filter fun b => b.tun == tun).map ConByte.byte else []

/-- An event line is sent: where a prompt or a partial line stands on an output, CR LF goes before it, and the prompt and the characters come again after it (15 R442). -/
def sendEvent (l : List OutLn) (s : State) : State :=
  let u := s.con.dirtyU
  let t := s.con.dirtyT
  let s := onlyIf t (putT [13, 10]) (onlyIf u (putU [13, 10]) s)
  let s := forAll l (fun e s => sendLine (evLine e) s) s
  if strictMode s then s
  else
    let s := onlyIf u (putU ([62, 32] ++ partLine s false)) s
    let s := onlyIf t (putT ([62, 32] ++ partLine s true)) s
    { s with con := { s.con with dirtyU := u, dirtyT := t } }

/-! ### The line assembler (15 R427, R428, R430, R432, R433) -/

/-- The assembler waits: a line is complete and has not been answered to its end (15 R441). -/
def asmBusy (s : State) : Bool := s.con.line.isSome || !s.con.ans.isEmpty || sleepBusy s

/-- A line with nothing in it but spaces (15 R435). -/
def blank (l : ConLine) : Bool := l.lost == 0 && !l.cut && !l.tooLong && l.bad.isNone && l.chars.all fun b => b.byte == 32

/-- A terminator ends the line: a blank one gets the prompt, any other waits for its answer (15 R427, R430, R435). -/
def lineEnd (tun : Bool) (s : State) : State :=
  let s := echoEnd tun s
  let l := { s.con.buf with tun := s.con.buf.tun || tun, uart := s.con.buf.uart || !tun }
  let s := { s with con := { s.con with buf := {}, skip := false } }
  let s := onlyIf (l.uart && l.tun && l.lost == 0) (fun s => fset CON CON_STATUS_MIXED 1 (fbump CON CON_MIXED_COUNT s)) s
  if blank l then prompt s else { s with con := { s.con with line := some l } }

/-- A character is stored, unless the line is full (15 R433), and echoed. -/
def storeChar (tun : Bool) (b : Byte) (s : State) : State :=
  let l := { s.con.buf with tun := s.con.buf.tun || tun, uart := s.con.buf.uart || !tun }
  if l.tooLong || 200 ≤ l.chars.length then { s with con := { s.con with buf := { l with tooLong := true } } }
  else echoTo tun [b] { s with con := { s.con with buf := { l with chars := { tun := tun, byte := b } :: l.chars } } }

/-- One byte, or one mark, leaves a FIFO for the assembler (15 R427, R428, R432). -/
def asmByte (x : ConByte) (s : State) : State :=
  let c := s.con
  let n := x.byte.toNat
  if x.brk then { s with con := { c with buf := {}, skip := false, afterCr := false } }
  else if x.lost ≠ 0 then { s with con := { c with buf := { ({} : ConLine) with lost := (if c.skip then c.buf.lost else 0) + x.lost }, skip := true } }
  else if (n = 13 ∨ n = 10) ∧ !x.frame then
    if n = 10 ∧ c.afterCr then { s with con := { c with afterCr := false } }
    else lineEnd x.tun { s with con := { c with afterCr := decide (n = 13) } }
  else
    let s := { s with con := { c with afterCr := false } }
    let c := s.con
    if c.skip then s
    else if x.frame ∨ 128 ≤ n then
      { s with con := { c with buf := { c.buf with bad := some (c.buf.bad.getD x.byte), tun := c.buf.tun || x.tun, uart := c.buf.uart || !x.tun } } }
    else if 32 ≤ n ∧ n < 127 then storeChar x.tun x.byte s
    else if n = 9 then storeChar x.tun 32 s
    else if n = 8 ∨ n = 127 then
      match c.buf.chars with
      | [] => s
      | _ :: r => echoTo x.tun [8, 32, 8] { s with con := { c with buf := { c.buf with chars := r } } }
    else if n = 21 then
      let s := { s with con := { c with buf := { c.buf with chars := [] } } }
      echoTo x.tun [13, 10, 62, 32] s
    else s

/-- Bytes of a source that wait in its FIFO. -/
def fifoFill (s : State) (tun : Bool) : Nat := (s.con.fifo.filter fun b => b.tun == tun && b.lost == 0 && !b.brk).length

/-- A waiting tunnel message whose bytes fit enters the tunnel FIFO, and its class C slot is released (15 R428, R429, 03 R86). -/
def tunTake (p : Fin 4) (slot : Slot) (s : State) : State :=
  let k := slotBits slot 123 120
  if portSt s p ≠ PORT_ACTIVE ∨ !fbit s (HP p) HP_STATUS_TUN_ACT ∨ slotBits slot 127 124 ≠ 9 ∨ 1024 < fifoFill s true + k then s else
    let had := (s.port p).conQ.contains slot
    let s := updPort p (fun ps => { ps with
      conQ := ps.conQ.erase slot, rxC := if had then { ps.rxC with released := ps.rxC.released + 1 } else ps.rxC }) s
    let bytes : List ConByte := if k = 0 then [{ tun := true, brk := true }]
      else (List.range k).map fun i => { tun := true, byte := slotByte slot (i + 1) }
    { s with con := { s.con with fifo := s.con.fifo ++ bytes } }

/-- The assembler takes bytes in the order of their arrival until a line is complete (15 R430, R441). -/
def drainFifo : Nat → State → State
  | 0, s => s
  | fuel + 1, s =>
    match s.con.fifo with
    | [] => s
    | x :: r => if asmBusy s then s else drainFifo fuel (asmByte x { s with con := { s.con with fifo := r } })

def drain (s : State) : State := drainFifo s.con.fifo.length s

/-- A UART byte arrives: it waits in the FIFO, or is lost where the FIFO is full (15 R427). -/
def uartIn (x : ConByte) (s : State) : State :=
  if 1024 ≤ fifoFill s false then
    let s := fset CON CON_STATUS_UART_OVF 1 (fbump CON CON_UART_LOST_COUNT s)
    let f := match s.con.fifo.getLast? with
      | some y => if y.lost ≠ 0 then s.con.fifo.dropLast ++ [{ y with lost := y.lost + 1 }] else s.con.fifo ++ [{ lost := 1 }]
      | none => [{ lost := 1 }]
    { s with con := { s.con with fifo := f } }
  else drain { s with con := { s.con with fifo := s.con.fifo ++ [x] } }

/-- The output of a command begins: `txd` holds what this command puts out. -/
def freshOut (s : State) : State := { s with con := { s.con with txd := [] } }

/-! ### Tokens and forms (15 R434, R445) -/

/-- Lower case. -/
def lowerB (b : Byte) : Byte := if 65 ≤ b.toNat ∧ b.toNat ≤ 90 then b + 32 else b

/-- The tokens of a line, split at runs of spaces; `cur` is the token in hand, last byte first. -/
def splitTok : List Byte → List Byte → List (List Byte)
  | cur, [] => if cur.isEmpty then [] else [cur.reverse]
  | cur, b :: r => if b = 32 then (if cur.isEmpty then splitTok [] r else cur.reverse :: splitTok [] r) else splitTok (b :: cur) r

/-- The tokens of a line in lower case, without its line check. -/
def tokensOf (l : ConLine) : List (List Byte) :=
  let t := match checkOf (l.chars.map ConByte.byte) with
    | some (t, _) => t
    | none => lineText l
  splitTok [] (t.map lowerB)

def isLetter (b : Byte) : Bool := 97 ≤ b.toNat && b.toNat ≤ 122
def isDec (b : Byte) : Bool := 48 ≤ b.toNat && b.toNat ≤ 57

/-- Digits with underscores between digits only. -/
def digitsOk (p : Byte → Bool) (prev : Bool) : List Byte → Bool
  | [] => prev
  | b :: r => if b = 95 then prev && !r.isEmpty && digitsOk p false r else p b && digitsOk p true r

/-- The value of digits of a base. -/
def digitsVal (base : Nat) (l : List Byte) : Nat := (l.filter (· ≠ 95)).foldl (fun a b => a * base + (hexVal b).getD 0) 0

/-- A number in one of the accepted forms (15 R434). -/
def numTok (l : List Byte) : Option Nat :=
  match l with
  | 48 :: 120 :: d => if digitsOk (fun b => (hexVal b).isSome) false d && decide ((d.filter (· ≠ 95)).length ≤ 16) then some (digitsVal 16 d) else none
  | 48 :: 98 :: d => if digitsOk (fun b => b = 48 || b = 49) false d && decide ((d.filter (· ≠ 95)).length ≤ 64) then some (digitsVal 2 d) else none
  | d => if !d.isEmpty && d.all isDec && decide (digitsVal 10 d < 2 ^ 64) then some (digitsVal 10 d) else none

/-- A symbol (15 R434). -/
def symTok (l : List Byte) : Bool :=
  match l with
  | [] => false
  | b :: r => isLetter b && r.all fun c => isLetter c || isDec c || c == 95 || c == 46

/-- A range: number+number (15 R434). -/
def rangeTok (l : List Byte) : Bool :=
  match l.span (· ≠ 43) with
  | (a, _ :: b) => (numTok a).isSome && (numTok b).isSome
  | _ => false

/-- A token's value is in one of the accepted forms. -/
def valueTok (l : List Byte) : Bool := (numTok l).isSome || symTok l || rangeTok l

/-- A keyed token: its key and its value. -/
def keyTok (l : List Byte) : Option (List Byte × List Byte) :=
  match l.span (· ≠ 61) with
  | (k, _ :: v) => some (k, v)
  | _ => none

/-- A token is in one of the accepted forms (15 R434). -/
def tokOk (l : List Byte) : Bool :=
  match keyTok l with
  | some (k, v) => symTok k && valueTok v
  | none => valueTok l

/-- What an argument of a form may be: a number, a symbol, one of a set of words, a range, or anything. -/
inductive ArgKind where
  | num | sym | word (l : List String) | range | any
  deriving DecidableEq, Repr

/-- A form of a verb (15 R445): the word that selects it, its positional arguments, how many of them may be absent, its required and optional keyed arguments, and its flags. -/
structure VerbForm where
  act : Option String := none
  pos : List (String × ArgKind) := []
  absent : Nat := 0
  req : List (String × ArgKind) := []
  opt : List (String × ArgKind) := []
  flags : List String := []
  /-- one of the optional keyed arguments must be given -/
  oneOf : Bool := false
  deriving Repr, Inhabited

/-- The form of a verb that stands alone. -/
def bareForm : VerbForm := {}

/-- The words that select a form, where the first argument is keyed. -/
def onOff : ArgKind := .word ["on", "off"]
def bistTargets : ArgKind := .word ["way", "dram", "patrol", "phy", "lane"]

/-- Fields of a manifest (05 R165). -/
def manArgs : List (String × ArgKind) :=
  [("class", .word ["rt", "guar", "shared"]), ("ports", .num), ("lat", .num), ("journal", .num), ("intake", .num)]
def manOpts : List (String × ArgKind) := [("bw", .num), ("way", .num), ("q", .range), ("blocks", .num), ("dirty", .num)]

/-- The views of `show` (15 R448). -/
def viewForms : List (String × VerbForm) :=
  [("journal", { req := [("ch", .num)] }), ("stream", { req := [("port", .num), ("stream", .num)] }), ("clocks", bareForm), ("probe", bareForm),
   ("port", { pos := [("p", .num)] }), ("txn", bareForm), ("capacity", { req := [("ch", .num)] }), ("toll", { req := [("port", .num)] }),
   ("arb", { req := [("ch", .num)] }), ("account", { req := [("man", .num), ("ch", .num)] }), ("walk", { req := [("h", .num)] }), ("pool", bareForm),
   ("queue", { opt := [("q", .num), ("man", .num)], oneOf := true }), ("map", { req := [("addr", .num)] }), ("channel", { pos := [("n", .num)] }),
   ("ecc", { req := [("ch", .num)] }), ("rowact", { req := [("ch", .num)] }),
   ("phy", { req := [("ch", .num), ("rank", .num), ("bit", .num)] }), ("power", bareForm), ("console", bareForm)]

/-- The forms of the verbs (15 R445). -/
def verbForms : List (String × List VerbForm) :=
  [ ("id", [bareForm]),
    ("help", [{ pos := [("verb", .sym)], absent := 1, opt := [("name", .sym), ("code", .num)] }]),
    ("rd", [{ pos := [("addr", .num)], opt := [("n", .num)] }]),
    ("wr", [{ pos := [("addr", .num), ("value", .num)] }]),
    ("wrm", [{ pos := [("addr", .num), ("mask", .num), ("value", .num)] }]),
    ("wrg", [{ pos := [("addr", .num), ("value", .num)] }]),
    ("ird", [{ pos := [("block", .sym), ("index", .num)], opt := [("n", .num)] }]),
    ("iwr", [{ pos := [("block", .sym), ("index", .num)] ++ (List.range 16).map (fun _ => ("v1", .num)), absent := 15 }]),
    ("snap", [bareForm]),
    ("get", [{ pos := [("name", .sym)] }]),
    ("set", [{ pos := [("name", .sym), ("value", .any)] }]) ] ++
  [ ("show", viewForms.map fun v => { v.2 with act := some v.1 }),
    ("manifest",
      [{ act := some "open", req := ("id", .num) :: manArgs, opt := manOpts, flags := ["twin"] },
       { act := some "modify", req := [("id", .num)], opt := manArgs ++ manOpts, flags := ["twin"] },
       { act := some "close", req := [("id", .num)], flags := ["force"] }]),
    ("queue", [{ act := some "pool", req := [("base", .num), ("blocks", .num)] }, { act := some "reset", req := [("q", .num)] }]),
    ("walk",
      [{ act := some "define", req := [("h", .num), ("man", .num), ("home", .num), ("policy", .word ["wait", "bypass"]), ("hold", .num), ("slots", .num), ("slotseg", .num), ("nctx", .num)] },
       { act := some "stage", req := [("h", .num), ("s", .num), ("type", .word ["stream", "gather"]), ("base", .num), ("shift", .num), ("width", .num)], opt := [("segs", .num)] },
       { act := some "load", req := [("h", .num)] }, { act := some "unload", req := [("h", .num)] }]),
    ("train",
      [{ act := some "sweep", req := [("ch", .num)],
         opt := [("ctrl", .any), ("rank", .num), ("src", .any), ("first", .num), ("last", .num), ("step", .num), ("bursts", .num), ("apply", .num)] },
       { act := some "end", req := [("ch", .num)] },
       { req := [("ch", .num)], opt := [("mode", .word ["manual"])] }]) ] ++
  [ ("bist",
      [{ act := some "show", opt := [("target", bistTargets), ("ch", .num), ("port", .num)] },
       { act := some "run", req := [("target", bistTargets)], opt := [("ch", .num), ("port", .num)] },
       { act := some "log", opt := [("last", .num)] }]),
    ("ledger", [{ act := some "hold", req := [("uj", .num), ("us", .num)] }, { act := some "show", opt := [("man", .num)] }]),
    ("power", [{ act := some "retry", req := [("dom", .word ((List.range 23).map domName))] }]),
    ("sleep", [{ act := some "doze" }, { act := some "banked" }, { act := some "wake" }, { act := some "resume" }]),
    ("clock", [{ act := some "run" }]),
    ("reset", [{ act := some "warm" }, { act := some "cold" }, { opt := [("port", .num), ("ch", .num)], oneOf := true }]),
    ("log", [{ act := some "clear" }, { opt := [("last", .num)] }]),
    ("echo", [{ pos := [("state", onOff)] }]),
    ("mode", [{ pos := [("mode", .word ["typed", "strict"])] }]) ]

/-- A value serves an argument's kind. -/
def kindOk (k : ArgKind) (v : List Byte) : Bool :=
  match k with
  | .num => (numTok v).isSome
  | .sym => symTok v
  | .word l => l.any fun w => strBytes w == v
  | .range => rangeTok v
  | .any => true

/-- The form that a line's arguments select: the one whose word is the first positional argument, else the form that needs no word. Forms selected by a word may have it after keyed arguments, as `train` does. -/
def formFor (fs : List VerbForm) (args : List (List Byte)) : Option VerbForm :=
  match args.find? fun a => (keyTok a).isNone with
  | some a => (fs.find? fun f => f.act.any fun w => strBytes w == a).or (fs.find? fun f => f.act.isNone)
  | none => fs.find? fun f => f.act.isNone

/-- The first argument that the form does not list, by its token number (15 R445): `pos` are the positional arguments still expected. -/
def argErr (f : VerbForm) : List (String × ArgKind) → Nat → List (List Byte) → Option Nat
  | _, _, [] => none
  | pos, k, a :: r =>
    match keyTok a with
    | some (key, v) =>
      if (f.req ++ f.opt).any fun x => strBytes x.1 == key && kindOk x.2 v then argErr f pos (k + 1) r else some k
    | none =>
      if f.act.any fun w => strBytes w == a then argErr f pos (k + 1) r
      else if f.flags.any fun w => strBytes w == a then argErr f pos (k + 1) r
      else match pos with
        | x :: pos' => if kindOk x.2 a then argErr f pos' (k + 1) r else some k
        | [] => some k

/-- The first required argument that is absent (15 R445). -/
def argMissing (f : VerbForm) (args : List (List Byte)) : Option String :=
  let given := (args.filter fun a => (keyTok a).isNone && !(f.act.any fun w => strBytes w == a) && !(f.flags.any fun w => strBytes w == a)).length
  match (f.pos.take (f.pos.length - f.absent)).drop given with
  | x :: _ => some x.1
  | [] =>
    if f.oneOf ∧ (args.all fun a => (keyTok a).isNone) then f.opt.head?.map (·.1)
    else (f.req.find? fun x => !(args.any fun a => (keyTok a).any fun k => k.1 == strBytes x.1)).map (·.1)

/-- The error of a line whose verb is unknown, as is that of a line with a line check and nothing else, or whose arguments do not fit a form of its verb (15 R434, R445, R450). The views of `show` that do not exist are left to `show`. -/
def formErr (toks : List (List Byte)) : Option OutLn :=
  match toks with
  | [] => some (erLn 100 "unknown verb" [])
  | v :: args =>
    match verbForms.find? fun f => strBytes f.1 == v with
    | none => some (erLn 100 "unknown verb" [])
    | some (name, fs) =>
      match (args.zipIdx.find? fun a => !tokOk a.1) with
      | some a => some (erLn 105 "syntax" [("at", .n (a.2 + 1))])
      | none =>
        match formFor fs args with
        | none =>
          if args.isEmpty then some (erLn 107 "missing argument" [("arg", .s (if name == "show" then "view" else "action"))])
          else if name == "show" then none
          else some (erLn 105 "syntax" [("at", .n 1)])
        | some f =>
          match argErr f f.pos 1 args with
          | some k => some (erLn 105 "syntax" [("at", .n k)])
          | none => (argMissing f args).map fun w => erLn 107 "missing argument" [("arg", .s w)]

/-- UNKNOWN_VERB's line: its first token is no verb, or its checks or its form fail; with no line in hand, a line that is no verb. -/
def badLine (s : State) : Option OutLn :=
  match s.con.line with
  | none => some (erLn 100 "unknown verb" [])
  | some l => (lineErr (strictMode s) l).or (formErr (tokensOf l))

/-! ### Commands -/

/-- UART_BYTE (15 R426, R427, R430, R432). -/
def execUartByte (b : Byte) (frame : Bool) (s : State) : Host.Outcome State Fault Refusal :=
  .next (if consoleOn s then uartIn { byte := b, frame := frame } (freshOut s) else s)

/-- UART_BREAK (15 R427). -/
def execUartBreak (s : State) : Host.Outcome State Fault Refusal :=
  .next (if consoleOn s then drain { freshOut s with con := { (freshOut s).con with fifo := s.con.fifo ++ [{ brk := true }] } } else s)

/-- CON_MESSAGE (15 R428, R429). -/
def execConMessage (port : Fin 4) (slot : Slot) (s : State) : Host.Outcome State Fault Refusal :=
  .next (if consoleOn s then drain (tunTake port slot (freshOut s)) else s)

/-- UNKNOWN_VERB (15 R450). -/
def execUnknownVerb (s : State) : Host.Outcome State Fault Refusal :=
  .next (if !consoleOn s || !s.con.ans.isEmpty || sleepBusy s then s else
    match badLine s with
    | some e => answer [e] s
    | none => s)

/-- What an answer starts once it has left (15 R449): a warm reset, in DOZE and during a DOZE exit after the exit (14 R403); or a cold start of kind 6 (14 R398). -/
def afterAnswer (a : AfterAns) (s : State) : State :=
  let later := fun (s : State) => { s with pwr := { s.pwr with warmAfter := some .warmCmd } }
  match a with
  | .warm =>
    if s.pwr.mode = .doze then dozeWake 6 (later s)
    else if s.pwr.dozeExit.isSome then later s
    else warmTrigger .warmCmd s
  | .cold => coldBegin .coldCmd 6 s
  | _ => s

/-- ANSWER_SENT (15 R439, R441, R444, R449): the answer goes to every active output, a new rate is in force, the prompt follows, and the next line is read. -/
def execAnswerSent (s : State) : Host.Outcome State Fault Refusal :=
  .next (if !consoleOn s || s.con.ans.isEmpty then s else
    let a := s.con.after
    let s := forAll s.con.ans sendLine (freshOut s)
    let s := { s with con := { s.con with ans := [], line := none, after := .nothing, baud := fget s CON CON_CTL_BAUD } }
    match a with
    | .warm | .cold => afterAnswer a s
    | _ => drain (prompt s))

/-- EVENT_SEND (15 R442, R452): between output lines the oldest event is sent and logged, after the number of events lost before it. -/
def execEventSend (s : State) : Host.Outcome State Fault Refusal :=
  .next (if !consoleOn s || asmBusy s then s else
    match s.con.evq with
    | [] => s
    | (t, e) :: r =>
      let lost : List (Nat × OutLn) := if s.con.evLost = 0 then [] else [(s.ns, ⟨"lost", [("count", .n s.con.evLost)]⟩)]
      let l := lost ++ [(t, e)]
      let s := freshOut { s with con := { s.con with evq := r, evLost := 0 } }
      let s := sendEvent (l.map (·.2)) (forAll l (fun x s => logEvent x.1 x.2 s) s)
      if e.head == "reset" then prompt s else s)

end Sys2Proof.Machine
end

