-- ==== Sys2Proof/Machine/Names.lean ====
section
/-! DEFINITION. Parameter names (15 R447): what a name stands for, its aliases, the values it takes, and `get`, `set` and `help`. -/

namespace Sys2Proof.Machine

/-! ### Blocks and registers by name -/

/-- Decimal digits of a number. -/
def numB (n : Nat) : List Byte := (decRev 40 n).reverse

/-- The kinds of block with their names, first bases, strides and numbers of units (16 R457). -/
def blockKinds : List (String × Nat × Nat × Nat) :=
  [("glb", GLB, 0, 0), ("con", CON, 0, 0), ("hp", HP 0, 0x1000, 4), ("txn", TXN, 0, 0), ("man", MAN, 0, 0), ("arb", ARB, 0, 0), ("way", WAY, 0, 0),
   ("que", QUE, 0, 0), ("wlk", WLK, 0, 0), ("ch", CH 0, 0x10000, 16), ("phy", PHY 0, 0x10000, 16), ("led", LED, 0, 0), ("bst", BST, 0, 0),
   ("pwr", PWR, 0, 0), ("aon", AON, 0, 0), ("snp", SNP, 0, 0), ("jrn", JRN, 0, 0)]

/-- Every block as its kind, its name with the unit number, and its base. -/
def blockNames : List (String × List Byte × Nat) :=
  blockKinds.flatMap fun x =>
    if x.2.2.2 = 0 then [(x.1, strBytes x.1, x.2.1)] else (List.range x.2.2.2).map fun k => (x.1, strBytes x.1 ++ numB k, x.2.1 + k * x.2.2.1)

/-- A string of bytes. -/
def byteStr (l : List Byte) : String := String.ofList (l.map fun b => Char.ofNat b.toNat)

/-- Upper case. -/
def upperB (b : Byte) : Byte := if 97 ≤ b.toNat ∧ b.toNat ≤ 122 then b - 32 else b

/-- The kind of a block, and its name. -/
def blockKind (b : Nat) : String := ((blockNames.find? fun x => x.2.2 = b).map (·.1)).getD ""
def blockName (b : Nat) : String := ((blockNames.find? fun x => x.2.2 = b).map fun x => byteStr x.2.1).getD "none"

/-- The first number of a register of a row: the refusal counters TXN_REF_CNTc are numbered from 1 (04 R137). -/
def firstNo (r : RegD) : Nat := if r.name == "ref_cnt" then 1 else 0

/-- The name of the k-th register of a row, in lower case and without its block. -/
def regName (r : RegD) (k : Nat) : List Byte := strBytes r.name ++ (if r.count = 1 then [] else numB (k + firstNo r))

/-- A register of a block by its name: the row and which register of it. -/
def regByName (rows : List RegD) (w : List Byte) : Option (RegD × Nat) :=
  rows.findSome? fun r => ((List.range r.count).find? fun k => regName r k == w).map fun k => (r, k)

/-- What a parameter name stands for. -/
inductive NameT where
  /-- a field of the k-th register of a row of a block -/
  | field (b : Nat) (r : RegD) (k : Nat) (f : FieldD)
  | dtime
  /-- CHMASKk, and BKMASKk (09 R292) -/
  | chmask (k : Nat)
  | bkmask (k : Nat)
  /-- a coefficient (12 R352) -/
  | coef (i : Nat)
  /-- whether a stream is frozen (01 R28) -/
  | stream (p : Fin 4) (t : BitVec 12)
  /-- the mark of a rank (10 R326) -/
  | mark (c : Fin 16) (rank : Fin 2)
  /-- a field of a pin entry: 0 address, 1 segments, 2 manifest, 3 enable (07 R231) -/
  | pin (k : Fin 16) (w : Nat)
  deriving DecidableEq, Repr

/-- A field by its three names (15 R447). -/
def fieldName (bw rw fw : List Byte) : Option NameT :=
  match blockNames.find? fun x => x.2.1 == bw with
  | none => none
  | some (_, _, b) =>
    match blockOf b with
    | none => none
    | some (_, rows) =>
      match regByName rows rw with
      | none => none
      | some (r, k) => (r.fields.find? fun f => strBytes f.name == fw).map fun f => .field b r k f

/-- A field named in the text of the model. -/
def knownField (bw : List Byte) (rw fw : String) : Option NameT := fieldName bw (strBytes rw) (strBytes fw)

/-- The coefficients by name (12 R352). -/
def coefNames : List (String × Nat) :=
  [("way_rd", 0x00), ("way_wr", 0x01), ("dram_rd", 0x02), ("dram_wr", 0x03), ("dram_act", 0x04), ("dram_ref", 0x05), ("ecc_slow", 0x06), ("intake", 0x07),
   ("journal", 0x08), ("resp", 0x09), ("merge", 0x0A), ("walk_key", 0x0B), ("que_desc", 0x0C), ("pause", 0x0D), ("core_st", 0x20), ("way_st", 0x21),
   ("ch_st", 0x22), ("ch_sr", 0x23), ("lane_112", 0x24), ("lane_56", 0x25), ("e_line", 0x30), ("p_flush", 0x31), ("t_fixed", 0x32)]

/-- The number that follows a prefix of a name's part. -/
def afterWord (w : String) (l : List Byte) : Option Nat :=
  let p := strBytes w
  if l.take p.length == p && !(l.drop p.length).isEmpty && (l.drop p.length).all isDec then some (digitsVal 10 (l.drop p.length)) else none

/-- A number below a bound, as an index. -/
def below (n : Nat) (v : Option Nat) : Option Nat := v.bind fun x => if x < n then some x else none

/-- The parts of a name, as words of the model where they are such. -/
def isWord (l : List Byte) (w : String) : Bool := l == strBytes w

/-- The aliases that the chapters' console forms use (15 R447). -/
def aliasOf (parts : List (List Byte)) : Option NameT :=
  match parts with
  | [a] => if isWord a "dtime" then some .dtime else none
  | [a, b] =>
    let ch := below 16 (afterWord "ch" a)
    if isWord a "txn" && isWord b "horizon_us" then knownField a "horizon" "horizon_us"
    else if isWord a "map" && isWord b "load" then knownField (strBytes "glb") "map_ctl" "load"
    else if isWord a "map" && isWord b "excl" then knownField (strBytes "glb") "map_excl" "excl"
    else if isWord a "way" && isWord b "commit" then knownField a "ctl" "commit"
    else if isWord a "way" && isWord b "mig_en" then knownField a "ctl" "mig_en"
    else if isWord a "led" && isWord b "cap" then knownField a "cap" "cap"
    else if isWord a "con" && (isWord b "mode" || isWord b "echo" || isWord b "baud") then fieldName a (strBytes "ctl") b
    else if ch.isSome && (isWord b "rate" || isWord b "page") then fieldName a (strBytes "ctl") b
    else none
  | [a, b, c] =>
    let ch := below 16 (afterWord "ch" a)
    if isWord a "txn" && isWord b "probe" then fieldName a (strBytes "probe_ctl") c
    else if isWord a "arb" && isWord b "offset" then
      if isWord c "shared" then fieldName a (strBytes "clsofs1") c else fieldName a (strBytes "clsofs0") c
    else if isWord a "map" && isWord b "geom" then
      fieldName (strBytes "glb") (strBytes "map_geom") (if isWord c "density" then strBytes "dens" else c)
    else if isWord a "map" && isWord b "twin" then fieldName (strBytes "glb") (strBytes "map_twin") c
    else if isWord a "map" && isWord b "chmask" then (below 4 (numTok c)).map .chmask
    else if isWord a "map" && isWord b "bkmask" then (below 6 (numTok c)).map .bkmask
    else if isWord a "led" && isWord b "coef" then (coefNames.find? fun x => strBytes x.1 == c).map fun x => .coef x.2
    else if ch.isSome && isWord b "refresh" then fieldName a (strBytes "ref") c
    else if ch.isSome && isWord b "timing" then (List.range 7).findSome? fun k => fieldName a (strBytes "tim" ++ numB k) c
    else if isWord c "mark" then
      match ch, below 2 (afterWord "rank" b) with
      | some n, some r => some (.mark (Fin.ofNat 16 n) (Fin.ofNat 2 r))
      | _, _ => none
    else none
  | [a, b, c, d] =>
    if isWord a "arb" && isWord b "toll" then (below 4 (afterWord "hp" c)).bind fun n => fieldName a (strBytes "toll" ++ numB n) d
    else if isWord a "way" && isWord b "pin" then
      match below 16 (numTok c), [("addr", 0), ("segs", 1), ("man", 2), ("en", 3)].find? fun x => strBytes x.1 == d with
      | some k, some x => some (.pin (Fin.ofNat 16 k) x.2)
      | _, _ => none
    else if isWord b "stream" && isWord d "state" then
      match below 4 (afterWord "hp" a), below 4096 (numTok c) with
      | some p, some t => some (.stream (Fin.ofNat 4 p) (BitVec.ofNat 12 t))
      | _, _ => none
    else none
  | _ => none

/-- The parts of a name, split at its dots. -/
def nameParts (name : String) : List (List Byte) := splitTok [] ((strBytes name).map fun b => if b = 46 then 32 else lowerB b)

/-- What a name stands for; none for an unknown name (15 R447). -/
def resolve (name : String) : Option NameT :=
  let parts := nameParts name
  match aliasOf parts with
  | some t => some t
  | none =>
    match parts with
    | [b, r, f] => fieldName b r f
    | _ => none

/-! ### Values of fields (15 R447) -/

/-- The fields that encode a quantity, with their values by code: numbers, or the words of GLB_MAP_GEOM.WIDTH. -/
def quantity (b : Nat) (r : RegD) (f : FieldD) : Option (List SetVal) :=
  let k := blockKind b
  let is_ := fun (x y z : String) => k == x && r.name == y && f.name == z
  if is_ "ch" "ctl" "rate" then some [.num 4800, .num 5600, .num 6400, .num 7200, .num 8000, .num 8800]
  else if is_ "hp" "ctl" "rate" then some [.num 53, .num 106]
  else if is_ "hp" "ctl" "width_max" then some [.num 4, .num 8, .num 16]
  else if is_ "glb" "map_geom" "width" then some [.sym "x4", .sym "x8"]
  else if is_ "glb" "map_geom" "dens" then some [.num 16, .num 24, .num 32]
  else if is_ "glb" "map_geom" "ranks" then some [.num 1, .num 2]
  else if is_ "con" "ctl" "baud" then some [.num 115200, .num 230400, .num 460800, .num 921600, .num 1000000, .num 1500000, .num 2000000, .num 3000000]
  else if is_ "phy" "proof2" "osc_run" then some [.num 256, .num 512, .num 1024]
  else none

/-- The symbols listed for other fields, by code. -/
def symbols (b : Nat) (r : RegD) (f : FieldD) : List String :=
  let k := blockKind b
  let is_ := fun (x y z : String) => k == x && r.name == y && f.name == z
  if is_ "con" "ctl" "mode" then ["typed", "strict"]
  else if is_ "con" "ctl" "echo" then ["off", "on"]
  else if is_ "ch" "ctl" "page" then ["closed", "open"]
  else if is_ "man" "cfg" "profile" then ["hot", "cool"]
  else []

/-- The stated ranges that are narrower than their fields. -/
def statedRanges : List (String × String × String × Nat × Nat) :=
  [("jrn", "cap", "cap", 512, 8192), ("txn", "backoff", "base_ns", 8, 1023), ("hp", "ltmr", "nak_tmo", 64, 4095), ("hp", "ltmr", "ack_tmo", 256, 4095),
   ("hp", "ltmr", "rpl_max", 1, 15), ("hp", "ctl", "trn_tries", 1, 3), ("arb", "toll", "burst", 1, 65535), ("way", "carve", "qcache", 8, 64),
   ("way", "carve", "walk", 1, 32), ("way", "carve", "pin", 0, 64), ("way", "mig", "promo_th", 1, 255), ("way", "mig", "epoch_us", 1, 255),
   ("que", "frm", "low", 256, 4096), ("ch", "sched", "lookahead", 1, 16), ("glb", "map_twin", "eighths", 0, 8), ("ch", "ecccfg", "mark_win", 1, 255)] ++
  [("ch", "ref", "poll_ms", 1, 255), ("ch", "ref", "cool_polls", 1, 15), ("ch", "rowact2", "win_ms", 1, 255), ("phy", "proof", "int_us", 32, 65535),
   ("phy", "proof", "guard", 1, 63), ("phy", "proof", "vguard", 1, 15), ("led", "cap", "hold", 1, 15), ("bst", "way", "int_us", 10, 65535),
   ("bst", "dram", "budget_us", 120, 4095), ("bst", "dram", "phy_every", 1, 31), ("bst", "dram", "wguard", 1, 63), ("bst", "lane", "int_us", 200, 65535),
   ("pwr", "sleep", "ret_us", 10, 4095), ("pwr", "gatecfg", "maxpar", 1, 3), ("pwr", "retry", "dom", 0, 22), ("aon", "wake", "addr", 0x08, 0x77),
   ("glb", "wdog_ctl", "timeout_ms", 1, 65535)]

/-- The range of a field. -/
def rangeOf (b : Nat) (r : RegD) (f : FieldD) : Nat × Nat :=
  match statedRanges.find? fun x => x.1 == blockKind b && x.2.1 == r.name && x.2.2.1 == f.name with
  | some x => x.2.2.2
  | none => (0, 2 ^ f.width - 1)

/-- A value as it is shown. -/
def setValF (v : SetVal) : FVal :=
  match v with
  | .num n => .n n
  | .sym w => .s w

def er106 (arg : String) (lo hi : Nat) : OutLn := erLn 106 "out of range" [("arg", .s arg), ("min", .n lo), ("max", .n hi)]
def er204 (a : Nat) : OutLn :=
  erLn 204 "domain off" [("addr", .a a 8), ("dom", .s (domName (blockDom ((blockOf a).map (·.1) |>.getD 0)).1))]
def er300 (name : String) : OutLn := erLn 300 "unknown name" [("name", .s name)]
def er301 (name : String) : OutLn := erLn 301 "read-only" [("name", .s name)]
def er302 (name : String) (v : SetVal) : OutLn := erLn 302 "bad value" [("name", .s name), ("value", setValF v)]

/-- Lower case of a word. -/
def lowerS (w : String) : List Byte := (strBytes w).map lowerB

/-- Two values are the same; symbols are case-insensitive (15 R434). -/
def sameVal (a b : SetVal) : Bool :=
  match a, b with
  | .num x, .num y => x == y
  | .sym x, .sym y => lowerS x == lowerS y
  | _, _ => false

/-- A number within bounds. -/
def numIn (name : String) (v : SetVal) (lo hi : Nat) : Except OutLn Nat :=
  match v with
  | .sym _ => .error (er302 name v)
  | .num n => if lo ≤ n ∧ n ≤ hi then .ok n else .error (er106 name lo hi)

/-- The code that a value stands for in a field, or its error. -/
def fieldCode (name : String) (b : Nat) (r : RegD) (f : FieldD) (v : SetVal) : Except OutLn Nat :=
  match quantity b r f with
  | some l =>
    match l.findIdx? (sameVal v) with
    | some k => .ok k
    | none => .error (er302 name v)
  | none =>
    match (symbols b r f).findIdx? fun w => sameVal v (.sym w) with
    | some k => .ok k
    | none => numIn name v (rangeOf b r f).1 (rangeOf b r f).2

/-! ### The indirect windows -/

/-- An index is written, and the entry word read. -/
def winRead (b i : Nat) (s : State) : Word × State := busRead (b + 0xFF4) (busWrite (b + 0xFF0) (w32 i) s)

/-- An index is written, and words to the entries from there. -/
def winWrite (b i : Nat) (vs : List Word) (s : State) : State := forAll vs (fun v s => busWrite (b + 0xFF4) v s) (busWrite (b + 0xFF0) (w32 i) s)

/-! ### `get` -/

/-- A field's value as `get` gives it. -/
def getField (b : Nat) (r : RegD) (f : FieldD) (w : Word) : FVal :=
  let v := (⟨0, f.lsb, f.width⟩ : Fld).get w
  match quantity b r f with
  | some l => setValF ((l[min v (l.length - 1)]?).getD (.num v))
  | none => .n v

/-- A register of write-only fields. -/
def writeOnly (r : RegD) : Bool := r.fields.all fun f => f.acc == .wo

def okVal (v : FVal) : OutLn := okLn [("", v)]

/-- The register of which `get` and `set` speak where its domain is off. -/
def nameBlock (t : NameT) : Nat × Nat :=
  match t with
  | .field b r k _ => (b, b + r.off + 4 * k)
  | .dtime => (GLB, GLB + GLB_DTIME_LO_NS_LO.off)
  | .chmask _ => (GLB, GLB + 0xFF4)
  | .bkmask _ => (GLB, GLB + 0xFF4)
  | .coef _ => (LED, LED + 0xFF4)
  | .stream _ _ => (TXN, TXN + 0xFF4)
  | .mark c _ => (CH c, CH c + CH_SPARE_MDEV0.off)
  | .pin _ _ => (WAY, WAY + 0xFF4)

/-- `get` (15 R447). -/
def getVerb (name : String) (s : State) : State × OutLn :=
  match resolve name with
  | none => (s, er300 name)
  | some t =>
    if !blockOn s (nameBlock t).1 then (domOff s, er204 (nameBlock t).2) else
    match t with
    | .field b r k f =>
      let a := b + r.off + 4 * k
      if writeOnly r then (s, erLn 201 "access refused" [("addr", .a a 8), ("access", .s "wo")])
      else
        let (w, s) := busRead a s
        (s, okVal (getField b r f w))
    | .dtime =>
      let (lo, s) := busRead (GLB + GLB_DTIME_LO_NS_LO.off) s
      let (hi, s) := busRead (GLB + GLB_DTIME_HI_NS_HI.off) s
      (s, okVal (.n (lo.toNat + hi.toNat * 2 ^ 32)))
    | .chmask k =>
      let (lo, s) := winRead GLB (0x100 + 2 * k) s
      let (hi, s) := winRead GLB (0x101 + 2 * k) s
      (s, okVal (.n (lo.toNat + hi.toNat * 2 ^ 32)))
    | .bkmask k =>
      let (w, s) := winRead GLB (0x110 + k) s
      (s, okVal (.n w.toNat))
    | .coef i =>
      let (w, s) := winRead LED i s
      (s, okVal (.n w.toNat))
    | .stream p t => (s, okVal (.s (if (s.strm p t).frozen then "frozen" else "open")))
    | .mark c r => (s, okVal (match markOf s c r with | some d => .n d | none => .s "none"))
    | .pin k w =>
      let p := s.way.pins[k]
      (s, okVal (.n (match w with | 0 => p.addrLo.toNat + p.addrHi.toNat * 2 ^ 32 | 1 => p.segs.toNat | 2 => p.man.toNat | _ => if p.en then 1 else 0)))

/-! ### `set` -/

/-- The whole register that a `set` of one field writes: other RW and WG fields keep their values, W1C and other WO fields get 0 (15 R447). -/
def setWord (s : State) (a : Nat) (r : RegD) (f : FieldD) (v : Nat) : Word :=
  let old := rg s a
  r.fields.foldl (fun w g =>
    let fl : Fld := ⟨0, g.lsb, g.width⟩
    if g = f then if f.acc = .wm then w32 (w.toNat + (2 ^ f.width - 1) * 2 ^ (16 + f.lsb) + v * 2 ^ f.lsb) else fl.put v w
    else if g.acc = .rw ∨ g.acc = .wg then fl.put (fl.get old) w else w) 0

/-- The value of a field in the word to be written. -/
def wordField (f : Fld) (w : Word) : Nat := f.get w

/-- Why the function behind a `set` refuses it, seen before the write (05 to 14): the codes 304 and 4xx. -/
def setRefusal (s : State) (b : Nat) (r : RegD) (f : FieldD) (w : Word) (v : Nat) : Option OutLn :=
  let c : Fin 16 := Fin.ofNat 16 (b / 0x10000)
  let k := blockKind b
  let st := [("ch", FVal.n c.val), ("state", FVal.s (chWord (chState s c)))]
  if k == "con" && f.name == "echo" && v == 1 && strictMode s then some (erLn 304 "wrong mode" [("mode", .s "strict")])
  else if k == "glb" && r.name == "map_ctl" && f.name == "load" && v == 1 then
    (mapLoad s).2.map fun n => erLn 440 "map rejected" [("reason", .s (mapReason n))]
  else if k == "glb" && (r.name == "map_geom" || r.name == "map_twin" || r.name == "map_excl") && mapLoaded s then
    some (erLn 440 "map rejected" [("reason", .s "loaded")])
  else if k == "ch" && (r.off = CH_CMD_PROFILE.off || r.off = CH_RAA_IMT.off || (CH_TIM0_CL.off ≤ r.off && r.off ≤ CH_TIM6_TREFI.off)) && !timOpen s c then
    some (erLn 441 "channel busy" st)
  else if k == "way" && ((r.name == "carve" && fbit s WAY WAY_STATUS_COMMITTED) || (r.name == "wt" && fbit s WAY WAY_STATUS_COMMITTED)
      || (f.name == "commit" && v == 1 && fbit s WAY WAY_STATUS_COMMITTED)) then some (erLn 420 "carve rejected" [("reason", .s "committed")])
  else if k == "way" && r.name == "carve" && !carveOk w then some (erLn 420 "carve rejected" [("reason", .s "tier")])
  else if k == "phy" && r.name == "trn_ctl" && f.name == "start" && v == 1 && !trainable s c then some (erLn 460 "training refused" st)
  else if k == "phy" && r.name == "trn_ctl" && f.name == "end" && v == 1 && !(s.phy c).trnHold then some (erLn 461 "helper refused" st)
  else if k == "phy" && r.name == "swp_ctl" && (f.name == "start" || f.name == "clr") && v == 1 && !helperOn s c then some (erLn 461 "helper refused" st)
  else if k == "que" && f.name == "init" && v == 1 then
    (poolRefusal s (poolBase s) (poolBlocks s)).map fun x => erLn 430 "pool refused" [("reason", .s x)]
  else if k == "led" && f.name == "apply" && v == 1 then
    let e := (holdApply (fget s LED LED_HOLD_HOLD_UJ) (fget s LED LED_HOLD2_HOLD_US) s).2
    if e.head == "er" then some e else none
  else if k == "pwr" && r.name == "retry" then
    (powerRetry v s).2.map fun x => erLn 493 "retry refused" [("dom", .s (domName v)), ("reason", .s x)]
  else none

/-- The fields that a chapter gives for an accepted `set` (07 R233). -/
def setFields (b : Nat) (f : FieldD) (v : Nat) (s : State) : List (String × FVal) :=
  if b = WAY ∧ f.name = "commit" ∧ v = 1 then
    [("tier_frames", .n (fget s WAY WAY_TIER_FRAMES)), ("rsv", .n (fget s WAY WAY_TIERRSV_RSV)), ("walkseg", .n (fget s WAY WAY_WALKSEG_TOTAL)), ("waymax", .n (fget s MAN MAN_WAYMAX_SEG))]
  else []

/-- A write of a whole register, through the guarded pair where the register is guarded. -/
def pairWrite (a : Nat) (r : RegD) (w : Word) (s : State) : State :=
  if guarded r then busWrite (a + 0x800) (~~~w) (busWrite a w s) else busWrite a w s

/-- `set` of a field. -/
def setField (name : String) (b : Nat) (r : RegD) (k : Nat) (f : FieldD) (v : SetVal) (s : State) : State × OutLn :=
  let a := b + r.off + 4 * k
  if f.acc = .ro ∨ f.acc = .rc then (s, er301 name)
  else match fieldCode name b r f v with
    | .error e => (s, e)
    | .ok n =>
      if !blockOn s b then (domOff s, er204 a)
      else
        let w := setWord s a r f n
        let e := setRefusal s b r f w n
        if (e.bind fun x => errCode [x]) = some 304 then (s, e.getD (okLn []))
        else
          let s := pairWrite a r w s
          (s, e.getD (okLn (setFields b f n s)))

/-- A write to a pin entry (07 R206, R231). -/
def setPin (k : Fin 16) (w v : Nat) (s : State) : State × OutLn :=
  let p := s.way.pins[k]
  let word2_ := fun (segs man en : Nat) => w32 (segs + man * 2 ^ 16 + en * 2 ^ 24)
  let en := if p.en then 1 else 0
  let at_ := 0x40000 + k.val * 4
  match w with
  | 0 => (winWrite WAY at_ [w32 v, w32 (v / 2 ^ 32)] s, okLn [])
  | 1 => (winWrite WAY (at_ + 2) [word2_ v p.man.toNat en] s, okLn [])
  | 2 => (winWrite WAY (at_ + 2) [word2_ p.segs.toNat v en] s, okLn [])
  | _ =>
    let bad : Option String := if v = 0 ∨ p.en then none else if s.led.hold.isNone then some "space" else pinBad s k
    (winWrite WAY (at_ + 2) [word2_ p.segs.toNat p.man.toNat v] s,
      match bad with
      | some r => erLn 424 "pin rejected" [("k", .n k), ("reason", .s r)]
      | none => okLn [])

/-- A value within bounds is written once its block can be accessed. -/
def setNum (name : String) (t : NameT) (v : SetVal) (hi : Nat) (f : Nat → State → State × OutLn) (s : State) : State × OutLn :=
  match numIn name v 0 hi with
  | .error e => (s, e)
  | .ok n => if blockOn s (nameBlock t).1 then f n s else (domOff s, er204 (nameBlock t).2)

/-- A mask is written, unless the map is loaded (09 R275, R292). -/
def setMask (i : Nat) (ws : List Word) (s : State) : State × OutLn :=
  let refused := mapLoaded s
  (winWrite GLB i ws s, if refused then erLn 440 "map rejected" [("reason", .s "loaded")] else okLn [])

/-- `set` (15 R447). -/
def setVerb (name : String) (v : SetVal) (s : State) : State × OutLn :=
  match resolve name with
  | none => (s, er300 name)
  | some t =>
    match t with
    | .field b r k f => setField name b r k f v s
    | .dtime => (s, er301 name)
    | .chmask k => setNum name t v (2 ^ 37 - 1) (fun n => setMask (0x100 + 2 * k) [w32 n, w32 (n / 2 ^ 32)]) s
    | .bkmask k => setNum name t v (2 ^ 30 - 1) (fun n => setMask (0x110 + k) [w32 n]) s
    | .coef i =>
      match coefMask i with
      | some 0 => (s, er301 name)
      | some m => setNum name t v m (fun n s => (winWrite LED i [w32 n] s, okLn [])) s
      | none => (s, er300 name)
    | .stream p q =>
      if !sameVal v (.sym "open") then (s, er302 name v)
      else if !blockOn s TXN then (domOff s, er204 (TXN + 0xFF4))
      else (winWrite TXN ((p.val * 4096 + q.toNat) * 4) [0x10000] s, okLn [])
    | .mark c r => setNum name t v (2 ^ 64 - 1) (fun n => markVerb c r n) s
    | .pin k w =>
      let hi := match w with | 0 => 2 ^ 44 - 1 | 1 => 65535 | 2 => 255 | _ => 1
      setNum name t v hi (fun n => setPin k w n) s

/-! ### `help` -/

/-- The texts of the error codes (15 R450). -/
def errTexts : List (Nat × String) :=
  [(100, "unknown verb"), (101, "check missing"), (102, "check wrong"), (103, "line too long"), (104, "bad character"), (105, "syntax"),
   (106, "out of range"), (107, "missing argument"), (108, "input overrun"), (109, "line lost"), (200, "not a register"), (201, "access refused"),
   (202, "wrong write verb"), (203, "guard failed"), (204, "domain off"), (205, "index out of range"), (300, "unknown name"), (301, "read-only"),
   (302, "bad value"), (303, "unknown view"), (304, "wrong mode"), (410, "refused"), (411, "manifest state"), (412, "close blocked")] ++
  [(420, "carve rejected"), (421, "descriptor check"), (422, "descriptor in use"), (423, "window full"), (424, "pin rejected"), (430, "pool refused"),
   (431, "queue busy"), (432, "queue range"), (440, "map rejected"), (441, "channel busy"), (450, "mark refused"), (460, "training refused"),
   (461, "helper refused"), (470, "hold refused"), (480, "slice refused"), (481, "target unavailable"), (490, "sleep refused"), (491, "wrong state"),
   (492, "clock refused"), (493, "retry refused"), (494, "reset refused")]

/-- A form as `help` shows it: the verb, its word, and the names of its arguments. -/
def formFields (verb : String) (f : VerbForm) : List (String × FVal) :=
  ("", .s verb) :: ((f.act.toList ++ f.pos.map (·.1)).map fun w => ("", .s w))
    ++ (f.req ++ f.opt).map (fun x => ("", .s (x.1 ++ "="))) ++ f.flags.map fun w => ("", .s w)

/-- A field as `help name=` shows it: its register, its name, and the values of a field that encodes a quantity. -/
def helpField (b : Nat) (r : RegD) (k : Nat) (f : FieldD) : OutLn :=
  let up := fun (l : List Byte) => byteStr (l.map upperB)
  okLn ([("reg", .s (up (strBytes (blockName b) ++ [95] ++ regName r k))), ("addr", .h (b + r.off + 4 * k) 8), ("field", .s (up (strBytes f.name)))]
    ++ (((quantity b r f).getD []).map fun v => ("value", setValF v)) ++ (symbols b r f).map fun w => ("value", .s w))

/-- An indirect entry as `help name=` shows it. -/
def helpIx (block : String) (i : Nat) : OutLn := okLn [("block", .s block), ("index", .h i)]

/-- `help name=` (15 R445, R447). -/
def helpName (name : String) : OutLn :=
  match resolve name with
  | none => er300 name
  | some (.field b r k f) => helpField b r k f
  | some .dtime => okLn [("reg", .s "GLB_DTIME_LO"), ("addr", .h GLB_DTIME_LO_NS_LO.off 8), ("field", .s "NS_LO")]
  | some (.chmask k) => helpIx "glb" (0x100 + 2 * k)
  | some (.bkmask k) => helpIx "glb" (0x110 + k)
  | some (.coef i) => helpIx "led" i
  | some (.stream p t) => helpIx "txn" ((p.val * 4096 + t.toNat) * 4)
  | some (.mark c r) => okLn [("reg", .s ("CH" ++ toString c.val ++ "_SPARE")), ("addr", .h (CH c + CH_SPARE_MDEV0.off) 8), ("field", .s (if r = 0 then "MDEV0" else "MDEV1"))]
  | some (.pin k w) => helpIx "way" (0x40000 + k.val * 4 + (if w = 0 then 0 else 2))

/-- `help` (15 R445). -/
def helpVerb (t : HelpOf) : List OutLn :=
  match t with
  | .all => listing (verbForms.map fun v => [("", .s v.1)])
  | .verb w =>
    match verbForms.find? fun f => strBytes f.1 == lowerS w with
    | some (n, fs) => listing (fs.map (formFields n))
    | none => [erLn 100 "unknown verb" []]
  | .name w => [helpName w]
  | .code n =>
    match errTexts.find? fun x => x.1 = n with
    | some x => [okLn [("code", .n n), ("", .s x.2)]]
    | none => [er106 "code" 100 494]

/-! ### Commands -/

/-- GET (15 R447). -/
def execConGet (name : String) (s : State) : Host.Outcome State Fault Refusal := .next (runVerb1 (getVerb name) s)

/-- SET (15 R447). -/
def execConSet (name : String) (v : SetVal) (s : State) : Host.Outcome State Fault Refusal :=
  .next (settle (runVerb1 (setVerb name v) s))

/-- HELP (15 R445). -/
def execConHelp (topic : HelpOf) (s : State) : Host.Outcome State Fault Refusal := .next (runVerb (fun s => (s, helpVerb topic)) s)

end Sys2Proof.Machine
end

