-- ==== Sys2Proof/Machine/Views.lean ====
section
/-! DEFINITION. The views of `show` (15 R448), field by field as the chapters' console forms give them, and `ledger show` (12 R360, R368). -/

namespace Sys2Proof.Machine

/-- A register read by a view: any read restarts its RC fields (16 R466). -/
def viewRead (a : Nat) (s : State) : State := (busRead a s).2

/-- A flag as 0 or 1. -/
def flagF (b : Bool) : FVal := .n (if b then 1 else 0)

/-- A number, or the word none. -/
def noneF (x : Option Nat) : FVal :=
  match x with
  | some n => .n n
  | none => .s "none"

/-- A counter's value. -/
def cnt (s : State) (b : Nat) (f : Fld) : FVal := .n (fget s b f)

/-- The word of a port's state (03 R91). -/
def portWord (k : Nat) : String :=
  match k with
  | 0 => "down" | 1 => "detect" | 2 => "equalise" | 3 => "align" | 4 => "init" | 5 => "active" | 6 => "retrain" | _ => "quiet"

/-- The word of a capacity's cause (05 R163). -/
def capWord_ (k : Nat) : String :=
  match k with
  | 0 => "none" | 1 => "hot" | 2 => "spare" | 3 => "power" | 4 => "throttle" | _ => "lost"

/-- The word of a kind of start (14 R398). -/
def startWord (k : Nat) : String :=
  match k with
  | 0 => "power" | 1 => "brownout" | 2 => "ret_lost" | 3 => "image" | 4 => "banked" | 5 => "power_return" | _ => "command"

/-- The word of PWR_STATE.SUB (14 R420). -/
def subWord (k : Nat) : String :=
  match k with
  | 0 => "none" | 1 => "draining" | 2 => "entering" | 3 => "waking" | 4 => "resume" | _ => "aborting"

/-- The word of a queue's state (08 R239). -/
def queWord (k : QSt) : String :=
  match k with
  | .empty => "empty" | .active => "active" | .faulted => "faulted"

/-- The value of CHn_CTL.RATE (15 R447). -/
def rateMts (k : Nat) : Nat := mtsOf (if 6 ≤ k then 0 else k)

/-- Bytes as a word. -/
def bytesF (l : List Byte) : FVal := .s (byteStr l)

/-- A binary number of two digits. -/
def bin2 (n : Nat) : FVal := bytesF ([48, 98, if 2 ≤ n then 49 else 48, if n % 2 = 1 then 49 else 48])

/-- A block and a cell or fill of a queue (08 R264). -/
def blockCell (b c : Nat) : FVal := bytesF (fvalBytes (.h b 7) ++ 58 :: numB c)

/-- The mark of a rank (10 R326). -/
def markField (s : State) (c : Fin 16) (r : Nat) : FVal :=
  match markOf s c r with
  | none => .s "mark:none"
  | some d =>
    let spared := fbit s (CH c) (if r = 0 then CH_SPARE_SPARED0 else CH_SPARE_SPARED1)
    bytesF (strBytes "mark:" ++ numB d ++ (if spared then strBytes ",spared" else []))

/-- A stage-image slot (07 R221). -/
def slotText (x : ImgSlot) : Option (List Byte) :=
  x.stage.map fun k => numB k ++ strBytes (if x.present then ":present" else ":loading")

/-- Parts joined by commas. -/
def commas : List (List Byte) → List Byte
  | [] => []
  | [a] => a
  | a :: r => a ++ [44] ++ commas r

/-- The physical lanes of a trained group (03 R66). -/
def portLanes (s : State) (p : Fin 4) : Nat :=
  if 5 ≤ portSt s p then (2 ^ lanesOf (fget s (HP p) HP_STATUS_WIDTH) - 1) * 2 ^ (s.port p).group else 0

/-- An argument that is out of its range. -/
def viewRange (v : View) : Option OutLn :=
  let ch := fun (n : Nat) => if n < 16 then none else some (er106 "ch" 0 15)
  let port := fun (w : String) (n : Nat) => if n < 4 then none else some (er106 w 0 3)
  let man := fun (n : Nat) => if n < 256 then none else some (er106 "man" 0 255)
  match v with
  | .journal c => ch c
  | .stream p t => (port "port" p).or (if t < 4096 then none else some (er106 "stream" 0 4095))
  | .port p => port "p" p
  | .capacity c => ch c
  | .toll p => port "port" p
  | .arb c => ch c
  | .account m c => (man m).or (ch c)
  | .walk h => if h < 4096 then none else some (er106 "h" 0 4095)
  | .queue q => if q < 131072 then none else some (erLn 432 "queue range" [("q", .n q)])
  | .queueMan m => man m
  | .map a => if a < 2 ^ 44 then none else some (er106 "addr" 0 (2 ^ 44 - 1))
  | .channel n => if n < 16 then none else some (er106 "n" 0 15)
  | .ecc c => ch c
  | .rowact c => ch c
  | .phy c r b => (ch c).or ((if r < 2 then none else some (er106 "rank" 0 1)).or (if b < 72 then none else some (er106 "bit" 0 71)))
  | _ => none

/-- The register whose block a view reads: its address. -/
def viewAddr (v : View) : Nat :=
  match v with
  | .journal c => JRN + JRN_FILL_FILL.off + 4 * c
  | .stream _ _ => TXN + 0xFF4
  | .clocks => GLB + GLB_CLKSTAT_CORE_LOCK.off
  | .probe => TXN + TXN_PROBE_CTL_ARM.off
  | .port p => HP p + HP_STATUS_STATE.off
  | .txn => TXN + TXN_ACC_CNT_COUNT.off
  | .capacity c => MAN + MAN_CHCAP_NOMINAL.off + 4 * c
  | .toll p => ARB + ARB_TOLL_RATE.off + 4 * p
  | .arb c => ARB + ARB_GRANT_COUNT.off + 4 * c
  | .account _ _ => ARB + 0xFF4
  | .walk _ => WLK + 0xFF4
  | .pool => QUE + QUE_STATUS_INIT_BUSY.off
  | .queue _ => QUE + 0xFF4
  | .queueMan _ => QUE + 0xFF4
  | .map _ => GLB + GLB_MAP_CTL_LOAD.off
  | .channel n => CH n + CH_STATUS_STATE.off
  | .ecc c => CH c + CH_INTSTAT_CE.off
  | .rowact c => CH c + CH_ROWSTAT_LEVEL.off
  | .phy c _ _ => PHY c + 0xFF4
  | .power => PWR
  | .console => CON
  | .other _ => CON

/-- The fields of a view (15 R448). -/
def viewFields (v : View) (s : State) : List (String × FVal) :=
  match v with
  | .journal c =>
    [("ch", .n c), ("fill", cnt s JRN (JRN_FILL_FILL.nth c)), ("hwm", cnt s JRN (JRN_FILL_HWM.nth c)), ("cap", cnt s JRN JRN_CAP_CAP),
     ("replay", word2 (bitOf (fget s JRN JRN_STATUS_RING_ACT) c) "active" "idle"), ("lost", cnt s JRN JRN_LOST_CNT_COUNT)]
  | .stream p t =>
    let r := s.strm (Fin.ofNat 4 p) (BitVec.ofNat 12 t)
    [("port", .n p), ("stream", .h t 3), ("next", .n r.n.toNat), ("state", word2 r.frozen "frozen" "open"), ("window", .n 32), ("losses", .n r.k),
     ("resv", flagF r.resv), ("sync", word2 r.sync.isSome "pending" "idle"), ("unfin", .n (r.win.filter fun w => w.fin.isNone).length)]
  | .clocks =>
    [("core", word2 (fbit s GLB GLB_CLKSTAT_CORE_ON_PLL) "pll" "fio"), ("mgt", word2 (fbit s GLB GLB_CLKSTAT_MGT_ON_PLL) "pll" "fio"),
     ("dtime", word2 (fbit s GLB GLB_CLKSTAT_DTIME_FINE) "fine" "coarse"), ("slow", word2 (fbit s GLB GLB_CLKSTAT_SLOW_XTAL) "xtal" "rc"),
     ("link_lock", .h (fget s GLB GLB_CLKSTAT_LINK_LOCK)), ("ch_lock", .h (fget s GLB GLB_CLKSTAT_CH_LOCK) 4), ("lock_loss", cnt s GLB GLB_CLKSTAT_LOCK_LOSS)]
  | .probe =>
    [("port", cnt s TXN TXN_PROBE_CTL_PORT), ("stream", .h (fget s TXN TXN_PROBE_ID_STREAM) 3), ("seq", cnt s TXN TXN_PROBE_ID_SEQ)] ++
      (["core", "intake", "grant", "accept", "service", "outcome", "handoff"].zipIdx.map fun x => (x.1, cnt s TXN (TXN_PROBE_STAMP_STAMP.nth x.2)))
  | .port n =>
    let p : Fin 4 := Fin.ofNat 4 n
    [("port", .n n), ("state", .s (portWord (portSt s p))), ("width", .n (lanesOf (fget s (HP p) HP_STATUS_WIDTH))),
     ("rate", .n (rateNo (fget s (HP p) HP_STATUS_RATE_NOW))), ("lanes", .h (portLanes s p) 4), ("good", .h (fget s (HP p) HP_LANES_GOOD) 4),
     ("epoch", cnt s (HP p) HP_STATUS_EPOCH), ("degraded", cnt s (HP p) HP_STATUS_DEGRADED), ("tunnel", cnt s (HP p) HP_STATUS_TUN_ACT)]
  | .txn =>
    [("accept", cnt s TXN TXN_ACC_CNT_COUNT), ("done", cnt s TXN TXN_DONE_CNT_COUNT), ("late", cnt s TXN TXN_LATE_CNT_COUNT), ("defer", cnt s TXN TXN_DEFER_CNT_COUNT)] ++
      (["busy", "quota", "order", "state", "fault", "conflict"].zipIdx.map fun x => (x.1, cnt s TXN (TXN_REF_CNT_COUNT.nth x.2))) ++
      [("time", cnt s TXN TXN_TIME_CNT_COUNT)]
  | .capacity c =>
    [("ch", .n c), ("profile", word2 (fbit s MAN MAN_CFG_PROFILE) "cool" "hot"), ("rate", .n (rateMts (fget s (CH c) CH_CTL_RATE))),
     ("nominal", cnt s MAN (MAN_CHCAP_NOMINAL.nth c)), ("deliv", cnt s MAN (MAN_CHCAP_DELIV.nth c)), ("cause", .s (capWord_ (fget s MAN (MAN_CHCAP_CAUSE.nth c)))),
     ("rt", cnt s MAN (MAN_CHCOM_RT.nth c)), ("guar", cnt s MAN (MAN_CHCOM_GUAR.nth c)), ("shared", cnt s MAN (MAN_CHCOM_SHARED.nth c)),
     ("floor_rt", cnt s MAN (MAN_FLOOR_RT.nth c)), ("floor_guar", cnt s MAN (MAN_FLOOR_GUAR.nth c)), ("floor_shared", cnt s MAN (MAN_FLOORS_SHARED.nth c))]
  | .toll p =>
    [("port", .n p), ("rate", cnt s ARB (ARB_TOLL_RATE.nth p)), ("burst", cnt s ARB (ARB_TOLL_BURST.nth p)), ("level", cnt s ARB (ARB_TOLLLVL_LEVEL.nth p)),
     ("refused", cnt s ARB (ARB_TOLLREF_COUNT.nth p))]
  | .arb c =>
    let lim := fget s ARB (ARB_THRCH_LIMIT.nth c)
    [("ch", .n c), ("window", .n (windowUse s (Fin.ofNat 16 c))), ("grants", cnt s ARB (ARB_GRANT_COUNT.nth c)), ("lost", cnt s ARB (ARB_LOSS_COUNT.nth c)),
     ("waited", cnt s ARB (ARB_WAIT_COUNT.nth c)), ("resv", cnt s ARB (ARB_RESV_COUNT.nth c)), ("inorder", flagF (bitOf (fget s ARB ARB_STATUS_INORD) c)),
     ("io_entries", cnt s ARB (ARB_ION_COUNT.nth c)), ("limit", noneF (if lim = 0 then none else some lim))]
  | .account m c =>
    let a := s.acct m c
    [("man", .n m), ("ch", .n c), ("count", .n a.count), ("emin", .n a.emin), ("below", flagF (acctBelow s m c)), ("flag", flagF (rtFlag s m (Fin.ofNat 17 c))),
     ("thr", noneF (if a.thr = 0x3FF then none else some a.thr)), ("held", .n (heldGeneral s (BitVec.ofNat 8 m) (Fin.ofNat 17 c)))]
  | .walk h =>
    let w := tblGet (fun _ => ({} : WalkRt)) s.walks h
    [("h", .h h 3), ("valid", flagF (wdValid s h)), ("use", .n (wdUse s h % 65536)), ("slots", bytesF (commas (w.slots.filterMap slotText))),
     ("stall", cnt s WLK WLK_STALL_COUNT), ("bypass", cnt s WLK WLK_BYPASS_COUNT)]
  | .pool =>
    [("blocks", .n (poolBlocks s)), ("rsv", cnt s QUE QUE_RSV_RSV), ("free", cnt s QUE QUE_FREE_FREE), ("blkmax", cnt s MAN MAN_BLKMAX_BLK),
     ("frames", cnt s QUE QUE_FRM_FRAMES), ("frm_free", cnt s QUE QUE_FRMFREE_FREE), ("lost", cnt s QUE QUE_LOST_COUNT)]
  | .queue q =>
    let d := s.qd q
    [("q", .h q 5), ("state", .s (queWord d.st)), ("owner", noneF (queOwner s q)), ("depth", .n d.depth), ("pkts", .n d.pkts), ("nblk", .n d.nblk),
     ("head", blockCell d.headBlk d.headCell), ("tail", blockCell d.tailBlk d.tailFill), ("inflight", .n (inflight s q))]
  | .queueMan m =>
    let w := fun (k : Nat) => FVal.n ((queTab s 0 (0x300000 + m * 4 + k)).getD 0).toNat
    [("man", .n m), ("held", w 0), ("retained", w 1), ("cells", w 2), ("active", w 3)]
  | .map a =>
    match placeOf s (a / 128) with
    | none => [("addr", .a a 11), ("region", .s "none")]
    | some p =>
      let b := bankOf s p.lam
      [("addr", .a a 11), ("region", word2 p.twin "twin" "ordinary"), ("ch", .n p.ch), ("rank", .n b.rank), ("bg", .n b.bg), ("bank", .n b.bank),
       ("row", .h b.row 4), ("col", .n (16 * b.col))]
  | .channel n =>
    [("ch", .n n), ("state", .s (chWord (fget s (CH n) CH_STATUS_STATE))), ("rate", .n (rateMts (fget s (CH n) CH_CTL_RATE))),
     ("page", word2 (fbit s (CH n) CH_CTL_PAGE) "open" "closed"), ("fill", cnt s (CH n) CH_FILL_FILL), ("hwm", cnt s (CH n) CH_FILL_HWM),
     ("rank_pd", bin2 (fget s (CH n) CH_STATUS_RANK_PD)), ("idlebus", cnt s (CH n) CH_IDLEBUS_COUNT), ("clash", cnt s (CH n) CH_CLASH_COUNT), ("hold", cnt s (CH n) CH_HOLD_COUNT)]
  | .ecc c =>
    [("ch", .n c), ("ce", cnt s (CH c) CH_CE_LINES_COUNT), ("ue", cnt s (CH c) CH_UE_LINES_COUNT), ("poison_rd", cnt s (CH c) CH_POISON_RD_COUNT),
     ("rank0", markField s (Fin.ofNat 16 c) 0), ("rank1", markField s (Fin.ofNat 16 c) 1), ("scrub_pos", .h (fget s (CH c) CH_SCRUB_POS)),
     ("scrub_last", cnt s (CH c) CH_SCRUBCYC_LAST_S)]
  | .rowact c =>
    let recent := ((s.chan (Fin.ofNat 16 c)).rfmAt.filter fun t => decide (s.ns < t + 100000)).length
    [("ch", .n c), ("level", cnt s (CH c) CH_ROWSTAT_LEVEL), ("limited", cnt s (CH c) CH_ROWSTAT_LIMITED), ("rfm_100us", .n recent),
     ("t1", cnt s (CH c) CH_ROWACT_T1), ("t2", cnt s (CH c) CH_ROWACT_T2), ("t3", cnt s (CH c) CH_ROWACT2_T3), ("man_lim", cnt s (CH c) CH_ROWACT2_MAN_LIM),
     ("win_ms", cnt s (CH c) CH_ROWACT2_WIN_MS)]
  | .phy c r b =>
    let w := fun (i : Nat) => (ixGet s (PHY c) (r * 0x400 + i)).toNat
    let o := w (0x1C0 + bitDev s b)
    [("ch", .n c), ("rank", .n r), ("bit", .n b), ("rxdly", .n (w b % 128)), ("txdly", .n (w (0x080 + b) % 512)), ("trained_tx", .n (w (0x080 + b) / 65536 % 512)),
     ("rd_eye", .n (w (0x1E0 + b) % 256)), ("wr_eye", .n (w (0x1E0 + b) / 256 % 256)), ("osc", bytesF (numB (o / 65536) ++ 47 :: numB (o % 65536)))]
  | .power =>
    let lw := fget s PWR PWR_STATE_LAST_WAKE
    [("state", word2 (fget s PWR PWR_STATE_STATE == 1) "doze" "run"), ("sub", .s (subWord (fget s PWR PWR_STATE_SUB))),
     ("last_wake", .s (if lw = 0 then "none" else wakeWord lw)), ("start", .s (startWord (aonStart s))), ("brownout", cnt s AON AON_STATUS_BROWNOUT),
     ("ret_lost", cnt s AON AON_STATUS_RET_LOST), ("gate_fault", .h (fget s PWR PWR_GATE_FAULT_FAULT) 6)]
  | .console =>
    let rates := [115200, 230400, 460800, 921600, 1000000, 1500000, 2000000, 3000000]
    [("mode", word2 (strictMode s) "strict" "typed"), ("echo", word2 (echoOn s) "on" "off"), ("baud", .n ((rates[s.con.baud]?).getD 0)),
     ("tunnel", noneF (if fbit s CON CON_STATUS_TUN_ACT then some (fget s CON CON_STATUS_TUN_PORT) else none)), ("mixed", cnt s CON CON_MIXED_COUNT),
     ("uart_lost", cnt s CON CON_UART_LOST_COUNT), ("ev_lost", cnt s CON CON_EVLOST_COUNT), ("tun_drop", cnt s CON CON_TUNDROP_COUNT)]
  | .other _ => []

/-- What a view's reads restart: the high-water marks (16 R466). -/
def viewEffect (v : View) (s : State) : State :=
  match v with
  | .journal _ => viewRead (viewAddr v) s
  | .channel n => viewRead (CH n + CH_FILL_FILL.off) s
  | _ => s

/-- `show` (15 R448). -/
def showVerb (v : View) (s : State) : State × OutLn :=
  match v with
  | .other w => (s, erLn 303 "unknown view" [("view", .s w)])
  | _ =>
    match viewRange v with
    | some e => (s, e)
    | none =>
      if !blockOn s ((blockOf (viewAddr v)).map (·.1) |>.getD 0) then (domOff s, er204 (viewAddr v))
      else (viewEffect v s, okLn (viewFields v s))

/-- Hundredths of a watt. -/
def watts (quarters : Nat) : FVal := bytesF (numB (quarters / 4) ++ 46 :: strBytes (match quarters % 4 with | 0 => "00" | 1 => "25" | 2 => "50" | _ => "75"))

/-- `ledger show` (12 R360, R368). -/
def ledgerVerb (man : Option Nat) (s : State) : State × OutLn :=
  if !blockOn s LED then (domOff s, er204 (LED + LED_STATUS_LEVEL.off)) else
  match man with
  | none =>
    let h := (s.led.hold.map fun x => (x.1, x.2.1)).getD (0, 0)
    (s, okLn [("cap_w", watts (fget s LED LED_CAP_CAP)), ("level", cnt s LED LED_STATUS_LEVEL), ("e_last_nj", cnt s LED LED_WIN_E_NJ),
      ("head_nj", cnt s LED LED_HEAD_H_NJ), ("hold", bytesF (numB h.1 ++ 47 :: numB h.2)), ("dirtymax", cnt s MAN MAN_DIRTYMAX_LINES),
      ("cap_miss", cnt s LED LED_STATUS_CAP_MISS)])
  | some m =>
    if 256 ≤ m then (s, er106 "man" 0 255)
    else
      let nj := (acctWord s (0x100 + 2 * m)).toNat + (acctWord s (0x101 + 2 * m)).toNat * 2 ^ 32
      let pj := tblGet (fun _ => 0) s.led.lastMan m
      (s, okLn [("man", .n m), ("energy_nj", .n nj), ("window_avg_mw", .n (pj / 10240))])

/-- SHOW (15 R448). -/
def execConShow (view : View) (s : State) : Host.Outcome State Fault Refusal := .next (runVerb1 (showVerb view) s)

/-- LEDGER_SHOW (12 R360). -/
def execLedgerShow (man : Option Nat) (s : State) : Host.Outcome State Fault Refusal := .next (runVerb1 (ledgerVerb man) s)

end Sys2Proof.Machine
end

