-- ==== Sys2Proof/Machine/ConVerb.lean ====
section
/-! DEFINITION. The register verbs and the console's own verbs (15 R445, R446, R449, R452). -/

namespace Sys2Proof.Machine

/-! ### Register verbs (15 R446) -/

/-- What stands at an address for the register verbs. -/
inductive AddrT where
  | none
  /-- a complement port -/
  | port (b : Nat)
  /-- BLOCK_IND_ADDR or BLOCK_IND_DATA -/
  | pair (b : Nat)
  | reg (b : Nat) (r : RegD)
  deriving DecidableEq, Repr

/-- What an address names (16 R456 to R458). -/
def addrT (a : Nat) : AddrT :=
  if a % 4 ≠ 0 then .none
  else match blockOf a with
    | none => .none
    | some (b, rows) =>
      if 0x800 ≤ a - b ∧ a - b < 0xFF0 then .port b
      else if a - b = 0xFF0 ∨ a - b = 0xFF4 then .pair b
      else match rowAt rows (a - b) with
        | none => .none
        | some (r, _) => .reg b r

def er200 (a : Nat) : OutLn := erLn 200 "not a register" [("addr", .a a 8)]
def er201 (a : Nat) (w : String) : OutLn := erLn 201 "access refused" [("addr", .a a 8), ("access", .s w)]
def er202 (a : Nat) (w : String) : OutLn := erLn 202 "wrong write verb" [("addr", .a a 8), ("use", .s w)]

/-- An address that names no register is noted (16 R458). -/
def badAddr (s : State) : State := fset GLB GLB_STATUS_BAD_ADDR 1 s

/-- Why a read of an address is refused, and what the refusal notes. -/
def rdRefusal (s : State) (a : Nat) : Option (OutLn × Bool) :=
  let dom := fun (b : Nat) => if blockOn s b then none else some (er204 a, false)
  match addrT a with
  | .none => some (er200 a, true)
  | .port _ => none
  | .pair b => dom b
  | .reg b r => if writeOnly r then some (er201 a "wo", false) else dom b

/-- Reads of consecutive words. -/
def readMany : List Nat → State → List Word × State
  | [], s => ([], s)
  | a :: r, s =>
    let (w, s) := busRead a s
    let (ws, s) := readMany r s
    (w :: ws, s)

def wordF (w : Word) : String × FVal := ("", .h w.toNat 8)

/-- A refusal that stands before any access: it notes an unassigned address or a domain that is off. -/
def refuse (e : OutLn) (bad : Bool) (s : State) : State × OutLn :=
  (if bad then badAddr s else if errCode [e] == some 204 then domOff s else s, e)

/-- `rd` (15 R445, R446): every address is checked before any access is made. -/
def rdVerb (a n : Nat) (s : State) : State × OutLn :=
  if n = 0 ∨ 32 < n then (s, er106 "n" 1 32)
  else
    let as := (List.range n).map fun k => a + 4 * k
    match as.findSome? (rdRefusal s) with
    | some (e, bad) => refuse e bad s
    | none =>
      let (ws, s) := readMany as s
      (s, okLn (ws.map wordF))

/-- The verb that writes a register; none where it has no writable field. -/
def verbOf (r : RegD) : Option String :=
  if !writable r then none
  else if guarded r then some "wrg"
  else if hasAcc r (· == .wm) then some "wrm"
  else some "wr"

/-- How a register without a writable field is read. -/
def readType (r : RegD) : String := if hasAcc r (· == .rc) then "rc" else "ro"

/-- Why a write by a verb is refused. -/
def wrRefusal (s : State) (a : Nat) (verb : String) : Option (OutLn × Bool) :=
  let dom := fun (b : Nat) => if blockOn s b then none else some (er204 a, false)
  match addrT a with
  | .none => some (er200 a, true)
  | .port _ => some (er202 a "wrg", false)
  | .pair b => if verb == "wr" then dom b else some (er202 a "wr", false)
  | .reg b r =>
    match verbOf r with
    | none => some (er201 a (readType r), false)
    | some u => if u == verb then dom b else some (er202 a u, false)

/-- A value within bounds. -/
def tooBig (l : List (String × Nat × Nat)) : Option OutLn := (l.find? fun x => decide (x.2.2 < x.2.1)).map fun x => er106 x.1 0 x.2.2

/-- A write verb: its arguments are checked, then its register; then it writes. -/
def writeVerb (verb : String) (args : List (String × Nat × Nat)) (a : Nat) (f : State → State) (s : State) : State × OutLn :=
  match tooBig args with
  | some e => (s, e)
  | none =>
    match wrRefusal s a verb with
    | some (e, bad) => refuse e bad s
    | none => (f s, okLn [])

/-- `wr`. -/
def wrVerb (a v : Nat) (s : State) : State × OutLn := writeVerb "wr" [("value", v, 2 ^ 32 - 1)] a (busWrite a (w32 v)) s

/-- `wrm`. -/
def wrmVerb (a m v : Nat) (s : State) : State × OutLn :=
  writeVerb "wrm" [("mask", m, 65535), ("value", v, 65535)] a (busWrite a (w32 (m * 65536 + v))) s

/-- `wrg`: the pair is written on consecutive CK_MGT cycles, so nothing comes between. -/
def wrgVerb (a v : Nat) (s : State) : State × OutLn :=
  writeVerb "wrg" [("value", v, 2 ^ 32 - 1)] a (fun s => busWrite (a + 0x800) (~~~(w32 v)) (busWrite a (w32 v) s)) s

/-- The highest index of a block's tables. -/
def ixMax (b : Nat) : Nat := (ixRanges b).foldl (fun m r => max m r.2) 0

/-- Why an indirect command is refused: its arguments, its block, its index range, its domain. -/
def ixRefusal (s : State) (b i n : Nat) : Option OutLn :=
  if 2 ^ 24 ≤ i then some (er106 "index" 0 (2 ^ 24 - 1))
  else if blockName b == "none" then some (er300 "block")
  else match (List.range n).find? fun k => !ixListed b (i + k) with
    | some k => some (erLn 205 "index out of range" [("block", .s (blockName b)), ("index", .h (i + k)), ("max", .h (ixMax b))])
    | none => if blockOn s b then none else some (er204 (b + 0xFF4))

/-- `ird` (15 R445, R446): `b` is the block's base. -/
def irdVerb (b i n : Nat) (s : State) : State × OutLn :=
  if n = 0 ∨ 32 < n then (s, er106 "n" 1 32)
  else match ixRefusal s b i n with
    | some e => refuse e false s
    | none =>
      let (ws, s) := readMany (List.replicate n (b + 0xFF4)) (busWrite (b + 0xFF0) (w32 i) s)
      (s, okLn (("index", .h i) :: ws.map wordF))

/-- `iwr`. -/
def iwrVerb (b i : Nat) (vs : List Nat) (s : State) : State × OutLn :=
  if vs.isEmpty then (s, erLn 107 "missing argument" [("arg", .s "v1")])
  else if 16 < vs.length then (s, erLn 105 "syntax" [("at", .n 19)])
  else match tooBig (vs.zipIdx.map fun v => ("v" ++ toString (v.2 + 1), v.1, 2 ^ 32 - 1)) with
    | some e => (s, e)
    | none =>
      match ixRefusal s b i vs.length with
      | some e => refuse e false s
      | none =>
        let s' := winWrite b i (vs.map w32) s
        let c : Fin 16 := Fin.ofNat 16 (b / 0x10000)
        if (List.range vs.length).any fun k => settingsShut s b (i + k) then (s', erLn 441 "channel busy" [("ch", .n c.val), ("state", .s (chWord (chState s c)))])
        else (s', okLn [])

/-! ### The console's own verbs -/

/-- `id` (15 R445). -/
def idVerb (s : State) : State × OutLn :=
  let (t, s) := mgtDtime s
  (s, okLn [("vendor", .s "utterid"), ("device", .s "ew1672"), ("rev", cnt s GLB GLB_ID_REV), ("grade", flagF Config.gradeOne), ("serial", .s Config.serial),
    ("start", .n (aonStart s)), ("dtime", .n t)])

/-- An entry of the event log as `log` shows it: its slot, its time and the event line (15 R445). -/
def logFields (x : EvLogEnt) : List (String × FVal) :=
  ("e", .n (x.seq % 256)) :: ("t", .n x.time.toNat) :: ("", .s "ev") :: (evLine x.ev).fields

/-- `log` (15 R452). -/
def logVerb (n : Nat) (s : State) : State × List OutLn :=
  if n = 0 ∨ 64 < n then (s, [er106 "last" 1 64]) else (s, listing ((s.con.log.reverse.take n).map logFields))

/-- A verb's write of CON_CTL. -/
def ctlWrite (f : Fld) (v : Nat) (s : State) : State := busWrite CON (f.put v (rg s CON)) s

/-- `echo` (15 R437, R438). -/
def echoVerb (on : Bool) (s : State) : State × OutLn :=
  if on && strictMode s then (s, erLn 304 "wrong mode" [("mode", .s "strict")])
  else (ctlWrite CON_CTL_ECHO (if on then 1 else 0) s, okLn [])

/-! ### Commands -/

/-- ID (15 R445). -/
def execConId (s : State) : Host.Outcome State Fault Refusal := .next (runVerb1 idVerb s)

/-- CONSOLE_RD (15 R446). -/
def execConRd (addr n : Nat) (s : State) : Host.Outcome State Fault Refusal := .next (runVerb1 (rdVerb addr n) s)

/-- CONSOLE_WR (15 R446). -/
def execConWr (addr v : Nat) (s : State) : Host.Outcome State Fault Refusal := .next (settle (runVerb1 (wrVerb addr v) s))

/-- WRM (15 R445). -/
def execConWrm (addr mask v : Nat) (s : State) : Host.Outcome State Fault Refusal := .next (runVerb1 (wrmVerb addr mask v) s)

/-- WRG (15 R446). -/
def execConWrg (addr v : Nat) (s : State) : Host.Outcome State Fault Refusal := .next (settle (runVerb1 (wrgVerb addr v) s))

/-- IRD (15 R446). -/
def execConIrd (block index n : Nat) (s : State) : Host.Outcome State Fault Refusal := .next (runVerb1 (irdVerb block index n) s)

/-- IWR (15 R446). -/
def execConIwr (block index : Nat) (vs : List Nat) (s : State) : Host.Outcome State Fault Refusal := .next (settle (runVerb1 (iwrVerb block index vs) s))

/-- LOG (15 R452). -/
def execConLog (last : Nat) (s : State) : Host.Outcome State Fault Refusal := .next (runVerb (logVerb last) s)

/-- LOG_CLEAR (15 R452). -/
def execConLogClear (s : State) : Host.Outcome State Fault Refusal :=
  .next (runVerb1 (fun s => ({ s with con := { s.con with log := [] } }, okLn [])) s)

/-- ECHO (15 R438). -/
def execConEcho (on : Bool) (s : State) : Host.Outcome State Fault Refusal := .next (runVerb1 (echoVerb on) s)

/-- MODE (15 R437). -/
def execConMode (strict : Bool) (s : State) : Host.Outcome State Fault Refusal :=
  .next (runVerb1 (fun s => (ctlWrite CON_CTL_MODE (if strict then 1 else 0) s, okLn [])) s)

end Sys2Proof.Machine
end

