-- ==== Sys2Proof/Machine/Pins.lean ====
section
/-! DEFINITION. The pins and clocks that the block's surroundings drive: the temperature sensor and THERM_N, the crystal, a channel PLL, the test access port and the wake bus (02 R64, 14 R408, 18 R526, R532, R534). -/

namespace Sys2Proof.Machine

/-- THERM_N is asserted at or above this reading, in tenths of a degree (18 R532). -/
def thermTrip : Int := if Config.gradeOne then 1100 else 1000

/-- The level of THERM_N after a reading: low from the trip point, high 5 degrees below it, and unchanged between (18 R532). -/
def thermLevel (was : Bool) (tenths : Int) : Bool :=
  if thermTrip ≤ tenths then false
  else if tenths ≤ thermTrip - 50 then true
  else was

/-- The sensor is read, which happens only while the CORE domain is on (18 R532). -/
def thermRead (tenths : Int) (s : State) : State :=
  if domState s 1 = 2 then { s with pwr := { s.pwr with thermN := thermLevel s.pwr.thermN tenths } } else s

/-- The source of CK_SLOW (18 R526): the AON domain holds it, and GLB_CLKSTAT.SLOW_XTAL shows it (02 R64). -/
def slowFrom (x : Bool) (s : State) : State :=
  if s.pwr.vinOn then fsetB GLB GLB_CLKSTAT_SLOW_XTAL x { s with pwr := { s.pwr with xtal := x } } else s

/-- A channel's PLL loses its lock (02 R64). -/
def chPllLost (c : Fin 16) (s : State) : State :=
  if (fget s GLB GLB_CLKSTAT_CH_LOCK).testBit c.val then
    fset GLB GLB_CLKSTAT_LOCK_LOSS 1 (fsetBit GLB GLB_CLKSTAT_CH_LOCK c.val false s)
  else s

/-- An instruction of the test access port (18 R534): every one but BYPASS and IDCODE takes the chained pins from the block, which may be relied on again after a cold start only. -/
def tapIn (ir : TapIr) (s : State) : State :=
  { s with pwr := { s.pwr with tapIr := ir, scan := s.pwr.scan || ir == .other } }

/-- The first STOP condition once the management domain runs hands the wake port to the responder (14 R408). -/
def wakeStop (s : State) : State :=
  if s.pwr.wk = .matcher ∧ domState s 0 = 2 then { s with pwr := { s.pwr with wk := .responder } } else s

/-- THERM_SAMPLE (18 R532). -/
def execThermSample (tenths : Int) (s : State) : Host.Outcome State Fault Refusal := .next (thermRead tenths s)

/-- XTAL_QUALIFIED (18 R526). -/
def execXtalQualified (s : State) : Host.Outcome State Fault Refusal := .next (slowFrom true s)

/-- XTAL_LOSS (18 R526). -/
def execXtalLoss (s : State) : Host.Outcome State Fault Refusal := .next (slowFrom false s)

/-- CHANNEL_PLL_LOCK_LOSS (02 R64). -/
def execChannelPllLockLoss (ch : Fin 16) (s : State) : Host.Outcome State Fault Refusal := .next (chPllLost ch s)

/-- TAP_INSTRUCTION (18 R534). -/
def execTapInstruction (ir : TapIr) (s : State) : Host.Outcome State Fault Refusal := .next (tapIn ir s)

/-- WAKE_PORT_STOP_CONDITION (14 R408). -/
def execWakePortStopCondition (s : State) : Host.Outcome State Fault Refusal := .next (wakeStop s)

end Sys2Proof.Machine
end

