-- ==== Sys2Proof/Machine/Dispatch.lean ====
section
/-! DEFINITION. One arm for each command of Syntax.lean: a direct call of its meaning. -/

namespace Sys2Proof.Machine

def exec (i : Instr) (s : State) : Host.Outcome State Fault Refusal :=
  match i with
  | .rd port h ue => Sys2Proof.Machine.execRd port h ue s
  | .wr port h body ue => Sys2Proof.Machine.execWr port h body ue s
  | .wrp port h body ue => Sys2Proof.Machine.execWrp port h body ue s
  | .add port h body ue => Sys2Proof.Machine.execAdd port h body ue s
  | .enq port h body ue => Sys2Proof.Machine.execEnq port h body ue s
  | .deq port h ue => Sys2Proof.Machine.execDeq port h ue s
  | .walk port h body ue => Sys2Proof.Machine.execWalk port h body ue s
  | .sync port h ue => Sys2Proof.Machine.execSync port h ue s
  | .time port slot rply => Sys2Proof.Machine.execTime port slot rply s
  | .conMessage port slot => Sys2Proof.Machine.execConMessage port slot s
  | .arbiterContest arb errs => Sys2Proof.Machine.execArbiterContest arb errs s
  | .resvGrant arb errs => Sys2Proof.Machine.execResvGrant arb errs s
  | .waystationAccessComplete idx ecc errs => Sys2Proof.Machine.execWaystationAccessComplete idx ecc errs s
  | .commandAdmission ch => Sys2Proof.Machine.execCommandAdmission ch s
  | .commandIssue ch pos => Sys2Proof.Machine.execCommandIssue ch pos s
  | .burstDecode ch sym again errs => Sys2Proof.Machine.execBurstDecode ch sym again errs s
  | .alertWindowClose ch errs => Sys2Proof.Machine.execAlertWindowClose ch errs s
  | .alert ch => Sys2Proof.Machine.execAlert ch s
  | .alertHoldExpiry ch => Sys2Proof.Machine.execAlertHoldExpiry ch s
  | .replayTimeout ch => Sys2Proof.Machine.execReplayTimeout ch s
  | .refreshDue ch rank => Sys2Proof.Machine.execRefreshDue ch rank s
  | .mr4Poll ch r0 r1 => Sys2Proof.Machine.execMr4Poll ch r0 r1 s
  | .rowactWindowBoundary ch => Sys2Proof.Machine.execRowactWindowBoundary ch s
  | .markWindowEnd ch => Sys2Proof.Machine.execMarkWindowEnd ch s
  | .rankPowerDown ch rank => Sys2Proof.Machine.execRankPowerDown ch rank s
  | .pageTimeout ch bank => Sys2Proof.Machine.execPageTimeout ch bank s
  | .spareRewrite ch sym => Sys2Proof.Machine.execSpareRewrite ch sym s
  | .scrubRead ch sym again => Sys2Proof.Machine.execScrubRead ch sym again s
  | .backgroundGrant ch req => Sys2Proof.Machine.execBackgroundGrant ch req s
  | .proofPauseDue ch => Sys2Proof.Machine.execProofPauseDue ch s
  | .proofPauseStart ch => Sys2Proof.Machine.execProofPauseStart ch s
  | .proofPauseEnd ch res => Sys2Proof.Machine.execProofPauseEnd ch res s
  | .pauseHoldbackExpiry ch => Sys2Proof.Machine.execPauseHoldbackExpiry ch s
  | .periodBoundary => Sys2Proof.Machine.execPeriodBoundary s
  | .tollGateRefill => Sys2Proof.Machine.execTollGateRefill s
  | .horizonHoldExpiry => Sys2Proof.Machine.execHorizonHoldExpiry s
  | .migrationEpoch => Sys2Proof.Machine.execMigrationEpoch s
  | .promotionComplete pinned frame => Sys2Proof.Machine.execPromotionComplete pinned frame s
  | .demotionComplete pinned frame => Sys2Proof.Machine.execDemotionComplete pinned frame s
  | .stageImageLoaded desc slot => Sys2Proof.Machine.execStageImageLoaded desc slot s
  | .caravanStageEnd ring entry => Sys2Proof.Machine.execCaravanStageEnd ring entry s
  | .walkHoldExpiry ring entry => Sys2Proof.Machine.execWalkHoldExpiry ring entry s
  | .walkReadRetry idx => Sys2Proof.Machine.execWalkReadRetry idx s
  | .enqApply ring entry recBad => Sys2Proof.Machine.execEnqApply ring entry recBad s
  | .deqApply ring entry recBad eccs => Sys2Proof.Machine.execDeqApply ring entry recBad eccs s
  | .queuePoolReady => Sys2Proof.Machine.execQueuePoolReady s
  | .dataFlit port f => Sys2Proof.Machine.execDataFlit port f s
  | .idleFlit port f => Sys2Proof.Machine.execIdleFlit port f s
  | .trainFlit port f lock pass rev => Sys2Proof.Machine.execTrainFlit port f lock pass rev s
  | .nakTimeout port => Sys2Proof.Machine.execNakTimeout port s
  | .ackTimeout port => Sys2Proof.Machine.execAckTimeout port s
  | .detectLock port good inv => Sys2Proof.Machine.execDetectLock port good inv s
  | .equaliseDone port good => Sys2Proof.Machine.execEqualiseDone port good s
  | .trainingTimeout port => Sys2Proof.Machine.execTrainingTimeout port s
  | .laneSignalLoss port lane => Sys2Proof.Machine.execLaneSignalLoss port lane s
  | .laneSerWindow port => Sys2Proof.Machine.execLaneSerWindow port s
  | .portReset port => Sys2Proof.Machine.execPortReset port s
  | .retrain port => Sys2Proof.Machine.execRetrain port s
  | .upgrade port => Sys2Proof.Machine.execUpgrade port s
  | .portEnable port en => Sys2Proof.Machine.execPortEnable port en s
  | .tunnelEnable port en => Sys2Proof.Machine.execTunnelEnable port en s
  | .txPllLockLoss port => Sys2Proof.Machine.execTxPllLockLoss port s
  | .journalReplay ch errs => Sys2Proof.Machine.execJournalReplay ch errs s
  | .poisonFillDone ch => Sys2Proof.Machine.execPoisonFillDone ch s
  | .twinResync ch => Sys2Proof.Machine.execTwinResync ch s
  | .mapLoad => Sys2Proof.Machine.execMapLoad s
  | .loadTimingProfile ch => Sys2Proof.Machine.execLoadTimingProfile ch s
  | .trainStart ch manual ans => Sys2Proof.Machine.execTrainStart ch manual ans s
  | .trainEnd ch ans => Sys2Proof.Machine.execTrainEnd ch ans s
  | .trainingComplete ch ans => Sys2Proof.Machine.execTrainingComplete ch ans s
  | .trainingStepTimeout ch => Sys2Proof.Machine.execTrainingStepTimeout ch s
  | .manualTrainingTimeout ch => Sys2Proof.Machine.execManualTrainingTimeout ch s
  | .sweepStart ch form => Sys2Proof.Machine.execSweepStart ch form s
  | .sweepDone ch eyes => Sys2Proof.Machine.execSweepDone ch eyes s
  | .compareClear ch => Sys2Proof.Machine.execCompareClear ch s
  | .relockDone ch res => Sys2Proof.Machine.execRelockDone ch res s
  | .ledgerWindowEnd => Sys2Proof.Machine.execLedgerWindowEnd s
  | .ledgerActionPoint => Sys2Proof.Machine.execLedgerActionPoint s
  | .holdApply decl => Sys2Proof.Machine.execHoldApply decl s
  | .pfail lowNs => Sys2Proof.Machine.execPfail lowNs s
  | .pfailFlushDone => Sys2Proof.Machine.execPfailFlushDone s
  | .pfailRelease => Sys2Proof.Machine.execPfailRelease s
  | .waySliceStart => Sys2Proof.Machine.execWaySliceStart s
  | .waySliceEnd bad scrub errs => Sys2Proof.Machine.execWaySliceEnd bad scrub errs s
  | .dramSliceStart ch => Sys2Proof.Machine.execDramSliceStart ch s
  | .rowDisplaced ch eccs => Sys2Proof.Machine.execRowDisplaced ch eccs s
  | .dramPhaseEnd ch bits => Sys2Proof.Machine.execDramPhaseEnd ch bits s
  | .rowRestored ch => Sys2Proof.Machine.execRowRestored ch s
  | .sliceBudgetExpiry ch => Sys2Proof.Machine.execSliceBudgetExpiry ch s
  | .phySliceStart ch => Sys2Proof.Machine.execPhySliceStart ch s
  | .phySliceEnd ch margins => Sys2Proof.Machine.execPhySliceEnd ch margins s
  | .laneSlice port mv mui => Sys2Proof.Machine.execLaneSlice port mv mui s
  | .bistRun target unit => Sys2Proof.Machine.execBistRun target unit s
  | .bistShow target unit => Sys2Proof.Machine.execBistShow target unit s
  | .bistLog last => Sys2Proof.Machine.execBistLog last s
  | .sleepDoze => Sys2Proof.Machine.execSleepDoze s
  | .sleepBanked => Sys2Proof.Machine.execSleepBanked s
  | .drainComplete => Sys2Proof.Machine.execDrainComplete s
  | .drainTimeout => Sys2Proof.Machine.execDrainTimeout s
  | .sleepParkDone => Sys2Proof.Machine.execSleepParkDone s
  | .wakeWindowEnd => Sys2Proof.Machine.execWakeWindowEnd s
  | .retentionCheck inWindow => Sys2Proof.Machine.execRetentionCheck inWindow s
  | .wakeN lowNs => Sys2Proof.Machine.execWakeN lowNs s
  | .wakePortMatch addr read bytes => Sys2Proof.Machine.execWakePortMatch addr read bytes s
  | .linkWake port => Sys2Proof.Machine.execLinkWake port s
  | .aonTimerWake => Sys2Proof.Machine.execAonTimerWake s
  | .bankImageRestored ok => Sys2Proof.Machine.execBankImageRestored ok s
  | .retentionSettle => Sys2Proof.Machine.execRetentionSettle s
  | .sleepWake => Sys2Proof.Machine.execSleepWake s
  | .sleepResume => Sys2Proof.Machine.execSleepResume s
  | .clockRun lock => Sys2Proof.Machine.execClockRun lock s
  | .gateRampStage dom => Sys2Proof.Machine.execGateRampStage dom s
  | .gateFault dom cause => Sys2Proof.Machine.execGateFault dom cause s
  | .powerRetry dom => Sys2Proof.Machine.execPowerRetry dom s
  | .brownout => Sys2Proof.Machine.execBrownout s
  | .retentionLost => Sys2Proof.Machine.execRetentionLost s
  | .powerOn => Sys2Proof.Machine.execPowerOn s
  | .waystationClearDone => Sys2Proof.Machine.execWaystationClearDone s
  | .resetN lowNs => Sys2Proof.Machine.execResetN lowNs s
  | .resetNRelease => Sys2Proof.Machine.execResetNRelease s
  | .watchdogExpiry => Sys2Proof.Machine.execWatchdogExpiry s
  | .watchdogKick => Sys2Proof.Machine.execWatchdogKick s
  | .corePllLockLoss => Sys2Proof.Machine.execCorePllLockLoss s
  | .resetWarm => Sys2Proof.Machine.execResetWarm s
  | .resetCold => Sys2Proof.Machine.execResetCold s
  | .resetPort port => Sys2Proof.Machine.execResetPort port s
  | .perChannelReset ch => Sys2Proof.Machine.execPerChannelReset ch s
  | .snapshotCapture => Sys2Proof.Machine.execSnapshotCapture s
  | .snapshotDone => Sys2Proof.Machine.execSnapshotDone s
  | .layoutCommit => Sys2Proof.Machine.execLayoutCommit s
  | .wayCarveWrite v => Sys2Proof.Machine.execWayCarveWrite v s
  | .pinEnable k => Sys2Proof.Machine.execPinEnable k s
  | .pinDisable k => Sys2Proof.Machine.execPinDisable k s
  | .queuePoolInit cmd => Sys2Proof.Machine.execQueuePoolInit cmd s
  | .queueReset q => Sys2Proof.Machine.execQueueReset q s
  | .manifestOpen man f => Sys2Proof.Machine.execManifestOpen man f s
  | .manifestModify man m => Sys2Proof.Machine.execManifestModify man m s
  | .manifestClose man force => Sys2Proof.Machine.execManifestClose man force s
  | .manifestClosed man => Sys2Proof.Machine.execManifestClosed man s
  | .walkDefine desc man home bypass hold slots slotseg nctx => Sys2Proof.Machine.execWalkDefine desc man home bypass hold slots slotseg nctx s
  | .walkStage desc stage gather base segs shift width => Sys2Proof.Machine.execWalkStage desc stage gather base segs shift width s
  | .walkLoad desc => Sys2Proof.Machine.execWalkLoad desc s
  | .walkUnload desc => Sys2Proof.Machine.execWalkUnload desc s
  | .walkUnloaded desc => Sys2Proof.Machine.execWalkUnloaded desc s
  | .streamOpen port strm => Sys2Proof.Machine.execStreamOpen port strm s
  | .markCommand ch rank dev => Sys2Proof.Machine.execMarkCommand ch rank dev s
  | .probeArm => Sys2Proof.Machine.execProbeArm s
  | .guardedValueWrite addr v => Sys2Proof.Machine.execGuardedValueWrite addr v s
  | .guardedComplementWrite addr v => Sys2Proof.Machine.execGuardedComplementWrite addr v s
  | .guardTimeout => Sys2Proof.Machine.execGuardTimeout s
  | .maskedWrite addr v => Sys2Proof.Machine.execMaskedWrite addr v s
  | .clearOnRead addr => Sys2Proof.Machine.execClearOnRead addr s
  | .indDataRead block => Sys2Proof.Machine.execIndDataRead block s
  | .indDataWrite block v => Sys2Proof.Machine.execIndDataWrite block v s
  | .aonWriteEffect => Sys2Proof.Machine.execAonWriteEffect s
  | .registerWrite addr v => Sys2Proof.Machine.execRegisterWrite addr v s
  | .uartByte b frame => Sys2Proof.Machine.execUartByte b frame s
  | .uartBreak => Sys2Proof.Machine.execUartBreak s
  | .unknownVerb => Sys2Proof.Machine.execUnknownVerb s
  | .conId => Sys2Proof.Machine.execConId s
  | .conHelp topic => Sys2Proof.Machine.execConHelp topic s
  | .conRd addr n => Sys2Proof.Machine.execConRd addr n s
  | .conWr addr v => Sys2Proof.Machine.execConWr addr v s
  | .conWrm addr mask v => Sys2Proof.Machine.execConWrm addr mask v s
  | .conWrg addr v => Sys2Proof.Machine.execConWrg addr v s
  | .conIrd block index n => Sys2Proof.Machine.execConIrd block index n s
  | .conIwr block index vs => Sys2Proof.Machine.execConIwr block index vs s
  | .conGet name => Sys2Proof.Machine.execConGet name s
  | .conSet name v => Sys2Proof.Machine.execConSet name v s
  | .conShow view => Sys2Proof.Machine.execConShow view s
  | .ledgerShow man => Sys2Proof.Machine.execLedgerShow man s
  | .conLog last => Sys2Proof.Machine.execConLog last s
  | .conLogClear => Sys2Proof.Machine.execConLogClear s
  | .conEcho on => Sys2Proof.Machine.execConEcho on s
  | .conMode strict => Sys2Proof.Machine.execConMode strict s
  | .answerSent => Sys2Proof.Machine.execAnswerSent s
  | .eventSend => Sys2Proof.Machine.execEventSend s
  | .thermSample tenths => Sys2Proof.Machine.execThermSample tenths s
  | .xtalQualified => Sys2Proof.Machine.execXtalQualified s
  | .xtalLoss => Sys2Proof.Machine.execXtalLoss s
  | .vinAonOff => Sys2Proof.Machine.execVinAonOff s
  | .coreSupplyLoss => Sys2Proof.Machine.execCoreSupplyLoss s
  | .channelPllLockLoss ch => Sys2Proof.Machine.execChannelPllLockLoss ch s
  | .tapInstruction ir => Sys2Proof.Machine.execTapInstruction ir s
  | .wakePortStopCondition => Sys2Proof.Machine.execWakePortStopCondition s
  | .alignedMillisecondEnd ch => Sys2Proof.Machine.execAlignedMillisecondEnd ch s
  | .aonRegulatorSettled => Sys2Proof.Machine.execAonRegulatorSettled s

end Sys2Proof.Machine
end

