-- ==== Sys2Proof/Safety.lean ====
section
/-! DEFINITION. What counts as a safe run of the EW1672: every command answers a next state, and the tables of the state stay in their one canonical form. -/

namespace Sys2Proof

/-- A step answers a next state: the part goes on. -/
def goesOn (s : Machine.State) : Prop := ∃ t, Machine.step s = .next t

/-- From `s`, `k` steps in a row go on. -/
def safeFor : Nat → Machine.State → Prop
  | 0, _ => True
  | k + 1, s => ∃ t, Machine.step s = .next t ∧ safeFor k t

/-- Every sparse table of the state is in canonical form: the register file, the indirect tables, DRAM, the Waystation's lines, the stream records, the manifests and the accounts. Equal contents are then equal data. -/
structure Canon (s : Machine.State) : Prop where
  regs : Machine.tblWf Machine.regReset s.regs = true
  ix : Machine.tblWf Machine.ixReset s.ix = true
  dram : Machine.Memory.wf s.dram
  wmem : Machine.Memory.wf s.wmem
  streams : Machine.tblWf (fun _ => ({} : Machine.StreamRec)) s.streams = true
  mans : Machine.tblWf (fun _ => ({} : Machine.Manifest)) s.mans = true
  accts : Machine.tblWf (fun _ => ({} : Machine.Account)) s.accts = true

/-- The console interpreter takes a line now: the console runs, no answer is being sent, no line before it is unfinished, and the line in hand, if any, passes its checks (15 R436, R437, R441). -/
def verbReady (s : Machine.State) : Bool :=
  Machine.consoleOn s && s.con.ans.isEmpty && !Machine.sleepBusy s && (s.con.line.bind (Machine.lineErr (Machine.strictMode s))).isNone

/-- Two states hold the same memories and tables: DRAM, the Waystation's lines, the indirect tables, the stream records, the manifests and the accounts. -/
def sameStore (s t : Machine.State) : Prop :=
  t.dram = s.dram ∧ t.wmem = s.wmem ∧ t.ix = s.ix ∧ t.streams = s.streams ∧ t.mans = s.mans ∧ t.accts = s.accts

/-- Two states hold the same register file and the same memories and tables. -/
def sameRegs (s t : Machine.State) : Prop := t.regs = s.regs ∧ sameStore s t

/-- The command of a request by its opcode; a request that carries no body leaves `body` out. -/
def reqCmd (o : Opc) (p : Fin 4) (h : Hdr) (body : List Slot) (ue : Bool) : Instr :=
  match o with
  | .rd => .rd p h ue
  | .wr => .wr p h body ue
  | .wrp => .wrp p h body ue
  | .add => .add p h body ue
  | .enq => .enq p h body ue
  | .deq => .deq p h ue
  | .walk => .walk p h body ue
  | .sync => .sync p h ue

/-- The request that such a command delivers. -/
def reqOf (o : Opc) (h : Hdr) (body : List Slot) : Req :=
  match o with
  | .rd | .deq | .sync => ⟨o, h, [], false⟩
  | .wr | .wrp | .add | .enq | .walk => ⟨o, h, body, false⟩

/-- A request can be classified now: the core runs, its stream has no request between classification and grant and no pending SYNC, its tag is not void, no request of its stream arrived before it and still waits to be taken, and an ENQ has a length (02 R57, 03 R98, 04 R113, R120). -/
def intakeReady (s : Machine.State) (p : Fin 4) (r : Req) : Prop :=
  Machine.coreRuns s = true ∧ (s.strm p r.hdr.stream).busy = false ∧ (s.strm p r.hdr.stream).sync = none ∧
    ((s.port p).intake.contains r = true ∨ (s.port p).intake.contains { r with void := true } = false) ∧
    (∀ q ∈ (s.port p).intake.takeWhile (fun q => decide (q ≠ r)), q.hdr.stream ≠ r.hdr.stream) ∧
    (r.opc = .enq → 0 < Machine.enqBytes r.hdr ∧ Machine.enqBytes r.hdr ≤ 9216)

/-- A refusal made at intake, as it goes to the request's tag (04 R123). -/
def refusal (r : Req) (code : BitVec 4) (info : Nat) : Machine.Resp :=
  ⟨4, r.hdr.tag, r.hdr.stream, r.hdr.seq, BitVec.ofNat 4 r.opc.code, false, false, code, BitVec.ofNat 64 info, [], some r.hdr.man⟩

/-- A stream record with no request between classification and grant. -/
def idleStrm (x : Machine.StreamRec) : Machine.StreamRec := { x with busy := false }

/-- A stream record whose loss count and its consequences are gone (04 R125). -/
def clearedStrm (x : Machine.StreamRec) : Machine.StreamRec := { x with k := 0, resv := false, retryAt := none, busy := false }

/-- Two states hold the same journal rings, arbiters, DRAM and Waystation lines. -/
def sameWork (s t : Machine.State) : Prop := t.rings = s.rings ∧ t.arbs = s.arbs ∧ t.dram = s.dram ∧ t.wmem = s.wmem

/-- A warm reset of cause `k` has taken `s` to `t`: the cause and the count are recorded, channels in service or READY are in self-refresh unless a pause runs there, the console and the throttle start anew, and journal and DRAM stand as they did (17 R497 to R499, R507). -/
def warmWas (s t : Machine.State) (k : Nat) : Prop :=
  Machine.fget t Machine.GLB Machine.GLB_RESET_CAUSE_CAUSE = k ∧ Machine.fbit t Machine.GLB Machine.GLB_RESET_CAUSE_KIND = true ∧
    Machine.fget t Machine.GLB Machine.GLB_RESET_CAUSE_WARM_CNT = min (Machine.fget s Machine.GLB Machine.GLB_RESET_CAUSE_WARM_CNT + 1) 255 ∧
    (∀ c : Fin 16, Machine.chState s c = 2 ∨ Machine.chState s c = 3 → (s.phy c).active = none → Machine.chState t c = 4) ∧
    (∀ c ∈ Machine.members s, (s.chan c).lost = false → (t.chan c).replayDue = true) ∧
    t.rings = s.rings ∧ t.dram = s.dram ∧ t.con.ans = [] ∧ t.con.line = none ∧ t.con.fifo = [] ∧ t.wayOps = [] ∧
    Machine.rg t (Machine.GLB + Machine.GLB_WDOG_CTL_EN.off) = 0 ∧ Machine.fget t Machine.LED Machine.LED_STATUS_LEVEL = 0

/-- A cold start of cause `k` has begun: memories and tables are empty, every register outside the AON and power blocks is at its reset value but for the two of GLB that say how the start came about, and the first domain ramps (17 R494). -/
def coldWas (t : Machine.State) (k : Nat) : Prop :=
  t.pwr.mode = .off ∧ t.pwr.wake = some .ramps ∧ t.pwr.ramps ≠ [] ∧ t.d8 = 0 ∧ Machine.fget t Machine.GLB Machine.GLB_RESET_CAUSE_CAUSE = k ∧
    t.dram = [] ∧ t.wmem = [] ∧ t.ix = [] ∧ t.streams = [] ∧ t.mans = [] ∧ t.accts = [] ∧ t.rings = Machine.State.reset.rings ∧
    ∀ a, ¬(Machine.AON ≤ a ∧ a < Machine.AON + 0x1000) → ¬(Machine.PWR ≤ a ∧ a < Machine.PWR + 0x1000) →
      a ≠ Machine.GLB + Machine.GLB_CLKSTAT_CORE_LOCK.off → a ≠ Machine.GLB + Machine.GLB_RESET_CAUSE_CAUSE.off → Machine.rg t a = Machine.regReset a

/-- A member that is not lost is not in service yet (14 R409, R412). -/
def membersWait (s : Machine.State) : Prop := ∃ c ∈ Machine.members s, (s.chan c).lost = false ∧ Machine.inService s c = false

/-- DOZE has been left by the wake source `k`: the exit waits for the channels, which re-lock, and the ports in QUIET retrain (14 R405, R409). -/
def dozeLeft (s t : Machine.State) (k : Nat) : Prop :=
  t.pwr.mode = .run ∧ t.pwr.dozeExit = some k ∧ Machine.fget t Machine.PWR Machine.PWR_STATE_STATE = 0 ∧ Machine.fget t Machine.PWR Machine.PWR_STATE_SUB = 3 ∧
    Machine.fget t Machine.PWR Machine.PWR_STATE_LAST_WAKE = k ∧ Machine.fget t Machine.AON Machine.AON_STATUS_LAST_WAKE = k ∧
    (∀ c : Fin 16, Machine.chState s c = 4 → (t.phy c).relock = true) ∧ (∀ p : Fin 4, Machine.portSt s p = Machine.PORT_QUIET → Machine.portSt t p = Machine.PORT_RETRAIN) ∧
    t.d8 = s.d8 ∧ t.dram = s.dram ∧ t.streams = s.streams

/-- A wake from BANKED has begun by the source `k`: the regulator leaves its low-power mode and WAY_RET_EN falls (14 R410). -/
def bankedLeft (s t : Machine.State) (k : Nat) : Prop :=
  t.pwr.mode = s.pwr.mode ∧ t.pwr.wake = some .regulator ∧ t.pwr.cause = k ∧ t.pwr.lowPower = false ∧ t.pwr.retEn = false ∧ t.pwr.retWait = true ∧
    Machine.fget t Machine.PWR Machine.PWR_STATE_SUB = 3 ∧ Machine.fget t Machine.AON Machine.AON_STATUS_LAST_WAKE = k ∧
    Machine.rg t (Machine.AON + Machine.AON_SLOWCNT_EDGES.off) = BitVec.ofNat 32 s.pwr.slowEdges ∧ sameStore s t

/-- No dirty line is left in a frame, but lines that no channel holds. -/
def allClean (t : Machine.State) : Prop :=
  ∀ (pin : Bool) (f i : Nat), i < 16 → Machine.bit16 (t.frame pin f).dirty i = true → Machine.placeOf t ((t.frame pin f).seg * 16 + i) = none

/-- The line in hand has been answered with the lines `l`: nothing else that the console, the clock, the power state or the memories hold has changed, and of the registers only the console's counts of lines and errors (15 R441). -/
def answered (l : List Machine.OutLn) (s t : Machine.State) : Prop :=
  t.con.ans = l ∧ Machine.fget t Machine.CON Machine.CON_LINES_COUNT = min (Machine.fget s Machine.CON Machine.CON_LINES_COUNT + 1) (2 ^ 32 - 1) ∧
    t.d8 = s.d8 ∧ t.pwr = s.pwr ∧ sameStore s t ∧
    ∀ a, a ≠ Machine.CON + Machine.CON_LINES_COUNT.off → a ≠ Machine.CON + Machine.CON_ERRS_COUNT.off → a ≠ Machine.CON + Machine.CON_CHKERR_COUNT.off → Machine.rg t a = Machine.rg s a

/-- Nothing that waits at the core can go on by itself: no caravan runs and no request waits at classification (04 R120, 07 R218). -/
def settled (s : Machine.State) : Prop := s.caravans = [] ∧ ∀ e ∈ s.streams, e.2.waiting = []

/-- DTIME at the first CK_CORE cycle at or after the instant `x8`, in eighths of a ns: now, where the instant is past. DTIME moves by whole steps (02 R51). -/
def firstCycle8 (s : Machine.State) (x8 : Nat) : Nat := s.d8 + Machine.cdiv (x8 - s.d8) (Machine.coreTick8 s) * Machine.coreTick8 s

/-- The instant at which a ramp that begins now starts, at least 1 us after the start of the last (14 R417). -/
def rampFrom8 (s : Machine.State) : Nat :=
  match s.pwr.rampAt8 with
  | some t => max s.d8 (t + 8000)
  | none => s.d8

/-- The memories and tables of the part that commands write through a writer of their own: the indirect tables, the stream records, the manifests, the accounts, DRAM and the Waystation's lines. -/
inductive Store where
  | ix | streams | mans | accts | dram | wmem
  deriving DecidableEq, Repr

/-- Which of them a command may write. A command that can let a request, a transfer or a power-fail flush go on may write all but the manifests; the ends of a wake, a pin reset and an answer may end in a start, which clears them all. -/
def stores : Instr → List Store
  | .rd _ _ _ | .wr _ _ _ _ | .wrp _ _ _ _ | .add _ _ _ _ | .enq _ _ _ _ | .deq _ _ _ | .walk _ _ _ _ | .sync _ _ _ | .arbiterContest _ _
  | .resvGrant _ _ | .waystationAccessComplete _ _ _ | .commandAdmission _ | .commandIssue _ _ | .burstDecode _ _ _ _ | .alertWindowClose _ _
  | .alert _ | .replayTimeout _ | .caravanStageEnd _ _ | .enqApply _ _ _ | .deqApply _ _ _ _ | .journalReplay _ _ | .relockDone _ _
  | .waySliceEnd _ _ _ | .drainTimeout | .wakeN _ | .wakePortMatch _ _ _ | .linkWake _ | .aonTimerWake | .sleepResume | .gateFault _ _ | .resetN _
  | .resetPort _ | .perChannelReset _ | .streamOpen _ _ | .guardedComplementWrite _ _ | .indDataWrite _ _ | .registerWrite _ _ | .conWr _ _
  | .conWrg _ _ | .conIwr _ _ _ | .conSet _ _ => [.ix, .streams, .accts, .dram, .wmem]
  | .markWindowEnd _ | .proofPauseEnd _ _ | .compareClear _ | .phySliceEnd _ _ | .laneSlice _ _ _ | .brownout | .powerOn | .walkDefine _ _ _ _ _ _ _ _
  | .walkStage _ _ _ _ _ _ _ | .walkUnloaded _ | .vinAonOff => [.ix]
  | .twinResync _ | .pfailFlushDone | .drainComplete | .guardedValueWrite _ _ | .maskedWrite _ _ | .conWrm _ _ _ | .conIrd _ _ _ | .conGet _
  | .conEcho _ | .conMode _ => [.ix, .streams, .dram, .wmem]
  | .migrationEpoch | .demotionComplete _ _ | .waySliceStart | .bistRun _ _ | .pinEnable _ | .pinDisable _ => [.wmem]
  | .trainingTimeout _ | .laneSignalLoss _ _ | .laneSerWindow _ | .portReset _ | .portEnable _ _ | .txPllLockLoss _ => [.streams]
  | .retentionSettle | .sleepWake | .watchdogExpiry | .corePllLockLoss | .coreSupplyLoss => [.streams, .accts, .wmem]
  | .trainStart _ _ _ | .trainEnd _ _ | .trainingComplete _ _ | .sweepDone _ _ => [.ix, .dram]
  | .bankImageRestored _ | .gateRampStage _ | .resetNRelease | .answerSent => [.ix, .streams, .mans, .accts, .dram, .wmem]
  | .dataFlit _ _ | .idleFlit _ _ | .trainFlit _ _ _ _ _ => [.ix, .streams]
  | .rowactWindowBoundary _ | .queueReset _ => [.accts]
  | .backgroundGrant _ _ => [.accts, .dram, .wmem]
  | .periodBoundary => [.mans, .accts, .wmem]
  | .pfail _ => [.streams, .wmem]
  | .rowDisplaced _ _ => [.dram]
  | .sleepParkDone => [.ix, .streams, .accts, .wmem]
  | .wakeWindowEnd => [.streams, .accts]
  | .manifestOpen _ _ => [.mans]
  | .manifestModify _ _ => [.mans, .wmem]
  | .manifestClose _ _ => [.mans, .accts]
  | .manifestClosed _ => [.ix, .mans, .accts]
  | .walkLoad _ => [.ix, .wmem]
  | .time _ _ _ | .conMessage _ _ | .alertHoldExpiry _ | .refreshDue _ _ | .mr4Poll _ _ _ | .rankPowerDown _ _ | .pageTimeout _ _ | .spareRewrite _ _
  | .scrubRead _ _ _ | .proofPauseDue _ | .proofPauseStart _ | .pauseHoldbackExpiry _ | .tollGateRefill | .horizonHoldExpiry | .promotionComplete _ _
  | .stageImageLoaded _ _ | .walkHoldExpiry _ _ | .walkReadRetry _ | .queuePoolReady | .nakTimeout _ | .ackTimeout _ | .detectLock _ _ _
  | .equaliseDone _ _ | .retrain _ | .upgrade _ | .tunnelEnable _ _ | .poisonFillDone _ | .mapLoad | .loadTimingProfile _ | .trainingStepTimeout _
  | .manualTrainingTimeout _ | .sweepStart _ _ | .ledgerWindowEnd | .ledgerActionPoint | .holdApply _ | .pfailRelease | .dramSliceStart _
  | .dramPhaseEnd _ _ | .rowRestored _ | .sliceBudgetExpiry _ | .phySliceStart _ | .bistShow _ _ | .bistLog _ | .sleepDoze | .sleepBanked
  | .retentionCheck _ | .clockRun _ | .powerRetry _ | .retentionLost | .waystationClearDone | .watchdogKick | .resetWarm | .resetCold
  | .snapshotCapture | .snapshotDone | .layoutCommit | .wayCarveWrite _ | .queuePoolInit _ | .walkUnload _ | .markCommand _ _ _ | .probeArm
  | .guardTimeout | .clearOnRead _ | .indDataRead _ | .aonWriteEffect | .uartByte _ _ | .uartBreak | .unknownVerb | .conId | .conHelp _ | .conRd _ _
  | .conShow _ | .ledgerShow _ | .conLog _ | .conLogClear | .eventSend | .thermSample _ | .xtalQualified | .xtalLoss | .channelPllLockLoss _
  | .tapInstruction _ | .wakePortStopCondition | .alignedMillisecondEnd _ | .aonRegulatorSettled => []

/-- A command after which DTIME may read less than before it: one that can end a wake from BANKED or a start of the core, where DTIME is restored or begins again (02 R52, 17 R494). -/
def mayStart : Instr → Bool
  | .bankImageRestored _ | .gateRampStage _ | .resetNRelease | .answerSent => true
  | _ => false

end Sys2Proof
end

