-- ==== Sys2Proof/WellFormed.lean ====
section
/-! DEFINITION. Which commands are well formed: a request's body has the length that its opcode fixes (04 R109, R113), and an operand that names a unit, a word or a character lies in the range the spec gives it. -/

namespace Sys2Proof

/-- The number of slots after slot 0 that a request carries (04 R109); none where the header fixes no length (04 R113). -/
def bodySlots (o : Opc) (h : Hdr) : Option Nat :=
  match o with
  | .rd | .deq | .sync => some 0
  | .wr => some 8
  | .wrp => some 9
  | .add => some 1
  | .enq =>
    let b := h.arg.toNat / 2 ^ 17 % 2 ^ 14
    if b = 0 ∨ 9216 < b then none else some (8 * ((b + 127) / 128))
  | .walk => some (1 + h.arg.toNat / 2 ^ 12 % 2 ^ 6)

/-- A request body has the length its header fixes. -/
def bodyOk (o : Opc) (h : Hdr) (body : List Slot) : Bool := bodySlots o h == some body.length

/-- A command is well formed. -/
def Instr.wf : Instr → Bool
  | .wr _ h b _ => bodyOk .wr h b
  | .wrp _ h b _ => bodyOk .wrp h b
  | .add _ h b _ => bodyOk .add h b
  | .enq _ h b _ => bodyOk .enq h b
  | .walk _ h b _ => bodyOk .walk h b
  | .queueReset q => q < 131072
  | .manifestOpen m _ => m < 256
  | .manifestModify m _ => m < 256
  | .manifestClose m _ => m < 256
  | .manifestClosed m => m < 256
  | .walkDefine d _ _ _ _ _ _ _ => d < 4096
  | .walkStage d st _ _ _ _ _ => d < 4096 && st < 8
  | .walkLoad d => d < 4096
  | .walkUnload d => d < 4096
  | .walkUnloaded d => d < 4096
  | .guardedValueWrite a _ => a < 0x1000000 && a % 4 == 0
  | .guardedComplementWrite a _ => a < 0x1000000 && a % 4 == 0
  | .maskedWrite a _ => a < 0x1000000 && a % 4 == 0
  | .registerWrite a _ => a < 0x1000000 && a % 4 == 0
  | .clearOnRead a => a < 0x1000000 && a % 4 == 0
  | .conRd a n => a < 0x1000000 && a % 4 == 0 && 1 ≤ n && n ≤ 32
  | .conIwr _ _ vs => 1 ≤ vs.length && vs.length ≤ 16
  | .conIrd _ _ n => 1 ≤ n && n ≤ 32
  | .conLog n => 1 ≤ n && n ≤ 64
  | .bistLog n => 1 ≤ n && n ≤ 64
  | _ => true

end Sys2Proof
end

