-- ==== Sys2Proof/Certificates/Slice0/Obligations.lean ====
section
/-! DEFINITION. The statements for the provers: what the commands of the EW1672 do, what every step keeps, and what a command leaves as it was. -/

section
open Sys2Proof Sys2Proof.Machine

/-- A step runs the command at the front of the queue (00_scope.md). -/
def Obligations.StepFront : Prop :=
  ∀ (c : Instr) (s : State), step { s with pending := c :: s.pending } = exec c s

/-- The flit layer's timers: a NAK sent again, a replay from the oldest flit, and a training that runs out (03_host_ports.md R79, 03_host_ports.md R81, 03_host_ports.md R92). Where it rests on the model's own reading or choice, log entries 1, 107, 111 and 122 say so. -/
def Obligations.PortTimersFire : Prop :=
  (∀ (p : Fin 4) (s : State), portSt s p = PORT_ACTIVE → flushOn s = false → (s.port p).nak = true →
    ∃ t, exec (.nakTimeout p) s = .next t
      ∧ t.d8 = firstCycle8 s ((s.port p).nakAt8 + 10 * max 64 (fget s (HP p) HP_LTMR_NAK_TMO))
      ∧ (t.port p).nak = true ∧ (t.port p).nakDue = false ∧ (t.port p).nakAt8 = t.d8 ∧ (t.port p).expect = (s.port p).expect ∧ portSt t p = PORT_ACTIVE
      ∧ (∃ f ∈ (t.port p).out, f.ackk = 2 ∧ f.ackseq = (s.port p).expect - 1)
      ∧ fget t (HP p) HP_NAK_TX_COUNT = min (fget s (HP p) HP_NAK_TX_COUNT + 1) (2 ^ 32 - 1)
      ∧ (∀ q, q ≠ p → t.port q = s.port q)
      ∧ t.dram = s.dram ∧ t.wmem = s.wmem ∧ t.streams = s.streams) ∧
  (∀ (p : Fin 4) (s : State), portSt s p = PORT_ACTIVE → flushOn s = false → (s.port p).replay ≠ [] → (s.port p).retries < max 1 (fget s (HP p) HP_LTMR_RPL_MAX) →
    ∃ t, exec (.ackTimeout p) s = .next t
      ∧ t.d8 = firstCycle8 s ((s.port p).ackAt8 + 10 * max 256 (fget s (HP p) HP_LTMR_ACK_TMO))
      ∧ (t.port p).replay = (s.port p).replay ∧ (t.port p).resentFrom = some (oldestSeq (s.port p))
      ∧ (t.port p).retries = (s.port p).retries + 1 ∧ (t.port p).ackAt8 = t.d8 ∧ portSt t p = PORT_ACTIVE
      ∧ (∀ x ∈ (s.port p).replay, (x.fseq - oldestSeq (s.port p)).toNat < 512 → ∃ f ∈ (t.port p).out, f.fseq = x.fseq ∧ f.rply = true)
      ∧ fget t (HP p) HP_RPL_TMO_COUNT = min (fget s (HP p) HP_RPL_TMO_COUNT + 1) (2 ^ 32 - 1)
      ∧ t.dram = s.dram ∧ t.wmem = s.wmem ∧ t.streams = s.streams) ∧
  (∀ (p : Fin 4) (s : State), portSt s p = PORT_ACTIVE → flushOn s = false → (s.port p).replay ≠ [] → max 1 (fget s (HP p) HP_LTMR_RPL_MAX) ≤ (s.port p).retries →
    ∃ t, exec (.ackTimeout p) s = .next t
      ∧ t.d8 = firstCycle8 s ((s.port p).ackAt8 + 10 * max 256 (fget s (HP p) HP_LTMR_ACK_TMO))
      ∧ portSt t p = PORT_RETRAIN ∧ (t.port p).lossless = true ∧ (t.port p).replay = (s.port p).replay ∧ (t.port p).retries = (s.port p).retries
      ∧ fget t (HP p) HP_RPL_TMO_COUNT = fget s (HP p) HP_RPL_TMO_COUNT
      ∧ t.dram = s.dram ∧ t.wmem = s.wmem ∧ t.streams = s.streams) ∧
  (∀ (p : Fin 4) (s : State), portSt s p = PORT_DETECT ∨ portSt s p = PORT_EQUALISE ∨ portSt s p = PORT_ALIGN ∨ portSt s p = PORT_INIT →
    ∃ t, exec (.trainingTimeout p) s = .next t
      ∧ fget t (HP p) HP_STATUS_TRN_FAIL = min (fget s (HP p) HP_STATUS_TRN_FAIL + 1) 3
      ∧ (fget s (HP p) HP_STATUS_TRN_FAIL + 1 < max 1 (fget s (HP p) HP_CTL_TRN_TRIES) → portSt t p = PORT_DETECT)
      ∧ (max 1 (fget s (HP p) HP_CTL_TRN_TRIES) ≤ fget s (HP p) HP_STATUS_TRN_FAIL + 1 →
          portSt t p = PORT_DOWN ∧ fget t (HP p) HP_STATUS_TRN_TMO = 1)
      ∧ t.dram = s.dram ∧ t.wmem = s.wmem ∧ t.streams = s.streams) ∧
  (∀ (p : Fin 4) (s : State), portSt s p = PORT_RETRAIN →
    ∃ t, exec (.trainingTimeout p) s = .next t
      ∧ portSt t p = (if fbit s (HP p) HP_CTL_EN then PORT_DETECT else PORT_DOWN)
      ∧ (t.port p).replay = [] ∧ (t.port p).rab = [] ∧ t.dram = s.dram ∧ t.wmem = s.wmem)

/-- What the writes of a port's registers do: reset, RETRAIN, UPGRADE, EN and TUN_EN (03_host_ports.md R98, 03_host_ports.md R102, 03_host_ports.md R103, 03_host_ports.md R104). Where it rests on the model's own reading or choice, log entries 15 and 108 say so. -/
def Obligations.PortCommandsAct : Prop :=
  ∀ (p : Fin 4) (s : State), blockOn s (HP p) = true →
    (∃ t, exec (.portReset p) s = .next t
      ∧ portSt t p = (if fbit s (HP p) HP_CTL_EN then PORT_DETECT else PORT_DOWN)
      ∧ (t.port p).replay = [] ∧ (t.port p).rab = [] ∧ (t.port p).part = [] ∧ (t.port p).expect = 0 ∧ (t.port p).nextFseq = 0
      ∧ (t.port p).crX = {} ∧ (t.port p).crT = {} ∧ (t.port p).crC = {}
      ∧ (t.port p).intake = (s.port p).intake.map (fun r => { r with void := true })
      ∧ t.dram = s.dram ∧ t.wmem = s.wmem) ∧
    (portSt s p = PORT_ACTIVE → ∃ t, exec (.retrain p) s = .next t
      ∧ portSt t p = PORT_RETRAIN ∧ (t.port p).lossless = true ∧ (t.port p).upgrade = false
      ∧ (t.port p).replay = (s.port p).replay ∧ (t.port p).expect = (s.port p).expect
      ∧ t.dram = s.dram ∧ t.wmem = s.wmem ∧ t.streams = s.streams) ∧
    (portSt s p = PORT_ACTIVE → ∃ t, exec (.upgrade p) s = .next t
      ∧ portSt t p = PORT_RETRAIN ∧ (t.port p).lossless = true ∧ (t.port p).upgrade = true
      ∧ (t.port p).replay = (s.port p).replay ∧ (t.port p).expect = (s.port p).expect
      ∧ t.dram = s.dram ∧ t.wmem = s.wmem ∧ t.streams = s.streams) ∧
    (fbit s (HP p) HP_CTL_EN = false → portSt s p = PORT_DOWN → ∃ t, exec (.portEnable p true) s = .next t
      ∧ fbit t (HP p) HP_CTL_EN = true ∧ portSt t p = PORT_DETECT ∧ t.dram = s.dram ∧ t.wmem = s.wmem) ∧
    (fbit s (HP p) HP_CTL_EN = true → ∃ t, exec (.portEnable p false) s = .next t
      ∧ fbit t (HP p) HP_CTL_EN = false ∧ portSt t p = PORT_DOWN ∧ (t.port p).replay = [] ∧ t.dram = s.dram ∧ t.wmem = s.wmem) ∧
    ((∀ q, q ≠ p → fbit s (HP q) HP_CTL_TUN_EN = false) → ∃ t, exec (.tunnelEnable p true) s = .next t
      ∧ fbit t (HP p) HP_CTL_TUN_EN = true ∧ t.ports = s.ports ∧ t.dram = s.dram ∧ t.wmem = s.wmem) ∧
    ((∃ q, q ≠ p ∧ fbit s (HP q) HP_CTL_TUN_EN = true) → ∃ t, exec (.tunnelEnable p true) s = .next t
      ∧ fbit t (HP p) HP_STATUS_TUN_REJ = true ∧ rg t (HP p) = rg s (HP p) ∧ t.ports = s.ports ∧ t.dram = s.dram ∧ t.wmem = s.wmem) ∧
    (∃ t, exec (.tunnelEnable p false) s = .next t
      ∧ fbit t (HP p) HP_CTL_TUN_EN = false ∧ t.ports = s.ports ∧ t.dram = s.dram ∧ t.wmem = s.wmem)

/-- Lanes that fail and a transmit PLL that loses lock (03_host_ports.md R95, 03_host_ports.md R96, 03_host_ports.md R98, 02_request_journey.md R64). Where it rests on the model's own reading or choice, log entries 1, 106, 111 and 122 say so. -/
def Obligations.LaneFaultsHandled : Prop :=
  (∀ (p : Fin 4) (lane : Fin 16) (s : State), portSt s p = PORT_ACTIVE → bitOf (groupMask s p) lane = true → fbit s (HP p) HP_CTL_DEGRADE_EN = true →
    ∃ t, exec (.laneSignalLoss p lane) s = .next t ∧ portSt t p = PORT_RETRAIN ∧ (t.port p).lossless = true
      ∧ (t.port p).newFail = BitVec.ofNat 16 (2 ^ lane.val) ∧ (t.port p).replay = (s.port p).replay ∧ t.d8 = firstCycle8 s (s.d8 + 640)
      ∧ t.dram = s.dram ∧ t.wmem = s.wmem ∧ t.streams = s.streams) ∧
  (∀ (p : Fin 4) (lane : Fin 16) (s : State), portSt s p = PORT_ACTIVE → bitOf (groupMask s p) lane = true → fbit s (HP p) HP_CTL_DEGRADE_EN = false →
    ∃ t, exec (.laneSignalLoss p lane) s = .next t
      ∧ portSt t p = (if fbit s (HP p) HP_CTL_EN then PORT_DETECT else PORT_DOWN) ∧ (t.port p).replay = [] ∧ t.dram = s.dram ∧ t.wmem = s.wmem) ∧
  (∀ (p : Fin 4) (lane : Fin 16) (s : State), portSt s p = PORT_ACTIVE → fbit s (HP p) HP_CTL_DEGRADE_EN = true →
    ((List.finRange 16).filter fun l => decide (fget s (HP p) HP_LANECFG_SER_TH < (s.port p).ser[l])) = [lane] → bitOf (groupMask s p) lane = true →
    ∃ t, exec (.laneSerWindow p) s = .next t ∧ (t.port p).ser = Vector.replicate 16 0 ∧ portSt t p = PORT_RETRAIN ∧ (t.port p).lossless = true
      ∧ (t.port p).replay = (s.port p).replay ∧ t.dram = s.dram ∧ t.wmem = s.wmem ∧ t.streams = s.streams) ∧
  (∀ (p : Fin 4) (s : State), ((List.finRange 16).filter fun l => decide (fget s (HP p) HP_LANECFG_SER_TH < (s.port p).ser[l])) = [] →
    exec (.laneSerWindow p) s = .next (updPort p (fun ps => { ps with ser := Vector.replicate 16 0 }) s)) ∧
  (∀ (p : Fin 4) (s : State), bitOf (fget s GLB GLB_CLKSTAT_LINK_LOCK) p = true →
    ∃ t, exec (.txPllLockLoss p) s = .next t ∧ fbit t GLB GLB_CLKSTAT_LOCK_LOSS = true
      ∧ portSt t p = (if fbit s (HP p) HP_CTL_EN then PORT_DETECT else PORT_DOWN) ∧ (t.port p).replay = [] ∧ (t.port p).rab = []
      ∧ t.dram = s.dram ∧ t.wmem = s.wmem)

/-- Training of a host port: DETECT, EQUALISE, ALIGN, INIT and ACTIVE (03_host_ports.md R67, 03_host_ports.md R90, 03_host_ports.md R91, 03_host_ports.md R93, 03_host_ports.md R99). Where it rests on the model's own reading or choice, log entries 18, 106, 111 and 112 say so. -/
def Obligations.LinkTrainingAdvances : Prop :=
  (∀ (p : Fin 4) (good inv : BitVec 16) (s : State), portSt s p = PORT_DETECT → (bestGroup good.toNat 0 16 (s.port p).widthTry).isSome →
    ∃ t, exec (.detectLock p good inv) s = .next t ∧ portSt t p = PORT_EQUALISE ∧ (t.port p).trnGood = good
      ∧ fget t (HP p) HP_LANES_INV = inv.toNat ∧ t.d8 = firstCycle8 s ((s.port p).stAt8 + 163840) ∧ t.dram = s.dram) ∧
  (∀ (p : Fin 4) (good : BitVec 16) (g w : Nat) (s : State), portSt s p = PORT_EQUALISE →
    bestGroup ((s.port p).trnGood &&& good).toNat 0 16 (s.port p).widthTry = some (g, w) →
    ∃ t, exec (.equaliseDone p good) s = .next t ∧ portSt t p = PORT_ALIGN ∧ fget t (HP p) HP_STATUS_WIDTH = w ∧ (t.port p).group = g
      ∧ t.d8 = firstCycle8 s ((s.port p).stAt8 + 20000000) ∧ t.dram = s.dram) ∧
  (∀ (p : Fin 4) (f : Flit) (lock pass : BitVec 16) (rev : Bool) (s : State), portSt s p = PORT_ALIGN ∨ portSt s p = PORT_INIT ∨ portSt s p = PORT_RETRAIN →
    trainOkFlit s p f = false ∨ recBad s p (recOf f) = true →
    ∃ t, exec (.trainFlit p f lock pass rev) s = .next t ∧ portSt t p = portSt s p ∧ (t.port p).initSeen = 0
      ∧ fget t (HP p) HP_CRC_ERR_COUNT = min (fget s (HP p) HP_CRC_ERR_COUNT + 1) (2 ^ 32 - 1) ∧ t.dram = s.dram) ∧
  (∀ (p : Fin 4) (f : Flit) (lock pass : BitVec 16) (rev : Bool) (g w : Nat) (s : State), portSt s p = PORT_ALIGN → trainOkFlit s p f = true → recBad s p (recOf f) = false → (recOf f).tstate = 3 →
    bestGroup (Nat.land (Nat.land (s.port p).trnGood.toNat lock.toNat) (0xFFFF - (if (recOf f).twidth.toNat = fget s (HP p) HP_STATUS_WIDTH then peerBad s p (recOf f) else 0)))
      0 16 (min (s.port p).widthTry (recOf f).twidth.toNat) = some (g, w) →
    (recOf f).twidth.toNat = w → groupGood (recOf f).lgood.toNat 0 (lanesOf w) = true →
    ∃ t, exec (.trainFlit p f lock pass rev) s = .next t ∧ portSt t p = PORT_INIT ∧ fget t (HP p) HP_STATUS_WIDTH = w ∧ (t.port p).group = g
      ∧ (t.port p).initSeen = 0 ∧ fbit t (HP p) HP_STATUS_REV_RX = rev ∧ t.dram = s.dram) ∧
  (∀ (p : Fin 4) (f : Flit) (lock pass : BitVec 16) (rev : Bool) (s : State), portSt s p = PORT_INIT → trainOkFlit s p f = true → recBad s p (recOf f) = false → (recOf f).tstate = 4 →
    recAgrees s p (recOf f) = true → 7 ≤ (s.port p).initSeen → 8 ≤ (s.port p).initSent → (s.port p).lossless = false → flushOn s = false →
    ∃ t, exec (.trainFlit p f lock pass rev) s = .next t ∧ portSt t p = PORT_ACTIVE
      ∧ fget t (HP p) HP_STATUS_EPOCH = (fget s (HP p) HP_STATUS_EPOCH + 1) % 8
      ∧ fget t (HP p) HP_CRED_PEER_ADVX = (recOf f).advx.toNat ∧ t.dram = s.dram) ∧
  (∀ (p : Fin 4) (f : Flit) (lock pass : BitVec 16) (rev : Bool) (s : State), portSt s p = PORT_RETRAIN → trainOkFlit s p f = true → recBad s p (recOf f) = false → (s.port p).rtPhase = .test → (recOf f).tstate = 3 ∨ (recOf f).tstate = 6 →
    (s.port p).newFail = 0 → (s.port p).upgrade = false → Nat.land (groupMask s p) (0xFFFF - pass.toNat) = 0 →
    ∃ t, exec (.trainFlit p f lock pass rev) s = .next t ∧ portSt t p = PORT_RETRAIN ∧ (t.port p).rtPhase = .align ∧ (t.port p).trnGood = pass
      ∧ (t.port p).replay = (s.port p).replay ∧ fget t (HP p) HP_STATUS_WIDTH = fget s (HP p) HP_STATUS_WIDTH ∧ t.dram = s.dram) ∧
  (∀ (p : Fin 4) (f : Flit) (lock pass : BitVec 16) (rev : Bool) (s : State), portSt s p = PORT_RETRAIN → trainOkFlit s p f = true → recBad s p (recOf f) = false → (s.port p).rtPhase = .init → (recOf f).tstate = 4 →
    recAgrees s p (recOf f) = true → 7 ≤ (s.port p).initSeen → 8 ≤ (s.port p).initSent → (s.port p).lossless = true → (recOf f).nextrx = oldestSeq (s.port p) → flushOn s = false →
    (s.port p).toQuiet = false ∨ (s.port p).replay ≠ [] →
    ∃ t, exec (.trainFlit p f lock pass rev) s = .next t ∧ portSt t p = PORT_ACTIVE ∧ fget t (HP p) HP_STATUS_EPOCH = fget s (HP p) HP_STATUS_EPOCH
      ∧ (∃ l, (t.port p).replay = (s.port p).replay ++ l) ∧ (∀ x ∈ (s.port p).replay, ∃ y ∈ (t.port p).out, y.fseq = x.fseq ∧ y.rply = true)
      ∧ (t.port p).expect = (s.port p).expect ∧ t.dram = s.dram ∧ t.streams = s.streams) ∧
  (∀ (p : Fin 4) (f : Flit) (lock pass : BitVec 16) (rev : Bool) (s : State), portSt s p = PORT_ACTIVE → trainOkFlit s p f = true → recBad s p (recOf f) = false → (s.port p).trainOk = false →
    ∃ t, exec (.trainFlit p f lock pass rev) s = .next t ∧ fbit t (HP p) HP_STATUS_PROTO = true ∧ (t.port p).replay = []
      ∧ portSt t p = (if fbit s (HP p) HP_CTL_EN then PORT_DETECT else PORT_DOWN) ∧ t.dram = s.dram) ∧
  (∀ (p : Fin 4) (f : Flit) (lock pass : BitVec 16) (rev : Bool) (s : State), portSt s p = PORT_ACTIVE → trainOkFlit s p f = true → recBad s p (recOf f) = false → (s.port p).trainOk = true →
    ∃ t, exec (.trainFlit p f lock pass rev) s = .next t ∧ portSt t p = PORT_RETRAIN ∧ (t.port p).lossless = true
      ∧ (t.port p).replay = (s.port p).replay ∧ t.dram = s.dram)

/-- DATA and IDLE flits in ACTIVE, and TIME (03_host_ports.md R74, 03_host_ports.md R75, 03_host_ports.md R79, 03_host_ports.md R85, 04_transactions.md R131). Where it rests on the model's own reading or choice, log entries 16, 17, 18, 21, 106 and 111 say so. -/
def Obligations.FlitsReceived : Prop :=
  (∀ (p : Fin 4) (f : Flit) (s : State), portSt s p = PORT_ACTIVE → flushOn s = false → flitOk s p f 1 = false →
    ∃ t, exec (.dataFlit p f) s = .next t ∧ (t.port p).nak = true ∧ (t.port p).expect = (s.port p).expect ∧ (t.port p).intake = (s.port p).intake
      ∧ ((s.port p).nak = false → ∃ x ∈ (t.port p).out, x.ackk = 2 ∧ x.ackseq = (s.port p).expect - 1)
      ∧ fget t (HP p) HP_CRC_ERR_COUNT = min (fget s (HP p) HP_CRC_ERR_COUNT + 1) (2 ^ 32 - 1) ∧ portSt t p = PORT_ACTIVE ∧ t.dram = s.dram ∧ t.streams = s.streams) ∧
  (∀ (p : Fin 4) (f : Flit) (s ls : State) (a : RxAcc), portSt s p = PORT_ACTIVE → flitOk s p f 1 = true → linkFields p f (nakSeen p f (fecCount p f s)) = some ls → (f.lreq = 1 → fbit s (HP p) HP_CTL_DEGRADE_EN = true) → 
    f.fseq = (ls.port p).expect → a = (flitMsgSlots f).foldl (rxSlot f.rply) ⟨(ls.port p).part, (ls.port p).partNeed, [], [], [], 0, 0, 0, false⟩ → a.bad = false →
    (ls.port p).rxX.sent + a.xs + begunX a.part a.need ≤ 16384 + (ls.port p).rxX.released → (ls.port p).rxT.sent + a.ts ≤ 32 + (ls.port p).rxT.released →
    (ls.port p).rxC.sent + a.cs ≤ 64 + (ls.port p).rxC.released → f.padfrom.toNat = 15 ∨ a.need = 0 →
    ∃ t, exec (.dataFlit p f) s = .next t ∧ (t.port p).expect = (ls.port p).expect + 1 ∧ (t.port p).nak = false
      ∧ (t.port p).intake = (ls.port p).intake ++ a.reqs ∧ (t.port p).timeQ = (ls.port p).timeQ ++ a.times.map (fun x => (x.1, x.2, ls.d8)) ∧ (t.port p).conQ = (ls.port p).conQ ++ a.cons
      ∧ (t.port p).part = a.part ∧ (∀ q, q ≠ p → t.port q = ls.port q) ∧ t.dram = s.dram ∧ t.streams = s.streams) ∧
  (∀ (p : Fin 4) (f : Flit) (s ls : State), portSt s p = PORT_ACTIVE → flitOk s p f 1 = true → linkFields p f (nakSeen p f (fecCount p f s)) = some ls → (f.lreq = 1 → fbit s (HP p) HP_CTL_DEGRADE_EN = true) → 
    f.fseq ≠ (ls.port p).expect → ((ls.port p).expect - f.fseq).toNat ≤ 512 →
    ∃ t, exec (.dataFlit p f) s = .next t ∧ (t.port p).expect = (ls.port p).expect ∧ (t.port p).intake = (ls.port p).intake ∧ (t.port p).timeQ = (ls.port p).timeQ
      ∧ (t.port p).conQ = (ls.port p).conQ ∧ (t.port p).part = (ls.port p).part ∧ (∀ q, q ≠ p → t.port q = ls.port q) ∧ t.dram = s.dram ∧ t.streams = s.streams) ∧
  (∀ (p : Fin 4) (f : Flit) (s ls : State), portSt s p = PORT_ACTIVE → flitOk s p f 1 = true → linkFields p f (nakSeen p f (fecCount p f s)) = some ls → f.lreq ≠ 1 → f.lreq ≠ 2 →
    512 < ((ls.port p).expect - f.fseq).toNat →
    ∃ t, exec (.dataFlit p f) s = .next t ∧ (t.port p).nak = true ∧ (t.port p).expect = (ls.port p).expect ∧ (t.port p).intake = (ls.port p).intake ∧ t.dram = s.dram ∧ t.streams = s.streams) ∧
  (∀ (p : Fin 4) (f : Flit) (s : State), portSt s p = PORT_ACTIVE → flitOk s p f 1 = true → linkFields p f (nakSeen p f (fecCount p f s)) = none →
    ∃ t, exec (.dataFlit p f) s = .next t ∧ fbit t (HP p) HP_STATUS_PROTO = true ∧ portSt t p = (if fbit s (HP p) HP_CTL_EN then PORT_DETECT else PORT_DOWN)
      ∧ (t.port p).replay = [] ∧ t.dram = s.dram) ∧
  (∀ (p : Fin 4) (f : Flit) (s : State), portSt s p = PORT_ACTIVE → flitOk s p f 2 = true → f.ackk = 0 → f.lreq ≠ 1 → f.lreq ≠ 2 →
    ∃ t, exec (.idleFlit p f) s = .next t ∧ (t.port p).crX.released = creditTake 16 (s.port p).crX.released f.cumx.toNat
      ∧ (t.port p).crT.released = creditTake 8 (s.port p).crT.released f.cumt.toNat ∧ (t.port p).crC.released = creditTake 8 (s.port p).crC.released f.cumc.toNat
      ∧ (t.port p).expect = (s.port p).expect ∧ t.dram = s.dram ∧ t.streams = s.streams) ∧
  (∀ (p : Fin 4) (f : Flit) (s : State), portSt s p = PORT_ACTIVE → flitOk s p f 2 = false →
    ∃ t, exec (.idleFlit p f) s = .next t ∧ fget t (HP p) HP_CRC_ERR_COUNT = min (fget s (HP p) HP_CRC_ERR_COUNT + 1) (2 ^ 32 - 1)
      ∧ (t.port p).nak = (s.port p).nak ∧ (t.port p).crX = (s.port p).crX ∧ t.dram = s.dram) ∧
  (∀ (p : Fin 4) (f : Flit) (s : State), portSt s p ≠ PORT_ACTIVE → fecStream s p = true →
    ∃ t, exec (.dataFlit p f) s = .next t ∧ fget t (HP p) HP_CRC_ERR_COUNT = min (fget s (HP p) HP_CRC_ERR_COUNT + (if flitOk s p f 1 then 0 else 1)) (2 ^ 32 - 1)
      ∧ (t.port p).expect = (s.port p).expect ∧ (t.port p).intake = (s.port p).intake ∧ (t.port p).replay = (s.port p).replay ∧ (∀ q, q ≠ p → t.port q = s.port q) ∧ t.dram = s.dram ∧ t.streams = s.streams) ∧
  (∀ (p : Fin 4) (slot : Slot) (rply : Bool) (s : State), portSt s p = PORT_ACTIVE → slotBits slot 127 124 = 8 →
    ∃ t, exec (.time p slot rply) s = .next t ∧ (t.port p).timeQ = (s.port p).timeQ.eraseP (fun x => x.1 == slot && x.2.1 == rply)
      ∧ fget t TXN TXN_TIME_CNT_COUNT = min (fget s TXN TXN_TIME_CNT_COUNT + 1) (2 ^ 32 - 1) ∧ t.dram = s.dram ∧ t.streams = s.streams)

/-- Pins, clocks and supplies: the temperature pin, CK_SLOW, a channel PLL, the test port, the wake bus, the supplies, brown-out, retention and the regulator (02_request_journey.md R64, 14_power_states.md R408, 18_package_electrical.md R526, 18_package_electrical.md R532, 18_package_electrical.md R534, 01_acceptance_promise.md R16, 14_power_states.md R410, 14_power_states.md R419, 18_package_electrical.md R519, 18_package_electrical.md R522, 18_package_electrical.md R523). Where it rests on the model's own reading or choice, log entries 1, 10, 75 and 76 say so. -/
def Obligations.PinsClocksAndSupplies : Prop :=
  (∀ (tenths : Int) (s : State), domState s 1 = 2 →
    exec (.thermSample tenths) s = .next { s with pwr := { s.pwr with thermN :=
      if (if Config.gradeOne then 1100 else 1000) ≤ tenths then false
      else if tenths ≤ (if Config.gradeOne then 1050 else 950) then true else s.pwr.thermN } }) ∧
  (∀ (s : State), s.pwr.vinOn = true →
    (∃ t, exec .xtalQualified s = .next t ∧ t.pwr = { s.pwr with xtal := true } ∧ fbit t GLB GLB_CLKSTAT_SLOW_XTAL = true
      ∧ (∀ a, a ≠ GLB + GLB_CLKSTAT_SLOW_XTAL.off → rg t a = rg s a) ∧ sameStore s t ∧ t.d8 = s.d8) ∧
    (∃ t, exec .xtalLoss s = .next t ∧ t.pwr = { s.pwr with xtal := false } ∧ fbit t GLB GLB_CLKSTAT_SLOW_XTAL = false
      ∧ (∀ a, a ≠ GLB + GLB_CLKSTAT_SLOW_XTAL.off → rg t a = rg s a) ∧ sameStore s t ∧ t.d8 = s.d8)) ∧
  (∀ (c : Fin 16) (s : State), (fget s GLB GLB_CLKSTAT_CH_LOCK).testBit c = true →
    ∃ t, exec (.channelPllLockLoss c) s = .next t ∧ fbit t GLB GLB_CLKSTAT_LOCK_LOSS = true
      ∧ (fget t GLB GLB_CLKSTAT_CH_LOCK).testBit c = false
      ∧ (∀ k : Fin 16, k ≠ c → (fget t GLB GLB_CLKSTAT_CH_LOCK).testBit k = (fget s GLB GLB_CLKSTAT_CH_LOCK).testBit k)
      ∧ (∀ a, a ≠ GLB + GLB_CLKSTAT_CH_LOCK.off → rg t a = rg s a) ∧ sameStore s t ∧ t.chans = s.chans ∧ t.phys = s.phys) ∧
  (∀ (ir : TapIr) (s : State), exec (.tapInstruction ir) s = .next { s with pwr := { s.pwr with tapIr := ir, scan := s.pwr.scan || decide (ir ≠ .bypass ∧ ir ≠ .idcode) } }) ∧
  (∀ (s : State), s.pwr.wk = .matcher → domState s 0 = 2 →
    exec .wakePortStopCondition s = .next { s with pwr := { s.pwr with wk := .responder } }) ∧
  (∀ (s : State), s.pwr.vinOn = false →
    ∃ t, exec .powerOn s = .next t ∧ t.pwr.vinOn = true ∧ t.pwr.fresh = true ∧ t.pwr.resetN = false ∧ t.pwr.mode = .off ∧ t.pwr.wake = none
      ∧ t.pwr.retEn = false ∧ t.pwr.starter = none ∧ t.pwr.aonQ = [] ∧ (∀ a, AON ≤ a → a < AON + 0x1000 → rg t a = regReset a)
      ∧ t.dram = s.dram ∧ t.wmem = s.wmem ∧ t.streams = s.streams ∧ t.rings = s.rings) ∧
  (∀ (s : State), s.pwr.vinOn = true →
    ∃ t, exec .vinAonOff s = .next t ∧ t.pwr.vinOn = false ∧ t.pwr.mode = .off ∧ t.pwr.wake = none ∧ t.pwr.entry = none ∧ t.pwr.warm = .idle
      ∧ t.pwr.retEn = false ∧ t.pwr.starter = none ∧ t.pwr.lowPower = false ∧ t.pwr.xtal = false ∧ t.pwr.ramps = [] ∧ t.pwr.rampQ = []
      ∧ (∀ a, AON ≤ a → a < AON + 0x1000 → rg t a = regReset a)
      ∧ t.dram = s.dram ∧ t.wmem = s.wmem ∧ t.streams = s.streams ∧ t.rings = s.rings) ∧
  (∀ (s : State), s.pwr.mode = .run → s.led.pf ≠ .done →
    ∃ t, exec .coreSupplyLoss s = .next t ∧ t.pwr.mode = .off ∧ t.pwr.wake = none ∧ t.pwr.entry = none ∧ t.pwr.dozeExit = none ∧ t.pwr.warm = .idle
      ∧ t.pwr.retEn = false ∧ t.pwr.starter = none ∧ t.pwr.ramps = [] ∧ t.pwr.rampQ = [] ∧ fbit t AON AON_STARTER_VALID = false
      ∧ (∀ d, d < 23 → domState s d ≠ 3 → domState t d = 0)
      ∧ t.dram = s.dram ∧ t.wmem = s.wmem ∧ t.streams = s.streams ∧ t.rings = s.rings ∧ t.con = s.con) ∧
  (∀ (s : State), s.pwr.lowPower = true →
    ∃ t, exec .brownout s = .next t ∧ fbit t AON AON_STATUS_BROWNOUT = true ∧ t.pwr.starter = none ∧ t.pwr.aonQ = []
      ∧ (∀ a, AON ≤ a → a < AON + 0x1000 → a ≠ AON + AON_STATUS_BROWNOUT.off → rg t a = regReset a)
      ∧ t.pwr.mode = s.pwr.mode ∧ t.dram = s.dram ∧ t.wmem = s.wmem ∧ t.streams = s.streams ∧ t.rings = s.rings) ∧
  (∀ (s : State), s.pwr.retEn = true →
    ∃ t, exec .retentionLost s = .next t ∧ fbit t AON AON_STATUS_RET_LOST = true ∧ (∀ a, a ≠ AON + AON_STATUS_RET_LOST.off → rg t a = rg s a)
      ∧ t.pwr = s.pwr ∧ t.d8 = s.d8 ∧ sameStore s t) ∧
  (∀ (s : State), s.pwr.wake = some .regulator → s.pwr.ramps = [] → s.pwr.rampQ = [] → domState s 0 ≠ 3 →
    ∃ t, exec .aonRegulatorSettled s = .next t ∧ t.pwr.wake = some .ramps ∧ domState t 0 = 1 ∧ ⟨0, 1, rampFrom8 s, 0⟩ ∈ t.pwr.ramps
      ∧ t.pwr.mode = s.pwr.mode ∧ t.d8 = s.d8 ∧ sameStore s t)

/-- The gates of the power domains: a ramp's stages and its end, a trip of the core, and a retry (14_power_states.md R413, 14_power_states.md R414, 14_power_states.md R415, 14_power_states.md R416, 14_power_states.md R418). Where it rests on the model's own reading or choice, log entries 1, 22, 91, 92 and 122 say so. -/
def Obligations.GatesRampAndFault : Prop :=
  (∀ (d : Fin 23) (x : Ramp) (s : State), (s.pwr.ramps.find? fun x => x.dom = d.val) = some x → x.stage < 4 → dtimeRuns s = true →
    ∃ t, exec (.gateRampStage d) s = .next t ∧ firstCycle8 s (x.at8 + 16000) ≤ t.d8 ∧ t.d8 ≤ firstCycle8 s (x.at8 + 40000)
      ∧ t.pwr.ramps = s.pwr.ramps.map (fun y => if y.dom = d.val then { x with stage := x.stage + 1, at8 := t.d8, len8 := x.len8 + (t.d8 - x.at8) } else y)
      ∧ t.regs = s.regs ∧ sameStore s t) ∧
  (∀ (d : Fin 23) (x : Ramp) (s : State), (s.pwr.ramps.find? fun x => x.dom = d.val) = some x → 4 ≤ x.stage → s.pwr.mode = .run → s.pwr.rampQ = [] →
    ∃ t, exec (.gateRampStage d) s = .next t ∧ firstCycle8 s (x.at8 + 16000) ≤ t.d8 ∧ domState t d = 2
      ∧ fget t PWR (PWR_DOMSTAT_RAMP_US.nth d) = min ((x.len8 + (t.d8 - x.at8)) / 8000) 255
      ∧ t.pwr.ramps = s.pwr.ramps.filter (fun y => y.dom ≠ d.val) ∧ sameStore s t) ∧
  (∀ (d : Fin 23) (x : GatePick) (u s : State), x.cause = .trip → s = actAll x.errs u → d.val < 3 → domState s d = 2 →
    ∃ t, exec (.gateFault d x) u = .next t ∧ t.pwr.mode = .faultOff ∧ t.pwr.starter = none ∧ t.pwr.retEn = false ∧ t.pwr.ramps = [] ∧ t.pwr.rampQ = []
      ∧ domState t d = 3 ∧ fget t PWR (PWR_DOMSTAT_CAUSE.nth d) = 3
      ∧ fget t PWR (PWR_DOMSTAT_TRIPS.nth d) = min (fget s PWR (PWR_DOMSTAT_TRIPS.nth d) + 1) 65535
      ∧ bitOf (fget t PWR PWR_GATE_FAULT_FAULT) d = true ∧ fbit t AON AON_STATUS_GATE_FAULT = true ∧ fbit t GLB GLB_IRQ_STAT_GATE = true
      ∧ (∀ e, e < 23 → e ≠ d.val → domState s e ≠ 3 → domState t e = 0) ∧ t.d8 = s.d8 ∧ sameStore s t) ∧
  (∀ (d : Nat) (s : State), verbReady s = true → 3 ≤ d → d < 23 → domState s d = 3 → bitOf (fget s PWR PWR_GATE_FAULT_FAULT) d = true → s.pwr.ramps = [] → s.pwr.rampQ = [] →
    ∃ t, exec (.powerRetry d) s = .next t ∧ t.con.ans = [okLn []] ∧ domState t d = 1 ∧ t.pwr.ramps = [⟨d, 1, rampFrom8 s, 0⟩] ∧ t.pwr.rampQ = []
      ∧ bitOf (fget t PWR PWR_GATE_FAULT_FAULT) d = false ∧ t.pwr.mode = s.pwr.mode ∧ t.d8 = s.d8 ∧ sameStore s t) ∧
  (∀ (d : Nat) (s : State), verbReady s = true → d < 3 →
    ∃ t, exec (.powerRetry d) s = .next t ∧ t.con.ans = [erLn 493 "retry refused" [("dom", .s (domName d)), ("reason", .s "core")]] ∧ t.pwr = s.pwr ∧ sameStore s t)

/-- The way back from BANKED: the restored bank image, `sleep resume` and `clock run` (14_power_states.md R398, 14_power_states.md R410, 14_power_states.md R411, 14_power_states.md R412, 17_bringup_reset.md R500). Where it rests on the model's own reading or choice, log entries 80, 86, 88, 91, 96, 122, 123, 125 and 139 say so. -/
def Obligations.ResumeFromBanked : Prop :=
  (∀ (s : State), s.pwr.wake = some .image → s.pwr.ramps = [] → s.pwr.rampQ = [] → s.pwr.warmAfter = none →
    ∃ t, exec (.bankImageRestored true) s = .next t ∧ t.pwr.mode = .run ∧ t.pwr.wake = some .awaiting ∧ t.pwr.fresh = false
      ∧ fget t PWR PWR_STATE_SUB = 4 ∧ t.d8 = s.d8 ∧ sameStore s t) ∧
  (∀ (c : RstCause) (s : State), s.pwr.wake = some .image → s.pwr.ramps = [] → s.pwr.rampQ = [] → s.pwr.warmAfter = some c → s.con.evq.length < 64 →
    ∃ t, exec (.bankImageRestored true) s = .next t ∧ t.pwr.mode = .run ∧ t.pwr.wake = none ∧ t.pwr.warmAfter = none
      ∧ fget t GLB GLB_RESET_CAUSE_CAUSE = c.code ∧ fbit t GLB GLB_RESET_CAUSE_KIND = true
      ∧ (s.ns, ⟨"wake", [("cause", .s (wakeWord s.pwr.cause)), ("start", word2 (aonStart s = 5) "power_return" "banked")]⟩) ∈ t.con.evq) ∧
  (∀ (s : State), s.pwr.wake = some .image → s.pwr.ramps = [] → s.pwr.rampQ = [] →
    ∃ t, exec (.bankImageRestored false) s = .next t ∧ coldWas t 2 ∧ fget t AON AON_STATUS_START = 3) ∧
  (∀ (s : State), verbReady s = true → s.pwr.wake = some .awaiting → s.pwr.pll = true → aonStart s = 4 → membersWait s → settled s →
    ∃ t, exec .sleepResume s = .next t ∧ t.pwr.wake = some .resuming ∧ t.con.ans = []
      ∧ (∀ c : Fin 16, chState s c = 4 → (t.phy c).relock = true)
      ∧ (∀ p : Fin 4, fbit s (HP p) HP_CTL_EN = true → domState s (19 + p) = 2 → portSt s p = PORT_DOWN → portSt t p = PORT_DETECT)
      ∧ t.d8 = s.d8 ∧ t.dram = s.dram) ∧
  (∀ (s : State), verbReady s = true → s.pwr.wake ≠ some .awaiting → settled s →
    ∃ t, exec .sleepResume s = .next t ∧ t.con.ans = [er491 s] ∧ t.pwr = s.pwr ∧ sameStore s t) ∧
  (∀ (s : State), verbReady s = true → s.pwr.pll = false →
    ∃ t, exec (.clockRun true) s = .next t ∧ t.pwr.pll = true ∧ t.con.ans = [okLn [("core", .s "pll")]]
      ∧ fbit t GLB GLB_CLKSTAT_CORE_LOCK = true ∧ fbit t GLB GLB_CLKSTAT_CORE_ON_PLL = true ∧ fbit t GLB GLB_CLKSTAT_MGT_ON_PLL = true ∧ fbit t GLB GLB_CLKSTAT_DTIME_FINE = true
      ∧ (s.pwr.warm = .noClock → t.pwr.warm = afterReset s ∧ ∀ c : Fin 16, chState s c = 4 → (t.phy c).relock = true)
      ∧ (s.pwr.warm ≠ .noClock → t.pwr.warm = s.pwr.warm ∧ t.phys = s.phys) ∧ t.d8 = s.d8 ∧ sameStore s t) ∧
  (∀ (s : State), verbReady s = true → s.pwr.pll = false →
    ∃ t, exec (.clockRun false) s = .next t ∧ t.con.ans = [erLn 492 "clock refused" [("reason", .s "nolock")]] ∧ t.pwr = s.pwr ∧ t.d8 = firstCycle8 s (s.d8 + 800000) ∧ sameStore s t) ∧
  (∀ (lock : Bool) (s : State), verbReady s = true → s.pwr.pll = true →
    ∃ t, exec (.clockRun lock) s = .next t ∧ t.con.ans = [erLn 492 "clock refused" [("reason", .s "state")]] ∧ t.pwr = s.pwr ∧ t.d8 = s.d8 ∧ sameStore s t)

/-- The power-fail flush from its start to the warm reset after it (12_energy_ledger.md R364, 12_energy_ledger.md R365, 18_package_electrical.md R521, 18_package_electrical.md R529). Where it rests on the model's own reading or choice, log entries 1, 88, 93, 94 and 122 say so. -/
def Obligations.PowerFailFlushRuns : Prop :=
  (∀ (n : Nat) (s : State), s.pwr.vinOn = true → 200 ≤ n → s.pwr.mode = .run → s.pwr.entry = none → s.led.pf = .none →
    ∃ t, exec (.pfail n) s = .next t ∧ t.pwr.pfailN = false ∧ t.pwr.halted = true ∧ t.led.pf = .flush false
      ∧ fbit t LED LED_STATUS_FLUSH = true ∧ fbit t AON AON_STATUS_FLUSH_OK = false ∧ fbit t GLB GLB_IRQ_STAT_PFAIL = true
      ∧ flushOn t = true ∧ (∀ p, portSt t p = portSt s p) ∧ t.pwr.mode = .run ∧ t.d8 = s.d8 ∧ t.dram = s.dram ∧ t.rings = s.rings) ∧
  (∀ (n : Nat) (s : State), n ≤ 50 → exec (.pfail n) s = .next s) ∧
  (∀ (s : State), s.led.pf = .flush false →
    ∃ t, exec .pfailFlushDone s = .next t ∧ t.led.pf = .done ∧ t.pwr.retEn = true ∧ fbit t LED LED_STATUS_FLUSH = false
      ∧ fbit t AON AON_STATUS_FLUSH_OK = true ∧ t.pwr.starter = some 2 ∧ t.pwr.img.isSome = true ∧ fbit t AON AON_STARTER_VALID = true ∧ t.pwr.savedD8 = t.d8 ∧ t.pwr.slowEdges = 0
      ∧ (∀ c : Fin 16, chState s c = 2 ∨ chState s c = 3 → chState t c = 4)) ∧
  (∀ (h : Bool) (s : State), s.led.pf = .flush h →
    exec .pfailRelease s = .next { s with led := { s.led with pf := .flush true }, pwr := { s.pwr with pfailN := true } }) ∧
  (∀ (s : State), s.led.pf = .done → s.pwr.pfailN = false → s.pwr.mode = .run →
    exec .pfailRelease s = .next { s with pwr := { s.pwr with pfailN := true, warmAfter := some .pfail, retEn := false, retWait := true, wakeAt8 := s.d8 } }) ∧
  (∀ (s : State), s.pwr.retWait = true → s.led.pf = .done → s.pwr.mode = .run → s.pwr.resetN = true →
    ∃ t, exec .retentionSettle s = .next t ∧ warmWas s t 7 ∧ t.led.pf = .none ∧ t.pwr.retWait = false ∧ t.pwr.warmAfter = none
      ∧ t.d8 = firstCycle8 s (s.pwr.wakeAt8 + 8000 * max 10 (fget s PWR PWR_SLEEP_RET_US))) ∧
  (∀ (s : State), s.pwr.retWait = true → s.led.pf = .none → s.pwr.wake = some .settled → s.pwr.ramps = [] → s.pwr.rampQ = [] →
    ∃ t, exec .retentionSettle s = .next t ∧ t.pwr.retWait = false ∧ domState t 2 = 1 ∧ t.pwr.ramps = [⟨2, 1, rampFrom8 s, 0⟩] ∧ t.pwr.wake = s.pwr.wake ∧ t.d8 = s.d8 ∧ sameStore s t)

/-- A completed power-fail flush, and an entry to DOZE or BANKED past its drain, leave no dirty line that a channel could take (12_energy_ledger.md R364, 14_power_states.md R401). Where it rests on the model's own reading or choice, log entries 85 and 94 say so. -/
def Obligations.FlushLeavesNothingDirty : Prop :=
  (∀ (s t : State), s.led.pf = .flush false → exec .pfailFlushDone s = .next t → allClean t) ∧
  (∀ (s t : State) (b : Bool) (t0 : Nat), s.pwr.entry = some (b, t0, .drain) → drained s = true → exec .drainComplete s = .next t → allClean t)

/-- The entry to DOZE and BANKED, step by step (14_power_states.md R396, 14_power_states.md R399, 14_power_states.md R400, 14_power_states.md R401, 14_power_states.md R404, 03_host_ports.md R94). Where it rests on the model's own reading or choice, log entries 85, 86, 90, 123 and 140 say so. -/
def Obligations.SleepEntrySteps : Prop :=
  (∀ (s : State), verbReady s = true → sleepBad s false = none →
    ∃ t, exec .sleepDoze s = .next t ∧ t.pwr.entry = some (false, s.ns, .drain) ∧ fget t PWR PWR_STATE_SUB = 1
      ∧ (∀ a, a ≠ PWR + PWR_STATE_SUB.off → rg t a = rg s a) ∧ t.con = s.con ∧ sameStore s t) ∧
  (∀ (s : State), verbReady s = true → sleepBad s true = none →
    ∃ t, exec .sleepBanked s = .next t ∧ t.pwr.entry = some (true, s.ns, .drain) ∧ fget t PWR PWR_STATE_SUB = 1
      ∧ (∀ a, a ≠ PWR + PWR_STATE_SUB.off → rg t a = rg s a) ∧ t.con = s.con ∧ sameStore s t) ∧
  (∀ (s : State) (e : OutLn), verbReady s = true → sleepBad s true = some e →
    ∃ t, exec .sleepBanked s = .next t ∧ t.con.ans = [e] ∧ t.pwr = s.pwr ∧ sameStore s t) ∧
  (∀ (s : State) (b : Bool) (t0 : Nat), s.pwr.entry = some (b, t0, .drain) → drained s = true →
    ∃ t, exec .drainComplete s = .next t ∧ t.pwr.entry = some (b, t0, .work) ∧ fget t PWR PWR_STATE_SUB = 2
      ∧ t.con.ans = [okLn [("state", .s "entering")]] ∧ t.pwr.mode = s.pwr.mode ∧ (∀ p, portSt t p = portSt s p)) ∧
  (∀ (s : State) (b : Bool) (t0 : Nat), s.pwr.entry = some (b, t0, .work) → s.pwr.mode = .run → s.pwr.wakeAfter = none →
    ∃ t, exec .sleepParkDone s = .next t ∧ t.pwr.entry ≠ s.pwr.entry
      ∧ (∀ p, portSt s p = PORT_ACTIVE → portSt t p = PORT_QUIET ∨ (portSt t p = PORT_ACTIVE ∧ (t.port p).toQuiet = true))
      ∧ (∀ p, portSt s p = PORT_RETRAIN → portSt t p = PORT_RETRAIN ∧ (t.port p).toQuiet = true)) ∧
  (∀ (s : State) (b : Bool) (t0 : Nat), s.pwr.entry = some (b, t0, .drain) → drained s = false → settled s →
    ∃ t, exec .drainTimeout s = .next t ∧ t.pwr.entry = none ∧ fget t PWR PWR_STATE_SUB = 0
      ∧ t.d8 = firstCycle8 s (8 * (t0 + 1000 * max 1 (fget s PWR PWR_SLEEP_DRAIN_US)))
      ∧ t.con.ans = [er490 "drain" [("pending", .n ((s.rings.toList.map fun r => r.entries.length).sum))]] ∧ sameStore s t) ∧
  (∀ (s : State) (t0 : Nat), s.pwr.entry = some (false, t0, .park) → s.pwr.mode = .run → portsQuiet s = true → s.pwr.wakeAfter = none →
    (∀ c, (s.phy c).active = none ∧ (s.chan c).replay = none) →
    ∃ t, exec .sleepParkDone s = .next t ∧ t.pwr.mode = .doze ∧ t.pwr.entry = none ∧ fget t PWR PWR_STATE_STATE = 1 ∧ fget t PWR PWR_STATE_SUB = 0
      ∧ (∀ c : Fin 16, chState s c = 2 ∨ chState s c = 3 → chState t c = 4) ∧ rg t (PWR + PWR_ENTRY_US.off) = BitVec.ofNat 32 ((s.ns - t0) / 1000)
      ∧ t.d8 = s.d8 ∧ t.dram = s.dram ∧ t.wmem = s.wmem ∧ t.streams = s.streams) ∧
  (∀ (s : State) (t0 : Nat), s.pwr.entry = some (true, t0, .park) → s.pwr.mode = .run → portsQuiet s = true → (∀ c, (s.phy c).active = none ∧ (s.chan c).replay = none) →
    ∃ t, exec .sleepParkDone s = .next t ∧ t.pwr.entry = some (true, t0, .window) ∧ t.pwr.starter = some 1 ∧ t.pwr.savedD8 = s.d8 ∧ t.pwr.img.isSome = true ∧ t.pwr.wk = s.pwr.wk
      ∧ (∃ e per, t.pwr.edgeAt8 = some (e, e + 3 * per) ∧ s.d8 ≤ e ∧ e < s.d8 + per ∧ 221600 ≤ per ∧ per ≤ 271200 ∧ (s.pwr.xtal = true → per = 244140))
      ∧ fbit t AON AON_STARTER_VALID = true ∧ (∀ c : Fin 16, chState s c = 2 ∨ chState s c = 3 → chState t c = 4)
      ∧ t.d8 = s.d8 ∧ t.dram = s.dram ∧ t.wmem = s.wmem ∧ t.streams = s.streams) ∧
  (∀ (s : State) (b : Bool) (t0 e e3 : Nat), Canon s → s.pwr.entry = some (b, t0, .window) → s.pwr.edgeAt8 = some (e, e3) → s.pwr.wakeN = true →
    ∃ t, exec .wakeWindowEnd s = .next t ∧ t.pwr.entry = some (b, t0, .retain) ∧ t.pwr.mode = .banked ∧ t.pwr.retEn = true ∧ t.pwr.wk = .matcher
      ∧ t.d8 = firstCycle8 s e3 ∧ t.pwr.slowEdges = max 4 (edgesSince t) ∧ t.pwr.pll = false ∧ t.pwr.wakeAfter = s.pwr.wakeAfter ∧ (∀ d, d < 23 → domState s d ≠ 3 → domState t d = 0)
      ∧ (∀ p, portSt t p = PORT_DOWN) ∧ t.dram = s.dram ∧ t.wmem = s.wmem ∧ t.rings = s.rings) ∧
  (∀ (s : State) (b inW : Bool) (t0 : Nat), s.pwr.entry = some (b, t0, .retain) → s.pwr.wakeAfter = none →
    ∃ t, exec (.retentionCheck inW) s = .next t ∧ t.pwr.entry = none ∧ t.pwr.lowPower = true ∧ t.pwr.bankEdges = t.pwr.slowEdges
      ∧ s.pwr.slowEdges ≤ t.pwr.slowEdges ∧ (inW = false → fbit t AON AON_STATUS_RET_LOST = true)
      ∧ (inW = true → t.regs = s.regs) ∧ t.d8 = s.d8 ∧ sameStore s t)

/-- What ends DOZE and BANKED (14_power_states.md R405, 14_power_states.md R406, 14_power_states.md R407, 14_power_states.md R409, 14_power_states.md R410). Where it rests on the model's own reading or choice, log entries 1, 86 and 140 say so. -/
def Obligations.WakeSourcesWake : Prop :=
  (∀ (n : Nat) (s : State), 2000 ≤ n → fbit s PWR PWR_WAKESRC_WAKEN = true → s.pwr.mode = .banked → s.pwr.entry = none → s.pwr.edgeAt8 = none → s.pwr.wake = none →
    ∃ t, exec (.wakeN n) s = .next t ∧ bankedLeft s t 2) ∧
  (∀ (n : Nat) (s : State), 2000 ≤ n → fbit s PWR PWR_WAKESRC_WAKEN = true → s.pwr.mode = .doze → s.pwr.entry = none → s.pwr.edgeAt8 = none → membersWait s →
    ∃ t, exec (.wakeN n) s = .next t ∧ dozeLeft s t 2) ∧
  (∀ (n : Nat) (s : State), n ≤ 200 → exec (.wakeN n) s = .next s) ∧
  (∀ (n e e3 : Nat) (s : State), 2000 ≤ n → fbit s PWR PWR_WAKESRC_WAKEN = true → s.pwr.edgeAt8 = some (e, e3) → e ≤ s.d8 →
    ∃ t, exec (.wakeN n) s = .next t ∧ t.pwr = { s.pwr with wakeN := decide (s.d8 + 8 * n < e3) } ∧ t.regs = s.regs ∧ sameStore s t) ∧
  (∀ (n : Nat) (b : Bool) (t0 : Nat) (s : State), 2000 ≤ n → fbit s PWR PWR_WAKESRC_WAKEN = true → s.pwr.edgeAt8 = none → s.pwr.mode = .run → s.pwr.entry = some (b, t0, .work) →
    ∃ t, exec (.wakeN n) s = .next t ∧ t.pwr.entry = none ∧ fget t PWR PWR_STATE_SUB = 0 ∧ t.con.ans = s.con.ans ∧ t.d8 = s.d8) ∧
  (∀ (rd : Bool) (n : Nat) (a : BitVec 7) (s : State), s.pwr.vinOn = true → wkOwner s ≠ .nobody → a.toNat = fget s AON AON_WAKE_ADDR → fbit s PWR PWR_WAKESRC_PORT = true →
    s.pwr.mode = .banked → s.pwr.entry = none → s.pwr.wake = none →
    ∃ t, exec (.wakePortMatch a rd n) s = .next t ∧ bankedLeft s t 3 ∧ t.pwr.wkAcks = true :: (if rd then [] else List.replicate n false) ∧ (rd = true → t.pwr.wkSent.length = n ∧ t.pwr.wkByte = n % 3)) ∧
  (∀ (rd : Bool) (n : Nat) (a : BitVec 7) (s : State), s.pwr.vinOn = true → a.toNat ≠ fget s AON AON_WAKE_ADDR ∨ wkOwner s = .nobody →
    exec (.wakePortMatch a rd n) s = .next { s with pwr := { s.pwr with wkAcks := [false] } }) ∧
  (∀ (p : Fin 4) (s : State), portSt s p = PORT_QUIET → bitOf (fget s PWR PWR_WAKESRC_LINK) p = true → s.pwr.mode = .doze → s.pwr.entry = none → membersWait s →
    ∃ t, exec (.linkWake p) s = .next t ∧ dozeLeft s t 4) ∧
  (∀ (s : State), s.pwr.mode = .banked → s.pwr.entry = none → s.pwr.wake = none → fbit s PWR PWR_WAKESRC_TIMER = true →
    ∃ t, exec .aonTimerWake s = .next t
      ∧ bankedLeft { s with pwr := { s.pwr with slowEdges := max s.pwr.slowEdges (s.pwr.bankEdges + fget s AON AON_TIMER_EDGES) } } t 5) ∧
  (∀ (s : State), verbReady s = true → s.pwr.mode = .doze → membersWait s →
    ∃ t, exec .sleepWake s = .next t ∧ dozeLeft s t 1 ∧ t.con.ans = [okLn []]) ∧
  (∀ (s : State), verbReady s = true → s.pwr.mode ≠ .doze →
    ∃ t, exec .sleepWake s = .next t ∧ t.con.ans = [er491 s] ∧ t.pwr = s.pwr ∧ sameStore s t)

/-- What starts a warm reset, and what a held one does (17_bringup_reset.md R493, 17_bringup_reset.md R499, 17_bringup_reset.md R500, 17_bringup_reset.md R501, 17_bringup_reset.md R506, 17_bringup_reset.md R507). Where it rests on the model's own reading or choice, log entries 1, 78, 80, 83 and 125 say so. -/
def Obligations.WarmResetsRun : Prop :=
  (∀ (n : Nat) (s : State), 1000 ≤ n → s.pwr.resetN = true → s.pwr.vinOn = true → s.pwr.mode = .run → s.pwr.dozeExit = none → s.pwr.entry = none → s.led.pf = .none → s.pwr.pll = true →
    ∃ t, exec (.resetN n) s = .next t ∧ warmWas s t 3 ∧ t.pwr.resetN = false ∧ t.pwr.halted = true ∧ t.pwr.warm = .held .pin ∧ t.d8 = s.d8) ∧
  (∀ (n : Nat) (s : State), n ≤ 100 → exec (.resetN n) s = .next s) ∧
  (∀ (s : State), s.pwr.resetN = false → s.pwr.mode = .run → s.pwr.warm = .held .pin → (∀ e ∈ s.streams, e.2.waiting = []) → s.caravans = [] →
    ∃ t, exec .resetNRelease s = .next t ∧ t.pwr.resetN = true ∧ t.pwr.halted = false ∧ t.pwr.warm = afterReset s
      ∧ (∀ c : Fin 16, chState s c = 4 → (t.phy c).relock = true)
      ∧ t.con.evq = (s.ns, ⟨"reset", [("kind", .s "warm"), ("cause", .s (rstWord (fget s GLB GLB_RESET_CAUSE_CAUSE))), ("start", .n (aonStart s))]⟩) :: s.con.evq
      ∧ t.d8 = s.d8 ∧ sameStore s t) ∧
  (∀ (s : State), s.pwr.resetN = true → exec .resetNRelease s = .next s) ∧
  (∀ (s : State), fbit s GLB GLB_WDOG_CTL_EN = true → s.pwr.mode = .run → s.pwr.entry = none → s.led.pf = .none → s.pwr.resetN = true → s.pwr.pll = true →
    ∃ t, exec .watchdogExpiry s = .next t ∧ warmWas s t 5 ∧ t.pwr.halted = false ∧ t.pwr.warm = afterReset t ∧ s.d8 ≤ t.d8
      ∧ s.pwr.kick8 + 7760000 * (if fget s GLB GLB_WDOG_CTL_TIMEOUT_MS = 0 then 1000 else fget s GLB GLB_WDOG_CTL_TIMEOUT_MS) ≤ t.d8) ∧
  (∀ (s : State), fbit s GLB GLB_WDOG_CTL_EN = false → exec .watchdogExpiry s = .next s) ∧
  (∀ (s : State), blockOn s GLB = true → s.guard = none → exec .watchdogKick s = .next { s with pwr := { s.pwr with kick8 := s.d8 } }) ∧
  (∀ (s : State), s.pwr.pll = true → s.pwr.mode = .run → s.pwr.entry = none → s.led.pf = .none → s.pwr.resetN = true →
    ∃ t, exec .corePllLockLoss s = .next t ∧ warmWas s t 6 ∧ t.pwr.pll = false ∧ t.pwr.warm = .noClock ∧ t.pwr.halted = false
      ∧ fbit t GLB GLB_CLKSTAT_LOCK_LOSS = true ∧ fbit t GLB GLB_CLKSTAT_CORE_LOCK = false ∧ fbit t GLB GLB_CLKSTAT_CORE_ON_PLL = false ∧ fbit t GLB GLB_CLKSTAT_DTIME_FINE = false
      ∧ (∀ c : Fin 16, (t.phy c).relock = false) ∧ t.d8 = s.d8) ∧
  (∀ (s : State), s.pwr.pll = false → exec .corePllLockLoss s = .next s)

/-- The reset verbs of the console, and the end of the Waystation's clear (15_kraog_console.md R449, 17_bringup_reset.md R494, 17_bringup_reset.md R503, 17_bringup_reset.md R504, 17_bringup_reset.md R505). Where it rests on the model's own reading or choice, log entries 22, 31 and 84 say so. -/
def Obligations.ResetVerbsAnswer : Prop :=
  (∀ (s : State), verbReady s = true → ∃ t, exec .resetWarm s = .next t ∧ t.con.ans = [okLn []] ∧ t.con.after = .warm ∧ t.pwr = s.pwr ∧ t.d8 = s.d8 ∧ sameStore s t) ∧
  (∀ (s : State), verbReady s = true → ∃ t, exec .resetCold s = .next t ∧ t.con.ans = [okLn []] ∧ t.con.after = .cold ∧ t.pwr = s.pwr ∧ t.d8 = s.d8 ∧ sameStore s t) ∧
  (∀ (p : Fin 4) (s : State), verbReady s = true → domState s (19 + p) = 2 → settled s →
    ∃ t, exec (.resetPort p) s = .next t ∧ t.con.ans = [okLn []] ∧ portSt t p = (if fbit s (HP p) HP_CTL_EN then PORT_DETECT else PORT_DOWN)
      ∧ (t.port p).replay = [] ∧ (t.port p).rab = [] ∧ (t.port p).expect = 0 ∧ (∀ q, q ≠ p → t.port q = s.port q) ∧ t.dram = s.dram ∧ t.wmem = s.wmem) ∧
  (∀ (p : Fin 4) (s : State), verbReady s = true → domState s (19 + p) ≠ 2 →
    ∃ t, exec (.resetPort p) s = .next t ∧ t.con.ans = [erLn 494 "reset refused" [("unit", .s ("port" ++ toString p.val)), ("reason", .s "state")]]
      ∧ t.ports = s.ports ∧ sameStore s t) ∧
  (∀ (x : ChPick) (c : Fin 16) (u s : State), verbReady u = true → x.ch = c → s = actAll x.errs u → inMap s c = true → replaying s = false →
    chState s c = 0 ∨ chState s c = 6 ∨ chState s c = 8 → settled s →
    ∃ t, exec (.perChannelReset x) u = .next t ∧ t.con.ans = [okLn []] ∧ (t.chan c).restoring = true ∧ (t.chan c).resync = false
      ∧ fget t (CH c) CH_ROWSTAT_LEVEL = 0 ∧ (t.chan c).intake = [] ∧ (t.chan c).line = [] ∧ t.dram = s.dram ∧ t.wmem = s.wmem) ∧
  (∀ (x : ChPick) (c : Fin 16) (u s : State), verbReady u = true → x.ch = c → s = actAll x.errs u → inMap s c = false →
    ∃ t, exec (.perChannelReset x) u = .next t ∧ t.con.ans = [erLn 494 "reset refused" [("unit", .s ("ch" ++ toString c.val)), ("reason", .s "member")]]
      ∧ t.chans = s.chans ∧ t.phys = s.phys ∧ sameStore s t) ∧
  (∀ (s : State), s.pwr.retWait = false → exec .waystationClearDone s = .next { s with way := { s.way with clearing := false } })

/-- Replay of a journal ring after a warm reset, and the end of a per-channel reset: the poison fill and the copy of the TWIN lines from the partner (01_acceptance_promise.md R21, 01_acceptance_promise.md R36, 01_acceptance_promise.md R38, 01_acceptance_promise.md R41, 17_bringup_reset.md R504). Where it rests on the model's own reading or choice, log entries 1, 22, 27, 78, 79, 125, 126 and 134 say so. -/
def Obligations.ReplayAndRestore : Prop :=
  (∀ (c : Fin 16) (errs : RplErrs) (s : State), replayReady s c = true → s.pwr.warm = .replay → (s.ring c).entries = [] → settled s →
    (∀ k, k ≠ c → (s.chan k).replayDue = false ∨ (s.chan k).lost = true) →
    ∃ t, exec (.journalReplay c errs) s = .next t ∧ (t.chan c).replayDue = false ∧ t.pwr.warm = .idle
      ∧ fget t JRN JRN_STATUS_RING_ACT = (if (fget s JRN JRN_STATUS_RING_ACT).testBit c then fget s JRN JRN_STATUS_RING_ACT - 2 ^ c.val else fget s JRN JRN_STATUS_RING_ACT)
      ∧ fbit t JRN JRN_STATUS_REPLAY_ACTIVE = decide (fget t JRN JRN_STATUS_RING_ACT ≠ 0) ∧ fbit t JRN JRN_STATUS_REPLAY_DONE = true
      ∧ fget t JRN (JRN_RPL_PEND.nth c) = 0 ∧ fget t JRN (JRN_RPL_RSLT.nth c) = 0
      ∧ (t.ring c).entries = [] ∧ t.d8 = s.d8 ∧ t.dram = s.dram ∧ t.wmem = s.wmem ∧ t.streams = s.streams) ∧
  (∀ (c : Fin 16) (errs : RplErrs) (s : State), replayReady s c = true → (s.ring c).entries = [] → settled s →
    s.pwr.warm ≠ .replay ∨ (∃ k, k ≠ c ∧ (s.chan k).replayDue = true ∧ (s.chan k).lost = false) →
    ∃ t, exec (.journalReplay c errs) s = .next t ∧ (t.chan c).replayDue = false ∧ t.pwr.warm = s.pwr.warm
      ∧ fbit t JRN JRN_STATUS_REPLAY_DONE = fbit s JRN JRN_STATUS_REPLAY_DONE
      ∧ fbit t JRN JRN_STATUS_REPLAY_ACTIVE = decide (fget t JRN JRN_STATUS_RING_ACT ≠ 0) ∧ t.d8 = s.d8 ∧ t.dram = s.dram ∧ t.wmem = s.wmem ∧ t.streams = s.streams) ∧
  (∀ (c : Fin 16) (e : JEntry) (p : Place) (reads : List ReadErrs) (s : State), replayReady s c = true → settled s → (s.ring c).entries = [e] →
    e.st = .rslt → e.opc = .wr → e.recorded = true → acceptedIn (s.strm e.port e.stream) e.seq = true ∨ e.orphan ≠ none → probeLine s (e.target.toNat / 128) = none →
    placeOf s (e.target.toNat / 128) = some p → p.twin = false → chanUp s p.ch = true →
    ∃ t, exec (.journalReplay c ⟨[], reads⟩) s = .next t ∧ dramLine t p.ch p.lam = slotsLine e.staged ∧ (t.ring c).entries = []
      ∧ fget t JRN (JRN_RPL_RSLT.nth c) = 1 ∧ fget t JRN (JRN_RPL_PEND.nth c) = 0 ∧ (t.chan c).replayDue = false
      ∧ t.d8 = s.d8 ∧ t.wmem = s.wmem ∧ t.streams = s.streams) ∧
  (∀ (c : Fin 16) (e : JEntry) (reads : List ReadErrs) (s : State), replayReady s c = true → settled s → (s.ring c).entries = [e] → e.st = .pend ∨ e.st = .rslt →
    e.orphan = none → acceptedIn (s.strm e.port e.stream) e.seq = false → (∀ p ∈ s.que.plans, p.ring = c → p.entry = (s.ring c).head % 4096) →
    ∃ t, exec (.journalReplay c ⟨[], reads⟩) s = .next t ∧ (t.ring c).entries = [] ∧ fget t JRN (JRN_RPL_RSLT.nth c) = 0 ∧ fget t JRN (JRN_RPL_PEND.nth c) = 0 ∧ (t.chan c).replayDue = false
      ∧ t.d8 = s.d8 ∧ t.dram = s.dram ∧ t.wmem = s.wmem ∧ t.streams = s.streams) ∧
  (∀ (c : Fin 16) (errs : RplErrs) (s : State), replayReady s c = false → exec (.journalReplay c errs) s = .next s) ∧
  (∀ (c : Fin 16) (s : State), (s.chan c).restoring = true → (s.phy c).trn = none → chState s c = 5 → s.pwr.mode = .run →
    twinUp s (partnerOf c) = false →
    ∃ t, exec (.poisonFillDone c) s = .next t ∧ chState t c = 3 ∧ (t.chan c).restoring = false ∧ (t.chan c).lost = false ∧ (t.chan c).resync = false
      ∧ (∀ lam, dramPsn t c lam = true) ∧ fbit t (CH c) CH_REF_RATE2X = true ∧ t.d8 = s.d8 ∧ t.dram = s.dram ∧ t.wmem = s.wmem) ∧
  (∀ (c : Fin 16) (s : State), (s.chan c).restoring = true → (s.phy c).trn = none → chState s c = 5 → s.pwr.mode = .run →
    twinUp s (partnerOf c) = true → 0 < twinE s →
    ∃ t, exec (.poisonFillDone c) s = .next t ∧ chState t c = 3 ∧ (t.chan c).restoring = false ∧ (t.chan c).lost = false ∧ (t.chan c).resync = true
      ∧ (t.chan c).psnAll = true ∧ (t.chan c).psnTwin = (s.chan c).psnTwin ∧ t.d8 = s.d8 ∧ t.dram = s.dram ∧ t.wmem = s.wmem) ∧
  (∀ (c : Fin 16) (s : State), (s.chan c).restoring = false → exec (.poisonFillDone c) s = .next s) ∧
  (∀ (c : Fin 16) (x : CopyPick) (u s : State), x.ch = c → (u.chan c).resync = true → chanRuns u c = true → twinUp u (partnerOf c) = true → twinBusy u (partnerOf c) = false → Memory.wf u.dram →
    s = resyncReads c x.reads u → (s.chan c).resync = true → twinUp s (partnerOf c) = true →
    ∃ t, exec (.twinResync x) u = .next t ∧ (t.chan c).resync = false ∧ (t.chan c).psnTwin = (s.chan (partnerOf c)).psnTwin
      ∧ (∀ lam, twinFirst s ≤ lam → lam < chLines s → dramLine t c lam = dramLine s (partnerOf c) lam)
      ∧ (∀ lam, lam < twinFirst s → dramLine t c lam = dramLine s c lam)
      ∧ (∀ k lam, k ≠ c → lam < chLines s → dramLine t k lam = dramLine s k lam) ∧ t.d8 = s.d8 ∧ t.wmem = s.wmem
      ∧ (s.con.evq.length < 64 → t.con.evq = s.con.evq ++ [(s.ns, ⟨"twin_resync", [("ch", .n c)]⟩)])) ∧
  (∀ (x : CopyPick) (s : State), (s.chan x.ch).resync = false → exec (.twinResync x) s = .next s)

/-- Ledger windows, their action points and the throttle level, and the hold-up declaration (12_energy_ledger.md R353, 12_energy_ledger.md R354, 12_energy_ledger.md R355, 12_energy_ledger.md R357, 12_energy_ledger.md R359, 12_energy_ledger.md R361, 12_energy_ledger.md R362). Where it rests on the model's own reading or choice, log entries 1, 10, 61 and 122 say so. -/
def Obligations.LedgerJudgesAndHolds : Prop :=
  (∀ (s : State), dtimeRuns s = true → 8 * (s.led.winAt + 10240) ≤ s.d8 →
    ∃ t, exec .ledgerWindowEnd s = .next t ∧ t.led.eLast = cdiv (s.led.opPj * 8 + s.led.stPj8) 8000 ∧ t.led.bLast = s.led.cap * 2560
      ∧ t.led.opPj = 0 ∧ t.led.stPj8 = 0 ∧ t.led.defPj = 0 ∧ t.led.due = true ∧ t.led.cap = max 240 (fget s LED LED_CAP_CAP)
      ∧ t.led.winAt = s.ns / 10240 * 10240 ∧ fget t LED LED_WIN_E_NJ = min t.led.eLast (2 ^ 32 - 1)
      ∧ fget t LED LED_WINMAX_E_NJ = max (fget s LED LED_WINMAX_E_NJ) (min t.led.eLast (2 ^ 32 - 1)) ∧ t.d8 = s.d8 ∧ sameStore s t) ∧
  (∀ (s : State), dtimeRuns s = true → ∃ t, exec .ledgerWindowEnd s = .next t ∧ t.d8 = firstCycle8 s (8 * (s.led.winAt + 10240)) ∧ t.led.due = true ∧ sameStore s t) ∧
  (∀ (s : State), s.led.due = true → dtimeRuns s = true → fbit s LED LED_CTL_THR_EN = true → s.led.bLast < s.led.eLast → fget s LED LED_STATUS_LEVEL < 9 →
    ∃ t, exec .ledgerActionPoint s = .next t ∧ fget t LED LED_STATUS_LEVEL = fget s LED LED_STATUS_LEVEL + 1 ∧ t.led.due = false ∧ t.led.below = 0
      ∧ t.led.allow = Vector.replicate 5 (some 0) ∧ t.d8 = firstCycle8 s (8 * (s.led.winAt + 1024)) ∧ sameStore s t) ∧
  (∀ (s : State), s.led.due = true → dtimeRuns s = true → fbit s LED LED_CTL_THR_EN = true → s.led.eLast * 16 ≤ s.led.bLast * 15 →
    max 1 (fget s LED LED_CAP_HOLD) ≤ s.led.below + 1 → fget s LED LED_STATUS_LEVEL ≠ 0 →
    ∃ t, exec .ledgerActionPoint s = .next t ∧ fget t LED LED_STATUS_LEVEL = fget s LED LED_STATUS_LEVEL - 1 ∧ t.led.due = false ∧ t.led.below = 0
      ∧ t.d8 = firstCycle8 s (8 * (s.led.winAt + 1024)) ∧ sameStore s t) ∧
  (∀ (s : State), s.led.due = true → dtimeRuns s = true → fbit s LED LED_CTL_THR_EN = true → s.led.eLast * 16 ≤ s.led.bLast * 15 →
    s.led.below + 1 < max 1 (fget s LED LED_CAP_HOLD) →
    ∃ t, exec .ledgerActionPoint s = .next t ∧ fget t LED LED_STATUS_LEVEL = fget s LED LED_STATUS_LEVEL ∧ t.led.due = false ∧ t.led.below = s.led.below + 1 ∧ sameStore s t) ∧
  (∀ (s : State), s.led.due = true → dtimeRuns s = true → fbit s LED LED_CTL_THR_EN = false → fget s LED LED_STATUS_LEVEL = 0 → fbit s LED LED_CTL_PLAN_EN = false →
    ∃ t, exec .ledgerActionPoint s = .next t ∧ t.led.allow = Vector.replicate 5 none ∧ t.led.due = false ∧ fget t LED LED_STATUS_LEVEL = 0
      ∧ fget t LED LED_HEAD_H_NJ = twos32 ((s.led.bLast : Int) - ((s.led.eLast : Int) - s.led.xLast)) ∧ sameStore s t) ∧
  (∀ (s : State), s.led.due = false → exec .ledgerActionPoint s = .next s) ∧
  (∀ (uj us : Nat) (s : State), verbReady s = true → uj < 2 ^ 24 → us < 2 ^ 16 → mapLoaded s = true → fbit s WAY WAY_STATUS_COMMITTED = true →
    (wtMax s : Int) ≤ nHold s uj us → dirtyNeed s ≤ min (nHold s uj us - wtMax s).toNat 2097152 →
    ∃ t, exec (.holdApply (some (uj, us))) s = .next t ∧ t.led.hold = some (uj, us, (nHold s uj us).toNat) ∧ fbit t LED LED_STATUS_HOLD_OK = true
      ∧ fget t LED LED_HOLD_HOLD_UJ = uj ∧ fget t LED LED_HOLD2_HOLD_US = us ∧ fget t MAN MAN_DIRTYMAX_LINES = min (nHold s uj us - wtMax s).toNat 2097152
      ∧ t.con.ans = [okLn [("n_hold", .n (nHold s uj us).toNat), ("dirtymax", .n (min (nHold s uj us - wtMax s).toNat 2097152))]]
      ∧ t.d8 = s.d8 ∧ sameStore s t) ∧
  (∀ (uj us : Nat) (s : State), verbReady s = true → uj < 2 ^ 24 → us < 2 ^ 16 → mapLoaded s = false →
    ∃ t, exec (.holdApply (some (uj, us))) s = .next t ∧ t.led.hold = s.led.hold ∧ fbit t LED LED_STATUS_HOLD_REJ = true
      ∧ t.con.ans = [erLn 470 "hold refused" [("reason", .s "nomap"), ("need", .n 0), ("have", .n 0)]] ∧ t.d8 = s.d8 ∧ sameStore s t) ∧
  (∀ (s : State), consoleOn s = true → blockOn s LED = true → mapLoaded s = false →
    ∃ t, exec (.holdApply none) s = .next t ∧ t.led.hold = s.led.hold ∧ fbit t LED LED_STATUS_HOLD_REJ = true ∧ t.con = s.con ∧ t.d8 = s.d8 ∧ sameStore s t) ∧
  (∀ (s : State), consoleOn s = false → exec (.holdApply none) s = .next s)

/-- Accounting periods, the toll gates' refill and the horizon's fall (01_acceptance_promise.md R33, 05_manifests.md R140, 05_manifests.md R144, 05_manifests.md R153, 06_arbitration.md R176, 06_arbitration.md R182, 09_dram_channels.md R287). Where it rests on the model's own reading or choice, log entries 1, 10, 52, 105 and 125 say so. -/
def Obligations.PeriodsAndGatesRun : Prop :=
  (∀ (s : State), s.pwr.mode = .run →
    ∃ t, exec .periodBoundary s = .next t ∧ t.d8 = firstCycle8 s (8 * s.perEnd) ∧ t.perEnd = (t.ns / 1024 + 1) * 1024
      ∧ (∀ m (c : Fin 16), (t.acct m c).count = 0)
      ∧ t.prof = fbit s MAN MAN_CFG_PROFILE
      ∧ (∀ c ∈ members s, (s.chan c).lost = true → fget t MAN (MAN_CHCAP_DELIV.nth c) = 0 ∧ fget t MAN (MAN_CHCAP_CAUSE.nth c) = 5)
      ∧ (s.pwr.warm ≠ .idle → t.con = s.con ∧ fbit t MAN MAN_STATUS_SHORT = fbit s MAN MAN_STATUS_SHORT)
      ∧ (∀ c ∈ members s, (t.chan c).bkScr = refill (s.chan c).bkScr (min (fget s (CH c) CH_BGSCR_RATE) (bgRate (mtsOf (s.chan c).trnRate) 1)) (fget s (CH c) CH_BGSCR_DEPTH)
        ∧ (t.chan c).bstDepth = fget s (CH c) CH_BGBST_DEPTH)
      ∧ t.dram = s.dram ∧ (s.way.pinQueue = [] → t.wmem = s.wmem) ∧ t.streams = s.streams) ∧
  (∀ (s : State), s.pwr.mode ≠ .run → exec .periodBoundary s = .next s) ∧
  (∀ (s : State), s.pwr.mode = .run →
    ∃ t, exec .tollGateRefill s = .next t ∧ t.d8 = firstCycle8 s (8 * s.tollEnd) ∧ t.tollEnd = s.tollEnd + 64 * ((t.ns - s.tollEnd) / 64 + 1)
      ∧ (∀ p : Fin 4, t.toll[p] = if tollRate s p = 0 then s.toll[p]
          else min (16 * (tollBurst s p : Int)) (s.toll[p] + ((t.ns - s.tollEnd) / 64 + 1 : Nat) * (tollRate s p : Nat))) ∧ sameStore s t) ∧
  (∀ (s : State), s.pwr.mode ≠ .run → exec .tollGateRefill s = .next s) ∧
  (∀ (s : State) (h : HorizonHold), s.horizon = some h → dtimeRuns s = true → s.pwr.mode ≠ .doze → (∃ c : Fin 16, inMap s c = true ∧ inService s c = true) → h.us < 2 ^ 16 →
    ∃ t, exec .horizonHoldExpiry s = .next t ∧ t.horizon = none ∧ fget t TXN TXN_HORIZON_HORIZON_US = h.us ∧ t.d8 = firstCycle8 s (8 * h.due) ∧ sameStore s t) ∧
  (∀ (s : State), s.horizon = none ∨ s.pwr.mode = .doze ∨ (∀ c : Fin 16, inMap s c = true → inService s c = false) → exec .horizonHoldExpiry s = .next s)

/-- The register verbs of the console: `rd`, `wr`, `wrm`, `wrg`, `ird` and `iwr` (15_kraog_console.md R445, 15_kraog_console.md R446, 16_registers.md R463, 16_registers.md R464, 16_registers.md R468). Where it rests on the model's own reading or choice, log entries 66 and 67 say so. -/
def Obligations.RegisterVerbsAnswer : Prop :=
  (∀ (s : State), verbReady s = true → blockOn s TXN = true →
    ∃ t, exec (.conRd (TXN + TXN_BACKOFF_BASE_NS.off) 1) s = .next t ∧ answered [okLn [("", .h (rg s (TXN + TXN_BACKOFF_BASE_NS.off)).toNat 8)]] s t) ∧
  (∀ (a n : Nat) (s : State), verbReady s = true → n = 0 ∨ 32 < n →
    ∃ t, exec (.conRd a n) s = .next t ∧ answered [erLn 106 "out of range" [("arg", .s "n"), ("min", .n 1), ("max", .n 32)]] s t) ∧
  (∀ (a n : Nat) (s : State), verbReady s = true → 1 ≤ n → n ≤ 32 → a % 4 ≠ 0 →
    ∃ t, exec (.conRd a n) s = .next t ∧ t.con.ans = [erLn 200 "not a register" [("addr", .a a 8)]] ∧ fbit t GLB GLB_STATUS_BAD_ADDR = true ∧ t.d8 = s.d8 ∧ sameStore s t) ∧
  (∀ (v : Nat) (s : State), verbReady s = true → blockOn s TXN = true → settled s → s.guard = none → v < 2 ^ 32 →
    ∃ t, exec (.conWr (TXN + TXN_BACKOFF_BASE_NS.off) v) s = .next t ∧ t.con.ans = [okLn []] ∧ fget t TXN TXN_BACKOFF_BASE_NS = v % 1024 ∧ t.d8 = s.d8 ∧ sameStore s t) ∧
  (∀ (a v : Nat) (s : State), verbReady s = true → settled s → 2 ^ 32 ≤ v →
    ∃ t, exec (.conWr a v) s = .next t ∧ answered [erLn 106 "out of range" [("arg", .s "value"), ("min", .n 0), ("max", .n (2 ^ 32 - 1))]] s t) ∧
  (∀ (m v : Nat) (s : State), verbReady s = true → blockOn s GLB = true → s.guard = none → m < 65536 → v < 65536 →
    ∃ t, exec (.conWrm (GLB + GLB_IRQ_EN_EN.off) m v) s = .next t ∧ t.con.ans = [okLn []]
      ∧ (∀ i, i < 16 → (fget t GLB GLB_IRQ_EN_EN).testBit i = if m.testBit i then v.testBit i else (fget s GLB GLB_IRQ_EN_EN).testBit i) ∧ t.d8 = s.d8 ∧ sameStore s t) ∧
  (∀ (v : Nat) (s : State), verbReady s = true → blockOn s LED = true → settled s → v < 2 ^ 24 →
    ∃ t, exec (.conWrg (LED + LED_HOLD_HOLD_UJ.off) v) s = .next t ∧ t.con.ans = [okLn []] ∧ fget t LED LED_HOLD_HOLD_UJ = v ∧ t.guard = none ∧ t.led.hold = s.led.hold ∧ t.d8 = s.d8 ∧ sameStore s t) ∧
  (∀ (i : Nat) (s : State), verbReady s = true → blockOn s LED = true → s.guard = none → i < 0x0E →
    ∃ t, exec (.conIrd LED i 1) s = .next t ∧ t.con.ans = [okLn [("index", .h i), ("", .h (ixGet s LED i).toNat 8)]]
      ∧ fget t LED ⟨0xFF0, 0, 24⟩ = i + 1 ∧ t.d8 = s.d8 ∧ sameStore s t) ∧
  (∀ (i v : Nat) (s : State), verbReady s = true → blockOn s LED = true → s.guard = none → settled s → i < 0x0E → v < 2 ^ 20 →
    ∃ t, exec (.conIwr LED i [v]) s = .next t ∧ t.con.ans = [okLn []] ∧ (ixGet t LED i).toNat % 2 ^ 20 = v ∧ (∀ b k, ixKey b k ≠ ixKey LED i → ixGet t b k = ixGet s b k)
      ∧ t.d8 = s.d8 ∧ t.dram = s.dram ∧ t.wmem = s.wmem) ∧
  (∀ (b i : Nat) (s : State), verbReady s = true → settled s →
    ∃ t, exec (.conIwr b i []) s = .next t ∧ answered [erLn 107 "missing argument" [("arg", .s "v1")]] s t)

/-- The console's names and views: `id`, `help`, `get`, `set`, `show` and `ledger show` (12_energy_ledger.md R360, 15_kraog_console.md R445, 15_kraog_console.md R447, 15_kraog_console.md R448). Where it rests on the model's own reading or choice, log entries 66, 67, 72 and 101 say so. -/
def Obligations.NamesAndViewsAnswer : Prop :=
  (∀ (s : State), verbReady s = true →
    ∃ t n, exec .conId s = .next t ∧ n ≤ s.ns ∧ answered [okLn [("vendor", .s "utterid"), ("device", .s "ew1672"), ("rev", .n (fget s GLB GLB_ID_REV)),
      ("grade", .n (if Config.gradeOne then 1 else 0)), ("serial", .s Config.serial), ("start", .n (aonStart s)), ("dtime", .n n)]] s t) ∧
  (∀ (h : HelpOf) (s : State), verbReady s = true → ∃ t, exec (.conHelp h) s = .next t ∧ t.con.ans ≠ [] ∧ answered t.con.ans s t) ∧
  (∀ (s : State), verbReady s = true → blockOn s TXN = true →
    ∃ t, exec (.conGet "txn.horizon_us") s = .next t ∧ answered [okLn [("", .n (fget s TXN TXN_HORIZON_HORIZON_US))]] s t) ∧
  (∀ (w : String) (s : State), verbReady s = true → resolve w = none →
    (∃ t, exec (.conGet w) s = .next t ∧ answered [erLn 300 "unknown name" [("name", .s w)]] s t) ∧
    (settled s → ∀ v, ∃ t, exec (.conSet w v) s = .next t ∧ answered [erLn 300 "unknown name" [("name", .s w)]] s t)) ∧
  (∀ (v : Nat) (s : State), verbReady s = true → blockOn s LED = true → settled s → s.guard = none → v < 2 ^ LED_CAP_CAP.width →
    ∃ t, exec (.conSet "led.cap" (.num v)) s = .next t ∧ t.con.ans = [okLn []] ∧ fget t LED LED_CAP_CAP = v ∧ fget t LED LED_CAP_HOLD = fget s LED LED_CAP_HOLD
      ∧ t.led.cap = s.led.cap ∧ t.d8 = s.d8 ∧ sameStore s t) ∧
  (∀ (s : State), verbReady s = true → blockOn s TXN = true → ∃ t, exec (.conShow .txn) s = .next t ∧ answered [okLn (viewFields .txn s)] s t) ∧
  (∀ (w : String) (s : State), verbReady s = true → ∃ t, exec (.conShow (.other w)) s = .next t ∧ answered [erLn 303 "unknown view" [("view", .s w)]] s t) ∧
  (∀ (m : Nat) (s : State), verbReady s = true → blockOn s LED = true → m < 256 → tblGet (fun _ => 0) s.led.acct m / 1000 < 2 ^ 64 →
    ∃ t, exec (.ledgerShow (some m)) s = .next t ∧ answered [okLn [("man", .n m), ("energy_nj", .n (tblGet (fun _ => 0) s.led.acct m / 1000)),
      ("window_avg_mw", .n (tblGet (fun _ => 0) s.led.lastMan m / 10240))]] s t) ∧
  (∀ (m : Nat) (s : State), verbReady s = true → blockOn s LED = true → 256 ≤ m →
    ∃ t, exec (.ledgerShow (some m)) s = .next t ∧ answered [erLn 106 "out of range" [("arg", .s "man"), ("min", .n 0), ("max", .n 255)]] s t)

/-- The console's own log and modes: `log`, `log clear`, `echo` and `mode` (15_kraog_console.md R437, 15_kraog_console.md R438, 15_kraog_console.md R445, 15_kraog_console.md R452). Where it rests on the model's own reading or choice, log entries 66 and 73 say so. -/
def Obligations.LogAndModeVerbs : Prop :=
  (∀ (n : Nat) (s : State), verbReady s = true → 1 ≤ n → n ≤ 64 →
    ∃ t, exec (.conLog n) s = .next t ∧ t.con.ans = listing ((s.con.log.reverse.take n).map logFields) ∧ t.con.log = s.con.log ∧ t.d8 = s.d8 ∧ sameStore s t) ∧
  (∀ (n : Nat) (s : State), verbReady s = true → n = 0 ∨ 64 < n →
    ∃ t, exec (.conLog n) s = .next t ∧ answered [erLn 106 "out of range" [("arg", .s "last"), ("min", .n 1), ("max", .n 64)]] s t) ∧
  (∀ (s : State), verbReady s = true → ∃ t, exec .conLogClear s = .next t ∧ t.con.log = [] ∧ t.con.logSeq = s.con.logSeq ∧ t.con.evq = s.con.evq ∧ answered [okLn []] s t) ∧
  (∀ (on : Bool) (s : State), verbReady s = true → blockOn s CON = true → strictMode s = false ∨ on = false → s.guard = none → s.con.after = .nothing →
    ∃ t, exec (.conEcho on) s = .next t ∧ t.con.ans = [okLn []] ∧ fbit t CON CON_CTL_ECHO = on ∧ fget t CON CON_CTL_MODE = fget s CON CON_CTL_MODE
      ∧ fget t CON CON_CTL_BAUD = fget s CON CON_CTL_BAUD ∧ t.d8 = s.d8 ∧ sameStore s t) ∧
  (∀ (s : State), verbReady s = true → strictMode s = true →
    ∃ t, exec (.conEcho true) s = .next t ∧ answered [erLn 304 "wrong mode" [("mode", .s "strict")]] s t) ∧
  (∀ (b : Bool) (s : State), verbReady s = true → blockOn s CON = true → s.guard = none → s.con.after = .nothing →
    ∃ t, exec (.conMode b) s = .next t ∧ t.con.ans = [okLn []] ∧ strictMode t = b ∧ fget t CON CON_CTL_ECHO = fget s CON CON_CTL_ECHO
      ∧ fget t CON CON_CTL_BAUD = fget s CON CON_CTL_BAUD ∧ t.d8 = s.d8 ∧ sameStore s t)

/-- Bytes that reach the console: on CON_RXD, as a break, and through the tunnel (15_kraog_console.md R427, 15_kraog_console.md R428, 15_kraog_console.md R432, 15_kraog_console.md R438). Where it rests on the model's own reading or choice, log entries 10 and 68 say so. -/
def Obligations.ConsoleInputAssembled : Prop :=
  (∀ (b : Byte) (s : State), consoleOn s = true → asmBusy s = false → s.con.fifo = [] → s.con.skip = false → s.con.buf.tooLong = false → s.con.buf.chars.length < 200 →
    32 ≤ b.toNat → b.toNat < 127 →
    ∃ t, exec (.uartByte b false) s = .next t ∧ t.con.buf.chars = { tun := false, byte := b } :: s.con.buf.chars ∧ t.con.line = none ∧ t.con.fifo = []
      ∧ t.con.txd = (if echoOn s then [b] else []) ∧ t.d8 = s.d8 ∧ sameRegs s t) ∧
  (∀ (s : State), consoleOn s = true → asmBusy s = false → s.con.fifo = [] → s.con.buf.tun = false → s.con.buf.uart = true → blank s.con.buf = false →
    ∃ t, exec (.uartByte 13 false) s = .next t ∧ t.con.line = some s.con.buf ∧ t.con.buf = {} ∧ t.con.afterCr = true
      ∧ t.con.txd = (if echoOn s then [13, 10] else []) ∧ t.d8 = s.d8 ∧ sameRegs s t) ∧
  (∀ (b : Byte) (f : Bool) (s : State), consoleOn s = true → 1024 ≤ fifoFill s false →
    ∃ t, exec (.uartByte b f) s = .next t ∧ fbit t CON CON_STATUS_UART_OVF = true
      ∧ fget t CON CON_UART_LOST_COUNT = min (fget s CON CON_UART_LOST_COUNT + 1) (2 ^ 32 - 1) ∧ fifoFill t false = fifoFill s false
      ∧ t.con.buf = s.con.buf ∧ t.con.line = s.con.line ∧ t.d8 = s.d8 ∧ sameStore s t) ∧
  (∀ (b : Byte) (f : Bool) (s : State), consoleOn s = true → fifoFill s false < 1024 → asmBusy s = true →
    ∃ t, exec (.uartByte b f) s = .next t ∧ t.con.fifo = s.con.fifo ++ [{ byte := b, frame := f }] ∧ t.con.buf = s.con.buf ∧ t.con.line = s.con.line ∧ t.d8 = s.d8 ∧ sameRegs s t) ∧
  (∀ (s : State), consoleOn s = true → asmBusy s = false → s.con.fifo = [] →
    ∃ t, exec .uartBreak s = .next t ∧ t.con.buf = {} ∧ t.con.skip = false ∧ t.con.line = none ∧ t.con.fifo = [] ∧ t.con.ans = [] ∧ t.d8 = s.d8 ∧ sameRegs s t) ∧
  (∀ (p : Fin 4) (m : Slot) (s : State), consoleOn s = true → asmBusy s = true → portSt s p = PORT_ACTIVE → fbit s (HP p) HP_STATUS_TUN_ACT = true →
    slotBits m 127 124 = 9 → 0 < slotBits m 123 120 → fifoFill s true + slotBits m 123 120 ≤ 1024 → (s.port p).conQ.contains m = true →
    ∃ t, exec (.conMessage p m) s = .next t ∧ t.con.fifo = s.con.fifo ++ (List.range (slotBits m 123 120)).map (fun i => { tun := true, byte := slotByte m (i + 1) })
      ∧ (t.port p).conQ = (s.port p).conQ.erase m ∧ (t.port p).rxC.released = (s.port p).rxC.released + 1 ∧ (∀ q, q ≠ p → t.port q = s.port q) ∧ t.d8 = s.d8 ∧ sameRegs s t) ∧
  (∀ (p : Fin 4) (m : Slot) (s : State), consoleOn s = true → portSt s p ≠ PORT_ACTIVE → s.con.fifo = [] →
    exec (.conMessage p m) s = .next { s with con := { s.con with txd := [] } })

/-- Lines that leave the console: errors before a verb, answers, and events (15_kraog_console.md R437, 15_kraog_console.md R439, 15_kraog_console.md R441, 15_kraog_console.md R442, 15_kraog_console.md R444, 15_kraog_console.md R449, 15_kraog_console.md R450, 15_kraog_console.md R452). Where it rests on the model's own reading or choice, log entries 66, 70, 71 and 84 say so. -/
def Obligations.ConsoleLinesSent : Prop :=
  (∀ (s : State) (e : OutLn), consoleOn s = true → s.con.ans = [] → sleepBusy s = false → badLine s = some e → ∃ t, exec .unknownVerb s = .next t ∧ answered [e] s t) ∧
  (∀ (s : State), badLine s = none → exec .unknownVerb s = .next s) ∧
  (∀ (s : State), consoleOn s = true → s.con.ans ≠ [] → s.con.after = .nothing ∨ s.con.after = .baud → s.con.fifo = [] → tunPort s = none →
    ∃ t, exec .answerSent s = .next t ∧ t.con.ans = [] ∧ t.con.line = none ∧ t.con.after = .nothing ∧ t.con.baud = fget s CON CON_CTL_BAUD
      ∧ t.con.txd = s.con.ans.flatMap (outBytes (strictMode s)) ++ (if strictMode s then [] else [62, 32]) ∧ t.d8 = s.d8 ∧ t.pwr = s.pwr ∧ sameRegs s t) ∧
  (∀ (s : State), consoleOn s = true → s.con.ans ≠ [] → s.con.after = .warm → tunPort s = none → s.pwr.mode = .run → s.pwr.dozeExit = none → s.pwr.entry = none → s.led.pf = .none →
    s.pwr.resetN = true → s.pwr.pll = true →
    ∃ t, exec .answerSent s = .next t ∧ warmWas s t 4 ∧ t.pwr.halted = false ∧ t.pwr.warm = afterReset t ∧ t.d8 = s.d8) ∧
  (∀ (s : State), consoleOn s = true → s.con.ans ≠ [] → s.con.after = .cold →
    ∃ t, exec .answerSent s = .next t ∧ coldWas t 1 ∧ fget t AON AON_STATUS_START = 6) ∧
  (∀ (s : State), s.con.ans = [] → exec .answerSent s = .next s) ∧
  (∀ (s : State) (t0 : Nat) (e : OutLn) (r : List (Nat × OutLn)), consoleOn s = true → asmBusy s = false → s.con.evq = (t0, e) :: r → s.con.evLost = 0 → e.head ≠ "reset" → tunPort s = none →
    ∃ t, exec .eventSend s = .next t ∧ t.con.evq = r ∧ t.con.logSeq = s.con.logSeq + 1
      ∧ t.con.log = (s.con.log ++ [({ seq := s.con.logSeq, time := BitVec.ofNat 32 t0, ev := e } : EvLogEnt)]).drop (s.con.log.length + 1 - 256)
      ∧ t.con.txd = (if s.con.dirtyU then [13, 10] else []) ++ outBytes (strictMode s) (evLine e)
          ++ (if s.con.dirtyU && !strictMode s then [62, 32] ++ partLine s false else [])
      ∧ t.d8 = s.d8 ∧ sameRegs s t) ∧
  (∀ (s : State), s.con.evq = [] ∨ asmBusy s = true → exec .eventSend s = .next s)

/-- The guarded write, the masked write and the clear-on-read (16_registers.md R463, 16_registers.md R464, 16_registers.md R465, 16_registers.md R466). Where it rests on the model's own reading or choice, log entries 1 and 122 say so. -/
def Obligations.GuardedAndMaskedWrites : Prop :=
  (∀ (v : Word) (s : State), blockOn s LED = true → s.guard = none →
    exec (.guardedValueWrite (LED + LED_HOLD_HOLD_UJ.off) v) s = .next { s with guard := some (LED + LED_HOLD_HOLD_UJ.off, v, s.d8) }) ∧
  (∀ (v w : Word) (a t8 : Nat) (s : State), blockOn s LED = true → s.guard = some (a, w, t8) →
    ∃ t, exec (.guardedValueWrite (LED + LED_HOLD_HOLD_UJ.off) v) s = .next t ∧ t.guard = some (LED + LED_HOLD_HOLD_UJ.off, v, s.d8)
      ∧ fbit t GLB GLB_STATUS_GUARD_FAIL = true ∧ fbit t GLB GLB_IRQ_STAT_GUARD = true ∧ fget t LED LED_HOLD_HOLD_UJ = fget s LED LED_HOLD_HOLD_UJ ∧ t.d8 = s.d8 ∧ sameStore s t) ∧
  (∀ (v : Word) (t8 : Nat) (s : State), blockOn s LED = true → settled s → s.guard = some (LED + LED_HOLD_HOLD_UJ.off, v, t8) → s.d8 ≤ t8 + 256 * mgt8 s →
    ∃ t, exec (.guardedComplementWrite (LED + LED_HOLD_HOLD_UJ.off) (~~~v)) s = .next t ∧ t.guard = none ∧ fget t LED LED_HOLD_HOLD_UJ = v.toNat % 2 ^ 24
      ∧ (∀ a, a ≠ LED + LED_HOLD_HOLD_UJ.off → rg t a = rg s a) ∧ t.d8 = s.d8 ∧ sameStore s t) ∧
  (∀ (v w : Word) (t8 : Nat) (s : State), consoleOn s = true → settled s → s.guard = some (LED + LED_HOLD_HOLD_UJ.off, v, t8) → w ≠ ~~~v →
    ∃ t, exec (.guardedComplementWrite (LED + LED_HOLD_HOLD_UJ.off) w) s = .next t ∧ t.guard = none ∧ fbit t GLB GLB_STATUS_GUARD_FAIL = true
      ∧ fget t LED LED_HOLD_HOLD_UJ = fget s LED LED_HOLD_HOLD_UJ ∧ t.d8 = s.d8 ∧ sameStore s t) ∧
  (∀ (a : Nat) (v : Word) (t8 : Nat) (s : State), s.guard = some (a, v, t8) → dtimeRuns s = true →
    ∃ t, exec .guardTimeout s = .next t ∧ t.guard = none ∧ fbit t GLB GLB_STATUS_GUARD_FAIL = true ∧ fbit t GLB GLB_IRQ_STAT_GUARD = true
      ∧ t.d8 = firstCycle8 s (t8 + 256 * mgt8 s) ∧ sameStore s t) ∧
  (∀ (s : State), s.guard = none → exec .guardTimeout s = .next s) ∧
  (∀ (v : Word) (s : State), blockOn s GLB = true → s.guard = none →
    ∃ t, exec (.maskedWrite (GLB + GLB_IRQ_EN_EN.off) v) s = .next t
      ∧ (∀ i, i < 16 → (fget t GLB GLB_IRQ_EN_EN).testBit i = if v.getLsbD (i + 16) then v.getLsbD i else (fget s GLB GLB_IRQ_EN_EN).testBit i)
      ∧ (∀ a, a ≠ GLB + GLB_IRQ_EN_EN.off → rg t a = rg s a) ∧ t.d8 = s.d8 ∧ sameStore s t) ∧
  (∀ (s : State), blockOn s LED = true →
    ∃ t, exec (.clearOnRead (LED + LED_WINMAX_E_NJ.off)) s = .next t ∧ t.con.rdata = rg s (LED + LED_WINMAX_E_NJ.off)
      ∧ rg t (LED + LED_WINMAX_E_NJ.off) = rg s (LED + LED_WIN_E_NJ.off) ∧ (∀ a, a ≠ LED + LED_WINMAX_E_NJ.off → rg t a = rg s a) ∧ t.d8 = s.d8 ∧ sameStore s t) ∧
  (∀ (s : State), blockOn s TXN = true →
    ∃ t, exec (.clearOnRead (TXN + TXN_DUPSTAT_DUP_DONE.off)) s = .next t ∧ t.con.rdata = rg s (TXN + TXN_DUPSTAT_DUP_DONE.off)
      ∧ rg t (TXN + TXN_DUPSTAT_DUP_DONE.off) = 0 ∧ (∀ a, a ≠ TXN + TXN_DUPSTAT_DUP_DONE.off → rg t a = rg s a) ∧ t.d8 = s.d8 ∧ sameStore s t)

/-- Plain register writes and the indirect windows (16_registers.md R456, 16_registers.md R458, 16_registers.md R459, 16_registers.md R462, 16_registers.md R468). -/
def Obligations.RegistersAndWindowsWritten : Prop :=
  (∀ (v : Word) (s : State), blockOn s TXN = true → settled s → s.guard = none →
    ∃ t, exec (.registerWrite (TXN + TXN_BACKOFF_BASE_NS.off) v) s = .next t ∧ fget t TXN TXN_BACKOFF_BASE_NS = v.toNat % 1024
      ∧ (∀ a, a ≠ TXN + TXN_BACKOFF_BASE_NS.off → rg t a = rg s a) ∧ t.d8 = s.d8 ∧ t.con = s.con ∧ sameStore s t) ∧
  (∀ (v : Word) (s : State), blockOn s TXN = true → settled s → s.guard = none →
    ∃ t, exec (.registerWrite (TXN + TXN_HORIZON_HORIZON_US.off) v) s = .next t ∧ fbit t GLB GLB_STATUS_RO_WRITE = true
      ∧ (∀ a, a ≠ GLB + GLB_STATUS_RO_WRITE.off → rg t a = rg s a) ∧ t.d8 = s.d8 ∧ t.con = s.con ∧ sameStore s t) ∧
  (∀ (a : Nat) (v : Word) (s : State), consoleOn s = true → settled s → s.guard = none → blockOf a = none →
    ∃ t, exec (.registerWrite a v) s = .next t ∧ fbit t GLB GLB_STATUS_BAD_ADDR = true ∧ (∀ b, b ≠ GLB + GLB_STATUS_BAD_ADDR.off → rg t b = rg s b)
      ∧ t.d8 = s.d8 ∧ t.con = s.con ∧ sameStore s t) ∧
  (∀ (s : State), blockOn s LED = true → ixAt s LED < 0x0E →
    ∃ t, exec (.indDataRead LED) s = .next t ∧ t.con.rdata = ixGet s LED (ixAt s LED) ∧ ixAt t LED = ixAt s LED + 1
      ∧ (∀ a, a ≠ LED + 0xFF0 → rg t a = rg s a) ∧ t.d8 = s.d8 ∧ sameStore s t) ∧
  (∀ (v : Word) (s : State), blockOn s LED = true → settled s → s.guard = none → ixAt s LED < 0x0E →
    ∃ t, exec (.indDataWrite LED v) s = .next t ∧ (ixGet t LED (ixAt s LED)).toNat % 2 ^ 20 = v.toNat % 2 ^ 20 ∧ ixAt t LED = ixAt s LED + 1
      ∧ (∀ b k, ixKey b k ≠ ixKey LED (ixAt s LED) → ixGet t b k = ixGet s b k) ∧ (∀ a, a ≠ LED + 0xFF0 → rg t a = rg s a)
      ∧ t.d8 = s.d8 ∧ t.con = s.con ∧ t.dram = s.dram ∧ t.wmem = s.wmem) ∧
  (∀ (v : Word) (s : State), blockOn s LED = true → settled s → s.guard = none → 0x0E ≤ ixAt s LED → ixAt s LED < 0x20 →
    ∃ t, exec (.indDataWrite LED v) s = .next t ∧ fbit t GLB GLB_STATUS_IND_RANGE = true ∧ ixAt t LED = ixAt s LED + 1 ∧ t.d8 = s.d8 ∧ t.con = s.con ∧ sameStore s t)

/-- The queue of AON writes, snapshots and the path probe (02_request_journey.md R65, 16_registers.md R467, 16_registers.md R472, 16_registers.md R473). Where it rests on the model's own reading or choice, log entries 1, 100 and 102 say so. -/
def Obligations.AonSnapshotAndProbe : Prop :=
  (∀ (v : Word) (t8 : Nat) (r : List (Nat × Word × Nat)) (s : State), s.pwr.aonQ = (AON_WAKE_ADDR.off, v, t8) :: r → 0x08 ≤ v.toNat % 128 → v.toNat % 128 ≤ 0x77 →
    ∃ t, exec .aonWriteEffect s = .next t ∧ t.pwr.aonQ = r ∧ fget t AON AON_WAKE_ADDR = v.toNat % 128 ∧ s.d8 ≤ t.d8 ∧ sameStore s t) ∧
  (∀ (v : Word) (t8 : Nat) (r : List (Nat × Word × Nat)) (s : State), s.pwr.aonQ = (AON_WAKE_ADDR.off, v, t8) :: r → ¬(0x08 ≤ v.toNat % 128 ∧ v.toNat % 128 ≤ 0x77) →
    ∃ t, exec .aonWriteEffect s = .next t ∧ t.pwr.aonQ = r ∧ fget t AON AON_WAKE_ADDR = fget s AON AON_WAKE_ADDR ∧ fbit t AON AON_WAKE_ADDR_REJ = true ∧ s.d8 ≤ t.d8 ∧ sameStore s t) ∧
  (∀ (s : State), s.pwr.aonQ = [] → exec .aonWriteEffect s = .next s) ∧
  (∀ (s : State), verbReady s = true → blockOn s SNP = true → fbit s SNP SNP_STATUS_BUSY = false → s.guard = none →
    ∃ t h, exec .snapshotCapture s = .next t ∧ t.shadow = some h ∧ h.regs = ((counterBlocks.filter (blockOn s)).flatMap fun b => (counterAddrs b).map fun a => (a, rg s a))
      ∧ fbit t SNP SNP_STATUS_BUSY = true ∧ t.hold = s.hold ∧ t.con.wait = some .snap ∧ t.con.ans = [] ∧ t.d8 = s.d8 ∧ sameStore s t) ∧
  (∀ (s : State), verbReady s = true → blockOn s SNP = true → fbit s SNP SNP_STATUS_BUSY = true → s.guard = none →
    ∃ t, exec .snapshotCapture s = .next t ∧ t.shadow = s.shadow ∧ fbit t SNP SNP_STATUS_REJ = true ∧ t.hold = s.hold ∧ t.d8 = s.d8 ∧ sameStore s t) ∧
  (∀ (s : State) (h : Shadow), consoleOn s = true → s.shadow = some h → s.con.wait ≠ some .snap →
    ∃ t, exec .snapshotDone s = .next t ∧ t.shadow = none ∧ t.hold.regs = putAll h.regs s.hold.regs ∧ t.hold.dtime = h.dtime ∧ fbit t SNP SNP_STATUS_BUSY = false
      ∧ rg t (SNP + SNP_SEQ_SEQ.off) = rg s (SNP + SNP_SEQ_SEQ.off) + 1 ∧ rg t (SNP + 0x00C) = BitVec.ofNat 32 h.valid ∧ t.con = s.con ∧ t.d8 = s.d8 ∧ sameStore s t) ∧
  (∀ (s : State) (h : Shadow), consoleOn s = true → s.shadow = some h → s.con.wait = some .snap →
    ∃ t, exec .snapshotDone s = .next t ∧ t.shadow = none ∧ t.con.wait = none ∧ rg t (SNP + SNP_SEQ_SEQ.off) = rg s (SNP + SNP_SEQ_SEQ.off) + 1
      ∧ t.con.ans = [okLn [("seq", .n (rg s (SNP + SNP_SEQ_SEQ.off) + 1).toNat)]] ∧ t.d8 = s.d8 ∧ sameStore s t) ∧
  (∀ (s : State), s.shadow = none → exec .snapshotDone s = .next s) ∧
  (∀ (s : State), blockOn s TXN = true → s.guard = none →
    ∃ t, exec .probeArm s = .next t ∧ fbit t TXN TXN_PROBE_CTL_ARM = true ∧ fget t TXN TXN_PROBE_CTL_PORT = fget s TXN TXN_PROBE_CTL_PORT
      ∧ fget t TXN TXN_PROBE_CTL_OPC = fget s TXN TXN_PROBE_CTL_OPC ∧ (∀ a, a ≠ TXN + TXN_PROBE_CTL_ARM.off → rg t a = rg s a) ∧ t.d8 = s.d8 ∧ t.con = s.con ∧ sameStore s t)

/-- Requests that classification refuses: a frozen stream, a gap, a stale number, a state of the device, a quota, a fault (01_acceptance_promise.md R24, 01_acceptance_promise.md R28, 02_request_journey.md R57, 04_transactions.md R123, 04_transactions.md R125). Where it rests on the model's own reading or choice, log entries 11, 12 and 126 say so. -/
def Obligations.RequestsRefused : Prop :=
  ∀ (o : Opc) (p : Fin 4) (h : Hdr) (body : List Slot) (s : State) (x : StreamRec), intakeReady s p (reqOf o h body) → settled s → s.strm p h.stream = x →
    (x.frozen = true → x.ue = false →
      ∃ t, exec (reqCmd o p h body false) s = .next t ∧ t.strm p h.stream = (if h.seq = x.n then clearedStrm x else x)
        ∧ (portSt s p ≠ PORT_ACTIVE → (t.port p).rab = (s.port p).rab ++ [refusal (reqOf o h body) 6 (conflictInfo 2 x.n)])
        ∧ fget t TXN (TXN_REF_CNT_COUNT.nth 5) = min (fget s TXN (TXN_REF_CNT_COUNT.nth 5) + 1) (2 ^ 32 - 1)
        ∧ (t.port p).intake = (s.port p).intake.erase (reqOf o h body) ∧ t.d8 = s.d8 ∧ t.dram = s.dram ∧ t.wmem = s.wmem) ∧
    (x.frozen = false → h.seq ≠ x.n → (h.seq - x.n).toNat < 32768 →
      ∃ t, exec (reqCmd o p h body false) s = .next t ∧ t.strm p h.stream = x
        ∧ (portSt s p ≠ PORT_ACTIVE → (t.port p).rab = (s.port p).rab ++ [refusal (reqOf o h body) 3 x.n.toNat])
        ∧ fget t TXN (TXN_REF_CNT_COUNT.nth 2) = min (fget s TXN (TXN_REF_CNT_COUNT.nth 2) + 1) (2 ^ 32 - 1)
        ∧ (t.port p).intake = (s.port p).intake.erase (reqOf o h body) ∧ t.d8 = s.d8 ∧ t.dram = s.dram ∧ t.wmem = s.wmem) ∧
    (x.frozen = false → 32768 ≤ (h.seq - x.n).toNat → (h.seq - x.n).toNat < 65504 →
      ∃ t, exec (reqCmd o p h body false) s = .next t ∧ t.strm p h.stream = { x with frozen := true }
        ∧ (portSt s p ≠ PORT_ACTIVE → (t.port p).rab = (s.port p).rab ++ [refusal (reqOf o h body) 6 (conflictInfo 1 x.n)])
        ∧ (t.port p).intake = (s.port p).intake.erase (reqOf o h body) ∧ t.d8 = s.d8 ∧ t.dram = s.dram ∧ t.wmem = s.wmem) ∧
    (∀ w, x.frozen = false → h.seq = x.n → stateWhy s = some w →
      ∃ t, exec (reqCmd o p h body false) s = .next t ∧ t.strm p h.stream = clearedStrm x
        ∧ (portSt s p ≠ PORT_ACTIVE → (t.port p).rab = (s.port p).rab ++ [refusal (reqOf o h body) 4 w])
        ∧ fget t TXN (TXN_REF_CNT_COUNT.nth 3) = min (fget s TXN (TXN_REF_CNT_COUNT.nth 3) + 1) (2 ^ 32 - 1)
        ∧ (t.port p).intake = (s.port p).intake.erase (reqOf o h body) ∧ t.d8 = s.d8 ∧ t.dram = s.dram ∧ t.wmem = s.wmem) ∧
    (∀ res, o ≠ .sync → x.frozen = false → h.seq = x.n → stateWhy s = none → x.retryAt = none → quotaRes s p (reqOf o h body) = some res →
      ∃ t, exec (reqCmd o p h body false) s = .next t ∧ t.strm p h.stream = clearedStrm x
        ∧ (portSt s p ≠ PORT_ACTIVE → (t.port p).rab = (s.port p).rab ++ [refusal (reqOf o h body) 2 res])
        ∧ fget t TXN (TXN_REF_CNT_COUNT.nth 1) = min (fget s TXN (TXN_REF_CNT_COUNT.nth 1) + 1) (2 ^ 32 - 1)
        ∧ (t.port p).intake = (s.port p).intake.erase (reqOf o h body) ∧ t.d8 = s.d8 ∧ t.dram = s.dram ∧ t.wmem = s.wmem) ∧
    (∀ f, o ≠ .sync → x.frozen = false → h.seq = x.n → stateWhy s = none → x.retryAt = none → quotaRes s p (reqOf o h body) = none → stepFault s (reqOf o h body) = some f →
      ∃ t, exec (reqCmd o p h body false) s = .next t ∧ t.strm p h.stream = clearedStrm x
        ∧ (portSt s p ≠ PORT_ACTIVE → (t.port p).rab = (s.port p).rab ++ [refusal (reqOf o h body) 5 (f.1 + f.2 * 16)])
        ∧ (t.port p).intake = (s.port p).intake.erase (reqOf o h body) ∧ t.d8 = s.d8 ∧ t.dram = s.dram ∧ t.wmem = s.wmem)

/-- Requests that pass the checks of intake enter a contest, and a SYNC is accepted; a request behind another of its stream waits (02_request_journey.md R57, 04_transactions.md R113, 04_transactions.md R120, 04_transactions.md R127, 04_transactions.md R133). Where it rests on the model's own reading or choice, log entries 10, 11, 13, 14 and 21 say so. -/
def Obligations.RequestsEnterContests : Prop :=
  (∀ (o : Opc) (p : Fin 4) (h : Hdr) (body : List Slot) (s : State) (x : StreamRec) (home : Fin 16), intakeReady s p (reqOf o h body) → settled s → s.strm p h.stream = x →
    o ≠ .sync → x.frozen = false → h.seq = x.n → stateWhy s = none → x.retryAt = none → x.resv = false → quotaRes s p (reqOf o h body) = none → stepFault s (reqOf o h body) = none →
    reqHome s (reqOf o h body) = some home → ringFull s home (reqWeight s (reqOf o h body)) = false → rabFill (s.port p) ≤ 6144 →
    ∃ t a c, exec (reqCmd o p h body false) s = .next t ∧ (t.arb a).contest = (s.arb a).contest ++ [c] ∧ (∀ b, b ≠ a → t.arb b = s.arb b)
      ∧ (isLineOp o = false ∨ (probeLine s (reqLine h)).isSome = true → a = 16)
      ∧ c.req = reqOf o h body ∧ c.port = p ∧ c.home = home ∧ c.fp = fingerprint (reqOf o h body) ∧ c.t = s.ns ∧ c.order = s.order ∧ c.cyc = s.d8 ∧ s.d8 < c.at8 ∧ c.resv = false
      ∧ c.late = (deadlineOf s.ns h.deadline).2 ∧ (c.late = false → c.o = (deadlineOf s.ns h.deadline).1)
      ∧ t.strm p h.stream = { x with busy := true } ∧ t.ports = s.ports ∧ t.rings = s.rings ∧ t.d8 = s.d8 ∧ t.dram = s.dram ∧ t.wmem = s.wmem) ∧
  (∀ (p : Fin 4) (h : Hdr) (s : State) (x : StreamRec), intakeReady s p (reqOf .sync h []) → settled s → s.strm p h.stream = x →
    x.frozen = false → h.seq = x.n → stateWhy s = none → x.retryAt = none → x.win.all (fun w => w.fin.isSome && w.seq != h.seq) = true →
    ∃ t w, exec (.sync p h false) s = .next t ∧ (t.strm p h.stream).n = x.n + 1 ∧ (t.strm p h.stream).sync = none ∧ (t.strm p h.stream).busy = false
      ∧ (t.strm p h.stream).win = (w :: x.win).take 32 ∧ w.seq = h.seq ∧ w.opc = .sync ∧ w.fin = some { late := (deadlineOf s.ns h.deadline).2 }
      ∧ fget t TXN TXN_ACC_CNT_COUNT = min (fget s TXN TXN_ACC_CNT_COUNT + 1) (2 ^ 32 - 1) ∧ t.d8 = s.d8) ∧
  (∀ (o : Opc) (p : Fin 4) (h : Hdr) (body : List Slot) (ue : Bool) (s : State), coreRuns s = true → (s.port p).intake.contains (reqOf o h body) = true →
    (o = .enq → 0 < enqBytes h ∧ enqBytes h ≤ 9216) → (s.strm p h.stream).busy = true ∨ (s.strm p h.stream).sync.isSome = true →
    exec (reqCmd o p h body ue) s = .next (setStrm p h.stream { s.strm p h.stream with waiting := (s.strm p h.stream).waiting ++ [reqOf o h body] } s)) ∧
  (∀ (p : Fin 4) (h : Hdr) (body : List Slot) (ue : Bool) (s : State), Canon s → coreRuns s = true → settled s → enqBytes h = 0 ∨ 9216 < enqBytes h →
    ∃ t, exec (.enq p h body ue) s = .next t ∧ fbit t (HP p) HP_STATUS_PROTO = true ∧ (t.port p).replay = [] ∧ (t.port p).rab = []
      ∧ portSt t p = (if fbit s (HP p) HP_CTL_EN then PORT_DETECT else PORT_DOWN) ∧ (∀ q x, (t.strm q x).n = (s.strm q x).n) ∧ t.dram = s.dram ∧ t.wmem = s.wmem) ∧
  (∀ (o : Opc) (p : Fin 4) (h : Hdr) (body : List Slot) (ue : Bool) (s : State), coreRuns s = false → exec (reqCmd o p h body ue) s = .next s)

/-- Reissues of accepted requests are answered from the stream's window (01_acceptance_promise.md R25, 01_acceptance_promise.md R28, 01_acceptance_promise.md R29, 04_transactions.md R114). Where it rests on the model's own reading or choice, log entry 11 says so. -/
def Obligations.ReissuesAnswered : Prop :=
  ∀ (o : Opc) (p : Fin 4) (h : Hdr) (body : List Slot) (s : State) (x : StreamRec) (w : WinSlot), intakeReady s p (reqOf o h body) → settled s → s.strm p h.stream = x →
    x.frozen = false → 65504 ≤ (h.seq - x.n).toNat → winSlot x h.seq = some w →
    (w.fp = fingerprint (reqOf o h body) → w.fin = none →
      ∃ t, exec (reqCmd o p h body false) s = .next t ∧ t.strm p h.stream = updWin x h.seq (fun w => { w with tag := some h.tag, dup := true })
        ∧ fget t TXN TXN_DUPSTAT_DUP_ACC = min (fget s TXN TXN_DUPSTAT_DUP_ACC + 1) (2 ^ TXN_DUPSTAT_DUP_ACC.width - 1)
        ∧ (portSt s p ≠ PORT_ACTIVE → (t.port p).rab = (s.port p).rab ++ [⟨0, h.tag, h.stream, h.seq, BitVec.ofNat 4 o.code, true, false, 0, w.acc, [], none⟩])
        ∧ t.d8 = s.d8 ∧ t.dram = s.dram ∧ t.wmem = s.wmem) ∧
    (∀ f, w.fp = fingerprint (reqOf o h body) → w.fin = some f → o = .wr ∨ o = .wrp ∨ o = .add ∨ o = .enq ∨ o = .sync →
      ∃ t, exec (reqCmd o p h body false) s = .next t ∧ t.strm p h.stream = x
        ∧ fget t TXN TXN_DUPSTAT_DUP_DONE = min (fget s TXN TXN_DUPSTAT_DUP_DONE + 1) (2 ^ TXN_DUPSTAT_DUP_DONE.width - 1)
        ∧ (portSt s p ≠ PORT_ACTIVE → (t.port p).rab = (s.port p).rab ++ [finalResp o h.tag h.stream h.seq true none f []])
        ∧ t.d8 = s.d8 ∧ t.dram = s.dram ∧ t.wmem = s.wmem) ∧
    (w.fp ≠ fingerprint (reqOf o h body) →
      ∃ t, exec (reqCmd o p h body false) s = .next t ∧ t.strm p h.stream = { x with frozen := true }
        ∧ (portSt s p ≠ PORT_ACTIVE → (t.port p).rab = (s.port p).rab ++ [refusal (reqOf o h body) 6 (conflictInfo 0 x.n)])
        ∧ t.d8 = s.d8 ∧ t.dram = s.dram ∧ t.wmem = s.wmem)

/-- Contests and reserved slots: a lone contestant is granted, or is refused by a throttle, and a reserved slot is granted to the request that waits for it (01_acceptance_promise.md R8, 02_request_journey.md R57, 04_transactions.md R125, 06_arbitration.md R166, 06_arbitration.md R170, 06_arbitration.md R177, 06_arbitration.md R187, 06_arbitration.md R179, 06_arbitration.md R180). Where it rests on the model's own reading or choice, log entries 10, 14, 22, 26, 110, 121 and 127 say so. -/
def Obligations.ArbitersGrant : Prop :=
  (∀ (ch : Fin 16) (c : Contestant) (pl : Place) (errs : List JournalErr) (u s : State), coreRuns u = true → entering u = false → s = actAll errs u → settled s → (s.arb (chArb ch)).contest = [c] → c.at8 < s.d8 → decided s (chArb ch) = false → resvPick s (chArb ch) = none → (s.arb (chArb (partnerOf ch))).contest = [] → s.wreads = [] →
    c.twin = false → c.hit = false → isLineOp c.req.opc = true → placeOf s (reqLine c.req.hdr) = some pl → bgFirst s ch = false →
    verdict s (chArb ch) (bidOf s (chArb ch) (chArb ch) c) = .ok → hasRoom s (chArb ch) (leftNow s (chArb ch)) (bidOf s (chArb ch) (chArb ch) c) = true →
    ∃ t e x, exec (.arbiterContest (chArb ch) errs) u = .next t ∧ (t.arb (chArb ch)).contest = []
      ∧ (t.ring c.home).entries = (s.ring c.home).entries ++ [e] ∧ { e with deferSent := false } = { reqEntry s c.req c.port c.o c.late c.hit c.twin with grant8 := s.d8 }
      ∧ (t.chan ch).intake = (s.chan ch).intake ++ [x] ∧ x.line = pl.lam ∧ x.wr = (c.req.opc == .wr) ∧ (c.req.opc = .wr → x.data = slotsLine c.req.slots)
      ∧ x.src = .req c.home (((s.ring c.home).head + (s.ring c.home).entries.length) % 4096) (match c.req.opc with | .rd => .read | .wr => .write | _ => .rphase)
      ∧ (t.strm c.port c.req.hdr.stream).n = (s.strm c.port c.req.hdr.stream).n + 1 ∧ (t.strm c.port c.req.hdr.stream).busy = false
      ∧ fget t TXN TXN_ACC_CNT_COUNT = min (fget s TXN TXN_ACC_CNT_COUNT + 1) (2 ^ 32 - 1)
      ∧ fget t ARB (ARB_GRANT_COUNT.nth ch) = min (fget s ARB (ARB_GRANT_COUNT.nth ch) + 1) (2 ^ 32 - 1) ∧ decided t (chArb ch) = true ∧ t.d8 = s.d8 ∧ t.dram = s.dram) ∧
  (∀ (ch : Fin 16) (c : Contestant) (errs : List JournalErr) (u s : State), coreRuns u = true → entering u = false → s = actAll errs u → settled s → (s.arb (chArb ch)).contest = [c] → c.at8 < s.d8 → decided s (chArb ch) = false → resvPick s (chArb ch) = none → (s.arb (chArb (partnerOf ch))).contest = [] → s.wreads = [] → c.twin = false →
    verdict s (chArb ch) (bidOf s (chArb ch) (chArb ch) c) = .throttle →
    ∃ t, exec (.arbiterContest (chArb ch) errs) u = .next t ∧ (t.arb (chArb ch)).contest = [] ∧ (t.strm c.port c.req.hdr.stream).n = (s.strm c.port c.req.hdr.stream).n
      ∧ (t.strm c.port c.req.hdr.stream).k = min 11 ((s.strm c.port c.req.hdr.stream).k + 1) ∧ (t.strm c.port c.req.hdr.stream).busy = false
      ∧ (t.strm c.port c.req.hdr.stream).retryAt = some (s.ns + backoffB s * 2 ^ (min 11 ((s.strm c.port c.req.hdr.stream).k + 1) - 1))
      ∧ fget t ARB ARB_THRREF_COUNT = min (fget s ARB ARB_THRREF_COUNT + 1) (2 ^ 32 - 1) ∧ t.rings = s.rings ∧ t.chans = s.chans ∧ t.d8 = s.d8 ∧ t.dram = s.dram ∧ t.wmem = s.wmem) ∧
  (∀ (c : Contestant) (pin : Bool) (f : Nat) (errs : List JournalErr) (u s : State), coreRuns u = true → entering u = false → s = actAll errs u → settled s → (s.arb 16).contest = [c] → c.at8 < s.d8 → decided s 16 = false → resvPick s 16 = none → s.wreads = [] → c.hit = true → c.req.opc = .rd →
    probeLine s (reqLine c.req.hdr) = some (pin, f) → verdict s 16 (bidOf s 16 16 c) = .ok → hasRoom s 16 (leftNow s 16) (bidOf s 16 16 c) = true →
    ∃ t, exec (.arbiterContest 16 errs) u = .next t ∧ (t.arb 16).contest = [] ∧ (t.ring c.home).entries.length = (s.ring c.home).entries.length + 1
      ∧ t.wayOps = s.wayOps ++ [{ src := .req c.home (((s.ring c.home).head + (s.ring c.home).entries.length) % 4096) .read, man := c.req.hdr.man, port := c.port, slot := .general, pinned := pin, frame := f, line := reqLine c.req.hdr % 16 }]
      ∧ (t.strm c.port c.req.hdr.stream).n = (s.strm c.port c.req.hdr.stream).n + 1 ∧ fget t ARB ARB_WAY_GRANT_COUNT = min (fget s ARB ARB_WAY_GRANT_COUNT + 1) (2 ^ 32 - 1)
      ∧ t.d8 = s.d8 ∧ t.dram = s.dram ∧ t.wmem = s.wmem) ∧
  (∀ (a : Fin 17) (errs : List JournalErr) (s : State), coreRuns s = false ∨ entering s = true → exec (.arbiterContest a errs) s = .next s) ∧
  (∀ (ch : Fin 16) (c : Contestant) (pl : Place) (errs : List JournalErr) (u s : State), coreRuns u = true → entering u = false → s = actAll errs u → settled s → (leftNow s (chArb ch)).rate ≠ 0 → decided s (chArb ch) = false → resvPick s (chArb ch) = some c → c.twin = false → c.hit = false →
    isLineOp c.req.opc = true → placeOf s (reqLine c.req.hdr) = some pl →
    ∃ t x, exec (.resvGrant (chArb ch) errs) u = .next t ∧ (t.arb (chArb ch)).resvWait = (s.arb (chArb ch)).resvWait.filter (fun y => y.order ≠ c.order)
      ∧ (t.ring c.home).entries.length = (s.ring c.home).entries.length + 1 ∧ (t.chan ch).intake = (s.chan ch).intake ++ [x] ∧ x.slot = .portRes ∧ x.port = c.port ∧ x.line = pl.lam
      ∧ (t.strm c.port c.req.hdr.stream).n = (s.strm c.port c.req.hdr.stream).n + 1 ∧ (t.strm c.port c.req.hdr.stream).resv = false
      ∧ fget t ARB (ARB_RESV_COUNT.nth ch) = min (fget s ARB (ARB_RESV_COUNT.nth ch) + 1) (2 ^ 32 - 1) ∧ (t.arb (chArb ch)).resvAt = s.d8 ∧ t.d8 = s.d8 ∧ t.dram = s.dram) ∧
  (∀ (a : Fin 17) (errs : List JournalErr) (u s : State), coreRuns u = true → entering u = false → s = actAll errs u → settled s → (leftNow s a).rate = 0 ∨ decided s a = true ∨ (resvPick s a = none ∧ readPick s a = none) → exec (.resvGrant a errs) u = .next s) ∧
  (∀ (a : Fin 17) (errs : List JournalErr) (u s : State), coreRuns u = true → entering u = false → s = actAll errs u → settled s → decided s a = true → exec (.arbiterContest a errs) u = .next s) ∧
  (∀ (a : Fin 17) (errs : List JournalErr) (s : State), coreRuns s = false ∨ entering s = true → exec (.resvGrant a errs) s = .next s)

/-- The command line of a channel: admission, in-order mode, and the issue of ACT, PRE and column commands (06_arbitration.md R188, 09_dram_channels.md R277, 09_dram_channels.md R278, 09_dram_channels.md R279, 09_dram_channels.md R281, 10_dram_integrity.md R311, 13_self_test.md R378). Where it rests on the model's own reading or choice, log entries 10, 22, 32, 33, 40, 118, 119 and 133 say so. -/
def Obligations.ChannelCommandsMove : Prop :=
  (∀ (z : ChPick) (c : Fin 16) (x : Cmd) (ring : Fin 16) (slot : Nat) (e : JEntry) (u s : State), z.ch = c → s = actAll z.errs u → chanRuns s c = true → settled s → (s.chan c).inord = none → (s.chan c).line.length < 64 → (s.chan c).mergeQ = [] →
    (s.chan c).intake = [x] → (s.chan c).locks.contains x.line = false → x.src = .req ring slot .write → getEntry s ring slot = some e → e.opc = .wr → displaced s c x.line = false → writeRoom s c x = true → s.bist.dram[c] = none →
    ∃ t y, exec (.commandAdmission z) u = .next t ∧ (t.chan c).intake = [] ∧ (t.chan c).line = (s.chan c).line ++ [y] ∧ y.line = x.line ∧ y.wr = x.wr ∧ y.data = x.data ∧ y.src = x.src
      ∧ y.sn = (s.chan c).sn + 1 ∧ (t.chan c).sn = (s.chan c).sn + 1 ∧ fget t (CH c) CH_FILL_FILL = (s.chan c).line.length + 1 ∧ t.rings = s.rings ∧ t.d8 = firstCycle8 s (s.chan c).admAt8 ∧ sameStore s t) ∧
  (∀ (z : ChPick) (c : Fin 16) (x : Cmd) (ring : Fin 16) (slot : Nat) (e : JEntry) (u s : State), z.ch = c → s = actAll z.errs u → chanRuns s c = true → settled s → (s.chan c).mergeQ = [] →
    (s.chan c).intake = [x] → (s.chan c).locks.contains x.line = false → x.src = .req ring slot .write → x.wr = true → getEntry s ring slot = some e → e.opc = .wr → displaced s c x.line = true → x.line < 2 ^ 30 →
    ∃ t, exec (.commandAdmission z) u = .next t ∧ (t.chan c).intake = [] ∧ (t.chan c).line = (s.chan c).line ∧ dramLine t c x.line = x.data ∧ dramPsn t c x.line = x.psn
      ∧ (∀ k lam, lam < 2 ^ 30 → (k, lam) ≠ (c, x.line) → dramLine t k lam = dramLine s k lam) ∧ t.d8 = s.d8 ∧ t.wmem = s.wmem) ∧
  (∀ (z : ChPick) (c : Fin 16) (x : Cmd) (ring : Fin 16) (slot n : Nat) (u s : State), z.ch = c → s = actAll z.errs u → chanRuns s c = true → settled s → (s.chan c).inord = none → (s.chan c).line.length < 64 → (s.chan c).mergeQ = [] →
    (s.chan c).intake = [x] → (s.chan c).locks.contains x.line = false → x.src = .req ring slot .read → displaced s c x.line = false → matchedWrite s c x.line = some n →
    ∃ t, exec (.commandAdmission z) u = .next t ∧ (t.chan c).inord = some n ∧ (t.chan c).intake = [x] ∧ (t.chan c).line = (s.chan c).line
      ∧ bitOf (fget t ARB ARB_STATUS_INORD) c = true ∧ fget t ARB (ARB_ION_COUNT.nth c) = min (fget s ARB (ARB_ION_COUNT.nth c) + 1) (2 ^ 32 - 1) ∧ t.d8 = firstCycle8 s (s.chan c).admAt8 ∧ sameStore s t) ∧
  (∀ (z : ChPick) (u s : State), s = actAll z.errs u → settled s →
    chanRuns s z.ch = false ∨ (((s.chan z.ch).inord.isSome = true ∨ 64 ≤ (s.chan z.ch).line.length) ∧ (∀ x ∈ (s.chan z.ch).mergeQ ++ (s.chan z.ch).intake, toCopy s z.ch x = false)) →
    exec (.commandAdmission z) u = .next s) ∧
  (∀ (c : Fin 16) (x : Cmd) (l : List Cmd) (errs : List JournalErr) (u s : State), s = (if errs = [] then u else settle (actAll errs u)) → (s.chan c).line = x :: l → (s.chan c).replay = none → chanRuns s c = true → rowFree s c = true → rowOpen s c (bankOf s x.line).no = none →
    raaOf s c (bankOf s x.line).no < fget s (CH c) CH_RAA_MMT →
    ∃ t, exec (.commandIssue c ⟨0, errs⟩) u = .next t ∧ t.d8 = firstCycle8 s (actAt8 s c (bankOf s x.line))
      ∧ (t.chan c).rows = (s.chan c).rows ++ [((bankOf s x.line).no, { row := (bankOf s x.line).row, used8 := t.d8 })]
      ∧ (t.chan c).line = { x with act := true, clash := x.clash || otherRow s c (bankOf s x.line) } :: l
      ∧ fget t (CH c) CH_ACTCNT_COUNT = min (fget s (CH c) CH_ACTCNT_COUNT + 1) (2 ^ 32 - 1) ∧ t.rings = s.rings ∧ sameStore s t) ∧
  (∀ (c : Fin 16) (x : Cmd) (l : List Cmd) (r : OpenRow) (errs : List JournalErr) (u s : State), s = (if errs = [] then u else settle (actAll errs u)) → (s.chan c).line = x :: l → (s.chan c).replay = none → chanRuns s c = true → rowFree s c = true → rowOpen s c (bankOf s x.line).no = some r →
    r.row ≠ (bankOf s x.line).row →
    ∃ t, exec (.commandIssue c ⟨0, errs⟩) u = .next t ∧ t.d8 = firstCycle8 s (preAt8 s c (bankOf s x.line)) ∧ (t.chan c).rows = (s.chan c).rows.filter (fun y => y.1 ≠ (bankOf s x.line).no)
      ∧ (t.chan c).line = { x with clash := true } :: l ∧ fget t (CH c) CH_CLASH_COUNT = (if x.clash then fget s (CH c) CH_CLASH_COUNT else min (fget s (CH c) CH_CLASH_COUNT + 1) (2 ^ 32 - 1)) ∧ t.rings = s.rings ∧ sameStore s t) ∧
  (∀ (c : Fin 16) (x : Cmd) (l : List Cmd) (r : OpenRow) (ring : Fin 16) (slot : Nat) (errs : List JournalErr) (u s : State), s = (if errs = [] then u else settle (actAll errs u)) →
    (s.chan c).line = x :: l → (s.chan c).replay = none → chanRuns s c = true → rowFree s c = true → colFree s c = true →
    rowOpen s c (bankOf s x.line).no = some r → r.row = (bankOf s x.line).row → x.wr = true → x.src = .req ring slot .write → x.line < 2 ^ 30 →
    ∃ t f, exec (.commandIssue c ⟨0, errs⟩) u = .next t ∧ f.at8 = firstCycle8 s (colAt8 s c (bankOf s x.line) true) ∧ f.at8 ≤ t.d8 ∧ ((s.chan c).rfmDue = [] → t.d8 = f.at8) ∧ dramLine t c x.line = x.data ∧ dramPsn t c x.line = x.psn
      ∧ (∀ k lam, lam < 2 ^ 30 → (k, lam) ≠ (c, x.line) → dramLine t k lam = dramLine s k lam) ∧ (t.chan c).line = l
      ∧ (t.chan c).flight = (s.chan c).flight ++ [f] ∧ f.cmd = x ∧ f.window = true
      ∧ fget t (CH c) CH_WRCMD_COUNT = min (fget s (CH c) CH_WRCMD_COUNT + 1) (2 ^ 32 - 1) ∧ t.wmem = s.wmem ∧ t.streams = s.streams) ∧
  (∀ (c : Fin 16) (f : Flight) (r : OpenRow) (p : Replay) (errs : List JournalErr) (u s : State), s = (if errs = [] then u else settle (actAll errs u)) → (s.chan c).flight = [f] → f.due = true → (s.chan c).replay = some p →
    chanRuns s c = true → rowFree s c = true → rowOpen s c (bankOf s f.cmd.line).no = some r → r.row = (bankOf s f.cmd.line).row → f.cmd.wr = false → isBist f.cmd = false →
    ∃ t, exec (.commandIssue c ⟨0, errs⟩) u = .next t ∧ t.d8 = firstCycle8 s (colAt8 s c (bankOf s f.cmd.line) false)
      ∧ (t.chan c).flight = [{ f with due := false, at8 := t.d8, cmd := { f.cmd with data := dramLine s c f.cmd.line, psn := dramPsn s c f.cmd.line } }] ∧ (t.chan c).line = (s.chan c).line
      ∧ (t.chan c).replay = some p ∧ fget t (CH c) CH_RDCMD_COUNT = min (fget s (CH c) CH_RDCMD_COUNT + 1) (2 ^ 32 - 1) ∧ t.rings = s.rings ∧ sameStore s t) ∧
  (∀ (c : Fin 16) (pos : Nat) (errs : List JournalErr) (u s : State), s = (if errs = [] then u else settle (actAll errs u)) → (issuable s c).length ≤ pos ∨ chanRuns s c = false ∨ rowFree s c = false → exec (.commandIssue c ⟨pos, errs⟩) u = .next s)

/-- Where an access ends: in the Waystation, at a decoded burst, at a closed alert window (02_request_journey.md R54, 02_request_journey.md R60, 02_request_journey.md R62, 04_transactions.md R134, 07_waystation.md R207, 10_dram_integrity.md R296, 10_dram_integrity.md R310). Where it rests on the model's own reading or choice, log entries 10, 22, 29, 33, 34 and 109 say so. -/
def Obligations.AccessesComplete : Prop :=
  (∀ (o : WayOp) (ring : Fin 16) (slot : Nat) (e : JEntry) (w : WinSlot) (errs : List JournalErr) (u s : State), s = actAll errs u → u.pwr.mode = .run → settled s → s.wayOps = [o] → o.wr = false → o.asked = false → o.src = .req ring slot .read →
    getEntry s ring slot = some e → e.recorded = false → winSlot (s.strm e.port e.stream) e.seq = some w → w.fin = none → (s.strm e.port e.stream).sync = none →
    ∃ t v, exec (.waystationAccessComplete 0 .clean errs) u = .next t ∧ t.wayOps = [] ∧ winSlot (t.strm e.port e.stream) e.seq = some v
      ∧ v.fin = some { late := e.late || e.deferSent || decide (e.d < s.ns), poison := bit16 (s.frame o.pinned o.frame).psn o.line } ∧ t.d8 = s.d8 ∧ t.dram = s.dram ∧ t.wmem = s.wmem) ∧
  (∀ (o : WayOp) (ring : Fin 16) (slot : Nat) (ph : ReqPh) (e : JEntry) (errs : List JournalErr) (u s : State), s = actAll errs u → u.pwr.mode = .run → settled s → s.wayOps = [o] → o.wr = true → o.src = .req ring slot ph → o.line < 16 →
    getEntry s ring slot = some e → e.st ≠ .lost → e.opc = .wr →
    ∃ t, exec (.waystationAccessComplete 0 .clean errs) u = .next t ∧ t.wayOps = [] ∧ wayLine t (frameLine s o.pinned o.frame o.line) = slotsLine e.staged
      ∧ (∀ k, k ≠ frameLine s o.pinned o.frame o.line → wayLine t k = wayLine s k) ∧ bit16 (t.frame o.pinned o.frame).dirty o.line = true ∧ t.d8 = s.d8 ∧ t.dram = s.dram) ∧
  (∀ (idx : Nat) (ecc : LineEcc) (errs : List JournalErr) (u s : State), u.pwr.mode = .run → s = actAll errs u → settled s → s.wayOps.length ≤ idx → exec (.waystationAccessComplete idx ecc errs) u = .next s) ∧
  (∀ (c : Fin 16) (f : Flight) (ring : Fin 16) (slot : Nat) (e : JEntry) (w : WinSlot) (again : List SymErr) (errs : List JournalErr) (u s : State), s = actAll errs u → chanRuns s c = true → settled s → (s.chan c).lost = false → (s.chan c).flight = [f] → f.burst = true → f.window = false →
    f.cmd.src = .req ring slot .read → f.cmd.psn = false → f.cmd.sym = [] → f.cmd.reread = false → markOf s c (bankOf s f.cmd.line).rank = none →
    getEntry s ring slot = some e → e.recorded = false → winSlot (s.strm e.port e.stream) e.seq = some w → w.fin = none → (s.strm e.port e.stream).sync = none →
    ∃ t v, exec (.burstDecode c [] again errs) u = .next t ∧ t.d8 = firstCycle8 s (f.at8 + ck8 s c (fget s (CH c) CH_TIM0_CL + 8) + chCk8 s c 3) ∧ (t.chan c).flight = []
      ∧ winSlot (t.strm e.port e.stream) e.seq = some v ∧ v.fin = some { late := e.late || e.deferSent || decide (e.d < t.ns) } ∧ t.dram = s.dram ∧ t.wmem = s.wmem) ∧
  (∀ (c : Fin 16) (sym again : List SymErr) (errs : List JournalErr) (u s : State), s = actAll errs u → settled s → (s.chan c).flight = [] → exec (.burstDecode c sym again errs) u = .next s) ∧
  (∀ (c : Fin 16) (f : Flight) (ring : Fin 16) (slot : Nat) (e : JEntry) (w : WinSlot) (errs : List JournalErr) (u s : State), s = actAll errs u → chanRuns s c = true → settled s → (s.chan c).flight = [f] → f.window = true → f.due = false → f.cmd.wr = true →
    f.cmd.src = .req ring slot .write → (s.chan c).inord = none → (s.chan c).replay = none → getEntry s ring slot = some e → e.opc = .wr → e.st = .rslt → e.recorded = false → e.twinLeft = false →
    winSlot (s.strm e.port e.stream) e.seq = some w → w.fin = none → (s.strm e.port e.stream).sync = none →
    ∃ t v, exec (.alertWindowClose c errs) u = .next t ∧ t.d8 = firstCycle8 s (windowEnd8 s c f) ∧ (t.chan c).flight = [] ∧ winSlot (t.strm e.port e.stream) e.seq = some v
      ∧ v.fin = some { late := e.late || e.deferSent || (match e.served.or e.twinAt with | some n => decide (e.d < n) | none => false) } ∧ t.dram = s.dram ∧ t.wmem = s.wmem) ∧
  (∀ (c : Fin 16) (f : Flight) (errs : List JournalErr) (u s : State), s = actAll errs u → chanRuns s c = true → settled s → (s.chan c).flight = [f] → f.window = true → f.due = false → f.cmd.wr = false → (s.chan c).inord = none → (s.chan c).replay = none →
    ∃ t, exec (.alertWindowClose c errs) u = .next t ∧ t.d8 = firstCycle8 s (windowEnd8 s c f) ∧ (t.chan c).flight = [{ f with window := false }] ∧ t.rings = s.rings ∧ sameStore s t)

/-- Alerts and replay of a channel, its refresh and its temperature polls (10_dram_integrity.md R309, 10_dram_integrity.md R311, 10_dram_integrity.md R312, 10_dram_integrity.md R313, 10_dram_integrity.md R315, 10_dram_integrity.md R316, 10_dram_integrity.md R317). Where it rests on the model's own reading or choice, log entries 1, 10, 22, 33, 37, 38 and 118 say so. -/
def Obligations.AlertsAndRefresh : Prop :=
  (∀ (x : ChPick) (c : Fin 16) (u s : State), x.ch = c → s = actAll x.errs u → chanRuns s c = true → settled s → (s.phy c).active = none → s.bist.phyRun[c] = none → (s.chan c).replay = none → ((s.chan c).flight.filter Flight.window) ≠ [] →
    ∃ t, exec (.alert x) u = .next t ∧ (t.chan c).replay = some ⟨s.ns, 1⟩
      ∧ (t.chan c).flight = (s.chan c).flight.map (fun f => if f.window then { f with due := true, cmd := { f.cmd with act := false } } else f) ∧ (t.phy c).alertLow = true ∧ (t.chan c).rows = []
      ∧ fget t (CH c) CH_REPLAY_ATT_COUNT = min (fget s (CH c) CH_REPLAY_ATT_COUNT + 1) (2 ^ CH_REPLAY_ATT_COUNT.width - 1)
      ∧ (crcAlert s c = true → fbit t (CH c) CH_INTSTAT_ALERT_CRC = true) ∧ (crcAlert s c = false → fbit t (CH c) CH_INTSTAT_ALERT_CA = true) ∧ s.d8 ≤ t.d8 ∧ t.dram = s.dram ∧ t.wmem = s.wmem) ∧
  (∀ (x : ChPick) (u s : State), s = actAll x.errs u → settled s → chanRuns s x.ch = false → exec (.alert x) u = .next s) ∧
  (∀ (c : Fin 16) (s : State), chanRuns s c = true → (s.phy c).alertLow = true →
    ∃ t, exec (.alertHoldExpiry c) s = .next t ∧ (t.phy c).alertLow = false ∧ t.d8 = firstCycle8 s (s.d8 + ck8 s c 257) ∧ t.chans = s.chans ∧ t.regs = s.regs ∧ sameStore s t) ∧
  (∀ (c : Fin 16) (s : State), chanRuns s c = false ∨ (s.phy c).alertLow = false → exec (.alertHoldExpiry c) s = .next s) ∧
  (∀ (x : ChPick) (c : Fin 16) (r : Replay) (u s : State), x.ch = c → (u.chan c).replay = some r → s = actAll x.errs (advanceToNs (r.since + 1500) u) → settled s →
    ∃ t, exec (.replayTimeout x) u = .next t ∧ chState t c = 6 ∧ (t.chan c).lost = true ∧ (t.chan c).replay = none ∧ (t.chan c).flight = [] ∧ (t.chan c).line = [] ∧ (t.chan c).psnAll = true
      ∧ fbit t (CH c) CH_INTSTAT_REPLAY_FAIL = true ∧ fbit t GLB GLB_IRQ_STAT_CH_LOST = true ∧ t.d8 = s.d8 ∧ (x.errs = [] → t.d8 = firstCycle8 u (8 * (r.since + 1500)))) ∧
  (∀ (x : ChPick) (s : State), (s.chan x.ch).replay = none → exec (.replayTimeout x) s = .next s) ∧
  (∀ (c : Fin 16) (r : Fin 2) (s : State), chanRuns s c = true → r.val < geoRanks s → (s.chan c).replay = none → (s.phy c).active = none → s.bist.phyRun[c] = none →
    ∃ t, exec (.refreshDue c r) s = .next t ∧ firstCycle8 s (s.chan c).refAt8[r] ≤ t.d8 ∧ (t.chan c).refDebt[r] = 0 ∧ (t.chan c).refAt8[r] = firstCycle8 s (s.chan c).refAt8[r] + refInterval8 s c
      ∧ fget t (CH c) CH_REFSB_COUNT = min (fget s (CH c) CH_REFSB_COUNT + 4 * ((s.chan c).refDebt[r] + 1)) (2 ^ 32 - 1)
      ∧ (t.chan c).rows = (s.chan c).rows.filter (fun x => x.1 / 32 ≠ r.val) ∧ sameStore s t) ∧
  (∀ (c : Fin 16) (r : Fin 2) (s : State), chanRuns s c = true → r.val < geoRanks s → (s.chan c).replay.isSome = true ∨ (s.phy c).active.isSome = true ∨ (s.bist.phyRun[c]).isSome = true → (s.chan c).refDebt[r] < 4 →
    ∃ t, exec (.refreshDue c r) s = .next t ∧ t.d8 = firstCycle8 s (s.chan c).refAt8[r] ∧ (t.chan c).refDebt[r] = (s.chan c).refDebt[r] + 1 ∧ (t.chan c).refAt8[r] = t.d8 + refInterval8 s c
      ∧ t.regs = s.regs ∧ (t.chan c).rows = (s.chan c).rows ∧ sameStore s t) ∧
  (∀ (c : Fin 16) (r : Fin 2) (s : State), chanRuns s c = false ∨ geoRanks s ≤ r.val → exec (.refreshDue c r) s = .next s) ∧
  (∀ (c : Fin 16) (r0 r1 : List Mr4) (s : State), chanRuns s c = true → (s.chan c).replay = none → (s.phy c).active = none → s.bist.phyRun[c] = none → (∀ x ∈ r0, x = .cool) → (∀ x ∈ r1, x = .cool) →
    ∃ t, exec (.mr4Poll c r0 r1) s = .next t ∧ firstCycle8 s (8 * ((s.chan c).mr4At + pollNs s c)) ≤ t.d8 ∧ (t.chan c).mr4At = t.ns ∧ (t.chan c).cool = (s.chan c).cool + 1
      ∧ fget t (CH c) CH_MR4_POLL_COUNT = min (fget s (CH c) CH_MR4_POLL_COUNT + 1) (2 ^ 32 - 1)
      ∧ fbit t (CH c) CH_REF_RATE2X = (fbit s (CH c) CH_REF_RATE2X && !decide (max 1 (fget s (CH c) CH_REF_COOL_POLLS) ≤ (s.chan c).cool + 1)) ∧ sameStore s t) ∧
  (∀ (c : Fin 16) (r0 r1 : List Mr4) (s : State), chanRuns s c = true → (s.chan c).replay = none → (s.phy c).active = none → s.bist.phyRun[c] = none →
    ∃ t, exec (.mr4Poll c (.hot :: r0) r1) s = .next t ∧ firstCycle8 s (8 * ((s.chan c).mr4At + pollNs s c)) ≤ t.d8 ∧ (t.chan c).cool = 0 ∧ fbit t (CH c) CH_REF_RATE2X = true
      ∧ fget t (CH c) CH_MR4_POLL_COUNT = min (fget s (CH c) CH_MR4_POLL_COUNT + 1) (2 ^ 32 - 1) ∧ sameStore s t) ∧
  (∀ (c : Fin 16) (r0 r1 : List Mr4) (s : State), chanRuns s c = false ∨ (s.chan c).replay.isSome = true ∨ (s.phy c).active.isSome = true ∨ (s.bist.phyRun[c]).isSome = true → exec (.mr4Poll c r0 r1) s = .next s)

/-- Windows of a channel that end: row activation, marking, an idle page, an idle rank, a millisecond (09_dram_channels.md R279, 09_dram_channels.md R286, 10_dram_integrity.md R298, 10_dram_integrity.md R306, 10_dram_integrity.md R322). Where it rests on the model's own reading or choice, log entries 1, 41 and 122 say so. -/
def Obligations.ChannelWindowsEnd : Prop :=
  (∀ (c : Fin 16) (s : State), dtimeRuns s = true → (s.chan c).actWinEnd ≠ 0 →
    ∃ t, exec (.rowactWindowBoundary c) s = .next t ∧ t.d8 = firstCycle8 s (8 * ((s.chan c).actWinEnd * 1000000)) ∧ (t.chan c).trk = [] ∧ (t.chan c).actT1 = [] ∧ (t.chan c).actT2 = false
      ∧ (t.chan c).actLimit = (s.chan c).actLimit.filter (fun x => (s.chan c).actT1.contains x.1)
      ∧ (2 ≤ fget s (CH c) CH_ROWSTAT_LEVEL → (s.chan c).actT2 = true → fget t (CH c) CH_ROWSTAT_LEVEL = fget s (CH c) CH_ROWSTAT_LEVEL)
      ∧ (fget s (CH c) CH_ROWSTAT_LEVEL = 3 → (s.chan c).actT2 = false → fget t (CH c) CH_ROWSTAT_LEVEL = 2)
      ∧ (fget s (CH c) CH_ROWSTAT_LEVEL ≤ 2 → (s.chan c).actT2 = false → fget t (CH c) CH_ROWSTAT_LEVEL = if (t.chan c).actLimit = [] then 0 else 1)
      ∧ t.dram = s.dram ∧ t.wmem = s.wmem ∧ t.streams = s.streams ∧ t.mans = s.mans) ∧
  (∀ (c : Fin 16) (s : State), dtimeRuns s = true → (s.chan c).markWinEnd ≠ 0 →
    ∃ t, exec (.markWindowEnd c) s = .next t ∧ t.d8 = firstCycle8 s (8 * (s.chan c).markWinEnd) ∧ (t.chan c).markWinEnd = t.ns + markWinNs s c
      ∧ (∀ r d, r < 2 → d < 18 → devWord c r d t = devWord c r d s / 65536 * 65536) ∧ t.regs = s.regs ∧ t.dram = s.dram ∧ t.wmem = s.wmem ∧ t.streams = s.streams) ∧
  (∀ (c : Fin 16) (bank : Nat) (r : OpenRow) (s : State), rowOpen s c bank = some r → chanRuns s c = true → fbit s (CH c) CH_CTL_PAGE = true → (s.chan c).replay = none → (s.phy c).active = none →
    ∃ t, exec (.pageTimeout c bank) s = .next t ∧ t.d8 = firstCycle8 s (max (preAt8 s c (bankAt bank)) (r.used8 + chCk8 s c (fget s (CH c) CH_SCHED_PAGE_TMO))) ∧ (t.chan c).rows = (s.chan c).rows.filter (fun x => x.1 ≠ bank)
      ∧ t.regs = s.regs ∧ sameStore s t) ∧
  (∀ (c : Fin 16) (bank : Nat) (s : State), rowOpen s c bank = none → exec (.pageTimeout c bank) s = .next s) ∧
  (∀ (c : Fin 16) (r : Fin 2) (d : Nat) (s : State), chanRuns s c = true → r.val < geoRanks s → fget s (CH c) CH_PD_IDLE ≠ 0 → (s.chan c).intake = [] → (s.chan c).mergeQ = [] → (s.chan c).line = [] →
    (s.chan c).flight = [] → (s.chan c).pd[r] = false → (s.chan c).replay = none → (s.phy c).active = none → s.bist.phyRun[c] = none → rfmBanks s c r = [] →
    d = firstCycle8 s ((s.chan c).rankUsed8[r] + chCk8 s c (fget s (CH c) CH_PD_IDLE)) → d + ck8 s c (fget s (CH c) CH_TIM3_TXP + fget s (CH c) CH_TIM3_TPD) < (s.chan c).refAt8[r] →
    d + ck8 s c (fget s (CH c) CH_TIM3_TXP + fget s (CH c) CH_TIM3_TPD) < ((s.chan c).mr4At + pollNs s c) * 8 →
    pauseSoon s c r (d + ck8 s c (fget s (CH c) CH_TIM3_TXP + fget s (CH c) CH_TIM3_TPD)) = false → scrubSoon s c r (d + ck8 s c (fget s (CH c) CH_TIM3_TXP + fget s (CH c) CH_TIM3_TPD)) = false →
    ∃ t, exec (.rankPowerDown c r) s = .next t ∧ t.d8 = d ∧ (t.chan c).pd[r] = true ∧ (t.chan c).pdAt8[r] = d ∧ bitOf (fget t (CH c) CH_STATUS_RANK_PD) r = true
      ∧ fget t (CH c) CH_PDENT_COUNT = min (fget s (CH c) CH_PDENT_COUNT + 1) (2 ^ 32 - 1) ∧ sameStore s t) ∧
  (∀ (c : Fin 16) (r : Fin 2) (s : State), chanRuns s c = false ∨ fget s (CH c) CH_PD_IDLE = 0 ∨ (s.chan c).pd[r] = true ∨ (s.bist.phyRun[c]).isSome = true → exec (.rankPowerDown c r) s = .next s) ∧
  (∀ (c : Fin 16) (s : State), dtimeRuns s = true →
    ∃ t, exec (.alignedMillisecondEnd c) s = .next t ∧ (t.chan c).ueMs = 0 ∧ t.d8 = firstCycle8 s (8 * (((if (s.chan c).ueMs = 0 then s.ns / 1000000 else (s.chan c).ueAt) + 1) * 1000000)) ∧ sameStore s t)

/-- Background work of a channel: marks, the sparing rewrite, patrol scrub and background slots (09_dram_channels.md R287, 09_dram_channels.md R288, 10_dram_integrity.md R299, 10_dram_integrity.md R300, 10_dram_integrity.md R307, 10_dram_integrity.md R326). Where it rests on the model's own reading or choice, log entries 10, 22 and 121 say so. -/
def Obligations.BackgroundWorkDone : Prop :=
  (∀ (c : Fin 16) (r : Fin 2) (dev : Nat) (s : State), verbReady s = true → inMap s c = true → inService s c = true → r.val < geoRanks s → dev < geoDevs s → markOf s c r = none →
    ∃ t, exec (.markCommand c r dev) s = .next t ∧ t.con.ans = [okLn []] ∧ markOf t c r = some dev ∧ (t.chan c).spareQ = (s.chan c).spareQ ++ [r] ∧ fbit t (CH c) CH_SPARE_BUSY = true
      ∧ fbit t (CH c) CH_INTSTAT_MARK = true ∧ t.d8 = s.d8 ∧ sameStore s t) ∧
  (∀ (c : Fin 16) (r : Fin 2) (dev : Nat) (s : State), verbReady s = true → inMap s c = false ∨ inService s c = false →
    ∃ t, exec (.markCommand c r dev) s = .next t ∧ answered [erLn 450 "mark refused" [("ch", .n c), ("rank", .n r), ("reason", .s "state")]] s t) ∧
  (∀ (c : Fin 16) (r : Fin 2) (q : List (Fin 2)) (lam : Nat) (sym : List SymErr) (s : State), (s.chan c).spareQ = r :: q → lamOf s r (fget s (CH c) CH_SPAREPTR_PTR + spareOut s c) = some lam →
    fget s (CH c) CH_SPAREPTR_PTR + spareOut s c < rankLines s → (s.chan c).spareLeft ≠ 0 → bgRoom s c .background = true → ((s.chan c).intake.any fun x => x.src == .spare) = false → displaced s c lam = false →
    ∃ t, exec (.spareRewrite c sym) s = .next t ∧ (t.chan c).intake = (s.chan c).intake ++ [{ src := .spare, line := lam, wr := false, slot := .background, sym := sym }]
      ∧ (t.chan c).spareLeft = (s.chan c).spareLeft - 1 ∧ fget t (CH c) CH_BGLINE_COUNT = min (fget s (CH c) CH_BGLINE_COUNT + 2) (2 ^ 32 - 1)
      ∧ (t.chan c).spareQ = r :: q ∧ fget t (CH c) CH_SPAREPTR_PTR = fget s (CH c) CH_SPAREPTR_PTR ∧ t.d8 = s.d8 ∧ sameStore s t) ∧
  (∀ (z : ChPick) (c : Fin 16) (x : Cmd) (r : Fin 2) (q : List (Fin 2)) (u s : State), z.ch = c → s = actAll z.errs u → settled s → chanRuns s c = true → (s.chan c).inord = none → (s.chan c).line.length < 64 → (s.chan c).intake = [] → (s.chan c).mergeQ = [x] →
    x.src = .spare → x.wr = true → writeRoom s c x = true → displaced s c x.line = false → s.bist.dram[c] = none → (s.chan c).spareQ = r :: q → fget s (CH c) CH_SPAREPTR_PTR + 1 < rankLines s →
    ∃ t, exec (.commandAdmission z) u = .next t ∧ fget t (CH c) CH_SPAREPTR_PTR = fget s (CH c) CH_SPAREPTR_PTR + 1 ∧ (t.chan c).locks = (s.chan c).locks.erase x.line ∧ (t.chan c).mergeQ = []
      ∧ (t.chan c).line.length = (s.chan c).line.length + 1 ∧ (t.chan c).spareQ = r :: q ∧ sameStore s t) ∧
  (∀ (c : Fin 16) (sym : List SymErr) (s : State), (s.chan c).spareQ = [] ∨ chanRuns s c = false → exec (.spareRewrite c sym) s = .next s) ∧
  (∀ (c : Fin 16) (b : Int) (p : Nat) (sym again : List SymErr) (s : State), p = fget s (CH c) CH_SCRUB_POS → fbit s (CH c) CH_ECCCFG_SCRUB_EN = true → allowed s 2 = true → bgRoom s c .background = true →
    displaced s c p = false → payBucket s c (s.chan c).bkScr 1 = some b →
    ∃ t, exec (.scrubRead c sym again) s = .next t ∧ (t.chan c).bkScr = b ∧ fget t (CH c) CH_SCRUB_POS = (if installed s c ≤ p + 1 then 0 else p + 1)
      ∧ (t.chan c).intake = (s.chan c).intake ++ [{ src := .scrub, line := p, wr := false, slot := .background, sym := sym, again := again, byScrub := true, defr := true }]
      ∧ fget t (CH c) CH_BGLINE_COUNT = min (fget s (CH c) CH_BGLINE_COUNT + 1) (2 ^ 32 - 1) ∧ t.d8 = s.d8 ∧ sameStore s t) ∧
  (∀ (c : Fin 16) (f : Flight) (again : List SymErr) (errs : List JournalErr) (u s : State), s = actAll errs u → settled s → chanRuns s c = true → (s.chan c).lost = false → (s.chan c).flight = [f] → f.burst = true → f.window = false → f.cmd.src = .scrub → f.cmd.sym = [] → f.cmd.reread = false →
    f.cmd.psn = false → markOf s c (bankOf s f.cmd.line).rank = none →
    ∃ t, exec (.burstDecode c [] again errs) u = .next t ∧ (t.chan c).flight = [] ∧ (t.chan c).locks = (s.chan c).locks.erase f.cmd.line
      ∧ fget t (CH c) CH_SCRUB_LINES_COUNT = min (fget s (CH c) CH_SCRUB_LINES_COUNT + 1) (2 ^ 32 - 1) ∧ sameStore s t) ∧
  (∀ (c : Fin 16) (sym again : List SymErr) (s : State), chanRuns s c = false → exec (.scrubRead c sym again) s = .next s) ∧
  (∀ (c : Fin 16) (idx : Nat) (ecc : LineEcc) (r : BgReq) (s u : State), (s.chan c).bg[idx]? = some r → bgRoom s c r.cmd.slot = true → bgOffered s c r.cmd = true → bgPay s c r.cls = some u → isBist r.cmd = false ∨ Memory.wf s.dram →
    ∃ t, exec (.backgroundGrant c ⟨idx, ecc⟩) s = .next t ∧ (t.chan c).intake = (s.chan c).intake ++ [{ r.cmd with defr := (bgItem u r.cmd).isSome }] ∧ (t.chan c).bg = (s.chan c).bg.eraseIdx idx
      ∧ (t.chan c).bkMig = (u.chan c).bkMig ∧ (t.chan c).bkBst = (u.chan c).bkBst ∧ (r.cls = .mig → 16 ≤ (s.chan c).bkMig → (t.chan c).bkMig = (s.chan c).bkMig - 16)
      ∧ fget t (CH c) CH_BGLINE_COUNT = min (fget s (CH c) CH_BGLINE_COUNT + 1) (2 ^ 32 - 1) ∧ t.d8 = s.d8 ∧ t.dram = s.dram ∧ t.wmem = s.wmem ∧ t.streams = s.streams) ∧
  (∀ (c : Fin 16) (idx : Nat) (ecc : LineEcc) (s : State), (s.chan c).bg.length ≤ idx ∨ chanRuns s c = false ∨ windowRoom s c = false → exec (.backgroundGrant c ⟨idx, ecc⟩) s = .next s)

/-- Proofing pauses, and the relock after self-refresh: TXS, one REFab and one pause of each kind for each rank, and then service, or READY outside the map (11_phy_training.md R341, 11_phy_training.md R342, 12_energy_ledger.md R356, 11_phy_training.md R340, 14_power_states.md R409, 14_power_states.md R412). Where it rests on the model's own reading or choice, log entries 1, 10, 58, 59 and 122 say so. -/
def Obligations.PausesAndRelock : Prop :=
  (∀ (c : Fin 16) (s : State), chanRuns s c = true → flushOn s = false → fbit s (PHY c) PHY_CTL_PROOF_EN = true → (s.phy c).due = none → (s.phy c).active = none →
    ∃ t, exec (.proofPauseDue c) s = .next t ∧ t.d8 = firstCycle8 s (8 * ((s.phy c).lastNs + intNs s c)) ∧ (t.phy c).due = some t.ns ∧ (t.phy c).mustRun = false ∧ t.chans = s.chans ∧ sameRegs s t) ∧
  (∀ (c : Fin 16) (s : State), chanRuns s c = false ∨ flushOn s = true ∨ fbit s (PHY c) PHY_CTL_PROOF_EN = false ∨ (s.phy c).due.isSome = true ∨ (s.phy c).active.isSome = true →
    exec (.proofPauseDue c) s = .next s) ∧
  (∀ (c : Fin 16) (s : State), chanRuns s c = true → (s.phy c).active = none → (s.phy c).stopped = true → (s.chan c).flight.any Flight.window = false → (s.chan c).replay = none →
    s.bist.phyRun[c] = none → entering s = false → flushOn s = false →
    ∃ t, exec (.proofPauseStart c) s = .next t ∧ (t.phy c).active = some (nextPause s c, t.d8) ∧ (t.phy c).due = none ∧ (t.phy c).stopped = true ∧ (t.phy c).mustRun = false
      ∧ (t.chan c).rows = (s.chan c).rows.filter (fun x => x.1 / 32 ≠ (nextPause s c).rank.val) ∧ (t.chan c).pd[(nextPause s c).rank] = false
      ∧ firstCycle8 s (burstEnd8 s c) ≤ t.d8 ∧ t.dram = s.dram ∧ t.wmem = s.wmem ∧ t.ix = s.ix) ∧
  (∀ (c : Fin 16) (t0 : Nat) (s : State), chanRuns s c = true → entering s = false → flushOn s = false → (s.phy c).active = none → (s.phy c).stopped = false → (s.phy c).due = some t0 → (s.phy c).mustRun = false →
    allowed s 0 = false → s.ns ≤ t0 + intNs s c → exec (.proofPauseStart c) s = .next (if pauseRoom s c then updPhy c (fun y => { y with held := true }) s else s)) ∧
  (∀ (c : Fin 16) (s : State), chanRuns s c = false ∨ entering s = true ∨ flushOn s = true ∨ (s.phy c).active.isSome = true → exec (.proofPauseStart c) s = .next s) ∧
  (∀ (c : Fin 16) (k : PauseKind) (at8 : Nat) (res : PauseRes) (s : State), (s.phy c).active = some (k, at8) → s.pwr.mode = .run → (s.phy c).parkDue = false → (∀ r : Fin 2, (s.chan c).refDebt[r] = 0) →
    ∃ t, exec (.proofPauseEnd c res) s = .next t ∧ t.d8 = firstCycle8 s (at8 + chCk8 s c (pauseLen s c k)) ∧ (t.phy c).active = none ∧ (t.phy c).stopped = false ∧ (t.phy c).lastNs = t.ns
      ∧ fget t (PHY c) PHY_STATUS_NEXT = pauseAfter s k ∧ fget t (PHY c) PHY_PAUSES_COUNT = min (fget s (PHY c) PHY_PAUSES_COUNT + 1) (2 ^ 32 - 1)
      ∧ (1100 * 16 ≤ (s.chan c).bkPause → (t.chan c).bkPause = (s.chan c).bkPause - 16 * (pauseLen s c k : Int)) ∧ (t.chan c).pauseAborts = 0
      ∧ t.dram = s.dram ∧ t.wmem = s.wmem ∧ t.streams = s.streams ∧ t.mans = s.mans) ∧
  (∀ (c : Fin 16) (k : PauseKind) (at8 : Nat) (res : PauseRes) (s : State), (s.phy c).active = some (k, at8) → s.pwr.mode = .run →
    ∃ t, exec (.proofPauseEnd c res) s = .next t ∧ (t.phy c).active = none ∧ ((s.phy c).parkDue = true → chState t c = 4 ∧ (t.phy c).parkDue = false ∧ (t.phy c).relock = (!s.pwr.halted && s.pwr.warm != .noClock))
      ∧ ((s.phy c).parkDue = false → ∀ r : Fin 2, (t.chan c).refDebt[r] = 0) ∧ t.dram = s.dram ∧ t.wmem = s.wmem) ∧
  (∀ (c : Fin 16) (res : PauseRes) (s : State), (s.phy c).active = none ∨ s.pwr.mode ≠ .run → exec (.proofPauseEnd c res) s = .next s) ∧
  (∀ (c : Fin 16) (t0 : Nat) (s : State), (s.phy c).due = some t0 → (s.phy c).stopped = false → chanRuns s c = true →
    ∃ t, exec (.pauseHoldbackExpiry c) s = .next t ∧ (t.phy c).mustRun = true ∧ t.d8 = firstCycle8 s (8 * (t0 + 4 * intNs s c)) ∧ t.chans = s.chans
      ∧ fget t (PHY c) PHY_LATE_COUNT = (if ((s.phy c).held || !allowed s 0) && !(s.phy c).lateCounted then min (fget s (PHY c) PHY_LATE_COUNT + 1) (2 ^ 32 - 1) else fget s (PHY c) PHY_LATE_COUNT)
      ∧ (∀ a, a ≠ PHY c + PHY_LATE_COUNT.off → rg t a = rg s a) ∧ sameStore s t) ∧
  (∀ (c : Fin 16) (s : State), (s.phy c).due = none ∨ (s.phy c).stopped = true ∨ chanRuns s c = false → exec (.pauseHoldbackExpiry c) s = .next s) ∧
  (∀ (c : Fin 16) (s : State), settled s → s.pwr.dozeExit = none → s.pwr.wake ≠ some .resuming → (s.phy c).relock = true → s.pwr.mode = .run → (s.phy c).active = none → s.pwr.halted = false → (s.chan c).replayDue = false → s.bist.dram[c] = none →
    ∃ t, exec (.relockDone c []) s = .next t ∧ chState t c = (if inMap s c then 3 else 2) ∧ (t.phy c).relock = false
      ∧ t.d8 = s.d8 + (cdiv (ck8 s c (fget s (CH c) CH_TIM6_TXS)) (coreTick8 s) + cdiv (ck8 s c (fget s (CH c) CH_TIM5_TRFC1)) (coreTick8 s)
          + geoRanks s * (cdiv (chCk8 s c (pauseLen s c (.timing 0))) (coreTick8 s) + cdiv (chCk8 s c (pauseLen s c (.vref 0))) (coreTick8 s))) * coreTick8 s
      ∧ bitOf (fget t GLB GLB_CLKSTAT_CH_LOCK) c = true
      ∧ fget t (CH c) CH_REFAB_COUNT = min (fget s (CH c) CH_REFAB_COUNT + geoRanks s) (2 ^ 32 - 1)
      ∧ fget t (PHY c) PHY_PAUSES_COUNT = min (fget s (PHY c) PHY_PAUSES_COUNT + 2 * geoRanks s) (2 ^ 32 - 1)
      ∧ (inMap s c = true → (t.chan c).lost = false ∧ (t.chan c).rows = [] ∧ (t.chan c).refDebt = Vector.replicate 2 0) ∧ sameStore s t) ∧
  (∀ (c : Fin 16) (res : List PauseRes) (s : State), settled s → s.pwr.dozeExit = none → s.pwr.wake ≠ some .resuming → (s.phy c).relock = false ∨ s.pwr.mode ≠ .run ∨ (s.phy c).active.isSome = true ∨ s.pwr.halted = true → exec (.relockDone c res) s = .next s) ∧
  (∀ (c : Fin 16) (k : Nat) (s : State), settled s → s.pwr.dozeExit = some k → s.pwr.wake = none → s.pwr.warmAfter = none → (s.phy c).relock = true → s.pwr.mode = .run → (s.phy c).active = none →
    s.pwr.halted = false → (s.chan c).replayDue = false → s.bist.dram[c] = none → inMap s c = true → (∀ d ∈ members s, d ≠ c → (s.chan d).lost = true ∨ inService s d = true) →
    ∃ t, exec (.relockDone c []) s = .next t ∧ chState t c = 3 ∧ t.pwr.dozeExit = none ∧ fget t PWR PWR_STATE_SUB = 0 ∧ (t.chan c).mr4At = 0 ∧ sameStore s t) ∧
  (∀ (c : Fin 16) (s : State), settled s → s.pwr.dozeExit = none → s.pwr.wake = some .resuming → (s.phy c).relock = true → s.pwr.mode = .run → (s.phy c).active = none →
    s.pwr.halted = false → (s.chan c).replayDue = false → s.bist.dram[c] = none → inMap s c = true → (∀ d ∈ members s, d ≠ c → (s.chan d).lost = true ∨ inService s d = true) →
    ∃ t, exec (.relockDone c []) s = .next t ∧ chState t c = 3 ∧ t.pwr.wake = none ∧ fget t PWR PWR_STATE_SUB = 0
      ∧ t.con.ans = [okLn [("channels", .n ((members t).filter (inService t)).length)]] ∧ sameStore s t)

/-- Training: its start, its steps, its failures, and its end in FILL (11_phy_training.md R334, 11_phy_training.md R335, 11_phy_training.md R337, 11_phy_training.md R339, 11_phy_training.md R350). Where it rests on the model's own reading or choice, log entries 24, 55 and 57 say so. -/
def Obligations.TrainingRuns : Prop :=
  (∀ (c : Fin 16) (manual : Bool) (s : State), verbReady s = true → trainable s c = true →
    ∃ t, exec (.trainStart c manual []) s = .next t
      ∧ t.con.ans = [okLn ([("ch", .n c), ("state", .s "training")] ++ (if manual then [("step", .s "reset")] else []))] ∧ chState t c = 1
      ∧ (t.phy c).trn = some (s.ns, manual) ∧ (t.phy c).trnHold = false ∧ fget t (PHY c) PHY_TRN_STATUS_STEP = 1 ∧ fbit t (PHY c) PHY_TRN_STATUS_BUSY = true
      ∧ (t.chan c).trnRate = rateCode s c ∧ bitOf (fget t GLB GLB_CLKSTAT_CH_LOCK) c = true ∧ t.d8 = s.d8 ∧ sameStore s t) ∧
  (∀ (c : Fin 16) (manual : Bool) (ans : List StepAns) (s : State), verbReady s = true → trainable s c = false →
    ∃ t, exec (.trainStart c manual ans) s = .next t ∧ answered [erLn 460 "training refused" [("ch", .n c), ("state", .s (chWord (chState s c)))]] s t) ∧
  (∀ (c : Fin 16) (manual : Bool) (ans : List StepAns) (s : State), consoleOn s = false → exec (.trainStart c manual ans) s = .next s ∧ exec (.trainEnd c ans) s = .next s) ∧
  (∀ (c : Fin 16) (s : State), verbReady s = true → (s.phy c).trnHold = true →
    ∃ t, exec (.trainEnd c []) s = .next t ∧ t.con.ans = [okLn [("ch", .n c), ("state", .s "training")]] ∧ (t.phy c).trnHold = false ∧ (t.phy c).trnEnd = true
      ∧ (t.phy c).trn = some (s.ns, true) ∧ fget t (PHY c) PHY_TRN_STATUS_STEP = 4 ∧ t.d8 = s.d8 ∧ sameStore s t) ∧
  (∀ (c : Fin 16) (ans : List StepAns) (s : State), verbReady s = true → (s.phy c).trnHold = false →
    ∃ t, exec (.trainEnd c ans) s = .next t ∧ t.con.ans = [erLn 461 "helper refused" [("ch", .n c), ("state", .s (chWord (chState s c)))]] ∧ fbit t (PHY c) PHY_STATUS_WR_REJ = true
      ∧ t.phys = s.phys ∧ t.d8 = s.d8 ∧ sameStore s t) ∧
  (∀ (c : Fin 16) (k t0 : Nat) (manual : Bool) (a : StepAns) (s : State), s.pwr.mode = .run → (s.phy c).trn = some (t0, manual) → (s.phy c).trnHold = false → fget s (PHY c) PHY_TRN_STATUS_STEP = k →
    stepVerdict s c k a = some none → k < 15 → ¬(manual = true ∧ (k = 1 ∨ k = 4)) → ¬((s.chan c).restoring = true ∧ k = 14) →
    ∃ t, exec (.trainingComplete c [a]) s = .next t ∧ fget t (PHY c) PHY_TRN_STATUS_STEP = k + 1 ∧ (t.phy c).trn = some (s.ns, manual) ∧ chState t c = chState s c
      ∧ t.d8 = s.d8 ∧ t.dram = s.dram ∧ t.wmem = s.wmem ∧ t.streams = s.streams) ∧
  (∀ (c : Fin 16) (t0 : Nat) (s : State), s.pwr.mode = .run → (s.phy c).trn = some (t0, true) → (s.phy c).trnHold = false → (s.phy c).trnEnd = false → fget s (PHY c) PHY_TRN_STATUS_STEP = 1 →
    ∃ t, exec (.trainingComplete c [.reset true]) s = .next t ∧ (t.phy c).trnHold = true ∧ t.chans = s.chans ∧ sameRegs s t) ∧
  (∀ (c : Fin 16) (t0 : Nat) (manual : Bool) (a : StepAns) (f : TrnFail) (s : State), s.pwr.mode = .run → (s.phy c).trn = some (t0, manual) → (s.phy c).trnHold = false →
    stepVerdict s c (fget s (PHY c) PHY_TRN_STATUS_STEP) a = some (some f) →
    ∃ t, exec (.trainingComplete c [a]) s = .next t ∧ chState t c = 8 ∧ (t.phy c).trn = none ∧ fbit t (PHY c) PHY_TRN_STATUS_FAIL = true ∧ fget t (PHY c) PHY_TRN_STATUS_REASON = f.1 % 16
      ∧ fbit t (PHY c) PHY_TRN_STATUS_BUSY = false ∧ t.d8 = s.d8 ∧ sameStore s t) ∧
  (∀ (c : Fin 16) (t0 : Nat) (s : State), s.pwr.mode = .run → (s.phy c).trn = some (t0, false) → (s.phy c).trnHold = false → fget s (PHY c) PHY_TRN_STATUS_STEP = 15 → (s.chan c).restoring = false →
    ∃ t, exec (.trainingComplete c [.fill]) s = .next t ∧ chState t c = 2 ∧ (t.phy c).trn = none ∧ (t.phy c).valid = true ∧ fbit t (PHY c) PHY_TRN_STATUS_DONE = true ∧ fbit t (PHY c) PHY_TRN_STATUS_BUSY = false
      ∧ (∀ l, dramPsn t c l = false)
      ∧ (∀ l, l < 2 ^ 30 → (∀ f ∈ s.que.frames, ∀ k, k < 32 → bitOf f.2.valid.toNat k = true → ∀ p, placeOf s (cellLineNo s f.2.block k) = some p → p.ch = c → p.lam ≠ l) → dramLine t c l = 0) ∧ (Memory.wf s.dram → ∀ k l, k ≠ c → l < 2 ^ 30 → dramLine t k l = dramLine s k l) ∧ t.d8 = s.d8 ∧ t.wmem = s.wmem ∧ t.streams = s.streams) ∧
  (∀ (c : Fin 16) (ans : List StepAns) (s : State), s.pwr.mode ≠ .run ∨ (s.phy c).trn = none → exec (.trainingComplete c ans) s = .next s) ∧
  (∀ (c : Fin 16) (t0 : Nat) (manual : Bool) (s : State), (s.phy c).trn = some (t0, manual) → (s.phy c).trnHold = false → fget s (PHY c) PHY_TRN_STATUS_STEP ≠ 15 → dtimeRuns s = true →
    ∃ t, exec (.trainingStepTimeout c) s = .next t ∧ chState t c = 8 ∧ (t.phy c).trn = none ∧ fget t (PHY c) PHY_TRN_STATUS_REASON = 11 ∧ t.d8 = firstCycle8 s (8 * (t0 + 50000000)) ∧ sameStore s t) ∧
  (∀ (c : Fin 16) (s : State), (s.phy c).trn = none ∨ (s.phy c).trnHold = true ∨ fget s (PHY c) PHY_TRN_STATUS_STEP = 15 ∨ dtimeRuns s = false → exec (.trainingStepTimeout c) s = .next s) ∧
  (∀ (c : Fin 16) (t0 : Nat) (s : State), (s.phy c).trn = some (t0, true) → (s.phy c).trnEnd = false → dtimeRuns s = true →
    ∃ t, exec (.manualTrainingTimeout c) s = .next t ∧ chState t c = 8 ∧ (t.phy c).trn = none ∧ fget t (PHY c) PHY_TRN_STATUS_REASON = 11
      ∧ t.d8 = firstCycle8 s (8 * ((s.phy c).trnManualAt + 10000000000)) ∧ sameStore s t) ∧
  (∀ (c : Fin 16) (s : State), (s.phy c).trn.map (fun x => x.2) ≠ some true ∨ (s.phy c).trnEnd = true ∨ dtimeRuns s = false → exec (.manualTrainingTimeout c) s = .next s)

/-- The helpers of a channel in training: sweeps and the compare engine (11_phy_training.md R331, 11_phy_training.md R332, 11_phy_training.md R333, 11_phy_training.md R350). Where it rests on the model's own reading or choice, log entries 56, 58, 135 and 136 say so. -/
def Obligations.HelpersSweep : Prop :=
  (∀ (c : Fin 16) (s : State), blockOn s (PHY c) = true → chState s c = 1 →
    (∃ t, exec (.sweepStart c none) s = .next t ∧ (t.phy c).sweep = true ∧ fbit t (PHY c) PHY_SWP_STATUS_BUSY = true ∧ t.d8 = s.d8 ∧ sameStore s t) ∧
    (∃ t, exec (.compareClear c) s = .next t ∧ ixGet t (PHY c) 0x19FF = 0 ∧ (∀ b, b < 72 → (ixGet t (PHY c) (0x1900 + b)).toNat = (ixGet s (PHY c) (0x1900 + b)).toNat / 65536 * 65536)
      ∧ t.phys = s.phys ∧ t.d8 = s.d8 ∧ t.dram = s.dram ∧ t.wmem = s.wmem ∧ t.streams = s.streams)) ∧
  (∀ (c : Fin 16) (s : State), blockOn s (PHY c) = true → chState s c ≠ 1 →
    (∃ t, exec (.sweepStart c none) s = .next t ∧ fbit t (PHY c) PHY_STATUS_WR_REJ = true ∧ t.phys = s.phys ∧ sameStore s t) ∧
    (∃ t, exec (.compareClear c) s = .next t ∧ fbit t (PHY c) PHY_STATUS_WR_REJ = true ∧ t.phys = s.phys ∧ sameStore s t)) ∧
  (∀ (c : Fin 16) (f : SweepForm) (s : State), verbReady s = true → sweepBad f = none → blockOn s (PHY c) = true → chState s c = 1 →
    ∃ t, exec (.sweepStart c (some f)) s = .next t ∧ t.con.wait = some (.sweep c) ∧ t.con.ans = [] ∧ (t.phy c).sweep = true ∧ fbit t (PHY c) PHY_SWP_STATUS_BUSY = true
      ∧ fget t (PHY c) PHY_SWP_CTL_CTRL = f.ctrl ∧ fget t (PHY c) PHY_SWP_CTL_RANK = f.rank ∧ fget t (PHY c) PHY_SWP_RANGE_FIRST = f.first ∧ fget t (PHY c) PHY_SWP_RANGE_LAST = f.last
      ∧ fget t (PHY c) PHY_SWP_STEP_STEP = f.step ∧ fget t (PHY c) PHY_SWP_CNT_BURSTS = f.bursts ∧ fbit t (PHY c) PHY_SWP_CTL_APPLY = f.app ∧ t.d8 = s.d8 ∧ sameStore s t) ∧
  (∀ (c : Fin 16) (f : SweepForm) (e : OutLn) (s : State), verbReady s = true → sweepBad f = some e → ∃ t, exec (.sweepStart c (some f)) s = .next t ∧ answered [e] s t) ∧
  (∀ (c : Fin 16) (f : SweepForm) (s : State), verbReady s = true → sweepBad f = none → blockOn s (PHY c) = true → chState s c ≠ 1 →
    ∃ t, exec (.sweepStart c (some f)) s = .next t ∧ t.con.ans = [erLn 461 "helper refused" [("ch", .n c), ("state", .s (chWord (chState s c)))]] ∧ fbit t (PHY c) PHY_STATUS_WR_REJ = true
      ∧ t.phys = s.phys ∧ t.chans = s.chans ∧ t.d8 = s.d8 ∧ sameStore s t) ∧
  (∀ (c : Fin 16) (got : List Probe) (k : Nat) (l : List (Nat × List Bool)) (s u : State), (s.phy c).sweep = true → chState s c = 1 → s.con.wait ≠ some (.sweep c) → k = fget s (PHY c) PHY_SWP_CTL_CTRL →
    u = (if fget s (PHY c) PHY_SWP_CTL_SRC = 1 then sweepWrite c (fget s (PHY c) PHY_SWP_CTL_RANK) ((sweepPoints s c).length * fget s (PHY c) PHY_SWP_CNT_BURSTS) s else s) → l = (sweepScan c got (sweepPoints s c) 0 u).1 →
    ∃ t, exec (.sweepDone c got) s = .next t ∧ (t.phy c).sweep = false ∧ fbit t (PHY c) PHY_SWP_STATUS_BUSY = false ∧ fbit t (PHY c) PHY_SWP_STATUS_DONE = true
      ∧ (∀ n ∈ ctrlUnits s k, ∀ a b, unitEye s k n l = some (a, b) → a ≤ b →
          ixGet t (PHY c) (0x2000 + n) = BitVec.ofNat 32 (a % 2 ^ 14 + b % 2 ^ 14 * 2 ^ 16)
          ∧ ixGet t (PHY c) (0x2100 + n) = BitVec.ofNat 32 ((a + b) / 2 % 2 ^ 14 + (b - a + 1) % 2 ^ 14 * 2 ^ 16))
      ∧ (∀ n ∈ ctrlUnits s k, unitEye s k n l = none → (ixGet t (PHY c) (0x2100 + n)).toNat / 2 ^ 16 % 2 ^ 14 = 0)
      ∧ (∀ p b, sweepPoints s c = [p] → b < 72 → bitMasked s c b = false → errCount t c b = min 65535 (laneDiffs s c b 0 (gotAt got p (fget s (PHY c) PHY_SWP_CNT_BURSTS))).length)
      ∧ t.d8 = s.d8 ∧ t.con = s.con ∧ t.dram = u.dram ∧ t.wmem = s.wmem ∧ t.streams = s.streams) ∧
  (∀ (c : Fin 16) (got : List Probe) (s : State), (s.phy c).sweep = true → chState s c = 1 → s.con.wait = some (.sweep c) →
    ∃ t, exec (.sweepDone c got) s = .next t ∧ (t.phy c).sweep = false ∧ t.con.wait = none ∧ t.con.ans = [sweepAnswer c true t] ∧ t.d8 = s.d8 ∧ (fget s (PHY c) PHY_SWP_CTL_SRC ≠ 1 → t.dram = s.dram) ∧ t.wmem = s.wmem) ∧
  (∀ (c : Fin 16) (got : List Probe) (s : State), (s.phy c).sweep = true → chState s c ≠ 1 → s.con.wait ≠ some (.sweep c) →
    ∃ t, exec (.sweepDone c got) s = .next t ∧ (t.phy c).sweep = false ∧ fbit t (PHY c) PHY_SWP_STATUS_BUSY = false ∧ fbit t (PHY c) PHY_SWP_STATUS_DONE = fbit s (PHY c) PHY_SWP_STATUS_DONE
      ∧ t.d8 = s.d8 ∧ t.con = s.con ∧ sameStore s t) ∧
  (∀ (c : Fin 16) (got : List Probe) (s : State), (s.phy c).sweep = false → s.con.wait ≠ some (.sweep c) → exec (.sweepDone c got) s = .next s)

/-- The load of the address map and of a built-in timing profile, and their refusals (09_dram_channels.md R273, 09_dram_channels.md R275, 09_dram_channels.md R276, 09_dram_channels.md R284, 09_dram_channels.md R285). Where it rests on the model's own reading or choice, log entries 10 and 124 say so. -/
def Obligations.MapAndTimingLoad : Prop :=
  (∀ (s : State), blockOn s GLB = true → mapCheck s = none →
    ∃ t, exec .mapLoad s = .next t ∧ mapLoaded t = true ∧ (∀ c, inMap t c = (mapMembers s).contains c) ∧ fget t GLB GLB_MAP_MEMBERS_COUNT = (mapMembers s).length
      ∧ (∀ c ∈ mapMembers s, chState t c = 3 ∧ (t.chan c).lost = false ∧ (t.chan c).rows = [] ∧ (t.chan c).bkMig = 1024 ∧ (t.phy c).due = none)
      ∧ (∀ c, c ∉ mapMembers s → t.chan c = s.chan c ∧ t.phy c = s.phy c ∧ chState t c = chState s c)
      ∧ fget t GLB GLB_MAP_TOP_TOP_MB = topLines t / 8192 % 2 ^ 32 ∧ t.d8 = s.d8 ∧ sameStore s t) ∧
  (∀ (k : Nat) (s : State), blockOn s GLB = true → mapCheck s = some k →
    ∃ t, exec .mapLoad s = .next t ∧ fbit t GLB GLB_MAP_CTL_REJ = true ∧ fget t GLB GLB_MAP_CTL_REASON = k % 8 ∧ mapLoaded t = mapLoaded s
      ∧ (∀ a, a ≠ GLB + GLB_MAP_CTL_REJ.off → rg t a = rg s a) ∧ t.chans = s.chans ∧ t.phys = s.phys ∧ t.d8 = s.d8 ∧ sameStore s t) ∧
  (∀ (s : State), blockOn s GLB = false → exec .mapLoad s = .next s) ∧
  (∀ (c : Fin 16) (s : State), blockOn s (CH c) = true → s.guard = none → timOpen s c = true →
    ∃ t, exec (.loadTimingProfile c) s = .next t ∧ fget t (CH c) CH_TIM0_CL = profCl (rateCode s c) % 256 ∧ fget t (CH c) CH_TIM0_CWL = profCwl (rateCode s c) % 256
      ∧ fget t (CH c) CH_TIM0_TRCD = profTrcd (rateCode s c) % 256 ∧ fget t (CH c) CH_TIM0_TRP = profTrcd (rateCode s c) % 256 ∧ fget t (CH c) CH_TIM1_TRRD_S = 8
      ∧ fget t (CH c) CH_TIM4_TRAS = prof (rateCode s c) 0 320 % 256 ∧ fget t (CH c) CH_TIM5_TRFC1 = prof (rateCode s c) 0 4100 % 4096 ∧ fget t (CH c) CH_TIM6_TREFI = prof (rateCode s c) 0 39000 % 65536
      ∧ (∀ a, a < CH c + CH_TIM0_CL.off ∨ CH c + CH_TIM6_TXS.off < a → rg t a = rg s a) ∧ t.chans = s.chans ∧ t.d8 = s.d8 ∧ sameStore s t) ∧
  (∀ (c : Fin 16) (s : State), blockOn s (CH c) = true → s.guard = none → timOpen s c = false →
    ∃ t, exec (.loadTimingProfile c) s = .next t ∧ fbit t (CH c) CH_STATUS_TIM_REJ = true ∧ (∀ a, a ≠ CH c + CH_STATUS_TIM_REJ.off → rg t a = rg s a) ∧ chState t c = chState s c
      ∧ t.chans = s.chans ∧ t.d8 = s.d8 ∧ sameStore s t)

/-- Frames of the Waystation move, its layout is committed, and its pin table is set (07_waystation.md R201, 07_waystation.md R203, 07_waystation.md R204, 07_waystation.md R196, 07_waystation.md R197, 07_waystation.md R206, 12_energy_ledger.md R361). Where it rests on the model's own reading or choice, log entries 1, 10, 31 and 113 say so. -/
def Obligations.FramesLayoutAndPins : Prop :=
  (∀ (pin : Bool) (f : Nat) (s : State), coreRuns s = true → (s.frame pin f).st = .filling → (s.frame pin f).filled = 0xFFFF → (s.frame pin f).stale = 0 → segBusy s (s.frame pin f).seg false = false → findSeg s FrSt.hits (s.frame pin f).seg = none →
    ∃ t, exec (.promotionComplete pin f) s = .next t ∧ (t.frame pin f).st = (if pin then .pinned else .resident) ∧ (t.frame pin f).age = 3 ∧ (t.frame pin f).seg = (s.frame pin f).seg
      ∧ (t.frame pin f).owner = (s.frame pin f).owner ∧ (t.frame pin f).psn = (s.frame pin f).psn ∧ fget t WAY WAY_PROMO_COUNT = min (fget s WAY WAY_PROMO_COUNT + 1) (2 ^ 32 - 1)
      ∧ (∀ a, a ≠ WAY + WAY_PROMO_COUNT.off → rg t a = rg s a) ∧ t.chans = s.chans ∧ t.d8 = s.d8 ∧ sameStore s t) ∧
  (∀ (pin : Bool) (f : Nat) (s : State), coreRuns s = false ∨ (s.frame pin f).st ≠ .filling ∨ (s.frame pin f).filled ≠ 0xFFFF ∨ (s.frame pin f).stale ≠ 0 ∨ segBusy s (s.frame pin f).seg false = true ∨ (findSeg s FrSt.hits (s.frame pin f).seg).isSome = true →
    exec (.promotionComplete pin f) s = .next s) ∧
  (∀ (pin : Bool) (f : Nat) (s : State), coreRuns s = true → (s.frame pin f).st = .leaving → (s.frame pin f).dirty = 0 → (s.frame pin f).charge = [] → segBusy s (s.frame pin f).seg true = false →
    (s.frame pin f).thenRetire = false → (s.frame pin f).thenTest = false → (s.frame pin f).thenFill = none → (s.way.pinQueue.find? fun x => x.2 = (s.frame pin f).seg) = none →
    ∃ t, exec (.demotionComplete pin f) s = .next t ∧ t.frame pin f = {} ∧ fget t WAY WAY_DEMOTE_COUNT = min (fget s WAY WAY_DEMOTE_COUNT + 1) (2 ^ 32 - 1)
      ∧ (∀ a, a ≠ WAY + WAY_DEMOTE_COUNT.off → rg t a = rg s a) ∧ t.chans = s.chans ∧ t.d8 = s.d8 ∧ sameStore s t) ∧
  (∀ (pin : Bool) (f : Nat) (s : State), coreRuns s = false ∨ (s.frame pin f).st ≠ .leaving ∨ (s.frame pin f).dirty ≠ 0 ∨ (s.frame pin f).charge ≠ [] ∨ segBusy s (s.frame pin f).seg true = true →
    exec (.demotionComplete pin f) s = .next s) ∧
  (∀ (s : State), dtimeRuns s = true →
    ∃ t, exec .migrationEpoch s = .next t ∧ t.way.epoch = s.way.epoch + 1 ∧ t.way.epochEnd = s.way.epochEnd + epochNs s ∧ t.d8 = firstCycle8 s (8 * s.way.epochEnd)
      ∧ t.way.hot = (s.way.hot.map fun x => (x.1, x.2 / 2)).filter (fun x => x.2 ≠ 0) ∧ t.dram = s.dram ∧ t.streams = s.streams) ∧
  (∀ (s : State), dtimeRuns s = false → exec .migrationEpoch s = .next s) ∧
  (∀ (s : State), blockOn s WAY = true → fbit s WAY WAY_STATUS_COMMITTED = false →
    ∃ t, exec .layoutCommit s = .next t ∧ fbit t WAY WAY_STATUS_COMMITTED = true ∧ fget t WAY WAY_TIER_FRAMES = tierFrames s % 2 ^ 17 ∧ fget t WAY WAY_TIERRSV_RSV = tierFrames s / 32 % 2 ^ 17
      ∧ fget t WAY WAY_WALKSEG_TOTAL = carveW s * 1024 % 2 ^ 16 ∧ fget t WAY WAY_WALKSEG_FREE = (carveW s * 1024 - 320) % 2 ^ 16 ∧ t.way = { s.way with clearing := false } ∧ t.d8 = s.d8 ∧ sameStore s t) ∧
  (∀ (v : Word) (s : State), blockOn s WAY = true → s.guard = none → fbit s WAY WAY_STATUS_COMMITTED = false → carveOk v = true →
    ∃ t, exec (.wayCarveWrite v) s = .next t ∧ carveQ t = WAY_CARVE_QCACHE.get v ∧ carveW t = WAY_CARVE_WALK.get v ∧ carveP t = WAY_CARVE_PIN.get v
      ∧ (∀ a, a ≠ WAY + WAY_CARVE_QCACHE.off → rg t a = rg s a) ∧ t.way = s.way ∧ t.d8 = s.d8 ∧ sameStore s t) ∧
  (∀ (v : Word) (s : State), blockOn s WAY = true → s.guard = none → fbit s WAY WAY_STATUS_COMMITTED = true ∨ carveOk v = false →
    ∃ t, exec (.wayCarveWrite v) s = .next t ∧ fbit t WAY WAY_STATUS_CARVE_REJ = true ∧ (∀ a, a ≠ WAY + WAY_STATUS_CARVE_REJ.off → rg t a = rg s a) ∧ t.way = s.way ∧ sameStore s t) ∧
  (∀ (k : Fin 16) (s : State), blockOn s WAY = true → s.guard = none → s.way.pins[k].en = false → s.led.hold = none ∨ (pinBad s k).isSome = true →
    ∃ t, exec (.pinEnable k) s = .next t ∧ fbit t WAY WAY_STATUS_PIN_REJ = true ∧ (∀ a, a ≠ WAY + WAY_STATUS_PIN_REJ.off → rg t a = rg s a) ∧ t.way = s.way ∧ sameStore s t) ∧
  (∀ (k : Fin 16) (f : Nat) (s : State), blockOn s WAY = true → s.guard = none → s.way.pins[k].en = false → s.led.hold.isSome = true → pinBad s k = none → s.way.pins[k].segs = 1 →
    findSeg s (fun t => t == .filling || t.hits) (pinSeg0 s.way.pins[k]) = none → lowestFree (pinFrames s) s.way.pinned = some f →
    ∃ t, exec (.pinEnable k) s = .next t ∧ t.way.pins[k].en = true ∧ t.way.pins[k].pstate = 1 ∧ (t.frame true f).st = .filling ∧ (t.frame true f).seg = pinSeg0 s.way.pins[k]
      ∧ (t.frame true f).pin = some k ∧ t.way.tier = s.way.tier ∧ t.d8 = s.d8 ∧ t.dram = s.dram ∧ t.streams = s.streams ∧ t.mans = s.mans) ∧
  (∀ (k : Fin 16) (s : State), blockOn s WAY = true → s.guard = none → s.way.pins[k].en = true → exec (.pinEnable k) s = .next s) ∧
  (∀ (k : Fin 16) (s : State), blockOn s WAY = true → s.guard = none → s.way.pins[k].en = true → (∀ x ∈ s.way.pinned, x.2.pin ≠ some k) →
    ∃ t, exec (.pinDisable k) s = .next t ∧ t.way.pins[k].en = false ∧ t.way.pins[k].pstate = 0 ∧ t.way.pinQueue = s.way.pinQueue.filter (fun x => x.1 ≠ k)
      ∧ t.way.pinned = s.way.pinned ∧ t.way.tier = s.way.tier ∧ t.chans = s.chans ∧ sameRegs s t) ∧
  (∀ (k : Fin 16) (s : State), blockOn s WAY = true → s.guard = none → s.way.pins[k].en = false → exec (.pinDisable k) s = .next s)

/-- Stage images, stage ends, holds and retries of the walk engine (07_waystation.md R218, 07_waystation.md R221, 07_waystation.md R222, 07_waystation.md R224). Where it rests on the model's own reading or choice, log entries 1, 22, 51, 114 and 115 say so. -/
def Obligations.CaravansMove : Prop :=
  (∀ (h k st : Nat) (x : ImgSlot) (s : State), coreRuns s = true → (s.walkRt h).slots[k]? = some x → x.stage = some st → x.present = false → x.loaded + (imageReads s h k).length = x.total →
    (∀ r ∈ imageReads s h k, r.back.isSome = true) → (s.walkRt h).wanted = [] →
    ∃ t, exec (.stageImageLoaded h k) s = .next t ∧ ((t.walkRt h).slots[k]?).map ImgSlot.present = some true ∧ ((t.walkRt h).slots[k]?).map ImgSlot.stage = some (some st)
      ∧ (∀ c ∈ t.caravans, c.desc = h → c.stage = st → ∀ n, c.ph ≠ .waiting n) ∧ t.wreads = s.wreads.filter (fun r => !(r.image && r.a = h && r.b = k))
      ∧ fget t WLK WLK_LOAD_COUNT = (if x.loaded = 0 then min (fget s WLK WLK_LOAD_COUNT + 1) (2 ^ 32 - 1) else fget s WLK WLK_LOAD_COUNT)
      ∧ t.d8 = s.d8 ∧ sameStore s t) ∧
  (∀ (h k : Nat) (x : ImgSlot) (s : State), (s.walkRt h).slots[k]? = some x → x.present = true ∨ x.stage = none ∨ x.loaded + (imageReads s h k).length ≠ x.total → exec (.stageImageLoaded h k) s = .next s) ∧
  (∀ (ring : Fin 16) (x : Pick) (n : Nat) (c : Caravan) (keys : List KeySt) (u s : State), coreRuns u = true → s = actAll x.errs u → x.no = n → s.caravans = [c] → c.ring = ring → c.entry = n → c.ph = .image → imageKeys s c = some keys →
    c.stage + 1 = wdStages s c.desc → (∀ e ∈ s.streams, e.2.waiting = []) → (s.walkRt c.desc).wanted = [] →
    ∃ t, exec (.caravanStageEnd ring x) u = .next t ∧ t.caravans = [] ∧ t.wreads = s.wreads.filter (fun r => r.image || !(r.a = ring.val && r.b = n)) ∧ wdUse t c.desc ≤ wdUse s c.desc
      ∧ (c.reserve = true → fget t WLK WLK_STATUS_RSVCTX = fget s WLK WLK_STATUS_RSVCTX - 1) ∧ (c.reserve = false → (t.walkRt c.desc).ctx = (s.walkRt c.desc).ctx - 1)
      ∧ t.d8 = s.d8 ∧ t.dram = s.dram ∧ t.wmem = s.wmem) ∧
  (∀ (ring : Fin 16) (x : Pick) (u s : State), coreRuns u = true → s = actAll x.errs u → settled s → exec (.caravanStageEnd ring x) u = .next s) ∧
  (∀ (ring : Fin 16) (x : Pick) (s : State), coreRuns s = false → exec (.caravanStageEnd ring x) s = .next s) ∧
  (∀ (ring : Fin 16) (n since : Nat) (c : Caravan) (s : State), coreRuns s = true → s.caravan ring n = some c → c.ph = .waiting since →
    ∃ t c', exec (.walkHoldExpiry ring n) s = .next t ∧ t.caravan ring n = some c' ∧ c'.ph = .lines ∧ c'.bypassed = c.bypassed + 1 ∧ c'.stage = c.stage ∧ c'.desc = c.desc
      ∧ t.d8 = firstCycle8 s (8 * (since + wdHoldNs s c.desc)) ∧ fget t WLK WLK_BYPASS_COUNT = min (fget s WLK WLK_BYPASS_COUNT + 1) (2 ^ 32 - 1) ∧ sameStore s t) ∧
  (∀ (ring : Fin 16) (n : Nat) (s : State), coreRuns s = false ∨ s.caravan ring n = none → exec (.walkHoldExpiry ring n) s = .next s) ∧
  (∀ (i t0 : Nat) (r : WalkRead) (s : State), coreRuns s = true → s.wreads[i]? = some r → r.retryAt = some t0 →
    ∃ t, exec (.walkReadRetry i) s = .next t ∧ t.wreads = s.wreads.set i { r with retryAt := none } ∧ t.d8 = firstCycle8 s (8 * t0) ∧ t.caravans = s.caravans ∧ sameRegs s t) ∧
  (∀ (i : Nat) (s : State), coreRuns s = false ∨ (s.wreads[i]?).bind WalkRead.retryAt = none → exec (.walkReadRetry i) s = .next s)

/-- The `walk` verb: descriptors are defined, loaded and unloaded (07_waystation.md R212, 07_waystation.md R213, 07_waystation.md R214, 07_waystation.md R215, 07_waystation.md R233). Where it rests on the model's own reading or choice, log entries 49 and 50 say so. -/
def Obligations.DescriptorsManaged : Prop :=
  (∀ (h m home hold slots seg n : Nat) (byp : Bool) (s : State), verbReady s = true → h < 4096 → m < 256 → home < 16 → hold ≤ 16380 → hold % 4 = 0 → 1 ≤ slots → slots ≤ 8 → 1 ≤ seg → seg ≤ 128 → 1 ≤ n → n ≤ 64 →
    wdValid s h = false →
    ∃ t, exec (.walkDefine h m home byp hold slots seg n) s = .next t ∧ t.con.ans = [okLn []] ∧ wdMan t h = m ∧ (wdHome t h).val = home ∧ wdHoldNs t h = hold ∧ wdSlots t h = slots ∧ wdSlotSeg t h = seg
      ∧ wdNctx t h = n ∧ wdBypass t h = byp ∧ wdValid t h = false ∧ (∀ j, 2 ≤ j → j < 32 → ixGet t WLK (h * 32 + j) = ixGet s WLK (h * 32 + j)) ∧ t.d8 = s.d8 ∧ t.dram = s.dram ∧ t.wmem = s.wmem ∧ t.walks = s.walks) ∧
  (∀ (h m home hold slots seg n : Nat) (byp : Bool) (s : State), verbReady s = true → h < 4096 → m < 256 → home < 16 → hold ≤ 16380 → hold % 4 = 0 → 1 ≤ slots → slots ≤ 8 → 1 ≤ seg → seg ≤ 128 → 1 ≤ n → n ≤ 64 →
    wdValid s h = true →
    ∃ t, exec (.walkDefine h m home byp hold slots seg n) s = .next t ∧ t.con.ans = [descErr s h] ∧ fbit t WLK WLK_STATUS_DESC_REJ = true ∧ t.walks = s.walks ∧ sameStore s t) ∧
  (∀ (h st base segs sh w : Nat) (g : Bool) (s : State), verbReady s = true → h < 4096 → st < 8 → base < 2 ^ 44 → (if g then 0 else 1) ≤ segs → segs ≤ (if g then 255 else 128) → sh ≤ 127 → w ≤ 32 → wdValid s h = false →
    ∃ t, exec (.walkStage h st g base segs sh w) s = .next t ∧ t.con.ans = [okLn []] ∧ wdStage t h st = ⟨g, sh, w, base, segs⟩ ∧ wdStages t h = max (wdStages s h) (st + 1) ∧ wdMan t h = wdMan s h
      ∧ (∀ k, k < 8 → k ≠ st → wdStage t h k = wdStage s h k) ∧ t.d8 = s.d8 ∧ t.dram = s.dram ∧ t.wmem = s.wmem ∧ t.walks = s.walks) ∧
  (∀ (h : Nat) (s : State), verbReady s = true → h < 4096 → wdValid s h = false → loadCheck s h = none →
    loadNeed s h ≤ wayEff (s.man (wdMan s h)) - walkResv s (wdMan s h) → loadNeed s h ≤ fget s WAY WAY_WALKSEG_FREE →
    ∃ t, exec (.walkLoad h) s = .next t ∧ t.con.ans = [okLn [("h", .h h 3), ("gen", .n ((wdWord s h 2 / 65536 + 1) % 65536)), ("reserve", .n (loadNeed s h))]] ∧ wdValid t h = true
      ∧ (t.walkRt h).reserved = loadNeed s h ∧ (t.walkRt h).unloading = false ∧ (t.walkRt h).slots.length = wdSlots s h ∧ fget t WAY WAY_WALKSEG_FREE = fget s WAY WAY_WALKSEG_FREE - loadNeed s h
      ∧ fget t WLK WLK_STATUS_LOADED = min (fget s WLK WLK_STATUS_LOADED + 1) 8191 ∧ t.d8 = s.d8 ∧ t.dram = s.dram ∧ t.streams = s.streams ∧ t.mans = s.mans) ∧
  (∀ (h k : Nat) (s : State), verbReady s = true → h < 4096 → wdValid s h = false → loadCheck s h = some k →
    ∃ t, exec (.walkLoad h) s = .next t ∧ answered [erLn 421 "descriptor check" [("h", .h h 3), ("check", .n k)]] s t) ∧
  (∀ (h : Nat) (s : State), verbReady s = true → h < 4096 → wdValid s h = true → ∃ t, exec (.walkLoad h) s = .next t ∧ answered [descErr s h] s t) ∧
  (∀ (h : Nat) (s : State), verbReady s = true → h < 4096 → wdValid s h = true → (s.walkRt h).unloading = false →
    ∃ t, exec (.walkUnload h) s = .next t ∧ (t.walkRt h).unloading = true ∧ wdValid t h = true ∧ (t.walkRt h).reserved = (s.walkRt h).reserved
      ∧ answered [okLn [("h", .h h 3), ("state", .s "unloading")]] s t) ∧
  (∀ (h : Nat) (s : State), verbReady s = true → h < 4096 → wdValid s h = false ∨ (s.walkRt h).unloading = true → ∃ t, exec (.walkUnload h) s = .next t ∧ t.walks = s.walks ∧ answered [descErr s h] s t) ∧
  (∀ (h : Nat) (s : State), coreRuns s = true → (s.walkRt h).unloading = true → wdUse s h = 0 →
    ∃ t, exec (.walkUnloaded h) s = .next t ∧ wdValid t h = false ∧ t.walkRt h = {} ∧ t.wreads = s.wreads.filter (fun r => !(r.image && r.a = h))
      ∧ fget t WAY WAY_WALKSEG_FREE = (fget s WAY WAY_WALKSEG_FREE + (s.walkRt h).reserved) % 65536 ∧ fget t WLK WLK_STATUS_LOADED = fget s WLK WLK_STATUS_LOADED - 1
      ∧ t.d8 = s.d8 ∧ t.dram = s.dram ∧ t.wmem = s.wmem ∧ t.streams = s.streams ∧ t.mans = s.mans) ∧
  (∀ (h : Nat) (s : State), coreRuns s = false ∨ (s.walkRt h).unloading = false ∨ wdUse s h ≠ 0 → exec (.walkUnloaded h) s = .next s)

/-- ENQ and DEQ take effect in their turn, and a bad record faults the queue (08_queue_engine.md R247, 08_queue_engine.md R248, 08_queue_engine.md R250, 08_queue_engine.md R257, 08_queue_engine.md R258). Where it rests on the model's own reading or choice, log entries 22, 24, 43, 47, 116, 117 and 131 say so. -/
def Obligations.QueuesMove : Prop :=
  (∀ (r : Fin 16) (n : Nat) (e : JEntry) (p : EnqPlan) (x : Pick) (u s : State), coreRuns u = true → s = actAll x.errs u → x.no = n → settled s → queTurn s r n .enq = some e → (s.que.plans.find? fun x => x.ring = r && x.entry = n) = some p →
    oldRecord s r n false = some none →
    ∃ t, exec (.enqApply r x none) u = .next t ∧ t.qd p.queue = enqImage (s.qd p.queue) p ∧ (∀ q, q ≠ p.queue → t.qd q = s.qd q) ∧ t.que.plans = s.que.plans.filter (fun x => !(x.ring = r && x.entry = n))
      ∧ fget t QUE QUE_ENQ_CNT_COUNT = min (fget s QUE QUE_ENQ_CNT_COUNT + 1) (2 ^ 32 - 1) ∧ fget t QUE QUE_CELLS_IN_COUNT = min (fget s QUE QUE_CELLS_IN_COUNT + p.cells) (2 ^ 32 - 1)
      ∧ t.d8 = s.d8 ∧ t.dram = s.dram ∧ t.wmem = s.wmem ∧ t.mans = s.mans) ∧
  (∀ (r : Fin 16) (n : Nat) (e : JEntry) (x : Pick) (u s : State), coreRuns u = true → s = actAll x.errs u → x.no = n → settled s → queTurn s r n .enq = some e → oldRecord s r n false = none → exec (.enqApply r x none) u = .next s) ∧
  (∀ (r : Fin 16) (n k : Nat) (e : JEntry) (w : String) (x : Pick) (u s : State), coreRuns u = true → s = actAll x.errs u → x.no = n → settled s → queTurn s r n .enq = some e → oldRecord s r n false = some (some (k, w)) → (s.qd e.target.toNat).st ≠ .faulted →
    ∃ t, exec (.enqApply r x none) u = .next t ∧ (t.qd e.target.toNat).st = .faulted ∧ (t.qd e.target.toNat).freason = k ∧ (∀ q, q ≠ e.target.toNat → t.qd q = s.qd q) ∧ t.d8 = s.d8 ∧ t.dram = s.dram ∧ t.wmem = s.wmem) ∧
  (∀ (r : Fin 16) (n : Nat) (b : Option Nat) (x : Pick) (u s : State), coreRuns u = true → s = actAll x.errs u → x.no = n → settled s → queTurn s r n .enq = none → exec (.enqApply r x b) u = .next s) ∧
  (∀ (r : Fin 16) (n k : Nat) (e : JEntry) (x : Pick) (u s : State), coreRuns u = true → s = actAll x.errs u → x.no = n → settled s → queTurn s r n .enq = some e → (s.qd e.target.toNat).st ≠ .faulted →
    ∃ t, exec (.enqApply r x (some k)) u = .next t ∧ (t.qd e.target.toNat).st = .faulted ∧ (t.qd e.target.toNat).freason = 1 ∧ (t.qd e.target.toNat).depth = (s.qd e.target.toNat).depth
      ∧ fget t QUE QUE_FAULT_COUNT = min (fget s QUE QUE_FAULT_COUNT + 1) (2 ^ 32 - 1) ∧ (∀ q, q ≠ e.target.toNat → t.qd q = s.qd q) ∧ t.d8 = s.d8 ∧ t.dram = s.dram ∧ t.wmem = s.wmem) ∧
  (∀ (r : Fin 16) (n : Nat) (e : JEntry) (l : List TakenCell) (d : QDesc) (gone : List Nat) (x : Pick) (u s : State), coreRuns u = true → s = actAll x.errs u → x.no = n → settled s → queTurn s r n .deq = some e →
    deqCells s (s.qd e.target.toNat) (bitOf e.sub.toNat 0) (e.arg.toNat / 2 ^ 17 % 128) = some l → (l.map (fun x => x.blk)).eraseDups.findSome? (recFault s) = none → directCells s l = [] → recordReads s l = [] →
    deqImage s (s.qd e.target.toNat) l = some (d, gone) →
    ∃ t, exec (.deqApply r x none []) u = .next t ∧ t.qd e.target.toNat = d ∧ (∀ q, q ≠ e.target.toNat → t.qd q = s.qd q)
      ∧ fget t QUE QUE_DEQ_CNT_COUNT = min (fget s QUE QUE_DEQ_CNT_COUNT + 1) (2 ^ 32 - 1) ∧ fget t QUE QUE_CELLS_OUT_COUNT = min (fget s QUE QUE_CELLS_OUT_COUNT + l.length) (2 ^ 32 - 1)
      ∧ t.d8 = s.d8 ∧ t.dram = s.dram ∧ t.wmem = s.wmem ∧ t.mans = s.mans) ∧
  (∀ (r : Fin 16) (n : Nat) (e : JEntry) (l : List TakenCell) (x : Pick) (u s : State), coreRuns u = true → s = actAll x.errs u → x.no = n → settled s → queTurn s r n .deq = some e → s.que.reads = [] →
    deqCells s (s.qd e.target.toNat) (bitOf e.sub.toNat 0) (e.arg.toNat / 2 ^ 17 % 128) = some l → (l.map (fun x => x.blk)).eraseDups.findSome? (recFault s) = none → directCells s l ≠ [] →
    ∃ t, exec (.deqApply r x none []) u = .next t ∧ t.que.reads.length = (directCells s l).length + (recordReads s l).length ∧ t.que.desc = s.que.desc
      ∧ fget t QUE QUE_DIRECT_COUNT = min (fget s QUE QUE_DIRECT_COUNT + (directCells s l).length) (2 ^ 32 - 1) ∧ t.d8 = s.d8 ∧ sameStore s t) ∧
  (∀ (r : Fin 16) (n k : Nat) (e : JEntry) (ecc : List LineEcc) (x : Pick) (u s : State), coreRuns u = true → s = actAll x.errs u → x.no = n → settled s → queTurn s r n .deq = some e → (s.qd e.target.toNat).st ≠ .faulted →
    ∃ t, exec (.deqApply r x (some k) ecc) u = .next t ∧ (t.qd e.target.toNat).st = .faulted ∧ (t.qd e.target.toNat).freason = 1 ∧ (∀ q, q ≠ e.target.toNat → t.qd q = s.qd q)
      ∧ t.d8 = s.d8 ∧ t.dram = s.dram ∧ t.wmem = s.wmem) ∧
  (∀ (r : Fin 16) (n : Nat) (b : Option Nat) (ecc : List LineEcc) (x : Pick) (u s : State), coreRuns u = true → s = actAll x.errs u → x.no = n → settled s → queTurn s r n .deq = none → exec (.deqApply r x b ecc) u = .next s)

/-- The block pool is set up, and a queue is reset (08_queue_engine.md R236, 08_queue_engine.md R254, 08_queue_engine.md R264). Where it rests on the model's own reading or choice, log entries 25, 44, 45, 130 and 132 say so. -/
def Obligations.PoolAndQueueVerbs : Prop :=
  (∀ (s : State), blockOn s QUE = true → poolRefusal s (poolBase s) (poolBlocks s) = none →
    ∃ t, exec (.queuePoolInit none) s = .next t ∧ fbit t QUE QUE_STATUS_INIT_BUSY = true ∧ t.que.initLeft ≤ cdiv (poolBlocks s + poolBlocks s % 2 * 16) 32
      ∧ ((∀ e, e < poolBlocks s → (placeOf t (stackLineNo t e)).any (fun x => chanUp t x.ch) = true) → t.que.initLeft = cdiv (poolBlocks s + poolBlocks s % 2 * 16) 32 ∧ t.que.fresh = [(0, poolBlocks s)]) ∧ poolBlocks t = poolBlocks s ∧ t.way.clearing = false ∧ t.d8 = s.d8 ∧ sameStore s t) ∧
  (∀ (w : String) (s : State), blockOn s QUE = true → poolRefusal s (poolBase s) (poolBlocks s) = some w →
    ∃ t, exec (.queuePoolInit none) s = .next t ∧ fbit t QUE QUE_STATUS_CFG_REJ = true ∧ fbit t QUE QUE_STATUS_INIT_BUSY = fbit s QUE QUE_STATUS_INIT_BUSY ∧ t.que = s.que ∧ t.d8 = s.d8 ∧ sameStore s t) ∧
  (∀ (base p : Nat) (s : State), verbReady s = true → poolRefusal s base p = none →
    ∃ t, exec (.queuePoolInit (some (base, p))) s = .next t ∧ t.con.ans = [okLn [("state", .s "init")]] ∧ fbit t QUE QUE_STATUS_INIT_BUSY = true ∧ poolBlocks t = p ∧ t.que.initLeft ≤ cdiv (p + p % 2 * 16) 32
      ∧ ((∀ e, e < p → (placeOf t (stackLineNo t e)).any (fun x => chanUp t x.ch) = true) → t.que.initLeft = cdiv (p + p % 2 * 16) 32 ∧ t.que.fresh = [(0, p)])
      ∧ fget t QUE QUE_POOL_BASE_LO_BASE = base / 2 ^ 20 % 4096 ∧ fget t QUE QUE_POOL_BASE_HI_BASE = base / 2 ^ 32 % 4096 ∧ t.d8 = s.d8 ∧ sameStore s t) ∧
  (∀ (base p : Nat) (w : String) (s : State), verbReady s = true → poolRefusal s base p = some w →
    ∃ t, exec (.queuePoolInit (some (base, p))) s = .next t ∧ t.con.ans = [erLn 430 "pool refused" [("reason", .s w)]] ∧ fbit t QUE QUE_STATUS_CFG_REJ = true ∧ t.que = s.que ∧ t.d8 = s.d8 ∧ sameStore s t) ∧
  (∀ (s : State), coreRuns s = true → fbit s QUE QUE_STATUS_INIT_BUSY = true → s.que.initLeft = 0 →
    ∃ t, exec .queuePoolReady s = .next t ∧ fbit t QUE QUE_STATUS_INIT_BUSY = false ∧ fbit t QUE QUE_STATUS_INIT_DONE = true ∧ t.que.initLeft = 0 ∧ t.que.initDone = true
      ∧ fget t QUE QUE_RSV_RSV = max 8192 (poolBlocks s / 256) ∧ fget t MAN MAN_BLKMAX_BLK = poolBlocks s - max 8192 (poolBlocks s / 256) ∧ t.que.cached = min 896 (s.que.fresh.map (·.2)).sum
      ∧ freeBlocks t = (s.que.fresh.map (·.2)).sum ∧ t.d8 = s.d8 ∧ t.dram = s.dram ∧ t.wmem = s.wmem ∧ t.streams = s.streams ∧ t.mans = s.mans) ∧
  (∀ (s : State), coreRuns s = false ∨ fbit s QUE QUE_STATUS_INIT_BUSY = false ∨ s.que.initLeft ≠ 0 → exec .queuePoolReady s = .next s) ∧
  (∀ (q : Nat) (s : State), verbReady s = true → q ≤ 131071 → inflight s q = 0 →
    ∃ t freed lost, exec (.queueReset q) s = .next t ∧ t.con.ans = [okLn [("q", .h q 5), ("freed", .n freed), ("lost", .n lost)]] ∧ (t.qd q).st = .empty ∧ (t.qd q).depth = 0 ∧ (t.qd q).pkts = 0
      ∧ (t.qd q).enqPkts = (s.qd q).enqPkts ∧ (t.qd q).deqPkts = (s.qd q).deqPkts ∧ (∀ k, k ≠ q → t.qd k = s.qd k) ∧ s.d8 ≤ t.d8 ∧ t.dram = s.dram ∧ t.wmem = s.wmem ∧ t.streams = s.streams ∧ t.mans = s.mans
      ∧ ((s.qd q).st = .empty ∨ (∀ b, recHeld s b = true) → t.d8 = s.d8 ∧ t.accts = s.accts)) ∧
  (∀ (q : Nat) (s : State), verbReady s = true → q ≤ 131071 → inflight s q ≠ 0 →
    ∃ t, exec (.queueReset q) s = .next t ∧ t.que = s.que ∧ answered [erLn 431 "queue busy" [("q", .h q 5), ("inflight", .n (inflight s q))]] s t) ∧
  (∀ (q : Nat) (s : State), verbReady s = true → 131071 < q → ∃ t, exec (.queueReset q) s = .next t ∧ t.que = s.que ∧ answered [erLn 432 "queue range" [("q", .h q 5)]] s t)

/-- Manifests are opened and modified under the checks of admission, and closed once the journal and the dirty lines are done (05_manifests.md R146, 05_manifests.md R149, 05_manifests.md R150, 05_manifests.md R164, 05_manifests.md R151, 05_manifests.md R165, 12_energy_ledger.md R363). Where it rests on the model's own reading or choice, log entries 31, 46 and 128 say so. -/
def Obligations.ManifestLifeCycle : Prop :=
  (∀ (m : Nat) (f : MFields) (s : State), verbReady s = true → m < 256 → mapLoaded s = true → (s.man m).st = .closed → fbit s WAY WAY_STATUS_COMMITTED = true → manCheck s m f none = none →
    ∃ t, exec (.manifestOpen m f) s = .next t ∧ (t.man m).st = .opened ∧ (t.man m).f = f ∧ (t.man m).gen = (s.man m).gen + 1 ∧ (t.man m).wayRed = (s.man m).wayRed ∧ (t.man m).floorNs = (s.man m).floorNs
      ∧ t.con.ans = [okLn [("id", .n m), ("gen", .n ((s.man m).gen + 1).toNat), ("floor", .n (manFloor s (fieldsWith s m (some f)) f.cls))]] ∧ (∀ k, k ≠ m → t.man k = s.man k)
      ∧ tblGet (fun _ => 0) t.led.acct m = 0 ∧ t.d8 = s.d8 ∧ t.dram = s.dram ∧ t.wmem = s.wmem ∧ t.streams = s.streams ∧ t.accts = s.accts) ∧
  (∀ (m : Nat) (f : MFields) (why : List (String × FVal)) (s : State), verbReady s = true → m < 256 → mapLoaded s = true → (s.man m).st = .closed → fbit s WAY WAY_STATUS_COMMITTED = true → manCheck s m f none = some why →
    ∃ t, exec (.manifestOpen m f) s = .next t ∧ answered [erLn 410 "refused" why] s t) ∧
  (∀ (m : Nat) (f : MFields) (s : State), verbReady s = true → m < 256 → mapLoaded s = false →
    ∃ t, exec (.manifestOpen m f) s = .next t ∧ answered [erLn 411 "manifest state" [("id", .n m), ("state", .s "nomap")]] s t) ∧
  (∀ (m : Nat) (f : MFields) (s : State), verbReady s = true → m < 256 → mapLoaded s = true → (s.man m).st = .closed → fbit s WAY WAY_STATUS_COMMITTED = false →
    ∃ t, exec (.manifestOpen m f) s = .next t ∧ fbit t WAY WAY_STATUS_COMMITTED = true ∧ fget t WAY WAY_TIER_FRAMES = tierFrames s % 2 ^ 17 ∧ (∀ k, k ≠ m → t.man k = s.man k)) ∧
  (∀ (m : Nat) (x : MMod) (s : State), verbReady s = true → m < 256 → (s.man m).st = .opened → x.twin.getD (s.man m).f.twin = (s.man m).f.twin → manCheck s m (applyMod (s.man m).f x) (some (s.man m).f) = none →
    ∃ t, exec (.manifestModify m x) s = .next t ∧ (t.man m).st = .opened ∧ (t.man m).f = applyMod (s.man m).f x ∧ (t.man m).gen = (s.man m).gen + 1 ∧ (∀ k, k ≠ m → t.man k = s.man k)
      ∧ t.d8 = s.d8 ∧ t.dram = s.dram ∧ t.streams = s.streams ∧ t.accts = s.accts) ∧
  (∀ (m : Nat) (x : MMod) (why : List (String × FVal)) (s : State), verbReady s = true → m < 256 → (s.man m).st = .opened → x.twin.getD (s.man m).f.twin = (s.man m).f.twin →
    manCheck s m (applyMod (s.man m).f x) (some (s.man m).f) = some why →
    ∃ t, exec (.manifestModify m x) s = .next t ∧ answered [erLn 410 "refused" why] s t) ∧
  (∀ (m : Nat) (x : MMod) (s : State), verbReady s = true → m < 256 → (s.man m).st ≠ .opened →
    ∃ t, exec (.manifestModify m x) s = .next t ∧ answered [erLn 411 "manifest state" [("id", .n m), ("state", .s (stateWord (s.man m).st))]] s t) ∧
  (∀ (m : Nat) (force : Bool) (s : State), verbReady s = true → m < 256 → (s.man m).st = .opened → fullQueues s m = [] →
    ∃ t, exec (.manifestClose m force) s = .next t ∧ (t.man m).st = .closing ∧ (t.man m).f = (s.man m).f ∧ (t.man m).forced = force ∧ t.con.ans = [okLn [("id", .n m), ("state", .s "closing")]]
      ∧ (∀ k, k ≠ m → t.man k = s.man k) ∧ (∀ x ∈ t.way.tier, x.2.owner ≠ some (BitVec.ofNat 8 m)) ∧ t.d8 = s.d8 ∧ t.dram = s.dram ∧ t.wmem = s.wmem ∧ t.streams = s.streams) ∧
  (∀ (m : Nat) (s : State), verbReady s = true → m < 256 → (s.man m).st = .opened → fullQueues s m ≠ [] →
    ∃ t, exec (.manifestClose m false) s = .next t ∧ answered [erLn 412 "close blocked" [("nonempty", .n (fullQueues s m).length)]] s t) ∧
  (∀ (m : Nat) (force : Bool) (s : State), verbReady s = true → m < 256 → (s.man m).st ≠ .opened →
    ∃ t, exec (.manifestClose m force) s = .next t ∧ answered [erLn 411 "manifest state" [("id", .n m), ("state", .s (stateWord (s.man m).st))]] s t) ∧
  (∀ (m : Nat) (s : State), coreRuns s = true → (s.man m).st = .closing → entriesOf s (BitVec.ofNat 8 m) = 0 → dirtyOf s (BitVec.ofNat 8 m) = 0 → (s.man m).forced = false →
    (∀ w ∈ s.walks, wdMan s w.1 = m → wdValid s w.1 = false) →
    ∃ t, exec (.manifestClosed m) s = .next t ∧ t.man m = { gen := (s.man m).gen } ∧ (∀ k, k ≠ m → t.man k = s.man k) ∧ t.d8 = s.d8 ∧ t.dram = s.dram ∧ t.wmem = s.wmem ∧ t.ix = s.ix
      ∧ t.streams = s.streams ∧ t.accts = s.accts) ∧
  (∀ (m : Nat) (s : State), coreRuns s = false ∨ (s.man m).st ≠ .closing ∨ entriesOf s (BitVec.ofNat 8 m) ≠ 0 ∨ dirtyOf s (BitVec.ofNat 8 m) ≠ 0 → exec (.manifestClosed m) s = .next s)

/-- A stream is opened again after it was frozen (04_transactions.md R138, 01_acceptance_promise.md R28, 01_acceptance_promise.md R30). Where it rests on the model's own reading or choice, log entry 98 says so. -/
def Obligations.FrozenStreamsOpen : Prop :=
  (∀ (p : Fin 4) (x : BitVec 12) (s : State), blockOn s TXN = true → settled s → s.guard = none → (s.strm p x).frozen = true → (s.strm p x).ue = false →
    ∃ t, exec (.streamOpen p x) s = .next t ∧ t.strm p x = { s.strm p x with frozen := false } ∧ (∀ q y, strmKey q y ≠ strmKey p x → t.strm q y = s.strm q y) ∧ t.regs = s.regs
      ∧ t.d8 = s.d8 ∧ t.dram = s.dram ∧ t.wmem = s.wmem ∧ t.mans = s.mans) ∧
  (∀ (p : Fin 4) (x : BitVec 12) (s : State), blockOn s TXN = true → settled s → s.guard = none → (s.strm p x).frozen = true → (s.strm p x).ue = true →
    ∃ t, exec (.streamOpen p x) s = .next t ∧ (t.strm p x).frozen = false ∧ (t.strm p x).ue = false ∧ (t.strm p x).n = 0 ∧ (t.strm p x).win = [] ∧ (t.strm p x).k = 0 ∧ (t.strm p x).retryAt = none
      ∧ (∀ c : Fin 16, (t.ring c).entries.map (fun e => { e with orphan := none }) = (s.ring c).entries.map (fun e => { e with orphan := none })
        ∧ ∀ e ∈ (t.ring c).entries, e.port = p → e.stream = x → e.recorded = false → e.orphan.isSome = true)
      ∧ (∀ w ∈ (s.strm p x).win, (∃ c : Fin 16, ∃ e ∈ (s.ring c).entries, e.orphan = none ∧ e.recorded = false ∧ e.port = p ∧ e.stream = x ∧ e.seq = w.seq) → ∃ y ∈ (t.strm p x).old, y.2 = w)
      ∧ (∀ q y, strmKey q y ≠ strmKey p x → t.strm q y = s.strm q y) ∧ t.d8 = s.d8 ∧ t.dram = s.dram ∧ t.wmem = s.wmem ∧ t.mans = s.mans) ∧
  (∀ (p : Fin 4) (x : BitVec 12) (s : State), blockOn s TXN = true → settled s → s.guard = none → (s.strm p x).frozen = false → exec (.streamOpen p x) s = .next s)

/-- Self-test of the Waystation, the PHYs and the lanes (13_self_test.md R370, 13_self_test.md R373, 13_self_test.md R374, 13_self_test.md R383, 13_self_test.md R384, 13_self_test.md R386, 13_self_test.md R387). Where it rests on the model's own reading or choice, log entries 1, 58, 62, 63, 120, 124 and 138 say so. -/
def Obligations.SlicesRun : Prop :=
  (∀ (s : State), coreRuns s = true → fbit s BST BST_CTL_WAY_EN = true → s.bist.way = none → s.bist.wayDue ≤ s.ns → waySliceBad s = none →
    ∃ t x, exec .waySliceStart s = .next t ∧ t.bist.way = some x ∧ x.running = true ∧ x.at8 = s.d8 ∧ (∀ f ∈ x.frames, (t.frame false f).st = .test) ∧ fbit t BST BST_STATUS_WAY_RUN = true
      ∧ t.bist.wayDue = s.ns + wayIntNs s ∧ t.bist.wayNext = (s.bist.wayNext + (16 - (wayDueFrames s).length)) % tierFrames s ∧ t.bist.lastStart = some s.ns ∧ t.d8 = s.d8 ∧ t.dram = s.dram ∧ t.streams = s.streams ∧ t.mans = s.mans) ∧
  (∀ (s : State), coreRuns s = false ∨ fbit s BST BST_CTL_WAY_EN = false ∨ s.bist.way.isSome = true → exec .waySliceStart s = .next s) ∧
  (∀ (s : State), coreRuns s = true → fbit s BST BST_CTL_WAY_EN = true → s.bist.way = none → s.bist.wayDue ≤ s.ns → (waySliceBad s).isSome = true →
    exec .waySliceStart s = .next (waitFor 0 0 (waySliceBad s) s)) ∧
  (∀ (errs : List JournalErr) (x : WaySlice) (u s : State), s = actAll errs u → coreRuns s = true → settled s → s.bist.way = some x →
    ∃ t, exec (.waySliceEnd [] [] errs) u = .next t ∧ t.bist.way = none ∧ fbit t BST BST_STATUS_WAY_RUN = false ∧ (∀ f ∈ x.frames, t.frame false f = {} ∧ ∀ i, i < 16 → wayLine t (frameLine s false f i) = 0)
      ∧ t.bist.scrub = (s.bist.scrub + 256) % scrubLines s ∧ t.d8 = firstCycle8 s (x.at8 + 16000) ∧ fget t BST (BST_SLICE_COUNT.nth 0) = min (fget s BST (BST_SLICE_COUNT.nth 0) + 1) (2 ^ 32 - 1)
      ∧ t.dram = s.dram ∧ t.streams = s.streams ∧ t.mans = s.mans) ∧
  (∀ (errs : List JournalErr) (bad : List Nat) (l : List (Nat × LineEcc)) (u s : State), s = actAll errs u → settled s → s.bist.way = none ∨ coreRuns s = false → exec (.waySliceEnd bad l errs) u = .next s) ∧
  (∀ (c : Fin 16) (s : State), coreRuns s = true → phyTurn s c = true → phySliceBad s c = none →
    ∃ t, exec (.phySliceStart c) s = .next t ∧ t.bist.phyRun[c] = some t.d8 ∧ s.d8 ≤ t.d8 ∧ bitOf (fget t BST BST_STATUS_CH_RUN) c = true ∧ t.bist.lastStart = some s.ns ∧ t.dram = s.dram ∧ t.wmem = s.wmem) ∧
  (∀ (c : Fin 16) (s : State), coreRuns s = false ∨ phyTurn s c = false → exec (.phySliceStart c) s = .next s) ∧
  (∀ (c : Fin 16) (s : State), coreRuns s = true → phyTurn s c = true → (phySliceBad s c).isSome = true →
    exec (.phySliceStart c) s = .next (onlyIf (bstFull s c) (waitFor 3 c (phySliceBad s c)) s)) ∧
  (∀ (c : Fin 16) (res : PhyRes) (t0 : Nat) (s : State), s.bist.phyRun[c] = some t0 → chanRuns s c = true →
    ∃ t, exec (.phySliceEnd c res) s = .next t ∧ t.bist.phyRun[c] = none ∧ t.bist.sincePhy[c] = 0 ∧ t.bist.phyKind[c] = (s.bist.phyKind[c] + 1) % 5
      ∧ ((∀ r : Fin 2, (s.chan c).refDebt[r] = 0) → t.d8 = firstCycle8 s (t0 + chCk8 s c
          (if s.bist.phyKind[c] = 4 then (caMargins res.low (caTurn s c) 64 s).2.2.1 else 64 + 2 * (phyOffs s.bist.phyKind[c]).length * phyCost s.bist.phyKind[c])))
      ∧ (s.bist.phyKind[c] ≤ 1 → ∀ m ∈ (readMargins c s.bist.phyKind[c] res.points s).1,
          ixGet t BST (0x100 + (c * 2 + s.bist.phyKind[c]) * 128 + m.unit) = BitVec.ofNat 32 (m.left % 256 + m.right % 256 * 256))
      ∧ fget t BST (BST_SLICE_COUNT.nth 3) = min (fget s BST (BST_SLICE_COUNT.nth 3) + 1) (2 ^ 32 - 1) ∧ bitOf (fget t BST BST_STATUS_CH_RUN) c = (s.bist.dram[c]).isSome
      ∧ t.dram = s.dram ∧ t.wmem = s.wmem ∧ t.streams = s.streams ∧ t.mans = s.mans) ∧
  (∀ (c : Fin 16) (ms : PhyRes) (s : State), s.bist.phyRun[c] = none ∨ chanRuns s c = false → exec (.phySliceEnd c ms) s = .next s) ∧
  (∀ (p : Fin 4) (mv mui : Nat) (s : State), coreRuns s = true → s.bist.laneRun[p] = none → fbit s BST BST_CTL_LANE_EN = true → s.bist.laneDue[p] ≤ s.ns → sliceGate s laneMw 200000 true = none → laneGroup s p ≠ [] →
    ∃ t, exec (.laneSlice p mv mui) s = .next t ∧ t.bist.laneRun[p] = some t.d8 ∧ bitOf (fget t BST BST_STATUS_LANE_RUN) p = true ∧ t.d8 = s.d8 ∧ t.bist.laneDue[p] = s.ns + laneIntNs s
      ∧ t.bist.lastStart = some s.ns ∧ t.ports = s.ports ∧ sameStore s t) ∧
  (∀ (p : Fin 4) (mv mui : Nat) (s : State), coreRuns s = true → s.bist.laneRun[p] = none → fbit s BST BST_CTL_LANE_EN = true → laneGroup s p ≠ [] → s.bist.laneDue[p] ≤ s.ns → (sliceGate s laneMw 200000 true).isSome = true →
    exec (.laneSlice p mv mui) s = .next (waitFor 4 p (sliceGate s laneMw 200000 true) s)) ∧
  (∀ (p : Fin 4) (mv mui l t0 : Nat) (s : State), coreRuns s = true → s.bist.laneRun[p] = some t0 → (laneGroup s p)[s.bist.laneNext[p] % (laneGroup s p).length]? = some l →
    ∃ t, exec (.laneSlice p mv mui) s = .next t ∧ ixGet t (HP p) (0x20 + l) = BitVec.ofNat 32 (mv % 65536 + mui % 65536 * 65536) ∧ t.bist.laneNext[p] = (s.bist.laneNext[p] + 1) % (laneGroup s p).length
      ∧ t.bist.laneRun[p] = none ∧ bitOf (fget t BST BST_STATUS_LANE_RUN) p = false ∧ t.d8 = firstCycle8 s (t0 + 1600000) ∧ fget t BST (BST_SLICE_COUNT.nth 4) = min (fget s BST (BST_SLICE_COUNT.nth 4) + 1) (2 ^ 32 - 1) ∧ t.ports = s.ports ∧ t.dram = s.dram ∧ t.wmem = s.wmem) ∧
  (∀ (p : Fin 4) (mv mui : Nat) (s : State), coreRuns s = false ∨ s.bist.laneRun[p] = none ∧ (fbit s BST BST_CTL_LANE_EN = false ∨ laneGroup s p = []) → exec (.laneSlice p mv mui) s = .next s)

/-- A DRAM slice, from its copy to the restored row (13_self_test.md R376, 13_self_test.md R377, 13_self_test.md R379, 13_self_test.md R380, 13_self_test.md R381, 13_self_test.md R382). Where it rests on the model's own reading or choice, log entries 1, 40, 62, 63, 121, 122 and 137 say so. -/
def Obligations.DramSlicesRun : Prop :=
  (∀ (c : Fin 16) (s : State), coreRuns s = true → fbit s BST BST_CTL_DRAM_EN = true → phyTurn s c = false → dramSliceBad s c = none →
    ∃ t x, exec (.dramSliceStart c) s = .next t ∧ t.bist.dram[c] = some x ∧ x.idx = s.bist.next[c] ∧ x.ph = .copy ∧ x.step = 0 ∧ x.at8 = s.d8 ∧ (∀ f ∈ x.frames, (t.frame false f).st = .test)
      ∧ bitOf (fget t BST BST_STATUS_CH_RUN) c = true ∧ t.way.wtHeld = s.way.wtHeld + rowLen s
      ∧ (t.chan c).bg = (s.chan c).bg ++ ((rowLams s x.idx).take (rowLen s)).map (bistReq .copy false) ∧ (∀ k, k ≠ c → t.chan k = s.chan k) ∧ t.d8 = s.d8 ∧ sameStore s t) ∧
  (∀ (c : Fin 16) (s : State), coreRuns s = false ∨ fbit s BST BST_CTL_DRAM_EN = false ∨ phyTurn s c = true → exec (.dramSliceStart c) s = .next s) ∧
  (∀ (c : Fin 16) (s : State), coreRuns s = true → fbit s BST BST_CTL_DRAM_EN = true → phyTurn s c = false → (dramSliceBad s c).isSome = true →
    exec (.dramSliceStart c) s = .next (onlyIf (bstFull s c) (waitFor 1 c (dramSliceBad s c)) s)) ∧
  (∀ (c : Fin 16) (x : DramSlice) (l : List LineEcc) (s : State), s.bist.dram[c] = some x → x.ph = .copy → chanRuns s c = true → phaseOver s c x = true → rowBusy s c x.idx = false → fget s LED LED_STATUS_LEVEL < 2 →
    ∃ t, exec (.rowDisplaced c l) s = .next t ∧ t.bist.dram[c] = some { x with ph := .test 1 false, step := 0 } ∧ (∀ l, displaced t c l = inSliceRow s x.idx l) ∧ (∀ k l, dramLine t k l = dramLine s k l)
      ∧ (∀ k i, dramPsn t k i = (dramPsn s k i || (decide (k = c) && ((rowLams s x.idx).zip l).contains (i, .uncorrectable))))
      ∧ (t.chan c).bg = (s.chan c).bg ++ ((rowLams s x.idx).take (rowLen s)).map (bistReq (.test 1 false) true) ∧ fget t WAY WAY_UE_COUNT = min (fget s WAY WAY_UE_COUNT + (((rowLams s x.idx).zip l).map (·.2)).count .uncorrectable) (2 ^ 32 - 1)
      ∧ fget t WAY WAY_CE_COUNT = min (fget s WAY WAY_CE_COUNT + (((rowLams s x.idx).zip l).map (·.2)).count .corrected) (2 ^ 32 - 1) ∧ t.d8 = s.d8 ∧ t.wmem = s.wmem ∧ t.streams = s.streams ∧ t.mans = s.mans) ∧
  (∀ (c : Fin 16) (x : DramSlice) (l : List LineEcc) (s : State), s.bist.dram[c] = some x → x.ph = .copy → chanRuns s c = true → phaseOver s c x = true → rowBusy s c x.idx = false → 2 ≤ fget s LED LED_STATUS_LEVEL →
    ∃ t, exec (.rowDisplaced c l) s = .next t ∧ t.bist.dram[c] = none ∧ fget t BST BST_STOP_COUNT = min (fget s BST BST_STOP_COUNT + 1) (2 ^ 32 - 1) ∧ t.d8 = s.d8 ∧ t.wmem = s.wmem ∧ t.streams = s.streams ∧ t.mans = s.mans) ∧
  (∀ (c : Fin 16) (l : List LineEcc) (s : State), chanRuns s c = false ∨ (∀ x, s.bist.dram[c] = some x → x.ph ≠ .copy ∨ phaseOver s c x = false ∨ rowBusy s c x.idx = true) → exec (.rowDisplaced c l) s = .next s) ∧
  (∀ (c : Fin 16) (x : DramSlice) (n : Nat) (bits : BitVec 72) (s : State), s.bist.dram[c] = some x → x.ph = .test n false → chanRuns s c = true → phaseOver s c x = true → fget s LED LED_STATUS_LEVEL < 2 → comparedBits s c bits = 0 →
    ∃ t, exec (.dramPhaseEnd c bits) s = .next t ∧ t.bist.dram[c] = some { x with ph := if 5 ≤ n then .restore true else .test (n + 1) false, step := 0 } ∧ t.d8 = s.d8 ∧ sameStore s t) ∧
  (∀ (c : Fin 16) (x : DramSlice) (n : Nat) (bits : BitVec 72) (s : State), s.bist.dram[c] = some x → x.ph = .test n false → chanRuns s c = true → phaseOver s c x = true → fget s LED LED_STATUS_LEVEL < 2 → comparedBits s c bits ≠ 0 →
    ∃ t, exec (.dramPhaseEnd c bits) s = .next t ∧ t.bist.dram[c] = some { x with ph := .test n true, step := 0 } ∧ t.d8 = s.d8 ∧ sameStore s t) ∧
  (∀ (c : Fin 16) (x : DramSlice) (n : Nat) (bits : BitVec 72) (s : State), s.bist.dram[c] = some x → x.ph = .test n true → chanRuns s c = true → phaseOver s c x = true → comparedBits s c bits ≠ 0 →
    ∃ t, exec (.dramPhaseEnd c bits) s = .next t ∧ t.bist.dram[c] = some { x with ph := .restore false, step := 0 } ∧ fget t BST BST_STOP_COUNT = min (fget s BST BST_STOP_COUNT + 1) (2 ^ 32 - 1) ∧ fbit t BST BST_STATUS_FAULT = true
      ∧ t.d8 = s.d8 ∧ t.dram = s.dram ∧ t.wmem = s.wmem) ∧
  (∀ (c : Fin 16) (bits : BitVec 72) (s : State), chanRuns s c = false ∨ (∀ x, s.bist.dram[c] = some x → phaseOver s c x = false) → exec (.dramPhaseEnd c bits) s = .next s) ∧
  (∀ (c : Fin 16) (x : DramSlice) (ok : Bool) (s : State), s.bist.dram[c] = some x → x.ph = .restore ok → chanRuns s c = true → phaseOver s c x = true →
    ∃ t, exec (.rowRestored c) s = .next t ∧ t.bist.dram[c] = none ∧ t.bist.next[c] = (x.idx + 1) % sliceRows s ∧ (∀ f ∈ x.frames, t.frame false f = {}) ∧ (∀ l, displaced t c l = false)
      ∧ fget t BST (BST_SLICE_COUNT.nth 1) = min (fget s BST (BST_SLICE_COUNT.nth 1) + (if ok then 1 else 0)) (2 ^ 32 - 1) ∧ t.d8 = s.d8 ∧ sameStore s t) ∧
  (∀ (c : Fin 16) (s : State), chanRuns s c = false ∨ (∀ x, s.bist.dram[c] = some x → phaseOver s c x = false) → exec (.rowRestored c) s = .next s) ∧
  (∀ (c : Fin 16) (x : DramSlice) (n : Nat) (again : Bool) (s : State), s.bist.dram[c] = some x → x.ph = .test n again → chanRuns s c = true →
    ∃ t, exec (.sliceBudgetExpiry c) s = .next t ∧ t.bist.dram[c] = some { x with ph := .restore false, step := 0 } ∧ t.d8 = firstCycle8 s (x.at8 + 8 * dramBudgetNs s)
      ∧ fget t BST BST_STOP_COUNT = min (fget s BST BST_STOP_COUNT + 1) (2 ^ 32 - 1) ∧ sameStore s t) ∧
  (∀ (c : Fin 16) (x : DramSlice) (s : State), s.bist.dram[c] = some x → x.ph = .copy → chanRuns s c = true →
    ∃ t, exec (.sliceBudgetExpiry c) s = .next t ∧ t.bist.dram[c] = none ∧ t.d8 = firstCycle8 s (x.at8 + 8 * dramBudgetNs s)
      ∧ fget t BST BST_STOP_COUNT = min (fget s BST BST_STOP_COUNT + 1) (2 ^ 32 - 1) ∧ sameStore s t) ∧
  (∀ (c : Fin 16) (s : State), s.bist.dram[c] = none → exec (.sliceBudgetExpiry c) s = .next s)

/-- The `bist` verb (13_self_test.md R392, 13_self_test.md R393). Where it rests on the model's own reading or choice, log entry 66 says so. -/
def Obligations.BistVerbAnswers : Prop :=
  (∀ (u : Option Nat) (s : State), verbReady s = true → fbit s BST BST_CTL_WAY_EN = true → waySliceBad s = none →
    ∃ t, exec (.bistRun .way u) s = .next t ∧ t.con.ans = [okLn []] ∧ t.bist.way.isSome = true ∧ fbit t BST BST_STATUS_WAY_RUN = true ∧ t.d8 = s.d8 ∧ t.dram = s.dram) ∧
  (∀ (u : Option Nat) (r : String) (s : State), verbReady s = true → fbit s BST BST_CTL_WAY_EN = true → waySliceBad s = some r → ∃ t, exec (.bistRun .way u) s = .next t ∧ t.bist = s.bist ∧ answered [slice480 .way r] s t) ∧
  (∀ (u : Option Nat) (s : State), verbReady s = true → fbit s BST BST_CTL_WAY_EN = false → ∃ t, exec (.bistRun .way u) s = .next t ∧ t.bist = s.bist ∧ answered [slice481 .way (u.getD 0)] s t) ∧
  (∀ (c : Fin 16) (s : State), verbReady s = true → fbit s BST BST_CTL_DRAM_EN = true → inService s c = true → dramSliceBad s c = none →
    ∃ t, exec (.bistRun .dram (some c)) s = .next t ∧ t.con.ans = [okLn []] ∧ (t.bist.dram[c]).isSome = true ∧ t.d8 = s.d8 ∧ sameStore s t) ∧
  (∀ (c : Fin 16) (s : State), verbReady s = true → fbit s BST BST_CTL_PHY_EN = true → inService s c = true → phySliceBad s c = none →
    ∃ t, exec (.bistRun .phy (some c)) s = .next t ∧ t.con.ans = [okLn []] ∧ t.bist.phyRun[c] = some t.d8 ∧ s.d8 ≤ t.d8 ∧ t.dram = s.dram) ∧
  (∀ (p : Fin 4) (s : State), verbReady s = true → fbit s BST BST_CTL_LANE_EN = true → laneGroup s p ≠ [] → sliceGate s laneMw 200000 true = none → s.bist.laneRun[p] = none →
    ∃ t, exec (.bistRun .lane (some p)) s = .next t ∧ t.con.ans = [okLn []] ∧ t.bist.laneRun[p] = some s.d8 ∧ bitOf (fget t BST BST_STATUS_LANE_RUN) p = true ∧ t.d8 = s.d8 ∧ sameStore s t) ∧
  (∀ (p : Fin 4) (s : State), verbReady s = true → fbit s BST BST_CTL_LANE_EN = true → laneGroup s p ≠ [] → sliceGate s laneMw 200000 true = none → (s.bist.laneRun[p]).isSome = true →
    ∃ t, exec (.bistRun .lane (some p)) s = .next t ∧ t.bist = s.bist ∧ answered [slice480 .lane "state"] s t) ∧
  (∀ (u : Option Nat) (s : State), verbReady s = true → ∃ t, exec (.bistRun .patrol u) s = .next t ∧ t.bist = s.bist ∧ answered [slice481 .patrol (u.getD 0)] s t) ∧
  (∀ (u : Option Nat) (s : State), verbReady s = true →
    ∃ t, exec (.bistShow none u) s = .next t ∧ t.bist = s.bist
      ∧ answered [okLn [("way", .n (fget s BST (BST_COV_COV.nth 0))), ("dram", .n (fget s BST (BST_COV_COV.nth 1))), ("patrol", .n (fget s BST (BST_COV_COV.nth 2))), ("phy", .n (fget s BST (BST_COV_COV.nth 3))),
          ("lane", .n (fget s BST (BST_COV_COV.nth 4))), ("cyc_way_ms", .n (fget s BST (BST_CYC_MS.nth 0))), ("cyc_dram_ms", .n (fget s BST (BST_CYC_MS.nth 1))), ("faults", .n (fget s BST BST_FAULTS_COUNT))]] s t) ∧
  (∀ (b : BTarget) (u : Option Nat) (s : State), verbReady s = true → ∃ t, exec (.bistShow (some b) u) s = .next t ∧ t.bist = s.bist ∧ answered [bistShow (some b) u s] s t) ∧
  (∀ (n : Nat) (s : State), verbReady s = true → 1 ≤ n → n ≤ 64 → ∃ t, exec (.bistLog n) s = .next t ∧ t.bist = s.bist ∧ answered (listing ((bistNewest s n).map (bistFields s))) s t) ∧
  (∀ (n : Nat) (s : State), verbReady s = true → n = 0 ∨ 64 < n → ∃ t, exec (.bistLog n) s = .next t ∧ t.bist = s.bist ∧ answered [erLn 106 "out of range" [("arg", .s "last"), ("min", .n 1), ("max", .n 64)]] s t)

/-- Every command has an effect: it answers a next state, so no command of the table stops the part (98_reader.md). Where it rests on the model's own reading or choice, log entry 1 says so. -/
def Obligations.EveryCommandAnswers : Prop :=
  ∀ (c : Instr) (s : State), ∃ t, exec c s = .next t

/-- Every step keeps the canonical form of the tables and memories (00_scope.md, 16_registers.md R456). Where it rests on the model's own reading or choice, log entries 6 and 7 say so. -/
def Obligations.CanonicalFormKept : Prop :=
  ∀ (s t : State), Canon s → step s = .next t → Canon t

/-- What a cold start leaves: the register words, the ports, the channels, the memories, and the canonical form (06_arbitration.md R182, 16_registers.md R476, 17_bringup_reset.md R494). Where it rests on the model's own reading or choice, log entries 6, 8 and 9 say so. -/
def Obligations.ResetLeaves : Prop :=
  Canon State.reset ∧ State.reset.pending = [] ∧ State.reset.d8 = 0 ∧ State.reset.dram = [] ∧ State.reset.wmem = [] ∧ State.reset.streams = [] ∧ State.reset.mans = [] ∧
    (∀ a, (∀ d, d < 23 → a ≠ PWR + 0x40 + 4 * d) → rg State.reset a = regReset a) ∧ (∀ d, d < 23 → domState State.reset d = 2) ∧
    (∀ p : Fin 4, portSt State.reset p = PORT_DOWN ∧ (State.reset.port p).intake = [] ∧ State.reset.toll[p] = 4096) ∧
    (∀ c : Fin 16, chState State.reset c = 0 ∧ inMap State.reset c = false ∧ (State.reset.ring c).entries = []) ∧
    (∀ m, (State.reset.man m).st = .closed) ∧ mapLoaded State.reset = false ∧ dtimeRuns State.reset = true ∧ State.reset.pwr.pll = false ∧ strictMode State.reset = false

/-- A step on an empty queue: time passes where DTIME counts, and nothing else happens (02_request_journey.md R51, 02_request_journey.md R52). Where it rests on the model's own reading or choice, log entry 2 says so. -/
def Obligations.IdleStepsPassTime : Prop :=
  (∀ (s : State), s.pending = [] → dtimeRuns s = true → ∃ t, step s = .next t ∧ t.d8 = s.d8 + (if s.pwr.pll then 5 else 125) ∧ { t with d8 := s.d8, led := s.led } = s) ∧
  (∀ (s : State), s.pending = [] → s.pwr.mode = .banked ∨ s.pwr.mode = .off ∧ s.pwr.starter = some 2 → s.pwr.wake = none → step s = .next { s with pwr := { s.pwr with slowEdges := s.pwr.slowEdges + 1 } }) ∧
  (∀ (s : State), s.pending = [] → s.pwr.mode = .faultOff ∨ s.pwr.mode = .off ∧ s.pwr.starter ≠ some 2 → step s = .next s)

/-- A step takes one command from the queue, and no command puts one there (00_scope.md). -/
def Obligations.StepsTakeOneCommand : Prop :=
  ∀ (c : Instr) (l : List Instr) (s t : State), s.pending = c :: l → step s = .next t → t.pending = l

/-- DTIME never falls, but where it begins again or is restored (02_request_journey.md R51, 02_request_journey.md R52). -/
def Obligations.TimeNeverFalls : Prop :=
  ∀ (c : Instr) (s t : State), mayStart c = false → exec c s = .next t → s.d8 ≤ t.d8

/-- Before the map is loaded no manifest is opened (17_bringup_reset.md R496). -/
def Obligations.NoManifestBeforeTheMap : Prop :=
  (∀ (m : Nat) (f : MFields) (s : State), verbReady s = true → m < 256 → mapLoaded s = false →
    ∃ t, exec (.manifestOpen m f) s = .next t ∧ t.con.ans = [erLn 411 "manifest state" [("id", .n m), ("state", .s "nomap")]] ∧ t.mans = s.mans) ∧
  (∀ (c : Instr) (s t : State), mapLoaded s = false → (∀ m, (s.man m).st = .closed) → exec c s = .next t → ∀ m, (t.man m).st = .closed)

/-- A command leaves every memory and table that is not its own to write as it was (00_scope.md, 01_acceptance_promise.md R24, 05_manifests.md R140, 05_manifests.md R146, 09_dram_channels.md R271, 16_registers.md R468). -/
def Obligations.StoresKept : Prop :=
  ∀ (c : Instr) (s t : State), exec c s = .next t →
    (Store.ix ∉ stores c → t.ix = s.ix) ∧ (Store.streams ∉ stores c → t.streams = s.streams) ∧ (Store.mans ∉ stores c → t.mans = s.mans) ∧
    (Store.accts ∉ stores c → t.accts = s.accts) ∧ (Store.dram ∉ stores c → t.dram = s.dram) ∧ (Store.wmem ∉ stores c → t.wmem = s.wmem)

/-- A line that has been written reads back, and every other line reads as before, in DRAM and in the Waystation (09_dram_channels.md R266, 09_dram_channels.md R271). Where it rests on the model's own reading or choice, log entry 7 says so. -/
def Obligations.LinesReadBack : Prop :=
  (∀ (c k : Fin 16) (lam m : Nat) (l : Line) (s : State), Memory.wf s.dram → lam < 2 ^ 30 → m < 2 ^ 30 →
    Memory.wf (setDram c lam l s).dram ∧ dramLine (setDram c lam l s) c lam = l ∧ ((k, m) ≠ (c, lam) → dramLine (setDram c lam l s) k m = dramLine s k m) ∧ (setDram c lam l s).wmem = s.wmem) ∧
  (∀ (w k : Nat) (l : Line) (s : State), Memory.wf s.wmem →
    Memory.wf (setWayLine w l s).wmem ∧ wayLine (setWayLine w l s) w = l ∧ (k ≠ w → wayLine (setWayLine w l s) k = wayLine s k) ∧ (setWayLine w l s).dram = s.dram)

/-- Where the bytes and the counters of a line lie, and what an ADD stores (04_transactions.md R112). -/
def Obligations.LineLayout : Prop :=
  (∀ (l : List Slot) (j i : Nat), l.length = 8 → j < 8 → i < 16 → lineByte (slotsLine l) (16 * j + i) = slotByte (l.getD j 0) i) ∧
  (∀ (l : Line), slotsLine (lineSlots l) = l ∧ (lineSlots l).length = 8) ∧
  (∀ (s : State) (a : Nat) (p : Place), placeOf s (a / 128) = some p → cellGet s.dram (dramAddr p.ch p.lam + a % 128) = lineByte (dramLine s p.ch p.lam) (a % 128)) ∧
  (∀ (l : Line) (k : Nat), k < 16 → (counterOf l k).toNat = natLE ((List.range 8).map fun i => lineByte l (8 * k + i))) ∧
  (∀ (e : JEntry) (l : Line) (k : Nat), e.opc = .add → k < 16 →
    counterOf (mergedLine e l) k = if k = e.sub.toNat then counterOf l k + e.resp else counterOf l k) ∧
  (∀ (s : State) (r : Req) (p : Fin 4) (d : Nat) (late hit twin : Bool), r.opc = .add →
    (reqEntry s r p d late hit twin).resp = addOperand r.slots ∧ (reqEntry s r p d late hit twin).target.toNat = reqLine r.hdr * 128 + 8 * r.hdr.sub.toNat)

/-- The masked write of GLB_IRQ_EN, the only WM register (16_registers.md R463). -/
def Obligations.MaskedWritesMerge : Prop :=
  (∀ (v : Word) (s : State), blockOn s GLB = true →
    ∃ t, exec (.maskedWrite (GLB + GLB_IRQ_EN_EN.off) v) s = .next t
      ∧ (∀ i, i < 16 → (fget t GLB GLB_IRQ_EN_EN).testBit i = if v.getLsbD (i + 16) then v.getLsbD i else (fget s GLB GLB_IRQ_EN_EN).testBit i)
      ∧ (v.toNat < 65536 → fget t GLB GLB_IRQ_EN_EN = fget s GLB GLB_IRQ_EN_EN)) ∧
  (∀ (a : Nat), (∃ r i, regRow a = some (r, i) ∧ hasAcc r (fun x => x == .wm) = true) ↔ a = GLB + GLB_IRQ_EN_EN.off)

end
end

