-- ==== Sys2Proof/Laws/Keeps.lean ====
section
/-! SUPPORT. What it takes for a property of states to survive every operation of the model: the operations write the register file, the indirect tables, the memories, the stream records, the manifests and the accounts through a handful of named writers, and change the rest of the state freely. Each file K… of this folder says of each operation that it keeps every property closed under the writers that it reaches. -/

namespace Sys2Proof.Laws
open Sys2Proof.Machine

/-- A property that the writers of the register file and the passing of time keep, and that speaks only of DTIME, the waiting commands, the register file, the indirect tables, the memories, the stream records, the manifests and the accounts. -/
structure Closed (P : State → Prop) : Prop where
  rgSet : ∀ a w s, P s → P (rgSet a w s)
  regsMap : ∀ f s, P s → P (regsMap f s)
  time : ∀ n (s : State), s.d8 ≤ n → P s → P { s with d8 := n }
  other : ∀ (s : State) (freeX : Nat) (portsX : Vector PortState 4) (ringsX : Vector Ring 16) (arbsX : Vector ArbState 17) (orderX : Nat) (ofsOldX : List (Nat × Nat × Word)) (tollX : Vector Int 4) (wayX : WayState) (wayOpsX : List WayOp) (walksX : List (Nat × WalkRt)) (caravansX : List Caravan) (wreadsX : List WalkRead) (queX : QueueState) (chansX : Vector ChanState 16) (physX : Vector PhyState 16) (ledX : LedState) (bistX : BistState) (pwrX : PwrState) (conX : ConState) (profX : Bool) (perEndX : Nat) (tollEndX : Nat) (horizonX : Option HorizonHold) (probeX : Option ProbeRun) (guardX : Option (Nat × Word × Nat)) (latchesX : List (Nat × Nat × List Word)) (shadowX : Option Shadow) (holdX : Shadow), P s → P ⟨s.pending, s.d8, freeX, s.regs, s.ix, s.dram, s.wmem, portsX, s.streams, ringsX, s.mans, s.accts, arbsX, orderX, ofsOldX, tollX, wayX, wayOpsX, walksX, caravansX, wreadsX, queX, chansX, physX, ledX, bistX, pwrX, conX, profX, perEndX, tollEndX, horizonX, probeX, guardX, latchesX, shadowX, holdX⟩

/-- A property that the writers of the indirect tables keep. -/
structure ClosedIx (P : State → Prop) : Prop where
  ixSet : ∀ b i w s, P s → P (ixSet b i w s)
  ixDrop : ∀ b s, P s → P (ixDrop b s)
  ixRestore : ∀ f l s, P s → P (ixRestore f l s)

/-- A property that the writers of the stream records keep. -/
structure ClosedStrm (P : State → Prop) : Prop where
  setStrm : ∀ p t r s, P s → P (setStrm p t r s)
  strmMap : ∀ f s, P s → P (strmMap f s)

/-- A property that the writer of the manifests keeps. -/
structure ClosedMan (P : State → Prop) : Prop where
  setMan : ∀ m x s, P s → P (setMan m x s)

/-- A property that the writers of the accounts keep. -/
structure ClosedAcct (P : State → Prop) : Prop where
  setAcct : ∀ m c x s, P s → P (setAcct m c x s)
  acctsZero : ∀ k s, P s → P (acctsZero k s)

/-- A property that the writers of DRAM keep. -/
structure ClosedDram (P : State → Prop) : Prop where
  setDram : ∀ c lam l s, P s → P (setDram c lam l s)
  dramClear : ∀ c s, P s → P (dramClear c s)
  dramCopy : ∀ q c lo hi s, P s → P (dramCopy q c lo hi s)

/-- A property that the writer of the Waystation's lines keeps. -/
structure ClosedWay (P : State → Prop) : Prop where
  setWayLine : ∀ w l s, P s → P (setWayLine w l s)

/-- A property that the restoring of DTIME after BANKED keeps (02 R52). -/
structure ClosedRestore (P : State → Prop) : Prop where
  restore : ∀ s, P s → P { s with d8 := restored8 s }

/-- A property that the clearing of a cold start keeps. -/
structure ClosedCold (P : State → Prop) : Prop where
  coldState : ∀ c n s, P s → P (coldState c n s)

theorem foldl_keeps {P : State → Prop} {α : Type} (f : State → α → State) (l : List α) (s : State) (hf : ∀ s a, P s → P (f s a)) (hs : P s) : P (l.foldl f s) := by
  induction l generalizing s with
  | nil => exact hs
  | cons a r ih => exact ih _ (hf _ _ hs)

theorem foldl_keeps_fst {P : State → Prop} {α β : Type} (f : State × β → α → State × β) (l : List α) (x : State × β) (hf : ∀ x a, P x.1 → P (f x a).1) (hs : P x.1) : P (l.foldl f x).1 := by
  induction l generalizing x with
  | nil => exact hs
  | cons a r ih => exact ih _ (hf _ _ hs)

theorem foldl_keeps_snd {P : State → Prop} {α β : Type} (f : β × State → α → β × State) (l : List α) (x : β × State) (hf : ∀ x a, P x.2 → P (f x a).2) (hs : P x.2) : P (l.foldl f x).2 := by
  induction l generalizing x with
  | nil => exact hs
  | cons a r ih => exact ih _ (hf _ _ hs)

theorem foldl_keeps_snd2 {P : State → Prop} {α β γ : Type} (f : β × γ × State → α → β × γ × State) (l : List α) (x : β × γ × State) (hf : ∀ x a, P x.2.2 → P (f x a).2.2) (hs : P x.2.2) : P (l.foldl f x).2.2 := by
  induction l generalizing x with
  | nil => exact hs
  | cons a r ih => exact ih _ (hf _ _ hs)

theorem ite_keeps {P : State → Prop} {c : Prop} {i : Decidable c} {a b : State} (ha : c → P a) (hb : ¬c → P b) : P (if c then a else b) := by
  split
  · exact ha ‹_›
  · exact hb ‹_›

theorem of_fst {P : State → Prop} {β : Type} {x : State × β} {a : State} {b : β} (e : x = (a, b)) (h : P x.1) : P a := by rw [e] at h; exact h

theorem of_snd {P : State → Prop} {β : Type} {x : β × State} {a : State} {b : β} (e : x = (b, a)) (h : P x.2) : P a := by rw [e] at h; exact h

theorem of_snd2 {P : State → Prop} {β γ : Type} {x : β × γ × State} {a : State} {b : β} {c : γ} (e : x = (b, c, a)) (h : P x.2.2) : P a := by rw [e] at h; exact h

theorem of_mid {P : State → Prop} {β γ : Type} {x : β × State × γ} {a : State} {b : β} {c : γ} (e : x = (b, a, c)) (h : P x.2.1) : P a := by rw [e] at h; exact h

theorem of_getD {P : State → Prop} {o : Option State} {a : State} (s : State) (e : o = some a) (h : P (o.getD s)) : P a := by rw [e] at h; exact h

theorem optMap_keeps {P : State → Prop} (g : State → State) (o : Option State) (s : State) (hf : ∀ s, P s → P (g s)) (hs : P (o.getD s)) (h0 : P s) : P ((o.map g).getD s) := by
  cases o with
  | none => exact h0
  | some x => exact hf x hs

theorem optGet_keeps {P : State → Prop} {α : Type} (g : α → State) (o : Option α) (s : State) (hf : ∀ x, P (g x)) (h0 : P s) : P ((o.map g).getD s) := by
  cases o with
  | none => exact h0
  | some x => exact hf x

end Sys2Proof.Laws
end

