-- ==== Sys2Proof/Laws/KRegs.lean ====
section
/-! SUPPORT. The operations of Machine/Regs.lean keep every property closed under the writers that they reach. -/

namespace Sys2Proof.Laws
open Sys2Proof.Machine

set_option linter.unreachableTactic false
set_option linter.unusedTactic false
set_option linter.unusedVariables false

theorem rgSet_keeps {P : State → Prop} (hP : Closed P) (a : Nat) (w : Word) (s : State) (hs0 : P s) : P (rgSet a w s) := hP.rgSet a w s hs0

theorem regsMap_keeps {P : State → Prop} (hP : Closed P) (f : Nat → Word → Option Word) (s : State) (hs0 : P s) : P (regsMap f s) := hP.regsMap f s hs0

theorem fset_keeps {P : State → Prop} (hP : Closed P) (b : Nat) (f : Fld) (v : Nat) (s : State) (hs0 : P s) : P (fset b f v s) := by
  unfold fset
  repeat' (first | (with_reducible assumption) | (intro _) | (with_reducible apply rgSet_keeps) | (fail_if_no_progress with_reducible apply Closed.other hP) | (dsimp only [-Nat.reducePow, Option.getD_some, Option.getD_none]) | (with_reducible apply ite_keeps) | split | (refine of_fst (by with_reducible assumption) ?_) | (refine of_snd (by with_reducible assumption) ?_) | (refine of_snd2 (by with_reducible assumption) ?_) | (refine of_mid (by with_reducible assumption) ?_) | (refine of_getD (s := s) (by with_reducible assumption) ?_))

theorem fsetB_keeps {P : State → Prop} (hP : Closed P) (b : Nat) (f : Fld) (v : Bool) (s : State) (hs0 : P s) : P (fsetB b f v s) := by
  unfold fsetB
  repeat' (first | (with_reducible assumption) | (intro _) | (with_reducible apply fset_keeps) | (fail_if_no_progress with_reducible apply Closed.other hP) | (dsimp only [-Nat.reducePow, Option.getD_some, Option.getD_none]) | (with_reducible apply ite_keeps) | split | (refine of_fst (by with_reducible assumption) ?_) | (refine of_snd (by with_reducible assumption) ?_) | (refine of_snd2 (by with_reducible assumption) ?_) | (refine of_mid (by with_reducible assumption) ?_) | (refine of_getD (s := s) (by with_reducible assumption) ?_))

theorem fbumpN_keeps {P : State → Prop} (hP : Closed P) (b : Nat) (f : Fld) (n : Nat) (s : State) (hs0 : P s) : P (fbumpN b f n s) := by
  unfold fbumpN
  repeat' (first | (with_reducible assumption) | (intro _) | (with_reducible apply fset_keeps) | (fail_if_no_progress with_reducible apply Closed.other hP) | (dsimp only [-Nat.reducePow, Option.getD_some, Option.getD_none]) | (with_reducible apply ite_keeps) | split | (refine of_fst (by with_reducible assumption) ?_) | (refine of_snd (by with_reducible assumption) ?_) | (refine of_snd2 (by with_reducible assumption) ?_) | (refine of_mid (by with_reducible assumption) ?_) | (refine of_getD (s := s) (by with_reducible assumption) ?_))

theorem fbump_keeps {P : State → Prop} (hP : Closed P) (b : Nat) (f : Fld) (s : State) (hs0 : P s) : P (fbump b f s) := by
  unfold fbump
  repeat' (first | (with_reducible assumption) | (intro _) | (with_reducible apply fbumpN_keeps) | (fail_if_no_progress with_reducible apply Closed.other hP) | (dsimp only [-Nat.reducePow, Option.getD_some, Option.getD_none]) | (with_reducible apply ite_keeps) | split | (refine of_fst (by with_reducible assumption) ?_) | (refine of_snd (by with_reducible assumption) ?_) | (refine of_snd2 (by with_reducible assumption) ?_) | (refine of_mid (by with_reducible assumption) ?_) | (refine of_getD (s := s) (by with_reducible assumption) ?_))

theorem fmax_keeps {P : State → Prop} (hP : Closed P) (b : Nat) (f : Fld) (v : Nat) (s : State) (hs0 : P s) : P (fmax b f v s) := by
  unfold fmax
  repeat' (first | (with_reducible assumption) | (intro _) | (with_reducible apply fset_keeps) | (fail_if_no_progress with_reducible apply Closed.other hP) | (dsimp only [-Nat.reducePow, Option.getD_some, Option.getD_none]) | (with_reducible apply ite_keeps) | split | (refine of_fst (by with_reducible assumption) ?_) | (refine of_snd (by with_reducible assumption) ?_) | (refine of_snd2 (by with_reducible assumption) ?_) | (refine of_mid (by with_reducible assumption) ?_) | (refine of_getD (s := s) (by with_reducible assumption) ?_))

theorem ixSet_keeps {P : State → Prop} (hP : Closed P) (hI : ClosedIx P) (b : Nat) (i : Nat) (w : Word) (s : State) (hs0 : P s) : P (ixSet b i w s) := hI.ixSet b i w s hs0

theorem ixDrop_keeps {P : State → Prop} (hP : Closed P) (hI : ClosedIx P) (b : Nat) (s : State) (hs0 : P s) : P (ixDrop b s) := hI.ixDrop b s hs0

theorem ixRestore_keeps {P : State → Prop} (hP : Closed P) (hI : ClosedIx P) (held : Nat → Bool) (l : List (Nat × Word)) (s : State) (hs0 : P s) : P (ixRestore held l s) := hI.ixRestore held l s hs0

theorem takeFree_keeps {P : State → Prop} (hP : Closed P) (s : State) (hs0 : P s) : P (takeFree s).2 := by
  unfold takeFree
  repeat' (first | (with_reducible assumption) | (intro _) | (fail_if_no_progress with_reducible apply Closed.other hP) | (dsimp only [-Nat.reducePow, Option.getD_some, Option.getD_none]) | (with_reducible apply ite_keeps) | split | (refine of_fst (by with_reducible assumption) ?_) | (refine of_snd (by with_reducible assumption) ?_) | (refine of_snd2 (by with_reducible assumption) ?_) | (refine of_mid (by with_reducible assumption) ?_) | (refine of_getD (s := s) (by with_reducible assumption) ?_))

theorem irq_keeps {P : State → Prop} (hP : Closed P) (f : Fld) (s : State) (hs0 : P s) : P (irq f s) := by
  unfold irq
  repeat' (first | (with_reducible assumption) | (intro _) | (with_reducible apply fset_keeps) | (fail_if_no_progress with_reducible apply Closed.other hP) | (dsimp only [-Nat.reducePow, Option.getD_some, Option.getD_none]) | (with_reducible apply ite_keeps) | split | (refine of_fst (by with_reducible assumption) ?_) | (refine of_snd (by with_reducible assumption) ?_) | (refine of_snd2 (by with_reducible assumption) ?_) | (refine of_mid (by with_reducible assumption) ?_) | (refine of_getD (s := s) (by with_reducible assumption) ?_))

theorem emit_keeps {P : State → Prop} (hP : Closed P) (head : String) (fields : List (String × FVal)) (s : State) (hs0 : P s) : P (emit head fields s) := by
  unfold emit
  repeat' (first | (with_reducible assumption) | (intro _) | (with_reducible apply fset_keeps) | (with_reducible apply fbump_keeps) | (with_reducible apply irq_keeps) | (fail_if_no_progress with_reducible apply Closed.other hP) | (dsimp only [-Nat.reducePow, Option.getD_some, Option.getD_none]) | (with_reducible apply ite_keeps) | split | (refine of_fst (by with_reducible assumption) ?_) | (refine of_snd (by with_reducible assumption) ?_) | (refine of_snd2 (by with_reducible assumption) ?_) | (refine of_mid (by with_reducible assumption) ?_) | (refine of_getD (s := s) (by with_reducible assumption) ?_))

theorem updPort_keeps {P : State → Prop} (hP : Closed P) (p : Fin 4) (f : PortState → PortState) (s : State) (hs0 : P s) : P (updPort p f s) := by
  unfold updPort
  repeat' (first | (with_reducible assumption) | (intro _) | (fail_if_no_progress with_reducible apply Closed.other hP) | (dsimp only [-Nat.reducePow, Option.getD_some, Option.getD_none]) | (with_reducible apply ite_keeps) | split | (refine of_fst (by with_reducible assumption) ?_) | (refine of_snd (by with_reducible assumption) ?_) | (refine of_snd2 (by with_reducible assumption) ?_) | (refine of_mid (by with_reducible assumption) ?_) | (refine of_getD (s := s) (by with_reducible assumption) ?_))

theorem updChan_keeps {P : State → Prop} (hP : Closed P) (c : Fin 16) (f : ChanState → ChanState) (s : State) (hs0 : P s) : P (updChan c f s) := by
  unfold updChan
  repeat' (first | (with_reducible assumption) | (intro _) | (fail_if_no_progress with_reducible apply Closed.other hP) | (dsimp only [-Nat.reducePow, Option.getD_some, Option.getD_none]) | (with_reducible apply ite_keeps) | split | (refine of_fst (by with_reducible assumption) ?_) | (refine of_snd (by with_reducible assumption) ?_) | (refine of_snd2 (by with_reducible assumption) ?_) | (refine of_mid (by with_reducible assumption) ?_) | (refine of_getD (s := s) (by with_reducible assumption) ?_))

theorem updPhy_keeps {P : State → Prop} (hP : Closed P) (c : Fin 16) (f : PhyState → PhyState) (s : State) (hs0 : P s) : P (updPhy c f s) := by
  unfold updPhy
  repeat' (first | (with_reducible assumption) | (intro _) | (fail_if_no_progress with_reducible apply Closed.other hP) | (dsimp only [-Nat.reducePow, Option.getD_some, Option.getD_none]) | (with_reducible apply ite_keeps) | split | (refine of_fst (by with_reducible assumption) ?_) | (refine of_snd (by with_reducible assumption) ?_) | (refine of_snd2 (by with_reducible assumption) ?_) | (refine of_mid (by with_reducible assumption) ?_) | (refine of_getD (s := s) (by with_reducible assumption) ?_))

theorem updArb_keeps {P : State → Prop} (hP : Closed P) (a : Fin 17) (f : ArbState → ArbState) (s : State) (hs0 : P s) : P (updArb a f s) := by
  unfold updArb
  repeat' (first | (with_reducible assumption) | (intro _) | (fail_if_no_progress with_reducible apply Closed.other hP) | (dsimp only [-Nat.reducePow, Option.getD_some, Option.getD_none]) | (with_reducible apply ite_keeps) | split | (refine of_fst (by with_reducible assumption) ?_) | (refine of_snd (by with_reducible assumption) ?_) | (refine of_snd2 (by with_reducible assumption) ?_) | (refine of_mid (by with_reducible assumption) ?_) | (refine of_getD (s := s) (by with_reducible assumption) ?_))

theorem updRing_keeps {P : State → Prop} (hP : Closed P) (c : Fin 16) (f : Ring → Ring) (s : State) (hs0 : P s) : P (updRing c f s) := by
  unfold updRing
  repeat' (first | (with_reducible assumption) | (intro _) | (fail_if_no_progress with_reducible apply Closed.other hP) | (dsimp only [-Nat.reducePow, Option.getD_some, Option.getD_none]) | (with_reducible apply ite_keeps) | split | (refine of_fst (by with_reducible assumption) ?_) | (refine of_snd (by with_reducible assumption) ?_) | (refine of_snd2 (by with_reducible assumption) ?_) | (refine of_mid (by with_reducible assumption) ?_) | (refine of_getD (s := s) (by with_reducible assumption) ?_))

theorem forAll_keeps {P : State → Prop} (hP : Closed P) {α : Type} (l : List α) (f : α → State → State) (s : State) (hf2 : ∀ y0 y1, P y1 → P (f y0 y1)) (hs0 : P s) : P (forAll l f s) := by
  unfold forAll
  repeat' (first | (with_reducible assumption) | (intro _) | (with_reducible apply foldl_keeps) | (with_reducible apply foldl_keeps_fst) | (with_reducible apply foldl_keeps_snd) | (with_reducible apply foldl_keeps_snd2) | (fail_if_no_progress with_reducible apply Closed.other hP) | apply hf2 | (dsimp only [-Nat.reducePow, Option.getD_some, Option.getD_none]) | (with_reducible apply ite_keeps) | split | (refine of_fst (by with_reducible assumption) ?_) | (refine of_snd (by with_reducible assumption) ?_) | (refine of_snd2 (by with_reducible assumption) ?_) | (refine of_mid (by with_reducible assumption) ?_) | (refine of_getD (s := s) (by with_reducible assumption) ?_))

theorem onlyIf_keeps {P : State → Prop} (hP : Closed P) (c : Bool) (f : State → State) (s : State) (hf1 : ∀ y0, P y0 → P (f y0)) (hs0 : P s) : P (onlyIf c f s) := by
  unfold onlyIf
  repeat' (first | (with_reducible assumption) | (intro _) | (fail_if_no_progress with_reducible apply Closed.other hP) | apply hf1 | (dsimp only [-Nat.reducePow, Option.getD_some, Option.getD_none]) | (with_reducible apply ite_keeps) | split | (refine of_fst (by with_reducible assumption) ?_) | (refine of_snd (by with_reducible assumption) ?_) | (refine of_snd2 (by with_reducible assumption) ?_) | (refine of_mid (by with_reducible assumption) ?_) | (refine of_getD (s := s) (by with_reducible assumption) ?_))

theorem setStrm_keeps {P : State → Prop} (hP : Closed P) (hS : ClosedStrm P) (p : Fin 4) (t : BitVec 12) (r : StreamRec) (s : State) (hs0 : P s) : P (setStrm p t r s) := hS.setStrm p t r s hs0

theorem strmMap_keeps {P : State → Prop} (hP : Closed P) (hS : ClosedStrm P) (f : Nat → StreamRec → StreamRec) (s : State) (hs0 : P s) : P (strmMap f s) := hS.strmMap f s hs0

theorem setMan_keeps {P : State → Prop} (hP : Closed P) (hM : ClosedMan P) (m : Nat) (x : Manifest) (s : State) (hs0 : P s) : P (setMan m x s) := hM.setMan m x s hs0

theorem setAcct_keeps {P : State → Prop} (hP : Closed P) (hA : ClosedAcct P) (m : Nat) (c : Nat) (x : Account) (s : State) (hs0 : P s) : P (setAcct m c x s) := hA.setAcct m c x s hs0

theorem acctsZero_keeps {P : State → Prop} (hP : Closed P) (hA : ClosedAcct P) (keep : Nat → Bool) (s : State) (hs0 : P s) : P (acctsZero keep s) := hA.acctsZero keep s hs0

theorem fsetBit_keeps {P : State → Prop} (hP : Closed P) (b : Nat) (f : Fld) (i : Nat) (v : Bool) (s : State) (hs0 : P s) : P (fsetBit b f i v s) := by
  unfold fsetBit
  repeat' (first | (with_reducible assumption) | (intro _) | (with_reducible apply fset_keeps) | (fail_if_no_progress with_reducible apply Closed.other hP) | (dsimp only [-Nat.reducePow, Option.getD_some, Option.getD_none]) | (with_reducible apply ite_keeps) | split | (refine of_fst (by with_reducible assumption) ?_) | (refine of_snd (by with_reducible assumption) ?_) | (refine of_snd2 (by with_reducible assumption) ?_) | (refine of_mid (by with_reducible assumption) ?_) | (refine of_getD (s := s) (by with_reducible assumption) ?_))

theorem leaveCycle_keeps {P : State → Prop} (hP : Closed P) (l : List (Nat × Nat)) (s : State) (hs0 : P s) : P (leaveCycle l s) := by
  unfold leaveCycle
  repeat' (first | (with_reducible assumption) | (intro _) | (fail_if_no_progress with_reducible apply Closed.other hP) | (dsimp only [-Nat.reducePow, Option.getD_some, Option.getD_none]) | (with_reducible apply ite_keeps) | split | (refine of_fst (by with_reducible assumption) ?_) | (refine of_snd (by with_reducible assumption) ?_) | (refine of_snd2 (by with_reducible assumption) ?_) | (refine of_mid (by with_reducible assumption) ?_) | (refine of_getD (s := s) (by with_reducible assumption) ?_))

theorem chargePj_keeps {P : State → Prop} (hP : Closed P) (pj : Nat) (m : Option (BitVec 8)) (s : State) (hs0 : P s) : P (chargePj pj m s) := by
  unfold chargePj
  repeat' (first | (with_reducible assumption) | (intro _) | (fail_if_no_progress with_reducible apply Closed.other hP) | (dsimp only [-Nat.reducePow, Option.getD_some, Option.getD_none]) | (with_reducible apply ite_keeps) | split | (refine of_fst (by with_reducible assumption) ?_) | (refine of_snd (by with_reducible assumption) ?_) | (refine of_snd2 (by with_reducible assumption) ?_) | (refine of_mid (by with_reducible assumption) ?_) | (refine of_getD (s := s) (by with_reducible assumption) ?_))

theorem charge_keeps {P : State → Prop} (hP : Closed P) (i : Nat) (n : Nat) (m : Option (BitVec 8)) (s : State) (hs0 : P s) : P (charge i n m s) := by
  unfold charge
  repeat' (first | (with_reducible assumption) | (intro _) | (with_reducible apply chargePj_keeps) | (fail_if_no_progress with_reducible apply Closed.other hP) | (dsimp only [-Nat.reducePow, Option.getD_some, Option.getD_none]) | (with_reducible apply ite_keeps) | split | (refine of_fst (by with_reducible assumption) ?_) | (refine of_snd (by with_reducible assumption) ?_) | (refine of_snd2 (by with_reducible assumption) ?_) | (refine of_mid (by with_reducible assumption) ?_) | (refine of_getD (s := s) (by with_reducible assumption) ?_))

end Sys2Proof.Laws
end

