-- ==== Sys2Proof/Laws/KClock.lean ====
section
/-! SUPPORT. The operations of Machine/Clock.lean keep every property closed under the writers that they reach. -/

namespace Sys2Proof.Laws
open Sys2Proof.Machine

set_option linter.unreachableTactic false
set_option linter.unusedTactic false
set_option linter.unusedVariables false

theorem advance_keeps {P : State → Prop} (hP : Closed P) (n8 : Nat) (s : State) (hs0 : P s) : P (advance n8 s) := by
  unfold advance
  exact hP.other _ _ _ _ _ _ _ _ _ _ _ _ _ _ _ _ _ _ _ _ _ _ _ _ _ _ _ _ _ (hP.time (s.d8 + n8) s (Nat.le_add_right _ _) hs0)

theorem advanceTo8_keeps {P : State → Prop} (hP : Closed P) (t8 : Nat) (s : State) (hs0 : P s) : P (advanceTo8 t8 s) := by
  unfold advanceTo8
  repeat' (first | (with_reducible assumption) | (intro _) | (with_reducible apply advance_keeps) | (fail_if_no_progress with_reducible apply Closed.other hP) | (dsimp only [-Nat.reducePow, Option.getD_some, Option.getD_none]) | (with_reducible apply ite_keeps) | split | (refine of_fst (by with_reducible assumption) ?_) | (refine of_snd (by with_reducible assumption) ?_) | (refine of_snd2 (by with_reducible assumption) ?_) | (refine of_mid (by with_reducible assumption) ?_) | (refine of_getD (s := s) (by with_reducible assumption) ?_))

theorem elapse_keeps {P : State → Prop} (hP : Closed P) (n8 : Nat) (s : State) (hs0 : P s) : P (elapse n8 s) := by
  unfold elapse
  repeat' (first | (with_reducible assumption) | (intro _) | (with_reducible apply advanceTo8_keeps) | (fail_if_no_progress with_reducible apply Closed.other hP) | (dsimp only [-Nat.reducePow, Option.getD_some, Option.getD_none]) | (with_reducible apply ite_keeps) | split | (refine of_fst (by with_reducible assumption) ?_) | (refine of_snd (by with_reducible assumption) ?_) | (refine of_snd2 (by with_reducible assumption) ?_) | (refine of_mid (by with_reducible assumption) ?_) | (refine of_getD (s := s) (by with_reducible assumption) ?_))

theorem advanceToNs_keeps {P : State → Prop} (hP : Closed P) (t : Nat) (s : State) (hs0 : P s) : P (advanceToNs t s) := by
  unfold advanceToNs
  repeat' (first | (with_reducible assumption) | (intro _) | (with_reducible apply advanceTo8_keeps) | (fail_if_no_progress with_reducible apply Closed.other hP) | (dsimp only [-Nat.reducePow, Option.getD_some, Option.getD_none]) | (with_reducible apply ite_keeps) | split | (refine of_fst (by with_reducible assumption) ?_) | (refine of_snd (by with_reducible assumption) ?_) | (refine of_snd2 (by with_reducible assumption) ?_) | (refine of_mid (by with_reducible assumption) ?_) | (refine of_getD (s := s) (by with_reducible assumption) ?_))

theorem idle_keeps {P : State → Prop} (hP : Closed P) (s : State) (hs0 : P s) : P (idle s) := by
  unfold idle
  repeat' (first | (with_reducible assumption) | (intro _) | (with_reducible apply advance_keeps) | (fail_if_no_progress with_reducible apply Closed.other hP) | (dsimp only [-Nat.reducePow, Option.getD_some, Option.getD_none]) | (with_reducible apply ite_keeps) | split | (refine of_fst (by with_reducible assumption) ?_) | (refine of_snd (by with_reducible assumption) ?_) | (refine of_snd2 (by with_reducible assumption) ?_) | (refine of_mid (by with_reducible assumption) ?_) | (refine of_getD (s := s) (by with_reducible assumption) ?_))

theorem guardFail_keeps {P : State → Prop} (hP : Closed P) (s : State) (hs0 : P s) : P (guardFail s) := by
  unfold guardFail
  repeat' (first | (with_reducible assumption) | (intro _) | (with_reducible apply fset_keeps) | (with_reducible apply irq_keeps) | (fail_if_no_progress with_reducible apply Closed.other hP) | (dsimp only [-Nat.reducePow, Option.getD_some, Option.getD_none]) | (with_reducible apply ite_keeps) | split | (refine of_fst (by with_reducible assumption) ?_) | (refine of_snd (by with_reducible assumption) ?_) | (refine of_snd2 (by with_reducible assumption) ?_) | (refine of_mid (by with_reducible assumption) ?_) | (refine of_getD (s := s) (by with_reducible assumption) ?_))

theorem breakPair_keeps {P : State → Prop} (hP : Closed P) (s : State) (hs0 : P s) : P (breakPair s) := by
  unfold breakPair
  repeat' (first | (with_reducible assumption) | (intro _) | (with_reducible apply guardFail_keeps) | (fail_if_no_progress with_reducible apply Closed.other hP) | (dsimp only [-Nat.reducePow, Option.getD_some, Option.getD_none]) | (with_reducible apply ite_keeps) | split | (refine of_fst (by with_reducible assumption) ?_) | (refine of_snd (by with_reducible assumption) ?_) | (refine of_snd2 (by with_reducible assumption) ?_) | (refine of_mid (by with_reducible assumption) ?_) | (refine of_getD (s := s) (by with_reducible assumption) ?_))

theorem domOff_keeps {P : State → Prop} (hP : Closed P) (s : State) (hs0 : P s) : P (domOff s) := by
  unfold domOff
  repeat' (first | (with_reducible assumption) | (intro _) | (with_reducible apply fset_keeps) | (fail_if_no_progress with_reducible apply Closed.other hP) | (dsimp only [-Nat.reducePow, Option.getD_some, Option.getD_none]) | (with_reducible apply ite_keeps) | split | (refine of_fst (by with_reducible assumption) ?_) | (refine of_snd (by with_reducible assumption) ?_) | (refine of_snd2 (by with_reducible assumption) ?_) | (refine of_mid (by with_reducible assumption) ?_) | (refine of_getD (s := s) (by with_reducible assumption) ?_))

theorem busWr_keeps {P : State → Prop} (hP : Closed P) (b : Nat) (f : State → State) (s : State) (hf1 : ∀ y0, P y0 → P (f y0)) (hs0 : P s) : P (busWr b f s) := by
  unfold busWr
  repeat' (first | (with_reducible assumption) | (intro _) | (with_reducible apply breakPair_keeps) | (with_reducible apply domOff_keeps) | (fail_if_no_progress with_reducible apply Closed.other hP) | apply hf1 | (dsimp only [-Nat.reducePow, Option.getD_some, Option.getD_none]) | (with_reducible apply ite_keeps) | split | (refine of_fst (by with_reducible assumption) ?_) | (refine of_snd (by with_reducible assumption) ?_) | (refine of_snd2 (by with_reducible assumption) ?_) | (refine of_mid (by with_reducible assumption) ?_) | (refine of_getD (s := s) (by with_reducible assumption) ?_))

end Sys2Proof.Laws
end

