-- ==== Sys2Proof/Laws/KPort.lean ====
section
/-! SUPPORT. The operations of Machine/Port.lean keep every property closed under the writers that they reach. -/

namespace Sys2Proof.Laws
open Sys2Proof.Machine

set_option linter.unreachableTactic false
set_option linter.unusedTactic false
set_option linter.unusedVariables false

theorem tunFollow_keeps {P : State → Prop} (hP : Closed P) (p : Fin 4) (s : State) (hs0 : P s) : P (tunFollow p s) := by
  unfold tunFollow
  repeat' (first | (with_reducible assumption) | (intro _) | (with_reducible apply fset_keeps) | (with_reducible apply fsetB_keeps) | (with_reducible apply onlyIf_keeps) | (fail_if_no_progress with_reducible apply Closed.other hP) | (dsimp only [-Nat.reducePow, Option.getD_some, Option.getD_none]) | (with_reducible apply ite_keeps) | split | (refine of_fst (by with_reducible assumption) ?_) | (refine of_snd (by with_reducible assumption) ?_) | (refine of_snd2 (by with_reducible assumption) ?_) | (refine of_mid (by with_reducible assumption) ?_) | (refine of_getD (s := s) (by with_reducible assumption) ?_))

theorem cycStart_keeps {P : State → Prop} (hP : Closed P) (t : Fin 5) (s : State) (hs0 : P s) : P (cycStart t s) := by
  unfold cycStart
  repeat' (first | (with_reducible assumption) | (intro _) | (fail_if_no_progress with_reducible apply Closed.other hP) | (dsimp only [-Nat.reducePow, Option.getD_some, Option.getD_none]) | (with_reducible apply ite_keeps) | split | (refine of_fst (by with_reducible assumption) ?_) | (refine of_snd (by with_reducible assumption) ?_) | (refine of_snd2 (by with_reducible assumption) ?_) | (refine of_mid (by with_reducible assumption) ?_) | (refine of_getD (s := s) (by with_reducible assumption) ?_))

theorem stopLane_keeps {P : State → Prop} (hP : Closed P) (p : Fin 4) (s : State) (hs0 : P s) : P (stopLane p s) := by
  unfold stopLane
  repeat' (first | (with_reducible assumption) | (intro _) | (with_reducible apply fbump_keeps) | (with_reducible apply fsetBit_keeps) | (fail_if_no_progress with_reducible apply Closed.other hP) | (dsimp only [-Nat.reducePow, Option.getD_some, Option.getD_none]) | (with_reducible apply ite_keeps) | split | (refine of_fst (by with_reducible assumption) ?_) | (refine of_snd (by with_reducible assumption) ?_) | (refine of_snd2 (by with_reducible assumption) ?_) | (refine of_mid (by with_reducible assumption) ?_) | (refine of_getD (s := s) (by with_reducible assumption) ?_))

theorem laneFollow_keeps {P : State → Prop} (hP : Closed P) (p : Fin 4) (s : State) (hs0 : P s) : P (laneFollow p s) := by
  unfold laneFollow
  repeat' (first | (with_reducible assumption) | (intro _) | (with_reducible apply onlyIf_keeps) | (with_reducible apply leaveCycle_keeps) | (with_reducible apply cycStart_keeps) | (with_reducible apply stopLane_keeps) | (with_reducible apply optMap_keeps) | (with_reducible apply optGet_keeps) | (fail_if_no_progress with_reducible apply Closed.other hP) | (dsimp only [-Nat.reducePow, Option.getD_some, Option.getD_none]) | (with_reducible apply ite_keeps) | split | (refine of_fst (by with_reducible assumption) ?_) | (refine of_snd (by with_reducible assumption) ?_) | (refine of_snd2 (by with_reducible assumption) ?_) | (refine of_mid (by with_reducible assumption) ?_) | (refine of_getD (s := s) (by with_reducible assumption) ?_))

theorem setPortSt_keeps {P : State → Prop} (hP : Closed P) (p : Fin 4) (v : Nat) (s : State) (hs0 : P s) : P (setPortSt p v s) := by
  unfold setPortSt
  repeat' (first | (with_reducible assumption) | (intro _) | (with_reducible apply fset_keeps) | (with_reducible apply updPort_keeps) | (with_reducible apply tunFollow_keeps) | (with_reducible apply laneFollow_keeps) | (fail_if_no_progress with_reducible apply Closed.other hP) | (dsimp only [-Nat.reducePow, Option.getD_some, Option.getD_none]) | (with_reducible apply ite_keeps) | split | (refine of_fst (by with_reducible assumption) ?_) | (refine of_snd (by with_reducible assumption) ?_) | (refine of_snd2 (by with_reducible assumption) ?_) | (refine of_mid (by with_reducible assumption) ?_) | (refine of_getD (s := s) (by with_reducible assumption) ?_))

theorem sendFlit_keeps {P : State → Prop} (hP : Closed P) (p : Fin 4) (ft : BitVec 4) (rply : Bool) (t : TxFlit) (s : State) (hs0 : P s) : P (sendFlit p ft rply t s) := by
  unfold sendFlit
  repeat' (first | (with_reducible assumption) | (intro _) | (with_reducible apply fbump_keeps) | (with_reducible apply updPort_keeps) | (with_reducible apply onlyIf_keeps) | (fail_if_no_progress with_reducible apply Closed.other hP) | (dsimp only [-Nat.reducePow, Option.getD_some, Option.getD_none]) | (with_reducible apply ite_keeps) | split | (refine of_fst (by with_reducible assumption) ?_) | (refine of_snd (by with_reducible assumption) ?_) | (refine of_snd2 (by with_reducible assumption) ?_) | (refine of_mid (by with_reducible assumption) ?_) | (refine of_getD (s := s) (by with_reducible assumption) ?_))

theorem sendData_keeps {P : State → Prop} (hP : Closed P) (p : Fin 4) (rply : Bool) (l : List TxFlit) (s : State) (hs0 : P s) : P (sendData p rply l s) := by
  unfold sendData
  repeat' (first | (with_reducible assumption) | (intro _) | (with_reducible apply forAll_keeps) | (with_reducible apply sendFlit_keeps) | (fail_if_no_progress with_reducible apply Closed.other hP) | (dsimp only [-Nat.reducePow, Option.getD_some, Option.getD_none]) | (with_reducible apply ite_keeps) | split | (refine of_fst (by with_reducible assumption) ?_) | (refine of_snd (by with_reducible assumption) ?_) | (refine of_snd2 (by with_reducible assumption) ?_) | (refine of_mid (by with_reducible assumption) ?_) | (refine of_getD (s := s) (by with_reducible assumption) ?_))

theorem sendIdle_keeps {P : State → Prop} (hP : Closed P) (p : Fin 4) (s : State) (hs0 : P s) : P (sendIdle p s) := by
  unfold sendIdle
  repeat' (first | (with_reducible assumption) | (intro _) | (with_reducible apply sendFlit_keeps) | (fail_if_no_progress with_reducible apply Closed.other hP) | (dsimp only [-Nat.reducePow, Option.getD_some, Option.getD_none]) | (with_reducible apply ite_keeps) | split | (refine of_fst (by with_reducible assumption) ?_) | (refine of_snd (by with_reducible assumption) ?_) | (refine of_snd2 (by with_reducible assumption) ?_) | (refine of_mid (by with_reducible assumption) ?_) | (refine of_getD (s := s) (by with_reducible assumption) ?_))

theorem showRab_keeps {P : State → Prop} (hP : Closed P) (p : Fin 4) (s : State) (hs0 : P s) : P (showRab p s) := by
  unfold showRab
  repeat' (first | (with_reducible assumption) | (intro _) | (with_reducible apply fset_keeps) | (fail_if_no_progress with_reducible apply Closed.other hP) | (dsimp only [-Nat.reducePow, Option.getD_some, Option.getD_none]) | (with_reducible apply ite_keeps) | split | (refine of_fst (by with_reducible assumption) ?_) | (refine of_snd (by with_reducible assumption) ?_) | (refine of_snd2 (by with_reducible assumption) ?_) | (refine of_mid (by with_reducible assumption) ?_) | (refine of_getD (s := s) (by with_reducible assumption) ?_))

theorem pump_keeps {P : State → Prop} (hP : Closed P) (p : Fin 4) (s : State) (hs0 : P s) : P (pump p s) := by
  unfold pump
  repeat' (first | (with_reducible assumption) | (intro _) | (with_reducible apply fset_keeps) | (with_reducible apply updPort_keeps) | (with_reducible apply forAll_keeps) | (with_reducible apply charge_keeps) | (with_reducible apply sendData_keeps) | (with_reducible apply sendIdle_keeps) | (with_reducible apply showRab_keeps) | (with_reducible apply optMap_keeps) | (with_reducible apply optGet_keeps) | (fail_if_no_progress with_reducible apply Closed.other hP) | (dsimp only [-Nat.reducePow, Option.getD_some, Option.getD_none]) | (with_reducible apply ite_keeps) | split | (refine of_fst (by with_reducible assumption) ?_) | (refine of_snd (by with_reducible assumption) ?_) | (refine of_snd2 (by with_reducible assumption) ?_) | (refine of_mid (by with_reducible assumption) ?_) | (refine of_getD (s := s) (by with_reducible assumption) ?_))

theorem assemble_keeps {P : State → Prop} (hP : Closed P) (p : Fin 4) (r : Resp) (s : State) (hs0 : P s) : P (assemble p r s) := by
  unfold assemble
  repeat' (first | (with_reducible assumption) | (intro _) | (with_reducible apply updPort_keeps) | (fail_if_no_progress with_reducible apply Closed.other hP) | (dsimp only [-Nat.reducePow, Option.getD_some, Option.getD_none]) | (with_reducible apply ite_keeps) | split | (refine of_fst (by with_reducible assumption) ?_) | (refine of_snd (by with_reducible assumption) ?_) | (refine of_snd2 (by with_reducible assumption) ?_) | (refine of_mid (by with_reducible assumption) ?_) | (refine of_getD (s := s) (by with_reducible assumption) ?_))

theorem respond_keeps {P : State → Prop} (hP : Closed P) (p : Fin 4) (r : Resp) (s : State) (hs0 : P s) : P (respond p r s) := by
  unfold respond
  repeat' (first | (with_reducible assumption) | (intro _) | (with_reducible apply pump_keeps) | (with_reducible apply assemble_keeps) | (fail_if_no_progress with_reducible apply Closed.other hP) | (dsimp only [-Nat.reducePow, Option.getD_some, Option.getD_none]) | (with_reducible apply ite_keeps) | split | (refine of_fst (by with_reducible assumption) ?_) | (refine of_snd (by with_reducible assumption) ?_) | (refine of_snd2 (by with_reducible assumption) ?_) | (refine of_mid (by with_reducible assumption) ?_) | (refine of_getD (s := s) (by with_reducible assumption) ?_))

theorem tunnelDown_keeps {P : State → Prop} (hP : Closed P) (p : Fin 4) (s : State) (hs0 : P s) : P (tunnelDown p s) := by
  unfold tunnelDown
  repeat' (first | (with_reducible assumption) | (intro _) | (with_reducible apply emit_keeps) | (fail_if_no_progress with_reducible apply Closed.other hP) | (dsimp only [-Nat.reducePow, Option.getD_some, Option.getD_none]) | (with_reducible apply ite_keeps) | split | (refine of_fst (by with_reducible assumption) ?_) | (refine of_snd (by with_reducible assumption) ?_) | (refine of_snd2 (by with_reducible assumption) ?_) | (refine of_mid (by with_reducible assumption) ?_) | (refine of_getD (s := s) (by with_reducible assumption) ?_))

theorem tunnelUp_keeps {P : State → Prop} (hP : Closed P) (p : Fin 4) (s : State) (hs0 : P s) : P (tunnelUp p s) := by
  unfold tunnelUp
  repeat' (first | (with_reducible assumption) | (intro _) | (with_reducible apply emit_keeps) | (with_reducible apply tunFollow_keeps) | (fail_if_no_progress with_reducible apply Closed.other hP) | (dsimp only [-Nat.reducePow, Option.getD_some, Option.getD_none]) | (with_reducible apply ite_keeps) | split | (refine of_fst (by with_reducible assumption) ?_) | (refine of_snd (by with_reducible assumption) ?_) | (refine of_snd2 (by with_reducible assumption) ?_) | (refine of_mid (by with_reducible assumption) ?_) | (refine of_getD (s := s) (by with_reducible assumption) ?_))

theorem sendTrain_keeps {P : State → Prop} (hP : Closed P) (p : Fin 4) (s : State) (hs0 : P s) : P (sendTrain p s) := by
  unfold sendTrain
  repeat' (first | (with_reducible assumption) | (intro _) | (with_reducible apply updPort_keeps) | (with_reducible apply forAll_keeps) | (with_reducible apply onlyIf_keeps) | (with_reducible apply sendFlit_keeps) | (fail_if_no_progress with_reducible apply Closed.other hP) | (dsimp only [-Nat.reducePow, Option.getD_some, Option.getD_none]) | (with_reducible apply ite_keeps) | split | (refine of_fst (by with_reducible assumption) ?_) | (refine of_snd (by with_reducible assumption) ?_) | (refine of_snd2 (by with_reducible assumption) ?_) | (refine of_mid (by with_reducible assumption) ?_) | (refine of_getD (s := s) (by with_reducible assumption) ?_))

theorem toDetect_keeps {P : State → Prop} (hP : Closed P) (p : Fin 4) (s : State) (hs0 : P s) : P (toDetect p s) := by
  unfold toDetect
  repeat' (first | (with_reducible assumption) | (intro _) | (with_reducible apply fset_keeps) | (with_reducible apply updPort_keeps) | (with_reducible apply setPortSt_keeps) | (fail_if_no_progress with_reducible apply Closed.other hP) | (dsimp only [-Nat.reducePow, Option.getD_some, Option.getD_none]) | (with_reducible apply ite_keeps) | split | (refine of_fst (by with_reducible assumption) ?_) | (refine of_snd (by with_reducible assumption) ?_) | (refine of_snd2 (by with_reducible assumption) ?_) | (refine of_mid (by with_reducible assumption) ?_) | (refine of_getD (s := s) (by with_reducible assumption) ?_))

theorem voidTags_keeps {P : State → Prop} (hP : Closed P) (hS : ClosedStrm P) (p : Fin 4) (s : State) (hs0 : P s) : P (voidTags p s) := by
  unfold voidTags
  repeat' (first | (with_reducible assumption) | (intro _) | (with_reducible apply strmMap_keeps) | (with_reducible apply optMap_keeps) | (with_reducible apply optGet_keeps) | (fail_if_no_progress with_reducible apply Closed.other hP) | (dsimp only [-Nat.reducePow, Option.getD_some, Option.getD_none]) | (with_reducible apply ite_keeps) | split | (refine of_fst (by with_reducible assumption) ?_) | (refine of_snd (by with_reducible assumption) ?_) | (refine of_snd2 (by with_reducible assumption) ?_) | (refine of_mid (by with_reducible assumption) ?_) | (refine of_getD (s := s) (by with_reducible assumption) ?_))

theorem clearPort_keeps {P : State → Prop} (hP : Closed P) (hS : ClosedStrm P) (p : Fin 4) (s : State) (hs0 : P s) : P (clearPort p s) := by
  unfold clearPort
  repeat' (first | (with_reducible assumption) | (intro _) | (with_reducible apply fset_keeps) | (with_reducible apply updPort_keeps) | (with_reducible apply tunnelDown_keeps) | (with_reducible apply voidTags_keeps) | (with_reducible apply optMap_keeps) | (with_reducible apply optGet_keeps) | (fail_if_no_progress with_reducible apply Closed.other hP) | (dsimp only [-Nat.reducePow, Option.getD_some, Option.getD_none]) | (with_reducible apply ite_keeps) | split | (refine of_fst (by with_reducible assumption) ?_) | (refine of_snd (by with_reducible assumption) ?_) | (refine of_snd2 (by with_reducible assumption) ?_) | (refine of_mid (by with_reducible assumption) ?_) | (refine of_getD (s := s) (by with_reducible assumption) ?_))

theorem portReset_keeps {P : State → Prop} (hP : Closed P) (hS : ClosedStrm P) (p : Fin 4) (cause : String) (s : State) (hs0 : P s) : P (portReset p cause s) := by
  unfold portReset
  repeat' (first | (with_reducible assumption) | (intro _) | (with_reducible apply fset_keeps) | (with_reducible apply fbump_keeps) | (with_reducible apply irq_keeps) | (with_reducible apply emit_keeps) | (with_reducible apply setPortSt_keeps) | (with_reducible apply toDetect_keeps) | (with_reducible apply clearPort_keeps) | (fail_if_no_progress with_reducible apply Closed.other hP) | (dsimp only [-Nat.reducePow, Option.getD_some, Option.getD_none]) | (with_reducible apply ite_keeps) | split | (refine of_fst (by with_reducible assumption) ?_) | (refine of_snd (by with_reducible assumption) ?_) | (refine of_snd2 (by with_reducible assumption) ?_) | (refine of_mid (by with_reducible assumption) ?_) | (refine of_getD (s := s) (by with_reducible assumption) ?_))

theorem protocolError_keeps {P : State → Prop} (hP : Closed P) (hS : ClosedStrm P) (p : Fin 4) (s : State) (hs0 : P s) : P (protocolError p s) := by
  unfold protocolError
  repeat' (first | (with_reducible assumption) | (intro _) | (with_reducible apply fset_keeps) | (with_reducible apply portReset_keeps) | (fail_if_no_progress with_reducible apply Closed.other hP) | (dsimp only [-Nat.reducePow, Option.getD_some, Option.getD_none]) | (with_reducible apply ite_keeps) | split | (refine of_fst (by with_reducible assumption) ?_) | (refine of_snd (by with_reducible assumption) ?_) | (refine of_snd2 (by with_reducible assumption) ?_) | (refine of_mid (by with_reducible assumption) ?_) | (refine of_getD (s := s) (by with_reducible assumption) ?_))

theorem portResetLanes_keeps {P : State → Prop} (hP : Closed P) (hS : ClosedStrm P) (p : Fin 4) (good : BitVec 16) (s : State) (hs0 : P s) : P (portResetLanes p good s) := by
  unfold portResetLanes
  repeat' (first | (with_reducible assumption) | (intro _) | (with_reducible apply fset_keeps) | (with_reducible apply fbump_keeps) | (with_reducible apply irq_keeps) | (with_reducible apply emit_keeps) | (with_reducible apply updPort_keeps) | (with_reducible apply setPortSt_keeps) | (with_reducible apply sendTrain_keeps) | (with_reducible apply clearPort_keeps) | (fail_if_no_progress with_reducible apply Closed.other hP) | (dsimp only [-Nat.reducePow, Option.getD_some, Option.getD_none]) | (with_reducible apply ite_keeps) | split | (refine of_fst (by with_reducible assumption) ?_) | (refine of_snd (by with_reducible assumption) ?_) | (refine of_snd2 (by with_reducible assumption) ?_) | (refine of_mid (by with_reducible assumption) ?_) | (refine of_getD (s := s) (by with_reducible assumption) ?_))

theorem toRetrain_keeps {P : State → Prop} (hP : Closed P) (p : Fin 4) (upgrade : Bool) (s : State) (hs0 : P s) : P (toRetrain p upgrade s) := by
  unfold toRetrain
  repeat' (first | (with_reducible assumption) | (intro _) | (with_reducible apply updPort_keeps) | (with_reducible apply setPortSt_keeps) | (with_reducible apply sendTrain_keeps) | (fail_if_no_progress with_reducible apply Closed.other hP) | (dsimp only [-Nat.reducePow, Option.getD_some, Option.getD_none]) | (with_reducible apply ite_keeps) | split | (refine of_fst (by with_reducible assumption) ?_) | (refine of_snd (by with_reducible assumption) ?_) | (refine of_snd2 (by with_reducible assumption) ?_) | (refine of_mid (by with_reducible assumption) ?_) | (refine of_getD (s := s) (by with_reducible assumption) ?_))

theorem retrainFail_keeps {P : State → Prop} (hP : Closed P) (hS : ClosedStrm P) (p : Fin 4) (f : Nat) (s : State) (hs0 : P s) : P (retrainFail p f s) := by
  unfold retrainFail
  repeat' (first | (with_reducible assumption) | (intro _) | (with_reducible apply fset_keeps) | (with_reducible apply updPort_keeps) | (with_reducible apply portReset_keeps) | (with_reducible apply portResetLanes_keeps) | (fail_if_no_progress with_reducible apply Closed.other hP) | (dsimp only [-Nat.reducePow, Option.getD_some, Option.getD_none]) | (with_reducible apply ite_keeps) | split | (refine of_fst (by with_reducible assumption) ?_) | (refine of_snd (by with_reducible assumption) ?_) | (refine of_snd2 (by with_reducible assumption) ?_) | (refine of_mid (by with_reducible assumption) ?_) | (refine of_getD (s := s) (by with_reducible assumption) ?_))

theorem laneFault_keeps {P : State → Prop} (hP : Closed P) (hS : ClosedStrm P) (p : Fin 4) (lane : Nat) (s : State) (hs0 : P s) : P (laneFault p lane s) := by
  unfold laneFault
  repeat' (first | (with_reducible assumption) | (intro _) | (with_reducible apply updPort_keeps) | (with_reducible apply portReset_keeps) | (with_reducible apply toRetrain_keeps) | (with_reducible apply retrainFail_keeps) | (fail_if_no_progress with_reducible apply Closed.other hP) | (dsimp only [-Nat.reducePow, Option.getD_some, Option.getD_none]) | (with_reducible apply ite_keeps) | split | (refine of_fst (by with_reducible assumption) ?_) | (refine of_snd (by with_reducible assumption) ?_) | (refine of_snd2 (by with_reducible assumption) ?_) | (refine of_mid (by with_reducible assumption) ?_) | (refine of_getD (s := s) (by with_reducible assumption) ?_))

theorem upgradeReq_keeps {P : State → Prop} (hP : Closed P) (p : Fin 4) (s : State) (hs0 : P s) : P (upgradeReq p s) := by
  unfold upgradeReq
  repeat' (first | (with_reducible assumption) | (intro _) | (with_reducible apply updPort_keeps) | (with_reducible apply toRetrain_keeps) | (fail_if_no_progress with_reducible apply Closed.other hP) | (dsimp only [-Nat.reducePow, Option.getD_some, Option.getD_none]) | (with_reducible apply ite_keeps) | split | (refine of_fst (by with_reducible assumption) ?_) | (refine of_snd (by with_reducible assumption) ?_) | (refine of_snd2 (by with_reducible assumption) ?_) | (refine of_mid (by with_reducible assumption) ?_) | (refine of_getD (s := s) (by with_reducible assumption) ?_))

theorem quietCheck_keeps {P : State → Prop} (hP : Closed P) (p : Fin 4) (s : State) (hs0 : P s) : P (quietCheck p s) := by
  unfold quietCheck
  repeat' (first | (with_reducible assumption) | (intro _) | (with_reducible apply updPort_keeps) | (with_reducible apply forAll_keeps) | (with_reducible apply setPortSt_keeps) | (with_reducible apply sendTrain_keeps) | (fail_if_no_progress with_reducible apply Closed.other hP) | (dsimp only [-Nat.reducePow, Option.getD_some, Option.getD_none]) | (with_reducible apply ite_keeps) | split | (refine of_fst (by with_reducible assumption) ?_) | (refine of_snd (by with_reducible assumption) ?_) | (refine of_snd2 (by with_reducible assumption) ?_) | (refine of_mid (by with_reducible assumption) ?_) | (refine of_getD (s := s) (by with_reducible assumption) ?_))

theorem fecCount_keeps {P : State → Prop} (hP : Closed P) (hI : ClosedIx P) (p : Fin 4) (f : Flit) (s : State) (hs0 : P s) : P (fecCount p f s) := by
  unfold fecCount
  repeat' (first | (with_reducible assumption) | (intro _) | (with_reducible apply fbump_keeps) | (with_reducible apply ixSet_keeps) | (with_reducible apply updPort_keeps) | (with_reducible apply forAll_keeps) | (with_reducible apply onlyIf_keeps) | (fail_if_no_progress with_reducible apply Closed.other hP) | (dsimp only [-Nat.reducePow, Option.getD_some, Option.getD_none]) | (with_reducible apply ite_keeps) | split | (refine of_fst (by with_reducible assumption) ?_) | (refine of_snd (by with_reducible assumption) ?_) | (refine of_snd2 (by with_reducible assumption) ?_) | (refine of_mid (by with_reducible assumption) ?_) | (refine of_getD (s := s) (by with_reducible assumption) ?_))

theorem badFlit_keeps {P : State → Prop} (hP : Closed P) (p : Fin 4) (s : State) (hs0 : P s) : P (badFlit p s) := by
  unfold badFlit
  repeat' (first | (with_reducible assumption) | (intro _) | (with_reducible apply fbump_keeps) | (fail_if_no_progress with_reducible apply Closed.other hP) | (dsimp only [-Nat.reducePow, Option.getD_some, Option.getD_none]) | (with_reducible apply ite_keeps) | split | (refine of_fst (by with_reducible assumption) ?_) | (refine of_snd (by with_reducible assumption) ?_) | (refine of_snd2 (by with_reducible assumption) ?_) | (refine of_mid (by with_reducible assumption) ?_) | (refine of_getD (s := s) (by with_reducible assumption) ?_))

theorem startNak_keeps {P : State → Prop} (hP : Closed P) (p : Fin 4) (s : State) (hs0 : P s) : P (startNak p s) := by
  unfold startNak
  repeat' (first | (with_reducible assumption) | (intro _) | (with_reducible apply updPort_keeps) | (fail_if_no_progress with_reducible apply Closed.other hP) | (dsimp only [-Nat.reducePow, Option.getD_some, Option.getD_none]) | (with_reducible apply ite_keeps) | split | (refine of_fst (by with_reducible assumption) ?_) | (refine of_snd (by with_reducible assumption) ?_) | (refine of_snd2 (by with_reducible assumption) ?_) | (refine of_mid (by with_reducible assumption) ?_) | (refine of_getD (s := s) (by with_reducible assumption) ?_))

theorem retransmit_keeps {P : State → Prop} (hP : Closed P) (p : Fin 4) (q : BitVec 12) (s : State) (hs0 : P s) : P (retransmit p q s) := by
  unfold retransmit
  repeat' (first | (with_reducible assumption) | (intro _) | (with_reducible apply updPort_keeps) | (with_reducible apply sendData_keeps) | (with_reducible apply toRetrain_keeps) | (fail_if_no_progress with_reducible apply Closed.other hP) | (dsimp only [-Nat.reducePow, Option.getD_some, Option.getD_none]) | (with_reducible apply ite_keeps) | split | (refine of_fst (by with_reducible assumption) ?_) | (refine of_snd (by with_reducible assumption) ?_) | (refine of_snd2 (by with_reducible assumption) ?_) | (refine of_mid (by with_reducible assumption) ?_) | (refine of_getD (s := s) (by with_reducible assumption) ?_))

theorem ackFree_keeps {P : State → Prop} (hP : Closed P) (p : Fin 4) (a : BitVec 12) (s : State) (hs0 : P s) : ∀ s0, P s0 → P ((ackFree p a s).getD s0) := by
  unfold ackFree
  repeat' (first | (with_reducible assumption) | (intro _) | (with_reducible apply updPort_keeps) | (fail_if_no_progress with_reducible apply Closed.other hP) | (dsimp only [-Nat.reducePow, Option.getD_some, Option.getD_none]) | (with_reducible apply ite_keeps) | split | (refine of_fst (by with_reducible assumption) ?_) | (refine of_snd (by with_reducible assumption) ?_) | (refine of_snd2 (by with_reducible assumption) ?_) | (refine of_mid (by with_reducible assumption) ?_) | (refine of_getD (s := s) (by with_reducible assumption) ?_))

theorem creditFields_keeps {P : State → Prop} (hP : Closed P) (p : Fin 4) (f : Flit) (s : State) (hs0 : P s) : P (creditFields p f s) := by
  unfold creditFields
  repeat' (first | (with_reducible assumption) | (intro _) | (with_reducible apply fset_keeps) | (with_reducible apply updPort_keeps) | (fail_if_no_progress with_reducible apply Closed.other hP) | (dsimp only [-Nat.reducePow, Option.getD_some, Option.getD_none]) | (with_reducible apply ite_keeps) | split | (refine of_fst (by with_reducible assumption) ?_) | (refine of_snd (by with_reducible assumption) ?_) | (refine of_snd2 (by with_reducible assumption) ?_) | (refine of_mid (by with_reducible assumption) ?_) | (refine of_getD (s := s) (by with_reducible assumption) ?_))

theorem linkFields_keeps {P : State → Prop} (hP : Closed P) (p : Fin 4) (f : Flit) (s : State) (hs0 : P s) : ∀ s0, P s0 → P ((linkFields p f s).getD s0) := by
  unfold linkFields
  repeat' (first | (with_reducible assumption) | (intro _) | (with_reducible apply retransmit_keeps) | (with_reducible apply ackFree_keeps) | (with_reducible apply creditFields_keeps) | (with_reducible apply optMap_keeps) | (with_reducible apply optGet_keeps) | (fail_if_no_progress with_reducible apply Closed.other hP) | (dsimp only [-Nat.reducePow, Option.getD_some, Option.getD_none]) | (with_reducible apply ite_keeps) | split | (refine of_fst (by with_reducible assumption) ?_) | (refine of_snd (by with_reducible assumption) ?_) | (refine of_snd2 (by with_reducible assumption) ?_) | (refine of_mid (by with_reducible assumption) ?_) | (refine of_getD (s := s) (by with_reducible assumption) ?_))

theorem nakSeen_keeps {P : State → Prop} (hP : Closed P) (p : Fin 4) (f : Flit) (s : State) (hs0 : P s) : P (nakSeen p f s) := by
  unfold nakSeen
  repeat' (first | (with_reducible assumption) | (intro _) | (with_reducible apply fbump_keeps) | (with_reducible apply onlyIf_keeps) | (fail_if_no_progress with_reducible apply Closed.other hP) | (dsimp only [-Nat.reducePow, Option.getD_some, Option.getD_none]) | (with_reducible apply ite_keeps) | split | (refine of_fst (by with_reducible assumption) ?_) | (refine of_snd (by with_reducible assumption) ?_) | (refine of_snd2 (by with_reducible assumption) ?_) | (refine of_mid (by with_reducible assumption) ?_) | (refine of_getD (s := s) (by with_reducible assumption) ?_))

theorem strayFlit_keeps {P : State → Prop} (hP : Closed P) (hI : ClosedIx P) (p : Fin 4) (f : Flit) (ft : Nat) (s : State) (hs0 : P s) : P (strayFlit p f ft s) := by
  unfold strayFlit
  repeat' (first | (with_reducible assumption) | (intro _) | (with_reducible apply fecCount_keeps) | (with_reducible apply badFlit_keeps) | (fail_if_no_progress with_reducible apply Closed.other hP) | (dsimp only [-Nat.reducePow, Option.getD_some, Option.getD_none]) | (with_reducible apply ite_keeps) | split | (refine of_fst (by with_reducible assumption) ?_) | (refine of_snd (by with_reducible assumption) ?_) | (refine of_snd2 (by with_reducible assumption) ?_) | (refine of_mid (by with_reducible assumption) ?_) | (refine of_getD (s := s) (by with_reducible assumption) ?_))

theorem lreqField_keeps {P : State → Prop} (hP : Closed P) (hS : ClosedStrm P) (p : Fin 4) (f : Flit) (s : State) (hs0 : P s) : P (lreqField p f s) := by
  unfold lreqField
  repeat' (first | (with_reducible assumption) | (intro _) | (with_reducible apply updPort_keeps) | (with_reducible apply toRetrain_keeps) | (with_reducible apply laneFault_keeps) | (with_reducible apply upgradeReq_keeps) | (fail_if_no_progress with_reducible apply Closed.other hP) | (dsimp only [-Nat.reducePow, Option.getD_some, Option.getD_none]) | (with_reducible apply ite_keeps) | split | (refine of_fst (by with_reducible assumption) ?_) | (refine of_snd (by with_reducible assumption) ?_) | (refine of_snd2 (by with_reducible assumption) ?_) | (refine of_mid (by with_reducible assumption) ?_) | (refine of_getD (s := s) (by with_reducible assumption) ?_))

theorem deliver_keeps {P : State → Prop} (hP : Closed P) (hS : ClosedStrm P) (p : Fin 4) (f : Flit) (s : State) (hs0 : P s) : P (deliver p f s) := by
  unfold deliver
  repeat' (first | (with_reducible assumption) | (intro _) | (with_reducible apply updPort_keeps) | (with_reducible apply protocolError_keeps) | (with_reducible apply optMap_keeps) | (with_reducible apply optGet_keeps) | (with_reducible apply foldl_keeps) | (with_reducible apply foldl_keeps_fst) | (with_reducible apply foldl_keeps_snd) | (with_reducible apply foldl_keeps_snd2) | (fail_if_no_progress with_reducible apply Closed.other hP) | (dsimp only [-Nat.reducePow, Option.getD_some, Option.getD_none]) | (with_reducible apply ite_keeps) | split | (refine of_fst (by with_reducible assumption) ?_) | (refine of_snd (by with_reducible assumption) ?_) | (refine of_snd2 (by with_reducible assumption) ?_) | (refine of_mid (by with_reducible assumption) ?_) | (refine of_getD (s := s) (by with_reducible assumption) ?_))

theorem afterFlit_keeps {P : State → Prop} (hP : Closed P) (hS : ClosedStrm P) (p : Fin 4) (f : Flit) (s : State) (hs0 : P s) : P (afterFlit p f s) := by
  unfold afterFlit
  repeat' (first | (with_reducible assumption) | (intro _) | (with_reducible apply pump_keeps) | (with_reducible apply quietCheck_keeps) | (with_reducible apply lreqField_keeps) | (fail_if_no_progress with_reducible apply Closed.other hP) | (dsimp only [-Nat.reducePow, Option.getD_some, Option.getD_none]) | (with_reducible apply ite_keeps) | split | (refine of_fst (by with_reducible assumption) ?_) | (refine of_snd (by with_reducible assumption) ?_) | (refine of_snd2 (by with_reducible assumption) ?_) | (refine of_mid (by with_reducible assumption) ?_) | (refine of_getD (s := s) (by with_reducible assumption) ?_))

theorem execDataFlit_keeps {P : State → Prop} (hP : Closed P) (hI : ClosedIx P) (hS : ClosedStrm P) (port : Fin 4) (f : Flit) (s : State) (hs0 : P s) : ∀ out, execDataFlit port f s = .next out → P out := by
  unfold execDataFlit
  intro out hout
  obtain rfl := Host.Outcome.next.inj hout
  repeat' (first | (with_reducible assumption) | (intro _) | (with_reducible apply pump_keeps) | (with_reducible apply protocolError_keeps) | (with_reducible apply fecCount_keeps) | (with_reducible apply badFlit_keeps) | (with_reducible apply startNak_keeps) | (with_reducible apply linkFields_keeps) | (with_reducible apply nakSeen_keeps) | (with_reducible apply strayFlit_keeps) | (with_reducible apply deliver_keeps) | (with_reducible apply afterFlit_keeps) | (fail_if_no_progress with_reducible apply Closed.other hP) | (dsimp only [-Nat.reducePow, Option.getD_some, Option.getD_none]) | (with_reducible apply ite_keeps) | split | (refine of_fst (by with_reducible assumption) ?_) | (refine of_snd (by with_reducible assumption) ?_) | (refine of_snd2 (by with_reducible assumption) ?_) | (refine of_mid (by with_reducible assumption) ?_) | (refine of_getD (s := s) (by with_reducible assumption) ?_))

theorem execIdleFlit_keeps {P : State → Prop} (hP : Closed P) (hI : ClosedIx P) (hS : ClosedStrm P) (port : Fin 4) (f : Flit) (s : State) (hs0 : P s) : ∀ out, execIdleFlit port f s = .next out → P out := by
  unfold execIdleFlit
  intro out hout
  obtain rfl := Host.Outcome.next.inj hout
  repeat' (first | (with_reducible assumption) | (intro _) | (with_reducible apply protocolError_keeps) | (with_reducible apply fecCount_keeps) | (with_reducible apply badFlit_keeps) | (with_reducible apply linkFields_keeps) | (with_reducible apply nakSeen_keeps) | (with_reducible apply strayFlit_keeps) | (with_reducible apply afterFlit_keeps) | (fail_if_no_progress with_reducible apply Closed.other hP) | (dsimp only [-Nat.reducePow, Option.getD_some, Option.getD_none]) | (with_reducible apply ite_keeps) | split | (refine of_fst (by with_reducible assumption) ?_) | (refine of_snd (by with_reducible assumption) ?_) | (refine of_snd2 (by with_reducible assumption) ?_) | (refine of_mid (by with_reducible assumption) ?_) | (refine of_getD (s := s) (by with_reducible assumption) ?_))

theorem measurePipe_keeps {P : State → Prop} (hP : Closed P) (p : Fin 4) (s : State) (hs0 : P s) : P (measurePipe p s) := by
  unfold measurePipe
  repeat' (first | (with_reducible assumption) | (intro _) | (with_reducible apply fset_keeps) | (with_reducible apply takeFree_keeps) | (fail_if_no_progress with_reducible apply Closed.other hP) | (dsimp only [-Nat.reducePow, Option.getD_some, Option.getD_none]) | (with_reducible apply ite_keeps) | split | (refine of_fst (by with_reducible assumption) ?_) | (refine of_snd (by with_reducible assumption) ?_) | (refine of_snd2 (by with_reducible assumption) ?_) | (refine of_mid (by with_reducible assumption) ?_) | (refine of_getD (s := s) (by with_reducible assumption) ?_))

theorem toActive_keeps {P : State → Prop} (hP : Closed P) (p : Fin 4) (t : TrainRec) (s : State) (hs0 : P s) : P (toActive p t s) := by
  unfold toActive
  repeat' (first | (with_reducible assumption) | (intro _) | (with_reducible apply fset_keeps) | (with_reducible apply fsetB_keeps) | (with_reducible apply fbump_keeps) | (with_reducible apply emit_keeps) | (with_reducible apply updPort_keeps) | (with_reducible apply setPortSt_keeps) | (with_reducible apply sendData_keeps) | (with_reducible apply pump_keeps) | (with_reducible apply tunnelUp_keeps) | (with_reducible apply quietCheck_keeps) | (with_reducible apply measurePipe_keeps) | (fail_if_no_progress with_reducible apply Closed.other hP) | (dsimp only [-Nat.reducePow, Option.getD_some, Option.getD_none]) | (with_reducible apply ite_keeps) | split | (refine of_fst (by with_reducible assumption) ?_) | (refine of_snd (by with_reducible assumption) ?_) | (refine of_snd2 (by with_reducible assumption) ?_) | (refine of_mid (by with_reducible assumption) ?_) | (refine of_getD (s := s) (by with_reducible assumption) ?_))

theorem initRecord_keeps {P : State → Prop} (hP : Closed P) (hS : ClosedStrm P) (p : Fin 4) (t : TrainRec) (s : State) (hs0 : P s) : P (initRecord p t s) := by
  unfold initRecord
  repeat' (first | (with_reducible assumption) | (intro _) | (with_reducible apply updPort_keeps) | (with_reducible apply portReset_keeps) | (with_reducible apply ackFree_keeps) | (with_reducible apply toActive_keeps) | (fail_if_no_progress with_reducible apply Closed.other hP) | (dsimp only [-Nat.reducePow, Option.getD_some, Option.getD_none]) | (with_reducible apply ite_keeps) | split | (refine of_fst (by with_reducible assumption) ?_) | (refine of_snd (by with_reducible assumption) ?_) | (refine of_snd2 (by with_reducible assumption) ?_) | (refine of_mid (by with_reducible assumption) ?_) | (refine of_getD (s := s) (by with_reducible assumption) ?_))

theorem alignRecord_keeps {P : State → Prop} (hP : Closed P) (hS : ClosedStrm P) (p : Fin 4) (t : TrainRec) (good : BitVec 16) (rev : Bool) (s : State) (hs0 : P s) : P (alignRecord p t good rev s) := by
  unfold alignRecord
  repeat' (first | (with_reducible assumption) | (intro _) | (with_reducible apply fset_keeps) | (with_reducible apply fsetB_keeps) | (with_reducible apply updPort_keeps) | (with_reducible apply setPortSt_keeps) | (with_reducible apply initRecord_keeps) | (fail_if_no_progress with_reducible apply Closed.other hP) | (dsimp only [-Nat.reducePow, Option.getD_some, Option.getD_none]) | (with_reducible apply ite_keeps) | split | (refine of_fst (by with_reducible assumption) ?_) | (refine of_snd (by with_reducible assumption) ?_) | (refine of_snd2 (by with_reducible assumption) ?_) | (refine of_mid (by with_reducible assumption) ?_) | (refine of_getD (s := s) (by with_reducible assumption) ?_))

theorem retest_keeps {P : State → Prop} (hP : Closed P) (hS : ClosedStrm P) (p : Fin 4) (good : BitVec 16) (s : State) (hs0 : P s) : P (retest p good s) := by
  unfold retest
  repeat' (first | (with_reducible assumption) | (intro _) | (with_reducible apply fset_keeps) | (with_reducible apply updPort_keeps) | (with_reducible apply retrainFail_keeps) | (fail_if_no_progress with_reducible apply Closed.other hP) | (dsimp only [-Nat.reducePow, Option.getD_some, Option.getD_none]) | (with_reducible apply ite_keeps) | split | (refine of_fst (by with_reducible assumption) ?_) | (refine of_snd (by with_reducible assumption) ?_) | (refine of_snd2 (by with_reducible assumption) ?_) | (refine of_mid (by with_reducible assumption) ?_) | (refine of_getD (s := s) (by with_reducible assumption) ?_))

theorem realign_keeps {P : State → Prop} (hP : Closed P) (hS : ClosedStrm P) (p : Fin 4) (t : TrainRec) (s : State) (hs0 : P s) : P (realign p t s) := by
  unfold realign
  repeat' (first | (with_reducible assumption) | (intro _) | (with_reducible apply fset_keeps) | (with_reducible apply updPort_keeps) | (with_reducible apply retrainFail_keeps) | (with_reducible apply initRecord_keeps) | (fail_if_no_progress with_reducible apply Closed.other hP) | (dsimp only [-Nat.reducePow, Option.getD_some, Option.getD_none]) | (with_reducible apply ite_keeps) | split | (refine of_fst (by with_reducible assumption) ?_) | (refine of_snd (by with_reducible assumption) ?_) | (refine of_snd2 (by with_reducible assumption) ?_) | (refine of_mid (by with_reducible assumption) ?_) | (refine of_getD (s := s) (by with_reducible assumption) ?_))

theorem retrainRecord_keeps {P : State → Prop} (hP : Closed P) (hS : ClosedStrm P) (p : Fin 4) (t : TrainRec) (good : BitVec 16) (s : State) (hs0 : P s) : P (retrainRecord p t good s) := by
  unfold retrainRecord
  repeat' (first | (with_reducible assumption) | (intro _) | (with_reducible apply initRecord_keeps) | (with_reducible apply retest_keeps) | (with_reducible apply realign_keeps) | (fail_if_no_progress with_reducible apply Closed.other hP) | (dsimp only [-Nat.reducePow, Option.getD_some, Option.getD_none]) | (with_reducible apply ite_keeps) | split | (refine of_fst (by with_reducible assumption) ?_) | (refine of_snd (by with_reducible assumption) ?_) | (refine of_snd2 (by with_reducible assumption) ?_) | (refine of_mid (by with_reducible assumption) ?_) | (refine of_getD (s := s) (by with_reducible assumption) ?_))

theorem trainReply_keeps {P : State → Prop} (hP : Closed P) (p : Fin 4) (s : State) (hs0 : P s) : P (trainReply p s) := by
  unfold trainReply
  repeat' (first | (with_reducible assumption) | (intro _) | (with_reducible apply onlyIf_keeps) | (with_reducible apply sendTrain_keeps) | (fail_if_no_progress with_reducible apply Closed.other hP) | (dsimp only [-Nat.reducePow, Option.getD_some, Option.getD_none]) | (with_reducible apply ite_keeps) | split | (refine of_fst (by with_reducible assumption) ?_) | (refine of_snd (by with_reducible assumption) ?_) | (refine of_snd2 (by with_reducible assumption) ?_) | (refine of_mid (by with_reducible assumption) ?_) | (refine of_getD (s := s) (by with_reducible assumption) ?_))

theorem execTrainFlit_keeps {P : State → Prop} (hP : Closed P) (hI : ClosedIx P) (hS : ClosedStrm P) (port : Fin 4) (f : Flit) (lock : BitVec 16) (pass : BitVec 16) (rev : Bool) (s : State) (hs0 : P s) : ∀ out, execTrainFlit port f lock pass rev s = .next out → P out := by
  unfold execTrainFlit
  intro out hout
  obtain rfl := Host.Outcome.next.inj hout
  repeat' (first | (with_reducible assumption) | (intro _) | (with_reducible apply updPort_keeps) | (with_reducible apply protocolError_keeps) | (with_reducible apply toRetrain_keeps) | (with_reducible apply fecCount_keeps) | (with_reducible apply badFlit_keeps) | (with_reducible apply initRecord_keeps) | (with_reducible apply alignRecord_keeps) | (with_reducible apply retrainRecord_keeps) | (with_reducible apply trainReply_keeps) | (fail_if_no_progress with_reducible apply Closed.other hP) | (dsimp only [-Nat.reducePow, Option.getD_some, Option.getD_none]) | (with_reducible apply ite_keeps) | split | (refine of_fst (by with_reducible assumption) ?_) | (refine of_snd (by with_reducible assumption) ?_) | (refine of_snd2 (by with_reducible assumption) ?_) | (refine of_mid (by with_reducible assumption) ?_) | (refine of_getD (s := s) (by with_reducible assumption) ?_))

theorem execNakTimeout_keeps {P : State → Prop} (hP : Closed P) (port : Fin 4) (s : State) (hs0 : P s) : ∀ out, execNakTimeout port s = .next out → P out := by
  unfold execNakTimeout
  intro out hout
  obtain rfl := Host.Outcome.next.inj hout
  repeat' (first | (with_reducible assumption) | (intro _) | (with_reducible apply updPort_keeps) | (with_reducible apply advanceTo8_keeps) | (with_reducible apply pump_keeps) | (fail_if_no_progress with_reducible apply Closed.other hP) | (dsimp only [-Nat.reducePow, Option.getD_some, Option.getD_none]) | (with_reducible apply ite_keeps) | split | (refine of_fst (by with_reducible assumption) ?_) | (refine of_snd (by with_reducible assumption) ?_) | (refine of_snd2 (by with_reducible assumption) ?_) | (refine of_mid (by with_reducible assumption) ?_) | (refine of_getD (s := s) (by with_reducible assumption) ?_))

theorem execAckTimeout_keeps {P : State → Prop} (hP : Closed P) (port : Fin 4) (s : State) (hs0 : P s) : ∀ out, execAckTimeout port s = .next out → P out := by
  unfold execAckTimeout
  intro out hout
  obtain rfl := Host.Outcome.next.inj hout
  repeat' (first | (with_reducible assumption) | (intro _) | (with_reducible apply fbump_keeps) | (with_reducible apply onlyIf_keeps) | (with_reducible apply advanceTo8_keeps) | (with_reducible apply retransmit_keeps) | (fail_if_no_progress with_reducible apply Closed.other hP) | (dsimp only [-Nat.reducePow, Option.getD_some, Option.getD_none]) | (with_reducible apply ite_keeps) | split | (refine of_fst (by with_reducible assumption) ?_) | (refine of_snd (by with_reducible assumption) ?_) | (refine of_snd2 (by with_reducible assumption) ?_) | (refine of_mid (by with_reducible assumption) ?_) | (refine of_getD (s := s) (by with_reducible assumption) ?_))

theorem execDetectLock_keeps {P : State → Prop} (hP : Closed P) (port : Fin 4) (good : BitVec 16) (inv : BitVec 16) (s : State) (hs0 : P s) : ∀ out, execDetectLock port good inv s = .next out → P out := by
  unfold execDetectLock
  intro out hout
  obtain rfl := Host.Outcome.next.inj hout
  repeat' (first | (with_reducible assumption) | (intro _) | (with_reducible apply fset_keeps) | (with_reducible apply updPort_keeps) | (with_reducible apply advanceTo8_keeps) | (with_reducible apply setPortSt_keeps) | (fail_if_no_progress with_reducible apply Closed.other hP) | (dsimp only [-Nat.reducePow, Option.getD_some, Option.getD_none]) | (with_reducible apply ite_keeps) | split | (refine of_fst (by with_reducible assumption) ?_) | (refine of_snd (by with_reducible assumption) ?_) | (refine of_snd2 (by with_reducible assumption) ?_) | (refine of_mid (by with_reducible assumption) ?_) | (refine of_getD (s := s) (by with_reducible assumption) ?_))

theorem execEqualiseDone_keeps {P : State → Prop} (hP : Closed P) (port : Fin 4) (good : BitVec 16) (s : State) (hs0 : P s) : ∀ out, execEqualiseDone port good s = .next out → P out := by
  unfold execEqualiseDone
  intro out hout
  obtain rfl := Host.Outcome.next.inj hout
  repeat' (first | (with_reducible assumption) | (intro _) | (with_reducible apply fset_keeps) | (with_reducible apply takeFree_keeps) | (with_reducible apply updPort_keeps) | (with_reducible apply advanceTo8_keeps) | (with_reducible apply setPortSt_keeps) | (with_reducible apply sendTrain_keeps) | (fail_if_no_progress with_reducible apply Closed.other hP) | (dsimp only [-Nat.reducePow, Option.getD_some, Option.getD_none]) | (with_reducible apply ite_keeps) | split | (refine of_fst (by with_reducible assumption) ?_) | (refine of_snd (by with_reducible assumption) ?_) | (refine of_snd2 (by with_reducible assumption) ?_) | (refine of_mid (by with_reducible assumption) ?_) | (refine of_getD (s := s) (by with_reducible assumption) ?_))

theorem execTrainingTimeout_keeps {P : State → Prop} (hP : Closed P) (hS : ClosedStrm P) (port : Fin 4) (s : State) (hs0 : P s) : ∀ out, execTrainingTimeout port s = .next out → P out := by
  unfold execTrainingTimeout
  intro out hout
  obtain rfl := Host.Outcome.next.inj hout
  repeat' (first | (with_reducible assumption) | (intro _) | (with_reducible apply fset_keeps) | (with_reducible apply irq_keeps) | (with_reducible apply emit_keeps) | (with_reducible apply advanceTo8_keeps) | (with_reducible apply setPortSt_keeps) | (with_reducible apply toDetect_keeps) | (with_reducible apply portReset_keeps) | (fail_if_no_progress with_reducible apply Closed.other hP) | (dsimp only [-Nat.reducePow, Option.getD_some, Option.getD_none]) | (with_reducible apply ite_keeps) | split | (refine of_fst (by with_reducible assumption) ?_) | (refine of_snd (by with_reducible assumption) ?_) | (refine of_snd2 (by with_reducible assumption) ?_) | (refine of_mid (by with_reducible assumption) ?_) | (refine of_getD (s := s) (by with_reducible assumption) ?_))

theorem execLaneSignalLoss_keeps {P : State → Prop} (hP : Closed P) (hS : ClosedStrm P) (port : Fin 4) (lane : Fin 16) (s : State) (hs0 : P s) : ∀ out, execLaneSignalLoss port lane s = .next out → P out := by
  unfold execLaneSignalLoss
  intro out hout
  obtain rfl := Host.Outcome.next.inj hout
  repeat' (first | (with_reducible assumption) | (intro _) | (with_reducible apply elapse_keeps) | (with_reducible apply laneFault_keeps) | (fail_if_no_progress with_reducible apply Closed.other hP) | (dsimp only [-Nat.reducePow, Option.getD_some, Option.getD_none]) | (with_reducible apply ite_keeps) | split | (refine of_fst (by with_reducible assumption) ?_) | (refine of_snd (by with_reducible assumption) ?_) | (refine of_snd2 (by with_reducible assumption) ?_) | (refine of_mid (by with_reducible assumption) ?_) | (refine of_getD (s := s) (by with_reducible assumption) ?_))

theorem execLaneSerWindow_keeps {P : State → Prop} (hP : Closed P) (hS : ClosedStrm P) (port : Fin 4) (s : State) (hs0 : P s) : ∀ out, execLaneSerWindow port s = .next out → P out := by
  unfold execLaneSerWindow
  intro out hout
  obtain rfl := Host.Outcome.next.inj hout
  repeat' (first | (with_reducible assumption) | (intro _) | (with_reducible apply updPort_keeps) | (with_reducible apply forAll_keeps) | (with_reducible apply laneFault_keeps) | (fail_if_no_progress with_reducible apply Closed.other hP) | (dsimp only [-Nat.reducePow, Option.getD_some, Option.getD_none]) | (with_reducible apply ite_keeps) | split | (refine of_fst (by with_reducible assumption) ?_) | (refine of_snd (by with_reducible assumption) ?_) | (refine of_snd2 (by with_reducible assumption) ?_) | (refine of_mid (by with_reducible assumption) ?_) | (refine of_getD (s := s) (by with_reducible assumption) ?_))

theorem execPortReset_keeps {P : State → Prop} (hP : Closed P) (hS : ClosedStrm P) (port : Fin 4) (s : State) (hs0 : P s) : ∀ out, execPortReset port s = .next out → P out := by
  unfold execPortReset
  intro out hout
  obtain rfl := Host.Outcome.next.inj hout
  repeat' (first | (with_reducible assumption) | (intro _) | (with_reducible apply busWr_keeps) | (with_reducible apply portReset_keeps) | (fail_if_no_progress with_reducible apply Closed.other hP) | (dsimp only [-Nat.reducePow, Option.getD_some, Option.getD_none]) | (with_reducible apply ite_keeps) | split | (refine of_fst (by with_reducible assumption) ?_) | (refine of_snd (by with_reducible assumption) ?_) | (refine of_snd2 (by with_reducible assumption) ?_) | (refine of_mid (by with_reducible assumption) ?_) | (refine of_getD (s := s) (by with_reducible assumption) ?_))

theorem retrainReq_keeps {P : State → Prop} (hP : Closed P) (port : Fin 4) (s : State) (hs0 : P s) : P (retrainReq port s) := by
  unfold retrainReq
  repeat' (first | (with_reducible assumption) | (intro _) | (with_reducible apply updPort_keeps) | (with_reducible apply toRetrain_keeps) | (fail_if_no_progress with_reducible apply Closed.other hP) | (dsimp only [-Nat.reducePow, Option.getD_some, Option.getD_none]) | (with_reducible apply ite_keeps) | split | (refine of_fst (by with_reducible assumption) ?_) | (refine of_snd (by with_reducible assumption) ?_) | (refine of_snd2 (by with_reducible assumption) ?_) | (refine of_mid (by with_reducible assumption) ?_) | (refine of_getD (s := s) (by with_reducible assumption) ?_))

theorem upgradeCmd_keeps {P : State → Prop} (hP : Closed P) (port : Fin 4) (s : State) (hs0 : P s) : P (upgradeCmd port s) := by
  unfold upgradeCmd
  repeat' (first | (with_reducible assumption) | (intro _) | (with_reducible apply updPort_keeps) | (with_reducible apply upgradeReq_keeps) | (fail_if_no_progress with_reducible apply Closed.other hP) | (dsimp only [-Nat.reducePow, Option.getD_some, Option.getD_none]) | (with_reducible apply ite_keeps) | split | (refine of_fst (by with_reducible assumption) ?_) | (refine of_snd (by with_reducible assumption) ?_) | (refine of_snd2 (by with_reducible assumption) ?_) | (refine of_mid (by with_reducible assumption) ?_) | (refine of_getD (s := s) (by with_reducible assumption) ?_))

theorem execRetrain_keeps {P : State → Prop} (hP : Closed P) (port : Fin 4) (s : State) (hs0 : P s) : ∀ out, execRetrain port s = .next out → P out := by
  unfold execRetrain
  intro out hout
  obtain rfl := Host.Outcome.next.inj hout
  repeat' (first | (with_reducible assumption) | (intro _) | (with_reducible apply busWr_keeps) | (with_reducible apply retrainReq_keeps) | (fail_if_no_progress with_reducible apply Closed.other hP) | (dsimp only [-Nat.reducePow, Option.getD_some, Option.getD_none]) | (with_reducible apply ite_keeps) | split | (refine of_fst (by with_reducible assumption) ?_) | (refine of_snd (by with_reducible assumption) ?_) | (refine of_snd2 (by with_reducible assumption) ?_) | (refine of_mid (by with_reducible assumption) ?_) | (refine of_getD (s := s) (by with_reducible assumption) ?_))

theorem execUpgrade_keeps {P : State → Prop} (hP : Closed P) (port : Fin 4) (s : State) (hs0 : P s) : ∀ out, execUpgrade port s = .next out → P out := by
  unfold execUpgrade
  intro out hout
  obtain rfl := Host.Outcome.next.inj hout
  repeat' (first | (with_reducible assumption) | (intro _) | (with_reducible apply busWr_keeps) | (with_reducible apply upgradeCmd_keeps) | (fail_if_no_progress with_reducible apply Closed.other hP) | (dsimp only [-Nat.reducePow, Option.getD_some, Option.getD_none]) | (with_reducible apply ite_keeps) | split | (refine of_fst (by with_reducible assumption) ?_) | (refine of_snd (by with_reducible assumption) ?_) | (refine of_snd2 (by with_reducible assumption) ?_) | (refine of_mid (by with_reducible assumption) ?_) | (refine of_getD (s := s) (by with_reducible assumption) ?_))

theorem setPortEn_keeps {P : State → Prop} (hP : Closed P) (hS : ClosedStrm P) (p : Fin 4) (en : Bool) (s : State) (hs0 : P s) : P (setPortEn p en s) := by
  unfold setPortEn
  repeat' (first | (with_reducible assumption) | (intro _) | (with_reducible apply fset_keeps) | (with_reducible apply fsetB_keeps) | (with_reducible apply toDetect_keeps) | (with_reducible apply portReset_keeps) | (fail_if_no_progress with_reducible apply Closed.other hP) | (dsimp only [-Nat.reducePow, Option.getD_some, Option.getD_none]) | (with_reducible apply ite_keeps) | split | (refine of_fst (by with_reducible assumption) ?_) | (refine of_snd (by with_reducible assumption) ?_) | (refine of_snd2 (by with_reducible assumption) ?_) | (refine of_mid (by with_reducible assumption) ?_) | (refine of_getD (s := s) (by with_reducible assumption) ?_))

theorem execPortEnable_keeps {P : State → Prop} (hP : Closed P) (hS : ClosedStrm P) (port : Fin 4) (en : Bool) (s : State) (hs0 : P s) : ∀ out, execPortEnable port en s = .next out → P out := by
  unfold execPortEnable
  intro out hout
  obtain rfl := Host.Outcome.next.inj hout
  repeat' (first | (with_reducible assumption) | (intro _) | (with_reducible apply busWr_keeps) | (with_reducible apply setPortEn_keeps) | (fail_if_no_progress with_reducible apply Closed.other hP) | (dsimp only [-Nat.reducePow, Option.getD_some, Option.getD_none]) | (with_reducible apply ite_keeps) | split | (refine of_fst (by with_reducible assumption) ?_) | (refine of_snd (by with_reducible assumption) ?_) | (refine of_snd2 (by with_reducible assumption) ?_) | (refine of_mid (by with_reducible assumption) ?_) | (refine of_getD (s := s) (by with_reducible assumption) ?_))

theorem setTunEn_keeps {P : State → Prop} (hP : Closed P) (p : Fin 4) (en : Bool) (s : State) (hs0 : P s) : P (setTunEn p en s) := by
  unfold setTunEn
  repeat' (first | (with_reducible assumption) | (intro _) | (with_reducible apply fset_keeps) | (with_reducible apply tunFollow_keeps) | (with_reducible apply tunnelDown_keeps) | (with_reducible apply tunnelUp_keeps) | (fail_if_no_progress with_reducible apply Closed.other hP) | (dsimp only [-Nat.reducePow, Option.getD_some, Option.getD_none]) | (with_reducible apply ite_keeps) | split | (refine of_fst (by with_reducible assumption) ?_) | (refine of_snd (by with_reducible assumption) ?_) | (refine of_snd2 (by with_reducible assumption) ?_) | (refine of_mid (by with_reducible assumption) ?_) | (refine of_getD (s := s) (by with_reducible assumption) ?_))

theorem execTunnelEnable_keeps {P : State → Prop} (hP : Closed P) (port : Fin 4) (en : Bool) (s : State) (hs0 : P s) : ∀ out, execTunnelEnable port en s = .next out → P out := by
  unfold execTunnelEnable
  intro out hout
  obtain rfl := Host.Outcome.next.inj hout
  repeat' (first | (with_reducible assumption) | (intro _) | (with_reducible apply busWr_keeps) | (with_reducible apply setTunEn_keeps) | (fail_if_no_progress with_reducible apply Closed.other hP) | (dsimp only [-Nat.reducePow, Option.getD_some, Option.getD_none]) | (with_reducible apply ite_keeps) | split | (refine of_fst (by with_reducible assumption) ?_) | (refine of_snd (by with_reducible assumption) ?_) | (refine of_snd2 (by with_reducible assumption) ?_) | (refine of_mid (by with_reducible assumption) ?_) | (refine of_getD (s := s) (by with_reducible assumption) ?_))

theorem execTxPllLockLoss_keeps {P : State → Prop} (hP : Closed P) (hS : ClosedStrm P) (port : Fin 4) (s : State) (hs0 : P s) : ∀ out, execTxPllLockLoss port s = .next out → P out := by
  unfold execTxPllLockLoss
  intro out hout
  obtain rfl := Host.Outcome.next.inj hout
  repeat' (first | (with_reducible assumption) | (intro _) | (with_reducible apply fset_keeps) | (with_reducible apply portReset_keeps) | (fail_if_no_progress with_reducible apply Closed.other hP) | (dsimp only [-Nat.reducePow, Option.getD_some, Option.getD_none]) | (with_reducible apply ite_keeps) | split | (refine of_fst (by with_reducible assumption) ?_) | (refine of_snd (by with_reducible assumption) ?_) | (refine of_snd2 (by with_reducible assumption) ?_) | (refine of_mid (by with_reducible assumption) ?_) | (refine of_getD (s := s) (by with_reducible assumption) ?_))

theorem execTime_keeps {P : State → Prop} (hP : Closed P) (port : Fin 4) (slot : Slot) (rply : Bool) (s : State) (hs0 : P s) : ∀ out, execTime port slot rply s = .next out → P out := by
  unfold execTime
  intro out hout
  obtain rfl := Host.Outcome.next.inj hout
  repeat' (first | (with_reducible assumption) | (intro _) | (with_reducible apply fbump_keeps) | (with_reducible apply updPort_keeps) | (with_reducible apply pump_keeps) | (fail_if_no_progress with_reducible apply Closed.other hP) | (dsimp only [-Nat.reducePow, Option.getD_some, Option.getD_none]) | (with_reducible apply ite_keeps) | split | (refine of_fst (by with_reducible assumption) ?_) | (refine of_snd (by with_reducible assumption) ?_) | (refine of_snd2 (by with_reducible assumption) ?_) | (refine of_mid (by with_reducible assumption) ?_) | (refine of_getD (s := s) (by with_reducible assumption) ?_))

end Sys2Proof.Laws
end

