-- ==== Sys2Proof/Laws/KJournal.lean ====
section
/-! SUPPORT. The operations of Machine/Journal.lean keep every property closed under the writers that they reach. -/

namespace Sys2Proof.Laws
open Sys2Proof.Machine

set_option linter.unreachableTactic false
set_option linter.unusedTactic false
set_option linter.unusedVariables false

theorem lastRef_keeps {P : State → Prop} (hP : Closed P) (p : Fin 4) (strm : BitVec 12) (code : Nat) (sub : Nat) (s : State) (hs0 : P s) : P (lastRef p strm code sub s) := by
  unfold lastRef
  repeat' (first | (with_reducible assumption) | (intro _) | (with_reducible apply rgSet_keeps) | (fail_if_no_progress with_reducible apply Closed.other hP) | (dsimp only [-Nat.reducePow, Option.getD_some, Option.getD_none]) | (with_reducible apply ite_keeps) | split | (refine of_fst (by with_reducible assumption) ?_) | (refine of_snd (by with_reducible assumption) ?_) | (refine of_snd2 (by with_reducible assumption) ?_) | (refine of_mid (by with_reducible assumption) ?_) | (refine of_getD (s := s) (by with_reducible assumption) ?_))

theorem countRef_keeps {P : State → Prop} (hP : Closed P) (code : Nat) (s : State) (hs0 : P s) : P (countRef code s) := by
  unfold countRef
  repeat' (first | (with_reducible assumption) | (intro _) | (with_reducible apply fbump_keeps) | (fail_if_no_progress with_reducible apply Closed.other hP) | (dsimp only [-Nat.reducePow, Option.getD_some, Option.getD_none]) | (with_reducible apply ite_keeps) | split | (refine of_fst (by with_reducible assumption) ?_) | (refine of_snd (by with_reducible assumption) ?_) | (refine of_snd2 (by with_reducible assumption) ?_) | (refine of_mid (by with_reducible assumption) ?_) | (refine of_getD (s := s) (by with_reducible assumption) ?_))

theorem releaseX_keeps {P : State → Prop} (hP : Closed P) (p : Fin 4) (r : Req) (s : State) (hs0 : P s) : P (releaseX p r s) := by
  unfold releaseX
  repeat' (first | (with_reducible assumption) | (intro _) | (with_reducible apply updPort_keeps) | (fail_if_no_progress with_reducible apply Closed.other hP) | (dsimp only [-Nat.reducePow, Option.getD_some, Option.getD_none]) | (with_reducible apply ite_keeps) | split | (refine of_fst (by with_reducible assumption) ?_) | (refine of_snd (by with_reducible assumption) ?_) | (refine of_snd2 (by with_reducible assumption) ?_) | (refine of_mid (by with_reducible assumption) ?_) | (refine of_getD (s := s) (by with_reducible assumption) ?_))

theorem refuseResp_keeps {P : State → Prop} (hP : Closed P) (p : Fin 4) (r : Req) (code : Nat) (info : Nat) (sub : Nat) (dup : Bool) (s : State) (hs0 : P s) : P (refuseResp p r code info sub dup s) := by
  unfold refuseResp
  repeat' (first | (with_reducible assumption) | (intro _) | (with_reducible apply respond_keeps) | (with_reducible apply lastRef_keeps) | (with_reducible apply countRef_keeps) | (with_reducible apply releaseX_keeps) | (fail_if_no_progress with_reducible apply Closed.other hP) | (dsimp only [-Nat.reducePow, Option.getD_some, Option.getD_none]) | (with_reducible apply ite_keeps) | split | (refine of_fst (by with_reducible assumption) ?_) | (refine of_snd (by with_reducible assumption) ?_) | (refine of_snd2 (by with_reducible assumption) ?_) | (refine of_mid (by with_reducible assumption) ?_) | (refine of_getD (s := s) (by with_reducible assumption) ?_))

theorem probeStampAt_keeps {P : State → Prop} (hP : Closed P) (k : Nat) (t : Nat) (s : State) (hs0 : P s) : P (probeStampAt k t s) := by
  unfold probeStampAt
  repeat' (first | (with_reducible assumption) | (intro _) | (with_reducible apply rgSet_keeps) | (fail_if_no_progress with_reducible apply Closed.other hP) | (dsimp only [-Nat.reducePow, Option.getD_some, Option.getD_none]) | (with_reducible apply ite_keeps) | split | (refine of_fst (by with_reducible assumption) ?_) | (refine of_snd (by with_reducible assumption) ?_) | (refine of_snd2 (by with_reducible assumption) ?_) | (refine of_mid (by with_reducible assumption) ?_) | (refine of_getD (s := s) (by with_reducible assumption) ?_))

theorem probeStamp_keeps {P : State → Prop} (hP : Closed P) (k : Nat) (s : State) (hs0 : P s) : P (probeStamp k s) := by
  unfold probeStamp
  repeat' (first | (with_reducible assumption) | (intro _) | (with_reducible apply probeStampAt_keeps) | (fail_if_no_progress with_reducible apply Closed.other hP) | (dsimp only [-Nat.reducePow, Option.getD_some, Option.getD_none]) | (with_reducible apply ite_keeps) | split | (refine of_fst (by with_reducible assumption) ?_) | (refine of_snd (by with_reducible assumption) ?_) | (refine of_snd2 (by with_reducible assumption) ?_) | (refine of_mid (by with_reducible assumption) ?_) | (refine of_getD (s := s) (by with_reducible assumption) ?_))

theorem probeAccept_keeps {P : State → Prop} (hP : Closed P) (p : Fin 4) (o : Opc) (strm : BitVec 12) (seq : BitVec 16) (arr : Nat) (t : Nat) (s : State) (hs0 : P s) : P (probeAccept p o strm seq arr t s) := by
  unfold probeAccept
  repeat' (first | (with_reducible assumption) | (intro _) | (with_reducible apply rgSet_keeps) | (with_reducible apply fset_keeps) | (with_reducible apply probeStampAt_keeps) | (with_reducible apply probeStamp_keeps) | (fail_if_no_progress with_reducible apply Closed.other hP) | (dsimp only [-Nat.reducePow, Option.getD_some, Option.getD_none]) | (with_reducible apply ite_keeps) | split | (refine of_fst (by with_reducible assumption) ?_) | (refine of_snd (by with_reducible assumption) ?_) | (refine of_snd2 (by with_reducible assumption) ?_) | (refine of_mid (by with_reducible assumption) ?_) | (refine of_getD (s := s) (by with_reducible assumption) ?_))

theorem probeService_keeps {P : State → Prop} (hP : Closed P) (p : Fin 4) (strm : BitVec 12) (seq : BitVec 16) (t : Nat) (s : State) (hs0 : P s) : P (probeService p strm seq t s) := by
  unfold probeService
  repeat' (first | (with_reducible assumption) | (intro _) | (with_reducible apply probeStampAt_keeps) | (fail_if_no_progress with_reducible apply Closed.other hP) | (dsimp only [-Nat.reducePow, Option.getD_some, Option.getD_none]) | (with_reducible apply ite_keeps) | split | (refine of_fst (by with_reducible assumption) ?_) | (refine of_snd (by with_reducible assumption) ?_) | (refine of_snd2 (by with_reducible assumption) ?_) | (refine of_mid (by with_reducible assumption) ?_) | (refine of_getD (s := s) (by with_reducible assumption) ?_))

theorem probeEnd_keeps {P : State → Prop} (hP : Closed P) (p : Fin 4) (strm : BitVec 12) (seq : BitVec 16) (s : State) (hs0 : P s) : P (probeEnd p strm seq s) := by
  unfold probeEnd
  repeat' (first | (with_reducible assumption) | (intro _) | (with_reducible apply fset_keeps) | (with_reducible apply probeStamp_keeps) | (fail_if_no_progress with_reducible apply Closed.other hP) | (dsimp only [-Nat.reducePow, Option.getD_some, Option.getD_none]) | (with_reducible apply ite_keeps) | split | (refine of_fst (by with_reducible assumption) ?_) | (refine of_snd (by with_reducible assumption) ?_) | (refine of_snd2 (by with_reducible assumption) ?_) | (refine of_mid (by with_reducible assumption) ?_) | (refine of_getD (s := s) (by with_reducible assumption) ?_))

theorem voidRuns_keeps {P : State → Prop} (hP : Closed P) (p : Fin 4) (strm : BitVec 12) (seq : BitVec 16) (id : Nat) (s : State) (hs0 : P s) : P (voidRuns p strm seq id s) := by
  unfold voidRuns
  repeat' (first | (with_reducible assumption) | (intro _) | (with_reducible apply optMap_keeps) | (with_reducible apply optGet_keeps) | (fail_if_no_progress with_reducible apply Closed.other hP) | (dsimp only [-Nat.reducePow, Option.getD_some, Option.getD_none]) | (with_reducible apply ite_keeps) | split | (refine of_fst (by with_reducible assumption) ?_) | (refine of_snd (by with_reducible assumption) ?_) | (refine of_snd2 (by with_reducible assumption) ?_) | (refine of_mid (by with_reducible assumption) ?_) | (refine of_getD (s := s) (by with_reducible assumption) ?_))

theorem countFinal_keeps {P : State → Prop} (hP : Closed P) (f : Final) (dup : Bool) (s : State) (hs0 : P s) : P (countFinal f dup s) := by
  unfold countFinal
  repeat' (first | (with_reducible assumption) | (intro _) | (with_reducible apply fbump_keeps) | (with_reducible apply countRef_keeps) | (fail_if_no_progress with_reducible apply Closed.other hP) | (dsimp only [-Nat.reducePow, Option.getD_some, Option.getD_none]) | (with_reducible apply ite_keeps) | split | (refine of_fst (by with_reducible assumption) ?_) | (refine of_snd (by with_reducible assumption) ?_) | (refine of_snd2 (by with_reducible assumption) ?_) | (refine of_mid (by with_reducible assumption) ?_) | (refine of_getD (s := s) (by with_reducible assumption) ?_))

theorem syncService_keeps {P : State → Prop} (hP : Closed P) (hS : ClosedStrm P) (p : Fin 4) (strm : BitVec 12) (s : State) (hs0 : P s) : P (syncService p strm s) := by
  unfold syncService
  repeat' (first | (with_reducible assumption) | (intro _) | (with_reducible apply setStrm_keeps) | (with_reducible apply respond_keeps) | (with_reducible apply probeService_keeps) | (with_reducible apply probeEnd_keeps) | (with_reducible apply countFinal_keeps) | (fail_if_no_progress with_reducible apply Closed.other hP) | (dsimp only [-Nat.reducePow, Option.getD_some, Option.getD_none]) | (with_reducible apply ite_keeps) | split | (refine of_fst (by with_reducible assumption) ?_) | (refine of_snd (by with_reducible assumption) ?_) | (refine of_snd2 (by with_reducible assumption) ?_) | (refine of_mid (by with_reducible assumption) ?_) | (refine of_getD (s := s) (by with_reducible assumption) ?_))

theorem ringStat_keeps {P : State → Prop} (hP : Closed P) (c : Fin 16) (s : State) (hs0 : P s) : P (ringStat c s) := by
  unfold ringStat
  repeat' (first | (with_reducible assumption) | (intro _) | (with_reducible apply fset_keeps) | (with_reducible apply fmax_keeps) | (fail_if_no_progress with_reducible apply Closed.other hP) | (dsimp only [-Nat.reducePow, Option.getD_some, Option.getD_none]) | (with_reducible apply ite_keeps) | split | (refine of_fst (by with_reducible assumption) ?_) | (refine of_snd (by with_reducible assumption) ?_) | (refine of_snd2 (by with_reducible assumption) ?_) | (refine of_mid (by with_reducible assumption) ?_) | (refine of_getD (s := s) (by with_reducible assumption) ?_))

theorem updEntry_keeps {P : State → Prop} (hP : Closed P) (c : Fin 16) (slot : Nat) (f : JEntry → JEntry) (s : State) (hs0 : P s) : P (updEntry c slot f s) := by
  unfold updEntry
  repeat' (first | (with_reducible assumption) | (intro _) | (with_reducible apply updRing_keeps) | (fail_if_no_progress with_reducible apply Closed.other hP) | (dsimp only [-Nat.reducePow, Option.getD_some, Option.getD_none]) | (with_reducible apply ite_keeps) | split | (refine of_fst (by with_reducible assumption) ?_) | (refine of_snd (by with_reducible assumption) ?_) | (refine of_snd2 (by with_reducible assumption) ?_) | (refine of_mid (by with_reducible assumption) ?_) | (refine of_getD (s := s) (by with_reducible assumption) ?_))

theorem copyOver_keeps {P : State → Prop} (hP : Closed P) (c : Fin 16) (slot : Nat) (fromB : Bool) (s : State) (hs0 : P s) : P (copyOver c slot fromB s) := by
  unfold copyOver
  repeat' (first | (with_reducible assumption) | (intro _) | (with_reducible apply updRing_keeps) | (fail_if_no_progress with_reducible apply Closed.other hP) | (dsimp only [-Nat.reducePow, Option.getD_some, Option.getD_none]) | (with_reducible apply ite_keeps) | split | (refine of_fst (by with_reducible assumption) ?_) | (refine of_snd (by with_reducible assumption) ?_) | (refine of_snd2 (by with_reducible assumption) ?_) | (refine of_mid (by with_reducible assumption) ?_) | (refine of_getD (s := s) (by with_reducible assumption) ?_))

theorem setEntrySt_keeps {P : State → Prop} (hP : Closed P) (c : Fin 16) (slot : Nat) (st : JState) (s : State) (hs0 : P s) : P (setEntrySt c slot st s) := by
  unfold setEntrySt
  repeat' (first | (with_reducible assumption) | (intro _) | (with_reducible apply charge_keeps) | (with_reducible apply updEntry_keeps) | (fail_if_no_progress with_reducible apply Closed.other hP) | (dsimp only [-Nat.reducePow, Option.getD_some, Option.getD_none]) | (with_reducible apply ite_keeps) | split | (refine of_fst (by with_reducible assumption) ?_) | (refine of_snd (by with_reducible assumption) ?_) | (refine of_snd2 (by with_reducible assumption) ?_) | (refine of_mid (by with_reducible assumption) ?_) | (refine of_getD (s := s) (by with_reducible assumption) ?_))

theorem pushEntry_keeps {P : State → Prop} (hP : Closed P) (c : Fin 16) (e : JEntry) (s : State) (hs0 : P s) : P (pushEntry c e s).1 := by
  unfold pushEntry
  repeat' (first | (with_reducible assumption) | (intro _) | (with_reducible apply updRing_keeps) | (with_reducible apply charge_keeps) | (with_reducible apply ringStat_keeps) | (fail_if_no_progress with_reducible apply Closed.other hP) | (dsimp only [-Nat.reducePow, Option.getD_some, Option.getD_none]) | (with_reducible apply ite_keeps) | split | (refine of_fst (by with_reducible assumption) ?_) | (refine of_snd (by with_reducible assumption) ?_) | (refine of_snd2 (by with_reducible assumption) ?_) | (refine of_mid (by with_reducible assumption) ?_) | (refine of_getD (s := s) (by with_reducible assumption) ?_))

theorem retireFuel_keeps {P : State → Prop} (hP : Closed P) (x0 : Nat) (x1 : Fin 16) (x2 : State) (hs0 : P x2) : P (retireFuel x0 x1 x2) := by
  fun_induction retireFuel x0 x1 x2
  all_goals repeat' (first | (with_reducible assumption) | (intro _) | (with_reducible apply updRing_keeps) | (with_reducible apply charge_keeps) | (fail_if_no_progress with_reducible apply Closed.other hP) | (dsimp only [-Nat.reducePow, Option.getD_some, Option.getD_none]) | (with_reducible apply ite_keeps) | split | (refine of_fst (by with_reducible assumption) ?_) | (refine of_snd (by with_reducible assumption) ?_) | (refine of_snd2 (by with_reducible assumption) ?_) | (refine of_mid (by with_reducible assumption) ?_) | (refine of_getD (s := x2) (by with_reducible assumption) ?_) | apply_assumption)

theorem retire_keeps {P : State → Prop} (hP : Closed P) (c : Fin 16) (s : State) (hs0 : P s) : P (retire c s) := by
  unfold retire
  repeat' (first | (with_reducible assumption) | (intro _) | (with_reducible apply ringStat_keeps) | (with_reducible apply retireFuel_keeps) | (fail_if_no_progress with_reducible apply Closed.other hP) | (dsimp only [-Nat.reducePow, Option.getD_some, Option.getD_none]) | (with_reducible apply ite_keeps) | split | (refine of_fst (by with_reducible assumption) ?_) | (refine of_snd (by with_reducible assumption) ?_) | (refine of_snd2 (by with_reducible assumption) ?_) | (refine of_mid (by with_reducible assumption) ?_) | (refine of_getD (s := s) (by with_reducible assumption) ?_))

theorem releaseSlots_keeps {P : State → Prop} (hP : Closed P) (c : Fin 16) (slot : Nat) (partner : Bool) (s : State) (hs0 : P s) : P (releaseSlots c slot partner s) := by
  unfold releaseSlots
  repeat' (first | (with_reducible assumption) | (intro _) | (with_reducible apply optMap_keeps) | (with_reducible apply optGet_keeps) | (fail_if_no_progress with_reducible apply Closed.other hP) | (dsimp only [-Nat.reducePow, Option.getD_some, Option.getD_none]) | (with_reducible apply ite_keeps) | split | (refine of_fst (by with_reducible assumption) ?_) | (refine of_snd (by with_reducible assumption) ?_) | (refine of_snd2 (by with_reducible assumption) ?_) | (refine of_mid (by with_reducible assumption) ?_) | (refine of_getD (s := s) (by with_reducible assumption) ?_))

theorem outcome_keeps {P : State → Prop} (hP : Closed P) (hS : ClosedStrm P) (c : Fin 16) (slot : Nat) (f : Final) (data : List Slot) (quiet : Bool) (s : State) (hs0 : P s) : P (outcome c slot f data quiet s) := by
  unfold outcome
  repeat' (first | (with_reducible assumption) | (intro _) | (with_reducible apply setStrm_keeps) | (with_reducible apply respond_keeps) | (with_reducible apply lastRef_keeps) | (with_reducible apply probeService_keeps) | (with_reducible apply probeEnd_keeps) | (with_reducible apply countFinal_keeps) | (with_reducible apply syncService_keeps) | (with_reducible apply updEntry_keeps) | (fail_if_no_progress with_reducible apply Closed.other hP) | (dsimp only [-Nat.reducePow, Option.getD_some, Option.getD_none]) | (with_reducible apply ite_keeps) | split | (refine of_fst (by with_reducible assumption) ?_) | (refine of_snd (by with_reducible assumption) ?_) | (refine of_snd2 (by with_reducible assumption) ?_) | (refine of_mid (by with_reducible assumption) ?_) | (refine of_getD (s := s) (by with_reducible assumption) ?_))

theorem servePoint_keeps {P : State → Prop} (hP : Closed P) (c : Fin 16) (slot : Nat) (s : State) (hs0 : P s) : P (servePoint c slot s) := by
  unfold servePoint
  repeat' (first | (with_reducible assumption) | (intro _) | (with_reducible apply probeService_keeps) | (with_reducible apply updEntry_keeps) | (fail_if_no_progress with_reducible apply Closed.other hP) | (dsimp only [-Nat.reducePow, Option.getD_some, Option.getD_none]) | (with_reducible apply ite_keeps) | split | (refine of_fst (by with_reducible assumption) ?_) | (refine of_snd (by with_reducible assumption) ?_) | (refine of_snd2 (by with_reducible assumption) ?_) | (refine of_mid (by with_reducible assumption) ?_) | (refine of_getD (s := s) (by with_reducible assumption) ?_))

theorem chCopyNs_keeps {P : State → Prop} (hP : Closed P) (ch : Fin 16) (s : State) (hs0 : P s) : P (chCopyNs ch s).2 := by
  unfold chCopyNs
  repeat' (first | (with_reducible assumption) | (intro _) | (with_reducible apply takeFree_keeps) | (fail_if_no_progress with_reducible apply Closed.other hP) | (dsimp only [-Nat.reducePow, Option.getD_some, Option.getD_none]) | (with_reducible apply ite_keeps) | split | (refine of_fst (by with_reducible assumption) ?_) | (refine of_snd (by with_reducible assumption) ?_) | (refine of_snd2 (by with_reducible assumption) ?_) | (refine of_mid (by with_reducible assumption) ?_) | (refine of_getD (s := s) (by with_reducible assumption) ?_))

theorem servePointCh_keeps {P : State → Prop} (hP : Closed P) (ch : Fin 16) (c : Fin 16) (slot : Nat) (s : State) (hs0 : P s) : P (servePointCh ch c slot s) := by
  unfold servePointCh
  repeat' (first | (with_reducible assumption) | (intro _) | (with_reducible apply probeService_keeps) | (with_reducible apply updEntry_keeps) | (with_reducible apply chCopyNs_keeps) | (fail_if_no_progress with_reducible apply Closed.other hP) | (dsimp only [-Nat.reducePow, Option.getD_some, Option.getD_none]) | (with_reducible apply ite_keeps) | split | (refine of_fst (by with_reducible assumption) ?_) | (refine of_snd (by with_reducible assumption) ?_) | (refine of_snd2 (by with_reducible assumption) ?_) | (refine of_mid (by with_reducible assumption) ?_) | (refine of_getD (s := s) (by with_reducible assumption) ?_))

theorem twinPointCh_keeps {P : State → Prop} (hP : Closed P) (ch : Fin 16) (c : Fin 16) (slot : Nat) (s : State) (hs0 : P s) : P (twinPointCh ch c slot s) := by
  unfold twinPointCh
  repeat' (first | (with_reducible assumption) | (intro _) | (with_reducible apply updEntry_keeps) | (with_reducible apply chCopyNs_keeps) | (fail_if_no_progress with_reducible apply Closed.other hP) | (dsimp only [-Nat.reducePow, Option.getD_some, Option.getD_none]) | (with_reducible apply ite_keeps) | split | (refine of_fst (by with_reducible assumption) ?_) | (refine of_snd (by with_reducible assumption) ?_) | (refine of_snd2 (by with_reducible assumption) ?_) | (refine of_mid (by with_reducible assumption) ?_) | (refine of_getD (s := s) (by with_reducible assumption) ?_))

theorem faultEntry_keeps {P : State → Prop} (hP : Closed P) (hS : ClosedStrm P) (c : Fin 16) (slot : Nat) (reason : Nat) (ch : Nat) (quiet : Bool) (s : State) (hs0 : P s) : P (faultEntry c slot reason ch quiet s) := by
  unfold faultEntry
  repeat' (first | (with_reducible assumption) | (intro _) | (with_reducible apply updEntry_keeps) | (with_reducible apply outcome_keeps) | (fail_if_no_progress with_reducible apply Closed.other hP) | (dsimp only [-Nat.reducePow, Option.getD_some, Option.getD_none]) | (with_reducible apply ite_keeps) | split | (refine of_fst (by with_reducible assumption) ?_) | (refine of_snd (by with_reducible assumption) ?_) | (refine of_snd2 (by with_reducible assumption) ?_) | (refine of_mid (by with_reducible assumption) ?_) | (refine of_getD (s := s) (by with_reducible assumption) ?_))

theorem fillStat_keeps {P : State → Prop} (hP : Closed P) (c : Fin 16) (s : State) (hs0 : P s) : P (fillStat c s) := by
  unfold fillStat
  repeat' (first | (with_reducible assumption) | (intro _) | (with_reducible apply fset_keeps) | (with_reducible apply fmax_keeps) | (fail_if_no_progress with_reducible apply Closed.other hP) | (dsimp only [-Nat.reducePow, Option.getD_some, Option.getD_none]) | (with_reducible apply ite_keeps) | split | (refine of_fst (by with_reducible assumption) ?_) | (refine of_snd (by with_reducible assumption) ?_) | (refine of_snd2 (by with_reducible assumption) ?_) | (refine of_mid (by with_reducible assumption) ?_) | (refine of_getD (s := s) (by with_reducible assumption) ?_))

theorem killCmds_keeps {P : State → Prop} (hP : Closed P) (c : Fin 16) (slot : Nat) (s : State) (hs0 : P s) : P (killCmds c slot s) := by
  unfold killCmds
  repeat' (first | (with_reducible assumption) | (intro _) | (with_reducible apply forAll_keeps) | (with_reducible apply fillStat_keeps) | (with_reducible apply optMap_keeps) | (with_reducible apply optGet_keeps) | (fail_if_no_progress with_reducible apply Closed.other hP) | (dsimp only [-Nat.reducePow, Option.getD_some, Option.getD_none]) | (with_reducible apply ite_keeps) | split | (refine of_fst (by with_reducible assumption) ?_) | (refine of_snd (by with_reducible assumption) ?_) | (refine of_snd2 (by with_reducible assumption) ?_) | (refine of_mid (by with_reducible assumption) ?_) | (refine of_getD (s := s) (by with_reducible assumption) ?_))

theorem loseEntry_keeps {P : State → Prop} (hP : Closed P) (hS : ClosedStrm P) (c : Fin 16) (slot : Nat) (reason : Nat) (quiet : Bool) (s : State) (hs0 : P s) : P (loseEntry c slot reason quiet s) := by
  unfold loseEntry
  repeat' (first | (with_reducible assumption) | (intro _) | (with_reducible apply fbump_keeps) | (with_reducible apply updChan_keeps) | (with_reducible apply onlyIf_keeps) | (with_reducible apply setEntrySt_keeps) | (with_reducible apply releaseSlots_keeps) | (with_reducible apply faultEntry_keeps) | (with_reducible apply killCmds_keeps) | (fail_if_no_progress with_reducible apply Closed.other hP) | (dsimp only [-Nat.reducePow, Option.getD_some, Option.getD_none]) | (with_reducible apply ite_keeps) | split | (refine of_fst (by with_reducible assumption) ?_) | (refine of_snd (by with_reducible assumption) ?_) | (refine of_snd2 (by with_reducible assumption) ?_) | (refine of_mid (by with_reducible assumption) ?_) | (refine of_getD (s := s) (by with_reducible assumption) ?_))

theorem journalUe_keeps {P : State → Prop} (hP : Closed P) (c : Fin 16) (slot : Nat) (copy : String) (f : Fld) (s : State) (hs0 : P s) : P (journalUe c slot copy f s) := by
  unfold journalUe
  repeat' (first | (with_reducible assumption) | (intro _) | (with_reducible apply fset_keeps) | (with_reducible apply fbumpN_keeps) | (with_reducible apply emit_keeps) | (fail_if_no_progress with_reducible apply Closed.other hP) | (dsimp only [-Nat.reducePow, Option.getD_some, Option.getD_none]) | (with_reducible apply ite_keeps) | split | (refine of_fst (by with_reducible assumption) ?_) | (refine of_snd (by with_reducible assumption) ?_) | (refine of_snd2 (by with_reducible assumption) ?_) | (refine of_mid (by with_reducible assumption) ?_) | (refine of_getD (s := s) (by with_reducible assumption) ?_))

theorem actEntry_keeps {P : State → Prop} (hP : Closed P) (hS : ClosedStrm P) (errs : List JournalErr) (c : Fin 16) (slot : Nat) (quiet : Bool) (s : State) (hs0 : P s) : P (actEntry errs c slot quiet s).1 := by
  unfold actEntry
  repeat' (first | (with_reducible assumption) | (intro _) | (with_reducible apply fset_keeps) | (with_reducible apply copyOver_keeps) | (with_reducible apply retire_keeps) | (with_reducible apply loseEntry_keeps) | (with_reducible apply journalUe_keeps) | (fail_if_no_progress with_reducible apply Closed.other hP) | (dsimp only [-Nat.reducePow, Option.getD_some, Option.getD_none]) | (with_reducible apply ite_keeps) | split | (refine of_fst (by with_reducible assumption) ?_) | (refine of_snd (by with_reducible assumption) ?_) | (refine of_snd2 (by with_reducible assumption) ?_) | (refine of_mid (by with_reducible assumption) ?_) | (refine of_getD (s := s) (by with_reducible assumption) ?_))

end Sys2Proof.Laws
end

