-- ==== Sys2Proof/Laws/KConBase.lean ====
section
/-! SUPPORT. The operations of Machine/ConBase.lean keep every property closed under the writers that they reach. -/

namespace Sys2Proof.Laws
open Sys2Proof.Machine

set_option linter.unreachableTactic false
set_option linter.unusedTactic false
set_option linter.unusedVariables false

theorem answer_keeps {P : State → Prop} (hP : Closed P) (l : List OutLn) (s : State) (hs0 : P s) : P (answer l s) := by
  unfold answer
  repeat' (first | (with_reducible assumption) | (intro _) | (with_reducible apply fbump_keeps) | (with_reducible apply onlyIf_keeps) | (fail_if_no_progress with_reducible apply Closed.other hP) | (dsimp only [-Nat.reducePow, Option.getD_some, Option.getD_none]) | (with_reducible apply ite_keeps) | split | (refine of_fst (by with_reducible assumption) ?_) | (refine of_snd (by with_reducible assumption) ?_) | (refine of_snd2 (by with_reducible assumption) ?_) | (refine of_mid (by with_reducible assumption) ?_) | (refine of_getD (s := s) (by with_reducible assumption) ?_))

theorem runVerb_keeps {P : State → Prop} (hP : Closed P) (f : State → State × List OutLn) (s : State) (hf0 : ∀ y0, P y0 → P (f y0).1) (hs0 : P s) : P (runVerb f s) := by
  unfold runVerb
  repeat' (first | (with_reducible assumption) | (intro _) | (with_reducible apply answer_keeps) | (fail_if_no_progress with_reducible apply Closed.other hP) | apply hf0 | (dsimp only [-Nat.reducePow, Option.getD_some, Option.getD_none]) | (with_reducible apply ite_keeps) | split | (refine of_fst (by with_reducible assumption) ?_) | (refine of_snd (by with_reducible assumption) ?_) | (refine of_snd2 (by with_reducible assumption) ?_) | (refine of_mid (by with_reducible assumption) ?_) | (refine of_getD (s := s) (by with_reducible assumption) ?_))

theorem runVerb1_keeps {P : State → Prop} (hP : Closed P) (f : State → State × OutLn) (s : State) (hf0 : ∀ y0, P y0 → P (f y0).1) (hs0 : P s) : P (runVerb1 f s) := by
  unfold runVerb1
  repeat' (first | (with_reducible assumption) | (intro _) | (with_reducible apply runVerb_keeps) | (fail_if_no_progress with_reducible apply Closed.other hP) | apply hf0 | (dsimp only [-Nat.reducePow, Option.getD_some, Option.getD_none]) | (with_reducible apply ite_keeps) | split | (refine of_fst (by with_reducible assumption) ?_) | (refine of_snd (by with_reducible assumption) ?_) | (refine of_snd2 (by with_reducible assumption) ?_) | (refine of_mid (by with_reducible assumption) ?_) | (refine of_getD (s := s) (by with_reducible assumption) ?_))

end Sys2Proof.Laws
end

