-- ==== Sys2Proof/Laws/KOps.lean ====
section
/-! SUPPORT. The operations of Machine/Ops.lean keep every property closed under the writers that they reach. -/

namespace Sys2Proof.Laws
open Sys2Proof.Machine

set_option linter.unreachableTactic false
set_option linter.unusedTactic false
set_option linter.unusedVariables false

theorem setDram_keeps {P : State → Prop} (hP : Closed P) (hD : ClosedDram P) (c : Fin 16) (lam : Nat) (l : Line) (s : State) (hs0 : P s) : P (setDram c lam l s) := hD.setDram c lam l s hs0

theorem dramClear_keeps {P : State → Prop} (hP : Closed P) (hD : ClosedDram P) (c : Fin 16) (s : State) (hs0 : P s) : P (dramClear c s) := hD.dramClear c s hs0

theorem dramCopy_keeps {P : State → Prop} (hP : Closed P) (hD : ClosedDram P) (q : Fin 16) (c : Fin 16) (lo : Nat) (hi : Nat) (s : State) (hs0 : P s) : P (dramCopy q c lo hi s) := hD.dramCopy q c lo hi s hs0

theorem setWayLine_keeps {P : State → Prop} (hP : Closed P) (hW : ClosedWay P) (w : Nat) (l : Line) (s : State) (hs0 : P s) : P (setWayLine w l s) := hW.setWayLine w l s hs0

theorem setDramPsn_keeps {P : State → Prop} (hP : Closed P) (c : Fin 16) (lam : Nat) (p : Bool) (s : State) (hs0 : P s) : P (setDramPsn c lam p s) := by
  unfold setDramPsn
  repeat' (first | (with_reducible assumption) | (intro _) | (with_reducible apply updChan_keeps) | (fail_if_no_progress with_reducible apply Closed.other hP) | (dsimp only [-Nat.reducePow, Option.getD_some, Option.getD_none]) | (with_reducible apply ite_keeps) | split | (refine of_fst (by with_reducible assumption) ?_) | (refine of_snd (by with_reducible assumption) ?_) | (refine of_snd2 (by with_reducible assumption) ?_) | (refine of_mid (by with_reducible assumption) ?_) | (refine of_getD (s := s) (by with_reducible assumption) ?_))

theorem storeLine_keeps {P : State → Prop} (hP : Closed P) (hD : ClosedDram P) (c : Fin 16) (lam : Nat) (l : Line) (p : Bool) (s : State) (hs0 : P s) : P (storeLine c lam l p s) := by
  unfold storeLine
  repeat' (first | (with_reducible assumption) | (intro _) | (with_reducible apply setDram_keeps) | (with_reducible apply setDramPsn_keeps) | (fail_if_no_progress with_reducible apply Closed.other hP) | (dsimp only [-Nat.reducePow, Option.getD_some, Option.getD_none]) | (with_reducible apply ite_keeps) | split | (refine of_fst (by with_reducible assumption) ?_) | (refine of_snd (by with_reducible assumption) ?_) | (refine of_snd2 (by with_reducible assumption) ?_) | (refine of_mid (by with_reducible assumption) ?_) | (refine of_getD (s := s) (by with_reducible assumption) ?_))

end Sys2Proof.Laws
end

