-- ==== Sys2Proof/Laws/KMan.lean ====
section
/-! SUPPORT. The operations of Machine/Man.lean keep every property closed under the writers that they reach. -/

namespace Sys2Proof.Laws
open Sys2Proof.Machine

set_option linter.unreachableTactic false
set_option linter.unusedTactic false
set_option linter.unusedVariables false

theorem manSums_keeps {P : State → Prop} (hP : Closed P) (s : State) (hs0 : P s) : P (manSums s) := by
  unfold manSums
  repeat' (first | (with_reducible assumption) | (intro _) | (with_reducible apply fset_keeps) | (with_reducible apply optMap_keeps) | (with_reducible apply optGet_keeps) | (fail_if_no_progress with_reducible apply Closed.other hP) | (dsimp only [-Nat.reducePow, Option.getD_some, Option.getD_none]) | (with_reducible apply ite_keeps) | split | (refine of_fst (by with_reducible assumption) ?_) | (refine of_snd (by with_reducible assumption) ?_) | (refine of_snd2 (by with_reducible assumption) ?_) | (refine of_mid (by with_reducible assumption) ?_) | (refine of_getD (s := s) (by with_reducible assumption) ?_))

theorem manBoundary_keeps {P : State → Prop} (hP : Closed P) (s : State) (hs0 : P s) : P (manBoundary s) := by
  unfold manBoundary
  repeat' (first | (with_reducible assumption) | (intro _) | (with_reducible apply fset_keeps) | (with_reducible apply forAll_keeps) | (fail_if_no_progress with_reducible apply Closed.other hP) | (dsimp only [-Nat.reducePow, Option.getD_some, Option.getD_none]) | (with_reducible apply ite_keeps) | split | (refine of_fst (by with_reducible assumption) ?_) | (refine of_snd (by with_reducible assumption) ?_) | (refine of_snd2 (by with_reducible assumption) ?_) | (refine of_mid (by with_reducible assumption) ?_) | (refine of_getD (s := s) (by with_reducible assumption) ?_))

theorem putMan_keeps {P : State → Prop} (hP : Closed P) (hM : ClosedMan P) (m : Nat) (f : MFields) (fresh : Bool) (s : State) (hs0 : P s) : P (putMan m f fresh s).1 := by
  unfold putMan
  repeat' (first | (with_reducible assumption) | (intro _) | (with_reducible apply setMan_keeps) | (with_reducible apply manSums_keeps) | (fail_if_no_progress with_reducible apply Closed.other hP) | (dsimp only [-Nat.reducePow, Option.getD_some, Option.getD_none]) | (with_reducible apply ite_keeps) | split | (refine of_fst (by with_reducible assumption) ?_) | (refine of_snd (by with_reducible assumption) ?_) | (refine of_snd2 (by with_reducible assumption) ?_) | (refine of_mid (by with_reducible assumption) ?_) | (refine of_getD (s := s) (by with_reducible assumption) ?_))

theorem manOpen_keeps {P : State → Prop} (hP : Closed P) (hM : ClosedMan P) (commit : State → State) (m : Nat) (f : MFields) (s : State) (hf0 : ∀ y0, P y0 → P (commit y0)) (hs0 : P s) : P (manOpen commit m f s).1 := by
  unfold manOpen
  repeat' (first | (with_reducible assumption) | (intro _) | (with_reducible apply putMan_keeps) | (fail_if_no_progress with_reducible apply Closed.other hP) | apply hf0 | (dsimp only [-Nat.reducePow, Option.getD_some, Option.getD_none]) | (with_reducible apply ite_keeps) | split | (refine of_fst (by with_reducible assumption) ?_) | (refine of_snd (by with_reducible assumption) ?_) | (refine of_snd2 (by with_reducible assumption) ?_) | (refine of_mid (by with_reducible assumption) ?_) | (refine of_getD (s := s) (by with_reducible assumption) ?_))

theorem manModify_keeps {P : State → Prop} (hP : Closed P) (hM : ClosedMan P) (m : Nat) (x : MMod) (s : State) (hs0 : P s) : P (manModify m x s).1 := by
  unfold manModify
  repeat' (first | (with_reducible assumption) | (intro _) | (with_reducible apply putMan_keeps) | (fail_if_no_progress with_reducible apply Closed.other hP) | (dsimp only [-Nat.reducePow, Option.getD_some, Option.getD_none]) | (with_reducible apply ite_keeps) | split | (refine of_fst (by with_reducible assumption) ?_) | (refine of_snd (by with_reducible assumption) ?_) | (refine of_snd2 (by with_reducible assumption) ?_) | (refine of_mid (by with_reducible assumption) ?_) | (refine of_getD (s := s) (by with_reducible assumption) ?_))

end Sys2Proof.Laws
end

