-- ==== Sys2Proof/Laws/KWayBase.lean ====
section
/-! SUPPORT. The operations of Machine/WayBase.lean keep every property closed under the writers that they reach. -/

namespace Sys2Proof.Laws
open Sys2Proof.Machine

set_option linter.unreachableTactic false
set_option linter.unusedTactic false
set_option linter.unusedVariables false

theorem afterClear_keeps {P : State → Prop} (hP : Closed P) (s : State) (hs0 : P s) : P (afterClear s) := by
  unfold afterClear
  repeat' (first | (with_reducible assumption) | (intro _) | (fail_if_no_progress with_reducible apply Closed.other hP) | (dsimp only [-Nat.reducePow, Option.getD_some, Option.getD_none]) | (with_reducible apply ite_keeps) | split | (refine of_fst (by with_reducible assumption) ?_) | (refine of_snd (by with_reducible assumption) ?_) | (refine of_snd2 (by with_reducible assumption) ?_) | (refine of_mid (by with_reducible assumption) ?_) | (refine of_getD (s := s) (by with_reducible assumption) ?_))

theorem setFrame_keeps {P : State → Prop} (hP : Closed P) (pinned : Bool) (f : Nat) (x : Frame) (s : State) (hs0 : P s) : P (setFrame pinned f x s) := by
  unfold setFrame
  repeat' (first | (with_reducible assumption) | (intro _) | (fail_if_no_progress with_reducible apply Closed.other hP) | (dsimp only [-Nat.reducePow, Option.getD_some, Option.getD_none]) | (with_reducible apply ite_keeps) | split | (refine of_fst (by with_reducible assumption) ?_) | (refine of_snd (by with_reducible assumption) ?_) | (refine of_snd2 (by with_reducible assumption) ?_) | (refine of_mid (by with_reducible assumption) ?_) | (refine of_getD (s := s) (by with_reducible assumption) ?_))

theorem updFrame_keeps {P : State → Prop} (hP : Closed P) (pinned : Bool) (f : Nat) (g : Frame → Frame) (s : State) (hs0 : P s) : P (updFrame pinned f g s) := by
  unfold updFrame
  repeat' (first | (with_reducible assumption) | (intro _) | (with_reducible apply setFrame_keeps) | (fail_if_no_progress with_reducible apply Closed.other hP) | (dsimp only [-Nat.reducePow, Option.getD_some, Option.getD_none]) | (with_reducible apply ite_keeps) | split | (refine of_fst (by with_reducible assumption) ?_) | (refine of_snd (by with_reducible assumption) ?_) | (refine of_snd2 (by with_reducible assumption) ?_) | (refine of_mid (by with_reducible assumption) ?_) | (refine of_getD (s := s) (by with_reducible assumption) ?_))

theorem wayStat_keeps {P : State → Prop} (hP : Closed P) (s : State) (hs0 : P s) : P (wayStat s) := by
  unfold wayStat
  repeat' (first | (with_reducible assumption) | (intro _) | (with_reducible apply fset_keeps) | (with_reducible apply fsetB_keeps) | (with_reducible apply optMap_keeps) | (with_reducible apply optGet_keeps) | (fail_if_no_progress with_reducible apply Closed.other hP) | (dsimp only [-Nat.reducePow, Option.getD_some, Option.getD_none]) | (with_reducible apply ite_keeps) | split | (refine of_fst (by with_reducible assumption) ?_) | (refine of_snd (by with_reducible assumption) ?_) | (refine of_snd2 (by with_reducible assumption) ?_) | (refine of_mid (by with_reducible assumption) ?_) | (refine of_getD (s := s) (by with_reducible assumption) ?_))

theorem pushBg_keeps {P : State → Prop} (hP : Closed P) (c : Fin 16) (k : BgCls) (x : Cmd) (s : State) (hs0 : P s) : P (pushBg c k x s) := by
  unfold pushBg
  repeat' (first | (with_reducible assumption) | (intro _) | (with_reducible apply updChan_keeps) | (fail_if_no_progress with_reducible apply Closed.other hP) | (dsimp only [-Nat.reducePow, Option.getD_some, Option.getD_none]) | (with_reducible apply ite_keeps) | split | (refine of_fst (by with_reducible assumption) ?_) | (refine of_snd (by with_reducible assumption) ?_) | (refine of_snd2 (by with_reducible assumption) ?_) | (refine of_mid (by with_reducible assumption) ?_) | (refine of_getD (s := s) (by with_reducible assumption) ?_))

theorem pushWb_keeps {P : State → Prop} (hP : Closed P) (pinned : Bool) (f : Nat) (i : Nat) (s : State) (hs0 : P s) : P (pushWb pinned f i s) := by
  unfold pushWb
  repeat' (first | (with_reducible assumption) | (intro _) | (with_reducible apply onlyIf_keeps) | (with_reducible apply setFrame_keeps) | (with_reducible apply pushBg_keeps) | (fail_if_no_progress with_reducible apply Closed.other hP) | (dsimp only [-Nat.reducePow, Option.getD_some, Option.getD_none]) | (with_reducible apply ite_keeps) | split | (refine of_fst (by with_reducible assumption) ?_) | (refine of_snd (by with_reducible assumption) ?_) | (refine of_snd2 (by with_reducible assumption) ?_) | (refine of_mid (by with_reducible assumption) ?_) | (refine of_getD (s := s) (by with_reducible assumption) ?_))

theorem pushWbAll_keeps {P : State → Prop} (hP : Closed P) (pinned : Bool) (f : Nat) (s : State) (hs0 : P s) : P (pushWbAll pinned f s) := by
  unfold pushWbAll
  repeat' (first | (with_reducible assumption) | (intro _) | (with_reducible apply forAll_keeps) | (with_reducible apply pushWb_keeps) | (fail_if_no_progress with_reducible apply Closed.other hP) | (dsimp only [-Nat.reducePow, Option.getD_some, Option.getD_none]) | (with_reducible apply ite_keeps) | split | (refine of_fst (by with_reducible assumption) ?_) | (refine of_snd (by with_reducible assumption) ?_) | (refine of_snd2 (by with_reducible assumption) ?_) | (refine of_mid (by with_reducible assumption) ?_) | (refine of_getD (s := s) (by with_reducible assumption) ?_))

theorem cleanLine_keeps {P : State → Prop} (hP : Closed P) (pinned : Bool) (f : Nat) (i : Nat) (s : State) (hs0 : P s) : P (cleanLine pinned f i s) := by
  unfold cleanLine
  repeat' (first | (with_reducible assumption) | (intro _) | (with_reducible apply updFrame_keeps) | (with_reducible apply wayStat_keeps) | (fail_if_no_progress with_reducible apply Closed.other hP) | (dsimp only [-Nat.reducePow, Option.getD_some, Option.getD_none]) | (with_reducible apply ite_keeps) | split | (refine of_fst (by with_reducible assumption) ?_) | (refine of_snd (by with_reducible assumption) ?_) | (refine of_snd2 (by with_reducible assumption) ?_) | (refine of_mid (by with_reducible assumption) ?_) | (refine of_getD (s := s) (by with_reducible assumption) ?_))

theorem wbHigh_keeps {P : State → Prop} (hP : Closed P) (m : BitVec 8) (s : State) (hs0 : P s) : P (wbHigh m s) := by
  unfold wbHigh
  repeat' (first | (with_reducible assumption) | (intro _) | (with_reducible apply forAll_keeps) | (with_reducible apply pushWb_keeps) | (with_reducible apply optMap_keeps) | (with_reducible apply optGet_keeps) | (fail_if_no_progress with_reducible apply Closed.other hP) | (dsimp only [-Nat.reducePow, Option.getD_some, Option.getD_none]) | (with_reducible apply ite_keeps) | split | (refine of_fst (by with_reducible assumption) ?_) | (refine of_snd (by with_reducible assumption) ?_) | (refine of_snd2 (by with_reducible assumption) ?_) | (refine of_mid (by with_reducible assumption) ?_) | (refine of_getD (s := s) (by with_reducible assumption) ?_))

theorem fillLine_keeps {P : State → Prop} (hP : Closed P) (hW : ClosedWay P) (pinned : Bool) (f : Nat) (i : Nat) (l : Line) (psn : Bool) (s : State) (hs0 : P s) : P (fillLine pinned f i l psn s) := by
  unfold fillLine
  repeat' (first | (with_reducible assumption) | (intro _) | (with_reducible apply charge_keeps) | (with_reducible apply setWayLine_keeps) | (with_reducible apply setFrame_keeps) | (fail_if_no_progress with_reducible apply Closed.other hP) | (dsimp only [-Nat.reducePow, Option.getD_some, Option.getD_none]) | (with_reducible apply ite_keeps) | split | (refine of_fst (by with_reducible assumption) ?_) | (refine of_snd (by with_reducible assumption) ?_) | (refine of_snd2 (by with_reducible assumption) ?_) | (refine of_mid (by with_reducible assumption) ?_) | (refine of_getD (s := s) (by with_reducible assumption) ?_))

theorem pushFill_keeps {P : State → Prop} (hP : Closed P) (hW : ClosedWay P) (pinned : Bool) (f : Nat) (i : Nat) (s : State) (hs0 : P s) : P (pushFill pinned f i s) := by
  unfold pushFill
  repeat' (first | (with_reducible assumption) | (intro _) | (with_reducible apply pushBg_keeps) | (with_reducible apply fillLine_keeps) | (fail_if_no_progress with_reducible apply Closed.other hP) | (dsimp only [-Nat.reducePow, Option.getD_some, Option.getD_none]) | (with_reducible apply ite_keeps) | split | (refine of_fst (by with_reducible assumption) ?_) | (refine of_snd (by with_reducible assumption) ?_) | (refine of_snd2 (by with_reducible assumption) ?_) | (refine of_mid (by with_reducible assumption) ?_) | (refine of_getD (s := s) (by with_reducible assumption) ?_))

theorem startFill_keeps {P : State → Prop} (hP : Closed P) (hW : ClosedWay P) (pinned : Bool) (f : Nat) (seg : Nat) (owner : Option (BitVec 8)) (pin : Option (Fin 16)) (s : State) (hs0 : P s) : P (startFill pinned f seg owner pin s) := by
  unfold startFill
  repeat' (first | (with_reducible assumption) | (intro _) | (with_reducible apply forAll_keeps) | (with_reducible apply setFrame_keeps) | (with_reducible apply pushFill_keeps) | (fail_if_no_progress with_reducible apply Closed.other hP) | (dsimp only [-Nat.reducePow, Option.getD_some, Option.getD_none]) | (with_reducible apply ite_keeps) | split | (refine of_fst (by with_reducible assumption) ?_) | (refine of_snd (by with_reducible assumption) ?_) | (refine of_snd2 (by with_reducible assumption) ?_) | (refine of_mid (by with_reducible assumption) ?_) | (refine of_getD (s := s) (by with_reducible assumption) ?_))

theorem startDemote_keeps {P : State → Prop} (hP : Closed P) (pinned : Bool) (f : Nat) (forced : Bool) (s : State) (hs0 : P s) : P (startDemote pinned f forced s) := by
  unfold startDemote
  repeat' (first | (with_reducible assumption) | (intro _) | (with_reducible apply setFrame_keeps) | (with_reducible apply pushWbAll_keeps) | (fail_if_no_progress with_reducible apply Closed.other hP) | (dsimp only [-Nat.reducePow, Option.getD_some, Option.getD_none]) | (with_reducible apply ite_keeps) | split | (refine of_fst (by with_reducible assumption) ?_) | (refine of_snd (by with_reducible assumption) ?_) | (refine of_snd2 (by with_reducible assumption) ?_) | (refine of_mid (by with_reducible assumption) ?_) | (refine of_getD (s := s) (by with_reducible assumption) ?_))

theorem promote_keeps {P : State → Prop} (hP : Closed P) (hW : ClosedWay P) (seg : Nat) (m : BitVec 8) (s : State) (hs0 : P s) : P (promote seg m s) := by
  unfold promote
  repeat' (first | (with_reducible assumption) | (intro _) | (with_reducible apply updFrame_keeps) | (with_reducible apply startFill_keeps) | (with_reducible apply startDemote_keeps) | (fail_if_no_progress with_reducible apply Closed.other hP) | (dsimp only [-Nat.reducePow, Option.getD_some, Option.getD_none]) | (with_reducible apply ite_keeps) | split | (refine of_fst (by with_reducible assumption) ?_) | (refine of_snd (by with_reducible assumption) ?_) | (refine of_snd2 (by with_reducible assumption) ?_) | (refine of_mid (by with_reducible assumption) ?_) | (refine of_getD (s := s) (by with_reducible assumption) ?_))

theorem hotBump_keeps {P : State → Prop} (hP : Closed P) (hW : ClosedWay P) (c : Fin 16) (seg : Nat) (m : BitVec 8) (s : State) (hs0 : P s) : P (hotBump c seg m s) := by
  unfold hotBump
  repeat' (first | (with_reducible assumption) | (intro _) | (with_reducible apply promote_keeps) | (fail_if_no_progress with_reducible apply Closed.other hP) | (dsimp only [-Nat.reducePow, Option.getD_some, Option.getD_none]) | (with_reducible apply ite_keeps) | split | (refine of_fst (by with_reducible assumption) ?_) | (refine of_snd (by with_reducible assumption) ?_) | (refine of_snd2 (by with_reducible assumption) ?_) | (refine of_mid (by with_reducible assumption) ?_) | (refine of_getD (s := s) (by with_reducible assumption) ?_))

theorem markStale_keeps {P : State → Prop} (hP : Closed P) (hW : ClosedWay P) (l : Nat) (s : State) (hs0 : P s) : P (markStale l s) := by
  unfold markStale
  repeat' (first | (with_reducible assumption) | (intro _) | (with_reducible apply setFrame_keeps) | (with_reducible apply pushFill_keeps) | (fail_if_no_progress with_reducible apply Closed.other hP) | (dsimp only [-Nat.reducePow, Option.getD_some, Option.getD_none]) | (with_reducible apply ite_keeps) | split | (refine of_fst (by with_reducible assumption) ?_) | (refine of_snd (by with_reducible assumption) ?_) | (refine of_snd2 (by with_reducible assumption) ?_) | (refine of_mid (by with_reducible assumption) ?_) | (refine of_getD (s := s) (by with_reducible assumption) ?_))

end Sys2Proof.Laws
end

