-- ==== Sys2Proof/Laws/KQueBase.lean ====
section
/-! SUPPORT. The operations of Machine/QueBase.lean keep every property closed under the writers that they reach. -/

namespace Sys2Proof.Laws
open Sys2Proof.Machine

set_option linter.unreachableTactic false
set_option linter.unusedTactic false
set_option linter.unusedVariables false

theorem setQd_keeps {P : State → Prop} (hP : Closed P) (q : Nat) (d : QDesc) (s : State) (hs0 : P s) : P (setQd q d s) := by
  unfold setQd
  repeat' (first | (with_reducible assumption) | (intro _) | (fail_if_no_progress with_reducible apply Closed.other hP) | (dsimp only [-Nat.reducePow, Option.getD_some, Option.getD_none]) | (with_reducible apply ite_keeps) | split | (refine of_fst (by with_reducible assumption) ?_) | (refine of_snd (by with_reducible assumption) ?_) | (refine of_snd2 (by with_reducible assumption) ?_) | (refine of_mid (by with_reducible assumption) ?_) | (refine of_getD (s := s) (by with_reducible assumption) ?_))

theorem setBrec_keeps {P : State → Prop} (hP : Closed P) (b : Nat) (r : BlockRec) (s : State) (hs0 : P s) : P (setBrec b r s) := by
  unfold setBrec
  repeat' (first | (with_reducible assumption) | (intro _) | (fail_if_no_progress with_reducible apply Closed.other hP) | (dsimp only [-Nat.reducePow, Option.getD_some, Option.getD_none]) | (with_reducible apply ite_keeps) | split | (refine of_fst (by with_reducible assumption) ?_) | (refine of_snd (by with_reducible assumption) ?_) | (refine of_snd2 (by with_reducible assumption) ?_) | (refine of_mid (by with_reducible assumption) ?_) | (refine of_getD (s := s) (by with_reducible assumption) ?_))

theorem queStat_keeps {P : State → Prop} (hP : Closed P) (s : State) (hs0 : P s) : P (queStat s) := by
  unfold queStat
  repeat' (first | (with_reducible assumption) | (intro _) | (with_reducible apply fset_keeps) | (with_reducible apply fsetB_keeps) | (fail_if_no_progress with_reducible apply Closed.other hP) | (dsimp only [-Nat.reducePow, Option.getD_some, Option.getD_none]) | (with_reducible apply ite_keeps) | split | (refine of_fst (by with_reducible assumption) ?_) | (refine of_snd (by with_reducible assumption) ?_) | (refine of_snd2 (by with_reducible assumption) ?_) | (refine of_mid (by with_reducible assumption) ?_) | (refine of_getD (s := s) (by with_reducible assumption) ?_))

theorem nextUse_keeps {P : State → Prop} (hP : Closed P) (s : State) (hs0 : P s) : P (nextUse s) := by
  unfold nextUse
  repeat' (first | (with_reducible assumption) | (intro _) | (fail_if_no_progress with_reducible apply Closed.other hP) | (dsimp only [-Nat.reducePow, Option.getD_some, Option.getD_none]) | (with_reducible apply ite_keeps) | split | (refine of_fst (by with_reducible assumption) ?_) | (refine of_snd (by with_reducible assumption) ?_) | (refine of_snd2 (by with_reducible assumption) ?_) | (refine of_mid (by with_reducible assumption) ?_) | (refine of_getD (s := s) (by with_reducible assumption) ?_))

theorem setQfr_keeps {P : State → Prop} (hP : Closed P) (f : Nat) (x : QFrame) (s : State) (hs0 : P s) : P (setQfr f x s) := by
  unfold setQfr
  repeat' (first | (with_reducible assumption) | (intro _) | (with_reducible apply queStat_keeps) | (fail_if_no_progress with_reducible apply Closed.other hP) | (dsimp only [-Nat.reducePow, Option.getD_some, Option.getD_none]) | (with_reducible apply ite_keeps) | split | (refine of_fst (by with_reducible assumption) ?_) | (refine of_snd (by with_reducible assumption) ?_) | (refine of_snd2 (by with_reducible assumption) ?_) | (refine of_mid (by with_reducible assumption) ?_) | (refine of_getD (s := s) (by with_reducible assumption) ?_))

theorem shiftStack_keeps {P : State → Prop} (hP : Closed P) (e : Nat) (n : Nat) (s : State) (hs0 : P s) : P (shiftStack e n s) := by
  unfold shiftStack
  repeat' (first | (with_reducible assumption) | (intro _) | (with_reducible apply optMap_keeps) | (with_reducible apply optGet_keeps) | (fail_if_no_progress with_reducible apply Closed.other hP) | (dsimp only [-Nat.reducePow, Option.getD_some, Option.getD_none]) | (with_reducible apply ite_keeps) | split | (refine of_fst (by with_reducible assumption) ?_) | (refine of_snd (by with_reducible assumption) ?_) | (refine of_snd2 (by with_reducible assumption) ?_) | (refine of_mid (by with_reducible assumption) ?_) | (refine of_getD (s := s) (by with_reducible assumption) ?_))

theorem stackLost_keeps {P : State → Prop} (hP : Closed P) (e : Nat) (n : Nat) (s : State) (hs0 : P s) : P (stackLost e n s) := by
  unfold stackLost
  repeat' (first | (with_reducible assumption) | (intro _) | (with_reducible apply fbumpN_keeps) | (with_reducible apply queStat_keeps) | (with_reducible apply shiftStack_keeps) | (with_reducible apply optMap_keeps) | (with_reducible apply optGet_keeps) | (with_reducible apply foldl_keeps) | (with_reducible apply foldl_keeps_fst) | (with_reducible apply foldl_keeps_snd) | (with_reducible apply foldl_keeps_snd2) | (fail_if_no_progress with_reducible apply Closed.other hP) | (dsimp only [-Nat.reducePow, Option.getD_some, Option.getD_none]) | (with_reducible apply ite_keeps) | split | (refine of_fst (by with_reducible assumption) ?_) | (refine of_snd (by with_reducible assumption) ?_) | (refine of_snd2 (by with_reducible assumption) ?_) | (refine of_mid (by with_reducible assumption) ?_) | (refine of_getD (s := s) (by with_reducible assumption) ?_))

theorem pushStack_keeps {P : State → Prop} (hP : Closed P) (wr : Bool) (lo : Nat) (hi : Nat) (k : Nat) (s : State) (hs0 : P s) : P (pushStack wr lo hi k s) := by
  unfold pushStack
  repeat' (first | (with_reducible assumption) | (intro _) | (with_reducible apply pushBg_keeps) | (with_reducible apply stackLost_keeps) | (fail_if_no_progress with_reducible apply Closed.other hP) | (dsimp only [-Nat.reducePow, Option.getD_some, Option.getD_none]) | (with_reducible apply ite_keeps) | split | (refine of_fst (by with_reducible assumption) ?_) | (refine of_snd (by with_reducible assumption) ?_) | (refine of_snd2 (by with_reducible assumption) ?_) | (refine of_mid (by with_reducible assumption) ?_) | (refine of_getD (s := s) (by with_reducible assumption) ?_))

theorem stackLevel_keeps {P : State → Prop} (hP : Closed P) (s : State) (hs0 : P s) : P (stackLevel s) := by
  unfold stackLevel
  repeat' (first | (with_reducible assumption) | (intro _) | (with_reducible apply forAll_keeps) | (with_reducible apply pushStack_keeps) | (fail_if_no_progress with_reducible apply Closed.other hP) | (dsimp only [-Nat.reducePow, Option.getD_some, Option.getD_none]) | (with_reducible apply ite_keeps) | split | (refine of_fst (by with_reducible assumption) ?_) | (refine of_snd (by with_reducible assumption) ?_) | (refine of_snd2 (by with_reducible assumption) ?_) | (refine of_mid (by with_reducible assumption) ?_) | (refine of_getD (s := s) (by with_reducible assumption) ?_))

theorem stackDone_keeps {P : State → Prop} (hP : Closed P) (n : Nat) (s : State) (hs0 : P s) : P (stackDone n s) := by
  unfold stackDone
  repeat' (first | (with_reducible assumption) | (intro _) | (with_reducible apply stackLevel_keeps) | (fail_if_no_progress with_reducible apply Closed.other hP) | (dsimp only [-Nat.reducePow, Option.getD_some, Option.getD_none]) | (with_reducible apply ite_keeps) | split | (refine of_fst (by with_reducible assumption) ?_) | (refine of_snd (by with_reducible assumption) ?_) | (refine of_snd2 (by with_reducible assumption) ?_) | (refine of_mid (by with_reducible assumption) ?_) | (refine of_getD (s := s) (by with_reducible assumption) ?_))

theorem pushBlock_keeps {P : State → Prop} (hP : Closed P) (b : Nat) (s : State) (hs0 : P s) : P (pushBlock b s) := by
  unfold pushBlock
  repeat' (first | (with_reducible assumption) | (intro _) | (with_reducible apply setBrec_keeps) | (with_reducible apply queStat_keeps) | (with_reducible apply stackLevel_keeps) | (fail_if_no_progress with_reducible apply Closed.other hP) | (dsimp only [-Nat.reducePow, Option.getD_some, Option.getD_none]) | (with_reducible apply ite_keeps) | split | (refine of_fst (by with_reducible assumption) ?_) | (refine of_snd (by with_reducible assumption) ?_) | (refine of_snd2 (by with_reducible assumption) ?_) | (refine of_mid (by with_reducible assumption) ?_) | (refine of_getD (s := s) (by with_reducible assumption) ?_))

theorem tryFree_keeps {P : State → Prop} (hP : Closed P) (b : Nat) (s : State) (hs0 : P s) : P (tryFree b s) := by
  unfold tryFree
  repeat' (first | (with_reducible assumption) | (intro _) | (with_reducible apply pushBlock_keeps) | (fail_if_no_progress with_reducible apply Closed.other hP) | (dsimp only [-Nat.reducePow, Option.getD_some, Option.getD_none]) | (with_reducible apply ite_keeps) | split | (refine of_fst (by with_reducible assumption) ?_) | (refine of_snd (by with_reducible assumption) ?_) | (refine of_snd2 (by with_reducible assumption) ?_) | (refine of_mid (by with_reducible assumption) ?_) | (refine of_getD (s := s) (by with_reducible assumption) ?_))

theorem takeBlocks_keeps {P : State → Prop} (hP : Closed P) (x0 : Nat) (x1 : State) (hs0 : P x1) : P (takeBlocks x0 x1).2 := by
  fun_induction takeBlocks x0 x1
  all_goals repeat' (first | (with_reducible assumption) | (intro _) | (fail_if_no_progress with_reducible apply Closed.other hP) | (dsimp only [-Nat.reducePow, Option.getD_some, Option.getD_none]) | (with_reducible apply ite_keeps) | split | (refine of_fst (by with_reducible assumption) ?_) | (refine of_snd (by with_reducible assumption) ?_) | (refine of_snd2 (by with_reducible assumption) ?_) | (refine of_mid (by with_reducible assumption) ?_) | (refine of_getD (s := x1) (by with_reducible assumption) ?_) | apply_assumption)

theorem freeQFrame_keeps {P : State → Prop} (hP : Closed P) (f : Nat) (s : State) (hs0 : P s) : P (freeQFrame f s) := by
  unfold freeQFrame
  repeat' (first | (with_reducible assumption) | (intro _) | (with_reducible apply fset_keeps) | (with_reducible apply fbump_keeps) | (with_reducible apply setQfr_keeps) | (fail_if_no_progress with_reducible apply Closed.other hP) | (dsimp only [-Nat.reducePow, Option.getD_some, Option.getD_none]) | (with_reducible apply ite_keeps) | split | (refine of_fst (by with_reducible assumption) ?_) | (refine of_snd (by with_reducible assumption) ?_) | (refine of_snd2 (by with_reducible assumption) ?_) | (refine of_mid (by with_reducible assumption) ?_) | (refine of_getD (s := s) (by with_reducible assumption) ?_))

theorem qWbDone_keeps {P : State → Prop} (hP : Closed P) (b : Nat) (c : Nat) (s : State) (hs0 : P s) : P (qWbDone b c s) := by
  unfold qWbDone
  repeat' (first | (with_reducible assumption) | (intro _) | (with_reducible apply fbump_keeps) | (with_reducible apply setQfr_keeps) | (with_reducible apply freeQFrame_keeps) | (fail_if_no_progress with_reducible apply Closed.other hP) | (dsimp only [-Nat.reducePow, Option.getD_some, Option.getD_none]) | (with_reducible apply ite_keeps) | split | (refine of_fst (by with_reducible assumption) ?_) | (refine of_snd (by with_reducible assumption) ?_) | (refine of_snd2 (by with_reducible assumption) ?_) | (refine of_mid (by with_reducible assumption) ?_) | (refine of_getD (s := s) (by with_reducible assumption) ?_))

theorem pushQueWb_keeps {P : State → Prop} (hP : Closed P) (b : Nat) (c : Nat) (l : Nat) (man : Option (BitVec 8)) (s : State) (hs0 : P s) : P (pushQueWb b c l man s) := by
  unfold pushQueWb
  repeat' (first | (with_reducible assumption) | (intro _) | (with_reducible apply setDramPsn_keeps) | (with_reducible apply pushBg_keeps) | (with_reducible apply qWbDone_keeps) | (fail_if_no_progress with_reducible apply Closed.other hP) | (dsimp only [-Nat.reducePow, Option.getD_some, Option.getD_none]) | (with_reducible apply ite_keeps) | split | (refine of_fst (by with_reducible assumption) ?_) | (refine of_snd (by with_reducible assumption) ?_) | (refine of_snd2 (by with_reducible assumption) ?_) | (refine of_mid (by with_reducible assumption) ?_) | (refine of_getD (s := s) (by with_reducible assumption) ?_))

theorem qWriteBack_keeps {P : State → Prop} (hP : Closed P) (f : Nat) (s : State) (hs0 : P s) : P (qWriteBack f s) := by
  unfold qWriteBack
  repeat' (first | (with_reducible assumption) | (intro _) | (with_reducible apply forAll_keeps) | (with_reducible apply onlyIf_keeps) | (with_reducible apply pushQueWb_keeps) | (with_reducible apply optMap_keeps) | (with_reducible apply optGet_keeps) | (fail_if_no_progress with_reducible apply Closed.other hP) | (dsimp only [-Nat.reducePow, Option.getD_some, Option.getD_none]) | (with_reducible apply ite_keeps) | split | (refine of_fst (by with_reducible assumption) ?_) | (refine of_snd (by with_reducible assumption) ?_) | (refine of_snd2 (by with_reducible assumption) ?_) | (refine of_mid (by with_reducible assumption) ?_) | (refine of_getD (s := s) (by with_reducible assumption) ?_))

theorem evictFuel_keeps {P : State → Prop} (hP : Closed P) (x0 : Nat) (x1 : State) (hs0 : P x1) : P (evictFuel x0 x1) := by
  fun_induction evictFuel x0 x1
  all_goals repeat' (first | (with_reducible assumption) | (intro _) | (with_reducible apply fbump_keeps) | (with_reducible apply setQfr_keeps) | (with_reducible apply freeQFrame_keeps) | (with_reducible apply qWriteBack_keeps) | (fail_if_no_progress with_reducible apply Closed.other hP) | (dsimp only [-Nat.reducePow, Option.getD_some, Option.getD_none]) | (with_reducible apply ite_keeps) | split | (refine of_fst (by with_reducible assumption) ?_) | (refine of_snd (by with_reducible assumption) ?_) | (refine of_snd2 (by with_reducible assumption) ?_) | (refine of_mid (by with_reducible assumption) ?_) | (refine of_getD (s := x1) (by with_reducible assumption) ?_) | apply_assumption)

theorem evict_keeps {P : State → Prop} (hP : Closed P) (s : State) (hs0 : P s) : P (evict s) := by
  unfold evict
  repeat' (first | (with_reducible assumption) | (intro _) | (with_reducible apply evictFuel_keeps) | (fail_if_no_progress with_reducible apply Closed.other hP) | (dsimp only [-Nat.reducePow, Option.getD_some, Option.getD_none]) | (with_reducible apply ite_keeps) | split | (refine of_fst (by with_reducible assumption) ?_) | (refine of_snd (by with_reducible assumption) ?_) | (refine of_snd2 (by with_reducible assumption) ?_) | (refine of_mid (by with_reducible assumption) ?_) | (refine of_getD (s := s) (by with_reducible assumption) ?_))

theorem putCell_keeps {P : State → Prop} (hP : Closed P) (hD : ClosedDram P) (b : Nat) (c : Nat) (f : Nat) (l : Line) (psn : Bool) (m : BitVec 8) (used : Nat) (s : State) (hs0 : P s) : P (putCell b c f l psn m used s) := by
  unfold putCell
  repeat' (first | (with_reducible assumption) | (intro _) | (with_reducible apply setDram_keeps) | (with_reducible apply setBrec_keeps) | (with_reducible apply setQfr_keeps) | (fail_if_no_progress with_reducible apply Closed.other hP) | (dsimp only [-Nat.reducePow, Option.getD_some, Option.getD_none]) | (with_reducible apply ite_keeps) | split | (refine of_fst (by with_reducible assumption) ?_) | (refine of_snd (by with_reducible assumption) ?_) | (refine of_snd2 (by with_reducible assumption) ?_) | (refine of_mid (by with_reducible assumption) ?_) | (refine of_getD (s := s) (by with_reducible assumption) ?_))

theorem linkBlocks_keeps {P : State → Prop} (hP : Closed P) (x0 : List Nat) (x1 : State) (hs0 : P x1) : P (linkBlocks x0 x1) := by
  fun_induction linkBlocks x0 x1
  all_goals repeat' (first | (with_reducible assumption) | (intro _) | (with_reducible apply setBrec_keeps) | (fail_if_no_progress with_reducible apply Closed.other hP) | (dsimp only [-Nat.reducePow, Option.getD_some, Option.getD_none]) | (with_reducible apply ite_keeps) | split | (refine of_fst (by with_reducible assumption) ?_) | (refine of_snd (by with_reducible assumption) ?_) | (refine of_snd2 (by with_reducible assumption) ?_) | (refine of_mid (by with_reducible assumption) ?_) | (refine of_getD (s := x1) (by with_reducible assumption) ?_) | apply_assumption)

theorem pushRead_keeps {P : State → Prop} (hP : Closed P) (ring : Fin 16) (entry : Nat) (cell : Nat) (l : Nat) (man : Option (BitVec 8)) (s : State) (hs0 : P s) : P (pushRead ring entry cell l man s) := by
  unfold pushRead
  repeat' (first | (with_reducible assumption) | (intro _) | (with_reducible apply pushBg_keeps) | (fail_if_no_progress with_reducible apply Closed.other hP) | (dsimp only [-Nat.reducePow, Option.getD_some, Option.getD_none]) | (with_reducible apply ite_keeps) | split | (refine of_fst (by with_reducible assumption) ?_) | (refine of_snd (by with_reducible assumption) ?_) | (refine of_snd2 (by with_reducible assumption) ?_) | (refine of_mid (by with_reducible assumption) ?_) | (refine of_getD (s := s) (by with_reducible assumption) ?_))

theorem planEnq_keeps {P : State → Prop} (hP : Closed P) (hD : ClosedDram P) (d : QDesc) (ring : Fin 16) (entry : Nat) (q : Nat) (bytes : Nat) (data : List Slot) (bad : List Bool) (s : State) (hs0 : P s) : P (planEnq d ring entry q bytes data bad s) := by
  unfold planEnq
  repeat' (first | (with_reducible assumption) | (intro _) | (with_reducible apply forAll_keeps) | (with_reducible apply charge_keeps) | (with_reducible apply setBrec_keeps) | (with_reducible apply queStat_keeps) | (with_reducible apply nextUse_keeps) | (with_reducible apply setQfr_keeps) | (with_reducible apply stackLevel_keeps) | (with_reducible apply takeBlocks_keeps) | (with_reducible apply pushQueWb_keeps) | (with_reducible apply evict_keeps) | (with_reducible apply putCell_keeps) | (with_reducible apply linkBlocks_keeps) | (with_reducible apply pushRead_keeps) | (with_reducible apply optMap_keeps) | (with_reducible apply optGet_keeps) | (fail_if_no_progress with_reducible apply Closed.other hP) | (dsimp only [-Nat.reducePow, Option.getD_some, Option.getD_none]) | (with_reducible apply ite_keeps) | split | (refine of_fst (by with_reducible assumption) ?_) | (refine of_snd (by with_reducible assumption) ?_) | (refine of_snd2 (by with_reducible assumption) ?_) | (refine of_mid (by with_reducible assumption) ?_) | (refine of_getD (s := s) (by with_reducible assumption) ?_))

theorem enqGrant_keeps {P : State → Prop} (hP : Closed P) (hD : ClosedDram P) (ring : Fin 16) (entry : Nat) (q : Nat) (bytes : Nat) (data : List Slot) (s : State) (hs0 : P s) : P (enqGrant ring entry q bytes data s) := by
  unfold enqGrant
  repeat' (first | (with_reducible assumption) | (intro _) | (with_reducible apply planEnq_keeps) | (fail_if_no_progress with_reducible apply Closed.other hP) | (dsimp only [-Nat.reducePow, Option.getD_some, Option.getD_none]) | (with_reducible apply ite_keeps) | split | (refine of_fst (by with_reducible assumption) ?_) | (refine of_snd (by with_reducible assumption) ?_) | (refine of_snd2 (by with_reducible assumption) ?_) | (refine of_mid (by with_reducible assumption) ?_) | (refine of_getD (s := s) (by with_reducible assumption) ?_))

theorem dropPlan_keeps {P : State → Prop} (hP : Closed P) (ring : Fin 16) (slot : Nat) (s : State) (hs0 : P s) : P (dropPlan ring slot s) := by
  unfold dropPlan
  repeat' (first | (with_reducible assumption) | (intro _) | (with_reducible apply forAll_keeps) | (with_reducible apply onlyIf_keeps) | (with_reducible apply setBrec_keeps) | (with_reducible apply setQfr_keeps) | (with_reducible apply pushBlock_keeps) | (fail_if_no_progress with_reducible apply Closed.other hP) | (dsimp only [-Nat.reducePow, Option.getD_some, Option.getD_none]) | (with_reducible apply ite_keeps) | split | (refine of_fst (by with_reducible assumption) ?_) | (refine of_snd (by with_reducible assumption) ?_) | (refine of_snd2 (by with_reducible assumption) ?_) | (refine of_mid (by with_reducible assumption) ?_) | (refine of_getD (s := s) (by with_reducible assumption) ?_))

theorem replan_keeps {P : State → Prop} (hP : Closed P) (hD : ClosedDram P) (was : State) (ring : Fin 16) (slot : Nat) (s : State) (hs0 : P was) (hs1 : P s) : P (replan was ring slot s) := by
  unfold replan
  repeat' (first | (with_reducible assumption) | (intro _) | (with_reducible apply forAll_keeps) | (with_reducible apply planEnq_keeps) | (with_reducible apply dropPlan_keeps) | (with_reducible apply optMap_keeps) | (with_reducible apply optGet_keeps) | (fail_if_no_progress with_reducible apply Closed.other hP) | (dsimp only [-Nat.reducePow, Option.getD_some, Option.getD_none]) | (with_reducible apply ite_keeps) | split | (refine of_fst (by with_reducible assumption) ?_) | (refine of_snd (by with_reducible assumption) ?_) | (refine of_snd2 (by with_reducible assumption) ?_) | (refine of_mid (by with_reducible assumption) ?_) | (refine of_getD (s := was) (by with_reducible assumption) ?_))

theorem releaseRet_keeps {P : State → Prop} (hP : Closed P) (r : Option (Nat × Nat × Nat)) (s : State) (hs0 : P s) : P (releaseRet r s) := by
  unfold releaseRet
  repeat' (first | (with_reducible assumption) | (intro _) | (with_reducible apply forAll_keeps) | (with_reducible apply setBrec_keeps) | (with_reducible apply stackLevel_keeps) | (with_reducible apply tryFree_keeps) | (fail_if_no_progress with_reducible apply Closed.other hP) | (dsimp only [-Nat.reducePow, Option.getD_some, Option.getD_none]) | (with_reducible apply ite_keeps) | split | (refine of_fst (by with_reducible assumption) ?_) | (refine of_snd (by with_reducible assumption) ?_) | (refine of_snd2 (by with_reducible assumption) ?_) | (refine of_mid (by with_reducible assumption) ?_) | (refine of_getD (s := s) (by with_reducible assumption) ?_))

theorem initLose_keeps {P : State → Prop} (hP : Closed P) (k : Nat) (s : State) (hs0 : P s) : P (initLose k s) := by
  unfold initLose
  repeat' (first | (with_reducible assumption) | (intro _) | (with_reducible apply fbumpN_keeps) | (with_reducible apply optMap_keeps) | (with_reducible apply optGet_keeps) | (with_reducible apply foldl_keeps) | (with_reducible apply foldl_keeps_fst) | (with_reducible apply foldl_keeps_snd) | (with_reducible apply foldl_keeps_snd2) | (fail_if_no_progress with_reducible apply Closed.other hP) | (dsimp only [-Nat.reducePow, Option.getD_some, Option.getD_none]) | (with_reducible apply ite_keeps) | split | (refine of_fst (by with_reducible assumption) ?_) | (refine of_snd (by with_reducible assumption) ?_) | (refine of_snd2 (by with_reducible assumption) ?_) | (refine of_mid (by with_reducible assumption) ?_) | (refine of_getD (s := s) (by with_reducible assumption) ?_))

theorem initFuel_keeps {P : State → Prop} (hP : Closed P) (x0 : Nat) (x1 : State) (hs0 : P x1) : P (initFuel x0 x1) := by
  fun_induction initFuel x0 x1
  all_goals repeat' (first | (with_reducible assumption) | (intro _) | (with_reducible apply pushBg_keeps) | (with_reducible apply initLose_keeps) | (fail_if_no_progress with_reducible apply Closed.other hP) | (dsimp only [-Nat.reducePow, Option.getD_some, Option.getD_none]) | (with_reducible apply ite_keeps) | split | (refine of_fst (by with_reducible assumption) ?_) | (refine of_snd (by with_reducible assumption) ?_) | (refine of_snd2 (by with_reducible assumption) ?_) | (refine of_mid (by with_reducible assumption) ?_) | (refine of_getD (s := x1) (by with_reducible assumption) ?_) | apply_assumption)

theorem initPush_keeps {P : State → Prop} (hP : Closed P) (s : State) (hs0 : P s) : P (initPush s) := by
  unfold initPush
  repeat' (first | (with_reducible assumption) | (intro _) | (with_reducible apply initFuel_keeps) | (fail_if_no_progress with_reducible apply Closed.other hP) | (dsimp only [-Nat.reducePow, Option.getD_some, Option.getD_none]) | (with_reducible apply ite_keeps) | split | (refine of_fst (by with_reducible assumption) ?_) | (refine of_snd (by with_reducible assumption) ?_) | (refine of_snd2 (by with_reducible assumption) ?_) | (refine of_mid (by with_reducible assumption) ?_) | (refine of_getD (s := s) (by with_reducible assumption) ?_))

theorem initStart_keeps {P : State → Prop} (hP : Closed P) (s : State) (hs0 : P s) : P (initStart s) := by
  unfold initStart
  repeat' (first | (with_reducible assumption) | (intro _) | (with_reducible apply forAll_keeps) | (with_reducible apply initPush_keeps) | (fail_if_no_progress with_reducible apply Closed.other hP) | (dsimp only [-Nat.reducePow, Option.getD_some, Option.getD_none]) | (with_reducible apply ite_keeps) | split | (refine of_fst (by with_reducible assumption) ?_) | (refine of_snd (by with_reducible assumption) ?_) | (refine of_snd2 (by with_reducible assumption) ?_) | (refine of_mid (by with_reducible assumption) ?_) | (refine of_getD (s := s) (by with_reducible assumption) ?_))

theorem initDone_keeps {P : State → Prop} (hP : Closed P) (k : Nat) (lost : Bool) (s : State) (hs0 : P s) : P (initDone k lost s) := by
  unfold initDone
  repeat' (first | (with_reducible assumption) | (intro _) | (with_reducible apply initLose_keeps) | (with_reducible apply initPush_keeps) | (fail_if_no_progress with_reducible apply Closed.other hP) | (dsimp only [-Nat.reducePow, Option.getD_some, Option.getD_none]) | (with_reducible apply ite_keeps) | split | (refine of_fst (by with_reducible assumption) ?_) | (refine of_snd (by with_reducible assumption) ?_) | (refine of_snd2 (by with_reducible assumption) ?_) | (refine of_mid (by with_reducible assumption) ?_) | (refine of_getD (s := s) (by with_reducible assumption) ?_))

end Sys2Proof.Laws
end

