-- ==== Sys2Proof/Laws/KWalkBase.lean ====
section
/-! SUPPORT. The operations of Machine/WalkBase.lean keep every property closed under the writers that they reach. -/

namespace Sys2Proof.Laws
open Sys2Proof.Machine

set_option linter.unreachableTactic false
set_option linter.unusedTactic false
set_option linter.unusedVariables false

theorem setWalkRt_keeps {P : State → Prop} (hP : Closed P) (h : Nat) (x : WalkRt) (s : State) (hs0 : P s) : P (setWalkRt h x s) := by
  unfold setWalkRt
  repeat' (first | (with_reducible assumption) | (intro _) | (fail_if_no_progress with_reducible apply Closed.other hP) | (dsimp only [-Nat.reducePow, Option.getD_some, Option.getD_none]) | (with_reducible apply ite_keeps) | split | (refine of_fst (by with_reducible assumption) ?_) | (refine of_snd (by with_reducible assumption) ?_) | (refine of_snd2 (by with_reducible assumption) ?_) | (refine of_mid (by with_reducible assumption) ?_) | (refine of_getD (s := s) (by with_reducible assumption) ?_))

theorem addRead_keeps {P : State → Prop} (hP : Closed P) (r : WalkRead) (s : State) (hs0 : P s) : P (addRead r s) := by
  unfold addRead
  repeat' (first | (with_reducible assumption) | (intro _) | (fail_if_no_progress with_reducible apply Closed.other hP) | (dsimp only [-Nat.reducePow, Option.getD_some, Option.getD_none]) | (with_reducible apply ite_keeps) | split | (refine of_fst (by with_reducible assumption) ?_) | (refine of_snd (by with_reducible assumption) ?_) | (refine of_snd2 (by with_reducible assumption) ?_) | (refine of_mid (by with_reducible assumption) ?_) | (refine of_getD (s := s) (by with_reducible assumption) ?_))

theorem checkStage_keeps {P : State → Prop} (hP : Closed P) (h : Nat) (stage : Nat) (t : Trigger) (s : State) (hs0 : P s) : P (checkStage h stage t s) := by
  unfold checkStage
  repeat' (first | (with_reducible assumption) | (intro _) | (with_reducible apply forAll_keeps) | (with_reducible apply setWalkRt_keeps) | (with_reducible apply addRead_keeps) | (fail_if_no_progress with_reducible apply Closed.other hP) | (dsimp only [-Nat.reducePow, Option.getD_some, Option.getD_none]) | (with_reducible apply ite_keeps) | split | (refine of_fst (by with_reducible assumption) ?_) | (refine of_snd (by with_reducible assumption) ?_) | (refine of_snd2 (by with_reducible assumption) ?_) | (refine of_mid (by with_reducible assumption) ?_) | (refine of_getD (s := s) (by with_reducible assumption) ?_))

theorem startWanted_keeps {P : State → Prop} (hP : Closed P) (h : Nat) (s : State) (hs0 : P s) : P (startWanted h s) := by
  unfold startWanted
  repeat' (first | (with_reducible assumption) | (intro _) | (with_reducible apply forAll_keeps) | (with_reducible apply setWalkRt_keeps) | (with_reducible apply checkStage_keeps) | (fail_if_no_progress with_reducible apply Closed.other hP) | (dsimp only [-Nat.reducePow, Option.getD_some, Option.getD_none]) | (with_reducible apply ite_keeps) | split | (refine of_fst (by with_reducible assumption) ?_) | (refine of_snd (by with_reducible assumption) ?_) | (refine of_snd2 (by with_reducible assumption) ?_) | (refine of_mid (by with_reducible assumption) ?_) | (refine of_getD (s := s) (by with_reducible assumption) ?_))

theorem updCaravan_keeps {P : State → Prop} (hP : Closed P) (ring : Fin 16) (entry : Nat) (f : Caravan → Caravan) (s : State) (hs0 : P s) : P (updCaravan ring entry f s) := by
  unfold updCaravan
  repeat' (first | (with_reducible assumption) | (intro _) | (with_reducible apply optMap_keeps) | (with_reducible apply optGet_keeps) | (fail_if_no_progress with_reducible apply Closed.other hP) | (dsimp only [-Nat.reducePow, Option.getD_some, Option.getD_none]) | (with_reducible apply ite_keeps) | split | (refine of_fst (by with_reducible assumption) ?_) | (refine of_snd (by with_reducible assumption) ?_) | (refine of_snd2 (by with_reducible assumption) ?_) | (refine of_mid (by with_reducible assumption) ?_) | (refine of_getD (s := s) (by with_reducible assumption) ?_))

theorem lineStage_keeps {P : State → Prop} (hP : Closed P) (ring : Fin 16) (entry : Nat) (s : State) (hs0 : P s) : P (lineStage ring entry s) := by
  unfold lineStage
  repeat' (first | (with_reducible assumption) | (intro _) | (with_reducible apply fbump_keeps) | (with_reducible apply forAll_keeps) | (with_reducible apply addRead_keeps) | (with_reducible apply updCaravan_keeps) | (fail_if_no_progress with_reducible apply Closed.other hP) | (dsimp only [-Nat.reducePow, Option.getD_some, Option.getD_none]) | (with_reducible apply ite_keeps) | split | (refine of_fst (by with_reducible assumption) ?_) | (refine of_snd (by with_reducible assumption) ?_) | (refine of_snd2 (by with_reducible assumption) ?_) | (refine of_mid (by with_reducible assumption) ?_) | (refine of_getD (s := s) (by with_reducible assumption) ?_))

theorem bypassStage_keeps {P : State → Prop} (hP : Closed P) (ring : Fin 16) (entry : Nat) (s : State) (hs0 : P s) : P (bypassStage ring entry s) := by
  unfold bypassStage
  repeat' (first | (with_reducible assumption) | (intro _) | (with_reducible apply fbump_keeps) | (with_reducible apply updCaravan_keeps) | (with_reducible apply lineStage_keeps) | (fail_if_no_progress with_reducible apply Closed.other hP) | (dsimp only [-Nat.reducePow, Option.getD_some, Option.getD_none]) | (with_reducible apply ite_keeps) | split | (refine of_fst (by with_reducible assumption) ?_) | (refine of_snd (by with_reducible assumption) ?_) | (refine of_snd2 (by with_reducible assumption) ?_) | (refine of_mid (by with_reducible assumption) ?_) | (refine of_getD (s := s) (by with_reducible assumption) ?_))

theorem stageAbsent_keeps {P : State → Prop} (hP : Closed P) (ring : Fin 16) (entry : Nat) (s : State) (hs0 : P s) : P (stageAbsent ring entry s) := by
  unfold stageAbsent
  repeat' (first | (with_reducible assumption) | (intro _) | (with_reducible apply fbump_keeps) | (with_reducible apply updCaravan_keeps) | (with_reducible apply bypassStage_keeps) | (fail_if_no_progress with_reducible apply Closed.other hP) | (dsimp only [-Nat.reducePow, Option.getD_some, Option.getD_none]) | (with_reducible apply ite_keeps) | split | (refine of_fst (by with_reducible assumption) ?_) | (refine of_snd (by with_reducible assumption) ?_) | (refine of_snd2 (by with_reducible assumption) ?_) | (refine of_mid (by with_reducible assumption) ?_) | (refine of_getD (s := s) (by with_reducible assumption) ?_))

theorem useSlot_keeps {P : State → Prop} (hP : Closed P) (h : Nat) (k : Nat) (s : State) (hs0 : P s) : P (useSlot h k s) := by
  unfold useSlot
  repeat' (first | (with_reducible assumption) | (intro _) | (with_reducible apply setWalkRt_keeps) | (fail_if_no_progress with_reducible apply Closed.other hP) | (dsimp only [-Nat.reducePow, Option.getD_some, Option.getD_none]) | (with_reducible apply ite_keeps) | split | (refine of_fst (by with_reducible assumption) ?_) | (refine of_snd (by with_reducible assumption) ?_) | (refine of_snd2 (by with_reducible assumption) ?_) | (refine of_mid (by with_reducible assumption) ?_) | (refine of_getD (s := s) (by with_reducible assumption) ?_))

theorem beginStage_keeps {P : State → Prop} (hP : Closed P) (ring : Fin 16) (entry : Nat) (stage : Nat) (s : State) (hs0 : P s) : P (beginStage ring entry stage s) := by
  unfold beginStage
  repeat' (first | (with_reducible assumption) | (intro _) | (with_reducible apply checkStage_keeps) | (with_reducible apply updCaravan_keeps) | (with_reducible apply lineStage_keeps) | (with_reducible apply stageAbsent_keeps) | (with_reducible apply useSlot_keeps) | (fail_if_no_progress with_reducible apply Closed.other hP) | (dsimp only [-Nat.reducePow, Option.getD_some, Option.getD_none]) | (with_reducible apply ite_keeps) | split | (refine of_fst (by with_reducible assumption) ?_) | (refine of_snd (by with_reducible assumption) ?_) | (refine of_snd2 (by with_reducible assumption) ?_) | (refine of_mid (by with_reducible assumption) ?_) | (refine of_getD (s := s) (by with_reducible assumption) ?_))

theorem startCaravan_keeps {P : State → Prop} (hP : Closed P) (c : Caravan) (s : State) (hs0 : P s) : P (startCaravan c s) := by
  unfold startCaravan
  repeat' (first | (with_reducible assumption) | (intro _) | (with_reducible apply checkStage_keeps) | (with_reducible apply beginStage_keeps) | (fail_if_no_progress with_reducible apply Closed.other hP) | (dsimp only [-Nat.reducePow, Option.getD_some, Option.getD_none]) | (with_reducible apply ite_keeps) | split | (refine of_fst (by with_reducible assumption) ?_) | (refine of_snd (by with_reducible assumption) ?_) | (refine of_snd2 (by with_reducible assumption) ?_) | (refine of_mid (by with_reducible assumption) ?_) | (refine of_getD (s := s) (by with_reducible assumption) ?_))

theorem walkGrant_keeps {P : State → Prop} (hP : Closed P) (ring : Fin 16) (entry : Nat) (d : Nat) (keys : List Slot) (t : Trigger) (man : BitVec 8) (resv : Bool) (s : State) (hs0 : P s) : P (walkGrant ring entry d keys t man resv s) := by
  unfold walkGrant
  repeat' (first | (with_reducible assumption) | (intro _) | (with_reducible apply fset_keeps) | (with_reducible apply fbumpN_keeps) | (with_reducible apply fbump_keeps) | (with_reducible apply setWalkRt_keeps) | (with_reducible apply startCaravan_keeps) | (with_reducible apply optMap_keeps) | (with_reducible apply optGet_keeps) | (fail_if_no_progress with_reducible apply Closed.other hP) | (dsimp only [-Nat.reducePow, Option.getD_some, Option.getD_none]) | (with_reducible apply ite_keeps) | split | (refine of_fst (by with_reducible assumption) ?_) | (refine of_snd (by with_reducible assumption) ?_) | (refine of_snd2 (by with_reducible assumption) ?_) | (refine of_mid (by with_reducible assumption) ?_) | (refine of_getD (s := s) (by with_reducible assumption) ?_))

theorem startContext_keeps {P : State → Prop} (hP : Closed P) (d : Nat) (s : State) (hs0 : P s) : P (startContext d s) := by
  unfold startContext
  repeat' (first | (with_reducible assumption) | (intro _) | (with_reducible apply setWalkRt_keeps) | (with_reducible apply updCaravan_keeps) | (with_reducible apply startCaravan_keeps) | (fail_if_no_progress with_reducible apply Closed.other hP) | (dsimp only [-Nat.reducePow, Option.getD_some, Option.getD_none]) | (with_reducible apply ite_keeps) | split | (refine of_fst (by with_reducible assumption) ?_) | (refine of_snd (by with_reducible assumption) ?_) | (refine of_snd2 (by with_reducible assumption) ?_) | (refine of_mid (by with_reducible assumption) ?_) | (refine of_getD (s := s) (by with_reducible assumption) ?_))

theorem dupWalk_keeps {P : State → Prop} (hP : Closed P) (p : Fin 4) (d : Nat) (o : Nat) (keys : List Slot) (man : BitVec 8) (x : DupWalk) (s : State) (hs0 : P s) : P (dupWalk p d o keys man x s) := by
  unfold dupWalk
  repeat' (first | (with_reducible assumption) | (intro _) | (with_reducible apply fbumpN_keeps) | (with_reducible apply startContext_keeps) | (with_reducible apply optMap_keeps) | (with_reducible apply optGet_keeps) | (fail_if_no_progress with_reducible apply Closed.other hP) | (dsimp only [-Nat.reducePow, Option.getD_some, Option.getD_none]) | (with_reducible apply ite_keeps) | split | (refine of_fst (by with_reducible assumption) ?_) | (refine of_snd (by with_reducible assumption) ?_) | (refine of_snd2 (by with_reducible assumption) ?_) | (refine of_mid (by with_reducible assumption) ?_) | (refine of_getD (s := s) (by with_reducible assumption) ?_))

theorem endCaravan_keeps {P : State → Prop} (hP : Closed P) (c : Caravan) (s : State) (hs0 : P s) : P (endCaravan c s) := by
  unfold endCaravan
  repeat' (first | (with_reducible assumption) | (intro _) | (with_reducible apply fset_keeps) | (with_reducible apply setWalkRt_keeps) | (with_reducible apply startWanted_keeps) | (with_reducible apply startContext_keeps) | (fail_if_no_progress with_reducible apply Closed.other hP) | (dsimp only [-Nat.reducePow, Option.getD_some, Option.getD_none]) | (with_reducible apply ite_keeps) | split | (refine of_fst (by with_reducible assumption) ?_) | (refine of_snd (by with_reducible assumption) ?_) | (refine of_snd2 (by with_reducible assumption) ?_) | (refine of_mid (by with_reducible assumption) ?_) | (refine of_getD (s := s) (by with_reducible assumption) ?_))

end Sys2Proof.Laws
end

