-- ==== Sys2Proof/Laws/KFlags.lean ====
section
/-! SUPPORT. The operations of Machine/Flags.lean keep every property closed under the writers that they reach. -/

namespace Sys2Proof.Laws
open Sys2Proof.Machine

set_option linter.unreachableTactic false
set_option linter.unusedTactic false
set_option linter.unusedVariables false

theorem keepOfs_keeps {P : State → Prop} (hP : Closed P) (off : Nat) (s : State) (hs0 : P s) : P (keepOfs off s) := by
  unfold keepOfs
  repeat' (first | (with_reducible assumption) | (intro _) | (fail_if_no_progress with_reducible apply Closed.other hP) | (dsimp only [-Nat.reducePow, Option.getD_some, Option.getD_none]) | (with_reducible apply ite_keeps) | split | (refine of_fst (by with_reducible assumption) ?_) | (refine of_snd (by with_reducible assumption) ?_) | (refine of_snd2 (by with_reducible assumption) ?_) | (refine of_mid (by with_reducible assumption) ?_) | (refine of_getD (s := s) (by with_reducible assumption) ?_))

theorem setToll_keeps {P : State → Prop} (hP : Closed P) (p : Fin 4) (v : Int) (s : State) (hs0 : P s) : P (setToll p v s) := by
  unfold setToll
  repeat' (first | (with_reducible assumption) | (intro _) | (with_reducible apply fset_keeps) | (fail_if_no_progress with_reducible apply Closed.other hP) | (dsimp only [-Nat.reducePow, Option.getD_some, Option.getD_none]) | (with_reducible apply ite_keeps) | split | (refine of_fst (by with_reducible assumption) ?_) | (refine of_snd (by with_reducible assumption) ?_) | (refine of_snd2 (by with_reducible assumption) ?_) | (refine of_mid (by with_reducible assumption) ?_) | (refine of_getD (s := s) (by with_reducible assumption) ?_))

theorem tollCharge_keeps {P : State → Prop} (hP : Closed P) (p : Fin 4) (lines : Nat) (s : State) (hs0 : P s) : P (tollCharge p lines s) := by
  unfold tollCharge
  repeat' (first | (with_reducible assumption) | (intro _) | (with_reducible apply setToll_keeps) | (fail_if_no_progress with_reducible apply Closed.other hP) | (dsimp only [-Nat.reducePow, Option.getD_some, Option.getD_none]) | (with_reducible apply ite_keeps) | split | (refine of_fst (by with_reducible assumption) ?_) | (refine of_snd (by with_reducible assumption) ?_) | (refine of_snd2 (by with_reducible assumption) ?_) | (refine of_mid (by with_reducible assumption) ?_) | (refine of_getD (s := s) (by with_reducible assumption) ?_))

end Sys2Proof.Laws
end

