-- ==== Sys2Proof/Laws/KArb.lean ====
section
/-! SUPPORT. The operations of Machine/Arb.lean keep every property closed under the writers that they reach. -/

namespace Sys2Proof.Laws
open Sys2Proof.Machine

set_option linter.unreachableTactic false
set_option linter.unusedTactic false
set_option linter.unusedVariables false

theorem deferEval_keeps {P : State → Prop} (hP : Closed P) (ring : Fin 16) (slot : Nat) (s : State) (hs0 : P s) : P (deferEval ring slot s) := by
  unfold deferEval
  repeat' (first | (with_reducible assumption) | (intro _) | (with_reducible apply fbump_keeps) | (with_reducible apply respond_keeps) | (with_reducible apply updEntry_keeps) | (fail_if_no_progress with_reducible apply Closed.other hP) | (dsimp only [-Nat.reducePow, Option.getD_some, Option.getD_none]) | (with_reducible apply ite_keeps) | split | (refine of_fst (by with_reducible assumption) ?_) | (refine of_snd (by with_reducible assumption) ?_) | (refine of_snd2 (by with_reducible assumption) ?_) | (refine of_mid (by with_reducible assumption) ?_) | (refine of_getD (s := s) (by with_reducible assumption) ?_))

theorem deferAll_keeps {P : State → Prop} (hP : Closed P) (c : Fin 16) (s : State) (hs0 : P s) : P (deferAll c s) := by
  unfold deferAll
  repeat' (first | (with_reducible assumption) | (intro _) | (with_reducible apply forAll_keeps) | (with_reducible apply deferEval_keeps) | (fail_if_no_progress with_reducible apply Closed.other hP) | (dsimp only [-Nat.reducePow, Option.getD_some, Option.getD_none]) | (with_reducible apply ite_keeps) | split | (refine of_fst (by with_reducible assumption) ?_) | (refine of_snd (by with_reducible assumption) ?_) | (refine of_snd2 (by with_reducible assumption) ?_) | (refine of_mid (by with_reducible assumption) ?_) | (refine of_getD (s := s) (by with_reducible assumption) ?_))

theorem accept_keeps {P : State → Prop} (hP : Closed P) (hS : ClosedStrm P) (c : Contestant) (s : State) (hs0 : P s) : P (accept c s).1 := by
  unfold accept
  repeat' (first | (with_reducible assumption) | (intro _) | (with_reducible apply fbump_keeps) | (with_reducible apply setStrm_keeps) | (with_reducible apply respond_keeps) | (with_reducible apply releaseX_keeps) | (with_reducible apply probeAccept_keeps) | (with_reducible apply pushEntry_keeps) | (with_reducible apply releaseRet_keeps) | (with_reducible apply tollCharge_keeps) | (fail_if_no_progress with_reducible apply Closed.other hP) | (dsimp only [-Nat.reducePow, Option.getD_some, Option.getD_none]) | (with_reducible apply ite_keeps) | split | (refine of_fst (by with_reducible assumption) ?_) | (refine of_snd (by with_reducible assumption) ?_) | (refine of_snd2 (by with_reducible assumption) ?_) | (refine of_mid (by with_reducible assumption) ?_) | (refine of_getD (s := s) (by with_reducible assumption) ?_))

theorem chargeLine_keeps {P : State → Prop} (hP : Closed P) (hA : ClosedAcct P) (m : Nat) (c : Fin 16) (n : Nat) (s : State) (hs0 : P s) : P (chargeLine m c n s) := by
  unfold chargeLine
  repeat' (first | (with_reducible assumption) | (intro _) | (with_reducible apply setAcct_keeps) | (fail_if_no_progress with_reducible apply Closed.other hP) | (dsimp only [-Nat.reducePow, Option.getD_some, Option.getD_none]) | (with_reducible apply ite_keeps) | split | (refine of_fst (by with_reducible assumption) ?_) | (refine of_snd (by with_reducible assumption) ?_) | (refine of_snd2 (by with_reducible assumption) ?_) | (refine of_mid (by with_reducible assumption) ?_) | (refine of_getD (s := s) (by with_reducible assumption) ?_))

theorem pushCmd_keeps {P : State → Prop} (hP : Closed P) (c : Fin 16) (x : Cmd) (s : State) (hs0 : P s) : P (pushCmd c x s) := by
  unfold pushCmd
  repeat' (first | (with_reducible assumption) | (intro _) | (with_reducible apply updChan_keeps) | (fail_if_no_progress with_reducible apply Closed.other hP) | (dsimp only [-Nat.reducePow, Option.getD_some, Option.getD_none]) | (with_reducible apply ite_keeps) | split | (refine of_fst (by with_reducible assumption) ?_) | (refine of_snd (by with_reducible assumption) ?_) | (refine of_snd2 (by with_reducible assumption) ?_) | (refine of_mid (by with_reducible assumption) ?_) | (refine of_getD (s := s) (by with_reducible assumption) ?_))

theorem setRr_keeps {P : State → Prop} (hP : Closed P) (a : Fin 17) (p : Fin 4) (s : State) (hs0 : P s) : P (setRr a p s) := by
  unfold setRr
  repeat' (first | (with_reducible assumption) | (intro _) | (with_reducible apply updArb_keeps) | (fail_if_no_progress with_reducible apply Closed.other hP) | (dsimp only [-Nat.reducePow, Option.getD_some, Option.getD_none]) | (with_reducible apply ite_keeps) | split | (refine of_fst (by with_reducible assumption) ?_) | (refine of_snd (by with_reducible assumption) ?_) | (refine of_snd2 (by with_reducible assumption) ?_) | (refine of_mid (by with_reducible assumption) ?_) | (refine of_getD (s := s) (by with_reducible assumption) ?_))

theorem leaveContest_keeps {P : State → Prop} (hP : Closed P) (c : Contestant) (s : State) (hs0 : P s) : P (leaveContest c s) := by
  unfold leaveContest
  repeat' (first | (with_reducible assumption) | (intro _) | (with_reducible apply optMap_keeps) | (with_reducible apply optGet_keeps) | (fail_if_no_progress with_reducible apply Closed.other hP) | (dsimp only [-Nat.reducePow, Option.getD_some, Option.getD_none]) | (with_reducible apply ite_keeps) | split | (refine of_fst (by with_reducible assumption) ?_) | (refine of_snd (by with_reducible assumption) ?_) | (refine of_snd2 (by with_reducible assumption) ?_) | (refine of_mid (by with_reducible assumption) ?_) | (refine of_getD (s := s) (by with_reducible assumption) ?_))

theorem grantCh_keeps {P : State → Prop} (hP : Closed P) (hS : ClosedStrm P) (hA : ClosedAcct P) (hW : ClosedWay P) (a : Fin 17) (c : Contestant) (kind : SlotKind) (s : State) (hs0 : P s) : P (grantCh a c kind s) := by
  unfold grantCh
  repeat' (first | (with_reducible assumption) | (intro _) | (with_reducible apply fbump_keeps) | (with_reducible apply onlyIf_keeps) | (with_reducible apply updEntry_keeps) | (with_reducible apply hotBump_keeps) | (with_reducible apply markStale_keeps) | (with_reducible apply deferEval_keeps) | (with_reducible apply accept_keeps) | (with_reducible apply chargeLine_keeps) | (with_reducible apply pushCmd_keeps) | (with_reducible apply setRr_keeps) | (with_reducible apply leaveContest_keeps) | (fail_if_no_progress with_reducible apply Closed.other hP) | (dsimp only [-Nat.reducePow, Option.getD_some, Option.getD_none]) | (with_reducible apply ite_keeps) | split | (refine of_fst (by with_reducible assumption) ?_) | (refine of_snd (by with_reducible assumption) ?_) | (refine of_snd2 (by with_reducible assumption) ?_) | (refine of_mid (by with_reducible assumption) ?_) | (refine of_getD (s := s) (by with_reducible assumption) ?_))

theorem grantWay_keeps {P : State → Prop} (hP : Closed P) (hS : ClosedStrm P) (hD : ClosedDram P) (c : Contestant) (kind : SlotKind) (s : State) (hs0 : P s) : P (grantWay c kind s) := by
  unfold grantWay
  repeat' (first | (with_reducible assumption) | (intro _) | (with_reducible apply fbump_keeps) | (with_reducible apply updArb_keeps) | (with_reducible apply onlyIf_keeps) | (with_reducible apply setFrame_keeps) | (with_reducible apply wayStat_keeps) | (with_reducible apply enqGrant_keeps) | (with_reducible apply walkGrant_keeps) | (with_reducible apply deferEval_keeps) | (with_reducible apply accept_keeps) | (with_reducible apply setRr_keeps) | (with_reducible apply leaveContest_keeps) | (fail_if_no_progress with_reducible apply Closed.other hP) | (dsimp only [-Nat.reducePow, Option.getD_some, Option.getD_none]) | (with_reducible apply ite_keeps) | split | (refine of_fst (by with_reducible assumption) ?_) | (refine of_snd (by with_reducible assumption) ?_) | (refine of_snd2 (by with_reducible assumption) ?_) | (refine of_mid (by with_reducible assumption) ?_) | (refine of_getD (s := s) (by with_reducible assumption) ?_))

theorem updRead_keeps {P : State → Prop} (hP : Closed P) (i : Nat) (f : WalkRead → WalkRead) (s : State) (hs0 : P s) : P (updRead i f s) := by
  unfold updRead
  repeat' (first | (with_reducible assumption) | (intro _) | (fail_if_no_progress with_reducible apply Closed.other hP) | (dsimp only [-Nat.reducePow, Option.getD_some, Option.getD_none]) | (with_reducible apply ite_keeps) | split | (refine of_fst (by with_reducible assumption) ?_) | (refine of_snd (by with_reducible assumption) ?_) | (refine of_snd2 (by with_reducible assumption) ?_) | (refine of_mid (by with_reducible assumption) ?_) | (refine of_getD (s := s) (by with_reducible assumption) ?_))

theorem probeStat_keeps {P : State → Prop} (hP : Closed P) (l : Nat) (s : State) (hs0 : P s) : P (probeStat l s) := by
  unfold probeStat
  repeat' (first | (with_reducible assumption) | (intro _) | (with_reducible apply fbump_keeps) | (with_reducible apply updFrame_keeps) | (fail_if_no_progress with_reducible apply Closed.other hP) | (dsimp only [-Nat.reducePow, Option.getD_some, Option.getD_none]) | (with_reducible apply ite_keeps) | split | (refine of_fst (by with_reducible assumption) ?_) | (refine of_snd (by with_reducible assumption) ?_) | (refine of_snd2 (by with_reducible assumption) ?_) | (refine of_mid (by with_reducible assumption) ?_) | (refine of_getD (s := s) (by with_reducible assumption) ?_))

theorem grantRead_keeps {P : State → Prop} (hP : Closed P) (hA : ClosedAcct P) (hW : ClosedWay P) (a : Fin 17) (i : Nat) (kind : SlotKind) (s : State) (hs0 : P s) : P (grantRead a i kind s) := by
  unfold grantRead
  repeat' (first | (with_reducible assumption) | (intro _) | (with_reducible apply fbump_keeps) | (with_reducible apply onlyIf_keeps) | (with_reducible apply hotBump_keeps) | (with_reducible apply chargeLine_keeps) | (with_reducible apply pushCmd_keeps) | (with_reducible apply setRr_keeps) | (with_reducible apply updRead_keeps) | (with_reducible apply probeStat_keeps) | (fail_if_no_progress with_reducible apply Closed.other hP) | (dsimp only [-Nat.reducePow, Option.getD_some, Option.getD_none]) | (with_reducible apply ite_keeps) | split | (refine of_fst (by with_reducible assumption) ?_) | (refine of_snd (by with_reducible assumption) ?_) | (refine of_snd2 (by with_reducible assumption) ?_) | (refine of_mid (by with_reducible assumption) ?_) | (refine of_getD (s := s) (by with_reducible assumption) ?_))

theorem refuseBusy_keeps {P : State → Prop} (hP : Closed P) (hS : ClosedStrm P) (p : Fin 4) (r : Req) (cause : Nat) (s : State) (hs0 : P s) : P (refuseBusy p r cause s) := by
  unfold refuseBusy
  repeat' (first | (with_reducible assumption) | (intro _) | (with_reducible apply setStrm_keeps) | (with_reducible apply refuseResp_keeps) | (fail_if_no_progress with_reducible apply Closed.other hP) | (dsimp only [-Nat.reducePow, Option.getD_some, Option.getD_none]) | (with_reducible apply ite_keeps) | split | (refine of_fst (by with_reducible assumption) ?_) | (refine of_snd (by with_reducible assumption) ?_) | (refine of_snd2 (by with_reducible assumption) ?_) | (refine of_mid (by with_reducible assumption) ?_) | (refine of_getD (s := s) (by with_reducible assumption) ?_))

theorem refuseNew_keeps {P : State → Prop} (hP : Closed P) (hS : ClosedStrm P) (p : Fin 4) (r : Req) (code : Nat) (info : Nat) (sub : Nat) (s : State) (hs0 : P s) : P (refuseNew p r code info sub s) := by
  unfold refuseNew
  repeat' (first | (with_reducible assumption) | (intro _) | (with_reducible apply setStrm_keeps) | (with_reducible apply refuseResp_keeps) | (fail_if_no_progress with_reducible apply Closed.other hP) | (dsimp only [-Nat.reducePow, Option.getD_some, Option.getD_none]) | (with_reducible apply ite_keeps) | split | (refine of_fst (by with_reducible assumption) ?_) | (refine of_snd (by with_reducible assumption) ?_) | (refine of_snd2 (by with_reducible assumption) ?_) | (refine of_mid (by with_reducible assumption) ?_) | (refine of_getD (s := s) (by with_reducible assumption) ?_))

theorem lose_keeps {P : State → Prop} (hP : Closed P) (hS : ClosedStrm P) (a : Fin 17) (b : Bid) (v : Verdict) (s : State) (hs0 : P s) : P (lose a b v s) := by
  unfold lose
  repeat' (first | (with_reducible assumption) | (intro _) | (with_reducible apply fbump_keeps) | (with_reducible apply onlyIf_keeps) | (with_reducible apply leaveContest_keeps) | (with_reducible apply updRead_keeps) | (with_reducible apply refuseBusy_keeps) | (with_reducible apply optMap_keeps) | (with_reducible apply optGet_keeps) | (fail_if_no_progress with_reducible apply Closed.other hP) | (dsimp only [-Nat.reducePow, Option.getD_some, Option.getD_none]) | (with_reducible apply ite_keeps) | split | (refine of_fst (by with_reducible assumption) ?_) | (refine of_snd (by with_reducible assumption) ?_) | (refine of_snd2 (by with_reducible assumption) ?_) | (refine of_mid (by with_reducible assumption) ?_) | (refine of_getD (s := s) (by with_reducible assumption) ?_))

theorem noteResv_keeps {P : State → Prop} (hP : Closed P) (a : Fin 17) (g : Option Nat) (s : State) (hs0 : P s) : P (noteResv a g s) := by
  unfold noteResv
  repeat' (first | (with_reducible assumption) | (intro _) | (with_reducible apply updArb_keeps) | (fail_if_no_progress with_reducible apply Closed.other hP) | (dsimp only [-Nat.reducePow, Option.getD_some, Option.getD_none]) | (with_reducible apply ite_keeps) | split | (refine of_fst (by with_reducible assumption) ?_) | (refine of_snd (by with_reducible assumption) ?_) | (refine of_snd2 (by with_reducible assumption) ?_) | (refine of_mid (by with_reducible assumption) ?_) | (refine of_getD (s := s) (by with_reducible assumption) ?_))

theorem loseAt_keeps {P : State → Prop} (hP : Closed P) (hS : ClosedStrm P) (a : Fin 17) (s : State) (hs0 : P s) : P (loseAt a s) := by
  unfold loseAt
  repeat' (first | (with_reducible assumption) | (intro _) | (with_reducible apply updArb_keeps) | (with_reducible apply forAll_keeps) | (with_reducible apply lose_keeps) | (fail_if_no_progress with_reducible apply Closed.other hP) | (dsimp only [-Nat.reducePow, Option.getD_some, Option.getD_none]) | (with_reducible apply ite_keeps) | split | (refine of_fst (by with_reducible assumption) ?_) | (refine of_snd (by with_reducible assumption) ?_) | (refine of_snd2 (by with_reducible assumption) ?_) | (refine of_mid (by with_reducible assumption) ?_) | (refine of_getD (s := s) (by with_reducible assumption) ?_))

theorem grantBid_keeps {P : State → Prop} (hP : Closed P) (hS : ClosedStrm P) (hA : ClosedAcct P) (hD : ClosedDram P) (hW : ClosedWay P) (a : Fin 17) (b : Bid) (s : State) (hs0 : P s) : P (grantBid a b s) := by
  unfold grantBid
  repeat' (first | (with_reducible assumption) | (intro _) | (with_reducible apply grantCh_keeps) | (with_reducible apply grantWay_keeps) | (with_reducible apply grantRead_keeps) | (with_reducible apply noteResv_keeps) | (with_reducible apply loseAt_keeps) | (fail_if_no_progress with_reducible apply Closed.other hP) | (dsimp only [-Nat.reducePow, Option.getD_some, Option.getD_none]) | (with_reducible apply ite_keeps) | split | (refine of_fst (by with_reducible assumption) ?_) | (refine of_snd (by with_reducible assumption) ?_) | (refine of_snd2 (by with_reducible assumption) ?_) | (refine of_mid (by with_reducible assumption) ?_) | (refine of_getD (s := s) (by with_reducible assumption) ?_))

theorem contestLoop_keeps {P : State → Prop} (hP : Closed P) (hI : ClosedIx P) (hS : ClosedStrm P) (hA : ClosedAcct P) (hD : ClosedDram P) (hW : ClosedWay P) (a : Fin 17) (x0 : List Bid) (x1 : Left) (x2 : State) (hs0 : P x2) : P (contestLoop a x0 x1 x2) := by
  induction x0 generalizing x1 x2 with
  | nil => exact hs0
  | cons b rest ih =>
    rw [contestLoop]
    repeat' (first | (with_reducible assumption) | (intro _) | (with_reducible apply onlyIf_keeps) | (with_reducible apply grantBid_keeps) | (with_reducible apply forAll_keeps) | (with_reducible apply grantCh_keeps) | (with_reducible apply grantWay_keeps) | (with_reducible apply grantRead_keeps) | (with_reducible apply lose_keeps) | (with_reducible apply optMap_keeps) | (fail_if_no_progress with_reducible apply Closed.other hP) | (dsimp only [-Nat.reducePow, Option.getD_some, Option.getD_none]) | (with_reducible apply ite_keeps) | split | (refine of_fst (by with_reducible assumption) ?_) | (refine of_snd (by with_reducible assumption) ?_) | (refine of_snd2 (by with_reducible assumption) ?_) | (refine of_mid (by with_reducible assumption) ?_) | (refine of_getD (s := x2) (by with_reducible assumption) ?_) | apply ih)

theorem resvGrant_keeps {P : State → Prop} (hP : Closed P) (hS : ClosedStrm P) (hA : ClosedAcct P) (hD : ClosedDram P) (hW : ClosedWay P) (a : Fin 17) (s : State) (hs0 : P s) : P (resvGrant a s) := by
  unfold resvGrant
  repeat' (first | (with_reducible assumption) | (intro _) | (with_reducible apply onlyIf_keeps) | (with_reducible apply grantCh_keeps) | (with_reducible apply grantWay_keeps) | (with_reducible apply grantRead_keeps) | (with_reducible apply noteResv_keeps) | (fail_if_no_progress with_reducible apply Closed.other hP) | (dsimp only [-Nat.reducePow, Option.getD_some, Option.getD_none]) | (with_reducible apply ite_keeps) | split | (refine of_fst (by with_reducible assumption) ?_) | (refine of_snd (by with_reducible assumption) ?_) | (refine of_snd2 (by with_reducible assumption) ?_) | (refine of_mid (by with_reducible assumption) ?_) | (refine of_getD (s := s) (by with_reducible assumption) ?_))

theorem contest_keeps {P : State → Prop} (hP : Closed P) (hI : ClosedIx P) (hS : ClosedStrm P) (hA : ClosedAcct P) (hD : ClosedDram P) (hW : ClosedWay P) (a : Fin 17) (s : State) (hs0 : P s) : P (contest a s) := by
  unfold contest
  repeat' (first | (with_reducible assumption) | (intro _) | (with_reducible apply updArb_keeps) | (with_reducible apply contestLoop_keeps) | (with_reducible apply resvGrant_keeps) | (fail_if_no_progress with_reducible apply Closed.other hP) | (dsimp only [-Nat.reducePow, Option.getD_some, Option.getD_none]) | (with_reducible apply ite_keeps) | split | (refine of_fst (by with_reducible assumption) ?_) | (refine of_snd (by with_reducible assumption) ?_) | (refine of_snd2 (by with_reducible assumption) ?_) | (refine of_mid (by with_reducible assumption) ?_) | (refine of_getD (s := s) (by with_reducible assumption) ?_))

end Sys2Proof.Laws
end

