-- ==== Sys2Proof/Laws/KTxn.lean ====
section
/-! SUPPORT. The operations of Machine/Txn.lean keep every property closed under the writers that they reach. -/

namespace Sys2Proof.Laws
open Sys2Proof.Machine

set_option linter.unreachableTactic false
set_option linter.unusedTactic false
set_option linter.unusedVariables false

theorem freezeStream_keeps {P : State → Prop} (hP : Closed P) (hS : ClosedStrm P) (p : Fin 4) (r : Req) (kind : String) (s : State) (hs0 : P s) : P (freezeStream p r kind s) := by
  unfold freezeStream
  repeat' (first | (with_reducible assumption) | (intro _) | (with_reducible apply emit_keeps) | (with_reducible apply setStrm_keeps) | (fail_if_no_progress with_reducible apply Closed.other hP) | (dsimp only [-Nat.reducePow, Option.getD_some, Option.getD_none]) | (with_reducible apply ite_keeps) | split | (refine of_fst (by with_reducible assumption) ?_) | (refine of_snd (by with_reducible assumption) ?_) | (refine of_snd2 (by with_reducible assumption) ?_) | (refine of_mid (by with_reducible assumption) ?_) | (refine of_getD (s := s) (by with_reducible assumption) ?_))

theorem recordError_keeps {P : State → Prop} (hP : Closed P) (hS : ClosedStrm P) (p : Fin 4) (t : BitVec 12) (s : State) (hs0 : P s) : P (recordError p t s) := by
  unfold recordError
  repeat' (first | (with_reducible assumption) | (intro _) | (with_reducible apply fset_keeps) | (with_reducible apply fbump_keeps) | (with_reducible apply emit_keeps) | (with_reducible apply setStrm_keeps) | (fail_if_no_progress with_reducible apply Closed.other hP) | (dsimp only [-Nat.reducePow, Option.getD_some, Option.getD_none]) | (with_reducible apply ite_keeps) | split | (refine of_fst (by with_reducible assumption) ?_) | (refine of_snd (by with_reducible assumption) ?_) | (refine of_snd2 (by with_reducible assumption) ?_) | (refine of_mid (by with_reducible assumption) ?_) | (refine of_getD (s := s) (by with_reducible assumption) ?_))

theorem refuseAt_keeps {P : State → Prop} (hP : Closed P) (hS : ClosedStrm P) (p : Fin 4) (r : Req) (code : Nat) (info : Nat) (sub : Nat) (s : State) (hs0 : P s) : P (refuseAt p r code info sub s) := by
  unfold refuseAt
  repeat' (first | (with_reducible assumption) | (intro _) | (with_reducible apply refuseResp_keeps) | (with_reducible apply refuseNew_keeps) | (fail_if_no_progress with_reducible apply Closed.other hP) | (dsimp only [-Nat.reducePow, Option.getD_some, Option.getD_none]) | (with_reducible apply ite_keeps) | split | (refine of_fst (by with_reducible assumption) ?_) | (refine of_snd (by with_reducible assumption) ?_) | (refine of_snd2 (by with_reducible assumption) ?_) | (refine of_mid (by with_reducible assumption) ?_) | (refine of_getD (s := s) (by with_reducible assumption) ?_))

theorem respondDup_keeps {P : State → Prop} (hP : Closed P) (p : Fin 4) (r : Req) (x : Resp) (s : State) (hs0 : P s) : P (respondDup p r x s) := by
  unfold respondDup
  repeat' (first | (with_reducible assumption) | (intro _) | (with_reducible apply respond_keeps) | (with_reducible apply releaseX_keeps) | (fail_if_no_progress with_reducible apply Closed.other hP) | (dsimp only [-Nat.reducePow, Option.getD_some, Option.getD_none]) | (with_reducible apply ite_keeps) | split | (refine of_fst (by with_reducible assumption) ?_) | (refine of_snd (by with_reducible assumption) ?_) | (refine of_snd2 (by with_reducible assumption) ?_) | (refine of_mid (by with_reducible assumption) ?_) | (refine of_getD (s := s) (by with_reducible assumption) ?_))

theorem dupCell_keeps {P : State → Prop} (hP : Closed P) (id : Nat) (k : Nat) (l : Line) (psn : Bool) (s : State) (hs0 : P s) : P (dupCell id k l psn s) := by
  unfold dupCell
  repeat' (first | (with_reducible assumption) | (intro _) | (with_reducible apply optMap_keeps) | (with_reducible apply optGet_keeps) | (fail_if_no_progress with_reducible apply Closed.other hP) | (dsimp only [-Nat.reducePow, Option.getD_some, Option.getD_none]) | (with_reducible apply ite_keeps) | split | (refine of_fst (by with_reducible assumption) ?_) | (refine of_snd (by with_reducible assumption) ?_) | (refine of_snd2 (by with_reducible assumption) ?_) | (refine of_mid (by with_reducible assumption) ?_) | (refine of_getD (s := s) (by with_reducible assumption) ?_))

theorem dupAnswer_keeps {P : State → Prop} (hP : Closed P) (id : Nat) (s : State) (hs0 : P s) : P (dupAnswer id s) := by
  unfold dupAnswer
  repeat' (first | (with_reducible assumption) | (intro _) | (with_reducible apply respond_keeps) | (with_reducible apply voidRuns_keeps) | (fail_if_no_progress with_reducible apply Closed.other hP) | (dsimp only [-Nat.reducePow, Option.getD_some, Option.getD_none]) | (with_reducible apply ite_keeps) | split | (refine of_fst (by with_reducible assumption) ?_) | (refine of_snd (by with_reducible assumption) ?_) | (refine of_snd2 (by with_reducible assumption) ?_) | (refine of_mid (by with_reducible assumption) ?_) | (refine of_getD (s := s) (by with_reducible assumption) ?_))

theorem dupRead_keeps {P : State → Prop} (hP : Closed P) (id : Nat) (q : Nat) (k : Nat) (x : Nat × Nat) (s : State) (hs0 : P s) : P (dupRead id q k x s) := by
  unfold dupRead
  repeat' (first | (with_reducible assumption) | (intro _) | (with_reducible apply charge_keeps) | (with_reducible apply pushBg_keeps) | (with_reducible apply dupCell_keeps) | (with_reducible apply optMap_keeps) | (with_reducible apply optGet_keeps) | (fail_if_no_progress with_reducible apply Closed.other hP) | (dsimp only [-Nat.reducePow, Option.getD_some, Option.getD_none]) | (with_reducible apply ite_keeps) | split | (refine of_fst (by with_reducible assumption) ?_) | (refine of_snd (by with_reducible assumption) ?_) | (refine of_snd2 (by with_reducible assumption) ?_) | (refine of_mid (by with_reducible assumption) ?_) | (refine of_getD (s := s) (by with_reducible assumption) ?_))

theorem dupDeq_keeps {P : State → Prop} (hP : Closed P) (p : Fin 4) (q : Nat) (ret : Nat × Nat × Nat) (tag : BitVec 12) (strm : BitVec 12) (seq : BitVec 16) (f : Final) (s : State) (hs0 : P s) : P (dupDeq p q ret tag strm seq f s) := by
  unfold dupDeq
  repeat' (first | (with_reducible assumption) | (intro _) | (with_reducible apply forAll_keeps) | (with_reducible apply dupCell_keeps) | (with_reducible apply dupAnswer_keeps) | (with_reducible apply dupRead_keeps) | (with_reducible apply optMap_keeps) | (with_reducible apply optGet_keeps) | (fail_if_no_progress with_reducible apply Closed.other hP) | (dsimp only [-Nat.reducePow, Option.getD_some, Option.getD_none]) | (with_reducible apply ite_keeps) | split | (refine of_fst (by with_reducible assumption) ?_) | (refine of_snd (by with_reducible assumption) ?_) | (refine of_snd2 (by with_reducible assumption) ?_) | (refine of_mid (by with_reducible assumption) ?_) | (refine of_getD (s := s) (by with_reducible assumption) ?_))

theorem sendDup_keeps {P : State → Prop} (hP : Closed P) (p : Fin 4) (r : Req) (f : Final) (data : List Slot) (s : State) (hs0 : P s) : P (sendDup p r f data s) := by
  unfold sendDup
  repeat' (first | (with_reducible assumption) | (intro _) | (with_reducible apply onlyIf_keeps) | (with_reducible apply voidRuns_keeps) | (with_reducible apply respondDup_keeps) | (fail_if_no_progress with_reducible apply Closed.other hP) | (dsimp only [-Nat.reducePow, Option.getD_some, Option.getD_none]) | (with_reducible apply ite_keeps) | split | (refine of_fst (by with_reducible assumption) ?_) | (refine of_snd (by with_reducible assumption) ?_) | (refine of_snd2 (by with_reducible assumption) ?_) | (refine of_mid (by with_reducible assumption) ?_) | (refine of_getD (s := s) (by with_reducible assumption) ?_))

theorem dupRd_keeps {P : State → Prop} (hP : Closed P) (p : Fin 4) (r : Req) (f : Final) (s : State) (hs0 : P s) : P (dupRd p r f s) := by
  unfold dupRd
  repeat' (first | (with_reducible assumption) | (intro _) | (with_reducible apply charge_keeps) | (with_reducible apply sendDup_keeps) | (fail_if_no_progress with_reducible apply Closed.other hP) | (dsimp only [-Nat.reducePow, Option.getD_some, Option.getD_none]) | (with_reducible apply ite_keeps) | split | (refine of_fst (by with_reducible assumption) ?_) | (refine of_snd (by with_reducible assumption) ?_) | (refine of_snd2 (by with_reducible assumption) ?_) | (refine of_mid (by with_reducible assumption) ?_) | (refine of_getD (s := s) (by with_reducible assumption) ?_))

theorem dupWlk_keeps {P : State → Prop} (hP : Closed P) (p : Fin 4) (r : Req) (f : Final) (s : State) (hs0 : P s) : P (dupWlk p r f s) := by
  unfold dupWlk
  repeat' (first | (with_reducible assumption) | (intro _) | (with_reducible apply releaseX_keeps) | (with_reducible apply dupWalk_keeps) | (with_reducible apply sendDup_keeps) | (fail_if_no_progress with_reducible apply Closed.other hP) | (dsimp only [-Nat.reducePow, Option.getD_some, Option.getD_none]) | (with_reducible apply ite_keeps) | split | (refine of_fst (by with_reducible assumption) ?_) | (refine of_snd (by with_reducible assumption) ?_) | (refine of_snd2 (by with_reducible assumption) ?_) | (refine of_mid (by with_reducible assumption) ?_) | (refine of_getD (s := s) (by with_reducible assumption) ?_))

theorem dupDone_keeps {P : State → Prop} (hP : Closed P) (p : Fin 4) (r : Req) (w : WinSlot) (f : Final) (s : State) (hs0 : P s) : P (dupDone p r w f s) := by
  unfold dupDone
  repeat' (first | (with_reducible assumption) | (intro _) | (with_reducible apply fbump_keeps) | (with_reducible apply onlyIf_keeps) | (with_reducible apply lastRef_keeps) | (with_reducible apply countRef_keeps) | (with_reducible apply releaseX_keeps) | (with_reducible apply dupDeq_keeps) | (with_reducible apply sendDup_keeps) | (with_reducible apply dupRd_keeps) | (with_reducible apply dupWlk_keeps) | (fail_if_no_progress with_reducible apply Closed.other hP) | (dsimp only [-Nat.reducePow, Option.getD_some, Option.getD_none]) | (with_reducible apply ite_keeps) | split | (refine of_fst (by with_reducible assumption) ?_) | (refine of_snd (by with_reducible assumption) ?_) | (refine of_snd2 (by with_reducible assumption) ?_) | (refine of_mid (by with_reducible assumption) ?_) | (refine of_getD (s := s) (by with_reducible assumption) ?_))

theorem retag_keeps {P : State → Prop} (hP : Closed P) (p : Fin 4) (t : BitVec 12) (seq : BitVec 16) (tag : BitVec 12) (s : State) (hs0 : P s) : P (retag p t seq tag s) := by
  unfold retag
  repeat' (first | (with_reducible assumption) | (intro _) | (with_reducible apply optMap_keeps) | (with_reducible apply optGet_keeps) | (fail_if_no_progress with_reducible apply Closed.other hP) | (dsimp only [-Nat.reducePow, Option.getD_some, Option.getD_none]) | (with_reducible apply ite_keeps) | split | (refine of_fst (by with_reducible assumption) ?_) | (refine of_snd (by with_reducible assumption) ?_) | (refine of_snd2 (by with_reducible assumption) ?_) | (refine of_mid (by with_reducible assumption) ?_) | (refine of_getD (s := s) (by with_reducible assumption) ?_))

theorem dupAccept_keeps {P : State → Prop} (hP : Closed P) (hS : ClosedStrm P) (p : Fin 4) (r : Req) (w : WinSlot) (s : State) (hs0 : P s) : P (dupAccept p r w s) := by
  unfold dupAccept
  repeat' (first | (with_reducible assumption) | (intro _) | (with_reducible apply fbump_keeps) | (with_reducible apply setStrm_keeps) | (with_reducible apply respondDup_keeps) | (with_reducible apply retag_keeps) | (fail_if_no_progress with_reducible apply Closed.other hP) | (dsimp only [-Nat.reducePow, Option.getD_some, Option.getD_none]) | (with_reducible apply ite_keeps) | split | (refine of_fst (by with_reducible assumption) ?_) | (refine of_snd (by with_reducible assumption) ?_) | (refine of_snd2 (by with_reducible assumption) ?_) | (refine of_mid (by with_reducible assumption) ?_) | (refine of_getD (s := s) (by with_reducible assumption) ?_))

theorem enterContest_keeps {P : State → Prop} (hP : Closed P) (hS : ClosedStrm P) (p : Fin 4) (r : Req) (home : Fin 16) (t : Nat) (d : Nat) (late : Bool) (resv : Bool) (s : State) (hs0 : P s) : P (enterContest p r home t d late resv s) := by
  unfold enterContest
  repeat' (first | (with_reducible assumption) | (intro _) | (with_reducible apply updArb_keeps) | (with_reducible apply onlyIf_keeps) | (with_reducible apply setStrm_keeps) | (with_reducible apply refuseResp_keeps) | (with_reducible apply probeStat_keeps) | (fail_if_no_progress with_reducible apply Closed.other hP) | (dsimp only [-Nat.reducePow, Option.getD_some, Option.getD_none]) | (with_reducible apply ite_keeps) | split | (refine of_fst (by with_reducible assumption) ?_) | (refine of_snd (by with_reducible assumption) ?_) | (refine of_snd2 (by with_reducible assumption) ?_) | (refine of_mid (by with_reducible assumption) ?_) | (refine of_getD (s := s) (by with_reducible assumption) ?_))

theorem acceptSync_keeps {P : State → Prop} (hP : Closed P) (hS : ClosedStrm P) (p : Fin 4) (r : Req) (d : Nat) (late : Bool) (t : Nat) (s : State) (hs0 : P s) : P (acceptSync p r d late t s) := by
  unfold acceptSync
  repeat' (first | (with_reducible assumption) | (intro _) | (with_reducible apply fbump_keeps) | (with_reducible apply setStrm_keeps) | (with_reducible apply pump_keeps) | (with_reducible apply assemble_keeps) | (with_reducible apply releaseX_keeps) | (with_reducible apply probeAccept_keeps) | (with_reducible apply syncService_keeps) | (with_reducible apply releaseRet_keeps) | (fail_if_no_progress with_reducible apply Closed.other hP) | (dsimp only [-Nat.reducePow, Option.getD_some, Option.getD_none]) | (with_reducible apply ite_keeps) | split | (refine of_fst (by with_reducible assumption) ?_) | (refine of_snd (by with_reducible assumption) ?_) | (refine of_snd2 (by with_reducible assumption) ?_) | (refine of_mid (by with_reducible assumption) ?_) | (refine of_getD (s := s) (by with_reducible assumption) ?_))

theorem reportShort_keeps {P : State → Prop} (hP : Closed P) (s : State) (hs0 : P s) : P (reportShort s) := by
  unfold reportShort
  repeat' (first | (with_reducible assumption) | (intro _) | (with_reducible apply emit_keeps) | (fail_if_no_progress with_reducible apply Closed.other hP) | (dsimp only [-Nat.reducePow, Option.getD_some, Option.getD_none]) | (with_reducible apply ite_keeps) | split | (refine of_fst (by with_reducible assumption) ?_) | (refine of_snd (by with_reducible assumption) ?_) | (refine of_snd2 (by with_reducible assumption) ?_) | (refine of_mid (by with_reducible assumption) ?_) | (refine of_getD (s := s) (by with_reducible assumption) ?_))

theorem intakeNew_keeps {P : State → Prop} (hP : Closed P) (hI : ClosedIx P) (hS : ClosedStrm P) (hA : ClosedAcct P) (hD : ClosedDram P) (hW : ClosedWay P) (p : Fin 4) (r : Req) (s : State) (hs0 : P s) : P (intakeNew p r s) := by
  unfold intakeNew
  repeat' (first | (with_reducible assumption) | (intro _) | (with_reducible apply onlyIf_keeps) | (with_reducible apply setStrm_keeps) | (with_reducible apply refuseResp_keeps) | (with_reducible apply refuseBusy_keeps) | (with_reducible apply refuseNew_keeps) | (with_reducible apply enterContest_keeps) | (with_reducible apply acceptSync_keeps) | (with_reducible apply reportShort_keeps) | (fail_if_no_progress with_reducible apply Closed.other hP) | (fail_if_no_progress extract_lets) | split | (dsimp only [-Nat.reducePow, Option.getD_some, Option.getD_none]) | (dsimp +zetaDelta only [-Nat.reducePow]) | (refine of_fst (by with_reducible assumption) ?_) | (refine of_snd (by with_reducible assumption) ?_) | (refine of_snd2 (by with_reducible assumption) ?_) | (refine of_mid (by with_reducible assumption) ?_) | (refine of_getD (s := s) (by with_reducible assumption) ?_))

theorem classify_keeps {P : State → Prop} (hP : Closed P) (hI : ClosedIx P) (hS : ClosedStrm P) (hA : ClosedAcct P) (hD : ClosedDram P) (hW : ClosedWay P) (p : Fin 4) (r : Req) (ue : Bool) (s : State) (hs0 : P s) : P (classify p r ue s) := by
  unfold classify
  repeat' (first | (with_reducible assumption) | (intro _) | (with_reducible apply setStrm_keeps) | (with_reducible apply charge_keeps) | (with_reducible apply refuseResp_keeps) | (with_reducible apply freezeStream_keeps) | (with_reducible apply recordError_keeps) | (with_reducible apply refuseAt_keeps) | (with_reducible apply dupDone_keeps) | (with_reducible apply dupAccept_keeps) | (with_reducible apply intakeNew_keeps) | (fail_if_no_progress with_reducible apply Closed.other hP) | (dsimp only [-Nat.reducePow, Option.getD_some, Option.getD_none]) | (with_reducible apply ite_keeps) | split | (refine of_fst (by with_reducible assumption) ?_) | (refine of_snd (by with_reducible assumption) ?_) | (refine of_snd2 (by with_reducible assumption) ?_) | (refine of_mid (by with_reducible assumption) ?_) | (refine of_getD (s := s) (by with_reducible assumption) ?_))

theorem drainFuel_keeps {P : State → Prop} (hP : Closed P) (hI : ClosedIx P) (hS : ClosedStrm P) (hA : ClosedAcct P) (hD : ClosedDram P) (hW : ClosedWay P) (x0 : Nat) (x1 : State) (hs0 : P x1) : P (drainFuel x0 x1) := by
  fun_induction drainFuel x0 x1
  all_goals repeat' (first | (with_reducible assumption) | (intro _) | (with_reducible apply setStrm_keeps) | (with_reducible apply classify_keeps) | (fail_if_no_progress with_reducible apply Closed.other hP) | (dsimp only [-Nat.reducePow, Option.getD_some, Option.getD_none]) | (with_reducible apply ite_keeps) | split | (refine of_fst (by with_reducible assumption) ?_) | (refine of_snd (by with_reducible assumption) ?_) | (refine of_snd2 (by with_reducible assumption) ?_) | (refine of_mid (by with_reducible assumption) ?_) | (refine of_getD (s := x1) (by with_reducible assumption) ?_) | apply_assumption)

theorem reapCaravans_keeps {P : State → Prop} (hP : Closed P) (s : State) (hs0 : P s) : P (reapCaravans s) := by
  unfold reapCaravans
  repeat' (first | (with_reducible assumption) | (intro _) | (with_reducible apply forAll_keeps) | (with_reducible apply endCaravan_keeps) | (fail_if_no_progress with_reducible apply Closed.other hP) | (dsimp only [-Nat.reducePow, Option.getD_some, Option.getD_none]) | (with_reducible apply ite_keeps) | split | (refine of_fst (by with_reducible assumption) ?_) | (refine of_snd (by with_reducible assumption) ?_) | (refine of_snd2 (by with_reducible assumption) ?_) | (refine of_mid (by with_reducible assumption) ?_) | (refine of_getD (s := s) (by with_reducible assumption) ?_))

theorem settle_keeps {P : State → Prop} (hP : Closed P) (hI : ClosedIx P) (hS : ClosedStrm P) (hA : ClosedAcct P) (hD : ClosedDram P) (hW : ClosedWay P) (s : State) (hs0 : P s) : P (settle s) := by
  unfold settle
  repeat' (first | (with_reducible assumption) | (intro _) | (with_reducible apply drainFuel_keeps) | (with_reducible apply reapCaravans_keeps) | (with_reducible apply optMap_keeps) | (with_reducible apply optGet_keeps) | (fail_if_no_progress with_reducible apply Closed.other hP) | (dsimp only [-Nat.reducePow, Option.getD_some, Option.getD_none]) | (with_reducible apply ite_keeps) | split | (refine of_fst (by with_reducible assumption) ?_) | (refine of_snd (by with_reducible assumption) ?_) | (refine of_snd2 (by with_reducible assumption) ?_) | (refine of_mid (by with_reducible assumption) ?_) | (refine of_getD (s := s) (by with_reducible assumption) ?_))

theorem takeReq_keeps {P : State → Prop} (hP : Closed P) (hI : ClosedIx P) (hS : ClosedStrm P) (hA : ClosedAcct P) (hD : ClosedDram P) (hW : ClosedWay P) (p : Fin 4) (r : Req) (ue : Bool) (s : State) (hs0 : P s) : P (takeReq p r ue s) := by
  unfold takeReq
  repeat' (first | (with_reducible assumption) | (intro _) | (with_reducible apply setStrm_keeps) | (with_reducible apply classify_keeps) | (with_reducible apply settle_keeps) | (fail_if_no_progress with_reducible apply Closed.other hP) | (dsimp only [-Nat.reducePow, Option.getD_some, Option.getD_none]) | (with_reducible apply ite_keeps) | split | (refine of_fst (by with_reducible assumption) ?_) | (refine of_snd (by with_reducible assumption) ?_) | (refine of_snd2 (by with_reducible assumption) ?_) | (refine of_mid (by with_reducible assumption) ?_) | (refine of_getD (s := s) (by with_reducible assumption) ?_))

theorem actOn_keeps {P : State → Prop} (hP : Closed P) (hS : ClosedStrm P) (hD : ClosedDram P) (errs : List JournalErr) (c : Fin 16) (slot : Nat) (quiet : Bool) (s : State) (hs0 : P s) : P (actOn errs c slot quiet s).1 := by
  unfold actOn
  repeat' (first | (with_reducible assumption) | (intro _) | (with_reducible apply actEntry_keeps) | (with_reducible apply evict_keeps) | (with_reducible apply replan_keeps) | (fail_if_no_progress with_reducible apply Closed.other hP) | (dsimp only [-Nat.reducePow, Option.getD_some, Option.getD_none]) | (with_reducible apply ite_keeps) | split | (refine of_fst (by with_reducible assumption) ?_) | (refine of_snd (by with_reducible assumption) ?_) | (refine of_snd2 (by with_reducible assumption) ?_) | (refine of_mid (by with_reducible assumption) ?_) | (refine of_getD (s := s) (by with_reducible assumption) ?_))

theorem actAll_keeps {P : State → Prop} (hP : Closed P) (hS : ClosedStrm P) (hD : ClosedDram P) (errs : List JournalErr) (s : State) (hs0 : P s) : P (actAll errs s) := by
  unfold actAll
  repeat' (first | (with_reducible assumption) | (intro _) | (with_reducible apply forAll_keeps) | (with_reducible apply actOn_keeps) | (fail_if_no_progress with_reducible apply Closed.other hP) | (dsimp only [-Nat.reducePow, Option.getD_some, Option.getD_none]) | (with_reducible apply ite_keeps) | split | (refine of_fst (by with_reducible assumption) ?_) | (refine of_snd (by with_reducible assumption) ?_) | (refine of_snd2 (by with_reducible assumption) ?_) | (refine of_mid (by with_reducible assumption) ?_) | (refine of_getD (s := s) (by with_reducible assumption) ?_))

theorem execRd_keeps {P : State → Prop} (hP : Closed P) (hI : ClosedIx P) (hS : ClosedStrm P) (hA : ClosedAcct P) (hD : ClosedDram P) (hW : ClosedWay P) (port : Fin 4) (h : Hdr) (ue : Bool) (s : State) (hs0 : P s) : ∀ out, execRd port h ue s = .next out → P out := by
  unfold execRd
  intro out hout
  obtain rfl := Host.Outcome.next.inj hout
  repeat' (first | (with_reducible assumption) | (intro _) | (with_reducible apply takeReq_keeps) | (fail_if_no_progress with_reducible apply Closed.other hP) | (dsimp only [-Nat.reducePow, Option.getD_some, Option.getD_none]) | (with_reducible apply ite_keeps) | split | (refine of_fst (by with_reducible assumption) ?_) | (refine of_snd (by with_reducible assumption) ?_) | (refine of_snd2 (by with_reducible assumption) ?_) | (refine of_mid (by with_reducible assumption) ?_) | (refine of_getD (s := s) (by with_reducible assumption) ?_))

theorem execWr_keeps {P : State → Prop} (hP : Closed P) (hI : ClosedIx P) (hS : ClosedStrm P) (hA : ClosedAcct P) (hD : ClosedDram P) (hW : ClosedWay P) (port : Fin 4) (h : Hdr) (body : List Slot) (ue : Bool) (s : State) (hs0 : P s) : ∀ out, execWr port h body ue s = .next out → P out := by
  unfold execWr
  intro out hout
  obtain rfl := Host.Outcome.next.inj hout
  repeat' (first | (with_reducible assumption) | (intro _) | (with_reducible apply takeReq_keeps) | (fail_if_no_progress with_reducible apply Closed.other hP) | (dsimp only [-Nat.reducePow, Option.getD_some, Option.getD_none]) | (with_reducible apply ite_keeps) | split | (refine of_fst (by with_reducible assumption) ?_) | (refine of_snd (by with_reducible assumption) ?_) | (refine of_snd2 (by with_reducible assumption) ?_) | (refine of_mid (by with_reducible assumption) ?_) | (refine of_getD (s := s) (by with_reducible assumption) ?_))

theorem execWrp_keeps {P : State → Prop} (hP : Closed P) (hI : ClosedIx P) (hS : ClosedStrm P) (hA : ClosedAcct P) (hD : ClosedDram P) (hW : ClosedWay P) (port : Fin 4) (h : Hdr) (body : List Slot) (ue : Bool) (s : State) (hs0 : P s) : ∀ out, execWrp port h body ue s = .next out → P out := by
  unfold execWrp
  intro out hout
  obtain rfl := Host.Outcome.next.inj hout
  repeat' (first | (with_reducible assumption) | (intro _) | (with_reducible apply takeReq_keeps) | (fail_if_no_progress with_reducible apply Closed.other hP) | (dsimp only [-Nat.reducePow, Option.getD_some, Option.getD_none]) | (with_reducible apply ite_keeps) | split | (refine of_fst (by with_reducible assumption) ?_) | (refine of_snd (by with_reducible assumption) ?_) | (refine of_snd2 (by with_reducible assumption) ?_) | (refine of_mid (by with_reducible assumption) ?_) | (refine of_getD (s := s) (by with_reducible assumption) ?_))

theorem execAdd_keeps {P : State → Prop} (hP : Closed P) (hI : ClosedIx P) (hS : ClosedStrm P) (hA : ClosedAcct P) (hD : ClosedDram P) (hW : ClosedWay P) (port : Fin 4) (h : Hdr) (body : List Slot) (ue : Bool) (s : State) (hs0 : P s) : ∀ out, execAdd port h body ue s = .next out → P out := by
  unfold execAdd
  intro out hout
  obtain rfl := Host.Outcome.next.inj hout
  repeat' (first | (with_reducible assumption) | (intro _) | (with_reducible apply takeReq_keeps) | (fail_if_no_progress with_reducible apply Closed.other hP) | (dsimp only [-Nat.reducePow, Option.getD_some, Option.getD_none]) | (with_reducible apply ite_keeps) | split | (refine of_fst (by with_reducible assumption) ?_) | (refine of_snd (by with_reducible assumption) ?_) | (refine of_snd2 (by with_reducible assumption) ?_) | (refine of_mid (by with_reducible assumption) ?_) | (refine of_getD (s := s) (by with_reducible assumption) ?_))

theorem execEnq_keeps {P : State → Prop} (hP : Closed P) (hI : ClosedIx P) (hS : ClosedStrm P) (hA : ClosedAcct P) (hD : ClosedDram P) (hW : ClosedWay P) (port : Fin 4) (h : Hdr) (body : List Slot) (ue : Bool) (s : State) (hs0 : P s) : ∀ out, execEnq port h body ue s = .next out → P out := by
  unfold execEnq
  intro out hout
  obtain rfl := Host.Outcome.next.inj hout
  repeat' (first | (with_reducible assumption) | (intro _) | (with_reducible apply protocolError_keeps) | (with_reducible apply takeReq_keeps) | (fail_if_no_progress with_reducible apply Closed.other hP) | (dsimp only [-Nat.reducePow, Option.getD_some, Option.getD_none]) | (with_reducible apply ite_keeps) | split | (refine of_fst (by with_reducible assumption) ?_) | (refine of_snd (by with_reducible assumption) ?_) | (refine of_snd2 (by with_reducible assumption) ?_) | (refine of_mid (by with_reducible assumption) ?_) | (refine of_getD (s := s) (by with_reducible assumption) ?_))

theorem execDeq_keeps {P : State → Prop} (hP : Closed P) (hI : ClosedIx P) (hS : ClosedStrm P) (hA : ClosedAcct P) (hD : ClosedDram P) (hW : ClosedWay P) (port : Fin 4) (h : Hdr) (ue : Bool) (s : State) (hs0 : P s) : ∀ out, execDeq port h ue s = .next out → P out := by
  unfold execDeq
  intro out hout
  obtain rfl := Host.Outcome.next.inj hout
  repeat' (first | (with_reducible assumption) | (intro _) | (with_reducible apply takeReq_keeps) | (fail_if_no_progress with_reducible apply Closed.other hP) | (dsimp only [-Nat.reducePow, Option.getD_some, Option.getD_none]) | (with_reducible apply ite_keeps) | split | (refine of_fst (by with_reducible assumption) ?_) | (refine of_snd (by with_reducible assumption) ?_) | (refine of_snd2 (by with_reducible assumption) ?_) | (refine of_mid (by with_reducible assumption) ?_) | (refine of_getD (s := s) (by with_reducible assumption) ?_))

theorem execWalk_keeps {P : State → Prop} (hP : Closed P) (hI : ClosedIx P) (hS : ClosedStrm P) (hA : ClosedAcct P) (hD : ClosedDram P) (hW : ClosedWay P) (port : Fin 4) (h : Hdr) (body : List Slot) (ue : Bool) (s : State) (hs0 : P s) : ∀ out, execWalk port h body ue s = .next out → P out := by
  unfold execWalk
  intro out hout
  obtain rfl := Host.Outcome.next.inj hout
  repeat' (first | (with_reducible assumption) | (intro _) | (with_reducible apply takeReq_keeps) | (fail_if_no_progress with_reducible apply Closed.other hP) | (dsimp only [-Nat.reducePow, Option.getD_some, Option.getD_none]) | (with_reducible apply ite_keeps) | split | (refine of_fst (by with_reducible assumption) ?_) | (refine of_snd (by with_reducible assumption) ?_) | (refine of_snd2 (by with_reducible assumption) ?_) | (refine of_mid (by with_reducible assumption) ?_) | (refine of_getD (s := s) (by with_reducible assumption) ?_))

theorem execSync_keeps {P : State → Prop} (hP : Closed P) (hI : ClosedIx P) (hS : ClosedStrm P) (hA : ClosedAcct P) (hD : ClosedDram P) (hW : ClosedWay P) (port : Fin 4) (h : Hdr) (ue : Bool) (s : State) (hs0 : P s) : ∀ out, execSync port h ue s = .next out → P out := by
  unfold execSync
  intro out hout
  obtain rfl := Host.Outcome.next.inj hout
  repeat' (first | (with_reducible assumption) | (intro _) | (with_reducible apply takeReq_keeps) | (fail_if_no_progress with_reducible apply Closed.other hP) | (dsimp only [-Nat.reducePow, Option.getD_some, Option.getD_none]) | (with_reducible apply ite_keeps) | split | (refine of_fst (by with_reducible assumption) ?_) | (refine of_snd (by with_reducible assumption) ?_) | (refine of_snd2 (by with_reducible assumption) ?_) | (refine of_mid (by with_reducible assumption) ?_) | (refine of_getD (s := s) (by with_reducible assumption) ?_))

theorem execArbiterContest_keeps {P : State → Prop} (hP : Closed P) (hI : ClosedIx P) (hS : ClosedStrm P) (hA : ClosedAcct P) (hD : ClosedDram P) (hW : ClosedWay P) (arb : Fin 17) (errs : List JournalErr) (s : State) (hs0 : P s) : ∀ out, execArbiterContest arb errs s = .next out → P out := by
  unfold execArbiterContest
  intro out hout
  obtain rfl := Host.Outcome.next.inj hout
  repeat' (first | (with_reducible assumption) | (intro _) | (with_reducible apply contest_keeps) | (with_reducible apply settle_keeps) | (with_reducible apply actAll_keeps) | (fail_if_no_progress with_reducible apply Closed.other hP) | (dsimp only [-Nat.reducePow, Option.getD_some, Option.getD_none]) | (with_reducible apply ite_keeps) | split | (refine of_fst (by with_reducible assumption) ?_) | (refine of_snd (by with_reducible assumption) ?_) | (refine of_snd2 (by with_reducible assumption) ?_) | (refine of_mid (by with_reducible assumption) ?_) | (refine of_getD (s := s) (by with_reducible assumption) ?_))

theorem execResvGrant_keeps {P : State → Prop} (hP : Closed P) (hI : ClosedIx P) (hS : ClosedStrm P) (hA : ClosedAcct P) (hD : ClosedDram P) (hW : ClosedWay P) (arb : Fin 17) (errs : List JournalErr) (s : State) (hs0 : P s) : ∀ out, execResvGrant arb errs s = .next out → P out := by
  unfold execResvGrant
  intro out hout
  obtain rfl := Host.Outcome.next.inj hout
  repeat' (first | (with_reducible assumption) | (intro _) | (with_reducible apply resvGrant_keeps) | (with_reducible apply settle_keeps) | (with_reducible apply actAll_keeps) | (fail_if_no_progress with_reducible apply Closed.other hP) | (dsimp only [-Nat.reducePow, Option.getD_some, Option.getD_none]) | (with_reducible apply ite_keeps) | split | (refine of_fst (by with_reducible assumption) ?_) | (refine of_snd (by with_reducible assumption) ?_) | (refine of_snd2 (by with_reducible assumption) ?_) | (refine of_mid (by with_reducible assumption) ?_) | (refine of_getD (s := s) (by with_reducible assumption) ?_))

end Sys2Proof.Laws
end

