-- ==== Sys2Proof/Laws/KChanBase.lean ====
section
/-! SUPPORT. The operations of Machine/ChanBase.lean keep every property closed under the writers that they reach. -/

namespace Sys2Proof.Laws
open Sys2Proof.Machine

set_option linter.unreachableTactic false
set_option linter.unusedTactic false
set_option linter.unusedVariables false

theorem setHorizon_keeps {P : State → Prop} (hP : Closed P) (us : Nat) (s : State) (hs0 : P s) : P (setHorizon us s) := by
  unfold setHorizon
  repeat' (first | (with_reducible assumption) | (intro _) | (with_reducible apply fset_keeps) | (with_reducible apply emit_keeps) | (fail_if_no_progress with_reducible apply Closed.other hP) | (dsimp only [-Nat.reducePow, Option.getD_some, Option.getD_none]) | (with_reducible apply ite_keeps) | split | (refine of_fst (by with_reducible assumption) ?_) | (refine of_snd (by with_reducible assumption) ?_) | (refine of_snd2 (by with_reducible assumption) ?_) | (refine of_mid (by with_reducible assumption) ?_) | (refine of_getD (s := s) (by with_reducible assumption) ?_))

theorem horizonCheck_keeps {P : State → Prop} (hP : Closed P) (s : State) (hs0 : P s) : P (horizonCheck s) := by
  unfold horizonCheck
  repeat' (first | (with_reducible assumption) | (intro _) | (with_reducible apply setHorizon_keeps) | (with_reducible apply optMap_keeps) | (with_reducible apply optGet_keeps) | (with_reducible apply foldl_keeps) | (with_reducible apply foldl_keeps_fst) | (with_reducible apply foldl_keeps_snd) | (with_reducible apply foldl_keeps_snd2) | (fail_if_no_progress with_reducible apply Closed.other hP) | (dsimp only [-Nat.reducePow, Option.getD_some, Option.getD_none]) | (with_reducible apply ite_keeps) | split | (refine of_fst (by with_reducible assumption) ?_) | (refine of_snd (by with_reducible assumption) ?_) | (refine of_snd2 (by with_reducible assumption) ?_) | (refine of_mid (by with_reducible assumption) ?_) | (refine of_getD (s := s) (by with_reducible assumption) ?_))

theorem logFault_keeps {P : State → Prop} (hP : Closed P) (c : Fin 16) (e : FaultEnt) (s : State) (hs0 : P s) : P (logFault c e s) := by
  unfold logFault
  repeat' (first | (with_reducible assumption) | (intro _) | (with_reducible apply updChan_keeps) | (fail_if_no_progress with_reducible apply Closed.other hP) | (dsimp only [-Nat.reducePow, Option.getD_some, Option.getD_none]) | (with_reducible apply ite_keeps) | split | (refine of_fst (by with_reducible assumption) ?_) | (refine of_snd (by with_reducible assumption) ?_) | (refine of_snd2 (by with_reducible assumption) ?_) | (refine of_mid (by with_reducible assumption) ?_) | (refine of_getD (s := s) (by with_reducible assumption) ?_))

theorem logFree_keeps {P : State → Prop} (hP : Closed P) (c : Fin 16) (kind : Nat) (dev : Nat) (s : State) (hs0 : P s) : P (logFree c kind dev s) := by
  unfold logFree
  repeat' (first | (with_reducible assumption) | (intro _) | (with_reducible apply takeFree_keeps) | (with_reducible apply logFault_keeps) | (fail_if_no_progress with_reducible apply Closed.other hP) | (dsimp only [-Nat.reducePow, Option.getD_some, Option.getD_none]) | (with_reducible apply ite_keeps) | split | (refine of_fst (by with_reducible assumption) ?_) | (refine of_snd (by with_reducible assumption) ?_) | (refine of_snd2 (by with_reducible assumption) ?_) | (refine of_mid (by with_reducible assumption) ?_) | (refine of_getD (s := s) (by with_reducible assumption) ?_))

theorem setChState_keeps {P : State → Prop} (hP : Closed P) (c : Fin 16) (st : Nat) (s : State) (hs0 : P s) : P (setChState c st s) := by
  unfold setChState
  repeat' (first | (with_reducible assumption) | (intro _) | (with_reducible apply fset_keeps) | (fail_if_no_progress with_reducible apply Closed.other hP) | (dsimp only [-Nat.reducePow, Option.getD_some, Option.getD_none]) | (with_reducible apply ite_keeps) | split | (refine of_fst (by with_reducible assumption) ?_) | (refine of_snd (by with_reducible assumption) ?_) | (refine of_snd2 (by with_reducible assumption) ?_) | (refine of_mid (by with_reducible assumption) ?_) | (refine of_getD (s := s) (by with_reducible assumption) ?_))

theorem stopIdle_keeps {P : State → Prop} (hP : Closed P) (c : Fin 16) (s : State) (hs0 : P s) : P (stopIdle c s) := by
  unfold stopIdle
  repeat' (first | (with_reducible assumption) | (intro _) | (with_reducible apply fbumpN_keeps) | (with_reducible apply updChan_keeps) | (fail_if_no_progress with_reducible apply Closed.other hP) | (dsimp only [-Nat.reducePow, Option.getD_some, Option.getD_none]) | (with_reducible apply ite_keeps) | split | (refine of_fst (by with_reducible assumption) ?_) | (refine of_snd (by with_reducible assumption) ?_) | (refine of_snd2 (by with_reducible assumption) ?_) | (refine of_mid (by with_reducible assumption) ?_) | (refine of_getD (s := s) (by with_reducible assumption) ?_))

theorem stopUntil_keeps {P : State → Prop} (hP : Closed P) (c : Fin 16) (t8 : Nat) (s : State) (hs0 : P s) : P (stopUntil c t8 s) := by
  unfold stopUntil
  repeat' (first | (with_reducible assumption) | (intro _) | (with_reducible apply updChan_keeps) | (fail_if_no_progress with_reducible apply Closed.other hP) | (dsimp only [-Nat.reducePow, Option.getD_some, Option.getD_none]) | (with_reducible apply ite_keeps) | split | (refine of_fst (by with_reducible assumption) ?_) | (refine of_snd (by with_reducible assumption) ?_) | (refine of_snd2 (by with_reducible assumption) ?_) | (refine of_mid (by with_reducible assumption) ?_) | (refine of_getD (s := s) (by with_reducible assumption) ?_))

theorem endInord_keeps {P : State → Prop} (hP : Closed P) (c : Fin 16) (s : State) (hs0 : P s) : P (endInord c s) := by
  unfold endInord
  repeat' (first | (with_reducible assumption) | (intro _) | (with_reducible apply fbumpN_keeps) | (with_reducible apply updChan_keeps) | (with_reducible apply fsetBit_keeps) | (fail_if_no_progress with_reducible apply Closed.other hP) | (dsimp only [-Nat.reducePow, Option.getD_some, Option.getD_none]) | (with_reducible apply ite_keeps) | split | (refine of_fst (by with_reducible assumption) ?_) | (refine of_snd (by with_reducible assumption) ?_) | (refine of_snd2 (by with_reducible assumption) ?_) | (refine of_mid (by with_reducible assumption) ?_) | (refine of_getD (s := s) (by with_reducible assumption) ?_))

theorem deferPj_keeps {P : State → Prop} (hP : Closed P) (pj : Nat) (s : State) (hs0 : P s) : P (deferPj pj s) := by
  unfold deferPj
  repeat' (first | (with_reducible assumption) | (intro _) | (fail_if_no_progress with_reducible apply Closed.other hP) | (dsimp only [-Nat.reducePow, Option.getD_some, Option.getD_none]) | (with_reducible apply ite_keeps) | split | (refine of_fst (by with_reducible assumption) ?_) | (refine of_snd (by with_reducible assumption) ?_) | (refine of_snd2 (by with_reducible assumption) ?_) | (refine of_mid (by with_reducible assumption) ?_) | (refine of_getD (s := s) (by with_reducible assumption) ?_))

theorem chargeFor_keeps {P : State → Prop} (hP : Closed P) (x : Cmd) (k : Nat) (man : Option (BitVec 8)) (s : State) (hs0 : P s) : P (chargeFor x k man s) := by
  unfold chargeFor
  repeat' (first | (with_reducible assumption) | (intro _) | (with_reducible apply onlyIf_keeps) | (with_reducible apply charge_keeps) | (with_reducible apply deferPj_keeps) | (fail_if_no_progress with_reducible apply Closed.other hP) | (dsimp only [-Nat.reducePow, Option.getD_some, Option.getD_none]) | (with_reducible apply ite_keeps) | split | (refine of_fst (by with_reducible assumption) ?_) | (refine of_snd (by with_reducible assumption) ?_) | (refine of_snd2 (by with_reducible assumption) ?_) | (refine of_mid (by with_reducible assumption) ?_) | (refine of_getD (s := s) (by with_reducible assumption) ?_))

theorem pausePay_keeps {P : State → Prop} (hP : Closed P) (c : Fin 16) (len : Nat) (s : State) (hs0 : P s) : P (pausePay c len s) := by
  unfold pausePay
  repeat' (first | (with_reducible assumption) | (intro _) | (with_reducible apply fbumpN_keeps) | (with_reducible apply updChan_keeps) | (with_reducible apply onlyIf_keeps) | (with_reducible apply charge_keeps) | (with_reducible apply deferPj_keeps) | (fail_if_no_progress with_reducible apply Closed.other hP) | (dsimp only [-Nat.reducePow, Option.getD_some, Option.getD_none]) | (with_reducible apply ite_keeps) | split | (refine of_fst (by with_reducible assumption) ?_) | (refine of_snd (by with_reducible assumption) ?_) | (refine of_snd2 (by with_reducible assumption) ?_) | (refine of_mid (by with_reducible assumption) ?_) | (refine of_getD (s := s) (by with_reducible assumption) ?_))

theorem cutPause_keeps {P : State → Prop} (hP : Closed P) (c : Fin 16) (s : State) (hs0 : P s) : P (cutPause c s) := by
  unfold cutPause
  repeat' (first | (with_reducible assumption) | (intro _) | (with_reducible apply pausePay_keeps) | (fail_if_no_progress with_reducible apply Closed.other hP) | (dsimp only [-Nat.reducePow, Option.getD_some, Option.getD_none]) | (with_reducible apply ite_keeps) | split | (refine of_fst (by with_reducible assumption) ?_) | (refine of_snd (by with_reducible assumption) ?_) | (refine of_snd2 (by with_reducible assumption) ?_) | (refine of_mid (by with_reducible assumption) ?_) | (refine of_getD (s := s) (by with_reducible assumption) ?_))

theorem phyPay_keeps {P : State → Prop} (hP : Closed P) (c : Fin 16) (len : Nat) (s : State) (hs0 : P s) : P (phyPay c len s) := by
  unfold phyPay
  repeat' (first | (with_reducible assumption) | (intro _) | (with_reducible apply fbumpN_keeps) | (with_reducible apply updChan_keeps) | (fail_if_no_progress with_reducible apply Closed.other hP) | (dsimp only [-Nat.reducePow, Option.getD_some, Option.getD_none]) | (with_reducible apply ite_keeps) | split | (refine of_fst (by with_reducible assumption) ?_) | (refine of_snd (by with_reducible assumption) ?_) | (refine of_snd2 (by with_reducible assumption) ?_) | (refine of_mid (by with_reducible assumption) ?_) | (refine of_getD (s := s) (by with_reducible assumption) ?_))

theorem phyNext_keeps {P : State → Prop} (hP : Closed P) (c : Fin 16) (s : State) (hs0 : P s) : P (phyNext c s) := by
  unfold phyNext
  repeat' (first | (with_reducible assumption) | (intro _) | (fail_if_no_progress with_reducible apply Closed.other hP) | (dsimp only [-Nat.reducePow, Option.getD_some, Option.getD_none]) | (with_reducible apply ite_keeps) | split | (refine of_fst (by with_reducible assumption) ?_) | (refine of_snd (by with_reducible assumption) ?_) | (refine of_snd2 (by with_reducible assumption) ?_) | (refine of_mid (by with_reducible assumption) ?_) | (refine of_getD (s := s) (by with_reducible assumption) ?_))

theorem stopPhy_keeps {P : State → Prop} (hP : Closed P) (c : Fin 16) (s : State) (hs0 : P s) : P (stopPhy c s) := by
  unfold stopPhy
  repeat' (first | (with_reducible assumption) | (intro _) | (with_reducible apply fbump_keeps) | (with_reducible apply fsetBit_keeps) | (with_reducible apply stopUntil_keeps) | (with_reducible apply phyPay_keeps) | (with_reducible apply phyNext_keeps) | (fail_if_no_progress with_reducible apply Closed.other hP) | (dsimp only [-Nat.reducePow, Option.getD_some, Option.getD_none]) | (with_reducible apply ite_keeps) | split | (refine of_fst (by with_reducible assumption) ?_) | (refine of_snd (by with_reducible assumption) ?_) | (refine of_snd2 (by with_reducible assumption) ?_) | (refine of_mid (by with_reducible assumption) ?_) | (refine of_getD (s := s) (by with_reducible assumption) ?_))

theorem beginBatch_keeps {P : State → Prop} (hP : Closed P) (c : Fin 16) (s : State) (hs0 : P s) : P (beginBatch c s) := by
  unfold beginBatch
  repeat' (first | (with_reducible assumption) | (intro _) | (with_reducible apply updChan_keeps) | (with_reducible apply optMap_keeps) | (with_reducible apply optGet_keeps) | (fail_if_no_progress with_reducible apply Closed.other hP) | (dsimp only [-Nat.reducePow, Option.getD_some, Option.getD_none]) | (with_reducible apply ite_keeps) | split | (refine of_fst (by with_reducible assumption) ?_) | (refine of_snd (by with_reducible assumption) ?_) | (refine of_snd2 (by with_reducible assumption) ?_) | (refine of_mid (by with_reducible assumption) ?_) | (refine of_getD (s := s) (by with_reducible assumption) ?_))

theorem setPh_keeps {P : State → Prop} (hP : Closed P) (c : Fin 16) (p : DPhase) (s : State) (hs0 : P s) : P (setPh c p s) := by
  unfold setPh
  repeat' (first | (with_reducible assumption) | (intro _) | (with_reducible apply beginBatch_keeps) | (fail_if_no_progress with_reducible apply Closed.other hP) | (dsimp only [-Nat.reducePow, Option.getD_some, Option.getD_none]) | (with_reducible apply ite_keeps) | split | (refine of_fst (by with_reducible assumption) ?_) | (refine of_snd (by with_reducible assumption) ?_) | (refine of_snd2 (by with_reducible assumption) ?_) | (refine of_mid (by with_reducible assumption) ?_) | (refine of_getD (s := s) (by with_reducible assumption) ?_))

theorem batchDone_keeps {P : State → Prop} (hP : Closed P) (c : Fin 16) (s : State) (hs0 : P s) : P (batchDone c s) := by
  unfold batchDone
  repeat' (first | (with_reducible assumption) | (intro _) | (with_reducible apply beginBatch_keeps) | (fail_if_no_progress with_reducible apply Closed.other hP) | (dsimp only [-Nat.reducePow, Option.getD_some, Option.getD_none]) | (with_reducible apply ite_keeps) | split | (refine of_fst (by with_reducible assumption) ?_) | (refine of_snd (by with_reducible assumption) ?_) | (refine of_snd2 (by with_reducible assumption) ?_) | (refine of_mid (by with_reducible assumption) ?_) | (refine of_getD (s := s) (by with_reducible assumption) ?_))

theorem dropBist_keeps {P : State → Prop} (hP : Closed P) (granted : Bool) (c : Fin 16) (s : State) (hs0 : P s) : P (dropBist granted c s) := by
  unfold dropBist
  repeat' (first | (with_reducible assumption) | (intro _) | (with_reducible apply updChan_keeps) | (fail_if_no_progress with_reducible apply Closed.other hP) | (dsimp only [-Nat.reducePow, Option.getD_some, Option.getD_none]) | (with_reducible apply ite_keeps) | split | (refine of_fst (by with_reducible assumption) ?_) | (refine of_snd (by with_reducible assumption) ?_) | (refine of_snd2 (by with_reducible assumption) ?_) | (refine of_mid (by with_reducible assumption) ?_) | (refine of_getD (s := s) (by with_reducible assumption) ?_))

theorem dropSlice_keeps {P : State → Prop} (hP : Closed P) (c : Fin 16) (s : State) (hs0 : P s) : P (dropSlice c s) := by
  unfold dropSlice
  repeat' (first | (with_reducible assumption) | (intro _) | (with_reducible apply forAll_keeps) | (with_reducible apply fsetBit_keeps) | (with_reducible apply setFrame_keeps) | (with_reducible apply wayStat_keeps) | (with_reducible apply dropBist_keeps) | (fail_if_no_progress with_reducible apply Closed.other hP) | (dsimp only [-Nat.reducePow, Option.getD_some, Option.getD_none]) | (with_reducible apply ite_keeps) | split | (refine of_fst (by with_reducible assumption) ?_) | (refine of_snd (by with_reducible assumption) ?_) | (refine of_snd2 (by with_reducible assumption) ?_) | (refine of_mid (by with_reducible assumption) ?_) | (refine of_getD (s := s) (by with_reducible assumption) ?_))

theorem stopSlice_keeps {P : State → Prop} (hP : Closed P) (c : Fin 16) (s : State) (hs0 : P s) : P (stopSlice c s) := by
  unfold stopSlice
  repeat' (first | (with_reducible assumption) | (intro _) | (with_reducible apply fbump_keeps) | (with_reducible apply setPh_keeps) | (with_reducible apply dropBist_keeps) | (with_reducible apply dropSlice_keeps) | (fail_if_no_progress with_reducible apply Closed.other hP) | (dsimp only [-Nat.reducePow, Option.getD_some, Option.getD_none]) | (with_reducible apply ite_keeps) | split | (refine of_fst (by with_reducible assumption) ?_) | (refine of_snd (by with_reducible assumption) ?_) | (refine of_snd2 (by with_reducible assumption) ?_) | (refine of_mid (by with_reducible assumption) ?_) | (refine of_getD (s := s) (by with_reducible assumption) ?_))

theorem loseSlice_keeps {P : State → Prop} (hP : Closed P) (c : Fin 16) (s : State) (hs0 : P s) : P (loseSlice c s) := by
  unfold loseSlice
  repeat' (first | (with_reducible assumption) | (intro _) | (with_reducible apply fbump_keeps) | (with_reducible apply onlyIf_keeps) | (with_reducible apply dropSlice_keeps) | (fail_if_no_progress with_reducible apply Closed.other hP) | (dsimp only [-Nat.reducePow, Option.getD_some, Option.getD_none]) | (with_reducible apply ite_keeps) | split | (refine of_fst (by with_reducible assumption) ?_) | (refine of_snd (by with_reducible assumption) ?_) | (refine of_snd2 (by with_reducible assumption) ?_) | (refine of_mid (by with_reducible assumption) ?_) | (refine of_getD (s := s) (by with_reducible assumption) ?_))

theorem finishWrite_keeps {P : State → Prop} (hP : Closed P) (hS : ClosedStrm P) (ring : Fin 16) (slot : Nat) (s : State) (hs0 : P s) : P (finishWrite ring slot s) := by
  unfold finishWrite
  repeat' (first | (with_reducible assumption) | (intro _) | (with_reducible apply retire_keeps) | (with_reducible apply outcome_keeps) | (fail_if_no_progress with_reducible apply Closed.other hP) | (dsimp only [-Nat.reducePow, Option.getD_some, Option.getD_none]) | (with_reducible apply ite_keeps) | split | (refine of_fst (by with_reducible assumption) ?_) | (refine of_snd (by with_reducible assumption) ?_) | (refine of_snd2 (by with_reducible assumption) ?_) | (refine of_mid (by with_reducible assumption) ?_) | (refine of_getD (s := s) (by with_reducible assumption) ?_))

theorem homeDurable_keeps {P : State → Prop} (hP : Closed P) (hS : ClosedStrm P) (ring : Fin 16) (slot : Nat) (s : State) (hs0 : P s) : P (homeDurable ring slot s) := by
  unfold homeDurable
  repeat' (first | (with_reducible assumption) | (intro _) | (with_reducible apply updEntry_keeps) | (with_reducible apply finishWrite_keeps) | (fail_if_no_progress with_reducible apply Closed.other hP) | (dsimp only [-Nat.reducePow, Option.getD_some, Option.getD_none]) | (with_reducible apply ite_keeps) | split | (refine of_fst (by with_reducible assumption) ?_) | (refine of_snd (by with_reducible assumption) ?_) | (refine of_snd2 (by with_reducible assumption) ?_) | (refine of_mid (by with_reducible assumption) ?_) | (refine of_getD (s := s) (by with_reducible assumption) ?_))

theorem twinDurable_keeps {P : State → Prop} (hP : Closed P) (hS : ClosedStrm P) (ring : Fin 16) (slot : Nat) (s : State) (hs0 : P s) : P (twinDurable ring slot s) := by
  unfold twinDurable
  repeat' (first | (with_reducible assumption) | (intro _) | (with_reducible apply updEntry_keeps) | (with_reducible apply finishWrite_keeps) | (fail_if_no_progress with_reducible apply Closed.other hP) | (dsimp only [-Nat.reducePow, Option.getD_some, Option.getD_none]) | (with_reducible apply ite_keeps) | split | (refine of_fst (by with_reducible assumption) ?_) | (refine of_snd (by with_reducible assumption) ?_) | (refine of_snd2 (by with_reducible assumption) ?_) | (refine of_mid (by with_reducible assumption) ?_) | (refine of_getD (s := s) (by with_reducible assumption) ?_))

theorem readValid_keeps {P : State → Prop} (hP : Closed P) (hS : ClosedStrm P) (ring : Fin 16) (slot : Nat) (l : Line) (psn : Bool) (s : State) (hs0 : P s) : P (readValid ring slot l psn s) := by
  unfold readValid
  repeat' (first | (with_reducible assumption) | (intro _) | (with_reducible apply updEntry_keeps) | (with_reducible apply retire_keeps) | (with_reducible apply outcome_keeps) | (with_reducible apply servePoint_keeps) | (fail_if_no_progress with_reducible apply Closed.other hP) | (dsimp only [-Nat.reducePow, Option.getD_some, Option.getD_none]) | (with_reducible apply ite_keeps) | split | (refine of_fst (by with_reducible assumption) ?_) | (refine of_snd (by with_reducible assumption) ?_) | (refine of_snd2 (by with_reducible assumption) ?_) | (refine of_mid (by with_reducible assumption) ?_) | (refine of_getD (s := s) (by with_reducible assumption) ?_))

theorem toRslt_keeps {P : State → Prop} (hP : Closed P) (ring : Fin 16) (slot : Nat) (l : Line) (s : State) (hs0 : P s) : P (toRslt ring slot l s) := by
  unfold toRslt
  repeat' (first | (with_reducible assumption) | (intro _) | (with_reducible apply charge_keeps) | (with_reducible apply updEntry_keeps) | (with_reducible apply setEntrySt_keeps) | (fail_if_no_progress with_reducible apply Closed.other hP) | (dsimp only [-Nat.reducePow, Option.getD_some, Option.getD_none]) | (with_reducible apply ite_keeps) | split | (refine of_fst (by with_reducible assumption) ?_) | (refine of_snd (by with_reducible assumption) ?_) | (refine of_snd2 (by with_reducible assumption) ?_) | (refine of_mid (by with_reducible assumption) ?_) | (refine of_getD (s := s) (by with_reducible assumption) ?_))

theorem mergePoison_keeps {P : State → Prop} (hP : Closed P) (hS : ClosedStrm P) (ring : Fin 16) (slot : Nat) (ch : Fin 16) (s : State) (hs0 : P s) : P (mergePoison ring slot ch s) := by
  unfold mergePoison
  repeat' (first | (with_reducible assumption) | (intro _) | (with_reducible apply retire_keeps) | (with_reducible apply releaseSlots_keeps) | (with_reducible apply faultEntry_keeps) | (with_reducible apply killCmds_keeps) | (fail_if_no_progress with_reducible apply Closed.other hP) | (dsimp only [-Nat.reducePow, Option.getD_some, Option.getD_none]) | (with_reducible apply ite_keeps) | split | (refine of_fst (by with_reducible assumption) ?_) | (refine of_snd (by with_reducible assumption) ?_) | (refine of_snd2 (by with_reducible assumption) ?_) | (refine of_mid (by with_reducible assumption) ?_) | (refine of_getD (s := s) (by with_reducible assumption) ?_))

theorem wbDone_keeps {P : State → Prop} (hP : Closed P) (pinned : Bool) (f : Nat) (i : Nat) (l : Line) (s : State) (hs0 : P s) : P (wbDone pinned f i l s) := by
  unfold wbDone
  repeat' (first | (with_reducible assumption) | (intro _) | (with_reducible apply fbump_keeps) | (with_reducible apply updFrame_keeps) | (with_reducible apply pushWb_keeps) | (with_reducible apply cleanLine_keeps) | (with_reducible apply wbHigh_keeps) | (fail_if_no_progress with_reducible apply Closed.other hP) | (dsimp only [-Nat.reducePow, Option.getD_some, Option.getD_none]) | (with_reducible apply ite_keeps) | split | (refine of_fst (by with_reducible assumption) ?_) | (refine of_snd (by with_reducible assumption) ?_) | (refine of_snd2 (by with_reducible assumption) ?_) | (refine of_mid (by with_reducible assumption) ?_) | (refine of_getD (s := s) (by with_reducible assumption) ?_))

theorem walkBack_keeps {P : State → Prop} (hP : Closed P) (image : Bool) (a : Nat) (b : Nat) (key : Nat) (l : Line) (psn : Bool) (s : State) (hs0 : P s) : P (walkBack image a b key l psn s) := by
  unfold walkBack
  repeat' (first | (with_reducible assumption) | (intro _) | (with_reducible apply fbump_keeps) | (with_reducible apply charge_keeps) | (with_reducible apply optMap_keeps) | (with_reducible apply optGet_keeps) | (fail_if_no_progress with_reducible apply Closed.other hP) | (dsimp only [-Nat.reducePow, Option.getD_some, Option.getD_none]) | (with_reducible apply ite_keeps) | split | (refine of_fst (by with_reducible assumption) ?_) | (refine of_snd (by with_reducible assumption) ?_) | (refine of_snd2 (by with_reducible assumption) ?_) | (refine of_mid (by with_reducible assumption) ?_) | (refine of_getD (s := s) (by with_reducible assumption) ?_))

theorem queBack_keeps {P : State → Prop} (hP : Closed P) (ring : Fin 16) (entry : Nat) (cell : Nat) (l : Line) (psn : Bool) (s : State) (hs0 : P s) : P (queBack ring entry cell l psn s) := by
  unfold queBack
  repeat' (first | (with_reducible assumption) | (intro _) | (with_reducible apply dupCell_keeps) | (with_reducible apply dupAnswer_keeps) | (with_reducible apply optMap_keeps) | (with_reducible apply optGet_keeps) | (fail_if_no_progress with_reducible apply Closed.other hP) | (dsimp only [-Nat.reducePow, Option.getD_some, Option.getD_none]) | (with_reducible apply ite_keeps) | split | (refine of_fst (by with_reducible assumption) ?_) | (refine of_snd (by with_reducible assumption) ?_) | (refine of_snd2 (by with_reducible assumption) ?_) | (refine of_mid (by with_reducible assumption) ?_) | (refine of_getD (s := s) (by with_reducible assumption) ?_))

theorem prefBack_keeps {P : State → Prop} (hP : Closed P) (b : Nat) (cell : Nat) (psn : Bool) (s : State) (hs0 : P s) : P (prefBack b cell psn s) := by
  unfold prefBack
  repeat' (first | (with_reducible assumption) | (intro _) | (with_reducible apply setQfr_keeps) | (fail_if_no_progress with_reducible apply Closed.other hP) | (dsimp only [-Nat.reducePow, Option.getD_some, Option.getD_none]) | (with_reducible apply ite_keeps) | split | (refine of_fst (by with_reducible assumption) ?_) | (refine of_snd (by with_reducible assumption) ?_) | (refine of_snd2 (by with_reducible assumption) ?_) | (refine of_mid (by with_reducible assumption) ?_) | (refine of_getD (s := s) (by with_reducible assumption) ?_))

theorem ueBack_keeps {P : State → Prop} (hP : Closed P) (pinned : Bool) (f : Nat) (i : Nat) (l : Line) (psn : Bool) (s : State) (hs0 : P s) : P (ueBack pinned f i l psn s) := by
  unfold ueBack
  repeat' (first | (with_reducible assumption) | (intro _) | (fail_if_no_progress with_reducible apply Closed.other hP) | (dsimp only [-Nat.reducePow, Option.getD_some, Option.getD_none]) | (with_reducible apply ite_keeps) | split | (refine of_fst (by with_reducible assumption) ?_) | (refine of_snd (by with_reducible assumption) ?_) | (refine of_snd2 (by with_reducible assumption) ?_) | (refine of_mid (by with_reducible assumption) ?_) | (refine of_getD (s := s) (by with_reducible assumption) ?_))

theorem readDone_keeps {P : State → Prop} (hP : Closed P) (hS : ClosedStrm P) (hW : ClosedWay P) (c : Fin 16) (x : Cmd) (l : Line) (psn : Bool) (s : State) (hs0 : P s) : P (readDone c x l psn s) := by
  unfold readDone
  repeat' (first | (with_reducible assumption) | (intro _) | (with_reducible apply updChan_keeps) | (with_reducible apply onlyIf_keeps) | (with_reducible apply updFrame_keeps) | (with_reducible apply fillLine_keeps) | (with_reducible apply pushFill_keeps) | (with_reducible apply stackLost_keeps) | (with_reducible apply stackLevel_keeps) | (with_reducible apply stackDone_keeps) | (with_reducible apply deferPj_keeps) | (with_reducible apply batchDone_keeps) | (with_reducible apply readValid_keeps) | (with_reducible apply toRslt_keeps) | (with_reducible apply mergePoison_keeps) | (with_reducible apply walkBack_keeps) | (with_reducible apply queBack_keeps) | (with_reducible apply prefBack_keeps) | (with_reducible apply ueBack_keeps) | (fail_if_no_progress with_reducible apply Closed.other hP) | (dsimp only [-Nat.reducePow, Option.getD_some, Option.getD_none]) | (with_reducible apply ite_keeps) | split | (refine of_fst (by with_reducible assumption) ?_) | (refine of_snd (by with_reducible assumption) ?_) | (refine of_snd2 (by with_reducible assumption) ?_) | (refine of_mid (by with_reducible assumption) ?_) | (refine of_getD (s := s) (by with_reducible assumption) ?_))

theorem writeDone_keeps {P : State → Prop} (hP : Closed P) (hS : ClosedStrm P) (c : Fin 16) (x : Cmd) (s : State) (hs0 : P s) : P (writeDone c x s) := by
  unfold writeDone
  repeat' (first | (with_reducible assumption) | (intro _) | (with_reducible apply qWbDone_keeps) | (with_reducible apply evict_keeps) | (with_reducible apply initDone_keeps) | (with_reducible apply batchDone_keeps) | (with_reducible apply homeDurable_keeps) | (with_reducible apply twinDurable_keeps) | (with_reducible apply wbDone_keeps) | (fail_if_no_progress with_reducible apply Closed.other hP) | (dsimp only [-Nat.reducePow, Option.getD_some, Option.getD_none]) | (with_reducible apply ite_keeps) | split | (refine of_fst (by with_reducible assumption) ?_) | (refine of_snd (by with_reducible assumption) ?_) | (refine of_snd2 (by with_reducible assumption) ?_) | (refine of_mid (by with_reducible assumption) ?_) | (refine of_getD (s := s) (by with_reducible assumption) ?_))

theorem loseRing_keeps {P : State → Prop} (hP : Closed P) (hS : ClosedStrm P) (both : Bool) (c : Fin 16) (ring : Fin 16) (s : State) (hs0 : P s) : P (loseRing both c ring s).1 := by
  unfold loseRing
  repeat' (first | (with_reducible assumption) | (intro _) | (with_reducible apply forAll_keeps) | (with_reducible apply retire_keeps) | (with_reducible apply loseEntry_keeps) | (with_reducible apply evict_keeps) | (with_reducible apply dropPlan_keeps) | (fail_if_no_progress with_reducible apply Closed.other hP) | (dsimp only [-Nat.reducePow, Option.getD_some, Option.getD_none]) | (with_reducible apply ite_keeps) | split | (refine of_fst (by with_reducible assumption) ?_) | (refine of_snd (by with_reducible assumption) ?_) | (refine of_snd2 (by with_reducible assumption) ?_) | (refine of_mid (by with_reducible assumption) ?_) | (refine of_getD (s := s) (by with_reducible assumption) ?_))

theorem poisonFrames_keeps {P : State → Prop} (hP : Closed P) (bad : Place → Bool) (s : State) (hs0 : P s) : P (poisonFrames bad s) := by
  unfold poisonFrames
  repeat' (first | (with_reducible assumption) | (intro _) | (with_reducible apply forAll_keeps) | (with_reducible apply updFrame_keeps) | (with_reducible apply wayStat_keeps) | (with_reducible apply foldl_keeps) | (with_reducible apply foldl_keeps_fst) | (with_reducible apply foldl_keeps_snd) | (with_reducible apply foldl_keeps_snd2) | (fail_if_no_progress with_reducible apply Closed.other hP) | (dsimp only [-Nat.reducePow, Option.getD_some, Option.getD_none]) | (with_reducible apply ite_keeps) | split | (refine of_fst (by with_reducible assumption) ?_) | (refine of_snd (by with_reducible assumption) ?_) | (refine of_snd2 (by with_reducible assumption) ?_) | (refine of_mid (by with_reducible assumption) ?_) | (refine of_getD (s := s) (by with_reducible assumption) ?_))

theorem redirect_keeps {P : State → Prop} (hP : Closed P) (hS : ClosedStrm P) (hW : ClosedWay P) (c : Fin 16) (twin : Bool) (x : Cmd) (s : State) (hs0 : P s) : P (redirect c twin x s) := by
  unfold redirect
  repeat' (first | (with_reducible assumption) | (intro _) | (with_reducible apply updChan_keeps) | (with_reducible apply updEntry_keeps) | (with_reducible apply updFrame_keeps) | (with_reducible apply cleanLine_keeps) | (with_reducible apply pushFill_keeps) | (with_reducible apply stackLost_keeps) | (with_reducible apply qWbDone_keeps) | (with_reducible apply initDone_keeps) | (with_reducible apply pushCmd_keeps) | (with_reducible apply homeDurable_keeps) | (with_reducible apply twinDurable_keeps) | (with_reducible apply readValid_keeps) | (with_reducible apply wbDone_keeps) | (with_reducible apply walkBack_keeps) | (with_reducible apply queBack_keeps) | (with_reducible apply ueBack_keeps) | (with_reducible apply optMap_keeps) | (with_reducible apply optGet_keeps) | (fail_if_no_progress with_reducible apply Closed.other hP) | (dsimp only [-Nat.reducePow, Option.getD_some, Option.getD_none]) | (with_reducible apply ite_keeps) | split | (refine of_fst (by with_reducible assumption) ?_) | (refine of_snd (by with_reducible assumption) ?_) | (refine of_snd2 (by with_reducible assumption) ?_) | (refine of_mid (by with_reducible assumption) ?_) | (refine of_getD (s := s) (by with_reducible assumption) ?_))

theorem moveContest_keeps {P : State → Prop} (hP : Closed P) (hS : ClosedStrm P) (c : Fin 16) (s : State) (hs0 : P s) : P (moveContest c s) := by
  unfold moveContest
  repeat' (first | (with_reducible assumption) | (intro _) | (with_reducible apply updArb_keeps) | (with_reducible apply forAll_keeps) | (with_reducible apply leaveContest_keeps) | (with_reducible apply refuseNew_keeps) | (fail_if_no_progress with_reducible apply Closed.other hP) | (dsimp only [-Nat.reducePow, Option.getD_some, Option.getD_none]) | (with_reducible apply ite_keeps) | split | (refine of_fst (by with_reducible assumption) ?_) | (refine of_snd (by with_reducible assumption) ?_) | (refine of_snd2 (by with_reducible assumption) ?_) | (refine of_mid (by with_reducible assumption) ?_) | (refine of_getD (s := s) (by with_reducible assumption) ?_))

theorem clearWork_keeps {P : State → Prop} (hP : Closed P) (c : Fin 16) (s : State) (hs0 : P s) : P (clearWork c s) := by
  unfold clearWork
  repeat' (first | (with_reducible assumption) | (intro _) | (with_reducible apply fset_keeps) | (with_reducible apply fbumpN_keeps) | (with_reducible apply updChan_keeps) | (with_reducible apply updPhy_keeps) | (with_reducible apply forAll_keeps) | (with_reducible apply fillStat_keeps) | (with_reducible apply endInord_keeps) | (fail_if_no_progress with_reducible apply Closed.other hP) | (dsimp only [-Nat.reducePow, Option.getD_some, Option.getD_none]) | (with_reducible apply ite_keeps) | split | (refine of_fst (by with_reducible assumption) ?_) | (refine of_snd (by with_reducible assumption) ?_) | (refine of_snd2 (by with_reducible assumption) ?_) | (refine of_mid (by with_reducible assumption) ?_) | (refine of_getD (s := s) (by with_reducible assumption) ?_))

theorem clearChan_keeps {P : State → Prop} (hP : Closed P) (c : Fin 16) (s : State) (hs0 : P s) : P (clearChan c s) := by
  unfold clearChan
  repeat' (first | (with_reducible assumption) | (intro _) | (with_reducible apply updPhy_keeps) | (with_reducible apply cutPause_keeps) | (with_reducible apply stopPhy_keeps) | (with_reducible apply clearWork_keeps) | (fail_if_no_progress with_reducible apply Closed.other hP) | (dsimp only [-Nat.reducePow, Option.getD_some, Option.getD_none]) | (with_reducible apply ite_keeps) | split | (refine of_fst (by with_reducible assumption) ?_) | (refine of_snd (by with_reducible assumption) ?_) | (refine of_snd2 (by with_reducible assumption) ?_) | (refine of_mid (by with_reducible assumption) ?_) | (refine of_getD (s := s) (by with_reducible assumption) ?_))

theorem walkLost_keeps {P : State → Prop} (hP : Closed P) (s : State) (hs0 : P s) : P (walkLost s) := by
  unfold walkLost
  repeat' (first | (with_reducible assumption) | (intro _) | (with_reducible apply optMap_keeps) | (with_reducible apply optGet_keeps) | (fail_if_no_progress with_reducible apply Closed.other hP) | (dsimp only [-Nat.reducePow, Option.getD_some, Option.getD_none]) | (with_reducible apply ite_keeps) | split | (refine of_fst (by with_reducible assumption) ?_) | (refine of_snd (by with_reducible assumption) ?_) | (refine of_snd2 (by with_reducible assumption) ?_) | (refine of_mid (by with_reducible assumption) ?_) | (refine of_getD (s := s) (by with_reducible assumption) ?_))

theorem channelLost_keeps {P : State → Prop} (hP : Closed P) (hS : ClosedStrm P) (hW : ClosedWay P) (c : Fin 16) (cause : String) (st : Nat) (s : State) (hs0 : P s) : P (channelLost c cause st s) := by
  unfold channelLost
  repeat' (first | (with_reducible assumption) | (intro _) | (with_reducible apply irq_keeps) | (with_reducible apply emit_keeps) | (with_reducible apply updChan_keeps) | (with_reducible apply forAll_keeps) | (with_reducible apply onlyIf_keeps) | (with_reducible apply leaveCycle_keeps) | (with_reducible apply horizonCheck_keeps) | (with_reducible apply setChState_keeps) | (with_reducible apply loseSlice_keeps) | (with_reducible apply loseRing_keeps) | (with_reducible apply poisonFrames_keeps) | (with_reducible apply redirect_keeps) | (with_reducible apply moveContest_keeps) | (with_reducible apply clearChan_keeps) | (with_reducible apply walkLost_keeps) | (with_reducible apply optMap_keeps) | (with_reducible apply optGet_keeps) | (fail_if_no_progress with_reducible apply Closed.other hP) | (dsimp only [-Nat.reducePow, Option.getD_some, Option.getD_none]) | (with_reducible apply ite_keeps) | split | (refine of_fst (by with_reducible assumption) ?_) | (refine of_snd (by with_reducible assumption) ?_) | (refine of_snd2 (by with_reducible assumption) ?_) | (refine of_mid (by with_reducible assumption) ?_) | (refine of_getD (s := s) (by with_reducible assumption) ?_))

end Sys2Proof.Laws
end

