-- ==== Sys2Proof/Laws/KInteg.lean ====
section
/-! SUPPORT. The operations of Machine/Integ.lean keep every property closed under the writers that they reach. -/

namespace Sys2Proof.Laws
open Sys2Proof.Machine

set_option linter.unreachableTactic false
set_option linter.unusedTactic false
set_option linter.unusedVariables false

theorem nextSpare_keeps {P : State → Prop} (hP : Closed P) (c : Fin 16) (s : State) (hs0 : P s) : P (nextSpare c s) := by
  unfold nextSpare
  repeat' (first | (with_reducible assumption) | (intro _) | (with_reducible apply fset_keeps) | (fail_if_no_progress with_reducible apply Closed.other hP) | (dsimp only [-Nat.reducePow, Option.getD_some, Option.getD_none]) | (with_reducible apply ite_keeps) | split | (refine of_fst (by with_reducible assumption) ?_) | (refine of_snd (by with_reducible assumption) ?_) | (refine of_snd2 (by with_reducible assumption) ?_) | (refine of_mid (by with_reducible assumption) ?_) | (refine of_getD (s := s) (by with_reducible assumption) ?_))

theorem markRefuse_keeps {P : State → Prop} (hP : Closed P) (c : Fin 16) (r : Nat) (d : Nat) (s : State) (hs0 : P s) : P (markRefuse c r d s) := by
  unfold markRefuse
  repeat' (first | (with_reducible assumption) | (intro _) | (with_reducible apply fset_keeps) | (with_reducible apply emit_keeps) | (fail_if_no_progress with_reducible apply Closed.other hP) | (dsimp only [-Nat.reducePow, Option.getD_some, Option.getD_none]) | (with_reducible apply ite_keeps) | split | (refine of_fst (by with_reducible assumption) ?_) | (refine of_snd (by with_reducible assumption) ?_) | (refine of_snd2 (by with_reducible assumption) ?_) | (refine of_mid (by with_reducible assumption) ?_) | (refine of_getD (s := s) (by with_reducible assumption) ?_))

theorem markDev_keeps {P : State → Prop} (hP : Closed P) (c : Fin 16) (r : Nat) (d : Nat) (cause : String) (s : State) (hs0 : P s) : P (markDev c r d cause s) := by
  unfold markDev
  repeat' (first | (with_reducible assumption) | (intro _) | (with_reducible apply fset_keeps) | (with_reducible apply emit_keeps) | (with_reducible apply updChan_keeps) | (with_reducible apply logFree_keeps) | (with_reducible apply stopSlice_keeps) | (with_reducible apply nextSpare_keeps) | (with_reducible apply markRefuse_keeps) | (fail_if_no_progress with_reducible apply Closed.other hP) | (dsimp only [-Nat.reducePow, Option.getD_some, Option.getD_none]) | (with_reducible apply ite_keeps) | split | (refine of_fst (by with_reducible assumption) ?_) | (refine of_snd (by with_reducible assumption) ?_) | (refine of_snd2 (by with_reducible assumption) ?_) | (refine of_mid (by with_reducible assumption) ?_) | (refine of_getD (s := s) (by with_reducible assumption) ?_))

theorem setDevWord_keeps {P : State → Prop} (hP : Closed P) (hI : ClosedIx P) (c : Fin 16) (r : Nat) (d : Nat) (v : Nat) (s : State) (hs0 : P s) : P (setDevWord c r d v s) := by
  unfold setDevWord
  repeat' (first | (with_reducible assumption) | (intro _) | (with_reducible apply ixSet_keeps) | (fail_if_no_progress with_reducible apply Closed.other hP) | (dsimp only [-Nat.reducePow, Option.getD_some, Option.getD_none]) | (with_reducible apply ite_keeps) | split | (refine of_fst (by with_reducible assumption) ?_) | (refine of_snd (by with_reducible assumption) ?_) | (refine of_snd2 (by with_reducible assumption) ?_) | (refine of_mid (by with_reducible assumption) ?_) | (refine of_getD (s := s) (by with_reducible assumption) ?_))

theorem countDev_keeps {P : State → Prop} (hP : Closed P) (hI : ClosedIx P) (c : Fin 16) (r : Nat) (lam : Nat) (scrub : Bool) (l : List Nat) (d : Nat) (s : State) (hs0 : P s) : P (countDev c r lam scrub l d s) := by
  unfold countDev
  repeat' (first | (with_reducible assumption) | (intro _) | (with_reducible apply updChan_keeps) | (with_reducible apply logFault_keeps) | (with_reducible apply markDev_keeps) | (with_reducible apply setDevWord_keeps) | (fail_if_no_progress with_reducible apply Closed.other hP) | (dsimp only [-Nat.reducePow, Option.getD_some, Option.getD_none]) | (with_reducible apply ite_keeps) | split | (refine of_fst (by with_reducible assumption) ?_) | (refine of_snd (by with_reducible assumption) ?_) | (refine of_snd2 (by with_reducible assumption) ?_) | (refine of_mid (by with_reducible assumption) ?_) | (refine of_getD (s := s) (by with_reducible assumption) ?_))

theorem countDec_keeps {P : State → Prop} (hP : Closed P) (hI : ClosedIx P) (c : Fin 16) (x : Cmd) (d : Dec) (s : State) (hs0 : P s) : P (countDec c x d s) := by
  unfold countDec
  repeat' (first | (with_reducible assumption) | (intro _) | (with_reducible apply fset_keeps) | (with_reducible apply fbumpN_keeps) | (with_reducible apply fbump_keeps) | (with_reducible apply forAll_keeps) | (with_reducible apply onlyIf_keeps) | (with_reducible apply chargeFor_keeps) | (with_reducible apply countDev_keeps) | (with_reducible apply optMap_keeps) | (with_reducible apply optGet_keeps) | (fail_if_no_progress with_reducible apply Closed.other hP) | (dsimp only [-Nat.reducePow, Option.getD_some, Option.getD_none]) | (with_reducible apply ite_keeps) | split | (refine of_fst (by with_reducible assumption) ?_) | (refine of_snd (by with_reducible assumption) ?_) | (refine of_snd2 (by with_reducible assumption) ?_) | (refine of_mid (by with_reducible assumption) ?_) | (refine of_getD (s := s) (by with_reducible assumption) ?_))

theorem notePoison_keeps {P : State → Prop} (hP : Closed P) (c : Fin 16) (lam : Nat) (scrub : Bool) (s : State) (hs0 : P s) : P (notePoison c lam scrub s) := by
  unfold notePoison
  repeat' (first | (with_reducible assumption) | (intro _) | (with_reducible apply fbump_keeps) | (with_reducible apply logFault_keeps) | (fail_if_no_progress with_reducible apply Closed.other hP) | (dsimp only [-Nat.reducePow, Option.getD_some, Option.getD_none]) | (with_reducible apply ite_keeps) | split | (refine of_fst (by with_reducible assumption) ?_) | (refine of_snd (by with_reducible assumption) ?_) | (refine of_snd2 (by with_reducible assumption) ?_) | (refine of_mid (by with_reducible assumption) ?_) | (refine of_getD (s := s) (by with_reducible assumption) ?_))

theorem closeMs_keeps {P : State → Prop} (hP : Closed P) (c : Fin 16) (s : State) (hs0 : P s) : P (closeMs c s) := by
  unfold closeMs
  repeat' (first | (with_reducible assumption) | (intro _) | (with_reducible apply emit_keeps) | (with_reducible apply updChan_keeps) | (fail_if_no_progress with_reducible apply Closed.other hP) | (dsimp only [-Nat.reducePow, Option.getD_some, Option.getD_none]) | (with_reducible apply ite_keeps) | split | (refine of_fst (by with_reducible assumption) ?_) | (refine of_snd (by with_reducible assumption) ?_) | (refine of_snd2 (by with_reducible assumption) ?_) | (refine of_mid (by with_reducible assumption) ?_) | (refine of_getD (s := s) (by with_reducible assumption) ?_))

theorem countMs_keeps {P : State → Prop} (hP : Closed P) (c : Fin 16) (s : State) (hs0 : P s) : P (countMs c s) := by
  unfold countMs
  repeat' (first | (with_reducible assumption) | (intro _) | (with_reducible apply updChan_keeps) | (with_reducible apply onlyIf_keeps) | (with_reducible apply closeMs_keeps) | (fail_if_no_progress with_reducible apply Closed.other hP) | (dsimp only [-Nat.reducePow, Option.getD_some, Option.getD_none]) | (with_reducible apply ite_keeps) | split | (refine of_fst (by with_reducible assumption) ?_) | (refine of_snd (by with_reducible assumption) ?_) | (refine of_snd2 (by with_reducible assumption) ?_) | (refine of_mid (by with_reducible assumption) ?_) | (refine of_getD (s := s) (by with_reducible assumption) ?_))

theorem ueSeen_keeps {P : State → Prop} (hP : Closed P) (hS : ClosedStrm P) (hW : ClosedWay P) (c : Fin 16) (s : State) (hs0 : P s) : P (ueSeen c s) := by
  unfold ueSeen
  repeat' (first | (with_reducible assumption) | (intro _) | (with_reducible apply fset_keeps) | (with_reducible apply irq_keeps) | (with_reducible apply channelLost_keeps) | (with_reducible apply countMs_keeps) | (fail_if_no_progress with_reducible apply Closed.other hP) | (dsimp only [-Nat.reducePow, Option.getD_some, Option.getD_none]) | (with_reducible apply ite_keeps) | split | (refine of_fst (by with_reducible assumption) ?_) | (refine of_snd (by with_reducible assumption) ?_) | (refine of_snd2 (by with_reducible assumption) ?_) | (refine of_mid (by with_reducible assumption) ?_) | (refine of_getD (s := s) (by with_reducible assumption) ?_))

theorem ueLine_keeps {P : State → Prop} (hP : Closed P) (c : Fin 16) (lam : Nat) (scrub : Bool) (s : State) (hs0 : P s) : P (ueLine c lam scrub s) := by
  unfold ueLine
  repeat' (first | (with_reducible assumption) | (intro _) | (with_reducible apply fbump_keeps) | (with_reducible apply logFault_keeps) | (fail_if_no_progress with_reducible apply Closed.other hP) | (dsimp only [-Nat.reducePow, Option.getD_some, Option.getD_none]) | (with_reducible apply ite_keeps) | split | (refine of_fst (by with_reducible assumption) ?_) | (refine of_snd (by with_reducible assumption) ?_) | (refine of_snd2 (by with_reducible assumption) ?_) | (refine of_mid (by with_reducible assumption) ?_) | (refine of_getD (s := s) (by with_reducible assumption) ?_))

theorem rereadGood_keeps {P : State → Prop} (hP : Closed P) (c : Fin 16) (lam : Nat) (scrub : Bool) (s : State) (hs0 : P s) : P (rereadGood c lam scrub s) := by
  unfold rereadGood
  repeat' (first | (with_reducible assumption) | (intro _) | (with_reducible apply fbump_keeps) | (with_reducible apply logFault_keeps) | (fail_if_no_progress with_reducible apply Closed.other hP) | (dsimp only [-Nat.reducePow, Option.getD_some, Option.getD_none]) | (with_reducible apply ite_keeps) | split | (refine of_fst (by with_reducible assumption) ?_) | (refine of_snd (by with_reducible assumption) ?_) | (refine of_snd2 (by with_reducible assumption) ?_) | (refine of_mid (by with_reducible assumption) ?_) | (refine of_getD (s := s) (by with_reducible assumption) ?_))

theorem spendAllow_keeps {P : State → Prop} (hP : Closed P) (k : Fin 5) (s : State) (hs0 : P s) : P (spendAllow k s) := by
  unfold spendAllow
  repeat' (first | (with_reducible assumption) | (intro _) | (with_reducible apply optMap_keeps) | (with_reducible apply optGet_keeps) | (fail_if_no_progress with_reducible apply Closed.other hP) | (dsimp only [-Nat.reducePow, Option.getD_some, Option.getD_none]) | (with_reducible apply ite_keeps) | split | (refine of_fst (by with_reducible assumption) ?_) | (refine of_snd (by with_reducible assumption) ?_) | (refine of_snd2 (by with_reducible assumption) ?_) | (refine of_mid (by with_reducible assumption) ?_) | (refine of_getD (s := s) (by with_reducible assumption) ?_))

theorem coverPatrol_keeps {P : State → Prop} (hP : Closed P) (c : Fin 16) (lam : Nat) (s : State) (hs0 : P s) : P (coverPatrol c lam s) := by
  unfold coverPatrol
  repeat' (first | (with_reducible assumption) | (intro _) | (fail_if_no_progress with_reducible apply Closed.other hP) | (dsimp only [-Nat.reducePow, Option.getD_some, Option.getD_none]) | (with_reducible apply ite_keeps) | split | (refine of_fst (by with_reducible assumption) ?_) | (refine of_snd (by with_reducible assumption) ?_) | (refine of_snd2 (by with_reducible assumption) ?_) | (refine of_mid (by with_reducible assumption) ?_) | (refine of_getD (s := s) (by with_reducible assumption) ?_))

theorem scrubNext_keeps {P : State → Prop} (hP : Closed P) (c : Fin 16) (s : State) (hs0 : P s) : P (scrubNext c s) := by
  unfold scrubNext
  repeat' (first | (with_reducible assumption) | (intro _) | (with_reducible apply rgSet_keeps) | (with_reducible apply fset_keeps) | (with_reducible apply fbump_keeps) | (with_reducible apply updChan_keeps) | (fail_if_no_progress with_reducible apply Closed.other hP) | (dsimp only [-Nat.reducePow, Option.getD_some, Option.getD_none]) | (with_reducible apply ite_keeps) | split | (refine of_fst (by with_reducible assumption) ?_) | (refine of_snd (by with_reducible assumption) ?_) | (refine of_snd2 (by with_reducible assumption) ?_) | (refine of_mid (by with_reducible assumption) ?_) | (refine of_getD (s := s) (by with_reducible assumption) ?_))

theorem covStat_keeps {P : State → Prop} (hP : Closed P) (t : BTarget) (s : State) (hs0 : P s) : P (covStat t s) := by
  unfold covStat
  repeat' (first | (with_reducible assumption) | (intro _) | (with_reducible apply fset_keeps) | (with_reducible apply emit_keeps) | (fail_if_no_progress with_reducible apply Closed.other hP) | (dsimp only [-Nat.reducePow, Option.getD_some, Option.getD_none]) | (with_reducible apply ite_keeps) | split | (refine of_fst (by with_reducible assumption) ?_) | (refine of_snd (by with_reducible assumption) ?_) | (refine of_snd2 (by with_reducible assumption) ?_) | (refine of_mid (by with_reducible assumption) ?_) | (refine of_getD (s := s) (by with_reducible assumption) ?_))

theorem cycBegin_keeps {P : State → Prop} (hP : Closed P) (s : State) (hs0 : P s) : P (cycBegin s) := by
  unfold cycBegin
  repeat' (first | (with_reducible assumption) | (intro _) | (with_reducible apply onlyIf_keeps) | (with_reducible apply cycStart_keeps) | (fail_if_no_progress with_reducible apply Closed.other hP) | (dsimp only [-Nat.reducePow, Option.getD_some, Option.getD_none]) | (with_reducible apply ite_keeps) | split | (refine of_fst (by with_reducible assumption) ?_) | (refine of_snd (by with_reducible assumption) ?_) | (refine of_snd2 (by with_reducible assumption) ?_) | (refine of_mid (by with_reducible assumption) ?_) | (refine of_getD (s := s) (by with_reducible assumption) ?_))

theorem cycPatrolBegin_keeps {P : State → Prop} (hP : Closed P) (s : State) (hs0 : P s) : P (cycPatrolBegin s) := by
  unfold cycPatrolBegin
  repeat' (first | (with_reducible assumption) | (intro _) | (with_reducible apply onlyIf_keeps) | (with_reducible apply cycStart_keeps) | (fail_if_no_progress with_reducible apply Closed.other hP) | (dsimp only [-Nat.reducePow, Option.getD_some, Option.getD_none]) | (with_reducible apply ite_keeps) | split | (refine of_fst (by with_reducible assumption) ?_) | (refine of_snd (by with_reducible assumption) ?_) | (refine of_snd2 (by with_reducible assumption) ?_) | (refine of_mid (by with_reducible assumption) ?_) | (refine of_getD (s := s) (by with_reducible assumption) ?_))

theorem covAll_keeps {P : State → Prop} (hP : Closed P) (s : State) (hs0 : P s) : P (covAll s) := by
  unfold covAll
  repeat' (first | (with_reducible assumption) | (intro _) | (with_reducible apply forAll_keeps) | (with_reducible apply covStat_keeps) | (with_reducible apply cycBegin_keeps) | (with_reducible apply cycPatrolBegin_keeps) | (fail_if_no_progress with_reducible apply Closed.other hP) | (dsimp only [-Nat.reducePow, Option.getD_some, Option.getD_none]) | (with_reducible apply ite_keeps) | split | (refine of_fst (by with_reducible assumption) ?_) | (refine of_snd (by with_reducible assumption) ?_) | (refine of_snd2 (by with_reducible assumption) ?_) | (refine of_mid (by with_reducible assumption) ?_) | (refine of_getD (s := s) (by with_reducible assumption) ?_))

theorem uncharged_keeps {P : State → Prop} (hP : Closed P) (f : State → State) (s : State) (hf0 : ∀ s, P s → P (f s)) (hs0 : P s) : P (uncharged f s) := by
  unfold uncharged
  repeat' (first | (with_reducible assumption) | (intro _) | (fail_if_no_progress with_reducible apply Closed.other hP) | apply hf0 | (dsimp only [-Nat.reducePow, Option.getD_some, Option.getD_none]) | (with_reducible apply ite_keeps) | split | (refine of_fst (by with_reducible assumption) ?_) | (refine of_snd (by with_reducible assumption) ?_) | (refine of_snd2 (by with_reducible assumption) ?_) | (refine of_mid (by with_reducible assumption) ?_) | (refine of_getD (s := s) (by with_reducible assumption) ?_))

theorem takeBg_keeps {P : State → Prop} (hP : Closed P) (c : Fin 16) (lines : Nat) (x : Cmd) (s : State) (hs0 : P s) : P (takeBg c lines x s) := by
  unfold takeBg
  repeat' (first | (with_reducible assumption) | (intro _) | (with_reducible apply fbumpN_keeps) | (with_reducible apply fbump_keeps) | (with_reducible apply updChan_keeps) | (with_reducible apply noteResv_keeps) | (fail_if_no_progress with_reducible apply Closed.other hP) | (dsimp only [-Nat.reducePow, Option.getD_some, Option.getD_none]) | (with_reducible apply ite_keeps) | split | (refine of_fst (by with_reducible assumption) ?_) | (refine of_snd (by with_reducible assumption) ?_) | (refine of_snd2 (by with_reducible assumption) ?_) | (refine of_mid (by with_reducible assumption) ?_) | (refine of_getD (s := s) (by with_reducible assumption) ?_))

theorem unlock_keeps {P : State → Prop} (hP : Closed P) (c : Fin 16) (lam : Nat) (s : State) (hs0 : P s) : P (unlock c lam s) := by
  unfold unlock
  repeat' (first | (with_reducible assumption) | (intro _) | (with_reducible apply updChan_keeps) | (fail_if_no_progress with_reducible apply Closed.other hP) | (dsimp only [-Nat.reducePow, Option.getD_some, Option.getD_none]) | (with_reducible apply ite_keeps) | split | (refine of_fst (by with_reducible assumption) ?_) | (refine of_snd (by with_reducible assumption) ?_) | (refine of_snd2 (by with_reducible assumption) ?_) | (refine of_mid (by with_reducible assumption) ?_) | (refine of_getD (s := s) (by with_reducible assumption) ?_))

theorem writeBack_keeps {P : State → Prop} (hP : Closed P) (c : Fin 16) (x : Cmd) (l : Line) (psn : Bool) (s : State) (hs0 : P s) : P (writeBack c x l psn s) := by
  unfold writeBack
  repeat' (first | (with_reducible assumption) | (intro _) | (with_reducible apply updChan_keeps) | (fail_if_no_progress with_reducible apply Closed.other hP) | (dsimp only [-Nat.reducePow, Option.getD_some, Option.getD_none]) | (with_reducible apply ite_keeps) | split | (refine of_fst (by with_reducible assumption) ?_) | (refine of_snd (by with_reducible assumption) ?_) | (refine of_snd2 (by with_reducible assumption) ?_) | (refine of_mid (by with_reducible assumption) ?_) | (refine of_getD (s := s) (by with_reducible assumption) ?_))

theorem scrub_keeps {P : State → Prop} (hP : Closed P) (c : Fin 16) (sym : List SymErr) (again : List SymErr) (s : State) (hs0 : P s) : P (scrub c sym again s) := by
  unfold scrub
  repeat' (first | (with_reducible assumption) | (intro _) | (with_reducible apply updChan_keeps) | (with_reducible apply spendAllow_keeps) | (with_reducible apply scrubNext_keeps) | (with_reducible apply takeBg_keeps) | (fail_if_no_progress with_reducible apply Closed.other hP) | (dsimp only [-Nat.reducePow, Option.getD_some, Option.getD_none]) | (with_reducible apply ite_keeps) | split | (refine of_fst (by with_reducible assumption) ?_) | (refine of_snd (by with_reducible assumption) ?_) | (refine of_snd2 (by with_reducible assumption) ?_) | (refine of_mid (by with_reducible assumption) ?_) | (refine of_getD (s := s) (by with_reducible assumption) ?_))

theorem scrubBack_keeps {P : State → Prop} (hP : Closed P) (c : Fin 16) (x : Cmd) (l : Option (Line × Bool)) (s : State) (hs0 : P s) : P (scrubBack c x l s) := by
  unfold scrubBack
  repeat' (first | (with_reducible assumption) | (intro _) | (with_reducible apply fbump_keeps) | (with_reducible apply coverPatrol_keeps) | (with_reducible apply covStat_keeps) | (with_reducible apply unlock_keeps) | (with_reducible apply writeBack_keeps) | (fail_if_no_progress with_reducible apply Closed.other hP) | (dsimp only [-Nat.reducePow, Option.getD_some, Option.getD_none]) | (with_reducible apply ite_keeps) | split | (refine of_fst (by with_reducible assumption) ?_) | (refine of_snd (by with_reducible assumption) ?_) | (refine of_snd2 (by with_reducible assumption) ?_) | (refine of_mid (by with_reducible assumption) ?_) | (refine of_getD (s := s) (by with_reducible assumption) ?_))

theorem spareStep_keeps {P : State → Prop} (hP : Closed P) (c : Fin 16) (sym : List SymErr) (s : State) (hs0 : P s) : P (spareStep c sym s) := by
  unfold spareStep
  repeat' (first | (with_reducible assumption) | (intro _) | (with_reducible apply updChan_keeps) | (with_reducible apply takeBg_keeps) | (fail_if_no_progress with_reducible apply Closed.other hP) | (dsimp only [-Nat.reducePow, Option.getD_some, Option.getD_none]) | (with_reducible apply ite_keeps) | split | (refine of_fst (by with_reducible assumption) ?_) | (refine of_snd (by with_reducible assumption) ?_) | (refine of_snd2 (by with_reducible assumption) ?_) | (refine of_mid (by with_reducible assumption) ?_) | (refine of_getD (s := s) (by with_reducible assumption) ?_))

theorem spareBack_keeps {P : State → Prop} (hP : Closed P) (c : Fin 16) (x : Cmd) (l : Option (Line × Bool)) (s : State) (hs0 : P s) : P (spareBack c x l s) := by
  unfold spareBack
  repeat' (first | (with_reducible assumption) | (intro _) | (with_reducible apply writeBack_keeps) | (fail_if_no_progress with_reducible apply Closed.other hP) | (dsimp only [-Nat.reducePow, Option.getD_some, Option.getD_none]) | (with_reducible apply ite_keeps) | split | (refine of_fst (by with_reducible assumption) ?_) | (refine of_snd (by with_reducible assumption) ?_) | (refine of_snd2 (by with_reducible assumption) ?_) | (refine of_mid (by with_reducible assumption) ?_) | (refine of_getD (s := s) (by with_reducible assumption) ?_))

theorem spareAdmit_keeps {P : State → Prop} (hP : Closed P) (c : Fin 16) (lam : Nat) (s : State) (hs0 : P s) : P (spareAdmit c lam s) := by
  unfold spareAdmit
  repeat' (first | (with_reducible assumption) | (intro _) | (with_reducible apply fset_keeps) | (with_reducible apply emit_keeps) | (with_reducible apply updChan_keeps) | (with_reducible apply nextSpare_keeps) | (with_reducible apply unlock_keeps) | (fail_if_no_progress with_reducible apply Closed.other hP) | (dsimp only [-Nat.reducePow, Option.getD_some, Option.getD_none]) | (with_reducible apply ite_keeps) | split | (refine of_fst (by with_reducible assumption) ?_) | (refine of_snd (by with_reducible assumption) ?_) | (refine of_snd2 (by with_reducible assumption) ?_) | (refine of_mid (by with_reducible assumption) ?_) | (refine of_getD (s := s) (by with_reducible assumption) ?_))

theorem pushHist_keeps {P : State → Prop} (hP : Closed P) (c : Fin 16) (k : DKind) (r : Nat) (bg : Nat) (bk : Nat) (at8 : Nat) (s : State) (hs0 : P s) : P (pushHist c k r bg bk at8 s) := by
  unfold pushHist
  repeat' (first | (with_reducible assumption) | (intro _) | (with_reducible apply updChan_keeps) | (fail_if_no_progress with_reducible apply Closed.other hP) | (dsimp only [-Nat.reducePow, Option.getD_some, Option.getD_none]) | (with_reducible apply ite_keeps) | split | (refine of_fst (by with_reducible assumption) ?_) | (refine of_snd (by with_reducible assumption) ?_) | (refine of_snd2 (by with_reducible assumption) ?_) | (refine of_mid (by with_reducible assumption) ?_) | (refine of_getD (s := s) (by with_reducible assumption) ?_))

theorem closeRow_keeps {P : State → Prop} (hP : Closed P) (c : Fin 16) (bank : Nat) (s : State) (hs0 : P s) : P (closeRow c bank s) := by
  unfold closeRow
  repeat' (first | (with_reducible assumption) | (intro _) | (with_reducible apply updChan_keeps) | (fail_if_no_progress with_reducible apply Closed.other hP) | (dsimp only [-Nat.reducePow, Option.getD_some, Option.getD_none]) | (with_reducible apply ite_keeps) | split | (refine of_fst (by with_reducible assumption) ?_) | (refine of_snd (by with_reducible assumption) ?_) | (refine of_snd2 (by with_reducible assumption) ?_) | (refine of_mid (by with_reducible assumption) ?_) | (refine of_getD (s := s) (by with_reducible assumption) ?_))

theorem exitPd_keeps {P : State → Prop} (hP : Closed P) (c : Fin 16) (r : Fin 2) (s : State) (hs0 : P s) : P (exitPd c r s) := by
  unfold exitPd
  repeat' (first | (with_reducible assumption) | (intro _) | (with_reducible apply fbumpN_keeps) | (with_reducible apply updChan_keeps) | (with_reducible apply fsetBit_keeps) | (with_reducible apply pushHist_keeps) | (fail_if_no_progress with_reducible apply Closed.other hP) | (dsimp only [-Nat.reducePow, Option.getD_some, Option.getD_none]) | (with_reducible apply ite_keeps) | split | (refine of_fst (by with_reducible assumption) ?_) | (refine of_snd (by with_reducible assumption) ?_) | (refine of_snd2 (by with_reducible assumption) ?_) | (refine of_mid (by with_reducible assumption) ?_) | (refine of_getD (s := s) (by with_reducible assumption) ?_))

theorem entryStop_keeps {P : State → Prop} (hP : Closed P) (c : Fin 16) (s : State) (hs0 : P s) : P (entryStop c s) := by
  unfold entryStop
  repeat' (first | (with_reducible assumption) | (intro _) | (with_reducible apply advanceTo8_keeps) | (with_reducible apply stopIdle_keeps) | (fail_if_no_progress with_reducible apply Closed.other hP) | (dsimp only [-Nat.reducePow, Option.getD_some, Option.getD_none]) | (with_reducible apply ite_keeps) | split | (refine of_fst (by with_reducible assumption) ?_) | (refine of_snd (by with_reducible assumption) ?_) | (refine of_snd2 (by with_reducible assumption) ?_) | (refine of_mid (by with_reducible assumption) ?_) | (refine of_getD (s := s) (by with_reducible assumption) ?_))

theorem closeBanks_keeps {P : State → Prop} (hP : Closed P) (c : Fin 16) (p : Nat → Bool) (s : State) (hs0 : P s) : P (closeBanks c p s) := by
  unfold closeBanks
  repeat' (first | (with_reducible assumption) | (intro _) | (with_reducible apply updChan_keeps) | (with_reducible apply forAll_keeps) | (with_reducible apply advanceTo8_keeps) | (with_reducible apply pushHist_keeps) | (with_reducible apply optMap_keeps) | (with_reducible apply optGet_keeps) | (fail_if_no_progress with_reducible apply Closed.other hP) | (dsimp only [-Nat.reducePow, Option.getD_some, Option.getD_none]) | (with_reducible apply ite_keeps) | split | (refine of_fst (by with_reducible assumption) ?_) | (refine of_snd (by with_reducible assumption) ?_) | (refine of_snd2 (by with_reducible assumption) ?_) | (refine of_mid (by with_reducible assumption) ?_) | (refine of_getD (s := s) (by with_reducible assumption) ?_))

theorem useCa_keeps {P : State → Prop} (hP : Closed P) (c : Fin 16) (s : State) (hs0 : P s) : P (useCa c s) := by
  unfold useCa
  repeat' (first | (with_reducible assumption) | (intro _) | (with_reducible apply updChan_keeps) | (fail_if_no_progress with_reducible apply Closed.other hP) | (dsimp only [-Nat.reducePow, Option.getD_some, Option.getD_none]) | (with_reducible apply ite_keeps) | split | (refine of_fst (by with_reducible assumption) ?_) | (refine of_snd (by with_reducible assumption) ?_) | (refine of_snd2 (by with_reducible assumption) ?_) | (refine of_mid (by with_reducible assumption) ?_) | (refine of_getD (s := s) (by with_reducible assumption) ?_))

theorem mapRaa_keeps {P : State → Prop} (hP : Closed P) (c : Fin 16) (p : Nat → Bool) (f : Nat → Nat) (s : State) (hs0 : P s) : P (mapRaa c p f s) := by
  unfold mapRaa
  repeat' (first | (with_reducible assumption) | (intro _) | (with_reducible apply updChan_keeps) | (with_reducible apply optMap_keeps) | (with_reducible apply optGet_keeps) | (fail_if_no_progress with_reducible apply Closed.other hP) | (dsimp only [-Nat.reducePow, Option.getD_some, Option.getD_none]) | (with_reducible apply ite_keeps) | split | (refine of_fst (by with_reducible assumption) ?_) | (refine of_snd (by with_reducible assumption) ?_) | (refine of_snd2 (by with_reducible assumption) ?_) | (refine of_mid (by with_reducible assumption) ?_) | (refine of_getD (s := s) (by with_reducible assumption) ?_))

theorem refreshRank_keeps {P : State → Prop} (hP : Closed P) (c : Fin 16) (r : Fin 2) (n : Nat) (s : State) (hs0 : P s) : P (refreshRank c r n s) := by
  unfold refreshRank
  repeat' (first | (with_reducible assumption) | (intro _) | (with_reducible apply fbumpN_keeps) | (with_reducible apply forAll_keeps) | (with_reducible apply charge_keeps) | (with_reducible apply advanceTo8_keeps) | (with_reducible apply stopUntil_keeps) | (with_reducible apply pushHist_keeps) | (with_reducible apply exitPd_keeps) | (with_reducible apply entryStop_keeps) | (with_reducible apply closeBanks_keeps) | (with_reducible apply useCa_keeps) | (with_reducible apply mapRaa_keeps) | (fail_if_no_progress with_reducible apply Closed.other hP) | (dsimp only [-Nat.reducePow, Option.getD_some, Option.getD_none]) | (with_reducible apply ite_keeps) | split | (refine of_fst (by with_reducible assumption) ?_) | (refine of_snd (by with_reducible assumption) ?_) | (refine of_snd2 (by with_reducible assumption) ?_) | (refine of_mid (by with_reducible assumption) ?_) | (refine of_getD (s := s) (by with_reducible assumption) ?_))

theorem refreshAll_keeps {P : State → Prop} (hP : Closed P) (c : Fin 16) (s : State) (hs0 : P s) : P (refreshAll c s) := by
  unfold refreshAll
  repeat' (first | (with_reducible assumption) | (intro _) | (with_reducible apply fbumpN_keeps) | (with_reducible apply charge_keeps) | (with_reducible apply mapRaa_keeps) | (fail_if_no_progress with_reducible apply Closed.other hP) | (dsimp only [-Nat.reducePow, Option.getD_some, Option.getD_none]) | (with_reducible apply ite_keeps) | split | (refine of_fst (by with_reducible assumption) ?_) | (refine of_snd (by with_reducible assumption) ?_) | (refine of_snd2 (by with_reducible assumption) ?_) | (refine of_mid (by with_reducible assumption) ?_) | (refine of_getD (s := s) (by with_reducible assumption) ?_))

theorem refreshOwed_keeps {P : State → Prop} (hP : Closed P) (c : Fin 16) (s : State) (hs0 : P s) : P (refreshOwed c s) := by
  unfold refreshOwed
  repeat' (first | (with_reducible assumption) | (intro _) | (with_reducible apply updChan_keeps) | (with_reducible apply forAll_keeps) | (with_reducible apply refreshRank_keeps) | (fail_if_no_progress with_reducible apply Closed.other hP) | (dsimp only [-Nat.reducePow, Option.getD_some, Option.getD_none]) | (with_reducible apply ite_keeps) | split | (refine of_fst (by with_reducible assumption) ?_) | (refine of_snd (by with_reducible assumption) ?_) | (refine of_snd2 (by with_reducible assumption) ?_) | (refine of_mid (by with_reducible assumption) ?_) | (refine of_getD (s := s) (by with_reducible assumption) ?_))

theorem selfRefresh_keeps {P : State → Prop} (hP : Closed P) (c : Fin 16) (s : State) (hs0 : P s) : P (selfRefresh c s) := by
  unfold selfRefresh
  repeat' (first | (with_reducible assumption) | (intro _) | (with_reducible apply setChState_keeps) | (with_reducible apply refreshAll_keeps) | (fail_if_no_progress with_reducible apply Closed.other hP) | (dsimp only [-Nat.reducePow, Option.getD_some, Option.getD_none]) | (with_reducible apply ite_keeps) | split | (refine of_fst (by with_reducible assumption) ?_) | (refine of_snd (by with_reducible assumption) ?_) | (refine of_snd2 (by with_reducible assumption) ?_) | (refine of_mid (by with_reducible assumption) ?_) | (refine of_getD (s := s) (by with_reducible assumption) ?_))

theorem refreshDue_keeps {P : State → Prop} (hP : Closed P) (c : Fin 16) (r : Fin 2) (s : State) (hs0 : P s) : P (refreshDue c r s) := by
  unfold refreshDue
  repeat' (first | (with_reducible assumption) | (intro _) | (with_reducible apply updChan_keeps) | (with_reducible apply advanceTo8_keeps) | (with_reducible apply deferAll_keeps) | (with_reducible apply refreshRank_keeps) | (fail_if_no_progress with_reducible apply Closed.other hP) | (dsimp only [-Nat.reducePow, Option.getD_some, Option.getD_none]) | (with_reducible apply ite_keeps) | split | (refine of_fst (by with_reducible assumption) ?_) | (refine of_snd (by with_reducible assumption) ?_) | (refine of_snd2 (by with_reducible assumption) ?_) | (refine of_mid (by with_reducible assumption) ?_) | (refine of_getD (s := s) (by with_reducible assumption) ?_))

theorem setRate2x_keeps {P : State → Prop} (hP : Closed P) (c : Fin 16) (v : Bool) (fail : Bool) (cause : String) (s : State) (hs0 : P s) : P (setRate2x c v fail cause s) := by
  unfold setRate2x
  repeat' (first | (with_reducible assumption) | (intro _) | (with_reducible apply fsetB_keeps) | (with_reducible apply emit_keeps) | (fail_if_no_progress with_reducible apply Closed.other hP) | (dsimp only [-Nat.reducePow, Option.getD_some, Option.getD_none]) | (with_reducible apply ite_keeps) | split | (refine of_fst (by with_reducible assumption) ?_) | (refine of_snd (by with_reducible assumption) ?_) | (refine of_snd2 (by with_reducible assumption) ?_) | (refine of_mid (by with_reducible assumption) ?_) | (refine of_getD (s := s) (by with_reducible assumption) ?_))

theorem mr4Rank_keeps {P : State → Prop} (hP : Closed P) (c : Fin 16) (r : Nat) (l : List Mr4) (s : State) (hs0 : P s) : P (mr4Rank c r l s) := by
  unfold mr4Rank
  repeat' (first | (with_reducible assumption) | (intro _) | (with_reducible apply fset_keeps) | (with_reducible apply fbump_keeps) | (with_reducible apply emit_keeps) | (with_reducible apply forAll_keeps) | (fail_if_no_progress with_reducible apply Closed.other hP) | (dsimp only [-Nat.reducePow, Option.getD_some, Option.getD_none]) | (with_reducible apply ite_keeps) | split | (refine of_fst (by with_reducible assumption) ?_) | (refine of_snd (by with_reducible assumption) ?_) | (refine of_snd2 (by with_reducible assumption) ?_) | (refine of_mid (by with_reducible assumption) ?_) | (refine of_getD (s := s) (by with_reducible assumption) ?_))

theorem mr4Poll_keeps {P : State → Prop} (hP : Closed P) (c : Fin 16) (r0 : List Mr4) (r1 : List Mr4) (s : State) (hs0 : P s) : P (mr4Poll c r0 r1 s) := by
  unfold mr4Poll
  repeat' (first | (with_reducible assumption) | (intro _) | (with_reducible apply fbump_keeps) | (with_reducible apply updChan_keeps) | (with_reducible apply charge_keeps) | (with_reducible apply advanceTo8_keeps) | (with_reducible apply advanceToNs_keeps) | (with_reducible apply stopUntil_keeps) | (with_reducible apply exitPd_keeps) | (with_reducible apply entryStop_keeps) | (with_reducible apply setRate2x_keeps) | (with_reducible apply mr4Rank_keeps) | (fail_if_no_progress with_reducible apply Closed.other hP) | (dsimp only [-Nat.reducePow, Option.getD_some, Option.getD_none]) | (with_reducible apply ite_keeps) | split | (refine of_fst (by with_reducible assumption) ?_) | (refine of_snd (by with_reducible assumption) ?_) | (refine of_snd2 (by with_reducible assumption) ?_) | (refine of_mid (by with_reducible assumption) ?_) | (refine of_getD (s := s) (by with_reducible assumption) ?_))

theorem throttle_keeps {P : State → Prop} (hP : Closed P) (c : Fin 16) (level : Nat) (man : Option (BitVec 8)) (s : State) (hs0 : P s) : P (throttle c level man s) := by
  unfold throttle
  repeat' (first | (with_reducible assumption) | (intro _) | (with_reducible apply fset_keeps) | (with_reducible apply fbump_keeps) | (with_reducible apply emit_keeps) | (with_reducible apply updChan_keeps) | (fail_if_no_progress with_reducible apply Closed.other hP) | (dsimp only [-Nat.reducePow, Option.getD_some, Option.getD_none]) | (with_reducible apply ite_keeps) | split | (refine of_fst (by with_reducible assumption) ?_) | (refine of_snd (by with_reducible assumption) ?_) | (refine of_snd2 (by with_reducible assumption) ?_) | (refine of_mid (by with_reducible assumption) ?_) | (refine of_getD (s := s) (by with_reducible assumption) ?_))

theorem issueRfm_keeps {P : State → Prop} (hP : Closed P) (c : Fin 16) (r : Nat) (bks : List Nat) (s : State) (hs0 : P s) : P (issueRfm c r bks s) := by
  unfold issueRfm
  repeat' (first | (with_reducible assumption) | (intro _) | (with_reducible apply fbumpN_keeps) | (with_reducible apply updChan_keeps) | (with_reducible apply forAll_keeps) | (with_reducible apply charge_keeps) | (with_reducible apply advanceTo8_keeps) | (with_reducible apply stopUntil_keeps) | (with_reducible apply pushHist_keeps) | (with_reducible apply exitPd_keeps) | (with_reducible apply entryStop_keeps) | (with_reducible apply closeBanks_keeps) | (with_reducible apply useCa_keeps) | (with_reducible apply mapRaa_keeps) | (with_reducible apply throttle_keeps) | (fail_if_no_progress with_reducible apply Closed.other hP) | (dsimp only [-Nat.reducePow, Option.getD_some, Option.getD_none]) | (with_reducible apply ite_keeps) | split | (refine of_fst (by with_reducible assumption) ?_) | (refine of_snd (by with_reducible assumption) ?_) | (refine of_snd2 (by with_reducible assumption) ?_) | (refine of_mid (by with_reducible assumption) ?_) | (refine of_getD (s := s) (by with_reducible assumption) ?_))

theorem rfmBoundary_keeps {P : State → Prop} (hP : Closed P) (c : Fin 16) (s : State) (hs0 : P s) : P (rfmBoundary c s) := by
  unfold rfmBoundary
  repeat' (first | (with_reducible assumption) | (intro _) | (with_reducible apply forAll_keeps) | (with_reducible apply issueRfm_keeps) | (fail_if_no_progress with_reducible apply Closed.other hP) | (dsimp only [-Nat.reducePow, Option.getD_some, Option.getD_none]) | (with_reducible apply ite_keeps) | split | (refine of_fst (by with_reducible assumption) ?_) | (refine of_snd (by with_reducible assumption) ?_) | (refine of_snd2 (by with_reducible assumption) ?_) | (refine of_mid (by with_reducible assumption) ?_) | (refine of_getD (s := s) (by with_reducible assumption) ?_))

theorem countAct_keeps {P : State → Prop} (hP : Closed P) (c : Fin 16) (b : Bank) (m : Option (BitVec 8)) (s : State) (hs0 : P s) : P (countAct c b m s) := by
  unfold countAct
  repeat' (first | (with_reducible assumption) | (intro _) | (with_reducible apply updChan_keeps) | (with_reducible apply onlyIf_keeps) | (with_reducible apply throttle_keeps) | (with_reducible apply optMap_keeps) | (with_reducible apply optGet_keeps) | (fail_if_no_progress with_reducible apply Closed.other hP) | (dsimp only [-Nat.reducePow, Option.getD_some, Option.getD_none]) | (with_reducible apply ite_keeps) | split | (refine of_fst (by with_reducible assumption) ?_) | (refine of_snd (by with_reducible assumption) ?_) | (refine of_snd2 (by with_reducible assumption) ?_) | (refine of_mid (by with_reducible assumption) ?_) | (refine of_getD (s := s) (by with_reducible assumption) ?_))

theorem liftLimits_keeps {P : State → Prop} (hP : Closed P) (hA : ClosedAcct P) (c : Fin 16) (gone : List (BitVec 8 × Nat)) (s : State) (hs0 : P s) : P (liftLimits c gone s) := by
  unfold liftLimits
  repeat' (first | (with_reducible assumption) | (intro _) | (with_reducible apply fset_keeps) | (with_reducible apply forAll_keeps) | (with_reducible apply setAcct_keeps) | (fail_if_no_progress with_reducible apply Closed.other hP) | (dsimp only [-Nat.reducePow, Option.getD_some, Option.getD_none]) | (with_reducible apply ite_keeps) | split | (refine of_fst (by with_reducible assumption) ?_) | (refine of_snd (by with_reducible assumption) ?_) | (refine of_snd2 (by with_reducible assumption) ?_) | (refine of_mid (by with_reducible assumption) ?_) | (refine of_getD (s := s) (by with_reducible assumption) ?_))

theorem rowactBoundary_keeps {P : State → Prop} (hP : Closed P) (hA : ClosedAcct P) (c : Fin 16) (s : State) (hs0 : P s) : P (rowactBoundary c s) := by
  unfold rowactBoundary
  repeat' (first | (with_reducible assumption) | (intro _) | (with_reducible apply fset_keeps) | (with_reducible apply emit_keeps) | (with_reducible apply updChan_keeps) | (with_reducible apply advanceToNs_keeps) | (with_reducible apply liftLimits_keeps) | (fail_if_no_progress with_reducible apply Closed.other hP) | (dsimp only [-Nat.reducePow, Option.getD_some, Option.getD_none]) | (with_reducible apply ite_keeps) | split | (refine of_fst (by with_reducible assumption) ?_) | (refine of_snd (by with_reducible assumption) ?_) | (refine of_snd2 (by with_reducible assumption) ?_) | (refine of_mid (by with_reducible assumption) ?_) | (refine of_getD (s := s) (by with_reducible assumption) ?_))

theorem replayFail_keeps {P : State → Prop} (hP : Closed P) (hS : ClosedStrm P) (hW : ClosedWay P) (c : Fin 16) (s : State) (hs0 : P s) : P (replayFail c s) := by
  unfold replayFail
  repeat' (first | (with_reducible assumption) | (intro _) | (with_reducible apply fset_keeps) | (with_reducible apply logFree_keeps) | (with_reducible apply channelLost_keeps) | (fail_if_no_progress with_reducible apply Closed.other hP) | (dsimp only [-Nat.reducePow, Option.getD_some, Option.getD_none]) | (with_reducible apply ite_keeps) | split | (refine of_fst (by with_reducible assumption) ?_) | (refine of_snd (by with_reducible assumption) ?_) | (refine of_snd2 (by with_reducible assumption) ?_) | (refine of_mid (by with_reducible assumption) ?_) | (refine of_getD (s := s) (by with_reducible assumption) ?_))

theorem replayOver_keeps {P : State → Prop} (hP : Closed P) (c : Fin 16) (s : State) (hs0 : P s) : P (replayOver c s) := by
  unfold replayOver
  repeat' (first | (with_reducible assumption) | (intro _) | (with_reducible apply fbump_keeps) | (with_reducible apply updChan_keeps) | (with_reducible apply stopUntil_keeps) | (fail_if_no_progress with_reducible apply Closed.other hP) | (dsimp only [-Nat.reducePow, Option.getD_some, Option.getD_none]) | (with_reducible apply ite_keeps) | split | (refine of_fst (by with_reducible assumption) ?_) | (refine of_snd (by with_reducible assumption) ?_) | (refine of_snd2 (by with_reducible assumption) ?_) | (refine of_mid (by with_reducible assumption) ?_) | (refine of_getD (s := s) (by with_reducible assumption) ?_))

theorem reissue_keeps {P : State → Prop} (hP : Closed P) (c : Fin 16) (attempt : Nat) (since : Nat) (s : State) (hs0 : P s) : P (reissue c attempt since s) := by
  unfold reissue
  repeat' (first | (with_reducible assumption) | (intro _) | (with_reducible apply fbump_keeps) | (with_reducible apply updChan_keeps) | (with_reducible apply forAll_keeps) | (with_reducible apply pushHist_keeps) | (with_reducible apply closeBanks_keeps) | (with_reducible apply useCa_keeps) | (with_reducible apply replayOver_keeps) | (with_reducible apply optMap_keeps) | (with_reducible apply optGet_keeps) | (fail_if_no_progress with_reducible apply Closed.other hP) | (dsimp only [-Nat.reducePow, Option.getD_some, Option.getD_none]) | (with_reducible apply ite_keeps) | split | (refine of_fst (by with_reducible assumption) ?_) | (refine of_snd (by with_reducible assumption) ?_) | (refine of_snd2 (by with_reducible assumption) ?_) | (refine of_mid (by with_reducible assumption) ?_) | (refine of_getD (s := s) (by with_reducible assumption) ?_))

theorem rowOnce_keeps {P : State → Prop} (hP : Closed P) (c : Fin 16) (lam : Nat) (man : Option (BitVec 8)) (s : State) (hs0 : P s) : P (rowOnce c lam man s) := by
  unfold rowOnce
  repeat' (first | (with_reducible assumption) | (intro _) | (with_reducible apply fbump_keeps) | (with_reducible apply charge_keeps) | (with_reducible apply rfmBoundary_keeps) | (with_reducible apply countAct_keeps) | (fail_if_no_progress with_reducible apply Closed.other hP) | (dsimp only [-Nat.reducePow, Option.getD_some, Option.getD_none]) | (with_reducible apply ite_keeps) | split | (refine of_fst (by with_reducible assumption) ?_) | (refine of_snd (by with_reducible assumption) ?_) | (refine of_snd2 (by with_reducible assumption) ?_) | (refine of_mid (by with_reducible assumption) ?_) | (refine of_getD (s := s) (by with_reducible assumption) ?_))

theorem writeNow_keeps {P : State → Prop} (hP : Closed P) (hD : ClosedDram P) (c : Fin 16) (lam : Nat) (l : Line) (psn : Bool) (scrub : Bool) (man : Option (BitVec 8)) (s : State) (hs0 : P s) : P (writeNow c lam l psn scrub man s) := by
  unfold writeNow
  repeat' (first | (with_reducible assumption) | (intro _) | (with_reducible apply fbump_keeps) | (with_reducible apply onlyIf_keeps) | (with_reducible apply charge_keeps) | (with_reducible apply storeLine_keeps) | (with_reducible apply notePoison_keeps) | (with_reducible apply rowOnce_keeps) | (fail_if_no_progress with_reducible apply Closed.other hP) | (dsimp only [-Nat.reducePow, Option.getD_some, Option.getD_none]) | (with_reducible apply ite_keeps) | split | (refine of_fst (by with_reducible assumption) ?_) | (refine of_snd (by with_reducible assumption) ?_) | (refine of_snd2 (by with_reducible assumption) ?_) | (refine of_mid (by with_reducible assumption) ?_) | (refine of_getD (s := s) (by with_reducible assumption) ?_))

theorem decodeNow_keeps {P : State → Prop} (hP : Closed P) (hI : ClosedIx P) (hS : ClosedStrm P) (hD : ClosedDram P) (hW : ClosedWay P) (c : Fin 16) (x : Cmd) (s : State) (hs0 : P s) : P (decodeNow c x s).2 := by
  unfold decodeNow
  repeat' (first | (with_reducible assumption) | (intro _) | (with_reducible apply fbump_keeps) | (with_reducible apply charge_keeps) | (with_reducible apply countDec_keeps) | (with_reducible apply ueSeen_keeps) | (with_reducible apply ueLine_keeps) | (with_reducible apply rereadGood_keeps) | (with_reducible apply rowOnce_keeps) | (with_reducible apply writeNow_keeps) | (fail_if_no_progress with_reducible apply Closed.other hP) | (dsimp only [-Nat.reducePow, Option.getD_some, Option.getD_none]) | (with_reducible apply ite_keeps) | split | (refine of_fst (by with_reducible assumption) ?_) | (refine of_snd (by with_reducible assumption) ?_) | (refine of_snd2 (by with_reducible assumption) ?_) | (refine of_mid (by with_reducible assumption) ?_) | (refine of_getD (s := s) (by with_reducible assumption) ?_))

theorem readNow_keeps {P : State → Prop} (hP : Closed P) (hI : ClosedIx P) (hS : ClosedStrm P) (hD : ClosedDram P) (hW : ClosedWay P) (c : Fin 16) (x : Cmd) (s : State) (hs0 : P s) : P (readNow c x s).2 := by
  unfold readNow
  repeat' (first | (with_reducible assumption) | (intro _) | (with_reducible apply fbump_keeps) | (with_reducible apply charge_keeps) | (with_reducible apply rowOnce_keeps) | (with_reducible apply decodeNow_keeps) | (fail_if_no_progress with_reducible apply Closed.other hP) | (dsimp only [-Nat.reducePow, Option.getD_some, Option.getD_none]) | (with_reducible apply ite_keeps) | split | (refine of_fst (by with_reducible assumption) ?_) | (refine of_snd (by with_reducible assumption) ?_) | (refine of_snd2 (by with_reducible assumption) ?_) | (refine of_mid (by with_reducible assumption) ?_) | (refine of_getD (s := s) (by with_reducible assumption) ?_))

theorem pauseAbort_keeps {P : State → Prop} (hP : Closed P) (hS : ClosedStrm P) (hW : ClosedWay P) (c : Fin 16) (s : State) (hs0 : P s) : P (pauseAbort c s) := by
  unfold pauseAbort
  repeat' (first | (with_reducible assumption) | (intro _) | (with_reducible apply fset_keeps) | (with_reducible apply fbump_keeps) | (with_reducible apply emit_keeps) | (with_reducible apply updChan_keeps) | (with_reducible apply updPhy_keeps) | (with_reducible apply stopUntil_keeps) | (with_reducible apply cutPause_keeps) | (with_reducible apply stopPhy_keeps) | (with_reducible apply channelLost_keeps) | (with_reducible apply refreshOwed_keeps) | (fail_if_no_progress with_reducible apply Closed.other hP) | (dsimp only [-Nat.reducePow, Option.getD_some, Option.getD_none]) | (with_reducible apply ite_keeps) | split | (refine of_fst (by with_reducible assumption) ?_) | (refine of_snd (by with_reducible assumption) ?_) | (refine of_snd2 (by with_reducible assumption) ?_) | (refine of_mid (by with_reducible assumption) ?_) | (refine of_getD (s := s) (by with_reducible assumption) ?_))

theorem alertLow_keeps {P : State → Prop} (hP : Closed P) (hS : ClosedStrm P) (hW : ClosedWay P) (c : Fin 16) (s : State) (hs0 : P s) : P (alertLow c s) := by
  unfold alertLow
  repeat' (first | (with_reducible assumption) | (intro _) | (with_reducible apply fset_keeps) | (with_reducible apply fbump_keeps) | (with_reducible apply updPhy_keeps) | (with_reducible apply deferAll_keeps) | (with_reducible apply logFree_keeps) | (with_reducible apply stopIdle_keeps) | (with_reducible apply replayFail_keeps) | (with_reducible apply reissue_keeps) | (with_reducible apply pauseAbort_keeps) | (fail_if_no_progress with_reducible apply Closed.other hP) | (dsimp only [-Nat.reducePow, Option.getD_some, Option.getD_none]) | (with_reducible apply ite_keeps) | split | (refine of_fst (by with_reducible assumption) ?_) | (refine of_snd (by with_reducible assumption) ?_) | (refine of_snd2 (by with_reducible assumption) ?_) | (refine of_mid (by with_reducible assumption) ?_) | (refine of_getD (s := s) (by with_reducible assumption) ?_))

theorem execAlert_keeps {P : State → Prop} (hP : Closed P) (hI : ClosedIx P) (hS : ClosedStrm P) (hA : ClosedAcct P) (hD : ClosedDram P) (hW : ClosedWay P) (ch : ChPick) (s : State) (hs0 : P s) : ∀ out, execAlert ch s = .next out → P out := by
  unfold execAlert
  intro out hout
  obtain rfl := Host.Outcome.next.inj hout
  repeat' (first | (with_reducible assumption) | (intro _) | (with_reducible apply settle_keeps) | (with_reducible apply actAll_keeps) | (with_reducible apply alertLow_keeps) | (fail_if_no_progress with_reducible apply Closed.other hP) | (dsimp only [-Nat.reducePow, Option.getD_some, Option.getD_none]) | (with_reducible apply ite_keeps) | split | (refine of_fst (by with_reducible assumption) ?_) | (refine of_snd (by with_reducible assumption) ?_) | (refine of_snd2 (by with_reducible assumption) ?_) | (refine of_mid (by with_reducible assumption) ?_) | (refine of_getD (s := s) (by with_reducible assumption) ?_))

theorem execAlertHoldExpiry_keeps {P : State → Prop} (hP : Closed P) (ch : Fin 16) (s : State) (hs0 : P s) : ∀ out, execAlertHoldExpiry ch s = .next out → P out := by
  unfold execAlertHoldExpiry
  intro out hout
  obtain rfl := Host.Outcome.next.inj hout
  repeat' (first | (with_reducible assumption) | (intro _) | (with_reducible apply updPhy_keeps) | (with_reducible apply elapse_keeps) | (fail_if_no_progress with_reducible apply Closed.other hP) | (dsimp only [-Nat.reducePow, Option.getD_some, Option.getD_none]) | (with_reducible apply ite_keeps) | split | (refine of_fst (by with_reducible assumption) ?_) | (refine of_snd (by with_reducible assumption) ?_) | (refine of_snd2 (by with_reducible assumption) ?_) | (refine of_mid (by with_reducible assumption) ?_) | (refine of_getD (s := s) (by with_reducible assumption) ?_))

theorem execReplayTimeout_keeps {P : State → Prop} (hP : Closed P) (hI : ClosedIx P) (hS : ClosedStrm P) (hA : ClosedAcct P) (hD : ClosedDram P) (hW : ClosedWay P) (ch : ChPick) (s : State) (hs0 : P s) : ∀ out, execReplayTimeout ch s = .next out → P out := by
  unfold execReplayTimeout
  intro out hout
  obtain rfl := Host.Outcome.next.inj hout
  repeat' (first | (with_reducible assumption) | (intro _) | (with_reducible apply advanceToNs_keeps) | (with_reducible apply settle_keeps) | (with_reducible apply actAll_keeps) | (with_reducible apply replayFail_keeps) | (fail_if_no_progress with_reducible apply Closed.other hP) | (dsimp only [-Nat.reducePow, Option.getD_some, Option.getD_none]) | (with_reducible apply ite_keeps) | split | (refine of_fst (by with_reducible assumption) ?_) | (refine of_snd (by with_reducible assumption) ?_) | (refine of_snd2 (by with_reducible assumption) ?_) | (refine of_mid (by with_reducible assumption) ?_) | (refine of_getD (s := s) (by with_reducible assumption) ?_))

theorem execRefreshDue_keeps {P : State → Prop} (hP : Closed P) (ch : Fin 16) (rank : Fin 2) (s : State) (hs0 : P s) : ∀ out, execRefreshDue ch rank s = .next out → P out := by
  unfold execRefreshDue
  intro out hout
  obtain rfl := Host.Outcome.next.inj hout
  repeat' (first | (with_reducible assumption) | (intro _) | (with_reducible apply refreshDue_keeps) | (fail_if_no_progress with_reducible apply Closed.other hP) | (dsimp only [-Nat.reducePow, Option.getD_some, Option.getD_none]) | (with_reducible apply ite_keeps) | split | (refine of_fst (by with_reducible assumption) ?_) | (refine of_snd (by with_reducible assumption) ?_) | (refine of_snd2 (by with_reducible assumption) ?_) | (refine of_mid (by with_reducible assumption) ?_) | (refine of_getD (s := s) (by with_reducible assumption) ?_))

theorem execMr4Poll_keeps {P : State → Prop} (hP : Closed P) (ch : Fin 16) (r0 : List Mr4) (r1 : List Mr4) (s : State) (hs0 : P s) : ∀ out, execMr4Poll ch r0 r1 s = .next out → P out := by
  unfold execMr4Poll
  intro out hout
  obtain rfl := Host.Outcome.next.inj hout
  repeat' (first | (with_reducible assumption) | (intro _) | (with_reducible apply mr4Poll_keeps) | (fail_if_no_progress with_reducible apply Closed.other hP) | (dsimp only [-Nat.reducePow, Option.getD_some, Option.getD_none]) | (with_reducible apply ite_keeps) | split | (refine of_fst (by with_reducible assumption) ?_) | (refine of_snd (by with_reducible assumption) ?_) | (refine of_snd2 (by with_reducible assumption) ?_) | (refine of_mid (by with_reducible assumption) ?_) | (refine of_getD (s := s) (by with_reducible assumption) ?_))

theorem execRowactWindowBoundary_keeps {P : State → Prop} (hP : Closed P) (hA : ClosedAcct P) (ch : Fin 16) (s : State) (hs0 : P s) : ∀ out, execRowactWindowBoundary ch s = .next out → P out := by
  unfold execRowactWindowBoundary
  intro out hout
  obtain rfl := Host.Outcome.next.inj hout
  repeat' (first | (with_reducible assumption) | (intro _) | (with_reducible apply rowactBoundary_keeps) | (fail_if_no_progress with_reducible apply Closed.other hP) | (dsimp only [-Nat.reducePow, Option.getD_some, Option.getD_none]) | (with_reducible apply ite_keeps) | split | (refine of_fst (by with_reducible assumption) ?_) | (refine of_snd (by with_reducible assumption) ?_) | (refine of_snd2 (by with_reducible assumption) ?_) | (refine of_mid (by with_reducible assumption) ?_) | (refine of_getD (s := s) (by with_reducible assumption) ?_))

theorem execMarkWindowEnd_keeps {P : State → Prop} (hP : Closed P) (hI : ClosedIx P) (ch : Fin 16) (s : State) (hs0 : P s) : ∀ out, execMarkWindowEnd ch s = .next out → P out := by
  unfold execMarkWindowEnd
  intro out hout
  obtain rfl := Host.Outcome.next.inj hout
  repeat' (first | (with_reducible assumption) | (intro _) | (with_reducible apply updChan_keeps) | (with_reducible apply forAll_keeps) | (with_reducible apply advanceToNs_keeps) | (with_reducible apply setDevWord_keeps) | (fail_if_no_progress with_reducible apply Closed.other hP) | (dsimp only [-Nat.reducePow, Option.getD_some, Option.getD_none]) | (with_reducible apply ite_keeps) | split | (refine of_fst (by with_reducible assumption) ?_) | (refine of_snd (by with_reducible assumption) ?_) | (refine of_snd2 (by with_reducible assumption) ?_) | (refine of_mid (by with_reducible assumption) ?_) | (refine of_getD (s := s) (by with_reducible assumption) ?_))

theorem execPageTimeout_keeps {P : State → Prop} (hP : Closed P) (ch : Fin 16) (bank : Nat) (s : State) (hs0 : P s) : ∀ out, execPageTimeout ch bank s = .next out → P out := by
  unfold execPageTimeout
  intro out hout
  obtain rfl := Host.Outcome.next.inj hout
  repeat' (first | (with_reducible assumption) | (intro _) | (with_reducible apply advanceTo8_keeps) | (with_reducible apply pushHist_keeps) | (with_reducible apply closeRow_keeps) | (fail_if_no_progress with_reducible apply Closed.other hP) | (dsimp only [-Nat.reducePow, Option.getD_some, Option.getD_none]) | (with_reducible apply ite_keeps) | split | (refine of_fst (by with_reducible assumption) ?_) | (refine of_snd (by with_reducible assumption) ?_) | (refine of_snd2 (by with_reducible assumption) ?_) | (refine of_mid (by with_reducible assumption) ?_) | (refine of_getD (s := s) (by with_reducible assumption) ?_))

theorem execSpareRewrite_keeps {P : State → Prop} (hP : Closed P) (ch : Fin 16) (sym : List SymErr) (s : State) (hs0 : P s) : ∀ out, execSpareRewrite ch sym s = .next out → P out := by
  unfold execSpareRewrite
  intro out hout
  obtain rfl := Host.Outcome.next.inj hout
  repeat' (first | (with_reducible assumption) | (intro _) | (with_reducible apply spareStep_keeps) | (fail_if_no_progress with_reducible apply Closed.other hP) | (dsimp only [-Nat.reducePow, Option.getD_some, Option.getD_none]) | (with_reducible apply ite_keeps) | split | (refine of_fst (by with_reducible assumption) ?_) | (refine of_snd (by with_reducible assumption) ?_) | (refine of_snd2 (by with_reducible assumption) ?_) | (refine of_mid (by with_reducible assumption) ?_) | (refine of_getD (s := s) (by with_reducible assumption) ?_))

theorem execScrubRead_keeps {P : State → Prop} (hP : Closed P) (ch : Fin 16) (sym : List SymErr) (again : List SymErr) (s : State) (hs0 : P s) : ∀ out, execScrubRead ch sym again s = .next out → P out := by
  unfold execScrubRead
  intro out hout
  obtain rfl := Host.Outcome.next.inj hout
  repeat' (first | (with_reducible assumption) | (intro _) | (with_reducible apply scrub_keeps) | (fail_if_no_progress with_reducible apply Closed.other hP) | (dsimp only [-Nat.reducePow, Option.getD_some, Option.getD_none]) | (with_reducible apply ite_keeps) | split | (refine of_fst (by with_reducible assumption) ?_) | (refine of_snd (by with_reducible assumption) ?_) | (refine of_snd2 (by with_reducible assumption) ?_) | (refine of_mid (by with_reducible assumption) ?_) | (refine of_getD (s := s) (by with_reducible assumption) ?_))

theorem execAlignedMillisecondEnd_keeps {P : State → Prop} (hP : Closed P) (ch : Fin 16) (s : State) (hs0 : P s) : ∀ out, execAlignedMillisecondEnd ch s = .next out → P out := by
  unfold execAlignedMillisecondEnd
  intro out hout
  obtain rfl := Host.Outcome.next.inj hout
  repeat' (first | (with_reducible assumption) | (intro _) | (with_reducible apply advanceToNs_keeps) | (with_reducible apply closeMs_keeps) | (fail_if_no_progress with_reducible apply Closed.other hP) | (dsimp only [-Nat.reducePow, Option.getD_some, Option.getD_none]) | (with_reducible apply ite_keeps) | split | (refine of_fst (by with_reducible assumption) ?_) | (refine of_snd (by with_reducible assumption) ?_) | (refine of_snd2 (by with_reducible assumption) ?_) | (refine of_mid (by with_reducible assumption) ?_) | (refine of_getD (s := s) (by with_reducible assumption) ?_))

theorem markVerb_keeps {P : State → Prop} (hP : Closed P) (ch : Fin 16) (rank : Fin 2) (dev : Nat) (s : State) (hs0 : P s) : P (markVerb ch rank dev s).1 := by
  unfold markVerb
  repeat' (first | (with_reducible assumption) | (intro _) | (with_reducible apply markDev_keeps) | (fail_if_no_progress with_reducible apply Closed.other hP) | (dsimp only [-Nat.reducePow, Option.getD_some, Option.getD_none]) | (with_reducible apply ite_keeps) | split | (refine of_fst (by with_reducible assumption) ?_) | (refine of_snd (by with_reducible assumption) ?_) | (refine of_snd2 (by with_reducible assumption) ?_) | (refine of_mid (by with_reducible assumption) ?_) | (refine of_getD (s := s) (by with_reducible assumption) ?_))

theorem execMarkCommand_keeps {P : State → Prop} (hP : Closed P) (ch : Fin 16) (rank : Fin 2) (dev : Nat) (s : State) (hs0 : P s) : ∀ out, execMarkCommand ch rank dev s = .next out → P out := by
  unfold execMarkCommand
  intro out hout
  obtain rfl := Host.Outcome.next.inj hout
  repeat' (first | (with_reducible assumption) | (intro _) | (with_reducible apply runVerb1_keeps) | (with_reducible apply markVerb_keeps) | (fail_if_no_progress with_reducible apply Closed.other hP) | (dsimp only [-Nat.reducePow, Option.getD_some, Option.getD_none]) | (with_reducible apply ite_keeps) | split | (refine of_fst (by with_reducible assumption) ?_) | (refine of_snd (by with_reducible assumption) ?_) | (refine of_snd2 (by with_reducible assumption) ?_) | (refine of_mid (by with_reducible assumption) ?_) | (refine of_getD (s := s) (by with_reducible assumption) ?_))

end Sys2Proof.Laws
end

