-- ==== Sys2Proof/Laws/KChan.lean ====
section
/-! SUPPORT. The operations of Machine/Chan.lean keep every property closed under the writers that they reach. -/

namespace Sys2Proof.Laws
open Sys2Proof.Machine

set_option linter.unreachableTactic false
set_option linter.unusedTactic false
set_option linter.unusedVariables false

theorem countHeld_keeps {P : State → Prop} (hP : Closed P) (c : Fin 16) (n : Nat) (s : State) (hs0 : P s) : P (countHeld c n s) := by
  unfold countHeld
  repeat' (first | (with_reducible assumption) | (intro _) | (with_reducible apply fbumpN_keeps) | (with_reducible apply updChan_keeps) | (with_reducible apply optMap_keeps) | (with_reducible apply optGet_keeps) | (fail_if_no_progress with_reducible apply Closed.other hP) | (dsimp only [-Nat.reducePow, Option.getD_some, Option.getD_none]) | (with_reducible apply ite_keeps) | split | (refine of_fst (by with_reducible assumption) ?_) | (refine of_snd (by with_reducible assumption) ?_) | (refine of_snd2 (by with_reducible assumption) ?_) | (refine of_mid (by with_reducible assumption) ?_) | (refine of_getD (s := s) (by with_reducible assumption) ?_))

theorem besideRec_keeps {P : State → Prop} (hP : Closed P) (c : Fin 16) (x : Cmd) (s : State) (hs0 : P s) : P (besideRec c x s) := by
  unfold besideRec
  repeat' (first | (with_reducible assumption) | (intro _) | (with_reducible apply setBrec_keeps) | (fail_if_no_progress with_reducible apply Closed.other hP) | (dsimp only [-Nat.reducePow, Option.getD_some, Option.getD_none]) | (with_reducible apply ite_keeps) | split | (refine of_fst (by with_reducible assumption) ?_) | (refine of_snd (by with_reducible assumption) ?_) | (refine of_snd2 (by with_reducible assumption) ?_) | (refine of_mid (by with_reducible assumption) ?_) | (refine of_getD (s := s) (by with_reducible assumption) ?_))

theorem admitLock_keeps {P : State → Prop} (hP : Closed P) (c : Fin 16) (x : Cmd) (s : State) (hs0 : P s) : P (admitLock c x s) := by
  unfold admitLock
  repeat' (first | (with_reducible assumption) | (intro _) | (with_reducible apply updChan_keeps) | (with_reducible apply unlock_keeps) | (with_reducible apply spareAdmit_keeps) | (fail_if_no_progress with_reducible apply Closed.other hP) | (dsimp only [-Nat.reducePow, Option.getD_some, Option.getD_none]) | (with_reducible apply ite_keeps) | split | (refine of_fst (by with_reducible assumption) ?_) | (refine of_snd (by with_reducible assumption) ?_) | (refine of_snd2 (by with_reducible assumption) ?_) | (refine of_mid (by with_reducible assumption) ?_) | (refine of_getD (s := s) (by with_reducible assumption) ?_))

theorem copyEcc_keeps {P : State → Prop} (hP : Closed P) (hD : ClosedDram P) (c : Fin 16) (lam : Nat) (ecc : LineEcc) (s : State) (hs0 : P s) : P (copyEcc c lam ecc s) := by
  unfold copyEcc
  repeat' (first | (with_reducible assumption) | (intro _) | (with_reducible apply fbump_keeps) | (with_reducible apply storeLine_keeps) | (fail_if_no_progress with_reducible apply Closed.other hP) | (dsimp only [-Nat.reducePow, Option.getD_some, Option.getD_none]) | (with_reducible apply ite_keeps) | split | (refine of_fst (by with_reducible assumption) ?_) | (refine of_snd (by with_reducible assumption) ?_) | (refine of_snd2 (by with_reducible assumption) ?_) | (refine of_mid (by with_reducible assumption) ?_) | (refine of_getD (s := s) (by with_reducible assumption) ?_))

theorem runDisplaced_keeps {P : State → Prop} (hP : Closed P) (hS : ClosedStrm P) (hD : ClosedDram P) (hW : ClosedWay P) (c : Fin 16) (ecc : LineEcc) (x : Cmd) (s : State) (hs0 : P s) : P (runDisplaced c ecc x s) := by
  unfold runDisplaced
  repeat' (first | (with_reducible assumption) | (intro _) | (with_reducible apply storeLine_keeps) | (with_reducible apply servePoint_keeps) | (with_reducible apply chargeFor_keeps) | (with_reducible apply readDone_keeps) | (with_reducible apply writeDone_keeps) | (with_reducible apply unlock_keeps) | (with_reducible apply besideRec_keeps) | (with_reducible apply copyEcc_keeps) | (fail_if_no_progress with_reducible apply Closed.other hP) | (dsimp only [-Nat.reducePow, Option.getD_some, Option.getD_none]) | (with_reducible apply ite_keeps) | split | (refine of_fst (by with_reducible assumption) ?_) | (refine of_snd (by with_reducible assumption) ?_) | (refine of_snd2 (by with_reducible assumption) ?_) | (refine of_mid (by with_reducible assumption) ?_) | (refine of_getD (s := s) (by with_reducible assumption) ?_))

theorem recopy_keeps {P : State → Prop} (hP : Closed P) (c : Fin 16) (x : Cmd) (s : State) (hs0 : P s) : P (recopy c x s) := by
  unfold recopy
  repeat' (first | (with_reducible assumption) | (intro _) | (with_reducible apply updChan_keeps) | (fail_if_no_progress with_reducible apply Closed.other hP) | (dsimp only [-Nat.reducePow, Option.getD_some, Option.getD_none]) | (with_reducible apply ite_keeps) | split | (refine of_fst (by with_reducible assumption) ?_) | (refine of_snd (by with_reducible assumption) ?_) | (refine of_snd2 (by with_reducible assumption) ?_) | (refine of_mid (by with_reducible assumption) ?_) | (refine of_getD (s := s) (by with_reducible assumption) ?_))

theorem enterLine_keeps {P : State → Prop} (hP : Closed P) (c : Fin 16) (x : Cmd) (s : State) (hs0 : P s) : P (enterLine c x s) := by
  unfold enterLine
  repeat' (first | (with_reducible assumption) | (intro _) | (with_reducible apply updChan_keeps) | (with_reducible apply fillStat_keeps) | (with_reducible apply exitPd_keeps) | (with_reducible apply admitLock_keeps) | (with_reducible apply recopy_keeps) | (fail_if_no_progress with_reducible apply Closed.other hP) | (dsimp only [-Nat.reducePow, Option.getD_some, Option.getD_none]) | (with_reducible apply ite_keeps) | split | (refine of_fst (by with_reducible assumption) ?_) | (refine of_snd (by with_reducible assumption) ?_) | (refine of_snd2 (by with_reducible assumption) ?_) | (refine of_mid (by with_reducible assumption) ?_) | (refine of_getD (s := s) (by with_reducible assumption) ?_))

theorem enterCopy_keeps {P : State → Prop} (hP : Closed P) (hS : ClosedStrm P) (hD : ClosedDram P) (hW : ClosedWay P) (c : Fin 16) (ecc : LineEcc) (x : Cmd) (s : State) (hs0 : P s) : P (enterCopy c ecc x s) := by
  unfold enterCopy
  repeat' (first | (with_reducible assumption) | (intro _) | (with_reducible apply admitLock_keeps) | (with_reducible apply runDisplaced_keeps) | (fail_if_no_progress with_reducible apply Closed.other hP) | (dsimp only [-Nat.reducePow, Option.getD_some, Option.getD_none]) | (with_reducible apply ite_keeps) | split | (refine of_fst (by with_reducible assumption) ?_) | (refine of_snd (by with_reducible assumption) ?_) | (refine of_snd2 (by with_reducible assumption) ?_) | (refine of_mid (by with_reducible assumption) ?_) | (refine of_getD (s := s) (by with_reducible assumption) ?_))

theorem startInord_keeps {P : State → Prop} (hP : Closed P) (c : Fin 16) (sn : Nat) (s : State) (hs0 : P s) : P (startInord c sn s) := by
  unfold startInord
  repeat' (first | (with_reducible assumption) | (intro _) | (with_reducible apply fbump_keeps) | (with_reducible apply updChan_keeps) | (with_reducible apply fsetBit_keeps) | (with_reducible apply deferAll_keeps) | (with_reducible apply stopIdle_keeps) | (fail_if_no_progress with_reducible apply Closed.other hP) | (dsimp only [-Nat.reducePow, Option.getD_some, Option.getD_none]) | (with_reducible apply ite_keeps) | split | (refine of_fst (by with_reducible assumption) ?_) | (refine of_snd (by with_reducible assumption) ?_) | (refine of_snd2 (by with_reducible assumption) ?_) | (refine of_mid (by with_reducible assumption) ?_) | (refine of_getD (s := s) (by with_reducible assumption) ?_))

theorem admitAt_keeps {P : State → Prop} (hP : Closed P) (c : Fin 16) (i : Nat) (s : State) (hs0 : P s) : P (admitAt c i s) := by
  unfold admitAt
  repeat' (first | (with_reducible assumption) | (intro _) | (with_reducible apply updChan_keeps) | (with_reducible apply enterLine_keeps) | (with_reducible apply startInord_keeps) | (fail_if_no_progress with_reducible apply Closed.other hP) | (dsimp only [-Nat.reducePow, Option.getD_some, Option.getD_none]) | (with_reducible apply ite_keeps) | split | (refine of_fst (by with_reducible assumption) ?_) | (refine of_snd (by with_reducible assumption) ?_) | (refine of_snd2 (by with_reducible assumption) ?_) | (refine of_mid (by with_reducible assumption) ?_) | (refine of_getD (s := s) (by with_reducible assumption) ?_))

theorem admitNext_keeps {P : State → Prop} (hP : Closed P) (c : Fin 16) (s : State) (hs0 : P s) : P (admitNext c s) := by
  unfold admitNext
  repeat' (first | (with_reducible assumption) | (intro _) | (with_reducible apply updChan_keeps) | (with_reducible apply advanceTo8_keeps) | (with_reducible apply countHeld_keeps) | (with_reducible apply enterLine_keeps) | (with_reducible apply admitAt_keeps) | (fail_if_no_progress with_reducible apply Closed.other hP) | (dsimp only [-Nat.reducePow, Option.getD_some, Option.getD_none]) | (with_reducible apply ite_keeps) | split | (refine of_fst (by with_reducible assumption) ?_) | (refine of_snd (by with_reducible assumption) ?_) | (refine of_snd2 (by with_reducible assumption) ?_) | (refine of_mid (by with_reducible assumption) ?_) | (refine of_getD (s := s) (by with_reducible assumption) ?_))

theorem admission_keeps {P : State → Prop} (hP : Closed P) (hS : ClosedStrm P) (hD : ClosedDram P) (hW : ClosedWay P) (c : Fin 16) (ecc : LineEcc) (s : State) (hs0 : P s) : P (admission c ecc s) := by
  unfold admission
  repeat' (first | (with_reducible assumption) | (intro _) | (with_reducible apply updChan_keeps) | (with_reducible apply enterCopy_keeps) | (with_reducible apply admitNext_keeps) | (fail_if_no_progress with_reducible apply Closed.other hP) | (dsimp only [-Nat.reducePow, Option.getD_some, Option.getD_none]) | (with_reducible apply ite_keeps) | split | (refine of_fst (by with_reducible assumption) ?_) | (refine of_snd (by with_reducible assumption) ?_) | (refine of_snd2 (by with_reducible assumption) ?_) | (refine of_mid (by with_reducible assumption) ?_) | (refine of_getD (s := s) (by with_reducible assumption) ?_))

theorem chargeCmd_keeps {P : State → Prop} (hP : Closed P) (x : Cmd) (k : Nat) (man : Option (BitVec 8)) (s : State) (hs0 : P s) : P (chargeCmd x k man s) := by
  unfold chargeCmd
  repeat' (first | (with_reducible assumption) | (intro _) | (with_reducible apply chargeFor_keeps) | (fail_if_no_progress with_reducible apply Closed.other hP) | (dsimp only [-Nat.reducePow, Option.getD_some, Option.getD_none]) | (with_reducible apply ite_keeps) | split | (refine of_fst (by with_reducible assumption) ?_) | (refine of_snd (by with_reducible assumption) ?_) | (refine of_snd2 (by with_reducible assumption) ?_) | (refine of_mid (by with_reducible assumption) ?_) | (refine of_getD (s := s) (by with_reducible assumption) ?_))

theorem updIssuable_keeps {P : State → Prop} (hP : Closed P) (c : Fin 16) (pos : Nat) (f : Cmd → Cmd) (s : State) (hs0 : P s) : P (updIssuable c pos f s) := by
  unfold updIssuable
  repeat' (first | (with_reducible assumption) | (intro _) | (with_reducible apply updChan_keeps) | (fail_if_no_progress with_reducible apply Closed.other hP) | (dsimp only [-Nat.reducePow, Option.getD_some, Option.getD_none]) | (with_reducible apply ite_keeps) | split | (refine of_fst (by with_reducible assumption) ?_) | (refine of_snd (by with_reducible assumption) ?_) | (refine of_snd2 (by with_reducible assumption) ?_) | (refine of_mid (by with_reducible assumption) ?_) | (refine of_getD (s := s) (by with_reducible assumption) ?_))

theorem noteClash_keeps {P : State → Prop} (hP : Closed P) (c : Fin 16) (pos : Nat) (held : Bool) (s : State) (hs0 : P s) : P (noteClash c pos held s) := by
  unfold noteClash
  repeat' (first | (with_reducible assumption) | (intro _) | (with_reducible apply fbump_keeps) | (with_reducible apply updIssuable_keeps) | (fail_if_no_progress with_reducible apply Closed.other hP) | (dsimp only [-Nat.reducePow, Option.getD_some, Option.getD_none]) | (with_reducible apply ite_keeps) | split | (refine of_fst (by with_reducible assumption) ?_) | (refine of_snd (by with_reducible assumption) ?_) | (refine of_snd2 (by with_reducible assumption) ?_) | (refine of_mid (by with_reducible assumption) ?_) | (refine of_getD (s := s) (by with_reducible assumption) ?_))

theorem issueAct_keeps {P : State → Prop} (hP : Closed P) (c : Fin 16) (pos : Nat) (x : Cmd) (b : Bank) (s : State) (hs0 : P s) : P (issueAct c pos x b s) := by
  unfold issueAct
  repeat' (first | (with_reducible assumption) | (intro _) | (with_reducible apply fbump_keeps) | (with_reducible apply updChan_keeps) | (with_reducible apply advanceTo8_keeps) | (with_reducible apply pushHist_keeps) | (with_reducible apply useCa_keeps) | (with_reducible apply countAct_keeps) | (with_reducible apply chargeCmd_keeps) | (with_reducible apply updIssuable_keeps) | (with_reducible apply noteClash_keeps) | (fail_if_no_progress with_reducible apply Closed.other hP) | (dsimp only [-Nat.reducePow, Option.getD_some, Option.getD_none]) | (with_reducible apply ite_keeps) | split | (refine of_fst (by with_reducible assumption) ?_) | (refine of_snd (by with_reducible assumption) ?_) | (refine of_snd2 (by with_reducible assumption) ?_) | (refine of_mid (by with_reducible assumption) ?_) | (refine of_getD (s := s) (by with_reducible assumption) ?_))

theorem issuePre_keeps {P : State → Prop} (hP : Closed P) (c : Fin 16) (pos : Nat) (b : Bank) (s : State) (hs0 : P s) : P (issuePre c pos b s) := by
  unfold issuePre
  repeat' (first | (with_reducible assumption) | (intro _) | (with_reducible apply advanceTo8_keeps) | (with_reducible apply pushHist_keeps) | (with_reducible apply closeRow_keeps) | (with_reducible apply useCa_keeps) | (with_reducible apply noteClash_keeps) | (fail_if_no_progress with_reducible apply Closed.other hP) | (dsimp only [-Nat.reducePow, Option.getD_some, Option.getD_none]) | (with_reducible apply ite_keeps) | split | (refine of_fst (by with_reducible assumption) ?_) | (refine of_snd (by with_reducible assumption) ?_) | (refine of_snd2 (by with_reducible assumption) ?_) | (refine of_mid (by with_reducible assumption) ?_) | (refine of_getD (s := s) (by with_reducible assumption) ?_))

theorem afterCol_keeps {P : State → Prop} (hP : Closed P) (c : Fin 16) (b : Bank) (wr : Bool) (s : State) (hs0 : P s) : P (afterCol c b wr s) := by
  unfold afterCol
  repeat' (first | (with_reducible assumption) | (intro _) | (with_reducible apply updChan_keeps) | (with_reducible apply pushHist_keeps) | (with_reducible apply closeRow_keeps) | (with_reducible apply optMap_keeps) | (with_reducible apply optGet_keeps) | (fail_if_no_progress with_reducible apply Closed.other hP) | (dsimp only [-Nat.reducePow, Option.getD_some, Option.getD_none]) | (with_reducible apply ite_keeps) | split | (refine of_fst (by with_reducible assumption) ?_) | (refine of_snd (by with_reducible assumption) ?_) | (refine of_snd2 (by with_reducible assumption) ?_) | (refine of_mid (by with_reducible assumption) ?_) | (refine of_getD (s := s) (by with_reducible assumption) ?_))

theorem busStat_keeps {P : State → Prop} (hP : Closed P) (c : Fin 16) (wr : Bool) (s : State) (hs0 : P s) : P (busStat c wr s) := by
  unfold busStat
  repeat' (first | (with_reducible assumption) | (intro _) | (with_reducible apply fbumpN_keeps) | (with_reducible apply fbump_keeps) | (with_reducible apply updChan_keeps) | (with_reducible apply onlyIf_keeps) | (with_reducible apply stopIdle_keeps) | (fail_if_no_progress with_reducible apply Closed.other hP) | (dsimp only [-Nat.reducePow, Option.getD_some, Option.getD_none]) | (with_reducible apply ite_keeps) | split | (refine of_fst (by with_reducible assumption) ?_) | (refine of_snd (by with_reducible assumption) ?_) | (refine of_snd2 (by with_reducible assumption) ?_) | (refine of_mid (by with_reducible assumption) ?_) | (refine of_getD (s := s) (by with_reducible assumption) ?_))

theorem issueWrite_keeps {P : State → Prop} (hP : Closed P) (hD : ClosedDram P) (c : Fin 16) (x : Cmd) (s : State) (hs0 : P s) : P (issueWrite c x s) := by
  unfold issueWrite
  repeat' (first | (with_reducible assumption) | (intro _) | (with_reducible apply fbump_keeps) | (with_reducible apply onlyIf_keeps) | (with_reducible apply storeLine_keeps) | (with_reducible apply servePointCh_keeps) | (with_reducible apply twinPointCh_keeps) | (with_reducible apply notePoison_keeps) | (with_reducible apply besideRec_keeps) | (with_reducible apply chargeCmd_keeps) | (fail_if_no_progress with_reducible apply Closed.other hP) | (dsimp only [-Nat.reducePow, Option.getD_some, Option.getD_none]) | (with_reducible apply ite_keeps) | split | (refine of_fst (by with_reducible assumption) ?_) | (refine of_snd (by with_reducible assumption) ?_) | (refine of_snd2 (by with_reducible assumption) ?_) | (refine of_mid (by with_reducible assumption) ?_) | (refine of_getD (s := s) (by with_reducible assumption) ?_))

theorem issueCol_keeps {P : State → Prop} (hP : Closed P) (hD : ClosedDram P) (c : Fin 16) (x : Cmd) (b : Bank) (s : State) (hs0 : P s) : P (issueCol c x b s) := by
  unfold issueCol
  repeat' (first | (with_reducible assumption) | (intro _) | (with_reducible apply fbump_keeps) | (with_reducible apply updChan_keeps) | (with_reducible apply onlyIf_keeps) | (with_reducible apply advanceTo8_keeps) | (with_reducible apply fillStat_keeps) | (with_reducible apply pushHist_keeps) | (with_reducible apply useCa_keeps) | (with_reducible apply rfmBoundary_keeps) | (with_reducible apply chargeCmd_keeps) | (with_reducible apply afterCol_keeps) | (with_reducible apply busStat_keeps) | (with_reducible apply issueWrite_keeps) | (fail_if_no_progress with_reducible apply Closed.other hP) | (dsimp only [-Nat.reducePow, Option.getD_some, Option.getD_none]) | (with_reducible apply ite_keeps) | split | (refine of_fst (by with_reducible assumption) ?_) | (refine of_snd (by with_reducible assumption) ?_) | (refine of_snd2 (by with_reducible assumption) ?_) | (refine of_mid (by with_reducible assumption) ?_) | (refine of_getD (s := s) (by with_reducible assumption) ?_))

theorem reissueCol_keeps {P : State → Prop} (hP : Closed P) (c : Fin 16) (x : Cmd) (b : Bank) (s : State) (hs0 : P s) : P (reissueCol c x b s) := by
  unfold reissueCol
  repeat' (first | (with_reducible assumption) | (intro _) | (with_reducible apply fbump_keeps) | (with_reducible apply updChan_keeps) | (with_reducible apply onlyIf_keeps) | (with_reducible apply advanceTo8_keeps) | (with_reducible apply pushHist_keeps) | (with_reducible apply useCa_keeps) | (with_reducible apply chargeCmd_keeps) | (with_reducible apply afterCol_keeps) | (with_reducible apply busStat_keeps) | (fail_if_no_progress with_reducible apply Closed.other hP) | (dsimp only [-Nat.reducePow, Option.getD_some, Option.getD_none]) | (with_reducible apply ite_keeps) | split | (refine of_fst (by with_reducible assumption) ?_) | (refine of_snd (by with_reducible assumption) ?_) | (refine of_snd2 (by with_reducible assumption) ?_) | (refine of_mid (by with_reducible assumption) ?_) | (refine of_getD (s := s) (by with_reducible assumption) ?_))

theorem issue_keeps {P : State → Prop} (hP : Closed P) (hD : ClosedDram P) (c : Fin 16) (pos : Nat) (s : State) (hs0 : P s) : P (issue c pos s) := by
  unfold issue
  repeat' (first | (with_reducible assumption) | (intro _) | (with_reducible apply rfmBoundary_keeps) | (with_reducible apply issueAct_keeps) | (with_reducible apply issuePre_keeps) | (with_reducible apply issueCol_keeps) | (with_reducible apply reissueCol_keeps) | (fail_if_no_progress with_reducible apply Closed.other hP) | (dsimp only [-Nat.reducePow, Option.getD_some, Option.getD_none]) | (with_reducible apply ite_keeps) | split | (refine of_fst (by with_reducible assumption) ?_) | (refine of_snd (by with_reducible assumption) ?_) | (refine of_snd2 (by with_reducible assumption) ?_) | (refine of_mid (by with_reducible assumption) ?_) | (refine of_getD (s := s) (by with_reducible assumption) ?_))

theorem inordOver_keeps {P : State → Prop} (hP : Closed P) (c : Fin 16) (s : State) (hs0 : P s) : P (inordOver c s) := by
  unfold inordOver
  repeat' (first | (with_reducible assumption) | (intro _) | (with_reducible apply endInord_keeps) | (fail_if_no_progress with_reducible apply Closed.other hP) | (dsimp only [-Nat.reducePow, Option.getD_some, Option.getD_none]) | (with_reducible apply ite_keeps) | split | (refine of_fst (by with_reducible assumption) ?_) | (refine of_snd (by with_reducible assumption) ?_) | (refine of_snd2 (by with_reducible assumption) ?_) | (refine of_mid (by with_reducible assumption) ?_) | (refine of_getD (s := s) (by with_reducible assumption) ?_))

theorem closeWindow_keeps {P : State → Prop} (hP : Closed P) (hS : ClosedStrm P) (c : Fin 16) (s : State) (hs0 : P s) : P (closeWindow c s) := by
  unfold closeWindow
  repeat' (first | (with_reducible assumption) | (intro _) | (with_reducible apply updChan_keeps) | (with_reducible apply onlyIf_keeps) | (with_reducible apply advanceTo8_keeps) | (with_reducible apply writeDone_keeps) | (with_reducible apply rfmBoundary_keeps) | (with_reducible apply replayOver_keeps) | (with_reducible apply inordOver_keeps) | (fail_if_no_progress with_reducible apply Closed.other hP) | (dsimp only [-Nat.reducePow, Option.getD_some, Option.getD_none]) | (with_reducible apply ite_keeps) | split | (refine of_fst (by with_reducible assumption) ?_) | (refine of_snd (by with_reducible assumption) ?_) | (refine of_snd2 (by with_reducible assumption) ?_) | (refine of_mid (by with_reducible assumption) ?_) | (refine of_getD (s := s) (by with_reducible assumption) ?_))

theorem copyBack_keeps {P : State → Prop} (hP : Closed P) (hD : ClosedDram P) (c : Fin 16) (x : Cmd) (l : Option (Line × Bool)) (s : State) (hs0 : P s) : P (copyBack c x l s) := by
  unfold copyBack
  repeat' (first | (with_reducible assumption) | (intro _) | (with_reducible apply setDram_keeps) | (with_reducible apply batchDone_keeps) | (with_reducible apply coverPatrol_keeps) | (fail_if_no_progress with_reducible apply Closed.other hP) | (dsimp only [-Nat.reducePow, Option.getD_some, Option.getD_none]) | (with_reducible apply ite_keeps) | split | (refine of_fst (by with_reducible assumption) ?_) | (refine of_snd (by with_reducible assumption) ?_) | (refine of_snd2 (by with_reducible assumption) ?_) | (refine of_mid (by with_reducible assumption) ?_) | (refine of_getD (s := s) (by with_reducible assumption) ?_))

theorem burstData_keeps {P : State → Prop} (hP : Closed P) (hS : ClosedStrm P) (hD : ClosedDram P) (hW : ClosedWay P) (c : Fin 16) (x : Cmd) (l : Option (Line × Bool)) (s : State) (hs0 : P s) : P (burstData c x l s) := by
  unfold burstData
  repeat' (first | (with_reducible assumption) | (intro _) | (with_reducible apply readDone_keeps) | (with_reducible apply scrubBack_keeps) | (with_reducible apply spareBack_keeps) | (with_reducible apply copyBack_keeps) | (fail_if_no_progress with_reducible apply Closed.other hP) | (dsimp only [-Nat.reducePow, Option.getD_some, Option.getD_none]) | (with_reducible apply ite_keeps) | split | (refine of_fst (by with_reducible assumption) ?_) | (refine of_snd (by with_reducible assumption) ?_) | (refine of_snd2 (by with_reducible assumption) ?_) | (refine of_mid (by with_reducible assumption) ?_) | (refine of_getD (s := s) (by with_reducible assumption) ?_))

theorem frontLine_keeps {P : State → Prop} (hP : Closed P) (c : Fin 16) (x : Cmd) (s : State) (hs0 : P s) : P (frontLine c x s) := by
  unfold frontLine
  repeat' (first | (with_reducible assumption) | (intro _) | (with_reducible apply updChan_keeps) | (with_reducible apply fillStat_keeps) | (with_reducible apply exitPd_keeps) | (fail_if_no_progress with_reducible apply Closed.other hP) | (dsimp only [-Nat.reducePow, Option.getD_some, Option.getD_none]) | (with_reducible apply ite_keeps) | split | (refine of_fst (by with_reducible assumption) ?_) | (refine of_snd (by with_reducible assumption) ?_) | (refine of_snd2 (by with_reducible assumption) ?_) | (refine of_mid (by with_reducible assumption) ?_) | (refine of_getD (s := s) (by with_reducible assumption) ?_))

theorem poisonLine_keeps {P : State → Prop} (hP : Closed P) (c : Fin 16) (x : Cmd) (later : Bool) (s : State) (hs0 : P s) : P (poisonLine c x later s) := by
  unfold poisonLine
  repeat' (first | (with_reducible assumption) | (intro _) | (with_reducible apply ueLine_keeps) | (with_reducible apply frontLine_keeps) | (fail_if_no_progress with_reducible apply Closed.other hP) | (dsimp only [-Nat.reducePow, Option.getD_some, Option.getD_none]) | (with_reducible apply ite_keeps) | split | (refine of_fst (by with_reducible assumption) ?_) | (refine of_snd (by with_reducible assumption) ?_) | (refine of_snd2 (by with_reducible assumption) ?_) | (refine of_mid (by with_reducible assumption) ?_) | (refine of_getD (s := s) (by with_reducible assumption) ?_))

theorem burstDec_keeps {P : State → Prop} (hP : Closed P) (hS : ClosedStrm P) (hD : ClosedDram P) (hW : ClosedWay P) (c : Fin 16) (x : Cmd) (d : Dec) (l : Line) (behind : Bool) (later : Bool) (again : List SymErr) (s : State) (hs0 : P s) : P (burstDec c x d l behind later again s) := by
  unfold burstDec
  repeat' (first | (with_reducible assumption) | (intro _) | (with_reducible apply onlyIf_keeps) | (with_reducible apply redirect_keeps) | (with_reducible apply ueSeen_keeps) | (with_reducible apply rereadGood_keeps) | (with_reducible apply burstData_keeps) | (with_reducible apply frontLine_keeps) | (with_reducible apply poisonLine_keeps) | (fail_if_no_progress with_reducible apply Closed.other hP) | (dsimp only [-Nat.reducePow, Option.getD_some, Option.getD_none]) | (with_reducible apply ite_keeps) | split | (refine of_fst (by with_reducible assumption) ?_) | (refine of_snd (by with_reducible assumption) ?_) | (refine of_snd2 (by with_reducible assumption) ?_) | (refine of_mid (by with_reducible assumption) ?_) | (refine of_getD (s := s) (by with_reducible assumption) ?_))

theorem burst_keeps {P : State → Prop} (hP : Closed P) (hI : ClosedIx P) (hS : ClosedStrm P) (hD : ClosedDram P) (hW : ClosedWay P) (c : Fin 16) (sym : List SymErr) (again : List SymErr) (s : State) (hs0 : P s) : P (burst c sym again s) := by
  unfold burst
  repeat' (first | (with_reducible assumption) | (intro _) | (with_reducible apply updChan_keeps) | (with_reducible apply advanceTo8_keeps) | (with_reducible apply readDone_keeps) | (with_reducible apply redirect_keeps) | (with_reducible apply countDec_keeps) | (with_reducible apply uncharged_keeps) | (with_reducible apply burstDec_keeps) | (with_reducible apply optMap_keeps) | (with_reducible apply optGet_keeps) | (fail_if_no_progress with_reducible apply Closed.other hP) | (dsimp only [-Nat.reducePow, Option.getD_some, Option.getD_none]) | (with_reducible apply ite_keeps) | split | (refine of_fst (by with_reducible assumption) ?_) | (refine of_snd (by with_reducible assumption) ?_) | (refine of_snd2 (by with_reducible assumption) ?_) | (refine of_mid (by with_reducible assumption) ?_) | (refine of_getD (s := s) (by with_reducible assumption) ?_))

theorem bgPay_keeps {P : State → Prop} (hP : Closed P) (s : State) (c : Fin 16) (k : BgCls) (hs0 : P s) : ∀ s0, P s0 → P ((bgPay s c k).getD s0) := by
  unfold bgPay
  repeat' (first | (with_reducible assumption) | (intro _) | (with_reducible apply updChan_keeps) | (with_reducible apply optMap_keeps) | (with_reducible apply optGet_keeps) | (fail_if_no_progress with_reducible apply Closed.other hP) | (dsimp only [-Nat.reducePow, Option.getD_some, Option.getD_none]) | (with_reducible apply ite_keeps) | split | (refine of_fst (by with_reducible assumption) ?_) | (refine of_snd (by with_reducible assumption) ?_) | (refine of_snd2 (by with_reducible assumption) ?_) | (refine of_mid (by with_reducible assumption) ?_) | (refine of_getD (s := s) (by with_reducible assumption) ?_))

theorem bgStart_keeps {P : State → Prop} (hP : Closed P) (hW : ClosedWay P) (x : Cmd) (s : State) (hs0 : P s) : P (bgStart x s) := by
  unfold bgStart
  repeat' (first | (with_reducible assumption) | (intro _) | (with_reducible apply updFrame_keeps) | (with_reducible apply markStale_keeps) | (with_reducible apply chargeFor_keeps) | (fail_if_no_progress with_reducible apply Closed.other hP) | (dsimp only [-Nat.reducePow, Option.getD_some, Option.getD_none]) | (with_reducible apply ite_keeps) | split | (refine of_fst (by with_reducible assumption) ?_) | (refine of_snd (by with_reducible assumption) ?_) | (refine of_snd2 (by with_reducible assumption) ?_) | (refine of_mid (by with_reducible assumption) ?_) | (refine of_getD (s := s) (by with_reducible assumption) ?_))

theorem wbRead_keeps {P : State → Prop} (hP : Closed P) (hD : ClosedDram P) (c : Fin 16) (x : Cmd) (ecc : LineEcc) (s : State) (hs0 : P s) : P (wbRead c x ecc s) := by
  unfold wbRead
  repeat' (first | (with_reducible assumption) | (intro _) | (with_reducible apply fbump_keeps) | (with_reducible apply onlyIf_keeps) | (with_reducible apply updFrame_keeps) | (with_reducible apply setQfr_keeps) | (with_reducible apply copyEcc_keeps) | (fail_if_no_progress with_reducible apply Closed.other hP) | (dsimp only [-Nat.reducePow, Option.getD_some, Option.getD_none]) | (with_reducible apply ite_keeps) | split | (refine of_fst (by with_reducible assumption) ?_) | (refine of_snd (by with_reducible assumption) ?_) | (refine of_snd2 (by with_reducible assumption) ?_) | (refine of_mid (by with_reducible assumption) ?_) | (refine of_getD (s := s) (by with_reducible assumption) ?_))

theorem bgGrant_keeps {P : State → Prop} (hP : Closed P) (hA : ClosedAcct P) (hD : ClosedDram P) (hW : ClosedWay P) (c : Fin 16) (idx : Nat) (ecc : LineEcc) (s : State) (hs0 : P s) : P (bgGrant c idx ecc s) := by
  unfold bgGrant
  repeat' (first | (with_reducible assumption) | (intro _) | (with_reducible apply updChan_keeps) | (with_reducible apply chargeLine_keeps) | (with_reducible apply spendAllow_keeps) | (with_reducible apply takeBg_keeps) | (with_reducible apply bgPay_keeps) | (with_reducible apply bgStart_keeps) | (with_reducible apply wbRead_keeps) | (fail_if_no_progress with_reducible apply Closed.other hP) | (dsimp only [-Nat.reducePow, Option.getD_some, Option.getD_none]) | (with_reducible apply ite_keeps) | split | (refine of_fst (by with_reducible assumption) ?_) | (refine of_snd (by with_reducible assumption) ?_) | (refine of_snd2 (by with_reducible assumption) ?_) | (refine of_mid (by with_reducible assumption) ?_) | (refine of_getD (s := s) (by with_reducible assumption) ?_))

theorem loadProfile_keeps {P : State → Prop} (hP : Closed P) (c : Fin 16) (k : Nat) (s : State) (hs0 : P s) : P (loadProfile c k s) := by
  unfold loadProfile
  repeat' (first | (with_reducible assumption) | (intro _) | (with_reducible apply fset_keeps) | (with_reducible apply forAll_keeps) | (fail_if_no_progress with_reducible apply Closed.other hP) | (dsimp only [-Nat.reducePow, Option.getD_some, Option.getD_none]) | (with_reducible apply ite_keeps) | split | (refine of_fst (by with_reducible assumption) ?_) | (refine of_snd (by with_reducible assumption) ?_) | (refine of_snd2 (by with_reducible assumption) ?_) | (refine of_mid (by with_reducible assumption) ?_) | (refine of_getD (s := s) (by with_reducible assumption) ?_))

theorem profileCmd_keeps {P : State → Prop} (hP : Closed P) (c : Fin 16) (s : State) (hs0 : P s) : P (profileCmd c s) := by
  unfold profileCmd
  repeat' (first | (with_reducible assumption) | (intro _) | (with_reducible apply fset_keeps) | (with_reducible apply loadProfile_keeps) | (fail_if_no_progress with_reducible apply Closed.other hP) | (dsimp only [-Nat.reducePow, Option.getD_some, Option.getD_none]) | (with_reducible apply ite_keeps) | split | (refine of_fst (by with_reducible assumption) ?_) | (refine of_snd (by with_reducible assumption) ?_) | (refine of_snd2 (by with_reducible assumption) ?_) | (refine of_mid (by with_reducible assumption) ?_) | (refine of_getD (s := s) (by with_reducible assumption) ?_))

theorem execCommandAdmission_keeps {P : State → Prop} (hP : Closed P) (hI : ClosedIx P) (hS : ClosedStrm P) (hA : ClosedAcct P) (hD : ClosedDram P) (hW : ClosedWay P) (ch : ChPick) (s : State) (hs0 : P s) : ∀ out, execCommandAdmission ch s = .next out → P out := by
  unfold execCommandAdmission
  intro out hout
  obtain rfl := Host.Outcome.next.inj hout
  repeat' (first | (with_reducible assumption) | (intro _) | (with_reducible apply settle_keeps) | (with_reducible apply actAll_keeps) | (with_reducible apply admission_keeps) | (fail_if_no_progress with_reducible apply Closed.other hP) | (dsimp only [-Nat.reducePow, Option.getD_some, Option.getD_none]) | (with_reducible apply ite_keeps) | split | (refine of_fst (by with_reducible assumption) ?_) | (refine of_snd (by with_reducible assumption) ?_) | (refine of_snd2 (by with_reducible assumption) ?_) | (refine of_mid (by with_reducible assumption) ?_) | (refine of_getD (s := s) (by with_reducible assumption) ?_))

theorem execCommandIssue_keeps {P : State → Prop} (hP : Closed P) (hI : ClosedIx P) (hS : ClosedStrm P) (hA : ClosedAcct P) (hD : ClosedDram P) (hW : ClosedWay P) (ch : Fin 16) (pos : Pick) (s : State) (hs0 : P s) : ∀ out, execCommandIssue ch pos s = .next out → P out := by
  unfold execCommandIssue
  intro out hout
  obtain rfl := Host.Outcome.next.inj hout
  repeat' (first | (with_reducible assumption) | (intro _) | (with_reducible apply settle_keeps) | (with_reducible apply actAll_keeps) | (with_reducible apply issue_keeps) | (fail_if_no_progress with_reducible apply Closed.other hP) | (dsimp only [-Nat.reducePow, Option.getD_some, Option.getD_none]) | (with_reducible apply ite_keeps) | split | (refine of_fst (by with_reducible assumption) ?_) | (refine of_snd (by with_reducible assumption) ?_) | (refine of_snd2 (by with_reducible assumption) ?_) | (refine of_mid (by with_reducible assumption) ?_) | (refine of_getD (s := s) (by with_reducible assumption) ?_))

theorem execBurstDecode_keeps {P : State → Prop} (hP : Closed P) (hI : ClosedIx P) (hS : ClosedStrm P) (hA : ClosedAcct P) (hD : ClosedDram P) (hW : ClosedWay P) (ch : Fin 16) (sym : List SymErr) (again : List SymErr) (errs : List JournalErr) (s : State) (hs0 : P s) : ∀ out, execBurstDecode ch sym again errs s = .next out → P out := by
  unfold execBurstDecode
  intro out hout
  obtain rfl := Host.Outcome.next.inj hout
  repeat' (first | (with_reducible assumption) | (intro _) | (with_reducible apply settle_keeps) | (with_reducible apply actAll_keeps) | (with_reducible apply burst_keeps) | (fail_if_no_progress with_reducible apply Closed.other hP) | (dsimp only [-Nat.reducePow, Option.getD_some, Option.getD_none]) | (with_reducible apply ite_keeps) | split | (refine of_fst (by with_reducible assumption) ?_) | (refine of_snd (by with_reducible assumption) ?_) | (refine of_snd2 (by with_reducible assumption) ?_) | (refine of_mid (by with_reducible assumption) ?_) | (refine of_getD (s := s) (by with_reducible assumption) ?_))

theorem execAlertWindowClose_keeps {P : State → Prop} (hP : Closed P) (hI : ClosedIx P) (hS : ClosedStrm P) (hA : ClosedAcct P) (hD : ClosedDram P) (hW : ClosedWay P) (ch : Fin 16) (errs : List JournalErr) (s : State) (hs0 : P s) : ∀ out, execAlertWindowClose ch errs s = .next out → P out := by
  unfold execAlertWindowClose
  intro out hout
  obtain rfl := Host.Outcome.next.inj hout
  repeat' (first | (with_reducible assumption) | (intro _) | (with_reducible apply settle_keeps) | (with_reducible apply actAll_keeps) | (with_reducible apply closeWindow_keeps) | (fail_if_no_progress with_reducible apply Closed.other hP) | (dsimp only [-Nat.reducePow, Option.getD_some, Option.getD_none]) | (with_reducible apply ite_keeps) | split | (refine of_fst (by with_reducible assumption) ?_) | (refine of_snd (by with_reducible assumption) ?_) | (refine of_snd2 (by with_reducible assumption) ?_) | (refine of_mid (by with_reducible assumption) ?_) | (refine of_getD (s := s) (by with_reducible assumption) ?_))

theorem execBackgroundGrant_keeps {P : State → Prop} (hP : Closed P) (hA : ClosedAcct P) (hD : ClosedDram P) (hW : ClosedWay P) (ch : Fin 16) (req : BgPick) (s : State) (hs0 : P s) : ∀ out, execBackgroundGrant ch req s = .next out → P out := by
  unfold execBackgroundGrant
  intro out hout
  obtain rfl := Host.Outcome.next.inj hout
  repeat' (first | (with_reducible assumption) | (intro _) | (with_reducible apply bgGrant_keeps) | (fail_if_no_progress with_reducible apply Closed.other hP) | (dsimp only [-Nat.reducePow, Option.getD_some, Option.getD_none]) | (with_reducible apply ite_keeps) | split | (refine of_fst (by with_reducible assumption) ?_) | (refine of_snd (by with_reducible assumption) ?_) | (refine of_snd2 (by with_reducible assumption) ?_) | (refine of_mid (by with_reducible assumption) ?_) | (refine of_getD (s := s) (by with_reducible assumption) ?_))

theorem execLoadTimingProfile_keeps {P : State → Prop} (hP : Closed P) (ch : Fin 16) (s : State) (hs0 : P s) : ∀ out, execLoadTimingProfile ch s = .next out → P out := by
  unfold execLoadTimingProfile
  intro out hout
  obtain rfl := Host.Outcome.next.inj hout
  repeat' (first | (with_reducible assumption) | (intro _) | (with_reducible apply busWr_keeps) | (with_reducible apply profileCmd_keeps) | (fail_if_no_progress with_reducible apply Closed.other hP) | (dsimp only [-Nat.reducePow, Option.getD_some, Option.getD_none]) | (with_reducible apply ite_keeps) | split | (refine of_fst (by with_reducible assumption) ?_) | (refine of_snd (by with_reducible assumption) ?_) | (refine of_snd2 (by with_reducible assumption) ?_) | (refine of_mid (by with_reducible assumption) ?_) | (refine of_getD (s := s) (by with_reducible assumption) ?_))

end Sys2Proof.Laws
end

