-- ==== Sys2Proof/Laws/KWay.lean ====
section
/-! SUPPORT. The operations of Machine/Way.lean keep every property closed under the writers that they reach. -/

namespace Sys2Proof.Laws
open Sys2Proof.Machine

set_option linter.unreachableTactic false
set_option linter.unusedTactic false
set_option linter.unusedVariables false

theorem retireTier_keeps {P : State → Prop} (hP : Closed P) (f : Nat) (s : State) (hs0 : P s) : P (retireTier f s) := by
  unfold retireTier
  repeat' (first | (with_reducible assumption) | (intro _) | (with_reducible apply fset_keeps) | (with_reducible apply fbump_keeps) | (with_reducible apply emit_keeps) | (with_reducible apply setFrame_keeps) | (fail_if_no_progress with_reducible apply Closed.other hP) | (dsimp only [-Nat.reducePow, Option.getD_some, Option.getD_none]) | (with_reducible apply ite_keeps) | split | (refine of_fst (by with_reducible assumption) ?_) | (refine of_snd (by with_reducible assumption) ?_) | (refine of_snd2 (by with_reducible assumption) ?_) | (refine of_mid (by with_reducible assumption) ?_) | (refine of_getD (s := s) (by with_reducible assumption) ?_))

theorem retirePin_keeps {P : State → Prop} (hP : Closed P) (f : Nat) (s : State) (hs0 : P s) : P (retirePin f s) := by
  unfold retirePin
  repeat' (first | (with_reducible assumption) | (intro _) | (with_reducible apply fbump_keeps) | (with_reducible apply emit_keeps) | (with_reducible apply setFrame_keeps) | (fail_if_no_progress with_reducible apply Closed.other hP) | (dsimp only [-Nat.reducePow, Option.getD_some, Option.getD_none]) | (with_reducible apply ite_keeps) | split | (refine of_fst (by with_reducible assumption) ?_) | (refine of_snd (by with_reducible assumption) ?_) | (refine of_snd2 (by with_reducible assumption) ?_) | (refine of_mid (by with_reducible assumption) ?_) | (refine of_getD (s := s) (by with_reducible assumption) ?_))

theorem pinStat_keeps {P : State → Prop} (hP : Closed P) (k : Fin 16) (s : State) (hs0 : P s) : P (pinStat k s) := by
  unfold pinStat
  repeat' (first | (with_reducible assumption) | (intro _) | (with_reducible apply optMap_keeps) | (with_reducible apply optGet_keeps) | (fail_if_no_progress with_reducible apply Closed.other hP) | (dsimp only [-Nat.reducePow, Option.getD_some, Option.getD_none]) | (with_reducible apply ite_keeps) | split | (refine of_fst (by with_reducible assumption) ?_) | (refine of_snd (by with_reducible assumption) ?_) | (refine of_snd2 (by with_reducible assumption) ?_) | (refine of_mid (by with_reducible assumption) ?_) | (refine of_getD (s := s) (by with_reducible assumption) ?_))

theorem pinNext_keeps {P : State → Prop} (hP : Closed P) (hW : ClosedWay P) (seg : Nat) (s : State) (hs0 : P s) : P (pinNext seg s) := by
  unfold pinNext
  repeat' (first | (with_reducible assumption) | (intro _) | (with_reducible apply startFill_keeps) | (fail_if_no_progress with_reducible apply Closed.other hP) | (dsimp only [-Nat.reducePow, Option.getD_some, Option.getD_none]) | (with_reducible apply ite_keeps) | split | (refine of_fst (by with_reducible assumption) ?_) | (refine of_snd (by with_reducible assumption) ?_) | (refine of_snd2 (by with_reducible assumption) ?_) | (refine of_mid (by with_reducible assumption) ?_) | (refine of_getD (s := s) (by with_reducible assumption) ?_))

theorem killFills_keeps {P : State → Prop} (hP : Closed P) (pinned : Bool) (f : Nat) (s : State) (hs0 : P s) : P (killFills pinned f s) := by
  unfold killFills
  repeat' (first | (with_reducible assumption) | (intro _) | (with_reducible apply optMap_keeps) | (with_reducible apply optGet_keeps) | (fail_if_no_progress with_reducible apply Closed.other hP) | (dsimp only [-Nat.reducePow, Option.getD_some, Option.getD_none]) | (with_reducible apply ite_keeps) | split | (refine of_fst (by with_reducible assumption) ?_) | (refine of_snd (by with_reducible assumption) ?_) | (refine of_snd2 (by with_reducible assumption) ?_) | (refine of_mid (by with_reducible assumption) ?_) | (refine of_getD (s := s) (by with_reducible assumption) ?_))

theorem moveHeld_keeps {P : State → Prop} (hP : Closed P) (seg : Nat) (s : State) (hs0 : P s) : P (moveHeld seg s) := by
  unfold moveHeld
  repeat' (first | (with_reducible assumption) | (intro _) | (with_reducible apply updArb_keeps) | (with_reducible apply forAll_keeps) | (fail_if_no_progress with_reducible apply Closed.other hP) | (dsimp only [-Nat.reducePow, Option.getD_some, Option.getD_none]) | (with_reducible apply ite_keeps) | split | (refine of_fst (by with_reducible assumption) ?_) | (refine of_snd (by with_reducible assumption) ?_) | (refine of_snd2 (by with_reducible assumption) ?_) | (refine of_mid (by with_reducible assumption) ?_) | (refine of_getD (s := s) (by with_reducible assumption) ?_))

theorem freeFrame_keeps {P : State → Prop} (hP : Closed P) (hW : ClosedWay P) (pinned : Bool) (f : Nat) (s : State) (hs0 : P s) : P (freeFrame pinned f s) := by
  unfold freeFrame
  repeat' (first | (with_reducible assumption) | (intro _) | (with_reducible apply onlyIf_keeps) | (with_reducible apply setFrame_keeps) | (with_reducible apply startFill_keeps) | (with_reducible apply retireTier_keeps) | (with_reducible apply retirePin_keeps) | (with_reducible apply pinStat_keeps) | (with_reducible apply pinNext_keeps) | (with_reducible apply killFills_keeps) | (with_reducible apply moveHeld_keeps) | (fail_if_no_progress with_reducible apply Closed.other hP) | (dsimp only [-Nat.reducePow, Option.getD_some, Option.getD_none]) | (with_reducible apply ite_keeps) | split | (refine of_fst (by with_reducible assumption) ?_) | (refine of_snd (by with_reducible assumption) ?_) | (refine of_snd2 (by with_reducible assumption) ?_) | (refine of_mid (by with_reducible assumption) ?_) | (refine of_getD (s := s) (by with_reducible assumption) ?_))

theorem promotionComplete_keeps {P : State → Prop} (hP : Closed P) (pinned : Bool) (f : Nat) (s : State) (hs0 : P s) : P (promotionComplete pinned f s) := by
  unfold promotionComplete
  repeat' (first | (with_reducible assumption) | (intro _) | (with_reducible apply fbump_keeps) | (with_reducible apply setFrame_keeps) | (with_reducible apply pinStat_keeps) | (fail_if_no_progress with_reducible apply Closed.other hP) | (dsimp only [-Nat.reducePow, Option.getD_some, Option.getD_none]) | (with_reducible apply ite_keeps) | split | (refine of_fst (by with_reducible assumption) ?_) | (refine of_snd (by with_reducible assumption) ?_) | (refine of_snd2 (by with_reducible assumption) ?_) | (refine of_mid (by with_reducible assumption) ?_) | (refine of_getD (s := s) (by with_reducible assumption) ?_))

theorem restartDemote_keeps {P : State → Prop} (hP : Closed P) (pinned : Bool) (f : Nat) (i : Nat) (s : State) (hs0 : P s) : P (restartDemote pinned f i s) := by
  unfold restartDemote
  repeat' (first | (with_reducible assumption) | (intro _) | (with_reducible apply setFrame_keeps) | (with_reducible apply pushWb_keeps) | (fail_if_no_progress with_reducible apply Closed.other hP) | (dsimp only [-Nat.reducePow, Option.getD_some, Option.getD_none]) | (with_reducible apply ite_keeps) | split | (refine of_fst (by with_reducible assumption) ?_) | (refine of_snd (by with_reducible assumption) ?_) | (refine of_snd2 (by with_reducible assumption) ?_) | (refine of_mid (by with_reducible assumption) ?_) | (refine of_getD (s := s) (by with_reducible assumption) ?_))

theorem migrationEpoch_keeps {P : State → Prop} (hP : Closed P) (hW : ClosedWay P) (s : State) (hs0 : P s) : P (migrationEpoch s) := by
  unfold migrationEpoch
  repeat' (first | (with_reducible assumption) | (intro _) | (with_reducible apply forAll_keeps) | (with_reducible apply advanceToNs_keeps) | (with_reducible apply updFrame_keeps) | (with_reducible apply startDemote_keeps) | (with_reducible apply freeFrame_keeps) | (with_reducible apply optMap_keeps) | (with_reducible apply optGet_keeps) | (fail_if_no_progress with_reducible apply Closed.other hP) | (dsimp only [-Nat.reducePow, Option.getD_some, Option.getD_none]) | (with_reducible apply ite_keeps) | split | (refine of_fst (by with_reducible assumption) ?_) | (refine of_snd (by with_reducible assumption) ?_) | (refine of_snd2 (by with_reducible assumption) ?_) | (refine of_mid (by with_reducible assumption) ?_) | (refine of_getD (s := s) (by with_reducible assumption) ?_))

theorem layoutCommit_keeps {P : State → Prop} (hP : Closed P) (s : State) (hs0 : P s) : P (layoutCommit s) := by
  unfold layoutCommit
  repeat' (first | (with_reducible assumption) | (intro _) | (with_reducible apply fset_keeps) | (with_reducible apply queStat_keeps) | (with_reducible apply cycBegin_keeps) | (fail_if_no_progress with_reducible apply Closed.other hP) | (dsimp only [-Nat.reducePow, Option.getD_some, Option.getD_none]) | (with_reducible apply ite_keeps) | split | (refine of_fst (by with_reducible assumption) ?_) | (refine of_snd (by with_reducible assumption) ?_) | (refine of_snd2 (by with_reducible assumption) ?_) | (refine of_mid (by with_reducible assumption) ?_) | (refine of_getD (s := s) (by with_reducible assumption) ?_))

theorem carveWrite_keeps {P : State → Prop} (hP : Closed P) (v : Word) (s : State) (hs0 : P s) : P (carveWrite v s) := by
  unfold carveWrite
  repeat' (first | (with_reducible assumption) | (intro _) | (with_reducible apply fset_keeps) | (fail_if_no_progress with_reducible apply Closed.other hP) | (dsimp only [-Nat.reducePow, Option.getD_some, Option.getD_none]) | (with_reducible apply ite_keeps) | split | (refine of_fst (by with_reducible assumption) ?_) | (refine of_snd (by with_reducible assumption) ?_) | (refine of_snd2 (by with_reducible assumption) ?_) | (refine of_mid (by with_reducible assumption) ?_) | (refine of_getD (s := s) (by with_reducible assumption) ?_))

theorem pinSeg_keeps {P : State → Prop} (hP : Closed P) (hW : ClosedWay P) (k : Fin 16) (seg : Nat) (s : State) (hs0 : P s) : P (pinSeg k seg s) := by
  unfold pinSeg
  repeat' (first | (with_reducible assumption) | (intro _) | (with_reducible apply updFrame_keeps) | (with_reducible apply startFill_keeps) | (with_reducible apply startDemote_keeps) | (with_reducible apply freeFrame_keeps) | (fail_if_no_progress with_reducible apply Closed.other hP) | (dsimp only [-Nat.reducePow, Option.getD_some, Option.getD_none]) | (with_reducible apply ite_keeps) | split | (refine of_fst (by with_reducible assumption) ?_) | (refine of_snd (by with_reducible assumption) ?_) | (refine of_snd2 (by with_reducible assumption) ?_) | (refine of_mid (by with_reducible assumption) ?_) | (refine of_getD (s := s) (by with_reducible assumption) ?_))

theorem pinRefill_keeps {P : State → Prop} (hP : Closed P) (hW : ClosedWay P) (s : State) (hs0 : P s) : P (pinRefill s) := by
  unfold pinRefill
  repeat' (first | (with_reducible assumption) | (intro _) | (with_reducible apply forAll_keeps) | (with_reducible apply pinStat_keeps) | (with_reducible apply pinSeg_keeps) | (fail_if_no_progress with_reducible apply Closed.other hP) | (dsimp only [-Nat.reducePow, Option.getD_some, Option.getD_none]) | (with_reducible apply ite_keeps) | split | (refine of_fst (by with_reducible assumption) ?_) | (refine of_snd (by with_reducible assumption) ?_) | (refine of_snd2 (by with_reducible assumption) ?_) | (refine of_mid (by with_reducible assumption) ?_) | (refine of_getD (s := s) (by with_reducible assumption) ?_))

theorem pinEnable_keeps {P : State → Prop} (hP : Closed P) (hW : ClosedWay P) (k : Fin 16) (s : State) (hs0 : P s) : P (pinEnable k s) := by
  unfold pinEnable
  repeat' (first | (with_reducible assumption) | (intro _) | (with_reducible apply fset_keeps) | (with_reducible apply forAll_keeps) | (with_reducible apply pinStat_keeps) | (with_reducible apply pinSeg_keeps) | (fail_if_no_progress with_reducible apply Closed.other hP) | (dsimp only [-Nat.reducePow, Option.getD_some, Option.getD_none]) | (with_reducible apply ite_keeps) | split | (refine of_fst (by with_reducible assumption) ?_) | (refine of_snd (by with_reducible assumption) ?_) | (refine of_snd2 (by with_reducible assumption) ?_) | (refine of_mid (by with_reducible assumption) ?_) | (refine of_getD (s := s) (by with_reducible assumption) ?_))

theorem pinDisable_keeps {P : State → Prop} (hP : Closed P) (hW : ClosedWay P) (k : Fin 16) (s : State) (hs0 : P s) : P (pinDisable k s) := by
  unfold pinDisable
  repeat' (first | (with_reducible assumption) | (intro _) | (with_reducible apply forAll_keeps) | (with_reducible apply startDemote_keeps) | (with_reducible apply pinStat_keeps) | (with_reducible apply freeFrame_keeps) | (fail_if_no_progress with_reducible apply Closed.other hP) | (dsimp only [-Nat.reducePow, Option.getD_some, Option.getD_none]) | (with_reducible apply ite_keeps) | split | (refine of_fst (by with_reducible assumption) ?_) | (refine of_snd (by with_reducible assumption) ?_) | (refine of_snd2 (by with_reducible assumption) ?_) | (refine of_mid (by with_reducible assumption) ?_) | (refine of_getD (s := s) (by with_reducible assumption) ?_))

theorem pinAgain_keeps {P : State → Prop} (hP : Closed P) (hW : ClosedWay P) (k : Fin 16) (seg : Nat) (s : State) (hs0 : P s) : P (pinAgain k seg s) := by
  unfold pinAgain
  repeat' (first | (with_reducible assumption) | (intro _) | (with_reducible apply startFill_keeps) | (with_reducible apply pinStat_keeps) | (with_reducible apply pinDisable_keeps) | (fail_if_no_progress with_reducible apply Closed.other hP) | (dsimp only [-Nat.reducePow, Option.getD_some, Option.getD_none]) | (with_reducible apply ite_keeps) | split | (refine of_fst (by with_reducible assumption) ?_) | (refine of_snd (by with_reducible assumption) ?_) | (refine of_snd2 (by with_reducible assumption) ?_) | (refine of_mid (by with_reducible assumption) ?_) | (refine of_getD (s := s) (by with_reducible assumption) ?_))

theorem demotionComplete_keeps {P : State → Prop} (hP : Closed P) (hW : ClosedWay P) (pinned : Bool) (f : Nat) (s : State) (hs0 : P s) : P (demotionComplete pinned f s) := by
  unfold demotionComplete
  repeat' (first | (with_reducible assumption) | (intro _) | (with_reducible apply fbump_keeps) | (with_reducible apply onlyIf_keeps) | (with_reducible apply freeFrame_keeps) | (with_reducible apply pinAgain_keeps) | (fail_if_no_progress with_reducible apply Closed.other hP) | (dsimp only [-Nat.reducePow, Option.getD_some, Option.getD_none]) | (with_reducible apply ite_keeps) | split | (refine of_fst (by with_reducible assumption) ?_) | (refine of_snd (by with_reducible assumption) ?_) | (refine of_snd2 (by with_reducible assumption) ?_) | (refine of_mid (by with_reducible assumption) ?_) | (refine of_getD (s := s) (by with_reducible assumption) ?_))

theorem frameUe_keeps {P : State → Prop} (hP : Closed P) (hW : ClosedWay P) (pinned : Bool) (f : Nat) (i : Nat) (s : State) (hs0 : P s) : P (frameUe pinned f i s) := by
  unfold frameUe
  repeat' (first | (with_reducible assumption) | (intro _) | (with_reducible apply fbump_keeps) | (with_reducible apply setFrame_keeps) | (with_reducible apply startFill_keeps) | (with_reducible apply startDemote_keeps) | (with_reducible apply pinDisable_keeps) | (fail_if_no_progress with_reducible apply Closed.other hP) | (dsimp only [-Nat.reducePow, Option.getD_some, Option.getD_none]) | (with_reducible apply ite_keeps) | split | (refine of_fst (by with_reducible assumption) ?_) | (refine of_snd (by with_reducible assumption) ?_) | (refine of_snd2 (by with_reducible assumption) ?_) | (refine of_mid (by with_reducible assumption) ?_) | (refine of_getD (s := s) (by with_reducible assumption) ?_))

theorem updWayOp_keeps {P : State → Prop} (hP : Closed P) (k : Nat) (f : WayOp → WayOp) (s : State) (hs0 : P s) : P (updWayOp k f s) := by
  unfold updWayOp
  repeat' (first | (with_reducible assumption) | (intro _) | (fail_if_no_progress with_reducible apply Closed.other hP) | (dsimp only [-Nat.reducePow, Option.getD_some, Option.getD_none]) | (with_reducible apply ite_keeps) | split | (refine of_fst (by with_reducible assumption) ?_) | (refine of_snd (by with_reducible assumption) ?_) | (refine of_snd2 (by with_reducible assumption) ?_) | (refine of_mid (by with_reducible assumption) ?_) | (refine of_getD (s := s) (by with_reducible assumption) ?_))

theorem askDram_keeps {P : State → Prop} (hP : Closed P) (k : Nat) (o : WayOp) (p : Place) (s : State) (hs0 : P s) : P (askDram k o p s) := by
  unfold askDram
  repeat' (first | (with_reducible assumption) | (intro _) | (with_reducible apply pushBg_keeps) | (with_reducible apply updWayOp_keeps) | (fail_if_no_progress with_reducible apply Closed.other hP) | (dsimp only [-Nat.reducePow, Option.getD_some, Option.getD_none]) | (with_reducible apply ite_keeps) | split | (refine of_fst (by with_reducible assumption) ?_) | (refine of_snd (by with_reducible assumption) ?_) | (refine of_snd2 (by with_reducible assumption) ?_) | (refine of_mid (by with_reducible assumption) ?_) | (refine of_getD (s := s) (by with_reducible assumption) ?_))

theorem frameRead_keeps {P : State → Prop} (hP : Closed P) (hW : ClosedWay P) (k : Nat) (o : WayOp) (ecc : LineEcc) (s : State) (hs0 : P s) : P (frameRead k o ecc s).2 := by
  unfold frameRead
  repeat' (first | (with_reducible assumption) | (intro _) | (with_reducible apply fbump_keeps) | (with_reducible apply charge_keeps) | (with_reducible apply frameUe_keeps) | (with_reducible apply askDram_keeps) | (fail_if_no_progress with_reducible apply Closed.other hP) | (dsimp only [-Nat.reducePow, Option.getD_some, Option.getD_none]) | (with_reducible apply ite_keeps) | split | (refine of_fst (by with_reducible assumption) ?_) | (refine of_snd (by with_reducible assumption) ?_) | (refine of_snd2 (by with_reducible assumption) ?_) | (refine of_mid (by with_reducible assumption) ?_) | (refine of_getD (s := s) (by with_reducible assumption) ?_))

theorem frameWrite_keeps {P : State → Prop} (hP : Closed P) (hW : ClosedWay P) (o : WayOp) (l : Line) (s : State) (hs0 : P s) : P (frameWrite o l s) := by
  unfold frameWrite
  repeat' (first | (with_reducible assumption) | (intro _) | (with_reducible apply onlyIf_keeps) | (with_reducible apply charge_keeps) | (with_reducible apply setWayLine_keeps) | (with_reducible apply setFrame_keeps) | (with_reducible apply wayStat_keeps) | (with_reducible apply pushWb_keeps) | (with_reducible apply wbHigh_keeps) | (with_reducible apply startDemote_keeps) | (with_reducible apply restartDemote_keeps) | (fail_if_no_progress with_reducible apply Closed.other hP) | (dsimp only [-Nat.reducePow, Option.getD_some, Option.getD_none]) | (with_reducible apply ite_keeps) | split | (refine of_fst (by with_reducible assumption) ?_) | (refine of_snd (by with_reducible assumption) ?_) | (refine of_snd2 (by with_reducible assumption) ?_) | (refine of_mid (by with_reducible assumption) ?_) | (refine of_getD (s := s) (by with_reducible assumption) ?_))

theorem dropCharge_keeps {P : State → Prop} (hP : Closed P) (o : WayOp) (s : State) (hs0 : P s) : P (dropCharge o s) := by
  unfold dropCharge
  repeat' (first | (with_reducible assumption) | (intro _) | (with_reducible apply setFrame_keeps) | (with_reducible apply wayStat_keeps) | (fail_if_no_progress with_reducible apply Closed.other hP) | (dsimp only [-Nat.reducePow, Option.getD_some, Option.getD_none]) | (with_reducible apply ite_keeps) | split | (refine of_fst (by with_reducible assumption) ?_) | (refine of_snd (by with_reducible assumption) ?_) | (refine of_snd2 (by with_reducible assumption) ?_) | (refine of_mid (by with_reducible assumption) ?_) | (refine of_getD (s := s) (by with_reducible assumption) ?_))

theorem wayWrite_keeps {P : State → Prop} (hP : Closed P) (hS : ClosedStrm P) (hW : ClosedWay P) (o : WayOp) (ring : Fin 16) (slot : Nat) (r : Line × Bool) (s : State) (hs0 : P s) : P (wayWrite o ring slot r s) := by
  unfold wayWrite
  repeat' (first | (with_reducible assumption) | (intro _) | (with_reducible apply updEntry_keeps) | (with_reducible apply servePoint_keeps) | (with_reducible apply homeDurable_keeps) | (with_reducible apply toRslt_keeps) | (with_reducible apply mergePoison_keeps) | (with_reducible apply frameWrite_keeps) | (with_reducible apply dropCharge_keeps) | (fail_if_no_progress with_reducible apply Closed.other hP) | (dsimp only [-Nat.reducePow, Option.getD_some, Option.getD_none]) | (with_reducible apply ite_keeps) | split | (refine of_fst (by with_reducible assumption) ?_) | (refine of_snd (by with_reducible assumption) ?_) | (refine of_snd2 (by with_reducible assumption) ?_) | (refine of_mid (by with_reducible assumption) ?_) | (refine of_getD (s := s) (by with_reducible assumption) ?_))

theorem wayRead_keeps {P : State → Prop} (hP : Closed P) (hS : ClosedStrm P) (o : WayOp) (r : Line × Bool) (s : State) (hs0 : P s) : P (wayRead o r s) := by
  unfold wayRead
  repeat' (first | (with_reducible assumption) | (intro _) | (with_reducible apply readValid_keeps) | (with_reducible apply walkBack_keeps) | (fail_if_no_progress with_reducible apply Closed.other hP) | (dsimp only [-Nat.reducePow, Option.getD_some, Option.getD_none]) | (with_reducible apply ite_keeps) | split | (refine of_fst (by with_reducible assumption) ?_) | (refine of_snd (by with_reducible assumption) ?_) | (refine of_snd2 (by with_reducible assumption) ?_) | (refine of_mid (by with_reducible assumption) ?_) | (refine of_getD (s := s) (by with_reducible assumption) ?_))

theorem opEnd_keeps {P : State → Prop} (hP : Closed P) (hS : ClosedStrm P) (hW : ClosedWay P) (idx : Nat) (o : WayOp) (r : Line × Bool) (s : State) (hs0 : P s) : P (opEnd idx o r s) := by
  unfold opEnd
  repeat' (first | (with_reducible assumption) | (intro _) | (with_reducible apply dropCharge_keeps) | (with_reducible apply wayWrite_keeps) | (with_reducible apply wayRead_keeps) | (fail_if_no_progress with_reducible apply Closed.other hP) | (dsimp only [-Nat.reducePow, Option.getD_some, Option.getD_none]) | (with_reducible apply ite_keeps) | split | (refine of_fst (by with_reducible assumption) ?_) | (refine of_snd (by with_reducible assumption) ?_) | (refine of_snd2 (by with_reducible assumption) ?_) | (refine of_mid (by with_reducible assumption) ?_) | (refine of_getD (s := s) (by with_reducible assumption) ?_))

theorem accessComplete_keeps {P : State → Prop} (hP : Closed P) (hS : ClosedStrm P) (hW : ClosedWay P) (idx : Nat) (ecc : LineEcc) (s : State) (hs0 : P s) : P (accessComplete idx ecc s) := by
  unfold accessComplete
  repeat' (first | (with_reducible assumption) | (intro _) | (with_reducible apply frameRead_keeps) | (with_reducible apply opEnd_keeps) | (fail_if_no_progress with_reducible apply Closed.other hP) | (dsimp only [-Nat.reducePow, Option.getD_some, Option.getD_none]) | (with_reducible apply ite_keeps) | split | (refine of_fst (by with_reducible assumption) ?_) | (refine of_snd (by with_reducible assumption) ?_) | (refine of_snd2 (by with_reducible assumption) ?_) | (refine of_mid (by with_reducible assumption) ?_) | (refine of_getD (s := s) (by with_reducible assumption) ?_))

theorem execWaystationAccessComplete_keeps {P : State → Prop} (hP : Closed P) (hI : ClosedIx P) (hS : ClosedStrm P) (hA : ClosedAcct P) (hD : ClosedDram P) (hW : ClosedWay P) (idx : Nat) (ecc : LineEcc) (errs : List JournalErr) (s : State) (hs0 : P s) : ∀ out, execWaystationAccessComplete idx ecc errs s = .next out → P out := by
  unfold execWaystationAccessComplete
  intro out hout
  obtain rfl := Host.Outcome.next.inj hout
  repeat' (first | (with_reducible assumption) | (intro _) | (with_reducible apply settle_keeps) | (with_reducible apply actAll_keeps) | (with_reducible apply accessComplete_keeps) | (fail_if_no_progress with_reducible apply Closed.other hP) | (dsimp only [-Nat.reducePow, Option.getD_some, Option.getD_none]) | (with_reducible apply ite_keeps) | split | (refine of_fst (by with_reducible assumption) ?_) | (refine of_snd (by with_reducible assumption) ?_) | (refine of_snd2 (by with_reducible assumption) ?_) | (refine of_mid (by with_reducible assumption) ?_) | (refine of_getD (s := s) (by with_reducible assumption) ?_))

theorem execPromotionComplete_keeps {P : State → Prop} (hP : Closed P) (pinned : Bool) (frame : Nat) (s : State) (hs0 : P s) : ∀ out, execPromotionComplete pinned frame s = .next out → P out := by
  unfold execPromotionComplete
  intro out hout
  obtain rfl := Host.Outcome.next.inj hout
  repeat' (first | (with_reducible assumption) | (intro _) | (with_reducible apply promotionComplete_keeps) | (fail_if_no_progress with_reducible apply Closed.other hP) | (dsimp only [-Nat.reducePow, Option.getD_some, Option.getD_none]) | (with_reducible apply ite_keeps) | split | (refine of_fst (by with_reducible assumption) ?_) | (refine of_snd (by with_reducible assumption) ?_) | (refine of_snd2 (by with_reducible assumption) ?_) | (refine of_mid (by with_reducible assumption) ?_) | (refine of_getD (s := s) (by with_reducible assumption) ?_))

theorem execDemotionComplete_keeps {P : State → Prop} (hP : Closed P) (hW : ClosedWay P) (pinned : Bool) (frame : Nat) (s : State) (hs0 : P s) : ∀ out, execDemotionComplete pinned frame s = .next out → P out := by
  unfold execDemotionComplete
  intro out hout
  obtain rfl := Host.Outcome.next.inj hout
  repeat' (first | (with_reducible assumption) | (intro _) | (with_reducible apply demotionComplete_keeps) | (fail_if_no_progress with_reducible apply Closed.other hP) | (dsimp only [-Nat.reducePow, Option.getD_some, Option.getD_none]) | (with_reducible apply ite_keeps) | split | (refine of_fst (by with_reducible assumption) ?_) | (refine of_snd (by with_reducible assumption) ?_) | (refine of_snd2 (by with_reducible assumption) ?_) | (refine of_mid (by with_reducible assumption) ?_) | (refine of_getD (s := s) (by with_reducible assumption) ?_))

theorem execMigrationEpoch_keeps {P : State → Prop} (hP : Closed P) (hW : ClosedWay P) (s : State) (hs0 : P s) : ∀ out, execMigrationEpoch s = .next out → P out := by
  unfold execMigrationEpoch
  intro out hout
  obtain rfl := Host.Outcome.next.inj hout
  repeat' (first | (with_reducible assumption) | (intro _) | (with_reducible apply migrationEpoch_keeps) | (fail_if_no_progress with_reducible apply Closed.other hP) | (dsimp only [-Nat.reducePow, Option.getD_some, Option.getD_none]) | (with_reducible apply ite_keeps) | split | (refine of_fst (by with_reducible assumption) ?_) | (refine of_snd (by with_reducible assumption) ?_) | (refine of_snd2 (by with_reducible assumption) ?_) | (refine of_mid (by with_reducible assumption) ?_) | (refine of_getD (s := s) (by with_reducible assumption) ?_))

theorem execLayoutCommit_keeps {P : State → Prop} (hP : Closed P) (s : State) (hs0 : P s) : ∀ out, execLayoutCommit s = .next out → P out := by
  unfold execLayoutCommit
  intro out hout
  obtain rfl := Host.Outcome.next.inj hout
  repeat' (first | (with_reducible assumption) | (intro _) | (with_reducible apply busWr_keeps) | (with_reducible apply afterClear_keeps) | (with_reducible apply layoutCommit_keeps) | (fail_if_no_progress with_reducible apply Closed.other hP) | (dsimp only [-Nat.reducePow, Option.getD_some, Option.getD_none]) | (with_reducible apply ite_keeps) | split | (refine of_fst (by with_reducible assumption) ?_) | (refine of_snd (by with_reducible assumption) ?_) | (refine of_snd2 (by with_reducible assumption) ?_) | (refine of_mid (by with_reducible assumption) ?_) | (refine of_getD (s := s) (by with_reducible assumption) ?_))

theorem execWayCarveWrite_keeps {P : State → Prop} (hP : Closed P) (v : Word) (s : State) (hs0 : P s) : ∀ out, execWayCarveWrite v s = .next out → P out := by
  unfold execWayCarveWrite
  intro out hout
  obtain rfl := Host.Outcome.next.inj hout
  repeat' (first | (with_reducible assumption) | (intro _) | (with_reducible apply busWr_keeps) | (with_reducible apply carveWrite_keeps) | (fail_if_no_progress with_reducible apply Closed.other hP) | (dsimp only [-Nat.reducePow, Option.getD_some, Option.getD_none]) | (with_reducible apply ite_keeps) | split | (refine of_fst (by with_reducible assumption) ?_) | (refine of_snd (by with_reducible assumption) ?_) | (refine of_snd2 (by with_reducible assumption) ?_) | (refine of_mid (by with_reducible assumption) ?_) | (refine of_getD (s := s) (by with_reducible assumption) ?_))

theorem execPinEnable_keeps {P : State → Prop} (hP : Closed P) (hW : ClosedWay P) (k : Fin 16) (s : State) (hs0 : P s) : ∀ out, execPinEnable k s = .next out → P out := by
  unfold execPinEnable
  intro out hout
  obtain rfl := Host.Outcome.next.inj hout
  repeat' (first | (with_reducible assumption) | (intro _) | (with_reducible apply busWr_keeps) | (with_reducible apply pinEnable_keeps) | (fail_if_no_progress with_reducible apply Closed.other hP) | (dsimp only [-Nat.reducePow, Option.getD_some, Option.getD_none]) | (with_reducible apply ite_keeps) | split | (refine of_fst (by with_reducible assumption) ?_) | (refine of_snd (by with_reducible assumption) ?_) | (refine of_snd2 (by with_reducible assumption) ?_) | (refine of_mid (by with_reducible assumption) ?_) | (refine of_getD (s := s) (by with_reducible assumption) ?_))

theorem execPinDisable_keeps {P : State → Prop} (hP : Closed P) (hW : ClosedWay P) (k : Fin 16) (s : State) (hs0 : P s) : ∀ out, execPinDisable k s = .next out → P out := by
  unfold execPinDisable
  intro out hout
  obtain rfl := Host.Outcome.next.inj hout
  repeat' (first | (with_reducible assumption) | (intro _) | (with_reducible apply busWr_keeps) | (with_reducible apply pinDisable_keeps) | (fail_if_no_progress with_reducible apply Closed.other hP) | (dsimp only [-Nat.reducePow, Option.getD_some, Option.getD_none]) | (with_reducible apply ite_keeps) | split | (refine of_fst (by with_reducible assumption) ?_) | (refine of_snd (by with_reducible assumption) ?_) | (refine of_snd2 (by with_reducible assumption) ?_) | (refine of_mid (by with_reducible assumption) ?_) | (refine of_getD (s := s) (by with_reducible assumption) ?_))

end Sys2Proof.Laws
end

