-- ==== Sys2Proof/Laws/KWalk.lean ====
section
/-! SUPPORT. The operations of Machine/Walk.lean keep every property closed under the writers that they reach. -/

namespace Sys2Proof.Laws
open Sys2Proof.Machine

set_option linter.unreachableTactic false
set_option linter.unusedTactic false
set_option linter.unusedVariables false

theorem dropWalkCmds_keeps {P : State → Prop} (hP : Closed P) (p : CmdSrc → Bool) (s : State) (hs0 : P s) : P (dropWalkCmds p s) := by
  unfold dropWalkCmds
  repeat' (first | (with_reducible assumption) | (intro _) | (with_reducible apply optMap_keeps) | (with_reducible apply optGet_keeps) | (fail_if_no_progress with_reducible apply Closed.other hP) | (dsimp only [-Nat.reducePow, Option.getD_some, Option.getD_none]) | (with_reducible apply ite_keeps) | split | (refine of_fst (by with_reducible assumption) ?_) | (refine of_snd (by with_reducible assumption) ?_) | (refine of_snd2 (by with_reducible assumption) ?_) | (refine of_mid (by with_reducible assumption) ?_) | (refine of_getD (s := s) (by with_reducible assumption) ?_))

theorem imageLoaded_keeps {P : State → Prop} (hP : Closed P) (h : Nat) (k : Nat) (s : State) (hs0 : P s) : P (imageLoaded h k s) := by
  unfold imageLoaded
  repeat' (first | (with_reducible assumption) | (intro _) | (with_reducible apply fbump_keeps) | (with_reducible apply onlyIf_keeps) | (with_reducible apply setWalkRt_keeps) | (with_reducible apply startWanted_keeps) | (with_reducible apply useSlot_keeps) | (with_reducible apply optMap_keeps) | (with_reducible apply optGet_keeps) | (fail_if_no_progress with_reducible apply Closed.other hP) | (dsimp only [-Nat.reducePow, Option.getD_some, Option.getD_none]) | (with_reducible apply ite_keeps) | split | (refine of_fst (by with_reducible assumption) ?_) | (refine of_snd (by with_reducible assumption) ?_) | (refine of_snd2 (by with_reducible assumption) ?_) | (refine of_mid (by with_reducible assumption) ?_) | (refine of_getD (s := s) (by with_reducible assumption) ?_))

theorem imageUe_keeps {P : State → Prop} (hP : Closed P) (h : Nat) (k : Nat) (i : Nat) (s : State) (hs0 : P s) : P (imageUe h k i s) := by
  unfold imageUe
  repeat' (first | (with_reducible assumption) | (intro _) | (with_reducible apply forAll_keeps) | (with_reducible apply setWalkRt_keeps) | (with_reducible apply addRead_keeps) | (with_reducible apply stageAbsent_keeps) | (with_reducible apply optMap_keeps) | (with_reducible apply optGet_keeps) | (fail_if_no_progress with_reducible apply Closed.other hP) | (dsimp only [-Nat.reducePow, Option.getD_some, Option.getD_none]) | (with_reducible apply ite_keeps) | split | (refine of_fst (by with_reducible assumption) ?_) | (refine of_snd (by with_reducible assumption) ?_) | (refine of_snd2 (by with_reducible assumption) ?_) | (refine of_mid (by with_reducible assumption) ?_) | (refine of_getD (s := s) (by with_reducible assumption) ?_))

theorem contextUe_keeps {P : State → Prop} (hP : Closed P) (c : Caravan) (i : Nat) (s : State) (hs0 : P s) : P (contextUe c i s) := by
  unfold contextUe
  repeat' (first | (with_reducible assumption) | (intro _) | (with_reducible apply fbumpN_keeps) | (with_reducible apply optMap_keeps) | (with_reducible apply optGet_keeps) | (fail_if_no_progress with_reducible apply Closed.other hP) | (dsimp only [-Nat.reducePow, Option.getD_some, Option.getD_none]) | (with_reducible apply ite_keeps) | split | (refine of_fst (by with_reducible assumption) ?_) | (refine of_snd (by with_reducible assumption) ?_) | (refine of_snd2 (by with_reducible assumption) ?_) | (refine of_mid (by with_reducible assumption) ?_) | (refine of_getD (s := s) (by with_reducible assumption) ?_))

theorem walkUe_keeps {P : State → Prop} (hP : Closed P) (l : Nat) (s : State) (hs0 : P s) : P (walkUe l s) := by
  unfold walkUe
  repeat' (first | (with_reducible assumption) | (intro _) | (with_reducible apply fbump_keeps) | (with_reducible apply imageUe_keeps) | (with_reducible apply contextUe_keeps) | (fail_if_no_progress with_reducible apply Closed.other hP) | (dsimp only [-Nat.reducePow, Option.getD_some, Option.getD_none]) | (with_reducible apply ite_keeps) | split | (refine of_fst (by with_reducible assumption) ?_) | (refine of_snd (by with_reducible assumption) ?_) | (refine of_snd2 (by with_reducible assumption) ?_) | (refine of_mid (by with_reducible assumption) ?_) | (refine of_getD (s := s) (by with_reducible assumption) ?_))

theorem caravanEnd_keeps {P : State → Prop} (hP : Closed P) (hS : ClosedStrm P) (c : Caravan) (keys : List KeySt) (s : State) (hs0 : P s) : P (caravanEnd c keys s) := by
  unfold caravanEnd
  repeat' (first | (with_reducible assumption) | (intro _) | (with_reducible apply respond_keeps) | (with_reducible apply voidRuns_keeps) | (with_reducible apply updEntry_keeps) | (with_reducible apply retire_keeps) | (with_reducible apply releaseSlots_keeps) | (with_reducible apply outcome_keeps) | (with_reducible apply servePoint_keeps) | (with_reducible apply endCaravan_keeps) | (fail_if_no_progress with_reducible apply Closed.other hP) | (dsimp only [-Nat.reducePow, Option.getD_some, Option.getD_none]) | (with_reducible apply ite_keeps) | split | (refine of_fst (by with_reducible assumption) ?_) | (refine of_snd (by with_reducible assumption) ?_) | (refine of_snd2 (by with_reducible assumption) ?_) | (refine of_mid (by with_reducible assumption) ?_) | (refine of_getD (s := s) (by with_reducible assumption) ?_))

theorem caravanStageEnd_keeps {P : State → Prop} (hP : Closed P) (hS : ClosedStrm P) (ring : Fin 16) (entry : Nat) (s : State) (hs0 : P s) : P (caravanStageEnd ring entry s) := by
  unfold caravanStageEnd
  repeat' (first | (with_reducible assumption) | (intro _) | (with_reducible apply onlyIf_keeps) | (with_reducible apply charge_keeps) | (with_reducible apply startWanted_keeps) | (with_reducible apply updCaravan_keeps) | (with_reducible apply beginStage_keeps) | (with_reducible apply caravanEnd_keeps) | (fail_if_no_progress with_reducible apply Closed.other hP) | (dsimp only [-Nat.reducePow, Option.getD_some, Option.getD_none]) | (with_reducible apply ite_keeps) | split | (refine of_fst (by with_reducible assumption) ?_) | (refine of_snd (by with_reducible assumption) ?_) | (refine of_snd2 (by with_reducible assumption) ?_) | (refine of_mid (by with_reducible assumption) ?_) | (refine of_getD (s := s) (by with_reducible assumption) ?_))

theorem holdExpiry_keeps {P : State → Prop} (hP : Closed P) (ring : Fin 16) (entry : Nat) (s : State) (hs0 : P s) : P (holdExpiry ring entry s) := by
  unfold holdExpiry
  repeat' (first | (with_reducible assumption) | (intro _) | (with_reducible apply advanceToNs_keeps) | (with_reducible apply bypassStage_keeps) | (fail_if_no_progress with_reducible apply Closed.other hP) | (dsimp only [-Nat.reducePow, Option.getD_some, Option.getD_none]) | (with_reducible apply ite_keeps) | split | (refine of_fst (by with_reducible assumption) ?_) | (refine of_snd (by with_reducible assumption) ?_) | (refine of_snd2 (by with_reducible assumption) ?_) | (refine of_mid (by with_reducible assumption) ?_) | (refine of_getD (s := s) (by with_reducible assumption) ?_))

theorem readRetry_keeps {P : State → Prop} (hP : Closed P) (i : Nat) (s : State) (hs0 : P s) : P (readRetry i s) := by
  unfold readRetry
  repeat' (first | (with_reducible assumption) | (intro _) | (with_reducible apply advanceToNs_keeps) | (with_reducible apply updRead_keeps) | (fail_if_no_progress with_reducible apply Closed.other hP) | (dsimp only [-Nat.reducePow, Option.getD_some, Option.getD_none]) | (with_reducible apply ite_keeps) | split | (refine of_fst (by with_reducible assumption) ?_) | (refine of_snd (by with_reducible assumption) ?_) | (refine of_snd2 (by with_reducible assumption) ?_) | (refine of_mid (by with_reducible assumption) ?_) | (refine of_getD (s := s) (by with_reducible assumption) ?_))

theorem trimFrames_keeps {P : State → Prop} (hP : Closed P) (hW : ClosedWay P) (forced : Bool) (m : BitVec 8) (s : State) (hs0 : P s) : P (trimFrames forced m s) := by
  unfold trimFrames
  repeat' (first | (with_reducible assumption) | (intro _) | (with_reducible apply forAll_keeps) | (with_reducible apply updFrame_keeps) | (with_reducible apply startDemote_keeps) | (with_reducible apply freeFrame_keeps) | (with_reducible apply optMap_keeps) | (with_reducible apply optGet_keeps) | (fail_if_no_progress with_reducible apply Closed.other hP) | (dsimp only [-Nat.reducePow, Option.getD_some, Option.getD_none]) | (with_reducible apply ite_keeps) | split | (refine of_fst (by with_reducible assumption) ?_) | (refine of_snd (by with_reducible assumption) ?_) | (refine of_snd2 (by with_reducible assumption) ?_) | (refine of_mid (by with_reducible assumption) ?_) | (refine of_getD (s := s) (by with_reducible assumption) ?_))

theorem putDesc_keeps {P : State → Prop} (hP : Closed P) (hI : ClosedIx P) (h : Nat) (w : Nat) (v : Nat) (s : State) (hs0 : P s) : P (putDesc h w v s) := by
  unfold putDesc
  repeat' (first | (with_reducible assumption) | (intro _) | (with_reducible apply fset_keeps) | (with_reducible apply ixSet_keeps) | (fail_if_no_progress with_reducible apply Closed.other hP) | (dsimp only [-Nat.reducePow, Option.getD_some, Option.getD_none]) | (with_reducible apply ite_keeps) | split | (refine of_fst (by with_reducible assumption) ?_) | (refine of_snd (by with_reducible assumption) ?_) | (refine of_snd2 (by with_reducible assumption) ?_) | (refine of_mid (by with_reducible assumption) ?_) | (refine of_getD (s := s) (by with_reducible assumption) ?_))

theorem walkDefine_keeps {P : State → Prop} (hP : Closed P) (hI : ClosedIx P) (h : Nat) (man : Nat) (home : Nat) (bypass : Bool) (hold : Nat) (slots : Nat) (slotseg : Nat) (nctx : Nat) (s : State) (hs0 : P s) : P (walkDefine h man home bypass hold slots slotseg nctx s).1 := by
  unfold walkDefine
  repeat' (first | (with_reducible assumption) | (intro _) | (with_reducible apply fset_keeps) | (with_reducible apply putDesc_keeps) | (fail_if_no_progress with_reducible apply Closed.other hP) | (dsimp only [-Nat.reducePow, Option.getD_some, Option.getD_none]) | (with_reducible apply ite_keeps) | split | (refine of_fst (by with_reducible assumption) ?_) | (refine of_snd (by with_reducible assumption) ?_) | (refine of_snd2 (by with_reducible assumption) ?_) | (refine of_mid (by with_reducible assumption) ?_) | (refine of_getD (s := s) (by with_reducible assumption) ?_))

theorem walkStage_keeps {P : State → Prop} (hP : Closed P) (hI : ClosedIx P) (h : Nat) (st : Nat) (gather : Bool) (base : Nat) (segs : Nat) (shift : Nat) (width : Nat) (s : State) (hs0 : P s) : P (walkStage h st gather base segs shift width s).1 := by
  unfold walkStage
  repeat' (first | (with_reducible assumption) | (intro _) | (with_reducible apply fset_keeps) | (with_reducible apply putDesc_keeps) | (fail_if_no_progress with_reducible apply Closed.other hP) | (dsimp only [-Nat.reducePow, Option.getD_some, Option.getD_none]) | (with_reducible apply ite_keeps) | split | (refine of_fst (by with_reducible assumption) ?_) | (refine of_snd (by with_reducible assumption) ?_) | (refine of_snd2 (by with_reducible assumption) ?_) | (refine of_mid (by with_reducible assumption) ?_) | (refine of_getD (s := s) (by with_reducible assumption) ?_))

theorem walkLoad_keeps {P : State → Prop} (hP : Closed P) (hI : ClosedIx P) (hW : ClosedWay P) (h : Nat) (s : State) (hs0 : P s) : P (walkLoad h s).1 := by
  unfold walkLoad
  repeat' (first | (with_reducible assumption) | (intro _) | (with_reducible apply fset_keeps) | (with_reducible apply fbump_keeps) | (with_reducible apply ixSet_keeps) | (with_reducible apply setWalkRt_keeps) | (with_reducible apply trimFrames_keeps) | (fail_if_no_progress with_reducible apply Closed.other hP) | (dsimp only [-Nat.reducePow, Option.getD_some, Option.getD_none]) | (with_reducible apply ite_keeps) | split | (refine of_fst (by with_reducible assumption) ?_) | (refine of_snd (by with_reducible assumption) ?_) | (refine of_snd2 (by with_reducible assumption) ?_) | (refine of_mid (by with_reducible assumption) ?_) | (refine of_getD (s := s) (by with_reducible assumption) ?_))

theorem unloadStart_keeps {P : State → Prop} (hP : Closed P) (h : Nat) (s : State) (hs0 : P s) : P (unloadStart h s) := by
  unfold unloadStart
  repeat' (first | (with_reducible assumption) | (intro _) | (with_reducible apply setWalkRt_keeps) | (fail_if_no_progress with_reducible apply Closed.other hP) | (dsimp only [-Nat.reducePow, Option.getD_some, Option.getD_none]) | (with_reducible apply ite_keeps) | split | (refine of_fst (by with_reducible assumption) ?_) | (refine of_snd (by with_reducible assumption) ?_) | (refine of_snd2 (by with_reducible assumption) ?_) | (refine of_mid (by with_reducible assumption) ?_) | (refine of_getD (s := s) (by with_reducible assumption) ?_))

theorem walkUnload_keeps {P : State → Prop} (hP : Closed P) (h : Nat) (s : State) (hs0 : P s) : P (walkUnload h s).1 := by
  unfold walkUnload
  repeat' (first | (with_reducible assumption) | (intro _) | (with_reducible apply unloadStart_keeps) | (fail_if_no_progress with_reducible apply Closed.other hP) | (dsimp only [-Nat.reducePow, Option.getD_some, Option.getD_none]) | (with_reducible apply ite_keeps) | split | (refine of_fst (by with_reducible assumption) ?_) | (refine of_snd (by with_reducible assumption) ?_) | (refine of_snd2 (by with_reducible assumption) ?_) | (refine of_mid (by with_reducible assumption) ?_) | (refine of_getD (s := s) (by with_reducible assumption) ?_))

theorem walkUnloaded_keeps {P : State → Prop} (hP : Closed P) (hI : ClosedIx P) (h : Nat) (s : State) (hs0 : P s) : P (walkUnloaded h s) := by
  unfold walkUnloaded
  repeat' (first | (with_reducible assumption) | (intro _) | (with_reducible apply fset_keeps) | (with_reducible apply ixSet_keeps) | (with_reducible apply emit_keeps) | (with_reducible apply setWalkRt_keeps) | (with_reducible apply dropWalkCmds_keeps) | (fail_if_no_progress with_reducible apply Closed.other hP) | (dsimp only [-Nat.reducePow, Option.getD_some, Option.getD_none]) | (with_reducible apply ite_keeps) | split | (refine of_fst (by with_reducible assumption) ?_) | (refine of_snd (by with_reducible assumption) ?_) | (refine of_snd2 (by with_reducible assumption) ?_) | (refine of_mid (by with_reducible assumption) ?_) | (refine of_getD (s := s) (by with_reducible assumption) ?_))

theorem unloadMan_keeps {P : State → Prop} (hP : Closed P) (m : Nat) (s : State) (hs0 : P s) : P (unloadMan m s) := by
  unfold unloadMan
  repeat' (first | (with_reducible assumption) | (intro _) | (with_reducible apply forAll_keeps) | (with_reducible apply unloadStart_keeps) | (with_reducible apply optMap_keeps) | (with_reducible apply optGet_keeps) | (fail_if_no_progress with_reducible apply Closed.other hP) | (dsimp only [-Nat.reducePow, Option.getD_some, Option.getD_none]) | (with_reducible apply ite_keeps) | split | (refine of_fst (by with_reducible assumption) ?_) | (refine of_snd (by with_reducible assumption) ?_) | (refine of_snd2 (by with_reducible assumption) ?_) | (refine of_mid (by with_reducible assumption) ?_) | (refine of_getD (s := s) (by with_reducible assumption) ?_))

theorem execStageImageLoaded_keeps {P : State → Prop} (hP : Closed P) (desc : Nat) (slot : Nat) (s : State) (hs0 : P s) : ∀ out, execStageImageLoaded desc slot s = .next out → P out := by
  unfold execStageImageLoaded
  intro out hout
  obtain rfl := Host.Outcome.next.inj hout
  repeat' (first | (with_reducible assumption) | (intro _) | (with_reducible apply imageLoaded_keeps) | (fail_if_no_progress with_reducible apply Closed.other hP) | (dsimp only [-Nat.reducePow, Option.getD_some, Option.getD_none]) | (with_reducible apply ite_keeps) | split | (refine of_fst (by with_reducible assumption) ?_) | (refine of_snd (by with_reducible assumption) ?_) | (refine of_snd2 (by with_reducible assumption) ?_) | (refine of_mid (by with_reducible assumption) ?_) | (refine of_getD (s := s) (by with_reducible assumption) ?_))

theorem execCaravanStageEnd_keeps {P : State → Prop} (hP : Closed P) (hI : ClosedIx P) (hS : ClosedStrm P) (hA : ClosedAcct P) (hD : ClosedDram P) (hW : ClosedWay P) (ring : Fin 16) (entry : Pick) (s : State) (hs0 : P s) : ∀ out, execCaravanStageEnd ring entry s = .next out → P out := by
  unfold execCaravanStageEnd
  intro out hout
  obtain rfl := Host.Outcome.next.inj hout
  repeat' (first | (with_reducible assumption) | (intro _) | (with_reducible apply settle_keeps) | (with_reducible apply actAll_keeps) | (with_reducible apply caravanStageEnd_keeps) | (fail_if_no_progress with_reducible apply Closed.other hP) | (dsimp only [-Nat.reducePow, Option.getD_some, Option.getD_none]) | (with_reducible apply ite_keeps) | split | (refine of_fst (by with_reducible assumption) ?_) | (refine of_snd (by with_reducible assumption) ?_) | (refine of_snd2 (by with_reducible assumption) ?_) | (refine of_mid (by with_reducible assumption) ?_) | (refine of_getD (s := s) (by with_reducible assumption) ?_))

theorem execWalkHoldExpiry_keeps {P : State → Prop} (hP : Closed P) (ring : Fin 16) (entry : Nat) (s : State) (hs0 : P s) : ∀ out, execWalkHoldExpiry ring entry s = .next out → P out := by
  unfold execWalkHoldExpiry
  intro out hout
  obtain rfl := Host.Outcome.next.inj hout
  repeat' (first | (with_reducible assumption) | (intro _) | (with_reducible apply holdExpiry_keeps) | (fail_if_no_progress with_reducible apply Closed.other hP) | (dsimp only [-Nat.reducePow, Option.getD_some, Option.getD_none]) | (with_reducible apply ite_keeps) | split | (refine of_fst (by with_reducible assumption) ?_) | (refine of_snd (by with_reducible assumption) ?_) | (refine of_snd2 (by with_reducible assumption) ?_) | (refine of_mid (by with_reducible assumption) ?_) | (refine of_getD (s := s) (by with_reducible assumption) ?_))

theorem execWalkReadRetry_keeps {P : State → Prop} (hP : Closed P) (idx : Nat) (s : State) (hs0 : P s) : ∀ out, execWalkReadRetry idx s = .next out → P out := by
  unfold execWalkReadRetry
  intro out hout
  obtain rfl := Host.Outcome.next.inj hout
  repeat' (first | (with_reducible assumption) | (intro _) | (with_reducible apply readRetry_keeps) | (fail_if_no_progress with_reducible apply Closed.other hP) | (dsimp only [-Nat.reducePow, Option.getD_some, Option.getD_none]) | (with_reducible apply ite_keeps) | split | (refine of_fst (by with_reducible assumption) ?_) | (refine of_snd (by with_reducible assumption) ?_) | (refine of_snd2 (by with_reducible assumption) ?_) | (refine of_mid (by with_reducible assumption) ?_) | (refine of_getD (s := s) (by with_reducible assumption) ?_))

theorem execWalkDefine_keeps {P : State → Prop} (hP : Closed P) (hI : ClosedIx P) (desc : Nat) (man : Nat) (home : Nat) (bypass : Bool) (hold : Nat) (slots : Nat) (slotseg : Nat) (nctx : Nat) (s : State) (hs0 : P s) : ∀ out, execWalkDefine desc man home bypass hold slots slotseg nctx s = .next out → P out := by
  unfold execWalkDefine
  intro out hout
  obtain rfl := Host.Outcome.next.inj hout
  repeat' (first | (with_reducible assumption) | (intro _) | (with_reducible apply runVerb1_keeps) | (with_reducible apply walkDefine_keeps) | (fail_if_no_progress with_reducible apply Closed.other hP) | (dsimp only [-Nat.reducePow, Option.getD_some, Option.getD_none]) | (with_reducible apply ite_keeps) | split | (refine of_fst (by with_reducible assumption) ?_) | (refine of_snd (by with_reducible assumption) ?_) | (refine of_snd2 (by with_reducible assumption) ?_) | (refine of_mid (by with_reducible assumption) ?_) | (refine of_getD (s := s) (by with_reducible assumption) ?_))

theorem execWalkStage_keeps {P : State → Prop} (hP : Closed P) (hI : ClosedIx P) (desc : Nat) (stage : Nat) (gather : Bool) (base : Nat) (segs : Nat) (shift : Nat) (width : Nat) (s : State) (hs0 : P s) : ∀ out, execWalkStage desc stage gather base segs shift width s = .next out → P out := by
  unfold execWalkStage
  intro out hout
  obtain rfl := Host.Outcome.next.inj hout
  repeat' (first | (with_reducible assumption) | (intro _) | (with_reducible apply runVerb1_keeps) | (with_reducible apply walkStage_keeps) | (fail_if_no_progress with_reducible apply Closed.other hP) | (dsimp only [-Nat.reducePow, Option.getD_some, Option.getD_none]) | (with_reducible apply ite_keeps) | split | (refine of_fst (by with_reducible assumption) ?_) | (refine of_snd (by with_reducible assumption) ?_) | (refine of_snd2 (by with_reducible assumption) ?_) | (refine of_mid (by with_reducible assumption) ?_) | (refine of_getD (s := s) (by with_reducible assumption) ?_))

theorem execWalkLoad_keeps {P : State → Prop} (hP : Closed P) (hI : ClosedIx P) (hW : ClosedWay P) (desc : Nat) (s : State) (hs0 : P s) : ∀ out, execWalkLoad desc s = .next out → P out := by
  unfold execWalkLoad
  intro out hout
  obtain rfl := Host.Outcome.next.inj hout
  repeat' (first | (with_reducible assumption) | (intro _) | (with_reducible apply runVerb1_keeps) | (with_reducible apply afterClear_keeps) | (with_reducible apply walkLoad_keeps) | (fail_if_no_progress with_reducible apply Closed.other hP) | (dsimp only [-Nat.reducePow, Option.getD_some, Option.getD_none]) | (with_reducible apply ite_keeps) | split | (refine of_fst (by with_reducible assumption) ?_) | (refine of_snd (by with_reducible assumption) ?_) | (refine of_snd2 (by with_reducible assumption) ?_) | (refine of_mid (by with_reducible assumption) ?_) | (refine of_getD (s := s) (by with_reducible assumption) ?_))

theorem execWalkUnload_keeps {P : State → Prop} (hP : Closed P) (desc : Nat) (s : State) (hs0 : P s) : ∀ out, execWalkUnload desc s = .next out → P out := by
  unfold execWalkUnload
  intro out hout
  obtain rfl := Host.Outcome.next.inj hout
  repeat' (first | (with_reducible assumption) | (intro _) | (with_reducible apply runVerb1_keeps) | (with_reducible apply walkUnload_keeps) | (fail_if_no_progress with_reducible apply Closed.other hP) | (dsimp only [-Nat.reducePow, Option.getD_some, Option.getD_none]) | (with_reducible apply ite_keeps) | split | (refine of_fst (by with_reducible assumption) ?_) | (refine of_snd (by with_reducible assumption) ?_) | (refine of_snd2 (by with_reducible assumption) ?_) | (refine of_mid (by with_reducible assumption) ?_) | (refine of_getD (s := s) (by with_reducible assumption) ?_))

theorem execWalkUnloaded_keeps {P : State → Prop} (hP : Closed P) (hI : ClosedIx P) (desc : Nat) (s : State) (hs0 : P s) : ∀ out, execWalkUnloaded desc s = .next out → P out := by
  unfold execWalkUnloaded
  intro out hout
  obtain rfl := Host.Outcome.next.inj hout
  repeat' (first | (with_reducible assumption) | (intro _) | (with_reducible apply walkUnloaded_keeps) | (fail_if_no_progress with_reducible apply Closed.other hP) | (dsimp only [-Nat.reducePow, Option.getD_some, Option.getD_none]) | (with_reducible apply ite_keeps) | split | (refine of_fst (by with_reducible assumption) ?_) | (refine of_snd (by with_reducible assumption) ?_) | (refine of_snd2 (by with_reducible assumption) ?_) | (refine of_mid (by with_reducible assumption) ?_) | (refine of_getD (s := s) (by with_reducible assumption) ?_))

end Sys2Proof.Laws
end

