-- ==== Sys2Proof/Laws/KQueue.lean ====
section
/-! SUPPORT. The operations of Machine/Queue.lean keep every property closed under the writers that they reach. -/

namespace Sys2Proof.Laws
open Sys2Proof.Machine

set_option linter.unreachableTactic false
set_option linter.unusedTactic false
set_option linter.unusedVariables false

theorem queueFault_keeps {P : State → Prop} (hP : Closed P) (hS : ClosedStrm P) (q : Nat) (reason : Nat) (cause : String) (s : State) (hs0 : P s) : P (queueFault q reason cause s) := by
  unfold queueFault
  repeat' (first | (with_reducible assumption) | (intro _) | (with_reducible apply fbump_keeps) | (with_reducible apply emit_keeps) | (with_reducible apply forAll_keeps) | (with_reducible apply retire_keeps) | (with_reducible apply releaseSlots_keeps) | (with_reducible apply faultEntry_keeps) | (with_reducible apply setQd_keeps) | (with_reducible apply evict_keeps) | (with_reducible apply dropPlan_keeps) | (with_reducible apply leaveContest_keeps) | (with_reducible apply refuseNew_keeps) | (fail_if_no_progress with_reducible apply Closed.other hP) | (dsimp only [-Nat.reducePow, Option.getD_some, Option.getD_none]) | (with_reducible apply ite_keeps) | split | (refine of_fst (by with_reducible assumption) ?_) | (refine of_snd (by with_reducible assumption) ?_) | (refine of_snd2 (by with_reducible assumption) ?_) | (refine of_mid (by with_reducible assumption) ?_) | (refine of_getD (s := s) (by with_reducible assumption) ?_))

theorem recError_keeps {P : State → Prop} (hP : Closed P) (hS : ClosedStrm P) (q : Nat) (k : Nat) (s : State) (hs0 : P s) : P (recError q k s) := by
  unfold recError
  repeat' (first | (with_reducible assumption) | (intro _) | (with_reducible apply setBrec_keeps) | (with_reducible apply queueFault_keeps) | (fail_if_no_progress with_reducible apply Closed.other hP) | (dsimp only [-Nat.reducePow, Option.getD_some, Option.getD_none]) | (with_reducible apply ite_keeps) | split | (refine of_fst (by with_reducible assumption) ?_) | (refine of_snd (by with_reducible assumption) ?_) | (refine of_snd2 (by with_reducible assumption) ?_) | (refine of_mid (by with_reducible assumption) ?_) | (refine of_getD (s := s) (by with_reducible assumption) ?_))

theorem writeQd_keeps {P : State → Prop} (hP : Closed P) (q : Nat) (d : QDesc) (m : BitVec 8) (s : State) (hs0 : P s) : P (writeQd q d m s) := by
  unfold writeQd
  repeat' (first | (with_reducible assumption) | (intro _) | (with_reducible apply charge_keeps) | (with_reducible apply setQd_keeps) | (fail_if_no_progress with_reducible apply Closed.other hP) | (dsimp only [-Nat.reducePow, Option.getD_some, Option.getD_none]) | (with_reducible apply ite_keeps) | split | (refine of_fst (by with_reducible assumption) ?_) | (refine of_snd (by with_reducible assumption) ?_) | (refine of_snd2 (by with_reducible assumption) ?_) | (refine of_mid (by with_reducible assumption) ?_) | (refine of_getD (s := s) (by with_reducible assumption) ?_))

theorem fillFrame_keeps {P : State → Prop} (hP : Closed P) (q : Nat) (b : Nat) (s : State) (hs0 : P s) : P (fillFrame q b s) := by
  unfold fillFrame
  repeat' (first | (with_reducible assumption) | (intro _) | (with_reducible apply setQfr_keeps) | (with_reducible apply qWriteBack_keeps) | (fail_if_no_progress with_reducible apply Closed.other hP) | (dsimp only [-Nat.reducePow, Option.getD_some, Option.getD_none]) | (with_reducible apply ite_keeps) | split | (refine of_fst (by with_reducible assumption) ?_) | (refine of_snd (by with_reducible assumption) ?_) | (refine of_snd2 (by with_reducible assumption) ?_) | (refine of_mid (by with_reducible assumption) ?_) | (refine of_getD (s := s) (by with_reducible assumption) ?_))

theorem queDone_keeps {P : State → Prop} (hP : Closed P) (hS : ClosedStrm P) (ring : Fin 16) (slot : Nat) (info : BitVec 64) (poison : Bool) (data : List Slot) (quiet : Bool) (s : State) (hs0 : P s) : P (queDone ring slot info poison data quiet s) := by
  unfold queDone
  repeat' (first | (with_reducible assumption) | (intro _) | (with_reducible apply updEntry_keeps) | (with_reducible apply retire_keeps) | (with_reducible apply releaseSlots_keeps) | (with_reducible apply outcome_keeps) | (with_reducible apply servePoint_keeps) | (fail_if_no_progress with_reducible apply Closed.other hP) | (dsimp only [-Nat.reducePow, Option.getD_some, Option.getD_none]) | (with_reducible apply ite_keeps) | split | (refine of_fst (by with_reducible assumption) ?_) | (refine of_snd (by with_reducible assumption) ?_) | (refine of_snd2 (by with_reducible assumption) ?_) | (refine of_mid (by with_reducible assumption) ?_) | (refine of_getD (s := s) (by with_reducible assumption) ?_))

theorem enqEffect_keeps {P : State → Prop} (hP : Closed P) (hS : ClosedStrm P) (ring : Fin 16) (slot : Nat) (quiet : Bool) (s : State) (hs0 : P s) : P (enqEffect ring slot quiet s) := by
  unfold enqEffect
  repeat' (first | (with_reducible assumption) | (intro _) | (with_reducible apply fbumpN_keeps) | (with_reducible apply fbump_keeps) | (with_reducible apply forAll_keeps) | (with_reducible apply updEntry_keeps) | (with_reducible apply setEntrySt_keeps) | (with_reducible apply setQfr_keeps) | (with_reducible apply evict_keeps) | (with_reducible apply writeQd_keeps) | (with_reducible apply fillFrame_keeps) | (with_reducible apply queDone_keeps) | (fail_if_no_progress with_reducible apply Closed.other hP) | (dsimp only [-Nat.reducePow, Option.getD_some, Option.getD_none]) | (with_reducible apply ite_keeps) | split | (refine of_fst (by with_reducible assumption) ?_) | (refine of_snd (by with_reducible assumption) ?_) | (refine of_snd2 (by with_reducible assumption) ?_) | (refine of_mid (by with_reducible assumption) ?_) | (refine of_getD (s := s) (by with_reducible assumption) ?_))

theorem readAtOnce_keeps {P : State → Prop} (hP : Closed P) (hA : ClosedAcct P) (c : Fin 16) (lam : Nat) (man : Option (BitVec 8)) (s : State) (hs0 : P s) : P (readAtOnce c lam man s) := by
  unfold readAtOnce
  repeat' (first | (with_reducible assumption) | (intro _) | (with_reducible apply fbump_keeps) | (with_reducible apply updChan_keeps) | (with_reducible apply charge_keeps) | (with_reducible apply chargeLine_keeps) | (with_reducible apply rowOnce_keeps) | (fail_if_no_progress with_reducible apply Closed.other hP) | (dsimp only [-Nat.reducePow, Option.getD_some, Option.getD_none]) | (with_reducible apply ite_keeps) | split | (refine of_fst (by with_reducible assumption) ?_) | (refine of_snd (by with_reducible assumption) ?_) | (refine of_snd2 (by with_reducible assumption) ?_) | (refine of_mid (by with_reducible assumption) ?_) | (refine of_getD (s := s) (by with_reducible assumption) ?_))

theorem recAtOnce_keeps {P : State → Prop} (hP : Closed P) (hA : ClosedAcct P) (man : Option (BitVec 8)) (b : Nat) (s : State) (hs0 : P s) : P (recAtOnce man b s) := by
  unfold recAtOnce
  repeat' (first | (with_reducible assumption) | (intro _) | (with_reducible apply onlyIf_keeps) | (with_reducible apply readAtOnce_keeps) | (fail_if_no_progress with_reducible apply Closed.other hP) | (dsimp only [-Nat.reducePow, Option.getD_some, Option.getD_none]) | (with_reducible apply ite_keeps) | split | (refine of_fst (by with_reducible assumption) ?_) | (refine of_snd (by with_reducible assumption) ?_) | (refine of_snd2 (by with_reducible assumption) ?_) | (refine of_mid (by with_reducible assumption) ?_) | (refine of_getD (s := s) (by with_reducible assumption) ?_))

theorem payOldRec_keeps {P : State → Prop} (hP : Closed P) (hA : ClosedAcct P) (ring : Fin 16) (slot : Nat) (man : BitVec 8) (s : State) (hs0 : P s) : P (payOldRec ring slot man s) := by
  unfold payOldRec
  repeat' (first | (with_reducible assumption) | (intro _) | (with_reducible apply onlyIf_keeps) | (with_reducible apply recAtOnce_keeps) | (fail_if_no_progress with_reducible apply Closed.other hP) | (dsimp only [-Nat.reducePow, Option.getD_some, Option.getD_none]) | (with_reducible apply ite_keeps) | split | (refine of_fst (by with_reducible assumption) ?_) | (refine of_snd (by with_reducible assumption) ?_) | (refine of_snd2 (by with_reducible assumption) ?_) | (refine of_mid (by with_reducible assumption) ?_) | (refine of_getD (s := s) (by with_reducible assumption) ?_))

theorem enqApply_keeps {P : State → Prop} (hP : Closed P) (hS : ClosedStrm P) (hA : ClosedAcct P) (ring : Fin 16) (slot : Nat) (recBad : Option Nat) (quiet : Bool) (s : State) (hs0 : P s) : P (enqApply ring slot recBad quiet s) := by
  unfold enqApply
  repeat' (first | (with_reducible assumption) | (intro _) | (with_reducible apply onlyIf_keeps) | (with_reducible apply queueFault_keeps) | (with_reducible apply recError_keeps) | (with_reducible apply enqEffect_keeps) | (with_reducible apply payOldRec_keeps) | (fail_if_no_progress with_reducible apply Closed.other hP) | (dsimp only [-Nat.reducePow, Option.getD_some, Option.getD_none]) | (with_reducible apply ite_keeps) | split | (refine of_fst (by with_reducible assumption) ?_) | (refine of_snd (by with_reducible assumption) ?_) | (refine of_snd2 (by with_reducible assumption) ?_) | (refine of_mid (by with_reducible assumption) ?_) | (refine of_getD (s := s) (by with_reducible assumption) ?_))

theorem frameLineUe_keeps {P : State → Prop} (hP : Closed P) (f : Nat) (c : Nat) (s : State) (hs0 : P s) : P (frameLineUe f c s) := by
  unfold frameLineUe
  repeat' (first | (with_reducible assumption) | (intro _) | (with_reducible apply fbump_keeps) | (with_reducible apply onlyIf_keeps) | (with_reducible apply setQfr_keeps) | (with_reducible apply freeQFrame_keeps) | (with_reducible apply qWriteBack_keeps) | (fail_if_no_progress with_reducible apply Closed.other hP) | (dsimp only [-Nat.reducePow, Option.getD_some, Option.getD_none]) | (with_reducible apply ite_keeps) | split | (refine of_fst (by with_reducible assumption) ?_) | (refine of_snd (by with_reducible assumption) ?_) | (refine of_snd2 (by with_reducible assumption) ?_) | (refine of_mid (by with_reducible assumption) ?_) | (refine of_getD (s := s) (by with_reducible assumption) ?_))

theorem frameCell_keeps {P : State → Prop} (hP : Closed P) (f : Nat) (c : Nat) (ecc : LineEcc) (man : Option (BitVec 8)) (s : State) (hs0 : P s) : P (frameCell f c ecc man s).2 := by
  unfold frameCell
  repeat' (first | (with_reducible assumption) | (intro _) | (with_reducible apply fbump_keeps) | (with_reducible apply charge_keeps) | (with_reducible apply frameLineUe_keeps) | (fail_if_no_progress with_reducible apply Closed.other hP) | (dsimp only [-Nat.reducePow, Option.getD_some, Option.getD_none]) | (with_reducible apply ite_keeps) | split | (refine of_fst (by with_reducible assumption) ?_) | (refine of_snd (by with_reducible assumption) ?_) | (refine of_snd2 (by with_reducible assumption) ?_) | (refine of_mid (by with_reducible assumption) ?_) | (refine of_getD (s := s) (by with_reducible assumption) ?_))

theorem pushDirect_keeps {P : State → Prop} (hP : Closed P) (ring : Fin 16) (slot : Nat) (man : BitVec 8) (x : TakenCell × Nat) (s : State) (hs0 : P s) : P (pushDirect ring slot man x s) := by
  unfold pushDirect
  repeat' (first | (with_reducible assumption) | (intro _) | (with_reducible apply fbump_keeps) | (with_reducible apply pushRead_keeps) | (fail_if_no_progress with_reducible apply Closed.other hP) | (dsimp only [-Nat.reducePow, Option.getD_some, Option.getD_none]) | (with_reducible apply ite_keeps) | split | (refine of_fst (by with_reducible assumption) ?_) | (refine of_snd (by with_reducible assumption) ?_) | (refine of_snd2 (by with_reducible assumption) ?_) | (refine of_mid (by with_reducible assumption) ?_) | (refine of_getD (s := s) (by with_reducible assumption) ?_))

theorem dropBadCells_keeps {P : State → Prop} (hP : Closed P) (eccs : List LineEcc) (l : List TakenCell) (s : State) (hs0 : P s) : P (dropBadCells eccs l s) := by
  unfold dropBadCells
  repeat' (first | (with_reducible assumption) | (intro _) | (with_reducible apply forAll_keeps) | (with_reducible apply onlyIf_keeps) | (with_reducible apply frameLineUe_keeps) | (fail_if_no_progress with_reducible apply Closed.other hP) | (dsimp only [-Nat.reducePow, Option.getD_some, Option.getD_none]) | (with_reducible apply ite_keeps) | split | (refine of_fst (by with_reducible assumption) ?_) | (refine of_snd (by with_reducible assumption) ?_) | (refine of_snd2 (by with_reducible assumption) ?_) | (refine of_mid (by with_reducible assumption) ?_) | (refine of_getD (s := s) (by with_reducible assumption) ?_))

theorem dropQueWb_keeps {P : State → Prop} (hP : Closed P) (b : Nat) (s : State) (hs0 : P s) : P (dropQueWb b s) := by
  unfold dropQueWb
  repeat' (first | (with_reducible assumption) | (intro _) | (with_reducible apply fbumpN_keeps) | (with_reducible apply forAll_keeps) | (with_reducible apply fillStat_keeps) | (with_reducible apply optMap_keeps) | (with_reducible apply optGet_keeps) | (fail_if_no_progress with_reducible apply Closed.other hP) | (dsimp only [-Nat.reducePow, Option.getD_some, Option.getD_none]) | (with_reducible apply ite_keeps) | split | (refine of_fst (by with_reducible assumption) ?_) | (refine of_snd (by with_reducible assumption) ?_) | (refine of_snd2 (by with_reducible assumption) ?_) | (refine of_mid (by with_reducible assumption) ?_) | (refine of_getD (s := s) (by with_reducible assumption) ?_))

theorem leaveChain_keeps {P : State → Prop} (hP : Closed P) (b : Nat) (s : State) (hs0 : P s) : P (leaveChain b s) := by
  unfold leaveChain
  repeat' (first | (with_reducible assumption) | (intro _) | (with_reducible apply forAll_keeps) | (with_reducible apply setDramPsn_keeps) | (with_reducible apply setBrec_keeps) | (with_reducible apply tryFree_keeps) | (with_reducible apply freeQFrame_keeps) | (with_reducible apply dropQueWb_keeps) | (fail_if_no_progress with_reducible apply Closed.other hP) | (dsimp only [-Nat.reducePow, Option.getD_some, Option.getD_none]) | (with_reducible apply ite_keeps) | split | (refine of_fst (by with_reducible assumption) ?_) | (refine of_snd (by with_reducible assumption) ?_) | (refine of_snd2 (by with_reducible assumption) ?_) | (refine of_mid (by with_reducible assumption) ?_) | (refine of_getD (s := s) (by with_reducible assumption) ?_))

theorem headFrame_keeps {P : State → Prop} (hP : Closed P) (q : Nat) (s : State) (hs0 : P s) : P (headFrame q s) := by
  unfold headFrame
  repeat' (first | (with_reducible assumption) | (intro _) | (with_reducible apply setQfr_keeps) | (fail_if_no_progress with_reducible apply Closed.other hP) | (dsimp only [-Nat.reducePow, Option.getD_some, Option.getD_none]) | (with_reducible apply ite_keeps) | split | (refine of_fst (by with_reducible assumption) ?_) | (refine of_snd (by with_reducible assumption) ?_) | (refine of_snd2 (by with_reducible assumption) ?_) | (refine of_mid (by with_reducible assumption) ?_) | (refine of_getD (s := s) (by with_reducible assumption) ?_))

theorem prefetch_keeps {P : State → Prop} (hP : Closed P) (q : Nat) (s : State) (hs0 : P s) : P (prefetch q s) := by
  unfold prefetch
  repeat' (first | (with_reducible assumption) | (intro _) | (with_reducible apply fbump_keeps) | (with_reducible apply forAll_keeps) | (with_reducible apply onlyIf_keeps) | (with_reducible apply pushBg_keeps) | (with_reducible apply nextUse_keeps) | (with_reducible apply setQfr_keeps) | (with_reducible apply optMap_keeps) | (with_reducible apply optGet_keeps) | (fail_if_no_progress with_reducible apply Closed.other hP) | (dsimp only [-Nat.reducePow, Option.getD_some, Option.getD_none]) | (with_reducible apply ite_keeps) | split | (refine of_fst (by with_reducible assumption) ?_) | (refine of_snd (by with_reducible assumption) ?_) | (refine of_snd2 (by with_reducible assumption) ?_) | (refine of_mid (by with_reducible assumption) ?_) | (refine of_getD (s := s) (by with_reducible assumption) ?_))

theorem deqEffect_keeps {P : State → Prop} (hP : Closed P) (hS : ClosedStrm P) (ring : Fin 16) (slot : Nat) (q : Nat) (e : JEntry) (l : List TakenCell) (poison : Bool) (quiet : Bool) (s : State) (hs0 : P s) : P (deqEffect ring slot q e l poison quiet s) := by
  unfold deqEffect
  repeat' (first | (with_reducible assumption) | (intro _) | (with_reducible apply fbumpN_keeps) | (with_reducible apply fbump_keeps) | (with_reducible apply forAll_keeps) | (with_reducible apply onlyIf_keeps) | (with_reducible apply setStrm_keeps) | (with_reducible apply updEntry_keeps) | (with_reducible apply setEntrySt_keeps) | (with_reducible apply setBrec_keeps) | (with_reducible apply nextUse_keeps) | (with_reducible apply setQfr_keeps) | (with_reducible apply stackLevel_keeps) | (with_reducible apply evict_keeps) | (with_reducible apply tollCharge_keeps) | (with_reducible apply queueFault_keeps) | (with_reducible apply writeQd_keeps) | (with_reducible apply queDone_keeps) | (with_reducible apply leaveChain_keeps) | (with_reducible apply headFrame_keeps) | (with_reducible apply prefetch_keeps) | (with_reducible apply optMap_keeps) | (with_reducible apply optGet_keeps) | (fail_if_no_progress with_reducible apply Closed.other hP) | (dsimp only [-Nat.reducePow, Option.getD_some, Option.getD_none]) | (with_reducible apply ite_keeps) | split | (refine of_fst (by with_reducible assumption) ?_) | (refine of_snd (by with_reducible assumption) ?_) | (refine of_snd2 (by with_reducible assumption) ?_) | (refine of_mid (by with_reducible assumption) ?_) | (refine of_getD (s := s) (by with_reducible assumption) ?_))

theorem deqApply_keeps {P : State → Prop} (hP : Closed P) (hS : ClosedStrm P) (hA : ClosedAcct P) (ring : Fin 16) (slot : Nat) (recBad : Option Nat) (eccs : List LineEcc) (quiet : Bool) (s : State) (hs0 : P s) : P (deqApply ring slot recBad eccs quiet s) := by
  unfold deqApply
  repeat' (first | (with_reducible assumption) | (intro _) | (with_reducible apply fbump_keeps) | (with_reducible apply forAll_keeps) | (with_reducible apply pushRead_keeps) | (with_reducible apply deferEval_keeps) | (with_reducible apply queueFault_keeps) | (with_reducible apply recError_keeps) | (with_reducible apply readAtOnce_keeps) | (with_reducible apply recAtOnce_keeps) | (with_reducible apply frameCell_keeps) | (with_reducible apply pushDirect_keeps) | (with_reducible apply dropBadCells_keeps) | (with_reducible apply deqEffect_keeps) | (with_reducible apply optMap_keeps) | (with_reducible apply optGet_keeps) | (with_reducible apply foldl_keeps) | (with_reducible apply foldl_keeps_fst) | (with_reducible apply foldl_keeps_snd) | (with_reducible apply foldl_keeps_snd2) | (fail_if_no_progress with_reducible apply Closed.other hP) | (dsimp only [-Nat.reducePow, Option.getD_some, Option.getD_none]) | (with_reducible apply ite_keeps) | split | (refine of_fst (by with_reducible assumption) ?_) | (refine of_snd (by with_reducible assumption) ?_) | (refine of_snd2 (by with_reducible assumption) ?_) | (refine of_mid (by with_reducible assumption) ?_) | (refine of_getD (s := s) (by with_reducible assumption) ?_))

theorem poolStart_keeps {P : State → Prop} (hP : Closed P) (base : Nat) (p : Nat) (s : State) (hs0 : P s) : P (poolStart base p s).1 := by
  unfold poolStart
  repeat' (first | (with_reducible assumption) | (intro _) | (with_reducible apply fset_keeps) | (with_reducible apply initStart_keeps) | (fail_if_no_progress with_reducible apply Closed.other hP) | (dsimp only [-Nat.reducePow, Option.getD_some, Option.getD_none]) | (with_reducible apply ite_keeps) | split | (refine of_fst (by with_reducible assumption) ?_) | (refine of_snd (by with_reducible assumption) ?_) | (refine of_snd2 (by with_reducible assumption) ?_) | (refine of_mid (by with_reducible assumption) ?_) | (refine of_getD (s := s) (by with_reducible assumption) ?_))

theorem poolReady_keeps {P : State → Prop} (hP : Closed P) (s : State) (hs0 : P s) : P (poolReady s) := by
  unfold poolReady
  repeat' (first | (with_reducible assumption) | (intro _) | (with_reducible apply fset_keeps) | (with_reducible apply emit_keeps) | (with_reducible apply queStat_keeps) | (fail_if_no_progress with_reducible apply Closed.other hP) | (dsimp only [-Nat.reducePow, Option.getD_some, Option.getD_none]) | (with_reducible apply ite_keeps) | split | (refine of_fst (by with_reducible assumption) ?_) | (refine of_snd (by with_reducible assumption) ?_) | (refine of_snd2 (by with_reducible assumption) ?_) | (refine of_mid (by with_reducible assumption) ?_) | (refine of_getD (s := s) (by with_reducible assumption) ?_))

theorem queuePool_keeps {P : State → Prop} (hP : Closed P) (base : Nat) (p : Nat) (s : State) (hs0 : P s) : P (queuePool base p s).1 := by
  unfold queuePool
  repeat' (first | (with_reducible assumption) | (intro _) | (with_reducible apply poolStart_keeps) | (fail_if_no_progress with_reducible apply Closed.other hP) | (dsimp only [-Nat.reducePow, Option.getD_some, Option.getD_none]) | (with_reducible apply ite_keeps) | split | (refine of_fst (by with_reducible assumption) ?_) | (refine of_snd (by with_reducible assumption) ?_) | (refine of_snd2 (by with_reducible assumption) ?_) | (refine of_mid (by with_reducible assumption) ?_) | (refine of_getD (s := s) (by with_reducible assumption) ?_))

theorem readRec_keeps {P : State → Prop} (hP : Closed P) (hA : ClosedAcct P) (q : Nat) (b : Nat) (s : State) (hs0 : P s) : P (readRec q b s) := by
  unfold readRec
  repeat' (first | (with_reducible assumption) | (intro _) | (with_reducible apply charge_keeps) | (with_reducible apply recAtOnce_keeps) | (with_reducible apply optMap_keeps) | (with_reducible apply optGet_keeps) | (fail_if_no_progress with_reducible apply Closed.other hP) | (dsimp only [-Nat.reducePow, Option.getD_some, Option.getD_none]) | (with_reducible apply ite_keeps) | split | (refine of_fst (by with_reducible assumption) ?_) | (refine of_snd (by with_reducible assumption) ?_) | (refine of_snd2 (by with_reducible assumption) ?_) | (refine of_mid (by with_reducible assumption) ?_) | (refine of_getD (s := s) (by with_reducible assumption) ?_))

theorem dropQueue_keeps {P : State → Prop} (hP : Closed P) (hA : ClosedAcct P) (q : Nat) (s : State) (hs0 : P s) : P (dropQueue q s).1 := by
  unfold dropQueue
  repeat' (first | (with_reducible assumption) | (intro _) | (with_reducible apply fbumpN_keeps) | (with_reducible apply forAll_keeps) | (with_reducible apply setQd_keeps) | (with_reducible apply setBrec_keeps) | (with_reducible apply queStat_keeps) | (with_reducible apply stackLevel_keeps) | (with_reducible apply freeQFrame_keeps) | (with_reducible apply evict_keeps) | (with_reducible apply leaveChain_keeps) | (with_reducible apply readRec_keeps) | (with_reducible apply optMap_keeps) | (with_reducible apply optGet_keeps) | (fail_if_no_progress with_reducible apply Closed.other hP) | (dsimp only [-Nat.reducePow, Option.getD_some, Option.getD_none]) | (with_reducible apply ite_keeps) | split | (refine of_fst (by with_reducible assumption) ?_) | (refine of_snd (by with_reducible assumption) ?_) | (refine of_snd2 (by with_reducible assumption) ?_) | (refine of_mid (by with_reducible assumption) ?_) | (refine of_getD (s := s) (by with_reducible assumption) ?_))

theorem queueReset_keeps {P : State → Prop} (hP : Closed P) (hA : ClosedAcct P) (q : Nat) (s : State) (hs0 : P s) : P (queueReset q s).1 := by
  unfold queueReset
  repeat' (first | (with_reducible assumption) | (intro _) | (with_reducible apply dropQueue_keeps) | (fail_if_no_progress with_reducible apply Closed.other hP) | (dsimp only [-Nat.reducePow, Option.getD_some, Option.getD_none]) | (with_reducible apply ite_keeps) | split | (refine of_fst (by with_reducible assumption) ?_) | (refine of_snd (by with_reducible assumption) ?_) | (refine of_snd2 (by with_reducible assumption) ?_) | (refine of_mid (by with_reducible assumption) ?_) | (refine of_getD (s := s) (by with_reducible assumption) ?_))

theorem execEnqApply_keeps {P : State → Prop} (hP : Closed P) (hI : ClosedIx P) (hS : ClosedStrm P) (hA : ClosedAcct P) (hD : ClosedDram P) (hW : ClosedWay P) (ring : Fin 16) (entry : Pick) (recBad : Option Nat) (s : State) (hs0 : P s) : ∀ out, execEnqApply ring entry recBad s = .next out → P out := by
  unfold execEnqApply
  intro out hout
  obtain rfl := Host.Outcome.next.inj hout
  repeat' (first | (with_reducible assumption) | (intro _) | (with_reducible apply settle_keeps) | (with_reducible apply actAll_keeps) | (with_reducible apply enqApply_keeps) | (fail_if_no_progress with_reducible apply Closed.other hP) | (dsimp only [-Nat.reducePow, Option.getD_some, Option.getD_none]) | (with_reducible apply ite_keeps) | split | (refine of_fst (by with_reducible assumption) ?_) | (refine of_snd (by with_reducible assumption) ?_) | (refine of_snd2 (by with_reducible assumption) ?_) | (refine of_mid (by with_reducible assumption) ?_) | (refine of_getD (s := s) (by with_reducible assumption) ?_))

theorem execDeqApply_keeps {P : State → Prop} (hP : Closed P) (hI : ClosedIx P) (hS : ClosedStrm P) (hA : ClosedAcct P) (hD : ClosedDram P) (hW : ClosedWay P) (ring : Fin 16) (entry : Pick) (recBad : Option Nat) (eccs : List LineEcc) (s : State) (hs0 : P s) : ∀ out, execDeqApply ring entry recBad eccs s = .next out → P out := by
  unfold execDeqApply
  intro out hout
  obtain rfl := Host.Outcome.next.inj hout
  repeat' (first | (with_reducible assumption) | (intro _) | (with_reducible apply settle_keeps) | (with_reducible apply actAll_keeps) | (with_reducible apply deqApply_keeps) | (fail_if_no_progress with_reducible apply Closed.other hP) | (dsimp only [-Nat.reducePow, Option.getD_some, Option.getD_none]) | (with_reducible apply ite_keeps) | split | (refine of_fst (by with_reducible assumption) ?_) | (refine of_snd (by with_reducible assumption) ?_) | (refine of_snd2 (by with_reducible assumption) ?_) | (refine of_mid (by with_reducible assumption) ?_) | (refine of_getD (s := s) (by with_reducible assumption) ?_))

theorem execQueuePoolReady_keeps {P : State → Prop} (hP : Closed P) (s : State) (hs0 : P s) : ∀ out, execQueuePoolReady s = .next out → P out := by
  unfold execQueuePoolReady
  intro out hout
  obtain rfl := Host.Outcome.next.inj hout
  repeat' (first | (with_reducible assumption) | (intro _) | (with_reducible apply poolReady_keeps) | (fail_if_no_progress with_reducible apply Closed.other hP) | (dsimp only [-Nat.reducePow, Option.getD_some, Option.getD_none]) | (with_reducible apply ite_keeps) | split | (refine of_fst (by with_reducible assumption) ?_) | (refine of_snd (by with_reducible assumption) ?_) | (refine of_snd2 (by with_reducible assumption) ?_) | (refine of_mid (by with_reducible assumption) ?_) | (refine of_getD (s := s) (by with_reducible assumption) ?_))

theorem execQueuePoolInit_keeps {P : State → Prop} (hP : Closed P) (cmd : Option (Nat × Nat)) (s : State) (hs0 : P s) : ∀ out, execQueuePoolInit cmd s = .next out → P out := by
  unfold execQueuePoolInit
  intro out hout
  obtain rfl := Host.Outcome.next.inj hout
  repeat' (first | (with_reducible assumption) | (intro _) | (with_reducible apply busWr_keeps) | (with_reducible apply runVerb1_keeps) | (with_reducible apply afterClear_keeps) | (with_reducible apply poolStart_keeps) | (with_reducible apply queuePool_keeps) | (fail_if_no_progress with_reducible apply Closed.other hP) | (dsimp only [-Nat.reducePow, Option.getD_some, Option.getD_none]) | (with_reducible apply ite_keeps) | split | (refine of_fst (by with_reducible assumption) ?_) | (refine of_snd (by with_reducible assumption) ?_) | (refine of_snd2 (by with_reducible assumption) ?_) | (refine of_mid (by with_reducible assumption) ?_) | (refine of_getD (s := s) (by with_reducible assumption) ?_))

theorem execQueueReset_keeps {P : State → Prop} (hP : Closed P) (hA : ClosedAcct P) (q : Nat) (s : State) (hs0 : P s) : ∀ out, execQueueReset q s = .next out → P out := by
  unfold execQueueReset
  intro out hout
  obtain rfl := Host.Outcome.next.inj hout
  repeat' (first | (with_reducible assumption) | (intro _) | (with_reducible apply runVerb1_keeps) | (with_reducible apply queueReset_keeps) | (fail_if_no_progress with_reducible apply Closed.other hP) | (dsimp only [-Nat.reducePow, Option.getD_some, Option.getD_none]) | (with_reducible apply ite_keeps) | split | (refine of_fst (by with_reducible assumption) ?_) | (refine of_snd (by with_reducible assumption) ?_) | (refine of_snd2 (by with_reducible assumption) ?_) | (refine of_mid (by with_reducible assumption) ?_) | (refine of_getD (s := s) (by with_reducible assumption) ?_))

end Sys2Proof.Laws
end

