-- ==== Sys2Proof/Laws/KManifest.lean ====
section
/-! SUPPORT. The operations of Machine/Manifest.lean keep every property closed under the writers that they reach. -/

namespace Sys2Proof.Laws
open Sys2Proof.Machine

set_option linter.unreachableTactic false
set_option linter.unusedTactic false
set_option linter.unusedVariables false

theorem forceDrop_keeps {P : State → Prop} (hP : Closed P) (hA : ClosedAcct P) (q : Nat) (s : State) (hs0 : P s) : P (forceDrop q s) := by
  unfold forceDrop
  repeat' (first | (with_reducible assumption) | (intro _) | (with_reducible apply fbump_keeps) | (with_reducible apply emit_keeps) | (with_reducible apply forAll_keeps) | (with_reducible apply setQd_keeps) | (with_reducible apply stackLevel_keeps) | (with_reducible apply leaveChain_keeps) | (with_reducible apply readRec_keeps) | (with_reducible apply dropQueue_keeps) | (fail_if_no_progress with_reducible apply Closed.other hP) | (dsimp only [-Nat.reducePow, Option.getD_some, Option.getD_none]) | (with_reducible apply ite_keeps) | split | (refine of_fst (by with_reducible assumption) ?_) | (refine of_snd (by with_reducible assumption) ?_) | (refine of_snd2 (by with_reducible assumption) ?_) | (refine of_mid (by with_reducible assumption) ?_) | (refine of_getD (s := s) (by with_reducible assumption) ?_))

theorem releaseFrames_keeps {P : State → Prop} (hP : Closed P) (m : BitVec 8) (s : State) (hs0 : P s) : P (releaseFrames m s) := by
  unfold releaseFrames
  repeat' (first | (with_reducible assumption) | (intro _) | (with_reducible apply forAll_keeps) | (with_reducible apply pushWb_keeps) | (with_reducible apply optMap_keeps) | (with_reducible apply optGet_keeps) | (fail_if_no_progress with_reducible apply Closed.other hP) | (dsimp only [-Nat.reducePow, Option.getD_some, Option.getD_none]) | (with_reducible apply ite_keeps) | split | (refine of_fst (by with_reducible assumption) ?_) | (refine of_snd (by with_reducible assumption) ?_) | (refine of_snd2 (by with_reducible assumption) ?_) | (refine of_mid (by with_reducible assumption) ?_) | (refine of_getD (s := s) (by with_reducible assumption) ?_))

theorem manClose_keeps {P : State → Prop} (hP : Closed P) (hM : ClosedMan P) (hA : ClosedAcct P) (m : Nat) (force : Bool) (s : State) (hs0 : P s) : P (manClose m force s).1 := by
  unfold manClose
  repeat' (first | (with_reducible assumption) | (intro _) | (with_reducible apply forAll_keeps) | (with_reducible apply setMan_keeps) | (with_reducible apply unloadMan_keeps) | (with_reducible apply forceDrop_keeps) | (with_reducible apply releaseFrames_keeps) | (fail_if_no_progress with_reducible apply Closed.other hP) | (dsimp only [-Nat.reducePow, Option.getD_some, Option.getD_none]) | (with_reducible apply ite_keeps) | split | (refine of_fst (by with_reducible assumption) ?_) | (refine of_snd (by with_reducible assumption) ?_) | (refine of_snd2 (by with_reducible assumption) ?_) | (refine of_mid (by with_reducible assumption) ?_) | (refine of_getD (s := s) (by with_reducible assumption) ?_))

theorem manClosed_keeps {P : State → Prop} (hP : Closed P) (hI : ClosedIx P) (hM : ClosedMan P) (hA : ClosedAcct P) (m : Nat) (s : State) (hs0 : P s) : P (manClosed m s) := by
  unfold manClosed
  repeat' (first | (with_reducible assumption) | (intro _) | (with_reducible apply emit_keeps) | (with_reducible apply forAll_keeps) | (with_reducible apply setMan_keeps) | (with_reducible apply manSums_keeps) | (with_reducible apply walkUnloaded_keeps) | (with_reducible apply forceDrop_keeps) | (with_reducible apply optMap_keeps) | (with_reducible apply optGet_keeps) | (fail_if_no_progress with_reducible apply Closed.other hP) | (dsimp only [-Nat.reducePow, Option.getD_some, Option.getD_none]) | (with_reducible apply ite_keeps) | split | (refine of_fst (by with_reducible assumption) ?_) | (refine of_snd (by with_reducible assumption) ?_) | (refine of_snd2 (by with_reducible assumption) ?_) | (refine of_mid (by with_reducible assumption) ?_) | (refine of_getD (s := s) (by with_reducible assumption) ?_))

theorem manModifyAll_keeps {P : State → Prop} (hP : Closed P) (hM : ClosedMan P) (hW : ClosedWay P) (m : Nat) (x : MMod) (s : State) (hs0 : P s) : P (manModifyAll m x s).1 := by
  unfold manModifyAll
  repeat' (first | (with_reducible assumption) | (intro _) | (with_reducible apply manModify_keeps) | (with_reducible apply wbHigh_keeps) | (with_reducible apply trimFrames_keeps) | (fail_if_no_progress with_reducible apply Closed.other hP) | (dsimp only [-Nat.reducePow, Option.getD_some, Option.getD_none]) | (with_reducible apply ite_keeps) | split | (refine of_fst (by with_reducible assumption) ?_) | (refine of_snd (by with_reducible assumption) ?_) | (refine of_snd2 (by with_reducible assumption) ?_) | (refine of_mid (by with_reducible assumption) ?_) | (refine of_getD (s := s) (by with_reducible assumption) ?_))

theorem execManifestOpen_keeps {P : State → Prop} (hP : Closed P) (hM : ClosedMan P) (man : Nat) (f : MFields) (s : State) (hs0 : P s) : ∀ out, execManifestOpen man f s = .next out → P out := by
  unfold execManifestOpen
  intro out hout
  obtain rfl := Host.Outcome.next.inj hout
  repeat' (first | (with_reducible assumption) | (intro _) | (with_reducible apply runVerb1_keeps) | (with_reducible apply manOpen_keeps) | (with_reducible apply afterClear_keeps) | (with_reducible apply layoutCommit_keeps) | (fail_if_no_progress with_reducible apply Closed.other hP) | (dsimp only [-Nat.reducePow, Option.getD_some, Option.getD_none]) | (with_reducible apply ite_keeps) | split | (refine of_fst (by with_reducible assumption) ?_) | (refine of_snd (by with_reducible assumption) ?_) | (refine of_snd2 (by with_reducible assumption) ?_) | (refine of_mid (by with_reducible assumption) ?_) | (refine of_getD (s := s) (by with_reducible assumption) ?_))

theorem execManifestModify_keeps {P : State → Prop} (hP : Closed P) (hM : ClosedMan P) (hW : ClosedWay P) (man : Nat) (m : MMod) (s : State) (hs0 : P s) : ∀ out, execManifestModify man m s = .next out → P out := by
  unfold execManifestModify
  intro out hout
  obtain rfl := Host.Outcome.next.inj hout
  repeat' (first | (with_reducible assumption) | (intro _) | (with_reducible apply runVerb1_keeps) | (with_reducible apply manModifyAll_keeps) | (fail_if_no_progress with_reducible apply Closed.other hP) | (dsimp only [-Nat.reducePow, Option.getD_some, Option.getD_none]) | (with_reducible apply ite_keeps) | split | (refine of_fst (by with_reducible assumption) ?_) | (refine of_snd (by with_reducible assumption) ?_) | (refine of_snd2 (by with_reducible assumption) ?_) | (refine of_mid (by with_reducible assumption) ?_) | (refine of_getD (s := s) (by with_reducible assumption) ?_))

theorem execManifestClose_keeps {P : State → Prop} (hP : Closed P) (hM : ClosedMan P) (hA : ClosedAcct P) (man : Nat) (force : Bool) (s : State) (hs0 : P s) : ∀ out, execManifestClose man force s = .next out → P out := by
  unfold execManifestClose
  intro out hout
  obtain rfl := Host.Outcome.next.inj hout
  repeat' (first | (with_reducible assumption) | (intro _) | (with_reducible apply runVerb1_keeps) | (with_reducible apply manClose_keeps) | (fail_if_no_progress with_reducible apply Closed.other hP) | (dsimp only [-Nat.reducePow, Option.getD_some, Option.getD_none]) | (with_reducible apply ite_keeps) | split | (refine of_fst (by with_reducible assumption) ?_) | (refine of_snd (by with_reducible assumption) ?_) | (refine of_snd2 (by with_reducible assumption) ?_) | (refine of_mid (by with_reducible assumption) ?_) | (refine of_getD (s := s) (by with_reducible assumption) ?_))

theorem execManifestClosed_keeps {P : State → Prop} (hP : Closed P) (hI : ClosedIx P) (hM : ClosedMan P) (hA : ClosedAcct P) (man : Nat) (s : State) (hs0 : P s) : ∀ out, execManifestClosed man s = .next out → P out := by
  unfold execManifestClosed
  intro out hout
  obtain rfl := Host.Outcome.next.inj hout
  repeat' (first | (with_reducible assumption) | (intro _) | (with_reducible apply manClosed_keeps) | (fail_if_no_progress with_reducible apply Closed.other hP) | (dsimp only [-Nat.reducePow, Option.getD_some, Option.getD_none]) | (with_reducible apply ite_keeps) | split | (refine of_fst (by with_reducible assumption) ?_) | (refine of_snd (by with_reducible assumption) ?_) | (refine of_snd2 (by with_reducible assumption) ?_) | (refine of_mid (by with_reducible assumption) ?_) | (refine of_getD (s := s) (by with_reducible assumption) ?_))

end Sys2Proof.Laws
end

