-- ==== Sys2Proof/Laws/KPeriod.lean ====
section
/-! SUPPORT. The operations of Machine/Period.lean keep every property closed under the writers that they reach. -/

namespace Sys2Proof.Laws
open Sys2Proof.Machine

set_option linter.unreachableTactic false
set_option linter.unusedTactic false
set_option linter.unusedVariables false

theorem periodAccount_keeps {P : State → Prop} (hP : Closed P) (hM : ClosedMan P) (hA : ClosedAcct P) (l : List (Nat × MFields)) (c : Fin 16) (m : Nat) (s : State) (hs0 : P s) : P (periodAccount l c m s) := by
  unfold periodAccount
  repeat' (first | (with_reducible assumption) | (intro _) | (with_reducible apply irq_keeps) | (with_reducible apply emit_keeps) | (with_reducible apply onlyIf_keeps) | (with_reducible apply setMan_keeps) | (with_reducible apply setAcct_keeps) | (fail_if_no_progress with_reducible apply Closed.other hP) | (dsimp only [-Nat.reducePow, Option.getD_some, Option.getD_none]) | (with_reducible apply ite_keeps) | split | (refine of_fst (by with_reducible assumption) ?_) | (refine of_snd (by with_reducible assumption) ?_) | (refine of_snd2 (by with_reducible assumption) ?_) | (refine of_mid (by with_reducible assumption) ?_) | (refine of_getD (s := s) (by with_reducible assumption) ?_))

theorem manWord9_keeps {P : State → Prop} (hP : Closed P) (hM : ClosedMan P) (l : List (Nat × MFields)) (m : Nat) (s : State) (hs0 : P s) : P (manWord9 l m s) := by
  unfold manWord9
  repeat' (first | (with_reducible assumption) | (intro _) | (with_reducible apply setMan_keeps) | (with_reducible apply optMap_keeps) | (with_reducible apply optGet_keeps) | (with_reducible apply foldl_keeps) | (with_reducible apply foldl_keeps_fst) | (with_reducible apply foldl_keeps_snd) | (with_reducible apply foldl_keeps_snd2) | (fail_if_no_progress with_reducible apply Closed.other hP) | (dsimp only [-Nat.reducePow, Option.getD_some, Option.getD_none]) | (with_reducible apply ite_keeps) | split | (refine of_fst (by with_reducible assumption) ?_) | (refine of_snd (by with_reducible assumption) ?_) | (refine of_snd2 (by with_reducible assumption) ?_) | (refine of_mid (by with_reducible assumption) ?_) | (refine of_getD (s := s) (by with_reducible assumption) ?_))

theorem wayShare_keeps {P : State → Prop} (hP : Closed P) (hM : ClosedMan P) (hW : ClosedWay P) (l : List (Nat × MFields)) (m : Nat) (s : State) (hs0 : P s) : P (wayShare l m s) := by
  unfold wayShare
  repeat' (first | (with_reducible assumption) | (intro _) | (with_reducible apply irq_keeps) | (with_reducible apply emit_keeps) | (with_reducible apply onlyIf_keeps) | (with_reducible apply setMan_keeps) | (with_reducible apply trimFrames_keeps) | (with_reducible apply optMap_keeps) | (with_reducible apply optGet_keeps) | (fail_if_no_progress with_reducible apply Closed.other hP) | (dsimp only [-Nat.reducePow, Option.getD_some, Option.getD_none]) | (with_reducible apply ite_keeps) | split | (refine of_fst (by with_reducible assumption) ?_) | (refine of_snd (by with_reducible assumption) ?_) | (refine of_snd2 (by with_reducible assumption) ?_) | (refine of_mid (by with_reducible assumption) ?_) | (refine of_getD (s := s) (by with_reducible assumption) ?_))

theorem bucketPeriod_keeps {P : State → Prop} (hP : Closed P) (c : Fin 16) (s : State) (hs0 : P s) : P (bucketPeriod c s) := by
  unfold bucketPeriod
  repeat' (first | (with_reducible assumption) | (intro _) | (with_reducible apply updChan_keeps) | (fail_if_no_progress with_reducible apply Closed.other hP) | (dsimp only [-Nat.reducePow, Option.getD_some, Option.getD_none]) | (with_reducible apply ite_keeps) | split | (refine of_fst (by with_reducible assumption) ?_) | (refine of_snd (by with_reducible assumption) ?_) | (refine of_snd2 (by with_reducible assumption) ?_) | (refine of_mid (by with_reducible assumption) ?_) | (refine of_getD (s := s) (by with_reducible assumption) ?_))

theorem periodAccounts_keeps {P : State → Prop} (hP : Closed P) (hM : ClosedMan P) (hA : ClosedAcct P) (hW : ClosedWay P) (replay : Bool) (s : State) (hs0 : P s) : P (periodAccounts replay s) := by
  unfold periodAccounts
  repeat' (first | (with_reducible assumption) | (intro _) | (with_reducible apply fset_keeps) | (with_reducible apply fsetB_keeps) | (with_reducible apply forAll_keeps) | (with_reducible apply setAcct_keeps) | (with_reducible apply acctsZero_keeps) | (with_reducible apply manBoundary_keeps) | (with_reducible apply periodAccount_keeps) | (with_reducible apply manWord9_keeps) | (with_reducible apply wayShare_keeps) | (with_reducible apply optMap_keeps) | (with_reducible apply optGet_keeps) | (fail_if_no_progress with_reducible apply Closed.other hP) | (dsimp only [-Nat.reducePow, Option.getD_some, Option.getD_none]) | (with_reducible apply ite_keeps) | split | (refine of_fst (by with_reducible assumption) ?_) | (refine of_snd (by with_reducible assumption) ?_) | (refine of_snd2 (by with_reducible assumption) ?_) | (refine of_mid (by with_reducible assumption) ?_) | (refine of_getD (s := s) (by with_reducible assumption) ?_))

theorem periodBoundary_keeps {P : State → Prop} (hP : Closed P) (hM : ClosedMan P) (hA : ClosedAcct P) (hW : ClosedWay P) (s : State) (hs0 : P s) : P (periodBoundary s) := by
  unfold periodBoundary
  repeat' (first | (with_reducible assumption) | (intro _) | (with_reducible apply forAll_keeps) | (with_reducible apply advanceToNs_keeps) | (with_reducible apply covAll_keeps) | (with_reducible apply bucketPeriod_keeps) | (with_reducible apply periodAccounts_keeps) | (fail_if_no_progress with_reducible apply Closed.other hP) | (dsimp only [-Nat.reducePow, Option.getD_some, Option.getD_none]) | (with_reducible apply ite_keeps) | split | (refine of_fst (by with_reducible assumption) ?_) | (refine of_snd (by with_reducible assumption) ?_) | (refine of_snd2 (by with_reducible assumption) ?_) | (refine of_mid (by with_reducible assumption) ?_) | (refine of_getD (s := s) (by with_reducible assumption) ?_))

theorem tollRefill_keeps {P : State → Prop} (hP : Closed P) (n : Nat) (p : Fin 4) (s : State) (hs0 : P s) : P (tollRefill n p s) := by
  unfold tollRefill
  repeat' (first | (with_reducible assumption) | (intro _) | (with_reducible apply setToll_keeps) | (fail_if_no_progress with_reducible apply Closed.other hP) | (dsimp only [-Nat.reducePow, Option.getD_some, Option.getD_none]) | (with_reducible apply ite_keeps) | split | (refine of_fst (by with_reducible assumption) ?_) | (refine of_snd (by with_reducible assumption) ?_) | (refine of_snd2 (by with_reducible assumption) ?_) | (refine of_mid (by with_reducible assumption) ?_) | (refine of_getD (s := s) (by with_reducible assumption) ?_))

theorem execPeriodBoundary_keeps {P : State → Prop} (hP : Closed P) (hM : ClosedMan P) (hA : ClosedAcct P) (hW : ClosedWay P) (s : State) (hs0 : P s) : ∀ out, execPeriodBoundary s = .next out → P out := by
  unfold execPeriodBoundary
  intro out hout
  obtain rfl := Host.Outcome.next.inj hout
  repeat' (first | (with_reducible assumption) | (intro _) | (with_reducible apply periodBoundary_keeps) | (fail_if_no_progress with_reducible apply Closed.other hP) | (dsimp only [-Nat.reducePow, Option.getD_some, Option.getD_none]) | (with_reducible apply ite_keeps) | split | (refine of_fst (by with_reducible assumption) ?_) | (refine of_snd (by with_reducible assumption) ?_) | (refine of_snd2 (by with_reducible assumption) ?_) | (refine of_mid (by with_reducible assumption) ?_) | (refine of_getD (s := s) (by with_reducible assumption) ?_))

theorem execTollGateRefill_keeps {P : State → Prop} (hP : Closed P) (s : State) (hs0 : P s) : ∀ out, execTollGateRefill s = .next out → P out := by
  unfold execTollGateRefill
  intro out hout
  obtain rfl := Host.Outcome.next.inj hout
  repeat' (first | (with_reducible assumption) | (intro _) | (with_reducible apply forAll_keeps) | (with_reducible apply advanceToNs_keeps) | (with_reducible apply tollRefill_keeps) | (fail_if_no_progress with_reducible apply Closed.other hP) | (dsimp only [-Nat.reducePow, Option.getD_some, Option.getD_none]) | (with_reducible apply ite_keeps) | split | (refine of_fst (by with_reducible assumption) ?_) | (refine of_snd (by with_reducible assumption) ?_) | (refine of_snd2 (by with_reducible assumption) ?_) | (refine of_mid (by with_reducible assumption) ?_) | (refine of_getD (s := s) (by with_reducible assumption) ?_))

theorem execHorizonHoldExpiry_keeps {P : State → Prop} (hP : Closed P) (s : State) (hs0 : P s) : ∀ out, execHorizonHoldExpiry s = .next out → P out := by
  unfold execHorizonHoldExpiry
  intro out hout
  obtain rfl := Host.Outcome.next.inj hout
  repeat' (first | (with_reducible assumption) | (intro _) | (with_reducible apply advanceToNs_keeps) | (with_reducible apply setHorizon_keeps) | (fail_if_no_progress with_reducible apply Closed.other hP) | (dsimp only [-Nat.reducePow, Option.getD_some, Option.getD_none]) | (with_reducible apply ite_keeps) | split | (refine of_fst (by with_reducible assumption) ?_) | (refine of_snd (by with_reducible assumption) ?_) | (refine of_snd2 (by with_reducible assumption) ?_) | (refine of_mid (by with_reducible assumption) ?_) | (refine of_getD (s := s) (by with_reducible assumption) ?_))

end Sys2Proof.Laws
end

