-- ==== Sys2Proof/Laws/KCompare.lean ====
section
/-! SUPPORT. The operations of Machine/Compare.lean keep every property closed under the writers that they reach. -/

namespace Sys2Proof.Laws
open Sys2Proof.Machine

set_option linter.unreachableTactic false
set_option linter.unusedTactic false
set_option linter.unusedVariables false


theorem ixPut_keeps {P : State → Prop} (hP : Closed P) (hI : ClosedIx P) (b : Nat) (i : Nat) (lo : Nat) (w : Nat) (v : Nat) (s : State) (hs0 : P s) : P (ixPut b i lo w v s) := by
  unfold ixPut
  repeat' (first | (with_reducible assumption) | (intro _) | (with_reducible apply ixSet_keeps) | (fail_if_no_progress with_reducible apply Closed.other hP) | (dsimp only [-Nat.reducePow, Option.getD_some, Option.getD_none]) | (with_reducible apply ite_keeps) | split | (refine of_fst (by with_reducible assumption) ?_) | (refine of_snd (by with_reducible assumption) ?_) | (refine of_snd2 (by with_reducible assumption) ?_) | (refine of_mid (by with_reducible assumption) ?_) | (refine of_getD (s := s) (by with_reducible assumption) ?_))

theorem countDiffs_keeps {P : State → Prop} (hP : Closed P) (hI : ClosedIx P) (c : Fin 16) (ds : List (List Nat)) (s : State) (hs0 : P s) : P (countDiffs c ds s) := by
  unfold countDiffs
  repeat' (first | (with_reducible assumption) | (intro _) | (with_reducible apply ixSet_keeps) | (with_reducible apply forAll_keeps) | (with_reducible apply ixPut_keeps) | (fail_if_no_progress with_reducible apply Closed.other hP) | (dsimp only [-Nat.reducePow, Option.getD_some, Option.getD_none]) | (with_reducible apply ite_keeps) | split | (refine of_fst (by with_reducible assumption) ?_) | (refine of_snd (by with_reducible assumption) ?_) | (refine of_snd2 (by with_reducible assumption) ?_) | (refine of_mid (by with_reducible assumption) ?_) | (refine of_getD (s := s) (by with_reducible assumption) ?_))

theorem compareClear_keeps {P : State → Prop} (hP : Closed P) (hI : ClosedIx P) (c : Fin 16) (s : State) (hs0 : P s) : P (compareClear c s) := by
  unfold compareClear
  repeat' (first | (with_reducible assumption) | (intro _) | (with_reducible apply ixSet_keeps) | (with_reducible apply forAll_keeps) | (with_reducible apply ixPut_keeps) | (fail_if_no_progress with_reducible apply Closed.other hP) | (dsimp only [-Nat.reducePow, Option.getD_some, Option.getD_none]) | (with_reducible apply ite_keeps) | split | (refine of_fst (by with_reducible assumption) ?_) | (refine of_snd (by with_reducible assumption) ?_) | (refine of_snd2 (by with_reducible assumption) ?_) | (refine of_mid (by with_reducible assumption) ?_) | (refine of_getD (s := s) (by with_reducible assumption) ?_))

theorem probeAt_keeps {P : State → Prop} (hP : Closed P) (hI : ClosedIx P) (c : Fin 16) (l : List Probe) (pos : Int) (s : State) (hs0 : P s) : P (probeAt c l pos s).2 := by
  unfold probeAt
  repeat' (first | (with_reducible assumption) | (intro _) | (with_reducible apply countDiffs_keeps) | (fail_if_no_progress with_reducible apply Closed.other hP) | (dsimp only [-Nat.reducePow, Option.getD_some, Option.getD_none]) | (with_reducible apply ite_keeps) | split | (refine of_fst (by with_reducible assumption) ?_) | (refine of_snd (by with_reducible assumption) ?_) | (refine of_snd2 (by with_reducible assumption) ?_) | (refine of_mid (by with_reducible assumption) ?_) | (refine of_getD (s := s) (by with_reducible assumption) ?_))

theorem sweepScan_keeps {P : State → Prop} (hP : Closed P) (hI : ClosedIx P) (c : Fin 16) (l : List Probe) (x0 : List Nat) (x1 : Nat) (x2 : State) (hs0 : P x2) : P (sweepScan c l x0 x1 x2).2 := by
  fun_induction sweepScan c l x0 x1 x2
  all_goals repeat' (first | (with_reducible assumption) | (intro _) | (with_reducible apply countDiffs_keeps) | (with_reducible apply compareClear_keeps) | (with_reducible apply optMap_keeps) | (with_reducible apply optGet_keeps) | (fail_if_no_progress with_reducible apply Closed.other hP) | (dsimp only [-Nat.reducePow, Option.getD_some, Option.getD_none]) | (with_reducible apply ite_keeps) | split | (refine of_fst (by with_reducible assumption) ?_) | (refine of_snd (by with_reducible assumption) ?_) | (refine of_snd2 (by with_reducible assumption) ?_) | (refine of_mid (by with_reducible assumption) ?_) | (refine of_getD (s := x2) (by with_reducible assumption) ?_) | apply_assumption)

theorem sweepWrite_keeps {P : State → Prop} (hP : Closed P) (hD : ClosedDram P) (c : Fin 16) (r : Nat) (total : Nat) (s : State) (hs0 : P s) : P (sweepWrite c r total s) := by
  unfold sweepWrite
  repeat' (first | (with_reducible assumption) | (intro _) | (with_reducible apply forAll_keeps) | (with_reducible apply storeLine_keeps) | (with_reducible apply optMap_keeps) | (with_reducible apply optGet_keeps) | (fail_if_no_progress with_reducible apply Closed.other hP) | (dsimp only [-Nat.reducePow, Option.getD_some, Option.getD_none]) | (with_reducible apply ite_keeps) | split | (refine of_fst (by with_reducible assumption) ?_) | (refine of_snd (by with_reducible assumption) ?_) | (refine of_snd2 (by with_reducible assumption) ?_) | (refine of_mid (by with_reducible assumption) ?_) | (refine of_getD (s := s) (by with_reducible assumption) ?_))

end Sys2Proof.Laws
end

