-- ==== Sys2Proof/Laws/KPhy.lean ====
section
/-! SUPPORT. The operations of Machine/Phy.lean keep every property closed under the writers that they reach. -/

namespace Sys2Proof.Laws
open Sys2Proof.Machine

set_option linter.unreachableTactic false
set_option linter.unusedTactic false
set_option linter.unusedVariables false

theorem applyEyes_keeps {P : State → Prop} (hP : Closed P) (hI : ClosedIx P) (c : Fin 16) (l : List Eye) (u0 : Nat) (n : Nat) (base : Nat) (lo : Nat) (w : Nat) (s : State) (hs0 : P s) : P (applyEyes c l u0 n base lo w s) := by
  unfold applyEyes
  repeat' (first | (with_reducible assumption) | (intro _) | (with_reducible apply forAll_keeps) | (with_reducible apply ixPut_keeps) | (fail_if_no_progress with_reducible apply Closed.other hP) | (dsimp only [-Nat.reducePow, Option.getD_some, Option.getD_none]) | (with_reducible apply ite_keeps) | split | (refine of_fst (by with_reducible assumption) ?_) | (refine of_snd (by with_reducible assumption) ?_) | (refine of_snd2 (by with_reducible assumption) ?_) | (refine of_mid (by with_reducible assumption) ?_) | (refine of_getD (s := s) (by with_reducible assumption) ?_))

theorem recordEyes_keeps {P : State → Prop} (hP : Closed P) (hI : ClosedIx P) (c : Fin 16) (l : List Eye) (lo : Nat) (s : State) (hs0 : P s) : P (recordEyes c l lo s) := by
  unfold recordEyes
  repeat' (first | (with_reducible assumption) | (intro _) | (with_reducible apply forAll_keeps) | (with_reducible apply ixPut_keeps) | (fail_if_no_progress with_reducible apply Closed.other hP) | (dsimp only [-Nat.reducePow, Option.getD_some, Option.getD_none]) | (with_reducible apply ite_keeps) | split | (refine of_fst (by with_reducible assumption) ?_) | (refine of_snd (by with_reducible assumption) ?_) | (refine of_snd2 (by with_reducible assumption) ?_) | (refine of_mid (by with_reducible assumption) ?_) | (refine of_getD (s := s) (by with_reducible assumption) ?_))

theorem trainFail_keeps {P : State → Prop} (hP : Closed P) (c : Fin 16) (f : TrnFail) (s : State) (hs0 : P s) : P (trainFail c f s) := by
  unfold trainFail
  repeat' (first | (with_reducible assumption) | (intro _) | (with_reducible apply fset_keeps) | (with_reducible apply emit_keeps) | (with_reducible apply updChan_keeps) | (with_reducible apply updPhy_keeps) | (with_reducible apply setChState_keeps) | (fail_if_no_progress with_reducible apply Closed.other hP) | (dsimp only [-Nat.reducePow, Option.getD_some, Option.getD_none]) | (with_reducible apply ite_keeps) | split | (refine of_fst (by with_reducible assumption) ?_) | (refine of_snd (by with_reducible assumption) ?_) | (refine of_snd2 (by with_reducible assumption) ?_) | (refine of_mid (by with_reducible assumption) ?_) | (refine of_getD (s := s) (by with_reducible assumption) ?_))

theorem applyFound_keeps {P : State → Prop} (hP : Closed P) (hI : ClosedIx P) (c : Fin 16) (l : List (Fin 2 × Nat × Option Nat)) (base : Nat) (w : Nat) (s : State) (hs0 : P s) : P (applyFound c l base w s) := by
  unfold applyFound
  repeat' (first | (with_reducible assumption) | (intro _) | (with_reducible apply forAll_keeps) | (with_reducible apply ixPut_keeps) | (fail_if_no_progress with_reducible apply Closed.other hP) | (dsimp only [-Nat.reducePow, Option.getD_some, Option.getD_none]) | (with_reducible apply ite_keeps) | split | (refine of_fst (by with_reducible assumption) ?_) | (refine of_snd (by with_reducible assumption) ?_) | (refine of_snd2 (by with_reducible assumption) ?_) | (refine of_mid (by with_reducible assumption) ?_) | (refine of_getD (s := s) (by with_reducible assumption) ?_))

theorem identEffect_keeps {P : State → Prop} (hP : Closed P) (c : Fin 16) (l : List DevId) (s : State) (hs0 : P s) : P (identEffect c l s) := by
  unfold identEffect
  repeat' (first | (with_reducible assumption) | (intro _) | (with_reducible apply fset_keeps) | (with_reducible apply updPhy_keeps) | (fail_if_no_progress with_reducible apply Closed.other hP) | (dsimp only [-Nat.reducePow, Option.getD_some, Option.getD_none]) | (with_reducible apply ite_keeps) | split | (refine of_fst (by with_reducible assumption) ?_) | (refine of_snd (by with_reducible assumption) ?_) | (refine of_snd2 (by with_reducible assumption) ?_) | (refine of_mid (by with_reducible assumption) ?_) | (refine of_getD (s := s) (by with_reducible assumption) ?_))

theorem putTaps_keeps {P : State → Prop} (hP : Closed P) (c : Fin 16) (l : List Eye) (s : State) (hs0 : P s) : P (putTaps c l s) := by
  unfold putTaps
  repeat' (first | (with_reducible assumption) | (intro _) | (with_reducible apply updPhy_keeps) | (with_reducible apply foldl_keeps) | (with_reducible apply foldl_keeps_fst) | (with_reducible apply foldl_keeps_snd) | (with_reducible apply foldl_keeps_snd2) | (fail_if_no_progress with_reducible apply Closed.other hP) | (dsimp only [-Nat.reducePow, Option.getD_some, Option.getD_none]) | (with_reducible apply ite_keeps) | split | (refine of_fst (by with_reducible assumption) ?_) | (refine of_snd (by with_reducible assumption) ?_) | (refine of_snd2 (by with_reducible assumption) ?_) | (refine of_mid (by with_reducible assumption) ?_) | (refine of_getD (s := s) (by with_reducible assumption) ?_))

theorem adaptDfe_keeps {P : State → Prop} (hP : Closed P) (hI : ClosedIx P) (c : Fin 16) (s : State) (hs0 : P s) : P (adaptDfe c s) := by
  unfold adaptDfe
  repeat' (first | (with_reducible assumption) | (intro _) | (with_reducible apply ixSet_keeps) | (with_reducible apply takeFree_keeps) | (with_reducible apply forAll_keeps) | (fail_if_no_progress with_reducible apply Closed.other hP) | (dsimp only [-Nat.reducePow, Option.getD_some, Option.getD_none]) | (with_reducible apply ite_keeps) | split | (refine of_fst (by with_reducible assumption) ?_) | (refine of_snd (by with_reducible assumption) ?_) | (refine of_snd2 (by with_reducible assumption) ?_) | (refine of_mid (by with_reducible assumption) ?_) | (refine of_getD (s := s) (by with_reducible assumption) ?_))

theorem zeroFill_keeps {P : State → Prop} (hP : Closed P) (hD : ClosedDram P) (c : Fin 16) (s : State) (hs0 : P s) : P (zeroFill c s) := by
  unfold zeroFill
  repeat' (first | (with_reducible assumption) | (intro _) | (with_reducible apply updChan_keeps) | (with_reducible apply forAll_keeps) | (with_reducible apply setDram_keeps) | (with_reducible apply dramClear_keeps) | (fail_if_no_progress with_reducible apply Closed.other hP) | (dsimp only [-Nat.reducePow, Option.getD_some, Option.getD_none]) | (with_reducible apply ite_keeps) | split | (refine of_fst (by with_reducible assumption) ?_) | (refine of_snd (by with_reducible assumption) ?_) | (refine of_snd2 (by with_reducible assumption) ?_) | (refine of_mid (by with_reducible assumption) ?_) | (refine of_getD (s := s) (by with_reducible assumption) ?_))

theorem keepTrained_keeps {P : State → Prop} (hP : Closed P) (hI : ClosedIx P) (c : Fin 16) (s : State) (hs0 : P s) : P (keepTrained c s) := by
  unfold keepTrained
  repeat' (first | (with_reducible assumption) | (intro _) | (with_reducible apply updPhy_keeps) | (with_reducible apply forAll_keeps) | (with_reducible apply ixPut_keeps) | (fail_if_no_progress with_reducible apply Closed.other hP) | (dsimp only [-Nat.reducePow, Option.getD_some, Option.getD_none]) | (with_reducible apply ite_keeps) | split | (refine of_fst (by with_reducible assumption) ?_) | (refine of_snd (by with_reducible assumption) ?_) | (refine of_snd2 (by with_reducible assumption) ?_) | (refine of_mid (by with_reducible assumption) ?_) | (refine of_getD (s := s) (by with_reducible assumption) ?_))

theorem trainDone_keeps {P : State → Prop} (hP : Closed P) (hI : ClosedIx P) (hD : ClosedDram P) (c : Fin 16) (s : State) (hs0 : P s) : P (trainDone c s) := by
  unfold trainDone
  repeat' (first | (with_reducible assumption) | (intro _) | (with_reducible apply fset_keeps) | (with_reducible apply emit_keeps) | (with_reducible apply updPhy_keeps) | (with_reducible apply setChState_keeps) | (with_reducible apply zeroFill_keeps) | (with_reducible apply keepTrained_keeps) | (fail_if_no_progress with_reducible apply Closed.other hP) | (dsimp only [-Nat.reducePow, Option.getD_some, Option.getD_none]) | (with_reducible apply ite_keeps) | split | (refine of_fst (by with_reducible assumption) ?_) | (refine of_snd (by with_reducible assumption) ?_) | (refine of_snd2 (by with_reducible assumption) ?_) | (refine of_mid (by with_reducible assumption) ?_) | (refine of_getD (s := s) (by with_reducible assumption) ?_))

theorem stepEffect_keeps {P : State → Prop} (hP : Closed P) (hI : ClosedIx P) (c : Fin 16) (k : Nat) (a : StepAns) (s : State) (hs0 : P s) : P (stepEffect c k a s) := by
  unfold stepEffect
  repeat' (first | (with_reducible assumption) | (intro _) | (with_reducible apply fset_keeps) | (with_reducible apply updPhy_keeps) | (with_reducible apply forAll_keeps) | (with_reducible apply ixPut_keeps) | (with_reducible apply applyEyes_keeps) | (with_reducible apply recordEyes_keeps) | (with_reducible apply applyFound_keeps) | (with_reducible apply identEffect_keeps) | (with_reducible apply putTaps_keeps) | (with_reducible apply adaptDfe_keeps) | (with_reducible apply foldl_keeps) | (with_reducible apply foldl_keeps_fst) | (with_reducible apply foldl_keeps_snd) | (with_reducible apply foldl_keeps_snd2) | (fail_if_no_progress with_reducible apply Closed.other hP) | (dsimp only [-Nat.reducePow, Option.getD_some, Option.getD_none]) | (with_reducible apply ite_keeps) | split | (refine of_fst (by with_reducible assumption) ?_) | (refine of_snd (by with_reducible assumption) ?_) | (refine of_snd2 (by with_reducible assumption) ?_) | (refine of_mid (by with_reducible assumption) ?_) | (refine of_getD (s := s) (by with_reducible assumption) ?_))

theorem trainStep_keeps {P : State → Prop} (hP : Closed P) (hI : ClosedIx P) (hD : ClosedDram P) (c : Fin 16) (a : StepAns) (s : State) (hs0 : P s) : P (trainStep c a s) := by
  unfold trainStep
  repeat' (first | (with_reducible assumption) | (intro _) | (with_reducible apply fset_keeps) | (with_reducible apply updPhy_keeps) | (with_reducible apply trainFail_keeps) | (with_reducible apply trainDone_keeps) | (with_reducible apply stepEffect_keeps) | (fail_if_no_progress with_reducible apply Closed.other hP) | (dsimp only [-Nat.reducePow, Option.getD_some, Option.getD_none]) | (with_reducible apply ite_keeps) | split | (refine of_fst (by with_reducible assumption) ?_) | (refine of_snd (by with_reducible assumption) ?_) | (refine of_snd2 (by with_reducible assumption) ?_) | (refine of_mid (by with_reducible assumption) ?_) | (refine of_getD (s := s) (by with_reducible assumption) ?_))

theorem trainRun_keeps {P : State → Prop} (hP : Closed P) (hI : ClosedIx P) (hD : ClosedDram P) (c : Fin 16) (l : List StepAns) (s : State) (hs0 : P s) : P (trainRun c l s) := by
  unfold trainRun
  repeat' (first | (with_reducible assumption) | (intro _) | (with_reducible apply forAll_keeps) | (with_reducible apply trainStep_keeps) | (fail_if_no_progress with_reducible apply Closed.other hP) | (dsimp only [-Nat.reducePow, Option.getD_some, Option.getD_none]) | (with_reducible apply ite_keeps) | split | (refine of_fst (by with_reducible assumption) ?_) | (refine of_snd (by with_reducible assumption) ?_) | (refine of_snd2 (by with_reducible assumption) ?_) | (refine of_mid (by with_reducible assumption) ?_) | (refine of_getD (s := s) (by with_reducible assumption) ?_))

theorem trainBegin_keeps {P : State → Prop} (hP : Closed P) (c : Fin 16) (manual : Bool) (s : State) (hs0 : P s) : P (trainBegin c manual s) := by
  unfold trainBegin
  repeat' (first | (with_reducible assumption) | (intro _) | (with_reducible apply fset_keeps) | (with_reducible apply updChan_keeps) | (with_reducible apply updPhy_keeps) | (with_reducible apply fsetBit_keeps) | (fail_if_no_progress with_reducible apply Closed.other hP) | (dsimp only [-Nat.reducePow, Option.getD_some, Option.getD_none]) | (with_reducible apply ite_keeps) | split | (refine of_fst (by with_reducible assumption) ?_) | (refine of_snd (by with_reducible assumption) ?_) | (refine of_snd2 (by with_reducible assumption) ?_) | (refine of_mid (by with_reducible assumption) ?_) | (refine of_getD (s := s) (by with_reducible assumption) ?_))

theorem trainStart_keeps {P : State → Prop} (hP : Closed P) (hI : ClosedIx P) (hD : ClosedDram P) (c : Fin 16) (manual : Bool) (ans : List StepAns) (s : State) (hs0 : P s) : P (trainStart c manual ans s) := by
  unfold trainStart
  repeat' (first | (with_reducible assumption) | (intro _) | (with_reducible apply setChState_keeps) | (with_reducible apply trainRun_keeps) | (with_reducible apply trainBegin_keeps) | (fail_if_no_progress with_reducible apply Closed.other hP) | (dsimp only [-Nat.reducePow, Option.getD_some, Option.getD_none]) | (with_reducible apply ite_keeps) | split | (refine of_fst (by with_reducible assumption) ?_) | (refine of_snd (by with_reducible assumption) ?_) | (refine of_snd2 (by with_reducible assumption) ?_) | (refine of_mid (by with_reducible assumption) ?_) | (refine of_getD (s := s) (by with_reducible assumption) ?_))

theorem trainEnd_keeps {P : State → Prop} (hP : Closed P) (hI : ClosedIx P) (hD : ClosedDram P) (c : Fin 16) (ans : List StepAns) (s : State) (hs0 : P s) : P (trainEnd c ans s) := by
  unfold trainEnd
  repeat' (first | (with_reducible assumption) | (intro _) | (with_reducible apply fset_keeps) | (with_reducible apply updPhy_keeps) | (with_reducible apply trainRun_keeps) | (fail_if_no_progress with_reducible apply Closed.other hP) | (dsimp only [-Nat.reducePow, Option.getD_some, Option.getD_none]) | (with_reducible apply ite_keeps) | split | (refine of_fst (by with_reducible assumption) ?_) | (refine of_snd (by with_reducible assumption) ?_) | (refine of_snd2 (by with_reducible assumption) ?_) | (refine of_mid (by with_reducible assumption) ?_) | (refine of_getD (s := s) (by with_reducible assumption) ?_))

theorem trainAbort_keeps {P : State → Prop} (hP : Closed P) (c : Fin 16) (reason : Nat) (s : State) (hs0 : P s) : P (trainAbort c reason s) := by
  unfold trainAbort
  repeat' (first | (with_reducible assumption) | (intro _) | (with_reducible apply trainFail_keeps) | (fail_if_no_progress with_reducible apply Closed.other hP) | (dsimp only [-Nat.reducePow, Option.getD_some, Option.getD_none]) | (with_reducible apply ite_keeps) | split | (refine of_fst (by with_reducible assumption) ?_) | (refine of_snd (by with_reducible assumption) ?_) | (refine of_snd2 (by with_reducible assumption) ?_) | (refine of_mid (by with_reducible assumption) ?_) | (refine of_getD (s := s) (by with_reducible assumption) ?_))

theorem wrRej_keeps {P : State → Prop} (hP : Closed P) (c : Fin 16) (s : State) (hs0 : P s) : P (wrRej c s) := by
  unfold wrRej
  repeat' (first | (with_reducible assumption) | (intro _) | (with_reducible apply fset_keeps) | (fail_if_no_progress with_reducible apply Closed.other hP) | (dsimp only [-Nat.reducePow, Option.getD_some, Option.getD_none]) | (with_reducible apply ite_keeps) | split | (refine of_fst (by with_reducible assumption) ?_) | (refine of_snd (by with_reducible assumption) ?_) | (refine of_snd2 (by with_reducible assumption) ?_) | (refine of_mid (by with_reducible assumption) ?_) | (refine of_getD (s := s) (by with_reducible assumption) ?_))

theorem sweepStart_keeps {P : State → Prop} (hP : Closed P) (c : Fin 16) (s : State) (hs0 : P s) : P (sweepStart c s) := by
  unfold sweepStart
  repeat' (first | (with_reducible assumption) | (intro _) | (with_reducible apply fset_keeps) | (with_reducible apply updPhy_keeps) | (with_reducible apply wrRej_keeps) | (fail_if_no_progress with_reducible apply Closed.other hP) | (dsimp only [-Nat.reducePow, Option.getD_some, Option.getD_none]) | (with_reducible apply ite_keeps) | split | (refine of_fst (by with_reducible assumption) ?_) | (refine of_snd (by with_reducible assumption) ?_) | (refine of_snd2 (by with_reducible assumption) ?_) | (refine of_mid (by with_reducible assumption) ?_) | (refine of_getD (s := s) (by with_reducible assumption) ?_))

theorem sweepResult_keeps {P : State → Prop} (hP : Closed P) (hI : ClosedIx P) (c : Fin 16) (u : Nat) (e : Option (Nat × Nat)) (s : State) (hs0 : P s) : P (sweepResult c u e s) := by
  unfold sweepResult
  repeat' (first | (with_reducible assumption) | (intro _) | (with_reducible apply ixSet_keeps) | (with_reducible apply ixPut_keeps) | (fail_if_no_progress with_reducible apply Closed.other hP) | (dsimp only [-Nat.reducePow, Option.getD_some, Option.getD_none]) | (with_reducible apply ite_keeps) | split | (refine of_fst (by with_reducible assumption) ?_) | (refine of_snd (by with_reducible assumption) ?_) | (refine of_snd2 (by with_reducible assumption) ?_) | (refine of_mid (by with_reducible assumption) ?_) | (refine of_getD (s := s) (by with_reducible assumption) ?_))

theorem applyCentre_keeps {P : State → Prop} (hP : Closed P) (hI : ClosedIx P) (c : Fin 16) (k : Nat) (r : Nat) (u : Nat) (v : Nat) (s : State) (hs0 : P s) : P (applyCentre c k r u v s) := by
  unfold applyCentre
  repeat' (first | (with_reducible assumption) | (intro _) | (with_reducible apply ixPut_keeps) | (fail_if_no_progress with_reducible apply Closed.other hP) | (dsimp only [-Nat.reducePow, Option.getD_some, Option.getD_none]) | (with_reducible apply ite_keeps) | split | (refine of_fst (by with_reducible assumption) ?_) | (refine of_snd (by with_reducible assumption) ?_) | (refine of_snd2 (by with_reducible assumption) ?_) | (refine of_mid (by with_reducible assumption) ?_) | (refine of_getD (s := s) (by with_reducible assumption) ?_))

theorem sweepDone_keeps {P : State → Prop} (hP : Closed P) (hI : ClosedIx P) (hD : ClosedDram P) (c : Fin 16) (got : List Probe) (s : State) (hs0 : P s) : P (sweepDone c got s) := by
  unfold sweepDone
  repeat' (first | (with_reducible assumption) | (intro _) | (with_reducible apply fset_keeps) | (with_reducible apply updPhy_keeps) | (with_reducible apply forAll_keeps) | (with_reducible apply onlyIf_keeps) | (with_reducible apply sweepScan_keeps) | (with_reducible apply sweepWrite_keeps) | (with_reducible apply sweepResult_keeps) | (with_reducible apply applyCentre_keeps) | (fail_if_no_progress with_reducible apply Closed.other hP) | (dsimp only [-Nat.reducePow, Option.getD_some, Option.getD_none]) | (with_reducible apply ite_keeps) | split | (refine of_fst (by with_reducible assumption) ?_) | (refine of_snd (by with_reducible assumption) ?_) | (refine of_snd2 (by with_reducible assumption) ?_) | (refine of_mid (by with_reducible assumption) ?_) | (refine of_getD (s := s) (by with_reducible assumption) ?_))

theorem sweepReply_keeps {P : State → Prop} (hP : Closed P) (c : Fin 16) (ended : Bool) (s : State) (hs0 : P s) : P (sweepReply c ended s) := by
  unfold sweepReply
  repeat' (first | (with_reducible assumption) | (intro _) | (with_reducible apply answer_keeps) | (fail_if_no_progress with_reducible apply Closed.other hP) | (dsimp only [-Nat.reducePow, Option.getD_some, Option.getD_none]) | (with_reducible apply ite_keeps) | split | (refine of_fst (by with_reducible assumption) ?_) | (refine of_snd (by with_reducible assumption) ?_) | (refine of_snd2 (by with_reducible assumption) ?_) | (refine of_mid (by with_reducible assumption) ?_) | (refine of_getD (s := s) (by with_reducible assumption) ?_))

theorem sweepVerb_keeps {P : State → Prop} (hP : Closed P) (c : Fin 16) (f : SweepForm) (s : State) (hs0 : P s) : P (sweepVerb c f s) := by
  unfold sweepVerb
  repeat' (first | (with_reducible assumption) | (intro _) | (with_reducible apply fset_keeps) | (with_reducible apply fsetB_keeps) | (with_reducible apply sweepStart_keeps) | (fail_if_no_progress with_reducible apply Closed.other hP) | (dsimp only [-Nat.reducePow, Option.getD_some, Option.getD_none]) | (with_reducible apply ite_keeps) | split | (refine of_fst (by with_reducible assumption) ?_) | (refine of_snd (by with_reducible assumption) ?_) | (refine of_snd2 (by with_reducible assumption) ?_) | (refine of_mid (by with_reducible assumption) ?_) | (refine of_getD (s := s) (by with_reducible assumption) ?_))

theorem pauseDue_keeps {P : State → Prop} (hP : Closed P) (c : Fin 16) (s : State) (hs0 : P s) : P (pauseDue c s) := by
  unfold pauseDue
  repeat' (first | (with_reducible assumption) | (intro _) | (with_reducible apply updPhy_keeps) | (with_reducible apply advanceToNs_keeps) | (fail_if_no_progress with_reducible apply Closed.other hP) | (dsimp only [-Nat.reducePow, Option.getD_some, Option.getD_none]) | (with_reducible apply ite_keeps) | split | (refine of_fst (by with_reducible assumption) ?_) | (refine of_snd (by with_reducible assumption) ?_) | (refine of_snd2 (by with_reducible assumption) ?_) | (refine of_mid (by with_reducible assumption) ?_) | (refine of_getD (s := s) (by with_reducible assumption) ?_))

theorem noteLate_keeps {P : State → Prop} (hP : Closed P) (c : Fin 16) (s : State) (hs0 : P s) : P (noteLate c s) := by
  unfold noteLate
  repeat' (first | (with_reducible assumption) | (intro _) | (with_reducible apply fbump_keeps) | (with_reducible apply updPhy_keeps) | (fail_if_no_progress with_reducible apply Closed.other hP) | (dsimp only [-Nat.reducePow, Option.getD_some, Option.getD_none]) | (with_reducible apply ite_keeps) | split | (refine of_fst (by with_reducible assumption) ?_) | (refine of_snd (by with_reducible assumption) ?_) | (refine of_snd2 (by with_reducible assumption) ?_) | (refine of_mid (by with_reducible assumption) ?_) | (refine of_getD (s := s) (by with_reducible assumption) ?_))

theorem pauseStop_keeps {P : State → Prop} (hP : Closed P) (c : Fin 16) (s : State) (hs0 : P s) : P (pauseStop c s) := by
  unfold pauseStop
  repeat' (first | (with_reducible assumption) | (intro _) | (with_reducible apply updPhy_keeps) | (with_reducible apply stopIdle_keeps) | (with_reducible apply spendAllow_keeps) | (with_reducible apply noteLate_keeps) | (fail_if_no_progress with_reducible apply Closed.other hP) | (dsimp only [-Nat.reducePow, Option.getD_some, Option.getD_none]) | (with_reducible apply ite_keeps) | split | (refine of_fst (by with_reducible assumption) ?_) | (refine of_snd (by with_reducible assumption) ?_) | (refine of_snd2 (by with_reducible assumption) ?_) | (refine of_mid (by with_reducible assumption) ?_) | (refine of_getD (s := s) (by with_reducible assumption) ?_))

theorem pauseStart_keeps {P : State → Prop} (hP : Closed P) (c : Fin 16) (s : State) (hs0 : P s) : P (pauseStart c s) := by
  unfold pauseStart
  repeat' (first | (with_reducible assumption) | (intro _) | (with_reducible apply updPhy_keeps) | (with_reducible apply deferAll_keeps) | (with_reducible apply exitPd_keeps) | (with_reducible apply entryStop_keeps) | (with_reducible apply closeBanks_keeps) | (with_reducible apply pauseStop_keeps) | (fail_if_no_progress with_reducible apply Closed.other hP) | (dsimp only [-Nat.reducePow, Option.getD_some, Option.getD_none]) | (with_reducible apply ite_keeps) | split | (refine of_fst (by with_reducible assumption) ?_) | (refine of_snd (by with_reducible assumption) ?_) | (refine of_snd2 (by with_reducible assumption) ?_) | (refine of_mid (by with_reducible assumption) ?_) | (refine of_getD (s := s) (by with_reducible assumption) ?_))

theorem driftLim_keeps {P : State → Prop} (hP : Closed P) (c : Fin 16) (r : Nat) (d : Nat) (steps : Int) (s : State) (hs0 : P s) : P (driftLim c r d steps s) := by
  unfold driftLim
  repeat' (first | (with_reducible assumption) | (intro _) | (with_reducible apply fset_keeps) | (with_reducible apply emit_keeps) | (with_reducible apply updPhy_keeps) | (fail_if_no_progress with_reducible apply Closed.other hP) | (dsimp only [-Nat.reducePow, Option.getD_some, Option.getD_none]) | (with_reducible apply ite_keeps) | split | (refine of_fst (by with_reducible assumption) ?_) | (refine of_snd (by with_reducible assumption) ?_) | (refine of_snd2 (by with_reducible assumption) ?_) | (refine of_mid (by with_reducible assumption) ?_) | (refine of_getD (s := s) (by with_reducible assumption) ?_))

theorem adjust_keeps {P : State → Prop} (hP : Closed P) (hI : ClosedIx P) (c : Fin 16) (r : Nat) (d : Nat) (i : Nat) (w : Nat) (trained : Nat) (want : Int) (cnt : Fld) (s : State) (hs0 : P s) : P (adjust c r d i w trained want cnt s) := by
  unfold adjust
  repeat' (first | (with_reducible assumption) | (intro _) | (with_reducible apply fbump_keeps) | (with_reducible apply ixPut_keeps) | (with_reducible apply driftLim_keeps) | (fail_if_no_progress with_reducible apply Closed.other hP) | (dsimp only [-Nat.reducePow, Option.getD_some, Option.getD_none]) | (with_reducible apply ite_keeps) | split | (refine of_fst (by with_reducible assumption) ?_) | (refine of_snd (by with_reducible assumption) ?_) | (refine of_snd2 (by with_reducible assumption) ?_) | (refine of_mid (by with_reducible assumption) ?_) | (refine of_getD (s := s) (by with_reducible assumption) ?_))

theorem pauseProbe_keeps {P : State → Prop} (hP : Closed P) (hI : ClosedIx P) (c : Fin 16) (k : PauseKind) (res : PauseRes) (s : State) (hs0 : P s) : P (pauseProbe c k res s).2 := by
  unfold pauseProbe
  repeat' (first | (with_reducible assumption) | (intro _) | (with_reducible apply probeAt_keeps) | (fail_if_no_progress with_reducible apply Closed.other hP) | (dsimp only [-Nat.reducePow, Option.getD_some, Option.getD_none]) | (with_reducible apply ite_keeps) | split | (refine of_fst (by with_reducible assumption) ?_) | (refine of_snd (by with_reducible assumption) ?_) | (refine of_snd2 (by with_reducible assumption) ?_) | (refine of_mid (by with_reducible assumption) ?_) | (refine of_getD (s := s) (by with_reducible assumption) ?_))

theorem adjustTiming_keeps {P : State → Prop} (hP : Closed P) (hI : ClosedIx P) (c : Fin 16) (r : Nat) (res : PauseErr) (s : State) (hs0 : P s) : P (adjustTiming c r res s) := by
  unfold adjustTiming
  repeat' (first | (with_reducible assumption) | (intro _) | (with_reducible apply forAll_keeps) | (with_reducible apply adjust_keeps) | (fail_if_no_progress with_reducible apply Closed.other hP) | (dsimp only [-Nat.reducePow, Option.getD_some, Option.getD_none]) | (with_reducible apply ite_keeps) | split | (refine of_fst (by with_reducible assumption) ?_) | (refine of_snd (by with_reducible assumption) ?_) | (refine of_snd2 (by with_reducible assumption) ?_) | (refine of_mid (by with_reducible assumption) ?_) | (refine of_getD (s := s) (by with_reducible assumption) ?_))

theorem adjustVref_keeps {P : State → Prop} (hP : Closed P) (hI : ClosedIx P) (c : Fin 16) (r : Nat) (res : PauseErr) (s : State) (hs0 : P s) : P (adjustVref c r res s) := by
  unfold adjustVref
  repeat' (first | (with_reducible assumption) | (intro _) | (with_reducible apply forAll_keeps) | (with_reducible apply adjust_keeps) | (fail_if_no_progress with_reducible apply Closed.other hP) | (dsimp only [-Nat.reducePow, Option.getD_some, Option.getD_none]) | (with_reducible apply ite_keeps) | split | (refine of_fst (by with_reducible assumption) ?_) | (refine of_snd (by with_reducible assumption) ?_) | (refine of_snd2 (by with_reducible assumption) ?_) | (refine of_mid (by with_reducible assumption) ?_) | (refine of_getD (s := s) (by with_reducible assumption) ?_))

theorem adjustDrift_keeps {P : State → Prop} (hP : Closed P) (hI : ClosedIx P) (c : Fin 16) (r : Nat) (res : PauseRes) (s : State) (hs0 : P s) : P (adjustDrift c r res s) := by
  unfold adjustDrift
  repeat' (first | (with_reducible assumption) | (intro _) | (with_reducible apply fbump_keeps) | (with_reducible apply forAll_keeps) | (with_reducible apply ixPut_keeps) | (with_reducible apply adjust_keeps) | (fail_if_no_progress with_reducible apply Closed.other hP) | (dsimp only [-Nat.reducePow, Option.getD_some, Option.getD_none]) | (with_reducible apply ite_keeps) | split | (refine of_fst (by with_reducible assumption) ?_) | (refine of_snd (by with_reducible assumption) ?_) | (refine of_snd2 (by with_reducible assumption) ?_) | (refine of_mid (by with_reducible assumption) ?_) | (refine of_getD (s := s) (by with_reducible assumption) ?_))

theorem centreErrs_keeps {P : State → Prop} (hP : Closed P) (c : Fin 16) (k : PauseKind) (res : PauseErr) (s : State) (hs0 : P s) : P (centreErrs c k res s) := by
  unfold centreErrs
  repeat' (first | (with_reducible assumption) | (intro _) | (with_reducible apply fset_keeps) | (with_reducible apply fbumpN_keeps) | (with_reducible apply emit_keeps) | (with_reducible apply updPhy_keeps) | (with_reducible apply forAll_keeps) | (fail_if_no_progress with_reducible apply Closed.other hP) | (dsimp only [-Nat.reducePow, Option.getD_some, Option.getD_none]) | (with_reducible apply ite_keeps) | split | (refine of_fst (by with_reducible assumption) ?_) | (refine of_snd (by with_reducible assumption) ?_) | (refine of_snd2 (by with_reducible assumption) ?_) | (refine of_mid (by with_reducible assumption) ?_) | (refine of_getD (s := s) (by with_reducible assumption) ?_))

theorem pauseEval_keeps {P : State → Prop} (hP : Closed P) (hI : ClosedIx P) (c : Fin 16) (k : PauseKind) (res : PauseRes) (s : State) (hs0 : P s) : P (pauseEval c k res s) := by
  unfold pauseEval
  repeat' (first | (with_reducible assumption) | (intro _) | (with_reducible apply pauseProbe_keeps) | (with_reducible apply adjustTiming_keeps) | (with_reducible apply adjustVref_keeps) | (with_reducible apply adjustDrift_keeps) | (with_reducible apply centreErrs_keeps) | (fail_if_no_progress with_reducible apply Closed.other hP) | (dsimp only [-Nat.reducePow, Option.getD_some, Option.getD_none]) | (with_reducible apply ite_keeps) | split | (refine of_fst (by with_reducible assumption) ?_) | (refine of_snd (by with_reducible assumption) ?_) | (refine of_snd2 (by with_reducible assumption) ?_) | (refine of_mid (by with_reducible assumption) ?_) | (refine of_getD (s := s) (by with_reducible assumption) ?_))

theorem pauseOver_keeps {P : State → Prop} (hP : Closed P) (c : Fin 16) (k : PauseKind) (s : State) (hs0 : P s) : P (pauseOver c k s) := by
  unfold pauseOver
  repeat' (first | (with_reducible assumption) | (intro _) | (with_reducible apply fset_keeps) | (with_reducible apply fbump_keeps) | (with_reducible apply updChan_keeps) | (with_reducible apply updPhy_keeps) | (fail_if_no_progress with_reducible apply Closed.other hP) | (dsimp only [-Nat.reducePow, Option.getD_some, Option.getD_none]) | (with_reducible apply ite_keeps) | split | (refine of_fst (by with_reducible assumption) ?_) | (refine of_snd (by with_reducible assumption) ?_) | (refine of_snd2 (by with_reducible assumption) ?_) | (refine of_mid (by with_reducible assumption) ?_) | (refine of_getD (s := s) (by with_reducible assumption) ?_))

theorem parkNow_keeps {P : State → Prop} (hP : Closed P) (c : Fin 16) (s : State) (hs0 : P s) : P (parkNow c s) := by
  unfold parkNow
  repeat' (first | (with_reducible assumption) | (intro _) | (with_reducible apply updPhy_keeps) | (with_reducible apply selfRefresh_keeps) | (fail_if_no_progress with_reducible apply Closed.other hP) | (dsimp only [-Nat.reducePow, Option.getD_some, Option.getD_none]) | (with_reducible apply ite_keeps) | split | (refine of_fst (by with_reducible assumption) ?_) | (refine of_snd (by with_reducible assumption) ?_) | (refine of_snd2 (by with_reducible assumption) ?_) | (refine of_mid (by with_reducible assumption) ?_) | (refine of_getD (s := s) (by with_reducible assumption) ?_))

theorem afterPause_keeps {P : State → Prop} (hP : Closed P) (c : Fin 16) (s : State) (hs0 : P s) : P (afterPause c s) := by
  unfold afterPause
  repeat' (first | (with_reducible assumption) | (intro _) | (with_reducible apply refreshOwed_keeps) | (with_reducible apply parkNow_keeps) | (fail_if_no_progress with_reducible apply Closed.other hP) | (dsimp only [-Nat.reducePow, Option.getD_some, Option.getD_none]) | (with_reducible apply ite_keeps) | split | (refine of_fst (by with_reducible assumption) ?_) | (refine of_snd (by with_reducible assumption) ?_) | (refine of_snd2 (by with_reducible assumption) ?_) | (refine of_mid (by with_reducible assumption) ?_) | (refine of_getD (s := s) (by with_reducible assumption) ?_))

theorem pauseEnd_keeps {P : State → Prop} (hP : Closed P) (hI : ClosedIx P) (c : Fin 16) (res : PauseRes) (s : State) (hs0 : P s) : P (pauseEnd c res s) := by
  unfold pauseEnd
  repeat' (first | (with_reducible assumption) | (intro _) | (with_reducible apply updChan_keeps) | (with_reducible apply updPhy_keeps) | (with_reducible apply advanceTo8_keeps) | (with_reducible apply stopUntil_keeps) | (with_reducible apply pausePay_keeps) | (with_reducible apply pauseEval_keeps) | (with_reducible apply pauseOver_keeps) | (with_reducible apply afterPause_keeps) | (fail_if_no_progress with_reducible apply Closed.other hP) | (dsimp only [-Nat.reducePow, Option.getD_some, Option.getD_none]) | (with_reducible apply ite_keeps) | split | (refine of_fst (by with_reducible assumption) ?_) | (refine of_snd (by with_reducible assumption) ?_) | (refine of_snd2 (by with_reducible assumption) ?_) | (refine of_mid (by with_reducible assumption) ?_) | (refine of_getD (s := s) (by with_reducible assumption) ?_))

theorem pauseHoldback_keeps {P : State → Prop} (hP : Closed P) (c : Fin 16) (s : State) (hs0 : P s) : P (pauseHoldback c s) := by
  unfold pauseHoldback
  repeat' (first | (with_reducible assumption) | (intro _) | (with_reducible apply updPhy_keeps) | (with_reducible apply advanceToNs_keeps) | (with_reducible apply noteLate_keeps) | (fail_if_no_progress with_reducible apply Closed.other hP) | (dsimp only [-Nat.reducePow, Option.getD_some, Option.getD_none]) | (with_reducible apply ite_keeps) | split | (refine of_fst (by with_reducible assumption) ?_) | (refine of_snd (by with_reducible assumption) ?_) | (refine of_snd2 (by with_reducible assumption) ?_) | (refine of_mid (by with_reducible assumption) ?_) | (refine of_getD (s := s) (by with_reducible assumption) ?_))

theorem execRankPowerDown_keeps {P : State → Prop} (hP : Closed P) (ch : Fin 16) (rank : Fin 2) (s : State) (hs0 : P s) : ∀ out, execRankPowerDown ch rank s = .next out → P out := by
  unfold execRankPowerDown
  intro out hout
  obtain rfl := Host.Outcome.next.inj hout
  repeat' (first | (with_reducible assumption) | (intro _) | (with_reducible apply fbump_keeps) | (with_reducible apply updChan_keeps) | (with_reducible apply fsetBit_keeps) | (with_reducible apply advanceTo8_keeps) | (with_reducible apply idle_keeps) | (with_reducible apply pushHist_keeps) | (with_reducible apply optMap_keeps) | (with_reducible apply optGet_keeps) | (fail_if_no_progress with_reducible apply Closed.other hP) | (dsimp only [-Nat.reducePow, Option.getD_some, Option.getD_none]) | (with_reducible apply ite_keeps) | split | (refine of_fst (by with_reducible assumption) ?_) | (refine of_snd (by with_reducible assumption) ?_) | (refine of_snd2 (by with_reducible assumption) ?_) | (refine of_mid (by with_reducible assumption) ?_) | (refine of_getD (s := s) (by with_reducible assumption) ?_))

theorem enterService_keeps {P : State → Prop} (hP : Closed P) (c : Fin 16) (s : State) (hs0 : P s) : P (enterService c s) := by
  unfold enterService
  repeat' (first | (with_reducible assumption) | (intro _) | (with_reducible apply updChan_keeps) | (with_reducible apply updPhy_keeps) | (with_reducible apply setChState_keeps) | (fail_if_no_progress with_reducible apply Closed.other hP) | (dsimp only [-Nat.reducePow, Option.getD_some, Option.getD_none]) | (with_reducible apply ite_keeps) | split | (refine of_fst (by with_reducible assumption) ?_) | (refine of_snd (by with_reducible assumption) ?_) | (refine of_snd2 (by with_reducible assumption) ?_) | (refine of_mid (by with_reducible assumption) ?_) | (refine of_getD (s := s) (by with_reducible assumption) ?_))

theorem relockDone_keeps {P : State → Prop} (hP : Closed P) (hI : ClosedIx P) (c : Fin 16) (res : List PauseRes) (s : State) (hs0 : P s) : P (relockDone c res s) := by
  unfold relockDone
  repeat' (first | (with_reducible assumption) | (intro _) | (with_reducible apply fset_keeps) | (with_reducible apply fbumpN_keeps) | (with_reducible apply updChan_keeps) | (with_reducible apply updPhy_keeps) | (with_reducible apply forAll_keeps) | (with_reducible apply fsetBit_keeps) | (with_reducible apply charge_keeps) | (with_reducible apply elapse_keeps) | (with_reducible apply horizonCheck_keeps) | (with_reducible apply setChState_keeps) | (with_reducible apply dropSlice_keeps) | (with_reducible apply refreshAll_keeps) | (with_reducible apply pauseEval_keeps) | (with_reducible apply pauseOver_keeps) | (with_reducible apply enterService_keeps) | (fail_if_no_progress with_reducible apply Closed.other hP) | (dsimp only [-Nat.reducePow, Option.getD_some, Option.getD_none]) | (with_reducible apply ite_keeps) | split | (refine of_fst (by with_reducible assumption) ?_) | (refine of_snd (by with_reducible assumption) ?_) | (refine of_snd2 (by with_reducible assumption) ?_) | (refine of_mid (by with_reducible assumption) ?_) | (refine of_getD (s := s) (by with_reducible assumption) ?_))

theorem mapRefuse_keeps {P : State → Prop} (hP : Closed P) (k : Nat) (s : State) (hs0 : P s) : P (mapRefuse k s) := by
  unfold mapRefuse
  repeat' (first | (with_reducible assumption) | (intro _) | (with_reducible apply fset_keeps) | (fail_if_no_progress with_reducible apply Closed.other hP) | (dsimp only [-Nat.reducePow, Option.getD_some, Option.getD_none]) | (with_reducible apply ite_keeps) | split | (refine of_fst (by with_reducible assumption) ?_) | (refine of_snd (by with_reducible assumption) ?_) | (refine of_snd2 (by with_reducible assumption) ?_) | (refine of_mid (by with_reducible assumption) ?_) | (refine of_getD (s := s) (by with_reducible assumption) ?_))

theorem mapMember_keeps {P : State → Prop} (hP : Closed P) (c : Fin 16) (s : State) (hs0 : P s) : P (mapMember c s) := by
  unfold mapMember
  repeat' (first | (with_reducible assumption) | (intro _) | (with_reducible apply fset_keeps) | (with_reducible apply updChan_keeps) | (with_reducible apply enterService_keeps) | (fail_if_no_progress with_reducible apply Closed.other hP) | (dsimp only [-Nat.reducePow, Option.getD_some, Option.getD_none]) | (with_reducible apply ite_keeps) | split | (refine of_fst (by with_reducible assumption) ?_) | (refine of_snd (by with_reducible assumption) ?_) | (refine of_snd2 (by with_reducible assumption) ?_) | (refine of_mid (by with_reducible assumption) ?_) | (refine of_getD (s := s) (by with_reducible assumption) ?_))

theorem mapLoad_keeps {P : State → Prop} (hP : Closed P) (s : State) (hs0 : P s) : P (mapLoad s).1 := by
  unfold mapLoad
  repeat' (first | (with_reducible assumption) | (intro _) | (with_reducible apply fset_keeps) | (with_reducible apply emit_keeps) | (with_reducible apply forAll_keeps) | (with_reducible apply horizonCheck_keeps) | (with_reducible apply cycBegin_keeps) | (with_reducible apply cycPatrolBegin_keeps) | (with_reducible apply mapRefuse_keeps) | (with_reducible apply mapMember_keeps) | (with_reducible apply optMap_keeps) | (with_reducible apply optGet_keeps) | (fail_if_no_progress with_reducible apply Closed.other hP) | (dsimp only [-Nat.reducePow, Option.getD_some, Option.getD_none]) | (with_reducible apply ite_keeps) | split | (refine of_fst (by with_reducible assumption) ?_) | (refine of_snd (by with_reducible assumption) ?_) | (refine of_snd2 (by with_reducible assumption) ?_) | (refine of_mid (by with_reducible assumption) ?_) | (refine of_getD (s := s) (by with_reducible assumption) ?_))

theorem execProofPauseDue_keeps {P : State → Prop} (hP : Closed P) (ch : Fin 16) (s : State) (hs0 : P s) : ∀ out, execProofPauseDue ch s = .next out → P out := by
  unfold execProofPauseDue
  intro out hout
  obtain rfl := Host.Outcome.next.inj hout
  repeat' (first | (with_reducible assumption) | (intro _) | (with_reducible apply pauseDue_keeps) | (fail_if_no_progress with_reducible apply Closed.other hP) | (dsimp only [-Nat.reducePow, Option.getD_some, Option.getD_none]) | (with_reducible apply ite_keeps) | split | (refine of_fst (by with_reducible assumption) ?_) | (refine of_snd (by with_reducible assumption) ?_) | (refine of_snd2 (by with_reducible assumption) ?_) | (refine of_mid (by with_reducible assumption) ?_) | (refine of_getD (s := s) (by with_reducible assumption) ?_))

theorem execProofPauseStart_keeps {P : State → Prop} (hP : Closed P) (ch : Fin 16) (s : State) (hs0 : P s) : ∀ out, execProofPauseStart ch s = .next out → P out := by
  unfold execProofPauseStart
  intro out hout
  obtain rfl := Host.Outcome.next.inj hout
  repeat' (first | (with_reducible assumption) | (intro _) | (with_reducible apply pauseStart_keeps) | (fail_if_no_progress with_reducible apply Closed.other hP) | (dsimp only [-Nat.reducePow, Option.getD_some, Option.getD_none]) | (with_reducible apply ite_keeps) | split | (refine of_fst (by with_reducible assumption) ?_) | (refine of_snd (by with_reducible assumption) ?_) | (refine of_snd2 (by with_reducible assumption) ?_) | (refine of_mid (by with_reducible assumption) ?_) | (refine of_getD (s := s) (by with_reducible assumption) ?_))

theorem execProofPauseEnd_keeps {P : State → Prop} (hP : Closed P) (hI : ClosedIx P) (ch : Fin 16) (res : PauseRes) (s : State) (hs0 : P s) : ∀ out, execProofPauseEnd ch res s = .next out → P out := by
  unfold execProofPauseEnd
  intro out hout
  obtain rfl := Host.Outcome.next.inj hout
  repeat' (first | (with_reducible assumption) | (intro _) | (with_reducible apply pauseEnd_keeps) | (fail_if_no_progress with_reducible apply Closed.other hP) | (dsimp only [-Nat.reducePow, Option.getD_some, Option.getD_none]) | (with_reducible apply ite_keeps) | split | (refine of_fst (by with_reducible assumption) ?_) | (refine of_snd (by with_reducible assumption) ?_) | (refine of_snd2 (by with_reducible assumption) ?_) | (refine of_mid (by with_reducible assumption) ?_) | (refine of_getD (s := s) (by with_reducible assumption) ?_))

theorem execPauseHoldbackExpiry_keeps {P : State → Prop} (hP : Closed P) (ch : Fin 16) (s : State) (hs0 : P s) : ∀ out, execPauseHoldbackExpiry ch s = .next out → P out := by
  unfold execPauseHoldbackExpiry
  intro out hout
  obtain rfl := Host.Outcome.next.inj hout
  repeat' (first | (with_reducible assumption) | (intro _) | (with_reducible apply pauseHoldback_keeps) | (fail_if_no_progress with_reducible apply Closed.other hP) | (dsimp only [-Nat.reducePow, Option.getD_some, Option.getD_none]) | (with_reducible apply ite_keeps) | split | (refine of_fst (by with_reducible assumption) ?_) | (refine of_snd (by with_reducible assumption) ?_) | (refine of_snd2 (by with_reducible assumption) ?_) | (refine of_mid (by with_reducible assumption) ?_) | (refine of_getD (s := s) (by with_reducible assumption) ?_))

theorem execMapLoad_keeps {P : State → Prop} (hP : Closed P) (s : State) (hs0 : P s) : ∀ out, execMapLoad s = .next out → P out := by
  unfold execMapLoad
  intro out hout
  obtain rfl := Host.Outcome.next.inj hout
  repeat' (first | (with_reducible assumption) | (intro _) | (with_reducible apply mapLoad_keeps) | (fail_if_no_progress with_reducible apply Closed.other hP) | (dsimp only [-Nat.reducePow, Option.getD_some, Option.getD_none]) | (with_reducible apply ite_keeps) | split | (refine of_fst (by with_reducible assumption) ?_) | (refine of_snd (by with_reducible assumption) ?_) | (refine of_snd2 (by with_reducible assumption) ?_) | (refine of_mid (by with_reducible assumption) ?_) | (refine of_getD (s := s) (by with_reducible assumption) ?_))

theorem execTrainStart_keeps {P : State → Prop} (hP : Closed P) (hI : ClosedIx P) (hD : ClosedDram P) (ch : Fin 16) (manual : Bool) (ans : List StepAns) (s : State) (hs0 : P s) : ∀ out, execTrainStart ch manual ans s = .next out → P out := by
  unfold execTrainStart
  intro out hout
  obtain rfl := Host.Outcome.next.inj hout
  repeat' (first | (with_reducible assumption) | (intro _) | (with_reducible apply runVerb1_keeps) | (with_reducible apply trainStart_keeps) | (fail_if_no_progress with_reducible apply Closed.other hP) | (dsimp only [-Nat.reducePow, Option.getD_some, Option.getD_none]) | (with_reducible apply ite_keeps) | split | (refine of_fst (by with_reducible assumption) ?_) | (refine of_snd (by with_reducible assumption) ?_) | (refine of_snd2 (by with_reducible assumption) ?_) | (refine of_mid (by with_reducible assumption) ?_) | (refine of_getD (s := s) (by with_reducible assumption) ?_))

theorem execTrainEnd_keeps {P : State → Prop} (hP : Closed P) (hI : ClosedIx P) (hD : ClosedDram P) (ch : Fin 16) (ans : List StepAns) (s : State) (hs0 : P s) : ∀ out, execTrainEnd ch ans s = .next out → P out := by
  unfold execTrainEnd
  intro out hout
  obtain rfl := Host.Outcome.next.inj hout
  repeat' (first | (with_reducible assumption) | (intro _) | (with_reducible apply runVerb1_keeps) | (with_reducible apply trainEnd_keeps) | (with_reducible apply wrRej_keeps) | (fail_if_no_progress with_reducible apply Closed.other hP) | (dsimp only [-Nat.reducePow, Option.getD_some, Option.getD_none]) | (with_reducible apply ite_keeps) | split | (refine of_fst (by with_reducible assumption) ?_) | (refine of_snd (by with_reducible assumption) ?_) | (refine of_snd2 (by with_reducible assumption) ?_) | (refine of_mid (by with_reducible assumption) ?_) | (refine of_getD (s := s) (by with_reducible assumption) ?_))

theorem execTrainingComplete_keeps {P : State → Prop} (hP : Closed P) (hI : ClosedIx P) (hD : ClosedDram P) (ch : Fin 16) (ans : List StepAns) (s : State) (hs0 : P s) : ∀ out, execTrainingComplete ch ans s = .next out → P out := by
  unfold execTrainingComplete
  intro out hout
  obtain rfl := Host.Outcome.next.inj hout
  repeat' (first | (with_reducible assumption) | (intro _) | (with_reducible apply trainRun_keeps) | (fail_if_no_progress with_reducible apply Closed.other hP) | (dsimp only [-Nat.reducePow, Option.getD_some, Option.getD_none]) | (with_reducible apply ite_keeps) | split | (refine of_fst (by with_reducible assumption) ?_) | (refine of_snd (by with_reducible assumption) ?_) | (refine of_snd2 (by with_reducible assumption) ?_) | (refine of_mid (by with_reducible assumption) ?_) | (refine of_getD (s := s) (by with_reducible assumption) ?_))

theorem execTrainingStepTimeout_keeps {P : State → Prop} (hP : Closed P) (ch : Fin 16) (s : State) (hs0 : P s) : ∀ out, execTrainingStepTimeout ch s = .next out → P out := by
  unfold execTrainingStepTimeout
  intro out hout
  obtain rfl := Host.Outcome.next.inj hout
  repeat' (first | (with_reducible assumption) | (intro _) | (with_reducible apply advanceToNs_keeps) | (with_reducible apply trainAbort_keeps) | (fail_if_no_progress with_reducible apply Closed.other hP) | (dsimp only [-Nat.reducePow, Option.getD_some, Option.getD_none]) | (with_reducible apply ite_keeps) | split | (refine of_fst (by with_reducible assumption) ?_) | (refine of_snd (by with_reducible assumption) ?_) | (refine of_snd2 (by with_reducible assumption) ?_) | (refine of_mid (by with_reducible assumption) ?_) | (refine of_getD (s := s) (by with_reducible assumption) ?_))

theorem execManualTrainingTimeout_keeps {P : State → Prop} (hP : Closed P) (ch : Fin 16) (s : State) (hs0 : P s) : ∀ out, execManualTrainingTimeout ch s = .next out → P out := by
  unfold execManualTrainingTimeout
  intro out hout
  obtain rfl := Host.Outcome.next.inj hout
  repeat' (first | (with_reducible assumption) | (intro _) | (with_reducible apply advanceToNs_keeps) | (with_reducible apply trainAbort_keeps) | (fail_if_no_progress with_reducible apply Closed.other hP) | (dsimp only [-Nat.reducePow, Option.getD_some, Option.getD_none]) | (with_reducible apply ite_keeps) | split | (refine of_fst (by with_reducible assumption) ?_) | (refine of_snd (by with_reducible assumption) ?_) | (refine of_snd2 (by with_reducible assumption) ?_) | (refine of_mid (by with_reducible assumption) ?_) | (refine of_getD (s := s) (by with_reducible assumption) ?_))

theorem execSweepStart_keeps {P : State → Prop} (hP : Closed P) (ch : Fin 16) (form : Option SweepForm) (s : State) (hs0 : P s) : ∀ out, execSweepStart ch form s = .next out → P out := by
  unfold execSweepStart
  intro out hout
  obtain rfl := Host.Outcome.next.inj hout
  repeat' (first | (with_reducible assumption) | (intro _) | (with_reducible apply busWr_keeps) | (with_reducible apply answer_keeps) | (with_reducible apply wrRej_keeps) | (with_reducible apply sweepStart_keeps) | (with_reducible apply sweepVerb_keeps) | (fail_if_no_progress with_reducible apply Closed.other hP) | (dsimp only [-Nat.reducePow, Option.getD_some, Option.getD_none]) | (with_reducible apply ite_keeps) | split | (refine of_fst (by with_reducible assumption) ?_) | (refine of_snd (by with_reducible assumption) ?_) | (refine of_snd2 (by with_reducible assumption) ?_) | (refine of_mid (by with_reducible assumption) ?_) | (refine of_getD (s := s) (by with_reducible assumption) ?_))

theorem execSweepDone_keeps {P : State → Prop} (hP : Closed P) (hI : ClosedIx P) (hD : ClosedDram P) (ch : Fin 16) (eyes : List Probe) (s : State) (hs0 : P s) : ∀ out, execSweepDone ch eyes s = .next out → P out := by
  unfold execSweepDone
  intro out hout
  obtain rfl := Host.Outcome.next.inj hout
  repeat' (first | (with_reducible assumption) | (intro _) | (with_reducible apply sweepDone_keeps) | (with_reducible apply sweepReply_keeps) | (fail_if_no_progress with_reducible apply Closed.other hP) | (dsimp only [-Nat.reducePow, Option.getD_some, Option.getD_none]) | (with_reducible apply ite_keeps) | split | (refine of_fst (by with_reducible assumption) ?_) | (refine of_snd (by with_reducible assumption) ?_) | (refine of_snd2 (by with_reducible assumption) ?_) | (refine of_mid (by with_reducible assumption) ?_) | (refine of_getD (s := s) (by with_reducible assumption) ?_))

theorem execCompareClear_keeps {P : State → Prop} (hP : Closed P) (hI : ClosedIx P) (ch : Fin 16) (s : State) (hs0 : P s) : ∀ out, execCompareClear ch s = .next out → P out := by
  unfold execCompareClear
  intro out hout
  obtain rfl := Host.Outcome.next.inj hout
  repeat' (first | (with_reducible assumption) | (intro _) | (with_reducible apply busWr_keeps) | (with_reducible apply compareClear_keeps) | (with_reducible apply wrRej_keeps) | (fail_if_no_progress with_reducible apply Closed.other hP) | (dsimp only [-Nat.reducePow, Option.getD_some, Option.getD_none]) | (with_reducible apply ite_keeps) | split | (refine of_fst (by with_reducible assumption) ?_) | (refine of_snd (by with_reducible assumption) ?_) | (refine of_snd2 (by with_reducible assumption) ?_) | (refine of_mid (by with_reducible assumption) ?_) | (refine of_getD (s := s) (by with_reducible assumption) ?_))

end Sys2Proof.Laws
end

