-- ==== Sys2Proof/Laws/KBist.lean ====
section
/-! SUPPORT. The operations of Machine/Bist.lean keep every property closed under the writers that they reach. -/

namespace Sys2Proof.Laws
open Sys2Proof.Machine

set_option linter.unreachableTactic false
set_option linter.unusedTactic false
set_option linter.unusedVariables false

theorem noteWait_keeps {P : State → Prop} (hP : Closed P) (t : Nat) (u : Nat) (s : State) (hs0 : P s) : P (noteWait t u s) := by
  unfold noteWait
  repeat' (first | (with_reducible assumption) | (intro _) | (with_reducible apply fbump_keeps) | (fail_if_no_progress with_reducible apply Closed.other hP) | (dsimp only [-Nat.reducePow, Option.getD_some, Option.getD_none]) | (with_reducible apply ite_keeps) | split | (refine of_fst (by with_reducible assumption) ?_) | (refine of_snd (by with_reducible assumption) ?_) | (refine of_snd2 (by with_reducible assumption) ?_) | (refine of_mid (by with_reducible assumption) ?_) | (refine of_getD (s := s) (by with_reducible assumption) ?_))

theorem waitFor_keeps {P : State → Prop} (hP : Closed P) (t : Nat) (u : Nat) (why : Option String) (s : State) (hs0 : P s) : P (waitFor t u why s) := by
  unfold waitFor
  repeat' (first | (with_reducible assumption) | (intro _) | (with_reducible apply onlyIf_keeps) | (with_reducible apply noteWait_keeps) | (fail_if_no_progress with_reducible apply Closed.other hP) | (dsimp only [-Nat.reducePow, Option.getD_some, Option.getD_none]) | (with_reducible apply ite_keeps) | split | (refine of_fst (by with_reducible assumption) ?_) | (refine of_snd (by with_reducible assumption) ?_) | (refine of_snd2 (by with_reducible assumption) ?_) | (refine of_mid (by with_reducible assumption) ?_) | (refine of_getD (s := s) (by with_reducible assumption) ?_))

theorem sliceStart_keeps {P : State → Prop} (hP : Closed P) (t : Nat) (u : Nat) (mw : Nat) (ns : Nat) (s : State) (hs0 : P s) : P (sliceStart t u mw ns s) := by
  unfold sliceStart
  repeat' (first | (with_reducible assumption) | (intro _) | (with_reducible apply optMap_keeps) | (with_reducible apply optGet_keeps) | (fail_if_no_progress with_reducible apply Closed.other hP) | (dsimp only [-Nat.reducePow, Option.getD_some, Option.getD_none]) | (with_reducible apply ite_keeps) | split | (refine of_fst (by with_reducible assumption) ?_) | (refine of_snd (by with_reducible assumption) ?_) | (refine of_snd2 (by with_reducible assumption) ?_) | (refine of_mid (by with_reducible assumption) ?_) | (refine of_getD (s := s) (by with_reducible assumption) ?_))

theorem bistLog_keeps {P : State → Prop} (hP : Closed P) (e : BistEnt) (s : State) (hs0 : P s) : P (bistLog e s) := by
  unfold bistLog
  repeat' (first | (with_reducible assumption) | (intro _) | (with_reducible apply fset_keeps) | (with_reducible apply fbump_keeps) | (with_reducible apply irq_keeps) | (fail_if_no_progress with_reducible apply Closed.other hP) | (dsimp only [-Nat.reducePow, Option.getD_some, Option.getD_none]) | (with_reducible apply ite_keeps) | split | (refine of_fst (by with_reducible assumption) ?_) | (refine of_snd (by with_reducible assumption) ?_) | (refine of_snd2 (by with_reducible assumption) ?_) | (refine of_mid (by with_reducible assumption) ?_) | (refine of_getD (s := s) (by with_reducible assumption) ?_))

theorem sliceDone_keeps {P : State → Prop} (hP : Closed P) (t : BTarget) (s : State) (hs0 : P s) : P (sliceDone t s) := by
  unfold sliceDone
  repeat' (first | (with_reducible assumption) | (intro _) | (with_reducible apply fbump_keeps) | (with_reducible apply covStat_keeps) | (fail_if_no_progress with_reducible apply Closed.other hP) | (dsimp only [-Nat.reducePow, Option.getD_some, Option.getD_none]) | (with_reducible apply ite_keeps) | split | (refine of_fst (by with_reducible assumption) ?_) | (refine of_snd (by with_reducible assumption) ?_) | (refine of_snd2 (by with_reducible assumption) ?_) | (refine of_mid (by with_reducible assumption) ?_) | (refine of_getD (s := s) (by with_reducible assumption) ?_))

theorem takeTest_keeps {P : State → Prop} (hP : Closed P) (hW : ClosedWay P) (g : List Nat) (f : Nat) (s : State) (hs0 : P s) : P (takeTest g f s) := by
  unfold takeTest
  repeat' (first | (with_reducible assumption) | (intro _) | (with_reducible apply forAll_keeps) | (with_reducible apply setWayLine_keeps) | (with_reducible apply setFrame_keeps) | (fail_if_no_progress with_reducible apply Closed.other hP) | (dsimp only [-Nat.reducePow, Option.getD_some, Option.getD_none]) | (with_reducible apply ite_keeps) | split | (refine of_fst (by with_reducible assumption) ?_) | (refine of_snd (by with_reducible assumption) ?_) | (refine of_snd2 (by with_reducible assumption) ?_) | (refine of_mid (by with_reducible assumption) ?_) | (refine of_getD (s := s) (by with_reducible assumption) ?_))

theorem waySliceGo_keeps {P : State → Prop} (hP : Closed P) (hW : ClosedWay P) (s : State) (hs0 : P s) : P (waySliceGo s) := by
  unfold waySliceGo
  repeat' (first | (with_reducible assumption) | (intro _) | (with_reducible apply fset_keeps) | (with_reducible apply forAll_keeps) | (with_reducible apply sliceStart_keeps) | (with_reducible apply takeTest_keeps) | (fail_if_no_progress with_reducible apply Closed.other hP) | (dsimp only [-Nat.reducePow, Option.getD_some, Option.getD_none]) | (with_reducible apply ite_keeps) | split | (refine of_fst (by with_reducible assumption) ?_) | (refine of_snd (by with_reducible assumption) ?_) | (refine of_snd2 (by with_reducible assumption) ?_) | (refine of_mid (by with_reducible assumption) ?_) | (refine of_getD (s := s) (by with_reducible assumption) ?_))

theorem waySliceStart_keeps {P : State → Prop} (hP : Closed P) (hW : ClosedWay P) (s : State) (hs0 : P s) : P (waySliceStart s) := by
  unfold waySliceStart
  repeat' (first | (with_reducible assumption) | (intro _) | (with_reducible apply advanceToNs_keeps) | (with_reducible apply waitFor_keeps) | (with_reducible apply waySliceGo_keeps) | (fail_if_no_progress with_reducible apply Closed.other hP) | (dsimp only [-Nat.reducePow, Option.getD_some, Option.getD_none]) | (with_reducible apply ite_keeps) | split | (refine of_fst (by with_reducible assumption) ?_) | (refine of_snd (by with_reducible assumption) ?_) | (refine of_snd2 (by with_reducible assumption) ?_) | (refine of_mid (by with_reducible assumption) ?_) | (refine of_getD (s := s) (by with_reducible assumption) ?_))

theorem scrubJournal_keeps {P : State → Prop} (hP : Closed P) (hS : ClosedStrm P) (hD : ClosedDram P) (w : Nat) (s : State) (hs0 : P s) : P (scrubJournal w s) := by
  unfold scrubJournal
  repeat' (first | (with_reducible assumption) | (intro _) | (with_reducible apply fbump_keeps) | (with_reducible apply forAll_keeps) | (with_reducible apply actOn_keeps) | (with_reducible apply optMap_keeps) | (with_reducible apply optGet_keeps) | (fail_if_no_progress with_reducible apply Closed.other hP) | (dsimp only [-Nat.reducePow, Option.getD_some, Option.getD_none]) | (with_reducible apply ite_keeps) | split | (refine of_fst (by with_reducible assumption) ?_) | (refine of_snd (by with_reducible assumption) ?_) | (refine of_snd2 (by with_reducible assumption) ?_) | (refine of_mid (by with_reducible assumption) ?_) | (refine of_getD (s := s) (by with_reducible assumption) ?_))

theorem scrubFixed_keeps {P : State → Prop} (hP : Closed P) (hS : ClosedStrm P) (i : Nat) (s : State) (hs0 : P s) : P (scrubFixed i s) := by
  unfold scrubFixed
  repeat' (first | (with_reducible assumption) | (intro _) | (with_reducible apply fbump_keeps) | (with_reducible apply takeFree_keeps) | (with_reducible apply setBrec_keeps) | (with_reducible apply setQfr_keeps) | (with_reducible apply freeQFrame_keeps) | (with_reducible apply evict_keeps) | (with_reducible apply queueFault_keeps) | (fail_if_no_progress with_reducible apply Closed.other hP) | (dsimp only [-Nat.reducePow, Option.getD_some, Option.getD_none]) | (with_reducible apply ite_keeps) | split | (refine of_fst (by with_reducible assumption) ?_) | (refine of_snd (by with_reducible assumption) ?_) | (refine of_snd2 (by with_reducible assumption) ?_) | (refine of_mid (by with_reducible assumption) ?_) | (refine of_getD (s := s) (by with_reducible assumption) ?_))

theorem scrubUe_keeps {P : State → Prop} (hP : Closed P) (hS : ClosedStrm P) (hD : ClosedDram P) (hW : ClosedWay P) (w : Nat) (s : State) (hs0 : P s) : P (scrubUe w s) := by
  unfold scrubUe
  repeat' (first | (with_reducible assumption) | (intro _) | (with_reducible apply fbump_keeps) | (with_reducible apply emit_keeps) | (with_reducible apply evict_keeps) | (with_reducible apply recordError_keeps) | (with_reducible apply frameUe_keeps) | (with_reducible apply walkUe_keeps) | (with_reducible apply frameCell_keeps) | (with_reducible apply bistLog_keeps) | (with_reducible apply scrubJournal_keeps) | (with_reducible apply scrubFixed_keeps) | (fail_if_no_progress with_reducible apply Closed.other hP) | (dsimp only [-Nat.reducePow, Option.getD_some, Option.getD_none]) | (with_reducible apply ite_keeps) | split | (refine of_fst (by with_reducible assumption) ?_) | (refine of_snd (by with_reducible assumption) ?_) | (refine of_snd2 (by with_reducible assumption) ?_) | (refine of_mid (by with_reducible assumption) ?_) | (refine of_getD (s := s) (by with_reducible assumption) ?_))

theorem scrubLine_keeps {P : State → Prop} (hP : Closed P) (hS : ClosedStrm P) (hD : ClosedDram P) (hW : ClosedWay P) (x : Nat × LineEcc) (s : State) (hs0 : P s) : P (scrubLine x s) := by
  unfold scrubLine
  repeat' (first | (with_reducible assumption) | (intro _) | (with_reducible apply fbump_keeps) | (with_reducible apply scrubUe_keeps) | (fail_if_no_progress with_reducible apply Closed.other hP) | (dsimp only [-Nat.reducePow, Option.getD_some, Option.getD_none]) | (with_reducible apply ite_keeps) | split | (refine of_fst (by with_reducible assumption) ?_) | (refine of_snd (by with_reducible assumption) ?_) | (refine of_snd2 (by with_reducible assumption) ?_) | (refine of_mid (by with_reducible assumption) ?_) | (refine of_getD (s := s) (by with_reducible assumption) ?_))

theorem marchEnd_keeps {P : State → Prop} (hP : Closed P) (hW : ClosedWay P) (bad : List Nat) (f : Nat) (s : State) (hs0 : P s) : P (marchEnd bad f s) := by
  unfold marchEnd
  repeat' (first | (with_reducible assumption) | (intro _) | (with_reducible apply emit_keeps) | (with_reducible apply forAll_keeps) | (with_reducible apply setWayLine_keeps) | (with_reducible apply setFrame_keeps) | (with_reducible apply retireTier_keeps) | (with_reducible apply bistLog_keeps) | (fail_if_no_progress with_reducible apply Closed.other hP) | (dsimp only [-Nat.reducePow, Option.getD_some, Option.getD_none]) | (with_reducible apply ite_keeps) | split | (refine of_fst (by with_reducible assumption) ?_) | (refine of_snd (by with_reducible assumption) ?_) | (refine of_snd2 (by with_reducible assumption) ?_) | (refine of_mid (by with_reducible assumption) ?_) | (refine of_getD (s := s) (by with_reducible assumption) ?_))

theorem waySliceEnd_keeps {P : State → Prop} (hP : Closed P) (hS : ClosedStrm P) (hD : ClosedDram P) (hW : ClosedWay P) (bad : List Nat) (scrub : List (Nat × LineEcc)) (s : State) (hs0 : P s) : P (waySliceEnd bad scrub s) := by
  unfold waySliceEnd
  repeat' (first | (with_reducible assumption) | (intro _) | (with_reducible apply fset_keeps) | (with_reducible apply forAll_keeps) | (with_reducible apply advanceTo8_keeps) | (with_reducible apply uncharged_keeps) | (with_reducible apply sliceDone_keeps) | (with_reducible apply scrubLine_keeps) | (with_reducible apply marchEnd_keeps) | (fail_if_no_progress with_reducible apply Closed.other hP) | (dsimp only [-Nat.reducePow, Option.getD_some, Option.getD_none]) | (with_reducible apply ite_keeps) | split | (refine of_fst (by with_reducible assumption) ?_) | (refine of_snd (by with_reducible assumption) ?_) | (refine of_snd2 (by with_reducible assumption) ?_) | (refine of_mid (by with_reducible assumption) ?_) | (refine of_getD (s := s) (by with_reducible assumption) ?_))

theorem stopWay_keeps {P : State → Prop} (hP : Closed P) (hW : ClosedWay P) (s : State) (hs0 : P s) : P (stopWay s) := by
  unfold stopWay
  repeat' (first | (with_reducible assumption) | (intro _) | (with_reducible apply fset_keeps) | (with_reducible apply fbump_keeps) | (with_reducible apply forAll_keeps) | (with_reducible apply setWayLine_keeps) | (with_reducible apply setFrame_keeps) | (fail_if_no_progress with_reducible apply Closed.other hP) | (dsimp only [-Nat.reducePow, Option.getD_some, Option.getD_none]) | (with_reducible apply ite_keeps) | split | (refine of_fst (by with_reducible assumption) ?_) | (refine of_snd (by with_reducible assumption) ?_) | (refine of_snd2 (by with_reducible assumption) ?_) | (refine of_mid (by with_reducible assumption) ?_) | (refine of_getD (s := s) (by with_reducible assumption) ?_))

theorem lendFrames_keeps {P : State → Prop} (hP : Closed P) (x0 : Nat) (x1 : State) (hs0 : P x1) : P (lendFrames x0 x1).2 := by
  fun_induction lendFrames x0 x1
  all_goals repeat' (first | (with_reducible assumption) | (intro _) | (with_reducible apply setFrame_keeps) | (fail_if_no_progress with_reducible apply Closed.other hP) | (dsimp only [-Nat.reducePow, Option.getD_some, Option.getD_none]) | (with_reducible apply ite_keeps) | split | (refine of_fst (by with_reducible assumption) ?_) | (refine of_snd (by with_reducible assumption) ?_) | (refine of_snd2 (by with_reducible assumption) ?_) | (refine of_mid (by with_reducible assumption) ?_) | (refine of_getD (s := x1) (by with_reducible assumption) ?_) | apply_assumption)

theorem dramSliceGo_keeps {P : State → Prop} (hP : Closed P) (c : Fin 16) (s : State) (hs0 : P s) : P (dramSliceGo c s) := by
  unfold dramSliceGo
  repeat' (first | (with_reducible assumption) | (intro _) | (with_reducible apply fsetBit_keeps) | (with_reducible apply wayStat_keeps) | (with_reducible apply beginBatch_keeps) | (with_reducible apply sliceStart_keeps) | (with_reducible apply lendFrames_keeps) | (fail_if_no_progress with_reducible apply Closed.other hP) | (dsimp only [-Nat.reducePow, Option.getD_some, Option.getD_none]) | (with_reducible apply ite_keeps) | split | (refine of_fst (by with_reducible assumption) ?_) | (refine of_snd (by with_reducible assumption) ?_) | (refine of_snd2 (by with_reducible assumption) ?_) | (refine of_mid (by with_reducible assumption) ?_) | (refine of_getD (s := s) (by with_reducible assumption) ?_))

theorem dramSliceStart_keeps {P : State → Prop} (hP : Closed P) (c : Fin 16) (s : State) (hs0 : P s) : P (dramSliceStart c s) := by
  unfold dramSliceStart
  repeat' (first | (with_reducible assumption) | (intro _) | (with_reducible apply onlyIf_keeps) | (with_reducible apply waitFor_keeps) | (with_reducible apply dramSliceGo_keeps) | (fail_if_no_progress with_reducible apply Closed.other hP) | (dsimp only [-Nat.reducePow, Option.getD_some, Option.getD_none]) | (with_reducible apply ite_keeps) | split | (refine of_fst (by with_reducible assumption) ?_) | (refine of_snd (by with_reducible assumption) ?_) | (refine of_snd2 (by with_reducible assumption) ?_) | (refine of_mid (by with_reducible assumption) ?_) | (refine of_getD (s := s) (by with_reducible assumption) ?_))

theorem rowDisplaced_keeps {P : State → Prop} (hP : Closed P) (hD : ClosedDram P) (c : Fin 16) (eccs : List LineEcc) (s : State) (hs0 : P s) : P (rowDisplaced c eccs s) := by
  unfold rowDisplaced
  repeat' (first | (with_reducible assumption) | (intro _) | (with_reducible apply forAll_keeps) | (with_reducible apply setPh_keeps) | (with_reducible apply stopSlice_keeps) | (with_reducible apply copyEcc_keeps) | (fail_if_no_progress with_reducible apply Closed.other hP) | (dsimp only [-Nat.reducePow, Option.getD_some, Option.getD_none]) | (with_reducible apply ite_keeps) | split | (refine of_fst (by with_reducible assumption) ?_) | (refine of_snd (by with_reducible assumption) ?_) | (refine of_snd2 (by with_reducible assumption) ?_) | (refine of_mid (by with_reducible assumption) ?_) | (refine of_getD (s := s) (by with_reducible assumption) ?_))

theorem phaseFail_keeps {P : State → Prop} (hP : Closed P) (c : Fin 16) (idx : Nat) (n : Nat) (bits : BitVec 72) (s : State) (hs0 : P s) : P (phaseFail c idx n bits s) := by
  unfold phaseFail
  repeat' (first | (with_reducible assumption) | (intro _) | (with_reducible apply takeFree_keeps) | (with_reducible apply emit_keeps) | (with_reducible apply forAll_keeps) | (with_reducible apply markRefuse_keeps) | (with_reducible apply markDev_keeps) | (with_reducible apply bistLog_keeps) | (with_reducible apply optMap_keeps) | (with_reducible apply optGet_keeps) | (fail_if_no_progress with_reducible apply Closed.other hP) | (dsimp only [-Nat.reducePow, Option.getD_some, Option.getD_none]) | (with_reducible apply ite_keeps) | split | (refine of_fst (by with_reducible assumption) ?_) | (refine of_snd (by with_reducible assumption) ?_) | (refine of_snd2 (by with_reducible assumption) ?_) | (refine of_mid (by with_reducible assumption) ?_) | (refine of_getD (s := s) (by with_reducible assumption) ?_))

theorem dramPhaseEnd_keeps {P : State → Prop} (hP : Closed P) (c : Fin 16) (bits : BitVec 72) (s : State) (hs0 : P s) : P (dramPhaseEnd c bits s) := by
  unfold dramPhaseEnd
  repeat' (first | (with_reducible assumption) | (intro _) | (with_reducible apply fbumpN_keeps) | (with_reducible apply fbump_keeps) | (with_reducible apply stopSlice_keeps) | (with_reducible apply countAct_keeps) | (with_reducible apply bistLog_keeps) | (with_reducible apply drawBst_keeps) | (with_reducible apply setPh_keeps) | (with_reducible apply phaseFail_keeps) | (fail_if_no_progress with_reducible apply Closed.other hP) | (fail_if_no_progress extract_lets) | split | (dsimp only [-Nat.reducePow, Option.getD_some, Option.getD_none]) | (dsimp +zetaDelta only [-Nat.reducePow]) | (refine of_fst (by with_reducible assumption) ?_) | (refine of_snd (by with_reducible assumption) ?_) | (refine of_snd2 (by with_reducible assumption) ?_) | (refine of_mid (by with_reducible assumption) ?_) | (refine of_getD (s := s) (by with_reducible assumption) ?_))

theorem rowRestored_keeps {P : State → Prop} (hP : Closed P) (c : Fin 16) (s : State) (hs0 : P s) : P (rowRestored c s) := by
  unfold rowRestored
  repeat' (first | (with_reducible assumption) | (intro _) | (with_reducible apply dropSlice_keeps) | (with_reducible apply sliceDone_keeps) | (fail_if_no_progress with_reducible apply Closed.other hP) | (dsimp only [-Nat.reducePow, Option.getD_some, Option.getD_none]) | (with_reducible apply ite_keeps) | split | (refine of_fst (by with_reducible assumption) ?_) | (refine of_snd (by with_reducible assumption) ?_) | (refine of_snd2 (by with_reducible assumption) ?_) | (refine of_mid (by with_reducible assumption) ?_) | (refine of_getD (s := s) (by with_reducible assumption) ?_))

theorem sliceBudget_keeps {P : State → Prop} (hP : Closed P) (c : Fin 16) (s : State) (hs0 : P s) : P (sliceBudget c s) := by
  unfold sliceBudget
  repeat' (first | (with_reducible assumption) | (intro _) | (with_reducible apply advanceTo8_keeps) | (with_reducible apply stopSlice_keeps) | (fail_if_no_progress with_reducible apply Closed.other hP) | (dsimp only [-Nat.reducePow, Option.getD_some, Option.getD_none]) | (with_reducible apply ite_keeps) | split | (refine of_fst (by with_reducible assumption) ?_) | (refine of_snd (by with_reducible assumption) ?_) | (refine of_snd2 (by with_reducible assumption) ?_) | (refine of_mid (by with_reducible assumption) ?_) | (refine of_getD (s := s) (by with_reducible assumption) ?_))

theorem phySliceGo_keeps {P : State → Prop} (hP : Closed P) (c : Fin 16) (s : State) (hs0 : P s) : P (phySliceGo c s) := by
  unfold phySliceGo
  repeat' (first | (with_reducible assumption) | (intro _) | (with_reducible apply fsetBit_keeps) | (with_reducible apply deferAll_keeps) | (with_reducible apply exitPd_keeps) | (with_reducible apply entryStop_keeps) | (with_reducible apply closeBanks_keeps) | (with_reducible apply sliceStart_keeps) | (fail_if_no_progress with_reducible apply Closed.other hP) | (dsimp only [-Nat.reducePow, Option.getD_some, Option.getD_none]) | (with_reducible apply ite_keeps) | split | (refine of_fst (by with_reducible assumption) ?_) | (refine of_snd (by with_reducible assumption) ?_) | (refine of_snd2 (by with_reducible assumption) ?_) | (refine of_mid (by with_reducible assumption) ?_) | (refine of_getD (s := s) (by with_reducible assumption) ?_))

theorem phySliceStart_keeps {P : State → Prop} (hP : Closed P) (c : Fin 16) (s : State) (hs0 : P s) : P (phySliceStart c s) := by
  unfold phySliceStart
  repeat' (first | (with_reducible assumption) | (intro _) | (with_reducible apply onlyIf_keeps) | (with_reducible apply waitFor_keeps) | (with_reducible apply phySliceGo_keeps) | (fail_if_no_progress with_reducible apply Closed.other hP) | (dsimp only [-Nat.reducePow, Option.getD_some, Option.getD_none]) | (with_reducible apply ite_keeps) | split | (refine of_fst (by with_reducible assumption) ?_) | (refine of_snd (by with_reducible assumption) ?_) | (refine of_snd2 (by with_reducible assumption) ?_) | (refine of_mid (by with_reducible assumption) ?_) | (refine of_getD (s := s) (by with_reducible assumption) ?_))

theorem probeAll_keeps {P : State → Prop} (hP : Closed P) (hI : ClosedIx P) (c : Fin 16) (l : List Probe) (x0 : List Int) (x1 : State) (hs0 : P x1) : P (probeAll c l x0 x1).2 := by
  fun_induction probeAll c l x0 x1
  all_goals repeat' (first | (with_reducible assumption) | (intro _) | (with_reducible apply probeAt_keeps) | (fail_if_no_progress with_reducible apply Closed.other hP) | (dsimp only [-Nat.reducePow, Option.getD_some, Option.getD_none]) | (with_reducible apply ite_keeps) | split | (refine of_fst (by with_reducible assumption) ?_) | (refine of_snd (by with_reducible assumption) ?_) | (refine of_snd2 (by with_reducible assumption) ?_) | (refine of_mid (by with_reducible assumption) ?_) | (refine of_getD (s := x1) (by with_reducible assumption) ?_) | apply_assumption)

theorem readMargins_keeps {P : State → Prop} (hP : Closed P) (hI : ClosedIx P) (c : Fin 16) (k : Nat) (l : List Probe) (s : State) (hs0 : P s) : P (readMargins c k l s).2.2 := by
  unfold readMargins
  repeat' (first | (with_reducible assumption) | (intro _) | (with_reducible apply probeAll_keeps) | (with_reducible apply optMap_keeps) | (with_reducible apply optGet_keeps) | (fail_if_no_progress with_reducible apply Closed.other hP) | (dsimp only [-Nat.reducePow, Option.getD_some, Option.getD_none]) | (with_reducible apply ite_keeps) | split | (refine of_fst (by with_reducible assumption) ?_) | (refine of_snd (by with_reducible assumption) ?_) | (refine of_snd2 (by with_reducible assumption) ?_) | (refine of_mid (by with_reducible assumption) ?_) | (refine of_getD (s := s) (by with_reducible assumption) ?_))

theorem caMargins_keeps {P : State → Prop} (hP : Closed P) (low : List (Nat × Int)) (x0 : List Nat) (x1 : Nat) (x2 : State) (hs0 : P x2) : P (caMargins low x0 x1 x2).2.2.2 := by
  fun_induction caMargins low x0 x1 x2
  all_goals repeat' (first | (with_reducible assumption) | (intro _) | (with_reducible apply takeFree_keeps) | (with_reducible apply foldl_keeps) | (with_reducible apply foldl_keeps_fst) | (with_reducible apply foldl_keeps_snd) | (with_reducible apply foldl_keeps_snd2) | (fail_if_no_progress with_reducible apply Closed.other hP) | (dsimp only [-Nat.reducePow, Option.getD_some, Option.getD_none]) | (with_reducible apply ite_keeps) | split | (refine of_fst (by with_reducible assumption) ?_) | (refine of_snd (by with_reducible assumption) ?_) | (refine of_snd2 (by with_reducible assumption) ?_) | (refine of_mid (by with_reducible assumption) ?_) | (refine of_getD (s := x2) (by with_reducible assumption) ?_) | apply_assumption)

theorem putMargin_keeps {P : State → Prop} (hP : Closed P) (hI : ClosedIx P) (c : Fin 16) (k : Nat) (m : Margin) (s : State) (hs0 : P s) : P (putMargin c k m s) := by
  unfold putMargin
  repeat' (first | (with_reducible assumption) | (intro _) | (with_reducible apply ixSet_keeps) | (with_reducible apply emit_keeps) | (with_reducible apply bistLog_keeps) | (fail_if_no_progress with_reducible apply Closed.other hP) | (dsimp only [-Nat.reducePow, Option.getD_some, Option.getD_none]) | (with_reducible apply ite_keeps) | split | (refine of_fst (by with_reducible assumption) ?_) | (refine of_snd (by with_reducible assumption) ?_) | (refine of_snd2 (by with_reducible assumption) ?_) | (refine of_mid (by with_reducible assumption) ?_) | (refine of_getD (s := s) (by with_reducible assumption) ?_))

theorem phySliceEnd_keeps {P : State → Prop} (hP : Closed P) (hI : ClosedIx P) (c : Fin 16) (res : PhyRes) (s : State) (hs0 : P s) : P (phySliceEnd c res s) := by
  unfold phySliceEnd
  repeat' (first | (with_reducible assumption) | (intro _) | (with_reducible apply forAll_keeps) | (with_reducible apply fsetBit_keeps) | (with_reducible apply advanceTo8_keeps) | (with_reducible apply stopUntil_keeps) | (with_reducible apply phyPay_keeps) | (with_reducible apply phyNext_keeps) | (with_reducible apply refreshOwed_keeps) | (with_reducible apply sliceDone_keeps) | (with_reducible apply readMargins_keeps) | (with_reducible apply caMargins_keeps) | (with_reducible apply putMargin_keeps) | (fail_if_no_progress with_reducible apply Closed.other hP) | (dsimp only [-Nat.reducePow, Option.getD_some, Option.getD_none]) | (with_reducible apply ite_keeps) | split | (refine of_fst (by with_reducible assumption) ?_) | (refine of_snd (by with_reducible assumption) ?_) | (refine of_snd2 (by with_reducible assumption) ?_) | (refine of_mid (by with_reducible assumption) ?_) | (refine of_getD (s := s) (by with_reducible assumption) ?_))

theorem laneSliceGo_keeps {P : State → Prop} (hP : Closed P) (p : Fin 4) (s : State) (hs0 : P s) : P (laneSliceGo p s) := by
  unfold laneSliceGo
  repeat' (first | (with_reducible assumption) | (intro _) | (with_reducible apply fsetBit_keeps) | (with_reducible apply sliceStart_keeps) | (fail_if_no_progress with_reducible apply Closed.other hP) | (dsimp only [-Nat.reducePow, Option.getD_some, Option.getD_none]) | (with_reducible apply ite_keeps) | split | (refine of_fst (by with_reducible assumption) ?_) | (refine of_snd (by with_reducible assumption) ?_) | (refine of_snd2 (by with_reducible assumption) ?_) | (refine of_mid (by with_reducible assumption) ?_) | (refine of_getD (s := s) (by with_reducible assumption) ?_))

theorem laneSliceEnd_keeps {P : State → Prop} (hP : Closed P) (hI : ClosedIx P) (p : Fin 4) (t8 : Nat) (mv : Nat) (mui : Nat) (s : State) (hs0 : P s) : P (laneSliceEnd p t8 mv mui s) := by
  unfold laneSliceEnd
  repeat' (first | (with_reducible assumption) | (intro _) | (with_reducible apply ixSet_keeps) | (with_reducible apply emit_keeps) | (with_reducible apply fsetBit_keeps) | (with_reducible apply advanceTo8_keeps) | (with_reducible apply bistLog_keeps) | (with_reducible apply sliceDone_keeps) | (fail_if_no_progress with_reducible apply Closed.other hP) | (dsimp only [-Nat.reducePow, Option.getD_some, Option.getD_none]) | (with_reducible apply ite_keeps) | split | (refine of_fst (by with_reducible assumption) ?_) | (refine of_snd (by with_reducible assumption) ?_) | (refine of_snd2 (by with_reducible assumption) ?_) | (refine of_mid (by with_reducible assumption) ?_) | (refine of_getD (s := s) (by with_reducible assumption) ?_))

theorem laneSlice_keeps {P : State → Prop} (hP : Closed P) (hI : ClosedIx P) (p : Fin 4) (mv : Nat) (mui : Nat) (s : State) (hs0 : P s) : P (laneSlice p mv mui s) := by
  unfold laneSlice
  repeat' (first | (with_reducible assumption) | (intro _) | (with_reducible apply advanceToNs_keeps) | (with_reducible apply waitFor_keeps) | (with_reducible apply laneSliceGo_keeps) | (with_reducible apply laneSliceEnd_keeps) | (fail_if_no_progress with_reducible apply Closed.other hP) | (dsimp only [-Nat.reducePow, Option.getD_some, Option.getD_none]) | (with_reducible apply ite_keeps) | split | (refine of_fst (by with_reducible assumption) ?_) | (refine of_snd (by with_reducible assumption) ?_) | (refine of_snd2 (by with_reducible assumption) ?_) | (refine of_mid (by with_reducible assumption) ?_) | (refine of_getD (s := s) (by with_reducible assumption) ?_))

theorem bistRun_keeps {P : State → Prop} (hP : Closed P) (hW : ClosedWay P) (t : BTarget) (unit : Option Nat) (s : State) (hs0 : P s) : P (bistRun t unit s).1 := by
  unfold bistRun
  repeat' (first | (with_reducible assumption) | (intro _) | (with_reducible apply waySliceGo_keeps) | (with_reducible apply dramSliceGo_keeps) | (with_reducible apply phySliceGo_keeps) | (with_reducible apply laneSliceGo_keeps) | (fail_if_no_progress with_reducible apply Closed.other hP) | (dsimp only [-Nat.reducePow, Option.getD_some, Option.getD_none]) | (with_reducible apply ite_keeps) | split | (refine of_fst (by with_reducible assumption) ?_) | (refine of_snd (by with_reducible assumption) ?_) | (refine of_snd2 (by with_reducible assumption) ?_) | (refine of_mid (by with_reducible assumption) ?_) | (refine of_getD (s := s) (by with_reducible assumption) ?_))

theorem execWaySliceStart_keeps {P : State → Prop} (hP : Closed P) (hW : ClosedWay P) (s : State) (hs0 : P s) : ∀ out, execWaySliceStart s = .next out → P out := by
  unfold execWaySliceStart
  intro out hout
  obtain rfl := Host.Outcome.next.inj hout
  repeat' (first | (with_reducible assumption) | (intro _) | (with_reducible apply waySliceStart_keeps) | (fail_if_no_progress with_reducible apply Closed.other hP) | (dsimp only [-Nat.reducePow, Option.getD_some, Option.getD_none]) | (with_reducible apply ite_keeps) | split | (refine of_fst (by with_reducible assumption) ?_) | (refine of_snd (by with_reducible assumption) ?_) | (refine of_snd2 (by with_reducible assumption) ?_) | (refine of_mid (by with_reducible assumption) ?_) | (refine of_getD (s := s) (by with_reducible assumption) ?_))

theorem execWaySliceEnd_keeps {P : State → Prop} (hP : Closed P) (hI : ClosedIx P) (hS : ClosedStrm P) (hA : ClosedAcct P) (hD : ClosedDram P) (hW : ClosedWay P) (bad : List Nat) (scrub : List (Nat × LineEcc)) (errs : List JournalErr) (s : State) (hs0 : P s) : ∀ out, execWaySliceEnd bad scrub errs s = .next out → P out := by
  unfold execWaySliceEnd
  intro out hout
  obtain rfl := Host.Outcome.next.inj hout
  repeat' (first | (with_reducible assumption) | (intro _) | (with_reducible apply settle_keeps) | (with_reducible apply actAll_keeps) | (with_reducible apply waySliceEnd_keeps) | (fail_if_no_progress with_reducible apply Closed.other hP) | (dsimp only [-Nat.reducePow, Option.getD_some, Option.getD_none]) | (with_reducible apply ite_keeps) | split | (refine of_fst (by with_reducible assumption) ?_) | (refine of_snd (by with_reducible assumption) ?_) | (refine of_snd2 (by with_reducible assumption) ?_) | (refine of_mid (by with_reducible assumption) ?_) | (refine of_getD (s := s) (by with_reducible assumption) ?_))

theorem execDramSliceStart_keeps {P : State → Prop} (hP : Closed P) (ch : Fin 16) (s : State) (hs0 : P s) : ∀ out, execDramSliceStart ch s = .next out → P out := by
  unfold execDramSliceStart
  intro out hout
  obtain rfl := Host.Outcome.next.inj hout
  repeat' (first | (with_reducible assumption) | (intro _) | (with_reducible apply dramSliceStart_keeps) | (fail_if_no_progress with_reducible apply Closed.other hP) | (dsimp only [-Nat.reducePow, Option.getD_some, Option.getD_none]) | (with_reducible apply ite_keeps) | split | (refine of_fst (by with_reducible assumption) ?_) | (refine of_snd (by with_reducible assumption) ?_) | (refine of_snd2 (by with_reducible assumption) ?_) | (refine of_mid (by with_reducible assumption) ?_) | (refine of_getD (s := s) (by with_reducible assumption) ?_))

theorem execRowDisplaced_keeps {P : State → Prop} (hP : Closed P) (hD : ClosedDram P) (ch : Fin 16) (eccs : List LineEcc) (s : State) (hs0 : P s) : ∀ out, execRowDisplaced ch eccs s = .next out → P out := by
  unfold execRowDisplaced
  intro out hout
  obtain rfl := Host.Outcome.next.inj hout
  repeat' (first | (with_reducible assumption) | (intro _) | (with_reducible apply rowDisplaced_keeps) | (fail_if_no_progress with_reducible apply Closed.other hP) | (dsimp only [-Nat.reducePow, Option.getD_some, Option.getD_none]) | (with_reducible apply ite_keeps) | split | (refine of_fst (by with_reducible assumption) ?_) | (refine of_snd (by with_reducible assumption) ?_) | (refine of_snd2 (by with_reducible assumption) ?_) | (refine of_mid (by with_reducible assumption) ?_) | (refine of_getD (s := s) (by with_reducible assumption) ?_))

theorem execDramPhaseEnd_keeps {P : State → Prop} (hP : Closed P) (ch : Fin 16) (bits : BitVec 72) (s : State) (hs0 : P s) : ∀ out, execDramPhaseEnd ch bits s = .next out → P out := by
  unfold execDramPhaseEnd
  intro out hout
  obtain rfl := Host.Outcome.next.inj hout
  repeat' (first | (with_reducible assumption) | (intro _) | (with_reducible apply dramPhaseEnd_keeps) | (fail_if_no_progress with_reducible apply Closed.other hP) | (dsimp only [-Nat.reducePow, Option.getD_some, Option.getD_none]) | (with_reducible apply ite_keeps) | split | (refine of_fst (by with_reducible assumption) ?_) | (refine of_snd (by with_reducible assumption) ?_) | (refine of_snd2 (by with_reducible assumption) ?_) | (refine of_mid (by with_reducible assumption) ?_) | (refine of_getD (s := s) (by with_reducible assumption) ?_))

theorem execRowRestored_keeps {P : State → Prop} (hP : Closed P) (ch : Fin 16) (s : State) (hs0 : P s) : ∀ out, execRowRestored ch s = .next out → P out := by
  unfold execRowRestored
  intro out hout
  obtain rfl := Host.Outcome.next.inj hout
  repeat' (first | (with_reducible assumption) | (intro _) | (with_reducible apply rowRestored_keeps) | (fail_if_no_progress with_reducible apply Closed.other hP) | (dsimp only [-Nat.reducePow, Option.getD_some, Option.getD_none]) | (with_reducible apply ite_keeps) | split | (refine of_fst (by with_reducible assumption) ?_) | (refine of_snd (by with_reducible assumption) ?_) | (refine of_snd2 (by with_reducible assumption) ?_) | (refine of_mid (by with_reducible assumption) ?_) | (refine of_getD (s := s) (by with_reducible assumption) ?_))

theorem execSliceBudgetExpiry_keeps {P : State → Prop} (hP : Closed P) (ch : Fin 16) (s : State) (hs0 : P s) : ∀ out, execSliceBudgetExpiry ch s = .next out → P out := by
  unfold execSliceBudgetExpiry
  intro out hout
  obtain rfl := Host.Outcome.next.inj hout
  repeat' (first | (with_reducible assumption) | (intro _) | (with_reducible apply sliceBudget_keeps) | (fail_if_no_progress with_reducible apply Closed.other hP) | (dsimp only [-Nat.reducePow, Option.getD_some, Option.getD_none]) | (with_reducible apply ite_keeps) | split | (refine of_fst (by with_reducible assumption) ?_) | (refine of_snd (by with_reducible assumption) ?_) | (refine of_snd2 (by with_reducible assumption) ?_) | (refine of_mid (by with_reducible assumption) ?_) | (refine of_getD (s := s) (by with_reducible assumption) ?_))

theorem execPhySliceStart_keeps {P : State → Prop} (hP : Closed P) (ch : Fin 16) (s : State) (hs0 : P s) : ∀ out, execPhySliceStart ch s = .next out → P out := by
  unfold execPhySliceStart
  intro out hout
  obtain rfl := Host.Outcome.next.inj hout
  repeat' (first | (with_reducible assumption) | (intro _) | (with_reducible apply phySliceStart_keeps) | (fail_if_no_progress with_reducible apply Closed.other hP) | (dsimp only [-Nat.reducePow, Option.getD_some, Option.getD_none]) | (with_reducible apply ite_keeps) | split | (refine of_fst (by with_reducible assumption) ?_) | (refine of_snd (by with_reducible assumption) ?_) | (refine of_snd2 (by with_reducible assumption) ?_) | (refine of_mid (by with_reducible assumption) ?_) | (refine of_getD (s := s) (by with_reducible assumption) ?_))

theorem execPhySliceEnd_keeps {P : State → Prop} (hP : Closed P) (hI : ClosedIx P) (ch : Fin 16) (margins : PhyRes) (s : State) (hs0 : P s) : ∀ out, execPhySliceEnd ch margins s = .next out → P out := by
  unfold execPhySliceEnd
  intro out hout
  obtain rfl := Host.Outcome.next.inj hout
  repeat' (first | (with_reducible assumption) | (intro _) | (with_reducible apply phySliceEnd_keeps) | (fail_if_no_progress with_reducible apply Closed.other hP) | (dsimp only [-Nat.reducePow, Option.getD_some, Option.getD_none]) | (with_reducible apply ite_keeps) | split | (refine of_fst (by with_reducible assumption) ?_) | (refine of_snd (by with_reducible assumption) ?_) | (refine of_snd2 (by with_reducible assumption) ?_) | (refine of_mid (by with_reducible assumption) ?_) | (refine of_getD (s := s) (by with_reducible assumption) ?_))

theorem execLaneSlice_keeps {P : State → Prop} (hP : Closed P) (hI : ClosedIx P) (port : Fin 4) (mv : Nat) (mui : Nat) (s : State) (hs0 : P s) : ∀ out, execLaneSlice port mv mui s = .next out → P out := by
  unfold execLaneSlice
  intro out hout
  obtain rfl := Host.Outcome.next.inj hout
  repeat' (first | (with_reducible assumption) | (intro _) | (with_reducible apply laneSlice_keeps) | (fail_if_no_progress with_reducible apply Closed.other hP) | (dsimp only [-Nat.reducePow, Option.getD_some, Option.getD_none]) | (with_reducible apply ite_keeps) | split | (refine of_fst (by with_reducible assumption) ?_) | (refine of_snd (by with_reducible assumption) ?_) | (refine of_snd2 (by with_reducible assumption) ?_) | (refine of_mid (by with_reducible assumption) ?_) | (refine of_getD (s := s) (by with_reducible assumption) ?_))

theorem execBistRun_keeps {P : State → Prop} (hP : Closed P) (hW : ClosedWay P) (target : BTarget) (unit : Option Nat) (s : State) (hs0 : P s) : ∀ out, execBistRun target unit s = .next out → P out := by
  unfold execBistRun
  intro out hout
  obtain rfl := Host.Outcome.next.inj hout
  repeat' (first | (with_reducible assumption) | (intro _) | (with_reducible apply runVerb1_keeps) | (with_reducible apply bistRun_keeps) | (fail_if_no_progress with_reducible apply Closed.other hP) | (dsimp only [-Nat.reducePow, Option.getD_some, Option.getD_none]) | (with_reducible apply ite_keeps) | split | (refine of_fst (by with_reducible assumption) ?_) | (refine of_snd (by with_reducible assumption) ?_) | (refine of_snd2 (by with_reducible assumption) ?_) | (refine of_mid (by with_reducible assumption) ?_) | (refine of_getD (s := s) (by with_reducible assumption) ?_))

theorem execBistShow_keeps {P : State → Prop} (hP : Closed P) (target : Option BTarget) (unit : Option Nat) (s : State) (hs0 : P s) : ∀ out, execBistShow target unit s = .next out → P out := by
  unfold execBistShow
  intro out hout
  obtain rfl := Host.Outcome.next.inj hout
  repeat' (first | (with_reducible assumption) | (intro _) | (with_reducible apply runVerb1_keeps) | (fail_if_no_progress with_reducible apply Closed.other hP) | (dsimp only [-Nat.reducePow, Option.getD_some, Option.getD_none]) | (with_reducible apply ite_keeps) | split | (refine of_fst (by with_reducible assumption) ?_) | (refine of_snd (by with_reducible assumption) ?_) | (refine of_snd2 (by with_reducible assumption) ?_) | (refine of_mid (by with_reducible assumption) ?_) | (refine of_getD (s := s) (by with_reducible assumption) ?_))

theorem execBistLog_keeps {P : State → Prop} (hP : Closed P) (last : Nat) (s : State) (hs0 : P s) : ∀ out, execBistLog last s = .next out → P out := by
  unfold execBistLog
  intro out hout
  obtain rfl := Host.Outcome.next.inj hout
  repeat' (first | (with_reducible assumption) | (intro _) | (with_reducible apply runVerb_keeps) | (with_reducible apply optMap_keeps) | (with_reducible apply optGet_keeps) | (fail_if_no_progress with_reducible apply Closed.other hP) | (dsimp only [-Nat.reducePow, Option.getD_some, Option.getD_none]) | (with_reducible apply ite_keeps) | split | (refine of_fst (by with_reducible assumption) ?_) | (refine of_snd (by with_reducible assumption) ?_) | (refine of_snd2 (by with_reducible assumption) ?_) | (refine of_mid (by with_reducible assumption) ?_) | (refine of_getD (s := s) (by with_reducible assumption) ?_))

end Sys2Proof.Laws
end

