-- ==== Sys2Proof/Laws/KReset.lean ====
section
/-! SUPPORT. The operations of Machine/Reset.lean keep every property closed under the writers that they reach. -/

namespace Sys2Proof.Laws
open Sys2Proof.Machine

set_option linter.unreachableTactic false
set_option linter.unusedTactic false
set_option linter.unusedVariables false

theorem emitFirst_keeps {P : State → Prop} (hP : Closed P) (head : String) (fields : List (String × FVal)) (s : State) (hs0 : P s) : P (emitFirst head fields s) := by
  unfold emitFirst
  repeat' (first | (with_reducible assumption) | (intro _) | (with_reducible apply irq_keeps) | (fail_if_no_progress with_reducible apply Closed.other hP) | (dsimp only [-Nat.reducePow, Option.getD_some, Option.getD_none]) | (with_reducible apply ite_keeps) | split | (refine of_fst (by with_reducible assumption) ?_) | (refine of_snd (by with_reducible assumption) ?_) | (refine of_snd2 (by with_reducible assumption) ?_) | (refine of_mid (by with_reducible assumption) ?_) | (refine of_getD (s := s) (by with_reducible assumption) ?_))

theorem emitReset_keeps {P : State → Prop} (hP : Closed P) (warm : Bool) (s : State) (hs0 : P s) : P (emitReset warm s) := by
  unfold emitReset
  repeat' (first | (with_reducible assumption) | (intro _) | (with_reducible apply emitFirst_keeps) | (fail_if_no_progress with_reducible apply Closed.other hP) | (dsimp only [-Nat.reducePow, Option.getD_some, Option.getD_none]) | (with_reducible apply ite_keeps) | split | (refine of_fst (by with_reducible assumption) ?_) | (refine of_snd (by with_reducible assumption) ?_) | (refine of_snd2 (by with_reducible assumption) ?_) | (refine of_mid (by with_reducible assumption) ?_) | (refine of_getD (s := s) (by with_reducible assumption) ?_))

theorem warmCause_keeps {P : State → Prop} (hP : Closed P) (c : RstCause) (s : State) (hs0 : P s) : P (warmCause c s) := by
  unfold warmCause
  repeat' (first | (with_reducible assumption) | (intro _) | (with_reducible apply fset_keeps) | (with_reducible apply fbump_keeps) | (fail_if_no_progress with_reducible apply Closed.other hP) | (dsimp only [-Nat.reducePow, Option.getD_some, Option.getD_none]) | (with_reducible apply ite_keeps) | split | (refine of_fst (by with_reducible assumption) ?_) | (refine of_snd (by with_reducible assumption) ?_) | (refine of_snd2 (by with_reducible assumption) ?_) | (refine of_mid (by with_reducible assumption) ?_) | (refine of_getD (s := s) (by with_reducible assumption) ?_))

theorem warmPort_keeps {P : State → Prop} (hP : Closed P) (hS : ClosedStrm P) (p : Fin 4) (s : State) (hs0 : P s) : P (warmPort p s) := by
  unfold warmPort
  repeat' (first | (with_reducible assumption) | (intro _) | (with_reducible apply fset_keeps) | (with_reducible apply fbump_keeps) | (with_reducible apply irq_keeps) | (with_reducible apply updPort_keeps) | (with_reducible apply setPortSt_keeps) | (with_reducible apply toDetect_keeps) | (with_reducible apply clearPort_keeps) | (fail_if_no_progress with_reducible apply Closed.other hP) | (dsimp only [-Nat.reducePow, Option.getD_some, Option.getD_none]) | (with_reducible apply ite_keeps) | split | (refine of_fst (by with_reducible assumption) ?_) | (refine of_snd (by with_reducible assumption) ?_) | (refine of_snd2 (by with_reducible assumption) ?_) | (refine of_mid (by with_reducible assumption) ?_) | (refine of_getD (s := s) (by with_reducible assumption) ?_))

theorem stopSlices_keeps {P : State → Prop} (hP : Closed P) (hW : ClosedWay P) (s : State) (hs0 : P s) : P (stopSlices s) := by
  unfold stopSlices
  repeat' (first | (with_reducible assumption) | (intro _) | (with_reducible apply forAll_keeps) | (with_reducible apply stopLane_keeps) | (with_reducible apply stopPhy_keeps) | (with_reducible apply stopSlice_keeps) | (with_reducible apply stopWay_keeps) | (fail_if_no_progress with_reducible apply Closed.other hP) | (dsimp only [-Nat.reducePow, Option.getD_some, Option.getD_none]) | (with_reducible apply ite_keeps) | split | (refine of_fst (by with_reducible assumption) ?_) | (refine of_snd (by with_reducible assumption) ?_) | (refine of_snd2 (by with_reducible assumption) ?_) | (refine of_mid (by with_reducible assumption) ?_) | (refine of_getD (s := s) (by with_reducible assumption) ?_))

theorem parkChan_keeps {P : State → Prop} (hP : Closed P) (c : Fin 16) (s : State) (hs0 : P s) : P (parkChan c s) := by
  unfold parkChan
  repeat' (first | (with_reducible assumption) | (intro _) | (with_reducible apply updChan_keeps) | (with_reducible apply updPhy_keeps) | (with_reducible apply setChState_keeps) | (with_reducible apply clearWork_keeps) | (with_reducible apply clearChan_keeps) | (with_reducible apply selfRefresh_keeps) | (with_reducible apply trainAbort_keeps) | (fail_if_no_progress with_reducible apply Closed.other hP) | (dsimp only [-Nat.reducePow, Option.getD_some, Option.getD_none]) | (with_reducible apply ite_keeps) | split | (refine of_fst (by with_reducible assumption) ?_) | (refine of_snd (by with_reducible assumption) ?_) | (refine of_snd2 (by with_reducible assumption) ?_) | (refine of_mid (by with_reducible assumption) ?_) | (refine of_getD (s := s) (by with_reducible assumption) ?_))

theorem warmAgain_keeps {P : State → Prop} (hP : Closed P) (hW : ClosedWay P) (was : State) (s : State) (hs0 : P was) (hs1 : P s) : P (warmAgain was s) := by
  unfold warmAgain
  repeat' (first | (with_reducible assumption) | (intro _) | (with_reducible apply forAll_keeps) | (with_reducible apply pushWb_keeps) | (with_reducible apply wbHigh_keeps) | (with_reducible apply startFill_keeps) | (with_reducible apply startDemote_keeps) | (with_reducible apply pinStat_keeps) | (with_reducible apply optMap_keeps) | (with_reducible apply optGet_keeps) | (fail_if_no_progress with_reducible apply Closed.other hP) | (dsimp only [-Nat.reducePow, Option.getD_some, Option.getD_none]) | (with_reducible apply ite_keeps) | split | (refine of_fst (by with_reducible assumption) ?_) | (refine of_snd (by with_reducible assumption) ?_) | (refine of_snd2 (by with_reducible assumption) ?_) | (refine of_mid (by with_reducible assumption) ?_) | (refine of_getD (s := was) (by with_reducible assumption) ?_))

theorem warmQueue_keeps {P : State → Prop} (hP : Closed P) (s : State) (hs0 : P s) : P (warmQueue s) := by
  unfold warmQueue
  repeat' (first | (with_reducible assumption) | (intro _) | (with_reducible apply forAll_keeps) | (with_reducible apply onlyIf_keeps) | (with_reducible apply qWriteBack_keeps) | (with_reducible apply initStart_keeps) | (fail_if_no_progress with_reducible apply Closed.other hP) | (dsimp only [-Nat.reducePow, Option.getD_some, Option.getD_none]) | (with_reducible apply ite_keeps) | split | (refine of_fst (by with_reducible assumption) ?_) | (refine of_snd (by with_reducible assumption) ?_) | (refine of_snd2 (by with_reducible assumption) ?_) | (refine of_mid (by with_reducible assumption) ?_) | (refine of_getD (s := s) (by with_reducible assumption) ?_))

theorem warmWay_keeps {P : State → Prop} (hP : Closed P) (hW : ClosedWay P) (s : State) (hs0 : P s) : P (warmWay s) := by
  unfold warmWay
  repeat' (first | (with_reducible assumption) | (intro _) | (with_reducible apply fset_keeps) | (with_reducible apply forAll_keeps) | (with_reducible apply setFrame_keeps) | (with_reducible apply wayStat_keeps) | (with_reducible apply warmAgain_keeps) | (with_reducible apply warmQueue_keeps) | (with_reducible apply optMap_keeps) | (with_reducible apply optGet_keeps) | (fail_if_no_progress with_reducible apply Closed.other hP) | (dsimp only [-Nat.reducePow, Option.getD_some, Option.getD_none]) | (with_reducible apply ite_keeps) | split | (refine of_fst (by with_reducible assumption) ?_) | (refine of_snd (by with_reducible assumption) ?_) | (refine of_snd2 (by with_reducible assumption) ?_) | (refine of_mid (by with_reducible assumption) ?_) | (refine of_getD (s := s) (by with_reducible assumption) ?_))

theorem coreReset_keeps {P : State → Prop} (hP : Closed P) (hS : ClosedStrm P) (hA : ClosedAcct P) (hW : ClosedWay P) (s : State) (hs0 : P s) : P (coreReset s) := by
  unfold coreReset
  repeat' (first | (with_reducible assumption) | (intro _) | (with_reducible apply rgSet_keeps) | (with_reducible apply fset_keeps) | (with_reducible apply forAll_keeps) | (with_reducible apply strmMap_keeps) | (with_reducible apply acctsZero_keeps) | (with_reducible apply setToll_keeps) | (with_reducible apply warmWay_keeps) | (with_reducible apply optMap_keeps) | (with_reducible apply optGet_keeps) | (fail_if_no_progress with_reducible apply Closed.other hP) | (dsimp only [-Nat.reducePow, Option.getD_some, Option.getD_none]) | (with_reducible apply ite_keeps) | split | (refine of_fst (by with_reducible assumption) ?_) | (refine of_snd (by with_reducible assumption) ?_) | (refine of_snd2 (by with_reducible assumption) ?_) | (refine of_mid (by with_reducible assumption) ?_) | (refine of_getD (s := s) (by with_reducible assumption) ?_))

theorem markReplay_keeps {P : State → Prop} (hP : Closed P) (s : State) (hs0 : P s) : P (markReplay s) := by
  unfold markReplay
  repeat' (first | (with_reducible assumption) | (intro _) | (with_reducible apply rgSet_keeps) | (with_reducible apply updChan_keeps) | (with_reducible apply forAll_keeps) | (fail_if_no_progress with_reducible apply Closed.other hP) | (dsimp only [-Nat.reducePow, Option.getD_some, Option.getD_none]) | (with_reducible apply ite_keeps) | split | (refine of_fst (by with_reducible assumption) ?_) | (refine of_snd (by with_reducible assumption) ?_) | (refine of_snd2 (by with_reducible assumption) ?_) | (refine of_mid (by with_reducible assumption) ?_) | (refine of_getD (s := s) (by with_reducible assumption) ?_))

theorem warmGo_keeps {P : State → Prop} (hP : Closed P) (s : State) (hs0 : P s) : P (warmGo s) := by
  unfold warmGo
  repeat' (first | (with_reducible assumption) | (intro _) | (with_reducible apply updPhy_keeps) | (with_reducible apply forAll_keeps) | (with_reducible apply onlyIf_keeps) | (with_reducible apply emitReset_keeps) | (fail_if_no_progress with_reducible apply Closed.other hP) | (dsimp only [-Nat.reducePow, Option.getD_some, Option.getD_none]) | (with_reducible apply ite_keeps) | split | (refine of_fst (by with_reducible assumption) ?_) | (refine of_snd (by with_reducible assumption) ?_) | (refine of_snd2 (by with_reducible assumption) ?_) | (refine of_mid (by with_reducible assumption) ?_) | (refine of_getD (s := s) (by with_reducible assumption) ?_))

theorem relockNone_keeps {P : State → Prop} (hP : Closed P) (s : State) (hs0 : P s) : P (relockNone s) := by
  unfold relockNone
  repeat' (first | (with_reducible assumption) | (intro _) | (with_reducible apply updPhy_keeps) | (with_reducible apply forAll_keeps) | (fail_if_no_progress with_reducible apply Closed.other hP) | (dsimp only [-Nat.reducePow, Option.getD_some, Option.getD_none]) | (with_reducible apply ite_keeps) | split | (refine of_fst (by with_reducible assumption) ?_) | (refine of_snd (by with_reducible assumption) ?_) | (refine of_snd2 (by with_reducible assumption) ?_) | (refine of_mid (by with_reducible assumption) ?_) | (refine of_getD (s := s) (by with_reducible assumption) ?_))

theorem warmReset_keeps {P : State → Prop} (hP : Closed P) (hS : ClosedStrm P) (hA : ClosedAcct P) (hW : ClosedWay P) (c : RstCause) (s : State) (hs0 : P s) : P (warmReset c s) := by
  unfold warmReset
  repeat' (first | (with_reducible assumption) | (intro _) | (with_reducible apply fset_keeps) | (with_reducible apply forAll_keeps) | (with_reducible apply warmCause_keeps) | (with_reducible apply warmPort_keeps) | (with_reducible apply stopSlices_keeps) | (with_reducible apply parkChan_keeps) | (with_reducible apply coreReset_keeps) | (with_reducible apply markReplay_keeps) | (with_reducible apply warmGo_keeps) | (with_reducible apply relockNone_keeps) | (fail_if_no_progress with_reducible apply Closed.other hP) | (dsimp only [-Nat.reducePow, Option.getD_some, Option.getD_none]) | (with_reducible apply ite_keeps) | split | (refine of_fst (by with_reducible assumption) ?_) | (refine of_snd (by with_reducible assumption) ?_) | (refine of_snd2 (by with_reducible assumption) ?_) | (refine of_mid (by with_reducible assumption) ?_) | (refine of_getD (s := s) (by with_reducible assumption) ?_))

theorem replayWrite_keeps {P : State → Prop} (hP : Closed P) (hD : ClosedDram P) (hW : ClosedWay P) (e : JEntry) (l : Line) (s : State) (hs0 : P s) : P (replayWrite e l s) := by
  unfold replayWrite
  repeat' (first | (with_reducible assumption) | (intro _) | (with_reducible apply fbump_keeps) | (with_reducible apply onlyIf_keeps) | (with_reducible apply setFrame_keeps) | (with_reducible apply wayStat_keeps) | (with_reducible apply writeNow_keeps) | (with_reducible apply frameWrite_keeps) | (fail_if_no_progress with_reducible apply Closed.other hP) | (dsimp only [-Nat.reducePow, Option.getD_some, Option.getD_none]) | (with_reducible apply ite_keeps) | split | (refine of_fst (by with_reducible assumption) ?_) | (refine of_snd (by with_reducible assumption) ?_) | (refine of_snd2 (by with_reducible assumption) ?_) | (refine of_mid (by with_reducible assumption) ?_) | (refine of_getD (s := s) (by with_reducible assumption) ?_))

theorem replayRead_keeps {P : State → Prop} (hP : Closed P) (hI : ClosedIx P) (hS : ClosedStrm P) (hD : ClosedDram P) (hW : ClosedWay P) (e : JEntry) (x : ReadErrs) (s : State) (hs0 : P s) : P (replayRead e x s).2.2 := by
  unfold replayRead
  repeat' (first | (with_reducible assumption) | (intro _) | (with_reducible apply charge_keeps) | (with_reducible apply readNow_keeps) | (fail_if_no_progress with_reducible apply Closed.other hP) | (dsimp only [-Nat.reducePow, Option.getD_some, Option.getD_none]) | (with_reducible apply ite_keeps) | split | (refine of_fst (by with_reducible assumption) ?_) | (refine of_snd (by with_reducible assumption) ?_) | (refine of_snd2 (by with_reducible assumption) ?_) | (refine of_mid (by with_reducible assumption) ?_) | (refine of_getD (s := s) (by with_reducible assumption) ?_))

theorem replayDone_keeps {P : State → Prop} (hP : Closed P) (hS : ClosedStrm P) (c : Fin 16) (slot : Nat) (info : BitVec 64) (psn : Bool) (data : List Slot) (s : State) (hs0 : P s) : P (replayDone c slot info psn data s) := by
  unfold replayDone
  repeat' (first | (with_reducible assumption) | (intro _) | (with_reducible apply updEntry_keeps) | (with_reducible apply outcome_keeps) | (fail_if_no_progress with_reducible apply Closed.other hP) | (dsimp only [-Nat.reducePow, Option.getD_some, Option.getD_none]) | (with_reducible apply ite_keeps) | split | (refine of_fst (by with_reducible assumption) ?_) | (refine of_snd (by with_reducible assumption) ?_) | (refine of_snd2 (by with_reducible assumption) ?_) | (refine of_mid (by with_reducible assumption) ?_) | (refine of_getD (s := s) (by with_reducible assumption) ?_))

theorem replayAct_keeps {P : State → Prop} (hP : Closed P) (hI : ClosedIx P) (hS : ClosedStrm P) (hA : ClosedAcct P) (hD : ClosedDram P) (hW : ClosedWay P) (c : Fin 16) (slot : Nat) (e : JEntry) (x : ReadErrs) (s : State) (hs0 : P s) : P (replayAct c slot e x s) := by
  unfold replayAct
  repeat' (first | (with_reducible assumption) | (intro _) | (with_reducible apply updEntry_keeps) | (with_reducible apply faultEntry_keeps) | (with_reducible apply toRslt_keeps) | (with_reducible apply writeQd_keeps) | (with_reducible apply enqApply_keeps) | (with_reducible apply deqApply_keeps) | (with_reducible apply replayWrite_keeps) | (with_reducible apply replayRead_keeps) | (with_reducible apply replayDone_keeps) | (fail_if_no_progress with_reducible apply Closed.other hP) | (dsimp only [-Nat.reducePow, Option.getD_some, Option.getD_none]) | (with_reducible apply ite_keeps) | split | (refine of_fst (by with_reducible assumption) ?_) | (refine of_snd (by with_reducible assumption) ?_) | (refine of_snd2 (by with_reducible assumption) ?_) | (refine of_mid (by with_reducible assumption) ?_) | (refine of_getD (s := s) (by with_reducible assumption) ?_))

theorem replayEntry_keeps {P : State → Prop} (hP : Closed P) (hI : ClosedIx P) (hS : ClosedStrm P) (hA : ClosedAcct P) (hD : ClosedDram P) (hW : ClosedWay P) (errs : RplErrs) (c : Fin 16) (a : RplCount × State) (slot : Nat) (hs0 : P a.2) : P (replayEntry errs c a slot).2 := by
  unfold replayEntry
  repeat' (first | (with_reducible assumption) | (intro _) | (with_reducible apply updEntry_keeps) | (with_reducible apply replan_keeps) | (with_reducible apply actOn_keeps) | (with_reducible apply replayAct_keeps) | (fail_if_no_progress with_reducible apply Closed.other hP) | (dsimp only [-Nat.reducePow, Option.getD_some, Option.getD_none]) | (with_reducible apply ite_keeps) | split | (refine of_fst (by with_reducible assumption) ?_) | (refine of_snd (by with_reducible assumption) ?_) | (refine of_snd2 (by with_reducible assumption) ?_) | (refine of_mid (by with_reducible assumption) ?_) | (refine of_getD (s := a.2) (by with_reducible assumption) ?_))

theorem journalReplay_keeps {P : State → Prop} (hP : Closed P) (hI : ClosedIx P) (hS : ClosedStrm P) (hA : ClosedAcct P) (hD : ClosedDram P) (hW : ClosedWay P) (c : Fin 16) (errs : RplErrs) (s : State) (hs0 : P s) : P (journalReplay c errs s) := by
  unfold journalReplay
  repeat' (first | (with_reducible assumption) | (intro _) | (with_reducible apply fset_keeps) | (with_reducible apply fsetB_keeps) | (with_reducible apply emit_keeps) | (with_reducible apply updChan_keeps) | (with_reducible apply fsetBit_keeps) | (with_reducible apply retire_keeps) | (with_reducible apply settle_keeps) | (with_reducible apply replayEntry_keeps) | (with_reducible apply optMap_keeps) | (with_reducible apply optGet_keeps) | (with_reducible apply foldl_keeps) | (with_reducible apply foldl_keeps_fst) | (with_reducible apply foldl_keeps_snd) | (with_reducible apply foldl_keeps_snd2) | (fail_if_no_progress with_reducible apply Closed.other hP) | (dsimp only [-Nat.reducePow, Option.getD_some, Option.getD_none]) | (with_reducible apply ite_keeps) | split | (refine of_fst (by with_reducible assumption) ?_) | (refine of_snd (by with_reducible assumption) ?_) | (refine of_snd2 (by with_reducible assumption) ?_) | (refine of_mid (by with_reducible assumption) ?_) | (refine of_getD (s := s) (by with_reducible assumption) ?_))

theorem clearTrackers_keeps {P : State → Prop} (hP : Closed P) (hA : ClosedAcct P) (c : Fin 16) (s : State) (hs0 : P s) : P (clearTrackers c s) := by
  unfold clearTrackers
  repeat' (first | (with_reducible assumption) | (intro _) | (with_reducible apply fset_keeps) | (with_reducible apply updChan_keeps) | (with_reducible apply forAll_keeps) | (with_reducible apply setAcct_keeps) | (fail_if_no_progress with_reducible apply Closed.other hP) | (dsimp only [-Nat.reducePow, Option.getD_some, Option.getD_none]) | (with_reducible apply ite_keeps) | split | (refine of_fst (by with_reducible assumption) ?_) | (refine of_snd (by with_reducible assumption) ?_) | (refine of_snd2 (by with_reducible assumption) ?_) | (refine of_mid (by with_reducible assumption) ?_) | (refine of_getD (s := s) (by with_reducible assumption) ?_))

theorem chResetFields_keeps {P : State → Prop} (hP : Closed P) (hA : ClosedAcct P) (c : Fin 16) (s : State) (hs0 : P s) : P (chResetFields c s) := by
  unfold chResetFields
  repeat' (first | (with_reducible assumption) | (intro _) | (with_reducible apply fset_keeps) | (with_reducible apply clearTrackers_keeps) | (fail_if_no_progress with_reducible apply Closed.other hP) | (dsimp only [-Nat.reducePow, Option.getD_some, Option.getD_none]) | (with_reducible apply ite_keeps) | split | (refine of_fst (by with_reducible assumption) ?_) | (refine of_snd (by with_reducible assumption) ?_) | (refine of_snd2 (by with_reducible assumption) ?_) | (refine of_mid (by with_reducible assumption) ?_) | (refine of_getD (s := s) (by with_reducible assumption) ?_))

theorem chReset_keeps {P : State → Prop} (hP : Closed P) (hI : ClosedIx P) (hS : ClosedStrm P) (hA : ClosedAcct P) (hD : ClosedDram P) (hW : ClosedWay P) (c : Fin 16) (s : State) (hs0 : P s) : P (chReset c s).1 := by
  unfold chReset
  repeat' (first | (with_reducible assumption) | (intro _) | (with_reducible apply fset_keeps) | (with_reducible apply emit_keeps) | (with_reducible apply updChan_keeps) | (with_reducible apply settle_keeps) | (with_reducible apply setChState_keeps) | (with_reducible apply stopPhy_keeps) | (with_reducible apply clearChan_keeps) | (with_reducible apply channelLost_keeps) | (with_reducible apply trainBegin_keeps) | (with_reducible apply chResetFields_keeps) | (fail_if_no_progress with_reducible apply Closed.other hP) | (dsimp only [-Nat.reducePow, Option.getD_some, Option.getD_none]) | (with_reducible apply ite_keeps) | split | (refine of_fst (by with_reducible assumption) ?_) | (refine of_snd (by with_reducible assumption) ?_) | (refine of_snd2 (by with_reducible assumption) ?_) | (refine of_mid (by with_reducible assumption) ?_) | (refine of_getD (s := s) (by with_reducible assumption) ?_))

theorem poisonFill_keeps {P : State → Prop} (hP : Closed P) (c : Fin 16) (s : State) (hs0 : P s) : P (poisonFill c s) := by
  unfold poisonFill
  repeat' (first | (with_reducible assumption) | (intro _) | (with_reducible apply fset_keeps) | (with_reducible apply emit_keeps) | (with_reducible apply updChan_keeps) | (with_reducible apply horizonCheck_keeps) | (with_reducible apply enterService_keeps) | (fail_if_no_progress with_reducible apply Closed.other hP) | (dsimp only [-Nat.reducePow, Option.getD_some, Option.getD_none]) | (with_reducible apply ite_keeps) | split | (refine of_fst (by with_reducible assumption) ?_) | (refine of_snd (by with_reducible assumption) ?_) | (refine of_snd2 (by with_reducible assumption) ?_) | (refine of_mid (by with_reducible assumption) ?_) | (refine of_getD (s := s) (by with_reducible assumption) ?_))

theorem resyncReads_keeps {P : State → Prop} (hP : Closed P) (hI : ClosedIx P) (hS : ClosedStrm P) (hD : ClosedDram P) (hW : ClosedWay P) (c : Fin 16) (errs : List ReadErrs) (s : State) (hs0 : P s) : P (resyncReads c errs s) := by
  unfold resyncReads
  repeat' (first | (with_reducible assumption) | (intro _) | (with_reducible apply fbumpN_keeps) | (with_reducible apply forAll_keeps) | (with_reducible apply charge_keeps) | (with_reducible apply decodeNow_keeps) | (fail_if_no_progress with_reducible apply Closed.other hP) | (dsimp only [-Nat.reducePow, Option.getD_some, Option.getD_none]) | (with_reducible apply ite_keeps) | split | (refine of_fst (by with_reducible assumption) ?_) | (refine of_snd (by with_reducible assumption) ?_) | (refine of_snd2 (by with_reducible assumption) ?_) | (refine of_mid (by with_reducible assumption) ?_) | (refine of_getD (s := s) (by with_reducible assumption) ?_))

theorem twinResync_keeps {P : State → Prop} (hP : Closed P) (hI : ClosedIx P) (hS : ClosedStrm P) (hD : ClosedDram P) (hW : ClosedWay P) (c : Fin 16) (errs : List ReadErrs) (s : State) (hs0 : P s) : P (twinResync c errs s) := by
  unfold twinResync
  repeat' (first | (with_reducible assumption) | (intro _) | (with_reducible apply emit_keeps) | (with_reducible apply updChan_keeps) | (with_reducible apply dramCopy_keeps) | (with_reducible apply resyncReads_keeps) | (fail_if_no_progress with_reducible apply Closed.other hP) | (dsimp only [-Nat.reducePow, Option.getD_some, Option.getD_none]) | (with_reducible apply ite_keeps) | split | (refine of_fst (by with_reducible assumption) ?_) | (refine of_snd (by with_reducible assumption) ?_) | (refine of_snd2 (by with_reducible assumption) ?_) | (refine of_mid (by with_reducible assumption) ?_) | (refine of_getD (s := s) (by with_reducible assumption) ?_))

theorem coldState_keeps {P : State → Prop} (hP : Closed P) (hC : ClosedCold P) (c : RstCause) (start : Nat) (s : State) (hs0 : P s) : P (coldState c start s) := hC.coldState c start s hs0

theorem rampStart_keeps {P : State → Prop} (hP : Closed P) (d : Nat) (s : State) (hs0 : P s) : P (rampStart d s) := by
  unfold rampStart
  repeat' (first | (with_reducible assumption) | (intro _) | (with_reducible apply fset_keeps) | (fail_if_no_progress with_reducible apply Closed.other hP) | (dsimp only [-Nat.reducePow, Option.getD_some, Option.getD_none]) | (with_reducible apply ite_keeps) | split | (refine of_fst (by with_reducible assumption) ?_) | (refine of_snd (by with_reducible assumption) ?_) | (refine of_snd2 (by with_reducible assumption) ?_) | (refine of_mid (by with_reducible assumption) ?_) | (refine of_getD (s := s) (by with_reducible assumption) ?_))

theorem rampFuel_keeps {P : State → Prop} (hP : Closed P) (x0 : Nat) (x1 : State) (hs0 : P x1) : P (rampFuel x0 x1) := by
  fun_induction rampFuel x0 x1
  all_goals repeat' (first | (with_reducible assumption) | (intro _) | (with_reducible apply rampStart_keeps) | (fail_if_no_progress with_reducible apply Closed.other hP) | (dsimp only [-Nat.reducePow, Option.getD_some, Option.getD_none]) | (with_reducible apply ite_keeps) | split | (refine of_fst (by with_reducible assumption) ?_) | (refine of_snd (by with_reducible assumption) ?_) | (refine of_snd2 (by with_reducible assumption) ?_) | (refine of_mid (by with_reducible assumption) ?_) | (refine of_getD (s := x1) (by with_reducible assumption) ?_) | apply_assumption)

theorem rampMore_keeps {P : State → Prop} (hP : Closed P) (l : List Nat) (s : State) (hs0 : P s) : P (rampMore l s) := by
  unfold rampMore
  repeat' (first | (with_reducible assumption) | (intro _) | (with_reducible apply rampFuel_keeps) | (fail_if_no_progress with_reducible apply Closed.other hP) | (dsimp only [-Nat.reducePow, Option.getD_some, Option.getD_none]) | (with_reducible apply ite_keeps) | split | (refine of_fst (by with_reducible assumption) ?_) | (refine of_snd (by with_reducible assumption) ?_) | (refine of_snd2 (by with_reducible assumption) ?_) | (refine of_mid (by with_reducible assumption) ?_) | (refine of_getD (s := s) (by with_reducible assumption) ?_))

theorem coldBegin_keeps {P : State → Prop} (hP : Closed P) (hC : ClosedCold P) (c : RstCause) (start : Nat) (s : State) (hs0 : P s) : P (coldBegin c start s) := by
  unfold coldBegin
  repeat' (first | (with_reducible assumption) | (intro _) | (with_reducible apply coldState_keeps) | (with_reducible apply rampMore_keeps) | (fail_if_no_progress with_reducible apply Closed.other hP) | (dsimp only [-Nat.reducePow, Option.getD_some, Option.getD_none]) | (with_reducible apply ite_keeps) | split | (refine of_fst (by with_reducible assumption) ?_) | (refine of_snd (by with_reducible assumption) ?_) | (refine of_snd2 (by with_reducible assumption) ?_) | (refine of_mid (by with_reducible assumption) ?_) | (refine of_getD (s := s) (by with_reducible assumption) ?_))

theorem coldDone_keeps {P : State → Prop} (hP : Closed P) (s : State) (hs0 : P s) : P (coldDone s) := by
  unfold coldDone
  repeat' (first | (with_reducible assumption) | (intro _) | (with_reducible apply emit_keeps) | (with_reducible apply onlyIf_keeps) | (with_reducible apply emitReset_keeps) | (fail_if_no_progress with_reducible apply Closed.other hP) | (dsimp only [-Nat.reducePow, Option.getD_some, Option.getD_none]) | (with_reducible apply ite_keeps) | split | (refine of_fst (by with_reducible assumption) ?_) | (refine of_snd (by with_reducible assumption) ?_) | (refine of_snd2 (by with_reducible assumption) ?_) | (refine of_mid (by with_reducible assumption) ?_) | (refine of_getD (s := s) (by with_reducible assumption) ?_))

theorem sleepAbort_keeps {P : State → Prop} (hP : Closed P) (cause : String) (s : State) (hs0 : P s) : P (sleepAbort cause s) := by
  unfold sleepAbort
  repeat' (first | (with_reducible assumption) | (intro _) | (with_reducible apply fset_keeps) | (with_reducible apply emit_keeps) | (fail_if_no_progress with_reducible apply Closed.other hP) | (dsimp only [-Nat.reducePow, Option.getD_some, Option.getD_none]) | (with_reducible apply ite_keeps) | split | (refine of_fst (by with_reducible assumption) ?_) | (refine of_snd (by with_reducible assumption) ?_) | (refine of_snd2 (by with_reducible assumption) ?_) | (refine of_mid (by with_reducible assumption) ?_) | (refine of_getD (s := s) (by with_reducible assumption) ?_))

theorem warmTrigger_keeps {P : State → Prop} (hP : Closed P) (hS : ClosedStrm P) (hA : ClosedAcct P) (hW : ClosedWay P) (c : RstCause) (s : State) (hs0 : P s) : P (warmTrigger c s) := by
  unfold warmTrigger
  repeat' (first | (with_reducible assumption) | (intro _) | (with_reducible apply pinRefill_keeps) | (with_reducible apply warmReset_keeps) | (with_reducible apply sleepAbort_keeps) | (fail_if_no_progress with_reducible apply Closed.other hP) | (dsimp only [-Nat.reducePow, Option.getD_some, Option.getD_none]) | (with_reducible apply ite_keeps) | split | (refine of_fst (by with_reducible assumption) ?_) | (refine of_snd (by with_reducible assumption) ?_) | (refine of_snd2 (by with_reducible assumption) ?_) | (refine of_mid (by with_reducible assumption) ?_) | (refine of_getD (s := s) (by with_reducible assumption) ?_))

theorem wdogKick_keeps {P : State → Prop} (hP : Closed P) (s : State) (hs0 : P s) : P (wdogKick s) := by
  unfold wdogKick
  repeat' (first | (with_reducible assumption) | (intro _) | (fail_if_no_progress with_reducible apply Closed.other hP) | (dsimp only [-Nat.reducePow, Option.getD_some, Option.getD_none]) | (with_reducible apply ite_keeps) | split | (refine of_fst (by with_reducible assumption) ?_) | (refine of_snd (by with_reducible assumption) ?_) | (refine of_snd2 (by with_reducible assumption) ?_) | (refine of_mid (by with_reducible assumption) ?_) | (refine of_getD (s := s) (by with_reducible assumption) ?_))

theorem wdogExpire_keeps {P : State → Prop} (hP : Closed P) (hS : ClosedStrm P) (hA : ClosedAcct P) (hW : ClosedWay P) (s : State) (hs0 : P s) : P (wdogExpire s) := by
  unfold wdogExpire
  repeat' (first | (with_reducible assumption) | (intro _) | (with_reducible apply takeFree_keeps) | (with_reducible apply advanceTo8_keeps) | (with_reducible apply warmTrigger_keeps) | (fail_if_no_progress with_reducible apply Closed.other hP) | (dsimp only [-Nat.reducePow, Option.getD_some, Option.getD_none]) | (with_reducible apply ite_keeps) | split | (refine of_fst (by with_reducible assumption) ?_) | (refine of_snd (by with_reducible assumption) ?_) | (refine of_snd2 (by with_reducible assumption) ?_) | (refine of_mid (by with_reducible assumption) ?_) | (refine of_getD (s := s) (by with_reducible assumption) ?_))

theorem execJournalReplay_keeps {P : State → Prop} (hP : Closed P) (hI : ClosedIx P) (hS : ClosedStrm P) (hA : ClosedAcct P) (hD : ClosedDram P) (hW : ClosedWay P) (ch : Fin 16) (errs : RplErrs) (s : State) (hs0 : P s) : ∀ out, execJournalReplay ch errs s = .next out → P out := by
  unfold execJournalReplay
  intro out hout
  obtain rfl := Host.Outcome.next.inj hout
  repeat' (first | (with_reducible assumption) | (intro _) | (with_reducible apply journalReplay_keeps) | (fail_if_no_progress with_reducible apply Closed.other hP) | (dsimp only [-Nat.reducePow, Option.getD_some, Option.getD_none]) | (with_reducible apply ite_keeps) | split | (refine of_fst (by with_reducible assumption) ?_) | (refine of_snd (by with_reducible assumption) ?_) | (refine of_snd2 (by with_reducible assumption) ?_) | (refine of_mid (by with_reducible assumption) ?_) | (refine of_getD (s := s) (by with_reducible assumption) ?_))

theorem execPoisonFillDone_keeps {P : State → Prop} (hP : Closed P) (ch : Fin 16) (s : State) (hs0 : P s) : ∀ out, execPoisonFillDone ch s = .next out → P out := by
  unfold execPoisonFillDone
  intro out hout
  obtain rfl := Host.Outcome.next.inj hout
  repeat' (first | (with_reducible assumption) | (intro _) | (with_reducible apply poisonFill_keeps) | (fail_if_no_progress with_reducible apply Closed.other hP) | (dsimp only [-Nat.reducePow, Option.getD_some, Option.getD_none]) | (with_reducible apply ite_keeps) | split | (refine of_fst (by with_reducible assumption) ?_) | (refine of_snd (by with_reducible assumption) ?_) | (refine of_snd2 (by with_reducible assumption) ?_) | (refine of_mid (by with_reducible assumption) ?_) | (refine of_getD (s := s) (by with_reducible assumption) ?_))

theorem execTwinResync_keeps {P : State → Prop} (hP : Closed P) (hI : ClosedIx P) (hS : ClosedStrm P) (hD : ClosedDram P) (hW : ClosedWay P) (ch : CopyPick) (s : State) (hs0 : P s) : ∀ out, execTwinResync ch s = .next out → P out := by
  unfold execTwinResync
  intro out hout
  obtain rfl := Host.Outcome.next.inj hout
  repeat' (first | (with_reducible assumption) | (intro _) | (with_reducible apply twinResync_keeps) | (fail_if_no_progress with_reducible apply Closed.other hP) | (dsimp only [-Nat.reducePow, Option.getD_some, Option.getD_none]) | (with_reducible apply ite_keeps) | split | (refine of_fst (by with_reducible assumption) ?_) | (refine of_snd (by with_reducible assumption) ?_) | (refine of_snd2 (by with_reducible assumption) ?_) | (refine of_mid (by with_reducible assumption) ?_) | (refine of_getD (s := s) (by with_reducible assumption) ?_))

theorem execPerChannelReset_keeps {P : State → Prop} (hP : Closed P) (hI : ClosedIx P) (hS : ClosedStrm P) (hA : ClosedAcct P) (hD : ClosedDram P) (hW : ClosedWay P) (ch : ChPick) (s : State) (hs0 : P s) : ∀ out, execPerChannelReset ch s = .next out → P out := by
  unfold execPerChannelReset
  intro out hout
  obtain rfl := Host.Outcome.next.inj hout
  repeat' (first | (with_reducible assumption) | (intro _) | (with_reducible apply runVerb1_keeps) | (with_reducible apply actAll_keeps) | (with_reducible apply chReset_keeps) | (fail_if_no_progress with_reducible apply Closed.other hP) | (dsimp only [-Nat.reducePow, Option.getD_some, Option.getD_none]) | (with_reducible apply ite_keeps) | split | (refine of_fst (by with_reducible assumption) ?_) | (refine of_snd (by with_reducible assumption) ?_) | (refine of_snd2 (by with_reducible assumption) ?_) | (refine of_mid (by with_reducible assumption) ?_) | (refine of_getD (s := s) (by with_reducible assumption) ?_))

theorem execResetPort_keeps {P : State → Prop} (hP : Closed P) (hI : ClosedIx P) (hS : ClosedStrm P) (hA : ClosedAcct P) (hD : ClosedDram P) (hW : ClosedWay P) (port : Fin 4) (s : State) (hs0 : P s) : ∀ out, execResetPort port s = .next out → P out := by
  unfold execResetPort
  intro out hout
  obtain rfl := Host.Outcome.next.inj hout
  repeat' (first | (with_reducible assumption) | (intro _) | (with_reducible apply portReset_keeps) | (with_reducible apply runVerb1_keeps) | (with_reducible apply settle_keeps) | (fail_if_no_progress with_reducible apply Closed.other hP) | (dsimp only [-Nat.reducePow, Option.getD_some, Option.getD_none]) | (with_reducible apply ite_keeps) | split | (refine of_fst (by with_reducible assumption) ?_) | (refine of_snd (by with_reducible assumption) ?_) | (refine of_snd2 (by with_reducible assumption) ?_) | (refine of_mid (by with_reducible assumption) ?_) | (refine of_getD (s := s) (by with_reducible assumption) ?_))

theorem execResetWarm_keeps {P : State → Prop} (hP : Closed P) (s : State) (hs0 : P s) : ∀ out, execResetWarm s = .next out → P out := by
  unfold execResetWarm
  intro out hout
  obtain rfl := Host.Outcome.next.inj hout
  repeat' (first | (with_reducible assumption) | (intro _) | (with_reducible apply runVerb1_keeps) | (fail_if_no_progress with_reducible apply Closed.other hP) | (dsimp only [-Nat.reducePow, Option.getD_some, Option.getD_none]) | (with_reducible apply ite_keeps) | split | (refine of_fst (by with_reducible assumption) ?_) | (refine of_snd (by with_reducible assumption) ?_) | (refine of_snd2 (by with_reducible assumption) ?_) | (refine of_mid (by with_reducible assumption) ?_) | (refine of_getD (s := s) (by with_reducible assumption) ?_))

theorem execResetCold_keeps {P : State → Prop} (hP : Closed P) (s : State) (hs0 : P s) : ∀ out, execResetCold s = .next out → P out := by
  unfold execResetCold
  intro out hout
  obtain rfl := Host.Outcome.next.inj hout
  repeat' (first | (with_reducible assumption) | (intro _) | (with_reducible apply runVerb1_keeps) | (fail_if_no_progress with_reducible apply Closed.other hP) | (dsimp only [-Nat.reducePow, Option.getD_some, Option.getD_none]) | (with_reducible apply ite_keeps) | split | (refine of_fst (by with_reducible assumption) ?_) | (refine of_snd (by with_reducible assumption) ?_) | (refine of_snd2 (by with_reducible assumption) ?_) | (refine of_mid (by with_reducible assumption) ?_) | (refine of_getD (s := s) (by with_reducible assumption) ?_))

theorem execWatchdogExpiry_keeps {P : State → Prop} (hP : Closed P) (hS : ClosedStrm P) (hA : ClosedAcct P) (hW : ClosedWay P) (s : State) (hs0 : P s) : ∀ out, execWatchdogExpiry s = .next out → P out := by
  unfold execWatchdogExpiry
  intro out hout
  obtain rfl := Host.Outcome.next.inj hout
  repeat' (first | (with_reducible assumption) | (intro _) | (with_reducible apply wdogExpire_keeps) | (fail_if_no_progress with_reducible apply Closed.other hP) | (dsimp only [-Nat.reducePow, Option.getD_some, Option.getD_none]) | (with_reducible apply ite_keeps) | split | (refine of_fst (by with_reducible assumption) ?_) | (refine of_snd (by with_reducible assumption) ?_) | (refine of_snd2 (by with_reducible assumption) ?_) | (refine of_mid (by with_reducible assumption) ?_) | (refine of_getD (s := s) (by with_reducible assumption) ?_))

theorem execWatchdogKick_keeps {P : State → Prop} (hP : Closed P) (s : State) (hs0 : P s) : ∀ out, execWatchdogKick s = .next out → P out := by
  unfold execWatchdogKick
  intro out hout
  obtain rfl := Host.Outcome.next.inj hout
  repeat' (first | (with_reducible assumption) | (intro _) | (with_reducible apply busWr_keeps) | (with_reducible apply wdogKick_keeps) | (fail_if_no_progress with_reducible apply Closed.other hP) | (dsimp only [-Nat.reducePow, Option.getD_some, Option.getD_none]) | (with_reducible apply ite_keeps) | split | (refine of_fst (by with_reducible assumption) ?_) | (refine of_snd (by with_reducible assumption) ?_) | (refine of_snd2 (by with_reducible assumption) ?_) | (refine of_mid (by with_reducible assumption) ?_) | (refine of_getD (s := s) (by with_reducible assumption) ?_))

theorem execCorePllLockLoss_keeps {P : State → Prop} (hP : Closed P) (hS : ClosedStrm P) (hA : ClosedAcct P) (hW : ClosedWay P) (s : State) (hs0 : P s) : ∀ out, execCorePllLockLoss s = .next out → P out := by
  unfold execCorePllLockLoss
  intro out hout
  obtain rfl := Host.Outcome.next.inj hout
  repeat' (first | (with_reducible assumption) | (intro _) | (with_reducible apply fset_keeps) | (with_reducible apply warmTrigger_keeps) | (fail_if_no_progress with_reducible apply Closed.other hP) | (dsimp only [-Nat.reducePow, Option.getD_some, Option.getD_none]) | (with_reducible apply ite_keeps) | split | (refine of_fst (by with_reducible assumption) ?_) | (refine of_snd (by with_reducible assumption) ?_) | (refine of_snd2 (by with_reducible assumption) ?_) | (refine of_mid (by with_reducible assumption) ?_) | (refine of_getD (s := s) (by with_reducible assumption) ?_))

theorem execWaystationClearDone_keeps {P : State → Prop} (hP : Closed P) (s : State) (hs0 : P s) : ∀ out, execWaystationClearDone s = .next out → P out := by
  unfold execWaystationClearDone
  intro out hout
  obtain rfl := Host.Outcome.next.inj hout
  repeat' (first | (with_reducible assumption) | (intro _) | (fail_if_no_progress with_reducible apply Closed.other hP) | (dsimp only [-Nat.reducePow, Option.getD_some, Option.getD_none]) | (with_reducible apply ite_keeps) | split | (refine of_fst (by with_reducible assumption) ?_) | (refine of_snd (by with_reducible assumption) ?_) | (refine of_snd2 (by with_reducible assumption) ?_) | (refine of_mid (by with_reducible assumption) ?_) | (refine of_getD (s := s) (by with_reducible assumption) ?_))

end Sys2Proof.Laws
end

