-- ==== Sys2Proof/Laws/State.lean ====
section
/-! SUPPORT. What each named update leaves of the state: one lemma for each field that the update does not touch, and one for each that it sets. -/

namespace Sys2Proof.Laws
open Sys2Proof.Machine

/-! ### rgSet -/

@[simp] theorem rgSet_pending (a : Nat) (w : Word) (s : State) : (rgSet a w s).pending = s.pending := (rfl)
@[simp] theorem rgSet_d8 (a : Nat) (w : Word) (s : State) : (rgSet a w s).d8 = s.d8 := (rfl)
@[simp] theorem rgSet_free (a : Nat) (w : Word) (s : State) : (rgSet a w s).free = s.free := (rfl)
@[simp] theorem rgSet_regs (a : Nat) (w : Word) (s : State) : (rgSet a w s).regs = tblSet regReset s.regs a w := (rfl)
@[simp] theorem rgSet_ix (a : Nat) (w : Word) (s : State) : (rgSet a w s).ix = s.ix := (rfl)
@[simp] theorem rgSet_dram (a : Nat) (w : Word) (s : State) : (rgSet a w s).dram = s.dram := (rfl)
@[simp] theorem rgSet_wmem (a : Nat) (w : Word) (s : State) : (rgSet a w s).wmem = s.wmem := (rfl)
@[simp] theorem rgSet_ports (a : Nat) (w : Word) (s : State) : (rgSet a w s).ports = s.ports := (rfl)
@[simp] theorem rgSet_streams (a : Nat) (w : Word) (s : State) : (rgSet a w s).streams = s.streams := (rfl)
@[simp] theorem rgSet_rings (a : Nat) (w : Word) (s : State) : (rgSet a w s).rings = s.rings := (rfl)
@[simp] theorem rgSet_mans (a : Nat) (w : Word) (s : State) : (rgSet a w s).mans = s.mans := (rfl)
@[simp] theorem rgSet_accts (a : Nat) (w : Word) (s : State) : (rgSet a w s).accts = s.accts := (rfl)
@[simp] theorem rgSet_arbs (a : Nat) (w : Word) (s : State) : (rgSet a w s).arbs = s.arbs := (rfl)
@[simp] theorem rgSet_order (a : Nat) (w : Word) (s : State) : (rgSet a w s).order = s.order := (rfl)
@[simp] theorem rgSet_ofsOld (a : Nat) (w : Word) (s : State) : (rgSet a w s).ofsOld = s.ofsOld := (rfl)
@[simp] theorem rgSet_toll (a : Nat) (w : Word) (s : State) : (rgSet a w s).toll = s.toll := (rfl)
@[simp] theorem rgSet_way (a : Nat) (w : Word) (s : State) : (rgSet a w s).way = s.way := (rfl)
@[simp] theorem rgSet_wayOps (a : Nat) (w : Word) (s : State) : (rgSet a w s).wayOps = s.wayOps := (rfl)
@[simp] theorem rgSet_walks (a : Nat) (w : Word) (s : State) : (rgSet a w s).walks = s.walks := (rfl)
@[simp] theorem rgSet_caravans (a : Nat) (w : Word) (s : State) : (rgSet a w s).caravans = s.caravans := (rfl)
@[simp] theorem rgSet_wreads (a : Nat) (w : Word) (s : State) : (rgSet a w s).wreads = s.wreads := (rfl)
@[simp] theorem rgSet_que (a : Nat) (w : Word) (s : State) : (rgSet a w s).que = s.que := (rfl)
@[simp] theorem rgSet_chans (a : Nat) (w : Word) (s : State) : (rgSet a w s).chans = s.chans := (rfl)
@[simp] theorem rgSet_phys (a : Nat) (w : Word) (s : State) : (rgSet a w s).phys = s.phys := (rfl)
@[simp] theorem rgSet_led (a : Nat) (w : Word) (s : State) : (rgSet a w s).led = s.led := (rfl)
@[simp] theorem rgSet_bist (a : Nat) (w : Word) (s : State) : (rgSet a w s).bist = s.bist := (rfl)
@[simp] theorem rgSet_pwr (a : Nat) (w : Word) (s : State) : (rgSet a w s).pwr = s.pwr := (rfl)
@[simp] theorem rgSet_con (a : Nat) (w : Word) (s : State) : (rgSet a w s).con = s.con := (rfl)
@[simp] theorem rgSet_prof (a : Nat) (w : Word) (s : State) : (rgSet a w s).prof = s.prof := (rfl)
@[simp] theorem rgSet_perEnd (a : Nat) (w : Word) (s : State) : (rgSet a w s).perEnd = s.perEnd := (rfl)
@[simp] theorem rgSet_tollEnd (a : Nat) (w : Word) (s : State) : (rgSet a w s).tollEnd = s.tollEnd := (rfl)
@[simp] theorem rgSet_horizon (a : Nat) (w : Word) (s : State) : (rgSet a w s).horizon = s.horizon := (rfl)
@[simp] theorem rgSet_probe (a : Nat) (w : Word) (s : State) : (rgSet a w s).probe = s.probe := (rfl)
@[simp] theorem rgSet_guard (a : Nat) (w : Word) (s : State) : (rgSet a w s).guard = s.guard := (rfl)
@[simp] theorem rgSet_latches (a : Nat) (w : Word) (s : State) : (rgSet a w s).latches = s.latches := (rfl)
@[simp] theorem rgSet_shadow (a : Nat) (w : Word) (s : State) : (rgSet a w s).shadow = s.shadow := (rfl)
@[simp] theorem rgSet_hold (a : Nat) (w : Word) (s : State) : (rgSet a w s).hold = s.hold := (rfl)

/-! ### regsMap -/

@[simp] theorem regsMap_pending (f : Nat → Word → Option Word) (s : State) : (regsMap f s).pending = s.pending := (rfl)
@[simp] theorem regsMap_d8 (f : Nat → Word → Option Word) (s : State) : (regsMap f s).d8 = s.d8 := (rfl)
@[simp] theorem regsMap_free (f : Nat → Word → Option Word) (s : State) : (regsMap f s).free = s.free := (rfl)
@[simp] theorem regsMap_ix (f : Nat → Word → Option Word) (s : State) : (regsMap f s).ix = s.ix := (rfl)
@[simp] theorem regsMap_dram (f : Nat → Word → Option Word) (s : State) : (regsMap f s).dram = s.dram := (rfl)
@[simp] theorem regsMap_wmem (f : Nat → Word → Option Word) (s : State) : (regsMap f s).wmem = s.wmem := (rfl)
@[simp] theorem regsMap_ports (f : Nat → Word → Option Word) (s : State) : (regsMap f s).ports = s.ports := (rfl)
@[simp] theorem regsMap_streams (f : Nat → Word → Option Word) (s : State) : (regsMap f s).streams = s.streams := (rfl)
@[simp] theorem regsMap_rings (f : Nat → Word → Option Word) (s : State) : (regsMap f s).rings = s.rings := (rfl)
@[simp] theorem regsMap_mans (f : Nat → Word → Option Word) (s : State) : (regsMap f s).mans = s.mans := (rfl)
@[simp] theorem regsMap_accts (f : Nat → Word → Option Word) (s : State) : (regsMap f s).accts = s.accts := (rfl)
@[simp] theorem regsMap_arbs (f : Nat → Word → Option Word) (s : State) : (regsMap f s).arbs = s.arbs := (rfl)
@[simp] theorem regsMap_order (f : Nat → Word → Option Word) (s : State) : (regsMap f s).order = s.order := (rfl)
@[simp] theorem regsMap_ofsOld (f : Nat → Word → Option Word) (s : State) : (regsMap f s).ofsOld = s.ofsOld := (rfl)
@[simp] theorem regsMap_toll (f : Nat → Word → Option Word) (s : State) : (regsMap f s).toll = s.toll := (rfl)
@[simp] theorem regsMap_way (f : Nat → Word → Option Word) (s : State) : (regsMap f s).way = s.way := (rfl)
@[simp] theorem regsMap_wayOps (f : Nat → Word → Option Word) (s : State) : (regsMap f s).wayOps = s.wayOps := (rfl)
@[simp] theorem regsMap_walks (f : Nat → Word → Option Word) (s : State) : (regsMap f s).walks = s.walks := (rfl)
@[simp] theorem regsMap_caravans (f : Nat → Word → Option Word) (s : State) : (regsMap f s).caravans = s.caravans := (rfl)
@[simp] theorem regsMap_wreads (f : Nat → Word → Option Word) (s : State) : (regsMap f s).wreads = s.wreads := (rfl)
@[simp] theorem regsMap_que (f : Nat → Word → Option Word) (s : State) : (regsMap f s).que = s.que := (rfl)
@[simp] theorem regsMap_chans (f : Nat → Word → Option Word) (s : State) : (regsMap f s).chans = s.chans := (rfl)
@[simp] theorem regsMap_phys (f : Nat → Word → Option Word) (s : State) : (regsMap f s).phys = s.phys := (rfl)
@[simp] theorem regsMap_led (f : Nat → Word → Option Word) (s : State) : (regsMap f s).led = s.led := (rfl)
@[simp] theorem regsMap_bist (f : Nat → Word → Option Word) (s : State) : (regsMap f s).bist = s.bist := (rfl)
@[simp] theorem regsMap_pwr (f : Nat → Word → Option Word) (s : State) : (regsMap f s).pwr = s.pwr := (rfl)
@[simp] theorem regsMap_con (f : Nat → Word → Option Word) (s : State) : (regsMap f s).con = s.con := (rfl)
@[simp] theorem regsMap_prof (f : Nat → Word → Option Word) (s : State) : (regsMap f s).prof = s.prof := (rfl)
@[simp] theorem regsMap_perEnd (f : Nat → Word → Option Word) (s : State) : (regsMap f s).perEnd = s.perEnd := (rfl)
@[simp] theorem regsMap_tollEnd (f : Nat → Word → Option Word) (s : State) : (regsMap f s).tollEnd = s.tollEnd := (rfl)
@[simp] theorem regsMap_horizon (f : Nat → Word → Option Word) (s : State) : (regsMap f s).horizon = s.horizon := (rfl)
@[simp] theorem regsMap_probe (f : Nat → Word → Option Word) (s : State) : (regsMap f s).probe = s.probe := (rfl)
@[simp] theorem regsMap_guard (f : Nat → Word → Option Word) (s : State) : (regsMap f s).guard = s.guard := (rfl)
@[simp] theorem regsMap_latches (f : Nat → Word → Option Word) (s : State) : (regsMap f s).latches = s.latches := (rfl)
@[simp] theorem regsMap_shadow (f : Nat → Word → Option Word) (s : State) : (regsMap f s).shadow = s.shadow := (rfl)
@[simp] theorem regsMap_hold (f : Nat → Word → Option Word) (s : State) : (regsMap f s).hold = s.hold := (rfl)

/-! ### fset -/

@[simp] theorem fset_pending (b : Nat) (f : Fld) (v : Nat) (s : State) : (fset b f v s).pending = s.pending := (rfl)
@[simp] theorem fset_d8 (b : Nat) (f : Fld) (v : Nat) (s : State) : (fset b f v s).d8 = s.d8 := (rfl)
@[simp] theorem fset_free (b : Nat) (f : Fld) (v : Nat) (s : State) : (fset b f v s).free = s.free := (rfl)
@[simp] theorem fset_ix (b : Nat) (f : Fld) (v : Nat) (s : State) : (fset b f v s).ix = s.ix := (rfl)
@[simp] theorem fset_dram (b : Nat) (f : Fld) (v : Nat) (s : State) : (fset b f v s).dram = s.dram := (rfl)
@[simp] theorem fset_wmem (b : Nat) (f : Fld) (v : Nat) (s : State) : (fset b f v s).wmem = s.wmem := (rfl)
@[simp] theorem fset_ports (b : Nat) (f : Fld) (v : Nat) (s : State) : (fset b f v s).ports = s.ports := (rfl)
@[simp] theorem fset_streams (b : Nat) (f : Fld) (v : Nat) (s : State) : (fset b f v s).streams = s.streams := (rfl)
@[simp] theorem fset_rings (b : Nat) (f : Fld) (v : Nat) (s : State) : (fset b f v s).rings = s.rings := (rfl)
@[simp] theorem fset_mans (b : Nat) (f : Fld) (v : Nat) (s : State) : (fset b f v s).mans = s.mans := (rfl)
@[simp] theorem fset_accts (b : Nat) (f : Fld) (v : Nat) (s : State) : (fset b f v s).accts = s.accts := (rfl)
@[simp] theorem fset_arbs (b : Nat) (f : Fld) (v : Nat) (s : State) : (fset b f v s).arbs = s.arbs := (rfl)
@[simp] theorem fset_order (b : Nat) (f : Fld) (v : Nat) (s : State) : (fset b f v s).order = s.order := (rfl)
@[simp] theorem fset_ofsOld (b : Nat) (f : Fld) (v : Nat) (s : State) : (fset b f v s).ofsOld = s.ofsOld := (rfl)
@[simp] theorem fset_toll (b : Nat) (f : Fld) (v : Nat) (s : State) : (fset b f v s).toll = s.toll := (rfl)
@[simp] theorem fset_way (b : Nat) (f : Fld) (v : Nat) (s : State) : (fset b f v s).way = s.way := (rfl)
@[simp] theorem fset_wayOps (b : Nat) (f : Fld) (v : Nat) (s : State) : (fset b f v s).wayOps = s.wayOps := (rfl)
@[simp] theorem fset_walks (b : Nat) (f : Fld) (v : Nat) (s : State) : (fset b f v s).walks = s.walks := (rfl)
@[simp] theorem fset_caravans (b : Nat) (f : Fld) (v : Nat) (s : State) : (fset b f v s).caravans = s.caravans := (rfl)
@[simp] theorem fset_wreads (b : Nat) (f : Fld) (v : Nat) (s : State) : (fset b f v s).wreads = s.wreads := (rfl)
@[simp] theorem fset_que (b : Nat) (f : Fld) (v : Nat) (s : State) : (fset b f v s).que = s.que := (rfl)
@[simp] theorem fset_chans (b : Nat) (f : Fld) (v : Nat) (s : State) : (fset b f v s).chans = s.chans := (rfl)
@[simp] theorem fset_phys (b : Nat) (f : Fld) (v : Nat) (s : State) : (fset b f v s).phys = s.phys := (rfl)
@[simp] theorem fset_led (b : Nat) (f : Fld) (v : Nat) (s : State) : (fset b f v s).led = s.led := (rfl)
@[simp] theorem fset_bist (b : Nat) (f : Fld) (v : Nat) (s : State) : (fset b f v s).bist = s.bist := (rfl)
@[simp] theorem fset_pwr (b : Nat) (f : Fld) (v : Nat) (s : State) : (fset b f v s).pwr = s.pwr := (rfl)
@[simp] theorem fset_con (b : Nat) (f : Fld) (v : Nat) (s : State) : (fset b f v s).con = s.con := (rfl)
@[simp] theorem fset_prof (b : Nat) (f : Fld) (v : Nat) (s : State) : (fset b f v s).prof = s.prof := (rfl)
@[simp] theorem fset_perEnd (b : Nat) (f : Fld) (v : Nat) (s : State) : (fset b f v s).perEnd = s.perEnd := (rfl)
@[simp] theorem fset_tollEnd (b : Nat) (f : Fld) (v : Nat) (s : State) : (fset b f v s).tollEnd = s.tollEnd := (rfl)
@[simp] theorem fset_horizon (b : Nat) (f : Fld) (v : Nat) (s : State) : (fset b f v s).horizon = s.horizon := (rfl)
@[simp] theorem fset_probe (b : Nat) (f : Fld) (v : Nat) (s : State) : (fset b f v s).probe = s.probe := (rfl)
@[simp] theorem fset_guard (b : Nat) (f : Fld) (v : Nat) (s : State) : (fset b f v s).guard = s.guard := (rfl)
@[simp] theorem fset_latches (b : Nat) (f : Fld) (v : Nat) (s : State) : (fset b f v s).latches = s.latches := (rfl)
@[simp] theorem fset_shadow (b : Nat) (f : Fld) (v : Nat) (s : State) : (fset b f v s).shadow = s.shadow := (rfl)
@[simp] theorem fset_hold (b : Nat) (f : Fld) (v : Nat) (s : State) : (fset b f v s).hold = s.hold := (rfl)

/-! ### fsetB -/

@[simp] theorem fsetB_pending (b : Nat) (f : Fld) (v : Bool) (s : State) : (fsetB b f v s).pending = s.pending := (rfl)
@[simp] theorem fsetB_d8 (b : Nat) (f : Fld) (v : Bool) (s : State) : (fsetB b f v s).d8 = s.d8 := (rfl)
@[simp] theorem fsetB_free (b : Nat) (f : Fld) (v : Bool) (s : State) : (fsetB b f v s).free = s.free := (rfl)
@[simp] theorem fsetB_ix (b : Nat) (f : Fld) (v : Bool) (s : State) : (fsetB b f v s).ix = s.ix := (rfl)
@[simp] theorem fsetB_dram (b : Nat) (f : Fld) (v : Bool) (s : State) : (fsetB b f v s).dram = s.dram := (rfl)
@[simp] theorem fsetB_wmem (b : Nat) (f : Fld) (v : Bool) (s : State) : (fsetB b f v s).wmem = s.wmem := (rfl)
@[simp] theorem fsetB_ports (b : Nat) (f : Fld) (v : Bool) (s : State) : (fsetB b f v s).ports = s.ports := (rfl)
@[simp] theorem fsetB_streams (b : Nat) (f : Fld) (v : Bool) (s : State) : (fsetB b f v s).streams = s.streams := (rfl)
@[simp] theorem fsetB_rings (b : Nat) (f : Fld) (v : Bool) (s : State) : (fsetB b f v s).rings = s.rings := (rfl)
@[simp] theorem fsetB_mans (b : Nat) (f : Fld) (v : Bool) (s : State) : (fsetB b f v s).mans = s.mans := (rfl)
@[simp] theorem fsetB_accts (b : Nat) (f : Fld) (v : Bool) (s : State) : (fsetB b f v s).accts = s.accts := (rfl)
@[simp] theorem fsetB_arbs (b : Nat) (f : Fld) (v : Bool) (s : State) : (fsetB b f v s).arbs = s.arbs := (rfl)
@[simp] theorem fsetB_order (b : Nat) (f : Fld) (v : Bool) (s : State) : (fsetB b f v s).order = s.order := (rfl)
@[simp] theorem fsetB_ofsOld (b : Nat) (f : Fld) (v : Bool) (s : State) : (fsetB b f v s).ofsOld = s.ofsOld := (rfl)
@[simp] theorem fsetB_toll (b : Nat) (f : Fld) (v : Bool) (s : State) : (fsetB b f v s).toll = s.toll := (rfl)
@[simp] theorem fsetB_way (b : Nat) (f : Fld) (v : Bool) (s : State) : (fsetB b f v s).way = s.way := (rfl)
@[simp] theorem fsetB_wayOps (b : Nat) (f : Fld) (v : Bool) (s : State) : (fsetB b f v s).wayOps = s.wayOps := (rfl)
@[simp] theorem fsetB_walks (b : Nat) (f : Fld) (v : Bool) (s : State) : (fsetB b f v s).walks = s.walks := (rfl)
@[simp] theorem fsetB_caravans (b : Nat) (f : Fld) (v : Bool) (s : State) : (fsetB b f v s).caravans = s.caravans := (rfl)
@[simp] theorem fsetB_wreads (b : Nat) (f : Fld) (v : Bool) (s : State) : (fsetB b f v s).wreads = s.wreads := (rfl)
@[simp] theorem fsetB_que (b : Nat) (f : Fld) (v : Bool) (s : State) : (fsetB b f v s).que = s.que := (rfl)
@[simp] theorem fsetB_chans (b : Nat) (f : Fld) (v : Bool) (s : State) : (fsetB b f v s).chans = s.chans := (rfl)
@[simp] theorem fsetB_phys (b : Nat) (f : Fld) (v : Bool) (s : State) : (fsetB b f v s).phys = s.phys := (rfl)
@[simp] theorem fsetB_led (b : Nat) (f : Fld) (v : Bool) (s : State) : (fsetB b f v s).led = s.led := (rfl)
@[simp] theorem fsetB_bist (b : Nat) (f : Fld) (v : Bool) (s : State) : (fsetB b f v s).bist = s.bist := (rfl)
@[simp] theorem fsetB_pwr (b : Nat) (f : Fld) (v : Bool) (s : State) : (fsetB b f v s).pwr = s.pwr := (rfl)
@[simp] theorem fsetB_con (b : Nat) (f : Fld) (v : Bool) (s : State) : (fsetB b f v s).con = s.con := (rfl)
@[simp] theorem fsetB_prof (b : Nat) (f : Fld) (v : Bool) (s : State) : (fsetB b f v s).prof = s.prof := (rfl)
@[simp] theorem fsetB_perEnd (b : Nat) (f : Fld) (v : Bool) (s : State) : (fsetB b f v s).perEnd = s.perEnd := (rfl)
@[simp] theorem fsetB_tollEnd (b : Nat) (f : Fld) (v : Bool) (s : State) : (fsetB b f v s).tollEnd = s.tollEnd := (rfl)
@[simp] theorem fsetB_horizon (b : Nat) (f : Fld) (v : Bool) (s : State) : (fsetB b f v s).horizon = s.horizon := (rfl)
@[simp] theorem fsetB_probe (b : Nat) (f : Fld) (v : Bool) (s : State) : (fsetB b f v s).probe = s.probe := (rfl)
@[simp] theorem fsetB_guard (b : Nat) (f : Fld) (v : Bool) (s : State) : (fsetB b f v s).guard = s.guard := (rfl)
@[simp] theorem fsetB_latches (b : Nat) (f : Fld) (v : Bool) (s : State) : (fsetB b f v s).latches = s.latches := (rfl)
@[simp] theorem fsetB_shadow (b : Nat) (f : Fld) (v : Bool) (s : State) : (fsetB b f v s).shadow = s.shadow := (rfl)
@[simp] theorem fsetB_hold (b : Nat) (f : Fld) (v : Bool) (s : State) : (fsetB b f v s).hold = s.hold := (rfl)

/-! ### irq -/

@[simp] theorem irq_pending (f : Fld) (s : State) : (irq f s).pending = s.pending := (rfl)
@[simp] theorem irq_d8 (f : Fld) (s : State) : (irq f s).d8 = s.d8 := (rfl)
@[simp] theorem irq_free (f : Fld) (s : State) : (irq f s).free = s.free := (rfl)
@[simp] theorem irq_ix (f : Fld) (s : State) : (irq f s).ix = s.ix := (rfl)
@[simp] theorem irq_dram (f : Fld) (s : State) : (irq f s).dram = s.dram := (rfl)
@[simp] theorem irq_wmem (f : Fld) (s : State) : (irq f s).wmem = s.wmem := (rfl)
@[simp] theorem irq_ports (f : Fld) (s : State) : (irq f s).ports = s.ports := (rfl)
@[simp] theorem irq_streams (f : Fld) (s : State) : (irq f s).streams = s.streams := (rfl)
@[simp] theorem irq_rings (f : Fld) (s : State) : (irq f s).rings = s.rings := (rfl)
@[simp] theorem irq_mans (f : Fld) (s : State) : (irq f s).mans = s.mans := (rfl)
@[simp] theorem irq_accts (f : Fld) (s : State) : (irq f s).accts = s.accts := (rfl)
@[simp] theorem irq_arbs (f : Fld) (s : State) : (irq f s).arbs = s.arbs := (rfl)
@[simp] theorem irq_order (f : Fld) (s : State) : (irq f s).order = s.order := (rfl)
@[simp] theorem irq_ofsOld (f : Fld) (s : State) : (irq f s).ofsOld = s.ofsOld := (rfl)
@[simp] theorem irq_toll (f : Fld) (s : State) : (irq f s).toll = s.toll := (rfl)
@[simp] theorem irq_way (f : Fld) (s : State) : (irq f s).way = s.way := (rfl)
@[simp] theorem irq_wayOps (f : Fld) (s : State) : (irq f s).wayOps = s.wayOps := (rfl)
@[simp] theorem irq_walks (f : Fld) (s : State) : (irq f s).walks = s.walks := (rfl)
@[simp] theorem irq_caravans (f : Fld) (s : State) : (irq f s).caravans = s.caravans := (rfl)
@[simp] theorem irq_wreads (f : Fld) (s : State) : (irq f s).wreads = s.wreads := (rfl)
@[simp] theorem irq_que (f : Fld) (s : State) : (irq f s).que = s.que := (rfl)
@[simp] theorem irq_chans (f : Fld) (s : State) : (irq f s).chans = s.chans := (rfl)
@[simp] theorem irq_phys (f : Fld) (s : State) : (irq f s).phys = s.phys := (rfl)
@[simp] theorem irq_led (f : Fld) (s : State) : (irq f s).led = s.led := (rfl)
@[simp] theorem irq_bist (f : Fld) (s : State) : (irq f s).bist = s.bist := (rfl)
@[simp] theorem irq_pwr (f : Fld) (s : State) : (irq f s).pwr = s.pwr := (rfl)
@[simp] theorem irq_con (f : Fld) (s : State) : (irq f s).con = s.con := (rfl)
@[simp] theorem irq_prof (f : Fld) (s : State) : (irq f s).prof = s.prof := (rfl)
@[simp] theorem irq_perEnd (f : Fld) (s : State) : (irq f s).perEnd = s.perEnd := (rfl)
@[simp] theorem irq_tollEnd (f : Fld) (s : State) : (irq f s).tollEnd = s.tollEnd := (rfl)
@[simp] theorem irq_horizon (f : Fld) (s : State) : (irq f s).horizon = s.horizon := (rfl)
@[simp] theorem irq_probe (f : Fld) (s : State) : (irq f s).probe = s.probe := (rfl)
@[simp] theorem irq_guard (f : Fld) (s : State) : (irq f s).guard = s.guard := (rfl)
@[simp] theorem irq_latches (f : Fld) (s : State) : (irq f s).latches = s.latches := (rfl)
@[simp] theorem irq_shadow (f : Fld) (s : State) : (irq f s).shadow = s.shadow := (rfl)
@[simp] theorem irq_hold (f : Fld) (s : State) : (irq f s).hold = s.hold := (rfl)

/-! ### ixSet -/

@[simp] theorem ixSet_pending (b i : Nat) (w : Word) (s : State) : (ixSet b i w s).pending = s.pending := (rfl)
@[simp] theorem ixSet_d8 (b i : Nat) (w : Word) (s : State) : (ixSet b i w s).d8 = s.d8 := (rfl)
@[simp] theorem ixSet_free (b i : Nat) (w : Word) (s : State) : (ixSet b i w s).free = s.free := (rfl)
@[simp] theorem ixSet_regs (b i : Nat) (w : Word) (s : State) : (ixSet b i w s).regs = s.regs := (rfl)
@[simp] theorem ixSet_ix (b i : Nat) (w : Word) (s : State) : (ixSet b i w s).ix = tblSet ixReset s.ix (ixKey b i) w := (rfl)
@[simp] theorem ixSet_dram (b i : Nat) (w : Word) (s : State) : (ixSet b i w s).dram = s.dram := (rfl)
@[simp] theorem ixSet_wmem (b i : Nat) (w : Word) (s : State) : (ixSet b i w s).wmem = s.wmem := (rfl)
@[simp] theorem ixSet_ports (b i : Nat) (w : Word) (s : State) : (ixSet b i w s).ports = s.ports := (rfl)
@[simp] theorem ixSet_streams (b i : Nat) (w : Word) (s : State) : (ixSet b i w s).streams = s.streams := (rfl)
@[simp] theorem ixSet_rings (b i : Nat) (w : Word) (s : State) : (ixSet b i w s).rings = s.rings := (rfl)
@[simp] theorem ixSet_mans (b i : Nat) (w : Word) (s : State) : (ixSet b i w s).mans = s.mans := (rfl)
@[simp] theorem ixSet_accts (b i : Nat) (w : Word) (s : State) : (ixSet b i w s).accts = s.accts := (rfl)
@[simp] theorem ixSet_arbs (b i : Nat) (w : Word) (s : State) : (ixSet b i w s).arbs = s.arbs := (rfl)
@[simp] theorem ixSet_order (b i : Nat) (w : Word) (s : State) : (ixSet b i w s).order = s.order := (rfl)
@[simp] theorem ixSet_ofsOld (b i : Nat) (w : Word) (s : State) : (ixSet b i w s).ofsOld = s.ofsOld := (rfl)
@[simp] theorem ixSet_toll (b i : Nat) (w : Word) (s : State) : (ixSet b i w s).toll = s.toll := (rfl)
@[simp] theorem ixSet_way (b i : Nat) (w : Word) (s : State) : (ixSet b i w s).way = s.way := (rfl)
@[simp] theorem ixSet_wayOps (b i : Nat) (w : Word) (s : State) : (ixSet b i w s).wayOps = s.wayOps := (rfl)
@[simp] theorem ixSet_walks (b i : Nat) (w : Word) (s : State) : (ixSet b i w s).walks = s.walks := (rfl)
@[simp] theorem ixSet_caravans (b i : Nat) (w : Word) (s : State) : (ixSet b i w s).caravans = s.caravans := (rfl)
@[simp] theorem ixSet_wreads (b i : Nat) (w : Word) (s : State) : (ixSet b i w s).wreads = s.wreads := (rfl)
@[simp] theorem ixSet_que (b i : Nat) (w : Word) (s : State) : (ixSet b i w s).que = s.que := (rfl)
@[simp] theorem ixSet_chans (b i : Nat) (w : Word) (s : State) : (ixSet b i w s).chans = s.chans := (rfl)
@[simp] theorem ixSet_phys (b i : Nat) (w : Word) (s : State) : (ixSet b i w s).phys = s.phys := (rfl)
@[simp] theorem ixSet_led (b i : Nat) (w : Word) (s : State) : (ixSet b i w s).led = s.led := (rfl)
@[simp] theorem ixSet_bist (b i : Nat) (w : Word) (s : State) : (ixSet b i w s).bist = s.bist := (rfl)
@[simp] theorem ixSet_pwr (b i : Nat) (w : Word) (s : State) : (ixSet b i w s).pwr = s.pwr := (rfl)
@[simp] theorem ixSet_con (b i : Nat) (w : Word) (s : State) : (ixSet b i w s).con = s.con := (rfl)
@[simp] theorem ixSet_prof (b i : Nat) (w : Word) (s : State) : (ixSet b i w s).prof = s.prof := (rfl)
@[simp] theorem ixSet_perEnd (b i : Nat) (w : Word) (s : State) : (ixSet b i w s).perEnd = s.perEnd := (rfl)
@[simp] theorem ixSet_tollEnd (b i : Nat) (w : Word) (s : State) : (ixSet b i w s).tollEnd = s.tollEnd := (rfl)
@[simp] theorem ixSet_horizon (b i : Nat) (w : Word) (s : State) : (ixSet b i w s).horizon = s.horizon := (rfl)
@[simp] theorem ixSet_probe (b i : Nat) (w : Word) (s : State) : (ixSet b i w s).probe = s.probe := (rfl)
@[simp] theorem ixSet_guard (b i : Nat) (w : Word) (s : State) : (ixSet b i w s).guard = s.guard := (rfl)
@[simp] theorem ixSet_latches (b i : Nat) (w : Word) (s : State) : (ixSet b i w s).latches = s.latches := (rfl)
@[simp] theorem ixSet_shadow (b i : Nat) (w : Word) (s : State) : (ixSet b i w s).shadow = s.shadow := (rfl)
@[simp] theorem ixSet_hold (b i : Nat) (w : Word) (s : State) : (ixSet b i w s).hold = s.hold := (rfl)

/-! ### ixDrop -/

@[simp] theorem ixDrop_pending (b : Nat) (s : State) : (ixDrop b s).pending = s.pending := (rfl)
@[simp] theorem ixDrop_d8 (b : Nat) (s : State) : (ixDrop b s).d8 = s.d8 := (rfl)
@[simp] theorem ixDrop_free (b : Nat) (s : State) : (ixDrop b s).free = s.free := (rfl)
@[simp] theorem ixDrop_regs (b : Nat) (s : State) : (ixDrop b s).regs = s.regs := (rfl)
@[simp] theorem ixDrop_dram (b : Nat) (s : State) : (ixDrop b s).dram = s.dram := (rfl)
@[simp] theorem ixDrop_wmem (b : Nat) (s : State) : (ixDrop b s).wmem = s.wmem := (rfl)
@[simp] theorem ixDrop_ports (b : Nat) (s : State) : (ixDrop b s).ports = s.ports := (rfl)
@[simp] theorem ixDrop_streams (b : Nat) (s : State) : (ixDrop b s).streams = s.streams := (rfl)
@[simp] theorem ixDrop_rings (b : Nat) (s : State) : (ixDrop b s).rings = s.rings := (rfl)
@[simp] theorem ixDrop_mans (b : Nat) (s : State) : (ixDrop b s).mans = s.mans := (rfl)
@[simp] theorem ixDrop_accts (b : Nat) (s : State) : (ixDrop b s).accts = s.accts := (rfl)
@[simp] theorem ixDrop_arbs (b : Nat) (s : State) : (ixDrop b s).arbs = s.arbs := (rfl)
@[simp] theorem ixDrop_order (b : Nat) (s : State) : (ixDrop b s).order = s.order := (rfl)
@[simp] theorem ixDrop_ofsOld (b : Nat) (s : State) : (ixDrop b s).ofsOld = s.ofsOld := (rfl)
@[simp] theorem ixDrop_toll (b : Nat) (s : State) : (ixDrop b s).toll = s.toll := (rfl)
@[simp] theorem ixDrop_way (b : Nat) (s : State) : (ixDrop b s).way = s.way := (rfl)
@[simp] theorem ixDrop_wayOps (b : Nat) (s : State) : (ixDrop b s).wayOps = s.wayOps := (rfl)
@[simp] theorem ixDrop_walks (b : Nat) (s : State) : (ixDrop b s).walks = s.walks := (rfl)
@[simp] theorem ixDrop_caravans (b : Nat) (s : State) : (ixDrop b s).caravans = s.caravans := (rfl)
@[simp] theorem ixDrop_wreads (b : Nat) (s : State) : (ixDrop b s).wreads = s.wreads := (rfl)
@[simp] theorem ixDrop_que (b : Nat) (s : State) : (ixDrop b s).que = s.que := (rfl)
@[simp] theorem ixDrop_chans (b : Nat) (s : State) : (ixDrop b s).chans = s.chans := (rfl)
@[simp] theorem ixDrop_phys (b : Nat) (s : State) : (ixDrop b s).phys = s.phys := (rfl)
@[simp] theorem ixDrop_led (b : Nat) (s : State) : (ixDrop b s).led = s.led := (rfl)
@[simp] theorem ixDrop_bist (b : Nat) (s : State) : (ixDrop b s).bist = s.bist := (rfl)
@[simp] theorem ixDrop_pwr (b : Nat) (s : State) : (ixDrop b s).pwr = s.pwr := (rfl)
@[simp] theorem ixDrop_con (b : Nat) (s : State) : (ixDrop b s).con = s.con := (rfl)
@[simp] theorem ixDrop_prof (b : Nat) (s : State) : (ixDrop b s).prof = s.prof := (rfl)
@[simp] theorem ixDrop_perEnd (b : Nat) (s : State) : (ixDrop b s).perEnd = s.perEnd := (rfl)
@[simp] theorem ixDrop_tollEnd (b : Nat) (s : State) : (ixDrop b s).tollEnd = s.tollEnd := (rfl)
@[simp] theorem ixDrop_horizon (b : Nat) (s : State) : (ixDrop b s).horizon = s.horizon := (rfl)
@[simp] theorem ixDrop_probe (b : Nat) (s : State) : (ixDrop b s).probe = s.probe := (rfl)
@[simp] theorem ixDrop_guard (b : Nat) (s : State) : (ixDrop b s).guard = s.guard := (rfl)
@[simp] theorem ixDrop_latches (b : Nat) (s : State) : (ixDrop b s).latches = s.latches := (rfl)
@[simp] theorem ixDrop_shadow (b : Nat) (s : State) : (ixDrop b s).shadow = s.shadow := (rfl)
@[simp] theorem ixDrop_hold (b : Nat) (s : State) : (ixDrop b s).hold = s.hold := (rfl)

/-! ### updPort -/

@[simp] theorem updPort_pending (p : Fin 4) (f : PortState → PortState) (s : State) : (updPort p f s).pending = s.pending := (rfl)
@[simp] theorem updPort_d8 (p : Fin 4) (f : PortState → PortState) (s : State) : (updPort p f s).d8 = s.d8 := (rfl)
@[simp] theorem updPort_free (p : Fin 4) (f : PortState → PortState) (s : State) : (updPort p f s).free = s.free := (rfl)
@[simp] theorem updPort_regs (p : Fin 4) (f : PortState → PortState) (s : State) : (updPort p f s).regs = s.regs := (rfl)
@[simp] theorem updPort_ix (p : Fin 4) (f : PortState → PortState) (s : State) : (updPort p f s).ix = s.ix := (rfl)
@[simp] theorem updPort_dram (p : Fin 4) (f : PortState → PortState) (s : State) : (updPort p f s).dram = s.dram := (rfl)
@[simp] theorem updPort_wmem (p : Fin 4) (f : PortState → PortState) (s : State) : (updPort p f s).wmem = s.wmem := (rfl)
@[simp] theorem updPort_ports (p : Fin 4) (f : PortState → PortState) (s : State) : (updPort p f s).ports = s.ports.set p (f s.ports[p]) := (rfl)
@[simp] theorem updPort_streams (p : Fin 4) (f : PortState → PortState) (s : State) : (updPort p f s).streams = s.streams := (rfl)
@[simp] theorem updPort_rings (p : Fin 4) (f : PortState → PortState) (s : State) : (updPort p f s).rings = s.rings := (rfl)
@[simp] theorem updPort_mans (p : Fin 4) (f : PortState → PortState) (s : State) : (updPort p f s).mans = s.mans := (rfl)
@[simp] theorem updPort_accts (p : Fin 4) (f : PortState → PortState) (s : State) : (updPort p f s).accts = s.accts := (rfl)
@[simp] theorem updPort_arbs (p : Fin 4) (f : PortState → PortState) (s : State) : (updPort p f s).arbs = s.arbs := (rfl)
@[simp] theorem updPort_order (p : Fin 4) (f : PortState → PortState) (s : State) : (updPort p f s).order = s.order := (rfl)
@[simp] theorem updPort_ofsOld (p : Fin 4) (f : PortState → PortState) (s : State) : (updPort p f s).ofsOld = s.ofsOld := (rfl)
@[simp] theorem updPort_toll (p : Fin 4) (f : PortState → PortState) (s : State) : (updPort p f s).toll = s.toll := (rfl)
@[simp] theorem updPort_way (p : Fin 4) (f : PortState → PortState) (s : State) : (updPort p f s).way = s.way := (rfl)
@[simp] theorem updPort_wayOps (p : Fin 4) (f : PortState → PortState) (s : State) : (updPort p f s).wayOps = s.wayOps := (rfl)
@[simp] theorem updPort_walks (p : Fin 4) (f : PortState → PortState) (s : State) : (updPort p f s).walks = s.walks := (rfl)
@[simp] theorem updPort_caravans (p : Fin 4) (f : PortState → PortState) (s : State) : (updPort p f s).caravans = s.caravans := (rfl)
@[simp] theorem updPort_wreads (p : Fin 4) (f : PortState → PortState) (s : State) : (updPort p f s).wreads = s.wreads := (rfl)
@[simp] theorem updPort_que (p : Fin 4) (f : PortState → PortState) (s : State) : (updPort p f s).que = s.que := (rfl)
@[simp] theorem updPort_chans (p : Fin 4) (f : PortState → PortState) (s : State) : (updPort p f s).chans = s.chans := (rfl)
@[simp] theorem updPort_phys (p : Fin 4) (f : PortState → PortState) (s : State) : (updPort p f s).phys = s.phys := (rfl)
@[simp] theorem updPort_led (p : Fin 4) (f : PortState → PortState) (s : State) : (updPort p f s).led = s.led := (rfl)
@[simp] theorem updPort_bist (p : Fin 4) (f : PortState → PortState) (s : State) : (updPort p f s).bist = s.bist := (rfl)
@[simp] theorem updPort_pwr (p : Fin 4) (f : PortState → PortState) (s : State) : (updPort p f s).pwr = s.pwr := (rfl)
@[simp] theorem updPort_con (p : Fin 4) (f : PortState → PortState) (s : State) : (updPort p f s).con = s.con := (rfl)
@[simp] theorem updPort_prof (p : Fin 4) (f : PortState → PortState) (s : State) : (updPort p f s).prof = s.prof := (rfl)
@[simp] theorem updPort_perEnd (p : Fin 4) (f : PortState → PortState) (s : State) : (updPort p f s).perEnd = s.perEnd := (rfl)
@[simp] theorem updPort_tollEnd (p : Fin 4) (f : PortState → PortState) (s : State) : (updPort p f s).tollEnd = s.tollEnd := (rfl)
@[simp] theorem updPort_horizon (p : Fin 4) (f : PortState → PortState) (s : State) : (updPort p f s).horizon = s.horizon := (rfl)
@[simp] theorem updPort_probe (p : Fin 4) (f : PortState → PortState) (s : State) : (updPort p f s).probe = s.probe := (rfl)
@[simp] theorem updPort_guard (p : Fin 4) (f : PortState → PortState) (s : State) : (updPort p f s).guard = s.guard := (rfl)
@[simp] theorem updPort_latches (p : Fin 4) (f : PortState → PortState) (s : State) : (updPort p f s).latches = s.latches := (rfl)
@[simp] theorem updPort_shadow (p : Fin 4) (f : PortState → PortState) (s : State) : (updPort p f s).shadow = s.shadow := (rfl)
@[simp] theorem updPort_hold (p : Fin 4) (f : PortState → PortState) (s : State) : (updPort p f s).hold = s.hold := (rfl)

/-! ### updChan -/

@[simp] theorem updChan_pending (c : Fin 16) (f : ChanState → ChanState) (s : State) : (updChan c f s).pending = s.pending := (rfl)
@[simp] theorem updChan_d8 (c : Fin 16) (f : ChanState → ChanState) (s : State) : (updChan c f s).d8 = s.d8 := (rfl)
@[simp] theorem updChan_free (c : Fin 16) (f : ChanState → ChanState) (s : State) : (updChan c f s).free = s.free := (rfl)
@[simp] theorem updChan_regs (c : Fin 16) (f : ChanState → ChanState) (s : State) : (updChan c f s).regs = s.regs := (rfl)
@[simp] theorem updChan_ix (c : Fin 16) (f : ChanState → ChanState) (s : State) : (updChan c f s).ix = s.ix := (rfl)
@[simp] theorem updChan_dram (c : Fin 16) (f : ChanState → ChanState) (s : State) : (updChan c f s).dram = s.dram := (rfl)
@[simp] theorem updChan_wmem (c : Fin 16) (f : ChanState → ChanState) (s : State) : (updChan c f s).wmem = s.wmem := (rfl)
@[simp] theorem updChan_ports (c : Fin 16) (f : ChanState → ChanState) (s : State) : (updChan c f s).ports = s.ports := (rfl)
@[simp] theorem updChan_streams (c : Fin 16) (f : ChanState → ChanState) (s : State) : (updChan c f s).streams = s.streams := (rfl)
@[simp] theorem updChan_rings (c : Fin 16) (f : ChanState → ChanState) (s : State) : (updChan c f s).rings = s.rings := (rfl)
@[simp] theorem updChan_mans (c : Fin 16) (f : ChanState → ChanState) (s : State) : (updChan c f s).mans = s.mans := (rfl)
@[simp] theorem updChan_accts (c : Fin 16) (f : ChanState → ChanState) (s : State) : (updChan c f s).accts = s.accts := (rfl)
@[simp] theorem updChan_arbs (c : Fin 16) (f : ChanState → ChanState) (s : State) : (updChan c f s).arbs = s.arbs := (rfl)
@[simp] theorem updChan_order (c : Fin 16) (f : ChanState → ChanState) (s : State) : (updChan c f s).order = s.order := (rfl)
@[simp] theorem updChan_ofsOld (c : Fin 16) (f : ChanState → ChanState) (s : State) : (updChan c f s).ofsOld = s.ofsOld := (rfl)
@[simp] theorem updChan_toll (c : Fin 16) (f : ChanState → ChanState) (s : State) : (updChan c f s).toll = s.toll := (rfl)
@[simp] theorem updChan_way (c : Fin 16) (f : ChanState → ChanState) (s : State) : (updChan c f s).way = s.way := (rfl)
@[simp] theorem updChan_wayOps (c : Fin 16) (f : ChanState → ChanState) (s : State) : (updChan c f s).wayOps = s.wayOps := (rfl)
@[simp] theorem updChan_walks (c : Fin 16) (f : ChanState → ChanState) (s : State) : (updChan c f s).walks = s.walks := (rfl)
@[simp] theorem updChan_caravans (c : Fin 16) (f : ChanState → ChanState) (s : State) : (updChan c f s).caravans = s.caravans := (rfl)
@[simp] theorem updChan_wreads (c : Fin 16) (f : ChanState → ChanState) (s : State) : (updChan c f s).wreads = s.wreads := (rfl)
@[simp] theorem updChan_que (c : Fin 16) (f : ChanState → ChanState) (s : State) : (updChan c f s).que = s.que := (rfl)
@[simp] theorem updChan_chans (c : Fin 16) (f : ChanState → ChanState) (s : State) : (updChan c f s).chans = s.chans.set c (f s.chans[c]) := (rfl)
@[simp] theorem updChan_phys (c : Fin 16) (f : ChanState → ChanState) (s : State) : (updChan c f s).phys = s.phys := (rfl)
@[simp] theorem updChan_led (c : Fin 16) (f : ChanState → ChanState) (s : State) : (updChan c f s).led = s.led := (rfl)
@[simp] theorem updChan_bist (c : Fin 16) (f : ChanState → ChanState) (s : State) : (updChan c f s).bist = s.bist := (rfl)
@[simp] theorem updChan_pwr (c : Fin 16) (f : ChanState → ChanState) (s : State) : (updChan c f s).pwr = s.pwr := (rfl)
@[simp] theorem updChan_con (c : Fin 16) (f : ChanState → ChanState) (s : State) : (updChan c f s).con = s.con := (rfl)
@[simp] theorem updChan_prof (c : Fin 16) (f : ChanState → ChanState) (s : State) : (updChan c f s).prof = s.prof := (rfl)
@[simp] theorem updChan_perEnd (c : Fin 16) (f : ChanState → ChanState) (s : State) : (updChan c f s).perEnd = s.perEnd := (rfl)
@[simp] theorem updChan_tollEnd (c : Fin 16) (f : ChanState → ChanState) (s : State) : (updChan c f s).tollEnd = s.tollEnd := (rfl)
@[simp] theorem updChan_horizon (c : Fin 16) (f : ChanState → ChanState) (s : State) : (updChan c f s).horizon = s.horizon := (rfl)
@[simp] theorem updChan_probe (c : Fin 16) (f : ChanState → ChanState) (s : State) : (updChan c f s).probe = s.probe := (rfl)
@[simp] theorem updChan_guard (c : Fin 16) (f : ChanState → ChanState) (s : State) : (updChan c f s).guard = s.guard := (rfl)
@[simp] theorem updChan_latches (c : Fin 16) (f : ChanState → ChanState) (s : State) : (updChan c f s).latches = s.latches := (rfl)
@[simp] theorem updChan_shadow (c : Fin 16) (f : ChanState → ChanState) (s : State) : (updChan c f s).shadow = s.shadow := (rfl)
@[simp] theorem updChan_hold (c : Fin 16) (f : ChanState → ChanState) (s : State) : (updChan c f s).hold = s.hold := (rfl)

/-! ### updPhy -/

@[simp] theorem updPhy_pending (c : Fin 16) (f : PhyState → PhyState) (s : State) : (updPhy c f s).pending = s.pending := (rfl)
@[simp] theorem updPhy_d8 (c : Fin 16) (f : PhyState → PhyState) (s : State) : (updPhy c f s).d8 = s.d8 := (rfl)
@[simp] theorem updPhy_free (c : Fin 16) (f : PhyState → PhyState) (s : State) : (updPhy c f s).free = s.free := (rfl)
@[simp] theorem updPhy_regs (c : Fin 16) (f : PhyState → PhyState) (s : State) : (updPhy c f s).regs = s.regs := (rfl)
@[simp] theorem updPhy_ix (c : Fin 16) (f : PhyState → PhyState) (s : State) : (updPhy c f s).ix = s.ix := (rfl)
@[simp] theorem updPhy_dram (c : Fin 16) (f : PhyState → PhyState) (s : State) : (updPhy c f s).dram = s.dram := (rfl)
@[simp] theorem updPhy_wmem (c : Fin 16) (f : PhyState → PhyState) (s : State) : (updPhy c f s).wmem = s.wmem := (rfl)
@[simp] theorem updPhy_ports (c : Fin 16) (f : PhyState → PhyState) (s : State) : (updPhy c f s).ports = s.ports := (rfl)
@[simp] theorem updPhy_streams (c : Fin 16) (f : PhyState → PhyState) (s : State) : (updPhy c f s).streams = s.streams := (rfl)
@[simp] theorem updPhy_rings (c : Fin 16) (f : PhyState → PhyState) (s : State) : (updPhy c f s).rings = s.rings := (rfl)
@[simp] theorem updPhy_mans (c : Fin 16) (f : PhyState → PhyState) (s : State) : (updPhy c f s).mans = s.mans := (rfl)
@[simp] theorem updPhy_accts (c : Fin 16) (f : PhyState → PhyState) (s : State) : (updPhy c f s).accts = s.accts := (rfl)
@[simp] theorem updPhy_arbs (c : Fin 16) (f : PhyState → PhyState) (s : State) : (updPhy c f s).arbs = s.arbs := (rfl)
@[simp] theorem updPhy_order (c : Fin 16) (f : PhyState → PhyState) (s : State) : (updPhy c f s).order = s.order := (rfl)
@[simp] theorem updPhy_ofsOld (c : Fin 16) (f : PhyState → PhyState) (s : State) : (updPhy c f s).ofsOld = s.ofsOld := (rfl)
@[simp] theorem updPhy_toll (c : Fin 16) (f : PhyState → PhyState) (s : State) : (updPhy c f s).toll = s.toll := (rfl)
@[simp] theorem updPhy_way (c : Fin 16) (f : PhyState → PhyState) (s : State) : (updPhy c f s).way = s.way := (rfl)
@[simp] theorem updPhy_wayOps (c : Fin 16) (f : PhyState → PhyState) (s : State) : (updPhy c f s).wayOps = s.wayOps := (rfl)
@[simp] theorem updPhy_walks (c : Fin 16) (f : PhyState → PhyState) (s : State) : (updPhy c f s).walks = s.walks := (rfl)
@[simp] theorem updPhy_caravans (c : Fin 16) (f : PhyState → PhyState) (s : State) : (updPhy c f s).caravans = s.caravans := (rfl)
@[simp] theorem updPhy_wreads (c : Fin 16) (f : PhyState → PhyState) (s : State) : (updPhy c f s).wreads = s.wreads := (rfl)
@[simp] theorem updPhy_que (c : Fin 16) (f : PhyState → PhyState) (s : State) : (updPhy c f s).que = s.que := (rfl)
@[simp] theorem updPhy_chans (c : Fin 16) (f : PhyState → PhyState) (s : State) : (updPhy c f s).chans = s.chans := (rfl)
@[simp] theorem updPhy_phys (c : Fin 16) (f : PhyState → PhyState) (s : State) : (updPhy c f s).phys = s.phys.set c (f s.phys[c]) := (rfl)
@[simp] theorem updPhy_led (c : Fin 16) (f : PhyState → PhyState) (s : State) : (updPhy c f s).led = s.led := (rfl)
@[simp] theorem updPhy_bist (c : Fin 16) (f : PhyState → PhyState) (s : State) : (updPhy c f s).bist = s.bist := (rfl)
@[simp] theorem updPhy_pwr (c : Fin 16) (f : PhyState → PhyState) (s : State) : (updPhy c f s).pwr = s.pwr := (rfl)
@[simp] theorem updPhy_con (c : Fin 16) (f : PhyState → PhyState) (s : State) : (updPhy c f s).con = s.con := (rfl)
@[simp] theorem updPhy_prof (c : Fin 16) (f : PhyState → PhyState) (s : State) : (updPhy c f s).prof = s.prof := (rfl)
@[simp] theorem updPhy_perEnd (c : Fin 16) (f : PhyState → PhyState) (s : State) : (updPhy c f s).perEnd = s.perEnd := (rfl)
@[simp] theorem updPhy_tollEnd (c : Fin 16) (f : PhyState → PhyState) (s : State) : (updPhy c f s).tollEnd = s.tollEnd := (rfl)
@[simp] theorem updPhy_horizon (c : Fin 16) (f : PhyState → PhyState) (s : State) : (updPhy c f s).horizon = s.horizon := (rfl)
@[simp] theorem updPhy_probe (c : Fin 16) (f : PhyState → PhyState) (s : State) : (updPhy c f s).probe = s.probe := (rfl)
@[simp] theorem updPhy_guard (c : Fin 16) (f : PhyState → PhyState) (s : State) : (updPhy c f s).guard = s.guard := (rfl)
@[simp] theorem updPhy_latches (c : Fin 16) (f : PhyState → PhyState) (s : State) : (updPhy c f s).latches = s.latches := (rfl)
@[simp] theorem updPhy_shadow (c : Fin 16) (f : PhyState → PhyState) (s : State) : (updPhy c f s).shadow = s.shadow := (rfl)
@[simp] theorem updPhy_hold (c : Fin 16) (f : PhyState → PhyState) (s : State) : (updPhy c f s).hold = s.hold := (rfl)

/-! ### updArb -/

@[simp] theorem updArb_pending (a : Fin 17) (f : ArbState → ArbState) (s : State) : (updArb a f s).pending = s.pending := (rfl)
@[simp] theorem updArb_d8 (a : Fin 17) (f : ArbState → ArbState) (s : State) : (updArb a f s).d8 = s.d8 := (rfl)
@[simp] theorem updArb_free (a : Fin 17) (f : ArbState → ArbState) (s : State) : (updArb a f s).free = s.free := (rfl)
@[simp] theorem updArb_regs (a : Fin 17) (f : ArbState → ArbState) (s : State) : (updArb a f s).regs = s.regs := (rfl)
@[simp] theorem updArb_ix (a : Fin 17) (f : ArbState → ArbState) (s : State) : (updArb a f s).ix = s.ix := (rfl)
@[simp] theorem updArb_dram (a : Fin 17) (f : ArbState → ArbState) (s : State) : (updArb a f s).dram = s.dram := (rfl)
@[simp] theorem updArb_wmem (a : Fin 17) (f : ArbState → ArbState) (s : State) : (updArb a f s).wmem = s.wmem := (rfl)
@[simp] theorem updArb_ports (a : Fin 17) (f : ArbState → ArbState) (s : State) : (updArb a f s).ports = s.ports := (rfl)
@[simp] theorem updArb_streams (a : Fin 17) (f : ArbState → ArbState) (s : State) : (updArb a f s).streams = s.streams := (rfl)
@[simp] theorem updArb_rings (a : Fin 17) (f : ArbState → ArbState) (s : State) : (updArb a f s).rings = s.rings := (rfl)
@[simp] theorem updArb_mans (a : Fin 17) (f : ArbState → ArbState) (s : State) : (updArb a f s).mans = s.mans := (rfl)
@[simp] theorem updArb_accts (a : Fin 17) (f : ArbState → ArbState) (s : State) : (updArb a f s).accts = s.accts := (rfl)
@[simp] theorem updArb_arbs (a : Fin 17) (f : ArbState → ArbState) (s : State) : (updArb a f s).arbs = s.arbs.set a (f s.arbs[a]) := (rfl)
@[simp] theorem updArb_order (a : Fin 17) (f : ArbState → ArbState) (s : State) : (updArb a f s).order = s.order := (rfl)
@[simp] theorem updArb_ofsOld (a : Fin 17) (f : ArbState → ArbState) (s : State) : (updArb a f s).ofsOld = s.ofsOld := (rfl)
@[simp] theorem updArb_toll (a : Fin 17) (f : ArbState → ArbState) (s : State) : (updArb a f s).toll = s.toll := (rfl)
@[simp] theorem updArb_way (a : Fin 17) (f : ArbState → ArbState) (s : State) : (updArb a f s).way = s.way := (rfl)
@[simp] theorem updArb_wayOps (a : Fin 17) (f : ArbState → ArbState) (s : State) : (updArb a f s).wayOps = s.wayOps := (rfl)
@[simp] theorem updArb_walks (a : Fin 17) (f : ArbState → ArbState) (s : State) : (updArb a f s).walks = s.walks := (rfl)
@[simp] theorem updArb_caravans (a : Fin 17) (f : ArbState → ArbState) (s : State) : (updArb a f s).caravans = s.caravans := (rfl)
@[simp] theorem updArb_wreads (a : Fin 17) (f : ArbState → ArbState) (s : State) : (updArb a f s).wreads = s.wreads := (rfl)
@[simp] theorem updArb_que (a : Fin 17) (f : ArbState → ArbState) (s : State) : (updArb a f s).que = s.que := (rfl)
@[simp] theorem updArb_chans (a : Fin 17) (f : ArbState → ArbState) (s : State) : (updArb a f s).chans = s.chans := (rfl)
@[simp] theorem updArb_phys (a : Fin 17) (f : ArbState → ArbState) (s : State) : (updArb a f s).phys = s.phys := (rfl)
@[simp] theorem updArb_led (a : Fin 17) (f : ArbState → ArbState) (s : State) : (updArb a f s).led = s.led := (rfl)
@[simp] theorem updArb_bist (a : Fin 17) (f : ArbState → ArbState) (s : State) : (updArb a f s).bist = s.bist := (rfl)
@[simp] theorem updArb_pwr (a : Fin 17) (f : ArbState → ArbState) (s : State) : (updArb a f s).pwr = s.pwr := (rfl)
@[simp] theorem updArb_con (a : Fin 17) (f : ArbState → ArbState) (s : State) : (updArb a f s).con = s.con := (rfl)
@[simp] theorem updArb_prof (a : Fin 17) (f : ArbState → ArbState) (s : State) : (updArb a f s).prof = s.prof := (rfl)
@[simp] theorem updArb_perEnd (a : Fin 17) (f : ArbState → ArbState) (s : State) : (updArb a f s).perEnd = s.perEnd := (rfl)
@[simp] theorem updArb_tollEnd (a : Fin 17) (f : ArbState → ArbState) (s : State) : (updArb a f s).tollEnd = s.tollEnd := (rfl)
@[simp] theorem updArb_horizon (a : Fin 17) (f : ArbState → ArbState) (s : State) : (updArb a f s).horizon = s.horizon := (rfl)
@[simp] theorem updArb_probe (a : Fin 17) (f : ArbState → ArbState) (s : State) : (updArb a f s).probe = s.probe := (rfl)
@[simp] theorem updArb_guard (a : Fin 17) (f : ArbState → ArbState) (s : State) : (updArb a f s).guard = s.guard := (rfl)
@[simp] theorem updArb_latches (a : Fin 17) (f : ArbState → ArbState) (s : State) : (updArb a f s).latches = s.latches := (rfl)
@[simp] theorem updArb_shadow (a : Fin 17) (f : ArbState → ArbState) (s : State) : (updArb a f s).shadow = s.shadow := (rfl)
@[simp] theorem updArb_hold (a : Fin 17) (f : ArbState → ArbState) (s : State) : (updArb a f s).hold = s.hold := (rfl)

/-! ### updRing -/

@[simp] theorem updRing_pending (c : Fin 16) (f : Ring → Ring) (s : State) : (updRing c f s).pending = s.pending := (rfl)
@[simp] theorem updRing_d8 (c : Fin 16) (f : Ring → Ring) (s : State) : (updRing c f s).d8 = s.d8 := (rfl)
@[simp] theorem updRing_free (c : Fin 16) (f : Ring → Ring) (s : State) : (updRing c f s).free = s.free := (rfl)
@[simp] theorem updRing_regs (c : Fin 16) (f : Ring → Ring) (s : State) : (updRing c f s).regs = s.regs := (rfl)
@[simp] theorem updRing_ix (c : Fin 16) (f : Ring → Ring) (s : State) : (updRing c f s).ix = s.ix := (rfl)
@[simp] theorem updRing_dram (c : Fin 16) (f : Ring → Ring) (s : State) : (updRing c f s).dram = s.dram := (rfl)
@[simp] theorem updRing_wmem (c : Fin 16) (f : Ring → Ring) (s : State) : (updRing c f s).wmem = s.wmem := (rfl)
@[simp] theorem updRing_ports (c : Fin 16) (f : Ring → Ring) (s : State) : (updRing c f s).ports = s.ports := (rfl)
@[simp] theorem updRing_streams (c : Fin 16) (f : Ring → Ring) (s : State) : (updRing c f s).streams = s.streams := (rfl)
@[simp] theorem updRing_rings (c : Fin 16) (f : Ring → Ring) (s : State) : (updRing c f s).rings = s.rings.set c (f s.rings[c]) := (rfl)
@[simp] theorem updRing_mans (c : Fin 16) (f : Ring → Ring) (s : State) : (updRing c f s).mans = s.mans := (rfl)
@[simp] theorem updRing_accts (c : Fin 16) (f : Ring → Ring) (s : State) : (updRing c f s).accts = s.accts := (rfl)
@[simp] theorem updRing_arbs (c : Fin 16) (f : Ring → Ring) (s : State) : (updRing c f s).arbs = s.arbs := (rfl)
@[simp] theorem updRing_order (c : Fin 16) (f : Ring → Ring) (s : State) : (updRing c f s).order = s.order := (rfl)
@[simp] theorem updRing_ofsOld (c : Fin 16) (f : Ring → Ring) (s : State) : (updRing c f s).ofsOld = s.ofsOld := (rfl)
@[simp] theorem updRing_toll (c : Fin 16) (f : Ring → Ring) (s : State) : (updRing c f s).toll = s.toll := (rfl)
@[simp] theorem updRing_way (c : Fin 16) (f : Ring → Ring) (s : State) : (updRing c f s).way = s.way := (rfl)
@[simp] theorem updRing_wayOps (c : Fin 16) (f : Ring → Ring) (s : State) : (updRing c f s).wayOps = s.wayOps := (rfl)
@[simp] theorem updRing_walks (c : Fin 16) (f : Ring → Ring) (s : State) : (updRing c f s).walks = s.walks := (rfl)
@[simp] theorem updRing_caravans (c : Fin 16) (f : Ring → Ring) (s : State) : (updRing c f s).caravans = s.caravans := (rfl)
@[simp] theorem updRing_wreads (c : Fin 16) (f : Ring → Ring) (s : State) : (updRing c f s).wreads = s.wreads := (rfl)
@[simp] theorem updRing_que (c : Fin 16) (f : Ring → Ring) (s : State) : (updRing c f s).que = s.que := (rfl)
@[simp] theorem updRing_chans (c : Fin 16) (f : Ring → Ring) (s : State) : (updRing c f s).chans = s.chans := (rfl)
@[simp] theorem updRing_phys (c : Fin 16) (f : Ring → Ring) (s : State) : (updRing c f s).phys = s.phys := (rfl)
@[simp] theorem updRing_led (c : Fin 16) (f : Ring → Ring) (s : State) : (updRing c f s).led = s.led := (rfl)
@[simp] theorem updRing_bist (c : Fin 16) (f : Ring → Ring) (s : State) : (updRing c f s).bist = s.bist := (rfl)
@[simp] theorem updRing_pwr (c : Fin 16) (f : Ring → Ring) (s : State) : (updRing c f s).pwr = s.pwr := (rfl)
@[simp] theorem updRing_con (c : Fin 16) (f : Ring → Ring) (s : State) : (updRing c f s).con = s.con := (rfl)
@[simp] theorem updRing_prof (c : Fin 16) (f : Ring → Ring) (s : State) : (updRing c f s).prof = s.prof := (rfl)
@[simp] theorem updRing_perEnd (c : Fin 16) (f : Ring → Ring) (s : State) : (updRing c f s).perEnd = s.perEnd := (rfl)
@[simp] theorem updRing_tollEnd (c : Fin 16) (f : Ring → Ring) (s : State) : (updRing c f s).tollEnd = s.tollEnd := (rfl)
@[simp] theorem updRing_horizon (c : Fin 16) (f : Ring → Ring) (s : State) : (updRing c f s).horizon = s.horizon := (rfl)
@[simp] theorem updRing_probe (c : Fin 16) (f : Ring → Ring) (s : State) : (updRing c f s).probe = s.probe := (rfl)
@[simp] theorem updRing_guard (c : Fin 16) (f : Ring → Ring) (s : State) : (updRing c f s).guard = s.guard := (rfl)
@[simp] theorem updRing_latches (c : Fin 16) (f : Ring → Ring) (s : State) : (updRing c f s).latches = s.latches := (rfl)
@[simp] theorem updRing_shadow (c : Fin 16) (f : Ring → Ring) (s : State) : (updRing c f s).shadow = s.shadow := (rfl)
@[simp] theorem updRing_hold (c : Fin 16) (f : Ring → Ring) (s : State) : (updRing c f s).hold = s.hold := (rfl)

/-! ### setStrm -/

@[simp] theorem setStrm_pending (p : Fin 4) (t : BitVec 12) (r : StreamRec) (s : State) : (setStrm p t r s).pending = s.pending := (rfl)
@[simp] theorem setStrm_d8 (p : Fin 4) (t : BitVec 12) (r : StreamRec) (s : State) : (setStrm p t r s).d8 = s.d8 := (rfl)
@[simp] theorem setStrm_free (p : Fin 4) (t : BitVec 12) (r : StreamRec) (s : State) : (setStrm p t r s).free = s.free := (rfl)
@[simp] theorem setStrm_regs (p : Fin 4) (t : BitVec 12) (r : StreamRec) (s : State) : (setStrm p t r s).regs = s.regs := (rfl)
@[simp] theorem setStrm_ix (p : Fin 4) (t : BitVec 12) (r : StreamRec) (s : State) : (setStrm p t r s).ix = s.ix := (rfl)
@[simp] theorem setStrm_dram (p : Fin 4) (t : BitVec 12) (r : StreamRec) (s : State) : (setStrm p t r s).dram = s.dram := (rfl)
@[simp] theorem setStrm_wmem (p : Fin 4) (t : BitVec 12) (r : StreamRec) (s : State) : (setStrm p t r s).wmem = s.wmem := (rfl)
@[simp] theorem setStrm_ports (p : Fin 4) (t : BitVec 12) (r : StreamRec) (s : State) : (setStrm p t r s).ports = s.ports := (rfl)
@[simp] theorem setStrm_rings (p : Fin 4) (t : BitVec 12) (r : StreamRec) (s : State) : (setStrm p t r s).rings = s.rings := (rfl)
@[simp] theorem setStrm_mans (p : Fin 4) (t : BitVec 12) (r : StreamRec) (s : State) : (setStrm p t r s).mans = s.mans := (rfl)
@[simp] theorem setStrm_accts (p : Fin 4) (t : BitVec 12) (r : StreamRec) (s : State) : (setStrm p t r s).accts = s.accts := (rfl)
@[simp] theorem setStrm_arbs (p : Fin 4) (t : BitVec 12) (r : StreamRec) (s : State) : (setStrm p t r s).arbs = s.arbs := (rfl)
@[simp] theorem setStrm_order (p : Fin 4) (t : BitVec 12) (r : StreamRec) (s : State) : (setStrm p t r s).order = s.order := (rfl)
@[simp] theorem setStrm_ofsOld (p : Fin 4) (t : BitVec 12) (r : StreamRec) (s : State) : (setStrm p t r s).ofsOld = s.ofsOld := (rfl)
@[simp] theorem setStrm_toll (p : Fin 4) (t : BitVec 12) (r : StreamRec) (s : State) : (setStrm p t r s).toll = s.toll := (rfl)
@[simp] theorem setStrm_way (p : Fin 4) (t : BitVec 12) (r : StreamRec) (s : State) : (setStrm p t r s).way = s.way := (rfl)
@[simp] theorem setStrm_wayOps (p : Fin 4) (t : BitVec 12) (r : StreamRec) (s : State) : (setStrm p t r s).wayOps = s.wayOps := (rfl)
@[simp] theorem setStrm_walks (p : Fin 4) (t : BitVec 12) (r : StreamRec) (s : State) : (setStrm p t r s).walks = s.walks := (rfl)
@[simp] theorem setStrm_caravans (p : Fin 4) (t : BitVec 12) (r : StreamRec) (s : State) : (setStrm p t r s).caravans = s.caravans := (rfl)
@[simp] theorem setStrm_wreads (p : Fin 4) (t : BitVec 12) (r : StreamRec) (s : State) : (setStrm p t r s).wreads = s.wreads := (rfl)
@[simp] theorem setStrm_que (p : Fin 4) (t : BitVec 12) (r : StreamRec) (s : State) : (setStrm p t r s).que = s.que := (rfl)
@[simp] theorem setStrm_chans (p : Fin 4) (t : BitVec 12) (r : StreamRec) (s : State) : (setStrm p t r s).chans = s.chans := (rfl)
@[simp] theorem setStrm_phys (p : Fin 4) (t : BitVec 12) (r : StreamRec) (s : State) : (setStrm p t r s).phys = s.phys := (rfl)
@[simp] theorem setStrm_led (p : Fin 4) (t : BitVec 12) (r : StreamRec) (s : State) : (setStrm p t r s).led = s.led := (rfl)
@[simp] theorem setStrm_bist (p : Fin 4) (t : BitVec 12) (r : StreamRec) (s : State) : (setStrm p t r s).bist = s.bist := (rfl)
@[simp] theorem setStrm_pwr (p : Fin 4) (t : BitVec 12) (r : StreamRec) (s : State) : (setStrm p t r s).pwr = s.pwr := (rfl)
@[simp] theorem setStrm_con (p : Fin 4) (t : BitVec 12) (r : StreamRec) (s : State) : (setStrm p t r s).con = s.con := (rfl)
@[simp] theorem setStrm_prof (p : Fin 4) (t : BitVec 12) (r : StreamRec) (s : State) : (setStrm p t r s).prof = s.prof := (rfl)
@[simp] theorem setStrm_perEnd (p : Fin 4) (t : BitVec 12) (r : StreamRec) (s : State) : (setStrm p t r s).perEnd = s.perEnd := (rfl)
@[simp] theorem setStrm_tollEnd (p : Fin 4) (t : BitVec 12) (r : StreamRec) (s : State) : (setStrm p t r s).tollEnd = s.tollEnd := (rfl)
@[simp] theorem setStrm_horizon (p : Fin 4) (t : BitVec 12) (r : StreamRec) (s : State) : (setStrm p t r s).horizon = s.horizon := (rfl)
@[simp] theorem setStrm_probe (p : Fin 4) (t : BitVec 12) (r : StreamRec) (s : State) : (setStrm p t r s).probe = s.probe := (rfl)
@[simp] theorem setStrm_guard (p : Fin 4) (t : BitVec 12) (r : StreamRec) (s : State) : (setStrm p t r s).guard = s.guard := (rfl)
@[simp] theorem setStrm_latches (p : Fin 4) (t : BitVec 12) (r : StreamRec) (s : State) : (setStrm p t r s).latches = s.latches := (rfl)
@[simp] theorem setStrm_shadow (p : Fin 4) (t : BitVec 12) (r : StreamRec) (s : State) : (setStrm p t r s).shadow = s.shadow := (rfl)
@[simp] theorem setStrm_hold (p : Fin 4) (t : BitVec 12) (r : StreamRec) (s : State) : (setStrm p t r s).hold = s.hold := (rfl)

/-! ### strmMap -/

@[simp] theorem strmMap_pending (f : Nat → StreamRec → StreamRec) (s : State) : (strmMap f s).pending = s.pending := (rfl)
@[simp] theorem strmMap_d8 (f : Nat → StreamRec → StreamRec) (s : State) : (strmMap f s).d8 = s.d8 := (rfl)
@[simp] theorem strmMap_free (f : Nat → StreamRec → StreamRec) (s : State) : (strmMap f s).free = s.free := (rfl)
@[simp] theorem strmMap_regs (f : Nat → StreamRec → StreamRec) (s : State) : (strmMap f s).regs = s.regs := (rfl)
@[simp] theorem strmMap_ix (f : Nat → StreamRec → StreamRec) (s : State) : (strmMap f s).ix = s.ix := (rfl)
@[simp] theorem strmMap_dram (f : Nat → StreamRec → StreamRec) (s : State) : (strmMap f s).dram = s.dram := (rfl)
@[simp] theorem strmMap_wmem (f : Nat → StreamRec → StreamRec) (s : State) : (strmMap f s).wmem = s.wmem := (rfl)
@[simp] theorem strmMap_ports (f : Nat → StreamRec → StreamRec) (s : State) : (strmMap f s).ports = s.ports := (rfl)
@[simp] theorem strmMap_rings (f : Nat → StreamRec → StreamRec) (s : State) : (strmMap f s).rings = s.rings := (rfl)
@[simp] theorem strmMap_mans (f : Nat → StreamRec → StreamRec) (s : State) : (strmMap f s).mans = s.mans := (rfl)
@[simp] theorem strmMap_accts (f : Nat → StreamRec → StreamRec) (s : State) : (strmMap f s).accts = s.accts := (rfl)
@[simp] theorem strmMap_arbs (f : Nat → StreamRec → StreamRec) (s : State) : (strmMap f s).arbs = s.arbs := (rfl)
@[simp] theorem strmMap_order (f : Nat → StreamRec → StreamRec) (s : State) : (strmMap f s).order = s.order := (rfl)
@[simp] theorem strmMap_ofsOld (f : Nat → StreamRec → StreamRec) (s : State) : (strmMap f s).ofsOld = s.ofsOld := (rfl)
@[simp] theorem strmMap_toll (f : Nat → StreamRec → StreamRec) (s : State) : (strmMap f s).toll = s.toll := (rfl)
@[simp] theorem strmMap_way (f : Nat → StreamRec → StreamRec) (s : State) : (strmMap f s).way = s.way := (rfl)
@[simp] theorem strmMap_wayOps (f : Nat → StreamRec → StreamRec) (s : State) : (strmMap f s).wayOps = s.wayOps := (rfl)
@[simp] theorem strmMap_walks (f : Nat → StreamRec → StreamRec) (s : State) : (strmMap f s).walks = s.walks := (rfl)
@[simp] theorem strmMap_caravans (f : Nat → StreamRec → StreamRec) (s : State) : (strmMap f s).caravans = s.caravans := (rfl)
@[simp] theorem strmMap_wreads (f : Nat → StreamRec → StreamRec) (s : State) : (strmMap f s).wreads = s.wreads := (rfl)
@[simp] theorem strmMap_que (f : Nat → StreamRec → StreamRec) (s : State) : (strmMap f s).que = s.que := (rfl)
@[simp] theorem strmMap_chans (f : Nat → StreamRec → StreamRec) (s : State) : (strmMap f s).chans = s.chans := (rfl)
@[simp] theorem strmMap_phys (f : Nat → StreamRec → StreamRec) (s : State) : (strmMap f s).phys = s.phys := (rfl)
@[simp] theorem strmMap_led (f : Nat → StreamRec → StreamRec) (s : State) : (strmMap f s).led = s.led := (rfl)
@[simp] theorem strmMap_bist (f : Nat → StreamRec → StreamRec) (s : State) : (strmMap f s).bist = s.bist := (rfl)
@[simp] theorem strmMap_pwr (f : Nat → StreamRec → StreamRec) (s : State) : (strmMap f s).pwr = s.pwr := (rfl)
@[simp] theorem strmMap_con (f : Nat → StreamRec → StreamRec) (s : State) : (strmMap f s).con = s.con := (rfl)
@[simp] theorem strmMap_prof (f : Nat → StreamRec → StreamRec) (s : State) : (strmMap f s).prof = s.prof := (rfl)
@[simp] theorem strmMap_perEnd (f : Nat → StreamRec → StreamRec) (s : State) : (strmMap f s).perEnd = s.perEnd := (rfl)
@[simp] theorem strmMap_tollEnd (f : Nat → StreamRec → StreamRec) (s : State) : (strmMap f s).tollEnd = s.tollEnd := (rfl)
@[simp] theorem strmMap_horizon (f : Nat → StreamRec → StreamRec) (s : State) : (strmMap f s).horizon = s.horizon := (rfl)
@[simp] theorem strmMap_probe (f : Nat → StreamRec → StreamRec) (s : State) : (strmMap f s).probe = s.probe := (rfl)
@[simp] theorem strmMap_guard (f : Nat → StreamRec → StreamRec) (s : State) : (strmMap f s).guard = s.guard := (rfl)
@[simp] theorem strmMap_latches (f : Nat → StreamRec → StreamRec) (s : State) : (strmMap f s).latches = s.latches := (rfl)
@[simp] theorem strmMap_shadow (f : Nat → StreamRec → StreamRec) (s : State) : (strmMap f s).shadow = s.shadow := (rfl)
@[simp] theorem strmMap_hold (f : Nat → StreamRec → StreamRec) (s : State) : (strmMap f s).hold = s.hold := (rfl)

/-! ### setMan -/

@[simp] theorem setMan_pending (m : Nat) (x : Manifest) (s : State) : (setMan m x s).pending = s.pending := (rfl)
@[simp] theorem setMan_d8 (m : Nat) (x : Manifest) (s : State) : (setMan m x s).d8 = s.d8 := (rfl)
@[simp] theorem setMan_free (m : Nat) (x : Manifest) (s : State) : (setMan m x s).free = s.free := (rfl)
@[simp] theorem setMan_regs (m : Nat) (x : Manifest) (s : State) : (setMan m x s).regs = s.regs := (rfl)
@[simp] theorem setMan_ix (m : Nat) (x : Manifest) (s : State) : (setMan m x s).ix = s.ix := (rfl)
@[simp] theorem setMan_dram (m : Nat) (x : Manifest) (s : State) : (setMan m x s).dram = s.dram := (rfl)
@[simp] theorem setMan_wmem (m : Nat) (x : Manifest) (s : State) : (setMan m x s).wmem = s.wmem := (rfl)
@[simp] theorem setMan_ports (m : Nat) (x : Manifest) (s : State) : (setMan m x s).ports = s.ports := (rfl)
@[simp] theorem setMan_streams (m : Nat) (x : Manifest) (s : State) : (setMan m x s).streams = s.streams := (rfl)
@[simp] theorem setMan_rings (m : Nat) (x : Manifest) (s : State) : (setMan m x s).rings = s.rings := (rfl)
@[simp] theorem setMan_mans (m : Nat) (x : Manifest) (s : State) : (setMan m x s).mans = tblSet (fun _ => {}) s.mans m x := (rfl)
@[simp] theorem setMan_accts (m : Nat) (x : Manifest) (s : State) : (setMan m x s).accts = s.accts := (rfl)
@[simp] theorem setMan_arbs (m : Nat) (x : Manifest) (s : State) : (setMan m x s).arbs = s.arbs := (rfl)
@[simp] theorem setMan_order (m : Nat) (x : Manifest) (s : State) : (setMan m x s).order = s.order := (rfl)
@[simp] theorem setMan_ofsOld (m : Nat) (x : Manifest) (s : State) : (setMan m x s).ofsOld = s.ofsOld := (rfl)
@[simp] theorem setMan_toll (m : Nat) (x : Manifest) (s : State) : (setMan m x s).toll = s.toll := (rfl)
@[simp] theorem setMan_way (m : Nat) (x : Manifest) (s : State) : (setMan m x s).way = s.way := (rfl)
@[simp] theorem setMan_wayOps (m : Nat) (x : Manifest) (s : State) : (setMan m x s).wayOps = s.wayOps := (rfl)
@[simp] theorem setMan_walks (m : Nat) (x : Manifest) (s : State) : (setMan m x s).walks = s.walks := (rfl)
@[simp] theorem setMan_caravans (m : Nat) (x : Manifest) (s : State) : (setMan m x s).caravans = s.caravans := (rfl)
@[simp] theorem setMan_wreads (m : Nat) (x : Manifest) (s : State) : (setMan m x s).wreads = s.wreads := (rfl)
@[simp] theorem setMan_que (m : Nat) (x : Manifest) (s : State) : (setMan m x s).que = s.que := (rfl)
@[simp] theorem setMan_chans (m : Nat) (x : Manifest) (s : State) : (setMan m x s).chans = s.chans := (rfl)
@[simp] theorem setMan_phys (m : Nat) (x : Manifest) (s : State) : (setMan m x s).phys = s.phys := (rfl)
@[simp] theorem setMan_led (m : Nat) (x : Manifest) (s : State) : (setMan m x s).led = s.led := (rfl)
@[simp] theorem setMan_bist (m : Nat) (x : Manifest) (s : State) : (setMan m x s).bist = s.bist := (rfl)
@[simp] theorem setMan_pwr (m : Nat) (x : Manifest) (s : State) : (setMan m x s).pwr = s.pwr := (rfl)
@[simp] theorem setMan_con (m : Nat) (x : Manifest) (s : State) : (setMan m x s).con = s.con := (rfl)
@[simp] theorem setMan_prof (m : Nat) (x : Manifest) (s : State) : (setMan m x s).prof = s.prof := (rfl)
@[simp] theorem setMan_perEnd (m : Nat) (x : Manifest) (s : State) : (setMan m x s).perEnd = s.perEnd := (rfl)
@[simp] theorem setMan_tollEnd (m : Nat) (x : Manifest) (s : State) : (setMan m x s).tollEnd = s.tollEnd := (rfl)
@[simp] theorem setMan_horizon (m : Nat) (x : Manifest) (s : State) : (setMan m x s).horizon = s.horizon := (rfl)
@[simp] theorem setMan_probe (m : Nat) (x : Manifest) (s : State) : (setMan m x s).probe = s.probe := (rfl)
@[simp] theorem setMan_guard (m : Nat) (x : Manifest) (s : State) : (setMan m x s).guard = s.guard := (rfl)
@[simp] theorem setMan_latches (m : Nat) (x : Manifest) (s : State) : (setMan m x s).latches = s.latches := (rfl)
@[simp] theorem setMan_shadow (m : Nat) (x : Manifest) (s : State) : (setMan m x s).shadow = s.shadow := (rfl)
@[simp] theorem setMan_hold (m : Nat) (x : Manifest) (s : State) : (setMan m x s).hold = s.hold := (rfl)

/-! ### setAcct -/

@[simp] theorem setAcct_pending (m c : Nat) (x : Account) (s : State) : (setAcct m c x s).pending = s.pending := (rfl)
@[simp] theorem setAcct_d8 (m c : Nat) (x : Account) (s : State) : (setAcct m c x s).d8 = s.d8 := (rfl)
@[simp] theorem setAcct_free (m c : Nat) (x : Account) (s : State) : (setAcct m c x s).free = s.free := (rfl)
@[simp] theorem setAcct_regs (m c : Nat) (x : Account) (s : State) : (setAcct m c x s).regs = s.regs := (rfl)
@[simp] theorem setAcct_ix (m c : Nat) (x : Account) (s : State) : (setAcct m c x s).ix = s.ix := (rfl)
@[simp] theorem setAcct_dram (m c : Nat) (x : Account) (s : State) : (setAcct m c x s).dram = s.dram := (rfl)
@[simp] theorem setAcct_wmem (m c : Nat) (x : Account) (s : State) : (setAcct m c x s).wmem = s.wmem := (rfl)
@[simp] theorem setAcct_ports (m c : Nat) (x : Account) (s : State) : (setAcct m c x s).ports = s.ports := (rfl)
@[simp] theorem setAcct_streams (m c : Nat) (x : Account) (s : State) : (setAcct m c x s).streams = s.streams := (rfl)
@[simp] theorem setAcct_rings (m c : Nat) (x : Account) (s : State) : (setAcct m c x s).rings = s.rings := (rfl)
@[simp] theorem setAcct_mans (m c : Nat) (x : Account) (s : State) : (setAcct m c x s).mans = s.mans := (rfl)
@[simp] theorem setAcct_arbs (m c : Nat) (x : Account) (s : State) : (setAcct m c x s).arbs = s.arbs := (rfl)
@[simp] theorem setAcct_order (m c : Nat) (x : Account) (s : State) : (setAcct m c x s).order = s.order := (rfl)
@[simp] theorem setAcct_ofsOld (m c : Nat) (x : Account) (s : State) : (setAcct m c x s).ofsOld = s.ofsOld := (rfl)
@[simp] theorem setAcct_toll (m c : Nat) (x : Account) (s : State) : (setAcct m c x s).toll = s.toll := (rfl)
@[simp] theorem setAcct_way (m c : Nat) (x : Account) (s : State) : (setAcct m c x s).way = s.way := (rfl)
@[simp] theorem setAcct_wayOps (m c : Nat) (x : Account) (s : State) : (setAcct m c x s).wayOps = s.wayOps := (rfl)
@[simp] theorem setAcct_walks (m c : Nat) (x : Account) (s : State) : (setAcct m c x s).walks = s.walks := (rfl)
@[simp] theorem setAcct_caravans (m c : Nat) (x : Account) (s : State) : (setAcct m c x s).caravans = s.caravans := (rfl)
@[simp] theorem setAcct_wreads (m c : Nat) (x : Account) (s : State) : (setAcct m c x s).wreads = s.wreads := (rfl)
@[simp] theorem setAcct_que (m c : Nat) (x : Account) (s : State) : (setAcct m c x s).que = s.que := (rfl)
@[simp] theorem setAcct_chans (m c : Nat) (x : Account) (s : State) : (setAcct m c x s).chans = s.chans := (rfl)
@[simp] theorem setAcct_phys (m c : Nat) (x : Account) (s : State) : (setAcct m c x s).phys = s.phys := (rfl)
@[simp] theorem setAcct_led (m c : Nat) (x : Account) (s : State) : (setAcct m c x s).led = s.led := (rfl)
@[simp] theorem setAcct_bist (m c : Nat) (x : Account) (s : State) : (setAcct m c x s).bist = s.bist := (rfl)
@[simp] theorem setAcct_pwr (m c : Nat) (x : Account) (s : State) : (setAcct m c x s).pwr = s.pwr := (rfl)
@[simp] theorem setAcct_con (m c : Nat) (x : Account) (s : State) : (setAcct m c x s).con = s.con := (rfl)
@[simp] theorem setAcct_prof (m c : Nat) (x : Account) (s : State) : (setAcct m c x s).prof = s.prof := (rfl)
@[simp] theorem setAcct_perEnd (m c : Nat) (x : Account) (s : State) : (setAcct m c x s).perEnd = s.perEnd := (rfl)
@[simp] theorem setAcct_tollEnd (m c : Nat) (x : Account) (s : State) : (setAcct m c x s).tollEnd = s.tollEnd := (rfl)
@[simp] theorem setAcct_horizon (m c : Nat) (x : Account) (s : State) : (setAcct m c x s).horizon = s.horizon := (rfl)
@[simp] theorem setAcct_probe (m c : Nat) (x : Account) (s : State) : (setAcct m c x s).probe = s.probe := (rfl)
@[simp] theorem setAcct_guard (m c : Nat) (x : Account) (s : State) : (setAcct m c x s).guard = s.guard := (rfl)
@[simp] theorem setAcct_latches (m c : Nat) (x : Account) (s : State) : (setAcct m c x s).latches = s.latches := (rfl)
@[simp] theorem setAcct_shadow (m c : Nat) (x : Account) (s : State) : (setAcct m c x s).shadow = s.shadow := (rfl)
@[simp] theorem setAcct_hold (m c : Nat) (x : Account) (s : State) : (setAcct m c x s).hold = s.hold := (rfl)

/-! ### acctsZero -/

@[simp] theorem acctsZero_pending (k : Nat → Bool) (s : State) : (acctsZero k s).pending = s.pending := (rfl)
@[simp] theorem acctsZero_d8 (k : Nat → Bool) (s : State) : (acctsZero k s).d8 = s.d8 := (rfl)
@[simp] theorem acctsZero_free (k : Nat → Bool) (s : State) : (acctsZero k s).free = s.free := (rfl)
@[simp] theorem acctsZero_regs (k : Nat → Bool) (s : State) : (acctsZero k s).regs = s.regs := (rfl)
@[simp] theorem acctsZero_ix (k : Nat → Bool) (s : State) : (acctsZero k s).ix = s.ix := (rfl)
@[simp] theorem acctsZero_dram (k : Nat → Bool) (s : State) : (acctsZero k s).dram = s.dram := (rfl)
@[simp] theorem acctsZero_wmem (k : Nat → Bool) (s : State) : (acctsZero k s).wmem = s.wmem := (rfl)
@[simp] theorem acctsZero_ports (k : Nat → Bool) (s : State) : (acctsZero k s).ports = s.ports := (rfl)
@[simp] theorem acctsZero_streams (k : Nat → Bool) (s : State) : (acctsZero k s).streams = s.streams := (rfl)
@[simp] theorem acctsZero_rings (k : Nat → Bool) (s : State) : (acctsZero k s).rings = s.rings := (rfl)
@[simp] theorem acctsZero_mans (k : Nat → Bool) (s : State) : (acctsZero k s).mans = s.mans := (rfl)
@[simp] theorem acctsZero_arbs (k : Nat → Bool) (s : State) : (acctsZero k s).arbs = s.arbs := (rfl)
@[simp] theorem acctsZero_order (k : Nat → Bool) (s : State) : (acctsZero k s).order = s.order := (rfl)
@[simp] theorem acctsZero_ofsOld (k : Nat → Bool) (s : State) : (acctsZero k s).ofsOld = s.ofsOld := (rfl)
@[simp] theorem acctsZero_toll (k : Nat → Bool) (s : State) : (acctsZero k s).toll = s.toll := (rfl)
@[simp] theorem acctsZero_way (k : Nat → Bool) (s : State) : (acctsZero k s).way = s.way := (rfl)
@[simp] theorem acctsZero_wayOps (k : Nat → Bool) (s : State) : (acctsZero k s).wayOps = s.wayOps := (rfl)
@[simp] theorem acctsZero_walks (k : Nat → Bool) (s : State) : (acctsZero k s).walks = s.walks := (rfl)
@[simp] theorem acctsZero_caravans (k : Nat → Bool) (s : State) : (acctsZero k s).caravans = s.caravans := (rfl)
@[simp] theorem acctsZero_wreads (k : Nat → Bool) (s : State) : (acctsZero k s).wreads = s.wreads := (rfl)
@[simp] theorem acctsZero_que (k : Nat → Bool) (s : State) : (acctsZero k s).que = s.que := (rfl)
@[simp] theorem acctsZero_chans (k : Nat → Bool) (s : State) : (acctsZero k s).chans = s.chans := (rfl)
@[simp] theorem acctsZero_phys (k : Nat → Bool) (s : State) : (acctsZero k s).phys = s.phys := (rfl)
@[simp] theorem acctsZero_led (k : Nat → Bool) (s : State) : (acctsZero k s).led = s.led := (rfl)
@[simp] theorem acctsZero_bist (k : Nat → Bool) (s : State) : (acctsZero k s).bist = s.bist := (rfl)
@[simp] theorem acctsZero_pwr (k : Nat → Bool) (s : State) : (acctsZero k s).pwr = s.pwr := (rfl)
@[simp] theorem acctsZero_con (k : Nat → Bool) (s : State) : (acctsZero k s).con = s.con := (rfl)
@[simp] theorem acctsZero_prof (k : Nat → Bool) (s : State) : (acctsZero k s).prof = s.prof := (rfl)
@[simp] theorem acctsZero_perEnd (k : Nat → Bool) (s : State) : (acctsZero k s).perEnd = s.perEnd := (rfl)
@[simp] theorem acctsZero_tollEnd (k : Nat → Bool) (s : State) : (acctsZero k s).tollEnd = s.tollEnd := (rfl)
@[simp] theorem acctsZero_horizon (k : Nat → Bool) (s : State) : (acctsZero k s).horizon = s.horizon := (rfl)
@[simp] theorem acctsZero_probe (k : Nat → Bool) (s : State) : (acctsZero k s).probe = s.probe := (rfl)
@[simp] theorem acctsZero_guard (k : Nat → Bool) (s : State) : (acctsZero k s).guard = s.guard := (rfl)
@[simp] theorem acctsZero_latches (k : Nat → Bool) (s : State) : (acctsZero k s).latches = s.latches := (rfl)
@[simp] theorem acctsZero_shadow (k : Nat → Bool) (s : State) : (acctsZero k s).shadow = s.shadow := (rfl)
@[simp] theorem acctsZero_hold (k : Nat → Bool) (s : State) : (acctsZero k s).hold = s.hold := (rfl)

/-! ### chargePj -/

@[simp] theorem chargePj_pending (n : Nat) (m : Option (BitVec 8)) (s : State) : (chargePj n m s).pending = s.pending := (rfl)
@[simp] theorem chargePj_d8 (n : Nat) (m : Option (BitVec 8)) (s : State) : (chargePj n m s).d8 = s.d8 := (rfl)
@[simp] theorem chargePj_free (n : Nat) (m : Option (BitVec 8)) (s : State) : (chargePj n m s).free = s.free := (rfl)
@[simp] theorem chargePj_regs (n : Nat) (m : Option (BitVec 8)) (s : State) : (chargePj n m s).regs = s.regs := (rfl)
@[simp] theorem chargePj_ix (n : Nat) (m : Option (BitVec 8)) (s : State) : (chargePj n m s).ix = s.ix := (rfl)
@[simp] theorem chargePj_dram (n : Nat) (m : Option (BitVec 8)) (s : State) : (chargePj n m s).dram = s.dram := (rfl)
@[simp] theorem chargePj_wmem (n : Nat) (m : Option (BitVec 8)) (s : State) : (chargePj n m s).wmem = s.wmem := (rfl)
@[simp] theorem chargePj_ports (n : Nat) (m : Option (BitVec 8)) (s : State) : (chargePj n m s).ports = s.ports := (rfl)
@[simp] theorem chargePj_streams (n : Nat) (m : Option (BitVec 8)) (s : State) : (chargePj n m s).streams = s.streams := (rfl)
@[simp] theorem chargePj_rings (n : Nat) (m : Option (BitVec 8)) (s : State) : (chargePj n m s).rings = s.rings := (rfl)
@[simp] theorem chargePj_mans (n : Nat) (m : Option (BitVec 8)) (s : State) : (chargePj n m s).mans = s.mans := (rfl)
@[simp] theorem chargePj_accts (n : Nat) (m : Option (BitVec 8)) (s : State) : (chargePj n m s).accts = s.accts := (rfl)
@[simp] theorem chargePj_arbs (n : Nat) (m : Option (BitVec 8)) (s : State) : (chargePj n m s).arbs = s.arbs := (rfl)
@[simp] theorem chargePj_order (n : Nat) (m : Option (BitVec 8)) (s : State) : (chargePj n m s).order = s.order := (rfl)
@[simp] theorem chargePj_ofsOld (n : Nat) (m : Option (BitVec 8)) (s : State) : (chargePj n m s).ofsOld = s.ofsOld := (rfl)
@[simp] theorem chargePj_toll (n : Nat) (m : Option (BitVec 8)) (s : State) : (chargePj n m s).toll = s.toll := (rfl)
@[simp] theorem chargePj_way (n : Nat) (m : Option (BitVec 8)) (s : State) : (chargePj n m s).way = s.way := (rfl)
@[simp] theorem chargePj_wayOps (n : Nat) (m : Option (BitVec 8)) (s : State) : (chargePj n m s).wayOps = s.wayOps := (rfl)
@[simp] theorem chargePj_walks (n : Nat) (m : Option (BitVec 8)) (s : State) : (chargePj n m s).walks = s.walks := (rfl)
@[simp] theorem chargePj_caravans (n : Nat) (m : Option (BitVec 8)) (s : State) : (chargePj n m s).caravans = s.caravans := (rfl)
@[simp] theorem chargePj_wreads (n : Nat) (m : Option (BitVec 8)) (s : State) : (chargePj n m s).wreads = s.wreads := (rfl)
@[simp] theorem chargePj_que (n : Nat) (m : Option (BitVec 8)) (s : State) : (chargePj n m s).que = s.que := (rfl)
@[simp] theorem chargePj_chans (n : Nat) (m : Option (BitVec 8)) (s : State) : (chargePj n m s).chans = s.chans := (rfl)
@[simp] theorem chargePj_phys (n : Nat) (m : Option (BitVec 8)) (s : State) : (chargePj n m s).phys = s.phys := (rfl)
@[simp] theorem chargePj_bist (n : Nat) (m : Option (BitVec 8)) (s : State) : (chargePj n m s).bist = s.bist := (rfl)
@[simp] theorem chargePj_pwr (n : Nat) (m : Option (BitVec 8)) (s : State) : (chargePj n m s).pwr = s.pwr := (rfl)
@[simp] theorem chargePj_con (n : Nat) (m : Option (BitVec 8)) (s : State) : (chargePj n m s).con = s.con := (rfl)
@[simp] theorem chargePj_prof (n : Nat) (m : Option (BitVec 8)) (s : State) : (chargePj n m s).prof = s.prof := (rfl)
@[simp] theorem chargePj_perEnd (n : Nat) (m : Option (BitVec 8)) (s : State) : (chargePj n m s).perEnd = s.perEnd := (rfl)
@[simp] theorem chargePj_tollEnd (n : Nat) (m : Option (BitVec 8)) (s : State) : (chargePj n m s).tollEnd = s.tollEnd := (rfl)
@[simp] theorem chargePj_horizon (n : Nat) (m : Option (BitVec 8)) (s : State) : (chargePj n m s).horizon = s.horizon := (rfl)
@[simp] theorem chargePj_probe (n : Nat) (m : Option (BitVec 8)) (s : State) : (chargePj n m s).probe = s.probe := (rfl)
@[simp] theorem chargePj_guard (n : Nat) (m : Option (BitVec 8)) (s : State) : (chargePj n m s).guard = s.guard := (rfl)
@[simp] theorem chargePj_latches (n : Nat) (m : Option (BitVec 8)) (s : State) : (chargePj n m s).latches = s.latches := (rfl)
@[simp] theorem chargePj_shadow (n : Nat) (m : Option (BitVec 8)) (s : State) : (chargePj n m s).shadow = s.shadow := (rfl)
@[simp] theorem chargePj_hold (n : Nat) (m : Option (BitVec 8)) (s : State) : (chargePj n m s).hold = s.hold := (rfl)

/-! ### charge -/

@[simp] theorem charge_pending (i n : Nat) (m : Option (BitVec 8)) (s : State) : (charge i n m s).pending = s.pending := (rfl)
@[simp] theorem charge_d8 (i n : Nat) (m : Option (BitVec 8)) (s : State) : (charge i n m s).d8 = s.d8 := (rfl)
@[simp] theorem charge_free (i n : Nat) (m : Option (BitVec 8)) (s : State) : (charge i n m s).free = s.free := (rfl)
@[simp] theorem charge_regs (i n : Nat) (m : Option (BitVec 8)) (s : State) : (charge i n m s).regs = s.regs := (rfl)
@[simp] theorem charge_ix (i n : Nat) (m : Option (BitVec 8)) (s : State) : (charge i n m s).ix = s.ix := (rfl)
@[simp] theorem charge_dram (i n : Nat) (m : Option (BitVec 8)) (s : State) : (charge i n m s).dram = s.dram := (rfl)
@[simp] theorem charge_wmem (i n : Nat) (m : Option (BitVec 8)) (s : State) : (charge i n m s).wmem = s.wmem := (rfl)
@[simp] theorem charge_ports (i n : Nat) (m : Option (BitVec 8)) (s : State) : (charge i n m s).ports = s.ports := (rfl)
@[simp] theorem charge_streams (i n : Nat) (m : Option (BitVec 8)) (s : State) : (charge i n m s).streams = s.streams := (rfl)
@[simp] theorem charge_rings (i n : Nat) (m : Option (BitVec 8)) (s : State) : (charge i n m s).rings = s.rings := (rfl)
@[simp] theorem charge_mans (i n : Nat) (m : Option (BitVec 8)) (s : State) : (charge i n m s).mans = s.mans := (rfl)
@[simp] theorem charge_accts (i n : Nat) (m : Option (BitVec 8)) (s : State) : (charge i n m s).accts = s.accts := (rfl)
@[simp] theorem charge_arbs (i n : Nat) (m : Option (BitVec 8)) (s : State) : (charge i n m s).arbs = s.arbs := (rfl)
@[simp] theorem charge_order (i n : Nat) (m : Option (BitVec 8)) (s : State) : (charge i n m s).order = s.order := (rfl)
@[simp] theorem charge_ofsOld (i n : Nat) (m : Option (BitVec 8)) (s : State) : (charge i n m s).ofsOld = s.ofsOld := (rfl)
@[simp] theorem charge_toll (i n : Nat) (m : Option (BitVec 8)) (s : State) : (charge i n m s).toll = s.toll := (rfl)
@[simp] theorem charge_way (i n : Nat) (m : Option (BitVec 8)) (s : State) : (charge i n m s).way = s.way := (rfl)
@[simp] theorem charge_wayOps (i n : Nat) (m : Option (BitVec 8)) (s : State) : (charge i n m s).wayOps = s.wayOps := (rfl)
@[simp] theorem charge_walks (i n : Nat) (m : Option (BitVec 8)) (s : State) : (charge i n m s).walks = s.walks := (rfl)
@[simp] theorem charge_caravans (i n : Nat) (m : Option (BitVec 8)) (s : State) : (charge i n m s).caravans = s.caravans := (rfl)
@[simp] theorem charge_wreads (i n : Nat) (m : Option (BitVec 8)) (s : State) : (charge i n m s).wreads = s.wreads := (rfl)
@[simp] theorem charge_que (i n : Nat) (m : Option (BitVec 8)) (s : State) : (charge i n m s).que = s.que := (rfl)
@[simp] theorem charge_chans (i n : Nat) (m : Option (BitVec 8)) (s : State) : (charge i n m s).chans = s.chans := (rfl)
@[simp] theorem charge_phys (i n : Nat) (m : Option (BitVec 8)) (s : State) : (charge i n m s).phys = s.phys := (rfl)
@[simp] theorem charge_bist (i n : Nat) (m : Option (BitVec 8)) (s : State) : (charge i n m s).bist = s.bist := (rfl)
@[simp] theorem charge_pwr (i n : Nat) (m : Option (BitVec 8)) (s : State) : (charge i n m s).pwr = s.pwr := (rfl)
@[simp] theorem charge_con (i n : Nat) (m : Option (BitVec 8)) (s : State) : (charge i n m s).con = s.con := (rfl)
@[simp] theorem charge_prof (i n : Nat) (m : Option (BitVec 8)) (s : State) : (charge i n m s).prof = s.prof := (rfl)
@[simp] theorem charge_perEnd (i n : Nat) (m : Option (BitVec 8)) (s : State) : (charge i n m s).perEnd = s.perEnd := (rfl)
@[simp] theorem charge_tollEnd (i n : Nat) (m : Option (BitVec 8)) (s : State) : (charge i n m s).tollEnd = s.tollEnd := (rfl)
@[simp] theorem charge_horizon (i n : Nat) (m : Option (BitVec 8)) (s : State) : (charge i n m s).horizon = s.horizon := (rfl)
@[simp] theorem charge_probe (i n : Nat) (m : Option (BitVec 8)) (s : State) : (charge i n m s).probe = s.probe := (rfl)
@[simp] theorem charge_guard (i n : Nat) (m : Option (BitVec 8)) (s : State) : (charge i n m s).guard = s.guard := (rfl)
@[simp] theorem charge_latches (i n : Nat) (m : Option (BitVec 8)) (s : State) : (charge i n m s).latches = s.latches := (rfl)
@[simp] theorem charge_shadow (i n : Nat) (m : Option (BitVec 8)) (s : State) : (charge i n m s).shadow = s.shadow := (rfl)
@[simp] theorem charge_hold (i n : Nat) (m : Option (BitVec 8)) (s : State) : (charge i n m s).hold = s.hold := (rfl)

/-! ### advance -/

@[simp] theorem advance_pending (n : Nat) (s : State) : (advance n s).pending = s.pending := (rfl)
@[simp] theorem advance_d8 (n : Nat) (s : State) : (advance n s).d8 = s.d8 + n := (rfl)
@[simp] theorem advance_free (n : Nat) (s : State) : (advance n s).free = s.free := (rfl)
@[simp] theorem advance_regs (n : Nat) (s : State) : (advance n s).regs = s.regs := (rfl)
@[simp] theorem advance_ix (n : Nat) (s : State) : (advance n s).ix = s.ix := (rfl)
@[simp] theorem advance_dram (n : Nat) (s : State) : (advance n s).dram = s.dram := (rfl)
@[simp] theorem advance_wmem (n : Nat) (s : State) : (advance n s).wmem = s.wmem := (rfl)
@[simp] theorem advance_ports (n : Nat) (s : State) : (advance n s).ports = s.ports := (rfl)
@[simp] theorem advance_streams (n : Nat) (s : State) : (advance n s).streams = s.streams := (rfl)
@[simp] theorem advance_rings (n : Nat) (s : State) : (advance n s).rings = s.rings := (rfl)
@[simp] theorem advance_mans (n : Nat) (s : State) : (advance n s).mans = s.mans := (rfl)
@[simp] theorem advance_accts (n : Nat) (s : State) : (advance n s).accts = s.accts := (rfl)
@[simp] theorem advance_arbs (n : Nat) (s : State) : (advance n s).arbs = s.arbs := (rfl)
@[simp] theorem advance_order (n : Nat) (s : State) : (advance n s).order = s.order := (rfl)
@[simp] theorem advance_ofsOld (n : Nat) (s : State) : (advance n s).ofsOld = s.ofsOld := (rfl)
@[simp] theorem advance_toll (n : Nat) (s : State) : (advance n s).toll = s.toll := (rfl)
@[simp] theorem advance_way (n : Nat) (s : State) : (advance n s).way = s.way := (rfl)
@[simp] theorem advance_wayOps (n : Nat) (s : State) : (advance n s).wayOps = s.wayOps := (rfl)
@[simp] theorem advance_walks (n : Nat) (s : State) : (advance n s).walks = s.walks := (rfl)
@[simp] theorem advance_caravans (n : Nat) (s : State) : (advance n s).caravans = s.caravans := (rfl)
@[simp] theorem advance_wreads (n : Nat) (s : State) : (advance n s).wreads = s.wreads := (rfl)
@[simp] theorem advance_que (n : Nat) (s : State) : (advance n s).que = s.que := (rfl)
@[simp] theorem advance_chans (n : Nat) (s : State) : (advance n s).chans = s.chans := (rfl)
@[simp] theorem advance_phys (n : Nat) (s : State) : (advance n s).phys = s.phys := (rfl)
@[simp] theorem advance_bist (n : Nat) (s : State) : (advance n s).bist = s.bist := (rfl)
@[simp] theorem advance_pwr (n : Nat) (s : State) : (advance n s).pwr = s.pwr := (rfl)
@[simp] theorem advance_con (n : Nat) (s : State) : (advance n s).con = s.con := (rfl)
@[simp] theorem advance_prof (n : Nat) (s : State) : (advance n s).prof = s.prof := (rfl)
@[simp] theorem advance_perEnd (n : Nat) (s : State) : (advance n s).perEnd = s.perEnd := (rfl)
@[simp] theorem advance_tollEnd (n : Nat) (s : State) : (advance n s).tollEnd = s.tollEnd := (rfl)
@[simp] theorem advance_horizon (n : Nat) (s : State) : (advance n s).horizon = s.horizon := (rfl)
@[simp] theorem advance_probe (n : Nat) (s : State) : (advance n s).probe = s.probe := (rfl)
@[simp] theorem advance_guard (n : Nat) (s : State) : (advance n s).guard = s.guard := (rfl)
@[simp] theorem advance_latches (n : Nat) (s : State) : (advance n s).latches = s.latches := (rfl)
@[simp] theorem advance_shadow (n : Nat) (s : State) : (advance n s).shadow = s.shadow := (rfl)
@[simp] theorem advance_hold (n : Nat) (s : State) : (advance n s).hold = s.hold := (rfl)

/-! ### setDram -/

@[simp] theorem setDram_pending (c : Fin 16) (lam : Nat) (l : Line) (s : State) : (setDram c lam l s).pending = s.pending := by unfold setDram; with_reducible rfl
@[simp] theorem setDram_d8 (c : Fin 16) (lam : Nat) (l : Line) (s : State) : (setDram c lam l s).d8 = s.d8 := by unfold setDram; with_reducible rfl
@[simp] theorem setDram_free (c : Fin 16) (lam : Nat) (l : Line) (s : State) : (setDram c lam l s).free = s.free := by unfold setDram; with_reducible rfl
@[simp] theorem setDram_regs (c : Fin 16) (lam : Nat) (l : Line) (s : State) : (setDram c lam l s).regs = s.regs := by unfold setDram; with_reducible rfl
@[simp] theorem setDram_ix (c : Fin 16) (lam : Nat) (l : Line) (s : State) : (setDram c lam l s).ix = s.ix := by unfold setDram; with_reducible rfl
@[simp] theorem setDram_wmem (c : Fin 16) (lam : Nat) (l : Line) (s : State) : (setDram c lam l s).wmem = s.wmem := by unfold setDram; with_reducible rfl
@[simp] theorem setDram_ports (c : Fin 16) (lam : Nat) (l : Line) (s : State) : (setDram c lam l s).ports = s.ports := by unfold setDram; with_reducible rfl
@[simp] theorem setDram_streams (c : Fin 16) (lam : Nat) (l : Line) (s : State) : (setDram c lam l s).streams = s.streams := by unfold setDram; with_reducible rfl
@[simp] theorem setDram_rings (c : Fin 16) (lam : Nat) (l : Line) (s : State) : (setDram c lam l s).rings = s.rings := by unfold setDram; with_reducible rfl
@[simp] theorem setDram_mans (c : Fin 16) (lam : Nat) (l : Line) (s : State) : (setDram c lam l s).mans = s.mans := by unfold setDram; with_reducible rfl
@[simp] theorem setDram_accts (c : Fin 16) (lam : Nat) (l : Line) (s : State) : (setDram c lam l s).accts = s.accts := by unfold setDram; with_reducible rfl
@[simp] theorem setDram_arbs (c : Fin 16) (lam : Nat) (l : Line) (s : State) : (setDram c lam l s).arbs = s.arbs := by unfold setDram; with_reducible rfl
@[simp] theorem setDram_order (c : Fin 16) (lam : Nat) (l : Line) (s : State) : (setDram c lam l s).order = s.order := by unfold setDram; with_reducible rfl
@[simp] theorem setDram_ofsOld (c : Fin 16) (lam : Nat) (l : Line) (s : State) : (setDram c lam l s).ofsOld = s.ofsOld := by unfold setDram; with_reducible rfl
@[simp] theorem setDram_toll (c : Fin 16) (lam : Nat) (l : Line) (s : State) : (setDram c lam l s).toll = s.toll := by unfold setDram; with_reducible rfl
@[simp] theorem setDram_way (c : Fin 16) (lam : Nat) (l : Line) (s : State) : (setDram c lam l s).way = s.way := by unfold setDram; with_reducible rfl
@[simp] theorem setDram_wayOps (c : Fin 16) (lam : Nat) (l : Line) (s : State) : (setDram c lam l s).wayOps = s.wayOps := by unfold setDram; with_reducible rfl
@[simp] theorem setDram_walks (c : Fin 16) (lam : Nat) (l : Line) (s : State) : (setDram c lam l s).walks = s.walks := by unfold setDram; with_reducible rfl
@[simp] theorem setDram_caravans (c : Fin 16) (lam : Nat) (l : Line) (s : State) : (setDram c lam l s).caravans = s.caravans := by unfold setDram; with_reducible rfl
@[simp] theorem setDram_wreads (c : Fin 16) (lam : Nat) (l : Line) (s : State) : (setDram c lam l s).wreads = s.wreads := by unfold setDram; with_reducible rfl
@[simp] theorem setDram_que (c : Fin 16) (lam : Nat) (l : Line) (s : State) : (setDram c lam l s).que = s.que := by unfold setDram; with_reducible rfl
@[simp] theorem setDram_chans (c : Fin 16) (lam : Nat) (l : Line) (s : State) : (setDram c lam l s).chans = s.chans := by unfold setDram; with_reducible rfl
@[simp] theorem setDram_phys (c : Fin 16) (lam : Nat) (l : Line) (s : State) : (setDram c lam l s).phys = s.phys := by unfold setDram; with_reducible rfl
@[simp] theorem setDram_led (c : Fin 16) (lam : Nat) (l : Line) (s : State) : (setDram c lam l s).led = s.led := by unfold setDram; with_reducible rfl
@[simp] theorem setDram_bist (c : Fin 16) (lam : Nat) (l : Line) (s : State) : (setDram c lam l s).bist = s.bist := by unfold setDram; with_reducible rfl
@[simp] theorem setDram_pwr (c : Fin 16) (lam : Nat) (l : Line) (s : State) : (setDram c lam l s).pwr = s.pwr := by unfold setDram; with_reducible rfl
@[simp] theorem setDram_con (c : Fin 16) (lam : Nat) (l : Line) (s : State) : (setDram c lam l s).con = s.con := by unfold setDram; with_reducible rfl
@[simp] theorem setDram_prof (c : Fin 16) (lam : Nat) (l : Line) (s : State) : (setDram c lam l s).prof = s.prof := by unfold setDram; with_reducible rfl
@[simp] theorem setDram_perEnd (c : Fin 16) (lam : Nat) (l : Line) (s : State) : (setDram c lam l s).perEnd = s.perEnd := by unfold setDram; with_reducible rfl
@[simp] theorem setDram_tollEnd (c : Fin 16) (lam : Nat) (l : Line) (s : State) : (setDram c lam l s).tollEnd = s.tollEnd := by unfold setDram; with_reducible rfl
@[simp] theorem setDram_horizon (c : Fin 16) (lam : Nat) (l : Line) (s : State) : (setDram c lam l s).horizon = s.horizon := by unfold setDram; with_reducible rfl
@[simp] theorem setDram_probe (c : Fin 16) (lam : Nat) (l : Line) (s : State) : (setDram c lam l s).probe = s.probe := by unfold setDram; with_reducible rfl
@[simp] theorem setDram_guard (c : Fin 16) (lam : Nat) (l : Line) (s : State) : (setDram c lam l s).guard = s.guard := by unfold setDram; with_reducible rfl
@[simp] theorem setDram_latches (c : Fin 16) (lam : Nat) (l : Line) (s : State) : (setDram c lam l s).latches = s.latches := by unfold setDram; with_reducible rfl
@[simp] theorem setDram_shadow (c : Fin 16) (lam : Nat) (l : Line) (s : State) : (setDram c lam l s).shadow = s.shadow := by unfold setDram; with_reducible rfl
@[simp] theorem setDram_hold (c : Fin 16) (lam : Nat) (l : Line) (s : State) : (setDram c lam l s).hold = s.hold := by unfold setDram; with_reducible rfl

/-! ### dramClear -/

@[simp] theorem dramClear_pending (c : Fin 16) (s : State) : (dramClear c s).pending = s.pending := by unfold dramClear; with_reducible rfl
@[simp] theorem dramClear_d8 (c : Fin 16) (s : State) : (dramClear c s).d8 = s.d8 := by unfold dramClear; with_reducible rfl
@[simp] theorem dramClear_free (c : Fin 16) (s : State) : (dramClear c s).free = s.free := by unfold dramClear; with_reducible rfl
@[simp] theorem dramClear_regs (c : Fin 16) (s : State) : (dramClear c s).regs = s.regs := by unfold dramClear; with_reducible rfl
@[simp] theorem dramClear_ix (c : Fin 16) (s : State) : (dramClear c s).ix = s.ix := by unfold dramClear; with_reducible rfl
@[simp] theorem dramClear_wmem (c : Fin 16) (s : State) : (dramClear c s).wmem = s.wmem := by unfold dramClear; with_reducible rfl
@[simp] theorem dramClear_ports (c : Fin 16) (s : State) : (dramClear c s).ports = s.ports := by unfold dramClear; with_reducible rfl
@[simp] theorem dramClear_streams (c : Fin 16) (s : State) : (dramClear c s).streams = s.streams := by unfold dramClear; with_reducible rfl
@[simp] theorem dramClear_rings (c : Fin 16) (s : State) : (dramClear c s).rings = s.rings := by unfold dramClear; with_reducible rfl
@[simp] theorem dramClear_mans (c : Fin 16) (s : State) : (dramClear c s).mans = s.mans := by unfold dramClear; with_reducible rfl
@[simp] theorem dramClear_accts (c : Fin 16) (s : State) : (dramClear c s).accts = s.accts := by unfold dramClear; with_reducible rfl
@[simp] theorem dramClear_arbs (c : Fin 16) (s : State) : (dramClear c s).arbs = s.arbs := by unfold dramClear; with_reducible rfl
@[simp] theorem dramClear_order (c : Fin 16) (s : State) : (dramClear c s).order = s.order := by unfold dramClear; with_reducible rfl
@[simp] theorem dramClear_ofsOld (c : Fin 16) (s : State) : (dramClear c s).ofsOld = s.ofsOld := by unfold dramClear; with_reducible rfl
@[simp] theorem dramClear_toll (c : Fin 16) (s : State) : (dramClear c s).toll = s.toll := by unfold dramClear; with_reducible rfl
@[simp] theorem dramClear_way (c : Fin 16) (s : State) : (dramClear c s).way = s.way := by unfold dramClear; with_reducible rfl
@[simp] theorem dramClear_wayOps (c : Fin 16) (s : State) : (dramClear c s).wayOps = s.wayOps := by unfold dramClear; with_reducible rfl
@[simp] theorem dramClear_walks (c : Fin 16) (s : State) : (dramClear c s).walks = s.walks := by unfold dramClear; with_reducible rfl
@[simp] theorem dramClear_caravans (c : Fin 16) (s : State) : (dramClear c s).caravans = s.caravans := by unfold dramClear; with_reducible rfl
@[simp] theorem dramClear_wreads (c : Fin 16) (s : State) : (dramClear c s).wreads = s.wreads := by unfold dramClear; with_reducible rfl
@[simp] theorem dramClear_que (c : Fin 16) (s : State) : (dramClear c s).que = s.que := by unfold dramClear; with_reducible rfl
@[simp] theorem dramClear_chans (c : Fin 16) (s : State) : (dramClear c s).chans = s.chans := by unfold dramClear; with_reducible rfl
@[simp] theorem dramClear_phys (c : Fin 16) (s : State) : (dramClear c s).phys = s.phys := by unfold dramClear; with_reducible rfl
@[simp] theorem dramClear_led (c : Fin 16) (s : State) : (dramClear c s).led = s.led := by unfold dramClear; with_reducible rfl
@[simp] theorem dramClear_bist (c : Fin 16) (s : State) : (dramClear c s).bist = s.bist := by unfold dramClear; with_reducible rfl
@[simp] theorem dramClear_pwr (c : Fin 16) (s : State) : (dramClear c s).pwr = s.pwr := by unfold dramClear; with_reducible rfl
@[simp] theorem dramClear_con (c : Fin 16) (s : State) : (dramClear c s).con = s.con := by unfold dramClear; with_reducible rfl
@[simp] theorem dramClear_prof (c : Fin 16) (s : State) : (dramClear c s).prof = s.prof := by unfold dramClear; with_reducible rfl
@[simp] theorem dramClear_perEnd (c : Fin 16) (s : State) : (dramClear c s).perEnd = s.perEnd := by unfold dramClear; with_reducible rfl
@[simp] theorem dramClear_tollEnd (c : Fin 16) (s : State) : (dramClear c s).tollEnd = s.tollEnd := by unfold dramClear; with_reducible rfl
@[simp] theorem dramClear_horizon (c : Fin 16) (s : State) : (dramClear c s).horizon = s.horizon := by unfold dramClear; with_reducible rfl
@[simp] theorem dramClear_probe (c : Fin 16) (s : State) : (dramClear c s).probe = s.probe := by unfold dramClear; with_reducible rfl
@[simp] theorem dramClear_guard (c : Fin 16) (s : State) : (dramClear c s).guard = s.guard := by unfold dramClear; with_reducible rfl
@[simp] theorem dramClear_latches (c : Fin 16) (s : State) : (dramClear c s).latches = s.latches := by unfold dramClear; with_reducible rfl
@[simp] theorem dramClear_shadow (c : Fin 16) (s : State) : (dramClear c s).shadow = s.shadow := by unfold dramClear; with_reducible rfl
@[simp] theorem dramClear_hold (c : Fin 16) (s : State) : (dramClear c s).hold = s.hold := by unfold dramClear; with_reducible rfl

/-! ### dramCopy -/

@[simp] theorem dramCopy_pending (q c : Fin 16) (lo hi : Nat) (s : State) : (dramCopy q c lo hi s).pending = s.pending := by unfold dramCopy; with_reducible rfl
@[simp] theorem dramCopy_d8 (q c : Fin 16) (lo hi : Nat) (s : State) : (dramCopy q c lo hi s).d8 = s.d8 := by unfold dramCopy; with_reducible rfl
@[simp] theorem dramCopy_free (q c : Fin 16) (lo hi : Nat) (s : State) : (dramCopy q c lo hi s).free = s.free := by unfold dramCopy; with_reducible rfl
@[simp] theorem dramCopy_regs (q c : Fin 16) (lo hi : Nat) (s : State) : (dramCopy q c lo hi s).regs = s.regs := by unfold dramCopy; with_reducible rfl
@[simp] theorem dramCopy_ix (q c : Fin 16) (lo hi : Nat) (s : State) : (dramCopy q c lo hi s).ix = s.ix := by unfold dramCopy; with_reducible rfl
@[simp] theorem dramCopy_wmem (q c : Fin 16) (lo hi : Nat) (s : State) : (dramCopy q c lo hi s).wmem = s.wmem := by unfold dramCopy; with_reducible rfl
@[simp] theorem dramCopy_ports (q c : Fin 16) (lo hi : Nat) (s : State) : (dramCopy q c lo hi s).ports = s.ports := by unfold dramCopy; with_reducible rfl
@[simp] theorem dramCopy_streams (q c : Fin 16) (lo hi : Nat) (s : State) : (dramCopy q c lo hi s).streams = s.streams := by unfold dramCopy; with_reducible rfl
@[simp] theorem dramCopy_rings (q c : Fin 16) (lo hi : Nat) (s : State) : (dramCopy q c lo hi s).rings = s.rings := by unfold dramCopy; with_reducible rfl
@[simp] theorem dramCopy_mans (q c : Fin 16) (lo hi : Nat) (s : State) : (dramCopy q c lo hi s).mans = s.mans := by unfold dramCopy; with_reducible rfl
@[simp] theorem dramCopy_accts (q c : Fin 16) (lo hi : Nat) (s : State) : (dramCopy q c lo hi s).accts = s.accts := by unfold dramCopy; with_reducible rfl
@[simp] theorem dramCopy_arbs (q c : Fin 16) (lo hi : Nat) (s : State) : (dramCopy q c lo hi s).arbs = s.arbs := by unfold dramCopy; with_reducible rfl
@[simp] theorem dramCopy_order (q c : Fin 16) (lo hi : Nat) (s : State) : (dramCopy q c lo hi s).order = s.order := by unfold dramCopy; with_reducible rfl
@[simp] theorem dramCopy_ofsOld (q c : Fin 16) (lo hi : Nat) (s : State) : (dramCopy q c lo hi s).ofsOld = s.ofsOld := by unfold dramCopy; with_reducible rfl
@[simp] theorem dramCopy_toll (q c : Fin 16) (lo hi : Nat) (s : State) : (dramCopy q c lo hi s).toll = s.toll := by unfold dramCopy; with_reducible rfl
@[simp] theorem dramCopy_way (q c : Fin 16) (lo hi : Nat) (s : State) : (dramCopy q c lo hi s).way = s.way := by unfold dramCopy; with_reducible rfl
@[simp] theorem dramCopy_wayOps (q c : Fin 16) (lo hi : Nat) (s : State) : (dramCopy q c lo hi s).wayOps = s.wayOps := by unfold dramCopy; with_reducible rfl
@[simp] theorem dramCopy_walks (q c : Fin 16) (lo hi : Nat) (s : State) : (dramCopy q c lo hi s).walks = s.walks := by unfold dramCopy; with_reducible rfl
@[simp] theorem dramCopy_caravans (q c : Fin 16) (lo hi : Nat) (s : State) : (dramCopy q c lo hi s).caravans = s.caravans := by unfold dramCopy; with_reducible rfl
@[simp] theorem dramCopy_wreads (q c : Fin 16) (lo hi : Nat) (s : State) : (dramCopy q c lo hi s).wreads = s.wreads := by unfold dramCopy; with_reducible rfl
@[simp] theorem dramCopy_que (q c : Fin 16) (lo hi : Nat) (s : State) : (dramCopy q c lo hi s).que = s.que := by unfold dramCopy; with_reducible rfl
@[simp] theorem dramCopy_chans (q c : Fin 16) (lo hi : Nat) (s : State) : (dramCopy q c lo hi s).chans = s.chans := by unfold dramCopy; with_reducible rfl
@[simp] theorem dramCopy_phys (q c : Fin 16) (lo hi : Nat) (s : State) : (dramCopy q c lo hi s).phys = s.phys := by unfold dramCopy; with_reducible rfl
@[simp] theorem dramCopy_led (q c : Fin 16) (lo hi : Nat) (s : State) : (dramCopy q c lo hi s).led = s.led := by unfold dramCopy; with_reducible rfl
@[simp] theorem dramCopy_bist (q c : Fin 16) (lo hi : Nat) (s : State) : (dramCopy q c lo hi s).bist = s.bist := by unfold dramCopy; with_reducible rfl
@[simp] theorem dramCopy_pwr (q c : Fin 16) (lo hi : Nat) (s : State) : (dramCopy q c lo hi s).pwr = s.pwr := by unfold dramCopy; with_reducible rfl
@[simp] theorem dramCopy_con (q c : Fin 16) (lo hi : Nat) (s : State) : (dramCopy q c lo hi s).con = s.con := by unfold dramCopy; with_reducible rfl
@[simp] theorem dramCopy_prof (q c : Fin 16) (lo hi : Nat) (s : State) : (dramCopy q c lo hi s).prof = s.prof := by unfold dramCopy; with_reducible rfl
@[simp] theorem dramCopy_perEnd (q c : Fin 16) (lo hi : Nat) (s : State) : (dramCopy q c lo hi s).perEnd = s.perEnd := by unfold dramCopy; with_reducible rfl
@[simp] theorem dramCopy_tollEnd (q c : Fin 16) (lo hi : Nat) (s : State) : (dramCopy q c lo hi s).tollEnd = s.tollEnd := by unfold dramCopy; with_reducible rfl
@[simp] theorem dramCopy_horizon (q c : Fin 16) (lo hi : Nat) (s : State) : (dramCopy q c lo hi s).horizon = s.horizon := by unfold dramCopy; with_reducible rfl
@[simp] theorem dramCopy_probe (q c : Fin 16) (lo hi : Nat) (s : State) : (dramCopy q c lo hi s).probe = s.probe := by unfold dramCopy; with_reducible rfl
@[simp] theorem dramCopy_guard (q c : Fin 16) (lo hi : Nat) (s : State) : (dramCopy q c lo hi s).guard = s.guard := by unfold dramCopy; with_reducible rfl
@[simp] theorem dramCopy_latches (q c : Fin 16) (lo hi : Nat) (s : State) : (dramCopy q c lo hi s).latches = s.latches := by unfold dramCopy; with_reducible rfl
@[simp] theorem dramCopy_shadow (q c : Fin 16) (lo hi : Nat) (s : State) : (dramCopy q c lo hi s).shadow = s.shadow := by unfold dramCopy; with_reducible rfl
@[simp] theorem dramCopy_hold (q c : Fin 16) (lo hi : Nat) (s : State) : (dramCopy q c lo hi s).hold = s.hold := by unfold dramCopy; with_reducible rfl

/-! ### setWayLine -/

@[simp] theorem setWayLine_pending (w : Nat) (l : Line) (s : State) : (setWayLine w l s).pending = s.pending := by unfold setWayLine; with_reducible rfl
@[simp] theorem setWayLine_d8 (w : Nat) (l : Line) (s : State) : (setWayLine w l s).d8 = s.d8 := by unfold setWayLine; with_reducible rfl
@[simp] theorem setWayLine_free (w : Nat) (l : Line) (s : State) : (setWayLine w l s).free = s.free := by unfold setWayLine; with_reducible rfl
@[simp] theorem setWayLine_regs (w : Nat) (l : Line) (s : State) : (setWayLine w l s).regs = s.regs := by unfold setWayLine; with_reducible rfl
@[simp] theorem setWayLine_ix (w : Nat) (l : Line) (s : State) : (setWayLine w l s).ix = s.ix := by unfold setWayLine; with_reducible rfl
@[simp] theorem setWayLine_dram (w : Nat) (l : Line) (s : State) : (setWayLine w l s).dram = s.dram := by unfold setWayLine; with_reducible rfl
@[simp] theorem setWayLine_ports (w : Nat) (l : Line) (s : State) : (setWayLine w l s).ports = s.ports := by unfold setWayLine; with_reducible rfl
@[simp] theorem setWayLine_streams (w : Nat) (l : Line) (s : State) : (setWayLine w l s).streams = s.streams := by unfold setWayLine; with_reducible rfl
@[simp] theorem setWayLine_rings (w : Nat) (l : Line) (s : State) : (setWayLine w l s).rings = s.rings := by unfold setWayLine; with_reducible rfl
@[simp] theorem setWayLine_mans (w : Nat) (l : Line) (s : State) : (setWayLine w l s).mans = s.mans := by unfold setWayLine; with_reducible rfl
@[simp] theorem setWayLine_accts (w : Nat) (l : Line) (s : State) : (setWayLine w l s).accts = s.accts := by unfold setWayLine; with_reducible rfl
@[simp] theorem setWayLine_arbs (w : Nat) (l : Line) (s : State) : (setWayLine w l s).arbs = s.arbs := by unfold setWayLine; with_reducible rfl
@[simp] theorem setWayLine_order (w : Nat) (l : Line) (s : State) : (setWayLine w l s).order = s.order := by unfold setWayLine; with_reducible rfl
@[simp] theorem setWayLine_ofsOld (w : Nat) (l : Line) (s : State) : (setWayLine w l s).ofsOld = s.ofsOld := by unfold setWayLine; with_reducible rfl
@[simp] theorem setWayLine_toll (w : Nat) (l : Line) (s : State) : (setWayLine w l s).toll = s.toll := by unfold setWayLine; with_reducible rfl
@[simp] theorem setWayLine_way (w : Nat) (l : Line) (s : State) : (setWayLine w l s).way = s.way := by unfold setWayLine; with_reducible rfl
@[simp] theorem setWayLine_wayOps (w : Nat) (l : Line) (s : State) : (setWayLine w l s).wayOps = s.wayOps := by unfold setWayLine; with_reducible rfl
@[simp] theorem setWayLine_walks (w : Nat) (l : Line) (s : State) : (setWayLine w l s).walks = s.walks := by unfold setWayLine; with_reducible rfl
@[simp] theorem setWayLine_caravans (w : Nat) (l : Line) (s : State) : (setWayLine w l s).caravans = s.caravans := by unfold setWayLine; with_reducible rfl
@[simp] theorem setWayLine_wreads (w : Nat) (l : Line) (s : State) : (setWayLine w l s).wreads = s.wreads := by unfold setWayLine; with_reducible rfl
@[simp] theorem setWayLine_que (w : Nat) (l : Line) (s : State) : (setWayLine w l s).que = s.que := by unfold setWayLine; with_reducible rfl
@[simp] theorem setWayLine_chans (w : Nat) (l : Line) (s : State) : (setWayLine w l s).chans = s.chans := by unfold setWayLine; with_reducible rfl
@[simp] theorem setWayLine_phys (w : Nat) (l : Line) (s : State) : (setWayLine w l s).phys = s.phys := by unfold setWayLine; with_reducible rfl
@[simp] theorem setWayLine_led (w : Nat) (l : Line) (s : State) : (setWayLine w l s).led = s.led := by unfold setWayLine; with_reducible rfl
@[simp] theorem setWayLine_bist (w : Nat) (l : Line) (s : State) : (setWayLine w l s).bist = s.bist := by unfold setWayLine; with_reducible rfl
@[simp] theorem setWayLine_pwr (w : Nat) (l : Line) (s : State) : (setWayLine w l s).pwr = s.pwr := by unfold setWayLine; with_reducible rfl
@[simp] theorem setWayLine_con (w : Nat) (l : Line) (s : State) : (setWayLine w l s).con = s.con := by unfold setWayLine; with_reducible rfl
@[simp] theorem setWayLine_prof (w : Nat) (l : Line) (s : State) : (setWayLine w l s).prof = s.prof := by unfold setWayLine; with_reducible rfl
@[simp] theorem setWayLine_perEnd (w : Nat) (l : Line) (s : State) : (setWayLine w l s).perEnd = s.perEnd := by unfold setWayLine; with_reducible rfl
@[simp] theorem setWayLine_tollEnd (w : Nat) (l : Line) (s : State) : (setWayLine w l s).tollEnd = s.tollEnd := by unfold setWayLine; with_reducible rfl
@[simp] theorem setWayLine_horizon (w : Nat) (l : Line) (s : State) : (setWayLine w l s).horizon = s.horizon := by unfold setWayLine; with_reducible rfl
@[simp] theorem setWayLine_probe (w : Nat) (l : Line) (s : State) : (setWayLine w l s).probe = s.probe := by unfold setWayLine; with_reducible rfl
@[simp] theorem setWayLine_guard (w : Nat) (l : Line) (s : State) : (setWayLine w l s).guard = s.guard := by unfold setWayLine; with_reducible rfl
@[simp] theorem setWayLine_latches (w : Nat) (l : Line) (s : State) : (setWayLine w l s).latches = s.latches := by unfold setWayLine; with_reducible rfl
@[simp] theorem setWayLine_shadow (w : Nat) (l : Line) (s : State) : (setWayLine w l s).shadow = s.shadow := by unfold setWayLine; with_reducible rfl
@[simp] theorem setWayLine_hold (w : Nat) (l : Line) (s : State) : (setWayLine w l s).hold = s.hold := by unfold setWayLine; with_reducible rfl

/-! ### emit -/

@[simp] theorem emit_pending (h : String) (x : List (String × FVal)) (s : State) : (emit h x s).pending = s.pending := by unfold emit; split <;> rfl
@[simp] theorem emit_d8 (h : String) (x : List (String × FVal)) (s : State) : (emit h x s).d8 = s.d8 := by unfold emit; split <;> rfl
@[simp] theorem emit_free (h : String) (x : List (String × FVal)) (s : State) : (emit h x s).free = s.free := by unfold emit; split <;> rfl
@[simp] theorem emit_ix (h : String) (x : List (String × FVal)) (s : State) : (emit h x s).ix = s.ix := by unfold emit; split <;> rfl
@[simp] theorem emit_dram (h : String) (x : List (String × FVal)) (s : State) : (emit h x s).dram = s.dram := by unfold emit; split <;> rfl
@[simp] theorem emit_wmem (h : String) (x : List (String × FVal)) (s : State) : (emit h x s).wmem = s.wmem := by unfold emit; split <;> rfl
@[simp] theorem emit_ports (h : String) (x : List (String × FVal)) (s : State) : (emit h x s).ports = s.ports := by unfold emit; split <;> rfl
@[simp] theorem emit_streams (h : String) (x : List (String × FVal)) (s : State) : (emit h x s).streams = s.streams := by unfold emit; split <;> rfl
@[simp] theorem emit_rings (h : String) (x : List (String × FVal)) (s : State) : (emit h x s).rings = s.rings := by unfold emit; split <;> rfl
@[simp] theorem emit_mans (h : String) (x : List (String × FVal)) (s : State) : (emit h x s).mans = s.mans := by unfold emit; split <;> rfl
@[simp] theorem emit_accts (h : String) (x : List (String × FVal)) (s : State) : (emit h x s).accts = s.accts := by unfold emit; split <;> rfl
@[simp] theorem emit_arbs (h : String) (x : List (String × FVal)) (s : State) : (emit h x s).arbs = s.arbs := by unfold emit; split <;> rfl
@[simp] theorem emit_order (h : String) (x : List (String × FVal)) (s : State) : (emit h x s).order = s.order := by unfold emit; split <;> rfl
@[simp] theorem emit_ofsOld (h : String) (x : List (String × FVal)) (s : State) : (emit h x s).ofsOld = s.ofsOld := by unfold emit; split <;> rfl
@[simp] theorem emit_toll (h : String) (x : List (String × FVal)) (s : State) : (emit h x s).toll = s.toll := by unfold emit; split <;> rfl
@[simp] theorem emit_way (h : String) (x : List (String × FVal)) (s : State) : (emit h x s).way = s.way := by unfold emit; split <;> rfl
@[simp] theorem emit_wayOps (h : String) (x : List (String × FVal)) (s : State) : (emit h x s).wayOps = s.wayOps := by unfold emit; split <;> rfl
@[simp] theorem emit_walks (h : String) (x : List (String × FVal)) (s : State) : (emit h x s).walks = s.walks := by unfold emit; split <;> rfl
@[simp] theorem emit_caravans (h : String) (x : List (String × FVal)) (s : State) : (emit h x s).caravans = s.caravans := by unfold emit; split <;> rfl
@[simp] theorem emit_wreads (h : String) (x : List (String × FVal)) (s : State) : (emit h x s).wreads = s.wreads := by unfold emit; split <;> rfl
@[simp] theorem emit_que (h : String) (x : List (String × FVal)) (s : State) : (emit h x s).que = s.que := by unfold emit; split <;> rfl
@[simp] theorem emit_chans (h : String) (x : List (String × FVal)) (s : State) : (emit h x s).chans = s.chans := by unfold emit; split <;> rfl
@[simp] theorem emit_phys (h : String) (x : List (String × FVal)) (s : State) : (emit h x s).phys = s.phys := by unfold emit; split <;> rfl
@[simp] theorem emit_led (h : String) (x : List (String × FVal)) (s : State) : (emit h x s).led = s.led := by unfold emit; split <;> rfl
@[simp] theorem emit_bist (h : String) (x : List (String × FVal)) (s : State) : (emit h x s).bist = s.bist := by unfold emit; split <;> rfl
@[simp] theorem emit_pwr (h : String) (x : List (String × FVal)) (s : State) : (emit h x s).pwr = s.pwr := by unfold emit; split <;> rfl
@[simp] theorem emit_prof (h : String) (x : List (String × FVal)) (s : State) : (emit h x s).prof = s.prof := by unfold emit; split <;> rfl
@[simp] theorem emit_perEnd (h : String) (x : List (String × FVal)) (s : State) : (emit h x s).perEnd = s.perEnd := by unfold emit; split <;> rfl
@[simp] theorem emit_tollEnd (h : String) (x : List (String × FVal)) (s : State) : (emit h x s).tollEnd = s.tollEnd := by unfold emit; split <;> rfl
@[simp] theorem emit_horizon (h : String) (x : List (String × FVal)) (s : State) : (emit h x s).horizon = s.horizon := by unfold emit; split <;> rfl
@[simp] theorem emit_probe (h : String) (x : List (String × FVal)) (s : State) : (emit h x s).probe = s.probe := by unfold emit; split <;> rfl
@[simp] theorem emit_guard (h : String) (x : List (String × FVal)) (s : State) : (emit h x s).guard = s.guard := by unfold emit; split <;> rfl
@[simp] theorem emit_latches (h : String) (x : List (String × FVal)) (s : State) : (emit h x s).latches = s.latches := by unfold emit; split <;> rfl
@[simp] theorem emit_shadow (h : String) (x : List (String × FVal)) (s : State) : (emit h x s).shadow = s.shadow := by unfold emit; split <;> rfl
@[simp] theorem emit_hold (h : String) (x : List (String × FVal)) (s : State) : (emit h x s).hold = s.hold := by unfold emit; split <;> rfl

/-! ### fbumpN -/

@[simp] theorem fbumpN_pending (b : Nat) (f : Fld) (n : Nat) (s : State) : (fbumpN b f n s).pending = s.pending := (rfl)
@[simp] theorem fbumpN_d8 (b : Nat) (f : Fld) (n : Nat) (s : State) : (fbumpN b f n s).d8 = s.d8 := (rfl)
@[simp] theorem fbumpN_free (b : Nat) (f : Fld) (n : Nat) (s : State) : (fbumpN b f n s).free = s.free := (rfl)
@[simp] theorem fbumpN_ix (b : Nat) (f : Fld) (n : Nat) (s : State) : (fbumpN b f n s).ix = s.ix := (rfl)
@[simp] theorem fbumpN_dram (b : Nat) (f : Fld) (n : Nat) (s : State) : (fbumpN b f n s).dram = s.dram := (rfl)
@[simp] theorem fbumpN_wmem (b : Nat) (f : Fld) (n : Nat) (s : State) : (fbumpN b f n s).wmem = s.wmem := (rfl)
@[simp] theorem fbumpN_ports (b : Nat) (f : Fld) (n : Nat) (s : State) : (fbumpN b f n s).ports = s.ports := (rfl)
@[simp] theorem fbumpN_streams (b : Nat) (f : Fld) (n : Nat) (s : State) : (fbumpN b f n s).streams = s.streams := (rfl)
@[simp] theorem fbumpN_rings (b : Nat) (f : Fld) (n : Nat) (s : State) : (fbumpN b f n s).rings = s.rings := (rfl)
@[simp] theorem fbumpN_mans (b : Nat) (f : Fld) (n : Nat) (s : State) : (fbumpN b f n s).mans = s.mans := (rfl)
@[simp] theorem fbumpN_accts (b : Nat) (f : Fld) (n : Nat) (s : State) : (fbumpN b f n s).accts = s.accts := (rfl)
@[simp] theorem fbumpN_arbs (b : Nat) (f : Fld) (n : Nat) (s : State) : (fbumpN b f n s).arbs = s.arbs := (rfl)
@[simp] theorem fbumpN_order (b : Nat) (f : Fld) (n : Nat) (s : State) : (fbumpN b f n s).order = s.order := (rfl)
@[simp] theorem fbumpN_ofsOld (b : Nat) (f : Fld) (n : Nat) (s : State) : (fbumpN b f n s).ofsOld = s.ofsOld := (rfl)
@[simp] theorem fbumpN_toll (b : Nat) (f : Fld) (n : Nat) (s : State) : (fbumpN b f n s).toll = s.toll := (rfl)
@[simp] theorem fbumpN_way (b : Nat) (f : Fld) (n : Nat) (s : State) : (fbumpN b f n s).way = s.way := (rfl)
@[simp] theorem fbumpN_wayOps (b : Nat) (f : Fld) (n : Nat) (s : State) : (fbumpN b f n s).wayOps = s.wayOps := (rfl)
@[simp] theorem fbumpN_walks (b : Nat) (f : Fld) (n : Nat) (s : State) : (fbumpN b f n s).walks = s.walks := (rfl)
@[simp] theorem fbumpN_caravans (b : Nat) (f : Fld) (n : Nat) (s : State) : (fbumpN b f n s).caravans = s.caravans := (rfl)
@[simp] theorem fbumpN_wreads (b : Nat) (f : Fld) (n : Nat) (s : State) : (fbumpN b f n s).wreads = s.wreads := (rfl)
@[simp] theorem fbumpN_que (b : Nat) (f : Fld) (n : Nat) (s : State) : (fbumpN b f n s).que = s.que := (rfl)
@[simp] theorem fbumpN_chans (b : Nat) (f : Fld) (n : Nat) (s : State) : (fbumpN b f n s).chans = s.chans := (rfl)
@[simp] theorem fbumpN_phys (b : Nat) (f : Fld) (n : Nat) (s : State) : (fbumpN b f n s).phys = s.phys := (rfl)
@[simp] theorem fbumpN_led (b : Nat) (f : Fld) (n : Nat) (s : State) : (fbumpN b f n s).led = s.led := (rfl)
@[simp] theorem fbumpN_bist (b : Nat) (f : Fld) (n : Nat) (s : State) : (fbumpN b f n s).bist = s.bist := (rfl)
@[simp] theorem fbumpN_pwr (b : Nat) (f : Fld) (n : Nat) (s : State) : (fbumpN b f n s).pwr = s.pwr := (rfl)
@[simp] theorem fbumpN_con (b : Nat) (f : Fld) (n : Nat) (s : State) : (fbumpN b f n s).con = s.con := (rfl)
@[simp] theorem fbumpN_prof (b : Nat) (f : Fld) (n : Nat) (s : State) : (fbumpN b f n s).prof = s.prof := (rfl)
@[simp] theorem fbumpN_perEnd (b : Nat) (f : Fld) (n : Nat) (s : State) : (fbumpN b f n s).perEnd = s.perEnd := (rfl)
@[simp] theorem fbumpN_tollEnd (b : Nat) (f : Fld) (n : Nat) (s : State) : (fbumpN b f n s).tollEnd = s.tollEnd := (rfl)
@[simp] theorem fbumpN_horizon (b : Nat) (f : Fld) (n : Nat) (s : State) : (fbumpN b f n s).horizon = s.horizon := (rfl)
@[simp] theorem fbumpN_probe (b : Nat) (f : Fld) (n : Nat) (s : State) : (fbumpN b f n s).probe = s.probe := (rfl)
@[simp] theorem fbumpN_guard (b : Nat) (f : Fld) (n : Nat) (s : State) : (fbumpN b f n s).guard = s.guard := (rfl)
@[simp] theorem fbumpN_latches (b : Nat) (f : Fld) (n : Nat) (s : State) : (fbumpN b f n s).latches = s.latches := (rfl)
@[simp] theorem fbumpN_shadow (b : Nat) (f : Fld) (n : Nat) (s : State) : (fbumpN b f n s).shadow = s.shadow := (rfl)
@[simp] theorem fbumpN_hold (b : Nat) (f : Fld) (n : Nat) (s : State) : (fbumpN b f n s).hold = s.hold := (rfl)

/-! ### fbump -/

@[simp] theorem fbump_pending (b : Nat) (f : Fld) (s : State) : (fbump b f s).pending = s.pending := (rfl)
@[simp] theorem fbump_d8 (b : Nat) (f : Fld) (s : State) : (fbump b f s).d8 = s.d8 := (rfl)
@[simp] theorem fbump_free (b : Nat) (f : Fld) (s : State) : (fbump b f s).free = s.free := (rfl)
@[simp] theorem fbump_ix (b : Nat) (f : Fld) (s : State) : (fbump b f s).ix = s.ix := (rfl)
@[simp] theorem fbump_dram (b : Nat) (f : Fld) (s : State) : (fbump b f s).dram = s.dram := (rfl)
@[simp] theorem fbump_wmem (b : Nat) (f : Fld) (s : State) : (fbump b f s).wmem = s.wmem := (rfl)
@[simp] theorem fbump_ports (b : Nat) (f : Fld) (s : State) : (fbump b f s).ports = s.ports := (rfl)
@[simp] theorem fbump_streams (b : Nat) (f : Fld) (s : State) : (fbump b f s).streams = s.streams := (rfl)
@[simp] theorem fbump_rings (b : Nat) (f : Fld) (s : State) : (fbump b f s).rings = s.rings := (rfl)
@[simp] theorem fbump_mans (b : Nat) (f : Fld) (s : State) : (fbump b f s).mans = s.mans := (rfl)
@[simp] theorem fbump_accts (b : Nat) (f : Fld) (s : State) : (fbump b f s).accts = s.accts := (rfl)
@[simp] theorem fbump_arbs (b : Nat) (f : Fld) (s : State) : (fbump b f s).arbs = s.arbs := (rfl)
@[simp] theorem fbump_order (b : Nat) (f : Fld) (s : State) : (fbump b f s).order = s.order := (rfl)
@[simp] theorem fbump_ofsOld (b : Nat) (f : Fld) (s : State) : (fbump b f s).ofsOld = s.ofsOld := (rfl)
@[simp] theorem fbump_toll (b : Nat) (f : Fld) (s : State) : (fbump b f s).toll = s.toll := (rfl)
@[simp] theorem fbump_way (b : Nat) (f : Fld) (s : State) : (fbump b f s).way = s.way := (rfl)
@[simp] theorem fbump_wayOps (b : Nat) (f : Fld) (s : State) : (fbump b f s).wayOps = s.wayOps := (rfl)
@[simp] theorem fbump_walks (b : Nat) (f : Fld) (s : State) : (fbump b f s).walks = s.walks := (rfl)
@[simp] theorem fbump_caravans (b : Nat) (f : Fld) (s : State) : (fbump b f s).caravans = s.caravans := (rfl)
@[simp] theorem fbump_wreads (b : Nat) (f : Fld) (s : State) : (fbump b f s).wreads = s.wreads := (rfl)
@[simp] theorem fbump_que (b : Nat) (f : Fld) (s : State) : (fbump b f s).que = s.que := (rfl)
@[simp] theorem fbump_chans (b : Nat) (f : Fld) (s : State) : (fbump b f s).chans = s.chans := (rfl)
@[simp] theorem fbump_phys (b : Nat) (f : Fld) (s : State) : (fbump b f s).phys = s.phys := (rfl)
@[simp] theorem fbump_led (b : Nat) (f : Fld) (s : State) : (fbump b f s).led = s.led := (rfl)
@[simp] theorem fbump_bist (b : Nat) (f : Fld) (s : State) : (fbump b f s).bist = s.bist := (rfl)
@[simp] theorem fbump_pwr (b : Nat) (f : Fld) (s : State) : (fbump b f s).pwr = s.pwr := (rfl)
@[simp] theorem fbump_con (b : Nat) (f : Fld) (s : State) : (fbump b f s).con = s.con := (rfl)
@[simp] theorem fbump_prof (b : Nat) (f : Fld) (s : State) : (fbump b f s).prof = s.prof := (rfl)
@[simp] theorem fbump_perEnd (b : Nat) (f : Fld) (s : State) : (fbump b f s).perEnd = s.perEnd := (rfl)
@[simp] theorem fbump_tollEnd (b : Nat) (f : Fld) (s : State) : (fbump b f s).tollEnd = s.tollEnd := (rfl)
@[simp] theorem fbump_horizon (b : Nat) (f : Fld) (s : State) : (fbump b f s).horizon = s.horizon := (rfl)
@[simp] theorem fbump_probe (b : Nat) (f : Fld) (s : State) : (fbump b f s).probe = s.probe := (rfl)
@[simp] theorem fbump_guard (b : Nat) (f : Fld) (s : State) : (fbump b f s).guard = s.guard := (rfl)
@[simp] theorem fbump_latches (b : Nat) (f : Fld) (s : State) : (fbump b f s).latches = s.latches := (rfl)
@[simp] theorem fbump_shadow (b : Nat) (f : Fld) (s : State) : (fbump b f s).shadow = s.shadow := (rfl)
@[simp] theorem fbump_hold (b : Nat) (f : Fld) (s : State) : (fbump b f s).hold = s.hold := (rfl)

/-! ### setDramPsn -/

@[simp] theorem setDramPsn_pending (c : Fin 16) (lam : Nat) (p : Bool) (s : State) : (setDramPsn c lam p s).pending = s.pending := by unfold setDramPsn; split <;> rfl
@[simp] theorem setDramPsn_d8 (c : Fin 16) (lam : Nat) (p : Bool) (s : State) : (setDramPsn c lam p s).d8 = s.d8 := by unfold setDramPsn; split <;> rfl
@[simp] theorem setDramPsn_free (c : Fin 16) (lam : Nat) (p : Bool) (s : State) : (setDramPsn c lam p s).free = s.free := by unfold setDramPsn; split <;> rfl
@[simp] theorem setDramPsn_regs (c : Fin 16) (lam : Nat) (p : Bool) (s : State) : (setDramPsn c lam p s).regs = s.regs := by unfold setDramPsn; split <;> rfl
@[simp] theorem setDramPsn_ix (c : Fin 16) (lam : Nat) (p : Bool) (s : State) : (setDramPsn c lam p s).ix = s.ix := by unfold setDramPsn; split <;> rfl
@[simp] theorem setDramPsn_dram (c : Fin 16) (lam : Nat) (p : Bool) (s : State) : (setDramPsn c lam p s).dram = s.dram := by unfold setDramPsn; split <;> rfl
@[simp] theorem setDramPsn_wmem (c : Fin 16) (lam : Nat) (p : Bool) (s : State) : (setDramPsn c lam p s).wmem = s.wmem := by unfold setDramPsn; split <;> rfl
@[simp] theorem setDramPsn_ports (c : Fin 16) (lam : Nat) (p : Bool) (s : State) : (setDramPsn c lam p s).ports = s.ports := by unfold setDramPsn; split <;> rfl
@[simp] theorem setDramPsn_streams (c : Fin 16) (lam : Nat) (p : Bool) (s : State) : (setDramPsn c lam p s).streams = s.streams := by unfold setDramPsn; split <;> rfl
@[simp] theorem setDramPsn_rings (c : Fin 16) (lam : Nat) (p : Bool) (s : State) : (setDramPsn c lam p s).rings = s.rings := by unfold setDramPsn; split <;> rfl
@[simp] theorem setDramPsn_mans (c : Fin 16) (lam : Nat) (p : Bool) (s : State) : (setDramPsn c lam p s).mans = s.mans := by unfold setDramPsn; split <;> rfl
@[simp] theorem setDramPsn_accts (c : Fin 16) (lam : Nat) (p : Bool) (s : State) : (setDramPsn c lam p s).accts = s.accts := by unfold setDramPsn; split <;> rfl
@[simp] theorem setDramPsn_arbs (c : Fin 16) (lam : Nat) (p : Bool) (s : State) : (setDramPsn c lam p s).arbs = s.arbs := by unfold setDramPsn; split <;> rfl
@[simp] theorem setDramPsn_order (c : Fin 16) (lam : Nat) (p : Bool) (s : State) : (setDramPsn c lam p s).order = s.order := by unfold setDramPsn; split <;> rfl
@[simp] theorem setDramPsn_ofsOld (c : Fin 16) (lam : Nat) (p : Bool) (s : State) : (setDramPsn c lam p s).ofsOld = s.ofsOld := by unfold setDramPsn; split <;> rfl
@[simp] theorem setDramPsn_toll (c : Fin 16) (lam : Nat) (p : Bool) (s : State) : (setDramPsn c lam p s).toll = s.toll := by unfold setDramPsn; split <;> rfl
@[simp] theorem setDramPsn_way (c : Fin 16) (lam : Nat) (p : Bool) (s : State) : (setDramPsn c lam p s).way = s.way := by unfold setDramPsn; split <;> rfl
@[simp] theorem setDramPsn_wayOps (c : Fin 16) (lam : Nat) (p : Bool) (s : State) : (setDramPsn c lam p s).wayOps = s.wayOps := by unfold setDramPsn; split <;> rfl
@[simp] theorem setDramPsn_walks (c : Fin 16) (lam : Nat) (p : Bool) (s : State) : (setDramPsn c lam p s).walks = s.walks := by unfold setDramPsn; split <;> rfl
@[simp] theorem setDramPsn_caravans (c : Fin 16) (lam : Nat) (p : Bool) (s : State) : (setDramPsn c lam p s).caravans = s.caravans := by unfold setDramPsn; split <;> rfl
@[simp] theorem setDramPsn_wreads (c : Fin 16) (lam : Nat) (p : Bool) (s : State) : (setDramPsn c lam p s).wreads = s.wreads := by unfold setDramPsn; split <;> rfl
@[simp] theorem setDramPsn_que (c : Fin 16) (lam : Nat) (p : Bool) (s : State) : (setDramPsn c lam p s).que = s.que := by unfold setDramPsn; split <;> rfl
@[simp] theorem setDramPsn_phys (c : Fin 16) (lam : Nat) (p : Bool) (s : State) : (setDramPsn c lam p s).phys = s.phys := by unfold setDramPsn; split <;> rfl
@[simp] theorem setDramPsn_led (c : Fin 16) (lam : Nat) (p : Bool) (s : State) : (setDramPsn c lam p s).led = s.led := by unfold setDramPsn; split <;> rfl
@[simp] theorem setDramPsn_bist (c : Fin 16) (lam : Nat) (p : Bool) (s : State) : (setDramPsn c lam p s).bist = s.bist := by unfold setDramPsn; split <;> rfl
@[simp] theorem setDramPsn_pwr (c : Fin 16) (lam : Nat) (p : Bool) (s : State) : (setDramPsn c lam p s).pwr = s.pwr := by unfold setDramPsn; split <;> rfl
@[simp] theorem setDramPsn_con (c : Fin 16) (lam : Nat) (p : Bool) (s : State) : (setDramPsn c lam p s).con = s.con := by unfold setDramPsn; split <;> rfl
@[simp] theorem setDramPsn_prof (c : Fin 16) (lam : Nat) (p : Bool) (s : State) : (setDramPsn c lam p s).prof = s.prof := by unfold setDramPsn; split <;> rfl
@[simp] theorem setDramPsn_perEnd (c : Fin 16) (lam : Nat) (p : Bool) (s : State) : (setDramPsn c lam p s).perEnd = s.perEnd := by unfold setDramPsn; split <;> rfl
@[simp] theorem setDramPsn_tollEnd (c : Fin 16) (lam : Nat) (p : Bool) (s : State) : (setDramPsn c lam p s).tollEnd = s.tollEnd := by unfold setDramPsn; split <;> rfl
@[simp] theorem setDramPsn_horizon (c : Fin 16) (lam : Nat) (p : Bool) (s : State) : (setDramPsn c lam p s).horizon = s.horizon := by unfold setDramPsn; split <;> rfl
@[simp] theorem setDramPsn_probe (c : Fin 16) (lam : Nat) (p : Bool) (s : State) : (setDramPsn c lam p s).probe = s.probe := by unfold setDramPsn; split <;> rfl
@[simp] theorem setDramPsn_guard (c : Fin 16) (lam : Nat) (p : Bool) (s : State) : (setDramPsn c lam p s).guard = s.guard := by unfold setDramPsn; split <;> rfl
@[simp] theorem setDramPsn_latches (c : Fin 16) (lam : Nat) (p : Bool) (s : State) : (setDramPsn c lam p s).latches = s.latches := by unfold setDramPsn; split <;> rfl
@[simp] theorem setDramPsn_shadow (c : Fin 16) (lam : Nat) (p : Bool) (s : State) : (setDramPsn c lam p s).shadow = s.shadow := by unfold setDramPsn; split <;> rfl
@[simp] theorem setDramPsn_hold (c : Fin 16) (lam : Nat) (p : Bool) (s : State) : (setDramPsn c lam p s).hold = s.hold := by unfold setDramPsn; split <;> rfl

/-! ### storeLine -/

@[simp] theorem storeLine_pending (c : Fin 16) (lam : Nat) (l : Line) (p : Bool) (s : State) : (storeLine c lam l p s).pending = s.pending := by unfold storeLine; simp
@[simp] theorem storeLine_d8 (c : Fin 16) (lam : Nat) (l : Line) (p : Bool) (s : State) : (storeLine c lam l p s).d8 = s.d8 := by unfold storeLine; simp
@[simp] theorem storeLine_free (c : Fin 16) (lam : Nat) (l : Line) (p : Bool) (s : State) : (storeLine c lam l p s).free = s.free := by unfold storeLine; simp
@[simp] theorem storeLine_regs (c : Fin 16) (lam : Nat) (l : Line) (p : Bool) (s : State) : (storeLine c lam l p s).regs = s.regs := by unfold storeLine; simp
@[simp] theorem storeLine_ix (c : Fin 16) (lam : Nat) (l : Line) (p : Bool) (s : State) : (storeLine c lam l p s).ix = s.ix := by unfold storeLine; simp
@[simp] theorem storeLine_wmem (c : Fin 16) (lam : Nat) (l : Line) (p : Bool) (s : State) : (storeLine c lam l p s).wmem = s.wmem := by unfold storeLine; simp
@[simp] theorem storeLine_ports (c : Fin 16) (lam : Nat) (l : Line) (p : Bool) (s : State) : (storeLine c lam l p s).ports = s.ports := by unfold storeLine; simp
@[simp] theorem storeLine_streams (c : Fin 16) (lam : Nat) (l : Line) (p : Bool) (s : State) : (storeLine c lam l p s).streams = s.streams := by unfold storeLine; simp
@[simp] theorem storeLine_rings (c : Fin 16) (lam : Nat) (l : Line) (p : Bool) (s : State) : (storeLine c lam l p s).rings = s.rings := by unfold storeLine; simp
@[simp] theorem storeLine_mans (c : Fin 16) (lam : Nat) (l : Line) (p : Bool) (s : State) : (storeLine c lam l p s).mans = s.mans := by unfold storeLine; simp
@[simp] theorem storeLine_accts (c : Fin 16) (lam : Nat) (l : Line) (p : Bool) (s : State) : (storeLine c lam l p s).accts = s.accts := by unfold storeLine; simp
@[simp] theorem storeLine_arbs (c : Fin 16) (lam : Nat) (l : Line) (p : Bool) (s : State) : (storeLine c lam l p s).arbs = s.arbs := by unfold storeLine; simp
@[simp] theorem storeLine_order (c : Fin 16) (lam : Nat) (l : Line) (p : Bool) (s : State) : (storeLine c lam l p s).order = s.order := by unfold storeLine; simp
@[simp] theorem storeLine_ofsOld (c : Fin 16) (lam : Nat) (l : Line) (p : Bool) (s : State) : (storeLine c lam l p s).ofsOld = s.ofsOld := by unfold storeLine; simp
@[simp] theorem storeLine_toll (c : Fin 16) (lam : Nat) (l : Line) (p : Bool) (s : State) : (storeLine c lam l p s).toll = s.toll := by unfold storeLine; simp
@[simp] theorem storeLine_way (c : Fin 16) (lam : Nat) (l : Line) (p : Bool) (s : State) : (storeLine c lam l p s).way = s.way := by unfold storeLine; simp
@[simp] theorem storeLine_wayOps (c : Fin 16) (lam : Nat) (l : Line) (p : Bool) (s : State) : (storeLine c lam l p s).wayOps = s.wayOps := by unfold storeLine; simp
@[simp] theorem storeLine_walks (c : Fin 16) (lam : Nat) (l : Line) (p : Bool) (s : State) : (storeLine c lam l p s).walks = s.walks := by unfold storeLine; simp
@[simp] theorem storeLine_caravans (c : Fin 16) (lam : Nat) (l : Line) (p : Bool) (s : State) : (storeLine c lam l p s).caravans = s.caravans := by unfold storeLine; simp
@[simp] theorem storeLine_wreads (c : Fin 16) (lam : Nat) (l : Line) (p : Bool) (s : State) : (storeLine c lam l p s).wreads = s.wreads := by unfold storeLine; simp
@[simp] theorem storeLine_que (c : Fin 16) (lam : Nat) (l : Line) (p : Bool) (s : State) : (storeLine c lam l p s).que = s.que := by unfold storeLine; simp
@[simp] theorem storeLine_phys (c : Fin 16) (lam : Nat) (l : Line) (p : Bool) (s : State) : (storeLine c lam l p s).phys = s.phys := by unfold storeLine; simp
@[simp] theorem storeLine_led (c : Fin 16) (lam : Nat) (l : Line) (p : Bool) (s : State) : (storeLine c lam l p s).led = s.led := by unfold storeLine; simp
@[simp] theorem storeLine_bist (c : Fin 16) (lam : Nat) (l : Line) (p : Bool) (s : State) : (storeLine c lam l p s).bist = s.bist := by unfold storeLine; simp
@[simp] theorem storeLine_pwr (c : Fin 16) (lam : Nat) (l : Line) (p : Bool) (s : State) : (storeLine c lam l p s).pwr = s.pwr := by unfold storeLine; simp
@[simp] theorem storeLine_con (c : Fin 16) (lam : Nat) (l : Line) (p : Bool) (s : State) : (storeLine c lam l p s).con = s.con := by unfold storeLine; simp
@[simp] theorem storeLine_prof (c : Fin 16) (lam : Nat) (l : Line) (p : Bool) (s : State) : (storeLine c lam l p s).prof = s.prof := by unfold storeLine; simp
@[simp] theorem storeLine_perEnd (c : Fin 16) (lam : Nat) (l : Line) (p : Bool) (s : State) : (storeLine c lam l p s).perEnd = s.perEnd := by unfold storeLine; simp
@[simp] theorem storeLine_tollEnd (c : Fin 16) (lam : Nat) (l : Line) (p : Bool) (s : State) : (storeLine c lam l p s).tollEnd = s.tollEnd := by unfold storeLine; simp
@[simp] theorem storeLine_horizon (c : Fin 16) (lam : Nat) (l : Line) (p : Bool) (s : State) : (storeLine c lam l p s).horizon = s.horizon := by unfold storeLine; simp
@[simp] theorem storeLine_probe (c : Fin 16) (lam : Nat) (l : Line) (p : Bool) (s : State) : (storeLine c lam l p s).probe = s.probe := by unfold storeLine; simp
@[simp] theorem storeLine_guard (c : Fin 16) (lam : Nat) (l : Line) (p : Bool) (s : State) : (storeLine c lam l p s).guard = s.guard := by unfold storeLine; simp
@[simp] theorem storeLine_latches (c : Fin 16) (lam : Nat) (l : Line) (p : Bool) (s : State) : (storeLine c lam l p s).latches = s.latches := by unfold storeLine; simp
@[simp] theorem storeLine_shadow (c : Fin 16) (lam : Nat) (l : Line) (p : Bool) (s : State) : (storeLine c lam l p s).shadow = s.shadow := by unfold storeLine; simp
@[simp] theorem storeLine_hold (c : Fin 16) (lam : Nat) (l : Line) (p : Bool) (s : State) : (storeLine c lam l p s).hold = s.hold := by unfold storeLine; simp

end Sys2Proof.Laws
end

