-- ==== Sys2Proof/Laws/Tbl.lean ====
section
/-! SUPPORT. The laws of sparse tables: what a key holds after a write, and that every operation keeps the canonical form. -/

namespace Sys2Proof.Laws
open Sys2Proof.Machine

variable {α : Type} [DecidableEq α]

omit [DecidableEq α] in
theorem tblGet_dropWhile (d : Nat → α) (t : List (Nat × α)) (k j : Nat) (h : k < j) :
    tblGet d (t.dropWhile fun e => decide (e.1 ≤ k)) j = tblGet d t j := by
  induction t with
  | nil => rfl
  | cons e r ih =>
    rw [List.dropWhile_cons]
    by_cases hk : e.1 ≤ k
    · simp only [hk, decide_true, if_true, ih]
      rw [tblGet, if_neg (by omega), if_neg (by omega)]
    · simp [hk]

omit [DecidableEq α] in
theorem tblGet_dropWhile_self (d : Nat → α) (t : List (Nat × α)) (k : Nat) :
    tblGet d (t.dropWhile fun e => decide (e.1 ≤ k)) k = d k := by
  induction t with
  | nil => rfl
  | cons e r ih =>
    rw [List.dropWhile_cons]
    by_cases hk : e.1 ≤ k
    · simp only [hk, decide_true, if_true, ih]
    · simp only [hk, decide_false, Bool.false_eq_true, if_false, tblGet]
      rw [if_pos (by omega)]

omit [DecidableEq α] in
theorem tblGet_dropWhile_lt (d : Nat → α) (t : List (Nat × α)) (k j : Nat) (h : j < k) :
    tblGet d (t.dropWhile fun e => decide (e.1 ≤ k)) j = d j := by
  induction t with
  | nil => rfl
  | cons e r ih =>
    rw [List.dropWhile_cons]
    by_cases hk : e.1 ≤ k
    · simp only [hk, decide_true, if_true, ih]
    · simp only [hk, decide_false, Bool.false_eq_true, if_false, tblGet]
      rw [if_pos (by omega)]

/-- A key holds what was last written to it. -/
@[simp] theorem tblGet_tblSet (d : Nat → α) (t : List (Nat × α)) (k : Nat) (v : α) : tblGet d (tblSet d t k v) k = v := by
  induction t with
  | nil => by_cases h : v = d k <;> simp [tblSet, tblCons, tblGet, h]
  | cons e r ih =>
    rw [tblSet]
    by_cases h1 : k < e.1
    · by_cases h : v = d k <;> simp [h1, tblCons, tblGet, h]
    · by_cases h2 : k = e.1
      · subst h2
        by_cases h : v = d e.1
        · simp only [lt_irrefl, if_false, if_true, tblCons, h]
          exact tblGet_dropWhile_self d r e.1
        · simp [tblCons, h, tblGet]
      · simp [h1, h2, tblGet, ih]

/-- A write leaves every other key as it was. -/
theorem tblGet_tblSet_ne (d : Nat → α) (t : List (Nat × α)) (k j : Nat) (v : α) (hj : j ≠ k) : tblGet d (tblSet d t k v) j = tblGet d t j := by
  induction t with
  | nil =>
    by_cases h : v = d k
    · simp [tblSet, tblCons, h]
    · simp [tblSet, tblCons, h, tblGet, hj]
  | cons e r ih =>
    rw [tblSet]
    by_cases h1 : k < e.1
    · by_cases h : v = d k
      · simp [h1, tblCons, h]
      · simp only [h1, if_true, tblCons, h, if_false, tblGet, if_neg hj]
        by_cases h3 : j < k
        · simp [h3, show j < e.1 by omega]
        · simp [h3]
    · by_cases h2 : k = e.1
      · subst h2
        by_cases h : v = d e.1
        · simp only [lt_irrefl, if_false, if_true, tblCons, h, tblGet, if_neg hj]
          rcases Nat.lt_or_gt_of_ne hj with h3 | h3
          · rw [if_pos h3, tblGet_dropWhile_lt d r _ _ h3]
          · rw [if_neg (by omega), tblGet_dropWhile d r _ _ h3]
        · simp only [lt_irrefl, if_false, if_true, tblCons, h, tblGet, if_neg hj]
          rcases Nat.lt_or_gt_of_ne hj with h3 | h3
          · rw [if_pos h3, if_pos h3]
          · rw [if_neg (by omega), if_neg (by omega), tblGet_dropWhile d r _ _ h3]
      · simp only [h1, h2, if_false, tblGet, ih]

theorem tblWfFrom_mono (d : Nat → α) (t : List (Nat × α)) (a b : Nat) (hab : a ≤ b) (h : tblWfFrom d b t = true) : tblWfFrom d a t = true := by
  cases t with
  | nil => rfl
  | cons e r =>
    simp only [tblWfFrom, Bool.and_eq_true, decide_eq_true_eq] at h ⊢
    exact ⟨⟨by omega, h.1.2⟩, h.2⟩

theorem tblWfFrom_dropWhile (d : Nat → α) (t : List (Nat × α)) (b k : Nat) (h : tblWfFrom d b t = true) :
    tblWfFrom d (k + 1) (t.dropWhile fun e => decide (e.1 ≤ k)) = true := by
  induction t generalizing b with
  | nil => rfl
  | cons e r ih =>
    simp only [tblWfFrom, Bool.and_eq_true, decide_eq_true_eq] at h
    rw [List.dropWhile_cons]
    by_cases hk : e.1 ≤ k
    · simp only [hk, decide_true, if_true]
      exact ih _ h.2
    · simp only [hk, decide_false, Bool.false_eq_true, if_false, tblWfFrom, Bool.and_eq_true, decide_eq_true_eq]
      exact ⟨⟨by omega, h.1.2⟩, h.2⟩

theorem tblWfFrom_tblSet (d : Nat → α) (t : List (Nat × α)) (b k : Nat) (v : α) (hb : b ≤ k) (h : tblWfFrom d b t = true) :
    tblWfFrom d b (tblSet d t k v) = true := by
  induction t generalizing b with
  | nil => by_cases hv : v = d k <;> simp [tblSet, tblCons, hv, tblWfFrom, hb]
  | cons e r ih =>
    have h' := h
    simp only [tblWfFrom, Bool.and_eq_true, decide_eq_true_eq] at h'
    rw [tblSet]
    by_cases h1 : k < e.1
    · by_cases hv : v = d k
      · simpa [h1, tblCons, hv] using h
      · simp only [h1, if_true, tblCons, hv, if_false, tblWfFrom, Bool.and_eq_true, decide_eq_true_eq]
        exact ⟨⟨hb, hv⟩, ⟨by omega, h'.1.2⟩, h'.2⟩
    · by_cases h2 : k = e.1
      · subst h2
        have hd := tblWfFrom_dropWhile d r _ e.1 h'.2
        by_cases hv : v = d e.1
        · simp only [lt_irrefl, if_false, if_true, tblCons, hv]
          exact tblWfFrom_mono d _ _ _ (by omega) hd
        · simp only [lt_irrefl, if_false, if_true, tblCons, hv, tblWfFrom, Bool.and_eq_true, decide_eq_true_eq]
          exact ⟨⟨hb, hv⟩, hd⟩
      · simp only [h1, h2, if_false, tblWfFrom, Bool.and_eq_true, decide_eq_true_eq]
        exact ⟨h'.1, ih _ (by omega) h'.2⟩

/-- A write keeps the canonical form. -/
theorem tblWf_tblSet (d : Nat → α) (t : List (Nat × α)) (k : Nat) (v : α) (h : tblWf d t = true) : tblWf d (tblSet d t k v) = true :=
  tblWfFrom_tblSet d t 0 k v (Nat.zero_le k) h

theorem tblWfFrom_filter (d : Nat → α) (t : List (Nat × α)) (p : Nat × α → Bool) (b : Nat) (h : tblWfFrom d b t = true) : tblWfFrom d b (t.filter p) = true := by
  induction t generalizing b with
  | nil => rfl
  | cons e r ih =>
    simp only [tblWfFrom, Bool.and_eq_true, decide_eq_true_eq] at h
    rw [List.filter_cons]
    split
    · simp only [tblWfFrom, Bool.and_eq_true, decide_eq_true_eq]
      exact ⟨h.1, ih _ h.2⟩
    · exact tblWfFrom_mono d _ _ _ (by omega) (ih _ h.2)

/-- Removing a range of keys keeps the canonical form. -/
theorem tblWf_tblClear (d : Nat → α) (t : List (Nat × α)) (lo hi : Nat) (h : tblWf d t = true) : tblWf d (tblClear t lo hi) = true :=
  tblWfFrom_filter d t _ 0 h

/-- A table made by a run of writes is canonical if the table it began with is. -/
theorem tblWf_foldl {β : Type} (d : Nat → α) (l : List β) (f : List (Nat × α) → β → List (Nat × α)) (t : List (Nat × α))
    (hf : ∀ t b, tblWf d t = true → tblWf d (f t b) = true) (h : tblWf d t = true) : tblWf d (l.foldl f t) = true := by
  induction l generalizing t with
  | nil => exact h
  | cons a r ih => exact ih _ (hf _ _ h)

end Sys2Proof.Laws
end

