-- ==== Sys2Proof/Laws/Canon.lean ====
section
/-! SUPPORT. Every writer of the state keeps the tables in canonical form. -/

namespace Sys2Proof.Laws
open Sys2Proof.Machine

/-- Writing bytes keeps a memory canonical. -/
theorem cellsSet_wf (m : List Host.Cell) (a : Nat) (l : List Byte) (h : Memory.wf m) : Memory.wf (cellsSet m a l) := by
  induction l generalizing m a with
  | nil => exact h
  | cons b r ih => exact ih _ _ (tblWf_tblSet emptyByte m a b h)

/-- Writing a DRAM line keeps the memories canonical. -/
theorem setDram_wf (c : Fin 16) (lam : Nat) (l : Line) (s : State) (h : Memory.wf s.dram) : Memory.wf (setDram c lam l s).dram := by
  have e : (setDram c lam l s).dram = cellsSet s.dram (dramAddr c lam) (lineList l) := by unfold setDram; with_reducible rfl
  rw [e]
  exact cellsSet_wf _ _ _ h

/-- Clearing a channel keeps DRAM canonical. -/
theorem dramClear_wf (c : Fin 16) (s : State) (h : Memory.wf s.dram) : Memory.wf (dramClear c s).dram :=
  tblWf_tblClear _ _ _ _ h

/-- Copying between channels keeps DRAM canonical. -/
theorem dramCopy_wf (q c : Fin 16) (lo hi : Nat) (s : State) (h : Memory.wf s.dram) : Memory.wf (dramCopy q c lo hi s).dram :=
  tblWf_foldl _ _ _ _ (fun t e ht => tblWf_tblSet emptyByte t _ e.2 ht) (tblWf_tblClear _ _ _ _ h)

/-- Writing a Waystation line keeps the memories canonical. -/
theorem setWayLine_wf (w : Nat) (l : Line) (s : State) (h : Memory.wf s.wmem) : Memory.wf (setWayLine w l s).wmem := by
  have e : (setWayLine w l s).wmem = cellsSet s.wmem (w * 128) (lineList l) := by unfold setWayLine; with_reducible rfl
  rw [e]
  exact cellsSet_wf _ _ _ h

theorem regsMap_wf (f : Nat → Word → Option Word) (s : State) : tblWf regReset (regsMap f s).regs = true := by
  refine tblWf_foldl _ _ _ _ (fun t e ht => ?_) rfl
  split
  · exact tblWf_tblSet _ _ _ _ ht
  · exact ht

theorem acctsZero_wf (k : Nat → Bool) (s : State) : tblWf (fun _ => ({} : Account)) (acctsZero k s).accts = true := by
  refine tblWf_foldl _ _ _ _ (fun t e ht => ?_) rfl
  split
  · exact tblWf_tblSet _ _ _ _ ht
  · exact ht

theorem canon_closed : Closed Canon where
  rgSet := fun a w s h => { h with regs := tblWf_tblSet _ _ _ _ h.regs }
  regsMap := fun f s h => { h with regs := regsMap_wf f s }
  time := fun _ _ _ h => ⟨h.1, h.2, h.3, h.4, h.5, h.6, h.7⟩
  other := by
    intros
    rename_i h
    exact ⟨h.1, h.2, h.3, h.4, h.5, h.6, h.7⟩

theorem canon_ix : ClosedIx Canon where
  ixSet := fun _ _ _ _ h => { h with ix := tblWf_tblSet _ _ _ _ h.ix }
  ixDrop := fun _ _ h => { h with ix := tblWf_tblClear _ _ _ _ h.ix }
  ixRestore := fun _ _ _ h => { h with ix := tblWf_foldl _ _ _ _ (fun _ _ ht => tblWf_tblSet _ _ _ _ ht) rfl }

theorem canon_strm : ClosedStrm Canon where
  setStrm := fun _ _ _ _ h => { h with streams := tblWf_tblSet _ _ _ _ h.streams }
  strmMap := fun _ _ h => { h with streams := tblWf_foldl _ _ _ _ (fun _ _ ht => tblWf_tblSet _ _ _ _ ht) rfl }

theorem canon_man : ClosedMan Canon where
  setMan := fun _ _ _ h => { h with mans := tblWf_tblSet _ _ _ _ h.mans }

theorem canon_acct : ClosedAcct Canon where
  setAcct := fun _ _ _ _ h => { h with accts := tblWf_tblSet _ _ _ _ h.accts }
  acctsZero := fun k s h => { h with accts := acctsZero_wf k s }

theorem canon_dram : ClosedDram Canon where
  setDram := fun c lam l s h => ⟨by rw [setDram_regs]; exact h.regs, by rw [setDram_ix]; exact h.ix, setDram_wf c lam l s h.dram, by rw [setDram_wmem]; exact h.wmem, by rw [setDram_streams]; exact h.streams, by rw [setDram_mans]; exact h.mans, by rw [setDram_accts]; exact h.accts⟩
  dramClear := fun c s h => ⟨by rw [dramClear_regs]; exact h.regs, by rw [dramClear_ix]; exact h.ix, dramClear_wf c s h.dram, by rw [dramClear_wmem]; exact h.wmem, by rw [dramClear_streams]; exact h.streams, by rw [dramClear_mans]; exact h.mans, by rw [dramClear_accts]; exact h.accts⟩
  dramCopy := fun q c lo hi s h => ⟨by rw [dramCopy_regs]; exact h.regs, by rw [dramCopy_ix]; exact h.ix, dramCopy_wf q c lo hi s h.dram, by rw [dramCopy_wmem]; exact h.wmem, by rw [dramCopy_streams]; exact h.streams, by rw [dramCopy_mans]; exact h.mans, by rw [dramCopy_accts]; exact h.accts⟩

theorem canon_way : ClosedWay Canon where
  setWayLine := fun w l s h => ⟨by rw [setWayLine_regs]; exact h.regs, by rw [setWayLine_ix]; exact h.ix, by rw [setWayLine_dram]; exact h.dram, setWayLine_wf w l s h.wmem, by rw [setWayLine_streams]; exact h.streams, by rw [setWayLine_mans]; exact h.mans, by rw [setWayLine_accts]; exact h.accts⟩

theorem canon_restore : ClosedRestore Canon where
  restore := fun _ h => ⟨h.1, h.2, h.3, h.4, h.5, h.6, h.7⟩

theorem canon_cold : ClosedCold Canon where
  coldState := fun c n s _ => by
    unfold coldState
    dsimp only
    apply fset_keeps canon_closed
    apply fset_keeps canon_closed
    apply fsetB_keeps canon_closed
    apply fset_keeps canon_closed
    apply fset_keeps canon_closed
    exact ⟨regsMap_wf (fun a w => if AON ≤ a ∧ a < AON + 0x1000 then some w else none) s, rfl, rfl, rfl, rfl, rfl, rfl⟩

end Sys2Proof.Laws
end

