-- ==== Sys2Proof/Laws/KPower.lean ====
section
/-! SUPPORT. The operations of Machine/Power.lean keep every property closed under the writers that they reach. -/

namespace Sys2Proof.Laws
open Sys2Proof.Machine

set_option linter.unreachableTactic false
set_option linter.unusedTactic false
set_option linter.unusedVariables false

theorem aonReset_keeps {P : State → Prop} (hP : Closed P) (hI : ClosedIx P) (s : State) (hs0 : P s) : P (aonReset s) := by
  unfold aonReset
  repeat' (first | (with_reducible assumption) | (intro _) | (with_reducible apply regsMap_keeps) | (with_reducible apply ixDrop_keeps) | (with_reducible apply starterDrop_keeps) | (fail_if_no_progress with_reducible apply Closed.other hP) | (dsimp only [-Nat.reducePow, Option.getD_some, Option.getD_none]) | (with_reducible apply ite_keeps) | split | (refine of_fst (by with_reducible assumption) ?_) | (refine of_snd (by with_reducible assumption) ?_) | (refine of_snd2 (by with_reducible assumption) ?_) | (refine of_mid (by with_reducible assumption) ?_) | (refine of_getD (s := s) (by with_reducible assumption) ?_))

theorem waypGo_keeps {P : State → Prop} (hP : Closed P) (s : State) (hs0 : P s) : P (waypGo s) := by
  unfold waypGo
  repeat' (first | (with_reducible assumption) | (intro _) | (with_reducible apply rampMore_keeps) | (fail_if_no_progress with_reducible apply Closed.other hP) | (dsimp only [-Nat.reducePow, Option.getD_some, Option.getD_none]) | (with_reducible apply ite_keeps) | split | (refine of_fst (by with_reducible assumption) ?_) | (refine of_snd (by with_reducible assumption) ?_) | (refine of_snd2 (by with_reducible assumption) ?_) | (refine of_mid (by with_reducible assumption) ?_) | (refine of_getD (s := s) (by with_reducible assumption) ?_))

theorem decideStart_keeps {P : State → Prop} (hP : Closed P) (hI : ClosedIx P) (hC : ClosedCold P) (hR : ClosedRestore P) (s : State) (hs0 : P s) : P (decideStart s) := by
  unfold decideStart
  dsimp only
  split
  · apply waypGo_keeps hP
    apply fset_keeps hP
    apply hP.other
    exact restoreImg_keeps hP hI _ (hR.restore s hs0)
  · exact coldBegin_keeps hP hC _ _ s hs0

theorem regulatorSettled_keeps {P : State → Prop} (hP : Closed P) (s : State) (hs0 : P s) : P (regulatorSettled s) := by
  unfold regulatorSettled
  repeat' (first | (with_reducible assumption) | (intro _) | (with_reducible apply rampMore_keeps) | (fail_if_no_progress with_reducible apply Closed.other hP) | (dsimp only [-Nat.reducePow, Option.getD_some, Option.getD_none]) | (with_reducible apply ite_keeps) | split | (refine of_fst (by with_reducible assumption) ?_) | (refine of_snd (by with_reducible assumption) ?_) | (refine of_snd2 (by with_reducible assumption) ?_) | (refine of_mid (by with_reducible assumption) ?_) | (refine of_getD (s := s) (by with_reducible assumption) ?_))

theorem bankImage_keeps {P : State → Prop} (hP : Closed P) (hS : ClosedStrm P) (hA : ClosedAcct P) (hW : ClosedWay P) (hC : ClosedCold P) (ok : Bool) (s : State) (hs0 : P s) : P (bankImage ok s) := by
  unfold bankImage
  repeat' (first | (with_reducible assumption) | (intro _) | (with_reducible apply rgSet_keeps) | (with_reducible apply fset_keeps) | (with_reducible apply takeFree_keeps) | (with_reducible apply emit_keeps) | (with_reducible apply coldBegin_keeps) | (with_reducible apply exitDone_keeps) | (with_reducible apply sleepPause_keeps) | (fail_if_no_progress with_reducible apply Closed.other hP) | (dsimp only [-Nat.reducePow, Option.getD_some, Option.getD_none]) | (with_reducible apply ite_keeps) | split | (refine of_fst (by with_reducible assumption) ?_) | (refine of_snd (by with_reducible assumption) ?_) | (refine of_snd2 (by with_reducible assumption) ?_) | (refine of_mid (by with_reducible assumption) ?_) | (refine of_getD (s := s) (by with_reducible assumption) ?_))

theorem unitOn_keeps {P : State → Prop} (hP : Closed P) (d : Nat) (s : State) (hs0 : P s) : P (unitOn d s) := by
  unfold unitOn
  repeat' (first | (with_reducible assumption) | (intro _) | (with_reducible apply toDetect_keeps) | (with_reducible apply setChState_keeps) | (fail_if_no_progress with_reducible apply Closed.other hP) | (dsimp only [-Nat.reducePow, Option.getD_some, Option.getD_none]) | (with_reducible apply ite_keeps) | split | (refine of_fst (by with_reducible assumption) ?_) | (refine of_snd (by with_reducible assumption) ?_) | (refine of_snd2 (by with_reducible assumption) ?_) | (refine of_mid (by with_reducible assumption) ?_) | (refine of_getD (s := s) (by with_reducible assumption) ?_))

theorem domOn_keeps {P : State → Prop} (hP : Closed P) (hI : ClosedIx P) (hC : ClosedCold P) (hR : ClosedRestore P) (d : Nat) (len8 : Nat) (s : State) (hs0 : P s) : P (domOn d len8 s) := by
  unfold domOn
  repeat' (first | (with_reducible assumption) | (intro _) | (with_reducible apply fset_keeps) | (with_reducible apply rampFuel_keeps) | (with_reducible apply rampMore_keeps) | (with_reducible apply coldDone_keeps) | (with_reducible apply decideStart_keeps) | (with_reducible apply unitOn_keeps) | (with_reducible apply optMap_keeps) | (with_reducible apply optGet_keeps) | (fail_if_no_progress with_reducible apply Closed.other hP) | (dsimp only [-Nat.reducePow, Option.getD_some, Option.getD_none]) | (with_reducible apply ite_keeps) | split | (refine of_fst (by with_reducible assumption) ?_) | (refine of_snd (by with_reducible assumption) ?_) | (refine of_snd2 (by with_reducible assumption) ?_) | (refine of_mid (by with_reducible assumption) ?_) | (refine of_getD (s := s) (by with_reducible assumption) ?_))

theorem rampStage_keeps {P : State → Prop} (hP : Closed P) (hI : ClosedIx P) (hC : ClosedCold P) (hR : ClosedRestore P) (d : Nat) (s : State) (hs0 : P s) : P (rampStage d s) := by
  unfold rampStage
  repeat' (first | (with_reducible assumption) | (intro _) | (with_reducible apply takeFree_keeps) | (with_reducible apply onlyIf_keeps) | (with_reducible apply advanceTo8_keeps) | (with_reducible apply domOn_keeps) | (with_reducible apply optMap_keeps) | (with_reducible apply optGet_keeps) | (fail_if_no_progress with_reducible apply Closed.other hP) | (dsimp only [-Nat.reducePow, Option.getD_some, Option.getD_none]) | (with_reducible apply ite_keeps) | split | (refine of_fst (by with_reducible assumption) ?_) | (refine of_snd (by with_reducible assumption) ?_) | (refine of_snd2 (by with_reducible assumption) ?_) | (refine of_mid (by with_reducible assumption) ?_) | (refine of_getD (s := s) (by with_reducible assumption) ?_))

theorem coreLost_keeps {P : State → Prop} (hP : Closed P) (mode : PMode) (s : State) (hs0 : P s) : P (coreLost mode s) := by
  unfold coreLost
  repeat' (first | (with_reducible assumption) | (intro _) | (with_reducible apply starterDrop_keeps) | (with_reducible apply gatesOpen_keeps) | (fail_if_no_progress with_reducible apply Closed.other hP) | (dsimp only [-Nat.reducePow, Option.getD_some, Option.getD_none]) | (with_reducible apply ite_keeps) | split | (refine of_fst (by with_reducible assumption) ?_) | (refine of_snd (by with_reducible assumption) ?_) | (refine of_snd2 (by with_reducible assumption) ?_) | (refine of_mid (by with_reducible assumption) ?_) | (refine of_getD (s := s) (by with_reducible assumption) ?_))

theorem chanGate_keeps {P : State → Prop} (hP : Closed P) (hS : ClosedStrm P) (hW : ClosedWay P) (c : Fin 16) (s : State) (hs0 : P s) : P (chanGate c s) := by
  unfold chanGate
  repeat' (first | (with_reducible assumption) | (intro _) | (with_reducible apply fsetB_keeps) | (with_reducible apply updChan_keeps) | (with_reducible apply updPhy_keeps) | (with_reducible apply fsetBit_keeps) | (with_reducible apply setChState_keeps) | (with_reducible apply stopPhy_keeps) | (with_reducible apply clearChan_keeps) | (with_reducible apply channelLost_keeps) | (with_reducible apply trainAbort_keeps) | (fail_if_no_progress with_reducible apply Closed.other hP) | (dsimp only [-Nat.reducePow, Option.getD_some, Option.getD_none]) | (with_reducible apply ite_keeps) | split | (refine of_fst (by with_reducible assumption) ?_) | (refine of_snd (by with_reducible assumption) ?_) | (refine of_snd2 (by with_reducible assumption) ?_) | (refine of_mid (by with_reducible assumption) ?_) | (refine of_getD (s := s) (by with_reducible assumption) ?_))

theorem gateFault_keeps {P : State → Prop} (hP : Closed P) (hI : ClosedIx P) (hS : ClosedStrm P) (hA : ClosedAcct P) (hD : ClosedDram P) (hW : ClosedWay P) (d : Nat) (c : GateCause) (s : State) (hs0 : P s) : P (gateFault d c s) := by
  unfold gateFault
  repeat' (first | (with_reducible assumption) | (intro _) | (with_reducible apply fset_keeps) | (with_reducible apply fsetB_keeps) | (with_reducible apply fbump_keeps) | (with_reducible apply irq_keeps) | (with_reducible apply emit_keeps) | (with_reducible apply onlyIf_keeps) | (with_reducible apply fsetBit_keeps) | (with_reducible apply settle_keeps) | (with_reducible apply rampFuel_keeps) | (with_reducible apply coldDone_keeps) | (with_reducible apply dozeCheck_keeps) | (with_reducible apply portOff_keeps) | (with_reducible apply resumeCheck_keeps) | (with_reducible apply coreLost_keeps) | (with_reducible apply chanGate_keeps) | (fail_if_no_progress with_reducible apply Closed.other hP) | (dsimp only [-Nat.reducePow, Option.getD_some, Option.getD_none]) | (with_reducible apply ite_keeps) | split | (refine of_fst (by with_reducible assumption) ?_) | (refine of_snd (by with_reducible assumption) ?_) | (refine of_snd2 (by with_reducible assumption) ?_) | (refine of_mid (by with_reducible assumption) ?_) | (refine of_getD (s := s) (by with_reducible assumption) ?_))

theorem powerRetry_keeps {P : State → Prop} (hP : Closed P) (d : Nat) (s : State) (hs0 : P s) : P (powerRetry d s).1 := by
  unfold powerRetry
  repeat' (first | (with_reducible assumption) | (intro _) | (with_reducible apply fsetBit_keeps) | (with_reducible apply rampMore_keeps) | (fail_if_no_progress with_reducible apply Closed.other hP) | (dsimp only [-Nat.reducePow, Option.getD_some, Option.getD_none]) | (with_reducible apply ite_keeps) | split | (refine of_fst (by with_reducible assumption) ?_) | (refine of_snd (by with_reducible assumption) ?_) | (refine of_snd2 (by with_reducible assumption) ?_) | (refine of_mid (by with_reducible assumption) ?_) | (refine of_getD (s := s) (by with_reducible assumption) ?_))

theorem retryVerb_keeps {P : State → Prop} (hP : Closed P) (d : Nat) (s : State) (hs0 : P s) : P (retryVerb d s).1 := by
  unfold retryVerb
  repeat' (first | (with_reducible assumption) | (intro _) | (with_reducible apply fset_keeps) | (with_reducible apply powerRetry_keeps) | (fail_if_no_progress with_reducible apply Closed.other hP) | (dsimp only [-Nat.reducePow, Option.getD_some, Option.getD_none]) | (with_reducible apply ite_keeps) | split | (refine of_fst (by with_reducible assumption) ?_) | (refine of_snd (by with_reducible assumption) ?_) | (refine of_snd2 (by with_reducible assumption) ?_) | (refine of_mid (by with_reducible assumption) ?_) | (refine of_getD (s := s) (by with_reducible assumption) ?_))

theorem flushPause_keeps {P : State → Prop} (hP : Closed P) (c : Fin 16) (s : State) (hs0 : P s) : P (flushPause c s) := by
  unfold flushPause
  repeat' (first | (with_reducible assumption) | (intro _) | (with_reducible apply updPhy_keeps) | (with_reducible apply stopUntil_keeps) | (with_reducible apply cutPause_keeps) | (with_reducible apply refreshOwed_keeps) | (fail_if_no_progress with_reducible apply Closed.other hP) | (dsimp only [-Nat.reducePow, Option.getD_some, Option.getD_none]) | (with_reducible apply ite_keeps) | split | (refine of_fst (by with_reducible assumption) ?_) | (refine of_snd (by with_reducible assumption) ?_) | (refine of_snd2 (by with_reducible assumption) ?_) | (refine of_mid (by with_reducible assumption) ?_) | (refine of_getD (s := s) (by with_reducible assumption) ?_))

theorem flushStart_keeps {P : State → Prop} (hP : Closed P) (hS : ClosedStrm P) (hW : ClosedWay P) (s : State) (hs0 : P s) : P (flushStart s) := by
  unfold flushStart
  repeat' (first | (with_reducible assumption) | (intro _) | (with_reducible apply fset_keeps) | (with_reducible apply irq_keeps) | (with_reducible apply emit_keeps) | (with_reducible apply forAll_keeps) | (with_reducible apply voidTags_keeps) | (with_reducible apply endSlices_keeps) | (with_reducible apply flushPause_keeps) | (fail_if_no_progress with_reducible apply Closed.other hP) | (dsimp only [-Nat.reducePow, Option.getD_some, Option.getD_none]) | (with_reducible apply ite_keeps) | split | (refine of_fst (by with_reducible assumption) ?_) | (refine of_snd (by with_reducible assumption) ?_) | (refine of_snd2 (by with_reducible assumption) ?_) | (refine of_mid (by with_reducible assumption) ?_) | (refine of_getD (s := s) (by with_reducible assumption) ?_))

theorem pfailSeen_keeps {P : State → Prop} (hP : Closed P) (hS : ClosedStrm P) (hW : ClosedWay P) (s : State) (hs0 : P s) : P (pfailSeen s) := by
  unfold pfailSeen
  repeat' (first | (with_reducible assumption) | (intro _) | (with_reducible apply fset_keeps) | (with_reducible apply answer_keeps) | (with_reducible apply sleepAbort_keeps) | (with_reducible apply workAbort_keeps) | (with_reducible apply flushStart_keeps) | (fail_if_no_progress with_reducible apply Closed.other hP) | (dsimp only [-Nat.reducePow, Option.getD_some, Option.getD_none]) | (with_reducible apply ite_keeps) | split | (refine of_fst (by with_reducible assumption) ?_) | (refine of_snd (by with_reducible assumption) ?_) | (refine of_snd2 (by with_reducible assumption) ?_) | (refine of_mid (by with_reducible assumption) ?_) | (refine of_getD (s := s) (by with_reducible assumption) ?_))

theorem pfail_keeps {P : State → Prop} (hP : Closed P) (hS : ClosedStrm P) (hW : ClosedWay P) (lowNs : Nat) (s : State) (hs0 : P s) : P (pfail lowNs s) := by
  unfold pfail
  repeat' (first | (with_reducible assumption) | (intro _) | (with_reducible apply takeFree_keeps) | (with_reducible apply pfailSeen_keeps) | (fail_if_no_progress with_reducible apply Closed.other hP) | (dsimp only [-Nat.reducePow, Option.getD_some, Option.getD_none]) | (with_reducible apply ite_keeps) | split | (refine of_fst (by with_reducible assumption) ?_) | (refine of_snd (by with_reducible assumption) ?_) | (refine of_snd2 (by with_reducible assumption) ?_) | (refine of_mid (by with_reducible assumption) ?_) | (refine of_getD (s := s) (by with_reducible assumption) ?_))

theorem finishWay_keeps {P : State → Prop} (hP : Closed P) (hS : ClosedStrm P) (hW : ClosedWay P) (x0 : Nat) (x1 : State) (hs0 : P x1) : P (finishWay x0 x1) := by
  fun_induction finishWay x0 x1
  all_goals repeat' (first | (with_reducible assumption) | (intro _) | (with_reducible apply accessComplete_keeps) | (fail_if_no_progress with_reducible apply Closed.other hP) | (dsimp only [-Nat.reducePow, Option.getD_some, Option.getD_none]) | (with_reducible apply ite_keeps) | split | (refine of_fst (by with_reducible assumption) ?_) | (refine of_snd (by with_reducible assumption) ?_) | (refine of_snd2 (by with_reducible assumption) ?_) | (refine of_mid (by with_reducible assumption) ?_) | (refine of_getD (s := x1) (by with_reducible assumption) ?_) | apply_assumption)

theorem parkFlush_keeps {P : State → Prop} (hP : Closed P) (c : Fin 16) (s : State) (hs0 : P s) : P (parkFlush c s) := by
  unfold parkFlush
  repeat' (first | (with_reducible assumption) | (intro _) | (with_reducible apply clearChan_keeps) | (with_reducible apply refreshAll_keeps) | (with_reducible apply selfRefresh_keeps) | (with_reducible apply trainAbort_keeps) | (fail_if_no_progress with_reducible apply Closed.other hP) | (dsimp only [-Nat.reducePow, Option.getD_some, Option.getD_none]) | (with_reducible apply ite_keeps) | split | (refine of_fst (by with_reducible assumption) ?_) | (refine of_snd (by with_reducible assumption) ?_) | (refine of_snd2 (by with_reducible assumption) ?_) | (refine of_mid (by with_reducible assumption) ?_) | (refine of_getD (s := s) (by with_reducible assumption) ?_))

theorem pfailRise_keeps {P : State → Prop} (hP : Closed P) (s : State) (hs0 : P s) : P (pfailRise s) := by
  unfold pfailRise
  repeat' (first | (with_reducible assumption) | (intro _) | (with_reducible apply retFall_keeps) | (fail_if_no_progress with_reducible apply Closed.other hP) | (dsimp only [-Nat.reducePow, Option.getD_some, Option.getD_none]) | (with_reducible apply ite_keeps) | split | (refine of_fst (by with_reducible assumption) ?_) | (refine of_snd (by with_reducible assumption) ?_) | (refine of_snd2 (by with_reducible assumption) ?_) | (refine of_mid (by with_reducible assumption) ?_) | (refine of_getD (s := s) (by with_reducible assumption) ?_))

theorem flushDone_keeps {P : State → Prop} (hP : Closed P) (hI : ClosedIx P) (hS : ClosedStrm P) (hD : ClosedDram P) (hW : ClosedWay P) (s : State) (hs0 : P s) : P (flushDone s) := by
  unfold flushDone
  repeat' (first | (with_reducible assumption) | (intro _) | (with_reducible apply fset_keeps) | (with_reducible apply emit_keeps) | (with_reducible apply forAll_keeps) | (with_reducible apply reapCaravans_keeps) | (with_reducible apply finishLine_keeps) | (with_reducible apply flushAll_keeps) | (with_reducible apply starterSave_keeps) | (with_reducible apply finishWay_keeps) | (with_reducible apply parkFlush_keeps) | (with_reducible apply pfailRise_keeps) | (fail_if_no_progress with_reducible apply Closed.other hP) | (dsimp only [-Nat.reducePow, Option.getD_some, Option.getD_none]) | (with_reducible apply ite_keeps) | split | (refine of_fst (by with_reducible assumption) ?_) | (refine of_snd (by with_reducible assumption) ?_) | (refine of_snd2 (by with_reducible assumption) ?_) | (refine of_mid (by with_reducible assumption) ?_) | (refine of_getD (s := s) (by with_reducible assumption) ?_))

theorem pfailRelease_keeps {P : State → Prop} (hP : Closed P) (s : State) (hs0 : P s) : P (pfailRelease s) := by
  unfold pfailRelease
  repeat' (first | (with_reducible assumption) | (intro _) | (with_reducible apply pfailRise_keeps) | (fail_if_no_progress with_reducible apply Closed.other hP) | (dsimp only [-Nat.reducePow, Option.getD_some, Option.getD_none]) | (with_reducible apply ite_keeps) | split | (refine of_fst (by with_reducible assumption) ?_) | (refine of_snd (by with_reducible assumption) ?_) | (refine of_snd2 (by with_reducible assumption) ?_) | (refine of_mid (by with_reducible assumption) ?_) | (refine of_getD (s := s) (by with_reducible assumption) ?_))

theorem retentionSettle_keeps {P : State → Prop} (hP : Closed P) (hS : ClosedStrm P) (hA : ClosedAcct P) (hW : ClosedWay P) (s : State) (hs0 : P s) : P (retentionSettle s) := by
  unfold retentionSettle
  repeat' (first | (with_reducible assumption) | (intro _) | (with_reducible apply emit_keeps) | (with_reducible apply advanceTo8_keeps) | (with_reducible apply warmReset_keeps) | (with_reducible apply waypGo_keeps) | (fail_if_no_progress with_reducible apply Closed.other hP) | (dsimp only [-Nat.reducePow, Option.getD_some, Option.getD_none]) | (with_reducible apply ite_keeps) | split | (refine of_fst (by with_reducible assumption) ?_) | (refine of_snd (by with_reducible assumption) ?_) | (refine of_snd2 (by with_reducible assumption) ?_) | (refine of_mid (by with_reducible assumption) ?_) | (refine of_getD (s := s) (by with_reducible assumption) ?_))

theorem supplyLoss_keeps {P : State → Prop} (hP : Closed P) (hS : ClosedStrm P) (hA : ClosedAcct P) (hW : ClosedWay P) (s : State) (hs0 : P s) : P (supplyLoss s) := by
  unfold supplyLoss
  repeat' (first | (with_reducible assumption) | (intro _) | (with_reducible apply coreReset_keeps) | (with_reducible apply bankLost_keeps) | (with_reducible apply gatesOpen_keeps) | (with_reducible apply coreLost_keeps) | (fail_if_no_progress with_reducible apply Closed.other hP) | (dsimp only [-Nat.reducePow, Option.getD_some, Option.getD_none]) | (with_reducible apply ite_keeps) | split | (refine of_fst (by with_reducible assumption) ?_) | (refine of_snd (by with_reducible assumption) ?_) | (refine of_snd2 (by with_reducible assumption) ?_) | (refine of_mid (by with_reducible assumption) ?_) | (refine of_getD (s := s) (by with_reducible assumption) ?_))

theorem resetLow_keeps {P : State → Prop} (hP : Closed P) (hI : ClosedIx P) (hS : ClosedStrm P) (hA : ClosedAcct P) (hD : ClosedDram P) (hW : ClosedWay P) (s : State) (hs0 : P s) : P (resetLow s) := by
  unfold resetLow
  repeat' (first | (with_reducible assumption) | (intro _) | (with_reducible apply warmTrigger_keeps) | (with_reducible apply dozeWake_keeps) | (with_reducible apply wakeBy_keeps) | (fail_if_no_progress with_reducible apply Closed.other hP) | (dsimp only [-Nat.reducePow, Option.getD_some, Option.getD_none]) | (with_reducible apply ite_keeps) | split | (refine of_fst (by with_reducible assumption) ?_) | (refine of_snd (by with_reducible assumption) ?_) | (refine of_snd2 (by with_reducible assumption) ?_) | (refine of_mid (by with_reducible assumption) ?_) | (refine of_getD (s := s) (by with_reducible assumption) ?_))

theorem resetN_keeps {P : State → Prop} (hP : Closed P) (hI : ClosedIx P) (hS : ClosedStrm P) (hA : ClosedAcct P) (hD : ClosedDram P) (hW : ClosedWay P) (lowNs : Nat) (s : State) (hs0 : P s) : P (resetN lowNs s) := by
  unfold resetN
  repeat' (first | (with_reducible assumption) | (intro _) | (with_reducible apply takeFree_keeps) | (with_reducible apply resetLow_keeps) | (fail_if_no_progress with_reducible apply Closed.other hP) | (dsimp only [-Nat.reducePow, Option.getD_some, Option.getD_none]) | (with_reducible apply ite_keeps) | split | (refine of_fst (by with_reducible assumption) ?_) | (refine of_snd (by with_reducible assumption) ?_) | (refine of_snd2 (by with_reducible assumption) ?_) | (refine of_mid (by with_reducible assumption) ?_) | (refine of_getD (s := s) (by with_reducible assumption) ?_))

theorem startOff_keeps {P : State → Prop} (hP : Closed P) (hC : ClosedCold P) (s : State) (hs0 : P s) : P (startOff s) := by
  unfold startOff
  repeat' (first | (with_reducible assumption) | (intro _) | (with_reducible apply rampMore_keeps) | (with_reducible apply coldBegin_keeps) | (with_reducible apply lastWake_keeps) | (with_reducible apply retFall_keeps) | (fail_if_no_progress with_reducible apply Closed.other hP) | (dsimp only [-Nat.reducePow, Option.getD_some, Option.getD_none]) | (with_reducible apply ite_keeps) | split | (refine of_fst (by with_reducible assumption) ?_) | (refine of_snd (by with_reducible assumption) ?_) | (refine of_snd2 (by with_reducible assumption) ?_) | (refine of_mid (by with_reducible assumption) ?_) | (refine of_getD (s := s) (by with_reducible assumption) ?_))

theorem resetRelease_keeps {P : State → Prop} (hP : Closed P) (hI : ClosedIx P) (hS : ClosedStrm P) (hA : ClosedAcct P) (hD : ClosedDram P) (hW : ClosedWay P) (hC : ClosedCold P) (s : State) (hs0 : P s) : P (resetRelease s) := by
  unfold resetRelease
  repeat' (first | (with_reducible assumption) | (intro _) | (with_reducible apply settle_keeps) | (with_reducible apply warmGo_keeps) | (with_reducible apply coldBegin_keeps) | (with_reducible apply startOff_keeps) | (fail_if_no_progress with_reducible apply Closed.other hP) | (dsimp only [-Nat.reducePow, Option.getD_some, Option.getD_none]) | (with_reducible apply ite_keeps) | split | (refine of_fst (by with_reducible assumption) ?_) | (refine of_snd (by with_reducible assumption) ?_) | (refine of_snd2 (by with_reducible assumption) ?_) | (refine of_mid (by with_reducible assumption) ?_) | (refine of_getD (s := s) (by with_reducible assumption) ?_))

theorem powerOn_keeps {P : State → Prop} (hP : Closed P) (hI : ClosedIx P) (s : State) (hs0 : P s) : P (powerOn s) := by
  unfold powerOn
  repeat' (first | (with_reducible assumption) | (intro _) | (with_reducible apply aonReset_keeps) | (fail_if_no_progress with_reducible apply Closed.other hP) | (dsimp only [-Nat.reducePow, Option.getD_some, Option.getD_none]) | (with_reducible apply ite_keeps) | split | (refine of_fst (by with_reducible assumption) ?_) | (refine of_snd (by with_reducible assumption) ?_) | (refine of_snd2 (by with_reducible assumption) ?_) | (refine of_mid (by with_reducible assumption) ?_) | (refine of_getD (s := s) (by with_reducible assumption) ?_))

theorem vinOff_keeps {P : State → Prop} (hP : Closed P) (hI : ClosedIx P) (s : State) (hs0 : P s) : P (vinOff s) := by
  unfold vinOff
  repeat' (first | (with_reducible assumption) | (intro _) | (with_reducible apply aonReset_keeps) | (with_reducible apply coreLost_keeps) | (fail_if_no_progress with_reducible apply Closed.other hP) | (dsimp only [-Nat.reducePow, Option.getD_some, Option.getD_none]) | (with_reducible apply ite_keeps) | split | (refine of_fst (by with_reducible assumption) ?_) | (refine of_snd (by with_reducible assumption) ?_) | (refine of_snd2 (by with_reducible assumption) ?_) | (refine of_mid (by with_reducible assumption) ?_) | (refine of_getD (s := s) (by with_reducible assumption) ?_))

theorem brownout_keeps {P : State → Prop} (hP : Closed P) (hI : ClosedIx P) (s : State) (hs0 : P s) : P (brownout s) := by
  unfold brownout
  repeat' (first | (with_reducible assumption) | (intro _) | (with_reducible apply fset_keeps) | (with_reducible apply aonReset_keeps) | (fail_if_no_progress with_reducible apply Closed.other hP) | (dsimp only [-Nat.reducePow, Option.getD_some, Option.getD_none]) | (with_reducible apply ite_keeps) | split | (refine of_fst (by with_reducible assumption) ?_) | (refine of_snd (by with_reducible assumption) ?_) | (refine of_snd2 (by with_reducible assumption) ?_) | (refine of_mid (by with_reducible assumption) ?_) | (refine of_getD (s := s) (by with_reducible assumption) ?_))

theorem execAonRegulatorSettled_keeps {P : State → Prop} (hP : Closed P) (s : State) (hs0 : P s) : ∀ out, execAonRegulatorSettled s = .next out → P out := by
  unfold execAonRegulatorSettled
  intro out hout
  obtain rfl := Host.Outcome.next.inj hout
  repeat' (first | (with_reducible assumption) | (intro _) | (with_reducible apply regulatorSettled_keeps) | (fail_if_no_progress with_reducible apply Closed.other hP) | (dsimp only [-Nat.reducePow, Option.getD_some, Option.getD_none]) | (with_reducible apply ite_keeps) | split | (refine of_fst (by with_reducible assumption) ?_) | (refine of_snd (by with_reducible assumption) ?_) | (refine of_snd2 (by with_reducible assumption) ?_) | (refine of_mid (by with_reducible assumption) ?_) | (refine of_getD (s := s) (by with_reducible assumption) ?_))

theorem execBankImageRestored_keeps {P : State → Prop} (hP : Closed P) (hS : ClosedStrm P) (hA : ClosedAcct P) (hW : ClosedWay P) (hC : ClosedCold P) (ok : Bool) (s : State) (hs0 : P s) : ∀ out, execBankImageRestored ok s = .next out → P out := by
  unfold execBankImageRestored
  intro out hout
  obtain rfl := Host.Outcome.next.inj hout
  repeat' (first | (with_reducible assumption) | (intro _) | (with_reducible apply bankImage_keeps) | (fail_if_no_progress with_reducible apply Closed.other hP) | (dsimp only [-Nat.reducePow, Option.getD_some, Option.getD_none]) | (with_reducible apply ite_keeps) | split | (refine of_fst (by with_reducible assumption) ?_) | (refine of_snd (by with_reducible assumption) ?_) | (refine of_snd2 (by with_reducible assumption) ?_) | (refine of_mid (by with_reducible assumption) ?_) | (refine of_getD (s := s) (by with_reducible assumption) ?_))

theorem execRetentionSettle_keeps {P : State → Prop} (hP : Closed P) (hS : ClosedStrm P) (hA : ClosedAcct P) (hW : ClosedWay P) (s : State) (hs0 : P s) : ∀ out, execRetentionSettle s = .next out → P out := by
  unfold execRetentionSettle
  intro out hout
  obtain rfl := Host.Outcome.next.inj hout
  repeat' (first | (with_reducible assumption) | (intro _) | (with_reducible apply retentionSettle_keeps) | (fail_if_no_progress with_reducible apply Closed.other hP) | (dsimp only [-Nat.reducePow, Option.getD_some, Option.getD_none]) | (with_reducible apply ite_keeps) | split | (refine of_fst (by with_reducible assumption) ?_) | (refine of_snd (by with_reducible assumption) ?_) | (refine of_snd2 (by with_reducible assumption) ?_) | (refine of_mid (by with_reducible assumption) ?_) | (refine of_getD (s := s) (by with_reducible assumption) ?_))

theorem execGateRampStage_keeps {P : State → Prop} (hP : Closed P) (hI : ClosedIx P) (hC : ClosedCold P) (hR : ClosedRestore P) (dom : Fin 23) (s : State) (hs0 : P s) : ∀ out, execGateRampStage dom s = .next out → P out := by
  unfold execGateRampStage
  intro out hout
  obtain rfl := Host.Outcome.next.inj hout
  repeat' (first | (with_reducible assumption) | (intro _) | (with_reducible apply rampStage_keeps) | (fail_if_no_progress with_reducible apply Closed.other hP) | (dsimp only [-Nat.reducePow, Option.getD_some, Option.getD_none]) | (with_reducible apply ite_keeps) | split | (refine of_fst (by with_reducible assumption) ?_) | (refine of_snd (by with_reducible assumption) ?_) | (refine of_snd2 (by with_reducible assumption) ?_) | (refine of_mid (by with_reducible assumption) ?_) | (refine of_getD (s := s) (by with_reducible assumption) ?_))

theorem execGateFault_keeps {P : State → Prop} (hP : Closed P) (hI : ClosedIx P) (hS : ClosedStrm P) (hA : ClosedAcct P) (hD : ClosedDram P) (hW : ClosedWay P) (dom : Fin 23) (cause : GatePick) (s : State) (hs0 : P s) : ∀ out, execGateFault dom cause s = .next out → P out := by
  unfold execGateFault
  intro out hout
  obtain rfl := Host.Outcome.next.inj hout
  repeat' (first | (with_reducible assumption) | (intro _) | (with_reducible apply actAll_keeps) | (with_reducible apply gateFault_keeps) | (fail_if_no_progress with_reducible apply Closed.other hP) | (dsimp only [-Nat.reducePow, Option.getD_some, Option.getD_none]) | (with_reducible apply ite_keeps) | split | (refine of_fst (by with_reducible assumption) ?_) | (refine of_snd (by with_reducible assumption) ?_) | (refine of_snd2 (by with_reducible assumption) ?_) | (refine of_mid (by with_reducible assumption) ?_) | (refine of_getD (s := s) (by with_reducible assumption) ?_))

theorem execPowerRetry_keeps {P : State → Prop} (hP : Closed P) (dom : Nat) (s : State) (hs0 : P s) : ∀ out, execPowerRetry dom s = .next out → P out := by
  unfold execPowerRetry
  intro out hout
  obtain rfl := Host.Outcome.next.inj hout
  repeat' (first | (with_reducible assumption) | (intro _) | (with_reducible apply runVerb1_keeps) | (with_reducible apply retryVerb_keeps) | (fail_if_no_progress with_reducible apply Closed.other hP) | (dsimp only [-Nat.reducePow, Option.getD_some, Option.getD_none]) | (with_reducible apply ite_keeps) | split | (refine of_fst (by with_reducible assumption) ?_) | (refine of_snd (by with_reducible assumption) ?_) | (refine of_snd2 (by with_reducible assumption) ?_) | (refine of_mid (by with_reducible assumption) ?_) | (refine of_getD (s := s) (by with_reducible assumption) ?_))

theorem execBrownout_keeps {P : State → Prop} (hP : Closed P) (hI : ClosedIx P) (s : State) (hs0 : P s) : ∀ out, execBrownout s = .next out → P out := by
  unfold execBrownout
  intro out hout
  obtain rfl := Host.Outcome.next.inj hout
  repeat' (first | (with_reducible assumption) | (intro _) | (with_reducible apply brownout_keeps) | (fail_if_no_progress with_reducible apply Closed.other hP) | (dsimp only [-Nat.reducePow, Option.getD_some, Option.getD_none]) | (with_reducible apply ite_keeps) | split | (refine of_fst (by with_reducible assumption) ?_) | (refine of_snd (by with_reducible assumption) ?_) | (refine of_snd2 (by with_reducible assumption) ?_) | (refine of_mid (by with_reducible assumption) ?_) | (refine of_getD (s := s) (by with_reducible assumption) ?_))

theorem execRetentionLost_keeps {P : State → Prop} (hP : Closed P) (s : State) (hs0 : P s) : ∀ out, execRetentionLost s = .next out → P out := by
  unfold execRetentionLost
  intro out hout
  obtain rfl := Host.Outcome.next.inj hout
  repeat' (first | (with_reducible assumption) | (intro _) | (with_reducible apply fset_keeps) | (fail_if_no_progress with_reducible apply Closed.other hP) | (dsimp only [-Nat.reducePow, Option.getD_some, Option.getD_none]) | (with_reducible apply ite_keeps) | split | (refine of_fst (by with_reducible assumption) ?_) | (refine of_snd (by with_reducible assumption) ?_) | (refine of_snd2 (by with_reducible assumption) ?_) | (refine of_mid (by with_reducible assumption) ?_) | (refine of_getD (s := s) (by with_reducible assumption) ?_))

theorem execPowerOn_keeps {P : State → Prop} (hP : Closed P) (hI : ClosedIx P) (s : State) (hs0 : P s) : ∀ out, execPowerOn s = .next out → P out := by
  unfold execPowerOn
  intro out hout
  obtain rfl := Host.Outcome.next.inj hout
  repeat' (first | (with_reducible assumption) | (intro _) | (with_reducible apply powerOn_keeps) | (fail_if_no_progress with_reducible apply Closed.other hP) | (dsimp only [-Nat.reducePow, Option.getD_some, Option.getD_none]) | (with_reducible apply ite_keeps) | split | (refine of_fst (by with_reducible assumption) ?_) | (refine of_snd (by with_reducible assumption) ?_) | (refine of_snd2 (by with_reducible assumption) ?_) | (refine of_mid (by with_reducible assumption) ?_) | (refine of_getD (s := s) (by with_reducible assumption) ?_))

theorem execResetN_keeps {P : State → Prop} (hP : Closed P) (hI : ClosedIx P) (hS : ClosedStrm P) (hA : ClosedAcct P) (hD : ClosedDram P) (hW : ClosedWay P) (lowNs : Nat) (s : State) (hs0 : P s) : ∀ out, execResetN lowNs s = .next out → P out := by
  unfold execResetN
  intro out hout
  obtain rfl := Host.Outcome.next.inj hout
  repeat' (first | (with_reducible assumption) | (intro _) | (with_reducible apply resetN_keeps) | (fail_if_no_progress with_reducible apply Closed.other hP) | (dsimp only [-Nat.reducePow, Option.getD_some, Option.getD_none]) | (with_reducible apply ite_keeps) | split | (refine of_fst (by with_reducible assumption) ?_) | (refine of_snd (by with_reducible assumption) ?_) | (refine of_snd2 (by with_reducible assumption) ?_) | (refine of_mid (by with_reducible assumption) ?_) | (refine of_getD (s := s) (by with_reducible assumption) ?_))

theorem execResetNRelease_keeps {P : State → Prop} (hP : Closed P) (hI : ClosedIx P) (hS : ClosedStrm P) (hA : ClosedAcct P) (hD : ClosedDram P) (hW : ClosedWay P) (hC : ClosedCold P) (s : State) (hs0 : P s) : ∀ out, execResetNRelease s = .next out → P out := by
  unfold execResetNRelease
  intro out hout
  obtain rfl := Host.Outcome.next.inj hout
  repeat' (first | (with_reducible assumption) | (intro _) | (with_reducible apply resetRelease_keeps) | (fail_if_no_progress with_reducible apply Closed.other hP) | (dsimp only [-Nat.reducePow, Option.getD_some, Option.getD_none]) | (with_reducible apply ite_keeps) | split | (refine of_fst (by with_reducible assumption) ?_) | (refine of_snd (by with_reducible assumption) ?_) | (refine of_snd2 (by with_reducible assumption) ?_) | (refine of_mid (by with_reducible assumption) ?_) | (refine of_getD (s := s) (by with_reducible assumption) ?_))

theorem execPfail_keeps {P : State → Prop} (hP : Closed P) (hS : ClosedStrm P) (hW : ClosedWay P) (lowNs : Nat) (s : State) (hs0 : P s) : ∀ out, execPfail lowNs s = .next out → P out := by
  unfold execPfail
  intro out hout
  obtain rfl := Host.Outcome.next.inj hout
  repeat' (first | (with_reducible assumption) | (intro _) | (with_reducible apply pfail_keeps) | (fail_if_no_progress with_reducible apply Closed.other hP) | (dsimp only [-Nat.reducePow, Option.getD_some, Option.getD_none]) | (with_reducible apply ite_keeps) | split | (refine of_fst (by with_reducible assumption) ?_) | (refine of_snd (by with_reducible assumption) ?_) | (refine of_snd2 (by with_reducible assumption) ?_) | (refine of_mid (by with_reducible assumption) ?_) | (refine of_getD (s := s) (by with_reducible assumption) ?_))

theorem execPfailFlushDone_keeps {P : State → Prop} (hP : Closed P) (hI : ClosedIx P) (hS : ClosedStrm P) (hD : ClosedDram P) (hW : ClosedWay P) (s : State) (hs0 : P s) : ∀ out, execPfailFlushDone s = .next out → P out := by
  unfold execPfailFlushDone
  intro out hout
  obtain rfl := Host.Outcome.next.inj hout
  repeat' (first | (with_reducible assumption) | (intro _) | (with_reducible apply flushDone_keeps) | (fail_if_no_progress with_reducible apply Closed.other hP) | (dsimp only [-Nat.reducePow, Option.getD_some, Option.getD_none]) | (with_reducible apply ite_keeps) | split | (refine of_fst (by with_reducible assumption) ?_) | (refine of_snd (by with_reducible assumption) ?_) | (refine of_snd2 (by with_reducible assumption) ?_) | (refine of_mid (by with_reducible assumption) ?_) | (refine of_getD (s := s) (by with_reducible assumption) ?_))

theorem execPfailRelease_keeps {P : State → Prop} (hP : Closed P) (s : State) (hs0 : P s) : ∀ out, execPfailRelease s = .next out → P out := by
  unfold execPfailRelease
  intro out hout
  obtain rfl := Host.Outcome.next.inj hout
  repeat' (first | (with_reducible assumption) | (intro _) | (with_reducible apply pfailRelease_keeps) | (fail_if_no_progress with_reducible apply Closed.other hP) | (dsimp only [-Nat.reducePow, Option.getD_some, Option.getD_none]) | (with_reducible apply ite_keeps) | split | (refine of_fst (by with_reducible assumption) ?_) | (refine of_snd (by with_reducible assumption) ?_) | (refine of_snd2 (by with_reducible assumption) ?_) | (refine of_mid (by with_reducible assumption) ?_) | (refine of_getD (s := s) (by with_reducible assumption) ?_))

theorem execCoreSupplyLoss_keeps {P : State → Prop} (hP : Closed P) (hS : ClosedStrm P) (hA : ClosedAcct P) (hW : ClosedWay P) (s : State) (hs0 : P s) : ∀ out, execCoreSupplyLoss s = .next out → P out := by
  unfold execCoreSupplyLoss
  intro out hout
  obtain rfl := Host.Outcome.next.inj hout
  repeat' (first | (with_reducible assumption) | (intro _) | (with_reducible apply supplyLoss_keeps) | (fail_if_no_progress with_reducible apply Closed.other hP) | (dsimp only [-Nat.reducePow, Option.getD_some, Option.getD_none]) | (with_reducible apply ite_keeps) | split | (refine of_fst (by with_reducible assumption) ?_) | (refine of_snd (by with_reducible assumption) ?_) | (refine of_snd2 (by with_reducible assumption) ?_) | (refine of_mid (by with_reducible assumption) ?_) | (refine of_getD (s := s) (by with_reducible assumption) ?_))

theorem execVinAonOff_keeps {P : State → Prop} (hP : Closed P) (hI : ClosedIx P) (s : State) (hs0 : P s) : ∀ out, execVinAonOff s = .next out → P out := by
  unfold execVinAonOff
  intro out hout
  obtain rfl := Host.Outcome.next.inj hout
  repeat' (first | (with_reducible assumption) | (intro _) | (with_reducible apply vinOff_keeps) | (fail_if_no_progress with_reducible apply Closed.other hP) | (dsimp only [-Nat.reducePow, Option.getD_some, Option.getD_none]) | (with_reducible apply ite_keeps) | split | (refine of_fst (by with_reducible assumption) ?_) | (refine of_snd (by with_reducible assumption) ?_) | (refine of_snd2 (by with_reducible assumption) ?_) | (refine of_mid (by with_reducible assumption) ?_) | (refine of_getD (s := s) (by with_reducible assumption) ?_))

end Sys2Proof.Laws
end

