-- ==== Sys2Proof/Laws/KConIn.lean ====
section
/-! SUPPORT. The operations of Machine/ConIn.lean keep every property closed under the writers that they reach. -/

namespace Sys2Proof.Laws
open Sys2Proof.Machine

set_option linter.unreachableTactic false
set_option linter.unusedTactic false
set_option linter.unusedVariables false

theorem putU_keeps {P : State → Prop} (hP : Closed P) (l : List Byte) (s : State) (hs0 : P s) : P (putU l s) := by
  unfold putU
  repeat' (first | (with_reducible assumption) | (intro _) | (fail_if_no_progress with_reducible apply Closed.other hP) | (dsimp only [-Nat.reducePow, Option.getD_some, Option.getD_none]) | (with_reducible apply ite_keeps) | split | (refine of_fst (by with_reducible assumption) ?_) | (refine of_snd (by with_reducible assumption) ?_) | (refine of_snd2 (by with_reducible assumption) ?_) | (refine of_mid (by with_reducible assumption) ?_) | (refine of_getD (s := s) (by with_reducible assumption) ?_))

theorem putT_keeps {P : State → Prop} (hP : Closed P) (l : List Byte) (s : State) (hs0 : P s) : P (putT l s) := by
  unfold putT
  repeat' (first | (with_reducible assumption) | (intro _) | (with_reducible apply pump_keeps) | (fail_if_no_progress with_reducible apply Closed.other hP) | (dsimp only [-Nat.reducePow, Option.getD_some, Option.getD_none]) | (with_reducible apply ite_keeps) | split | (refine of_fst (by with_reducible assumption) ?_) | (refine of_snd (by with_reducible assumption) ?_) | (refine of_snd2 (by with_reducible assumption) ?_) | (refine of_mid (by with_reducible assumption) ?_) | (refine of_getD (s := s) (by with_reducible assumption) ?_))

theorem logEvent_keeps {P : State → Prop} (hP : Closed P) (t : Nat) (e : OutLn) (s : State) (hs0 : P s) : P (logEvent t e s) := by
  unfold logEvent
  repeat' (first | (with_reducible assumption) | (intro _) | (fail_if_no_progress with_reducible apply Closed.other hP) | (dsimp only [-Nat.reducePow, Option.getD_some, Option.getD_none]) | (with_reducible apply ite_keeps) | split | (refine of_fst (by with_reducible assumption) ?_) | (refine of_snd (by with_reducible assumption) ?_) | (refine of_snd2 (by with_reducible assumption) ?_) | (refine of_mid (by with_reducible assumption) ?_) | (refine of_getD (s := s) (by with_reducible assumption) ?_))

theorem lineT_keeps {P : State → Prop} (hP : Closed P) (l : List Byte) (s : State) (hs0 : P s) : P (lineT l s) := by
  unfold lineT
  repeat' (first | (with_reducible assumption) | (intro _) | (with_reducible apply fset_keeps) | (with_reducible apply fbump_keeps) | (with_reducible apply onlyIf_keeps) | (with_reducible apply putT_keeps) | (with_reducible apply logEvent_keeps) | (fail_if_no_progress with_reducible apply Closed.other hP) | (dsimp only [-Nat.reducePow, Option.getD_some, Option.getD_none]) | (with_reducible apply ite_keeps) | split | (refine of_fst (by with_reducible assumption) ?_) | (refine of_snd (by with_reducible assumption) ?_) | (refine of_snd2 (by with_reducible assumption) ?_) | (refine of_mid (by with_reducible assumption) ?_) | (refine of_getD (s := s) (by with_reducible assumption) ?_))

theorem sendLine_keeps {P : State → Prop} (hP : Closed P) (l : OutLn) (s : State) (hs0 : P s) : P (sendLine l s) := by
  unfold sendLine
  repeat' (first | (with_reducible assumption) | (intro _) | (with_reducible apply putU_keeps) | (with_reducible apply lineT_keeps) | (fail_if_no_progress with_reducible apply Closed.other hP) | (dsimp only [-Nat.reducePow, Option.getD_some, Option.getD_none]) | (with_reducible apply ite_keeps) | split | (refine of_fst (by with_reducible assumption) ?_) | (refine of_snd (by with_reducible assumption) ?_) | (refine of_snd2 (by with_reducible assumption) ?_) | (refine of_mid (by with_reducible assumption) ?_) | (refine of_getD (s := s) (by with_reducible assumption) ?_))

theorem prompt_keeps {P : State → Prop} (hP : Closed P) (s : State) (hs0 : P s) : P (prompt s) := by
  unfold prompt
  repeat' (first | (with_reducible assumption) | (intro _) | (with_reducible apply putU_keeps) | (with_reducible apply putT_keeps) | (fail_if_no_progress with_reducible apply Closed.other hP) | (dsimp only [-Nat.reducePow, Option.getD_some, Option.getD_none]) | (with_reducible apply ite_keeps) | split | (refine of_fst (by with_reducible assumption) ?_) | (refine of_snd (by with_reducible assumption) ?_) | (refine of_snd2 (by with_reducible assumption) ?_) | (refine of_mid (by with_reducible assumption) ?_) | (refine of_getD (s := s) (by with_reducible assumption) ?_))

theorem echoTo_keeps {P : State → Prop} (hP : Closed P) (tun : Bool) (l : List Byte) (s : State) (hs0 : P s) : P (echoTo tun l s) := by
  unfold echoTo
  repeat' (first | (with_reducible assumption) | (intro _) | (with_reducible apply putU_keeps) | (with_reducible apply putT_keeps) | (fail_if_no_progress with_reducible apply Closed.other hP) | (dsimp only [-Nat.reducePow, Option.getD_some, Option.getD_none]) | (with_reducible apply ite_keeps) | split | (refine of_fst (by with_reducible assumption) ?_) | (refine of_snd (by with_reducible assumption) ?_) | (refine of_snd2 (by with_reducible assumption) ?_) | (refine of_mid (by with_reducible assumption) ?_) | (refine of_getD (s := s) (by with_reducible assumption) ?_))

theorem echoEnd_keeps {P : State → Prop} (hP : Closed P) (tun : Bool) (s : State) (hs0 : P s) : P (echoEnd tun s) := by
  unfold echoEnd
  repeat' (first | (with_reducible assumption) | (intro _) | (with_reducible apply putU_keeps) | (with_reducible apply putT_keeps) | (fail_if_no_progress with_reducible apply Closed.other hP) | (dsimp only [-Nat.reducePow, Option.getD_some, Option.getD_none]) | (with_reducible apply ite_keeps) | split | (refine of_fst (by with_reducible assumption) ?_) | (refine of_snd (by with_reducible assumption) ?_) | (refine of_snd2 (by with_reducible assumption) ?_) | (refine of_mid (by with_reducible assumption) ?_) | (refine of_getD (s := s) (by with_reducible assumption) ?_))

theorem sendEvent_keeps {P : State → Prop} (hP : Closed P) (l : List OutLn) (s : State) (hs0 : P s) : P (sendEvent l s) := by
  unfold sendEvent
  repeat' (first | (with_reducible assumption) | (intro _) | (with_reducible apply forAll_keeps) | (with_reducible apply onlyIf_keeps) | (with_reducible apply putU_keeps) | (with_reducible apply putT_keeps) | (with_reducible apply sendLine_keeps) | (fail_if_no_progress with_reducible apply Closed.other hP) | (dsimp only [-Nat.reducePow, Option.getD_some, Option.getD_none]) | (with_reducible apply ite_keeps) | split | (refine of_fst (by with_reducible assumption) ?_) | (refine of_snd (by with_reducible assumption) ?_) | (refine of_snd2 (by with_reducible assumption) ?_) | (refine of_mid (by with_reducible assumption) ?_) | (refine of_getD (s := s) (by with_reducible assumption) ?_))

theorem lineEnd_keeps {P : State → Prop} (hP : Closed P) (tun : Bool) (s : State) (hs0 : P s) : P (lineEnd tun s) := by
  unfold lineEnd
  repeat' (first | (with_reducible assumption) | (intro _) | (with_reducible apply fset_keeps) | (with_reducible apply fbump_keeps) | (with_reducible apply onlyIf_keeps) | (with_reducible apply prompt_keeps) | (with_reducible apply echoEnd_keeps) | (fail_if_no_progress with_reducible apply Closed.other hP) | (dsimp only [-Nat.reducePow, Option.getD_some, Option.getD_none]) | (with_reducible apply ite_keeps) | split | (refine of_fst (by with_reducible assumption) ?_) | (refine of_snd (by with_reducible assumption) ?_) | (refine of_snd2 (by with_reducible assumption) ?_) | (refine of_mid (by with_reducible assumption) ?_) | (refine of_getD (s := s) (by with_reducible assumption) ?_))

theorem storeChar_keeps {P : State → Prop} (hP : Closed P) (tun : Bool) (b : Byte) (s : State) (hs0 : P s) : P (storeChar tun b s) := by
  unfold storeChar
  repeat' (first | (with_reducible assumption) | (intro _) | (with_reducible apply echoTo_keeps) | (fail_if_no_progress with_reducible apply Closed.other hP) | (dsimp only [-Nat.reducePow, Option.getD_some, Option.getD_none]) | (with_reducible apply ite_keeps) | split | (refine of_fst (by with_reducible assumption) ?_) | (refine of_snd (by with_reducible assumption) ?_) | (refine of_snd2 (by with_reducible assumption) ?_) | (refine of_mid (by with_reducible assumption) ?_) | (refine of_getD (s := s) (by with_reducible assumption) ?_))

theorem asmByte_keeps {P : State → Prop} (hP : Closed P) (x : ConByte) (s : State) (hs0 : P s) : P (asmByte x s) := by
  unfold asmByte
  repeat' (first | (with_reducible assumption) | (intro _) | (with_reducible apply echoTo_keeps) | (with_reducible apply lineEnd_keeps) | (with_reducible apply storeChar_keeps) | (fail_if_no_progress with_reducible apply Closed.other hP) | (dsimp only [-Nat.reducePow, Option.getD_some, Option.getD_none]) | (with_reducible apply ite_keeps) | split | (refine of_fst (by with_reducible assumption) ?_) | (refine of_snd (by with_reducible assumption) ?_) | (refine of_snd2 (by with_reducible assumption) ?_) | (refine of_mid (by with_reducible assumption) ?_) | (refine of_getD (s := s) (by with_reducible assumption) ?_))

theorem tunTake_keeps {P : State → Prop} (hP : Closed P) (p : Fin 4) (slot : Slot) (s : State) (hs0 : P s) : P (tunTake p slot s) := by
  unfold tunTake
  repeat' (first | (with_reducible assumption) | (intro _) | (with_reducible apply updPort_keeps) | (with_reducible apply optMap_keeps) | (with_reducible apply optGet_keeps) | (fail_if_no_progress with_reducible apply Closed.other hP) | (dsimp only [-Nat.reducePow, Option.getD_some, Option.getD_none]) | (with_reducible apply ite_keeps) | split | (refine of_fst (by with_reducible assumption) ?_) | (refine of_snd (by with_reducible assumption) ?_) | (refine of_snd2 (by with_reducible assumption) ?_) | (refine of_mid (by with_reducible assumption) ?_) | (refine of_getD (s := s) (by with_reducible assumption) ?_))

theorem drainFifo_keeps {P : State → Prop} (hP : Closed P) (x0 : Nat) (x1 : State) (hs0 : P x1) : P (drainFifo x0 x1) := by
  fun_induction drainFifo x0 x1
  all_goals repeat' (first | (with_reducible assumption) | (intro _) | (with_reducible apply asmByte_keeps) | (fail_if_no_progress with_reducible apply Closed.other hP) | (dsimp only [-Nat.reducePow, Option.getD_some, Option.getD_none]) | (with_reducible apply ite_keeps) | split | (refine of_fst (by with_reducible assumption) ?_) | (refine of_snd (by with_reducible assumption) ?_) | (refine of_snd2 (by with_reducible assumption) ?_) | (refine of_mid (by with_reducible assumption) ?_) | (refine of_getD (s := x1) (by with_reducible assumption) ?_) | apply_assumption)

theorem drain_keeps {P : State → Prop} (hP : Closed P) (s : State) (hs0 : P s) : P (drain s) := by
  unfold drain
  repeat' (first | (with_reducible assumption) | (intro _) | (with_reducible apply drainFifo_keeps) | (fail_if_no_progress with_reducible apply Closed.other hP) | (dsimp only [-Nat.reducePow, Option.getD_some, Option.getD_none]) | (with_reducible apply ite_keeps) | split | (refine of_fst (by with_reducible assumption) ?_) | (refine of_snd (by with_reducible assumption) ?_) | (refine of_snd2 (by with_reducible assumption) ?_) | (refine of_mid (by with_reducible assumption) ?_) | (refine of_getD (s := s) (by with_reducible assumption) ?_))

theorem uartIn_keeps {P : State → Prop} (hP : Closed P) (x : ConByte) (s : State) (hs0 : P s) : P (uartIn x s) := by
  unfold uartIn
  repeat' (first | (with_reducible assumption) | (intro _) | (with_reducible apply fset_keeps) | (with_reducible apply fbump_keeps) | (with_reducible apply drain_keeps) | (fail_if_no_progress with_reducible apply Closed.other hP) | (dsimp only [-Nat.reducePow, Option.getD_some, Option.getD_none]) | (with_reducible apply ite_keeps) | split | (refine of_fst (by with_reducible assumption) ?_) | (refine of_snd (by with_reducible assumption) ?_) | (refine of_snd2 (by with_reducible assumption) ?_) | (refine of_mid (by with_reducible assumption) ?_) | (refine of_getD (s := s) (by with_reducible assumption) ?_))

theorem freshOut_keeps {P : State → Prop} (hP : Closed P) (s : State) (hs0 : P s) : P (freshOut s) := by
  unfold freshOut
  repeat' (first | (with_reducible assumption) | (intro _) | (fail_if_no_progress with_reducible apply Closed.other hP) | (dsimp only [-Nat.reducePow, Option.getD_some, Option.getD_none]) | (with_reducible apply ite_keeps) | split | (refine of_fst (by with_reducible assumption) ?_) | (refine of_snd (by with_reducible assumption) ?_) | (refine of_snd2 (by with_reducible assumption) ?_) | (refine of_mid (by with_reducible assumption) ?_) | (refine of_getD (s := s) (by with_reducible assumption) ?_))

theorem execUartByte_keeps {P : State → Prop} (hP : Closed P) (b : Byte) (frame : Bool) (s : State) (hs0 : P s) : ∀ out, execUartByte b frame s = .next out → P out := by
  unfold execUartByte
  intro out hout
  obtain rfl := Host.Outcome.next.inj hout
  repeat' (first | (with_reducible assumption) | (intro _) | (with_reducible apply uartIn_keeps) | (with_reducible apply freshOut_keeps) | (fail_if_no_progress with_reducible apply Closed.other hP) | (dsimp only [-Nat.reducePow, Option.getD_some, Option.getD_none]) | (with_reducible apply ite_keeps) | split | (refine of_fst (by with_reducible assumption) ?_) | (refine of_snd (by with_reducible assumption) ?_) | (refine of_snd2 (by with_reducible assumption) ?_) | (refine of_mid (by with_reducible assumption) ?_) | (refine of_getD (s := s) (by with_reducible assumption) ?_))

theorem execUartBreak_keeps {P : State → Prop} (hP : Closed P) (s : State) (hs0 : P s) : ∀ out, execUartBreak s = .next out → P out := by
  unfold execUartBreak
  intro out hout
  obtain rfl := Host.Outcome.next.inj hout
  repeat' (first | (with_reducible assumption) | (intro _) | (with_reducible apply drain_keeps) | (with_reducible apply freshOut_keeps) | (fail_if_no_progress with_reducible apply Closed.other hP) | (dsimp only [-Nat.reducePow, Option.getD_some, Option.getD_none]) | (with_reducible apply ite_keeps) | split | (refine of_fst (by with_reducible assumption) ?_) | (refine of_snd (by with_reducible assumption) ?_) | (refine of_snd2 (by with_reducible assumption) ?_) | (refine of_mid (by with_reducible assumption) ?_) | (refine of_getD (s := s) (by with_reducible assumption) ?_))

theorem execConMessage_keeps {P : State → Prop} (hP : Closed P) (port : Fin 4) (slot : Slot) (s : State) (hs0 : P s) : ∀ out, execConMessage port slot s = .next out → P out := by
  unfold execConMessage
  intro out hout
  obtain rfl := Host.Outcome.next.inj hout
  repeat' (first | (with_reducible assumption) | (intro _) | (with_reducible apply tunTake_keeps) | (with_reducible apply drain_keeps) | (with_reducible apply freshOut_keeps) | (fail_if_no_progress with_reducible apply Closed.other hP) | (dsimp only [-Nat.reducePow, Option.getD_some, Option.getD_none]) | (with_reducible apply ite_keeps) | split | (refine of_fst (by with_reducible assumption) ?_) | (refine of_snd (by with_reducible assumption) ?_) | (refine of_snd2 (by with_reducible assumption) ?_) | (refine of_mid (by with_reducible assumption) ?_) | (refine of_getD (s := s) (by with_reducible assumption) ?_))

theorem execUnknownVerb_keeps {P : State → Prop} (hP : Closed P) (s : State) (hs0 : P s) : ∀ out, execUnknownVerb s = .next out → P out := by
  unfold execUnknownVerb
  intro out hout
  obtain rfl := Host.Outcome.next.inj hout
  repeat' (first | (with_reducible assumption) | (intro _) | (with_reducible apply answer_keeps) | (fail_if_no_progress with_reducible apply Closed.other hP) | (dsimp only [-Nat.reducePow, Option.getD_some, Option.getD_none]) | (with_reducible apply ite_keeps) | split | (refine of_fst (by with_reducible assumption) ?_) | (refine of_snd (by with_reducible assumption) ?_) | (refine of_snd2 (by with_reducible assumption) ?_) | (refine of_mid (by with_reducible assumption) ?_) | (refine of_getD (s := s) (by with_reducible assumption) ?_))

theorem afterAnswer_keeps {P : State → Prop} (hP : Closed P) (hS : ClosedStrm P) (hA : ClosedAcct P) (hW : ClosedWay P) (hC : ClosedCold P) (a : AfterAns) (s : State) (hs0 : P s) : P (afterAnswer a s) := by
  unfold afterAnswer
  repeat' (first | (with_reducible assumption) | (intro _) | (with_reducible apply coldBegin_keeps) | (with_reducible apply warmTrigger_keeps) | (with_reducible apply dozeWake_keeps) | (fail_if_no_progress with_reducible apply Closed.other hP) | (dsimp only [-Nat.reducePow, Option.getD_some, Option.getD_none]) | (with_reducible apply ite_keeps) | split | (refine of_fst (by with_reducible assumption) ?_) | (refine of_snd (by with_reducible assumption) ?_) | (refine of_snd2 (by with_reducible assumption) ?_) | (refine of_mid (by with_reducible assumption) ?_) | (refine of_getD (s := s) (by with_reducible assumption) ?_))

theorem execAnswerSent_keeps {P : State → Prop} (hP : Closed P) (hS : ClosedStrm P) (hA : ClosedAcct P) (hW : ClosedWay P) (hC : ClosedCold P) (s : State) (hs0 : P s) : ∀ out, execAnswerSent s = .next out → P out := by
  unfold execAnswerSent
  intro out hout
  obtain rfl := Host.Outcome.next.inj hout
  repeat' (first | (with_reducible assumption) | (intro _) | (with_reducible apply forAll_keeps) | (with_reducible apply sendLine_keeps) | (with_reducible apply prompt_keeps) | (with_reducible apply drain_keeps) | (with_reducible apply freshOut_keeps) | (with_reducible apply afterAnswer_keeps) | (fail_if_no_progress with_reducible apply Closed.other hP) | (dsimp only [-Nat.reducePow, Option.getD_some, Option.getD_none]) | (with_reducible apply ite_keeps) | split | (refine of_fst (by with_reducible assumption) ?_) | (refine of_snd (by with_reducible assumption) ?_) | (refine of_snd2 (by with_reducible assumption) ?_) | (refine of_mid (by with_reducible assumption) ?_) | (refine of_getD (s := s) (by with_reducible assumption) ?_))

theorem execEventSend_keeps {P : State → Prop} (hP : Closed P) (s : State) (hs0 : P s) : ∀ out, execEventSend s = .next out → P out := by
  unfold execEventSend
  intro out hout
  obtain rfl := Host.Outcome.next.inj hout
  repeat' (first | (with_reducible assumption) | (intro _) | (with_reducible apply forAll_keeps) | (with_reducible apply logEvent_keeps) | (with_reducible apply prompt_keeps) | (with_reducible apply sendEvent_keeps) | (with_reducible apply freshOut_keeps) | (with_reducible apply optMap_keeps) | (with_reducible apply optGet_keeps) | (fail_if_no_progress with_reducible apply Closed.other hP) | (dsimp only [-Nat.reducePow, Option.getD_some, Option.getD_none]) | (with_reducible apply ite_keeps) | split | (refine of_fst (by with_reducible assumption) ?_) | (refine of_snd (by with_reducible assumption) ?_) | (refine of_snd2 (by with_reducible assumption) ?_) | (refine of_mid (by with_reducible assumption) ?_) | (refine of_getD (s := s) (by with_reducible assumption) ?_))

end Sys2Proof.Laws
end

