-- ==== Sys2Proof/Laws/Exec.lean ====
section
/-! SUPPORT. What every command and every step keep: a property closed under the writers of the state. -/

namespace Sys2Proof.Laws
open Sys2Proof.Machine

/-- A property closed under every writer is kept by every command. -/
theorem exec_keeps {P : State → Prop} (hP : Closed P) (hI : ClosedIx P) (hS : ClosedStrm P) (hM : ClosedMan P) (hA : ClosedAcct P) (hD : ClosedDram P) (hW : ClosedWay P) (hC : ClosedCold P) (hR : ClosedRestore P) (c : Instr) (s out : State) (e : exec c s = .next out) (hs : P s) : P out := by
  cases c with
  | rd port h ue => exact execRd_keeps hP hI hS hA hD hW port h ue s hs out e
  | wr port h body ue => exact execWr_keeps hP hI hS hA hD hW port h body ue s hs out e
  | wrp port h body ue => exact execWrp_keeps hP hI hS hA hD hW port h body ue s hs out e
  | add port h body ue => exact execAdd_keeps hP hI hS hA hD hW port h body ue s hs out e
  | enq port h body ue => exact execEnq_keeps hP hI hS hA hD hW port h body ue s hs out e
  | deq port h ue => exact execDeq_keeps hP hI hS hA hD hW port h ue s hs out e
  | walk port h body ue => exact execWalk_keeps hP hI hS hA hD hW port h body ue s hs out e
  | sync port h ue => exact execSync_keeps hP hI hS hA hD hW port h ue s hs out e
  | time port slot rply => exact execTime_keeps hP port slot rply s hs out e
  | conMessage port slot => exact execConMessage_keeps hP port slot s hs out e
  | arbiterContest arb errs => exact execArbiterContest_keeps hP hI hS hA hD hW arb errs s hs out e
  | resvGrant arb errs => exact execResvGrant_keeps hP hI hS hA hD hW arb errs s hs out e
  | waystationAccessComplete idx ecc errs => exact execWaystationAccessComplete_keeps hP hI hS hA hD hW idx ecc errs s hs out e
  | commandAdmission ch => exact execCommandAdmission_keeps hP hI hS hA hD hW ch s hs out e
  | commandIssue ch pos => exact execCommandIssue_keeps hP hI hS hA hD hW ch pos s hs out e
  | burstDecode ch sym again errs => exact execBurstDecode_keeps hP hI hS hA hD hW ch sym again errs s hs out e
  | alertWindowClose ch errs => exact execAlertWindowClose_keeps hP hI hS hA hD hW ch errs s hs out e
  | alert ch => exact execAlert_keeps hP hI hS hA hD hW ch s hs out e
  | alertHoldExpiry ch => exact execAlertHoldExpiry_keeps hP ch s hs out e
  | replayTimeout ch => exact execReplayTimeout_keeps hP hI hS hA hD hW ch s hs out e
  | refreshDue ch rank => exact execRefreshDue_keeps hP ch rank s hs out e
  | mr4Poll ch r0 r1 => exact execMr4Poll_keeps hP ch r0 r1 s hs out e
  | rowactWindowBoundary ch => exact execRowactWindowBoundary_keeps hP hA ch s hs out e
  | markWindowEnd ch => exact execMarkWindowEnd_keeps hP hI ch s hs out e
  | rankPowerDown ch rank => exact execRankPowerDown_keeps hP ch rank s hs out e
  | pageTimeout ch bank => exact execPageTimeout_keeps hP ch bank s hs out e
  | spareRewrite ch sym => exact execSpareRewrite_keeps hP ch sym s hs out e
  | scrubRead ch sym again => exact execScrubRead_keeps hP ch sym again s hs out e
  | backgroundGrant ch req => exact execBackgroundGrant_keeps hP hA hD hW ch req s hs out e
  | proofPauseDue ch => exact execProofPauseDue_keeps hP ch s hs out e
  | proofPauseStart ch => exact execProofPauseStart_keeps hP ch s hs out e
  | proofPauseEnd ch res => exact execProofPauseEnd_keeps hP hI ch res s hs out e
  | pauseHoldbackExpiry ch => exact execPauseHoldbackExpiry_keeps hP ch s hs out e
  | periodBoundary => exact execPeriodBoundary_keeps hP hM hA hW s hs out e
  | tollGateRefill => exact execTollGateRefill_keeps hP s hs out e
  | horizonHoldExpiry => exact execHorizonHoldExpiry_keeps hP s hs out e
  | migrationEpoch => exact execMigrationEpoch_keeps hP hW s hs out e
  | promotionComplete pinned frame => exact execPromotionComplete_keeps hP pinned frame s hs out e
  | demotionComplete pinned frame => exact execDemotionComplete_keeps hP hW pinned frame s hs out e
  | stageImageLoaded desc slot => exact execStageImageLoaded_keeps hP desc slot s hs out e
  | caravanStageEnd ring entry => exact execCaravanStageEnd_keeps hP hI hS hA hD hW ring entry s hs out e
  | walkHoldExpiry ring entry => exact execWalkHoldExpiry_keeps hP ring entry s hs out e
  | walkReadRetry idx => exact execWalkReadRetry_keeps hP idx s hs out e
  | enqApply ring entry recBad => exact execEnqApply_keeps hP hI hS hA hD hW ring entry recBad s hs out e
  | deqApply ring entry recBad eccs => exact execDeqApply_keeps hP hI hS hA hD hW ring entry recBad eccs s hs out e
  | queuePoolReady => exact execQueuePoolReady_keeps hP s hs out e
  | dataFlit port f => exact execDataFlit_keeps hP hI hS port f s hs out e
  | idleFlit port f => exact execIdleFlit_keeps hP hI hS port f s hs out e
  | trainFlit port f lock pass rev => exact execTrainFlit_keeps hP hI hS port f lock pass rev s hs out e
  | nakTimeout port => exact execNakTimeout_keeps hP port s hs out e
  | ackTimeout port => exact execAckTimeout_keeps hP port s hs out e
  | detectLock port good inv => exact execDetectLock_keeps hP port good inv s hs out e
  | equaliseDone port good => exact execEqualiseDone_keeps hP port good s hs out e
  | trainingTimeout port => exact execTrainingTimeout_keeps hP hS port s hs out e
  | laneSignalLoss port lane => exact execLaneSignalLoss_keeps hP hS port lane s hs out e
  | laneSerWindow port => exact execLaneSerWindow_keeps hP hS port s hs out e
  | portReset port => exact execPortReset_keeps hP hS port s hs out e
  | retrain port => exact execRetrain_keeps hP port s hs out e
  | upgrade port => exact execUpgrade_keeps hP port s hs out e
  | portEnable port en => exact execPortEnable_keeps hP hS port en s hs out e
  | tunnelEnable port en => exact execTunnelEnable_keeps hP port en s hs out e
  | txPllLockLoss port => exact execTxPllLockLoss_keeps hP hS port s hs out e
  | journalReplay ch errs => exact execJournalReplay_keeps hP hI hS hA hD hW ch errs s hs out e
  | poisonFillDone ch => exact execPoisonFillDone_keeps hP ch s hs out e
  | twinResync ch => exact execTwinResync_keeps hP hI hS hD hW ch s hs out e
  | mapLoad => exact execMapLoad_keeps hP s hs out e
  | loadTimingProfile ch => exact execLoadTimingProfile_keeps hP ch s hs out e
  | trainStart ch manual ans => exact execTrainStart_keeps hP hI hD ch manual ans s hs out e
  | trainEnd ch ans => exact execTrainEnd_keeps hP hI hD ch ans s hs out e
  | trainingComplete ch ans => exact execTrainingComplete_keeps hP hI hD ch ans s hs out e
  | trainingStepTimeout ch => exact execTrainingStepTimeout_keeps hP ch s hs out e
  | manualTrainingTimeout ch => exact execManualTrainingTimeout_keeps hP ch s hs out e
  | sweepStart ch form => exact execSweepStart_keeps hP ch form s hs out e
  | sweepDone ch eyes => exact execSweepDone_keeps hP hI hD ch eyes s hs out e
  | compareClear ch => exact execCompareClear_keeps hP hI ch s hs out e
  | relockDone ch res => exact execRelockDone_keeps hP hI hS hA hD hW ch res s hs out e
  | ledgerWindowEnd => exact execLedgerWindowEnd_keeps hP s hs out e
  | ledgerActionPoint => exact execLedgerActionPoint_keeps hP s hs out e
  | holdApply decl => exact execHoldApply_keeps hP decl s hs out e
  | pfail lowNs => exact execPfail_keeps hP hS hW lowNs s hs out e
  | pfailFlushDone => exact execPfailFlushDone_keeps hP hI hS hD hW s hs out e
  | pfailRelease => exact execPfailRelease_keeps hP s hs out e
  | waySliceStart => exact execWaySliceStart_keeps hP hW s hs out e
  | waySliceEnd bad scrub errs => exact execWaySliceEnd_keeps hP hI hS hA hD hW bad scrub errs s hs out e
  | dramSliceStart ch => exact execDramSliceStart_keeps hP ch s hs out e
  | rowDisplaced ch eccs => exact execRowDisplaced_keeps hP hD ch eccs s hs out e
  | dramPhaseEnd ch bits => exact execDramPhaseEnd_keeps hP ch bits s hs out e
  | rowRestored ch => exact execRowRestored_keeps hP ch s hs out e
  | sliceBudgetExpiry ch => exact execSliceBudgetExpiry_keeps hP ch s hs out e
  | phySliceStart ch => exact execPhySliceStart_keeps hP ch s hs out e
  | phySliceEnd ch margins => exact execPhySliceEnd_keeps hP hI ch margins s hs out e
  | laneSlice port mv mui => exact execLaneSlice_keeps hP hI port mv mui s hs out e
  | bistRun target unit => exact execBistRun_keeps hP hW target unit s hs out e
  | bistShow target unit => exact execBistShow_keeps hP target unit s hs out e
  | bistLog last => exact execBistLog_keeps hP last s hs out e
  | sleepDoze => exact execSleepDoze_keeps hP s hs out e
  | sleepBanked => exact execSleepBanked_keeps hP s hs out e
  | drainComplete => exact execDrainComplete_keeps hP hI hS hD hW s hs out e
  | drainTimeout => exact execDrainTimeout_keeps hP hI hS hA hD hW s hs out e
  | sleepParkDone => exact execSleepParkDone_keeps hP hI hS hA hW s hs out e
  | wakeWindowEnd => exact execWakeWindowEnd_keeps hP hS hA s hs out e
  | retentionCheck inWindow => exact execRetentionCheck_keeps hP inWindow s hs out e
  | wakeN lowNs => exact execWakeN_keeps hP hI hS hA hD hW lowNs s hs out e
  | wakePortMatch addr read bytes => exact execWakePortMatch_keeps hP hI hS hA hD hW addr read bytes s hs out e
  | linkWake port => exact execLinkWake_keeps hP hI hS hA hD hW port s hs out e
  | aonTimerWake => exact execAonTimerWake_keeps hP hI hS hA hD hW s hs out e
  | bankImageRestored ok => exact execBankImageRestored_keeps hP hS hA hW hC ok s hs out e
  | retentionSettle => exact execRetentionSettle_keeps hP hS hA hW s hs out e
  | sleepWake => exact execSleepWake_keeps hP hS hA hW s hs out e
  | sleepResume => exact execSleepResume_keeps hP hI hS hA hD hW s hs out e
  | clockRun lock => exact execClockRun_keeps hP lock s hs out e
  | gateRampStage dom => exact execGateRampStage_keeps hP hI hC hR dom s hs out e
  | gateFault dom cause => exact execGateFault_keeps hP hI hS hA hD hW dom cause s hs out e
  | powerRetry dom => exact execPowerRetry_keeps hP dom s hs out e
  | brownout => exact execBrownout_keeps hP hI s hs out e
  | retentionLost => exact execRetentionLost_keeps hP s hs out e
  | powerOn => exact execPowerOn_keeps hP hI s hs out e
  | waystationClearDone => exact execWaystationClearDone_keeps hP s hs out e
  | resetN lowNs => exact execResetN_keeps hP hI hS hA hD hW lowNs s hs out e
  | resetNRelease => exact execResetNRelease_keeps hP hI hS hA hD hW hC s hs out e
  | watchdogExpiry => exact execWatchdogExpiry_keeps hP hS hA hW s hs out e
  | watchdogKick => exact execWatchdogKick_keeps hP s hs out e
  | corePllLockLoss => exact execCorePllLockLoss_keeps hP hS hA hW s hs out e
  | resetWarm => exact execResetWarm_keeps hP s hs out e
  | resetCold => exact execResetCold_keeps hP s hs out e
  | resetPort port => exact execResetPort_keeps hP hI hS hA hD hW port s hs out e
  | perChannelReset ch => exact execPerChannelReset_keeps hP hI hS hA hD hW ch s hs out e
  | snapshotCapture => exact execSnapshotCapture_keeps hP s hs out e
  | snapshotDone => exact execSnapshotDone_keeps hP s hs out e
  | layoutCommit => exact execLayoutCommit_keeps hP s hs out e
  | wayCarveWrite v => exact execWayCarveWrite_keeps hP v s hs out e
  | pinEnable k => exact execPinEnable_keeps hP hW k s hs out e
  | pinDisable k => exact execPinDisable_keeps hP hW k s hs out e
  | queuePoolInit cmd => exact execQueuePoolInit_keeps hP cmd s hs out e
  | queueReset q => exact execQueueReset_keeps hP hA q s hs out e
  | manifestOpen man f => exact execManifestOpen_keeps hP hM man f s hs out e
  | manifestModify man m => exact execManifestModify_keeps hP hM hW man m s hs out e
  | manifestClose man force => exact execManifestClose_keeps hP hM hA man force s hs out e
  | manifestClosed man => exact execManifestClosed_keeps hP hI hM hA man s hs out e
  | walkDefine desc man home bypass hold slots slotseg nctx => exact execWalkDefine_keeps hP hI desc man home bypass hold slots slotseg nctx s hs out e
  | walkStage desc stage gather base segs shift width => exact execWalkStage_keeps hP hI desc stage gather base segs shift width s hs out e
  | walkLoad desc => exact execWalkLoad_keeps hP hI hW desc s hs out e
  | walkUnload desc => exact execWalkUnload_keeps hP desc s hs out e
  | walkUnloaded desc => exact execWalkUnloaded_keeps hP hI desc s hs out e
  | streamOpen port strm => exact execStreamOpen_keeps hP hI hS hA hD hW port strm s hs out e
  | markCommand ch rank dev => exact execMarkCommand_keeps hP ch rank dev s hs out e
  | probeArm => exact execProbeArm_keeps hP s hs out e
  | guardedValueWrite addr v => exact execGuardedValueWrite_keeps hP hI hS hD hW addr v s hs out e
  | guardedComplementWrite addr v => exact execGuardedComplementWrite_keeps hP hI hS hA hD hW addr v s hs out e
  | guardTimeout => exact execGuardTimeout_keeps hP s hs out e
  | maskedWrite addr v => exact execMaskedWrite_keeps hP hI hS hD hW addr v s hs out e
  | clearOnRead addr => exact execClearOnRead_keeps hP addr s hs out e
  | indDataRead block => exact execIndDataRead_keeps hP block s hs out e
  | indDataWrite block v => exact execIndDataWrite_keeps hP hI hS hA hD hW block v s hs out e
  | aonWriteEffect => exact execAonWriteEffect_keeps hP s hs out e
  | registerWrite addr v => exact execRegisterWrite_keeps hP hI hS hA hD hW addr v s hs out e
  | uartByte b frame => exact execUartByte_keeps hP b frame s hs out e
  | uartBreak => exact execUartBreak_keeps hP s hs out e
  | unknownVerb => exact execUnknownVerb_keeps hP s hs out e
  | conId => exact execConId_keeps hP s hs out e
  | conHelp topic => exact execConHelp_keeps hP topic s hs out e
  | conRd addr n => exact execConRd_keeps hP addr n s hs out e
  | conWr addr v => exact execConWr_keeps hP hI hS hA hD hW addr v s hs out e
  | conWrm addr mask v => exact execConWrm_keeps hP hI hS hD hW addr mask v s hs out e
  | conWrg addr v => exact execConWrg_keeps hP hI hS hA hD hW addr v s hs out e
  | conIrd block index n => exact execConIrd_keeps hP hI hS hD hW block index n s hs out e
  | conIwr block index vs => exact execConIwr_keeps hP hI hS hA hD hW block index vs s hs out e
  | conGet name => exact execConGet_keeps hP hI hS hD hW name s hs out e
  | conSet name v => exact execConSet_keeps hP hI hS hA hD hW name v s hs out e
  | conShow view => exact execConShow_keeps hP view s hs out e
  | ledgerShow man => exact execLedgerShow_keeps hP man s hs out e
  | conLog last => exact execConLog_keeps hP last s hs out e
  | conLogClear => exact execConLogClear_keeps hP s hs out e
  | conEcho on => exact execConEcho_keeps hP hI hS hD hW on s hs out e
  | conMode strict => exact execConMode_keeps hP hI hS hD hW strict s hs out e
  | answerSent => exact execAnswerSent_keeps hP hS hA hW hC s hs out e
  | eventSend => exact execEventSend_keeps hP s hs out e
  | thermSample tenths => exact execThermSample_keeps hP tenths s hs out e
  | xtalQualified => exact execXtalQualified_keeps hP s hs out e
  | xtalLoss => exact execXtalLoss_keeps hP s hs out e
  | vinAonOff => exact execVinAonOff_keeps hP hI s hs out e
  | coreSupplyLoss => exact execCoreSupplyLoss_keeps hP hS hA hW s hs out e
  | channelPllLockLoss ch => exact execChannelPllLockLoss_keeps hP ch s hs out e
  | tapInstruction ir => exact execTapInstruction_keeps hP ir s hs out e
  | wakePortStopCondition => exact execWakePortStopCondition_keeps hP s hs out e
  | alignedMillisecondEnd ch => exact execAlignedMillisecondEnd_keeps hP ch s hs out e
  | aonRegulatorSettled => exact execAonRegulatorSettled_keeps hP s hs out e

/-- A property closed under every writer that does not speak of the waiting commands is kept by every step. -/
theorem step_keeps {P : State → Prop} (hP : Closed P) (hI : ClosedIx P) (hS : ClosedStrm P) (hM : ClosedMan P) (hA : ClosedAcct P) (hD : ClosedDram P) (hW : ClosedWay P) (hC : ClosedCold P) (hR : ClosedRestore P) (hq : ∀ s q, P s → P { s with pending := q }) (s t : State) (e : step s = .next t) (hs : P s) : P t := by
  unfold step at e
  split at e
  · cases e
    exact idle_keeps hP  s hs
  · exact exec_keeps hP hI hS hM hA hD hW hC hR _ _ t e (hq _ _ hs)

end Sys2Proof.Laws
end

