-- ==== Sys2Proof/Laws/PortFrames.lean ====
section
/-! SUPPORT. What the operations of a host port leave of the state: one lemma for each field that an operation does not touch. -/

namespace Sys2Proof.Laws
open Sys2Proof.Machine

/-- A run of steps keeps what each of them keeps. -/
theorem forAll_inv {α β : Type} (g : State → β) (l : List α) (f : α → State → State) (s : State) (h : ∀ a x, g (f a x) = g x) : g (forAll l f s) = g s := by
  unfold forAll
  induction l generalizing s with
  | nil => rfl
  | cons a r ih => rw [List.foldl_cons, ih, h]

theorem onlyIf_inv {β : Type} (g : State → β) (c : Bool) (f : State → State) (s : State) (h : ∀ x, g (f x) = g x) : g (onlyIf c f s) = g s := by
  unfold onlyIf
  split
  · exact h s
  · rfl

@[simp] theorem tunFollow_pending (p : Fin 4) (s : State) : (tunFollow p s).pending = s.pending := by unfold tunFollow; dsimp only; split <;> simp [onlyIf]; split <;> simp
@[simp] theorem tunFollow_d8 (p : Fin 4) (s : State) : (tunFollow p s).d8 = s.d8 := by unfold tunFollow; dsimp only; split <;> simp [onlyIf]; split <;> simp
@[simp] theorem tunFollow_free (p : Fin 4) (s : State) : (tunFollow p s).free = s.free := by unfold tunFollow; dsimp only; split <;> simp [onlyIf]; split <;> simp
@[simp] theorem tunFollow_ix (p : Fin 4) (s : State) : (tunFollow p s).ix = s.ix := by unfold tunFollow; dsimp only; split <;> simp [onlyIf]; split <;> simp
@[simp] theorem tunFollow_dram (p : Fin 4) (s : State) : (tunFollow p s).dram = s.dram := by unfold tunFollow; dsimp only; split <;> simp [onlyIf]; split <;> simp
@[simp] theorem tunFollow_wmem (p : Fin 4) (s : State) : (tunFollow p s).wmem = s.wmem := by unfold tunFollow; dsimp only; split <;> simp [onlyIf]; split <;> simp
@[simp] theorem tunFollow_ports (p : Fin 4) (s : State) : (tunFollow p s).ports = s.ports := by unfold tunFollow; dsimp only; split <;> simp [onlyIf]; split <;> simp
@[simp] theorem tunFollow_streams (p : Fin 4) (s : State) : (tunFollow p s).streams = s.streams := by unfold tunFollow; dsimp only; split <;> simp [onlyIf]; split <;> simp
@[simp] theorem tunFollow_rings (p : Fin 4) (s : State) : (tunFollow p s).rings = s.rings := by unfold tunFollow; dsimp only; split <;> simp [onlyIf]; split <;> simp
@[simp] theorem tunFollow_mans (p : Fin 4) (s : State) : (tunFollow p s).mans = s.mans := by unfold tunFollow; dsimp only; split <;> simp [onlyIf]; split <;> simp
@[simp] theorem tunFollow_accts (p : Fin 4) (s : State) : (tunFollow p s).accts = s.accts := by unfold tunFollow; dsimp only; split <;> simp [onlyIf]; split <;> simp
@[simp] theorem tunFollow_arbs (p : Fin 4) (s : State) : (tunFollow p s).arbs = s.arbs := by unfold tunFollow; dsimp only; split <;> simp [onlyIf]; split <;> simp
@[simp] theorem tunFollow_order (p : Fin 4) (s : State) : (tunFollow p s).order = s.order := by unfold tunFollow; dsimp only; split <;> simp [onlyIf]; split <;> simp
@[simp] theorem tunFollow_ofsOld (p : Fin 4) (s : State) : (tunFollow p s).ofsOld = s.ofsOld := by unfold tunFollow; dsimp only; split <;> simp [onlyIf]; split <;> simp
@[simp] theorem tunFollow_toll (p : Fin 4) (s : State) : (tunFollow p s).toll = s.toll := by unfold tunFollow; dsimp only; split <;> simp [onlyIf]; split <;> simp
@[simp] theorem tunFollow_way (p : Fin 4) (s : State) : (tunFollow p s).way = s.way := by unfold tunFollow; dsimp only; split <;> simp [onlyIf]; split <;> simp
@[simp] theorem tunFollow_wayOps (p : Fin 4) (s : State) : (tunFollow p s).wayOps = s.wayOps := by unfold tunFollow; dsimp only; split <;> simp [onlyIf]; split <;> simp
@[simp] theorem tunFollow_walks (p : Fin 4) (s : State) : (tunFollow p s).walks = s.walks := by unfold tunFollow; dsimp only; split <;> simp [onlyIf]; split <;> simp
@[simp] theorem tunFollow_caravans (p : Fin 4) (s : State) : (tunFollow p s).caravans = s.caravans := by unfold tunFollow; dsimp only; split <;> simp [onlyIf]; split <;> simp
@[simp] theorem tunFollow_wreads (p : Fin 4) (s : State) : (tunFollow p s).wreads = s.wreads := by unfold tunFollow; dsimp only; split <;> simp [onlyIf]; split <;> simp
@[simp] theorem tunFollow_que (p : Fin 4) (s : State) : (tunFollow p s).que = s.que := by unfold tunFollow; dsimp only; split <;> simp [onlyIf]; split <;> simp
@[simp] theorem tunFollow_chans (p : Fin 4) (s : State) : (tunFollow p s).chans = s.chans := by unfold tunFollow; dsimp only; split <;> simp [onlyIf]; split <;> simp
@[simp] theorem tunFollow_phys (p : Fin 4) (s : State) : (tunFollow p s).phys = s.phys := by unfold tunFollow; dsimp only; split <;> simp [onlyIf]; split <;> simp
@[simp] theorem tunFollow_led (p : Fin 4) (s : State) : (tunFollow p s).led = s.led := by unfold tunFollow; dsimp only; split <;> simp [onlyIf]; split <;> simp
@[simp] theorem tunFollow_bist (p : Fin 4) (s : State) : (tunFollow p s).bist = s.bist := by unfold tunFollow; dsimp only; split <;> simp [onlyIf]; split <;> simp
@[simp] theorem tunFollow_pwr (p : Fin 4) (s : State) : (tunFollow p s).pwr = s.pwr := by unfold tunFollow; dsimp only; split <;> simp [onlyIf]; split <;> simp
@[simp] theorem tunFollow_con (p : Fin 4) (s : State) : (tunFollow p s).con = s.con := by unfold tunFollow; dsimp only; split <;> simp [onlyIf]; split <;> simp
@[simp] theorem tunFollow_prof (p : Fin 4) (s : State) : (tunFollow p s).prof = s.prof := by unfold tunFollow; dsimp only; split <;> simp [onlyIf]; split <;> simp
@[simp] theorem tunFollow_perEnd (p : Fin 4) (s : State) : (tunFollow p s).perEnd = s.perEnd := by unfold tunFollow; dsimp only; split <;> simp [onlyIf]; split <;> simp
@[simp] theorem tunFollow_tollEnd (p : Fin 4) (s : State) : (tunFollow p s).tollEnd = s.tollEnd := by unfold tunFollow; dsimp only; split <;> simp [onlyIf]; split <;> simp
@[simp] theorem tunFollow_horizon (p : Fin 4) (s : State) : (tunFollow p s).horizon = s.horizon := by unfold tunFollow; dsimp only; split <;> simp [onlyIf]; split <;> simp
@[simp] theorem tunFollow_probe (p : Fin 4) (s : State) : (tunFollow p s).probe = s.probe := by unfold tunFollow; dsimp only; split <;> simp [onlyIf]; split <;> simp
@[simp] theorem tunFollow_guard (p : Fin 4) (s : State) : (tunFollow p s).guard = s.guard := by unfold tunFollow; dsimp only; split <;> simp [onlyIf]; split <;> simp
@[simp] theorem tunFollow_latches (p : Fin 4) (s : State) : (tunFollow p s).latches = s.latches := by unfold tunFollow; dsimp only; split <;> simp [onlyIf]; split <;> simp
@[simp] theorem tunFollow_shadow (p : Fin 4) (s : State) : (tunFollow p s).shadow = s.shadow := by unfold tunFollow; dsimp only; split <;> simp [onlyIf]; split <;> simp
@[simp] theorem tunFollow_hold (p : Fin 4) (s : State) : (tunFollow p s).hold = s.hold := by unfold tunFollow; dsimp only; split <;> simp [onlyIf]; split <;> simp

@[simp] theorem laneFollow_pending (p : Fin 4) (s : State) : (laneFollow p s).pending = s.pending := by unfold laneFollow leaveCycle onlyIf stopLane cycStart; dsimp only; (repeat' split) <;> simp [fsetBit]
@[simp] theorem laneFollow_d8 (p : Fin 4) (s : State) : (laneFollow p s).d8 = s.d8 := by unfold laneFollow leaveCycle onlyIf stopLane cycStart; dsimp only; (repeat' split) <;> simp [fsetBit]
@[simp] theorem laneFollow_free (p : Fin 4) (s : State) : (laneFollow p s).free = s.free := by unfold laneFollow leaveCycle onlyIf stopLane cycStart; dsimp only; (repeat' split) <;> simp [fsetBit]
@[simp] theorem laneFollow_ix (p : Fin 4) (s : State) : (laneFollow p s).ix = s.ix := by unfold laneFollow leaveCycle onlyIf stopLane cycStart; dsimp only; (repeat' split) <;> simp [fsetBit]
@[simp] theorem laneFollow_dram (p : Fin 4) (s : State) : (laneFollow p s).dram = s.dram := by unfold laneFollow leaveCycle onlyIf stopLane cycStart; dsimp only; (repeat' split) <;> simp [fsetBit]
@[simp] theorem laneFollow_wmem (p : Fin 4) (s : State) : (laneFollow p s).wmem = s.wmem := by unfold laneFollow leaveCycle onlyIf stopLane cycStart; dsimp only; (repeat' split) <;> simp [fsetBit]
@[simp] theorem laneFollow_ports (p : Fin 4) (s : State) : (laneFollow p s).ports = s.ports := by unfold laneFollow leaveCycle onlyIf stopLane cycStart; dsimp only; (repeat' split) <;> simp [fsetBit]
@[simp] theorem laneFollow_streams (p : Fin 4) (s : State) : (laneFollow p s).streams = s.streams := by unfold laneFollow leaveCycle onlyIf stopLane cycStart; dsimp only; (repeat' split) <;> simp [fsetBit]
@[simp] theorem laneFollow_rings (p : Fin 4) (s : State) : (laneFollow p s).rings = s.rings := by unfold laneFollow leaveCycle onlyIf stopLane cycStart; dsimp only; (repeat' split) <;> simp [fsetBit]
@[simp] theorem laneFollow_mans (p : Fin 4) (s : State) : (laneFollow p s).mans = s.mans := by unfold laneFollow leaveCycle onlyIf stopLane cycStart; dsimp only; (repeat' split) <;> simp [fsetBit]
@[simp] theorem laneFollow_accts (p : Fin 4) (s : State) : (laneFollow p s).accts = s.accts := by unfold laneFollow leaveCycle onlyIf stopLane cycStart; dsimp only; (repeat' split) <;> simp [fsetBit]
@[simp] theorem laneFollow_arbs (p : Fin 4) (s : State) : (laneFollow p s).arbs = s.arbs := by unfold laneFollow leaveCycle onlyIf stopLane cycStart; dsimp only; (repeat' split) <;> simp [fsetBit]
@[simp] theorem laneFollow_order (p : Fin 4) (s : State) : (laneFollow p s).order = s.order := by unfold laneFollow leaveCycle onlyIf stopLane cycStart; dsimp only; (repeat' split) <;> simp [fsetBit]
@[simp] theorem laneFollow_ofsOld (p : Fin 4) (s : State) : (laneFollow p s).ofsOld = s.ofsOld := by unfold laneFollow leaveCycle onlyIf stopLane cycStart; dsimp only; (repeat' split) <;> simp [fsetBit]
@[simp] theorem laneFollow_toll (p : Fin 4) (s : State) : (laneFollow p s).toll = s.toll := by unfold laneFollow leaveCycle onlyIf stopLane cycStart; dsimp only; (repeat' split) <;> simp [fsetBit]
@[simp] theorem laneFollow_way (p : Fin 4) (s : State) : (laneFollow p s).way = s.way := by unfold laneFollow leaveCycle onlyIf stopLane cycStart; dsimp only; (repeat' split) <;> simp [fsetBit]
@[simp] theorem laneFollow_wayOps (p : Fin 4) (s : State) : (laneFollow p s).wayOps = s.wayOps := by unfold laneFollow leaveCycle onlyIf stopLane cycStart; dsimp only; (repeat' split) <;> simp [fsetBit]
@[simp] theorem laneFollow_walks (p : Fin 4) (s : State) : (laneFollow p s).walks = s.walks := by unfold laneFollow leaveCycle onlyIf stopLane cycStart; dsimp only; (repeat' split) <;> simp [fsetBit]
@[simp] theorem laneFollow_caravans (p : Fin 4) (s : State) : (laneFollow p s).caravans = s.caravans := by unfold laneFollow leaveCycle onlyIf stopLane cycStart; dsimp only; (repeat' split) <;> simp [fsetBit]
@[simp] theorem laneFollow_wreads (p : Fin 4) (s : State) : (laneFollow p s).wreads = s.wreads := by unfold laneFollow leaveCycle onlyIf stopLane cycStart; dsimp only; (repeat' split) <;> simp [fsetBit]
@[simp] theorem laneFollow_que (p : Fin 4) (s : State) : (laneFollow p s).que = s.que := by unfold laneFollow leaveCycle onlyIf stopLane cycStart; dsimp only; (repeat' split) <;> simp [fsetBit]
@[simp] theorem laneFollow_chans (p : Fin 4) (s : State) : (laneFollow p s).chans = s.chans := by unfold laneFollow leaveCycle onlyIf stopLane cycStart; dsimp only; (repeat' split) <;> simp [fsetBit]
@[simp] theorem laneFollow_phys (p : Fin 4) (s : State) : (laneFollow p s).phys = s.phys := by unfold laneFollow leaveCycle onlyIf stopLane cycStart; dsimp only; (repeat' split) <;> simp [fsetBit]
@[simp] theorem laneFollow_led (p : Fin 4) (s : State) : (laneFollow p s).led = s.led := by unfold laneFollow leaveCycle onlyIf stopLane cycStart; dsimp only; (repeat' split) <;> simp [fsetBit]
@[simp] theorem laneFollow_pwr (p : Fin 4) (s : State) : (laneFollow p s).pwr = s.pwr := by unfold laneFollow leaveCycle onlyIf stopLane cycStart; dsimp only; (repeat' split) <;> simp [fsetBit]
@[simp] theorem laneFollow_con (p : Fin 4) (s : State) : (laneFollow p s).con = s.con := by unfold laneFollow leaveCycle onlyIf stopLane cycStart; dsimp only; (repeat' split) <;> simp [fsetBit]
@[simp] theorem laneFollow_prof (p : Fin 4) (s : State) : (laneFollow p s).prof = s.prof := by unfold laneFollow leaveCycle onlyIf stopLane cycStart; dsimp only; (repeat' split) <;> simp [fsetBit]
@[simp] theorem laneFollow_perEnd (p : Fin 4) (s : State) : (laneFollow p s).perEnd = s.perEnd := by unfold laneFollow leaveCycle onlyIf stopLane cycStart; dsimp only; (repeat' split) <;> simp [fsetBit]
@[simp] theorem laneFollow_tollEnd (p : Fin 4) (s : State) : (laneFollow p s).tollEnd = s.tollEnd := by unfold laneFollow leaveCycle onlyIf stopLane cycStart; dsimp only; (repeat' split) <;> simp [fsetBit]
@[simp] theorem laneFollow_horizon (p : Fin 4) (s : State) : (laneFollow p s).horizon = s.horizon := by unfold laneFollow leaveCycle onlyIf stopLane cycStart; dsimp only; (repeat' split) <;> simp [fsetBit]
@[simp] theorem laneFollow_probe (p : Fin 4) (s : State) : (laneFollow p s).probe = s.probe := by unfold laneFollow leaveCycle onlyIf stopLane cycStart; dsimp only; (repeat' split) <;> simp [fsetBit]
@[simp] theorem laneFollow_guard (p : Fin 4) (s : State) : (laneFollow p s).guard = s.guard := by unfold laneFollow leaveCycle onlyIf stopLane cycStart; dsimp only; (repeat' split) <;> simp [fsetBit]
@[simp] theorem laneFollow_latches (p : Fin 4) (s : State) : (laneFollow p s).latches = s.latches := by unfold laneFollow leaveCycle onlyIf stopLane cycStart; dsimp only; (repeat' split) <;> simp [fsetBit]
@[simp] theorem laneFollow_shadow (p : Fin 4) (s : State) : (laneFollow p s).shadow = s.shadow := by unfold laneFollow leaveCycle onlyIf stopLane cycStart; dsimp only; (repeat' split) <;> simp [fsetBit]
@[simp] theorem laneFollow_hold (p : Fin 4) (s : State) : (laneFollow p s).hold = s.hold := by unfold laneFollow leaveCycle onlyIf stopLane cycStart; dsimp only; (repeat' split) <;> simp [fsetBit]

@[simp] theorem setPortSt_pending (p : Fin 4) (v : Nat) (s : State) : (setPortSt p v s).pending = s.pending := by simp [setPortSt]
@[simp] theorem setPortSt_d8 (p : Fin 4) (v : Nat) (s : State) : (setPortSt p v s).d8 = s.d8 := by simp [setPortSt]
@[simp] theorem setPortSt_free (p : Fin 4) (v : Nat) (s : State) : (setPortSt p v s).free = s.free := by simp [setPortSt]
@[simp] theorem setPortSt_ix (p : Fin 4) (v : Nat) (s : State) : (setPortSt p v s).ix = s.ix := by simp [setPortSt]
@[simp] theorem setPortSt_dram (p : Fin 4) (v : Nat) (s : State) : (setPortSt p v s).dram = s.dram := by simp [setPortSt]
@[simp] theorem setPortSt_wmem (p : Fin 4) (v : Nat) (s : State) : (setPortSt p v s).wmem = s.wmem := by simp [setPortSt]
@[simp] theorem setPortSt_streams (p : Fin 4) (v : Nat) (s : State) : (setPortSt p v s).streams = s.streams := by simp [setPortSt]
@[simp] theorem setPortSt_rings (p : Fin 4) (v : Nat) (s : State) : (setPortSt p v s).rings = s.rings := by simp [setPortSt]
@[simp] theorem setPortSt_mans (p : Fin 4) (v : Nat) (s : State) : (setPortSt p v s).mans = s.mans := by simp [setPortSt]
@[simp] theorem setPortSt_accts (p : Fin 4) (v : Nat) (s : State) : (setPortSt p v s).accts = s.accts := by simp [setPortSt]
@[simp] theorem setPortSt_arbs (p : Fin 4) (v : Nat) (s : State) : (setPortSt p v s).arbs = s.arbs := by simp [setPortSt]
@[simp] theorem setPortSt_order (p : Fin 4) (v : Nat) (s : State) : (setPortSt p v s).order = s.order := by simp [setPortSt]
@[simp] theorem setPortSt_ofsOld (p : Fin 4) (v : Nat) (s : State) : (setPortSt p v s).ofsOld = s.ofsOld := by simp [setPortSt]
@[simp] theorem setPortSt_toll (p : Fin 4) (v : Nat) (s : State) : (setPortSt p v s).toll = s.toll := by simp [setPortSt]
@[simp] theorem setPortSt_way (p : Fin 4) (v : Nat) (s : State) : (setPortSt p v s).way = s.way := by simp [setPortSt]
@[simp] theorem setPortSt_wayOps (p : Fin 4) (v : Nat) (s : State) : (setPortSt p v s).wayOps = s.wayOps := by simp [setPortSt]
@[simp] theorem setPortSt_walks (p : Fin 4) (v : Nat) (s : State) : (setPortSt p v s).walks = s.walks := by simp [setPortSt]
@[simp] theorem setPortSt_caravans (p : Fin 4) (v : Nat) (s : State) : (setPortSt p v s).caravans = s.caravans := by simp [setPortSt]
@[simp] theorem setPortSt_wreads (p : Fin 4) (v : Nat) (s : State) : (setPortSt p v s).wreads = s.wreads := by simp [setPortSt]
@[simp] theorem setPortSt_que (p : Fin 4) (v : Nat) (s : State) : (setPortSt p v s).que = s.que := by simp [setPortSt]
@[simp] theorem setPortSt_chans (p : Fin 4) (v : Nat) (s : State) : (setPortSt p v s).chans = s.chans := by simp [setPortSt]
@[simp] theorem setPortSt_phys (p : Fin 4) (v : Nat) (s : State) : (setPortSt p v s).phys = s.phys := by simp [setPortSt]
@[simp] theorem setPortSt_led (p : Fin 4) (v : Nat) (s : State) : (setPortSt p v s).led = s.led := by simp [setPortSt]
@[simp] theorem setPortSt_pwr (p : Fin 4) (v : Nat) (s : State) : (setPortSt p v s).pwr = s.pwr := by simp [setPortSt]
@[simp] theorem setPortSt_con (p : Fin 4) (v : Nat) (s : State) : (setPortSt p v s).con = s.con := by simp [setPortSt]
@[simp] theorem setPortSt_prof (p : Fin 4) (v : Nat) (s : State) : (setPortSt p v s).prof = s.prof := by simp [setPortSt]
@[simp] theorem setPortSt_perEnd (p : Fin 4) (v : Nat) (s : State) : (setPortSt p v s).perEnd = s.perEnd := by simp [setPortSt]
@[simp] theorem setPortSt_tollEnd (p : Fin 4) (v : Nat) (s : State) : (setPortSt p v s).tollEnd = s.tollEnd := by simp [setPortSt]
@[simp] theorem setPortSt_horizon (p : Fin 4) (v : Nat) (s : State) : (setPortSt p v s).horizon = s.horizon := by simp [setPortSt]
@[simp] theorem setPortSt_probe (p : Fin 4) (v : Nat) (s : State) : (setPortSt p v s).probe = s.probe := by simp [setPortSt]
@[simp] theorem setPortSt_guard (p : Fin 4) (v : Nat) (s : State) : (setPortSt p v s).guard = s.guard := by simp [setPortSt]
@[simp] theorem setPortSt_latches (p : Fin 4) (v : Nat) (s : State) : (setPortSt p v s).latches = s.latches := by simp [setPortSt]
@[simp] theorem setPortSt_shadow (p : Fin 4) (v : Nat) (s : State) : (setPortSt p v s).shadow = s.shadow := by simp [setPortSt]
@[simp] theorem setPortSt_hold (p : Fin 4) (v : Nat) (s : State) : (setPortSt p v s).hold = s.hold := by simp [setPortSt]

@[simp] theorem toDetect_pending (p : Fin 4) (s : State) : (toDetect p s).pending = s.pending := by simp [toDetect]
@[simp] theorem toDetect_d8 (p : Fin 4) (s : State) : (toDetect p s).d8 = s.d8 := by simp [toDetect]
@[simp] theorem toDetect_free (p : Fin 4) (s : State) : (toDetect p s).free = s.free := by simp [toDetect]
@[simp] theorem toDetect_ix (p : Fin 4) (s : State) : (toDetect p s).ix = s.ix := by simp [toDetect]
@[simp] theorem toDetect_dram (p : Fin 4) (s : State) : (toDetect p s).dram = s.dram := by simp [toDetect]
@[simp] theorem toDetect_wmem (p : Fin 4) (s : State) : (toDetect p s).wmem = s.wmem := by simp [toDetect]
@[simp] theorem toDetect_streams (p : Fin 4) (s : State) : (toDetect p s).streams = s.streams := by simp [toDetect]
@[simp] theorem toDetect_rings (p : Fin 4) (s : State) : (toDetect p s).rings = s.rings := by simp [toDetect]
@[simp] theorem toDetect_mans (p : Fin 4) (s : State) : (toDetect p s).mans = s.mans := by simp [toDetect]
@[simp] theorem toDetect_accts (p : Fin 4) (s : State) : (toDetect p s).accts = s.accts := by simp [toDetect]
@[simp] theorem toDetect_arbs (p : Fin 4) (s : State) : (toDetect p s).arbs = s.arbs := by simp [toDetect]
@[simp] theorem toDetect_order (p : Fin 4) (s : State) : (toDetect p s).order = s.order := by simp [toDetect]
@[simp] theorem toDetect_ofsOld (p : Fin 4) (s : State) : (toDetect p s).ofsOld = s.ofsOld := by simp [toDetect]
@[simp] theorem toDetect_toll (p : Fin 4) (s : State) : (toDetect p s).toll = s.toll := by simp [toDetect]
@[simp] theorem toDetect_way (p : Fin 4) (s : State) : (toDetect p s).way = s.way := by simp [toDetect]
@[simp] theorem toDetect_wayOps (p : Fin 4) (s : State) : (toDetect p s).wayOps = s.wayOps := by simp [toDetect]
@[simp] theorem toDetect_walks (p : Fin 4) (s : State) : (toDetect p s).walks = s.walks := by simp [toDetect]
@[simp] theorem toDetect_caravans (p : Fin 4) (s : State) : (toDetect p s).caravans = s.caravans := by simp [toDetect]
@[simp] theorem toDetect_wreads (p : Fin 4) (s : State) : (toDetect p s).wreads = s.wreads := by simp [toDetect]
@[simp] theorem toDetect_que (p : Fin 4) (s : State) : (toDetect p s).que = s.que := by simp [toDetect]
@[simp] theorem toDetect_chans (p : Fin 4) (s : State) : (toDetect p s).chans = s.chans := by simp [toDetect]
@[simp] theorem toDetect_phys (p : Fin 4) (s : State) : (toDetect p s).phys = s.phys := by simp [toDetect]
@[simp] theorem toDetect_led (p : Fin 4) (s : State) : (toDetect p s).led = s.led := by simp [toDetect]
@[simp] theorem toDetect_pwr (p : Fin 4) (s : State) : (toDetect p s).pwr = s.pwr := by simp [toDetect]
@[simp] theorem toDetect_con (p : Fin 4) (s : State) : (toDetect p s).con = s.con := by simp [toDetect]
@[simp] theorem toDetect_prof (p : Fin 4) (s : State) : (toDetect p s).prof = s.prof := by simp [toDetect]
@[simp] theorem toDetect_perEnd (p : Fin 4) (s : State) : (toDetect p s).perEnd = s.perEnd := by simp [toDetect]
@[simp] theorem toDetect_tollEnd (p : Fin 4) (s : State) : (toDetect p s).tollEnd = s.tollEnd := by simp [toDetect]
@[simp] theorem toDetect_horizon (p : Fin 4) (s : State) : (toDetect p s).horizon = s.horizon := by simp [toDetect]
@[simp] theorem toDetect_probe (p : Fin 4) (s : State) : (toDetect p s).probe = s.probe := by simp [toDetect]
@[simp] theorem toDetect_guard (p : Fin 4) (s : State) : (toDetect p s).guard = s.guard := by simp [toDetect]
@[simp] theorem toDetect_latches (p : Fin 4) (s : State) : (toDetect p s).latches = s.latches := by simp [toDetect]
@[simp] theorem toDetect_shadow (p : Fin 4) (s : State) : (toDetect p s).shadow = s.shadow := by simp [toDetect]
@[simp] theorem toDetect_hold (p : Fin 4) (s : State) : (toDetect p s).hold = s.hold := by simp [toDetect]

@[simp] theorem sendFlit_pending (p : Fin 4) (ft : BitVec 4) (rply : Bool) (t : TxFlit) (s : State) : (sendFlit p ft rply t s).pending = s.pending := by unfold sendFlit onlyIf; dsimp only; (repeat' split) <;> simp
@[simp] theorem sendFlit_d8 (p : Fin 4) (ft : BitVec 4) (rply : Bool) (t : TxFlit) (s : State) : (sendFlit p ft rply t s).d8 = s.d8 := by unfold sendFlit onlyIf; dsimp only; (repeat' split) <;> simp
@[simp] theorem sendFlit_free (p : Fin 4) (ft : BitVec 4) (rply : Bool) (t : TxFlit) (s : State) : (sendFlit p ft rply t s).free = s.free := by unfold sendFlit onlyIf; dsimp only; (repeat' split) <;> simp
@[simp] theorem sendFlit_ix (p : Fin 4) (ft : BitVec 4) (rply : Bool) (t : TxFlit) (s : State) : (sendFlit p ft rply t s).ix = s.ix := by unfold sendFlit onlyIf; dsimp only; (repeat' split) <;> simp
@[simp] theorem sendFlit_dram (p : Fin 4) (ft : BitVec 4) (rply : Bool) (t : TxFlit) (s : State) : (sendFlit p ft rply t s).dram = s.dram := by unfold sendFlit onlyIf; dsimp only; (repeat' split) <;> simp
@[simp] theorem sendFlit_wmem (p : Fin 4) (ft : BitVec 4) (rply : Bool) (t : TxFlit) (s : State) : (sendFlit p ft rply t s).wmem = s.wmem := by unfold sendFlit onlyIf; dsimp only; (repeat' split) <;> simp
@[simp] theorem sendFlit_streams (p : Fin 4) (ft : BitVec 4) (rply : Bool) (t : TxFlit) (s : State) : (sendFlit p ft rply t s).streams = s.streams := by unfold sendFlit onlyIf; dsimp only; (repeat' split) <;> simp
@[simp] theorem sendFlit_rings (p : Fin 4) (ft : BitVec 4) (rply : Bool) (t : TxFlit) (s : State) : (sendFlit p ft rply t s).rings = s.rings := by unfold sendFlit onlyIf; dsimp only; (repeat' split) <;> simp
@[simp] theorem sendFlit_mans (p : Fin 4) (ft : BitVec 4) (rply : Bool) (t : TxFlit) (s : State) : (sendFlit p ft rply t s).mans = s.mans := by unfold sendFlit onlyIf; dsimp only; (repeat' split) <;> simp
@[simp] theorem sendFlit_accts (p : Fin 4) (ft : BitVec 4) (rply : Bool) (t : TxFlit) (s : State) : (sendFlit p ft rply t s).accts = s.accts := by unfold sendFlit onlyIf; dsimp only; (repeat' split) <;> simp
@[simp] theorem sendFlit_arbs (p : Fin 4) (ft : BitVec 4) (rply : Bool) (t : TxFlit) (s : State) : (sendFlit p ft rply t s).arbs = s.arbs := by unfold sendFlit onlyIf; dsimp only; (repeat' split) <;> simp
@[simp] theorem sendFlit_order (p : Fin 4) (ft : BitVec 4) (rply : Bool) (t : TxFlit) (s : State) : (sendFlit p ft rply t s).order = s.order := by unfold sendFlit onlyIf; dsimp only; (repeat' split) <;> simp
@[simp] theorem sendFlit_ofsOld (p : Fin 4) (ft : BitVec 4) (rply : Bool) (t : TxFlit) (s : State) : (sendFlit p ft rply t s).ofsOld = s.ofsOld := by unfold sendFlit onlyIf; dsimp only; (repeat' split) <;> simp
@[simp] theorem sendFlit_toll (p : Fin 4) (ft : BitVec 4) (rply : Bool) (t : TxFlit) (s : State) : (sendFlit p ft rply t s).toll = s.toll := by unfold sendFlit onlyIf; dsimp only; (repeat' split) <;> simp
@[simp] theorem sendFlit_way (p : Fin 4) (ft : BitVec 4) (rply : Bool) (t : TxFlit) (s : State) : (sendFlit p ft rply t s).way = s.way := by unfold sendFlit onlyIf; dsimp only; (repeat' split) <;> simp
@[simp] theorem sendFlit_wayOps (p : Fin 4) (ft : BitVec 4) (rply : Bool) (t : TxFlit) (s : State) : (sendFlit p ft rply t s).wayOps = s.wayOps := by unfold sendFlit onlyIf; dsimp only; (repeat' split) <;> simp
@[simp] theorem sendFlit_walks (p : Fin 4) (ft : BitVec 4) (rply : Bool) (t : TxFlit) (s : State) : (sendFlit p ft rply t s).walks = s.walks := by unfold sendFlit onlyIf; dsimp only; (repeat' split) <;> simp
@[simp] theorem sendFlit_caravans (p : Fin 4) (ft : BitVec 4) (rply : Bool) (t : TxFlit) (s : State) : (sendFlit p ft rply t s).caravans = s.caravans := by unfold sendFlit onlyIf; dsimp only; (repeat' split) <;> simp
@[simp] theorem sendFlit_wreads (p : Fin 4) (ft : BitVec 4) (rply : Bool) (t : TxFlit) (s : State) : (sendFlit p ft rply t s).wreads = s.wreads := by unfold sendFlit onlyIf; dsimp only; (repeat' split) <;> simp
@[simp] theorem sendFlit_que (p : Fin 4) (ft : BitVec 4) (rply : Bool) (t : TxFlit) (s : State) : (sendFlit p ft rply t s).que = s.que := by unfold sendFlit onlyIf; dsimp only; (repeat' split) <;> simp
@[simp] theorem sendFlit_chans (p : Fin 4) (ft : BitVec 4) (rply : Bool) (t : TxFlit) (s : State) : (sendFlit p ft rply t s).chans = s.chans := by unfold sendFlit onlyIf; dsimp only; (repeat' split) <;> simp
@[simp] theorem sendFlit_phys (p : Fin 4) (ft : BitVec 4) (rply : Bool) (t : TxFlit) (s : State) : (sendFlit p ft rply t s).phys = s.phys := by unfold sendFlit onlyIf; dsimp only; (repeat' split) <;> simp
@[simp] theorem sendFlit_led (p : Fin 4) (ft : BitVec 4) (rply : Bool) (t : TxFlit) (s : State) : (sendFlit p ft rply t s).led = s.led := by unfold sendFlit onlyIf; dsimp only; (repeat' split) <;> simp
@[simp] theorem sendFlit_bist (p : Fin 4) (ft : BitVec 4) (rply : Bool) (t : TxFlit) (s : State) : (sendFlit p ft rply t s).bist = s.bist := by unfold sendFlit onlyIf; dsimp only; (repeat' split) <;> simp
@[simp] theorem sendFlit_pwr (p : Fin 4) (ft : BitVec 4) (rply : Bool) (t : TxFlit) (s : State) : (sendFlit p ft rply t s).pwr = s.pwr := by unfold sendFlit onlyIf; dsimp only; (repeat' split) <;> simp
@[simp] theorem sendFlit_con (p : Fin 4) (ft : BitVec 4) (rply : Bool) (t : TxFlit) (s : State) : (sendFlit p ft rply t s).con = s.con := by unfold sendFlit onlyIf; dsimp only; (repeat' split) <;> simp
@[simp] theorem sendFlit_prof (p : Fin 4) (ft : BitVec 4) (rply : Bool) (t : TxFlit) (s : State) : (sendFlit p ft rply t s).prof = s.prof := by unfold sendFlit onlyIf; dsimp only; (repeat' split) <;> simp
@[simp] theorem sendFlit_perEnd (p : Fin 4) (ft : BitVec 4) (rply : Bool) (t : TxFlit) (s : State) : (sendFlit p ft rply t s).perEnd = s.perEnd := by unfold sendFlit onlyIf; dsimp only; (repeat' split) <;> simp
@[simp] theorem sendFlit_tollEnd (p : Fin 4) (ft : BitVec 4) (rply : Bool) (t : TxFlit) (s : State) : (sendFlit p ft rply t s).tollEnd = s.tollEnd := by unfold sendFlit onlyIf; dsimp only; (repeat' split) <;> simp
@[simp] theorem sendFlit_horizon (p : Fin 4) (ft : BitVec 4) (rply : Bool) (t : TxFlit) (s : State) : (sendFlit p ft rply t s).horizon = s.horizon := by unfold sendFlit onlyIf; dsimp only; (repeat' split) <;> simp
@[simp] theorem sendFlit_probe (p : Fin 4) (ft : BitVec 4) (rply : Bool) (t : TxFlit) (s : State) : (sendFlit p ft rply t s).probe = s.probe := by unfold sendFlit onlyIf; dsimp only; (repeat' split) <;> simp
@[simp] theorem sendFlit_guard (p : Fin 4) (ft : BitVec 4) (rply : Bool) (t : TxFlit) (s : State) : (sendFlit p ft rply t s).guard = s.guard := by unfold sendFlit onlyIf; dsimp only; (repeat' split) <;> simp
@[simp] theorem sendFlit_latches (p : Fin 4) (ft : BitVec 4) (rply : Bool) (t : TxFlit) (s : State) : (sendFlit p ft rply t s).latches = s.latches := by unfold sendFlit onlyIf; dsimp only; (repeat' split) <;> simp
@[simp] theorem sendFlit_shadow (p : Fin 4) (ft : BitVec 4) (rply : Bool) (t : TxFlit) (s : State) : (sendFlit p ft rply t s).shadow = s.shadow := by unfold sendFlit onlyIf; dsimp only; (repeat' split) <;> simp
@[simp] theorem sendFlit_hold (p : Fin 4) (ft : BitVec 4) (rply : Bool) (t : TxFlit) (s : State) : (sendFlit p ft rply t s).hold = s.hold := by unfold sendFlit onlyIf; dsimp only; (repeat' split) <;> simp

@[simp] theorem sendData_pending (p : Fin 4) (rply : Bool) (l : List TxFlit) (s : State) : (sendData p rply l s).pending = s.pending := forAll_inv (·.pending) _ _ _ (fun _ _ => sendFlit_pending _ _ _ _ _)
@[simp] theorem sendData_d8 (p : Fin 4) (rply : Bool) (l : List TxFlit) (s : State) : (sendData p rply l s).d8 = s.d8 := forAll_inv (·.d8) _ _ _ (fun _ _ => sendFlit_d8 _ _ _ _ _)
@[simp] theorem sendData_free (p : Fin 4) (rply : Bool) (l : List TxFlit) (s : State) : (sendData p rply l s).free = s.free := forAll_inv (·.free) _ _ _ (fun _ _ => sendFlit_free _ _ _ _ _)
@[simp] theorem sendData_ix (p : Fin 4) (rply : Bool) (l : List TxFlit) (s : State) : (sendData p rply l s).ix = s.ix := forAll_inv (·.ix) _ _ _ (fun _ _ => sendFlit_ix _ _ _ _ _)
@[simp] theorem sendData_dram (p : Fin 4) (rply : Bool) (l : List TxFlit) (s : State) : (sendData p rply l s).dram = s.dram := forAll_inv (·.dram) _ _ _ (fun _ _ => sendFlit_dram _ _ _ _ _)
@[simp] theorem sendData_wmem (p : Fin 4) (rply : Bool) (l : List TxFlit) (s : State) : (sendData p rply l s).wmem = s.wmem := forAll_inv (·.wmem) _ _ _ (fun _ _ => sendFlit_wmem _ _ _ _ _)
@[simp] theorem sendData_streams (p : Fin 4) (rply : Bool) (l : List TxFlit) (s : State) : (sendData p rply l s).streams = s.streams := forAll_inv (·.streams) _ _ _ (fun _ _ => sendFlit_streams _ _ _ _ _)
@[simp] theorem sendData_rings (p : Fin 4) (rply : Bool) (l : List TxFlit) (s : State) : (sendData p rply l s).rings = s.rings := forAll_inv (·.rings) _ _ _ (fun _ _ => sendFlit_rings _ _ _ _ _)
@[simp] theorem sendData_mans (p : Fin 4) (rply : Bool) (l : List TxFlit) (s : State) : (sendData p rply l s).mans = s.mans := forAll_inv (·.mans) _ _ _ (fun _ _ => sendFlit_mans _ _ _ _ _)
@[simp] theorem sendData_accts (p : Fin 4) (rply : Bool) (l : List TxFlit) (s : State) : (sendData p rply l s).accts = s.accts := forAll_inv (·.accts) _ _ _ (fun _ _ => sendFlit_accts _ _ _ _ _)
@[simp] theorem sendData_arbs (p : Fin 4) (rply : Bool) (l : List TxFlit) (s : State) : (sendData p rply l s).arbs = s.arbs := forAll_inv (·.arbs) _ _ _ (fun _ _ => sendFlit_arbs _ _ _ _ _)
@[simp] theorem sendData_order (p : Fin 4) (rply : Bool) (l : List TxFlit) (s : State) : (sendData p rply l s).order = s.order := forAll_inv (·.order) _ _ _ (fun _ _ => sendFlit_order _ _ _ _ _)
@[simp] theorem sendData_ofsOld (p : Fin 4) (rply : Bool) (l : List TxFlit) (s : State) : (sendData p rply l s).ofsOld = s.ofsOld := forAll_inv (·.ofsOld) _ _ _ (fun _ _ => sendFlit_ofsOld _ _ _ _ _)
@[simp] theorem sendData_toll (p : Fin 4) (rply : Bool) (l : List TxFlit) (s : State) : (sendData p rply l s).toll = s.toll := forAll_inv (·.toll) _ _ _ (fun _ _ => sendFlit_toll _ _ _ _ _)
@[simp] theorem sendData_way (p : Fin 4) (rply : Bool) (l : List TxFlit) (s : State) : (sendData p rply l s).way = s.way := forAll_inv (·.way) _ _ _ (fun _ _ => sendFlit_way _ _ _ _ _)
@[simp] theorem sendData_wayOps (p : Fin 4) (rply : Bool) (l : List TxFlit) (s : State) : (sendData p rply l s).wayOps = s.wayOps := forAll_inv (·.wayOps) _ _ _ (fun _ _ => sendFlit_wayOps _ _ _ _ _)
@[simp] theorem sendData_walks (p : Fin 4) (rply : Bool) (l : List TxFlit) (s : State) : (sendData p rply l s).walks = s.walks := forAll_inv (·.walks) _ _ _ (fun _ _ => sendFlit_walks _ _ _ _ _)
@[simp] theorem sendData_caravans (p : Fin 4) (rply : Bool) (l : List TxFlit) (s : State) : (sendData p rply l s).caravans = s.caravans := forAll_inv (·.caravans) _ _ _ (fun _ _ => sendFlit_caravans _ _ _ _ _)
@[simp] theorem sendData_wreads (p : Fin 4) (rply : Bool) (l : List TxFlit) (s : State) : (sendData p rply l s).wreads = s.wreads := forAll_inv (·.wreads) _ _ _ (fun _ _ => sendFlit_wreads _ _ _ _ _)
@[simp] theorem sendData_que (p : Fin 4) (rply : Bool) (l : List TxFlit) (s : State) : (sendData p rply l s).que = s.que := forAll_inv (·.que) _ _ _ (fun _ _ => sendFlit_que _ _ _ _ _)
@[simp] theorem sendData_chans (p : Fin 4) (rply : Bool) (l : List TxFlit) (s : State) : (sendData p rply l s).chans = s.chans := forAll_inv (·.chans) _ _ _ (fun _ _ => sendFlit_chans _ _ _ _ _)
@[simp] theorem sendData_phys (p : Fin 4) (rply : Bool) (l : List TxFlit) (s : State) : (sendData p rply l s).phys = s.phys := forAll_inv (·.phys) _ _ _ (fun _ _ => sendFlit_phys _ _ _ _ _)
@[simp] theorem sendData_led (p : Fin 4) (rply : Bool) (l : List TxFlit) (s : State) : (sendData p rply l s).led = s.led := forAll_inv (·.led) _ _ _ (fun _ _ => sendFlit_led _ _ _ _ _)
@[simp] theorem sendData_bist (p : Fin 4) (rply : Bool) (l : List TxFlit) (s : State) : (sendData p rply l s).bist = s.bist := forAll_inv (·.bist) _ _ _ (fun _ _ => sendFlit_bist _ _ _ _ _)
@[simp] theorem sendData_pwr (p : Fin 4) (rply : Bool) (l : List TxFlit) (s : State) : (sendData p rply l s).pwr = s.pwr := forAll_inv (·.pwr) _ _ _ (fun _ _ => sendFlit_pwr _ _ _ _ _)
@[simp] theorem sendData_con (p : Fin 4) (rply : Bool) (l : List TxFlit) (s : State) : (sendData p rply l s).con = s.con := forAll_inv (·.con) _ _ _ (fun _ _ => sendFlit_con _ _ _ _ _)
@[simp] theorem sendData_prof (p : Fin 4) (rply : Bool) (l : List TxFlit) (s : State) : (sendData p rply l s).prof = s.prof := forAll_inv (·.prof) _ _ _ (fun _ _ => sendFlit_prof _ _ _ _ _)
@[simp] theorem sendData_perEnd (p : Fin 4) (rply : Bool) (l : List TxFlit) (s : State) : (sendData p rply l s).perEnd = s.perEnd := forAll_inv (·.perEnd) _ _ _ (fun _ _ => sendFlit_perEnd _ _ _ _ _)
@[simp] theorem sendData_tollEnd (p : Fin 4) (rply : Bool) (l : List TxFlit) (s : State) : (sendData p rply l s).tollEnd = s.tollEnd := forAll_inv (·.tollEnd) _ _ _ (fun _ _ => sendFlit_tollEnd _ _ _ _ _)
@[simp] theorem sendData_horizon (p : Fin 4) (rply : Bool) (l : List TxFlit) (s : State) : (sendData p rply l s).horizon = s.horizon := forAll_inv (·.horizon) _ _ _ (fun _ _ => sendFlit_horizon _ _ _ _ _)
@[simp] theorem sendData_probe (p : Fin 4) (rply : Bool) (l : List TxFlit) (s : State) : (sendData p rply l s).probe = s.probe := forAll_inv (·.probe) _ _ _ (fun _ _ => sendFlit_probe _ _ _ _ _)
@[simp] theorem sendData_guard (p : Fin 4) (rply : Bool) (l : List TxFlit) (s : State) : (sendData p rply l s).guard = s.guard := forAll_inv (·.guard) _ _ _ (fun _ _ => sendFlit_guard _ _ _ _ _)
@[simp] theorem sendData_latches (p : Fin 4) (rply : Bool) (l : List TxFlit) (s : State) : (sendData p rply l s).latches = s.latches := forAll_inv (·.latches) _ _ _ (fun _ _ => sendFlit_latches _ _ _ _ _)
@[simp] theorem sendData_shadow (p : Fin 4) (rply : Bool) (l : List TxFlit) (s : State) : (sendData p rply l s).shadow = s.shadow := forAll_inv (·.shadow) _ _ _ (fun _ _ => sendFlit_shadow _ _ _ _ _)
@[simp] theorem sendData_hold (p : Fin 4) (rply : Bool) (l : List TxFlit) (s : State) : (sendData p rply l s).hold = s.hold := forAll_inv (·.hold) _ _ _ (fun _ _ => sendFlit_hold _ _ _ _ _)

@[simp] theorem sendTrain_pending (p : Fin 4) (s : State) : (sendTrain p s).pending = s.pending := (onlyIf_inv (·.pending) _ _ _ (fun _ => updPort_pending _ _ _)).trans (forAll_inv (·.pending) _ _ _ (fun _ _ => sendFlit_pending _ _ _ _ _))
@[simp] theorem sendTrain_d8 (p : Fin 4) (s : State) : (sendTrain p s).d8 = s.d8 := (onlyIf_inv (·.d8) _ _ _ (fun _ => updPort_d8 _ _ _)).trans (forAll_inv (·.d8) _ _ _ (fun _ _ => sendFlit_d8 _ _ _ _ _))
@[simp] theorem sendTrain_free (p : Fin 4) (s : State) : (sendTrain p s).free = s.free := (onlyIf_inv (·.free) _ _ _ (fun _ => updPort_free _ _ _)).trans (forAll_inv (·.free) _ _ _ (fun _ _ => sendFlit_free _ _ _ _ _))
@[simp] theorem sendTrain_ix (p : Fin 4) (s : State) : (sendTrain p s).ix = s.ix := (onlyIf_inv (·.ix) _ _ _ (fun _ => updPort_ix _ _ _)).trans (forAll_inv (·.ix) _ _ _ (fun _ _ => sendFlit_ix _ _ _ _ _))
@[simp] theorem sendTrain_dram (p : Fin 4) (s : State) : (sendTrain p s).dram = s.dram := (onlyIf_inv (·.dram) _ _ _ (fun _ => updPort_dram _ _ _)).trans (forAll_inv (·.dram) _ _ _ (fun _ _ => sendFlit_dram _ _ _ _ _))
@[simp] theorem sendTrain_wmem (p : Fin 4) (s : State) : (sendTrain p s).wmem = s.wmem := (onlyIf_inv (·.wmem) _ _ _ (fun _ => updPort_wmem _ _ _)).trans (forAll_inv (·.wmem) _ _ _ (fun _ _ => sendFlit_wmem _ _ _ _ _))
@[simp] theorem sendTrain_streams (p : Fin 4) (s : State) : (sendTrain p s).streams = s.streams := (onlyIf_inv (·.streams) _ _ _ (fun _ => updPort_streams _ _ _)).trans (forAll_inv (·.streams) _ _ _ (fun _ _ => sendFlit_streams _ _ _ _ _))
@[simp] theorem sendTrain_rings (p : Fin 4) (s : State) : (sendTrain p s).rings = s.rings := (onlyIf_inv (·.rings) _ _ _ (fun _ => updPort_rings _ _ _)).trans (forAll_inv (·.rings) _ _ _ (fun _ _ => sendFlit_rings _ _ _ _ _))
@[simp] theorem sendTrain_mans (p : Fin 4) (s : State) : (sendTrain p s).mans = s.mans := (onlyIf_inv (·.mans) _ _ _ (fun _ => updPort_mans _ _ _)).trans (forAll_inv (·.mans) _ _ _ (fun _ _ => sendFlit_mans _ _ _ _ _))
@[simp] theorem sendTrain_accts (p : Fin 4) (s : State) : (sendTrain p s).accts = s.accts := (onlyIf_inv (·.accts) _ _ _ (fun _ => updPort_accts _ _ _)).trans (forAll_inv (·.accts) _ _ _ (fun _ _ => sendFlit_accts _ _ _ _ _))
@[simp] theorem sendTrain_arbs (p : Fin 4) (s : State) : (sendTrain p s).arbs = s.arbs := (onlyIf_inv (·.arbs) _ _ _ (fun _ => updPort_arbs _ _ _)).trans (forAll_inv (·.arbs) _ _ _ (fun _ _ => sendFlit_arbs _ _ _ _ _))
@[simp] theorem sendTrain_order (p : Fin 4) (s : State) : (sendTrain p s).order = s.order := (onlyIf_inv (·.order) _ _ _ (fun _ => updPort_order _ _ _)).trans (forAll_inv (·.order) _ _ _ (fun _ _ => sendFlit_order _ _ _ _ _))
@[simp] theorem sendTrain_ofsOld (p : Fin 4) (s : State) : (sendTrain p s).ofsOld = s.ofsOld := (onlyIf_inv (·.ofsOld) _ _ _ (fun _ => updPort_ofsOld _ _ _)).trans (forAll_inv (·.ofsOld) _ _ _ (fun _ _ => sendFlit_ofsOld _ _ _ _ _))
@[simp] theorem sendTrain_toll (p : Fin 4) (s : State) : (sendTrain p s).toll = s.toll := (onlyIf_inv (·.toll) _ _ _ (fun _ => updPort_toll _ _ _)).trans (forAll_inv (·.toll) _ _ _ (fun _ _ => sendFlit_toll _ _ _ _ _))
@[simp] theorem sendTrain_way (p : Fin 4) (s : State) : (sendTrain p s).way = s.way := (onlyIf_inv (·.way) _ _ _ (fun _ => updPort_way _ _ _)).trans (forAll_inv (·.way) _ _ _ (fun _ _ => sendFlit_way _ _ _ _ _))
@[simp] theorem sendTrain_wayOps (p : Fin 4) (s : State) : (sendTrain p s).wayOps = s.wayOps := (onlyIf_inv (·.wayOps) _ _ _ (fun _ => updPort_wayOps _ _ _)).trans (forAll_inv (·.wayOps) _ _ _ (fun _ _ => sendFlit_wayOps _ _ _ _ _))
@[simp] theorem sendTrain_walks (p : Fin 4) (s : State) : (sendTrain p s).walks = s.walks := (onlyIf_inv (·.walks) _ _ _ (fun _ => updPort_walks _ _ _)).trans (forAll_inv (·.walks) _ _ _ (fun _ _ => sendFlit_walks _ _ _ _ _))
@[simp] theorem sendTrain_caravans (p : Fin 4) (s : State) : (sendTrain p s).caravans = s.caravans := (onlyIf_inv (·.caravans) _ _ _ (fun _ => updPort_caravans _ _ _)).trans (forAll_inv (·.caravans) _ _ _ (fun _ _ => sendFlit_caravans _ _ _ _ _))
@[simp] theorem sendTrain_wreads (p : Fin 4) (s : State) : (sendTrain p s).wreads = s.wreads := (onlyIf_inv (·.wreads) _ _ _ (fun _ => updPort_wreads _ _ _)).trans (forAll_inv (·.wreads) _ _ _ (fun _ _ => sendFlit_wreads _ _ _ _ _))
@[simp] theorem sendTrain_que (p : Fin 4) (s : State) : (sendTrain p s).que = s.que := (onlyIf_inv (·.que) _ _ _ (fun _ => updPort_que _ _ _)).trans (forAll_inv (·.que) _ _ _ (fun _ _ => sendFlit_que _ _ _ _ _))
@[simp] theorem sendTrain_chans (p : Fin 4) (s : State) : (sendTrain p s).chans = s.chans := (onlyIf_inv (·.chans) _ _ _ (fun _ => updPort_chans _ _ _)).trans (forAll_inv (·.chans) _ _ _ (fun _ _ => sendFlit_chans _ _ _ _ _))
@[simp] theorem sendTrain_phys (p : Fin 4) (s : State) : (sendTrain p s).phys = s.phys := (onlyIf_inv (·.phys) _ _ _ (fun _ => updPort_phys _ _ _)).trans (forAll_inv (·.phys) _ _ _ (fun _ _ => sendFlit_phys _ _ _ _ _))
@[simp] theorem sendTrain_led (p : Fin 4) (s : State) : (sendTrain p s).led = s.led := (onlyIf_inv (·.led) _ _ _ (fun _ => updPort_led _ _ _)).trans (forAll_inv (·.led) _ _ _ (fun _ _ => sendFlit_led _ _ _ _ _))
@[simp] theorem sendTrain_bist (p : Fin 4) (s : State) : (sendTrain p s).bist = s.bist := (onlyIf_inv (·.bist) _ _ _ (fun _ => updPort_bist _ _ _)).trans (forAll_inv (·.bist) _ _ _ (fun _ _ => sendFlit_bist _ _ _ _ _))
@[simp] theorem sendTrain_pwr (p : Fin 4) (s : State) : (sendTrain p s).pwr = s.pwr := (onlyIf_inv (·.pwr) _ _ _ (fun _ => updPort_pwr _ _ _)).trans (forAll_inv (·.pwr) _ _ _ (fun _ _ => sendFlit_pwr _ _ _ _ _))
@[simp] theorem sendTrain_con (p : Fin 4) (s : State) : (sendTrain p s).con = s.con := (onlyIf_inv (·.con) _ _ _ (fun _ => updPort_con _ _ _)).trans (forAll_inv (·.con) _ _ _ (fun _ _ => sendFlit_con _ _ _ _ _))
@[simp] theorem sendTrain_prof (p : Fin 4) (s : State) : (sendTrain p s).prof = s.prof := (onlyIf_inv (·.prof) _ _ _ (fun _ => updPort_prof _ _ _)).trans (forAll_inv (·.prof) _ _ _ (fun _ _ => sendFlit_prof _ _ _ _ _))
@[simp] theorem sendTrain_perEnd (p : Fin 4) (s : State) : (sendTrain p s).perEnd = s.perEnd := (onlyIf_inv (·.perEnd) _ _ _ (fun _ => updPort_perEnd _ _ _)).trans (forAll_inv (·.perEnd) _ _ _ (fun _ _ => sendFlit_perEnd _ _ _ _ _))
@[simp] theorem sendTrain_tollEnd (p : Fin 4) (s : State) : (sendTrain p s).tollEnd = s.tollEnd := (onlyIf_inv (·.tollEnd) _ _ _ (fun _ => updPort_tollEnd _ _ _)).trans (forAll_inv (·.tollEnd) _ _ _ (fun _ _ => sendFlit_tollEnd _ _ _ _ _))
@[simp] theorem sendTrain_horizon (p : Fin 4) (s : State) : (sendTrain p s).horizon = s.horizon := (onlyIf_inv (·.horizon) _ _ _ (fun _ => updPort_horizon _ _ _)).trans (forAll_inv (·.horizon) _ _ _ (fun _ _ => sendFlit_horizon _ _ _ _ _))
@[simp] theorem sendTrain_probe (p : Fin 4) (s : State) : (sendTrain p s).probe = s.probe := (onlyIf_inv (·.probe) _ _ _ (fun _ => updPort_probe _ _ _)).trans (forAll_inv (·.probe) _ _ _ (fun _ _ => sendFlit_probe _ _ _ _ _))
@[simp] theorem sendTrain_guard (p : Fin 4) (s : State) : (sendTrain p s).guard = s.guard := (onlyIf_inv (·.guard) _ _ _ (fun _ => updPort_guard _ _ _)).trans (forAll_inv (·.guard) _ _ _ (fun _ _ => sendFlit_guard _ _ _ _ _))
@[simp] theorem sendTrain_latches (p : Fin 4) (s : State) : (sendTrain p s).latches = s.latches := (onlyIf_inv (·.latches) _ _ _ (fun _ => updPort_latches _ _ _)).trans (forAll_inv (·.latches) _ _ _ (fun _ _ => sendFlit_latches _ _ _ _ _))
@[simp] theorem sendTrain_shadow (p : Fin 4) (s : State) : (sendTrain p s).shadow = s.shadow := (onlyIf_inv (·.shadow) _ _ _ (fun _ => updPort_shadow _ _ _)).trans (forAll_inv (·.shadow) _ _ _ (fun _ _ => sendFlit_shadow _ _ _ _ _))
@[simp] theorem sendTrain_hold (p : Fin 4) (s : State) : (sendTrain p s).hold = s.hold := (onlyIf_inv (·.hold) _ _ _ (fun _ => updPort_hold _ _ _)).trans (forAll_inv (·.hold) _ _ _ (fun _ _ => sendFlit_hold _ _ _ _ _))

@[simp] theorem toRetrain_pending (p : Fin 4) (u : Bool) (s : State) : (toRetrain p u s).pending = s.pending := by simp [toRetrain]
@[simp] theorem toRetrain_d8 (p : Fin 4) (u : Bool) (s : State) : (toRetrain p u s).d8 = s.d8 := by simp [toRetrain]
@[simp] theorem toRetrain_free (p : Fin 4) (u : Bool) (s : State) : (toRetrain p u s).free = s.free := by simp [toRetrain]
@[simp] theorem toRetrain_ix (p : Fin 4) (u : Bool) (s : State) : (toRetrain p u s).ix = s.ix := by simp [toRetrain]
@[simp] theorem toRetrain_dram (p : Fin 4) (u : Bool) (s : State) : (toRetrain p u s).dram = s.dram := by simp [toRetrain]
@[simp] theorem toRetrain_wmem (p : Fin 4) (u : Bool) (s : State) : (toRetrain p u s).wmem = s.wmem := by simp [toRetrain]
@[simp] theorem toRetrain_streams (p : Fin 4) (u : Bool) (s : State) : (toRetrain p u s).streams = s.streams := by simp [toRetrain]
@[simp] theorem toRetrain_rings (p : Fin 4) (u : Bool) (s : State) : (toRetrain p u s).rings = s.rings := by simp [toRetrain]
@[simp] theorem toRetrain_mans (p : Fin 4) (u : Bool) (s : State) : (toRetrain p u s).mans = s.mans := by simp [toRetrain]
@[simp] theorem toRetrain_accts (p : Fin 4) (u : Bool) (s : State) : (toRetrain p u s).accts = s.accts := by simp [toRetrain]
@[simp] theorem toRetrain_arbs (p : Fin 4) (u : Bool) (s : State) : (toRetrain p u s).arbs = s.arbs := by simp [toRetrain]
@[simp] theorem toRetrain_order (p : Fin 4) (u : Bool) (s : State) : (toRetrain p u s).order = s.order := by simp [toRetrain]
@[simp] theorem toRetrain_ofsOld (p : Fin 4) (u : Bool) (s : State) : (toRetrain p u s).ofsOld = s.ofsOld := by simp [toRetrain]
@[simp] theorem toRetrain_toll (p : Fin 4) (u : Bool) (s : State) : (toRetrain p u s).toll = s.toll := by simp [toRetrain]
@[simp] theorem toRetrain_way (p : Fin 4) (u : Bool) (s : State) : (toRetrain p u s).way = s.way := by simp [toRetrain]
@[simp] theorem toRetrain_wayOps (p : Fin 4) (u : Bool) (s : State) : (toRetrain p u s).wayOps = s.wayOps := by simp [toRetrain]
@[simp] theorem toRetrain_walks (p : Fin 4) (u : Bool) (s : State) : (toRetrain p u s).walks = s.walks := by simp [toRetrain]
@[simp] theorem toRetrain_caravans (p : Fin 4) (u : Bool) (s : State) : (toRetrain p u s).caravans = s.caravans := by simp [toRetrain]
@[simp] theorem toRetrain_wreads (p : Fin 4) (u : Bool) (s : State) : (toRetrain p u s).wreads = s.wreads := by simp [toRetrain]
@[simp] theorem toRetrain_que (p : Fin 4) (u : Bool) (s : State) : (toRetrain p u s).que = s.que := by simp [toRetrain]
@[simp] theorem toRetrain_chans (p : Fin 4) (u : Bool) (s : State) : (toRetrain p u s).chans = s.chans := by simp [toRetrain]
@[simp] theorem toRetrain_phys (p : Fin 4) (u : Bool) (s : State) : (toRetrain p u s).phys = s.phys := by simp [toRetrain]
@[simp] theorem toRetrain_led (p : Fin 4) (u : Bool) (s : State) : (toRetrain p u s).led = s.led := by simp [toRetrain]
@[simp] theorem toRetrain_pwr (p : Fin 4) (u : Bool) (s : State) : (toRetrain p u s).pwr = s.pwr := by simp [toRetrain]
@[simp] theorem toRetrain_con (p : Fin 4) (u : Bool) (s : State) : (toRetrain p u s).con = s.con := by simp [toRetrain]
@[simp] theorem toRetrain_prof (p : Fin 4) (u : Bool) (s : State) : (toRetrain p u s).prof = s.prof := by simp [toRetrain]
@[simp] theorem toRetrain_perEnd (p : Fin 4) (u : Bool) (s : State) : (toRetrain p u s).perEnd = s.perEnd := by simp [toRetrain]
@[simp] theorem toRetrain_tollEnd (p : Fin 4) (u : Bool) (s : State) : (toRetrain p u s).tollEnd = s.tollEnd := by simp [toRetrain]
@[simp] theorem toRetrain_horizon (p : Fin 4) (u : Bool) (s : State) : (toRetrain p u s).horizon = s.horizon := by simp [toRetrain]
@[simp] theorem toRetrain_probe (p : Fin 4) (u : Bool) (s : State) : (toRetrain p u s).probe = s.probe := by simp [toRetrain]
@[simp] theorem toRetrain_guard (p : Fin 4) (u : Bool) (s : State) : (toRetrain p u s).guard = s.guard := by simp [toRetrain]
@[simp] theorem toRetrain_latches (p : Fin 4) (u : Bool) (s : State) : (toRetrain p u s).latches = s.latches := by simp [toRetrain]
@[simp] theorem toRetrain_shadow (p : Fin 4) (u : Bool) (s : State) : (toRetrain p u s).shadow = s.shadow := by simp [toRetrain]
@[simp] theorem toRetrain_hold (p : Fin 4) (u : Bool) (s : State) : (toRetrain p u s).hold = s.hold := by simp [toRetrain]

@[simp] theorem voidTags_pending (p : Fin 4) (s : State) : (voidTags p s).pending = s.pending := by simp [voidTags]
@[simp] theorem voidTags_d8 (p : Fin 4) (s : State) : (voidTags p s).d8 = s.d8 := by simp [voidTags]
@[simp] theorem voidTags_free (p : Fin 4) (s : State) : (voidTags p s).free = s.free := by simp [voidTags]
@[simp] theorem voidTags_regs (p : Fin 4) (s : State) : (voidTags p s).regs = s.regs := by simp [voidTags]
@[simp] theorem voidTags_ix (p : Fin 4) (s : State) : (voidTags p s).ix = s.ix := by simp [voidTags]
@[simp] theorem voidTags_dram (p : Fin 4) (s : State) : (voidTags p s).dram = s.dram := by simp [voidTags]
@[simp] theorem voidTags_wmem (p : Fin 4) (s : State) : (voidTags p s).wmem = s.wmem := by simp [voidTags]
@[simp] theorem voidTags_ports (p : Fin 4) (s : State) : (voidTags p s).ports = s.ports := by simp [voidTags]
@[simp] theorem voidTags_rings (p : Fin 4) (s : State) : (voidTags p s).rings = s.rings := by simp [voidTags]
@[simp] theorem voidTags_mans (p : Fin 4) (s : State) : (voidTags p s).mans = s.mans := by simp [voidTags]
@[simp] theorem voidTags_accts (p : Fin 4) (s : State) : (voidTags p s).accts = s.accts := by simp [voidTags]
@[simp] theorem voidTags_order (p : Fin 4) (s : State) : (voidTags p s).order = s.order := by simp [voidTags]
@[simp] theorem voidTags_ofsOld (p : Fin 4) (s : State) : (voidTags p s).ofsOld = s.ofsOld := by simp [voidTags]
@[simp] theorem voidTags_toll (p : Fin 4) (s : State) : (voidTags p s).toll = s.toll := by simp [voidTags]
@[simp] theorem voidTags_way (p : Fin 4) (s : State) : (voidTags p s).way = s.way := by simp [voidTags]
@[simp] theorem voidTags_wayOps (p : Fin 4) (s : State) : (voidTags p s).wayOps = s.wayOps := by simp [voidTags]
@[simp] theorem voidTags_walks (p : Fin 4) (s : State) : (voidTags p s).walks = s.walks := by simp [voidTags]
@[simp] theorem voidTags_wreads (p : Fin 4) (s : State) : (voidTags p s).wreads = s.wreads := by simp [voidTags]
@[simp] theorem voidTags_chans (p : Fin 4) (s : State) : (voidTags p s).chans = s.chans := by simp [voidTags]
@[simp] theorem voidTags_phys (p : Fin 4) (s : State) : (voidTags p s).phys = s.phys := by simp [voidTags]
@[simp] theorem voidTags_led (p : Fin 4) (s : State) : (voidTags p s).led = s.led := by simp [voidTags]
@[simp] theorem voidTags_bist (p : Fin 4) (s : State) : (voidTags p s).bist = s.bist := by simp [voidTags]
@[simp] theorem voidTags_pwr (p : Fin 4) (s : State) : (voidTags p s).pwr = s.pwr := by simp [voidTags]
@[simp] theorem voidTags_con (p : Fin 4) (s : State) : (voidTags p s).con = s.con := by simp [voidTags]
@[simp] theorem voidTags_prof (p : Fin 4) (s : State) : (voidTags p s).prof = s.prof := by simp [voidTags]
@[simp] theorem voidTags_perEnd (p : Fin 4) (s : State) : (voidTags p s).perEnd = s.perEnd := by simp [voidTags]
@[simp] theorem voidTags_tollEnd (p : Fin 4) (s : State) : (voidTags p s).tollEnd = s.tollEnd := by simp [voidTags]
@[simp] theorem voidTags_horizon (p : Fin 4) (s : State) : (voidTags p s).horizon = s.horizon := by simp [voidTags]
@[simp] theorem voidTags_probe (p : Fin 4) (s : State) : (voidTags p s).probe = s.probe := by simp [voidTags]
@[simp] theorem voidTags_guard (p : Fin 4) (s : State) : (voidTags p s).guard = s.guard := by simp [voidTags]
@[simp] theorem voidTags_latches (p : Fin 4) (s : State) : (voidTags p s).latches = s.latches := by simp [voidTags]
@[simp] theorem voidTags_shadow (p : Fin 4) (s : State) : (voidTags p s).shadow = s.shadow := by simp [voidTags]
@[simp] theorem voidTags_hold (p : Fin 4) (s : State) : (voidTags p s).hold = s.hold := by simp [voidTags]

@[simp] theorem tunnelDown_pending (p : Fin 4) (s : State) : (tunnelDown p s).pending = s.pending := by unfold tunnelDown; split <;> simp
@[simp] theorem tunnelDown_d8 (p : Fin 4) (s : State) : (tunnelDown p s).d8 = s.d8 := by unfold tunnelDown; split <;> simp
@[simp] theorem tunnelDown_free (p : Fin 4) (s : State) : (tunnelDown p s).free = s.free := by unfold tunnelDown; split <;> simp
@[simp] theorem tunnelDown_ix (p : Fin 4) (s : State) : (tunnelDown p s).ix = s.ix := by unfold tunnelDown; split <;> simp
@[simp] theorem tunnelDown_dram (p : Fin 4) (s : State) : (tunnelDown p s).dram = s.dram := by unfold tunnelDown; split <;> simp
@[simp] theorem tunnelDown_wmem (p : Fin 4) (s : State) : (tunnelDown p s).wmem = s.wmem := by unfold tunnelDown; split <;> simp
@[simp] theorem tunnelDown_ports (p : Fin 4) (s : State) : (tunnelDown p s).ports = s.ports := by unfold tunnelDown; split <;> simp
@[simp] theorem tunnelDown_streams (p : Fin 4) (s : State) : (tunnelDown p s).streams = s.streams := by unfold tunnelDown; split <;> simp
@[simp] theorem tunnelDown_rings (p : Fin 4) (s : State) : (tunnelDown p s).rings = s.rings := by unfold tunnelDown; split <;> simp
@[simp] theorem tunnelDown_mans (p : Fin 4) (s : State) : (tunnelDown p s).mans = s.mans := by unfold tunnelDown; split <;> simp
@[simp] theorem tunnelDown_accts (p : Fin 4) (s : State) : (tunnelDown p s).accts = s.accts := by unfold tunnelDown; split <;> simp
@[simp] theorem tunnelDown_arbs (p : Fin 4) (s : State) : (tunnelDown p s).arbs = s.arbs := by unfold tunnelDown; split <;> simp
@[simp] theorem tunnelDown_order (p : Fin 4) (s : State) : (tunnelDown p s).order = s.order := by unfold tunnelDown; split <;> simp
@[simp] theorem tunnelDown_ofsOld (p : Fin 4) (s : State) : (tunnelDown p s).ofsOld = s.ofsOld := by unfold tunnelDown; split <;> simp
@[simp] theorem tunnelDown_toll (p : Fin 4) (s : State) : (tunnelDown p s).toll = s.toll := by unfold tunnelDown; split <;> simp
@[simp] theorem tunnelDown_way (p : Fin 4) (s : State) : (tunnelDown p s).way = s.way := by unfold tunnelDown; split <;> simp
@[simp] theorem tunnelDown_wayOps (p : Fin 4) (s : State) : (tunnelDown p s).wayOps = s.wayOps := by unfold tunnelDown; split <;> simp
@[simp] theorem tunnelDown_walks (p : Fin 4) (s : State) : (tunnelDown p s).walks = s.walks := by unfold tunnelDown; split <;> simp
@[simp] theorem tunnelDown_caravans (p : Fin 4) (s : State) : (tunnelDown p s).caravans = s.caravans := by unfold tunnelDown; split <;> simp
@[simp] theorem tunnelDown_wreads (p : Fin 4) (s : State) : (tunnelDown p s).wreads = s.wreads := by unfold tunnelDown; split <;> simp
@[simp] theorem tunnelDown_que (p : Fin 4) (s : State) : (tunnelDown p s).que = s.que := by unfold tunnelDown; split <;> simp
@[simp] theorem tunnelDown_chans (p : Fin 4) (s : State) : (tunnelDown p s).chans = s.chans := by unfold tunnelDown; split <;> simp
@[simp] theorem tunnelDown_phys (p : Fin 4) (s : State) : (tunnelDown p s).phys = s.phys := by unfold tunnelDown; split <;> simp
@[simp] theorem tunnelDown_led (p : Fin 4) (s : State) : (tunnelDown p s).led = s.led := by unfold tunnelDown; split <;> simp
@[simp] theorem tunnelDown_bist (p : Fin 4) (s : State) : (tunnelDown p s).bist = s.bist := by unfold tunnelDown; split <;> simp
@[simp] theorem tunnelDown_pwr (p : Fin 4) (s : State) : (tunnelDown p s).pwr = s.pwr := by unfold tunnelDown; split <;> simp
@[simp] theorem tunnelDown_prof (p : Fin 4) (s : State) : (tunnelDown p s).prof = s.prof := by unfold tunnelDown; split <;> simp
@[simp] theorem tunnelDown_perEnd (p : Fin 4) (s : State) : (tunnelDown p s).perEnd = s.perEnd := by unfold tunnelDown; split <;> simp
@[simp] theorem tunnelDown_tollEnd (p : Fin 4) (s : State) : (tunnelDown p s).tollEnd = s.tollEnd := by unfold tunnelDown; split <;> simp
@[simp] theorem tunnelDown_horizon (p : Fin 4) (s : State) : (tunnelDown p s).horizon = s.horizon := by unfold tunnelDown; split <;> simp
@[simp] theorem tunnelDown_probe (p : Fin 4) (s : State) : (tunnelDown p s).probe = s.probe := by unfold tunnelDown; split <;> simp
@[simp] theorem tunnelDown_guard (p : Fin 4) (s : State) : (tunnelDown p s).guard = s.guard := by unfold tunnelDown; split <;> simp
@[simp] theorem tunnelDown_latches (p : Fin 4) (s : State) : (tunnelDown p s).latches = s.latches := by unfold tunnelDown; split <;> simp
@[simp] theorem tunnelDown_shadow (p : Fin 4) (s : State) : (tunnelDown p s).shadow = s.shadow := by unfold tunnelDown; split <;> simp
@[simp] theorem tunnelDown_hold (p : Fin 4) (s : State) : (tunnelDown p s).hold = s.hold := by unfold tunnelDown; split <;> simp

@[simp] theorem tunnelUp_pending (p : Fin 4) (s : State) : (tunnelUp p s).pending = s.pending := by unfold tunnelUp; extract_lets x; split <;> (first | (rw [emit_pending]; exact tunFollow_pending p s) | exact tunFollow_pending p s)
@[simp] theorem tunnelUp_d8 (p : Fin 4) (s : State) : (tunnelUp p s).d8 = s.d8 := by unfold tunnelUp; extract_lets x; split <;> (first | (rw [emit_d8]; exact tunFollow_d8 p s) | exact tunFollow_d8 p s)
@[simp] theorem tunnelUp_free (p : Fin 4) (s : State) : (tunnelUp p s).free = s.free := by unfold tunnelUp; extract_lets x; split <;> (first | (rw [emit_free]; exact tunFollow_free p s) | exact tunFollow_free p s)
@[simp] theorem tunnelUp_ix (p : Fin 4) (s : State) : (tunnelUp p s).ix = s.ix := by unfold tunnelUp; extract_lets x; split <;> (first | (rw [emit_ix]; exact tunFollow_ix p s) | exact tunFollow_ix p s)
@[simp] theorem tunnelUp_dram (p : Fin 4) (s : State) : (tunnelUp p s).dram = s.dram := by unfold tunnelUp; extract_lets x; split <;> (first | (rw [emit_dram]; exact tunFollow_dram p s) | exact tunFollow_dram p s)
@[simp] theorem tunnelUp_wmem (p : Fin 4) (s : State) : (tunnelUp p s).wmem = s.wmem := by unfold tunnelUp; extract_lets x; split <;> (first | (rw [emit_wmem]; exact tunFollow_wmem p s) | exact tunFollow_wmem p s)
@[simp] theorem tunnelUp_ports (p : Fin 4) (s : State) : (tunnelUp p s).ports = s.ports := by unfold tunnelUp; extract_lets x; split <;> (first | (rw [emit_ports]; exact tunFollow_ports p s) | exact tunFollow_ports p s)
@[simp] theorem tunnelUp_streams (p : Fin 4) (s : State) : (tunnelUp p s).streams = s.streams := by unfold tunnelUp; extract_lets x; split <;> (first | (rw [emit_streams]; exact tunFollow_streams p s) | exact tunFollow_streams p s)
@[simp] theorem tunnelUp_rings (p : Fin 4) (s : State) : (tunnelUp p s).rings = s.rings := by unfold tunnelUp; extract_lets x; split <;> (first | (rw [emit_rings]; exact tunFollow_rings p s) | exact tunFollow_rings p s)
@[simp] theorem tunnelUp_mans (p : Fin 4) (s : State) : (tunnelUp p s).mans = s.mans := by unfold tunnelUp; extract_lets x; split <;> (first | (rw [emit_mans]; exact tunFollow_mans p s) | exact tunFollow_mans p s)
@[simp] theorem tunnelUp_accts (p : Fin 4) (s : State) : (tunnelUp p s).accts = s.accts := by unfold tunnelUp; extract_lets x; split <;> (first | (rw [emit_accts]; exact tunFollow_accts p s) | exact tunFollow_accts p s)
@[simp] theorem tunnelUp_arbs (p : Fin 4) (s : State) : (tunnelUp p s).arbs = s.arbs := by unfold tunnelUp; extract_lets x; split <;> (first | (rw [emit_arbs]; exact tunFollow_arbs p s) | exact tunFollow_arbs p s)
@[simp] theorem tunnelUp_order (p : Fin 4) (s : State) : (tunnelUp p s).order = s.order := by unfold tunnelUp; extract_lets x; split <;> (first | (rw [emit_order]; exact tunFollow_order p s) | exact tunFollow_order p s)
@[simp] theorem tunnelUp_ofsOld (p : Fin 4) (s : State) : (tunnelUp p s).ofsOld = s.ofsOld := by unfold tunnelUp; extract_lets x; split <;> (first | (rw [emit_ofsOld]; exact tunFollow_ofsOld p s) | exact tunFollow_ofsOld p s)
@[simp] theorem tunnelUp_toll (p : Fin 4) (s : State) : (tunnelUp p s).toll = s.toll := by unfold tunnelUp; extract_lets x; split <;> (first | (rw [emit_toll]; exact tunFollow_toll p s) | exact tunFollow_toll p s)
@[simp] theorem tunnelUp_way (p : Fin 4) (s : State) : (tunnelUp p s).way = s.way := by unfold tunnelUp; extract_lets x; split <;> (first | (rw [emit_way]; exact tunFollow_way p s) | exact tunFollow_way p s)
@[simp] theorem tunnelUp_wayOps (p : Fin 4) (s : State) : (tunnelUp p s).wayOps = s.wayOps := by unfold tunnelUp; extract_lets x; split <;> (first | (rw [emit_wayOps]; exact tunFollow_wayOps p s) | exact tunFollow_wayOps p s)
@[simp] theorem tunnelUp_walks (p : Fin 4) (s : State) : (tunnelUp p s).walks = s.walks := by unfold tunnelUp; extract_lets x; split <;> (first | (rw [emit_walks]; exact tunFollow_walks p s) | exact tunFollow_walks p s)
@[simp] theorem tunnelUp_caravans (p : Fin 4) (s : State) : (tunnelUp p s).caravans = s.caravans := by unfold tunnelUp; extract_lets x; split <;> (first | (rw [emit_caravans]; exact tunFollow_caravans p s) | exact tunFollow_caravans p s)
@[simp] theorem tunnelUp_wreads (p : Fin 4) (s : State) : (tunnelUp p s).wreads = s.wreads := by unfold tunnelUp; extract_lets x; split <;> (first | (rw [emit_wreads]; exact tunFollow_wreads p s) | exact tunFollow_wreads p s)
@[simp] theorem tunnelUp_que (p : Fin 4) (s : State) : (tunnelUp p s).que = s.que := by unfold tunnelUp; extract_lets x; split <;> (first | (rw [emit_que]; exact tunFollow_que p s) | exact tunFollow_que p s)
@[simp] theorem tunnelUp_chans (p : Fin 4) (s : State) : (tunnelUp p s).chans = s.chans := by unfold tunnelUp; extract_lets x; split <;> (first | (rw [emit_chans]; exact tunFollow_chans p s) | exact tunFollow_chans p s)
@[simp] theorem tunnelUp_phys (p : Fin 4) (s : State) : (tunnelUp p s).phys = s.phys := by unfold tunnelUp; extract_lets x; split <;> (first | (rw [emit_phys]; exact tunFollow_phys p s) | exact tunFollow_phys p s)
@[simp] theorem tunnelUp_led (p : Fin 4) (s : State) : (tunnelUp p s).led = s.led := by unfold tunnelUp; extract_lets x; split <;> (first | (rw [emit_led]; exact tunFollow_led p s) | exact tunFollow_led p s)
@[simp] theorem tunnelUp_bist (p : Fin 4) (s : State) : (tunnelUp p s).bist = s.bist := by unfold tunnelUp; extract_lets x; split <;> (first | (rw [emit_bist]; exact tunFollow_bist p s) | exact tunFollow_bist p s)
@[simp] theorem tunnelUp_pwr (p : Fin 4) (s : State) : (tunnelUp p s).pwr = s.pwr := by unfold tunnelUp; extract_lets x; split <;> (first | (rw [emit_pwr]; exact tunFollow_pwr p s) | exact tunFollow_pwr p s)
@[simp] theorem tunnelUp_prof (p : Fin 4) (s : State) : (tunnelUp p s).prof = s.prof := by unfold tunnelUp; extract_lets x; split <;> (first | (rw [emit_prof]; exact tunFollow_prof p s) | exact tunFollow_prof p s)
@[simp] theorem tunnelUp_perEnd (p : Fin 4) (s : State) : (tunnelUp p s).perEnd = s.perEnd := by unfold tunnelUp; extract_lets x; split <;> (first | (rw [emit_perEnd]; exact tunFollow_perEnd p s) | exact tunFollow_perEnd p s)
@[simp] theorem tunnelUp_tollEnd (p : Fin 4) (s : State) : (tunnelUp p s).tollEnd = s.tollEnd := by unfold tunnelUp; extract_lets x; split <;> (first | (rw [emit_tollEnd]; exact tunFollow_tollEnd p s) | exact tunFollow_tollEnd p s)
@[simp] theorem tunnelUp_horizon (p : Fin 4) (s : State) : (tunnelUp p s).horizon = s.horizon := by unfold tunnelUp; extract_lets x; split <;> (first | (rw [emit_horizon]; exact tunFollow_horizon p s) | exact tunFollow_horizon p s)
@[simp] theorem tunnelUp_probe (p : Fin 4) (s : State) : (tunnelUp p s).probe = s.probe := by unfold tunnelUp; extract_lets x; split <;> (first | (rw [emit_probe]; exact tunFollow_probe p s) | exact tunFollow_probe p s)
@[simp] theorem tunnelUp_guard (p : Fin 4) (s : State) : (tunnelUp p s).guard = s.guard := by unfold tunnelUp; extract_lets x; split <;> (first | (rw [emit_guard]; exact tunFollow_guard p s) | exact tunFollow_guard p s)
@[simp] theorem tunnelUp_latches (p : Fin 4) (s : State) : (tunnelUp p s).latches = s.latches := by unfold tunnelUp; extract_lets x; split <;> (first | (rw [emit_latches]; exact tunFollow_latches p s) | exact tunFollow_latches p s)
@[simp] theorem tunnelUp_shadow (p : Fin 4) (s : State) : (tunnelUp p s).shadow = s.shadow := by unfold tunnelUp; extract_lets x; split <;> (first | (rw [emit_shadow]; exact tunFollow_shadow p s) | exact tunFollow_shadow p s)
@[simp] theorem tunnelUp_hold (p : Fin 4) (s : State) : (tunnelUp p s).hold = s.hold := by unfold tunnelUp; extract_lets x; split <;> (first | (rw [emit_hold]; exact tunFollow_hold p s) | exact tunFollow_hold p s)

@[simp] theorem clearPort_pending (p : Fin 4) (s : State) : (clearPort p s).pending = s.pending := by simp [clearPort]
@[simp] theorem clearPort_d8 (p : Fin 4) (s : State) : (clearPort p s).d8 = s.d8 := by simp [clearPort]
@[simp] theorem clearPort_free (p : Fin 4) (s : State) : (clearPort p s).free = s.free := by simp [clearPort]
@[simp] theorem clearPort_ix (p : Fin 4) (s : State) : (clearPort p s).ix = s.ix := by simp [clearPort]
@[simp] theorem clearPort_dram (p : Fin 4) (s : State) : (clearPort p s).dram = s.dram := by simp [clearPort]
@[simp] theorem clearPort_wmem (p : Fin 4) (s : State) : (clearPort p s).wmem = s.wmem := by simp [clearPort]
@[simp] theorem clearPort_rings (p : Fin 4) (s : State) : (clearPort p s).rings = s.rings := by simp [clearPort]
@[simp] theorem clearPort_mans (p : Fin 4) (s : State) : (clearPort p s).mans = s.mans := by simp [clearPort]
@[simp] theorem clearPort_accts (p : Fin 4) (s : State) : (clearPort p s).accts = s.accts := by simp [clearPort]
@[simp] theorem clearPort_order (p : Fin 4) (s : State) : (clearPort p s).order = s.order := by simp [clearPort]
@[simp] theorem clearPort_ofsOld (p : Fin 4) (s : State) : (clearPort p s).ofsOld = s.ofsOld := by simp [clearPort]
@[simp] theorem clearPort_toll (p : Fin 4) (s : State) : (clearPort p s).toll = s.toll := by simp [clearPort]
@[simp] theorem clearPort_way (p : Fin 4) (s : State) : (clearPort p s).way = s.way := by simp [clearPort]
@[simp] theorem clearPort_wayOps (p : Fin 4) (s : State) : (clearPort p s).wayOps = s.wayOps := by simp [clearPort]
@[simp] theorem clearPort_walks (p : Fin 4) (s : State) : (clearPort p s).walks = s.walks := by simp [clearPort]
@[simp] theorem clearPort_wreads (p : Fin 4) (s : State) : (clearPort p s).wreads = s.wreads := by simp [clearPort]
@[simp] theorem clearPort_chans (p : Fin 4) (s : State) : (clearPort p s).chans = s.chans := by simp [clearPort]
@[simp] theorem clearPort_phys (p : Fin 4) (s : State) : (clearPort p s).phys = s.phys := by simp [clearPort]
@[simp] theorem clearPort_led (p : Fin 4) (s : State) : (clearPort p s).led = s.led := by simp [clearPort]
@[simp] theorem clearPort_bist (p : Fin 4) (s : State) : (clearPort p s).bist = s.bist := by simp [clearPort]
@[simp] theorem clearPort_pwr (p : Fin 4) (s : State) : (clearPort p s).pwr = s.pwr := by simp [clearPort]
@[simp] theorem clearPort_prof (p : Fin 4) (s : State) : (clearPort p s).prof = s.prof := by simp [clearPort]
@[simp] theorem clearPort_perEnd (p : Fin 4) (s : State) : (clearPort p s).perEnd = s.perEnd := by simp [clearPort]
@[simp] theorem clearPort_tollEnd (p : Fin 4) (s : State) : (clearPort p s).tollEnd = s.tollEnd := by simp [clearPort]
@[simp] theorem clearPort_horizon (p : Fin 4) (s : State) : (clearPort p s).horizon = s.horizon := by simp [clearPort]
@[simp] theorem clearPort_probe (p : Fin 4) (s : State) : (clearPort p s).probe = s.probe := by simp [clearPort]
@[simp] theorem clearPort_guard (p : Fin 4) (s : State) : (clearPort p s).guard = s.guard := by simp [clearPort]
@[simp] theorem clearPort_latches (p : Fin 4) (s : State) : (clearPort p s).latches = s.latches := by simp [clearPort]
@[simp] theorem clearPort_shadow (p : Fin 4) (s : State) : (clearPort p s).shadow = s.shadow := by simp [clearPort]
@[simp] theorem clearPort_hold (p : Fin 4) (s : State) : (clearPort p s).hold = s.hold := by simp [clearPort]

@[simp] theorem portReset_pending (p : Fin 4) (c : String) (s : State) : (portReset p c s).pending = s.pending := by unfold portReset; dsimp only; split <;> simp
@[simp] theorem portReset_d8 (p : Fin 4) (c : String) (s : State) : (portReset p c s).d8 = s.d8 := by unfold portReset; dsimp only; split <;> simp
@[simp] theorem portReset_free (p : Fin 4) (c : String) (s : State) : (portReset p c s).free = s.free := by unfold portReset; dsimp only; split <;> simp
@[simp] theorem portReset_ix (p : Fin 4) (c : String) (s : State) : (portReset p c s).ix = s.ix := by unfold portReset; dsimp only; split <;> simp
@[simp] theorem portReset_dram (p : Fin 4) (c : String) (s : State) : (portReset p c s).dram = s.dram := by unfold portReset; dsimp only; split <;> simp
@[simp] theorem portReset_wmem (p : Fin 4) (c : String) (s : State) : (portReset p c s).wmem = s.wmem := by unfold portReset; dsimp only; split <;> simp
@[simp] theorem portReset_rings (p : Fin 4) (c : String) (s : State) : (portReset p c s).rings = s.rings := by unfold portReset; dsimp only; split <;> simp
@[simp] theorem portReset_mans (p : Fin 4) (c : String) (s : State) : (portReset p c s).mans = s.mans := by unfold portReset; dsimp only; split <;> simp
@[simp] theorem portReset_accts (p : Fin 4) (c : String) (s : State) : (portReset p c s).accts = s.accts := by unfold portReset; dsimp only; split <;> simp
@[simp] theorem portReset_order (p : Fin 4) (c : String) (s : State) : (portReset p c s).order = s.order := by unfold portReset; dsimp only; split <;> simp
@[simp] theorem portReset_ofsOld (p : Fin 4) (c : String) (s : State) : (portReset p c s).ofsOld = s.ofsOld := by unfold portReset; dsimp only; split <;> simp
@[simp] theorem portReset_toll (p : Fin 4) (c : String) (s : State) : (portReset p c s).toll = s.toll := by unfold portReset; dsimp only; split <;> simp
@[simp] theorem portReset_way (p : Fin 4) (c : String) (s : State) : (portReset p c s).way = s.way := by unfold portReset; dsimp only; split <;> simp
@[simp] theorem portReset_wayOps (p : Fin 4) (c : String) (s : State) : (portReset p c s).wayOps = s.wayOps := by unfold portReset; dsimp only; split <;> simp
@[simp] theorem portReset_walks (p : Fin 4) (c : String) (s : State) : (portReset p c s).walks = s.walks := by unfold portReset; dsimp only; split <;> simp
@[simp] theorem portReset_wreads (p : Fin 4) (c : String) (s : State) : (portReset p c s).wreads = s.wreads := by unfold portReset; dsimp only; split <;> simp
@[simp] theorem portReset_chans (p : Fin 4) (c : String) (s : State) : (portReset p c s).chans = s.chans := by unfold portReset; dsimp only; split <;> simp
@[simp] theorem portReset_phys (p : Fin 4) (c : String) (s : State) : (portReset p c s).phys = s.phys := by unfold portReset; dsimp only; split <;> simp
@[simp] theorem portReset_led (p : Fin 4) (c : String) (s : State) : (portReset p c s).led = s.led := by unfold portReset; dsimp only; split <;> simp
@[simp] theorem portReset_pwr (p : Fin 4) (c : String) (s : State) : (portReset p c s).pwr = s.pwr := by unfold portReset; dsimp only; split <;> simp
@[simp] theorem portReset_prof (p : Fin 4) (c : String) (s : State) : (portReset p c s).prof = s.prof := by unfold portReset; dsimp only; split <;> simp
@[simp] theorem portReset_perEnd (p : Fin 4) (c : String) (s : State) : (portReset p c s).perEnd = s.perEnd := by unfold portReset; dsimp only; split <;> simp
@[simp] theorem portReset_tollEnd (p : Fin 4) (c : String) (s : State) : (portReset p c s).tollEnd = s.tollEnd := by unfold portReset; dsimp only; split <;> simp
@[simp] theorem portReset_horizon (p : Fin 4) (c : String) (s : State) : (portReset p c s).horizon = s.horizon := by unfold portReset; dsimp only; split <;> simp
@[simp] theorem portReset_probe (p : Fin 4) (c : String) (s : State) : (portReset p c s).probe = s.probe := by unfold portReset; dsimp only; split <;> simp
@[simp] theorem portReset_guard (p : Fin 4) (c : String) (s : State) : (portReset p c s).guard = s.guard := by unfold portReset; dsimp only; split <;> simp
@[simp] theorem portReset_latches (p : Fin 4) (c : String) (s : State) : (portReset p c s).latches = s.latches := by unfold portReset; dsimp only; split <;> simp
@[simp] theorem portReset_shadow (p : Fin 4) (c : String) (s : State) : (portReset p c s).shadow = s.shadow := by unfold portReset; dsimp only; split <;> simp
@[simp] theorem portReset_hold (p : Fin 4) (c : String) (s : State) : (portReset p c s).hold = s.hold := by unfold portReset; dsimp only; split <;> simp

@[simp] theorem protocolError_pending (p : Fin 4) (s : State) : (protocolError p s).pending = s.pending := by simp [protocolError]
@[simp] theorem protocolError_d8 (p : Fin 4) (s : State) : (protocolError p s).d8 = s.d8 := by simp [protocolError]
@[simp] theorem protocolError_free (p : Fin 4) (s : State) : (protocolError p s).free = s.free := by simp [protocolError]
@[simp] theorem protocolError_ix (p : Fin 4) (s : State) : (protocolError p s).ix = s.ix := by simp [protocolError]
@[simp] theorem protocolError_dram (p : Fin 4) (s : State) : (protocolError p s).dram = s.dram := by simp [protocolError]
@[simp] theorem protocolError_wmem (p : Fin 4) (s : State) : (protocolError p s).wmem = s.wmem := by simp [protocolError]
@[simp] theorem protocolError_rings (p : Fin 4) (s : State) : (protocolError p s).rings = s.rings := by simp [protocolError]
@[simp] theorem protocolError_mans (p : Fin 4) (s : State) : (protocolError p s).mans = s.mans := by simp [protocolError]
@[simp] theorem protocolError_accts (p : Fin 4) (s : State) : (protocolError p s).accts = s.accts := by simp [protocolError]
@[simp] theorem protocolError_order (p : Fin 4) (s : State) : (protocolError p s).order = s.order := by simp [protocolError]
@[simp] theorem protocolError_ofsOld (p : Fin 4) (s : State) : (protocolError p s).ofsOld = s.ofsOld := by simp [protocolError]
@[simp] theorem protocolError_toll (p : Fin 4) (s : State) : (protocolError p s).toll = s.toll := by simp [protocolError]
@[simp] theorem protocolError_way (p : Fin 4) (s : State) : (protocolError p s).way = s.way := by simp [protocolError]
@[simp] theorem protocolError_wayOps (p : Fin 4) (s : State) : (protocolError p s).wayOps = s.wayOps := by simp [protocolError]
@[simp] theorem protocolError_walks (p : Fin 4) (s : State) : (protocolError p s).walks = s.walks := by simp [protocolError]
@[simp] theorem protocolError_wreads (p : Fin 4) (s : State) : (protocolError p s).wreads = s.wreads := by simp [protocolError]
@[simp] theorem protocolError_chans (p : Fin 4) (s : State) : (protocolError p s).chans = s.chans := by simp [protocolError]
@[simp] theorem protocolError_phys (p : Fin 4) (s : State) : (protocolError p s).phys = s.phys := by simp [protocolError]
@[simp] theorem protocolError_led (p : Fin 4) (s : State) : (protocolError p s).led = s.led := by simp [protocolError]
@[simp] theorem protocolError_pwr (p : Fin 4) (s : State) : (protocolError p s).pwr = s.pwr := by simp [protocolError]
@[simp] theorem protocolError_prof (p : Fin 4) (s : State) : (protocolError p s).prof = s.prof := by simp [protocolError]
@[simp] theorem protocolError_perEnd (p : Fin 4) (s : State) : (protocolError p s).perEnd = s.perEnd := by simp [protocolError]
@[simp] theorem protocolError_tollEnd (p : Fin 4) (s : State) : (protocolError p s).tollEnd = s.tollEnd := by simp [protocolError]
@[simp] theorem protocolError_horizon (p : Fin 4) (s : State) : (protocolError p s).horizon = s.horizon := by simp [protocolError]
@[simp] theorem protocolError_probe (p : Fin 4) (s : State) : (protocolError p s).probe = s.probe := by simp [protocolError]
@[simp] theorem protocolError_guard (p : Fin 4) (s : State) : (protocolError p s).guard = s.guard := by simp [protocolError]
@[simp] theorem protocolError_latches (p : Fin 4) (s : State) : (protocolError p s).latches = s.latches := by simp [protocolError]
@[simp] theorem protocolError_shadow (p : Fin 4) (s : State) : (protocolError p s).shadow = s.shadow := by simp [protocolError]
@[simp] theorem protocolError_hold (p : Fin 4) (s : State) : (protocolError p s).hold = s.hold := by simp [protocolError]

@[simp] theorem portResetLanes_pending (p : Fin 4) (g : BitVec 16) (s : State) : (portResetLanes p g s).pending = s.pending := by unfold portResetLanes; dsimp only; split <;> simp
@[simp] theorem portResetLanes_d8 (p : Fin 4) (g : BitVec 16) (s : State) : (portResetLanes p g s).d8 = s.d8 := by unfold portResetLanes; dsimp only; split <;> simp
@[simp] theorem portResetLanes_free (p : Fin 4) (g : BitVec 16) (s : State) : (portResetLanes p g s).free = s.free := by unfold portResetLanes; dsimp only; split <;> simp
@[simp] theorem portResetLanes_ix (p : Fin 4) (g : BitVec 16) (s : State) : (portResetLanes p g s).ix = s.ix := by unfold portResetLanes; dsimp only; split <;> simp
@[simp] theorem portResetLanes_dram (p : Fin 4) (g : BitVec 16) (s : State) : (portResetLanes p g s).dram = s.dram := by unfold portResetLanes; dsimp only; split <;> simp
@[simp] theorem portResetLanes_wmem (p : Fin 4) (g : BitVec 16) (s : State) : (portResetLanes p g s).wmem = s.wmem := by unfold portResetLanes; dsimp only; split <;> simp
@[simp] theorem portResetLanes_rings (p : Fin 4) (g : BitVec 16) (s : State) : (portResetLanes p g s).rings = s.rings := by unfold portResetLanes; dsimp only; split <;> simp
@[simp] theorem portResetLanes_mans (p : Fin 4) (g : BitVec 16) (s : State) : (portResetLanes p g s).mans = s.mans := by unfold portResetLanes; dsimp only; split <;> simp
@[simp] theorem portResetLanes_accts (p : Fin 4) (g : BitVec 16) (s : State) : (portResetLanes p g s).accts = s.accts := by unfold portResetLanes; dsimp only; split <;> simp
@[simp] theorem portResetLanes_order (p : Fin 4) (g : BitVec 16) (s : State) : (portResetLanes p g s).order = s.order := by unfold portResetLanes; dsimp only; split <;> simp
@[simp] theorem portResetLanes_ofsOld (p : Fin 4) (g : BitVec 16) (s : State) : (portResetLanes p g s).ofsOld = s.ofsOld := by unfold portResetLanes; dsimp only; split <;> simp
@[simp] theorem portResetLanes_toll (p : Fin 4) (g : BitVec 16) (s : State) : (portResetLanes p g s).toll = s.toll := by unfold portResetLanes; dsimp only; split <;> simp
@[simp] theorem portResetLanes_way (p : Fin 4) (g : BitVec 16) (s : State) : (portResetLanes p g s).way = s.way := by unfold portResetLanes; dsimp only; split <;> simp
@[simp] theorem portResetLanes_wayOps (p : Fin 4) (g : BitVec 16) (s : State) : (portResetLanes p g s).wayOps = s.wayOps := by unfold portResetLanes; dsimp only; split <;> simp
@[simp] theorem portResetLanes_walks (p : Fin 4) (g : BitVec 16) (s : State) : (portResetLanes p g s).walks = s.walks := by unfold portResetLanes; dsimp only; split <;> simp
@[simp] theorem portResetLanes_wreads (p : Fin 4) (g : BitVec 16) (s : State) : (portResetLanes p g s).wreads = s.wreads := by unfold portResetLanes; dsimp only; split <;> simp
@[simp] theorem portResetLanes_chans (p : Fin 4) (g : BitVec 16) (s : State) : (portResetLanes p g s).chans = s.chans := by unfold portResetLanes; dsimp only; split <;> simp
@[simp] theorem portResetLanes_phys (p : Fin 4) (g : BitVec 16) (s : State) : (portResetLanes p g s).phys = s.phys := by unfold portResetLanes; dsimp only; split <;> simp
@[simp] theorem portResetLanes_led (p : Fin 4) (g : BitVec 16) (s : State) : (portResetLanes p g s).led = s.led := by unfold portResetLanes; dsimp only; split <;> simp
@[simp] theorem portResetLanes_pwr (p : Fin 4) (g : BitVec 16) (s : State) : (portResetLanes p g s).pwr = s.pwr := by unfold portResetLanes; dsimp only; split <;> simp
@[simp] theorem portResetLanes_prof (p : Fin 4) (g : BitVec 16) (s : State) : (portResetLanes p g s).prof = s.prof := by unfold portResetLanes; dsimp only; split <;> simp
@[simp] theorem portResetLanes_perEnd (p : Fin 4) (g : BitVec 16) (s : State) : (portResetLanes p g s).perEnd = s.perEnd := by unfold portResetLanes; dsimp only; split <;> simp
@[simp] theorem portResetLanes_tollEnd (p : Fin 4) (g : BitVec 16) (s : State) : (portResetLanes p g s).tollEnd = s.tollEnd := by unfold portResetLanes; dsimp only; split <;> simp
@[simp] theorem portResetLanes_horizon (p : Fin 4) (g : BitVec 16) (s : State) : (portResetLanes p g s).horizon = s.horizon := by unfold portResetLanes; dsimp only; split <;> simp
@[simp] theorem portResetLanes_probe (p : Fin 4) (g : BitVec 16) (s : State) : (portResetLanes p g s).probe = s.probe := by unfold portResetLanes; dsimp only; split <;> simp
@[simp] theorem portResetLanes_guard (p : Fin 4) (g : BitVec 16) (s : State) : (portResetLanes p g s).guard = s.guard := by unfold portResetLanes; dsimp only; split <;> simp
@[simp] theorem portResetLanes_latches (p : Fin 4) (g : BitVec 16) (s : State) : (portResetLanes p g s).latches = s.latches := by unfold portResetLanes; dsimp only; split <;> simp
@[simp] theorem portResetLanes_shadow (p : Fin 4) (g : BitVec 16) (s : State) : (portResetLanes p g s).shadow = s.shadow := by unfold portResetLanes; dsimp only; split <;> simp
@[simp] theorem portResetLanes_hold (p : Fin 4) (g : BitVec 16) (s : State) : (portResetLanes p g s).hold = s.hold := by unfold portResetLanes; dsimp only; split <;> simp

@[simp] theorem retrainFail_pending (p : Fin 4) (f : Nat) (s : State) : (retrainFail p f s).pending = s.pending := by unfold retrainFail; dsimp only; (repeat' split) <;> simp
@[simp] theorem retrainFail_d8 (p : Fin 4) (f : Nat) (s : State) : (retrainFail p f s).d8 = s.d8 := by unfold retrainFail; dsimp only; (repeat' split) <;> simp
@[simp] theorem retrainFail_free (p : Fin 4) (f : Nat) (s : State) : (retrainFail p f s).free = s.free := by unfold retrainFail; dsimp only; (repeat' split) <;> simp
@[simp] theorem retrainFail_ix (p : Fin 4) (f : Nat) (s : State) : (retrainFail p f s).ix = s.ix := by unfold retrainFail; dsimp only; (repeat' split) <;> simp
@[simp] theorem retrainFail_dram (p : Fin 4) (f : Nat) (s : State) : (retrainFail p f s).dram = s.dram := by unfold retrainFail; dsimp only; (repeat' split) <;> simp
@[simp] theorem retrainFail_wmem (p : Fin 4) (f : Nat) (s : State) : (retrainFail p f s).wmem = s.wmem := by unfold retrainFail; dsimp only; (repeat' split) <;> simp
@[simp] theorem retrainFail_rings (p : Fin 4) (f : Nat) (s : State) : (retrainFail p f s).rings = s.rings := by unfold retrainFail; dsimp only; (repeat' split) <;> simp
@[simp] theorem retrainFail_mans (p : Fin 4) (f : Nat) (s : State) : (retrainFail p f s).mans = s.mans := by unfold retrainFail; dsimp only; (repeat' split) <;> simp
@[simp] theorem retrainFail_accts (p : Fin 4) (f : Nat) (s : State) : (retrainFail p f s).accts = s.accts := by unfold retrainFail; dsimp only; (repeat' split) <;> simp
@[simp] theorem retrainFail_order (p : Fin 4) (f : Nat) (s : State) : (retrainFail p f s).order = s.order := by unfold retrainFail; dsimp only; (repeat' split) <;> simp
@[simp] theorem retrainFail_ofsOld (p : Fin 4) (f : Nat) (s : State) : (retrainFail p f s).ofsOld = s.ofsOld := by unfold retrainFail; dsimp only; (repeat' split) <;> simp
@[simp] theorem retrainFail_toll (p : Fin 4) (f : Nat) (s : State) : (retrainFail p f s).toll = s.toll := by unfold retrainFail; dsimp only; (repeat' split) <;> simp
@[simp] theorem retrainFail_way (p : Fin 4) (f : Nat) (s : State) : (retrainFail p f s).way = s.way := by unfold retrainFail; dsimp only; (repeat' split) <;> simp
@[simp] theorem retrainFail_wayOps (p : Fin 4) (f : Nat) (s : State) : (retrainFail p f s).wayOps = s.wayOps := by unfold retrainFail; dsimp only; (repeat' split) <;> simp
@[simp] theorem retrainFail_walks (p : Fin 4) (f : Nat) (s : State) : (retrainFail p f s).walks = s.walks := by unfold retrainFail; dsimp only; (repeat' split) <;> simp
@[simp] theorem retrainFail_wreads (p : Fin 4) (f : Nat) (s : State) : (retrainFail p f s).wreads = s.wreads := by unfold retrainFail; dsimp only; (repeat' split) <;> simp
@[simp] theorem retrainFail_chans (p : Fin 4) (f : Nat) (s : State) : (retrainFail p f s).chans = s.chans := by unfold retrainFail; dsimp only; (repeat' split) <;> simp
@[simp] theorem retrainFail_phys (p : Fin 4) (f : Nat) (s : State) : (retrainFail p f s).phys = s.phys := by unfold retrainFail; dsimp only; (repeat' split) <;> simp
@[simp] theorem retrainFail_led (p : Fin 4) (f : Nat) (s : State) : (retrainFail p f s).led = s.led := by unfold retrainFail; dsimp only; (repeat' split) <;> simp
@[simp] theorem retrainFail_pwr (p : Fin 4) (f : Nat) (s : State) : (retrainFail p f s).pwr = s.pwr := by unfold retrainFail; dsimp only; (repeat' split) <;> simp
@[simp] theorem retrainFail_prof (p : Fin 4) (f : Nat) (s : State) : (retrainFail p f s).prof = s.prof := by unfold retrainFail; dsimp only; (repeat' split) <;> simp
@[simp] theorem retrainFail_perEnd (p : Fin 4) (f : Nat) (s : State) : (retrainFail p f s).perEnd = s.perEnd := by unfold retrainFail; dsimp only; (repeat' split) <;> simp
@[simp] theorem retrainFail_tollEnd (p : Fin 4) (f : Nat) (s : State) : (retrainFail p f s).tollEnd = s.tollEnd := by unfold retrainFail; dsimp only; (repeat' split) <;> simp
@[simp] theorem retrainFail_horizon (p : Fin 4) (f : Nat) (s : State) : (retrainFail p f s).horizon = s.horizon := by unfold retrainFail; dsimp only; (repeat' split) <;> simp
@[simp] theorem retrainFail_probe (p : Fin 4) (f : Nat) (s : State) : (retrainFail p f s).probe = s.probe := by unfold retrainFail; dsimp only; (repeat' split) <;> simp
@[simp] theorem retrainFail_guard (p : Fin 4) (f : Nat) (s : State) : (retrainFail p f s).guard = s.guard := by unfold retrainFail; dsimp only; (repeat' split) <;> simp
@[simp] theorem retrainFail_latches (p : Fin 4) (f : Nat) (s : State) : (retrainFail p f s).latches = s.latches := by unfold retrainFail; dsimp only; (repeat' split) <;> simp
@[simp] theorem retrainFail_shadow (p : Fin 4) (f : Nat) (s : State) : (retrainFail p f s).shadow = s.shadow := by unfold retrainFail; dsimp only; (repeat' split) <;> simp
@[simp] theorem retrainFail_hold (p : Fin 4) (f : Nat) (s : State) : (retrainFail p f s).hold = s.hold := by unfold retrainFail; dsimp only; (repeat' split) <;> simp

@[simp] theorem laneFault_pending (p : Fin 4) (l : Nat) (s : State) : (laneFault p l s).pending = s.pending := by unfold laneFault; dsimp only; (repeat' split) <;> simp
@[simp] theorem laneFault_d8 (p : Fin 4) (l : Nat) (s : State) : (laneFault p l s).d8 = s.d8 := by unfold laneFault; dsimp only; (repeat' split) <;> simp
@[simp] theorem laneFault_free (p : Fin 4) (l : Nat) (s : State) : (laneFault p l s).free = s.free := by unfold laneFault; dsimp only; (repeat' split) <;> simp
@[simp] theorem laneFault_ix (p : Fin 4) (l : Nat) (s : State) : (laneFault p l s).ix = s.ix := by unfold laneFault; dsimp only; (repeat' split) <;> simp
@[simp] theorem laneFault_dram (p : Fin 4) (l : Nat) (s : State) : (laneFault p l s).dram = s.dram := by unfold laneFault; dsimp only; (repeat' split) <;> simp
@[simp] theorem laneFault_wmem (p : Fin 4) (l : Nat) (s : State) : (laneFault p l s).wmem = s.wmem := by unfold laneFault; dsimp only; (repeat' split) <;> simp
@[simp] theorem laneFault_rings (p : Fin 4) (l : Nat) (s : State) : (laneFault p l s).rings = s.rings := by unfold laneFault; dsimp only; (repeat' split) <;> simp
@[simp] theorem laneFault_mans (p : Fin 4) (l : Nat) (s : State) : (laneFault p l s).mans = s.mans := by unfold laneFault; dsimp only; (repeat' split) <;> simp
@[simp] theorem laneFault_accts (p : Fin 4) (l : Nat) (s : State) : (laneFault p l s).accts = s.accts := by unfold laneFault; dsimp only; (repeat' split) <;> simp
@[simp] theorem laneFault_order (p : Fin 4) (l : Nat) (s : State) : (laneFault p l s).order = s.order := by unfold laneFault; dsimp only; (repeat' split) <;> simp
@[simp] theorem laneFault_ofsOld (p : Fin 4) (l : Nat) (s : State) : (laneFault p l s).ofsOld = s.ofsOld := by unfold laneFault; dsimp only; (repeat' split) <;> simp
@[simp] theorem laneFault_toll (p : Fin 4) (l : Nat) (s : State) : (laneFault p l s).toll = s.toll := by unfold laneFault; dsimp only; (repeat' split) <;> simp
@[simp] theorem laneFault_way (p : Fin 4) (l : Nat) (s : State) : (laneFault p l s).way = s.way := by unfold laneFault; dsimp only; (repeat' split) <;> simp
@[simp] theorem laneFault_wayOps (p : Fin 4) (l : Nat) (s : State) : (laneFault p l s).wayOps = s.wayOps := by unfold laneFault; dsimp only; (repeat' split) <;> simp
@[simp] theorem laneFault_walks (p : Fin 4) (l : Nat) (s : State) : (laneFault p l s).walks = s.walks := by unfold laneFault; dsimp only; (repeat' split) <;> simp
@[simp] theorem laneFault_wreads (p : Fin 4) (l : Nat) (s : State) : (laneFault p l s).wreads = s.wreads := by unfold laneFault; dsimp only; (repeat' split) <;> simp
@[simp] theorem laneFault_chans (p : Fin 4) (l : Nat) (s : State) : (laneFault p l s).chans = s.chans := by unfold laneFault; dsimp only; (repeat' split) <;> simp
@[simp] theorem laneFault_phys (p : Fin 4) (l : Nat) (s : State) : (laneFault p l s).phys = s.phys := by unfold laneFault; dsimp only; (repeat' split) <;> simp
@[simp] theorem laneFault_led (p : Fin 4) (l : Nat) (s : State) : (laneFault p l s).led = s.led := by unfold laneFault; dsimp only; (repeat' split) <;> simp
@[simp] theorem laneFault_pwr (p : Fin 4) (l : Nat) (s : State) : (laneFault p l s).pwr = s.pwr := by unfold laneFault; dsimp only; (repeat' split) <;> simp
@[simp] theorem laneFault_prof (p : Fin 4) (l : Nat) (s : State) : (laneFault p l s).prof = s.prof := by unfold laneFault; dsimp only; (repeat' split) <;> simp
@[simp] theorem laneFault_perEnd (p : Fin 4) (l : Nat) (s : State) : (laneFault p l s).perEnd = s.perEnd := by unfold laneFault; dsimp only; (repeat' split) <;> simp
@[simp] theorem laneFault_tollEnd (p : Fin 4) (l : Nat) (s : State) : (laneFault p l s).tollEnd = s.tollEnd := by unfold laneFault; dsimp only; (repeat' split) <;> simp
@[simp] theorem laneFault_horizon (p : Fin 4) (l : Nat) (s : State) : (laneFault p l s).horizon = s.horizon := by unfold laneFault; dsimp only; (repeat' split) <;> simp
@[simp] theorem laneFault_probe (p : Fin 4) (l : Nat) (s : State) : (laneFault p l s).probe = s.probe := by unfold laneFault; dsimp only; (repeat' split) <;> simp
@[simp] theorem laneFault_guard (p : Fin 4) (l : Nat) (s : State) : (laneFault p l s).guard = s.guard := by unfold laneFault; dsimp only; (repeat' split) <;> simp
@[simp] theorem laneFault_latches (p : Fin 4) (l : Nat) (s : State) : (laneFault p l s).latches = s.latches := by unfold laneFault; dsimp only; (repeat' split) <;> simp
@[simp] theorem laneFault_shadow (p : Fin 4) (l : Nat) (s : State) : (laneFault p l s).shadow = s.shadow := by unfold laneFault; dsimp only; (repeat' split) <;> simp
@[simp] theorem laneFault_hold (p : Fin 4) (l : Nat) (s : State) : (laneFault p l s).hold = s.hold := by unfold laneFault; dsimp only; (repeat' split) <;> simp

@[simp] theorem retransmit_pending (p : Fin 4) (q : BitVec 12) (s : State) : (retransmit p q s).pending = s.pending := by unfold retransmit; dsimp only; (repeat' split) <;> simp
@[simp] theorem retransmit_d8 (p : Fin 4) (q : BitVec 12) (s : State) : (retransmit p q s).d8 = s.d8 := by unfold retransmit; dsimp only; (repeat' split) <;> simp
@[simp] theorem retransmit_free (p : Fin 4) (q : BitVec 12) (s : State) : (retransmit p q s).free = s.free := by unfold retransmit; dsimp only; (repeat' split) <;> simp
@[simp] theorem retransmit_ix (p : Fin 4) (q : BitVec 12) (s : State) : (retransmit p q s).ix = s.ix := by unfold retransmit; dsimp only; (repeat' split) <;> simp
@[simp] theorem retransmit_dram (p : Fin 4) (q : BitVec 12) (s : State) : (retransmit p q s).dram = s.dram := by unfold retransmit; dsimp only; (repeat' split) <;> simp
@[simp] theorem retransmit_wmem (p : Fin 4) (q : BitVec 12) (s : State) : (retransmit p q s).wmem = s.wmem := by unfold retransmit; dsimp only; (repeat' split) <;> simp
@[simp] theorem retransmit_streams (p : Fin 4) (q : BitVec 12) (s : State) : (retransmit p q s).streams = s.streams := by unfold retransmit; dsimp only; (repeat' split) <;> simp
@[simp] theorem retransmit_rings (p : Fin 4) (q : BitVec 12) (s : State) : (retransmit p q s).rings = s.rings := by unfold retransmit; dsimp only; (repeat' split) <;> simp
@[simp] theorem retransmit_mans (p : Fin 4) (q : BitVec 12) (s : State) : (retransmit p q s).mans = s.mans := by unfold retransmit; dsimp only; (repeat' split) <;> simp
@[simp] theorem retransmit_accts (p : Fin 4) (q : BitVec 12) (s : State) : (retransmit p q s).accts = s.accts := by unfold retransmit; dsimp only; (repeat' split) <;> simp
@[simp] theorem retransmit_arbs (p : Fin 4) (q : BitVec 12) (s : State) : (retransmit p q s).arbs = s.arbs := by unfold retransmit; dsimp only; (repeat' split) <;> simp
@[simp] theorem retransmit_order (p : Fin 4) (q : BitVec 12) (s : State) : (retransmit p q s).order = s.order := by unfold retransmit; dsimp only; (repeat' split) <;> simp
@[simp] theorem retransmit_ofsOld (p : Fin 4) (q : BitVec 12) (s : State) : (retransmit p q s).ofsOld = s.ofsOld := by unfold retransmit; dsimp only; (repeat' split) <;> simp
@[simp] theorem retransmit_toll (p : Fin 4) (q : BitVec 12) (s : State) : (retransmit p q s).toll = s.toll := by unfold retransmit; dsimp only; (repeat' split) <;> simp
@[simp] theorem retransmit_way (p : Fin 4) (q : BitVec 12) (s : State) : (retransmit p q s).way = s.way := by unfold retransmit; dsimp only; (repeat' split) <;> simp
@[simp] theorem retransmit_wayOps (p : Fin 4) (q : BitVec 12) (s : State) : (retransmit p q s).wayOps = s.wayOps := by unfold retransmit; dsimp only; (repeat' split) <;> simp
@[simp] theorem retransmit_walks (p : Fin 4) (q : BitVec 12) (s : State) : (retransmit p q s).walks = s.walks := by unfold retransmit; dsimp only; (repeat' split) <;> simp
@[simp] theorem retransmit_caravans (p : Fin 4) (q : BitVec 12) (s : State) : (retransmit p q s).caravans = s.caravans := by unfold retransmit; dsimp only; (repeat' split) <;> simp
@[simp] theorem retransmit_wreads (p : Fin 4) (q : BitVec 12) (s : State) : (retransmit p q s).wreads = s.wreads := by unfold retransmit; dsimp only; (repeat' split) <;> simp
@[simp] theorem retransmit_que (p : Fin 4) (q : BitVec 12) (s : State) : (retransmit p q s).que = s.que := by unfold retransmit; dsimp only; (repeat' split) <;> simp
@[simp] theorem retransmit_chans (p : Fin 4) (q : BitVec 12) (s : State) : (retransmit p q s).chans = s.chans := by unfold retransmit; dsimp only; (repeat' split) <;> simp
@[simp] theorem retransmit_phys (p : Fin 4) (q : BitVec 12) (s : State) : (retransmit p q s).phys = s.phys := by unfold retransmit; dsimp only; (repeat' split) <;> simp
@[simp] theorem retransmit_led (p : Fin 4) (q : BitVec 12) (s : State) : (retransmit p q s).led = s.led := by unfold retransmit; dsimp only; (repeat' split) <;> simp
@[simp] theorem retransmit_pwr (p : Fin 4) (q : BitVec 12) (s : State) : (retransmit p q s).pwr = s.pwr := by unfold retransmit; dsimp only; (repeat' split) <;> simp
@[simp] theorem retransmit_con (p : Fin 4) (q : BitVec 12) (s : State) : (retransmit p q s).con = s.con := by unfold retransmit; dsimp only; (repeat' split) <;> simp
@[simp] theorem retransmit_prof (p : Fin 4) (q : BitVec 12) (s : State) : (retransmit p q s).prof = s.prof := by unfold retransmit; dsimp only; (repeat' split) <;> simp
@[simp] theorem retransmit_perEnd (p : Fin 4) (q : BitVec 12) (s : State) : (retransmit p q s).perEnd = s.perEnd := by unfold retransmit; dsimp only; (repeat' split) <;> simp
@[simp] theorem retransmit_tollEnd (p : Fin 4) (q : BitVec 12) (s : State) : (retransmit p q s).tollEnd = s.tollEnd := by unfold retransmit; dsimp only; (repeat' split) <;> simp
@[simp] theorem retransmit_horizon (p : Fin 4) (q : BitVec 12) (s : State) : (retransmit p q s).horizon = s.horizon := by unfold retransmit; dsimp only; (repeat' split) <;> simp
@[simp] theorem retransmit_probe (p : Fin 4) (q : BitVec 12) (s : State) : (retransmit p q s).probe = s.probe := by unfold retransmit; dsimp only; (repeat' split) <;> simp
@[simp] theorem retransmit_guard (p : Fin 4) (q : BitVec 12) (s : State) : (retransmit p q s).guard = s.guard := by unfold retransmit; dsimp only; (repeat' split) <;> simp
@[simp] theorem retransmit_latches (p : Fin 4) (q : BitVec 12) (s : State) : (retransmit p q s).latches = s.latches := by unfold retransmit; dsimp only; (repeat' split) <;> simp
@[simp] theorem retransmit_shadow (p : Fin 4) (q : BitVec 12) (s : State) : (retransmit p q s).shadow = s.shadow := by unfold retransmit; dsimp only; (repeat' split) <;> simp
@[simp] theorem retransmit_hold (p : Fin 4) (q : BitVec 12) (s : State) : (retransmit p q s).hold = s.hold := by unfold retransmit; dsimp only; (repeat' split) <;> simp

@[simp] theorem breakPair_pending  (s : State) : (breakPair  s).pending = s.pending := by unfold breakPair; split <;> simp [guardFail]
@[simp] theorem breakPair_d8  (s : State) : (breakPair  s).d8 = s.d8 := by unfold breakPair; split <;> simp [guardFail]
@[simp] theorem breakPair_free  (s : State) : (breakPair  s).free = s.free := by unfold breakPair; split <;> simp [guardFail]
@[simp] theorem breakPair_ix  (s : State) : (breakPair  s).ix = s.ix := by unfold breakPair; split <;> simp [guardFail]
@[simp] theorem breakPair_dram  (s : State) : (breakPair  s).dram = s.dram := by unfold breakPair; split <;> simp [guardFail]
@[simp] theorem breakPair_wmem  (s : State) : (breakPair  s).wmem = s.wmem := by unfold breakPair; split <;> simp [guardFail]
@[simp] theorem breakPair_ports  (s : State) : (breakPair  s).ports = s.ports := by unfold breakPair; split <;> simp [guardFail]
@[simp] theorem breakPair_streams  (s : State) : (breakPair  s).streams = s.streams := by unfold breakPair; split <;> simp [guardFail]
@[simp] theorem breakPair_rings  (s : State) : (breakPair  s).rings = s.rings := by unfold breakPair; split <;> simp [guardFail]
@[simp] theorem breakPair_mans  (s : State) : (breakPair  s).mans = s.mans := by unfold breakPair; split <;> simp [guardFail]
@[simp] theorem breakPair_accts  (s : State) : (breakPair  s).accts = s.accts := by unfold breakPair; split <;> simp [guardFail]
@[simp] theorem breakPair_arbs  (s : State) : (breakPair  s).arbs = s.arbs := by unfold breakPair; split <;> simp [guardFail]
@[simp] theorem breakPair_order  (s : State) : (breakPair  s).order = s.order := by unfold breakPair; split <;> simp [guardFail]
@[simp] theorem breakPair_ofsOld  (s : State) : (breakPair  s).ofsOld = s.ofsOld := by unfold breakPair; split <;> simp [guardFail]
@[simp] theorem breakPair_toll  (s : State) : (breakPair  s).toll = s.toll := by unfold breakPair; split <;> simp [guardFail]
@[simp] theorem breakPair_way  (s : State) : (breakPair  s).way = s.way := by unfold breakPair; split <;> simp [guardFail]
@[simp] theorem breakPair_wayOps  (s : State) : (breakPair  s).wayOps = s.wayOps := by unfold breakPair; split <;> simp [guardFail]
@[simp] theorem breakPair_walks  (s : State) : (breakPair  s).walks = s.walks := by unfold breakPair; split <;> simp [guardFail]
@[simp] theorem breakPair_caravans  (s : State) : (breakPair  s).caravans = s.caravans := by unfold breakPair; split <;> simp [guardFail]
@[simp] theorem breakPair_wreads  (s : State) : (breakPair  s).wreads = s.wreads := by unfold breakPair; split <;> simp [guardFail]
@[simp] theorem breakPair_que  (s : State) : (breakPair  s).que = s.que := by unfold breakPair; split <;> simp [guardFail]
@[simp] theorem breakPair_chans  (s : State) : (breakPair  s).chans = s.chans := by unfold breakPair; split <;> simp [guardFail]
@[simp] theorem breakPair_phys  (s : State) : (breakPair  s).phys = s.phys := by unfold breakPair; split <;> simp [guardFail]
@[simp] theorem breakPair_led  (s : State) : (breakPair  s).led = s.led := by unfold breakPair; split <;> simp [guardFail]
@[simp] theorem breakPair_bist  (s : State) : (breakPair  s).bist = s.bist := by unfold breakPair; split <;> simp [guardFail]
@[simp] theorem breakPair_pwr  (s : State) : (breakPair  s).pwr = s.pwr := by unfold breakPair; split <;> simp [guardFail]
@[simp] theorem breakPair_con  (s : State) : (breakPair  s).con = s.con := by unfold breakPair; split <;> simp [guardFail]
@[simp] theorem breakPair_prof  (s : State) : (breakPair  s).prof = s.prof := by unfold breakPair; split <;> simp [guardFail]
@[simp] theorem breakPair_perEnd  (s : State) : (breakPair  s).perEnd = s.perEnd := by unfold breakPair; split <;> simp [guardFail]
@[simp] theorem breakPair_tollEnd  (s : State) : (breakPair  s).tollEnd = s.tollEnd := by unfold breakPair; split <;> simp [guardFail]
@[simp] theorem breakPair_horizon  (s : State) : (breakPair  s).horizon = s.horizon := by unfold breakPair; split <;> simp [guardFail]
@[simp] theorem breakPair_probe  (s : State) : (breakPair  s).probe = s.probe := by unfold breakPair; split <;> simp [guardFail]
@[simp] theorem breakPair_latches  (s : State) : (breakPair  s).latches = s.latches := by unfold breakPair; split <;> simp [guardFail]
@[simp] theorem breakPair_shadow  (s : State) : (breakPair  s).shadow = s.shadow := by unfold breakPair; split <;> simp [guardFail]
@[simp] theorem breakPair_hold  (s : State) : (breakPair  s).hold = s.hold := by unfold breakPair; split <;> simp [guardFail]

@[simp] theorem domOff_pending  (s : State) : (domOff  s).pending = s.pending := by simp [domOff]
@[simp] theorem domOff_d8  (s : State) : (domOff  s).d8 = s.d8 := by simp [domOff]
@[simp] theorem domOff_free  (s : State) : (domOff  s).free = s.free := by simp [domOff]
@[simp] theorem domOff_ix  (s : State) : (domOff  s).ix = s.ix := by simp [domOff]
@[simp] theorem domOff_dram  (s : State) : (domOff  s).dram = s.dram := by simp [domOff]
@[simp] theorem domOff_wmem  (s : State) : (domOff  s).wmem = s.wmem := by simp [domOff]
@[simp] theorem domOff_ports  (s : State) : (domOff  s).ports = s.ports := by simp [domOff]
@[simp] theorem domOff_streams  (s : State) : (domOff  s).streams = s.streams := by simp [domOff]
@[simp] theorem domOff_rings  (s : State) : (domOff  s).rings = s.rings := by simp [domOff]
@[simp] theorem domOff_mans  (s : State) : (domOff  s).mans = s.mans := by simp [domOff]
@[simp] theorem domOff_accts  (s : State) : (domOff  s).accts = s.accts := by simp [domOff]
@[simp] theorem domOff_arbs  (s : State) : (domOff  s).arbs = s.arbs := by simp [domOff]
@[simp] theorem domOff_order  (s : State) : (domOff  s).order = s.order := by simp [domOff]
@[simp] theorem domOff_ofsOld  (s : State) : (domOff  s).ofsOld = s.ofsOld := by simp [domOff]
@[simp] theorem domOff_toll  (s : State) : (domOff  s).toll = s.toll := by simp [domOff]
@[simp] theorem domOff_way  (s : State) : (domOff  s).way = s.way := by simp [domOff]
@[simp] theorem domOff_wayOps  (s : State) : (domOff  s).wayOps = s.wayOps := by simp [domOff]
@[simp] theorem domOff_walks  (s : State) : (domOff  s).walks = s.walks := by simp [domOff]
@[simp] theorem domOff_caravans  (s : State) : (domOff  s).caravans = s.caravans := by simp [domOff]
@[simp] theorem domOff_wreads  (s : State) : (domOff  s).wreads = s.wreads := by simp [domOff]
@[simp] theorem domOff_que  (s : State) : (domOff  s).que = s.que := by simp [domOff]
@[simp] theorem domOff_chans  (s : State) : (domOff  s).chans = s.chans := by simp [domOff]
@[simp] theorem domOff_phys  (s : State) : (domOff  s).phys = s.phys := by simp [domOff]
@[simp] theorem domOff_led  (s : State) : (domOff  s).led = s.led := by simp [domOff]
@[simp] theorem domOff_bist  (s : State) : (domOff  s).bist = s.bist := by simp [domOff]
@[simp] theorem domOff_pwr  (s : State) : (domOff  s).pwr = s.pwr := by simp [domOff]
@[simp] theorem domOff_con  (s : State) : (domOff  s).con = s.con := by simp [domOff]
@[simp] theorem domOff_prof  (s : State) : (domOff  s).prof = s.prof := by simp [domOff]
@[simp] theorem domOff_perEnd  (s : State) : (domOff  s).perEnd = s.perEnd := by simp [domOff]
@[simp] theorem domOff_tollEnd  (s : State) : (domOff  s).tollEnd = s.tollEnd := by simp [domOff]
@[simp] theorem domOff_horizon  (s : State) : (domOff  s).horizon = s.horizon := by simp [domOff]
@[simp] theorem domOff_probe  (s : State) : (domOff  s).probe = s.probe := by simp [domOff]
@[simp] theorem domOff_guard  (s : State) : (domOff  s).guard = s.guard := by simp [domOff]
@[simp] theorem domOff_latches  (s : State) : (domOff  s).latches = s.latches := by simp [domOff]
@[simp] theorem domOff_shadow  (s : State) : (domOff  s).shadow = s.shadow := by simp [domOff]
@[simp] theorem domOff_hold  (s : State) : (domOff  s).hold = s.hold := by simp [domOff]

end Sys2Proof.Laws
end

