-- ==== Sys2Proof/Laws/Regs.lean ====
section
/-! SUPPORT. The laws of the register file: what a word and a field hold after a write to it, to another register, and to another field of the same register. -/

namespace Sys2Proof.Laws
open Sys2Proof.Machine

/-- A field put into a number: the parts above and below it stay. -/
theorem put_nat (W v A B : Nat) :
    W - W / A % B * A + v % B * A = ((W / A / B) * B + v % B) * A + W % A := by
  have h1 : W / A * A + W % A = W := by rw [Nat.mul_comm]; exact Nat.div_add_mod W A
  have h2 : W / A / B * B + W / A % B = W / A := by rw [Nat.mul_comm]; exact Nat.div_add_mod (W / A) B
  generalize hq : W / A = q at *
  generalize hg : q % B = g at *
  generalize hc : q / B = c at *
  generalize hl : W % A = l at *
  have h3 : c * B * A + g * A + l = W := by rw [← Nat.add_mul, h2, h1]
  rw [Nat.add_mul]
  omega

theorem put_lt (W v A B C : Nat) (hA : 0 < A) (hB : 0 < B) (hW : W < A * B * C) :
    ((W / A / B) * B + v % B) * A + W % A < A * B * C := by
  have h1 : W / A / B < C := by
    rw [Nat.div_div_eq_div_mul]
    exact Nat.div_lt_of_lt_mul hW
  have h2 : v % B < B := Nat.mod_lt _ hB
  have h3 : W % A < A := Nat.mod_lt _ hA
  have h4 : (W / A / B) * B + v % B + 1 ≤ C * B := by
    calc (W / A / B) * B + v % B + 1 ≤ (W / A / B) * B + B := by omega
      _ = (W / A / B + 1) * B := by rw [Nat.add_mul, Nat.one_mul]
      _ ≤ C * B := Nat.mul_le_mul_right _ h1
  calc ((W / A / B) * B + v % B) * A + W % A < ((W / A / B) * B + v % B) * A + A := by omega
    _ = ((W / A / B) * B + v % B + 1) * A := by rw [Nat.add_mul _ 1, Nat.one_mul]
    _ ≤ C * B * A := Nat.mul_le_mul_right _ h4
    _ = A * B * C := by rw [Nat.mul_comm (C * B), Nat.mul_comm C, Nat.mul_assoc]

/-- The number a word holds after a field is put. -/
theorem Fld_put_toNat (f : Fld) (v : Nat) (w : Word) (h : f.lsb + f.width ≤ 32) :
    (f.put v w).toNat = ((w.toNat / 2 ^ f.lsb / 2 ^ f.width) * 2 ^ f.width + v % 2 ^ f.width) * 2 ^ f.lsb + w.toNat % 2 ^ f.lsb := by
  have hC : 2 ^ f.lsb * 2 ^ f.width * 2 ^ (32 - (f.lsb + f.width)) = 2 ^ 32 := by
    rw [← Nat.pow_add, ← Nat.pow_add]
    congr 1
    omega
  unfold Fld.put Fld.get
  rw [put_nat, BitVec.toNat_ofNat]
  apply Nat.mod_eq_of_lt
  rw [← hC]
  exact put_lt _ _ _ _ _ (Nat.two_pow_pos _) (Nat.two_pow_pos _) (by rw [hC]; exact w.isLt)

/-- A field holds what was put into it, reduced to its width. -/
theorem Fld_get_put (f : Fld) (v : Nat) (w : Word) (h : f.lsb + f.width ≤ 32) : f.get (f.put v w) = v % 2 ^ f.width := by
  rw [Fld.get, Fld_put_toNat f v w h]
  rw [Nat.mul_comm _ (2 ^ f.lsb), Nat.mul_add_div (Nat.two_pow_pos _), Nat.div_eq_of_lt (Nat.mod_lt _ (Nat.two_pow_pos _)), Nat.add_zero,
    Nat.mul_comm, Nat.mul_add_mod, Nat.mod_mod]

/-- A field keeps its value when another field of its register is put. -/
theorem Fld_get_put_other (f g : Fld) (v : Nat) (w : Word) (hg : g.lsb + g.width ≤ 32) (h : f.lsb + f.width ≤ g.lsb ∨ g.lsb + g.width ≤ f.lsb) :
    f.get (g.put v w) = f.get w := by
  rw [Fld.get, Fld.get, Fld_put_toNat g v w hg]
  rcases h with h | h
  · obtain ⟨k, hk⟩ : ∃ k, g.lsb = f.lsb + f.width + k := ⟨g.lsb - (f.lsb + f.width), by omega⟩
    have e : ∀ x : Nat, x / 2 ^ f.lsb % 2 ^ f.width = x % 2 ^ (f.lsb + f.width) / 2 ^ f.lsb := fun x => by
      rw [Nat.pow_add, Nat.mod_mul_right_div_self]
    rw [e, e]
    congr 1
    have e2 : ∀ y l : Nat, (y * 2 ^ g.lsb + l) % 2 ^ (f.lsb + f.width) = l % 2 ^ (f.lsb + f.width) := fun y l => by
      rw [hk, Nat.pow_add _ (f.lsb + f.width), ← Nat.mul_assoc, Nat.mul_right_comm, Nat.mul_comm (y * 2 ^ k), Nat.mul_add_mod]
    rw [e2]
    rw [hk, Nat.pow_add _ (f.lsb + f.width), Nat.mod_mul_right_mod]
  · obtain ⟨k, hk⟩ : ∃ k, f.lsb = g.lsb + g.width + k := ⟨f.lsb - (g.lsb + g.width), by omega⟩
    have e : ∀ x : Nat, x / 2 ^ f.lsb = x / 2 ^ g.lsb / 2 ^ g.width / 2 ^ k := fun x => by
      rw [hk, Nat.pow_add, Nat.pow_add, Nat.div_div_eq_div_mul, Nat.div_div_eq_div_mul, Nat.mul_assoc]
    rw [e, e]
    congr 2
    have hl : w.toNat % 2 ^ g.lsb < 2 ^ g.lsb := Nat.mod_lt _ (Nat.two_pow_pos _)
    have hv : v % 2 ^ g.width < 2 ^ g.width := Nat.mod_lt _ (Nat.two_pow_pos _)
    rw [Nat.mul_comm _ (2 ^ g.lsb), Nat.mul_add_div (Nat.two_pow_pos _), Nat.div_eq_of_lt hl, Nat.add_zero, Nat.mul_comm, Nat.mul_add_div (Nat.two_pow_pos _),
      Nat.div_eq_of_lt hv, Nat.add_zero]

@[simp] theorem rg_rgSet (a : Nat) (w : Word) (s : State) : rg (rgSet a w s) a = w := by simp [rg, rgSet]

theorem rg_rgSet_ne (a b : Nat) (w : Word) (s : State) (h : b ≠ a) : rg (rgSet a w s) b = rg s b := tblGet_tblSet_ne _ _ _ _ _ h

theorem rg_congr {s t : State} (h : t.regs = s.regs) (a : Nat) : rg t a = rg s a := by unfold rg; rw [h]

theorem fget_congr {s t : State} (h : t.regs = s.regs) (b : Nat) (f : Fld) : fget t b f = fget s b f := by unfold fget rg; rw [h]

theorem fbit_congr {s t : State} (h : t.regs = s.regs) (b : Nat) (f : Fld) : fbit t b f = fbit s b f := by unfold fbit; rw [fget_congr h]

/-- A field set by hardware holds the value. -/
theorem fget_fset (b : Nat) (f : Fld) (v : Nat) (s : State) (h : f.lsb + f.width ≤ 32) : fget (fset b f v s) b f = v % 2 ^ f.width := by
  unfold fget fset
  rw [rg_rgSet, Fld_get_put f v _ h]

/-- A field of another register stays. -/
theorem fget_fset_ne (b c : Nat) (f g : Fld) (v : Nat) (s : State) (h : b + f.off ≠ c + g.off) : fget (fset c g v s) b f = fget s b f := by
  unfold fget fset
  rw [rg_rgSet_ne _ _ _ _ h]

/-- Another field of the same register stays. -/
theorem fget_fset_other (b : Nat) (f g : Fld) (v : Nat) (s : State) (ho : f.off = g.off) (hg : g.lsb + g.width ≤ 32) (h : f.lsb + f.width ≤ g.lsb ∨ g.lsb + g.width ≤ f.lsb) :
    fget (fset b g v s) b f = fget s b f := by
  unfold fget fset
  rw [ho, rg_rgSet, Fld_get_put_other f g v _ hg h]

/-- A counter field is raised by one and held at its highest value. -/
theorem fget_fbump (b : Nat) (f : Fld) (s : State) (h : f.lsb + f.width ≤ 32) : fget (fbump b f s) b f = min (fget s b f + 1) (2 ^ f.width - 1) := by
  unfold fbump fbumpN
  rw [fget_fset _ _ _ _ h]
  apply Nat.mod_eq_of_lt
  have := Nat.two_pow_pos f.width
  omega

/-- A counter's bump leaves the fields of other registers. -/
theorem fget_fbump_ne (b c : Nat) (f g : Fld) (s : State) (h : b + f.off ≠ c + g.off) : fget (fbump c g s) b f = fget s b f :=
  fget_fset_ne _ _ _ _ _ _ h

end Sys2Proof.Laws
end

