-- ==== Sys2Proof/Laws/Port.lean ====
section
/-! SUPPORT. What the operations of a host port do to its registers and its record. -/

namespace Sys2Proof.Laws
open Sys2Proof.Machine

theorem HP_ne (p q : Fin 4) (i j : Nat) (hi : i < 0x1000) (hj : j < 0x1000) (h : p ≠ q ∨ i ≠ j) : HP p + i ≠ HP q + j := by
  unfold HP
  omega

theorem off_ne (b : Nat) {i j : Nat} (h : i ≠ j) : b + i ≠ b + j := by omega

theorem HP_GLB (p : Fin 4) (i : Nat) {j : Nat} (h : j < 0x1000) : HP p + i ≠ GLB + j := by
  unfold HP GLB
  omega

theorem HP_CON (p : Fin 4) (i : Nat) {j : Nat} (h : j < 0x1000) : HP p + i ≠ CON + j := by
  unfold HP CON
  omega

/-- A port's records after one of them is changed. -/
@[simp] theorem updPort_port (p : Fin 4) (f : PortState → PortState) (s : State) : (updPort p f s).port p = f (s.port p) := by
  simp [State.port, updPort]

theorem updPort_port_ne (p q : Fin 4) (f : PortState → PortState) (s : State) (h : q ≠ p) : (updPort p f s).port q = s.port q := by
  have : p.val ≠ q.val := fun e => h (Fin.ext e.symm)
  simp [State.port, updPort, this]

theorem port_congr {s t : State} (h : t.ports = s.ports) (p : Fin 4) : t.port p = s.port p := by
  unfold State.port
  rw [h]

@[simp] theorem advanceTo8_regs (n : Nat) (s : State) : (advanceTo8 n s).regs = s.regs := by simp [advanceTo8]
@[simp] theorem advanceTo8_ports (n : Nat) (s : State) : (advanceTo8 n s).ports = s.ports := by simp [advanceTo8]
@[simp] theorem advanceTo8_dram (n : Nat) (s : State) : (advanceTo8 n s).dram = s.dram := by simp [advanceTo8]
@[simp] theorem advanceTo8_wmem (n : Nat) (s : State) : (advanceTo8 n s).wmem = s.wmem := by simp [advanceTo8]
@[simp] theorem advanceTo8_streams (n : Nat) (s : State) : (advanceTo8 n s).streams = s.streams := by simp [advanceTo8]
@[simp] theorem advanceTo8_con (n : Nat) (s : State) : (advanceTo8 n s).con = s.con := by simp [advanceTo8]
@[simp] theorem advanceTo8_chans (n : Nat) (s : State) : (advanceTo8 n s).chans = s.chans := by simp [advanceTo8]
@[simp] theorem advanceTo8_phys (n : Nat) (s : State) : (advanceTo8 n s).phys = s.phys := by simp [advanceTo8]
@[simp] theorem advanceTo8_pwr (n : Nat) (s : State) : (advanceTo8 n s).pwr = s.pwr := by simp [advanceTo8]

/-- DTIME reaches an instant by whole cycles of the clock it counts, or stays where the instant is past (02 R51). -/
theorem advanceTo8_d8 (n : Nat) (s : State) : max s.d8 n ≤ (advanceTo8 n s).d8 ∧ (advanceTo8 n s).d8 < max s.d8 n + coreTick8 s ∧ coreTick8 s ∣ (advanceTo8 n s).d8 - s.d8 := by
  have hc : 0 < coreTick8 s := by unfold coreTick8; split <;> decide
  have e : (advanceTo8 n s).d8 = s.d8 + (n - s.d8 + coreTick8 s - 1) / coreTick8 s * coreTick8 s := rfl
  have h1 := Nat.div_add_mod (n - s.d8 + coreTick8 s - 1) (coreTick8 s)
  have h2 := Nat.mod_lt (n - s.d8 + coreTick8 s - 1) hc
  rw [e]
  rw [Nat.mul_comm] at h1
  refine ⟨by omega, by omega, ⟨(n - s.d8 + coreTick8 s - 1) / coreTick8 s, by rw [Nat.mul_comm]; omega⟩⟩

/-- TUN_ACT aside, a port's status fields stay when the tunnel follows its port. -/
theorem fget_tunFollow (b : Nat) (f : Fld) (p : Fin 4) (s : State)
    (h1 : b + f.off ≠ HP p + 8 ∨ b = HP p ∧ (f.lsb + f.width ≤ 13 ∨ 14 ≤ f.lsb)) (h2 : b + f.off ≠ CON + CON_STATUS_TUN_ACT.off) :
    fget (tunFollow p s) b f = fget s b f := by
  have e1 : ∀ v x, fget (fset (HP p) HP_STATUS_TUN_ACT v x) b f = fget x b f := fun v x => by
    rcases h1 with h | ⟨h, h'⟩
    · exact fget_fset_ne _ _ _ _ _ _ h
    · subst h
      by_cases ho : f.off = 8
      · exact fget_fset_other _ _ _ _ _ ho (by decide) h'
      · exact fget_fset_ne _ _ _ _ _ _ (by simp only [HP_STATUS_TUN_ACT]; omega)
  have e2 : ∀ v x, fget (fset CON CON_STATUS_TUN_ACT v x) b f = fget x b f := fun v x => fget_fset_ne _ _ _ _ _ _ h2
  have e3 : ∀ v x, fget (fset CON CON_STATUS_TUN_PORT v x) b f = fget x b f := fun v x => fget_fset_ne _ _ _ _ _ _ h2
  unfold tunFollow
  extract_lets on x
  have ex : fget x b f = fget s b f := by
    show fget (fsetB _ _ _ _) _ _ = _
    unfold fsetB
    exact e1 _ _
  split
  · rw [e2, e3, ex]
  · unfold onlyIf
    split
    · rw [e2, ex]
    · exact ex

/-- The beginning of a cycle writes no register. -/
theorem cycStart_regs (t : Fin 5) (s : State) : (cycStart t s).regs = s.regs := by
  unfold cycStart
  split <;> rfl

/-- Self-test's count of stopped slices and its running lanes aside, the lanes' following leaves every field. -/
theorem fget_laneFollow (b : Nat) (f : Fld) (p : Fin 4) (s : State) (h1 : b + f.off ≠ BST + BST_STATUS_LANE_RUN.off) (h2 : b + f.off ≠ BST + BST_STOP_COUNT.off) :
    fget (laneFollow p s) b f = fget s b f := by
  unfold laneFollow
  extract_lets st was now x0 x y
  have e : fget y b f = fget s b f := fget_congr rfl _ _
  split
  · rw [onlyIf_inv (fun s => fget s b f) _ _ _ (fun _ => fget_congr (cycStart_regs _ _) _ _)]
    exact e
  · unfold stopLane
    split
    · exact e
    · rw [fget_fbump_ne _ _ _ _ _ h2]
      unfold fsetBit
      rw [fget_fset_ne _ _ _ _ _ _ h1]
      exact e

theorem HP_BST (p : Fin 4) (i : Nat) {j : Nat} (h : i < 0x1000) : HP p + i ≠ BST + j := by
  unfold HP BST
  omega

/-- A port is put into a state. -/
theorem portSt_setPortSt (p : Fin 4) (v : Nat) (s : State) : portSt (setPortSt p v s) p = v % 16 := by
  unfold portSt setPortSt
  rw [fget_laneFollow _ _ _ _ (HP_BST _ _ (by decide)) (HP_BST _ _ (by decide)), fget_tunFollow _ _ _ _ (Or.inr ⟨rfl, Or.inl (by decide)⟩) (by simp only [HP, CON, HP_STATUS_STATE, CON_STATUS_TUN_ACT]; omega),
    fget_fset _ _ _ _ (by decide)]
  rfl

/-- Other fields stay when a port is put into a state. -/
theorem fget_setPortSt (b : Nat) (f : Fld) (p : Fin 4) (v : Nat) (s : State)
    (h1 : b + f.off ≠ HP p + 8 ∨ b = HP p ∧ 4 ≤ f.lsb ∧ (f.lsb + f.width ≤ 13 ∨ 14 ≤ f.lsb)) (h2 : b + f.off ≠ CON + CON_STATUS_TUN_ACT.off)
    (h3 : b + f.off ≠ BST + BST_STATUS_LANE_RUN.off) (h4 : b + f.off ≠ BST + BST_STOP_COUNT.off) :
    fget (setPortSt p v s) b f = fget s b f := by
  unfold setPortSt
  rw [fget_laneFollow _ _ _ _ h3 h4, fget_tunFollow _ _ _ _ (h1.imp id fun h => ⟨h.1, h.2.2⟩) h2]
  have : fget (updPort p (fun ps => { ps with stAt8 := s.d8 }) s) b f = fget s b f := fget_congr (updPort_regs _ _ _) _ _
  rcases h1 with h | ⟨h, h', _⟩
  · rw [fget_fset_ne _ _ _ _ _ _ h, this]
  · subst h
    by_cases ho : f.off = 8
    · rw [fget_fset_other _ f HP_STATUS_STATE _ _ ho (by decide) (Or.inr h'), this]
    · rw [fget_fset_ne _ _ _ _ _ _ (by simp only [HP_STATUS_STATE]; omega), this]

/-- A port's record when it is put into a state: only the time of the change. -/
theorem setPortSt_port (p : Fin 4) (v : Nat) (s : State) : (setPortSt p v s).port p = { s.port p with stAt8 := s.d8 } := by
  unfold setPortSt
  rw [port_congr (laneFollow_ports _ _), port_congr (tunFollow_ports _ _), port_congr (fset_ports _ _ _ _), updPort_port]

theorem setPortSt_port_ne (p q : Fin 4) (v : Nat) (s : State) (h : q ≠ p) : (setPortSt p v s).port q = s.port q := by
  unfold setPortSt
  rw [port_congr (laneFollow_ports _ _), port_congr (tunFollow_ports _ _), port_congr (fset_ports _ _ _ _), updPort_port_ne _ _ _ _ h]

theorem portSt_toDetect (p : Fin 4) (s : State) : portSt (toDetect p s) p = PORT_DETECT := portSt_setPortSt _ _ _

/-- Sending a flit leaves every field but the count of NAKs (03 R79). -/
theorem fget_sendFlit (b : Nat) (f : Fld) (p : Fin 4) (ft : BitVec 4) (r : Bool) (x : TxFlit) (s : State) (h : b + f.off ≠ HP p + HP_NAK_TX_COUNT.off) :
    fget (sendFlit p ft r x s) b f = fget s b f := by
  unfold sendFlit
  extract_lets g y
  split
  · rfl
  · rw [fget_congr (updPort_regs _ _ _)]
    exact onlyIf_inv (fun s => fget s b f) _ _ _ (fun y => fget_fbump_ne _ _ _ _ _ h)

theorem fget_sendTrain (b : Nat) (f : Fld) (p : Fin 4) (s : State) (h : b + f.off ≠ HP p + HP_NAK_TX_COUNT.off) : fget (sendTrain p s) b f = fget s b f := by
  unfold sendTrain
  extract_lets n y
  rw [onlyIf_inv (fun s => fget s b f) _ _ _ (fun y => fget_congr (updPort_regs _ _ _) _ _)]
  exact forAll_inv (fun s => fget s b f) _ _ _ (fun _ y => fget_sendFlit _ _ _ _ _ _ _ h)

/-- Sending a flit leaves of a port's record all but what went out and the NAK that was due (03 R79). -/
theorem sendFlit_port {β : Type} (g : PortState → β) (p q : Fin 4) (ft : BitVec 4) (r : Bool) (x : TxFlit) (s : State)
    (hg : ∀ ps o n d, g { ps with out := o, outAt8 := n, nakDue := d } = g ps) : g ((sendFlit p ft r x s).port q) = g (s.port q) := by
  unfold sendFlit
  extract_lets f y
  have e : y.port q = s.port q := port_congr (onlyIf_inv (·.ports) _ _ _ (fun y => fbump_ports _ _ _)) q
  split
  · rfl
  by_cases hq : q = p
  · subst hq
    rw [updPort_port, hg, e]
  · rw [updPort_port_ne _ _ _ _ hq, e]

theorem sendTrain_port {β : Type} (g : PortState → β) (p q : Fin 4) (s : State)
    (hg : ∀ ps o n d, g { ps with out := o, outAt8 := n, nakDue := d } = g ps) (hi : ∀ ps n, g { ps with initSent := n } = g ps) : g ((sendTrain p s).port q) = g (s.port q) := by
  unfold sendTrain
  extract_lets n y
  rw [onlyIf_inv (fun s => g (s.port q))]
  · exact forAll_inv (fun s => g (s.port q)) _ _ _ (fun _ y => sendFlit_port g _ _ _ _ _ _ hg)
  · intro y
    by_cases hq : q = p
    · subst hq
      simp only [updPort_port, hi]
    · simp only [updPort_port_ne _ _ _ _ hq]

theorem portSt_sendTrain (p q : Fin 4) (s : State) : portSt (sendTrain p s) q = portSt s q := by
  unfold portSt
  refine fget_sendTrain _ _ _ _ ?_
  unfold HP
  simp only [HP_STATUS_STATE, HP_NAK_TX_COUNT]
  omega

theorem portSt_toRetrain (p : Fin 4) (u : Bool) (s : State) : portSt (toRetrain p u s) p = PORT_RETRAIN := by
  unfold toRetrain
  rw [portSt_sendTrain]
  exact portSt_setPortSt _ _ _

/-- A lossless RETRAIN keeps the replay buffer and the sequence numbers (03 R93): of the port's record it changes what is named here, what went out, and the count of INIT flits. -/
theorem toRetrain_port {β : Type} (g : PortState → β) (p : Fin 4) (u : Bool) (s : State)
    (hg : ∀ ps o n d, g { ps with out := o, outAt8 := n, nakDue := d } = g ps) (hi : ∀ ps n, g { ps with initSent := n } = g ps) :
    g ((toRetrain p u s).port p) = g { s.port p with
      lossless := true, upgrade := u, initSeen := 0, initSent := 0, trnGood := 0, nak := false, nakDue := false, rtPhase := .test,
      widthWas := fget s (HP p) HP_STATUS_WIDTH, groupWas := (s.port p).group, stAt8 := s.d8 } := by
  unfold toRetrain
  rw [sendTrain_port g _ _ _ hg hi, setPortSt_port, updPort_port]
  rfl

theorem fget_emit (b : Nat) (f : Fld) (h : String) (x : List (String × FVal)) (s : State)
    (h1 : b + f.off ≠ GLB + 8) (h2 : b + f.off ≠ CON + CON_STATUS_EV_LOST.off) (h3 : b + f.off ≠ CON + CON_EVLOST_COUNT.off) :
    fget (emit h x s) b f = fget s b f := by
  unfold emit
  split
  · unfold irq
    rw [fget_fset_ne _ _ _ _ _ _ h1]
    exact fget_congr rfl _ _
  · rw [fget_fset_ne _ _ _ _ _ _ h2, fget_fbump_ne _ _ _ _ _ h3]
    exact fget_congr rfl _ _

theorem fget_irq (b : Nat) (f g : Fld) (s : State) (h : b + f.off ≠ GLB + g.off) : fget (irq g s) b f = fget s b f :=
  fget_fset_ne _ _ _ _ _ _ h

theorem fget_tunnelDown (b : Nat) (f : Fld) (p : Fin 4) (s : State)
    (h1 : b + f.off ≠ GLB + 8) (h2 : b + f.off ≠ CON + CON_STATUS_EV_LOST.off) (h3 : b + f.off ≠ CON + CON_EVLOST_COUNT.off) :
    fget (tunnelDown p s) b f = fget s b f := by
  unfold tunnelDown
  split
  · rw [fget_emit _ _ _ _ _ h1 h2 h3]
    exact fget_congr rfl _ _
  · rfl

/-- What a port reset leaves of a register: everything but the link's own counts, credits and state (03 R98). -/
theorem fget_clearPort (b : Nat) (f : Fld) (p : Fin 4) (s : State)
    (h1 : b + f.off ≠ GLB + 8) (h2 : b + f.off ≠ CON + CON_STATUS_EV_LOST.off) (h3 : b + f.off ≠ CON + CON_EVLOST_COUNT.off)
    (h4 : b + f.off ≠ HP p + HP_CRED_NOW_CRX.off) (h5 : b + f.off ≠ HP p + HP_PIPE_RX_LAT.off) :
    fget (clearPort p s) b f = fget s b f := by
  unfold clearPort
  extract_lets x y z
  rw [fget_fset_ne _ _ _ HP_CRED_NOW_CRX _ _ h4, fget_fset_ne _ _ _ HP_CRED_NOW_RAB_FILL _ _ h4,
    fget_fset_ne _ _ _ HP_PIPE_RX_LAT _ _ h5, fget_fset_ne _ _ _ HP_PIPE_TX_LAT _ _ h5]
  have e : z.regs = x.regs := by
    show (voidTags p (updPort p _ x)).regs = _
    rw [voidTags_regs, updPort_regs]
  rw [fget_congr e]
  exact fget_tunnelDown _ _ _ _ h1 h2 h3

/-- What a port's record holds after the link is cleared (03 R98). -/
theorem clearPort_port (p : Fin 4) (s : State) :
    (clearPort p s).port p = { s.port p with
      replay := [], nextFseq := 0, resentFrom := none, retries := 0, expect := 0, nak := false, nakDue := false, ackSeen := false,
      crX := {}, crT := {}, crC := {}, rxX := {}, rxT := {}, rxC := {}, part := [], partNeed := 0,
      intake := (s.port p).intake.map fun r => { r with void := true },
      arrived := (s.port p).arrived.map fun x => ({ x.1 with void := true }, x.2),
      timeQ := [], conQ := [], rab := [], txT := [], initSeen := 0, initSent := 0, lossless := false, upgrade := false, trainOk := false,
      toQuiet := false, ser := Vector.replicate 16 0 } := by
  unfold clearPort
  extract_lets x y z
  have e : ∀ w : State, w.ports = y.ports → w.port p = y.port p := fun w h => port_congr h p
  rw [e _ (by simp only [fset_ports]; exact voidTags_ports _ _)]
  have : x.port p = s.port p := port_congr (tunnelDown_ports _ _) p
  show (updPort p _ x).port p = _
  rw [updPort_port, this]

/-- A port reset trains again where EN is 1 (03 R98, R103). -/
theorem portSt_portReset (p : Fin 4) (c : String) (s : State) :
    portSt (portReset p c s) p = if fbit s (HP p) HP_CTL_EN then PORT_DETECT else PORT_DOWN := by
  unfold portReset
  extract_lets x y z w
  have e : fbit w (HP p) HP_CTL_EN = fbit s (HP p) HP_CTL_EN := by
    unfold fbit
    show (fget (fset _ _ _ z) _ _ != 0) = _
    rw [fget_fset_ne _ _ _ _ _ _ (off_ne _ (by decide))]
    show (fget (irq _ (emit _ _ y)) _ _ != 0) = _
    rw [fget_irq _ _ _ _ (HP_GLB _ _ (by decide)), fget_emit _ _ _ _ _ (HP_GLB _ _ (by decide)) (HP_CON _ _ (by decide)) (HP_CON _ _ (by decide))]
    show (fget (fbump _ _ x) _ _ != 0) = _
    rw [fget_fbump_ne _ _ _ _ _ (off_ne _ (by decide))]
    show (fget (clearPort p s) _ _ != 0) = _
    rw [fget_clearPort _ _ _ _ (HP_GLB _ _ (by decide)) (HP_CON _ _ (by decide)) (HP_CON _ _ (by decide)) (off_ne _ (by decide)) (off_ne _ (by decide))]
  rw [e]
  split
  · exact portSt_toDetect _ _
  · exact portSt_setPortSt _ _ _

/-- What a port's record holds after a port reset (03 R98). -/
theorem portReset_port (p : Fin 4) (c : String) (s : State) :
    ((portReset p c s).port p).replay = [] ∧ ((portReset p c s).port p).rab = [] ∧ ((portReset p c s).port p).expect = 0
      ∧ ((portReset p c s).port p).nextFseq = 0 ∧ ((portReset p c s).port p).part = [] ∧ ((portReset p c s).port p).partNeed = 0
      ∧ ((portReset p c s).port p).crX = {} ∧ ((portReset p c s).port p).crT = {} ∧ ((portReset p c s).port p).crC = {}
      ∧ ((portReset p c s).port p).intake = (s.port p).intake.map fun r => { r with void := true } := by
  unfold portReset
  extract_lets x y z w
  have e : w.port p = (clearPort p s).port p := by
    refine port_congr ?_ p
    show (fset _ _ _ (irq _ (emit _ _ (fbump _ _ (clearPort p s))))).ports = _
    simp only [fset_ports, irq_ports, emit_ports, fbump_ports]
  rw [clearPort_port] at e
  split
  · unfold toDetect
    rw [setPortSt_port, port_congr (fset_ports _ _ _ _), updPort_port, e]
    simp
  · rw [setPortSt_port, e]
    simp

/-- What the FEC counts leave: every register but the two FEC counters (03 R106, R107). -/
theorem fget_fecCount (b : Nat) (f : Fld) (p : Fin 4) (x : Flit) (s : State)
    (h1 : b + f.off ≠ HP p + HP_FEC_UNC_COUNT.off) (h2 : b + f.off ≠ HP p + HP_FEC_CORR_COUNT.off) :
    fget (fecCount p x s) b f = fget s b f := by
  unfold fecCount
  extract_lets q y z w
  have e : fget y b f = fget s b f := fget_congr (updPort_regs _ _ _) _ _
  split
  · rw [forAll_inv (fun s => fget s b f) _ _ _ (fun a y => fget_congr (by simp) _ _)]
    show fget (onlyIf _ _ (onlyIf _ _ _)) _ _ = _
    rw [onlyIf_inv (fun s => fget s b f) _ _ _ (fun y => fget_fbump_ne _ _ _ _ _ h2),
      onlyIf_inv (fun s => fget s b f) _ _ _ (fun y => fget_fbump_ne _ _ _ _ _ h1), e]
  · exact e

theorem portSt_fecCount (p q : Fin 4) (x : Flit) (s : State) : portSt (fecCount p x s) q = portSt s q := by
  unfold portSt
  refine fget_fecCount _ _ _ _ _ ?_ ?_ <;> (unfold HP; simp only [HP_STATUS_STATE, HP_FEC_UNC_COUNT, HP_FEC_CORR_COUNT]; omega)

/-- A port's record after the FEC counts: only the lanes' counts and the place in the block of five flits change. -/
theorem fecCount_port {β : Type} (g : PortState → β) (p q : Fin 4) (x : Flit) (s : State) (hg : ∀ ps v, g { ps with ser := v } = g ps)
    (hf : ∀ ps n, g { ps with fecPos := n } = g ps) : g ((fecCount p x s).port q) = g (s.port q) := by
  have up : ∀ (h : PortState → PortState) (y : State), (∀ ps, g (h ps) = g ps) → g ((updPort p h y).port q) = g (y.port q) := fun h y hh => by
    by_cases hq : q = p
    · subst hq
      rw [updPort_port, hh]
    · rw [updPort_port_ne _ _ _ _ hq]
  unfold fecCount
  extract_lets k y z w
  have e : g (y.port q) = g (s.port q) := up _ _ (fun ps => hf _ _)
  split
  · rw [forAll_inv (fun s => g (s.port q))]
    · show g ((onlyIf _ _ (onlyIf _ _ _)).port q) = _
      rw [onlyIf_inv (fun s => g (s.port q)) _ _ _ (fun y => by rw [port_congr (fbump_ports _ _ _)]),
        onlyIf_inv (fun s => g (s.port q)) _ _ _ (fun y => by rw [port_congr (fbump_ports _ _ _)]), e]
    · intro a y
      refine (up _ _ (fun ps => hg _ _)).trans ?_
      rw [port_congr (ixSet_ports _ _ _ _)]
  · exact e

theorem fecCount_inv {β : Type} (g : State → β) (p : Fin 4) (x : Flit) (s : State)
    (h1 : ∀ b f y, g (fbump b f y) = g y) (h2 : ∀ b i w y, g (ixSet b i w y) = g y) (h3 : ∀ f y, g (updPort p f y) = g y) : g (fecCount p x s) = g s := by
  unfold fecCount
  extract_lets k y z w
  split
  · rw [forAll_inv g _ _ _ (fun a y => by simp only [h3, h2])]
    show g (onlyIf _ _ (onlyIf _ _ _)) = _
    rw [onlyIf_inv g _ _ _ (fun y => h1 _ _ _), onlyIf_inv g _ _ _ (fun y => h1 _ _ _)]
    exact h3 _ _
  · exact h3 _ _

@[simp] theorem fecCount_dram (p : Fin 4) (x : Flit) (s : State) : (fecCount p x s).dram = s.dram := fecCount_inv (·.dram) p x s (by simp) (by simp) (by simp)
@[simp] theorem fecCount_wmem (p : Fin 4) (x : Flit) (s : State) : (fecCount p x s).wmem = s.wmem := fecCount_inv (·.wmem) p x s (by simp) (by simp) (by simp)
@[simp] theorem fecCount_streams (p : Fin 4) (x : Flit) (s : State) : (fecCount p x s).streams = s.streams := fecCount_inv (·.streams) p x s (by simp) (by simp) (by simp)
@[simp] theorem fecCount_free (p : Fin 4) (x : Flit) (s : State) : (fecCount p x s).free = s.free := fecCount_inv (·.free) p x s (by simp) (by simp) (by simp)
@[simp] theorem fecCount_d8 (p : Fin 4) (x : Flit) (s : State) : (fecCount p x s).d8 = s.d8 := fecCount_inv (·.d8) p x s (by simp) (by simp) (by simp)

/-- What sending leaves: every register but the port's present credits and its count of NAKs (03 R79, R106), and every part of the state but the console's bytes, the energy and the port's record. -/
theorem pump_spec {β : Type} (g : State → β) (p : Fin 4) (s : State)
    (h1 : ∀ f v y, f.off = HP_CRED_NOW_CRX.off → g (fset (HP p) f v y) = g y) (h2 : ∀ i n m y, g (charge i n m y) = g y)
    (h3 : ∀ c y, g { y with con := c } = g y) (h4 : ∀ f y, g (updPort p f y) = g y) (h5 : ∀ y, g (fbump (HP p) HP_NAK_TX_COUNT y) = g y) :
    g (pump p s) = g s := by
  have hs : ∀ ft r t y, g (sendFlit p ft r t y) = g y := fun ft r t y => by
    unfold sendFlit
    extract_lets f z
    split
    · rfl
    · rw [h4]
      exact onlyIf_inv g _ _ _ h5
  have hr : ∀ y, g (showRab p y) = g y := fun y => h1 _ _ _ rfl
  unfold pump
  extract_lets ps room ts nT nC cs xs nX slots flits c1 c2 c3 ps' s1 s2 y z w
  split
  · exact hr _
  · split
    · exact (hs _ _ _ _).trans (hr _)
    · split
      · exact (hs _ _ _ _).trans (hr _)
      · refine (forAll_inv g _ _ _ (fun _ _ => hs _ _ _ _)).trans ?_
        rw [hr, h1 HP_CRED_NOW_CRX _ _ rfl]
        show g (charge _ _ _ (forAll _ _ _)) = _
        rw [h2, forAll_inv g _ _ _ (fun a x => h2 _ _ _ _)]
        show g { (updPort p (fun _ => ps') s) with con := _ } = _
        rw [h3, h4]

end Sys2Proof.Laws
end

