-- ==== Sys2Proof/Tests/Slice0.lean ====
section
/-! SUPPORT. Tests: ill-formed commands that WellFormed refuses, the spec's own worked figures, and for every statement of Certificates/Slice0 states and operands that meet the hypotheses of each of its clauses. -/

namespace Sys2Proof.Tests
open Sys2Proof Sys2Proof.Machine

section
set_option Elab.async false

theorem test_empty_queue_wf : State.reset.pending = [] := by rfl

/-! ### States that the tests stand on -/

/-- The state that an outcome gives. -/
def outSt (o : Host.Outcome State Fault Refusal) : State :=
  match o with
  | .next t => t
  | _ => State.reset

/-- The state after reset. -/
def R : State := State.reset
def pw (f : PwrState → PwrState) (s : State) : State := { s with pwr := f s.pwr }
def cn (f : ConState → ConState) (s : State) : State := { s with con := f s.con }
def wy (f : WayState → WayState) (s : State) : State := { s with way := f s.way }
def qu (f : QueueState → QueueState) (s : State) : State := { s with que := f s.que }
def ld (f : LedState → LedState) (s : State) : State := { s with led := f s.led }
def bs (f : BistState → BistState) (s : State) : State := { s with bist := f s.bist }
/-- Channels 0 and 8 are members of a loaded map and in service. -/
def M : State := fset (CH 0) CH_STATUS_STATE 3 (fset (CH 8) CH_STATUS_STATE 3 (fset GLB GLB_MAP_MEMBERS_MEMBERS 0x101 (fset GLB GLB_MAP_CTL_LOADED 1 R)))
def ps (p : Fin 4) (st : Nat) (s : State) : State := fset (HP p) HP_STATUS_STATE st s
/-- Port 0 is ACTIVE. -/
def P : State := ps 0 PORT_ACTIVE M
def upd (p : Fin 4) (f : PortState → PortState) (s : State) : State := updPort p f s
/-- A flit of type `ft` whose slots are `l` and then zero, with a right CRC. -/
def flit (ft : Nat) (som : BitVec 15) (pad : BitVec 4) (fseq : BitVec 12) (l : List Slot) : Flit :=
  let f : Flit := { ft := BitVec.ofNat 4 ft, fseq := fseq, ackseq := 0, ackk := 0, cumx := 5, cumt := 1, cumc := 2, som := som, padfrom := pad, rply := false, epoch := 0, lreq := 0, badlane := 0, resv := 0, slots := Vector.ofFn fun i => l.getD i 0, crc := 0, fecBad := false, fecCorr := [] }
  { f with crc := flitCrc f }
/-- Port 0 waits for its NAK to be answered. -/
def nakP : State := upd 0 (fun x => { x with nak := true, nakAt8 := 8 }) P
/-- A flit that acknowledges what was never sent. -/
def nakFlit : Flit := let f := { flit 1 0 0 0 [] with ackk := 1, ackseq := 77 }; { f with crc := flitCrc f }
/-- A training record of the width code 2. -/
def trec (st : Nat) : TrainRec := { tstate := BitVec.ofNat 4 st, twidth := 2, trate := true, lgood := 0xFFFF, tepoch := 1, nextrx := 0, advx := 1024, advt := 8, advc := 16, lossless := false, laneid := 3 }
/-- A TRAIN flit with a record in its slots. -/
def tfl (t : TrainRec) : Flit := flit 14 0 15 0 (recSlots t)
/-- A port in training state `st` at width code 2 with all its lanes good. -/
def T (st : Nat) : State := upd 0 (fun x => { x with trnGood := 0xFFFF, rateTry := true, initSent := 8 }) (fset (HP 0) HP_STATUS_WIDTH 2 (ps 0 st M))
/-- A journal entry of stream 5 of port 0. -/
def E : JEntry := { st := .pend, opc := .wr, stream := 5, seq := 7, tag := 3, weight := 9, target := 0x500, staged := List.replicate 8 0x55 }
/-- A state with something in every memory. -/
def D : State := setWayLine 3 5 (storeLine 0 10 99 false (setStrm 0 5 { n := 8, win := [{ seq := 7, fp := 1, opc := .wr, tag := some 3 }] } (updRing 0 (fun r => { r with entries := [E], copyB := [E], used := 1 }) P)))
def chs (st : Nat) (s : State) : State := fset (CH 0) CH_STATUS_STATE st (fset (CH 8) CH_STATUS_STATE st s)
/-- DOZE with its channels in self-refresh. -/
def Z : State := pw (fun x => { x with mode := .doze }) (chs 4 (ps 0 PORT_QUIET D))
/-- BANKED. -/
def B : State := pw (fun x => { x with mode := .banked, lowPower := true, retEn := true, slowEdges := 9, bankEdges := 4, wk := .matcher }) (chs 4 (ps 0 PORT_DOWN D))
/-- A header of stream 5 for manifest 1: line 10, which channel 0 holds at its line 5. -/
def H : Hdr := { tag := 9, stream := 5, seq := 0, man := 1, deadline := 1000, arg := 10, ndf := false, sub := 0 }
def Hq (seq : Nat) : Hdr := { H with seq := BitVec.ofNat 16 seq }
/-- Manifest 1 is open with wide shares. -/
def Q : State := setMan 1 { st := .opened, f := { ports := 15, jshare := 4096, ishare := 256, dirty := 100, blocks := 100, qbase := 0, qcount := 8, bw := 100, lat := 1000 } } M
def Qa : State := ps 0 PORT_ACTIVE Q
def body : List Slot := List.replicate 8 0x77
def con (o : Opc) : Contestant := { port := 0, req := reqOf o H body, fp := 0, t := 0, o := 1000, late := false, boost := 0, order := 0, home := 0, weight := 1, toll := 1, resv := false, twin := false, hit := false }
def Sx (x : StreamRec) (s : State) : State := setStrm 0 5 x s
/-- Request `o` stands alone in the contest of channel 0. -/
def G (o : Opc) : State := updArb 0 (fun x => { x with contest := [con o] }) { Sx { busy := true } Q with d8 := 800 }
/-- A request of stream 5 waits for its reserved slot. -/
def resvQ : State := updArb 0 (fun x => { x with resvWait := [{ con .rd with resv := true }] }) { Sx { busy := true, resv := true } Q with d8 := 800 }
def cx (l : Nat) (wr : Bool) (src : CmdSrc) : Cmd := { src := src, line := l, wr := wr, data := 77 }
def c0 (f : ChanState → ChanState) (s : State) : State := updChan 0 f s
def ring0 (l : List JEntry) (s : State) : State := updRing 0 (fun r => { r with entries := l, copyB := l }) s
/-- Stream 5 of port 0 has accepted the request of entry `E`. -/
def A : State := ring0 [E] (Sx { n := 8, win := [{ seq := 7, fp := 1, opc := .wr, tag := some 3 }] } Q)
def Er : JEntry := { E with opc := .rd, staged := [] }
def p0 (f : PhyState → PhyState) (s : State) : State := updPhy 0 f s
def p5 (f : PhyState → PhyState) (s : State) : State := updPhy 5 f s
/-- Channel 5, outside the map, trains. -/
def K (k : Nat) (man : Bool) : State := fset (PHY 5) PHY_TRN_STATUS_BUSY 1 (fset (PHY 5) PHY_TRN_STATUS_STEP k (p5 (fun x => { x with trn := some (3, man) }) (fset (CH 5) CH_STATUS_STATE 1 D)))
def res0 : PauseRes := { counts := [], points := [] }
def N : State := chs 2 (fset GLB GLB_MAP_MEMBERS_MEMBERS 0 (fset GLB GLB_MAP_CTL_LOADED 0 D))
def tier (f : Nat) (x : Frame) (s : State) : State := wy (fun y => { y with tier := [(f, x)] }) s
def wk (h : Nat) (x : WalkRt) (s : State) : State := { s with walks := [(h, x)] }
def car (ph : StagePh) : Caravan := { ring := 3, entry := 2, desc := 5, keys := [{ key := 1 }], ph := ph }
/-- The layout is committed and manifest 1 holds Waystation segments. -/
def L : State := setMan 1 { st := .opened, f := { ports := 15, way := 500 } } (fset WAY WAY_WALKSEG_FREE 700 (fset WAY WAY_STATUS_COMMITTED 1 D))
/-- Descriptor 7 is described. -/
def quiet (s : State) : State := cn (fun x => { x with ans := [] }) s
def V : State := quiet (outSt (exec (.walkStage 7 0 false 0 1 3 4) (quiet (outSt (exec (.walkDefine 7 1 0 false 64 1 1 1) L)))))
/-- Descriptor 7 is loaded. -/
def VL : State := quiet (outSt (exec (.walkLoad 7) V))
def pin0 (x : PinEntry) (s : State) : State := wy (fun y => { y with pins := y.pins.set 0 x }) s
/-- A request of queue 3 by stream 5. -/
def Qe (o : Opc) : JEntry := { E with opc := o, target := 3, man := 1, arg := 0 }
def pl : EnqPlan := { ring := 0, entry := 0, queue := 3, cells := 1, bytes := 64, newBlks := [1], newFrms := [0], tailBlk := 1, tailFill := 1, first := 1, firstCell := 0 }
/-- The pool is set up; queue 3 of manifest 1 holds one packet of two cells in block 1. -/
def U : State := qu (fun x => { x with desc := [(3, { st := .active, headBlk := 1, tailBlk := 1, tailFill := 2, depth := 2, pkts := 1, nblk := 1 })], blocks := [(1, { out := true, queue := 3, cellMeta := [127, 191] ++ List.replicate 30 0 })], frames := [(0, { role := .tail, queue := 3, block := 1, valid := 3 })], initDone := true, fresh := [(0, 1), (2, 65534)] }) (fset QUE QUE_POOL_BLOCKS_P 65536 A)
def fo : MFields := { ports := 15, jshare := 600, ishare := 64, dirty := 0, bw := 100, lat := 5000, way := 0 }
/-- Manifest 5 can be opened. -/
def Y : State := ld (fun x => { x with hold := some (1, 2, 300) }) (fset WAY WAY_STATUS_COMMITTED 1 M)
/-- The layout is committed, and every kind of slice may run. -/
def J : State := fset BST BST_CTL_WAY_EN 1 (fset BST BST_CTL_DRAM_EN 1 (fset BST BST_CTL_PHY_EN 1 (fset BST BST_CTL_LANE_EN 1 (bs (fun x => { x with sincePhy := Vector.replicate 16 0 }) (c0 (fun x => { x with bkBst := 1024 }) (outSt (exec .layoutCommit P)))))))
def dsl (x : DramSlice) (s : State) : State := bs (fun y => { y with dram := y.dram.set 0 (some x) }) s
/-- A read that fills a frame waits for its background slot. -/
def fillP : State := wy (fun x => { x with tier := [(4, { st := .filling })] }) (c0 (fun x => { x with bg := [⟨.mig, cx 9 false (.fill false 4 3)⟩], bkMig := 32 }) D)

/-! ### Well-formedness: for every check a command that passes it and one that does not -/

theorem test_wf_bodies :
    (Instr.wr 0 H body false).wf = true ∧ (Instr.wr 0 H (body.drop 1) false).wf = false ∧
    (Instr.wrp 0 H (0 :: body) false).wf = true ∧ (Instr.wrp 0 H body false).wf = false ∧
    (Instr.add 0 H [1] false).wf = true ∧ (Instr.add 0 H [] false).wf = false ∧
    (Instr.enq 0 { H with arg := 0x1000000 } body false).wf = true ∧ (Instr.enq 0 { H with arg := 0x1000000 } [] false).wf = false ∧ (Instr.enq 0 H body false).wf = false ∧
    (Instr.walk 0 { H with arg := 0x2000 } [0, 1, 2] false).wf = true ∧ (Instr.walk 0 { H with arg := 0x2000 } [0, 1] false).wf = false := by decide +kernel

theorem test_wf_numbers :
    (Instr.queueReset 131071).wf = true ∧ (Instr.queueReset 131072).wf = false ∧
    (Instr.manifestOpen 255 fo).wf = true ∧ (Instr.manifestOpen 256 fo).wf = false ∧ (Instr.manifestModify 256 {}).wf = false ∧
    (Instr.manifestClose 256 true).wf = false ∧ (Instr.manifestClosed 256).wf = false ∧
    (Instr.walkDefine 4096 1 0 true 0 1 1 1).wf = false ∧ (Instr.walkStage 4095 7 true 0 0 0 0).wf = true ∧ (Instr.walkStage 4095 8 true 0 0 0 0).wf = false ∧
    (Instr.walkStage 4096 7 true 0 0 0 0).wf = false ∧ (Instr.walkLoad 4096).wf = false ∧ (Instr.walkUnload 4096).wf = false ∧ (Instr.walkUnloaded 4096).wf = false := by decide +kernel

theorem test_wf_registers :
    (Instr.registerWrite 0xFFFFFC 5).wf = true ∧ (Instr.registerWrite 0x1000000 5).wf = false ∧ (Instr.registerWrite 2 5).wf = false ∧
    (Instr.guardedValueWrite 0x1000000 5).wf = false ∧ (Instr.guardedValueWrite 1 5).wf = false ∧ (Instr.guardedComplementWrite 0x1000000 5).wf = false ∧ (Instr.guardedComplementWrite 3 5).wf = false ∧
    (Instr.maskedWrite 0x1000000 5).wf = false ∧ (Instr.maskedWrite 1 5).wf = false ∧ (Instr.clearOnRead 0x1000000).wf = false ∧ (Instr.clearOnRead 1).wf = false := by decide +kernel

theorem test_wf_console :
    (Instr.conRd 0xFFFFFC 32).wf = true ∧ (Instr.conRd 0x1000000 1).wf = false ∧ (Instr.conRd 2 1).wf = false ∧ (Instr.conRd 4 0).wf = false ∧ (Instr.conRd 4 33).wf = false ∧
    (Instr.conIwr 0 0 [1]).wf = true ∧ (Instr.conIwr 0 0 []).wf = false ∧ (Instr.conIwr 0 0 (List.replicate 17 1)).wf = false ∧
    (Instr.conIrd 0 0 32).wf = true ∧ (Instr.conIrd 0 0 0).wf = false ∧ (Instr.conIrd 0 0 33).wf = false ∧
    (Instr.conLog 64).wf = true ∧ (Instr.conLog 0).wf = false ∧ (Instr.conLog 65).wf = false ∧ (Instr.bistLog 64).wf = true ∧ (Instr.bistLog 0).wf = false ∧ (Instr.bistLog 65).wf = false := by decide +kernel

/-! ### The spec's worked figures -/

/-- 16_registers.md, the example below R457: register addresses. -/
theorem test_register_addresses : CH 5 + CH_ECCCFG_SCRUB_EN.off = 0x150040 ∧ HP 2 + HP_LTMR_NAK_TMO.off = 0x22010 := by decide +kernel

/-- 16_registers.md, the example below R463: GLB_IRQ_EN holds 0x0101, and 0x0022_0022 makes it 0x0123. -/
theorem test_masked_write : fget (outSt (exec (.maskedWrite 0xC 0x00220022) (fset GLB GLB_IRQ_EN_EN 0x0101 R))) GLB GLB_IRQ_EN_EN = 0x0123 := by decide +kernel

/-- 15_kraog_console.md, the example of the line check: `id` has 0x73, `echo off` 0x03, `ok` 0x20. -/
theorem test_line_check : crc8 [0x69, 0x64] = 0x73 ∧ crc8 [0x65, 0x63, 0x68, 0x6F, 0x20, 0x6F, 0x66, 0x66] = 0x03 ∧ crc8 [0x6F, 0x6B] = 0x20 := by decide +kernel

/-- 04_transactions.md, the example of an RD: slot 0 of TAG 0x150, STREAM 0x011, SEQ 100, MAN 7, the deadline and the line of address 0x012_3456_7880. -/
theorem test_header : hdrOf 0x01500110064073B9ACA0001234567880 = { tag := 0x150, stream := 0x011, seq := 100, man := 7, deadline := 0x3B9ACA00, arg := 0x2468ACF1, ndf := false, sub := 0 }
    ∧ slotByte 0x01500110064073B9ACA0001234567880 0 = 0x01 ∧ slotByte 0x01500110064073B9ACA0001234567880 15 = 0x80 := by decide +kernel

/-- 09_dram_channels.md, the example of the map: all 16 channels, E = 2, the reset geometry and masks. -/
def mapEx : State := fset GLB GLB_MAP_MEMBERS_MEMBERS 0xFFFF (fset GLB GLB_MAP_TWIN_EIGHTHS 2 (fset GLB GLB_MAP_CTL_LOADED 1 R))

theorem test_map_example :
    topLines mapEx * 128 = 0x1C000000000 ∧ ordLines mapEx = 12884901888 ∧ placeOf mapEx 0x2468ACF1 = some { ch := 1, lam := 0x02468ACF, twin := false }
      ∧ bankOf mapEx 0x02468ACF = { rank := 1, bg := 3, bank := 2, row := 0x1234, col := 43 } := by decide +kernel

/-- 12_energy_ledger.md, the example of a declaration: 60,000 µJ and 2,000 µs at C_slow 352 give N_hold 418,020. -/
theorem test_hold_example : nHold (updChan 0 (fun x => { x with trnRate := 7 }) (updChan 8 (fun x => { x with trnRate := 7 }) M)) 60000 2000 = 418020 := by decide +kernel

/-! ### Every statement's hypotheses are met -/

theorem wit_PortTimersFire :
    (∃ (p : Fin 4) (s : State), portSt s p = PORT_ACTIVE ∧ flushOn s = false ∧ (s.port p).nak = true) ∧
    (∃ (p : Fin 4) (s : State), portSt s p = PORT_ACTIVE ∧ flushOn s = false ∧ (s.port p).replay ≠ [] ∧ (s.port p).retries < max 1 (fget s (HP p) HP_LTMR_RPL_MAX)) ∧
    (∃ (p : Fin 4) (s : State), portSt s p = PORT_ACTIVE ∧ flushOn s = false ∧ (s.port p).replay ≠ [] ∧ max 1 (fget s (HP p) HP_LTMR_RPL_MAX) ≤ (s.port p).retries) ∧
    (∃ (p : Fin 4) (s : State), (portSt s p = PORT_DETECT ∨ portSt s p = PORT_EQUALISE ∨ portSt s p = PORT_ALIGN ∨ portSt s p = PORT_INIT)) ∧
    (∃ (p : Fin 4) (s : State), portSt s p = PORT_RETRAIN) :=
  ⟨⟨0, nakP, by decide +kernel⟩,
   ⟨0, upd 0 (fun x => { x with replay := [⟨1, 0, 15, []⟩], ackAt8 := 8 }) P, by decide +kernel⟩,
   ⟨0, upd 0 (fun x => { x with replay := [⟨1, 0, 15, []⟩], ackAt8 := 8, retries := 9 }) P, by decide +kernel⟩,
   ⟨1, ps 1 PORT_ALIGN M, by decide +kernel⟩,
   ⟨1, ps 1 PORT_RETRAIN M, by decide +kernel⟩⟩

theorem wit_PortCommandsAct :
    (∃ (p : Fin 4) (s : State), blockOn s (HP p) = true) ∧
    (∃ (p : Fin 4) (s : State), blockOn s (HP p) = true ∧ portSt s p = PORT_ACTIVE) ∧
    (∃ (p : Fin 4) (s : State), blockOn s (HP p) = true ∧ portSt s p = PORT_ACTIVE) ∧
    (∃ (p : Fin 4) (s : State), blockOn s (HP p) = true ∧ fbit s (HP p) HP_CTL_EN = false ∧ portSt s p = PORT_DOWN) ∧
    (∃ (p : Fin 4) (s : State), blockOn s (HP p) = true ∧ fbit s (HP p) HP_CTL_EN = true) ∧
    (∃ (p : Fin 4) (s : State), blockOn s (HP p) = true ∧ (∀ q, q ≠ p → fbit s (HP q) HP_CTL_TUN_EN = false)) ∧
    (∃ (p : Fin 4) (s : State), blockOn s (HP p) = true ∧ (∃ q, q ≠ p ∧ fbit s (HP q) HP_CTL_TUN_EN = true)) ∧
    (∃ (p : Fin 4) (s : State), blockOn s (HP p) = true) :=
  ⟨⟨3, ps 3 PORT_ACTIVE (upd 3 (fun x => { x with intake := [⟨.rd, default, [], false⟩], replay := [⟨1, 0, 15, []⟩], rab := [default] }) M), by decide +kernel⟩,
   ⟨3, ps 3 PORT_ACTIVE (upd 3 (fun x => { x with intake := [⟨.rd, default, [], false⟩], replay := [⟨1, 0, 15, []⟩], rab := [default] }) M), by decide +kernel⟩,
   ⟨3, ps 3 PORT_ACTIVE (upd 3 (fun x => { x with intake := [⟨.rd, default, [], false⟩], replay := [⟨1, 0, 15, []⟩], rab := [default] }) M), by decide +kernel⟩,
   ⟨3, fset (HP 3) HP_CTL_EN 0 (ps 3 PORT_DOWN M), by decide +kernel⟩,
   ⟨1, fset (HP 1) HP_CTL_EN 1 P, by decide +kernel⟩,
   ⟨3, ps 3 PORT_ACTIVE (upd 3 (fun x => { x with intake := [⟨.rd, default, [], false⟩], replay := [⟨1, 0, 15, []⟩], rab := [default] }) M), by decide +kernel⟩,
   ⟨1, fset (HP 2) HP_CTL_TUN_EN 1 P, by decide +kernel⟩,
   ⟨3, ps 3 PORT_ACTIVE (upd 3 (fun x => { x with intake := [⟨.rd, default, [], false⟩], replay := [⟨1, 0, 15, []⟩], rab := [default] }) M), by decide +kernel⟩⟩

theorem wit_LaneFaultsHandled :
    (∃ (p : Fin 4) (lane : Fin 16) (s : State), portSt s p = PORT_ACTIVE ∧ bitOf (groupMask s p) lane = true ∧ fbit s (HP p) HP_CTL_DEGRADE_EN = true) ∧
    (∃ (p : Fin 4) (lane : Fin 16) (s : State), portSt s p = PORT_ACTIVE ∧ bitOf (groupMask s p) lane = true ∧ fbit s (HP p) HP_CTL_DEGRADE_EN = false) ∧
    (∃ (p : Fin 4) (lane : Fin 16) (s : State), portSt s p = PORT_ACTIVE ∧ fbit s (HP p) HP_CTL_DEGRADE_EN = true ∧ ((List.finRange 16).filter fun l => decide (fget s (HP p) HP_LANECFG_SER_TH < (s.port p).ser[l])) = [lane] ∧ bitOf (groupMask s p) lane = true) ∧
    (∃ (p : Fin 4) (s : State), ((List.finRange 16).filter fun l => decide (fget s (HP p) HP_LANECFG_SER_TH < (s.port p).ser[l])) = []) ∧
    (∃ (p : Fin 4) (s : State), bitOf (fget s GLB GLB_CLKSTAT_LINK_LOCK) p = true) :=
  ⟨⟨0, 3, fset (HP 0) HP_STATUS_WIDTH 2 P, by decide +kernel⟩,
   ⟨0, 3, fset (HP 0) HP_CTL_DEGRADE_EN 0 P, by decide +kernel⟩,
   ⟨0, 2, upd 0 (fun x => { x with ser := x.ser.set 2 2000 }) P, by decide +kernel⟩,
   ⟨0, upd 0 (fun x => { x with ser := x.ser.set 2 20 }) P, by decide +kernel⟩,
   ⟨0, fset GLB GLB_CLKSTAT_LINK_LOCK 1 P, by decide +kernel⟩⟩

theorem wit_LinkTrainingAdvances :
    (∃ (p : Fin 4) (good : BitVec 16) (s : State), portSt s p = PORT_DETECT ∧ (bestGroup good.toNat 0 16 (s.port p).widthTry).isSome) ∧
    (∃ (p : Fin 4) (good : BitVec 16) (g w : Nat) (s : State), portSt s p = PORT_EQUALISE ∧ bestGroup ((s.port p).trnGood &&& good).toNat 0 16 (s.port p).widthTry = some (g, w)) ∧
    (∃ (p : Fin 4) (f : Flit) (s : State), (portSt s p = PORT_ALIGN ∨ portSt s p = PORT_INIT ∨ portSt s p = PORT_RETRAIN) ∧ (trainOkFlit s p f = false ∨ recBad s p (recOf f) = true)) ∧
    (∃ (p : Fin 4) (f : Flit) (lock : BitVec 16) (g w : Nat) (s : State), portSt s p = PORT_ALIGN ∧ trainOkFlit s p f = true ∧ recBad s p (recOf f) = false ∧ (recOf f).tstate = 3 ∧ bestGroup (Nat.land (Nat.land (s.port p).trnGood.toNat lock.toNat) (0xFFFF - (if (recOf f).twidth.toNat = fget s (HP p) HP_STATUS_WIDTH then peerBad s p (recOf f) else 0))) 0 16 (min (s.port p).widthTry (recOf f).twidth.toNat) = some (g, w) ∧ (recOf f).twidth.toNat = w ∧ groupGood (recOf f).lgood.toNat 0 (lanesOf w) = true) ∧
    (∃ (p : Fin 4) (f : Flit) (s : State), portSt s p = PORT_INIT ∧ trainOkFlit s p f = true ∧ recBad s p (recOf f) = false ∧ (recOf f).tstate = 4 ∧ recAgrees s p (recOf f) = true ∧ 7 ≤ (s.port p).initSeen ∧ 8 ≤ (s.port p).initSent ∧ (s.port p).lossless = false ∧ flushOn s = false) ∧
    (∃ (p : Fin 4) (f : Flit) (pass : BitVec 16) (s : State), portSt s p = PORT_RETRAIN ∧ trainOkFlit s p f = true ∧ recBad s p (recOf f) = false ∧ (s.port p).rtPhase = .test ∧ ((recOf f).tstate = 3 ∨ (recOf f).tstate = 6) ∧ (s.port p).newFail = 0 ∧ (s.port p).upgrade = false ∧ Nat.land (groupMask s p) (0xFFFF - pass.toNat) = 0) ∧
    (∃ (p : Fin 4) (f : Flit) (s : State), portSt s p = PORT_RETRAIN ∧ trainOkFlit s p f = true ∧ recBad s p (recOf f) = false ∧ (s.port p).rtPhase = .init ∧ (recOf f).tstate = 4 ∧ recAgrees s p (recOf f) = true ∧ 7 ≤ (s.port p).initSeen ∧ 8 ≤ (s.port p).initSent ∧ (s.port p).lossless = true ∧ (recOf f).nextrx = oldestSeq (s.port p) ∧ flushOn s = false ∧ ((s.port p).toQuiet = false ∨ (s.port p).replay ≠ [])) ∧
    (∃ (p : Fin 4) (f : Flit) (s : State), portSt s p = PORT_ACTIVE ∧ trainOkFlit s p f = true ∧ recBad s p (recOf f) = false ∧ (s.port p).trainOk = false) ∧
    (∃ (p : Fin 4) (f : Flit) (s : State), portSt s p = PORT_ACTIVE ∧ trainOkFlit s p f = true ∧ recBad s p (recOf f) = false ∧ (s.port p).trainOk = true) :=
  ⟨⟨0, 0xFFFF, ps 0 PORT_DETECT M, by decide +kernel⟩,
   ⟨0, 0x00FF, 0, 1, upd 0 (fun x => { x with trnGood := 0xFFFF }) (ps 0 PORT_EQUALISE M), by decide +kernel⟩,
   ⟨0, flit 0 0 15 0 [], ps 0 PORT_INIT M, by decide +kernel⟩,
   ⟨0, tfl (trec 3), 0xFFFF, 0, 2, T PORT_ALIGN, by decide +kernel⟩,
   ⟨0, tfl (trec 4), upd 0 (fun x => { x with initSeen := 7 }) (T PORT_INIT), by decide +kernel⟩,
   ⟨0, tfl (trec 3), 0xFFFF, T PORT_RETRAIN, by decide +kernel⟩,
   ⟨0, tfl { trec 4 with tepoch := 0, lossless := true, nextrx := 1 }, upd 0 (fun x => { x with initSeen := 7, rtPhase := .init, lossless := true, nextFseq := 2, replay := [⟨1, 0, 15, []⟩] }) (T PORT_RETRAIN), by decide +kernel⟩,
   ⟨0, tfl (trec 4), T PORT_ACTIVE, by decide +kernel⟩,
   ⟨0, tfl (trec 4), upd 0 (fun x => { x with trainOk := true }) (T PORT_ACTIVE), by decide +kernel⟩⟩

theorem wit_FlitsReceived :
    (∃ (p : Fin 4) (f : Flit) (s : State), portSt s p = PORT_ACTIVE ∧ flushOn s = false ∧ flitOk s p f 1 = false) ∧
    (∃ (p : Fin 4) (f : Flit) (s ls : State) (a : RxAcc), portSt s p = PORT_ACTIVE ∧ flitOk s p f 1 = true ∧ linkFields p f (nakSeen p f (fecCount p f s)) = some ls ∧ (f.lreq = 1 → fbit s (HP p) HP_CTL_DEGRADE_EN = true) ∧ f.fseq = (ls.port p).expect ∧ a = (flitMsgSlots f).foldl (rxSlot f.rply) ⟨(ls.port p).part, (ls.port p).partNeed, [], [], [], 0, 0, 0, false⟩ ∧ a.bad = false ∧ (ls.port p).rxX.sent + a.xs + begunX a.part a.need ≤ 16384 + (ls.port p).rxX.released ∧ (ls.port p).rxT.sent + a.ts ≤ 32 + (ls.port p).rxT.released ∧ (ls.port p).rxC.sent + a.cs ≤ 64 + (ls.port p).rxC.released ∧ (f.padfrom.toNat = 15 ∨ a.need = 0)) ∧
    (∃ (p : Fin 4) (f : Flit) (s ls : State), portSt s p = PORT_ACTIVE ∧ flitOk s p f 1 = true ∧ linkFields p f (nakSeen p f (fecCount p f s)) = some ls ∧ (f.lreq = 1 → fbit s (HP p) HP_CTL_DEGRADE_EN = true) ∧ f.fseq ≠ (ls.port p).expect ∧ ((ls.port p).expect - f.fseq).toNat ≤ 512) ∧
    (∃ (p : Fin 4) (f : Flit) (s ls : State), portSt s p = PORT_ACTIVE ∧ flitOk s p f 1 = true ∧ linkFields p f (nakSeen p f (fecCount p f s)) = some ls ∧ f.lreq ≠ 1 ∧ f.lreq ≠ 2 ∧ 512 < ((ls.port p).expect - f.fseq).toNat) ∧
    (∃ (p : Fin 4) (f : Flit) (s : State), portSt s p = PORT_ACTIVE ∧ flitOk s p f 1 = true ∧ linkFields p f (nakSeen p f (fecCount p f s)) = none) ∧
    (∃ (p : Fin 4) (f : Flit) (s : State), portSt s p = PORT_ACTIVE ∧ flitOk s p f 2 = true ∧ f.ackk = 0 ∧ f.lreq ≠ 1 ∧ f.lreq ≠ 2) ∧
    (∃ (p : Fin 4) (f : Flit) (s : State), portSt s p = PORT_ACTIVE ∧ flitOk s p f 2 = false) ∧
    (∃ (p : Fin 4) (s : State), portSt s p ≠ PORT_ACTIVE ∧ fecStream s p = true) ∧
    (∃ (p : Fin 4) (slot : Slot) (s : State), portSt s p = PORT_ACTIVE ∧ slotBits slot 127 124 = 8) :=
  ⟨⟨0, flit 2 0 15 0 [], P, by decide +kernel⟩,
   ⟨0, flit 1 1 1 0 [0x70000000000000000000000000000000], P, ((linkFields 0 (flit 1 1 1 0 [0x70000000000000000000000000000000]) (nakSeen 0 (flit 1 1 1 0 [0x70000000000000000000000000000000]) (fecCount 0 (flit 1 1 1 0 [0x70000000000000000000000000000000]) P))).getD P), (flitMsgSlots (flit 1 1 1 0 [0x70000000000000000000000000000000])).foldl (rxSlot false) ⟨[], 0, [], [], [], 0, 0, 0, false⟩, by decide +kernel, by decide +kernel, by decide +kernel, by decide +kernel, by decide +kernel, rfl, by decide +kernel, by decide +kernel, by decide +kernel, by decide +kernel, by decide +kernel⟩,
   ⟨0, flit 1 0 0 4000 [], P, ((linkFields 0 (flit 1 0 0 4000 []) (nakSeen 0 (flit 1 0 0 4000 []) (fecCount 0 (flit 1 0 0 4000 []) P))).getD P), by decide +kernel⟩,
   ⟨0, flit 1 0 0 2 [], P, ((linkFields 0 (flit 1 0 0 2 []) (nakSeen 0 (flit 1 0 0 2 []) (fecCount 0 (flit 1 0 0 2 []) P))).getD P), by decide +kernel⟩,
   ⟨0, nakFlit, P, by decide +kernel⟩,
   ⟨0, flit 2 0 0 0 [], P, by decide +kernel⟩,
   ⟨0, flit 1 0 0 0 [], P, by decide +kernel⟩,
   ⟨0, ps 0 PORT_INIT M, by decide +kernel⟩,
   ⟨0, 0x80000000000000000000000000000000, upd 0 (fun x => { x with timeQ := [(0x80000000000000000000000000000000, false, 0)] }) P, by decide +kernel⟩⟩

theorem wit_PinsClocksAndSupplies :
    (∃ (s : State), domState s 1 = 2) ∧
    (∃ (s : State), s.pwr.vinOn = true) ∧
    (∃ (c : Fin 16) (s : State), (fget s GLB GLB_CLKSTAT_CH_LOCK).testBit c = true) ∧
    (∃ (s : State), s.pwr.wk = .matcher ∧ domState s 0 = 2) ∧
    (∃ (s : State), s.pwr.vinOn = false) ∧
    (∃ (s : State), s.pwr.vinOn = true) ∧
    (∃ (s : State), s.pwr.mode = .run ∧ s.led.pf ≠ .done) ∧
    (∃ (s : State), s.pwr.lowPower = true) ∧
    (∃ (s : State), s.pwr.retEn = true) ∧
    (∃ (s : State), s.pwr.wake = some .regulator ∧ s.pwr.ramps = [] ∧ s.pwr.rampQ = [] ∧ domState s 0 ≠ 3) :=
  ⟨⟨M, by decide +kernel⟩,
   ⟨M, by decide +kernel⟩,
   ⟨3, fset GLB GLB_CLKSTAT_CH_LOCK 0xFFFF M, by decide +kernel⟩,
   ⟨pw (fun x => { x with wk := .matcher }) M, by decide +kernel⟩,
   ⟨pw (fun x => { x with vinOn := false, mode := .off }) M, by decide +kernel⟩,
   ⟨M, by decide +kernel⟩,
   ⟨M, by decide +kernel⟩,
   ⟨pw (fun x => { x with lowPower := true, mode := .banked }) M, by decide +kernel⟩,
   ⟨pw (fun x => { x with retEn := true, mode := .banked }) M, by decide +kernel⟩,
   ⟨pw (fun x => { x with wake := some .regulator, mode := .banked }) M, by decide +kernel⟩⟩

theorem wit_GatesRampAndFault :
    (∃ (d : Fin 23) (x : Ramp) (s : State), (s.pwr.ramps.find? fun x => x.dom = d.val) = some x ∧ x.stage < 4 ∧ dtimeRuns s = true) ∧
    (∃ (d : Fin 23) (x : Ramp) (s : State), (s.pwr.ramps.find? fun x => x.dom = d.val) = some x ∧ 4 ≤ x.stage ∧ s.pwr.mode = .run ∧ s.pwr.rampQ = []) ∧
    (∃ (d : Fin 23) (x : GatePick) (u s : State), x.cause = .trip ∧ s = actAll x.errs u ∧ d.val < 3 ∧ domState s d = 2) ∧
    (∃ (d : Nat) (s : State), verbReady s = true ∧ 3 ≤ d ∧ d < 23 ∧ domState s d = 3 ∧ bitOf (fget s PWR PWR_GATE_FAULT_FAULT) d = true ∧ s.pwr.ramps = [] ∧ s.pwr.rampQ = []) ∧
    (∃ (d : Nat) (s : State), verbReady s = true ∧ d < 3) :=
  ⟨⟨5, ⟨5, 2, 80, 0⟩, pw (fun x => { x with ramps := [⟨5, 2, 80, 0⟩, ⟨6, 1, 80, 0⟩] }) D, by decide +kernel⟩,
   ⟨5, ⟨5, 4, 80, 0⟩, pw (fun x => { x with ramps := [⟨5, 4, 80, 0⟩] }) D, by decide +kernel⟩,
   ⟨1, ⟨.trip, []⟩, D, D, by decide +kernel, rfl, by decide +kernel, by decide +kernel⟩,
   ⟨5, fset PWR PWR_GATE_FAULT_FAULT 0x20 (fset PWR (PWR_DOMSTAT_STATE.nth 5) 3 D), by decide +kernel⟩,
   ⟨2, D, by decide +kernel⟩⟩

theorem wit_ResumeFromBanked :
    (∃ (s : State), s.pwr.wake = some .image ∧ s.pwr.ramps = [] ∧ s.pwr.rampQ = [] ∧ s.pwr.warmAfter = none) ∧
    (∃ (c : RstCause) (s : State), s.pwr.wake = some .image ∧ s.pwr.ramps = [] ∧ s.pwr.rampQ = [] ∧ s.pwr.warmAfter = some c ∧ s.con.evq.length < 64) ∧
    (∃ (s : State), s.pwr.wake = some .image ∧ s.pwr.ramps = [] ∧ s.pwr.rampQ = []) ∧
    (∃ (s : State), verbReady s = true ∧ s.pwr.wake = some .awaiting ∧ s.pwr.pll = true ∧ aonStart s = 4 ∧ membersWait s ∧ settled s) ∧
    (∃ (s : State), verbReady s = true ∧ s.pwr.wake ≠ some .awaiting ∧ settled s) ∧
    (∃ (s : State), verbReady s = true ∧ s.pwr.pll = false) ∧
    (∃ (s : State), verbReady s = true ∧ s.pwr.pll = false) ∧
    (∃ (s : State), verbReady s = true ∧ s.pwr.pll = true) :=
  ⟨⟨pw (fun x => { x with wake := some .image }) B, by decide +kernel⟩,
   ⟨.pin, pw (fun x => { x with wake := some .image, warmAfter := some .pin }) B, by decide +kernel⟩,
   ⟨pw (fun x => { x with wake := some .image }) B, by decide +kernel⟩,
   ⟨fset AON AON_STATUS_START 4 (pw (fun x => { x with wake := some .awaiting, pll := true, halted := true }) (chs 4 (ps 0 PORT_DOWN D))), by unfold settled membersWait; decide +kernel⟩,
   ⟨pw (fun x => { x with halted := true }) D, by unfold settled; decide +kernel⟩,
   ⟨D, by decide +kernel⟩,
   ⟨D, by decide +kernel⟩,
   ⟨pw (fun x => { x with pll := true }) D, by decide +kernel⟩⟩

theorem wit_PowerFailFlushRuns :
    (∃ (n : Nat) (s : State), s.pwr.vinOn = true ∧ 200 ≤ n ∧ s.pwr.mode = .run ∧ s.pwr.entry = none ∧ s.led.pf = .none) ∧
    (∃ (n : Nat), n ≤ 50) ∧
    (∃ (s : State), s.led.pf = .flush false) ∧
    (∃ (h : Bool) (s : State), s.led.pf = .flush h) ∧
    (∃ (s : State), s.led.pf = .done ∧ s.pwr.pfailN = false ∧ s.pwr.mode = .run) ∧
    (∃ (s : State), s.pwr.retWait = true ∧ s.led.pf = .done ∧ s.pwr.mode = .run ∧ s.pwr.resetN = true) ∧
    (∃ (s : State), s.pwr.retWait = true ∧ s.led.pf = .none ∧ s.pwr.wake = some .settled ∧ s.pwr.ramps = [] ∧ s.pwr.rampQ = []) :=
  ⟨⟨200, D, by decide +kernel⟩,
   ⟨50, by decide +kernel⟩,
   ⟨ld (fun x => { x with pf := .flush false }) D, by decide +kernel⟩,
   ⟨false, ld (fun x => { x with pf := .flush false }) D, by decide +kernel⟩,
   ⟨pw (fun x => { x with pfailN := false }) (ld (fun x => { x with pf := .done }) D), by decide +kernel⟩,
   ⟨pw (fun x => { x with retWait := true }) (ld (fun x => { x with pf := .done }) D), by decide +kernel⟩,
   ⟨pw (fun x => { x with retWait := true, wake := some .settled }) D, by decide +kernel⟩⟩

theorem wit_FlushLeavesNothingDirty :
    (∃ (s t : State), s.led.pf = .flush false ∧ exec .pfailFlushDone s = .next t) ∧
    (∃ (s t : State) (b : Bool) (t0 : Nat), s.pwr.entry = some (b, t0, .drain) ∧ drained s = true ∧ exec .drainComplete s = .next t) :=
  ⟨⟨ld (fun x => { x with pf := .flush false }) D, _, by decide +kernel, rfl⟩,
   ⟨pw (fun x => { x with entry := some (true, 5, .drain) }) P, _, true, 5, by decide +kernel, by decide +kernel, rfl⟩⟩

theorem wit_SleepEntrySteps :
    (∃ (s : State), verbReady s = true ∧ sleepBad s false = none) ∧
    (∃ (s : State), verbReady s = true ∧ sleepBad s true = none) ∧
    (∃ (s : State) (e : OutLn), verbReady s = true ∧ sleepBad s true = some e) ∧
    (∃ (s : State) (b : Bool) (t0 : Nat), s.pwr.entry = some (b, t0, .drain) ∧ drained s = true) ∧
    (∃ (s : State) (b : Bool) (t0 : Nat), s.pwr.entry = some (b, t0, .work) ∧ s.pwr.mode = .run ∧ s.pwr.wakeAfter = none) ∧
    (∃ (s : State) (b : Bool) (t0 : Nat), s.pwr.entry = some (b, t0, .drain) ∧ drained s = false ∧ settled s) ∧
    (∃ (s : State) (t0 : Nat), s.pwr.entry = some (false, t0, .park) ∧ s.pwr.mode = .run ∧ portsQuiet s = true ∧ s.pwr.wakeAfter = none ∧ (∀ c, (s.phy c).active = none ∧ (s.chan c).replay = none)) ∧
    (∃ (s : State) (t0 : Nat), s.pwr.entry = some (true, t0, .park) ∧ s.pwr.mode = .run ∧ portsQuiet s = true ∧ (∀ c, (s.phy c).active = none ∧ (s.chan c).replay = none)) ∧
    (∃ (s : State) (b : Bool) (t0 e e3 : Nat), Canon s ∧ s.pwr.entry = some (b, t0, .window) ∧ s.pwr.edgeAt8 = some (e, e3) ∧ s.pwr.wakeN = true) ∧
    (∃ (s : State) (b : Bool) (t0 : Nat), s.pwr.entry = some (b, t0, .retain) ∧ s.pwr.wakeAfter = none) :=
  ⟨⟨D, by decide +kernel⟩,
   ⟨fset PWR PWR_WAKESRC_WAKEN 1 D, by decide +kernel⟩,
   ⟨fset PWR PWR_WAKESRC_TIMER 0 (fset PWR PWR_WAKESRC_PORT 0 (fset PWR PWR_WAKESRC_WAKEN 0 D)), er490 "nowake" [], by decide +kernel⟩,
   ⟨pw (fun x => { x with entry := some (true, 5, .drain) }) P, true, 5, by decide +kernel⟩,
   ⟨pw (fun x => { x with entry := some (true, 5, .work), halted := true }) D, true, 5, by decide +kernel⟩,
   ⟨pw (fun x => { x with entry := some (true, 5, .drain), halted := true }) D, true, 5, by unfold settled; decide +kernel⟩,
   ⟨pw (fun x => { x with entry := some (false, 0, .park) }) (ps 0 PORT_QUIET D), 0, by decide +kernel⟩,
   ⟨pw (fun x => { x with entry := some (true, 0, .park) }) (ps 0 PORT_QUIET D), 0, by decide +kernel⟩,
   ⟨pw (fun x => { x with entry := some (true, 0, .window), edgeAt8 := some (80, 800) }) (ps 0 PORT_QUIET D), true, 0, 80, 800, ⟨by decide +kernel, by decide +kernel, by decide +kernel, by decide +kernel, by decide +kernel, by decide +kernel, by decide +kernel⟩, by decide +kernel, by decide +kernel, by decide +kernel⟩,
   ⟨pw (fun x => { x with entry := some (true, 0, .retain), mode := .banked }) D, true, 0, by decide +kernel⟩⟩

theorem wit_WakeSourcesWake :
    (∃ (n : Nat) (s : State), 2000 ≤ n ∧ fbit s PWR PWR_WAKESRC_WAKEN = true ∧ s.pwr.mode = .banked ∧ s.pwr.entry = none ∧ s.pwr.edgeAt8 = none ∧ s.pwr.wake = none) ∧
    (∃ (n : Nat) (s : State), 2000 ≤ n ∧ fbit s PWR PWR_WAKESRC_WAKEN = true ∧ s.pwr.mode = .doze ∧ s.pwr.entry = none ∧ s.pwr.edgeAt8 = none ∧ membersWait s) ∧
    (∃ (n : Nat), n ≤ 200) ∧
    (∃ (n e e3 : Nat) (s : State), 2000 ≤ n ∧ fbit s PWR PWR_WAKESRC_WAKEN = true ∧ s.pwr.edgeAt8 = some (e, e3) ∧ e ≤ s.d8) ∧
    (∃ (n : Nat) (b : Bool) (t0 : Nat) (s : State), 2000 ≤ n ∧ fbit s PWR PWR_WAKESRC_WAKEN = true ∧ s.pwr.edgeAt8 = none ∧ s.pwr.mode = .run ∧ s.pwr.entry = some (b, t0, .work)) ∧
    (∃ (a : BitVec 7) (s : State), s.pwr.vinOn = true ∧ wkOwner s ≠ .nobody ∧ a.toNat = fget s AON AON_WAKE_ADDR ∧ fbit s PWR PWR_WAKESRC_PORT = true ∧ s.pwr.mode = .banked ∧ s.pwr.entry = none ∧ s.pwr.wake = none) ∧
    (∃ (a : BitVec 7) (s : State), s.pwr.vinOn = true ∧ (a.toNat ≠ fget s AON AON_WAKE_ADDR ∨ wkOwner s = .nobody)) ∧
    (∃ (p : Fin 4) (s : State), portSt s p = PORT_QUIET ∧ bitOf (fget s PWR PWR_WAKESRC_LINK) p = true ∧ s.pwr.mode = .doze ∧ s.pwr.entry = none ∧ membersWait s) ∧
    (∃ (s : State), s.pwr.mode = .banked ∧ s.pwr.entry = none ∧ s.pwr.wake = none ∧ fbit s PWR PWR_WAKESRC_TIMER = true) ∧
    (∃ (s : State), verbReady s = true ∧ s.pwr.mode = .doze ∧ membersWait s) ∧
    (∃ (s : State), verbReady s = true ∧ s.pwr.mode ≠ .doze) :=
  ⟨⟨2000, fset PWR PWR_WAKESRC_WAKEN 1 B, by decide +kernel⟩,
   ⟨2000, fset PWR PWR_WAKESRC_WAKEN 1 Z, by unfold membersWait; decide +kernel⟩,
   ⟨200, by decide +kernel⟩,
   ⟨2000, 80, 80000, fset PWR PWR_WAKESRC_WAKEN 1 (pw (fun x => { x with entry := some (true, 0, .window), edgeAt8 := some (80, 80000) }) { D with d8 := 160 }), by decide +kernel⟩,
   ⟨2000, true, 5, fset PWR PWR_WAKESRC_WAKEN 1 (pw (fun x => { x with entry := some (true, 5, .work), halted := true }) D), by decide +kernel⟩,
   ⟨0x2a, fset PWR PWR_WAKESRC_PORT 1 (fset AON AON_WAKE_ADDR 0x2a B), by decide +kernel⟩,
   ⟨0x2b, fset AON AON_WAKE_ADDR 0x2a D, by decide +kernel⟩,
   ⟨0, fset PWR PWR_WAKESRC_LINK 1 Z, by unfold membersWait; decide +kernel⟩,
   ⟨fset AON AON_TIMER_EDGES 100 (fset PWR PWR_WAKESRC_TIMER 1 B), by decide +kernel⟩,
   ⟨Z, by unfold membersWait; decide +kernel⟩,
   ⟨D, by decide +kernel⟩⟩

theorem wit_WarmResetsRun :
    (∃ (n : Nat) (s : State), 1000 ≤ n ∧ s.pwr.resetN = true ∧ s.pwr.vinOn = true ∧ s.pwr.mode = .run ∧ s.pwr.dozeExit = none ∧ s.pwr.entry = none ∧ s.led.pf = .none ∧ s.pwr.pll = true) ∧
    (∃ (n : Nat), n ≤ 100) ∧
    (∃ (s : State), s.pwr.resetN = false ∧ s.pwr.mode = .run ∧ s.pwr.warm = .held .pin ∧ (∀ e ∈ s.streams, e.2.waiting = []) ∧ s.caravans = []) ∧
    (∃ (s : State), s.pwr.resetN = true) ∧
    (∃ (s : State), fbit s GLB GLB_WDOG_CTL_EN = true ∧ s.pwr.mode = .run ∧ s.pwr.entry = none ∧ s.led.pf = .none ∧ s.pwr.resetN = true ∧ s.pwr.pll = true) ∧
    (∃ (s : State), fbit s GLB GLB_WDOG_CTL_EN = false) ∧
    (∃ (s : State), blockOn s GLB = true ∧ s.guard = none) ∧
    (∃ (s : State), s.pwr.pll = true ∧ s.pwr.mode = .run ∧ s.pwr.entry = none ∧ s.led.pf = .none ∧ s.pwr.resetN = true) ∧
    (∃ (s : State), s.pwr.pll = false) :=
  ⟨⟨1000, pw (fun x => { x with pll := true }) D, by decide +kernel⟩,
   ⟨100, by decide +kernel⟩,
   ⟨pw (fun x => { x with resetN := false, warm := .held .pin, halted := true }) (chs 4 D), by decide +kernel⟩,
   ⟨D, by decide +kernel⟩,
   ⟨fset GLB GLB_WDOG_CTL_EN 1 (pw (fun x => { x with pll := true }) D), by decide +kernel⟩,
   ⟨D, by decide +kernel⟩,
   ⟨D, by decide +kernel⟩,
   ⟨pw (fun x => { x with pll := true }) D, by decide +kernel⟩,
   ⟨D, by decide +kernel⟩⟩

theorem wit_ResetVerbsAnswer :
    (∃ (s : State), verbReady s = true) ∧
    (∃ (s : State), verbReady s = true) ∧
    (∃ (p : Fin 4) (s : State), verbReady s = true ∧ domState s (19 + p) = 2 ∧ settled s) ∧
    (∃ (p : Fin 4) (s : State), verbReady s = true ∧ domState s (19 + p) ≠ 2) ∧
    (∃ (x : ChPick) (c : Fin 16) (u s : State), verbReady u = true ∧ x.ch = c ∧ s = actAll x.errs u ∧ inMap s c = true ∧ replaying s = false ∧ (chState s c = 0 ∨ chState s c = 6 ∨ chState s c = 8) ∧ settled s) ∧
    (∃ (x : ChPick) (c : Fin 16) (u s : State), verbReady u = true ∧ x.ch = c ∧ s = actAll x.errs u ∧ inMap s c = false) ∧
    (∃ (s : State), s.pwr.retWait = false) :=
  ⟨⟨D, by decide +kernel⟩,
   ⟨D, by decide +kernel⟩,
   ⟨0, pw (fun x => { x with halted := true }) D, by unfold settled; decide +kernel⟩,
   ⟨0, fset PWR (PWR_DOMSTAT_STATE.nth 19) 0 D, by decide +kernel⟩,
   ⟨⟨0, [], .clean⟩, 0, pw (fun x => { x with halted := true }) (chs 6 D), pw (fun x => { x with halted := true }) (chs 6 D), by decide +kernel, by decide +kernel, rfl, by decide +kernel, by decide +kernel, by decide +kernel, by unfold settled; decide +kernel⟩,
   ⟨⟨5, [], .clean⟩, 5, D, D, by decide +kernel, by decide +kernel, rfl, by decide +kernel⟩,
   ⟨D, by decide +kernel⟩⟩

theorem wit_ReplayAndRestore :
    (∃ (c : Fin 16) (s : State), replayReady s c = true ∧ s.pwr.warm = .replay ∧ (s.ring c).entries = [] ∧ settled s ∧ (∀ k, k ≠ c → (s.chan k).replayDue = false ∨ (s.chan k).lost = true)) ∧
    (∃ (c : Fin 16) (s : State), replayReady s c = true ∧ (s.ring c).entries = [] ∧ settled s ∧ (s.pwr.warm ≠ .replay ∨ (∃ k, k ≠ c ∧ (s.chan k).replayDue = true ∧ (s.chan k).lost = false))) ∧
    (∃ (c : Fin 16) (e : JEntry) (p : Place) (s : State), replayReady s c = true ∧ settled s ∧ (s.ring c).entries = [e] ∧ e.st = .rslt ∧ e.opc = .wr ∧ e.recorded = true ∧ (acceptedIn (s.strm e.port e.stream) e.seq = true ∨ e.orphan ≠ none) ∧ probeLine s (e.target.toNat / 128) = none ∧ placeOf s (e.target.toNat / 128) = some p ∧ p.twin = false ∧ chanUp s p.ch = true) ∧
    (∃ (c : Fin 16) (e : JEntry) (s : State), replayReady s c = true ∧ settled s ∧ (s.ring c).entries = [e] ∧ (e.st = .pend ∨ e.st = .rslt) ∧ e.orphan = none ∧ acceptedIn (s.strm e.port e.stream) e.seq = false ∧ (∀ p ∈ s.que.plans, p.ring = c → p.entry = (s.ring c).head % 4096)) ∧
    (∃ (c : Fin 16) (s : State), replayReady s c = false) ∧
    (∃ (c : Fin 16) (s : State), (s.chan c).restoring = true ∧ (s.phy c).trn = none ∧ chState s c = 5 ∧ s.pwr.mode = .run ∧ twinUp s (partnerOf c) = false) ∧
    (∃ (c : Fin 16) (s : State), (s.chan c).restoring = true ∧ (s.phy c).trn = none ∧ chState s c = 5 ∧ s.pwr.mode = .run ∧ twinUp s (partnerOf c) = true ∧ 0 < twinE s) ∧
    (∃ (c : Fin 16) (s : State), (s.chan c).restoring = false) ∧
    (∃ (c : Fin 16) (x : CopyPick) (u s : State), x.ch = c ∧ (u.chan c).resync = true ∧ chanRuns u c = true ∧ twinUp u (partnerOf c) = true ∧ twinBusy u (partnerOf c) = false ∧ Memory.wf u.dram ∧ s = resyncReads c x.reads u ∧ (s.chan c).resync = true ∧ twinUp s (partnerOf c) = true) ∧
    (∃ (x : CopyPick) (s : State), (s.chan x.ch).resync = false) :=
  ⟨⟨3, updChan 3 (fun x => { x with replayDue := true }) (pw (fun x => { x with warm := .replay }) P), by unfold settled; decide +kernel⟩,
   ⟨3, updChan 8 (fun x => { x with replayDue := true }) (updChan 3 (fun x => { x with replayDue := true }) (pw (fun x => { x with warm := .replay }) P)), by unfold settled; decide +kernel⟩,
   ⟨0, { E with st := .rslt, recorded := true }, { ch := 0, lam := 5, twin := false }, updChan 0 (fun x => { x with replayDue := true }) (updRing 0 (fun r => { r with entries := [{ E with st := .rslt, recorded := true }] }) D), by unfold settled; decide +kernel⟩,
   ⟨0, { E with port := 1, stream := 0 }, updChan 0 (fun x => { x with replayDue := true }) (ring0 [{ E with port := 1, stream := 0 }] D), by unfold settled; decide +kernel⟩,
   ⟨0, D, by decide +kernel⟩,
   ⟨0, updChan 8 (fun x => { x with lost := true }) (updChan 0 (fun x => { x with restoring := true, lost := true }) (fset (CH 0) CH_STATUS_STATE 5 (fset (CH 8) CH_STATUS_STATE 6 D))), by decide +kernel⟩,
   ⟨0, fset GLB GLB_MAP_TWIN_EIGHTHS 2 (updChan 0 (fun x => { x with restoring := true, lost := true }) (fset (CH 0) CH_STATUS_STATE 5 D)), by decide +kernel⟩,
   ⟨0, D, by decide +kernel⟩,
   ⟨8, ⟨8, []⟩, storeLine 0 (12582912 + 5) 33 false (fset GLB GLB_MAP_TWIN_EIGHTHS 2 (updChan 8 (fun x => { x with resync := true }) D)), resyncReads 8 [] (storeLine 0 (12582912 + 5) 33 false (fset GLB GLB_MAP_TWIN_EIGHTHS 2 (updChan 8 (fun x => { x with resync := true }) D))), by decide +kernel, by decide +kernel, by decide +kernel, by decide +kernel, by decide +kernel, by decide +kernel, rfl, by decide +kernel, by decide +kernel⟩,
   ⟨⟨0, []⟩, D, by decide +kernel⟩⟩

theorem wit_LedgerJudgesAndHolds :
    (∃ (s : State), dtimeRuns s = true ∧ 8 * (s.led.winAt + 10240) ≤ s.d8) ∧
    (∃ (s : State), dtimeRuns s = true) ∧
    (∃ (s : State), s.led.due = true ∧ dtimeRuns s = true ∧ fbit s LED LED_CTL_THR_EN = true ∧ s.led.bLast < s.led.eLast ∧ fget s LED LED_STATUS_LEVEL < 9) ∧
    (∃ (s : State), s.led.due = true ∧ dtimeRuns s = true ∧ fbit s LED LED_CTL_THR_EN = true ∧ s.led.eLast * 16 ≤ s.led.bLast * 15 ∧ max 1 (fget s LED LED_CAP_HOLD) ≤ s.led.below + 1 ∧ fget s LED LED_STATUS_LEVEL ≠ 0) ∧
    (∃ (s : State), s.led.due = true ∧ dtimeRuns s = true ∧ fbit s LED LED_CTL_THR_EN = true ∧ s.led.eLast * 16 ≤ s.led.bLast * 15 ∧ s.led.below + 1 < max 1 (fget s LED LED_CAP_HOLD)) ∧
    (∃ (s : State), s.led.due = true ∧ dtimeRuns s = true ∧ fbit s LED LED_CTL_THR_EN = false ∧ fget s LED LED_STATUS_LEVEL = 0 ∧ fbit s LED LED_CTL_PLAN_EN = false) ∧
    (∃ (s : State), s.led.due = false) ∧
    (∃ (uj us : Nat) (s : State), verbReady s = true ∧ uj < 2 ^ 24 ∧ us < 2 ^ 16 ∧ mapLoaded s = true ∧ fbit s WAY WAY_STATUS_COMMITTED = true ∧ (wtMax s : Int) ≤ nHold s uj us ∧ dirtyNeed s ≤ min (nHold s uj us - wtMax s).toNat 2097152) ∧
    (∃ (uj us : Nat) (s : State), verbReady s = true ∧ uj < 2 ^ 24 ∧ us < 2 ^ 16 ∧ mapLoaded s = false) ∧
    (∃ (s : State), consoleOn s = true ∧ blockOn s LED = true ∧ mapLoaded s = false) ∧
    (∃ (s : State), consoleOn s = false) :=
  ⟨⟨{ D with d8 := 100000 }, by decide +kernel⟩,
   ⟨D, by decide +kernel⟩,
   ⟨fset LED LED_CTL_THR_EN 1 (ld (fun x => { x with due := true, eLast := 9, bLast := 3 }) D), by decide +kernel⟩,
   ⟨fset LED LED_STATUS_LEVEL 3 (fset LED LED_CTL_THR_EN 1 (ld (fun x => { x with due := true, eLast := 1, bLast := 300, below := 20 }) D)), by decide +kernel⟩,
   ⟨fset LED LED_CAP_HOLD 3 (fset LED LED_CTL_THR_EN 1 (ld (fun x => { x with due := true, eLast := 1, bLast := 300 }) D)), by decide +kernel⟩,
   ⟨fset LED LED_CTL_PLAN_EN 0 (fset LED LED_CTL_THR_EN 0 (ld (fun x => { x with due := true, eLast := 1, bLast := 300 }) D)), by decide +kernel⟩,
   ⟨D, by decide +kernel⟩,
   ⟨16000000, 60000, fset WAY WAY_STATUS_COMMITTED 1 D, by decide +kernel⟩,
   ⟨5, 6, R, by decide +kernel⟩,
   ⟨R, by decide +kernel⟩,
   ⟨pw (fun x => { x with mode := .off }) D, by decide +kernel⟩⟩

theorem wit_PeriodsAndGatesRun :
    (∃ (s : State), s.pwr.mode = .run) ∧
    (∃ (s : State), s.pwr.mode ≠ .run) ∧
    (∃ (s : State), s.pwr.mode = .run) ∧
    (∃ (s : State), s.pwr.mode ≠ .run) ∧
    (∃ (s : State) (h : HorizonHold), s.horizon = some h ∧ dtimeRuns s = true ∧ s.pwr.mode ≠ .doze ∧ (∃ c : Fin 16, inMap s c = true ∧ inService s c = true) ∧ h.us < 2 ^ 16) ∧
    (∃ (s : State), (s.horizon = none ∨ s.pwr.mode = .doze ∨ (∀ c : Fin 16, inMap s c = true → inService s c = false))) :=
  ⟨⟨D, by decide +kernel⟩,
   ⟨Z, by decide +kernel⟩,
   ⟨D, by decide +kernel⟩,
   ⟨Z, by decide +kernel⟩,
   ⟨{ D with horizon := some { us := 5, due := 77 } }, { us := 5, due := 77 }, by decide +kernel⟩,
   ⟨D, by decide +kernel⟩⟩

theorem wit_RegisterVerbsAnswer :
    (∃ (s : State), verbReady s = true ∧ blockOn s TXN = true) ∧
    (∃ (n : Nat) (s : State), verbReady s = true ∧ (n = 0 ∨ 32 < n)) ∧
    (∃ (a n : Nat) (s : State), verbReady s = true ∧ 1 ≤ n ∧ n ≤ 32 ∧ a % 4 ≠ 0) ∧
    (∃ (v : Nat) (s : State), verbReady s = true ∧ blockOn s TXN = true ∧ settled s ∧ s.guard = none ∧ v < 2 ^ 32) ∧
    (∃ (v : Nat) (s : State), verbReady s = true ∧ settled s ∧ 2 ^ 32 ≤ v) ∧
    (∃ (m v : Nat) (s : State), verbReady s = true ∧ blockOn s GLB = true ∧ s.guard = none ∧ m < 65536 ∧ v < 65536) ∧
    (∃ (v : Nat) (s : State), verbReady s = true ∧ blockOn s LED = true ∧ settled s ∧ v < 2 ^ 24) ∧
    (∃ (i : Nat) (s : State), verbReady s = true ∧ blockOn s LED = true ∧ s.guard = none ∧ i < 0x0E) ∧
    (∃ (i v : Nat) (s : State), verbReady s = true ∧ blockOn s LED = true ∧ s.guard = none ∧ settled s ∧ i < 0x0E ∧ v < 2 ^ 20) ∧
    (∃ (s : State), verbReady s = true ∧ settled s) :=
  ⟨⟨D, by decide +kernel⟩,
   ⟨33, D, by decide +kernel⟩,
   ⟨0x30001, 1, D, by decide +kernel⟩,
   ⟨0xffff, R, by unfold settled; decide +kernel⟩,
   ⟨0x100000000, R, by unfold settled; decide +kernel⟩,
   ⟨0x0f0f, 0x5555, D, by decide +kernel⟩,
   ⟨0xabcdef, R, by unfold settled; decide +kernel⟩,
   ⟨5, D, by decide +kernel⟩,
   ⟨5, 0x12345, R, by unfold settled; decide +kernel⟩,
   ⟨R, by unfold settled; decide +kernel⟩⟩

theorem wit_NamesAndViewsAnswer :
    (∃ (s : State), verbReady s = true) ∧
    (∃ (s : State), verbReady s = true) ∧
    (∃ (s : State), verbReady s = true ∧ blockOn s TXN = true) ∧
    (∃ (w : String) (s : State), verbReady s = true ∧ resolve w = none) ∧
    (∃ (v : Nat) (s : State), verbReady s = true ∧ blockOn s LED = true ∧ settled s ∧ s.guard = none ∧ v < 2 ^ LED_CAP_CAP.width) ∧
    (∃ (s : State), verbReady s = true ∧ blockOn s TXN = true) ∧
    (∃ (s : State), verbReady s = true) ∧
    (∃ (m : Nat) (s : State), verbReady s = true ∧ blockOn s LED = true ∧ m < 256 ∧ tblGet (fun _ => 0) s.led.acct m / 1000 < 2 ^ 64) ∧
    (∃ (m : Nat) (s : State), verbReady s = true ∧ blockOn s LED = true ∧ 256 ≤ m) :=
  ⟨⟨D, by decide +kernel⟩,
   ⟨D, by decide +kernel⟩,
   ⟨D, by decide +kernel⟩,
   ⟨"no.such", R, by decide +kernel⟩,
   ⟨300, R, by unfold settled; decide +kernel⟩,
   ⟨D, by decide +kernel⟩,
   ⟨D, by decide +kernel⟩,
   ⟨5, ld (fun x => { x with acct := [(5, 123456)], lastMan := [(5, 20480)] }) D, by decide +kernel⟩,
   ⟨256, D, by decide +kernel⟩⟩

theorem wit_LogAndModeVerbs :
    (∃ (n : Nat) (s : State), verbReady s = true ∧ 1 ≤ n ∧ n ≤ 64) ∧
    (∃ (n : Nat) (s : State), verbReady s = true ∧ (n = 0 ∨ 64 < n)) ∧
    (∃ (s : State), verbReady s = true) ∧
    (∃ (on : Bool) (s : State), verbReady s = true ∧ blockOn s CON = true ∧ (strictMode s = false ∨ on = false) ∧ s.guard = none ∧ s.con.after = .nothing) ∧
    (∃ (s : State), verbReady s = true ∧ strictMode s = true) ∧
    (∃ (s : State), verbReady s = true ∧ blockOn s CON = true ∧ s.guard = none ∧ s.con.after = .nothing) :=
  ⟨⟨2, cn (fun x => { x with log := [{ seq := 0 }, { seq := 1 }, { seq := 2 }] }) D, by decide +kernel⟩,
   ⟨65, D, by decide +kernel⟩,
   ⟨cn (fun x => { x with log := [{ seq := 0 }] }) D, by decide +kernel⟩,
   ⟨false, D, by decide +kernel⟩,
   ⟨fset CON CON_CTL_MODE 1 D, by decide +kernel⟩,
   ⟨D, by decide +kernel⟩⟩

theorem wit_ConsoleInputAssembled :
    (∃ (b : Byte) (s : State), consoleOn s = true ∧ asmBusy s = false ∧ s.con.fifo = [] ∧ s.con.skip = false ∧ s.con.buf.tooLong = false ∧ s.con.buf.chars.length < 200 ∧ 32 ≤ b.toNat ∧ b.toNat < 127) ∧
    (∃ (s : State), consoleOn s = true ∧ asmBusy s = false ∧ s.con.fifo = [] ∧ s.con.buf.tun = false ∧ s.con.buf.uart = true ∧ blank s.con.buf = false) ∧
    (∃ (s : State), consoleOn s = true ∧ 1024 ≤ fifoFill s false) ∧
    (∃ (s : State), consoleOn s = true ∧ fifoFill s false < 1024 ∧ asmBusy s = true) ∧
    (∃ (s : State), consoleOn s = true ∧ asmBusy s = false ∧ s.con.fifo = []) ∧
    (∃ (p : Fin 4) (m : Slot) (s : State), consoleOn s = true ∧ asmBusy s = true ∧ portSt s p = PORT_ACTIVE ∧ fbit s (HP p) HP_STATUS_TUN_ACT = true ∧ slotBits m 127 124 = 9 ∧ 0 < slotBits m 123 120 ∧ fifoFill s true + slotBits m 123 120 ≤ 1024 ∧ (s.port p).conQ.contains m = true) ∧
    (∃ (p : Fin 4) (s : State), consoleOn s = true ∧ portSt s p ≠ PORT_ACTIVE ∧ s.con.fifo = []) :=
  ⟨⟨65, D, by decide +kernel⟩,
   ⟨cn (fun x => { x with buf := { chars := [{ byte := 65 }], uart := true } }) D, by decide +kernel⟩,
   ⟨cn (fun x => { x with ans := [okLn []], fifo := List.replicate 1024 { byte := 65 } }) R, by decide +kernel⟩,
   ⟨cn (fun x => { x with ans := [okLn []] }) D, by decide +kernel⟩,
   ⟨cn (fun x => { x with buf := { chars := [{ byte := 65 }], uart := true } }) D, by decide +kernel⟩,
   ⟨0, 0x92414200000000000000000000000000, fset (HP 0) HP_STATUS_TUN_ACT 1 (upd 0 (fun x => { x with conQ := [0x92414200000000000000000000000000] }) (cn (fun x => { x with ans := [okLn []] }) D)), by decide +kernel⟩,
   ⟨1, D, by decide +kernel⟩⟩

theorem wit_ConsoleLinesSent :
    (∃ (s : State) (e : OutLn), consoleOn s = true ∧ s.con.ans = [] ∧ sleepBusy s = false ∧ badLine s = some e) ∧
    (∃ (s : State), badLine s = none) ∧
    (∃ (s : State), consoleOn s = true ∧ s.con.ans ≠ [] ∧ (s.con.after = .nothing ∨ s.con.after = .baud) ∧ s.con.fifo = [] ∧ tunPort s = none) ∧
    (∃ (s : State), consoleOn s = true ∧ s.con.ans ≠ [] ∧ s.con.after = .warm ∧ tunPort s = none ∧ s.pwr.mode = .run ∧ s.pwr.dozeExit = none ∧ s.pwr.entry = none ∧ s.led.pf = .none ∧ s.pwr.resetN = true ∧ s.pwr.pll = true) ∧
    (∃ (s : State), consoleOn s = true ∧ s.con.ans ≠ [] ∧ s.con.after = .cold) ∧
    (∃ (s : State), s.con.ans = []) ∧
    (∃ (s : State) (t0 : Nat) (e : OutLn) (r : List (Nat × OutLn)), consoleOn s = true ∧ asmBusy s = false ∧ s.con.evq = (t0, e) :: r ∧ s.con.evLost = 0 ∧ e.head ≠ "reset" ∧ tunPort s = none) ∧
    (∃ (s : State), (s.con.evq = [] ∨ asmBusy s = true)) :=
  ⟨⟨cn (fun x => { x with line := some { tooLong := true } }) D, erLn 103 "line too long" [], by decide +kernel⟩,
   ⟨cn (fun x => { x with line := some { chars := [{ byte := 100 }, { byte := 105 }] } }) D, by decide +kernel⟩,
   ⟨cn (fun x => { x with ans := [okLn []] }) D, by decide +kernel⟩,
   ⟨pw (fun x => { x with pll := true }) (cn (fun x => { x with ans := [okLn []], after := .warm }) D), by decide +kernel⟩,
   ⟨cn (fun x => { x with ans := [okLn []], after := .cold }) D, by decide +kernel⟩,
   ⟨D, by decide +kernel⟩,
   ⟨cn (fun x => { x with evq := [(3, ⟨"x", []⟩), (4, ⟨"y", []⟩)] }) D, 3, ⟨"x", []⟩, [(4, ⟨"y", []⟩)], by decide +kernel⟩,
   ⟨D, by decide +kernel⟩⟩

theorem wit_GuardedAndMaskedWrites :
    (∃ (s : State), blockOn s LED = true ∧ s.guard = none) ∧
    (∃ (w : Word) (a t8 : Nat) (s : State), blockOn s LED = true ∧ s.guard = some (a, w, t8)) ∧
    (∃ (v : Word) (t8 : Nat) (s : State), blockOn s LED = true ∧ settled s ∧ s.guard = some (LED + LED_HOLD_HOLD_UJ.off, v, t8) ∧ s.d8 ≤ t8 + 256 * mgt8 s) ∧
    (∃ (v w : Word) (t8 : Nat) (s : State), consoleOn s = true ∧ settled s ∧ s.guard = some (LED + LED_HOLD_HOLD_UJ.off, v, t8) ∧ w ≠ ~~~v) ∧
    (∃ (a : Nat) (v : Word) (t8 : Nat) (s : State), s.guard = some (a, v, t8) ∧ dtimeRuns s = true) ∧
    (∃ (s : State), s.guard = none) ∧
    (∃ (s : State), blockOn s GLB = true ∧ s.guard = none) ∧
    (∃ (s : State), blockOn s LED = true) ∧
    (∃ (s : State), blockOn s TXN = true) :=
  ⟨⟨D, by decide +kernel⟩,
   ⟨6, LED + LED_HOLD_HOLD_UJ.off, 0, { D with guard := some (LED + LED_HOLD_HOLD_UJ.off, 6, 0) }, by decide +kernel⟩,
   ⟨5, 0, { R with guard := some (LED + LED_HOLD_HOLD_UJ.off, 5, 0) }, by unfold settled; decide +kernel⟩,
   ⟨5, 6, 0, { R with guard := some (LED + LED_HOLD_HOLD_UJ.off, 5, 0) }, by unfold settled; decide +kernel⟩,
   ⟨8, 5, 0, { D with guard := some (8, 5, 0) }, by decide +kernel⟩,
   ⟨D, by decide +kernel⟩,
   ⟨D, by decide +kernel⟩,
   ⟨rgSet (LED + LED_WIN_E_NJ.off) 77 (rgSet (LED + LED_WINMAX_E_NJ.off) 99 D), by decide +kernel⟩,
   ⟨rgSet (TXN + TXN_DUPSTAT_DUP_DONE.off) 0x70007 D, by decide +kernel⟩⟩

theorem wit_RegistersAndWindowsWritten :
    (∃ (s : State), blockOn s TXN = true ∧ settled s ∧ s.guard = none) ∧
    (∃ (s : State), blockOn s TXN = true ∧ settled s ∧ s.guard = none) ∧
    (∃ (a : Nat) (s : State), consoleOn s = true ∧ settled s ∧ s.guard = none ∧ blockOf a = none) ∧
    (∃ (s : State), blockOn s LED = true ∧ ixAt s LED < 0x0E) ∧
    (∃ (s : State), blockOn s LED = true ∧ settled s ∧ s.guard = none ∧ ixAt s LED < 0x0E) ∧
    (∃ (s : State), blockOn s LED = true ∧ settled s ∧ s.guard = none ∧ 0x0E ≤ ixAt s LED ∧ ixAt s LED < 0x20) :=
  ⟨⟨R, by unfold settled; decide +kernel⟩,
   ⟨R, by unfold settled; decide +kernel⟩,
   ⟨0x1004, R, by unfold settled; decide +kernel⟩,
   ⟨rgSet (LED + 0xFF0) 5 D, by decide +kernel⟩,
   ⟨rgSet (LED + 0xFF0) 5 R, by unfold settled; decide +kernel⟩,
   ⟨rgSet (LED + 0xFF0) 0x0e R, by unfold settled; decide +kernel⟩⟩

theorem wit_AonSnapshotAndProbe :
    (∃ (v : Word) (t8 : Nat) (r : List (Nat × Word × Nat)) (s : State), s.pwr.aonQ = (AON_WAKE_ADDR.off, v, t8) :: r ∧ 0x08 ≤ v.toNat % 128 ∧ v.toNat % 128 ≤ 0x77) ∧
    (∃ (v : Word) (t8 : Nat) (r : List (Nat × Word × Nat)) (s : State), s.pwr.aonQ = (AON_WAKE_ADDR.off, v, t8) :: r ∧ (¬(0x08 ≤ v.toNat % 128 ∧ v.toNat % 128 ≤ 0x77))) ∧
    (∃ (s : State), s.pwr.aonQ = []) ∧
    (∃ (s : State), verbReady s = true ∧ blockOn s SNP = true ∧ fbit s SNP SNP_STATUS_BUSY = false ∧ s.guard = none) ∧
    (∃ (s : State), verbReady s = true ∧ blockOn s SNP = true ∧ fbit s SNP SNP_STATUS_BUSY = true ∧ s.guard = none) ∧
    (∃ (s : State) (h : Shadow), consoleOn s = true ∧ s.shadow = some h ∧ s.con.wait ≠ some .snap) ∧
    (∃ (s : State) (h : Shadow), consoleOn s = true ∧ s.shadow = some h ∧ s.con.wait = some .snap) ∧
    (∃ (s : State), s.shadow = none) ∧
    (∃ (s : State), blockOn s TXN = true ∧ s.guard = none) :=
  ⟨⟨0x2a, 9, [(8, 0, 9)], pw (fun x => { x with aonQ := [(4, 0x2a, 9), (8, 0, 9)] }) D, by decide +kernel⟩,
   ⟨0x05, 9, [], pw (fun x => { x with aonQ := [(4, 0x05, 9)] }) D, by decide +kernel⟩,
   ⟨D, by decide +kernel⟩,
   ⟨D, by decide +kernel⟩,
   ⟨fset SNP SNP_STATUS_BUSY 1 D, by decide +kernel⟩,
   ⟨{ D with shadow := some { regs := [(0x10100, 3)], dtime := 5 } }, { regs := [(0x10100, 3)], dtime := 5 }, by decide +kernel⟩,
   ⟨cn (fun x => { x with wait := some .snap }) { D with shadow := some { regs := [(0x10100, 3)], dtime := 5 } }, { regs := [(0x10100, 3)], dtime := 5 }, by decide +kernel⟩,
   ⟨D, by decide +kernel⟩,
   ⟨D, by decide +kernel⟩⟩

theorem wit_RequestsRefused :
    (∃ (o : Opc) (p : Fin 4) (h : Hdr) (body : List Slot) (s : State) (x : StreamRec), intakeReady s p (reqOf o h body) ∧ settled s ∧ s.strm p h.stream = x ∧ x.frozen = true ∧ x.ue = false) ∧
    (∃ (o : Opc) (p : Fin 4) (h : Hdr) (body : List Slot) (s : State) (x : StreamRec), intakeReady s p (reqOf o h body) ∧ settled s ∧ s.strm p h.stream = x ∧ x.frozen = false ∧ h.seq ≠ x.n ∧ (h.seq - x.n).toNat < 32768) ∧
    (∃ (o : Opc) (p : Fin 4) (h : Hdr) (body : List Slot) (s : State) (x : StreamRec), intakeReady s p (reqOf o h body) ∧ settled s ∧ s.strm p h.stream = x ∧ x.frozen = false ∧ 32768 ≤ (h.seq - x.n).toNat ∧ (h.seq - x.n).toNat < 65504) ∧
    (∃ (o : Opc) (p : Fin 4) (h : Hdr) (body : List Slot) (s : State) (x : StreamRec) (w' : Nat), intakeReady s p (reqOf o h body) ∧ settled s ∧ s.strm p h.stream = x ∧ x.frozen = false ∧ h.seq = x.n ∧ stateWhy s = some w') ∧
    (∃ (o : Opc) (p : Fin 4) (h : Hdr) (body : List Slot) (s : State) (x : StreamRec) (res : Nat), intakeReady s p (reqOf o h body) ∧ settled s ∧ s.strm p h.stream = x ∧ o ≠ .sync ∧ x.frozen = false ∧ h.seq = x.n ∧ stateWhy s = none ∧ x.retryAt = none ∧ quotaRes s p (reqOf o h body) = some res) ∧
    (∃ (o : Opc) (p : Fin 4) (h : Hdr) (body : List Slot) (s : State) (x : StreamRec) (f : Nat × Nat), intakeReady s p (reqOf o h body) ∧ settled s ∧ s.strm p h.stream = x ∧ o ≠ .sync ∧ x.frozen = false ∧ h.seq = x.n ∧ stateWhy s = none ∧ x.retryAt = none ∧ quotaRes s p (reqOf o h body) = none ∧ stepFault s (reqOf o h body) = some f) :=
  ⟨⟨.wr, 0, Hq 3, body, Sx { n := 3, frozen := true } Q, { n := 3, frozen := true }, by unfold intakeReady settled; decide +kernel⟩,
   ⟨.rd, 0, Hq 3, [], Sx { n := 2 } Q, { n := 2 }, by unfold intakeReady settled; decide +kernel⟩,
   ⟨.sync, 0, Hq 2, [], Sx { n := 10000 } Q, { n := 10000 }, by unfold intakeReady settled; decide +kernel⟩,
   ⟨.add, 0, Hq 2, [], chs 2 (Sx { n := 2, k := 2 } Q), { n := 2, k := 2 }, 0, by unfold intakeReady settled; decide +kernel⟩,
   ⟨.rd, 0, { Hq 2 with man := 2 }, [], Sx { n := 2, k := 2 } Q, { n := 2, k := 2 }, 0, by unfold intakeReady settled; decide +kernel⟩,
   ⟨.rd, 0, { Hq 2 with arg := 0x1fffffffff }, [], Sx { n := 2, k := 2 } Q, { n := 2, k := 2 }, (1, 0), by unfold intakeReady settled; decide +kernel⟩⟩

theorem wit_RequestsEnterContests :
    (∃ (o : Opc) (p : Fin 4) (h : Hdr) (body : List Slot) (s : State) (x : StreamRec) (home : Fin 16), intakeReady s p (reqOf o h body) ∧ settled s ∧ s.strm p h.stream = x ∧ o ≠ .sync ∧ x.frozen = false ∧ h.seq = x.n ∧ stateWhy s = none ∧ x.retryAt = none ∧ x.resv = false ∧ quotaRes s p (reqOf o h body) = none ∧ stepFault s (reqOf o h body) = none ∧ reqHome s (reqOf o h body) = some home ∧ ringFull s home (reqWeight s (reqOf o h body)) = false ∧ rabFill (s.port p) ≤ 6144) ∧
    (∃ (p : Fin 4) (h : Hdr) (s : State) (x : StreamRec), intakeReady s p (reqOf .sync h []) ∧ settled s ∧ s.strm p h.stream = x ∧ x.frozen = false ∧ h.seq = x.n ∧ stateWhy s = none ∧ x.retryAt = none ∧ x.win.all (fun w => w.fin.isSome && w.seq != h.seq) = true) ∧
    (∃ (o : Opc) (p : Fin 4) (h : Hdr) (body : List Slot) (s : State), coreRuns s = true ∧ (s.port p).intake.contains (reqOf o h body) = true ∧ (o = .enq → 0 < enqBytes h ∧ enqBytes h ≤ 9216) ∧ ((s.strm p h.stream).busy = true ∨ (s.strm p h.stream).sync.isSome = true)) ∧
    (∃ (h : Hdr) (s : State), Canon s ∧ coreRuns s = true ∧ settled s ∧ (enqBytes h = 0 ∨ 9216 < enqBytes h)) ∧
    (∃ (s : State), coreRuns s = false) :=
  ⟨⟨.wr, 0, H, body, Q, {}, 0, by unfold intakeReady settled; decide +kernel⟩,
   ⟨0, H, Q, {}, by unfold intakeReady settled; decide +kernel⟩,
   ⟨.rd, 0, H, [], upd 0 (fun x => { x with intake := [reqOf .rd H []] }) (Sx { busy := true } Q), by decide +kernel⟩,
   ⟨{ H with arg := 0 }, Q, ⟨by decide +kernel, by decide +kernel, by decide +kernel, by decide +kernel, by decide +kernel, by decide +kernel, by decide +kernel⟩, by decide +kernel, by unfold settled; decide +kernel, by decide +kernel⟩,
   ⟨Z, by decide +kernel⟩⟩

theorem wit_ReissuesAnswered :
    (∃ (o : Opc) (p : Fin 4) (h : Hdr) (body : List Slot) (s : State) (x : StreamRec) (w : WinSlot), intakeReady s p (reqOf o h body) ∧ settled s ∧ s.strm p h.stream = x ∧ x.frozen = false ∧ 65504 ≤ (h.seq - x.n).toNat ∧ winSlot x h.seq = some w ∧ w.fp = fingerprint (reqOf o h body) ∧ w.fin = none) ∧
    (∃ (o : Opc) (p : Fin 4) (h : Hdr) (body : List Slot) (s : State) (x : StreamRec) (w : WinSlot) (f : Final), intakeReady s p (reqOf o h body) ∧ settled s ∧ s.strm p h.stream = x ∧ x.frozen = false ∧ 65504 ≤ (h.seq - x.n).toNat ∧ winSlot x h.seq = some w ∧ w.fp = fingerprint (reqOf o h body) ∧ w.fin = some f ∧ (o = .wr ∨ o = .wrp ∨ o = .add ∨ o = .enq ∨ o = .sync)) ∧
    (∃ (o : Opc) (p : Fin 4) (h : Hdr) (body : List Slot) (s : State) (x : StreamRec) (w : WinSlot), intakeReady s p (reqOf o h body) ∧ settled s ∧ s.strm p h.stream = x ∧ x.frozen = false ∧ 65504 ≤ (h.seq - x.n).toNat ∧ winSlot x h.seq = some w ∧ w.fp ≠ fingerprint (reqOf o h body)) :=
  ⟨⟨.wr, 0, H, body, Sx { n := 1, win := [{ seq := 0, fp := fingerprint (reqOf .wr H body), opc := .wr, tag := none }] } Q, { n := 1, win := [{ seq := 0, fp := fingerprint (reqOf .wr H body), opc := .wr, tag := none }] }, { seq := 0, fp := fingerprint (reqOf .wr H body), opc := .wr, tag := none }, by unfold intakeReady settled; decide +kernel⟩,
   ⟨.wr, 0, H, body, Sx { n := 1, win := [{ seq := 0, fp := fingerprint (reqOf .wr H body), opc := .wr, tag := none, fin := some {} }] } Q, { n := 1, win := [{ seq := 0, fp := fingerprint (reqOf .wr H body), opc := .wr, tag := none, fin := some {} }] }, { seq := 0, fp := fingerprint (reqOf .wr H body), opc := .wr, tag := none, fin := some {} }, {}, by unfold intakeReady settled; decide +kernel⟩,
   ⟨.wr, 0, H, body, Sx { n := 1, win := [{ seq := 0, fp := 3, opc := .wr, tag := none }] } Q, { n := 1, win := [{ seq := 0, fp := 3, opc := .wr, tag := none }] }, { seq := 0, fp := 3, opc := .wr, tag := none }, by unfold intakeReady settled; decide +kernel⟩⟩

theorem wit_ArbitersGrant :
    (∃ (ch : Fin 16) (c : Contestant) (pl : Place) (errs : List JournalErr) (u s : State), coreRuns u = true ∧ entering u = false ∧ s = actAll errs u ∧ settled s ∧ (s.arb (chArb ch)).contest = [c] ∧ c.at8 < s.d8 ∧ decided s (chArb ch) = false ∧ resvPick s (chArb ch) = none ∧ (s.arb (chArb (partnerOf ch))).contest = [] ∧ s.wreads = [] ∧ c.twin = false ∧ c.hit = false ∧ isLineOp c.req.opc = true ∧ placeOf s (reqLine c.req.hdr) = some pl ∧ bgFirst s ch = false ∧ verdict s (chArb ch) (bidOf s (chArb ch) (chArb ch) c) = .ok ∧ hasRoom s (chArb ch) (leftNow s (chArb ch)) (bidOf s (chArb ch) (chArb ch) c) = true) ∧
    (∃ (ch : Fin 16) (c : Contestant) (errs : List JournalErr) (u s : State), coreRuns u = true ∧ entering u = false ∧ s = actAll errs u ∧ settled s ∧ (s.arb (chArb ch)).contest = [c] ∧ c.at8 < s.d8 ∧ decided s (chArb ch) = false ∧ resvPick s (chArb ch) = none ∧ (s.arb (chArb (partnerOf ch))).contest = [] ∧ s.wreads = [] ∧ c.twin = false ∧ verdict s (chArb ch) (bidOf s (chArb ch) (chArb ch) c) = .throttle) ∧
    (∃ (c : Contestant) (pin : Bool) (f : Nat) (errs : List JournalErr) (u s : State), coreRuns u = true ∧ entering u = false ∧ s = actAll errs u ∧ settled s ∧ (s.arb 16).contest = [c] ∧ c.at8 < s.d8 ∧ decided s 16 = false ∧ resvPick s 16 = none ∧ s.wreads = [] ∧ c.hit = true ∧ c.req.opc = .rd ∧ probeLine s (reqLine c.req.hdr) = some (pin, f) ∧ verdict s 16 (bidOf s 16 16 c) = .ok ∧ hasRoom s 16 (leftNow s 16) (bidOf s 16 16 c) = true) ∧
    (∃ (s : State), (coreRuns s = false ∨ entering s = true)) ∧
    (∃ (ch : Fin 16) (c : Contestant) (pl : Place) (errs : List JournalErr) (u s : State), coreRuns u = true ∧ entering u = false ∧ s = actAll errs u ∧ settled s ∧ (leftNow s (chArb ch)).rate ≠ 0 ∧ decided s (chArb ch) = false ∧ resvPick s (chArb ch) = some c ∧ c.twin = false ∧ c.hit = false ∧ isLineOp c.req.opc = true ∧ placeOf s (reqLine c.req.hdr) = some pl) ∧
    (∃ (a : Fin 17) (errs : List JournalErr) (u s : State), coreRuns u = true ∧ entering u = false ∧ s = actAll errs u ∧ settled s ∧ ((leftNow s a).rate = 0 ∨ decided s a = true ∨ (resvPick s a = none ∧ readPick s a = none))) ∧
    (∃ (a : Fin 17) (errs : List JournalErr) (u s : State), coreRuns u = true ∧ entering u = false ∧ s = actAll errs u ∧ settled s ∧ decided s a = true) ∧
    (∃ (s : State), (coreRuns s = false ∨ entering s = true)) :=
  ⟨⟨0, con .wr, { ch := 0, lam := 5, twin := false }, [], G .wr, G .wr, by decide +kernel, by decide +kernel, rfl, by unfold settled; decide +kernel, by decide +kernel, by decide +kernel, by decide +kernel, by decide +kernel, by decide +kernel, by decide +kernel, by decide +kernel, by decide +kernel, by decide +kernel, by decide +kernel, by decide +kernel, by decide +kernel, by decide +kernel⟩,
   ⟨0, con .rd, [], setAcct 1 0 { count := 5000, emin := 0, thr := 0 } (G .rd), setAcct 1 0 { count := 5000, emin := 0, thr := 0 } (G .rd), by decide +kernel, by decide +kernel, rfl, by unfold settled; decide +kernel, by decide +kernel, by decide +kernel, by decide +kernel, by decide +kernel, by decide +kernel, by decide +kernel, by decide +kernel, by decide +kernel⟩,
   ⟨{ con .rd with hit := true }, false, 4, [], wy (fun x => { x with tier := [(4, { st := .resident, seg := 0, owner := some 1 })] }) (updArb 16 (fun x => { x with contest := [{ con .rd with hit := true }] }) { Sx { busy := true } Q with d8 := 800 }), wy (fun x => { x with tier := [(4, { st := .resident, seg := 0, owner := some 1 })] }) (updArb 16 (fun x => { x with contest := [{ con .rd with hit := true }] }) { Sx { busy := true } Q with d8 := 800 }), by decide +kernel, by decide +kernel, rfl, by unfold settled; decide +kernel, by decide +kernel, by decide +kernel, by decide +kernel, by decide +kernel, by decide +kernel, by decide +kernel, by decide +kernel, by decide +kernel, by decide +kernel, by decide +kernel⟩,
   ⟨Z, by decide +kernel⟩,
   ⟨0, { con .rd with resv := true }, { ch := 0, lam := 5, twin := false }, [], resvQ, resvQ, by decide +kernel, by decide +kernel, rfl, by unfold settled; decide +kernel, by decide +kernel, by decide +kernel, by decide +kernel, by decide +kernel, by decide +kernel, by decide +kernel, by decide +kernel⟩,
   ⟨0, [], Q, Q, by decide +kernel, by decide +kernel, rfl, by unfold settled; decide +kernel, by decide +kernel⟩,
   ⟨0, [], updArb 0 (fun x => { x with doneAt8 := some 0 }) Q, updArb 0 (fun x => { x with doneAt8 := some 0 }) Q, by decide +kernel, by decide +kernel, rfl, by unfold settled; decide +kernel, by decide +kernel⟩,
   ⟨Z, by decide +kernel⟩⟩

theorem wit_ChannelCommandsMove :
    (∃ (z : ChPick) (c : Fin 16) (x : Cmd) (ring : Fin 16) (slot : Nat) (e : JEntry) (u s : State), z.ch = c ∧ s = actAll z.errs u ∧ chanRuns s c = true ∧ settled s ∧ (s.chan c).inord = none ∧ (s.chan c).line.length < 64 ∧ (s.chan c).mergeQ = [] ∧ (s.chan c).intake = [x] ∧ (s.chan c).locks.contains x.line = false ∧ x.src = .req ring slot .write ∧ getEntry s ring slot = some e ∧ e.opc = .wr ∧ displaced s c x.line = false ∧ writeRoom s c x = true ∧ s.bist.dram[c] = none) ∧
    (∃ (z : ChPick) (c : Fin 16) (x : Cmd) (ring : Fin 16) (slot : Nat) (e : JEntry) (u s : State), z.ch = c ∧ s = actAll z.errs u ∧ chanRuns s c = true ∧ settled s ∧ (s.chan c).mergeQ = [] ∧ (s.chan c).intake = [x] ∧ (s.chan c).locks.contains x.line = false ∧ x.src = .req ring slot .write ∧ x.wr = true ∧ getEntry s ring slot = some e ∧ e.opc = .wr ∧ displaced s c x.line = true ∧ x.line < 2 ^ 30) ∧
    (∃ (z : ChPick) (c : Fin 16) (x : Cmd) (ring : Fin 16) (slot n : Nat) (u s : State), z.ch = c ∧ s = actAll z.errs u ∧ chanRuns s c = true ∧ settled s ∧ (s.chan c).inord = none ∧ (s.chan c).line.length < 64 ∧ (s.chan c).mergeQ = [] ∧ (s.chan c).intake = [x] ∧ (s.chan c).locks.contains x.line = false ∧ x.src = .req ring slot .read ∧ displaced s c x.line = false ∧ matchedWrite s c x.line = some n) ∧
    (∃ (z : ChPick) (u s : State), s = actAll z.errs u ∧ settled s ∧ (chanRuns s z.ch = false ∨ (((s.chan z.ch).inord.isSome = true ∨ 64 ≤ (s.chan z.ch).line.length) ∧ (∀ x ∈ (s.chan z.ch).mergeQ ++ (s.chan z.ch).intake, toCopy s z.ch x = false)))) ∧
    (∃ (c : Fin 16) (x : Cmd) (l : List Cmd) (errs : List JournalErr) (u s : State), s = (if errs = [] then u else settle (actAll errs u)) ∧ (s.chan c).line = x :: l ∧ (s.chan c).replay = none ∧ chanRuns s c = true ∧ rowFree s c = true ∧ rowOpen s c (bankOf s x.line).no = none ∧ raaOf s c (bankOf s x.line).no < fget s (CH c) CH_RAA_MMT) ∧
    (∃ (c : Fin 16) (x : Cmd) (l : List Cmd) (r : OpenRow) (errs : List JournalErr) (u s : State), s = (if errs = [] then u else settle (actAll errs u)) ∧ (s.chan c).line = x :: l ∧ (s.chan c).replay = none ∧ chanRuns s c = true ∧ rowFree s c = true ∧ rowOpen s c (bankOf s x.line).no = some r ∧ r.row ≠ (bankOf s x.line).row) ∧
    (∃ (c : Fin 16) (x : Cmd) (l : List Cmd) (r : OpenRow) (ring : Fin 16) (slot : Nat) (errs : List JournalErr) (u s : State), s = (if errs = [] then u else settle (actAll errs u)) ∧ (s.chan c).line = x :: l ∧ (s.chan c).replay = none ∧ chanRuns s c = true ∧ rowFree s c = true ∧ colFree s c = true ∧ rowOpen s c (bankOf s x.line).no = some r ∧ r.row = (bankOf s x.line).row ∧ x.wr = true ∧ x.src = .req ring slot .write ∧ x.line < 2 ^ 30) ∧
    (∃ (c : Fin 16) (f : Flight) (r : OpenRow) (p : Replay) (errs : List JournalErr) (u s : State), s = (if errs = [] then u else settle (actAll errs u)) ∧ (s.chan c).flight = [f] ∧ f.due = true ∧ (s.chan c).replay = some p ∧ chanRuns s c = true ∧ rowFree s c = true ∧ rowOpen s c (bankOf s f.cmd.line).no = some r ∧ r.row = (bankOf s f.cmd.line).row ∧ f.cmd.wr = false ∧ isBist f.cmd = false) ∧
    (∃ (c : Fin 16) (pos : Nat) (errs : List JournalErr) (u s : State), s = (if errs = [] then u else settle (actAll errs u)) ∧ ((issuable s c).length ≤ pos ∨ chanRuns s c = false ∨ rowFree s c = false)) :=
  ⟨⟨⟨0, [], .clean⟩, 0, cx 5 true (.req 0 0 .write), 0, 0, E, c0 (fun x => { x with intake := [cx 5 true (.req 0 0 .write)] }) A, c0 (fun x => { x with intake := [cx 5 true (.req 0 0 .write)] }) A, by decide +kernel, rfl, by decide +kernel, by unfold settled; decide +kernel, by decide +kernel, by decide +kernel, by decide +kernel, by decide +kernel, by decide +kernel, by decide +kernel, by decide +kernel, by decide +kernel, by decide +kernel, by decide +kernel, by decide +kernel⟩,
   ⟨⟨0, [], .clean⟩, 0, cx 0 true (.req 0 0 .write), 0, 0, E, bs (fun y => { y with dram := y.dram.set 0 (some { ph := .test 1 false, frames := [3] }) }) (c0 (fun x => { x with intake := [cx 0 true (.req 0 0 .write)] }) A), bs (fun y => { y with dram := y.dram.set 0 (some { ph := .test 1 false, frames := [3] }) }) (c0 (fun x => { x with intake := [cx 0 true (.req 0 0 .write)] }) A), by decide +kernel, rfl, by decide +kernel, by unfold settled; decide +kernel, by decide +kernel, by decide +kernel, by decide +kernel, by decide +kernel, by decide +kernel, by decide +kernel, by decide +kernel, by decide +kernel, by decide +kernel⟩,
   ⟨⟨0, [], .clean⟩, 0, cx 5 false (.req 0 0 .read), 0, 0, 4, c0 (fun x => { x with intake := [cx 5 false (.req 0 0 .read)], line := [{ cx 5 true .gone with sn := 4 }], sn := 4 }) A, c0 (fun x => { x with intake := [cx 5 false (.req 0 0 .read)], line := [{ cx 5 true .gone with sn := 4 }], sn := 4 }) A, by decide +kernel, rfl, by decide +kernel, by unfold settled; decide +kernel, by decide +kernel, by decide +kernel, by decide +kernel, by decide +kernel, by decide +kernel, by decide +kernel, by decide +kernel, by decide +kernel⟩,
   ⟨⟨5, [], .clean⟩, R, R, rfl, by unfold settled; decide +kernel, by decide +kernel⟩,
   ⟨0, cx 5 true .gone, [], [], c0 (fun x => { x with line := [cx 5 true .gone] }) D, c0 (fun x => { x with line := [cx 5 true .gone] }) D, rfl, by decide +kernel, by decide +kernel, by decide +kernel, by decide +kernel, by decide +kernel, by decide +kernel⟩,
   ⟨0, cx 5 true .gone, [], { row := 9 }, [], c0 (fun x => { x with line := [cx 5 true .gone], rows := [((bankOf D 5).no, { row := 9 })] }) D, c0 (fun x => { x with line := [cx 5 true .gone], rows := [((bankOf D 5).no, { row := 9 })] }) D, rfl, by decide +kernel, by decide +kernel, by decide +kernel, by decide +kernel, by decide +kernel, by decide +kernel⟩,
   ⟨0, cx 5 true (.req 0 0 .write), [], { row := (bankOf A 5).row }, 0, 0, [], c0 (fun x => { x with line := [cx 5 true (.req 0 0 .write)], rows := [((bankOf A 5).no, { row := (bankOf A 5).row })] }) A, c0 (fun x => { x with line := [cx 5 true (.req 0 0 .write)], rows := [((bankOf A 5).no, { row := (bankOf A 5).row })] }) A, rfl, by decide +kernel, by decide +kernel, by decide +kernel, by decide +kernel, by decide +kernel, by decide +kernel, by decide +kernel, by decide +kernel, by decide +kernel, by decide +kernel⟩,
   ⟨0, { cmd := cx 5 false (.req 0 0 .read), burst := true, due := true }, { row := (bankOf A 5).row }, ⟨5, 1⟩, [], c0 (fun x => { x with replay := some ⟨5, 1⟩, rows := [((bankOf A 5).no, { row := (bankOf A 5).row })], flight := [{ cmd := cx 5 false (.req 0 0 .read), burst := true, due := true }] }) (ring0 [Er] A), c0 (fun x => { x with replay := some ⟨5, 1⟩, rows := [((bankOf A 5).no, { row := (bankOf A 5).row })], flight := [{ cmd := cx 5 false (.req 0 0 .read), burst := true, due := true }] }) (ring0 [Er] A), rfl, by decide +kernel, by decide +kernel, by decide +kernel, by decide +kernel, by decide +kernel, by decide +kernel, by decide +kernel, by decide +kernel, by decide +kernel⟩,
   ⟨0, 0, [], D, D, rfl, by decide +kernel⟩⟩

theorem wit_AccessesComplete :
    (∃ (o : WayOp) (ring : Fin 16) (slot : Nat) (e : JEntry) (w : WinSlot) (errs : List JournalErr) (u s : State), s = actAll errs u ∧ u.pwr.mode = .run ∧ settled s ∧ s.wayOps = [o] ∧ o.wr = false ∧ o.asked = false ∧ o.src = .req ring slot .read ∧ getEntry s ring slot = some e ∧ e.recorded = false ∧ winSlot (s.strm e.port e.stream) e.seq = some w ∧ w.fin = none ∧ (s.strm e.port e.stream).sync = none) ∧
    (∃ (o : WayOp) (ring : Fin 16) (slot : Nat) (ph : ReqPh) (e : JEntry) (errs : List JournalErr) (u s : State), s = actAll errs u ∧ u.pwr.mode = .run ∧ settled s ∧ s.wayOps = [o] ∧ o.wr = true ∧ o.src = .req ring slot ph ∧ o.line < 16 ∧ getEntry s ring slot = some e ∧ e.st ≠ .lost ∧ e.opc = .wr) ∧
    (∃ (idx : Nat) (errs : List JournalErr) (u s : State), u.pwr.mode = .run ∧ s = actAll errs u ∧ settled s ∧ s.wayOps.length ≤ idx) ∧
    (∃ (c : Fin 16) (f : Flight) (ring : Fin 16) (slot : Nat) (e : JEntry) (w : WinSlot) (errs : List JournalErr) (u s : State), s = actAll errs u ∧ chanRuns s c = true ∧ settled s ∧ (s.chan c).lost = false ∧ (s.chan c).flight = [f] ∧ f.burst = true ∧ f.window = false ∧ f.cmd.src = .req ring slot .read ∧ f.cmd.psn = false ∧ f.cmd.sym = [] ∧ f.cmd.reread = false ∧ markOf s c (bankOf s f.cmd.line).rank = none ∧ getEntry s ring slot = some e ∧ e.recorded = false ∧ winSlot (s.strm e.port e.stream) e.seq = some w ∧ w.fin = none ∧ (s.strm e.port e.stream).sync = none) ∧
    (∃ (c : Fin 16) (errs : List JournalErr) (u s : State), s = actAll errs u ∧ settled s ∧ (s.chan c).flight = []) ∧
    (∃ (c : Fin 16) (f : Flight) (ring : Fin 16) (slot : Nat) (e : JEntry) (w : WinSlot) (errs : List JournalErr) (u s : State), s = actAll errs u ∧ chanRuns s c = true ∧ settled s ∧ (s.chan c).flight = [f] ∧ f.window = true ∧ f.due = false ∧ f.cmd.wr = true ∧ f.cmd.src = .req ring slot .write ∧ (s.chan c).inord = none ∧ (s.chan c).replay = none ∧ getEntry s ring slot = some e ∧ e.opc = .wr ∧ e.st = .rslt ∧ e.recorded = false ∧ e.twinLeft = false ∧ winSlot (s.strm e.port e.stream) e.seq = some w ∧ w.fin = none ∧ (s.strm e.port e.stream).sync = none) ∧
    (∃ (c : Fin 16) (f : Flight) (errs : List JournalErr) (u s : State), s = actAll errs u ∧ chanRuns s c = true ∧ settled s ∧ (s.chan c).flight = [f] ∧ f.window = true ∧ f.due = false ∧ f.cmd.wr = false ∧ (s.chan c).inord = none ∧ (s.chan c).replay = none) :=
  ⟨⟨{ src := .req 0 0 .read, frame := 4, line := 10 }, 0, 0, Er, { seq := 7, fp := 1, opc := .wr, tag := some 3 }, [], { wy (fun x => { x with tier := [(4, { st := .resident })] }) (ring0 [Er] A) with wayOps := [{ src := .req 0 0 .read, frame := 4, line := 10 }] }, { wy (fun x => { x with tier := [(4, { st := .resident })] }) (ring0 [Er] A) with wayOps := [{ src := .req 0 0 .read, frame := 4, line := 10 }] }, rfl, by decide +kernel, by unfold settled; decide +kernel, by decide +kernel, by decide +kernel, by decide +kernel, by decide +kernel, by decide +kernel, by decide +kernel, by decide +kernel, by decide +kernel, by decide +kernel⟩,
   ⟨{ src := .req 0 0 .write, frame := 4, line := 10, wr := true }, 0, 0, .write, E, [], { wy (fun x => { x with tier := [(4, { st := .resident, owner := some 1 })] }) (ring0 [E] A) with wayOps := [{ src := .req 0 0 .write, frame := 4, line := 10, wr := true }] }, { wy (fun x => { x with tier := [(4, { st := .resident, owner := some 1 })] }) (ring0 [E] A) with wayOps := [{ src := .req 0 0 .write, frame := 4, line := 10, wr := true }] }, rfl, by decide +kernel, by unfold settled; decide +kernel, by decide +kernel, by decide +kernel, by decide +kernel, by decide +kernel, by decide +kernel, by decide +kernel, by decide +kernel⟩,
   ⟨0, [], R, R, by decide +kernel, rfl, by unfold settled; decide +kernel, by decide +kernel⟩,
   ⟨0, { cmd := cx 5 false (.req 0 0 .read), window := false, burst := true }, 0, 0, Er, { seq := 7, fp := 1, opc := .wr, tag := some 3 }, [], c0 (fun x => { x with flight := [{ cmd := cx 5 false (.req 0 0 .read), window := false, burst := true }] }) (ring0 [Er] A), c0 (fun x => { x with flight := [{ cmd := cx 5 false (.req 0 0 .read), window := false, burst := true }] }) (ring0 [Er] A), rfl, by decide +kernel, by unfold settled; decide +kernel, by decide +kernel, by decide +kernel, by decide +kernel, by decide +kernel, by decide +kernel, by decide +kernel, by decide +kernel, by decide +kernel, by decide +kernel, by decide +kernel, by decide +kernel, by decide +kernel, by decide +kernel, by decide +kernel⟩,
   ⟨0, [], R, R, rfl, by unfold settled; decide +kernel, by decide +kernel⟩,
   ⟨0, { cmd := cx 5 true (.req 0 0 .write) }, 0, 0, { E with st := .rslt }, { seq := 7, fp := 1, opc := .wr, tag := some 3 }, [], c0 (fun x => { x with flight := [{ cmd := cx 5 true (.req 0 0 .write) }] }) (ring0 [{ E with st := .rslt }] A), c0 (fun x => { x with flight := [{ cmd := cx 5 true (.req 0 0 .write) }] }) (ring0 [{ E with st := .rslt }] A), rfl, by decide +kernel, by unfold settled; decide +kernel, by decide +kernel, by decide +kernel, by decide +kernel, by decide +kernel, by decide +kernel, by decide +kernel, by decide +kernel, by decide +kernel, by decide +kernel, by decide +kernel, by decide +kernel, by decide +kernel, by decide +kernel, by decide +kernel, by decide +kernel⟩,
   ⟨0, { cmd := cx 5 false (.req 0 0 .read), burst := true }, [], c0 (fun x => { x with flight := [{ cmd := cx 5 false (.req 0 0 .read), burst := true }] }) A, c0 (fun x => { x with flight := [{ cmd := cx 5 false (.req 0 0 .read), burst := true }] }) A, rfl, by decide +kernel, by unfold settled; decide +kernel, by decide +kernel, by decide +kernel, by decide +kernel, by decide +kernel, by decide +kernel, by decide +kernel⟩⟩

theorem wit_AlertsAndRefresh :
    (∃ (x : ChPick) (c : Fin 16) (u s : State), x.ch = c ∧ s = actAll x.errs u ∧ chanRuns s c = true ∧ settled s ∧ (s.phy c).active = none ∧ s.bist.phyRun[c] = none ∧ (s.chan c).replay = none ∧ ((s.chan c).flight.filter Flight.window) ≠ []) ∧
    (∃ (x : ChPick) (u s : State), s = actAll x.errs u ∧ settled s ∧ chanRuns s x.ch = false) ∧
    (∃ (c : Fin 16) (s : State), chanRuns s c = true ∧ (s.phy c).alertLow = true) ∧
    (∃ (c : Fin 16) (s : State), (chanRuns s c = false ∨ (s.phy c).alertLow = false)) ∧
    (∃ (x : ChPick) (c : Fin 16) (r : Replay) (u s : State), x.ch = c ∧ (u.chan c).replay = some r ∧ s = actAll x.errs (advanceToNs (r.since + 1500) u) ∧ settled s) ∧
    (∃ (x : ChPick) (s : State), (s.chan x.ch).replay = none) ∧
    (∃ (c : Fin 16) (r : Fin 2) (s : State), chanRuns s c = true ∧ r.val < geoRanks s ∧ (s.chan c).replay = none ∧ (s.phy c).active = none ∧ s.bist.phyRun[c] = none) ∧
    (∃ (c : Fin 16) (r : Fin 2) (s : State), chanRuns s c = true ∧ r.val < geoRanks s ∧ ((s.chan c).replay.isSome = true ∨ (s.phy c).active.isSome = true ∨ (s.bist.phyRun[c]).isSome = true) ∧ (s.chan c).refDebt[r] < 4) ∧
    (∃ (c : Fin 16) (r : Fin 2) (s : State), (chanRuns s c = false ∨ geoRanks s ≤ r.val)) ∧
    (∃ (c : Fin 16) (r0 r1 : List Mr4) (s : State), chanRuns s c = true ∧ (s.chan c).replay = none ∧ (s.phy c).active = none ∧ s.bist.phyRun[c] = none ∧ (∀ x ∈ r0, x = .cool) ∧ (∀ x ∈ r1, x = .cool)) ∧
    (∃ (c : Fin 16) (s : State), chanRuns s c = true ∧ (s.chan c).replay = none ∧ (s.phy c).active = none ∧ s.bist.phyRun[c] = none) ∧
    (∃ (c : Fin 16) (s : State), (chanRuns s c = false ∨ (s.chan c).replay.isSome = true ∨ (s.phy c).active.isSome = true ∨ (s.bist.phyRun[c]).isSome = true)) :=
  ⟨⟨⟨0, [], .clean⟩, 0, c0 (fun x => { x with flight := [{ cmd := cx 5 true (.req 0 0 .write) }], rows := [(3, {})] }) A, c0 (fun x => { x with flight := [{ cmd := cx 5 true (.req 0 0 .write) }], rows := [(3, {})] }) A, by decide +kernel, rfl, by decide +kernel, by unfold settled; decide +kernel, by decide +kernel, by decide +kernel, by decide +kernel, by decide +kernel⟩,
   ⟨⟨5, [], .clean⟩, R, R, rfl, by unfold settled; decide +kernel, by decide +kernel⟩,
   ⟨0, updPhy 0 (fun x => { x with alertLow := true }) D, by decide +kernel⟩,
   ⟨0, D, by decide +kernel⟩,
   ⟨⟨0, [], .clean⟩, 0, ⟨5, 1⟩, c0 (fun x => { x with replay := some ⟨5, 1⟩, flight := [{ cmd := cx 5 true (.req 0 0 .write) }] }) A, advanceToNs 1505 (c0 (fun x => { x with replay := some ⟨5, 1⟩, flight := [{ cmd := cx 5 true (.req 0 0 .write) }] }) A), by decide +kernel, by decide +kernel, rfl, by unfold settled; decide +kernel⟩,
   ⟨⟨0, [], .clean⟩, D, by decide +kernel⟩,
   ⟨0, 0, c0 (fun x => { x with rows := [(3, {}), (40, {})], refDebt := Vector.replicate 2 2, refAt8 := Vector.replicate 2 999 }) D, by decide +kernel⟩,
   ⟨0, 0, c0 (fun x => { x with replay := some ⟨5, 1⟩ }) D, by decide +kernel⟩,
   ⟨5, 0, D, by decide +kernel⟩,
   ⟨0, [.cool], [], D, by decide +kernel⟩,
   ⟨0, D, by decide +kernel⟩,
   ⟨5, D, by decide +kernel⟩⟩

theorem wit_ChannelWindowsEnd :
    (∃ (c : Fin 16) (s : State), dtimeRuns s = true ∧ (s.chan c).actWinEnd ≠ 0) ∧
    (∃ (c : Fin 16) (s : State), dtimeRuns s = true ∧ (s.chan c).markWinEnd ≠ 0) ∧
    (∃ (c : Fin 16) (bank : Nat) (r : OpenRow) (s : State), rowOpen s c bank = some r ∧ chanRuns s c = true ∧ fbit s (CH c) CH_CTL_PAGE = true ∧ (s.chan c).replay = none ∧ (s.phy c).active = none) ∧
    (∃ (c : Fin 16) (bank : Nat) (s : State), rowOpen s c bank = none) ∧
    (∃ (c : Fin 16) (r : Fin 2) (d : Nat) (s : State), chanRuns s c = true ∧ r.val < geoRanks s ∧ fget s (CH c) CH_PD_IDLE ≠ 0 ∧ (s.chan c).intake = [] ∧ (s.chan c).mergeQ = [] ∧ (s.chan c).line = [] ∧ (s.chan c).flight = [] ∧ (s.chan c).pd[r] = false ∧ (s.chan c).replay = none ∧ (s.phy c).active = none ∧ s.bist.phyRun[c] = none ∧ rfmBanks s c r = [] ∧ d = firstCycle8 s ((s.chan c).rankUsed8[r] + chCk8 s c (fget s (CH c) CH_PD_IDLE)) ∧ d + ck8 s c (fget s (CH c) CH_TIM3_TXP + fget s (CH c) CH_TIM3_TPD) < (s.chan c).refAt8[r] ∧ d + ck8 s c (fget s (CH c) CH_TIM3_TXP + fget s (CH c) CH_TIM3_TPD) < ((s.chan c).mr4At + pollNs s c) * 8 ∧ pauseSoon s c r (d + ck8 s c (fget s (CH c) CH_TIM3_TXP + fget s (CH c) CH_TIM3_TPD)) = false ∧ scrubSoon s c r (d + ck8 s c (fget s (CH c) CH_TIM3_TXP + fget s (CH c) CH_TIM3_TPD)) = false) ∧
    (∃ (c : Fin 16) (r : Fin 2) (s : State), (chanRuns s c = false ∨ fget s (CH c) CH_PD_IDLE = 0 ∨ (s.chan c).pd[r] = true ∨ (s.bist.phyRun[c]).isSome = true)) ∧
    (∃ (s : State), dtimeRuns s = true) :=
  ⟨⟨0, c0 (fun x => { x with actWinEnd := 3, actLimit := [(1, 2), (3, 4)], actT1 := [1], trk := [(0, [{}])] }) (fset (CH 0) CH_ROWSTAT_LEVEL 3 D), by decide +kernel⟩,
   ⟨0, c0 (fun x => { x with markWinEnd := 3000 }) (setDevWord 0 0 5 0x00070003 D), by decide +kernel⟩,
   ⟨0, 7, { row := 3, used8 := 9 }, c0 (fun x => { x with rows := [(7, { row := 3, used8 := 9 })] }) (fset (CH 0) CH_CTL_PAGE 1 D), by decide +kernel⟩,
   ⟨0, 7, D, by decide +kernel⟩,
   ⟨0, 0, 8000, c0 (fun x => { x with refAt8 := Vector.replicate 2 99999999, mr4At := 10 }) (fset (CH 0) CH_PD_IDLE 9 { D with d8 := 8000 }), by decide +kernel⟩,
   ⟨5, 0, D, by decide +kernel⟩,
   ⟨c0 (fun x => { x with ueMs := 3, ueAt := 2 }) D, by decide +kernel⟩⟩

theorem wit_BackgroundWorkDone :
    (∃ (c : Fin 16) (r : Fin 2) (dev : Nat) (s : State), verbReady s = true ∧ inMap s c = true ∧ inService s c = true ∧ r.val < geoRanks s ∧ dev < geoDevs s ∧ markOf s c r = none) ∧
    (∃ (c : Fin 16) (s : State), verbReady s = true ∧ (inMap s c = false ∨ inService s c = false)) ∧
    (∃ (c : Fin 16) (r : Fin 2) (q : List (Fin 2)) (lam : Nat) (s : State), (s.chan c).spareQ = r :: q ∧ lamOf s r (fget s (CH c) CH_SPAREPTR_PTR + spareOut s c) = some lam ∧ fget s (CH c) CH_SPAREPTR_PTR + spareOut s c < rankLines s ∧ (s.chan c).spareLeft ≠ 0 ∧ bgRoom s c .background = true ∧ ((s.chan c).intake.any fun x => x.src == .spare) = false ∧ displaced s c lam = false) ∧
    (∃ (z : ChPick) (c : Fin 16) (x : Cmd) (r : Fin 2) (q : List (Fin 2)) (u s : State), z.ch = c ∧ s = actAll z.errs u ∧ settled s ∧ chanRuns s c = true ∧ (s.chan c).inord = none ∧ (s.chan c).line.length < 64 ∧ (s.chan c).intake = [] ∧ (s.chan c).mergeQ = [x] ∧ x.src = .spare ∧ x.wr = true ∧ writeRoom s c x = true ∧ displaced s c x.line = false ∧ s.bist.dram[c] = none ∧ (s.chan c).spareQ = r :: q ∧ fget s (CH c) CH_SPAREPTR_PTR + 1 < rankLines s) ∧
    (∃ (c : Fin 16) (s : State), ((s.chan c).spareQ = [] ∨ chanRuns s c = false)) ∧
    (∃ (c : Fin 16) (b : Int) (p : Nat) (s : State), p = fget s (CH c) CH_SCRUB_POS ∧ fbit s (CH c) CH_ECCCFG_SCRUB_EN = true ∧ allowed s 2 = true ∧ bgRoom s c .background = true ∧ displaced s c p = false ∧ payBucket s c (s.chan c).bkScr 1 = some b) ∧
    (∃ (c : Fin 16) (f : Flight) (errs : List JournalErr) (u s : State), s = actAll errs u ∧ settled s ∧ chanRuns s c = true ∧ (s.chan c).lost = false ∧ (s.chan c).flight = [f] ∧ f.burst = true ∧ f.window = false ∧ f.cmd.src = .scrub ∧ f.cmd.sym = [] ∧ f.cmd.reread = false ∧ f.cmd.psn = false ∧ markOf s c (bankOf s f.cmd.line).rank = none) ∧
    (∃ (c : Fin 16) (s : State), chanRuns s c = false) ∧
    (∃ (c : Fin 16) (idx : Nat) (r : BgReq) (s u : State), (s.chan c).bg[idx]? = some r ∧ bgRoom s c r.cmd.slot = true ∧ bgOffered s c r.cmd = true ∧ bgPay s c r.cls = some u ∧ (isBist r.cmd = false ∨ Memory.wf s.dram)) ∧
    (∃ (c : Fin 16) (idx : Nat) (s : State), ((s.chan c).bg.length ≤ idx ∨ chanRuns s c = false ∨ windowRoom s c = false)) :=
  ⟨⟨0, 0, 5, D, by decide +kernel⟩,
   ⟨3, D, by decide +kernel⟩,
   ⟨0, 0, [1], 0, c0 (fun x => { x with spareQ := [0, 1], spareLeft := 9 }) M, by decide +kernel⟩,
   ⟨⟨0, [], .clean⟩, 0, { cx 0 true .spare with data := 5 }, 0, [1], c0 (fun x => { x with spareQ := [0, 1], mergeQ := [{ cx 0 true .spare with data := 5 }], locks := [0] }) M, c0 (fun x => { x with spareQ := [0, 1], mergeQ := [{ cx 0 true .spare with data := 5 }], locks := [0] }) M, by decide +kernel, rfl, by unfold settled; decide +kernel, by decide +kernel, by decide +kernel, by decide +kernel, by decide +kernel, by decide +kernel, by decide +kernel, by decide +kernel, by decide +kernel, by decide +kernel, by decide +kernel, by decide +kernel, by decide +kernel⟩,
   ⟨0, R, by decide +kernel⟩,
   ⟨0, 16, 0, fset (CH 0) CH_ECCCFG_SCRUB_EN 1 (c0 (fun x => { x with bkScr := 32 }) M), by decide +kernel⟩,
   ⟨0, { cmd := cx 5 false .scrub, window := false, burst := true }, [], c0 (fun x => { x with flight := [{ cmd := cx 5 false .scrub, window := false, burst := true }], locks := [5] }) D, c0 (fun x => { x with flight := [{ cmd := cx 5 false .scrub, window := false, burst := true }], locks := [5] }) D, rfl, by unfold settled; decide +kernel, by decide +kernel, by decide +kernel, by decide +kernel, by decide +kernel, by decide +kernel, by decide +kernel, by decide +kernel, by decide +kernel, by decide +kernel, by decide +kernel⟩,
   ⟨5, R, by decide +kernel⟩,
   ⟨0, 0, ⟨.mig, cx 9 false (.fill false 4 3)⟩, fillP, (bgPay fillP 0 .mig).getD fillP, by decide +kernel⟩,
   ⟨0, 0, D, by decide +kernel⟩⟩

theorem wit_PausesAndRelock :
    (∃ (c : Fin 16) (s : State), chanRuns s c = true ∧ flushOn s = false ∧ fbit s (PHY c) PHY_CTL_PROOF_EN = true ∧ (s.phy c).due = none ∧ (s.phy c).active = none) ∧
    (∃ (c : Fin 16) (s : State), (chanRuns s c = false ∨ flushOn s = true ∨ fbit s (PHY c) PHY_CTL_PROOF_EN = false ∨ (s.phy c).due.isSome = true ∨ (s.phy c).active.isSome = true)) ∧
    (∃ (c : Fin 16) (s : State), chanRuns s c = true ∧ (s.phy c).active = none ∧ (s.phy c).stopped = true ∧ (s.chan c).flight.any Flight.window = false ∧ (s.chan c).replay = none ∧ s.bist.phyRun[c] = none ∧ entering s = false ∧ flushOn s = false) ∧
    (∃ (c : Fin 16) (t0 : Nat) (s : State), chanRuns s c = true ∧ entering s = false ∧ flushOn s = false ∧ (s.phy c).active = none ∧ (s.phy c).stopped = false ∧ (s.phy c).due = some t0 ∧ (s.phy c).mustRun = false ∧ allowed s 0 = false ∧ s.ns ≤ t0 + intNs s c) ∧
    (∃ (c : Fin 16) (s : State), (chanRuns s c = false ∨ entering s = true ∨ flushOn s = true ∨ (s.phy c).active.isSome = true)) ∧
    (∃ (c : Fin 16) (k : PauseKind) (at8 : Nat) (s : State), (s.phy c).active = some (k, at8) ∧ s.pwr.mode = .run ∧ (s.phy c).parkDue = false ∧ (∀ r : Fin 2, (s.chan c).refDebt[r] = 0)) ∧
    (∃ (c : Fin 16) (k : PauseKind) (at8 : Nat) (s : State), (s.phy c).active = some (k, at8) ∧ s.pwr.mode = .run) ∧
    (∃ (c : Fin 16) (s : State), ((s.phy c).active = none ∨ s.pwr.mode ≠ .run)) ∧
    (∃ (c : Fin 16) (t0 : Nat) (s : State), (s.phy c).due = some t0 ∧ (s.phy c).stopped = false ∧ chanRuns s c = true) ∧
    (∃ (c : Fin 16) (s : State), ((s.phy c).due = none ∨ (s.phy c).stopped = true ∨ chanRuns s c = false)) ∧
    (∃ (c : Fin 16) (s : State), settled s ∧ s.pwr.dozeExit = none ∧ s.pwr.wake ≠ some .resuming ∧ (s.phy c).relock = true ∧ s.pwr.mode = .run ∧ (s.phy c).active = none ∧ s.pwr.halted = false ∧ (s.chan c).replayDue = false ∧ s.bist.dram[c] = none) ∧
    (∃ (c : Fin 16) (s : State), settled s ∧ s.pwr.dozeExit = none ∧ s.pwr.wake ≠ some .resuming ∧ ((s.phy c).relock = false ∨ s.pwr.mode ≠ .run ∨ (s.phy c).active.isSome = true ∨ s.pwr.halted = true)) ∧
    (∃ (c : Fin 16) (k : Nat) (s : State), settled s ∧ s.pwr.dozeExit = some k ∧ s.pwr.wake = none ∧ s.pwr.warmAfter = none ∧ (s.phy c).relock = true ∧ s.pwr.mode = .run ∧ (s.phy c).active = none ∧ s.pwr.halted = false ∧ (s.chan c).replayDue = false ∧ s.bist.dram[c] = none ∧ inMap s c = true ∧ (∀ d ∈ members s, d ≠ c → (s.chan d).lost = true ∨ inService s d = true)) ∧
    (∃ (c : Fin 16) (s : State), settled s ∧ s.pwr.dozeExit = none ∧ s.pwr.wake = some .resuming ∧ (s.phy c).relock = true ∧ s.pwr.mode = .run ∧ (s.phy c).active = none ∧ s.pwr.halted = false ∧ (s.chan c).replayDue = false ∧ s.bist.dram[c] = none ∧ inMap s c = true ∧ (∀ d ∈ members s, d ≠ c → (s.chan d).lost = true ∨ inService s d = true)) :=
  ⟨⟨0, fset (PHY 0) PHY_CTL_PROOF_EN 1 D, by decide +kernel⟩,
   ⟨5, D, by decide +kernel⟩,
   ⟨0, p0 (fun x => { x with due := some 5, stopped := true }) (c0 (fun x => { x with rows := [(3, {}), (40, {})] }) D), by decide +kernel⟩,
   ⟨0, 0, p0 (fun x => { x with due := some 0 }) (ld (fun x => { x with allow := x.allow.set 0 (some 0) }) D), by decide +kernel⟩,
   ⟨5, D, by decide +kernel⟩,
   ⟨0, .timing 0, 40, c0 (fun x => { x with bkPause := 17600 }) (p0 (fun x => { x with active := some (.timing 0, 40), stopped := true }) D), by decide +kernel⟩,
   ⟨0, .timing 0, 40, c0 (fun x => { x with bkPause := 17600, refDebt := Vector.replicate 2 1 }) (p0 (fun x => { x with active := some (.timing 0, 40), stopped := true }) D), by decide +kernel⟩,
   ⟨0, D, by decide +kernel⟩,
   ⟨0, 5, p0 (fun x => { x with due := some 5 }) D, by decide +kernel⟩,
   ⟨0, D, by decide +kernel⟩,
   ⟨0, p0 (fun x => { x with relock := true }) (chs 4 M), by unfold settled; decide +kernel⟩,
   ⟨0, M, by unfold settled; decide +kernel⟩,
   ⟨0, 2, pw (fun x => { x with dozeExit := some 2 }) (p0 (fun x => { x with relock := true }) (fset (CH 0) CH_STATUS_STATE 4 M)), by unfold settled; decide +kernel⟩,
   ⟨0, pw (fun x => { x with wake := some .resuming }) (p0 (fun x => { x with relock := true }) (fset (CH 0) CH_STATUS_STATE 4 M)), by unfold settled; decide +kernel⟩⟩

theorem wit_TrainingRuns :
    (∃ (c : Fin 16) (s : State), verbReady s = true ∧ trainable s c = true) ∧
    (∃ (c : Fin 16) (s : State), verbReady s = true ∧ trainable s c = false) ∧
    (∃ (s : State), consoleOn s = false) ∧
    (∃ (c : Fin 16) (s : State), verbReady s = true ∧ (s.phy c).trnHold = true) ∧
    (∃ (c : Fin 16) (s : State), verbReady s = true ∧ (s.phy c).trnHold = false) ∧
    (∃ (c : Fin 16) (k t0 : Nat) (manual : Bool) (a : StepAns) (s : State), s.pwr.mode = .run ∧ (s.phy c).trn = some (t0, manual) ∧ (s.phy c).trnHold = false ∧ fget s (PHY c) PHY_TRN_STATUS_STEP = k ∧ stepVerdict s c k a = some none ∧ k < 15 ∧ (¬(manual = true ∧ (k = 1 ∨ k = 4))) ∧ (¬((s.chan c).restoring = true ∧ k = 14))) ∧
    (∃ (c : Fin 16) (t0 : Nat) (s : State), s.pwr.mode = .run ∧ (s.phy c).trn = some (t0, true) ∧ (s.phy c).trnHold = false ∧ (s.phy c).trnEnd = false ∧ fget s (PHY c) PHY_TRN_STATUS_STEP = 1) ∧
    (∃ (c : Fin 16) (t0 : Nat) (manual : Bool) (a : StepAns) (f : TrnFail) (s : State), s.pwr.mode = .run ∧ (s.phy c).trn = some (t0, manual) ∧ (s.phy c).trnHold = false ∧ stepVerdict s c (fget s (PHY c) PHY_TRN_STATUS_STEP) a = some (some f)) ∧
    (∃ (c : Fin 16) (t0 : Nat) (s : State), s.pwr.mode = .run ∧ (s.phy c).trn = some (t0, false) ∧ (s.phy c).trnHold = false ∧ fget s (PHY c) PHY_TRN_STATUS_STEP = 15 ∧ (s.chan c).restoring = false) ∧
    (∃ (c : Fin 16) (s : State), (s.pwr.mode ≠ .run ∨ (s.phy c).trn = none)) ∧
    (∃ (c : Fin 16) (t0 : Nat) (manual : Bool) (s : State), (s.phy c).trn = some (t0, manual) ∧ (s.phy c).trnHold = false ∧ fget s (PHY c) PHY_TRN_STATUS_STEP ≠ 15 ∧ dtimeRuns s = true) ∧
    (∃ (c : Fin 16) (s : State), ((s.phy c).trn = none ∨ (s.phy c).trnHold = true ∨ fget s (PHY c) PHY_TRN_STATUS_STEP = 15 ∨ dtimeRuns s = false)) ∧
    (∃ (c : Fin 16) (t0 : Nat) (s : State), (s.phy c).trn = some (t0, true) ∧ (s.phy c).trnEnd = false ∧ dtimeRuns s = true) ∧
    (∃ (c : Fin 16) (s : State), ((s.phy c).trn.map (fun x => x.2) ≠ some true ∨ (s.phy c).trnEnd = true ∨ dtimeRuns s = false)) :=
  ⟨⟨5, D, by decide +kernel⟩,
   ⟨0, D, by decide +kernel⟩,
   ⟨pw (fun x => { x with mode := .banked }) D, by decide +kernel⟩,
   ⟨5, p5 (fun x => { x with trnHold := true }) (K 1 true), by decide +kernel⟩,
   ⟨5, D, by decide +kernel⟩,
   ⟨5, 13, 3, false, .skew 1 2 3 4, K 13 false, by decide +kernel⟩,
   ⟨5, 3, K 1 true, by decide +kernel⟩,
   ⟨5, 3, false, .reset false, (1, none, none), K 1 false, by decide +kernel⟩,
   ⟨5, 3, storeLine 5 10 99 false (K 15 false), by decide +kernel⟩,
   ⟨5, D, by decide +kernel⟩,
   ⟨5, 3, false, K 5 false, by decide +kernel⟩,
   ⟨5, D, by decide +kernel⟩,
   ⟨5, 3, K 5 true, by decide +kernel⟩,
   ⟨5, K 5 false, by decide +kernel⟩⟩

theorem wit_HelpersSweep :
    (∃ (c : Fin 16) (s : State), blockOn s (PHY c) = true ∧ chState s c = 1) ∧
    (∃ (c : Fin 16) (s : State), blockOn s (PHY c) = true ∧ chState s c ≠ 1) ∧
    (∃ (c : Fin 16) (f : SweepForm) (s : State), verbReady s = true ∧ sweepBad f = none ∧ blockOn s (PHY c) = true ∧ chState s c = 1) ∧
    (∃ (f : SweepForm) (e : OutLn) (s : State), verbReady s = true ∧ sweepBad f = some e) ∧
    (∃ (c : Fin 16) (f : SweepForm) (s : State), verbReady s = true ∧ sweepBad f = none ∧ blockOn s (PHY c) = true ∧ chState s c ≠ 1) ∧
    (∃ (c : Fin 16) (got : List Probe) (k : Nat) (l : List (Nat × List Bool)) (s u : State), (s.phy c).sweep = true ∧ chState s c = 1 ∧ s.con.wait ≠ some (.sweep c) ∧ k = fget s (PHY c) PHY_SWP_CTL_CTRL ∧ u = (if fget s (PHY c) PHY_SWP_CTL_SRC = 1 then sweepWrite c (fget s (PHY c) PHY_SWP_CTL_RANK) ((sweepPoints s c).length * fget s (PHY c) PHY_SWP_CNT_BURSTS) s else s) ∧ l = (sweepScan c got (sweepPoints s c) 0 u).1) ∧
    (∃ (c : Fin 16) (s : State), (s.phy c).sweep = true ∧ chState s c = 1 ∧ s.con.wait = some (.sweep c)) ∧
    (∃ (c : Fin 16) (s : State), (s.phy c).sweep = true ∧ chState s c ≠ 1 ∧ s.con.wait ≠ some (.sweep c)) ∧
    (∃ (c : Fin 16) (s : State), (s.phy c).sweep = false ∧ s.con.wait ≠ some (.sweep c)) :=
  ⟨⟨5, ixSet (PHY 5) 0x1903 0x80010005 (ixSet (PHY 5) 0x19FF 9 (K 1 true)), by decide +kernel⟩,
   ⟨0, D, by decide +kernel⟩,
   ⟨5, { ctrl := 3, first := 5, last := 9 }, K 1 true, by decide +kernel⟩,
   ⟨{ ctrl := 11 }, erLn 106 "out of range" [("arg", .s "ctrl"), ("min", .n 0), ("max", .n 9)], D, by decide +kernel⟩,
   ⟨0, {}, D, by decide +kernel⟩,
   ⟨5, [{ pos := 6, got := [0xFFFF, 3] }], 1, (sweepScan 5 [{ pos := 6, got := [0xFFFF, 3] }] (sweepPoints (fset (PHY 5) PHY_SWP_CTL_CTRL 1 (fset (PHY 5) PHY_SWP_RANGE_FIRST 5 (fset (PHY 5) PHY_SWP_RANGE_LAST 7 (fset (PHY 5) PHY_SWP_STATUS_BUSY 1 (fset (PHY 5) PHY_SWP_CNT_BURSTS 2 (p5 (fun x => { x with sweep := true }) (K 1 true))))))) 5) 0 (fset (PHY 5) PHY_SWP_CTL_CTRL 1 (fset (PHY 5) PHY_SWP_RANGE_FIRST 5 (fset (PHY 5) PHY_SWP_RANGE_LAST 7 (fset (PHY 5) PHY_SWP_STATUS_BUSY 1 (fset (PHY 5) PHY_SWP_CNT_BURSTS 2 (p5 (fun x => { x with sweep := true }) (K 1 true)))))))).1, fset (PHY 5) PHY_SWP_CTL_CTRL 1 (fset (PHY 5) PHY_SWP_RANGE_FIRST 5 (fset (PHY 5) PHY_SWP_RANGE_LAST 7 (fset (PHY 5) PHY_SWP_STATUS_BUSY 1 (fset (PHY 5) PHY_SWP_CNT_BURSTS 2 (p5 (fun x => { x with sweep := true }) (K 1 true)))))), fset (PHY 5) PHY_SWP_CTL_CTRL 1 (fset (PHY 5) PHY_SWP_RANGE_FIRST 5 (fset (PHY 5) PHY_SWP_RANGE_LAST 7 (fset (PHY 5) PHY_SWP_STATUS_BUSY 1 (fset (PHY 5) PHY_SWP_CNT_BURSTS 2 (p5 (fun x => { x with sweep := true }) (K 1 true)))))), by decide +kernel, by decide +kernel, by decide +kernel, by decide +kernel, rfl, rfl⟩,
   ⟨5, cn (fun x => { x with wait := some (.sweep 5) }) (fset (PHY 5) PHY_SWP_CTL_CTRL 1 (fset (PHY 5) PHY_SWP_RANGE_FIRST 5 (fset (PHY 5) PHY_SWP_RANGE_LAST 7 (fset (PHY 5) PHY_SWP_STATUS_BUSY 1 (fset (PHY 5) PHY_SWP_CNT_BURSTS 2 (p5 (fun x => { x with sweep := true }) (K 1 true))))))), by decide +kernel⟩,
   ⟨0, p0 (fun x => { x with sweep := true }) D, by decide +kernel⟩,
   ⟨5, D, by decide +kernel⟩⟩

theorem wit_MapAndTimingLoad :
    (∃ (s : State), blockOn s GLB = true ∧ mapCheck s = none) ∧
    (∃ (k : Nat) (s : State), blockOn s GLB = true ∧ mapCheck s = some k) ∧
    (∃ (s : State), blockOn s GLB = false) ∧
    (∃ (c : Fin 16) (s : State), blockOn s (CH c) = true ∧ s.guard = none ∧ timOpen s c = true) ∧
    (∃ (c : Fin 16) (s : State), blockOn s (CH c) = true ∧ s.guard = none ∧ timOpen s c = false) :=
  ⟨⟨N, by decide +kernel⟩,
   ⟨1, D, by decide +kernel⟩,
   ⟨pw (fun x => { x with mode := .off }) D, by decide +kernel⟩,
   ⟨5, D, by decide +kernel⟩,
   ⟨0, D, by decide +kernel⟩⟩

theorem wit_FramesLayoutAndPins :
    (∃ (pin : Bool) (f : Nat) (s : State), coreRuns s = true ∧ (s.frame pin f).st = .filling ∧ (s.frame pin f).filled = 0xFFFF ∧ (s.frame pin f).stale = 0 ∧ segBusy s (s.frame pin f).seg false = false ∧ findSeg s FrSt.hits (s.frame pin f).seg = none) ∧
    (∃ (pin : Bool) (f : Nat) (s : State), (coreRuns s = false ∨ (s.frame pin f).st ≠ .filling ∨ (s.frame pin f).filled ≠ 0xFFFF ∨ (s.frame pin f).stale ≠ 0 ∨ segBusy s (s.frame pin f).seg false = true ∨ (findSeg s FrSt.hits (s.frame pin f).seg).isSome = true)) ∧
    (∃ (pin : Bool) (f : Nat) (s : State), coreRuns s = true ∧ (s.frame pin f).st = .leaving ∧ (s.frame pin f).dirty = 0 ∧ (s.frame pin f).charge = [] ∧ segBusy s (s.frame pin f).seg true = false ∧ (s.frame pin f).thenRetire = false ∧ (s.frame pin f).thenTest = false ∧ (s.frame pin f).thenFill = none ∧ (s.way.pinQueue.find? fun x => x.2 = (s.frame pin f).seg) = none) ∧
    (∃ (pin : Bool) (f : Nat) (s : State), (coreRuns s = false ∨ (s.frame pin f).st ≠ .leaving ∨ (s.frame pin f).dirty ≠ 0 ∨ (s.frame pin f).charge ≠ [] ∨ segBusy s (s.frame pin f).seg true = true)) ∧
    (∃ (s : State), dtimeRuns s = true) ∧
    (∃ (s : State), dtimeRuns s = false) ∧
    (∃ (s : State), blockOn s WAY = true ∧ fbit s WAY WAY_STATUS_COMMITTED = false) ∧
    (∃ (v : Word) (s : State), blockOn s WAY = true ∧ s.guard = none ∧ fbit s WAY WAY_STATUS_COMMITTED = false ∧ carveOk v = true) ∧
    (∃ (v : Word) (s : State), blockOn s WAY = true ∧ s.guard = none ∧ (fbit s WAY WAY_STATUS_COMMITTED = true ∨ carveOk v = false)) ∧
    (∃ (k : Fin 16) (s : State), blockOn s WAY = true ∧ s.guard = none ∧ s.way.pins[k].en = false ∧ (s.led.hold = none ∨ (pinBad s k).isSome = true)) ∧
    (∃ (k : Fin 16) (f : Nat) (s : State), blockOn s WAY = true ∧ s.guard = none ∧ s.way.pins[k].en = false ∧ s.led.hold.isSome = true ∧ pinBad s k = none ∧ s.way.pins[k].segs = 1 ∧ findSeg s (fun t => t == .filling || t.hits) (pinSeg0 s.way.pins[k]) = none ∧ lowestFree (pinFrames s) s.way.pinned = some f) ∧
    (∃ (k : Fin 16) (s : State), blockOn s WAY = true ∧ s.guard = none ∧ s.way.pins[k].en = true) ∧
    (∃ (k : Fin 16) (s : State), blockOn s WAY = true ∧ s.guard = none ∧ s.way.pins[k].en = true ∧ (∀ x ∈ s.way.pinned, x.2.pin ≠ some k)) ∧
    (∃ (k : Fin 16) (s : State), blockOn s WAY = true ∧ s.guard = none ∧ s.way.pins[k].en = false) :=
  ⟨⟨false, 4, tier 4 { st := .filling, seg := 9, filled := 0xFFFF, owner := some 1, psn := 3 } L, by decide +kernel⟩,
   ⟨false, 4, D, by decide +kernel⟩,
   ⟨false, 4, tier 4 { st := .leaving, seg := 9, filled := 0xFFFF } L, by decide +kernel⟩,
   ⟨false, 4, D, by decide +kernel⟩,
   ⟨wy (fun y => { y with hot := [(5, 1), (7, 8)] }) D, by decide +kernel⟩,
   ⟨pw (fun x => { x with mode := .off }) D, by decide +kernel⟩,
   ⟨D, by decide +kernel⟩,
   ⟨0x00040110, D, by decide +kernel⟩,
   ⟨0x00040110, L, by decide +kernel⟩,
   ⟨0, L, by decide +kernel⟩,
   ⟨0, 0, ld (fun x => { x with hold := some (1, 2, 300) }) (fset WAY WAY_CARVE_PIN 4 (pin0 { addrLo := 0x800, segs := 1, man := 1 } L)), by decide +kernel⟩,
   ⟨0, pin0 { en := true } L, by decide +kernel⟩,
   ⟨0, pin0 { en := true, pstate := 2 } L, by decide +kernel⟩,
   ⟨0, L, by decide +kernel⟩⟩

theorem wit_CaravansMove :
    (∃ (h k st : Nat) (x : ImgSlot) (s : State), coreRuns s = true ∧ (s.walkRt h).slots[k]? = some x ∧ x.stage = some st ∧ x.present = false ∧ x.loaded + (imageReads s h k).length = x.total ∧ (∀ r ∈ imageReads s h k, r.back.isSome = true) ∧ (s.walkRt h).wanted = []) ∧
    (∃ (h k : Nat) (x : ImgSlot) (s : State), (s.walkRt h).slots[k]? = some x ∧ (x.present = true ∨ x.stage = none ∨ x.loaded + (imageReads s h k).length ≠ x.total)) ∧
    (∃ (ring : Fin 16) (x : Pick) (n : Nat) (c : Caravan) (keys : List KeySt) (u s : State), coreRuns u = true ∧ s = actAll x.errs u ∧ x.no = n ∧ s.caravans = [c] ∧ c.ring = ring ∧ c.entry = n ∧ c.ph = .image ∧ imageKeys s c = some keys ∧ c.stage + 1 = wdStages s c.desc ∧ (∀ e ∈ s.streams, e.2.waiting = []) ∧ (s.walkRt c.desc).wanted = []) ∧
    (∃ (x : Pick) (u s : State), coreRuns u = true ∧ s = actAll x.errs u ∧ settled s) ∧
    (∃ (s : State), coreRuns s = false) ∧
    (∃ (ring : Fin 16) (n since : Nat) (c : Caravan) (s : State), coreRuns s = true ∧ s.caravan ring n = some c ∧ c.ph = .waiting since) ∧
    (∃ (ring : Fin 16) (n : Nat) (s : State), (coreRuns s = false ∨ s.caravan ring n = none)) ∧
    (∃ (i t0 : Nat) (r : WalkRead) (s : State), coreRuns s = true ∧ s.wreads[i]? = some r ∧ r.retryAt = some t0) ∧
    (∃ (i : Nat) (s : State), (coreRuns s = false ∨ (s.wreads[i]?).bind WalkRead.retryAt = none)) :=
  ⟨⟨5, 0, 2, { stage := some 2, total := 1 }, { wk 5 { slots := [{ stage := some 2, total := 1 }] } L with caravans := [{ car (.waiting 3) with stage := 2 }], wreads := [{ image := true, a := 5, b := 0, key := 0, line := 4, port := 0, man := 1, o := 5, back := some (false, 7) }] }, by decide +kernel⟩,
   ⟨5, 0, {}, wk 5 { slots := [{}] } L, by decide +kernel⟩,
   ⟨3, ⟨2, []⟩, 2, { car .image with desc := 7, stage := 0 }, (imageKeys { wk 7 { reserved := 5, ctx := 1, slots := [{ stage := some 0, present := true, total := 16 }] } V with caravans := [{ car .image with desc := 7, stage := 0 }] } { car .image with desc := 7, stage := 0 }).getD [], { wk 7 { reserved := 5, ctx := 1, slots := [{ stage := some 0, present := true, total := 16 }] } V with caravans := [{ car .image with desc := 7, stage := 0 }] }, { wk 7 { reserved := 5, ctx := 1, slots := [{ stage := some 0, present := true, total := 16 }] } V with caravans := [{ car .image with desc := 7, stage := 0 }] }, by decide +kernel, rfl, by decide +kernel, by decide +kernel, by decide +kernel, by decide +kernel, by decide +kernel, by decide +kernel, by decide +kernel, by decide +kernel, by decide +kernel⟩,
   ⟨⟨2, []⟩, M, M, by decide +kernel, rfl, by unfold settled; decide +kernel⟩,
   ⟨Z, by decide +kernel⟩,
   ⟨3, 2, 77, car (.waiting 77), { L with caravans := [car (.waiting 77)] }, by decide +kernel⟩,
   ⟨3, 2, D, by decide +kernel⟩,
   ⟨0, 77, { image := false, a := 3, b := 2, key := 0, line := 4, port := 0, man := 0, o := 5, retryAt := some 77 }, { L with wreads := [{ image := false, a := 3, b := 2, key := 0, line := 4, port := 0, man := 0, o := 5, retryAt := some 77 }] }, by decide +kernel⟩,
   ⟨0, D, by decide +kernel⟩⟩

theorem wit_DescriptorsManaged :
    (∃ (h m home hold slots seg n : Nat) (s : State), verbReady s = true ∧ h < 4096 ∧ m < 256 ∧ home < 16 ∧ hold ≤ 16380 ∧ hold % 4 = 0 ∧ 1 ≤ slots ∧ slots ≤ 8 ∧ 1 ≤ seg ∧ seg ≤ 128 ∧ 1 ≤ n ∧ n ≤ 64 ∧ wdValid s h = false) ∧
    (∃ (h m home hold slots seg n : Nat) (s : State), verbReady s = true ∧ h < 4096 ∧ m < 256 ∧ home < 16 ∧ hold ≤ 16380 ∧ hold % 4 = 0 ∧ 1 ≤ slots ∧ slots ≤ 8 ∧ 1 ≤ seg ∧ seg ≤ 128 ∧ 1 ≤ n ∧ n ≤ 64 ∧ wdValid s h = true) ∧
    (∃ (h st base segs sh w : Nat) (g : Bool) (s : State), verbReady s = true ∧ h < 4096 ∧ st < 8 ∧ base < 2 ^ 44 ∧ (if g then 0 else 1) ≤ segs ∧ segs ≤ (if g then 255 else 128) ∧ sh ≤ 127 ∧ w ≤ 32 ∧ wdValid s h = false) ∧
    (∃ (h : Nat) (s : State), verbReady s = true ∧ h < 4096 ∧ wdValid s h = false ∧ loadCheck s h = none ∧ loadNeed s h ≤ wayEff (s.man (wdMan s h)) - walkResv s (wdMan s h) ∧ loadNeed s h ≤ fget s WAY WAY_WALKSEG_FREE) ∧
    (∃ (h k : Nat) (s : State), verbReady s = true ∧ h < 4096 ∧ wdValid s h = false ∧ loadCheck s h = some k) ∧
    (∃ (h : Nat) (s : State), verbReady s = true ∧ h < 4096 ∧ wdValid s h = true) ∧
    (∃ (h : Nat) (s : State), verbReady s = true ∧ h < 4096 ∧ wdValid s h = true ∧ (s.walkRt h).unloading = false) ∧
    (∃ (h : Nat) (s : State), verbReady s = true ∧ h < 4096 ∧ (wdValid s h = false ∨ (s.walkRt h).unloading = true)) ∧
    (∃ (h : Nat) (s : State), coreRuns s = true ∧ (s.walkRt h).unloading = true ∧ wdUse s h = 0) ∧
    (∃ (h : Nat) (s : State), (coreRuns s = false ∨ (s.walkRt h).unloading = false ∨ wdUse s h ≠ 0)) :=
  ⟨⟨7, 1, 0, 64, 2, 3, 4, L, by decide +kernel⟩,
   ⟨7, 1, 0, 64, 2, 3, 4, VL, by decide +kernel⟩,
   ⟨7, 1, 0x800, 2, 3, 4, false, V, by decide +kernel⟩,
   ⟨7, V, by decide +kernel⟩,
   ⟨7, 1, D, by decide +kernel⟩,
   ⟨7, VL, by decide +kernel⟩,
   ⟨7, VL, by decide +kernel⟩,
   ⟨7, D, by decide +kernel⟩,
   ⟨5, fset WLK WLK_STATUS_LOADED 3 (wk 5 { reserved := 5, unloading := true } L), by decide +kernel⟩,
   ⟨7, D, by decide +kernel⟩⟩

theorem wit_QueuesMove :
    (∃ (r : Fin 16) (n : Nat) (e : JEntry) (p : EnqPlan) (x : Pick) (u s : State), coreRuns u = true ∧ s = actAll x.errs u ∧ x.no = n ∧ settled s ∧ queTurn s r n .enq = some e ∧ (s.que.plans.find? fun x => x.ring = r && x.entry = n) = some p ∧ oldRecord s r n false = some none) ∧
    (∃ (r : Fin 16) (n : Nat) (e : JEntry) (x : Pick) (u s : State), coreRuns u = true ∧ s = actAll x.errs u ∧ x.no = n ∧ settled s ∧ queTurn s r n .enq = some e ∧ oldRecord s r n false = none) ∧
    (∃ (r : Fin 16) (n k : Nat) (e : JEntry) (w : String) (x : Pick) (u s : State), coreRuns u = true ∧ s = actAll x.errs u ∧ x.no = n ∧ settled s ∧ queTurn s r n .enq = some e ∧ oldRecord s r n false = some (some (k, w)) ∧ (s.qd e.target.toNat).st ≠ .faulted) ∧
    (∃ (r : Fin 16) (n : Nat) (x : Pick) (u s : State), coreRuns u = true ∧ s = actAll x.errs u ∧ x.no = n ∧ settled s ∧ queTurn s r n .enq = none) ∧
    (∃ (r : Fin 16) (n : Nat) (e : JEntry) (x : Pick) (u s : State), coreRuns u = true ∧ s = actAll x.errs u ∧ x.no = n ∧ settled s ∧ queTurn s r n .enq = some e ∧ (s.qd e.target.toNat).st ≠ .faulted) ∧
    (∃ (r : Fin 16) (n : Nat) (e : JEntry) (l : List TakenCell) (d : QDesc) (gone : List Nat) (x : Pick) (u s : State), coreRuns u = true ∧ s = actAll x.errs u ∧ x.no = n ∧ settled s ∧ queTurn s r n .deq = some e ∧ deqCells s (s.qd e.target.toNat) (bitOf e.sub.toNat 0) (e.arg.toNat / 2 ^ 17 % 128) = some l ∧ (l.map (fun x => x.blk)).eraseDups.findSome? (recFault s) = none ∧ directCells s l = [] ∧ recordReads s l = [] ∧ deqImage s (s.qd e.target.toNat) l = some (d, gone)) ∧
    (∃ (r : Fin 16) (n : Nat) (e : JEntry) (l : List TakenCell) (x : Pick) (u s : State), coreRuns u = true ∧ s = actAll x.errs u ∧ x.no = n ∧ settled s ∧ queTurn s r n .deq = some e ∧ s.que.reads = [] ∧ deqCells s (s.qd e.target.toNat) (bitOf e.sub.toNat 0) (e.arg.toNat / 2 ^ 17 % 128) = some l ∧ (l.map (fun x => x.blk)).eraseDups.findSome? (recFault s) = none ∧ directCells s l ≠ []) ∧
    (∃ (r : Fin 16) (n : Nat) (e : JEntry) (x : Pick) (u s : State), coreRuns u = true ∧ s = actAll x.errs u ∧ x.no = n ∧ settled s ∧ queTurn s r n .deq = some e ∧ (s.qd e.target.toNat).st ≠ .faulted) ∧
    (∃ (r : Fin 16) (n : Nat) (x : Pick) (u s : State), coreRuns u = true ∧ s = actAll x.errs u ∧ x.no = n ∧ settled s ∧ queTurn s r n .deq = none) :=
  ⟨⟨0, 0, Qe .enq, pl, ⟨0, []⟩, qu (fun x => { x with plans := [pl] }) (ring0 [Qe .enq] A), qu (fun x => { x with plans := [pl] }) (ring0 [Qe .enq] A), by decide +kernel, rfl, by decide +kernel, by unfold settled; decide +kernel, by decide +kernel, by decide +kernel, by decide +kernel⟩,
   ⟨0, 0, Qe .enq, ⟨0, []⟩, qu (fun x => { x with plans := [{ pl with oldRec := some 1 }], reads := [{ ring := 0, entry := 0, cell := 72, line := 9 }] }) (ring0 [Qe .enq] U), qu (fun x => { x with plans := [{ pl with oldRec := some 1 }], reads := [{ ring := 0, entry := 0, cell := 72, line := 9 }] }) (ring0 [Qe .enq] U), by decide +kernel, rfl, by decide +kernel, by unfold settled; decide +kernel, by decide +kernel, by decide +kernel⟩,
   ⟨0, 0, 1, Qe .enq, "record", ⟨0, []⟩, qu (fun x => { x with plans := [{ pl with oldRec := some 1 }], blocks := [(1, { out := true, queue := 3, bad := true })] }) (ring0 [Qe .enq] U), qu (fun x => { x with plans := [{ pl with oldRec := some 1 }], blocks := [(1, { out := true, queue := 3, bad := true })] }) (ring0 [Qe .enq] U), by decide +kernel, rfl, by decide +kernel, by unfold settled; decide +kernel, by decide +kernel, by decide +kernel, by decide +kernel⟩,
   ⟨0, 0, ⟨0, []⟩, M, M, by decide +kernel, rfl, by decide +kernel, by unfold settled; decide +kernel, by decide +kernel⟩,
   ⟨0, 0, Qe .enq, ⟨0, []⟩, ring0 [Qe .enq] U, ring0 [Qe .enq] U, by decide +kernel, rfl, by decide +kernel, by unfold settled; decide +kernel, by decide +kernel, by decide +kernel⟩,
   ⟨0, 0, Qe .deq, [⟨1, 0, false, 128⟩, ⟨1, 1, true, 64⟩], { st := .empty, deqPkts := 1 }, [1], ⟨0, []⟩, ring0 [Qe .deq] U, ring0 [Qe .deq] U, by decide +kernel, rfl, by decide +kernel, by unfold settled; decide +kernel, by decide +kernel, by decide +kernel, by decide +kernel, by decide +kernel, by decide +kernel, by decide +kernel⟩,
   ⟨0, 0, Qe .deq, [⟨1, 0, false, 128⟩, ⟨1, 1, true, 64⟩], ⟨0, []⟩, qu (fun x => { x with frames := [(0, { role := .tail, queue := 3, block := 1, valid := 2 })] }) (ring0 [Qe .deq] U), qu (fun x => { x with frames := [(0, { role := .tail, queue := 3, block := 1, valid := 2 })] }) (ring0 [Qe .deq] U), by decide +kernel, rfl, by decide +kernel, by unfold settled; decide +kernel, by decide +kernel, by decide +kernel, by decide +kernel, by decide +kernel, by decide +kernel⟩,
   ⟨0, 0, Qe .deq, ⟨0, []⟩, ring0 [Qe .deq] U, ring0 [Qe .deq] U, by decide +kernel, rfl, by decide +kernel, by unfold settled; decide +kernel, by decide +kernel, by decide +kernel⟩,
   ⟨0, 0, ⟨0, []⟩, M, M, by decide +kernel, rfl, by decide +kernel, by unfold settled; decide +kernel, by decide +kernel⟩⟩

theorem wit_PoolAndQueueVerbs :
    (∃ (s : State), blockOn s QUE = true ∧ poolRefusal s (poolBase s) (poolBlocks s) = none) ∧
    (∃ (w : String) (s : State), blockOn s QUE = true ∧ poolRefusal s (poolBase s) (poolBlocks s) = some w) ∧
    (∃ (base p : Nat) (s : State), verbReady s = true ∧ poolRefusal s base p = none) ∧
    (∃ (base p : Nat) (w : String) (s : State), verbReady s = true ∧ poolRefusal s base p = some w) ∧
    (∃ (s : State), coreRuns s = true ∧ fbit s QUE QUE_STATUS_INIT_BUSY = true ∧ s.que.initLeft = 0) ∧
    (∃ (s : State), (coreRuns s = false ∨ fbit s QUE QUE_STATUS_INIT_BUSY = false ∨ s.que.initLeft ≠ 0)) ∧
    (∃ (q : Nat) (s : State), verbReady s = true ∧ q ≤ 131071 ∧ inflight s q = 0) ∧
    (∃ (q : Nat) (s : State), verbReady s = true ∧ q ≤ 131071 ∧ inflight s q ≠ 0) ∧
    (∃ (q : Nat) (s : State), verbReady s = true ∧ 131071 < q) :=
  ⟨⟨fset QUE QUE_POOL_BLOCKS_P 65536 D, by decide +kernel⟩,
   ⟨"size", fset QUE QUE_POOL_BLOCKS_P 655 D, by decide +kernel⟩,
   ⟨0x100000, 65536, D, by decide +kernel⟩,
   ⟨0x100001, 65536, "align", D, by decide +kernel⟩,
   ⟨qu (fun x => { x with initLeft := 0, fresh := [(3, 65533)] }) (fset QUE QUE_STATUS_INIT_BUSY 1 (fset QUE QUE_POOL_BLOCKS_P 65536 D)), by decide +kernel⟩,
   ⟨D, by decide +kernel⟩,
   ⟨3, ring0 [] U, by decide +kernel⟩,
   ⟨3, ring0 [Qe .enq] U, by decide +kernel⟩,
   ⟨131072, D, by decide +kernel⟩⟩

theorem wit_ManifestLifeCycle :
    (∃ (m : Nat) (f : MFields) (s : State), verbReady s = true ∧ m < 256 ∧ mapLoaded s = true ∧ (s.man m).st = .closed ∧ fbit s WAY WAY_STATUS_COMMITTED = true ∧ manCheck s m f none = none) ∧
    (∃ (m : Nat) (f : MFields) (why : List (String × FVal)) (s : State), verbReady s = true ∧ m < 256 ∧ mapLoaded s = true ∧ (s.man m).st = .closed ∧ fbit s WAY WAY_STATUS_COMMITTED = true ∧ manCheck s m f none = some why) ∧
    (∃ (m : Nat) (s : State), verbReady s = true ∧ m < 256 ∧ mapLoaded s = false) ∧
    (∃ (m : Nat) (s : State), verbReady s = true ∧ m < 256 ∧ mapLoaded s = true ∧ (s.man m).st = .closed ∧ fbit s WAY WAY_STATUS_COMMITTED = false) ∧
    (∃ (m : Nat) (x : MMod) (s : State), verbReady s = true ∧ m < 256 ∧ (s.man m).st = .opened ∧ x.twin.getD (s.man m).f.twin = (s.man m).f.twin ∧ manCheck s m (applyMod (s.man m).f x) (some (s.man m).f) = none) ∧
    (∃ (m : Nat) (x : MMod) (why : List (String × FVal)) (s : State), verbReady s = true ∧ m < 256 ∧ (s.man m).st = .opened ∧ x.twin.getD (s.man m).f.twin = (s.man m).f.twin ∧ manCheck s m (applyMod (s.man m).f x) (some (s.man m).f) = some why) ∧
    (∃ (m : Nat) (s : State), verbReady s = true ∧ m < 256 ∧ (s.man m).st ≠ .opened) ∧
    (∃ (m : Nat) (s : State), verbReady s = true ∧ m < 256 ∧ (s.man m).st = .opened ∧ fullQueues s m = []) ∧
    (∃ (m : Nat) (s : State), verbReady s = true ∧ m < 256 ∧ (s.man m).st = .opened ∧ fullQueues s m ≠ []) ∧
    (∃ (m : Nat) (s : State), verbReady s = true ∧ m < 256 ∧ (s.man m).st ≠ .opened) ∧
    (∃ (m : Nat) (s : State), coreRuns s = true ∧ (s.man m).st = .closing ∧ entriesOf s (BitVec.ofNat 8 m) = 0 ∧ dirtyOf s (BitVec.ofNat 8 m) = 0 ∧ (s.man m).forced = false ∧ (∀ w ∈ s.walks, wdMan s w.1 = m → wdValid s w.1 = false)) ∧
    (∃ (m : Nat) (s : State), (coreRuns s = false ∨ (s.man m).st ≠ .closing ∨ entriesOf s (BitVec.ofNat 8 m) ≠ 0 ∨ dirtyOf s (BitVec.ofNat 8 m) ≠ 0)) :=
  ⟨⟨5, fo, Y, by decide +kernel⟩,
   ⟨5, { fo with ports := 0, bw := 99999999 }, (manCheck Y 5 { fo with ports := 0, bw := 99999999 } none).getD [], Y, by decide +kernel⟩,
   ⟨5, R, by decide +kernel⟩,
   ⟨5, D, by decide +kernel⟩,
   ⟨5, { bw := some 50 }, setMan 5 { st := .opened, f := fo, gen := 3 } Y, by decide +kernel⟩,
   ⟨5, { bw := some 99999999 }, (manCheck (setMan 5 { st := .opened, f := fo, gen := 3 } Y) 5 (applyMod fo { bw := some 99999999 }) (some fo)).getD [], setMan 5 { st := .opened, f := fo, gen := 3 } Y, by decide +kernel⟩,
   ⟨5, D, by decide +kernel⟩,
   ⟨1, qu (fun x => { x with desc := [] }) (tier 4 { st := .resident, owner := some 1, dirty := 1, seg := 5 } U), by decide +kernel⟩,
   ⟨1, U, by decide +kernel⟩,
   ⟨5, D, by decide +kernel⟩,
   ⟨1, setMan 1 { st := .closing, f := fo, gen := 5 } Y, by decide +kernel⟩,
   ⟨1, D, by decide +kernel⟩⟩

theorem wit_FrozenStreamsOpen :
    (∃ (p : Fin 4) (x : BitVec 12) (s : State), blockOn s TXN = true ∧ settled s ∧ s.guard = none ∧ (s.strm p x).frozen = true ∧ (s.strm p x).ue = false) ∧
    (∃ (p : Fin 4) (x : BitVec 12) (s : State), blockOn s TXN = true ∧ settled s ∧ s.guard = none ∧ (s.strm p x).frozen = true ∧ (s.strm p x).ue = true) ∧
    (∃ (p : Fin 4) (x : BitVec 12) (s : State), blockOn s TXN = true ∧ settled s ∧ s.guard = none ∧ (s.strm p x).frozen = false) :=
  ⟨⟨0, 5, Sx { frozen := true, n := 5 } Q, by unfold settled; decide +kernel⟩,
   ⟨0, 5, Sx { frozen := true, ue := true, n := 5, k := 3 } Q, by unfold settled; decide +kernel⟩,
   ⟨0, 5, Q, by unfold settled; decide +kernel⟩⟩

theorem wit_SlicesRun :
    (∃ (s : State), coreRuns s = true ∧ fbit s BST BST_CTL_WAY_EN = true ∧ s.bist.way = none ∧ s.bist.wayDue ≤ s.ns ∧ waySliceBad s = none) ∧
    (∃ (s : State), (coreRuns s = false ∨ fbit s BST BST_CTL_WAY_EN = false ∨ s.bist.way.isSome = true)) ∧
    (∃ (s : State), coreRuns s = true ∧ fbit s BST BST_CTL_WAY_EN = true ∧ s.bist.way = none ∧ s.bist.wayDue ≤ s.ns ∧ (waySliceBad s).isSome = true) ∧
    (∃ (errs : List JournalErr) (x : WaySlice) (u s : State), s = actAll errs u ∧ coreRuns s = true ∧ settled s ∧ s.bist.way = some x) ∧
    (∃ (errs : List JournalErr) (u s : State), s = actAll errs u ∧ settled s ∧ (s.bist.way = none ∨ coreRuns s = false)) ∧
    (∃ (c : Fin 16) (s : State), coreRuns s = true ∧ phyTurn s c = true ∧ phySliceBad s c = none) ∧
    (∃ (c : Fin 16) (s : State), (coreRuns s = false ∨ phyTurn s c = false)) ∧
    (∃ (c : Fin 16) (s : State), coreRuns s = true ∧ phyTurn s c = true ∧ (phySliceBad s c).isSome = true) ∧
    (∃ (c : Fin 16) (t0 : Nat) (s : State), s.bist.phyRun[c] = some t0 ∧ chanRuns s c = true) ∧
    (∃ (c : Fin 16) (s : State), (s.bist.phyRun[c] = none ∨ chanRuns s c = false)) ∧
    (∃ (p : Fin 4) (s : State), coreRuns s = true ∧ s.bist.laneRun[p] = none ∧ fbit s BST BST_CTL_LANE_EN = true ∧ s.bist.laneDue[p] ≤ s.ns ∧ sliceGate s laneMw 200000 true = none ∧ laneGroup s p ≠ []) ∧
    (∃ (p : Fin 4) (s : State), coreRuns s = true ∧ s.bist.laneRun[p] = none ∧ fbit s BST BST_CTL_LANE_EN = true ∧ laneGroup s p ≠ [] ∧ s.bist.laneDue[p] ≤ s.ns ∧ (sliceGate s laneMw 200000 true).isSome = true) ∧
    (∃ (p : Fin 4) (l t0 : Nat) (s : State), coreRuns s = true ∧ s.bist.laneRun[p] = some t0 ∧ (laneGroup s p)[s.bist.laneNext[p] % (laneGroup s p).length]? = some l) ∧
    (∃ (p : Fin 4) (s : State), (coreRuns s = false ∨ s.bist.laneRun[p] = none ∧ (fbit s BST BST_CTL_LANE_EN = false ∨ laneGroup s p = []))) :=
  ⟨⟨J, by decide +kernel⟩,
   ⟨Z, by decide +kernel⟩,
   ⟨fset LED LED_STATUS_LEVEL 1 J, by decide +kernel⟩,
   ⟨[], { frames := [0, 1], running := true, at8 := 80 }, bs (fun x => { x with way := some { frames := [0, 1], running := true, at8 := 80 } }) (wy (fun y => { y with tier := [(0, { st := .test }), (1, { st := .test })] }) J), bs (fun x => { x with way := some { frames := [0, 1], running := true, at8 := 80 } }) (wy (fun y => { y with tier := [(0, { st := .test }), (1, { st := .test })] }) J), rfl, by decide +kernel, by unfold settled; decide +kernel, by decide +kernel⟩,
   ⟨[], M, M, rfl, by unfold settled; decide +kernel, by decide +kernel⟩,
   ⟨0, bs (fun x => { x with sincePhy := Vector.replicate 16 31 }) J, by decide +kernel⟩,
   ⟨0, Z, by decide +kernel⟩,
   ⟨0, fset LED LED_STATUS_LEVEL 1 (bs (fun x => { x with sincePhy := Vector.replicate 16 31 }) J), by decide +kernel⟩,
   ⟨0, 80, bs (fun x => { x with phyRun := x.phyRun.set 0 (some 80), phyKind := x.phyKind.set 0 4 }) J, by decide +kernel⟩,
   ⟨0, J, by decide +kernel⟩,
   ⟨0, bs (fun x => { x with laneDue := Vector.replicate 4 0 }) (fset (HP 0) HP_STATUS_WIDTH 1 J), by decide +kernel⟩,
   ⟨0, fset LED LED_STATUS_LEVEL 1 (bs (fun x => { x with laneDue := Vector.replicate 4 0 }) (fset (HP 0) HP_STATUS_WIDTH 1 J)), by decide +kernel⟩,
   ⟨0, 0, 80, bs (fun x => { x with laneRun := x.laneRun.set 0 (some 80) }) (fset (HP 0) HP_STATUS_WIDTH 1 J), by decide +kernel⟩,
   ⟨1, J, by decide +kernel⟩⟩

theorem wit_DramSlicesRun :
    (∃ (c : Fin 16) (s : State), coreRuns s = true ∧ fbit s BST BST_CTL_DRAM_EN = true ∧ phyTurn s c = false ∧ dramSliceBad s c = none) ∧
    (∃ (c : Fin 16) (s : State), (coreRuns s = false ∨ fbit s BST BST_CTL_DRAM_EN = false ∨ phyTurn s c = true)) ∧
    (∃ (c : Fin 16) (s : State), coreRuns s = true ∧ fbit s BST BST_CTL_DRAM_EN = true ∧ phyTurn s c = false ∧ (dramSliceBad s c).isSome = true) ∧
    (∃ (c : Fin 16) (x : DramSlice) (s : State), s.bist.dram[c] = some x ∧ x.ph = .copy ∧ chanRuns s c = true ∧ phaseOver s c x = true ∧ rowBusy s c x.idx = false ∧ fget s LED LED_STATUS_LEVEL < 2) ∧
    (∃ (c : Fin 16) (x : DramSlice) (s : State), s.bist.dram[c] = some x ∧ x.ph = .copy ∧ chanRuns s c = true ∧ phaseOver s c x = true ∧ rowBusy s c x.idx = false ∧ 2 ≤ fget s LED LED_STATUS_LEVEL) ∧
    (∃ (c : Fin 16) (s : State), (chanRuns s c = false ∨ (∀ x, s.bist.dram[c] = some x → x.ph ≠ .copy ∨ phaseOver s c x = false ∨ rowBusy s c x.idx = true))) ∧
    (∃ (c : Fin 16) (x : DramSlice) (n : Nat) (bits : BitVec 72) (s : State), s.bist.dram[c] = some x ∧ x.ph = .test n false ∧ chanRuns s c = true ∧ phaseOver s c x = true ∧ fget s LED LED_STATUS_LEVEL < 2 ∧ comparedBits s c bits = 0) ∧
    (∃ (c : Fin 16) (x : DramSlice) (n : Nat) (bits : BitVec 72) (s : State), s.bist.dram[c] = some x ∧ x.ph = .test n false ∧ chanRuns s c = true ∧ phaseOver s c x = true ∧ fget s LED LED_STATUS_LEVEL < 2 ∧ comparedBits s c bits ≠ 0) ∧
    (∃ (c : Fin 16) (x : DramSlice) (n : Nat) (bits : BitVec 72) (s : State), s.bist.dram[c] = some x ∧ x.ph = .test n true ∧ chanRuns s c = true ∧ phaseOver s c x = true ∧ comparedBits s c bits ≠ 0) ∧
    (∃ (c : Fin 16) (s : State), (chanRuns s c = false ∨ (∀ x, s.bist.dram[c] = some x → phaseOver s c x = false))) ∧
    (∃ (c : Fin 16) (x : DramSlice) (ok : Bool) (s : State), s.bist.dram[c] = some x ∧ x.ph = .restore ok ∧ chanRuns s c = true ∧ phaseOver s c x = true) ∧
    (∃ (c : Fin 16) (s : State), (chanRuns s c = false ∨ (∀ x, s.bist.dram[c] = some x → phaseOver s c x = false))) ∧
    (∃ (c : Fin 16) (x : DramSlice) (n : Nat) (again : Bool) (s : State), s.bist.dram[c] = some x ∧ x.ph = .test n again ∧ chanRuns s c = true) ∧
    (∃ (c : Fin 16) (x : DramSlice) (s : State), s.bist.dram[c] = some x ∧ x.ph = .copy ∧ chanRuns s c = true) ∧
    (∃ (c : Fin 16) (s : State), s.bist.dram[c] = none) :=
  ⟨⟨0, J, by decide +kernel⟩,
   ⟨5, Z, by decide +kernel⟩,
   ⟨5, J, by decide +kernel⟩,
   ⟨0, { frames := [3], step := 1 }, dsl { frames := [3], step := 1 } J, by decide +kernel⟩,
   ⟨0, { frames := [3], step := 1 }, fset LED LED_STATUS_LEVEL 2 (dsl { frames := [3], step := 1 } J), by decide +kernel⟩,
   ⟨0, J, by decide +kernel⟩,
   ⟨0, { ph := .test 2 false, step := 2 }, 2, 0, dsl { ph := .test 2 false, step := 2 } J, by decide +kernel⟩,
   ⟨0, { ph := .test 2 false, step := 2 }, 2, 5, dsl { ph := .test 2 false, step := 2 } J, by decide +kernel⟩,
   ⟨0, { ph := .test 2 true, step := 2 }, 2, 5, dsl { ph := .test 2 true, step := 2 } J, by decide +kernel⟩,
   ⟨0, J, by decide +kernel⟩,
   ⟨0, { ph := .restore true, frames := [3], step := 1 }, true, dsl { ph := .restore true, frames := [3], step := 1 } (tier 3 { st := .test } J), by decide +kernel⟩,
   ⟨0, J, by decide +kernel⟩,
   ⟨0, { ph := .test 2 true }, 2, true, dsl { ph := .test 2 true } J, by decide +kernel⟩,
   ⟨0, { frames := [3], at8 := 99 }, dsl { frames := [3], at8 := 99 } J, by decide +kernel⟩,
   ⟨0, J, by decide +kernel⟩⟩

theorem wit_BistVerbAnswers :
    (∃ (s : State), verbReady s = true ∧ fbit s BST BST_CTL_WAY_EN = true ∧ waySliceBad s = none) ∧
    (∃ (r : String) (s : State), verbReady s = true ∧ fbit s BST BST_CTL_WAY_EN = true ∧ waySliceBad s = some r) ∧
    (∃ (s : State), verbReady s = true ∧ fbit s BST BST_CTL_WAY_EN = false) ∧
    (∃ (c : Fin 16) (s : State), verbReady s = true ∧ fbit s BST BST_CTL_DRAM_EN = true ∧ inService s c = true ∧ dramSliceBad s c = none) ∧
    (∃ (c : Fin 16) (s : State), verbReady s = true ∧ fbit s BST BST_CTL_PHY_EN = true ∧ inService s c = true ∧ phySliceBad s c = none) ∧
    (∃ (p : Fin 4) (s : State), verbReady s = true ∧ fbit s BST BST_CTL_LANE_EN = true ∧ laneGroup s p ≠ [] ∧ sliceGate s laneMw 200000 true = none ∧ s.bist.laneRun[p] = none) ∧
    (∃ (p : Fin 4) (s : State), verbReady s = true ∧ fbit s BST BST_CTL_LANE_EN = true ∧ laneGroup s p ≠ [] ∧ sliceGate s laneMw 200000 true = none ∧ (s.bist.laneRun[p]).isSome = true) ∧
    (∃ (s : State), verbReady s = true) ∧
    (∃ (s : State), verbReady s = true) ∧
    (∃ (s : State), verbReady s = true) ∧
    (∃ (n : Nat) (s : State), verbReady s = true ∧ 1 ≤ n ∧ n ≤ 64) ∧
    (∃ (n : Nat) (s : State), verbReady s = true ∧ (n = 0 ∨ 64 < n)) :=
  ⟨⟨J, by decide +kernel⟩,
   ⟨"state", fset GLB GLB_MAP_CTL_LOADED 0 J, by decide +kernel⟩,
   ⟨fset BST BST_CTL_WAY_EN 0 J, by decide +kernel⟩,
   ⟨0, J, by decide +kernel⟩,
   ⟨0, J, by decide +kernel⟩,
   ⟨0, J, by decide +kernel⟩,
   ⟨0, bs (fun x => { x with laneRun := x.laneRun.set 0 (some 80) }) J, by decide +kernel⟩,
   ⟨J, by decide +kernel⟩,
   ⟨J, by decide +kernel⟩,
   ⟨J, by decide +kernel⟩,
   ⟨5, bs (fun x => { x with log := [(0, { kind := 1 }), (1, { kind := 2 })], head := 2 }) J, by decide +kernel⟩,
   ⟨0, J, by decide +kernel⟩⟩

theorem wit_CanonicalFormKept :
    (∃ (s t : State), Canon s ∧ step s = .next t) :=
  ⟨{ D with pending := [.periodBoundary] }, _, ⟨by decide +kernel, by decide +kernel, by decide +kernel, by decide +kernel, by decide +kernel, by decide +kernel, by decide +kernel⟩, rfl⟩

theorem wit_IdleStepsPassTime :
    (∃ s : State, s.pending = [] ∧ dtimeRuns s = true) ∧
    (∃ s : State, s.pending = [] ∧ s.pwr.mode = .banked ∧ s.pwr.wake = none) ∧
    (∃ s : State, s.pending = [] ∧ s.pwr.mode = .faultOff) :=
  ⟨⟨R, by decide +kernel⟩,
   ⟨B, by decide +kernel⟩,
   ⟨pw (fun x => { x with mode := .faultOff }) D, by decide +kernel⟩⟩

theorem wit_StepsTakeOneCommand :
    (∃ (c : Instr) (l : List Instr) (s t : State), s.pending = c :: l ∧ step s = .next t) :=
  ⟨.conId, [.periodBoundary], { D with pending := [.conId, .periodBoundary] }, _, rfl, rfl⟩

theorem wit_TimeNeverFalls :
    (∃ (c : Instr) (s t : State), mayStart c = false ∧ exec c s = .next t) :=
  ⟨.periodBoundary, D, _, rfl, rfl⟩

theorem wit_NoManifestBeforeTheMap :
    (∃ (m : Nat) (s : State), verbReady s = true ∧ m < 256 ∧ mapLoaded s = false) ∧
    (∃ (c : Instr) (s t : State), mapLoaded s = false ∧ (∀ m, (s.man m).st = .closed) ∧ exec c s = .next t) :=
  ⟨⟨255, R, by decide +kernel⟩,
   ⟨.manifestOpen 5 fo, R, _, by decide +kernel, fun _ => rfl, rfl⟩⟩

theorem wit_StoresKept :
    (∃ (c : Instr) (s t : State), exec c s = .next t ∧ Store.ix ∉ stores c ∧ Store.streams ∉ stores c ∧ Store.mans ∉ stores c ∧ Store.accts ∉ stores c ∧ Store.dram ∉ stores c ∧ Store.wmem ∉ stores c) :=
  ⟨.mapLoad, N, _, rfl, by decide +kernel⟩

theorem wit_LinesReadBack :
    (∃ (c k : Fin 16) (lam m : Nat) (s : State), Memory.wf s.dram ∧ lam < 2 ^ 30 ∧ m < 2 ^ 30 ∧ (k, m) ≠ (c, lam)) ∧
    (∃ (w k : Nat) (s : State), Memory.wf s.wmem ∧ k ≠ w) :=
  ⟨⟨15, 0, 2 ^ 30 - 1, 0, D, by decide +kernel⟩,
   ⟨3, 4, D, by decide +kernel⟩⟩

theorem wit_LineLayout :
    (∃ (l : List Slot) (j i : Nat), l.length = 8 ∧ j < 8 ∧ i < 16) ∧
    (∃ (s : State) (a : Nat) (p : Place), placeOf s (a / 128) = some p) ∧
    (∃ (e : JEntry) (k : Nat), e.opc = .add ∧ k < 16) ∧
    (∃ r : Req, r.opc = .add) :=
  ⟨⟨body, 7, 15, by decide +kernel⟩,
   ⟨M, 1407, { ch := 0, lam := 5, twin := false }, by decide +kernel⟩,
   ⟨{ E with opc := .add }, 15, by decide +kernel⟩,
   ⟨reqOf .add H [], rfl⟩⟩

theorem wit_MaskedWritesMerge :
    (∃ (v : Word) (s : State), blockOn s GLB = true ∧ v.toNat < 65536) :=
  ⟨0xFFFF, R, by decide +kernel⟩

end

end Sys2Proof.Tests
end

/-! PROOF. What a command leaves as it was: each memory and table has writers of its own, and a command that does not list it in `stores` reaches none of them. -/

namespace Sys2Proof.Proofs
open Sys2Proof Sys2Proof.Machine Sys2Proof.Laws

/-- A property that the writers of one memory or table keep. -/
def ClosedStore (P : State → Prop) : Store → Prop
  | .ix => ClosedIx P
  | .streams => ClosedStrm P
  | .mans => ClosedMan P
  | .accts => ClosedAcct P
  | .dram => ClosedDram P
  | .wmem => ClosedWay P

/-- Two states hold the same in one memory or table. -/
def keptStore (s : State) : Store → State → Prop
  | .ix, t => t.ix = s.ix
  | .streams, t => t.streams = s.streams
  | .mans, t => t.mans = s.mans
  | .accts, t => t.accts = s.accts
  | .dram, t => t.dram = s.dram
  | .wmem, t => t.wmem = s.wmem

theorem keptStore_refl (s : State) (σ : Store) : keptStore s σ s := by
  cases σ <;> rfl

theorem keptStore_closed (s : State) (σ : Store) : Closed (keptStore s σ) := by
  cases σ <;> exact ⟨fun _ _ _ h => h, fun _ _ h => h, fun _ _ _ h => h, by intros; assumption⟩

/-- The writers of a store leave every other store. -/
theorem keptStore_closedStore (s : State) {σ τ : Store} (h : τ ≠ σ) : ClosedStore (keptStore s σ) τ := by
  cases τ
  case ix => cases σ <;> first | exact absurd rfl h | exact ⟨fun _ _ _ _ h => h, fun _ _ h => h, fun _ _ _ h => h⟩
  case streams => cases σ <;> first | exact absurd rfl h | exact ⟨fun _ _ _ _ h => h, fun _ _ h => h⟩
  case mans => cases σ <;> first | exact absurd rfl h | exact ⟨fun _ _ _ h => h⟩
  case accts => cases σ <;> first | exact absurd rfl h | exact ⟨fun _ _ _ _ h => h, fun _ _ h => h⟩
  case dram => cases σ <;> first | exact absurd rfl h | exact ⟨by simp [keptStore], by simp [keptStore], by simp [keptStore]⟩
  case wmem => cases σ <;> first | exact absurd rfl h | exact ⟨by simp [keptStore]⟩

/-- A property closed under the writers of the stores that a command lists is kept by the command. -/
theorem exec_keeps_stores {P : State → Prop} (hP : Closed P) (c : Instr) (h : ∀ σ, (stores c).contains σ = true → ClosedStore P σ) (hC : mayStart c = true → ClosedCold P)
    (hR : mayStart c = true → ClosedRestore P) (s out : State) (e : exec c s = .next out) (hs : P s) : P out := by
  cases c with
  | rd port hd ue => exact execRd_keeps hP (h .ix rfl) (h .streams rfl) (h .accts rfl) (h .dram rfl) (h .wmem rfl) port hd ue s hs out e
  | wr port hd body ue => exact execWr_keeps hP (h .ix rfl) (h .streams rfl) (h .accts rfl) (h .dram rfl) (h .wmem rfl) port hd body ue s hs out e
  | wrp port hd body ue => exact execWrp_keeps hP (h .ix rfl) (h .streams rfl) (h .accts rfl) (h .dram rfl) (h .wmem rfl) port hd body ue s hs out e
  | add port hd body ue => exact execAdd_keeps hP (h .ix rfl) (h .streams rfl) (h .accts rfl) (h .dram rfl) (h .wmem rfl) port hd body ue s hs out e
  | enq port hd body ue => exact execEnq_keeps hP (h .ix rfl) (h .streams rfl) (h .accts rfl) (h .dram rfl) (h .wmem rfl) port hd body ue s hs out e
  | deq port hd ue => exact execDeq_keeps hP (h .ix rfl) (h .streams rfl) (h .accts rfl) (h .dram rfl) (h .wmem rfl) port hd ue s hs out e
  | walk port hd body ue => exact execWalk_keeps hP (h .ix rfl) (h .streams rfl) (h .accts rfl) (h .dram rfl) (h .wmem rfl) port hd body ue s hs out e
  | sync port hd ue => exact execSync_keeps hP (h .ix rfl) (h .streams rfl) (h .accts rfl) (h .dram rfl) (h .wmem rfl) port hd ue s hs out e
  | time port slot rply => exact execTime_keeps hP port slot rply s hs out e
  | conMessage port slot => exact execConMessage_keeps hP port slot s hs out e
  | arbiterContest arb errs => exact execArbiterContest_keeps hP (h .ix rfl) (h .streams rfl) (h .accts rfl) (h .dram rfl) (h .wmem rfl) arb errs s hs out e
  | resvGrant arb errs => exact execResvGrant_keeps hP (h .ix rfl) (h .streams rfl) (h .accts rfl) (h .dram rfl) (h .wmem rfl) arb errs s hs out e
  | waystationAccessComplete idx ecc errs => exact execWaystationAccessComplete_keeps hP (h .ix rfl) (h .streams rfl) (h .accts rfl) (h .dram rfl) (h .wmem rfl) idx ecc errs s hs out e
  | commandAdmission ch => exact execCommandAdmission_keeps hP (h .ix rfl) (h .streams rfl) (h .accts rfl) (h .dram rfl) (h .wmem rfl) ch s hs out e
  | commandIssue ch pos => exact execCommandIssue_keeps hP (h .ix rfl) (h .streams rfl) (h .accts rfl) (h .dram rfl) (h .wmem rfl) ch pos s hs out e
  | burstDecode ch sym again errs => exact execBurstDecode_keeps hP (h .ix rfl) (h .streams rfl) (h .accts rfl) (h .dram rfl) (h .wmem rfl) ch sym again errs s hs out e
  | alertWindowClose ch errs => exact execAlertWindowClose_keeps hP (h .ix rfl) (h .streams rfl) (h .accts rfl) (h .dram rfl) (h .wmem rfl) ch errs s hs out e
  | alert ch => exact execAlert_keeps hP (h .ix rfl) (h .streams rfl) (h .accts rfl) (h .dram rfl) (h .wmem rfl) ch s hs out e
  | alertHoldExpiry ch => exact execAlertHoldExpiry_keeps hP ch s hs out e
  | replayTimeout ch => exact execReplayTimeout_keeps hP (h .ix rfl) (h .streams rfl) (h .accts rfl) (h .dram rfl) (h .wmem rfl) ch s hs out e
  | refreshDue ch rank => exact execRefreshDue_keeps hP ch rank s hs out e
  | mr4Poll ch r0 r1 => exact execMr4Poll_keeps hP ch r0 r1 s hs out e
  | rowactWindowBoundary ch => exact execRowactWindowBoundary_keeps hP (h .accts rfl) ch s hs out e
  | markWindowEnd ch => exact execMarkWindowEnd_keeps hP (h .ix rfl) ch s hs out e
  | rankPowerDown ch rank => exact execRankPowerDown_keeps hP ch rank s hs out e
  | pageTimeout ch bank => exact execPageTimeout_keeps hP ch bank s hs out e
  | spareRewrite ch sym => exact execSpareRewrite_keeps hP ch sym s hs out e
  | scrubRead ch sym again => exact execScrubRead_keeps hP ch sym again s hs out e
  | backgroundGrant ch req => exact execBackgroundGrant_keeps hP (h .accts rfl) (h .dram rfl) (h .wmem rfl) ch req s hs out e
  | proofPauseDue ch => exact execProofPauseDue_keeps hP ch s hs out e
  | proofPauseStart ch => exact execProofPauseStart_keeps hP ch s hs out e
  | proofPauseEnd ch res => exact execProofPauseEnd_keeps hP (h .ix rfl) ch res s hs out e
  | pauseHoldbackExpiry ch => exact execPauseHoldbackExpiry_keeps hP ch s hs out e
  | periodBoundary => exact execPeriodBoundary_keeps hP (h .mans rfl) (h .accts rfl) (h .wmem rfl) s hs out e
  | tollGateRefill => exact execTollGateRefill_keeps hP s hs out e
  | horizonHoldExpiry => exact execHorizonHoldExpiry_keeps hP s hs out e
  | migrationEpoch => exact execMigrationEpoch_keeps hP (h .wmem rfl) s hs out e
  | promotionComplete pinned frame => exact execPromotionComplete_keeps hP pinned frame s hs out e
  | demotionComplete pinned frame => exact execDemotionComplete_keeps hP (h .wmem rfl) pinned frame s hs out e
  | stageImageLoaded desc slot => exact execStageImageLoaded_keeps hP desc slot s hs out e
  | caravanStageEnd ring entry => exact execCaravanStageEnd_keeps hP (h .ix rfl) (h .streams rfl) (h .accts rfl) (h .dram rfl) (h .wmem rfl) ring entry s hs out e
  | walkHoldExpiry ring entry => exact execWalkHoldExpiry_keeps hP ring entry s hs out e
  | walkReadRetry idx => exact execWalkReadRetry_keeps hP idx s hs out e
  | enqApply ring entry recBad => exact execEnqApply_keeps hP (h .ix rfl) (h .streams rfl) (h .accts rfl) (h .dram rfl) (h .wmem rfl) ring entry recBad s hs out e
  | deqApply ring entry recBad eccs => exact execDeqApply_keeps hP (h .ix rfl) (h .streams rfl) (h .accts rfl) (h .dram rfl) (h .wmem rfl) ring entry recBad eccs s hs out e
  | queuePoolReady => exact execQueuePoolReady_keeps hP s hs out e
  | dataFlit port f => exact execDataFlit_keeps hP (h .ix rfl) (h .streams rfl) port f s hs out e
  | idleFlit port f => exact execIdleFlit_keeps hP (h .ix rfl) (h .streams rfl) port f s hs out e
  | trainFlit port f lock pass rev => exact execTrainFlit_keeps hP (h .ix rfl) (h .streams rfl) port f lock pass rev s hs out e
  | nakTimeout port => exact execNakTimeout_keeps hP port s hs out e
  | ackTimeout port => exact execAckTimeout_keeps hP port s hs out e
  | detectLock port good inv => exact execDetectLock_keeps hP port good inv s hs out e
  | equaliseDone port good => exact execEqualiseDone_keeps hP port good s hs out e
  | trainingTimeout port => exact execTrainingTimeout_keeps hP (h .streams rfl) port s hs out e
  | laneSignalLoss port lane => exact execLaneSignalLoss_keeps hP (h .streams rfl) port lane s hs out e
  | laneSerWindow port => exact execLaneSerWindow_keeps hP (h .streams rfl) port s hs out e
  | portReset port => exact execPortReset_keeps hP (h .streams rfl) port s hs out e
  | retrain port => exact execRetrain_keeps hP port s hs out e
  | upgrade port => exact execUpgrade_keeps hP port s hs out e
  | portEnable port en => exact execPortEnable_keeps hP (h .streams rfl) port en s hs out e
  | tunnelEnable port en => exact execTunnelEnable_keeps hP port en s hs out e
  | txPllLockLoss port => exact execTxPllLockLoss_keeps hP (h .streams rfl) port s hs out e
  | journalReplay ch errs => exact execJournalReplay_keeps hP (h .ix rfl) (h .streams rfl) (h .accts rfl) (h .dram rfl) (h .wmem rfl) ch errs s hs out e
  | poisonFillDone ch => exact execPoisonFillDone_keeps hP ch s hs out e
  | twinResync ch => exact execTwinResync_keeps hP (h .ix rfl) (h .streams rfl) (h .dram rfl) (h .wmem rfl) ch s hs out e
  | mapLoad => exact execMapLoad_keeps hP s hs out e
  | loadTimingProfile ch => exact execLoadTimingProfile_keeps hP ch s hs out e
  | trainStart ch manual ans => exact execTrainStart_keeps hP (h .ix rfl) (h .dram rfl) ch manual ans s hs out e
  | trainEnd ch ans => exact execTrainEnd_keeps hP (h .ix rfl) (h .dram rfl) ch ans s hs out e
  | trainingComplete ch ans => exact execTrainingComplete_keeps hP (h .ix rfl) (h .dram rfl) ch ans s hs out e
  | trainingStepTimeout ch => exact execTrainingStepTimeout_keeps hP ch s hs out e
  | manualTrainingTimeout ch => exact execManualTrainingTimeout_keeps hP ch s hs out e
  | sweepStart ch form => exact execSweepStart_keeps hP ch form s hs out e
  | sweepDone ch eyes => exact execSweepDone_keeps hP (h .ix rfl) (h .dram rfl) ch eyes s hs out e
  | compareClear ch => exact execCompareClear_keeps hP (h .ix rfl) ch s hs out e
  | relockDone ch res => exact execRelockDone_keeps hP (h .ix rfl) (h .streams rfl) (h .accts rfl) (h .dram rfl) (h .wmem rfl) ch res s hs out e
  | ledgerWindowEnd => exact execLedgerWindowEnd_keeps hP s hs out e
  | ledgerActionPoint => exact execLedgerActionPoint_keeps hP s hs out e
  | holdApply decl => exact execHoldApply_keeps hP decl s hs out e
  | pfail lowNs => exact execPfail_keeps hP (h .streams rfl) (h .wmem rfl) lowNs s hs out e
  | pfailFlushDone => exact execPfailFlushDone_keeps hP (h .ix rfl) (h .streams rfl) (h .dram rfl) (h .wmem rfl) s hs out e
  | pfailRelease => exact execPfailRelease_keeps hP s hs out e
  | waySliceStart => exact execWaySliceStart_keeps hP (h .wmem rfl) s hs out e
  | waySliceEnd bad scrub errs => exact execWaySliceEnd_keeps hP (h .ix rfl) (h .streams rfl) (h .accts rfl) (h .dram rfl) (h .wmem rfl) bad scrub errs s hs out e
  | dramSliceStart ch => exact execDramSliceStart_keeps hP ch s hs out e
  | rowDisplaced ch eccs => exact execRowDisplaced_keeps hP (h .dram rfl) ch eccs s hs out e
  | dramPhaseEnd ch bits => exact execDramPhaseEnd_keeps hP ch bits s hs out e
  | rowRestored ch => exact execRowRestored_keeps hP ch s hs out e
  | sliceBudgetExpiry ch => exact execSliceBudgetExpiry_keeps hP ch s hs out e
  | phySliceStart ch => exact execPhySliceStart_keeps hP ch s hs out e
  | phySliceEnd ch margins => exact execPhySliceEnd_keeps hP (h .ix rfl) ch margins s hs out e
  | laneSlice port mv mui => exact execLaneSlice_keeps hP (h .ix rfl) port mv mui s hs out e
  | bistRun target unit => exact execBistRun_keeps hP (h .wmem rfl) target unit s hs out e
  | bistShow target unit => exact execBistShow_keeps hP target unit s hs out e
  | bistLog last => exact execBistLog_keeps hP last s hs out e
  | sleepDoze => exact execSleepDoze_keeps hP s hs out e
  | sleepBanked => exact execSleepBanked_keeps hP s hs out e
  | drainComplete => exact execDrainComplete_keeps hP (h .ix rfl) (h .streams rfl) (h .dram rfl) (h .wmem rfl) s hs out e
  | drainTimeout => exact execDrainTimeout_keeps hP (h .ix rfl) (h .streams rfl) (h .accts rfl) (h .dram rfl) (h .wmem rfl) s hs out e
  | sleepParkDone => exact execSleepParkDone_keeps hP (h .ix rfl) (h .streams rfl) (h .accts rfl) (h .wmem rfl) s hs out e
  | wakeWindowEnd => exact execWakeWindowEnd_keeps hP (h .streams rfl) (h .accts rfl) s hs out e
  | retentionCheck inWindow => exact execRetentionCheck_keeps hP inWindow s hs out e
  | wakeN lowNs => exact execWakeN_keeps hP (h .ix rfl) (h .streams rfl) (h .accts rfl) (h .dram rfl) (h .wmem rfl) lowNs s hs out e
  | wakePortMatch addr read bytes => exact execWakePortMatch_keeps hP (h .ix rfl) (h .streams rfl) (h .accts rfl) (h .dram rfl) (h .wmem rfl) addr read bytes s hs out e
  | linkWake port => exact execLinkWake_keeps hP (h .ix rfl) (h .streams rfl) (h .accts rfl) (h .dram rfl) (h .wmem rfl) port s hs out e
  | aonTimerWake => exact execAonTimerWake_keeps hP (h .ix rfl) (h .streams rfl) (h .accts rfl) (h .dram rfl) (h .wmem rfl) s hs out e
  | bankImageRestored ok => exact execBankImageRestored_keeps hP (h .streams rfl) (h .accts rfl) (h .wmem rfl) (hC rfl) ok s hs out e
  | retentionSettle => exact execRetentionSettle_keeps hP (h .streams rfl) (h .accts rfl) (h .wmem rfl) s hs out e
  | sleepWake => exact execSleepWake_keeps hP (h .streams rfl) (h .accts rfl) (h .wmem rfl) s hs out e
  | sleepResume => exact execSleepResume_keeps hP (h .ix rfl) (h .streams rfl) (h .accts rfl) (h .dram rfl) (h .wmem rfl) s hs out e
  | clockRun lock => exact execClockRun_keeps hP lock s hs out e
  | gateRampStage dom => exact execGateRampStage_keeps hP (h .ix rfl) (hC rfl) (hR rfl) dom s hs out e
  | gateFault dom cause => exact execGateFault_keeps hP (h .ix rfl) (h .streams rfl) (h .accts rfl) (h .dram rfl) (h .wmem rfl) dom cause s hs out e
  | powerRetry dom => exact execPowerRetry_keeps hP dom s hs out e
  | brownout => exact execBrownout_keeps hP (h .ix rfl) s hs out e
  | retentionLost => exact execRetentionLost_keeps hP s hs out e
  | powerOn => exact execPowerOn_keeps hP (h .ix rfl) s hs out e
  | waystationClearDone => exact execWaystationClearDone_keeps hP s hs out e
  | resetN lowNs => exact execResetN_keeps hP (h .ix rfl) (h .streams rfl) (h .accts rfl) (h .dram rfl) (h .wmem rfl) lowNs s hs out e
  | resetNRelease => exact execResetNRelease_keeps hP (h .ix rfl) (h .streams rfl) (h .accts rfl) (h .dram rfl) (h .wmem rfl) (hC rfl) s hs out e
  | watchdogExpiry => exact execWatchdogExpiry_keeps hP (h .streams rfl) (h .accts rfl) (h .wmem rfl) s hs out e
  | watchdogKick => exact execWatchdogKick_keeps hP s hs out e
  | corePllLockLoss => exact execCorePllLockLoss_keeps hP (h .streams rfl) (h .accts rfl) (h .wmem rfl) s hs out e
  | resetWarm => exact execResetWarm_keeps hP s hs out e
  | resetCold => exact execResetCold_keeps hP s hs out e
  | resetPort port => exact execResetPort_keeps hP (h .ix rfl) (h .streams rfl) (h .accts rfl) (h .dram rfl) (h .wmem rfl) port s hs out e
  | perChannelReset ch => exact execPerChannelReset_keeps hP (h .ix rfl) (h .streams rfl) (h .accts rfl) (h .dram rfl) (h .wmem rfl) ch s hs out e
  | snapshotCapture => exact execSnapshotCapture_keeps hP s hs out e
  | snapshotDone => exact execSnapshotDone_keeps hP s hs out e
  | layoutCommit => exact execLayoutCommit_keeps hP s hs out e
  | wayCarveWrite v => exact execWayCarveWrite_keeps hP v s hs out e
  | pinEnable k => exact execPinEnable_keeps hP (h .wmem rfl) k s hs out e
  | pinDisable k => exact execPinDisable_keeps hP (h .wmem rfl) k s hs out e
  | queuePoolInit cmd => exact execQueuePoolInit_keeps hP cmd s hs out e
  | queueReset q => exact execQueueReset_keeps hP (h .accts rfl) q s hs out e
  | manifestOpen man f => exact execManifestOpen_keeps hP (h .mans rfl) man f s hs out e
  | manifestModify man m => exact execManifestModify_keeps hP (h .mans rfl) (h .wmem rfl) man m s hs out e
  | manifestClose man force => exact execManifestClose_keeps hP (h .mans rfl) (h .accts rfl) man force s hs out e
  | manifestClosed man => exact execManifestClosed_keeps hP (h .ix rfl) (h .mans rfl) (h .accts rfl) man s hs out e
  | walkDefine desc man home bypass hold slots slotseg nctx => exact execWalkDefine_keeps hP (h .ix rfl) desc man home bypass hold slots slotseg nctx s hs out e
  | walkStage desc stage gather base segs shift width => exact execWalkStage_keeps hP (h .ix rfl) desc stage gather base segs shift width s hs out e
  | walkLoad desc => exact execWalkLoad_keeps hP (h .ix rfl) (h .wmem rfl) desc s hs out e
  | walkUnload desc => exact execWalkUnload_keeps hP desc s hs out e
  | walkUnloaded desc => exact execWalkUnloaded_keeps hP (h .ix rfl) desc s hs out e
  | streamOpen port strm => exact execStreamOpen_keeps hP (h .ix rfl) (h .streams rfl) (h .accts rfl) (h .dram rfl) (h .wmem rfl) port strm s hs out e
  | markCommand ch rank dev => exact execMarkCommand_keeps hP ch rank dev s hs out e
  | probeArm => exact execProbeArm_keeps hP s hs out e
  | guardedValueWrite addr v => exact execGuardedValueWrite_keeps hP (h .ix rfl) (h .streams rfl) (h .dram rfl) (h .wmem rfl) addr v s hs out e
  | guardedComplementWrite addr v => exact execGuardedComplementWrite_keeps hP (h .ix rfl) (h .streams rfl) (h .accts rfl) (h .dram rfl) (h .wmem rfl) addr v s hs out e
  | guardTimeout => exact execGuardTimeout_keeps hP s hs out e
  | maskedWrite addr v => exact execMaskedWrite_keeps hP (h .ix rfl) (h .streams rfl) (h .dram rfl) (h .wmem rfl) addr v s hs out e
  | clearOnRead addr => exact execClearOnRead_keeps hP addr s hs out e
  | indDataRead block => exact execIndDataRead_keeps hP block s hs out e
  | indDataWrite block v => exact execIndDataWrite_keeps hP (h .ix rfl) (h .streams rfl) (h .accts rfl) (h .dram rfl) (h .wmem rfl) block v s hs out e
  | aonWriteEffect => exact execAonWriteEffect_keeps hP s hs out e
  | registerWrite addr v => exact execRegisterWrite_keeps hP (h .ix rfl) (h .streams rfl) (h .accts rfl) (h .dram rfl) (h .wmem rfl) addr v s hs out e
  | uartByte b frame => exact execUartByte_keeps hP b frame s hs out e
  | uartBreak => exact execUartBreak_keeps hP s hs out e
  | unknownVerb => exact execUnknownVerb_keeps hP s hs out e
  | conId => exact execConId_keeps hP s hs out e
  | conHelp topic => exact execConHelp_keeps hP topic s hs out e
  | conRd addr n => exact execConRd_keeps hP addr n s hs out e
  | conWr addr v => exact execConWr_keeps hP (h .ix rfl) (h .streams rfl) (h .accts rfl) (h .dram rfl) (h .wmem rfl) addr v s hs out e
  | conWrm addr mask v => exact execConWrm_keeps hP (h .ix rfl) (h .streams rfl) (h .dram rfl) (h .wmem rfl) addr mask v s hs out e
  | conWrg addr v => exact execConWrg_keeps hP (h .ix rfl) (h .streams rfl) (h .accts rfl) (h .dram rfl) (h .wmem rfl) addr v s hs out e
  | conIrd block index n => exact execConIrd_keeps hP (h .ix rfl) (h .streams rfl) (h .dram rfl) (h .wmem rfl) block index n s hs out e
  | conIwr block index vs => exact execConIwr_keeps hP (h .ix rfl) (h .streams rfl) (h .accts rfl) (h .dram rfl) (h .wmem rfl) block index vs s hs out e
  | conGet name => exact execConGet_keeps hP (h .ix rfl) (h .streams rfl) (h .dram rfl) (h .wmem rfl) name s hs out e
  | conSet name v => exact execConSet_keeps hP (h .ix rfl) (h .streams rfl) (h .accts rfl) (h .dram rfl) (h .wmem rfl) name v s hs out e
  | conShow view => exact execConShow_keeps hP view s hs out e
  | ledgerShow man => exact execLedgerShow_keeps hP man s hs out e
  | conLog last => exact execConLog_keeps hP last s hs out e
  | conLogClear => exact execConLogClear_keeps hP s hs out e
  | conEcho on => exact execConEcho_keeps hP (h .ix rfl) (h .streams rfl) (h .dram rfl) (h .wmem rfl) on s hs out e
  | conMode strict => exact execConMode_keeps hP (h .ix rfl) (h .streams rfl) (h .dram rfl) (h .wmem rfl) strict s hs out e
  | answerSent => exact execAnswerSent_keeps hP (h .streams rfl) (h .accts rfl) (h .wmem rfl) (hC rfl) s hs out e
  | eventSend => exact execEventSend_keeps hP s hs out e
  | thermSample tenths => exact execThermSample_keeps hP tenths s hs out e
  | xtalQualified => exact execXtalQualified_keeps hP s hs out e
  | xtalLoss => exact execXtalLoss_keeps hP s hs out e
  | vinAonOff => exact execVinAonOff_keeps hP (h .ix rfl) s hs out e
  | coreSupplyLoss => exact execCoreSupplyLoss_keeps hP (h .streams rfl) (h .accts rfl) (h .wmem rfl) s hs out e
  | channelPllLockLoss ch => exact execChannelPllLockLoss_keeps hP ch s hs out e
  | tapInstruction ir => exact execTapInstruction_keeps hP ir s hs out e
  | wakePortStopCondition => exact execWakePortStopCondition_keeps hP s hs out e
  | alignedMillisecondEnd ch => exact execAlignedMillisecondEnd_keeps hP ch s hs out e
  | aonRegulatorSettled => exact execAonRegulatorSettled_keeps hP s hs out e

/-- A command that can end in a start lists every store. -/
theorem mem_stores_of_mayStart {c : Instr} (h : mayStart c = true) (σ : Store) : σ ∈ stores c := by
  unfold mayStart at h
  split at h
  case h_5 => cases h
  all_goals cases σ <;> exact List.contains_iff_mem.mp rfl

/-- What a command does not list in `stores` is as it was. -/
theorem exec_keptStore {c : Instr} {s t : State} (e : exec c s = .next t) {σ : Store} (h : σ ∉ stores c) : keptStore s σ t :=
  have hm : mayStart c ≠ true := fun hm => h (mem_stores_of_mayStart hm σ)
  exec_keeps_stores (keptStore_closed s σ) c (fun _ hτ => keptStore_closedStore s fun hτσ => h (hτσ ▸ List.contains_iff_mem.mp hτ))
    (fun hm' => absurd hm' hm) (fun hm' => absurd hm' hm) s t e (keptStore_refl s σ)

/-- Settles O57: the property "as it was" of each store is closed under the writers of every other store. -/
theorem storesKept : Obligations.StoresKept := by
  unfold Obligations.StoresKept
  intro c s t e
  exact ⟨exec_keptStore e (σ := .ix), exec_keptStore e (σ := .streams), exec_keptStore e (σ := .mans), exec_keptStore e (σ := .accts),
    exec_keptStore e (σ := .dram), exec_keptStore e (σ := .wmem)⟩

end Sys2Proof.Proofs

/-! PROOF. A write that replay makes at once opens its row, and an RFM that is due leaves with it (10 R318): the model lets time pass up to the RFM's command slot, where the statement of replay has DTIME stand still. -/

namespace Sys2Proof.Proofs
open Sys2Proof Sys2Proof.Machine Sys2Proof.Laws

/-- A recorded WR of line 10, accepted before its stream was opened again, whose result stands in RSLT. -/
def rsltWrite : JEntry := { st := .rslt, opc := .wr, recorded := true, target := 0x500, orphan := some 0 }

/-- Channels 0 and 8 are the members of a loaded map and in service. -/
def twoMembers : State :=
  fset (CH 0) CH_STATUS_STATE 3 (fset (CH 8) CH_STATUS_STATE 3 (fset GLB GLB_MAP_MEMBERS_MEMBERS 0x101 (fset GLB GLB_MAP_CTL_LOADED 1 State.reset)))

/-- Channel 0 waits for the replay of its one entry while an RFM is due there and its command/address bus is taken until DTIME 1. -/
def replayRfmDue : State :=
  updChan 0 (fun y => { y with replayDue := true, rfmDue := [(0, 0)], caAt8 := 1 }) (updRing 0 (fun r => { r with entries := [rsltWrite] }) twoMembers)

/-- The replay waits for the RFM: a cycle of CK_FIO passes. -/
theorem journalReplay_replayRfmDue_d8 : (journalReplay 0 ⟨[], []⟩ replayRfmDue).d8 = replayRfmDue.d8 + 125 := by decide +kernel

/-- Refutes O16: the write of a replayed entry in RSLT makes an RFM that is due leave, and DTIME rises, where the third clause has it stand still. -/
theorem not_replayAndRestore : ¬ Obligations.ReplayAndRestore := by
  unfold Obligations.ReplayAndRestore
  rintro ⟨-, -, written, -⟩
  obtain ⟨t, ht, -, -, -, -, -, still, -, -⟩ := written 0 rsltWrite { ch := 0, lam := 5, twin := false } [] replayRfmDue (by decide +kernel)
    (by unfold settled; decide +kernel) (by decide +kernel) rfl rfl rfl (.inr (by decide)) (by decide +kernel) (by decide +kernel) rfl (by decide +kernel)
  have hs : journalReplay 0 ⟨[], []⟩ replayRfmDue = t := Host.Outcome.next.inj ht
  have passed := journalReplay_replayRfmDue_d8
  rw [hs] at passed
  omega

end Sys2Proof.Proofs

/-! PROOF. A self-test target whose coverage is complete counts its cycle at the boundary and sends `bist_cycle`, in a warm reset's replay too (05 R153 keeps only the period's own events back). -/

namespace Sys2Proof.Proofs
open Sys2Proof Sys2Proof.Machine Sys2Proof.Laws

/-- RUN during the replay of a warm reset, with the one lane of port 0 covered in this cycle of its self-test. -/
def lanesCovered : State :=
  { State.reset with
    pwr := { State.reset.pwr with mode := .run, warm := .replay }
    bist := { State.reset.bist with lanesIn := State.reset.bist.lanesIn.set 0 [0], cycLane := [(0, 0)] } }

/-- The boundary sends the event of the completed self-test cycle. -/
theorem periodBoundary_lanesCovered_evq : (periodBoundary lanesCovered).con.evq.length = 1 := by decide +kernel

/-- Refutes O18: at a boundary in a warm reset's replay the completed self-test cycle of a target is an event of the console, where the first clause keeps the console as it was. -/
theorem not_periodsAndGatesRun : ¬ Obligations.PeriodsAndGatesRun := by
  unfold Obligations.PeriodsAndGatesRun
  rintro ⟨boundary, -⟩
  obtain ⟨t, ht, -, -, -, -, -, quiet, -⟩ := boundary lanesCovered rfl
  have ht' : periodBoundary lanesCovered = t := Host.Outcome.next.inj ht
  obtain ⟨same, -⟩ := quiet (by decide)
  have sent := periodBoundary_lanesCovered_evq
  rw [ht', same] at sent
  exact absurd sent (by decide)

end Sys2Proof.Proofs

/-! PROOF. A journal ring holds no bound of its own in a state of the model: with 4,096 entries in it the slot of a new entry is that of the oldest one, and the DEFER answer of the grant marks that one. -/

namespace Sys2Proof.Proofs
open Sys2Proof Sys2Proof.Machine Sys2Proof.Laws

/-- A pending entry whose DEFER was not sent. -/
def pendEntry : JEntry := { st := .pend, opc := .sync, orphan := some 0, port := 0, stream := 0 }

/-- A RD of line 10 on stream 5 of port 0, under manifest 0, that has been at its arbiter since DTIME 0. -/
def lineReader : Contestant :=
  { port := 0, req := ⟨.rd, { (default : Hdr) with arg := 10, stream := 5 }, [], false⟩, fp := 0, t := 0, o := 1000, late := false, boost := 0, order := 0
    home := 0, weight := 1, toll := 0, resv := false, twin := false, hit := false }

/-- The ring of channel 0 holds 4,096 pending entries, the tag of the oldest stands in its stream's record, and `lineReader` is alone at the arbiter of channel 0. -/
def fullRing : State :=
  updArb 0 (fun x => { x with contest := [lineReader] })
    { updRing 0 (fun r => { r with entries := List.replicate 4096 pendEntry, copyB := [] })
        (setStrm 0 0 { old := [(0, { seq := 0, fp := 0, opc := .sync, tag := some 3 })] }
          (setMan 0 { st := .opened, f := { ports := 15, jshare := 4096, ishare := 256, lat := 1000 } } twoMembers)) with d8 := 800 }

theorem fullRing_oldest : (fullRing.ring lineReader.home).entries.head? = some pendEntry := by
  have entries : (fullRing.ring lineReader.home).entries = List.replicate 4096 pendEntry := rfl
  rw [entries, List.head?_replicate]
  rfl

/-- After the grant of `lineReader` the oldest entry of the ring is one whose DEFER was sent. -/
theorem arbiterContest_fullRing_deferSent :
    (match exec (.arbiterContest (chArb 0) []) fullRing with | .next t => (t.ring 0).entries.head?.map (·.deferSent) | _ => none) = some true := by decide +kernel

/-- Refutes O30: the first clause has every entry of the ring stay as it was, and in a ring with 4,096 entries the grant's DEFER marks the oldest one. -/
theorem not_arbitersGrant : ¬ Obligations.ArbitersGrant := by
  unfold Obligations.ArbitersGrant
  rintro ⟨granted, -⟩
  obtain ⟨t, e, -, ht, -, kept, -⟩ := granted 0 lineReader ⟨0, 5, false⟩ [] fullRing fullRing (by decide +kernel) (by decide +kernel) rfl
    (by unfold settled; decide +kernel) (by decide +kernel) (by decide +kernel) (by decide +kernel) (by decide +kernel) (by decide +kernel) (by decide +kernel)
    rfl rfl rfl (by decide +kernel) (by decide +kernel) (by decide +kernel) (by decide +kernel)
  have sent := arbiterContest_fullRing_deferSent
  rw [ht] at sent
  have oldest : (t.ring 0).entries.head? = some pendEntry :=
    (congrArg List.head? kept).trans (by rw [List.head?_append, fullRing_oldest]; rfl)
  simp only [oldest, Option.map_some] at sent
  exact absurd sent (by decide)

end Sys2Proof.Proofs

/-! PROOF. Intake of one request: the command classifies it, its answer enters response assembly, and its slots leave the intake buffer (02 R57, 03 R86, R88). -/

namespace Sys2Proof.Proofs
open Sys2Proof Sys2Proof.Machine Sys2Proof.Laws

/-! ### Stream records -/

@[simp] theorem setStrm_strm (p : Fin 4) (t : BitVec 12) (x : StreamRec) (s : State) : (setStrm p t x s).strm p t = x := tblGet_tblSet _ _ _ _

theorem strm_congr {s t : State} (h : t.streams = s.streams) (p : Fin 4) (k : BitVec 12) : t.strm p k = s.strm p k := by
  unfold State.strm
  rw [h]

theorem mem_tblCons {α : Type} [DecidableEq α] {d : Nat → α} {k : Nat} {v : α} {r : List (Nat × α)} {e : Nat × α} (h : e ∈ tblCons d k v r) : e = (k, v) ∨ e ∈ r := by
  unfold tblCons at h
  split at h
  · exact .inr h
  · exact List.mem_cons.mp h

/-- An entry of a table after a write is the one written or stood there before. -/
theorem mem_tblSet {α : Type} [DecidableEq α] {d : Nat → α} {k : Nat} {v : α} {l : List (Nat × α)} {e : Nat × α} (h : e ∈ tblSet d l k v) : e = (k, v) ∨ e ∈ l := by
  induction l with
  | nil => exact mem_tblCons h
  | cons a r ih =>
    simp only [tblSet] at h
    split at h
    · exact mem_tblCons h
    · split at h
      · exact (mem_tblCons h).imp_right fun m => List.mem_cons_of_mem _ ((List.dropWhile_sublist _).subset m)
      · rcases List.mem_cons.mp h with e1 | m
        · exact .inr (e1 ▸ List.mem_cons_self)
        · exact (ih m).imp_right (List.mem_cons_of_mem _)

/-- What a key reads is the default or an entry's value. -/
theorem tblGet_cases {α : Type} (d : Nat → α) (l : List (Nat × α)) (k : Nat) : tblGet d l k = d k ∨ ∃ e ∈ l, tblGet d l k = e.2 := by
  induction l with
  | nil => exact .inl rfl
  | cons a r ih =>
    simp only [tblGet]
    split
    · exact .inl rfl
    · split
      · exact .inr ⟨a, List.mem_cons_self, rfl⟩
      · exact ih.imp_right fun ⟨e, m, h⟩ => ⟨e, List.mem_cons_of_mem _ m, h⟩

/-! ### Settled states -/

theorem settled_congr {s t : State} (hs : settled s) (hc : t.caravans = s.caravans) (ht : t.streams = s.streams) : settled t := by
  unfold settled
  rw [hc, ht]
  exact hs

theorem settled_setStrm {s : State} (hs : settled s) (p : Fin 4) (k : BitVec 12) {x : StreamRec} (hx : x.waiting = []) : settled (setStrm p k x s) := by
  refine ⟨hs.1, fun e he => ?_⟩
  rcases mem_tblSet he with rfl | m
  · exact hx
  · exact hs.2 e m

theorem strm_waiting {s : State} (hs : settled s) (p : Fin 4) (k : BitVec 12) : (s.strm p k).waiting = [] := by
  rcases tblGet_cases (fun _ => ({} : StreamRec)) s.streams (strmKey p k) with h | ⟨e, m, h⟩
  · exact congrArg StreamRec.waiting h
  · exact (congrArg StreamRec.waiting h).trans (hs.2 e m)

theorem reapCaravans_nil {s : State} (h : s.caravans = []) : reapCaravans s = s := by
  unfold reapCaravans
  rw [h]
  rfl

theorem readyStream_settled {s : State} (hs : settled s) : readyStream s = none :=
  List.find?_eq_none.mpr fun e m => by simp [hs.2 e m]

/-- In a settled state nothing follows a command. -/
theorem settle_settled {s : State} (hs : settled s) : settle s = s := by
  have drained : ∀ n, drainFuel n s = s := fun n => by
    cases n with
    | zero => rfl
    | succ n => rw [drainFuel, readyStream_settled hs]
  simp only [settle, reapCaravans_nil hs.1, drained, ite_self]

/-! ### The command of a request -/

theorem reqOf_opc (o : Opc) (h : Hdr) (body : List Slot) : (reqOf o h body).opc = o := by cases o <;> rfl
theorem reqOf_hdr (o : Opc) (h : Hdr) (body : List Slot) : (reqOf o h body).hdr = h := by cases o <;> rfl
theorem reqOf_void (o : Opc) (h : Hdr) (body : List Slot) : (reqOf o h body).void = false := by cases o <;> rfl

/-- A request that can be classified is. -/
theorem takeReq_ready {s : State} {p : Fin 4} {r : Req} (h : intakeReady s p r) : takeReq p r false s = settle (classify p r false s) := by
  obtain ⟨runs, free, noSync, here, first, -⟩ := h
  have ahead : ((s.port p).intake.takeWhile fun q => decide (q ≠ r)).filter (fun q => decide (q.hdr.stream = r.hdr.stream)) = [] :=
    List.filter_eq_nil_iff.mpr fun q m => by simpa using first q m
  have asIs : (if (s.port p).intake.contains r then r else if (s.port p).intake.contains { r with void := true } then { r with void := true } else r) = r := by
    rcases here with h | h
    · rw [if_pos h]
    · rw [h]
      exact ite_self _
  simp only [takeReq, asIs, ahead]
  simp [runs, free, noSync]

theorem exec_reqCmd {s : State} {o : Opc} {p : Fin 4} {h : Hdr} {body : List Slot} (hr : intakeReady s p (reqOf o h body)) :
    exec (reqCmd o p h body false) s = .next (settle (classify p (reqOf o h body) false s)) := by
  have taken : exec (reqCmd o p h body false) s = .next (takeReq p (reqOf o h body) false s) := by
    cases o with
    | enq =>
      obtain ⟨-, -, -, -, -, len⟩ := hr
      obtain ⟨pos, le⟩ : 0 < enqBytes h ∧ enqBytes h ≤ 9216 := len rfl
      exact congrArg Host.Outcome.next (if_neg (by omega))
    | _ => rfl
  rw [taken, takeReq_ready hr]

/-! ### Steps that leave memory and ports -/

/-- From `s` to `t` no memory, port or caravan changes, DTIME stands still, and port `p` stays in its training state. -/
structure Quiet (p : Fin 4) (s t : State) : Prop where
  caravans : t.caravans = s.caravans
  ports : t.ports = s.ports
  d8 : t.d8 = s.d8
  dram : t.dram = s.dram
  wmem : t.wmem = s.wmem
  portSt : portSt t p = portSt s p

theorem Quiet.trans {p : Fin 4} {s t u : State} (h : Quiet p s t) (k : Quiet p t u) : Quiet p s u :=
  ⟨k.caravans.trans h.caravans, k.ports.trans h.ports, k.d8.trans h.d8, k.dram.trans h.dram, k.wmem.trans h.wmem, k.portSt.trans h.portSt⟩

theorem quiet_setStrm (p q : Fin 4) (k : BitVec 12) (x : StreamRec) (s : State) : Quiet p s (setStrm q k x s) := ⟨rfl, rfl, rfl, rfl, rfl, rfl⟩

theorem quiet_charge (p : Fin 4) (i n : Nat) (m : Option (BitVec 8)) (s : State) : Quiet p s (charge i n m s) := ⟨rfl, rfl, rfl, rfl, rfl, rfl⟩

theorem HP_lt_TXN (p : Fin 4) {i : Nat} (h : i < 0x1000) : HP p + i < TXN := by
  unfold HP TXN
  omega

/-- A register from TXN on is none of a port's. -/
theorem quiet_rgSet (p : Fin 4) {a : Nat} (h : TXN ≤ a) (w : Word) (s : State) : Quiet p s (rgSet a w s) := by
  refine ⟨rfl, rfl, rfl, rfl, rfl, ?_⟩
  unfold portSt fget
  rw [rg_rgSet_ne]
  exact Nat.ne_of_lt (Nat.lt_of_lt_of_le (HP_lt_TXN p (by decide)) h)

theorem quiet_fbump (p : Fin 4) (f : Fld) (s : State) : Quiet p s (fbump TXN f s) := quiet_rgSet p (Nat.le_add_right _ _) _ s

theorem quiet_emit (p : Fin 4) (h : String) (x : List (String × FVal)) (s : State) : Quiet p s (emit h x s) :=
  ⟨by simp, by simp, by simp, by simp, by simp, fget_emit _ _ _ _ _ (HP_GLB p _ (by decide)) (HP_CON p _ (by decide)) (HP_CON p _ (by decide))⟩

theorem quiet_countRef (p : Fin 4) (code : Nat) (s : State) : Quiet p s (countRef code s) := quiet_fbump p _ s

theorem quiet_lastRef (p q : Fin 4) (k : BitVec 12) (code sub : Nat) (s : State) : Quiet p s (lastRef q k code sub s) := quiet_rgSet p (Nat.le_add_right _ _) _ s

theorem quiet_freezeStream (p : Fin 4) (r : Req) (kind : String) (s : State) : Quiet p s (freezeStream p r kind s) :=
  (quiet_setStrm p p _ _ s).trans (quiet_emit p _ _ _)

theorem freezeStream_strm (p : Fin 4) (r : Req) (kind : String) (s : State) :
    (freezeStream p r kind s).strm p r.hdr.stream = { s.strm p r.hdr.stream with frozen := true } :=
  (strm_congr (emit_streams _ _ _) p _).trans (setStrm_strm _ _ _ _)

/-! ### The answer to a request -/

/-- The slots of request `r` are released and the response `y` enters response assembly (03 R86, R88). -/
def answerReq (p : Fin 4) (r : Req) (y : Resp) (s : State) : State := respond p y (releaseX p r s)

theorem refuseResp_eq {r : Req} (hv : r.void = false) (p : Fin 4) (code info sub : Nat) (s : State) :
    refuseResp p r code info sub false s = answerReq p r (refusal r (BitVec.ofNat 4 code) info) (lastRef p r.hdr.stream code sub (countRef code s)) :=
  if_neg (by simp [hv])

theorem respondDup_eq {r : Req} (hv : r.void = false) (p : Fin 4) (y : Resp) (s : State) :
    respondDup p r y s = answerReq p r { y with tag := r.hdr.tag, dup := true, man := none } s :=
  if_neg (by simp [hv])

/-- What an answer leaves: everything but the port's record and its registers of credits and NAKs, the console's bytes and the energy. -/
theorem answerReq_inv {β : Type} (g : State → β) (p : Fin 4) (r : Req) (y : Resp) (s : State)
    (h1 : ∀ f v z, f.off = HP_CRED_NOW_CRX.off → g (fset (HP p) f v z) = g z) (h2 : ∀ i n m z, g (charge i n m z) = g z)
    (h3 : ∀ c z, g { z with con := c } = g z) (h4 : ∀ f z, g (updPort p f z) = g z) (h5 : ∀ z, g (fbump (HP p) HP_NAK_TX_COUNT z) = g z) :
    g (answerReq p r y s) = g s := by
  have released : g (releaseX p r s) = g s := by
    unfold releaseX
    split
    · exact h4 _ _
    · rfl
  exact (pump_spec g p _ h1 h2 h3 h4 h5).trans ((h4 _ _).trans released)

@[simp] theorem answerReq_streams (p : Fin 4) (r : Req) (y : Resp) (s : State) : (answerReq p r y s).streams = s.streams :=
  answerReq_inv (·.streams) p r y s (by simp) (by simp) (by simp) (by simp) (by simp)

/-- An answer writes no register from TXN on. -/
theorem fget_answerReq (p : Fin 4) (r : Req) (y : Resp) (s : State) (f : Fld) : fget (answerReq p r y s) TXN f = fget s TXN f := by
  have apart : ∀ g : Fld, g.off < 0x1000 → TXN + f.off ≠ HP p + g.off := fun g h =>
    Nat.ne_of_gt (Nat.lt_of_lt_of_le (HP_lt_TXN p h) (Nat.le_add_right _ _))
  refine answerReq_inv (fun z => fget z TXN f) p r y s ?_ ?_ ?_ ?_ ?_
  · exact fun g v z hg => fget_fset_ne _ _ _ _ _ _ (apart g (hg ▸ by decide))
  · exact fun i n m z => fget_congr (charge_regs i n m z) _ _
  · exact fun c z => rfl
  · exact fun g z => fget_congr (updPort_regs p g z) _ _
  · exact fun z => fget_fbump_ne _ _ _ _ _ (apart _ (by decide))

/-- From `s` to `t` request `r` of port `p` has been answered with `y`; memory and DTIME stand. -/
structure Answered (p : Fin 4) (r : Req) (y : Resp) (s t : State) : Prop where
  caravans : t.caravans = s.caravans
  d8 : t.d8 = s.d8
  dram : t.dram = s.dram
  wmem : t.wmem = s.wmem
  intake : (t.port p).intake = (s.port p).intake.erase r
  rab : portSt s p ≠ PORT_ACTIVE → (t.port p).rab = (s.port p).rab ++ [y]

theorem Answered.of_quiet {p : Fin 4} {r : Req} {y : Resp} {s t u : State} (q : Quiet p s t) (a : Answered p r y t u) : Answered p r y s u where
  caravans := a.caravans.trans q.caravans
  d8 := a.d8.trans q.d8
  dram := a.dram.trans q.dram
  wmem := a.wmem.trans q.wmem
  intake := by rw [a.intake, port_congr q.ports]
  rab := fun h => by rw [a.rab (q.portSt ▸ h), port_congr q.ports]

theorem Answered.setStrm {p : Fin 4} {r : Req} {y : Resp} {s t : State} (a : Answered p r y s t) (k : BitVec 12) (x : StreamRec) :
    Answered p r y s (setStrm p k x t) := ⟨a.caravans, a.d8, a.dram, a.wmem, a.intake, a.rab⟩

theorem releaseX_port (p : Fin 4) (r : Req) (s : State) :
    ((releaseX p r s).port p).intake = (s.port p).intake.erase r ∧ ((releaseX p r s).port p).rab = (s.port p).rab ∧ portSt (releaseX p r s) p = portSt s p := by
  unfold releaseX
  split
  next h => exact ⟨by rw [updPort_port], by rw [updPort_port], rfl⟩
  next h => exact ⟨(List.erase_of_not_mem (by simpa using h)).symm, rfl, rfl⟩

/-- Sending takes nothing from the intake buffer. -/
theorem pump_intake (p : Fin 4) (s : State) : ((pump p s).port p).intake = (s.port p).intake := by
  have sent : ∀ ft b x z, ((sendFlit p ft b x z).port p).intake = (z.port p).intake := fun ft b x z =>
    sendFlit_port (·.intake) p p ft b x z fun _ _ _ _ => rfl
  have same : ∀ {z z' : State}, z'.ports = z.ports → (z'.port p).intake = (z.port p).intake := fun h => congrArg PortState.intake (port_congr h p)
  unfold pump
  extract_lets ps room ts nT nC cs xs nX slots flits c1 c2 c3 ps' s1 con y z w
  split
  · exact same (fset_ports _ _ _ _)
  · split
    · exact (sent _ _ _ _).trans (same (fset_ports _ _ _ _))
    · split
      · exact (sent _ _ _ _).trans (same (fset_ports _ _ _ _))
      · have packed : (y.port p).intake = (s.port p).intake := by
          change ((updPort p (fun _ => ps') s).port p).intake = _
          rw [updPort_port]
        have charged : z.ports = y.ports := forAll_inv (·.ports) _ _ _ fun _ _ => charge_ports _ _ _ _
        have shown : (showRab p (fset (HP p) HP_CRED_NOW_CRX (creditsOf (fget w (HP p) HP_CRED_PEER_ADVX) ps'.crX) w)).ports = y.ports :=
          (fset_ports _ _ _ _).trans ((fset_ports _ _ _ _).trans ((charge_ports _ _ _ _).trans charged))
        exact (forAll_inv (fun u => (u.port p).intake) _ _ _ fun _ _ => sent _ _ _ _).trans ((same shown).trans packed)

/-- A port that is not ACTIVE keeps what response assembly holds. -/
theorem pump_rab {p : Fin 4} {s : State} (h : portSt s p ≠ PORT_ACTIVE) : ((pump p s).port p).rab = (s.port p).rab := by
  unfold pump
  rw [if_pos (.inl h)]
  exact congrArg PortState.rab (port_congr (fset_ports _ _ _ _) p)

theorem answered_answerReq (p : Fin 4) (r : Req) (y : Resp) (s : State) : Answered p r y s (answerReq p r y s) := by
  obtain ⟨intake, rab, st⟩ := releaseX_port p r s
  refine ⟨?_, ?_, ?_, ?_, ?_, fun h => ?_⟩
  · exact answerReq_inv (·.caravans) p r y s (by simp) (by simp) (by simp) (by simp) (by simp)
  · exact answerReq_inv (·.d8) p r y s (by simp) (by simp) (by simp) (by simp) (by simp)
  · exact answerReq_inv (·.dram) p r y s (by simp) (by simp) (by simp) (by simp) (by simp)
  · exact answerReq_inv (·.wmem) p r y s (by simp) (by simp) (by simp) (by simp) (by simp)
  · unfold answerReq respond assemble
    rw [pump_intake, updPort_port]
    exact intake
  · unfold answerReq respond
    have idle : portSt (assemble p y (releaseX p r s)) p ≠ PORT_ACTIVE := st.trans_ne h
    refine (pump_rab idle).trans ?_
    unfold assemble
    rw [updPort_port]
    exact congrArg (· ++ [y]) rab

end Sys2Proof.Proofs

/-! PROOF. Refusals at classification (01 R24, R28, 02 R57, 04 R123, R125). -/

namespace Sys2Proof.Proofs
open Sys2Proof Sys2Proof.Machine Sys2Proof.Laws

/-! ### A refusal -/

section
variable {p : Fin 4} {r : Req} {code info sub : Nat} {s z : State} (hv : r.void = false)
include hv

theorem refuseResp_streams : (refuseResp p r code info sub false s).streams = s.streams := by
  rw [refuseResp_eq hv]
  exact answerReq_streams _ _ _ _

theorem refuseResp_strm (k : BitVec 12) : (refuseResp p r code info sub false s).strm p k = s.strm p k := strm_congr (refuseResp_streams hv) p k

theorem answered_refuseResp : Answered p r (refusal r (BitVec.ofNat 4 code) info) s (refuseResp p r code info sub false s) := by
  rw [refuseResp_eq hv]
  exact (answered_answerReq _ _ _ _).of_quiet ((quiet_countRef p code s).trans (quiet_lastRef p p _ _ _ _))

theorem settled_refuseResp (hs : settled s) : settled (refuseResp p r code info sub false s) :=
  settled_congr hs (answered_refuseResp hv).caravans (refuseResp_streams hv)

/-- A refusal is counted under its code (04 R137). -/
theorem fget_refuseResp_count (hc : code ≤ 8) :
    fget (refuseResp p r code info sub false s) TXN (TXN_REF_CNT_COUNT.nth (code - 1)) = min (fget s TXN (TXN_REF_CNT_COUNT.nth (code - 1)) + 1) (2 ^ 32 - 1) := by
  have apart : TXN + (TXN_REF_CNT_COUNT.nth (code - 1)).off ≠ TXN + TXN_LASTREF_CODE.off := by
    simp only [Fld.nth, TXN_REF_CNT_COUNT, TXN_LASTREF_CODE]
    omega
  rw [refuseResp_eq hv, fget_answerReq]
  refine Eq.trans ?_ (fget_fbump TXN (TXN_REF_CNT_COUNT.nth (code - 1)) s (by simp [Fld.nth, TXN_REF_CNT_COUNT]))
  unfold lastRef fget
  rw [rg_rgSet_ne _ _ _ _ apart]
  rfl

theorem refuseNew_strm : (refuseNew p r code info sub s).strm p r.hdr.stream = clearedStrm (s.strm p r.hdr.stream) :=
  (refuseResp_strm hv _).trans (setStrm_strm _ _ _ _)

theorem answered_refuseNew : Answered p r (refusal r (BitVec.ofNat 4 code) info) s (refuseNew p r code info sub s) :=
  (answered_refuseResp hv).of_quiet (quiet_setStrm p p _ _ s)

theorem settled_refuseNew (hs : settled s) : settled (refuseNew p r code info sub s) :=
  settled_refuseResp hv (settled_setStrm hs p _ (strm_waiting hs p _))

theorem fget_refuseNew_count (hc : code ≤ 8) :
    fget (refuseNew p r code info sub s) TXN (TXN_REF_CNT_COUNT.nth (code - 1)) = min (fget s TXN (TXN_REF_CNT_COUNT.nth (code - 1)) + 1) (2 ^ 32 - 1) :=
  fget_refuseResp_count hv hc

end

/-! ### Before and after classification -/

/-- The state in which a request is classified: its intake is charged and its stream is between classification and grant. -/
def taken (p : Fin 4) (r : Req) (s : State) : State :=
  setStrm p r.hdr.stream { s.strm p r.hdr.stream with busy := true } (charge 0x07 1 (intakeMan s (s.strm p r.hdr.stream) r.hdr) s)

/-- The stream can classify its next request. -/
def freed (p : Fin 4) (k : BitVec 12) (s : State) : State := setStrm p k { s.strm p k with busy := false } s

theorem taken_strm (p : Fin 4) (r : Req) (s : State) : (taken p r s).strm p r.hdr.stream = { s.strm p r.hdr.stream with busy := true } := setStrm_strm _ _ _ _

theorem freed_strm (p : Fin 4) (k : BitVec 12) (s : State) : (freed p k s).strm p k = { s.strm p k with busy := false } := setStrm_strm _ _ _ _

theorem quiet_taken (p : Fin 4) (r : Req) (s : State) : Quiet p s (taken p r s) := (quiet_charge p _ _ _ s).trans (quiet_setStrm p p _ _ _)

theorem settled_taken {s : State} (hs : settled s) (p : Fin 4) (r : Req) : settled (taken p r s) :=
  settled_setStrm (settled_congr hs rfl rfl) p _ (strm_waiting hs p _)

theorem settled_freed {s : State} (hs : settled s) (p : Fin 4) (k : BitVec 12) : settled (freed p k s) := settled_setStrm hs p k (strm_waiting hs p k)

/-- The record of an idle stream is as it was once its request has come and gone. -/
theorem busy_undone {x : StreamRec} (h : x.busy = false) : { ({ x with busy := true } : StreamRec) with busy := false } = x := by
  cases x
  cases h
  rfl

/-! ### The branches of classification -/

section
variable {p : Fin 4} {r : Req} {s : State} {x : StreamRec} (hx : s.strm p r.hdr.stream = x)
include hx

theorem classify_frozen (hf : x.frozen = true) (hu : x.ue = false) :
    classify p r false s = freed p r.hdr.stream (refuseAt p r 6 (conflictInfo 2 x.n) 2 (taken p r s)) := by
  subst hx
  exact (if_pos hf).trans (if_neg (Bool.eq_false_iff.mp hu))

theorem classify_new (hf : x.frozen = false) (hq : r.hdr.seq = x.n) : classify p r false s = intakeNew p r (taken p r s) := by
  subst hx
  have same : (r.hdr.seq - (s.strm p r.hdr.stream).n).toNat = 0 := by rw [hq, BitVec.sub_self, BitVec.toNat_zero]
  exact (if_neg (Bool.eq_false_iff.mp hf)).trans (if_pos same)

theorem classify_gap (hf : x.frozen = false) (hq : r.hdr.seq ≠ x.n) (hd : (r.hdr.seq - x.n).toNat < 32768) :
    classify p r false s = freed p r.hdr.stream (refuseResp p r 3 x.n.toNat 0 false (taken p r s)) := by
  subst hx
  have ahead : (r.hdr.seq - (s.strm p r.hdr.stream).n).toNat ≠ 0 := fun h => hq (by bv_omega)
  exact (if_neg (Bool.eq_false_iff.mp hf)).trans ((if_neg ahead).trans (if_pos hd))

theorem classify_stale (hf : x.frozen = false) (hd : 32768 ≤ (r.hdr.seq - x.n).toNat) (hl : (r.hdr.seq - x.n).toNat < 65504) :
    classify p r false s = freed p r.hdr.stream (refuseResp p r 6 (conflictInfo 1 x.n) 1 false (freezeStream p r "stale" (taken p r s))) := by
  subst hx
  have behind : (r.hdr.seq - (s.strm p r.hdr.stream).n).toNat ≠ 0 := by omega
  exact (if_neg (Bool.eq_false_iff.mp hf)).trans ((if_neg behind).trans ((if_neg (Nat.not_lt.mpr hd)).trans (if_pos hl)))

/-- A number among the last 32 accepted is looked up in the window. -/
theorem classify_window (hf : x.frozen = false) (hd : 65504 ≤ (r.hdr.seq - x.n).toNat) :
    classify p r false s = match winSlot x r.hdr.seq with
      | none => freed p r.hdr.stream (refuseResp p r 6 (conflictInfo 1 x.n) 1 false (freezeStream p r "stale" (taken p r s)))
      | some w =>
        if w.fp ≠ fingerprint r then freed p r.hdr.stream (refuseResp p r 6 (conflictInfo 0 x.n) 0 false (freezeStream p r "content" (taken p r s)))
        else match w.fin with
          | some f => freed p r.hdr.stream (dupDone p r w f (taken p r s))
          | none => freed p r.hdr.stream (dupAccept p r w (taken p r s)) := by
  subst hx
  have behind : (r.hdr.seq - (s.strm p r.hdr.stream).n).toNat ≠ 0 := by omega
  have old : ¬ (r.hdr.seq - (s.strm p r.hdr.stream).n).toNat < 32768 := by omega
  exact (if_neg (Bool.eq_false_iff.mp hf)).trans ((if_neg behind).trans ((if_neg old).trans (if_neg (Nat.not_lt.mpr hd))))

end

/-! ### The refusals of a New request -/

/-- The cells that a DEQ takes rest on the queues alone. -/
theorem takeCells_congr {s t : State} (h : t.que = s.que) : takeCells t = takeCells s := by
  have recs : t.brec = s.brec := by
    funext b
    unfold State.brec
    rw [h]
  funext fuel
  induction fuel with
  | zero => rfl
  | succ n ih =>
    funext b c left
    rw [takeCells, takeCells, ih, recs]

/-- `s` with other stream records and another ledger. -/
def relisted (l : LedState) (m : List (Nat × StreamRec)) (s : State) : State := { s with led := l, streams := m }

section
variable (l : LedState) (m : List (Nat × StreamRec)) (s : State)

theorem virtualQd_relisted (q : Nat) : virtualQd (relisted l m s) q = virtualQd s q := by
  unfold virtualQd virtualQdTo deqCells
  rw [takeCells_congr (s := s) (t := relisted l m s) rfl]
  rfl

theorem poolShort_relisted (r : Req) : poolShort (relisted l m s) r = poolShort s r := by
  unfold poolShort
  rw [virtualQd_relisted]
  rfl

theorem quotaRes_relisted (p : Fin 4) (r : Req) : quotaRes (relisted l m s) p r = quotaRes s p r := by
  unfold quotaRes
  rw [virtualQd_relisted, poolShort_relisted]
  rfl

theorem stateWhy_relisted : stateWhy (relisted l m s) = stateWhy s := rfl

theorem stepFault_relisted (r : Req) : stepFault (relisted l m s) r = stepFault s r := rfl

end

theorem taken_relisted (p : Fin 4) (r : Req) (s : State) : ∃ l m, taken p r s = relisted l m s := ⟨_, _, rfl⟩

theorem stateWhy_taken (p : Fin 4) (r : Req) (s : State) : stateWhy (taken p r s) = stateWhy s := by
  obtain ⟨l, m, h⟩ := taken_relisted p r s
  rw [h, stateWhy_relisted]

theorem quotaRes_taken (p : Fin 4) (r : Req) (s : State) : quotaRes (taken p r s) p r = quotaRes s p r := by
  obtain ⟨l, m, h⟩ := taken_relisted p r s
  rw [h, quotaRes_relisted]

theorem stepFault_taken (p : Fin 4) (r : Req) (s : State) : stepFault (taken p r s) r = stepFault s r := by
  obtain ⟨l, m, h⟩ := taken_relisted p r s
  rw [h, stepFault_relisted]

section
variable {p : Fin 4} {r : Req} {z : State}

theorem intakeNew_state {w : Nat} (hw : stateWhy z = some w) : intakeNew p r z = refuseNew p r 4 w w z := by
  simp only [intakeNew, hw]

theorem intakeNew_quota {res : Nat} (ho : r.opc ≠ .sync) (hw : stateWhy z = none) (ht : (z.strm p r.hdr.stream).retryAt = none) (hq : quotaRes z p r = some res) :
    intakeNew p r z = refuseNew p r 2 res res (onlyIf (decide (res = 4) && poolShort z r) reportShort z) := by
  unfold intakeNew
  extract_lets t x
  rw [hw]
  refine (if_neg (show ¬ (x.retryAt.any fun a => decide (t < a)) = true by simp [x, ht])).trans ?_
  generalize deadlineOf t r.hdr.deadline = dl
  obtain ⟨d, late⟩ := dl
  refine (if_neg ho).trans ?_
  rw [hq]

theorem intakeNew_fault {f : Nat × Nat} (ho : r.opc ≠ .sync) (hw : stateWhy z = none) (ht : (z.strm p r.hdr.stream).retryAt = none) (hq : quotaRes z p r = none)
    (hf : stepFault z r = some f) : intakeNew p r z = refuseNew p r 5 (f.1 + f.2 * 16) f.1 z := by
  unfold intakeNew
  extract_lets t x
  rw [hw]
  refine (if_neg (show ¬ (x.retryAt.any fun a => decide (t < a)) = true by simp [x, ht])).trans ?_
  generalize deadlineOf t r.hdr.deadline = dl
  obtain ⟨d, late⟩ := dl
  refine (if_neg ho).trans ?_
  rw [hq, hf]

end

/-- The report of a short pool (08 R255) touches neither memory nor stream. -/
theorem quiet_reportShort (p : Fin 4) (s : State) : Quiet p s (reportShort s) := by
  unfold reportShort
  split
  · exact ⟨rfl, rfl, rfl, rfl, rfl, rfl⟩
  · exact Quiet.trans (t := { s with que := { s.que with shortSent := true } }) ⟨rfl, rfl, rfl, rfl, rfl, rfl⟩ (quiet_emit p _ _ _)

theorem reportShort_streams (s : State) : (reportShort s).streams = s.streams := by
  unfold reportShort
  split
  · rfl
  · exact emit_streams _ _ _

theorem fget_emit_TXN (f : Fld) (h : String) (y : List (String × FVal)) (s : State) : fget (emit h y s) TXN f = fget s TXN f := by
  refine fget_emit _ _ _ _ _ ?_ ?_ ?_
  all_goals
    simp only [TXN, GLB, CON, CON_STATUS_EV_LOST, CON_EVLOST_COUNT]
    omega

theorem fget_reportShort (f : Fld) (s : State) : fget (reportShort s) TXN f = fget s TXN f := by
  unfold reportShort
  split
  · rfl
  · exact (fget_emit_TXN _ _ _ _).trans rfl

/-! ### The command -/

/-- A command whose classification ends settled ends there. -/
theorem exec_classified {o : Opc} {p : Fin 4} {h : Hdr} {body : List Slot} {s t : State} (hr : intakeReady s p (reqOf o h body))
    (ht : classify p (reqOf o h body) false s = t) (hs : settled t) : exec (reqCmd o p h body false) s = .next t := by
  rw [exec_reqCmd hr, ht, settle_settled hs]

/-- On the way from `s` to a refusal: memory, ports and the registers of transactions stand, and the state is settled. -/
structure Pending (p : Fin 4) (s z : State) : Prop where
  quiet : Quiet p s z
  settled : settled z
  counts : ∀ f, fget z TXN f = fget s TXN f

theorem pending_taken {s : State} (hs : settled s) (p : Fin 4) (r : Req) : Pending p s (taken p r s) := ⟨quiet_taken p r s, settled_taken hs p r, fun _ => rfl⟩

theorem pending_freeze {p : Fin 4} {s z : State} (h : Pending p s z) (r : Req) (kind : String) : Pending p s (freezeStream p r kind z) where
  quiet := h.quiet.trans (quiet_freezeStream p r kind z)
  settled := settled_congr (settled_setStrm h.settled p r.hdr.stream (x := { z.strm p r.hdr.stream with frozen := true }) (strm_waiting h.settled p _))
    (quiet_emit p _ _ _).caravans (emit_streams _ _ _)
  counts := fun f => (fget_emit_TXN f _ _ _).trans (h.counts f)

theorem pending_reportShort {p : Fin 4} {s z : State} (h : Pending p s z) : Pending p s (reportShort z) where
  quiet := h.quiet.trans (quiet_reportShort p z)
  settled := settled_congr h.settled (quiet_reportShort p z).caravans (reportShort_streams z)
  counts := fun f => (fget_reportShort f z).trans (h.counts f)

/-- Request `r` has been refused with a code and INFO, its stream's record is `x`, and the refusal is counted. -/
structure Refused (p : Fin 4) (r : Req) (code info : Nat) (x : StreamRec) (s t : State) : Prop where
  settled : settled t
  strm : t.strm p r.hdr.stream = x
  answered : Answered p r (refusal r (BitVec.ofNat 4 code) info) s t
  count : fget t TXN (TXN_REF_CNT_COUNT.nth (code - 1)) = min (fget s TXN (TXN_REF_CNT_COUNT.nth (code - 1)) + 1) (2 ^ 32 - 1)

section
variable {p : Fin 4} {r : Req} {s z : State} (hv : r.void = false) (h : Pending p s z)
include hv h

theorem refused_new (code info sub : Nat) (hc : code ≤ 8) : Refused p r code info (clearedStrm (z.strm p r.hdr.stream)) s (refuseNew p r code info sub z) where
  settled := settled_refuseNew hv h.settled
  strm := refuseNew_strm hv
  answered := (answered_refuseNew hv).of_quiet h.quiet
  count := by rw [fget_refuseNew_count hv hc, h.counts]

theorem refused_resp (code info sub : Nat) (hc : code ≤ 8) : Refused p r code info (z.strm p r.hdr.stream) s (refuseResp p r code info sub false z) where
  settled := settled_refuseResp hv h.settled
  strm := refuseResp_strm hv _
  answered := (answered_refuseResp hv).of_quiet h.quiet
  count := by rw [fget_refuseResp_count hv hc, h.counts]

end

theorem Refused.freed {p : Fin 4} {r : Req} {code info : Nat} {x : StreamRec} {s t : State} (h : Refused p r code info x s t) :
    Refused p r code info { x with busy := false } s (freed p r.hdr.stream t) where
  settled := settled_freed h.settled p _
  strm := by rw [freed_strm, h.strm]
  answered := h.answered.setStrm _ _
  count := h.count

/-- A refusal of a New request clears the loss count of its stream (04 R125). -/
theorem refused_cleared {p : Fin 4} {r : Req} {s z : State} {x : StreamRec} (hv : r.void = false) (hx : s.strm p r.hdr.stream = x) (hz : Pending p s z)
    (hr : z.streams = (taken p r s).streams) (code info sub : Nat) (hc : code ≤ 8) : Refused p r code info (clearedStrm x) s (refuseNew p r code info sub z) := by
  have new := refused_new hv hz code info sub hc
  rw [strm_congr hr, taken_strm, hx] at new
  exact new

theorem taken_retryAt {p : Fin 4} {r : Req} {s : State} {x : StreamRec} (hx : s.strm p r.hdr.stream = x) (ht : x.retryAt = none) :
    ((taken p r s).strm p r.hdr.stream).retryAt = none := by
  rw [taken_strm, hx]
  exact ht

/-! ### One refusal for each branch -/

section
variable {p : Fin 4} {r : Req} {s : State} {x : StreamRec} (hv : r.void = false) (hs : settled s) (hx : s.strm p r.hdr.stream = x)
include hv hs hx

theorem refused_frozen (idle : x.busy = false) (hf : x.frozen = true) (hu : x.ue = false) :
    Refused p r 6 (conflictInfo 2 x.n) (if r.hdr.seq = x.n then clearedStrm x else x) s (classify p r false s) := by
  have record := taken_strm p r s
  rw [hx] at record
  rw [classify_frozen hx hf hu]
  unfold refuseAt
  rw [record]
  split
  · have new := (refused_new hv (pending_taken hs p r) 6 (conflictInfo 2 x.n) 2 (by decide)).freed
    rw [record] at new
    exact new
  · have old := (refused_resp hv (pending_taken hs p r) 6 (conflictInfo 2 x.n) 2 (by decide)).freed
    rw [record, busy_undone idle] at old
    exact old

theorem refused_gap (idle : x.busy = false) (hf : x.frozen = false) (hq : r.hdr.seq ≠ x.n) (hd : (r.hdr.seq - x.n).toNat < 32768) :
    Refused p r 3 x.n.toNat x s (classify p r false s) := by
  have gap := (refused_resp hv (pending_taken hs p r) 3 x.n.toNat 0 (by decide)).freed
  rw [taken_strm, hx, busy_undone idle] at gap
  rw [classify_gap hx hf hq hd]
  exact gap

/-- A refusal that freezes the stream. -/
theorem refused_freeze (idle : x.busy = false) (kind : String) (info sub : Nat) :
    Refused p r 6 info { x with frozen := true } s (freed p r.hdr.stream (refuseResp p r 6 info sub false (freezeStream p r kind (taken p r s)))) := by
  have frozen := (refused_resp hv (pending_freeze (pending_taken hs p r) r kind) 6 info sub (by decide)).freed
  rw [freezeStream_strm, taken_strm, hx] at frozen
  exact (congrArg (fun y : StreamRec => Refused p r 6 info { y with frozen := true } s _) (busy_undone idle)).mp frozen

theorem refused_stale (idle : x.busy = false) (hf : x.frozen = false) (hd : 32768 ≤ (r.hdr.seq - x.n).toNat) (hl : (r.hdr.seq - x.n).toNat < 65504) :
    Refused p r 6 (conflictInfo 1 x.n) { x with frozen := true } s (classify p r false s) := by
  rw [classify_stale hx hf hd hl]
  exact refused_freeze hv hs hx idle _ _ _

theorem refused_state {w : Nat} (hf : x.frozen = false) (hq : r.hdr.seq = x.n) (hw : stateWhy s = some w) :
    Refused p r 4 w (clearedStrm x) s (classify p r false s) := by
  rw [classify_new hx hf hq, intakeNew_state ((stateWhy_taken p r s).trans hw)]
  exact refused_cleared hv hx (pending_taken hs p r) rfl 4 w w (by decide)

theorem refused_quota {res : Nat} (ho : r.opc ≠ .sync) (hf : x.frozen = false) (hq : r.hdr.seq = x.n) (hw : stateWhy s = none) (ht : x.retryAt = none)
    (hr : quotaRes s p r = some res) : Refused p r 2 res (clearedStrm x) s (classify p r false s) := by
  have taken := pending_taken hs p r
  rw [classify_new hx hf hq, intakeNew_quota ho ((stateWhy_taken p r s).trans hw) (taken_retryAt hx ht) ((quotaRes_taken p r s).trans hr)]
  unfold onlyIf
  split
  · exact refused_cleared hv hx (pending_reportShort taken) (reportShort_streams _) 2 res res (by decide)
  · exact refused_cleared hv hx taken rfl 2 res res (by decide)

theorem refused_fault {f : Nat × Nat} (ho : r.opc ≠ .sync) (hf : x.frozen = false) (hq : r.hdr.seq = x.n) (hw : stateWhy s = none) (ht : x.retryAt = none)
    (hr : quotaRes s p r = none) (he : stepFault s r = some f) : Refused p r 5 (f.1 + f.2 * 16) (clearedStrm x) s (classify p r false s) := by
  rw [classify_new hx hf hq, intakeNew_fault ho ((stateWhy_taken p r s).trans hw) (taken_retryAt hx ht) ((quotaRes_taken p r s).trans hr)
    ((stepFault_taken p r s).trans he)]
  exact refused_cleared hv hx (pending_taken hs p r) rfl 5 _ _ (by decide)

end

/-- What a command that ends in a refusal leaves. -/
theorem refused_next {p : Fin 4} {r : Req} {code info : Nat} {x : StreamRec} {s t : State} {out : Host.Outcome State Fault Refusal} (k : Refused p r code info x s t)
    (run : settled t → out = .next t) :
    ∃ t, out = .next t ∧ t.strm p r.hdr.stream = x
      ∧ (portSt s p ≠ PORT_ACTIVE → (t.port p).rab = (s.port p).rab ++ [refusal r (BitVec.ofNat 4 code) info])
      ∧ fget t TXN (TXN_REF_CNT_COUNT.nth (code - 1)) = min (fget s TXN (TXN_REF_CNT_COUNT.nth (code - 1)) + 1) (2 ^ 32 - 1)
      ∧ (t.port p).intake = (s.port p).intake.erase r ∧ t.d8 = s.d8 ∧ t.dram = s.dram ∧ t.wmem = s.wmem :=
  ⟨t, run k.settled, k.strm, k.answered.rab, k.count, k.answered.intake, k.answered.d8, k.answered.dram, k.answered.wmem⟩

/-- The same where the count of the refusals of its code is left out. -/
theorem refused_next_uncounted {p : Fin 4} {r : Req} {code info : Nat} {x : StreamRec} {s t : State} {out : Host.Outcome State Fault Refusal}
    (k : Refused p r code info x s t) (run : settled t → out = .next t) :
    ∃ t, out = .next t ∧ t.strm p r.hdr.stream = x
      ∧ (portSt s p ≠ PORT_ACTIVE → (t.port p).rab = (s.port p).rab ++ [refusal r (BitVec.ofNat 4 code) info])
      ∧ (t.port p).intake = (s.port p).intake.erase r ∧ t.d8 = s.d8 ∧ t.dram = s.dram ∧ t.wmem = s.wmem := by
  obtain ⟨t, ht, strm, rab, -, rest⟩ := refused_next k run
  exact ⟨t, ht, strm, rab, rest⟩

/-- Settles O27: each branch of classification that refuses gives its own refusal. -/
theorem requestsRefused : Obligations.RequestsRefused := by
  unfold Obligations.RequestsRefused
  intro o p h body s x hr hs hx
  have run := exec_classified hr rfl
  have hv := reqOf_void o h body
  have hh := reqOf_hdr o h body
  have ho := reqOf_opc o h body
  generalize reqOf o h body = r at *
  generalize exec (reqCmd o p h body false) s = out at *
  subst hh ho
  have idle : x.busy = false := hx ▸ hr.2.1
  refine ⟨fun hf hu => ?_, fun hf hq hd => ?_, fun hf hd hl => ?_, fun w hf hq hw => ?_, fun res no hf hq hw ht quota => ?_, fun f no hf hq hw ht quota fault => ?_⟩
  · exact refused_next (refused_frozen hv hs hx idle hf hu) run
  · exact refused_next (refused_gap hv hs hx idle hf hq hd) run
  · exact refused_next_uncounted (refused_stale hv hs hx idle hf hd hl) run
  · exact refused_next (refused_state hv hs hx hf hq hw) run
  · exact refused_next (refused_quota hv hs hx no hf hq hw ht quota) run
  · exact refused_next_uncounted (refused_fault hv hs hx no hf hq hw ht quota fault) run

end Sys2Proof.Proofs

/-! PROOF. Reissues answered from the stream's window (01 R25, R28, R29, 04 R114). -/

namespace Sys2Proof.Proofs
open Sys2Proof Sys2Proof.Machine Sys2Proof.Laws

/-! ### A reissue of a request without an outcome -/

theorem quiet_retag (p q : Fin 4) (k : BitVec 12) (seq : BitVec 16) (tag : BitVec 12) (s : State) : Quiet p s (retag q k seq tag s) := ⟨rfl, rfl, rfl, rfl, rfl, rfl⟩

/-- The window slot of a reissue takes its tag. -/
def retagged (h : Hdr) (x : StreamRec) : StreamRec := updWin x h.seq fun w => { w with tag := some h.tag, dup := true }

/-- The ACCEPT of a reissue, marked DUP (01 R25). -/
def dupAcceptance (r : Req) (w : WinSlot) : Resp := ⟨0, r.hdr.tag, r.hdr.stream, r.hdr.seq, BitVec.ofNat 4 r.opc.code, true, false, 0, w.acc, [], none⟩

/-- The record and the journal take the reissue's tag, and the reissue is counted. -/
def dupTagged (p : Fin 4) (r : Req) (z : State) : State :=
  fbump TXN TXN_DUPSTAT_DUP_ACC (retag p r.hdr.stream r.hdr.seq r.hdr.tag (setStrm p r.hdr.stream (retagged r.hdr (z.strm p r.hdr.stream)) z))

theorem quiet_dupTagged (p : Fin 4) (r : Req) (z : State) : Quiet p z (dupTagged p r z) :=
  (quiet_setStrm p p _ _ z).trans ((quiet_retag p p _ _ _ _).trans (quiet_fbump p _ _))

theorem dupTagged_strm (p : Fin 4) (r : Req) (z : State) : (dupTagged p r z).strm p r.hdr.stream = retagged r.hdr (z.strm p r.hdr.stream) := setStrm_strm _ _ _ _

theorem settled_dupTagged {z : State} (hz : settled z) (p : Fin 4) (r : Req) : settled (dupTagged p r z) :=
  settled_congr (settled_setStrm hz p r.hdr.stream (x := retagged r.hdr (z.strm p r.hdr.stream)) (strm_waiting hz p _)) rfl rfl

theorem fget_dupTagged (p : Fin 4) (r : Req) (z : State) :
    fget (dupTagged p r z) TXN TXN_DUPSTAT_DUP_ACC = min (fget z TXN TXN_DUPSTAT_DUP_ACC + 1) (2 ^ TXN_DUPSTAT_DUP_ACC.width - 1) :=
  fget_fbump TXN TXN_DUPSTAT_DUP_ACC _ (by decide)

theorem dupAccept_eq {r : Req} (hv : r.void = false) (p : Fin 4) (w : WinSlot) (z : State) :
    dupAccept p r w z = answerReq p r (dupAcceptance r w) (dupTagged p r z) := by
  unfold dupAccept
  rw [hv]
  exact respondDup_eq hv _ _ _

/-! ### A reissue of a request with its outcome -/

theorem voidRuns_caravans {s : State} (h : s.caravans = []) (p : Fin 4) (k : BitVec 12) (seq : BitVec 16) (id : Nat) : (voidRuns p k seq id s).caravans = [] := by
  unfold voidRuns
  rw [h]
  rfl

/-- With no caravan to void, voiding touches the runs of queues alone. -/
theorem quiet_voidRuns {p : Fin 4} {s : State} (h : s.caravans = []) (q : Fin 4) (k : BitVec 12) (seq : BitVec 16) (id : Nat) : Quiet p s (voidRuns q k seq id s) :=
  ⟨(voidRuns_caravans h q k seq id).trans h.symm, rfl, rfl, rfl, rfl, rfl⟩

/-- A final response marked DUP, without a manifest and on the reissue's own tag is what the reissue is answered with. -/
theorem finalResp_dup (o : Opc) (t k : BitVec 12) (seq : BitVec 16) (f : Final) (data : List Slot) :
    { finalResp o t k seq true none f data with tag := t, dup := true, man := none } = finalResp o t k seq true none f data := by
  unfold finalResp
  split <;> rfl

theorem sendDup_eq {r : Req} (hv : r.void = false) (p : Fin 4) (f : Final) (data : List Slot) (z : State) :
    sendDup p r f data z = answerReq p r (finalResp r.opc r.hdr.tag r.hdr.stream r.hdr.seq true none f data) (voidRuns p r.hdr.stream r.hdr.seq (dupId z) z) := by
  unfold sendDup
  rw [hv, respondDup_eq hv, finalResp_dup]
  rfl

/-- A reissue with an outcome is counted, and a stored fault is a further refusal (04 R137). -/
def doneCounted (p : Fin 4) (r : Req) (f : Final) (z : State) : State :=
  match f.fault with
  | some (rs, _) => lastRef p r.hdr.stream 5 rs.toNat (countRef 5 (fbump TXN TXN_DUPSTAT_DUP_DONE z))
  | none => fbump TXN TXN_DUPSTAT_DUP_DONE z

/-- The stored outcome of a WR, WRP, ADD, ENQ or SYNC is answered again. -/
theorem dupDone_stored {r : Req} (hv : r.void = false) (ho : r.opc = .wr ∨ r.opc = .wrp ∨ r.opc = .add ∨ r.opc = .enq ∨ r.opc = .sync) (p : Fin 4) (w : WinSlot)
    (f : Final) (z : State) : dupDone p r w f z = sendDup p r f [] (doneCounted p r f z) := by
  unfold dupDone doneCounted
  cases f.fault with
  | some x => simp [hv, onlyIf]
  | none => rcases ho with h | h | h | h | h <;> simp [h]

theorem quiet_doneCounted (p : Fin 4) (r : Req) (f : Final) (z : State) : Quiet p z (doneCounted p r f z) := by
  have bumped := quiet_fbump p TXN_DUPSTAT_DUP_DONE z
  unfold doneCounted
  split
  · exact bumped.trans ((quiet_countRef p _ _).trans (quiet_lastRef p p _ _ _ _))
  · exact bumped

theorem doneCounted_streams (p : Fin 4) (r : Req) (f : Final) (z : State) : (doneCounted p r f z).streams = z.streams := by
  unfold doneCounted
  split <;> rfl

theorem fget_doneCounted (p : Fin 4) (r : Req) (f : Final) (z : State) :
    fget (doneCounted p r f z) TXN TXN_DUPSTAT_DUP_DONE = min (fget z TXN TXN_DUPSTAT_DUP_DONE + 1) (2 ^ TXN_DUPSTAT_DUP_DONE.width - 1) := by
  have bumped := fget_fbump TXN TXN_DUPSTAT_DUP_DONE z (by decide)
  unfold doneCounted
  split
  · have last : ∀ sub y, fget (lastRef p r.hdr.stream 5 sub y) TXN TXN_DUPSTAT_DUP_DONE = fget y TXN TXN_DUPSTAT_DUP_DONE := fun sub y => by
      unfold lastRef fget
      rw [rg_rgSet_ne _ _ _ _ (by decide)]
    exact (last _ _).trans ((fget_fbump_ne TXN TXN _ _ _ (by decide)).trans bumped)
  · exact bumped

/-! ### The command -/

/-- Request `r` has been answered with `y` and its stream's record is `x`. -/
structure Reissued (p : Fin 4) (r : Req) (y : Resp) (x : StreamRec) (s t : State) : Prop where
  settled : settled t
  strm : t.strm p r.hdr.stream = x
  answered : Answered p r y s t

theorem reissued_freed {p : Fin 4} {s u : State} (q : Quiet p s u) (hu : settled u) (r : Req) (y : Resp) :
    Reissued p r y { u.strm p r.hdr.stream with busy := false } s (freed p r.hdr.stream (answerReq p r y u)) where
  settled := settled_freed (settled_congr hu (answered_answerReq p r y u).caravans (answerReq_streams p r y u)) p _
  strm := by rw [freed_strm, strm_congr (answerReq_streams p r y u)]
  answered := ((answered_answerReq p r y u).of_quiet q).setStrm _ _

section
variable {p : Fin 4} {r : Req} {s : State} {x : StreamRec} {w : WinSlot} (hv : r.void = false) (hx : s.strm p r.hdr.stream = x)
  (hf : x.frozen = false) (hd : 65504 ≤ (r.hdr.seq - x.n).toNat) (hw : winSlot x r.hdr.seq = some w)
include hv hx hf hd hw

theorem classify_accept (hp : w.fp = fingerprint r) (hn : w.fin = none) :
    classify p r false s = freed p r.hdr.stream (answerReq p r (dupAcceptance r w) (dupTagged p r (taken p r s))) := by
  rw [classify_window hx hf hd, hw, ← dupAccept_eq hv]
  simp only [hp, hn, ne_eq, not_true_eq_false, if_false]

theorem reissued_accept (hs : settled s) (idle : x.busy = false) (hp : w.fp = fingerprint r) (hn : w.fin = none) :
    Reissued p r (dupAcceptance r w) (retagged r.hdr x) s (classify p r false s) := by
  have record : { retagged r.hdr { x with busy := true } with busy := false } = retagged r.hdr x := congrArg (retagged r.hdr) (busy_undone idle)
  have freed := reissued_freed ((quiet_taken p r s).trans (quiet_dupTagged p r _)) (settled_dupTagged (settled_taken hs p r) p r) r (dupAcceptance r w)
  rw [dupTagged_strm, taken_strm, hx, record] at freed
  rw [classify_accept hv hx hf hd hw hp hn]
  exact freed

theorem fget_classify_accept (hp : w.fp = fingerprint r) (hn : w.fin = none) :
    fget (classify p r false s) TXN TXN_DUPSTAT_DUP_ACC = min (fget s TXN TXN_DUPSTAT_DUP_ACC + 1) (2 ^ TXN_DUPSTAT_DUP_ACC.width - 1) := by
  rw [classify_accept hv hx hf hd hw hp hn]
  exact (fget_answerReq _ _ _ _ _).trans (fget_dupTagged _ _ _)

theorem refused_content (hs : settled s) (idle : x.busy = false) (hp : w.fp ≠ fingerprint r) : Refused p r 6 (conflictInfo 0 x.n) { x with frozen := true } s (classify p r false s) := by
  have conflict : classify p r false s = freed p r.hdr.stream (refuseResp p r 6 (conflictInfo 0 x.n) 0 false (freezeStream p r "content" (taken p r s))) := by
    rw [classify_window hx hf hd, hw]
    exact if_pos hp
  rw [conflict]
  exact refused_freeze hv hs hx idle _ _ _

variable {f : Final} (hp : w.fp = fingerprint r) (hn : w.fin = some f) (ho : r.opc = .wr ∨ r.opc = .wrp ∨ r.opc = .add ∨ r.opc = .enq ∨ r.opc = .sync)
include hp hn ho

theorem classify_done : ∃ id, classify p r false s = freed p r.hdr.stream (answerReq p r (finalResp r.opc r.hdr.tag r.hdr.stream r.hdr.seq true none f [])
    (voidRuns p r.hdr.stream r.hdr.seq id (doneCounted p r f (taken p r s)))) := by
  rw [classify_window hx hf hd, hw]
  simp only [hp, hn, ne_eq, not_true_eq_false, if_false]
  exact ⟨_, congrArg _ ((dupDone_stored hv ho p w f _).trans (sendDup_eq hv p f [] _))⟩

theorem reissued_done (hs : settled s) (idle : x.busy = false) :
    Reissued p r (finalResp r.opc r.hdr.tag r.hdr.stream r.hdr.seq true none f []) x s (classify p r false s) := by
  obtain ⟨id, done⟩ := classify_done hv hx hf hd hw hp hn ho
  have counted : settled (doneCounted p r f (taken p r s)) :=
    settled_congr (settled_taken hs p r) (quiet_doneCounted p r f _).caravans (doneCounted_streams p r f _)
  have voided := quiet_voidRuns (p := p) counted.1 p r.hdr.stream r.hdr.seq id
  have freed := reissued_freed (((quiet_taken p r s).trans (quiet_doneCounted p r f _)).trans voided) (settled_congr counted voided.caravans rfl) r
    (finalResp r.opc r.hdr.tag r.hdr.stream r.hdr.seq true none f [])
  rw [strm_congr (t := voidRuns _ _ _ _ _) (doneCounted_streams p r f (taken p r s)), taken_strm, hx, busy_undone idle] at freed
  rw [done]
  exact freed

theorem fget_classify_done : fget (classify p r false s) TXN TXN_DUPSTAT_DUP_DONE = min (fget s TXN TXN_DUPSTAT_DUP_DONE + 1) (2 ^ TXN_DUPSTAT_DUP_DONE.width - 1) := by
  obtain ⟨id, done⟩ := classify_done hv hx hf hd hw hp hn ho
  rw [done]
  exact (fget_answerReq _ _ _ _ _).trans (fget_doneCounted _ _ _ _)

end

/-- What a command that ends in the answer to a reissue leaves. -/
theorem reissued_next {p : Fin 4} {r : Req} {y : Resp} {x : StreamRec} {f : Fld} {n : Nat} {s t : State} {out : Host.Outcome State Fault Refusal}
    (k : Reissued p r y x s t) (count : fget t TXN f = n) (run : settled t → out = .next t) :
    ∃ t, out = .next t ∧ t.strm p r.hdr.stream = x ∧ fget t TXN f = n ∧ (portSt s p ≠ PORT_ACTIVE → (t.port p).rab = (s.port p).rab ++ [y])
      ∧ t.d8 = s.d8 ∧ t.dram = s.dram ∧ t.wmem = s.wmem :=
  ⟨t, run k.settled, k.strm, count, k.answered.rab, k.answered.d8, k.answered.dram, k.answered.wmem⟩

/-- Settles O29: a reissue is looked up in its stream's window, and each of the three outcomes of the look-up has its answer. -/
theorem reissuesAnswered : Obligations.ReissuesAnswered := by
  unfold Obligations.ReissuesAnswered
  intro o p h body s x w hr hs hx hf hd hw
  have run := exec_classified hr rfl
  have hv := reqOf_void o h body
  have hh := reqOf_hdr o h body
  have ho := reqOf_opc o h body
  generalize reqOf o h body = r at *
  generalize exec (reqCmd o p h body false) s = out at *
  subst hh ho
  have idle : x.busy = false := hx ▸ hr.2.1
  refine ⟨fun hp hn => ?_, fun f hp hn stored => ?_, fun hp => ?_⟩
  · exact reissued_next (reissued_accept hv hx hf hd hw hs idle hp hn) (fget_classify_accept hv hx hf hd hw hp hn) run
  · exact reissued_next (reissued_done hv hx hf hd hw hp hn stored hs idle) (fget_classify_done hv hx hf hd hw hp hn stored) run
  · obtain ⟨t, ht, strm, rab, -, frame⟩ := refused_next_uncounted (refused_content hv hx hf hd hw hs idle hp) run
    exact ⟨t, ht, strm, rab, frame⟩

end Sys2Proof.Proofs

/-! PROOF. DTIME only rises where no start restores it (02 R51). -/

namespace Sys2Proof.Proofs
open Sys2Proof Sys2Proof.Machine Sys2Proof.Laws

theorem d8_le_closed (n : Nat) : Closed (fun t => n ≤ t.d8) :=
  ⟨fun _ _ _ h => h, fun _ _ h => h, fun _ _ later h => h.trans later, by intros; assumption⟩

theorem d8_le_closedStore (n : Nat) (σ : Store) : ClosedStore (fun t => n ≤ t.d8) σ := by
  cases σ
  case ix => exact ⟨fun _ _ _ _ h => h, fun _ _ h => h, fun _ _ _ h => h⟩
  case streams => exact ⟨fun _ _ _ _ h => h, fun _ _ h => h⟩
  case mans => exact ⟨fun _ _ _ h => h⟩
  case accts => exact ⟨fun _ _ _ _ h => h, fun _ _ h => h⟩
  case dram => exact ⟨by simp, by simp, by simp⟩
  case wmem => exact ⟨by simp⟩

/-- Settles O55: "DTIME is at least what it was" survives every writer of the model but the two that a start alone reaches. -/
theorem timeNeverFalls : Obligations.TimeNeverFalls := by
  unfold Obligations.TimeNeverFalls
  intro c s t plain e
  have start : mayStart c = true → False := fun h => absurd (plain.symm.trans h) Bool.false_ne_true
  exact exec_keeps_stores (d8_le_closed s.d8) c (fun σ _ => d8_le_closedStore s.d8 σ) (fun h => (start h).elim) (fun h => (start h).elim) s t e (Nat.le_refl _)

end Sys2Proof.Proofs

/-! PROOF. A step on an empty queue (02 R51, R52). -/

namespace Sys2Proof.Proofs
open Sys2Proof Sys2Proof.Machine Sys2Proof.Laws

theorem step_idle {s : State} (h : s.pending = []) : step s = .next (idle s) := by
  unfold step
  rw [h]

theorem idle_dtimeRuns {s : State} (h : dtimeRuns s = true) : idle s = advance (coreTick8 s) s := if_pos h

theorem idle_slowEdge {s : State} (h : dtimeRuns s = false)
    (slow : ((s.pwr.mode == .banked || (s.pwr.mode == .off && s.pwr.starter == some 2)) && s.pwr.wake.isNone) = true) :
    idle s = { s with pwr := { s.pwr with slowEdges := s.pwr.slowEdges + 1 } } :=
  (if_neg (ne_true_of_eq_false h)).trans (if_pos slow)

theorem idle_still {s : State} (h : dtimeRuns s = false)
    (still : ((s.pwr.mode == .banked || (s.pwr.mode == .off && s.pwr.starter == some 2)) && s.pwr.wake.isNone) = false) : idle s = s :=
  (if_neg (ne_true_of_eq_false h)).trans (if_neg (ne_true_of_eq_false still))

/-- Settles O53: by where DTIME counts, where CK_SLOW edges are counted, and where neither is. -/
theorem idleStepsPassTime : Obligations.IdleStepsPassTime := by
  unfold Obligations.IdleStepsPassTime
  refine ⟨fun s hp runs => ?_, fun s hp mode wake => ?_, fun s hp mode => ?_⟩
  · exact ⟨_, (step_idle hp).trans (congrArg _ (idle_dtimeRuns runs)), rfl, rfl⟩
  · rw [step_idle hp, idle_slowEdge]
    · rcases mode with m | ⟨m, -⟩ <;> simp [dtimeRuns, m, wake]
    · rcases mode with m | ⟨m, starter⟩
      · simp [m, wake]
      · simp [m, starter, wake]
  · rw [step_idle hp, idle_still]
    · rcases mode with m | ⟨m, -⟩ <;> simp [dtimeRuns, m]
    · rcases mode with m | ⟨m, starter⟩
      · simp [m]
      · simp [m, starter]

end Sys2Proof.Proofs

/-! PROOF. Pins, clocks and supplies (02 R64, 14 R408, R410, R416, R419, 18 R519, R522, R523, R526, R532, R534). -/

namespace Sys2Proof.Proofs
open Sys2Proof Sys2Proof.Machine Sys2Proof.Laws

/-! ### Registers -/

theorem rg_fset_ne (b : Nat) (f : Fld) (v : Nat) (s : State) {a : Nat} (h : a ≠ b + f.off) : rg (fset b f v s) a = rg s a := rg_rgSet_ne _ _ _ _ h

theorem sameStore_refl (s : State) : sameStore s s := ⟨rfl, rfl, rfl, rfl, rfl, rfl⟩

theorem sameStore_trans {s t u : State} (h : sameStore s t) (k : sameStore t u) : sameStore s u := by
  obtain ⟨h1, h2, h3, h4, h5, h6⟩ := h
  obtain ⟨k1, k2, k3, k4, k5, k6⟩ := k
  exact ⟨k1.trans h1, k2.trans h2, k3.trans h3, k4.trans h4, k5.trans h5, k6.trans h6⟩

theorem sameStore_rgSet (a : Nat) (w : Word) (s : State) : sameStore s (rgSet a w s) := ⟨rfl, rfl, rfl, rfl, rfl, rfl⟩

theorem sameStore_fset (b : Nat) (f : Fld) (v : Nat) (s : State) : sameStore s (fset b f v s) := sameStore_rgSet _ _ _

theorem fbit_fset_one (b : Nat) (f : Fld) (s : State) (h : f.lsb + f.width ≤ 32) (hw : f.width ≠ 0) : fbit (fset b f 1 s) b f = true := by
  unfold fbit
  rw [fget_fset b f 1 s h, Nat.mod_eq_of_lt (Nat.one_lt_two_pow hw)]
  rfl

theorem fbit_fset_zero (b : Nat) (f : Fld) (s : State) (h : f.lsb + f.width ≤ 32) : fbit (fset b f 0 s) b f = false := by
  unfold fbit
  rw [fget_fset b f 0 s h, Nat.zero_mod]
  rfl

/-- A register whose value `f` drops reads as at reset. -/
theorem rg_regsMap_none (f : Nat → Word → Option Word) {a : Nat} (h : ∀ w, f a w = none) (s : State) : rg (regsMap f s) a = regReset a := by
  have fold : ∀ (l t : List (Nat × Word)), tblGet regReset t a = regReset a →
      tblGet regReset (l.foldl (fun t e => match f e.1 e.2 with
        | some w => tblSet regReset t e.1 w
        | none => t) t) a = regReset a := fun l => by
    induction l with
    | nil => exact fun _ ht => ht
    | cons e l ih =>
      refine fun t ht => ih _ ?_
      dsimp only
      split
      next w he =>
        have ne : a ≠ e.1 := fun ha => by rw [← ha, h] at he; cases he
        rw [tblGet_tblSet_ne _ _ _ _ _ ne, ht]
      next => exact ht
  exact fold s.regs [] rfl

/-! ### Bits -/

theorem testBit_sub_two_pow {w c : Nat} (h : w.testBit c = true) (k : Nat) : (w - 2 ^ c).testBit k = (w.testBit k && decide (k ≠ c)) := by
  obtain ⟨m, r, hr, rfl⟩ : ∃ m r, r < 2 ^ c ∧ w = 2 ^ c * m + r := ⟨w / 2 ^ c, w % 2 ^ c, Nat.mod_lt _ (Nat.two_pow_pos c), (Nat.div_add_mod _ _).symm⟩
  rw [Nat.testBit_two_pow_mul_add m hr, if_neg (Nat.lt_irrefl c), Nat.sub_self] at h
  obtain ⟨q, rfl⟩ : ∃ q, m = 2 * q + 1 := ⟨m / 2, by have := Nat.testBit_zero m ▸ h; simp at this; omega⟩
  have less : 2 ^ c * (2 * q + 1) + r - 2 ^ c = 2 ^ c * (2 * q) + r := by rw [Nat.mul_add, Nat.mul_one]; omega
  rw [less, Nat.testBit_two_pow_mul_add _ hr, Nat.testBit_two_pow_mul_add _ hr]
  rcases Nat.lt_trichotomy k c with hk | rfl | hk
  · simp [hk, Nat.ne_of_lt hk]
  · simp
  · obtain ⟨j, hj⟩ : ∃ j, k - c = j + 1 := ⟨k - c - 1, by omega⟩
    simp only [Nat.not_lt.mpr hk.le, if_false, hj, Nat.testBit_succ, ne_eq, Nat.ne_of_gt hk, not_false_eq_true, decide_true, Bool.and_true]
    congr 1
    omega

theorem bitOf_eq_testBit (w i : Nat) : bitOf w i = w.testBit i := (Nat.testBit_eq_decide_div_mod_eq).symm

/-- A bit of a field of unit bits after it has been cleared. -/
theorem testBit_fsetBit_clear (b : Nat) (f : Fld) {i : Nat} (s : State) (h : f.lsb + f.width ≤ 32) (hi : (fget s b f).testBit i = true) {k : Nat} (hk : k < f.width) :
    (fget (fsetBit b f i false s) b f).testBit k = ((fget s b f).testBit k && decide (k ≠ i)) := by
  unfold fsetBit
  simp only [bitOf_eq_testBit, hi, if_true, Bool.false_eq_true, if_false]
  rw [fget_fset b f _ s h, Nat.testBit_mod_two_pow, testBit_sub_two_pow hi]
  simp [hk]

/-! ### Pins and clocks -/

/-- CK_SLOW's source is switched and shown, and no other register is written. -/
theorem slowFrom_next (x : Bool) {s : State} (h : s.pwr.vinOn = true) :
    ∃ t, Host.Outcome.next (slowFrom x s) = (.next t : Host.Outcome State Fault Refusal) ∧ t.pwr = { s.pwr with xtal := x } ∧ fbit t GLB GLB_CLKSTAT_SLOW_XTAL = x
      ∧ (∀ a, a ≠ GLB + GLB_CLKSTAT_SLOW_XTAL.off → rg t a = rg s a) ∧ sameStore s t ∧ t.d8 = s.d8 := by
  refine ⟨_, rfl, ?_⟩
  unfold slowFrom
  rw [if_pos h]
  refine ⟨rfl, ?_, fun a ha => rg_fset_ne _ _ _ _ ha, sameStore_fset _ _ _ _, rfl⟩
  cases x
  · exact fbit_fset_zero _ _ _ (by decide)
  · exact fbit_fset_one _ _ _ (by decide) (by decide)

theorem chPllLost_locked {c : Fin 16} {s : State} (h : (fget s GLB GLB_CLKSTAT_CH_LOCK).testBit c = true) :
    chPllLost c s = fset GLB GLB_CLKSTAT_LOCK_LOSS 1 (fsetBit GLB GLB_CLKSTAT_CH_LOCK c.val false s) := if_pos h

/-- CH_LOCK stays when LOCK_LOSS of the same register is set. -/
theorem fget_CH_LOCK_lockLoss (s : State) : fget (fset GLB GLB_CLKSTAT_LOCK_LOSS 1 s) GLB GLB_CLKSTAT_CH_LOCK = fget s GLB GLB_CLKSTAT_CH_LOCK :=
  fget_fset_other _ _ _ _ _ rfl (by decide) (.inr (by decide))

/-! ### The supplies -/

theorem rg_starterDrop_ne {a : Nat} (h : a ≠ AON + AON_STARTER_VALID.off) (s : State) : rg (starterDrop s) a = rg s a := rg_fset_ne _ _ _ _ h

/-- A register of the Starter store at reset stays so when the store is dropped. -/
theorem rg_starterDrop_reset {a : Nat} {s : State} (h : rg s a = regReset a) : rg (starterDrop s) a = regReset a := by
  by_cases ha : a = AON + AON_STARTER_VALID.off
  · subst ha
    refine (rg_rgSet _ _ _).trans ((congrArg (AON_STARTER_VALID.put 0) (Eq.trans ?_ h)).trans (by decide))
    rfl
  · exact (rg_starterDrop_ne ha s).trans h

/-- What a reset of the AON domain leaves (14 R419, R421). -/
theorem rg_aonReset {a : Nat} (h : AON ≤ a ∧ a < AON + 0x1000) (s : State) : rg (aonReset s) a = regReset a :=
  have dropped : rg (regsMap (fun a w => if AON ≤ a ∧ a < AON + 0x1000 then none else some w) s) a = regReset a := rg_regsMap_none _ (fun _ => if_pos h) s
  rg_starterDrop_reset ((rg_congr rfl a).trans dropped)

/-- The AON domain is reset and without its supply. -/
def vinGone (s : State) : State := { aonReset s with pwr := { (aonReset s).pwr with vinOn := false, lowPower := false, xtal := false } }

theorem vinGone_pwr (s : State) : (vinGone s).pwr = { s.pwr with aonQ := [], starter := none, img := none, vinOn := false, lowPower := false, xtal := false } := rfl

/-- A domain keeps its state when that of another is written. -/
theorem domState_fset_ne {d e : Nat} (h : d ≠ e) (v : Nat) (s : State) : domState (fset PWR (PWR_DOMSTAT_STATE.nth e) v s) d = domState s d :=
  fget_fset_ne _ _ _ _ _ _ (by simp only [Fld.nth, PWR_DOMSTAT_STATE]; omega)

theorem domState_fset (d v : Nat) (s : State) : domState (fset PWR (PWR_DOMSTAT_STATE.nth d) v s) d = v % 4 :=
  fget_fset _ _ _ _ (show PWR_DOMSTAT_STATE.lsb + PWR_DOMSTAT_STATE.width ≤ 32 by decide)

/-- Opening the gate of domain `e` leaves a sound domain off or as it was. -/
theorem domState_open (d e : Nat) (s : State) (h : domState s d ≠ 3) :
    domState (onlyIf (domState s e != 3) (fset PWR (PWR_DOMSTAT_STATE.nth e) 0) s) d = if d = e then 0 else domState s d := by
  by_cases hd : d = e
  · subst hd
    simp only [onlyIf, bne_iff_ne.mpr h, if_true, domState_fset]
  · rw [if_neg hd]
    exact onlyIf_inv (fun s => domState s d) _ _ _ (fun y => domState_fset_ne hd 0 y)

/-- Every sound domain of a list is off once the gates of the list are open (14 R416). -/
theorem domState_forAll_open (l : List Nat) (d : Nat) (s : State) (h : domState s d ≠ 3) :
    domState (forAll l (fun e s => onlyIf (domState s e != 3) (fset PWR (PWR_DOMSTAT_STATE.nth e) 0) s) s) d = if d ∈ l then 0 else domState s d := by
  induction l generalizing s with
  | nil => rfl
  | cons e l ih =>
    have opened := domState_open d e s h
    refine (ih _ ?_).trans ?_
    · rw [opened]
      split
      · decide
      · exact h
    · rw [opened]
      by_cases hd : d = e
      · simp [hd]
      · simp [hd]

theorem domState_gatesOpen {d : Nat} (hd : d < 23) (s : State) (h : domState s d ≠ 3) : domState (gatesOpen s) d = 0 :=
  (domState_forAll_open (List.range 23) d { s with pwr := { s.pwr with ramps := [], rampQ := [], thermN := true } } h).trans (if_pos (List.mem_range.mpr hd))

theorem gatesOpen_inv {β : Type} (g : State → β) (s : State) (h : ∀ a w s, g (rgSet a w s) = g s) :
    g (gatesOpen s) = g { s with pwr := { s.pwr with ramps := [], rampQ := [], thermN := true } } :=
  forAll_inv g _ _ _ fun _ _ => onlyIf_inv g _ _ _ fun _ => h _ _ _

/-- What the end of operation leaves: the memories, the stream records, the rings and the console. -/
theorem coreLost_kept (mode : PMode) (s : State) :
    (coreLost mode s).dram = s.dram ∧ (coreLost mode s).wmem = s.wmem ∧ (coreLost mode s).streams = s.streams ∧ (coreLost mode s).rings = s.rings
      ∧ (coreLost mode s).con = s.con :=
  ⟨gatesOpen_inv (·.dram) _ fun _ _ _ => rfl, gatesOpen_inv (·.wmem) _ fun _ _ _ => rfl, gatesOpen_inv (·.streams) _ fun _ _ _ => rfl,
    gatesOpen_inv (·.rings) _ fun _ _ _ => rfl, gatesOpen_inv (·.con) _ fun _ _ _ => rfl⟩

theorem coreLost_pwr (mode : PMode) (s : State) : (coreLost mode s).pwr = { s.pwr with
    mode := mode, entry := none, wake := none, dozeExit := none, wakeAfter := none, warmAfter := none, warm := .idle, retEn := false
    ramps := [], rampQ := [], thermN := true, starter := none, img := none } := by
  have gates := gatesOpen_inv (·.pwr) { s with pwr := { s.pwr with
    mode := mode, entry := none, wake := none, dozeExit := none, wakeAfter := none, warmAfter := none, warm := .idle, retEn := false } } (fun _ _ _ => rfl)
  unfold coreLost starterDrop
  show ({ (gatesOpen _).pwr with starter := none, img := none } : PwrState) = _
  rw [gates]

theorem domState_coreLost {d : Nat} (hd : d < 23) (mode : PMode) (s : State) (h : domState s d ≠ 3) : domState (coreLost mode s) d = 0 := by
  have starter : ∀ y : State, domState (starterDrop y) d = domState y d := fun y => by
    refine (fget_fset_ne _ _ _ _ _ _ ?_).trans rfl
    simp only [PWR, AON, Fld.nth, PWR_DOMSTAT_STATE, AON_STARTER_VALID]
    omega
  unfold coreLost
  rw [starter]
  exact domState_gatesOpen hd _ h

theorem supplyLoss_run {s : State} (hm : s.pwr.mode = .run) (hp : s.led.pf ≠ .done) : supplyLoss s = coreLost .off s := by
  unfold supplyLoss
  simp [hm, hp]

/-! ### Ramps -/

theorem domState_rampStart (d : Nat) (s : State) : domState (rampStart d s) d = 1 := domState_fset d 1 _

theorem domState_rampStart_ne {d e : Nat} (h : d ≠ e) (s : State) : domState (rampStart e s) d = domState s d := domState_fset_ne h 1 _

theorem sameStore_rampStart (d : Nat) (s : State) : sameStore s (rampStart d s) := sameStore_fset _ _ _ _

/-- Domains that begin to ramp leave the stores, the time, the mode and the wake, and the ramps that run; a domain that does not wait keeps its state (14 R417). -/
theorem rampFuel_keeps_running (n : Nat) (s : State) (d : Nat) (hd : d ∉ s.pwr.rampQ) :
    (rampFuel n s).pwr.wake = s.pwr.wake ∧ (rampFuel n s).pwr.mode = s.pwr.mode ∧ (rampFuel n s).d8 = s.d8 ∧ sameStore s (rampFuel n s)
      ∧ domState (rampFuel n s) d = domState s d ∧ s.pwr.ramps ⊆ (rampFuel n s).pwr.ramps := by
  induction n generalizing s with
  | zero => exact ⟨rfl, rfl, rfl, sameStore_refl s, rfl, List.Subset.refl _⟩
  | succ n ih =>
    unfold rampFuel
    split
    · exact ⟨rfl, rfl, rfl, sameStore_refl s, rfl, List.Subset.refl _⟩
    next e rest hq =>
      split
      · rw [hq, List.mem_cons, not_or] at hd
        obtain ⟨wake, mode, time, store, dom, ramps⟩ := ih (rampStart e { s with pwr := { s.pwr with rampQ := rest } }) hd.2
        exact ⟨wake, mode, time, sameStore_trans (sameStore_rampStart e { s with pwr := { s.pwr with rampQ := rest } }) store, dom.trans (domState_rampStart_ne hd.1 _),
          fun x hx => ramps (List.mem_append_left _ hx)⟩
      · exact ⟨rfl, rfl, rfl, sameStore_refl s, rfl, List.Subset.refl _⟩

/-- The first of the domains that join ramps at once where none ramps or waits. -/
theorem rampMore_first {s : State} (d : Nat) (rest : List Nat) (hr : s.pwr.ramps = []) (hq : s.pwr.rampQ = []) :
    rampMore (d :: rest) s = rampFuel 22 (rampStart d { s with pwr := { s.pwr with rampQ := rest } }) := by
  have room : ∀ n, s.pwr.ramps.length < max 1 n := fun n => by rw [hr]; exact Nat.lt_of_lt_of_le Nat.one_pos (Nat.le_max_left _ _)
  unfold rampMore rampFuel
  simp only [hq, List.nil_append]
  exact if_pos (room _)

/-- The regulator has settled and domains wait to ramp. -/
def rampsDue (rest : List Nat) (s : State) : State := { s with pwr := { s.pwr with wake := some .ramps, rampQ := rest } }

/-- The regulator has settled: domain 0 ramps (14 R410). -/
theorem regulatorSettled_next {s : State} (hw : s.pwr.wake = some .regulator) (hr : s.pwr.ramps = []) (hq : s.pwr.rampQ = []) (h0 : domState s 0 ≠ 3) :
    (regulatorSettled s).pwr.wake = some .ramps ∧ domState (regulatorSettled s) 0 = 1 ∧ ⟨0, 1, rampFrom8 s, 0⟩ ∈ (regulatorSettled s).pwr.ramps
      ∧ (regulatorSettled s).pwr.mode = s.pwr.mode ∧ (regulatorSettled s).d8 = s.d8 ∧ sameStore s (regulatorSettled s) := by
  have first : sound s [0, 1] = 0 :: sound s [1] := List.filter_cons_of_pos (bne_iff_ne.mpr h0)
  have later : 0 ∉ sound s [1] := fun h => absurd (List.mem_of_mem_filter h) (by decide)
  generalize sound s [1] = rest at first later
  have start : regulatorSettled s = rampFuel 22 (rampStart 0 (rampsDue rest s)) := by
    refine (if_pos hw).trans ?_
    rw [first]
    exact rampMore_first 0 rest hr hq
  obtain ⟨wake, mode, time, store, dom, ramps⟩ := rampFuel_keeps_running 22 (rampStart 0 (rampsDue rest s)) 0 later
  rw [start]
  exact ⟨wake, dom.trans (domState_rampStart 0 (rampsDue rest s)), ramps (List.mem_append_right _ (List.mem_singleton.mpr rfl)), mode, time,
    sameStore_trans (sameStore_rampStart 0 (rampsDue rest s)) store⟩

/-! ### The statement -/

/-- Settles O7: each pin, clock and supply by the lemma about its operation. -/
theorem pinsClocksAndSupplies : Obligations.PinsClocksAndSupplies := by
  unfold Obligations.PinsClocksAndSupplies
  refine ⟨fun tenths s on => ?therm, fun s vin => ⟨slowFrom_next true vin, slowFrom_next false vin⟩, fun c s lock => ?pll, fun ir s => ?tap, fun s own on => ?wake,
    fun s vin => ?powerOn, fun s vin => ?vinOff, fun s run pf => ?supply, fun s low => ?brown, fun s ret => ?retention, fun s wake ramps queue sound => ?regulator⟩
  case therm =>
    show Host.Outcome.next (thermRead tenths s) = _
    have sub : thermTrip - 50 = if Config.gradeOne then 1050 else 950 := by unfold thermTrip; split <;> rfl
    unfold thermRead thermLevel
    rw [if_pos on, sub]
    rfl
  case pll =>
    refine ⟨_, congrArg Host.Outcome.next (chPllLost_locked lock), fbit_fset_one _ _ _ (by decide) (by decide), ?_, fun k hk => ?_, fun a ha => ?_, sameStore_fset _ _ _ _, rfl, rfl⟩
    · rw [fget_CH_LOCK_lockLoss, testBit_fsetBit_clear _ _ _ (by decide) lock c.isLt]
      simp
    · rw [fget_CH_LOCK_lockLoss, testBit_fsetBit_clear _ _ _ (by decide) lock k.isLt]
      simp [Fin.val_ne_of_ne hk]
    · exact (rg_fset_ne GLB GLB_CLKSTAT_LOCK_LOSS _ _ ha).trans (rg_fset_ne GLB GLB_CLKSTAT_CH_LOCK _ _ ha)
  case tap => cases ir <;> rfl
  case wake => exact congrArg Host.Outcome.next (if_pos ⟨own, on⟩)
  case powerOn =>
    have up : powerOn s = _ := if_neg (ne_true_of_eq_false vin)
    exact ⟨_, congrArg Host.Outcome.next up, rfl, rfl, rfl, rfl, rfl, rfl, rfl, rfl, fun a lo hi => rg_aonReset ⟨lo, hi⟩ s, rfl, rfl, rfl, rfl⟩
  case vinOff =>
    obtain ⟨dram, wmem, streams, rings, -⟩ := coreLost_kept .off s
    have pwr := coreLost_pwr .off s
    have down : vinOff s = vinGone (coreLost .off s) := if_neg (by simp [vin])
    generalize coreLost .off s = x at *
    refine ⟨_, congrArg Host.Outcome.next down, ?_⟩
    rw [vinGone_pwr, pwr]
    exact ⟨rfl, rfl, rfl, rfl, rfl, rfl, rfl, rfl, rfl, rfl, rfl, fun a lo hi => rg_aonReset ⟨lo, hi⟩ x, dram, wmem, streams, rings⟩
  case supply =>
    obtain ⟨dram, wmem, streams, rings, con⟩ := coreLost_kept .off s
    refine ⟨_, congrArg Host.Outcome.next (supplyLoss_run run pf), ?_⟩
    rw [coreLost_pwr .off s]
    exact ⟨rfl, rfl, rfl, rfl, rfl, rfl, rfl, rfl, rfl, fbit_fset_zero _ _ _ (by decide), fun d hd h => domState_coreLost hd .off s h, dram, wmem, streams, rings, con⟩
  case brown =>
    have lost : brownout s = _ := if_pos low
    exact ⟨_, congrArg Host.Outcome.next lost, fbit_fset_one _ _ _ (by decide) (by decide), rfl, rfl, fun a lo hi ha => (rg_fset_ne _ _ _ _ ha).trans (rg_aonReset ⟨lo, hi⟩ _),
      rfl, rfl, rfl, rfl, rfl⟩
  case retention =>
    exact ⟨_, congrArg Host.Outcome.next (if_pos ret), fbit_fset_one _ _ _ (by decide) (by decide), fun a ha => rg_fset_ne _ _ _ _ ha, rfl, rfl, sameStore_fset _ _ _ _⟩
  case regulator => exact ⟨_, rfl, regulatorSettled_next wake ramps queue sound⟩

end Sys2Proof.Proofs

/-! PROOF. A snapshot copies a counter as a read of it gives it, and the counter of a rank in power-down goes on up to the instant of the read (09 R290): the register file holds the cycles up to the stay's begin. -/

namespace Sys2Proof.Proofs
open Sys2Proof Sys2Proof.Machine Sys2Proof.Laws

/-- Channel 0 is in service and its rank 0 has been in power-down for 1 us. -/
def rankPoweredDown : State := updChan 0 (fun y => { y with pd := y.pd.set 0 true }) { twoMembers with d8 := 8000 }

/-- The snapshot holds the cycles of the present stay. -/
theorem snapshotCapture_rankPoweredDown :
    (match exec .snapshotCapture rankPoweredDown with | .next t => t.shadow.map fun h => h.regs.lookup (CH 0 + CH_PDCYC_COUNT.off) | _ => none)
      = some (some (regVal rankPoweredDown (CH 0 + CH_PDCYC_COUNT.off))) := by decide +kernel

/-- A read of the counter gives more than the register file holds. -/
theorem regVal_rankPoweredDown : regVal rankPoweredDown (CH 0 + CH_PDCYC_COUNT.off) ≠ rg rankPoweredDown (CH 0 + CH_PDCYC_COUNT.off) := by decide +kernel

/-- The words of the register file at the addresses of the counters, as the statement has the snapshot copy them. -/
theorem counters_lookup_rankPoweredDown :
    (((counterBlocks.filter (blockOn rankPoweredDown)).flatMap fun b => (counterAddrs b).map fun a => (a, rg rankPoweredDown a)).lookup (CH 0 + CH_PDCYC_COUNT.off))
      = some (rg rankPoweredDown (CH 0 + CH_PDCYC_COUNT.off)) := by decide +kernel

/-- Refutes O26: with a rank in power-down the fourth clause's snapshot holds the register file's word, where the model's holds the cycles of the present stay as well. -/
theorem not_aonSnapshotAndProbe : ¬ Obligations.AonSnapshotAndProbe := by
  unfold Obligations.AonSnapshotAndProbe
  rintro ⟨-, -, -, captured, -⟩
  obtain ⟨t, h, ht, shadow, copied, -⟩ := captured rankPoweredDown (by decide +kernel) (by decide +kernel) (by decide +kernel) rfl
  have live := snapshotCapture_rankPoweredDown
  simp only [ht, shadow, Option.map_some, copied, counters_lookup_rankPoweredDown, Option.some.injEq] at live
  exact regVal_rankPoweredDown live.symm

end Sys2Proof.Proofs

/-! PROOF. A request that stands in the intake buffer behind one of its stream that has not been taken yet is not taken before it (04 R120): the command leaves the state, where the statement of intake has the request wait in its stream's record. -/

namespace Sys2Proof.Proofs
open Sys2Proof Sys2Proof.Machine Sys2Proof.Laws

/-- The header of a RD of line `n` on stream 0, with the sequence number `n`. -/
def readHdr (n : Nat) : Hdr := { (default : Hdr) with arg := BitVec.ofNat _ n, seq := BitVec.ofNat 16 n }

/-- Two RDs of stream 0 have arrived on port 0 and neither has been taken, while a SYNC of the stream is pending. -/
def twoUntaken : State :=
  setStrm 0 0 { sync := some { seq := 0, tag := none, d := 0, late := false } }
    (updPort 0 (fun y => { y with intake := [reqOf .rd (readHdr 1) [], reqOf .rd (readHdr 2) []] }) twoMembers)

/-- The second of the two is not taken. -/
theorem exec_twoUntaken_waiting :
    (match exec (reqCmd .rd 0 (readHdr 2) [] false) twoUntaken with | .next t => (t.strm 0 0).waiting | _ => [reqOf .rd (readHdr 2) []]) = [] := by decide +kernel

/-- Refutes O28: the third clause has a request of a stream with a pending SYNC join the requests that wait, and one that has an untaken request of its stream before it in the intake buffer does not. -/
theorem not_requestsEnterContests : ¬ Obligations.RequestsEnterContests := by
  unfold Obligations.RequestsEnterContests
  rintro ⟨-, -, waits, -⟩
  have taken := waits .rd 0 (readHdr 2) [] false twoUntaken (by decide +kernel) (by decide +kernel) (fun h => nomatch h) (.inr (by decide +kernel))
  have waiting := exec_twoUntaken_waiting
  simp only [taken] at waiting
  exact absurd waiting (by decide +kernel)

end Sys2Proof.Proofs

/-! PROOF. The outcome of a request accepted before its stream's record was emptied goes to no window slot (01 R30): one of the stream's later requests, which has its sequence number, keeps its own slot without an outcome. -/

namespace Sys2Proof.Proofs
open Sys2Proof Sys2Proof.Machine Sys2Proof.Laws

/-- A RD of line 10, accepted on stream 0 of port 0 before the stream was opened again. -/
def orphanRead : JEntry := { st := .pend, opc := .rd, target := 0x500, orphan := some 0, port := 0, stream := 0, seq := 0, d := 1000 }

/-- A later request of the stream, with the same sequence number. -/
def laterSlot : WinSlot := { seq := 0, fp := 1, opc := .rd, tag := some 3 }

/-- The access of `orphanRead` in the Waystation's frame 4. -/
def orphanAccess : WayOp := { src := .req 0 0 .read, frame := 4, line := 10 }

/-- The access is granted, and the stream's record has been emptied and filled anew since the RD was accepted. -/
def orphanGranted : State :=
  { updRing 0 (fun r => { r with entries := [orphanRead], copyB := [orphanRead], used := 1 })
      (setStrm 0 0 { n := 1, win := [laterSlot], old := [(0, { laterSlot with tag := none })] } twoMembers) with
    way := { twoMembers.way with tier := [(4, { st := .resident })] }
    wayOps := [orphanAccess] }

/-- The access ends, and the later request has no outcome. -/
theorem exec_orphanGranted_fin :
    (match exec (.waystationAccessComplete 0 .clean []) orphanGranted with | .next t => (winSlot (t.strm 0 0) 0).map (·.fin) | _ => none) = some none := by decide +kernel

/-- Refutes O32: the first clause has the access give its outcome to the window slot of its request's sequence number, and that of an orphaned request goes to none. -/
theorem not_accessesComplete : ¬ Obligations.AccessesComplete := by
  unfold Obligations.AccessesComplete
  rintro ⟨ended, -⟩
  obtain ⟨t, v, ht, -, slot, outcome, -⟩ := ended orphanAccess 0 0 orphanRead laterSlot [] orphanGranted orphanGranted rfl rfl (by unfold settled; decide +kernel)
    rfl rfl rfl rfl (by decide +kernel) rfl (by decide +kernel) rfl (by decide +kernel)
  have unanswered := exec_orphanGranted_fin
  have slot' : winSlot (t.strm 0 0) 0 = some v := slot
  rw [ht] at unanswered
  simp only [slot', Option.map_some, outcome] at unanswered
  exact absurd unanswered (by simp)

end Sys2Proof.Proofs

/-! PROOF. What the operations of a host port's flit layer leave, what goes out on its lanes, and what its record and its registers hold afterwards (03 R66 to R108). -/

namespace Sys2Proof.Proofs
open Sys2Proof Sys2Proof.Machine Sys2Proof.Laws

/-! ### The rest of the state -/

/-- From `s` to `t` DTIME stands still, no power-fail flush begins or ends, and the stream records and the other ports' records are as they were. -/
structure PortOnly (p : Fin 4) (s t : State) : Prop where
  d8 : t.d8 = s.d8
  flush : flushOn t = flushOn s
  streams : t.streams = s.streams
  others : ∀ q, q ≠ p → t.port q = s.port q

namespace PortOnly

variable {p : Fin 4} {s t u : State}

theorem refl (p : Fin 4) (s : State) : PortOnly p s s := ⟨rfl, rfl, rfl, fun _ _ => rfl⟩

theorem trans (h : PortOnly p s t) (k : PortOnly p t u) : PortOnly p s u :=
  ⟨k.d8.trans h.d8, k.flush.trans h.flush, k.streams.trans h.streams, fun q hq => (k.others q hq).trans (h.others q hq)⟩

/-- A change of registers, self-test, the console or the free values. -/
theorem of_ports (d8 : t.d8 = s.d8) (led : t.led = s.led) (streams : t.streams = s.streams) (ports : t.ports = s.ports) : PortOnly p s t :=
  ⟨d8, by unfold flushOn; rw [led], streams, fun q _ => port_congr ports q⟩

theorem rgSet (p : Fin 4) (a : Nat) (w : Word) (s : State) : PortOnly p s (rgSet a w s) := of_ports rfl rfl rfl rfl

theorem fset (p : Fin 4) (b : Nat) (f : Fld) (v : Nat) (s : State) : PortOnly p s (fset b f v s) := rgSet p _ _ s

theorem fbump (p : Fin 4) (b : Nat) (f : Fld) (s : State) : PortOnly p s (fbump b f s) := rgSet p _ _ s

theorem updPort (p : Fin 4) (f : PortState → PortState) (s : State) : PortOnly p s (updPort p f s) :=
  ⟨rfl, rfl, rfl, fun q hq => updPort_port_ne p q f s hq⟩

theorem charge (p : Fin 4) (i n : Nat) (m : Option (BitVec 8)) (s : State) : PortOnly p s (charge i n m s) := ⟨rfl, rfl, rfl, fun _ _ => rfl⟩

theorem onlyIf (c : Bool) (f : State → State) (s : State) (h : ∀ x, PortOnly p x (f x)) : PortOnly p s (onlyIf c f s) := by
  unfold Machine.onlyIf
  split
  · exact h s
  · exact refl p s

theorem forAll {α : Type} (l : List α) (f : α → State → State) (s : State) (h : ∀ a x, PortOnly p x (f a x)) : PortOnly p s (forAll l f s) := by
  induction l generalizing s with
  | nil => exact refl p s
  | cons a l ih => exact (h a s).trans (ih (f a s))

theorem setPortSt (p : Fin 4) (v : Nat) (s : State) : PortOnly p s (setPortSt p v s) :=
  ⟨setPortSt_d8 _ _ _, by unfold flushOn; rw [setPortSt_led], setPortSt_streams _ _ _, fun q hq => setPortSt_port_ne p q v s hq⟩

theorem sendFlit (p : Fin 4) (ft : BitVec 4) (r : Bool) (x : TxFlit) (s : State) : PortOnly p s (sendFlit p ft r x s) := by
  unfold Machine.sendFlit
  split
  · exact refl p s
  · exact (onlyIf _ _ _ (fun y => fbump p _ _ y)).trans (updPort p _ _)

theorem sendData (p : Fin 4) (r : Bool) (l : List TxFlit) (s : State) : PortOnly p s (sendData p r l s) := forAll _ _ _ fun x y => sendFlit p 1 r x y

theorem sendTrain (p : Fin 4) (s : State) : PortOnly p s (sendTrain p s) :=
  (forAll _ _ _ fun _ y => sendFlit p _ _ _ y).trans (onlyIf _ _ _ fun y => updPort p _ y)

theorem toRetrain (p : Fin 4) (u : Bool) (s : State) : PortOnly p s (toRetrain p u s) :=
  (updPort p _ s).trans ((setPortSt p _ _).trans (sendTrain p _))

theorem fecCount (p : Fin 4) (x : Flit) (s : State) : PortOnly p s (fecCount p x s) := by
  unfold Machine.fecCount
  extract_lets k y z w
  have counted : PortOnly p s w := (updPort p _ s).trans ((onlyIf _ _ _ fun a => fbump p _ _ a).trans (onlyIf _ _ _ fun a => fbump p _ _ a))
  split
  · exact counted.trans (forAll _ _ _ fun a b => (of_ports rfl rfl rfl rfl : PortOnly p b (ixSet (HP p) a.1 _ b)).trans (updPort p _ _))
  · exact updPort p _ s

theorem nakSeen (p : Fin 4) (x : Flit) (s : State) : PortOnly p s (nakSeen p x s) := onlyIf _ _ _ fun y => fbump p _ _ y

theorem startNak (p : Fin 4) (s : State) : PortOnly p s (startNak p s) := by
  unfold Machine.startNak
  split
  · exact refl p s
  · exact updPort p _ s

theorem emit (p : Fin 4) (h : String) (x : List (String × FVal)) (s : State) : PortOnly p s (emit h x s) := of_ports (by simp) (by simp) (by simp) (by simp)

theorem retransmit (p : Fin 4) (q : BitVec 12) (s : State) : PortOnly p s (retransmit p q s) := by
  unfold Machine.retransmit
  extract_lets ps
  split
  · exact refl p s
  · split
    · exact (updPort p _ s).trans (toRetrain p _ _)
    · exact (updPort p _ s).trans (sendData p _ _ _)

theorem creditFields (p : Fin 4) (f : Flit) (s : State) : PortOnly p s (creditFields p f s) := (updPort p _ s).trans (fset p _ _ _ _)

theorem quietCheck (p : Fin 4) (s : State) : PortOnly p s (quietCheck p s) := by
  unfold Machine.quietCheck
  extract_lets ps
  split
  · exact (updPort p _ s).trans ((setPortSt p _ _).trans (forAll _ _ _ fun _ y => sendTrain p y))
  · exact refl p s

end PortOnly

/-! ### Fields of a port's registers -/

/-- A field of a port's block that sending leaves: neither its present credits nor its count of NAKs (03 R79, R106). -/
abbrev Unsent (f : Fld) : Prop := f.off < 0x1000 ∧ f.off ≠ HP_CRED_NOW_CRX.off ∧ f.off ≠ HP_NAK_TX_COUNT.off

/-- A field of a port's block that sending and a change of the port's training state leave. -/
abbrev Lasting (f : Fld) : Prop := Unsent f ∧ (f.off ≠ 8 ∨ 4 ≤ f.lsb ∧ (f.lsb + f.width ≤ 13 ∨ 14 ≤ f.lsb))

theorem fget_HP_fset_ne (p : Fin 4) {f g : Fld} (h : f.off ≠ g.off) (v : Nat) (s : State) : fget (fset (HP p) g v s) (HP p) f = fget s (HP p) f :=
  fget_fset_ne _ _ _ _ _ _ (off_ne _ h)

theorem fget_HP_fbump_ne (p : Fin 4) {f g : Fld} (h : f.off ≠ g.off) (s : State) : fget (fbump (HP p) g s) (HP p) f = fget s (HP p) f := fget_HP_fset_ne p h _ s

/-- Two fields of a block have no bit in common. -/
abbrev Apart (f g : Fld) : Prop := f.off ≠ g.off ∨ f.off = g.off ∧ g.lsb + g.width ≤ 32 ∧ (f.lsb + f.width ≤ g.lsb ∨ g.lsb + g.width ≤ f.lsb)

theorem fget_fset_apart (b : Nat) {f g : Fld} (h : Apart f g) (v : Nat) (s : State) : fget (fset b g v s) b f = fget s b f := by
  rcases h with h | ⟨same, fits, apart⟩
  · exact fget_fset_ne _ _ _ _ _ _ (off_ne b h)
  · exact fget_fset_other b f g v s same fits apart

section
variable (p : Fin 4) {f : Fld}

theorem fget_HP_setPortSt (hf : Lasting f) (v : Nat) (s : State) : fget (setPortSt p v s) (HP p) f = fget s (HP p) f := by
  obtain ⟨⟨low, -, -⟩, field⟩ := hf
  refine fget_setPortSt _ _ _ _ _ ?_ (HP_CON p _ (by decide)) (HP_BST p _ low) (HP_BST p _ low)
  rcases field with apart | beside
  · exact .inl (off_ne _ apart)
  · exact .inr ⟨rfl, beside⟩

theorem fget_HP_tunFollow (field : f.off ≠ 8 ∨ f.lsb + f.width ≤ 13 ∨ 14 ≤ f.lsb) (s : State) :
    fget (tunFollow p s) (HP p) f = fget s (HP p) f :=
  fget_tunFollow _ _ _ _ (field.imp (off_ne _) fun h => ⟨rfl, h⟩) (HP_CON p _ (by decide))

theorem fget_HP_emit (h : String) (x : List (String × FVal)) (s : State) : fget (emit h x s) (HP p) f = fget s (HP p) f :=
  fget_emit _ _ _ _ _ (HP_GLB p _ (by decide)) (HP_CON p _ (by decide)) (HP_CON p _ (by decide))

theorem fget_HP_tunnelUp (field : f.off ≠ 8 ∨ f.lsb + f.width ≤ 13 ∨ 14 ≤ f.lsb) (s : State) :
    fget (tunnelUp p s) (HP p) f = fget s (HP p) f := by
  unfold tunnelUp
  extract_lets x
  have followed : fget x (HP p) f = fget s (HP p) f := fget_HP_tunFollow p field s
  split
  · exact (fget_HP_emit p _ _ _).trans followed
  · exact followed

theorem fget_HP_sendTrain (hf : Unsent f) (s : State) : fget (sendTrain p s) (HP p) f = fget s (HP p) f := fget_sendTrain _ _ _ _ (off_ne _ hf.2.2)

theorem fget_HP_sendData (hf : Unsent f) (r : Bool) (l : List TxFlit) (s : State) : fget (sendData p r l s) (HP p) f = fget s (HP p) f :=
  forAll_inv (fun s => fget s (HP p) f) _ _ _ fun _ _ => fget_sendFlit _ _ _ _ _ _ _ (off_ne _ hf.2.2)

theorem fget_HP_toRetrain (hf : Lasting f) (u : Bool) (s : State) : fget (toRetrain p u s) (HP p) f = fget s (HP p) f :=
  (fget_HP_sendTrain p hf.1 _).trans (fget_HP_setPortSt p hf _ _)

theorem fget_HP_pump (hf : Unsent f) (s : State) : fget (pump p s) (HP p) f = fget s (HP p) f := by
  obtain ⟨-, credits, naks⟩ := hf
  exact pump_spec (fun s => fget s (HP p) f) p s (fun g v y hg => fget_HP_fset_ne p (hg ▸ credits) v y) (fun i n m y => fget_congr (charge_regs i n m y) _ _)
    (fun _ _ => rfl) (fun g y => fget_congr (updPort_regs p g y) _ _) fun y => fget_HP_fbump_ne p naks y

theorem fget_HP_fecCount (h1 : f.off ≠ HP_FEC_UNC_COUNT.off) (h2 : f.off ≠ HP_FEC_CORR_COUNT.off) (x : Flit) (s : State) :
    fget (fecCount p x s) (HP p) f = fget s (HP p) f := fget_fecCount _ _ _ _ _ (off_ne _ h1) (off_ne _ h2)

theorem fget_HP_retransmit (hf : Lasting f) (q : BitVec 12) (s : State) : fget (retransmit p q s) (HP p) f = fget s (HP p) f := by
  unfold retransmit
  extract_lets ps
  split
  · rfl
  · split
    · exact fget_HP_toRetrain p hf _ _
    · exact fget_HP_sendData p hf.1 _ _ _

end

theorem portSt_pump (p : Fin 4) (s : State) : portSt (pump p s) p = portSt s p := fget_HP_pump p (by decide) s

theorem portSt_sendData (p : Fin 4) (r : Bool) (l : List TxFlit) (s : State) : portSt (sendData p r l s) p = portSt s p := fget_HP_sendData p (by decide) r l s

theorem portSt_tunnelUp (p : Fin 4) (s : State) : portSt (tunnelUp p s) p = portSt s p := fget_HP_tunnelUp p (by decide) s

/-! ### Flits that leave a port -/

/-- Flit `x` has left port `p` at this instant. -/
def OnWire (p : Fin 4) (x : Flit) (s : State) : Prop := (s.port p).outAt8 = s.d8 ∧ x ∈ (s.port p).out

theorem OnWire.congr {p : Fin 4} {x : Flit} {s t : State} (h : OnWire p x s) (ports : t.ports = s.ports) (d8 : t.d8 = s.d8) : OnWire p x t := by
  unfold OnWire
  rw [port_congr ports, d8]
  exact h

/-- A flit that leaves: the NAK that goes with it is counted, and the flits of this instant are kept (03 R79). -/
theorem sendFlit_eq {p : Fin 4} {s : State} (run : flushOn s = false) (ft : BitVec 4) (r : Bool) (t : TxFlit) :
    sendFlit p ft r t s = updPort p (fun ps => { ps with out := (if ps.outAt8 = s.d8 then ps.out else []) ++ [wireFlit s p ft r t], outAt8 := s.d8, nakDue := false })
      (onlyIf ((s.port p).nak && (s.port p).nakDue) (fbump (HP p) HP_NAK_TX_COUNT) s) := by
  have d8 : (onlyIf ((s.port p).nak && (s.port p).nakDue) (fbump (HP p) HP_NAK_TX_COUNT) s).d8 = s.d8 := onlyIf_inv (·.d8) _ _ _ fun _ => rfl
  refine (if_neg (ne_true_of_eq_false run)).trans ?_
  dsimp only
  rw [d8]

theorem sendFlit_record {p : Fin 4} {s : State} (run : flushOn s = false) (ft : BitVec 4) (r : Bool) (t : TxFlit) :
    (sendFlit p ft r t s).port p = { s.port p with
      out := (if (s.port p).outAt8 = s.d8 then (s.port p).out else []) ++ [wireFlit s p ft r t], outAt8 := s.d8, nakDue := false } := by
  rw [sendFlit_eq run, updPort_port, port_congr (onlyIf_inv (·.ports) _ _ _ fun _ => fbump_ports _ _ _)]

theorem onWire_wireFlit {p : Fin 4} {s : State} (run : flushOn s = false) (ft : BitVec 4) (r : Bool) (t : TxFlit) :
    OnWire p (wireFlit s p ft r t) (sendFlit p ft r t s) := by
  unfold OnWire
  rw [sendFlit_record run, sendFlit_d8]
  simp

theorem OnWire.sendFlit {p : Fin 4} {x : Flit} {s : State} (h : OnWire p x s) (ft : BitVec 4) (r : Bool) (t : TxFlit) : OnWire p x (sendFlit p ft r t s) := by
  obtain ⟨now, out⟩ := h
  cases run : flushOn s
  · unfold OnWire
    rw [sendFlit_record run, sendFlit_d8, if_pos now]
    exact ⟨rfl, List.mem_append_left _ out⟩
  · rw [Machine.sendFlit, if_pos run]
    exact ⟨now, out⟩

theorem OnWire.sendData {p : Fin 4} {x : Flit} (r : Bool) (l : List TxFlit) {s : State} (h : OnWire p x s) : OnWire p x (sendData p r l s) := by
  induction l generalizing s with
  | nil => exact h
  | cons t l ih => exact ih (h.sendFlit 1 r t)

/-- Every flit of a list is sent (03 R73, R80). -/
theorem sendData_sends {p : Fin 4} (r : Bool) (l : List TxFlit) {s : State} (run : flushOn s = false) {t : TxFlit} (ht : t ∈ l) :
    ∃ x, OnWire p x (sendData p r l s) ∧ x.fseq = t.fseq ∧ x.rply = r := by
  induction l generalizing s with
  | nil => cases ht
  | cons a l ih =>
    rcases List.mem_cons.mp ht with rfl | ht
    · exact ⟨wireFlit s p 1 r t, (onWire_wireFlit run 1 r t).sendData r l, rfl, rfl⟩
    · exact ih ((PortOnly.sendFlit p 1 r a s).flush.trans run) ht

theorem sendFlit_nakDue {p : Fin 4} {s : State} (run : flushOn s = false) (ft : BitVec 4) (r : Bool) (t : TxFlit) : ((sendFlit p ft r t s).port p).nakDue = false := by
  rw [sendFlit_record run]

/-- The NAK of an episode goes with the flit that leaves next (03 R79). -/
theorem wireFlit_nak {p : Fin 4} {s : State} (nak : (s.port p).nak = true) (due : (s.port p).nakDue = true) (ft : BitVec 4) (r : Bool) (t : TxFlit) :
    (wireFlit s p ft r t).ackk = 2 ∧ (wireFlit s p ft r t).ackseq = (s.port p).expect - 1 := by
  have kind : ackKind (portSt s p) (s.port p) = 2 := by
    unfold ackKind
    rw [if_pos nak, if_pos due]
  exact ⟨congrArg (BitVec.ofNat 2) kind, rfl⟩

theorem fget_sendFlit_nakTx {p : Fin 4} {s : State} (run : flushOn s = false) (nak : (s.port p).nak = true) (due : (s.port p).nakDue = true)
    (ft : BitVec 4) (r : Bool) (t : TxFlit) :
    fget (sendFlit p ft r t s) (HP p) HP_NAK_TX_COUNT = min (fget s (HP p) HP_NAK_TX_COUNT + 1) (2 ^ 32 - 1) := by
  rw [sendFlit_eq run, fget_congr (updPort_regs _ _ _), nak, due]
  exact fget_fbump _ _ _ (by decide)

/-- With no NAK due, flits that leave do not count as NAKs. -/
theorem fget_sendData_nakTx {p : Fin 4} (r : Bool) (l : List TxFlit) {s : State} (due : (s.port p).nakDue = false) :
    fget (sendData p r l s) (HP p) HP_NAK_TX_COUNT = fget s (HP p) HP_NAK_TX_COUNT ∧ ((sendData p r l s).port p).nakDue = false := by
  have one : ∀ t y, (y.port p).nakDue = false → fget (sendFlit p 1 r t y) (HP p) HP_NAK_TX_COUNT = fget y (HP p) HP_NAK_TX_COUNT
      ∧ ((sendFlit p 1 r t y).port p).nakDue = false := fun t y due => by
    cases run : flushOn y
    · refine ⟨?_, sendFlit_nakDue run 1 r t⟩
      rw [sendFlit_eq run, fget_congr (updPort_regs _ _ _), due, Bool.and_false]
      rfl
    · rw [sendFlit, if_pos run]
      exact ⟨rfl, due⟩
  induction l generalizing s with
  | nil => exact ⟨rfl, due⟩
  | cons t l ih =>
    obtain ⟨count, due'⟩ := one t s due
    obtain ⟨counts, dues⟩ := ih due'
    exact ⟨counts.trans count, dues⟩

/-! ### Packing and sending -/

/-- A port's record once flits `r` have joined its replay buffer, with what waits after them and the slots sent of each class. -/
def packed (ps : PortState) (r : List TxFlit) (q : BitVec 12) (a : Nat) (t : List (List Slot)) (b : List Resp) (x y z : Nat) : PortState :=
  { ps with replay := ps.replay ++ r, nextFseq := q, ackAt8 := a, txT := t, rab := b,
            crX := { ps.crX with sent := x }, crT := { ps.crT with sent := y }, crC := { ps.crC with sent := z } }

theorem packed_nothing (ps : PortState) : ∃ r q a t b x y z, ps = packed ps r q a t b x y z := by
  refine ⟨[], ps.nextFseq, ps.ackAt8, ps.txT, ps.rab, ps.crX.sent, ps.crT.sent, ps.crC.sent, ?_⟩
  unfold packed
  rw [List.append_nil]

/-- From `s` to `t` port `p` has packed what it sends next, and nothing has left it yet. -/
structure Packed (p : Fin 4) (s t : State) : Prop where
  only : PortOnly p s t
  fields : ∀ f : Fld, f.off ≠ HP_CRED_NOW_CRX.off → fget t (HP p) f = fget s (HP p) f
  record : ∃ r q a n b x y z, t.port p = packed (s.port p) r q a n b x y z

theorem fget_HP_showRab (p : Fin 4) {f : Fld} (h : f.off ≠ HP_CRED_NOW_CRX.off) (s : State) : fget (showRab p s) (HP p) f = fget s (HP p) f :=
  fget_HP_fset_ne p (g := HP_CRED_NOW_RAB_FILL) h _ s

theorem showRab_ports (p : Fin 4) (s : State) : (showRab p s).ports = s.ports := fset_ports _ _ _ _

theorem packed_showRab (p : Fin 4) (s : State) : Packed p s (showRab p s) where
  only := PortOnly.fset p _ _ _ s
  fields := fun _ h => fget_HP_showRab p h s
  record := by
    rw [port_congr (showRab_ports p s)]
    exact packed_nothing _

theorem cutFlits_ne_nil (n : Nat) (q : BitVec 12) {l : List (Slot × Bool)} (h : l.isEmpty = false) : ∃ t r, cutFlits (n + 1) q l = t :: r :=
  ⟨_, _, if_neg (ne_true_of_eq_false h)⟩

/-- An ACTIVE port sends at least one flit: what it packs, or an IDLE flit (03 R72, R76). -/
theorem pump_active {p : Fin 4} {s : State} (active : portSt s p = PORT_ACTIVE) (run : flushOn s = false) :
    ∃ y ft t l, pump p s = sendData p false l (sendFlit p ft false t y) ∧ Packed p s y := by
  unfold pump
  extract_lets ps room ts nT nC cs xs nX slots flits c1 c2 c3 ps' s1 con y z w
  rw [if_neg (by simp [active, run])]
  split
  · exact ⟨_, _, _, [], rfl, packed_showRab p s⟩
  cases none : slots.isEmpty
  · obtain ⟨t, l, cut⟩ := cutFlits_ne_nil 511 ps.nextFseq none
    refine ⟨_, 1, t, l, congrArg (fun l => sendData p false l _) cut, ?_⟩
    have packing : PortOnly p s y := (PortOnly.updPort p (fun _ => ps') s).trans (PortOnly.of_ports rfl rfl rfl rfl)
    have charged : PortOnly p y w := (PortOnly.forAll _ _ _ fun _ _ => PortOnly.charge p _ _ _ _).trans (PortOnly.charge p _ _ _ _)
    have regs : w.regs = s.regs := (charge_regs _ _ _ _).trans (forAll_inv (·.regs) _ _ _ fun _ _ => charge_regs _ _ _ _)
    have ports : w.ports = y.ports := (charge_ports _ _ _ _).trans (forAll_inv (·.ports) _ _ _ fun _ _ => charge_ports _ _ _ _)
    constructor
    · exact packing.trans (charged.trans ((PortOnly.fset p _ _ _ w).trans (PortOnly.fset p _ _ _ _)))
    · exact fun f hf => (fget_HP_showRab p hf _).trans ((fget_HP_fset_ne p (g := HP_CRED_NOW_CRX) hf _ _).trans (fget_congr regs _ _))
    · refine ⟨flits, ps'.nextFseq, ps'.ackAt8, ps'.txT, ps'.rab, ps'.crX.sent, ps'.crT.sent, ps'.crC.sent, ?_⟩
      exact (port_congr ((showRab_ports p _).trans ((fset_ports _ _ _ _).trans ports)) p).trans (updPort_port p (fun _ => ps') s)
  · exact ⟨_, _, _, [], rfl, packed_showRab p s⟩

/-- A port that is not ACTIVE, or whose transmitters a power-fail flush has turned off, sends nothing (03 R76, 12 R364). -/
theorem pump_silent {p : Fin 4} {s : State} (h : portSt s p ≠ PORT_ACTIVE ∨ flushOn s = true) : pump p s = showRab p s := if_pos h

theorem pump_cases (p : Fin 4) (s : State) :
    pump p s = showRab p s ∨ ∃ y ft t l, pump p s = sendData p false l (sendFlit p ft false t y) ∧ Packed p s y := by
  by_cases active : portSt s p = PORT_ACTIVE
  · cases run : flushOn s
    · exact .inr (pump_active active run)
    · exact .inl (pump_silent (.inr run))
  · exact .inl (pump_silent (.inl active))

theorem PortOnly.pump (p : Fin 4) (s : State) : PortOnly p s (pump p s) := by
  rcases pump_cases p s with silent | ⟨y, ft, t, l, sends, packed⟩
  · rw [silent]
    exact fset p _ _ _ s
  · rw [sends]
    exact packed.only.trans ((sendFlit p ft false t y).trans (sendData p false l _))

/-- Sending leaves of a port's record what neither the packing nor the flits that leave change. -/
theorem pump_port {β : Type} (g : PortState → β) (p : Fin 4) (s : State) (sent : ∀ ps o n d, g { ps with out := o, outAt8 := n, nakDue := d } = g ps)
    (pack : ∀ ps r q a t b x y z, g (packed ps r q a t b x y z) = g ps) : g ((pump p s).port p) = g (s.port p) := by
  rcases pump_cases p s with silent | ⟨y, ft, t, l, sends, packed⟩
  · rw [silent, port_congr (showRab_ports p s)]
  · obtain ⟨r, q, a, n, b, x, y, z, record⟩ := packed.record
    rw [sends]
    refine (forAll_inv (fun u => g (u.port p)) _ _ _ fun _ _ => sendFlit_port g p p _ _ _ _ sent).trans ((sendFlit_port g p p _ _ _ _ sent).trans ?_)
    rw [record, pack]

theorem pump_nak (p : Fin 4) (s : State) : ((pump p s).port p).nak = (s.port p).nak :=
  pump_port (·.nak) p s (fun _ _ _ _ => rfl) fun _ _ _ _ _ _ _ _ _ => rfl

theorem pump_expect (p : Fin 4) (s : State) : ((pump p s).port p).expect = (s.port p).expect :=
  pump_port (·.expect) p s (fun _ _ _ _ => rfl) fun _ _ _ _ _ _ _ _ _ => rfl

/-- Sending only adds to the replay buffer. -/
theorem pump_replay (p : Fin 4) (s : State) : ∃ l, ((pump p s).port p).replay = (s.port p).replay ++ l := by
  rcases pump_cases p s with silent | ⟨y, ft, t, l, sends, packed⟩
  · exact ⟨[], by rw [silent, port_congr (showRab_ports p s), List.append_nil]⟩
  · obtain ⟨r, q, a, n, b, x, y', z, record⟩ := packed.record
    refine ⟨r, ?_⟩
    have same : ∀ ft b x u, ((sendFlit p ft b x u).port p).replay = (u.port p).replay := fun ft b x u => sendFlit_port (·.replay) p p ft b x u fun _ _ _ _ => rfl
    rw [sends]
    refine (forAll_inv (fun u => (u.port p).replay) _ _ _ fun _ _ => same _ _ _ _).trans ((same _ _ _ _).trans ?_)
    rw [record]
    rfl

theorem OnWire.pump {p : Fin 4} {x : Flit} {s : State} (h : OnWire p x s) : OnWire p x (pump p s) := by
  rcases pump_cases p s with silent | ⟨y, ft, t, l, sends, packed⟩
  · rw [silent]
    exact h.congr (showRab_ports p s) rfl
  · obtain ⟨r, q, a, n, b, x', y', z, record⟩ := packed.record
    rw [sends]
    refine (OnWire.sendFlit ?_ ft false t).sendData false l
    unfold OnWire
    rw [record, packed.only.d8]
    exact h

/-- A port whose NAK is due sends it at once, in the first flit alone (03 R79). -/
theorem pump_sends_nak {p : Fin 4} {s : State} (active : portSt s p = PORT_ACTIVE) (run : flushOn s = false) (nak : (s.port p).nak = true)
    (due : (s.port p).nakDue = true) :
    (∃ f, OnWire p f (pump p s) ∧ f.ackk = 2 ∧ f.ackseq = (s.port p).expect - 1) ∧ ((pump p s).port p).nakDue = false
      ∧ fget (pump p s) (HP p) HP_NAK_TX_COUNT = min (fget s (HP p) HP_NAK_TX_COUNT + 1) (2 ^ 32 - 1) := by
  obtain ⟨y, ft, t, l, sends, packs⟩ := pump_active active run
  obtain ⟨r, q, a, n, b, x, y', z, record⟩ := packs.record
  have run' := packs.only.flush.trans run
  have nak' : (y.port p).nak = true := record ▸ nak
  have due' : (y.port p).nakDue = true := record ▸ due
  obtain ⟨kind, seq⟩ := wireFlit_nak nak' due' ft false t
  obtain ⟨count, done⟩ := fget_sendData_nakTx false l (sendFlit_nakDue run' ft false t)
  rw [sends]
  refine ⟨⟨_, (onWire_wireFlit run' ft false t).sendData false l, kind, ?_⟩, done, ?_⟩
  · rw [seq, record]
    rfl
  · rw [count, fget_sendFlit_nakTx run' nak' due', packs.fields _ (by decide)]

/-! ### Time passes -/

theorem fget_advanceTo8 (n : Nat) (s : State) (b : Nat) (f : Fld) : fget (advanceTo8 n s) b f = fget s b f := fget_congr (advanceTo8_regs n s) b f

theorem advanceTo8_port (n : Nat) (s : State) (p : Fin 4) : (advanceTo8 n s).port p = s.port p := port_congr (advanceTo8_ports n s) p

/-! ### Retransmission -/

section
variable {p : Fin 4} {s : State} (unacked : (s.port p).replay ≠ []) (run : flushOn s = false)
include unacked run

/-- With fewer than RPL_MAX retransmissions since an acknowledgement advanced, the buffered flits from `q` on are sent again (03 R80). -/
theorem retransmit_resends (left : (s.port p).retries < max 1 (fget s (HP p) HP_LTMR_RPL_MAX)) (q : BitVec 12) :
    retransmit p q s = sendData p true ((s.port p).replay.filter fun t => (t.fseq - q).toNat < 512)
      (updPort p (fun ps => { ps with resentFrom := some q, retries := (s.port p).retries + 1, ackAt8 := s.d8 }) s) :=
  (if_neg (by simp [unacked, run])).trans (if_neg (Nat.not_le.mpr left))

/-- Past RPL_MAX of them the port enters RETRAIN (03 R81). -/
theorem retransmit_retrains (spent : max 1 (fget s (HP p) HP_LTMR_RPL_MAX) ≤ (s.port p).retries) (q : BitVec 12) :
    retransmit p q s = toRetrain p false (updPort p (fun ps => { ps with trainOk := true, newFail := 0 }) s) :=
  (if_neg (by simp [unacked, run])).trans (if_pos spent)

end

theorem sendData_port {β : Type} (g : PortState → β) (p : Fin 4) (r : Bool) (l : List TxFlit) (s : State)
    (sent : ∀ ps o n d, g { ps with out := o, outAt8 := n, nakDue := d } = g ps) : g ((sendData p r l s).port p) = g (s.port p) :=
  forAll_inv (fun u => g (u.port p)) _ _ _ fun _ _ => sendFlit_port g p p _ _ _ _ sent

/-- A lossless RETRAIN of a port whose record has been changed by `g` (03 R93, R104). -/
theorem toRetrain_lossless (p : Fin 4) (u : Bool) (g : PortState → PortState) (s : State) :
    portSt (toRetrain p u (updPort p g s)) p = PORT_RETRAIN ∧ ((toRetrain p u (updPort p g s)).port p).lossless = true
      ∧ ((toRetrain p u (updPort p g s)).port p).upgrade = u ∧ ((toRetrain p u (updPort p g s)).port p).replay = (g (s.port p)).replay
      ∧ ((toRetrain p u (updPort p g s)).port p).expect = (g (s.port p)).expect := by
  refine ⟨portSt_toRetrain _ _ _, ?_, ?_, ?_, ?_⟩
  · rw [toRetrain_port (·.lossless) _ _ _ (fun _ _ _ _ => rfl) fun _ _ => rfl]
  · rw [toRetrain_port (·.upgrade) _ _ _ (fun _ _ _ _ => rfl) fun _ _ => rfl]
  · rw [toRetrain_port (·.replay) _ _ _ (fun _ _ _ _ => rfl) fun _ _ => rfl, updPort_port]
  · rw [toRetrain_port (·.expect) _ _ _ (fun _ _ _ _ => rfl) fun _ _ => rfl, updPort_port]

/-! ### Memories and stream records -/

theorem exec_dram {c : Instr} {s t : State} (e : exec c s = .next t) (h : Store.dram ∉ stores c) : t.dram = s.dram := exec_keptStore e h

theorem exec_wmem {c : Instr} {s t : State} (e : exec c s = .next t) (h : Store.wmem ∉ stores c) : t.wmem = s.wmem := exec_keptStore e h

theorem exec_streams {c : Instr} {s t : State} (e : exec c s = .next t) (h : Store.streams ∉ stores c) : t.streams = s.streams := exec_keptStore e h

end Sys2Proof.Proofs

/-! PROOF. The flit layer's timers (03 R79, R81, R92). -/

namespace Sys2Proof.Proofs
open Sys2Proof Sys2Proof.Machine Sys2Proof.Laws

/-! ### NAK_TIMEOUT -/

/-- The timer of the NAK episode has run out, and the NAK is due once more. -/
def nakAgain (p : Fin 4) (s : State) : State :=
  let t := advanceTo8 ((s.port p).nakAt8 + LINK8 * max 64 (fget s (HP p) HP_LTMR_NAK_TMO)) s
  updPort p (fun ps => { ps with nakAt8 := t.d8, nakDue := true }) t

theorem exec_nakTimeout {p : Fin 4} {s : State} (active : portSt s p = PORT_ACTIVE) (nak : (s.port p).nak = true) :
    exec (.nakTimeout p) s = .next (pump p (nakAgain p s)) := congrArg Host.Outcome.next (if_pos ⟨active, nak⟩)

theorem nakAgain_port (p : Fin 4) (s : State) : (nakAgain p s).port p = { s.port p with nakAt8 := (nakAgain p s).d8, nakDue := true } := by
  unfold nakAgain
  rw [updPort_port, advanceTo8_port]
  rfl

theorem nakAgain_port_ne {p q : Fin 4} (h : q ≠ p) (s : State) : (nakAgain p s).port q = s.port q :=
  (updPort_port_ne p q _ _ h).trans (advanceTo8_port _ s q)

theorem fget_nakAgain (p : Fin 4) (s : State) (b : Nat) (f : Fld) : fget (nakAgain p s) b f = fget s b f :=
  (fget_congr (updPort_regs _ _ _) b f).trans (fget_advanceTo8 _ s b f)

/-! ### ACK_TIMEOUT -/

/-- The time-out of an acknowledgement, counted where it drives a retransmission (03 R106). -/
def ackLate (p : Fin 4) (s : State) : State :=
  let t := advanceTo8 ((s.port p).ackAt8 + LINK8 * max 256 (fget s (HP p) HP_LTMR_ACK_TMO)) s
  onlyIf (decide ((t.port p).retries < max 1 (fget t (HP p) HP_LTMR_RPL_MAX))) (fbump (HP p) HP_RPL_TMO_COUNT) t

theorem ackLate_port (p q : Fin 4) (s : State) : (ackLate p s).port q = s.port q :=
  (port_congr (onlyIf_inv (·.ports) _ _ _ fun _ => fbump_ports _ _ _) q).trans (advanceTo8_port _ s q)

theorem ackLate_d8 (p : Fin 4) (s : State) : (ackLate p s).d8 = firstCycle8 s ((s.port p).ackAt8 + 10 * max 256 (fget s (HP p) HP_LTMR_ACK_TMO)) :=
  onlyIf_inv (·.d8) _ _ _ fun _ => fbump_d8 _ _ _

theorem ackLate_flush (p : Fin 4) (s : State) : flushOn (ackLate p s) = flushOn s := onlyIf_inv flushOn _ _ _ fun _ => rfl

theorem fget_ackLate {p : Fin 4} {f : Fld} (h : f.off ≠ HP_RPL_TMO_COUNT.off) (s : State) : fget (ackLate p s) (HP p) f = fget s (HP p) f :=
  (onlyIf_inv (fun s => fget s (HP p) f) _ _ _ fun y => fget_HP_fbump_ne p h y).trans (fget_advanceTo8 _ s _ _)

theorem fget_ackLate_count (p : Fin 4) (s : State) : fget (ackLate p s) (HP p) HP_RPL_TMO_COUNT
    = if (s.port p).retries < max 1 (fget s (HP p) HP_LTMR_RPL_MAX) then min (fget s (HP p) HP_RPL_TMO_COUNT + 1) (2 ^ 32 - 1) else fget s (HP p) HP_RPL_TMO_COUNT := by
  unfold ackLate onlyIf
  simp only [advanceTo8_port, fget_advanceTo8, decide_eq_true_eq]
  split
  · rw [fget_fbump _ _ _ (by decide), fget_advanceTo8]
    rfl
  · exact fget_advanceTo8 _ s _ _

theorem exec_ackTimeout {p : Fin 4} {s : State} (active : portSt s p = PORT_ACTIVE) (unacked : (s.port p).replay ≠ []) (run : flushOn s = false) :
    exec (.ackTimeout p) s = .next (retransmit p (oldestSeq (s.port p)) (ackLate p s)) := by
  refine (congrArg Host.Outcome.next (if_pos ⟨active, by simp [unacked], by simp [run]⟩)).trans ?_
  dsimp only
  rw [advanceTo8_port]
  rfl

/-! ### TRAINING_TIMEOUT -/

/-- The instant at which the training state of a port runs out (03 R91). -/
def trainingEnd8 (p : Fin 4) (s : State) : Nat :=
  let st := portSt s p
  (s.port p).stAt8 + LINK8 * (if st = PORT_DETECT then 80000000 else if st = PORT_EQUALISE then 40000000 else if st = PORT_RETRAIN then 4000000 else 800000)

/-- The count of consecutive time-outs of training has risen, as far as 3 (03 R92). -/
def trainingLate (p : Fin 4) (s : State) : State :=
  fset (HP p) HP_STATUS_TRN_FAIL (min (fget s (HP p) HP_STATUS_TRN_FAIL + 1) 3) (advanceTo8 (trainingEnd8 p s) s)

theorem fget_trainingLate (p : Fin 4) (s : State) : fget (trainingLate p s) (HP p) HP_STATUS_TRN_FAIL = min (fget s (HP p) HP_STATUS_TRN_FAIL + 1) 3 := by
  refine (fget_fset _ _ _ _ (by decide)).trans (Nat.mod_eq_of_lt ?_)
  exact Nat.lt_of_le_of_lt (Nat.min_le_right _ _) (by decide)

/-- The port is given up. -/
def trainingFailed (p : Fin 4) (s : State) : State :=
  setPortSt p PORT_DOWN (fset (HP p) HP_STATUS_TRN_TMO 1 (irq GLB_IRQ_STAT_PORT_DOWN (emit "port_down" [("port", .n p), ("cause", .s "training")] s)))

theorem exec_trainingTimeout {p : Fin 4} {s : State}
    (st : portSt s p = PORT_DETECT ∨ portSt s p = PORT_EQUALISE ∨ portSt s p = PORT_ALIGN ∨ portSt s p = PORT_INIT) :
    exec (.trainingTimeout p) s = .next (if max 1 (fget s (HP p) HP_CTL_TRN_TRIES) ≤ fget s (HP p) HP_STATUS_TRN_FAIL + 1
      then trainingFailed p (trainingLate p s) else toDetect p (trainingLate p s)) := by
  have no : portSt s p ≠ PORT_RETRAIN := by
    rcases st with h | h | h | h <;> rw [h] <;> decide
  refine (congrArg Host.Outcome.next ((if_neg no).trans (if_pos st))).trans ?_
  dsimp only
  rw [fget_HP_fset_ne p (by decide), fget_advanceTo8, fget_advanceTo8]
  rfl

theorem exec_trainingTimeout_retrain {p : Fin 4} {s : State} (st : portSt s p = PORT_RETRAIN) :
    exec (.trainingTimeout p) s = .next (portReset p "retrain" (advanceTo8 (trainingEnd8 p s) s)) := congrArg Host.Outcome.next (if_pos st)

theorem fget_HP_irq (p : Fin 4) (f : Fld) {g : Fld} (h : g.off < 0x1000) (s : State) : fget (irq g s) (HP p) f = fget s (HP p) f := fget_irq _ _ _ _ (HP_GLB p _ h)

theorem fget_HP_toDetect (p : Fin 4) {f : Fld} (hf : Lasting f) (s : State) : fget (toDetect p s) (HP p) f = fget s (HP p) f :=
  (fget_HP_setPortSt p hf _ _).trans ((fget_fset_ne _ _ _ _ _ _ (HP_GLB p _ (by decide))).trans (fget_congr (updPort_regs _ _ _) _ _))

theorem fget_trainingFailed (p : Fin 4) (s : State) :
    fget (trainingFailed p s) (HP p) HP_STATUS_TRN_FAIL = fget s (HP p) HP_STATUS_TRN_FAIL ∧ fget (trainingFailed p s) (HP p) HP_STATUS_TRN_TMO = 1 := by
  unfold trainingFailed
  rw [fget_HP_setPortSt p (by decide), fget_HP_setPortSt p (by decide), fget_fset_apart (f := HP_STATUS_TRN_FAIL) _ (by decide), fget_fset _ _ _ _ (by decide),
    fget_HP_irq p _ (by decide), fget_HP_emit]
  exact ⟨rfl, rfl⟩

theorem trainingFailed_streams (p : Fin 4) (s : State) : (trainingFailed p s).streams = s.streams := by
  unfold trainingFailed
  rw [setPortSt_streams, fset_streams, irq_streams, emit_streams]

/-! ### The statement -/

/-- Settles O2: each timer by what its command does and what sending, RETRAIN, DETECT or a reset then leaves. -/
theorem portTimersFire : Obligations.PortTimersFire := by
  unfold Obligations.PortTimersFire
  refine ⟨fun p s active run nak => ?nak, fun p s active run unacked left => ?resend, fun p s active run unacked spent => ?retrain, fun p s st => ?training, fun p s st => ?reset⟩
  case nak =>
    have e := exec_nakTimeout active nak
    have record := nakAgain_port p s
    have only := PortOnly.pump p (nakAgain p s)
    have same : portSt (nakAgain p s) p = PORT_ACTIVE := (fget_nakAgain p s _ _).trans active
    have due : ((nakAgain p s).port p).nakDue = true := by rw [record]
    have nak' : ((nakAgain p s).port p).nak = true := by rw [record]; exact nak
    obtain ⟨⟨f, ⟨-, out⟩, kind, seq⟩, sent, count⟩ := pump_sends_nak same run nak' due
    rw [fget_nakAgain] at count
    refine ⟨_, e, only.d8, (pump_nak p _).trans nak', sent, ?_, ?_, (portSt_pump p _).trans same, ⟨f, out, kind, ?_⟩, count,
      fun q hq => (only.others q hq).trans (nakAgain_port_ne hq s), exec_dram e (by simp [stores]), exec_wmem e (by simp [stores]), exec_streams e (by simp [stores])⟩
    · rw [only.d8, pump_port (·.nakAt8) p _ (fun _ _ _ _ => rfl) fun _ _ _ _ _ _ _ _ _ => rfl, record]
    · rw [pump_expect, record]
    · rw [seq, record]
  case resend =>
    have e := exec_ackTimeout active unacked run
    have record := ackLate_port p p s
    have max8 : fget (ackLate p s) (HP p) HP_LTMR_RPL_MAX = fget s (HP p) HP_LTMR_RPL_MAX := fget_ackLate (by decide) s
    rw [retransmit_resends (record ▸ unacked) ((ackLate_flush p s).trans run) (by rw [record, max8]; exact left), record] at e
    refine ⟨_, e, (sendData_d8 _ _ _ _).trans (ackLate_d8 p s), ?_, ?_, ?_, ?_, ?_, fun x hx near => ?_, ?_,
      exec_dram e (by simp [stores]), exec_wmem e (by simp [stores]), exec_streams e (by simp [stores])⟩
    · rw [sendData_port (·.replay) _ _ _ _ fun _ _ _ _ => rfl, updPort_port, record]
    · rw [sendData_port (·.resentFrom) _ _ _ _ fun _ _ _ _ => rfl, updPort_port]
    · rw [sendData_port (·.retries) _ _ _ _ fun _ _ _ _ => rfl, updPort_port]
    · rw [sendData_port (·.ackAt8) _ _ _ _ fun _ _ _ _ => rfl, updPort_port, sendData_d8, updPort_d8]
    · rw [portSt_sendData]
      exact (fget_ackLate (by decide) s).trans active
    · have resent : x ∈ (s.port p).replay.filter fun t => (t.fseq - oldestSeq (s.port p)).toNat < 512 := List.mem_filter.mpr ⟨hx, decide_eq_true near⟩
      obtain ⟨f, ⟨-, out⟩, seq, again⟩ := sendData_sends (p := p) true _ (s := updPort p _ (ackLate p s)) ((ackLate_flush p s).trans run) resent
      exact ⟨f, out, seq, again⟩
    · rw [fget_HP_sendData p (by decide), fget_congr (updPort_regs _ _ _), fget_ackLate_count, if_pos left]
  case retrain =>
    have e := exec_ackTimeout active unacked run
    have record := ackLate_port p p s
    have max8 : fget (ackLate p s) (HP p) HP_LTMR_RPL_MAX = fget s (HP p) HP_LTMR_RPL_MAX := fget_ackLate (by decide) s
    rw [retransmit_retrains (record ▸ unacked) ((ackLate_flush p s).trans run) (by rw [record, max8]; exact spent)] at e
    obtain ⟨st, lossless, -, replay, -⟩ := toRetrain_lossless p false (fun ps => { ps with trainOk := true, newFail := 0 }) (ackLate p s)
    rw [record] at replay
    refine ⟨_, e, (toRetrain_d8 _ _ _).trans (ackLate_d8 p s), st, lossless, replay, ?_, ?_,
      exec_dram e (by simp [stores]), exec_wmem e (by simp [stores]), exec_streams e (by simp [stores])⟩
    · rw [toRetrain_port (·.retries) _ _ _ (fun _ _ _ _ => rfl) fun _ _ => rfl, updPort_port, record]
    · rw [fget_HP_toRetrain p (by decide), fget_congr (updPort_regs _ _ _), fget_ackLate_count, if_neg (Nat.not_lt.mpr spent)]
  case training =>
    have e := exec_trainingTimeout st
    have dram := exec_dram e (by simp [stores])
    have wmem := exec_wmem e (by simp [stores])
    refine ⟨_, e, ?_⟩
    split
    next spent =>
      obtain ⟨count, tmo⟩ := fget_trainingFailed p (trainingLate p s)
      rw [if_pos spent] at dram wmem
      exact ⟨count.trans (fget_trainingLate p s), fun more => absurd spent (Nat.not_le.mpr more), fun _ => ⟨portSt_setPortSt p PORT_DOWN _, tmo⟩, dram, wmem,
        trainingFailed_streams p _⟩
    next left =>
      rw [if_neg left] at dram wmem
      exact ⟨(fget_HP_toDetect p (by decide) _).trans (fget_trainingLate p s), fun _ => portSt_toDetect p _, fun no => absurd no left, dram, wmem, toDetect_streams p _⟩
  case reset =>
    have e := exec_trainingTimeout_retrain st
    obtain ⟨replay, rab, -⟩ := portReset_port p "retrain" (advanceTo8 (trainingEnd8 p s) s)
    refine ⟨_, e, ?_, replay, rab, exec_dram e (by simp [stores]), exec_wmem e (by simp [stores])⟩
    rw [portSt_portReset, fbit_congr (advanceTo8_regs _ _)]

end Sys2Proof.Proofs

/-! PROOF. What the writes of a port's registers do (03 R98, R102, R103, R104). -/

namespace Sys2Proof.Proofs
open Sys2Proof Sys2Proof.Machine Sys2Proof.Laws

/-! ### The register bus -/

/-- A write to a block that can be accessed has its effect, once a pending pair has failed (16 R462, R464). -/
theorem busWr_on {s : State} {b : Nat} (on : blockOn s b = true) (f : State → State) : busWr b f s = f (breakPair s) := by
  have console : consoleOn s = true := by
    unfold blockOn at on
    simp only [Bool.and_eq_true] at on
    exact on.1.1
  unfold busWr
  simp [console, on]

/-- A pending pair that fails shows in GLB's registers alone. -/
theorem breakPair_rg {a : Nat} (s : State) (h1 : a ≠ GLB + GLB_STATUS_GUARD_FAIL.off) (h2 : a ≠ GLB + GLB_IRQ_STAT_GUARD.off) : rg (breakPair s) a = rg s a := by
  unfold breakPair
  split
  · exact (rg_fset_ne _ _ _ _ h2).trans ((rg_fset_ne _ _ _ _ h1).trans (rg_congr rfl a))
  · rfl

theorem rg_HP_breakPair (p : Fin 4) (i : Nat) (s : State) : rg (breakPair s) (HP p + i) = rg s (HP p + i) :=
  breakPair_rg s (HP_GLB p i (by decide)) (HP_GLB p i (by decide))

theorem fget_HP_breakPair (p : Fin 4) (f : Fld) (s : State) : fget (breakPair s) (HP p) f = fget s (HP p) f := congrArg f.get (rg_HP_breakPair p f.off s)

theorem fbit_HP_breakPair (p : Fin 4) (f : Fld) (s : State) : fbit (breakPair s) (HP p) f = fbit s (HP p) f := congrArg (· != 0) (fget_HP_breakPair p f s)

theorem portSt_breakPair (p : Fin 4) (s : State) : portSt (breakPair s) p = portSt s p := fget_HP_breakPair p _ s

theorem breakPair_port (p : Fin 4) (s : State) : (breakPair s).port p = s.port p := port_congr (breakPair_ports s) p

/-! ### A port reset -/

/-- A port reset leaves the fields of a port's block that neither its link nor its counts hold (03 R98). -/
theorem fget_HP_portReset (p : Fin 4) {f : Fld} (hf : Lasting f) (pipe : f.off ≠ HP_PIPE_RX_LAT.off) (count : f.off ≠ HP_RESETS_COUNT.off)
    (fail : Apart f HP_STATUS_TRN_FAIL) (c : String) (s : State) : fget (portReset p c s) (HP p) f = fget s (HP p) f := by
  have ⟨⟨low, credits, _⟩, _⟩ := hf
  unfold portReset
  extract_lets x y z w
  have cleared : fget w (HP p) f = fget s (HP p) f :=
    (fget_fset_apart (HP p) fail _ _).trans <| (fget_HP_irq p f (by decide) _).trans <| (fget_HP_emit p _ _ _).trans <| (fget_HP_fbump_ne p count _).trans <|
      fget_clearPort _ _ _ _ (HP_GLB p _ (by decide)) (HP_CON p _ (by decide)) (HP_CON p _ (by decide)) (off_ne _ credits) (off_ne _ pipe)
  split
  · exact (fget_HP_toDetect p hf w).trans cleared
  · exact (fget_HP_setPortSt p hf _ w).trans cleared

theorem fbit_EN_portReset (p : Fin 4) (c : String) (s : State) : fbit (portReset p c s) (HP p) HP_CTL_EN = fbit s (HP p) HP_CTL_EN :=
  congrArg (· != 0) (fget_HP_portReset p (by decide) (by decide) (by decide) (by decide) c s)

/-! ### EN and TUN_EN -/

theorem setPortEn_begins {p : Fin 4} {s : State} (off : fbit s (HP p) HP_CTL_EN = false) (down : portSt s p = PORT_DOWN) :
    setPortEn p true s = toDetect p (fset (HP p) HP_STATUS_TRN_FAIL 0 (fset (HP p) HP_CTL_EN 1 s)) := by
  have down' : portSt (fset (HP p) HP_CTL_EN 1 s) p = PORT_DOWN := (fget_HP_fset_ne p (by decide) _ s).trans down
  exact (if_pos (by rw [off]; rfl)).trans (if_pos down')

theorem setPortEn_ends {p : Fin 4} {s : State} (on : fbit s (HP p) HP_CTL_EN = true) :
    setPortEn p false s = portReset p "command" (fset (HP p) HP_CTL_EN 0 s) := by
  unfold setPortEn
  simp [on, fsetB]

theorem setTunEn_rejected {p : Fin 4} {s : State} (other : ∃ q, q ≠ p ∧ fbit s (HP q) HP_CTL_TUN_EN = true) :
    setTunEn p true s = fset (HP p) HP_STATUS_TUN_REJ 1 s := by
  obtain ⟨q, ne, has⟩ := other
  exact (if_pos rfl).trans (if_pos (List.any_eq_true.mpr ⟨q, List.mem_finRange q, by simp [ne, has]⟩))

theorem setTunEn_set {p : Fin 4} {s : State} (free : ∀ q, q ≠ p → fbit s (HP q) HP_CTL_TUN_EN = false) :
    fbit (setTunEn p true s) (HP p) HP_CTL_TUN_EN = true ∧ (setTunEn p true s).ports = s.ports := by
  have none : (allPorts.any fun q => q ≠ p && fbit s (HP q) HP_CTL_TUN_EN) = false := by
    refine List.any_eq_false.mpr fun q _ => ?_
    by_cases h : q = p
    · simp [h]
    · simp [free q h]
  have set : fbit (fset (HP p) HP_CTL_TUN_EN 1 s) (HP p) HP_CTL_TUN_EN = true := fbit_fset_one _ _ _ (by decide) (by decide)
  have shape : setTunEn p true s = if portSt (fset (HP p) HP_CTL_TUN_EN 1 s) p = PORT_ACTIVE then tunnelUp p (fset (HP p) HP_CTL_TUN_EN 1 s)
      else fset (HP p) HP_CTL_TUN_EN 1 s := (if_pos rfl).trans (if_neg (ne_true_of_eq_false none))
  rw [shape]
  split
  · exact ⟨(congrArg (· != 0) (fget_HP_tunnelUp p (by decide) _)).trans set, tunnelUp_ports _ _⟩
  · exact ⟨set, rfl⟩

theorem setTunEn_clear (p : Fin 4) (s : State) :
    fbit (setTunEn p false s) (HP p) HP_CTL_TUN_EN = false ∧ (setTunEn p false s).ports = s.ports := by
  refine ⟨(congrArg (· != 0) (fget_HP_tunFollow p (by decide) _)).trans (fbit_fset_zero _ _ _ (by decide)), ?_⟩
  exact (tunFollow_ports _ _).trans (tunnelDown_ports _ _)

/-! ### The statement -/

/-- Settles O3: each write by its effect on the state in which a pending pair has failed. -/
theorem portCommandsAct : Obligations.PortCommandsAct := by
  unfold Obligations.PortCommandsAct
  intro p s on
  have record := breakPair_port p s
  have en := fbit_HP_breakPair p HP_CTL_EN s
  have bus : ∀ f, Host.Outcome.next (busWr (HP p) f s) = (.next (f (breakPair s)) : Host.Outcome State Fault Refusal) := fun f => congrArg _ (busWr_on on f)
  refine ⟨?reset, fun active => ?retrain, fun active => ?upgrade, fun off down => ?begins, fun set => ?ends, fun free => ?take, fun other => ?reject, ?give⟩
  case reset =>
    have e : exec (.portReset p) s = _ := bus (portReset p "command")
    obtain ⟨replay, rab, expect, next, part, -, crX, crT, crC, intake⟩ := portReset_port p "command" (breakPair s)
    exact ⟨_, e, by rw [portSt_portReset, en], replay, rab, part, expect, next, crX, crT, crC, by rw [intake, record], exec_dram e (by simp [stores]), exec_wmem e (by simp [stores])⟩
  case retrain =>
    have e : exec (.retrain p) s = _ := (bus (retrainReq p)).trans (congrArg _ (if_pos ((portSt_breakPair p s).trans active)))
    obtain ⟨st, lossless, upgrade, replay, expect⟩ := toRetrain_lossless p false (fun ps => { ps with newFail := 0, trainOk := true }) (breakPair s)
    rw [record] at replay expect
    exact ⟨_, e, st, lossless, upgrade, replay, expect, exec_dram e (by simp [stores]), exec_wmem e (by simp [stores]), exec_streams e (by simp [stores])⟩
  case upgrade =>
    have e : exec (.upgrade p) s = _ := (bus (upgradeCmd p)).trans (congrArg _ (if_pos ((portSt_breakPair p s).trans active)))
    obtain ⟨st, lossless, upgrade, replay, expect⟩ :=
      toRetrain_lossless p true (fun ps => { ps with trainOk := true }) (updPort p (fun ps => { ps with newFail := 0 }) (breakPair s))
    rw [updPort_port, record] at replay expect
    exact ⟨_, e, st, lossless, upgrade, replay, expect, exec_dram e (by simp [stores]), exec_wmem e (by simp [stores]), exec_streams e (by simp [stores])⟩
  case begins =>
    have e : exec (.portEnable p true) s = _ := (bus (setPortEn p true)).trans (congrArg _ (setPortEn_begins (en.trans off) ((portSt_breakPair p s).trans down)))
    refine ⟨_, e, ?_, portSt_toDetect _ _, exec_dram e (by simp [stores]), exec_wmem e (by simp [stores])⟩
    exact (congrArg (· != 0) ((fget_HP_toDetect p (by decide) _).trans (fget_HP_fset_ne p (by decide) _ _))).trans (fbit_fset_one _ _ _ (by decide) (by decide))
  case ends =>
    have e : exec (.portEnable p false) s = _ := (bus (setPortEn p false)).trans (congrArg _ (setPortEn_ends (en.trans set)))
    have cleared : fbit (fset (HP p) HP_CTL_EN 0 (breakPair s)) (HP p) HP_CTL_EN = false := fbit_fset_zero _ _ _ (by decide)
    obtain ⟨replay, -⟩ := portReset_port p "command" (fset (HP p) HP_CTL_EN 0 (breakPair s))
    exact ⟨_, e, (fbit_EN_portReset p _ _).trans cleared, by rw [portSt_portReset, cleared]; rfl, replay, exec_dram e (by simp [stores]), exec_wmem e (by simp [stores])⟩
  case take =>
    have e : exec (.tunnelEnable p true) s = _ := bus (setTunEn p true)
    obtain ⟨set, ports⟩ := setTunEn_set (s := breakPair s) fun q hq => (fbit_HP_breakPair q _ s).trans (free q hq)
    exact ⟨_, e, set, ports.trans (breakPair_ports s), exec_dram e (by simp [stores]), exec_wmem e (by simp [stores])⟩
  case reject =>
    obtain ⟨q, ne, has⟩ := other
    have e : exec (.tunnelEnable p true) s = _ := (bus (setTunEn p true)).trans (congrArg _ (setTunEn_rejected ⟨q, ne, (fbit_HP_breakPair q _ s).trans has⟩))
    exact ⟨_, e, fbit_fset_one _ _ _ (by decide) (by decide), (rg_fset_ne _ _ _ _ (off_ne (HP p) (i := 0) (by decide))).trans (rg_HP_breakPair p 0 s),
      breakPair_ports s, exec_dram e (by simp [stores]), exec_wmem e (by simp [stores])⟩
  case give =>
    have e : exec (.tunnelEnable p false) s = _ := bus (setTunEn p false)
    obtain ⟨clear, ports⟩ := setTunEn_clear p (breakPair s)
    exact ⟨_, e, clear, ports.trans (breakPair_ports s), exec_dram e (by simp [stores]), exec_wmem e (by simp [stores])⟩

end Sys2Proof.Proofs

/-! PROOF. Lanes that fail and a transmit PLL that loses lock (02 R64, 03 R95, R96, R98). -/

namespace Sys2Proof.Proofs
open Sys2Proof Sys2Proof.Machine Sys2Proof.Laws

/-! ### A lane that fails -/

theorem groupMask_congr {s t : State} {p : Fin 4} (width : fget t (HP p) HP_STATUS_WIDTH = fget s (HP p) HP_STATUS_WIDTH) (group : (t.port p).group = (s.port p).group) :
    groupMask t p = groupMask s p := by
  unfold groupMask
  rw [width, group]

section
variable {p : Fin 4} {lane : Nat} {s : State} (active : portSt s p = PORT_ACTIVE) (inGroup : bitOf (groupMask s p) lane = true)
include active inGroup

theorem laneFault_retrains (degrade : fbit s (HP p) HP_CTL_DEGRADE_EN = true) :
    laneFault p lane s = toRetrain p false (updPort p (fun ps => { ps with newFail := BitVec.ofNat 16 (2 ^ lane), trainOk := true }) s) :=
  (if_neg (by simp [inGroup])).trans ((if_pos active).trans (if_pos degrade))

theorem laneFault_resets (degrade : fbit s (HP p) HP_CTL_DEGRADE_EN = false) : laneFault p lane s = portReset p "lanes" s :=
  (if_neg (by simp [inGroup])).trans ((if_pos active).trans (if_neg (ne_true_of_eq_false degrade)))

end

/-- A lane pair's signal has been gone for 64 CK_LINKn cycles (03 R95). -/
def signalGone (s : State) : State := elapse (LINK8 * 64) s

theorem exec_laneSignalLoss {p : Fin 4} {s : State} (active : portSt s p = PORT_ACTIVE) (lane : Fin 16) :
    exec (.laneSignalLoss p lane) s = .next (laneFault p lane (signalGone s)) := congrArg (fun t => Host.Outcome.next (laneFault p lane t)) (if_pos active)

theorem signalGone_port (p : Fin 4) (s : State) : (signalGone s).port p = s.port p := advanceTo8_port _ s p

theorem fget_signalGone (s : State) (b : Nat) (f : Fld) : fget (signalGone s) b f = fget s b f := fget_advanceTo8 _ s b f

theorem groupMask_signalGone (s : State) (p : Fin 4) : groupMask (signalGone s) p = groupMask s p :=
  groupMask_congr (fget_signalGone s _ _) (congrArg PortState.group (signalGone_port p s))

/-! ### A window of codewords -/

/-- The counts of corrected symbols start again. -/
def serCleared (p : Fin 4) (s : State) : State := updPort p (fun ps => { ps with ser := Vector.replicate 16 0 }) s

/-- The lanes above SER_TH (03 R95). -/
def weakLanes (p : Fin 4) (s : State) : List (Fin 16) := (List.finRange 16).filter fun l => decide (fget s (HP p) HP_LANECFG_SER_TH < (s.port p).ser[l])

theorem exec_laneSerWindow (p : Fin 4) (s : State) :
    exec (.laneSerWindow p) s = .next (if portSt s p = PORT_ACTIVE then forAll (weakLanes p s) (fun l s => laneFault p l s) (serCleared p s) else serCleared p s) := rfl

theorem groupMask_serCleared (p : Fin 4) (s : State) : groupMask (serCleared p s) p = groupMask s p := by
  refine groupMask_congr (fget_congr (updPort_regs _ _ _) _ _) ?_
  rw [serCleared, updPort_port]

/-! ### The transmit PLL -/

theorem GLB_lt_HP (p : Fin 4) {i : Nat} (h : i < 0x1000) (j : Nat) : GLB + i ≠ HP p + j := by
  unfold GLB HP
  omega

theorem GLB_lt_CON {i : Nat} (h : i < 0x1000) (j : Nat) : GLB + i ≠ CON + j := by
  unfold GLB CON
  omega

/-- A port reset leaves the fields of GLB but its interrupt causes and the locks of the link PLLs. -/
theorem fget_GLB_portReset (p : Fin 4) {f : Fld} (low : f.off < 0x1000) (irqs : f.off ≠ 8) (locks : Apart f GLB_CLKSTAT_LINK_LOCK) (c : String) (s : State) :
    fget (portReset p c s) GLB f = fget s GLB f := by
  have bst : ∀ j, GLB + f.off ≠ BST + j := fun j => by
    unfold GLB BST
    omega
  have state : ∀ v y, fget (setPortSt p v y) GLB f = fget y GLB f := fun v y =>
    fget_setPortSt _ _ _ _ _ (.inl (GLB_lt_HP p low 8)) (GLB_lt_CON low _) (bst _) (bst _)
  unfold portReset
  extract_lets x y z w
  have cleared : fget w GLB f = fget s GLB f :=
    (fget_fset_ne _ _ _ _ _ _ (GLB_lt_HP p low _)).trans <| (fget_irq _ _ _ _ (off_ne GLB irqs)).trans <|
      (fget_emit _ _ _ _ _ (off_ne GLB irqs) (GLB_lt_CON low _) (GLB_lt_CON low _)).trans <| (fget_fbump_ne _ _ _ _ _ (GLB_lt_HP p low _)).trans <|
      fget_clearPort _ _ _ _ (off_ne GLB irqs) (GLB_lt_CON low _) (GLB_lt_CON low _) (GLB_lt_HP p low _) (GLB_lt_HP p low _)
  split
  · exact (state _ _).trans ((fget_fset_apart GLB locks _ _).trans ((fget_congr (updPort_regs _ _ _) _ _).trans cleared))
  · exact (state _ w).trans cleared

/-- LOCK_LOSS is set and the lock of port `p`'s transmit PLL is shown as lost. -/
def txLockLost (p : Fin 4) (s : State) : State :=
  fset GLB GLB_CLKSTAT_LOCK_LOSS 1 (fset GLB GLB_CLKSTAT_LINK_LOCK (Nat.land (fget s GLB GLB_CLKSTAT_LINK_LOCK) (0xF - 2 ^ p.val)) s)

theorem exec_txPllLockLoss {p : Fin 4} {s : State} (lock : bitOf (fget s GLB GLB_CLKSTAT_LINK_LOCK) p = true) :
    exec (.txPllLockLoss p) s = .next (portReset p "pll" (txLockLost p s)) := congrArg Host.Outcome.next (if_neg (by simp [lock]))

theorem fget_HP_txLockLost (p : Fin 4) (s : State) (f : Fld) : fget (txLockLost p s) (HP p) f = fget s (HP p) f :=
  (fget_fset_ne _ _ _ _ _ _ (HP_GLB p _ (by decide))).trans (fget_fset_ne _ _ _ _ _ _ (HP_GLB p _ (by decide)))

/-! ### The statement -/

/-- Settles O4: a failed lane of the group ends in a lossless RETRAIN or a reset by DEGRADE_EN, after 64 link cycles or at a window's end. -/
theorem laneFaultsHandled : Obligations.LaneFaultsHandled := by
  unfold Obligations.LaneFaultsHandled
  refine ⟨fun p lane s active inGroup degrade => ?retrain, fun p lane s active inGroup degrade => ?reset, fun p lane s active degrade weak inGroup => ?window,
    fun p s none => ?clean, fun p s lock => ?pll⟩
  case retrain =>
    have e := exec_laneSignalLoss active lane
    rw [laneFault_retrains ((fget_signalGone s _ _).trans active) ((congrArg (bitOf · _) (groupMask_signalGone s p)).trans inGroup)
      ((congrArg (· != 0) (fget_signalGone s _ _)).trans degrade)] at e
    obtain ⟨st, lossless, -, replay, -⟩ := toRetrain_lossless p false (fun ps => { ps with newFail := BitVec.ofNat 16 (2 ^ lane.val), trainOk := true }) (signalGone s)
    rw [signalGone_port] at replay
    refine ⟨_, e, st, lossless, ?_, replay, toRetrain_d8 _ _ _, exec_dram e (by simp [stores]), exec_wmem e (by simp [stores]), toRetrain_streams _ _ _⟩
    rw [toRetrain_port (·.newFail) _ _ _ (fun _ _ _ _ => rfl) fun _ _ => rfl, updPort_port]
  case reset =>
    have e := exec_laneSignalLoss active lane
    rw [laneFault_resets ((fget_signalGone s _ _).trans active) ((congrArg (bitOf · _) (groupMask_signalGone s p)).trans inGroup)
      ((congrArg (· != 0) (fget_signalGone s _ _)).trans degrade)] at e
    obtain ⟨replay, -⟩ := portReset_port p "lanes" (signalGone s)
    refine ⟨_, e, ?_, replay, exec_dram e (by simp [stores]), exec_wmem e (by simp [stores])⟩
    rw [portSt_portReset, fbit, fget_signalGone, ← fbit]
  case window =>
    have e := exec_laneSerWindow p s
    have one : weakLanes p s = [lane] := weak
    have fault := laneFault_retrains (s := serCleared p s) active ((congrArg (bitOf · _) (groupMask_serCleared p s)).trans inGroup) degrade
    have run : forAll [lane] (fun l s => laneFault p l s) (serCleared p s) = _ := fault
    rw [if_pos active, one, run] at e
    obtain ⟨st, lossless, -, replay, -⟩ := toRetrain_lossless p false (fun ps => { ps with newFail := BitVec.ofNat 16 (2 ^ lane.val), trainOk := true }) (serCleared p s)
    refine ⟨_, e, ?_, st, lossless, ?_, exec_dram e (by simp [stores]), exec_wmem e (by simp [stores]), toRetrain_streams _ _ _⟩
    · rw [toRetrain_port (·.ser) _ _ _ (fun _ _ _ _ => rfl) fun _ _ => rfl, updPort_port, serCleared, updPort_port]
    · rw [replay, serCleared, updPort_port]
  case clean =>
    have zero : weakLanes p s = [] := none
    rw [exec_laneSerWindow, zero]
    exact congrArg Host.Outcome.next (ite_self _)
  case pll =>
    have e := exec_txPllLockLoss lock
    obtain ⟨replay, rab, -⟩ := portReset_port p "pll" (txLockLost p s)
    refine ⟨_, e, ?_, ?_, replay, rab, exec_dram e (by simp [stores]), exec_wmem e (by simp [stores])⟩
    · exact (congrArg (· != 0) (fget_GLB_portReset p (by decide) (by decide) (by decide) _ _)).trans (fbit_fset_one _ _ _ (by decide) (by decide))
    · rw [portSt_portReset, fbit, fget_HP_txLockLost, ← fbit]

end Sys2Proof.Proofs

/-! PROOF. Training of a host port: DETECT, EQUALISE, ALIGN, INIT and ACTIVE (03 R67, R90, R91, R93, R99). -/

namespace Sys2Proof.Proofs
open Sys2Proof Sys2Proof.Machine Sys2Proof.Laws

/-! ### What the checks of a received flit rest on -/

theorem flitOk_congr {s t : State} {p : Fin 4} (st : portSt t p = portSt s p) (epoch : fget t (HP p) HP_STATUS_EPOCH = fget s (HP p) HP_STATUS_EPOCH)
    (lossless : (t.port p).lossless = (s.port p).lossless) (f : Flit) (ft : Nat) : flitOk t p f ft = flitOk s p f ft := by
  unfold flitOk epochAgreed
  rw [st, epoch, lossless]

theorem recBad_congr {s t : State} {p : Fin 4} (width : fget t (HP p) HP_STATUS_WIDTH = fget s (HP p) HP_STATUS_WIDTH) (r : TrainRec) : recBad t p r = recBad s p r := by
  unfold recBad
  rw [width]

theorem recAgrees_congr {s t : State} {p : Fin 4} (epoch : fget t (HP p) HP_STATUS_EPOCH = fget s (HP p) HP_STATUS_EPOCH)
    (lossless : (t.port p).lossless = (s.port p).lossless) (rate : (t.port p).rateTry = (s.port p).rateTry) (r : TrainRec) : recAgrees t p r = recAgrees s p r := by
  unfold recAgrees epochNow
  rw [epoch, lossless, rate]

/-- The lanes good in both directions, as far as a record tells (03 R91). -/
def bothGood (s : State) (p : Fin 4) (t : TrainRec) (good : BitVec 16) : Nat :=
  Nat.land (Nat.land (s.port p).trnGood.toNat good.toNat) (0xFFFF - (if t.twidth.toNat = fget s (HP p) HP_STATUS_WIDTH then peerBad s p t else 0))

theorem bothGood_congr {s t : State} {p : Fin 4} (width : fget t (HP p) HP_STATUS_WIDTH = fget s (HP p) HP_STATUS_WIDTH)
    (rev : fbit t (HP p) HP_STATUS_REV_TX = fbit s (HP p) HP_STATUS_REV_TX) (group : (t.port p).group = (s.port p).group)
    (lanes : (t.port p).trnGood = (s.port p).trnGood) (r : TrainRec) (good : BitVec 16) : bothGood t p r good = bothGood s p r good := by
  unfold bothGood peerBad
  rw [width, rev, group, lanes]

/-- The FEC counts change of a port's record its place among the codewords and the lanes' counts. -/
theorem fecCount_record (p : Fin 4) (f : Flit) (s : State) : ∃ n v, (fecCount p f s).port p = { s.port p with fecPos := n, ser := v } := by
  have rest := fecCount_port (fun ps => { ps with fecPos := 0, ser := Vector.replicate 16 0 }) p p f s (fun _ _ => rfl) fun _ _ => rfl
  exact ⟨((fecCount p f s).port p).fecPos, ((fecCount p f s).port p).ser,
    congrArg (fun ps => { ps with fecPos := ((fecCount p f s).port p).fecPos, ser := ((fecCount p f s).port p).ser }) rest⟩

section
variable (p : Fin 4) (f : Flit) (s : State)

theorem flitOk_fecCount (x : Flit) (ft : Nat) : flitOk (fecCount p f s) p x ft = flitOk s p x ft := by
  obtain ⟨n, v, record⟩ := fecCount_record p f s
  exact flitOk_congr (portSt_fecCount p p f s) (fget_HP_fecCount p (by decide) (by decide) f s) (by rw [record]) x ft

theorem recBad_fecCount (r : TrainRec) : recBad (fecCount p f s) p r = recBad s p r := recBad_congr (fget_HP_fecCount p (by decide) (by decide) f s) r

theorem recAgrees_fecCount (r : TrainRec) : recAgrees (fecCount p f s) p r = recAgrees s p r := by
  obtain ⟨n, v, record⟩ := fecCount_record p f s
  exact recAgrees_congr (fget_HP_fecCount p (by decide) (by decide) f s) (by rw [record]) (by rw [record]) r

theorem bothGood_fecCount (r : TrainRec) (good : BitVec 16) : bothGood (fecCount p f s) p r good = bothGood s p r good := by
  obtain ⟨n, v, record⟩ := fecCount_record p f s
  exact bothGood_congr (fget_HP_fecCount p (by decide) (by decide) f s) (congrArg (· != 0) (fget_HP_fecCount p (by decide) (by decide) f s)) (by rw [record]) (by rw [record]) r good

theorem groupMask_fecCount : groupMask (fecCount p f s) p = groupMask s p := by
  obtain ⟨n, v, record⟩ := fecCount_record p f s
  exact groupMask_congr (fget_HP_fecCount p (by decide) (by decide) f s) (by rw [record])

end

/-! ### The command of a TRAIN flit -/

theorem portSt_trainReply (p : Fin 4) (s : State) : portSt (trainReply p s) p = portSt s p := onlyIf_inv (portSt · p) _ _ _ fun y => portSt_sendTrain p p y

theorem fget_HP_trainReply (p : Fin 4) {f : Fld} (hf : Unsent f) (s : State) : fget (trainReply p s) (HP p) f = fget s (HP p) f :=
  onlyIf_inv (fun s => fget s (HP p) f) _ _ _ fun y => fget_HP_sendTrain p hf y

theorem trainReply_port {β : Type} (g : PortState → β) (p : Fin 4) (s : State) (sent : ∀ ps o n d, g { ps with out := o, outAt8 := n, nakDue := d } = g ps)
    (init : ∀ ps n, g { ps with initSent := n } = g ps) : g ((trainReply p s).port p) = g (s.port p) :=
  onlyIf_inv (fun s => g (s.port p)) _ _ _ fun y => sendTrain_port g p p y sent init

/-- A port that has become ACTIVE sends no TRAIN flit. -/
theorem trainReply_active {p : Fin 4} {s : State} (active : portSt s p = PORT_ACTIVE) : trainReply p s = s := by
  unfold trainReply
  rw [active]
  rfl

section
variable {p : Fin 4} {f : Flit} {s : State} (lock pass : BitVec 16) (rev : Bool)

/-- A flit that is not intact or whose record is bad, while the port trains (03 R90). -/
theorem exec_trainFlit_bad (st : portSt s p = PORT_ALIGN ∨ portSt s p = PORT_INIT ∨ portSt s p = PORT_RETRAIN)
    (bad : trainOkFlit s p f = false ∨ recBad s p (recOf f) = true) :
    exec (.trainFlit p f lock pass rev) s = .next (trainReply p (badFlit p (updPort p (fun ps => { ps with initSeen := 0 }) (fecCount p f s)))) := by
  have stream : fecStream s p = true := by
    unfold fecStream
    rcases st with h | h | h <;> simp [h]
  have passive : portSt s p ≠ PORT_ACTIVE := by
    rcases st with h | h | h <;> rw [h] <;> decide
  have bad' : !trainOkFlit (fecCount p f s) p f ∨ recBad (fecCount p f s) p (recOf f) = true := by
    rw [trainOkFlit, flitOk_fecCount, recBad_fecCount]
    exact bad.imp (fun h => by rw [← trainOkFlit, h]; rfl) id
  refine congrArg Host.Outcome.next ((if_neg (by simp [stream])).trans ((if_pos bad').trans ?_))
  rw [if_neg passive]

variable (ok : trainOkFlit s p f = true) (good : recBad s p (recOf f) = false)
include ok good

theorem not_bad_fecCount : ¬(!trainOkFlit (fecCount p f s) p f ∨ recBad (fecCount p f s) p (recOf f) = true) := by
  rw [trainOkFlit, flitOk_fecCount, recBad_fecCount, ← trainOkFlit, ok, good]
  simp

theorem exec_trainFlit_align (st : portSt s p = PORT_ALIGN) (ts : (recOf f).tstate = 3) :
    exec (.trainFlit p f lock pass rev) s = .next (trainReply p (alignRecord p (recOf f) lock rev (fecCount p f s))) := by
  refine congrArg Host.Outcome.next ((if_neg (by simp [fecStream, st])).trans ((if_neg (not_bad_fecCount ok good)).trans ((if_neg (by rw [st]; decide)).trans ?_)))
  rw [if_pos st, if_pos (.inl ts)]

theorem exec_trainFlit_init (st : portSt s p = PORT_INIT) (ts : (recOf f).tstate = 4) :
    exec (.trainFlit p f lock pass rev) s = .next (trainReply p (initRecord p (recOf f) (fecCount p f s))) := by
  refine congrArg Host.Outcome.next ((if_neg (by simp [fecStream, st])).trans ((if_neg (not_bad_fecCount ok good)).trans ((if_neg (by rw [st]; decide)).trans ?_)))
  rw [if_neg (by rw [st]; decide), if_pos st, if_pos ts]

theorem exec_trainFlit_retrain (st : portSt s p = PORT_RETRAIN) :
    exec (.trainFlit p f lock pass rev) s = .next (trainReply p (retrainRecord p (recOf f) pass (fecCount p f s))) := by
  refine congrArg Host.Outcome.next ((if_neg (by simp [fecStream, st])).trans ((if_neg (not_bad_fecCount ok good)).trans ((if_neg (by rw [st]; decide)).trans ?_)))
  rw [if_neg (by rw [st]; decide), if_neg (by rw [st]; decide)]

/-- A TRAIN flit in ACTIVE (03 R99). -/
theorem exec_trainFlit_active (st : portSt s p = PORT_ACTIVE) :
    exec (.trainFlit p f lock pass rev) s = .next (if (s.port p).trainOk then toRetrain p false (updPort p (fun ps => { ps with newFail := 0 }) (fecCount p f s))
      else protocolError p (fecCount p f s)) := by
  obtain ⟨n, v, record⟩ := fecCount_record p f s
  refine congrArg Host.Outcome.next ((if_neg (by simp [fecStream, st])).trans ((if_neg (not_bad_fecCount ok good)).trans ((if_pos st).trans ?_)))
  rw [record]

end

/-! ### DETECT and EQUALISE -/

theorem bestGroup_width {good lo span c g w : Nat} (h : bestGroup good lo span c = some (g, w)) : w ≤ 2 := by
  unfold bestGroup at h
  split at h
  · cases h
    exact Nat.le_refl 2
  · split at h
    · cases h
      decide
    · obtain ⟨x, -, hx⟩ := Option.map_eq_some_iff.mp h
      cases hx
      decide

/-- The lanes that hold lock train on in EQUALISE (03 R91). -/
def lockDetected (p : Fin 4) (good inv : BitVec 16) (s : State) : State :=
  setPortSt p PORT_EQUALISE (fset (HP p) HP_LANES_INV inv.toNat (updPort p (fun ps => { ps with trnGood := good }) (advanceTo8 ((s.port p).stAt8 + LINK8 * 16384) s)))

theorem exec_detectLock {p : Fin 4} {good : BitVec 16} {s : State} (st : portSt s p = PORT_DETECT)
    (group : (bestGroup good.toNat 0 16 (s.port p).widthTry).isSome) (inv : BitVec 16) : exec (.detectLock p good inv) s = .next (lockDetected p good inv s) := by
  obtain ⟨g, found⟩ := Option.isSome_iff_exists.mp group
  refine congrArg Host.Outcome.next ((if_pos st).trans ?_)
  rw [found]
  rfl

/-- Group `g` of width `w` trains on in ALIGN, with a free value for the reversal of the transmit direction (03 R91, log 18). -/
def equalised (p : Fin 4) (lanes : BitVec 16) (g w : Nat) (s : State) : State :=
  let x := takeFree (advanceTo8 ((s.port p).stAt8 + LINK8 * 2000000) s)
  setPortSt p PORT_ALIGN (fset (HP p) HP_STATUS_WIDTH w (fset (HP p) HP_STATUS_REV_TX x.1
    (updPort p (fun ps => { ps with trnGood := lanes, group := g, eqKept := true, fecPos := 0 }) x.2)))

theorem exec_equaliseDone {p : Fin 4} {good : BitVec 16} {g w : Nat} {s : State} (st : portSt s p = PORT_EQUALISE)
    (group : bestGroup ((s.port p).trnGood &&& good).toNat 0 16 (s.port p).widthTry = some (g, w)) :
    exec (.equaliseDone p good) s = .next (sendTrain p (equalised p ((s.port p).trnGood &&& good) g w s)) := by
  refine congrArg Host.Outcome.next ((if_pos st).trans ?_)
  dsimp only
  rw [group]
  rfl

/-! ### ALIGN -/

/-- ALIGN ends at group `g` of width `w`, and INIT begins (03 R91). -/
def initBegins (p : Fin 4) (g w both : Nat) (rev : Bool) (s : State) : State :=
  setPortSt p PORT_INIT <| fset (HP p) HP_LANES_GOOD both <| updPort p (fun ps => { ps with initSeen := 0, initSent := 0, fecPos := 0 }) <|
    fset (HP p) HP_STATUS_WIDTH w <| updPort p (fun ps => { ps with group := g, trnGood := BitVec.ofNat 16 both }) <| fsetB (HP p) HP_STATUS_REV_RX rev s

theorem alignRecord_agrees {p : Fin 4} {t : TrainRec} {good : BitVec 16} {g w : Nat} {s : State}
    (group : bestGroup (bothGood s p t good) 0 16 (min (s.port p).widthTry t.twidth.toNat) = some (g, w)) (width : t.twidth.toNat = w)
    (lanes : groupGood t.lgood.toNat 0 (lanesOf w) = true) (ts : t.tstate ≠ 4) (rev : Bool) :
    alignRecord p t good rev s = initBegins p g w (bothGood s p t good) rev s := by
  have both : bothGood (fsetB (HP p) HP_STATUS_REV_RX rev s) p t good = bothGood s p t good :=
    bothGood_congr (fget_fset_apart _ (by decide) _ _) (congrArg (· != 0) (fget_fset_apart _ (by decide) _ _)) rfl rfl t good
  unfold alignRecord
  extract_lets x bad y
  have same : y = bothGood s p t good := both
  have group' : bestGroup y 0 16 (min (x.port p).widthTry t.twidth.toNat) = some (g, w) := same ▸ group
  rw [group', same]
  dsimp only
  rw [if_pos ⟨width, lanes⟩, if_neg ts]
  rfl

/-! ### INIT -/

section
variable {p : Fin 4} {t : TrainRec} {s : State} (agrees : recAgrees s p t = true) (run : flushOn s = false) (seen : 7 ≤ (s.port p).initSeen) (sent : 8 ≤ (s.port p).initSent)
include agrees run seen sent

/-- The eighth record of INIT in a row, after 8 TRAIN flits of INIT have been sent (03 R91). -/
theorem initRecord_fresh (fresh : (s.port p).lossless = false) :
    initRecord p t s = toActive p t (updPort p (fun ps => { ps with initSeen := ps.initSeen + 1 }) s) := by
  refine (if_neg (by simp [agrees, run])).trans ((if_neg ?_).trans (if_neg ?_))
  · rw [updPort_port]
    simp only [not_or, Nat.not_lt]
    exact ⟨Nat.add_le_add_right seen 1, sent⟩
  · rw [updPort_port]
    exact ne_true_of_eq_false fresh

theorem initRecord_lossless (lossless : (s.port p).lossless = true) (next : t.nextrx = oldestSeq (s.port p)) :
    initRecord p t s = toActive p t (updPort p (fun ps => { ps with resentFrom := if ps.replay.isEmpty then none else some t.nextrx })
      (updPort p (fun ps => { ps with initSeen := ps.initSeen + 1 }) s)) := by
  have oldest : t.nextrx - 1 = oldestSeq ((updPort p (fun ps => { ps with initSeen := ps.initSeen + 1 }) s).port p) - 1 := by
    rw [next, updPort_port]
    rfl
  refine (if_neg (by simp [agrees, run])).trans ((if_neg ?_).trans ((if_pos ?_).trans ?_))
  · rw [updPort_port]
    simp only [not_or, Nat.not_lt]
    exact ⟨Nat.add_le_add_right seen 1, sent⟩
  · rw [updPort_port]
    exact lossless
  · rw [ackFree, if_pos oldest]

end

/-! ### ACTIVE -/

/-- The measured latencies, the rate and the port's record as the port becomes ACTIVE (03 R91, R101). -/
def readied (p : Fin 4) (s : State) : State :=
  let x := measurePipe p s
  setPortSt p PORT_ACTIVE <| updPort p (fun ps => { ps with lossless := false, upgrade := false, trainOk := false, newFail := 0, initSeen := 0, ackAt8 := s.d8 }) <|
    fset (HP p) HP_STATUS_RATE_NOW (if (s.port p).rateTry then 1 else 0) <| fset (HP p) HP_STATUS_TRN_FAIL 0 x

theorem readied_port (p : Fin 4) (s : State) : (readied p s).port p = { s.port p with
    lossless := false, upgrade := false, trainOk := false, newFail := 0, initSeen := 0, ackAt8 := s.d8, stAt8 := s.d8 } := by
  unfold readied
  rw [setPortSt_port, updPort_port]
  rfl

theorem PortOnly.readied (p : Fin 4) (s : State) : PortOnly p s (readied p s) :=
  (of_ports rfl rfl rfl rfl : PortOnly p s (Machine.fset (HP p) HP_STATUS_RATE_NOW (if (s.port p).rateTry then 1 else 0) (Machine.fset (HP p) HP_STATUS_TRN_FAIL 0 (measurePipe p s)))).trans
    ((updPort p _ _).trans (setPortSt p _ _))

theorem portSt_readied (p : Fin 4) (s : State) : portSt (readied p s) p = PORT_ACTIVE := portSt_setPortSt _ _ _

theorem fget_HP_readied (p : Fin 4) {f : Fld} (hf : Lasting f) (rate : Apart f HP_STATUS_RATE_NOW) (fail : Apart f HP_STATUS_TRN_FAIL) (pipe : f.off ≠ HP_PIPE_RX_LAT.off) (s : State) :
    fget (readied p s) (HP p) f = fget s (HP p) f :=
  (fget_HP_setPortSt p hf _ _).trans <| (fget_congr (updPort_regs _ _ _) _ _).trans <| (fget_fset_apart _ rate _ _).trans <| (fget_fset_apart _ fail _ _).trans <|
    (fget_HP_fset_ne p (g := HP_PIPE_RX_LAT) pipe _ _).trans ((fget_HP_fset_ne p (g := HP_PIPE_TX_LAT) pipe _ _).trans rfl)

/-- The next epoch and the credits that the sender's record advertises come into force (03 R84, R93). -/
def epochBegins (p : Fin 4) (t : TrainRec) (s : State) : State :=
  fset (HP p) HP_CRED_PEER_ADVX t.advx.toNat <| fset (HP p) HP_CRED_PEER_ADVT t.advt.toNat <| fset (HP p) HP_CRED_PEER_ADVC t.advc.toNat <|
    fset (HP p) HP_CRED_NOW_CRX t.advx.toNat <| fset (HP p) HP_STATUS_EPOCH ((fget s (HP p) HP_STATUS_EPOCH + 1) % 8) s

theorem portSt_epochBegins (p : Fin 4) (t : TrainRec) (s : State) : portSt (epochBegins p t s) p = portSt s p :=
  (fget_HP_fset_ne p (by decide) _ _).trans <| (fget_HP_fset_ne p (by decide) _ _).trans <| (fget_HP_fset_ne p (by decide) _ _).trans <|
    (fget_HP_fset_ne p (by decide) _ _).trans (fget_fset_apart _ (by decide) _ _)

theorem fget_epochBegins_epoch (p : Fin 4) (t : TrainRec) (s : State) :
    fget (epochBegins p t s) (HP p) HP_STATUS_EPOCH = (fget s (HP p) HP_STATUS_EPOCH + 1) % 8 :=
  (fget_HP_fset_ne p (by decide) _ _).trans <| (fget_HP_fset_ne p (by decide) _ _).trans <| (fget_HP_fset_ne p (by decide) _ _).trans <|
    (fget_HP_fset_ne p (by decide) _ _).trans <| (fget_fset _ _ _ _ (by decide)).trans (Nat.mod_mod _ _)

theorem fget_epochBegins_advx (p : Fin 4) (t : TrainRec) (s : State) : fget (epochBegins p t s) (HP p) HP_CRED_PEER_ADVX = t.advx.toNat :=
  (fget_fset _ _ _ _ (by decide)).trans (Nat.mod_eq_of_lt t.advx.isLt)

theorem toActive_fresh {p : Fin 4} {t : TrainRec} {s : State} (fresh : (s.port p).lossless = false) :
    ∃ d x, toActive p t s = pump p (tunnelUp p (emit "port_up" x (epochBegins p t (fsetB (HP p) HP_STATUS_DEGRADED d (readied p s))))) :=
  ⟨_, _, if_neg (ne_true_of_eq_false fresh)⟩

/-- A training that was not lossless ends with the next epoch and the credits of the sender. -/
theorem toActive_fresh_fields {p : Fin 4} {t : TrainRec} {s : State} (fresh : (s.port p).lossless = false) :
    portSt (toActive p t s) p = PORT_ACTIVE ∧ fget (toActive p t s) (HP p) HP_STATUS_EPOCH = (fget s (HP p) HP_STATUS_EPOCH + 1) % 8
      ∧ fget (toActive p t s) (HP p) HP_CRED_PEER_ADVX = t.advx.toNat := by
  obtain ⟨d, x, shape⟩ := toActive_fresh (t := t) fresh
  have last : ∀ f, Unsent f → (f.off ≠ 8 ∨ f.lsb + f.width ≤ 13 ∨ 14 ≤ f.lsb) →
      fget (toActive p t s) (HP p) f = fget (epochBegins p t (fsetB (HP p) HP_STATUS_DEGRADED d (readied p s))) (HP p) f := fun f sent field => by
    rw [shape, fget_HP_pump p sent, fget_HP_tunnelUp p field, fget_HP_emit]
  refine ⟨(last _ (by decide) (by decide)).trans ((portSt_epochBegins p t _).trans ((fget_fset_apart _ (by decide) _ _).trans (portSt_readied p s))), ?_,
    (last _ (by decide) (by decide)).trans (fget_epochBegins_advx p t _)⟩
  rw [last _ (by decide) (by decide), fget_epochBegins_epoch, fsetB, fget_fset_apart _ (by decide), fget_HP_readied p (by decide) (by decide) (by decide) (by decide)]

/-- From `s` to `t` counts have risen and an event may wait; the port's record, its state and its epoch stand. -/
structure Noted (p : Fin 4) (s t : State) : Prop where
  only : PortOnly p s t
  record : t.port p = s.port p
  st : portSt t p = portSt s p
  epoch : fget t (HP p) HP_STATUS_EPOCH = fget s (HP p) HP_STATUS_EPOCH

theorem Noted.trans {p : Fin 4} {s t u : State} (h : Noted p s t) (k : Noted p t u) : Noted p s u :=
  ⟨h.only.trans k.only, k.record.trans h.record, k.st.trans h.st, k.epoch.trans h.epoch⟩

theorem noted_fset (p : Fin 4) {f : Fld} (st : Apart HP_STATUS_STATE f) (epoch : Apart HP_STATUS_EPOCH f) (v : Nat) (s : State) : Noted p s (fset (HP p) f v s) :=
  ⟨PortOnly.fset p _ _ _ s, rfl, fget_fset_apart _ st _ _, fget_fset_apart _ epoch _ _⟩

theorem noted_emit (p : Fin 4) (h : String) (x : List (String × FVal)) (s : State) : Noted p s (emit h x s) :=
  ⟨PortOnly.emit p h x s, port_congr (emit_ports h x s) p, fget_HP_emit p h x s, fget_HP_emit p h x s⟩

/-- A lossless training ends with every flit of the replay buffer sent again (03 R93). -/
theorem toActive_lossless {p : Fin 4} {t : TrainRec} {s : State} (lossless : (s.port p).lossless = true) :
    ∃ y, toActive p t s = quietCheck p (pump p (tunnelUp p (sendData p true (s.port p).replay y))) ∧ Noted p (readied p s) y := by
  have counted : ∀ d, Noted p (readied p s) (fbump (HP p) HP_RETRAIN_LOSSLESS (fsetB (HP p) HP_STATUS_DEGRADED d (readied p s))) := fun d =>
    (noted_fset p (f := HP_STATUS_DEGRADED) (by decide) (by decide) _ _).trans (noted_fset p (f := HP_RETRAIN_LOSSLESS) (by decide) (by decide) _ _)
  refine ⟨_, if_pos lossless, ?_⟩
  split
  · exact (counted _).trans ((noted_fset p (f := HP_RETRAIN_DEGRADE) (by decide) (by decide) _ _).trans (noted_emit p _ _ _))
  · split
    · exact (counted _).trans (noted_emit p _ _ _)
    · exact counted _

/-- A port that does not enter QUIET, or has flits to be acknowledged or a NAK open, stays (03 R94). -/
theorem quietCheck_stays {p : Fin 4} {s : State} (h : (s.port p).toQuiet = false ∨ (s.port p).replay ≠ [] ∨ (s.port p).nak = true) : quietCheck p s = s := by
  refine if_neg ?_
  rcases h with h | h | h <;> simp [h]

/-- The end of a lossless training: the port is ACTIVE in the same epoch, every flit of the replay buffer is out again, and the buffer has lost none (03 R93). -/
theorem toActive_lossless_fields {p : Fin 4} {t : TrainRec} {s : State} (lossless : (s.port p).lossless = true) (run : flushOn s = false)
    (stays : (s.port p).toQuiet = false ∨ (s.port p).replay ≠ []) :
    portSt (toActive p t s) p = PORT_ACTIVE ∧ fget (toActive p t s) (HP p) HP_STATUS_EPOCH = fget s (HP p) HP_STATUS_EPOCH
      ∧ (∃ l, ((toActive p t s).port p).replay = (s.port p).replay ++ l) ∧ (∀ x ∈ (s.port p).replay, ∃ y, OnWire p y (toActive p t s) ∧ y.fseq = x.fseq ∧ y.rply = true)
      ∧ ((toActive p t s).port p).expect = (s.port p).expect ∧ (toActive p t s).streams = s.streams := by
  obtain ⟨y, shape, noted⟩ := toActive_lossless (t := t) lossless
  have ready := PortOnly.readied p s
  have record : y.port p = _ := noted.record.trans (readied_port p s)
  have replayed : ∀ {β : Type} (g : PortState → β), (∀ ps o n d, g { ps with out := o, outAt8 := n, nakDue := d } = g ps) →
      g ((tunnelUp p (sendData p true (s.port p).replay y)).port p) = g (y.port p) := fun g sent =>
    (congrArg g (port_congr (tunnelUp_ports _ _) p)).trans (sendData_port g p _ _ _ sent)
  obtain ⟨l, replay⟩ := pump_replay p (tunnelUp p (sendData p true (s.port p).replay y))
  rw [replayed (·.replay) (fun _ _ _ _ => rfl), record] at replay
  have quiet : ((pump p (tunnelUp p (sendData p true (s.port p).replay y))).port p).toQuiet = (s.port p).toQuiet := by
    rw [pump_port (·.toQuiet) p _ (fun _ _ _ _ => rfl) (fun _ _ _ _ _ _ _ _ _ => rfl), replayed (·.toQuiet) (fun _ _ _ _ => rfl), record]
  rw [shape, quietCheck_stays (stays.imp quiet.trans fun h => .inl (by rw [replay]; exact List.append_ne_nil_of_left_ne_nil h l))]
  refine ⟨?_, ?_, ⟨l, replay⟩, fun x hx => ?_, ?_, ?_⟩
  · rw [portSt_pump, portSt_tunnelUp, portSt_sendData, noted.st, portSt_readied]
  · rw [fget_HP_pump p (by decide), fget_HP_tunnelUp p (by decide), fget_HP_sendData p (by decide), noted.epoch, fget_HP_readied p (by decide) (by decide) (by decide) (by decide)]
  · obtain ⟨z, out, seq, again⟩ := sendData_sends (p := p) true _ (noted.only.flush.trans (ready.flush.trans run)) hx
    exact ⟨z, (out.congr (tunnelUp_ports _ _) (tunnelUp_d8 _ _)).pump, seq, again⟩
  · rw [pump_expect, replayed (·.expect) (fun _ _ _ _ => rfl), record]
  · rw [(PortOnly.pump p _).streams, tunnelUp_streams, sendData_streams, noted.only.streams, ready.streams]

/-! ### RETRAIN -/

theorem retrainRecord_test {p : Fin 4} {t : TrainRec} {s : State} (phase : (s.port p).rtPhase = .test) (ts : t.tstate = 3 ∨ t.tstate = 6) (pass : BitVec 16) :
    retrainRecord p t pass s = retest p pass s := by
  unfold retrainRecord
  rw [phase]
  exact if_pos ts

theorem retrainRecord_init {p : Fin 4} {t : TrainRec} {s : State} (phase : (s.port p).rtPhase = .init) (ts : t.tstate = 4) (pass : BitVec 16) :
    retrainRecord p t pass s = initRecord p t s := by
  unfold retrainRecord
  rw [phase]
  exact if_pos ts

/-- Lanes of the group that all pass the re-test, with none failed before, go on to ALIGN (03 R96). -/
theorem retest_passes {p : Fin 4} {pass : BitVec 16} {s : State} (fail : (s.port p).newFail = 0) (upgrade : (s.port p).upgrade = false)
    (lanes : Nat.land (groupMask s p) (0xFFFF - pass.toNat) = 0) :
    retest p pass s = updPort p (fun ps => { ps with trnGood := pass, rtPhase := .align }) s := by
  have none : Nat.lor (Nat.land (groupMask s p) (0xFFFF - pass.toNat)) (Nat.land (groupMask s p) (s.port p).newFail.toNat) = 0 := by
    rw [lanes, fail]
    exact (congrArg (Nat.lor 0) (Nat.and_zero _)).trans (Nat.or_zero 0)
  exact (if_neg (not_not.mpr none)).trans (if_neg (ne_true_of_eq_false upgrade))

/-- A protocol error sets PROTO and resets the port (03 R99). -/
theorem protocolError_fields (p : Fin 4) (s : State) :
    fbit (protocolError p s) (HP p) HP_STATUS_PROTO = true ∧ portSt (protocolError p s) p = (if fbit s (HP p) HP_CTL_EN then PORT_DETECT else PORT_DOWN)
      ∧ ((protocolError p s).port p).replay = [] := by
  refine ⟨(congrArg (· != 0) (fget_HP_portReset p (by decide) (by decide) (by decide) (by decide) _ _)).trans (fbit_fset_one _ _ _ (by decide) (by decide)), ?_,
    (portReset_port p "protocol" _).1⟩
  rw [protocolError, portSt_portReset, fbit, fget_HP_fset_ne p (by decide), ← fbit]

/-! ### The statement -/

/-- Settles O5: each training state by the branch of its command, after the FEC counts that leave what the branch rests on. -/
theorem linkTrainingAdvances : Obligations.LinkTrainingAdvances := by
  unfold Obligations.LinkTrainingAdvances
  refine ⟨fun p good inv s st group => ?detect, fun p good g w s st group => ?equalise, fun p f lock pass rev s st bad => ?bad,
    fun p f lock pass rev g w s st ok good ts group width lanes => ?align, fun p f lock pass rev s st ok good ts agrees seen sent fresh run => ?fresh,
    fun p f lock pass rev s st ok good phase ts fail upgrade lanes => ?retest,
    fun p f lock pass rev s st ok good phase ts agrees seen sent lossless next run stays => ?lossless,
    fun p f lock pass rev s st ok good none => ?unasked, fun p f lock pass rev s st ok good asked => ?asked⟩
  case detect =>
    have e := exec_detectLock st group inv
    refine ⟨_, e, portSt_setPortSt _ _ _, ?_, ?_, setPortSt_d8 _ _ _, exec_dram e (by simp [stores])⟩
    · rw [lockDetected, setPortSt_port, port_congr (fset_ports _ _ _ _), updPort_port]
    · exact (fget_HP_setPortSt p (by decide) _ _).trans ((fget_fset _ _ _ _ (by decide)).trans (Nat.mod_eq_of_lt inv.isLt))
  case equalise =>
    have e := exec_equaliseDone st group
    refine ⟨_, e, (portSt_sendTrain p p _).trans (portSt_setPortSt _ _ _), ?_, ?_, (sendTrain_d8 _ _).trans (setPortSt_d8 _ _ _), exec_dram e (by simp [stores])⟩
    · rw [fget_HP_sendTrain p (by decide), equalised, fget_HP_setPortSt p (by decide), fget_fset _ _ _ _ (by decide)]
      exact Nat.mod_eq_of_lt (Nat.lt_of_le_of_lt (bestGroup_width group) (by decide))
    · rw [sendTrain_port (·.group) p p _ (fun _ _ _ _ => rfl) (fun _ _ => rfl), equalised, setPortSt_port, port_congr (fset_ports _ _ _ _),
        port_congr (fset_ports _ _ _ _), updPort_port]
  case bad =>
    have e := exec_trainFlit_bad lock pass rev st bad
    refine ⟨_, e, ?_, ?_, ?_, exec_dram e (by simp [stores])⟩
    · exact (portSt_trainReply p _).trans ((fget_HP_fbump_ne p (by decide) _).trans (portSt_fecCount p p f s))
    · rw [trainReply_port (·.initSeen) p _ (fun _ _ _ _ => rfl) (fun _ _ => rfl), badFlit, port_congr (fbump_ports _ _ _), updPort_port]
    · rw [fget_HP_trainReply p (by decide), badFlit, fget_fbump _ _ _ (by decide), fget_congr (updPort_regs _ _ _), fget_HP_fecCount p (by decide) (by decide)]
      rfl
  case align =>
    have e := exec_trainFlit_align lock pass rev ok good st ts
    obtain ⟨n, v, record⟩ := fecCount_record p f s
    have group' : bestGroup (bothGood (fecCount p f s) p (recOf f) lock) 0 16 (min ((fecCount p f s).port p).widthTry (recOf f).twidth.toNat) = some (g, w) := by
      rw [bothGood_fecCount, record]
      exact group
    rw [alignRecord_agrees group' width lanes (by rw [ts]; decide)] at e
    refine ⟨_, e, (portSt_trainReply p _).trans (portSt_setPortSt _ _ _), ?_, ?_, ?_, ?_, exec_dram e (by simp [stores])⟩
    · rw [fget_HP_trainReply p (by decide), initBegins, fget_HP_setPortSt p (by decide), fget_HP_fset_ne p (by decide), fget_congr (updPort_regs _ _ _),
        fget_fset _ _ _ _ (by decide)]
      exact Nat.mod_eq_of_lt (Nat.lt_of_le_of_lt (bestGroup_width group) (by decide))
    · rw [trainReply_port (·.group) p _ (fun _ _ _ _ => rfl) (fun _ _ => rfl), initBegins, setPortSt_port, port_congr (fset_ports _ _ _ _), updPort_port,
        port_congr (fset_ports _ _ _ _), updPort_port]
    · rw [trainReply_port (·.initSeen) p _ (fun _ _ _ _ => rfl) (fun _ _ => rfl), initBegins, setPortSt_port, port_congr (fset_ports _ _ _ _), updPort_port]
    · rw [fbit, fget_HP_trainReply p (by decide), initBegins, fget_HP_setPortSt p (by decide), fget_HP_fset_ne p (by decide), fget_congr (updPort_regs _ _ _),
        fget_fset_apart _ (by decide), fget_congr (updPort_regs _ _ _), fsetB, fget_fset _ _ _ _ (by decide)]
      cases rev <;> rfl
  case fresh =>
    have e := exec_trainFlit_init lock pass rev ok good st ts
    obtain ⟨n, v, record⟩ := fecCount_record p f s
    rw [initRecord_fresh ((recAgrees_fecCount p f s _).trans agrees) ((PortOnly.fecCount p f s).flush.trans run) (by rw [record]; exact seen) (by rw [record]; exact sent)
      (by rw [record]; exact fresh)] at e
    obtain ⟨active, epoch, advx⟩ := toActive_fresh_fields (t := recOf f) (s := updPort p (fun ps => { ps with initSeen := ps.initSeen + 1 }) (fecCount p f s))
      (by rw [updPort_port, record]; exact fresh)
    rw [trainReply_active active] at e
    refine ⟨_, e, active, ?_, advx, exec_dram e (by simp [stores])⟩
    rw [epoch, fget_congr (updPort_regs _ _ _), fget_HP_fecCount p (by decide) (by decide)]
  case retest =>
    have e := exec_trainFlit_retrain lock pass rev ok good st
    obtain ⟨n, v, record⟩ := fecCount_record p f s
    rw [retrainRecord_test (by rw [record]; exact phase) ts, retest_passes (by rw [record]; exact fail) (by rw [record]; exact upgrade) (by rw [groupMask_fecCount]; exact lanes)] at e
    refine ⟨_, e, ?_, ?_, ?_, ?_, ?_, exec_dram e (by simp [stores])⟩
    · exact (portSt_trainReply p _).trans ((portSt_fecCount p p f s).trans st)
    · rw [trainReply_port (·.rtPhase) p _ (fun _ _ _ _ => rfl) (fun _ _ => rfl), updPort_port]
    · rw [trainReply_port (·.trnGood) p _ (fun _ _ _ _ => rfl) (fun _ _ => rfl), updPort_port]
    · rw [trainReply_port (·.replay) p _ (fun _ _ _ _ => rfl) (fun _ _ => rfl), updPort_port, record]
    · rw [fget_HP_trainReply p (by decide), fget_congr (updPort_regs _ _ _), fget_HP_fecCount p (by decide) (by decide)]
  case lossless =>
    have e := exec_trainFlit_retrain lock pass rev ok good st
    obtain ⟨n, v, record⟩ := fecCount_record p f s
    have only := PortOnly.fecCount p f s
    rw [retrainRecord_init (by rw [record]; exact phase) ts, initRecord_lossless ((recAgrees_fecCount p f s _).trans agrees) (only.flush.trans run) (by rw [record]; exact seen) (by rw [record]; exact sent)
      (by rw [record]; exact lossless) (by rw [record]; exact next)] at e
    generalize seenAll : updPort p _ (updPort p _ (fecCount p f s)) = y at e
    have counted : ∃ r m n v, y.port p = { s.port p with resentFrom := r, initSeen := m, fecPos := n, ser := v } := by
      rw [← seenAll, updPort_port, updPort_port, record]
      exact ⟨_, _, _, _, rfl⟩
    obtain ⟨r, m, n, v, counted⟩ := counted
    have flush : flushOn y = false := by
      rw [← seenAll]
      exact only.flush.trans run
    obtain ⟨active, epoch, replay, resent, expect, streams⟩ := toActive_lossless_fields (p := p) (t := recOf f) (s := y) (by rw [counted]; exact lossless) flush
      (by rw [counted]; exact stays)
    rw [trainReply_active active] at e
    rw [counted] at replay resent expect
    refine ⟨_, e, active, ?_, replay, fun x hx => ?_, expect, exec_dram e (by simp [stores]), ?_⟩
    · rw [epoch, ← seenAll, fget_congr (updPort_regs _ _ _), fget_congr (updPort_regs _ _ _), fget_HP_fecCount p (by decide) (by decide)]
    · obtain ⟨z, ⟨-, out⟩, seq, again⟩ := resent x hx
      exact ⟨z, out, seq, again⟩
    · rw [streams, ← seenAll]
      exact only.streams
  case unasked =>
    have e := exec_trainFlit_active lock pass rev ok good st
    rw [none, if_neg (by decide)] at e
    obtain ⟨proto, down, replay⟩ := protocolError_fields p (fecCount p f s)
    rw [fbit, fget_HP_fecCount p (by decide) (by decide), ← fbit] at down
    exact ⟨_, e, proto, replay, down, exec_dram e (by simp [stores])⟩
  case asked =>
    have e := exec_trainFlit_active lock pass rev ok good st
    obtain ⟨n, v, record⟩ := fecCount_record p f s
    rw [asked, if_pos rfl] at e
    obtain ⟨retrain, lossless, -, replay, -⟩ := toRetrain_lossless p false (fun ps => { ps with newFail := 0 }) (fecCount p f s)
    exact ⟨_, e, retrain, lossless, by rw [replay, record], exec_dram e (by simp [stores])⟩

end Sys2Proof.Proofs

/-! PROOF. DATA and IDLE flits in ACTIVE, and TIME (03 R74, R75, R79, R85, 04 R131). -/

namespace Sys2Proof.Proofs
open Sys2Proof Sys2Proof.Machine Sys2Proof.Laws

/-! ### What a port has received -/

/-- What a port's record holds of the flits received: the number expected next, the messages delivered, the open message, and the credits given. -/
def rxView (ps : PortState) : PortState :=
  { expect := ps.expect, intake := ps.intake, timeQ := ps.timeQ, conQ := ps.conQ, part := ps.part,
    crX := { released := ps.crX.released }, crT := { released := ps.crT.released }, crC := { released := ps.crC.released } }

theorem rxView_eq {a b : PortState} (h : rxView a = rxView b) :
    a.expect = b.expect ∧ a.intake = b.intake ∧ a.timeQ = b.timeQ ∧ a.conQ = b.conQ ∧ a.part = b.part :=
  ⟨congrArg (·.expect) h, congrArg (·.intake) h, congrArg (·.timeQ) h, congrArg (·.conQ) h, congrArg (·.part) h⟩

theorem rxView_credits {a b : PortState} (h : rxView a = rxView b) :
    a.crX.released = b.crX.released ∧ a.crT.released = b.crT.released ∧ a.crC.released = b.crC.released :=
  ⟨congrArg (·.crX.released) h, congrArg (·.crT.released) h, congrArg (·.crC.released) h⟩

/-- From `s` to `t` port `p` keeps what it has received and opens no NAK episode, and the rest of the state is left. -/
structure RxKept (p : Fin 4) (s t : State) : Prop where
  only : PortOnly p s t
  rx : rxView (t.port p) = rxView (s.port p)
  nak : (s.port p).nak = false → (t.port p).nak = false

namespace RxKept

variable {p : Fin 4} {s t u : State}

theorem refl (p : Fin 4) (s : State) : RxKept p s s := ⟨PortOnly.refl p s, rfl, id⟩

theorem trans (h : RxKept p s t) (k : RxKept p t u) : RxKept p s u := ⟨h.only.trans k.only, k.rx.trans h.rx, k.nak ∘ h.nak⟩

theorem updPort (p : Fin 4) {f : PortState → PortState} (rx : ∀ ps, rxView (f ps) = rxView ps) (nak : ∀ ps, (f ps).nak = ps.nak) (s : State) :
    RxKept p s (updPort p f s) := by
  refine ⟨PortOnly.updPort p f s, ?_, fun h => ?_⟩
  · rw [updPort_port, rx]
  · rw [updPort_port, nak, h]

theorem pump (p : Fin 4) (s : State) : RxKept p s (pump p s) :=
  ⟨PortOnly.pump p s, pump_port rxView p s (fun _ _ _ _ => rfl) fun _ _ _ _ _ _ _ _ _ => rfl, fun h => (pump_nak p s).trans h⟩

theorem sendTrain (p : Fin 4) (s : State) : RxKept p s (sendTrain p s) :=
  ⟨PortOnly.sendTrain p s, sendTrain_port rxView p p s (fun _ _ _ _ => rfl) fun _ _ => rfl,
    fun h => (sendTrain_port (·.nak) p p s (fun _ _ _ _ => rfl) fun _ _ => rfl).trans h⟩

theorem setPortSt (p : Fin 4) (v : Nat) (s : State) : RxKept p s (setPortSt p v s) := by
  refine ⟨PortOnly.setPortSt p v s, ?_, fun h => ?_⟩
  · rw [setPortSt_port]
    rfl
  · rw [setPortSt_port]
    exact h

theorem toRetrain (p : Fin 4) (u : Bool) (s : State) : RxKept p s (toRetrain p u s) :=
  ⟨PortOnly.toRetrain p u s, toRetrain_port rxView p u s (fun _ _ _ _ => rfl) fun _ _ => rfl,
    fun _ => toRetrain_port (·.nak) p u s (fun _ _ _ _ => rfl) fun _ _ => rfl⟩

theorem forAll {α : Type} (l : List α) (f : α → State → State) (s : State) (h : ∀ a x, RxKept p x (f a x)) : RxKept p s (forAll l f s) := by
  induction l generalizing s with
  | nil => exact refl p s
  | cons a l ih => exact (h a s).trans (ih (f a s))

theorem quietCheck (p : Fin 4) (s : State) : RxKept p s (quietCheck p s) := by
  unfold Machine.quietCheck
  extract_lets ps
  split
  · exact (updPort p (fun _ => by rfl) (fun _ => by rfl) s).trans ((setPortSt p _ _).trans (forAll _ _ _ fun _ y => sendTrain p y))
  · exact refl p s

/-- A failed lane of an ACTIVE port, where DEGRADE_EN allows a narrower group (03 R95, R103). -/
theorem laneFault (active : portSt s p = PORT_ACTIVE) (degrade : fbit s (HP p) HP_CTL_DEGRADE_EN = true) (lane : Nat) : RxKept p s (laneFault p lane s) := by
  by_cases inGroup : bitOf (groupMask s p) lane = true
  · rw [laneFault_retrains active inGroup degrade]
    exact (updPort p (fun _ => by rfl) (fun _ => by rfl) s).trans (toRetrain p _ _)
  · rw [Machine.laneFault, if_pos (by simp [inGroup])]
    exact refl p s

theorem lreqField {f : Flit} (degrade : f.lreq = 1 → fbit s (HP p) HP_CTL_DEGRADE_EN = true) : RxKept p s (lreqField p f s) := by
  unfold Machine.lreqField
  split
  · exact refl p s
  next active =>
    have active := not_not.mp active
    split
    next lane =>
      extract_lets n x
      have allowed : RxKept p s x := updPort p (f := fun ps => { ps with trainOk := true }) (fun _ => by rfl) (fun _ => by rfl) s
      split
      · exact allowed.trans (laneFault (s := x) active (degrade lane) _)
      · exact allowed.trans ((updPort p (fun _ => by rfl) (fun _ => by rfl) _).trans (toRetrain p _ _))
    · split
      · unfold upgradeReq
        rw [if_pos active]
        exact (updPort p (fun _ => by rfl) (fun _ => by rfl) s).trans (toRetrain p _ _)
      · exact refl p s

theorem afterFlit {f : Flit} (degrade : f.lreq = 1 → fbit s (HP p) HP_CTL_DEGRADE_EN = true) : RxKept p s (afterFlit p f s) :=
  (lreqField degrade).trans ((pump p _).trans (quietCheck p _))

end RxKept

theorem lreqField_none {p : Fin 4} {f : Flit} {s : State} (h1 : f.lreq ≠ 1) (h2 : f.lreq ≠ 2) : lreqField p f s = s := by
  unfold lreqField
  rw [if_neg h1, if_neg h2, ite_self]

/-- A port with an open NAK episode keeps it open while it answers a flit that asks for no lane. -/
theorem afterFlit_nak {p : Fin 4} {f : Flit} {s : State} (h1 : f.lreq ≠ 1) (h2 : f.lreq ≠ 2) (nak : (s.port p).nak = true) : ((afterFlit p f s).port p).nak = true := by
  unfold afterFlit
  rw [lreqField_none h1 h2, quietCheck_stays (.inr (.inr ((pump_nak p s).trans nak))), pump_nak, nak]

/-! ### The NAK episode -/

theorem startNak_opens {p : Fin 4} {s : State} (closed : (s.port p).nak = false) :
    startNak p s = updPort p (fun ps => { ps with nak := true, nakDue := true, nakAt8 := s.d8 }) s := if_neg (ne_true_of_eq_false closed)

theorem startNak_nak (p : Fin 4) (s : State) : ((startNak p s).port p).nak = true := by
  cases h : (s.port p).nak
  · rw [startNak_opens h, updPort_port]
  · rw [startNak, if_pos h, h]

theorem startNak_port {β : Type} (g : PortState → β) (p : Fin 4) (s : State) (nak : ∀ ps a b n, g { ps with nak := a, nakDue := b, nakAt8 := n } = g ps) :
    g ((startNak p s).port p) = g (s.port p) := by
  unfold startNak
  split
  · rfl
  · rw [updPort_port, nak]

theorem startNak_regs (p : Fin 4) (s : State) : (startNak p s).regs = s.regs := by
  unfold startNak
  split
  · rfl
  · exact updPort_regs _ _ _

/-! ### The link fields of a flit -/

theorem ackFree_some {p : Fin 4} {a : BitVec 12} {s t : State} (h : ackFree p a s = some t) : PortOnly p s t ∧ t.regs = s.regs := by
  unfold ackFree at h
  dsimp only at h
  split at h
  · cases h
    exact ⟨PortOnly.refl p s, rfl⟩
  · split at h
    · cases h
      exact ⟨PortOnly.updPort p _ s, rfl⟩
    · cases h

theorem fget_HP_creditFields (p : Fin 4) {g : Fld} (h : g.off ≠ HP_CRED_NOW_CRX.off) (f : Flit) (s : State) : fget (creditFields p f s) (HP p) g = fget s (HP p) g :=
  (fget_HP_fset_ne p (g := HP_CRED_NOW_CRX) h _ _).trans (fget_congr (updPort_regs _ _ _) _ _)

theorem creditFields_port (p : Fin 4) (f : Flit) (s : State) : (creditFields p f s).port p = { s.port p with
    crX := { (s.port p).crX with released := creditTake 16 (s.port p).crX.released f.cumx.toNat },
    crT := { (s.port p).crT with released := creditTake 8 (s.port p).crT.released f.cumt.toNat },
    crC := { (s.port p).crC with released := creditTake 8 (s.port p).crC.released f.cumc.toNat } } :=
  (port_congr (fset_ports _ _ _ _) p).trans (updPort_port _ _ _)

/-- The link fields of a flit, where they hold, change nothing beside the port and leave its lasting fields (03 R71, R77, R80, R85). -/
theorem linkFields_some {p : Fin 4} {f : Flit} {s t : State} (h : linkFields p f s = some t) :
    PortOnly p s t ∧ ∀ g : Fld, Lasting g → fget t (HP p) g = fget s (HP p) g := by
  obtain ⟨x, acked, rfl⟩ := Option.map_eq_some_iff.mp h
  have kept : PortOnly p s x ∧ ∀ g : Fld, Lasting g → fget x (HP p) g = fget s (HP p) g := by
    split at acked
    · obtain ⟨only, regs⟩ := ackFree_some acked
      exact ⟨only, fun g _ => fget_congr regs _ _⟩
    · split at acked
      · obtain ⟨y, free, rfl⟩ := Option.map_eq_some_iff.mp acked
        obtain ⟨only, regs⟩ := ackFree_some free
        exact ⟨only.trans (PortOnly.retransmit p _ y), fun g hg => (fget_HP_retransmit p hg _ y).trans (fget_congr regs _ _)⟩
      · cases acked
        exact ⟨PortOnly.refl p s, fun _ _ => rfl⟩
  exact ⟨kept.1.trans (PortOnly.creditFields p f x), fun g hg => (fget_HP_creditFields p hg.1.2.1 f x).trans (kept.2 g hg)⟩

/-! ### The commands -/

/-- The FEC counts and the NAK counts of a received flit. -/
def rxCounted (p : Fin 4) (f : Flit) (s : State) : State := nakSeen p f (fecCount p f s)

theorem PortOnly.rxCounted (p : Fin 4) (f : Flit) (s : State) : PortOnly p s (rxCounted p f s) := (fecCount p f s).trans (nakSeen p f _)

theorem fget_HP_rxCounted (p : Fin 4) {g : Fld} (h1 : g.off ≠ HP_FEC_UNC_COUNT.off) (h2 : g.off ≠ HP_FEC_CORR_COUNT.off) (h3 : g.off ≠ HP_NAK_RX_COUNT.off)
    (f : Flit) (s : State) : fget (rxCounted p f s) (HP p) g = fget s (HP p) g :=
  (onlyIf_inv (fun s => fget s (HP p) g) _ _ _ fun y => fget_HP_fbump_ne p h3 y).trans (fget_HP_fecCount p h1 h2 f s)

theorem rxCounted_record (p : Fin 4) (f : Flit) (s : State) : ∃ n v, (rxCounted p f s).port p = { s.port p with fecPos := n, ser := v } := by
  obtain ⟨n, v, record⟩ := fecCount_record p f s
  exact ⟨n, v, (port_congr (onlyIf_inv (·.ports) _ _ _ fun _ => fbump_ports _ _ _) p).trans record⟩

section
variable {p : Fin 4} {f : Flit} {s : State} (active : portSt s p = PORT_ACTIVE)
include active

theorem exec_dataFlit_bad (bad : flitOk s p f 1 = false) : exec (.dataFlit p f) s = .next (pump p (startNak p (badFlit p (fecCount p f s)))) :=
  congrArg Host.Outcome.next ((if_neg (not_not.mpr active)).trans (if_pos (by rw [flitOk_fecCount, bad]; rfl)))

theorem exec_idleFlit_bad (bad : flitOk s p f 2 = false) : exec (.idleFlit p f) s = .next (badFlit p (fecCount p f s)) :=
  congrArg Host.Outcome.next ((if_neg (not_not.mpr active)).trans (if_pos (by rw [flitOk_fecCount, bad]; rfl)))

/-- An intact DATA flit whose link fields hold (03 R79). -/
theorem exec_dataFlit_linked {ls : State} (ok : flitOk s p f 1 = true) (linked : linkFields p f (rxCounted p f s) = some ls) :
    exec (.dataFlit p f) s = .next (afterFlit p f (if f.fseq = (ls.port p).expect then deliver p f ls
      else if ((ls.port p).expect - f.fseq).toNat ≤ 512 then ls else startNak p ls)) := by
  refine congrArg Host.Outcome.next ((if_neg (not_not.mpr active)).trans ((if_neg (by rw [flitOk_fecCount, ok]; decide)).trans ?_))
  dsimp only
  rw [← rxCounted, linked]

theorem exec_dataFlit_unlinked (ok : flitOk s p f 1 = true) (unlinked : linkFields p f (rxCounted p f s) = none) :
    exec (.dataFlit p f) s = .next (protocolError p (rxCounted p f s)) := by
  refine congrArg Host.Outcome.next ((if_neg (not_not.mpr active)).trans ((if_neg (by rw [flitOk_fecCount, ok]; decide)).trans ?_))
  dsimp only
  rw [← rxCounted, unlinked]

theorem exec_idleFlit_linked {ls : State} (ok : flitOk s p f 2 = true) (linked : linkFields p f (rxCounted p f s) = some ls) :
    exec (.idleFlit p f) s = .next (afterFlit p f ls) := by
  refine congrArg Host.Outcome.next ((if_neg (not_not.mpr active)).trans ((if_neg (by rw [flitOk_fecCount, ok]; decide)).trans ?_))
  dsimp only
  rw [← rxCounted, linked]

end

theorem exec_dataFlit_stray {p : Fin 4} {f : Flit} {s : State} (passive : portSt s p ≠ PORT_ACTIVE) (stream : fecStream s p = true) :
    exec (.dataFlit p f) s = .next (if flitOk s p f 1 then fecCount p f s else badFlit p (fecCount p f s)) := by
  refine congrArg Host.Outcome.next ((if_pos passive).trans ((if_neg (by simp [stream])).trans ?_))
  dsimp only
  rw [flitOk_fecCount]

/-! ### Delivery -/

/-- What the slots of a DATA flit build up on the open message of port `p` (03 R75). -/
def rxSlots (p : Fin 4) (f : Flit) (s : State) : RxAcc := (flitMsgSlots f).foldl (rxSlot f.rply) ⟨(s.port p).part, (s.port p).partNeed, [], [], [], 0, 0, 0, false⟩

/-- The messages of an accepted DATA flit have joined the queues of the port, and the flit after it is expected (03 R75, R79). -/
def delivered (p : Fin 4) (a : RxAcc) (s : State) : State :=
  updPort p (fun ps => { ps with
    part := a.part, partNeed := a.need, expect := ps.expect + 1, nak := false, nakDue := false, ackSeen := true,
    rxX := { ps.rxX with sent := (s.port p).rxX.sent + a.xs }, rxT := { ps.rxT with sent := ps.rxT.sent + a.ts }, rxC := { ps.rxC with sent := ps.rxC.sent + a.cs },
    intake := ps.intake ++ a.reqs, arrived := ps.arrived ++ a.reqs.map (fun r => (r, s.ns)), timeQ := ps.timeQ ++ a.times.map (fun x => (x.1, x.2, s.d8)),
    conQ := ps.conQ ++ a.cons }) s

/-- A flit with no framing fault, within the credits, that leaves no message cut by padding, is accepted. -/
theorem deliver_accepts {p : Fin 4} {f : Flit} {s : State} (framed : (rxSlots p f s).bad = false)
    (x : (s.port p).rxX.sent + (rxSlots p f s).xs + begunX (rxSlots p f s).part (rxSlots p f s).need ≤ 16384 + (s.port p).rxX.released)
    (t : (s.port p).rxT.sent + (rxSlots p f s).ts ≤ 32 + (s.port p).rxT.released) (c : (s.port p).rxC.sent + (rxSlots p f s).cs ≤ 64 + (s.port p).rxC.released)
    (whole : f.padfrom.toNat = 15 ∨ (rxSlots p f s).need = 0) : deliver p f s = delivered p (rxSlots p f s) s := by
  refine if_neg ?_
  rintro (bad | (hx | ht | hc) | ⟨cut, need⟩)
  · exact absurd bad (ne_true_of_eq_false framed)
  · exact absurd hx (Nat.not_lt.mpr x)
  · exact absurd ht (Nat.not_lt.mpr t)
  · exact absurd hc (Nat.not_lt.mpr c)
  · exact whole.elim (Nat.ne_of_lt cut) need

/-! ### TIME -/

/-- A TIME message leaves the port's queue, its response waits, and it is counted (04 R131). -/
theorem exec_time {p : Fin 4} {slot : Slot} {s : State} (active : portSt s p = PORT_ACTIVE) (kind : slotBits slot 127 124 = 8) (rply : Bool) :
    ∃ g, exec (.time p slot rply) s = .next (pump p (fbump TXN TXN_TIME_CNT_COUNT (updPort p g s)))
      ∧ ∀ ps, (g ps).timeQ = ps.timeQ.eraseP fun x => x.1 == slot && x.2.1 == rply :=
  ⟨_, congrArg Host.Outcome.next (if_neg (by simp [active, kind])), fun _ => rfl⟩

/-- Sending writes no register from TXN on. -/
theorem fget_TXN_pump (p : Fin 4) (f : Fld) (s : State) : fget (pump p s) TXN f = fget s TXN f := by
  have apart : ∀ g : Fld, g.off < 0x1000 → TXN + f.off ≠ HP p + g.off := fun g h =>
    Nat.ne_of_gt (Nat.lt_of_lt_of_le (HP_lt_TXN p h) (Nat.le_add_right _ _))
  exact pump_spec (fun s => fget s TXN f) p s (fun g v y hg => fget_fset_ne _ _ _ _ _ _ (apart g (hg ▸ by decide))) (fun i n m y => fget_congr (charge_regs i n m y) _ _)
    (fun _ _ => rfl) (fun g y => fget_congr (updPort_regs p g y) _ _) fun y => fget_fbump_ne _ _ _ _ _ (apart _ (by decide))

/-! ### The statement -/

/-- A field's value fits its width. -/
theorem fget_lt (s : State) (b : Nat) (f : Fld) : fget s b f < 2 ^ f.width := Nat.mod_lt _ (Nat.two_pow_pos _)

theorem fget_badFlit (p : Fin 4) (f : Flit) (s : State) :
    fget (badFlit p (fecCount p f s)) (HP p) HP_CRC_ERR_COUNT = min (fget s (HP p) HP_CRC_ERR_COUNT + 1) (2 ^ 32 - 1) := by
  rw [badFlit, fget_fbump _ _ _ (by decide), fget_HP_fecCount p (by decide) (by decide)]
  rfl

theorem PortOnly.badFlit (p : Fin 4) (f : Flit) (s : State) : PortOnly p s (badFlit p (Machine.fecCount p f s)) := (fecCount p f s).trans (fbump p _ _ _)

theorem badFlit_record (p : Fin 4) (f : Flit) (s : State) : ∃ n v, (badFlit p (fecCount p f s)).port p = { s.port p with fecPos := n, ser := v } := by
  obtain ⟨n, v, record⟩ := fecCount_record p f s
  exact ⟨n, v, (port_congr (fbump_ports _ _ _) p).trans record⟩

/-- DEGRADE_EN stands where the link fields of a flit hold. -/
theorem degrade_linked {p : Fin 4} {f : Flit} {s ls : State} (linked : linkFields p f (rxCounted p f s) = some ls)
    (degrade : f.lreq = 1 → fbit s (HP p) HP_CTL_DEGRADE_EN = true) (lane : f.lreq = 1) : fbit ls (HP p) HP_CTL_DEGRADE_EN = true := by
  rw [fbit, (linkFields_some linked).2 _ (by decide), fget_HP_rxCounted p (by decide) (by decide) (by decide)]
  exact degrade lane

/-- Settles O6: each flit by the branch of its command, with what the flits that answer it leave of the port's record. -/
theorem flitsReceived : Obligations.FlitsReceived := by
  unfold Obligations.FlitsReceived
  refine ⟨fun p f s active run bad => ?bad, fun p f s ls a active ok linked degrade next ha framed x t c whole => ?deliver,
    fun p f s ls active ok linked degrade ne behind => ?behind, fun p f s ls active ok linked h1 h2 ahead => ?ahead, fun p f s active ok unlinked => ?unlinked,
    fun p f s active ok ack h1 h2 => ?idle, fun p f s active bad => ?idleBad, fun p f s passive stream => ?stray, fun p slot rply s active kind => ?time⟩
  case bad =>
    have e := exec_dataFlit_bad active bad
    obtain ⟨n, v, record⟩ := badFlit_record p f s
    have count := fget_badFlit p f s
    have only := PortOnly.badFlit p f s
    have st : portSt (badFlit p (fecCount p f s)) p = PORT_ACTIVE := (fget_HP_fbump_ne p (by decide) _).trans ((portSt_fecCount p p f s).trans active)
    generalize badFlit p (fecCount p f s) = y at *
    have regs := startNak_regs p y
    have st' : portSt (startNak p y) p = PORT_ACTIVE := (fget_congr regs _ _).trans st
    have opened := PortOnly.startNak p y
    refine ⟨_, e, (pump_nak p _).trans (startNak_nak p y), ?_, ?_, fun closed => ?_, ?_, (portSt_pump p _).trans st', exec_dram e (by simp [stores]), ?_⟩
    · rw [pump_expect, startNak_port (·.expect) p y fun _ _ _ _ => rfl, record]
    · rw [pump_intake, startNak_port (·.intake) p y fun _ _ _ _ => rfl, record]
    · have closed' : (y.port p).nak = false := by
        rw [record]
        exact closed
      have due : ((startNak p y).port p).nakDue = true := by rw [startNak_opens closed', updPort_port]
      obtain ⟨⟨z, ⟨-, out⟩, kind, seq⟩, -⟩ := pump_sends_nak st' (opened.flush.trans (only.flush.trans run)) (startNak_nak p y) due
      refine ⟨z, out, kind, ?_⟩
      rw [seq, startNak_port (·.expect) p y fun _ _ _ _ => rfl, record]
    · rw [fget_HP_pump p (by decide), fget_congr regs, count]
    · rw [(PortOnly.pump p _).streams, opened.streams, only.streams]
  case deliver =>
    have e := exec_dataFlit_linked active ok linked
    have built : a = rxSlots p f ls := ha
    subst built
    rw [if_pos next, deliver_accepts framed x t c whole] at e
    have only := (PortOnly.rxCounted p f s).trans (linkFields_some linked).1
    have en : f.lreq = 1 → fbit ls (HP p) HP_CTL_DEGRADE_EN = true := degrade_linked linked degrade
    have after : RxKept p (delivered p (rxSlots p f ls) ls) _ := RxKept.afterFlit (f := f) en
    have record : (delivered p (rxSlots p f ls) ls).port p = _ := updPort_port _ _ _
    obtain ⟨expect, intake, timeQ, conQ, part⟩ := rxView_eq after.rx
    rw [record] at expect intake timeQ conQ part
    exact ⟨_, e, expect, after.nak (by rw [record]), intake, timeQ, conQ, part,
      fun q hq => (after.only.others q hq).trans (updPort_port_ne p q _ _ hq), exec_dram e (by simp [stores]), after.only.streams.trans only.streams⟩
  case behind =>
    have e := exec_dataFlit_linked active ok linked
    rw [if_neg ne, if_pos behind] at e
    have only := (PortOnly.rxCounted p f s).trans (linkFields_some linked).1
    have after : RxKept p ls _ := RxKept.afterFlit (f := f) (degrade_linked linked degrade)
    obtain ⟨expect, intake, timeQ, conQ, part⟩ := rxView_eq after.rx
    exact ⟨_, e, expect, intake, timeQ, conQ, part, after.only.others, exec_dram e (by simp [stores]), after.only.streams.trans only.streams⟩
  case ahead =>
    have e := exec_dataFlit_linked active ok linked
    have ne : f.fseq ≠ (ls.port p).expect := fun h => by
      rw [h, BitVec.sub_self] at ahead
      exact absurd ahead (by decide)
    rw [if_neg ne, if_neg (Nat.not_le.mpr ahead)] at e
    have only := ((PortOnly.rxCounted p f s).trans (linkFields_some linked).1).trans (PortOnly.startNak p ls)
    have after : RxKept p (startNak p ls) _ := RxKept.afterFlit (f := f) fun lane => absurd lane h1
    obtain ⟨expect, intake, -⟩ := rxView_eq (after.rx.trans (startNak_port rxView p ls fun _ _ _ _ => rfl))
    exact ⟨_, e, afterFlit_nak h1 h2 (startNak_nak p ls), expect, intake, exec_dram e (by simp [stores]), after.only.streams.trans only.streams⟩
  case unlinked =>
    have e := exec_dataFlit_unlinked active ok unlinked
    obtain ⟨proto, down, replay⟩ := protocolError_fields p (rxCounted p f s)
    rw [fbit, fget_HP_rxCounted p (by decide) (by decide) (by decide), ← fbit] at down
    exact ⟨_, e, proto, down, replay, exec_dram e (by simp [stores])⟩
  case idle =>
    have linked : linkFields p f (rxCounted p f s) = some (creditFields p f (rxCounted p f s)) := by
      unfold linkFields
      rw [if_neg (by rw [ack]; decide), if_neg (by rw [ack]; decide)]
      rfl
    have e := exec_idleFlit_linked active ok linked
    obtain ⟨n, v, record⟩ := rxCounted_record p f s
    have only := (PortOnly.rxCounted p f s).trans (linkFields_some linked).1
    have after : RxKept p (creditFields p f (rxCounted p f s)) _ := RxKept.afterFlit (f := f) fun lane => absurd lane h1
    obtain ⟨expect, -⟩ := rxView_eq after.rx
    obtain ⟨x, t, c⟩ := rxView_credits after.rx
    rw [creditFields_port, record] at expect x t c
    exact ⟨_, e, x, t, c, expect, exec_dram e (by simp [stores]), after.only.streams.trans only.streams⟩
  case idleBad =>
    have e := exec_idleFlit_bad active bad
    obtain ⟨n, v, record⟩ := badFlit_record p f s
    exact ⟨_, e, fget_badFlit p f s, by rw [record], by rw [record], exec_dram e (by simp [stores])⟩
  case stray =>
    have e := exec_dataFlit_stray (f := f) passive stream
    cases ok : flitOk s p f 1
    · rw [ok, if_neg (by decide)] at e
      obtain ⟨n, v, record⟩ := badFlit_record p f s
      have only := PortOnly.badFlit p f s
      exact ⟨_, e, fget_badFlit p f s, by rw [record], by rw [record], by rw [record], only.others, exec_dram e (by simp [stores]), only.streams⟩
    · rw [ok, if_pos rfl] at e
      obtain ⟨n, v, record⟩ := fecCount_record p f s
      have only := PortOnly.fecCount p f s
      refine ⟨_, e, ?_, by rw [record], by rw [record], by rw [record], only.others, exec_dram e (by simp [stores]), only.streams⟩
      rw [fget_HP_fecCount p (by decide) (by decide)]
      exact (Nat.min_eq_left (Nat.le_sub_one_of_lt (fget_lt s _ _))).symm
  case time =>
    obtain ⟨g, e, queue⟩ := exec_time active kind rply
    refine ⟨_, e, ?_, ?_, exec_dram e (by simp [stores]), exec_streams e (by simp [stores])⟩
    · rw [pump_port (·.timeQ) p _ (fun _ _ _ _ => rfl) (fun _ _ _ _ _ _ _ _ _ => rfl), port_congr (fbump_ports _ _ _), updPort_port, queue]
    · rw [fget_TXN_pump, fget_fbump _ _ _ (by decide), fget_congr (updPort_regs _ _ _)]
      rfl

end Sys2Proof.Proofs

/-! PROOF. The bytes and the counters of a line, and the line and the target of an ADD (04 R112). -/

namespace Sys2Proof.Proofs
open Sys2Proof Sys2Proof.Machine Sys2Proof.Laws

/-! ### Digits of a number in a power of two -/

/-- A digit that lies below the place where a number is cut off is that of the whole number. -/
theorem mod_pow_div_pow_mod_pow {a b c : Nat} (h : a + b ≤ c) (x : Nat) : x % 2 ^ c / 2 ^ a % 2 ^ b = x / 2 ^ a % 2 ^ b := by
  apply Nat.eq_of_testBit_eq
  intro i
  simp only [Nat.testBit_mod_two_pow, Nat.testBit_div_two_pow]
  by_cases below : i < b
  · have : i + a < c := by omega
    simp [this]
  · simp [below]

theorem div_pow_add (x a b : Nat) : x / 2 ^ (a + b) = x / 2 ^ a / 2 ^ b := by rw [Nat.pow_add, Nat.div_div_eq_div_mul]

/-- A digit of a word is that of the number that it was made from. -/
theorem ofNat_toNat_div_pow {a b c : Nat} (h : a + b ≤ c) (x : Nat) : BitVec.ofNat b ((BitVec.ofNat c x).toNat / 2 ^ a) = BitVec.ofNat b (x / 2 ^ a) :=
  BitVec.eq_of_toNat_eq (by simp only [BitVec.toNat_ofNat, mod_pow_div_pow_mod_pow h])

/-! ### Numbers that bytes spell -/

theorem ofNat_natLE_div_pow (l : List Byte) (i : Nat) : BitVec.ofNat 8 (natLE l / 2 ^ (8 * i)) = l.getD i 0 := by
  induction l generalizing i with
  | nil => simp [natLE]
  | cons b r ih =>
    have := b.isLt
    cases i with
    | zero =>
      refine BitVec.eq_of_toNat_eq ?_
      simp only [natLE, BitVec.toNat_ofNat, Nat.mul_zero, Nat.pow_zero, Nat.div_one, List.getD_cons_zero]
      omega
    | succ i =>
      have tail : natLE (b :: r) / 2 ^ 8 = natLE r := by
        rw [natLE]
        omega
      rw [Nat.mul_succ, Nat.add_comm, div_pow_add, tail, ih, List.getD_cons_succ]

/-- The low n bytes of a number spell it modulo 256^n. -/
theorem natLE_bytes (n x : Nat) : natLE ((List.range n).map fun i => BitVec.ofNat 8 (x / 2 ^ (8 * i))) = x % 2 ^ (8 * n) := by
  induction n generalizing x with
  | zero => simp [natLE, Nat.mod_one]
  | succ n ih =>
    have rest : ∀ i, x / 2 ^ (8 * (i + 1)) = x / 2 ^ 8 / 2 ^ (8 * i) := fun i => by
      rw [Nat.mul_succ, Nat.add_comm, div_pow_add]
    rw [List.range_succ_eq_map, List.map_cons, List.map_map, natLE]
    simp only [Function.comp_def, Nat.succ_eq_add_one, rest, ih]
    rw [Nat.mul_succ, Nat.add_comm (8 * n), Nat.pow_add, Nat.mod_mul]
    simp

/-- A word is spelt by its bytes, the least significant first. -/
theorem ofNat_natLE_bytes {w n : Nat} (h : w = 8 * n) (l : BitVec w) : BitVec.ofNat w (natLE ((List.range n).map fun i => BitVec.ofNat 8 (l.toNat / 2 ^ (8 * i)))) = l := by
  rw [natLE_bytes, ← h, Nat.mod_eq_of_lt l.isLt, BitVec.ofNat_toNat, BitVec.setWidth_eq]

theorem natBE_eq_natLE_reverse (l : List Byte) : natBE l = natLE l.reverse := by
  induction l using List.reverseRecOn with
  | nil => rfl
  | append_singleton l b ih =>
    have step : natBE (l ++ [b]) = natBE l * 256 + b.toNat := by simp [natBE]
    rw [step, ih, List.reverse_append, List.reverse_singleton, List.singleton_append, natLE]
    omega

/-! ### The bytes of a line and of a slot -/

theorem lineByte_lineOf (l : List Byte) {i : Nat} (h : i < 128) : lineByte (lineOf l) i = l.getD i 0 := by
  rw [← ofNat_natLE_div_pow]
  exact ofNat_toNat_div_pow (by omega) _

theorem lineOf_lineList (l : Line) : lineOf (lineList l) = l := ofNat_natLE_bytes (n := 128) rfl l

/-- Lines that hold the same bytes are the same. -/
theorem line_ext {l m : Line} (h : ∀ i < 128, lineByte l i = lineByte m i) : l = m := by
  rw [← lineOf_lineList l, ← lineOf_lineList m]
  exact congrArg lineOf (List.map_congr_left fun i hi => h i (List.mem_range.mp hi))

/-- Byte i of the slot that sixteen bytes spell. -/
theorem slotByte_natBE {l : List Byte} (hl : l.length = 16) {i : Nat} (hi : i < 16) : slotByte (BitVec.ofNat 128 (natBE l)) i = l.getD i 0 := by
  have mirrored : l.getD i 0 = l.reverse.getD (15 - i) 0 := by
    rw [List.getD_eq_getElem?_getD, List.getD_eq_getElem?_getD, List.getElem?_reverse (by omega), hl]
    congr 2
    omega
  rw [mirrored, ← ofNat_natLE_div_pow, natBE_eq_natLE_reverse]
  exact ofNat_toNat_div_pow (by omega) _

/-! ### Data slots -/

theorem length_slotBytes (x : Slot) : (slotBytes x).length = 16 := by simp [slotBytes]

theorem getD_slotBytes (x : Slot) {i : Nat} (h : i < 16) : (slotBytes x).getD i 0 = slotByte x i := by simp [slotBytes, h]

theorem getD_flatMap_slotBytes {l : List Slot} {j i : Nat} (hj : j < l.length) (hi : i < 16) : (l.flatMap slotBytes).getD (16 * j + i) 0 = slotByte (l.getD j 0) i := by
  induction l generalizing j with
  | nil => exact absurd hj (Nat.not_lt_zero j)
  | cons x l ih =>
    rw [List.flatMap_cons]
    cases j with
    | zero =>
      rw [Nat.mul_zero, Nat.zero_add, List.getD_append _ _ _ _ (by rwa [length_slotBytes]), getD_slotBytes x hi, List.getD_cons_zero]
    | succ j =>
      rw [List.getD_append_right _ _ _ _ (by rw [length_slotBytes]; omega), length_slotBytes, List.getD_cons_succ, ← ih (Nat.lt_of_succ_lt_succ hj)]
      congr 1
      omega

/-- Slot j of eight carries line bytes 16j to 16j + 15 (04 R112). -/
theorem lineByte_slotsLine {l : List Slot} (hl : l.length = 8) {j i : Nat} (hj : j < 8) (hi : i < 16) : lineByte (slotsLine l) (16 * j + i) = slotByte (l.getD j 0) i :=
  (lineByte_lineOf _ (by omega)).trans (getD_flatMap_slotBytes (hl ▸ hj) hi)

theorem length_lineSlots (l : Line) : (lineSlots l).length = 8 := by simp [lineSlots]

theorem slotByte_lineSlots (l : Line) {j i : Nat} (hj : j < 8) (hi : i < 16) : slotByte ((lineSlots l).getD j 0) i = lineByte l (16 * j + i) := by
  have slot : (lineSlots l).getD j 0 = BitVec.ofNat 128 (natBE ((List.range 16).map fun i => lineByte l (16 * j + i))) := by simp [lineSlots, hj]
  rw [slot, slotByte_natBE (by simp) hi]
  simp [hi]

/-- The eight data slots of a line carry it. -/
theorem slotsLine_lineSlots (l : Line) : slotsLine (lineSlots l) = l := by
  refine line_ext fun n hn => ?_
  rw [← Nat.div_add_mod n 16, lineByte_slotsLine (length_lineSlots l) (by omega) (by omega), slotByte_lineSlots l (by omega) (by omega)]

/-! ### Cells -/

/-- Byte i of the line that a memory holds at an address. -/
theorem lineByte_cellLine (m : List Host.Cell) (a : Nat) {i : Nat} (h : i < 128) : lineByte (cellLine m a) i = cellGet m (a + i) := by
  rw [cellLine, lineByte_lineOf _ h]
  simp [h]

/-! ### Counters -/

/-- A counter of a line is spelt by its eight bytes, the least significant first (04 R112). -/
theorem counterOf_toNat (l : Line) (k : Nat) : (counterOf l k).toNat = natLE ((List.range 8).map fun i => lineByte l (8 * k + i)) := by
  have bytes : ∀ i, lineByte l (8 * k + i) = BitVec.ofNat 8 (l.toNat / 2 ^ (64 * k) / 2 ^ (8 * i)) := fun i => by
    rw [lineByte, ← div_pow_add]
    congr 3
    omega
  simp only [bytes, natLE_bytes]
  rfl

/-- A number with the digit at place k replaced: `low` below the place, the new digit, and the old digits above it. -/
theorem setCounter_split (x k v : Nat) :
    x - x / 2 ^ (64 * k) % 2 ^ 64 * 2 ^ (64 * k) + v * 2 ^ (64 * k) = x % 2 ^ (64 * k) + 2 ^ (64 * k) * (v + 2 ^ 64 * (x / 2 ^ (64 * (k + 1)))) := by
  have whole := Nat.div_add_mod x (2 ^ (64 * k))
  have upper := Nat.div_add_mod (x / 2 ^ (64 * k)) (2 ^ 64)
  rw [Nat.mul_succ, div_pow_add]
  generalize x / 2 ^ (64 * k) / 2 ^ 64 = high at *
  generalize x / 2 ^ (64 * k) % 2 ^ 64 = digit at *
  generalize x % 2 ^ (64 * k) = low at *
  generalize 2 ^ (64 * k) = place at *
  rw [← upper] at whole
  have : x = place * (2 ^ 64 * high) + digit * place + low := by rw [← whole]; ring
  have : place * (v + 2 ^ 64 * high) = v * place + place * (2 ^ 64 * high) := by ring
  omega

/-- A counter that is replaced reads the new value, and every other counter reads as before (04 R112). -/
theorem counterOf_setCounter (l : Line) {j k : Nat} (hk : k < 16) (v : BitVec 64) : counterOf (setCounter l j v) k = if k = j then v else counterOf l k := by
  have digit : counterOf (setCounter l j v) k
      = BitVec.ofNat 64 ((l.toNat % 2 ^ (64 * j) + 2 ^ (64 * j) * (v.toNat + 2 ^ 64 * (l.toNat / 2 ^ (64 * (j + 1))))) / 2 ^ (64 * k)) := by
    rw [← setCounter_split]
    exact ofNat_toNat_div_pow (by omega) _
  rw [digit]
  refine BitVec.eq_of_toNat_eq ?_
  rw [BitVec.toNat_ofNat]
  have low : l.toNat % 2 ^ (64 * j) < 2 ^ (64 * j) := Nat.mod_lt _ (Nat.two_pow_pos _)
  rcases Nat.lt_trichotomy k j with below | rfl | above
  · rw [if_neg (Nat.ne_of_lt below)]
    refine (mod_pow_div_pow_mod_pow (c := 64 * j) (by omega) _).symm.trans ?_
    rw [Nat.add_mul_mod_self_left, Nat.mod_mod]
    exact mod_pow_div_pow_mod_pow (by omega) _
  · rw [if_pos rfl, Nat.add_mul_div_left _ _ (Nat.two_pow_pos _), Nat.div_eq_of_lt low, Nat.zero_add, Nat.add_mul_mod_self_left]
    exact Nat.mod_eq_of_lt v.isLt
  · rw [if_neg (Nat.ne_of_gt above)]
    obtain ⟨d, rfl⟩ := Nat.exists_eq_add_of_lt above
    have place : 64 * (j + d + 1) = 64 * j + 64 + 64 * d := by ring
    rw [place, div_pow_add _ _ (64 * d), div_pow_add _ (64 * j) 64, Nat.add_mul_div_left _ _ (Nat.two_pow_pos _), Nat.div_eq_of_lt low, Nat.zero_add,
      Nat.add_mul_div_left _ _ (Nat.two_pow_pos _), Nat.div_eq_of_lt v.isLt, Nat.zero_add, ← div_pow_add]
    rw [counterOf, place]
    rfl

/-! ### The entry of an ADD -/

/-- TARGET of an ADD's entry is the line address plus 8 × SUB: 44 bits hold it (04 R112). -/
theorem reqTarget_add {r : Req} (h : r.opc = .add) : (reqTarget r).toNat = reqLine r.hdr * 128 + 8 * r.hdr.sub.toNat := by
  have line := r.hdr.arg.isLt
  have sub := r.hdr.sub.isLt
  rw [reqTarget, h]
  exact Nat.mod_eq_of_lt (by unfold reqLine; omega)

/-- Settles O59: each byte of a line, of a slot and of a memory's cells is a digit in base 256 of one number, and a counter is a digit in base 2^64 of it. -/
theorem lineLayout : Obligations.LineLayout := by
  unfold Obligations.LineLayout
  refine ⟨?slots, ?carried, ?cell, ?counter, ?merged, ?entry⟩
  case slots =>
    intro l j i hl hj hi
    exact lineByte_slotsLine hl hj hi
  case carried =>
    intro l
    exact ⟨slotsLine_lineSlots l, length_lineSlots l⟩
  case cell =>
    intro s a p _
    exact (lineByte_cellLine s.dram (dramAddr p.ch p.lam) (Nat.mod_lt a (by decide))).symm
  case counter =>
    intro l k _
    exact counterOf_toNat l k
  case merged =>
    intro e l k add hk
    have sub : e.sub.toNat % 16 = e.sub.toNat := Nat.mod_eq_of_lt e.sub.isLt
    rw [mergedLine, if_pos add, sub, counterOf_setCounter l hk]
    split
    next same => rw [same]
    next => rfl
  case entry =>
    intro s r p d late hit twin add
    exact ⟨if_pos add, reqTarget_add add⟩

end Sys2Proof.Proofs

/-! PROOF. A frozen stream is opened again: its record, the journal entries of its requests, and what the blocks that it retained leave behind (01 R28, R30, 04 R138). -/

namespace Sys2Proof.Proofs
open Sys2Proof Sys2Proof.Machine Sys2Proof.Laws

/-! ### Retained blocks -/

/-- A state beside the registers, the queue engine and the channels: what the return of blocks to the stack leaves as it was. -/
def besideStack (s : State) : State := { s with regs := [], que := {}, chans := State.reset.chans }

theorem besideStack_eq {s t : State} (h : besideStack s = besideStack t) :
    s.d8 = t.d8 ∧ s.dram = t.dram ∧ s.wmem = t.wmem ∧ s.streams = t.streams ∧ s.rings = t.rings ∧ s.mans = t.mans ∧ s.caravans = t.caravans :=
  ⟨congrArg (·.d8) h, congrArg (·.dram) h, congrArg (·.wmem) h, congrArg (·.streams) h, congrArg (·.rings) h, congrArg (·.mans) h, congrArg (·.caravans) h⟩

theorem besideStack_que (q : QueueState) (s : State) : besideStack { s with que := q } = besideStack s := rfl

theorem besideStack_queStat (s : State) : besideStack (queStat s) = besideStack s := rfl

theorem besideStack_setBrec (b : Nat) (r : BlockRec) (s : State) : besideStack (setBrec b r s) = besideStack s := rfl

theorem besideStack_pushStack (wr : Bool) (lo hi k : Nat) (s : State) : besideStack (pushStack wr lo hi k s) = besideStack s := by
  unfold pushStack
  extract_lets a b
  split
  · rfl
  · split
    · split
      · rfl
      · rfl
    · rfl

theorem besideStack_stackLevel (s : State) : besideStack (stackLevel s) = besideStack s := by
  unfold stackLevel
  extract_lets deep
  split
  · split
    · rfl
    · exact forAll_inv besideStack _ _ _ fun k => besideStack_pushStack _ _ _ _
  · split
    · rw [forAll_inv besideStack _ _ _ fun k => besideStack_pushStack _ _ _ _, besideStack_que]
    · rfl

theorem besideStack_tryFree (b : Nat) (s : State) : besideStack (tryFree b s) = besideStack s := by
  unfold tryFree
  extract_lets r
  split
  · unfold pushBlock
    rw [besideStack_queStat, besideStack_stackLevel, besideStack_setBrec, besideStack_que]
  · rfl

theorem besideStack_releaseRet (r : Option (Nat × Nat × Nat)) (s : State) : besideStack (releaseRet r s) = besideStack s := by
  unfold releaseRet
  split
  · rfl
  · rw [besideStack_stackLevel]
    exact forAll_inv besideStack _ _ _ fun b x => by rw [besideStack_tryFree, besideStack_setBrec]

/-! ### Stream records -/

theorem setStrm_strm_ne {p q : Fin 4} {k y : BitVec 12} (h : strmKey q y ≠ strmKey p k) (x : StreamRec) (s : State) : (setStrm p k x s).strm q y = s.strm q y :=
  tblGet_tblSet_ne _ _ _ _ _ h

/-! ### The journal of a stream that opens -/

/-- The entry is of a request of the stream as it stands, and not recorded yet. -/
def awaitsRecord (p : Fin 4) (k : BitVec 12) (e : JEntry) : Bool := e.orphan.isNone && !e.recorded && e.port == p && e.stream == k

theorem awaitsRecord_iff {p : Fin 4} {k : BitVec 12} {e : JEntry} : awaitsRecord p k e = true ↔ e.orphan = none ∧ e.recorded = false ∧ e.port = p ∧ e.stream = k := by
  simp [awaitsRecord, and_assoc]

/-- The number under which a request is kept from the stream's time before. -/
def pastNo (s : State) (q : BitVec 16) : Nat := s.order * 65536 + q.toNat

/-- An entry of the stream that is not recorded yet is marked as of the time before. -/
def markPast (p : Fin 4) (k : BitVec 12) (s : State) (e : JEntry) : JEntry := if awaitsRecord p k e then { e with orphan := some (pastNo s e.seq) } else e

/-- The state with the stream's entries marked, in both copies of every ring. -/
def journalPast (p : Fin 4) (k : BitVec 12) (s : State) : State :=
  { s with order := s.order + 1, rings := s.rings.map fun x => { x with entries := x.entries.map (markPast p k s), copyB := x.copyB.map (markPast p k s) } }

/-- The numbers of the stream's requests that the journal has not recorded yet. -/
def awaitedSeqs (p : Fin 4) (k : BitVec 12) (s : State) : List (BitVec 16) := (s.rings.toList.flatMap fun x => x.entries.filter (awaitsRecord p k)).map (·.seq)

/-- The window slots of those requests, by the number under which they are kept. -/
def pastSlots (p : Fin 4) (k : BitVec 12) (s : State) : List (Nat × WinSlot) :=
  (s.strm p k).win.filterMap fun w => if (awaitedSeqs p k s).contains w.seq then some (pastNo s w.seq, w) else none

/-- The record that a stream begins again with after an uncorrectable error (01 R30). -/
def emptied (p : Fin 4) (k : BitVec 12) (s : State) : StreamRec :=
  { s.strm p k with old := (s.strm p k).old ++ pastSlots p k s, n := 0, win := [], k := 0, resv := false, retryAt := none, frozen := false, ue := false }

theorem markPast_content (p : Fin 4) (k : BitVec 12) (s : State) (e : JEntry) : { markPast p k s e with orphan := none } = { e with orphan := none } := by
  unfold markPast
  split
  · rfl
  · rfl

theorem markPast_marked {p : Fin 4} {k : BitVec 12} {s : State} {e : JEntry} (port : (markPast p k s e).port = p) (stream : (markPast p k s e).stream = k)
    (recorded : (markPast p k s e).recorded = false) : (markPast p k s e).orphan.isSome = true := by
  unfold markPast at *
  split
  · rfl
  next other =>
    rw [if_neg other] at port stream recorded
    rw [Option.isSome_iff_ne_none]
    exact fun orphan => other (awaitsRecord_iff.mpr ⟨orphan, recorded, port, stream⟩)

theorem journalPast_entries (p : Fin 4) (k : BitVec 12) (s : State) (c : Fin 16) : ((journalPast p k s).ring c).entries = (s.ring c).entries.map (markPast p k s) := by
  simp [journalPast, State.ring]

theorem mem_awaitedSeqs {p : Fin 4} {k : BitVec 12} {s : State} {c : Fin 16} {e : JEntry} (m : e ∈ (s.ring c).entries) (h : awaitsRecord p k e = true) : e.seq ∈ awaitedSeqs p k s :=
  List.mem_map_of_mem (List.mem_flatMap.mpr ⟨s.ring c, Vector.mem_toList_iff.mpr (Vector.getElem_mem c.isLt), List.mem_filter.mpr ⟨m, h⟩⟩)

theorem mem_pastSlots {p : Fin 4} {k : BitVec 12} {s : State} {w : WinSlot} (m : w ∈ (s.strm p k).win) (h : w.seq ∈ awaitedSeqs p k s) : (pastNo s w.seq, w) ∈ pastSlots p k s :=
  List.mem_filterMap.mpr ⟨w, m, if_pos (List.contains_iff_mem.mpr h)⟩

/-! ### STREAM_OPEN -/

/-- The state in which a stream with an uncorrectable error has left its journal entries and its retained blocks behind. -/
def leftBehind (p : Fin 4) (k : BitVec 12) (s : State) : State := forAll (s.strm p k).win (fun w s => releaseRet w.ret s) (journalPast p k s)

theorem besideStack_leftBehind (p : Fin 4) (k : BitVec 12) (s : State) : besideStack (leftBehind p k s) = besideStack (journalPast p k s) :=
  forAll_inv besideStack _ _ _ fun w => besideStack_releaseRet w.ret

section
variable {p : Fin 4} {k : BitVec 12} {s : State}

theorem openStream_open (h : (s.strm p k).frozen = false) : openStream p k s = s := if_pos (by rw [h]; rfl)

theorem openStream_frozen (h : (s.strm p k).frozen = true) (ue : (s.strm p k).ue = false) : openStream p k s = setStrm p k { s.strm p k with frozen := false } s :=
  (if_neg (by rw [h]; decide)).trans (if_neg (by rw [ue]; decide))

theorem openStream_ue (h : (s.strm p k).frozen = true) (ue : (s.strm p k).ue = true) : openStream p k s = setStrm p k (emptied p k s) (leftBehind p k s) :=
  (if_neg (by rw [h]; decide)).trans (if_pos ue)

/-- STREAM_OPEN with no pending pair, where nothing that waits can go on afterwards. -/
theorem exec_streamOpen {t : State} (on : blockOn s TXN = true) (free : s.guard = none) (opened : openStream p k s = t) (quiet : settled t) :
    exec (.streamOpen p k) s = .next t := by
  have pair : breakPair s = s := by
    unfold breakPair
    rw [free]
  refine congrArg Host.Outcome.next ?_
  rw [busWr_on on, pair, opened, settle_settled quiet]

end

/-- Settles O46: the record that opens waits for nothing, so STREAM_OPEN ends with it, with the marks on its journal entries, and with the return of the blocks that it retained. -/
theorem frozenStreamsOpen : Obligations.FrozenStreamsOpen := by
  unfold Obligations.FrozenStreamsOpen
  refine ⟨?frozen, ?uncorrectable, ?opened⟩
  case frozen =>
    intro p k s on quiet free frozen ue
    have e := exec_streamOpen on free (openStream_frozen frozen ue) (settled_setStrm quiet p k (strm_waiting quiet p k))
    exact ⟨_, e, setStrm_strm p k _ s, fun q y other => setStrm_strm_ne other _ s, rfl, rfl, rfl, rfl, rfl⟩
  case uncorrectable =>
    intro p k s on quiet free frozen ue
    obtain ⟨d8, dram, wmem, streams, rings, mans, caravans⟩ := besideStack_eq (besideStack_leftBehind p k s)
    have e := exec_streamOpen on free (openStream_ue frozen ue) (settled_setStrm (settled_congr quiet caravans streams) p k (strm_waiting quiet p k))
    have entries : ∀ c, ((setStrm p k (emptied p k s) (leftBehind p k s)).ring c).entries = (s.ring c).entries.map (markPast p k s) := fun c => by
      rw [← journalPast_entries]
      exact congrArg (fun r => (r[c] : Ring).entries) rings
    refine ⟨_, e, ?_⟩
    rw [setStrm_strm]
    refine ⟨rfl, rfl, rfl, rfl, rfl, rfl, fun c => ⟨?_, ?_⟩, ?_, fun q y other => ?_, d8, dram, wmem, mans⟩
    · rw [entries, List.map_map]
      exact List.map_congr_left fun e _ => markPast_content p k s e
    · intro e m port stream recorded
      rw [entries] at m
      obtain ⟨e, -, rfl⟩ := List.mem_map.mp m
      exact markPast_marked port stream recorded
    · rintro w m ⟨c, e, inRing, orphan, recorded, port, stream, seq⟩
      have awaited : w.seq ∈ awaitedSeqs p k s := seq ▸ mem_awaitedSeqs inRing (awaitsRecord_iff.mpr ⟨orphan, recorded, port, stream⟩)
      exact ⟨_, List.mem_append_right _ (mem_pastSlots m awaited), rfl⟩
    · exact (setStrm_strm_ne other _ _).trans (strm_congr streams q y)
  case opened =>
    intro p k s on quiet free opened
    exact exec_streamOpen on free (openStream_open opened) quiet

end Sys2Proof.Proofs

/-! PROOF. The life cycle of a manifest: the `manifest` verb's checks, admission and close, the frames that a modify or a close moves, and the end of a close (05 R146 to R151, R164, R165). -/

namespace Sys2Proof.Proofs
open Sys2Proof Sys2Proof.Machine Sys2Proof.Laws

/-! ### The answer to a console line -/

section
variable {l : List OutLn} {s t : State}

/-- A register other than the console's counts of lines and errors. -/
abbrev Uncounted (a : Nat) : Prop := a ≠ CON + CON_LINES_COUNT.off ∧ a ≠ CON + CON_ERRS_COUNT.off ∧ a ≠ CON + CON_CHKERR_COUNT.off

theorem answer_inv {β : Type} (g : State → β) (l : List OutLn) (s : State) (bump : ∀ f x, g (fbump CON f x) = g x) (con : ∀ x c, g { x with con := c } = g x) :
    g (answer l s) = g s :=
  (con _ _).trans <| (onlyIf_inv g _ _ _ (bump _)).trans <| (onlyIf_inv g _ _ _ (bump _)).trans (bump _ _)

@[simp] theorem answer_ans (l : List OutLn) (s : State) : (answer l s).con.ans = l := rfl
@[simp] theorem answer_d8 (l : List OutLn) (s : State) : (answer l s).d8 = s.d8 := answer_inv (·.d8) l s (fun _ _ => rfl) fun _ _ => rfl
@[simp] theorem answer_pwr (l : List OutLn) (s : State) : (answer l s).pwr = s.pwr := answer_inv (·.pwr) l s (fun _ _ => rfl) fun _ _ => rfl
@[simp] theorem answer_mans (l : List OutLn) (s : State) : (answer l s).mans = s.mans := answer_inv (·.mans) l s (fun _ _ => rfl) fun _ _ => rfl
@[simp] theorem answer_way (l : List OutLn) (s : State) : (answer l s).way = s.way := answer_inv (·.way) l s (fun _ _ => rfl) fun _ _ => rfl
@[simp] theorem answer_led (l : List OutLn) (s : State) : (answer l s).led = s.led := answer_inv (·.led) l s (fun _ _ => rfl) fun _ _ => rfl

theorem sameStore_answer (l : List OutLn) (s : State) : sameStore s (answer l s) :=
  ⟨answer_inv (·.dram) l s (fun _ _ => rfl) fun _ _ => rfl, answer_inv (·.wmem) l s (fun _ _ => rfl) fun _ _ => rfl, answer_inv (·.ix) l s (fun _ _ => rfl) fun _ _ => rfl,
    answer_inv (·.streams) l s (fun _ _ => rfl) fun _ _ => rfl, answer_mans l s, answer_inv (·.accts) l s (fun _ _ => rfl) fun _ _ => rfl⟩

theorem rg_fbump_ne (b : Nat) (f : Fld) (s : State) {a : Nat} (h : a ≠ b + f.off) : rg (fbump b f s) a = rg s a := rg_rgSet_ne _ _ _ _ h

theorem rg_onlyIf_fbump_ne (c : Bool) (b : Nat) (f : Fld) (s : State) {a : Nat} (h : a ≠ b + f.off) : rg (onlyIf c (fbump b f) s) a = rg s a :=
  onlyIf_inv (rg · a) c _ s fun x => rg_fbump_ne b f x h

theorem rg_answer {a : Nat} (h : Uncounted a) : rg (answer l s) a = rg s a := by
  obtain ⟨lines, errs, chk⟩ := h
  exact (rg_onlyIf_fbump_ne _ _ _ _ chk).trans <| (rg_onlyIf_fbump_ne _ _ _ _ errs).trans (rg_fbump_ne _ _ _ lines)

theorem fget_answer {b : Nat} {f : Fld} (h : Uncounted (b + f.off)) : fget (answer l s) b f = fget s b f := congrArg f.get (rg_answer h)

theorem fget_answer_lines (l : List OutLn) (s : State) : fget (answer l s) CON CON_LINES_COUNT = min (fget s CON CON_LINES_COUNT + 1) (2 ^ 32 - 1) :=
  (onlyIf_inv (fget · CON CON_LINES_COUNT) _ _ _ fun x => fget_fbump_ne _ _ _ _ x (by decide)).trans <|
    (onlyIf_inv (fget · CON CON_LINES_COUNT) _ _ _ fun x => fget_fbump_ne _ _ _ _ x (by decide)).trans (fget_fbump _ _ _ (by decide))

/-- A line whose verb changes no register, memory, table, clock or power state is answered and nothing more (15 R441). -/
theorem answered_answer (l : List OutLn) (regs : t.regs = s.regs) (d8 : t.d8 = s.d8) (pwr : t.pwr = s.pwr) (store : sameStore s t) : answered l s (answer l t) :=
  ⟨rfl, (fget_answer_lines l t).trans (by rw [fget_congr regs]), (answer_d8 l t).trans d8, (answer_pwr l t).trans pwr, sameStore_trans store (sameStore_answer l t),
    fun a lines errs chk => (rg_answer ⟨lines, errs, chk⟩).trans (rg_congr regs a)⟩

theorem answered_answer_self (l : List OutLn) (s : State) : answered l s (answer l s) := answered_answer l rfl rfl rfl (sameStore_refl s)

/-- A verb that answers one line runs when the interpreter takes the line (15 R441). -/
theorem runVerb1_ready (ready : verbReady s = true) (f : State → State × OutLn) : runVerb1 f s = answer [(f s).2] (f s).1 := by
  simp only [verbReady, Bool.and_eq_true, Bool.not_eq_true', Option.isNone_iff_eq_none] at ready
  obtain ⟨⟨⟨on, idle⟩, awake⟩, sound⟩ := ready
  simp [runVerb1, runVerb, on, idle, awake, sound]

end

/-! ### The manifest table -/

@[simp] theorem setMan_man (m : Nat) (x : Manifest) (s : State) : (setMan m x s).man m = x := tblGet_tblSet _ _ _ _

theorem setMan_man_ne {m k : Nat} (h : k ≠ m) (x : Manifest) (s : State) : (setMan m x s).man k = s.man k := tblGet_tblSet_ne _ _ _ _ _ h

theorem man_congr {s t : State} (h : t.mans = s.mans) (m : Nat) : t.man m = s.man m := by
  unfold State.man
  rw [h]

/-- The sums stand in MAN's registers alone (05 R163). -/
theorem manSums_inv {β : Type} (g : State → β) (reg : ∀ f v x, f.off < 0x1000 → g (fset MAN f v x) = g x) (s : State) : g (manSums s) = g s :=
  (reg _ _ _ (by decide)).trans <| (reg _ _ _ (by decide)).trans <| (reg _ _ _ (by decide)).trans <| (reg _ _ _ (by decide)).trans <|
    (reg _ _ _ (by decide)).trans (reg _ _ _ (by decide))

@[simp] theorem manSums_mans (s : State) : (manSums s).mans = s.mans := manSums_inv (·.mans) (fun _ _ _ _ => rfl) s
@[simp] theorem manSums_d8 (s : State) : (manSums s).d8 = s.d8 := manSums_inv (·.d8) (fun _ _ _ _ => rfl) s
@[simp] theorem manSums_ix (s : State) : (manSums s).ix = s.ix := manSums_inv (·.ix) (fun _ _ _ _ => rfl) s
@[simp] theorem manSums_accts (s : State) : (manSums s).accts = s.accts := manSums_inv (·.accts) (fun _ _ _ _ => rfl) s
@[simp] theorem manSums_led (s : State) : (manSums s).led = s.led := manSums_inv (·.led) (fun _ _ _ _ => rfl) s

theorem rg_manSums {a : Nat} (h : MAN + 0x1000 ≤ a) (s : State) : rg (manSums s) a = rg s a :=
  manSums_inv (rg · a) (fun _ _ _ low => rg_fset_ne _ _ _ _ (by omega)) s

section
variable (m : Nat) (f : MFields) (fresh : Bool) (s : State)

/-- The manifest that a reservation opens or changes: its minima, its floor and the reduction of its share wait for the next boundary (05 R149). -/
def reservedMan : Manifest := { s.man m with st := .opened, f := f, gen := (s.man m).gen + 1 }

theorem putMan_mans : (putMan m f fresh s).1.mans = (setMan m (reservedMan m f s) s).mans := by
  cases fresh <;> exact manSums_mans _

theorem putMan_man : (putMan m f fresh s).1.man m = reservedMan m f s := (man_congr (putMan_mans m f fresh s) m).trans (setMan_man m _ s)

theorem putMan_man_ne {k : Nat} (h : k ≠ m) : (putMan m f fresh s).1.man k = s.man k := (man_congr (putMan_mans m f fresh s) k).trans (setMan_man_ne h _ s)

theorem putMan_d8 : (putMan m f fresh s).1.d8 = s.d8 := by
  cases fresh <;> exact manSums_d8 _

/-- The account of energy of a manifest that opens starts at 0 (12 R360). -/
theorem putMan_acct : tblGet (fun _ => 0) (putMan m f true s).1.led.acct m = 0 :=
  (congrArg (fun l : LedState => tblGet (fun _ => 0) l.acct m) (manSums_led _)).trans (tblGet_tblSet _ _ _ _)

theorem fget_putMan {b : Nat} {g : Fld} (h : MAN + 0x1000 ≤ b + g.off) : fget (putMan m f fresh s).1 b g = fget s b g :=
  congrArg g.get (by cases fresh <;> exact rg_manSums h _)

end

/-! ### The layout -/

theorem cycBegin_regs (s : State) : (cycBegin s).regs = s.regs := by
  unfold cycBegin
  split
  · rfl
  · exact (onlyIf_inv (·.regs) _ _ _ (cycStart_regs 3)).trans <| (onlyIf_inv (·.regs) _ _ _ (cycStart_regs 1)).trans (onlyIf_inv (·.regs) _ _ _ (cycStart_regs 0))

theorem rg_queStat {a : Nat} (h : a < QUE) (s : State) : rg (queStat s) a = rg s a := by
  have other : ∀ i, a ≠ QUE + i := fun i => by omega
  exact (rg_fset_ne _ _ _ _ (other _)).trans <| (rg_fset_ne _ _ _ _ (other _)).trans (rg_fset_ne _ _ _ _ (other _))

theorem layoutCommit_committed {s : State} (h : fbit s WAY WAY_STATUS_COMMITTED = true) : layoutCommit s = s := if_pos h

theorem layoutCommit_mans (s : State) : (layoutCommit s).mans = s.mans := layoutCommit_keeps (keptStore_closed s .mans) s rfl

/-- A commit sets COMMITTED and the frames of the tier carve-out (07 R197). -/
theorem layoutCommit_fields {s : State} (h : fbit s WAY WAY_STATUS_COMMITTED = false) :
    fbit (layoutCommit s) WAY WAY_STATUS_COMMITTED = true ∧ fget (layoutCommit s) WAY WAY_TIER_FRAMES = tierFrames s % 2 ^ 17 := by
  unfold layoutCommit
  rw [if_neg (ne_true_of_eq_false h)]
  extract_lets n w x y z v
  have outer : ∀ f : Fld, WAY + f.off < QUE → fget (cycBegin (queStat (fset QUE QUE_FRM_FRAMES (qFrameTotal v) v))) WAY f = fget v WAY f := fun f low =>
    (fget_congr (cycBegin_regs _) _ _).trans <| congrArg f.get <| (rg_queStat low _).trans (rg_fset_ne _ _ _ _ (by omega))
  have tiers : ∀ f : Fld, f.off ≠ WAY_WALKSEG_TOTAL.off → WAY + f.off ≠ MAN + MAN_WAYMAX_SEG.off → fget v WAY f = fget y WAY f := fun f other apart =>
    (fget_fset_ne _ _ _ _ _ _ apart).trans <| (fget_fset_ne _ _ _ _ _ _ (off_ne _ other)).trans (fget_fset_ne _ _ _ _ _ _ (off_ne _ other))
  constructor
  · rw [fbit, outer _ (by decide), tiers _ (by decide) (by decide), fget_fset_ne _ _ _ _ _ _ (by decide), fget_fset_ne _ _ _ _ _ _ (by decide),
      fget_fset_ne _ _ _ _ _ _ (by decide)]
    exact fbit_fset_one _ _ _ (by decide) (by decide)
  · rw [outer _ (by decide), tiers _ (by decide) (by decide)]
    exact fget_fset _ _ _ _ (by decide)

/-! ### The verb's branches -/

section
variable {m : Nat} {s : State} (range : m < 256)
include range

theorem manOpen_noMap (commit : State → State) (f : MFields) (noMap : mapLoaded s = false) :
    manOpen commit m f s = (s, erLn 411 "manifest state" [("id", .n m), ("state", .s "nomap")]) :=
  (if_neg (by omega)).trans (if_pos (by simp [noMap]))

section
variable {commit : State → State} {f : MFields} (map : mapLoaded s = true) (closed : (s.man m).st = .closed)
include map closed

/-- A closed manifest's open commits the layout before the checks (05 R146, 07 R197). -/
theorem manOpen_refused {why : List (String × FVal)} (refused : manCheck (commit s) m f none = some why) :
    manOpen commit m f s = (commit s, erLn 410 "refused" why) := by
  unfold manOpen
  rw [if_neg (by omega), if_neg (by simp [map]), if_neg (by simp [closed])]
  extract_lets x
  rw [refused]

theorem manOpen_admitted (admitted : manCheck (commit s) m f none = none) : manOpen commit m f s = putMan m f true (commit s) := by
  unfold manOpen
  rw [if_neg (by omega), if_neg (by simp [map]), if_neg (by simp [closed])]
  extract_lets x
  rw [admitted]

end

theorem manModify_state (x : MMod) (state : (s.man m).st ≠ .opened) :
    manModify m x s = (s, erLn 411 "manifest state" [("id", .n m), ("state", .s (stateWord (s.man m).st))]) :=
  (if_neg (by omega)).trans (if_pos state)

section
variable {x : MMod} (opened : (s.man m).st = .opened) (twin : x.twin.getD (s.man m).f.twin = (s.man m).f.twin)
include opened twin

theorem manModify_refused {why : List (String × FVal)} (refused : manCheck s m (applyMod (s.man m).f x) (some (s.man m).f) = some why) :
    manModify m x s = (s, erLn 410 "refused" why) := by
  unfold manModify
  extract_lets cur f
  rw [if_neg (by omega), if_neg (by simp [cur, opened]), if_neg (by simp [cur, twin]), refused]

theorem manModify_admitted (admitted : manCheck s m (applyMod (s.man m).f x) (some (s.man m).f) = none) :
    manModify m x s = putMan m (applyMod (s.man m).f x) false s := by
  unfold manModify
  extract_lets cur f
  rw [if_neg (by omega), if_neg (by simp [cur, opened]), if_neg (by simp [cur, twin]), admitted]

end

theorem manClose_state (force : Bool) (state : (s.man m).st ≠ .opened) :
    manClose m force s = (s, erLn 411 "manifest state" [("id", .n m), ("state", .s (stateWord (s.man m).st))]) :=
  (if_neg (by omega)).trans (if_pos state)

theorem manClose_blocked (opened : (s.man m).st = .opened) (full : fullQueues s m ≠ []) :
    manClose m false s = (s, erLn 412 "close blocked" [("nonempty", .n (fullQueues s m).length)]) :=
  (if_neg (by omega)).trans ((if_neg (by simp [opened])).trans (if_pos (by simp [full])))

/-- A manifest without cells enters CLOSING: its frames lose their owner, and its descriptors begin to unload (05 R151, 07 R215). -/
theorem manClose_empty (force : Bool) (opened : (s.man m).st = .opened) (empty : fullQueues s m = []) :
    manClose m force s = (unloadMan m (releaseFrames (BitVec.ofNat 8 m) (setMan m { s.man m with st := .closing, forced := force } s)),
      okLn [("id", .n m), ("state", .s "closing")]) := by
  refine (if_neg (by omega)).trans ((if_neg (by simp [opened])).trans ((if_neg (by simp [empty])).trans ?_))
  rw [empty]
  cases force <;> rfl

end

/-- A modify that answers `er` moves no frame. -/
theorem manModifyAll_error {m : Nat} {x : MMod} {s t : State} {code : Nat} {text : String} {why : List (String × FVal)} (e : manModify m x s = (t, erLn code text why)) :
    manModifyAll m x s = (t, erLn code text why) := by
  unfold manModifyAll
  rw [e]
  rfl

/-- The frames that an admitted modify moves: those above the new WAY_SEG, and the dirty lines above the new DIRTY (05 R150). -/
theorem manModifyAll_admitted {m : Nat} {x : MMod} {s : State} {f : MFields} (e : manModify m x s = putMan m f false s) :
    (manModifyAll m x s).1 = wbHigh (BitVec.ofNat 8 m) (trimFrames true (BitVec.ofNat 8 m) (putMan m f false s).1) := by
  unfold manModifyAll
  rw [e]
  rfl

/-- The last step of a close that discards no cells and waits for no descriptor frees the reservations (05 R151, 12 R363). -/
theorem manClosed_done {m : Nat} {s : State} (closing : (s.man m).st = .closing) (journal : entriesOf s (BitVec.ofNat 8 m) = 0) (clean : dirtyOf s (BitVec.ofNat 8 m) = 0)
    (whole : (s.man m).forced = false) (unloaded : ∀ w ∈ s.walks, wdMan s w.1 = m → wdValid s w.1 = false) :
    manClosed m s = emit "manifest_closed" [("id", .n m)] (manSums (setMan m { gen := (s.man m).gen } s)) := by
  have noneLoaded : (s.walks.filter fun w => wdValid s w.1 && wdMan s w.1 = m) = [] :=
    List.filter_eq_nil_iff.mpr fun w mem valid => by
      obtain ⟨valid, own⟩ := Bool.and_eq_true_iff.mp valid
      rw [unloaded w mem (of_decide_eq_true own)] at valid
      cases valid
  unfold manClosed
  extract_lets cur b x y
  have kept : x = s := congrArg (fun l => forAll l forceDrop s) (if_neg (ne_true_of_eq_false whole))
  have loaded : y = s := by
    unfold y
    rw [kept, noneLoaded]
    rfl
  rw [if_neg (by simp [cur, b, closing, journal, clean]), loaded]

theorem manClosed_waits {m : Nat} {s : State} (h : (s.man m).st ≠ .closing ∨ entriesOf s (BitVec.ofNat 8 m) ≠ 0 ∨ dirtyOf s (BitVec.ofNat 8 m) ≠ 0) : manClosed m s = s := if_pos h

/-! ### Frames that move -/

/-- What the moves of frames leave as it was: DTIME and the manifests. -/
def besideFrames (s : State) : Nat × List (Nat × Manifest) := (s.d8, s.mans)

theorem besideFrames_eq {s t : State} (h : besideFrames s = besideFrames t) : s.d8 = t.d8 ∧ s.mans = t.mans := Prod.mk.inj h

theorem besideFrames_emit (h : String) (x : List (String × FVal)) (s : State) : besideFrames (emit h x s) = besideFrames s := by
  simp [besideFrames]

theorem besideFrames_setFrame (pin : Bool) (f : Nat) (x : Frame) (s : State) : besideFrames (setFrame pin f x s) = besideFrames s := by
  cases pin <;> rfl

theorem besideFrames_pushBg (c : Fin 16) (k : BgCls) (x : Cmd) (s : State) : besideFrames (pushBg c k x s) = besideFrames s := rfl

theorem besideFrames_updArb (a : Fin 17) (f : ArbState → ArbState) (s : State) : besideFrames (updArb a f s) = besideFrames s := rfl

theorem besideFrames_pushWb (pin : Bool) (f i : Nat) (s : State) : besideFrames (pushWb pin f i s) = besideFrames s := by
  unfold pushWb
  extract_lets x
  split
  · rfl
  · split
    · rfl
    · extract_lets
      exact (onlyIf_inv besideFrames _ _ _ (besideFrames_pushBg _ _ _)).trans <| (onlyIf_inv besideFrames _ _ _ (besideFrames_pushBg _ _ _)).trans (besideFrames_setFrame _ _ _ s)

theorem besideFrames_startDemote (pin : Bool) (f : Nat) (forced : Bool) (s : State) : besideFrames (startDemote pin f forced s) = besideFrames s := by
  unfold startDemote
  extract_lets x
  split
  · exact (forAll_inv besideFrames _ _ _ fun i => besideFrames_pushWb pin f i).trans (besideFrames_setFrame _ _ _ s)
  · split
    · exact besideFrames_setFrame _ _ _ s
    · rfl

theorem besideFrames_fillLine (pin : Bool) (f i : Nat) (l : Line) (psn : Bool) (s : State) : besideFrames (fillLine pin f i l psn s) = besideFrames s := by
  have line : ∀ w y, besideFrames (setWayLine w l y) = besideFrames y := by simp [besideFrames]
  exact (line _ _).trans (besideFrames_setFrame _ _ _ _)

theorem besideFrames_pushFill (pin : Bool) (f i : Nat) (s : State) : besideFrames (pushFill pin f i s) = besideFrames s := by
  unfold pushFill
  split
  · rfl
  · split
    · rfl
    · exact besideFrames_fillLine pin f i _ _ s

theorem besideFrames_startFill (pin : Bool) (f seg : Nat) (owner : Option (BitVec 8)) (k : Option (Fin 16)) (s : State) :
    besideFrames (startFill pin f seg owner k s) = besideFrames s :=
  (forAll_inv besideFrames _ _ _ fun i => besideFrames_pushFill pin f i).trans (besideFrames_setFrame _ _ _ s)

theorem besideFrames_retireTier (f : Nat) (s : State) : besideFrames (retireTier f s) = besideFrames s := besideFrames_emit _ _ _

theorem besideFrames_retirePin (f : Nat) (s : State) : besideFrames (retirePin f s) = besideFrames s := besideFrames_emit _ _ _

theorem besideFrames_pinStat (k : Fin 16) (s : State) : besideFrames (pinStat k s) = besideFrames s := rfl

theorem besideFrames_pinNext (seg : Nat) (s : State) : besideFrames (pinNext seg s) = besideFrames s := by
  unfold pinNext
  split
  · rfl
  · extract_lets w x
    split
    · exact besideFrames_startFill _ _ _ _ _ x
    · rfl

theorem besideFrames_moveHeld (seg : Nat) (s : State) : besideFrames (moveHeld seg s) = besideFrames s := by
  unfold moveHeld
  extract_lets mine a x dest
  exact (forAll_inv besideFrames _ _ _ fun _ => besideFrames_updArb _ _).trans <| (forAll_inv besideFrames _ _ _ fun _ => besideFrames_updArb _ _).trans
    (besideFrames_updArb _ _ s)

theorem besideFrames_freeFrame (pin : Bool) (f : Nat) (s : State) : besideFrames (freeFrame pin f s) = besideFrames s := by
  unfold freeFrame
  extract_lets x y z w
  have emptied : besideFrames y = besideFrames s := by
    refine (besideFrames_setFrame _ _ _ _).trans ?_
    split <;> rfl
  have reused : besideFrames z = besideFrames y := by
    unfold z
    split
    · exact onlyIf_inv besideFrames _ _ _ (besideFrames_retirePin f)
    · split
      · exact besideFrames_retireTier f y
      · split
        · exact besideFrames_setFrame _ _ _ y
        · split
          · split
            · exact besideFrames_startFill _ _ _ _ _ y
            · rfl
          · rfl
  have moved : besideFrames w = besideFrames s := (besideFrames_moveHeld _ _).trans <| (besideFrames_pinNext _ z).trans (reused.trans emptied)
  split
  · exact (besideFrames_pinStat _ w).trans moved
  · exact moved

theorem besideFrames_trimFrames (forced : Bool) (m : BitVec 8) (s : State) : besideFrames (trimFrames forced m s) = besideFrames s := by
  unfold trimFrames
  extract_lets leaving going n again
  refine forAll_inv besideFrames _ _ _ fun f y => ?_
  split
  · exact (besideFrames_freeFrame _ _ _).trans (besideFrames_setFrame _ _ _ y)
  · exact besideFrames_startDemote _ _ _ y

theorem besideFrames_wbHigh (m : BitVec 8) (s : State) : besideFrames (wbHigh m s) = besideFrames s := by
  unfold wbHigh
  extract_lets lvl n pick all sorted
  exact forAll_inv besideFrames _ _ _ fun x => besideFrames_pushWb _ _ _

theorem besideFrames_releaseFrames (m : BitVec 8) (s : State) : besideFrames (releaseFrames m s) = besideFrames s := by
  unfold releaseFrames
  extract_lets go x
  have written : ∀ pin l y, besideFrames (go pin l y) = besideFrames y := fun pin l y =>
    forAll_inv besideFrames _ _ _ fun f z => forAll_inv besideFrames _ _ z fun i => besideFrames_pushWb pin f.1 i
  exact (written true _ _).trans (written false _ s)

/-- No tier frame is left to a manifest whose frames are released (05 R151). -/
theorem releaseFrames_owner (m : BitVec 8) (s : State) : ∀ x ∈ (releaseFrames m s).way.tier, x.2.owner ≠ some m := by
  unfold releaseFrames
  extract_lets go y
  intro x mem
  obtain ⟨z, -, rfl⟩ := List.mem_map.mp mem
  split
  · exact (Option.some_ne_none m).symm
  · assumption

/-- The unloading of descriptors begins in their own records alone. -/
theorem unloadMan_inv {β : Type} (g : State → β) (walks : ∀ x w, g { x with walks := w } = g x) (m : Nat) (s : State) : g (unloadMan m s) = g s :=
  forAll_inv g _ _ _ fun h x => by
    unfold unloadStart
    split
    · exact walks x _
    · rfl

/-! ### The commands -/

section
variable {m : Nat} {s : State} (ready : verbReady s = true)
include ready

theorem exec_manifestOpen (f : MFields) :
    exec (.manifestOpen m f) s = .next (answer [(manOpen layoutCommit m f (afterClear s)).2] (manOpen layoutCommit m f (afterClear s)).1) :=
  congrArg Host.Outcome.next (runVerb1_ready ready _)

theorem exec_manifestModify (x : MMod) : exec (.manifestModify m x) s = .next (answer [(manModifyAll m x s).2] (manModifyAll m x s).1) :=
  congrArg Host.Outcome.next (runVerb1_ready ready _)

theorem exec_manifestClose (force : Bool) : exec (.manifestClose m force) s = .next (answer [(manClose m force s).2] (manClose m force s).1) :=
  congrArg Host.Outcome.next (runVerb1_ready ready _)

end

theorem exec_accts {c : Instr} {s t : State} (e : exec c s = .next t) (h : Store.accts ∉ stores c) : t.accts = s.accts := exec_keptStore e h

/-! ### The statement -/

/-- Settles O45: each clause is the branch of its verb, with what the frames that it moves leave of the state. -/
theorem manifestLifeCycle : Obligations.ManifestLifeCycle := by
  unfold Obligations.ManifestLifeCycle
  refine ⟨?openAdmitted, ?openRefused, ?openNoMap, ?openCommits, ?modifyAdmitted, ?modifyRefused, ?modifyState, ?closeBegins, ?closeBlocked, ?closeState, ?closed, ?waits⟩
  case openAdmitted =>
    intro m f s ready range map closed committed admitted
    have e := exec_manifestOpen (m := m) ready f
    have same : layoutCommit (afterClear s) = afterClear s := layoutCommit_committed committed
    have check : manCheck (layoutCommit (afterClear s)) m f none = none := (congrArg (manCheck · m f none) same).trans admitted
    rw [manOpen_admitted range (s := afterClear s) map closed check, same] at e
    have put : (answer [(putMan m f true (afterClear s)).2] (putMan m f true (afterClear s)).1).man m
        = reservedMan m f s := (man_congr (answer_mans _ _) m).trans (putMan_man m f true (afterClear s))
    refine ⟨_, e, ?_⟩
    rw [put, answer_led]
    exact ⟨rfl, rfl, rfl, rfl, rfl, rfl, fun k other => (man_congr (answer_mans _ _) k).trans (putMan_man_ne m f true _ other), putMan_acct m f _,
      (answer_d8 _ _).trans (putMan_d8 m f true _), exec_dram e (by simp [stores]), exec_wmem e (by simp [stores]), exec_streams e (by simp [stores]),
      exec_accts e (by simp [stores])⟩
  case openRefused =>
    intro m f why s ready range map closed committed refused
    have same : layoutCommit (afterClear s) = afterClear s := layoutCommit_committed committed
    have check : manCheck (layoutCommit (afterClear s)) m f none = some why := (congrArg (manCheck · m f none) same).trans refused
    rw [exec_manifestOpen ready, manOpen_refused range (s := afterClear s) map closed check, same]
    exact ⟨_, rfl, answered_answer _ rfl rfl rfl (sameStore_refl s)⟩
  case openNoMap =>
    intro m f s ready range noMap
    rw [exec_manifestOpen ready, manOpen_noMap range _ _ (s := afterClear s) noMap]
    exact ⟨_, rfl, answered_answer _ rfl rfl rfl (sameStore_refl s)⟩
  case openCommits =>
    intro m f s ready range map closed fresh
    obtain ⟨committed, frames⟩ := layoutCommit_fields (s := afterClear s) fresh
    have kept : ∀ k, (layoutCommit (afterClear s)).man k = s.man k := man_congr (layoutCommit_mans (afterClear s))
    rw [exec_manifestOpen ready]
    cases check : manCheck (layoutCommit (afterClear s)) m f none with
    | some why =>
      rw [manOpen_refused range (s := afterClear s) map closed check]
      refine ⟨_, rfl, ?_, ?_, fun k _ => (man_congr (answer_mans _ _) k).trans (kept k)⟩
      · exact (congrArg (· != 0) (fget_answer (by decide))).trans committed
      · exact (fget_answer (by decide)).trans frames
    | none =>
      rw [manOpen_admitted range (s := afterClear s) map closed check]
      refine ⟨_, rfl, ?_, ?_, fun k other => (man_congr (answer_mans _ _) k).trans ((putMan_man_ne m f true _ other).trans (kept k))⟩
      · exact (congrArg (· != 0) ((fget_answer (by decide)).trans (fget_putMan m f true _ (by decide)))).trans committed
      · exact (fget_answer (by decide)).trans ((fget_putMan m f true _ (by decide)).trans frames)
  case modifyAdmitted =>
    intro m x s ready range opened twin admitted
    have e := exec_manifestModify (m := m) ready x
    rw [manModifyAll_admitted (manModify_admitted range opened twin admitted)] at e
    obtain ⟨d8, mans⟩ := besideFrames_eq ((besideFrames_wbHigh (BitVec.ofNat 8 m) _).trans (besideFrames_trimFrames true (BitVec.ofNat 8 m) (putMan m (applyMod (s.man m).f x) false s).1))
    refine ⟨_, e, ?_⟩
    rw [man_congr ((answer_mans _ _).trans mans), putMan_man]
    exact ⟨rfl, rfl, rfl, fun k other => (man_congr ((answer_mans _ _).trans mans) k).trans (putMan_man_ne m _ false s other),
      (answer_d8 _ _).trans (d8.trans (putMan_d8 m _ false s)), exec_dram e (by simp [stores]), exec_streams e (by simp [stores]), exec_accts e (by simp [stores])⟩
  case modifyRefused =>
    intro m x why s ready range opened twin refused
    rw [exec_manifestModify ready, manModifyAll_error (manModify_refused range opened twin refused)]
    exact ⟨_, rfl, answered_answer_self _ s⟩
  case modifyState =>
    intro m x s ready range state
    rw [exec_manifestModify ready, manModifyAll_error (manModify_state range x state)]
    exact ⟨_, rfl, answered_answer_self _ s⟩
  case closeBegins =>
    intro m force s ready range opened empty
    have e := exec_manifestClose (m := m) ready force
    rw [manClose_empty range force opened empty] at e
    obtain ⟨d8, mans⟩ := besideFrames_eq ((unloadMan_inv besideFrames (fun _ _ => rfl) m _).trans
      (besideFrames_releaseFrames (BitVec.ofNat 8 m) (setMan m { s.man m with st := .closing, forced := force } s)))
    refine ⟨_, e, ?_⟩
    rw [man_congr ((answer_mans _ _).trans mans), setMan_man, answer_way, unloadMan_inv (·.way) (fun _ _ => rfl)]
    exact ⟨rfl, rfl, rfl, rfl, fun k other => (man_congr ((answer_mans _ _).trans mans) k).trans (setMan_man_ne other _ s), releaseFrames_owner _ _,
      (answer_d8 _ _).trans d8, exec_dram e (by simp [stores]), exec_wmem e (by simp [stores]), exec_streams e (by simp [stores])⟩
  case closeBlocked =>
    intro m s ready range opened full
    rw [exec_manifestClose ready, manClose_blocked range opened full]
    exact ⟨_, rfl, answered_answer_self _ s⟩
  case closeState =>
    intro m force s ready range state
    rw [exec_manifestClose ready, manClose_state range force state]
    exact ⟨_, rfl, answered_answer_self _ s⟩
  case closed =>
    intro m s run closing journal clean whole unloaded
    have e : exec (.manifestClosed m) s = .next (manClosed m s) := congrArg Host.Outcome.next (if_pos run)
    rw [manClosed_done closing journal clean whole unloaded] at e
    refine ⟨_, e, ?_, fun k other => ?_, (emit_d8 _ _ _).trans (manSums_d8 _), exec_dram e (by simp [stores]), exec_wmem e (by simp [stores]), (emit_ix _ _ _).trans (manSums_ix _), exec_streams e (by simp [stores]),
      (emit_accts _ _ _).trans (manSums_accts _)⟩
    · exact (man_congr ((emit_mans _ _ _).trans (manSums_mans _)) m).trans (setMan_man m _ s)
    · exact (man_congr ((emit_mans _ _ _).trans (manSums_mans _)) k).trans (setMan_man_ne other _ s)
  case waits =>
    rintro m s (stopped | waiting)
    · exact congrArg Host.Outcome.next (if_neg (ne_true_of_eq_false stopped))
    · refine congrArg Host.Outcome.next ?_
      rw [manClosed_waits waiting, ite_self]

end Sys2Proof.Proofs

/-! PROOF. An RFM also falls due by the ACT count of a bank, once it has reached CHn_RAA.IMT, and not by the row tracker alone (10 R318): it leaves at the entry boundary behind the head's column command, so DTIME passes the instant at which that command left. -/

namespace Sys2Proof.Proofs
open Sys2Proof Sys2Proof.Machine Sys2Proof.Laws

/-- An accepted WR of line 0, which stands in row 0 of bank 0 of channel 0. -/
def headEntry : JEntry := { st := .pend, opc := .wr, target := 0, staged := List.replicate 8 0 }

/-- The write of `headEntry`. -/
def headWrite : Cmd := { src := .req 0 0 .write, line := 0, wr := true }

/-- `headWrite` stands alone in the command line of channel 0 with its row open, and the ACTs of its bank have reached the reset value of IMT; the row tracker asks for no RFM. -/
def rfmReached : State :=
  updChan 0 (fun y => { y with line := [headWrite], rows := [(0, {})], raa := [(0, 32)] })
    (updRing 0 (fun r => { r with entries := [headEntry], copyB := [headEntry], used := 1 }) twoMembers)

theorem firstCycle8_colAt8_rfmReached : firstCycle8 rfmReached (colAt8 rfmReached 0 (bankOf rfmReached headWrite.line) true) = 0 := by decide +kernel

/-- The burst ends, the bank is precharged, and the RFM leaves. -/
theorem issue_rfmReached_d8 : (issue 0 0 rfmReached).d8 = 625 := by decide +kernel

/-- Refutes O31: the seventh clause has DTIME stand at the write's column command where the row tracker asks for no RFM, and one leaves then that is due by its bank's count of ACTs. -/
theorem not_channelCommandsMove : ¬ Obligations.ChannelCommandsMove := by
  unfold Obligations.ChannelCommandsMove
  rintro ⟨-, -, -, -, -, -, written, -⟩
  obtain ⟨t, f, ht, left, -, stands, -⟩ := written 0 headWrite [] {} 0 0 [] rfmReached rfmReached rfl rfl rfl (by decide +kernel) (by decide +kernel) (by decide +kernel)
    (by decide +kernel) (by decide +kernel) rfl rfl (by decide)
  have issued : issue 0 0 rfmReached = t := Host.Outcome.next.inj ht
  have passed : t.d8 = 625 := issued ▸ issue_rfmReached_d8
  have stood : t.d8 = 0 := (stands rfl).trans (left.trans firstCycle8_colAt8_rfmReached)
  omega

end Sys2Proof.Proofs

/-! PROOF. The state after a cold start (06 R182, 16 R476, 17 R494): its register file lists the words of PWR_DOMSTAT alone. -/

namespace Sys2Proof.Proofs
open Sys2Proof Sys2Proof.Machine Sys2Proof.Laws

/-- A key that a table does not list reads as unlisted. -/
theorem tblGet_unlisted {α : Type} (d : Nat → α) {l : List (Nat × α)} {k : Nat} (h : ∀ e ∈ l, k ≠ e.1) : tblGet d l k = d k := by
  induction l with
  | nil => rfl
  | cons a r ih =>
    obtain ⟨ne, rest⟩ := List.forall_mem_cons.mp h
    rw [tblGet, if_neg ne, ih rest, ite_self]

/-- Every register but those of PWR_DOMSTAT reads its cold-reset word. -/
theorem rg_reset {a : Nat} (h : ∀ d, d < 23 → a ≠ PWR + 0x40 + 4 * d) : rg State.reset a = regReset a := by
  refine tblGet_unlisted regReset fun e m => ?_
  obtain ⟨d, hd, rfl⟩ := List.mem_map.mp m
  exact h d (List.mem_range.mp hd)

theorem domState_reset : ∀ d, d < 23 → domState State.reset d = 2 := by decide +kernel

/-- The register file is the one table that is not empty, and no word of it is the cold-reset one. -/
theorem canon_reset : Canon State.reset := ⟨by decide +kernel, rfl, rfl, rfl, rfl, rfl, rfl⟩

theorem port_reset : ∀ p : Fin 4, portSt State.reset p = PORT_DOWN ∧ (State.reset.port p).intake = [] ∧ State.reset.toll[p] = 4096 := by decide +kernel

theorem chan_reset : ∀ c : Fin 16, chState State.reset c = 0 ∧ inMap State.reset c = false ∧ (State.reset.ring c).entries = [] := by decide +kernel

/-- Settles O52: the tables that are empty by the definition, and the register file by its one listed register. -/
theorem resetLeaves : Obligations.ResetLeaves := by
  unfold Obligations.ResetLeaves
  exact ⟨canon_reset, rfl, rfl, rfl, rfl, rfl, rfl, fun _ => rg_reset, domState_reset, port_reset, chan_reset, fun _ => rfl,
    by decide +kernel, rfl, rfl, by decide +kernel⟩

end Sys2Proof.Proofs

/-! PROOF. What the moves of the Waystation's frames leave as it was (07 R199 to R206). -/

namespace Sys2Proof.Proofs
open Sys2Proof Sys2Proof.Machine Sys2Proof.Laws

/-! ### One frame -/

@[simp] theorem setFrame_frame (pin : Bool) (f : Nat) (x : Frame) (s : State) : (setFrame pin f x s).frame pin f = x := by
  cases pin <;> exact tblGet_tblSet _ _ _ _

theorem setFrame_inv {β : Type} (g : State → β) (frames : ∀ s tier pinned, g { s with way := { s.way with tier := tier, pinned := pinned } } = g s)
    (pin : Bool) (f : Nat) (x : Frame) (s : State) : g (setFrame pin f x s) = g s := by
  cases pin <;> exact frames s _ _

theorem frame_congr {s t : State} (h : t.way = s.way) (pin : Bool) (f : Nat) : t.frame pin f = s.frame pin f := by
  unfold State.frame
  rw [h]

/-- What a frame is filled with, and for which pin entry. -/
def fillOf (x : Frame) : FrSt × Nat × Option (Fin 16) := (x.st, x.seg, x.pin)

/-- A line that fills a frame leaves what the frame is filled with. -/
theorem fillLine_fillOf (pin : Bool) (f i : Nat) (l : Line) (psn : Bool) (s : State) : fillOf ((fillLine pin f i l psn s).frame pin f) = fillOf (s.frame pin f) := by
  unfold fillLine
  extract_lets x
  rw [frame_congr (setWayLine_way _ _ _), setFrame_frame]
  rfl

/-- A fill read of a line is issued in the background, or gives the line at once. -/
theorem pushFill_inv {β : Type} (g : State → β) (pin : Bool) (f : Nat) (issued : ∀ c k x s, g (pushBg c k x s) = g s)
    (filled : ∀ i l psn s, g (fillLine pin f i l psn s) = g s) (i : Nat) (s : State) : g (pushFill pin f i s) = g s := by
  unfold pushFill
  split
  · rfl
  · split
    · exact issued _ _ _ s
    · exact filled i _ _ s

/-- A frame's fill begins with its record, and goes on line by line. -/
theorem startFill_inv {β : Type} (g : State → β) (pin : Bool) (f : Nat) (issued : ∀ c k x s, g (pushBg c k x s) = g s)
    (filled : ∀ i l psn s, g (fillLine pin f i l psn s) = g s) (seg : Nat) (owner : Option (BitVec 8)) (k : Option (Fin 16)) (s : State) :
    g (startFill pin f seg owner k s) = g (setFrame pin f { st := .filling, seg := seg, owner := owner, since := s.way.epoch, pin := k } s) :=
  forAll_inv g _ _ _ (pushFill_inv g pin f issued filled)

theorem startFill_frame (pin : Bool) (f seg : Nat) (owner : Option (BitVec 8)) (k : Option (Fin 16)) (s : State) :
    fillOf ((startFill pin f seg owner k s).frame pin f) = (.filling, seg, k) := by
  have begun := startFill_inv (fun t => fillOf (t.frame pin f)) pin f (fun _ _ _ _ => rfl)
    (fillLine_fillOf pin f) seg owner k s
  exact begun.trans (congrArg fillOf (setFrame_frame pin f _ s))

theorem startFill_pinned_tier (f seg : Nat) (owner : Option (BitVec 8)) (k : Option (Fin 16)) (s : State) : (startFill true f seg owner k s).way.tier = s.way.tier :=
  startFill_inv (·.way.tier) true f (fun _ _ _ _ => rfl) (fun _ _ _ _ => rfl) seg owner k s

/-! ### Views beside the frames -/

/-- A view of the state that no move of a frame changes: it shows neither frames nor pin entries, commands of channels, arbiters, energy or lines of the Waystation, and no register that an event or a withdrawn frame writes. -/
structure BesideMoves {β : Type} (g : State → β) : Prop where
  parts : ∀ (s : State) tier pinned pins pinQueue chans arbs led wmem,
    g { s with way := { s.way with tier := tier, pinned := pinned, pins := pins, pinQueue := pinQueue }, chans := chans, arbs := arbs, led := led, wmem := wmem } = g s
  event : ∀ h x s, g (emit h x s) = g s
  withdrawn : ∀ v s, g (fset WAY WAY_TIER_FRAMES v s) = g s
  counted : ∀ s, g (fbump WAY WAY_RETIRED_COUNT s) = g s

section
variable {β : Type} {g : State → β} (h : BesideMoves g)
include h

theorem setFrame_beside (pin : Bool) (f : Nat) (x : Frame) (s : State) : g (setFrame pin f x s) = g s :=
  setFrame_inv g (fun s tier pinned => h.parts s tier pinned s.way.pins s.way.pinQueue s.chans s.arbs s.led s.wmem) pin f x s

theorem pushBg_beside (c : Fin 16) (k : BgCls) (x : Cmd) (s : State) : g (pushBg c k x s) = g s :=
  h.parts s s.way.tier s.way.pinned s.way.pins s.way.pinQueue _ s.arbs s.led s.wmem

theorem updArb_beside (a : Fin 17) (f : ArbState → ArbState) (s : State) : g (updArb a f s) = g s :=
  h.parts s s.way.tier s.way.pinned s.way.pins s.way.pinQueue s.chans _ s.led s.wmem

theorem pinStat_beside (k : Fin 16) (s : State) : g (pinStat k s) = g s :=
  h.parts s s.way.tier s.way.pinned _ s.way.pinQueue s.chans s.arbs s.led s.wmem

theorem killFills_beside (pin : Bool) (f : Nat) (s : State) : g (killFills pin f s) = g s :=
  h.parts s s.way.tier s.way.pinned s.way.pins s.way.pinQueue _ s.arbs s.led s.wmem

theorem fillLine_beside (pin : Bool) (f i : Nat) (l : Line) (psn : Bool) (s : State) : g (fillLine pin f i l psn s) = g s :=
  (h.parts _ _ _ _ _ _ _ _ _).trans ((setFrame_beside h pin f _ _).trans (h.parts s s.way.tier s.way.pinned s.way.pins s.way.pinQueue s.chans s.arbs _ s.wmem))

theorem startFill_beside (pin : Bool) (f seg : Nat) (owner : Option (BitVec 8)) (k : Option (Fin 16)) (s : State) : g (startFill pin f seg owner k s) = g s :=
  (startFill_inv g pin f (pushBg_beside h) (fillLine_beside h pin f) seg owner k s).trans (setFrame_beside h pin f _ s)

theorem pushWb_beside (pin : Bool) (f i : Nat) (s : State) : g (pushWb pin f i s) = g s := by
  unfold pushWb
  extract_lets x
  split
  · rfl
  · split
    · rfl
    · extract_lets
      exact (onlyIf_inv g _ _ _ (pushBg_beside h _ _ _)).trans ((onlyIf_inv g _ _ _ (pushBg_beside h _ _ _)).trans (setFrame_beside h pin f _ s))

theorem startDemote_beside (pin : Bool) (f : Nat) (forced : Bool) (s : State) : g (startDemote pin f forced s) = g s := by
  unfold startDemote
  extract_lets x
  split
  · exact (forAll_inv g _ _ _ (pushWb_beside h pin f)).trans (setFrame_beside h pin f _ s)
  · split
    · exact setFrame_beside h pin f _ s
    · rfl

theorem pinNext_beside (seg : Nat) (s : State) : g (pinNext seg s) = g s := by
  unfold pinNext
  split
  · rfl
  · extract_lets w x
    have taken : g x = g s := h.parts s s.way.tier s.way.pinned s.way.pins _ s.chans s.arbs s.led s.wmem
    split
    · exact (startFill_beside h true _ seg none _ x).trans taken
    · exact taken

theorem retireTier_beside (f : Nat) (s : State) : g (retireTier f s) = g s :=
  (h.event _ _ _).trans ((h.counted _).trans ((h.withdrawn _ _).trans (setFrame_beside h false f _ s)))

theorem retirePin_beside (f : Nat) (s : State) : g (retirePin f s) = g s :=
  (h.event _ _ _).trans ((h.counted _).trans (setFrame_beside h true f _ s))

theorem moveHeld_beside (seg : Nat) (s : State) : g (moveHeld seg s) = g s := by
  unfold moveHeld
  extract_lets mine a x dest
  exact (forAll_inv g _ _ _ fun _ => updArb_beside h _ _).trans ((forAll_inv g _ _ _ fun _ => updArb_beside h _ _).trans (updArb_beside h _ _ s))

theorem freeFrame_beside (pin : Bool) (f : Nat) (s : State) : g (freeFrame pin f s) = g s := by
  unfold freeFrame
  extract_lets x y z w
  have emptied : g y = g s := by
    refine (setFrame_beside h pin f _ _).trans ?_
    split
    · exact killFills_beside h pin f s
    · rfl
  have reused : g z = g y := by
    unfold z
    split
    · exact onlyIf_inv g _ _ _ (retirePin_beside h f)
    · split
      · exact retireTier_beside h f y
      · split
        · exact setFrame_beside h false f _ y
        · split
          · split
            · exact startFill_beside h false f _ _ _ y
            · rfl
          · rfl
  have moved : g w = g s := (moveHeld_beside h _ _).trans ((pinNext_beside h _ z).trans (reused.trans emptied))
  split
  · exact (pinStat_beside h _ w).trans moved
  · exact moved

/-- Frames that fill are given up, and the others are emptied. -/
theorem trimFrames_beside (forced : Bool) (m : BitVec 8) (s : State) : g (trimFrames forced m s) = g s := by
  unfold trimFrames
  extract_lets leaving going n again
  refine forAll_inv g _ _ _ fun f y => ?_
  split
  · exact (freeFrame_beside h false f _).trans (setFrame_beside h false f _ y)
  · exact startDemote_beside h false f forced y

end

end Sys2Proof.Proofs

/-! PROOF. Frames of the Waystation come and go, the layout is committed, and the pin table is set (07 R196 to R206, 12 R361). -/

namespace Sys2Proof.Proofs
open Sys2Proof Sys2Proof.Machine Sys2Proof.Laws

/-- A command that writes no memory and no table leaves them all as they were. -/
theorem exec_sameStore {c : Instr} {s t : State} (e : exec c s = .next t) (h : stores c = []) : sameStore s t := by
  have kept : ∀ σ, keptStore s σ t := fun σ => exec_keptStore e (by simp [h])
  exact ⟨kept .dram, kept .wmem, kept .ix, kept .streams, kept .mans, kept .accts⟩

/-- An entry of a table that is not what an unlisted key reads as is listed. -/
theorem tblGet_mem {α : Type} (d : Nat → α) {l : List (Nat × α)} {k : Nat} (h : tblGet d l k ≠ d k) : ∃ e ∈ l, e.2 = tblGet d l k := by
  rcases tblGet_cases d l k with e | ⟨e, m, eq⟩
  · exact absurd e h
  · exact ⟨e, m, eq.symm⟩

/-! ### Promotion and demotion -/

/-- The pin entry of a frame, if it has one, follows its frames. -/
def entryStat (k : Option (Fin 16)) (s : State) : State :=
  match k with
  | some k => pinStat k s
  | none => s

theorem entryStat_pins (k : Option (Fin 16)) (s : State) : ∃ pins, entryStat k s = { s with way := { s.way with pins := pins } } := by
  cases k with
  | none => exact ⟨s.way.pins, rfl⟩
  | some k => exact ⟨_, rfl⟩

theorem moveHeld_arbs (seg : Nat) (s : State) : ∃ arbs, moveHeld seg s = { s with arbs := arbs } := by
  have rest : ({ moveHeld seg s with arbs := s.arbs } : State) = s := by
    have updated : ∀ a f (x : State), ({ updArb a f x with arbs := s.arbs } : State) = { x with arbs := s.arbs } := fun _ _ _ => rfl
    unfold moveHeld
    extract_lets mine a x dest
    exact (forAll_inv (fun x => ({ x with arbs := s.arbs } : State)) _ _ _ fun _ => updated _ _).trans <|
      (forAll_inv (fun x => ({ x with arbs := s.arbs } : State)) _ _ _ fun _ => updated _ _).trans (updated _ _ s)
  exact ⟨_, congrArg (fun x : State => { x with arbs := (moveHeld seg s).arbs }) rest⟩

section
variable {pin : Bool} {f : Nat} {s : State}

/-- A frame whose fill has ended, as it enters its service (07 R203). -/
def promotedFrame (pin : Bool) (x : Frame) : Frame := { x with st := if pin then .pinned else .resident, age := 3, reading := 0 }

theorem promotionComplete_waits (h : (s.frame pin f).st ≠ .filling ∨ (s.frame pin f).filled ≠ 0xFFFF ∨ (s.frame pin f).stale ≠ 0 ∨ segBusy s (s.frame pin f).seg false = true ∨
    (findSeg s FrSt.hits (s.frame pin f).seg).isSome = true) : promotionComplete pin f s = s := if_pos h

theorem promotionComplete_done (filling : (s.frame pin f).st = .filling) (filled : (s.frame pin f).filled = 0xFFFF) (fresh : (s.frame pin f).stale = 0)
    (quiet : segBusy s (s.frame pin f).seg false = false) (alone : findSeg s FrSt.hits (s.frame pin f).seg = none) :
    promotionComplete pin f s = entryStat (s.frame pin f).pin (fbump WAY WAY_PROMO_COUNT (setFrame pin f (promotedFrame pin (s.frame pin f)) s)) := by
  unfold promotionComplete
  extract_lets x y
  rw [if_neg (by simp [x, filling, filled, fresh, quiet, alone])]
  rfl

theorem demotionComplete_waits (h : (s.frame pin f).st ≠ .leaving ∨ (s.frame pin f).dirty ≠ 0 ∨ (s.frame pin f).charge ≠ [] ∨ segBusy s (s.frame pin f).seg true = true) :
    demotionComplete pin f s = s := if_pos (by simpa using h)

theorem pinNext_none {seg : Nat} (h : (s.way.pinQueue.find? fun x => x.2 = seg) = none) : pinNext seg s = s := by
  unfold pinNext
  rw [h]

/-- An emptied frame with no next use is FREE (07 R204 step 3). -/
theorem freeFrame_unused (emptied : (s.frame pin f).st ≠ .filling) (stays : (s.frame pin f).thenRetire = false) (kept : (s.frame pin f).thenTest = false)
    (unwanted : (s.frame pin f).thenFill = none) (unpinned : (s.way.pinQueue.find? fun x => x.2 = (s.frame pin f).seg) = none) :
    freeFrame pin f s = entryStat (s.frame pin f).pin (moveHeld (s.frame pin f).seg (setFrame pin f {} s)) := by
  have queue : (setFrame pin f {} s).way.pinQueue = s.way.pinQueue := setFrame_inv (·.way.pinQueue) (fun _ _ _ => rfl) pin f {} s
  have next : pinNext (s.frame pin f).seg (setFrame pin f {} s) = setFrame pin f {} s := pinNext_none (queue ▸ unpinned)
  unfold freeFrame
  extract_lets x y z w
  have y_eq : y = setFrame pin f {} s := congrArg (setFrame pin f {}) (if_neg emptied)
  have z_eq : z = y := by
    unfold z
    cases pin <;> simp [x, stays, kept, unwanted, onlyIf]
  have w_eq : w = moveHeld x.seg (setFrame pin f {} s) := by
    unfold w
    rw [z_eq, y_eq, next]
  rw [w_eq]
  rfl

theorem demotionComplete_done (leaving : (s.frame pin f).st = .leaving) (clean : (s.frame pin f).dirty = 0) (free : (s.frame pin f).charge = [])
    (quiet : segBusy s (s.frame pin f).seg true = false) (stays : (s.frame pin f).thenRetire = false) (kept : (s.frame pin f).thenTest = false)
    (unwanted : (s.frame pin f).thenFill = none) (unpinned : (s.way.pinQueue.find? fun x => x.2 = (s.frame pin f).seg) = none) :
    demotionComplete pin f s = entryStat (s.frame pin f).pin (moveHeld (s.frame pin f).seg (setFrame pin f {} (fbump WAY WAY_DEMOTE_COUNT s))) := by
  have freed := freeFrame_unused (s := fbump WAY WAY_DEMOTE_COUNT s) (pin := pin) (f := f) (by rw [frame_congr (fbump_way _ _ _), leaving]; decide)
    stays kept unwanted unpinned
  unfold demotionComplete
  extract_lets x y
  rw [if_neg (by simp [x, leaving, clean, free, quiet])]
  have y_eq : y = _ := freed
  split
  · rw [y_eq, show x.thenRetire = false from stays, Bool.and_false]
    rfl
  · exact y_eq

end

/-! ### The end of an epoch -/

/-- What the end of an epoch sets: the count of epochs, the end of the next one, the heat of segments, and DTIME. -/
def epochView (s : State) : Nat × Nat × List (Nat × Nat) × Nat := (s.way.epoch, s.way.epochEnd, s.way.hot, s.d8)

theorem epochView_besideMoves : BesideMoves epochView where
  parts _ _ _ _ _ _ _ _ _ := rfl
  event h x s := by simp [epochView]
  withdrawn _ _ := rfl
  counted _ := rfl

/-- Frames that have filled for 16 epochs are given up, and demotions that were abandoned begin again (07 R203, R204). -/
theorem migrationEpoch_view {s : State} (run : dtimeRuns s = true) :
    epochView (migrationEpoch s) =
      (s.way.epoch + 1, s.way.epochEnd + epochNs s, (s.way.hot.map fun x => (x.1, x.2 / 2)).filter (fun x => x.2 ≠ 0), firstCycle8 s (8 * s.way.epochEnd)) := by
  have demoted : ∀ pin (l : List (Nat × Frame)) y, epochView (forAll l (fun f s => startDemote pin f.1 false s) y) = epochView y := fun pin l y =>
    forAll_inv epochView _ _ _ fun f => startDemote_beside epochView_besideMoves pin f.1 false
  have freed : ∀ (l : List (Nat × Frame)) y, epochView (forAll l (fun f s => freeFrame false f.1 (updFrame false f.1 (fun x => { x with thenFill := none }) s)) y) = epochView y :=
    fun l y => forAll_inv epochView _ _ _ fun f z => (freeFrame_beside epochView_besideMoves false f.1 _).trans (setFrame_beside epochView_besideMoves false f.1 _ z)
  have span : epochNs (advanceToNs s.way.epochEnd s) = epochNs s := congrArg (fun us => max 1 us * 1000) (fget_advanceTo8 _ s _ _)
  unfold migrationEpoch
  rw [if_neg (by simp [run])]
  extract_lets x way y old z again
  refine (demoted _ _ _).trans ((demoted _ _ _).trans ((freed _ y).trans ?_))
  unfold y
  rw [span, Nat.mul_comm 8]
  rfl

/-! ### The layout -/

theorem fget_breakPair (s : State) {b : Nat} {f : Fld} (h : GLB + 0x1000 ≤ b + f.off) : fget (breakPair s) b f = fget s b f :=
  congrArg f.get (breakPair_rg s (by simp only [GLB_STATUS_GUARD_FAIL, GLB] at *; omega) (by simp only [GLB_IRQ_STAT_GUARD, GLB] at *; omega))

theorem breakPair_none {s : State} (h : s.guard = none) : breakPair s = s := by
  unfold breakPair
  rw [h]

theorem cycBegin_inv {β : Type} (g : State → β) (bist : ∀ s b, g { s with bist := b } = g s) (s : State) : g (cycBegin s) = g s := by
  have started : ∀ t x, g (cycStart t x) = g x := fun t x => by
    unfold cycStart
    split
    · rfl
    · exact bist x _
  unfold cycBegin
  split
  · rfl
  · exact (onlyIf_inv g _ _ _ (started 3)).trans ((onlyIf_inv g _ _ _ (started 1)).trans (onlyIf_inv g _ _ _ (started 0)))

/-- A commit writes registers, and the self-test's and the queue engine's own records (07 R197). -/
theorem layoutCommit_inv {β : Type} (g : State → β) (regs : ∀ b f v s, g (fset b f v s) = g s) (bist : ∀ s b, g { s with bist := b } = g s)
    (que : ∀ s q, g { s with que := q } = g s) (s : State) : g (layoutCommit s) = g s := by
  unfold layoutCommit
  split
  · rfl
  · exact (cycBegin_inv g bist _).trans <| (regs _ _ _ _).trans <| (que _ _).trans <| (regs _ _ _ _).trans <| (regs _ _ _ _).trans <| (regs _ _ _ _).trans <|
      (regs _ _ _ _).trans <| (regs _ _ _ _).trans <| (regs _ _ _ _).trans <| (regs _ _ _ _).trans <| (regs _ _ _ _).trans <| (regs _ _ _ _).trans (regs _ _ _ _)

/-- A commit sets the tier reserve and the segments of walk windows (07 R197, R200). -/
theorem layoutCommit_reserves {s : State} (h : fbit s WAY WAY_STATUS_COMMITTED = false) :
    fget (layoutCommit s) WAY WAY_TIERRSV_RSV = tierFrames s / 32 % 2 ^ 17 ∧ fget (layoutCommit s) WAY WAY_WALKSEG_TOTAL = carveW s * 1024 % 2 ^ 16 ∧
      fget (layoutCommit s) WAY WAY_WALKSEG_FREE = (carveW s * 1024 - 320) % 2 ^ 16 := by
  unfold layoutCommit
  rw [if_neg (ne_true_of_eq_false h)]
  extract_lets n w x y z v
  have outer : ∀ f : Fld, WAY + f.off < QUE → WAY + f.off ≠ MAN + MAN_WAYMAX_SEG.off → fget (cycBegin (queStat (fset QUE QUE_FRM_FRAMES (qFrameTotal v) v))) WAY f = fget z WAY f :=
    fun f low apart => (fget_congr (cycBegin_regs _) _ _).trans <| (congrArg f.get <| (rg_queStat low _).trans (rg_fset_ne _ _ _ _ (by omega))).trans
      (fget_fset_ne _ _ _ _ _ _ apart)
  refine ⟨?_, ?_, ?_⟩
  · rw [outer _ (by decide) (by decide), fget_fset_ne _ _ _ _ _ _ (by decide), fget_fset_ne _ _ _ _ _ _ (by decide), fget_fset_ne _ _ _ _ _ _ (by decide)]
    exact fget_fset _ _ _ _ (by decide)
  · rw [outer _ (by decide) (by decide)]
    exact fget_fset _ _ _ _ (by decide)
  · rw [outer _ (by decide) (by decide), fget_fset_apart _ (by decide)]
    exact fget_fset _ _ _ _ (by decide)

/-- A legal WAY_CARVE before the commit is taken field by field (07 R197). -/
theorem carveWrite_taken {v : Word} {s : State} (uncommitted : fbit s WAY WAY_STATUS_COMMITTED = false) (legal : carveOk v = true) :
    carveQ (carveWrite v s) = WAY_CARVE_QCACHE.get v ∧ carveW (carveWrite v s) = WAY_CARVE_WALK.get v ∧ carveP (carveWrite v s) = WAY_CARVE_PIN.get v ∧
      (∀ a, a ≠ WAY + WAY_CARVE_QCACHE.off → rg (carveWrite v s) a = rg s a) ∧ (carveWrite v s).way = s.way ∧ (carveWrite v s).d8 = s.d8 := by
  have fits : ∀ f : Fld, f.get v % 2 ^ f.width = f.get v := fun f => Nat.mod_mod _ _
  unfold carveWrite
  rw [if_neg (by simp [uncommitted, legal])]
  refine ⟨?_, ?_, ?_, fun a other => ?_, rfl, rfl⟩
  · rw [carveQ, fget_fset _ _ _ _ (by decide), fits]
  · rw [carveW, fget_fset_apart _ (by decide), fget_fset _ _ _ _ (by decide), fits]
  · rw [carveP, fget_fset_apart _ (by decide), fget_fset_apart _ (by decide), fget_fset _ _ _ _ (by decide), fits]
  · exact (rg_fset_ne WAY WAY_CARVE_QCACHE _ _ other).trans ((rg_fset_ne WAY WAY_CARVE_WALK _ _ other).trans (rg_fset_ne WAY WAY_CARVE_PIN _ _ other))

theorem carveWrite_refused {v : Word} {s : State} (h : fbit s WAY WAY_STATUS_COMMITTED = true ∨ carveOk v = false) :
    carveWrite v s = fset WAY WAY_STATUS_CARVE_REJ 1 s := if_pos (by simpa using h)

/-! ### The pin table -/

/-- The pin table with one of its entries changed. -/
def setPin (k : Fin 16) (p : PinEntry) (s : State) : State := { s with way := { s.way with pins := s.way.pins.set k p } }

theorem setPin_entry (k : Fin 16) (p : PinEntry) (s : State) : (setPin k p s).way.pins[k] = p := Vector.getElem_set_self _

section
variable {k : Fin 16} {s : State}

theorem pinEnable_on (on : s.way.pins[k].en = true) : pinEnable k s = s := if_pos on

theorem pinEnable_refused (off : s.way.pins[k].en = false) (h : s.led.hold = none ∨ (pinBad s k).isSome = true) :
    pinEnable k s = fset WAY WAY_STATUS_PIN_REJ 1 s :=
  (if_neg (ne_true_of_eq_false off)).trans (if_pos (h.imp_left fun none => by rw [none]; rfl))

/-- A segment that no frame fills or holds goes into the lowest free pinned frame (07 R206). -/
theorem pinSeg_free {seg f : Nat} (apart : findSeg s (fun t => t == .filling || t.hits) seg = none) (free : lowestFree (pinFrames s) s.way.pinned = some f) :
    pinSeg k seg s = startFill true f seg none (some k) s := by
  have narrower : ∀ p : FrSt → Bool, (∀ t, p t = true → (t == .filling || t.hits) = true) → findSeg s p seg = none := by
    intro p stronger
    have inList : ∀ l : List (Nat × Frame), (l.find? fun f => (f.2.st == .filling || f.2.st.hits) && f.2.seg = seg) = none → (l.find? fun f => p f.2.st && f.2.seg = seg) = none := by
      intro l none
      refine List.find?_eq_none.mpr fun x m h => List.find?_eq_none.mp none x m ?_
      obtain ⟨st, eq⟩ := Bool.and_eq_true_iff.mp h
      exact Bool.and_eq_true_iff.mpr ⟨stronger _ st, eq⟩
    unfold findSeg at apart ⊢
    split at apart
    · cases apart
    · next pinned =>
      rw [inList _ pinned, inList _ (Option.map_eq_none_iff.mp apart)]
      rfl
  have unfilled : findSeg s (fun t => t == .filling) seg = none := narrower _ fun t h => by rw [h]; rfl
  have unheld : findSeg s FrSt.hits seg = none := narrower _ fun t h => by rw [h, Bool.or_true]
  simp only [pinSeg, unfilled, unheld, free]

/-- An entry of one segment takes a frame, which fills. -/
theorem pinEnable_one {f : Nat} (off : s.way.pins[k].en = false) (held : s.led.hold.isSome = true) (legal : pinBad s k = none) (one : s.way.pins[k].segs = 1)
    (apart : findSeg s (fun t => t == .filling || t.hits) (pinSeg0 s.way.pins[k]) = none) (free : lowestFree (pinFrames s) s.way.pinned = some f) :
    pinEnable k s = pinStat k (startFill true f (pinSeg0 s.way.pins[k]) none (some k) (setPin k { s.way.pins[k] with en := true, pstate := 1 } s)) := by
  have taken : pinSeg k (pinSeg0 s.way.pins[k]) (setPin k { s.way.pins[k] with en := true, pstate := 1 } s) = _ := pinSeg_free apart free
  have first : pinEnable k s = pinStat k (forAll (List.range s.way.pins[k].segs.toNat) (fun j s' => pinSeg k (pinSeg0 s.way.pins[k] + j) s')
      (setPin k { s.way.pins[k] with en := true, pstate := 1 } s)) :=
    (if_neg (ne_true_of_eq_false off)).trans (if_neg (by rw [legal]; simp [Option.isSome_iff_ne_none.mp held]))
  have count : s.way.pins[k].segs.toNat = 1 := congrArg BitVec.toNat one
  rw [first, count, List.range_one, forAll, List.foldl_cons, List.foldl_nil, Nat.add_zero, taken]

theorem pinDisable_off (off : s.way.pins[k].en = false) : pinDisable k s = s := if_pos (congrArg not off)

/-- The segments of an entry that wait for a frame wait no more. -/
def unqueued (k : Fin 16) (s : State) : State := { s with way := { s.way with pinQueue := s.way.pinQueue.filter fun x => x.1 ≠ k } }

/-- An entry without frames is disabled at once (07 R206). -/
theorem pinDisable_empty (on : s.way.pins[k].en = true) (empty : ∀ x ∈ s.way.pinned, x.2.pin ≠ some k) :
    pinDisable k s = pinStat k (unqueued k (setPin k { s.way.pins[k] with en := false } s)) := by
  have none : (s.way.pinned.filter fun f => f.2.pin = some k) = [] := List.filter_eq_nil_iff.mpr fun x m h => empty x m (of_decide_eq_true h)
  have shape : pinDisable k s = pinStat k (forAll (s.way.pinned.filter fun f => f.2.pin = some k)
      (fun f s => if f.2.st = .filling then freeFrame true f.1 s else startDemote true f.1 false s) (unqueued k (setPin k { s.way.pins[k] with en := false } s))) :=
    if_neg (by rw [on]; decide)
  rw [shape, none]
  rfl

/-- PSTATE of an enabled entry is 1 while one of its frames fills (07 R231). -/
theorem pinStat_filling {f seg : Nat} (on : s.way.pins[k].en = true) (fills : fillOf (s.frame true f) = (.filling, seg, some k)) :
    (pinStat k s).way.pins[k] = { s.way.pins[k] with pstate := 1 } := by
  have st : (s.frame true f).st = .filling := congrArg (·.1) fills
  have owner : (s.frame true f).pin = some k := congrArg (·.2.2) fills
  obtain ⟨x, listed, eq⟩ : ∃ x ∈ s.way.pinned, x.2 = s.frame true f :=
    tblGet_mem (fun _ => ({} : Frame)) fun h => FrSt.noConfusion (st.symm.trans (congrArg Frame.st h))
  have unready : ((s.way.pinned.filter fun f => f.2.pin = some k && f.2.st != .free).map (·.2)).all (fun f => f.st == .pinned) = false :=
    List.all_eq_false.mpr ⟨x.2, List.mem_map_of_mem (List.mem_filter.mpr ⟨listed, by simp [eq, st, owner]⟩), by rw [eq, st]; decide⟩
  refine (setPin_entry k _ s).trans ?_
  rw [if_pos on, unready, Bool.and_false]
  rfl

/-- PSTATE of a disabled entry without frames is 0. -/
theorem pinStat_empty (off : s.way.pins[k].en = false) (empty : ∀ x ∈ s.way.pinned, x.2.pin ≠ some k) :
    (pinStat k s).way.pins[k] = { s.way.pins[k] with pstate := 0 } := by
  have none : (s.way.pinned.filter fun f => f.2.pin = some k && f.2.st != .free) = [] :=
    List.filter_eq_nil_iff.mpr fun x m h => empty x m (of_decide_eq_true (Bool.and_eq_true_iff.mp h).1)
  refine (setPin_entry k _ s).trans ?_
  rw [if_neg (ne_true_of_eq_false off), none]
  rfl

end

/-! ### The statement -/

theorem d8_besideMoves : BesideMoves (fun s : State => s.d8) where
  parts _ _ _ _ _ _ _ _ _ := rfl
  event h x s := emit_d8 h x s
  withdrawn _ _ := rfl
  counted _ := rfl

/-- A command on a block that can be accessed, while no guarded pair waits. -/
theorem busWr_free {s : State} {b : Nat} (on : blockOn s b = true) (free : s.guard = none) (f : State → State) :
    Host.Outcome.next (busWr b f s) = (.next (f s) : Host.Outcome State Fault Refusal) := by
  rw [busWr_on on, breakPair_none free]

/-- Settles O40: each command is the branch that its frame, the layout or its pin entry stands at, with what the moves of frames leave. -/
theorem framesLayoutAndPins : Obligations.FramesLayoutAndPins := by
  unfold Obligations.FramesLayoutAndPins
  refine ⟨?promoted, ?promotionWaits, ?demoted, ?demotionWaits, ?epoch, ?epochStands, ?commit, ?carve, ?carveRefused, ?pinRefused, ?pinFills, ?pinStands, ?unpinned, ?unpinStands⟩
  case promoted =>
    intro pin f s run filling filled fresh quiet alone
    have e : exec (.promotionComplete pin f) s = _ := congrArg Host.Outcome.next ((if_pos run).trans (promotionComplete_done filling filled fresh quiet alone))
    have store := exec_sameStore e rfl
    obtain ⟨pins, eq⟩ := entryStat_pins (s.frame pin f).pin (fbump WAY WAY_PROMO_COUNT (setFrame pin f (promotedFrame pin (s.frame pin f)) s))
    rw [eq] at e store
    have regs : (setFrame pin f (promotedFrame pin (s.frame pin f)) s).regs = s.regs := setFrame_inv (·.regs) (fun _ _ _ => rfl) _ _ _ s
    have frame := setFrame_frame pin f (promotedFrame pin (s.frame pin f)) s
    refine ⟨_, e, congrArg Frame.st frame, congrArg Frame.age frame, (congrArg Frame.seg frame :), (congrArg Frame.owner frame :), (congrArg Frame.psn frame :), ?_, fun a other => ?_,
      setFrame_inv (·.chans) (fun _ _ _ => rfl) _ _ _ s, setFrame_inv (·.d8) (fun _ _ _ => rfl) _ _ _ s, store⟩
    · exact (fget_fbump _ _ _ (by decide)).trans (by rw [fget_congr regs]; rfl)
    · exact (rg_fbump_ne WAY WAY_PROMO_COUNT _ other).trans (rg_congr regs a)
  case promotionWaits =>
    rintro pin f s (stopped | waits)
    · exact congrArg Host.Outcome.next (if_neg (ne_true_of_eq_false stopped))
    · refine congrArg Host.Outcome.next ?_
      rw [promotionComplete_waits waits, ite_self]
  case demoted =>
    intro pin f s run leaving clean uncharged quiet stays kept unwanted unpinned
    have e : exec (.demotionComplete pin f) s = _ := congrArg Host.Outcome.next ((if_pos run).trans (demotionComplete_done leaving clean uncharged quiet stays kept unwanted unpinned))
    obtain ⟨arbs, moved⟩ := moveHeld_arbs (s.frame pin f).seg (setFrame pin f {} (fbump WAY WAY_DEMOTE_COUNT s))
    obtain ⟨pins, eq⟩ := entryStat_pins (s.frame pin f).pin (moveHeld (s.frame pin f).seg (setFrame pin f {} (fbump WAY WAY_DEMOTE_COUNT s)))
    rw [eq, moved] at e
    have regs : (setFrame pin f {} (fbump WAY WAY_DEMOTE_COUNT s)).regs = (fbump WAY WAY_DEMOTE_COUNT s).regs := setFrame_inv (·.regs) (fun _ _ _ => rfl) _ _ _ _
    refine ⟨_, e, setFrame_frame pin f {} _, ?_, fun a other => ?_, setFrame_inv (·.chans) (fun _ _ _ => rfl) _ _ _ _, setFrame_inv (·.d8) (fun _ _ _ => rfl) _ _ _ _,
      exec_dram e (by simp [stores]), setFrame_inv (·.wmem) (fun _ _ _ => rfl) _ _ _ _, exec_keptStore e (σ := .ix) (by simp [stores]),
      exec_streams e (by simp [stores]), exec_keptStore e (σ := .mans) (by simp [stores]), exec_accts e (by simp [stores])⟩
    · exact (fget_congr regs _ _).trans (fget_fbump _ _ _ (by decide))
    · exact (rg_congr regs a).trans (rg_fbump_ne WAY WAY_DEMOTE_COUNT _ other)
  case demotionWaits =>
    rintro pin f s (stopped | waits)
    · exact congrArg Host.Outcome.next (if_neg (ne_true_of_eq_false stopped))
    · refine congrArg Host.Outcome.next ?_
      rw [demotionComplete_waits waits, ite_self]
  case epoch =>
    intro s run
    have e : exec .migrationEpoch s = .next (migrationEpoch s) := rfl
    have view := migrationEpoch_view run
    exact ⟨_, e, congrArg (·.1) view, congrArg (·.2.1) view, congrArg (·.2.2.2) view, congrArg (·.2.2.1) view, exec_dram e (by simp [stores]), exec_streams e (by simp [stores])⟩
  case epochStands =>
    intro s stands
    exact congrArg Host.Outcome.next (if_pos (congrArg not stands))
  case commit =>
    intro s on uncommitted
    have e : exec .layoutCommit s = .next (layoutCommit (afterClear (breakPair s))) := congrArg Host.Outcome.next (busWr_on on _)
    have field : ∀ f : Fld, fget (afterClear (breakPair s)) WAY f = fget s WAY f := fun f => fget_breakPair s (Nat.le_trans (by decide) (Nat.le_add_right WAY f.off))
    have fresh : fbit (afterClear (breakPair s)) WAY WAY_STATUS_COMMITTED = false := (congrArg (· != 0) (field _)).trans uncommitted
    have frames : tierFrames (afterClear (breakPair s)) = tierFrames s := by simp only [tierFrames, carveQ, carveW, carveP, field]
    have windows : carveW (afterClear (breakPair s)) = carveW s := field _
    obtain ⟨committed, tier⟩ := layoutCommit_fields fresh
    obtain ⟨reserve, total, free⟩ := layoutCommit_reserves fresh
    rw [frames] at tier reserve
    rw [windows] at total free
    refine ⟨_, e, committed, tier, reserve, total, free, ?_, ?_, exec_sameStore e rfl⟩
    · exact (layoutCommit_inv (·.way) (fun _ _ _ _ => rfl) (fun _ _ => rfl) (fun _ _ => rfl) _).trans (congrArg (fun w => ({ w with clearing := false } : WayState)) (breakPair_way s))
    · exact (layoutCommit_inv (·.d8) (fun _ _ _ _ => rfl) (fun _ _ => rfl) (fun _ _ => rfl) _).trans (breakPair_d8 s)
  case carve =>
    intro v s on free uncommitted legal
    have e : exec (.wayCarveWrite v) s = _ := busWr_free on free (carveWrite v)
    obtain ⟨q, w, p, other, way, d8⟩ := carveWrite_taken uncommitted legal
    exact ⟨_, e, q, w, p, other, way, d8, exec_sameStore e rfl⟩
  case carveRefused =>
    intro v s on free h
    have e : exec (.wayCarveWrite v) s = _ := (busWr_free on free (carveWrite v)).trans (congrArg _ (carveWrite_refused h))
    exact ⟨_, e, fbit_fset_one _ _ _ (by decide) (by decide), fun a other => rg_fset_ne _ _ _ _ other, rfl, exec_sameStore e rfl⟩
  case pinRefused =>
    intro k s on free off h
    have e : exec (.pinEnable k) s = _ := (busWr_free on free (pinEnable k)).trans (congrArg _ (pinEnable_refused off h))
    exact ⟨_, e, fbit_fset_one _ _ _ (by decide) (by decide), fun a other => rg_fset_ne _ _ _ _ other, rfl, sameStore_fset _ _ _ s⟩
  case pinFills =>
    intro k f s on free off held legal one apart lowest
    have e : exec (.pinEnable k) s = _ := (busWr_free on free (pinEnable k)).trans (congrArg _ (pinEnable_one off held legal one apart lowest))
    have begun := startFill_frame true f (pinSeg0 s.way.pins[k]) none (some k) (setPin k { s.way.pins[k] with en := true, pstate := 1 } s)
    have pins : (startFill true f (pinSeg0 s.way.pins[k]) none (some k) (setPin k { s.way.pins[k] with en := true, pstate := 1 } s)).way.pins[k]
        = { s.way.pins[k] with en := true, pstate := 1 } :=
      (congrArg (fun v : Vector PinEntry 16 => v[k]) (startFill_inv (·.way.pins) true f (fun _ _ _ _ => rfl) (fun _ _ _ _ => rfl) _ none (some k) _)).trans (setPin_entry k _ s)
    have entry := pinStat_filling (congrArg PinEntry.en pins) begun
    rw [pins] at entry
    exact ⟨_, e, congrArg PinEntry.en entry, congrArg PinEntry.pstate entry, congrArg (·.1) begun, congrArg (·.2.1) begun, congrArg (·.2.2) begun,
      startFill_pinned_tier f _ none (some k) _, startFill_beside d8_besideMoves true f _ none (some k) _, exec_dram e (by simp [stores]), exec_streams e (by simp [stores]),
      exec_keptStore e (σ := .mans) (by simp [stores])⟩
  case pinStands =>
    intro k s on free set
    exact (busWr_free on free (pinEnable k)).trans (congrArg _ (pinEnable_on set))
  case unpinned =>
    intro k s on free set empty
    have e : exec (.pinDisable k) s = _ := (busWr_free on free (pinDisable k)).trans (congrArg _ (pinDisable_empty set empty))
    have cleared := setPin_entry k { s.way.pins[k] with en := false } s
    have entry := pinStat_empty (s := unqueued k (setPin k { s.way.pins[k] with en := false } s)) (congrArg PinEntry.en cleared) empty
    exact ⟨_, e, (congrArg PinEntry.en entry).trans (congrArg PinEntry.en cleared), congrArg PinEntry.pstate entry, rfl, rfl, rfl, rfl, rfl, rfl, rfl, rfl, rfl, rfl, rfl⟩
  case unpinStands =>
    intro k s on free off
    exact (busWr_free on free (pinDisable k)).trans (congrArg _ (pinDisable_off off))

end Sys2Proof.Proofs

/-! PROOF. The `walk` verb: the words of a descriptor, the reservation of its segments, and its life from load to unload (07 R212 to R215, R233). -/

namespace Sys2Proof.Proofs
open Sys2Proof Sys2Proof.Machine Sys2Proof.Laws

/-! ### The words of a descriptor -/

theorem ixGet_congr {s t : State} (h : t.ix = s.ix) (b i : Nat) : ixGet t b i = ixGet s b i := by
  unfold ixGet
  rw [h]

@[simp] theorem ixGet_ixSet (b i : Nat) (w : Word) (s : State) : ixGet (ixSet b i w s) b i = w := tblGet_tblSet _ _ _ _

theorem ixGet_ixSet_ne (b : Nat) {i j : Nat} (h : j ≠ i) (w : Word) (s : State) : ixGet (ixSet b i w s) b j = ixGet s b j :=
  tblGet_tblSet_ne _ _ _ _ _ fun e => h (Nat.add_left_cancel e)

theorem wdWord_congr {s t : State} (h : t.ix = s.ix) (d w : Nat) : wdWord t d w = wdWord s d w := congrArg BitVec.toNat (ixGet_congr h _ _)

theorem wdWord_lt (s : State) (d w : Nat) : wdWord s d w < 2 ^ 32 := (ixGet s WLK (d * 32 + w)).isLt

/-- A word of a descriptor is written. -/
def putWord (d w v : Nat) (s : State) : State := ixSet WLK (d * 32 + w) (BitVec.ofNat 32 v) s

theorem wdWord_putWord (d w v : Nat) (s : State) (k : Nat) : wdWord (putWord d w v s) d k = if k = w then v % 2 ^ 32 else wdWord s d k := by
  split
  · next h =>
    rw [h]
    exact (congrArg BitVec.toNat (ixGet_ixSet _ _ _ _)).trans (BitVec.toNat_ofNat _ _)
  · next h => exact congrArg BitVec.toNat (ixGet_ixSet_ne _ (by omega) _ _)

theorem wdWord_putWord_ne {w k : Nat} (h : k ≠ w) (d v : Nat) (s : State) : wdWord (putWord d w v s) d k = wdWord s d k := (wdWord_putWord d w v s k).trans (if_neg h)

theorem wdWord_putWord_same {v : Nat} (h : v < 2 ^ 32) (d w : Nat) (s : State) : wdWord (putWord d w v s) d w = v :=
  (wdWord_putWord d w v s w).trans ((if_pos rfl).trans (Nat.mod_eq_of_lt h))

theorem wdValid_putWord_ne {w : Nat} (h : w ≠ 0) (d v : Nat) (s : State) : wdValid (putWord d w v s) d = wdValid s d :=
  congrArg (bitOf · 0) (wdWord_putWord_ne h.symm d v s)

theorem putDesc_free {d : Nat} {s : State} (free : wdValid s d = false) (w v : Nat) : putDesc d w v s = putWord d w v s := if_neg (ne_true_of_eq_false free)

/-- A verb whose numbers all lie in their ranges. -/
theorem rangeErr_none {l : List (String × Nat × Nat × Nat)} (h : ∀ x ∈ l, x.2.1 ≤ x.2.2.2 ∧ x.2.2.2 ≤ x.2.2.1) : rangeErr l = none := by
  induction l with
  | nil => rfl
  | cons x r ih =>
    obtain ⟨n, lo, hi, v⟩ := x
    obtain ⟨⟨low, high⟩, rest⟩ := List.forall_mem_cons.mp h
    exact (if_neg (not_or.mpr ⟨Nat.not_lt.mpr low, Nat.not_lt.mpr high⟩)).trans (ih rest)

/-! ### `walk define` -/

/-- Word 0 of a descriptor as `walk define` gives it: no stage beyond stage 0, and not VALID (07 R212). -/
def headWord (man home : Nat) (bypass : Bool) (hold slots : Nat) : Nat := (if bypass then 16 else 0) + (slots - 1) * 32 + man * 256 + home * 65536 + hold / 4 * 2 ^ 20

/-- The numbers of a `walk define` lie in their ranges (07 R233). -/
structure DefineRange (d man home hold slots slotseg nctx : Nat) : Prop where
  desc : d < 4096
  man : man < 256
  home : home < 16
  hold : hold ≤ 16380 ∧ hold % 4 = 0
  slots : 1 ≤ slots ∧ slots ≤ 8
  slotseg : 1 ≤ slotseg ∧ slotseg ≤ 128
  nctx : 1 ≤ nctx ∧ nctx ≤ 64

section
variable {d man home hold slots slotseg nctx : Nat} (r : DefineRange d man home hold slots slotseg nctx)
include r

theorem DefineRange.rangeErr : rangeErr [("h", 0, 4095, d), ("man", 0, 255, man), ("home", 0, 15, home), ("hold", 0, 16380, hold), ("slots", 1, 8, slots),
    ("slotseg", 1, 128, slotseg), ("nctx", 1, 64, nctx)] = none := by
  obtain ⟨desc, man, home, ⟨hold, -⟩, slots, slotseg, nctx⟩ := r
  refine rangeErr_none ?_
  simp only [List.forall_mem_cons, List.not_mem_nil, false_implies, implies_true, and_true]
  omega

theorem walkDefine_free (bypass : Bool) {s : State} (free : wdValid s d = false) :
    walkDefine d man home bypass hold slots slotseg nctx s = (putWord d 0 (headWord man home bypass hold slots) (putWord d 1 (slotseg + nctx * 256) s), okLn []) := by
  have still : wdValid (putWord d 1 (slotseg + nctx * 256) s) d = false := (wdValid_putWord_ne (by decide) _ _ _).trans free
  unfold walkDefine
  rw [r.rangeErr]
  dsimp only
  rw [if_neg (by simp [r.hold.2]), if_neg (ne_true_of_eq_false free), putDesc_free free, putDesc_free still]
  rfl

theorem walkDefine_valid (bypass : Bool) {s : State} (valid : wdValid s d = true) :
    walkDefine d man home bypass hold slots slotseg nctx s = (fset WLK WLK_STATUS_DESC_REJ 1 s, descErr s d) := by
  unfold walkDefine
  rw [r.rangeErr]
  dsimp only
  rw [if_neg (by simp [r.hold.2]), if_pos valid]

/-- The fields of a defined descriptor are the verb's numbers (07 R212). -/
theorem defined_fields {t : State} {bypass : Bool} (head : wdWord t d 0 = headWord man home bypass hold slots) (size : wdWord t d 1 = slotseg + nctx * 256) :
    wdMan t d = man ∧ (wdHome t d).val = home ∧ wdHoldNs t d = hold ∧ wdSlots t d = slots ∧ wdSlotSeg t d = slotseg ∧ wdNctx t d = nctx ∧ wdBypass t d = bypass ∧
      wdValid t d = false := by
  obtain ⟨desc, man, home, ⟨hold, whole⟩, slots, slotseg, nctx⟩ := r
  unfold headWord at head
  simp only [wdMan, wdHome, wdHoldNs, wdSlots, wdSlotSeg, wdNctx, wdBypass, wdValid, head, size, bitOf, Fin.ofNat]
  cases bypass with
  | false =>
    rw [if_neg Bool.false_ne_true]
    exact ⟨by omega, by omega, by omega, by omega, by omega, by omega, decide_eq_false (by omega), decide_eq_false (by omega)⟩
  | true =>
    rw [if_pos rfl]
    exact ⟨by omega, by omega, by omega, by omega, by omega, by omega, decide_eq_true (by omega), decide_eq_false (by omega)⟩

theorem headWord_lt (bypass : Bool) : headWord man home bypass hold slots < 2 ^ 32 := by
  obtain ⟨desc, man, home, hold, slots, slotseg, nctx⟩ := r
  unfold headWord
  split <;> omega

end

/-! ### `walk stage` -/

/-- The numbers of a `walk stage` lie in their ranges (07 R233). -/
structure StageRange (d st : Nat) (gather : Bool) (base segs shift width : Nat) : Prop where
  desc : d < 4096
  stage : st < 8
  base : base < 2 ^ 44
  segs : (if gather then 0 else 1) ≤ segs ∧ segs ≤ if gather then 255 else 128
  shift : shift ≤ 127
  width : width ≤ 32

/-- Word 0 of a descriptor with NSTG raised to a stage (07 R213). -/
def raisedHead (w st : Nat) : Nat := w - w / 2 % 8 * 2 + max (w / 2 % 8) st * 2

/-- The three words of a stage's record, and the descriptor's word 0 with them (07 R213). -/
def stageWritten (d st : Nat) (gather : Bool) (base segs shift width : Nat) (s : State) : State :=
  putWord d 0 (raisedHead (wdWord s d 0) st) <| putWord d (4 + 3 * st) ((if gather then 1 else 0) + shift * 2 + width * 256) <|
    putWord d (5 + 3 * st) (base % 2 ^ 32) (putWord d (6 + 3 * st) (base / 2 ^ 32 + segs * 4096) s)

section
variable {d st base segs shift width : Nat} {gather : Bool} (r : StageRange d st gather base segs shift width)
include r

theorem StageRange.rangeErr : rangeErr [("h", 0, 4095, d), ("s", 0, 7, st), ("base", 0, 2 ^ 44 - 1, base), ("segs", if gather then 0 else 1, if gather then 255 else 128, segs),
    ("shift", 0, 127, shift), ("width", 0, 32, width)] = none := by
  obtain ⟨desc, stage, base, segs, shift, width⟩ := r
  refine rangeErr_none ?_
  simp only [List.forall_mem_cons, List.not_mem_nil, false_implies, implies_true, and_true]
  omega

theorem walkStage_free {s : State} (free : wdValid s d = false) :
    walkStage d st gather base segs shift width s = (stageWritten d st gather base segs shift width s, okLn []) := by
  have still : ∀ w v x, w ≠ 0 → wdValid x d = false → wdValid (putWord d w v x) d = false := fun w v x h valid => (wdValid_putWord_ne h d v x).trans valid
  unfold walkStage
  rw [r.rangeErr]
  dsimp only
  rw [if_neg (ne_true_of_eq_false free), putDesc_free free, putDesc_free (still _ _ _ (by omega) free),
    putDesc_free (still _ _ _ (by omega) (still _ _ _ (by omega) free)),
    putDesc_free (still _ _ _ (by omega) (still _ _ _ (by omega) (still _ _ _ (by omega) free)))]
  rfl

/-- The record of the stage holds the verb's numbers (07 R213). -/
theorem wdStage_stageWritten (s : State) : wdStage (stageWritten d st gather base segs shift width s) d st = ⟨gather, shift, width, base, segs⟩ := by
  obtain ⟨-, -, base_lt, segs_le, shift_le, width_le⟩ := r
  have segs_lt : segs ≤ 255 := segs_le.2.trans (by split <;> decide)
  have low_lt : (if gather then 1 else 0) + shift * 2 + width * 256 < 2 ^ 32 := by split <;> omega
  have low : wdWord (stageWritten d st gather base segs shift width s) d (4 + 3 * st) = (if gather then 1 else 0) + shift * 2 + width * 256 :=
    (wdWord_putWord_ne (by omega) _ _ _).trans (wdWord_putWord_same low_lt _ _ _)
  have mid : wdWord (stageWritten d st gather base segs shift width s) d (5 + 3 * st) = base % 2 ^ 32 :=
    (wdWord_putWord_ne (by omega) _ _ _).trans ((wdWord_putWord_ne (by omega) _ _ _).trans (wdWord_putWord_same (by omega) _ _ _))
  have high : wdWord (stageWritten d st gather base segs shift width s) d (6 + 3 * st) = base / 2 ^ 32 + segs * 4096 :=
    (wdWord_putWord_ne (by omega) _ _ _).trans ((wdWord_putWord_ne (by omega) _ _ _).trans ((wdWord_putWord_ne (by omega) _ _ _).trans
      (wdWord_putWord_same (by omega) _ _ _)))
  simp only [wdStage, low, mid, high, Stage.mk.injEq, bitOf]
  cases gather with
  | false =>
    rw [if_neg Bool.false_ne_true]
    exact ⟨decide_eq_false (by omega), by omega, by omega, by omega, by omega⟩
  | true =>
    rw [if_pos rfl]
    exact ⟨decide_eq_true (by omega), by omega, by omega, by omega, by omega⟩

omit r in
/-- The records of the other stages stay. -/
theorem wdStage_stageWritten_ne (s : State) {k : Nat} (h : k ≠ st) : wdStage (stageWritten d st gather base segs shift width s) d k = wdStage s d k := by
  have word : ∀ j, j < 3 → wdWord (stageWritten d st gather base segs shift width s) d (4 + 3 * k + j) = wdWord s d (4 + 3 * k + j) := fun j hj =>
    (wdWord_putWord_ne (by omega) _ _ _).trans <| (wdWord_putWord_ne (by omega) _ _ _).trans <| (wdWord_putWord_ne (by omega) _ _ _).trans (wdWord_putWord_ne (by omega) _ _ _)
  have low := word 0 (by decide)
  have mid := word 1 (by decide)
  have high := word 2 (by decide)
  rw [show 4 + 3 * k + 1 = 5 + 3 * k by omega] at mid
  rw [show 4 + 3 * k + 2 = 6 + 3 * k by omega] at high
  rw [Nat.add_zero] at low
  simp only [wdStage, low, mid, high]

/-- NSTG rises to the stage where it is below it, and the rest of word 0 stays (07 R213). -/
theorem stageWritten_head (s : State) :
    wdStages (stageWritten d st gather base segs shift width s) d = max (wdStages s d) (st + 1) ∧ wdMan (stageWritten d st gather base segs shift width s) d = wdMan s d := by
  have stage := r.stage
  have fits := wdWord_lt s d 0
  have head : wdWord (stageWritten d st gather base segs shift width s) d 0 = raisedHead (wdWord s d 0) st := wdWord_putWord_same (by unfold raisedHead; omega) _ _ _
  simp only [wdStages, wdMan, head, raisedHead]
  omega

end

/-! ### `walk load` -/

/-- A descriptor's words and segments as a load leaves them: VALID with its next generation, its segments reserved and its slots empty (07 R215). -/
def loadedDesc (d : Nat) (s : State) : State :=
  putWord d 0 (wdWord s d 0 / 2 * 2 + 1) <| putWord d 2 ((wdWord s d 2 / 65536 + 1) % 65536 * 65536) <|
    setWalkRt d { reserved := loadNeed s d, slots := List.replicate (wdSlots s d) {} } <|
      fset WAY WAY_WALKSEG_FREE (fget s WAY WAY_WALKSEG_FREE - loadNeed s d) (fbump WLK WLK_STATUS_LOADED s)

/-- The answer to a load (07 R215). -/
def loadAnswer (d : Nat) (s : State) : OutLn := okLn [("h", .h d 3), ("gen", .n ((wdWord s d 2 / 65536 + 1) % 65536)), ("reserve", .n (loadNeed s d))]

theorem setWalkRt_walkRt (d : Nat) (x : WalkRt) (s : State) : (setWalkRt d x s).walkRt d = x := tblGet_tblSet _ _ _ _

theorem walkRt_congr {s t : State} (h : t.walks = s.walks) (d : Nat) : t.walkRt d = s.walkRt d := by
  unfold State.walkRt
  rw [h]

section
variable {d : Nat} {s : State} (range : d < 4096)
include range

theorem descRange : rangeErr [("h", 0, 4095, d)] = none := rangeErr_none (by simp; omega)

theorem walkLoad_valid (valid : wdValid s d = true) : walkLoad d s = (s, descErr s d) := by
  unfold walkLoad
  rw [descRange range]
  exact if_pos valid

theorem walkLoad_failed {k : Nat} (free : wdValid s d = false) (failed : loadCheck s d = some k) :
    walkLoad d s = (s, erLn 421 "descriptor check" [("h", .h d 3), ("check", .n k)]) := by
  unfold walkLoad
  rw [descRange range]
  dsimp only
  rw [if_neg (ne_true_of_eq_false free), failed]

theorem walkLoad_admitted (free : wdValid s d = false) (checked : loadCheck s d = none) (own : loadNeed s d ≤ wayEff (s.man (wdMan s d)) - walkResv s (wdMan s d))
    (room : loadNeed s d ≤ fget s WAY WAY_WALKSEG_FREE) :
    walkLoad d s = (trimFrames false (BitVec.ofNat 8 (wdMan s d)) (loadedDesc d s), loadAnswer d s) := by
  unfold walkLoad
  rw [descRange range]
  dsimp only
  rw [if_neg (ne_true_of_eq_false free), checked]
  dsimp only
  rw [if_neg (by omega)]
  rfl

theorem walkUnload_begins (valid : wdValid s d = true) (loaded : (s.walkRt d).unloading = false) :
    walkUnload d s = (setWalkRt d { s.walkRt d with unloading := true } s, okLn [("h", .h d 3), ("state", .s "unloading")]) := by
  unfold walkUnload
  rw [descRange range]
  dsimp only
  rw [if_neg (by simp [valid, loaded]), unloadStart, if_pos valid]

theorem walkUnload_refused (h : wdValid s d = false ∨ (s.walkRt d).unloading = true) : walkUnload d s = (s, descErr s d) := by
  unfold walkUnload
  rw [descRange range]
  exact if_pos (by simpa using h)

end

/-- A load shows in a descriptor's words, in the walk engine's records of descriptors, in two counts of segments and descriptors, and in what moves with frames. -/
def loadView (s : State) : List (Nat × Word) × List (Nat × WalkRt) × Nat × Nat × Nat := (s.ix, s.walks, s.d8, fget s WAY WAY_WALKSEG_FREE, fget s WLK WLK_STATUS_LOADED)

theorem loadView_besideMoves : BesideMoves loadView where
  parts _ _ _ _ _ _ _ _ _ := rfl
  event h x s := by
    unfold loadView
    rw [emit_ix, emit_walks, emit_d8, fget_emit _ _ _ _ _ (by decide) (by decide) (by decide), fget_emit _ _ _ _ _ (by decide) (by decide) (by decide)]
  withdrawn v s := by
    unfold loadView
    rw [fget_fset_ne _ _ _ _ _ _ (by decide), fget_fset_ne _ _ _ _ _ _ (by decide)]
    rfl
  counted s := by
    unfold loadView
    rw [fget_fbump_ne _ _ _ _ _ (by decide), fget_fbump_ne _ _ _ _ _ (by decide)]
    rfl

theorem loadedDesc_valid (d : Nat) (s : State) : wdValid (loadedDesc d s) d = true := by
  have fits := wdWord_lt s d 0
  have head : wdWord (loadedDesc d s) d 0 = wdWord s d 0 / 2 * 2 + 1 := wdWord_putWord_same (by omega) _ _ _
  rw [wdValid, head]
  exact decide_eq_true (by omega)

theorem loadedDesc_free (d : Nat) (s : State) : fget (loadedDesc d s) WAY WAY_WALKSEG_FREE = fget s WAY WAY_WALKSEG_FREE - loadNeed s d := by
  have fits := fget_lt s WAY WAY_WALKSEG_FREE
  exact (fget_fset WAY WAY_WALKSEG_FREE _ _ (by decide)).trans (Nat.mod_eq_of_lt (by omega))

theorem loadedDesc_loaded (d : Nat) (s : State) : fget (loadedDesc d s) WLK WLK_STATUS_LOADED = min (fget s WLK WLK_STATUS_LOADED + 1) 8191 :=
  (fget_fset_ne WLK WAY WLK_STATUS_LOADED WAY_WALKSEG_FREE _ _ (by decide)).trans (fget_fbump _ _ _ (by decide))

/-! ### The end of an unload -/

/-- The reads of a descriptor's images serve nothing any more (07 R215). -/
def readsDropped (d : Nat) (s : State) : State :=
  dropWalkCmds (fun x => match x with
    | .walk image a _ _ => image && a = d
    | _ => false) { s with wreads := s.wreads.filter fun r => !(r.image && r.a = d) }

/-- A descriptor as the end of an unload leaves it: not VALID, with its segments freed (07 R215). -/
def unloadedDesc (d : Nat) (s : State) : State :=
  putWord d 0 (wdWord s d 0 / 2 * 2) <| setWalkRt d {} <|
    fset WAY WAY_WALKSEG_FREE (fget s WAY WAY_WALKSEG_FREE + (s.walkRt d).reserved) (fset WLK WLK_STATUS_LOADED (fget s WLK WLK_STATUS_LOADED - 1) (readsDropped d s))

theorem walkUnloaded_waits {d : Nat} {s : State} (h : (s.walkRt d).unloading = false ∨ wdUse s d ≠ 0) : walkUnloaded d s = s := if_pos (by simpa using h)

theorem walkUnloaded_done {d : Nat} {s : State} (unloading : (s.walkRt d).unloading = true) (unused : wdUse s d = 0) :
    walkUnloaded d s = emit "walk_unloaded" [("h", .h d 3)] (unloadedDesc d s) := by
  unfold walkUnloaded
  extract_lets rt x y z
  rw [if_neg (by simp [rt, unloading, unused])]
  rfl

theorem unloadedDesc_valid (d : Nat) (s : State) : wdValid (unloadedDesc d s) d = false := by
  have fits := wdWord_lt s d 0
  have head : wdWord (unloadedDesc d s) d 0 = wdWord s d 0 / 2 * 2 := wdWord_putWord_same (by omega) _ _ _
  rw [wdValid, head]
  exact decide_eq_false (by omega)

theorem unloadedDesc_loaded (d : Nat) (s : State) : fget (unloadedDesc d s) WLK WLK_STATUS_LOADED = fget s WLK WLK_STATUS_LOADED - 1 := by
  have fits := fget_lt s WLK WLK_STATUS_LOADED
  exact (fget_fset_ne WLK WAY WLK_STATUS_LOADED WAY_WALKSEG_FREE _ _ (by decide)).trans ((fget_fset _ _ _ _ (by decide)).trans (Nat.mod_eq_of_lt (by omega)))

/-! ### The statement -/

section
variable {s : State} (ready : verbReady s = true)
include ready

theorem exec_walkDefine (d man home : Nat) (bypass : Bool) (hold slots slotseg nctx : Nat) : exec (.walkDefine d man home bypass hold slots slotseg nctx) s =
    .next (answer [(walkDefine d man home bypass hold slots slotseg nctx s).2] (walkDefine d man home bypass hold slots slotseg nctx s).1) :=
  congrArg Host.Outcome.next (runVerb1_ready ready _)

theorem exec_walkStage (d st : Nat) (gather : Bool) (base segs shift width : Nat) : exec (.walkStage d st gather base segs shift width) s =
    .next (answer [(walkStage d st gather base segs shift width s).2] (walkStage d st gather base segs shift width s).1) :=
  congrArg Host.Outcome.next (runVerb1_ready ready _)

theorem exec_walkLoad (d : Nat) : exec (.walkLoad d) s = .next (answer [(walkLoad d (afterClear s)).2] (walkLoad d (afterClear s)).1) :=
  congrArg Host.Outcome.next (runVerb1_ready ready _)

theorem exec_walkUnload (d : Nat) : exec (.walkUnload d) s = .next (answer [(walkUnload d s).2] (walkUnload d s).1) :=
  congrArg Host.Outcome.next (runVerb1_ready ready _)

end

@[simp] theorem answer_ix (l : List OutLn) (s : State) : (answer l s).ix = s.ix := answer_inv (·.ix) l s (fun _ _ => rfl) fun _ _ => rfl
@[simp] theorem answer_walks (l : List OutLn) (s : State) : (answer l s).walks = s.walks := answer_inv (·.walks) l s (fun _ _ => rfl) fun _ _ => rfl

/-- Settles O42: each clause is the branch of its verb, with the words and the segments that it writes. -/
theorem descriptorsManaged : Obligations.DescriptorsManaged := by
  unfold Obligations.DescriptorsManaged
  refine ⟨?defined, ?defineValid, ?staged, ?loaded, ?checkFails, ?loadValid, ?unloads, ?unloadRefused, ?unloaded, ?waits⟩
  case defined =>
    intro d m home hold slots seg n byp s ready hd hm hhome hhold whole slots1 slots8 seg1 seg128 n1 n64 free
    have r : DefineRange d m home hold slots seg n := ⟨hd, hm, hhome, ⟨hhold, whole⟩, ⟨slots1, slots8⟩, ⟨seg1, seg128⟩, ⟨n1, n64⟩⟩
    have e := exec_walkDefine ready d m home byp hold slots seg n
    rw [walkDefine_free r byp free] at e
    have word : ∀ w, wdWord (answer [okLn []] (putWord d 0 (headWord m home byp hold slots) (putWord d 1 (seg + n * 256) s))) d w = _ := fun w => wdWord_congr (answer_ix _ _) d w
    have head := (word 0).trans (wdWord_putWord_same (headWord_lt r byp) d 0 _)
    have size := (word 1).trans ((wdWord_putWord_ne (by decide) d _ _).trans (wdWord_putWord_same (by omega) d 1 s))
    obtain ⟨man, home, hold, slots, slotseg, nctx, bypass, valid⟩ := defined_fields r head size
    refine ⟨_, e, rfl, man, home, hold, slots, slotseg, nctx, bypass, valid, fun j low high => ?_, answer_d8 _ _, exec_dram e (by simp [stores]), exec_wmem e (by simp [stores]),
      answer_walks _ _⟩
    exact (ixGet_congr (answer_ix _ _) _ _).trans ((ixGet_ixSet_ne _ (by omega) _ _).trans (ixGet_ixSet_ne _ (by omega) _ s))
  case defineValid =>
    intro d m home hold slots seg n byp s ready hd hm hhome hhold whole slots1 slots8 seg1 seg128 n1 n64 valid
    have r : DefineRange d m home hold slots seg n := ⟨hd, hm, hhome, ⟨hhold, whole⟩, ⟨slots1, slots8⟩, ⟨seg1, seg128⟩, ⟨n1, n64⟩⟩
    have e := exec_walkDefine ready d m home byp hold slots seg n
    rw [walkDefine_valid r byp valid] at e
    exact ⟨_, e, rfl, (congrArg (· != 0) (fget_answer (by decide))).trans (fbit_fset_one _ _ _ (by decide) (by decide)), answer_walks _ _,
      sameStore_trans (sameStore_fset _ _ _ s) (sameStore_answer _ _)⟩
  case staged =>
    intro d st base segs sh w g s ready hd hst hbase segs1 segs2 hsh hw free
    have r : StageRange d st g base segs sh w := ⟨hd, hst, hbase, ⟨segs1, segs2⟩, hsh, hw⟩
    have e := exec_walkStage ready d st g base segs sh w
    rw [walkStage_free r free] at e
    have stage : ∀ k, wdStage (answer [okLn []] (stageWritten d st g base segs sh w s)) d k = wdStage (stageWritten d st g base segs sh w s) d k := fun k => by
      simp only [wdStage, wdWord_congr (answer_ix _ _)]
    obtain ⟨stages, man⟩ := stageWritten_head r s
    refine ⟨_, e, rfl, (stage st).trans (wdStage_stageWritten r s), ?_, ?_, fun k _ other => (stage k).trans (wdStage_stageWritten_ne s other),
      answer_d8 _ _, exec_dram e (by simp [stores]), exec_wmem e (by simp [stores]), answer_walks _ _⟩
    · exact (congrArg (· / 2 % 8 + 1) (wdWord_congr (answer_ix _ _) d 0)).trans stages
    · exact (congrArg (· / 256 % 256) (wdWord_congr (answer_ix _ _) d 0)).trans man
  case loaded =>
    intro d s ready range free checked own room
    have e := exec_walkLoad ready d
    rw [walkLoad_admitted range (s := afterClear s) free checked own room] at e
    have view := trimFrames_beside loadView_besideMoves false (BitVec.ofNat 8 (wdMan (afterClear s) d)) (loadedDesc d (afterClear s))
    have ix : (trimFrames false (BitVec.ofNat 8 (wdMan (afterClear s) d)) (loadedDesc d (afterClear s))).ix = _ := congrArg (·.1) view
    have rt := (walkRt_congr ((answer_walks [loadAnswer d (afterClear s)] _).trans (congrArg (·.2.1) view)) d).trans (setWalkRt_walkRt d _ _)
    refine ⟨_, e, rfl, ?_, congrArg WalkRt.reserved rt, congrArg WalkRt.unloading rt, ?_, ?_, ?_, (answer_d8 _ _).trans (congrArg (·.2.2.1) view), exec_dram e (by simp [stores]),
      exec_streams e (by simp [stores]), exec_keptStore e (σ := .mans) (by simp [stores])⟩
    · exact (congrArg (bitOf · 0) (wdWord_congr ((answer_ix _ _).trans ix) d 0)).trans (loadedDesc_valid d _)
    · exact (congrArg (·.slots.length) rt).trans List.length_replicate
    · exact (fget_answer (by decide)).trans ((congrArg (·.2.2.2.1) view).trans (loadedDesc_free d _))
    · exact (fget_answer (by decide)).trans ((congrArg (·.2.2.2.2) view).trans (loadedDesc_loaded d _))
  case checkFails =>
    intro d k s ready range free failed
    rw [exec_walkLoad ready, walkLoad_failed range (s := afterClear s) free failed]
    exact ⟨_, rfl, answered_answer _ rfl rfl rfl (sameStore_refl s)⟩
  case loadValid =>
    intro d s ready range valid
    rw [exec_walkLoad ready, walkLoad_valid range (s := afterClear s) valid]
    exact ⟨_, rfl, answered_answer _ rfl rfl rfl (sameStore_refl s)⟩
  case unloads =>
    intro d s ready range valid loaded
    rw [exec_walkUnload ready, walkUnload_begins range valid loaded]
    have rt := (walkRt_congr (answer_walks [okLn [("h", .h d 3), ("state", .s "unloading")]] _) d).trans (setWalkRt_walkRt d { s.walkRt d with unloading := true } s)
    exact ⟨_, rfl, congrArg WalkRt.unloading rt, (congrArg (bitOf · 0) (wdWord_congr (answer_ix _ _) d 0)).trans valid, (congrArg WalkRt.reserved rt :),
      answered_answer _ rfl rfl rfl (sameStore_refl s)⟩
  case unloadRefused =>
    intro d s ready range h
    rw [exec_walkUnload ready, walkUnload_refused range h]
    exact ⟨_, rfl, answer_walks _ _, answered_answer_self _ s⟩
  case unloaded =>
    intro d s run unloading unused
    have e : exec (.walkUnloaded d) s = _ := congrArg Host.Outcome.next ((if_pos run).trans (walkUnloaded_done unloading unused))
    refine ⟨_, e, ?_, ?_, emit_wreads _ _ _, ?_, ?_, emit_d8 _ _ _, exec_dram e (by simp [stores]), exec_wmem e (by simp [stores]), exec_streams e (by simp [stores]),
      exec_keptStore e (σ := .mans) (by simp [stores])⟩
    · exact (congrArg (bitOf · 0) (wdWord_congr (emit_ix _ _ _) d 0)).trans (unloadedDesc_valid d s)
    · exact (walkRt_congr (emit_walks _ _ _) d).trans (setWalkRt_walkRt d {} _)
    · exact (fget_emit _ _ _ _ _ (by decide) (by decide) (by decide)).trans (fget_fset WAY WAY_WALKSEG_FREE _ _ (by decide))
    · exact (fget_emit _ _ _ _ _ (by decide) (by decide) (by decide)).trans (unloadedDesc_loaded d s)
  case waits =>
    rintro d s (stopped | waits)
    · exact congrArg Host.Outcome.next (if_neg (ne_true_of_eq_false stopped))
    · refine congrArg Host.Outcome.next ?_
      rw [walkUnloaded_waits waits, ite_self]

end Sys2Proof.Proofs

/-! PROOF. Stage images, stage ends, holds and retries of the walk engine (07 R217 to R226). -/

namespace Sys2Proof.Proofs
open Sys2Proof Sys2Proof.Machine Sys2Proof.Laws

/-! ### What the answer to a walk leaves of the walk engine -/

/-- The walk engine, DTIME, both memories and the reserve contexts in use. -/
def walkView (s : State) := (s.caravans, s.wreads, s.walks, s.d8, s.dram, s.wmem, fget s WLK WLK_STATUS_RSVCTX)

/-- The walk engine with the journal and the stream records. -/
def answerView (s : State) := (walkView s, s.rings, s.streams)

theorem walkView_rgSet {a : Nat} (h : WLK + WLK_STATUS_RSVCTX.off ≠ a) (w : Word) (s : State) : walkView (rgSet a w s) = walkView s := by
  have held : fget (rgSet a w s) WLK WLK_STATUS_RSVCTX = fget s WLK WLK_STATUS_RSVCTX := congrArg WLK_STATUS_RSVCTX.get (rg_rgSet_ne _ _ _ _ h)
  unfold walkView
  rw [held]
  rfl

theorem answerView_rgSet {a : Nat} (h : WLK + WLK_STATUS_RSVCTX.off ≠ a) (w : Word) (s : State) : answerView (rgSet a w s) = answerView s :=
  congrArg (·, s.rings, s.streams) (walkView_rgSet h w s)

theorem answerView_pump (p : Fin 4) (s : State) : answerView (pump p s) = answerView s := by
  have apart : ∀ f : Fld, f.off < 0x1000 → WLK + WLK_STATUS_RSVCTX.off ≠ HP p + f.off := fun f h =>
    Nat.ne_of_gt ((HP_lt_TXN p h).trans (by decide))
  exact pump_spec answerView p s (fun f v y h => answerView_rgSet (apart f (h ▸ by decide)) _ y) (fun _ _ _ _ => rfl) (fun _ _ => rfl) (fun _ _ => rfl)
    fun y => answerView_rgSet (apart _ (by decide)) _ y

theorem answerView_respond (p : Fin 4) (r : Resp) (s : State) : answerView (respond p r s) = answerView s := answerView_pump p _

theorem answerView_probeStampAt {k : Nat} (h : k < 8) (t : Nat) (s : State) : answerView (probeStampAt k t s) = answerView s :=
  answerView_rgSet (by simp only [WLK, WLK_STATUS_RSVCTX, TXN, TXN_PROBE_STAMP_STAMP]; omega) _ s

theorem answerView_probeService (p : Fin 4) (k : BitVec 12) (seq : BitVec 16) (t : Nat) (s : State) : answerView (probeService p k seq t s) = answerView s := by
  unfold probeService
  split
  · exact answerView_probeStampAt (by decide) t s
  · rfl

theorem answerView_probeEnd (p : Fin 4) (k : BitVec 12) (seq : BitVec 16) (s : State) : answerView (probeEnd p k seq s) = answerView s := by
  unfold probeEnd
  split
  · exact (answerView_rgSet (by decide) _ _).trans ((answerView_probeStampAt (by decide) _ _).trans (answerView_probeStampAt (by decide) _ s))
  · rfl

theorem answerView_lastRef (p : Fin 4) (k : BitVec 12) (code sub : Nat) (s : State) : answerView (lastRef p k code sub s) = answerView s := answerView_rgSet (by decide) _ s

theorem answerView_countFinal (f : Final) (dup : Bool) (s : State) : answerView (countFinal f dup s) = answerView s := by
  unfold countFinal
  split
  · exact answerView_rgSet (by decide) _ s
  · split
    · rfl
    · split <;> exact answerView_rgSet (by decide) _ s

/-! ### What it leaves of the journal and the streams -/

/-- The entries of a ring that a descriptor's USE counts (07 R212). -/
def walkLeft (d : Nat) (e : JEntry) : Bool := e.opc == .walk && e.target.toNat = d && !e.recorded

/-- From `s` to `t` the walk engine stands as it was, no descriptor's USE has risen, and a settled state has stayed settled. -/
structure WalkKept (s t : State) : Prop where
  view : walkView t = walkView s
  left : ∀ c d, (t.ring c).entries.countP (walkLeft d) ≤ (s.ring c).entries.countP (walkLeft d)
  settled : settled s → settled t

namespace WalkKept
variable {s t u : State}

theorem of_view (h : answerView t = answerView s) : WalkKept s t where
  view := congrArg (·.1) h
  left c d := Nat.le_of_eq (congrArg (fun r => (r[c] : Ring).entries.countP (walkLeft d)) (congrArg (·.2.1) h))
  settled hs := settled_congr hs (congrArg (·.1.1) h) (congrArg (·.2.2) h)

theorem refl (s : State) : WalkKept s s := of_view rfl

theorem trans (h : WalkKept s t) (k : WalkKept t u) : WalkKept s u where
  view := k.view.trans h.view
  left c d := (k.left c d).trans (h.left c d)
  settled hs := k.settled (h.settled hs)

section
variable (h : WalkKept s t)
include h

theorem caravans : t.caravans = s.caravans := congrArg (·.1) h.view
theorem wreads : t.wreads = s.wreads := congrArg (·.2.1) h.view
theorem walks : t.walks = s.walks := congrArg (·.2.2.1) h.view
theorem d8 : t.d8 = s.d8 := congrArg (·.2.2.2.1) h.view
theorem dram : t.dram = s.dram := congrArg (·.2.2.2.2.1) h.view
theorem wmem : t.wmem = s.wmem := congrArg (·.2.2.2.2.2.1) h.view
theorem rsvctx : fget t WLK WLK_STATUS_RSVCTX = fget s WLK WLK_STATUS_RSVCTX := congrArg (·.2.2.2.2.2.2) h.view

end

theorem wdUse_le (h : WalkKept s t) (d : Nat) : wdUse t d ≤ wdUse s d := by
  unfold wdUse
  rw [h.caravans]
  refine Nat.add_le_add_right (List.sum_le_sum fun c _ => ?_) _
  have le := h.left c d
  rw [List.countP_eq_length_filter, List.countP_eq_length_filter] at le
  exact le

/-- A stream record is replaced by one that has as many requests waiting. -/
theorem setStrm {p : Fin 4} {k : BitVec 12} {r : StreamRec} (h : r.waiting = (s.strm p k).waiting) : WalkKept s (setStrm p k r s) where
  view := rfl
  left _ _ := Nat.le_refl _
  settled hs := settled_setStrm hs p k (h.trans (strm_waiting hs p k))

/-- A ring is replaced by one with no more walks left. -/
theorem updRing {c : Fin 16} {f : Ring → Ring} (h : ∀ d, (f (s.ring c)).entries.countP (walkLeft d) ≤ (s.ring c).entries.countP (walkLeft d)) :
    WalkKept s (updRing c f s) where
  view := rfl
  left b d := by
    by_cases same : c = b
    · subst same
      have ring : (Machine.updRing c f s).ring c = f (s.ring c) := by simp [State.ring, Machine.updRing]
      exact ring ▸ h d
    · have ring : (Machine.updRing c f s).ring b = s.ring b := by
        have : c.val ≠ b.val := fun e => same (Fin.ext e)
        simp [State.ring, Machine.updRing, this]
      exact Nat.le_of_eq (ring ▸ rfl)
  settled hs := settled_congr hs rfl rfl

/-- An entry that changes is walked no more than before. -/
theorem updEntry (c : Fin 16) (slot : Nat) (f : JEntry → JEntry) (s : State) (h : ∀ d e, walkLeft d (f e) = true → walkLeft d e = true) :
    WalkKept s (updEntry c slot f s) := by
  refine updRing fun d => ?_
  unfold writeCopies
  split
  · exact Nat.le_refl _
  case h_2 e found =>
    obtain ⟨inside, same⟩ := List.getElem?_eq_some_iff.mp found
    show List.countP _ (List.set _ _ _) ≤ _
    rw [List.countP_set inside, same]
    have counted : (if walkLeft d e then 1 else 0) ≤ (s.ring c).entries.countP (walkLeft d) := by
      split
      case isTrue left => exact List.countP_pos_iff.mpr ⟨e, same ▸ List.getElem_mem inside, left⟩
      · exact Nat.zero_le _
    have kept : (if walkLeft d (f e) then 1 else 0) ≤ if walkLeft d e then 1 else 0 := by
      split
      case isTrue left => rw [if_pos (h d e left)]
      · exact Nat.zero_le _
    omega

theorem retireFuel (n : Nat) (c : Fin 16) (s : State) : WalkKept s (retireFuel n c s) := by
  induction n generalizing s with
  | zero => exact refl s
  | succ n ih =>
    unfold Machine.retireFuel
    split
    · exact refl s
    case h_2 e rest entries =>
      split
      · have dropped : WalkKept s (Machine.updRing c (fun r => { r with head := (r.head + 1) % 4096, entries := rest, copyB := r.copyB.drop 1 }) s) :=
          updRing fun d => (entries ▸ (List.sublist_cons_self e rest).countP_le : rest.countP (walkLeft d) ≤ (s.ring c).entries.countP (walkLeft d))
        exact (dropped.trans (u := charge 0x08 1 (some e.man) _) (of_view rfl)).trans (ih _)
      · exact refl s

theorem ringStat (c : Fin 16) (s : State) : WalkKept s (ringStat c s) := by
  have apart : ∀ f : Fld, WLK + WLK_STATUS_RSVCTX.off ≠ JRN + f.off := fun f => by
    simp only [WLK, WLK_STATUS_RSVCTX, JRN]
    omega
  unfold Machine.ringStat fmax
  extract_lets w
  refine of_view ?_
  split
  · exact (answerView_rgSet (apart _) _ _).trans (answerView_rgSet (apart _) _ s)
  · exact answerView_rgSet (apart _) _ s

theorem retire (c : Fin 16) (s : State) : WalkKept s (retire c s) := (retireFuel _ c s).trans (ringStat c _)

theorem syncService (p : Fin 4) (k : BitVec 12) (s : State) : WalkKept s (syncService p k s) := by
  unfold Machine.syncService
  extract_lets r
  split
  · exact refl s
  case h_2 y pending =>
    extract_lets f record recorded counted answered
    split
    · have recorded_kept : WalkKept s recorded := setStrm rfl
      have counted_kept : WalkKept recorded counted := of_view ((answerView_countFinal _ _ _).trans (answerView_probeService _ _ _ _ _))
      have answered_kept : WalkKept counted answered := by
        unfold answered
        split
        · exact of_view (answerView_respond _ _ _)
        · exact refl _
      exact recorded_kept.trans (counted_kept.trans (answered_kept.trans (of_view (answerView_probeEnd _ _ _ _))))
    · exact refl s

theorem recordFin_waiting (r : StreamRec) (e : JEntry) (f : Final) (walk : List Slot) : (recordFin r e f walk).waiting = r.waiting := by
  unfold recordFin
  split <;> rfl

theorem outcome (c : Fin 16) (slot : Nat) (f : Final) (data : List Slot) (quiet : Bool) (s : State) : WalkKept s (outcome c slot f data quiet s) := by
  unfold Machine.outcome
  split
  · exact refl s
  case h_2 e found =>
    split
    · exact refl s
    extract_lets r recorded stored served
    have recorded_kept : WalkKept s recorded := updEntry c slot _ s fun d e left => by simp [walkLeft] at left
    have stored_kept : WalkKept recorded stored := setStrm (recordFin_waiting _ _ _ _)
    have served_kept : WalkKept stored served := by
      unfold served
      split
      · exact of_view (answerView_probeService _ _ _ _ _)
      · exact refl _
    split
    · exact recorded_kept
    case h_2 w _ =>
      split
      · exact recorded_kept
      extract_lets silent counted faulted answered
      have counted_kept : WalkKept served counted := by
        unfold counted
        split
        · exact refl _
        · exact of_view (answerView_countFinal _ _ _)
      have faulted_kept : WalkKept counted faulted := by
        unfold faulted
        split
        · split
          · exact refl _
          · exact of_view (answerView_lastRef _ _ _ _ _)
        · exact refl _
      have answered_kept : WalkKept faulted answered := by
        unfold answered
        split
        · exact of_view (answerView_respond _ _ _)
        · exact refl _
      have sent := recorded_kept.trans (stored_kept.trans (served_kept.trans (counted_kept.trans (faulted_kept.trans answered_kept))))
      exact sent.trans ((of_view (answerView_probeEnd _ _ _ _)).trans (syncService _ _ _))

theorem servePoint (c : Fin 16) (slot : Nat) (s : State) : WalkKept s (servePoint c slot s) := by
  unfold Machine.servePoint
  split
  · exact refl s
  · exact (updEntry c slot (fun e => { e with served := some s.ns }) s fun _ _ left => left).trans (of_view (answerView_probeService _ _ _ _ _))

theorem releaseSlots (c : Fin 16) (slot : Nat) (partner : Bool) (s : State) : WalkKept s (releaseSlots c slot partner s) := of_view rfl

/-- With no caravan to void, voiding touches the runs of queues alone. -/
theorem voidRuns (h : s.caravans = []) (p : Fin 4) (k : BitVec 12) (seq : BitVec 16) (id : Nat) : WalkKept s (voidRuns p k seq id s) := by
  have none : (Machine.voidRuns p k seq id s).caravans = s.caravans := (voidRuns_caravans h p k seq id).trans h.symm
  exact of_view (by simp only [answerView, walkView, none]; rfl)

/-- The results of a walk are answered (02 R62, 07 R218). -/
theorem caravanEnd {c : Caravan} (gone : (endCaravan c s).caravans = []) (keys : List KeySt) : WalkKept (endCaravan c s) (caravanEnd c keys s) := by
  unfold Machine.caravanEnd
  split
  case h_1 x again =>
    extract_lets voided
    have voided_kept : WalkKept (endCaravan c s) voided := voidRuns gone _ _ _ _
    split
    · exact voided_kept.trans (of_view (answerView_respond _ _ _))
    · exact voided_kept
  case h_2 first =>
    extract_lets served durable
    have served_kept : WalkKept (endCaravan c s) served := servePoint _ _ _
    split
    · exact served_kept
    case h_2 e found =>
      have durable_kept : WalkKept served durable := updEntry _ _ (fun e => { e with durable := true }) _ fun _ _ left => left
      have recorded := served_kept.trans (durable_kept.trans (outcome c.ring c.entry (doneFor e (walkInfo keys c.waited c.bypassed) false) (walkSlots keys) false durable))
      exact recorded.trans ((releaseSlots _ _ _ _).trans (retire _ _))

end WalkKept

/-! ### A caravan ends -/

theorem startWanted_idle {h : Nat} {s : State} (idle : (s.walkRt h).wanted = []) : startWanted h s = setWalkRt h { s.walkRt h with wanted := [] } s := by
  unfold startWanted
  rw [idle]
  rfl

theorem startContext_empty {s : State} (h : s.caravans = []) (d : Nat) : startContext d s = s := by
  unfold startContext
  rw [h]
  rfl

/-- The context of a caravan is free again (07 R218). -/
def contextFreed (c : Caravan) (s : State) : State :=
  if c.reserve then fset WLK WLK_STATUS_RSVCTX (fget s WLK WLK_STATUS_RSVCTX - 1) s
  else setWalkRt c.desc { s.walkRt c.desc with ctx := (s.walkRt c.desc).ctx - 1 } s

/-- A state in which the only caravan and its reads have gone. -/
def caravanGone (c : Caravan) (s : State) : State :=
  { s with caravans := [], wreads := s.wreads.filter fun r => r.image || !(r.a = c.ring.val && r.b = c.entry) }

/-- The only caravan leaves, where no image load waits for a slot. -/
def endedAlone (c : Caravan) (s : State) : State :=
  let y := contextFreed c (caravanGone c s)
  setWalkRt c.desc { y.walkRt c.desc with wanted := [] } y

/-- Where no caravan is left, a descriptor's USE counts the journal alone (07 R212). -/
theorem wdUse_le_of_empty {s t : State} (rings : t.rings = s.rings) (gone : t.caravans = []) (d : Nat) : wdUse t d ≤ wdUse s d := by
  unfold wdUse State.ring
  rw [rings, gone]
  exact Nat.add_le_add_left (Nat.zero_le _) _

section
variable {c : Caravan} {s : State}

theorem contextFreed_walkRt (c : Caravan) (s : State) :
    (contextFreed c s).walkRt c.desc = { s.walkRt c.desc with ctx := if c.reserve then (s.walkRt c.desc).ctx else (s.walkRt c.desc).ctx - 1 } := by
  unfold contextFreed
  split
  · rfl
  · exact setWalkRt_walkRt _ _ _

theorem contextFreed_inv {β : Type} (g : State → β) (freed : ∀ v s, g (fset WLK WLK_STATUS_RSVCTX v s) = g s) (walks : ∀ w s, g { s with walks := w } = g s)
    (c : Caravan) (s : State) : g (contextFreed c s) = g s := by
  unfold contextFreed
  split
  · exact freed _ s
  · exact walks _ s

theorem endCaravan_alone (only : ∀ x ∈ s.caravans, x.ring = c.ring ∧ x.entry = c.entry) (idle : (s.walkRt c.desc).wanted = []) :
    endCaravan c s = endedAlone c s := by
  have left : s.caravans.filter (fun x => !(x.ring = c.ring && x.entry = c.entry)) = [] := List.filter_eq_nil_iff.mpr fun x m => by simp [only x m]
  have idle' : ((contextFreed c (caravanGone c s)).walkRt c.desc).wanted = [] := (congrArg WalkRt.wanted (contextFreed_walkRt c _)).trans idle
  have gone : (contextFreed c (caravanGone c s)).caravans = [] := contextFreed_inv (·.caravans) (fun _ _ => rfl) (fun _ _ => rfl) c _
  have ended : endCaravan c s = startContext c.desc (startWanted c.desc (contextFreed c (caravanGone c s))) := by
    unfold endCaravan
    rw [left]
    rfl
  rw [ended, startWanted_idle idle']
  exact startContext_empty (s := endedAlone c s) gone c.desc

/-- What a caravan that ends leaves as it was: time, memory, the journal and the streams. -/
theorem endedAlone_inv {β : Type} (g : State → β) (freed : ∀ v s, g (fset WLK WLK_STATUS_RSVCTX v s) = g s)
    (walk : ∀ w c r s, g { s with walks := w, caravans := c, wreads := r } = g s) (c : Caravan) (s : State) : g (endedAlone c s) = g s := by
  have walks : ∀ w s, g { s with walks := w } = g s := fun w s => walk w s.caravans s.wreads s
  exact (walks _ _).trans ((contextFreed_inv g freed walks c _).trans (walk s.walks _ _ s))

theorem endedAlone_caravans (c : Caravan) (s : State) : (endedAlone c s).caravans = [] := contextFreed_inv (·.caravans) (fun _ _ => rfl) (fun _ _ => rfl) c _

theorem endedAlone_wreads (c : Caravan) (s : State) : (endedAlone c s).wreads = s.wreads.filter fun r => r.image || !(r.a = c.ring.val && r.b = c.entry) :=
  contextFreed_inv (·.wreads) (fun _ _ => rfl) (fun _ _ => rfl) c _

theorem endedAlone_ctx (h : c.reserve = false) : ((endedAlone c s).walkRt c.desc).ctx = (s.walkRt c.desc).ctx - 1 := by
  refine (congrArg WalkRt.ctx ((setWalkRt_walkRt _ _ _).trans (congrArg (fun x : WalkRt => { x with wanted := [] }) (contextFreed_walkRt c _)))).trans ?_
  rw [h]
  rfl

theorem endedAlone_rsvctx (h : c.reserve = true) : fget (endedAlone c s) WLK WLK_STATUS_RSVCTX = fget s WLK WLK_STATUS_RSVCTX - 1 := by
  have freed : contextFreed c (caravanGone c s) = fset WLK WLK_STATUS_RSVCTX (fget s WLK WLK_STATUS_RSVCTX - 1) (caravanGone c s) := if_pos h
  have bound := fget_lt s WLK WLK_STATUS_RSVCTX
  refine (congrArg (fget · WLK WLK_STATUS_RSVCTX) freed).trans ?_
  rw [fget_fset _ _ _ _ (by decide)]
  exact Nat.mod_eq_of_lt (by omega)

end

/-! ### A stage ends -/

/-- A stage whose keys its image resolves has been charged (12 R352). -/
def stageCharged (c : Caravan) (s : State) : State :=
  let who := if c.dup.isSome then none else some c.man
  let read := ((keysRange s c.man.toNat c.desc c.stage c.keys).filter fun k => k.res.isNone).length
  charge 0x00 read who (charge 0x0B (c.keys.filter fun k => k.res.isNone).length who s)

/-- Such a stage has ended: the caravan holds its keys, and its reads are gone (07 R220). -/
def stageLeft (c : Caravan) (keys : List KeySt) (s : State) : State :=
  updCaravan c.ring c.entry (fun c => { c with keys := keys, ph := .start })
    { stageCharged c s with wreads := s.wreads.filter fun r => r.image || !(r.a = c.ring.val && r.b = c.entry) }

section
variable {c : Caravan} {keys : List KeySt} {s : State}

theorem caravanStageEnd_last (found : s.caravan c.ring c.entry = some c) (image : c.ph = .image) (resolved : imageKeys s c = some keys)
    (last : c.stage + 1 = wdStages s c.desc) : caravanStageEnd c.ring c.entry s = caravanEnd c keys (stageLeft c keys s) := by
  have ended : ¬ c.stage + 1 < wdStages (stageLeft c keys s) c.desc := Nat.not_lt.mpr (Nat.le_of_eq last.symm)
  unfold caravanStageEnd
  rw [found]
  simp only [image, resolved]
  exact if_neg ended

/-- The keys of the caravan change, and its reads go once. -/
theorem endedAlone_stageLeft_wreads : (endedAlone c (stageLeft c keys s)).wreads = s.wreads.filter fun r => r.image || !(r.a = c.ring.val && r.b = c.entry) := by
  refine (endedAlone_wreads c _).trans ?_
  show List.filter _ (List.filter _ s.wreads) = _
  rw [List.filter_filter]
  simp only [Bool.and_self]

/-- A stage that ends and a caravan that leaves change the walk engine, energy and the reserve contexts in use alone. -/
theorem endedAlone_stageLeft_inv {β : Type} (g : State → β) (freed : ∀ v s, g (fset WLK WLK_STATUS_RSVCTX v s) = g s)
    (walk : ∀ w c r s, g { s with walks := w, caravans := c, wreads := r } = g s) (charged : ∀ i n m s, g (charge i n m s) = g s)
    (c : Caravan) (keys : List KeySt) (s : State) : g (endedAlone c (stageLeft c keys s)) = g s := by
  have left : g (stageLeft c keys s) = g (stageCharged c s) := walk s.walks _ _ (stageCharged c s)
  exact (endedAlone_inv g freed walk c _).trans (left.trans ((charged _ _ _ _).trans (charged _ _ _ s)))

theorem endedAlone_stageLeft_wdUse (c : Caravan) (keys : List KeySt) (s : State) (d : Nat) : wdUse (endedAlone c (stageLeft c keys s)) d ≤ wdUse s d := by
  have rings : (endedAlone c (stageLeft c keys s)).rings = s.rings := endedAlone_stageLeft_inv (·.rings) (fun _ _ => rfl) (fun _ _ _ _ => rfl) (fun _ _ _ _ => rfl) c keys s
  exact wdUse_le_of_empty rings (endedAlone_caravans c _) d

/-- A lone caravan that has ended its last stage is answered, and nothing follows. -/
theorem caravanStageEnd_kept (only : s.caravans = [c]) (idle : (s.walkRt c.desc).wanted = []) (image : c.ph = .image) (resolved : imageKeys s c = some keys)
    (last : c.stage + 1 = wdStages s c.desc) : WalkKept (endedAlone c (stageLeft c keys s)) (caravanStageEnd c.ring c.entry s) := by
  have found : s.caravan c.ring c.entry = some c := by simp [State.caravan, only]
  have own : ∀ x ∈ (stageLeft c keys s).caravans, x.ring = c.ring ∧ x.entry = c.entry := by simp [stageLeft, stageCharged, updCaravan, only]
  have ended : endCaravan c (stageLeft c keys s) = endedAlone c (stageLeft c keys s) := endCaravan_alone own idle
  rw [caravanStageEnd_last found image resolved last]
  exact ended ▸ WalkKept.caravanEnd ((congrArg State.caravans ended).trans (endedAlone_caravans c _)) keys

end

theorem caravanStageEnd_none {ring : Fin 16} {n : Nat} {s : State} (h : s.caravan ring n = none) : caravanStageEnd ring n s = s := by
  unfold caravanStageEnd
  rw [h]

theorem caravan_empty {s : State} (h : s.caravans = []) (ring : Fin 16) (n : Nat) : s.caravan ring n = none := by
  unfold State.caravan
  rw [h]
  rfl

/-! ### An image is loaded -/

/-- The slot whose image has arrived (07 R221). -/
def arrivedSlot (x : ImgSlot) : ImgSlot := { x with present := true, loaded := x.total }

/-- The descriptor whose image has arrived in a slot: the image's reads go, and the load is counted once (07 R221). -/
def imageArrived (h k : Nat) (x : ImgSlot) (s : State) : State :=
  setWalkRt h { s.walkRt h with slots := (s.walkRt h).slots.set k (arrivedSlot x) }
    (onlyIf (x.loaded == 0) (fbump WLK WLK_LOAD_COUNT) { s with wreads := s.wreads.filter fun r => !(r.image && r.a = h && r.b = k) })

/-- The image serves the caravans that wait for it, which makes it the one most recently used where there are any (07 R221). -/
def imageServed (waits : Bool) (resume : Caravan → Caravan) (h k : Nat) (x : ImgSlot) (s : State) : State :=
  let y := onlyIf waits (useSlot h k) (imageArrived h k x s)
  { y with caravans := y.caravans.map resume }

section
variable {h k st : Nat} {x : ImgSlot} {s : State}

theorem imageLoaded_waits (slot : (s.walkRt h).slots[k]? = some x) (waits : x.present = true ∨ x.stage = none ∨ x.loaded + (imageReads s h k).length ≠ x.total) :
    imageLoaded h k s = s := by
  unfold imageLoaded
  extract_lets rt l
  rw [show rt.slots[k]? = some x from slot]
  cases stage : x.stage with
  | none => simp only [stage]
  | some st =>
    have held : x.present = true ∨ x.loaded + l.length ≠ x.total ∨ (l.any fun r => r.back.isNone) = true := by
      rcases waits with present | none | short
      · exact .inl present
      · exact absurd none (by simp [stage])
      · exact .inr (.inl short)
    simp only [stage]
    exact if_pos held

/-- Every line of an image is back: the image is present, the caravans that wait for it resolve from it, and loads that wait for a slot begin (07 R221). -/
theorem imageLoaded_done (slot : (s.walkRt h).slots[k]? = some x) (stage : x.stage = some st) (absent : x.present = false)
    (whole : x.loaded + (imageReads s h k).length = x.total) (back : ∀ r ∈ imageReads s h k, r.back.isSome = true) :
    ∃ waits resume, imageLoaded h k s = startWanted h (imageServed waits resume h k x s) ∧
      ∀ c : Caravan, (resume c).desc = h → (resume c).stage = st → ∀ n, (resume c).ph ≠ .waiting n := by
  have arrived : (imageReads s h k).any (fun r => r.back.isNone) = false := List.any_eq_false.mpr fun r m => by
    simp [Option.isSome_iff_ne_none.mp (back r m)]
  have done : ¬(x.present = true ∨ x.loaded + (imageReads s h k).length ≠ x.total ∨ (imageReads s h k).any (fun r => r.back.isNone) = true) := by
    simp [absent, whole, arrived]
  unfold imageLoaded
  extract_lets rt l gone
  split
  case h_1 none => exact nomatch none.symm.trans slot
  case h_2 y found =>
    obtain rfl : y = x := Option.some.inj (found.symm.trans slot)
    split
    case h_1 none => exact nomatch none.symm.trans stage
    case h_2 n found =>
      obtain rfl : n = st := Option.some.inj (found.symm.trans stage)
      rw [if_neg done]
      extract_lets counted waits ready
      refine ⟨waits, _, rfl, fun c => ?_⟩
      split
      case isTrue mine =>
        split
        · exact fun _ _ _ => nofun
        case h_2 other => exact fun _ _ n => other n
      case isFalse others => exact fun desc stage => absurd ⟨desc, stage⟩ others

theorem useSlot_walkRt (h k : Nat) (s : State) :
    (useSlot h k s).walkRt h = { s.walkRt h with uses := (s.walkRt h).uses + 1, slots := (s.walkRt h).slots.modify k fun x => { x with used := (s.walkRt h).uses + 1 } } :=
  setWalkRt_walkRt _ _ _

/-- The image of slot `k` of a descriptor is present and is of stage `st`. -/
def imagePresent (h k st : Nat) (s : State) : Prop :=
  ((s.walkRt h).slots[k]?).map ImgSlot.present = some true ∧ ((s.walkRt h).slots[k]?).map ImgSlot.stage = some (some st)

theorem imageArrived_present (slot : (s.walkRt h).slots[k]? = some x) (stage : x.stage = some st) : imagePresent h k st (imageArrived h k x s) := by
  have inside := (List.getElem?_eq_some_iff.mp slot).1
  have placed : ((imageArrived h k x s).walkRt h).slots[k]? = some (arrivedSlot x) := by
    rw [imageArrived, setWalkRt_walkRt]
    exact List.getElem?_set_self inside
  unfold imagePresent
  rw [placed]
  exact ⟨rfl, congrArg some stage⟩

theorem useSlot_present {y : State} (present : imagePresent h k st y) : imagePresent h k st (useSlot h k y) := by
  obtain ⟨here, stage⟩ := present
  obtain ⟨z, found, here⟩ := Option.map_eq_some_iff.mp here
  rw [found] at stage
  unfold imagePresent
  rw [useSlot_walkRt]
  simp only [List.getElem?_modify, if_true, found]
  exact ⟨congrArg some here, stage⟩

theorem imageServed_present (waits : Bool) (resume : Caravan → Caravan) (slot : (s.walkRt h).slots[k]? = some x) (stage : x.stage = some st) :
    imagePresent h k st (imageServed waits resume h k x s) := by
  have arrived := imageArrived_present slot stage
  show imagePresent h k st (onlyIf waits (useSlot h k) (imageArrived h k x s))
  unfold onlyIf
  split
  · exact useSlot_present arrived
  · exact arrived

theorem imageServed_wanted (waits : Bool) (resume : Caravan → Caravan) (h k : Nat) (x : ImgSlot) (s : State) :
    ((imageServed waits resume h k x s).walkRt h).wanted = (s.walkRt h).wanted := by
  have used : ∀ y, ((useSlot h k y).walkRt h).wanted = (y.walkRt h).wanted := fun y => (congrArg WalkRt.wanted (useSlot_walkRt h k y)).trans rfl
  have arrived : ((imageArrived h k x s).walkRt h).wanted = (s.walkRt h).wanted := (congrArg WalkRt.wanted (setWalkRt_walkRt h _ _)).trans rfl
  exact (onlyIf_inv (fun y : State => (y.walkRt h).wanted) _ _ _ used).trans arrived

/-- An image that arrives changes its descriptor's slots, the caravans and its reads, and counts the load. -/
theorem imageServed_inv {β : Type} (g : State → β) (walk : ∀ w c s, g { s with walks := w, caravans := c } = g s) (waits : Bool) (resume : Caravan → Caravan)
    (h k : Nat) (x : ImgSlot) (s : State) :
    g (imageServed waits resume h k x s) =
      g (onlyIf (x.loaded == 0) (fbump WLK WLK_LOAD_COUNT) { s with wreads := s.wreads.filter fun r => !(r.image && r.a = h && r.b = k) }) := by
  have walks : ∀ w s, g { s with walks := w } = g s := fun w s => walk w s.caravans s
  have used := onlyIf_inv g waits (useSlot h k) (imageArrived h k x s) fun y => walks _ y
  exact (walk _ _ _).trans (used.trans (walks _ _))

theorem imageServed_wreads (waits : Bool) (resume : Caravan → Caravan) (h k : Nat) (x : ImgSlot) (s : State) :
    (imageServed waits resume h k x s).wreads = s.wreads.filter fun r => !(r.image && r.a = h && r.b = k) :=
  (imageServed_inv (·.wreads) (fun _ _ _ => rfl) waits resume h k x s).trans (onlyIf_inv (·.wreads) _ _ _ fun _ => rfl)

theorem imageServed_d8 (waits : Bool) (resume : Caravan → Caravan) (h k : Nat) (x : ImgSlot) (s : State) : (imageServed waits resume h k x s).d8 = s.d8 :=
  (imageServed_inv (·.d8) (fun _ _ _ => rfl) waits resume h k x s).trans (onlyIf_inv (·.d8) _ _ _ fun _ => rfl)

theorem imageServed_loadCount (waits : Bool) (resume : Caravan → Caravan) (h k : Nat) (x : ImgSlot) (s : State) :
    fget (imageServed waits resume h k x s) WLK WLK_LOAD_COUNT = if x.loaded = 0 then min (fget s WLK WLK_LOAD_COUNT + 1) (2 ^ 32 - 1) else fget s WLK WLK_LOAD_COUNT := by
  refine (imageServed_inv (fget · WLK WLK_LOAD_COUNT) (fun _ _ _ => rfl) waits resume h k x s).trans ?_
  unfold onlyIf
  split
  case isTrue first => exact (fget_fbump WLK WLK_LOAD_COUNT _ (by decide)).trans (if_pos (eq_of_beq first)).symm
  case isFalse later => exact (if_neg fun first => later (beq_iff_eq.mpr first)).symm

end

/-! ### A hold runs out -/

/-- A change of a caravan that leaves its place in the journal is found where the caravan was. -/
theorem caravan_updCaravan {f : Caravan → Caravan} (placed : ∀ c, (f c).ring = c.ring ∧ (f c).entry = c.entry) (ring : Fin 16) (n : Nat) (s : State) :
    (updCaravan ring n f s).caravan ring n = (s.caravan ring n).map f := by
  have same : ((fun c : Caravan => c.ring = ring && c.entry = n : Caravan → Bool) ∘ fun c => if c.ring = ring ∧ c.entry = n then f c else c) =
      fun c => c.ring = ring && c.entry = n := funext fun c => by
    obtain ⟨fring, fentry⟩ := placed c
    dsimp only [Function.comp]
    split <;> simp only [fring, fentry]
  unfold State.caravan updCaravan
  rw [List.find?_map, same]
  refine Option.map_congr fun c found => if_pos ?_
  simpa using List.find?_some found

theorem lineStage_caravan {ring : Fin 16} {n : Nat} {c : Caravan} {s : State} (found : s.caravan ring n = some c) :
    (lineStage ring n s).caravan ring n = some { c with ph := .lines, keys := keysRange s c.man.toNat c.desc c.stage c.keys } := by
  unfold lineStage
  rw [found]
  dsimp only
  refine (forAll_inv (fun s : State => s.caravan ring n) _ _ _ fun _ _ => by rfl).trans ((caravan_updCaravan (fun _ => by exact ⟨rfl, rfl⟩) ring n s).trans ?_)
  rw [found]
  rfl

/-- A stage that is read line by line begins with reads, counted as gathers, and its caravan's keys. -/
theorem lineStage_inv {β : Type} (g : State → β) (caravans : ∀ c s, g { s with caravans := c } = g s) (reads : ∀ r s, g { s with wreads := r } = g s)
    (counted : ∀ s, g (fbump WLK WLK_GATHER_COUNT s) = g s) (ring : Fin 16) (n : Nat) (s : State) : g (lineStage ring n s) = g s := by
  unfold lineStage
  split
  · rfl
  · exact (forAll_inv g _ _ _ fun _ y => (reads _ _).trans (counted y)).trans (caravans _ s)

section
variable {ring : Fin 16} {n since : Nat} {c : Caravan} {s : State}

theorem bypassStage_caravan (found : s.caravan ring n = some c) :
    ∃ keys, (bypassStage ring n s).caravan ring n = some { c with bypassed := c.bypassed + 1, ph := .lines, keys := keys } := by
  have passed : (fbump WLK WLK_BYPASS_COUNT (updCaravan ring n (fun c => { c with bypassed := c.bypassed + 1 }) s)).caravan ring n = some { c with bypassed := c.bypassed + 1 } := by
    refine (caravan_updCaravan (fun _ => by exact ⟨rfl, rfl⟩) ring n s).trans ?_
    rw [found]
    rfl
  exact ⟨_, lineStage_caravan passed⟩

theorem bypassStage_d8 (ring : Fin 16) (n : Nat) (s : State) : (bypassStage ring n s).d8 = s.d8 := lineStage_inv (·.d8) (fun _ _ => rfl) (fun _ _ => rfl) (fun _ => rfl) ring n _

theorem fget_bypassStage (ring : Fin 16) (n : Nat) (s : State) :
    fget (bypassStage ring n s) WLK WLK_BYPASS_COUNT = min (fget s WLK WLK_BYPASS_COUNT + 1) (2 ^ 32 - 1) := by
  refine (lineStage_inv (fget · WLK WLK_BYPASS_COUNT) (fun _ _ => rfl) (fun _ _ => rfl) (fun y => fget_fbump_ne _ _ _ _ y (by decide)) ring n _).trans ?_
  exact fget_fbump WLK WLK_BYPASS_COUNT _ (by decide)

theorem holdExpiry_none (h : s.caravan ring n = none) : holdExpiry ring n s = s := by
  unfold holdExpiry
  rw [h]

theorem holdExpiry_waiting (found : s.caravan ring n = some c) (waiting : c.ph = .waiting since) :
    holdExpiry ring n s = bypassStage ring n (advanceToNs (since + wdHoldNs s c.desc) s) := by
  unfold holdExpiry
  rw [found]
  simp only [waiting]

end

/-! ### A walk read is tried again -/

theorem readRetry_none {i : Nat} {s : State} (h : (s.wreads[i]?).bind WalkRead.retryAt = none) : readRetry i s = s := by
  unfold readRetry
  cases read : s.wreads[i]? with
  | none => rfl
  | some r =>
    rw [read] at h
    simp only [show r.retryAt = none from h]

theorem readRetry_due {i t : Nat} {r : WalkRead} {s : State} (read : s.wreads[i]? = some r) (due : r.retryAt = some t) :
    readRetry i s = { advanceToNs t s with wreads := s.wreads.set i { r with retryAt := none } } := by
  have wreads : (advanceToNs t s).wreads = s.wreads := rfl
  unfold readRetry
  rw [read]
  simp only [due]
  unfold updRead
  rw [wreads, List.modify_eq_set_getElem?, read]
  rfl

/-! ### The statement -/

theorem advanceToNs_d8 (n : Nat) (s : State) : (advanceToNs n s).d8 = firstCycle8 s (8 * n) := congrArg (firstCycle8 s) (Nat.mul_comm n 8)

/-- Settles O41: each clause is the branch of its command, and the answer to a walk that ends changes nothing more of the walk engine. -/
theorem caravansMove : Obligations.CaravansMove := by
  unfold Obligations.CaravansMove
  refine ⟨?image, ?imageWaits, ?stageEnd, ?stageEndNone, ?stageEndStopped, ?hold, ?holdNone, ?retry, ?retryNone⟩
  case image =>
    intro h k st x s run slot stage absent whole back idle
    obtain ⟨waits, resume, done, resumed⟩ := imageLoaded_done slot stage absent whole back
    have e : exec (.stageImageLoaded h k) s = _ := congrArg Host.Outcome.next ((if_pos run).trans done)
    rw [startWanted_idle ((imageServed_wanted waits resume h k x s).trans idle)] at e
    have rt := setWalkRt_walkRt h { (imageServed waits resume h k x s).walkRt h with wanted := [] } (imageServed waits resume h k x s)
    obtain ⟨here, of⟩ := imageServed_present waits resume slot stage
    refine ⟨_, e, ?_, ?_, fun c m => ?_, imageServed_wreads waits resume h k x s, imageServed_loadCount waits resume h k x s, imageServed_d8 waits resume h k x s,
      exec_sameStore e rfl⟩
    · rw [rt]
      exact here
    · rw [rt]
      exact of
    · obtain ⟨c, -, rfl⟩ := List.mem_map.mp m
      exact resumed c
  case imageWaits =>
    intro h k x s slot waits
    refine congrArg Host.Outcome.next ?_
    rw [imageLoaded_waits slot waits, ite_self]
  case stageEnd =>
    rintro _ x n c keys u s run from_u rfl only rfl entry image resolved last quiet idle
    have kept := caravanStageEnd_kept only idle image resolved last
    have ended : settled (endedAlone c (stageLeft c keys s)) := by
      refine ⟨endedAlone_caravans c _, ?_⟩
      rw [endedAlone_stageLeft_inv (·.streams) (fun _ _ => rfl) (fun _ _ _ _ => rfl) fun _ _ _ _ => rfl]
      exact quiet
    have e : exec (.caravanStageEnd c.ring x) u = .next (caravanStageEnd c.ring c.entry s) := by
      refine congrArg Host.Outcome.next ((if_pos run).trans ?_)
      rw [← from_u, ← entry]
      exact settle_settled (kept.settled ended)
    refine ⟨_, e, kept.caravans.trans (endedAlone_caravans c _), ?_, (kept.wdUse_le _).trans (endedAlone_stageLeft_wdUse c keys s _), fun reserve => ?_, fun own => ?_, ?_, ?_, ?_⟩
    · rw [← entry]
      exact kept.wreads.trans endedAlone_stageLeft_wreads
    · exact kept.rsvctx.trans (endedAlone_rsvctx reserve)
    · exact (congrArg WalkRt.ctx (walkRt_congr kept.walks c.desc)).trans (endedAlone_ctx own)
    · exact kept.d8.trans (endedAlone_stageLeft_inv (·.d8) (fun _ _ => rfl) (fun _ _ _ _ => rfl) (fun _ _ _ _ => rfl) c keys s)
    · exact kept.dram.trans (endedAlone_stageLeft_inv (·.dram) (fun _ _ => rfl) (fun _ _ _ _ => rfl) (fun _ _ _ _ => rfl) c keys s)
    · exact kept.wmem.trans (endedAlone_stageLeft_inv (·.wmem) (fun _ _ => rfl) (fun _ _ _ _ => rfl) (fun _ _ _ _ => rfl) c keys s)
  case stageEndNone =>
    rintro ring x u s run rfl quiet
    refine congrArg Host.Outcome.next ((if_pos run).trans ?_)
    rw [caravanStageEnd_none (caravan_empty quiet.1 ring _), settle_settled quiet]
  case stageEndStopped => exact fun ring x s stopped => congrArg Host.Outcome.next (if_neg (ne_true_of_eq_false stopped))
  case hold =>
    intro ring n since c s run found waiting
    have e : exec (.walkHoldExpiry ring n) s = _ := congrArg Host.Outcome.next ((if_pos run).trans (holdExpiry_waiting found waiting))
    obtain ⟨keys, bypassed⟩ := bypassStage_caravan (s := advanceToNs (since + wdHoldNs s c.desc) s) found
    refine ⟨_, _, e, bypassed, rfl, rfl, rfl, rfl, (bypassStage_d8 _ _ _).trans (advanceToNs_d8 _ s), ?_, exec_sameStore e rfl⟩
    rw [fget_bypassStage]
    exact congrArg (fun v => min (v + 1) (2 ^ 32 - 1)) (fget_advanceTo8 _ s _ _)
  case holdNone =>
    rintro ring n s (stopped | none)
    · exact congrArg Host.Outcome.next (if_neg (ne_true_of_eq_false stopped))
    · refine congrArg Host.Outcome.next ?_
      rw [holdExpiry_none none, ite_self]
  case retry =>
    intro i t0 r s run read due
    have e : exec (.walkReadRetry i) s = _ := congrArg Host.Outcome.next ((if_pos run).trans (readRetry_due read due))
    exact ⟨_, e, rfl, advanceToNs_d8 t0 s, rfl, advanceTo8_regs (t0 * 8) s, exec_sameStore e rfl⟩
  case retryNone =>
    rintro i s (stopped | none)
    · exact congrArg Host.Outcome.next (if_neg (ne_true_of_eq_false stopped))
    · refine congrArg Host.Outcome.next ?_
      rw [readRetry_none none, ite_self]

end Sys2Proof.Proofs

/-! PROOF. What the work of the queue engine leaves as it was: its frames, blocks, stack and reads, and the answer to a request that has taken effect (08 R241 to R258). -/

namespace Sys2Proof.Proofs
open Sys2Proof Sys2Proof.Machine Sys2Proof.Laws

/-! ### Views beside the queue engine -/

/-- The registers of QUE that count what ENQs and DEQs do and the queues that fault: only these acts themselves write them. -/
def queueCounts : List Fld := [QUE_ENQ_CNT_COUNT, QUE_DEQ_CNT_COUNT, QUE_CELLS_IN_COUNT, QUE_CELLS_OUT_COUNT, QUE_DIRECT_COUNT, QUE_FAULT_COUNT]

/-- A register that is none of `queueCounts`. -/
abbrev Uncounting (a : Nat) : Prop := ∀ f ∈ queueCounts, QUE + f.off ≠ a

theorem uncounting_CH (c : Fin 16) (f : Fld) : Uncounting (CH c + f.off) := by
  intro g m
  have low : ∀ g ∈ queueCounts, g.off < 0x1000 := by decide
  have := low g m
  unfold QUE CH
  omega

/-- A view of the state that shows of the queue engine its descriptors, its plans and `queueCounts` at most, and neither the channels nor energy. -/
structure BesideEngine {β : Type} (g : State → β) : Prop where
  reg : ∀ a w s, Uncounting a → g (rgSet a w s) = g s
  parts : ∀ (s : State) led chans q, q.desc = s.que.desc → q.plans = s.que.plans → g { s with led := led, chans := chans, que := q } = g s

/-- A view that shows no plans of ENQs, nor anything of the queue engine but its descriptors. -/
abbrev Planless {β : Type} (g : State → β) : Prop := ∀ (s : State) q, q.desc = s.que.desc → g { s with que := q } = g s

section
variable {β : Type} {g : State → β} (h : BesideEngine g)
include h

theorem fset_engine {b : Nat} {f : Fld} (free : Uncounting (b + f.off)) (v : Nat) (s : State) : g (fset b f v s) = g s := h.reg _ _ s free

theorem fbumpN_engine {b : Nat} {f : Fld} (free : Uncounting (b + f.off)) (n : Nat) (s : State) : g (fbumpN b f n s) = g s := h.reg _ _ s free

theorem fsetB_engine {b : Nat} {f : Fld} (free : Uncounting (b + f.off)) (v : Bool) (s : State) : g (fsetB b f v s) = g s := h.reg _ _ s free

theorem fbump_engine {b : Nat} {f : Fld} (free : Uncounting (b + f.off)) (s : State) : g (fbump b f s) = g s := h.reg _ _ s free

theorem charge_engine (i n : Nat) (m : Option (BitVec 8)) (s : State) : g (charge i n m s) = g s := h.parts s _ s.chans s.que rfl rfl

theorem updChan_engine (c : Fin 16) (f : ChanState → ChanState) (s : State) : g (updChan c f s) = g s := h.parts s s.led _ s.que rfl rfl

theorem que_engine {q : QueueState} {s : State} {v : β} (before : g s = v) (desc : q.desc = s.que.desc) (plans : q.plans = s.que.plans) : g { s with que := q } = v :=
  (h.parts s s.led s.chans q desc plans).trans before

theorem setBrec_engine (b : Nat) (r : BlockRec) (s : State) : g (setBrec b r s) = g s := que_engine h rfl rfl rfl

theorem nextUse_engine (s : State) : g (nextUse s) = g s := que_engine h rfl rfl rfl

theorem setDramPsn_engine (c : Fin 16) (lam : Nat) (p : Bool) (s : State) : g (setDramPsn c lam p s) = g s := by
  unfold setDramPsn
  split <;> exact updChan_engine h _ _ s

theorem fillStat_engine (c : Fin 16) (s : State) : g (fillStat c s) = g s := by
  have filled := fset_engine h (uncounting_CH c CH_FILL_FILL)
  unfold fillStat fmax
  extract_lets n
  split
  · exact (fset_engine h (uncounting_CH c CH_FILL_HWM) _ _).trans (filled _ s)
  · exact filled _ s

/-! ### Frames -/

theorem queStat_engine (s : State) : g (queStat s) = g s := by
  unfold queStat
  extract_lets s1
  have shown : g s1 = g s := (fset_engine h (by decide) _ _).trans (fset_engine h (by decide) _ s)
  exact (fsetB_engine h (by decide) _ _).trans (que_engine h shown rfl rfl)

theorem setQfr_engine (f : Nat) (x : QFrame) (s : State) : g (setQfr f x s) = g s := (queStat_engine h _).trans (que_engine h rfl rfl rfl)

theorem freeQFrame_engine (f : Nat) (s : State) : g (freeQFrame f s) = g s := by
  unfold freeQFrame
  split
  · exact (setQfr_engine h _ _ _).trans ((fbump_engine h (by decide) _).trans (fset_engine h (by decide) _ s))
  · exact setQfr_engine h f _ s

theorem qWbDone_engine (b c : Nat) (s : State) : g (qWbDone b c s) = g s := by
  unfold qWbDone
  extract_lets s1
  have counted : g s1 = g s := fbump_engine h (by decide) s
  split
  · exact counted
  · extract_lets x y s2
    have cleaned : g s2 = g s := (setQfr_engine h _ _ _).trans counted
    split
    · exact cleaned
    · split
      · split
        · exact (setQfr_engine h _ _ _).trans cleaned
        · exact (freeQFrame_engine h _ _).trans cleaned
      · split
        · exact (freeQFrame_engine h _ _).trans cleaned
        · exact cleaned

theorem pushBg_engine (c : Fin 16) (k : BgCls) (x : Cmd) (s : State) : g (pushBg c k x s) = g s := updChan_engine h c _ s

theorem pushQueWb_engine (b c l : Nat) (man : Option (BitVec 8)) (s : State) : g (pushQueWb b c l man s) = g s := by
  unfold pushQueWb
  split
  · rfl
  · split
    · exact pushBg_engine h _ _ _ s
    · exact (qWbDone_engine h b c _).trans (setDramPsn_engine h _ _ _ s)

theorem qWriteBack_engine (f : Nat) (s : State) : g (qWriteBack f s) = g s := by
  unfold qWriteBack
  extract_lets x man s1
  exact (forAll_inv g _ _ _ fun _ _ => pushQueWb_engine h _ _ _ _ _).trans (onlyIf_inv g _ _ s (pushQueWb_engine h _ _ _ _))

theorem fillFrame_engine (q b : Nat) (s : State) : g (fillFrame q b s) = g s := by
  unfold fillFrame
  extract_lets d
  split
  · rfl
  · split
    · exact (qWriteBack_engine h _ _).trans (setQfr_engine h _ _ s)
    · rfl

theorem evictFuel_engine (n : Nat) (s : State) : g (evictFuel n s) = g s := by
  induction n generalizing s with
  | zero => rfl
  | succ n ih =>
    unfold evictFuel
    split
    · rfl
    · split
      · exact (ih _).trans ((fbump_engine h (by decide) _).trans (freeQFrame_engine h _ s))
      · split
        · exact (ih _).trans ((qWriteBack_engine h _ _).trans ((setQfr_engine h _ _ _).trans (fbump_engine h (by decide) s)))
        · rfl

theorem evict_engine (s : State) : g (evict s) = g s := evictFuel_engine h _ s

/-! ### The stack and its blocks -/

theorem shiftStack_engine (e n : Nat) (s : State) : g (shiftStack e n s) = g s := by
  unfold shiftStack
  extract_lets go
  exact h.parts s s.led _ s.que rfl rfl

theorem stackLost_engine (e n : Nat) (s : State) : g (stackLost e n s) = g s := by
  unfold stackLost
  extract_lets l _ s1
  have counted : g s1 = g s := (fbumpN_engine h (by decide) _ _).trans (que_engine h rfl rfl rfl)
  exact (queStat_engine h _).trans ((shiftStack_engine h _ _ _).trans (que_engine h counted rfl rfl))

theorem pushStack_engine (wr : Bool) (lo hi k : Nat) (s : State) : g (pushStack wr lo hi k s) = g s := by
  unfold pushStack
  extract_lets a b
  split
  · rfl
  · split
    · split
      · exact pushBg_engine h _ _ _ s
      · exact stackLost_engine h _ _ s
    · rfl

theorem stackLevel_engine (s : State) : g (stackLevel s) = g s := by
  unfold stackLevel
  extract_lets deep top
  split
  · split
    · rfl
    · exact forAll_inv g _ _ s fun _ => pushStack_engine h _ _ _ _
  · split
    · exact (forAll_inv g _ _ _ fun _ => pushStack_engine h _ _ _ _).trans (que_engine h rfl rfl rfl)
    · rfl

theorem pushBlock_engine (b : Nat) (s : State) : g (pushBlock b s) = g s :=
  (queStat_engine h _).trans ((stackLevel_engine h _).trans ((setBrec_engine h _ _ _).trans (que_engine h rfl rfl rfl)))

theorem tryFree_engine (b : Nat) (s : State) : g (tryFree b s) = g s := by
  unfold tryFree
  extract_lets r
  split
  · exact pushBlock_engine h b s
  · rfl

theorem dropQueWb_engine (b : Nat) (s : State) : g (dropQueWb b s) = g s := by
  unfold dropQueWb
  extract_lets mine hit n
  exact (forAll_inv g _ _ _ (fillStat_engine h)).trans ((fbumpN_engine h (by decide) _ _).trans (h.parts s s.led _ s.que rfl rfl))

theorem leaveChain_engine (b : Nat) (s : State) : g (leaveChain b s) = g s := by
  unfold leaveChain
  extract_lets s1 s2
  have emptied : g s2 = g s := by
    refine Eq.trans ?_ (dropQueWb_engine h b s)
    unfold s2
    split
    · refine (freeQFrame_engine h _ _).trans (forAll_inv g _ _ _ fun c y => ?_)
      split
      · exact setDramPsn_engine h _ _ _ y
      · rfl
    · rfl
  exact (tryFree_engine h b _).trans ((setBrec_engine h b _ _).trans emptied)

theorem headFrame_engine (q : Nat) (s : State) : g (headFrame q s) = g s := by
  unfold headFrame
  extract_lets d
  split
  · rfl
  · split
    · split
      · exact setQfr_engine h _ _ s
      · rfl
    · rfl

theorem prefetch_engine (q : Nat) (s : State) : g (prefetch q s) = g s := by
  unfold prefetch
  extract_lets d man s1
  split
  · rfl
  · split
    · rfl
    · split
      · rfl
      · split
        · extract_lets s2
          have framed : g s2 = g s := (fbump_engine h (by decide) _).trans ((setQfr_engine h _ _ _).trans (nextUse_engine h s))
          refine (forAll_inv g _ _ _ fun c y => ?_).trans framed
          split
          · exact onlyIf_inv g _ _ y (pushBg_engine h _ _ _)
          · rfl
        · rfl

/-- A view that shows no plans is left too by the undoing of one. -/
theorem dropPlan_engine (plans : Planless g) (ring : Fin 16) (slot : Nat) (s : State) :
    g (dropPlan ring slot s) = g s := by
  unfold dropPlan
  extract_lets s1
  have undone : g s1 = g s := forAll_inv g _ _ _ fun p y => by
    extract_lets y1 y2 y3
    have frames : g y1 = g y := forAll_inv g _ _ _ fun f z => by
      split
      · exact setQfr_engine h _ _ z
      · rfl
    have cells : g y2 = g y1 := forAll_inv g _ _ _ fun x z => by
      split
      · exact setQfr_engine h _ _ z
      · rfl
    have unlinked : g y3 = g y2 := by
      unfold y3
      split
      · exact onlyIf_inv g _ _ _ (setBrec_engine h _ _)
      · rfl
    exact (forAll_inv g _ _ _ (pushBlock_engine h)).trans (unlinked.trans (cells.trans frames))
  refine Eq.trans ?_ undone
  exact plans s1 _ rfl

theorem pushRead_engine (ring : Fin 16) (n cell l : Nat) (man : Option (BitVec 8)) (s : State) : g (pushRead ring n cell l man s) = g s := by
  unfold pushRead
  extract_lets add
  have added : ∀ b, g (add b s) = g s := fun b => que_engine h rfl rfl rfl
  split
  · exact added _
  · split
    · exact (pushBg_engine h _ _ _ _).trans (added _)
    · exact added _

end

end Sys2Proof.Proofs

/-! PROOF. What the answer to a request leaves as it was. -/

namespace Sys2Proof.Proofs
open Sys2Proof Sys2Proof.Machine Sys2Proof.Laws

/-- A register that does not lie in the block QUE. -/
def OutsideQueue (a : Nat) : Prop := a < QUE ∨ QUE + 0x1000 ≤ a

/-- A view of the state that shows neither host ports, journal, arbiters, toll gates and console nor energy and the path probe, and no register outside QUE. -/
structure BesideAnswers {β : Type} (g : State → β) : Prop where
  reg : ∀ a w s, OutsideQueue a → g (rgSet a w s) = g s
  parts : ∀ (s : State) ports rings arbs led con probe toll,
    g { s with ports := ports, rings := rings, arbs := arbs, led := led, con := con, probe := probe, toll := toll } = g s

theorem outside_TXN (f : Fld) (low : f.off < 0x1000) : OutsideQueue (TXN + f.off) := by
  unfold OutsideQueue TXN QUE
  omega

theorem outside_HP (p : Fin 4) {i : Nat} (low : i < 0x1000) : OutsideQueue (HP p + i) := .inl ((HP_lt_TXN p low).trans (by decide))

section
variable {β : Type} {g : State → β} (h : BesideAnswers g)
include h

theorem fset_answers {b : Nat} {f : Fld} (out : OutsideQueue (b + f.off)) (v : Nat) (s : State) : g (fset b f v s) = g s := h.reg _ _ s out

theorem fbump_answers {b : Nat} {f : Fld} (out : OutsideQueue (b + f.off)) (s : State) : g (fbump b f s) = g s := h.reg _ _ s out

theorem charge_answers (i n : Nat) (m : Option (BitVec 8)) (s : State) : g (charge i n m s) = g s := h.parts s s.ports s.rings s.arbs _ s.con s.probe s.toll

theorem updPort_answers (p : Fin 4) (f : PortState → PortState) (s : State) : g (updPort p f s) = g s := h.parts s _ s.rings s.arbs s.led s.con s.probe s.toll

theorem updRing_answers (c : Fin 16) (f : Ring → Ring) (s : State) : g (updRing c f s) = g s := h.parts s s.ports _ s.arbs s.led s.con s.probe s.toll

theorem arbs_answers (arbs : Vector ArbState 17) (s : State) : g { s with arbs := arbs } = g s := h.parts s s.ports s.rings arbs s.led s.con s.probe s.toll

theorem con_answers (con : ConState) (s : State) : g { s with con := con } = g s := h.parts s s.ports s.rings s.arbs s.led con s.probe s.toll

theorem emit_answers (k : String) (x : List (String × FVal)) (s : State) : g (emit k x s) = g s := by
  unfold emit
  split
  · exact (fset_answers h (.inl (by decide)) _ _).trans (con_answers h _ s)
  · exact (fset_answers h (.inl (by decide)) _ _).trans ((fset_answers h (.inl (by decide)) _ _).trans (con_answers h _ s))

/-! ### Responses -/

theorem respond_answers (p : Fin 4) (r : Resp) (s : State) : g (respond p r s) = g s :=
  (pump_spec g p _ (fun _ v y off => fset_answers h (outside_HP p (off ▸ by decide)) v y) (charge_answers h) (con_answers h) (updPort_answers h p)
    fun y => fbump_answers h (outside_HP p (by decide)) y).trans (updPort_answers h p _ s)

theorem releaseX_answers (p : Fin 4) (r : Req) (s : State) : g (releaseX p r s) = g s := by
  unfold releaseX
  split
  · exact updPort_answers h p _ s
  · rfl

theorem lastRef_answers (p : Fin 4) (k : BitVec 12) (code sub : Nat) (s : State) : g (lastRef p k code sub s) = g s := h.reg _ _ s (outside_TXN _ (by decide))

theorem countRef_answers {code : Nat} (le : code ≤ 8) (s : State) : g (countRef code s) = g s :=
  fset_answers h (outside_TXN _ (by simp only [Fld.nth, TXN_REF_CNT_COUNT]; omega)) _ s

theorem refuseResp_answers {code : Nat} (le : code ≤ 8) (p : Fin 4) (r : Req) (info sub : Nat) (dup : Bool) (s : State) : g (refuseResp p r code info sub dup s) = g s := by
  unfold refuseResp
  extract_lets s1
  have released : g s1 = g s := (releaseX_answers h p r _).trans ((lastRef_answers h _ _ _ _ _).trans (countRef_answers h le s))
  split
  · exact released
  · exact (respond_answers h _ _ _).trans released

theorem countFinal_answers (f : Final) (dup : Bool) (s : State) : g (countFinal f dup s) = g s := by
  unfold countFinal
  split
  · exact countRef_answers h (by decide) s
  · split
    · rfl
    · split <;> exact fset_answers h (outside_TXN _ (by decide)) _ s

theorem probeStampAt_answers {k : Nat} (lt : k < 8) (t : Nat) (s : State) : g (probeStampAt k t s) = g s :=
  h.reg _ _ s (by simp only [OutsideQueue, TXN, TXN_PROBE_STAMP_STAMP, QUE]; omega)

theorem probeService_answers (p : Fin 4) (k : BitVec 12) (seq : BitVec 16) (t : Nat) (s : State) : g (probeService p k seq t s) = g s := by
  unfold probeService
  split
  · exact probeStampAt_answers h (by decide) t s
  · rfl

theorem probeEnd_answers (p : Fin 4) (k : BitVec 12) (seq : BitVec 16) (s : State) : g (probeEnd p k seq s) = g s := by
  unfold probeEnd
  split
  · exact (h.parts _ _ _ _ _ _ _ _).trans ((fset_answers h (outside_TXN _ (by decide)) _ _).trans
      ((probeStampAt_answers h (by decide) _ _).trans (probeStampAt_answers h (by decide) _ s)))
  · rfl

/-! ### The journal -/

theorem updEntry_answers (c : Fin 16) (slot : Nat) (f : JEntry → JEntry) (s : State) : g (updEntry c slot f s) = g s := updRing_answers h c _ s

theorem setEntrySt_answers (c : Fin 16) (slot : Nat) (st : JState) (s : State) : g (setEntrySt c slot st s) = g s := by
  unfold setEntrySt
  split
  · rfl
  · exact (charge_answers h _ _ _ _).trans (updEntry_answers h c slot _ s)

theorem releaseSlots_answers (c : Fin 16) (slot : Nat) (partner : Bool) (s : State) : g (releaseSlots c slot partner s) = g s := arbs_answers h _ s

theorem leaveContest_answers (c : Contestant) (s : State) : g (leaveContest c s) = g s := arbs_answers h _ s

theorem servePoint_answers (c : Fin 16) (slot : Nat) (s : State) : g (servePoint c slot s) = g s := by
  unfold servePoint
  split
  · rfl
  · exact (probeService_answers h _ _ _ _ _).trans (updEntry_answers h c slot _ s)

theorem retireFuel_answers (n : Nat) (c : Fin 16) (s : State) : g (retireFuel n c s) = g s := by
  induction n generalizing s with
  | zero => rfl
  | succ n ih =>
    unfold retireFuel
    split
    · rfl
    · split
      · exact (ih _).trans ((charge_answers h _ _ _ _).trans (updRing_answers h c _ s))
      · rfl

theorem ringStat_answers (c : Fin 16) (s : State) : g (ringStat c s) = g s := by
  have out : ∀ f : Fld, f.off < 0x1000 → OutsideQueue (JRN + (f.nth c).off) := fun f low => by
    simp only [OutsideQueue, Fld.nth, JRN, QUE]
    omega
  have filled := fset_answers h (out JRN_FILL_FILL (by decide))
  unfold ringStat fmax
  extract_lets w
  split
  · exact (fset_answers h (out JRN_FILL_HWM (by decide)) _ _).trans (filled _ s)
  · exact filled _ s

theorem retire_answers (c : Fin 16) (s : State) : g (retire c s) = g s := (ringStat_answers h c _).trans (retireFuel_answers h _ c s)

theorem tollCharge_answers (p : Fin 4) (n : Nat) (s : State) : g (tollCharge p n s) = g s := by
  have out : OutsideQueue (ARB + (ARB_TOLLLVL_LEVEL.nth p).off) := by
    simp only [OutsideQueue, Fld.nth, ARB, ARB_TOLLLVL_LEVEL, QUE]
    omega
  unfold tollCharge
  split
  · rfl
  · exact (fset_answers h out _ _).trans (h.parts s s.ports s.rings s.arbs s.led s.con s.probe _)

theorem deferEval_answers (ring : Fin 16) (slot : Nat) (s : State) : g (deferEval ring slot s) = g s := by
  unfold deferEval
  split
  · rfl
  · extract_lets w eta s1
    have deferred : g s1 = g s := (fset_answers h (outside_TXN _ (by decide)) _ _).trans (updEntry_answers h ring slot _ s)
    refine ite_keeps (P := (g · = g s)) (fun _ => rfl) fun _ => ite_keeps (P := (g · = g s)) (fun _ => ?_) fun _ => rfl
    split
    · exact (respond_answers h _ _ _).trans deferred
    · exact deferred

/-! ### Outcomes -/

section
variable (strm : ∀ p k r s, g (setStrm p k r s) = g s)
include strm

theorem refuseNew_answers {code : Nat} (le : code ≤ 8) (p : Fin 4) (r : Req) (info sub : Nat) (s : State) : g (refuseNew p r code info sub s) = g s :=
  (refuseResp_answers h le p r info sub false _).trans (strm _ _ _ s)

theorem syncService_answers (p : Fin 4) (k : BitVec 12) (s : State) : g (syncService p k s) = g s := by
  unfold syncService
  extract_lets r
  split
  · rfl
  · extract_lets f recorded stored counted answered
    split
    · have counted_eq : g counted = g s := (countFinal_answers h _ _ _).trans ((probeService_answers h _ _ _ _ _).trans (strm _ _ _ s))
      have answered_eq : g answered = g counted := by
        unfold answered
        split
        · exact respond_answers h _ _ _
        · rfl
      exact (probeEnd_answers h _ _ _ _).trans (answered_eq.trans counted_eq)
    · rfl

theorem outcome_answers (c : Fin 16) (slot : Nat) (f : Final) (data : List Slot) (quiet : Bool) (s : State) : g (outcome c slot f data quiet s) = g s := by
  unfold outcome
  split
  · rfl
  case h_2 e found =>
    split
    · rfl
    extract_lets r recorded stored served
    have recorded_eq : g recorded = g s := updEntry_answers h c slot _ s
    have served_eq : g served = g recorded := by
      unfold served
      split
      · exact (probeService_answers h _ _ _ _ _).trans (strm _ _ _ _)
      · exact strm _ _ _ _
    split
    · exact recorded_eq
    case h_2 w _ =>
      split
      · exact recorded_eq
      extract_lets silent counted faulted answered
      have counted_eq : g counted = g served := by
        unfold counted
        split
        · rfl
        · exact countFinal_answers h _ _ _
      have faulted_eq : g faulted = g counted := by
        unfold faulted
        split
        · split
          · rfl
          · exact lastRef_answers h _ _ _ _ _
        · rfl
      have answered_eq : g answered = g faulted := by
        unfold answered
        split
        · exact respond_answers h _ _ _
        · rfl
      have sent := answered_eq.trans (faulted_eq.trans (counted_eq.trans (served_eq.trans recorded_eq)))
      exact (syncService_answers h strm _ _ _).trans ((probeEnd_answers h _ _ _ _).trans sent)

theorem faultEntry_answers (c : Fin 16) (slot : Nat) (reason ch : Nat) (quiet : Bool) (s : State) : g (faultEntry c slot reason ch quiet s) = g s :=
  (outcome_answers h strm c slot _ _ quiet _).trans (updEntry_answers h c slot _ s)

theorem queDone_answers (ring : Fin 16) (slot : Nat) (info : BitVec 64) (poison : Bool) (data : List Slot) (quiet : Bool) (s : State) :
    g (queDone ring slot info poison data quiet s) = g s := by
  unfold queDone
  extract_lets s1
  have served : g s1 = g s := (servePoint_answers h ring slot _).trans (updEntry_answers h ring slot _ s)
  split
  · exact served
  · exact (retire_answers h ring _).trans ((releaseSlots_answers h ring slot false _).trans ((outcome_answers h strm ring slot _ data quiet _).trans served))

end

end

end Sys2Proof.Proofs

/-! PROOF. ENQ and DEQ take effect in their turn, and a queue faults (08 R247, R248, R250, R257, R258). -/

namespace Sys2Proof.Proofs
open Sys2Proof Sys2Proof.Machine Sys2Proof.Laws

/-! ### Descriptors and counts -/

/-- A view that neither the engine's work nor an answer changes. -/
structure BesideQueue {β : Type} (g : State → β) : Prop where
  engine : BesideEngine g
  answers : BesideAnswers g
  strm : ∀ p k r s, g (setStrm p k r s) = g s

theorem desc_besideQueue : BesideQueue (·.que.desc) where
  engine := ⟨fun _ _ _ _ => rfl, fun _ _ _ _ desc _ => desc⟩
  answers := ⟨fun _ _ _ _ => rfl, fun _ _ _ _ _ _ _ _ => rfl⟩
  strm _ _ _ _ := rfl

theorem plans_besideQueue : BesideQueue (·.que.plans) where
  engine := ⟨fun _ _ _ _ => rfl, fun _ _ _ _ _ plans => plans⟩
  answers := ⟨fun _ _ _ _ => rfl, fun _ _ _ _ _ _ _ _ => rfl⟩
  strm _ _ _ _ := rfl

/-- DTIME, both memories and the manifests. -/
def stillView (s : State) := (s.d8, s.dram, s.wmem, s.mans)

theorem stillView_planless : Planless stillView := fun _ _ _ => rfl

theorem desc_planless : Planless (·.que.desc) := fun _ _ desc => desc

theorem stillView_besideQueue : BesideQueue stillView where
  engine := ⟨fun _ _ _ _ => rfl, fun _ _ _ _ _ _ => rfl⟩
  answers := ⟨fun _ _ _ _ => rfl, fun _ _ _ _ _ _ _ _ => rfl⟩
  strm _ _ _ _ := rfl

theorem stillView_eq {s t : State} (h : stillView t = stillView s) : t.d8 = s.d8 ∧ t.dram = s.dram ∧ t.wmem = s.wmem ∧ t.mans = s.mans :=
  ⟨congrArg (·.1) h, congrArg (·.2.1) h, congrArg (·.2.2.1) h, congrArg (·.2.2.2) h⟩

theorem count_besideQueue {f : Fld} (m : f ∈ queueCounts) : BesideQueue (fget · QUE f) where
  engine := ⟨fun _ w s free => congrArg f.get (rg_rgSet_ne _ _ w s (free f m)), fun _ _ _ _ _ _ => rfl⟩
  answers := by
    have low : ∀ f ∈ queueCounts, f.off < 0x1000 := by decide
    have := low f m
    exact ⟨fun a w s out => congrArg f.get (rg_rgSet_ne _ _ w s (by unfold OutsideQueue at out; omega)), fun _ _ _ _ _ _ _ _ => rfl⟩
  strm _ _ _ _ := rfl

theorem fget_fbumpN (b : Nat) (f : Fld) (n : Nat) (s : State) (h : f.lsb + f.width ≤ 32) : fget (fbumpN b f n s) b f = min (fget s b f + n) (2 ^ f.width - 1) := by
  have pos := Nat.two_pow_pos f.width
  exact (fget_fset b f _ s h).trans (Nat.mod_eq_of_lt (by omega))

theorem qd_congr {s t : State} (h : t.que.desc = s.que.desc) (q : Nat) : t.qd q = s.qd q := by
  unfold State.qd
  rw [h]

theorem setQd_qd (q : Nat) (d : QDesc) (s : State) : (setQd q d s).qd q = d := tblGet_tblSet _ _ _ _

theorem setQd_qd_ne {q k : Nat} (h : k ≠ q) (d : QDesc) (s : State) : (setQd q d s).qd k = s.qd k := tblGet_tblSet_ne _ _ _ _ _ h

/-- Where the descriptors are those after a write of one, that one reads as written and every other as before. -/
theorem qd_of_setQd {q : Nat} {d : QDesc} {s t : State} (h : t.que.desc = (setQd q d s).que.desc) : t.qd q = d ∧ ∀ k, k ≠ q → t.qd k = s.qd k :=
  ⟨(qd_congr h q).trans (setQd_qd q d s), fun k apart => (qd_congr h k).trans (setQd_qd_ne apart d s)⟩

/-! ### Settled states -/

/-- What a settled state rests on. -/
def settledView (s : State) := (s.caravans, s.streams)

theorem settledView_besideEngine : BesideEngine settledView := ⟨fun _ _ _ _ => rfl, fun _ _ _ _ _ _ => rfl⟩

theorem settledView_besideAnswers : BesideAnswers settledView := ⟨fun _ _ _ _ => rfl, fun _ _ _ _ _ _ _ _ => rfl⟩

theorem settledView_planless : Planless settledView := fun _ _ _ => rfl

theorem settled_of_view {s t : State} (hs : settled s) (h : settledView t = settledView s) : settled t := settled_congr hs (congrArg (·.1) h) (congrArg (·.2) h)

theorem settled_forAll {α : Type} (l : List α) (f : α → State → State) {s : State} (hs : settled s) (h : ∀ a y, settled y → settled (f a y)) : settled (forAll l f s) :=
  foldl_keeps (P := settled) (fun s a => f a s) l s (fun y a => h a y) hs

theorem settled_refuseNew_any {s : State} (hs : settled s) {code : Nat} (le : code ≤ 8) (p : Fin 4) (r : Req) (info sub : Nat) : settled (refuseNew p r code info sub s) := by
  unfold refuseNew
  extract_lets x
  have marked : settled (setStrm p r.hdr.stream { x with k := 0, resv := false, retryAt := none, busy := false } s) :=
    settled_setStrm hs p _ (strm_waiting hs p _)
  exact settled_of_view marked (refuseResp_answers settledView_besideAnswers le p r info sub false _)

theorem settled_faultEntry {s : State} (hs : settled s) (c : Fin 16) (slot reason ch : Nat) (quiet : Bool) : settled (faultEntry c slot reason ch quiet s) :=
  (WalkKept.outcome c slot _ _ quiet _).settled (settled_of_view hs (updEntry_answers settledView_besideAnswers c slot _ s))

theorem settled_queDone {s : State} (hs : settled s) (ring : Fin 16) (slot : Nat) (info : BitVec 64) (poison : Bool) (data : List Slot) (quiet : Bool) :
    settled (queDone ring slot info poison data quiet s) := by
  unfold queDone
  extract_lets s1
  have served : settled s1 := settled_of_view hs ((servePoint_answers settledView_besideAnswers ring slot _).trans (updEntry_answers settledView_besideAnswers ring slot _ s))
  split
  · exact served
  · exact ((WalkKept.releaseSlots ring slot false _).trans (WalkKept.retire ring _)).settled ((WalkKept.outcome ring slot _ data quiet s1).settled served)

/-! ### A queue faults -/

/-- A queue has become FAULTED, and its work has not been ended yet (08 R258). -/
def faultBegun (q reason : Nat) (s : State) : State := setQd q { s.qd q with st := .faulted, freason := reason } (fbump QUE QUE_FAULT_COUNT s)

theorem queueFault_begins {β : Type} {g : State → β} (h : BesideQueue g) (plans : Planless g) {q : Nat} {s : State}
    (fresh : (s.qd q).st ≠ .faulted) (reason : Nat) (cause : String) : g (queueFault q reason cause s) = g (faultBegun q reason s) := by
  unfold queueFault
  extract_lets d begun reported mine refused
  rw [if_neg fresh]
  have refused_eq : g refused = g begun := (forAll_inv g _ _ _ fun x y => (refuseNew_answers h.answers h.strm (by decide) _ _ _ _ _).trans (leaveContest_answers h.answers x y)).trans
    (emit_answers h.answers _ _ _)
  refine (evict_engine h.engine _).trans ((forAll_inv g _ _ _ (retire_answers h.answers)).trans ((forAll_inv g _ _ _ fun c y => ?_).trans refused_eq))
  exact forAll_inv g _ _ _ fun x z => (releaseSlots_answers h.answers _ _ _ _).trans ((faultEntry_answers h.answers h.strm _ _ _ _ _ _).trans (dropPlan_engine h.engine plans _ _ z))

theorem settled_queueFault {s : State} (hs : settled s) (q reason : Nat) (cause : String) : settled (queueFault q reason cause s) := by
  have still := settledView_besideAnswers
  unfold queueFault
  extract_lets d begun reported mine refused
  split
  · exact hs
  · have begun_settled : settled begun := settled_of_view hs rfl
    have reported_settled : settled reported := settled_of_view begun_settled (emit_answers still _ _ begun)
    have refused_settled : settled refused := settled_forAll _ _ reported_settled fun x y hy =>
      settled_refuseNew_any (settled_of_view hy (leaveContest_answers still x y)) (by decide) x.port x.req 6 6
    refine settled_of_view (settled_forAll _ _ (settled_forAll _ _ refused_settled fun c y hy => ?_) fun c y hy => settled_of_view hy (retire_answers still c y))
      (evict_engine settledView_besideEngine _)
    refine settled_forAll _ _ hy fun x z hz => settled_of_view (settled_faultEntry (settled_of_view hz ?_) _ _ _ _ _) (releaseSlots_answers still _ _ _ _)
    exact dropPlan_engine settledView_besideEngine settledView_planless _ _ z

/-- An unreadable record or descriptor faults the queue in a state that holds the record as unreadable. -/
theorem recError_faults (q k : Nat) (s : State) : ∃ y, recError q k s = queueFault q 1 "record" y ∧ ∀ {β : Type} {g : State → β}, BesideEngine g → g y = g s := by
  unfold recError
  extract_lets d l
  refine ⟨_, rfl, fun h => ?_⟩
  split
  · exact setBrec_engine h _ _ s
  · rfl

/-- What the fault of a queue for a reason leaves. -/
structure Faulted (q reason : Nat) (s t : State) : Prop where
  at_q : t.qd q = { s.qd q with st := .faulted, freason := reason }
  others : ∀ k, k ≠ q → t.qd k = s.qd k
  counted : fget t QUE QUE_FAULT_COUNT = min (fget s QUE QUE_FAULT_COUNT + 1) (2 ^ 32 - 1)
  still : stillView t = stillView s
  settled : settled s → settled t

theorem faulted_queueFault {q : Nat} {s : State} (fresh : (s.qd q).st ≠ .faulted) (reason : Nat) (cause : String) : Faulted q reason s (queueFault q reason cause s) := by
  obtain ⟨at_q, others⟩ := qd_of_setQd (queueFault_begins desc_besideQueue desc_planless fresh reason cause)
  refine ⟨at_q, others, ?_, queueFault_begins stillView_besideQueue stillView_planless fresh reason cause, fun hs => settled_queueFault hs q reason cause⟩
  exact (queueFault_begins (count_besideQueue (by decide)) (fun _ _ _ => rfl) fresh reason cause).trans (fget_fbump _ _ _ (by decide))

theorem faulted_recError {q : Nat} {s : State} (fresh : (s.qd q).st ≠ .faulted) (k : Nat) : Faulted q 1 s (recError q k s) := by
  obtain ⟨y, faults, same⟩ := recError_faults q k s
  have qd : ∀ k, y.qd k = s.qd k := qd_congr (same desc_besideQueue.engine)
  have faulted := faulted_queueFault (s := y) (q := q) (by rwa [qd]) 1 "record"
  rw [← faults] at faulted
  refine ⟨by rw [faulted.at_q, qd], fun k apart => (faulted.others k apart).trans (qd k), ?_, faulted.still.trans (same stillView_besideQueue.engine),
    fun hs => faulted.settled (settled_of_view hs (same settledView_besideEngine))⟩
  rw [faulted.counted, same (count_besideQueue (f := QUE_FAULT_COUNT) (by decide)).engine]

end Sys2Proof.Proofs

/-! PROOF. ENQ and DEQ take effect in their turn, once what they read is at hand (08 R247, R248, R250, R257). -/

namespace Sys2Proof.Proofs
open Sys2Proof Sys2Proof.Machine Sys2Proof.Laws

/-! ### The descriptor and the counts that a request writes -/

/-- The counts of a request of `n` cells, by the fields that count requests and cells. -/
def queCounted (requests cells : Fld) (n : Nat) (s : State) : State := fbumpN QUE cells n (fbump QUE requests s)

/-- What an ENQ or DEQ that takes effect leaves: its queue's descriptor, its counts and everything beside them. -/
structure Moved (q : Nat) (d : QDesc) (requests cells : Fld) (n : Nat) (s t : State) : Prop where
  at_q : t.qd q = d
  others : ∀ k, k ≠ q → t.qd k = s.qd k
  requests_eq : fget t QUE requests = min (fget s QUE requests + 1) (2 ^ requests.width - 1)
  cells_eq : fget t QUE cells = min (fget s QUE cells + n) (2 ^ cells.width - 1)
  still : stillView t = stillView s

/-- A request has moved its cells where its descriptor is written to a state like the first, the counts rise in a state like that, and the end is like the last. -/
theorem moved_of_written {q : Nat} {d : QDesc} {requests cells : Fld} {n : Nat} {s t x y : State} (mr : requests ∈ queueCounts) (mc : cells ∈ queueCounts) (apart : requests.off ≠ cells.off)
    (ht : ∀ {β : Type} {g : State → β}, BesideQueue g → g t = g (queCounted requests cells n x)) (hx : ∀ {β : Type} {g : State → β}, BesideQueue g → g x = g (setQd q d y))
    (hy : ∀ {β : Type} {g : State → β}, BesideQueue g → Planless g → g y = g s) : Moved q d requests cells n s t := by
  have fits : ∀ f ∈ queueCounts, f.lsb + f.width ≤ 32 := by decide
  have desc : t.que.desc = (setQd q d y).que.desc := (ht desc_besideQueue).trans (hx desc_besideQueue)
  obtain ⟨at_q, others⟩ := qd_of_setQd desc
  have before : ∀ f ∈ queueCounts, fget x QUE f = fget s QUE f := fun f m =>
    (hx (count_besideQueue m)).trans (hy (count_besideQueue m) fun _ _ _ => rfl)
  refine ⟨at_q, fun k ne => (others k ne).trans (qd_congr (hy desc_besideQueue desc_planless) k), ?_, ?_, ?_⟩
  · rw [ht (count_besideQueue mr), queCounted, fbumpN, fget_fset_ne _ _ _ _ _ _ (by omega), fget_fbump _ _ _ (fits _ mr), before _ mr]
  · rw [ht (count_besideQueue mc), queCounted, fget_fbumpN _ _ _ _ (fits _ mc), fbump, fbumpN, fget_fset_ne _ _ _ _ _ _ (by omega), before _ mc]
  · exact (ht stillView_besideQueue).trans ((hx stillView_besideQueue).trans (hy stillView_besideQueue stillView_planless))

/-! ### ENQ (08 R247) -/

theorem evict_queDone {β : Type} {g : State → β} (h : BesideQueue g) (ring : Fin 16) (slot : Nat) (info : BitVec 64) (poison : Bool) (data : List Slot) (quiet : Bool) (s : State) :
    g (evict (queDone ring slot info poison data quiet s)) = g s :=
  (evict_engine h.engine _).trans (queDone_answers h.answers h.strm ring slot info poison data quiet s)

theorem settled_evict_queDone {s : State} (hs : settled s) (ring : Fin 16) (slot : Nat) (info : BitVec 64) (poison : Bool) (data : List Slot) (quiet : Bool) :
    settled (evict (queDone ring slot info poison data quiet s)) :=
  settled_of_view (settled_queDone hs ring slot info poison data quiet) (evict_engine settledView_besideEngine _)

/-- The plans but for one entry's. -/
def plansWithout (ring : Fin 16) (slot : Nat) (l : List EnqPlan) : List EnqPlan := l.filter fun x => !(x.ring = ring && x.entry = slot)

/-- An ENQ in effect: its plan is gone, the descriptor is written, the counts rise, and then its request is answered. -/
theorem enqEffect_written {ring : Fin 16} {slot : Nat} {e : JEntry} {p : EnqPlan} {s : State} (found : getEntry s ring slot = some e)
    (planned : (s.que.plans.find? fun x => x.ring = ring && x.entry = slot) = some p) (quiet : Bool) :
    ∃ info y x z, enqEffect ring slot quiet s = evict (queDone ring slot info false [] quiet z) ∧ y.que.plans = plansWithout ring slot s.que.plans
      ∧ ∀ {β : Type} {g : State → β}, BesideEngine g → BesideAnswers g →
        (Planless g → g y = g s) ∧ g x = g (setQd p.queue (enqImage (s.qd p.queue) p) y) ∧ g z = g (queCounted QUE_ENQ_CNT_COUNT QUE_CELLS_IN_COUNT p.cells x) := by
  obtain ⟨t, ends⟩ : ∃ t, enqEffect ring slot quiet s = t := ⟨_, rfl⟩
  rw [ends]
  unfold enqEffect at ends
  simp -zeta only [found, planned] at ends
  extract_lets old d seen _ unplanned recorded written counted filled at ends
  have seen_eq {β : Type} {g : State → β} (h : BesideEngine g) : g seen = g s := by
    unfold seen
    split
    · exact setQfr_engine h _ _ s
    · rfl
  have recorded_eq {β : Type} {g : State → β} (h : BesideAnswers g) : g recorded = g unplanned := (setEntrySt_answers h ring slot _ _).trans (updEntry_answers h ring slot _ _)
  have plans_eq : recorded.que.plans = plansWithout ring slot s.que.plans :=
    (recorded_eq plans_besideQueue.answers).trans (congrArg (plansWithout ring slot) (seen_eq plans_besideQueue.engine))
  refine ⟨_, recorded, written, filled, ends.symm, plans_eq, fun h a => ⟨fun planless => ?_, charge_engine h _ _ _ _, forAll_inv _ _ _ _ fun b y => fillFrame_engine h _ b y⟩⟩
  refine (recorded_eq a).trans (Eq.trans ?_ (seen_eq h))
  exact planless seen _ rfl

theorem enqEffect_moves {ring : Fin 16} {slot : Nat} {e : JEntry} {p : EnqPlan} {s : State} (found : getEntry s ring slot = some e)
    (planned : (s.que.plans.find? fun x => x.ring = ring && x.entry = slot) = some p) (quiet : Bool) :
    Moved p.queue (enqImage (s.qd p.queue) p) QUE_ENQ_CNT_COUNT QUE_CELLS_IN_COUNT p.cells s (enqEffect ring slot quiet s)
      ∧ (enqEffect ring slot quiet s).que.plans = plansWithout ring slot s.que.plans ∧ (settled s → settled (enqEffect ring slot quiet s)) := by
  obtain ⟨info, y, x, z, ends, plans, views⟩ := enqEffect_written found planned quiet
  rw [ends]
  have ending {β : Type} {g : State → β} (h : BesideQueue g) := evict_queDone h ring slot info false [] quiet z
  refine ⟨moved_of_written (by decide) (by decide) (by decide) (fun h => (ending h).trans (views h.engine h.answers).2.2) (fun h => (views h.engine h.answers).2.1)
    fun h => (views h.engine h.answers).1, ?_, fun hs => settled_evict_queDone (settled_of_view hs ?_) ..⟩
  · obtain ⟨-, hx, hz⟩ := views plans_besideQueue.engine plans_besideQueue.answers
    exact (ending plans_besideQueue).trans (hz.trans (hx.trans plans))
  · obtain ⟨hy, hx, hz⟩ := views settledView_besideEngine settledView_besideAnswers
    exact hz.trans (hx.trans (hy settledView_planless))

/-- The entry that an ENQ or DEQ takes its turn with. -/
theorem getEntry_of_queTurn {s : State} {r : Fin 16} {n : Nat} {o : Opc} {e : JEntry} (turn : queTurn s r n o = some e) : getEntry s r n = some e := by
  unfold queTurn at turn
  split at turn
  · contradiction
  case h_2 e' found =>
    extract_lets ahead at turn
    split at turn
    · rw [found, Option.some.inj turn]
    · contradiction

end Sys2Proof.Proofs

/-! PROOF. A DEQ takes effect, or has its cells and records read (08 R248, R250, R257). -/

namespace Sys2Proof.Proofs
open Sys2Proof Sys2Proof.Machine Sys2Proof.Laws

/-! ### The effect of a DEQ whose cells are at hand (08 R248) -/

/-- A DEQ in effect: its entry holds the result, the descriptor is written, the counts rise, and then its request is answered. -/
theorem deqEffect_written {q : Nat} {l : List TakenCell} {d : QDesc} {gone : List Nat} {s : State} (image : deqImage s (s.qd q) l = some (d, gone))
    (ring : Fin 16) (slot : Nat) (e : JEntry) (poison : Bool) :
    ∃ info data y x z, deqEffect ring slot q e l poison false s = evict (queDone ring slot info poison data false z) ∧ (settled s → settled z)
      ∧ ∀ {β : Type} {g : State → β}, BesideQueue g → g y = g s ∧ g x = g (setQd q d y) ∧ g z = g (queCounted QUE_DEQ_CNT_COUNT QUE_CELLS_OUT_COUNT l.length x) := by
  obtain ⟨t, ends⟩ : ∃ t, deqEffect ring slot q e l poison false s = t := ⟨_, rfl⟩
  rw [ends]
  unfold deqEffect at ends
  extract_lets old data n first used _ unread handle at ends
  have image' : deqImage s old l = some (d, gone) := image
  simp -zeta only [image'] at ends
  extract_lets recorded kept windowed retained written counted shifted charged at ends
  have unread_eq {β : Type} {g : State → β} (h : BesideEngine g) : g unread = g s := by
    refine que_engine h ((forAll_inv g _ _ _ fun b y => ?_).trans (nextUse_engine h s)) rfl rfl
    split
    · exact setQfr_engine h _ _ y
    · rfl
  have recorded_eq {β : Type} {g : State → β} (h : BesideAnswers g) : g recorded = g unread := (setEntrySt_answers h ring slot _ _).trans (updEntry_answers h ring slot _ _)
  have windowed_eq {β : Type} {g : State → β} (h : BesideQueue g) : g windowed = g recorded := onlyIf_inv g _ _ _ fun _ => h.strm _ _ _ _
  have retained_eq {β : Type} {g : State → β} (h : BesideEngine g) : g retained = g windowed := onlyIf_inv g _ _ _ fun _ => forAll_inv g _ _ _ fun _ _ => setBrec_engine h _ _ _
  have written_eq {β : Type} {g : State → β} (h : BesideEngine g) : g (onlyIf (n == 0) (fbump QUE QUE_EMPTY_CNT_COUNT) written) = g (setQd q d retained) :=
    (onlyIf_inv g _ _ _ fun _ => fbump_engine h (by decide) _).trans (charge_engine h _ _ _ _)
  have charged_eq {β : Type} {g : State → β} (h : BesideEngine g) (a : BesideAnswers g) : g charged = g counted :=
    (tollCharge_answers a _ _ _).trans ((prefetch_engine h _ _).trans ((headFrame_engine h _ _).trans ((stackLevel_engine h _).trans (forAll_inv g _ _ _ (leaveChain_engine h)))))
  have settled_windowed (hs : settled s) : settled windowed := by
    have before : settled recorded := settled_of_view hs ((recorded_eq settledView_besideAnswers).trans (unread_eq settledView_besideEngine))
    unfold windowed onlyIf
    split
    · exact settled_setStrm before _ _ (strm_waiting before _ _)
    · exact before
  refine ⟨_, _, retained, _, charged, ends.symm, fun hs => settled_of_view (settled_windowed hs) ?_, fun h => ⟨?_, written_eq h.engine, charged_eq h.engine h.answers⟩⟩
  · have counted_eq : settledView counted = settledView (onlyIf (n == 0) (fbump QUE QUE_EMPTY_CNT_COUNT) written) := rfl
    exact (charged_eq settledView_besideEngine settledView_besideAnswers).trans (counted_eq.trans ((written_eq settledView_besideEngine).trans (retained_eq settledView_besideEngine)))
  · exact (retained_eq h.engine).trans ((windowed_eq h).trans ((recorded_eq h.answers).trans (unread_eq h.engine)))

theorem deqEffect_moves {q : Nat} {l : List TakenCell} {d : QDesc} {gone : List Nat} {s : State} (image : deqImage s (s.qd q) l = some (d, gone))
    (ring : Fin 16) (slot : Nat) (e : JEntry) (poison : Bool) :
    Moved q d QUE_DEQ_CNT_COUNT QUE_CELLS_OUT_COUNT l.length s (deqEffect ring slot q e l poison false s) ∧ (settled s → settled (deqEffect ring slot q e l poison false s)) := by
  obtain ⟨info, data, y, x, z, ends, settled_z, views⟩ := deqEffect_written image ring slot e poison
  rw [ends]
  exact ⟨moved_of_written (by decide) (by decide) (by decide) (fun h => (evict_queDone h ring slot info poison data false z).trans (views h).2.2) (fun h => (views h).2.1)
    fun h _ => (views h).1, fun hs => settled_evict_queDone (settled_z hs) ..⟩

/-! ### What a DEQ reads (08 R248, R250) -/

theorem dropBadCells_clean (l : List TakenCell) (s : State) : dropBadCells [] l s = s := by
  refine forAll_inv id _ _ s fun x y => ?_
  split
  · simp [onlyIf]
  · rfl

/-- Where every record of a DEQ's blocks can be read, no block faults its queue. -/
theorem deqRecFaults_none {s : State} {blks : List Nat} (readable : blks.findSome? (recFault s) = none) (ring : Fin 16) (slot : Nat) (quiet : Bool) :
    (blks.zipIdx.map fun x => (x.1, 72 + x.2)).findSome? (deqRecFault ring slot quiet s) = none := by
  rw [List.findSome?_eq_none_iff] at readable ⊢
  intro x m
  obtain ⟨b, mb, rfl⟩ := List.mem_map.mp m
  unfold deqRecFault
  rw [readable b.1 (List.fst_mem_of_mem_zipIdx mb)]

theorem inFrame_of_directCells {s : State} {l : List TakenCell} (direct : directCells s l = []) {x : TakenCell × Nat} (m : x ∈ l.zipIdx) : ∃ f, inFrame s x.1 = some f := by
  have framed := List.filter_eq_nil_iff.mp direct x m
  exact Option.ne_none_iff_exists'.mp (by simpa using framed)

/-- Cells that are read in turn, each with energy charged at most, end in a state with other charges. -/
theorem foldl_charges {α γ : Type} {f : Bool × State → α → Bool × State} {l : List α} {s : State} (finish : Bool → State → γ)
    (charges : ∀ bad led, ∀ x ∈ l, ∃ charged, (f (bad, { s with led := led }) x).2 = { s with led := charged }) :
    ∃ bad led, finish (l.foldl f (false, s)).1 (l.foldl f (false, s)).2 = finish bad { s with led := led } := by
  obtain ⟨led, charged⟩ : ∃ led, (l.foldl f (false, s)).2 = { s with led := led } :=
    List.foldlRecOn l f (motive := fun a => ∃ led, a.2 = { s with led := led }) ⟨s.led, rfl⟩ fun ⟨bad, y⟩ ⟨led, still⟩ x m => by
      obtain rfl : y = { s with led := led } := still
      exact charges bad led x m
  exact ⟨_, led, congrArg _ charged⟩

section
variable {r : Fin 16} {n : Nat} {e : JEntry} {l : List TakenCell} {s : State} (turn : queTurn s r n .deq = some e)
  (cells : deqCells s (s.qd e.target.toNat) (bitOf e.sub.toNat 0) (e.arg.toNat / 2 ^ 17 % 128) = some l) (readable : (l.map (fun x => x.blk)).eraseDups.findSome? (recFault s) = none)
include turn cells readable

/-- A DEQ whose cells and records all stand in frames takes effect, and its reads are charged. -/
theorem deqApply_framed (direct : directCells s l = []) (records : recordReads s l = []) :
    ∃ bad led, deqApply r n none [] false s = deqEffect r n e.target.toNat e l bad false { s with led := led } := by
  unfold deqApply
  simp only [turn, cells, deqRecFaults_none readable, dropBadCells_clean, Bool.false_eq_true, if_false, direct, records, List.filter_nil, List.isEmpty_nil, List.map_nil, List.append_nil,
    List.any_nil, Bool.and_true, Bool.not_true, Bool.not_false, false_and]
  refine foldl_charges (deqEffect r n e.target.toNat e l · false ·) fun bad led x m => ?_
  obtain ⟨f, framed⟩ := inFrame_of_directCells direct m
  have framed' : inFrame { s with led := led } x.1 = some f := framed
  simp only [framed']
  exact ⟨_, rfl⟩


/-- A DEQ that lacks cells or records, and has no read of them on the way, has them all read. -/
theorem deqApply_unframed (idle : s.que.reads = []) (direct : directCells s l ≠ []) :
    deqApply r n none [] false s
      = deferEval r n (forAll (recordReads s l) (fun x s => pushRead r n x.2 (recLineNo s x.1) (some e.man) s) (forAll (directCells s l) (pushDirect r n e.man) s)) := by
  have fresh : ∀ k, (dirRead s r n k).isNone = true := fun k => by
    unfold dirRead
    rw [idle]
    rfl
  unfold deqApply
  simp only [turn, cells, deqRecFaults_none readable, dropBadCells_clean, Bool.false_eq_true, if_false, fresh, List.filter_true, List.isEmpty_eq_false_iff.mpr direct, Bool.false_and, Bool.not_false,
    and_self, if_true]

end

/-! ### Reads of a DEQ on the way (08 R250) -/

theorem forAll_adds {α : Type} {m : State → Nat} {f : α → State → State} (l : List α) (h : ∀ a s, m (f a s) = m s + 1) (s : State) : m (forAll l f s) = m s + l.length := by
  unfold forAll
  induction l generalizing s with
  | nil => rfl
  | cons a l ih =>
    rw [List.foldl_cons, ih, h, List.length_cons]
    omega

theorem forAll_adds_held {α : Type} {m : State → Nat} {f : α → State → State} {top : Nat} (l : List α) (h : ∀ a s, m (f a s) = min (m s + 1) top) (s : State) (le : m s ≤ top) :
    m (forAll l f s) = min (m s + l.length) top := by
  unfold forAll
  induction l generalizing s with
  | nil => exact (Nat.min_eq_left le).symm
  | cons a l ih =>
    have step := h a s
    rw [List.foldl_cons, ih _ (by omega), step, List.length_cons]
    omega

theorem pushRead_reads (ring : Fin 16) (n cell l : Nat) (man : Option (BitVec 8)) (s : State) : (pushRead ring n cell l man s).que.reads.length = s.que.reads.length + 1 := by
  unfold pushRead
  extract_lets add
  have added : ∀ b, (add b s).que.reads.length = s.que.reads.length + 1 := fun _ => List.length_append
  split
  · exact added _
  · split
    · exact added _
    · exact added _

/-- DTIME and what a state stores. -/
def storeView (s : State) := (s.d8, s.dram, s.wmem, s.ix, s.streams, s.mans, s.accts)

theorem storeView_besideEngine : BesideEngine storeView := ⟨fun _ _ _ _ => rfl, fun _ _ _ _ _ _ => rfl⟩

theorem storeView_besideAnswers : BesideAnswers storeView := ⟨fun _ _ _ _ => rfl, fun _ _ _ _ _ _ _ _ => rfl⟩

theorem storeView_eq {s t : State} (h : storeView t = storeView s) : t.d8 = s.d8 ∧ sameStore s t :=
  ⟨congrArg (·.1) h, congrArg (·.2.1) h, congrArg (·.2.2.1) h, congrArg (·.2.2.2.1) h, congrArg (·.2.2.2.2.1) h, congrArg (·.2.2.2.2.2.1) h, congrArg (·.2.2.2.2.2.2) h⟩

theorem reads_besideAnswers : BesideAnswers (·.que.reads.length) := ⟨fun _ _ _ _ => rfl, fun _ _ _ _ _ _ _ _ => rfl⟩

/-- What is left where a DEQ has reads of cells and records begun. -/
structure ReadsBegun (cells records : Nat) (s t : State) : Prop where
  reads : t.que.reads.length = s.que.reads.length + cells + records
  desc : t.que.desc = s.que.desc
  counted : fget t QUE QUE_DIRECT_COUNT = min (fget s QUE QUE_DIRECT_COUNT + cells) (2 ^ 32 - 1)
  stored : storeView t = storeView s
  settled : settled s → settled t

theorem readsBegun_of_pushed (r : Fin 16) (n : Nat) (man : BitVec 8) (direct : List (TakenCell × Nat)) (records : List (Nat × Nat)) (s : State) :
    ReadsBegun direct.length records.length s
      (deferEval r n (forAll records (fun x s => pushRead r n x.2 (recLineNo s x.1) (some man) s) (forAll direct (pushDirect r n man) s))) := by
  generalize begun : forAll direct (pushDirect r n man) s = y
  have records_eq {β : Type} {g : State → β} (h : BesideEngine g) (a : BesideAnswers g) := (deferEval_answers a r n _).trans
    (forAll_inv g records (fun x s => pushRead r n x.2 (recLineNo s x.1) (some man) s) y fun _ _ => pushRead_engine h r n _ _ _ _)
  have direct_eq {β : Type} {g : State → β} (h : BesideEngine g) (counts : ∀ z, g (fbump QUE QUE_DIRECT_COUNT z) = g z) : g y = g s :=
    begun ▸ forAll_inv g _ _ s fun _ z => (pushRead_engine h r n _ _ _ _).trans (counts z)
  have same {β : Type} {g : State → β} (h : BesideEngine g) (a : BesideAnswers g) (counts : ∀ z, g (fbump QUE QUE_DIRECT_COUNT z) = g z) := (records_eq h a).trans (direct_eq h counts)
  have count := count_besideQueue (f := QUE_DIRECT_COUNT) (by decide)
  refine ⟨?_, same desc_besideQueue.engine desc_besideQueue.answers fun _ => rfl, (records_eq count.engine count.answers).trans ?_,
    same storeView_besideEngine storeView_besideAnswers fun _ => rfl, fun hs => settled_of_view hs (same settledView_besideEngine settledView_besideAnswers fun _ => rfl)⟩
  · refine (deferEval_answers reads_besideAnswers r n _).trans ((forAll_adds (m := (·.que.reads.length)) _ (fun _ _ => pushRead_reads ..) y).trans ?_)
    have cells_read : y.que.reads.length = s.que.reads.length + direct.length := begun ▸ forAll_adds (m := (·.que.reads.length)) direct (f := pushDirect r n man) (fun _ z => pushRead_reads r n _ _ _ (fbump QUE QUE_DIRECT_COUNT z)) s
    rw [cells_read]
  · rw [← begun]
    exact forAll_adds_held (m := (fget · QUE QUE_DIRECT_COUNT)) direct (fun x z => (pushRead_engine count.engine r n _ _ _ _).trans (fget_fbump _ _ _ (by decide))) s (Nat.le_sub_one_of_lt (fget_lt s QUE QUE_DIRECT_COUNT))

end Sys2Proof.Proofs

/-! PROOF. O43: ENQ_APPLY and DEQ_APPLY by the cases of 08 R247, R248, R250, R257 and R258. -/

namespace Sys2Proof.Proofs
open Sys2Proof Sys2Proof.Machine Sys2Proof.Laws

section
variable {r : Fin 16} {n : Nat} {e : JEntry} {s : State}

theorem enqApply_out_of_turn (turn : queTurn s r n .enq = none) (bad : Option Nat) : enqApply r n bad false s = s := by
  unfold enqApply
  rw [turn]

theorem enqApply_bad (turn : queTurn s r n .enq = some e) (k : Nat) : enqApply r n (some k) false s = recError e.target.toNat k s := by
  unfold enqApply
  rw [turn]

theorem enqApply_waits (turn : queTurn s r n .enq = some e) (waits : oldRecord s r n false = none) : enqApply r n none false s = s := by
  simp only [enqApply, turn, waits]

theorem enqApply_faulty (turn : queTurn s r n .enq = some e) {k : Nat} {w : String} (faulty : oldRecord s r n false = some (some (k, w))) :
    enqApply r n none false s = queueFault e.target.toNat k w s := by
  simp only [enqApply, turn, faulty]

theorem enqApply_takes_effect (turn : queTurn s r n .enq = some e) (ready : oldRecord s r n false = some none) : enqApply r n none false s = enqEffect r n false s := by
  simp only [enqApply, turn, ready, onlyIf, Bool.false_eq_true, if_false]

theorem deqApply_out_of_turn (turn : queTurn s r n .deq = none) (bad : Option Nat) (eccs : List LineEcc) : deqApply r n bad eccs false s = s := by
  unfold deqApply
  rw [turn]

theorem deqApply_bad (turn : queTurn s r n .deq = some e) (k : Nat) (eccs : List LineEcc) : deqApply r n (some k) eccs false s = recError e.target.toNat k s := by
  unfold deqApply
  rw [turn]

/-- ENQ_APPLY of a running core, from the state that the errors found in the journal leave. -/
theorem exec_enqApply {x : Pick} {bad : Option Nat} {u t : State} (run : coreRuns u = true) (found : s = actAll x.errs u) (no : x.no = n) (effect : enqApply r n bad false s = t) (ht : settled t) :
    exec (.enqApply r x bad) u = .next t := by
  subst found no effect
  exact congrArg Host.Outcome.next ((if_pos run).trans (settle_settled ht))

/-- DEQ_APPLY of a running core, from the state that the errors found in the journal leave. -/
theorem exec_deqApply {x : Pick} {bad : Option Nat} {eccs : List LineEcc} {u t : State} (run : coreRuns u = true) (found : s = actAll x.errs u) (no : x.no = n)
    (effect : deqApply r n bad eccs false s = t) (ht : settled t) : exec (.deqApply r x bad eccs) u = .next t := by
  subst found no effect
  exact congrArg Host.Outcome.next ((if_pos run).trans (settle_settled ht))

end

theorem Faulted.marked {q reason : Nat} {s t : State} (h : Faulted q reason s t) : (t.qd q).st = .faulted ∧ (t.qd q).freason = reason ∧ (t.qd q).depth = (s.qd q).depth := by
  rw [h.at_q]
  exact ⟨rfl, rfl, rfl⟩

/-- Settles O43: each case of ENQ_APPLY and DEQ_APPLY is one effect, fault or read, and what follows it leaves the descriptors and counts alone. -/
theorem queuesMove : Obligations.QueuesMove := by
  unfold Obligations.QueuesMove
  refine ⟨?enq, ?enqWaits, ?enqFaulty, ?enqNone, ?enqBad, ?deq, ?deqReads, ?deqBad, ?deqNone⟩
  case enq =>
    intro r n e p x u s run found no hs turn planned ready
    obtain ⟨moved, plans, keeps⟩ := enqEffect_moves (getEntry_of_queTurn turn) planned false
    obtain ⟨d8, dram, wmem, mans⟩ := stillView_eq moved.still
    exact ⟨_, exec_enqApply run found no (enqApply_takes_effect turn ready) (keeps hs), moved.at_q, moved.others, plans, moved.requests_eq, moved.cells_eq, d8, dram, wmem, mans⟩
  case enqWaits =>
    intro r n e x u s run found no hs turn waits
    exact exec_enqApply run found no (enqApply_waits turn waits) hs
  case enqFaulty =>
    intro r n k e w x u s run found no hs turn faulty fresh
    have faulted := faulted_queueFault fresh k w
    obtain ⟨d8, dram, wmem, -⟩ := stillView_eq faulted.still
    obtain ⟨st, reason, -⟩ := faulted.marked
    exact ⟨_, exec_enqApply run found no (enqApply_faulty turn faulty) (faulted.settled hs), st, reason, faulted.others, d8, dram, wmem⟩
  case enqNone =>
    intro r n b x u s run found no hs turn
    exact exec_enqApply run found no (enqApply_out_of_turn turn b) hs
  case enqBad =>
    intro r n k e x u s run found no hs turn fresh
    have faulted := faulted_recError fresh k
    obtain ⟨d8, dram, wmem, -⟩ := stillView_eq faulted.still
    obtain ⟨st, reason, depth⟩ := faulted.marked
    exact ⟨_, exec_enqApply run found no (enqApply_bad turn k) (faulted.settled hs), st, reason, depth, faulted.counted, faulted.others, d8, dram, wmem⟩
  case deq =>
    intro r n e l d gone x u s run found no hs turn cells readable direct records image
    obtain ⟨bad, led, effect⟩ := deqApply_framed turn cells readable direct records
    obtain ⟨moved, keeps⟩ := deqEffect_moves (s := { s with led := led }) image r n e bad
    obtain ⟨d8, dram, wmem, mans⟩ := stillView_eq moved.still
    exact ⟨_, exec_deqApply run found no effect (keeps hs), moved.at_q, moved.others, moved.requests_eq, moved.cells_eq, d8, dram, wmem, mans⟩
  case deqReads =>
    intro r n e l x u s run found no hs turn idle cells readable direct
    have begun := readsBegun_of_pushed r n e.man (directCells s l) (recordReads s l) s
    obtain ⟨d8, store⟩ := storeView_eq begun.stored
    have reads := begun.reads
    rw [idle, List.length_nil, Nat.zero_add] at reads
    exact ⟨_, exec_deqApply run found no (deqApply_unframed turn cells readable idle direct) (begun.settled hs), reads, begun.desc, begun.counted, d8, store⟩
  case deqBad =>
    intro r n k e ecc x u s run found no hs turn fresh
    have faulted := faulted_recError fresh k
    obtain ⟨d8, dram, wmem, -⟩ := stillView_eq faulted.still
    obtain ⟨st, reason, -⟩ := faulted.marked
    exact ⟨_, exec_deqApply run found no (deqApply_bad turn k ecc) (faulted.settled hs), st, reason, faulted.others, d8, dram, wmem⟩
  case deqNone =>
    intro r n b ecc x u s run found no hs turn
    exact exec_deqApply run found no (deqApply_out_of_turn turn b ecc) hs

end Sys2Proof.Proofs

/-! PROOF. The block pool's initialisation (08 R236): the map and the pool's own registers that it reads, the lines of the stack, and the start. -/

namespace Sys2Proof.Proofs
open Sys2Proof Sys2Proof.Machine Sys2Proof.Laws

/-! ### The map and the pool -/

/-- The registers of the loaded map and of the block pool. -/
def poolWords : List Nat :=
  [GLB + GLB_MAP_MEMBERS_MEMBERS.off, GLB + GLB_MAP_CTL_LOADED.off, GLB + GLB_MAP_GEOM_WIDTH.off, GLB + GLB_MAP_TWIN_EIGHTHS.off,
    QUE + QUE_POOL_BASE_LO_BASE.off, QUE + QUE_POOL_BASE_HI_BASE.off, QUE + QUE_POOL_BLOCKS_P.off, QUE + QUE_STATUS_INIT_BUSY.off]

/-- Two states agree in the loaded map, in the registers of the pool and in the lost channels. -/
structure SamePool (s t : State) : Prop where
  words : ∀ a ∈ poolWords, rg t a = rg s a
  ix : t.ix = s.ix
  lost : ∀ c, (t.chan c).lost = (s.chan c).lost

theorem SamePool.refl (s : State) : SamePool s s := ⟨fun _ _ => rfl, rfl, fun _ => rfl⟩

theorem SamePool.trans {s t u : State} (h : SamePool s t) (k : SamePool t u) : SamePool s u :=
  ⟨fun a m => (k.words a m).trans (h.words a m), k.ix.trans h.ix, fun c => (k.lost c).trans (h.lost c)⟩

theorem SamePool.symm {s t : State} (h : SamePool s t) : SamePool t s := ⟨fun a m => (h.words a m).symm, h.ix.symm, fun c => (h.lost c).symm⟩

theorem samePool_breakPair (s : State) : SamePool s (breakPair s) := by
  have apart : ∀ a ∈ poolWords, a ≠ GLB + GLB_STATUS_GUARD_FAIL.off ∧ a ≠ GLB + GLB_IRQ_STAT_GUARD.off := by decide
  exact ⟨fun a m => breakPair_rg s (apart a m).1 (apart a m).2, breakPair_ix s, fun c => by unfold State.chan; rw [breakPair_chans]⟩

theorem samePool_answer (l : List OutLn) (s : State) : SamePool s (answer l s) := by
  have apart : ∀ a ∈ poolWords, Uncounted a := by decide
  exact ⟨fun a m => rg_answer (apart a m), answer_ix l s, fun c => congrArg (fun x : Vector ChanState 16 => x[c].lost) (answer_inv (·.chans) l s (fun _ _ => rfl) fun _ _ => rfl)⟩

theorem samePool_fbumpN {f : Fld} (free : QUE + f.off ∉ poolWords) (n : Nat) (s : State) : SamePool s (fbumpN QUE f n s) :=
  ⟨fun _ m => rg_rgSet_ne _ _ _ s fun same => free (same ▸ m), rfl, fun _ => rfl⟩

theorem samePool_pushBg (c : Fin 16) (k : BgCls) (x : Cmd) (s : State) : SamePool s (pushBg c k x s) := by
  refine ⟨fun _ _ => rfl, rfl, fun d => ?_⟩
  by_cases e : d = c
  · subst e
    simp [State.chan, pushBg, updChan]
  · simp [State.chan, pushBg, updChan, Fin.val_ne_of_ne (Ne.symm e)]

section
variable {s t : State} (h : SamePool s t)
include h

theorem SamePool.map_field {f : Fld} (m : GLB + f.off ∈ poolWords) : fget t GLB f = fget s GLB f := congrArg f.get (h.words _ m)

theorem SamePool.pool_field {f : Fld} (m : QUE + f.off ∈ poolWords) : fget t QUE f = fget s QUE f := congrArg f.get (h.words _ m)

theorem SamePool.map_bit {f : Fld} (m : GLB + f.off ∈ poolWords) : fbit t GLB f = fbit s GLB f := congrArg (· != 0) (h.map_field m)

theorem SamePool.pool_bit {f : Fld} (m : QUE + f.off ∈ poolWords) : fbit t QUE f = fbit s QUE f := congrArg (· != 0) (h.pool_field m)

theorem SamePool.inMap : inMap t = inMap s := by
  funext c
  simp only [Machine.inMap, h.map_field (f := GLB_MAP_MEMBERS_MEMBERS) (by decide), h.map_bit (f := GLB_MAP_CTL_LOADED) (by decide)]

theorem SamePool.chanUp : chanUp t = chanUp s := by
  funext c
  simp only [Machine.chanUp, h.inMap, h.lost]

theorem SamePool.members : members t = members s := by simp only [Machine.members, h.inMap]

theorem SamePool.pairedChans : pairedChans t = pairedChans s := by simp only [Machine.pairedChans, h.inMap, h.members]

theorem SamePool.chLines : chLines t = chLines s := by
  have rows : geoRows t = geoRows s := by simp only [geoRows, geoDens, h.map_field (f := GLB_MAP_GEOM_DENS) (by decide)]
  have x8 : geoX8 t = geoX8 s := h.map_bit (by decide)
  have cols : geoCols t = geoCols s := by simp only [geoCols, x8]
  have ranks : geoRanks t = geoRanks s := by simp only [geoRanks, h.map_bit (f := GLB_MAP_GEOM_RANKS) (by decide)]
  simp only [Machine.chLines, rankLines, rows, cols, ranks]

theorem SamePool.twinE : twinE t = twinE s := by simp only [Machine.twinE, h.map_field (f := GLB_MAP_TWIN_EIGHTHS) (by decide)]

theorem SamePool.twinFirst : twinFirst t = twinFirst s := by simp only [Machine.twinFirst, h.chLines, h.twinE]

theorem SamePool.ordLines : ordLines t = ordLines s := by simp only [Machine.ordLines, h.members, h.twinFirst]

theorem SamePool.topLines : topLines t = topLines s := by simp only [Machine.topLines, h.ordLines, h.pairedChans, h.chLines, h.twinE]

theorem SamePool.chHash : chHash t = chHash s := by
  funext x
  have masks : chMask t = chMask s := by
    funext k
    simp only [chMask, ixGet, h.ix]
  simp only [Machine.chHash, masks]

theorem SamePool.placeOf : placeOf t = placeOf s := by
  funext l
  simp only [Machine.placeOf, h.members, h.topLines, h.ordLines, h.pairedChans, h.twinFirst, h.chHash]

theorem SamePool.poolBlocks : poolBlocks t = poolBlocks s := h.pool_field (by decide)

theorem SamePool.poolBase : poolBase t = poolBase s := by
  simp only [Machine.poolBase, h.pool_field (f := QUE_POOL_BASE_LO_BASE) (by decide), h.pool_field (f := QUE_POOL_BASE_HI_BASE) (by decide)]

theorem SamePool.stackRows : stackRows t = stackRows s := by simp only [Machine.stackRows, stackShift, h.poolBlocks]

theorem SamePool.stackLineNo : stackLineNo t = stackLineNo s := by
  funext e
  simp only [Machine.stackLineNo, stackRow, stackShift, h.poolBlocks, h.poolBase]

theorem SamePool.poolRefusal : poolRefusal t = poolRefusal s := by
  funext base p
  have done : poolSet t = poolSet s := by simp only [poolSet, h.pool_bit (f := QUE_STATUS_INIT_BUSY) (by decide), h.pool_bit (f := QUE_STATUS_INIT_DONE) (by decide)]
  simp only [Machine.poolRefusal, done, h.topLines, h.ordLines]

end

/-! ### The lines of the stack -/

/-- Every line that holds an entry of the stack lies on a channel that is up. -/
def linesUp (s : State) : Prop := ∀ e, e < poolBlocks s → (placeOf s (stackLineNo s e)).any (fun x => chanUp s x.ch) = true

theorem linesUp_congr {s t : State} (h : SamePool s t) (up : linesUp s) : linesUp t := fun e lt => by
  rw [h.placeOf, h.stackLineNo, h.chanUp]
  exact up e (h.poolBlocks ▸ lt)

/-- The first entry of a line of the stack is one of its entries. -/
theorem rowFirst_lt {s : State} (blocks : 0 < poolBlocks s) {k : Nat} (lt : k < stackRows s) : rowFirst s k < poolBlocks s := by
  unfold stackRows cdiv at lt
  unfold rowFirst
  omega

/-- What the issue of lines of the stack at initialisation keeps: the map and the pool, and, where every line's channel is up, the lines that are left and the blocks. -/
structure LinesIssued (s t : State) : Prop where
  pool : SamePool s t
  way : t.way = s.way
  d8 : t.d8 = s.d8
  left_le : t.que.initLeft ≤ s.que.initLeft
  whole : linesUp s → t.que.initLeft = s.que.initLeft ∧ t.que.fresh = s.que.fresh

theorem LinesIssued.refl (s : State) : LinesIssued s s := ⟨.refl s, rfl, rfl, Nat.le_refl _, fun _ => ⟨rfl, rfl⟩⟩

theorem LinesIssued.trans {s t u : State} (h : LinesIssued s t) (k : LinesIssued t u) : LinesIssued s u where
  pool := h.pool.trans k.pool
  way := k.way.trans h.way
  d8 := k.d8.trans h.d8
  left_le := Nat.le_trans k.left_le h.left_le
  whole up := by
    obtain ⟨left, fresh⟩ := h.whole up
    obtain ⟨left', fresh'⟩ := k.whole (linesUp_congr h.pool up)
    exact ⟨left'.trans left, fresh'.trans fresh⟩

theorem initFuel_issues (n : Nat) {s : State} (blocks : 0 < poolBlocks s) : LinesIssued s (initFuel n s) := by
  induction n generalizing s with
  | zero => exact .refl s
  | succ n ih =>
    unfold initFuel
    extract_lets k _ next
    split
    · exact .refl s
    case isFalse more =>
      have line_up (up : linesUp s) : (placeOf next (stackLineNo next (rowFirst next k))).any (fun x => chanUp next x.ch) = true :=
        up _ (rowFirst_lt blocks (Nat.lt_of_not_le more))
      have lost (down : ¬ linesUp s) : LinesIssued s (initFuel n (initLose k next)) :=
        have pool : SamePool s (initLose k next) := ⟨(samePool_fbumpN (by decide) _ _).words, rfl, fun _ => rfl⟩
        have lose : LinesIssued s (initLose k next) := ⟨pool, rfl, rfl, Nat.sub_le _ 1, fun up => absurd up down⟩
        lose.trans (ih (pool.poolBlocks ▸ blocks))
      split
      case h_1 p place =>
        rw [place] at line_up
        split
        · have pushed := samePool_pushBg p.ch .mig
          exact ⟨⟨fun _ _ => rfl, rfl, (pushed _ next).lost⟩, rfl, rfl, Nat.le_refl _, fun _ => ⟨rfl, rfl⟩⟩
        case isFalse down => exact lost fun up => down (line_up up)
      case h_2 none =>
        rw [none] at line_up
        exact lost fun up => Bool.false_ne_true (line_up up)

theorem initPushes_issue {α : Type} (l : List α) {s : State} (blocks : 0 < poolBlocks s) : LinesIssued s (forAll l (fun _ => initPush) s) := by
  unfold forAll
  induction l generalizing s with
  | nil => exact .refl s
  | cons _ l ih =>
    have first : LinesIssued s (initPush s) := initFuel_issues _ blocks
    exact first.trans (ih (first.pool.poolBlocks ▸ blocks))

/-! ### The start of the initialisation (08 R236) -/

theorem poolRefusal_none {s : State} {base p : Nat} (sound : poolRefusal s base p = none) : 65536 ≤ p ∧ p < 2 ^ 28 := by
  unfold poolRefusal at sound
  split at sound
  · contradiction
  split at sound
  · contradiction
  split at sound
  · contradiction
  omega

/-- A pool's initialisation that has begun: its registers, its first lines and the time. -/
structure PoolBegun (base p : Nat) (s t : State) : Prop where
  busy : fbit t QUE QUE_STATUS_INIT_BUSY = true
  blocks : poolBlocks t = p
  base_lo : fget t QUE QUE_POOL_BASE_LO_BASE = base / 2 ^ 20 % 4096
  base_hi : fget t QUE QUE_POOL_BASE_HI_BASE = base / 2 ^ 32 % 4096
  left_le : t.que.initLeft ≤ cdiv (p + p % 2 * 16) 32
  whole : linesUp t → t.que.initLeft = cdiv (p + p % 2 * 16) 32 ∧ t.que.fresh = [(0, p)]
  d8 : t.d8 = s.d8
  way : t.way = s.way

/-- The registers of a pool whose initialisation begins. -/
def poolRegs (base p : Nat) (s : State) : State :=
  fset QUE QUE_STATUS_INIT_BUSY 1
    (fset QUE QUE_POOL_BASE_LO_BASE (base / 2 ^ 20 % 4096) (fset QUE QUE_POOL_BASE_HI_BASE (base / 2 ^ 32) (fset QUE QUE_POOL_BLOCKS_P p s)))

theorem poolStart_accepted {s : State} {base p : Nat} (sound : poolRefusal s base p = none) : poolStart base p s = (initStart (poolRegs base p s), none) := by
  simp only [poolStart, sound, poolRegs]

theorem poolStart_refused {s : State} {base p : Nat} {w : String} (refused : poolRefusal s base p = some w) : poolStart base p s = (fset QUE QUE_STATUS_CFG_REJ 1 s, some w) := by
  simp only [poolStart, refused]

theorem initStart_issues {s : State} (blocks : 0 < poolBlocks s) :
    SamePool s (initStart s) ∧ (initStart s).way = s.way ∧ (initStart s).d8 = s.d8 ∧ (initStart s).que.initLeft ≤ stackRows s
      ∧ (linesUp (initStart s) → (initStart s).que.initLeft = stackRows s ∧ (initStart s).que.fresh = [(0, poolBlocks s)]) := by
  obtain ⟨pool, way, d8, left_le, whole⟩ : LinesIssued { s with que := { s.que with initLeft := stackRows s, initNext := 0, fresh := [(0, poolBlocks s)] } } (initStart s) :=
    initPushes_issue _ blocks
  exact ⟨⟨pool.words, pool.ix, pool.lost⟩, way, d8, left_le, fun up => whole (linesUp_congr pool.symm up)⟩

theorem poolStart_begins {s : State} {base p : Nat} (sound : poolRefusal s base p = none) : ∃ t, poolStart base p s = (t, none) ∧ PoolBegun base p s t := by
  obtain ⟨many, few⟩ := poolRefusal_none sound
  have blocks : poolBlocks (poolRegs base p s) = p := by
    unfold poolBlocks poolRegs
    rw [fget_fset_ne _ _ _ _ _ _ (by decide), fget_fset_ne _ _ _ _ _ _ (by decide), fget_fset_ne _ _ _ _ _ _ (by decide), fget_fset _ _ _ _ (by decide)]
    exact Nat.mod_eq_of_lt few
  have lo : fget (poolRegs base p s) QUE QUE_POOL_BASE_LO_BASE = base / 2 ^ 20 % 4096 := by
    unfold poolRegs
    rw [fget_fset_ne _ _ _ _ _ _ (by decide), fget_fset _ _ _ _ (by decide)]
    exact Nat.mod_mod _ _
  have hi : fget (poolRegs base p s) QUE QUE_POOL_BASE_HI_BASE = base / 2 ^ 32 % 4096 := by
    unfold poolRegs
    rw [fget_fset_ne _ _ _ _ _ _ (by decide), fget_fset_ne _ _ _ _ _ _ (by decide), fget_fset _ _ _ _ (by decide)]
    rfl
  have rows : stackRows (poolRegs base p s) = cdiv (p + p % 2 * 16) 32 := by
    unfold stackRows stackShift
    rw [blocks]
  obtain ⟨pool, way, d8, left_le, whole⟩ := initStart_issues (s := poolRegs base p s) (by omega)
  rw [rows] at left_le whole
  rw [blocks] at whole
  exact ⟨_, poolStart_accepted sound, (pool.pool_bit (by decide)).trans (fbit_fset_one _ _ _ (by decide) (by decide)), pool.poolBlocks.trans blocks, (pool.pool_field (by decide)).trans lo,
    (pool.pool_field (by decide)).trans hi, left_le, whole, d8, way⟩

/-- A refused initialisation sets CFG_REJ and nothing else. -/
structure PoolRefused (s t : State) : Prop where
  rejected : fbit t QUE QUE_STATUS_CFG_REJ = true
  busy : fbit t QUE QUE_STATUS_INIT_BUSY = fbit s QUE QUE_STATUS_INIT_BUSY
  que : t.que = s.que
  d8 : t.d8 = s.d8

theorem poolRefused_fset (s : State) : PoolRefused s (fset QUE QUE_STATUS_CFG_REJ 1 s) :=
  ⟨fbit_fset_one _ _ _ (by decide) (by decide), congrArg (· != 0) (fget_fset_other _ _ _ _ _ rfl (by decide) (by decide)), rfl, rfl⟩

end Sys2Proof.Proofs

/-! PROOF. The pool is started, refused and ready (08 R236). -/

namespace Sys2Proof.Proofs
open Sys2Proof Sys2Proof.Machine Sys2Proof.Laws

/-! ### QUEUE_POOL_INIT -/

theorem samePool_afterClear (s : State) : SamePool s (afterClear s) := ⟨fun _ _ => rfl, rfl, fun _ => rfl⟩

/-- A write of QUE_CTL.INIT reaches the pool with the registers' values. -/
theorem exec_queuePoolInit_write {s : State} (on : blockOn s QUE = true) :
    exec (.queuePoolInit none) s = .next (poolStart (poolBase s) (poolBlocks s) (afterClear (breakPair s))).1 := by
  have same := samePool_breakPair s
  refine congrArg Host.Outcome.next ((busWr_on on _).trans ?_)
  rw [same.poolBase, same.poolBlocks]

theorem poolRefusal_afterClear_breakPair (s : State) : poolRefusal (afterClear (breakPair s)) = poolRefusal s := ((samePool_breakPair s).trans (samePool_afterClear _)).poolRefusal

theorem exec_queuePoolInit_verb {s : State} (ready : verbReady s = true) (base p : Nat) :
    exec (.queuePoolInit (some (base, p))) s = .next (answer [(queuePool base p (afterClear s)).2] (queuePool base p (afterClear s)).1) :=
  congrArg Host.Outcome.next (runVerb1_ready ready _)

theorem poolBegun_of_write {s : State} (on : blockOn s QUE = true) (sound : poolRefusal s (poolBase s) (poolBlocks s) = none) :
    ∃ t, exec (.queuePoolInit none) s = .next t ∧ PoolBegun (poolBase s) (poolBlocks s) (afterClear (breakPair s)) t := by
  rw [← poolRefusal_afterClear_breakPair] at sound
  obtain ⟨t, started, begun⟩ := poolStart_begins sound
  have e := exec_queuePoolInit_write on
  rw [started] at e
  exact ⟨t, e, begun⟩

theorem poolRefused_of_write {s : State} {w : String} (on : blockOn s QUE = true) (refused : poolRefusal s (poolBase s) (poolBlocks s) = some w) :
    ∃ t, exec (.queuePoolInit none) s = .next t ∧ PoolRefused s t := by
  rw [← poolRefusal_afterClear_breakPair] at refused
  have e := exec_queuePoolInit_write on
  rw [poolStart_refused refused] at e
  obtain ⟨rejected, busy, que, d8⟩ := poolRefused_fset (afterClear (breakPair s))
  have before : fbit (breakPair s) QUE QUE_STATUS_INIT_BUSY = fbit s QUE QUE_STATUS_INIT_BUSY := (samePool_breakPair s).pool_bit (by decide)
  exact ⟨_, e, rejected, busy.trans before, que.trans (breakPair_que s), d8.trans (breakPair_d8 s)⟩

theorem answer_que (l : List OutLn) (s : State) : (answer l s).que = s.que := answer_inv (·.que) l s (fun _ _ => rfl) fun _ _ => rfl

theorem poolBegun_answer {base p : Nat} {s t : State} (h : PoolBegun base p s t) (l : List OutLn) : PoolBegun base p s (answer l t) := by
  have same := samePool_answer l t
  exact ⟨(same.pool_bit (by decide)).trans h.busy, same.poolBlocks.trans h.blocks, (same.pool_field (by decide)).trans h.base_lo, (same.pool_field (by decide)).trans h.base_hi,
    answer_que l t ▸ h.left_le, fun up => answer_que l t ▸ h.whole (linesUp_congr same.symm up), (answer_d8 l t).trans h.d8, (answer_way l t).trans h.way⟩

theorem poolBegun_of_verb {s : State} {base p : Nat} (ready : verbReady s = true) (sound : poolRefusal s base p = none) :
    ∃ t, exec (.queuePoolInit (some (base, p))) s = .next t ∧ t.con.ans = [okLn [("state", .s "init")]] ∧ PoolBegun base p (afterClear s) t := by
  rw [← (samePool_afterClear s).poolRefusal] at sound
  obtain ⟨t, started, begun⟩ := poolStart_begins sound
  have e := exec_queuePoolInit_verb ready base p
  simp only [queuePool, started] at e
  exact ⟨_, e, rfl, poolBegun_answer begun _⟩

theorem poolRefused_of_verb {s : State} {base p : Nat} {w : String} (ready : verbReady s = true) (refused : poolRefusal s base p = some w) :
    ∃ t, exec (.queuePoolInit (some (base, p))) s = .next t ∧ t.con.ans = [erLn 430 "pool refused" [("reason", .s w)]] ∧ fbit t QUE QUE_STATUS_CFG_REJ = true ∧ t.que = s.que ∧ t.d8 = s.d8 := by
  rw [← (samePool_afterClear s).poolRefusal] at refused
  have e := exec_queuePoolInit_verb ready base p
  simp only [queuePool, poolStart_refused refused] at e
  obtain ⟨rejected, -, que, d8⟩ := poolRefused_fset (afterClear s)
  exact ⟨_, e, rfl, (congrArg (· != 0) (fget_answer (by decide))).trans rejected, (answer_que _ _).trans que, (answer_d8 _ _).trans d8⟩

/-! ### QUEUE_POOL_READY -/

theorem poolReady_waits {s : State} (h : fbit s QUE QUE_STATUS_INIT_BUSY = false ∨ s.que.initLeft ≠ 0) : poolReady s = s := by
  refine if_pos ?_
  simpa only [Bool.not_eq_true'] using h

theorem fbit_queStat {f : Fld} (off : f.off = QUE_STATUS_POOL_SHORT.off) (below : f.lsb + f.width ≤ QUE_STATUS_POOL_SHORT.lsb) (s : State) : fbit (queStat s) QUE f = fbit s QUE f := by
  have apart : QUE + f.off ≠ QUE + QUE_FREE_FREE.off ∧ QUE + f.off ≠ QUE + QUE_FRMFREE_FREE.off := by rw [off]; decide
  refine congrArg (· != 0) ?_
  unfold queStat fsetB
  exact (fget_fset_other _ _ _ _ _ off (by decide) (.inl below)).trans ((fget_fset_ne _ _ _ _ _ _ apart.1).trans (fget_fset_ne _ _ _ _ _ _ apart.2))

/-- A pool that is ready: what its registers, its stack and its limits show. -/
structure PoolReady (s t : State) : Prop where
  busy : fbit t QUE QUE_STATUS_INIT_BUSY = false
  done : fbit t QUE QUE_STATUS_INIT_DONE = true
  reserve : fget t QUE QUE_RSV_RSV = max 8192 (poolBlocks s / 256)
  limit : fget t MAN MAN_BLKMAX_BLK = poolBlocks s - max 8192 (poolBlocks s / 256)
  left : t.que.initLeft = s.que.initLeft
  ended : t.que.initDone = true
  cached : t.que.cached = min 896 (s.que.fresh.map (·.2)).sum
  free : freeBlocks t = (s.que.fresh.map (·.2)).sum
  d8 : t.d8 = s.d8

theorem poolReady_ready {s : State} (busy : fbit s QUE QUE_STATUS_INIT_BUSY = true) (left : s.que.initLeft = 0) : PoolReady s (poolReady s) := by
  have few : poolBlocks s < 2 ^ 28 := fget_lt s QUE QUE_POOL_BLOCKS_P
  unfold poolReady
  rw [if_neg (by simp [busy, left])]
  extract_lets p _ ended rsv unbusied limited
  have status {f : Fld} (off : f.off = QUE_STATUS_POOL_SHORT.off) (below : f.lsb + f.width ≤ QUE_STATUS_POOL_SHORT.lsb) : fbit limited QUE f = fbit unbusied QUE f := by
    have apart : QUE + f.off ≠ MAN + MAN_BLKMAX_BLK.off ∧ QUE + f.off ≠ QUE + QUE_RSV_RSV.off := by rw [off]; decide
    refine Eq.trans (congrArg (· != 0) ?_) (fbit_queStat off below unbusied)
    exact (fget_fset_ne _ _ _ _ _ _ apart.1).trans (fget_fset_ne _ _ _ _ _ _ apart.2)
  have shown {b : Nat} {f : Fld} (h1 : b + f.off ≠ GLB + 8) (h2 : b + f.off ≠ CON + CON_STATUS_EV_LOST.off) (h3 : b + f.off ≠ CON + CON_EVLOST_COUNT.off) (k : String)
      (x : List (String × FVal)) : fget (emit k x limited) b f = fget limited b f := fget_emit b f k x limited h1 h2 h3
  have que (k : String) (x : List (String × FVal)) : (emit k x limited).que = { ended.que with shortSent := limited.que.shortSent } := emit_que k x limited
  have same_time : limited.d8 = s.d8 := by simp [limited, unbusied, ended, queStat]
  have fresh : freeBlocks ended = (s.que.fresh.map (·.2)).sum := Nat.zero_add _
  refine ⟨?_, ?_, ?_, ?_, ?_, ?_, ?_, ?_, (emit_d8 _ _ limited).trans same_time⟩
  · have unset : fbit unbusied QUE QUE_STATUS_INIT_BUSY = false := fbit_fset_zero QUE QUE_STATUS_INIT_BUSY _ (by decide)
    exact (congrArg (· != 0) (shown (by decide) (by decide) (by decide) _ _)).trans ((status (f := QUE_STATUS_INIT_BUSY) rfl (by decide)).trans unset)
  · have raised : fbit unbusied QUE QUE_STATUS_INIT_DONE = true :=
      (congrArg (· != 0) (fget_fset_other QUE QUE_STATUS_INIT_DONE QUE_STATUS_INIT_BUSY 0 _ rfl (by decide) (by decide))).trans (fbit_fset_one QUE QUE_STATUS_INIT_DONE ended (by decide) (by decide))
    exact (congrArg (· != 0) (shown (by decide) (by decide) (by decide) _ _)).trans ((status (f := QUE_STATUS_INIT_DONE) rfl (by decide)).trans raised)
  · refine (shown (by decide) (by decide) (by decide) _ _).trans ((fget_fset_ne _ _ _ _ _ _ (by decide)).trans ((fget_fset _ _ _ _ (by decide)).trans (Nat.mod_eq_of_lt ?_)))
    show max 8192 (poolBlocks s / 256) < 2 ^ 28
    omega
  · refine (shown (by decide) (by decide) (by decide) _ _).trans ((fget_fset _ _ _ _ (by decide)).trans (Nat.mod_eq_of_lt ?_))
    show poolBlocks s - max 8192 (poolBlocks s / 256) < 2 ^ 28
    omega
  · rw [que]
  · rw [que]
  · rw [que]
    exact congrArg (min 896) fresh
  · unfold freeBlocks
    rw [que]
    exact fresh

end Sys2Proof.Proofs

/-! PROOF. `queue reset` (08 R264): what the reads of a chain's records leave, and the queue that is discarded. -/

namespace Sys2Proof.Proofs
open Sys2Proof Sys2Proof.Machine Sys2Proof.Laws

/-! ### A line read at once leaves the queue engine -/

@[simp] theorem pushHist_que (c : Fin 16) (k : DKind) (r bg bk t : Nat) (s : State) : (pushHist c k r bg bk t s).que = s.que := rfl

@[simp] theorem useCa_que (c : Fin 16) (s : State) : (useCa c s).que = s.que := rfl

@[simp] theorem stopUntil_que (c : Fin 16) (t8 : Nat) (s : State) : (stopUntil c t8 s).que = s.que := rfl

@[simp] theorem mapRaa_que (c : Fin 16) (p : Nat → Bool) (f : Nat → Nat) (s : State) : (mapRaa c p f s).que = s.que := rfl

@[simp] theorem advanceTo8_que (t8 : Nat) (s : State) : (advanceTo8 t8 s).que = s.que := rfl

@[simp] theorem exitPd_que (c : Fin 16) (r : Fin 2) (s : State) : (exitPd c r s).que = s.que := by
  unfold exitPd
  split <;> rfl

@[simp] theorem stopIdle_que (c : Fin 16) (s : State) : (stopIdle c s).que = s.que := by
  unfold stopIdle
  split <;> rfl

@[simp] theorem entryStop_que (c : Fin 16) (s : State) : (entryStop c s).que = s.que := stopIdle_que c _

@[simp] theorem closeBanks_que (c : Fin 16) (p : Nat → Bool) (s : State) : (closeBanks c p s).que = s.que := by
  unfold closeBanks
  extract_lets l s1
  split
  · rfl
  · exact forAll_inv (·.que) _ _ _ fun _ _ => pushHist_que ..

@[simp] theorem throttle_que (c : Fin 16) (level : Nat) (man : Option (BitVec 8)) (s : State) : (throttle c level man s).que = s.que := by
  unfold throttle
  extract_lets old new fresh raised limited shown
  have raised_eq : raised.que = s.que := by
    unfold raised
    split <;> rfl
  have limited_eq : limited.que = raised.que := by
    unfold limited
    clear_value fresh raised
    split <;> rfl
  have shown_eq : shown.que = s.que := limited_eq.trans raised_eq
  split
  · exact (emit_que _ _ _).trans shown_eq
  · exact shown_eq

@[simp] theorem issueRfm_que (c : Fin 16) (r : Nat) (bks : List Nat) (s : State) : (issueRfm c r bks s).que = s.que := by
  unfold issueRfm
  split
  · rfl
  extract_lets n closed there imt charged issued lowered stopped bud
  have lowered_eq : lowered.que = s.que := by simp [lowered, issued, charged, there, closed]
  have stopped_eq : stopped.que = lowered.que := by
    unfold stopped
    rw [stopUntil_que, useCa_que]
    exact forAll_inv (·.que) _ _ _ fun _ _ => pushHist_que ..
  split
  · rw [throttle_que, updChan_que, stopped_eq, lowered_eq]
  · rw [stopped_eq, lowered_eq]

@[simp] theorem countAct_que (c : Fin 16) (b : Bank) (m : Option (BitVec 8)) (s : State) : (countAct c b m s).que = s.que := by
  unfold countAct
  extract_lets k counted old
  split
  extract_lets tracked t1 t2 t3 reach first second level
  have first_eq : first.que = s.que := onlyIf_inv (·.que) _ _ tracked fun _ => updChan_que ..
  have second_eq : second.que = first.que := onlyIf_inv (·.que) _ _ first fun _ => updChan_que ..
  exact (onlyIf_inv (·.que) _ _ second fun _ => throttle_que ..).trans (second_eq.trans first_eq)

@[simp] theorem rowOnce_que (c : Fin 16) (lam : Nat) (man : Option (BitVec 8)) (s : State) : (rowOnce c lam man s).que = s.que :=
  (forAll_inv (·.que) _ _ _ fun _ _ => issueRfm_que ..).trans (countAct_que ..)

@[simp] theorem readAtOnce_que (c : Fin 16) (lam : Nat) (man : Option (BitVec 8)) (s : State) : (readAtOnce c lam man s).que = s.que := by
  unfold readAtOnce
  refine (rowOnce_que ..).trans ((charge_que ..).trans ?_)
  split <;> rfl

@[simp] theorem readRec_que (q b : Nat) (s : State) : (readRec q b s).que = s.que := by
  unfold readRec recAtOnce
  extract_lets man
  split
  · rfl
  · split
    · exact onlyIf_inv (·.que) _ _ s fun _ => readAtOnce_que ..
    · rfl

theorem forAll_readRec_que (q : Nat) (l : List Nat) (s : State) : (forAll l (readRec q) s).que = s.que := forAll_inv (·.que) l _ s fun _ _ => readRec_que ..

/-! ### Records that stand in frames -/

theorem readRec_held {q b : Nat} {s : State} (held : recHeld s b = true) : readRec q b s = charge 0x00 1 ((queOwner s q).map (BitVec.ofNat 8)) s := if_pos held

theorem recHeld_congr {s t : State} (h : t.que = s.que) (b : Nat) : recHeld t b = recHeld s b := by
  simp only [recHeld, qFrameOf, State.qfr, h]

/-- DTIME and the accounts. -/
def accountView (s : State) := (s.d8, s.accts)

theorem accountView_besideEngine : BesideEngine accountView := ⟨fun _ _ _ _ => rfl, fun _ _ _ _ _ _ => rfl⟩

theorem accountView_eq {s t : State} (h : accountView t = accountView s) : t.d8 = s.d8 ∧ t.accts = s.accts := ⟨congrArg (·.1) h, congrArg (·.2) h⟩

/-- Records that all stand in frames are read without time and without the charge of a line. -/
theorem accountView_readRecs {s : State} (held : ∀ b, recHeld s b = true) (q : Nat) (l : List Nat) : accountView (forAll l (readRec q) s) = accountView s := by
  unfold forAll
  induction l generalizing s with
  | nil => rfl
  | cons b l ih =>
    have still (k : Nat) : recHeld (readRec q b s) k = true := (recHeld_congr (readRec_que q b s) k).trans (held k)
    rw [List.foldl_cons, ih still, readRec_held (held b)]
    rfl

/-! ### The queue is discarded -/

/-- A discarded queue: the records of its chain are read, and in a state like that its descriptor is cleared but for the packet counts. -/
theorem dropQueue_clears (q : Nat) (s : State) : ∃ l y, ((s.qd q).st = .empty → l = []) ∧ ∀ {β : Type} {g : State → β}, BesideEngine g →
    g y = g (forAll l (readRec q) s) ∧ g (dropQueue q s).1 = g (setQd q { enqPkts := (s.qd q).enqPkts, deqPkts := (s.qd q).deqPkts } y) := by
  obtain ⟨t, ends⟩ : ∃ t, (dropQueue q s).1 = t := ⟨_, rfl⟩
  rw [ends]
  unfold dropQueue at ends
  extract_lets d l lost before read left freed gone cleared _ counted at ends
  refine ⟨l, counted, fun empty => if_pos empty, fun {_ g} h => ⟨?_, ?_⟩⟩
  · have left_eq : g left = g read := forAll_inv g l _ read (leaveChain_engine h)
    have cleared_eq : g cleared = g left := forAll_inv g gone _ left fun b y => by
      refine (setBrec_engine h _ _ _).trans ?_
      split
      · exact freeQFrame_engine h _ y
      · rfl
    exact (fbumpN_engine h (by decide) _ _).trans (que_engine h (cleared_eq.trans left_eq) rfl rfl)
  · have written : evict (queStat (stackLevel (setQd q { enqPkts := d.enqPkts, deqPkts := d.deqPkts } counted))) = t := ends
    rw [← written]
    exact (evict_engine h _).trans ((queStat_engine h _).trans (stackLevel_engine h _))

/-- A queue that has been reset. -/
structure QueueDiscarded (q : Nat) (s t : State) : Prop where
  empty : (t.qd q).st = .empty ∧ (t.qd q).depth = 0 ∧ (t.qd q).pkts = 0
  kept : (t.qd q).enqPkts = (s.qd q).enqPkts ∧ (t.qd q).deqPkts = (s.qd q).deqPkts
  others : ∀ k, k ≠ q → t.qd k = s.qd k
  unread : (s.qd q).st = .empty ∨ (∀ b, recHeld s b = true) → t.d8 = s.d8 ∧ t.accts = s.accts

theorem dropQueue_discards (q : Nat) (s : State) : QueueDiscarded q s (dropQueue q s).1 := by
  obtain ⟨l, y, chain, views⟩ := dropQueue_clears q s
  obtain ⟨read, written⟩ := views desc_besideQueue.engine
  obtain ⟨at_q, others⟩ := qd_of_setQd written
  have before : y.que.desc = s.que.desc := read.trans (congrArg (·.desc) (forAll_readRec_que q l s))
  refine ⟨by rw [at_q]; exact ⟨rfl, rfl, rfl⟩, by rw [at_q]; exact ⟨rfl, rfl⟩, fun k apart => (others k apart).trans (qd_congr before k), fun quiet => ?_⟩
  have reads : accountView (forAll l (readRec q) s) = accountView s := by
    rcases quiet with empty | held
    · rw [chain empty]
      rfl
    · exact accountView_readRecs held q l
  obtain ⟨account, cleared⟩ := views accountView_besideEngine
  exact accountView_eq (cleared.trans (account.trans reads))

theorem queueDiscarded_answer {q : Nat} {s t : State} (h : QueueDiscarded q s t) (l : List OutLn) : QueueDiscarded q s (answer l t) := by
  have qd : ∀ k, (answer l t).qd k = t.qd k := qd_congr (congrArg (·.desc) (answer_que l t))
  refine ⟨by rw [qd]; exact h.empty, by rw [qd]; exact h.kept, fun k apart => (qd k).trans (h.others k apart), fun quiet => ?_⟩
  obtain ⟨d8, accts⟩ := h.unread quiet
  exact ⟨(answer_d8 l t).trans d8, (answer_inv (·.accts) l t (fun _ _ => rfl) fun _ _ => rfl).trans accts⟩

theorem exec_queueReset {q : Nat} {s t : State} {l : OutLn} (ready : verbReady s = true) (reset : queueReset q s = (t, l)) : exec (.queueReset q) s = .next (answer [l] t) := by
  refine congrArg Host.Outcome.next ((runVerb1_ready ready _).trans ?_)
  rw [reset]

/-- A reset of a queue may take time and charge accounts, and stores nothing else. -/
theorem queueReset_stores {q : Nat} {s t : State} (e : exec (.queueReset q) s = .next t) : s.d8 ≤ t.d8 ∧ t.dram = s.dram ∧ t.wmem = s.wmem ∧ t.streams = s.streams ∧ t.mans = s.mans := by
  have kept (σ : Store) (other : σ ∉ [Store.accts]) := exec_keptStore e other
  exact ⟨timeNeverFalls _ _ _ rfl e, kept .dram (by decide), kept .wmem (by decide), kept .streams (by decide), kept .mans (by decide)⟩

theorem queueReset_idle {q : Nat} {s : State} (le : q ≤ 131071) (idle : inflight s q = 0) :
    queueReset q s = ((dropQueue q s).1, okLn [("q", .h q 5), ("freed", .n (dropQueue q s).2.1), ("lost", .n (dropQueue q s).2.2)]) := by
  unfold queueReset
  rw [if_neg (by omega), if_neg (by simp [idle])]

theorem queueReset_busy {q : Nat} {s : State} (le : q ≤ 131071) (busy : inflight s q ≠ 0) :
    queueReset q s = (s, erLn 431 "queue busy" [("q", .h q 5), ("inflight", .n (inflight s q))]) := by
  unfold queueReset
  rw [if_neg (by omega), if_pos busy]

theorem queueReset_range {q : Nat} {s : State} (gt : 131071 < q) : queueReset q s = (s, erLn 432 "queue range" [("q", .h q 5)]) := if_pos gt

end Sys2Proof.Proofs

/-! PROOF. O44: the pool's initialisation and `queue reset`, by the cases of 08 R236 and R264. -/

namespace Sys2Proof.Proofs
open Sys2Proof Sys2Proof.Machine Sys2Proof.Laws

/-- Settles O44: a pool's start, refusal and end are the branches of `poolStart` and `poolReady`; a reset queue is one that `dropQueue` has discarded. -/
theorem poolAndQueueVerbs : Obligations.PoolAndQueueVerbs := by
  unfold Obligations.PoolAndQueueVerbs
  refine ⟨?write, ?writeRefused, ?verb, ?verbRefused, ?ready, ?readyWaits, ?reset, ?resetBusy, ?resetRange⟩
  case write =>
    intro s on sound
    obtain ⟨t, e, begun⟩ := poolBegun_of_write on sound
    refine ⟨t, e, begun.busy, begun.left_le, fun up => begun.whole fun k lt => up k (begun.blocks ▸ lt), begun.blocks, ?_, begun.d8.trans (breakPair_d8 s), exec_sameStore e rfl⟩
    rw [begun.way]
    rfl
  case writeRefused =>
    intro w s on refused
    obtain ⟨t, e, rejected, busy, que, d8⟩ := poolRefused_of_write on refused
    exact ⟨t, e, rejected, busy, que, d8, exec_sameStore e rfl⟩
  case verb =>
    intro base p s ready sound
    obtain ⟨t, e, ans, begun⟩ := poolBegun_of_verb ready sound
    exact ⟨t, e, ans, begun.busy, begun.blocks, begun.left_le, fun up => begun.whole (fun k lt => up k (begun.blocks ▸ lt)), begun.base_lo, begun.base_hi, begun.d8, exec_sameStore e rfl⟩
  case verbRefused =>
    intro base p w s ready refused
    obtain ⟨t, e, ans, rejected, que, d8⟩ := poolRefused_of_verb ready refused
    exact ⟨t, e, ans, rejected, que, d8, exec_sameStore e rfl⟩
  case ready =>
    intro s run busy left
    have e : exec .queuePoolReady s = .next (poolReady s) := congrArg Host.Outcome.next (if_pos run)
    obtain ⟨unbusy, initialised, reserve, limit, still, ended, cached, free, d8⟩ := poolReady_ready busy left
    obtain ⟨dram, wmem, -, streams, mans, -⟩ := exec_sameStore e rfl
    exact ⟨_, e, unbusy, initialised, still.trans left, ended, reserve, limit, cached, free, d8, dram, wmem, streams, mans⟩
  case readyWaits =>
    rintro s (stopped | waits)
    · exact congrArg Host.Outcome.next (if_neg (ne_true_of_eq_false stopped))
    · refine congrArg Host.Outcome.next ?_
      rw [poolReady_waits waits, ite_self]
  case reset =>
    intro q s ready le idle
    have e := exec_queueReset ready (queueReset_idle le idle)
    obtain ⟨⟨st, depth, pkts⟩, ⟨enqPkts, deqPkts⟩, others, unread⟩ := queueDiscarded_answer (dropQueue_discards q s)
      [okLn [("q", .h q 5), ("freed", .n (dropQueue q s).2.1), ("lost", .n (dropQueue q s).2.2)]]
    obtain ⟨later, dram, wmem, streams, mans⟩ := queueReset_stores e
    exact ⟨_, _, _, e, answer_ans _ _, st, depth, pkts, enqPkts, deqPkts, others, later, dram, wmem, streams, mans, unread⟩
  case resetBusy =>
    intro q s ready le busy
    have e := exec_queueReset ready (queueReset_busy le busy)
    exact ⟨_, e, answer_que _ s, answered_answer_self _ s⟩
  case resetRange =>
    intro q s ready gt
    have e := exec_queueReset ready (queueReset_range gt)
    exact ⟨_, e, answer_que _ s, answered_answer_self _ s⟩

end Sys2Proof.Proofs

/-! PROOF. Lines of a memory: a line that is written reads back, and the others stay (09 R266, R271). -/

namespace Sys2Proof.Proofs
open Sys2Proof Sys2Proof.Machine Sys2Proof.Laws

/-- A byte of a memory after a run of bytes has been written: one of the run, or the one that stood there. -/
theorem cellGet_cellsSet (m : List Host.Cell) (a : Nat) (l : List Byte) (k : Nat) :
    cellGet (cellsSet m a l) k = if a ≤ k ∧ k < a + l.length then l.getD (k - a) 0 else cellGet m k := by
  induction l generalizing m a with
  | nil =>
    have : ¬(a ≤ k ∧ k < a) := by omega
    simp [cellsSet, this]
  | cons b r ih =>
    rw [cellsSet, ih]
    rcases Nat.lt_trichotomy k a with below | rfl | above
    · rw [if_neg (by omega), if_neg (by omega)]
      exact tblGet_tblSet_ne emptyByte m a k b (Nat.ne_of_lt below)
    · rw [if_neg (by omega), if_pos (by simp), Nat.sub_self, List.getD_cons_zero]
      exact tblGet_tblSet emptyByte m k b
    · obtain ⟨d, rfl⟩ := Nat.exists_eq_add_of_lt above
      have inner : a + d + 1 - (a + 1) = d := by omega
      have whole : a + d + 1 - a = d + 1 := by omega
      rw [inner, whole, List.getD_cons_succ, List.length_cons]
      refine if_congr (by omega) rfl ?_
      exact tblGet_tblSet_ne emptyByte m a (a + d + 1) b (Nat.ne_of_gt above)

theorem length_lineList (l : Line) : (lineList l).length = 128 := by simp [lineList]

/-- The line at an address reads back as it was written there. -/
theorem cellLine_cellsSet (m : List Host.Cell) (a : Nat) (l : Line) : cellLine (cellsSet m a (lineList l)) a = l := by
  refine line_ext fun i hi => ?_
  rw [lineByte_cellLine _ _ hi, cellGet_cellsSet, if_pos (by rw [length_lineList]; omega), Nat.add_sub_cancel_left]
  simp [lineList, hi]

/-- A line that shares no byte with the one written stays. -/
theorem cellLine_cellsSet_apart (m : List Host.Cell) {a k : Nat} (l : Line) (apart : k + 128 ≤ a ∨ a + 128 ≤ k) :
    cellLine (cellsSet m a (lineList l)) k = cellLine m k := by
  refine line_ext fun i hi => ?_
  rw [lineByte_cellLine _ _ hi, lineByte_cellLine _ _ hi, cellGet_cellsSet, if_neg (by rw [length_lineList]; omega)]

/-- Two lines of DRAM, each within its channel, share no byte. -/
theorem dramAddr_apart {c k : Fin 16} {lam m : Nat} (hl : lam < 2 ^ 30) (hm : m < 2 ^ 30) (ne : (k, m) ≠ (c, lam)) :
    dramAddr k m + 128 ≤ dramAddr c lam ∨ dramAddr c lam + 128 ≤ dramAddr k m := by
  have differ : k.val ≠ c.val ∨ m ≠ lam := by
    by_contra! same
    exact ne (Prod.ext (Fin.ext same.1) same.2)
  unfold dramAddr
  omega

theorem setDram_dram (c : Fin 16) (lam : Nat) (l : Line) (s : State) : (setDram c lam l s).dram = cellsSet s.dram (dramAddr c lam) (lineList l) := by
  unfold setDram
  with_reducible rfl

theorem setWayLine_wmem (w : Nat) (l : Line) (s : State) : (setWayLine w l s).wmem = cellsSet s.wmem (w * 128) (lineList l) := by
  unfold setWayLine
  with_reducible rfl

theorem dramLine_setDram (c : Fin 16) (lam : Nat) (l : Line) (s : State) : dramLine (setDram c lam l s) c lam = l := by
  rw [dramLine, setDram_dram, cellLine_cellsSet]

theorem dramLine_setDram_ne {c k : Fin 16} {lam m : Nat} (l : Line) (s : State) (hl : lam < 2 ^ 30) (hm : m < 2 ^ 30) (ne : (k, m) ≠ (c, lam)) :
    dramLine (setDram c lam l s) k m = dramLine s k m := by
  rw [dramLine, setDram_dram, cellLine_cellsSet_apart _ _ (dramAddr_apart hl hm ne), dramLine]

theorem wayLine_setWayLine (w : Nat) (l : Line) (s : State) : wayLine (setWayLine w l s) w = l := by
  rw [wayLine, setWayLine_wmem, cellLine_cellsSet]

theorem wayLine_setWayLine_ne {w k : Nat} (l : Line) (s : State) (ne : k ≠ w) : wayLine (setWayLine w l s) k = wayLine s k := by
  rw [wayLine, setWayLine_wmem, cellLine_cellsSet_apart _ _ (by omega), wayLine]

/-- Settles O58: a line is the 128 bytes from its address on, and lines of different addresses share none. -/
theorem linesReadBack : Obligations.LinesReadBack := by
  unfold Obligations.LinesReadBack
  refine ⟨?dram, ?way⟩
  case dram =>
    intro c k lam m l s wf hl hm
    exact ⟨setDram_wf c lam l s wf, dramLine_setDram c lam l s, dramLine_setDram_ne l s hl hm, setDram_wmem c lam l s⟩
  case way =>
    intro w k l s wf
    exact ⟨setWayLine_wf w l s wf, wayLine_setWayLine w l s, wayLine_setWayLine_ne l s, setWayLine_dram w l s⟩

end Sys2Proof.Proofs

/-! PROOF. A background slot is granted to the write-back of a line whose segment another frame is being filled with (07 R210): the line that has been filled already is stale, and is read again (07 R203), so a fill joins the requests that wait at the channel. -/

namespace Sys2Proof.Proofs
open Sys2Proof Sys2Proof.Machine Sys2Proof.Laws

/-- The write-back of line 0 of tier frame 0. -/
def lineBack : BgReq := ⟨.mig, { src := .wback false 0 0, line := 0, wr := true, slot := .background }⟩

/-- Channel 0 is the one member of a loaded map and in service. Tier frame 0 is being emptied, with a line that waits to be written back, while pinned frame 0 is filled with its segment and has that line already. -/
def refilling : State :=
  let s := setFrame true 0 { st := .filling, filled := 1 } (setFrame false 0 { st := .leaving, dirty := 1, wb := 1 } State.reset)
  updChan 0 (fun y => { y with bkMig := 1024, bg := [lineBack] })
    (fset (CH 0) CH_STATUS_STATE 3 (fset GLB GLB_MAP_MEMBERS_MEMBERS 1 (fset GLB GLB_MAP_CTL_LOADED 1 s)))

/-- The grant takes the write-back from the queue of channel 0, and puts the fill read of its line there. -/
theorem bgGrant_refilling_bg : ((bgGrant 0 0 .clean refilling).chan 0).bg.length = 1 := by decide +kernel

/-- Refutes O35: the grant of a write-back makes its line stale in a frame that is being filled with its segment, and the fill read that is asked for again stands in the channel's queue, where the ninth clause has the request alone leave it. -/
theorem not_backgroundWorkDone : ¬ Obligations.BackgroundWorkDone := by
  unfold Obligations.BackgroundWorkDone
  rintro ⟨-, -, -, -, -, -, -, -, granted, -⟩
  obtain ⟨t, ht, -, left, -⟩ := granted 0 0 .clean lineBack refilling (updChan 0 (fun y => { y with bkMig := 1008 }) refilling) rfl (by decide +kernel) (by decide +kernel) rfl (.inl rfl)
  have run : bgGrant 0 0 .clean refilling = t := Host.Outcome.next.inj ht
  have refilled := bgGrant_refilling_bg
  rw [run, left] at refilled
  exact absurd refilled (by decide +kernel)

end Sys2Proof.Proofs

/-! PROOF. A channel's record and the blocks of registers beside it. -/

namespace Sys2Proof.Proofs
open Sys2Proof Sys2Proof.Machine Sys2Proof.Laws

/-! ### Records of channels and of PHYs -/

theorem chan_congr {s t : State} (h : t.chans = s.chans) (c : Fin 16) : t.chan c = s.chan c := by
  unfold State.chan
  rw [h]

theorem phy_congr {s t : State} (h : t.phys = s.phys) (c : Fin 16) : t.phy c = s.phy c := by
  unfold State.phy
  rw [h]

@[simp] theorem updChan_chan (c : Fin 16) (f : ChanState → ChanState) (s : State) : (updChan c f s).chan c = f (s.chan c) := by
  simp [State.chan, updChan]

theorem updChan_chan_ne {c k : Fin 16} (ne : k ≠ c) (f : ChanState → ChanState) (s : State) : (updChan c f s).chan k = s.chan k := by
  have : c.val ≠ k.val := fun e => ne (Fin.ext e.symm)
  simp [State.chan, updChan, this]

@[simp] theorem updPhy_phy (c : Fin 16) (f : PhyState → PhyState) (s : State) : (updPhy c f s).phy c = f (s.phy c) := by
  simp [State.phy, updPhy]

theorem updPhy_phy_ne {c k : Fin 16} (ne : k ≠ c) (f : PhyState → PhyState) (s : State) : (updPhy c f s).phy k = s.phy k := by
  have : c.val ≠ k.val := fun e => ne (Fin.ext e.symm)
  simp [State.phy, updPhy, this]

/-! ### Registers of a channel's block -/

/-- The register blocks below those of the channels. -/
theorem CH_ne_low (c : Fin 16) (i : Nat) {a : Nat} (low : a < 0x100000) : CH c + i ≠ a := by
  unfold CH
  omega

theorem CH_ne {c k : Fin 16} (ne : c ≠ k) {i j : Nat} (hi : i < 0x10000) (hj : j < 0x10000) : CH c + i ≠ CH k + j := by
  have : c.val ≠ k.val := fun e => ne (Fin.ext e)
  unfold CH
  omega

theorem fget_CH_fset_low (c : Fin 16) (f : Fld) {b : Nat} {g : Fld} (low : b + g.off < 0x100000) (v : Nat) (s : State) :
    fget (fset b g v s) (CH c) f = fget s (CH c) f := fget_fset_ne _ _ _ _ _ _ (CH_ne_low c _ low)

theorem fget_CH_emit (c : Fin 16) (f : Fld) (h : String) (x : List (String × FVal)) (s : State) : fget (emit h x s) (CH c) f = fget s (CH c) f :=
  fget_emit _ _ _ _ _ (CH_ne_low c _ (by decide)) (CH_ne_low c _ (by decide)) (CH_ne_low c _ (by decide))

theorem nth_off (f : Fld) (k : Nat) : (f.nth k).off = f.off + 4 * k := rfl

end Sys2Proof.Proofs

/-! PROOF. Windows of a channel that end (09 R279, R286, 10 R298, R306, R322). -/

namespace Sys2Proof.Proofs
open Sys2Proof Sys2Proof.Machine Sys2Proof.Laws

/-! ### The row-activation window -/

/-- The limits that a row-activation window's end leaves: those of manifests that reached T1 again in it (10 R322). -/
def keptLimits (y : ChanState) : List (BitVec 8 × Nat) := y.actLimit.filter fun x => y.actT1.contains x.1

/-- The level that a row-activation window's end leaves (10 R322). -/
def levelAfter (y : ChanState) (old : Nat) : Nat :=
  let chLim := if 2 ≤ old ∧ !y.actT2 then old - 1 else old
  if 2 ≤ chLim then chLim else if (keptLimits y).isEmpty then 0 else 1

/-- A row-activation window has ended, and the throttle's registers follow it. -/
def windowOver (c : Fin 16) (s : State) : State :=
  let x := advanceToNs ((s.chan c).actWinEnd * 1000000) s
  let y := updChan c (fun y => { y with trk := [], actT1 := [], actT2 := false, actLimit := keptLimits (s.chan c) }) x
  fset (CH c) CH_ROWSTAT_LIMITED (keptLimits (s.chan c)).length
    (fset (CH c) CH_ROWSTAT_LEVEL (levelAfter (s.chan c) (fget x (CH c) CH_ROWSTAT_LEVEL)) (updChan c (fun z => { z with actWinEnd := nextWin y c }) y))

/-- Limits that are lifted show in the accounts and in the arbiters' throttle registers alone. -/
theorem liftLimits_inv {β : Type} (g : State → β) (accounts : ∀ m k x s, g (setAcct m k x s) = g s) (c : Fin 16) (throttled : ∀ v s, g (fset ARB (ARB_THRCH_LIMIT.nth c) v s) = g s)
    (gone : List (BitVec 8 × Nat)) (s : State) : g (liftLimits c gone s) = g s := by
  unfold liftLimits
  extract_lets x cur
  have lifted : g x = g s := forAll_inv g _ _ _ fun _ _ => accounts _ _ _ _
  split
  · exact lifted
  · exact (throttled _ _).trans lifted

/-- What the end of a row-activation window leaves, but for accounts, the arbiters' throttle registers and the event (10 R322). -/
theorem rowactBoundary_view {β : Type} (g : State → β) (accounts : ∀ m k x s, g (setAcct m k x s) = g s) (c : Fin 16) (throttled : ∀ v s, g (fset ARB (ARB_THRCH_LIMIT.nth c) v s) = g s)
    (event : ∀ h x s, g (emit h x s) = g s) {s : State} (run : dtimeRuns s = true) : g (rowactBoundary c s) = g (windowOver c s) := by
  have lifted : ∀ gone, g (liftLimits c gone (windowOver c s)) = g (windowOver c s) := fun gone => liftLimits_inv g accounts c throttled gone _
  unfold rowactBoundary
  rw [if_neg (by simp [run])]
  extract_lets y x keep old chLim new z w v u
  split
  · exact lifted _
  · exact (event _ _ _).trans (lifted _)

theorem rowactBoundary_chan {c : Fin 16} {s : State} (run : dtimeRuns s = true) : (rowactBoundary c s).chan c = (windowOver c s).chan c :=
  rowactBoundary_view (·.chan c) (fun _ _ _ _ => rfl) c (fun _ _ => rfl) (fun _ _ _ => chan_congr (emit_chans _ _ _) c) run

theorem rowactBoundary_d8 {c : Fin 16} {s : State} (run : dtimeRuns s = true) : (rowactBoundary c s).d8 = firstCycle8 s (8 * ((s.chan c).actWinEnd * 1000000)) :=
  (rowactBoundary_view (·.d8) (fun _ _ _ _ => rfl) c (fun _ _ => rfl) (fun _ _ _ => emit_d8 _ _ _) run).trans (advanceToNs_d8 _ _)

theorem windowOver_chan (c : Fin 16) (s : State) : ((windowOver c s).chan c).trk = [] ∧ ((windowOver c s).chan c).actT1 = [] ∧ ((windowOver c s).chan c).actT2 = false
    ∧ ((windowOver c s).chan c).actLimit = keptLimits (s.chan c) := by
  unfold windowOver
  extract_lets x y
  rw [chan_congr (fset_chans _ _ _ _), chan_congr (fset_chans _ _ _ _), updChan_chan]
  simp [y]

theorem levelAfter_lt {y : ChanState} {old : Nat} (h : old < 4) : levelAfter y old < 4 := by
  unfold levelAfter
  extract_lets chLim
  have : chLim ≤ old := by
    unfold chLim
    split <;> omega
  split
  · omega
  · split <;> decide

theorem rowactBoundary_level {c : Fin 16} {s : State} (run : dtimeRuns s = true) :
    fget (rowactBoundary c s) (CH c) CH_ROWSTAT_LEVEL = levelAfter (s.chan c) (fget s (CH c) CH_ROWSTAT_LEVEL) := by
  have low : ARB + (ARB_THRCH_LIMIT.nth c).off < 0x100000 := by
    rw [nth_off]
    simp only [ARB, ARB_THRCH_LIMIT]
    omega
  have passed : fget (advanceToNs ((s.chan c).actWinEnd * 1000000) s) (CH c) CH_ROWSTAT_LEVEL = fget s (CH c) CH_ROWSTAT_LEVEL := fget_advanceTo8 _ _ _ _
  rw [rowactBoundary_view (fun t => fget t (CH c) CH_ROWSTAT_LEVEL) (fun _ _ _ _ => rfl) c (fun _ _ => fget_CH_fset_low c _ low _ _) (fun _ _ _ => fget_CH_emit c _ _ _ _) run,
    windowOver, fget_fset_apart _ (by decide), fget_fset _ _ _ _ (by decide), passed]
  exact Nat.mod_eq_of_lt (levelAfter_lt (fget_lt s _ _))

theorem levelAfter_reached {y : ChanState} {old : Nat} (h : 2 ≤ old) (t2 : y.actT2 = true) : levelAfter y old = old := by
  simp [levelAfter, t2, h]

theorem levelAfter_falls {y : ChanState} (t2 : y.actT2 = false) : levelAfter y 3 = 2 := by
  simp [levelAfter, t2]

theorem levelAfter_low {y : ChanState} {old : Nat} (h : old ≤ 2) (t2 : y.actT2 = false) : levelAfter y old = if keptLimits y = [] then 0 else 1 := by
  have below : ¬ 2 ≤ if 2 ≤ old ∧ (!y.actT2) = true then old - 1 else old := by
    by_cases high : 2 ≤ old
    · rw [if_pos ⟨high, by rw [t2]; rfl⟩]
      omega
    · rwa [if_neg (not_and_of_not_left _ high)]
  simp only [levelAfter, if_neg below, List.isEmpty_iff]

/-! ### The marking window -/

theorem devWord_setDevWord (c : Fin 16) (r d v : Nat) (s : State) : devWord c r d (setDevWord c r d v s) = v % 2 ^ 32 := by
  unfold devWord setDevWord
  rw [ixGet_ixSet, BitVec.toNat_ofNat]

theorem devWord_setDevWord_ne (c : Fin 16) {r d q e : Nat} (ne : r * 32 + d ≠ q * 32 + e) (v : Nat) (s : State) : devWord c r d (setDevWord c q e v s) = devWord c r d s :=
  congrArg BitVec.toNat (ixGet_ixSet_ne (CH c) ne _ s)

/-- The window count of a device returns to 0; its total stays (10 R298, R325). -/
def clearWindow (c : Fin 16) (r d : Nat) (s : State) : State := setDevWord c r d (devWord c r d s / 65536 * 65536) s

theorem devWord_clearWindow (c : Fin 16) {r d q e : Nat} (hd : d < 32) (he : e < 32) (s : State) :
    devWord c r d (clearWindow c q e s) = if r = q ∧ d = e then devWord c r d s / 65536 * 65536 else devWord c r d s := by
  unfold clearWindow
  split
  next same =>
    obtain ⟨rfl, rfl⟩ := same
    have fits : devWord c r d s < 2 ^ 32 := BitVec.isLt _
    rw [devWord_setDevWord]
    exact Nat.mod_eq_of_lt (by omega)
  next other => exact devWord_setDevWord_ne c (by omega) _ s

/-- The window counts of a rank's first n devices return to 0. -/
theorem devWord_clearWindows (c : Fin 16) (q n : Nat) (hn : n ≤ 32) {r d : Nat} (hd : d < 32) (s : State) :
    devWord c r d (forAll (List.range n) (clearWindow c q) s) = if r = q ∧ d < n then devWord c r d s / 65536 * 65536 else devWord c r d s := by
  induction n with
  | zero => simp [forAll]
  | succ n ih =>
    have step : forAll (List.range (n + 1)) (clearWindow c q) s = clearWindow c q n (forAll (List.range n) (clearWindow c q) s) := by
      simp [forAll, List.range_succ]
    rw [step, devWord_clearWindow c hd (by omega), ih (by omega)]
    by_cases rank : r = q
    · rcases Nat.lt_trichotomy d n with below | rfl | above
      · rw [if_neg (by omega), if_pos ⟨rank, below⟩, if_pos ⟨rank, by omega⟩]
      · rw [if_pos ⟨rank, rfl⟩, if_neg (by omega), if_pos ⟨rank, by omega⟩]
      · rw [if_neg (by omega), if_neg (by omega), if_neg (by omega)]
    · rw [if_neg (by omega), if_neg (by omega), if_neg (by omega)]

/-- Where the present marking window ends, in ns: at the next multiple of MARK_WIN while none runs (10 R298). -/
def markEnd (c : Fin 16) (s : State) : Nat := if (s.chan c).markWinEnd = 0 then (s.ns / markWinNs s c + 1) * markWinNs s c else (s.chan c).markWinEnd

/-- A marking window has ended, and the next one runs (10 R298). -/
def nextMarkWin (c : Fin 16) (s : State) : State :=
  let x := advanceToNs (markEnd c s) s
  updChan c (fun y => { y with markWinEnd := x.ns + markWinNs x c, markSeen := [] }) x

theorem nextMarkWin_ends (c : Fin 16) (s : State) : ((nextMarkWin c s).chan c).markWinEnd = (nextMarkWin c s).ns + markWinNs s c := by
  unfold nextMarkWin
  rw [updChan_chan]
  rfl

/-- The window counts of a channel's devices return to 0. -/
def clearDevices (c : Fin 16) (s : State) : State := forAll (List.range 2) (fun r s => forAll (List.range 18) (clearWindow c r) s) s

theorem exec_markWindowEnd {c : Fin 16} {s : State} (run : dtimeRuns s = true) : exec (.markWindowEnd c) s = .next (clearDevices c (nextMarkWin c s)) :=
  congrArg Host.Outcome.next (if_neg (by simp [run]))

theorem clearDevices_inv {β : Type} (g : State → β) (c : Fin 16) (table : ∀ i w s, g (ixSet (CH c) i w s) = g s) (s : State) : g (clearDevices c s) = g s := by
  have cleared : ∀ r d s, g (clearWindow c r d s) = g s := fun r d s => by
    unfold clearWindow setDevWord
    exact table _ _ _
  exact forAll_inv g _ _ _ fun r s => forAll_inv g _ (clearWindow c r) s (cleared r)

theorem forAll_range_two (f : Nat → State → State) (s : State) : forAll (List.range 2) f s = f 1 (f 0 s) := rfl

theorem devWord_clearDevices (c : Fin 16) {r d : Nat} (hr : r < 2) (hd : d < 18) (s : State) : devWord c r d (clearDevices c s) = devWord c r d s / 65536 * 65536 := by
  rw [clearDevices, forAll_range_two, devWord_clearWindows c 1 18 (by decide) (by omega), devWord_clearWindows c 0 18 (by decide) (by omega)]
  rcases Nat.lt_succ_iff_lt_or_eq.mp hr with zero | rfl
  · obtain rfl : r = 0 := by omega
    simp [hd]
  · simp [hd]

/-! ### An idle page -/

/-- An idle page is closed, once its bank may be precharged (09 R279). -/
def pageClosed (c : Fin 16) (bank : Nat) (r : OpenRow) (s : State) : State :=
  let x := advanceTo8 (max (preAt8 s c (bankAt bank)) (r.used8 + chCk8 s c (fget s (CH c) CH_SCHED_PAGE_TMO))) s
  pushHist c .pre (bank / 32) (bank % 32 / 4) (bank % 4) x.d8 (closeRow c bank x)

theorem exec_pageTimeout {c : Fin 16} {bank : Nat} {r : OpenRow} {s : State} (row : rowOpen s c bank = some r) (run : chanRuns s c = true) (page : fbit s (CH c) CH_CTL_PAGE = true)
    (replay : (s.chan c).replay = none) (pause : (s.phy c).active = none) : exec (.pageTimeout c bank) s = .next (pageClosed c bank r s) := by
  refine congrArg Host.Outcome.next ?_
  rw [row]
  exact if_neg (by simp [run, page, replay, pause])

theorem exec_pageTimeout_closed {c : Fin 16} {bank : Nat} {s : State} (row : rowOpen s c bank = none) : exec (.pageTimeout c bank) s = .next s := by
  refine congrArg Host.Outcome.next ?_
  rw [row]

theorem pageClosed_rows (c : Fin 16) (bank : Nat) (r : OpenRow) (s : State) : ((pageClosed c bank r s).chan c).rows = (s.chan c).rows.filter fun x => x.1 ≠ bank := by
  unfold pageClosed pushHist closeRow
  rw [updChan_chan, updChan_chan, chan_congr (advanceTo8_chans _ _)]

/-! ### An idle rank -/

theorem pauseSoon_advance (n : Nat) (s : State) (c : Fin 16) (r : Fin 2) (soon : Nat) : pauseSoon (advance n s) c r soon = pauseSoon s c r soon := rfl

theorem scrubSoon_advance (n : Nat) (s : State) (c : Fin 16) (r soon : Nat) : scrubSoon (advance n s) c r soon = scrubSoon s c r soon := rfl

/-- A rank has entered power-down (09 R286). -/
def rankDown (c : Fin 16) (r : Fin 2) (s : State) : State :=
  let x := fsetBit (CH c) CH_STATUS_RANK_PD r.val true (fbump (CH c) CH_PDENT_COUNT s)
  pushHist c .pde r.val 0 0 x.d8 (updChan c (fun y => { y with pd := y.pd.set r true, pdAt8 := y.pdAt8.set r x.d8 }) x)

theorem rankDown_chan (c : Fin 16) (r : Fin 2) (s : State) : ((rankDown c r s).chan c).pd[r] = true ∧ ((rankDown c r s).chan c).pdAt8[r] = s.d8 := by
  unfold rankDown pushHist
  extract_lets x
  have still : x.d8 = s.d8 := rfl
  rw [updChan_chan, updChan_chan]
  simp [still]

/-- A bit that is set in a field of one bit for each unit reads as set. -/
theorem bitOf_fsetBit_set (b : Nat) (f : Fld) (i : Nat) (s : State) (fits : f.lsb + f.width ≤ 32) (hi : i < f.width) : bitOf (fget (fsetBit b f i true s) b f) i = true := by
  unfold fsetBit
  extract_lets w
  have low : w < 2 ^ f.width := fget_lt s b f
  rw [fget_fset _ _ _ _ fits]
  split
  next set => rwa [if_pos rfl, Nat.mod_eq_of_lt low]
  next clear =>
    have unset : w.testBit i = false := by simpa [bitOf_eq_testBit] using clear
    rw [if_pos rfl, bitOf_eq_testBit, Nat.testBit_mod_two_pow, Nat.add_comm, Nat.testBit_two_pow_add_eq, unset]
    simp [hi]

/-- Where an idle rank powers down, after PD_IDLE cycles of its channel without a command (09 R286). -/
def idleEnd8 (c : Fin 16) (r : Fin 2) (s : State) : Nat := (s.chan c).rankUsed8[r] + chCk8 s c (fget s (CH c) CH_PD_IDLE)

/-- The first instant at which a rank that powers down at `d` could issue a command again. -/
def pdLeave8 (c : Fin 16) (s : State) (d : Nat) : Nat := d + ck8 s c (fget s (CH c) CH_TIM3_TXP + fget s (CH c) CH_TIM3_TPD)

/-- No command of a channel waits or is on its way, nor does anything stop it, and a rank of it is not in power-down. -/
structure RankIdle (c : Fin 16) (r : Fin 2) (s : State) : Prop where
  run : chanRuns s c = true
  rank : r.val < geoRanks s
  enabled : fget s (CH c) CH_PD_IDLE ≠ 0
  intake : (s.chan c).intake = []
  mergeQ : (s.chan c).mergeQ = []
  line : (s.chan c).line = []
  flight : (s.chan c).flight = []
  up : (s.chan c).pd[r] = false
  replay : (s.chan c).replay = none
  pause : (s.phy c).active = none
  slice : s.bist.phyRun[c] = none

/-- Nothing is due in a rank before the instant `soon` (09 R286). -/
structure NothingSoon (c : Fin 16) (r : Fin 2) (s : State) (soon : Nat) : Prop where
  rfm : rfmBanks s c r = []
  refresh : soon < (s.chan c).refAt8[r]
  poll : soon < ((s.chan c).mr4At + pollNs s c) * 8
  pause : pauseSoon s c r soon = false
  scrub : scrubSoon s c r soon = false

theorem exec_rankPowerDown_idle {c : Fin 16} {r : Fin 2} {s : State} (idle : RankIdle c r s) (free : NothingSoon c r s (pdLeave8 c s (firstCycle8 s (idleEnd8 c r s)))) :
    exec (.rankPowerDown c r) s = .next (rankDown c r (advanceTo8 (idleEnd8 c r s) s)) := by
  obtain ⟨run, rank, enabled, intake, mergeQ, line, flight, up, replay, pause, slice⟩ := idle
  obtain ⟨rfm, refresh, poll, paused, scrub⟩ := free
  refine congrArg Host.Outcome.next ((if_neg ?_).trans (if_neg ?_))
  · simp [run, rank, enabled, intake, mergeQ, line, flight, up, replay, pause, slice]
  · rintro (late | late | late | late | late)
    · exact absurd refresh (Nat.not_lt.mpr late)
    · exact absurd poll (Nat.not_lt.mpr late)
    · exact Bool.eq_false_iff.mp paused late
    · exact Bool.eq_false_iff.mp scrub late
    · exact Bool.eq_false_iff.mp (congrArg (fun l : List Nat => !l.isEmpty) rfm) late

theorem exec_rankPowerDown_stays {c : Fin 16} {r : Fin 2} {s : State} (h : chanRuns s c = false ∨ fget s (CH c) CH_PD_IDLE = 0 ∨ (s.chan c).pd[r] = true ∨ (s.bist.phyRun[c]).isSome = true) :
    exec (.rankPowerDown c r) s = .next s := by
  refine congrArg Host.Outcome.next (if_pos ?_)
  rcases h with stopped | disabled | down | slice
  · exact .inl (by simp [stopped])
  · exact .inr (.inr (.inl disabled))
  · exact .inr (.inr (.inr (.inr (.inl down))))
  · exact .inr (.inr (.inr (.inr (.inr (.inr (.inr slice))))))

/-! ### A millisecond -/

/-- The end of the aligned millisecond that a channel counts in, in ns (10 R306). -/
def msEnd (c : Fin 16) (s : State) : Nat := ((if (s.chan c).ueMs = 0 then s.ns / 1000000 else (s.chan c).ueAt) + 1) * 1000000

theorem exec_alignedMillisecondEnd {c : Fin 16} {s : State} (run : dtimeRuns s = true) : exec (.alignedMillisecondEnd c) s = .next (closeMs c (advanceToNs (msEnd c s) s)) :=
  congrArg Host.Outcome.next (if_neg (by simp [run]))

theorem closeMs_ueMs (c : Fin 16) (s : State) : ((closeMs c s).chan c).ueMs = 0 := by
  unfold closeMs
  extract_lets k
  split
  next zero => exact zero
  next => rw [chan_congr (emit_chans _ _ _), updChan_chan]

theorem closeMs_d8 (c : Fin 16) (s : State) : (closeMs c s).d8 = s.d8 := by
  unfold closeMs
  extract_lets k
  split
  · rfl
  · exact emit_d8 _ _ _

/-! ### The statement -/

/-- Settles O34: each end lets DTIME reach its instant, and changes the channel's record and registers as its lemma above says. -/
theorem channelWindowsEnd : Obligations.ChannelWindowsEnd := by
  unfold Obligations.ChannelWindowsEnd
  refine ⟨?rowact, ?marking, ?page, ?closed, ?idle, ?stays, ?millisecond⟩
  case rowact =>
    intro c s run _
    have e : exec (.rowactWindowBoundary c) s = .next (rowactBoundary c s) := rfl
    obtain ⟨trk, t1, t2, limits⟩ := windowOver_chan c s
    rw [← rowactBoundary_chan run] at trk t1 t2 limits
    have level := rowactBoundary_level (c := c) run
    refine ⟨_, e, rowactBoundary_d8 run, trk, t1, t2, limits, fun high reached => ?_, fun three fresh => ?_, fun low fresh => ?_,
      exec_dram e (by simp [stores]), exec_wmem e (by simp [stores]), exec_streams e (by simp [stores]), exec_keptStore (σ := .mans) e (by simp [stores])⟩
    · rw [level, levelAfter_reached high reached]
    · rw [level, three, levelAfter_falls fresh]
    · rw [level, levelAfter_low low fresh, limits]
  case marking =>
    intro c s run due
    have e := exec_markWindowEnd (c := c) run
    have still := clearDevices_inv (·.d8) c (fun _ _ _ => rfl) (nextMarkWin c s)
    have record := clearDevices_inv (·.chan c) c (fun _ _ _ => rfl) (nextMarkWin c s)
    have regs := clearDevices_inv (·.regs) c (fun _ _ _ => rfl) (nextMarkWin c s)
    refine ⟨_, e, ?_, ?_, fun r d hr hd => devWord_clearDevices c hr hd _, regs, exec_dram e (by simp [stores]), exec_wmem e (by simp [stores]), exec_streams e (by simp [stores])⟩
    · rw [still]
      refine (advanceToNs_d8 _ s).trans ?_
      rw [markEnd, if_neg due]
    · rw [record, nextMarkWin_ends]
      exact congrArg (fun d8 => d8 / 8 + markWinNs s c) still.symm
  case page =>
    intro c bank r s row run page replay pause
    have e := exec_pageTimeout row run page replay pause
    exact ⟨_, e, rfl, pageClosed_rows c bank r s, rfl, exec_sameStore e rfl⟩
  case closed =>
    intro c bank s row
    exact exec_pageTimeout_closed row
  case idle =>
    intro c r d s run rank enabled intake mergeQ line flight up replay pause slice rfm hd refresh poll paused scrub
    subst hd
    have e := exec_rankPowerDown_idle ⟨run, rank, enabled, intake, mergeQ, line, flight, up, replay, pause, slice⟩ ⟨rfm, refresh, poll, paused, scrub⟩
    obtain ⟨down, since⟩ := rankDown_chan c r (advanceTo8 (idleEnd8 c r s) s)
    refine ⟨_, e, rfl, down, since, ?_, ?_, exec_sameStore e rfl⟩
    · exact bitOf_fsetBit_set (CH c) CH_STATUS_RANK_PD r.val _ (by decide) r.isLt
    · refine (fget_fset_apart (CH c) (f := CH_PDENT_COUNT) (by decide) _ _).trans ((fget_fbump _ _ _ (by decide)).trans ?_)
      rw [fget_advanceTo8]
      rfl
  case stays =>
    intro c r s h
    exact exec_rankPowerDown_stays h
  case millisecond =>
    intro c s run
    have e := exec_alignedMillisecondEnd (c := c) run
    exact ⟨_, e, closeMs_ueMs c _, (closeMs_d8 c _).trans (advanceToNs_d8 _ s), exec_sameStore e rfl⟩

end Sys2Proof.Proofs

/-! PROOF. A built-in timing profile goes into the timing registers of its channel (09 R283 to R285). -/

namespace Sys2Proof.Proofs
open Sys2Proof Sys2Proof.Machine Sys2Proof.Laws

/-! ### A step for each unit of a list -/

/-- What the step of each listed unit leaves alone stays. -/
theorem forAll_inv_mem {α β : Type} (g : State → β) (l : List α) (f : α → State → State) (s : State) (kept : ∀ a ∈ l, ∀ x, g (f a x) = g x) : g (forAll l f s) = g s := by
  unfold forAll
  induction l generalizing s with
  | nil => rfl
  | cons a r ih => exact (ih _ fun b m => kept b (List.mem_cons_of_mem a m)).trans (kept a List.mem_cons_self s)

/-- What a unit's own step brings about, and no step undoes, holds at the end. -/
theorem forAll_reaches {α : Type} {P : State → Prop} {l : List α} {f : α → State → State} {a : α} (m : a ∈ l) (own : ∀ s, P (f a s)) (kept : ∀ b s, P s → P (f b s)) (s : State) :
    P (forAll l f s) := by
  have stays : ∀ (r : List α) s, P s → P (forAll r f s) := fun r => by
    induction r with
    | nil => exact fun _ h => h
    | cons b r ih => exact fun s h => ih _ (kept b s h)
  induction l generalizing s with
  | nil => cases m
  | cons b r ih =>
    rcases List.mem_cons.mp m with rfl | later
    · exact stays r _ (own s)
    · exact ih later _

/-! ### A list of fields written in turn -/

/-- Each field of a block is set to its value, in the order of the list. -/
def putFields (b : Nat) (l : List (Fld × Nat)) (s : State) : State := forAll l (fun x s => fset b x.1 x.2 s) s

theorem putFields_inv {β : Type} (g : State → β) (b : Nat) (l : List (Fld × Nat)) (s : State) (kept : ∀ x ∈ l, ∀ s, g (fset b x.1 x.2 s) = g s) : g (putFields b l s) = g s :=
  forAll_inv_mem g l _ s kept

/-- Of fields that stand apart, each then holds its own value. -/
theorem fget_putFields {b : Nat} {l : List (Fld × Nat)} (apart : l.Pairwise fun x y => Apart x.1 y.1) {f : Fld} {v : Nat} (m : (f, v) ∈ l) (fits : f.lsb + f.width ≤ 32) (s : State) :
    fget (putFields b l s) b f = v % 2 ^ f.width := by
  induction l generalizing s with
  | nil => cases m
  | cons x r ih =>
    obtain ⟨first, rest⟩ := List.pairwise_cons.mp apart
    rcases List.mem_cons.mp m with rfl | later
    · have kept := putFields_inv (fget · b f) b r (fset b f v s) fun y my s => fget_fset_apart b (first y my) _ s
      exact kept.trans (fget_fset b f v s fits)
    · exact ih rest later _

/-! ### The profile -/

/-- The built-in figures of a rate, field by field (09 R284). -/
def profile (k : Nat) : List (Fld × Nat) :=
  [(CH_TIM3_TRTP, prof k 12 75), (CH_TIM3_TXP, prof k 8 75), (CH_TIM3_TPD, prof k 8 75), (CH_TIM3_TWR, prof k 0 300),
    (CH_TIM4_TRAS, prof k 0 320), (CH_TIM4_TRC, prof k 0 320 + profTrcd k), (CH_TIM5_TRFC1, prof k 0 4100), (CH_TIM5_TRFCSB, prof k 0 1900),
    (CH_TIM6_TREFI, prof k 0 39000), (CH_TIM6_TXS, prof k 0 4100 + cdiv (100 * mtsOf k) 20000),
    (CH_TIM0_CL, profCl k), (CH_TIM0_CWL, profCwl k), (CH_TIM0_TRCD, profTrcd k), (CH_TIM0_TRP, profTrcd k),
    (CH_TIM1_TRRD_S, 8), (CH_TIM1_TRRD_L, prof k 8 50), (CH_TIM1_TFAW, prof k 32 100), (CH_TIM1_TCCD_S, 8),
    (CH_TIM2_TCCD_L, prof k 8 50), (CH_TIM2_TCCD_L_WR, prof k 32 200), (CH_TIM2_TWTR_S, prof k 4 25), (CH_TIM2_TWTR_L, prof k 16 100)]

/-- The fields of the profile, which are the same at every rate. -/
def profileFields : List Fld :=
  [CH_TIM3_TRTP, CH_TIM3_TXP, CH_TIM3_TPD, CH_TIM3_TWR, CH_TIM4_TRAS, CH_TIM4_TRC, CH_TIM5_TRFC1, CH_TIM5_TRFCSB, CH_TIM6_TREFI, CH_TIM6_TXS,
    CH_TIM0_CL, CH_TIM0_CWL, CH_TIM0_TRCD, CH_TIM0_TRP, CH_TIM1_TRRD_S, CH_TIM1_TRRD_L, CH_TIM1_TFAW, CH_TIM1_TCCD_S,
    CH_TIM2_TCCD_L, CH_TIM2_TCCD_L_WR, CH_TIM2_TWTR_S, CH_TIM2_TWTR_L]

theorem profile_fields (k : Nat) : (profile k).map Prod.fst = profileFields := by simp only [profile, profileFields, List.map]

theorem loadProfile_eq (c : Fin 16) (k : Nat) (s : State) : loadProfile c k s = putFields (CH c) (profile k) s := by
  simp only [loadProfile, putFields, profile, forAll, List.foldl_cons, List.foldl_nil]

theorem profile_apart (k : Nat) : (profile k).Pairwise fun x y => Apart x.1 y.1 := by
  have fields : profileFields.Pairwise Apart := by decide
  rw [← profile_fields k, List.pairwise_map] at fields
  exact fields

/-- The profile lies between CHn_TIM0 and CHn_TIM6. -/
theorem profile_off {k : Nat} {x : Fld × Nat} (m : x ∈ profile k) : CH_TIM0_CL.off ≤ x.1.off ∧ x.1.off ≤ CH_TIM6_TXS.off ∧ x.1.lsb + x.1.width ≤ 32 := by
  have fields : ∀ f ∈ profileFields, CH_TIM0_CL.off ≤ f.off ∧ f.off ≤ CH_TIM6_TXS.off ∧ f.lsb + f.width ≤ 32 := by decide
  exact fields x.1 (profile_fields k ▸ List.mem_map_of_mem m)

theorem fget_loadProfile (c : Fin 16) {k : Nat} {f : Fld} {v : Nat} (m : (f, v) ∈ profile k) (s : State) : fget (loadProfile c k s) (CH c) f = v % 2 ^ f.width := by
  obtain ⟨-, -, fits⟩ := profile_off m
  rw [loadProfile_eq]
  exact fget_putFields (profile_apart k) m fits s

theorem rg_loadProfile (c : Fin 16) (k : Nat) {a : Nat} (beside : a < CH c + CH_TIM0_CL.off ∨ CH c + CH_TIM6_TXS.off < a) (s : State) : rg (loadProfile c k s) a = rg s a := by
  rw [loadProfile_eq]
  refine putFields_inv (rg · a) (CH c) (profile k) s fun x m s => rg_fset_ne (CH c) x.1 x.2 s ?_
  obtain ⟨low, high, -⟩ := profile_off m
  omega

/-- Outside the registers a profile changes nothing. -/
theorem loadProfile_inv {β : Type} (g : State → β) (c : Fin 16) (k : Nat) (unread : ∀ f v s, g (fset (CH c) f v s) = g s) (s : State) : g (loadProfile c k s) = g s := by
  rw [loadProfile_eq]
  exact putFields_inv g (CH c) (profile k) s fun _ _ s => unread _ _ s

/-! ### The command -/

theorem exec_loadTimingProfile {c : Fin 16} {s : State} (on : blockOn s (CH c) = true) (free : s.guard = none) :
    exec (.loadTimingProfile c) s = .next (profileCmd c s) := busWr_free on free (profileCmd c)

theorem profileCmd_open {c : Fin 16} {s : State} (opened : timOpen s c = true) : profileCmd c s = loadProfile c (rateCode s c) s := if_pos opened

theorem profileCmd_shut {c : Fin 16} {s : State} (shut : timOpen s c = false) : profileCmd c s = fset (CH c) CH_STATUS_TIM_REJ 1 s := if_neg (by simp [shut])

end Sys2Proof.Proofs

/-! PROOF. The load of the address map (09 R273 to R276), and with it O39. -/

namespace Sys2Proof.Proofs
open Sys2Proof Sys2Proof.Machine Sys2Proof.Laws

/-! ### The start of a member -/

/-- The rate and the depth of a background regulator are set (09 R287). -/
def setRegulator (c : Fin 16) (rate depth : Fld) (x n : Nat) (s : State) : State := fset (CH c) rate x (fset (CH c) depth n s)

/-- A member in service, with its capacity and its regulators' registers (05 R145, 09 R287). -/
def regulated (c : Fin 16) (s : State) : State :=
  let r := mtsOf (s.chan c).trnRate
  setRegulator c CH_BGMIG_RATE CH_BGMIG_DEPTH (bgRate r 9) 64 (setRegulator c CH_BGSCR_RATE CH_BGSCR_DEPTH (bgRate r 1) 16
    (setRegulator c CH_BGBST_RATE CH_BGBST_DEPTH (bgRate r 4) 64 (setRegulator c CH_BGPAUSE_RATE CH_BGPAUSE_DEPTH (pauseRate r) 1100
      (fset MAN (MAN_CHCAP_NOMINAL.nth c) (nominalC s c) (enterService c s)))))

/-- A member's buckets are full, and its patrol scrub begins. -/
def bucketsFull (ns : Nat) (y : ChanState) : ChanState :=
  { y with bkMig := 16 * 64, bkScr := 16 * 16, bkBst := 16 * 64, bkPause := 16 * 1100, bstDepth := 64, scrubStart := ns }

theorem mapMember_eq (c : Fin 16) (s : State) : mapMember c s = updChan c (bucketsFull (regulated c s).ns) (regulated c s) := rfl

theorem regulated_inv {β : Type} (g : State → β) (c : Fin 16) (regulator : ∀ f v s, 0x20 ≤ f.off → f.off < 0x30 → g (fset (CH c) f v s) = g s)
    (nominal : ∀ v s, g (fset MAN (MAN_CHCAP_NOMINAL.nth c) v s) = g s) (s : State) : g (regulated c s) = g (enterService c s) := by
  have pair : ∀ (rate depth : Fld) x n s, 0x20 ≤ rate.off ∧ rate.off < 0x30 → 0x20 ≤ depth.off ∧ depth.off < 0x30 → g (setRegulator c rate depth x n s) = g s :=
    fun _ _ _ _ _ hr hd => (regulator _ _ _ hr.1 hr.2).trans (regulator _ _ _ hd.1 hd.2)
  unfold regulated
  rw [pair _ _ _ _ _ (by decide) (by decide), pair _ _ _ _ _ (by decide) (by decide), pair _ _ _ _ _ (by decide) (by decide), pair _ _ _ _ _ (by decide) (by decide), nominal]

/-- A member's start shows in its own registers, in its records and in its capacity alone. -/
theorem mapMember_inv {β : Type} (g : State → β) (c : Fin 16) (block : ∀ f v s, f.off < 0x10000 → g (fset (CH c) f v s) = g s) (chans : ∀ f s, g (updChan c f s) = g s)
    (phys : ∀ f s, g (updPhy c f s) = g s) (nominal : ∀ v s, g (fset MAN (MAN_CHCAP_NOMINAL.nth c) v s) = g s) (s : State) : g (mapMember c s) = g s :=
  calc g (mapMember c s) = g (regulated c s) := by rw [mapMember_eq, chans]
    _ = g (enterService c s) := regulated_inv g c (fun f v s _ small => block f v s (by omega)) nominal s
    _ = g s := by
      unfold enterService setChState
      rw [phys, chans, block _ _ _ (by decide)]

/-! ### A channel's state, its record and that of its PHY -/

/-- What the load of a map may change of a channel beside its other registers: its state, its record and its PHY's. -/
def unitOf (c : Fin 16) (s : State) : Nat × ChanState × PhyState := (chState s c, s.chan c, s.phy c)

theorem unitOf_fset {b : Nat} {f : Fld} {c : Fin 16} (apart : CH c + CH_STATUS_STATE.off ≠ b + f.off) (v : Nat) (s : State) : unitOf c (fset b f v s) = unitOf c s :=
  congrArg (·, s.chan c, s.phy c) (fget_fset_ne _ _ _ _ _ _ apart)

theorem unitOf_fset_low (c : Fin 16) {b : Nat} {f : Fld} (low : b + f.off < 0x100000) (v : Nat) (s : State) : unitOf c (fset b f v s) = unitOf c s :=
  unitOf_fset (CH_ne_low c _ low) v s

theorem unitOf_emit (c : Fin 16) (h : String) (x : List (String × FVal)) (s : State) : unitOf c (emit h x s) = unitOf c s := by
  unfold unitOf chState
  rw [fget_CH_emit, chan_congr (emit_chans _ _ _), phy_congr (emit_phys _ _ _)]

theorem nominal_low (c : Fin 16) : MAN + (MAN_CHCAP_NOMINAL.nth c).off < 0x100000 := by
  rw [nth_off]
  simp only [MAN, MAN_CHCAP_NOMINAL]
  omega

theorem unitOf_mapMember_ne {c k : Fin 16} (ne : c ≠ k) (s : State) : unitOf c (mapMember k s) = unitOf c s := by
  refine mapMember_inv (unitOf c) k ?block ?chans ?phys ?nominal s
  case block => exact fun f v s small => unitOf_fset (CH_ne ne (by decide) small) v s
  case chans => exact fun f s => congrArg (fun y => (chState s c, y, s.phy c)) (updChan_chan_ne ne f s)
  case phys => exact fun f s => congrArg (fun y => (chState s c, s.chan c, y)) (updPhy_phy_ne ne f s)
  case nominal => exact fun v s => unitOf_fset_low c (nominal_low k) v s

/-- A channel is in service with no row open, none of its lines lost and no pause due. -/
def Serving (c : Fin 16) (s : State) : Prop := chState s c = 3 ∧ (s.chan c).lost = false ∧ (s.chan c).rows = [] ∧ (s.phy c).due = none

theorem Serving.of_unit {c : Fin 16} {s t : State} (h : Serving c s) (same : unitOf c t = unitOf c s) : Serving c t := by
  obtain ⟨state, chan, phy⟩ : chState t c = chState s c ∧ t.chan c = s.chan c ∧ t.phy c = s.phy c := by simpa [unitOf] using same
  rwa [Serving, state, chan, phy]

theorem enterService_serving (c : Fin 16) (s : State) : Serving c (enterService c s) := by
  have state : chState (enterService c s) c = 3 := fget_fset _ _ _ _ (by decide)
  unfold Serving
  rw [state]
  unfold enterService
  extract_lets x iv d n y
  have chan : (updPhy c (fun z => { z with lastNs := n, due := none, stopped := false, active := none, mustRun := false, relock := false }) y).chan c = y.chan c := rfl
  simp [chan, y]

theorem regulated_serving (c : Fin 16) (s : State) : Serving c (regulated c s) := by
  refine (enterService_serving c s).of_unit (regulated_inv (unitOf c) c (fun f v s low _ => unitOf_fset ?_ v s) (fun v s => unitOf_fset_low c (nominal_low c) v s) s)
  simp only [CH_STATUS_STATE]
  omega

/-- A channel serves, and its migration bucket is full. -/
def Started (c : Fin 16) (s : State) : Prop := Serving c s ∧ (s.chan c).bkMig = 1024

theorem Started.of_unit {c : Fin 16} {s t : State} (h : Started c s) (same : unitOf c t = unitOf c s) : Started c t :=
  ⟨h.1.of_unit same, (congrArg (·.2.1.bkMig) same).trans h.2⟩

/-- A channel that serves does so with its buckets full as well. -/
theorem Serving.started {c : Fin 16} {s : State} (h : Serving c s) (ns : Nat) : Started c (updChan c (bucketsFull ns) s) := by
  obtain ⟨state, lost, rows, due⟩ := h
  have chan := updChan_chan c (bucketsFull ns) s
  exact ⟨⟨state, (congrArg ChanState.lost chan).trans lost, (congrArg ChanState.rows chan).trans rows, due⟩, congrArg ChanState.bkMig chan⟩

theorem mapMember_started (c : Fin 16) (s : State) : Started c (mapMember c s) := by
  rw [mapMember_eq]
  exact (regulated_serving c s).started _

theorem mapMember_keeps_started {c : Fin 16} (k : Fin 16) (s : State) (h : Started c s) : Started c (mapMember k s) := by
  by_cases own : c = k
  · exact own ▸ mapMember_started c s
  · exact h.of_unit (unitOf_mapMember_ne own s)

/-! ### The registers of a map that loads -/

/-- The mask of the channels that a load takes as members. -/
def memberMask (s : State) : Nat := ((mapMembers s).map fun c => 2 ^ c.val).sum

/-- The map is loaded, and its members stand in the register (09 R270). -/
def membersNamed (s : State) : State :=
  fset GLB GLB_MAP_MEMBERS_MEMBERS (memberMask s) (fset GLB GLB_MAP_MEMBERS_COUNT (mapMembers s).length (fset GLB GLB_MAP_CTL_LOADED 1 s))

/-- The pairs of the members that are named. -/
def pairsNamed (s : State) : State := fset GLB GLB_MAP_MEMBERS_PAIRS ((pairedChans (membersNamed s)).length / 2) (membersNamed s)

/-- The members, their pairs and the ends of the map stand in its registers (09 R270, R274). -/
def mapRecorded (s : State) : State :=
  let x := pairsNamed s
  fset GLB GLB_MAP_TOP_TOP_MB (topLines x / 8192) (fset GLB GLB_MAP_TWINBASE_BASE_MB ((if twinE x = 0 then topLines x else ordLines x) / 8192) x)

/-- The members of the map that loads have entered service. -/
def membersStarted (s : State) : State := forAll (mapMembers s) mapMember (mapRecorded s)

theorem cycPatrolBegin_inv {β : Type} (g : State → β) (bist : ∀ s b, g { s with bist := b } = g s) (s : State) : g (cycPatrolBegin s) = g s := by
  refine onlyIf_inv g _ _ _ fun x => ?_
  unfold cycStart
  split
  · rfl
  · exact bist x _

theorem horizonCheck_inv {β : Type} (g : State → β) (held : ∀ s h, g { s with horizon := h } = g s) (us : ∀ v s, g (fset TXN TXN_HORIZON_HORIZON_US v s) = g s)
    (event : ∀ h x s, g (emit h x s) = g s) (s : State) : g (horizonCheck s) = g s := by
  unfold horizonCheck
  split
  · rfl
  · extract_lets v cur
    split_ifs
    · exact (event _ _ _).trans ((us _ _).trans (held _ _))
    · exact held _ _
    · rfl
    · exact held _ _

/-- What the load of a map leaves, but for self-test's cycles, the horizon and events (09 R275). -/
theorem mapLoad_view {β : Type} (g : State → β) (bist : ∀ s b, g { s with bist := b } = g s) (held : ∀ s h, g { s with horizon := h } = g s)
    (us : ∀ v s, g (fset TXN TXN_HORIZON_HORIZON_US v s) = g s) (event : ∀ h x s, g (emit h x s) = g s) {s : State} (ok : mapCheck s = none) :
    g (mapLoad s).1 = g (membersStarted s) := by
  unfold mapLoad
  rw [ok]
  exact (cycPatrolBegin_inv g bist _).trans ((cycBegin_inv g bist _).trans ((horizonCheck_inv g held us event _).trans (event _ _ _)))

theorem unitOf_mapLoad (c : Fin 16) {s : State} (ok : mapCheck s = none) : unitOf c (mapLoad s).1 = unitOf c (membersStarted s) :=
  mapLoad_view (unitOf c) (fun _ _ => rfl) (fun _ _ => rfl) (fun _ _ => unitOf_fset_low c (by decide) _ _) (fun _ _ _ => unitOf_emit c _ _ _) ok

theorem mapLoad_started {c : Fin 16} {s : State} (ok : mapCheck s = none) (m : c ∈ mapMembers s) : Started c (mapLoad s).1 :=
  (forAll_reaches m (mapMember_started c) mapMember_keeps_started (mapRecorded s)).of_unit (unitOf_mapLoad c ok)

/-- Fields of GLB alone have been set. -/
theorem mapRecorded_inv {β : Type} (g : State → β) (map : ∀ f v s, f.off < 0x10000 → g (fset GLB f v s) = g s) (s : State) : g (mapRecorded s) = g s := by
  unfold mapRecorded pairsNamed membersNamed
  rw [map _ _ _ (by decide), map _ _ _ (by decide), map _ _ _ (by decide), map _ _ _ (by decide), map _ _ _ (by decide), map _ _ _ (by decide)]

theorem mapLoad_beside {c : Fin 16} {s : State} (ok : mapCheck s = none) (beside : c ∉ mapMembers s) : unitOf c (mapLoad s).1 = unitOf c s :=
  calc unitOf c (mapLoad s).1 = unitOf c (membersStarted s) := unitOf_mapLoad c ok
    _ = unitOf c (mapRecorded s) := forAll_inv_mem (unitOf c) _ _ _ fun k m x => unitOf_mapMember_ne (fun (same : c = k) => beside (same ▸ m)) x
    _ = unitOf c s := mapRecorded_inv (unitOf c) (fun f v s small => unitOf_fset_low c (by unfold GLB; omega) v s) s

theorem mapLoad_d8 {s : State} (ok : mapCheck s = none) : (mapLoad s).1.d8 = s.d8 :=
  calc (mapLoad s).1.d8 = (membersStarted s).d8 := mapLoad_view (·.d8) (fun _ _ => rfl) (fun _ _ => rfl) (fun _ _ => rfl) (fun _ _ _ => emit_d8 _ _ _) ok
    _ = (mapRecorded s).d8 := forAll_inv (·.d8) _ _ _ fun k x => mapMember_inv (·.d8) k (fun _ _ _ _ => rfl) (fun _ _ => rfl) (fun _ _ => rfl) (fun _ _ => rfl) x
    _ = s.d8 := rfl

/-! ### The map that has been loaded -/

/-- Registers that neither a member's start, the horizon nor an event writes. -/
abbrev MapKept (a : Nat) : Prop :=
  a < 0x100000 ∧ a ≠ GLB + 8 ∧ a ≠ CON + CON_STATUS_EV_LOST.off ∧ a ≠ CON + CON_EVLOST_COUNT.off ∧ a ≠ TXN + TXN_HORIZON_HORIZON_US.off ∧ ∀ c : Fin 16, a ≠ MAN + (MAN_CHCAP_NOMINAL.nth c).off

theorem fget_of_rg {s t : State} {b : Nat} {f : Fld} (same : rg t (b + f.off) = rg s (b + f.off)) : fget t b f = fget s b f := congrArg f.get same

theorem rg_emit {a : Nat} (kept : MapKept a) (h : String) (x : List (String × FVal)) (s : State) : rg (emit h x s) a = rg s a := by
  obtain ⟨-, irq, lost, count, -⟩ := kept
  unfold emit
  split
  · exact rg_fset_ne _ _ _ _ irq
  · exact (rg_fset_ne _ _ _ _ lost).trans (rg_fset_ne _ _ _ _ count)

theorem rg_mapLoad {a : Nat} (kept : MapKept a) {s : State} (ok : mapCheck s = none) : rg (mapLoad s).1 a = rg (mapRecorded s) a := by
  have ⟨low, _, _, _, us, nominal⟩ := kept
  calc rg (mapLoad s).1 a = rg (membersStarted s) a :=
        mapLoad_view (rg · a) (fun _ _ => rfl) (fun _ _ => rfl) (fun _ _ => rg_fset_ne _ _ _ _ us) (fun _ _ _ => rg_emit kept _ _ _) ok
    _ = rg (mapRecorded s) a := forAll_inv (rg · a) _ _ _ fun k x =>
        mapMember_inv (rg · a) k (fun f v s _ => rg_fset_ne _ _ _ _ (CH_ne_low k f.off low).symm) (fun _ _ => rfl) (fun _ _ => rfl) (fun _ _ => rg_fset_ne _ _ _ _ (nominal k)) x

theorem poolWords_kept : ∀ a ∈ poolWords, MapKept a := by decide

theorem rg_mapRecorded {a : Nat} (top : a ≠ GLB + GLB_MAP_TOP_TOP_MB.off) (base : a ≠ GLB + GLB_MAP_TWINBASE_BASE_MB.off) (s : State) : rg (mapRecorded s) a = rg (pairsNamed s) a :=
  (rg_fset_ne _ _ _ _ top).trans (rg_fset_ne _ _ _ _ base)

theorem fget_mapLoad {f : Fld} (kept : MapKept (GLB + f.off)) (top : f.off ≠ GLB_MAP_TOP_TOP_MB.off) (base : f.off ≠ GLB_MAP_TWINBASE_BASE_MB.off) {s : State} (ok : mapCheck s = none) :
    fget (mapLoad s).1 GLB f = fget (pairsNamed s) GLB f :=
  fget_of_rg ((rg_mapLoad kept ok).trans (rg_mapRecorded (off_ne GLB top) (off_ne GLB base) s))

theorem mapLoad_loaded {s : State} (ok : mapCheck s = none) : mapLoaded (mapLoad s).1 = true := by
  have one : fget (pairsNamed s) GLB GLB_MAP_CTL_LOADED = 1 := by
    unfold pairsNamed membersNamed
    rw [fget_fset_apart _ (by decide), fget_fset_apart _ (by decide), fget_fset_apart _ (by decide)]
    exact fget_fset _ _ _ _ (by decide)
  unfold mapLoaded fbit
  rw [fget_mapLoad (by decide) (by decide) (by decide) ok, one]
  rfl

theorem mapMembers_length (s : State) : (mapMembers s).length ≤ 16 := (List.length_filter_le _ _).trans (List.length_finRange (n := 16)).le

theorem mapLoad_count {s : State} (ok : mapCheck s = none) : fget (mapLoad s).1 GLB GLB_MAP_MEMBERS_COUNT = (mapMembers s).length := by
  have few := mapMembers_length s
  rw [fget_mapLoad (by decide) (by decide) (by decide) ok]
  unfold pairsNamed membersNamed
  rw [fget_fset_apart _ (by decide), fget_fset_apart _ (by decide), fget_fset _ _ _ _ (by decide)]
  exact Nat.mod_eq_of_lt (by simp only [GLB_MAP_MEMBERS_COUNT]; omega)

/-- The mask of the members has the bit of each member and no other. -/
theorem bitOf_memberMask (s : State) (c : Fin 16) : bitOf (memberMask s) c.val = (mapMembers s).contains c := by
  have sorted : ((mapMembers s).map Fin.val).SortedLT := by
    refine List.Pairwise.sortedLT (List.pairwise_map.mpr ?_)
    exact (List.pairwise_lt_finRange 16).filter _
  have bits : (memberMask s).bitIndices = (mapMembers s).map Fin.val := by
    rw [← Nat.bitIndices_sum_map_two_pow sorted, List.map_map]
    rfl
  rw [bitOf_eq_testBit, Bool.eq_iff_iff, ← Nat.mem_bitIndices, bits, List.contains_iff_mem]
  exact List.mem_map_of_injective Fin.val_injective

theorem mapLoad_inMap {s : State} (ok : mapCheck s = none) (c : Fin 16) : inMap (mapLoad s).1 c = (mapMembers s).contains c := by
  have loaded : fbit (mapLoad s).1 GLB GLB_MAP_CTL_LOADED = true := mapLoad_loaded ok
  unfold inMap
  rw [loaded, Bool.and_true, fget_mapLoad (by decide) (by decide) (by decide) ok]
  unfold pairsNamed membersNamed
  rw [fget_fset_apart _ (by decide), fget_fset _ _ _ _ (by decide), ← bitOf_memberMask, bitOf_eq_testBit, bitOf_eq_testBit, Nat.testBit_mod_two_pow]
  simp [GLB_MAP_MEMBERS_MEMBERS]

/-- The installed lines are those of the map's registers, which nothing after them changes. -/
theorem topLines_mapLoad {s : State} (ok : mapCheck s = none) : topLines (mapLoad s).1 = topLines (pairsNamed s) := by
  have beside : ∀ a ∈ poolWords, a ≠ GLB + GLB_MAP_TOP_TOP_MB.off ∧ a ≠ GLB + GLB_MAP_TWINBASE_BASE_MB.off := by decide
  have words : SamePool (pairsNamed s) { pairsNamed s with regs := (mapLoad s).1.regs } := by
    refine ⟨fun a m => ?_, rfl, fun _ => rfl⟩
    obtain ⟨top, base⟩ := beside a m
    exact (rg_mapLoad (poolWords_kept a m) ok).trans (rg_mapRecorded top base s)
  exact words.topLines

theorem mapLoad_top {s : State} (ok : mapCheck s = none) : fget (mapLoad s).1 GLB GLB_MAP_TOP_TOP_MB = topLines (mapLoad s).1 / 8192 % 2 ^ 32 := by
  rw [topLines_mapLoad ok, fget_of_rg (rg_mapLoad (by decide) ok)]
  exact fget_fset _ _ _ _ (by decide)

/-! ### A load that is refused -/

theorem mapLoad_refused {k : Nat} {s : State} (bad : mapCheck s = some k) : (mapLoad s).1 = mapRefuse k s := by
  unfold mapLoad
  rw [bad]

theorem mapRefuse_rej (k : Nat) (s : State) : fbit (mapRefuse k s) GLB GLB_MAP_CTL_REJ = true := by
  unfold mapRefuse fbit
  rw [fget_fset_apart _ (by decide)]
  exact fbit_fset_one _ _ _ (by decide) (by decide)

theorem mapRefuse_loaded (k : Nat) (s : State) : mapLoaded (mapRefuse k s) = mapLoaded s := by
  unfold mapRefuse mapLoaded fbit
  rw [fget_fset_apart _ (by decide), fget_fset_apart _ (by decide)]

theorem rg_mapRefuse (k : Nat) {a : Nat} (ne : a ≠ GLB + GLB_MAP_CTL_REJ.off) (s : State) : rg (mapRefuse k s) a = rg s a :=
  (rg_fset_ne GLB GLB_MAP_CTL_REASON _ _ ne).trans (rg_fset_ne _ _ _ _ ne)

/-! ### The obligation -/

theorem exec_mapLoad {s : State} (on : blockOn s GLB = true) : exec .mapLoad s = .next (mapLoad s).1 := congrArg Host.Outcome.next (if_pos on)

theorem exec_mapLoad_off {s : State} (off : blockOn s GLB = false) : exec .mapLoad s = .next s := congrArg Host.Outcome.next (if_neg (by simp [off]))

/-- Settles O39: each command is the branch that its checks stand at, with the registers and the records that it writes. -/
theorem mapAndTimingLoad : Obligations.MapAndTimingLoad := by
  unfold Obligations.MapAndTimingLoad
  refine ⟨?load, ?refused, ?off, ?profile, ?shut⟩
  case load =>
    intro s on ok
    have e := exec_mapLoad on
    refine ⟨_, e, mapLoad_loaded ok, mapLoad_inMap ok, mapLoad_count ok, fun c m => ?_, fun c beside => ?_, mapLoad_top ok, mapLoad_d8 ok, exec_sameStore e rfl⟩
    · obtain ⟨⟨state, lost, rows, due⟩, full⟩ := mapLoad_started ok m
      exact ⟨state, lost, rows, full, due⟩
    · have same := mapLoad_beside ok beside
      exact ⟨congrArg (·.2.1) same, congrArg (·.2.2) same, congrArg (·.1) same⟩
  case refused =>
    intro k s on bad
    have e : exec .mapLoad s = .next (mapRefuse k s) := by rw [exec_mapLoad on, mapLoad_refused bad]
    exact ⟨_, e, mapRefuse_rej k s, fget_fset _ _ _ _ (by decide), mapRefuse_loaded k s, fun a ne => rg_mapRefuse k ne s, rfl, rfl, rfl, exec_sameStore e rfl⟩
  case off => exact fun s => exec_mapLoad_off
  case profile =>
    intro c s on free opened
    have e : exec (.loadTimingProfile c) s = .next (loadProfile c (rateCode s c) s) := by rw [exec_loadTimingProfile on free, profileCmd_open opened]
    have holds : ∀ f v, (f, v) ∈ profile (rateCode s c) → fget (loadProfile c (rateCode s c) s) (CH c) f = v % 2 ^ f.width := fun f v m => fget_loadProfile c m s
    refine ⟨_, e, holds CH_TIM0_CL _ ?_, holds CH_TIM0_CWL _ ?_, holds CH_TIM0_TRCD _ ?_, holds CH_TIM0_TRP _ ?_, holds CH_TIM1_TRRD_S 8 ?_, holds CH_TIM4_TRAS _ ?_, holds CH_TIM5_TRFC1 _ ?_,
      holds CH_TIM6_TREFI _ ?_, fun a beside => rg_loadProfile c _ beside s, loadProfile_inv (·.chans) c _ (fun _ _ _ => rfl) s, loadProfile_inv (·.d8) c _ (fun _ _ _ => rfl) s, exec_sameStore e rfl⟩ <;>
      simp [profile]
  case shut =>
    intro c s on free shut
    have e : exec (.loadTimingProfile c) s = .next (fset (CH c) CH_STATUS_TIM_REJ 1 s) := by rw [exec_loadTimingProfile on free, profileCmd_shut shut]
    exact ⟨_, e, fbit_fset_one _ _ _ (by decide) (by decide), fun a ne => rg_fset_ne _ _ _ _ ne, fget_fset_apart _ (by decide) _ _, rfl, rfl, exec_sameStore e rfl⟩

end Sys2Proof.Proofs

/-! PROOF. What the work for requests leaves as it was: their outcomes and answers, what they wait for, and the background work that follows them (01 R42, 04 R130, 07 R203 to R208, 08 R241 to R259). -/

namespace Sys2Proof.Proofs
open Sys2Proof Sys2Proof.Machine Sys2Proof.Laws

/-! ### Properties beside the work for requests -/

/-- The registers that work for requests may write: those below the channels' blocks, a channel's fill, and those of the journal. -/
def RequestReg (a : Nat) : Prop := a < 0x100000 ∨ JRN ≤ a ∨ ∃ c : Fin 16, a = CH c + CH_FILL_FILL.off

/-- A channel's record after work for requests: nothing has begun there, and its standing is the same. -/
structure NothingBegun (y z : ChanState) : Prop where
  lost : z.lost = y.lost
  psnAll : z.psnAll = y.psnAll
  replay : z.replay = y.replay
  line : y.line = [] → z.line = []
  flight : y.flight = [] → z.flight = []

theorem NothingBegun.refl (y : ChanState) : NothingBegun y y := ⟨rfl, rfl, rfl, id, id⟩

/-- A property of states that all work for requests keeps. -/
structure BesideRequests (P : State → Prop) : Prop where
  reg : ∀ a w s, RequestReg a → P (rgSet a w s) = P s
  parts : ∀ (s : State) ports rings arbs led con probe que way wayOps wreads wmem horizon,
    P { s with ports := ports, rings := rings, arbs := arbs, led := led, con := con, probe := probe, que := que, way := way, wayOps := wayOps, wreads := wreads, wmem := wmem, horizon := horizon } = P s
  chans : ∀ (s : State) (l : Vector ChanState 16), (∀ c : Fin 16, NothingBegun s.chans[c] l[c]) → P s → P { s with chans := l }
  strm : ∀ p k r s, r.waiting = (s.strm p k).waiting → P s → P (setStrm p k r s)
  caravans : ∀ f (s : State), P s → P { s with caravans := s.caravans.map f }

theorem requestReg_HP (p : Fin 4) {i : Nat} (low : i < 0x1000) : RequestReg (HP p + i) := .inl ((HP_lt_TXN p low).trans (by decide))

theorem forAll_keeps_prop {α : Type} {P : State → Prop} (l : List α) (f : α → State → State) {s : State} (hs : P s) (kept : ∀ a x, P x → P (f a x)) : P (forAll l f s) :=
  foldl_keeps (fun s a => f a s) l s (fun x a => kept a x) hs

theorem onlyIf_keeps_prop {P : State → Prop} (c : Bool) (f : State → State) {s : State} (hs : P s) (kept : P (f s)) : P (onlyIf c f s) := by
  unfold onlyIf
  split
  · exact kept
  · exact hs

section
variable {P : State → Prop} (h : BesideRequests P)
include h

theorem fset_requests {b : Nat} {f : Fld} (reg : RequestReg (b + f.off)) (v : Nat) (s : State) : P (fset b f v s) = P s := h.reg _ _ s reg

theorem fbumpN_requests {b : Nat} {f : Fld} (reg : RequestReg (b + f.off)) (n : Nat) (s : State) : P (fbumpN b f n s) = P s := h.reg _ _ s reg

theorem fbump_requests {b : Nat} {f : Fld} (reg : RequestReg (b + f.off)) (s : State) : P (fbump b f s) = P s := h.reg _ _ s reg

theorem fmax_requests {b : Nat} {f : Fld} (reg : RequestReg (b + f.off)) (v : Nat) (s : State) : P (fmax b f v s) = P s := by
  unfold fmax
  split
  · exact h.reg _ _ s reg
  · rfl

theorem charge_requests (i n : Nat) (m : Option (BitVec 8)) (s : State) : P (charge i n m s) = P s := h.parts s _ _ _ _ _ _ _ _ _ _ _ _

theorem updPort_requests (p : Fin 4) (f : PortState → PortState) (s : State) : P (updPort p f s) = P s := h.parts s _ _ _ _ _ _ _ _ _ _ _ _

theorem updRing_requests (c : Fin 16) (f : Ring → Ring) (s : State) : P (updRing c f s) = P s := h.parts s _ _ _ _ _ _ _ _ _ _ _ _

theorem arbs_requests (arbs : Vector ArbState 17) (s : State) : P { s with arbs := arbs } = P s := h.parts s _ _ _ _ _ _ _ _ _ _ _ _

theorem con_requests (con : ConState) (s : State) : P { s with con := con } = P s := h.parts s _ _ _ _ _ _ _ _ _ _ _ _

theorem que_requests (q : QueueState) (s : State) : P { s with que := q } = P s := h.parts s _ _ _ _ _ _ _ _ _ _ _ _

theorem wreads_requests (l : List WalkRead) (s : State) : P { s with wreads := l } = P s := h.parts s _ _ _ _ _ _ _ _ _ _ _ _

theorem setWayLine_requests (w : Nat) (l : Line) (s : State) : P (setWayLine w l s) = P s := h.parts s _ _ _ _ _ _ _ _ _ _ _ _

theorem updChan_requests {c : Fin 16} {f : ChanState → ChanState} (begun : ∀ y, NothingBegun y (f y)) {s : State} (hs : P s) : P (updChan c f s) := by
  refine h.chans s _ (fun k => ?_) hs
  by_cases own : k = c
  · subst own
    simpa using begun s.chans[k]
  · have ne : c.val ≠ k.val := fun e => own (Fin.ext e.symm)
    simpa [ne] using NothingBegun.refl s.chans[k]

/-! ### Answers and outcomes -/

theorem emit_requests (k : String) (x : List (String × FVal)) (s : State) : P (emit k x s) = P s := by
  unfold emit
  split
  · exact (fset_requests h (.inl (by decide)) _ _).trans (con_requests h _ s)
  · exact (fset_requests h (.inl (by decide)) _ _).trans ((fbump_requests h (.inl (by decide)) _).trans (con_requests h _ s))

theorem respond_requests (p : Fin 4) (r : Resp) (s : State) : P (respond p r s) = P s :=
  (pump_spec P p _ (fun _ v y off => fset_requests h (requestReg_HP p (off ▸ by decide)) v y) (charge_requests h) (con_requests h) (updPort_requests h p)
    fun y => fbump_requests h (requestReg_HP p (by decide)) y).trans (updPort_requests h p _ s)

theorem releaseX_requests (p : Fin 4) (r : Req) (s : State) : P (releaseX p r s) = P s := by
  unfold releaseX
  split
  · exact updPort_requests h p _ s
  · rfl

theorem countRef_requests {code : Nat} (le : code ≤ 8) (s : State) : P (countRef code s) = P s :=
  fbump_requests h (.inl (by simp only [Fld.nth, TXN, TXN_REF_CNT_COUNT]; omega)) s

theorem lastRef_requests (p : Fin 4) (k : BitVec 12) (code sub : Nat) (s : State) : P (lastRef p k code sub s) = P s := h.reg _ _ s (.inl (by decide))

theorem refuseNew_requests {code : Nat} (le : code ≤ 8) (p : Fin 4) (r : Req) (info sub : Nat) {s : State} (hs : P s) : P (refuseNew p r code info sub s) := by
  have freed : P (setStrm p r.hdr.stream { s.strm p r.hdr.stream with k := 0, resv := false, retryAt := none, busy := false } s) := h.strm p r.hdr.stream _ s rfl hs
  have released := (releaseX_requests h p r _).mpr ((lastRef_requests h p r.hdr.stream code sub _).mpr ((countRef_requests h le _).mpr freed))
  unfold refuseNew refuseResp
  extract_lets x y
  split
  · exact released
  · exact (respond_requests h _ _ _).mpr released

theorem countFinal_requests (f : Final) (dup : Bool) (s : State) : P (countFinal f dup s) = P s := by
  unfold countFinal
  split
  · exact countRef_requests h (by decide) s
  · split
    · rfl
    · split <;> exact fbump_requests h (.inl (by decide)) s

theorem probeStampAt_requests {k : Nat} (lt : k < 8) (t : Nat) (s : State) : P (probeStampAt k t s) = P s :=
  h.reg _ _ s (.inl (by simp only [TXN, TXN_PROBE_STAMP_STAMP]; omega))

theorem probeService_requests (p : Fin 4) (k : BitVec 12) (seq : BitVec 16) (t : Nat) (s : State) : P (probeService p k seq t s) = P s := by
  unfold probeService
  split
  · exact probeStampAt_requests h (by decide) t s
  · rfl

theorem probeEnd_requests (p : Fin 4) (k : BitVec 12) (seq : BitVec 16) (s : State) : P (probeEnd p k seq s) = P s := by
  unfold probeEnd
  split
  · exact (h.parts _ _ _ _ _ _ _ _ _ _ _ _ _).trans ((fset_requests h (.inl (by decide)) _ _).trans
      ((probeStampAt_requests h (by decide) _ _).trans (probeStampAt_requests h (by decide) _ s)))
  · rfl

theorem updEntry_requests (c : Fin 16) (slot : Nat) (f : JEntry → JEntry) (s : State) : P (updEntry c slot f s) = P s := updRing_requests h c _ s

theorem setEntrySt_requests (c : Fin 16) (slot : Nat) (st : JState) (s : State) : P (setEntrySt c slot st s) = P s := by
  unfold setEntrySt
  split
  · rfl
  · exact (charge_requests h _ _ _ _).trans (updEntry_requests h c slot _ s)

theorem releaseSlots_requests (c : Fin 16) (slot : Nat) (partner : Bool) (s : State) : P (releaseSlots c slot partner s) = P s := arbs_requests h _ s

theorem servePoint_requests (c : Fin 16) (slot : Nat) (s : State) : P (servePoint c slot s) = P s := by
  unfold servePoint
  split
  · rfl
  · exact (probeService_requests h _ _ _ _ _).trans (updEntry_requests h c slot _ s)

theorem retireFuel_requests (n : Nat) (c : Fin 16) (s : State) : P (retireFuel n c s) = P s := by
  induction n generalizing s with
  | zero => rfl
  | succ n ih =>
    unfold retireFuel
    split
    · rfl
    · split
      · exact (ih _).trans ((charge_requests h _ _ _ _).trans (updRing_requests h c _ s))
      · rfl

theorem retire_requests (c : Fin 16) (s : State) : P (retire c s) = P s := by
  have journal : ∀ f : Fld, RequestReg (JRN + f.off) := fun f => .inr (.inl (Nat.le_add_right JRN f.off))
  unfold retire ringStat
  extract_lets w
  exact (fmax_requests h (journal _) w _).trans ((fset_requests h (journal _) w _).trans (retireFuel_requests h _ c s))

theorem syncService_requests (p : Fin 4) (k : BitVec 12) {s : State} (hs : P s) : P (syncService p k s) := by
  unfold syncService
  extract_lets r
  split
  · exact hs
  · extract_lets f recorded stored counted answered
    split
    · have counted_keeps : P counted := (countFinal_requests h _ _ _).mpr ((probeService_requests h _ _ _ _ _).mpr (h.strm _ _ _ s rfl hs))
      have answered_keeps : P answered := by
        unfold answered
        split
        · exact (respond_requests h _ _ _).mpr counted_keeps
        · exact counted_keeps
      exact (probeEnd_requests h _ _ _ _).mpr answered_keeps
    · exact hs

theorem outcome_requests (c : Fin 16) (slot : Nat) (f : Final) (data : List Slot) (quiet : Bool) {s : State} (hs : P s) : P (outcome c slot f data quiet s) := by
  unfold outcome
  split
  · exact hs
  case h_2 e found =>
    split
    · exact hs
    extract_lets r recorded stored served
    have recorded_keeps : P recorded := (updEntry_requests h c slot _ s).mpr hs
    have stored_keeps : P stored := h.strm _ _ _ recorded (WalkKept.recordFin_waiting _ _ _ _) recorded_keeps
    have served_keeps : P served := by
      unfold served
      split
      · exact (probeService_requests h _ _ _ _ _).mpr stored_keeps
      · exact stored_keeps
    split
    · exact recorded_keeps
    case h_2 w _ =>
      split
      · exact recorded_keeps
      extract_lets silent counted faulted answered
      have counted_keeps : P counted := by
        unfold counted
        split
        · exact served_keeps
        · exact (countFinal_requests h _ _ _).mpr served_keeps
      have faulted_keeps : P faulted := by
        unfold faulted
        split
        · split
          · exact counted_keeps
          · exact (lastRef_requests h _ _ _ _ _).mpr counted_keeps
        · exact counted_keeps
      have answered_keeps : P answered := by
        unfold answered
        split
        · exact (respond_requests h _ _ _).mpr faulted_keeps
        · exact faulted_keeps
      exact syncService_requests h _ _ ((probeEnd_requests h _ _ _ _).mpr answered_keeps)

theorem faultEntry_requests (c : Fin 16) (slot reason ch : Nat) (quiet : Bool) {s : State} (hs : P s) : P (faultEntry c slot reason ch quiet s) :=
  outcome_requests h c slot _ _ quiet ((updEntry_requests h c slot _ s).mpr hs)

theorem finishWrite_requests (ring : Fin 16) (slot : Nat) {s : State} (hs : P s) : P (finishWrite ring slot s) := by
  unfold finishWrite
  split
  · exact hs
  · split
    · exact (retire_requests h ring s).mpr hs
    · exact (retire_requests h ring _).mpr (outcome_requests h ring slot _ _ _ hs)

theorem homeDurable_requests (ring : Fin 16) (slot : Nat) {s : State} (hs : P s) : P (homeDurable ring slot s) := by
  unfold homeDurable
  split
  · exact hs
  · extract_lets x
    have durable : P x := (updEntry_requests h ring slot _ s).mpr hs
    split
    · exact durable
    · exact finishWrite_requests h ring slot durable

theorem twinDurable_requests (ring : Fin 16) (slot : Nat) {s : State} (hs : P s) : P (twinDurable ring slot s) := by
  unfold twinDurable
  split
  · exact hs
  · extract_lets x
    have durable : P x := (updEntry_requests h ring slot _ s).mpr hs
    split
    · exact finishWrite_requests h ring slot durable
    · exact durable

theorem readValid_requests (ring : Fin 16) (slot : Nat) (l : Line) (psn : Bool) {s : State} (hs : P s) : P (readValid ring slot l psn s) := by
  unfold readValid
  extract_lets x
  have served : P x := (servePoint_requests h ring slot s).mpr hs
  split
  · exact served
  · exact (retire_requests h ring _).mpr (outcome_requests h ring slot _ _ _ ((updEntry_requests h ring slot _ _).mpr served))

/-! ### Commands of channels -/

theorem pushBg_requests (c : Fin 16) (k : BgCls) (x : Cmd) {s : State} (hs : P s) : P (pushBg c k x s) := updChan_requests h (fun _ => by exact ⟨rfl, rfl, rfl, id, id⟩) hs

theorem pushCmd_requests (c : Fin 16) (x : Cmd) {s : State} (hs : P s) : P (pushCmd c x s) := updChan_requests h (fun _ => by exact ⟨rfl, rfl, rfl, id, id⟩) hs

theorem setDramPsn_requests (c : Fin 16) (lam : Nat) (p : Bool) {s : State} (hs : P s) : P (setDramPsn c lam p s) := by
  unfold setDramPsn
  split <;> exact updChan_requests h (fun _ => by exact ⟨rfl, rfl, rfl, id, id⟩) hs

theorem fillStat_requests (c : Fin 16) (s : State) : P (fillStat c s) = P s := by
  unfold fillStat
  extract_lets n
  exact (fmax_requests h (f := CH_FILL_HWM) (.inr (.inr ⟨c, rfl⟩)) n _).trans (fset_requests h (.inr (.inr ⟨c, rfl⟩)) n s)

theorem killCmds_requests (c : Fin 16) (slot : Nat) {s : State} (hs : P s) : P (killCmds c slot s) := by
  unfold killCmds
  extract_lets mine hit
  refine forAll_keeps_prop _ _ (h.chans s _ (fun k => ?_) hs) fun a x hx => (fillStat_requests h a x).mpr hx
  rw [Fin.getElem_fin, Fin.getElem_fin, Vector.getElem_map]
  exact ⟨rfl, rfl, rfl, fun none => by simp [none], fun none => by simp [none]⟩

theorem loseEntry_requests (c : Fin 16) (slot reason : Nat) (quiet : Bool) {s : State} (hs : P s) : P (loseEntry c slot reason quiet s) := by
  unfold loseEntry
  extract_lets x
  have counted : P x := onlyIf_keeps_prop _ _ hs (updChan_requests h (fun _ => by exact ⟨rfl, rfl, rfl, id, id⟩) hs)
  refine (fbump_requests h (.inr (.inl (Nat.le_add_right JRN _))) _).mpr (killCmds_requests h c slot ?_)
  exact (releaseSlots_requests h _ _ _ _).mpr ((releaseSlots_requests h _ _ _ _).mpr (faultEntry_requests h _ _ _ _ _ ((setEntrySt_requests h _ _ _ _).mpr counted)))

/-! ### The queue engine -/

theorem queStat_requests (s : State) : P (queStat s) = P s := by
  unfold queStat
  extract_lets x
  exact (fset_requests h (.inl (by decide)) _ _).trans ((que_requests h _ x).trans ((fset_requests h (.inl (by decide)) _ _).trans (fset_requests h (.inl (by decide)) _ s)))

theorem setQfr_requests (f : Nat) (x : QFrame) (s : State) : P (setQfr f x s) = P s := (queStat_requests h _).trans (que_requests h _ s)

theorem setBrec_requests (b : Nat) (r : BlockRec) (s : State) : P (setBrec b r s) = P s := que_requests h _ s

theorem freeQFrame_requests (f : Nat) (s : State) : P (freeQFrame f s) = P s := by
  unfold freeQFrame
  split
  · exact (setQfr_requests h _ _ _).trans ((fbump_requests h (.inl (by decide)) _).trans (fset_requests h (.inl (by decide)) _ s))
  · exact setQfr_requests h f _ s

theorem qWbDone_requests (b c : Nat) (s : State) : P (qWbDone b c s) = P s := by
  unfold qWbDone
  extract_lets x
  have counted : P x = P s := fbump_requests h (.inl (by decide)) s
  split
  · exact counted
  · extract_lets y z w
    have cleaned : P w = P s := (setQfr_requests h _ _ _).trans counted
    split
    · exact cleaned
    · split
      · split
        · exact (setQfr_requests h _ _ _).trans cleaned
        · exact (freeQFrame_requests h _ _).trans cleaned
      · split
        · exact (freeQFrame_requests h _ _).trans cleaned
        · exact cleaned

theorem pushQueWb_requests (b c l : Nat) (man : Option (BitVec 8)) {s : State} (hs : P s) : P (pushQueWb b c l man s) := by
  unfold pushQueWb
  split
  · exact hs
  · split
    · exact pushBg_requests h _ _ _ hs
    · exact (qWbDone_requests h b c _).mpr (setDramPsn_requests h _ _ _ hs)

theorem qWriteBack_requests (f : Nat) {s : State} (hs : P s) : P (qWriteBack f s) := by
  unfold qWriteBack
  extract_lets x man y
  exact forAll_keeps_prop _ _ (onlyIf_keeps_prop _ _ hs (pushQueWb_requests h _ _ _ _ hs)) fun _ _ => pushQueWb_requests h _ _ _ _

theorem evictFuel_requests (n : Nat) {s : State} (hs : P s) : P (evictFuel n s) := by
  induction n generalizing s with
  | zero => exact hs
  | succ n ih =>
    unfold evictFuel
    split
    · exact hs
    · split
      · exact ih ((fbump_requests h (.inl (by decide)) _).mpr ((freeQFrame_requests h _ s).mpr hs))
      · split
        · exact ih (qWriteBack_requests h _ ((setQfr_requests h _ _ _).mpr ((fbump_requests h (.inl (by decide)) s).mpr hs)))
        · exact hs

theorem evict_requests {s : State} (hs : P s) : P (evict s) := evictFuel_requests h _ hs

theorem shiftStack_requests (e n : Nat) {s : State} (hs : P s) : P (shiftStack e n s) := by
  unfold shiftStack
  extract_lets go
  refine h.chans s _ (fun k => ?_) hs
  rw [Fin.getElem_fin, Fin.getElem_fin, Vector.getElem_map]
  exact ⟨rfl, rfl, rfl, fun none => by simp [none], fun none => by simp [none]⟩

theorem stackLost_requests (e n : Nat) {s : State} (hs : P s) : P (stackLost e n s) := by
  unfold stackLost
  extract_lets l _ x
  have counted : P x := (fbumpN_requests h (.inl (by decide)) _ _).mpr ((que_requests h _ s).mpr hs)
  exact (queStat_requests h _).mpr (shiftStack_requests h _ _ ((que_requests h _ x).mpr counted))

theorem pushStack_requests (wr : Bool) (lo hi k : Nat) {s : State} (hs : P s) : P (pushStack wr lo hi k s) := by
  unfold pushStack
  extract_lets a b
  split
  · exact hs
  · split
    · split
      · exact pushBg_requests h _ _ _ hs
      · exact stackLost_requests h _ _ hs
    · exact hs

theorem stackLevel_requests {s : State} (hs : P s) : P (stackLevel s) := by
  unfold stackLevel
  extract_lets deep top
  split
  · split
    · exact hs
    · exact forAll_keeps_prop _ _ hs fun _ _ => pushStack_requests h _ _ _ _
  · split
    · exact forAll_keeps_prop _ _ ((que_requests h _ s).mpr hs) fun _ _ => pushStack_requests h _ _ _ _
    · exact hs

theorem pushBlock_requests (b : Nat) {s : State} (hs : P s) : P (pushBlock b s) :=
  (queStat_requests h _).mpr (stackLevel_requests h ((setBrec_requests h _ _ _).mpr ((que_requests h _ s).mpr hs)))

/-- The plan of a lost ENQ goes: its frames, its cells, its links and its blocks. -/
theorem dropPlan_requests (ring : Fin 16) (slot : Nat) {s : State} (hs : P s) : P (dropPlan ring slot s) := by
  unfold dropPlan
  extract_lets x
  refine (que_requests h _ x).mpr (forAll_keeps_prop _ _ hs fun p y hy => ?_)
  extract_lets frames cells unlinked
  have frames_keeps : P frames := forAll_keeps_prop _ _ hy fun f z hz => by
    split
    · exact (setQfr_requests h _ _ z).mpr hz
    · exact hz
  have cells_keeps : P cells := forAll_keeps_prop _ _ frames_keeps fun x z hz => by
    split
    · exact (setQfr_requests h _ _ z).mpr hz
    · exact hz
  have unlinked_keeps : P unlinked := by
    unfold unlinked
    split
    · exact onlyIf_keeps_prop _ _ cells_keeps ((setBrec_requests h _ _ _).mpr cells_keeps)
    · exact cells_keeps
  exact forAll_keeps_prop _ _ unlinked_keeps fun b _ => pushBlock_requests h b

theorem initLose_requests (k : Nat) (s : State) : P (initLose k s) = P s := (fbumpN_requests h (.inl (by decide)) _ _).trans (que_requests h _ s)

theorem initFuel_requests (n : Nat) {s : State} (hs : P s) : P (initFuel n s) := by
  induction n generalizing s with
  | zero => exact hs
  | succ n ih =>
    unfold initFuel
    extract_lets k _ x
    have issued : P x := (que_requests h _ s).mpr hs
    have lost : P (initFuel n (initLose k x)) := ih ((initLose_requests h k x).mpr issued)
    split
    · exact hs
    · split
      · split
        · exact pushBg_requests h _ _ _ issued
        · exact lost
      · exact lost

theorem initDone_requests (k : Nat) (lost : Bool) {s : State} (hs : P s) : P (initDone k lost s) := by
  refine initFuel_requests h _ ?_
  split
  · exact (initLose_requests h k s).mpr hs
  · exact (que_requests h _ s).mpr hs

theorem voidRuns_requests (p : Fin 4) (k : BitVec 12) (seq : BitVec 16) (id : Nat) {s : State} (hs : P s) : P (voidRuns p k seq id s) :=
  (que_requests h _ _).mpr (h.caravans _ s hs)

theorem dupAnswer_requests (id : Nat) {s : State} (hs : P s) : P (dupAnswer id s) := by
  unfold dupAnswer
  split
  · exact hs
  · split
    · exact hs
    · extract_lets _ x got
      have voided : P x := voidRuns_requests h _ _ _ _ ((que_requests h _ s).mpr hs)
      split
      · exact (respond_requests h _ _ _).mpr voided
      · exact voided

theorem queBack_requests (ring : Fin 16) (entry cell : Nat) (l : Line) (psn : Bool) {s : State} (hs : P s) : P (queBack ring entry cell l psn s) := by
  unfold queBack
  split
  · exact dupAnswer_requests h entry ((que_requests h _ s).mpr hs)
  · exact (que_requests h _ s).mpr hs

/-! ### The Waystation and the walk engine -/

theorem setFrame_requests (pin : Bool) (f : Nat) (x : Frame) (s : State) : P (setFrame pin f x s) = P s := by
  unfold setFrame
  split <;> exact h.parts s _ _ _ _ _ _ _ _ _ _ _ _

theorem wayStat_requests (s : State) : P (wayStat s) = P s :=
  (fset_requests h (.inl (by decide)) _ _).trans ((fset_requests h (.inl (by decide)) _ _).trans (fset_requests h (.inl (by decide)) _ s))

theorem cleanLine_requests (pin : Bool) (f i : Nat) (s : State) : P (cleanLine pin f i s) = P s := (wayStat_requests h _).trans (setFrame_requests h pin f _ s)

theorem pushFill_requests (pin : Bool) (f i : Nat) {s : State} (hs : P s) : P (pushFill pin f i s) := by
  unfold pushFill
  split
  · exact hs
  · split
    · exact pushBg_requests h _ _ _ hs
    · exact (setWayLine_requests h _ _ _).mpr ((setFrame_requests h pin f _ _).mpr ((charge_requests h _ _ _ s).mpr hs))

theorem pushWb_requests (pin : Bool) (f i : Nat) {s : State} (hs : P s) : P (pushWb pin f i s) := by
  unfold pushWb
  extract_lets x
  split
  · exact hs
  · split
    · exact hs
    · extract_lets home
      have home_keeps : P home := onlyIf_keeps_prop _ _ ((setFrame_requests h pin f _ s).mpr hs) (pushBg_requests h _ _ _ ((setFrame_requests h pin f _ s).mpr hs))
      exact onlyIf_keeps_prop _ _ home_keeps (pushBg_requests h _ _ _ home_keeps)

theorem wbDone_requests (pin : Bool) (f i : Nat) (l : Line) {s : State} (hs : P s) : P (wbDone pin f i l s) := by
  unfold wbDone
  extract_lets x y z
  have counted : P y := (fbump_requests h (.inl (by decide)) s).mpr hs
  have waits : P z := (setFrame_requests h pin f _ y).mpr counted
  split
  · exact hs
  split
  · exact (setFrame_requests h pin f _ y).mpr counted
  split
  · exact (cleanLine_requests h pin f i y).mpr counted
  split
  · exact pushWb_requests h pin f i waits
  split
  · exact forAll_keeps_prop _ _ waits fun _ _ => pushWb_requests h _ _ _
  · exact waits

theorem walkBack_requests (image : Bool) (a b key : Nat) (l : Line) (psn : Bool) (s : State) : P (walkBack image a b key l psn s) = P s := by
  unfold walkBack
  extract_lets x
  refine (wreads_requests h _ x).trans ?_
  unfold x
  split
  · exact (fbump_requests h (.inl (by decide)) _).trans (charge_requests h _ _ _ s)
  · rfl

theorem ueBack_requests (pin : Bool) (f i : Nat) (l : Line) (psn : Bool) (s : State) : P (ueBack pin f i l psn s) = P s := by
  unfold ueBack
  split
  · exact h.parts s _ _ _ _ _ _ _ _ _ _ _ _
  · rfl

/-! ### ETA -/

theorem deferEval_requests (ring : Fin 16) (slot : Nat) (s : State) : P (deferEval ring slot s) = P s := by
  unfold deferEval
  split
  · rfl
  · extract_lets w eta x
    have deferred : P x = P s := (fbump_requests h (.inl (by decide)) _).trans (updEntry_requests h ring slot _ s)
    refine ite_keeps (P := (P · = P s)) (fun _ => rfl) fun _ => ite_keeps (P := (P · = P s)) (fun _ => ?_) fun _ => rfl
    split
    · exact (respond_requests h _ _ _).trans deferred
    · exact deferred

theorem deferAll_requests (c : Fin 16) (s : State) : P (deferAll c s) = P s :=
  forAll_inv P _ _ s fun r _ => forAll_inv P _ _ _ fun _ x => deferEval_requests h r _ x

end

end Sys2Proof.Proofs

/-! PROOF. The loss of a channel whose replay was abandoned (01 R41, R42, 10 R312). -/

namespace Sys2Proof.Proofs
open Sys2Proof Sys2Proof.Machine Sys2Proof.Laws

/-! ### Requests of a lost channel -/

section
variable {P : State → Prop} (h : BesideRequests P)
include h

theorem loseRing_requests (both : Bool) (c ring : Fin 16) {s : State} (hs : P s) : P (loseRing both c ring s).1 := by
  unfold loseRing
  extract_lets l
  dsimp only
  refine evict_requests h ((retire_requests h ring _).mpr (forAll_keeps_prop _ _ hs fun k x hx => ?_))
  exact dropPlan_requests h ring k (loseEntry_requests h ring k 0 false hx)

theorem redirect_requests (c : Fin 16) (twin : Bool) (x : Cmd) {s : State} (hs : P s) : P (redirect c twin x s) := by
  have framed : ∀ pin f g, P (updFrame pin f g s) := fun pin f g => (setFrame_requests h pin f _ s).mpr hs
  have wrote : ∀ pin f i, P (if twin = true then wbDone pin f i (wayLine s (frameLine s pin f i)) s else cleanLine pin f i s) := fun pin f i =>
    ite_keeps (fun _ => wbDone_requests h pin f i _ hs) fun _ => (cleanLine_requests h pin f i s).mpr hs
  unfold redirect
  extract_lets q
  split
  next ring slot _ => exact ite_keeps (fun _ => pushCmd_requests h q x hs) fun _ => readValid_requests h ring slot 0 true hs
  next ring slot _ =>
    exact pushCmd_requests h q x (updChan_requests h (fun _ => by exact ⟨rfl, rfl, rfl, id, id⟩) ((updEntry_requests h ring slot _ s).mpr hs))
  next ring slot _ => exact homeDurable_requests h ring slot hs
  next ring slot _ => exact twinDurable_requests h ring slot hs
  next image a b key _ => exact ite_keeps (fun _ => (wreads_requests h _ s).mpr hs) fun _ => (walkBack_requests h image a b key 0 true s).mpr hs
  next pin f i _ => exact pushFill_requests h pin f i (framed pin f _)
  next pin f i _ => exact wrote pin f i
  next pin f i _ => exact wrote pin f i
  next pin f i _ => exact ite_keeps (fun _ => pushCmd_requests h q x hs) fun _ => (ueBack_requests h pin f i 0 true s).mpr hs
  next b cell _ => exact (qWbDone_requests h b cell s).mpr hs
  next ring entry cell _ => exact queBack_requests h ring entry cell 0 true hs
  next e n _ => exact stackLost_requests h e n hs
  next e _ => exact initDone_requests h e true hs
  next => exact hs

theorem poisonFrames_requests (bad : Place → Bool) (s : State) : P (poisonFrames bad s) = P s := by
  unfold poisonFrames
  extract_lets hit one
  have framed : ∀ pin x y, P (one pin x y) = P y := fun pin x y => by
    unfold one
    split
    · rfl
    · exact setFrame_requests h pin x.1 _ y
  exact (wayStat_requests h _).trans ((forAll_inv P _ _ _ (framed true)).trans (forAll_inv P _ _ s (framed false)))

theorem moveContest_requests (c : Fin 16) {s : State} (hs : P s) : P (moveContest c s) := by
  unfold moveContest
  extract_lets all x a
  have refused : P x := forAll_keeps_prop _ _ hs fun b y hy => by
    split
    · exact refuseNew_requests h (by decide) _ _ _ _ ((arbs_requests h _ y).mpr hy)
    · exact hy
  exact (arbs_requests h _ _).mpr ((arbs_requests h _ x).mpr refused)

theorem horizonCheck_requests (s : State) : P (horizonCheck s) = P s :=
  horizonCheck_inv P (fun s _ => h.parts s _ _ _ _ _ _ _ _ _ _ _ _) (fun _ _ => fset_requests h (.inl (by decide)) _ _) (emit_requests h) s

end

/-! ### The parts of a loss -/

/-- A channel's loss is recorded, with the poison of its lines and of those of its partner that have no copy left (01 R41, R42). -/
def lossRecorded (c : Fin 16) (s : State) : State :=
  let both := !twinCopy s c
  let x := updChan c (fun y => { y with
    lost := true, resync := false, psnAll := true, psnTwin := both || y.psnTwin,
    psn := if both then [] else y.psn.filter fun l => decide (twinFirst s ≤ l) }) s
  if both then updChan (partnerOf c) (fun y => if y.lost ∨ y.resync then
    { y with psnTwin := true, psn := y.psn.filter fun l => decide (l < twinFirst x) } else y) x else x

/-- What a lost channel was doing has ended, and it has its new state (10 R312, 13 R382). -/
def lossCleared (c : Fin 16) (st : Nat) (s : State) : State :=
  setChState c st (loseSlice c (clearChan c (leaveCycle [(1, c.val), (2, c.val), (3, c.val)] (lossRecorded c s))))

/-- What a loss does once the channel is cleared is work for requests, and its report (01 R42). -/
theorem channelLost_requests {P : State → Prop} (h : BesideRequests P) {c : Fin 16} {cause : String} {st : Nat} {s : State} (hs : P (lossCleared c st s)) :
    ∃ u x, P u ∧ channelLost c cause st s = horizonCheck (emit "channel_lost" x (irq GLB_IRQ_STAT_CH_LOST u)) := by
  unfold channelLost
  extract_lets both y cmds recorded copies cleared
  have cleared_keeps : P cleared := hs
  split
  next own n lost =>
  have own_keeps : P own := of_fst lost (loseRing_requests h both c c cleared_keeps)
  split
  next journal m lost =>
  have journal_keeps : P journal := of_fst lost (loseRing_requests h both c (partnerOf c) own_keeps)
  extract_lets commands walks contest
  have commands_keeps : P commands := forAll_keeps_prop _ _ journal_keeps fun x z hz => by
    extract_lets stands
    exact onlyIf_keeps_prop _ _ hz (redirect_requests h c _ x hz)
  have contest_keeps : P contest := moveContest_requests h c ((poisonFrames_requests h _ _).mpr ((wreads_requests h _ _).mpr commands_keeps))
  exact ⟨contest, _, contest_keeps, rfl⟩

/-! ### What the loss of a channel leaves -/

/-- A channel is recorded as lost by a replay that was abandoned, at DTIME `n` and with nothing at the core that could go on. -/
def LossKnown (c : Fin 16) (n : Nat) (s : State) : Prop :=
  fbit s (CH c) CH_INTSTAT_REPLAY_FAIL = true ∧ (s.chan c).lost = true ∧ (s.chan c).psnAll = true ∧ s.d8 = n ∧ settled s

/-- Nothing of a channel's commands is left. -/
def NoCommands (c : Fin 16) (s : State) : Prop := (s.chan c).replay = none ∧ (s.chan c).line = [] ∧ (s.chan c).flight = []

/-- A channel that a replay has failed on: it is known to be lost, in state FAULT, and has no commands. -/
def ReplayFailed (c : Fin 16) (n : Nat) (s : State) : Prop := LossKnown c n s ∧ NoCommands c s ∧ chState s c = 6

section
variable {c : Fin 16} {n : Nat} {s : State}

theorem LossKnown.fset (hs : LossKnown c n s) {b : Nat} {f : Fld} (apart : CH c + CH_INTSTAT_REPLAY_FAIL.off ≠ b + f.off) (v : Nat) : LossKnown c n (fset b f v s) := by
  obtain ⟨fail, rest⟩ := hs
  exact ⟨(congrArg (· != 0) (fget_fset_ne _ _ _ _ _ _ apart)).trans fail, rest⟩

theorem LossKnown.updChan (hs : LossKnown c n s) (k : Fin 16) {f : ChanState → ChanState} (same : ∀ y, (f y).lost = y.lost ∧ (f y).psnAll = y.psnAll) : LossKnown c n (updChan k f s) := by
  obtain ⟨fail, lost, psn, rest⟩ := hs
  have chan : ((Machine.updChan k f s).chan c).lost = (s.chan c).lost ∧ ((Machine.updChan k f s).chan c).psnAll = (s.chan c).psnAll := by
    by_cases own : c = k
    · subst own
      rw [updChan_chan]
      exact same _
    · rw [updChan_chan_ne own]
      exact ⟨rfl, rfl⟩
  exact ⟨fail, chan.1.trans lost, chan.2.trans psn, rest⟩

/-- The ledger, the PHYs, self-test and the Waystation's frames are beside it. -/
theorem LossKnown.parts (hs : LossKnown c n s) {led : LedState} {phys : Vector PhyState 16} {bist : BistState} {way : WayState} : LossKnown c n { s with led := led, phys := phys, bist := bist, way := way } := hs

theorem LossKnown.fillStat (hs : LossKnown c n s) (k : Fin 16) : LossKnown c n (fillStat k s) := by
  have apart : CH c + CH_INTSTAT_REPLAY_FAIL.off ≠ CH k + CH_FILL_FILL.off := by
    simp only [CH, CH_INTSTAT_REPLAY_FAIL, CH_FILL_FILL]
    omega
  unfold Machine.fillStat fmax
  extract_lets m
  have filled := hs.fset apart m
  exact ite_keeps (fun _ => filled.fset (f := CH_FILL_HWM) apart m) fun _ => filled

theorem LossKnown.endInord (hs : LossKnown c n s) : LossKnown c n (endInord c s) := by
  have low : ∀ f : Fld, f.off < 0x1000 → CH c + CH_INTSTAT_REPLAY_FAIL.off ≠ ARB + f.off := fun f small => CH_ne_low c _ (by unfold ARB; omega)
  unfold Machine.endInord
  split
  · refine LossKnown.fset (LossKnown.fset ?_ (low _ ?_) _) (low _ (by decide)) _
    · exact hs.updChan c fun _ => ⟨rfl, rfl⟩
    · simp only [nth_off, ARB_IOTIME_COUNT]
      omega
  · exact hs

theorem LossKnown.pausePay (hs : LossKnown c n s) (len : Nat) : LossKnown c n (pausePay c len s) := by
  have apart : CH c + CH_INTSTAT_REPLAY_FAIL.off ≠ PHY c + PHY_PAUSE_CYC_COUNT.off := by
    simp only [CH, PHY, CH_INTSTAT_REPLAY_FAIL]
    omega
  unfold Machine.pausePay
  extract_lets b b' x
  have counted : LossKnown c n x := (hs.updChan c fun _ => by exact ⟨rfl, rfl⟩).fset apart _
  exact onlyIf_keeps_prop _ _ counted.parts counted.parts

theorem LossKnown.cutPause (hs : LossKnown c n s) : LossKnown c n (cutPause c s) := by
  unfold Machine.cutPause
  split
  · exact hs.pausePay _
  · exact hs

theorem LossKnown.phyPay (hs : LossKnown c n s) (len : Nat) : LossKnown c n (phyPay c len s) :=
  (hs.fset (off_ne (CH c) (by decide : CH_INTSTAT_REPLAY_FAIL.off ≠ CH_BGLINE_COUNT.off)) _).updChan c fun _ => ⟨rfl, rfl⟩

theorem LossKnown.fset_BST (hs : LossKnown c n s) (f : Fld) (v : Nat) : LossKnown c n (Machine.fset BST f v s) := by
  refine hs.fset ?_ v
  simp only [CH, BST, CH_INTSTAT_REPLAY_FAIL]
  omega

theorem LossKnown.stopPhy (hs : LossKnown c n s) : LossKnown c n (stopPhy c s) := by
  unfold Machine.stopPhy
  split
  · exact hs
  · have next_known : LossKnown c n (phyNext c s) := hs.parts
    exact (((next_known.fset_BST BST_STATUS_CH_RUN _).fset_BST BST_STOP_COUNT _).phyPay _).updChan c fun _ => ⟨rfl, rfl⟩

theorem LossKnown.clearChan (hs : LossKnown c n s) : LossKnown c n (clearChan c s) := by
  have block : ∀ {f : Fld}, CH_INTSTAT_REPLAY_FAIL.off ≠ f.off → CH c + CH_INTSTAT_REPLAY_FAIL.off ≠ CH c + f.off := off_ne _
  unfold Machine.clearChan clearWork
  extract_lets ended emptied phy
  have ended_known : LossKnown c n ended := forAll_keeps_prop _ _ hs.cutPause.stopPhy.endInord fun r x hx => hx.fset (block (by decide)) _
  have emptied_known : LossKnown c n emptied := ended_known.updChan c fun _ => ⟨rfl, rfl⟩
  exact ((emptied_known.parts.fset (block (by decide)) 0).fillStat c).parts

theorem LossKnown.wayStat (hs : LossKnown c n s) : LossKnown c n (wayStat s) := by
  have way : ∀ f : Fld, f.off < 0x1000 → CH c + CH_INTSTAT_REPLAY_FAIL.off ≠ WAY + f.off := fun f small => CH_ne_low c _ (by unfold WAY; omega)
  unfold Machine.wayStat
  extract_lets cnt u
  exact ((hs.fset (way WAY_STATUS_WT_FULL (by decide)) _).fset (way WAY_WT_USE (by decide)) u).fset (way WAY_DIRTY_SUM (by decide)) _

theorem LossKnown.setFrame (hs : LossKnown c n s) (pin : Bool) (f : Nat) (x : Frame) : LossKnown c n (setFrame pin f x s) := by
  unfold Machine.setFrame
  split <;> exact hs.parts

theorem LossKnown.dropSlice (hs : LossKnown c n s) : LossKnown c n (dropSlice c s) := by
  unfold Machine.dropSlice
  split
  · exact hs
  next x _ =>
    have dropped : LossKnown c n (dropBist true c s) := hs.updChan c fun _ => ⟨rfl, rfl⟩
    have freed : LossKnown c n (forAll x.frames (fun f s => Machine.setFrame false f {} s) (dropBist true c s)) := forAll_keeps_prop _ _ dropped fun f y hy => hy.setFrame false f {}
    exact (freed.parts.wayStat).fset_BST BST_STATUS_CH_RUN _

theorem LossKnown.loseSlice (hs : LossKnown c n s) : LossKnown c n (loseSlice c s) := by
  unfold Machine.loseSlice
  split
  · exact hs
  · exact LossKnown.dropSlice (onlyIf_keeps_prop _ _ hs (hs.fset_BST BST_STOP_COUNT _))

/-- Nothing else writes these parts of a channel's record. -/
theorem NoCommands.of_chan {t : State} (hs : NoCommands c s) (same : (t.chan c).replay = (s.chan c).replay ∧ (t.chan c).line = (s.chan c).line ∧ (t.chan c).flight = (s.chan c).flight) : NoCommands c t := by
  obtain ⟨replay, line, flight⟩ := same
  unfold NoCommands
  rwa [replay, line, flight]

theorem NoCommands.of_chans {t : State} (hs : NoCommands c s) (same : t.chans = s.chans) : NoCommands c t := by
  unfold NoCommands
  rwa [chan_congr same]

theorem noCommands_updChan {f : ChanState → ChanState} (none : ∀ y, (f y).replay = none ∧ (f y).line = [] ∧ (f y).flight = []) : NoCommands c (Machine.updChan c f s) := by
  unfold NoCommands
  rw [updChan_chan]
  exact none _

theorem NoCommands.fillStat (hs : NoCommands c s) (k : Fin 16) : NoCommands c (fillStat k s) := by
  unfold Machine.fillStat fmax
  extract_lets m
  exact ite_keeps (fun _ => hs) fun _ => hs

theorem noCommands_clearChan (c : Fin 16) (s : State) : NoCommands c (clearChan c s) := by
  unfold clearChan clearWork
  extract_lets ended emptied phy
  have emptied_none : NoCommands c emptied := noCommands_updChan fun _ => ⟨rfl, rfl, rfl⟩
  have phy_none : NoCommands c phy := emptied_none.of_chans (updPhy_chans _ _ _)
  exact ((phy_none.of_chans (fset_chans _ _ _ _)).fillStat c).of_chans (updPhy_chans _ _ _)

/-- The end of a slice withdraws its requests alone from the record of a channel. -/
theorem NoCommands.dropSlice (hs : NoCommands c s) : NoCommands c (dropSlice c s) := by
  unfold Machine.dropSlice
  split
  · exact hs
  next x _ =>
    have dropped : NoCommands c (dropBist true c s) := hs.of_chan (by simp [dropBist])
    have freed : NoCommands c (forAll x.frames (fun f s => Machine.setFrame false f {} s) (dropBist true c s)) := forAll_keeps_prop _ _ dropped fun f y hy => hy
    exact freed

theorem NoCommands.loseSlice (hs : NoCommands c s) : NoCommands c (loseSlice c s) := by
  unfold Machine.loseSlice
  split
  · exact hs
  next x _ =>
    have counted : NoCommands c (fbump BST BST_STOP_COUNT s) := hs
    exact NoCommands.dropSlice (onlyIf_keeps_prop _ _ hs counted)

/-- The record of the loss, before the channel is cleared. -/
theorem lossKnown_recorded (fail : fbit s (CH c) CH_INTSTAT_REPLAY_FAIL = true) (quiet : settled s) : LossKnown c s.d8 (lossRecorded c s) := by
  unfold lossRecorded
  extract_lets both x
  have x_known : LossKnown c s.d8 x := ⟨fail, by simp [x], by simp [x], rfl, quiet⟩
  exact ite_keeps (fun _ => x_known.updChan _ fun y => by split <;> exact ⟨rfl, rfl⟩) fun _ => x_known

theorem replayFailed_cleared (fail : fbit s (CH c) CH_INTSTAT_REPLAY_FAIL = true) (quiet : settled s) : ReplayFailed c s.d8 (lossCleared c 6 s) := by
  have recorded : LossKnown c s.d8 (leaveCycle [(1, c.val), (2, c.val), (3, c.val)] (lossRecorded c s)) := (lossKnown_recorded fail quiet).parts
  unfold lossCleared setChState
  refine ⟨recorded.clearChan.loseSlice.fset (off_ne (CH c) (by decide)) 6, (noCommands_clearChan c _).loseSlice.of_chans (fset_chans _ _ _ _), ?_⟩
  exact fget_fset _ _ _ _ (by decide)

end

/-- A register that work for requests may write is none of a channel's own beside its fill. -/
theorem RequestReg.ne {a : Nat} (ha : RequestReg a) (c : Fin 16) {i : Nat} (small : i < 0x10000) (ne : i ≠ CH_FILL_FILL.off) : CH c + i ≠ a := by
  rcases ha with low | journal | ⟨k, rfl⟩
  · exact CH_ne_low c i low
  · simp only [CH, JRN] at *
    omega
  · simp only [CH, CH_FILL_FILL] at *
    omega

theorem fget_CH_besideRequests (c : Fin 16) {f : Fld} (small : f.off < 0x10000) (ne : f.off ≠ CH_FILL_FILL.off) (a : Nat) (w : Word) (s : State) (ha : RequestReg a) :
    fget (rgSet a w s) (CH c) f = fget s (CH c) f := congrArg f.get (rg_rgSet_ne _ _ _ _ (ha.ne c small ne))

/-- What a failed replay leaves outlasts the end of the channel's requests. -/
theorem replayFailed_besideRequests (c : Fin 16) (n : Nat) : BesideRequests (ReplayFailed c n) where
  reg a w s ha := by
    unfold ReplayFailed LossKnown chState fbit
    rw [fget_CH_besideRequests c (by decide) (by decide) a w s ha, fget_CH_besideRequests c (by decide) (by decide) a w s ha]
    rfl
  parts _ _ _ _ _ _ _ _ _ _ _ _ _ := rfl
  chans s l begun hs := by
    obtain ⟨⟨fail, lost, psn, d8, quiet⟩, ⟨replay, line, flight⟩, state⟩ := hs
    have own := begun c
    exact ⟨⟨fail, own.lost.trans lost, own.psnAll.trans psn, d8, quiet⟩, ⟨own.replay.trans replay, own.line line, own.flight flight⟩, state⟩
  strm p k r s waits hs := by
    obtain ⟨⟨fail, lost, psn, d8, quiet⟩, rest⟩ := hs
    exact ⟨⟨fail, lost, psn, d8, settled_setStrm quiet p k (waits.trans (strm_waiting quiet p k))⟩, rest⟩
  caravans f s hs := by
    obtain ⟨⟨fail, lost, psn, d8, caravans, waiting⟩, rest⟩ := hs
    exact ⟨⟨fail, lost, psn, d8, congrArg (List.map f) caravans, waiting⟩, rest⟩

/-- An event writes its own cause of GLB_IRQ_STAT and the console's counts of lost events alone (16 R477). -/
theorem fget_irq_emit {f : Fld} (same : f.off = GLB_IRQ_STAT_EVENT.off) (apart : 1 ≤ f.lsb) (k : String) (x : List (String × FVal)) (s : State) : fget (emit k x s) GLB f = fget s GLB f := by
  have ne : ∀ g : Fld, GLB + f.off ≠ CON + g.off := fun g => by
    simp only [same, GLB, CON, GLB_IRQ_STAT_EVENT]
    omega
  unfold emit
  split
  · exact fget_fset_apart GLB (.inr ⟨same, by decide, .inr apart⟩) _ _
  · exact (fget_fset_ne _ _ _ _ _ _ (ne _)).trans (fget_fset_ne _ _ _ _ _ _ (ne _))

theorem channelLost_irq (c : Fin 16) (cause : String) (st : Nat) (s : State) : fbit (channelLost c cause st s) GLB GLB_IRQ_STAT_CH_LOST = true := by
  have event := fget_irq_emit (f := GLB_IRQ_STAT_CH_LOST) rfl (by decide)
  obtain ⟨u, x, -, e⟩ := channelLost_requests (P := fun _ => True) ⟨fun _ _ _ _ => rfl, fun _ _ _ _ _ _ _ _ _ _ _ _ _ => rfl, fun _ _ _ _ => trivial, fun _ _ _ _ _ _ => trivial, fun _ _ _ => trivial⟩
    (c := c) (cause := cause) (st := st) (s := s) trivial
  have raised : fbit (irq GLB_IRQ_STAT_CH_LOST u) GLB GLB_IRQ_STAT_CH_LOST = true := fbit_fset_one _ _ _ (by decide) (by decide)
  rw [e]
  unfold fbit at raised ⊢
  rw [horizonCheck_inv (fget · GLB GLB_IRQ_STAT_CH_LOST) (fun _ _ => rfl) (fun _ _ => fget_fset_ne _ _ _ _ _ _ (by decide)) event, event]
  exact raised

theorem channelLost_replayFailed {c : Fin 16} {s : State} (cause : String) (fail : fbit s (CH c) CH_INTSTAT_REPLAY_FAIL = true) (quiet : settled s) :
    ReplayFailed c s.d8 (channelLost c cause 6 s) := by
  have beside := replayFailed_besideRequests c s.d8
  obtain ⟨u, x, hu, e⟩ := channelLost_requests beside (cause := cause) (replayFailed_cleared fail quiet)
  rw [e, horizonCheck_requests beside, emit_requests beside]
  exact (fset_requests beside (.inl (by decide)) _ _).mpr hu

/-- A replay that is abandoned loses the channel (10 R312). -/
theorem replayFail_failed {c : Fin 16} {s : State} (quiet : settled s) : ReplayFailed c s.d8 (replayFail c s) :=
  channelLost_replayFailed "replay" (s := logFree c 8 0 (fset (CH c) CH_INTSTAT_REPLAY_FAIL 1 s)) (fbit_fset_one _ _ _ (by decide) (by decide)) quiet

end Sys2Proof.Proofs

/-! PROOF. Alerts and replay of a channel, its refresh and its temperature polls (10 R309 to R317). -/

namespace Sys2Proof.Proofs
open Sys2Proof Sys2Proof.Machine Sys2Proof.Laws

/-! ### The timing of a channel -/

/-- A view of a channel's record that shows nothing of its timing: neither its DRAM commands, its ranks' power-down, its counts of activations nor the instants that hold its issue. -/
abbrev BesideTiming {β : Type} (g : ChanState → β) : Prop :=
  ∀ (y : ChanState) hist rankUsed8 pd idleFrom8 raa caAt8 stopTo8,
    g { y with hist := hist, rankUsed8 := rankUsed8, pd := pd, idleFrom8 := idleFrom8, raa := raa, caAt8 := caAt8, stopTo8 := stopTo8 } = g y

/-- A channel's record with the rows closed that a condition on their banks picks. -/
def rowsClosed (p : Nat → Bool) (y : ChanState) : ChanState := { y with rows := y.rows.filter fun x => !p x.1 }

theorem rowsClosed_none {p : Nat → Bool} {y : ChanState} (none : (y.rows.filter fun x => p x.1) = []) : rowsClosed p y = y := by
  have all : (y.rows.filter fun x => !p x.1) = y.rows := List.filter_eq_self.mpr fun x m => by simpa using List.filter_eq_nil_iff.mp none x m
  rw [rowsClosed, all]

/-- A rank takes its refreshes: column issue has stopped, and its banks are precharged (10 R315). -/
def rankReady (c : Fin 16) (r : Fin 2) (s : State) : State :=
  let x := closeBanks c (fun b => b / 32 = r.val) (exitPd c r (entryStop c s))
  advanceTo8 (refAt8 x c r.val) x

/-- `n` intervals' REFsb go to a rank that takes them (10 R315). -/
def rankRefreshed (c : Fin 16) (r : Fin 2) (n : Nat) (s : State) : State :=
  let last := s.d8 + (n - 1) * ck8 s c (fget s (CH c) CH_TIM5_TRFCSB)
  let counted := charge 0x05 (4 * n) none (fbumpN (CH c) CH_REFSB_COUNT (4 * n) s)
  let lowered := mapRaa c (fun b => b / 32 = r.val) (fun v => v - n * fget counted (CH c) CH_RAA_REFDEC) counted
  stopUntil c (last + ck8 lowered c (fget lowered (CH c) CH_TIM5_TRFCSB)) (useCa c (forAll (List.range 4) (fun bk s => pushHist c .ref r.val 0 bk last s) lowered))

theorem refreshRank_eq (c : Fin 16) (r : Fin 2) (n : Nat) (s : State) : refreshRank c r n s = rankRefreshed c r n (rankReady c r s) := rfl

section
variable {β : Type} {g : ChanState → β} (h : BesideTiming g) (c : Fin 16)
include h

theorem besideTiming_rowsClosed (p : Nat → Bool) : BesideTiming fun y => g (rowsClosed p y) := fun y => h (rowsClosed p y)

theorem pushHist_chan (k : DKind) (r bg bk at8 : Nat) (s : State) : g ((pushHist c k r bg bk at8 s).chan c) = g (s.chan c) := by
  unfold pushHist
  rw [updChan_chan]
  exact h (s.chan c) _ _ (s.chan c).pd (s.chan c).idleFrom8 (s.chan c).raa (s.chan c).caAt8 (s.chan c).stopTo8

theorem stopIdle_chan (s : State) : g ((stopIdle c s).chan c) = g (s.chan c) := by
  unfold stopIdle
  split
  · rfl
  · rw [updChan_chan]
    exact h (s.chan c) (s.chan c).hist (s.chan c).rankUsed8 (s.chan c).pd _ (s.chan c).raa (s.chan c).caAt8 (s.chan c).stopTo8

theorem entryStop_chan (s : State) : g ((entryStop c s).chan c) = g (s.chan c) := stopIdle_chan h c _

theorem exitPd_chan (r : Fin 2) (s : State) : g ((exitPd c r s).chan c) = g (s.chan c) := by
  unfold exitPd
  split
  · extract_lets at8 x y
    rw [pushHist_chan h, updChan_chan]
    exact h (s.chan c) (s.chan c).hist _ _ (s.chan c).idleFrom8 (s.chan c).raa (s.chan c).caAt8 (s.chan c).stopTo8
  · rfl

theorem useCa_chan (s : State) : g ((useCa c s).chan c) = g (s.chan c) := by
  unfold useCa
  rw [updChan_chan]
  exact h (s.chan c) (s.chan c).hist (s.chan c).rankUsed8 (s.chan c).pd (s.chan c).idleFrom8 (s.chan c).raa _ (s.chan c).stopTo8

theorem mapRaa_chan (p : Nat → Bool) (f : Nat → Nat) (s : State) : g ((mapRaa c p f s).chan c) = g (s.chan c) := by
  unfold mapRaa
  rw [updChan_chan]
  exact h (s.chan c) (s.chan c).hist (s.chan c).rankUsed8 (s.chan c).pd (s.chan c).idleFrom8 _ (s.chan c).caAt8 (s.chan c).stopTo8

theorem stopUntil_chan (t8 : Nat) (s : State) : g ((stopUntil c t8 s).chan c) = g (s.chan c) := by
  unfold stopUntil
  rw [updChan_chan]
  exact h (s.chan c) (s.chan c).hist (s.chan c).rankUsed8 (s.chan c).pd _ (s.chan c).raa (s.chan c).caAt8 _

theorem closeBanks_chan (p : Nat → Bool) (s : State) : g ((closeBanks c p s).chan c) = g (rowsClosed p (s.chan c)) := by
  unfold closeBanks
  extract_lets l x
  split
  next none => rw [rowsClosed_none (List.isEmpty_iff.mp none)]
  next =>
    rw [forAll_inv (fun s => g (s.chan c)) _ _ _ fun b z => pushHist_chan h c _ _ _ _ _ z, updChan_chan]
    rfl

theorem rankReady_chan (r : Fin 2) (s : State) : g ((rankReady c r s).chan c) = g (rowsClosed (fun b => b / 32 = r.val) (s.chan c)) := by
  have closed := besideTiming_rowsClosed h fun b => b / 32 = r.val
  unfold rankReady
  extract_lets x
  rw [chan_congr (advanceTo8_chans _ x), closeBanks_chan h]
  exact (exitPd_chan closed c r _).trans (entryStop_chan closed c s)

theorem rankRefreshed_chan (r : Fin 2) (n : Nat) (s : State) : g ((rankRefreshed c r n s).chan c) = g (s.chan c) := by
  unfold rankRefreshed
  extract_lets last counted lowered
  rw [stopUntil_chan h, useCa_chan h, forAll_inv (fun s => g (s.chan c)) _ _ _ fun bk z => pushHist_chan h c _ _ _ _ _ z, mapRaa_chan h]
  rfl

/-- The refreshes of a rank close its rows and change its timing alone. -/
theorem refreshRank_chan (r : Fin 2) (n : Nat) (s : State) : g ((refreshRank c r n s).chan c) = g (rowsClosed (fun b => b / 32 = r.val) (s.chan c)) := by
  rw [refreshRank_eq, rankRefreshed_chan h]
  exact rankReady_chan h c r s

end

/-! ### Registers of a channel -/

/-- A field beside those that a channel's waits, its exits from power-down and its state keep. -/
abbrev Untimed (f : Fld) : Prop := Apart f CH_IDLEBUS_COUNT ∧ Apart f CH_PDCYC_COUNT ∧ Apart f CH_STATUS_RANK_PD

section
variable (c : Fin 16) {f : Fld} (s : State)

theorem fget_stopIdle (apart : Apart f CH_IDLEBUS_COUNT) : fget (stopIdle c s) (CH c) f = fget s (CH c) f := by
  unfold stopIdle
  split
  · rfl
  · exact fget_fset_apart _ apart _ _

theorem fget_entryStop (apart : Apart f CH_IDLEBUS_COUNT) : fget (entryStop c s) (CH c) f = fget s (CH c) f := (fget_stopIdle c _ apart).trans (fget_advanceTo8 _ _ _ _)

theorem fget_exitPd (r : Fin 2) (untimed : Untimed f) : fget (exitPd c r s) (CH c) f = fget s (CH c) f := by
  obtain ⟨-, cycles, state⟩ := untimed
  unfold exitPd
  split
  · exact (fget_fset_apart (CH c) state _ _).trans (fget_fset_apart (CH c) cycles _ _)
  · rfl

theorem closeBanks_regs (p : Nat → Bool) : (closeBanks c p s).regs = s.regs := by
  unfold closeBanks
  extract_lets l x
  split
  · rfl
  · refine (forAll_inv (·.regs) l _ _ fun b z => ?_).trans (updChan_regs _ _ _)
    exact updChan_regs _ _ _

theorem fget_rankReady (r : Fin 2) (untimed : Untimed f) : fget (rankReady c r s) (CH c) f = fget s (CH c) f := by
  unfold rankReady
  extract_lets x
  rw [fget_advanceTo8, fget_congr (closeBanks_regs c _ _), fget_exitPd c _ r untimed, fget_entryStop c s untimed.1]

theorem fget_pushHist (b : Nat) (k : DKind) (r bg bk at8 : Nat) : fget (pushHist c k r bg bk at8 s) b f = fget s b f := fget_congr (updChan_regs _ _ _) _ _

theorem fget_rankRefreshed_count (r : Fin 2) (n : Nat) : fget (rankRefreshed c r n s) (CH c) CH_REFSB_COUNT = min (fget s (CH c) CH_REFSB_COUNT + 4 * n) (2 ^ 32 - 1) := by
  unfold rankRefreshed stopUntil useCa
  extract_lets last counted lowered
  rw [fget_congr (updChan_regs _ _ _), fget_congr (updChan_regs _ _ _), forAll_inv (fget · (CH c) CH_REFSB_COUNT) _ _ _ fun bk z => fget_pushHist c z _ _ _ _ _ _]
  exact fget_fbumpN _ _ _ _ (by decide)

theorem fget_refreshRank_count (r : Fin 2) (n : Nat) : fget (refreshRank c r n s) (CH c) CH_REFSB_COUNT = min (fget s (CH c) CH_REFSB_COUNT + 4 * n) (2 ^ 32 - 1) := by
  rw [refreshRank_eq, fget_rankRefreshed_count, fget_rankReady c s r (by decide)]

end

/-! ### ETA -/

theorem deferAll_answers {β : Type} {g : State → β} (h : BesideAnswers g) (c : Fin 16) (s : State) : g (deferAll c s) = g s :=
  forAll_inv g _ _ s fun r _ => forAll_inv g _ _ _ fun _ x => deferEval_answers h r _ x

theorem deferAll_chan (c k : Fin 16) (s : State) : (deferAll c s).chan k = s.chan k :=
  chan_congr (deferAll_answers (g := (·.chans)) ⟨fun _ _ _ _ => rfl, fun _ _ _ _ _ _ _ _ => rfl⟩ c s) k

theorem fget_deferAll (c k : Fin 16) {f : Fld} (small : f.off < 0x10000) (ne : f.off ≠ CH_FILL_FILL.off) (s : State) : fget (deferAll c s) (CH k) f = fget s (CH k) f := by
  have beside : BesideRequests (fun t => fget t (CH k) f = fget s (CH k) f) :=
    ⟨fun a w t ha => by rw [fget_CH_besideRequests k small ne a w t ha], fun _ _ _ _ _ _ _ _ _ _ _ _ _ => rfl, fun _ _ _ => id, fun _ _ _ _ _ => id, fun _ _ => id⟩
  exact (deferAll_requests beside c s).mpr rfl

/-! ### Refresh -/

theorem le_firstCycle8 (s : State) (t8 : Nat) : t8 ≤ firstCycle8 s t8 := (le_max_right _ _).trans (advanceTo8_d8 t8 s).1

/-- A rank's refresh is due: its interval has ended, and the next one begins at the due instant (10 R315). -/
def intervalBegun (c : Fin 16) (r : Fin 2) (s : State) : State :=
  let x := advanceTo8 (s.chan c).refAt8[r] s
  updChan c (fun y => { y with refAt8 := y.refAt8.set r (max x.d8 y.refAt8[r] + refInterval8 x c) }) x

theorem intervalBegun_chan (c : Fin 16) (r : Fin 2) (s : State) :
    (intervalBegun c r s).chan c = { s.chan c with refAt8 := (s.chan c).refAt8.set r (firstCycle8 s (s.chan c).refAt8[r] + refInterval8 s c) } := by
  have reached : max (advanceTo8 (s.chan c).refAt8[r] s).d8 (s.chan c).refAt8[r] = firstCycle8 s (s.chan c).refAt8[r] := max_eq_left (le_firstCycle8 s _)
  unfold intervalBegun
  extract_lets x
  rw [updChan_chan, chan_congr (advanceTo8_chans _ _), reached]
  rfl

/-- The refreshes of a rank that are due, with those that it owes, have been made (10 R315). -/
def refreshTaken (c : Fin 16) (r : Fin 2) (s : State) : State :=
  refreshRank c r ((s.chan c).refDebt[r] + 1) (updChan c (fun y => { y with refDebt := y.refDebt.set r 0 }) (intervalBegun c r s))

/-- A replay, a pause or a slice of self-test holds a channel's refreshes and polls. -/
def held (c : Fin 16) (s : State) : Prop := (s.chan c).replay.isSome = true ∨ (s.phy c).active.isSome = true ∨ (s.bist.phyRun[c]).isSome = true

section
variable {c : Fin 16} {r : Fin 2} {s : State}

theorem exec_refreshDue_off (off : chanRuns s c = false ∨ geoRanks s ≤ r.val) : exec (.refreshDue c r) s = .next s :=
  congrArg Host.Outcome.next (if_pos (by simpa using off))

theorem refreshDue_taken (run : chanRuns s c = true) (rank : r.val < geoRanks s) (replay : (s.chan c).replay = none) (pause : (s.phy c).active = none) (slice : s.bist.phyRun[c] = none) :
    refreshDue c r s = deferAll c (refreshTaken c r s) := by
  have chan := intervalBegun_chan c r s
  have replay_none : ((intervalBegun c r s).chan c).replay = none := by rw [chan]; exact replay
  have debt : ((intervalBegun c r s).chan c).refDebt = (s.chan c).refDebt := by rw [chan]
  have free : ((((intervalBegun c r s).chan c).replay.isSome || ((intervalBegun c r s).phy c).active.isSome || ((intervalBegun c r s).bist.phyRun[c]).isSome)
      && decide (((intervalBegun c r s).chan c).refDebt[r] < 4)) = false := by
    have pause_none : ((intervalBegun c r s).phy c).active = none := pause
    have slice_none : (intervalBegun c r s).bist.phyRun[c] = none := slice
    rw [replay_none, pause_none, slice_none]
    rfl
  unfold refreshDue
  rw [if_neg (by simp [run, rank])]
  refine (if_neg (Bool.eq_false_iff.mp free)).trans ?_
  unfold refreshTaken
  rw [← debt]
  rfl

theorem refreshDue_owed (run : chanRuns s c = true) (rank : r.val < geoRanks s) (busy : held c s) (few : (s.chan c).refDebt[r] < 4) :
    refreshDue c r s = updChan c (fun y => { y with refDebt := y.refDebt.set r ((s.chan c).refDebt[r] + 1) }) (intervalBegun c r s) := by
  have chan := intervalBegun_chan c r s
  have debt : ((intervalBegun c r s).chan c).refDebt = (s.chan c).refDebt := by rw [chan]
  have waits : ((((intervalBegun c r s).chan c).replay.isSome || ((intervalBegun c r s).phy c).active.isSome || ((intervalBegun c r s).bist.phyRun[c]).isSome)
      && decide (((intervalBegun c r s).chan c).refDebt[r] < 4)) = true := by
    have busy_still : ((intervalBegun c r s).chan c).replay.isSome = true ∨ ((intervalBegun c r s).phy c).active.isSome = true ∨ ((intervalBegun c r s).bist.phyRun[c]).isSome = true := by
      rw [chan]
      exact busy
    rw [debt, decide_eq_true few, Bool.and_true, Bool.or_eq_true, Bool.or_eq_true]
    exact or_assoc.mpr busy_still
  unfold refreshDue
  rw [if_neg (by simp [run, rank])]
  refine (if_pos waits).trans ?_
  rw [← debt]
  rfl

theorem refreshTaken_chan {β : Type} {g : ChanState → β} (h : BesideTiming g) (c : Fin 16) (r : Fin 2) (s : State) :
    g ((refreshTaken c r s).chan c) = g (rowsClosed (fun b => b / 32 = r.val) { s.chan c with
      refAt8 := (s.chan c).refAt8.set r (firstCycle8 s (s.chan c).refAt8[r] + refInterval8 s c), refDebt := (s.chan c).refDebt.set r 0 }) := by
  unfold refreshTaken
  rw [refreshRank_chan h, updChan_chan, intervalBegun_chan]

end

end Sys2Proof.Proofs

/-! PROOF. A CHn_ALERT_N that is low, its hold, and a replay that runs out (10 R309 to R313). -/

namespace Sys2Proof.Proofs
open Sys2Proof Sys2Proof.Machine Sys2Proof.Laws

/-! ### A new attempt -/

/-- What an alert shows to the rest of the part beside the channels: the PHYs and the caravans. -/
def aside (s : State) := (s.phys, s.caravans)

theorem settled_of_aside {s t : State} (quiet : settled s) (caravans : (aside t).2 = (aside s).2) (streams : keptStore s .streams t) : settled t := settled_congr quiet caravans streams

theorem stopIdle_aside (c : Fin 16) (s : State) : aside (stopIdle c s) = aside s := by
  unfold stopIdle
  split <;> rfl

theorem closeBanks_aside (c : Fin 16) (p : Nat → Bool) (s : State) : aside (closeBanks c p s) = aside s := by
  unfold closeBanks
  extract_lets l x
  split
  · rfl
  · exact forAll_inv aside l _ _ fun b z => rfl

theorem deferAll_aside (c : Fin 16) (s : State) : aside (deferAll c s) = aside s := deferAll_answers ⟨fun _ _ _ _ => rfl, fun _ _ _ _ _ _ _ _ => rfl⟩ c s

/-- A command of the retry buffer is to be issued again (10 R311). -/
def dueAgain (f : Flight) : Flight := if f.window then { f with due := true, cmd := { f.cmd with act := false } } else f

/-- Every bank of every rank is precharged (10 R311). -/
def ranksPrecharged (c : Fin 16) (s : State) : State :=
  forAll (List.range (geoRanks s)) (fun r s => forAll (List.range 32) (fun k s => pushHist c .pre r (k / 4) (k % 4) s.d8 s) s) (updChan c (fun y => { y with rows := [] }) s)

/-- A channel's record with an attempt of a replay begun. -/
def attemptOn (attempt since : Nat) (y : ChanState) : ChanState := { y with rows := [], replay := some ⟨since, attempt⟩, flight := y.flight.map dueAgain }

/-- The banks are precharged and the attempt has begun, whether it leaves anything to issue or not. -/
def attemptBegun (c : Fin 16) (attempt since : Nat) (s : State) : State :=
  useCa c (updChan c (fun y => { y with replay := some ⟨since, attempt⟩, flight := y.flight.map dueAgain })
    (ranksPrecharged c (closeBanks c (fun _ => true) (fbump (CH c) CH_REPLAY_ATT_COUNT s))))

theorem dueAgain_window (f : Flight) : (dueAgain f).window = f.window := by
  unfold dueAgain
  split <;> rfl

section
variable (c : Fin 16) (s : State)

theorem ranksPrecharged_chan {β : Type} {g : ChanState → β} (h : BesideTiming g) : g ((ranksPrecharged c s).chan c) = g { s.chan c with rows := [] } := by
  unfold ranksPrecharged
  rw [forAll_inv (fun s => g (s.chan c)) _ _ _ fun r z => forAll_inv (fun s => g (s.chan c)) _ _ z fun k w => pushHist_chan h c _ _ _ _ _ w, updChan_chan]

theorem ranksPrecharged_regs : (ranksPrecharged c s).regs = s.regs := by
  unfold ranksPrecharged
  refine (forAll_inv (·.regs) _ _ _ fun r z => forAll_inv (·.regs) _ _ z fun k w => ?_).trans (updChan_regs _ _ _)
  exact updChan_regs _ _ _

theorem ranksPrecharged_aside : aside (ranksPrecharged c s) = aside s := by
  unfold ranksPrecharged
  exact forAll_inv aside _ _ _ fun r z => forAll_inv aside _ _ z fun k w => rfl

variable (attempt since : Nat)

/-- An attempt changes the rows, the replay, the retry buffer and the timing of its channel alone. -/
theorem attemptBegun_chan {β : Type} {g : ChanState → β} (h : BesideTiming g) : g ((attemptBegun c attempt since s).chan c) = g (attemptOn attempt since (s.chan c)) := by
  have attempted : BesideTiming fun y => g { y with replay := some ⟨since, attempt⟩, flight := y.flight.map dueAgain } :=
    fun y => h { y with replay := some ⟨since, attempt⟩, flight := y.flight.map dueAgain }
  have emptied : BesideTiming fun y => g (attemptOn attempt since y) := fun y => h (attemptOn attempt since y)
  unfold attemptBegun
  rw [useCa_chan h, updChan_chan]
  exact (ranksPrecharged_chan c _ attempted).trans (closeBanks_chan emptied c _ _)

theorem attemptBegun_regs : (attemptBegun c attempt since s).regs = (fbump (CH c) CH_REPLAY_ATT_COUNT s).regs := by
  unfold attemptBegun useCa
  rw [updChan_regs, updChan_regs, ranksPrecharged_regs, closeBanks_regs]

theorem attemptBegun_aside : aside (attemptBegun c attempt since s) = aside s := by
  unfold attemptBegun
  exact (ranksPrecharged_aside c _).trans (closeBanks_aside c _ _)

variable {c s} in
/-- With a command in its window there is something to issue again. -/
theorem reissue_of_window (some_window : ((s.chan c).flight.filter Flight.window) ≠ []) : reissue c attempt since s = attemptBegun c attempt since s := by
  have flight : ((attemptBegun c attempt since s).chan c).flight = (s.chan c).flight.map dueAgain := attemptBegun_chan c s attempt since (g := (·.flight)) fun _ _ _ _ _ _ _ _ => rfl
  have busy : ((attemptBegun c attempt since s).chan c).flight.any Flight.window = true := by
    obtain ⟨f, mem⟩ := List.exists_mem_of_ne_nil _ some_window
    obtain ⟨mem, window⟩ := List.mem_filter.mp mem
    rw [flight, List.any_eq_true]
    exact ⟨dueAgain f, List.mem_map_of_mem mem, (dueAgain_window f).trans window⟩
  exact if_pos busy

end

/-! ### The alert -/

/-- CHn_ALERT_N is held low (10 R311). -/
def alertHeld (c : Fin 16) (s : State) : State := updPhy c (fun y => { y with alertLow := true }) s

/-- An alert is counted and recorded by its kind, and joins the fault log (10 R313). -/
def alertLogged (c : Fin 16) (crc : Bool) (s : State) : State :=
  logFree c (if crc then 7 else 6) 0 (if crc then fset (CH c) CH_INTSTAT_ALERT_CRC 1 (fbump (CH c) CH_ALERT_CRC_COUNT s)
    else fset (CH c) CH_INTSTAT_ALERT_CA 1 (fbump (CH c) CH_ALERT_CA_COUNT s))

/-- An alert that is logged begins an attempt, or ends the replay that has had four (10 R311, R312). -/
def alertServed (c : Fin 16) (s : State) : State :=
  match (s.chan c).replay with
  | none => deferAll c (reissue c 1 s.ns (stopIdle c s))
  | some r => if 4 ≤ r.attempt then replayFail c s else reissue c (r.attempt + 1) r.since s

/-- What an alert has done before the commands are issued again: the idle time before it is counted too. -/
def alertSeen (c : Fin 16) (s : State) : State := stopIdle c (alertLogged c (crcAlert (alertHeld c s) c) (alertHeld c s))

section
variable {c : Fin 16} {s : State}

theorem logFree_chan (kind dev : Nat) : ∃ l n, (logFree c kind dev s).chan c = { s.chan c with flog := l, flogHead := n } := by
  unfold logFree takeFree logFault
  rw [updChan_chan]
  exact ⟨_, _, rfl⟩

theorem alertLogged_chan (crc : Bool) : ∃ l n, (alertLogged c crc s).chan c = { s.chan c with flog := l, flogHead := n } := by
  unfold alertLogged
  cases crc <;> exact logFree_chan _ _

theorem alertLogged_aside (crc : Bool) : aside (alertLogged c crc s) = aside s := by
  cases crc <;> rfl

theorem alertLogged_attempts (crc : Bool) : fget (alertLogged c crc s) (CH c) CH_REPLAY_ATT_COUNT = fget s (CH c) CH_REPLAY_ATT_COUNT := by
  cases crc
  · exact (fget_fset_ne _ _ _ _ _ _ (off_ne _ (by decide))).trans (fget_fset_ne _ _ _ _ _ _ (off_ne _ (by decide)))
  · exact (fget_fset_ne _ _ _ _ _ _ (off_ne _ (by decide))).trans (fget_fset_ne _ _ _ _ _ _ (off_ne _ (by decide)))

theorem alertLogged_crc : fbit (alertLogged c true s) (CH c) CH_INTSTAT_ALERT_CRC = true := fbit_fset_one _ _ (fbump (CH c) CH_ALERT_CRC_COUNT s) (by decide) (by decide)

theorem alertLogged_ca : fbit (alertLogged c false s) (CH c) CH_INTSTAT_ALERT_CA = true := fbit_fset_one _ _ (fbump (CH c) CH_ALERT_CA_COUNT s) (by decide) (by decide)

theorem alertLogged_keeps {P : State → Prop} (hP : Closed P) (crc : Bool) (hs : P s) : P (alertLogged c crc s) := by
  unfold alertLogged
  exact logFree_keeps hP _ _ _ _ (ite_keeps (fun _ => fset_keeps hP _ _ _ _ (fbump_keeps hP _ _ _ hs)) fun _ => fset_keeps hP _ _ _ _ (fbump_keeps hP _ _ _ hs))

theorem alertLogged_ns (crc : Bool) : (alertLogged c crc s).ns = s.ns := by
  cases crc <;> rfl

theorem alertServed_first (none : (s.chan c).replay = none) : alertServed c s = deferAll c (reissue c 1 s.ns (stopIdle c s)) := by
  unfold alertServed
  rw [none]

theorem alertSeen_keeps {P : State → Prop} (hP : Closed P) (hs : P s) : P (alertSeen c s) := stopIdle_keeps hP c _ (alertLogged_keeps hP _ (updPhy_keeps hP c _ s hs))

/-- Beside its timing and its fault log, an alert leaves the record of a channel. -/
theorem alertSeen_chan {β : Type} {g : ChanState → β} (h : BesideTiming g) (unlogged : ∀ y l n, g { y with flog := l, flogHead := n } = g y) : g ((alertSeen c s).chan c) = g (s.chan c) := by
  obtain ⟨l, n, chan⟩ := alertLogged_chan (c := c) (s := alertHeld c s) (crcAlert (alertHeld c s) c)
  unfold alertSeen
  rw [stopIdle_chan h, chan, unlogged, alertHeld, chan_congr (updPhy_chans _ _ _)]

theorem alertSeen_aside : aside (alertSeen c s) = aside (alertHeld c s) := (stopIdle_aside c _).trans (alertLogged_aside _)

/-- An alert with no replay and no pause begins the first attempt (10 R311). -/
theorem alertLow_replay (run : chanRuns s c = true) (pause : (s.phy c).active = none) (slice : s.bist.phyRun[c] = none) (replay : (s.chan c).replay = none) :
    alertLow c s = deferAll c (reissue c 1 s.ns (alertSeen c s)) := by
  have pause_idle : ¬((alertHeld c s).phy c).active.isSome = true := by simp [alertHeld, pause]
  have slice_idle : ¬((alertHeld c s).bist.phyRun[c]).isSome = true := by
    have same : (alertHeld c s).bist.phyRun[c] = none := slice
    simp [same]
  have replay_none : ((alertLogged c (crcAlert (alertHeld c s) c) (alertHeld c s)).chan c).replay = none := by
    obtain ⟨l, n, chan⟩ := alertLogged_chan (c := c) (s := alertHeld c s) (crcAlert (alertHeld c s) c)
    rw [chan, alertHeld, chan_congr (updPhy_chans _ _ _)]
    exact replay
  unfold alertLow
  rw [if_neg (by simp [run])]
  refine (if_neg fun busy => slice_idle busy.1).trans ((if_neg (not_or.mpr ⟨pause_idle, slice_idle⟩)).trans ?_)
  refine (alertServed_first replay_none).trans ?_
  rw [alertLogged_ns]
  rfl

/-- What an alert begins, where the channel has a command in its window. -/
def replayBegun (c : Fin 16) (s : State) : State := deferAll c (attemptBegun c 1 s.ns (alertSeen c s))

theorem alertLow_window (run : chanRuns s c = true) (pause : (s.phy c).active = none) (slice : s.bist.phyRun[c] = none) (replay : (s.chan c).replay = none)
    (some_window : ((s.chan c).flight.filter Flight.window) ≠ []) : alertLow c s = replayBegun c s := by
  have flight : ((alertSeen c s).chan c).flight = (s.chan c).flight := alertSeen_chan (g := (·.flight)) (fun _ _ _ _ _ _ _ _ => rfl) fun _ _ _ => rfl
  rw [alertLow_replay run pause slice replay, reissue_of_window 1 s.ns (by rwa [flight])]
  rfl

theorem replayBegun_keeps {P : State → Prop} (hP : Closed P) (hs : P s) : P (replayBegun c s) := by
  have precharged : ∀ x, P x → P (ranksPrecharged c x) := fun x hx =>
    forAll_keeps_prop _ _ (updChan_keeps hP _ _ _ hx) fun r z hz => forAll_keeps_prop _ _ hz fun k w hw => pushHist_keeps hP _ _ _ _ _ _ _ hw
  exact deferAll_keeps hP _ _ (useCa_keeps hP _ _ (updChan_keeps hP _ _ _ (precharged _ (closeBanks_keeps hP _ _ _ (fbump_keeps hP _ _ _ (alertSeen_keeps hP hs))))))

theorem replayBegun_chan {β : Type} {g : ChanState → β} (h : BesideTiming g) (unlogged : ∀ y l n, g { y with flog := l, flogHead := n } = g y) :
    g ((replayBegun c s).chan c) = g (attemptOn 1 s.ns (s.chan c)) := by
  unfold replayBegun
  rw [deferAll_chan, attemptBegun_chan c _ 1 s.ns h]
  exact alertSeen_chan (g := fun y => g (attemptOn 1 s.ns y)) (fun y => h (attemptOn 1 s.ns y)) fun y => unlogged (attemptOn 1 s.ns y)

theorem replayBegun_aside : aside (replayBegun c s) = aside (alertHeld c s) := by
  unfold replayBegun
  rw [deferAll_aside, attemptBegun_aside, alertSeen_aside]

theorem replayBegun_alertLow : ((replayBegun c s).phy c).alertLow = true := by
  rw [phy_congr (congrArg (·.1) replayBegun_aside), alertHeld, updPhy_phy]

theorem replayBegun_settled (quiet : settled s) : settled (replayBegun c s) := by
  have streams : keptStore s .streams (replayBegun c s) := replayBegun_keeps (keptStore_closed s .streams) (keptStore_refl s .streams)
  have caravans : (aside (replayBegun c s)).2 = (aside (alertHeld c s)).2 := congrArg Prod.snd replayBegun_aside
  exact settled_of_aside quiet caravans streams

theorem fget_replayBegun {f : Fld} (small : f.off < 0x10000) (ne : f.off ≠ CH_FILL_FILL.off) : fget (replayBegun c s) (CH c) f = fget (fbump (CH c) CH_REPLAY_ATT_COUNT (alertSeen c s)) (CH c) f := by
  unfold replayBegun
  rw [fget_deferAll c c small ne, fget_congr (attemptBegun_regs _ _ _ _)]

theorem replayBegun_attempts : fget (replayBegun c s) (CH c) CH_REPLAY_ATT_COUNT = min (fget s (CH c) CH_REPLAY_ATT_COUNT + 1) (2 ^ CH_REPLAY_ATT_COUNT.width - 1) := by
  rw [fget_replayBegun (by decide) (by decide), fget_fbump _ _ _ (by decide), alertSeen, fget_stopIdle c _ (by decide), alertLogged_attempts]
  rfl

/-- The record of an alert's kind outlasts the attempt that it begins. -/
theorem fbit_replayBegun {f : Fld} (small : f.off < 0x10000) (ne : f.off ≠ CH_FILL_FILL.off) (apart : f.off ≠ CH_REPLAY_ATT_COUNT.off) (idle : Apart f CH_IDLEBUS_COUNT) :
    fbit (replayBegun c s) (CH c) f = fbit (alertLogged c (crcAlert s c) (alertHeld c s)) (CH c) f := by
  have same : fget (replayBegun c s) (CH c) f = fget (alertLogged c (crcAlert (alertHeld c s) c) (alertHeld c s)) (CH c) f := by
    rw [fget_replayBegun small ne, fget_fbump_ne _ _ _ _ _ (off_ne _ apart), alertSeen, fget_stopIdle c _ idle]
  exact congrArg (· != 0) same

theorem replayBegun_crc (crc : crcAlert s c = true) : fbit (replayBegun c s) (CH c) CH_INTSTAT_ALERT_CRC = true := by
  rw [fbit_replayBegun (by decide) (by decide) (by decide) (by decide), crc, alertLogged_crc]

theorem replayBegun_ca (crc : crcAlert s c = false) : fbit (replayBegun c s) (CH c) CH_INTSTAT_ALERT_CA = true := by
  rw [fbit_replayBegun (by decide) (by decide) (by decide) (by decide), crc, alertLogged_ca]

/-- On a channel that does not run an alert does nothing. -/
theorem alertLow_off (off : chanRuns s c = false) : alertLow c s = s := if_pos (by simp [off])

end

/-! ### The hold of an alert, and a replay that runs out -/

section
variable {c : Fin 16} {s : State}

theorem exec_alertHoldExpiry (run : chanRuns s c = true) (low : (s.phy c).alertLow = true) :
    exec (.alertHoldExpiry c) s = .next (updPhy c (fun y => { y with alertLow := false }) (elapse (ck8 s c 257) s)) :=
  congrArg Host.Outcome.next (if_pos (by rw [run, low]; rfl))

theorem exec_alertHoldExpiry_off (off : chanRuns s c = false ∨ (s.phy c).alertLow = false) : exec (.alertHoldExpiry c) s = .next s := by
  refine congrArg Host.Outcome.next (if_neg ?_)
  rcases off with off | off <;> simp [off]

end

section
variable {x : ChPick}

theorem exec_alert (u : State) : exec (.alert x) u = .next (settle (alertLow x.ch (actAll x.errs u))) := rfl

theorem exec_replayTimeout {r : Replay} {u : State} (replay : (u.chan x.ch).replay = some r) :
    exec (.replayTimeout x) u = .next (settle (replayFail x.ch (actAll x.errs (advanceToNs (r.since + 1500) u)))) := by
  have unfolded : exec (.replayTimeout x) u = execReplayTimeout x u := rfl
  rw [unfolded, execReplayTimeout, replay]

theorem exec_replayTimeout_none {s : State} (replay : (s.chan x.ch).replay = none) : exec (.replayTimeout x) s = .next s := by
  have unfolded : exec (.replayTimeout x) s = execReplayTimeout x s := rfl
  rw [unfolded, execReplayTimeout, replay]

/-- A replay that has run out for 1.5 us is abandoned, and nothing waits after it (10 R312). -/
theorem exec_replayTimeout_failed {r : Replay} {u s : State} (replay : (u.chan x.ch).replay = some r) (acted : s = actAll x.errs (advanceToNs (r.since + 1500) u)) (quiet : settled s) :
    exec (.replayTimeout x) u = .next (replayFail x.ch s) := by
  obtain ⟨⟨-, -, -, -, after⟩, -⟩ := replayFail_failed (c := x.ch) quiet
  rw [exec_replayTimeout replay, ← acted, settle_settled after]

end

end Sys2Proof.Proofs

/-! PROOF. The temperature polls of a channel and its refresh rate (10 R316, R317). -/

namespace Sys2Proof.Proofs
open Sys2Proof Sys2Proof.Machine Sys2Proof.Laws

/-! ### The start of a poll -/

/-- The ranks are out of power-down, and the DRAM bus is a poll's own until its readings have come (10 R316). -/
def pollReady (c : Fin 16) (s : State) : State :=
  let woken := exitPd c 0 (if geoRanks s = 2 then exitPd c 1 (entryStop c s) else entryStop c s)
  let y := advanceTo8 (after8 woken c (fun x => x.kind == .pdx) (fget woken (CH c) CH_TIM3_TXP)) woken
  stopUntil c (y.d8 + ck8 y c (geoRanks y * (fget y (CH c) CH_TIM0_CL + 8))) (updChan c (fun z => { z with rankUsed8 := Vector.replicate 2 y.d8 }) y)

/-- A poll is counted. -/
def pollCounted (c : Fin 16) (s : State) : State := charge 0x05 1 none (fbump (CH c) CH_MR4_POLL_COUNT (updChan c (fun y => { y with mr4At := s.ns }) s))

/-- The refresh rate follows the readings of a poll (10 R317). -/
def pollJudged (c : Fin 16) (all : List Mr4) (s : State) : State :=
  if (all.any fun x => x == .hot || x == .over) ∨ (all.any fun x => x == .bad) then
    let x := updChan c (fun y => { y with cool := 0 }) s
    if fbit s (CH c) CH_REF_RATE2X then x else
      setRate2x c true (!all.any fun x => x == .hot || x == .over) (if all.any fun x => x == .hot || x == .over then "hot" else "readfail") x
  else
    let n := (s.chan c).cool + 1
    let x := updChan c (fun y => { y with cool := n }) s
    if fbit s (CH c) CH_REF_RATE2X ∧ max 1 (fget x (CH c) CH_REF_COOL_POLLS) ≤ n then setRate2x c false false "cool" x else x

/-- The readings of the devices that exist, of the first rank and of the second. -/
def readings0 (s : State) (r0 : List Mr4) : List Mr4 := r0.take (geoDevs s)
def readings1 (s : State) (r1 : List Mr4) : List Mr4 := if geoRanks s = 2 then r1.take (geoDevs s) else []

/-- The readings of a poll have been counted and reported (10 R316). -/
def pollRead (c : Fin 16) (r0 r1 : List Mr4) (s : State) : State := mr4Rank c 1 (readings1 s r1) (mr4Rank c 0 (readings0 s r0) (pollCounted c (pollReady c s)))

section
variable {c : Fin 16} {s : State}

theorem pollReady_chan {β : Type} {g : ChanState → β} (h : BesideTiming g) : g ((pollReady c s).chan c) = g (s.chan c) := by
  unfold pollReady
  extract_lets woken y
  have woken_same : g (woken.chan c) = g (s.chan c) := by
    unfold woken
    rw [exitPd_chan h]
    split
    · rw [exitPd_chan h, entryStop_chan h]
    · exact entryStop_chan h c s
  have used : g { y.chan c with rankUsed8 := Vector.replicate 2 y.d8 } = g (y.chan c) :=
    h (y.chan c) (y.chan c).hist _ (y.chan c).pd (y.chan c).idleFrom8 (y.chan c).raa (y.chan c).caAt8 (y.chan c).stopTo8
  rw [stopUntil_chan h, updChan_chan]
  exact used.trans ((congrArg g (chan_congr (advanceTo8_chans _ woken) c)).trans woken_same)

theorem fget_pollReady {f : Fld} (untimed : Untimed f) : fget (pollReady c s) (CH c) f = fget s (CH c) f := by
  unfold pollReady stopUntil
  extract_lets woken y
  have woken_same : fget woken (CH c) f = fget s (CH c) f := by
    unfold woken
    rw [fget_exitPd c _ 0 untimed]
    split
    · rw [fget_exitPd c _ 1 untimed, fget_entryStop c _ untimed.1]
    · exact fget_entryStop c s untimed.1
  rw [fget_congr (updChan_regs _ _ _), fget_congr (updChan_regs _ _ _)]
  exact (fget_advanceTo8 _ woken _ _).trans woken_same

theorem pollReady_d8 : s.d8 ≤ (pollReady c s).d8 := by
  have later := d8_le_closed s.d8
  have woken_later : s.d8 ≤ (exitPd c 0 (if geoRanks s = 2 then exitPd c 1 (entryStop c s) else entryStop c s)).d8 := by
    refine exitPd_keeps later c 0 _ (ite_keeps (P := fun t => s.d8 ≤ t.d8) (fun _ => ?_) fun _ => ?_)
    · exact exitPd_keeps later c 1 _ (entryStop_keeps later c s le_rfl)
    · exact entryStop_keeps later c s le_rfl
  unfold pollReady
  extract_lets woken y
  exact stopUntil_keeps later c _ _ (updChan_keeps later c _ _ (advanceTo8_keeps later _ woken woken_later))

theorem pollCounted_chan : (pollCounted c s).chan c = { s.chan c with mr4At := s.ns } := updChan_chan c (fun y => { y with mr4At := s.ns }) s

theorem fget_pollCounted {f : Fld} (uncounted : f.off ≠ CH_MR4_POLL_COUNT.off) : fget (pollCounted c s) (CH c) f = fget s (CH c) f := fget_fset_ne _ _ _ _ _ _ (off_ne _ uncounted)

theorem pollCounted_count : fget (pollCounted c s) (CH c) CH_MR4_POLL_COUNT = min (fget s (CH c) CH_MR4_POLL_COUNT + 1) (2 ^ 32 - 1) := fget_fbump _ _ _ (by decide)

theorem pollCounted_d8 : (pollCounted c s).d8 = s.d8 := rfl

/-! ### The readings -/

theorem mr4Rank_chans (r : Nat) (l : List Mr4) : (mr4Rank c r l s).chans = s.chans := by
  refine forAll_inv (·.chans) _ _ s fun x z => ?_
  cases x.1
  · rfl
  · rfl
  · exact emit_chans _ _ _
  · rfl

theorem mr4Rank_d8 (r : Nat) (l : List Mr4) : (mr4Rank c r l s).d8 = s.d8 := by
  refine forAll_inv (·.d8) _ _ s fun x z => ?_
  cases x.1
  · rfl
  · rfl
  · exact emit_d8 _ _ _
  · rfl

/-- A field beside those that a poll's readings set. -/
abbrev Unread (f : Fld) : Prop := Apart f CH_INTSTAT_MR4_FAIL ∧ Apart f CH_MR4_FAIL_COUNT ∧ Apart f CH_REF_OVERTEMP

theorem fget_mr4Rank {f : Fld} (unread : Unread f) (r : Nat) (l : List Mr4) : fget (mr4Rank c r l s) (CH c) f = fget s (CH c) f := by
  obtain ⟨fail, count, hot⟩ := unread
  refine forAll_inv (fget · (CH c) f) _ _ s fun x z => ?_
  cases x.1
  · rfl
  · rfl
  · exact (fget_CH_emit c f _ _ _).trans (fget_fset_apart _ hot _ _)
  · exact (fget_fset_apart _ fail _ _).trans (fget_fset_apart _ count _ _)

section
variable (r0 r1 : List Mr4)

theorem pollRead_chan {β : Type} {g : ChanState → β} (h : BesideTiming g) : g ((pollRead c r0 r1 s).chan c) = g { s.chan c with mr4At := (pollReady c s).ns } := by
  have polled : BesideTiming fun y => g { y with mr4At := (pollReady c s).ns } := fun y => h { y with mr4At := (pollReady c s).ns }
  unfold pollRead
  rw [chan_congr (mr4Rank_chans _ _), chan_congr (mr4Rank_chans _ _), pollCounted_chan]
  exact pollReady_chan polled

theorem pollRead_d8 : (pollRead c r0 r1 s).d8 = (pollReady c s).d8 := by
  unfold pollRead
  rw [mr4Rank_d8, mr4Rank_d8, pollCounted_d8]

theorem fget_pollRead {f : Fld} (unread : Unread f) (untimed : Untimed f) (uncounted : f.off ≠ CH_MR4_POLL_COUNT.off) : fget (pollRead c r0 r1 s) (CH c) f = fget s (CH c) f := by
  unfold pollRead
  rw [fget_mr4Rank unread, fget_mr4Rank unread, fget_pollCounted uncounted, fget_pollReady untimed]

theorem pollRead_count : fget (pollRead c r0 r1 s) (CH c) CH_MR4_POLL_COUNT = min (fget s (CH c) CH_MR4_POLL_COUNT + 1) (2 ^ 32 - 1) := by
  unfold pollRead
  rw [fget_mr4Rank (by decide), fget_mr4Rank (by decide), pollCounted_count, fget_pollReady (by decide)]

end

/-! ### The refresh rate -/

theorem setRate2x_chans (v fail : Bool) (cause : String) : (setRate2x c v fail cause s).chans = s.chans := by
  unfold setRate2x
  cases v <;> exact emit_chans _ _ _

theorem setRate2x_d8 (v fail : Bool) (cause : String) : (setRate2x c v fail cause s).d8 = s.d8 := by
  unfold setRate2x
  cases v <;> exact emit_d8 _ _ _

theorem setRate2x_rate (v fail : Bool) (cause : String) : fbit (setRate2x c v fail cause s) (CH c) CH_REF_RATE2X = v := by
  unfold setRate2x fbit
  rw [fget_CH_emit]
  cases v
  · exact fbit_fset_zero _ _ _ (by decide)
  · exact fbit_fset_one _ _ _ (by decide) (by decide)

theorem fget_setRate2x {f : Fld} (ne : f.off ≠ CH_REF_RATE2X.off) (v fail : Bool) (cause : String) : fget (setRate2x c v fail cause s) (CH c) f = fget s (CH c) f := by
  unfold setRate2x
  rw [fget_CH_emit]
  refine (fget_fset_ne _ _ _ _ _ _ (off_ne _ ne)).trans ?_
  cases v
  · rfl
  · exact fget_fset_ne _ _ _ _ _ _ (off_ne _ ne)

section
variable {all : List Mr4}

/-- A poll's readings change no more than the refresh rate and the count of cool polls. -/
theorem pollJudged_d8 : (pollJudged c all s).d8 = s.d8 := by
  unfold pollJudged
  extract_lets x n y
  split
  · split
    · rfl
    · exact setRate2x_d8 _ _ _
  · split
    · exact setRate2x_d8 _ _ _
    · rfl

theorem fget_pollJudged {f : Fld} (ne : f.off ≠ CH_REF_RATE2X.off) : fget (pollJudged c all s) (CH c) f = fget s (CH c) f := by
  unfold pollJudged
  extract_lets x n y
  split
  · split
    · rfl
    · exact fget_setRate2x ne _ _ _
  · split
    · exact fget_setRate2x ne _ _ _
    · rfl

theorem pollJudged_hot (hot : Mr4.hot ∈ all) : (pollJudged c all s).chan c = { s.chan c with cool := 0 } ∧ fbit (pollJudged c all s) (CH c) CH_REF_RATE2X = true := by
  unfold pollJudged
  extract_lets x n y
  rw [if_pos (.inl (List.any_eq_true.mpr ⟨.hot, hot, rfl⟩))]
  split
  next was => exact ⟨updChan_chan _ _ _, was⟩
  next => exact ⟨(chan_congr (setRate2x_chans _ _ _) c).trans (updChan_chan _ _ _), setRate2x_rate _ _ _⟩

theorem pollJudged_cool (cool : ∀ x ∈ all, x = .cool) : (pollJudged c all s).chan c = { s.chan c with cool := (s.chan c).cool + 1 }
    ∧ fbit (pollJudged c all s) (CH c) CH_REF_RATE2X = (fbit s (CH c) CH_REF_RATE2X && !decide (max 1 (fget s (CH c) CH_REF_COOL_POLLS) ≤ (s.chan c).cool + 1)) := by
  have none : ∀ p : Mr4 → Bool, p .cool = false → ¬all.any p = true := fun p unlike any => by
    obtain ⟨x, mem, found⟩ := List.any_eq_true.mp any
    rw [cool x mem, unlike] at found
    exact Bool.false_ne_true found
  unfold pollJudged
  extract_lets x n y
  rw [if_neg (not_or.mpr ⟨none _ rfl, none _ rfl⟩)]
  have polls : fget y (CH c) CH_REF_COOL_POLLS = fget s (CH c) CH_REF_COOL_POLLS := rfl
  have rate : fbit y (CH c) CH_REF_RATE2X = fbit s (CH c) CH_REF_RATE2X := rfl
  rw [polls]
  split
  next back =>
    refine ⟨(chan_congr (setRate2x_chans _ _ _) c).trans (updChan_chan _ _ _), ?_⟩
    rw [setRate2x_rate, back.1, decide_eq_true back.2]
    rfl
  next stays =>
    refine ⟨updChan_chan _ _ _, ?_⟩
    rw [rate]
    cases was : fbit s (CH c) CH_REF_RATE2X
    · rfl
    · rw [decide_eq_false fun enough => stays ⟨was, enough⟩]
      rfl

end

/-! ### A poll -/

/-- A poll that reads the ranks at once sets the refresh rate. -/
def pollTaken (c : Fin 16) (r0 r1 : List Mr4) (s : State) : State := pollJudged c (readings0 s r0 ++ readings1 s r1) (pollRead c r0 r1 s)

theorem mr4Poll_free (r0 r1 : List Mr4) (run : chanRuns s c = true) (replay : (s.chan c).replay = none) (pause : (s.phy c).active = none) (slice : s.bist.phyRun[c] = none) :
    mr4Poll c r0 r1 s = pollTaken c r0 r1 (advanceToNs ((s.chan c).mr4At + pollNs s c) s) := by
  have free : ¬((!chanRuns s c) = true ∨ (s.chan c).replay.isSome = true ∨ (s.phy c).active.isSome = true ∨ (s.bist.phyRun[c]).isSome = true) := by
    rw [run, replay, pause, slice]
    decide
  unfold mr4Poll
  rw [if_neg free]
  generalize advanceToNs ((s.chan c).mr4At + pollNs s c) s = x
  rfl

theorem mr4Poll_held (r0 r1 : List Mr4) (busy : chanRuns s c = false ∨ held c s) : mr4Poll c r0 r1 s = s := by
  have off : (!chanRuns s c) = true ∨ held c s := busy.imp_left fun stopped => by rw [stopped]; rfl
  unfold mr4Poll
  exact if_pos off

theorem hot_mem_readings (r0 r1 : List Mr4) : Mr4.hot ∈ readings0 s (.hot :: r0) ++ readings1 s r1 := by
  have some_device : ∃ n, geoDevs s = n + 1 := by
    unfold geoDevs
    split
    · exact ⟨8, rfl⟩
    · exact ⟨17, rfl⟩
  obtain ⟨n, devices⟩ := some_device
  unfold readings0
  rw [devices]
  exact List.mem_append_left _ List.mem_cons_self

theorem readings_cool {r0 r1 : List Mr4} (cool0 : ∀ x ∈ r0, x = .cool) (cool1 : ∀ x ∈ r1, x = .cool) : ∀ x ∈ readings0 s r0 ++ readings1 s r1, x = .cool := by
  intro x mem
  rcases List.mem_append.mp mem with mem | mem
  · exact cool0 x (List.mem_of_mem_take mem)
  · unfold readings1 at mem
    split at mem
    · exact cool1 x (List.mem_of_mem_take mem)
    · exact absurd mem List.not_mem_nil

end

end Sys2Proof.Proofs

/-! PROOF. The clauses on alerts, refresh and polls, put together. -/

namespace Sys2Proof.Proofs
open Sys2Proof Sys2Proof.Machine Sys2Proof.Laws

/-! ### What a poll leaves -/

section
variable {c : Fin 16} {r0 r1 : List Mr4} {s : State}

theorem pollTaken_d8 : s.d8 ≤ (pollTaken c r0 r1 s).d8 := by
  unfold pollTaken
  rw [pollJudged_d8, pollRead_d8]
  exact pollReady_d8

theorem pollTaken_count : fget (pollTaken c r0 r1 s) (CH c) CH_MR4_POLL_COUNT = min (fget s (CH c) CH_MR4_POLL_COUNT + 1) (2 ^ 32 - 1) := by
  unfold pollTaken
  rw [fget_pollJudged (by decide), pollRead_count]

theorem pollTaken_hot : ((pollTaken c (.hot :: r0) r1 s).chan c).cool = 0 ∧ fbit (pollTaken c (.hot :: r0) r1 s) (CH c) CH_REF_RATE2X = true := by
  obtain ⟨chan, rate⟩ := pollJudged_hot (c := c) (s := pollRead c (.hot :: r0) r1 s) (hot_mem_readings (s := s) r0 r1)
  exact ⟨congrArg ChanState.cool chan, rate⟩

theorem pollTaken_mr4At (cool0 : ∀ x ∈ r0, x = .cool) (cool1 : ∀ x ∈ r1, x = .cool) : ((pollTaken c r0 r1 s).chan c).mr4At = (pollTaken c r0 r1 s).ns := by
  obtain ⟨chan, -⟩ := pollJudged_cool (c := c) (s := pollRead c r0 r1 s) (readings_cool (s := s) cool0 cool1)
  have at_read : ((pollRead c r0 r1 s).chan c).mr4At = (pollReady c s).ns := pollRead_chan (g := (·.mr4At)) r0 r1 fun _ _ _ _ _ _ _ _ => rfl
  have now : (pollTaken c r0 r1 s).d8 = (pollReady c s).d8 := by
    unfold pollTaken
    rw [pollJudged_d8, pollRead_d8]
  have same : ((pollTaken c r0 r1 s).chan c).mr4At = ((pollRead c r0 r1 s).chan c).mr4At := by
    unfold pollTaken
    rw [chan]
  unfold State.ns at at_read ⊢
  rw [same, at_read, now]

theorem pollTaken_cool (cool0 : ∀ x ∈ r0, x = .cool) (cool1 : ∀ x ∈ r1, x = .cool) : ((pollTaken c r0 r1 s).chan c).cool = (s.chan c).cool + 1
    ∧ fbit (pollTaken c r0 r1 s) (CH c) CH_REF_RATE2X = (fbit s (CH c) CH_REF_RATE2X && !decide (max 1 (fget s (CH c) CH_REF_COOL_POLLS) ≤ (s.chan c).cool + 1)) := by
  obtain ⟨chan, rate⟩ := pollJudged_cool (c := c) (s := pollRead c r0 r1 s) (readings_cool (s := s) cool0 cool1)
  have cool_read : ((pollRead c r0 r1 s).chan c).cool = (s.chan c).cool := pollRead_chan (g := (·.cool)) r0 r1 fun _ _ _ _ _ _ _ _ => rfl
  have rate_read : fbit (pollRead c r0 r1 s) (CH c) CH_REF_RATE2X = fbit s (CH c) CH_REF_RATE2X := congrArg (· != 0) (fget_pollRead r0 r1 (by decide) (by decide) (by decide))
  rw [cool_read, rate_read, fget_pollRead r0 r1 (by decide) (by decide) (by decide)] at rate
  exact ⟨(congrArg ChanState.cool chan).trans (congrArg (· + 1) cool_read), rate⟩

/-- A poll that nothing holds is taken at its due instant (10 R316). -/
theorem exec_mr4Poll_free (r0 r1 : List Mr4) (run : chanRuns s c = true) (replay : (s.chan c).replay = none) (pause : (s.phy c).active = none) (slice : s.bist.phyRun[c] = none) :
    exec (.mr4Poll c r0 r1) s = .next (pollTaken c r0 r1 (advanceToNs ((s.chan c).mr4At + pollNs s c) s)) :=
  congrArg Host.Outcome.next (mr4Poll_free r0 r1 run replay pause slice)

theorem exec_mr4Poll_held (r0 r1 : List Mr4) (busy : chanRuns s c = false ∨ held c s) : exec (.mr4Poll c r0 r1) s = .next s := congrArg Host.Outcome.next (mr4Poll_held r0 r1 busy)

theorem advanceToNs_chan (n : Nat) (s : State) : (advanceToNs n s).chan c = s.chan c := chan_congr (advanceTo8_chans _ s) c

theorem fget_advanceToNs (n b : Nat) (f : Fld) (s : State) : fget (advanceToNs n s) b f = fget s b f := fget_advanceTo8 _ s b f

theorem poll_due : firstCycle8 s (8 * ((s.chan c).mr4At + pollNs s c)) ≤ (pollTaken c r0 r1 (advanceToNs ((s.chan c).mr4At + pollNs s c) s)).d8 :=
  (advanceToNs_d8 _ s).ge.trans pollTaken_d8

/-- The counts of cool polls and the single rate (10 R317). -/
theorem mr4Poll_cool (run : chanRuns s c = true) (replay : (s.chan c).replay = none) (pause : (s.phy c).active = none) (slice : s.bist.phyRun[c] = none)
    (cool0 : ∀ x ∈ r0, x = .cool) (cool1 : ∀ x ∈ r1, x = .cool) :
    ∃ t, exec (.mr4Poll c r0 r1) s = .next t ∧ firstCycle8 s (8 * ((s.chan c).mr4At + pollNs s c)) ≤ t.d8 ∧ (t.chan c).mr4At = t.ns ∧ (t.chan c).cool = (s.chan c).cool + 1
      ∧ fget t (CH c) CH_MR4_POLL_COUNT = min (fget s (CH c) CH_MR4_POLL_COUNT + 1) (2 ^ 32 - 1)
      ∧ fbit t (CH c) CH_REF_RATE2X = (fbit s (CH c) CH_REF_RATE2X && !decide (max 1 (fget s (CH c) CH_REF_COOL_POLLS) ≤ (s.chan c).cool + 1)) ∧ sameStore s t := by
  have e := exec_mr4Poll_free r0 r1 run replay pause slice
  obtain ⟨cool, rate⟩ := pollTaken_cool (c := c) (s := advanceToNs ((s.chan c).mr4At + pollNs s c) s) cool0 cool1
  unfold fbit at rate ⊢
  rw [fget_advanceToNs, fget_advanceToNs, advanceToNs_chan] at rate
  rw [advanceToNs_chan] at cool
  exact ⟨_, e, poll_due, pollTaken_mr4At cool0 cool1, cool, pollTaken_count.trans (by rw [fget_advanceToNs]), rate, exec_sameStore e rfl⟩

theorem mr4Poll_hot (run : chanRuns s c = true) (replay : (s.chan c).replay = none) (pause : (s.phy c).active = none) (slice : s.bist.phyRun[c] = none) :
    ∃ t, exec (.mr4Poll c (.hot :: r0) r1) s = .next t ∧ firstCycle8 s (8 * ((s.chan c).mr4At + pollNs s c)) ≤ t.d8 ∧ (t.chan c).cool = 0 ∧ fbit t (CH c) CH_REF_RATE2X = true
      ∧ fget t (CH c) CH_MR4_POLL_COUNT = min (fget s (CH c) CH_MR4_POLL_COUNT + 1) (2 ^ 32 - 1) ∧ sameStore s t := by
  have e := exec_mr4Poll_free (.hot :: r0) r1 run replay pause slice
  obtain ⟨cool, rate⟩ := pollTaken_hot (c := c) (r0 := r0) (r1 := r1) (s := advanceToNs ((s.chan c).mr4At + pollNs s c) s)
  exact ⟨_, e, poll_due, cool, rate, pollTaken_count.trans (by rw [fget_advanceToNs]), exec_sameStore e rfl⟩

end

/-! ### What a refresh leaves -/

section
variable {c : Fin 16} {r : Fin 2} {s : State}

theorem intervalBegun_d8 : (intervalBegun c r s).d8 = firstCycle8 s (s.chan c).refAt8[r] := rfl

theorem intervalBegun_regs : (intervalBegun c r s).regs = s.regs := (updChan_regs _ _ _).trans (advanceTo8_regs _ s)

theorem refreshTaken_d8 : firstCycle8 s (s.chan c).refAt8[r] ≤ (refreshTaken c r s).d8 := by
  have later := d8_le_closed (firstCycle8 s (s.chan c).refAt8[r])
  exact refreshRank_keeps later c r _ _ (updChan_keeps later c _ _ (intervalBegun_d8 (c := c) (r := r) (s := s)).ge)

theorem refreshTaken_count : fget (refreshTaken c r s) (CH c) CH_REFSB_COUNT = min (fget s (CH c) CH_REFSB_COUNT + 4 * ((s.chan c).refDebt[r] + 1)) (2 ^ 32 - 1) := by
  unfold refreshTaken
  rw [fget_refreshRank_count, fget_congr (updChan_regs _ _ _), fget_congr intervalBegun_regs]

theorem deferAll_d8 (c : Fin 16) (s : State) : (deferAll c s).d8 = s.d8 := deferAll_answers (g := (·.d8)) ⟨fun _ _ _ _ => rfl, fun _ _ _ _ _ _ _ _ => rfl⟩ c s

/-- A rank takes the refreshes that are due (10 R315). -/
theorem refreshDue_free (run : chanRuns s c = true) (rank : r.val < geoRanks s) (replay : (s.chan c).replay = none) (pause : (s.phy c).active = none) (slice : s.bist.phyRun[c] = none) :
    ∃ t, exec (.refreshDue c r) s = .next t ∧ firstCycle8 s (s.chan c).refAt8[r] ≤ t.d8 ∧ (t.chan c).refDebt[r] = 0 ∧ (t.chan c).refAt8[r] = firstCycle8 s (s.chan c).refAt8[r] + refInterval8 s c
      ∧ fget t (CH c) CH_REFSB_COUNT = min (fget s (CH c) CH_REFSB_COUNT + 4 * ((s.chan c).refDebt[r] + 1)) (2 ^ 32 - 1)
      ∧ (t.chan c).rows = (s.chan c).rows.filter (fun x => x.1 / 32 ≠ r.val) ∧ sameStore s t := by
  have e : exec (.refreshDue c r) s = .next (deferAll c (refreshTaken c r s)) := congrArg Host.Outcome.next (refreshDue_taken run rank replay pause slice)
  have debt : ((refreshTaken c r s).chan c).refDebt = (s.chan c).refDebt.set r 0 := refreshTaken_chan (g := (·.refDebt)) (fun _ _ _ _ _ _ _ _ => rfl) c r s
  have due : ((refreshTaken c r s).chan c).refAt8 = (s.chan c).refAt8.set r (firstCycle8 s (s.chan c).refAt8[r] + refInterval8 s c) :=
    refreshTaken_chan (g := (·.refAt8)) (fun _ _ _ _ _ _ _ _ => rfl) c r s
  have rows : ((refreshTaken c r s).chan c).rows = (s.chan c).rows.filter fun x => !decide (x.1 / 32 = r.val) := refreshTaken_chan (g := (·.rows)) (fun _ _ _ _ _ _ _ _ => rfl) c r s
  refine ⟨_, e, ?_, ?_, ?_, ?_, ?_, exec_sameStore e rfl⟩
  · rw [deferAll_d8]
    exact refreshTaken_d8
  · rw [deferAll_chan, debt]
    simp
  · rw [deferAll_chan, due]
    simp
  · rw [fget_deferAll c c (by decide) (by decide), refreshTaken_count]
  · rw [deferAll_chan, rows]
    simp

/-- Refreshes that a channel cannot take yet are owed (10 R312, R315). -/
theorem refreshDue_busy (run : chanRuns s c = true) (rank : r.val < geoRanks s) (busy : held c s) (few : (s.chan c).refDebt[r] < 4) :
    ∃ t, exec (.refreshDue c r) s = .next t ∧ t.d8 = firstCycle8 s (s.chan c).refAt8[r] ∧ (t.chan c).refDebt[r] = (s.chan c).refDebt[r] + 1 ∧ (t.chan c).refAt8[r] = t.d8 + refInterval8 s c
      ∧ t.regs = s.regs ∧ (t.chan c).rows = (s.chan c).rows ∧ sameStore s t := by
  have e : exec (.refreshDue c r) s = .next (updChan c (fun y => { y with refDebt := y.refDebt.set r ((s.chan c).refDebt[r] + 1) }) (intervalBegun c r s)) :=
    congrArg Host.Outcome.next (refreshDue_owed run rank busy few)
  have now : ∀ f, (updChan c f (intervalBegun c r s)).d8 = firstCycle8 s (s.chan c).refAt8[r] := fun f => intervalBegun_d8
  refine ⟨_, e, now _, ?_, ?_, ?_, ?_, exec_sameStore e rfl⟩
  · rw [updChan_chan]
    simp
  · rw [now, updChan_chan, intervalBegun_chan]
    simp
  · rw [updChan_regs, intervalBegun_regs]
  · rw [updChan_chan, intervalBegun_chan]

end

/-! ### What an alert leaves -/

section
variable {x : ChPick} {u s : State}

/-- An alert begins a replay (10 R311). -/
theorem alert_window (acted : s = actAll x.errs u) (run : chanRuns s x.ch = true) (quiet : settled s) (pause : (s.phy x.ch).active = none) (slice : s.bist.phyRun[x.ch] = none)
    (replay : (s.chan x.ch).replay = none) (some_window : ((s.chan x.ch).flight.filter Flight.window) ≠ []) : exec (.alert x) u = .next (replayBegun x.ch s) := by
  rw [exec_alert, ← acted, alertLow_window run pause slice replay some_window, settle_settled (replayBegun_settled quiet)]

theorem replayBegun_record (c : Fin 16) (s : State) : ((replayBegun c s).chan c).replay = some ⟨s.ns, 1⟩ ∧ ((replayBegun c s).chan c).flight = (s.chan c).flight.map dueAgain ∧ ((replayBegun c s).chan c).rows = [] :=
  ⟨replayBegun_chan (g := (·.replay)) (fun _ _ _ _ _ _ _ _ => rfl) fun _ _ _ => rfl, replayBegun_chan (g := (·.flight)) (fun _ _ _ _ _ _ _ _ => rfl) fun _ _ _ => rfl,
    replayBegun_chan (g := (·.rows)) (fun _ _ _ _ _ _ _ _ => rfl) fun _ _ _ => rfl⟩

theorem replayBegun_d8 (c : Fin 16) (s : State) : s.d8 ≤ (replayBegun c s).d8 := replayBegun_keeps (P := fun t => s.d8 ≤ t.d8) (d8_le_closed s.d8) le_rfl

theorem memories_of_keptStore {t : State} (kept : ∀ σ, keptStore s σ t) : t.dram = s.dram ∧ t.wmem = s.wmem := ⟨kept .dram, kept .wmem⟩

theorem replayBegun_memories (c : Fin 16) (s : State) : (replayBegun c s).dram = s.dram ∧ (replayBegun c s).wmem = s.wmem :=
  memories_of_keptStore fun σ => replayBegun_keeps (keptStore_closed s σ) (keptStore_refl s σ)

end

/-- Settles O33: an alert, a refresh and a poll each as a chain of steps, with what every step changes of the channel's record and registers; the loss of a channel by a property that no work for requests touches. -/
theorem alertsAndRefresh : Obligations.AlertsAndRefresh := by
  unfold Obligations.AlertsAndRefresh
  refine ⟨?alert, ?alertOff, ?hold, ?holdOff, ?timeout, ?timeoutOff, fun c r s => refreshDue_free, fun c r s => refreshDue_busy, fun c r s => exec_refreshDue_off,
    fun c r0 r1 s => mr4Poll_cool, fun c r0 r1 s => mr4Poll_hot, fun c r0 r1 s => exec_mr4Poll_held r0 r1⟩
  case alert =>
    intro x c u s own acted run quiet pause slice replay some_window
    subst own
    obtain ⟨replay_begun, flight, rows⟩ := replayBegun_record x.ch s
    obtain ⟨dram, wmem⟩ := replayBegun_memories x.ch s
    exact ⟨_, alert_window acted run quiet pause slice replay some_window, replay_begun, flight, replayBegun_alertLow, rows, replayBegun_attempts, replayBegun_crc, replayBegun_ca, replayBegun_d8 x.ch s, dram, wmem⟩
  case alertOff =>
    intro x u s acted quiet off
    rw [exec_alert, ← acted, alertLow_off off, settle_settled quiet]
  case hold =>
    intro c s run low
    have e := exec_alertHoldExpiry run low
    refine ⟨_, e, ?_, rfl, ?_, ?_, exec_sameStore e rfl⟩
    · rw [updPhy_phy]
    · exact advanceTo8_chans (s.d8 + ck8 s c 257) s
    · exact advanceTo8_regs (s.d8 + ck8 s c 257) s
  case holdOff => exact fun c s => exec_alertHoldExpiry_off
  case timeout =>
    intro x c r u s own replay acted quiet
    subst own
    obtain ⟨⟨fail, lost, psn, now, -⟩, ⟨none, line, flight⟩, state⟩ := replayFail_failed (c := x.ch) quiet
    refine ⟨_, exec_replayTimeout_failed replay acted quiet, state, lost, none, flight, line, psn, fail, channelLost_irq _ _ _ _, now, fun clean => ?_⟩
    rw [now, acted, clean]
    exact advanceToNs_d8 _ u
  case timeoutOff => exact fun x s => exec_replayTimeout_none

end Sys2Proof.Proofs

/-! PROOF. A channel whose pause is to end in self-refresh is not in service (11 R346): a relock leaves that mark, and with it the exit from DOZE waits on. -/

namespace Sys2Proof.Proofs
open Sys2Proof Sys2Proof.Machine Sys2Proof.Laws

/-- An exit from DOZE waits for channel 0, which re-locks and is still marked to enter self-refresh after a pause. -/
def relockParkDue : State :=
  { updPhy 0 (fun y => { y with relock := true, parkDue := true }) (fset (CH 0) CH_STATUS_STATE 4 twoMembers) with
    pwr := { twoMembers.pwr with dozeExit := some 2 } }

/-- The exit from DOZE has not ended after the relock. -/
theorem exec_relockParkDue_dozeExit :
    (match exec (.relockDone 0 []) relockParkDue with | .next t => t.pwr.dozeExit | _ => none) = some 2 := by decide +kernel

/-- Refutes O36: the thirteenth clause has the relock of the last channel end an exit from DOZE, and a channel that is marked to enter self-refresh after a pause is not in service once it has re-locked. -/
theorem not_pausesAndRelock : ¬ Obligations.PausesAndRelock := by
  unfold Obligations.PausesAndRelock
  rintro ⟨-, -, -, -, -, -, -, -, -, -, -, -, doze, -⟩
  obtain ⟨t, e, -, ended, -⟩ := doze 0 2 relockParkDue (by unfold settled; decide +kernel) rfl rfl rfl (by decide +kernel) rfl (by decide +kernel) rfl (by decide +kernel) (by decide +kernel)
    (by decide +kernel) (by decide +kernel)
  have waits := exec_relockParkDue_dozeExit
  simp only [e, ended] at waits
  exact absurd waits (by decide)

end Sys2Proof.Proofs

/-! PROOF. The registers of a PHY's block, and the words of its settings file (11 R328, R349), beside what other commands write. -/

namespace Sys2Proof.Proofs
open Sys2Proof Sys2Proof.Machine Sys2Proof.Laws

/-! ### Registers -/

/-- The register blocks below those of the PHYs. -/
theorem PHY_ne_low (c : Fin 16) (i : Nat) {a : Nat} (low : a < 0x200000) : PHY c + i ≠ a := by
  unfold PHY
  omega

theorem CH_ne_PHY (k c : Fin 16) {i : Nat} (small : i < 0x10000) (j : Nat) : CH k + i ≠ PHY c + j := by
  unfold CH PHY
  omega

theorem fget_CH_fset_PHY (k c : Fin 16) {f : Fld} (small : f.off < 0x10000) (g : Fld) (v : Nat) (s : State) : fget (fset (PHY c) g v s) (CH k) f = fget s (CH k) f :=
  fget_fset_ne _ _ _ _ _ _ (CH_ne_PHY k c small g.off)

theorem fget_PHY_fset_low (c : Fin 16) (f : Fld) {b : Nat} {g : Fld} (low : b + g.off < 0x200000) (v : Nat) (s : State) : fget (fset b g v s) (PHY c) f = fget s (PHY c) f :=
  fget_fset_ne _ _ _ _ _ _ (PHY_ne_low c _ low)

theorem fget_PHY_emit (c : Fin 16) (f : Fld) (h : String) (x : List (String × FVal)) (s : State) : fget (emit h x s) (PHY c) f = fget s (PHY c) f :=
  fget_emit _ _ _ _ _ (PHY_ne_low c _ (by decide)) (PHY_ne_low c _ (by decide)) (PHY_ne_low c _ (by decide))

theorem uncounted_of_high {a : Nat} (high : 0x20000 ≤ a) : Uncounted a := by
  simp only [Uncounted, CON, CON_LINES_COUNT, CON_ERRS_COUNT, CON_CHKERR_COUNT]
  omega

theorem fget_PHY_answer (c : Fin 16) (f : Fld) (l : List OutLn) (s : State) : fget (answer l s) (PHY c) f = fget s (PHY c) f :=
  fget_answer (uncounted_of_high (by unfold PHY; omega))

theorem fget_CH_answer (c : Fin 16) (f : Fld) (l : List OutLn) (s : State) : fget (answer l s) (CH c) f = fget s (CH c) f :=
  fget_answer (uncounted_of_high (by unfold CH; omega))

theorem answer_chans (l : List OutLn) (s : State) : (answer l s).chans = s.chans := answer_inv (·.chans) l s (fun _ _ => rfl) fun _ _ => rfl

theorem answer_phys (l : List OutLn) (s : State) : (answer l s).phys = s.phys := answer_inv (·.phys) l s (fun _ _ => rfl) fun _ _ => rfl

/-! ### The state of a channel -/

theorem chState_fset_PHY (k c : Fin 16) (f : Fld) (v : Nat) (s : State) : chState (fset (PHY c) f v s) k = chState s k := fget_CH_fset_PHY k c (by decide) f v s

theorem chState_fset_other (c : Fin 16) {f : Fld} (ne : CH_STATUS_STATE.off ≠ f.off) (v : Nat) (s : State) : chState (fset (CH c) f v s) c = chState s c :=
  fget_fset_ne _ _ _ _ _ _ (off_ne _ ne)

theorem chState_emit (c : Fin 16) (h : String) (x : List (String × FVal)) (s : State) : chState (emit h x s) c = chState s c := fget_CH_emit c _ h x s

theorem chState_answer (c : Fin 16) (l : List OutLn) (s : State) : chState (answer l s) c = chState s c := fget_CH_answer c _ l s

theorem chState_breakPair (c : Fin 16) (s : State) : chState (breakPair s) c = chState s c := fget_breakPair s (by unfold GLB CH; omega)

theorem chState_setChState (c : Fin 16) {v : Nat} (small : v < 16) (s : State) : chState (setChState c v s) c = v := (fget_fset _ _ _ _ (by decide)).trans (Nat.mod_eq_of_lt small)

/-! ### Words of an indirect table -/

/-- Words of two blocks stand apart. -/
theorem ixGet_ixSet_block {b k : Nat} (ne : b ≠ k) {i j : Nat} (hi : i < 16777216) (hj : j < 16777216) (w : Word) (s : State) : ixGet (ixSet k j w s) b i = ixGet s b i :=
  tblGet_tblSet_ne _ _ _ _ _ (by unfold ixKey; omega)

theorem ixGet_ixPut (b i lo w v : Nat) (s : State) : ixGet (ixPut b i lo w v s) b i = (⟨0, lo, w⟩ : Fld).put v (ixGet s b i) := ixGet_ixSet _ _ _ _

theorem ixGet_ixPut_ne (b : Nat) {i j : Nat} (ne : j ≠ i) (lo w v : Nat) (s : State) : ixGet (ixPut b i lo w v s) b j = ixGet s b j := ixGet_ixSet_ne b ne _ s

/-- Bits of a word that are put read back. -/
theorem ixBits_ixPut (b i : Nat) {lo w : Nat} (fits : lo + w ≤ 32) (v : Nat) (s : State) : ixBits (ixPut b i lo w v s) b i lo w = v % 2 ^ w := by
  have word : ixBits (ixPut b i lo w v s) b i lo w = (⟨0, lo, w⟩ : Fld).get ((⟨0, lo, w⟩ : Fld).put v (ixGet s b i)) := congrArg (fun x => (⟨0, lo, w⟩ : Fld).get x) (ixGet_ixPut b i lo w v s)
  rw [word, Fld_get_put _ _ _ fits]

end Sys2Proof.Proofs

/-! PROOF. Every place of a line lies within its channel's DRAM (09 R267 to R272), and depends on the map's registers and hash masks alone. -/

namespace Sys2Proof.Proofs
open Sys2Proof Sys2Proof.Machine Sys2Proof.Laws

/-! ### The hash -/

/-- A number of one bit for each listed item, from bit `k` on, lies below the bit after the last. -/
theorem sum_bits_lt (p : Nat × Nat → Bool) (l : List Nat) (k : Nat) : ((l.zipIdx k).map fun m => if p m then 2 ^ m.2 else 0).sum + 2 ^ k ≤ 2 ^ (k + l.length) := by
  induction l generalizing k with
  | nil => simp
  | cons a r ih =>
    have rest := ih (k + 1)
    have first : (if p (a, k) then 2 ^ (a, k).2 else 0) ≤ 2 ^ k := by split <;> simp
    have twice : 2 ^ (k + 1) = 2 ^ k + 2 ^ k := by rw [Nat.pow_succ, Nat.mul_two]
    have last : k + (a :: r).length = k + 1 + r.length := by rw [List.length_cons]; omega
    rw [List.zipIdx_cons, List.map_cons, List.sum_cons, last]
    omega

/-- A hash replaces the target bits and no other. -/
theorem hashBits_div (width : Nat) (masks : List Nat) (x : Nat) : hashBits width masks x / 2 ^ masks.length = x / 2 ^ masks.length := by
  have small := sum_bits_lt (fun m => parity width (Nat.land x m.1)) masks 0
  rw [Nat.zero_add, Nat.pow_zero] at small
  unfold hashBits
  rw [Nat.mul_comm, Nat.mul_add_div (Nat.two_pow_pos _), Nat.div_eq_of_lt (a := List.sum _) small]
  rfl

/-- Below a multiple of 16 the channel hash stays below it. -/
theorem chHash_lt (s : State) {x n : Nat} (lt : x < 16 * n) : chHash s x < 16 * n := by
  have same : chHash s x / 16 = x / 16 := hashBits_div 37 ((List.range 4).map (chMask s)) x
  omega

/-! ### Places -/

/-- A channel holds a multiple of 128 lines, and no more than 2^30 (09 R267). -/
theorem chLines_eq (s : State) : ∃ n, chLines s = 128 * n ∧ n ≤ 2 ^ 23 := by
  have rows : geoRows s = 65536 ∨ geoRows s = 98304 ∨ geoRows s = 131072 := by
    unfold geoRows
    split <;> simp
  have cols : geoCols s = 64 ∨ geoCols s = 128 := by
    unfold geoCols
    split <;> simp
  have ranks : geoRanks s = 1 ∨ geoRanks s = 2 := by
    unfold geoRanks
    split <;> simp
  refine ⟨chLines s / 128, ?_, ?_⟩ <;> unfold chLines rankLines <;> rcases rows with h | h | h <;> rcases cols with k | k <;> rcases ranks with j | j <;> simp [h, k, j]

/-- Every line's place lies within its channel. -/
theorem placeOf_lam_lt {s : State} {l : Nat} {p : Place} (place : placeOf s l = some p) : p.lam < 2 ^ 30 := by
  obtain ⟨n, lines, few⟩ := chLines_eq s
  have eighths : twinE s ≤ 8 := Nat.min_le_left _ _
  obtain ⟨e, total⟩ := Nat.exists_eq_add_of_le eighths
  have first : twinFirst s = 16 * (n * e) := by
    unfold twinFirst
    rw [lines, show 8 - twinE s = e by omega, show 128 * n * e = 8 * (16 * (n * e)) by ring, Nat.mul_div_cancel_left _ (by decide)]
  have twin : chLines s * twinE s / 8 = 16 * (n * twinE s) := by
    rw [lines, show 128 * n * twinE s = 8 * (16 * (n * twinE s)) by ring, Nat.mul_div_cancel_left _ (by decide)]
  have whole : n * twinE s + n * e = 8 * n := by rw [← Nat.mul_add, ← total, Nat.mul_comm]
  unfold placeOf at place
  dsimp only at place
  split at place
  next => cases place
  next inside =>
    obtain ⟨some_member, below⟩ := not_or.mp inside
    split at place
    next ordinary =>
      obtain ⟨c, -, rfl⟩ := Option.map_eq_some_iff.mp place
      have bound : chHash s l < 16 * ((members s).length * (n * e)) := chHash_lt s (by
        unfold ordLines at ordinary
        rw [first] at ordinary
        exact ordinary.trans_eq (by ring))
      have quotient : chHash s l / (members s).length < 16 * (n * e) := Nat.div_lt_of_lt_mul (bound.trans_eq (by ring))
      show chHash s l / (members s).length < 2 ^ 30
      omega
    next beyond =>
      obtain ⟨c, -, rfl⟩ := Option.map_eq_some_iff.mp place
      have pairs : 2 * ((pairedChans s).length / 2) ≤ (pairedChans s).length := Nat.mul_div_le _ _
      have bound : chHash s (l - ordLines s) < 16 * ((pairedChans s).length / 2 * (n * twinE s)) := chHash_lt s (by
        unfold topLines at below
        rw [twin] at below
        have : (pairedChans s).length / 2 * (16 * (n * twinE s)) = 16 * ((pairedChans s).length / 2 * (n * twinE s)) := by ring
        omega)
      have half : 16 * ((pairedChans s).length / 2 * (n * twinE s)) ≤ (pairedChans s).length * (8 * (n * twinE s)) :=
        calc 16 * ((pairedChans s).length / 2 * (n * twinE s)) = 2 * ((pairedChans s).length / 2) * (8 * (n * twinE s)) := by ring
          _ ≤ (pairedChans s).length * (8 * (n * twinE s)) := Nat.mul_le_mul_right _ pairs
      have quotient : chHash s (l - ordLines s) / (pairedChans s).length < 8 * (n * twinE s) := Nat.div_lt_of_lt_mul (bound.trans_le half)
      show twinFirst s + 2 * (chHash s (l - ordLines s) / (pairedChans s).length) + (if c.val < 8 then 0 else 1) < 2 ^ 30
      split <;> omega

/-- The map's registers and masks place the lines. -/
theorem placeOf_congr {s t : State} (words : ∀ a ∈ poolWords, rg t a = rg s a) (masks : ∀ k < 4, chMask t k = chMask s k) : placeOf t = placeOf s := by
  have pool : SamePool s { t with ix := s.ix, chans := s.chans } := ⟨words, rfl, fun _ => rfl⟩
  have hash : chHash t = chHash s := by
    funext x
    exact congrArg (hashBits 37 · x) (List.map_congr_left fun k m => masks k (List.mem_range.mp m))
  have members : members t = members s := pool.members
  have top : topLines t = topLines s := pool.topLines
  have ordinary : ordLines t = ordLines s := pool.ordLines
  have paired : pairedChans t = pairedChans s := pool.pairedChans
  have first : twinFirst t = twinFirst s := pool.twinFirst
  funext l
  simp only [placeOf, hash, members, top, ordinary, paired, first]

end Sys2Proof.Proofs

/-! PROOF. FILL writes the all-zero line to every line of a channel but those of the queue cache, and no other channel's lines (11 R337, log 24). -/

namespace Sys2Proof.Proofs
open Sys2Proof Sys2Proof.Machine Sys2Proof.Laws

/-! ### A range of a memory is cleared -/

theorem tblGet_below {α : Type} [DecidableEq α] (d : Nat → α) {b k : Nat} {l : List (Nat × α)} (wf : tblWfFrom d b l = true) (lt : k < b) : tblGet d l k = d k := by
  cases l with
  | nil => rfl
  | cons a r =>
    simp only [tblWfFrom, Bool.and_eq_true, decide_eq_true_eq] at wf
    exact if_pos (Nat.lt_of_lt_of_le lt wf.1.1)

/-- In a canonical table a key outside the range that is cleared reads as it did. -/
theorem tblGet_tblClear_outside {α : Type} [DecidableEq α] (d : Nat → α) {b lo hi k : Nat} (outside : k < lo ∨ hi ≤ k) {l : List (Nat × α)} (wf : tblWfFrom d b l = true) :
    tblGet d (tblClear l lo hi) k = tblGet d l k := by
  unfold tblClear
  induction l generalizing b with
  | nil => rfl
  | cons a r ih =>
    simp only [tblWfFrom, Bool.and_eq_true, decide_eq_true_eq] at wf
    obtain ⟨-, rest⟩ := wf
    rw [List.filter_cons]
    split
    next kept => rw [tblGet, tblGet, ih rest]
    next cleared =>
      have ne : k ≠ a.1 := fun e => cleared (decide_eq_true (e ▸ outside))
      rw [ih rest, tblGet, if_neg ne]
      split
      next below => exact tblGet_below d rest (Nat.lt_succ_of_lt below)
      next => rfl

theorem tblGet_tblClear_inside {α : Type} (d : Nat → α) {lo hi k : Nat} (inside : lo ≤ k ∧ k < hi) (l : List (Nat × α)) : tblGet d (tblClear l lo hi) k = d k := by
  refine tblGet_unlisted d fun e m same => ?_
  have kept := of_decide_eq_true (List.mem_filter.mp m).2
  omega

theorem cellLine_zero {m : List Host.Cell} {a : Nat} (zero : ∀ i < 128, cellGet m (a + i) = 0) : cellLine m a = 0 := by
  refine line_ext fun i hi => ?_
  have none : lineByte (0#1024) i = 0 := by rw [lineByte, BitVec.toNat_zero, Nat.zero_div]; rfl
  exact ((lineByte_cellLine _ _ hi).trans (zero i hi)).trans none.symm

theorem dramLine_congr {s t : State} (same : t.dram = s.dram) (c : Fin 16) (l : Nat) : dramLine t c l = dramLine s c l := congrArg (cellLine · (dramAddr c l)) same

theorem dramLine_dramClear (c : Fin 16) {l : Nat} (hl : l < 2 ^ 30) (s : State) : dramLine (dramClear c s) c l = 0 :=
  cellLine_zero fun i hi => tblGet_tblClear_inside emptyByte (by unfold dramAddr; omega) s.dram

theorem dramLine_dramClear_ne {c k : Fin 16} (ne : k ≠ c) {l : Nat} (hl : l < 2 ^ 30) {s : State} (wf : Memory.wf s.dram) : dramLine (dramClear c s) k l = dramLine s k l := by
  have apart : k.val ≠ c.val := fun e => ne (Fin.ext e)
  refine line_ext fun i hi => ?_
  unfold dramLine
  rw [lineByte_cellLine _ _ hi, lineByte_cellLine _ _ hi]
  exact tblGet_tblClear_outside emptyByte (by unfold dramAddr; omega) wf

/-! ### FILL -/

/-- The lines of a channel that FILL leaves to the queue cache, with what they hold. -/
def keptLines (c : Fin 16) (s : State) : List (Nat × Line) :=
  s.que.frames.flatMap fun f => ((List.range 32).filter fun k => bitOf f.2.valid.toNat k).filterMap fun k =>
    (placeOf s (cellLineNo s f.2.block k)).bind fun p => if p.ch = c then some (p.lam, dramLine s c p.lam) else none

/-- A channel's lines are zero and unpoisoned. -/
def blank (c : Fin 16) (s : State) : State := updChan c (fun y => { y with psnAll := false, psnTwin := false, psn := [] }) (dramClear c s)

theorem zeroFill_eq (c : Fin 16) (s : State) : zeroFill c s = forAll (keptLines c s) (fun x => setDram c x.1 x.2) (blank c s) := rfl

/-- A line is the place of a cell that a queue-cache frame holds. -/
def CachedCell (c : Fin 16) (l : Nat) (s : State) : Prop :=
  ∃ f ∈ s.que.frames, ∃ k, k < 32 ∧ bitOf f.2.valid.toNat k = true ∧ ∃ p, placeOf s (cellLineNo s f.2.block k) = some p ∧ p.ch = c ∧ p.lam = l

theorem cachedCell_of_mem_keptLines {c : Fin 16} {x : Nat × Line} {s : State} (m : x ∈ keptLines c s) : CachedCell c x.1 s := by
  obtain ⟨f, frame, inFrame⟩ := List.mem_flatMap.mp m
  obtain ⟨k, cell, line⟩ := List.mem_filterMap.mp inFrame
  obtain ⟨lt, valid⟩ := List.mem_filter.mp cell
  obtain ⟨p, place, own⟩ := Option.bind_eq_some_iff.mp line
  split at own
  next ch =>
    obtain rfl := Option.some.inj own
    exact ⟨f, frame, k, List.mem_range.mp lt, valid, p, place, ch, rfl⟩
  next => cases own

theorem CachedCell.lt {c : Fin 16} {l : Nat} {s : State} (h : CachedCell c l s) : l < 2 ^ 30 := by
  obtain ⟨f, -, k, -, -, p, place, -, rfl⟩ := h
  exact placeOf_lam_lt place

/-- FILL writes the all-zero line wherever no line of the queue cache stands. -/
theorem dramLine_zeroFill {c k : Fin 16} {l : Nat} (hl : l < 2 ^ 30) {s : State} (free : k = c → ¬ CachedCell c l s) : dramLine (zeroFill c s) k l = dramLine (dramClear c s) k l := by
  rw [zeroFill_eq]
  refine forAll_inv_mem (dramLine · k l) _ _ (blank c s) fun x m y => dramLine_setDram_ne x.2 y (cachedCell_of_mem_keptLines m).lt hl fun same => ?_
  obtain ⟨rfl, rfl⟩ := Prod.mk.inj same
  exact free rfl (cachedCell_of_mem_keptLines m)

/-- Beside the lines and the poison of its channel FILL changes nothing. -/
theorem zeroFill_inv {β : Type} (g : State → β) (c : Fin 16) (line : ∀ l x s, g (setDram c l x s) = g s) (s : State) : g (zeroFill c s) = g (blank c s) :=
  (congrArg g (zeroFill_eq c s)).trans (forAll_inv g _ _ _ fun _ _ => line _ _ _)

theorem zeroFill_chan (c : Fin 16) (s : State) : (zeroFill c s).chan c = { s.chan c with psnAll := false, psnTwin := false, psn := [] } :=
  (zeroFill_inv (·.chan c) c (fun l x s => chan_congr (setDram_chans c l x s) c) s).trans (updChan_chan c _ _)

end Sys2Proof.Proofs

/-! PROOF. A training starts, fails, and is held (11 R334, R335, R339). -/

namespace Sys2Proof.Proofs
open Sys2Proof Sys2Proof.Machine Sys2Proof.Laws

theorem sameStore_of_kept {s t : State} (kept : ∀ σ, keptStore s σ t) : sameStore s t := ⟨kept .dram, kept .wmem, kept .ix, kept .streams, kept .mans, kept .accts⟩

/-! ### The failure of a training -/

/-- A PHY's record without a training. -/
def sessionOver (y : PhyState) : PhyState := { y with trn := none, trnHold := false, trnEnd := false, sweep := false }

/-- A training has failed, and its event has not been sent yet (11 R335). -/
def trainFailed (c : Fin 16) (f : TrnFail) (s : State) : State :=
  let ended := updChan c (fun y => { y with restoring := false }) (updPhy c sessionOver s)
  let shown := fset (PHY c) PHY_TRN_STATUS_BUSY 0 (fset (PHY c) PHY_TRN_STATUS_FAIL 1 (fset (PHY c) PHY_TRN_STATUS_REASON f.1 (fset (PHY c) PHY_SWP_STATUS_BUSY 0 (setChState c 8 ended))))
  fset (PHY c) PHY_TRN_STATUS_DEV (f.2.1.getD 0) (fset (PHY c) PHY_TRN_STATUS_BIT (f.2.2.getD 0) shown)

theorem trainFail_eq (c : Fin 16) (f : TrnFail) (s : State) : ∃ x, trainFail c f s = emit "train_fail" x (trainFailed c f s) := ⟨_, rfl⟩

/-- The training of a channel in `s` has failed in `t` with a reason. -/
structure Failed (c : Fin 16) (reason : Nat) (s t : State) : Prop where
  state : chState t c = 8
  ended : (t.phy c).trn = none
  fail : fbit t (PHY c) PHY_TRN_STATUS_FAIL = true
  reason : fget t (PHY c) PHY_TRN_STATUS_REASON = reason % 16
  idle : fbit t (PHY c) PHY_TRN_STATUS_BUSY = false
  still : t.d8 = s.d8
  store : sameStore s t

theorem trainFailed_phys (c : Fin 16) (f : TrnFail) (s : State) : (trainFailed c f s).phys = (updPhy c sessionOver s).phys := by
  simp only [trainFailed, setChState, fset_phys, updChan_phys]

theorem trainFailed_d8 (c : Fin 16) (f : TrnFail) (s : State) : (trainFailed c f s).d8 = s.d8 := by
  simp only [trainFailed, setChState, fset_d8, updChan_d8, updPhy_d8]

theorem trainFail_failed (c : Fin 16) (f : TrnFail) (s : State) : Failed c f.1 s (trainFail c f s) := by
  have store : sameStore s (trainFail c f s) := sameStore_of_kept fun σ => trainFail_keeps (keptStore_closed s σ) c f s (keptStore_refl s σ)
  obtain ⟨x, e⟩ := trainFail_eq c f s
  have field : ∀ g, fget (trainFail c f s) (PHY c) g = fget (trainFailed c f s) (PHY c) g := fun g => (congrArg (fget · (PHY c) g) e).trans (fget_PHY_emit c g _ _ _)
  refine ⟨?_, ?_, ?_, ?_, ?_, ?_, store⟩
  · rw [e, chState_emit]
    simp only [trainFailed, chState_fset_PHY]
    exact chState_setChState c (by decide) _
  · rw [e, phy_congr (emit_phys _ _ _), phy_congr (trainFailed_phys c f s), updPhy_phy]
    rfl
  · rw [fbit, field]
    simp (disch := decide) only [trainFailed, fget_fset_apart, fget_fset]
    rfl
  · rw [field]
    simp (disch := decide) only [trainFailed, fget_fset_apart, fget_fset]
    rfl
  · rw [fbit, field]
    simp (disch := decide) only [trainFailed, fget_fset_apart, fget_fset]
    rfl
  · exact (congrArg State.d8 e).trans ((emit_d8 _ _ _).trans (trainFailed_d8 c f s))

/-- A training that runs out of time fails at that instant (11 R335, R339). -/
theorem trainAbort_failed (c : Fin 16) (reason : Nat) (s : State) : Failed c reason s (trainAbort c reason s) := trainFail_failed c (reason, none, none) s

/-! ### The start of a training -/

/-- A training has been opened at the rate of CHn_CTL (11 R334). -/
def trainOpened (c : Fin 16) (manual : Bool) (s : State) : State :=
  let x := updPhy c (fun y => { y with trn := some (s.ns, manual), trnManualAt := s.ns, trnHold := false, trnEnd := false, valid := false }) (setChState c 1 s)
  updChan c (fun y => { y with trnRate := rateCode x c }) x

/-- A training has started at RESET, and its channel's PLL is locked (11 R334, R339). -/
def trainStarted (c : Fin 16) (manual : Bool) (s : State) : State :=
  fsetBit GLB GLB_CLKSTAT_CH_LOCK c.val true (fset (PHY c) PHY_TRN_STATUS_BUSY 1 (fset (PHY c) PHY_TRN_STATUS_STEP 1 (trainOpened c manual s)))

theorem trainStarted_chState (c : Fin 16) (manual : Bool) (s : State) : chState (trainStarted c manual s) c = 1 := by
  have lock : ∀ x, chState (fsetBit GLB GLB_CLKSTAT_CH_LOCK c.val true x) c = chState x c := fun x => fget_CH_fset_low c _ (by decide) _ x
  unfold trainStarted
  rw [lock, chState_fset_PHY, chState_fset_PHY]
  exact chState_setChState c (by decide) s

theorem trainStarted_phy (c : Fin 16) (manual : Bool) (s : State) :
    (trainStarted c manual s).phy c = { s.phy c with trn := some (s.ns, manual), trnManualAt := s.ns, trnHold := false, trnEnd := false, valid := false } :=
  updPhy_phy c (fun y => { y with trn := some (s.ns, manual), trnManualAt := s.ns, trnHold := false, trnEnd := false, valid := false }) (setChState c 1 s)

theorem trainStarted_rate (c : Fin 16) (manual : Bool) (s : State) : ((trainStarted c manual s).chan c).trnRate = rateCode s c := by
  have rate : fget (setChState c 1 s) (CH c) CH_CTL_RATE = fget s (CH c) CH_CTL_RATE := fget_fset_apart _ (by decide) _ _
  have chan : (trainStarted c manual s).chan c = (trainOpened c manual s).chan c := rfl
  rw [chan, trainOpened, updChan_chan]
  show rateCode (setChState c 1 s) c = rateCode s c
  unfold rateCode
  rw [rate]

theorem fget_trainStarted (c : Fin 16) (f : Fld) (manual : Bool) (s : State) :
    fget (trainStarted c manual s) (PHY c) f = fget (fset (PHY c) PHY_TRN_STATUS_BUSY 1 (fset (PHY c) PHY_TRN_STATUS_STEP 1 (trainOpened c manual s))) (PHY c) f :=
  fget_PHY_fset_low c f (by decide) _ _

theorem trainStarted_step (c : Fin 16) (manual : Bool) (s : State) : fget (trainStarted c manual s) (PHY c) PHY_TRN_STATUS_STEP = 1 := by
  rw [fget_trainStarted]
  simp (disch := decide) only [fget_fset_apart, fget_fset]
  rfl

theorem trainStarted_busy (c : Fin 16) (manual : Bool) (s : State) : fbit (trainStarted c manual s) (PHY c) PHY_TRN_STATUS_BUSY = true := by
  rw [fbit, fget_trainStarted]
  exact fbit_fset_one _ _ _ (by decide) (by decide)

theorem trainStarted_lock (c : Fin 16) (manual : Bool) (s : State) : bitOf (fget (trainStarted c manual s) GLB GLB_CLKSTAT_CH_LOCK) c.val = true :=
  bitOf_fsetBit_set GLB GLB_CLKSTAT_CH_LOCK c.val _ (by decide) c.isLt

theorem trainStarted_store (c : Fin 16) (manual : Bool) (s : State) : sameStore s (trainStarted c manual s) := ⟨rfl, rfl, rfl, rfl, rfl, rfl⟩

/-! ### Commands -/

section
variable {c : Fin 16} {manual : Bool} {ans : List StepAns} {s : State}

theorem runVerb1_off (off : consoleOn s = false) (f : State → State × OutLn) : runVerb1 f s = s := by
  unfold runVerb1 runVerb
  rw [if_pos (by simp [off])]

theorem exec_trainStart (ready : verbReady s = true) (free : trainable s c = true) : exec (.trainStart c manual []) s =
    .next (answer [okLn ([("ch", .n c), ("state", .s "training")] ++ (if manual then [("step", .s "reset")] else []))] (trainStarted c manual s)) := by
  refine congrArg Host.Outcome.next ((runVerb1_ready ready _).trans ?_)
  rw [if_neg (by simp [free])]
  rfl

theorem exec_trainStart_refused (ready : verbReady s = true) (busy : trainable s c = false) : exec (.trainStart c manual ans) s =
    .next (answer [erLn 460 "training refused" [("ch", .n c), ("state", .s (chWord (chState s c)))]] s) := by
  refine congrArg Host.Outcome.next ((runVerb1_ready ready _).trans ?_)
  rw [if_pos (by simp [busy])]

/-- A session that was held goes on from IDENT (11 R339). -/
def trainResumed (c : Fin 16) (s : State) : State :=
  fset (PHY c) PHY_TRN_STATUS_STEP 4 (updPhy c (fun y => { y with trnHold := false, trnEnd := true, trn := some (s.ns, true) }) s)

theorem exec_trainEnd (ready : verbReady s = true) (hold : (s.phy c).trnHold = true) : exec (.trainEnd c []) s =
    .next (answer [okLn [("ch", .n c), ("state", .s "training")]] (trainResumed c s)) := by
  refine congrArg Host.Outcome.next ((runVerb1_ready ready _).trans ?_)
  rw [if_neg (by simp [hold])]
  rfl

theorem exec_trainEnd_refused (ready : verbReady s = true) (free : (s.phy c).trnHold = false) : exec (.trainEnd c ans) s =
    .next (answer [erLn 461 "helper refused" [("ch", .n c), ("state", .s (chWord (chState s c)))]] (wrRej c s)) := by
  refine congrArg Host.Outcome.next ((runVerb1_ready ready _).trans ?_)
  rw [if_pos (by simp [free])]

theorem exec_trainingStepTimeout {t0 : Nat} (session : (s.phy c).trn = some (t0, manual)) (hold : (s.phy c).trnHold = false) (step : fget s (PHY c) PHY_TRN_STATUS_STEP ≠ 15) (run : dtimeRuns s = true) :
    exec (.trainingStepTimeout c) s = .next (trainAbort c 11 (advanceToNs (t0 + 50000000) s)) := by
  refine congrArg Host.Outcome.next ?_
  rw [session]
  exact if_neg (by simp [hold, step, run])

theorem exec_trainingStepTimeout_none (off : (s.phy c).trn = none ∨ (s.phy c).trnHold = true ∨ fget s (PHY c) PHY_TRN_STATUS_STEP = 15 ∨ dtimeRuns s = false) :
    exec (.trainingStepTimeout c) s = .next s := by
  refine congrArg Host.Outcome.next ?_
  split
  next => rfl
  next t m session =>
    refine if_pos ?_
    rw [session] at off
    simpa using off

theorem exec_manualTrainingTimeout {t0 : Nat} (session : (s.phy c).trn = some (t0, true)) (open_ : (s.phy c).trnEnd = false) (run : dtimeRuns s = true) :
    exec (.manualTrainingTimeout c) s = .next (trainAbort c 11 (advanceToNs ((s.phy c).trnManualAt + 10000000000) s)) := by
  refine congrArg Host.Outcome.next ?_
  rw [session]
  exact if_neg (by simp [open_, run])

theorem exec_manualTrainingTimeout_none (off : (s.phy c).trn.map (fun x => x.2) ≠ some true ∨ (s.phy c).trnEnd = true ∨ dtimeRuns s = false) :
    exec (.manualTrainingTimeout c) s = .next s := by
  refine congrArg Host.Outcome.next ?_
  split
  next t session =>
    refine if_pos ?_
    rw [session] at off
    simpa using off
  next => rfl

/-- The failure of a training that has run out of time at an instant. -/
theorem Failed.of_advance {reason n : Nat} {t : State} (h : Failed c reason (advanceToNs n s) t) : t.d8 = firstCycle8 s (8 * n) ∧ sameStore s t :=
  ⟨h.still.trans (advanceToNs_d8 n s), h.store⟩

end

end Sys2Proof.Proofs

/-! PROOF. A step of a training that passes leaves the time, the memory and the channels alone (11 R334, R338). -/

namespace Sys2Proof.Proofs
open Sys2Proof Sys2Proof.Machine Sys2Proof.Laws

/-! ### What a step's effect leaves alone -/

/-- What a training leaves alone until its end: the time, the channels with their states, and the DRAM. -/
def stepAside (c : Fin 16) (s : State) : Nat × Vector ChanState 16 × List Host.Cell × Nat := (s.d8, s.chans, s.dram, chState s c)

section
variable (c : Fin 16)

theorem stepAside_ixPut (i lo w v : Nat) (s : State) : stepAside c (ixPut (PHY c) i lo w v s) = stepAside c s := rfl

theorem stepAside_fset_PHY (f : Fld) (v : Nat) (s : State) : stepAside c (fset (PHY c) f v s) = stepAside c s := by
  unfold stepAside
  rw [chState_fset_PHY]
  rfl

theorem stepAside_fset_CH {f : Fld} (ne : CH_STATUS_STATE.off ≠ f.off) (v : Nat) (s : State) : stepAside c (fset (CH c) f v s) = stepAside c s := by
  unfold stepAside
  rw [chState_fset_other c ne]
  rfl

theorem stepAside_updPhy (f : PhyState → PhyState) (s : State) : stepAside c (updPhy c f s) = stepAside c s := rfl

theorem stepAside_applyEyes (l : List Eye) (u0 n base lo w : Nat) (s : State) : stepAside c (applyEyes c l u0 n base lo w s) = stepAside c s := by
  refine forAll_inv _ _ _ _ fun r x => forAll_inv _ _ _ _ fun k y => ?_
  split
  · split
    · exact stepAside_ixPut c _ _ _ _ y
    · rfl
  · rfl

theorem stepAside_recordEyes (l : List Eye) (lo : Nat) (s : State) : stepAside c (recordEyes c l lo s) = stepAside c s := by
  refine forAll_inv _ _ _ _ fun r x => forAll_inv _ _ _ _ fun k y => ?_
  split
  · exact stepAside_ixPut c _ _ _ _ y
  · rfl

theorem stepAside_applyFound (l : List (Fin 2 × Nat × Option Nat)) (base w : Nat) (s : State) : stepAside c (applyFound c l base w s) = stepAside c s := by
  refine forAll_inv _ _ _ _ fun x y => ?_
  split
  · split
    · exact stepAside_ixPut c _ _ _ _ y
    · rfl
  · rfl

theorem stepAside_identEffect (l : List DevId) (s : State) : stepAside c (identEffect c l s) = stepAside c s := by
  unfold identEffect
  rw [stepAside_updPhy, stepAside_fset_CH c (by decide), stepAside_fset_CH c (by decide), stepAside_fset_CH c (by decide)]

theorem stepAside_adaptDfe (s : State) : stepAside c (adaptDfe c s) = stepAside c s := by
  unfold adaptDfe
  split
  · rfl
  · exact forAll_inv _ _ _ _ fun r x => forAll_inv _ _ _ _ fun p y => rfl

theorem stepAside_putTaps (l : List Eye) (s : State) : stepAside c (putTaps c l s) = stepAside c s := stepAside_updPhy c _ s

theorem stepAside_stepEffect (k : Nat) (a : StepAns) (s : State) : stepAside c (stepEffect c k a s) = stepAside c s := by
  unfold stepEffect
  split
  case h_1 =>
    refine forAll_inv _ _ _ _ fun i x => ?_
    split
    · exact stepAside_ixPut c _ _ _ _ x
    · rfl
  case h_2 => exact stepAside_updPhy c _ s
  case h_3 => exact stepAside_identEffect c _ s
  case h_4 | h_5 => exact stepAside_applyFound c _ _ _ s
  case h_6 => rw [stepAside_adaptDfe, stepAside_recordEyes, stepAside_applyEyes]
  case h_7 | h_9 => rw [stepAside_recordEyes, stepAside_applyEyes, stepAside_applyEyes]
  case h_8 => rw [stepAside_recordEyes, stepAside_applyEyes]
  case h_10 => rw [stepAside_putTaps, stepAside_recordEyes, stepAside_applyEyes, stepAside_applyEyes]
  case h_11 =>
    refine forAll_inv _ _ _ _ fun x y => ?_
    split
    · exact stepAside_ixPut c _ _ _ _ y
    · rfl
  case h_12 => simp only [stepAside_fset_PHY]
  case h_13 => exact stepAside_updPhy c _ s
  case h_14 => rfl

end

/-! ### One answer to a step -/

/-- What follows the effect of a step `k` that has passed: the hold of a manual session, the end, or the next step (11 R337, R339). -/
def stepOver (c : Fin 16) (k : Nat) (manual : Bool) (u : State) : State :=
  if manual ∧ k = 1 ∧ !(u.phy c).trnEnd then updPhy c (fun y => { y with trnHold := true }) u
  else match stepNext k manual (u.chan c).restoring with
    | none => trainDone c u
    | some k' => fset (PHY c) PHY_TRN_STATUS_STEP k' (updPhy c (fun y => { y with trn := some (u.ns, manual) }) u)

section
variable {c : Fin 16} {t0 : Nat} {manual : Bool} {a : StepAns} {s : State}

theorem exec_trainingComplete (run : s.pwr.mode = .run) : exec (.trainingComplete c [a]) s = .next (trainStep c a s) := congrArg Host.Outcome.next (if_pos run)

theorem exec_trainingComplete_none {ans : List StepAns} (off : s.pwr.mode ≠ .run ∨ (s.phy c).trn = none) : exec (.trainingComplete c ans) s = .next s := by
  have still : ∀ b, (s.phy c).trn = none → trainStep c b s = s := fun b e => by unfold trainStep; rw [e]
  refine congrArg Host.Outcome.next ?_
  split
  next run =>
    have out := off.resolve_left (not_not.mpr run)
    unfold trainRun forAll
    induction ans with
    | nil => rfl
    | cons b r ih => rw [List.foldl_cons, still b out, ih]
  next => rfl

section
variable (session : (s.phy c).trn = some (t0, manual)) (free : (s.phy c).trnHold = false)
include session free

/-- A step that fails makes the channel FAILED. -/
theorem trainStep_fail {f : TrnFail} (verdict : stepVerdict s c (fget s (PHY c) PHY_TRN_STATUS_STEP) a = some (some f)) : trainStep c a s = trainFail c f s := by
  unfold trainStep
  rw [session]
  simp only [free, verdict, Bool.false_eq_true, if_false]

/-- A step that passes has its effect, and the training goes on from there. -/
theorem trainStep_pass (verdict : stepVerdict s c (fget s (PHY c) PHY_TRN_STATUS_STEP) a = some none) :
    trainStep c a s = stepOver c (fget s (PHY c) PHY_TRN_STATUS_STEP) manual (stepEffect c (fget s (PHY c) PHY_TRN_STATUS_STEP) a s) := by
  unfold trainStep
  rw [session]
  simp only [free, verdict, Bool.false_eq_true, if_false]
  rfl

/-- A step that passes moves to the next. -/
theorem trainStep_next {k : Nat} (step : fget s (PHY c) PHY_TRN_STATUS_STEP = k) (verdict : stepVerdict s c k a = some none) (below : k < 15) (auto : ¬(manual = true ∧ (k = 1 ∨ k = 4)))
    (whole : ¬((s.chan c).restoring = true ∧ k = 14)) :
    trainStep c a s = fset (PHY c) PHY_TRN_STATUS_STEP (k + 1) (updPhy c (fun y => { y with trn := some (s.ns, manual) }) (stepEffect c k a s)) := by
  have aside := stepAside_stepEffect c k a s
  have d8 : (stepEffect c k a s).d8 = s.d8 := congrArg (·.1) aside
  have chans : (stepEffect c k a s).chans = s.chans := congrArg (·.2.1) aside
  have restoring : ((stepEffect c k a s).chan c).restoring = (s.chan c).restoring := congrArg ChanState.restoring (chan_congr chans c)
  have now : (stepEffect c k a s).ns = s.ns := congrArg (· / 8) d8
  have next : stepNext k manual (s.chan c).restoring = some (k + 1) := by
    unfold stepNext
    rw [if_neg fun h => auto ⟨h.1, .inr h.2⟩, if_neg]
    rintro (h | h)
    · omega
    · exact whole h
  rw [trainStep_pass session free (step.symm ▸ verdict)]
  unfold stepOver
  rw [step, if_neg fun h => auto ⟨h.1, .inl h.2.1⟩, restoring, next]
  dsimp only
  rw [now]

end

/-- A manual session is held after RESET. -/
theorem trainStep_hold (session : (s.phy c).trn = some (t0, true)) (free : (s.phy c).trnHold = false) (open_ : (s.phy c).trnEnd = false) (step : fget s (PHY c) PHY_TRN_STATUS_STEP = 1) :
    trainStep c (.reset true) s = updPhy c (fun y => { y with trnHold := true }) s := by
  have verdict : stepVerdict s c (fget s (PHY c) PHY_TRN_STATUS_STEP) (.reset true) = some none := by
    rw [step]
    rfl
  rw [trainStep_pass session free verdict, step]
  exact if_pos ⟨rfl, rfl, by simpa [stepEffect] using open_⟩

end

end Sys2Proof.Proofs

/-! PROOF. FILL ends a training: the channel is READY, and its lines are zero but for those of the queue cache (11 R337, log 24). -/

namespace Sys2Proof.Proofs
open Sys2Proof Sys2Proof.Machine Sys2Proof.Laws

/-- The trained values are kept in the settings file and beside it, and nowhere else. -/
theorem keepTrained_inv {β : Type} (g : State → β) (c : Fin 16) (word : ∀ i < 0x800, ∀ w x, g (ixSet (PHY c) i w x) = g x)
    (trained : ∀ (v : PhyState → List (Nat × Nat)) x, g (updPhy c (fun y => { y with rxTrained := v y }) x) = g x) (s : State) : g (keepTrained c s) = g s := by
  refine forAll_inv_mem g _ _ _ fun r rank x => ?_
  have ranks : r < 2 := (List.mem_range.mp rank).trans_le (by unfold geoRanks; split <;> decide)
  have devs : ∀ y, geoDevs y ≤ 18 := fun y => by unfold geoDevs; split <;> decide
  refine (forAll_inv_mem g _ _ _ fun p pair y => word _ ?_ _ y).trans (forAll_inv_mem g _ _ _ fun b bit y => (trained _ _).trans (word _ ?_ _ y))
  · have := (List.mem_range.mp pair).trans_le (devs _)
    unfold rIx
    omega
  · have := List.mem_range.mp bit
    unfold rIx
    omega

/-- A training has succeeded: its session is over and its PHY holds trained values. -/
def sessionWon (y : PhyState) : PhyState := { y with trn := none, trnHold := false, trnEnd := false, sweep := false, valid := true }

/-- A training has succeeded, and its channel is not READY yet (11 R337). -/
def trainingOver (c : Fin 16) (s : State) : State :=
  fset (PHY c) PHY_SWP_STATUS_BUSY 0 (fset (PHY c) PHY_TRN_STATUS_BUSY 0 (fset (PHY c) PHY_TRN_STATUS_DONE 1 (keepTrained c (updPhy c sessionWon s))))

section
variable (c : Fin 16) (s : State)

theorem trainingOver_chans : (trainingOver c s).chans = s.chans := keepTrained_inv (·.chans) c (fun _ _ _ _ => rfl) (fun _ _ => rfl) _

theorem trainingOver_d8 : (trainingOver c s).d8 = s.d8 := keepTrained_inv (·.d8) c (fun _ _ _ _ => rfl) (fun _ _ => rfl) _

theorem trainingOver_dram : (trainingOver c s).dram = s.dram := keepTrained_inv (·.dram) c (fun _ _ _ _ => rfl) (fun _ _ => rfl) _

theorem trainingOver_que : (trainingOver c s).que = s.que := keepTrained_inv (·.que) c (fun _ _ _ _ => rfl) (fun _ _ => rfl) _

theorem trainingOver_session : ((trainingOver c s).phy c).trn = none ∧ ((trainingOver c s).phy c).valid = true := by
  have trained : ∀ (v : PhyState → List (Nat × Nat)) x, (((updPhy c (fun y => { y with rxTrained := v y }) x).phy c).trn, ((updPhy c (fun y => { y with rxTrained := v y }) x).phy c).valid) = ((x.phy c).trn, (x.phy c).valid) := fun v x => by
    rw [updPhy_phy]
  have kept : (((trainingOver c s).phy c).trn, ((trainingOver c s).phy c).valid) = (((updPhy c sessionWon s).phy c).trn, ((updPhy c sessionWon s).phy c).valid) :=
    keepTrained_inv (fun x => ((x.phy c).trn, (x.phy c).valid)) c (fun _ _ _ _ => rfl) trained (updPhy c sessionWon s)
  rw [updPhy_phy] at kept
  exact Prod.mk.inj kept

/-- Registers below those of the PHYs stay. -/
theorem rg_trainingOver {a : Nat} (low : a < 0x200000) : rg (trainingOver c s) a = rg s a := by
  have apart : ∀ f v x, rg (fset (PHY c) f v x) a = rg x a := fun f v x => rg_fset_ne _ _ _ _ (PHY_ne_low c f.off low).symm
  unfold trainingOver
  rw [apart, apart, apart]
  exact keepTrained_inv (rg · a) c (fun _ _ _ _ => rfl) (fun _ _ => rfl) _

theorem chMask_trainingOver {k : Nat} (lt : k < 4) : chMask (trainingOver c s) k = chMask s k := by
  have other : PHY c ≠ GLB := PHY_ne_low c 0 (by decide)
  have word : ∀ j < 16777216, ixGet (trainingOver c s) GLB j = ixGet s GLB j := fun j hj =>
    keepTrained_inv (ixGet · GLB j) c (fun i hi w x => ixGet_ixSet_block other.symm hj (by omega) w x) (fun _ _ => rfl) _
  unfold chMask
  rw [word _ (by omega), word _ (by omega)]

theorem poolWords_low {a : Nat} (m : a ∈ poolWords) : a < 0x200000 :=
  (by decide : ∀ a ∈ poolWords, a < 0x200000) a m

/-- The cells that the queue cache holds have their places where they had them. -/
theorem cachedCell_trainingOver (l : Nat) : CachedCell c l (trainingOver c s) ↔ CachedCell c l s := by
  have words : ∀ a ∈ poolWords, rg (trainingOver c s) a = rg s a := fun a m => rg_trainingOver c s (poolWords_low m)
  have places : placeOf (trainingOver c s) = placeOf s := placeOf_congr words fun k lt => chMask_trainingOver c s lt
  have base : poolBase (trainingOver c s) = poolBase s := by
    unfold poolBase fget
    rw [words _ (by decide), words _ (by decide)]
  have cell : cellLineNo (trainingOver c s) = cellLineNo s := by
    funext b k
    unfold cellLineNo
    rw [base]
  unfold CachedCell
  rw [trainingOver_que, places, cell]

end

/-! ### READY -/

/-- The channel is READY after its FILL, and its event has not been sent yet. -/
def trainingFilled (c : Fin 16) (s : State) : State := setChState c 2 (zeroFill c (trainingOver c s))

theorem trainDone_eq {c : Fin 16} {s : State} (whole : (s.chan c).restoring = false) : ∃ x, trainDone c s = emit "train_done" x (trainingFilled c s) := by
  have same : ((trainingOver c s).chan c).restoring = false := (congrArg ChanState.restoring (chan_congr (trainingOver_chans c s) c)).trans whole
  exact ⟨_, congrArg (fun u => emit "train_done" [("ch", .n c), ("rate", .n (chMts u c)), ("rd_min", .n (u.phy c).rdMin), ("wr_min", .n (u.phy c).wrMin)] u) (if_neg (Bool.eq_false_iff.mp same))⟩

section
variable {c : Fin 16} {s : State} (whole : (s.chan c).restoring = false)
include whole

theorem chState_trainDone : chState (trainDone c s) c = 2 := by
  obtain ⟨x, e⟩ := trainDone_eq whole
  rw [e, chState_emit]
  exact chState_setChState c (by decide) _

theorem trainDone_d8 : (trainDone c s).d8 = s.d8 := by
  obtain ⟨x, e⟩ := trainDone_eq whole
  rw [e, emit_d8]
  exact (zeroFill_inv (·.d8) c (fun l x s => setDram_d8 c l x s) _).trans (trainingOver_d8 c s)

theorem trainDone_session : ((trainDone c s).phy c).trn = none ∧ ((trainDone c s).phy c).valid = true := by
  obtain ⟨x, e⟩ := trainDone_eq whole
  have phys : (trainDone c s).phys = (trainingOver c s).phys := (congrArg State.phys e).trans ((emit_phys _ _ _).trans (zeroFill_inv (·.phys) c (fun l x s => setDram_phys c l x s) _))
  rw [phy_congr phys]
  exact trainingOver_session c s

theorem fget_PHY_trainDone (f : Fld) : fget (trainDone c s) (PHY c) f = fget (trainingOver c s) (PHY c) f := by
  obtain ⟨x, e⟩ := trainDone_eq whole
  have fill : (zeroFill c (trainingOver c s)).regs = (trainingOver c s).regs := zeroFill_inv (·.regs) c (fun l x s => setDram_regs c l x s) _
  rw [e, fget_PHY_emit]
  exact (fget_fset_ne _ _ _ _ _ _ (CH_ne_PHY c c (by decide) _).symm).trans (fget_congr fill _ _)

theorem dramPsn_trainDone (l : Nat) : dramPsn (trainDone c s) c l = false := by
  obtain ⟨x, e⟩ := trainDone_eq whole
  have chan : (trainDone c s).chan c = { (trainingOver c s).chan c with psnAll := false, psnTwin := false, psn := [] } :=
    (congrArg (State.chan · c) e).trans ((chan_congr (emit_chans _ _ _) c).trans (zeroFill_chan c _))
  unfold dramPsn psnBase
  rw [chan]
  simp

theorem dramLine_trainDone (k : Fin 16) (l : Nat) : dramLine (trainDone c s) k l = dramLine (zeroFill c (trainingOver c s)) k l := by
  obtain ⟨x, e⟩ := trainDone_eq whole
  rw [e]
  exact dramLine_congr (emit_dram _ _ _) k l

/-- FILL leaves the all-zero line wherever no cell of the queue cache stands. -/
theorem dramLine_trainDone_filled {l : Nat} (hl : l < 2 ^ 30) (free : ¬ CachedCell c l s) : dramLine (trainDone c s) c l = 0 := by
  rw [dramLine_trainDone whole, dramLine_zeroFill hl fun _ h => free ((cachedCell_trainingOver c s l).mp h)]
  exact dramLine_dramClear c hl _

theorem dramLine_trainDone_ne (wf : Memory.wf s.dram) {k : Fin 16} (ne : k ≠ c) {l : Nat} (hl : l < 2 ^ 30) : dramLine (trainDone c s) k l = dramLine s k l := by
  have dram := trainingOver_dram c s
  rw [dramLine_trainDone whole, dramLine_zeroFill hl fun same => absurd same ne, dramLine_dramClear_ne ne hl (dram.symm ▸ wf)]
  exact dramLine_congr dram k l

end

/-- The answer to FILL ends a training that the verb ran. -/
theorem trainStep_fill {c : Fin 16} {t0 : Nat} {s : State} (session : (s.phy c).trn = some (t0, false)) (free : (s.phy c).trnHold = false) (step : fget s (PHY c) PHY_TRN_STATUS_STEP = 15) :
    trainStep c .fill s = trainDone c s := by
  have verdict : stepVerdict s c (fget s (PHY c) PHY_TRN_STATUS_STEP) .fill = some none := by
    rw [step]
    rfl
  rw [trainStep_pass session free verdict, step]
  rfl

end Sys2Proof.Proofs

/-! PROOF. Training (11 R334, R335, R337, R339, R350). -/

namespace Sys2Proof.Proofs
open Sys2Proof Sys2Proof.Machine Sys2Proof.Laws

/-- Settles O37: a step's effect keeps to the channel's PHY, a failure is `trainFail`, and FILL clears the channel's lines and writes back only those of the queue cache. -/
theorem trainingRuns : Obligations.TrainingRuns := by
  unfold Obligations.TrainingRuns
  refine ⟨?start, ?refused, ?off, ?resume, ?stays, ?step, ?hold, ?fail, ?fill, ?idle, ?late, ?inTime, ?lateManual, ?inTimeManual⟩
  case start =>
    intro c manual s ready free
    refine ⟨_, exec_trainStart ready free, answer_ans _ _, ?_, ?_, ?_, ?_, ?_, ?_, ?_, ?_, ?_⟩
    · rw [chState_answer, trainStarted_chState]
    · rw [phy_congr (answer_phys _ _), trainStarted_phy]
    · rw [phy_congr (answer_phys _ _), trainStarted_phy]
    · rw [fget_PHY_answer, trainStarted_step]
    · rw [fbit, fget_PHY_answer]
      exact trainStarted_busy c manual s
    · rw [chan_congr (answer_chans _ _), trainStarted_rate]
    · rw [fget_answer (by decide)]
      exact trainStarted_lock c manual s
    · rw [answer_d8]
      rfl
    · exact sameStore_trans (trainStarted_store c manual s) (sameStore_answer _ _)
  case refused =>
    intro c manual ans s ready busy
    exact ⟨_, exec_trainStart_refused ready busy, answered_answer_self _ _⟩
  case off =>
    intro c manual ans s off
    exact ⟨congrArg Host.Outcome.next (runVerb1_off off _), congrArg Host.Outcome.next (runVerb1_off off _)⟩
  case resume =>
    intro c s ready hold
    have phy : (trainResumed c s).phy c = { s.phy c with trnHold := false, trnEnd := true, trn := some (s.ns, true) } := by
      rw [trainResumed, phy_congr (fset_phys _ _ _ _), updPhy_phy]
    refine ⟨_, exec_trainEnd ready hold, answer_ans _ _, ?_, ?_, ?_, ?_, ?_, ?_⟩
    · rw [phy_congr (answer_phys _ _), phy]
    · rw [phy_congr (answer_phys _ _), phy]
    · rw [phy_congr (answer_phys _ _), phy]
    · rw [fget_PHY_answer]
      exact fget_fset _ _ _ _ (by decide)
    · rw [answer_d8]
      rfl
    · exact sameStore_trans ⟨rfl, rfl, rfl, rfl, rfl, rfl⟩ (sameStore_answer _ _)
  case stays =>
    intro c ans s ready free
    refine ⟨_, exec_trainEnd_refused ready free, answer_ans _ _, ?_, ?_, ?_, ?_⟩
    · rw [fbit, fget_PHY_answer]
      exact fbit_fset_one _ _ _ (by decide) (by decide)
    · exact answer_phys _ _
    · exact answer_d8 _ _
    · exact sameStore_trans ⟨rfl, rfl, rfl, rfl, rfl, rfl⟩ (sameStore_answer _ _)
  case step =>
    intro c k t0 manual a s run session free step verdict below auto whole
    have e := exec_trainingComplete (c := c) (a := a) run
    have next := trainStep_next session free step verdict below auto whole
    have aside : stepAside c (trainStep c a s) = stepAside c s := by
      rw [next, stepAside_fset_PHY, stepAside_updPhy, stepAside_stepEffect]
    refine ⟨_, e, ?_, ?_, congrArg (·.2.2.2) aside, congrArg (·.1) aside, congrArg (·.2.2.1) aside, exec_wmem e (by simp [stores]), exec_streams e (by simp [stores])⟩
    · rw [next, fget_fset _ _ _ _ (by decide)]
      exact Nat.mod_eq_of_lt (show k + 1 < 16 by omega)
    · rw [next, phy_congr (fset_phys _ _ _ _), updPhy_phy]
  case hold =>
    intro c t0 s run session free open_ step
    refine ⟨_, exec_trainingComplete run, ?_, ?_⟩ <;> rw [trainStep_hold session free open_ step]
    · rw [updPhy_phy]
    · exact ⟨rfl, rfl, rfl, rfl, rfl, rfl, rfl, rfl⟩
  case fail =>
    intro c t0 manual a f s run session free verdict
    have failed := trainFail_failed c f s
    rw [← trainStep_fail session free verdict] at failed
    exact ⟨_, exec_trainingComplete run, failed.state, failed.ended, failed.fail, failed.reason, failed.idle, failed.still, failed.store⟩
  case fill =>
    intro c t0 s run session free step whole
    have e := exec_trainingComplete (c := c) (a := .fill) run
    have done := trainStep_fill session free step
    have wmem := exec_wmem e (by simp [stores])
    have streams := exec_streams e (by simp [stores])
    rw [done] at e wmem streams
    obtain ⟨ended, valid⟩ := trainDone_session whole
    refine ⟨_, e, chState_trainDone whole, ended, valid, ?_, ?_, dramPsn_trainDone whole, ?_, ?_, trainDone_d8 whole, wmem, streams⟩
    · rw [fbit, fget_PHY_trainDone whole]
      simp (disch := decide) only [trainingOver, fget_fset_apart, fget_fset]
      rfl
    · rw [fbit, fget_PHY_trainDone whole]
      simp (disch := decide) only [trainingOver, fget_fset_apart, fget_fset]
      rfl
    · intro l hl free
      refine dramLine_trainDone_filled whole hl ?_
      rintro ⟨f, frame, k, lt, valid, p, place, ch, lam⟩
      exact free f frame k lt valid p place ch lam
    · intro wf k l ne hl
      exact dramLine_trainDone_ne whole wf ne hl
  case idle =>
    intro c ans s off
    exact exec_trainingComplete_none off
  case late =>
    intro c t0 manual s session free step run
    have failed := trainAbort_failed c 11 (advanceToNs (t0 + 50000000) s)
    obtain ⟨d8, store⟩ := failed.of_advance
    exact ⟨_, exec_trainingStepTimeout session free step run, failed.state, failed.ended, failed.reason, d8, store⟩
  case inTime =>
    intro c s off
    exact exec_trainingStepTimeout_none off
  case lateManual =>
    intro c t0 s session open_ run
    have failed := trainAbort_failed c 11 (advanceToNs ((s.phy c).trnManualAt + 10000000000) s)
    obtain ⟨d8, store⟩ := failed.of_advance
    exact ⟨_, exec_manualTrainingTimeout session open_ run, failed.state, failed.ended, failed.reason, d8, store⟩
  case inTimeManual =>
    intro c s off
    exact exec_manualTrainingTimeout_none off

end Sys2Proof.Proofs

/-! PROOF. A sweep starts (11 R331, R333, R350). -/

namespace Sys2Proof.Proofs
open Sys2Proof Sys2Proof.Machine Sys2Proof.Laws

theorem sameStore_breakPair (s : State) : sameStore s (breakPair s) := by simp [sameStore]

theorem sameStore_wrRej (c : Fin 16) (s : State) : sameStore s (wrRej c s) := ⟨rfl, rfl, rfl, rfl, rfl, rfl⟩

theorem fbit_wrRej (c : Fin 16) (s : State) : fbit (wrRej c s) (PHY c) PHY_STATUS_WR_REJ = true := fbit_fset_one _ _ _ (by decide) (by decide)

theorem helperOn_iff {c : Fin 16} {s : State} : helperOn s c = true ↔ chState s c = 1 := beq_iff_eq

theorem helperOn_breakPair (c : Fin 16) (s : State) : helperOn (breakPair s) c = helperOn s c := congrArg (· == 1) (chState_breakPair c s)

/-! ### The register form -/

/-- A sweep runs. -/
def sweepBegun (c : Fin 16) (s : State) : State := fset (PHY c) PHY_SWP_STATUS_BUSY 1 (updPhy c (fun y => { y with sweep := true }) s)

theorem sweepStart_on {c : Fin 16} {s : State} (training : chState s c = 1) : sweepStart c s = sweepBegun c s := if_pos (helperOn_iff.mpr training)

theorem sweepStart_off {c : Fin 16} {s : State} (other : chState s c ≠ 1) : sweepStart c s = wrRej c s := if_neg fun h => other (helperOn_iff.mp h)

theorem sweepBegun_sweep (c : Fin 16) (s : State) : ((sweepBegun c s).phy c).sweep = true := by
  rw [sweepBegun, phy_congr (fset_phys _ _ _ _), updPhy_phy]

theorem sweepBegun_busy (c : Fin 16) (s : State) : fbit (sweepBegun c s) (PHY c) PHY_SWP_STATUS_BUSY = true := fbit_fset_one _ _ _ (by decide) (by decide)

section
variable {c : Fin 16} {s : State} (on : blockOn s (PHY c) = true)
include on

theorem exec_sweepStart_register (training : chState s c = 1) : exec (.sweepStart c none) s = .next (sweepBegun c (breakPair s)) :=
  congrArg Host.Outcome.next ((busWr_on on _).trans (sweepStart_on ((chState_breakPair c s).trans training)))

theorem exec_sweepStart_rejected (other : chState s c ≠ 1) : exec (.sweepStart c none) s = .next (wrRej c (breakPair s)) :=
  congrArg Host.Outcome.next ((busWr_on on _).trans (sweepStart_off fun h => other ((chState_breakPair c s).symm.trans h)))

theorem exec_compareClear (training : chState s c = 1) : exec (.compareClear c) s = .next (compareClear c (breakPair s)) :=
  congrArg Host.Outcome.next ((busWr_on on _).trans (if_pos ((helperOn_breakPair c s).trans (helperOn_iff.mpr training))))

theorem exec_compareClear_rejected (other : chState s c ≠ 1) : exec (.compareClear c) s = .next (wrRej c (breakPair s)) :=
  congrArg Host.Outcome.next ((busWr_on on _).trans (if_neg fun h => other (helperOn_iff.mp ((helperOn_breakPair c s).symm.trans h))))

end

/-! ### The verb's form -/

/-- The sweep registers hold a line's operands. -/
def sweepAsked (c : Fin 16) (f : SweepForm) (s : State) : State :=
  let asked := fset (PHY c) PHY_SWP_CTL_CTRL f.ctrl (fset (PHY c) PHY_SWP_CTL_RANK f.rank (fset (PHY c) PHY_SWP_CTL_SRC f.src (fsetB (PHY c) PHY_SWP_CTL_APPLY f.app s)))
  fset (PHY c) PHY_SWP_RANGE_FIRST f.first (fset (PHY c) PHY_SWP_RANGE_LAST f.last (fset (PHY c) PHY_SWP_STEP_STEP f.step (fset (PHY c) PHY_SWP_CNT_BURSTS f.bursts asked)))

/-- The console's line waits for a sweep. -/
def sweepAwaited (c : Fin 16) (s : State) : State := { s with con := { s.con with wait := some (.sweep c) } }

section
variable (c : Fin 16) (s : State)

theorem sweepAwaited_con : (sweepAwaited c s).con = { s.con with wait := some (.sweep c) } := rfl
theorem sweepAwaited_regs : (sweepAwaited c s).regs = s.regs := rfl
theorem sweepAwaited_phys : (sweepAwaited c s).phys = s.phys := rfl
theorem sweepAwaited_d8 : (sweepAwaited c s).d8 = s.d8 := rfl

end

theorem chState_sweepAsked (c : Fin 16) (f : SweepForm) (s : State) : chState (sweepAsked c f s) c = chState s c := by simp only [sweepAsked, fsetB, chState_fset_PHY]

theorem sweepVerb_on {c : Fin 16} {s : State} (f : SweepForm) (training : chState s c = 1) : sweepVerb c f s = sweepAwaited c (sweepBegun c (sweepAsked c f s)) :=
  congrArg (sweepAwaited c) (sweepStart_on ((chState_sweepAsked c f s).trans training))

theorem fget_sweepVerb {c : Fin 16} {s : State} (f : SweepForm) {g : Fld} (ne : Apart g PHY_SWP_STATUS_BUSY) (training : chState s c = 1) : fget (sweepVerb c f s) (PHY c) g = fget (sweepAsked c f s) (PHY c) g := by
  rw [sweepVerb_on f training, fget_congr (sweepAwaited_regs c _), sweepBegun, fget_fset_apart _ ne, fget_congr (updPhy_regs _ _ _)]

/-- The line waits, and the sweep runs. -/
theorem sweepVerb_state {c : Fin 16} {s : State} (f : SweepForm) (training : chState s c = 1) :
    (sweepVerb c f s).con.wait = some (.sweep c) ∧ (sweepVerb c f s).con.ans = s.con.ans ∧ ((sweepVerb c f s).phy c).sweep = true ∧ (sweepVerb c f s).d8 = s.d8 := by
  have con : (sweepBegun c (sweepAsked c f s)).con = s.con := by simp only [sweepBegun, sweepAsked, fsetB, fset_con, updPhy_con]
  have d8 : (sweepBegun c (sweepAsked c f s)).d8 = s.d8 := by simp only [sweepBegun, sweepAsked, fsetB, fset_d8, updPhy_d8]
  rw [sweepVerb_on f training, sweepAwaited_con, con, phy_congr (sweepAwaited_phys c _), sweepAwaited_d8]
  exact ⟨rfl, rfl, sweepBegun_sweep c _, d8⟩

theorem sweepVerb_busy {c : Fin 16} {s : State} (f : SweepForm) (training : chState s c = 1) : fbit (sweepVerb c f s) (PHY c) PHY_SWP_STATUS_BUSY = true := by
  rw [sweepVerb_on f training, fbit_congr (sweepAwaited_regs c _)]
  exact sweepBegun_busy c _

section
variable {c : Fin 16} {s : State} (f : SweepForm) (training : chState s c = 1)
include training

theorem sweepVerb_ctrl : fget (sweepVerb c f s) (PHY c) PHY_SWP_CTL_CTRL = f.ctrl % 2 ^ 4 := by
  rw [fget_sweepVerb f (by decide) training]
  simp (disch := decide) only [sweepAsked, fget_fset_apart, fget_fset]
  rfl

theorem sweepVerb_rank : fget (sweepVerb c f s) (PHY c) PHY_SWP_CTL_RANK = f.rank % 2 ^ 1 := by
  rw [fget_sweepVerb f (by decide) training]
  simp (disch := decide) only [sweepAsked, fget_fset_apart, fget_fset]
  rfl

theorem sweepVerb_first : fget (sweepVerb c f s) (PHY c) PHY_SWP_RANGE_FIRST = f.first % 2 ^ 14 := by
  rw [fget_sweepVerb f (by decide) training]
  simp (disch := decide) only [sweepAsked, fget_fset]
  rfl

theorem sweepVerb_last : fget (sweepVerb c f s) (PHY c) PHY_SWP_RANGE_LAST = f.last % 2 ^ 14 := by
  rw [fget_sweepVerb f (by decide) training]
  simp (disch := decide) only [sweepAsked, fget_fset_apart, fget_fset]
  rfl

theorem sweepVerb_step : fget (sweepVerb c f s) (PHY c) PHY_SWP_STEP_STEP = f.step % 2 ^ 6 := by
  rw [fget_sweepVerb f (by decide) training]
  simp (disch := decide) only [sweepAsked, fget_fset_apart, fget_fset]
  rfl

theorem sweepVerb_bursts : fget (sweepVerb c f s) (PHY c) PHY_SWP_CNT_BURSTS = f.bursts % 2 ^ 16 := by
  rw [fget_sweepVerb f (by decide) training]
  simp (disch := decide) only [sweepAsked, fget_fset_apart, fget_fset]
  rfl

theorem sweepVerb_apply : fbit (sweepVerb c f s) (PHY c) PHY_SWP_CTL_APPLY = f.app := by
  rw [fbit, fget_sweepVerb f (by decide) training]
  simp (disch := decide) only [sweepAsked, fsetB, fget_fset_apart, fget_fset]
  cases f.app <;> rfl

end

/-- The operands of a line that is taken fit their fields. -/
theorem sweepBad_none {f : SweepForm} (ok : sweepBad f = none) : f.ctrl ≤ 9 ∧ f.rank ≤ 1 ∧ f.src ≤ 2 ∧ f.first ≤ 0x3FFF ∧ f.last ≤ 0x3FFF ∧ f.step ≤ 63 ∧ f.bursts ≤ 0xFFFF := by
  have bounds := List.find?_eq_none.mp (Option.map_eq_none_iff.mp ok)
  simp at bounds
  omega

section
variable {c : Fin 16} {f : SweepForm} {s : State} (ready : verbReady s = true)
include ready

theorem verbReady_sound : s.con.line.bind (lineErr (strictMode s)) = none := by
  simp only [verbReady, Bool.and_eq_true, Option.isNone_iff_eq_none] at ready
  exact ready.2

theorem verbReady_idle : s.con.ans = [] := by
  simp only [verbReady, Bool.and_eq_true, List.isEmpty_iff] at ready
  exact ready.1.1.2

theorem verbReady_taken : (!consoleOn s || !s.con.ans.isEmpty || sleepBusy s) = false := by
  simp only [verbReady, Bool.and_eq_true, Bool.not_eq_true'] at ready
  obtain ⟨⟨⟨on, idle⟩, awake⟩, -⟩ := ready
  simp [on, idle, awake]

theorem exec_sweepStart_bad {e : OutLn} (bad : sweepBad f = some e) : exec (.sweepStart c (some f)) s = .next (answer [e] s) := by
  refine congrArg Host.Outcome.next ((if_neg (Bool.eq_false_iff.mp (verbReady_taken ready))).trans ?_)
  rw [verbReady_sound ready, bad]
  rfl

variable (ok : sweepBad f = none) (on : blockOn s (PHY c) = true)
include ok on

theorem exec_sweepStart_form : exec (.sweepStart c (some f)) s = .next (if helperOn s c then sweepVerb c f s else answer [sweepAnswer c false s] (wrRej c s)) := by
  refine congrArg Host.Outcome.next ((if_neg (Bool.eq_false_iff.mp (verbReady_taken ready))).trans ?_)
  rw [verbReady_sound ready, ok]
  exact if_neg (by simp [on])

theorem exec_sweepStart_verb (training : chState s c = 1) : exec (.sweepStart c (some f)) s = .next (sweepVerb c f s) := by
  rw [exec_sweepStart_form ready ok on, if_pos (helperOn_iff.mpr training)]

theorem exec_sweepStart_refused (other : chState s c ≠ 1) :
    exec (.sweepStart c (some f)) s = .next (answer [erLn 461 "helper refused" [("ch", .n c), ("state", .s (chWord (chState s c)))]] (wrRej c s)) := by
  rw [exec_sweepStart_form ready ok on, if_neg fun h => other (helperOn_iff.mp h)]
  rfl

end

end Sys2Proof.Proofs

/-! PROOF. The compare engine: its counters are cleared, and the differing bits of a lane are counted (11 R331, R332). -/

namespace Sys2Proof.Proofs
open Sys2Proof Sys2Proof.Machine Sys2Proof.Laws

/-! ### Lists of writes -/

/-- A part that one element of a list writes, and that depends on no other part, ends as that element alone leaves it. -/
theorem forAll_own {α β : Type} (g : State → β) {f : α → State → State} {l : List α} {a : α} (m : a ∈ l) (once : l.Nodup) (others : ∀ b ∈ l, b ≠ a → ∀ x, g (f b x) = g x)
    (own : ∀ x y, g x = g y → g (f a x) = g (f a y)) (s : State) : g (forAll l f s) = g (f a s) := by
  obtain ⟨before, after, rfl⟩ := List.append_of_mem m
  obtain ⟨first, last⟩ : a ∉ before ∧ a ∉ after := by
    rw [List.nodup_append, List.nodup_cons] at once
    obtain ⟨-, ⟨last, -⟩, apart⟩ := once
    exact ⟨fun h => apart a h a List.mem_cons_self rfl, last⟩
  have start : g (forAll before f s) = g s := forAll_inv_mem g _ _ _ fun b h => others b (List.mem_append_left _ h) fun e => first (e ▸ h)
  have rest : ∀ x, g (forAll after f x) = g x := fun x => forAll_inv_mem g _ _ _ fun b h => others b (List.mem_append_right _ (List.mem_cons_of_mem a h)) fun e => last (e ▸ h)
  unfold forAll at start rest ⊢
  rw [List.foldl_append, List.foldl_cons, rest]
  exact own _ _ start

/-- Writes that look at a part which none of them changes may look at it before the first. -/
theorem forAll_ahead {α β : Type} (g : State → β) (l : List α) {f h : α → State → State} (kept : ∀ a x, g (h a x) = g x) {s : State} (same : ∀ a x, g x = g s → f a x = h a x) :
    forAll l f s = forAll l h s := by
  suffices run : ∀ x, g x = g s → forAll l f x = forAll l h x from run s rfl
  intro x view
  unfold forAll
  induction l generalizing x with
  | nil => rfl
  | cons a r ih => rw [List.foldl_cons, List.foldl_cons, same a x view, ih _ ((kept a x).trans view)]

/-! ### Clear -/

/-- The registers of the compare engine: a counter with its mask for each bit, and the first failure. -/
def CompareWord (i : Nat) : Prop := 0x1900 ≤ i ∧ i < 0x1A00

theorem compareClear_inv {β : Type} (g : State → β) (c : Fin 16) (word : ∀ i, CompareWord i → ∀ w x, g (ixSet (PHY c) i w x) = g x) (s : State) : g (compareClear c s) = g s := by
  refine (word _ ⟨by decide, by decide⟩ _ _).trans (forAll_inv_mem g _ _ _ fun b m x => word _ ?_ _ x)
  have := List.mem_range.mp m
  exact ⟨by omega, by omega⟩

/-- The record of the first failure is empty. -/
theorem compareClear_first (c : Fin 16) (s : State) : ixGet (compareClear c s) (PHY c) 0x19FF = 0 := ixGet_ixSet _ _ _ _

/-- The counter of each bit is cleared, and its mask stays. -/
theorem compareClear_word (c : Fin 16) {b : Nat} (lt : b < 72) (s : State) : ixGet (compareClear c s) (PHY c) (0x1900 + b) = (⟨0, 0, 16⟩ : Fld).put 0 (ixGet s (PHY c) (0x1900 + b)) := by
  refine (ixGet_ixSet_ne (PHY c) (by omega) _ _).trans ?_
  refine (forAll_own (ixGet · (PHY c) (0x1900 + b)) (List.mem_range.mpr lt) List.nodup_range ?_ ?_ s).trans (ixGet_ixPut _ _ _ _ _ _)
  · exact fun k _ ne x => ixGet_ixPut_ne _ (by omega) _ _ _ x
  · intro x y same
    simp only [ixGet_ixPut] at same ⊢
    rw [same]

/-- A counter that is put to 0 leaves the bits above it. -/
theorem counterPut_zero (w : Word) : ((⟨0, 0, 16⟩ : Fld).put 0 w).toNat = w.toNat / 65536 * 65536 := by
  have bound := w.isLt
  simp only [Fld.put, Fld.get, BitVec.toNat_ofNat]
  omega

theorem errCount_compareClear (c : Fin 16) {b : Nat} (lt : b < 72) (s : State) : errCount (compareClear c s) c b = 0 := by
  unfold errCount ixBits
  rw [compareClear_word c lt]
  exact Fld_get_put ⟨0, 0, 16⟩ 0 _ (by decide)

theorem bitMasked_compareClear (c : Fin 16) {b : Nat} (lt : b < 72) (s : State) : bitMasked (compareClear c s) c b = bitMasked s c b := by
  unfold bitMasked
  rw [compareClear_word c lt, counterPut_zero]
  have same : ∀ n : Nat, n / 65536 * 65536 / 2 ^ 31 % 2 = n / 2 ^ 31 % 2 := by omega
  unfold bitOf
  rw [same]

/-! ### Expected bits -/

/-- The words of the patterns and seeds stand apart from those of the compare engine. -/
theorem laneBits_congr {c : Fin 16} {b : Nat} (lt : b < 72) {s t : State} (regs : t.regs = s.regs) (words : ∀ i, 0x1000 ≤ i → i < 0x1900 → ixGet t (PHY c) i = ixGet s (PHY c) i) (n : Nat) :
    laneBits t c b n = laneBits s c b n := by
  have pattern : patternBit t c b = patternBit s c b := by
    funext k
    unfold patternBit
    rw [words _ (by omega) (by omega)]
  unfold laneBits
  rw [pattern, words _ (by omega) (by omega), fget_congr regs, fget_congr regs]

theorem laneDiffs_congr {c : Fin 16} {b : Nat} (lt : b < 72) {s t : State} (regs : t.regs = s.regs) (words : ∀ i, 0x1000 ≤ i → i < 0x1900 → ixGet t (PHY c) i = ixGet s (PHY c) i) (k : Nat) (got : List Burst) :
    laneDiffs t c b k got = laneDiffs s c b k got := by
  unfold laneDiffs
  rw [laneBits_congr lt regs words]

/-! ### Count -/

/-- The differing beats of one bit are counted. -/
def countLane (c : Fin 16) (x : List Nat × Nat) (s : State) : State :=
  if x.1.isEmpty then s else ixPut (PHY c) (0x1900 + x.2) 0 16 (min 65535 (errCount s c x.2 + x.1.length)) s

/-- Every bit is counted, and beyond that only the record of the first failure may change. -/
theorem countDiffs_view {β : Type} (g : State → β) (c : Fin 16) (record : ∀ w x, g (ixSet (PHY c) 0x19FF w x) = g x) (ds : List (List Nat)) (s : State) :
    g (countDiffs c ds s) = g (forAll ds.zipIdx (countLane c) s) := by
  unfold countDiffs
  dsimp only
  split
  · split
    · exact record _ _
    · rfl
  · rfl

theorem countDiffs_inv {β : Type} (g : State → β) (c : Fin 16) (word : ∀ i, CompareWord i → ∀ w x, g (ixSet (PHY c) i w x) = g x) {ds : List (List Nat)} (few : ds.length ≤ 72) (s : State) :
    g (countDiffs c ds s) = g s := by
  refine (countDiffs_view g c (word _ ⟨by decide, by decide⟩) ds s).trans (forAll_inv_mem g _ _ _ fun d m y => ?_)
  have := List.snd_lt_of_mem_zipIdx m
  unfold countLane
  split
  · rfl
  · exact word _ ⟨by omega, by omega⟩ _ _

theorem errCount_lt (s : State) (c : Fin 16) (b : Nat) : errCount s c b < 65536 := Nat.mod_lt _ (by decide)

theorem errCount_ixSet_ne {c : Fin 16} {b i : Nat} (ne : 0x1900 + b ≠ i) (w : Word) (s : State) : errCount (ixSet (PHY c) i w s) c b = errCount s c b :=
  congrArg (fun w => w.toNat / 2 ^ 0 % 2 ^ 16) (ixGet_ixSet_ne (PHY c) ne w s)

theorem errCount_countLane (c : Fin 16) (d : List Nat) (b : Nat) (s : State) : errCount (countLane c (d, b) s) c b = min 65535 (errCount s c b + d.length) := by
  have fits := errCount_lt s c b
  unfold countLane
  dsimp only
  split
  next none =>
    rw [List.isEmpty_iff.mp none, List.length_nil]
    omega
  next =>
    refine (ixBits_ixPut _ _ (by decide) _ _).trans ?_
    omega

theorem errCount_countLane_ne (c : Fin 16) {x : List Nat × Nat} {b : Nat} (ne : x.2 ≠ b) (s : State) : errCount (countLane c x s) c b = errCount s c b := by
  unfold countLane
  split
  · rfl
  · exact errCount_ixSet_ne (by omega) _ s

/-- The differing beats of a bit are added to its counter, up to the highest value. -/
theorem errCount_countDiffs {c : Fin 16} {ds : List (List Nat)} (few : ds.length ≤ 72) {b : Nat} {d : List Nat} (lane : ds[b]? = some d) (s : State) :
    errCount (countDiffs c ds s) c b = min 65535 (errCount s c b + d.length) := by
  have lt : b < ds.length := (List.getElem?_eq_some_iff.mp lane).1
  have own : ∀ x y, errCount x c b = errCount y c b → errCount (countLane c (d, b) x) c b = errCount (countLane c (d, b) y) c b := fun x y same => by
    rw [errCount_countLane, errCount_countLane, same]
  have others : ∀ e ∈ ds.zipIdx, e ≠ (d, b) → ∀ x, errCount (countLane c e x) c b = errCount x c b := by
    rintro ⟨e, k⟩ m ne x
    refine errCount_countLane_ne c (fun same : k = b => ne (Prod.ext ?_ same)) x
    have listed := List.mk_mem_zipIdx_iff_getElem?.mp m
    rw [same, lane] at listed
    exact (Option.some.inj listed).symm
  rw [countDiffs_view (errCount · c b) c (fun w x => errCount_ixSet_ne (by omega) w x),
    forAll_own (errCount · c b) (List.mk_mem_zipIdx_iff_getElem?.mpr lane) (List.nodup_zipIdx_map_snd ds).of_map others own, errCount_countLane]

end Sys2Proof.Proofs

/-! PROOF. A sweep ends: its points are compared, and its units are judged (11 R333, R349). -/

namespace Sys2Proof.Proofs
open Sys2Proof Sys2Proof.Machine Sys2Proof.Laws

/-! ### The points -/

theorem burstDiffs_length (s : State) (c : Fin 16) (k : Nat) (got : List Burst) : (burstDiffs s c k got).length = 72 := by simp [burstDiffs]

theorem burstDiffs_lane {s : State} {c : Fin 16} {b : Nat} (lt : b < 72) (compared : bitMasked s c b = false) (k : Nat) (got : List Burst) :
    (burstDiffs s c k got)[b]? = some (laneDiffs s c b k got) := by
  simp [burstDiffs, lt, compared]

theorem sweepScan_inv {β : Type} (g : State → β) (c : Fin 16) (word : ∀ i, CompareWord i → ∀ w x, g (ixSet (PHY c) i w x) = g x) (got : List Probe) (ps : List Nat) (j : Nat) (s : State) :
    g (sweepScan c got ps j s).2 = g s := by
  induction ps generalizing j s with
  | nil => rfl
  | cons p ps ih =>
    refine (ih _ _).trans ?_
    rw [countDiffs_inv g c word (burstDiffs_length _ _ _ _).le, compareClear_inv g c word]

/-- At a single point the counter of a compared bit holds its differing beats. -/
theorem errCount_sweepScan_one (c : Fin 16) (got : List Probe) (p : Nat) {b : Nat} (lt : b < 72) {s : State} (compared : bitMasked s c b = false) :
    errCount (sweepScan c got [p] 0 s).2 c b = min 65535 (laneDiffs s c b 0 (gotAt got p (fget s (PHY c) PHY_SWP_CNT_BURSTS))).length := by
  have regs : (compareClear c s).regs = s.regs := compareClear_inv (·.regs) c (fun _ _ _ _ => rfl) s
  have words : ∀ i, 0x1000 ≤ i → i < 0x1900 → ixGet (compareClear c s) (PHY c) i = ixGet s (PHY c) i := fun i _ below =>
    compareClear_inv (ixGet · (PHY c) i) c (fun k ⟨above, _⟩ w x => ixGet_ixSet_ne _ (by omega) w x) s
  refine (errCount_countDiffs (burstDiffs_length _ _ _ _).le (burstDiffs_lane lt ((bitMasked_compareClear c lt s).trans compared) _ _) _).trans ?_
  rw [errCount_compareClear c lt, laneDiffs_congr lt regs words, Nat.zero_add, Nat.zero_mul]

/-! ### The lines that a sweep writes -/

/-- The lines of a destructive sweep have been written. -/
def sweepSourced (c : Fin 16) (s : State) : State :=
  if fget s (PHY c) PHY_SWP_CTL_SRC = 1 then sweepWrite c (fget s (PHY c) PHY_SWP_CTL_RANK) ((sweepPoints s c).length * fget s (PHY c) PHY_SWP_CNT_BURSTS) s else s

theorem sweepSourced_inv {β : Type} (g : State → β) (c : Fin 16) (line : ∀ l x y, g (storeLine c l x false y) = g y) (s : State) : g (sweepSourced c s) = g s := by
  unfold sweepSourced
  split
  · refine forAll_inv g _ _ _ fun x y => ?_
    dsimp only
    split
    · rfl
    · exact line _ _ _
  · rfl

section
variable (c : Fin 16) (s : State)

theorem sweepSourced_regs : (sweepSourced c s).regs = s.regs := sweepSourced_inv (·.regs) c (fun l x y => storeLine_regs c l x false y) s
theorem sweepSourced_ix : (sweepSourced c s).ix = s.ix := sweepSourced_inv (·.ix) c (fun l x y => storeLine_ix c l x false y) s
theorem sweepSourced_d8 : (sweepSourced c s).d8 = s.d8 := sweepSourced_inv (·.d8) c (fun l x y => storeLine_d8 c l x false y) s
theorem sweepSourced_con : (sweepSourced c s).con = s.con := sweepSourced_inv (·.con) c (fun l x y => storeLine_con c l x false y) s

end

/-! ### The units -/

theorem geoDevs_congr {s t : State} (regs : t.regs = s.regs) : geoDevs t = geoDevs s := by
  unfold geoDevs geoX8
  rw [fbit_congr regs]

theorem ctrlUnits_congr {s t : State} (devs : geoDevs t = geoDevs s) (ranks : geoRanks t = geoRanks s) (k : Nat) : ctrlUnits t k = ctrlUnits s k := by
  unfold ctrlUnits csPins
  rw [devs, ranks]

theorem ctrlUnits_of_regs {s t : State} (regs : t.regs = s.regs) (k : Nat) : ctrlUnits t k = ctrlUnits s k :=
  ctrlUnits_congr (geoDevs_congr regs) (by unfold geoRanks; rw [fbit_congr regs]) k

theorem unitEye_of_regs {s t : State} (regs : t.regs = s.regs) (k n : Nat) (l : List (Nat × List Bool)) : unitEye t k n l = unitEye s k n l := by
  have dev : bitDev t = bitDev s := by
    funext b
    unfold bitDev geoX8
    rw [fbit_congr regs]
  unfold unitEye unitBits
  rw [dev]

theorem ctrlUnits_nodup (s : State) (k : Nat) : (ctrlUnits s k).Nodup := by
  have pins : (csPins s).Nodup := by unfold csPins; split <;> decide
  unfold ctrlUnits
  split
  · split <;> exact List.nodup_range
  · split
    · exact List.nodup_range
    · split
      · exact pins
      · exact List.nodup_nil

theorem ctrlUnits_lt {s : State} {k n : Nat} (m : n ∈ ctrlUnits s k) : n < 72 := by
  have devs : geoDevs s ≤ 18 := by unfold geoDevs; split <;> decide
  have pins : ∀ i ∈ csPins s, i < 72 := by unfold csPins; split <;> decide
  unfold ctrlUnits at m
  split at m
  · split at m
    · exact List.mem_range.mp m
    · exact (List.mem_range.mp m).trans_le (devs.trans (by decide))
  · split at m
    · exact (List.mem_range.mp m).trans (by decide)
    · split at m
      · exact pins n m
      · cases m

/-! ### Results -/

/-- The results of every unit are recorded. -/
def sweepJudged (c : Fin 16) (k : Nat) (l : List (Nat × List Bool)) (s : State) : State := forAll (ctrlUnits s k) (fun u x => sweepResult c u (unitEye x k u l) x) s

theorem sweepResult_inv {β : Type} (g : State → β) (c : Fin 16) (u : Nat) (word : ∀ i, i = 0x2000 + u ∨ i = 0x2100 + u → ∀ w x, g (ixSet (PHY c) i w x) = g x) (e : Option (Nat × Nat)) (s : State) :
    g (sweepResult c u e s) = g s := by
  unfold sweepResult
  split
  · exact (word _ (.inl rfl) _ _).trans (word _ (.inr rfl) _ _)
  · exact word _ (.inr rfl) _ _

theorem sweepJudged_inv {β : Type} (g : State → β) (c : Fin 16) (word : ∀ i, 0x2000 ≤ i → ∀ w x, g (ixSet (PHY c) i w x) = g x) (k : Nat) (l : List (Nat × List Bool)) (s : State) :
    g (sweepJudged c k l s) = g s :=
  forAll_inv g _ _ _ fun u x => sweepResult_inv g c u (fun i at_ => word i (by omega)) _ x

/-- The two words of a unit's results. -/
def unitWords (c : Fin 16) (n : Nat) (s : State) : Word × Word := (ixGet s (PHY c) (0x2000 + n), ixGet s (PHY c) (0x2100 + n))

theorem unitWords_some (c : Fin 16) (n a b : Nat) (s : State) :
    unitWords c n (sweepResult c n (some (a, b)) s) = (BitVec.ofNat 32 (a % 2 ^ 14 + b % 2 ^ 14 * 2 ^ 16), BitVec.ofNat 32 ((a + b) / 2 % 2 ^ 14 + (b - a + 1) % 2 ^ 14 * 2 ^ 16)) :=
  Prod.ext (ixGet_ixSet _ _ _ _) ((ixGet_ixSet_ne (PHY c) (by omega) _ _).trans (ixGet_ixSet _ _ _ _))

theorem unitWords_none (c : Fin 16) (n : Nat) (s : State) : unitWords c n (sweepResult c n none s) = (ixGet s (PHY c) (0x2000 + n), (⟨0, 16, 14⟩ : Fld).put 0 (ixGet s (PHY c) (0x2100 + n))) :=
  Prod.ext (ixGet_ixPut_ne _ (by omega) _ _ _ s) (ixGet_ixPut _ _ _ _ _ _)

/-- Each unit's results are those of its widest run. -/
theorem unitWords_sweepJudged (c : Fin 16) {k n : Nat} {s : State} (m : n ∈ ctrlUnits s k) (l : List (Nat × List Bool)) :
    unitWords c n (sweepJudged c k l s) = unitWords c n (sweepResult c n (unitEye s k n l) s) := by
  have ahead : sweepJudged c k l s = forAll (ctrlUnits s k) (fun u => sweepResult c u (unitEye s k u l)) s :=
    forAll_ahead (·.regs) _ (fun u x => sweepResult_inv (·.regs) c u (fun _ _ _ _ => rfl) _ x) fun u x regs => congrArg (sweepResult c u · x) (unitEye_of_regs regs k u l)
  rw [ahead]
  refine forAll_own (unitWords c n) m (ctrlUnits_nodup s k) (fun u mu ne x => ?_) (fun x y same => ?_) s
  · have small := ctrlUnits_lt m
    have other := ctrlUnits_lt mu
    exact sweepResult_inv (unitWords c n) c u (fun i at_ w y => Prod.ext (ixGet_ixSet_ne _ (by omega) w y) (ixGet_ixSet_ne _ (by omega) w y)) _ x
  · cases unitEye s k n l with
    | some e => rw [unitWords_some, unitWords_some]
    | none =>
      obtain ⟨run, width⟩ := Prod.mk.inj same
      rw [unitWords_none, unitWords_none, run, width]

/-! ### Centres -/

/-- The centres found are applied where APPLY is set. -/
def sweepCentred (c : Fin 16) (k r : Nat) (l : List (Nat × List Bool)) (s : State) : State :=
  if !fbit s (PHY c) PHY_SWP_CTL_APPLY then s else
    forAll (ctrlUnits s k) (fun u x => match unitEye x k u l with
      | some e => applyCentre c k r u ((e.1 + e.2) / 2) x
      | none => x) s

/-- The centres go to the settings file, below the patterns. -/
theorem sweepCentred_inv {β : Type} (g : State → β) (c : Fin 16) (word : ∀ i < 0x1000, ∀ w x, g (ixSet (PHY c) i w x) = g x) (k : Nat) {r : Nat} (rank : r < 2) (l : List (Nat × List Bool)) (s : State) :
    g (sweepCentred c k r l s) = g s := by
  have bases : ∀ p, ctrlPlace k = some p → p.2.1 ≤ 0x1A0 := by
    intro p place
    unfold ctrlPlace at place
    split at place <;> cases place <;> decide
  unfold sweepCentred
  split
  · rfl
  · refine forAll_inv_mem g _ _ _ fun u m x => ?_
    have small := ctrlUnits_lt m
    split
    · unfold applyCentre
      split
      next base lo w place =>
        have low : base ≤ 0x1A0 := bases _ place
        exact word _ (by unfold rIx; omega) _ _
      next => exact word _ (by omega) _ _
    · rfl

/-! ### The end -/

/-- The points of a sweep have been compared, its units judged, and their centres applied. -/
def sweepMeasured (c : Fin 16) (got : List Probe) (s : State) : State :=
  let scan := sweepScan c got (sweepPoints s c) 0 (sweepSourced c s)
  let k := fget s (PHY c) PHY_SWP_CTL_CTRL
  sweepCentred c k (fget s (PHY c) PHY_SWP_CTL_RANK) scan.1 (sweepJudged c k scan.1 scan.2)

/-- A sweep no longer runs. -/
def sweepStopped (c : Fin 16) (s : State) : State := updPhy c (fun y => { y with sweep := false }) s

theorem sweepDone_on {c : Fin 16} {s : State} (runs : (s.phy c).sweep = true) (training : chState s c = 1) (got : List Probe) :
    sweepDone c got s = fset (PHY c) PHY_SWP_STATUS_BUSY 0 (fset (PHY c) PHY_SWP_STATUS_DONE 1 (sweepStopped c (sweepMeasured c got s))) := by
  have source : ∀ f, onlyIf (fget s (PHY c) PHY_SWP_CTL_SRC == 1) f s = if fget s (PHY c) PHY_SWP_CTL_SRC = 1 then f s else s := fun f => by
    unfold onlyIf
    simp only [beq_iff_eq]
  unfold sweepDone
  rw [if_neg (by simp [runs]), if_neg (by simp [helperOn_iff.mpr training])]
  dsimp only
  rw [source]
  rfl

theorem sweepDone_off {c : Fin 16} {s : State} (runs : (s.phy c).sweep = true) (other : chState s c ≠ 1) (got : List Probe) : sweepDone c got s = fset (PHY c) PHY_SWP_STATUS_BUSY 0 (sweepStopped c s) := by
  unfold sweepDone
  rw [if_neg (by simp [runs])]
  exact if_pos (by simpa using fun h => other (helperOn_iff.mp h))

theorem sweepDone_idle {c : Fin 16} {s : State} (idle : (s.phy c).sweep = false) (got : List Probe) : sweepDone c got s = s := if_pos (by simp [idle])

/-- A sweep's end writes words of the PHY's indirect table, and nothing else. -/
theorem sweepMeasured_inv {β : Type} (g : State → β) (c : Fin 16) (word : ∀ i w x, g (ixSet (PHY c) i w x) = g x) (got : List Probe) (s : State) : g (sweepMeasured c got s) = g (sweepSourced c s) := by
  unfold sweepMeasured
  dsimp only
  rw [sweepCentred_inv g c (fun i _ => word i) _ (fget_lt s (PHY c) PHY_SWP_CTL_RANK), sweepJudged_inv g c (fun i _ => word i), sweepScan_inv g c (fun i _ => word i)]

/-- Each unit's results stand as they were judged. -/
theorem unitWords_sweepMeasured {c : Fin 16} {n : Nat} {s : State} (m : n ∈ ctrlUnits s (fget s (PHY c) PHY_SWP_CTL_CTRL)) (got : List Probe) :
    unitWords c n (sweepMeasured c got s) =
      (let scan := sweepScan c got (sweepPoints s c) 0 (sweepSourced c s)
      unitWords c n (sweepResult c n (unitEye s (fget s (PHY c) PHY_SWP_CTL_CTRL) n scan.1) scan.2)) := by
  have regs : (sweepScan c got (sweepPoints s c) 0 (sweepSourced c s)).2.regs = s.regs := (sweepScan_inv (·.regs) c (fun _ _ _ _ => rfl) _ _ _ _).trans (sweepSourced_regs c s)
  have apart : ∀ i < 0x1000, ∀ w x, unitWords c n (ixSet (PHY c) i w x) = unitWords c n x := fun i below w x => Prod.ext (ixGet_ixSet_ne _ (by omega) w x) (ixGet_ixSet_ne _ (by omega) w x)
  unfold sweepMeasured
  dsimp only
  rw [sweepCentred_inv _ c apart _ (fget_lt s (PHY c) PHY_SWP_CTL_RANK), unitWords_sweepJudged c ((ctrlUnits_of_regs regs _).symm ▸ m), unitEye_of_regs regs]

/-- The counters stand as the last point left them. -/
theorem errCount_sweepMeasured (c : Fin 16) {b : Nat} (lt : b < 72) (got : List Probe) (s : State) :
    errCount (sweepMeasured c got s) c b = errCount (sweepScan c got (sweepPoints s c) 0 (sweepSourced c s)).2 c b := by
  have apart : ∀ i, i < 0x1000 ∨ 0x2000 ≤ i → ∀ w x, errCount (ixSet (PHY c) i w x) c b = errCount x c b := fun i out w x => errCount_ixSet_ne (by omega) w x
  unfold sweepMeasured
  dsimp only
  rw [sweepCentred_inv (errCount · c b) c (fun i below => apart i (.inl below)) _ (fget_lt s (PHY c) PHY_SWP_CTL_RANK), sweepJudged_inv (errCount · c b) c (fun i above => apart i (.inr above))]

end Sys2Proof.Proofs

/-! PROOF. The helpers of a channel in training (11 R331 to R333, R350). -/

namespace Sys2Proof.Proofs
open Sys2Proof Sys2Proof.Machine Sys2Proof.Laws

/-! ### What is left when a sweep is over -/

section
variable {c : Fin 16} {s : State} (runs : (s.phy c).sweep = true) (training : chState s c = 1) (got : List Probe)
include runs training

theorem sweepDone_ix : (sweepDone c got s).ix = (sweepMeasured c got s).ix := by
  rw [sweepDone_on runs training]
  simp only [fset_ix, sweepStopped, updPhy_ix]

theorem sweepDone_over : ((sweepDone c got s).phy c).sweep = false := by
  rw [sweepDone_on runs training, phy_congr (fset_phys _ _ _ _), phy_congr (fset_phys _ _ _ _), sweepStopped, updPhy_phy]

theorem sweepDone_busy : fbit (sweepDone c got s) (PHY c) PHY_SWP_STATUS_BUSY = false := by
  rw [sweepDone_on runs training]
  exact fbit_fset_zero _ _ _ (by decide)

theorem sweepDone_done : fbit (sweepDone c got s) (PHY c) PHY_SWP_STATUS_DONE = true := by
  rw [sweepDone_on runs training, fbit, fget_fset_apart _ (by decide)]
  exact fbit_fset_one _ _ _ (by decide) (by decide)

/-- Beside the registers and the indirect table only the lines that the sweep writes may differ. -/
theorem sweepDone_inv {β : Type} (g : State → β) (field : ∀ f v x, g (fset (PHY c) f v x) = g x) (stop : ∀ x, g (sweepStopped c x) = g x) (word : ∀ i w x, g (ixSet (PHY c) i w x) = g x) :
    g (sweepDone c got s) = g (sweepSourced c s) := by
  rw [sweepDone_on runs training, field, field, stop, sweepMeasured_inv g c word]

theorem sweepDone_d8 : (sweepDone c got s).d8 = s.d8 := (sweepDone_inv runs training got (·.d8) (fun _ _ _ => rfl) (fun _ => rfl) fun _ _ _ => rfl).trans (sweepSourced_d8 c s)

theorem sweepDone_con : (sweepDone c got s).con = s.con := (sweepDone_inv runs training got (·.con) (fun _ _ _ => rfl) (fun _ => rfl) fun _ _ _ => rfl).trans (sweepSourced_con c s)

theorem sweepDone_dram : (sweepDone c got s).dram = (sweepSourced c s).dram := sweepDone_inv runs training got (·.dram) (fun _ _ _ => rfl) (fun _ => rfl) fun _ _ _ => rfl

theorem unitWords_sweepDone (n : Nat) : unitWords c n (sweepDone c got s) = unitWords c n (sweepMeasured c got s) := by
  unfold unitWords
  rw [ixGet_congr (sweepDone_ix runs training got), ixGet_congr (sweepDone_ix runs training got)]

/-- A unit with a widest run: its first and last point, its centre and its width. -/
theorem sweepDone_found {n a b : Nat} (m : n ∈ ctrlUnits s (fget s (PHY c) PHY_SWP_CTL_CTRL))
    (run : unitEye s (fget s (PHY c) PHY_SWP_CTL_CTRL) n (sweepScan c got (sweepPoints s c) 0 (sweepSourced c s)).1 = some (a, b)) :
    ixGet (sweepDone c got s) (PHY c) (0x2000 + n) = BitVec.ofNat 32 (a % 2 ^ 14 + b % 2 ^ 14 * 2 ^ 16)
      ∧ ixGet (sweepDone c got s) (PHY c) (0x2100 + n) = BitVec.ofNat 32 ((a + b) / 2 % 2 ^ 14 + (b - a + 1) % 2 ^ 14 * 2 ^ 16) := by
  have words := (unitWords_sweepDone runs training got n).trans (unitWords_sweepMeasured m got)
  dsimp only at words
  rw [run, unitWords_some] at words
  exact Prod.mk.inj words

/-- A unit that passed nowhere has a width of 0. -/
theorem sweepDone_unfound {n : Nat} (m : n ∈ ctrlUnits s (fget s (PHY c) PHY_SWP_CTL_CTRL))
    (run : unitEye s (fget s (PHY c) PHY_SWP_CTL_CTRL) n (sweepScan c got (sweepPoints s c) 0 (sweepSourced c s)).1 = none) :
    (ixGet (sweepDone c got s) (PHY c) (0x2100 + n)).toNat / 2 ^ 16 % 2 ^ 14 = 0 := by
  have words := (unitWords_sweepDone runs training got n).trans (unitWords_sweepMeasured m got)
  dsimp only at words
  rw [run, unitWords_none] at words
  have width : ixGet (sweepDone c got s) (PHY c) (0x2100 + n) = _ := congrArg Prod.snd words
  rw [width]
  exact Fld_get_put ⟨0, 16, 14⟩ 0 _ (by decide)

theorem errCount_sweepDone (b : Nat) : errCount (sweepDone c got s) c b = errCount (sweepMeasured c got s) c b := by
  unfold errCount ixBits
  rw [ixGet_congr (sweepDone_ix runs training got)]

/-- After a sweep of one point the counter of a compared lane holds its differing bits. -/
theorem errCount_sweepDone_one {p b : Nat} (point : sweepPoints s c = [p]) (lt : b < 72) (compared : bitMasked s c b = false) :
    errCount (sweepDone c got s) c b = min 65535 (laneDiffs s c b 0 (gotAt got p (fget s (PHY c) PHY_SWP_CNT_BURSTS))).length := by
  have regs := sweepSourced_regs c s
  have ix := sweepSourced_ix c s
  have same : bitMasked (sweepSourced c s) c b = false := by
    unfold bitMasked
    rw [ixGet_congr ix]
    exact compared
  rw [errCount_sweepDone runs training, errCount_sweepMeasured c lt, point, errCount_sweepScan_one c got p lt same, fget_congr regs, laneDiffs_congr lt regs fun i _ _ => ixGet_congr ix _ i]

end

/-! ### The answer -/

/-- The units and their widths make the answer. -/
theorem sweepAnswer_congr {s t : State} (c : Fin 16) (ix : t.ix = s.ix) (field : ∀ {b : Nat} {f : Fld}, Uncounted (b + f.off) → fget t b f = fget s b f) : sweepAnswer c true t = sweepAnswer c true s := by
  have x8 : geoX8 t = geoX8 s := by unfold geoX8 fbit; rw [field (by decide)]
  have devs : geoDevs t = geoDevs s := by unfold geoDevs; rw [x8]
  have ranks : geoRanks t = geoRanks s := by unfold geoRanks fbit; rw [field (by decide)]
  have ctrl : fget t (PHY c) PHY_SWP_CTL_CTRL = fget s (PHY c) PHY_SWP_CTL_CTRL := field (uncounted_of_high (by unfold PHY; omega))
  simp only [sweepAnswer, Bool.not_true, Bool.false_eq_true, if_false, ctrl, ctrlUnits_congr devs ranks, ixGet_congr ix]

/-- The console waits no longer. -/
def sweepAwaitedOver (s : State) : State := { s with con := { s.con with wait := none } }

/-- The line that waits is answered. -/
def sweepReplied (c : Fin 16) (s : State) : State := answer [sweepAnswer c true s] (sweepAwaitedOver s)

section
variable (c : Fin 16) (s : State)

theorem sweepReplied_phys : (sweepReplied c s).phys = s.phys := answer_phys _ (sweepAwaitedOver s)
theorem sweepReplied_d8 : (sweepReplied c s).d8 = s.d8 := answer_d8 _ (sweepAwaitedOver s)
theorem sweepReplied_dram : (sweepReplied c s).dram = s.dram := (sameStore_answer _ (sweepAwaitedOver s)).1

theorem sweepReplied_wait : (sweepReplied c s).con.wait = none := by
  have bump : ∀ b f x, (onlyIf b (fbump CON f) x).con = x.con := fun b f x => onlyIf_inv (·.con) b _ x fun y => fbump_con CON f y
  unfold sweepReplied answer
  dsimp only
  rw [bump, bump, fbump_con]
  rfl

/-- The answer says what the channel shows once it has been sent. -/
theorem sweepReplied_ans : (sweepReplied c s).con.ans = [sweepAnswer c true (sweepReplied c s)] := by
  have freed : sweepAnswer c true (sweepAwaitedOver s) = sweepAnswer c true s := sweepAnswer_congr c rfl fun _ => rfl
  have sent : sweepAnswer c true (sweepReplied c s) = sweepAnswer c true (sweepAwaitedOver s) := sweepAnswer_congr c (answer_ix _ _) fun free => fget_answer free
  rw [sent, freed]
  exact answer_ans _ _

end

theorem exec_sweepDone_silent {c : Fin 16} {s : State} (got : List Probe) (con : (sweepDone c got s).con = s.con) (silent : s.con.wait ≠ some (.sweep c)) : exec (.sweepDone c got) s = .next (sweepDone c got s) :=
  congrArg Host.Outcome.next (if_neg (con.symm ▸ silent))

theorem exec_sweepDone_reply {c : Fin 16} {s : State} (got : List Probe) (runs : (s.phy c).sweep = true) (training : chState s c = 1) (waits : s.con.wait = some (.sweep c)) :
    exec (.sweepDone c got) s = .next (sweepReplied c (sweepDone c got s)) := by
  have ended : ((s.phy c).sweep && helperOn s c) = true := by simp [runs, helperOn_iff.mpr training]
  have waiting : (sweepDone c got s).con.wait = some (.sweep c) := (sweepDone_con runs training got).symm ▸ waits
  show Host.Outcome.next (sweepReply c ((s.phy c).sweep && helperOn s c) (sweepDone c got s)) = _
  rw [ended]
  exact congrArg Host.Outcome.next (if_pos waiting)

/-- Settles O38: the end of a sweep records the widest run of every unit in two words of its own, which the centres that it applies lie below. -/
theorem helpersSweep : Obligations.HelpersSweep := by
  unfold Obligations.HelpersSweep
  refine ⟨?begin, ?outside, ?verb, ?operand, ?refused, ?judged, ?replied, ?left, ?idle⟩
  case begin =>
    intro c s on training
    have start := exec_sweepStart_register on training
    have clear := exec_compareClear on training
    have aside : ∀ {β : Type} (g : State → β), (∀ i w x, g (ixSet (PHY c) i w x) = g x) → g (compareClear c (breakPair s)) = g (breakPair s) := fun g word =>
      compareClear_inv g c (fun i _ => word i) _
    refine ⟨⟨_, start, sweepBegun_sweep c _, sweepBegun_busy c _, ?_, exec_sameStore start rfl⟩, ⟨_, clear, compareClear_first c _, ?_, ?_, ?_, ?_, ?_, ?_⟩⟩
    · exact breakPair_d8 s
    · intro b lt
      rw [compareClear_word c lt, counterPut_zero, ixGet_congr (breakPair_ix s)]
    · exact (aside (·.phys) fun _ _ _ => rfl).trans (breakPair_phys s)
    · exact (aside (·.d8) fun _ _ _ => rfl).trans (breakPair_d8 s)
    · exact (aside (·.dram) fun _ _ _ => rfl).trans (breakPair_dram s)
    · exact (aside (·.wmem) fun _ _ _ => rfl).trans (breakPair_wmem s)
    · exact (aside (·.streams) fun _ _ _ => rfl).trans (breakPair_streams s)
  case outside =>
    intro c s on other
    have store : sameStore s (wrRej c (breakPair s)) := sameStore_trans (sameStore_breakPair s) (sameStore_wrRej c _)
    exact ⟨⟨_, exec_sweepStart_rejected on other, fbit_wrRej c _, breakPair_phys s, store⟩, ⟨_, exec_compareClear_rejected on other, fbit_wrRej c _, breakPair_phys s, store⟩⟩
  case verb =>
    intro c f s ready ok on training
    obtain ⟨ctrl, rank, src, first, last, step, bursts⟩ := sweepBad_none ok
    have e := exec_sweepStart_verb (c := c) ready ok on training
    obtain ⟨waits, ans, runs, d8⟩ := sweepVerb_state f training
    refine ⟨_, e, waits, ans.trans (verbReady_idle ready), runs, sweepVerb_busy f training, ?_, ?_, ?_, ?_, ?_, ?_, ?_, d8, exec_sameStore e rfl⟩
    · rw [sweepVerb_ctrl f training]
      exact Nat.mod_eq_of_lt (by omega)
    · rw [sweepVerb_rank f training]
      exact Nat.mod_eq_of_lt (by omega)
    · rw [sweepVerb_first f training]
      exact Nat.mod_eq_of_lt (by omega)
    · rw [sweepVerb_last f training]
      exact Nat.mod_eq_of_lt (by omega)
    · rw [sweepVerb_step f training]
      exact Nat.mod_eq_of_lt (by omega)
    · rw [sweepVerb_bursts f training]
      exact Nat.mod_eq_of_lt (by omega)
    · exact sweepVerb_apply f training
  case operand =>
    intro c f e s ready bad
    exact ⟨_, exec_sweepStart_bad ready bad, answered_answer_self _ _⟩
  case refused =>
    intro c f s ready ok on other
    refine ⟨_, exec_sweepStart_refused ready ok on other, answer_ans _ _, ?_, answer_phys _ _, answer_chans _ _, answer_d8 _ _, sameStore_trans (sameStore_wrRej c s) (sameStore_answer _ _)⟩
    rw [fbit, fget_PHY_answer]
    exact fbit_wrRej c s
  case judged =>
    rintro c got _ _ s u runs training silent rfl lines rfl
    obtain rfl : u = sweepSourced c s := lines
    have con := sweepDone_con runs training got
    have e := exec_sweepDone_silent got con silent
    refine ⟨_, e, sweepDone_over runs training got, sweepDone_busy runs training got, sweepDone_done runs training got, ?_, ?_, ?_, sweepDone_d8 runs training got, con, sweepDone_dram runs training got,
      exec_wmem e (by simp [stores]), exec_streams e (by simp [stores])⟩
    · intro n m a b run _
      exact sweepDone_found runs training got m run
    · intro n m run
      exact sweepDone_unfound runs training got m run
    · intro p b point lt compared
      exact errCount_sweepDone_one runs training got point lt compared
  case replied =>
    intro c got s runs training waits
    have e := exec_sweepDone_reply got runs training waits
    refine ⟨_, e, ?_, sweepReplied_wait c _, sweepReplied_ans c _, ?_, fun source => ?_, exec_wmem e (by simp [stores])⟩
    · rw [phy_congr (sweepReplied_phys c _), sweepDone_over runs training]
    · rw [sweepReplied_d8, sweepDone_d8 runs training]
    · rw [sweepReplied_dram, sweepDone_dram runs training, sweepSourced, if_neg source]
  case left =>
    intro c got s runs other silent
    have off := sweepDone_off runs other got
    have e := exec_sweepDone_silent got (by rw [off]; rfl) silent
    rw [off] at e
    refine ⟨_, e, ?_, ?_, ?_, rfl, rfl, rfl, rfl, rfl, rfl, rfl, rfl⟩
    · rw [phy_congr (fset_phys _ _ _ _), sweepStopped, updPhy_phy]
    · exact fbit_fset_zero _ _ _ (by decide)
    · rw [fbit, fget_fset_apart _ (by decide)]
      rfl
  case idle =>
    intro c got s idle silent
    have same := sweepDone_idle idle got
    have e := exec_sweepDone_silent got (by rw [same]) silent
    rwa [same] at e

end Sys2Proof.Proofs

/-! PROOF. What every step does and keeps: one command is taken, a next state is answered, the tables stay canonical, and no manifest is opened before the map is loaded (00, 16 R456, 17 R496). -/

namespace Sys2Proof.Proofs
open Sys2Proof Sys2Proof.Machine Sys2Proof.Laws

/-! ### One step -/

theorem step_cons {c : Instr} {l : List Instr} {s : State} (h : s.pending = c :: l) : step s = exec c { s with pending := l } := by
  unfold step
  rw [h]

/-- Settles O1: the front of the queue is the command, and what is behind it the rest. -/
theorem stepFront : Obligations.StepFront := by
  unfold Obligations.StepFront
  intro c s
  exact step_cons rfl

/-- Settles O50: each command of the table by its meaning, which ends in a next state on every path. -/
theorem everyCommandAnswers : Obligations.EveryCommandAnswers := by
  unfold Obligations.EveryCommandAnswers
  intro c s
  cases c <;> exact ⟨_, rfl⟩

/-- Settles O51: every writer of a table or memory keeps its canonical form. -/
theorem canonicalFormKept : Obligations.CanonicalFormKept := by
  unfold Obligations.CanonicalFormKept
  intro s t canon e
  have queue : ∀ (s : State) q, Canon s → Canon { s with pending := q } := fun s q h => ⟨h.regs, h.ix, h.dram, h.wmem, h.streams, h.mans, h.accts⟩
  exact step_keeps canon_closed canon_ix canon_strm canon_man canon_acct canon_dram canon_way canon_cold canon_restore queue s t e canon

/-! ### The queue -/

theorem pending_closed (l : List Instr) : Closed (fun s => s.pending = l) :=
  ⟨fun _ _ _ h => h, fun _ _ h => h, fun _ _ _ h => h, by intros; assumption⟩

theorem pending_closedStore (l : List Instr) (σ : Store) : ClosedStore (fun s => s.pending = l) σ := by
  cases σ
  case ix => exact ⟨fun _ _ _ _ h => h, fun _ _ h => h, fun _ _ _ h => h⟩
  case streams => exact ⟨fun _ _ _ _ h => h, fun _ _ h => h⟩
  case mans => exact ⟨fun _ _ _ h => h⟩
  case accts => exact ⟨fun _ _ _ _ h => h, fun _ _ h => h⟩
  case dram => exact ⟨by simp, by simp, by simp⟩
  case wmem => exact ⟨by simp⟩

theorem pending_closedCold (l : List Instr) : ClosedCold (fun s => s.pending = l) := by
  refine ⟨fun c n s h => ?_⟩
  unfold coldState
  simpa using h

theorem pending_setTime (n : Nat) {l : List Instr} {s : State} (h : s.pending = l) : { s with d8 := n }.pending = l := h

/-- No command puts one in the queue. -/
theorem exec_pending {c : Instr} {s t : State} (e : exec c s = .next t) : t.pending = s.pending :=
  exec_keeps_stores (pending_closed s.pending) c (fun σ _ => pending_closedStore s.pending σ) (fun _ => pending_closedCold s.pending)
    (fun _ => ⟨fun s => pending_setTime (restored8 s)⟩) s t e rfl

/-- Settles O54: the step leaves the rest of the queue, and the command leaves the queue. -/
theorem stepsTakeOneCommand : Obligations.StepsTakeOneCommand := by
  unfold Obligations.StepsTakeOneCommand
  intro c l s t front e
  rw [step_cons front] at e
  exact exec_pending e

/-! ### Manifests before the map -/

/-- Every manifest is closed. -/
def AllClosed (s : State) : Prop := ∀ m, (s.man m).st = .closed

theorem allClosed_congr {s t : State} (h : t.mans = s.mans) (closed : AllClosed s) : AllClosed t := fun m => (congrArg Manifest.st (man_congr h m)).trans (closed m)

theorem allClosed_closed : Closed AllClosed :=
  ⟨fun _ _ _ h => h, fun _ _ h => h, fun _ _ _ h => h, by intros; assumption⟩

/-- The writers of every other store leave the manifests. -/
theorem allClosed_closedStore {σ : Store} (h : σ ≠ .mans) : ClosedStore AllClosed σ := by
  cases σ
  case ix => exact ⟨fun _ _ _ _ h => h, fun _ _ h => h, fun _ _ _ h => h⟩
  case streams => exact ⟨fun _ _ _ _ h => h, fun _ _ h => h⟩
  case mans => exact absurd rfl h
  case accts => exact ⟨fun _ _ _ _ h => h, fun _ _ h => h⟩
  case dram => exact ⟨fun _ _ _ _ => allClosed_congr (by simp), fun _ _ => allClosed_congr (by simp), fun _ _ _ _ _ => allClosed_congr (by simp)⟩
  case wmem => exact ⟨fun _ _ _ => allClosed_congr (by simp)⟩

theorem allClosed_closedCold : ClosedCold AllClosed := by
  refine ⟨fun c n s _ m => ?_⟩
  have none : (coldState c n s).mans = [] := by
    unfold coldState
    simp only [fset_mans, fsetB_mans]
    rfl
  rw [State.man, none]
  rfl

/-- A manifest's record may change, but not its being closed. -/
theorem allClosed_setMan {m : Nat} {x : Manifest} {s : State} (closed : AllClosed s) (st : x.st = .closed) : AllClosed (setMan m x s) := by
  intro k
  by_cases h : k = m
  · subst h
    rw [setMan_man, st]
  · rw [setMan_man_ne h]
    exact closed k

/-! ### A boundary -/

section
variable (l : List (Nat × MFields)) (m : Nat) {s : State} (closed : AllClosed s)
include closed

/-- The boundary writes of a manifest's record its shortfall state alone. -/
theorem allClosed_periodAccount (c : Fin 16) : AllClosed (periodAccount l c m s) := by
  have account : ClosedAcct AllClosed := allClosed_closedStore (σ := .accts) (by decide)
  unfold periodAccount
  dsimp only
  generalize hx : setMan m _ (setAcct m c _ s) = x
  have record : AllClosed x := hx ▸ allClosed_setMan (setAcct_keeps allClosed_closed account _ _ _ _ closed) (closed m)
  have event : ∀ h fs, AllClosed (emit h fs x) := fun h fs => emit_keeps allClosed_closed h fs x record
  split
  · split
    · exact record
    · exact onlyIf_keeps allClosed_closed _ _ _ (fun y => irq_keeps allClosed_closed _ y) (event _ _)
  · split
    · exact event _ _
    · exact record

theorem allClosed_manWord9 : AllClosed (manWord9 l m s) := allClosed_setMan closed (closed m)

theorem allClosed_wayShare : AllClosed (wayShare l m s) := by
  have way : ClosedWay AllClosed := allClosed_closedStore (σ := .wmem) (by decide)
  have record : ∀ r, AllClosed (setMan m { s.man m with wayRed := r } s) := fun r => allClosed_setMan closed (closed m)
  have event : ∀ h fs r, AllClosed (emit h fs (setMan m { s.man m with wayRed := r } s)) := fun h fs r => emit_keeps allClosed_closed h fs _ (record r)
  unfold wayShare
  dsimp only
  split
  · split
    · exact closed
    · exact onlyIf_keeps allClosed_closed _ _ _ (fun y => irq_keeps allClosed_closed _ y) (trimFrames_keeps allClosed_closed way _ _ _ (event _ _ _))
  · split
    · exact event _ _ _
    · exact closed

theorem allClosed_periodAccounts (replay : Bool) : AllClosed (periodAccounts replay s) := by
  have account : ClosedAcct AllClosed := allClosed_closedStore (σ := .accts) (by decide)
  unfold periodAccounts
  dsimp only
  generalize hx : forAll (members _) _ (acctsZero _ _) = x
  have limits : AllClosed x := by
    subst hx
    refine forAll_keeps_prop _ _ (acctsZero_keeps allClosed_closed account _ _ (manBoundary_keeps allClosed_closed _ closed)) fun c y hy => ?_
    refine forAll_keeps_prop _ _ (fset_keeps allClosed_closed _ _ _ _ (fset_keeps allClosed_closed _ _ _ _ (fset_keeps allClosed_closed _ _ _ _ hy))) fun m z hz => ?_
    split
    · exact setAcct_keeps allClosed_closed account _ _ _ _ hz
    · exact allClosed_periodAccount _ _ hz _
  split
  · exact limits
  · exact fsetB_keeps allClosed_closed _ _ _ _ (forAll_keeps_prop _ _ limits fun m y hy => allClosed_wayShare _ _ (allClosed_manWord9 _ _ hy))

theorem allClosed_periodBoundary : AllClosed (periodBoundary s) := by
  have passed : AllClosed (advanceToNs s.perEnd s) := advanceToNs_keeps allClosed_closed _ _ closed
  have next : AllClosed { advanceToNs s.perEnd s with perEnd := ((advanceToNs s.perEnd s).ns / 1024 + 1) * 1024 } := passed
  unfold periodBoundary
  split
  · exact closed
  · dsimp only
    refine covAll_keeps allClosed_closed _ ?_
    refine forAll_keeps_prop _ _ ?_ fun c y => bucketPeriod_keeps allClosed_closed c y
    exact allClosed_periodAccounts next _

end

/-! ### The `manifest` verb -/

/-- A verb leaves the manifests as its effect does, or has none. -/
theorem runVerb1_mans (f : State → State × OutLn) (s : State) : (runVerb1 f s).mans = s.mans ∨ (runVerb1 f s).mans = (f s).1.mans := by
  unfold runVerb1 runVerb
  dsimp only
  split
  · exact .inl rfl
  · split
    · exact .inl (answer_mans _ _)
    · exact .inr (answer_mans _ _)

theorem manOpen_nomap (commit : State → State) {m : Nat} (f : MFields) {s : State} (lt : m < 256) (nomap : mapLoaded s = false) :
    manOpen commit m f s = (s, erLn 411 "manifest state" [("id", .n m), ("state", .s "nomap")]) := by
  unfold manOpen
  rw [if_neg (by omega), if_pos (by rw [nomap]; rfl)]

theorem manOpen_nomap_mans (commit : State → State) (m : Nat) (f : MFields) {s : State} (nomap : mapLoaded s = false) : (manOpen commit m f s).1.mans = s.mans := by
  by_cases lt : m < 256
  · rw [manOpen_nomap commit f lt nomap]
  · unfold manOpen
    rw [if_pos (by omega)]

/-- A manifest that is not OPEN is neither modified nor closed. -/
theorem manModifyAll_closed_mans (m : Nat) (x : MMod) {s : State} (closed : AllClosed s) : (manModifyAll m x s).1.mans = s.mans := by
  have refused : manModify m x s = (s, (manModify m x s).2) ∧ (manModify m x s).2.head = "er" := by
    unfold manModify
    simp only [closed m]
    split <;> exact ⟨rfl, rfl⟩
  unfold manModifyAll
  dsimp only
  rw [refused.2, refused.1]
  rfl

theorem manClose_closed_mans (m : Nat) (force : Bool) {s : State} (closed : AllClosed s) : (manClose m force s).1.mans = s.mans := by
  unfold manClose
  simp only [closed m]
  split <;> rfl

theorem manClosed_closed (m : Nat) {s : State} (closed : AllClosed s) : manClosed m s = s := by
  unfold manClosed
  simp [closed m]

/-! ### Every command -/

/-- The commands that write the manifests: the ends of a start, which clear them, the boundary, and the verb. -/
theorem writes_mans {c : Instr} (h : Store.mans ∈ stores c) :
    mayStart c = true ∨ c = .periodBoundary ∨ (∃ m f, c = .manifestOpen m f) ∨ (∃ m x, c = .manifestModify m x) ∨ (∃ m b, c = .manifestClose m b) ∨ ∃ m, c = .manifestClosed m := by
  cases c <;> simp_all [stores, mayStart]

theorem allClosed_setTime (n : Nat) {s : State} (closed : AllClosed s) : AllClosed { s with d8 := n } := closed

theorem allClosed_closedRestore : ClosedRestore AllClosed := ⟨fun s => allClosed_setTime (restored8 s)⟩

/-- A start ends with no manifest in the table. -/
theorem allClosed_start {c : Instr} {s t : State} (start : mayStart c = true) (e : exec c s = .next t) (closed : AllClosed s) : AllClosed t := by
  have store : ∀ {σ}, σ ≠ .mans → ClosedStore AllClosed σ := allClosed_closedStore
  unfold mayStart at start
  split at start
  · exact execBankImageRestored_keeps allClosed_closed (store (σ := .streams) (by decide)) (store (σ := .accts) (by decide)) (store (σ := .wmem) (by decide)) allClosed_closedCold _ s closed t e
  · exact execGateRampStage_keeps allClosed_closed (store (σ := .ix) (by decide)) allClosed_closedCold allClosed_closedRestore _ s closed t e
  · exact execResetNRelease_keeps allClosed_closed (store (σ := .ix) (by decide)) (store (σ := .streams) (by decide)) (store (σ := .accts) (by decide)) (store (σ := .dram) (by decide)) (store (σ := .wmem) (by decide)) allClosed_closedCold s closed t e
  · exact execAnswerSent_keeps allClosed_closed (store (σ := .streams) (by decide)) (store (σ := .accts) (by decide)) (store (σ := .wmem) (by decide)) allClosed_closedCold s closed t e
  · cases start

/-- A verb whose effect leaves the manifests leaves them. -/
theorem allClosed_runVerb1 {f : State → State × OutLn} {s : State} (kept : (f s).1.mans = s.mans) (closed : AllClosed s) : AllClosed (runVerb1 f s) :=
  allClosed_congr ((runVerb1_mans f s).elim id fun h => h.trans kept) closed

/-- Settles O56: before the map is loaded `manifest open` is refused, and the other commands that write a manifest's record leave it closed. -/
theorem noManifestBeforeTheMap : Obligations.NoManifestBeforeTheMap := by
  unfold Obligations.NoManifestBeforeTheMap
  refine ⟨fun m f s ready lt nomap => ?_, fun c s t nomap closed e => ?_⟩
  · have refused := manOpen_nomap layoutCommit f lt (s := afterClear s) nomap
    refine ⟨_, congrArg Host.Outcome.next (runVerb1_ready ready _), ?_, ?_⟩
    · rw [refused, answer_ans]
    · rw [answer_mans, refused]
      rfl
  · by_cases writes : Store.mans ∈ stores c
    swap
    · exact allClosed_congr (exec_keptStore e writes) closed
    obtain start | rfl | ⟨m, f, rfl⟩ | ⟨m, x, rfl⟩ | ⟨m, b, rfl⟩ | ⟨m, rfl⟩ := writes_mans writes
    · exact allClosed_start start e closed
    · obtain rfl := Host.Outcome.next.inj e
      exact allClosed_periodBoundary closed
    · obtain rfl := Host.Outcome.next.inj e
      exact allClosed_runVerb1 (manOpen_nomap_mans layoutCommit m f (s := afterClear s) nomap) closed
    · obtain rfl := Host.Outcome.next.inj e
      exact allClosed_runVerb1 (manModifyAll_closed_mans m x closed) closed
    · obtain rfl := Host.Outcome.next.inj e
      exact allClosed_runVerb1 (manClose_closed_mans m b closed) closed
    · obtain rfl := Host.Outcome.next.inj e
      rw [manClosed_closed m closed, ite_self]
      exact closed

end Sys2Proof.Proofs

/-! PROOF. The register bus: what an access of a listed register, of a complement port and of an indirect window comes to (16 R456 to R468). -/

namespace Sys2Proof.Proofs
open Sys2Proof Sys2Proof.Machine Sys2Proof.Laws

/-! ### Access -/

theorem blockOn_iff {s : State} {b : Nat} :
    blockOn s b = true ↔ consoleOn s = true ∧ domState s (blockDom b).1 = 2 ∧ (s.pwr.mode == .doze && (blockDom b).2) = false := by
  simp only [blockOn, Bool.and_eq_true, beq_iff_eq, Bool.not_eq_true', and_assoc]

theorem consoleOn_of_blockOn {s : State} {b : Nat} (on : blockOn s b = true) : consoleOn s = true := (blockOn_iff.mp on).1

theorem consoleOn_congr {s t : State} (pwr : t.pwr = s.pwr) : consoleOn t = consoleOn s := by
  unfold consoleOn
  rw [pwr]

theorem domState_congr {s t : State} {d : Nat} (reg : rg t (PWR + (PWR_DOMSTAT_STATE.nth d).off) = rg s (PWR + (PWR_DOMSTAT_STATE.nth d).off)) : domState t d = domState s d := by
  unfold domState fget
  rw [reg]

/-- Access rests on the power state and on the domains' registers. -/
theorem blockOn_congr {s t : State} (pwr : t.pwr = s.pwr) (regs : ∀ a, PWR ≤ a → rg t a = rg s a) (b : Nat) : blockOn t b = blockOn s b := by
  unfold blockOn
  rw [consoleOn_congr pwr, domState_congr (regs _ (Nat.le_add_right _ _)), pwr]

theorem rg_breakPair {a : Nat} (s : State) (h : GLB + 0x1000 ≤ a) : rg (breakPair s) a = rg s a :=
  breakPair_rg s (by simp only [GLB, GLB_STATUS_GUARD_FAIL] at *; omega) (by simp only [GLB, GLB_IRQ_STAT_GUARD] at *; omega)

theorem blockOn_breakPair (s : State) (b : Nat) : blockOn (breakPair s) b = blockOn s b :=
  blockOn_congr (breakPair_pwr s) (fun a h => rg_breakPair s (by simp only [GLB, PWR] at *; omega)) b

theorem breakPair_some {s : State} {x : Nat × Word × Nat} (h : s.guard = some x) : breakPair s = guardFail { s with guard := none } := by
  unfold breakPair
  rw [h]

theorem guardFail_flags (s : State) : fbit (guardFail s) GLB GLB_STATUS_GUARD_FAIL = true ∧ fbit (guardFail s) GLB GLB_IRQ_STAT_GUARD = true := by
  refine ⟨?_, fbit_fset_one _ _ _ (by decide) (by decide)⟩
  rw [fbit, guardFail, irq, fget_fset_ne _ _ _ _ _ _ (by decide)]
  exact fbit_fset_one _ _ _ (by decide) (by decide)

theorem rg_guardFail {a : Nat} (s : State) (h : GLB + 0x1000 ≤ a) : rg (guardFail s) a = rg s a := by
  rw [guardFail, irq, rg_fset_ne _ _ _ _ (by simp only [GLB, GLB_IRQ_STAT_GUARD] at *; omega), rg_fset_ne _ _ _ _ (by simp only [GLB, GLB_STATUS_GUARD_FAIL] at *; omega)]

theorem sameStore_guardFail (s : State) : sameStore s (guardFail s) := sameStore_trans (sameStore_fset _ _ _ s) (sameStore_fset _ _ _ _)

/-! ### Rows of the register index -/

/-- A register of the index: its block, its offset and its row. -/
structure RegAt (b off : Nat) (r : RegD) : Prop where
  listed : ∃ rows, blockOf (b + off) = some (b, rows) ∧ ∃ k, rowAt rows off = some (r, k)
  low : off < 0x800

/-- A field's value goes into the word as it is. -/
theorem writeWord_plain {r : RegD} {f : FieldD} (sole : r.fields = [f]) (acc : f.acc = .rw ∨ f.acc = .wg) (old v : Word) :
    writeWord r old v = (⟨0, f.lsb, f.width⟩ : Fld).put ((⟨0, f.lsb, f.width⟩ : Fld).get v) old := by
  unfold writeWord
  rw [sole]
  rcases acc with h | h <;> simp [h]

/-- A masked field takes the bits of the mask from the value. -/
theorem writeWord_masked {r : RegD} {f : FieldD} (sole : r.fields = [f]) (acc : f.acc = .wm) (old v : Word) :
    writeWord r old v = (⟨0, f.lsb, f.width⟩ : Fld).put
      (Nat.lor (Nat.xor ((⟨0, f.lsb, f.width⟩ : Fld).get old) (Nat.land ((⟨0, f.lsb, f.width⟩ : Fld).get old) (v.toNat / 65536))) (Nat.land (v.toNat % 65536) (v.toNat / 65536))) old := by
  unfold writeWord
  rw [sole]
  simp [acc]

theorem rg_store_same (a : Nat) (r : RegD) (v : Word) (s : State) : rg (store a r v s) a = writeWord r (rg s a) v := rg_rgSet _ _ _

theorem rg_store_ne {a x : Nat} (r : RegD) (v : Word) (s : State) (h : x ≠ a) : rg (store a r v s) x = rg s x := rg_rgSet_ne _ _ _ _ h

theorem sameStore_store (a : Nat) (r : RegD) (v : Word) (s : State) : sameStore s (store a r v s) := sameStore_rgSet _ _ _

section
variable {b off : Nat} {r : RegD} (reg : RegAt b off r) (v : Word) {s : State} (on : blockOn s b = true)
include reg on

/-- A write of a listed register, by its access types. -/
theorem busWrite_listed : busWrite (b + off) v s =
    if writable r = false then fset GLB GLB_STATUS_RO_WRITE 1 (breakPair s)
    else if guarded r then { breakPair s with guard := some (b + off, v, s.d8) }
    else regWrite b off r v (breakPair s) := by
  obtain ⟨⟨rows, block, k, row⟩, low⟩ := reg
  have port : ¬(0x800 ≤ off ∧ off < 0xFF0) := by omega
  have window : ¬(off = 0xFF0 ∨ off = 0xFF4) := by omega
  unfold busWrite
  rw [consoleOn_of_blockOn on, block]
  simp only [Nat.add_sub_cancel_left, port, window, row, blockOn_breakPair, on, breakPair_d8, Bool.not_true, Bool.false_eq_true, if_false, Bool.not_eq_true']

theorem busWrite_plain (w : writable r = true) (g : guarded r = false) : busWrite (b + off) v s = regWrite b off r v (breakPair s) := by
  rw [busWrite_listed reg v on, if_neg (by simp [w]), if_neg (by simp [g])]

theorem busWrite_value (w : writable r = true) (g : guarded r = true) : busWrite (b + off) v s = { breakPair s with guard := some (b + off, v, s.d8) } := by
  rw [busWrite_listed reg v on, if_neg (by simp [w]), if_pos g]

theorem busWrite_readOnly (w : writable r = false) : busWrite (b + off) v s = fset GLB GLB_STATUS_RO_WRITE 1 (breakPair s) := by
  rw [busWrite_listed reg v on, if_pos w]

omit v

/-- A read of a listed register but DTIME. -/
theorem busRead_listed (time : b + off ≠ GLB + GLB_DTIME_LO_NS_LO.off) : busRead (b + off) s = (regVal s (b + off), rcRestart (b + off) s) := by
  obtain ⟨⟨rows, block, k, row⟩, low⟩ := reg
  have port : ¬(0x800 ≤ off ∧ off < 0xFF0) := by omega
  have index : off ≠ 0xFF0 := by omega
  have data : off ≠ 0xFF4 := by omega
  unfold busRead
  rw [consoleOn_of_blockOn on, block]
  simp only [Nat.add_sub_cancel_left, port, index, data, row, on, time, Bool.not_true, Bool.false_eq_true, if_false]

end

end Sys2Proof.Proofs

/-! PROOF. Register writes by access type: plain, masked and guarded, and the clear-on-read (16 R456 to R466). -/

namespace Sys2Proof.Proofs
open Sys2Proof Sys2Proof.Machine Sys2Proof.Laws

/-! ### The registers of the statements -/

/-- TXN_BACKOFF (04 R125). -/
def backoffReg : RegD := ⟨"backoff", 0x018, 1, 0x00000020, false, [⟨"base_ns", 0, 10, .rw⟩]⟩

/-- TXN_HORIZON (01 R28). -/
def horizonReg : RegD := ⟨"horizon", 0x010, 1, 0x0000FFFF, false, [⟨"horizon_us", 0, 16, .ro⟩]⟩

/-- TXN_DUPSTAT. -/
def dupstatReg : RegD := ⟨"dupstat", 0x014, 1, 0x00000000, false, [⟨"dup_done", 0, 16, .rc⟩, ⟨"dup_acc", 16, 16, .rc⟩]⟩

/-- GLB_IRQ_EN. -/
def irqEnReg : RegD := ⟨"irq_en", 0x00C, 1, 0x00000000, false, [⟨"en", 0, 16, .wm⟩]⟩

/-- LED_HOLD. -/
def holdReg : RegD := ⟨"hold", 0x020, 1, 0x00000000, false, [⟨"hold_uj", 0, 24, .wg⟩]⟩

/-- LED_WINMAX. -/
def winmaxReg : RegD := ⟨"winmax", 0x010, 1, 0x00000000, false, [⟨"e_nj", 0, 32, .rc⟩]⟩

theorem backoffReg_at : RegAt TXN TXN_BACKOFF_BASE_NS.off backoffReg := ⟨⟨_, rfl, _, rfl⟩, by decide⟩
theorem horizonReg_at : RegAt TXN TXN_HORIZON_HORIZON_US.off horizonReg := ⟨⟨_, rfl, _, rfl⟩, by decide⟩
theorem dupstatReg_at : RegAt TXN TXN_DUPSTAT_DUP_DONE.off dupstatReg := ⟨⟨_, rfl, _, rfl⟩, by decide⟩
theorem irqEnReg_at : RegAt GLB GLB_IRQ_EN_EN.off irqEnReg := ⟨⟨_, rfl, _, rfl⟩, by decide⟩
theorem holdReg_at : RegAt LED LED_HOLD_HOLD_UJ.off holdReg := ⟨⟨_, rfl, _, rfl⟩, by decide⟩
theorem winmaxReg_at : RegAt LED LED_WINMAX_E_NJ.off winmaxReg := ⟨⟨_, rfl, _, rfl⟩, by decide⟩

/-! ### What a write of them stores -/

theorem regWrite_backoff (v : Word) (s : State) : regWrite TXN TXN_BACKOFF_BASE_NS.off backoffReg v s = store (TXN + TXN_BACKOFF_BASE_NS.off) backoffReg v s := rfl

theorem regWrite_irqEn (v : Word) (s : State) : regWrite GLB GLB_IRQ_EN_EN.off irqEnReg v s = store (GLB + GLB_IRQ_EN_EN.off) irqEnReg v s := rfl

theorem regWrite_hold (v : Word) (s : State) : regWrite LED LED_HOLD_HOLD_UJ.off holdReg v s = store (LED + LED_HOLD_HOLD_UJ.off) holdReg v s := rfl

theorem fget_store_backoff (v : Word) (s : State) : fget (store (TXN + TXN_BACKOFF_BASE_NS.off) backoffReg v s) TXN TXN_BACKOFF_BASE_NS = v.toNat % 1024 := by
  rw [fget, rg_store_same, writeWord_plain (f := ⟨"base_ns", 0, 10, .rw⟩) rfl (.inl rfl)]
  refine (Fld_get_put (⟨0, 0, 10⟩ : Fld) _ _ (by decide)).trans ?_
  simp [Fld.get]

theorem fget_store_hold (v : Word) (s : State) : fget (store (LED + LED_HOLD_HOLD_UJ.off) holdReg v s) LED LED_HOLD_HOLD_UJ = v.toNat % 2 ^ 24 := by
  rw [fget, rg_store_same, writeWord_plain (f := ⟨"hold_uj", 0, 24, .wg⟩) rfl (.inr rfl)]
  refine (Fld_get_put (⟨0, 0, 24⟩ : Fld) _ _ (by decide)).trans ?_
  simp [Fld.get]

/-- The field of the masked register after a write: the old bits outside the mask, the value's bits in it. -/
def merged (old : Nat) (v : Word) : Nat :=
  Nat.lor (Nat.xor old (Nat.land old (v.toNat / 65536))) (Nat.land (v.toNat % 65536) (v.toNat / 65536))

theorem fget_store_irqEn (v : Word) (s : State) : fget (store (GLB + GLB_IRQ_EN_EN.off) irqEnReg v s) GLB GLB_IRQ_EN_EN = merged (fget s GLB GLB_IRQ_EN_EN) v % 2 ^ 16 := by
  rw [fget, rg_store_same, writeWord_masked (f := ⟨"en", 0, 16, .wm⟩) rfl rfl]
  exact Fld_get_put (⟨0, 0, 16⟩ : Fld) _ _ (by decide)

theorem testBit_merged (old : Nat) (v : Word) {i : Nat} (h : i < 16) :
    (merged old v % 2 ^ 16).testBit i = if v.getLsbD (i + 16) then v.getLsbD i else old.testBit i := by
  have mask : (v.toNat / 65536).testBit i = v.getLsbD (i + 16) := by
    rw [show (65536 : Nat) = 2 ^ 16 from rfl, Nat.testBit_div_two_pow, BitVec.testBit_toNat]
  have value : (v.toNat % 65536).testBit i = v.getLsbD i := by
    rw [show (65536 : Nat) = 2 ^ 16 from rfl, Nat.testBit_mod_two_pow, BitVec.testBit_toNat, decide_eq_true h, Bool.true_and]
  have bits : (merged old v).testBit i = (Bool.xor (old.testBit i) (old.testBit i && v.getLsbD (i + 16)) || v.getLsbD i && v.getLsbD (i + 16)) := by
    have split : merged old v = (old ^^^ (old &&& v.toNat / 65536)) ||| (v.toNat % 65536 &&& v.toNat / 65536) := rfl
    rw [split, Nat.testBit_or, Nat.testBit_xor, Nat.testBit_and, Nat.testBit_and, mask, value]
  rw [Nat.testBit_mod_two_pow, decide_eq_true h, Bool.true_and, bits]
  cases v.getLsbD (i + 16) <;> cases old.testBit i <;> cases v.getLsbD i <;> rfl

/-- A mask of 0 changes nothing. -/
theorem merged_noMask (old : Nat) {v : Word} (h : v.toNat < 65536) : merged old v = old := by
  have zero : v.toNat / 65536 = 0 := Nat.div_eq_of_lt h
  have split : merged old v = (old ^^^ (old &&& v.toNat / 65536)) ||| (v.toNat % 65536 &&& v.toNat / 65536) := rfl
  rw [split, zero]
  simp

/-! ### The one masked register -/

/-- The register rows of every block but GLB. -/
def otherRows : List (List RegD) :=
  [conRegs, hpRegs, txnRegs, manRegs, arbRegs, wayRegs, queRegs, wlkRegs, chRegs, phyRegs, ledRegs, bstRegs, pwrRegs, aonRegs, snpRegs, jrnRegs]

/-- A block's rows are GLB's, or another block's. -/
def RowsListed (x : Option (Nat × List RegD)) : Prop := ∀ y ∈ x, y = (GLB, glbRegs) ∨ y.2 ∈ otherRows

theorem rowsListed_none : RowsListed none := fun _ h => nomatch h

theorem rowsListed_glb : RowsListed (some (0, glbRegs)) := fun _ h => .inl (Option.some.inj h).symm

theorem rowsListed_other {b : Nat} {rows : List RegD} (h : rows ∈ otherRows) : RowsListed (some (b, rows)) := fun _ e => .inr (Option.some.inj e ▸ h)

theorem blockOf_listed (a : Nat) : RowsListed (blockOf a) := by
  unfold blockOf
  refine iteInduction (motive := RowsListed) (fun _ => rowsListed_glb) fun _ => ?_
  repeat' refine iteInduction (motive := RowsListed) (fun _ => ?_) fun _ => ?_
  any_goals exact rowsListed_none
  all_goals refine rowsListed_other ?_
  all_goals simp only [otherRows, List.mem_cons, true_or, or_true]

theorem noMasked_other : ∀ rows ∈ otherRows, ∀ r ∈ rows, hasAcc r (fun x => x == .wm) = false := by decide +kernel

theorem masked_glb : ∀ r ∈ glbRegs, hasAcc r (fun x => x == .wm) = true → r.off = 12 ∧ r.count = 1 := by decide +kernel

theorem rowAt_some {rows : List RegD} {off k : Nat} {r : RegD} (h : rowAt rows off = some (r, k)) :
    r ∈ rows ∧ r.off ≤ off ∧ off < r.off + 4 * r.count ∧ (off - r.off) % 4 = 0 := by
  obtain ⟨x, found, e⟩ := Option.map_eq_some_iff.mp h
  obtain ⟨rfl, -⟩ := Prod.mk.inj e
  exact ⟨List.mem_of_find?_eq_some found, by simpa using List.find?_some found⟩

theorem regRow_masked (a : Nat) : (∃ r i, regRow a = some (r, i) ∧ hasAcc r (fun x => x == .wm) = true) ↔ a = GLB + GLB_IRQ_EN_EN.off := by
  constructor
  · rintro ⟨r, i, row, wm⟩
    unfold regRow at row
    split at row
    · cases row
    · next b rows block =>
      obtain ⟨mem, low, high, aligned⟩ := rowAt_some row
      rcases blockOf_listed a _ block with glb | other
      · obtain ⟨rfl, rfl⟩ := Prod.mk.inj glb
        obtain ⟨off, count⟩ := masked_glb r mem wm
        simp only [GLB, GLB_IRQ_EN_EN] at *
        omega
      · simp [noMasked_other rows other r mem] at wm
  · rintro rfl
    exact ⟨irqEnReg, 0, rfl, rfl⟩

theorem rg_irqEn_breakPair (s : State) : rg (breakPair s) (GLB + GLB_IRQ_EN_EN.off) = rg s (GLB + GLB_IRQ_EN_EN.off) := breakPair_rg s (by decide) (by decide)

theorem fget_irqEn_breakPair (s : State) : fget (breakPair s) GLB GLB_IRQ_EN_EN = fget s GLB GLB_IRQ_EN_EN := congrArg GLB_IRQ_EN_EN.get (rg_irqEn_breakPair s)

theorem exec_maskedWrite_irqEn (v : Word) {s : State} (on : blockOn s GLB = true) :
    exec (.maskedWrite (GLB + GLB_IRQ_EN_EN.off) v) s = .next (store (GLB + GLB_IRQ_EN_EN.off) irqEnReg v (breakPair s)) :=
  congrArg Host.Outcome.next ((busWrite_plain irqEnReg_at v on rfl rfl).trans (regWrite_irqEn v _))

/-- Settles O60: a masked write stores the bits of its mask, and GLB_IRQ_EN is the one register of the index with a masked field. -/
theorem maskedWritesMerge : Obligations.MaskedWritesMerge := by
  refine ⟨fun v s on => ⟨_, exec_maskedWrite_irqEn v on, fun i hi => ?_, fun noMask => ?_⟩, regRow_masked⟩
  · rw [fget_store_irqEn, testBit_merged _ _ hi, fget_irqEn_breakPair]
  · rw [fget_store_irqEn, merged_noMask _ noMask, fget_irqEn_breakPair]
    exact Nat.mod_eq_of_lt (fget_lt _ _ _)

/-! ### The guarded pair -/

theorem compWrite_completes {b off t8 : Nat} {r : RegD} {v : Word} {s : State} (reg : RegAt b off r) (on : blockOn s b = true)
    (pending : s.guard = some (b + off, v, t8)) (soon : s.d8 ≤ t8 + 256 * mgt8 s) : compWrite (b + off) (~~~v) s = regWrite b off r v { s with guard := none } := by
  obtain ⟨⟨rows, block, k, row⟩, -⟩ := reg
  have on' : blockOn { s with guard := none } b = true := on
  have soon' : ({ s with guard := none } : State).d8 ≤ t8 + 256 * mgt8 { s with guard := none } := soon
  unfold compWrite
  rw [pending]
  simp only [block, Nat.add_sub_cancel_left, row, on', soon', Bool.not_true, Bool.false_eq_true, if_false, and_self, if_true]

theorem compWrite_fails {a t8 : Nat} {v w : Word} {s : State} (pending : s.guard = some (a, v, t8)) (other : w ≠ ~~~v) :
    compWrite a w s = guardFail { s with guard := none } := by
  unfold compWrite
  rw [pending]
  simp only [other, false_and, and_false, if_false]

/-- A write in the range of the complement ports goes to the pair of the register 0x800 below. -/
theorem busWrite_complement {a b off : Nat} {rows : List RegD} (block : blockOf a = some (b, rows)) (at_ : a - b = off) (low : 0x800 ≤ off) (high : off < 0xFF0)
    (w : Word) {s : State} (con : consoleOn s = true) : busWrite a w s = compWrite (a - 0x800) w s := by
  have port : 0x800 ≤ off ∧ off < 0xFF0 := ⟨low, high⟩
  unfold busWrite
  simp only [con, block, at_, port, and_self, if_true, Bool.not_true, Bool.false_eq_true, if_false]

theorem holdPort_at : LED + LED_HOLD_HOLD_UJ.off + 0x800 = 0x300820 := rfl

theorem holdPort_block : blockOf 0x300820 = some (LED, ledRegs) := rfl

theorem busWrite_holdComplement (w : Word) {s : State} (con : consoleOn s = true) :
    busWrite (LED + LED_HOLD_HOLD_UJ.off + 0x800) w s = compWrite (LED + LED_HOLD_HOLD_UJ.off) w s := by
  rw [holdPort_at]
  exact busWrite_complement (off := 0x820) holdPort_block rfl (by decide) (by decide) w con

/-! ### What each access leaves -/

theorem exec_guardedValueWrite_hold (v : Word) {s : State} (on : blockOn s LED = true) :
    exec (.guardedValueWrite (LED + LED_HOLD_HOLD_UJ.off) v) s = .next { breakPair s with guard := some (LED + LED_HOLD_HOLD_UJ.off, v, s.d8) } :=
  congrArg Host.Outcome.next (busWrite_value holdReg_at v on rfl rfl)

/-- A complement in time completes the pair of LED_HOLD. -/
theorem exec_guardedComplementWrite_hold {v : Word} {t8 : Nat} {s : State} (on : blockOn s LED = true) (hs : settled s)
    (pending : s.guard = some (LED + LED_HOLD_HOLD_UJ.off, v, t8)) (soon : s.d8 ≤ t8 + 256 * mgt8 s) :
    exec (.guardedComplementWrite (LED + LED_HOLD_HOLD_UJ.off) (~~~v)) s = .next (store (LED + LED_HOLD_HOLD_UJ.off) holdReg v { s with guard := none }) := by
  have written : busWrite (LED + LED_HOLD_HOLD_UJ.off + 0x800) (~~~v) s = store (LED + LED_HOLD_HOLD_UJ.off) holdReg v { s with guard := none } := by
    rw [busWrite_holdComplement _ (consoleOn_of_blockOn on), compWrite_completes holdReg_at on pending soon, regWrite_hold]
  have still : settled (store (LED + LED_HOLD_HOLD_UJ.off) holdReg v { s with guard := none }) := settled_congr hs rfl rfl
  exact congrArg Host.Outcome.next ((congrArg settle written).trans (settle_settled still))

/-- Another word at the complement port fails the pair. -/
theorem exec_guardedComplementWrite_fails {v w : Word} {t8 : Nat} {s : State} (con : consoleOn s = true) (hs : settled s)
    (pending : s.guard = some (LED + LED_HOLD_HOLD_UJ.off, v, t8)) (other : w ≠ ~~~v) :
    exec (.guardedComplementWrite (LED + LED_HOLD_HOLD_UJ.off) w) s = .next (guardFail { s with guard := none }) := by
  have written : busWrite (LED + LED_HOLD_HOLD_UJ.off + 0x800) w s = guardFail { s with guard := none } := by
    rw [busWrite_holdComplement _ con, compWrite_fails pending other]
  have still : settled (guardFail { s with guard := none }) := settled_congr hs rfl rfl
  exact congrArg Host.Outcome.next ((congrArg settle written).trans (settle_settled still))

theorem exec_guardTimeout_pending {a t8 : Nat} {v : Word} {s : State} (pending : s.guard = some (a, v, t8)) (run : dtimeRuns s = true) :
    exec .guardTimeout s = .next (guardFail { advanceTo8 (t8 + 256 * mgt8 s) s with guard := none }) := by
  refine congrArg Host.Outcome.next ?_
  rw [pending]
  exact if_pos run

theorem exec_guardTimeout_none {s : State} (free : s.guard = none) : exec .guardTimeout s = .next s := by
  refine congrArg Host.Outcome.next ?_
  rw [free]

/-! ### The clear-on-read -/

/-- What a read of a listed register leaves in the console and in the register. -/
theorem exec_clearOnRead_listed {b off : Nat} {r : RegD} (reg : RegAt b off r) {s : State} (on : blockOn s b = true) (time : b + off ≠ GLB + GLB_DTIME_LO_NS_LO.off)
    {w : Word} (restart : rcRestart (b + off) s = rgSet (b + off) w s) :
    exec (.clearOnRead (b + off)) s = .next { rgSet (b + off) w s with con := { s.con with rdata := regVal s (b + off) } } := by
  have con : consoleOn (rgSet (b + off) w s) = true := (consoleOn_congr (s := s) rfl).trans (consoleOn_of_blockOn on)
  have read : readBus (b + off) s = { rgSet (b + off) w s with con := { s.con with rdata := regVal s (b + off) } } := by
    unfold readBus
    rw [busRead_listed reg on time, restart]
    exact if_pos con
  exact congrArg Host.Outcome.next read

theorem regVal_winmax (s : State) : regVal s (LED + LED_WINMAX_E_NJ.off) = rg s (LED + LED_WINMAX_E_NJ.off) := rfl

theorem regVal_dupstat (s : State) : regVal s (TXN + TXN_DUPSTAT_DUP_DONE.off) = rg s (TXN + TXN_DUPSTAT_DUP_DONE.off) := rfl

theorem rcRestart_winmax (s : State) : rcRestart (LED + LED_WINMAX_E_NJ.off) s = rgSet (LED + LED_WINMAX_E_NJ.off) (rg s (LED + LED_WIN_E_NJ.off)) s := rfl

theorem rcRestart_dupstat (s : State) : rcRestart (TXN + TXN_DUPSTAT_DUP_DONE.off) s = rgSet (TXN + TXN_DUPSTAT_DUP_DONE.off) 0 s := rfl

/-- Settles O24: each access is the branch that its row's access type and the pending pair give. -/
theorem guardedAndMaskedWrites : Obligations.GuardedAndMaskedWrites := by
  refine ⟨fun v s on free => ?_, fun v w a t8 s on pending => ⟨_, exec_guardedValueWrite_hold v on, rfl, ?_⟩,
    fun v t8 s on hs pending soon => ⟨_, exec_guardedComplementWrite_hold on hs pending soon, rfl, fget_store_hold _ _, fun a h => rg_store_ne _ _ _ h, rfl, ?_⟩,
    fun v w t8 s con hs pending other => ⟨_, exec_guardedComplementWrite_fails con hs pending other, rfl, (guardFail_flags _).1, ?_, rfl, ?_⟩,
    fun a v t8 s pending run => ⟨_, exec_guardTimeout_pending pending run, rfl, (guardFail_flags _).1, (guardFail_flags _).2, rfl, ?_⟩,
    fun s free => exec_guardTimeout_none free,
    fun v s on free => ⟨_, exec_maskedWrite_irqEn v on, fun i hi => ?_, fun a h => ?_, ?_, ?_⟩,
    fun s on => ⟨_, exec_clearOnRead_listed winmaxReg_at on (by decide) (rcRestart_winmax s), regVal_winmax s, rg_rgSet (LED + LED_WINMAX_E_NJ.off) _ s, fun a h => rg_rgSet_ne _ _ _ _ h, rfl, ?_⟩,
    fun s on => ⟨_, exec_clearOnRead_listed dupstatReg_at on (by decide) (rcRestart_dupstat s), regVal_dupstat s, rg_rgSet (TXN + TXN_DUPSTAT_DUP_DONE.off) _ s, fun a h => rg_rgSet_ne _ _ _ _ h, rfl, ?_⟩⟩
  · rw [exec_guardedValueWrite_hold v on, breakPair_none free]
  · rw [breakPair_some pending]
    exact ⟨(guardFail_flags _).1, (guardFail_flags _).2, congrArg LED_HOLD_HOLD_UJ.get (rg_guardFail _ (by decide)), rfl, sameStore_guardFail _⟩
  · exact sameStore_store _ _ _ _
  · exact congrArg LED_HOLD_HOLD_UJ.get (rg_guardFail _ (by decide))
  · exact sameStore_guardFail _
  · exact sameStore_guardFail _
  · rw [fget_store_irqEn, testBit_merged _ _ hi, fget_irqEn_breakPair]
  · rw [rg_store_ne _ _ _ h, breakPair_none free]
  · rw [breakPair_none free]
    rfl
  · rw [breakPair_none free]
    exact sameStore_store _ _ _ _
  · exact ⟨rfl, rfl, rfl, rfl, rfl, rfl⟩
  · exact ⟨rfl, rfl, rfl, rfl, rfl, rfl⟩

end Sys2Proof.Proofs

/-! PROOF. The indirect windows, and plain register writes (16 R458, R459, R468). -/

namespace Sys2Proof.Proofs
open Sys2Proof Sys2Proof.Machine Sys2Proof.Laws

/-! ### The pair of a window -/

section
variable {b : Nat} {rows : List RegD} {s : State} (on : blockOn s b = true)
include on

theorem busWrite_index (block : blockOf (b + 0xFF0) = some (b, rows)) (v : Word) :
    busWrite (b + 0xFF0) v s = rgSet (b + 0xFF0) (w32 (v.toNat % 2 ^ 24)) (dropLatch b (breakPair s)) := by
  have port : ¬(0x800 ≤ 0xFF0 ∧ 0xFF0 < 0xFF0) := by decide
  unfold busWrite
  simp only [consoleOn_of_blockOn on, block, Nat.add_sub_cancel_left, port, true_or, blockOn_breakPair, on, Bool.not_true, Bool.false_eq_true, if_false, if_true]

theorem busWrite_data (block : blockOf (b + 0xFF4) = some (b, rows)) (v : Word) : busWrite (b + 0xFF4) v s = indWrite b v (breakPair s) := by
  have port : ¬(0x800 ≤ 0xFF4 ∧ 0xFF4 < 0xFF0) := by decide
  have index : (0xFF4 : Nat) ≠ 0xFF0 := by decide
  unfold busWrite
  simp only [consoleOn_of_blockOn on, block, Nat.add_sub_cancel_left, port, index, or_true, blockOn_breakPair, on, Bool.not_true, Bool.false_eq_true, if_false, if_true]

theorem busRead_data (block : blockOf (b + 0xFF4) = some (b, rows)) : busRead (b + 0xFF4) s = indRead b s := by
  have port : ¬(0x800 ≤ 0xFF4 ∧ 0xFF4 < 0xFF0) := by decide
  have index : (0xFF4 : Nat) ≠ 0xFF0 := by decide
  unfold busRead
  simp only [consoleOn_of_blockOn on, block, Nat.add_sub_cancel_left, port, index, on, Bool.not_true, Bool.false_eq_true, if_false, if_true]

end

/-! ### The index -/

theorem ixAt_rgSet (b n : Nat) (s : State) : ixAt (rgSet (b + 0xFF0) (w32 (n % 2 ^ 24)) s) b = n % 2 ^ 24 := by
  have small : n % 2 ^ 24 < 2 ^ 24 := Nat.mod_lt _ (by decide)
  unfold ixAt
  rw [rg_rgSet, w32, BitVec.toNat_ofNat]
  omega

theorem ixAt_ixStep (b : Nat) (s : State) : ixAt (ixStep b s) b = (ixAt s b + 1) % 2 ^ 24 := ixAt_rgSet b _ s

theorem ixAt_congr {s t : State} (regs : t.regs = s.regs) (b : Nat) : ixAt t b = ixAt s b := by
  unfold ixAt
  rw [rg_congr regs]

theorem rg_ixStep_ne {a b : Nat} (h : a ≠ b + 0xFF0) (s : State) : rg (ixStep b s) a = rg s a := rg_rgSet_ne _ _ _ _ h

/-! ### The coefficient table -/

/-- The window after an access: its index has stepped on, and no entry is latched. -/
def windowNext (b : Nat) (s : State) : State := dropLatch b (ixStep b s)

theorem ixAt_windowNext (b : Nat) (s : State) : ixAt (windowNext b s) b = (ixAt s b + 1) % 2 ^ 24 := ixAt_ixStep b s

theorem rg_windowNext {a b : Nat} (h : a ≠ b + 0xFF0) (s : State) : rg (windowNext b s) a = rg s a := rg_ixStep_ne h s

theorem sameStore_windowNext (b : Nat) (s : State) : sameStore s (windowNext b s) := ⟨rfl, rfl, rfl, rfl, rfl, rfl⟩

theorem coefMask_low {i : Nat} (h : i < 0x0E) : coefMask i = some 0xFFFFF := if_pos h

theorem ixSpan_led {i : Nat} (h : i < 0x100) : (ixSpan LED i).2 = 1 := by
  have low : ¬0x100 ≤ i := by omega
  simp [ixSpan, CON, TXN, MAN, ARB, WAY, QUE, WLK, LED, low]

theorem ixWord_led (s : State) (f : Nat) {i : Nat} (h : i < 0x100) : ixWord s f LED i = (coefMask i).map fun _ => ixGet s LED i := by
  have low : ¬(0x100 ≤ i ∧ i < 0x302) := by omega
  simp [ixWord, GLB, CON, TXN, MAN, ARB, WAY, QUE, WLK, LED, low]

theorem ixWrite_led (i : Nat) (v : Word) {m : Nat} (s : State) (mask : coefMask i = some m) (some_ : m ≠ 0) : ixWrite LED i v s = some (ixSet LED i (maskPut m (ixGet s LED i) v) s) := by
  simp [ixWrite, GLB, TXN, WAY, WLK, LED, mask, some_]

theorem indRead_led {s : State} (h : ixAt s LED < 0x0E) : indRead LED s = (ixGet s LED (ixAt s LED), windowNext LED { s with free := s.free + 1 }) := by
  have wide : ixAt s LED < 0x100 := by omega
  have span := ixSpan_led wide
  have word : ∀ (x : State) f, ixWord x f LED (ixAt s LED) = some (ixGet x LED (ixAt s LED)) := fun x f => by rw [ixWord_led x f wide, coefMask_low h]; rfl
  unfold indRead
  simp only [word, span, takeFree, if_true]
  rfl

/-- A write through the window where the table has an entry. -/
theorem indWrite_led (v : Word) {s : State} (h : ixAt s LED < 0x0E) :
    indWrite LED v s = ixSet LED (ixAt s LED) (maskPut 0xFFFFF (ixGet s LED (ixAt s LED)) v) (windowNext LED s) := by
  have wide : ixAt s LED < 0x100 := by omega
  have span := ixSpan_led wide
  have word : ∀ (x : State) f, ixWord x f LED (ixAt s LED) = some (ixGet x LED (ixAt s LED)) := fun x f => by rw [ixWord_led x f wide, coefMask_low h]; rfl
  have walk : (LED == WLK) = false := rfl
  unfold indWrite
  simp only [word, span, walk, ne_eq, not_true_eq_false, false_and, if_false, Bool.false_and, onlyIf, Bool.false_eq_true, ixWrite_led _ v _ (coefMask_low h) (by decide)]
  rfl

/-- A write through the window where the table has none. -/
theorem indWrite_led_none (v : Word) {s : State} (low : 0x0E ≤ ixAt s LED) (high : ixAt s LED < 0x20) :
    indWrite LED v s = fset GLB GLB_STATUS_IND_RANGE 1 (windowNext LED s) := by
  have wide : ixAt s LED < 0x100 := by omega
  have span := ixSpan_led wide
  have mask : coefMask (ixAt s LED) = none := by unfold coefMask; rw [if_neg (by omega), if_neg (by omega), if_neg (by omega)]
  have word : ∀ (x : State) f, ixWord x f LED (ixAt s LED) = none := fun x f => by rw [ixWord_led x f wide, mask]; rfl
  have walk : (LED == WLK) = false := rfl
  unfold indWrite
  simp only [word, span, walk, ne_eq, not_true_eq_false, false_and, if_false, Bool.false_and, onlyIf, Bool.false_eq_true]
  rfl

theorem maskPut_coef (old v : Word) : (maskPut 0xFFFFF old v).toNat % 2 ^ 20 = v.toNat % 2 ^ 20 := by
  apply Nat.eq_of_testBit_eq
  intro i
  rw [Nat.testBit_mod_two_pow, Nat.testBit_mod_two_pow]
  by_cases low : i < 20
  · have one : (w32 0xFFFFF).getLsbD i = true := by
      rw [w32, BitVec.getLsbD_ofNat, show (0xFFFFF : Nat) = 2 ^ 20 - 1 from rfl, Nat.testBit_two_pow_sub_one]
      simp [low, show i < 32 by omega]
    rw [BitVec.testBit_toNat, BitVec.testBit_toNat, maskPut]
    simp [BitVec.getLsbD_or, BitVec.getLsbD_and, BitVec.getLsbD_not, one]
  · simp [low]

theorem ixGet_ixSet_key (b i : Nat) (w : Word) (s : State) {b' k : Nat} (h : ixKey b' k ≠ ixKey b i) : ixGet (ixSet b i w s) b' k = ixGet s b' k := tblGet_tblSet_ne _ _ _ _ _ h

theorem led_data : blockOf (LED + 0xFF4) = some (LED, ledRegs) := rfl
theorem led_index : blockOf (LED + 0xFF0) = some (LED, ledRegs) := rfl

/-! ### Register writes and window accesses as commands -/

theorem exec_registerWrite {a : Nat} {v : Word} {s t : State} (written : busWrite a v s = t) (still : settled t) : exec (.registerWrite a v) s = .next t :=
  congrArg Host.Outcome.next ((congrArg settle written).trans (settle_settled still))

theorem exec_indDataWrite {b : Nat} {v : Word} {s t : State} (written : busWrite (b + 0xFF4) v s = t) (still : settled t) : exec (.indDataWrite b v) s = .next t :=
  congrArg Host.Outcome.next ((congrArg settle written).trans (settle_settled still))

theorem exec_registerWrite_backoff (v : Word) {s : State} (on : blockOn s TXN = true) (hs : settled s) (free : s.guard = none) :
    exec (.registerWrite (TXN + TXN_BACKOFF_BASE_NS.off) v) s = .next (store (TXN + TXN_BACKOFF_BASE_NS.off) backoffReg v s) := by
  refine exec_registerWrite ?_ (settled_congr hs rfl rfl)
  rw [busWrite_plain backoffReg_at v on rfl rfl, regWrite_backoff, breakPair_none free]

theorem exec_registerWrite_horizon (v : Word) {s : State} (on : blockOn s TXN = true) (hs : settled s) (free : s.guard = none) :
    exec (.registerWrite (TXN + TXN_HORIZON_HORIZON_US.off) v) s = .next (fset GLB GLB_STATUS_RO_WRITE 1 s) := by
  refine exec_registerWrite ?_ (settled_congr hs rfl rfl)
  rw [busWrite_readOnly horizonReg_at v on rfl, breakPair_none free]

theorem exec_registerWrite_nowhere {a : Nat} (v : Word) {s : State} (con : consoleOn s = true) (hs : settled s) (free : s.guard = none) (none_ : blockOf a = none) :
    exec (.registerWrite a v) s = .next (fset GLB GLB_STATUS_BAD_ADDR 1 s) := by
  refine exec_registerWrite ?_ (settled_congr hs rfl rfl)
  unfold busWrite
  simp only [con, none_, Bool.not_true, Bool.false_eq_true, if_false, breakPair_none free]

theorem exec_indDataRead_led {s : State} (on : blockOn s LED = true) (h : ixAt s LED < 0x0E) :
    exec (.indDataRead LED) s = .next { windowNext LED { s with free := s.free + 1 } with con := { s.con with rdata := ixGet s LED (ixAt s LED) } } := by
  have con : consoleOn (windowNext LED { s with free := s.free + 1 }) = true := (consoleOn_congr (s := s) rfl).trans (consoleOn_of_blockOn on)
  refine congrArg Host.Outcome.next ?_
  unfold readBus
  rw [busRead_data on led_data, indRead_led h]
  exact if_pos con

theorem exec_indDataWrite_led (v : Word) {s : State} (on : blockOn s LED = true) (hs : settled s) (free : s.guard = none) (h : ixAt s LED < 0x0E) :
    exec (.indDataWrite LED v) s = .next (ixSet LED (ixAt s LED) (maskPut 0xFFFFF (ixGet s LED (ixAt s LED)) v) (windowNext LED s)) := by
  refine exec_indDataWrite ?_ (settled_congr hs rfl rfl)
  rw [busWrite_data on led_data, breakPair_none free, indWrite_led v h]

theorem exec_indDataWrite_range (v : Word) {s : State} (on : blockOn s LED = true) (hs : settled s) (free : s.guard = none) (low : 0x0E ≤ ixAt s LED) (high : ixAt s LED < 0x20) :
    exec (.indDataWrite LED v) s = .next (fset GLB GLB_STATUS_IND_RANGE 1 (windowNext LED s)) := by
  refine exec_indDataWrite ?_ (settled_congr hs rfl rfl)
  rw [busWrite_data on led_data, breakPair_none free, indWrite_led_none v low high]

/-- Settles O25: each access is the branch of its row or of its window's entry. -/
theorem registersAndWindowsWritten : Obligations.RegistersAndWindowsWritten := by
  refine ⟨fun v s on hs free => ⟨_, exec_registerWrite_backoff v on hs free, fget_store_backoff v s, fun a h => rg_store_ne _ _ _ h, rfl, rfl, sameStore_store _ _ _ _⟩,
    fun v s on hs free => ⟨_, exec_registerWrite_horizon v on hs free, fbit_fset_one _ _ _ (by decide) (by decide), fun a h => rg_fset_ne _ _ _ _ h, rfl, rfl, sameStore_fset _ _ _ _⟩,
    fun a v s con hs free none_ =>
      ⟨_, exec_registerWrite_nowhere v con hs free none_, fbit_fset_one _ _ _ (by decide) (by decide), fun b h => rg_fset_ne _ _ _ _ h, rfl, rfl, sameStore_fset _ _ _ _⟩,
    fun s on h => ⟨_, exec_indDataRead_led on h, rfl, ?_, fun a ne => rg_windowNext ne s, rfl, sameStore_windowNext LED s⟩,
    fun v s on hs free h => ⟨_, exec_indDataWrite_led v on hs free h, ?_, ?_, fun b k ne => ixGet_ixSet_key _ _ _ _ ne, fun a ne => rg_windowNext ne s, rfl, rfl, rfl, rfl⟩,
    fun v s on hs free low high => ⟨_, exec_indDataWrite_range v on hs free low high, fbit_fset_one _ _ _ (by decide) (by decide), ?_, rfl, rfl, sameStore_fset _ _ _ _⟩⟩
  · exact (ixAt_windowNext LED s).trans (Nat.mod_eq_of_lt (by omega))
  · rw [ixGet_ixSet, maskPut_coef]
  · exact (ixAt_windowNext LED s).trans (Nat.mod_eq_of_lt (by omega))
  · have index : rg (fset GLB GLB_STATUS_IND_RANGE 1 (windowNext LED s)) (LED + 0xFF0) = rg (windowNext LED s) (LED + 0xFF0) := rg_fset_ne _ _ _ _ (by decide)
    have same : ixAt (fset GLB GLB_STATUS_IND_RANGE 1 (windowNext LED s)) LED = ixAt (windowNext LED s) LED := congrArg (fun w : Word => w.toNat % 2 ^ 24) index
    exact same.trans ((ixAt_windowNext LED s).trans (Nat.mod_eq_of_lt (by omega)))

end Sys2Proof.Proofs

/-! PROOF. The register verbs of the console: `rd`, `wr`, `wrm`, `wrg`, `ird` and `iwr` (15 R445, R446). -/

namespace Sys2Proof.Proofs
open Sys2Proof Sys2Proof.Machine Sys2Proof.Laws

/-! ### A verb and its answer -/

section
variable {l : List OutLn} {s t : State}

theorem settled_answer (l : List OutLn) (h : settled s) : settled (answer l s) :=
  settled_congr h (answer_inv (·.caravans) l s (fun _ _ => rfl) fun _ _ => rfl) (answer_inv (·.streams) l s (fun _ _ => rfl) fun _ _ => rfl)

theorem answer_guard (l : List OutLn) (s : State) : (answer l s).guard = s.guard := answer_inv (·.guard) l s (fun _ _ => rfl) fun _ _ => rfl

theorem answer_dram (l : List OutLn) (s : State) : (answer l s).dram = s.dram := answer_inv (·.dram) l s (fun _ _ => rfl) fun _ _ => rfl

theorem answer_wmem (l : List OutLn) (s : State) : (answer l s).wmem = s.wmem := answer_inv (·.wmem) l s (fun _ _ => rfl) fun _ _ => rfl

theorem verb_answers (ready : verbReady s = true) {f : State → State × OutLn} {e : OutLn} (done : f s = (t, e)) : runVerb1 f s = answer [e] t := by
  rw [runVerb1_ready ready, done]

theorem verb_settles (ready : verbReady s = true) {f : State → State × OutLn} {e : OutLn} (done : f s = (t, e)) (still : settled t) :
    settle (runVerb1 f s) = answer [e] t := by
  rw [verb_answers ready done]
  exact settle_settled (settled_answer _ still)

theorem consoleOn_of_verbReady (ready : verbReady s = true) : consoleOn s = true := by
  simp only [verbReady, Bool.and_eq_true] at ready
  exact ready.1.1.1

end

/-! ### What stands at an address -/

theorem addrT_reg {b off : Nat} {r : RegD} (reg : RegAt b off r) (aligned : (b + off) % 4 = 0) : addrT (b + off) = .reg b r := by
  obtain ⟨⟨rows, block, k, row⟩, low⟩ := reg
  have port : ¬(0x800 ≤ off ∧ off < 0xFF0) := by omega
  have window : ¬(off = 0xFF0 ∨ off = 0xFF4) := by omega
  unfold addrT
  rw [if_neg (not_not.mpr aligned), block]
  simp only [Nat.add_sub_cancel_left, port, window, row, if_false]

theorem addrT_unaligned {a : Nat} (h : a % 4 ≠ 0) : addrT a = .none := if_pos h

section
variable {b off : Nat} {r : RegD} (reg : RegAt b off r) (aligned : (b + off) % 4 = 0) {s : State} (on : blockOn s b = true)
include reg aligned on

theorem rdRefusal_reg (readable : writeOnly r = false) : rdRefusal s (b + off) = none := by
  unfold rdRefusal
  rw [addrT_reg reg aligned]
  simp only [readable, on, Bool.false_eq_true, if_false, if_true]

theorem wrRefusal_reg {verb : String} (own : verbOf r = some verb) : wrRefusal s (b + off) verb = none := by
  unfold wrRefusal
  rw [addrT_reg reg aligned]
  simp only [own, on, beq_self_eq_true, if_true]

theorem writeVerb_reg {verb : String} (own : verbOf r = some verb) {args : List (String × Nat × Nat)} (fit : tooBig args = none) (f : State → State) :
    writeVerb verb args (b + off) f s = (f s, okLn []) := by
  unfold writeVerb
  rw [fit, wrRefusal_reg reg aligned on own]

theorem rdVerb_one (readable : writeOnly r = false) (time : b + off ≠ GLB + GLB_DTIME_LO_NS_LO.off) :
    rdVerb (b + off) 1 s = (rcRestart (b + off) s, okLn [wordF (regVal s (b + off))]) := by
  have count : ¬((1 : Nat) = 0 ∨ 32 < 1) := by decide
  have words : ((List.range 1).map fun k => b + off + 4 * k) = [b + off] := rfl
  unfold rdVerb
  rw [if_neg count]
  simp only [words, List.findSome?_cons, List.findSome?_nil, rdRefusal_reg reg aligned on readable, readMany, busRead_listed reg on time, List.map_cons, List.map_nil]

end

theorem rdVerb_count {a n : Nat} {s : State} (h : n = 0 ∨ 32 < n) : rdVerb a n s = (s, er106 "n" 1 32) := if_pos h

/-- The first address of a read that is not aligned refuses it. -/
theorem rdVerb_unaligned {a n : Nat} {s : State} (low : 1 ≤ n) (high : n ≤ 32) (h : a % 4 ≠ 0) : rdVerb a n s = (badAddr s, er200 a) := by
  have count : ¬(n = 0 ∨ 32 < n) := by omega
  have first : rdRefusal s a = some (er200 a, true) := by unfold rdRefusal; rw [addrT_unaligned h]
  obtain ⟨m, rfl⟩ : ∃ m, n = m + 1 := ⟨n - 1, by omega⟩
  have words : ((List.range (m + 1)).map fun k => a + 4 * k) = a :: (List.range m).map fun k => a + 4 * (k + 1) := by
    simp [List.range_succ_eq_map, Function.comp_def]
  unfold rdVerb
  rw [if_neg count]
  simp only [words, List.findSome?_cons, first]
  rfl

theorem tooBig_fits {name : String} {v max : Nat} (h : v ≤ max) : tooBig [(name, v, max)] = none := by
  have fits : ¬max < v := by omega
  simp [tooBig, fits]

theorem tooBig_over {name : String} {v max : Nat} (h : max < v) : tooBig [(name, v, max)] = some (er106 name 0 max) := by simp [tooBig, h]

theorem writeVerb_over {verb : String} {args : List (String × Nat × Nat)} {e : OutLn} (big : tooBig args = some e) (a : Nat) (f : State → State) (s : State) :
    writeVerb verb args a f s = (s, e) := by
  unfold writeVerb
  rw [big]

/-! ### Words -/

theorem toNat_w32 {n : Nat} (h : n < 2 ^ 32) : (w32 n).toNat = n := by
  rw [w32, BitVec.toNat_ofNat]
  exact Nat.mod_eq_of_lt h

theorem getLsbD_w32 (n : Nat) {i : Nat} (h : i < 32) : (w32 n).getLsbD i = n.testBit i := by
  rw [w32, BitVec.getLsbD_ofNat]
  simp [h]

theorem testBit_maskHalf (m : Nat) {v : Nat} (hv : v < 65536) (i : Nat) : (m * 65536 + v).testBit (i + 16) = m.testBit i := by
  rw [← Nat.testBit_div_two_pow]
  congr 1
  omega

theorem testBit_valueHalf (m : Nat) {v i : Nat} (hv : v < 65536) (hi : i < 16) : (m * 65536 + v).testBit i = v.testBit i := by
  have low : (m * 65536 + v) % 2 ^ 16 = v := by omega
  have bit := Nat.testBit_mod_two_pow (m * 65536 + v) 16 i
  rw [low, decide_eq_true hi, Bool.true_and] at bit
  exact bit.symm

/-! ### The registers of the statement -/

theorem rdVerb_backoff {s : State} (on : blockOn s TXN = true) :
    rdVerb (TXN + TXN_BACKOFF_BASE_NS.off) 1 s = (s, okLn [("", .h (rg s (TXN + TXN_BACKOFF_BASE_NS.off)).toNat 8)]) :=
  rdVerb_one backoffReg_at rfl on rfl (by decide)

theorem wrVerb_backoff {v : Nat} {s : State} (on : blockOn s TXN = true) (free : s.guard = none) (fits : v < 2 ^ 32) :
    wrVerb (TXN + TXN_BACKOFF_BASE_NS.off) v s = (store (TXN + TXN_BACKOFF_BASE_NS.off) backoffReg (w32 v) s, okLn []) := by
  rw [wrVerb, writeVerb_reg backoffReg_at rfl on rfl (tooBig_fits (by omega)), busWrite_plain backoffReg_at _ on rfl rfl, regWrite_backoff, breakPair_none free]

theorem wrmVerb_irqEn {m v : Nat} {s : State} (on : blockOn s GLB = true) (free : s.guard = none) (hm : m < 65536) (hv : v < 65536) :
    wrmVerb (GLB + GLB_IRQ_EN_EN.off) m v s = (store (GLB + GLB_IRQ_EN_EN.off) irqEnReg (w32 (m * 65536 + v)) s, okLn []) := by
  have fit : tooBig [("mask", m, 65535), ("value", v, 65535)] = none := by
    simp [tooBig, show ¬65535 < m by omega, show ¬65535 < v by omega]
  rw [wrmVerb, writeVerb_reg irqEnReg_at rfl on rfl fit, busWrite_plain irqEnReg_at _ on rfl rfl, regWrite_irqEn, breakPair_none free]

/-- The pair on consecutive cycles: the value waits, and its complement stores it. -/
theorem wrgVerb_hold {v : Nat} {s : State} (on : blockOn s LED = true) (fits : v < 2 ^ 24) :
    wrgVerb (LED + LED_HOLD_HOLD_UJ.off) v s = (store (LED + LED_HOLD_HOLD_UJ.off) holdReg (w32 v) { breakPair s with guard := none }, okLn []) := by
  have value := busWrite_value holdReg_at (w32 v) on rfl rfl
  have on' : blockOn { breakPair s with guard := some (LED + LED_HOLD_HOLD_UJ.off, w32 v, s.d8) } LED = true :=
    (blockOn_congr (s := breakPair s) rfl (fun _ _ => rg_congr rfl _) LED).trans ((blockOn_breakPair s LED).trans on)
  have soon : (breakPair s).d8 ≤ s.d8 + 256 * mgt8 { breakPair s with guard := some (LED + LED_HOLD_HOLD_UJ.off, w32 v, s.d8) } := by
    rw [breakPair_d8]
    exact Nat.le_add_right _ _
  rw [wrgVerb, writeVerb_reg holdReg_at rfl on rfl (tooBig_fits (by omega)), value, busWrite_holdComplement _ (consoleOn_of_blockOn on'),
    compWrite_completes holdReg_at on' rfl soon, regWrite_hold]

/-! ### The window verbs -/

theorem ixRefusal_led {s : State} (on : blockOn s LED = true) {i : Nat} (h : i < 0x0E) : ixRefusal s LED i 1 = none := by
  have index : ¬2 ^ 24 ≤ i := by omega
  have name : (blockName LED == "none") = false := by decide
  have listed : ixListed LED i = true := by
    have low : i ≤ 0xD := by omega
    simp [ixListed, ixRanges, GLB, CON, TXN, MAN, ARB, WAY, QUE, WLK, LED, low]
  have range : List.range 1 = [0] := rfl
  unfold ixRefusal
  rw [if_neg index, name]
  simp [range, listed, on]

/-- The window of the coefficients with its index set. -/
def ledIndexed (i : Nat) (s : State) : State := rgSet (LED + 0xFF0) (w32 (i % 2 ^ 24)) (dropLatch LED s)

theorem busWrite_ledIndex {s : State} (on : blockOn s LED = true) (free : s.guard = none) {i : Nat} (h : i < 2 ^ 32) :
    busWrite (LED + 0xFF0) (w32 i) s = ledIndexed i s := by
  rw [busWrite_index on led_index, toNat_w32 h, breakPair_none free]
  rfl

theorem ixAt_ledIndexed {i : Nat} (h : i < 2 ^ 24) (s : State) : ixAt (ledIndexed i s) LED = i := (ixAt_rgSet LED i _).trans (Nat.mod_eq_of_lt h)

theorem ixAt_ledRead {i : Nat} (h : i + 1 < 2 ^ 24) (s : State) (n : Nat) : ixAt (windowNext LED { ledIndexed i s with free := n }) LED = i + 1 := by
  have before : ixAt { ledIndexed i s with free := n } LED = i := (ixAt_congr (s := ledIndexed i s) rfl LED).trans (ixAt_ledIndexed (by omega) s)
  rw [ixAt_windowNext, before]
  exact Nat.mod_eq_of_lt h

theorem sameStore_ledRead (i : Nat) (s : State) {n : Nat} : sameStore s (windowNext LED { ledIndexed i s with free := n }) := ⟨rfl, rfl, rfl, rfl, rfl, rfl⟩

theorem fget_index (s : State) (b : Nat) : fget s b ⟨0xFF0, 0, 24⟩ = ixAt s b := by simp [fget, Fld.get, ixAt]

theorem blockOn_ledIndexed {s : State} (on : blockOn s LED = true) (i : Nat) : blockOn (ledIndexed i s) LED = true := by
  obtain ⟨con, dom, doze⟩ := blockOn_iff.mp on
  have same : domState (ledIndexed i s) (blockDom LED).1 = domState s (blockDom LED).1 := domState_congr (rg_rgSet_ne _ _ _ _ (by decide))
  exact blockOn_iff.mpr ⟨(consoleOn_congr rfl).trans con, same.trans dom, doze⟩

theorem irdVerb_led {s : State} (on : blockOn s LED = true) (free : s.guard = none) {i : Nat} (h : i < 0x0E) :
    irdVerb LED i 1 s = (windowNext LED { ledIndexed i s with free := s.free + 1 }, okLn [("index", .h i), ("", .h (ixGet s LED i).toNat 8)]) := by
  have count : ¬((1 : Nat) = 0 ∨ 32 < 1) := by decide
  have index := ixAt_ledIndexed (show i < 2 ^ 24 by omega) s
  have read : busRead (LED + 0xFF4) (ledIndexed i s) = (ixGet s LED i, windowNext LED { ledIndexed i s with free := s.free + 1 }) := by
    rw [busRead_data (blockOn_ledIndexed on i) led_data, indRead_led (by omega), index]
    rfl
  unfold irdVerb
  rw [if_neg count, ixRefusal_led on h]
  simp only [busWrite_ledIndex on free (show i < 2 ^ 32 by omega), List.replicate_one, readMany, read, List.map_cons, List.map_nil]
  rfl

theorem winWrite_led {s : State} (on : blockOn s LED = true) (free : s.guard = none) {i : Nat} (h : i < 0x0E) (w : Word) :
    winWrite LED i [w] s = ixSet LED i (maskPut 0xFFFFF (ixGet s LED i) w) (windowNext LED (ledIndexed i s)) := by
  have index := ixAt_ledIndexed (show i < 2 ^ 24 by omega) s
  have written : busWrite (LED + 0xFF4) w (ledIndexed i s) = ixSet LED i (maskPut 0xFFFFF (ixGet s LED i) w) (windowNext LED (ledIndexed i s)) := by
    rw [busWrite_data (blockOn_ledIndexed on i) led_data, breakPair_none (show (ledIndexed i s).guard = none from free), indWrite_led w (by omega), index]
    rfl
  unfold winWrite
  rw [busWrite_ledIndex on free (show i < 2 ^ 32 by omega)]
  exact written

theorem iwrVerb_led {s : State} (on : blockOn s LED = true) (free : s.guard = none) {i v : Nat} (h : i < 0x0E) (fits : v < 2 ^ 20) :
    iwrVerb LED i [v] s = (ixSet LED i (maskPut 0xFFFFF (ixGet s LED i) (w32 v)) (windowNext LED (ledIndexed i s)), okLn []) := by
  have fit : tooBig ([v].zipIdx.map fun v => ("v" ++ toString (v.2 + 1), v.1, 2 ^ 32 - 1)) = none := tooBig_fits (by omega)
  have shut : settingsShut s LED (i + 0) = false := by simp [settingsShut, LED]
  unfold iwrVerb
  simp only [List.isEmpty_cons, Bool.false_eq_true, if_false, List.length_singleton, show ¬16 < 1 by decide, fit, ixRefusal_led on h, List.map_cons, List.map_nil,
    winWrite_led on free h, show List.range 1 = [0] from rfl, List.any_cons, List.any_nil, shut, Bool.or_false]

/-- Settles O19: each verb is checked, accesses its register or window through the bus, and is answered. -/
theorem registerVerbsAnswer : Obligations.RegisterVerbsAnswer := by
  refine ⟨fun s ready on => ⟨_, congrArg Host.Outcome.next (verb_answers ready (rdVerb_backoff on)), answered_answer_self _ _⟩,
    fun a n s ready h => ⟨_, congrArg Host.Outcome.next (verb_answers ready (rdVerb_count h)), answered_answer_self _ _⟩,
    fun a n s ready low high h => ⟨_, congrArg Host.Outcome.next (verb_answers ready (rdVerb_unaligned low high h)), rfl, ?_, answer_d8 _ _, ?_⟩,
    fun v s ready on hs free fits =>
      ⟨_, congrArg Host.Outcome.next (verb_settles ready (wrVerb_backoff on free fits) (settled_congr hs rfl rfl)), rfl, ?_, answer_d8 _ _, ?_⟩,
    fun a v s ready hs big =>
      ⟨_, congrArg Host.Outcome.next (verb_settles ready (writeVerb_over (tooBig_over (by omega)) a _ s) hs), answered_answer_self _ _⟩,
    fun m v s ready on free hm hv => ⟨_, congrArg Host.Outcome.next (verb_answers ready (wrmVerb_irqEn on free hm hv)), rfl, fun i hi => ?_, answer_d8 _ _, ?_⟩,
    fun v s ready on hs fits => ⟨_, congrArg Host.Outcome.next (verb_settles ready (wrgVerb_hold on fits) (settled_congr hs ?_ ?_)), rfl, ?_, answer_guard _ _,
      (congrArg LedState.hold (answer_led _ _)).trans ?_, (answer_d8 _ _).trans (breakPair_d8 s), ?_⟩,
    fun i s ready on free h => ⟨_, congrArg Host.Outcome.next (verb_answers ready (irdVerb_led on free h)), rfl, ?_, answer_d8 _ _, ?_⟩,
    fun i v s ready on free hs h fits => ⟨_, congrArg Host.Outcome.next (verb_settles ready (iwrVerb_led on free h fits) (settled_congr hs rfl rfl)), rfl, ?_, fun b k ne => ?_,
      answer_d8 _ _, answer_dram _ _, answer_wmem _ _⟩,
    fun b i s ready hs => ⟨_, congrArg Host.Outcome.next (verb_settles ready (show iwrVerb b i [] s = (s, _) from rfl) hs), answered_answer_self _ _⟩⟩
  · exact (congrArg (· != 0) (fget_answer (by decide))).trans (fbit_fset_one _ _ _ (by decide) (by decide))
  · exact sameStore_trans (sameStore_fset _ _ _ _) (sameStore_answer _ _)
  · rw [fget_answer (by decide), fget_store_backoff, toNat_w32 fits]
  · exact sameStore_trans (sameStore_store _ _ _ _) (sameStore_answer _ _)
  · have wide : m * 65536 + v < 2 ^ 32 := by omega
    rw [fget_answer (by decide), fget_store_irqEn, testBit_merged _ _ hi, getLsbD_w32 _ (by omega), getLsbD_w32 _ (by omega), testBit_maskHalf m hv, testBit_valueHalf m hv hi]
  · exact sameStore_trans (sameStore_store _ _ _ _) (sameStore_answer _ _)
  · exact breakPair_caravans s
  · exact breakPair_streams s
  · rw [fget_answer (by decide), fget_store_hold, toNat_w32 (by omega)]
    exact Nat.mod_eq_of_lt fits
  · exact congrArg LedState.hold (breakPair_led s)
  · have pair : sameStore (breakPair s) { breakPair s with guard := none } := ⟨rfl, rfl, rfl, rfl, rfl, rfl⟩
    exact sameStore_trans (sameStore_trans (sameStore_trans (sameStore_breakPair s) pair) (sameStore_store _ _ _ _)) (sameStore_answer _ _)
  · rw [fget_answer (by decide), fget_index]
    exact ixAt_ledRead (by omega) s _
  · exact sameStore_trans (sameStore_ledRead i s) (sameStore_answer _ _)
  · rw [ixGet_congr (answer_ix _ _), ixGet_ixSet, maskPut_coef, toNat_w32 (by omega)]
    exact Nat.mod_eq_of_lt fits
  · exact (ixGet_congr (answer_ix _ _) b k).trans (ixGet_ixSet_key _ _ _ _ ne)

end Sys2Proof.Proofs

/-! PROOF. The console's own log and modes: `log`, `log clear`, `echo` and `mode` (15 R437, R438, R452). -/

namespace Sys2Proof.Proofs
open Sys2Proof Sys2Proof.Machine Sys2Proof.Laws

theorem onlyIf_fbump_con (c : Bool) (f : Fld) (s : State) : (onlyIf c (fbump CON f) s).con = s.con := onlyIf_inv (·.con) c _ s fun _ => rfl

theorem answer_con (l : List OutLn) (s : State) : (answer l s).con = { s.con with ans := l } := by
  unfold answer
  simp only [onlyIf_fbump_con]
  rfl

/-- A verb runs when the interpreter takes the line (15 R441). -/
theorem runVerb_ready {s : State} (ready : verbReady s = true) (f : State → State × List OutLn) : runVerb f s = answer (f s).2 (f s).1 := by
  simp only [verbReady, Bool.and_eq_true, Bool.not_eq_true', Option.isNone_iff_eq_none] at ready
  obtain ⟨⟨⟨on, idle⟩, awake⟩, sound⟩ := ready
  simp [runVerb, on, idle, awake, sound]

theorem lines_answer {s t : State} {l : List OutLn} (ready : verbReady s = true) {f : State → State × List OutLn} (done : f s = (t, l)) : runVerb f s = answer l t := by
  rw [runVerb_ready ready, done]

/-! ### CON_CTL -/

/-- CON_CTL. -/
def conCtlReg : RegD := ⟨"ctl", 0x000, 1, 0x00000002, false, [⟨"mode", 0, 1, .rw⟩, ⟨"echo", 1, 1, .rw⟩, ⟨"baud", 4, 3, .rw⟩]⟩

theorem conCtlReg_at : RegAt CON 0 conCtlReg := ⟨⟨_, rfl, _, rfl⟩, by decide⟩

theorem writeWord_conCtl (old v : Word) :
    writeWord conCtlReg old v = CON_CTL_BAUD.put (CON_CTL_BAUD.get v) (CON_CTL_ECHO.put (CON_CTL_ECHO.get v) (CON_CTL_MODE.put (CON_CTL_MODE.get v) old)) := rfl

theorem get_conCtl (old v : Word) : CON_CTL_MODE.get (writeWord conCtlReg old v) = CON_CTL_MODE.get v ∧ CON_CTL_ECHO.get (writeWord conCtlReg old v) = CON_CTL_ECHO.get v
    ∧ CON_CTL_BAUD.get (writeWord conCtlReg old v) = CON_CTL_BAUD.get v := by
  rw [writeWord_conCtl]
  refine ⟨?_, ?_, ?_⟩
  · rw [Fld_get_put_other _ _ _ _ (by decide) (by decide), Fld_get_put_other _ _ _ _ (by decide) (by decide), Fld_get_put _ _ _ (by decide)]
    simp [Fld.get]
  · rw [Fld_get_put_other _ _ _ _ (by decide) (by decide), Fld_get_put _ _ _ (by decide)]
    simp [Fld.get]
  · rw [Fld_get_put _ _ _ (by decide)]
    simp [Fld.get]

/-- What a verb's write of CON_CTL leaves: each field as the word gives it; the clock, the answer and the memories as before. -/
structure CtlWritten (v : Word) (s t : State) : Prop where
  mode : fget t CON CON_CTL_MODE = CON_CTL_MODE.get v
  echo : fget t CON CON_CTL_ECHO = CON_CTL_ECHO.get v
  baud : fget t CON CON_CTL_BAUD = CON_CTL_BAUD.get v
  d8 : t.d8 = s.d8
  same : sameStore s t

theorem conWrite_ctl (v : Word) (s : State) : CtlWritten v s (conWrite 0 conCtlReg v s) := by
  obtain ⟨mode, echo, baud⟩ := get_conCtl (rg s CON) v
  have word : rg (conWrite 0 conCtlReg v s) CON = writeWord conCtlReg (rg s CON) v := by
    unfold conWrite
    dsimp only
    split
    · exact rg_rgSet CON _ s
    · exact rg_rgSet CON _ s
  have kept : (conWrite 0 conCtlReg v s).d8 = s.d8 ∧ sameStore s (conWrite 0 conCtlReg v s) := by
    unfold conWrite
    dsimp only
    split
    · exact ⟨rfl, rfl, rfl, rfl, rfl, rfl, rfl⟩
    · exact ⟨rfl, rfl, rfl, rfl, rfl, rfl, rfl⟩
  exact ⟨(congrArg CON_CTL_MODE.get word).trans mode, (congrArg CON_CTL_ECHO.get word).trans echo, (congrArg CON_CTL_BAUD.get word).trans baud, kept.1, kept.2⟩

theorem ctlWrite_written (f : Fld) (v : Nat) {s : State} (on : blockOn s CON = true) (free : s.guard = none) : CtlWritten (f.put v (rg s CON)) s (ctlWrite f v s) := by
  have written : ctlWrite f v s = conWrite 0 conCtlReg (f.put v (rg s CON)) s := by
    rw [ctlWrite, show CON = CON + 0 from rfl, busWrite_plain conCtlReg_at _ on rfl rfl, breakPair_none free]
    rfl
  rw [written]
  exact conWrite_ctl _ _

/-- Settles O21: each verb answers what it reads, and writes CON_CTL or the log alone. -/
theorem logAndModeVerbs : Obligations.LogAndModeVerbs := by
  refine ⟨fun n s ready low high => ⟨_, congrArg Host.Outcome.next (lines_answer ready (show logVerb n s = (s, _) from if_neg (by omega))), rfl, ?_, answer_d8 _ _, sameStore_answer _ _⟩,
    fun n s ready h => ⟨_, congrArg Host.Outcome.next (lines_answer ready (show logVerb n s = (s, _) from if_pos h)), answered_answer_self _ _⟩,
    fun s ready => ⟨_, congrArg Host.Outcome.next (verb_answers ready rfl), ?_, ?_, ?_, answered_answer _ rfl rfl rfl (sameStore_refl s)⟩,
    fun on s ready block loose free _ => ?_, fun s ready strict => ⟨_, congrArg Host.Outcome.next (verb_answers ready (show echoVerb true s = (s, _) from if_pos (by simp [strict]))), answered_answer_self _ _⟩,
    fun b s ready block free _ => ?_⟩
  · rw [answer_con]
  · rw [answer_con]
  · rw [answer_con]
  · rw [answer_con]
  · have typed : (on && strictMode s) = false := by rcases loose with h | h <;> simp [h]
    have done : echoVerb on s = (ctlWrite CON_CTL_ECHO (if on then 1 else 0) s, okLn []) := if_neg (by simp [typed])
    obtain ⟨mode, echo, baud, d8, same⟩ := ctlWrite_written CON_CTL_ECHO (if on then 1 else 0) block free
    refine ⟨_, congrArg Host.Outcome.next (verb_answers ready done), rfl, ?_, ?_, ?_, (answer_d8 _ _).trans d8, sameStore_trans same (sameStore_answer _ _)⟩
    · rw [fbit, fget_answer (by decide), echo, Fld_get_put _ _ _ (by decide)]
      cases on <;> rfl
    · rw [fget_answer (by decide), mode]
      exact Fld_get_put_other _ _ _ _ (by decide) (by decide)
    · rw [fget_answer (by decide), baud]
      exact Fld_get_put_other _ _ _ _ (by decide) (by decide)
  · obtain ⟨mode, echo, baud, d8, same⟩ := ctlWrite_written CON_CTL_MODE (if b then 1 else 0) block free
    refine ⟨_, congrArg Host.Outcome.next (verb_answers ready rfl), rfl, ?_, ?_, ?_, (answer_d8 _ _).trans d8, sameStore_trans same (sameStore_answer _ _)⟩
    · rw [strictMode, fbit, fget_answer (by decide), mode, Fld_get_put _ _ _ (by decide)]
      cases b <;> rfl
    · rw [fget_answer (by decide), echo]
      exact Fld_get_put_other _ _ _ _ (by decide) (by decide)
    · rw [fget_answer (by decide), baud]
      exact Fld_get_put_other _ _ _ _ (by decide) (by decide)

end Sys2Proof.Proofs

/-! PROOF. The console's names and views (15 R445, R447, R448; 12 R360). -/

namespace Sys2Proof.Proofs
open Sys2Proof Sys2Proof.Machine Sys2Proof.Laws

/-! ### `id` and `help` -/

theorem mgtDtime_le (s : State) : (mgtDtime s).1 ≤ s.ns := Nat.div_le_div_right (Nat.sub_le _ _)

theorem listing_ne_nil (l : List (List (String × FVal))) : listing l ≠ [] := by cases l <;> simp [listing]

theorem helpVerb_ne_nil (h : HelpOf) : helpVerb h ≠ [] := by
  unfold helpVerb
  split
  case h_1 => exact listing_ne_nil _
  case h_2 =>
    split
    · exact listing_ne_nil _
    · exact List.cons_ne_nil _ _
  case h_3 => exact List.cons_ne_nil _ _
  case h_4 =>
    split
    · exact List.cons_ne_nil _ _
    · exact List.cons_ne_nil _ _

/-! ### `get` and `set` -/

/-- The field of TXN_HORIZON. -/
def horizonField : FieldD := ⟨"horizon_us", 0, 16, .ro⟩

/-- LED_CAP and its first field. -/
def capReg : RegD := ⟨"cap", 0x004, 1, 0x00040398, false, [⟨"cap", 0, 10, .rw⟩, ⟨"hold", 16, 4, .rw⟩]⟩

def capField : FieldD := ⟨"cap", 0, 10, .rw⟩

theorem capReg_at : RegAt LED LED_CAP_CAP.off capReg := ⟨⟨_, rfl, _, rfl⟩, by decide⟩

theorem resolve_horizon : resolve "txn.horizon_us" = some (.field TXN horizonReg 0 horizonField) := by decide +kernel

theorem resolve_cap : resolve "led.cap" = some (.field LED capReg 0 capField) := by decide +kernel

theorem quantity_horizon : quantity TXN horizonReg horizonField = none := by decide +kernel

theorem quantity_cap : quantity LED capReg capField = none := by decide +kernel

theorem symbols_cap : symbols LED capReg capField = [] := by decide +kernel

theorem rangeOf_cap : rangeOf LED capReg capField = (0, 1023) := by decide +kernel

theorem blockKind_led : blockKind LED = "led" := by decide +kernel

theorem getVerb_unknown {w : String} (unknown : resolve w = none) (s : State) : getVerb w s = (s, er300 w) := by
  unfold getVerb
  rw [unknown]

theorem setVerb_unknown {w : String} (unknown : resolve w = none) (v : SetVal) (s : State) : setVerb w v s = (s, er300 w) := by
  unfold setVerb
  rw [unknown]

theorem getVerb_horizon {s : State} (on : blockOn s TXN = true) : getVerb "txn.horizon_us" s = (s, okLn [("", .n (fget s TXN TXN_HORIZON_HORIZON_US))]) := by
  have read : busRead (TXN + horizonReg.off + 4 * 0) s = (rg s (TXN + horizonReg.off + 4 * 0), s) := busRead_listed horizonReg_at on (by decide)
  have open_ : writeOnly horizonReg = false := rfl
  unfold getVerb
  rw [resolve_horizon]
  simp only [nameBlock, on, Bool.not_true, Bool.false_eq_true, if_false, open_, read, getField, quantity_horizon]
  rfl

theorem fieldCode_cap {v : Nat} (h : v < 1024) : fieldCode "led.cap" LED capReg capField (.num v) = .ok v := by
  have range : 0 ≤ v ∧ v ≤ 1023 := by omega
  unfold fieldCode
  rw [quantity_cap, symbols_cap, rangeOf_cap]
  exact if_pos range

theorem setWord_cap (s : State) (v : Nat) : setWord s (LED + LED_CAP_CAP.off) capReg capField v
    = LED_CAP_HOLD.put (LED_CAP_HOLD.get (rg s (LED + LED_CAP_CAP.off))) (LED_CAP_CAP.put v 0) := by
  simp [setWord, capReg, capField, LED_CAP_HOLD, LED_CAP_CAP, Fld.put, Fld.get]

theorem setRefusal_cap (s : State) (w : Word) (v : Nat) : setRefusal s LED capReg capField w v = none := by
  unfold setRefusal
  rw [blockKind_led]
  simp [capReg, capField]

theorem regWrite_cap (v : Word) (s : State) : regWrite LED LED_CAP_CAP.off capReg v s = store (LED + LED_CAP_CAP.off) capReg v s := rfl

theorem writeWord_cap (old v : Word) : writeWord capReg old v = LED_CAP_HOLD.put (LED_CAP_HOLD.get v) (LED_CAP_CAP.put (LED_CAP_CAP.get v) old) := rfl

theorem setFields_led (f : FieldD) (v : Nat) (s : State) : setFields LED f v s = [] := if_neg fun h => absurd h.1 (by decide)

theorem setVerb_cap {v : Nat} {s : State} (on : blockOn s LED = true) (free : s.guard = none) (fits : v < 1024) :
    setVerb "led.cap" (.num v) s = (store (LED + LED_CAP_CAP.off) capReg (LED_CAP_HOLD.put (LED_CAP_HOLD.get (rg s (LED + LED_CAP_CAP.off))) (LED_CAP_CAP.put v 0)) s, okLn []) := by
  have writable_ : ¬(capField.acc = .ro ∨ capField.acc = .rc) := by decide
  have at_ : LED + capReg.off + 4 * 0 = LED + LED_CAP_CAP.off := rfl
  have plain : guarded capReg = false := rfl
  unfold setVerb
  rw [resolve_cap]
  simp only [setField, writable_, if_false, fieldCode_cap fits, on, Bool.not_true, Bool.false_eq_true, at_, setWord_cap, setRefusal_cap, Option.bind_none, reduceCtorEq,
    Option.getD_none, setFields_led, pairWrite, plain, busWrite_plain capReg_at _ on rfl rfl, regWrite_cap, breakPair_none free]

theorem fget_store_cap (v : Nat) (s : State) : fget (store (LED + LED_CAP_CAP.off) capReg (LED_CAP_HOLD.put (LED_CAP_HOLD.get (rg s (LED + LED_CAP_CAP.off))) (LED_CAP_CAP.put v 0)) s) LED LED_CAP_CAP = v % 1024 := by
  rw [fget, rg_store_same, writeWord_cap, Fld_get_put_other _ _ _ _ (by decide) (by decide), Fld_get_put _ _ _ (by decide), Fld_get_put_other _ _ _ _ (by decide) (by decide),
    Fld_get_put _ _ _ (by decide)]
  exact Nat.mod_mod v 1024

theorem fget_store_capHold (v : Nat) (s : State) :
    fget (store (LED + LED_CAP_CAP.off) capReg (LED_CAP_HOLD.put (LED_CAP_HOLD.get (rg s (LED + LED_CAP_CAP.off))) (LED_CAP_CAP.put v 0)) s) LED LED_CAP_HOLD = fget s LED LED_CAP_HOLD := by
  have at_ : LED + LED_CAP_HOLD.off = LED + LED_CAP_CAP.off := rfl
  have small : LED_CAP_HOLD.get (rg s (LED + LED_CAP_CAP.off)) < 2 ^ LED_CAP_HOLD.width := Nat.mod_lt _ (by decide)
  rw [fget, at_, rg_store_same, writeWord_cap, Fld_get_put _ _ _ (by decide), Fld_get_put _ _ _ (by decide), Nat.mod_mod, Nat.mod_eq_of_lt small]
  rfl

/-! ### `show` and `ledger show` -/

theorem showVerb_txn {s : State} (on : blockOn s TXN = true) : showVerb .txn s = (s, okLn (viewFields .txn s)) := by
  have range : viewRange .txn = none := by decide +kernel
  have block : ((blockOf (viewAddr .txn)).map (·.1) |>.getD 0) = TXN := rfl
  unfold showVerb
  simp only [range, block, on, Bool.not_true, Bool.false_eq_true, if_false]
  rfl

/-- The two words of a manifest's account give its energy back. -/
theorem acctWords (s : State) {m : Nat} (fits : tblGet (fun _ => 0) s.led.acct m / 1000 < 2 ^ 64) :
    (acctWord s (0x100 + 2 * m)).toNat + (acctWord s (0x101 + 2 * m)).toNat * 2 ^ 32 = tblGet (fun _ => 0) s.led.acct m / 1000 := by
  have low : (acctWord s (0x100 + 2 * m)).toNat = tblGet (fun _ => 0) s.led.acct m / 1000 % 2 ^ 32 := by
    rw [acctWord, show (0x100 + 2 * m - 0x100) / 2 = m by omega, if_pos (by omega), Nat.div_one]
    exact BitVec.toNat_ofNat _ _
  have high : (acctWord s (0x101 + 2 * m)).toNat = tblGet (fun _ => 0) s.led.acct m / 1000 / 2 ^ 32 % 2 ^ 32 := by
    rw [acctWord, show (0x101 + 2 * m - 0x100) / 2 = m by omega, if_neg (by omega)]
    exact BitVec.toNat_ofNat _ _
  rw [low, high]
  omega

theorem ledgerVerb_man {s : State} (on : blockOn s LED = true) {m : Nat} (h : m < 256) (fits : tblGet (fun _ => 0) s.led.acct m / 1000 < 2 ^ 64) :
    ledgerVerb (some m) s = (s, okLn [("man", .n m), ("energy_nj", .n (tblGet (fun _ => 0) s.led.acct m / 1000)), ("window_avg_mw", .n (tblGet (fun _ => 0) s.led.lastMan m / 10240))]) := by
  have inRange : ¬256 ≤ m := by omega
  unfold ledgerVerb
  simp only [on, Bool.not_true, Bool.false_eq_true, if_false, inRange, acctWords s fits]

theorem ledgerVerb_range {s : State} (on : blockOn s LED = true) {m : Nat} (h : 256 ≤ m) : ledgerVerb (some m) s = (s, er106 "man" 0 255) := by
  unfold ledgerVerb
  simp only [on, Bool.not_true, Bool.false_eq_true, if_false, h, if_true]

/-- Settles O20: each name and each view is resolved, read where its block can be accessed, and answered. -/
theorem namesAndViewsAnswer : Obligations.NamesAndViewsAnswer := by
  refine ⟨fun s ready => ⟨_, _, congrArg Host.Outcome.next (verb_answers ready rfl), mgtDtime_le s, answered_answer _ rfl rfl rfl ⟨rfl, rfl, rfl, rfl, rfl, rfl⟩⟩,
    fun h s ready => ⟨_, congrArg Host.Outcome.next (lines_answer ready rfl), helpVerb_ne_nil h, answered_answer_self _ _⟩,
    fun s ready on => ⟨_, congrArg Host.Outcome.next (verb_answers ready (getVerb_horizon on)), answered_answer_self _ _⟩,
    fun w s ready unknown => ⟨⟨_, congrArg Host.Outcome.next (verb_answers ready (getVerb_unknown unknown s)), answered_answer_self _ _⟩,
      fun hs v => ⟨_, congrArg Host.Outcome.next (verb_settles ready (setVerb_unknown unknown v s) hs), answered_answer_self _ _⟩⟩,
    fun v s ready on hs free fits => ⟨_, congrArg Host.Outcome.next (verb_settles ready (setVerb_cap on free fits) (settled_congr hs rfl rfl)), rfl, ?_, ?_,
      congrArg LedState.cap (answer_led _ _), answer_d8 _ _, sameStore_trans (sameStore_store _ _ _ _) (sameStore_answer _ _)⟩,
    fun s ready on => ⟨_, congrArg Host.Outcome.next (verb_answers ready (showVerb_txn on)), answered_answer_self _ _⟩,
    fun w s ready => ⟨_, congrArg Host.Outcome.next (verb_answers ready rfl), answered_answer_self _ _⟩,
    fun m s ready on h fits => ⟨_, congrArg Host.Outcome.next (verb_answers ready (ledgerVerb_man on h fits)), answered_answer_self _ _⟩,
    fun m s ready on h => ⟨_, congrArg Host.Outcome.next (verb_answers ready (ledgerVerb_range on h)), answered_answer_self _ _⟩⟩
  · rw [fget_answer (by decide), fget_store_cap]
    exact Nat.mod_eq_of_lt fits
  · rw [fget_answer (by decide), fget_store_capHold]

end Sys2Proof.Proofs

/-! PROOF. Bytes that reach the console: the FIFO, the line assembler, and the tunnel's messages (15 R427, R428, R432, R438). -/

namespace Sys2Proof.Proofs
open Sys2Proof Sys2Proof.Machine Sys2Proof.Laws

/-! ### The FIFO -/

theorem drain_busy {s : State} (busy : asmBusy s = true) : drain s = s := by
  unfold drain
  cases h : s.con.fifo with
  | nil => rfl
  | cons x r =>
    rw [List.length_cons, drainFifo, h]
    exact if_pos busy

theorem drain_empty {s : State} (empty : s.con.fifo = []) : drain s = s := by
  unfold drain
  rw [empty]
  rfl

theorem drain_one {s : State} {x : ConByte} (one : s.con.fifo = [x]) (idle : asmBusy s = false) : drain s = asmByte x { s with con := { s.con with fifo := [] } } := by
  unfold drain
  rw [one, List.length_singleton, drainFifo, one]
  exact if_neg (by simp [idle])

theorem asmBusy_congr {s t : State} (line : t.con.line = s.con.line) (ans : t.con.ans = s.con.ans) (wait : t.con.wait = s.con.wait) (pwr : t.pwr = s.pwr) : asmBusy t = asmBusy s := by
  unfold asmBusy sleepBusy
  rw [line, ans, wait, pwr]

theorem asmBusy_false {s : State} (idle : asmBusy s = false) : s.con.line = none ∧ s.con.ans = [] := by
  simp only [asmBusy, Bool.or_eq_false_iff, Bool.not_eq_false', Option.isSome_eq_false_iff, Option.isNone_iff_eq_none, List.isEmpty_iff] at idle
  exact idle.1

theorem echoOn_congr {s t : State} (regs : t.regs = s.regs) : echoOn t = echoOn s := by
  unfold echoOn strictMode
  rw [fbit_congr regs, fbit_congr regs]

/-! ### A UART byte -/

/-- The console with one more byte in its FIFO, and nothing put out yet. -/
def queued (x : ConByte) (s : State) : State := { freshOut s with con := { (freshOut s).con with fifo := (freshOut s).con.fifo ++ [x] } }

theorem queued_one {s : State} (empty : s.con.fifo = []) (x : ConByte) : (queued x s).con.fifo = [x] := congrArg (· ++ [x]) empty

theorem queued_taken {s : State} (empty : s.con.fifo = []) (x : ConByte) : { queued x s with con := { (queued x s).con with fifo := [] } } = freshOut s := by
  unfold queued freshOut
  simp [← empty]

/-- A byte that the FIFO has room for, while the assembler is free and nothing waits, goes to the assembler at once. -/
theorem exec_uartByte_idle {b : Byte} {s : State} (on : consoleOn s = true) (idle : asmBusy s = false) (empty : s.con.fifo = []) :
    exec (.uartByte b false) s = .next (asmByte { byte := b } (freshOut s)) := by
  have room : ¬1024 ≤ fifoFill (freshOut s) false := by
    have none_ : fifoFill (freshOut s) false = 0 := by unfold fifoFill freshOut; simp [empty]
    omega
  have taken : drain (queued { byte := b } s) = asmByte { byte := b } (freshOut s) := by
    rw [drain_one (queued_one empty _) ((asmBusy_congr (s := s) rfl rfl rfl rfl).trans idle), queued_taken empty]
  exact congrArg Host.Outcome.next ((if_pos on).trans ((if_neg room).trans taken))

theorem asmByte_printable {b : Byte} {s : State} (skip : s.con.skip = false) (low : 32 ≤ b.toNat) (high : b.toNat < 127) :
    asmByte { byte := b } s = storeChar false b { s with con := { s.con with afterCr := false } } := by
  have line : ¬((b.toNat = 13 ∨ b.toNat = 10) ∧ (!false) = true) := by omega
  have ascii : ¬128 ≤ b.toNat := by omega
  unfold asmByte
  simp only [Bool.false_eq_true, if_false, ne_eq, not_true_eq_false, line, skip, ascii, or_self, low, high, and_self, if_true]

/-- What an echo to the UART leaves: the bytes go out where echo is on, and the line in hand, the clock, the registers and the memories stay. -/
structure Echoed (l : List Byte) (s t : State) : Prop where
  buf : t.con.buf = s.con.buf
  line : t.con.line = s.con.line
  fifo : t.con.fifo = s.con.fifo
  afterCr : t.con.afterCr = s.con.afterCr
  txd : t.con.txd = s.con.txd ++ (if echoOn s then l else [])
  d8 : t.d8 = s.d8
  same : sameRegs s t

theorem sameRegs_refl (s : State) : sameRegs s s := ⟨rfl, sameStore_refl s⟩

theorem echoed_refl {l : List Byte} {s : State} (off : echoOn s = false) : Echoed l s s := ⟨rfl, rfl, rfl, rfl, by simp [off], rfl, sameRegs_refl s⟩

theorem echoTo_echoed (l : List Byte) (s : State) : Echoed l s (echoTo false l s) := by
  unfold echoTo
  cases on : echoOn s with
  | true => exact ⟨rfl, rfl, rfl, rfl, congrArg (s.con.txd ++ ·) (if_pos on).symm, rfl, rfl, rfl, rfl, rfl, rfl, rfl, rfl⟩
  | false => exact echoed_refl on

theorem echoEnd_echoed (s : State) : Echoed [13, 10] s (echoEnd false s) := by
  unfold echoEnd
  cases on : echoOn s with
  | true => exact ⟨rfl, rfl, rfl, rfl, congrArg (s.con.txd ++ ·) (if_pos on).symm, rfl, rfl, rfl, rfl, rfl, rfl, rfl, rfl⟩
  | false => exact echoed_refl on

/-- The console with a character of the UART at the end of the line in hand. -/
def withChar (b : Byte) (s : State) : State :=
  { s with con := { s.con with buf := { s.con.buf with chars := { tun := false, byte := b } :: s.con.buf.chars, tun := s.con.buf.tun || false, uart := s.con.buf.uart || !false } } }

theorem storeChar_echo (b : Byte) {s : State} (short : s.con.buf.tooLong = false) (room : s.con.buf.chars.length < 200) : storeChar false b s = echoTo false [b] (withChar b s) := by
  have fits : ¬(s.con.buf.tooLong || decide (200 ≤ s.con.buf.chars.length)) = true := by simp [short, room]
  exact if_neg (by simpa using fits)

theorem asmByte_cr (s : State) : asmByte { byte := 13 } s = lineEnd false { s with con := { s.con with afterCr := true } } := rfl

/-- A line of UART characters has its source marked already. -/
theorem conLine_uart {l : ConLine} (tun : l.tun = false) (uart : l.uart = true) : ({ l with tun := l.tun || false, uart := l.uart || !false } : ConLine) = l := by
  cases l
  simp_all

/-- A line of UART characters that is not blank is handed over once its end is echoed. -/
theorem lineEnd_text {s : State} (tun : s.con.buf.tun = false) (uart : s.con.buf.uart = true) (text : Machine.blank s.con.buf = false) :
    lineEnd false s = { echoEnd false s with con := { (echoEnd false s).con with buf := {}, skip := false, line := some s.con.buf } } := by
  have mixed : ((s.con.buf.uart || !false) && (s.con.buf.tun || false) && s.con.buf.lost == 0) = false := by simp [tun]
  unfold lineEnd
  dsimp only
  rw [(echoEnd_echoed s).buf, mixed, conLine_uart tun uart, text]
  rfl

/-! ### A full FIFO -/

/-- The FIFO with one more loss counted after its last byte. -/
def fifoLost (l : List ConByte) : List ConByte :=
  match l.getLast? with
  | some y => if y.lost ≠ 0 then l.dropLast ++ [{ y with lost := y.lost + 1 }] else l ++ [{ lost := 1 }]
  | none => [{ lost := 1 }]

/-- A byte of the UART stands in the FIFO. -/
def uartHeld (b : ConByte) : Bool := b.tun == false && b.lost == 0 && !b.brk

theorem filter_fifoLost (l : List ConByte) : (fifoLost l).filter uartHeld = l.filter uartHeld := by
  unfold fifoLost
  split
  · next y last =>
    have whole : l = l.dropLast ++ [y] := by
      obtain ⟨h, e⟩ := List.getLast?_eq_some_iff.mp last
      simp [e]
    split
    · next lost =>
      conv_rhs => rw [whole]
      simp [List.filter_append, uartHeld, lost]
    · simp [List.filter_append, uartHeld]
  · next last =>
    rw [List.getLast?_eq_none_iff.mp last]
    rfl

theorem exec_uartByte_full (b : Byte) (f : Bool) {s : State} (on : consoleOn s = true) (full : 1024 ≤ fifoFill s false) :
    exec (.uartByte b f) s =
      .next { fset CON CON_STATUS_UART_OVF 1 (fbump CON CON_UART_LOST_COUNT s) with con := { s.con with txd := [], fifo := fifoLost s.con.fifo } } :=
  congrArg Host.Outcome.next ((if_pos on).trans (if_pos full))

/-! ### Breaks and messages -/

theorem exec_uartByte_waits (b : Byte) (f : Bool) {s : State} (on : consoleOn s = true) (room : fifoFill s false < 1024) (busy : asmBusy s = true) :
    exec (.uartByte b f) s = .next (queued { byte := b, frame := f } s) := by
  have fits : ¬1024 ≤ fifoFill (freshOut s) false := Nat.not_le.mpr room
  exact congrArg Host.Outcome.next ((if_pos on).trans ((if_neg fits).trans (drain_busy ((asmBusy_congr (s := s) rfl rfl rfl rfl).trans busy))))

theorem exec_uartBreak_idle {s : State} (on : consoleOn s = true) (idle : asmBusy s = false) (empty : s.con.fifo = []) :
    exec .uartBreak s = .next (asmByte { brk := true } (freshOut s)) := by
  have taken : drain (queued { brk := true } s) = asmByte { brk := true } (freshOut s) := by
    rw [drain_one (queued_one empty _) ((asmBusy_congr (s := s) rfl rfl rfl rfl).trans idle), queued_taken empty]
  exact congrArg Host.Outcome.next ((if_pos on).trans taken)

/-- A port's record once a message has left its queue and its slot's credit has gone back. -/
def slotBack (m : Slot) (ps : PortState) : PortState := { ps with conQ := ps.conQ.erase m, rxC := { ps.rxC with released := ps.rxC.released + 1 } }

/-- A message that enters the tunnel's FIFO: its slot's credit goes back, and its bytes wait. -/
def msgTaken (p : Fin 4) (m : Slot) (s : State) : State :=
  { updPort p (slotBack m) s with
    con := { s.con with fifo := s.con.fifo ++ (List.range (slotBits m 123 120)).map fun i => { tun := true, byte := slotByte m (i + 1) } } }

theorem msgTaken_port (p : Fin 4) (m : Slot) (s : State) :
    (msgTaken p m s).port p = slotBack m (s.port p) := (port_congr (s := updPort p (slotBack m) s) rfl p).trans (updPort_port p _ s)

theorem msgTaken_port_ne {p q : Fin 4} (m : Slot) (ne : q ≠ p) (s : State) : (msgTaken p m s).port q = s.port q :=
  (port_congr (s := updPort p (slotBack m) s) rfl q).trans (updPort_port_ne p q _ s ne)

theorem tunTake_taken {p : Fin 4} {m : Slot} {s : State} (up : portSt s p = PORT_ACTIVE) (act : fbit s (HP p) HP_STATUS_TUN_ACT = true) (kind : slotBits m 127 124 = 9)
    (some_ : 0 < slotBits m 123 120) (room : fifoFill s true + slotBits m 123 120 ≤ 1024) (held : (s.port p).conQ.contains m = true) : tunTake p m s = msgTaken p m s := by
  have open_ : ¬(portSt s p ≠ PORT_ACTIVE ∨ (!fbit s (HP p) HP_STATUS_TUN_ACT) = true ∨ slotBits m 127 124 ≠ 9 ∨ 1024 < fifoFill s true + slotBits m 123 120) := by
    simp [up, act, kind, room]
  have bytes : slotBits m 123 120 ≠ 0 := by omega
  unfold tunTake
  dsimp only
  rw [if_neg open_, held, if_neg bytes]
  rfl

theorem tunTake_down {p : Fin 4} {s : State} (down : portSt s p ≠ PORT_ACTIVE) (m : Slot) : tunTake p m s = s := if_pos (.inl down)

theorem exec_conMessage_taken {p : Fin 4} {m : Slot} {s : State} (on : consoleOn s = true) (busy : asmBusy s = true) (up : portSt s p = PORT_ACTIVE)
    (act : fbit s (HP p) HP_STATUS_TUN_ACT = true) (kind : slotBits m 127 124 = 9) (some_ : 0 < slotBits m 123 120)
    (room : fifoFill s true + slotBits m 123 120 ≤ 1024) (held : (s.port p).conQ.contains m = true) : exec (.conMessage p m) s = .next (msgTaken p m (freshOut s)) := by
  have taken : tunTake p m (freshOut s) = msgTaken p m (freshOut s) := tunTake_taken up act kind some_ room held
  have busy' : asmBusy (msgTaken p m (freshOut s)) = true := (asmBusy_congr (s := s) rfl rfl rfl rfl).trans busy
  exact congrArg Host.Outcome.next ((if_pos on).trans ((congrArg drain taken).trans (drain_busy busy')))

theorem exec_conMessage_down {p : Fin 4} {s : State} (on : consoleOn s = true) (down : portSt s p ≠ PORT_ACTIVE) (empty : s.con.fifo = []) (m : Slot) :
    exec (.conMessage p m) s = .next (freshOut s) := by
  have aside : tunTake p m (freshOut s) = freshOut s := tunTake_down (s := freshOut s) down m
  exact congrArg Host.Outcome.next ((if_pos on).trans ((congrArg drain aside).trans (drain_empty empty)))

/-- Settles O22: each byte goes through the FIFO to the assembler, or waits, or is lost. -/
theorem consoleInputAssembled : Obligations.ConsoleInputAssembled := by
  refine ⟨fun b s on idle empty skip short room low high => ?_, fun s on idle empty tun uart text => ?_, fun b f s on full => ⟨_, exec_uartByte_full b f on full, ?_, ?_, ?_, rfl, rfl, rfl, ?_⟩,
    fun b f s on room busy => ⟨_, exec_uartByte_waits b f on room busy, rfl, rfl, rfl, rfl, rfl, rfl, rfl, rfl, rfl, rfl, rfl⟩,
    fun s on idle empty => ⟨_, exec_uartBreak_idle on idle empty, rfl, rfl, (asmBusy_false idle).1, empty, (asmBusy_false idle).2, rfl, rfl, rfl, rfl, rfl, rfl, rfl, rfl⟩,
    fun p m s on busy up act kind some_ room held => ⟨_, exec_conMessage_taken on busy up act kind some_ room held, rfl, ?_, ?_, fun q ne => msgTaken_port_ne m ne _, rfl, rfl, rfl, rfl, rfl, rfl, rfl, rfl⟩,
    fun p m s on down empty => exec_conMessage_down on down empty m⟩
  · have stored : asmByte { byte := b } (freshOut s) = echoTo false [b] (withChar b { freshOut s with con := { (freshOut s).con with afterCr := false } }) :=
      (asmByte_printable (s := freshOut s) skip low high).trans (storeChar_echo b short room)
    obtain ⟨buf, line, fifo, -, txd, d8, same⟩ := echoTo_echoed [b] (withChar b { freshOut s with con := { (freshOut s).con with afterCr := false } })
    refine ⟨_, (exec_uartByte_idle on idle empty).trans (congrArg Host.Outcome.next stored), congrArg ConLine.chars buf, line.trans (asmBusy_false idle).1, fifo.trans empty, ?_, d8, same⟩
    rw [txd, echoOn_congr (s := s) rfl]
    rfl
  · have ended := lineEnd_text (s := { freshOut s with con := { (freshOut s).con with afterCr := true } }) tun uart text
    obtain ⟨-, -, -, afterCr, txd, d8, same⟩ := echoEnd_echoed { freshOut s with con := { (freshOut s).con with afterCr := true } }
    refine ⟨_, (exec_uartByte_idle on idle empty).trans (congrArg Host.Outcome.next ((asmByte_cr _).trans ended)), rfl, rfl, afterCr, ?_, d8, same⟩
    refine txd.trans ?_
    rw [echoOn_congr (s := s) rfl]
    rfl
  · exact fbit_fset_one _ _ _ (by decide) (by decide)
  · exact (fget_fset_ne _ _ _ _ _ _ (by decide)).trans (fget_fbump _ _ _ (by decide))
  · exact congrArg List.length (filter_fifoLost s.con.fifo)
  · exact ⟨rfl, rfl, rfl, rfl, rfl, rfl⟩
  · rw [msgTaken_port]
    rfl
  · rw [msgTaken_port]
    rfl

end Sys2Proof.Proofs

/-! PROOF. What the work of a reset on ports, slices and channels leaves as it was (13 R372, 17 R499). -/

namespace Sys2Proof.Proofs
open Sys2Proof Sys2Proof.Machine Sys2Proof.Laws

/-! ### Properties beside that work -/

/-- The fields of registers that the work writes: it spares those of GLB but the interrupt flags and the lock of the links, of LED, PWR and AON, those of the ports, and the states of the channels. -/
inductive ResetFld : Nat → Fld → Prop
  | plain {b : Nat} {f : Fld} (h : (0x10000 ≤ b + f.off ∧ b + f.off < 0x20000) ∨ (0x24000 ≤ b + f.off ∧ b + f.off < 0x100000) ∨ (0x200000 ≤ b + f.off ∧ b + f.off < 0x300000)
      ∨ (0x310000 ≤ b + f.off ∧ b + f.off < 0x320000) ∨ 0x340000 ≤ b + f.off) : ResetFld b f
  | chan (c : Fin 16) {f : Fld} (low : f.off < 0x1000) (state : f.off ≠ CH_STATUS_STATE.off) : ResetFld (CH c) f
  | rankPd (c : Fin 16) : ResetFld (CH c) CH_STATUS_RANK_PD
  | irq {f : Fld} (h : f.off = GLB_IRQ_STAT_EVENT.off) : ResetFld GLB f
  | linkLock : ResetFld GLB GLB_CLKSTAT_LINK_LOCK

theorem ResetFld.toll (p : Fin 4) : ResetFld ARB (ARB_TOLLLVL_LEVEL.nth p) := .plain (by simp only [ARB, Fld.nth, ARB_TOLLLVL_LEVEL]; omega)

theorem ResetFld.phy (c : Fin 16) {f : Fld} (low : f.off < 0x1000) : ResetFld (PHY c) f := .plain (by unfold PHY; omega)

/-- A property of states that shows none of what the work on slices and commands changes: of a channel's record whether it is lost and waits for its replay. It may show the console, which only the events change. -/
structure BaseAside (P : State → Prop) : Prop where
  field : ∀ {b f} v s, ResetFld b f → P s → P (fset b f v s)
  parts : ∀ (s : State) bist led way, P s → P { s with bist := bist, led := led, way := way }
  chans : ∀ (s : State) (l : Vector ChanState 16), (∀ c : Fin 16, l[c].lost = s.chans[c].lost ∧ l[c].replayDue = s.chans[c].replayDue) → P s → P { s with chans := l }

/-- A property that also shows of a PHY's record that no pause runs at most. -/
structure WorkAside (P : State → Prop) : Prop extends BaseAside P where
  phys : ∀ (s : State) (l : Vector PhyState 16), (∀ c : Fin 16, s.phys[c].active = none → l[c].active = none) → P s → P { s with phys := l }

/-- A property that also shows none of what the moves of frames change. -/
structure MoveAside (P : State → Prop) : Prop extends BaseAside P where
  moves : ∀ (s : State) arbs wmem, P s → P { s with arbs := arbs, wmem := wmem }

/-- A property that also shows none of what the work on ports and tables changes. -/
structure ResetAside (P : State → Prop) : Prop extends WorkAside P, MoveAside P where
  tables : ∀ (s : State) ports streams caravans que walks toll, P s → P { s with ports := ports, streams := streams, caravans := caravans, que := que, walks := walks, toll := toll }

/-! ### Registers and records -/

section
variable {P : State → Prop} (h : BaseAside P) {s : State} (hs : P s)
include h hs

theorem fbumpN_aside {b : Nat} {f : Fld} (fld : ResetFld b f) (n : Nat) : P (fbumpN b f n s) := h.field _ s fld hs

theorem fbump_aside {b : Nat} {f : Fld} (fld : ResetFld b f) : P (fbump b f s) := h.field _ s fld hs

theorem fsetB_aside {b : Nat} {f : Fld} (fld : ResetFld b f) (v : Bool) : P (fsetB b f v s) := h.field _ s fld hs

theorem fsetBit_aside {b : Nat} {f : Fld} (fld : ResetFld b f) (i : Nat) (v : Bool) : P (fsetBit b f i v s) := h.field _ s fld hs

theorem fmax_aside {b : Nat} {f : Fld} (fld : ResetFld b f) (v : Nat) : P (fmax b f v s) := by
  unfold fmax
  split
  · exact h.field _ s fld hs
  · exact hs

theorem irq_aside {f : Fld} (flag : f.off = GLB_IRQ_STAT_EVENT.off) : P (irq f s) := h.field _ s (.irq flag) hs

theorem bist_aside (b : BistState) : P { s with bist := b } := h.parts s _ _ _ hs

theorem led_aside (l : LedState) : P { s with led := l } := h.parts s _ _ _ hs

theorem way_aside (w : WayState) : P { s with way := w } := h.parts s _ _ _ hs

theorem setFrame_aside (pin : Bool) (f : Nat) (x : Frame) : P (setFrame pin f x s) := by
  cases pin <;> exact way_aside h hs _

theorem updChan_aside (c : Fin 16) {f : ChanState → ChanState} (kept : ∀ y, (f y).lost = y.lost ∧ (f y).replayDue = y.replayDue) : P (updChan c f s) := by
  refine h.chans s _ (fun k => ?_) hs
  by_cases own : k = c
  · subst own
    simpa using kept s.chans[k]
  · have ne : c.val ≠ k.val := fun e => own (Fin.ext e.symm)
    simp [ne]

theorem charge_aside (i n : Nat) (m : Option (BitVec 8)) : P (charge i n m s) := led_aside h hs _

theorem emit_aside (console : ∀ s c, c.ans = s.con.ans → P s → P { s with con := c }) (k : String) (x : List (String × FVal)) : P (emit k x s) := by
  unfold emit
  split
  · exact irq_aside h (console s _ (by rfl) hs) rfl
  · exact h.field _ _ (.plain (by decide)) (fbump_aside h (console s _ (by rfl) hs) (.plain (by decide)))

/-! ### Lanes -/

theorem stopLane_aside (p : Fin 4) : P (stopLane p s) := by
  unfold stopLane
  split
  · exact hs
  · exact fbump_aside h (fsetBit_aside h (bist_aside h hs _) (.plain (by decide)) _ _) (.plain (by decide))

theorem cycStart_aside (t : Fin 5) : P (cycStart t s) := by
  unfold cycStart
  split
  · exact hs
  · exact bist_aside h hs _

theorem leaveCycle_aside (l : List (Nat × Nat)) : P (leaveCycle l s) := bist_aside h hs _

theorem laneFollow_aside (p : Fin 4) : P (laneFollow p s) := by
  unfold laneFollow
  extract_lets st was now x b y
  have shown : P y := bist_aside h (leaveCycle_aside h hs _) _
  split
  · exact onlyIf_keeps_prop _ _ shown (cycStart_aside h shown 4)
  · exact stopLane_aside h shown p

/-! ### Slices (13 R372) -/

theorem wayStat_aside : P (wayStat s) := by
  unfold wayStat
  exact h.field _ _ (.plain (by decide)) (h.field _ _ (.plain (by decide)) (fsetB_aside h hs (.plain (by decide)) _))

theorem dropBist_aside (granted : Bool) (c : Fin 16) : P (dropBist granted c s) := updChan_aside h hs c fun _ => ⟨rfl, rfl⟩

theorem dropSlice_aside (c : Fin 16) : P (dropSlice c s) := by
  unfold dropSlice
  split
  · exact hs
  · extract_lets x w b y
    have freed : P x := forAll_keeps_prop _ _ (dropBist_aside h hs true c) fun f _ hy => setFrame_aside h hy false f _
    have turned : P y := h.parts x _ _ _ freed
    exact fsetBit_aside h (wayStat_aside h turned) (.plain (by decide)) _ _

theorem beginBatch_aside (c : Fin 16) : P (beginBatch c s) := by
  unfold beginBatch
  split
  · exact hs
  · split
    · exact hs
    · exact updChan_aside h hs c fun _ => ⟨rfl, rfl⟩

theorem setPh_aside (c : Fin 16) (p : DPhase) : P (setPh c p s) := by
  unfold setPh
  split
  · exact hs
  · exact beginBatch_aside h (bist_aside h hs _) c

theorem stopSlice_aside (c : Fin 16) : P (stopSlice c s) := by
  have stop : ResetFld BST BST_STOP_COUNT := .plain (by decide)
  unfold stopSlice
  split
  · exact hs
  · split
    · exact fbump_aside h (dropSlice_aside h hs c) stop
    · exact fbump_aside h (setPh_aside h (dropBist_aside h hs false c) c _) stop
    · exact fbump_aside h (bist_aside h hs _) stop
    · exact hs

theorem phyPay_aside (c : Fin 16) (len : Nat) : P (phyPay c len s) := by
  unfold phyPay
  extract_lets n
  have paid : P (updChan c (fun y => { y with bkBst := y.bkBst - 16 * (n : Int) }) s) := updChan_aside h hs c fun _ => ⟨rfl, rfl⟩
  exact fbumpN_aside h paid (.chan c (by decide) (by decide)) _

theorem stopPhy_aside (c : Fin 16) : P (stopPhy c s) := by
  unfold stopPhy
  split
  · exact hs
  · have ended : P (phyNext c s) := bist_aside h hs _
    exact updChan_aside h (phyPay_aside h (fbump_aside h (fsetBit_aside h ended (.plain (by decide)) _ _) (.plain (by decide))) c _) c fun _ => ⟨rfl, rfl⟩

/-! ### Channels (17 R499 step 3) -/

theorem pausePay_aside (c : Fin 16) (len : Nat) : P (pausePay c len s) := by
  unfold pausePay
  extract_lets b b' x
  have paid : P x := fbumpN_aside h (updChan_aside h hs c (f := fun y => { y with bkPause := b' }) fun _ => ⟨rfl, rfl⟩) (f := PHY_PAUSE_CYC_COUNT) (.phy c (by decide)) len
  have charged := charge_aside h paid 0x0D len none
  exact onlyIf_keeps_prop _ _ charged (led_aside h charged _)

theorem cutPause_aside (c : Fin 16) : P (cutPause c s) := by
  unfold cutPause
  split
  · exact pausePay_aside h hs c _
  · exact hs

theorem fillStat_aside (c : Fin 16) : P (fillStat c s) := by
  unfold fillStat
  exact fmax_aside h (h.field _ _ (.chan c (by decide) (by decide)) hs) (.chan c (by decide) (by decide)) _

theorem endInord_aside (c : Fin 16) : P (endInord c s) := by
  unfold endInord
  split
  · have ended := updChan_aside h hs c (f := fun x => { x with inord := none, idleFrom8 := max x.idleFrom8 s.d8 }) fun _ => ⟨rfl, rfl⟩
    have low : ARB + (ARB_IOTIME_COUNT.nth c).off < 0x100000 := by simp only [ARB, Fld.nth, ARB_IOTIME_COUNT]; omega
    have high : 0x24000 ≤ ARB + (ARB_IOTIME_COUNT.nth c).off := Nat.le_trans (by decide : 0x24000 ≤ ARB) (Nat.le_add_right _ _)
    exact fsetBit_aside h (fbumpN_aside h ended (.plain (.inr (.inl ⟨high, low⟩))) _) (.plain (by decide)) _ _
  · exact hs

theorem mapRaa_aside (c : Fin 16) (p : Nat → Bool) (f : Nat → Nat) : P (mapRaa c p f s) := updChan_aside h hs c fun _ => ⟨rfl, rfl⟩

theorem refreshAll_aside (c : Fin 16) : P (refreshAll c s) := by
  unfold refreshAll
  exact mapRaa_aside h (charge_aside h (fbumpN_aside h hs (.chan c (by decide) (by decide)) _) _ _ _) c _ _

end

section
variable {P : State → Prop} (h : WorkAside P) {s : State} (hs : P s)
include h hs

theorem updPhy_aside (c : Fin 16) {f : PhyState → PhyState} (kept : ∀ y, y.active = none → (f y).active = none) : P (updPhy c f s) := by
  refine h.phys s _ (fun k idle => ?_) hs
  by_cases own : k = c
  · subst own
    simpa using kept _ idle
  · have ne : c.val ≠ k.val := fun e => own (Fin.ext e.symm)
    simpa [ne] using idle

theorem clearWork_aside (c : Fin 16) : P (clearWork c s) := by
  unfold clearWork
  extract_lets x y z
  have counted : P x := forAll_keeps_prop _ _ (endInord_aside h.toBaseAside hs c) fun r _ hy => fbumpN_aside h.toBaseAside hy (.chan c (by decide) (by decide)) _
  have emptied : P y := updChan_aside h.toBaseAside counted c fun _ => ⟨rfl, rfl⟩
  have stopped : P z := updPhy_aside h emptied c fun _ idle => idle
  exact fillStat_aside h.toBaseAside (h.field _ _ (.rankPd c) stopped) c

theorem clearChan_aside (c : Fin 16) : P (clearChan c s) :=
  updPhy_aside h (clearWork_aside h (stopPhy_aside h.toBaseAside (cutPause_aside h.toBaseAside hs c) c) c) c fun _ _ => rfl

variable {c : Fin 16} (console : ∀ s c, c.ans = s.con.ans → P s → P { s with con := c }) (state : ∀ v y, P y → P (setChState c v y))
include console state

theorem trainAbort_aside (reason : Nat) : P (trainAbort c reason s) := by
  unfold trainAbort trainFail
  extract_lets step opt x y z w v
  have closed : P x := updPhy_aside h hs c (f := fun y => { y with trn := none, trnHold := false, trnEnd := false, sweep := false }) fun _ idle => idle
  have ended : P y := updChan_aside h.toBaseAside closed c (f := fun y => { y with restoring := false }) fun _ => ⟨rfl, rfl⟩
  have failed : P z := h.field _ _ (.phy c (by decide)) (state _ _ ended)
  have noted : P w := h.field _ _ (.phy c (by decide)) (h.field _ _ (.phy c (by decide)) (h.field _ _ (.phy c (by decide)) failed))
  exact emit_aside h.toBaseAside (h.field _ _ (.phy c (by decide)) (h.field _ _ (.phy c (by decide)) noted)) console _ _

omit console in
theorem selfRefresh_aside : P (selfRefresh c s) := state _ _ (refreshAll_aside h.toBaseAside hs c)

theorem parkChan_aside : P (parkChan c s) := by
  unfold parkChan
  split
  · exact trainAbort_aside h hs console state _
  · split
    · exact updPhy_aside h (clearWork_aside h hs c) c fun _ idle => idle
    · exact selfRefresh_aside h (clearChan_aside h hs c) state
  · split
    · exact updPhy_aside h (clearWork_aside h hs c) c fun _ idle => idle
    · exact selfRefresh_aside h (clearChan_aside h hs c) state
  · extract_lets x
    have ended : P x := by
      unfold x
      split
      · exact trainAbort_aside h hs console state _
      · exact hs
    exact state _ _ (updChan_aside h.toBaseAside ended c fun _ => ⟨rfl, rfl⟩)
  · exact hs

end

/-! ### Frames of the Waystation -/

section
variable {P : State → Prop} (h : MoveAside P) {s : State} (hs : P s)
include h hs

theorem setWayLine_aside (w : Nat) (l : Line) : P (setWayLine w l s) := h.moves s _ _ hs

theorem stopWay_aside : P (stopWay s) := by
  unfold stopWay
  split
  · exact hs
  · extract_lets x
    have freed : P x := forAll_keeps_prop _ _ hs fun f _ hy => setFrame_aside h.toBaseAside (forAll_keeps_prop _ _ hy fun i _ hz => setWayLine_aside h hz _ _) false f _
    exact fbump_aside h.toBaseAside (h.field _ _ (.plain (by decide)) (bist_aside h.toBaseAside freed _)) (.plain (by decide))

theorem stopSlices_aside : P (stopSlices s) :=
  forAll_keeps_prop _ _ (forAll_keeps_prop _ _ (stopWay_aside h hs) fun c _ hy => stopPhy_aside h.toBaseAside (stopSlice_aside h.toBaseAside hy c) c) fun p _ hy => stopLane_aside h.toBaseAside hy p

theorem pushBg_aside (c : Fin 16) (k : BgCls) (x : Cmd) : P (pushBg c k x s) := updChan_aside h.toBaseAside hs c fun _ => ⟨rfl, rfl⟩

theorem pushWb_aside (pin : Bool) (f i : Nat) : P (pushWb pin f i s) := by
  unfold pushWb
  extract_lets x
  split
  · exact hs
  · split
    · exact hs
    · extract_lets
      refine onlyIf_keeps_prop _ _ ?pushed (pushBg_aside h ?pushed _ _ _)
      exact onlyIf_keeps_prop _ _ (setFrame_aside h.toBaseAside hs pin f _) (pushBg_aside h (setFrame_aside h.toBaseAside hs pin f _) _ _ _)

theorem startDemote_aside (pin : Bool) (f : Nat) (forced : Bool) : P (startDemote pin f forced s) := by
  unfold startDemote
  extract_lets x
  split
  · exact forAll_keeps_prop _ _ (setFrame_aside h.toBaseAside hs pin f _) fun i _ hy => pushWb_aside h hy pin f i
  · split
    · exact setFrame_aside h.toBaseAside hs pin f _
    · exact hs

theorem fillLine_aside (pin : Bool) (f i : Nat) (l : Line) (psn : Bool) : P (fillLine pin f i l psn s) := setWayLine_aside h (setFrame_aside h.toBaseAside (charge_aside h.toBaseAside hs _ _ _) pin f _) _ _

theorem pushFill_aside (pin : Bool) (f i : Nat) : P (pushFill pin f i s) := by
  unfold pushFill
  split
  · exact hs
  · split
    · exact pushBg_aside h hs _ _ _
    · exact fillLine_aside h hs pin f i _ _

theorem startFill_aside (pin : Bool) (f seg : Nat) (owner : Option (BitVec 8)) (k : Option (Fin 16)) : P (startFill pin f seg owner k s) :=
  forAll_keeps_prop _ _ (setFrame_aside h.toBaseAside hs pin f _) fun i _ hy => pushFill_aside h hy pin f i

theorem pinStat_aside (k : Fin 16) : P (pinStat k s) := way_aside h.toBaseAside hs _

theorem wbHigh_aside (m : BitVec 8) : P (wbHigh m s) := forAll_keeps_prop _ _ hs fun x _ hy => pushWb_aside h hy x.2.1 x.2.2.1 x.2.2.2

theorem warmAgain_aside (was : State) : P (warmAgain was s) := by
  unfold warmAgain
  extract_lets dem fill
  have demoted : ∀ pin f y, P y → P (dem pin f y) := by
    intro pin f y hy
    unfold dem
    extract_lets off
    split
    · exact startDemote_aside h hy pin f.1 f.2.forced
    · exact forAll_keeps_prop _ _ hy fun i _ hz => pushWb_aside h hz pin f.1 i
  have filled : ∀ f y, P y → P (fill f y) := by
    intro f y hy
    unfold fill
    split
    · split
      · exact startFill_aside h hy true f.1 f.2.seg none _
      · exact pinStat_aside h hy _
    · exact hy
  exact forAll_keeps_prop _ _ (forAll_keeps_prop _ _ (forAll_keeps_prop _ _ (forAll_keeps_prop _ _ hs (demoted false)) (demoted true)) filled) fun m _ hy => wbHigh_aside h hy (BitVec.ofNat 8 m.1)

theorem updArb_aside (a : Fin 17) (f : ArbState → ArbState) : P (updArb a f s) := h.moves s _ _ hs

theorem killFills_aside (pin : Bool) (f : Nat) : P (killFills pin f s) := by
  unfold killFills
  extract_lets off
  exact h.chans s _ (fun c => by simp) hs

theorem moveHeld_aside (seg : Nat) : P (moveHeld seg s) := by
  unfold moveHeld
  extract_lets mine a x dest
  have left : P x := updArb_aside h hs 16 _
  exact forAll_keeps_prop _ _ (forAll_keeps_prop _ _ left fun _ _ hy => updArb_aside h hy _ _) fun _ _ hy => updArb_aside h hy _ _

theorem pinNext_aside (seg : Nat) : P (pinNext seg s) := by
  unfold pinNext
  split
  · exact hs
  · extract_lets w x
    have taken : P x := way_aside h.toBaseAside hs _
    split
    · exact startFill_aside h taken true _ seg none _
    · exact taken

section
variable (console : ∀ s c, c.ans = s.con.ans → P s → P { s with con := c })
include console

theorem retireTier_aside (f : Nat) : P (retireTier f s) :=
  emit_aside h.toBaseAside (fbump_aside h.toBaseAside (h.field _ _ (.plain (by decide)) (setFrame_aside h.toBaseAside hs false f _)) (.plain (by decide))) console _ _

theorem retirePin_aside (f : Nat) : P (retirePin f s) :=
  emit_aside h.toBaseAside (fbump_aside h.toBaseAside (setFrame_aside h.toBaseAside hs true f _) (.plain (by decide))) console _ _

theorem freeFrame_aside (pin : Bool) (f : Nat) : P (freeFrame pin f s) := by
  unfold freeFrame
  extract_lets x y z w
  have emptied : P y := by
    refine setFrame_aside h.toBaseAside ?_ pin f _
    split
    · exact killFills_aside h hs pin f
    · exact hs
  have reused : P z := by
    unfold z
    split
    · exact onlyIf_keeps_prop _ _ emptied (retirePin_aside h emptied console f)
    · split
      · exact retireTier_aside h emptied console f
      · split
        · exact setFrame_aside h.toBaseAside emptied false f _
        · split
          · split
            · exact startFill_aside h emptied false f _ _ _
            · exact emptied
          · exact emptied
  have moved : P w := moveHeld_aside h (pinNext_aside h reused _) _
  split
  · exact pinStat_aside h moved _
  · exact moved

theorem pinSeg_aside (k : Fin 16) (seg : Nat) : P (pinSeg k seg s) := by
  unfold pinSeg
  extract_lets x
  have given : P x := by
    unfold x
    split
    · split
      · exact hs
      · exact freeFrame_aside h (setFrame_aside h.toBaseAside hs false _ _) console false _
    · exact hs
  split
  · exact startDemote_aside h (way_aside h.toBaseAside given _) _ _ false
  · split
    · exact startFill_aside h given true _ seg none _
    · exact given

theorem pinRefill_aside : P (pinRefill s) := by
  refine forAll_keeps_prop _ _ hs fun k x hx => ?_
  dsimp only
  split
  · exact hx
  · refine pinStat_aside h (forAll_keeps_prop _ _ hx fun j y hy => ?_) k
    split
    · exact hy
    · exact pinSeg_aside h hy console k _

end

end

/-! ### A port is reset (17 R499 step 2, R503) -/

section
variable {P : State → Prop} (h : ResetAside P) {s : State} (hs : P s) (p : Fin 4) (ports : ∀ {f : Fld} v s, f.off < 0x1000 → P s → P (fset (HP p) f v s))
include h hs

theorem updPort_aside (f : PortState → PortState) : P (updPort p f s) := h.tables s _ _ _ _ _ _ hs

theorem voidTags_aside : P (voidTags p s) := by
  unfold voidTags
  extract_lets x
  have voided : P x := h.tables s _ _ _ _ _ _ hs
  have tagless := h.moves x (x.arbs.map fun a => { a with
      contest := a.contest.map fun c => if c.port = p then { c with req := { c.req with void := true } } else c,
      resvWait := a.resvWait.map fun c => if c.port = p then { c with req := { c.req with void := true } } else c }) x.wmem voided
  exact h.tables _ _ _ _ _ _ _ tagless

theorem tunnelDown_aside (console : ∀ s c, c.ans = s.con.ans → P s → P { s with con := c }) : P (tunnelDown p s) := by
  unfold tunnelDown
  split
  · extract_lets c blank buf d e
    have kept : e.ans = s.con.ans := by
      unfold e
      split
      · split
        · rfl
        · rfl
      · rfl
    exact emit_aside h.toBaseAside (console s e kept hs) console _ _
  · exact hs

include ports

theorem tunFollow_aside : P (tunFollow p s) := by
  unfold tunFollow
  extract_lets on x
  have shown : P x := ports _ _ (by decide) hs
  split
  · exact h.field _ _ (.plain (by decide)) (h.field _ _ (.plain (by decide)) shown)
  · exact onlyIf_keeps_prop _ _ shown (h.field _ _ (.plain (by decide)) shown)

theorem setPortSt_aside (v : Nat) : P (setPortSt p v s) :=
  laneFollow_aside h.toBaseAside (tunFollow_aside h (ports _ _ (by decide) (updPort_aside h hs p _)) p ports) p

theorem toDetect_aside : P (toDetect p s) := setPortSt_aside h (h.field _ _ .linkLock (updPort_aside h hs p _)) p ports _

theorem clearPort_aside (console : ∀ s c, c.ans = s.con.ans → P s → P { s with con := c }) : P (clearPort p s) := by
  unfold clearPort
  extract_lets x y z
  have cleared : P z := voidTags_aside h (updPort_aside h (tunnelDown_aside h hs p console) p _) p
  exact ports _ _ (by decide) (ports _ _ (by decide) (ports _ _ (by decide) (ports _ _ (by decide) cleared)))

theorem warmPort_aside (console : ∀ s c, c.ans = s.con.ans → P s → P { s with con := c }) : P (warmPort p s) := by
  unfold warmPort
  extract_lets x y
  have cleared : P x := updPort_aside h (clearPort_aside h hs p ports console) p _
  have counted : P y := irq_aside h.toBaseAside (ports _ _ (by decide) (ports _ _ (by decide) cleared)) rfl
  split
  · exact toDetect_aside h counted p ports
  · exact setPortSt_aside h counted p ports _

end

/-! ### The tables of the Waystation and of the queue engine (07 R211) -/

section
variable {P : State → Prop} (h : ResetAside P) {s : State} (hs : P s)
include h hs

theorem que_aside (q : QueueState) : P { s with que := q } := h.tables s _ _ _ _ _ _ hs

theorem queStat_aside : P (queStat s) := by
  unfold queStat
  extract_lets x
  have shown : P x := h.field _ _ (.plain (by decide)) (h.field _ _ (.plain (by decide)) hs)
  exact fsetB_aside h.toBaseAside (que_aside h shown _) (.plain (by decide)) _

theorem setQfr_aside (f : Nat) (x : QFrame) : P (setQfr f x s) := queStat_aside h (que_aside h hs _)

theorem freeQFrame_aside (f : Nat) : P (freeQFrame f s) := by
  unfold freeQFrame
  split
  · exact setQfr_aside h (fbump_aside h.toBaseAside (h.field _ _ (.plain (by decide)) hs) (.plain (by decide))) f _
  · exact setQfr_aside h hs f _

theorem setDramPsn_aside (c : Fin 16) (lam : Nat) (psn : Bool) : P (setDramPsn c lam psn s) := by
  unfold setDramPsn
  split
  · exact updChan_aside h.toBaseAside hs c fun _ => ⟨rfl, rfl⟩
  · exact updChan_aside h.toBaseAside hs c fun _ => ⟨rfl, rfl⟩

theorem qWbDone_aside (b c : Nat) : P (qWbDone b c s) := by
  unfold qWbDone
  extract_lets x
  have counted : P x := fbump_aside h.toBaseAside hs (.plain (by decide))
  split
  · exact counted
  · extract_lets y z w
    have cleaned : P w := setQfr_aside h counted _ z
    split
    · exact cleaned
    · split
      · split
        · exact setQfr_aside h cleaned _ _
        · exact freeQFrame_aside h cleaned _
      · split
        · exact freeQFrame_aside h cleaned _
        · exact cleaned

theorem pushQueWb_aside (b c l : Nat) (man : Option (BitVec 8)) : P (pushQueWb b c l man s) := by
  unfold pushQueWb
  split
  · exact hs
  · split
    · exact pushBg_aside h.toMoveAside hs _ _ _
    · exact qWbDone_aside h (setDramPsn_aside h hs _ _ _) b c

theorem qWriteBack_aside (f : Nat) : P (qWriteBack f s) := by
  unfold qWriteBack
  extract_lets x man y
  have record : P y := onlyIf_keeps_prop _ _ hs (pushQueWb_aside h hs _ _ _ _)
  exact forAll_keeps_prop _ _ record fun c _ hy => pushQueWb_aside h hy _ c _ _

theorem initFuel_aside (n : Nat) : P (initFuel n s) := by
  induction n generalizing s with
  | zero => exact hs
  | succ n ih =>
    unfold initFuel
    extract_lets k q y
    have taken : P y := que_aside h hs _
    have lost : P (initLose k y) := fbumpN_aside h.toBaseAside (que_aside h taken _) (.plain (by decide)) _
    split
    · exact hs
    · split
      · split
        · exact pushBg_aside h.toMoveAside taken _ _ _
        · exact ih lost
      · exact ih lost

theorem initStart_aside : P (initStart s) := forAll_keeps_prop _ _ (que_aside h hs _) fun _ _ hy => initFuel_aside h hy _

theorem warmQueue_aside : P (warmQueue s) := by
  unfold warmQueue
  have written : P (forAll (s.que.frames.filter fun f => f.2.role == .full || (f.2.role == .tail && f.2.evict)) (fun f s => qWriteBack f.1 s) s) :=
    forAll_keeps_prop _ _ hs fun f _ hy => qWriteBack_aside h hy f.1
  exact onlyIf_keeps_prop _ _ written (initStart_aside h written)

theorem warmWay_aside : P (warmWay s) := by
  unfold warmWay
  extract_lets was x y held w z u
  have tier : P x := forAll_keeps_prop _ _ hs fun f _ hy => setFrame_aside h.toBaseAside hy false f.1 _
  have pinned : P y := forAll_keeps_prop _ _ tier fun f _ hy => setFrame_aside h.toBaseAside hy true f.1 _
  have held : P z := way_aside h.toBaseAside pinned _
  have emptied : P u := h.tables z _ _ _ _ _ _ held
  exact warmQueue_aside h (warmAgain_aside h.toMoveAside (wayStat_aside h.toBaseAside (h.field _ _ (.plain (by decide)) emptied)) was)

end

end Sys2Proof.Proofs

/-! PROOF. A warm reset (17 R497 to R499, R507): what its work on ports, slices, channels and the core brings about and what it leaves. -/

namespace Sys2Proof.Proofs
open Sys2Proof Sys2Proof.Machine Sys2Proof.Laws

/-! ### Properties that the work of a warm reset keeps -/

/-- A property that also does not show what the reset of the core clears. -/
structure CoreAside (P : State → Prop) : Prop extends ResetAside P where
  console : ∀ s c, P s → P { s with con := c }
  watchdog : ∀ s, P s → P (rgSet (GLB + GLB_WDOG_CTL_EN.off) 0 s)
  level : ∀ s, P s → P (fset LED LED_STATUS_LEVEL 0 s)
  core : ∀ (s : State) probe guard latches shadow wayOps wreads accts, P s →
    P { s with probe := probe, guard := guard, latches := latches, shadow := shadow, wayOps := wayOps, wreads := wreads, accts := accts }

/-- A property that also shows no state of a port or channel. -/
structure WarmAside (P : State → Prop) : Prop extends CoreAside P where
  port : ∀ (p : Fin 4) {f : Fld} v s, f.off < 0x1000 → P s → P (fset (HP p) f v s)
  state : ∀ (c : Fin 16) v s, P s → P (setChState c v s)

/-- Ports, slices and channels are reset (17 R499 steps 2 and 3). -/
def warmParked (s : State) : State := forAll allChans parkChan (stopSlices (forAll allPorts warmPort s))

theorem warmParked_aside {P : State → Prop} (h : WarmAside P) {s : State} (hs : P s) : P (warmParked s) :=
  forAll_keeps_prop _ _
    (stopSlices_aside h.toMoveAside (forAll_keeps_prop _ _ hs fun p _ hy => warmPort_aside h.toResetAside hy p (h.port p) fun s c _ => h.console s c))
    fun c _ hy => parkChan_aside h.toWorkAside hy (fun s c _ => h.console s c) (h.state c)

theorem coreReset_aside {P : State → Prop} (h : CoreAside P) {s : State} (hs : P s) : P (coreReset s) := by
  have base := h.toResetAside
  unfold coreReset
  extract_lets r0 r1 r2 q l y1 y2 y3 c y4
  have cleared : P r1 := base.field _ _ (.plain (by decide)) (h.level _ (base.field _ _ (.plain (by decide)) (base.field _ _ (.plain (by decide)) (h.watchdog _ hs))))
  have replay : P r2 := base.field _ _ (.plain (by decide)) (base.field _ _ (.plain (by decide)) cleared)
  have emptied : P y1 := base.tables _ _ _ _ _ _ _ (base.moves _ _ _ (base.parts _ _ _ _ (h.core r2 none none [] none [] [] r2.accts replay)))
  have streams : P y2 := base.tables _ _ _ _ _ _ _ (h.core y1 _ _ _ _ _ _ (acctsZero (fun _ => true) y1).accts emptied)
  have tolls : P y3 := forAll_keeps_prop _ _ streams fun p y hy => base.field _ _ (.toll p) (base.tables y _ _ _ _ _ _ hy)
  exact warmWay_aside base (h.console y3 _ tolls)

/-! ### What the reset of the core clears -/

/-- The console holds no line and no answer, no move of a frame runs, the watchdog is off, and nothing is throttled. -/
structure Cleared (s : State) : Prop where
  ans : s.con.ans = []
  line : s.con.line = none
  fifo : s.con.fifo = []
  wayOps : s.wayOps = []
  watchdog : rg s (GLB + GLB_WDOG_CTL_EN.off) = 0
  level : fget s LED LED_STATUS_LEVEL = 0

/-- An address that no field of `ResetFld` has: one of GLB but the interrupt flags and the clocks' states, or one of LED, PWR and AON. -/
def Spared (a : Nat) : Prop := (a < 0x10000 ∧ a ≠ GLB + GLB_IRQ_STAT_EVENT.off ∧ a ≠ GLB + GLB_CLKSTAT_LINK_LOCK.off) ∨ (0x300000 ≤ a ∧ a < 0x310000) ∨ (0x320000 ≤ a ∧ a < 0x340000)

theorem ResetFld.ne {b a : Nat} {f : Fld} (fld : ResetFld b f) (spared : Spared a) : a ≠ b + f.off := by
  unfold Spared at spared
  cases fld with
  | plain range => omega
  | chan c low => unfold CH; omega
  | rankPd c => unfold CH CH_STATUS_RANK_PD; dsimp only; omega
  | irq flag => rw [flag]; unfold GLB GLB_IRQ_STAT_EVENT GLB_CLKSTAT_LINK_LOCK at *; dsimp only at *; omega
  | linkLock => unfold GLB GLB_IRQ_STAT_EVENT GLB_CLKSTAT_LINK_LOCK at *; dsimp only at *; omega

theorem spared_watchdog : Spared (GLB + GLB_WDOG_CTL_EN.off) := by unfold Spared; decide

theorem spared_level : Spared (LED + LED_STATUS_LEVEL.off) := by unfold Spared; decide

theorem aside_rg {a : Nat} (spared : Spared a) (w : Word) : ResetAside fun s => rg s a = w where
  field v s fld hs := (rg_fset_ne _ _ v s (fld.ne spared)).trans hs
  parts _ _ _ _ hs := hs
  moves _ _ _ hs := hs
  tables _ _ _ _ _ _ _ hs := hs
  chans _ _ _ hs := hs
  phys _ _ _ hs := hs

theorem aside_cleared : ResetAside Cleared where
  field v s fld hs := ⟨hs.ans, hs.line, hs.fifo, hs.wayOps, (rg_fset_ne _ _ v s (fld.ne spared_watchdog)).trans hs.watchdog,
    (fget_fset_ne _ _ _ _ v s (fld.ne spared_level)).trans hs.level⟩
  parts _ _ _ _ hs := ⟨hs.ans, hs.line, hs.fifo, hs.wayOps, hs.watchdog, hs.level⟩
  moves _ _ _ hs := ⟨hs.ans, hs.line, hs.fifo, hs.wayOps, hs.watchdog, hs.level⟩
  tables _ _ _ _ _ _ _ hs := ⟨hs.ans, hs.line, hs.fifo, hs.wayOps, hs.watchdog, hs.level⟩
  chans _ _ _ hs := ⟨hs.ans, hs.line, hs.fifo, hs.wayOps, hs.watchdog, hs.level⟩
  phys _ _ _ hs := ⟨hs.ans, hs.line, hs.fifo, hs.wayOps, hs.watchdog, hs.level⟩

theorem setToll_inv {β : Type} {g : State → β} (toll : ∀ s (t : Vector Int 4), g { s with toll := t } = g s) (reg : ∀ (p : Fin 4) v s, g (fset ARB (ARB_TOLLLVL_LEVEL.nth p) v s) = g s)
    (p : Fin 4) (v : Int) (s : State) : g (setToll p v s) = g s := (reg p _ _).trans (toll s _)

theorem coreReset_cleared (s : State) : Cleared (coreReset s) := by
  unfold coreReset
  extract_lets r0 r1 r2 q l y1 y2 y3 c y4
  have dog1 : rg r1 (GLB + GLB_WDOG_CTL_EN.off) = 0 :=
    ((rg_fset_ne _ _ _ _ (by decide)).trans ((rg_fset_ne _ _ _ _ (by decide)).trans ((rg_fset_ne _ _ _ _ (by decide)).trans (rg_fset_ne _ _ _ r0 (by decide))))).trans (rg_rgSet _ _ s)
  have dog2 : rg r2 (GLB + GLB_WDOG_CTL_EN.off) = 0 := ((rg_fset_ne _ _ _ _ (by decide)).trans (rg_fset_ne _ _ _ r1 (by decide))).trans dog1
  have level1 : fget r1 LED LED_STATUS_LEVEL = 0 := (fget_fset_ne _ _ _ _ _ _ (by decide)).trans (fget_fset _ _ _ _ (by decide))
  have level2 : fget r2 LED LED_STATUS_LEVEL = 0 := ((fget_fset_ne _ _ _ _ _ _ (by decide)).trans (fget_fset_ne _ _ _ _ _ r1 (by decide))).trans level1
  have tolls : rg y3 (GLB + GLB_WDOG_CTL_EN.off) = 0 ∧ fget y3 LED LED_STATUS_LEVEL = 0 ∧ y3.wayOps = [] := by
    refine ⟨(forAll_inv (rg · (GLB + GLB_WDOG_CTL_EN.off)) _ _ y2 fun p s => ?_).trans dog2, (forAll_inv (fget · LED LED_STATUS_LEVEL) _ _ y2 fun p s => ?_).trans level2,
      forAll_inv (·.wayOps) _ _ y2 fun p s => rfl⟩
    · exact setToll_inv (g := (rg · (GLB + GLB_WDOG_CTL_EN.off))) (fun _ _ => rfl) (fun p v s => rg_fset_ne _ _ v s ((ResetFld.toll p).ne spared_watchdog)) p _ s
    · exact setToll_inv (g := (fget · LED LED_STATUS_LEVEL)) (fun _ _ => rfl) (fun p v s => fget_fset_ne _ _ _ _ v s ((ResetFld.toll p).ne spared_level)) p _ s
  obtain ⟨dog, level, ops⟩ := tolls
  exact warmWay_aside aside_cleared ⟨rfl, rfl, rfl, ops, dog, level⟩

/-! ### Properties of a field, of the records, and of the parking of a channel -/

/-- A register of GLB that a warm reset's work leaves: all but the interrupt flags, the clocks' states and the watchdog. -/
theorem warmAside_rg {a : Nat} (low : a < 0x10000) (irqs : a ≠ GLB + GLB_IRQ_STAT_EVENT.off) (clocks : a ≠ GLB + GLB_CLKSTAT_LINK_LOCK.off) (dog : a ≠ GLB + GLB_WDOG_CTL_EN.off) (w : Word) :
    WarmAside fun s => rg s a = w where
  toResetAside := aside_rg (.inl ⟨low, irqs, clocks⟩) w
  port p f v s off hs := (rg_fset_ne _ _ v s (by unfold HP; omega)).trans hs
  state c v s hs := (rg_fset_ne _ _ v s (by unfold CH; omega)).trans hs
  console _ _ hs := hs
  watchdog s hs := (rg_rgSet_ne _ _ _ s dog).trans hs
  level s hs := (rg_fset_ne _ _ _ s (by unfold LED; omega)).trans hs
  core _ _ _ _ _ _ _ _ hs := hs

/-- The clocks' states but the locks of the links stay. -/
theorem warmAside_clock {f : Fld} (off : f.off = GLB_CLKSTAT_LINK_LOCK.off) (apart : Apart f GLB_CLKSTAT_LINK_LOCK) (v : Nat) : WarmAside fun s => fget s GLB f = v where
  field {b g} x s fld hs := by
    refine Eq.trans ?_ hs
    have at_ : f.off = 0x28 := off
    cases fld with
    | plain range => exact fget_fset_ne _ _ _ _ x s (by unfold GLB; omega)
    | chan c low => exact fget_fset_ne _ _ _ _ x s (by unfold GLB CH; omega)
    | rankPd c => exact fget_fset_ne _ _ _ _ x s (by unfold GLB CH; omega)
    | irq flag => exact fget_fset_ne _ _ _ _ x s (by rw [flag, at_]; decide)
    | linkLock => exact fget_fset_apart GLB apart x s
  parts _ _ _ _ hs := hs
  moves _ _ _ hs := hs
  tables _ _ _ _ _ _ _ hs := hs
  chans _ _ _ hs := hs
  phys _ _ _ hs := hs
  port p g x s low hs := (fget_fset_ne _ _ _ _ x s (by rw [off]; unfold GLB HP; simp only [GLB_CLKSTAT_LINK_LOCK]; omega)).trans hs
  state c x s hs := (fget_fset_ne _ _ _ _ x s (by rw [off]; unfold GLB CH; simp only [GLB_CLKSTAT_LINK_LOCK]; omega)).trans hs
  console _ _ hs := hs
  watchdog s hs := Eq.trans (congrArg f.get (rg_rgSet_ne _ _ _ s (by rw [off]; decide))) hs
  level s hs := (fget_fset_ne _ _ _ _ _ s (by rw [off]; decide)).trans hs
  core _ _ _ _ _ _ _ _ hs := hs

/-- Journal, DRAM, clock and power state stay, and which channels are lost. -/
theorem warmAside_kept (r : State) : WarmAside fun s => (s.rings = r.rings ∧ s.dram = r.dram ∧ s.d8 = r.d8 ∧ s.pwr = r.pwr) ∧ ∀ c : Fin 16, (s.chan c).lost = (r.chan c).lost where
  field _ _ _ hs := hs
  parts _ _ _ _ hs := hs
  moves _ _ _ hs := hs
  tables _ _ _ _ _ _ _ hs := hs
  chans _ _ kept hs := ⟨hs.1, fun c => (kept c).1.trans (hs.2 c)⟩
  phys _ _ _ hs := hs
  port _ _ _ _ _ hs := hs
  state _ _ _ hs := hs
  console _ _ hs := hs
  watchdog _ hs := hs
  level _ hs := hs
  core _ _ _ _ _ _ _ _ hs := hs

/-! ### A channel is parked -/

/-- What a listed unit's own step brings about from the states in which the list is worked. -/
theorem forAll_reaches_of {α : Type} {I P : State → Prop} {l : List α} {f : α → State → State} {a : α} (m : a ∈ l) (inv : ∀ b s, I s → I (f b s)) (own : ∀ s, I s → P (f a s))
    (kept : ∀ b s, P s → P (f b s)) {s : State} (hs : I s) : P (forAll l f s) := by
  obtain ⟨l1, l2, rfl⟩ := List.append_of_mem m
  have split : forAll (l1 ++ a :: l2) f s = forAll l2 f (f a (forAll l1 f s)) := List.foldl_append
  rw [split]
  exact forAll_keeps_prop l2 f (own _ (forAll_keeps_prop l1 f hs inv)) kept

theorem ResetFld.chState_fset {b : Nat} {f : Fld} (fld : ResetFld b f) (c : Fin 16) (v : Nat) (s : State) : chState (fset b f v s) c = chState s c := by
  have at_ : CH_STATUS_STATE.off = 8 := rfl
  have lt := c.isLt
  cases fld with
  | plain range => exact fget_fset_ne _ _ _ _ v s (by unfold CH; omega)
  | chan k low state => exact fget_fset_ne _ _ _ _ v s (by unfold CH; omega)
  | irq flag => exact fget_fset_ne _ _ _ _ v s (by rw [flag, at_]; unfold CH GLB; simp only [GLB_IRQ_STAT_EVENT]; omega)
  | linkLock => exact fget_fset_ne _ _ _ _ v s (by rw [at_]; unfold CH GLB; simp only [GLB_CLKSTAT_LINK_LOCK]; omega)
  | rankPd k =>
    by_cases own : k = c
    · subst own
      exact fget_fset_apart _ (by decide) v s
    · have ne : k.val ≠ c.val := fun e => own (Fin.ext e)
      exact fget_fset_ne _ _ _ _ v s (by unfold CH; simp only [CH_STATUS_RANK_PD]; omega)

theorem aside_chState (c : Fin 16) (v : Nat) : ResetAside fun s => chState s c = v where
  field x s fld hs := (fld.chState_fset c x s).trans hs
  parts _ _ _ _ hs := hs
  moves _ _ _ hs := hs
  tables _ _ _ _ _ _ _ hs := hs
  chans _ _ _ hs := hs
  phys _ _ _ hs := hs

theorem aside_idle (c : Fin 16) : ResetAside fun s => (s.phy c).active = none where
  field _ _ _ hs := hs
  parts _ _ _ _ hs := hs
  moves _ _ _ hs := hs
  tables _ _ _ _ _ _ _ hs := hs
  chans _ _ _ hs := hs
  phys _ _ kept hs := kept c hs

theorem chState_setChState_ne {b c : Fin 16} (ne : b ≠ c) (v : Nat) (s : State) : chState (setChState b v s) c = chState s c := by
  have ne : b.val ≠ c.val := fun e => ne (Fin.ext e)
  exact fget_fset_ne _ _ _ _ v s (by unfold CH; omega)

theorem chState_HP (p : Fin 4) {f : Fld} (low : f.off < 0x1000) (c : Fin 16) (v : Nat) (s : State) : chState (fset (HP p) f v s) c = chState s c :=
  fget_fset_ne _ _ _ _ v s (by unfold HP CH; omega)

/-- A channel that the parking takes to self-refresh: READY or in service, with no pause running, or there already. -/
def ToRest (c : Fin 16) (s : State) : Prop := (chState s c = 2 ∨ chState s c = 3 ∨ chState s c = 4) ∧ (s.phy c).active = none

theorem aside_toRest (c : Fin 16) : ResetAside (ToRest c) where
  field v s fld hs := ⟨(fld.chState_fset c v s).symm ▸ hs.1, hs.2⟩
  parts _ _ _ _ hs := hs
  moves _ _ _ hs := hs
  tables _ _ _ _ _ _ _ hs := hs
  chans _ _ _ hs := hs
  phys _ _ kept hs := ⟨hs.1, kept c hs.2⟩

theorem selfRefresh_chState (c : Fin 16) (s : State) : chState (selfRefresh c s) c = 4 := fget_fset _ _ _ _ (by decide)

theorem parkChan_chState {c : Fin 16} {s : State} (rest : ToRest c s) : chState (parkChan c s) c = 4 := by
  obtain ⟨state, idle⟩ := rest
  have running : ¬(s.phy c).active.isSome = true := by simp [idle]
  unfold parkChan
  rcases state with state | state | state
  · simp only [state, if_neg running]
    exact selfRefresh_chState c _
  · simp only [state, if_neg running]
    exact selfRefresh_chState c _
  · simp only [state]

theorem parkChan_idle {b c : Fin 16} {s : State} (idle : (s.phy c).active = none) : ((parkChan b s).phy c).active = none :=
  parkChan_aside (aside_idle c).toWorkAside idle (fun _ _ _ h => h) fun _ _ h => h

theorem parkChan_chState_ne {b c : Fin 16} (ne : b ≠ c) (s : State) : chState (parkChan b s) c = chState s c :=
  parkChan_aside (aside_chState c (chState s c)).toWorkAside rfl (fun _ _ _ h => h) fun v y hy => (chState_setChState_ne ne v y).trans hy

/-- A channel READY or in service with no pause is in self-refresh once every channel is parked. -/
theorem warmParked_chState {c : Fin 16} {s : State} (state : chState s c = 2 ∨ chState s c = 3) (idle : (s.phy c).active = none) : chState (warmParked s) c = 4 := by
  have rest : ToRest c s := ⟨state.imp_right .inl, idle⟩
  have ports : ToRest c (forAll allPorts warmPort s) :=
    forAll_keeps_prop _ _ rest fun p _ hy => warmPort_aside (aside_toRest c) hy p (fun v y low hz => ⟨(chState_HP p low c v y).symm ▸ hz.1, hz.2⟩) fun _ _ _ h => h
  have slices : ToRest c (stopSlices (forAll allPorts warmPort s)) := stopSlices_aside (aside_toRest c).toMoveAside ports
  have parked : ∀ b y, ToRest c y → ToRest c (parkChan b y) := by
    intro b y hy
    refine ⟨?_, parkChan_idle hy.2⟩
    by_cases own : b = c
    · subst own
      exact .inr (.inr (parkChan_chState hy))
    · rw [parkChan_chState_ne own]
      exact hy.1
  have resting : ∀ b y, chState y c = 4 → chState (parkChan b y) c = 4 := by
    intro b y hy
    by_cases own : b = c
    · subst own
      unfold parkChan
      simp only [hy]
    · exact (parkChan_chState_ne own y).trans hy
  exact forAll_reaches_of (List.mem_finRange c) parked (fun _ => parkChan_chState) resting slices

theorem coreAside_chState (c : Fin 16) (v : Nat) : CoreAside fun s => chState s c = v where
  toResetAside := aside_chState c v
  console _ _ hs := hs
  watchdog s hs := (congrArg CH_STATUS_STATE.get (rg_rgSet_ne _ _ _ s (by unfold CH GLB; simp only [GLB_WDOG_CTL_EN, CH_STATUS_STATE]; omega))).trans hs
  level s hs := (fget_fset_ne _ _ _ _ _ s (by unfold CH LED; simp only [LED_STATUS_LEVEL, CH_STATUS_STATE]; omega)).trans hs
  core _ _ _ _ _ _ _ _ hs := hs

/-! ### The steps after it -/

/-- What the rest of a warm reset leaves: the registers that say how it came about, the states of the channels, journal and DRAM, the clock, and what has been cleared. -/
def resetView (s : State) := (fun a : {a // Spared a} => rg s a.val, fun c => chState s c, s.rings, s.dram, s.d8, (s.con.ans, s.con.line, s.con.fifo), s.wayOps)

theorem resetView_regs {s t : State} (regs : ∀ a, Spared a → rg t a = rg s a) (states : ∀ c, chState t c = chState s c)
    (rest : (t.rings, t.dram, t.d8, (t.con.ans, t.con.line, t.con.fifo), t.wayOps) = (s.rings, s.dram, s.d8, (s.con.ans, s.con.line, s.con.fifo), s.wayOps)) : resetView t = resetView s := by
  unfold resetView
  rw [rest, funext states, funext fun a : {a // Spared a} => regs a.val a.property]

/-- What states of one such view have in common. -/
structure ResetSame (s t : State) : Prop where
  regs : ∀ a, Spared a → rg t a = rg s a
  states : ∀ c, chState t c = chState s c
  rings : t.rings = s.rings
  dram : t.dram = s.dram
  d8 : t.d8 = s.d8
  ans : t.con.ans = s.con.ans
  line : t.con.line = s.con.line
  fifo : t.con.fifo = s.con.fifo
  wayOps : t.wayOps = s.wayOps

theorem resetSame_of_view {s t : State} (view : resetView t = resetView s) : ResetSame s t := by
  simp only [resetView, Prod.mk.injEq] at view
  obtain ⟨regs, states, rings, dram, d8, ⟨ans, line, fifo⟩, wayOps⟩ := view
  exact ⟨fun a spared => congrFun regs ⟨a, spared⟩, congrFun states, rings, dram, d8, ans, line, fifo, wayOps⟩

theorem resetView_fset {b : Nat} {f : Fld} (fld : ResetFld b f) (v : Nat) (s : State) : resetView (fset b f v s) = resetView s :=
  resetView_regs (fun _ spared => rg_fset_ne _ _ v s (fld.ne spared)) (fun c => fld.chState_fset c v s) rfl

theorem resetView_rgSet {k : Nat} (high : 0x340000 ≤ k) (w : Word) (s : State) : resetView (rgSet k w s) = resetView s :=
  resetView_regs (fun a spared => rg_rgSet_ne _ _ w s (by unfold Spared at spared; omega))
    (fun c => congrArg CH_STATUS_STATE.get (rg_rgSet_ne _ _ w s (by unfold CH; simp only [CH_STATUS_STATE]; omega))) rfl

theorem emitReset_resetView (warm : Bool) (s : State) : resetView (emitReset warm s) = resetView s := resetView_fset (.irq rfl) _ _

theorem fbit_of_rg {s t : State} {b : Nat} {f : Fld} (same : rg t (b + f.off) = rg s (b + f.off)) : fbit t b f = fbit s b f := congrArg (· != 0) (fget_of_rg same)

theorem members_of_rg {s t : State} (ctl : rg t (GLB + GLB_MAP_CTL_LOADED.off) = rg s (GLB + GLB_MAP_CTL_LOADED.off))
    (mem : rg t (GLB + GLB_MAP_MEMBERS_MEMBERS.off) = rg s (GLB + GLB_MAP_MEMBERS_MEMBERS.off)) : members t = members s := by
  unfold members inMap fbit fget
  rw [ctl, mem]

/-- The counts of the entries to be replayed start anew. -/
def countsZero (s : State) : State := forAll allChans (fun c => rgSet (JRN + JRN_RPL_PEND.off + 4 * c.val) 0) s

theorem countsZero_rg {a : Nat} (low : a < JRN) (s : State) : rg (countsZero s) a = rg s a :=
  forAll_inv (rg · a) _ _ s fun c y => rg_rgSet_ne _ _ _ y (by omega)

theorem markReplay_resetView (s : State) : resetView (markReplay s) = resetView s := by
  refine (forAll_inv resetView (members (countsZero s)) _ _ fun c y => ?_).trans (forAll_inv resetView _ _ s fun c y => resetView_rgSet (by unfold JRN; omega) 0 y)
  split
  · rfl
  · rfl

theorem markReplay_rg {a : Nat} (low : a < JRN) (s : State) : rg (markReplay s) a = rg s a := by
  refine (forAll_inv (rg · a) (members (countsZero s)) _ _ fun c y => ?_).trans (countsZero_rg low s)
  split
  · rfl
  · rfl

theorem markReplay_pwr (s : State) : (markReplay s).pwr = s.pwr := by
  refine (forAll_inv (·.pwr) (members (countsZero s)) _ _ fun c y => ?_).trans (forAll_inv (·.pwr) _ _ s fun c y => rfl)
  split
  · rfl
  · rfl

/-- The ring of a member that is not lost waits for its replay (01 R36). -/
theorem markReplay_due {c : Fin 16} {s : State} (member : c ∈ members s) (kept : (s.chan c).lost = false) : ((markReplay s).chan c).replayDue = true := by
  have chans : (countsZero s).chans = s.chans := forAll_inv (·.chans) _ _ s fun _ _ => rfl
  have counted : ((countsZero s).chan c).lost = false := (congrArg ChanState.lost (chan_congr chans c)).trans kept
  have same : members (countsZero s) = members s := members_of_rg (countsZero_rg (by decide) s) (countsZero_rg (by decide) s)
  have listed : c ∈ members (countsZero s) := same.symm ▸ member
  refine forAll_reaches_of (I := fun y => (y.chan c).lost = false) (P := fun y => (y.chan c).replayDue = true) listed ?inv ?own ?kept counted
  case inv =>
    intro b y hy
    split
    · exact hy
    · by_cases own : b = c
      · subst own
        simpa using hy
      · rwa [updChan_chan_ne (Ne.symm own)]
  case own =>
    intro y hy
    rw [if_neg (by simp [hy])]
    simp
  case kept =>
    intro b y hy
    split
    · exact hy
    · by_cases own : b = c
      · subst own
        simp
      · rwa [updChan_chan_ne (Ne.symm own)]

/-! ### The whole reset -/

/-- Step 1 of a warm reset: the cause is recorded, and what waits of a wake or an exit is dropped. -/
def warmBegun (k : RstCause) (s : State) : State :=
  warmCause k (fset PWR PWR_STATE_SUB 0 { s with con := { s.con with evq := [] }, pwr := { s.pwr with wake := none, dozeExit := none } })

/-- Steps 1 to 4. -/
def warmCleared (k : RstCause) (s : State) : State := relockNone (markReplay (coreReset (warmParked (warmBegun k s))))

/-- Steps 1 to 4, with the core halted. -/
def warmHalted (k : RstCause) (s : State) : State :=
  { warmCleared k s with pwr := { (warmCleared k s).pwr with halted := true, warm := if !s.pwr.pll then .noClock else .replay } }

theorem warmReset_eq (k : RstCause) (s : State) :
    warmReset k s = if (warmHalted k s).pwr.resetN then warmGo (warmHalted k s)
      else { warmHalted k s with pwr := { (warmHalted k s).pwr with warm := .held (if !s.pwr.pll then .pll else k) } } := rfl

theorem RstCause.code_lt (k : RstCause) : k.code < 8 := by cases k <;> decide

theorem warmBegun_cause (k : RstCause) (s : State) :
    fget (warmBegun k s) GLB GLB_RESET_CAUSE_CAUSE = k.code ∧ fbit (warmBegun k s) GLB GLB_RESET_CAUSE_KIND = true ∧
      fget (warmBegun k s) GLB GLB_RESET_CAUSE_WARM_CNT = min (fget s GLB GLB_RESET_CAUSE_WARM_CNT + 1) 255 := by
  unfold warmBegun warmCause
  generalize hx : fset PWR PWR_STATE_SUB 0 { s with con := { s.con with evq := [] }, pwr := { s.pwr with wake := none, dozeExit := none } } = x
  have count : fget x GLB GLB_RESET_CAUSE_WARM_CNT = fget s GLB GLB_RESET_CAUSE_WARM_CNT := hx ▸ fget_fset_ne _ _ _ _ _ _ (by decide)
  have small := RstCause.code_lt k
  refine ⟨?_, ?_, ?_⟩
  · rw [fbump, fbumpN, fget_fset_apart _ (by decide), fget_fset_apart _ (by decide), fget_fset _ _ _ _ (by decide)]
    exact Nat.mod_eq_of_lt (by simp only [GLB_RESET_CAUSE_CAUSE]; omega)
  · unfold fbit
    rw [fbump, fbumpN, fget_fset_apart _ (by decide), fget_fset _ _ _ _ (by decide)]
    rfl
  · rw [fget_fbump _ _ _ (by decide), fget_fset_apart _ (by decide), fget_fset_apart _ (by decide), count]
    rfl

theorem warmBegun_rg {a : Nat} (cause : a ≠ GLB + GLB_RESET_CAUSE_CAUSE.off) (sub : a ≠ PWR + PWR_STATE_SUB.off) (k : RstCause) (s : State) : rg (warmBegun k s) a = rg s a := by
  unfold warmBegun warmCause fbump fbumpN
  rw [rg_fset_ne GLB GLB_RESET_CAUSE_WARM_CNT _ _ cause, rg_fset_ne GLB GLB_RESET_CAUSE_KIND _ _ cause, rg_fset_ne GLB GLB_RESET_CAUSE_CAUSE _ _ cause, rg_fset_ne _ _ _ _ sub]
  rfl

section
variable (k : RstCause) (s : State)

theorem coreReset_warm {P : State → Prop} (h : WarmAside P) {s : State} (hs : P s) : P (coreReset (warmParked s)) := coreReset_aside h.toCoreAside (warmParked_aside h hs)

theorem relockNone_inv {β : Type} {g : State → β} (phys : ∀ (s : State) (l : Vector PhyState 16), g { s with phys := l } = g s) (s : State) : g (relockNone s) = g s :=
  forAll_inv g _ _ s fun _ y => phys y _

theorem warmCleared_resetView : resetView (warmCleared k s) = resetView (coreReset (warmParked (warmBegun k s))) :=
  (relockNone_inv (fun _ _ => rfl) _).trans (markReplay_resetView _)

theorem warmCleared_rg {a : Nat} (low : a < 0x10000) (irqs : a ≠ GLB + GLB_IRQ_STAT_EVENT.off) (clocks : a ≠ GLB + GLB_CLKSTAT_LINK_LOCK.off) (dog : a ≠ GLB + GLB_WDOG_CTL_EN.off) :
    rg (warmCleared k s) a = rg (warmBegun k s) a :=
  (relockNone_inv (g := (rg · a)) (fun _ _ => rfl) _).trans ((markReplay_rg (by unfold JRN; omega) _).trans (coreReset_warm (warmAside_rg low irqs clocks dog _) rfl))

theorem warmCleared_clock {f : Fld} (off : f.off = GLB_CLKSTAT_LINK_LOCK.off) (apart : Apart f GLB_CLKSTAT_LINK_LOCK) : fget (warmCleared k s) GLB f = fget s GLB f := by
  have at_ : f.off = 0x28 := off
  have begun : fget (warmBegun k s) GLB f = fget s GLB f := fget_of_rg (warmBegun_rg (by rw [at_]; decide) (by rw [at_]; decide) k s)
  have marked := markReplay_rg (a := GLB + f.off) (by rw [at_]; decide) (coreReset (warmParked (warmBegun k s)))
  exact (relockNone_inv (g := (fget · GLB f)) (fun _ _ => rfl) _).trans ((fget_of_rg marked).trans (coreReset_warm (warmAside_clock off apart _) begun))

theorem warmCleared_kept : (warmCleared k s).rings = s.rings ∧ (warmCleared k s).dram = s.dram ∧ (warmCleared k s).d8 = s.d8 ∧
    (warmCleared k s).pwr = { s.pwr with wake := none, dozeExit := none } := by
  obtain ⟨rings, dram, d8, pwr⟩ := (coreReset_warm (warmAside_kept (warmBegun k s)) ⟨⟨rfl, rfl, rfl, rfl⟩, fun _ => rfl⟩).1
  have same := resetSame_of_view (warmCleared_resetView k s)
  exact ⟨same.rings.trans rings, same.dram.trans dram, same.d8.trans d8, (relockNone_inv (g := State.pwr) (fun _ _ => rfl) _).trans ((markReplay_pwr _).trans pwr)⟩

/-- A member that is not lost waits for the replay of its ring. -/
theorem warmCleared_due {c : Fin 16} (member : c ∈ members s) (kept : (s.chan c).lost = false) : ((warmCleared k s).chan c).replayDue = true := by
  have reg : ∀ a, a < 0x10000 → a ≠ GLB + GLB_IRQ_STAT_EVENT.off → a ≠ GLB + GLB_CLKSTAT_LINK_LOCK.off → a ≠ GLB + GLB_WDOG_CTL_EN.off → a ≠ GLB + GLB_RESET_CAUSE_CAUSE.off →
      a ≠ PWR + PWR_STATE_SUB.off → rg (coreReset (warmParked (warmBegun k s))) a = rg s a := fun a low irqs clocks dog cause sub =>
    (coreReset_warm (warmAside_rg low irqs clocks dog _) rfl).trans (warmBegun_rg cause sub k s)
  have same : members (coreReset (warmParked (warmBegun k s))) = members s :=
    members_of_rg (reg _ (by decide) (by decide) (by decide) (by decide) (by decide) (by decide)) (reg _ (by decide) (by decide) (by decide) (by decide) (by decide) (by decide))
  have lost := (coreReset_warm (warmAside_kept (warmBegun k s)) ⟨⟨rfl, rfl, rfl, rfl⟩, fun _ => rfl⟩).2 c
  have chans : (warmCleared k s).chans = (markReplay (coreReset (warmParked (warmBegun k s)))).chans := relockNone_inv (g := State.chans) (fun _ _ => rfl) _
  rw [chan_congr chans]
  exact markReplay_due (same.symm ▸ member) (lost.trans kept)

theorem warmCleared_warmWas : warmWas s (warmCleared k s) k.code := by
  obtain ⟨cause, kind, count⟩ := warmBegun_cause k s
  have same := resetSame_of_view (warmCleared_resetView k s)
  have cleared := coreReset_cleared (warmParked (warmBegun k s))
  obtain ⟨rings, dram, -, -⟩ := warmCleared_kept k s
  have reg : rg (warmCleared k s) (GLB + GLB_RESET_CAUSE_CAUSE.off) = rg (warmBegun k s) (GLB + GLB_RESET_CAUSE_CAUSE.off) :=
    warmCleared_rg k s (by decide) (by decide) (by decide) (by decide)
  refine ⟨(fget_of_rg reg).trans cause, (fbit_of_rg (f := GLB_RESET_CAUSE_KIND) reg).trans kind, (fget_of_rg (f := GLB_RESET_CAUSE_WARM_CNT) reg).trans count, fun c state idle => ?_, fun c member kept => warmCleared_due k s member kept,
    rings, dram, same.ans.trans cleared.ans, same.line.trans cleared.line, same.fifo.trans cleared.fifo, same.wayOps.trans cleared.wayOps,
    (same.regs _ spared_watchdog).trans cleared.watchdog, (fget_of_rg (same.regs _ spared_level)).trans cleared.level⟩
  have begun : chState (warmBegun k s) c = chState s c :=
    fget_of_rg (warmBegun_rg (by unfold CH GLB; simp only [GLB_RESET_CAUSE_CAUSE]; omega) (by unfold CH PWR; simp only [CH_STATUS_STATE, PWR_STATE_SUB]; omega) k s)
  exact (same.states c).trans (coreReset_aside (coreAside_chState c 4) (warmParked_chState (begun.symm ▸ state) idle))

theorem warmCleared_relock (c : Fin 16) : ((warmCleared k s).phy c).relock = false := by
  refine forAll_reaches (P := fun y => (y.phy c).relock = false) (f := fun b y => updPhy b (fun x => { x with relock := false }) y) (List.mem_finRange c) (fun y => by rw [updPhy_phy]) (fun b y hy => ?_)
    (markReplay (coreReset (warmParked (warmBegun k s))))
  by_cases own : c = b
  · subst own
    rw [updPhy_phy]
  · rwa [updPhy_phy_ne own]

end

theorem warmWas_congr {s t u : State} {k : Nat} (view : resetView u = resetView t) (chans : u.chans = t.chans) (was : warmWas s t k) : warmWas s u k := by
  have same := resetSame_of_view view
  have cause : rg u (GLB + GLB_RESET_CAUSE_CAUSE.off) = rg t (GLB + GLB_RESET_CAUSE_CAUSE.off) := same.regs _ (by unfold Spared; decide)
  obtain ⟨code, kind, count, states, due, rings, dram, ans, line, fifo, ops, dog, level⟩ := was
  exact ⟨(fget_of_rg cause).trans code, (fbit_of_rg (f := GLB_RESET_CAUSE_KIND) cause).trans kind, (fget_of_rg (f := GLB_RESET_CAUSE_WARM_CNT) cause).trans count, fun c state idle => (same.states c).trans (states c state idle),
    fun c member kept => (congrArg ChanState.replayDue (chan_congr chans c)).trans (due c member kept), same.rings.trans rings, same.dram.trans dram, same.ans.trans ans, same.line.trans line,
    same.fifo.trans fifo, same.wayOps.trans ops, (same.regs _ spared_watchdog).trans dog, (fget_of_rg (same.regs _ spared_level)).trans level⟩

/-! ### Held, or let go -/

/-- The channels in self-refresh are to leave it and re-lock. -/
def relockRest (s : State) : State := forAll allChans (fun c s => onlyIf (chState s c == 4) (updPhy c (fun y => { y with relock := true })) s) s

theorem relockRest_inv {β : Type} {g : State → β} (phys : ∀ (s : State) (l : Vector PhyState 16), g { s with phys := l } = g s) (s : State) : g (relockRest s) = g s :=
  forAll_inv g _ _ s fun _ _ => onlyIf_inv g _ _ _ fun x => phys x _

theorem relockRest_relock {c : Fin 16} {s : State} (rest : chState s c = 4) : ((relockRest s).phy c).relock = true := by
  have state : ∀ b (y : State), chState (onlyIf (chState y b == 4) (updPhy b (fun x => { x with relock := true })) y) c = chState y c := fun _ _ => onlyIf_inv (chState · c) _ _ _ fun _ => rfl
  refine forAll_reaches_of (I := fun y => chState y c = 4) (P := fun y => (y.phy c).relock = true) (List.mem_finRange c) (fun b y hy => (state b y).trans hy) (fun y hy => ?_) (fun b y hy => ?_) rest
  · unfold onlyIf
    rw [if_pos (by simp [hy]), updPhy_phy]
  · refine onlyIf_keeps_prop (P := fun x => (x.phy c).relock = true) _ _ hy ?_
    by_cases own : c = b
    · subst own
      rw [updPhy_phy]
    · rwa [updPhy_phy_ne own]

/-- The reset ends: the core runs, and the event `reset` goes in front. -/
def warmLeft (w : WarmAt) (s : State) : State := emitReset true { s with pwr := { s.pwr with halted := false, warm := w } }

theorem warmGo_clock {s : State} (clock : s.pwr.warm ≠ .noClock) : warmGo s = relockRest (warmLeft (afterReset s) s) := by
  have other : (s.pwr.warm == .noClock) = false := by simpa using clock
  unfold warmGo
  simp only [other, Bool.false_eq_true, if_false]
  rfl

theorem warmGo_noClock {s : State} (clock : s.pwr.warm = .noClock) : warmGo s = warmLeft .noClock s := by
  unfold warmGo
  rw [clock]
  rfl

theorem warmLeft_resetView (w : WarmAt) (s : State) : resetView (warmLeft w s) = resetView s := emitReset_resetView true _

theorem warmLeft_pwr (w : WarmAt) (s : State) : (warmLeft w s).pwr = { s.pwr with halted := false, warm := w } := rfl

theorem warmLeft_chans (w : WarmAt) (s : State) : (warmLeft w s).chans = s.chans := rfl

theorem warmLeft_phys (w : WarmAt) (s : State) : (warmLeft w s).phys = s.phys := rfl

theorem afterReset_congr {s t : State} (chans : t.chans = s.chans) : afterReset t = afterReset s := by
  unfold afterReset
  simp only [chan_congr chans]

/-- What a warm reset has done once the core may run. -/
theorem warmGo_runs {s : State} (clock : s.pwr.warm ≠ .noClock) :
    resetView (warmGo s) = resetView s ∧ (warmGo s).chans = s.chans ∧ (warmGo s).pwr = { s.pwr with halted := false, warm := afterReset (warmGo s) } := by
  rw [warmGo_clock clock]
  have chans : (relockRest (warmLeft (afterReset s) s)).chans = s.chans := (relockRest_inv (g := State.chans) (fun _ _ => rfl) _).trans (warmLeft_chans _ s)
  refine ⟨(relockRest_inv (fun _ _ => rfl) _).trans (warmLeft_resetView _ s), chans, ?_⟩
  rw [afterReset_congr chans]
  exact (relockRest_inv (g := State.pwr) (fun _ _ => rfl) _).trans (warmLeft_pwr _ s)

section
variable (k : RstCause) (s : State)

theorem warmHalted_pwr : (warmHalted k s).pwr = { s.pwr with wake := none, dozeExit := none, halted := true, warm := if !s.pwr.pll then .noClock else .replay } := by
  obtain ⟨-, -, -, pwr⟩ := warmCleared_kept k s
  unfold warmHalted
  dsimp only
  rw [pwr]

theorem warmHalted_resetView : resetView (warmHalted k s) = resetView (warmCleared k s) := rfl

theorem warmHalted_warmWas : warmWas s (warmHalted k s) k.code := warmWas_congr (warmHalted_resetView k s) rfl (warmCleared_warmWas k s)

theorem warmHalted_d8 : (warmHalted k s).d8 = s.d8 := (warmCleared_kept k s).2.2.1

end

section
variable {k : RstCause} {s : State}

/-- A warm reset that RESET_N does not hold, on the core PLL. -/
theorem warmReset_runs (run : s.pwr.resetN = true) (pll : s.pwr.pll = true) :
    warmWas s (warmReset k s) k.code ∧ (warmReset k s).pwr = { s.pwr with wake := none, dozeExit := none, halted := false, warm := afterReset (warmReset k s) } ∧ (warmReset k s).d8 = s.d8 := by
  have halted := warmHalted_pwr k s
  have was := warmHalted_warmWas k s
  have d8 := warmHalted_d8 k s
  rw [warmReset_eq]
  generalize warmHalted k s = h at *
  rw [halted, if_pos run]
  have clock : h.pwr.warm ≠ .noClock := by
    rw [halted, pll]
    exact WarmAt.noConfusion
  obtain ⟨view, chans, pwr⟩ := warmGo_runs clock
  refine ⟨warmWas_congr view chans was, ?_, (resetSame_of_view view).d8.trans d8⟩
  rw [pwr, halted]

/-- A warm reset that RESET_N does not hold, off the core PLL: it waits for the clock. -/
theorem warmReset_noClock (run : s.pwr.resetN = true) (pll : s.pwr.pll = false) :
    warmWas s (warmReset k s) k.code ∧ (warmReset k s).pwr = { s.pwr with wake := none, dozeExit := none, halted := false, warm := .noClock } ∧ (warmReset k s).d8 = s.d8 ∧
      (∀ f : Fld, f.off = GLB_CLKSTAT_LINK_LOCK.off → Apart f GLB_CLKSTAT_LINK_LOCK → fget (warmReset k s) GLB f = fget s GLB f) ∧ ∀ c : Fin 16, ((warmReset k s).phy c).relock = false := by
  have halted := warmHalted_pwr k s
  have was := warmHalted_warmWas k s
  have d8 := warmHalted_d8 k s
  have clocks : ∀ f : Fld, f.off = GLB_CLKSTAT_LINK_LOCK.off → Apart f GLB_CLKSTAT_LINK_LOCK → fget (warmHalted k s) GLB f = fget s GLB f := fun _ => warmCleared_clock k s
  have relock : ∀ c : Fin 16, ((warmHalted k s).phy c).relock = false := warmCleared_relock k s
  rw [warmReset_eq]
  generalize warmHalted k s = h at *
  have clock : h.pwr.warm = .noClock := by
    rw [halted, pll]
    rfl
  rw [halted, if_pos run, warmGo_noClock clock]
  refine ⟨warmWas_congr (warmLeft_resetView _ h) (warmLeft_chans _ h) was, ?_, (resetSame_of_view (warmLeft_resetView _ h)).d8.trans d8, fun f off apart => ?_, fun c => ?_⟩
  · rw [warmLeft_pwr, halted]
  · exact (fget_fset_ne _ _ _ _ _ _ (by rw [off]; decide)).trans (clocks f off apart)
  · rw [phy_congr (warmLeft_phys _ h)]
    exact relock c

/-- A warm reset while RESET_N is low stands after step 4. -/
theorem warmReset_held (low : s.pwr.resetN = false) :
    warmWas s (warmReset k s) k.code ∧ (warmReset k s).pwr = { s.pwr with wake := none, dozeExit := none, halted := true, warm := .held (if !s.pwr.pll then .pll else k) } ∧ (warmReset k s).d8 = s.d8 := by
  have halted := warmHalted_pwr k s
  have was := warmHalted_warmWas k s
  have d8 := warmHalted_d8 k s
  rw [warmReset_eq]
  generalize warmHalted k s = h at *
  have stays : ¬h.pwr.resetN = true := by
    rw [halted]
    simp [low]
  rw [if_neg stays, halted]
  exact ⟨warmWas_congr (t := h) rfl rfl was, rfl, d8⟩

/-- What a warm reset leaves, held or not, on whatever clock. -/
theorem warmReset_done (k : RstCause) (s : State) :
    warmWas s (warmReset k s) k.code ∧ (∃ h w, (warmReset k s).pwr = { s.pwr with wake := none, dozeExit := none, halted := h, warm := w }) ∧ (warmReset k s).d8 = s.d8 := by
  by_cases run : s.pwr.resetN = true
  · by_cases pll : s.pwr.pll = true
    · obtain ⟨was, pwr, d8⟩ := warmReset_runs (k := k) run pll
      exact ⟨was, ⟨_, _, pwr⟩, d8⟩
    · obtain ⟨was, pwr, d8, -⟩ := warmReset_noClock (k := k) run (Bool.eq_false_iff.mpr pll)
      exact ⟨was, ⟨_, _, pwr⟩, d8⟩
  · obtain ⟨was, pwr, d8⟩ := warmReset_held (k := k) (Bool.eq_false_iff.mpr run)
    exact ⟨was, ⟨_, _, pwr⟩, d8⟩

end

end Sys2Proof.Proofs

/-! PROOF. What starts a warm reset, and what a held one does (17 R493, R499 to R501, R506, R507). -/

namespace Sys2Proof.Proofs
open Sys2Proof Sys2Proof.Machine Sys2Proof.Laws

/-- A warm reset of a state that differs from `s` in nothing that the reset judges. -/
theorem warmWas_before {r s t : State} {k : Nat} (regs : ∀ a, a ≠ GLB + GLB_CLKSTAT_LINK_LOCK.off → rg r a = rg s a) (phys : r.phys = s.phys) (chans : r.chans = s.chans) (rings : r.rings = s.rings)
    (dram : r.dram = s.dram) (was : warmWas r t k) : warmWas s t k := by
  obtain ⟨code, kind, count, states, due, rings', dram', rest⟩ := was
  have counted : fget r GLB GLB_RESET_CAUSE_WARM_CNT = fget s GLB GLB_RESET_CAUSE_WARM_CNT := fget_of_rg (regs _ (by decide))
  have state : ∀ c : Fin 16, chState r c = chState s c := fun c => fget_of_rg (regs _ (by unfold CH GLB; simp only [GLB_CLKSTAT_LINK_LOCK]; omega))
  have listed : members r = members s := members_of_rg (regs _ (by decide)) (regs _ (by decide))
  exact ⟨code, kind, counted ▸ count, fun c st idle => states c ((state c).symm ▸ st) ((congrArg PhyState.active (phy_congr phys c)).trans idle),
    fun c member kept => due c (listed.symm ▸ member) ((congrArg ChanState.lost (chan_congr chans c)).trans kept), rings'.trans rings, dram'.trans dram, rest⟩

/-- A trigger in RUN with no entry to sleep and no power-fail flush resets at once. -/
theorem warmTrigger_run {k : RstCause} {s : State} (run : s.pwr.mode = .run) (entry : s.pwr.entry = none) (flush : s.led.pf = .none) : warmTrigger k s = warmReset k s := by
  unfold warmTrigger
  rw [if_neg (by rw [flush]; exact fun h => h rfl), run, entry]

/-- The core PLL is lost: the clocks fall back to CK_FIO. -/
def pllLost (s : State) : State :=
  fset GLB GLB_CLKSTAT_CORE_LOCK 0 (fset GLB GLB_CLKSTAT_CORE_ON_PLL 0 (fset GLB GLB_CLKSTAT_MGT_ON_PLL 0 (fset GLB GLB_CLKSTAT_DTIME_FINE 0 (fset GLB GLB_CLKSTAT_LOCK_LOSS 1
    { s with pwr := { s.pwr with pll := false } }))))

theorem exec_corePllLockLoss {s : State} (pll : s.pwr.pll = true) : exec .corePllLockLoss s = .next (warmTrigger .pll (pllLost s)) :=
  congrArg Host.Outcome.next (if_neg (by simp [pll]))

theorem pllLost_rg {a : Nat} (ne : a ≠ GLB + GLB_CLKSTAT_LINK_LOCK.off) (s : State) : rg (pllLost s) a = rg s a := by
  unfold pllLost
  rw [rg_fset_ne GLB GLB_CLKSTAT_CORE_LOCK _ _ ne, rg_fset_ne GLB GLB_CLKSTAT_CORE_ON_PLL _ _ ne, rg_fset_ne GLB GLB_CLKSTAT_MGT_ON_PLL _ _ ne, rg_fset_ne GLB GLB_CLKSTAT_DTIME_FINE _ _ ne,
    rg_fset_ne GLB GLB_CLKSTAT_LOCK_LOSS _ _ ne]
  rfl

theorem pllLost_flags (s : State) : fbit (pllLost s) GLB GLB_CLKSTAT_LOCK_LOSS = true ∧ fbit (pllLost s) GLB GLB_CLKSTAT_CORE_LOCK = false ∧
    fbit (pllLost s) GLB GLB_CLKSTAT_CORE_ON_PLL = false ∧ fbit (pllLost s) GLB GLB_CLKSTAT_DTIME_FINE = false := by
  unfold pllLost fbit
  refine ⟨?_, ?_, ?_, ?_⟩
  · rw [fget_fset_apart _ (by decide), fget_fset_apart _ (by decide), fget_fset_apart _ (by decide), fget_fset_apart _ (by decide), fget_fset _ _ _ _ (by decide)]
    rfl
  · rw [fget_fset _ _ _ _ (by decide)]
    rfl
  · rw [fget_fset_apart _ (by decide), fget_fset _ _ _ _ (by decide)]
    rfl
  · rw [fget_fset_apart _ (by decide), fget_fset_apart _ (by decide), fget_fset_apart _ (by decide), fget_fset _ _ _ _ (by decide)]
    rfl

/-- The watchdog's time has passed, in a cycle of CK_FIO that a free value picks. -/
def wdogPassed (s : State) : State := advanceTo8 (s.pwr.kick8 + wdogMs s * 8000 * (970 + Config.free s.free % 61)) { s with free := s.free + 1 }

theorem exec_watchdogExpiry {s : State} (on : fbit s GLB GLB_WDOG_CTL_EN = true) (run : s.pwr.mode = .run) : exec .watchdogExpiry s = .next (warmTrigger .watchdog (wdogPassed s)) :=
  congrArg Host.Outcome.next (if_neg (by simp [on, run]))

theorem wdogPassed_d8 (s : State) : s.d8 ≤ (wdogPassed s).d8 ∧ s.pwr.kick8 + 7760000 * wdogMs s ≤ (wdogPassed s).d8 := by
  obtain ⟨late, due⟩ := (le_max_left _ _).trans (advanceTo8_d8 (s.pwr.kick8 + wdogMs s * 8000 * (970 + Config.free s.free % 61)) { s with free := s.free + 1 }).1, (le_max_right _ _).trans (advanceTo8_d8 (s.pwr.kick8 + wdogMs s * 8000 * (970 + Config.free s.free % 61)) { s with free := s.free + 1 }).1
  refine ⟨late, le_trans ?_ due⟩
  have least : wdogMs s * 8000 * 970 ≤ wdogMs s * 8000 * (970 + Config.free s.free % 61) := Nat.mul_le_mul_left _ (Nat.le_add_right _ _)
  omega

/-- RESET_N is low. -/
def resetHeld (s : State) : State := { s with pwr := { s.pwr with resetN := false } }

theorem exec_resetN_run {n : Nat} {s : State} (long : 1000 ≤ n) (high : s.pwr.resetN = true) (vin : s.pwr.vinOn = true) (run : s.pwr.mode = .run) (exit : s.pwr.dozeExit = none) :
    exec (.resetN n) s = .next (warmTrigger .pin (resetHeld s)) := by
  have seen : resetN n s = resetLow s := (if_neg (by simp [high, vin]; omega)).trans (if_pos long)
  refine congrArg Host.Outcome.next (seen.trans ?_)
  unfold resetLow
  extract_lets _ x later
  have mode : x.pwr.mode = .run := run
  have stays : ¬x.pwr.dozeExit.isSome = true := (congrArg Option.isSome exit : x.pwr.dozeExit.isSome = false) ▸ Bool.noConfusion
  simp only [mode, if_neg stays]
  rfl

/-- A held reset that RESET_N releases. -/
def heldReleased (s : State) : State := { s with pwr := { s.pwr with resetN := true, warm := .replay } }

theorem exec_resetNRelease_held {s : State} (low : s.pwr.resetN = false) (run : s.pwr.mode = .run) (held : s.pwr.warm = .held .pin) :
    exec .resetNRelease s = .next (settle (warmGo (heldReleased s))) := by
  refine congrArg Host.Outcome.next ((if_neg (by simp [low])).trans ?_)
  extract_lets _ x
  have mode : x.pwr.mode = .run := run
  have warm : x.pwr.warm = .held .pin := held
  simp only [mode, warm, reduceCtorEq, if_false]
  rfl

/-- Settles O14: every trigger here ends in a warm reset at once, of a state that differs from the one before in nothing that the reset judges. -/
theorem warmResetsRun : Obligations.WarmResetsRun := by
  unfold Obligations.WarmResetsRun
  refine ⟨?pin, ?short, ?release, ?high, ?watchdog, ?off, ?kick, ?pll, ?noPll⟩
  case pin =>
    intro n s long high vin run exit entry flush pll
    have e := exec_resetN_run long high vin run exit
    have trigger : warmTrigger .pin (resetHeld s) = warmReset .pin (resetHeld s) := warmTrigger_run (s := resetHeld s) run entry flush
    rw [trigger] at e
    obtain ⟨was, pwr, d8⟩ := warmReset_held (k := .pin) (s := resetHeld s) rfl
    have on : (resetHeld s).pwr.pll = true := pll
    rw [on] at pwr
    refine ⟨_, e, warmWas_before (r := resetHeld s) (fun _ _ => rfl) rfl rfl rfl rfl was, ?_, ?_, ?_, d8⟩
    · rw [pwr]
      rfl
    · rw [pwr]
    · rw [pwr]
      rfl
  case short => exact fun n s short => congrArg Host.Outcome.next (if_pos (.inr (.inr short)))
  case release =>
    intro s low run held waiting caravans
    have e := exec_resetNRelease_held low run held
    have clock : (heldReleased s).pwr.warm ≠ .noClock := WarmAt.noConfusion
    rw [warmGo_clock clock] at e
    have view {β : Type} {g : State → β} (phys : ∀ (s : State) (l : Vector PhyState 16), g { s with phys := l } = g s) :
        g (relockRest (warmLeft (afterReset (heldReleased s)) (heldReleased s))) = g (warmLeft (afterReset (heldReleased s)) (heldReleased s)) := relockRest_inv phys _
    have quiet : settled (relockRest (warmLeft (afterReset (heldReleased s)) (heldReleased s))) :=
      settled_of_view (s := s) ⟨caravans, waiting⟩ ((view fun _ _ => rfl).trans rfl)
    rw [settle_settled quiet] at e
    have pwr := view (g := State.pwr) fun _ _ => rfl
    refine ⟨_, e, ?_, ?_, ?_, fun c rest => relockRest_relock ?_, (view (g := fun t => t.con.evq) fun _ _ => rfl).trans rfl, (view (g := State.d8) fun _ _ => rfl).trans rfl, ?_⟩
    · rw [pwr]
      rfl
    · rw [pwr]
      rfl
    · rw [pwr]
      rfl
    · exact (fget_fset_ne _ _ _ _ _ _ (by unfold CH GLB; simp only [CH_STATUS_STATE, GLB_IRQ_STAT_EVENT]; omega)).trans rest
    · rw [relockRest_inv (g := fun t => sameStore s t) fun _ _ => rfl]
      exact sameStore_fset _ _ _ _
  case high => exact fun s high => congrArg Host.Outcome.next (if_pos high)
  case watchdog =>
    intro s on run entry flush high pll
    have e := exec_watchdogExpiry on run
    have trigger : warmTrigger .watchdog (wdogPassed s) = warmReset .watchdog (wdogPassed s) := warmTrigger_run (s := wdogPassed s) run entry flush
    rw [trigger] at e
    obtain ⟨was, pwr, d8⟩ := warmReset_runs (k := .watchdog) (s := wdogPassed s) high pll
    obtain ⟨late, due⟩ := wdogPassed_d8 s
    refine ⟨_, e, warmWas_before (r := wdogPassed s) (fun _ _ => rfl) rfl rfl rfl rfl was, ?_, ?_, d8 ▸ late, ?_⟩
    · rw [pwr]
    · exact congrArg PwrState.warm pwr
    · exact d8 ▸ due
  case off => exact fun s off => congrArg Host.Outcome.next (if_pos (by simp [off]))
  case kick =>
    intro s on guard
    refine congrArg Host.Outcome.next ?_
    unfold busWr
    rw [if_neg (by simp [consoleOn_of_blockOn on]), if_pos on, breakPair_none guard]
    rfl
  case pll =>
    intro s pll run entry flush high
    have e := exec_corePllLockLoss pll
    have trigger : warmTrigger .pll (pllLost s) = warmReset .pll (pllLost s) := warmTrigger_run (s := pllLost s) run entry flush
    rw [trigger] at e
    obtain ⟨was, pwr, d8, clocks, relock⟩ := warmReset_noClock (k := .pll) (s := pllLost s) high rfl
    obtain ⟨loss, lock, onPll, fine⟩ := pllLost_flags s
    have flag : ∀ f : Fld, f.off = GLB_CLKSTAT_LINK_LOCK.off → Apart f GLB_CLKSTAT_LINK_LOCK → fbit (warmReset .pll (pllLost s)) GLB f = fbit (pllLost s) GLB f :=
      fun f off apart => congrArg (· != 0) (clocks f off apart)
    refine ⟨_, e, warmWas_before (r := pllLost s) (fun _ ne => pllLost_rg ne s) rfl rfl rfl rfl was, ?_, ?_, ?_, (flag GLB_CLKSTAT_LOCK_LOSS rfl (by decide)).trans loss, (flag GLB_CLKSTAT_CORE_LOCK rfl (by decide)).trans lock,
      (flag GLB_CLKSTAT_CORE_ON_PLL rfl (by decide)).trans onPll, (flag GLB_CLKSTAT_DTIME_FINE rfl (by decide)).trans fine, relock, d8⟩
    · rw [pwr]
      rfl
    · rw [pwr]
    · rw [pwr]
  case noPll => exact fun s off => congrArg Host.Outcome.next (if_pos (by simp [off]))

end Sys2Proof.Proofs

/-! PROOF. A cold start begins (14 R417, 17 R494, 16 R476). -/

namespace Sys2Proof.Proofs
open Sys2Proof Sys2Proof.Machine Sys2Proof.Laws

/-! ### Domains that begin to ramp -/

/-- What shows neither the power state nor the states of the domains stays while domains begin to ramp. -/
theorem rampFuel_inv {β : Type} {g : State → β} (pwr : ∀ (s : State) p, g { s with pwr := p } = g s) (reg : ∀ d v s, d < 23 → g (fset PWR (PWR_DOMSTAT_STATE.nth d) v s) = g s)
    (n : Nat) {s : State} (queue : ∀ d ∈ s.pwr.rampQ, d < 23) : g (rampFuel n s) = g s := by
  induction n generalizing s with
  | zero => rfl
  | succ n ih =>
    unfold rampFuel
    split
    · rfl
    next d rest waiting =>
      rw [waiting] at queue
      split
      · exact (ih fun e m => queue e (List.mem_cons_of_mem d m)).trans ((reg d 1 _ (queue d List.mem_cons_self)).trans ((pwr _ _).trans (pwr s _)))
      · rfl

theorem rampMore_inv {β : Type} {g : State → β} (pwr : ∀ (s : State) p, g { s with pwr := p } = g s) (reg : ∀ d v s, d < 23 → g (fset PWR (PWR_DOMSTAT_STATE.nth d) v s) = g s)
    {l : List Nat} (low : ∀ d ∈ l, d < 23) {s : State} (queue : s.pwr.rampQ = []) : g (rampMore l s) = g s := by
  unfold rampMore
  refine (rampFuel_inv pwr reg 23 fun d m => ?_).trans (pwr s _)
  rw [show ({ s with pwr := { s.pwr with rampQ := s.pwr.rampQ ++ l } } : State).pwr.rampQ = s.pwr.rampQ ++ l from rfl, queue, List.nil_append] at m
  exact low d m

theorem rg_rampMore {a : Nat} (beside : a < PWR ∨ PWR + 0x1000 ≤ a) {l : List Nat} (low : ∀ d ∈ l, d < 23) {s : State} (queue : s.pwr.rampQ = []) : rg (rampMore l s) a = rg s a :=
  rampMore_inv (g := (rg · a)) (fun _ _ => rfl) (fun d v y lt => rg_fset_ne _ _ v y (by unfold PWR at *; simp only [Fld.nth, PWR_DOMSTAT_STATE]; omega)) low queue

/-! ### The state before the ramps -/

/-- The state of a cold start before what it records of its cause. -/
def coldBlank (s : State) : State :=
  { State.reset with
    pending := s.pending, free := s.free, con := {},
    regs := (regsMap (fun a w => if AON ≤ a ∧ a < AON + 0x1000 then some w else none) s).regs,
    pwr := { mode := .off, wake := some .ramps, vinOn := s.pwr.vinOn, resetN := s.pwr.resetN, pfailN := s.pwr.pfailN, wakeN := s.pwr.wakeN, scan := s.pwr.tapIr == .other, tapIr := s.pwr.tapIr,
             xtal := s.pwr.xtal, brown := s.pwr.brown, retWait := s.pwr.retEn || s.pwr.retWait, aonQ := s.pwr.aonQ, pll := false } }

theorem coldState_eq (c : RstCause) (start : Nat) (s : State) : coldState c start s =
    fset GLB GLB_RESET_CAUSE_CAUSE c.code (fset GLB GLB_RESET_CAUSE_START start (fsetB GLB GLB_CLKSTAT_SLOW_XTAL s.pwr.xtal
      (fset AON AON_STATUS_START start (fset AON AON_STARTER_VALID 0 (coldBlank s))))) := rfl

theorem coldBlank_rg {a : Nat} (beside : ¬(AON ≤ a ∧ a < AON + 0x1000)) (s : State) : rg (coldBlank s) a = regReset a :=
  (rg_congr (t := coldBlank s) (s := regsMap (fun a w => if AON ≤ a ∧ a < AON + 0x1000 then some w else none) s) rfl a).trans (rg_regsMap_none _ (fun _ => if_neg beside) s)

theorem coldState_rg {a : Nat} (beside : ¬(AON ≤ a ∧ a < AON + 0x1000)) (clocks : a ≠ GLB + GLB_CLKSTAT_CORE_LOCK.off) (cause : a ≠ GLB + GLB_RESET_CAUSE_CAUSE.off) (c : RstCause) (start : Nat) (s : State) :
    rg (coldState c start s) a = regReset a := by
  have status : a ≠ AON + AON_STATUS_START.off := fun e => beside (e ▸ ⟨by decide, by decide⟩)
  have valid : a ≠ AON + AON_STARTER_VALID.off := fun e => beside (e ▸ ⟨by decide, by decide⟩)
  rw [coldState_eq, rg_fset_ne GLB GLB_RESET_CAUSE_CAUSE _ _ cause, rg_fset_ne GLB GLB_RESET_CAUSE_START _ _ cause, fsetB, rg_fset_ne GLB GLB_CLKSTAT_SLOW_XTAL _ _ clocks,
    rg_fset_ne AON AON_STATUS_START _ _ status, rg_fset_ne AON AON_STARTER_VALID _ _ valid]
  exact coldBlank_rg beside s

theorem coldState_cause (c : RstCause) (start : Nat) (s : State) : fget (coldState c start s) GLB GLB_RESET_CAUSE_CAUSE = c.code := by
  have small := RstCause.code_lt c
  rw [coldState_eq, fget_fset _ _ _ _ (by decide)]
  exact Nat.mod_eq_of_lt (by simp only [GLB_RESET_CAUSE_CAUSE]; omega)

theorem coldState_start (c : RstCause) {start : Nat} (small : start < 8) (s : State) : fget (coldState c start s) AON AON_STATUS_START = start := by
  rw [coldState_eq, fget_fset_ne _ _ _ _ _ _ (by decide), fget_fset_ne _ _ _ _ _ _ (by decide), fsetB, fget_fset_ne _ _ _ _ _ _ (by decide), fget_fset _ _ _ _ (by decide)]
  exact Nat.mod_eq_of_lt (by simp only [AON_STATUS_START]; omega)

theorem coldRamps_low : ∀ d ∈ List.range 23, d < 23 := fun _ => List.mem_range.mp

/-- A cold start has begun, with its cause and kind recorded. -/
theorem coldBegin_coldWas (c : RstCause) {start : Nat} (small : start < 8) (s : State) : coldWas (coldBegin c start s) c.code ∧ fget (coldBegin c start s) AON AON_STATUS_START = start := by
  have first : coldBegin c start s = rampFuel 22 (rampStart 0 { coldState c start s with pwr := { (coldState c start s).pwr with rampQ := (List.range 22).map Nat.succ } }) :=
    (congrArg (rampMore · (coldState c start s)) List.range_succ_eq_map).trans (rampMore_first 0 _ rfl rfl)
  have reg : ∀ a, a < PWR ∨ PWR + 0x1000 ≤ a → rg (coldBegin c start s) a = rg (coldState c start s) a := fun a beside => rg_rampMore beside coldRamps_low rfl
  have rings : (coldBegin c start s).rings = (coldState c start s).rings := rampMore_inv (fun _ _ => rfl) (fun _ _ _ _ => rfl) coldRamps_low rfl
  obtain ⟨wake, mode, d8, store, -, ramps⟩ := rampFuel_keeps_running 22 (rampStart 0 { coldState c start s with pwr := { (coldState c start s).pwr with rampQ := (List.range 22).map Nat.succ } }) 0
    (by rintro m; obtain ⟨k, -, e⟩ := List.mem_map.mp m; exact Nat.succ_ne_zero k e)
  rw [← first] at wake mode d8 store ramps
  obtain ⟨dram, wmem, ix, streams, mans, accts⟩ := store
  refine ⟨⟨mode, wake, fun none_ => ?_, d8, (fget_of_rg (reg _ (by decide))).trans (coldState_cause c start s), dram, wmem, ix, streams, mans, accts, rings, fun a aon pwr clocks cause => ?_⟩,
    (fget_of_rg (reg _ (by decide))).trans (coldState_start c small s)⟩
  · rw [none_] at ramps
    exact absurd (ramps (List.mem_append_right _ (List.mem_singleton.mpr rfl))) List.not_mem_nil
  · exact (reg a (by omega)).trans (coldState_rg aon clocks cause c start s)

end Sys2Proof.Proofs

/-! PROOF. Lines that leave the console: errors before a verb, answers, and events (15 R437 to R452). -/

namespace Sys2Proof.Proofs
open Sys2Proof Sys2Proof.Machine Sys2Proof.Laws

/-! ### Output where no tunnel is active -/

/-- The console has put out bytes, and stands at the end of a line or not. -/
def putOut (b : List Byte) (u t : Bool) (s : State) : State := { s with con := { s.con with txd := s.con.txd ++ b, dirtyU := u, dirtyT := t } }

theorem sameRegs_trans {s t u : State} (h : sameRegs s t) (k : sameRegs t u) : sameRegs s u := ⟨k.1.trans h.1, sameStore_trans h.2 k.2⟩

theorem putOut_kept (b : List Byte) (u t : Bool) (s : State) : (putOut b u t s).d8 = s.d8 ∧ sameRegs s (putOut b u t s) := ⟨rfl, rfl, rfl, rfl, rfl, rfl, rfl, rfl⟩

theorem putOut_log (b : List Byte) (u t : Bool) (s : State) : (putOut b u t s).con.log = s.con.log := rfl

section
variable {s : State} (off : tunPort s = none)
include off

theorem putT_off (b : List Byte) : putT b s = s := by
  unfold putT
  rw [off]

theorem sendLine_off (l : OutLn) : sendLine l s = putOut (outBytes (strictMode s) l) false false s := by
  have none_ : lineT (outBytes (strictMode s) l) (putU (outBytes (strictMode s) l) s) = putU (outBytes (strictMode s) l) s :=
    if_pos (congrArg Option.isNone (off : tunPort (putU (outBytes (strictMode s) l) s) = none))
  unfold sendLine
  dsimp only
  rw [none_]
  rfl

theorem sendLines_off (l : List OutLn) : ∃ u t, forAll l sendLine s = putOut (l.flatMap (outBytes (strictMode s))) u t s := by
  induction l generalizing s with
  | nil => exact ⟨s.con.dirtyU, s.con.dirtyT, by unfold putOut; rw [List.flatMap_nil, List.append_nil]; rfl⟩
  | cons x r ih =>
    obtain ⟨u, t, sent⟩ := ih (s := putOut (outBytes (strictMode s) x) false false s) off
    refine ⟨u, t, ?_⟩
    have first : forAll (x :: r) sendLine s = forAll r sendLine (sendLine x s) := rfl
    rw [first, sendLine_off off, sent]
    unfold putOut
    simp only [List.flatMap_cons, List.append_assoc]
    rfl

theorem prompt_off : prompt s = if strictMode s then s else putOut [62, 32] true true s := by
  unfold prompt
  split
  · rfl
  · rw [putT_off (s := putU [62, 32] s) off]
    rfl

end

/-! ### Answers -/

/-- The answer has gone out: the line is done with, and a new rate is in force. -/
def answerGone (s : State) : State := { s with con := { s.con with ans := [], line := none, after := .nothing, baud := fget s CON CON_CTL_BAUD } }

theorem exec_answerSent {s : State} (on : consoleOn s = true) (ans : s.con.ans ≠ []) :
    exec .answerSent s = .next (match s.con.after with
      | .warm | .cold => afterAnswer s.con.after (answerGone (forAll s.con.ans sendLine (freshOut s)))
      | _ => drain (prompt (answerGone (forAll s.con.ans sendLine (freshOut s))))) := by
  have some_ : s.con.ans.isEmpty = false := by simpa using ans
  exact congrArg Host.Outcome.next (if_neg (by simp [on, some_]))

/-- The part beside the console is as it was. -/
structure PartKept (s t : State) : Prop where
  regs : t.regs = s.regs
  phys : t.phys = s.phys
  chans : t.chans = s.chans
  rings : t.rings = s.rings
  dram : t.dram = s.dram
  d8 : t.d8 = s.d8
  pwr : t.pwr = s.pwr
  led : t.led = s.led

theorem PartKept.trans {r s t : State} (h : PartKept r s) (k : PartKept s t) : PartKept r t :=
  ⟨k.regs.trans h.regs, k.phys.trans h.phys, k.chans.trans h.chans, k.rings.trans h.rings, k.dram.trans h.dram, k.d8.trans h.d8, k.pwr.trans h.pwr, k.led.trans h.led⟩

theorem freshOut_kept (s : State) : PartKept s (freshOut s) := ⟨rfl, rfl, rfl, rfl, rfl, rfl, rfl, rfl⟩

theorem putOut_part (b : List Byte) (u t : Bool) (s : State) : PartKept s (putOut b u t s) := ⟨rfl, rfl, rfl, rfl, rfl, rfl, rfl, rfl⟩

theorem answerGone_kept (s : State) : PartKept s (answerGone s) := ⟨rfl, rfl, rfl, rfl, rfl, rfl, rfl, rfl⟩

/-- The answer of a line has gone out where no tunnel is active. -/
theorem answerGone_off {s : State} (off : tunPort s = none) : ∃ u t, answerGone (forAll s.con.ans sendLine (freshOut s)) =
    answerGone (putOut (s.con.ans.flatMap (outBytes (strictMode s))) u t (freshOut s)) := by
  obtain ⟨u, t, sent⟩ := sendLines_off (s := freshOut s) off s.con.ans
  exact ⟨u, t, congrArg answerGone sent⟩

/-- The console after an answer: the line is done with, the bytes `b` are out, and the output stands at the end of a line or not. -/
def answerShown (b : List Byte) (u t : Bool) (s : State) : State :=
  { s with con := { s.con with ans := [], line := none, after := .nothing, baud := fget s CON CON_CTL_BAUD, txd := b, dirtyU := u, dirtyT := t } }

theorem answerShown_prompt (b : List Byte) (u t : Bool) {s : State} (off : tunPort s = none) : prompt (answerShown b u t s) =
    answerShown (b ++ if strictMode s then [] else [62, 32]) (u || !strictMode s) (t || !strictMode s) s := by
  rw [prompt_off (s := answerShown b u t s) off]
  change (if strictMode s = true then answerShown b u t s else answerShown (b ++ [62, 32]) true true s) = _
  cases strictMode s with
  | true => simp only [if_true, List.append_nil, Bool.not_true, Bool.or_false]
  | false => simp only [Bool.false_eq_true, if_false, Bool.not_false, Bool.or_true]

theorem answerShown_drained {b : List Byte} {u t : Bool} {s : State} (empty : s.con.fifo = []) (off : tunPort s = none) : drain (prompt (answerGone (putOut b u t (freshOut s)))) =
    answerShown (b ++ if strictMode s then [] else [62, 32]) (u || !strictMode s) (t || !strictMode s) s := by
  have gone : answerGone (putOut b u t (freshOut s)) = answerShown b u t s := rfl
  rw [gone, answerShown_prompt b u t off]
  exact drain_empty (s := answerShown _ _ _ s) empty

/-! ### Events -/

/-- The event in front leaves its queue and is logged. -/
def eventTaken (t0 : Nat) (e : OutLn) (r : List (Nat × OutLn)) (s : State) : State := logEvent t0 e (freshOut { s with con := { s.con with evq := r, evLost := 0 } })

theorem eventTaken_log (t0 : Nat) (e : OutLn) (r : List (Nat × OutLn)) (s : State) :
    (eventTaken t0 e r s).con.log = (s.con.log ++ [({ seq := s.con.logSeq, time := BitVec.ofNat 32 t0, ev := e } : EvLogEnt)]).drop (s.con.log.length + 1 - 256) := by
  unfold eventTaken logEvent freshOut w32
  simp only

theorem eventTaken_kept (t0 : Nat) (e : OutLn) (r : List (Nat × OutLn)) (s : State) : sameRegs s (eventTaken t0 e r s) := ⟨rfl, rfl, rfl, rfl, rfl, rfl, rfl⟩

theorem tunPort_congr {s t : State} (regs : t.regs = s.regs) : tunPort t = tunPort s := by
  unfold tunPort
  simp only [fbit_congr regs]

theorem strictMode_congr {s t : State} (regs : t.regs = s.regs) : strictMode t = strictMode s := fbit_congr regs CON CON_CTL_MODE

theorem partLine_congr {s t : State} (regs : t.regs = s.regs) (buf : t.con.buf = s.con.buf) (tun : Bool) : partLine t tun = partLine s tun := by
  unfold partLine
  rw [echoOn_congr regs, buf]

theorem exec_eventSend_one {s : State} {t0 : Nat} {e : OutLn} {r : List (Nat × OutLn)} (on : consoleOn s = true) (idle : asmBusy s = false) (evq : s.con.evq = (t0, e) :: r) (lost : s.con.evLost = 0)
    (head : e.head ≠ "reset") : exec .eventSend s = .next (sendEvent [e] (eventTaken t0 e r s)) := by
  refine congrArg Host.Outcome.next ((if_neg (by simp [on, idle])).trans ?_)
  rw [evq]
  dsimp only
  rw [if_pos lost, if_neg (by simpa using head)]
  rfl

theorem putOut_nothing (s : State) : putOut [] s.con.dirtyU s.con.dirtyT s = s := by
  unfold putOut
  rw [List.append_nil]

theorem putOut_putOut (b c : List Byte) (u t u' t' : Bool) (s : State) : putOut c u' t' (putOut b u t s) = putOut (b ++ c) u' t' s := by
  unfold putOut
  simp only [List.append_assoc]

theorem onlyIf_putU (c : Bool) (b : List Byte) (s : State) : onlyIf c (putU b) s = putOut (if c then b else []) s.con.dirtyU s.con.dirtyT s := by
  cases c with
  | false => exact (putOut_nothing s).symm
  | true => rfl

theorem onlyIf_putT_off {s : State} (off : tunPort s = none) (c : Bool) (b : List Byte) : onlyIf c (putT b) s = s := by
  cases c with
  | false => rfl
  | true => exact putT_off off b

/-- An event line goes out where no tunnel is active, with the prompt and the partial line typed again after it. -/
theorem sendEvent_off {s : State} (off : tunPort s = none) (e : OutLn) :
    ∃ u t, sendEvent [e] s = putOut ((if s.con.dirtyU then [13, 10] else []) ++ outBytes (strictMode s) (evLine e)
      ++ (if s.con.dirtyU && !strictMode s then [62, 32] ++ partLine s false else [])) u t s := by
  have cr : onlyIf s.con.dirtyT (putT [13, 10]) (onlyIf s.con.dirtyU (putU [13, 10]) s) = putOut (if s.con.dirtyU then [13, 10] else []) s.con.dirtyU s.con.dirtyT s := by
    rw [onlyIf_putU]
    exact onlyIf_putT_off (s := putOut _ _ _ s) off _ _
  have sent : forAll [e] (fun e s => sendLine (evLine e) s) (putOut (if s.con.dirtyU then [13, 10] else []) s.con.dirtyU s.con.dirtyT s) =
      putOut ((if s.con.dirtyU then [13, 10] else []) ++ outBytes (strictMode s) (evLine e)) false false s :=
    (sendLine_off (s := putOut (if s.con.dirtyU then [13, 10] else []) s.con.dirtyU s.con.dirtyT s) off (evLine e)).trans (putOut_putOut _ _ _ _ _ _ s)
  unfold sendEvent
  dsimp only
  rw [cr, sent]
  generalize (if s.con.dirtyU then [13, 10] else []) ++ outBytes (strictMode s) (evLine e) = b
  by_cases strict : strictMode s = true
  · refine ⟨false, false, (if_pos strict).trans ?_⟩
    rw [strict, Bool.not_true, Bool.and_false, if_neg Bool.false_ne_true, List.append_nil]
  · refine ⟨s.con.dirtyU, s.con.dirtyT, (if_neg strict).trans ?_⟩
    have again : onlyIf s.con.dirtyU (putU ([62, 32] ++ partLine (putOut b false false s) false)) (putOut b false false s) =
        putOut (b ++ if s.con.dirtyU then [62, 32] ++ partLine s false else []) false false s := (onlyIf_putU _ _ _).trans (putOut_putOut _ _ _ _ _ _ s)
    rw [again, onlyIf_putT_off (s := putOut _ _ _ s) off, Bool.eq_false_iff.mpr strict, Bool.not_false, Bool.and_true]
    rfl

/-- After the answer to `reset warm` in RUN the reset begins. -/
theorem afterAnswer_warm {s : State} (run : s.pwr.mode = .run) (exit : s.pwr.dozeExit = none) (entry : s.pwr.entry = none) (flush : s.led.pf = .none) :
    afterAnswer .warm s = warmReset .warmCmd s := by
  have awake : ¬s.pwr.mode = .doze := fun doze => PMode.noConfusion (run.symm.trans doze)
  exact (if_neg awake).trans ((if_neg (by simp [exit])).trans (warmTrigger_run run entry flush))

/-- Settles O23: each command by what it puts out while no tunnel is active; a reset that an answer starts is the one of 17 R493. -/
theorem consoleLinesSent : Obligations.ConsoleLinesSent := by
  unfold Obligations.ConsoleLinesSent
  refine ⟨?error, ?noError, ?answer, ?warm, ?cold, ?noAnswer, ?event, ?noEvent⟩
  case error =>
    intro s e on ans idle bad
    refine ⟨_, congrArg Host.Outcome.next ((if_neg (by simp [on, ans, idle])).trans ?_), answered_answer_self [e] s⟩
    rw [bad]
  case noError =>
    intro s fine
    refine congrArg Host.Outcome.next ?_
    rw [fine]
    exact ite_self _
  case answer =>
    intro s on ans after empty off
    have e : exec .answerSent s = .next (drain (prompt (answerGone (forAll s.con.ans sendLine (freshOut s))))) := by
      rw [exec_answerSent on ans]
      rcases after with after | after
      · rw [after]
      · rw [after]
    obtain ⟨u, t, sent⟩ := answerGone_off off
    rw [sent] at e
    exact ⟨_, e.trans (congrArg Host.Outcome.next (answerShown_drained empty off)), rfl, rfl, rfl, rfl, rfl, rfl, rfl, rfl, rfl, rfl, rfl, rfl, rfl, rfl⟩
  case warm =>
    intro s on ans after off run exit entry flush high pll
    have e := exec_answerSent on ans
    obtain ⟨u, t, sent⟩ := answerGone_off off
    rw [after, sent] at e
    generalize hx : answerGone (putOut (s.con.ans.flatMap (outBytes (strictMode s))) u t (freshOut s)) = x at e
    have gone : PartKept s x := hx ▸ (freshOut_kept s).trans ((putOut_part _ u t _).trans (answerGone_kept _))
    obtain ⟨regs, phys, chans, rings, dram, d8, pwr, led⟩ := gone
    have reset : afterAnswer .warm x = warmReset .warmCmd x := afterAnswer_warm (pwr ▸ run) (pwr ▸ exit) (pwr ▸ entry) (led ▸ flush)
    obtain ⟨was, pwr', d8'⟩ := warmReset_runs (k := .warmCmd) (s := x) (pwr ▸ high) (pwr ▸ pll)
    refine ⟨_, e.trans (congrArg Host.Outcome.next reset), warmWas_before (r := x) (fun a _ => rg_congr regs a) phys chans rings dram was, ?_, congrArg PwrState.warm pwr', d8'.trans d8⟩
    rw [pwr']
  case cold =>
    intro s on ans after
    have e := exec_answerSent on ans
    rw [after] at e
    obtain ⟨was, start⟩ := coldBegin_coldWas .coldCmd (start := 6) (by decide) (answerGone (forAll s.con.ans sendLine (freshOut s)))
    exact ⟨_, e, was, start⟩
  case noAnswer => exact fun s none_ => congrArg Host.Outcome.next (if_pos (by simp [none_]))
  case event =>
    intro s t0 e r on idle evq lost head off
    have run := exec_eventSend_one on idle evq lost head
    have regs : (eventTaken t0 e r s).regs = s.regs := rfl
    obtain ⟨u, t, sent⟩ := sendEvent_off (s := eventTaken t0 e r s) ((tunPort_congr regs).trans off) e
    rw [sent, strictMode_congr regs, show partLine (eventTaken t0 e r s) false = partLine s false from partLine_congr regs rfl false, show (eventTaken t0 e r s).con.dirtyU = s.con.dirtyU from rfl] at run
    exact ⟨_, run, rfl, rfl, (putOut_log _ u t (eventTaken t0 e r s)).trans (eventTaken_log t0 e r s), List.nil_append _, (putOut_kept _ u t (eventTaken t0 e r s)).1,
      sameRegs_trans (eventTaken_kept t0 e r s) (putOut_kept _ u t (eventTaken t0 e r s)).2⟩
  case noEvent =>
    rintro s (none_ | busy)
    · refine congrArg Host.Outcome.next ?_
      rw [none_]
      exact ite_self _
    · exact congrArg Host.Outcome.next (if_pos (by simp [busy]))

end Sys2Proof.Proofs

/-! PROOF. The reset verbs of the console, and the end of the Waystation's clear (15 R449, 17 R494, R503 to R505). -/

namespace Sys2Proof.Proofs
open Sys2Proof Sys2Proof.Machine Sys2Proof.Laws

/-! ### A port reset beside its port -/

theorem clearPort_port_ne {p q : Fin 4} (ne : q ≠ p) (s : State) : (clearPort p s).port q = s.port q := by
  unfold clearPort
  extract_lets x y z
  have voided : z.port q = s.port q := by
    unfold z y
    rw [port_congr (voidTags_ports _ _), updPort_port_ne _ _ _ _ ne]
    exact port_congr (tunnelDown_ports p s) q
  exact voided

theorem portReset_port_ne {p q : Fin 4} (ne : q ≠ p) (cause : String) (s : State) : (portReset p cause s).port q = s.port q := by
  unfold portReset
  extract_lets x y z w
  have cleared : w.port q = s.port q := by
    refine (port_congr ?_ q).trans (clearPort_port_ne ne s)
    show (fset _ _ _ (irq _ (emit _ _ (fbump _ _ (clearPort p s))))).ports = _
    simp only [fset_ports, irq_ports, emit_ports, fbump_ports]
  split
  · unfold toDetect
    rw [setPortSt_port_ne _ _ _ _ ne, port_congr (fset_ports _ _ _ _), updPort_port_ne _ _ _ _ ne, cleared]
  · rw [setPortSt_port_ne _ _ _ _ ne, cleared]

theorem settled_strmMap {f : Nat → StreamRec → StreamRec} (idle : ∀ k r, r.waiting = [] → (f k r).waiting = []) {s : State} (quiet : settled s) : settled (strmMap f s) := by
  refine ⟨quiet.1, ?_⟩
  have fold : ∀ (l t : List (Nat × StreamRec)), (∀ e ∈ l, e.2.waiting = []) → (∀ e ∈ t, e.2.waiting = []) →
      ∀ e ∈ l.foldl (fun t e => tblSet (fun _ => {}) t e.1 (f e.1 e.2)) t, e.2.waiting = [] := by
    intro l
    induction l with
    | nil => exact fun t _ ht => ht
    | cons a r ih =>
      intro t hl ht
      refine ih _ (fun e m => hl e (List.mem_cons_of_mem a m)) fun e m => ?_
      rcases mem_tblSet m with rfl | m
      · exact idle a.1 a.2 (hl a List.mem_cons_self)
      · exact ht e m
  exact fold s.streams [] quiet.2 fun _ m => absurd m List.not_mem_nil

theorem settled_voidTags (p : Fin 4) {s : State} (quiet : settled s) : settled (voidTags p s) := by
  unfold voidTags
  extract_lets x
  have voided : settled x := by
    refine settled_strmMap (fun k r idle => ?_) quiet
    split
    · exact (congrArg (List.map _) idle : _)
    · exact idle
  exact ⟨(congrArg (List.map _) voided.1 : _), voided.2⟩

theorem settled_clearPort (p : Fin 4) {s : State} (quiet : settled s) : settled (clearPort p s) := by
  unfold clearPort
  extract_lets x y z
  have voided : settled z := settled_voidTags p (settled_congr quiet (tunnelDown_caravans p s) (tunnelDown_streams p s))
  exact voided

theorem settled_portReset (p : Fin 4) (cause : String) {s : State} (quiet : settled s) : settled (portReset p cause s) := by
  unfold portReset
  extract_lets x y z w
  have ended : settled w := settled_congr (settled_clearPort p quiet) (emit_caravans _ _ _) (emit_streams _ _ _)
  split
  · exact settled_congr ended (toDetect_caravans p w) (toDetect_streams p w)
  · exact settled_congr ended (setPortSt_caravans p _ w) (setPortSt_streams p _ w)

/-! ### A channel that nothing runs on is reset (17 R504) -/

theorem clearWork_emptied (c : Fin 16) (s : State) : ((clearWork c s).chan c).intake = [] ∧ ((clearWork c s).chan c).line = [] := by
  unfold clearWork
  extract_lets x y z
  have emptied : (y.chan c).intake = [] ∧ (y.chan c).line = [] := by
    unfold y
    rw [updChan_chan]
    exact ⟨rfl, rfl⟩
  unfold fillStat fmax
  extract_lets n
  exact ite_keeps (P := fun t : State => (t.chan c).intake = [] ∧ (t.chan c).line = []) (fun _ => emptied) fun _ => emptied

theorem clearChan_emptied (c : Fin 16) (s : State) : ((clearChan c s).chan c).intake = [] ∧ ((clearChan c s).chan c).line = [] := by
  unfold clearChan
  rw [chan_congr (updPhy_chans _ _ _)]
  exact clearWork_emptied c _

/-- A channel outside service is cleared and stands in RESTORING, its record marked. -/
def chCleared (c : Fin 16) (s : State) : State := updChan c (fun y => { y with restoring := true, resync := false })
  (chResetFields c (setChState c 5 (clearChan c (emit "channel_reset" [("ch", .n c), ("state", .s "start")] s))))

theorem emit_chState (h : String) (x : List (String × FVal)) (c : Fin 16) (s : State) : chState (emit h x s) c = chState s c :=
  fget_emit _ _ _ _ _ (by unfold CH; simp only [GLB, CH_STATUS_STATE]; omega) (by unfold CH CON; simp only [CH_STATUS_STATE, CON_STATUS_EV_LOST]; omega)
    (by unfold CH CON; simp only [CH_STATUS_STATE, CON_EVLOST_COUNT]; omega)

theorem chReset_idle {c : Fin 16} {s : State} (member : inMap s c = true) (replay : replaying s = false) (state : chState s c = 0 ∨ chState s c = 6 ∨ chState s c = 8) :
    ∃ rate, chReset c s = (settle (trainBegin c false (fset (CH c) CH_CTL_RATE rate (chCleared c s))), okLn []) := by
  have fits : chResetBad s c = none := by
    unfold chResetBad
    rw [member, replay]
    rcases state with state | state | state
    · rw [state]; rfl
    · rw [state]; rfl
    · rw [state]; rfl
  have told : chState (emit "channel_reset" [("ch", .n c), ("state", .s "start")] s) c = chState s c := emit_chState _ _ c s
  have out : inService (emit "channel_reset" [("ch", .n c), ("state", .s "start")] s) c = false := by
    unfold inService
    rw [told]
    rcases state with state | state | state
    · rw [state]; rfl
    · rw [state]; rfl
    · rw [state]; rfl
  unfold chReset
  rw [fits]
  dsimp only
  rw [if_neg (by rw [out]; exact Bool.false_ne_true)]
  exact ⟨_, rfl⟩

/-- A property that shows neither registers nor accounts nor a channel's trackers outlasts the reset of its fields. -/
theorem chResetFields_prop {P : State → Prop} (reg : ∀ {b f v s}, P s → P (fset b f v s)) (accts : ∀ {s : State} {a}, P s → P { s with accts := a }) {c : Fin 16}
    (chan : ∀ {s}, P s → P (updChan c (fun y => { y with trk := [], raa := [], rfmDue := [], rfmAt := [], actT2 := false, actLimit := [], actT1 := [] }) s)) {s : State} (hs : P s) :
    P (chResetFields c s) := by
  unfold chResetFields clearTrackers
  extract_lets x y
  have shares : P x := forAll_keeps_prop _ _ hs fun _ _ hy => accts hy
  exact reg (reg (reg (reg (reg (chan shares)))))

/-- Quiet, and with the memories as they were. -/
structure QuietWith (r s : State) : Prop where
  caravans : s.caravans = []
  waiting : ∀ e ∈ s.streams, e.2.waiting = []
  dram : s.dram = r.dram
  wmem : s.wmem = r.wmem

theorem QuietWith.of_view {r s t : State} (h : QuietWith r s) (view : (t.caravans, t.streams, t.dram, t.wmem) = (s.caravans, s.streams, s.dram, s.wmem)) : QuietWith r t := by
  simp only [Prod.mk.injEq] at view
  obtain ⟨caravans, streams, dram, wmem⟩ := view
  exact ⟨caravans.trans h.caravans, streams ▸ h.waiting, dram.trans h.dram, wmem.trans h.wmem⟩

theorem workAside_quietWith (r : State) : WorkAside (QuietWith r) where
  field _ _ _ hs := hs.of_view rfl
  parts _ _ _ _ hs := hs.of_view rfl
  chans _ _ _ hs := hs.of_view rfl
  phys _ _ _ hs := hs.of_view rfl

theorem chCleared_quiet (c : Fin 16) {s : State} (quiet : settled s) : QuietWith s (chCleared c s) := by
  have told : QuietWith s (emit "channel_reset" [("ch", .n c), ("state", .s "start")] s) := emit_aside (workAside_quietWith s).toBaseAside ⟨quiet.1, quiet.2, rfl, rfl⟩ (fun _ _ _ h => h.of_view rfl) _ _
  unfold chCleared
  generalize emit "channel_reset" [("ch", .n c), ("state", .s "start")] s = x at told
  have cleared : QuietWith s (clearChan c x) := clearChan_aside (workAside_quietWith s) told c
  generalize clearChan c x = y at cleared
  have state : QuietWith s (setChState c 5 y) := cleared.of_view rfl
  generalize setChState c 5 y = z at state
  have fields : QuietWith s (chResetFields c z) := chResetFields_prop (fun h => h.of_view rfl) (fun h => h.of_view rfl) (fun h => h.of_view rfl) state
  generalize chResetFields c z = w at fields
  exact fields.of_view rfl

/-- The record of a channel that has been cleared so. -/
structure Restoring (y : ChanState) : Prop where
  restoring : y.restoring = true
  resync : y.resync = false
  intake : y.intake = []
  line : y.line = []

theorem chCleared_chan (c : Fin 16) (s : State) : Restoring ((chCleared c s).chan c) := by
  have emptied : ∀ x, ((chResetFields c (setChState c 5 (clearChan c x))).chan c).intake = [] ∧ ((chResetFields c (setChState c 5 (clearChan c x))).chan c).line = [] := by
    intro x
    have cleared := clearChan_emptied c x
    generalize clearChan c x = y at cleared
    refine chResetFields_prop (P := fun t => (t.chan c).intake = [] ∧ (t.chan c).line = []) id id (fun h => ?_) cleared
    rwa [updChan_chan]
  have cleared := emptied (emit "channel_reset" [("ch", .n c), ("state", .s "start")] s)
  unfold chCleared
  generalize chResetFields c _ = z at cleared ⊢
  rw [updChan_chan]
  exact ⟨rfl, rfl, cleared.1, cleared.2⟩

theorem chCleared_level (c : Fin 16) (s : State) : fget (chCleared c s) (CH c) CH_ROWSTAT_LEVEL = 0 := by
  have fields : ∀ x, fget (chResetFields c x) (CH c) CH_ROWSTAT_LEVEL = 0 := by
    intro x
    unfold chResetFields clearTrackers
    extract_lets y z
    rw [fget_fset_ne _ _ _ _ _ _ (off_ne _ (by decide)), fget_fset_ne _ _ _ _ _ _ (off_ne _ (by decide)), fget_fset _ _ _ _ (by decide)]
    rfl
  have level := fields (setChState c 5 (clearChan c (emit "channel_reset" [("ch", .n c), ("state", .s "start")] s)))
  unfold chCleared
  generalize chResetFields c _ = z at level ⊢
  exact level

theorem trainBegin_restoring {c : Fin 16} {s : State} (h : Restoring (s.chan c)) (manual : Bool) : Restoring ((trainBegin c manual s).chan c) := by
  unfold trainBegin
  extract_lets x y
  have same : y.chan c = { s.chan c with trnRate := rateCode x c } := (updChan_chan c _ x).trans (by rw [chan_congr (updPhy_chans _ _ s)])
  have kept : Restoring (y.chan c) := by
    rw [same]
    exact ⟨h.restoring, h.resync, h.intake, h.line⟩
  generalize y = z at kept
  exact kept

theorem trainBegin_quiet {r s : State} (h : QuietWith r s) (c : Fin 16) (manual : Bool) : QuietWith r (trainBegin c manual s) := h.of_view rfl

theorem trainBegin_level (c : Fin 16) (manual : Bool) (s : State) : fget (trainBegin c manual s) (CH c) CH_ROWSTAT_LEVEL = fget s (CH c) CH_ROWSTAT_LEVEL := by
  have lock : CH c + CH_ROWSTAT_LEVEL.off ≠ GLB + GLB_CLKSTAT_CH_LOCK.off := by unfold CH; simp only [GLB, CH_ROWSTAT_LEVEL, GLB_CLKSTAT_CH_LOCK]; omega
  have phy : ∀ {f : Fld}, CH c + CH_ROWSTAT_LEVEL.off ≠ PHY c + f.off := by intro f; unfold CH PHY; simp only [CH_ROWSTAT_LEVEL]; omega
  unfold trainBegin fsetBit
  extract_lets x y w
  rw [fget_fset_ne _ _ _ _ _ _ lock, fget_fset_ne _ _ _ _ _ _ phy, fget_fset_ne _ _ _ _ _ _ phy]
  exact fget_congr ((updChan_regs _ _ _).trans (updPhy_regs _ _ _)) _ _

/-- What the reset of such a channel leaves: it trains, and nothing else of the part runs on. -/
theorem chReset_restores {c : Fin 16} {s : State} (member : inMap s c = true) (replay : replaying s = false) (state : chState s c = 0 ∨ chState s c = 6 ∨ chState s c = 8) (quiet : settled s) :
    ∃ t, chReset c s = (t, okLn []) ∧ Restoring (t.chan c) ∧ fget t (CH c) CH_ROWSTAT_LEVEL = 0 ∧ t.dram = s.dram ∧ t.wmem = s.wmem := by
  obtain ⟨rate, e⟩ := chReset_idle member replay state
  have cleared := chCleared_quiet c quiet
  have record := chCleared_chan c s
  have level := chCleared_level c s
  generalize chCleared c s = x at *
  have rated : QuietWith s (fset (CH c) CH_CTL_RATE rate x) := cleared.of_view rfl
  have begun := trainBegin_quiet rated c false
  rw [settle_settled ⟨begun.caravans, begun.waiting⟩] at e
  exact ⟨_, e, trainBegin_restoring (s := fset (CH c) CH_CTL_RATE rate x) record false,
    (trainBegin_level c false _).trans ((fget_fset_ne _ _ _ _ _ _ (off_ne _ (by decide))).trans level), begun.dram, begun.wmem⟩

theorem answer_ports (l : List OutLn) (s : State) : (answer l s).ports = s.ports := answer_inv (·.ports) l s (fun _ _ => rfl) fun _ _ => rfl

/-- Settles O15: a port is reset as by its register, and a channel that is out of service is cleared without a loss. -/
theorem resetVerbsAnswer : Obligations.ResetVerbsAnswer := by
  unfold Obligations.ResetVerbsAnswer
  refine ⟨?warm, ?cold, ?port, ?portOff, ?channel, ?outside, ?clear⟩
  case warm =>
    intro s ready
    have e : exec .resetWarm s = .next (answer [okLn []] { s with con := { s.con with after := .warm } }) := congrArg Host.Outcome.next (verb_answers ready rfl)
    exact ⟨_, e, answer_ans _ _, congrArg ConState.after (answer_con _ _), answer_pwr _ _, answer_d8 _ _, sameStore_answer _ { s with con := { s.con with after := .warm } }⟩
  case cold =>
    intro s ready
    have e : exec .resetCold s = .next (answer [okLn []] { s with con := { s.con with after := .cold } }) := congrArg Host.Outcome.next (verb_answers ready rfl)
    exact ⟨_, e, answer_ans _ _, congrArg ConState.after (answer_con _ _), answer_pwr _ _, answer_d8 _ _, sameStore_answer _ { s with con := { s.con with after := .cold } }⟩
  case port =>
    intro p s ready on quiet
    have done : settle (portReset p "command" s) = portReset p "command" s := settle_settled (settled_portReset p "command" quiet)
    have e : exec (.resetPort p) s = .next (answer [okLn []] (portReset p "command" s)) :=
      congrArg Host.Outcome.next (verb_answers ready ((if_neg (not_not.mpr on)).trans (congrArg (·, okLn []) done)))
    obtain ⟨replay, rab, expect, -⟩ := portReset_port p "command" s
    have port : ∀ q, (answer [okLn []] (portReset p "command" s)).port q = (portReset p "command" s).port q := port_congr (answer_ports _ _)
    refine ⟨_, e, answer_ans _ _, ?_, ?_, ?_, ?_, fun q ne => (port q).trans (portReset_port_ne ne _ s), (answer_dram _ _).trans (portReset_dram p _ s), (answer_wmem _ _).trans (portReset_wmem p _ s)⟩
    · refine Eq.trans ?_ (portSt_portReset p "command" s)
      exact fget_of_rg (rg_answer (by unfold Uncounted HP; simp only [CON, HP_STATUS_STATE, CON_LINES_COUNT, CON_ERRS_COUNT, CON_CHKERR_COUNT]; omega))
    · rw [port, replay]
    · rw [port, rab]
    · rw [port, expect]
  case portOff =>
    intro p s ready off
    have e : exec (.resetPort p) s = .next (answer [erLn 494 "reset refused" [("unit", .s ("port" ++ toString p.val)), ("reason", .s "state")]] s) :=
      congrArg Host.Outcome.next (verb_answers ready (if_pos off))
    exact ⟨_, e, answer_ans _ _, answer_ports _ _, sameStore_answer _ s⟩
  case channel =>
    rintro x c u s ready rfl rfl member replay state quiet
    obtain ⟨t, done, record, level, dram, wmem⟩ := chReset_restores member replay state quiet
    have e : exec (.perChannelReset x) u = .next (answer [okLn []] t) := congrArg Host.Outcome.next (verb_answers ready done)
    have chan := chan_congr (answer_chans [okLn []] t) x.ch
    refine ⟨_, e, answer_ans _ _, ?_, ?_, ?_, ?_, ?_, (answer_dram _ _).trans dram, (answer_wmem _ _).trans wmem⟩
    · rw [chan, record.restoring]
    · rw [chan, record.resync]
    · exact (fget_of_rg (rg_answer (by unfold Uncounted CH; simp only [CON, CH_ROWSTAT_LEVEL, CON_LINES_COUNT, CON_ERRS_COUNT, CON_CHKERR_COUNT]; omega))).trans level
    · rw [chan, record.intake]
    · rw [chan, record.line]
  case outside =>
    rintro x c u s ready rfl rfl out
    have refused : chReset x.ch (actAll x.errs u) = (actAll x.errs u, erLn 494 "reset refused" [("unit", .s ("ch" ++ toString x.ch.val)), ("reason", .s "member")]) := by
      have bad : chResetBad (actAll x.errs u) x.ch = some "member" := if_pos (by rw [out]; rfl)
      unfold chReset
      rw [bad]
    have e : exec (.perChannelReset x) u = _ := congrArg Host.Outcome.next (verb_answers ready refused)
    exact ⟨_, e, answer_ans _ _, answer_chans _ _, answer_phys _ _, sameStore_answer _ _⟩
  case clear => exact fun s done => congrArg Host.Outcome.next (if_neg (by simp [done]))

end Sys2Proof.Proofs

/-! PROOF. The gates of the power domains (14 R413 to R418). -/

namespace Sys2Proof.Proofs
open Sys2Proof Sys2Proof.Machine Sys2Proof.Laws

/-! ### What every operation on registers, ports and gates keeps -/

/-- The memories and tables stay while nothing writes them. -/
theorem closed_sameStore (s : State) : Closed (sameStore s) where
  rgSet _ _ _ h := h
  regsMap _ _ h := h
  time _ _ _ h := h
  other := by intros; rename_i h; exact h

theorem firstCycle8_mono (s : State) {a b : Nat} (h : a ≤ b) : firstCycle8 s a ≤ firstCycle8 s b := by
  unfold firstCycle8 cdiv
  exact Nat.add_le_add_left (Nat.mul_le_mul_right _ (Nat.div_le_div_right (by omega))) _

/-! ### Registers of a domain -/

/-- The fields of a domain's status beside its state. -/
theorem domField_apart {f : Fld} (beside : Apart f PWR_DOMSTAT_STATE) (same : f.off = PWR_DOMSTAT_STATE.off) (d e : Nat) : Apart (f.nth d) (PWR_DOMSTAT_STATE.nth e) := by
  unfold Apart Fld.nth at *
  dsimp only
  rw [same] at beside ⊢
  by_cases h : d = e
  · subst h
    exact .inr ⟨rfl, (beside.resolve_left (not_not_intro rfl)).2⟩
  · exact .inl (by omega)

theorem fget_gatesOpen {f : Fld} (apart : ∀ e, Apart f (PWR_DOMSTAT_STATE.nth e)) (s : State) : fget (gatesOpen s) PWR f = fget s PWR f :=
  forAll_keeps_prop (P := fun t => fget t PWR f = fget s PWR f) _ _ rfl fun e t kept =>
    onlyIf_keeps_prop (P := fun t => fget t PWR f = fget s PWR f) _ _ kept ((fget_fset_apart PWR (apart e) 0 t).trans kept)

theorem domState_gatesOpen_faulted {d : Nat} {s : State} (faulted : domState s d = 3) : domState (gatesOpen s) d = 3 := by
  refine forAll_keeps_prop (P := fun t => domState t d = 3) _ _ faulted fun e t kept => ?_
  by_cases own : d = e
  · subst own
    simp only [onlyIf, kept, bne_self_eq_false, Bool.false_eq_true, if_false]
  · exact onlyIf_keeps_prop (P := fun t => domState t d = 3) _ _ kept ((domState_fset_ne own 0 t).trans kept)

theorem fget_starterDrop_PWR (f : Fld) (low : f.off < 0x1000) (s : State) : fget (starterDrop s) PWR f = fget s PWR f :=
  fget_fset_ne _ _ _ _ _ _ (by simp only [PWR, AON, AON_STARTER_VALID]; omega)

theorem fget_emit_PWR (f : Fld) (low : f.off < 0x1000) (h : String) (x : List (String × FVal)) (s : State) : fget (emit h x s) PWR f = fget s PWR f :=
  fget_emit _ _ _ _ _ (by simp only [PWR, GLB]; omega) (by simp only [PWR, CON, CON_STATUS_EV_LOST]; omega) (by simp only [PWR, CON, CON_EVLOST_COUNT]; omega)

/-! ### A trip of the core (14 R415, R416) -/

/-- The fault of a domain in its status. -/
def tripWritten (d : Nat) (s : State) : State := fset PWR (PWR_DOMSTAT_STATE.nth d) 3 (fset PWR (PWR_DOMSTAT_CAUSE.nth d) 3 (fbump PWR (PWR_DOMSTAT_TRIPS.nth d) s))

/-- It is flagged. -/
def tripNoted (d : Nat) (s : State) : State := irq GLB_IRQ_STAT_GATE (fsetBit PWR PWR_GATE_FAULT_FAULT d true (tripWritten d s))

/-- It is reported, and the domain ramps no more. -/
def tripTold (d : Nat) (s : State) : State :=
  emit "gate_fault" [("dom", .s (domName d)), ("cause", .s "trip")] { tripNoted d s with pwr := { (tripNoted d s).pwr with ramps := (tripNoted d s).pwr.ramps.filter fun x => x.dom ≠ d } }

theorem gateFault_core {d : Nat} {s : State} (core : d < 3) (on : domState s d = 2) : gateFault d .trip s = fset AON AON_STATUS_GATE_FAULT 1 (coreLost .faultOff (tripTold d s)) := by
  unfold gateFault
  rw [if_neg (by simp [on])]
  exact if_pos core

theorem fget_tripTold (d : Nat) {f : Fld} (low : f.off < 0x1000) (s : State) : fget (tripTold d s) PWR f = fget (tripNoted d s) PWR f := by
  unfold tripTold
  generalize tripNoted d s = y
  exact fget_emit_PWR f low _ _ _

theorem fget_tripNoted (d : Nat) {f : Fld} (low : f.off < 0x1000) (beside : f.off ≠ PWR_GATE_FAULT_FAULT.off) (s : State) : fget (tripNoted d s) PWR f = fget (tripWritten d s) PWR f := by
  unfold tripNoted irq fsetBit
  generalize tripWritten d s = y
  exact (fget_fset_ne _ _ _ _ _ _ (by simp only [PWR, GLB, GLB_IRQ_STAT_GATE]; omega)).trans (fget_fset_ne _ _ _ _ _ _ (by simpa using beside))

theorem nthDom_low {f : Fld} {d : Nat} (at_ : f.off = PWR_DOMSTAT_STATE.off) (low : d < 23) : (f.nth d).off < 0x1000 ∧ (f.nth d).off ≠ PWR_GATE_FAULT_FAULT.off := by
  simp only [Fld.nth, at_, PWR_DOMSTAT_STATE, PWR_GATE_FAULT_FAULT]
  omega

/-- A field of a domain's status once a trip is told. -/
theorem fget_tripTold_dom {f : Fld} {e : Nat} (at_ : f.off = PWR_DOMSTAT_STATE.off) (low : e < 23) (d : Nat) (s : State) :
    fget (tripTold d s) PWR (f.nth e) = fget (tripWritten d s) PWR (f.nth e) := by
  obtain ⟨small, beside⟩ := nthDom_low at_ low
  exact (fget_tripTold d small s).trans (fget_tripNoted d small beside s)

theorem tripWritten_regs (d : Nat) (s : State) : domState (tripWritten d s) d = 3 ∧ fget (tripWritten d s) PWR (PWR_DOMSTAT_CAUSE.nth d) = 3 ∧
    fget (tripWritten d s) PWR (PWR_DOMSTAT_TRIPS.nth d) = min (fget s PWR (PWR_DOMSTAT_TRIPS.nth d) + 1) 65535 := by
  have cause : Apart (PWR_DOMSTAT_CAUSE.nth d) (PWR_DOMSTAT_STATE.nth d) := domField_apart (f := PWR_DOMSTAT_CAUSE) (by decide) rfl d d
  have trips : Apart (PWR_DOMSTAT_TRIPS.nth d) (PWR_DOMSTAT_STATE.nth d) := domField_apart (f := PWR_DOMSTAT_TRIPS) (by decide) rfl d d
  have trips' : Apart (PWR_DOMSTAT_TRIPS.nth d) (PWR_DOMSTAT_CAUSE.nth d) := .inr ⟨rfl, by simp [Fld.nth, PWR_DOMSTAT_CAUSE], .inr (by simp [Fld.nth, PWR_DOMSTAT_CAUSE, PWR_DOMSTAT_TRIPS])⟩
  unfold tripWritten
  refine ⟨domState_fset d 3 _, ?_, ?_⟩
  · rw [fget_fset_apart _ cause]
    exact fget_fset _ _ _ _ (show PWR_DOMSTAT_CAUSE.lsb + PWR_DOMSTAT_CAUSE.width ≤ 32 by decide)
  · rw [fget_fset_apart _ trips, fget_fset_apart _ trips']
    exact fget_fbump _ _ _ (show PWR_DOMSTAT_TRIPS.lsb + PWR_DOMSTAT_TRIPS.width ≤ 32 by decide)

theorem tripTold_fault {d : Nat} (low : d < 23) (s : State) : bitOf (fget (tripTold d s) PWR PWR_GATE_FAULT_FAULT) d = true := by
  rw [fget_tripTold d (by decide)]
  unfold tripNoted irq
  generalize tripWritten d s = y
  rw [fget_fset_ne _ _ _ _ _ _ (by decide)]
  exact bitOf_fsetBit_set _ _ _ _ (by decide) low

theorem fbit_emit_irq {f : Fld} (at_ : f.off = GLB_IRQ_STAT_EVENT.off) (apart : Apart f GLB_IRQ_STAT_EVENT) (h : String) (x : List (String × FVal)) (s : State) : fbit (emit h x s) GLB f = fbit s GLB f := by
  refine congrArg (· != 0) ?_
  unfold emit
  split
  · exact (fget_fset_apart GLB apart 1 _).trans rfl
  · have beside : ∀ g : Fld, g.off < 0x1000 → GLB + f.off ≠ CON + g.off := fun g low => by simp only [at_, GLB, CON, GLB_IRQ_STAT_EVENT]; omega
    exact (fget_fset_ne _ _ _ _ _ _ (beside _ (by decide))).trans ((fget_fset_ne _ _ _ _ _ _ (beside _ (by decide))).trans rfl)

theorem tripTold_flag (d : Nat) (s : State) : fbit (tripTold d s) GLB GLB_IRQ_STAT_GATE = true := by
  have noted : fbit (tripNoted d s) GLB GLB_IRQ_STAT_GATE = true := fbit_fset_one _ _ _ (by decide) (by decide)
  unfold tripTold
  generalize tripNoted d s = y at noted
  exact (fbit_emit_irq (f := GLB_IRQ_STAT_GATE) rfl (by decide) _ _ _).trans noted

theorem domState_tripTold_ne {d e : Nat} (ne : e ≠ d) (low : e < 23) (s : State) : domState (tripTold d s) e = domState s e := by
  have other : ∀ (f : Fld) v t, f.off = PWR_DOMSTAT_STATE.off → fget (fset PWR (f.nth d) v t) PWR (PWR_DOMSTAT_STATE.nth e) = fget t PWR (PWR_DOMSTAT_STATE.nth e) := fun f v t at_ =>
    fget_fset_ne _ _ _ _ _ _ (by simp only [Fld.nth, at_]; omega)
  refine (fget_tripTold_dom (f := PWR_DOMSTAT_STATE) rfl low d s).trans ?_
  unfold tripWritten
  rw [other PWR_DOMSTAT_STATE _ _ rfl, other PWR_DOMSTAT_CAUSE _ _ rfl]
  exact other PWR_DOMSTAT_TRIPS _ _ rfl

theorem rg_gatesOpen_ne {a : Nat} (beside : a < PWR ∨ PWR + 0x1000 ≤ a) (s : State) : rg (gatesOpen s) a = rg s a :=
  forAll_inv_mem (rg · a) _ _ _ fun e m t => onlyIf_inv (rg · a) _ _ _ fun y => rg_fset_ne _ _ _ _ (by
    have := List.mem_range.mp m
    unfold PWR at *
    simp only [Fld.nth, PWR_DOMSTAT_STATE]
    omega)

theorem fget_coreLost {f : Fld} (low : f.off < 0x1000) (apart : ∀ e, Apart f (PWR_DOMSTAT_STATE.nth e)) (mode : PMode) (s : State) : fget (coreLost mode s) PWR f = fget s PWR f :=
  (fget_starterDrop_PWR f low _).trans ((fget_gatesOpen apart _).trans rfl)

theorem coreLost_irq (mode : PMode) (s : State) : fbit (coreLost mode s) GLB GLB_IRQ_STAT_GATE = fbit s GLB GLB_IRQ_STAT_GATE :=
  fbit_of_rg ((rg_fset_ne _ _ _ _ (by decide)).trans ((rg_gatesOpen_ne (by decide) _).trans rfl))

theorem domState_coreLost_faulted {d : Nat} (low : d < 23) {s : State} (faulted : domState s d = 3) (mode : PMode) : domState (coreLost mode s) d = 3 :=
  (fget_starterDrop_PWR _ (by simp only [Fld.nth, PWR_DOMSTAT_STATE]; omega) _).trans (domState_gatesOpen_faulted (s := { s with pwr := _ }) faulted)

theorem tripTold_store (d : Nat) (s : State) : sameStore s (tripTold d s) := by
  have noted : sameStore s (tripNoted d s) := ⟨rfl, rfl, rfl, rfl, rfl, rfl⟩
  unfold tripTold
  generalize tripNoted d s = y at noted ⊢
  exact emit_keeps (closed_sameStore s) _ _ { y with pwr := { y.pwr with ramps := y.pwr.ramps.filter fun x => x.dom ≠ d } } noted

/-- The core is in fault-off: its gates are open, faulted domains stay faulted, and the AON domain shows the fault. -/
structure CoreTripped (s t : State) : Prop where
  mode : t.pwr.mode = .faultOff
  starter : t.pwr.starter = none
  retEn : t.pwr.retEn = false
  ramps : t.pwr.ramps = []
  rampQ : t.pwr.rampQ = []
  faulted : ∀ d, d < 23 → domState s d = 3 → domState t d = 3
  sound : ∀ d, d < 23 → domState s d ≠ 3 → domState t d = 0
  field : ∀ {f : Fld}, Apart f PWR_DOMSTAT_STATE → f.off = PWR_DOMSTAT_STATE.off → ∀ d, d < 23 → fget t PWR (f.nth d) = fget s PWR (f.nth d)
  faults : fget t PWR PWR_GATE_FAULT_FAULT = fget s PWR PWR_GATE_FAULT_FAULT
  told : fbit t AON AON_STATUS_GATE_FAULT = true
  irq : fbit t GLB GLB_IRQ_STAT_GATE = fbit s GLB GLB_IRQ_STAT_GATE
  d8 : t.d8 = s.d8
  store : sameStore s t

theorem coreTripped (s : State) : CoreTripped s (fset AON AON_STATUS_GATE_FAULT 1 (coreLost .faultOff s)) := by
  have pwr := coreLost_pwr .faultOff s
  have faulted : ∀ d, d < 23 → domState s d = 3 → domState (coreLost .faultOff s) d = 3 := fun d low faulted => domState_coreLost_faulted low faulted _
  have sound : ∀ d, d < 23 → domState s d ≠ 3 → domState (coreLost .faultOff s) d = 0 := fun d low sound => domState_coreLost low _ s sound
  have field : ∀ {f : Fld}, f.off < 0x1000 → (∀ e, Apart f (PWR_DOMSTAT_STATE.nth e)) → fget (coreLost .faultOff s) PWR f = fget s PWR f := fun low apart => fget_coreLost low apart _ s
  have flag := coreLost_irq .faultOff s
  have d8 : (coreLost .faultOff s).d8 = s.d8 := gatesOpen_inv (·.d8) _ fun _ _ _ => rfl
  have store : sameStore s (coreLost .faultOff s) := coreLost_keeps (closed_sameStore s) .faultOff s (sameStore_refl s)
  generalize coreLost .faultOff s = x at *
  have shown : ∀ f : Fld, f.off < 0x1000 → fget (fset AON AON_STATUS_GATE_FAULT 1 x) PWR f = fget x PWR f := fun f low =>
    fget_fset_ne _ _ _ _ _ _ (by simp only [PWR, AON, AON_STATUS_GATE_FAULT]; omega)
  have state : ∀ d, d < 23 → domState (fset AON AON_STATUS_GATE_FAULT 1 x) d = domState x d := fun d low => shown _ (nthDom_low (f := PWR_DOMSTAT_STATE) rfl low).1
  refine ⟨congrArg (·.mode) pwr, congrArg (·.starter) pwr, congrArg (·.retEn) pwr, congrArg (·.ramps) pwr, congrArg (·.rampQ) pwr, fun d low h => (state d low).trans (faulted d low h),
    fun d low h => (state d low).trans (sound d low h), fun {f} apart at_ d low => ?_, ?_, fbit_fset_one _ _ _ (by decide) (by decide), ?_, d8, store⟩
  · obtain ⟨small, -⟩ := nthDom_low at_ low
    exact (shown _ small).trans (field small (domField_apart apart at_ d))
  · exact (shown _ (by decide)).trans (field (by decide) fun e => .inl (by simp only [Fld.nth, PWR_DOMSTAT_STATE, PWR_GATE_FAULT_FAULT]; omega))
  · exact (fbit_of_rg (f := GLB_IRQ_STAT_GATE) (rg_fset_ne _ _ _ _ (by decide))).trans flag

/-- The core after the trip of one of its domains: fault-off, with the fault recorded. -/
theorem gateFault_trip {d : Nat} (core : d < 3) {s : State} (on : domState s d = 2) : ∃ t, gateFault d .trip s = t ∧ t.pwr.mode = .faultOff ∧ t.pwr.starter = none ∧ t.pwr.retEn = false ∧ t.pwr.ramps = []
    ∧ t.pwr.rampQ = [] ∧ domState t d = 3 ∧ fget t PWR (PWR_DOMSTAT_CAUSE.nth d) = 3 ∧ fget t PWR (PWR_DOMSTAT_TRIPS.nth d) = min (fget s PWR (PWR_DOMSTAT_TRIPS.nth d) + 1) 65535
    ∧ bitOf (fget t PWR PWR_GATE_FAULT_FAULT) d = true ∧ fbit t AON AON_STATUS_GATE_FAULT = true ∧ fbit t GLB GLB_IRQ_STAT_GATE = true
    ∧ (∀ e, e < 23 → e ≠ d → domState s e ≠ 3 → domState t e = 0) ∧ t.d8 = s.d8 ∧ sameStore s t := by
  have low : d < 23 := by omega
  obtain ⟨state, cause, trips⟩ := tripWritten_regs d s
  have state' : domState (tripTold d s) d = 3 := (fget_tripTold_dom (f := PWR_DOMSTAT_STATE) rfl low d s).trans state
  have cause' := (fget_tripTold_dom (f := PWR_DOMSTAT_CAUSE) rfl low d s).trans cause
  have trips' := (fget_tripTold_dom (f := PWR_DOMSTAT_TRIPS) rfl low d s).trans trips
  have fault := tripTold_fault low s
  have flag := tripTold_flag d s
  have others := fun e lt ne sound => (domState_tripTold_ne (d := d) (e := e) ne lt s).symm ▸ (sound : domState s e ≠ 3)
  have store : sameStore s (tripTold d s) := tripTold_store d s
  have time : (tripTold d s).d8 = s.d8 := emit_d8 _ _ _
  have e := gateFault_core core on
  generalize tripTold d s = x at *
  have lost := coreTripped x
  exact ⟨_, e, lost.mode, lost.starter, lost.retEn, lost.ramps, lost.rampQ, lost.faulted d low state', (lost.field (f := PWR_DOMSTAT_CAUSE) (by decide) rfl d low).trans cause',
    (lost.field (f := PWR_DOMSTAT_TRIPS) (by decide) rfl d low).trans trips', (congrArg (bitOf · d) lost.faults).trans fault, lost.told, lost.irq.trans flag, fun e lt ne sound => lost.sound e lt (others e lt ne sound),
    lost.d8.trans time, sameStore_trans store lost.store⟩

/-! ### A retry (14 R418) -/

theorem rampMore_one {s : State} (d : Nat) (ramps : s.pwr.ramps = []) (queue : s.pwr.rampQ = []) : rampMore [d] s = rampStart d { s with pwr := { s.pwr with rampQ := [] } } :=
  rampMore_first d [] ramps queue

/-- The fault of a domain is cleared for its retry. -/
def retryCleared (d : Nat) (s : State) : State := fsetBit PWR PWR_GATE_FAULT_FAULT d false (fset PWR PWR_RETRY_DOM d s)

theorem retryCleared_fault {d : Nat} (low : d < 23) {s : State} (fault : bitOf (fget s PWR PWR_GATE_FAULT_FAULT) d = true) : bitOf (fget (retryCleared d s) PWR PWR_GATE_FAULT_FAULT) d = false := by
  rw [bitOf_eq_testBit] at fault ⊢
  refine (testBit_fsetBit_clear _ _ _ (by decide) ?_ low).trans ?_
  · rw [fget_fset_ne _ _ _ _ _ _ (by decide)]
    exact fault
  · simp

theorem retryVerb_starts {d : Nat} {s : State} (gated : 3 ≤ d) (low : d < 23) (isolated : domState s d = 3) (fault : bitOf (fget s PWR PWR_GATE_FAULT_FAULT) d = true) (ramps : s.pwr.ramps = [])
    (queue : s.pwr.rampQ = []) : retryVerb d s = (rampStart d { retryCleared d s with pwr := { s.pwr with rampQ := [] } }, okLn []) := by
  have shown : domState (fset PWR PWR_RETRY_DOM d s) d = 3 := (fget_fset_ne _ _ _ _ _ _ (by simp only [PWR, Fld.nth, PWR_DOMSTAT_STATE, PWR_RETRY_DOM]; omega)).trans isolated
  have flag : bitOf (fget (fset PWR PWR_RETRY_DOM d s) PWR PWR_GATE_FAULT_FAULT) d = true := by
    rw [fget_fset_ne _ _ _ _ _ _ (by decide)]
    exact fault
  have retry : powerRetry d (fset PWR PWR_RETRY_DOM d s) = (rampMore [d] (retryCleared d s), none) := (if_neg (by omega)).trans (if_neg (by simp [shown, flag]; omega))
  unfold retryVerb
  rw [if_neg (by omega), retry]
  dsimp only
  rw [rampMore_one d (s := retryCleared d s) ramps queue]
  rfl

theorem retryVerb_core {d : Nat} (core : d < 3) (s : State) : retryVerb d s = (fset PWR PWR_RETRY_DOM d s, erLn 493 "retry refused" [("dom", .s (domName d)), ("reason", .s "core")]) := by
  have retry : powerRetry d (fset PWR PWR_RETRY_DOM d s) = (fset PWR PWR_RETRY_DOM d s, some "core") := if_pos core
  unfold retryVerb
  rw [if_neg (by omega), retry]

/-! ### A stage of a ramp (14 R414, R415) -/

/-- How long a stage lasts: from 2 to 5 µs, as a free value picks. -/
def stageLen8 (s : State) : Nat := 16000 + Config.free s.free % 24001

/-- The stage of a ramp has ended while DTIME counts. -/
def stagePassed (x : Ramp) (s : State) : State := advanceTo8 (x.at8 + stageLen8 s) { s with free := s.free + 1 }

/-- The ramp after that stage. -/
def rampNext (x : Ramp) (s : State) : Ramp := { x with stage := x.stage + 1, at8 := (stagePassed x s).d8, len8 := x.len8 + ((stagePassed x s).d8 - x.at8) }

theorem stagePassed_d8 (x : Ramp) (s : State) : firstCycle8 s (x.at8 + 16000) ≤ (stagePassed x s).d8 ∧ (stagePassed x s).d8 ≤ firstCycle8 s (x.at8 + 40000) := by
  have at_ : (stagePassed x s).d8 = firstCycle8 s (x.at8 + stageLen8 s) := rfl
  have short : stageLen8 s ≤ 40000 := Nat.add_le_add_left (Nat.lt_succ_iff.mp (Nat.mod_lt (Config.free s.free) (by decide : 0 < 24001))) 16000
  rw [at_]
  exact ⟨firstCycle8_mono s (Nat.add_le_add_left (Nat.le_add_right _ _) _), firstCycle8_mono s (Nat.add_le_add_left short _)⟩

theorem rampStage_counts {d : Nat} {x : Ramp} {s : State} (ramp : (s.pwr.ramps.find? fun x => x.dom = d) = some x) (run : dtimeRuns s = true) : rampStage d s =
    if x.stage + 1 ≤ 4 then { stagePassed x s with pwr := { s.pwr with ramps := s.pwr.ramps.map fun y => if y.dom = d then rampNext x s else y } }
    else domOn d (x.len8 + ((stagePassed x s).d8 - x.at8)) (stagePassed x s) := by
  have passed : onlyIf (dtimeRuns { s with free := s.free + 1 }) (advanceTo8 (x.at8 + stageLen8 s)) { s with free := s.free + 1 } = stagePassed x s := if_pos run
  have runs : dtimeRuns (stagePassed x s) = true := run
  unfold rampStage takeFree
  rw [ramp]
  dsimp only
  unfold stageLen8 at passed
  rw [passed, runs]
  rfl

/-- A unit whose domain is on again trains or is off; nothing of the memories, the gates and the time changes. -/
structure UnitOn (s t : State) : Prop where
  pwr : t.pwr = s.pwr
  d8 : t.d8 = s.d8
  store : sameStore s t
  gates : ∀ f : Fld, f.off < 0x1000 → fget t PWR f = fget s PWR f

theorem unitOn_unitOn (d : Nat) (s : State) : UnitOn s (unitOn d s) := by
  have self : UnitOn s s := ⟨rfl, rfl, sameStore_refl s, fun _ _ => rfl⟩
  unfold unitOn
  split
  · exact self
  · split
    · split
      · refine ⟨rfl, rfl, sameStore_fset _ _ _ _, fun f small => fget_fset_ne _ _ _ _ _ _ ?_⟩
        simp only [PWR, CH, CH_STATUS_STATE]
        omega
      · exact self
    · split
      · refine ⟨toDetect_pwr _ _, toDetect_d8 _ _, toDetect_keeps (closed_sameStore s) _ _ (sameStore_refl s), fun f small => ?_⟩
        have spared : Spared (PWR + f.off) := .inr (.inr (by simp only [PWR]; omega))
        exact fget_of_rg (toDetect_aside (aside_rg spared (rg s (PWR + f.off))) rfl _ fun v y port kept => (rg_fset_ne _ _ v y (by simp only [PWR, HP]; omega)).trans kept)
      · exact self

/-- A domain in RUN is on, and the length of its ramp is shown. -/
def domShown (d len8 : Nat) (s : State) : State :=
  { fset PWR (PWR_DOMSTAT_STATE.nth d) 2 (fset PWR (PWR_DOMSTAT_RAMP_US.nth d) (min (len8 / 8000) 255) s) with pwr := { s.pwr with ramps := s.pwr.ramps.filter fun x => x.dom ≠ d } }

theorem domOn_run {d len8 : Nat} {s : State} (run : s.pwr.mode = .run) (queue : s.pwr.rampQ = []) : domOn d len8 s = unitOn d (domShown d len8 s) := by
  have still : rampFuel 23 (domShown d len8 s) = domShown d len8 s := by
    have none_ : (domShown d len8 s).pwr.rampQ = [] := queue
    unfold rampFuel
    rw [none_]
  unfold domOn
  extract_lets x _ y
  have shown : y = domShown d len8 s := still
  have mode : y.pwr.mode = .run := (congrArg (·.pwr.mode) shown).trans run
  simp only [mode]
  exact congrArg (unitOn d) shown

theorem domShown_regs {d len8 : Nat} (s : State) : domState (domShown d len8 s) d = 2 ∧ fget (domShown d len8 s) PWR (PWR_DOMSTAT_RAMP_US.nth d) = min (len8 / 8000) 255 := by
  refine ⟨domState_fset d 2 _, (fget_fset_apart PWR (domField_apart (f := PWR_DOMSTAT_RAMP_US) (by decide) rfl d d) 2 _).trans ?_⟩
  refine (fget_fset PWR (PWR_DOMSTAT_RAMP_US.nth d) _ s (show PWR_DOMSTAT_RAMP_US.lsb + PWR_DOMSTAT_RAMP_US.width ≤ 32 by decide)).trans (Nat.mod_eq_of_lt ?_)
  have : (PWR_DOMSTAT_RAMP_US.nth d).width = 8 := rfl
  rw [this]
  omega

/-- Settles O8: a stage ends at the time that a free value picks; a trip, a retry and its refusal are read off their registers. -/
theorem gatesRampAndFault : Obligations.GatesRampAndFault := by
  unfold Obligations.GatesRampAndFault
  refine ⟨?stage, ?end_, ?trip, ?retry, ?core⟩
  case stage =>
    intro d x s ramp few run
    obtain ⟨least, most⟩ := stagePassed_d8 x s
    refine ⟨_, congrArg Host.Outcome.next ((rampStage_counts ramp run).trans (if_pos few)), least, most, rfl, rfl, rfl, rfl, rfl, rfl, rfl, rfl⟩
  case end_ =>
    intro d x s ramp last run queue
    obtain ⟨least, -⟩ := stagePassed_d8 x s
    have counts : dtimeRuns s = true := by
      unfold dtimeRuns
      rw [run]
    have done : rampStage d s = unitOn d (domShown d (x.len8 + ((stagePassed x s).d8 - x.at8)) (stagePassed x s)) :=
      (rampStage_counts ramp counts).trans ((if_neg (by omega)).trans (domOn_run (s := stagePassed x s) run queue))
    have time : (unitOn d (domShown d (x.len8 + ((stagePassed x s).d8 - x.at8)) (stagePassed x s))).d8 = (stagePassed x s).d8 := (unitOn_unitOn d _).d8
    obtain ⟨state, length⟩ := domShown_regs (d := d) (len8 := x.len8 + ((stagePassed x s).d8 - x.at8)) (stagePassed x s)
    obtain ⟨pwr, -, store, gates⟩ := unitOn_unitOn d (domShown d (x.len8 + ((stagePassed x s).d8 - x.at8)) (stagePassed x s))
    refine ⟨_, congrArg Host.Outcome.next done, least.trans_eq time.symm, (gates _ ?_).trans state, ?_, congrArg PwrState.ramps pwr, store⟩
    · simp only [Fld.nth, PWR_DOMSTAT_STATE]
      omega
    · rw [time]
      exact (gates _ (by simp only [Fld.nth, PWR_DOMSTAT_RAMP_US]; omega)).trans length
  case trip =>
    rintro d x u s trip rfl core on
    obtain ⟨t, e, facts⟩ := gateFault_trip core on
    refine ⟨t, congrArg Host.Outcome.next ?_, facts⟩
    rw [trip, e]
  case retry =>
    intro d s ready gated low isolated fault ramps queue
    have e : exec (.powerRetry d) s = .next (answer [okLn []] (rampStart d { retryCleared d s with pwr := { s.pwr with rampQ := [] } })) :=
      congrArg Host.Outcome.next (verb_answers ready (retryVerb_starts gated low isolated fault ramps queue))
    have held : ∀ (f : Fld) (y : State), f.off < 0x1000 → fget (answer [okLn []] y) PWR f = fget y PWR f := fun f y small =>
      fget_answer (by unfold Uncounted; simp only [PWR, CON, CON_LINES_COUNT, CON_ERRS_COUNT, CON_CHKERR_COUNT]; omega)
    have pwr : (rampStart d { retryCleared d s with pwr := { s.pwr with rampQ := [] } }).pwr = { s.pwr with rampQ := [], rampAt8 := some (rampFrom8 s), ramps := s.pwr.ramps ++ [⟨d, 1, rampFrom8 s, 0⟩] } := rfl
    refine ⟨_, e, answer_ans _ _, ?_, ?_, ?_, ?_, ?_, (answer_d8 _ _).trans rfl, sameStore_trans (t := rampStart d { retryCleared d s with pwr := { s.pwr with rampQ := [] } }) ⟨rfl, rfl, rfl, rfl, rfl, rfl⟩ (sameStore_answer _ _)⟩
    · exact (held _ _ (by simp only [Fld.nth, PWR_DOMSTAT_STATE]; omega)).trans (domState_rampStart d _)
    · rw [answer_pwr, pwr, ramps]
      rfl
    · rw [answer_pwr, pwr]
    · rw [held _ _ (by decide)]
      refine (congrArg (bitOf · d) (fget_fset_ne _ _ _ _ _ _ ?_)).trans (retryCleared_fault low fault)
      simp only [PWR, Fld.nth, PWR_DOMSTAT_STATE, PWR_GATE_FAULT_FAULT]
      omega
    · rw [answer_pwr, pwr]
  case core =>
    intro d s ready core
    have e : exec (.powerRetry d) s = _ := congrArg Host.Outcome.next (verb_answers ready (retryVerb_core core s))
    exact ⟨_, e, answer_ans _ _, answer_pwr _ _, sameStore_answer _ (fset PWR PWR_RETRY_DOM d s)⟩

end Sys2Proof.Proofs

/-! PROOF. The power-fail flush takes time where a pause owes refreshes (12 R364, R365, 11 R346). -/

namespace Sys2Proof.Proofs
open Sys2Proof Sys2Proof.Machine Sys2Proof.Laws

/-- Channel 0 is in service, a proofing pause runs there and owes a refresh, and its last command still holds the command bus. -/
def pausedOwing : State :=
  updPhy 0 (fun y => { y with active := some (.timing 0, 0) }) (updChan 0 (fun y => { y with refDebt := y.refDebt.set 0 1, caAt8 := 10 }) (setChState 0 3 State.reset))

/-- The flush stops the pause, and the refresh it owes issues at the next free slot of the command bus, one cycle of CK_CORE later. -/
theorem pausedOwing_pfail : ∃ t, exec (.pfail 200) pausedOwing = .next t ∧ t.d8 = 125 := ⟨_, rfl, by decide +kernel⟩

/-- Refutes O10: the flush begins at once, but a pause that it stops has its owed refreshes issued, and DTIME moves until the command bus is free. -/
theorem not_powerFailFlushRuns : ¬ Obligations.PowerFailFlushRuns := by
  unfold Obligations.PowerFailFlushRuns
  rintro ⟨begins, -⟩
  obtain ⟨t, done, -, -, -, -, -, -, -, -, -, time, -⟩ := begins 200 pausedOwing rfl (by decide) rfl rfl rfl
  obtain ⟨t', done', late⟩ := pausedOwing_pfail
  have same : t = t' := Host.Outcome.next.inj (done.symm.trans done')
  have start : pausedOwing.d8 = 0 := rfl
  rw [same, late, start] at time
  exact absurd time (by decide)

end Sys2Proof.Proofs

/-! PROOF. The way back from BANKED: the restored bank image, `sleep resume` and `clock run` (14 R410 to R412, 17 R500). -/

namespace Sys2Proof.Proofs
open Sys2Proof Sys2Proof.Machine Sys2Proof.Laws

/-! ### The bank image has been restored (14 R410) -/

/-- How long the wake took is shown. -/
def imageShown (s : State) : State :=
  rgSet (PWR + PWR_WAKELAT_US.off) (BitVec.ofNat 32 (Config.free s.free)) (sleepPause (s.ns - s.pwr.savedD8 / 8) { s with free := s.free + 1 })

/-- The core runs and waits for its resume. -/
def imageAwaited (s : State) : State := fset PWR PWR_STATE_SUB 4 { imageShown s with pwr := { s.pwr with mode := .run, wake := some .awaiting, fresh := false } }

/-- The event of that wake. -/
def wakeEvent (s : State) : OutLn := ⟨"wake", [("cause", .s (wakeWord s.pwr.cause)), ("start", word2 (aonStart s = 5) "power_return" "banked")]⟩

/-- It is reported. -/
def imageTold (s : State) : State :=
  emit "wake" [("cause", .s (wakeWord (imageAwaited s).pwr.cause)), ("start", word2 (aonStart (imageAwaited s) = 5) "power_return" "banked")] (imageAwaited s)

/-- A warm reset that waited for the wake is due. -/
def imageDue (s : State) : State := fset PWR PWR_STATE_SUB 0 { imageTold s with pwr := { (imageTold s).pwr with wake := none, warm := .noClock } }

theorem imageAwaited_pwr (s : State) : (imageAwaited s).pwr = { s.pwr with mode := .run, wake := some .awaiting, fresh := false } := rfl

theorem imageTold_pwr (s : State) : (imageTold s).pwr = { s.pwr with mode := .run, wake := some .awaiting, fresh := false } := (emit_pwr _ _ _).trans (imageAwaited_pwr s)

theorem aonStart_imageAwaited (s : State) : aonStart (imageAwaited s) = aonStart s := by
  have shown : aonStart (imageShown s) = aonStart s := fget_of_rg (rg_rgSet_ne _ _ _ _ (by decide))
  unfold imageAwaited
  generalize imageShown s = y at shown ⊢
  exact (fget_fset_ne _ _ _ _ _ _ (by decide)).trans shown

theorem imageTold_rest (s : State) : fget (imageTold s) PWR PWR_STATE_SUB = 4 ∧ (imageTold s).d8 = s.d8 ∧ sameStore s (imageTold s) := by
  have sub : fget (imageAwaited s) PWR PWR_STATE_SUB = 4 := fget_fset _ _ _ _ (by decide)
  have d8 : (imageAwaited s).d8 = s.d8 := rfl
  have store : sameStore s (imageAwaited s) := ⟨rfl, rfl, rfl, rfl, rfl, rfl⟩
  unfold imageTold
  generalize imageAwaited s = y at sub d8 store ⊢
  exact ⟨(fget_emit_PWR _ (by decide) _ _ _).trans sub, (emit_d8 _ _ _).trans d8, emit_keeps (closed_sameStore s) _ _ y store⟩

theorem imageTold_warmAfter (s : State) : (imageTold s).pwr.warmAfter = s.pwr.warmAfter := by rw [imageTold_pwr]

theorem bankImage_good {s : State} (wake : s.pwr.wake = some .image) (ramps : s.pwr.ramps = []) (queue : s.pwr.rampQ = []) :
    bankImage true s = if s.pwr.warmAfter.isNone then imageTold s else exitDone (imageDue s) := by
  have told : bankImage true s = if (imageTold s).pwr.warmAfter.isNone then imageTold s else exitDone (imageDue s) := if_neg (by simp [wake, ramps, queue])
  rw [told, imageTold_warmAfter]

theorem bankImage_bad {s : State} (wake : s.pwr.wake = some .image) (ramps : s.pwr.ramps = []) (queue : s.pwr.rampQ = []) : bankImage false s = coldBegin .aon 3 s :=
  if_neg (by simp [wake, ramps, queue])

theorem imageTold_evq {s : State} (room : s.con.evq.length < 64) : (imageTold s).con.evq = s.con.evq ++ [(s.ns, wakeEvent s)] := by
  have queue : (imageAwaited s).con.evq = s.con.evq := rfl
  have time : (imageAwaited s).ns = s.ns := rfl
  have cause : (imageAwaited s).pwr.cause = s.pwr.cause := rfl
  unfold imageTold wakeEvent
  rw [aonStart_imageAwaited, cause]
  generalize imageAwaited s = y at queue time ⊢
  unfold emit
  rw [if_pos (queue.symm ▸ room), ← queue, ← time]
  rfl

/-- A warm reset that waits for the exit follows it, and the last event stays in front. -/
theorem exitDone_due {c : RstCause} {s : State} (due : s.pwr.warmAfter = some c) (l : List (Nat × OutLn)) (e : Nat × OutLn) (last : s.con.evq = l ++ [e]) :
    exitDone s = { warmReset c { s with pwr := { s.pwr with warmAfter := none } } with
      con := { (warmReset c { s with pwr := { s.pwr with warmAfter := none } }).con with evq := e :: (warmReset c { s with pwr := { s.pwr with warmAfter := none } }).con.evq } } := by
  unfold exitDone
  rw [due, last]
  dsimp only
  rw [List.length_append, List.length_singleton, Nat.add_sub_cancel, List.drop_left]
  rfl

/-- The end of a wake that a warm reset has waited for. -/
theorem exitDone_imageDue {c : RstCause} {s : State} (after : s.pwr.warmAfter = some c) (room : s.con.evq.length < 64) :
    ∃ t, exitDone (imageDue s) = t ∧ t.pwr.mode = .run ∧ t.pwr.wake = none ∧ t.pwr.warmAfter = none ∧ fget t GLB GLB_RESET_CAUSE_CAUSE = c.code ∧ fbit t GLB GLB_RESET_CAUSE_KIND = true
      ∧ (s.ns, wakeEvent s) ∈ t.con.evq := by
  have due : (imageDue s).pwr = { s.pwr with mode := .run, wake := none, fresh := false, warm := .noClock } := by
    unfold imageDue
    show ({ (imageTold s).pwr with wake := none, warm := .noClock } : PwrState) = _
    rw [imageTold_pwr]
  have queue : (imageDue s).con.evq = s.con.evq ++ [(s.ns, wakeEvent s)] := imageTold_evq room
  generalize imageDue s = y at due queue
  have waits : y.pwr.warmAfter = some c := by rw [due, after]
  have e := exitDone_due waits _ _ queue
  obtain ⟨was, ⟨h, w, pwr⟩, -⟩ := warmReset_done c { y with pwr := { y.pwr with warmAfter := none } }
  generalize warmReset c { y with pwr := { y.pwr with warmAfter := none } } = t at e was pwr
  obtain ⟨code, kind, -⟩ := was
  refine ⟨_, e, ?_, ?_, ?_, code, kind, List.mem_cons_self⟩
  · exact (congrArg PwrState.mode pwr).trans (congrArg PwrState.mode due)
  · exact congrArg PwrState.wake pwr
  · exact congrArg PwrState.warmAfter pwr

/-! ### Ports beside a port that begins to train -/

theorem ResetFld.ne_HP {b : Nat} {f : Fld} (fld : ResetFld b f) (p : Fin 4) {i : Nat} (low : i < 0x1000) : HP p + i ≠ b + f.off := by
  have port := p.isLt
  have own : HP p = 0x20000 + p.val * 0x1000 := rfl
  cases fld with
  | plain range => omega
  | chan c low => unfold CH; omega
  | rankPd c => unfold CH; simp only [CH_STATUS_RANK_PD]; omega
  | irq flag => rw [flag]; simp only [GLB, GLB_IRQ_STAT_EVENT]; omega
  | linkLock => simp only [GLB, GLB_CLKSTAT_LINK_LOCK]; omega

theorem aside_HP (p : Fin 4) {i : Nat} (low : i < 0x1000) (w : Word) : ResetAside fun s => rg s (HP p + i) = w where
  field v s fld hs := (rg_fset_ne _ _ v s (fld.ne_HP p low)).trans hs
  parts _ _ _ _ hs := hs
  moves _ _ _ hs := hs
  tables _ _ _ _ _ _ _ hs := hs
  chans _ _ _ hs := hs
  phys _ _ _ hs := hs

theorem HP_ne {p q : Fin 4} (ne : q ≠ p) {i j : Nat} (low : i < 0x1000) (low' : j < 0x1000) : HP q + i ≠ HP p + j := by
  have apart : q.val ≠ p.val := fun e => ne (Fin.ext e)
  unfold HP
  omega

theorem rg_toDetect_ne {p q : Fin 4} (ne : q ≠ p) {i : Nat} (low : i < 0x1000) (s : State) : rg (toDetect p s) (HP q + i) = rg s (HP q + i) :=
  toDetect_aside (aside_HP q low _) rfl p fun _ _ small hs => (rg_fset_ne _ _ _ _ (HP_ne ne low small)).trans hs

theorem rg_toDetect_spared (p : Fin 4) {a : Nat} (spared : Spared a) (s : State) : rg (toDetect p s) a = rg s a :=
  toDetect_aside (aside_rg spared _) rfl p fun _ _ small hs => (rg_fset_ne _ _ _ _ (by
    have port := p.isLt
    unfold Spared at spared
    simp only [HP]
    simp only [GLB, GLB_IRQ_STAT_EVENT, GLB_CLKSTAT_LINK_LOCK] at spared
    omega)).trans hs

/-! ### `sleep resume` (14 R412) -/

/-- Every enabled port that is on and DOWN begins to train. -/
def portsBegun (s : State) : State :=
  forAll allPorts (fun p s => onlyIf (fbit s (HP p) HP_CTL_EN && domState s (19 + p.val) == 2 && portSt s p == PORT_DOWN) (toDetect p) s) s

theorem portsBegun_inv {β : Type} {g : State → β} (kept : ∀ p s, g (toDetect p s) = g s) (s : State) : g (portsBegun s) = g s :=
  forAll_inv g _ _ s fun p _ => onlyIf_inv g _ _ _ fun y => kept p y

/-- A port that is to train does so, whatever the ports before it have done. -/
structure ToTrain (p : Fin 4) (s : State) : Prop where
  en : fbit s (HP p) HP_CTL_EN = true
  on : domState s (19 + p.val) = 2
  state : portSt s p = PORT_DOWN ∨ portSt s p = PORT_DETECT

theorem domState_toDetect (p : Fin 4) {d : Nat} (low : d < 23) (s : State) : domState (toDetect p s) d = domState s d :=
  fget_of_rg (rg_toDetect_spared p (.inr (.inr (by simp only [PWR, Fld.nth, PWR_DOMSTAT_STATE]; omega))) s)

theorem ToTrain.toDetect {p : Fin 4} {s : State} (h : ToTrain p s) (b : Fin 4) : ToTrain p (toDetect b s) := by
  refine ⟨?_, (domState_toDetect b (by omega) s).trans h.on, ?_⟩
  · by_cases own : p = b
    · subst own
      exact (congrArg (· != 0) (fget_HP_toDetect p (by decide) s)).trans h.en
    · exact (fbit_of_rg (rg_toDetect_ne own (by decide) s)).trans h.en
  · by_cases own : p = b
    · subst own
      exact .inr (portSt_toDetect p s)
    · have same : portSt (Machine.toDetect b s) p = portSt s p := fget_of_rg (rg_toDetect_ne own (by decide) s)
      rw [same]
      exact h.state

theorem portsBegun_detect {p : Fin 4} {s : State} (h : ToTrain p s) : portSt (portsBegun s) p = PORT_DETECT := by
  refine forAll_reaches_of (I := ToTrain p) (P := fun s => portSt s p = PORT_DETECT) (List.mem_finRange p) (fun b y hy => onlyIf_keeps_prop (P := ToTrain p) _ _ hy (hy.toDetect b)) (fun y hy => ?_) (fun b y hy => ?_) h
  · rcases hy.state with down | detect
    · unfold onlyIf
      rw [if_pos (by simp [hy.en, hy.on, down])]
      exact portSt_toDetect p y
    · refine onlyIf_keeps_prop (P := fun s => portSt s p = PORT_DETECT) _ _ detect (portSt_toDetect p y)
  · refine onlyIf_keeps_prop (P := fun s => portSt s p = PORT_DETECT) _ _ hy ?_
    by_cases own : p = b
    · subst own
      exact portSt_toDetect p y
    · exact (fget_of_rg (rg_toDetect_ne own (by decide) y)).trans hy

/-- What neither the training of ports nor the moves of frames change, of all that a resume looks at. -/
structure CoreSame (r s : State) : Prop where
  pwr : s.pwr = r.pwr
  ans : s.con.ans = r.con.ans
  d8 : s.d8 = r.d8
  dram : s.dram = r.dram
  caravans : s.caravans = r.caravans
  streams : s.streams = r.streams
  phys : s.phys = r.phys
  regs : ∀ a, Spared a → rg s a = rg r a
  ports : ∀ (p : Fin 4) i, i < 0x1000 → rg s (HP p + i) = rg r (HP p + i)
  states : ∀ c, chState s c = chState r c
  lost : ∀ c : Fin 16, (s.chan c).lost = (r.chan c).lost

theorem CoreSame.refl (s : State) : CoreSame s s := ⟨rfl, rfl, rfl, rfl, rfl, rfl, rfl, fun _ _ => rfl, fun _ _ _ => rfl, fun _ => rfl, fun _ => rfl⟩

theorem coreSame_aside (r : State) : MoveAside (CoreSame r) where
  field v s fld hs := { hs with
    regs := fun a spared => (rg_fset_ne _ _ v s (fld.ne spared)).trans (hs.regs a spared)
    ports := fun p i low => (rg_fset_ne _ _ v s (fld.ne_HP p low)).trans (hs.ports p i low)
    states := fun c => (fld.chState_fset c v s).trans (hs.states c) }
  parts _ _ _ _ hs := { hs with }
  moves _ _ _ hs := { hs with }
  chans _ _ kept hs := { hs with lost := fun c => (kept c).1.trans (hs.lost c) }

theorem coreSame_console (r : State) : ∀ s (c : ConState), CoreSame r s → c.ans = s.con.ans → CoreSame r { s with con := c } := fun _ _ hs ans => { hs with ans := ans.trans hs.ans }

theorem CoreSame.members_eq {r s : State} (h : CoreSame r s) : members s = members r :=
  members_of_rg (h.regs _ (by unfold Spared; decide)) (h.regs _ (by unfold Spared; decide))

theorem CoreSame.waits {r s : State} (h : CoreSame r s) (waits : membersWait r) : (members s).any (fun c => !(s.chan c).lost && !inService s c) = true := by
  obtain ⟨c, member, kept, out⟩ := waits
  refine List.any_eq_true.mpr ⟨c, h.members_eq.symm ▸ member, ?_⟩
  have same : inService s c = inService r c := by
    unfold inService
    rw [h.states, phy_congr h.phys]
  rw [h.lost, kept, same, out]
  rfl

theorem CoreSame.quiet {r s : State} (h : CoreSame r s) (quiet : settled r) : settled s := settled_congr quiet h.caravans h.streams

theorem pinRefill_coreSame {r s : State} (h : CoreSame r s) : CoreSame r (pinRefill s) := pinRefill_aside (coreSame_aside r) h (fun y c ans hy => coreSame_console r y c hy ans)

/-- The resume has begun: the channels in self-refresh re-lock, and ports train. -/
def resumeBegun (s : State) : State := portsBegun (relockRest { s with pwr := { s.pwr with wake := some .resuming } })

theorem resumeVerb_ready {s : State} (ready : verbReady s = true) : resumeVerb s =
    if s.pwr.wake ≠ some .awaiting then answer [er491 s] s else if !s.pwr.pll then answer [erLn 491 "wrong state" [("state", .s "fio")]] s
    else
      let s := { s with pwr := { s.pwr with wake := some .resuming } }
      let s := if aonStart s = 5 then markReplay (emitReset true (warmCause .pfail s)) else s
      let s := onlyIf (aonStart s = 5) (fun s => { s with pwr := { s.pwr with warm := afterReset s } }) s
      resumeCheck (pinRefill (portsBegun (relockRest s))) := by
  simp only [verbReady, Bool.and_eq_true, Bool.not_eq_eq_eq_not, Bool.not_true] at ready
  obtain ⟨⟨⟨on, none_⟩, idle⟩, fine⟩ := ready
  have line := Option.isNone_iff_eq_none.mp fine
  unfold resumeVerb
  rw [if_neg (by simp [on, none_, idle]), line]
  rfl

theorem resumeVerb_begins {s : State} (ready : verbReady s = true) (waits : s.pwr.wake = some .awaiting) (pll : s.pwr.pll = true) (start : aonStart s = 4) :
    resumeVerb s = resumeCheck (pinRefill (resumeBegun s)) := by
  have start' : aonStart { s with pwr := { s.pwr with wake := some .resuming } } = 4 := start
  rw [resumeVerb_ready ready, if_neg (by simp [waits]), if_neg (by simp [pll])]
  unfold resumeBegun
  generalize ({ s with pwr := { s.pwr with wake := some .resuming } } : State) = y at start' ⊢
  dsimp only
  rw [if_neg (by simp [start'])]
  unfold onlyIf
  rw [if_neg (by simp [start'])]

/-- What has begun differs from the state before in the wake, in the channels' PHYs and in the ports alone. -/
structure ResumeBegun (s t : State) : Prop where
  pwr : t.pwr = { s.pwr with wake := some .resuming }
  ans : t.con.ans = s.con.ans
  d8 : t.d8 = s.d8
  dram : t.dram = s.dram
  chans : t.chans = s.chans
  caravans : t.caravans = s.caravans
  streams : t.streams = s.streams
  regs : ∀ a, Spared a → rg t a = rg s a
  states : ∀ c, chState t c = chState s c
  relock : ∀ c : Fin 16, chState s c = 4 → (t.phy c).relock = true
  parkDue : ∀ c : Fin 16, (t.phy c).parkDue = (s.phy c).parkDue
  detect : ∀ p : Fin 4, ToTrain p s → portSt t p = PORT_DETECT

theorem relockRest_parkDue (c : Fin 16) (s : State) : ((relockRest s).phy c).parkDue = (s.phy c).parkDue := by
  refine forAll_keeps_prop (P := fun y => (y.phy c).parkDue = (s.phy c).parkDue) _ _ rfl fun b y hy => onlyIf_keeps_prop (P := fun y => (y.phy c).parkDue = (s.phy c).parkDue) _ _ hy ?_
  by_cases own : c = b
  · subst own
    rw [updPhy_phy]
    exact hy
  · rw [updPhy_phy_ne own]
    exact hy

theorem chState_toDetect (p : Fin 4) (c : Fin 16) (s : State) : chState (toDetect p s) c = chState s c :=
  toDetect_aside (aside_chState c _) rfl p fun v y low hy => (chState_HP p low c v y).trans hy

theorem resumeBegun_resumeBegun (s : State) : ResumeBegun s (resumeBegun s) := by
  have begun : chState { s with pwr := { s.pwr with wake := some .resuming } } = chState s := rfl
  unfold resumeBegun
  have ports {β : Type} {g : State → β} (kept : ∀ p s, g (toDetect p s) = g s) (rest : ∀ (s : State) (l : Vector PhyState 16), g { s with phys := l } = g s) (y : State) : g (portsBegun (relockRest y)) = g y :=
    (portsBegun_inv kept _).trans (relockRest_inv rest y)
  refine ⟨?_, ?_, ?_, ?_, ?_, ?_, ?_, fun a spared => ?_, fun c => ?_, fun c rest => ?_, fun c => ?_, fun p train => ?_⟩
  · exact ports (g := (·.pwr)) (fun p s => toDetect_pwr p s) (fun _ _ => rfl) _
  · exact ports (g := (·.con.ans)) (fun p s => congrArg ConState.ans (toDetect_con p s)) (fun _ _ => rfl) _
  · exact ports (g := (·.d8)) (fun p s => toDetect_d8 p s) (fun _ _ => rfl) _
  · exact ports (g := (·.dram)) (fun p s => toDetect_dram p s) (fun _ _ => rfl) _
  · exact ports (g := (·.chans)) (fun p s => toDetect_chans p s) (fun _ _ => rfl) _
  · exact ports (g := (·.caravans)) (fun p s => toDetect_caravans p s) (fun _ _ => rfl) _
  · exact ports (g := (·.streams)) (fun p s => toDetect_streams p s) (fun _ _ => rfl) _
  · exact ports (g := (rg · a)) (fun p s => rg_toDetect_spared p spared s) (fun _ _ => rfl) _
  · exact ports (g := (chState · c)) (fun p s => chState_toDetect p c s) (fun _ _ => rfl) _
  · rw [phy_congr (portsBegun_inv (g := (·.phys)) (fun p s => toDetect_phys p s) _)]
    exact relockRest_relock (congrFun begun c ▸ rest)
  · rw [phy_congr (portsBegun_inv (g := (·.phys)) (fun p s => toDetect_phys p s) _)]
    exact relockRest_parkDue c _
  · have woken : ToTrain p { s with pwr := { s.pwr with wake := some .resuming } } := { train with }
    exact portsBegun_detect (forAll_keeps_prop (P := ToTrain p) _ _ woken fun _ y hy => onlyIf_keeps_prop (P := ToTrain p) _ _ hy { hy with })

/-- `sleep resume` on the core PLL: ports and channels begin, and the answer waits for the channels. -/
theorem sleepResume_begins {s : State} (ready : verbReady s = true) (awaiting : s.pwr.wake = some .awaiting) (pll : s.pwr.pll = true) (start : aonStart s = 4) (waits : membersWait s) (quiet : settled s) :
    ∃ t, settle (resumeVerb s) = t ∧ CoreSame (resumeBegun s) t := by
  have begun := resumeBegun_resumeBegun s
  have waits' : membersWait (resumeBegun s) := by
    obtain ⟨c, member, kept, out⟩ := waits
    refine ⟨c, members_of_rg (begun.regs _ (by unfold Spared; decide)) (begun.regs _ (by unfold Spared; decide)) ▸ member, ?_, ?_⟩
    · rw [chan_congr begun.chans]
      exact kept
    · unfold inService at out ⊢
      rw [begun.states, begun.parkDue]
      exact out
  have quiet' : settled (resumeBegun s) := settled_congr quiet begun.caravans begun.streams
  have wake := congrArg PwrState.wake begun.pwr
  rw [resumeVerb_begins ready awaiting pll start]
  generalize resumeBegun s = x at *
  have refilled := pinRefill_coreSame (CoreSame.refl x)
  generalize pinRefill x = y at refilled
  have waiting : resumeCheck y = y := if_pos (.inr (refilled.waits waits'))
  rw [waiting, settle_settled (refilled.quiet quiet')]
  exact ⟨y, rfl, refilled⟩

/-! ### `clock run` (14 R411, 17 R500) -/

/-- The clocks run on the core PLL. -/
def clockLocked (s : State) : State :=
  fset GLB GLB_CLKSTAT_CORE_LOCK 1 (fset GLB GLB_CLKSTAT_CORE_ON_PLL 1 (fset GLB GLB_CLKSTAT_MGT_ON_PLL 1 (fset GLB GLB_CLKSTAT_DTIME_FINE 1
    { s with pwr := { s.pwr with pll := true, warm := if s.pwr.warm == .noClock then afterReset s else s.pwr.warm } })))

theorem clockRun_locked {s : State} (off : s.pwr.pll = false) : clockRun true s = (if s.pwr.warm == .noClock then relockRest (clockLocked s) else clockLocked s, okLn [("core", .s "pll")]) := by
  unfold clockRun
  rw [if_neg (by simp [off]), if_neg (by simp)]
  rfl

theorem clockLocked_flags (s : State) : fbit (clockLocked s) GLB GLB_CLKSTAT_CORE_LOCK = true ∧ fbit (clockLocked s) GLB GLB_CLKSTAT_CORE_ON_PLL = true ∧ fbit (clockLocked s) GLB GLB_CLKSTAT_MGT_ON_PLL = true ∧
    fbit (clockLocked s) GLB GLB_CLKSTAT_DTIME_FINE = true := by
  unfold clockLocked fbit
  refine ⟨?_, ?_, ?_, ?_⟩
  · rw [fget_fset _ _ _ _ (by decide)]
    rfl
  · rw [fget_fset_apart _ (by decide), fget_fset _ _ _ _ (by decide)]
    rfl
  · rw [fget_fset_apart _ (by decide), fget_fset_apart _ (by decide), fget_fset _ _ _ _ (by decide)]
    rfl
  · rw [fget_fset_apart _ (by decide), fget_fset_apart _ (by decide), fget_fset_apart _ (by decide), fget_fset _ _ _ _ (by decide)]
    rfl

theorem chState_clockLocked (c : Fin 16) (s : State) : chState (clockLocked s) c = chState s c := by
  have beside : ∀ f : Fld, f.off < 0x1000 → CH c + CH_STATUS_STATE.off ≠ GLB + f.off := fun f low => by unfold CH GLB; omega
  unfold clockLocked chState
  rw [fget_fset_ne _ _ _ _ _ _ (beside _ (by decide)), fget_fset_ne _ _ _ _ _ _ (beside _ (by decide)), fget_fset_ne _ _ _ _ _ _ (beside _ (by decide)), fget_fset_ne _ _ _ _ _ _ (beside _ (by decide))]
  rfl

/-- What the switch to the core PLL leaves, and what it lets go on. -/
structure ClockRuns (s t : State) : Prop where
  pll : t.pwr.pll = true
  lock : fbit t GLB GLB_CLKSTAT_CORE_LOCK = true
  core : fbit t GLB GLB_CLKSTAT_CORE_ON_PLL = true
  mgt : fbit t GLB GLB_CLKSTAT_MGT_ON_PLL = true
  fine : fbit t GLB GLB_CLKSTAT_DTIME_FINE = true
  goes : s.pwr.warm = .noClock → t.pwr.warm = afterReset s ∧ ∀ c : Fin 16, chState s c = 4 → (t.phy c).relock = true
  stays : s.pwr.warm ≠ .noClock → t.pwr.warm = s.pwr.warm ∧ t.phys = s.phys
  d8 : t.d8 = s.d8
  store : sameStore s t

theorem clockRuns (s : State) : ClockRuns s (if s.pwr.warm == .noClock then relockRest (clockLocked s) else clockLocked s) := by
  obtain ⟨lock, core, mgt, fine⟩ := clockLocked_flags s
  have states := fun c => chState_clockLocked c s
  have pwr : (clockLocked s).pwr = { s.pwr with pll := true, warm := if s.pwr.warm == .noClock then afterReset s else s.pwr.warm } := rfl
  have phys : (clockLocked s).phys = s.phys := rfl
  have d8 : (clockLocked s).d8 = s.d8 := rfl
  have store : sameStore s (clockLocked s) := ⟨rfl, rfl, rfl, rfl, rfl, rfl⟩
  generalize clockLocked s = x at *
  by_cases wait : s.pwr.warm = .noClock
  · have waits : (s.pwr.warm == .noClock) = true := by simp [wait]
    rw [waits, if_pos rfl] at pwr
    rw [waits, if_pos rfl]
    have view {β : Type} {g : State → β} (rest : ∀ (s : State) (l : Vector PhyState 16), g { s with phys := l } = g s) : g (relockRest x) = g x := relockRest_inv rest x
    have pwr' := (view (g := (·.pwr)) fun _ _ => rfl).trans pwr
    refine ⟨congrArg PwrState.pll pwr', (view (g := (fbit · GLB GLB_CLKSTAT_CORE_LOCK)) fun _ _ => rfl).trans lock, (view (g := (fbit · GLB GLB_CLKSTAT_CORE_ON_PLL)) fun _ _ => rfl).trans core,
      (view (g := (fbit · GLB GLB_CLKSTAT_MGT_ON_PLL)) fun _ _ => rfl).trans mgt, (view (g := (fbit · GLB GLB_CLKSTAT_DTIME_FINE)) fun _ _ => rfl).trans fine,
      fun _ => ⟨congrArg PwrState.warm pwr', fun c rest => relockRest_relock ((states c).trans rest)⟩, fun other => absurd wait other, (view (g := (·.d8)) fun _ _ => rfl).trans d8, ?_⟩
    exact (view (g := fun t => sameStore s t) fun _ _ => rfl).symm ▸ store
  · have goes : (s.pwr.warm == .noClock) = false := by simpa using wait
    rw [goes, if_neg Bool.false_ne_true] at pwr
    rw [goes, if_neg Bool.false_ne_true]
    exact ⟨congrArg PwrState.pll pwr, lock, core, mgt, fine, fun w => absurd w wait, fun _ => ⟨(congrArg PwrState.warm pwr).trans rfl, phys⟩, d8, store⟩

theorem elapse_kept (n : Nat) (s : State) : (elapse n s).pwr = s.pwr ∧ (elapse n s).d8 = firstCycle8 s (s.d8 + n) ∧ sameStore s (elapse n s) := ⟨rfl, rfl, rfl, rfl, rfl, rfl, rfl, rfl⟩

/-! ### The statement -/

/-- Settles O9: the wake ends in RUN, in the warm reset that waited, or in a cold start; a resume and the switch of the clock are read off what they begin. -/
theorem resumeFromBanked : Obligations.ResumeFromBanked := by
  unfold Obligations.ResumeFromBanked
  refine ⟨?awaits, ?resets, ?bad, ?resume, ?refused, ?locked, ?noLock, ?onPll⟩
  case awaits =>
    intro s wake ramps queue after
    have e : bankImage true s = imageTold s := (bankImage_good wake ramps queue).trans (if_pos (by rw [after]; rfl))
    have pwr := imageTold_pwr s
    obtain ⟨sub, d8, store⟩ := imageTold_rest s
    exact ⟨_, congrArg Host.Outcome.next e, congrArg PwrState.mode pwr, congrArg PwrState.wake pwr, congrArg PwrState.fresh pwr, sub, d8, store⟩
  case resets =>
    intro c s wake ramps queue after room
    have e : bankImage true s = exitDone (imageDue s) := (bankImage_good wake ramps queue).trans (if_neg (by simp [after]))
    obtain ⟨t, done, facts⟩ := exitDone_imageDue after room
    exact ⟨t, congrArg Host.Outcome.next (e.trans done), facts⟩
  case bad =>
    intro s wake ramps queue
    obtain ⟨was, start⟩ := coldBegin_coldWas .aon (start := 3) (by decide) s
    exact ⟨_, congrArg Host.Outcome.next (bankImage_bad wake ramps queue), was, start⟩
  case resume =>
    intro s ready awaiting pll start waits quiet
    obtain ⟨t, e, same⟩ := sleepResume_begins ready awaiting pll start waits quiet
    have begun := resumeBegun_resumeBegun s
    have none_ : s.con.ans = [] := verbReady_idle ready
    refine ⟨t, congrArg Host.Outcome.next e, ?_, same.ans.trans (begun.ans.trans none_), fun c rest => ?_, fun p en on down => ?_, same.d8.trans begun.d8, same.dram.trans begun.dram⟩
    · rw [same.pwr, begun.pwr]
    · rw [phy_congr same.phys]
      exact begun.relock c rest
    · have state : portSt t p = portSt (resumeBegun s) p := fget_of_rg (same.ports p _ (by decide))
      exact state.trans (begun.detect p ⟨en, on, .inl down⟩)
  case refused =>
    intro s ready other quiet
    have e : resumeVerb s = answer [er491 s] s := (resumeVerb_ready ready).trans (if_pos other)
    exact ⟨_, congrArg Host.Outcome.next ((congrArg settle e).trans (settle_settled (settled_answer _ quiet))), answer_ans _ _, answer_pwr _ _, sameStore_answer _ _⟩
  case locked =>
    intro s ready off
    have e : exec (.clockRun true) s = _ := congrArg Host.Outcome.next (verb_answers ready (clockRun_locked off))
    have run := clockRuns s
    generalize (if s.pwr.warm == .noClock then relockRest (clockLocked s) else clockLocked s) = x at e run
    have flag : ∀ f : Fld, f.off = GLB_CLKSTAT_CORE_LOCK.off → fbit (answer [okLn [("core", .s "pll")]] x) GLB f = fbit x GLB f := fun f at_ => fbit_of_rg (rg_answer (by rw [at_]; decide))
    refine ⟨_, e, ?_, answer_ans _ _, (flag _ rfl).trans run.lock, (flag GLB_CLKSTAT_CORE_ON_PLL rfl).trans run.core, (flag GLB_CLKSTAT_MGT_ON_PLL rfl).trans run.mgt, (flag GLB_CLKSTAT_DTIME_FINE rfl).trans run.fine, fun wait => ?_, fun other => ?_, (answer_d8 _ _).trans run.d8, sameStore_trans run.store (sameStore_answer _ _)⟩
    · rw [answer_pwr, run.pll]
    · rw [answer_pwr]
      exact ⟨(run.goes wait).1, fun c rest => (congrArg PhyState.relock (phy_congr (answer_phys _ x) c)).trans ((run.goes wait).2 c rest)⟩
    · rw [answer_pwr, answer_phys]
      exact run.stays other
  case noLock =>
    intro s ready off
    have e : exec (.clockRun false) s = .next (answer [erLn 492 "clock refused" [("reason", .s "nolock")]] (elapse 800000 s)) :=
      congrArg Host.Outcome.next (verb_answers ready ((if_neg (by simp [off])).trans (if_pos rfl)))
    obtain ⟨pwr, d8, store⟩ := elapse_kept 800000 s
    exact ⟨_, e, answer_ans _ _, (answer_pwr _ _).trans pwr, (answer_d8 _ _).trans d8, sameStore_trans store (sameStore_answer _ _)⟩
  case onPll =>
    intro lock s ready on
    have e : exec (.clockRun lock) s = .next (answer [erLn 492 "clock refused" [("reason", .s "state")]] s) := congrArg Host.Outcome.next (verb_answers ready (if_pos on))
    exact ⟨_, e, answer_ans _ _, answer_pwr _ _, answer_d8 _ _, sameStore_answer _ _⟩

end Sys2Proof.Proofs

/-! PROOF. The ledger's windows, their action points, and the hold-up declaration (12 R353 to R362). -/

namespace Sys2Proof.Proofs
open Sys2Proof Sys2Proof.Machine Sys2Proof.Laws

/-! ### Time that does not pass, and registers of LED -/

theorem advanceToNs_past {n : Nat} {s : State} (past : 8 * n ≤ s.d8) : (advanceToNs n s).d8 = s.d8 := by
  have none_ : n * 8 - s.d8 = 0 := by omega
  have cycles : cdiv (n * 8 - s.d8) (coreTick8 s) = 0 := by
    unfold cdiv coreTick8
    rw [none_]
    split
    · rfl
    · rfl
  show s.d8 + cdiv (n * 8 - s.d8) (coreTick8 s) * coreTick8 s = s.d8
  rw [cycles, Nat.zero_mul, Nat.add_zero]

/-- While no time passes, the sums of a window stay. -/
theorem advanceToNs_sums {n : Nat} {s : State} (past : 8 * n ≤ s.d8) : (advanceToNs n s).led.stPj8 = s.led.stPj8 := by
  have d8 := advanceToNs_past past
  have passed : s.d8 + cdiv (n * 8 - s.d8) (coreTick8 s) * coreTick8 s = s.d8 := d8
  have none_ : cdiv (n * 8 - s.d8) (coreTick8 s) * coreTick8 s = 0 := by omega
  show s.led.stPj8 + (staticMw s + sliceMw s) * (cdiv (n * 8 - s.d8) (coreTick8 s) * coreTick8 s) = s.led.stPj8
  rw [none_, Nat.mul_zero, Nat.add_zero]

theorem fget_fmax (b : Nat) (f : Fld) {v : Nat} (fits : f.lsb + f.width ≤ 32) (small : v < 2 ^ f.width) (s : State) : fget (fmax b f v s) b f = max (fget s b f) v := by
  unfold fmax
  split
  next more => rw [fget_fset _ _ _ _ fits, Nat.mod_eq_of_lt small, Nat.max_eq_right (Nat.le_of_lt more)]
  next least => rw [Nat.max_eq_left (Nat.le_of_not_lt least)]

theorem fget_fmax_ne {b c : Nat} {f g : Fld} (ne : b + f.off ≠ c + g.off) (v : Nat) (s : State) : fget (fmax c g v s) b f = fget s b f := by
  unfold fmax
  split
  · exact fget_fset_ne _ _ _ _ _ _ ne
  · rfl

theorem fget_emit_LED {f : Fld} (low : f.off < 0x1000) (h : String) (x : List (String × FVal)) (s : State) : fget (emit h x s) LED f = fget s LED f :=
  fget_emit _ _ _ _ _ (by simp only [LED, GLB]; omega) (by simp only [LED, CON, CON_STATUS_EV_LOST]; omega) (by simp only [LED, CON, CON_EVLOST_COUNT]; omega)

/-! ### The end of a window (12 R353, R354) -/

/-- The window's energy is shown. -/
def windowShown (e : Nat) (s : State) : State := fset LED LED_WIN_E_NJ (min e (2 ^ 32 - 1)) (fmax LED LED_WINMAX_E_NJ (min e (2 ^ 32 - 1)) s)

/-- The energy of the window that ends, in nJ. -/
def windowNj (s : State) : Nat := cdiv (s.led.opPj * 8 + s.led.stPj8) 8000

/-- The window has ended. -/
def windowTurned (s : State) : State :=
  { windowShown (windowNj s) s with led := { s.led with
      winAt := s.ns / 10240 * 10240, eLast := windowNj s, xLast := s.led.defPj / 1000, bLast := budgetNj s.led.cap, due := true,
      opPj := 0, stPj8 := 0, defPj := 0, lastMan := s.led.winMan, winMan := [],
      coef := coefTable (windowShown (windowNj s) s), cap := capWord (windowShown (windowNj s) s) } }

theorem fmax_inv {β : Type} {g : State → β} {b : Nat} {f : Fld} (reg : ∀ v s, g (fset b f v s) = g s) (v : Nat) (s : State) : g (fmax b f v s) = g s := by
  unfold fmax
  split
  · exact reg v s
  · rfl

theorem windowShown_inv {β : Type} {g : State → β} (reg : ∀ f v s, g (fset LED f v s) = g s) (e : Nat) (s : State) : g (windowShown e s) = g s := (reg _ _ _).trans (fmax_inv (reg _) _ s)

theorem windowEnd_turns {s : State} (run : dtimeRuns s = true) : windowEnd s = windowTurned (advanceToNs (s.led.winAt + 10240) s) := by
  have turned : windowEnd s = let s := advanceToNs (s.led.winAt + 10240) s
      let t := windowShown (windowNj s) s
      { t with led := { t.led with
        winAt := t.ns / 10240 * 10240, eLast := windowNj s, xLast := t.led.defPj / 1000, bLast := budgetNj s.led.cap, due := true,
        opPj := 0, stPj8 := 0, defPj := 0, lastMan := t.led.winMan, winMan := [],
        coef := coefTable t, cap := capWord t } } := if_neg (by simp [run])
  rw [turned]
  generalize advanceToNs (s.led.winAt + 10240) s = y
  have led : (windowShown (windowNj y) y).led = y.led := windowShown_inv (g := State.led) (fun _ _ _ => rfl) _ y
  have ns : (windowShown (windowNj y) y).ns = y.ns := windowShown_inv (g := State.ns) (fun _ _ _ => rfl) _ y
  unfold windowTurned
  dsimp only
  rw [led, ns]

/-- What the end of a window shows and starts again. -/
structure WindowTurned (s t : State) : Prop where
  eLast : t.led.eLast = windowNj s
  bLast : t.led.bLast = s.led.cap * 2560
  opPj : t.led.opPj = 0
  stPj8 : t.led.stPj8 = 0
  defPj : t.led.defPj = 0
  due : t.led.due = true
  cap : t.led.cap = max 240 (fget s LED LED_CAP_CAP)
  winAt : t.led.winAt = s.ns / 10240 * 10240
  shown : fget t LED LED_WIN_E_NJ = min (windowNj s) (2 ^ 32 - 1)
  most : fget t LED LED_WINMAX_E_NJ = max (fget s LED LED_WINMAX_E_NJ) (min (windowNj s) (2 ^ 32 - 1))
  d8 : t.d8 = s.d8
  store : sameStore s t

theorem windowTurned_windowTurned (s : State) : WindowTurned s (windowTurned s) := by
  have small : min (windowNj s) (2 ^ 32 - 1) < 2 ^ LED_WIN_E_NJ.width := by
    have : (2 : Nat) ^ LED_WIN_E_NJ.width = 4294967296 := rfl
    omega
  have cap : fget (windowShown (windowNj s) s) LED LED_CAP_CAP = fget s LED LED_CAP_CAP := (fget_fset_ne _ _ _ _ _ _ (by decide)).trans (fget_fmax_ne (by decide) _ s)
  have shown : fget (windowShown (windowNj s) s) LED LED_WIN_E_NJ = min (windowNj s) (2 ^ 32 - 1) := (fget_fset _ _ _ _ (by decide)).trans (Nat.mod_eq_of_lt small)
  have most : fget (windowShown (windowNj s) s) LED LED_WINMAX_E_NJ = max (fget s LED LED_WINMAX_E_NJ) (min (windowNj s) (2 ^ 32 - 1)) :=
    (fget_fset_ne _ _ _ _ _ _ (by decide)).trans (fget_fmax LED LED_WINMAX_E_NJ (by decide) small s)
  have d8 : (windowShown (windowNj s) s).d8 = s.d8 := windowShown_inv (g := State.d8) (fun _ _ _ => rfl) _ s
  have store : sameStore s (windowShown (windowNj s) s) := fset_keeps (closed_sameStore s) _ _ _ _ (fmax_keeps (closed_sameStore s) _ _ _ s (sameStore_refl s))
  unfold windowTurned
  generalize windowShown (windowNj s) s = y at *
  exact ⟨rfl, rfl, rfl, rfl, rfl, rfl, congrArg (max 240) cap, rfl, shown, most, d8, store⟩

/-! ### The level (12 R357, R359) -/

/-- What a change of the level leaves. -/
structure Levelled (v : Nat) (s t : State) : Prop where
  level : fget t LED LED_STATUS_LEVEL = v
  led : t.led = s.led
  d8 : t.d8 = s.d8
  store : sameStore s t
  other : ∀ f : Fld, f.off < 0x1000 → f.off ≠ LED_STATUS_LEVEL.off → fget t LED f = fget s LED f

theorem setLevel_levelled {v : Nat} (small : v < 16) (s : State) : Levelled v s (setLevel v s) := by
  have set_ : Levelled v s (fset LED LED_STATUS_LEVEL v s) :=
    ⟨(fget_fset _ _ _ _ (by decide)).trans (Nat.mod_eq_of_lt small), rfl, rfl, sameStore_fset _ _ _ _, fun f _ ne => fget_fset_ne _ _ _ _ _ _ (off_ne _ ne)⟩
  have told : ∀ h x y, Levelled v s y → Levelled v s (emit h x y) := fun h x y hy =>
    ⟨(fget_emit_LED (by decide) h x y).trans hy.level, (emit_led h x y).trans hy.led, (emit_d8 h x y).trans hy.d8, emit_keeps (closed_sameStore s) h x y hy.store,
      fun f low ne => (fget_emit_LED low h x y).trans (hy.other f low ne)⟩
  have flagged : ∀ y, Levelled v s y → Levelled v s (irq GLB_IRQ_STAT_POWER y) := fun y hy =>
    ⟨(fget_fset_ne _ _ _ _ _ _ (by decide)).trans hy.level, hy.led, hy.d8, irq_keeps (closed_sameStore s) _ y hy.store,
      fun f low ne => (fget_fset_ne _ _ _ _ _ _ (by simp only [LED, GLB, GLB_IRQ_STAT_POWER]; omega)).trans (hy.other f low ne)⟩
  exact onlyIf_keeps_prop _ _ (told _ _ _ set_) (flagged _ (told _ _ _ set_))

/-- The count of windows below the budget. -/
def belowSet (n : Nat) (s : State) : State := { s with led := { s.led with below := n } }

theorem judge_over {s : State} (on : fbit s LED LED_CTL_THR_EN = true) (above : s.led.bLast < s.led.eLast) (low : fget s LED LED_STATUS_LEVEL < 9) :
    judge s = setLevel (fget s LED LED_STATUS_LEVEL + 1) (belowSet 0 s) :=
  (if_neg (by simp [on])).trans ((if_pos above).trans (if_pos low))

theorem judge_under {s : State} (on : fbit s LED LED_CTL_THR_EN = true) (under : s.led.eLast * 16 ≤ s.led.bLast * 15) : judge s =
    if holdWindows s ≤ s.led.below + 1 then (if fget s LED LED_STATUS_LEVEL = 0 then belowSet 0 s else setLevel (fget s LED LED_STATUS_LEVEL - 1) (belowSet 0 s))
    else belowSet (s.led.below + 1) s :=
  (if_neg (by simp [on])).trans ((if_neg (by omega)).trans (if_pos under))

theorem judge_off {s : State} (off : fbit s LED LED_CTL_THR_EN = false) (none_ : fget s LED LED_STATUS_LEVEL = 0) : judge s = belowSet 0 s := (if_pos (by simp [off])).trans (if_pos none_)

/-! ### The action point -/

/-- The headroom is shown. -/
def headShown (s : State) : State := fset LED LED_HEAD_H_NJ (twos32 ((s.led.bLast : Int) - ((s.led.eLast : Int) - s.led.xLast))) { s with led := { s.led with due := false } }

/-- Background work is planned into it. -/
def workPlanned (s : State) : State :=
  if fget s LED LED_STATUS_LEVEL ≠ 0 then noteLateSlices (slicesDue s) { s with led := { s.led with allow := Vector.replicate 5 (some 0) } }
  else if !fbit s LED LED_CTL_PLAN_EN then { s with led := { s.led with allow := Vector.replicate 5 none } }
  else noteLateSlices (plan s ((s.led.bLast : Int) - ((s.led.eLast : Int) - s.led.xLast)).toNat).2
    { s with led := { s.led with allow := (plan s ((s.led.bLast : Int) - ((s.led.eLast : Int) - s.led.xLast)).toNat).1 } }

theorem actionPoint_due {s : State} (due : s.led.due = true) (run : dtimeRuns s = true) :
    actionPoint s = workPlanned (headShown (judge (advanceToNs (s.led.winAt + 1024) s))) := if_neg (by simp [due, run])

/-- What the noting of waiting slices leaves. -/
theorem noteLateSlices_inv {β : Type} {g : State → β} (bist : ∀ (s : State) b, g { s with bist := b } = g s) (reg : ∀ v s, g (fset BST BST_WAITLED_COUNT v s) = g s) (l : List DueSlice) (s : State) :
    g (noteLateSlices l s) = g s := by
  refine forAll_inv g _ _ s fun x y => ?_
  unfold noteWait
  split
  · rfl
  · exact (reg _ _).trans (bist _ _)

/-- What the plan leaves: the ledger but for the allowances, the time, the registers of LED and the memories. -/
structure Planned (s t : State) : Prop where
  due : t.led.due = s.led.due
  below : t.led.below = s.led.below
  d8 : t.d8 = s.d8
  regs : ∀ f : Fld, f.off < 0x1000 → fget t LED f = fget s LED f
  store : sameStore s t

theorem noteLateSlices_led (l : List DueSlice) (s : State) : (noteLateSlices l s).led = s.led := noteLateSlices_inv (g := (·.led)) (fun _ _ => rfl) (fun _ _ => rfl) l s

theorem noteLateSlices_planned {s y : State} (h : Planned s y) (l : List DueSlice) : Planned s (noteLateSlices l y) := by
  have led := noteLateSlices_led l y
  refine ⟨(congrArg LedState.due led).trans h.due, (congrArg LedState.below led).trans h.below, (noteLateSlices_inv (g := (·.d8)) (fun _ _ => rfl) (fun _ _ => rfl) l y).trans h.d8, fun f low => ?_, ?_⟩
  · exact (noteLateSlices_inv (g := (fget · LED f)) (fun _ _ => rfl) (fun v x => fget_fset_ne _ _ _ _ v x (by simp only [LED, BST, BST_WAITLED_COUNT]; omega)) l y).trans (h.regs f low)
  · exact noteLateSlices_keeps (closed_sameStore s) l y h.store

theorem allowSet_planned (s : State) (a : Vector (Option Nat) 5) : Planned s { s with led := { s.led with allow := a } } := ⟨rfl, rfl, rfl, fun _ _ => rfl, ⟨rfl, rfl, rfl, rfl, rfl, rfl⟩⟩

theorem workPlanned_planned (s : State) : Planned s (workPlanned s) := by
  unfold workPlanned
  split
  · exact noteLateSlices_planned (allowSet_planned s _) _
  · split
    · exact allowSet_planned s _
    · exact noteLateSlices_planned (allowSet_planned s _) _

/-- With the throttle at work nothing deferrable is allowed (12 R355). -/
theorem workPlanned_throttled {s : State} (level : fget s LED LED_STATUS_LEVEL ≠ 0) : (workPlanned s).led.allow = Vector.replicate 5 (some 0) := by
  unfold workPlanned
  rw [if_pos level, noteLateSlices_led]

theorem workPlanned_free {s : State} (level : fget s LED LED_STATUS_LEVEL = 0) (off : fbit s LED LED_CTL_PLAN_EN = false) : (workPlanned s).led.allow = Vector.replicate 5 none := by
  unfold workPlanned
  rw [if_neg (not_not.mpr level), if_pos (by simp [off])]

/-- What the rest of an action point leaves of the state in which the level has been judged. -/
structure Acted (s t : State) : Prop where
  due : t.led.due = false
  below : t.led.below = s.led.below
  d8 : t.d8 = s.d8
  head : fget t LED LED_HEAD_H_NJ = twos32 ((s.led.bLast : Int) - ((s.led.eLast : Int) - s.led.xLast))
  regs : ∀ f : Fld, f.off < 0x1000 → f.off ≠ LED_HEAD_H_NJ.off → fget t LED f = fget s LED f
  store : sameStore s t

theorem twos32_lt (v : Int) : twos32 v < 2 ^ 32 := by
  unfold twos32
  omega

theorem acted (s : State) : Acted s (workPlanned (headShown s)) := by
  have head : fget (headShown s) LED LED_HEAD_H_NJ = twos32 ((s.led.bLast : Int) - ((s.led.eLast : Int) - s.led.xLast)) := (fget_fset _ _ _ _ (by decide)).trans (Nat.mod_eq_of_lt (twos32_lt _))
  have regs : ∀ f : Fld, f.off ≠ LED_HEAD_H_NJ.off → fget (headShown s) LED f = fget s LED f := fun f ne => (fget_fset_ne _ _ _ _ _ _ (off_ne _ ne)).trans rfl
  have led : (headShown s).led = { s.led with due := false } := rfl
  have d8 : (headShown s).d8 = s.d8 := rfl
  have store : sameStore s (headShown s) := ⟨rfl, rfl, rfl, rfl, rfl, rfl⟩
  have planned := workPlanned_planned (headShown s)
  generalize headShown s = y at *
  exact ⟨planned.due.trans ((congrArg LedState.due led).trans rfl), planned.below.trans ((congrArg LedState.below led).trans rfl), planned.d8.trans d8, (planned.regs _ (by decide)).trans head,
    fun f low ne => (planned.regs f low).trans (regs f ne), sameStore_trans store planned.store⟩

/-- At the action point, before the level is judged: the time has come, and nothing else of the ledger has moved. -/
structure Reached (s y : State) : Prop where
  eLast : y.led.eLast = s.led.eLast
  bLast : y.led.bLast = s.led.bLast
  xLast : y.led.xLast = s.led.xLast
  below : y.led.below = s.led.below
  regs : ∀ f, fget y LED f = fget s LED f
  d8 : y.d8 = firstCycle8 s (8 * (s.led.winAt + 1024))
  store : sameStore s y

theorem reached (s : State) : Reached s (advanceToNs (s.led.winAt + 1024) s) :=
  ⟨rfl, rfl, rfl, rfl, fun _ => rfl, advanceToNs_d8 _ s, advanceToNs_keeps (closed_sameStore s) _ s (sameStore_refl s)⟩

theorem exec_actionPoint {s : State} (due : s.led.due = true) (run : dtimeRuns s = true) :
    ∃ y, Reached s y ∧ exec .ledgerActionPoint s = .next (workPlanned (headShown (judge y))) :=
  ⟨_, reached s, congrArg Host.Outcome.next (actionPoint_due due run)⟩

theorem belowSet_kept (n : Nat) (s : State) : (belowSet n s).led.below = n ∧ (belowSet n s).d8 = s.d8 ∧ (∀ f, fget (belowSet n s) LED f = fget s LED f) ∧ sameStore s (belowSet n s) :=
  ⟨rfl, rfl, fun _ => rfl, rfl, rfl, rfl, rfl, rfl, rfl⟩

theorem headShown_level (s : State) : fget (headShown s) LED LED_STATUS_LEVEL = fget s LED LED_STATUS_LEVEL := (fget_fset_ne _ _ _ _ _ _ (by decide)).trans rfl

theorem headShown_plan (s : State) : fbit (headShown s) LED LED_CTL_PLAN_EN = fbit s LED LED_CTL_PLAN_EN := congrArg (· != 0) ((fget_fset_ne _ _ _ _ _ _ (by decide)).trans rfl)

/-- A level that has been judged to `v`, with the count of windows started again, then the rest of the action point. -/
theorem acted_levelled {v : Nat} {s y : State} (small : v < 16) (hy : Reached s y) (judged : judge y = setLevel v (belowSet 0 y)) :
    fget (workPlanned (headShown (judge y))) LED LED_STATUS_LEVEL = v ∧ (workPlanned (headShown (judge y))).led.due = false ∧ (workPlanned (headShown (judge y))).led.below = 0 ∧
      (workPlanned (headShown (judge y))).d8 = firstCycle8 s (8 * (s.led.winAt + 1024)) ∧ sameStore s (workPlanned (headShown (judge y))) := by
  rw [judged]
  obtain ⟨below, d8, -, store⟩ := belowSet_kept 0 y
  have level := setLevel_levelled small (belowSet 0 y)
  generalize belowSet 0 y = b at *
  generalize setLevel v b = z at *
  have done := acted z
  exact ⟨(done.regs _ (by decide) (by decide)).trans level.level, done.due, done.below.trans ((congrArg LedState.below level.led).trans below), done.d8.trans (level.d8.trans (d8.trans hy.d8)),
    sameStore_trans hy.store (sameStore_trans store (sameStore_trans level.store done.store))⟩

/-- A window that only counts: the level stays. -/
theorem acted_counted {n : Nat} {s y : State} (hy : Reached s y) (judged : judge y = belowSet n y) :
    fget (workPlanned (headShown (judge y))) LED LED_STATUS_LEVEL = fget s LED LED_STATUS_LEVEL ∧ (workPlanned (headShown (judge y))).led.due = false ∧
      (workPlanned (headShown (judge y))).led.below = n ∧ sameStore s (workPlanned (headShown (judge y))) := by
  rw [judged]
  obtain ⟨below, -, regs, store⟩ := belowSet_kept n y
  generalize belowSet n y = z at *
  have done := acted z
  exact ⟨(done.regs _ (by decide) (by decide)).trans ((regs _).trans (hy.regs _)), done.due, done.below.trans below, sameStore_trans hy.store (sameStore_trans store done.store)⟩

/-! ### The hold-up declaration (12 R361, R362) -/

theorem holdRefuse_kept (reason : String) (need have_ : Nat) (s : State) : (holdRefuse reason need have_ s).1.led = s.led ∧ (holdRefuse reason need have_ s).1.con = s.con ∧
    (holdRefuse reason need have_ s).1.d8 = s.d8 ∧ sameStore s (holdRefuse reason need have_ s).1 := ⟨rfl, rfl, rfl, rfl, rfl, rfl, rfl, rfl, rfl⟩

theorem holdRefuse_flag (reason : String) (need have_ : Nat) (s : State) : fbit (holdRefuse reason need have_ s).1 LED LED_STATUS_HOLD_REJ = true := by
  unfold fbit
  unfold holdRefuse holdShow
  dsimp only
  rw [fget_fset_ne _ _ _ _ _ _ (by decide), fget_fset_ne _ _ _ _ _ _ (by decide), fget_fset_ne _ _ _ _ _ _ (by decide), fget_fset _ _ _ _ (by decide)]
  rfl

/-- A declaration is in force. -/
def holdSet (uj us n dm : Nat) (s : State) : State :=
  holdShow (fset LED LED_STATUS_HOLD_OK 1 (fset MAN MAN_DIRTYMAX_LINES dm { s with led := { s.led with hold := some (uj, us, n) } }))

/-- What the declaration leaves. -/
structure HoldSet (uj us n dm : Nat) (s t : State) : Prop where
  hold : t.led.hold = some (uj, us, n)
  ok : fbit t LED LED_STATUS_HOLD_OK = true
  uj : fget t LED LED_HOLD_HOLD_UJ = uj
  us : fget t LED LED_HOLD2_HOLD_US = us
  dirty : fget t MAN MAN_DIRTYMAX_LINES = dm
  d8 : t.d8 = s.d8
  store : sameStore s t

theorem holdSet_eq (uj us n dm : Nat) (s : State) : holdSet uj us n dm s =
    fset LED LED_HOLD_HOLD_UJ uj (fset LED LED_HOLD2_HOLD_US us (fset LED LED_NHOLD_N_HOLD n
      (fset LED LED_STATUS_HOLD_OK 1 (fset MAN MAN_DIRTYMAX_LINES dm { s with led := { s.led with hold := some (uj, us, n) } })))) := rfl

theorem holdSet_holdSet {uj us dm : Nat} (n : Nat) (uj24 : uj < 2 ^ 24) (us16 : us < 2 ^ 16) (dm22 : dm ≤ 2097152) (s : State) : HoldSet uj us n dm s (holdSet uj us n dm s) := by
  rw [holdSet_eq]
  generalize hy : ({ s with led := { s.led with hold := some (uj, us, n) } } : State) = y
  have hold : y.led.hold = some (uj, us, n) := hy ▸ rfl
  have d8 : y.d8 = s.d8 := hy ▸ rfl
  have store : sameStore s y := hy ▸ ⟨rfl, rfl, rfl, rfl, rfl, rfl⟩
  refine ⟨hold, ?_, ?_, ?_, ?_, d8, store⟩
  · unfold fbit
    rw [fget_fset_ne _ _ _ _ _ _ (by decide), fget_fset_ne _ _ _ _ _ _ (by decide), fget_fset_ne _ _ _ _ _ _ (by decide), fget_fset _ _ _ _ (by decide)]
    rfl
  · exact (fget_fset _ _ _ _ (by decide)).trans (Nat.mod_eq_of_lt uj24)
  · rw [fget_fset_ne _ _ _ _ _ _ (by decide), fget_fset _ _ _ _ (by decide)]
    exact Nat.mod_eq_of_lt us16
  · rw [fget_fset_ne _ _ _ _ _ _ (by decide), fget_fset_ne _ _ _ _ _ _ (by decide), fget_fset_ne _ _ _ _ _ _ (by decide), fget_fset_ne _ _ _ _ _ _ (by decide), fget_fset _ _ _ _ (by decide)]
    exact Nat.mod_eq_of_lt (Nat.lt_of_le_of_lt dm22 (by decide))

theorem HoldSet.emit {uj us n dm : Nat} {s t : State} (h : HoldSet uj us n dm s t) (k : String) (x : List (String × FVal)) : HoldSet uj us n dm s (emit k x t) :=
  ⟨(congrArg LedState.hold (emit_led k x t)).trans h.hold, (congrArg (· != 0) (fget_emit_LED (by decide) k x t)).trans h.ok, (fget_emit_LED (by decide) k x t).trans h.uj,
    (fget_emit_LED (by decide) k x t).trans h.us, (fget_emit _ _ _ _ _ (by decide) (by decide) (by decide)).trans h.dirty, (emit_d8 k x t).trans h.d8, emit_keeps (closed_sameStore s) k x t h.store⟩

theorem holdApply_takes {uj us : Nat} {s : State} (map : mapLoaded s = true) (layout : fbit s WAY WAY_STATUS_COMMITTED = true) (enough : (wtMax s : Int) ≤ nHold s uj us)
    (covers : dirtyNeed s ≤ min (nHold s uj us - wtMax s).toNat 2097152) :
    holdApply uj us s = (emit "hold" [("dirtymax", .n (min (nHold s uj us - wtMax s).toNat 2097152))] (holdSet uj us (nHold s uj us).toNat (min (nHold s uj us - wtMax s).toNat 2097152) s),
      okLn [("n_hold", .n (nHold s uj us).toNat), ("dirtymax", .n (min (nHold s uj us - wtMax s).toNat 2097152))]) :=
  (if_neg (by simp [map])).trans ((if_neg (by simp [layout])).trans ((if_neg (by omega)).trans (if_neg (by omega))))

theorem holdApply_nomap {s : State} (map : mapLoaded s = false) (uj us : Nat) : holdApply uj us s = holdRefuse "nomap" 0 0 s := if_pos (by simp [map])

theorem exec_holdApply {uj us : Nat} {s t : State} {e : OutLn} (ready : verbReady s = true) (uj24 : uj < 2 ^ 24) (us16 : us < 2 ^ 16) (done : holdApply uj us s = (t, e)) :
    exec (.holdApply (some (uj, us))) s = .next (answer [e] t) :=
  congrArg Host.Outcome.next (verb_answers ready ((if_neg (by omega)).trans ((if_neg (by omega)).trans done)))

theorem exec_holdRegister {s : State} (on : consoleOn s = true) (block : blockOn s LED = true) (map : mapLoaded s = false) : exec (.holdApply none) s = .next (holdRefuse "nomap" 0 0 s).1 :=
  congrArg Host.Outcome.next ((if_neg (by simp [on])).trans ((if_pos block).trans (congrArg Prod.fst (holdApply_nomap map _ _))))

/-- An answer counts only in registers of the console. -/
theorem fget_answer_low {b : Nat} {f : Fld} (low : f.off < 0x1000) (block : b + 0x1000 ≤ CON ∨ CON + 0x1000 ≤ b) (l : List OutLn) (s : State) : fget (answer l s) b f = fget s b f :=
  fget_answer (by unfold Uncounted; simp only [CON, CON_LINES_COUNT, CON_ERRS_COUNT, CON_CHKERR_COUNT] at *; omega)

theorem fbit_answer_low {b : Nat} {f : Fld} (low : f.off < 0x1000) (block : b + 0x1000 ≤ CON ∨ CON + 0x1000 ≤ b) (l : List OutLn) (s : State) : fbit (answer l s) b f = fbit s b f :=
  congrArg (· != 0) (fget_answer_low low block l s)

/-- Settles O17: a window ends at its time, the action point's level follows from the branch that its energy takes, and a declaration is read off its registers. -/
theorem ledgerJudgesAndHolds : Obligations.LedgerJudgesAndHolds := by
  unfold Obligations.LedgerJudgesAndHolds
  refine ⟨?window, ?late, ?above, ?lower, ?count, ?off, ?idle, ?takes, ?nomap, ?register, ?dead⟩
  case window =>
    intro s run past
    have past' : 8 * (s.led.winAt + 10240) ≤ s.d8 := past
    have turned := windowTurned_windowTurned (advanceToNs (s.led.winAt + 10240) s)
    have d8 := advanceToNs_past past'
    have sums := advanceToNs_sums past'
    have nj : windowNj (advanceToNs (s.led.winAt + 10240) s) = cdiv (s.led.opPj * 8 + s.led.stPj8) 8000 := by
      unfold windowNj
      rw [sums]
      rfl
    have regs : ∀ f : Fld, fget (advanceToNs (s.led.winAt + 10240) s) LED f = fget s LED f := fun _ => rfl
    have cap : (advanceToNs (s.led.winAt + 10240) s).led.cap = s.led.cap := rfl
    have ns : (advanceToNs (s.led.winAt + 10240) s).ns = s.ns := congrArg (· / 8) d8
    have store : sameStore s (advanceToNs (s.led.winAt + 10240) s) := advanceToNs_keeps (closed_sameStore s) _ s (sameStore_refl s)
    have e : exec .ledgerWindowEnd s = .next _ := congrArg Host.Outcome.next (windowEnd_turns run)
    generalize advanceToNs (s.led.winAt + 10240) s = y at *
    have eLast := turned.eLast.trans nj
    exact ⟨_, e, eLast, turned.bLast.trans (congrArg (· * 2560) cap), turned.opPj, turned.stPj8, turned.defPj, turned.due, turned.cap.trans (congrArg (max 240) (regs _)), turned.winAt.trans (by rw [ns]),
      turned.shown.trans (by rw [turned.eLast]), turned.most.trans (by rw [turned.eLast, regs]), turned.d8.trans d8, sameStore_trans store turned.store⟩
  case late =>
    intro s run
    have turned := windowTurned_windowTurned (advanceToNs (s.led.winAt + 10240) s)
    have store : sameStore s (advanceToNs (s.led.winAt + 10240) s) := advanceToNs_keeps (closed_sameStore s) _ s (sameStore_refl s)
    exact ⟨_, congrArg Host.Outcome.next (windowEnd_turns run), turned.d8.trans (advanceToNs_d8 _ s), turned.due, sameStore_trans store turned.store⟩
  case above =>
    intro s due run on above low
    obtain ⟨y, hy, e⟩ := exec_actionPoint due run
    have lowY : fget y LED LED_STATUS_LEVEL < 9 := by rw [hy.regs]; exact low
    have judged := judge_over (s := y) ((congrArg (· != 0) (hy.regs _)).trans on) (by rw [hy.eLast, hy.bLast]; exact above) lowY
    rw [hy.regs] at judged
    obtain ⟨level, due', below, d8, store⟩ := acted_levelled (by omega) hy judged
    have raised : fget (headShown (judge y)) LED LED_STATUS_LEVEL ≠ 0 := by
      rw [headShown_level, judged, (setLevel_levelled (by omega) _).level]
      omega
    exact ⟨_, e, level, due', below, workPlanned_throttled raised, d8, store⟩
  case lower =>
    intro s due run on under enough level
    obtain ⟨y, hy, e⟩ := exec_actionPoint due run
    have small : fget s LED LED_STATUS_LEVEL < 16 := fget_lt s LED LED_STATUS_LEVEL
    have hold : holdWindows y ≤ y.led.below + 1 := by
      unfold holdWindows
      rw [hy.regs, hy.below]
      exact enough
    have judged : judge y = setLevel (fget s LED LED_STATUS_LEVEL - 1) (belowSet 0 y) := by
      rw [judge_under ((congrArg (· != 0) (hy.regs _)).trans on) (by rw [hy.eLast, hy.bLast]; exact under), if_pos hold, hy.regs, if_neg level]
    exact ⟨_, e, acted_levelled (by omega) hy judged⟩
  case count =>
    intro s due run on under few
    obtain ⟨y, hy, e⟩ := exec_actionPoint due run
    have hold : ¬ holdWindows y ≤ y.led.below + 1 := by
      unfold holdWindows
      rw [hy.regs, hy.below]
      exact Nat.not_le.mpr few
    have judged : judge y = belowSet (s.led.below + 1) y := by
      rw [judge_under ((congrArg (· != 0) (hy.regs _)).trans on) (by rw [hy.eLast, hy.bLast]; exact under), if_neg hold, hy.below]
    exact ⟨_, e, acted_counted hy judged⟩
  case off =>
    intro s due run off level plan
    obtain ⟨y, hy, e⟩ := exec_actionPoint due run
    have judged := judge_off (s := y) ((congrArg (· != 0) (hy.regs _)).trans off) ((hy.regs _).trans level)
    obtain ⟨level', due', -, store⟩ := acted_counted hy judged
    have kept : (judge y).led.eLast = s.led.eLast ∧ (judge y).led.bLast = s.led.bLast ∧ (judge y).led.xLast = s.led.xLast ∧ ∀ f, fget (judge y) LED f = fget s LED f := by
      rw [judged]
      exact ⟨hy.eLast, hy.bLast, hy.xLast, hy.regs⟩
    obtain ⟨eLast, bLast, xLast, regs⟩ := kept
    have head := (acted (judge y)).head
    rw [eLast, bLast, xLast] at head
    exact ⟨_, e, workPlanned_free ((headShown_level _).trans ((regs _).trans level)) ((headShown_plan _).trans ((congrArg (· != 0) (regs _)).trans plan)), due', level'.trans level, head, store⟩
  case idle =>
    intro s due
    exact congrArg Host.Outcome.next (if_pos (by simp [due]))
  case takes =>
    intro uj us s ready uj24 us16 map layout enough covers
    have e := exec_holdApply ready uj24 us16 (holdApply_takes map layout enough covers)
    have set_ := (holdSet_holdSet (nHold s uj us).toNat uj24 us16 (Nat.min_le_right (nHold s uj us - wtMax s).toNat 2097152) s).emit "hold" [("dirtymax", .n (min (nHold s uj us - wtMax s).toNat 2097152))]
    generalize emit "hold" [("dirtymax", .n (min (nHold s uj us - wtMax s).toNat 2097152))] (holdSet uj us (nHold s uj us).toNat (min (nHold s uj us - wtMax s).toNat 2097152) s) = y at *
    exact ⟨_, e, (congrArg LedState.hold (answer_led _ y)).trans set_.hold, (fbit_answer_low (by decide) (by decide) _ y).trans set_.ok, (fget_answer_low (by decide) (by decide) _ y).trans set_.uj,
      (fget_answer_low (by decide) (by decide) _ y).trans set_.us, (fget_answer_low (by decide) (by decide) _ y).trans set_.dirty, answer_ans _ y, (answer_d8 _ y).trans set_.d8,
      sameStore_trans set_.store (sameStore_answer _ y)⟩
  case nomap =>
    intro uj us s ready uj24 us16 map
    have e := exec_holdApply ready uj24 us16 (holdApply_nomap map uj us)
    obtain ⟨led, -, d8, store⟩ := holdRefuse_kept "nomap" 0 0 s
    have flag := holdRefuse_flag "nomap" 0 0 s
    change exec _ s = .next (answer [_] (holdRefuse "nomap" 0 0 s).1) at e
    generalize (holdRefuse "nomap" 0 0 s).1 = y at *
    exact ⟨_, e, (congrArg LedState.hold (answer_led _ y)).trans (congrArg LedState.hold led), (fbit_answer_low (by decide) (by decide) _ y).trans flag, answer_ans _ y, (answer_d8 _ y).trans d8,
      sameStore_trans store (sameStore_answer _ y)⟩
  case register =>
    intro s on block map
    obtain ⟨led, con, d8, store⟩ := holdRefuse_kept "nomap" 0 0 s
    exact ⟨_, exec_holdRegister on block map, congrArg LedState.hold led, holdRefuse_flag "nomap" 0 0 s, con, d8, store⟩
  case dead =>
    intro s off
    exact congrArg Host.Outcome.next (if_pos (by simp [off]))

end Sys2Proof.Proofs

/-! PROOF. How the slices of self-test begin (13 R373, R376, R383, R386). -/

namespace Sys2Proof.Proofs
open Sys2Proof Sys2Proof.Machine Sys2Proof.Laws

/-! ### Waystation slices -/

/-- The frames of the next group are taken. -/
def groupTaken (s : State) : State := forAll ((wayGroup s).filter (takeable s)) (takeTest (wayGroup s)) s

theorem takeTest_inv {β : Type} {g : State → β} (way : ∀ (s : State) w, g { s with way := w } = g s) (wmem : ∀ (s : State) m, g { s with wmem := m } = g s) (l : List Nat) (f : Nat) (s : State) :
    g (takeTest l f s) = g s := by
  have frame : ∀ f x s, g (setFrame false f x s) = g s := fun f x s => way s _
  unfold takeTest
  extract_lets x
  cases x.st
  case free => exact frame _ _ s
  case resident =>
    cases freeOutside s l
    case none => rfl
    case some d => exact (frame _ _ _).trans ((frame _ _ _).trans (forAll_inv g _ _ s fun _ x => wmem x _))
  all_goals rfl

theorem groupTaken_inv {β : Type} {g : State → β} (way : ∀ (s : State) w, g { s with way := w } = g s) (wmem : ∀ (s : State) m, g { s with wmem := m } = g s) (s : State) :
    g (groupTaken s) = g s := forAll_inv g _ _ s fun f x => takeTest_inv way wmem _ f x

/-- The march begins on the frames that were taken. -/
def marchBegun (fit skip : List Nat) (next : Nat) (z : State) : State :=
  let s := sliceStart 0 0 wayMw 2000 z
  fset BST BST_STATUS_WAY_RUN 1 { s with bist := { s.bist with
    way := some { frames := fit.filter fun f => (s.frame false f).st == .test, running := true, at8 := s.d8 }, wayNext := next, waySkip := skip } }

theorem waySliceGo_eq (s : State) : ∃ fit skip, waySliceGo s = marchBegun fit skip ((s.bist.wayNext + (16 - (wayDueFrames s).length)) % tierFrames s) (groupTaken s) := ⟨_, _, rfl⟩

/-- What a Waystation slice begins with. -/
structure MarchBegun (next : Nat) (s t : State) (x : WaySlice) : Prop where
  way : t.bist.way = some x
  running : x.running = true
  at8 : x.at8 = s.d8
  frames : ∀ f ∈ x.frames, (t.frame false f).st = .test
  run : fbit t BST BST_STATUS_WAY_RUN = true
  wayDue : t.bist.wayDue = s.bist.wayDue
  wayNext : t.bist.wayNext = next
  lastStart : t.bist.lastStart = some s.ns
  d8 : t.d8 = s.d8
  dram : t.dram = s.dram

theorem marchBegun_begun (fit skip : List Nat) (next : Nat) (z : State) : ∃ x, MarchBegun next z (marchBegun fit skip next z) x := by
  have run : fbit (marchBegun fit skip next z) BST BST_STATUS_WAY_RUN = true := congrArg (· != 0) (fget_fset _ _ _ _ (by decide))
  refine ⟨_, rfl, rfl, rfl, fun f hf => ?_, run, rfl, rfl, rfl, rfl, rfl⟩
  have test := (List.mem_filter.mp hf).2
  exact beq_iff_eq.mp test

theorem waySliceGo_begun (s : State) : ∃ x, MarchBegun ((s.bist.wayNext + (16 - (wayDueFrames s).length)) % tierFrames s) s (waySliceGo s) x := by
  obtain ⟨fit, skip, go⟩ := waySliceGo_eq s
  have d8 : (groupTaken s).d8 = s.d8 := groupTaken_inv (g := (·.d8)) (fun _ _ => rfl) (fun _ _ => rfl) s
  have dram : (groupTaken s).dram = s.dram := groupTaken_inv (g := (·.dram)) (fun _ _ => rfl) (fun _ _ => rfl) s
  have bist : (groupTaken s).bist = s.bist := groupTaken_inv (g := (·.bist)) (fun _ _ => rfl) (fun _ _ => rfl) s
  obtain ⟨x, begun⟩ := marchBegun_begun fit skip ((s.bist.wayNext + (16 - (wayDueFrames s).length)) % tierFrames s) (groupTaken s)
  rw [go]
  generalize groupTaken s = z at *
  exact ⟨x, begun.way, begun.running, begun.at8.trans d8, begun.frames, begun.run, begun.wayDue.trans (congrArg BistState.wayDue bist), begun.wayNext,
    begun.lastStart.trans (congrArg (fun n => some (n / 8)) d8), begun.d8.trans d8, begun.dram.trans dram⟩

/-! ### Lane slices -/

/-- What a lane slice begins with. -/
structure ScanBegun (p : Fin 4) (s t : State) : Prop where
  laneRun : t.bist.laneRun[p] = some s.d8
  run : bitOf (fget t BST BST_STATUS_LANE_RUN) p = true
  laneDue : t.bist.laneDue = s.bist.laneDue
  lastStart : t.bist.lastStart = some s.ns
  d8 : t.d8 = s.d8
  ports : t.ports = s.ports
  store : sameStore s t

theorem laneSliceGo_begun (p : Fin 4) (s : State) : ScanBegun p s (laneSliceGo p s) := by
  have run : bitOf (fget (laneSliceGo p s) BST BST_STATUS_LANE_RUN) p = true := bitOf_fsetBit_set _ _ _ _ (by decide) p.isLt
  have laneRun : (s.bist.laneRun.set p (some s.d8))[p] = some s.d8 := by simp
  exact ⟨laneRun, run, rfl, rfl, rfl, rfl, rfl, rfl, rfl, rfl, rfl, rfl⟩

/-! ### PHY slices -/

/-- A view of the state that the timing of a channel does not show in. -/
structure BesideChan {β : Type} (g : State → β) : Prop where
  time : ∀ n s, g (advance n s) = g s
  chans : ∀ (s : State) c, g { s with chans := c } = g s
  led : ∀ (s : State) l, g { s with led := l } = g s
  reg : ∀ (c : Fin 16) (f : Fld), f.off < 0x1000 → ∀ v s, g (fset (CH c) f v s) = g s

section
variable {β : Type} {g : State → β} (h : BesideChan g) (c : Fin 16)
include h

theorem stopIdle_besideChan (s : State) : g (stopIdle c s) = g s := by
  unfold stopIdle
  split
  · rfl
  · exact (h.chans _ _).trans (h.reg c _ (by decide) _ s)

theorem entryStop_besideChan (s : State) : g (entryStop c s) = g s := (stopIdle_besideChan h c _).trans (h.time _ s)

theorem exitPd_besideChan (r : Fin 2) (s : State) : g (exitPd c r s) = g s := by
  unfold exitPd
  split
  · exact (h.chans _ _).trans ((h.chans _ _).trans ((h.reg c _ (by decide) _ _).trans (h.reg c _ (by decide) _ s)))
  · rfl

theorem closeBanks_besideChan (p : Nat → Bool) (s : State) : g (closeBanks c p s) = g s := by
  unfold closeBanks
  extract_lets l x
  split
  · rfl
  · exact (forAll_inv g _ _ _ fun _ y => h.chans y _).trans ((h.chans _ _).trans (h.time _ s))

theorem refreshRank_besideChan (r : Fin 2) (n : Nat) (s : State) : g (refreshRank c r n s) = g s := by
  have ready : g (rankReady c r s) = g s := (h.time _ _).trans ((closeBanks_besideChan h c _ _).trans ((exitPd_besideChan h c r _).trans (entryStop_besideChan h c s)))
  rw [refreshRank_eq]
  unfold rankRefreshed
  extract_lets last counted lowered
  have counted_kept : g counted = g s := (h.led _ _).trans ((h.reg c _ (by decide) _ _).trans ready)
  exact (h.chans _ _).trans ((h.chans _ _).trans ((forAll_inv g _ _ _ fun _ y => h.chans y _).trans ((h.chans _ _).trans counted_kept)))

theorem refreshOwed_besideChan (s : State) : g (refreshOwed c s) = g s :=
  forAll_inv g _ _ s fun r x => ite_keeps (P := (g · = g x)) (fun _ => rfl) fun _ => (refreshRank_besideChan h c r _ _).trans (h.chans x _)

end

theorem besideChan_bist : BesideChan (·.bist) := ⟨fun _ _ => rfl, fun _ _ => rfl, fun _ _ => rfl, fun _ _ _ _ _ => rfl⟩

/-- A channel's rows are closed for the slice's kind. -/
def phyReady (c : Fin 16) (k : Nat) (s : State) : State :=
  if k = 4 then entryStop c s else closeBanks c (fun b => b / 32 = (if k = 1 ∨ k = 3 then 1 else 0 : Fin 2).val) (exitPd c (if k = 1 ∨ k = 3 then 1 else 0) (entryStop c s))

/-- The pause of a PHY slice has begun. -/
def phyHeld (c : Fin 16) (k : Nat) (s : State) : State :=
  deferAll c (fsetBit BST BST_STATUS_CH_RUN c.val true { s with bist := { s.bist with phyRun := s.bist.phyRun.set c (some s.d8), phyKind := s.bist.phyKind.set c k } })

theorem phySliceGo_eq (c : Fin 16) (s : State) : ∃ k, phySliceGo c s = phyHeld c k (phyReady c k (sliceStart 3 c.val phyMw (phyBudgetNs s c) s)) := ⟨_, rfl⟩

/-- What a PHY slice begins with. -/
structure PauseBegun (c : Fin 16) (s t : State) : Prop where
  phyRun : t.bist.phyRun[c] = some t.d8
  later : s.d8 ≤ t.d8
  run : bitOf (fget t BST BST_STATUS_CH_RUN) c = true
  lastStart : t.bist.lastStart = some s.ns
  store : sameStore s t

theorem RequestReg.ne_BST {a : Nat} (ha : RequestReg a) {i : Nat} (small : i < 0x1000) : BST + i ≠ a := by
  obtain low | high | ⟨c, rfl⟩ := ha
  · simp only [BST]
    omega
  · simp only [BST, JRN] at *
    omega
  · have := c.isLt
    simp only [BST, CH, CH_FILL_FILL]
    omega

theorem fget_deferAll_BST (c : Fin 16) {f : Fld} (small : f.off < 0x1000) (s : State) : fget (deferAll c s) BST f = fget s BST f := by
  have beside : BesideRequests (fun t => fget t BST f = fget s BST f) :=
    ⟨fun a w t ha => congrArg (f.get · = fget s BST f) (rg_rgSet_ne _ _ _ _ (ha.ne_BST small)), fun _ _ _ _ _ _ _ _ _ _ _ _ _ => rfl, fun _ _ _ => id, fun _ _ _ _ _ => id, fun _ _ => id⟩
  exact (deferAll_requests beside c s).mpr rfl

theorem deferAll_bist (c : Fin 16) (s : State) : (deferAll c s).bist = s.bist := deferAll_answers (g := (·.bist)) ⟨fun _ _ _ _ => rfl, fun _ _ _ _ _ _ _ _ => rfl⟩ c s

theorem phyReady_bist (c : Fin 16) (k : Nat) (s : State) : (phyReady c k s).bist = s.bist := by
  unfold phyReady
  split
  · exact entryStop_besideChan besideChan_bist c s
  · exact (closeBanks_besideChan besideChan_bist c _ _).trans ((exitPd_besideChan besideChan_bist c _ _).trans (entryStop_besideChan besideChan_bist c s))

theorem phyReady_later (c : Fin 16) (k : Nat) (s : State) : s.d8 ≤ (phyReady c k s).d8 := by
  have later := d8_le_closed s.d8
  unfold phyReady
  split
  · exact entryStop_keeps later c s (Nat.le_refl _)
  · exact closeBanks_keeps later c _ _ (exitPd_keeps later c _ _ (entryStop_keeps later c s (Nat.le_refl _)))

theorem phyHeld_run (c : Fin 16) (k : Nat) (s : State) : bitOf (fget (phyHeld c k s) BST BST_STATUS_CH_RUN) c = true := by
  unfold phyHeld
  rw [fget_deferAll_BST c (by decide)]
  exact bitOf_fsetBit_set _ _ _ _ (by decide) c.isLt

theorem phyHeld_bist (c : Fin 16) (k : Nat) (s : State) : (phyHeld c k s).bist = { s.bist with phyRun := s.bist.phyRun.set c (some s.d8), phyKind := s.bist.phyKind.set c k } :=
  (deferAll_bist c _).trans rfl

theorem phyHeld_d8 (c : Fin 16) (k : Nat) (s : State) : (phyHeld c k s).d8 = s.d8 := (deferAll_d8 c _).trans rfl

theorem phySliceGo_begun (c : Fin 16) (s : State) : PauseBegun c s (phySliceGo c s) := by
  have store : sameStore s (phySliceGo c s) := phySliceGo_keeps (closed_sameStore s) c s (sameStore_refl s)
  obtain ⟨k, go⟩ := phySliceGo_eq c s
  rw [go] at store ⊢
  have bist := phyReady_bist c k (sliceStart 3 c.val phyMw (phyBudgetNs s c) s)
  have last : (sliceStart 3 c.val phyMw (phyBudgetNs s c) s).bist.lastStart = some s.ns := rfl
  have later := phyReady_later c k (sliceStart 3 c.val phyMw (phyBudgetNs s c) s)
  have started : (sliceStart 3 c.val phyMw (phyBudgetNs s c) s).d8 = s.d8 := rfl
  generalize sliceStart 3 c.val phyMw (phyBudgetNs s c) s = y at *
  generalize phyReady c k y = z at *
  have held := phyHeld_bist c k z
  have d8 := phyHeld_d8 c k z
  have run := phyHeld_run c k z
  generalize phyHeld c k z = t at *
  refine ⟨?_, ?_, run, ?_, store⟩
  · rw [held, d8]
    simp
  · rw [d8, ← started]
    exact later
  · rw [held]
    exact (congrArg BistState.lastStart bist).trans last

/-! ### DRAM slices -/

theorem tblGet_entry {α : Type} (d : Nat → α) {l : List (Nat × α)} {k : Nat} (listed : tblGet d l k ≠ d k) : (k, tblGet d l k) ∈ l := by
  induction l with
  | nil => exact absurd rfl listed
  | cons e r ih =>
    obtain ⟨k0, v⟩ := e
    unfold tblGet at listed ⊢
    split at listed
    · exact absurd rfl listed
    next reached =>
      rw [if_neg reached]
      split at listed
      next here =>
        rw [if_pos here, here]
        exact List.mem_cons_self
      next apart =>
        rw [if_neg apart]
        exact List.mem_cons_of_mem _ (ih listed)

theorem lowestFree_free {n f : Nat} {l : List (Nat × Frame)} (found : lowestFree n l = some f) : (tblGet (fun _ => ({} : Frame)) l f).st = .free := by
  by_contra taken
  have listed := tblGet_entry (fun _ => ({} : Frame)) (l := l) (k := f) fun e => taken (by rw [e])
  unfold lowestFree at found
  obtain ⟨k, first, fits⟩ := Option.bind_eq_some_iff.mp found
  obtain ⟨-, rfl⟩ : k < n ∧ k = f := by simpa using fits
  have unused := List.find?_some first
  simp only [Bool.not_eq_true', List.contains_eq_mem, decide_eq_false_iff_not] at unused
  exact unused (List.mem_map_of_mem (f := (·.1)) (List.mem_filter.mpr ⟨listed, by simpa using taken⟩))

theorem setFrame_frame_ne {f k : Nat} (ne : k ≠ f) (x : Frame) (s : State) : (setFrame false f x s).frame false k = s.frame false k := tblGet_tblSet_ne _ _ _ _ _ ne

theorem lendFrames_inv {β : Type} {g : State → β} (frame : ∀ f x s, g (setFrame false f x s) = g s) (k : Nat) (s : State) : g (lendFrames k s).2 = g s := by
  induction k generalizing s with
  | zero => rfl
  | succ k ih =>
    unfold lendFrames
    split
    · rfl
    · exact (ih _).trans (frame _ _ s)

/-- A frame that is lent stays so while others are. -/
theorem lendFrames_kept {f : Nat} (k : Nat) {s : State} (test : (s.frame false f).st = .test) : ((lendFrames k s).2.frame false f).st = .test := by
  induction k generalizing s with
  | zero => exact test
  | succ k ih =>
    unfold lendFrames
    split
    · exact test
    next f' found =>
      have free : (s.frame false f').st = .free := lowestFree_free found
      have ne : f ≠ f' := by
        rintro rfl
        rw [free] at test
        cases test
      exact ih (by rw [setFrame_frame_ne ne]; exact test)

theorem lendFrames_test (k : Nat) (s : State) : ∀ f ∈ (lendFrames k s).1, ((lendFrames k s).2.frame false f).st = .test := by
  induction k generalizing s with
  | zero => exact fun f hf => absurd hf List.not_mem_nil
  | succ k ih =>
    intro f hf
    unfold lendFrames at hf ⊢
    split at hf
    · exact absurd hf List.not_mem_nil
    next f' found =>
      obtain rfl | later := List.mem_cons.mp hf
      · exact lendFrames_kept k (by rw [setFrame_frame])
      · exact ih _ f later

/-! ### The rows of the geometry -/

/-- The geometry and the bank hash. -/
def geometry (s : State) : Word × List (Nat × Word) := (rg s (GLB + GLB_MAP_GEOM_WIDTH.off), s.ix)

section
variable {s t : State} (h : geometry t = geometry s)
include h

theorem geoX8_congr : geoX8 t = geoX8 s := congrArg (fun w : Word × List (Nat × Word) => GLB_MAP_GEOM_WIDTH.get w.1 != 0) h

theorem geoRanks_congr : geoRanks t = geoRanks s := congrArg (fun w : Word × List (Nat × Word) => if GLB_MAP_GEOM_RANKS.get w.1 != 0 then 2 else 1) h

theorem geoDens_congr : geoDens t = geoDens s := congrArg (fun w : Word × List (Nat × Word) => min 2 (GLB_MAP_GEOM_DENS.get w.1)) h

theorem geoCols_congr : geoCols t = geoCols s := by simp only [geoCols, geoX8_congr h]

theorem geoRows_congr : geoRows t = geoRows s := by simp only [geoRows, geoDens_congr h]

theorem rowLen_congr : rowLen t = rowLen s := geoCols_congr h

theorem sliceRows_congr : sliceRows t = sliceRows s := by simp only [sliceRows, geoRows_congr h, geoRanks_congr h]

theorem sliceRow_congr : sliceRow t = sliceRow s := by
  funext idx
  simp only [sliceRow, geoRanks_congr h]

theorem bankOf_congr : bankOf t = bankOf s := by
  have ix : t.ix = s.ix := congrArg Prod.snd h
  have masks : bkMask t = bkMask s := by
    funext j
    simp only [bkMask, ixGet, ix]
  funext lam
  simp only [bankOf, bkHash, rowB, rowBits, bkTargets, geoX8_congr h, geoRanks_congr h, geoDens_congr h, geoCols_congr h, masks]

theorem inSliceRow_congr : inSliceRow t = inSliceRow s := by
  funext idx lam
  simp only [inSliceRow, bankOf_congr h, sliceRow_congr h]

theorem rowLams_congr : rowLams t = rowLams s := by
  have lines : lamOf t = lamOf s := by
    funext r rho
    simp only [lamOf, bankOf_congr h, geoCols_congr h, geoRanks_congr h, rowB, geoX8_congr h, bkTargets]
  funext idx
  simp only [rowLams, sliceRow_congr h, geoCols_congr h, lines]

theorem batchOf_congr : batchOf t = batchOf s := by
  funext x
  simp only [batchOf, rowLen_congr h]

end

/-! ### The copy of a row -/

theorem wayStat_inv {β : Type} {g : State → β} (reg : ∀ f : Fld, f.off < 0x1000 → ∀ v s, g (fset WAY f v s) = g s) (s : State) : g (wayStat s) = g s :=
  (reg _ (by decide) _ _).trans ((reg _ (by decide) _ _).trans (reg _ (by decide) _ s))

theorem geometry_fset {b : Nat} {f : Fld} (apart : GLB + GLB_MAP_GEOM_WIDTH.off ≠ b + f.off) (v : Nat) (s : State) : geometry (fset b f v s) = geometry s :=
  Prod.ext (rg_fset_ne _ f _ _ apart) rfl

theorem geometry_BST (f : Fld) (v : Nat) (s : State) : geometry (fset BST f v s) = geometry s := geometry_fset (by simp only [GLB, GLB_MAP_GEOM_WIDTH, BST]; omega) v s

theorem geometry_wayStat (s : State) : geometry (wayStat s) = geometry s := wayStat_inv (fun f _ v x => geometry_fset (by simp only [GLB, GLB_MAP_GEOM_WIDTH, WAY]; omega) v x) s

/-- A batch of a slice asks for its slots. -/
def batchAsked (c : Fin 16) (ph : DPhase) (wr : Bool) (lams : List Nat) (s : State) : State := updChan c (fun y => { y with bg := y.bg ++ lams.map (bistReq ph wr) }) s

theorem beginBatch_asks {c : Fin 16} {x : DramSlice} {n : Nat} {wr : Bool} {s : State} (slice : s.bist.dram[c] = some x) (batch : batchOf s x = some (n, wr)) :
    beginBatch c s = batchAsked c x.ph wr ((rowLams s x.idx).take n) s := by
  unfold beginBatch
  rw [slice]
  dsimp only
  rw [batch]
  rfl

theorem batchAsked_bg (c : Fin 16) (ph : DPhase) (wr : Bool) (lams : List Nat) (s : State) : ((batchAsked c ph wr lams s).chan c).bg = (s.chan c).bg ++ lams.map (bistReq ph wr) := by
  unfold batchAsked
  rw [updChan_chan]

/-- The slice of a channel is entered, with the frames lent to it. -/
def copyEntered (c : Fin 16) (fs : List Nat) (z : State) : State :=
  fsetBit BST BST_STATUS_CH_RUN c.val true (wayStat { z with
    bist := { z.bist with dram := z.bist.dram.set c (some { idx := z.bist.next[c], frames := fs, at8 := z.d8 }) }, way := { z.way with wtHeld := z.way.wtHeld + rowLen z } })

theorem dramSliceGo_eq (c : Fin 16) (s : State) : dramSliceGo c s = beginBatch c (copyEntered c (lendFrames (copyFrames s) (sliceStart 1 c.val dramMw (dramBudgetNs s) s)).1
    (lendFrames (copyFrames s) (sliceStart 1 c.val dramMw (dramBudgetNs s) s)).2) := rfl

/-- What the entry of a slice leaves, and what it enters. -/
structure CopyEntered (c : Fin 16) (fs : List Nat) (z t : State) : Prop where
  slice : t.bist.dram[c] = some { idx := z.bist.next[c], frames := fs, at8 := z.d8 }
  tier : t.way.tier = z.way.tier
  wtHeld : t.way.wtHeld = z.way.wtHeld + rowLen z
  run : bitOf (fget t BST BST_STATUS_CH_RUN) c = true
  geometry : geometry t = geometry z
  chans : t.chans = z.chans
  d8 : t.d8 = z.d8
  lastStart : t.bist.lastStart = z.bist.lastStart

theorem copyEntered_entered (c : Fin 16) (fs : List Nat) (z : State) : CopyEntered c fs z (copyEntered c fs z) := by
  have run : bitOf (fget (copyEntered c fs z) BST BST_STATUS_CH_RUN) c = true := bitOf_fsetBit_set _ _ _ _ (by decide) c.isLt
  unfold copyEntered at run ⊢
  generalize hy : ({ z with bist := { z.bist with dram := z.bist.dram.set c (some { idx := z.bist.next[c], frames := fs, at8 := z.d8 }) }, way := { z.way with wtHeld := z.way.wtHeld + rowLen z } } : State) = y at *
  have slice : y.bist.dram[c] = some { idx := z.bist.next[c], frames := fs, at8 := z.d8 } := by
    rw [← hy]
    simp
  have tier : y.way.tier = z.way.tier := hy ▸ rfl
  have held : y.way.wtHeld = z.way.wtHeld + rowLen z := hy ▸ rfl
  have map : Proofs.geometry y = Proofs.geometry z := hy ▸ rfl
  have chans : y.chans = z.chans := hy ▸ rfl
  have d8 : y.d8 = z.d8 := hy ▸ rfl
  have last : y.bist.lastStart = z.bist.lastStart := hy ▸ rfl
  exact ⟨(wayStat_inv (g := (·.bist.dram[c])) (fun _ _ _ _ => rfl) y).trans slice, (wayStat_inv (g := (·.way.tier)) (fun _ _ _ _ => rfl) y).trans tier,
    (wayStat_inv (g := (·.way.wtHeld)) (fun _ _ _ _ => rfl) y).trans held, run, (geometry_BST _ _ _).trans ((geometry_wayStat y).trans map),
    (wayStat_inv (g := (·.chans)) (fun _ _ _ _ => rfl) y).trans chans, (wayStat_inv (g := (·.d8)) (fun _ _ _ _ => rfl) y).trans d8,
    (wayStat_inv (g := (·.bist.lastStart)) (fun _ _ _ _ => rfl) y).trans last⟩

/-- What a DRAM slice begins with. -/
structure CopyBegun (c : Fin 16) (s t : State) (x : DramSlice) : Prop where
  slice : t.bist.dram[c] = some x
  idx : x.idx = s.bist.next[c]
  ph : x.ph = .copy
  step : x.step = 0
  at8 : x.at8 = s.d8
  frames : ∀ f ∈ x.frames, (t.frame false f).st = .test
  run : bitOf (fget t BST BST_STATUS_CH_RUN) c = true
  wtHeld : t.way.wtHeld = s.way.wtHeld + rowLen s
  bg : (t.chan c).bg = (s.chan c).bg ++ ((rowLams s x.idx).take (rowLen s)).map (bistReq .copy false)
  others : ∀ k, k ≠ c → t.chan k = s.chan k
  d8 : t.d8 = s.d8
  store : sameStore s t

theorem dramSliceGo_begun (c : Fin 16) (s : State) : ∃ x, CopyBegun c s (dramSliceGo c s) x := by
  have store : sameStore s (dramSliceGo c s) := dramSliceGo_keeps (closed_sameStore s) c s (sameStore_refl s)
  rw [dramSliceGo_eq] at store ⊢
  have test := lendFrames_test (copyFrames s) (sliceStart 1 c.val dramMw (dramBudgetNs s) s)
  have next : (lendFrames (copyFrames s) (sliceStart 1 c.val dramMw (dramBudgetNs s) s)).2.bist.next = s.bist.next := lendFrames_inv (g := (·.bist.next)) (fun _ _ _ => rfl) _ _
  have d8 : (lendFrames (copyFrames s) (sliceStart 1 c.val dramMw (dramBudgetNs s) s)).2.d8 = s.d8 := lendFrames_inv (g := (·.d8)) (fun _ _ _ => rfl) _ _
  have held : (lendFrames (copyFrames s) (sliceStart 1 c.val dramMw (dramBudgetNs s) s)).2.way.wtHeld = s.way.wtHeld := lendFrames_inv (g := (·.way.wtHeld)) (fun _ _ _ => rfl) _ _
  have chans : (lendFrames (copyFrames s) (sliceStart 1 c.val dramMw (dramBudgetNs s) s)).2.chans = s.chans := lendFrames_inv (g := (·.chans)) (fun _ _ _ => rfl) _ _
  have map : geometry (lendFrames (copyFrames s) (sliceStart 1 c.val dramMw (dramBudgetNs s) s)).2 = geometry s := lendFrames_inv (g := geometry) (fun _ _ _ => rfl) _ _
  generalize (lendFrames (copyFrames s) (sliceStart 1 c.val dramMw (dramBudgetNs s) s)).1 = fs at *
  generalize (lendFrames (copyFrames s) (sliceStart 1 c.val dramMw (dramBudgetNs s) s)).2 = z at *
  have entered := copyEntered_entered c fs z
  generalize copyEntered c fs z = y at *
  have same : geometry y = geometry s := entered.geometry.trans map
  have batch : batchOf y { idx := z.bist.next[c], frames := fs, at8 := z.d8 } = some (rowLen s, false) := by
    rw [batchOf_congr same]
    rfl
  rw [beginBatch_asks entered.slice batch, rowLams_congr same] at store ⊢
  refine ⟨_, entered.slice, congrArg (·[c]) next, rfl, rfl, d8, fun f hf => ?_, entered.run, entered.wtHeld.trans (by rw [held, rowLen_congr map]), ?_, fun k ne => ?_, entered.d8.trans d8, store⟩
  · have tier : y.frame false f = z.frame false f := congrArg (fun l : List (Nat × Frame) => tblGet (fun _ => ({} : Frame)) l f) entered.tier
    exact (congrArg Frame.st tier).trans (test f hf)
  · rw [batchAsked_bg, chan_congr (entered.chans.trans chans)]
  · exact (updChan_chan_ne ne _ _).trans (chan_congr (entered.chans.trans chans) k)

end Sys2Proof.Proofs

/-! PROOF. The `bist` verb (13 R392, R393). -/

namespace Sys2Proof.Proofs
open Sys2Proof Sys2Proof.Machine Sys2Proof.Laws

section
variable {s t : State} {e : OutLn} (ready : verbReady s = true)
include ready

theorem exec_bistRun {b : BTarget} {u : Option Nat} (done : bistRun b u s = (t, e)) : exec (.bistRun b u) s = .next (answer [e] t) := congrArg Host.Outcome.next (verb_answers ready done)

/-- A refused slice changes nothing of self-test. -/
theorem exec_bistRun_refused {b : BTarget} {u : Option Nat} (refused : bistRun b u s = (s, e)) : ∃ t, exec (.bistRun b u) s = .next t ∧ t.bist = s.bist ∧ answered [e] s t :=
  ⟨_, exec_bistRun ready refused, answer_inv (·.bist) _ s (fun _ _ => rfl) fun _ _ => rfl, answered_answer_self _ s⟩

theorem exec_bistShow (b : Option BTarget) (u : Option Nat) : ∃ t, exec (.bistShow b u) s = .next t ∧ t.bist = s.bist ∧ answered [bistShow b u s] s t :=
  ⟨_, congrArg Host.Outcome.next (verb_answers ready rfl), answer_inv (·.bist) _ s (fun _ _ => rfl) fun _ _ => rfl, answered_answer_self _ s⟩

theorem exec_bistLog {n : Nat} {l : List OutLn} (lines : (if n < 1 ∨ 64 < n then (s, [erLn 106 "out of range" [("arg", FVal.s "last"), ("min", .n 1), ("max", .n 64)]])
    else (s, listing ((bistNewest s n).map (bistFields s)))) = (s, l)) : ∃ t, exec (.bistLog n) s = .next t ∧ t.bist = s.bist ∧ answered l s t := by
  exact ⟨_, congrArg Host.Outcome.next (lines_answer ready lines), answer_inv (·.bist) _ s (fun _ _ => rfl) fun _ _ => rfl, answered_answer_self _ s⟩

end

theorem answer_bist (l : List OutLn) (s : State) : (answer l s).bist = s.bist := answer_inv (·.bist) l s (fun _ _ => rfl) fun _ _ => rfl

theorem ofNat_val (c : Fin 16) : Fin.ofNat 16 c.val = c := Fin.ofNat_val_eq_self c

/-- The verb's form for a lane, of the port that it names. -/
theorem bistRun_lane (p : Fin 4) {s : State} (on : fbit s BST BST_CTL_LANE_EN = true) (group : laneGroup s p ≠ []) (free : sliceGate s laneMw 200000 true = none) :
    bistRun .lane (some p.val) s = if (s.bist.laneRun[p]).isSome then (s, slice480 .lane "state") else (laneSliceGo p s, okLn []) := by
  have port : ¬ 4 ≤ p.val := by omega
  simp only [bistRun, Option.getD_some, Fin.ofNat_val_eq_self, on, free, port, List.isEmpty_iff, group, Bool.not_true, Bool.false_eq_true, or_self, if_false]

/-- Settles O49: each form of the verb answers with the result of its branch, and a slice that starts has begun. -/
theorem bistVerbAnswers : Obligations.BistVerbAnswers := by
  unfold Obligations.BistVerbAnswers
  refine ⟨?way, ?wayRefused, ?wayOff, ?dram, ?phy, ?lane, ?laneRuns, ?patrol, ?all, ?one, ?log, ?range⟩
  case way =>
    intro u s ready on free
    obtain ⟨x, begun⟩ := waySliceGo_begun s
    have done : bistRun .way u s = (waySliceGo s, okLn []) := by
      unfold bistRun
      simp only [on, free, Bool.not_true, Bool.false_eq_true, if_false]
    have e := exec_bistRun ready done
    generalize waySliceGo s = y at *
    exact ⟨_, e, answer_ans _ y, by rw [answer_bist, begun.way]; rfl, (fbit_answer_low (by decide) (by decide) _ y).trans begun.run, (answer_d8 _ y).trans begun.d8, (answer_dram _ y).trans begun.dram⟩
  case wayRefused =>
    intro u r s ready on bad
    refine exec_bistRun_refused ready ?_
    unfold bistRun
    simp only [on, bad, Bool.not_true, Bool.false_eq_true, if_false]
  case wayOff =>
    intro u s ready off
    exact exec_bistRun_refused ready (if_pos (by simp [off]))
  case dram =>
    intro c s ready on service free
    obtain ⟨x, begun⟩ := dramSliceGo_begun c s
    have done : bistRun .dram (some c.val) s = (dramSliceGo c s, okLn []) := by
      refine (if_neg ?_).trans ?_
      · rw [Option.getD_some, ofNat_val]
        simp [on, service]
      · rw [Option.getD_some, ofNat_val, free]
    have e := exec_bistRun ready done
    generalize dramSliceGo c s = y at *
    exact ⟨_, e, answer_ans _ y, by rw [answer_bist, begun.slice]; rfl, (answer_d8 _ y).trans begun.d8, sameStore_trans begun.store (sameStore_answer _ y)⟩
  case phy =>
    intro c s ready on service free
    have begun := phySliceGo_begun c s
    have done : bistRun .phy (some c.val) s = (phySliceGo c s, okLn []) := by
      refine (if_neg ?_).trans ?_
      · rw [Option.getD_some, ofNat_val]
        simp [on, service]
      · rw [Option.getD_some, ofNat_val, free]
    have e := exec_bistRun ready done
    generalize phySliceGo c s = y at *
    exact ⟨_, e, answer_ans _ y, by rw [answer_bist, answer_d8, begun.phyRun], by rw [answer_d8]; exact begun.later, (answer_dram _ y).trans begun.store.1⟩
  case lane =>
    intro p s ready on group free idle
    have begun := laneSliceGo_begun p s
    have done : bistRun .lane (some p.val) s = (laneSliceGo p s, okLn []) := (bistRun_lane p on group free).trans (if_neg (by simp [idle]))
    have e := exec_bistRun ready done
    generalize laneSliceGo p s = y at *
    exact ⟨_, e, answer_ans _ y, by rw [answer_bist, begun.laneRun], by rw [fget_answer_low (by decide) (by decide)]; exact begun.run, (answer_d8 _ y).trans begun.d8, sameStore_trans begun.store (sameStore_answer _ y)⟩
  case laneRuns =>
    intro p s ready on group free runs
    exact exec_bistRun_refused ready ((bistRun_lane p on group free).trans (if_pos runs))
  case patrol =>
    intro u s ready
    exact exec_bistRun_refused ready rfl
  case all =>
    intro u s ready
    exact exec_bistShow ready none u
  case one =>
    intro b u s ready
    exact exec_bistShow ready (some b) u
  case log =>
    intro n s ready one most
    exact exec_bistLog ready (if_neg (by omega))
  case range =>
    intro n s ready out
    exact exec_bistLog ready (if_pos (by omega))

end Sys2Proof.Proofs

/-! PROOF. Self-test of the Waystation, the PHYs and the lanes (13 R370 to R387). -/

namespace Sys2Proof.Proofs
open Sys2Proof Sys2Proof.Machine Sys2Proof.Laws

/-! ### Time that does not pass -/

theorem advance_zero (s : State) : advance 0 s = s := by
  unfold advance
  simp

theorem advanceTo8_past {t8 : Nat} {s : State} (past : t8 ≤ s.d8) : advanceTo8 t8 s = s := by
  have none_ : cdiv (t8 - s.d8) (coreTick8 s) * coreTick8 s = 0 := by
    rw [Nat.sub_eq_zero_of_le past]
    unfold cdiv coreTick8
    split <;> rfl
  unfold advanceTo8
  rw [none_, advance_zero]

theorem advanceToNs_now {n : Nat} {s : State} (past : n ≤ s.ns) : advanceToNs n s = s := advanceTo8_past (by unfold State.ns at past; omega)

/-! ### One bit for each unit -/

/-- The bit of a unit reads as it was set. -/
theorem bitOf_fsetBit (b : Nat) (f : Fld) {i : Nat} (v : Bool) (s : State) (fits : f.lsb + f.width ≤ 32) (hi : i < f.width) : bitOf (fget (fsetBit b f i v s) b f) i = v := by
  cases v with
  | true => exact bitOf_fsetBit_set b f i s fits hi
  | false =>
    have low : fget s b f < 2 ^ f.width := fget_lt s b f
    rw [bitOf_eq_testBit]
    cases set_ : (fget s b f).testBit i with
    | true => rw [testBit_fsetBit_clear b f s fits set_ hi]; simp
    | false =>
      have same : bitOf (fget s b f) i = false := by rw [bitOf_eq_testBit, set_]
      unfold fsetBit
      dsimp only
      rw [fget_fset _ _ _ _ fits, same]
      simp only [Bool.false_eq_true, if_false, Nat.mod_eq_of_lt low, set_]

/-! ### What the fault log and the coverage leave (13 R387, R392) -/

/-- A view of the state that an entry of the fault log and its event do not show in. -/
structure BesideLog {β : Type} (g : State → β) : Prop where
  event : ∀ h x s, g (emit h x s) = g s
  flag : ∀ s, g (irq GLB_IRQ_STAT_BIST s) = g s
  faults : ∀ s, g (fbump BST BST_FAULTS_COUNT s) = g s
  status : ∀ s, g (fset BST BST_STATUS_FAULT 1 s) = g s
  log : ∀ (s : State) l n, g { s with bist := { s.bist with log := l, head := n } } = g s

theorem bistLog_inv {β : Type} {g : State → β} (h : BesideLog g) (e : BistEnt) (s : State) : g (bistLog e s) = g s :=
  (h.log _ _ _).trans ((h.flag _).trans ((h.faults _).trans (h.status s)))

theorem fget_emit_BST {f : Fld} (low : f.off < 0x1000) (h : String) (x : List (String × FVal)) (s : State) : fget (emit h x s) BST f = fget s BST f :=
  fget_emit _ _ _ _ _ (by simp only [BST, GLB]; omega) (by simp only [BST, CON, CON_STATUS_EV_LOST]; omega) (by simp only [BST, CON, CON_EVLOST_COUNT]; omega)

theorem besideLog_BST {f : Fld} (low : f.off < 0x1000) (status : Apart f BST_STATUS_FAULT) (faults : f.off ≠ BST_FAULTS_COUNT.off) : BesideLog (fget · BST f) :=
  ⟨fget_emit_BST low, fun s => fget_fset_ne _ _ _ _ _ s (by simp only [BST, GLB, GLB_IRQ_STAT_BIST]; omega), fun s => fget_fbump_ne _ _ _ _ s (off_ne _ faults), fun s => fget_fset_apart _ status _ s, fun _ _ _ => rfl⟩

/-- A view of the state that the coverage of a target does not show in. -/
structure BesideCov {β : Type} (g : State → β) : Prop where
  event : ∀ h x s, g (emit h x s) = g s
  reg : ∀ f : Fld, 0x40 ≤ f.off → f.off < 0x80 → ∀ v s, g (fset BST f v s) = g s
  cycles : ∀ t (s : State) a, g { s with bist := { cycClear t s.bist with cycAt := a } } = g s

theorem covStat_inv {β : Type} {g : State → β} (h : BesideCov g) (t : BTarget) (s : State) : g (covStat t s) = g s := by
  have below : (targetNo t).val < 5 := (targetNo t).isLt
  have shown : ∀ v x, g (fset BST (BST_COV_COV.nth (targetNo t)) v x) = g x := h.reg _ (by simp [Fld.nth, BST_COV_COV]) (by simp only [Fld.nth, BST_COV_COV]; omega)
  have timed : ∀ v x, g (fset BST (BST_CYC_MS.nth (targetNo t)) v x) = g x := h.reg _ (by simp only [Fld.nth, BST_CYC_MS]; omega) (by simp only [Fld.nth, BST_CYC_MS]; omega)
  unfold covStat
  obtain ⟨k, n⟩ := covOf s t
  dsimp only
  refine ite_keeps (P := (g · = g s)) (fun _ => rfl) fun _ => ite_keeps (P := (g · = g s)) (fun _ => shown _ _) fun _ => ?_
  exact (h.event _ _ _).trans ((timed _ _).trans ((h.cycles _ _ _).trans (shown _ _)))

/-- A field of BST beside those that coverage writes. -/
theorem besideCov_BST {f : Fld} (low : f.off < 0x1000) (apart : f.off < 0x40 ∨ 0x80 ≤ f.off) : BesideCov (fget · BST f) :=
  ⟨fget_emit_BST low, fun g _ _ v s => fget_fset_ne _ _ _ _ _ s (by omega), fun _ _ _ => rfl⟩

theorem sliceDone_inv {β : Type} {g : State → β} (h : BesideCov g) {t : BTarget} (count : ∀ s, g (fbump BST (BST_SLICE_COUNT.nth (targetNo t)) s) = g s) (s : State) : g (sliceDone t s) = g s :=
  (covStat_inv h t _).trans (count s)

theorem sliceDone_count (t : BTarget) (s : State) : fget (sliceDone t s) BST (BST_SLICE_COUNT.nth (targetNo t)) = min (fget s BST (BST_SLICE_COUNT.nth (targetNo t)) + 1) (2 ^ 32 - 1) := by
  have below : (targetNo t).val < 5 := (targetNo t).isLt
  refine (covStat_inv (besideCov_BST ?_ (.inr ?_)) t _).trans (fget_fbump _ _ _ (by simp [Fld.nth, BST_SLICE_COUNT]))
  · simp only [Fld.nth, BST_SLICE_COUNT]
    omega
  · simp only [Fld.nth, BST_SLICE_COUNT]
    omega

/-- The fields that tell which slices run, beside those that the end of one counts in. -/
theorem sliceDone_status {f : Fld} (off : f.off = 0x18) (t : BTarget) (s : State) : fget (sliceDone t s) BST f = fget s BST f :=
  sliceDone_inv (besideCov_BST (by omega) (.inl (by omega))) (fun s => fget_fbump_ne _ _ _ _ s (by simp only [Fld.nth, BST_SLICE_COUNT]; omega)) s

/-- What the count of a slice leaves. -/
structure Counted (s t : State) : Prop where
  way : t.bist.way = s.bist.way
  dram : t.bist.dram = s.bist.dram
  next : t.bist.next = s.bist.next
  scrub : t.bist.scrub = s.bist.scrub
  phyRun : t.bist.phyRun = s.bist.phyRun
  phyKind : t.bist.phyKind = s.bist.phyKind
  sincePhy : t.bist.sincePhy = s.bist.sincePhy
  laneRun : t.bist.laneRun = s.bist.laneRun
  laneNext : t.bist.laneNext = s.bist.laneNext
  frames : t.way = s.way
  chans : t.chans = s.chans
  ports : t.ports = s.ports
  ix : t.ix = s.ix
  dramMem : t.dram = s.dram
  wmem : t.wmem = s.wmem
  streams : t.streams = s.streams
  mans : t.mans = s.mans
  caravans : t.caravans = s.caravans
  d8 : t.d8 = s.d8
  pwr : t.pwr = s.pwr

theorem sliceDone_counted (t : BTarget) (s : State) : Counted s (sliceDone t s) := by
  have runs {β : Type} {g : BistState → β} (same : ∀ t b a, g { cycClear t b with cycAt := a } = g b) : g (sliceDone t s).bist = g s.bist :=
    sliceDone_inv (g := fun s => g s.bist) ⟨fun h x s => congrArg g (emit_bist h x s), fun _ _ _ _ _ => rfl, fun t s a => same t s.bist a⟩ (fun _ => rfl) s
  have part {β : Type} {g : State → β} (event : ∀ h x s, g (emit h x s) = g s) (reg : ∀ b f v s, g (fset b f v s) = g s) (bist : ∀ (s : State) b, g { s with bist := b } = g s) :
      g (sliceDone t s) = g s := sliceDone_inv ⟨event, fun f _ _ => reg BST f, fun _ s _ => bist s _⟩ (fun s => reg _ _ _ s) s
  exact ⟨runs (g := BistState.way) fun t _ _ => by cases t <;> rfl, runs (g := BistState.dram) fun t _ _ => by cases t <;> rfl, runs (g := BistState.next) fun t _ _ => by cases t <;> rfl,
    runs (g := BistState.scrub) fun t _ _ => by cases t <;> rfl, runs (g := BistState.phyRun) fun t _ _ => by cases t <;> rfl, runs (g := BistState.phyKind) fun t _ _ => by cases t <;> rfl,
    runs (g := BistState.sincePhy) fun t _ _ => by cases t <;> rfl, runs (g := BistState.laneRun) fun t _ _ => by cases t <;> rfl, runs (g := BistState.laneNext) fun t _ _ => by cases t <;> rfl,
    part emit_way (fun _ _ _ _ => rfl) fun _ _ => rfl, part emit_chans (fun _ _ _ _ => rfl) fun _ _ => rfl, part emit_ports (fun _ _ _ _ => rfl) fun _ _ => rfl,
    part emit_ix (fun _ _ _ _ => rfl) fun _ _ => rfl, part emit_dram (fun _ _ _ _ => rfl) fun _ _ => rfl, part emit_wmem (fun _ _ _ _ => rfl) fun _ _ => rfl,
    part emit_streams (fun _ _ _ _ => rfl) fun _ _ => rfl, part emit_mans (fun _ _ _ _ => rfl) fun _ _ => rfl, part emit_caravans (fun _ _ _ _ => rfl) fun _ _ => rfl,
    part emit_d8 (fun _ _ _ _ => rfl) fun _ _ => rfl, part emit_pwr (fun _ _ _ _ => rfl) fun _ _ => rfl⟩

/-! ### The end of a Waystation slice (13 R374) -/

theorem wayLine_setWayLine_zero {w k : Nat} {s : State} (zero : wayLine s k = 0) : wayLine (setWayLine w 0 s) k = 0 := by
  by_cases same : k = w
  · rw [same, wayLine_setWayLine]
  · rw [wayLine_setWayLine_ne _ _ same, zero]

/-- A tested frame is free, and its lines hold zero. -/
def cleared (r : State) (f : Nat) (s : State) : Prop := s.frame false f = {} ∧ ∀ i, i < 16 → wayLine s (frameLine r false f i) = 0

/-- The lines of a frame are zeroed. -/
def linesZeroed (f : Nat) (s : State) : State := forAll (List.range 16) (fun i x => setWayLine (frameLine x false f i) 0 x) s

/-- A frame that passed is free again, and counted in the cycle. -/
def frameFreed (f : Nat) (s : State) : State :=
  let s := setFrame false f {} s
  if s.bist.cycWay.contains f then s else { s with bist := { s.bist with cycWay := f :: s.bist.cycWay } }

/-- A frame's march has ended well. -/
def marchPassed (f : Nat) (s : State) : State := frameFreed f (linesZeroed f s)

theorem marchEnd_passed (f : Nat) (s : State) : marchEnd [] f s = marchPassed f s := rfl

theorem linesZeroed_inv {β : Type} {g : State → β} (wmem : ∀ (s : State) m, g { s with wmem := m } = g s) (f : Nat) (s : State) : g (linesZeroed f s) = g s := forAll_inv g _ _ s fun _ x => wmem x _

theorem frameFreed_inv {β : Type} {g : State → β} (way : ∀ (s : State) w, g { s with way := w } = g s)
    (cycle : ∀ (s : State) l, g { s with bist := { s.bist with cycWay := l } } = g s) (f : Nat) (s : State) : g (frameFreed f s) = g s := by
  have freed : g (setFrame false f {} s) = g s := way _ _
  unfold frameFreed
  extract_lets x
  exact ite_keeps (P := (g · = g s)) (fun _ => freed) fun _ => (cycle _ _).trans freed

theorem marchPassed_inv {β : Type} {g : State → β} (way : ∀ (s : State) w, g { s with way := w } = g s) (wmem : ∀ (s : State) m, g { s with wmem := m } = g s)
    (cycle : ∀ (s : State) l, g { s with bist := { s.bist with cycWay := l } } = g s) (f : Nat) (s : State) : g (marchPassed f s) = g s :=
  (frameFreed_inv way cycle f _).trans (linesZeroed_inv wmem f s)

theorem marchPassed_wmem (f : Nat) (s : State) : (marchPassed f s).wmem = (linesZeroed f s).wmem := frameFreed_inv (g := (·.wmem)) (fun _ _ => rfl) (fun _ _ => rfl) f _

theorem frameFreed_tier (f : Nat) (s : State) : (frameFreed f s).way.tier = tblSet (fun _ => ({} : Frame)) s.way.tier f {} := by
  unfold frameFreed
  extract_lets x
  exact ite_keeps (P := fun y : State => y.way.tier = tblSet (fun _ => ({} : Frame)) s.way.tier f {}) (fun _ => rfl) fun _ => rfl

theorem marchPassed_tier (f : Nat) (s : State) : (marchPassed f s).way.tier = (setFrame false f {} s).way.tier := by
  have same : (linesZeroed f s).way = s.way := linesZeroed_inv (g := (·.way)) (fun _ _ => rfl) f s
  unfold marchPassed
  rw [frameFreed_tier, same]
  rfl

theorem frame_of_tier {s t : State} (h : t.way.tier = s.way.tier) (f : Nat) : t.frame false f = s.frame false f := congrArg (fun l : List (Nat × Frame) => tblGet (fun _ => ({} : Frame)) l f) h

theorem wayLine_of_wmem {s t : State} (h : t.wmem = s.wmem) (w : Nat) : wayLine t w = wayLine s w := congrArg (cellLine · (w * 128)) h

theorem frameLine_congr {r s : State} (h : s.regs = r.regs) (f i : Nat) : frameLine s false f i = frameLine r false f i := by
  unfold frameLine tierLine0 pinLine0 walkLine0 carveQ carveW carveP
  simp only [Bool.false_eq_true, if_false, fget_congr h]

theorem linesZeroed_zero {r s : State} (regs : s.regs = r.regs) (f : Nat) : ∀ i, i < 16 → wayLine (linesZeroed f s) (frameLine r false f i) = 0 := by
  intro i hi
  unfold linesZeroed
  refine forAll_reaches_of (I := fun x => x.regs = r.regs) (P := fun x => wayLine x (frameLine r false f i) = 0) (l := List.range 16) (f := fun i x => setWayLine (frameLine x false f i) 0 x) (a := i)
    (List.mem_range.mpr hi) (fun _ x h => (setWayLine_regs _ _ x).trans h) (fun x h => ?_) (fun _ x h => ?_) regs
  · exact (congrArg (wayLine · (frameLine r false f i)) (by rw [frameLine_congr h])).trans (wayLine_setWayLine (frameLine r false f i) 0 x)
  · exact wayLine_setWayLine_zero h

theorem linesZeroed_kept {k f : Nat} {s : State} (zero : wayLine s k = 0) : wayLine (linesZeroed f s) k = 0 :=
  forAll_keeps_prop (P := fun x => wayLine x k = 0) _ _ zero fun _ _ h => wayLine_setWayLine_zero h

theorem marchPassed_cleared {r s : State} (regs : s.regs = r.regs) (f : Nat) : cleared r f (marchPassed f s) := by
  refine ⟨?_, fun i hi => ?_⟩
  · rw [frame_of_tier (marchPassed_tier f s), setFrame_frame]
  · rw [wayLine_of_wmem (marchPassed_wmem f s)]
    exact linesZeroed_zero regs f i hi

theorem marchPassed_keeps_cleared {r s : State} {f : Nat} (h : cleared r f s) (k : Nat) : cleared r f (marchPassed k s) := by
  obtain ⟨frame, zero⟩ := h
  refine ⟨?_, fun i hi => ?_⟩
  · rw [frame_of_tier (marchPassed_tier k s)]
    by_cases same : f = k
    · rw [same, setFrame_frame]
    · rw [setFrame_frame_ne same, frame]
  · rw [wayLine_of_wmem (marchPassed_wmem k s)]
    exact linesZeroed_kept (zero i hi)

/-- The marches of a slice have ended well. -/
def marchesPassed (l : List Nat) (s : State) : State := uncharged (fun s => forAll l marchPassed s) { s with bist := { s.bist with way := none } }

theorem marchesPassed_inv {β : Type} {g : State → β} (way : ∀ (s : State) w, g { s with way := w } = g s) (wmem : ∀ (s : State) m, g { s with wmem := m } = g s)
    (bist : ∀ (s : State) b, g { s with bist := b } = g s) (led : ∀ (s : State) l, g { s with led := l } = g s) (l : List Nat) (s : State) : g (marchesPassed l s) = g s :=
  (led _ _).trans ((forAll_inv g _ _ _ fun f x => marchPassed_inv way wmem (fun x _ => bist x _) f x).trans (bist s _))

/-- What the marches do not touch in the state of self-test. -/
def marchView (s : State) := (s.bist.way, s.bist.scrub)

theorem marchesPassed_view (l : List Nat) (s : State) : marchView (marchesPassed l s) = (none, s.bist.scrub) := by
  have passed : ∀ y, marchView (forAll l marchPassed y) = marchView y := fun y => forAll_inv marchView _ _ _ fun f x => marchPassed_inv (g := marchView) (fun _ _ => rfl) (fun _ _ => rfl) (fun _ _ => rfl) f x
  unfold marchesPassed uncharged
  exact passed { s with bist := { s.bist with way := none } }

theorem cleared_congr {r s t : State} (tier : t.way.tier = s.way.tier) (wmem : t.wmem = s.wmem) {f : Nat} (h : cleared r f s) : cleared r f t := by
  obtain ⟨frame, zero⟩ := h
  exact ⟨(frame_of_tier tier f).trans frame, fun i hi => (wayLine_of_wmem wmem _).trans (zero i hi)⟩

theorem marchesPassed_cleared (l : List Nat) {r s : State} (regs : s.regs = r.regs) : ∀ f ∈ l, cleared r f (marchesPassed l s) := by
  intro f hf
  have reached : ∀ y : State, y.regs = r.regs → cleared r f (forAll l marchPassed y) := fun y hy =>
    forAll_reaches_of (I := fun x => x.regs = r.regs) (P := cleared r f) hf (fun k x hx => (marchPassed_inv (g := (·.regs)) (fun _ _ => rfl) (fun _ _ => rfl) (fun _ _ => rfl) k x).trans hx)
      (fun x hx => marchPassed_cleared hx f) (fun k x hx => marchPassed_keeps_cleared hx k) hy
  have done := reached { s with bist := { s.bist with way := none } } regs
  unfold marchesPassed uncharged
  exact cleared_congr rfl rfl done

/-- The scrub pointer has passed the lines of a slice. -/
def scrubMoved (s : State) : State := { s with bist := { s.bist with scrub := (s.bist.scrub + 256) % scrubLines s, cycScrub := min (scrubLines s) (s.bist.cycScrub + 256) } }

/-- A slice of the Waystation in which nothing failed has ended. -/
def waySlicePassed (x : WaySlice) (s : State) : State := sliceDone .way (fset BST BST_STATUS_WAY_RUN 0 (scrubMoved (marchesPassed x.frames (advanceTo8 (x.at8 + 16000) s))))

theorem waySliceEnd_passed {x : WaySlice} {s : State} (run : coreRuns s = true) (slice : s.bist.way = some x) : waySliceEnd [] [] s = waySlicePassed x s := by
  unfold waySliceEnd
  rw [slice]
  exact if_neg (by simp [run])

theorem waySliceEnd_idle {s : State} (idle : s.bist.way = none ∨ coreRuns s = false) (bad : List Nat) (l : List (Nat × LineEcc)) : waySliceEnd bad l s = s := by
  unfold waySliceEnd
  split
  · rfl
  next x slice =>
    obtain none_ | off := idle
    · rw [slice] at none_
      cases none_
    · exact if_pos (by simp [off])

/-- What the end of a Waystation slice leaves. -/
structure WayPassed (x : WaySlice) (s t : State) : Prop where
  way : t.bist.way = none
  run : fbit t BST BST_STATUS_WAY_RUN = false
  frames : ∀ f ∈ x.frames, cleared s f t
  scrub : t.bist.scrub = (s.bist.scrub + 256) % scrubLines s
  d8 : t.d8 = firstCycle8 s (x.at8 + 16000)
  count : fget t BST (BST_SLICE_COUNT.nth 0) = min (fget s BST (BST_SLICE_COUNT.nth 0) + 1) (2 ^ 32 - 1)
  dram : t.dram = s.dram
  streams : t.streams = s.streams
  mans : t.mans = s.mans
  caravans : t.caravans = s.caravans

/-- Before the slice is counted. -/
structure WayUncounted (x : WaySlice) (s y : State) : Prop where
  way : y.bist.way = none
  frames : ∀ f ∈ x.frames, cleared s f y
  scrub : y.bist.scrub = (s.bist.scrub + 256) % scrubLines s
  d8 : y.d8 = firstCycle8 s (x.at8 + 16000)
  regs : y.regs = s.regs
  dram : y.dram = s.dram
  streams : y.streams = s.streams
  mans : y.mans = s.mans
  caravans : y.caravans = s.caravans

theorem scrubLines_congr {s t : State} (h : t.regs = s.regs) : scrubLines t = scrubLines s := by
  unfold scrubLines tierLine0 pinLine0 walkLine0 carveQ carveW carveP
  simp only [fget_congr h]

theorem scrubMoved_view {s y : State} (regs : y.regs = s.regs) (view : marchView y = (none, s.bist.scrub)) : (scrubMoved y).bist.way = none ∧ (scrubMoved y).bist.scrub = (s.bist.scrub + 256) % scrubLines s := by
  have way : y.bist.way = none := congrArg Prod.fst view
  have scrub : y.bist.scrub = s.bist.scrub := congrArg Prod.snd view
  refine ⟨way, ?_⟩
  show (y.bist.scrub + 256) % scrubLines y = _
  rw [scrub, scrubLines_congr regs]

theorem marchesPassed_uncounted (x : WaySlice) {s y : State} (ledger : y.regs = s.regs ∧ y.bist = s.bist ∧ y.d8 = firstCycle8 s (x.at8 + 16000) ∧ y.dram = s.dram ∧ y.streams = s.streams ∧ y.mans = s.mans ∧ y.caravans = s.caravans) :
    WayUncounted x s (scrubMoved (marchesPassed x.frames y)) := by
  obtain ⟨regs, bist, d8, dram, streams, mans, caravans⟩ := ledger
  have view := marchesPassed_view x.frames y
  have frames := marchesPassed_cleared x.frames regs
  have regs' : (marchesPassed x.frames y).regs = s.regs := (marchesPassed_inv (g := (·.regs)) (fun _ _ => rfl) (fun _ _ => rfl) (fun _ _ => rfl) (fun _ _ => rfl) x.frames y).trans regs
  have d8' : (marchesPassed x.frames y).d8 = _ := (marchesPassed_inv (g := (·.d8)) (fun _ _ => rfl) (fun _ _ => rfl) (fun _ _ => rfl) (fun _ _ => rfl) x.frames y).trans d8
  have dram' : (marchesPassed x.frames y).dram = s.dram := (marchesPassed_inv (g := (·.dram)) (fun _ _ => rfl) (fun _ _ => rfl) (fun _ _ => rfl) (fun _ _ => rfl) x.frames y).trans dram
  have streams' : (marchesPassed x.frames y).streams = s.streams := (marchesPassed_inv (g := (·.streams)) (fun _ _ => rfl) (fun _ _ => rfl) (fun _ _ => rfl) (fun _ _ => rfl) x.frames y).trans streams
  have mans' : (marchesPassed x.frames y).mans = s.mans := (marchesPassed_inv (g := (·.mans)) (fun _ _ => rfl) (fun _ _ => rfl) (fun _ _ => rfl) (fun _ _ => rfl) x.frames y).trans mans
  have caravans' : (marchesPassed x.frames y).caravans = s.caravans := (marchesPassed_inv (g := (·.caravans)) (fun _ _ => rfl) (fun _ _ => rfl) (fun _ _ => rfl) (fun _ _ => rfl) x.frames y).trans caravans
  rw [bist] at view
  generalize marchesPassed x.frames y = z at *
  obtain ⟨way, scrub⟩ := scrubMoved_view regs' view
  exact ⟨way, fun f hf => cleared_congr rfl rfl (frames f hf), scrub, d8', regs', dram', streams', mans', caravans'⟩

theorem WayUncounted.passed {x : WaySlice} {s y : State} (h : WayUncounted x s y) : WayPassed x s (sliceDone .way (fset BST BST_STATUS_WAY_RUN 0 y)) := by
  have done := sliceDone_counted .way (fset BST BST_STATUS_WAY_RUN 0 y)
  have run : fbit (sliceDone .way (fset BST BST_STATUS_WAY_RUN 0 y)) BST BST_STATUS_WAY_RUN = false :=
    (congrArg (· != 0) (sliceDone_status rfl .way _)).trans (congrArg (· != 0) (fget_fset _ _ _ _ (by decide)))
  have count := sliceDone_count .way (fset BST BST_STATUS_WAY_RUN 0 y)
  rw [fget_fset_ne _ _ _ _ _ _ (by decide), fget_congr h.regs] at count
  generalize sliceDone .way (fset BST BST_STATUS_WAY_RUN 0 y) = t at *
  exact ⟨done.way.trans h.way, run, fun f hf => cleared_congr (congrArg WayState.tier done.frames) done.wmem (h.frames f hf), done.scrub.trans h.scrub, done.d8.trans h.d8, count,
    done.dramMem.trans h.dram, done.streams.trans h.streams, done.mans.trans h.mans, done.caravans.trans h.caravans⟩

theorem advanceTo8_sides (t8 : Nat) (s : State) : (advanceTo8 t8 s).regs = s.regs ∧ (advanceTo8 t8 s).bist = s.bist ∧ (advanceTo8 t8 s).d8 = firstCycle8 s t8 ∧ (advanceTo8 t8 s).dram = s.dram ∧
    (advanceTo8 t8 s).streams = s.streams ∧ (advanceTo8 t8 s).mans = s.mans ∧ (advanceTo8 t8 s).caravans = s.caravans := ⟨rfl, rfl, rfl, rfl, rfl, rfl, rfl⟩

theorem waySlicePassed_passed (x : WaySlice) (s : State) : WayPassed x s (waySlicePassed x s) := (marchesPassed_uncounted x (advanceTo8_sides _ s)).passed

end Sys2Proof.Proofs

/-! PROOF. The end of a PHY slice and of a lane's scan (13 R383 to R387). -/

namespace Sys2Proof.Proofs
open Sys2Proof Sys2Proof.Machine Sys2Proof.Laws

/-! ### The probes of a PHY slice -/

/-- A view of the state that the probes of a slice do not show in: neither compare counters nor free values. -/
structure BesideProbes {β : Type} (g : State → β) : Prop where
  ix : ∀ (s : State) l, g { s with ix := l } = g s
  free : ∀ (s : State) n, g { s with free := n } = g s

section
variable {β : Type} {g : State → β} (h : BesideProbes g)
include h

theorem countDiffs_besideProbes (c : Fin 16) (ds : List (List Nat)) (s : State) : g (countDiffs c ds s) = g s := by
  unfold countDiffs
  extract_lets fresh x
  have counted : g x = g s := forAll_inv g _ _ s fun d y => ite_keeps (P := (g · = g y)) (fun _ => rfl) fun _ => h.ix y _
  split
  · exact ite_keeps (P := (g · = g s)) (fun _ => (h.ix _ _).trans counted) fun _ => counted
  · exact counted

theorem probeAll_inv (c : Fin 16) (l : List Probe) (ps : List Int) (s : State) : g (probeAll c l ps s).2 = g s := by
  induction ps generalizing s with
  | nil => rfl
  | cons p ps ih => exact (ih _).trans (countDiffs_besideProbes h c _ s)

theorem readMargins_inv (c : Fin 16) (k : Nat) (l : List Probe) (s : State) : g (readMargins c k l s).2.2 = g s := probeAll_inv h c l _ s

theorem freeTaken_inv (l : List Int) (t : Nat) (s : State) : g (l.foldl (fun (a : Nat × State) _ => (a.1 + (takeFree a.2).1, (takeFree a.2).2)) (t, s)).2 = g s := by
  induction l generalizing t s with
  | nil => rfl
  | cons _ l ih => exact (ih _ _).trans (h.free s _)

theorem caMargins_inv (low : List (Nat × Int)) (l : List Nat) (t : Nat) (s : State) : g (caMargins low l t s).2.2.2 = g s := by
  induction l generalizing t s with
  | nil => rfl
  | cons i l ih =>
    unfold caMargins
    extract_lets bad
    have taken := freeTaken_inv h bad (t + 4 * phyCost 4) s
    generalize bad.foldl (fun (a : Nat × State) _ => (a.1 + (takeFree a.2).1, (takeFree a.2).2)) (t + 4 * phyCost 4, s) = r at taken ⊢
    obtain ⟨t', x⟩ := r
    dsimp only at taken ⊢
    split
    · exact taken
    · exact (ih _ _).trans taken

end

/-- What a PHY slice measured: the margins, the pin that it did not reach, and its length. -/
def phyMeasured (c : Fin 16) (res : PhyRes) (s : State) : List Margin × Option Nat × Nat × State :=
  if s.bist.phyKind[c] = 4 then caMargins res.low (caTurn s c) phyOver s
  else ((readMargins c s.bist.phyKind[c] res.points s).1, none, (readMargins c s.bist.phyKind[c] res.points s).2)

theorem phyMeasured_inv {β : Type} {g : State → β} (h : BesideProbes g) (c : Fin 16) (res : PhyRes) (s : State) : g (phyMeasured c res s).2.2.2 = g s := by
  unfold phyMeasured
  split
  · exact caMargins_inv h _ _ _ s
  · exact readMargins_inv h c _ _ s

theorem phyMeasured_len (c : Fin 16) (res : PhyRes) (s : State) : (phyMeasured c res s).2.2.1 = if s.bist.phyKind[c] = 4 then (caMargins res.low (caTurn s c) 64 s).2.2.1
    else 64 + 2 * (phyOffs s.bist.phyKind[c]).length * phyCost s.bist.phyKind[c] := by
  unfold phyMeasured
  split <;> rfl

theorem phyMeasured_margins (c : Fin 16) (res : PhyRes) {s : State} (read : s.bist.phyKind[c] ≤ 1) : (phyMeasured c res s).1 = (readMargins c s.bist.phyKind[c] res.points s).1 := by
  unfold phyMeasured
  rw [if_neg (by omega)]

/-! ### The rest of its end -/

/-- Its time and its lines are paid for, and column issue goes on from there. -/
def phyPaid (c : Fin 16) (t len : Nat) (s : State) : State :=
  let s := phyPay c len (advanceTo8 (t + chCk8 s c len) s)
  stopUntil c s.d8 s

/-- The rotation moves on. -/
def phyTurned (c : Fin 16) (k : Nat) (first : Option Nat) (s : State) : State :=
  let seen := s.bist.cycPhy[c]
  phyNext c { s with bist := { s.bist with
    caFirst := if k = 4 then s.bist.caFirst.set c (first.getD 0) else s.bist.caFirst,
    cycPhy := s.bist.cycPhy.set c (if seen.contains k then seen else k :: seen) } }

/-- The slice is counted, and no longer shown. -/
def phyCounted (c : Fin 16) (s : State) : State := sliceDone .phy (fsetBit BST BST_STATUS_CH_RUN c.val (s.bist.dram[c]).isSome s)

theorem phySliceEnd_ends {c : Fin 16} {t : Nat} {s : State} (res : PhyRes) (slice : s.bist.phyRun[c] = some t) (run : chanRuns s c = true) :
    phySliceEnd c res s = refreshOwed c (phyCounted c (phyTurned c s.bist.phyKind[c] (phyMeasured c res s).2.1
      (forAll (phyMeasured c res s).1 (putMargin c s.bist.phyKind[c]) (phyPaid c t (phyMeasured c res s).2.2.1 (phyMeasured c res s).2.2.2)))) := by
  unfold phySliceEnd
  rw [slice]
  refine (if_neg (by simp [run])).trans ?_
  rfl

theorem phySliceEnd_idle {c : Fin 16} {s : State} (idle : s.bist.phyRun[c] = none ∨ chanRuns s c = false) (res : PhyRes) : phySliceEnd c res s = s := by
  unfold phySliceEnd
  split
  · rfl
  next t slice =>
    obtain none_ | off := idle
    · rw [slice] at none_
      cases none_
    · exact if_pos (by simp [off])

theorem phyPaid_inv {β : Type} {g : State → β} (h : BesideChan g) (c : Fin 16) (t len : Nat) (s : State) : g (phyPaid c t len s) = g s :=
  (h.chans _ _).trans ((h.chans _ _).trans ((h.reg c _ (by decide) _ _).trans (h.time _ s)))

theorem phyPaid_d8 (c : Fin 16) (t len : Nat) (s : State) : (phyPaid c t len s).d8 = firstCycle8 s (t + chCk8 s c len) := rfl

theorem phyPaid_debt (c : Fin 16) (t len : Nat) (s : State) : ((phyPaid c t len s).chan c).refDebt = (s.chan c).refDebt := by
  unfold phyPaid stopUntil phyPay
  dsimp only
  rw [updChan_chan, updChan_chan]
  rfl

/-- The margins are recorded. -/
theorem putMargin_inv {β : Type} {g : State → β} (h : BesideLog g) (ix : ∀ (s : State) l, g { s with ix := l } = g s) (c : Fin 16) (k : Nat) (m : Margin) (s : State) : g (putMargin c k m s) = g s := by
  unfold putMargin
  extract_lets r i x th y
  exact ite_keeps (P := (g · = g s)) (fun _ => (h.event _ _ _).trans ((bistLog_inv h _ _).trans (ix s _))) fun _ => ix s _

theorem besideLog_ix : BesideLog (·.ix) := ⟨emit_ix, fun _ => rfl, fun _ => rfl, fun _ => rfl, fun _ _ _ => rfl⟩

/-- The index of a margin of a read delay. -/
def marginIx (c : Fin 16) (k u : Nat) : Nat := 0x100 + (c * 2 + k) * 128 + u

theorem putMargin_ix (c : Fin 16) {k : Nat} (read : k ≤ 1) (m : Margin) (s : State) : (putMargin c k m s).ix = (ixSet BST (marginIx c k m.unit) (BitVec.ofNat 32 (m.left % 256 + m.right % 256 * 256)) s).ix := by
  have rank : (if k = 1 ∨ k = 3 then 1 else 0) = k := by
    split <;> omega
  have place : (if k = 4 then 0x2500 + c.val * 16 + m.unit else if k ≤ 1 then 0x0100 + (c.val * 2 + (if k = 1 ∨ k = 3 then 1 else 0)) * 128 + m.unit
      else 0x2100 + (c.val * 2 + (if k = 1 ∨ k = 3 then 1 else 0)) * 32 + m.unit) = marginIx c k m.unit := by
    rw [if_neg (by omega), if_pos read, rank]
    rfl
  unfold putMargin
  extract_lets r i x th y
  have at_ : i = marginIx c k m.unit := place
  have set_ : x.ix = (ixSet BST (marginIx c k m.unit) (BitVec.ofNat 32 (m.left % 256 + m.right % 256 * 256)) s).ix := by
    rw [← at_]
  exact ite_keeps (P := fun z : State => z.ix = _) (fun _ => ((emit_ix _ _ _).trans (bistLog_inv besideLog_ix _ x)).trans set_) fun _ => set_

theorem forAll_reaches_mem {α : Type} {P : State → Prop} {l : List α} {f : α → State → State} {a : α} (m : a ∈ l) (own : ∀ s, P (f a s)) (kept : ∀ b ∈ l, ∀ s, P s → P (f b s)) (s : State) :
    P (forAll l f s) := by
  induction l generalizing s with
  | nil => exact absurd m List.not_mem_nil
  | cons b l ih =>
    obtain rfl | later := List.mem_cons.mp m
    · have rest : ∀ l', (∀ b ∈ l', b ∈ a :: l) → ∀ x, P x → P (forAll l' f x) := by
        intro l'
        induction l' with
        | nil => exact fun _ _ hx => hx
        | cons b l' ih' => exact fun sub x hx => ih' (fun d hd => sub d (List.mem_cons_of_mem _ hd)) _ (kept b (sub b List.mem_cons_self) x hx)
      exact rest l (fun _ => List.mem_cons_of_mem _) _ (own s)
    · exact ih later (fun d hd => kept d (List.mem_cons_of_mem _ hd)) _

theorem readMargins_unit {c : Fin 16} {k : Nat} {l : List Probe} {s : State} (read : k ≤ 1) {m n : Margin} (hm : m ∈ (readMargins c k l s).1) (hn : n ∈ (readMargins c k l s).1) (same : m.unit = n.unit) : m = n := by
  have margins : ∃ f : Nat → Margin, (∀ b, (f b).unit = b) ∧ (readMargins c k l s).1 = (List.range 72).map f := ⟨_, fun _ => rfl, if_pos read⟩
  obtain ⟨f, unit, eq⟩ := margins
  rw [eq] at hm hn
  obtain ⟨a, -, rfl⟩ := List.mem_map.mp hm
  obtain ⟨b, -, rfl⟩ := List.mem_map.mp hn
  rw [unit, unit] at same
  rw [same]

/-- A margin that was recorded reads back, since every unit has one index. -/
theorem margins_recorded {c : Fin 16} {k : Nat} {ms : List Margin} (read : k ≤ 1) (units : ∀ m ∈ ms, ∀ n ∈ ms, m.unit = n.unit → m = n) (s : State) : ∀ m ∈ ms,
    ixGet (forAll ms (putMargin c k) s) BST (marginIx c k m.unit) = BitVec.ofNat 32 (m.left % 256 + m.right % 256 * 256) := by
  intro m hm
  refine forAll_reaches_mem (P := fun x => ixGet x BST (marginIx c k m.unit) = BitVec.ofNat 32 (m.left % 256 + m.right % 256 * 256)) hm (fun x => ?_) (fun n hn x hx => ?_) s
  · rw [ixGet_congr (putMargin_ix c read m x), ixGet_ixSet]
  · rw [ixGet_congr (putMargin_ix c read n x)]
    by_cases same : n.unit = m.unit
    · rw [units n hn m hm same, ixGet_ixSet]
    · rw [ixGet_ixSet_ne BST (by unfold marginIx; omega), hx]

theorem refreshOwed_none {c : Fin 16} {s : State} (none_ : ∀ r : Fin 2, (s.chan c).refDebt[r] = 0) : refreshOwed c s = s := by
  have d0 := none_ 0
  have d1 := none_ 1
  unfold refreshOwed forAll
  simp only [List.foldl_cons, List.foldl_nil]
  rw [if_pos d0, if_pos d1]

/-- What the end of a PHY slice leaves. -/
structure PhyEnded (c : Fin 16) (k t0 len : Nat) (ms : List Margin) (s t : State) : Prop where
  phyRun : t.bist.phyRun[c] = none
  sincePhy : t.bist.sincePhy[c] = 0
  phyKind : t.bist.phyKind[c] = (k + 1) % 5
  d8 : (∀ r : Fin 2, (s.chan c).refDebt[r] = 0) → t.d8 = firstCycle8 s (t0 + chCk8 s c len)
  margins : k ≤ 1 → (∀ m ∈ ms, ∀ n ∈ ms, m.unit = n.unit → m = n) → ∀ m ∈ ms, ixGet t BST (marginIx c k m.unit) = BitVec.ofNat 32 (m.left % 256 + m.right % 256 * 256)
  count : fget t BST (BST_SLICE_COUNT.nth 3) = min (fget s BST (BST_SLICE_COUNT.nth 3) + 1) (2 ^ 32 - 1)
  run : bitOf (fget t BST BST_STATUS_CH_RUN) c = (s.bist.dram[c]).isSome

/-- What the recording of the margins leaves, from the measurements on. -/
structure PhyRecorded (c : Fin 16) (k t0 len : Nat) (ms : List Margin) (s z : State) : Prop where
  dram : z.bist.dram = s.bist.dram
  phyKind : z.bist.phyKind = s.bist.phyKind
  debt : (z.chan c).refDebt = (s.chan c).refDebt
  d8 : z.d8 = firstCycle8 s (t0 + chCk8 s c len)
  margins : k ≤ 1 → (∀ m ∈ ms, ∀ n ∈ ms, m.unit = n.unit → m = n) → ∀ m ∈ ms, ixGet z BST (marginIx c k m.unit) = BitVec.ofNat 32 (m.left % 256 + m.right % 256 * 256)
  count : fget z BST (BST_SLICE_COUNT.nth 3) = fget s BST (BST_SLICE_COUNT.nth 3)

theorem besideChan_BST (f : Fld) (low : f.off < 0x1000) : BesideChan (fget · BST f) :=
  ⟨fun _ _ => rfl, fun _ _ => rfl, fun _ _ => rfl, fun c g hg v s => fget_fset_ne _ _ _ _ _ s (by
    have := c.isLt
    simp only [BST, CH]
    omega)⟩

theorem besideChan_ix : BesideChan (·.ix) := ⟨fun _ _ => rfl, fun _ _ => rfl, fun _ _ => rfl, fun _ _ _ _ _ => rfl⟩

theorem phyRecorded (c : Fin 16) (k t0 len : Nat) (ms : List Margin) {s y : State} (measured : ∀ {β : Type} {g : State → β}, BesideProbes g → g y = g s) :
    PhyRecorded c k t0 len ms s (forAll ms (putMargin c k) (phyPaid c t0 len y)) := by
  have recorded {β : Type} {g : State → β} (h : BesideLog g) (ix : ∀ (s : State) l, g { s with ix := l } = g s) (x : State) : g (forAll ms (putMargin c k) x) = g x :=
    forAll_inv g _ _ x fun m x => putMargin_inv h ix c k m x
  have slots : BesideLog (·.bist.dram) := ⟨fun h x s => congrArg BistState.dram (emit_bist h x s), fun _ => rfl, fun _ => rfl, fun _ => rfl, fun _ _ _ => rfl⟩
  have kinds : BesideLog (·.bist.phyKind) := ⟨fun h x s => congrArg BistState.phyKind (emit_bist h x s), fun _ => rfl, fun _ => rfl, fun _ => rfl, fun _ _ _ => rfl⟩
  have debts : BesideLog (fun s => (s.chan c).refDebt) := ⟨fun h x s => congrArg ChanState.refDebt (chan_congr (emit_chans h x s) c), fun _ => rfl, fun _ => rfl, fun _ => rfl, fun _ _ _ => rfl⟩
  have times : BesideLog (·.d8) := ⟨emit_d8, fun _ => rfl, fun _ => rfl, fun _ => rfl, fun _ _ _ => rfl⟩
  refine ⟨?_, ?_, ?_, ?_, fun read units => margins_recorded read units _, ?_⟩
  · exact (recorded slots (fun _ _ => rfl) _).trans ((congrArg BistState.dram (phyPaid_inv besideChan_bist c t0 len y)).trans (measured (g := (·.bist.dram)) ⟨fun _ _ => rfl, fun _ _ => rfl⟩))
  · exact (recorded kinds (fun _ _ => rfl) _).trans ((congrArg BistState.phyKind (phyPaid_inv besideChan_bist c t0 len y)).trans (measured (g := (·.bist.phyKind)) ⟨fun _ _ => rfl, fun _ _ => rfl⟩))
  · exact (recorded debts (fun _ _ => rfl) _).trans ((phyPaid_debt c t0 len y).trans (measured (g := fun s => (s.chan c).refDebt) ⟨fun _ _ => rfl, fun _ _ => rfl⟩))
  · exact (recorded times (fun _ _ => rfl) _).trans ((phyPaid_d8 c t0 len y).trans (measured (g := fun s => firstCycle8 s (t0 + chCk8 s c len)) ⟨fun _ _ => rfl, fun _ _ => rfl⟩))
  · exact (recorded (besideLog_BST (by decide) (by decide) (by decide)) (fun _ _ => rfl) _).trans
      ((phyPaid_inv (besideChan_BST (BST_SLICE_COUNT.nth 3) (by decide)) c t0 len y).trans (measured (g := (fget · BST (BST_SLICE_COUNT.nth 3))) ⟨fun _ _ => rfl, fun _ _ => rfl⟩))

/-- What the turn of the rotation and the count leave. -/
theorem PhyRecorded.ended {c : Fin 16} {k t0 len : Nat} {ms : List Margin} {s z : State} (first : Option Nat) (kind : k = s.bist.phyKind[c]) (h : PhyRecorded c k t0 len ms s z) :
    PhyEnded c k t0 len ms s (refreshOwed c (phyCounted c (phyTurned c k first z))) := by
  have runs : (phyTurned c k first z).bist.phyRun[c] = none := by simp [phyTurned, phyNext]
  have since : (phyTurned c k first z).bist.sincePhy[c] = 0 := by simp [phyTurned, phyNext]
  have kinds : (phyTurned c k first z).bist.phyKind[c] = (k + 1) % 5 := by
    rw [kind, ← h.phyKind]
    simp [phyTurned, phyNext]
  have dram : (phyTurned c k first z).bist.dram = s.bist.dram := h.dram
  have same : (phyTurned c k first z).chans = z.chans ∧ (phyTurned c k first z).d8 = z.d8 ∧ (phyTurned c k first z).ix = z.ix ∧ (phyTurned c k first z).regs = z.regs := ⟨rfl, rfl, rfl, rfl⟩
  generalize phyTurned c k first z = y at *
  obtain ⟨chans, d8, ix, regs⟩ := same
  have counted := sliceDone_counted .phy (fsetBit BST BST_STATUS_CH_RUN c.val (y.bist.dram[c]).isSome y)
  have run : bitOf (fget (phyCounted c y) BST BST_STATUS_CH_RUN) c = (y.bist.dram[c]).isSome := by
    unfold phyCounted
    rw [sliceDone_status rfl]
    exact bitOf_fsetBit _ _ _ _ (by decide) c.isLt
  have count : fget (phyCounted c y) BST (BST_SLICE_COUNT.nth 3) = min (fget y BST (BST_SLICE_COUNT.nth 3) + 1) (2 ^ 32 - 1) :=
    (sliceDone_count .phy _).trans (congrArg (fun n => min (n + 1) (2 ^ 32 - 1)) (fget_fset_ne _ _ _ _ _ _ (by decide)))
  change Counted _ (phyCounted c y) at counted
  generalize phyCounted c y = x at *
  have bist := refreshOwed_besideChan besideChan_bist c x
  refine ⟨?_, ?_, ?_, fun none_ => ?_, fun read units m hm => ?_, ?_, ?_⟩
  · rw [bist, counted.phyRun]
    exact runs
  · rw [bist, counted.sincePhy]
    exact since
  · rw [bist, counted.phyKind]
    exact kinds
  · rw [refreshOwed_none fun r => ?_]
    · exact counted.d8.trans (d8.trans h.d8)
    · rw [chan_congr (counted.chans.trans chans), h.debt]
      exact none_ r
  · rw [ixGet_congr (refreshOwed_besideChan besideChan_ix c x), ixGet_congr (counted.ix.trans ix)]
    exact h.margins read units m hm
  · rw [refreshOwed_besideChan (besideChan_BST (BST_SLICE_COUNT.nth 3) (by decide)) c x, count, fget_congr regs, h.count]
  · rw [refreshOwed_besideChan (besideChan_BST BST_STATUS_CH_RUN (by decide)) c x, run, dram]

theorem phySliceEnd_ended {c : Fin 16} {t0 : Nat} {s : State} (res : PhyRes) (slice : s.bist.phyRun[c] = some t0) (run : chanRuns s c = true) :
    PhyEnded c s.bist.phyKind[c] t0 (phyMeasured c res s).2.2.1 (phyMeasured c res s).1 s (phySliceEnd c res s) := by
  rw [phySliceEnd_ends res slice run]
  exact (phyRecorded c _ t0 _ _ fun h => phyMeasured_inv h c res s).ended _ rfl

/-! ### The end of a lane's scan (13 R386) -/

/-- The lane's eye is recorded, and the scan is over. -/
def scanRecorded (p : Fin 4) (end8 mv mui l n : Nat) (s : State) : State :=
  let s := advanceTo8 end8 s
  let s := { s with bist := { s.bist with
    laneRun := s.bist.laneRun.set p none, laneNext := s.bist.laneNext.set p ((s.bist.laneNext[p] + 1) % n),
    cycLane := if s.bist.cycLane.contains (p, l) then s.bist.cycLane else (p, l) :: s.bist.cycLane } }
  fsetBit BST BST_STATUS_LANE_RUN p.val false (ixSet (HP p) (0x20 + l) (BitVec.ofNat 32 (mv % 65536 + mui % 65536 * 65536)) s)

/-- A weak lane is logged and reported. -/
def weakTold (p : Fin 4) (mv mui l : Nat) (s : State) : State :=
  if mv < fget s BST BST_LANE_H_MIN * 2 ∨ mui < fget s BST BST_LANE_W_MIN * 10 then
    emit "bist_lane" [("port", .n p), ("lane", .n l), ("height_mv", .n mv), ("width_mui", .n mui)] (bistLog { target := 4, kind := 7, unit := p, what := l } s)
  else s

theorem laneSliceEnd_eq (p : Fin 4) (t8 mv mui : Nat) {l : Nat} {s : State} (lane : (laneGroup s p)[s.bist.laneNext[p] % (laneGroup s p).length]? = some l) :
    laneSliceEnd p t8 mv mui s = sliceDone .lane (weakTold p mv mui l (scanRecorded p (t8 + 1600000) mv mui l (laneGroup s p).length s)) := by
  unfold laneSliceEnd
  generalize t8 + 1600000 = end8
  have next : ((laneGroup s p)[(advanceTo8 end8 s).bist.laneNext[p] % (laneGroup s p).length]?).getD 0 = l := by
    rw [(advanceTo8_sides end8 s).2.1, lane]
    rfl
  dsimp only
  rw [next]
  rfl

theorem weakTold_inv {β : Type} {g : State → β} (h : BesideLog g) (p : Fin 4) (mv mui l : Nat) (s : State) : g (weakTold p mv mui l s) = g s :=
  ite_keeps (P := (g · = g s)) (fun _ => (h.event _ _ _).trans (bistLog_inv h _ s)) fun _ => rfl

/-- What the end of a scan leaves. -/
structure ScanEnded (p : Fin 4) (end8 mv mui l n : Nat) (s t : State) : Prop where
  eye : ixGet t (HP p) (0x20 + l) = BitVec.ofNat 32 (mv % 65536 + mui % 65536 * 65536)
  laneNext : t.bist.laneNext[p] = (s.bist.laneNext[p] + 1) % n
  laneRun : t.bist.laneRun[p] = none
  run : bitOf (fget t BST BST_STATUS_LANE_RUN) p = false
  d8 : t.d8 = firstCycle8 s end8
  count : fget t BST (BST_SLICE_COUNT.nth 4) = min (fget s BST (BST_SLICE_COUNT.nth 4) + 1) (2 ^ 32 - 1)
  ports : t.ports = s.ports

/-- What it leaves before the slice is counted. -/
structure ScanUncounted (p : Fin 4) (end8 mv mui l n : Nat) (s t : State) : Prop where
  eye : ixGet t (HP p) (0x20 + l) = BitVec.ofNat 32 (mv % 65536 + mui % 65536 * 65536)
  laneNext : t.bist.laneNext[p] = (s.bist.laneNext[p] + 1) % n
  laneRun : t.bist.laneRun[p] = none
  run : bitOf (fget t BST BST_STATUS_LANE_RUN) p = false
  d8 : t.d8 = firstCycle8 s end8
  count : fget t BST (BST_SLICE_COUNT.nth 4) = fget s BST (BST_SLICE_COUNT.nth 4)
  ports : t.ports = s.ports

theorem scanRecorded_uncounted (p : Fin 4) (end8 mv mui l n : Nat) (s : State) : ScanUncounted p end8 mv mui l n s (scanRecorded p end8 mv mui l n s) := by
  have run : bitOf (fget (scanRecorded p end8 mv mui l n s) BST BST_STATUS_LANE_RUN) p = false := bitOf_fsetBit _ _ _ _ (by decide) p.isLt
  have count : fget (scanRecorded p end8 mv mui l n s) BST (BST_SLICE_COUNT.nth 4) = fget s BST (BST_SLICE_COUNT.nth 4) := (fget_fset_ne _ _ _ _ _ _ (by decide)).trans rfl
  refine ⟨ixGet_ixSet _ _ _ _, ?_, ?_, run, rfl, count, rfl⟩
  · simp [scanRecorded, fsetBit, advanceTo8, advance]
  · simp [scanRecorded, fsetBit, advanceTo8, advance]

theorem ScanUncounted.told {p : Fin 4} {end8 mv mui l n : Nat} {s y : State} (h : ScanUncounted p end8 mv mui l n s y) : ScanUncounted p end8 mv mui l n s (weakTold p mv mui l y) := by
  have runs : (weakTold p mv mui l y).bist.laneRun = y.bist.laneRun :=
    weakTold_inv (g := (·.bist.laneRun)) ⟨fun h x s => congrArg BistState.laneRun (emit_bist h x s), fun _ => rfl, fun _ => rfl, fun _ => rfl, fun _ _ _ => rfl⟩ p mv mui l y
  have next : (weakTold p mv mui l y).bist.laneNext = y.bist.laneNext :=
    weakTold_inv (g := (·.bist.laneNext)) ⟨fun h x s => congrArg BistState.laneNext (emit_bist h x s), fun _ => rfl, fun _ => rfl, fun _ => rfl, fun _ _ _ => rfl⟩ p mv mui l y
  have ix := weakTold_inv besideLog_ix p mv mui l y
  have d8 := weakTold_inv (g := (·.d8)) ⟨emit_d8, fun _ => rfl, fun _ => rfl, fun _ => rfl, fun _ _ _ => rfl⟩ p mv mui l y
  have ports := weakTold_inv (g := (·.ports)) ⟨emit_ports, fun _ => rfl, fun _ => rfl, fun _ => rfl, fun _ _ _ => rfl⟩ p mv mui l y
  have run := weakTold_inv (besideLog_BST (f := BST_STATUS_LANE_RUN) (by decide) (by decide) (by decide)) p mv mui l y
  have count := weakTold_inv (besideLog_BST (f := BST_SLICE_COUNT.nth 4) (by decide) (by decide) (by decide)) p mv mui l y
  generalize weakTold p mv mui l y = z at *
  exact ⟨(ixGet_congr ix _ _).trans h.eye, (congrArg (·[p]) next).trans h.laneNext, (congrArg (·[p]) runs).trans h.laneRun, (congrArg (bitOf · p) run).trans h.run, d8.trans h.d8, count.trans h.count, ports.trans h.ports⟩

theorem ScanUncounted.counted {p : Fin 4} {end8 mv mui l n : Nat} {s y : State} (h : ScanUncounted p end8 mv mui l n s y) : ScanEnded p end8 mv mui l n s (sliceDone .lane y) := by
  have done := sliceDone_counted .lane y
  have run := sliceDone_status (f := BST_STATUS_LANE_RUN) rfl .lane y
  have count := sliceDone_count .lane y
  generalize sliceDone .lane y = z at *
  exact ⟨(ixGet_congr done.ix _ _).trans h.eye, (congrArg (·[p]) done.laneNext).trans h.laneNext, (congrArg (·[p]) done.laneRun).trans h.laneRun, (congrArg (bitOf · p) run).trans h.run, done.d8.trans h.d8,
    count.trans (congrArg (fun n => min (n + 1) (2 ^ 32 - 1)) h.count), done.ports.trans h.ports⟩

/-! ### The commands -/

section
variable {s : State}

theorem waySliceStart_idle (idle : coreRuns s = false ∨ fbit s BST BST_CTL_WAY_EN = false ∨ s.bist.way.isSome = true) : waySliceStart s = s := if_pos (by
  obtain off | off | busy := idle
  · simp [off]
  · simp [off]
  · simp [busy])

/-- A slice of the Waystation that is due: it waits, or the next one is fixed and it begins. -/
theorem waySliceStart_due (run : coreRuns s = true) (on : fbit s BST BST_CTL_WAY_EN = true) (free : s.bist.way = none) (due : s.bist.wayDue ≤ s.ns) :
    waySliceStart s = if (waySliceBad s).isSome then waitFor 0 0 (waySliceBad s) s else waySliceGo { s with bist := { s.bist with wayDue := s.ns + wayIntNs s } } := by
  unfold waySliceStart
  rw [if_neg (by simp [run, on, free]), advanceToNs_now due]

theorem laneSlice_idle (p : Fin 4) (mv mui : Nat) (idle : coreRuns s = false ∨ s.bist.laneRun[p] = none ∧ (fbit s BST BST_CTL_LANE_EN = false ∨ laneGroup s p = [])) : laneSlice p mv mui s = s := by
  unfold laneSlice
  obtain off | ⟨none_, off⟩ := idle
  · exact if_pos (by simp [off])
  · split
    · rfl
    · rw [none_]
      exact if_pos (by obtain off | off := off <;> simp [off])

/-- A scan that is due: it waits, or the next one is fixed and it begins. -/
theorem laneSlice_due (p : Fin 4) (mv mui : Nat) (run : coreRuns s = true) (idle : s.bist.laneRun[p] = none) (on : fbit s BST BST_CTL_LANE_EN = true) (group : laneGroup s p ≠ []) (due : s.bist.laneDue[p] ≤ s.ns) :
    laneSlice p mv mui s = if (sliceGate s laneMw 200000 true).isSome then waitFor 4 p.val (sliceGate s laneMw 200000 true) s
      else laneSliceGo p { s with bist := { s.bist with laneDue := s.bist.laneDue.set p (s.ns + laneIntNs s) } } := by
  unfold laneSlice
  rw [if_neg (by simp [run]), idle]
  dsimp only
  rw [if_neg (by simp [on, group]), advanceToNs_now due]

end

/-- Settles O47: a slice that is due begins or waits, and one that runs ends with what it measured. -/
theorem slicesRun : Obligations.SlicesRun := by
  unfold Obligations.SlicesRun
  refine ⟨?wayStart, ?wayIdle, ?wayWaits, ?wayEnd, ?wayNone, ?phyStart, ?phyIdle, ?phyWaits, ?phyEnd, ?phyNone, ?laneStart, ?laneWaits, ?laneEnd, ?laneIdle⟩
  case wayStart =>
    intro s run on free due good
    have e : exec .waySliceStart s = .next _ := congrArg Host.Outcome.next ((waySliceStart_due run on free due).trans (if_neg (by simp [good])))
    obtain ⟨x, begun⟩ := waySliceGo_begun { s with bist := { s.bist with wayDue := s.ns + wayIntNs s } }
    generalize waySliceGo { s with bist := { s.bist with wayDue := s.ns + wayIntNs s } } = t at *
    exact ⟨t, x, e, begun.way, begun.running, begun.at8, begun.frames, begun.run, begun.wayDue, begun.wayNext, begun.lastStart, begun.d8, begun.dram, exec_streams e (by simp [stores]), exec_keptStore (σ := .mans) e (by simp [stores])⟩
  case wayIdle =>
    intro s idle
    exact congrArg Host.Outcome.next (waySliceStart_idle idle)
  case wayWaits =>
    intro s run on free due bad
    exact congrArg Host.Outcome.next ((waySliceStart_due run on free due).trans (if_pos bad))
  case wayEnd =>
    intro errs x u s acted run quiet slice
    have passed := waySlicePassed_passed x s
    have e : exec (.waySliceEnd [] [] errs) u = .next (settle (waySlicePassed x s)) := by
      rw [← waySliceEnd_passed run slice, acted]
      rfl
    generalize waySlicePassed x s = t at *
    rw [settle_settled (settled_congr quiet passed.caravans passed.streams)] at e
    exact ⟨t, e, passed.way, passed.run, passed.frames, passed.scrub, passed.d8, passed.count, passed.dram, passed.streams, passed.mans⟩
  case wayNone =>
    intro errs bad l u s acted quiet idle
    have e : exec (.waySliceEnd bad l errs) u = .next (settle (waySliceEnd bad l s)) := by
      rw [acted]
      rfl
    rw [e, waySliceEnd_idle idle, settle_settled quiet]
  case phyStart =>
    intro c s run turn good
    have e : exec (.phySliceStart c) s = .next (phySliceGo c s) := congrArg Host.Outcome.next ((if_neg (by simp [run, turn])).trans (if_neg (by simp [good])))
    have begun := phySliceGo_begun c s
    exact ⟨_, e, begun.phyRun, begun.later, begun.run, begun.lastStart, begun.store.1, begun.store.2.1⟩
  case phyIdle =>
    intro c s idle
    exact congrArg Host.Outcome.next (if_pos (by obtain off | off := idle <;> simp [off]))
  case phyWaits =>
    intro c s run turn bad
    exact congrArg Host.Outcome.next ((if_neg (by simp [run, turn])).trans (if_pos bad))
  case phyEnd =>
    intro c res t0 s slice run
    have ended := phySliceEnd_ended res slice run
    have e : exec (.phySliceEnd c res) s = .next (phySliceEnd c res s) := rfl
    generalize phySliceEnd c res s = t at *
    refine ⟨t, e, ended.phyRun, ended.sincePhy, ended.phyKind, fun none_ => ?_, fun read m hm => ?_, ended.count, ended.run, exec_dram e (by simp [stores]), exec_wmem e (by simp [stores]),
      exec_streams e (by simp [stores]), exec_keptStore (σ := .mans) e (by simp [stores])⟩
    · rw [ended.d8 none_, phyMeasured_len]
    · have margins := ended.margins read
      rw [phyMeasured_margins c res read] at margins
      exact margins (fun m hm n hn => readMargins_unit read hm hn) m hm
  case phyNone =>
    intro c res s idle
    exact congrArg Host.Outcome.next (phySliceEnd_idle idle res)
  case laneStart =>
    intro p mv mui s run idle on due free group
    have e : exec (.laneSlice p mv mui) s = .next _ := congrArg Host.Outcome.next ((laneSlice_due p mv mui run idle on group due).trans (if_neg (by simp [free])))
    have begun := laneSliceGo_begun p { s with bist := { s.bist with laneDue := s.bist.laneDue.set p (s.ns + laneIntNs s) } }
    generalize laneSliceGo p { s with bist := { s.bist with laneDue := s.bist.laneDue.set p (s.ns + laneIntNs s) } } = t at *
    have next : t.bist.laneDue[p] = s.ns + laneIntNs s := (congrArg (·[p]) begun.laneDue).trans (by simp)
    exact ⟨t, e, begun.laneRun.trans (congrArg some begun.d8.symm), begun.run, begun.d8, next, begun.lastStart, begun.ports, begun.store⟩
  case laneWaits =>
    intro p mv mui s run idle on group due bad
    exact congrArg Host.Outcome.next ((laneSlice_due p mv mui run idle on group due).trans (if_pos bad))
  case laneEnd =>
    intro p mv mui l t0 s run scan lane
    have e : exec (.laneSlice p mv mui) s = .next (laneSliceEnd p t0 mv mui s) := by
      refine congrArg Host.Outcome.next ((if_neg (by simp [run])).trans ?_)
      rw [scan]
    rw [laneSliceEnd_eq p t0 mv mui lane] at e
    have ended := (scanRecorded_uncounted p (t0 + 1600000) mv mui l (laneGroup s p).length s).told.counted
    generalize sliceDone .lane _ = t at *
    exact ⟨t, e, ended.eye, ended.laneNext, ended.laneRun, ended.run, ended.d8, ended.count, ended.ports, exec_dram e (by simp [stores]), exec_wmem e (by simp [stores])⟩
  case laneIdle =>
    intro p mv mui s idle
    exact congrArg Host.Outcome.next (laneSlice_idle p mv mui idle)

end Sys2Proof.Proofs

/-! PROOF. A DRAM slice, from its copy to the restored row (13 R376 to R382). -/

namespace Sys2Proof.Proofs
open Sys2Proof Sys2Proof.Machine Sys2Proof.Laws

/-! ### The copy of a row, as its lines are found (13 R377) -/

theorem insRising_mem {a k : Nat} {l : List Nat} : k ∈ insRising a l ↔ k = a ∨ k ∈ l := by
  induction l with
  | nil => simp [insRising]
  | cons b l ih =>
    unfold insRising
    split
    · exact List.mem_cons
    · split
      next same => simp [same]
      next => simp [ih, or_left_comm]

theorem dramLine_setDram_self (c : Fin 16) (lam : Nat) (s : State) (k : Fin 16) (m : Nat) : dramLine (setDram c lam (dramLine s c lam) s) k m = dramLine s k m := by
  by_cases same : dramAddr k m = dramAddr c lam
  · unfold dramLine
    rw [same, setDram_dram, cellLine_cellsSet]
  · unfold dramLine
    rw [setDram_dram, cellLine_cellsSet_apart _ _ (by unfold dramAddr at *; omega)]

theorem twinFirst_WAY (f : Fld) (v : Nat) (s : State) : twinFirst (fset WAY f v s) = twinFirst s := by
  have kept : ∀ g : Fld, g.off < 0x10000 → fget (fset WAY f v s) GLB g = fget s GLB g := fun g low => fget_fset_ne _ _ _ _ _ _ (by simp only [GLB, WAY]; omega)
  have map : geometry (fset WAY f v s) = geometry s := geometry_fset (by simp only [GLB, GLB_MAP_GEOM_WIDTH, WAY]; omega) v s
  simp only [twinFirst, twinE, chLines, rankLines, geoRows_congr map, geoCols_congr map, geoRanks_congr map, kept GLB_MAP_TWIN_EIGHTHS (by decide)]

theorem psnBase_updChan (c : Fin 16) (g : List Nat → List Nat) (s : State) (i : Nat) : psnBase (updChan c (fun x => { x with psn := g x.psn }) s) c i = psnBase s c i := by
  unfold psnBase
  rw [updChan_chan]
  rfl

/-- A line that is recorded as poisoned, and no other. -/
theorem dramPsn_setDramPsn (c : Fin 16) (lam : Nat) (s : State) (k : Fin 16) (i : Nat) : dramPsn (setDramPsn c lam true s) k i = (dramPsn s k i || (decide (k = c) && decide (i = lam))) := by
  by_cases chan : k = c
  · subst chan
    unfold setDramPsn
    split
    next base =>
      unfold dramPsn
      rw [psnBase_updChan k (fun l => l.filter fun k => k ≠ lam), updChan_chan]
      by_cases line : i = lam
      · subst line
        have base' : psnBase s k i = true := base.symm
        simp [base', List.contains_eq_mem]
      · simp [line, List.contains_eq_mem]
    next base =>
      unfold dramPsn
      rw [psnBase_updChan k (insRising lam), updChan_chan]
      by_cases line : i = lam
      · subst line
        have base' : psnBase s k i = false := by
          cases h : psnBase s k i
          · rfl
          · exact absurd h.symm base
        simp [base', List.contains_eq_mem, insRising_mem]
      · simp [line, List.contains_eq_mem, insRising_mem]
  · have other : (setDramPsn c lam true s).chan k = s.chan k := by
      unfold setDramPsn
      split <;> exact updChan_chan_ne chan _ s
    have first : twinFirst (setDramPsn c lam true s) = twinFirst s := by
      unfold setDramPsn
      split <;> rfl
    unfold dramPsn psnBase
    rw [other, first]
    simp [chan]

/-- What the copy of some lines leaves, and what SEC-DED found in them. -/
structure Copied (c : Fin 16) (l : List (Nat × LineEcc)) (s t : State) : Prop where
  lines : ∀ k m, dramLine t k m = dramLine s k m
  poison : ∀ k i, dramPsn t k i = (dramPsn s k i || (decide (k = c) && l.contains (i, .uncorrectable)))
  ue : fget t WAY WAY_UE_COUNT = min (fget s WAY WAY_UE_COUNT + (l.map (·.2)).count .uncorrectable) (2 ^ 32 - 1)
  ce : fget t WAY WAY_CE_COUNT = min (fget s WAY WAY_CE_COUNT + (l.map (·.2)).count .corrected) (2 ^ 32 - 1)
  bg : (t.chan c).bg = (s.chan c).bg
  bist : t.bist = s.bist
  geometry : geometry t = geometry s
  fields : ∀ b f, (b = BST ∨ b = LED) → f.off < 0x1000 → fget t b f = fget s b f
  wmem : t.wmem = s.wmem
  d8 : t.d8 = s.d8
  streams : t.streams = s.streams
  mans : t.mans = s.mans

theorem copied_nil (c : Fin 16) (s : State) : Copied c [] s s := by
  have ue := fget_lt s WAY WAY_UE_COUNT
  have ce := fget_lt s WAY WAY_CE_COUNT
  have width : (2 : Nat) ^ WAY_UE_COUNT.width = 2 ^ 32 ∧ (2 : Nat) ^ WAY_CE_COUNT.width = 2 ^ 32 := ⟨rfl, rfl⟩
  refine ⟨fun _ _ => rfl, fun _ _ => by simp, ?_, ?_, rfl, rfl, rfl, fun _ _ _ _ => rfl, rfl, rfl, rfl, rfl⟩
  · simp only [List.map_nil, List.count_nil]
    omega
  · simp only [List.map_nil, List.count_nil]
    omega

/-- What the count of an error leaves. -/
theorem errorCount_kept {f : Fld} (s : State) (count : f = WAY_UE_COUNT ∨ f = WAY_CE_COUNT) :
    geometry (fbump WAY f s) = geometry s ∧ (∀ b g, (b = BST ∨ b = LED) → g.off < 0x1000 → fget (fbump WAY f s) b g = fget s b g) ∧ ∀ k i, dramPsn (fbump WAY f s) k i = dramPsn s k i := by
  refine ⟨geometry_fset (by obtain rfl | rfl := count <;> decide) _ s, fun b g block low => fget_fset_ne _ _ _ _ _ _ ?_, fun k i => ?_⟩
  · obtain rfl | rfl := block <;> obtain rfl | rfl := count <;> simp only [BST, LED, WAY, WAY_UE_COUNT, WAY_CE_COUNT] <;> omega
  · have first : twinFirst (fbump WAY f s) = twinFirst s := twinFirst_WAY f _ s
    unfold dramPsn psnBase
    rw [first]
    rfl

theorem Copied.trans {c : Fin 16} {l m : List (Nat × LineEcc)} {s y t : State} (first : Copied c l s y) (rest : Copied c m y t) : Copied c (l ++ m) s t where
  lines k i := (rest.lines k i).trans (first.lines k i)
  poison k i := by
    rw [rest.poison, first.poison, Bool.or_assoc, ← Bool.and_or_distrib_left]
    simp only [List.contains_eq_mem, List.mem_append, Bool.decide_or]
  ue := by
    rw [rest.ue, first.ue, List.map_append, List.count_append]
    omega
  ce := by
    rw [rest.ce, first.ce, List.map_append, List.count_append]
    omega
  bg := rest.bg.trans first.bg
  bist := rest.bist.trans first.bist
  geometry := rest.geometry.trans first.geometry
  fields b f block low := (rest.fields b f block low).trans (first.fields b f block low)
  wmem := rest.wmem.trans first.wmem
  d8 := rest.d8.trans first.d8
  streams := rest.streams.trans first.streams
  mans := rest.mans.trans first.mans

theorem copied_corrected (c : Fin 16) (lam : Nat) (s : State) : Copied c [(lam, .corrected)] s (fbump WAY WAY_CE_COUNT s) := by
  obtain ⟨map, fields, poison⟩ := errorCount_kept s (.inr rfl)
  have ue : fget (fbump WAY WAY_CE_COUNT s) WAY WAY_UE_COUNT = fget s WAY WAY_UE_COUNT := fget_fbump_ne _ _ _ _ s (by decide)
  have small := fget_lt s WAY WAY_UE_COUNT
  have width : (2 : Nat) ^ WAY_UE_COUNT.width = 2 ^ 32 := rfl
  refine ⟨fun _ _ => rfl, fun k i => ?_, ?_, fget_fbump _ _ _ (by decide), rfl, rfl, map, fields, rfl, rfl, rfl, rfl⟩
  · rw [poison]
    simp
  · rw [ue]
    simp only [List.map_cons, List.map_nil, List.count_singleton]
    change _ = min (fget s WAY WAY_UE_COUNT + 0) _
    omega

theorem dramPsn_dram (m : List Host.Cell) (s : State) (k : Fin 16) (i : Nat) : dramPsn { s with dram := m } k i = dramPsn s k i := rfl

theorem dramPsn_setDram (c : Fin 16) (lam : Nat) (l : Line) (s : State) (k : Fin 16) (i : Nat) : dramPsn (setDram c lam l s) k i = dramPsn s k i := dramPsn_dram _ s k i

theorem setDramPsn_inv {β : Type} {g : State → β} (chan : ∀ (x : State) l, g { x with chans := l } = g x) (c : Fin 16) (lam : Nat) (x : State) : g (setDramPsn c lam true x) = g x := by
  unfold setDramPsn
  split <;> exact chan x _

theorem stored_inv {β : Type} {g : State → β} (chan : ∀ (x : State) l, g { x with chans := l } = g x) (dram : ∀ (x : State) m, g { x with dram := m } = g x) (c : Fin 16) (lam : Nat) (l : Line) (x : State) :
    g (storeLine c lam l true x) = g x := (setDramPsn_inv chan c lam _).trans (dram x _)

theorem updChan_psn_bg (c : Fin 16) (g : List Nat → List Nat) (s : State) : ((updChan c (fun x => { x with psn := g x.psn }) s).chan c).bg = (s.chan c).bg := by rw [updChan_chan]

theorem setDramPsn_bg (c : Fin 16) (lam : Nat) (s : State) : ((setDramPsn c lam true s).chan c).bg = (s.chan c).bg := by
  unfold setDramPsn
  split
  · exact updChan_psn_bg c _ s
  · exact updChan_psn_bg c _ s

theorem dramLine_setDramPsn (c : Fin 16) (lam : Nat) (s : State) (k : Fin 16) (m : Nat) : dramLine (setDramPsn c lam true s) k m = dramLine s k m :=
  dramLine_congr (setDramPsn_inv (g := (·.dram)) (fun _ _ => rfl) c lam s) k m

theorem storeLine_bg (c : Fin 16) (lam : Nat) (l : Line) (s : State) : ((storeLine c lam l true s).chan c).bg = (s.chan c).bg :=
  (setDramPsn_bg c lam _).trans (congrArg ChanState.bg (chan_congr (setDram_chans c lam l s) c))

theorem copied_poisoned (c : Fin 16) (lam : Nat) (s : State) : Copied c [(lam, .uncorrectable)] s (storeLine c lam (dramLine s c lam) true (fbump WAY WAY_UE_COUNT s)) := by
  obtain ⟨map, fields, poison⟩ := errorCount_kept s (.inl rfl)
  have line : dramLine (fbump WAY WAY_UE_COUNT s) c lam = dramLine s c lam := rfl
  have ue : fget (fbump WAY WAY_UE_COUNT s) WAY WAY_UE_COUNT = min (fget s WAY WAY_UE_COUNT + 1) (2 ^ 32 - 1) := fget_fbump _ _ _ (by decide)
  have ce : fget (fbump WAY WAY_UE_COUNT s) WAY WAY_CE_COUNT = fget s WAY WAY_CE_COUNT := fget_fbump_ne _ _ _ _ s (by decide)
  have same : (fbump WAY WAY_UE_COUNT s).bist = s.bist ∧ (fbump WAY WAY_UE_COUNT s).chans = s.chans ∧ (fbump WAY WAY_UE_COUNT s).wmem = s.wmem ∧ (fbump WAY WAY_UE_COUNT s).d8 = s.d8 ∧
      (fbump WAY WAY_UE_COUNT s).streams = s.streams ∧ (fbump WAY WAY_UE_COUNT s).mans = s.mans ∧ (fbump WAY WAY_UE_COUNT s).dram = s.dram := ⟨rfl, rfl, rfl, rfl, rfl, rfl, rfl⟩
  have small := fget_lt s WAY WAY_CE_COUNT
  have width : (2 : Nat) ^ WAY_CE_COUNT.width = 2 ^ 32 := rfl
  rw [← line]
  generalize fbump WAY WAY_UE_COUNT s = y at *
  obtain ⟨bist, chans, wmem, d8, streams, mans, dram⟩ := same
  have bg : ((storeLine c lam (dramLine y c lam) true y).chan c).bg = (y.chan c).bg := storeLine_bg c lam _ y
  refine ⟨fun k m => ?_, fun k i => ?_, (stored_inv (g := (fget · WAY WAY_UE_COUNT)) (fun _ _ => rfl) (fun _ _ => rfl) c lam _ y).trans ue, ?_, bg.trans (congrArg ChanState.bg (chan_congr chans c)),
    (stored_inv (g := (·.bist)) (fun _ _ => rfl) (fun _ _ => rfl) c lam _ y).trans bist, (stored_inv (g := Proofs.geometry) (fun _ _ => rfl) (fun _ _ => rfl) c lam _ y).trans map,
    fun b f block low => (stored_inv (g := (fget · b f)) (fun _ _ => rfl) (fun _ _ => rfl) c lam _ y).trans (fields b f block low), (stored_inv (g := (·.wmem)) (fun _ _ => rfl) (fun _ _ => rfl) c lam _ y).trans wmem,
    (stored_inv (g := (·.d8)) (fun _ _ => rfl) (fun _ _ => rfl) c lam _ y).trans d8, (stored_inv (g := (·.streams)) (fun _ _ => rfl) (fun _ _ => rfl) c lam _ y).trans streams,
    (stored_inv (g := (·.mans)) (fun _ _ => rfl) (fun _ _ => rfl) c lam _ y).trans mans⟩
  · unfold storeLine
    rw [dramLine_setDramPsn, dramLine_setDram_self, dramLine_congr dram]
  · unfold storeLine
    rw [dramPsn_setDramPsn, dramPsn_setDram, poison]
    simp [List.contains_eq_mem]
  · refine (stored_inv (g := (fget · WAY WAY_CE_COUNT)) (fun _ _ => rfl) (fun _ _ => rfl) c lam _ y).trans (ce.trans ?_)
    change _ = min (fget s WAY WAY_CE_COUNT + 0) _
    omega

theorem copied_clean (c : Fin 16) (lam : Nat) (s : State) : Copied c [(lam, .clean)] s s := by
  have none_ := copied_nil c s
  exact ⟨none_.lines, fun k i => by simp, none_.ue, none_.ce, rfl, rfl, rfl, none_.fields, rfl, rfl, rfl, rfl⟩

theorem copyEcc_copied (c : Fin 16) (e : Nat × LineEcc) (s : State) : Copied c [e] s (copyEcc c e.1 e.2 s) := by
  obtain ⟨lam, ecc⟩ := e
  cases ecc with
  | clean => exact copied_clean c lam s
  | corrected => exact copied_corrected c lam s
  | uncorrectable => exact copied_poisoned c lam s

theorem copyEccs_copied (c : Fin 16) (l : List (Nat × LineEcc)) (s : State) : Copied c l s (forAll l (fun e s => copyEcc c e.1 e.2 s) s) := by
  induction l generalizing s with
  | nil => exact copied_nil c s
  | cons e l ih => exact (copyEcc_copied c e s).trans (ih _)

/-! ### A phase of a slice -/

/-- The slice of a channel goes on with a phase, before its first batch. -/
def phaseEntered (c : Fin 16) (x : DramSlice) (p : DPhase) (s : State) : State := { s with bist := { s.bist with dram := s.bist.dram.set c (some { x with ph := p, step := 0 }) } }

theorem setPh_enters {c : Fin 16} {x : DramSlice} {s : State} (slice : s.bist.dram[c] = some x) (p : DPhase) : setPh c p s = beginBatch c (phaseEntered c x p s) := by
  unfold setPh
  rw [slice]
  rfl

theorem phaseEntered_slice (c : Fin 16) (x : DramSlice) (p : DPhase) (s : State) : (phaseEntered c x p s).bist.dram[c] = some { x with ph := p, step := 0 } := by simp [phaseEntered]

theorem beginBatch_inv {β : Type} {g : State → β} (chans : ∀ (s : State) l, g { s with chans := l } = g s) (c : Fin 16) (s : State) : g (beginBatch c s) = g s := by
  unfold beginBatch
  split
  · rfl
  · split
    · rfl
    · exact chans s _

/-- What the begin of a phase leaves. -/
structure PhaseBegun (c : Fin 16) (x : DramSlice) (p : DPhase) (s t : State) : Prop where
  slice : t.bist.dram[c] = some { x with ph := p, step := 0 }
  regs : t.regs = s.regs
  d8 : t.d8 = s.d8

theorem setPh_begun {c : Fin 16} {x : DramSlice} {s : State} (slice : s.bist.dram[c] = some x) (p : DPhase) : PhaseBegun c x p s (setPh c p s) := by
  have entered := phaseEntered_slice c x p s
  have regs : (phaseEntered c x p s).regs = s.regs := rfl
  have d8 : (phaseEntered c x p s).d8 = s.d8 := rfl
  rw [setPh_enters slice]
  generalize phaseEntered c x p s = y at *
  exact ⟨(beginBatch_inv (g := (·.bist.dram[c])) (fun _ _ => rfl) c y).trans entered, (beginBatch_inv (g := (·.regs)) (fun _ _ => rfl) c y).trans regs, (beginBatch_inv (g := (·.d8)) (fun _ _ => rfl) c y).trans d8⟩

/-- A slice that is stopped in a phase goes on with its restore. -/
structure SliceStopped (c : Fin 16) (x : DramSlice) (s t : State) : Prop where
  slice : t.bist.dram[c] = some { x with ph := .restore false, step := 0 }
  stops : fget t BST BST_STOP_COUNT = min (fget s BST BST_STOP_COUNT + 1) (2 ^ 32 - 1)
  fault : fbit t BST BST_STATUS_FAULT = fbit s BST BST_STATUS_FAULT
  d8 : t.d8 = s.d8

theorem stopSlice_test {c : Fin 16} {x : DramSlice} {n : Nat} {again : Bool} {s : State} (slice : s.bist.dram[c] = some x) (ph : x.ph = .test n again) : SliceStopped c x s (stopSlice c s) := by
  have stops : stopSlice c s = fbump BST BST_STOP_COUNT (setPh c (.restore false) (dropBist false c s)) := by
    unfold stopSlice
    rw [slice]
    dsimp only
    rw [ph]
  have slice' : (dropBist false c s).bist.dram[c] = some x := slice
  have regs : (dropBist false c s).regs = s.regs := rfl
  have d8 : (dropBist false c s).d8 = s.d8 := rfl
  rw [stops]
  generalize dropBist false c s = y at *
  have begun := setPh_begun slice' (.restore false)
  generalize setPh c (.restore false) y = z at *
  exact ⟨begun.slice, (fget_fbump _ _ _ (by decide)).trans (congrArg (fun n => min (n + 1) (2 ^ 32 - 1)) (fget_congr (begun.regs.trans regs) _ _)),
    congrArg (· != 0) ((fget_fbump_ne _ _ _ _ z (by decide)).trans (fget_congr (begun.regs.trans regs) _ _)), begun.d8.trans d8⟩

theorem stopSlice_restoring {c : Fin 16} {x : DramSlice} {s : State} (slice : s.bist.dram[c] = some x) (ph : x.ph = .restore false) : stopSlice c s = s := by
  unfold stopSlice
  rw [slice]
  dsimp only
  rw [ph]

/-! ### The end of a slice (13 R372, R381) -/

/-- The slice's frames are free, and its place is given up. -/
def sliceGone (c : Fin 16) (x : DramSlice) (s : State) : State :=
  let s := forAll x.frames (fun f s => setFrame false f {} s) (dropBist true c s)
  { s with
    bist := { s.bist with dram := s.bist.dram.set c none, next := s.bist.next.set c ((x.idx + 1) % sliceRows s), sincePhy := s.bist.sincePhy.set c (s.bist.sincePhy[c] + 1) },
    way := { s.way with wtHeld := s.way.wtHeld - rowLen s } }

theorem dropSlice_drops {c : Fin 16} {x : DramSlice} {s : State} (slice : s.bist.dram[c] = some x) :
    dropSlice c s = fsetBit BST BST_STATUS_CH_RUN c.val ((sliceGone c x s).bist.phyRun[c]).isSome (wayStat (sliceGone c x s)) := by
  unfold dropSlice
  rw [slice]
  rfl

/-- What the end of a slice leaves. -/
structure SliceGone (c : Fin 16) (x : DramSlice) (s t : State) : Prop where
  slice : t.bist.dram[c] = none
  next : t.bist.next[c] = (x.idx + 1) % sliceRows s
  frames : ∀ f ∈ x.frames, t.frame false f = {}
  fields : ∀ f : Fld, f.off < 0x1000 → f.off ≠ 0x18 → fget t BST f = fget s BST f
  d8 : t.d8 = s.d8
  wmem : t.wmem = s.wmem
  streams : t.streams = s.streams
  mans : t.mans = s.mans

theorem framesFreed_frame {l : List Nat} {f : Nat} (hf : f ∈ l) (s : State) : (forAll l (fun f s => setFrame false f {} s) s).frame false f = {} :=
  forAll_reaches_of (I := fun _ => True) (P := fun y : State => y.frame false f = {}) hf (fun _ _ _ => trivial) (fun y _ => setFrame_frame false f {} y) (fun k y hy => by
    by_cases same : f = k
    · rw [same, setFrame_frame]
    · rw [setFrame_frame_ne same, hy]) trivial

theorem sliceGone_gone (c : Fin 16) (x : DramSlice) (s : State) : SliceGone c x s (sliceGone c x s) ∧ (sliceGone c x s).regs = s.regs := by
  have frames : ∀ f ∈ x.frames, (forAll x.frames (fun f s => setFrame false f {} s) (dropBist true c s)).frame false f = {} := fun f hf => framesFreed_frame hf _
  have freed {β : Type} {g : State → β} (way : ∀ (s : State) w, g { s with way := w } = g s) (chans : ∀ (s : State) l, g { s with chans := l } = g s) :
      g (forAll x.frames (fun f s => setFrame false f {} s) (dropBist true c s)) = g s := (forAll_inv g _ _ _ fun f y => way y _).trans (chans s _)
  have next := freed (g := sliceRows) (fun _ _ => rfl) fun _ _ => rfl
  have regs := freed (g := (·.regs)) (fun _ _ => rfl) fun _ _ => rfl
  have d8 := freed (g := (·.d8)) (fun _ _ => rfl) fun _ _ => rfl
  have wmem := freed (g := (·.wmem)) (fun _ _ => rfl) fun _ _ => rfl
  have streams := freed (g := (·.streams)) (fun _ _ => rfl) fun _ _ => rfl
  have mans := freed (g := (·.mans)) (fun _ _ => rfl) fun _ _ => rfl
  unfold sliceGone
  generalize forAll x.frames (fun f s => setFrame false f {} s) (dropBist true c s) = y at *
  dsimp only
  refine ⟨⟨by simp, ?_, frames, fun f _ _ => fget_congr regs _ _, d8, wmem, streams, mans⟩, regs⟩
  simp [next]

theorem dropSlice_gone {c : Fin 16} {x : DramSlice} {s : State} (slice : s.bist.dram[c] = some x) : SliceGone c x s (dropSlice c s) := by
  obtain ⟨gone, -⟩ := sliceGone_gone c x s
  rw [dropSlice_drops slice]
  generalize sliceGone c x s = y at *
  have shown {β : Type} {g : State → β} (way : ∀ f : Fld, f.off < 0x1000 → ∀ v s, g (fset WAY f v s) = g s) (run : ∀ v s, g (fset BST BST_STATUS_CH_RUN v s) = g s) (b : Bool) :
      g (fsetBit BST BST_STATUS_CH_RUN c.val b (wayStat y)) = g y := (run _ _).trans (wayStat_inv way y)
  have frames := shown (g := (·.way.tier)) (fun _ _ _ _ => rfl) fun _ _ => rfl
  refine ⟨(shown (g := (·.bist.dram[c])) (fun _ _ _ _ => rfl) (fun _ _ => rfl) _).trans gone.slice, (shown (g := (·.bist.next[c])) (fun _ _ _ _ => rfl) (fun _ _ => rfl) _).trans gone.next,
    fun f hf => (frame_of_tier (frames _) f).trans (gone.frames f hf), fun f low ne => ?_, (shown (g := (·.d8)) (fun _ _ _ _ => rfl) (fun _ _ => rfl) _).trans gone.d8,
    (shown (g := (·.wmem)) (fun _ _ _ _ => rfl) (fun _ _ => rfl) _).trans gone.wmem, (shown (g := (·.streams)) (fun _ _ _ _ => rfl) (fun _ _ => rfl) _).trans gone.streams,
    (shown (g := (·.mans)) (fun _ _ _ _ => rfl) (fun _ _ => rfl) _).trans gone.mans⟩
  exact (shown (g := (fget · BST f)) (fun h hh v z => fget_fset_ne _ _ _ _ _ _ (by simp only [BST, WAY]; omega)) (fun v z => fget_fset_ne _ _ _ _ _ _ (off_ne _ ne)) _).trans (gone.fields f low ne)

theorem stopSlice_copy {c : Fin 16} {x : DramSlice} {s : State} (slice : s.bist.dram[c] = some x) (ph : x.ph = .copy) :
    (stopSlice c s).bist.dram[c] = none ∧ fget (stopSlice c s) BST BST_STOP_COUNT = min (fget s BST BST_STOP_COUNT + 1) (2 ^ 32 - 1) ∧ (stopSlice c s).d8 = s.d8 ∧ (stopSlice c s).wmem = s.wmem ∧
      (stopSlice c s).streams = s.streams ∧ (stopSlice c s).mans = s.mans := by
  have stops : stopSlice c s = fbump BST BST_STOP_COUNT (dropSlice c s) := by
    unfold stopSlice
    rw [slice]
    dsimp only
    rw [ph]
  have gone := dropSlice_gone slice
  rw [stops]
  generalize dropSlice c s = y at *
  exact ⟨gone.slice, (fget_fbump _ _ _ (by decide)).trans (congrArg (fun n => min (n + 1) (2 ^ 32 - 1)) (gone.fields _ (by decide) (by decide))), gone.d8, gone.wmem, gone.streams, gone.mans⟩

end Sys2Proof.Proofs

/-! PROOF. The phases of a DRAM slice and what stops it (13 R377 to R382, R389). -/

namespace Sys2Proof.Proofs
open Sys2Proof Sys2Proof.Machine Sys2Proof.Laws

/-! ### The row is displaced -/

/-- The lines of a slice's copy, as they are found. -/
def rowCopied (c : Fin 16) (idx : Nat) (l : List LineEcc) (s : State) : State := forAll ((rowLams s idx).zip l) (fun e s => copyEcc c e.1 e.2 s) s

theorem rowDisplaced_goes {c : Fin 16} {x : DramSlice} {s : State} (l : List LineEcc) (slice : s.bist.dram[c] = some x) (ph : x.ph = .copy) (run : chanRuns s c = true) (over_ : phaseOver s c x = true)
    (still : rowBusy s c x.idx = false) : rowDisplaced c l s = if 2 ≤ fget (rowCopied c x.idx l s) LED LED_STATUS_LEVEL then stopSlice c (rowCopied c x.idx l s) else setPh c (.test 1 false) (rowCopied c x.idx l s) := by
  unfold rowDisplaced
  rw [slice]
  dsimp only
  exact if_neg (by simp [ph, run, over_, still])

theorem dramPsn_chans {s t : State} (first : twinFirst t = twinFirst s) (same : ∀ k, (t.chan k).psn = (s.chan k).psn ∧ (t.chan k).psnAll = (s.chan k).psnAll ∧ (t.chan k).psnTwin = (s.chan k).psnTwin)
    (k : Fin 16) (i : Nat) : dramPsn t k i = dramPsn s k i := by
  obtain ⟨psn, all_, twin⟩ := same k
  unfold dramPsn psnBase
  rw [psn, all_, twin, first]

theorem batchAsked_psn (c : Fin 16) (ph : DPhase) (wr : Bool) (lams : List Nat) (s : State) (k : Fin 16) :
    ((batchAsked c ph wr lams s).chan k).psn = (s.chan k).psn ∧ ((batchAsked c ph wr lams s).chan k).psnAll = (s.chan k).psnAll ∧ ((batchAsked c ph wr lams s).chan k).psnTwin = (s.chan k).psnTwin := by
  unfold batchAsked
  by_cases same : k = c
  · subst same
    rw [updChan_chan]
    exact ⟨rfl, rfl, rfl⟩
  · rw [updChan_chan_ne same]
    exact ⟨rfl, rfl, rfl⟩

theorem dramPsn_batchAsked (c : Fin 16) (ph : DPhase) (wr : Bool) (lams : List Nat) (s : State) (k : Fin 16) (i : Nat) : dramPsn (batchAsked c ph wr lams s) k i = dramPsn s k i := by
  have first : twinFirst (batchAsked c ph wr lams s) = twinFirst s := rfl
  exact dramPsn_chans first (batchAsked_psn c ph wr lams s) k i

/-- What the displacement of a row leaves. -/
structure RowDisplaced (c : Fin 16) (x : DramSlice) (y t : State) : Prop where
  slice : t.bist.dram[c] = some { x with ph := .test 1 false, step := 0 }
  geometry : geometry t = geometry y
  dram : t.dram = y.dram
  poison : ∀ k i, dramPsn t k i = dramPsn y k i
  bg : (t.chan c).bg = (y.chan c).bg ++ ((rowLams y x.idx).take (rowLen y)).map (bistReq (.test 1 false) true)
  regs : t.regs = y.regs
  d8 : t.d8 = y.d8
  wmem : t.wmem = y.wmem
  streams : t.streams = y.streams
  mans : t.mans = y.mans

theorem setPh_displaced {c : Fin 16} {x : DramSlice} {y : State} (slice : y.bist.dram[c] = some x) : RowDisplaced c x y (setPh c (.test 1 false) y) := by
  have entered := phaseEntered_slice c x (.test 1 false) y
  have same : (phaseEntered c x (.test 1 false) y).chans = y.chans ∧ (phaseEntered c x (.test 1 false) y).regs = y.regs ∧ geometry (phaseEntered c x (.test 1 false) y) = geometry y ∧
      (phaseEntered c x (.test 1 false) y).dram = y.dram ∧ (phaseEntered c x (.test 1 false) y).d8 = y.d8 ∧ (phaseEntered c x (.test 1 false) y).wmem = y.wmem ∧
      (phaseEntered c x (.test 1 false) y).streams = y.streams ∧ (phaseEntered c x (.test 1 false) y).mans = y.mans ∧ twinFirst (phaseEntered c x (.test 1 false) y) = twinFirst y :=
    ⟨rfl, rfl, rfl, rfl, rfl, rfl, rfl, rfl, rfl⟩
  rw [setPh_enters slice]
  generalize phaseEntered c x (.test 1 false) y = z at *
  obtain ⟨chans, regs, map, dram, d8, wmem, streams, mans, first⟩ := same
  have batch : batchOf z { x with ph := .test 1 false, step := 0 } = some (rowLen y, true) := by
    rw [batchOf_congr map]
    rfl
  rw [beginBatch_asks entered batch, rowLams_congr map]
  refine ⟨entered, map, dram, fun k i => ?_, ?_, regs, d8, wmem, streams, mans⟩
  · have same : dramPsn z k i = dramPsn y k i := dramPsn_chans first (fun k => by rw [chan_congr chans k]; exact ⟨rfl, rfl, rfl⟩) k i
    exact (dramPsn_batchAsked c _ _ _ z k i).trans same
  · rw [batchAsked_bg, chan_congr chans]

/-! ### A phase that fails twice (13 R380, R389) -/

/-- Nothing has been told of a failure yet. -/
structure PhaseOpen (c : Fin 16) (x : DramSlice) (s y : State) : Prop where
  slice : y.bist.dram[c] = some x
  stops : fget y BST BST_STOP_COUNT = fget s BST BST_STOP_COUNT
  d8 : y.d8 = s.d8

/-- The failure has been told, and the slice may have been stopped with it. -/
structure PhaseFailed (c : Fin 16) (x : DramSlice) (s y : State) : Prop where
  slice : y.bist.dram[c] = some x ∧ fget y BST BST_STOP_COUNT = fget s BST BST_STOP_COUNT ∨
    y.bist.dram[c] = some { x with ph := .restore false, step := 0 } ∧ fget y BST BST_STOP_COUNT = min (fget s BST BST_STOP_COUNT + 1) (2 ^ 32 - 1)
  fault : fbit y BST BST_STATUS_FAULT = true
  d8 : y.d8 = s.d8

section
variable {c : Fin 16} {x : DramSlice} {s y : State}

theorem PhaseOpen.refl (slice : s.bist.dram[c] = some x) : PhaseOpen c x s s := ⟨slice, rfl, rfl⟩

theorem bistLog_regs (e : BistEnt) (s : State) : (bistLog e s).regs = (irq GLB_IRQ_STAT_BIST (fbump BST BST_FAULTS_COUNT (fset BST BST_STATUS_FAULT 1 s))).regs := rfl

theorem bistLog_fault (e : BistEnt) (s : State) : fbit (bistLog e s) BST BST_STATUS_FAULT = true := by
  have set_ : fget (bistLog e s) BST BST_STATUS_FAULT = 1 := (fget_congr (bistLog_regs e s) _ _).trans ((fget_fset_ne _ _ _ _ _ _ (by decide)).trans ((fget_fbump_ne _ _ _ _ _ (by decide)).trans (fget_fset _ _ _ _ (by decide))))
  unfold fbit
  rw [set_]
  rfl

theorem besideLog_slice (c : Fin 16) : BesideLog (·.bist.dram[c]) := ⟨fun h x s => congrArg (·.dram[c]) (emit_bist h x s), fun _ => rfl, fun _ => rfl, fun _ => rfl, fun _ _ _ => rfl⟩

theorem besideLog_d8 : BesideLog (·.d8) := ⟨emit_d8, fun _ => rfl, fun _ => rfl, fun _ => rfl, fun _ _ _ => rfl⟩

theorem besideLog_stops : BesideLog (fget · BST BST_STOP_COUNT) := besideLog_BST (by decide) (by decide) (by decide)

theorem PhaseOpen.logged (h : PhaseOpen c x s y) (e : BistEnt) : PhaseFailed c x s (bistLog e y) :=
  ⟨.inl ⟨(bistLog_inv (besideLog_slice c) e y).trans h.slice, (bistLog_inv besideLog_stops e y).trans h.stops⟩, bistLog_fault e y, (bistLog_inv besideLog_d8 e y).trans h.d8⟩

/-- The rest of a failure's telling shows in none of these. -/
theorem PhaseFailed.of_same (h : PhaseFailed c x s y) {z : State} (slice : z.bist.dram[c] = y.bist.dram[c]) (fields : ∀ f : Fld, f.off < 0x1000 → fget z BST f = fget y BST f) (d8 : z.d8 = y.d8) : PhaseFailed c x s z := by
  obtain ⟨open_, fault, time⟩ := h
  have stops := fields BST_STOP_COUNT (by decide)
  refine ⟨?_, (congrArg (· != 0) (fields _ (by decide))).trans fault, d8.trans time⟩
  rw [slice, stops]
  exact open_

theorem PhaseFailed.emit (h : PhaseFailed c x s y) (k : String) (f : List (String × FVal)) : PhaseFailed c x s (emit k f y) :=
  h.of_same (congrArg (·.dram[c]) (emit_bist k f y)) (fun _ low => fget_emit_BST low k f y) (emit_d8 k f y)

theorem PhaseFailed.fset_CH (h : PhaseFailed c x s y) {f : Fld} (low : f.off < 0x1000) (v : Nat) : PhaseFailed c x s (fset (CH c) f v y) :=
  h.of_same rfl (fun g small => (besideChan_BST g small).reg c f low v y) rfl

theorem PhaseFailed.logged (h : PhaseFailed c x s y) (e : BistEnt) : PhaseFailed c x s (bistLog e y) := by
  obtain ⟨open_, -, time⟩ := h
  refine ⟨?_, bistLog_fault e y, (bistLog_inv besideLog_d8 e y).trans time⟩
  rw [bistLog_inv (besideLog_slice c) e y, bistLog_inv besideLog_stops e y]
  exact open_

/-- The end of a phase stops the slice, if nothing has. -/
theorem PhaseFailed.stopped (h : PhaseFailed c x s y) {n : Nat} {again : Bool} (ph : x.ph = .test n again) : PhaseFailed c x s (stopSlice c y) ∧
    (stopSlice c y).bist.dram[c] = some { x with ph := .restore false, step := 0 } ∧ fget (stopSlice c y) BST BST_STOP_COUNT = min (fget s BST BST_STOP_COUNT + 1) (2 ^ 32 - 1) := by
  obtain ⟨⟨slice, stops⟩ | ⟨slice, stops⟩, fault, d8⟩ := h
  · have done := stopSlice_test slice ph
    have counted := done.stops
    rw [stops] at counted
    exact ⟨⟨.inr ⟨done.slice, counted⟩, done.fault.trans fault, done.d8.trans d8⟩, done.slice, counted⟩
  · rw [stopSlice_restoring slice rfl]
    exact ⟨⟨.inr ⟨slice, stops⟩, fault, d8⟩, slice, stops⟩

theorem PhaseFailed.markRefuse (h : PhaseFailed c x s y) (r d : Nat) : PhaseFailed c x s (markRefuse c r d y) := (h.fset_CH (by decide) 1).emit _ _

theorem PhaseFailed.nextSpare (h : PhaseFailed c x s y) : PhaseFailed c x s (nextSpare c y) := by
  unfold Machine.nextSpare
  split
  · exact h.fset_CH (by decide) 0
  · split
    · exact h
    · exact ((h.fset_CH (by decide) 0).fset_CH (by decide) _).fset_CH (by decide) 1

theorem markF_low (r : Nat) : (markF r).off < 0x1000 ∧ (mdevF r).off < 0x1000 := by
  unfold markF mdevF
  split <;> exact ⟨by decide, by decide⟩

theorem PhaseFailed.markDev (h : PhaseFailed c x s y) {n : Nat} {again : Bool} (ph : x.ph = .test n again) (r d : Nat) (cause : String) : PhaseFailed c x s (markDev c r d cause y) := by
  obtain ⟨mark, mdev⟩ := markF_low r
  unfold Machine.markDev
  split
  · split
    · exact h
    · exact h.markRefuse r d
  · extract_lets a b e g
    have marked : PhaseFailed c x s a := (h.fset_CH mdev d).fset_CH mark 1
    have logged : PhaseFailed c x s b := (marked.fset_CH (by decide) 1).of_same rfl (fun _ _ => rfl) rfl
    have told : PhaseFailed c x s e := logged.emit _ _
    have halted : PhaseFailed c x s g := by
      unfold g
      split
      · split
        · exact (told.stopped ph).1
        · exact told
      · exact told
    exact PhaseFailed.nextSpare (halted.of_same rfl (fun _ _ => rfl) rfl)

theorem exists_bit {bits : BitVec 72} (some_ : bits ≠ 0) : ∃ b ∈ (List.range 72).filter fun b => bitOf bits.toNat b, True := by
  by_contra none_
  apply some_
  refine BitVec.eq_of_getElem_eq fun i hi => ?_
  change bits[i] = (0#72)[i]
  rw [BitVec.getElem_zero]
  by_contra set_
  refine none_ ⟨i, List.mem_filter.mpr ⟨List.mem_range.mpr hi, ?_⟩, trivial⟩
  rw [bitOf_eq_testBit, BitVec.testBit_toNat, BitVec.getLsbD_eq_getElem hi]
  simpa using set_

theorem phaseFail_failed (open_ : PhaseOpen c x s y) {n : Nat} {again : Bool} (ph : x.ph = .test n again) (idx m : Nat) {bits : BitVec 72} (some_ : bits ≠ 0) : PhaseFailed c x s (phaseFail c idx m bits y) := by
  unfold phaseFail
  obtain ⟨row, rank, bg, bank⟩ := sliceRow y idx
  dsimp only
  split
  · obtain ⟨b, hb, -⟩ := exists_bit some_
    refine forAll_reaches_of (I := fun z => PhaseOpen c x s z ∨ PhaseFailed c x s z) hb (fun k z hz => .inr ?_) (fun z hz => ?_) (fun k z hz => ?_) (.inl open_)
    · obtain hz | hz := hz
      · exact PhaseFailed.emit (PhaseOpen.logged (y := (takeFree z).2) ⟨hz.slice, hz.stops, hz.d8⟩ _) _ _
      · exact PhaseFailed.emit (PhaseFailed.logged (y := (takeFree z).2) (hz.of_same rfl (fun _ _ => rfl) rfl) _) _ _
    · obtain hz | hz := hz
      · exact PhaseFailed.emit (PhaseOpen.logged (y := (takeFree z).2) ⟨hz.slice, hz.stops, hz.d8⟩ _) _ _
      · exact PhaseFailed.emit (PhaseFailed.logged (y := (takeFree z).2) (hz.of_same rfl (fun _ _ => rfl) rfl) _) _ _
    · exact PhaseFailed.emit (PhaseFailed.logged (y := (takeFree z).2) (hz.of_same rfl (fun _ _ => rfl) rfl) _) _ _
  · split
    · split
      · exact ((open_.logged _).emit _ _).markRefuse _ _
      · exact ((open_.logged _).emit _ _).markDev ph _ _ _
    · exact (open_.logged _).emit _ _

end

/-! ### The commands of a slice -/

section
variable {c : Fin 16} {s : State}

theorem rowDisplaced_idle (l : List LineEcc) (idle : chanRuns s c = false ∨ ∀ x, s.bist.dram[c] = some x → x.ph ≠ .copy ∨ phaseOver s c x = false ∨ rowBusy s c x.idx = true) : rowDisplaced c l s = s := by
  unfold rowDisplaced
  split
  · rfl
  next x slice =>
    refine if_pos ?_
    obtain off | none_ := idle
    · simp [off]
    · obtain ph | over_ | busy := none_ x slice
      · exact .inl ph
      · simp [over_]
      · simp [busy]

theorem dramPhaseEnd_idle (bits : BitVec 72) (idle : chanRuns s c = false ∨ ∀ x, s.bist.dram[c] = some x → phaseOver s c x = false) : dramPhaseEnd c bits s = s := by
  unfold dramPhaseEnd
  extract_lets raw
  split
  · rfl
  next x slice =>
    split
    · refine if_pos ?_
      obtain off | none_ := idle
      · simp [off]
      · simp [none_ x slice]
    · rfl

theorem rowRestored_idle (idle : chanRuns s c = false ∨ ∀ x, s.bist.dram[c] = some x → phaseOver s c x = false) : rowRestored c s = s := by
  unfold rowRestored
  split
  · rfl
  next x slice =>
    split
    · refine if_pos ?_
      obtain off | none_ := idle
      · simp [off]
      · simp [none_ x slice]
    · rfl

variable {x : DramSlice} {n : Nat} {raw : BitVec 72} (slice : s.bist.dram[c] = some x) (run : chanRuns s c = true)
include slice run

/-- The first try of a phase, below level 2: it goes on, or the same phase is tried again (13 R380). -/
theorem dramPhaseEnd_first (ph : x.ph = .test n false) (over_ : phaseOver s c x = true) (low : fget s LED LED_STATUS_LEVEL < 2) :
    dramPhaseEnd c raw s = setPh c (if comparedBits s c raw ≠ 0 then .test n true else if 5 ≤ n then .restore true else .test (n + 1) false) s := by
  have begun := setPh_begun slice (if comparedBits s c raw ≠ 0 then .test n true else if 5 ≤ n then .restore true else .test (n + 1) false)
  have level := fget_congr begun.regs LED LED_STATUS_LEVEL
  unfold dramPhaseEnd
  rw [slice]
  dsimp only
  rw [ph]
  dsimp only
  refine (if_neg (by simp [run, over_])).trans ((if_neg (by simp)).trans ?_)
  rw [if_neg (show ¬(comparedBits s c raw = 0 ∧ false = true) by simp), level]
  exact if_neg (by omega)

/-- The second failure of a phase stops the slice (13 R380). -/
theorem dramPhaseEnd_twice (ph : x.ph = .test n true) (over_ : phaseOver s c x = true) (bad : comparedBits s c raw ≠ 0) : dramPhaseEnd c raw s = stopSlice c (phaseFail c x.idx n (comparedBits s c raw) s) := by
  unfold dramPhaseEnd
  rw [slice]
  dsimp only
  rw [ph]
  dsimp only
  exact (if_neg (by simp [run, over_])).trans (if_pos ⟨bad, rfl⟩)

/-- The row is restored, and the slice ends (13 R381). -/
theorem rowRestored_ends {ok : Bool} (ph : x.ph = .restore ok) (over_ : phaseOver s c x = true) :
    rowRestored c s = if ok then sliceDone .dram { dropSlice c s with bist := { (dropSlice c s).bist with cycDram := (dropSlice c s).bist.cycDram.set c (putRun x.idx (dropSlice c s).bist.cycDram[c]) } } else dropSlice c s := by
  unfold rowRestored
  rw [slice]
  dsimp only
  rw [ph]
  exact if_neg (by simp [run, over_])

theorem sliceBudget_spent (ph : ∀ ok, x.ph ≠ .restore ok) : sliceBudget c s = stopSlice c (advanceTo8 (x.at8 + dramBudgetNs s * 8) s) := by
  unfold sliceBudget
  rw [slice]
  dsimp only
  split
  next ok restoring => exact absurd restoring (ph ok)
  · exact if_neg (by simp [run])

end

/-- The slice has ended and is counted where its row passed. -/
structure RowRestored (c : Fin 16) (x : DramSlice) (ok : Bool) (s t : State) : Prop where
  slice : t.bist.dram[c] = none
  next : t.bist.next[c] = (x.idx + 1) % sliceRows s
  frames : ∀ f ∈ x.frames, t.frame false f = {}
  count : fget t BST (BST_SLICE_COUNT.nth 1) = min (fget s BST (BST_SLICE_COUNT.nth 1) + (if ok then 1 else 0)) (2 ^ 32 - 1)
  d8 : t.d8 = s.d8

theorem SliceGone.restored {c : Fin 16} {x : DramSlice} {s y : State} (gone : SliceGone c x s y) : RowRestored c x false s y := by
  have small := fget_lt s BST (BST_SLICE_COUNT.nth 1)
  have width : (2 : Nat) ^ (BST_SLICE_COUNT.nth 1).width = 2 ^ 32 := rfl
  refine ⟨gone.slice, gone.next, gone.frames, (gone.fields _ (by decide) (by decide)).trans ?_, gone.d8⟩
  change _ = min (fget s BST (BST_SLICE_COUNT.nth 1) + 0) _
  omega

theorem SliceGone.passed {c : Fin 16} {x : DramSlice} {s y : State} (gone : SliceGone c x s y) (runs : Vector (List (Nat × Nat)) 16) :
    RowRestored c x true s (sliceDone .dram { y with bist := { y.bist with cycDram := runs } }) := by
  have done := sliceDone_counted .dram { y with bist := { y.bist with cycDram := runs } }
  have count := sliceDone_count .dram { y with bist := { y.bist with cycDram := runs } }
  generalize sliceDone .dram { y with bist := { y.bist with cycDram := runs } } = t at *
  exact ⟨(congrArg (·[c]) done.dram).trans gone.slice, (congrArg (·[c]) done.next).trans gone.next, fun f hf => (frame_of_tier (congrArg WayState.tier done.frames) f).trans (gone.frames f hf),
    count.trans (congrArg (fun n => min (n + 1) (2 ^ 32 - 1)) (gone.fields _ (by decide) (by decide))), done.d8.trans gone.d8⟩

theorem displaced_none {c : Fin 16} {s : State} (none_ : s.bist.dram[c] = none) (l : Nat) : displaced s c l = false := by
  unfold displaced
  rw [none_]

/-- Settles O48: each step of a slice is the branch of its phase, with what the phase's begin, its failure or its end leaves. -/
theorem dramSlicesRun : Obligations.DramSlicesRun := by
  unfold Obligations.DramSlicesRun
  refine ⟨?start, ?startIdle, ?waits, ?displaced, ?halted, ?displacedIdle, ?passed, ?again, ?twice, ?phaseIdle, ?restored, ?restoredIdle, ?budget, ?budgetCopy, ?budgetIdle⟩
  case start =>
    intro c s run on turn good
    have e : exec (.dramSliceStart c) s = .next (dramSliceGo c s) := congrArg Host.Outcome.next ((if_neg (by simp [run, on, turn])).trans (if_neg (by simp [good])))
    obtain ⟨x, begun⟩ := dramSliceGo_begun c s
    exact ⟨_, x, e, begun.slice, begun.idx, begun.ph, begun.step, begun.at8, begun.frames, begun.run, begun.wtHeld, begun.bg, begun.others, begun.d8, begun.store⟩
  case startIdle =>
    intro c s idle
    exact congrArg Host.Outcome.next (if_pos (by obtain off | off | turn := idle <;> simp [*]))
  case waits =>
    intro c s run on turn bad
    exact congrArg Host.Outcome.next ((if_neg (by simp [run, on, turn])).trans (if_pos bad))
  case displaced =>
    intro c x l s slice ph run over_ still low
    have copied := copyEccs_copied c ((rowLams s x.idx).zip l) s
    have goes := rowDisplaced_goes l slice ph run over_ still
    change Copied c _ s (rowCopied c x.idx l s) at copied
    generalize rowCopied c x.idx l s = y at *
    have level := copied.fields LED LED_STATUS_LEVEL (.inr rfl) (by decide)
    rw [if_neg (by omega)] at goes
    have e : exec (.rowDisplaced c l) s = .next _ := congrArg Host.Outcome.next goes
    have done := setPh_displaced (c := c) (x := x) (y := y) (by rw [copied.bist]; exact slice)
    generalize setPh c (.test 1 false) y = t at *
    have map := done.geometry.trans copied.geometry
    refine ⟨t, e, done.slice, fun m => ?_, fun k m => (dramLine_congr done.dram k m).trans (copied.lines k m), fun k i => (done.poison k i).trans (copied.poison k i), ?_,
      (fget_congr done.regs _ _).trans copied.ue, (fget_congr done.regs _ _).trans copied.ce, done.d8.trans copied.d8, done.wmem.trans copied.wmem, done.streams.trans copied.streams, done.mans.trans copied.mans⟩
    · unfold displaced
      rw [done.slice, inSliceRow_congr map]
      exact Bool.and_true _
    · rw [done.bg, copied.bg, rowLams_congr copied.geometry, rowLen_congr copied.geometry]
  case halted =>
    intro c x l s slice ph run over_ still high
    have copied := copyEccs_copied c ((rowLams s x.idx).zip l) s
    have goes := rowDisplaced_goes l slice ph run over_ still
    change Copied c _ s (rowCopied c x.idx l s) at copied
    generalize rowCopied c x.idx l s = y at *
    have level := copied.fields LED LED_STATUS_LEVEL (.inr rfl) (by decide)
    rw [if_pos (by omega)] at goes
    have e : exec (.rowDisplaced c l) s = .next _ := congrArg Host.Outcome.next goes
    obtain ⟨none_, stops, d8, wmem, streams, mans⟩ := stopSlice_copy (c := c) (x := x) (s := y) (by rw [copied.bist]; exact slice) ph
    exact ⟨_, e, none_, stops.trans (by rw [copied.fields BST BST_STOP_COUNT (.inl rfl) (by decide)]), d8.trans copied.d8, wmem.trans copied.wmem, streams.trans copied.streams, mans.trans copied.mans⟩
  case displacedIdle =>
    intro c l s idle
    exact congrArg Host.Outcome.next (rowDisplaced_idle l idle)
  case passed =>
    intro c x n bits s slice ph run over_ low good
    have e : exec (.dramPhaseEnd c bits) s = .next _ := congrArg Host.Outcome.next (dramPhaseEnd_first slice run ph over_ low)
    rw [if_neg (not_not.mpr good)] at e
    have begun := setPh_begun slice (if 5 ≤ n then .restore true else .test (n + 1) false)
    exact ⟨_, e, begun.slice, begun.d8, exec_sameStore e rfl⟩
  case again =>
    intro c x n bits s slice ph run over_ low bad
    have e : exec (.dramPhaseEnd c bits) s = .next _ := congrArg Host.Outcome.next (dramPhaseEnd_first slice run ph over_ low)
    rw [if_pos bad] at e
    have begun := setPh_begun slice (.test n true)
    exact ⟨_, e, begun.slice, begun.d8, exec_sameStore e rfl⟩
  case twice =>
    intro c x n bits s slice ph run over_ bad
    have e : exec (.dramPhaseEnd c bits) s = .next _ := congrArg Host.Outcome.next (dramPhaseEnd_twice slice run ph over_ bad)
    obtain ⟨failed, done, stops⟩ := (phaseFail_failed (PhaseOpen.refl slice) ph x.idx n bad).stopped ph
    exact ⟨_, e, done, stops, failed.fault, failed.d8, exec_dram e (by simp [stores]), exec_wmem e (by simp [stores])⟩
  case phaseIdle =>
    intro c bits s idle
    exact congrArg Host.Outcome.next (dramPhaseEnd_idle bits idle)
  case restored =>
    intro c x ok s slice ph run over_
    have e : exec (.rowRestored c) s = .next _ := congrArg Host.Outcome.next (rowRestored_ends slice run ph over_)
    have gone := dropSlice_gone slice
    generalize dropSlice c s = y at *
    cases ok with
    | true =>
      have done := gone.passed (y.bist.cycDram.set c (putRun x.idx y.bist.cycDram[c]))
      rw [if_pos rfl] at e
      exact ⟨_, e, done.slice, done.next, done.frames, displaced_none done.slice, done.count, done.d8, exec_sameStore e rfl⟩
    | false =>
      have done := gone.restored
      rw [if_neg Bool.false_ne_true] at e
      exact ⟨_, e, done.slice, done.next, done.frames, displaced_none done.slice, done.count, done.d8, exec_sameStore e rfl⟩
  case restoredIdle =>
    intro c s idle
    exact congrArg Host.Outcome.next (rowRestored_idle idle)
  case budget =>
    intro c x n again s slice ph run
    have e : exec (.sliceBudgetExpiry c) s = .next _ := congrArg Host.Outcome.next (sliceBudget_spent slice run fun ok restoring => by rw [ph] at restoring; cases restoring)
    rw [Nat.mul_comm (dramBudgetNs s) 8] at e
    have done := stopSlice_test (c := c) (s := advanceTo8 (x.at8 + 8 * dramBudgetNs s) s) slice ph
    exact ⟨_, e, done.slice, done.d8, done.stops, exec_sameStore e rfl⟩
  case budgetCopy =>
    intro c x s slice ph run
    have e : exec (.sliceBudgetExpiry c) s = .next _ := congrArg Host.Outcome.next (sliceBudget_spent slice run fun ok restoring => by rw [ph] at restoring; cases restoring)
    rw [Nat.mul_comm (dramBudgetNs s) 8] at e
    obtain ⟨none_, stops, d8, -⟩ := stopSlice_copy (c := c) (s := advanceTo8 (x.at8 + 8 * dramBudgetNs s) s) slice ph
    exact ⟨_, e, none_, d8, stops, exec_sameStore e rfl⟩
  case budgetIdle =>
    intro c s none_
    have idle : sliceBudget c s = s := by
      unfold sliceBudget
      rw [none_]
    exact congrArg Host.Outcome.next idle

end Sys2Proof.Proofs

/-! PROOF. What the work on channels, and the walks that follow their end, leave of the frames and the address map. -/

namespace Sys2Proof.Proofs
open Sys2Proof Sys2Proof.Machine Sys2Proof.Laws

/-- A register beside those of the address map, of the host ports, of the queue block and of the block PWR. -/
abbrev OffMap (a : Nat) : Prop := a < GLB + 0x100 ∨ GLB + 0x120 ≤ a ∧ a < HP 0 ∨ TXN ≤ a ∧ a < QUE ∨ QUE + 0x1000 ≤ a ∧ a < PWR ∨ AON ≤ a

/-- A view of the state that shows neither channels and their PHYs nor energy, walks, self-test and the contents of DRAM, of the console the answer at most, and no register but those of the address map, of the host ports and of the blocks QUE and PWR. -/
structure BesideWork {β : Type} (g : State → β) : Prop where
  reg : ∀ a w s, OffMap a → g (rgSet a w s) = g s
  parts : ∀ (s : State) dram chans phys led bist, g { s with dram := dram, chans := chans, phys := phys, led := led, bist := bist } = g s
  walks : ∀ (s : State) walks caravans wreads, g { s with walks := walks, caravans := caravans, wreads := wreads } = g s
  events : ∀ (s : State) c, c.ans = s.con.ans → g { s with con := c } = g s

/-- Such a view that does not show the time either. -/
structure BesideRows {β : Type} (g : State → β) : Prop extends BesideWork g where
  time : ∀ n s, g (advance n s) = g s

/-- Such a view that shows neither the free values nor the power state and what it has saved. -/
structure BesideFlush {β : Type} (g : State → β) : Prop extends BesideRows g where
  free : ∀ (s : State) n, g { s with free := n } = g s
  pwr : ∀ (s : State) p, g { s with pwr := p } = g s
  saved : ∀ i w s, g (ixSet AON i w s) = g s

theorem offMap_high {a : Nat} (above : QUE + 0x1000 ≤ a) (below : a < PWR) : OffMap a := .inr (.inr (.inr (.inl ⟨above, below⟩)))

/-- What is saved into the Starter store are words of the AON window, two registers and the bank image. -/
theorem starterSave_eq (kind : Nat) (s : State) : ∃ (all : List (Word × Nat)) (p : PwrState),
    starterSave kind s = fset AON AON_STARTER_VALID 1 (fset AON AON_STARTER_WORDS 1024
      { forAll all (fun x y => ixSet AON x.2 x.1 y) (takeFree (takeFree (takeFree s).2).2).2 with pwr := p }) := ⟨_, _, rfl⟩

section
variable {β : Type} {g : State → β} (h : BesideWork g)
include h

theorem fset_work {b : Nat} {f : Fld} (off : OffMap (b + f.off)) (v : Nat) (s : State) : g (fset b f v s) = g s := h.reg _ _ s off

theorem chans_work (s : State) (l : Vector ChanState 16) : g { s with chans := l } = g s := h.parts s s.dram l s.phys s.led s.bist

theorem phys_work (s : State) (l : Vector PhyState 16) : g { s with phys := l } = g s := h.parts s s.dram s.chans l s.led s.bist

theorem led_work (s : State) (l : LedState) : g { s with led := l } = g s := h.parts s s.dram s.chans s.phys l s.bist

theorem bist_work (s : State) (b : BistState) : g { s with bist := b } = g s := h.parts s s.dram s.chans s.phys s.led b

theorem dram_work (s : State) (m : List Host.Cell) : g { s with dram := m } = g s := h.parts s m s.chans s.phys s.led s.bist

theorem fset_CH_work (c : Fin 16) {f : Fld} (low : f.off < 0x1000) (v : Nat) (s : State) : g (fset (CH c) f v s) = g s := fset_work h (offMap_high (by simp only [CH, QUE]; omega) (by simp only [CH, PWR]; omega)) v s

theorem fset_PHY_work (c : Fin 16) {f : Fld} (low : f.off < 0x1000) (v : Nat) (s : State) : g (fset (PHY c) f v s) = g s := fset_work h (offMap_high (by simp only [PHY, QUE]; omega) (by simp only [PHY, PWR]; omega)) v s

theorem irq_work {f : Fld} (low : f.off < 0x100) (s : State) : g (irq f s) = g s := fset_work h (.inl (by simp only [GLB]; omega)) 1 s

theorem emit_work (k : String) (x : List (String × FVal)) (s : State) : g (emit k x s) = g s := by
  unfold emit
  split
  · exact (irq_work h (by decide) _).trans (h.events s _ rfl)
  · exact (fset_work h (by decide) _ _).trans ((fset_work h (by decide) _ _).trans (h.events s _ rfl))

/-! ### Commands of a channel -/

theorem throttle_work (c : Fin 16) (level : Nat) (man : Option (BitVec 8)) (s : State) : g (throttle c level man s) = g s := by
  unfold throttle
  extract_lets old new fresh raised limited shown
  have raised_eq : g raised = g s := ite_keeps (P := (g · = g s)) (fun _ => (fset_CH_work h c (by decide) _ _).trans (fset_CH_work h c (by decide) _ s)) fun _ => rfl
  have limited_eq : g limited = g raised := by
    unfold limited
    clear_value fresh raised
    split
    · exact chans_work h _ _
    · rfl
  have shown_eq : g shown = g s := (fset_CH_work h c (by decide) _ _).trans (limited_eq.trans raised_eq)
  exact ite_keeps (P := (g · = g s)) (fun _ => (emit_work h _ _ _).trans ((fset_CH_work h c (by decide) _ _).trans shown_eq)) fun _ => shown_eq

theorem countAct_work (c : Fin 16) (b : Bank) (m : Option (BitVec 8)) (s : State) : g (countAct c b m s) = g s := by
  unfold countAct
  extract_lets k counted old
  split
  extract_lets tracked t1 t2 t3 reach first second level
  have tracked_eq : g tracked = g s := (chans_work h _ _).trans (chans_work h s _)
  have first_eq : g first = g s := (onlyIf_inv g _ _ tracked (fun y => chans_work h y _)).trans tracked_eq
  have second_eq : g second = g s := (onlyIf_inv g _ _ first (fun y => chans_work h y _)).trans first_eq
  exact (onlyIf_inv g _ _ second (fun y => throttle_work h c _ _ y)).trans second_eq

theorem storeLine_work (c : Fin 16) (lam : Nat) (l : Line) (p : Bool) (s : State) : g (storeLine c lam l p s) = g s := by
  unfold storeLine setDramPsn
  split <;> exact (chans_work h _ _).trans (dram_work h s _)

/-! ### Channels that are parked -/

theorem fmax_work {b : Nat} {f : Fld} (off : OffMap (b + f.off)) (v : Nat) (s : State) : g (fmax b f v s) = g s := fmax_inv (fset_work h off) v s

theorem fillStat_work (c : Fin 16) (s : State) : g (fillStat c s) = g s := (fmax_work h (offMap_high (by simp only [CH, QUE, CH_FILL_HWM]; omega) (by simp only [CH, PWR, CH_FILL_HWM]; omega)) _ _).trans (fset_CH_work h c (by decide) _ s)

theorem pausePay_work (c : Fin 16) (len : Nat) (s : State) : g (pausePay c len s) = g s := by
  unfold pausePay
  extract_lets b b' x
  have paid : g x = g s := (fset_PHY_work h c (by decide) _ _).trans (chans_work h s _)
  exact (onlyIf_inv g _ _ _ (fun y => led_work h y _)).trans ((led_work h x _).trans paid)

theorem cutPause_work (c : Fin 16) (s : State) : g (cutPause c s) = g s := by
  unfold cutPause
  split
  · exact pausePay_work h c _ s
  · rfl

theorem stopPhy_work (c : Fin 16) (s : State) : g (stopPhy c s) = g s := by
  unfold stopPhy
  split
  · rfl
  · exact (chans_work h _ _).trans ((chans_work h _ _).trans ((fset_CH_work h c (by decide) _ _).trans ((fset_work h (by decide) _ _).trans ((fset_work h (by decide) _ _).trans (bist_work h s _)))))

theorem endInord_work (c : Fin 16) (s : State) : g (endInord c s) = g s := by
  have counted : OffMap (ARB + (ARB_IOTIME_COUNT.nth c).off) := .inr (.inr (.inl (by simp only [ARB, TXN, QUE, Fld.nth, ARB_IOTIME_COUNT]; omega)))
  unfold endInord
  split
  · exact (fset_work h (by decide) _ _).trans ((fset_work h counted _ _).trans (chans_work h s _))
  · rfl

theorem clearWork_work (c : Fin 16) (s : State) : g (clearWork c s) = g s := by
  unfold clearWork
  extract_lets ended emptied phy
  have ended_eq : g ended = g s := (forAll_inv g _ _ _ fun r y => fset_CH_work h c (by decide) _ y).trans (endInord_work h c s)
  have phy_eq : g phy = g s := (phys_work h _ _).trans ((chans_work h _ _).trans ended_eq)
  exact (fillStat_work h c _).trans ((fset_CH_work h c (by decide) _ _).trans phy_eq)

theorem clearChan_work (c : Fin 16) (s : State) : g (clearChan c s) = g s := (phys_work h _ _).trans ((clearWork_work h c _).trans ((stopPhy_work h c _).trans (cutPause_work h c s)))

theorem refreshAll_work (c : Fin 16) (s : State) : g (refreshAll c s) = g s := (chans_work h _ _).trans ((led_work h _ _).trans (fset_CH_work h c (by decide) _ s))

theorem trainFail_work (c : Fin 16) (f : TrnFail) (s : State) : g (trainFail c f s) = g s := by
  obtain ⟨x, e⟩ := trainFail_eq c f s
  rw [e]
  unfold trainFailed
  extract_lets ended shown
  have ended_eq : g ended = g s := (chans_work h _ _).trans (phys_work h s _)
  have shown_eq : g shown = g s := (fset_PHY_work h c (by decide) _ _).trans ((fset_PHY_work h c (by decide) _ _).trans ((fset_PHY_work h c (by decide) _ _).trans
    ((fset_PHY_work h c (by decide) _ _).trans ((fset_CH_work h c (by decide) _ _).trans ended_eq))))
  exact (emit_work h _ _ _).trans ((fset_PHY_work h c (by decide) _ _).trans ((fset_PHY_work h c (by decide) _ _).trans shown_eq))

theorem parkFlush_work (c : Fin 16) (s : State) : g (parkFlush c s) = g s := by
  have parked : g (selfRefresh c (clearChan c s)) = g s := (fset_CH_work h c (by decide) _ _).trans ((refreshAll_work h c _).trans (clearChan_work h c s))
  unfold parkFlush
  split
  · exact trainFail_work h c _ s
  · exact parked
  · exact parked
  · exact ite_keeps (P := (g · = g s)) (fun _ => rfl) fun _ => (refreshAll_work h c _).trans (refreshAll_work h c s)
  · rfl

/-! ### Walks that end -/

theorem walkSide_work (s : State) (w : List (Nat × WalkRt)) : g { s with walks := w } = g s := h.walks s w s.caravans s.wreads

theorem caravans_work (s : State) (c : List Caravan) : g { s with caravans := c } = g s := h.walks s s.walks c s.wreads

theorem wreads_work (s : State) (r : List WalkRead) : g { s with wreads := r } = g s := h.walks s s.walks s.caravans r

theorem fset_WLK_work {f : Fld} (low : f.off < 0x1000) (v : Nat) (s : State) : g (fset WLK f v s) = g s := fset_work h (offMap_high (by simp only [WLK, QUE]; omega) (by simp only [WLK, PWR]; omega)) v s

theorem checkStage_work (d stage : Nat) (t : Trigger) (s : State) : g (checkStage d stage t s) = g s := by
  unfold checkStage
  extract_lets x rt n
  refine ite_keeps (P := (g · = g s)) (fun _ => rfl) fun _ => ?_
  split
  · exact ite_keeps (P := (g · = g s)) (fun _ => rfl) fun _ => walkSide_work h s _
  · exact (forAll_inv g _ _ _ fun _ y => wreads_work h y _).trans (walkSide_work h s _)

theorem startWanted_work (d : Nat) (s : State) : g (startWanted d s) = g s := (forAll_inv g _ _ _ fun _ y => checkStage_work h d _ _ y).trans (walkSide_work h s _)

theorem lineStage_work (ring : Fin 16) (n : Nat) (s : State) : g (lineStage ring n s) = g s :=
  lineStage_inv g (fun c s => caravans_work h s c) (fun r s => wreads_work h s r) (fun s => fset_WLK_work h (by decide) _ s) ring n s

theorem bypassStage_work (ring : Fin 16) (n : Nat) (s : State) : g (bypassStage ring n s) = g s := (lineStage_work h ring n _).trans ((fset_WLK_work h (by decide) _ _).trans (caravans_work h s _))

theorem stageAbsent_work (ring : Fin 16) (n : Nat) (s : State) : g (stageAbsent ring n s) = g s := by
  unfold stageAbsent
  split
  · rfl
  · split
    · exact bypassStage_work h ring n s
    · extract_lets x
      have waits : g x = g s := (fset_WLK_work h (by decide) _ _).trans (caravans_work h s _)
      exact ite_keeps (P := (g · = g s)) (fun _ => (bypassStage_work h ring n x).trans waits) fun _ => waits

theorem beginStage_work (ring : Fin 16) (n stage : Nat) (s : State) : g (beginStage ring n stage s) = g s := by
  unfold beginStage
  split
  · rfl
  next c _ =>
    extract_lets x y
    have looked : g y = g s := (checkStage_work h _ _ _ _).trans (caravans_work h s _)
    refine ite_keeps (P := (g · = g s)) (fun _ => (lineStage_work h ring n y).trans looked) fun _ => ?_
    split
    · exact ite_keeps (P := (g · = g s)) (fun _ => (walkSide_work h _ _).trans ((caravans_work h y _).trans looked)) fun _ => (stageAbsent_work h ring n y).trans looked
    · exact (stageAbsent_work h ring n _).trans ((checkStage_work h _ _ _ y).trans looked)

theorem startContext_work (d : Nat) (s : State) : g (startContext d s) = g s := by
  unfold startContext
  split
  · rfl
  · exact ite_keeps (P := (g · = g s)) (fun _ => rfl) fun _ => (beginStage_work h _ _ _ _).trans ((checkStage_work h _ _ _ _).trans ((caravans_work h _ _).trans (walkSide_work h s _)))

theorem endCaravan_work (c : Caravan) (s : State) : g (endCaravan c s) = g s := by
  unfold endCaravan
  extract_lets x rt y
  have gone : g x = g s := h.walks s s.walks _ _
  have left : g y = g s := ite_keeps (P := (g · = g s)) (fun _ => (fset_WLK_work h (by decide) _ x).trans gone) fun _ => (walkSide_work h x _).trans gone
  exact (startContext_work h _ _).trans ((startWanted_work h _ y).trans left)

theorem reapCaravans_work (s : State) : g (reapCaravans s) = g s := forAll_inv g _ _ s fun c y => endCaravan_work h c y

end

/-! ### Activations and writes of a row -/

section
variable {β : Type} {g : State → β} (h : BesideRows g)
include h

theorem besideChan_rows : BesideChan g := ⟨h.time, chans_work h.toBesideWork, led_work h.toBesideWork, fun c _ low v s => fset_CH_work h.toBesideWork c low v s⟩

theorem issueRfm_rows (c : Fin 16) (r : Nat) (bks : List Nat) (s : State) : g (issueRfm c r bks s) = g s := by
  have timing := besideChan_rows h
  unfold issueRfm
  split
  · rfl
  extract_lets n closed there imt charged issued lowered stopped bud
  have closed_eq : g closed = g s := (closeBanks_besideChan timing c _ _).trans ((exitPd_besideChan timing c _ _).trans (entryStop_besideChan timing c s))
  have there_eq : g there = g s := (h.time _ _).trans closed_eq
  have charged_eq : g charged = g s := (led_work h.toBesideWork _ _).trans ((fset_CH_work h.toBesideWork c (by decide) _ _).trans there_eq)
  have lowered_eq : g lowered = g s := (chans_work h.toBesideWork _ _).trans ((chans_work h.toBesideWork _ _).trans charged_eq)
  have stopped_eq : g stopped = g s := (chans_work h.toBesideWork _ _).trans ((chans_work h.toBesideWork _ _).trans ((forAll_inv g _ _ _ fun _ y => chans_work h.toBesideWork y _).trans lowered_eq))
  exact ite_keeps (P := (g · = g s)) (fun _ => (throttle_work h.toBesideWork c _ _ _).trans ((chans_work h.toBesideWork _ _).trans stopped_eq)) fun _ => stopped_eq

theorem rowOnce_rows (c : Fin 16) (lam : Nat) (man : Option (BitVec 8)) (s : State) : g (rowOnce c lam man s) = g s :=
  (forAll_inv g _ _ _ fun r y => issueRfm_rows h c r _ y).trans ((countAct_work h.toBesideWork c _ _ _).trans ((led_work h.toBesideWork _ _).trans (fset_CH_work h.toBesideWork c (by decide) _ s)))

theorem writeNow_rows (c : Fin 16) (lam : Nat) (l : Line) (psn scrub : Bool) (man : Option (BitVec 8)) (s : State) : g (writeNow c lam l psn scrub man s) = g s := by
  unfold writeNow
  extract_lets x
  have written : g x = g s := (rowOnce_rows h c _ _ _).trans ((led_work h.toBesideWork _ _).trans ((fset_CH_work h.toBesideWork c (by decide) _ _).trans (storeLine_work h.toBesideWork c lam l psn s)))
  exact (onlyIf_inv g _ _ x (fun y => (chans_work h.toBesideWork _ _).trans (fset_CH_work h.toBesideWork c (by decide) _ y))).trans written

end

/-! ### The Starter store -/

section
variable {β : Type} {g : State → β} (h : BesideFlush g)
include h

theorem starterSave_flush (kind : Nat) (s : State) : g (starterSave kind s) = g s := by
  obtain ⟨all, p, e⟩ := starterSave_eq kind s
  generalize sat : forAll all (fun x y => ixSet AON x.2 x.1 y) (takeFree (takeFree (takeFree s).2).2).2 = x at e
  have words : g x = g s := sat ▸ (forAll_inv g _ _ _ fun _ y => h.saved _ _ y).trans ((h.free _ _).trans ((h.free _ _).trans (h.free s _)))
  rw [e]
  exact (fset_work h.toBesideWork (by decide) _ _).trans ((fset_work h.toBesideWork (by decide) _ _).trans ((h.pwr x _).trans words))

end

end Sys2Proof.Proofs

/-! PROOF. A completed flush leaves no dirty line that a channel could take (12 R364, 14 R401). -/

namespace Sys2Proof.Proofs
open Sys2Proof Sys2Proof.Machine Sys2Proof.Laws

/-! ### The map and the frames -/

/-- The places of lines follow from the map's registers and the indirect tables' masks. -/
theorem placeOf_same {s t : State} (words : ∀ a ∈ poolWords, rg t a = rg s a) (ix : t.ix = s.ix) : placeOf t = placeOf s :=
  placeOf_congr words fun k _ => by simp only [chMask, ixGet, ix]

theorem offMap_poolWords {a b : Nat} (off : OffMap a) (m : b ∈ poolWords) : b ≠ a := by
  have inside : GLB + 0x100 ≤ b ∧ b < GLB + 0x120 ∨ QUE ≤ b ∧ b < QUE + 0x1000 := (by decide : ∀ b ∈ poolWords, GLB + 0x100 ≤ b ∧ b < GLB + 0x120 ∨ QUE ≤ b ∧ b < QUE + 0x1000) b m
  rintro rfl
  unfold OffMap at off
  have map : GLB = 0 ∧ HP 0 = 0x20000 ∧ TXN = 0x30000 ∧ QUE = 0x70000 ∧ PWR = 0x320000 ∧ AON = 0x330000 := by decide
  omega

theorem placeOf_fset {b : Nat} {f : Fld} (off : OffMap (b + f.off)) (v : Nat) (s : State) : placeOf (fset b f v s) = placeOf s :=
  placeOf_same (fun _ m => rg_fset_ne _ _ _ _ (offMap_poolWords off m)) rfl

theorem placeOf_WAY {f : Fld} (low : f.off < 0x1000) (v : Nat) (s : State) : placeOf (fset WAY f v s) = placeOf s :=
  placeOf_fset (.inr (.inr (.inl (by simp only [WAY, TXN, QUE]; omega)))) v s

/-- The tables of frames. -/
def framesOf (s : State) : List (Nat × Frame) × List (Nat × Frame) := (s.way.tier, s.way.pinned)

theorem frame_of_framesOf {s t : State} (same : framesOf t = framesOf s) (pin : Bool) (f : Nat) : t.frame pin f = s.frame pin f :=
  congrArg (fun l : List (Nat × Frame) × List (Nat × Frame) => tblGet (fun _ => ({} : Frame)) (if pin then l.2 else l.1) f) same

theorem besideFlush_placeOf : BesideFlush placeOf where
  reg a w s off := placeOf_same (fun _ m => rg_rgSet_ne _ _ _ s (offMap_poolWords off m)) rfl
  parts _ _ _ _ _ _ := placeOf_same (fun _ _ => rfl) rfl
  walks _ _ _ _ := placeOf_same (fun _ _ => rfl) rfl
  events _ _ _ := placeOf_same (fun _ _ => rfl) rfl
  time _ _ := placeOf_same (fun _ _ => rfl) rfl
  free _ _ := placeOf_same (fun _ _ => rfl) rfl
  pwr _ _ := placeOf_same (fun _ _ => rfl) rfl
  saved i w s := placeOf_congr (fun _ _ => rfl) fun k lt => by
    have word (j : Nat) (low : j < 0x110) : ixGet (ixSet AON i w s) GLB j = ixGet s GLB j :=
      tblGet_tblSet_ne _ _ _ _ _ (by simp only [ixKey, GLB, AON]; omega)
    unfold chMask
    rw [word _ (by omega), word _ (by omega)]

theorem besideFlush_framesOf : BesideFlush framesOf where
  reg _ _ _ _ := rfl
  parts _ _ _ _ _ _ := rfl
  walks _ _ _ _ := rfl
  events _ _ _ := rfl
  time _ _ := rfl
  free _ _ := rfl
  pwr _ _ := rfl
  saved _ _ _ := rfl

/-! ### Frames that are written -/

theorem frame_setFrame (pin : Bool) (f : Nat) (x : Frame) (s : State) (p : Bool) (k : Nat) :
    (setFrame pin f x s).frame p k = if p = pin ∧ k = f then x else s.frame p k := by
  split
  next same =>
    obtain ⟨rfl, rfl⟩ := same
    exact setFrame_frame p k x s
  next other =>
    cases pin <;> cases p <;> first | rfl | exact tblGet_tblSet_ne _ _ _ _ _ fun e => other ⟨rfl, e⟩

theorem placeOf_setFrame (pin : Bool) (f : Nat) (x : Frame) (s : State) : placeOf (setFrame pin f x s) = placeOf s :=
  setFrame_inv placeOf (fun _ _ _ => placeOf_same (fun _ _ => rfl) rfl) pin f x s

theorem placeOf_wayStat (s : State) : placeOf (wayStat s) = placeOf s := wayStat_inv (fun _ low v x => placeOf_WAY low v x) s

theorem framesOf_wayStat (s : State) : framesOf (wayStat s) = framesOf s := wayStat_inv (fun _ _ _ _ => rfl) s

theorem bit16_clear (m : BitVec 16) (i j : Nat) : bit16 (setBit16 m i false) j = (bit16 m j && decide (j ≠ i)) := by
  unfold bit16 setBit16
  simp only [bitOf_eq_testBit, Bool.false_eq_true, if_false]
  have small (v : Nat) (le : v ≤ m.toNat) : (BitVec.ofNat 16 v).toNat = v := (BitVec.toNat_ofNat v 16).trans (Nat.mod_eq_of_lt (le.trans_lt m.isLt))
  split
  next set => rw [small _ (Nat.sub_le _ _), testBit_sub_two_pow set]
  next unset =>
    rw [small _ le_rfl]
    rcases eq_or_ne j i with rfl | ne
    · simp [Bool.eq_false_iff.mpr unset]
    · simp [ne]

/-! ### Lines that are written back -/

/-- A line of a frame is clean, or no channel holds it. -/
def LineClean (pin : Bool) (f i : Nat) (s : State) : Prop := bit16 (s.frame pin f).dirty i = true → placeOf s ((s.frame pin f).seg * 16 + i) = none

theorem LineClean.congr {pin : Bool} {f i : Nat} {s t : State} (frames : framesOf t = framesOf s) (places : placeOf t = placeOf s) (h : LineClean pin f i s) : LineClean pin f i t := by
  unfold LineClean
  rw [frame_of_framesOf frames, places]
  exact h

theorem LineClean.cleanLine {pin p : Bool} {f k i j : Nat} {s : State} (h : (p, k, j) ≠ (pin, f, i) → LineClean p k j s) : LineClean p k j (cleanLine pin f i s) := by
  unfold Machine.cleanLine
  dsimp only
  refine LineClean.congr (framesOf_wayStat _) (placeOf_wayStat _) ?_
  unfold LineClean updFrame
  rw [frame_setFrame, placeOf_setFrame]
  split
  next same =>
    obtain ⟨rfl, rfl⟩ := same
    rw [bit16_clear, Bool.and_eq_true, decide_eq_true_eq]
    rintro ⟨dirty, other⟩
    exact h (fun e => other (congrArg (fun x : Bool × Nat × Nat => x.2.2) e)) dirty
  next other => exact h fun e => other ⟨congrArg Prod.fst e, congrArg (fun x : Bool × Nat × Nat => x.2.1) e⟩

/-- A dirty line has been written to the channels of its place. -/
def wroteLine (pin : Bool) (f i : Nat) (p : Place) (s : State) : State :=
  let x := s.frame pin f
  let put := fun (c : Fin 16) => writeNow c p.lam (wayLine s (frameLine s pin f i)) (bit16 x.psn i) false (chargeMan x i)
  let s := charge 0x00 1 (chargeMan x i) s
  let s := onlyIf (chanUp s p.ch) (put p.ch) s
  onlyIf (p.twin && chanUp s (partnerOf p.ch)) (put (partnerOf p.ch)) s

theorem charge_work {β : Type} {g : State → β} (h : BesideWork g) (i n : Nat) (m : Option (BitVec 8)) (s : State) : g (charge i n m s) = g s := by
  unfold charge chargePj
  exact led_work h s _

theorem wroteLine_rows {β : Type} {g : State → β} (h : BesideRows g) (pin : Bool) (f i : Nat) (p : Place) (s : State) : g (wroteLine pin f i p s) = g s := by
  unfold wroteLine
  extract_lets x put charged home
  have charged_eq : g charged = g s := charge_work h.toBesideWork _ _ _ s
  have home_eq : g home = g s := (onlyIf_inv g _ _ charged fun y => writeNow_rows h _ _ _ _ _ _ y).trans charged_eq
  exact (onlyIf_inv g _ _ home fun y => writeNow_rows h _ _ _ _ _ _ y).trans home_eq

/-- A line that is flushed has no place or is clean already, or is written to its channels and is clean then. -/
theorem flushLine_cases (pin : Bool) (f i : Nat) (s : State) : flushLine pin f i s = s ∧ LineClean pin f i s ∨
    ∃ p, flushLine pin f i s = cleanLine pin f i (fbump WAY WAY_WB_COUNT (wroteLine pin f i p s)) := by
  unfold flushLine
  dsimp only
  split
  next clean => exact .inl ⟨rfl, fun dirty => absurd dirty (by simpa using clean)⟩
  next =>
    split
    next nowhere => exact .inl ⟨rfl, fun _ => nowhere⟩
    next p _ => exact .inr ⟨p, rfl⟩

theorem flushLine_clean (pin : Bool) (f i : Nat) (s : State) : LineClean pin f i (flushLine pin f i s) := by
  obtain ⟨e, clean⟩ | ⟨p, e⟩ := flushLine_cases pin f i s
  · rw [e]
    exact clean
  · rw [e]
    exact LineClean.cleanLine fun other => absurd rfl other

theorem flushLine_kept (pin : Bool) (f i : Nat) {p : Bool} {k j : Nat} {s : State} (h : LineClean p k j s) : LineClean p k j (flushLine pin f i s) := by
  obtain ⟨e, -⟩ | ⟨pl, e⟩ := flushLine_cases pin f i s
  · rw [e]
    exact h
  · rw [e]
    exact LineClean.cleanLine fun _ => h.congr (wroteLine_rows besideFlush_framesOf.toBesideRows pin f i pl s)
      ((placeOf_WAY (by decide) _ _).trans (wroteLine_rows besideFlush_placeOf.toBesideRows pin f i pl s))

/-- The lines of a frame are written back. -/
def flushFrame (pin : Bool) (f : Nat × Frame) (s : State) : State := forAll (List.range 16) (flushLine pin f.1) s

theorem flushAll_eq (s : State) : flushAll s = forAll s.way.pinned (flushFrame true) (forAll s.way.tier (flushFrame false) s) := rfl

theorem flushFrame_kept (pin : Bool) (f : Nat × Frame) {p : Bool} {k j : Nat} {s : State} (h : LineClean p k j s) : LineClean p k j (flushFrame pin f s) :=
  forAll_keeps_prop (P := LineClean p k j) _ _ h fun i _ => flushLine_kept pin f.1 i

theorem flushFrame_clean (pin : Bool) (f : Nat × Frame) {i : Nat} (lt : i < 16) (s : State) : LineClean pin f.1 i (flushFrame pin f s) :=
  forAll_reaches_of (I := fun _ => True) (P := LineClean pin f.1 i) (List.mem_range.mpr lt) (fun _ _ _ => trivial) (fun s _ => flushLine_clean pin f.1 i s)
    (fun b _ => flushLine_kept pin f.1 b) trivial

theorem flushFrames_kept (pin : Bool) (l : List (Nat × Frame)) {p : Bool} {k j : Nat} {s : State} (h : LineClean p k j s) : LineClean p k j (forAll l (flushFrame pin) s) :=
  forAll_keeps_prop (P := LineClean p k j) _ _ h fun f _ => flushFrame_kept pin f

theorem flushFrames_clean (pin : Bool) {l : List (Nat × Frame)} {f : Nat × Frame} (listed : f ∈ l) {i : Nat} (lt : i < 16) (s : State) : LineClean pin f.1 i (forAll l (flushFrame pin) s) :=
  forAll_reaches_of (I := fun _ => True) (P := LineClean pin f.1 i) listed (fun _ _ _ => trivial) (fun s _ => flushFrame_clean pin f lt s)
    (fun b _ => flushFrame_kept pin b) trivial

/-- A frame of no table is empty. -/
theorem frame_listed {pin : Bool} {f i : Nat} {s : State} (dirty : bit16 (s.frame pin f).dirty i = true) : (f, s.frame pin f) ∈ (if pin then s.way.pinned else s.way.tier) :=
  tblGet_entry (fun _ => ({} : Frame)) fun e => by
    rw [State.frame, e] at dirty
    simp [bit16, bitOf] at dirty

theorem allClean_flushAll (s : State) : allClean (flushAll s) := by
  intro pin f i lt
  change LineClean pin f i (flushAll s)
  rw [flushAll_eq]
  by_cases clean : LineClean pin f i s
  · exact flushFrames_kept _ _ (flushFrames_kept _ _ clean)
  · have dirty : bit16 (s.frame pin f).dirty i = true := by_contra fun e => clean fun d => absurd d e
    have listed := frame_listed dirty
    cases pin with
    | true => exact flushFrames_clean true listed lt _
    | false => exact flushFrames_kept _ _ (flushFrames_clean false listed lt _)

theorem allClean.congr {s t : State} (h : allClean s) (frames : framesOf t = framesOf s) (places : placeOf t = placeOf s) : allClean t :=
  fun pin f i lt => LineClean.congr frames places (h pin f i lt)

theorem allClean.beside {s : State} (h : allClean s) {f : State → State} (same : ∀ {β : Type} {g : State → β}, BesideFlush g → g (f s) = g s) : allClean (f s) :=
  allClean.congr h (same besideFlush_framesOf) (same besideFlush_placeOf)

theorem allClean.way {s : State} (h : allClean s) {f : Fld} (low : f.off < 0x1000) (v : Nat) : allClean (fset WAY f v s) := allClean.congr h rfl (placeOf_WAY low v s)

/-- A frame takes a content that is clean, or whose lines are those it had. -/
theorem allClean.setFrame {s : State} (h : allClean s) (pin : Bool) (f : Nat) {x : Frame} (clean : x.dirty = 0 ∨ x.dirty = (s.frame pin f).dirty ∧ x.seg = (s.frame pin f).seg) :
    allClean (setFrame pin f x s) := by
  intro p k i lt
  rw [frame_setFrame, placeOf_setFrame]
  split
  next same =>
    obtain ⟨rfl, rfl⟩ := same
    intro dirty
    obtain none | ⟨lines, seg⟩ := clean
    · rw [none] at dirty
      simp [bit16, bitOf] at dirty
    · rw [seg]
      exact h p k i lt (lines ▸ dirty)
  next => exact h p k i lt

/-! ### The power-fail flush -/

/-- What remains to do once a power-fail flush has written every line. -/
def flushEnd (s : State) : State :=
  emit "pfail" [("state", .s "done")] { s with led := { s.led with pf := .done }, pwr := { s.pwr with retEn := true } }

theorem flushEnd_flush {β : Type} {g : State → β} (h : BesideFlush g) (s : State) : g (flushEnd s) = g s :=
  (emit_work h.toBesideWork _ _ _).trans ((led_work h.toBesideWork { s with pwr := { s.pwr with retEn := true } } _).trans (h.pwr s _))

theorem flushDone_clean {s : State} (h : s.led.pf = .flush false) : allClean (flushDone s) := by
  unfold flushDone
  rw [h]
  extract_lets granted written parked saved done
  have written_clean : allClean written := allClean_flushAll _
  clear_value written
  have parked_clean : allClean parked := allClean.beside (f := fun x => reapCaravans (forAll allChans parkFlush x)) written_clean
    fun g => (reapCaravans_work g.toBesideWork _).trans (forAll_inv _ allChans parkFlush written fun c y => parkFlush_work g.toBesideWork c y)
  clear_value parked
  have saved_clean : allClean saved := allClean.beside (f := fun x => starterSave 2 (fset LED LED_STATUS_FLUSH 0 (fset AON AON_STATUS_FLUSH_OK 1 x))) parked_clean
    fun g => (starterSave_flush g _ _).trans ((fset_work g.toBesideWork (by decide) _ _).trans (fset_work g.toBesideWork (by decide) _ _))
  clear_value saved
  exact allClean.beside (f := flushEnd) saved_clean fun g => flushEnd_flush g saved

/-! ### An entry to sleep -/

theorem allClean.emit {s : State} (h : allClean s) (k : String) (x : List (String × FVal)) : allClean (Machine.emit k x s) :=
  allClean.beside (f := Machine.emit k x) h fun g => emit_work g.toBesideWork k x s

theorem allClean.retireTier {s : State} (h : allClean s) (f : Nat) : allClean (retireTier f s) :=
  allClean.emit (allClean.way (allClean.way (allClean.setFrame h false f (.inl rfl)) (by decide) _) (by decide) _) _ _

theorem allClean.retirePin {s : State} (h : allClean s) (f : Nat) : allClean (retirePin f s) :=
  allClean.emit (allClean.way (allClean.setFrame h true f (.inl rfl)) (by decide) _) _ _

/-- A frame that quiesces is empty, or keeps its lines. -/
theorem quietFrame_clean (pin : Bool) (f : Nat × Frame) {s : State} (h : allClean s) : allClean (quietFrame pin f s) := by
  unfold quietFrame
  dsimp only
  split
  case h_1 => exact allClean.setFrame (allClean.beside (f := killFills pin f.1) h fun g => chans_work g.toBesideWork s _) pin f.1 (.inl rfl)
  case h_2 =>
    have emptied : allClean (setFrame pin f.1 {} (fbump WAY WAY_DEMOTE_COUNT s)) := allClean.setFrame (allClean.way h (by decide) _) pin f.1 (.inl rfl)
    have retired (b : Bool) : allClean (onlyIf b (if pin then retirePin f.1 else retireTier f.1) (setFrame pin f.1 {} (fbump WAY WAY_DEMOTE_COUNT s))) := by
      cases b with
      | false => exact emptied
      | true =>
        cases pin with
        | true => exact allClean.retirePin emptied f.1
        | false => exact allClean.retireTier emptied f.1
    split
    next k _ => exact allClean.congr (retired _) rfl (placeOf_same (fun _ _ => rfl) rfl)
    next => exact retired _
  case h_3 => exact allClean.setFrame h pin f.1 (.inr ⟨rfl, rfl⟩)

theorem quietWay_clean (s : State) : allClean (quietWay s) := by
  unfold quietWay
  extract_lets emptied flushed quiet
  have quiet_clean : allClean quiet := forAll_keeps_prop (P := allClean) _ _ (forAll_keeps_prop (P := allClean) _ _ (allClean_flushAll emptied) fun f _ => quietFrame_clean false f)
    fun f _ => quietFrame_clean true f
  clear_value quiet
  have unqueued : allClean { quiet with way := { quiet.way with pinQueue := [] } } := allClean.congr quiet_clean rfl (placeOf_same (fun _ _ => rfl) rfl)
  exact allClean.congr unqueued (framesOf_wayStat _) (placeOf_wayStat _)

theorem drainComplete_clean {s : State} {b : Bool} {t0 : Nat} (entry : s.pwr.entry = some (b, t0, .drain)) (drain : drained s = true) : allClean (drainComplete s) := by
  unfold drainComplete
  rw [entry]
  dsimp only
  rw [if_neg (by simp [drain])]
  have quiet := quietWay_clean (answer [okLn [("state", .s "entering")]] s)
  generalize quietWay (answer [okLn [("state", .s "entering")]] s) = q at quiet ⊢
  have worked : allClean { q with pwr := { q.pwr with entry := some (b, t0, .work) } } := allClean.beside (f := fun x => { x with pwr := { x.pwr with entry := some (b, t0, .work) } }) quiet fun g => g.pwr _ _
  exact allClean.congr worked rfl (placeOf_same (fun a m => rg_fset_ne _ _ _ _ (by have := poolWords_low m; simp only [PWR, PWR_STATE_SUB]; omega)) rfl)

/-- Settles O11: every dirty line with a place is written and clean, and nothing after it writes a line of a frame. -/
theorem flushLeavesNothingDirty : Obligations.FlushLeavesNothingDirty := by
  unfold Obligations.FlushLeavesNothingDirty
  refine ⟨fun s t flush e => ?_, fun s t b t0 entry drain e => ?_⟩
  · obtain rfl : flushDone s = t := by injection e
    exact flushDone_clean flush
  · obtain rfl : drainComplete s = t := by injection e
    exact drainComplete_clean entry drain

end Sys2Proof.Proofs

/-! PROOF. What ends BANKED and DOZE: the wake pin, the wake port, a link, the timer and the console (14 R405 to R410). -/

namespace Sys2Proof.Proofs
open Sys2Proof Sys2Proof.Machine Sys2Proof.Laws

/-! ### BANKED is left (14 R410) -/

theorem bankedWake_left {k : Nat} (small : k < 16) (s : State) : bankedLeft s (bankedWake k s) k := by
  unfold bankedWake
  extract_lets x
  have sub : fget x PWR PWR_STATE_SUB = 3 := by
    unfold x lastWake
    refine (fget_of_rg (rg_rgSet_ne _ _ _ _ (by decide))).trans ?_
    rw [fget_fset_apart _ (by decide), fget_fset_ne _ _ _ _ _ _ (by decide), fget_fset _ _ _ _ (by decide)]
    rfl
  have cause : fget x AON AON_STATUS_LAST_WAKE = k := by
    unfold x lastWake
    refine (fget_of_rg (rg_rgSet_ne _ _ _ _ (by decide))).trans ?_
    rw [fget_fset_ne _ _ _ _ _ _ (by decide), fget_fset _ _ _ _ (by decide)]
    exact Nat.mod_eq_of_lt small
  have edges : rg x (AON + AON_SLOWCNT_EDGES.off) = BitVec.ofNat 32 s.pwr.slowEdges := rg_rgSet _ _ _
  have pwr : x.pwr = s.pwr := rfl
  have store : sameStore s x := ⟨rfl, rfl, rfl, rfl, rfl, rfl⟩
  clear_value x
  exact ⟨(congrArg PwrState.mode pwr :), rfl, rfl, rfl, rfl, rfl, sub, cause, edges, store⟩

theorem wakeBy_banked {k : Nat} {s : State} (mode : s.pwr.mode = .banked) (entry : s.pwr.entry = none) (wake : s.pwr.wake = none) (ends : wakeFor true k = true) :
    wakeBy k s = bankedWake k s := by
  unfold wakeBy
  rw [mode, entry]
  exact if_pos ⟨by rw [wake]; rfl, ends⟩

theorem wakeBy_doze {k : Nat} {s : State} (mode : s.pwr.mode = .doze) (ends : wakeFor false k = true) : wakeBy k s = dozeWake k s := by
  unfold wakeBy
  rw [mode]
  exact if_pos ends

theorem wakeBy_work {k : Nat} {b : Bool} {t0 : Nat} {s : State} (mode : s.pwr.mode = .run) (entry : s.pwr.entry = some (b, t0, .work)) (ends : wakeFor b k = true) :
    wakeBy k s = settle (workAbort (wakeWord k) s) := by
  unfold wakeBy
  rw [mode, entry]
  exact if_pos ends

/-! ### Ports in QUIET retrain -/

section
variable {P : State → Prop} (h : ResetAside P) {s : State} (hs : P s) (p : Fin 4) (ports : ∀ {f : Fld} v s, f.off < 0x1000 → P s → P (fset (HP p) f v s))
include h hs ports

theorem sendFlit_aside (ft : BitVec 4) (r : Bool) (x : TxFlit) : P (sendFlit p ft r x s) := by
  unfold sendFlit
  split
  · exact hs
  · exact updPort_aside h (onlyIf_keeps_prop _ _ hs (ports _ _ (by decide) hs)) p _

theorem sendTrain_aside : P (sendTrain p s) := by
  unfold sendTrain
  extract_lets n x
  have sent : P x := forAll_keeps_prop _ _ hs fun l y hy => sendFlit_aside h hy p ports _ _ _
  exact onlyIf_keeps_prop _ _ sent (updPort_aside h sent p _)

theorem toRetrain_aside (u : Bool) : P (toRetrain p u s) := sendTrain_aside h (setPortSt_aside h (updPort_aside h hs p _) p ports _) p ports

end

theorem rg_toRetrain_ne {p q : Fin 4} (ne : q ≠ p) {i : Nat} (low : i < 0x1000) (u : Bool) (s : State) : rg (toRetrain p u s) (HP q + i) = rg s (HP q + i) :=
  toRetrain_aside (aside_HP q low _) rfl p (fun _ _ small hs => (rg_fset_ne _ _ _ _ (HP_ne ne low small)).trans hs) u

theorem rg_toRetrain_spared (p : Fin 4) {a : Nat} (spared : Spared a) (u : Bool) (s : State) : rg (toRetrain p u s) a = rg s a :=
  toRetrain_aside (aside_rg spared _) rfl p (fun _ _ small hs => (rg_fset_ne _ _ _ _ (by
    have port := p.isLt
    unfold Spared at spared
    simp only [HP]
    simp only [GLB, GLB_IRQ_STAT_EVENT, GLB_CLKSTAT_LINK_LOCK] at spared
    omega)).trans hs) u

theorem chState_toRetrain (p : Fin 4) (u : Bool) (c : Fin 16) (s : State) : chState (toRetrain p u s) c = chState s c :=
  toRetrain_aside (aside_chState c _) rfl p (fun v y low hy => (chState_HP p low c v y).trans hy) u

/-- Every port in QUIET retrains. -/
def portsBack (s : State) : State := forAll allPorts (fun p s => onlyIf (portSt s p == PORT_QUIET) (toRetrain p false) s) s

theorem portsBack_inv {β : Type} {g : State → β} (kept : ∀ p s, g (toRetrain p false s) = g s) (s : State) : g (portsBack s) = g s :=
  forAll_inv g _ _ s fun p _ => onlyIf_inv g _ _ _ fun y => kept p y

theorem portsBack_retrain {p : Fin 4} {s : State} (quiet : portSt s p = PORT_QUIET) : portSt (portsBack s) p = PORT_RETRAIN := by
  have other {b : Fin 4} (ne : p ≠ b) (y : State) : portSt (toRetrain b false y) p = portSt y p := fget_of_rg (rg_toRetrain_ne ne (by decide) false y)
  refine forAll_reaches_of (I := fun y => portSt y p = PORT_QUIET ∨ portSt y p = PORT_RETRAIN) (P := fun y => portSt y p = PORT_RETRAIN) (List.mem_finRange p)
    (fun b y hy => onlyIf_keeps_prop (P := fun y => portSt y p = PORT_QUIET ∨ portSt y p = PORT_RETRAIN) _ _ hy ?_) (fun y hy => ?_)
    (fun b y hy => onlyIf_keeps_prop (P := fun y => portSt y p = PORT_RETRAIN) _ _ hy ?_) (.inl quiet)
  · by_cases own : p = b
    · exact .inr (own ▸ portSt_toRetrain _ _ _)
    · exact (other own y).symm ▸ hy
  · rcases hy with rests | trains
    · unfold onlyIf
      rw [if_pos (by simp [rests])]
      exact portSt_toRetrain _ _ _
    · exact onlyIf_keeps_prop (P := fun y => portSt y p = PORT_RETRAIN) _ _ trains (portSt_toRetrain _ _ _)
  · by_cases own : p = b
    · exact own ▸ portSt_toRetrain _ _ _
    · exact (other own y).trans hy

/-! ### DOZE is left (14 R409) -/

/-- The end of DOZE is recorded with its cause, and the self-test's cycles go on. -/
def dozeEnded (k : Nat) (s : State) : State :=
  let s := lastWake k (fset PWR PWR_STATE_STATE 0 (fset PWR PWR_STATE_SUB 3 { s with pwr := { s.pwr with mode := .run, dozeExit := some k } }))
  sleepPause (s.ns - s.pwr.dozeAt) s

/-- Channels and ports go on, and the watchdog counts anew. -/
def dozeBack (k : Nat) (s : State) : State := wdogKick (portsBack (relockRest (dozeEnded k s)))

theorem dozeWake_eq (k : Nat) (s : State) : dozeWake k s = dozeCheck (pinRefill (dozeBack k s)) := rfl

/-- What the recording of the end of DOZE leaves, and what it records. -/
structure DozeEnded (k : Nat) (s t : State) : Prop where
  mode : t.pwr.mode = .run
  exit : t.pwr.dozeExit = some k
  state : fget t PWR PWR_STATE_STATE = 0
  sub : fget t PWR PWR_STATE_SUB = 3
  shown : fget t PWR PWR_STATE_LAST_WAKE = k
  kept : fget t AON AON_STATUS_LAST_WAKE = k
  regs : ∀ a, a ≠ PWR + PWR_STATE_STATE.off → a ≠ AON + AON_STATUS_LAST_WAKE.off → rg t a = rg s a
  chans : t.chans = s.chans
  parkDue : ∀ c : Fin 16, (t.phy c).parkDue = (s.phy c).parkDue
  con : t.con = s.con
  d8 : t.d8 = s.d8
  dram : t.dram = s.dram
  streams : t.streams = s.streams

theorem dozeEnded_dozeEnded {k : Nat} (small : k < 16) (s : State) : DozeEnded k s (dozeEnded k s) := by
  unfold dozeEnded
  generalize woken : ({ s with pwr := { s.pwr with mode := .run, dozeExit := some k } } : State) = w
  have mode : w.pwr.mode = .run := woken ▸ rfl
  have exit : w.pwr.dozeExit = some k := woken ▸ rfl
  have regs : w.regs = s.regs := woken ▸ rfl
  have chans : w.chans = s.chans := woken ▸ rfl
  have phys : w.phys = s.phys := woken ▸ rfl
  have con : w.con = s.con := woken ▸ rfl
  have d8 : w.d8 = s.d8 := woken ▸ rfl
  have dram : w.dram = s.dram := woken ▸ rfl
  have streams : w.streams = s.streams := woken ▸ rfl
  clear woken
  dsimp only
  refine ⟨mode, exit, ?_, ?_, ?_, ?_, fun a stateOff statusOff => ?_, chans, fun c => congrArg PhyState.parkDue (phy_congr phys c), con, d8, dram, streams⟩
  · change fget (fset PWR PWR_STATE_LAST_WAKE k _) _ _ = _
    rw [fget_fset_apart _ (by decide), fget_fset_ne _ _ _ _ _ _ (by decide), fget_fset _ _ _ _ (by decide)]
    rfl
  · change fget (fset PWR PWR_STATE_LAST_WAKE k _) _ _ = _
    rw [fget_fset_apart _ (by decide), fget_fset_ne _ _ _ _ _ _ (by decide), fget_fset_apart _ (by decide), fget_fset _ _ _ _ (by decide)]
    rfl
  · change fget (fset PWR PWR_STATE_LAST_WAKE k _) _ _ = _
    rw [fget_fset _ _ _ _ (by decide)]
    exact Nat.mod_eq_of_lt small
  · change fget (fset PWR PWR_STATE_LAST_WAKE k _) _ _ = _
    rw [fget_fset_ne _ _ _ _ _ _ (by decide), fget_fset _ _ _ _ (by decide)]
    exact Nat.mod_eq_of_lt small
  · change rg (fset PWR PWR_STATE_LAST_WAKE k _) _ = _
    exact (rg_fset_ne _ PWR_STATE_LAST_WAKE _ _ stateOff).trans ((rg_fset_ne _ _ _ _ statusOff).trans
      ((rg_fset_ne _ PWR_STATE_STATE _ _ stateOff).trans ((rg_fset_ne _ PWR_STATE_SUB _ _ stateOff).trans (rg_congr regs a))))

/-- What the way back from DOZE does to channels and ports, and what it leaves. -/
structure DozeBack (x y : State) : Prop where
  pwr : y.pwr = x.pwr
  regs : ∀ a, Spared a → rg y a = rg x a
  states : ∀ c, chState y c = chState x c
  relock : ∀ c : Fin 16, chState x c = 4 → (y.phy c).relock = true
  retrain : ∀ p : Fin 4, portSt x p = PORT_QUIET → portSt y p = PORT_RETRAIN
  parkDue : ∀ c : Fin 16, (y.phy c).parkDue = (x.phy c).parkDue
  chans : y.chans = x.chans
  con : y.con = x.con
  d8 : y.d8 = x.d8
  dram : y.dram = x.dram
  streams : y.streams = x.streams

theorem dozeBack_dozeBack (x : State) : DozeBack x (portsBack (relockRest x)) := by
  have view {β : Type} {g : State → β} (kept : ∀ p s, g (toRetrain p false s) = g s) (rest : ∀ (s : State) (l : Vector PhyState 16), g { s with phys := l } = g s) :
      g (portsBack (relockRest x)) = g x := (portsBack_inv kept _).trans (relockRest_inv rest x)
  have phys : (portsBack (relockRest x)).phys = (relockRest x).phys := portsBack_inv (g := (·.phys)) (fun p s => toRetrain_phys p false s) _
  refine ⟨?_, fun a spared => ?_, fun c => ?_, fun c rest => ?_, fun p quiet => ?_, fun c => ?_, ?_, ?_, ?_, ?_, ?_⟩
  · exact view (g := (·.pwr)) (fun p s => toRetrain_pwr p false s) fun _ _ => rfl
  · exact view (g := (rg · a)) (fun p s => rg_toRetrain_spared p spared false s) fun _ _ => rfl
  · exact view (g := (chState · c)) (fun p s => chState_toRetrain p false c s) fun _ _ => rfl
  · rw [phy_congr phys]
    exact relockRest_relock rest
  · exact portsBack_retrain ((relockRest_inv (g := (portSt · p)) (fun _ _ => rfl) x).trans quiet)
  · rw [phy_congr phys]
    exact relockRest_parkDue c x
  · exact view (g := (·.chans)) (fun p s => toRetrain_chans p false s) fun _ _ => rfl
  · exact view (g := (·.con)) (fun p s => toRetrain_con p false s) fun _ _ => rfl
  · exact view (g := (·.d8)) (fun p s => toRetrain_d8 p false s) fun _ _ => rfl
  · exact view (g := (·.dram)) (fun p s => toRetrain_dram p false s) fun _ _ => rfl
  · exact view (g := (·.streams)) (fun p s => toRetrain_streams p false s) fun _ _ => rfl

theorem dozeCheck_waits {s : State} (waits : (members s).any (fun c => !(s.chan c).lost && !inService s c) = true) : dozeCheck s = s := by
  unfold dozeCheck
  split
  · rfl
  · exact if_pos waits

theorem membersWait_congr {s t : State} (waits : membersWait s) (map : members t = members s) (chans : t.chans = s.chans) (states : ∀ c, chState t c = chState s c)
    (parkDue : ∀ c : Fin 16, (t.phy c).parkDue = (s.phy c).parkDue) : membersWait t := by
  obtain ⟨c, member, kept, out⟩ := waits
  refine ⟨c, map ▸ member, ?_, ?_⟩
  · rw [chan_congr chans]
    exact kept
  · unfold inService at out ⊢
    rw [states, parkDue]
    exact out

/-- While channels are still to come into service, a wake from DOZE has begun and waits for them. -/
theorem dozeWake_left {k : Nat} (small : k < 16) {s : State} (waits : membersWait s) : dozeLeft s (dozeWake k s) k ∧ (dozeWake k s).con.ans = s.con.ans := by
  rw [dozeWake_eq]
  unfold dozeBack
  have ended := dozeEnded_dozeEnded small s
  generalize dozeEnded k s = x at ended ⊢
  have back := dozeBack_dozeBack x
  generalize portsBack (relockRest x) = y at back ⊢
  have far (a : Nat) (low : a < 0x300000) : rg x a = rg s a := ended.regs a (by simp only [PWR, PWR_STATE_STATE]; omega) (by simp only [AON, AON_STATUS_LAST_WAKE]; omega)
  have xStates (c : Fin 16) : chState x c = chState s c := fget_of_rg (far _ (by have := c.isLt; simp only [CH, CH_STATUS_STATE]; omega))
  have xPorts (p : Fin 4) : portSt x p = portSt s p := fget_of_rg (far _ (by have := p.isLt; simp only [HP, HP_STATUS_STATE]; omega))
  have yWaits : membersWait y := by
    refine membersWait_congr waits ?_ (back.chans.trans ended.chans) (fun c => (back.states c).trans (xStates c)) fun c => (back.parkDue c).trans (ended.parkDue c)
    exact members_of_rg ((back.regs _ (by unfold Spared; decide)).trans (far _ (by decide))) ((back.regs _ (by unfold Spared; decide)).trans (far _ (by decide)))
  have kicked : membersWait (wdogKick y) := yWaits
  have refilled := pinRefill_coreSame (CoreSame.refl (wdogKick y))
  have mode : (wdogKick y).pwr.mode = .run := (congrArg PwrState.mode back.pwr).trans ended.mode
  have exit : (wdogKick y).pwr.dozeExit = some k := (congrArg PwrState.dozeExit back.pwr).trans ended.exit
  have regs (a : Nat) (spared : Spared a) : rg (wdogKick y) a = rg x a := back.regs a spared
  have states (c : Fin 16) : chState (wdogKick y) c = chState x c := back.states c
  have relock (c : Fin 16) (rest : chState s c = 4) : ((wdogKick y).phy c).relock = true := back.relock c ((xStates c).trans rest)
  have retrain (p : Fin 4) (quiet : portSt s p = PORT_QUIET) : portSt (wdogKick y) p = PORT_RETRAIN := back.retrain p ((xPorts p).trans quiet)
  have ans : (wdogKick y).con.ans = s.con.ans := congrArg ConState.ans (back.con.trans ended.con)
  have d8 : (wdogKick y).d8 = s.d8 := back.d8.trans ended.d8
  have dram : (wdogKick y).dram = s.dram := back.dram.trans ended.dram
  have streams : (wdogKick y).streams = s.streams := back.streams.trans ended.streams
  generalize wdogKick y = z at *
  generalize pinRefill z = t at refilled ⊢
  rw [dozeCheck_waits (refilled.waits kicked)]
  have field {b : Nat} {f : Fld} (spared : Spared (b + f.off)) : fget t b f = fget x b f := fget_of_rg ((refilled.regs _ spared).trans (regs _ spared))
  refine ⟨⟨(congrArg PwrState.mode refilled.pwr).trans mode, (congrArg PwrState.dozeExit refilled.pwr).trans exit, (field (by unfold Spared; decide)).trans ended.state,
    (field (by unfold Spared; decide)).trans ended.sub, (field (by unfold Spared; decide)).trans ended.shown, (field (by unfold Spared; decide)).trans ended.kept,
    fun c rest => ?_, fun p quiet => ?_, refilled.d8.trans d8, refilled.dram.trans dram, refilled.streams.trans streams⟩, refilled.ans.trans ans⟩
  · rw [phy_congr refilled.phys]
    exact relock c rest
  · exact (fget_of_rg (refilled.ports p _ (by decide))).trans (retrain p quiet)

end Sys2Proof.Proofs

/-! PROOF. What the work on requests leaves of the power state, of the console's answer and of the states of the ports (04 R120 to R137, 14 R403). -/

namespace Sys2Proof.Proofs
open Sys2Proof Sys2Proof.Machine Sys2Proof.Laws

/-! ### Views beside the work of the core -/

/-- A register that lies neither in the block PWR nor holds the state of a port. -/
abbrev CoreReg (a : Nat) : Prop := (a < PWR ∨ PWR + 0x1000 ≤ a) ∧ ∀ p : Fin 4, a ≠ HP p + HP_STATUS_STATE.off

/-- A view of the state that shows of what requests, commands and frames change at most the time and the console's answer. -/
structure BesideCore {β : Type} (g : State → β) : Prop extends BesideWork g where
  kept : ∀ a w s, CoreReg a → g (rgSet a w s) = g s
  sides : ∀ (s : State) ports streams rings arbs order toll que way wayOps wmem accts horizon probe,
    g { s with ports := ports, streams := streams, rings := rings, arbs := arbs, order := order, toll := toll, que := que, way := way, wayOps := wayOps, wmem := wmem, accts := accts, horizon := horizon, probe := probe } = g s

theorem coreReg_high {a : Nat} (above : 0x24000 ≤ a) (side : a < PWR ∨ PWR + 0x1000 ≤ a) : CoreReg a :=
  ⟨side, fun p => by have := p.isLt; simp only [HP, HP_STATUS_STATE]; omega⟩

theorem coreReg_HP (p : Fin 4) {i : Nat} (low : i < 0x1000) (other : i ≠ HP_STATUS_STATE.off) : CoreReg (HP p + i) :=
  ⟨.inl (by have := p.isLt; simp only [HP, PWR]; omega), fun q => by have := p.isLt; have := q.isLt; simp only [HP, HP_STATUS_STATE] at other ⊢; omega⟩

theorem ResetFld.core {b : Nat} {f : Fld} (fld : ResetFld b f) : CoreReg (b + f.off) := by
  cases fld with
  | plain range => exact ⟨by simp only [PWR]; omega, fun p => by have := p.isLt; simp only [HP, HP_STATUS_STATE]; omega⟩
  | chan c low _ => exact coreReg_high (by simp only [CH]; omega) (.inl (by simp only [CH, PWR]; omega))
  | rankPd c => exact coreReg_high (by simp only [CH]; omega) (.inl (by simp only [CH, PWR, CH_STATUS_RANK_PD]; omega))
  | irq flag => exact flag ▸ by decide
  | linkLock => decide

section
variable {β : Type} {g : State → β} (h : BesideCore g)
include h

theorem fset_core {b : Nat} {f : Fld} (reg : CoreReg (b + f.off)) (v : Nat) (s : State) : g (fset b f v s) = g s := h.kept _ _ s reg

theorem fbump_core {b : Nat} {f : Fld} (reg : CoreReg (b + f.off)) (s : State) : g (fbump b f s) = g s := h.kept _ _ s reg

theorem fbumpN_core {b : Nat} {f : Fld} (reg : CoreReg (b + f.off)) (n : Nat) (s : State) : g (fbumpN b f n s) = g s := h.kept _ _ s reg

theorem fset_HP_core (p : Fin 4) {f : Fld} (low : f.off < 0x1000) (other : f.off ≠ HP_STATUS_STATE.off) (v : Nat) (s : State) : g (fset (HP p) f v s) = g s :=
  fset_core h (coreReg_HP p low other) v s

theorem ports_core (s : State) (l : Vector PortState 4) : g { s with ports := l } = g s :=
  h.sides s l s.streams s.rings s.arbs s.order s.toll s.que s.way s.wayOps s.wmem s.accts s.horizon s.probe

theorem streams_core (s : State) (l : List (Nat × StreamRec)) : g { s with streams := l } = g s :=
  h.sides s s.ports l s.rings s.arbs s.order s.toll s.que s.way s.wayOps s.wmem s.accts s.horizon s.probe

theorem rings_core (s : State) (l : Vector Ring 16) : g { s with rings := l } = g s :=
  h.sides s s.ports s.streams l s.arbs s.order s.toll s.que s.way s.wayOps s.wmem s.accts s.horizon s.probe

theorem arbs_core (s : State) (l : Vector ArbState 17) : g { s with arbs := l } = g s :=
  h.sides s s.ports s.streams s.rings l s.order s.toll s.que s.way s.wayOps s.wmem s.accts s.horizon s.probe

theorem order_core (s : State) (n : Nat) : g { s with order := n } = g s :=
  h.sides s s.ports s.streams s.rings s.arbs n s.toll s.que s.way s.wayOps s.wmem s.accts s.horizon s.probe

theorem que_core (s : State) (q : QueueState) : g { s with que := q } = g s :=
  h.sides s s.ports s.streams s.rings s.arbs s.order s.toll q s.way s.wayOps s.wmem s.accts s.horizon s.probe

theorem way_core (s : State) (w : WayState) : g { s with way := w } = g s :=
  h.sides s s.ports s.streams s.rings s.arbs s.order s.toll s.que w s.wayOps s.wmem s.accts s.horizon s.probe

theorem probe_core (s : State) (x : Option ProbeRun) : g { s with probe := x } = g s :=
  h.sides s s.ports s.streams s.rings s.arbs s.order s.toll s.que s.way s.wayOps s.wmem s.accts s.horizon x

/-- What the work of a reset leaves, such a view shows as it was. -/
theorem aside_core (v : β) : ResetAside fun y => g y = v where
  field v s fld hs := (fset_core h fld.core v s).trans hs
  parts s _ _ way hs := ((bist_work h.toBesideWork _ _).trans ((led_work h.toBesideWork _ _).trans (way_core h s way))).trans hs
  chans s l _ hs := (chans_work h.toBesideWork s l).trans hs
  phys s l _ hs := (phys_work h.toBesideWork s l).trans hs
  moves s arbs wmem hs := (h.sides s s.ports s.streams s.rings arbs s.order s.toll s.que s.way s.wayOps wmem s.accts s.horizon s.probe).trans hs
  tables s ports streams caravans que walks toll hs :=
    (h.walks { s with ports := ports, streams := streams, que := que, toll := toll } walks caravans s.wreads).trans
      ((h.sides s ports streams s.rings s.arbs s.order toll que s.way s.wayOps s.wmem s.accts s.horizon s.probe).trans hs)

theorem events_core (v : β) (s : State) (c : ConState) (ans : c.ans = s.con.ans) (hs : g s = v) : g { s with con := c } = v := (h.events s c ans).trans hs

theorem updPort_core (p : Fin 4) (f : PortState → PortState) (s : State) : g (updPort p f s) = g s := ports_core h s _

theorem setStrm_core (p : Fin 4) (k : BitVec 12) (r : StreamRec) (s : State) : g (setStrm p k r s) = g s := streams_core h s _

theorem updRing_core (c : Fin 16) (f : Ring → Ring) (s : State) : g (updRing c f s) = g s := rings_core h s _

theorem updArb_core (a : Fin 17) (f : ArbState → ArbState) (s : State) : g (updArb a f s) = g s := arbs_core h s _

theorem charge_core (i n : Nat) (m : Option (BitVec 8)) (s : State) : g (charge i n m s) = g s := charge_work h.toBesideWork i n m s

theorem emit_core (k : String) (x : List (String × FVal)) (s : State) : g (emit k x s) = g s := emit_work h.toBesideWork k x s

theorem pushBg_core (c : Fin 16) (k : BgCls) (x : Cmd) (s : State) : g (pushBg c k x s) = g s := chans_work h.toBesideWork s _

/-! ### Answers -/

theorem sendFlit_core (p : Fin 4) (ft : BitVec 4) (r : Bool) (x : TxFlit) (s : State) : g (sendFlit p ft r x s) = g s := by
  unfold sendFlit
  split
  · rfl
  · exact (updPort_core h p _ _).trans (onlyIf_inv g _ _ _ fun y => fset_HP_core h p (by decide) (by decide) _ y)

theorem showRab_core (p : Fin 4) (s : State) : g (showRab p s) = g s := fset_HP_core h p (by decide) (by decide) _ s

theorem pump_core (p : Fin 4) (s : State) : g (pump p s) = g s := by
  unfold pump
  extract_lets ps room ts nT nC cs xs nX slots flits c1 c2 c3 ps' src sent taken answered charged
  have idle : g (sendIdle p (showRab p s)) = g s := (sendFlit_core h p _ _ _ _).trans (showRab_core h p s)
  have taken_eq : g taken = g s := (h.events (updPort p (fun _ => ps') s) { s.con with tunOut := s.con.tunOut.drop (15 * nC) } rfl).trans (updPort_core h p _ s)
  have charged_eq : g charged = g s := (charge_core h _ _ _ _).trans ((forAll_inv g _ _ _ fun _ y => charge_core h _ _ _ y).trans taken_eq)
  refine ite_keeps (P := (g · = g s)) (fun _ => showRab_core h p s) fun _ => ite_keeps (P := (g · = g s)) (fun _ => idle) fun _ =>
    ite_keeps (P := (g · = g s)) (fun _ => idle) fun _ => ?_
  exact (forAll_inv g _ _ _ fun _ y => sendFlit_core h p _ _ _ y).trans ((showRab_core h p _).trans ((fset_HP_core h p (by decide) (by decide) _ _).trans charged_eq))

theorem respond_core (p : Fin 4) (r : Resp) (s : State) : g (respond p r s) = g s := (pump_core h p _).trans (updPort_core h p _ s)

theorem releaseX_core (p : Fin 4) (r : Req) (s : State) : g (releaseX p r s) = g s := by
  unfold releaseX
  split
  · exact updPort_core h p _ s
  · rfl

theorem lastRef_core (p : Fin 4) (k : BitVec 12) (code sub : Nat) (s : State) : g (lastRef p k code sub s) = g s := h.kept _ _ s (by decide)

theorem countRef_core {code : Nat} (le : code ≤ 8) (s : State) : g (countRef code s) = g s :=
  fbump_core h (coreReg_high (by simp only [Fld.nth, TXN, TXN_REF_CNT_COUNT]; omega) (.inl (by simp only [Fld.nth, TXN, TXN_REF_CNT_COUNT, PWR]; omega))) s

theorem refuseResp_core {code : Nat} (le : code ≤ 8) (p : Fin 4) (r : Req) (info sub : Nat) (dup : Bool) (s : State) : g (refuseResp p r code info sub dup s) = g s := by
  have released : g (releaseX p r (lastRef p r.hdr.stream code sub (countRef code s))) = g s := (releaseX_core h p r _).trans ((lastRef_core h p _ code sub _).trans (countRef_core h le s))
  unfold refuseResp
  split
  · exact released
  · exact (respond_core h p _ _).trans released

theorem refuseNew_core {code : Nat} (le : code ≤ 8) (p : Fin 4) (r : Req) (info sub : Nat) (s : State) : g (refuseNew p r code info sub s) = g s :=
  (refuseResp_core h le p r info sub false _).trans (setStrm_core h p _ _ s)

theorem refuseBusy_core (p : Fin 4) (r : Req) (cause : Nat) (s : State) : g (refuseBusy p r cause s) = g s :=
  (refuseResp_core h (by decide) p r _ cause false _).trans (setStrm_core h p _ _ s)

theorem refuseAt_core {code : Nat} (le : code ≤ 8) (p : Fin 4) (r : Req) (info sub : Nat) (s : State) : g (refuseAt p r code info sub s) = g s := by
  unfold refuseAt
  split
  · exact refuseNew_core h le p r info sub s
  · exact refuseResp_core h le p r info sub false s

theorem countFinal_core (f : Final) (dup : Bool) (s : State) : g (countFinal f dup s) = g s := by
  unfold countFinal
  split
  · exact countRef_core h (by decide) s
  · refine ite_keeps (P := (g · = g s)) (fun _ => rfl) fun _ => ?_
    split <;> exact fbump_core h (by decide) s

theorem probeStampAt_core {k : Nat} (lt : k < 8) (t : Nat) (s : State) : g (probeStampAt k t s) = g s :=
  h.kept _ _ s (coreReg_high (by simp only [TXN, TXN_PROBE_STAMP_STAMP]; omega) (.inl (by simp only [TXN, TXN_PROBE_STAMP_STAMP, PWR]; omega)))

theorem probeService_core (p : Fin 4) (k : BitVec 12) (seq : BitVec 16) (t : Nat) (s : State) : g (probeService p k seq t s) = g s := by
  unfold probeService
  split
  · exact probeStampAt_core h (by decide) t s
  · rfl

theorem probeEnd_core (p : Fin 4) (k : BitVec 12) (seq : BitVec 16) (s : State) : g (probeEnd p k seq s) = g s := by
  unfold probeEnd
  split
  · exact (probe_core h _ _).trans ((fset_core h (by decide) _ _).trans ((probeStampAt_core h (by decide) _ _).trans (probeStampAt_core h (by decide) _ s)))
  · rfl

theorem probeAccept_core (p : Fin 4) (o : Opc) (k : BitVec 12) (seq : BitVec 16) (arr t : Nat) (s : State) : g (probeAccept p o k seq arr t s) = g s := by
  unfold probeAccept
  extract_lets x y z
  have stamped : g y = g s := (probeStampAt_core h (by decide) _ _).trans ((probeStampAt_core h (by decide) _ _).trans
    ((probeStampAt_core h (by decide) _ _).trans (probeStampAt_core h (by decide) _ s)))
  refine ite_keeps (P := (g · = g s)) (fun _ => ?_) fun _ => rfl
  exact (probe_core h _ _).trans ((fset_core h (by decide) _ _).trans ((h.kept _ _ _ (by decide)).trans stamped))

theorem syncService_core (p : Fin 4) (k : BitVec 12) (s : State) : g (syncService p k s) = g s := by
  unfold syncService
  extract_lets r
  split
  · rfl
  · extract_lets f recorded stored counted answered
    refine ite_keeps (P := (g · = g s)) (fun _ => ?_) fun _ => rfl
    have counted_eq : g counted = g s := (countFinal_core h _ _ _).trans ((probeService_core h _ _ _ _ _).trans (setStrm_core h p _ _ s))
    have answered_eq : g answered = g s := by
      unfold answered
      split
      · exact (respond_core h _ _ _).trans counted_eq
      · exact counted_eq
    exact (probeEnd_core h _ _ _ _).trans answered_eq

/-! ### The stack of free blocks -/

theorem queStat_core (s : State) : g (queStat s) = g s := queStat_aside (aside_core h (g s)) rfl

theorem setQfr_core (f : Nat) (x : QFrame) (s : State) : g (setQfr f x s) = g s := setQfr_aside (aside_core h (g s)) rfl f x

theorem freeQFrame_core (f : Nat) (s : State) : g (freeQFrame f s) = g s := freeQFrame_aside (aside_core h (g s)) rfl f

theorem qWbDone_core (b c : Nat) (s : State) : g (qWbDone b c s) = g s := qWbDone_aside (aside_core h (g s)) rfl b c

theorem setBrec_core (b : Nat) (r : BlockRec) (s : State) : g (setBrec b r s) = g s := que_core h s _

theorem shiftStack_core (e n : Nat) (s : State) : g (shiftStack e n s) = g s := chans_work h.toBesideWork s _

theorem stackLost_core (e n : Nat) (s : State) : g (stackLost e n s) = g s := by
  unfold stackLost
  extract_lets l _ x
  have counted : g x = g s := (fbumpN_core h (by decide) _ _).trans (que_core h s _)
  exact (queStat_core h _).trans ((shiftStack_core h _ _ _).trans ((que_core h x _).trans counted))

theorem pushStack_core (wr : Bool) (lo hi k : Nat) (s : State) : g (pushStack wr lo hi k s) = g s := by
  unfold pushStack
  extract_lets a b
  split
  · rfl
  · split
    · split
      · exact pushBg_core h _ _ _ s
      · exact stackLost_core h _ _ s
    · rfl

theorem stackLevel_core (s : State) : g (stackLevel s) = g s := by
  unfold stackLevel
  extract_lets deep top
  split
  · split
    · rfl
    · exact forAll_inv g _ _ s fun _ => pushStack_core h _ _ _ _
  · split
    · exact (forAll_inv g _ _ _ fun _ => pushStack_core h _ _ _ _).trans (que_core h s _)
    · rfl

theorem pushBlock_core (b : Nat) (s : State) : g (pushBlock b s) = g s :=
  (queStat_core h _).trans ((stackLevel_core h _).trans ((setBrec_core h _ _ _).trans (que_core h s _)))

theorem tryFree_core (b : Nat) (s : State) : g (tryFree b s) = g s := by
  unfold tryFree
  extract_lets r
  split
  · exact pushBlock_core h b s
  · rfl

theorem releaseRet_core (r : Option (Nat × Nat × Nat)) (s : State) : g (releaseRet r s) = g s := by
  unfold releaseRet
  split
  · rfl
  · exact (stackLevel_core h _).trans (forAll_inv g _ _ s fun b y => (tryFree_core h b _).trans (setBrec_core h b _ y))

/-! ### Reissues -/

theorem voidRuns_core (p : Fin 4) (k : BitVec 12) (seq : BitVec 16) (id : Nat) (s : State) : g (voidRuns p k seq id s) = g s := by
  have both (l : List Caravan) (q : QueueState) : g { s with caravans := l, que := q } = g s := (que_core h { s with caravans := l } q).trans (caravans_work h.toBesideWork s l)
  exact both _ _

theorem respondDup_core (p : Fin 4) (r : Req) (x : Resp) (s : State) : g (respondDup p r x s) = g s := by
  unfold respondDup
  split
  · exact releaseX_core h p r s
  · exact (respond_core h p _ _).trans (releaseX_core h p r s)

theorem sendDup_core (p : Fin 4) (r : Req) (f : Final) (data : List Slot) (s : State) : g (sendDup p r f data s) = g s :=
  (respondDup_core h p r _ _).trans (onlyIf_inv g _ _ s fun y => voidRuns_core h p _ _ _ y)

theorem dupCell_core (id k : Nat) (l : Line) (psn : Bool) (s : State) : g (dupCell id k l psn s) = g s := que_core h s _

theorem dupAnswer_core (id : Nat) (s : State) : g (dupAnswer id s) = g s := by
  unfold dupAnswer
  split
  · rfl
  · split
    · rfl
    · extract_lets _ x got
      have voided : g x = g s := (voidRuns_core h _ _ _ _ _).trans (que_core h s _)
      split
      · exact (respond_core h _ _ _).trans voided
      · exact voided

theorem dupRead_core (id q k : Nat) (x : Nat × Nat) (s : State) : g (dupRead id q k x s) = g s := by
  unfold dupRead
  split
  · exact dupCell_core h id k _ _ s
  · split
    · exact (dupCell_core h id k _ _ _).trans (charge_core h _ _ _ s)
    · split
      · exact pushBg_core h _ _ _ s
      · exact dupCell_core h id k _ _ s

theorem dupDeq_core (p : Fin 4) (q : Nat) (ret : Nat × Nat × Nat) (tag strm : BitVec 12) (seq : BitVec 16) (f : Final) (s : State) : g (dupDeq p q ret tag strm seq f s) = g s := by
  unfold dupDeq
  extract_lets id l dups x
  have both (n : Nat) (qs : QueueState) : g { s with order := n, que := qs } = g s := (que_core h { s with order := n } qs).trans (order_core h s n)
  have noted : g x = g s := both _ _
  refine (dupAnswer_core h id _).trans ((forAll_inv g _ _ x fun c y => ?_).trans noted)
  split
  · exact dupRead_core h id q _ _ y
  · exact dupCell_core h id _ _ _ y

theorem dupRd_core (p : Fin 4) (r : Req) (f : Final) (s : State) : g (dupRd p r f s) = g s := by
  unfold dupRd
  split
  · exact (sendDup_core h p r _ _ _).trans (charge_core h _ _ _ s)
  · exact sendDup_core h p r _ _ s

theorem dupWalk_core (p : Fin 4) (d o : Nat) (keys : List Slot) (man : BitVec 8) (x : DupWalk) (s : State) : g (dupWalk p d o keys man x s) = g s := by
  unfold dupWalk
  extract_lets c
  exact (startContext_work h.toBesideWork d _).trans ((fbumpN_core h (by decide) _ _).trans ((caravans_work h.toBesideWork { s with order := s.order + 1 } _).trans (order_core h s _)))

theorem dupWlk_core (p : Fin 4) (r : Req) (f : Final) (s : State) : g (dupWlk p r f s) = g s := by
  unfold dupWlk
  extract_lets hd d
  refine ite_keeps (P := (g · = g s)) (fun _ => releaseX_core h p r s) fun _ => ite_keeps (P := (g · = g s)) (fun _ => sendDup_core h p r _ _ s) fun _ => ?_
  exact (dupWalk_core h p _ _ _ _ _ _).trans (releaseX_core h p r s)

theorem dupDone_core (p : Fin 4) (r : Req) (w : WinSlot) (f : Final) (s : State) : g (dupDone p r w f s) = g s := by
  unfold dupDone
  extract_lets x
  have counted : g x = g s := fbump_core h (by decide) s
  split
  · exact (sendDup_core h p r _ _ _).trans ((onlyIf_inv g _ _ x fun y => (lastRef_core h p _ _ _ _).trans (countRef_core h (by decide) y)).trans counted)
  · split
    · exact (dupRd_core h p r f x).trans counted
    · exact (dupWlk_core h p r f x).trans counted
    · split
      · split
        · exact (releaseX_core h p r x).trans counted
        · exact (dupDeq_core h p _ _ _ _ _ f _).trans ((releaseX_core h p r x).trans counted)
      · exact (sendDup_core h p r f _ x).trans counted
    · exact (sendDup_core h p r f _ x).trans counted

theorem dupAccept_core (p : Fin 4) (r : Req) (w : WinSlot) (s : State) : g (dupAccept p r w s) = g s :=
  (respondDup_core h p r _ _).trans ((fbump_core h (by decide) _).trans ((rings_core h _ _).trans (setStrm_core h p _ _ s)))

/-! ### Classification -/

theorem freezeStream_core (p : Fin 4) (r : Req) (kind : String) (s : State) : g (freezeStream p r kind s) = g s := (emit_core h _ _ _).trans (setStrm_core h p _ _ s)

theorem recordError_core (p : Fin 4) (k : BitVec 12) (s : State) : g (recordError p k s) = g s :=
  (emit_core h _ _ _).trans ((fset_core h (by decide) _ _).trans ((fbump_core h (by decide) _).trans (setStrm_core h p _ _ s)))

theorem setFrame_core (pin : Bool) (f : Nat) (x : Frame) (s : State) : g (setFrame pin f x s) = g s := by
  cases pin <;> exact way_core h s _

theorem probeStat_core (l : Nat) (s : State) : g (probeStat l s) = g s := by
  unfold probeStat
  split
  · exact (setFrame_core h _ _ _ _).trans (fbump_core h (by decide) s)
  · exact fbump_core h (by decide) s

theorem enterContest_core (p : Fin 4) (r : Req) (home : Fin 16) (t d : Nat) (late resv : Bool) (s : State) : g (enterContest p r home t d late resv s) = g s := by
  unfold enterContest
  extract_lets m hit probed a x c ordered
  have probed_eq : g probed = g s := onlyIf_inv g _ _ s fun y => probeStat_core h _ y
  refine ite_keeps (P := (g · = g s)) (fun _ => (refuseResp_core h (by decide) p r _ _ _ _).trans ((setStrm_core h p _ _ _).trans probed_eq)) fun _ => ?_
  exact (updArb_core h a _ _).trans ((order_core h probed _).trans probed_eq)

theorem acceptSync_core (p : Fin 4) (r : Req) (d : Nat) (late : Bool) (t : Nat) (s : State) : g (acceptSync p r d late t s) = g s := by
  unfold acceptSync
  extract_lets hd x tag arr lostSlot info recorded stored counted answered
  have counted_eq : g counted = g s := (fbump_core h (by decide) _).trans ((releaseX_core h p r _).trans ((releaseRet_core h _ _).trans (setStrm_core h p _ _ s)))
  have answered_eq : g answered = g s := by
    unfold answered
    clear_value answered counted stored recorded tag
    split
    · exact (updPort_core h p _ _).trans counted_eq
    · exact counted_eq
  exact (pump_core h p _).trans ((syncService_core h p _ _).trans ((probeAccept_core h p _ _ _ _ _ _).trans answered_eq))

theorem reportShort_core (s : State) : g (reportShort s) = g s := by
  unfold reportShort
  split
  · rfl
  · exact (emit_core h _ _ _).trans (que_core h s _)

theorem intakeNew_core (p : Fin 4) (r : Req) (s : State) : g (intakeNew p r s) = g s := by
  unfold intakeNew
  extract_lets t x
  split
  · exact refuseNew_core h (by decide) p r _ _ s
  · refine ite_keeps (P := (g · = g s)) (fun _ => (refuseResp_core h (by decide) p r _ _ _ _).trans (setStrm_core h p _ _ s)) fun _ => ?_
    split
    refine ite_keeps (P := (g · = g s)) (fun _ => acceptSync_core h p r _ _ _ s) fun _ => ?_
    split
    · exact (refuseNew_core h (by decide) p r _ _ _).trans (onlyIf_inv g _ _ s fun y => reportShort_core h y)
    · split
      · exact refuseNew_core h (by decide) p r _ _ s
      · split
        · exact refuseNew_core h (by decide) p r _ _ s
        · exact ite_keeps (P := (g · = g s)) (fun _ => refuseBusy_core h p r 1 s) fun _ => enterContest_core h p r _ _ _ _ _ s

theorem classify_core (p : Fin 4) (r : Req) (ue : Bool) (s : State) : g (classify p r ue s) = g s := by
  unfold classify
  extract_lets hd seen x charged busy free dlt
  have seen_eq : g seen = g s := ite_keeps (P := (g · = g s)) (fun _ => recordError_core h p _ s) fun _ => rfl
  have busy_eq : g busy = g s := (setStrm_core h p _ _ _).trans ((charge_core h _ _ _ _).trans seen_eq)
  have freed (y : State) : g (free y) = g y := setStrm_core h p _ _ y
  have froze (k : String) : g (free (refuseResp p r 6 (conflictInfo 1 x.n) 1 false (freezeStream p r k busy))) = g s :=
    (freed _).trans ((refuseResp_core h (by decide) p r _ _ _ _).trans ((freezeStream_core h p r k busy).trans busy_eq))
  refine ite_keeps (P := (g · = g s)) (fun _ => ite_keeps (P := (g · = g s)) (fun _ => ?_) fun _ => ?_) fun _ => ite_keeps (P := (g · = g s)) (fun _ => ?_) fun _ =>
    ite_keeps (P := (g · = g s)) (fun _ => ?_) fun _ => ite_keeps (P := (g · = g s)) (fun _ => froze _) fun _ => ?_
  · exact (freed _).trans ((refuseAt_core h (by decide) p r _ _ busy).trans busy_eq)
  · exact (freed _).trans ((refuseAt_core h (by decide) p r _ _ busy).trans busy_eq)
  · exact (intakeNew_core h p r busy).trans busy_eq
  · exact (freed _).trans ((refuseResp_core h (by decide) p r _ _ _ busy).trans busy_eq)
  · split
    · exact froze _
    · refine ite_keeps (P := (g · = g s)) (fun _ => ?_) fun _ => ?_
      · exact (freed _).trans ((refuseResp_core h (by decide) p r _ _ _ _).trans ((freezeStream_core h p r _ busy).trans busy_eq))
      · split
        · exact (freed _).trans ((dupDone_core h p r _ _ busy).trans busy_eq)
        · exact (freed _).trans ((dupAccept_core h p r _ busy).trans busy_eq)

theorem drainFuel_core (n : Nat) (s : State) : g (drainFuel n s) = g s := by
  induction n generalizing s with
  | zero => rfl
  | succ n ih =>
    unfold drainFuel
    split
    · rfl
    · split
      · rfl
      · exact (ih _).trans ((classify_core h _ _ _ _).trans (setStrm_core h _ _ _ s))

theorem settle_core (s : State) : g (settle s) = g s := by
  unfold settle
  exact ite_keeps (P := (g · = g s)) (fun _ => reapCaravans_work h.toBesideWork s) fun _ => (drainFuel_core h _ _).trans (reapCaravans_work h.toBesideWork s)

theorem pinRefill_core (s : State) : g (pinRefill s) = g s := pinRefill_aside (aside_core h (g s)).toMoveAside rfl fun y c ans hy => events_core h (g s) y c ans hy

end

end Sys2Proof.Proofs

/-! PROOF. Every source that ends DOZE or BANKED, or takes back an entry to them (14 R403, R405 to R410). -/

namespace Sys2Proof.Proofs
open Sys2Proof Sys2Proof.Machine Sys2Proof.Laws

/-! ### An entry is taken back (14 R403) -/

/-- What an entry to sleep and its end show beside the time: the power state, the console's answer, and the states of the part and of its ports. -/
def sleepView (s : State) : PwrState × List OutLn × Word × (Fin 4 → Word) := (s.pwr, s.con.ans, rg s (PWR + PWR_STATE_SUB.off), fun p => rg s (HP p + HP_STATUS_STATE.off))

theorem sleepView_same {s t : State} (pwr : t.pwr = s.pwr) (ans : t.con.ans = s.con.ans) (state : rg t (PWR + PWR_STATE_SUB.off) = rg s (PWR + PWR_STATE_SUB.off))
    (ports : ∀ p : Fin 4, rg t (HP p + HP_STATUS_STATE.off) = rg s (HP p + HP_STATUS_STATE.off)) : sleepView t = sleepView s := by
  unfold sleepView
  rw [pwr, ans, state, funext ports]

theorem offMap_core {a : Nat} (off : OffMap a) : CoreReg a := by
  have spared : a < 0x20000 ∨ 0x30000 ≤ a ∧ a < 0x320000 ∨ 0x330000 ≤ a := by
    have blocks : GLB = 0 ∧ HP 0 = 0x20000 ∧ TXN = 0x30000 ∧ QUE = 0x70000 ∧ PWR = 0x320000 ∧ AON = 0x330000 := by decide
    unfold OffMap at off
    omega
  refine ⟨?_, fun p here => ?_⟩
  · change a < 0x320000 ∨ 0x321000 ≤ a
    omega
  · have port := p.isLt
    have own : HP p = 0x20000 + p.val * 0x1000 := rfl
    have field : HP_STATUS_STATE.off = 8 := rfl
    omega

theorem besideCore_sleepView : BesideCore sleepView := by
  have kept (a : Nat) (w : Word) (s : State) (reg : CoreReg a) : sleepView (rgSet a w s) = sleepView s := by
    refine sleepView_same rfl rfl (rg_rgSet_ne _ _ _ s ?_) fun p => rg_rgSet_ne _ _ _ s (reg.2 p).symm
    have side := reg.1
    simp only [PWR, PWR_STATE_SUB] at side ⊢
    omega
  exact {
    reg := fun a w s off => kept a w s (offMap_core off)
    parts := fun _ _ _ _ _ _ => rfl
    walks := fun _ _ _ _ => rfl
    events := fun _ _ ans => sleepView_same rfl ans rfl fun _ => rfl
    kept := kept
    sides := fun _ _ _ _ _ _ _ _ _ _ _ _ _ _ => rfl }

theorem besideCore_d8 : BesideCore (·.d8) where
  reg _ _ _ _ := rfl
  parts _ _ _ _ _ _ := rfl
  walks _ _ _ _ := rfl
  events _ _ _ := rfl
  kept _ _ _ _ := rfl
  sides _ _ _ _ _ _ _ _ _ _ _ _ _ _ := rfl

/-- The entry has ended, and the part is in RUN. -/
def entryEnded (s : State) : State := fset PWR PWR_STATE_SUB 0 { s with pwr := { s.pwr with entry := none } }

theorem entryEnded_view (s : State) : (sleepView (entryEnded s)).1 = { s.pwr with entry := none } ∧ PWR_STATE_SUB.get (sleepView (entryEnded s)).2.2.1 = 0 ∧ (sleepView (entryEnded s)).2.1 = s.con.ans :=
  ⟨rfl, fget_fset PWR PWR_STATE_SUB _ _ (by decide), rfl⟩

theorem sleepAbort_view (w : String) (s : State) : sleepView (sleepAbort w s) = sleepView (entryEnded s) := emit_core besideCore_sleepView _ _ (entryEnded s)

theorem sleepAbort_d8 (w : String) (s : State) : (sleepAbort w s).d8 = s.d8 := emit_core besideCore_d8 _ _ (entryEnded s)

/-- An entry that is taken back in its work has ended. -/
theorem workAbort_ends (w : String) (s : State) : (settle (workAbort w s)).pwr.entry = none ∧ fget (settle (workAbort w s)) PWR PWR_STATE_SUB = 0 ∧
    (settle (workAbort w s)).con.ans = s.con.ans ∧ (settle (workAbort w s)).d8 = s.d8 := by
  unfold workAbort
  have refilled := pinRefill_core besideCore_sleepView s
  have time := pinRefill_core besideCore_d8 s
  generalize pinRefill s = y at refilled time ⊢
  have view : sleepView (settle (sleepAbort w y)) = sleepView (entryEnded y) := (settle_core besideCore_sleepView _).trans (sleepAbort_view w y)
  have still : (settle (sleepAbort w y)).d8 = s.d8 := (settle_core besideCore_d8 _).trans ((sleepAbort_d8 w y).trans time)
  generalize settle (sleepAbort w y) = t at view still ⊢
  obtain ⟨pwr, sub, ans⟩ := entryEnded_view y
  rw [← view] at pwr sub ans
  exact ⟨congrArg PwrState.entry pwr, sub, ans.trans (congrArg (fun v : PwrState × List OutLn × Word × (Fin 4 → Word) => v.2.1) refilled), still⟩

/-! ### WAKE_N -/

/-- A pulse of `n` ns that the pin sees: in the wake window the pin stays low as long as it lasts, and outside it is a wake. -/
def pinSeen (n : Nat) (s : State) : State :=
  match s.pwr.edgeAt8 with
  | some (e, e3) => if e ≤ s.d8 then { (takeFree s).2 with pwr := { s.pwr with wakeN := !decide (e3 ≤ s.d8 + 8 * n) } } else wakeBy 2 (takeFree s).2
  | none => wakeBy 2 (takeFree s).2

/-- A pulse that is long enough, from an enabled pin, is seen. -/
theorem wakeN_seen {n : Nat} {s : State} (long : 2000 ≤ n) (on : fbit s PWR PWR_WAKESRC_WAKEN = true) : wakeN n s = pinSeen n s := by
  unfold wakeN
  rw [if_neg (by simp [on]; omega)]
  rcases e : takeFree s with ⟨f, x⟩
  obtain ⟨-, rfl⟩ := Prod.mk.inj e
  dsimp only
  rw [if_neg (by omega)]
  rfl

theorem wakeN_open {n : Nat} {s : State} (long : 2000 ≤ n) (on : fbit s PWR PWR_WAKESRC_WAKEN = true) (shut : s.pwr.edgeAt8 = none) : wakeN n s = wakeBy 2 (takeFree s).2 := by
  rw [wakeN_seen long on]
  unfold pinSeen
  rw [shut]

/-! ### The wake port -/

theorem bankedLeft_acks {s t : State} {k : Nat} (h : bankedLeft s t k) (acks : List Bool) (sent : List Byte) (byte : Nat) :
    bankedLeft s { t with pwr := { t.pwr with wkAcks := acks, wkSent := sent, wkByte := byte } } k := by
  obtain ⟨mode, wake, cause, power, ret, waits, sub, last, edges, store⟩ := h
  exact ⟨mode, wake, cause, power, ret, waits, sub, last, edges, store⟩

/-- The port answers an access to its own address, after the wake that it is. -/
theorem wakePortMatch_own {rd : Bool} {n : Nat} {a : BitVec 7} {s x : State} (wakes : wakeBy 3 s = x) (on : s.pwr.vinOn = true) (served : wkOwner s ≠ .nobody) (own : a.toNat = fget s AON AON_WAKE_ADDR)
    (port : fbit s PWR PWR_WAKESRC_PORT = true) : ∃ sent byte, wakePortMatch a rd n s = { x with pwr := { x.pwr with
      wkAcks := true :: (if rd then [] else List.replicate n false), wkSent := sent, wkByte := byte } } ∧ (rd = true → sent.length = n ∧ byte = n % 3) := by
  unfold wakePortMatch
  extract_lets ack woken heard told
  rw [if_neg (by simp [on]), if_neg (not_or.mpr ⟨served, not_not.mpr own⟩)]
  have heeds : woken = x := (if_pos port).trans wakes
  clear_value woken
  subst heeds
  cases rd with
  | false => exact ⟨woken.pwr.wkSent, woken.pwr.wkByte, (if_pos rfl).trans (by rfl), fun e => by cases e⟩
  | true => exact ⟨_, _, (if_neg (by decide)).trans (by rfl), fun _ => ⟨by simp, rfl⟩⟩

/-! ### The console -/

theorem dozeLeft_answer {s t : State} {k : Nat} (h : dozeLeft s t k) (l : List OutLn) : dozeLeft s (answer l t) k := by
  obtain ⟨mode, exit, state, sub, shown, last, relock, retrain, d8, dram, streams⟩ := h
  have field {b : Nat} {f : Fld} (free : Uncounted (b + f.off)) : fget (answer l t) b f = fget t b f := fget_answer free
  refine ⟨(congrArg PwrState.mode (answer_pwr l t)).trans mode, (congrArg PwrState.dozeExit (answer_pwr l t)).trans exit, (field (by decide)).trans state, (field (by decide)).trans sub,
    (field (by decide)).trans shown, (field (by decide)).trans last, fun c rest => ?_, fun p quiet => ?_, (answer_d8 l t).trans d8, (answer_dram l t).trans dram, ?_⟩
  · rw [phy_congr (answer_inv (·.phys) l t (fun _ _ => rfl) fun _ _ => rfl)]
    exact relock c rest
  · exact (field (by fin_cases p <;> decide)).trans (retrain p quiet)
  · exact (answer_inv (·.streams) l t (fun _ _ => rfl) fun _ _ => rfl).trans streams

/-- Settles O13: each source leads to the wake of BANKED or of DOZE, or to the end of an entry in its work. -/
theorem wakeSourcesWake : Obligations.WakeSourcesWake := by
  unfold Obligations.WakeSourcesWake
  refine ⟨?pinBanked, ?pinDoze, ?short, ?window, ?work, ?port, ?deaf, ?link, ?timer, ?console, ?refused⟩
  case pinBanked =>
    intro n s long on mode entry shut wake
    exact ⟨_, congrArg Host.Outcome.next ((wakeN_open long on shut).trans (wakeBy_banked mode entry wake rfl)), bankedWake_left (by decide) (takeFree s).2⟩
  case pinDoze =>
    intro n s long on mode entry shut waits
    exact ⟨_, congrArg Host.Outcome.next ((wakeN_open long on shut).trans (wakeBy_doze mode rfl)), (dozeWake_left (s := (takeFree s).2) (by decide) waits).1⟩
  case short =>
    intro n s short
    exact congrArg Host.Outcome.next (if_pos (.inr short))
  case window =>
    intro n e e3 s long on edge past
    refine ⟨{ (takeFree s).2 with pwr := { s.pwr with wakeN := !decide (e3 ≤ s.d8 + 8 * n) } }, congrArg Host.Outcome.next ?_, ?_, rfl, rfl, rfl, rfl, rfl, rfl, rfl⟩
    · rw [wakeN_seen long on]
      unfold pinSeen
      rw [edge]
      exact if_pos past
    · have level : (!decide (e3 ≤ s.d8 + 8 * n)) = decide (s.d8 + 8 * n < e3) := by
        rw [← decide_not]
        exact decide_eq_decide.mpr Nat.not_le
      rw [level]
  case work =>
    intro n b t0 s long on shut mode entry
    have ends : wakeFor b 2 = true := by cases b <;> rfl
    exact ⟨_, congrArg Host.Outcome.next ((wakeN_open long on shut).trans (wakeBy_work mode entry ends)), workAbort_ends _ (takeFree s).2⟩
  case port =>
    intro rd n a s on served own port mode entry wake
    obtain ⟨sent, byte, e, read⟩ := wakePortMatch_own (rd := rd) (n := n) (wakeBy_banked mode entry wake rfl) on served own port
    exact ⟨_, congrArg Host.Outcome.next e, bankedLeft_acks (bankedWake_left (by decide) s) _ sent byte, rfl, read⟩
  case deaf =>
    intro rd n a s on other
    refine congrArg Host.Outcome.next ?_
    unfold wakePortMatch
    extract_lets ack
    rw [if_neg (by simp [on]), if_pos other.symm]
  case link =>
    intro p s quiet bit mode entry waits
    exact ⟨_, congrArg Host.Outcome.next ((if_pos ⟨quiet, bit⟩).trans (wakeBy_doze mode rfl)), (dozeWake_left (by decide) waits).1⟩
  case timer =>
    intro s mode entry wake on
    refine ⟨_, congrArg Host.Outcome.next ((if_pos ⟨mode, by rw [entry]; rfl, by rw [wake]; rfl, on⟩).trans (wakeBy_banked ?_ ?_ ?_ rfl)), bankedWake_left (by decide) _⟩
    · exact mode
    · exact entry
    · exact wake
  case console =>
    intro s ready mode waits
    have e : exec .sleepWake s = .next (answer [okLn []] (dozeWake 1 s)) := congrArg Host.Outcome.next (verb_answers ready (if_pos mode))
    exact ⟨_, e, dozeLeft_answer (dozeWake_left (by decide) waits).1 _, answer_ans _ _⟩
  case refused =>
    intro s ready mode
    have e : exec .sleepWake s = .next (answer [er491 s] s) := congrArg Host.Outcome.next (verb_answers ready (if_neg mode))
    exact ⟨_, e, answer_ans _ _, answer_pwr _ _, sameStore_answer _ _⟩

end Sys2Proof.Proofs

/-! PROOF. What the end of every command of a channel leaves of the power state, of the console's answer and of the states of the ports (14 R400, R401). -/

namespace Sys2Proof.Proofs
open Sys2Proof Sys2Proof.Machine Sys2Proof.Laws

section
variable {β : Type} {g : State → β} (h : BesideCore g)
include h

/-! ### The journal -/

theorem wreads_core (s : State) (l : List WalkRead) : g { s with wreads := l } = g s := wreads_work h.toBesideWork s l

theorem chans_core (s : State) (l : Vector ChanState 16) : g { s with chans := l } = g s := chans_work h.toBesideWork s l

theorem wayOps_core (s : State) (l : List WayOp) : g { s with wayOps := l } = g s :=
  h.sides s s.ports s.streams s.rings s.arbs s.order s.toll s.que s.way l s.wmem s.accts s.horizon s.probe

theorem updChan_core (c : Fin 16) (f : ChanState → ChanState) (s : State) : g (updChan c f s) = g s := chans_core h s _

theorem fset_CH_core (c : Fin 16) {f : Fld} (low : f.off < 0x1000) (v : Nat) (s : State) : g (fset (CH c) f v s) = g s := fset_CH_work h.toBesideWork c low v s

theorem fmax_core {b : Nat} {f : Fld} (reg : CoreReg (b + f.off)) (v : Nat) (s : State) : g (fmax b f v s) = g s := fmax_inv (fset_core h reg) v s

theorem updEntry_core (c : Fin 16) (slot : Nat) (f : JEntry → JEntry) (s : State) : g (updEntry c slot f s) = g s := updRing_core h c _ s

theorem setEntrySt_core (c : Fin 16) (slot : Nat) (st : JState) (s : State) : g (setEntrySt c slot st s) = g s := by
  unfold setEntrySt
  split
  · rfl
  · exact (charge_core h _ _ _ _).trans (updEntry_core h c slot _ s)

theorem releaseSlots_core (c : Fin 16) (slot : Nat) (partner : Bool) (s : State) : g (releaseSlots c slot partner s) = g s := arbs_core h s _

theorem servePoint_core (c : Fin 16) (slot : Nat) (s : State) : g (servePoint c slot s) = g s := by
  unfold servePoint
  split
  · rfl
  · exact (probeService_core h _ _ _ _ _).trans (updEntry_core h c slot _ s)

theorem retireFuel_core (n : Nat) (c : Fin 16) (s : State) : g (retireFuel n c s) = g s := by
  induction n generalizing s with
  | zero => rfl
  | succ n ih =>
    unfold retireFuel
    split
    · rfl
    · exact ite_keeps (P := (g · = g s)) (fun _ => (ih _).trans ((charge_core h _ _ _ _).trans (updRing_core h c _ s))) fun _ => rfl

theorem retire_core (c : Fin 16) (s : State) : g (retire c s) = g s := by
  have journal (f : Fld) : CoreReg (JRN + f.off) := coreReg_high (by simp only [JRN]; omega) (.inr (by simp only [JRN, PWR]; omega))
  unfold retire ringStat
  extract_lets w
  exact (fmax_core h (journal _) w _).trans ((fset_core h (journal _) w _).trans (retireFuel_core h _ c s))

theorem outcome_core (c : Fin 16) (slot : Nat) (f : Final) (data : List Slot) (quiet : Bool) (s : State) : g (outcome c slot f data quiet s) = g s := by
  unfold outcome
  split
  · rfl
  case h_2 e found =>
    split
    · rfl
    extract_lets r recorded stored served
    have recorded_eq : g recorded = g s := updEntry_core h c slot _ s
    have stored_eq : g stored = g s := (setStrm_core h _ _ _ recorded).trans recorded_eq
    have served_eq : g served = g s := by
      unfold served
      split
      · exact (probeService_core h _ _ _ _ _).trans stored_eq
      · exact stored_eq
    split
    · exact recorded_eq
    case h_2 w _ =>
      split
      · exact recorded_eq
      extract_lets silent counted faulted answered
      have counted_eq : g counted = g s := ite_keeps (P := (g · = g s)) (fun _ => served_eq) fun _ => (countFinal_core h _ _ _).trans served_eq
      have faulted_eq : g faulted = g s := by
        unfold faulted
        split
        · exact ite_keeps (P := (g · = g s)) (fun _ => counted_eq) fun _ => (lastRef_core h _ _ _ _ _).trans counted_eq
        · exact counted_eq
      have answered_eq : g answered = g s := by
        unfold answered
        split
        · exact (respond_core h _ _ _).trans faulted_eq
        · exact faulted_eq
      exact (syncService_core h _ _ _).trans ((probeEnd_core h _ _ _ _).trans answered_eq)

theorem faultEntry_core (c : Fin 16) (slot reason ch : Nat) (quiet : Bool) (s : State) : g (faultEntry c slot reason ch quiet s) = g s :=
  (outcome_core h c slot _ _ quiet _).trans (updEntry_core h c slot _ s)

theorem finishWrite_core (ring : Fin 16) (slot : Nat) (s : State) : g (finishWrite ring slot s) = g s := by
  unfold finishWrite
  split
  · rfl
  · split
    · exact retire_core h ring s
    · exact (retire_core h ring _).trans (outcome_core h ring slot _ _ _ s)

theorem homeDurable_core (ring : Fin 16) (slot : Nat) (s : State) : g (homeDurable ring slot s) = g s := by
  unfold homeDurable
  split
  · rfl
  · extract_lets x
    have durable : g x = g s := updEntry_core h ring slot _ s
    exact ite_keeps (P := (g · = g s)) (fun _ => durable) fun _ => (finishWrite_core h ring slot x).trans durable

theorem twinDurable_core (ring : Fin 16) (slot : Nat) (s : State) : g (twinDurable ring slot s) = g s := by
  unfold twinDurable
  split
  · rfl
  · extract_lets x
    have durable : g x = g s := updEntry_core h ring slot _ s
    exact ite_keeps (P := (g · = g s)) (fun _ => (finishWrite_core h ring slot x).trans durable) fun _ => durable

theorem readValid_core (ring : Fin 16) (slot : Nat) (l : Line) (psn : Bool) (s : State) : g (readValid ring slot l psn s) = g s := by
  unfold readValid
  extract_lets x
  have served : g x = g s := servePoint_core h ring slot s
  split
  · exact served
  · exact (retire_core h ring _).trans ((outcome_core h ring slot _ _ _ _).trans ((updEntry_core h ring slot _ _).trans served))

theorem killCmds_core (c : Fin 16) (slot : Nat) (s : State) : g (killCmds c slot s) = g s := by
  unfold killCmds
  extract_lets mine hit
  exact (forAll_inv g _ _ _ fun a y => fillStat_work h.toBesideWork a y).trans (chans_core h s _)

theorem loseEntry_core (c : Fin 16) (slot reason : Nat) (quiet : Bool) (s : State) : g (loseEntry c slot reason quiet s) = g s := by
  unfold loseEntry
  extract_lets x
  have counted : g x = g s := onlyIf_inv g _ _ s fun y => updChan_core h c _ y
  exact (fbump_core h (by decide) _).trans ((killCmds_core h c slot _).trans ((releaseSlots_core h _ _ _ _).trans ((releaseSlots_core h _ _ _ _).trans
    ((faultEntry_core h _ _ _ _ _ _).trans ((setEntrySt_core h _ _ _ _).trans counted)))))

theorem mergePoison_core (ring : Fin 16) (slot : Nat) (c : Fin 16) (s : State) : g (mergePoison ring slot c s) = g s :=
  (retire_core h ring _).trans ((killCmds_core h ring slot _).trans ((releaseSlots_core h ring slot false _).trans (faultEntry_core h ring slot _ _ _ s)))

theorem toRslt_core (ring : Fin 16) (slot : Nat) (l : Line) (s : State) : g (toRslt ring slot l s) = g s := by
  unfold toRslt
  split
  · rfl
  · exact (setEntrySt_core h _ _ _ _).trans ((updEntry_core h ring slot _ _).trans (charge_core h _ _ _ s))

/-! ### The queue engine -/

theorem qWriteBack_core (f : Nat) (s : State) : g (qWriteBack f s) = g s := qWriteBack_aside (aside_core h (g s)) rfl f

theorem evictFuel_core (n : Nat) (s : State) : g (evictFuel n s) = g s := by
  induction n generalizing s with
  | zero => rfl
  | succ n ih =>
    unfold evictFuel
    split
    · rfl
    · split
      · exact (ih _).trans ((fbump_core h (by decide) _).trans (freeQFrame_core h _ s))
      · split
        · exact (ih _).trans ((qWriteBack_core h _ _).trans ((setQfr_core h _ _ _).trans (fbump_core h (by decide) s)))
        · rfl

theorem evict_core (s : State) : g (evict s) = g s := evictFuel_core h _ s

/-- The plan of a lost ENQ goes: its frames, its cells, its links and its blocks. -/
theorem dropPlan_core (ring : Fin 16) (slot : Nat) (s : State) : g (dropPlan ring slot s) = g s := by
  unfold dropPlan
  extract_lets x
  refine (que_core h x _).trans (forAll_inv g _ _ s fun p y => ?_)
  extract_lets frames cells unlinked
  have frames_eq : g frames = g y := forAll_inv g _ _ y fun f z => ite_keeps (P := (g · = g z)) (fun _ => setQfr_core h _ _ z) fun _ => rfl
  have cells_eq : g cells = g y := (forAll_inv g _ _ frames fun x z => by
    split
    · exact setQfr_core h _ _ z
    · rfl).trans frames_eq
  have unlinked_eq : g unlinked = g y := by
    unfold unlinked
    split
    · exact (onlyIf_inv g _ _ cells fun z => setBrec_core h _ _ z).trans cells_eq
    · exact cells_eq
  exact (forAll_inv g _ _ _ fun b z => pushBlock_core h b z).trans unlinked_eq

theorem initLose_core (k : Nat) (s : State) : g (initLose k s) = g s := (fbumpN_core h (by decide) _ _).trans (que_core h s _)

theorem initDone_core (k : Nat) (lost : Bool) (s : State) : g (initDone k lost s) = g s :=
  (initFuel_aside (aside_core h (g _)) rfl _).trans (ite_keeps (P := (g · = g s)) (fun _ => initLose_core h k s) fun _ => que_core h s _)

theorem queBack_core (ring : Fin 16) (entry cell : Nat) (l : Line) (psn : Bool) (s : State) : g (queBack ring entry cell l psn s) = g s :=
  ite_keeps (P := (g · = g s)) (fun _ => (dupAnswer_core h entry _).trans (dupCell_core h entry cell l psn s)) fun _ => que_core h s _

theorem prefBack_core (b cell : Nat) (psn : Bool) (s : State) : g (prefBack b cell psn s) = g s := by
  unfold prefBack
  split
  · exact ite_keeps (P := (g · = g s)) (fun _ => rfl) fun _ => ite_keeps (P := (g · = g s)) (fun _ => setQfr_core h _ _ s) fun _ => setQfr_core h _ _ s
  · rfl

theorem stackDone_core (n : Nat) (s : State) : g (stackDone n s) = g s := (stackLevel_core h _).trans (que_core h s _)

/-! ### The Waystation and the walk engine -/

theorem wayStat_core (s : State) : g (wayStat s) = g s := wayStat_aside (aside_core h (g s)).toBaseAside rfl

theorem cleanLine_core (pin : Bool) (f i : Nat) (s : State) : g (cleanLine pin f i s) = g s := (wayStat_core h _).trans (setFrame_core h pin f _ s)

theorem pushFill_core (pin : Bool) (f i : Nat) (s : State) : g (pushFill pin f i s) = g s := pushFill_aside (aside_core h (g s)).toMoveAside rfl pin f i

theorem fillLine_core (pin : Bool) (f i : Nat) (l : Line) (psn : Bool) (s : State) : g (fillLine pin f i l psn s) = g s := fillLine_aside (aside_core h (g s)).toMoveAside rfl pin f i l psn

theorem pushWb_core (pin : Bool) (f i : Nat) (s : State) : g (pushWb pin f i s) = g s := pushWb_aside (aside_core h (g s)).toMoveAside rfl pin f i

theorem wbDone_core (pin : Bool) (f i : Nat) (l : Line) (s : State) : g (wbDone pin f i l s) = g s := by
  unfold wbDone
  extract_lets x y z
  have counted : g y = g s := fbump_core h (by decide) s
  have waits : g z = g s := (setFrame_core h pin f _ y).trans counted
  refine ite_keeps (P := (g · = g s)) (fun _ => rfl) fun _ => ite_keeps (P := (g · = g s)) (fun _ => (setFrame_core h pin f _ y).trans counted) fun _ =>
    ite_keeps (P := (g · = g s)) (fun _ => (cleanLine_core h pin f i y).trans counted) fun _ => ite_keeps (P := (g · = g s)) (fun _ => (pushWb_core h pin f i z).trans waits) fun _ => ?_
  split
  · exact (wbHigh_aside (aside_core h (g z)).toMoveAside rfl _).trans waits
  · exact waits

theorem walkBack_core (image : Bool) (a b key : Nat) (l : Line) (psn : Bool) (s : State) : g (walkBack image a b key l psn s) = g s := by
  unfold walkBack
  extract_lets x
  refine (wreads_core h x _).trans ?_
  unfold x
  split
  · exact (fbump_core h (by decide) _).trans (charge_core h _ _ _ s)
  · rfl

theorem ueBack_core (pin : Bool) (f i : Nat) (l : Line) (psn : Bool) (s : State) : g (ueBack pin f i l psn s) = g s := by
  unfold ueBack
  split
  · exact wayOps_core h s _
  · rfl

theorem batchDone_core (c : Fin 16) (s : State) : g (batchDone c s) = g s := by
  unfold batchDone
  split
  · rfl
  · exact ite_keeps (P := (g · = g s)) (fun _ => rfl) fun _ => (beginBatch_aside (aside_core h (g _)).toBaseAside rfl c).trans (bist_work h.toBesideWork s _)

/-! ### The loss of a channel -/

theorem loseRing_core (both : Bool) (c ring : Fin 16) (s : State) : g (loseRing both c ring s).1 = g s := by
  unfold loseRing
  extract_lets l
  dsimp only
  exact (evict_core h _).trans ((retire_core h ring _).trans (forAll_inv g _ _ s fun k x => (dropPlan_core h ring k _).trans (loseEntry_core h ring k 0 false x)))

theorem redirect_core (c : Fin 16) (twin : Bool) (x : Cmd) (s : State) : g (redirect c twin x s) = g s := by
  have wrote : ∀ pin f i, g (if twin = true then wbDone pin f i (wayLine s (frameLine s pin f i)) s else cleanLine pin f i s) = g s := fun pin f i =>
    ite_keeps (P := (g · = g s)) (fun _ => wbDone_core h pin f i _ s) fun _ => cleanLine_core h pin f i s
  unfold redirect
  extract_lets q
  split
  next ring slot _ => exact ite_keeps (P := (g · = g s)) (fun _ => chans_core h s _) fun _ => readValid_core h ring slot 0 true s
  next ring slot _ => exact (chans_core h _ _).trans ((chans_core h _ _).trans (updEntry_core h ring slot _ s))
  next ring slot _ => exact homeDurable_core h ring slot s
  next ring slot _ => exact twinDurable_core h ring slot s
  next image a b key _ => exact ite_keeps (P := (g · = g s)) (fun _ => wreads_core h s _) fun _ => walkBack_core h image a b key 0 true s
  next pin f i _ => exact (pushFill_core h pin f i _).trans (setFrame_core h pin f _ s)
  next pin f i _ => exact wrote pin f i
  next pin f i _ => exact wrote pin f i
  next pin f i _ => exact ite_keeps (P := (g · = g s)) (fun _ => chans_core h s _) fun _ => ueBack_core h pin f i 0 true s
  next b cell _ => exact qWbDone_core h b cell s
  next ring entry cell _ => exact queBack_core h ring entry cell 0 true s
  next e n _ => exact stackLost_core h e n s
  next e _ => exact initDone_core h e true s
  next => rfl

theorem poisonFrames_core (bad : Place → Bool) (s : State) : g (poisonFrames bad s) = g s := by
  unfold poisonFrames
  extract_lets hit one
  have framed : ∀ pin x y, g (one pin x y) = g y := fun pin x y => ite_keeps (P := (g · = g y)) (fun _ => rfl) fun _ => setFrame_core h pin x.1 _ y
  exact (wayStat_core h _).trans ((forAll_inv g _ _ _ (framed true)).trans (forAll_inv g _ _ s (framed false)))

theorem moveContest_core (c : Fin 16) (s : State) : g (moveContest c s) = g s := by
  unfold moveContest
  extract_lets all x a
  have refused : g x = g s := forAll_inv g _ _ s fun b y => by
    split
    · exact (refuseNew_core h (by decide) _ _ _ _ _).trans (arbs_core h y _)
    · rfl
  exact (arbs_core h _ _).trans ((arbs_core h x _).trans refused)

theorem horizonCheck_core (s : State) : g (horizonCheck s) = g s :=
  horizonCheck_inv g (fun s x => h.sides s s.ports s.streams s.rings s.arbs s.order s.toll s.que s.way s.wayOps s.wmem s.accts x s.probe) (fun _ _ => fset_core h (by decide) _ _) (emit_core h) s

theorem loseSlice_core (c : Fin 16) (s : State) : g (loseSlice c s) = g s := by
  unfold loseSlice
  split
  · rfl
  · exact (dropSlice_aside (aside_core h (g _)).toBaseAside rfl c).trans (onlyIf_inv g _ _ s fun y => fbump_core h (by decide) y)

theorem lossCleared_core (c : Fin 16) (st : Nat) (s : State) : g (lossCleared c st s) = g s := by
  have recorded : g (lossRecorded c s) = g s := by
    unfold lossRecorded
    extract_lets both x
    have own : g x = g s := updChan_core h c _ s
    exact ite_keeps (P := (g · = g s)) (fun _ => (updChan_core h _ _ x).trans own) fun _ => own
  exact (fset_CH_core h c (by decide) _ _).trans ((loseSlice_core h c _).trans ((clearChan_work h.toBesideWork c _).trans ((bist_work h.toBesideWork _ _).trans recorded)))

theorem channelLost_core (c : Fin 16) (cause : String) (st : Nat) (s : State) : g (channelLost c cause st s) = g s := by
  unfold channelLost
  extract_lets both y cmds recorded copies cleared
  have cleared_eq : g cleared = g s := lossCleared_core h c st s
  split
  next own n lost =>
  have own_eq : g own = g s := (congrArg (fun x : State × Nat => g x.1) lost).symm.trans ((loseRing_core h both c c cleared).trans cleared_eq)
  split
  next journal m lost =>
  have journal_eq : g journal = g s := (congrArg (fun x : State × Nat => g x.1) lost).symm.trans ((loseRing_core h both c (partnerOf c) own).trans own_eq)
  extract_lets commands walks contest
  have commands_eq : g commands = g s := (forAll_inv g _ _ journal fun x z => by
    extract_lets stands
    exact onlyIf_inv g _ _ z fun y => redirect_core h c _ x y).trans journal_eq
  have contest_eq : g contest = g s := (moveContest_core h c _).trans ((poisonFrames_core h _ _).trans ((wreads_core h _ _).trans commands_eq))
  exact (horizonCheck_core h _).trans ((emit_core h _ _ _).trans ((fset_core h (by decide) _ _).trans contest_eq))

/-! ### Where the end of a command leads -/

theorem readDone_core (c : Fin 16) (x : Cmd) (l : Line) (psn : Bool) (s : State) : g (readDone c x l psn s) = g s := by
  unfold readDone
  split
  next ring slot _ => exact readValid_core h ring slot l psn s
  next ring slot _ =>
    refine ite_keeps (P := (g · = g s)) (fun _ => (mergePoison_core h ring slot c _).trans (updChan_core h c _ s)) fun _ => ?_
    have written := toRslt_core h ring slot l s
    dsimp only
    split
    · exact (updChan_core h c _ _).trans written
    · exact (updChan_core h c _ _).trans written
  next image a b key _ => exact walkBack_core h image a b key l psn s
  next pin f i _ =>
    refine ite_keeps (P := (g · = g s)) (fun _ => (pushFill_core h pin f i _).trans (setFrame_core h pin f _ s)) fun _ => ite_keeps (P := (g · = g s)) (fun _ => ?_) fun _ => rfl
    exact (fillLine_core h pin f i l psn _).trans (onlyIf_inv g _ _ s fun y => led_work h.toBesideWork y _)
  next pin f i _ => exact ueBack_core h pin f i l psn s
  next b cell _ => exact prefBack_core h b cell psn s
  next ring entry cell _ => exact queBack_core h ring entry cell l psn s
  next e n _ => exact ite_keeps (P := (g · = g s)) (fun _ => (stackLevel_core h _).trans (stackLost_core h e n s)) fun _ => stackDone_core h n s
  next => exact batchDone_core h c s
  next => rfl

theorem writeDone_core (c : Fin 16) (x : Cmd) (s : State) : g (writeDone c x s) = g s := by
  unfold writeDone
  split
  next ring slot _ => exact homeDurable_core h ring slot s
  next ring slot _ => exact twinDurable_core h ring slot s
  next pin f i _ => exact wbDone_core h pin f i _ s
  next pin f i _ => exact wbDone_core h pin f i _ s
  next b cell _ => exact (evict_core h _).trans (qWbDone_core h b cell s)
  next e _ => exact initDone_core h e false s
  next => exact batchDone_core h c s
  next => rfl

end

end Sys2Proof.Proofs

/-! PROOF. What a completed drain leaves of the power state, of the console's answer and of the states of the ports (14 R400, R401). -/

namespace Sys2Proof.Proofs
open Sys2Proof Sys2Proof.Machine Sys2Proof.Laws

/-- A view beside the work of the core that shows neither the time nor the free values nor the counts of a channel's devices. -/
structure BesideFinish {β : Type} (g : State → β) : Prop extends BesideCore g where
  time : ∀ n s, g (advance n s) = g s
  free : ∀ (s : State) n, g { s with free := n } = g s
  counts : ∀ (c : Fin 16) i w s, g (ixSet (CH c) i w s) = g s

section
variable {β : Type} {g : State → β} (h : BesideFinish g)
include h

theorem rows_finish : BesideRows g := { h.toBesideWork with time := h.time }

/-! ### Faults and marks -/

theorem logFault_finish (c : Fin 16) (e : FaultEnt) (s : State) : g (logFault c e s) = g s := by
  unfold logFault
  extract_lets e'
  exact updChan_core h.toBesideCore c _ s

theorem logFree_finish (c : Fin 16) (kind dev : Nat) (s : State) : g (logFree c kind dev s) = g s := (logFault_finish h c _ _).trans (h.free s _)

theorem notePoison_finish (c : Fin 16) (lam : Nat) (scrub : Bool) (s : State) : g (notePoison c lam scrub s) = g s :=
  (logFault_finish h c _ _).trans (fset_CH_core h.toBesideCore c (by decide) _ s)

theorem ueLine_finish (c : Fin 16) (lam : Nat) (scrub : Bool) (s : State) : g (ueLine c lam scrub s) = g s :=
  (logFault_finish h c _ _).trans (fset_CH_core h.toBesideCore c (by decide) _ s)

theorem rereadGood_finish (c : Fin 16) (lam : Nat) (scrub : Bool) (s : State) : g (rereadGood c lam scrub s) = g s :=
  (logFault_finish h c _ _).trans (fset_CH_core h.toBesideCore c (by decide) _ s)

theorem nextSpare_finish (c : Fin 16) (s : State) : g (nextSpare c s) = g s := by
  unfold nextSpare
  split
  · exact fset_CH_core h.toBesideCore c (by decide) _ s
  · refine ite_keeps (P := (g · = g s)) (fun _ => rfl) fun _ => ?_
    exact (fset_CH_core h.toBesideCore c (by decide) _ _).trans ((fset_CH_core h.toBesideCore c (by decide) _ _).trans (fset_CH_core h.toBesideCore c (by decide) _ s))

theorem markRefuse_finish (c : Fin 16) (r d : Nat) (s : State) : g (markRefuse c r d s) = g s :=
  (emit_core h.toBesideCore _ _ _).trans (fset_CH_core h.toBesideCore c (by decide) _ s)

theorem markDev_finish (c : Fin 16) (r d : Nat) (cause : String) (s : State) : g (markDev c r d cause s) = g s := by
  unfold markDev
  split
  · exact ite_keeps (P := (g · = g s)) (fun _ => rfl) fun _ => markRefuse_finish h c r d s
  · extract_lets marked logged told stopped
    have marked_eq : g marked = g s := (fset_CH_core h.toBesideCore c (by unfold markF; split <;> decide) _ _).trans (fset_CH_core h.toBesideCore c (by unfold mdevF; split <;> decide) _ s)
    have told_eq : g told = g s := (emit_core h.toBesideCore _ _ _).trans ((logFree_finish h c _ _ _).trans ((fset_CH_core h.toBesideCore c (by decide) _ _).trans marked_eq))
    have stopped_eq : g stopped = g s := by
      unfold stopped
      split
      · exact ite_keeps (P := (g · = g s)) (fun _ => (stopSlice_aside (aside_core h.toBesideCore (g told)).toBaseAside rfl c).trans told_eq) fun _ => told_eq
      · exact told_eq
    exact (nextSpare_finish h c _).trans ((updChan_core h.toBesideCore c _ _).trans stopped_eq)

theorem countDev_finish (c : Fin 16) (r lam : Nat) (scrub : Bool) (l : List Nat) (d : Nat) (s : State) : g (countDev c r lam scrub l d s) = g s := by
  unfold countDev
  extract_lets x8 marked w win tot counted seen th
  have counted_eq : g counted = g s := h.counts c _ _ s
  have seen_eq : g seen = g s := ite_keeps (P := (g · = g s)) (fun _ => counted_eq) fun _ => (logFault_finish h c _ _).trans ((updChan_core h.toBesideCore c _ counted).trans counted_eq)
  refine ite_keeps (P := (g · = g s)) (fun _ => seen_eq) fun _ => ite_keeps (P := (g · = g s)) (fun _ => (markDev_finish h c r d _ seen).trans seen_eq) fun _ =>
    ite_keeps (P := (g · = g s)) (fun _ => (markDev_finish h c r d _ seen).trans seen_eq) fun _ => seen_eq

theorem chargeFor_finish (x : Cmd) (k : Nat) (man : Option (BitVec 8)) (s : State) : g (chargeFor x k man s) = g s :=
  (charge_core h.toBesideCore _ _ _ _).trans (onlyIf_inv g _ _ s fun y => led_work h.toBesideWork y _)

theorem chargeCmd_finish (x : Cmd) (k : Nat) (man : Option (BitVec 8)) (s : State) : g (chargeCmd x k man s) = g s :=
  ite_keeps (P := (g · = g s)) (fun _ => rfl) fun _ => chargeFor_finish h x k man s

theorem countDec_finish (c : Fin 16) (x : Cmd) (d : Dec) (s : State) : g (countDec c x d s) = g s := by
  unfold countDec
  extract_lets lam charged
  have charged_eq : g charged = g s := onlyIf_inv g _ _ s fun y => chargeFor_finish h x _ _ y
  split
  · exact charged_eq
  · exact (forAll_inv g _ _ _ fun a y => countDev_finish h c _ _ _ _ a y).trans ((fset_CH_core h.toBesideCore c (by decide) _ _).trans
      ((fset_CH_core h.toBesideCore c (by decide) _ _).trans ((fset_CH_core h.toBesideCore c (by decide) _ _).trans charged_eq)))
  · exact (fset_CH_core h.toBesideCore c (by decide) _ _).trans ((fset_CH_core h.toBesideCore c (by decide) _ _).trans charged_eq)
  · exact (fset_CH_core h.toBesideCore c (by decide) _ _).trans charged_eq

theorem closeMs_finish (c : Fin 16) (s : State) : g (closeMs c s) = g s :=
  ite_keeps (P := (g · = g s)) (fun _ => rfl) fun _ => (emit_core h.toBesideCore _ _ _).trans (updChan_core h.toBesideCore c _ s)

theorem countMs_finish (c : Fin 16) (s : State) : g (countMs c s) = g s := by
  unfold countMs
  extract_lets x
  exact (updChan_core h.toBesideCore c _ x).trans (onlyIf_inv g _ _ s fun y => closeMs_finish h c y)

theorem ueSeen_finish (c : Fin 16) (s : State) : g (ueSeen c s) = g s := by
  unfold ueSeen
  extract_lets seen th
  have seen_eq : g seen = g s := (fset_core h.toBesideCore (by decide) _ _).trans (countMs_finish h c s)
  exact ite_keeps (P := (g · = g s)) (fun _ => (channelLost_core h.toBesideCore c _ _ _).trans ((fset_CH_core h.toBesideCore c (by decide) _ seen).trans seen_eq)) fun _ => seen_eq

/-! ### Reads and writes that are carried out at once -/

theorem decodeNow_finish (c : Fin 16) (x : Cmd) (s : State) : g (decodeNow c x s).2 = g s := by
  have rows := rows_finish h
  unfold decodeNow
  split
  next d l _ =>
  extract_lets first again
  have first_eq : g first = g s := countDec_finish h c x d s
  split
  · exact first_eq
  · exact first_eq
  · exact first_eq
  · have again_eq : g again = g s := (rowOnce_rows rows c _ _ _).trans ((charge_core h.toBesideCore _ _ _ _).trans ((fset_CH_core h.toBesideCore c (by decide) _ _).trans
      ((ueSeen_finish h c first).trans first_eq)))
    split
    next e l' _ =>
    extract_lets counted
    have counted_eq : g counted = g s := (countDec_finish h c x e again).trans again_eq
    split
    · exact (rereadGood_finish h c _ _ counted).trans counted_eq
    · exact (rereadGood_finish h c _ _ counted).trans counted_eq
    · exact (ueLine_finish h c _ _ _).trans ((writeNow_rows rows c _ _ _ _ _ counted).trans counted_eq)

theorem readNow_finish (c : Fin 16) (x : Cmd) (s : State) : g (readNow c x s).2 = g s :=
  (decodeNow_finish h c _ _).trans ((rowOnce_rows (rows_finish h) c _ _ _).trans ((charge_core h.toBesideCore _ _ _ _).trans (fset_CH_core h.toBesideCore c (by decide) _ s)))

theorem besideRec_finish (c : Fin 16) (x : Cmd) (s : State) : g (besideRec c x s) = g s := by
  unfold besideRec
  split
  · exact ite_keeps (P := (g · = g s)) (fun _ => setBrec_core h.toBesideCore _ _ s) fun _ => rfl
  · rfl

theorem servePointCh_finish (ch c : Fin 16) (slot : Nat) (s : State) : g (servePointCh ch c slot s) = g s := by
  unfold servePointCh
  split
  · rfl
  · exact (probeService_core h.toBesideCore _ _ _ _ _).trans ((updEntry_core h.toBesideCore c slot _ _).trans (h.free s _))

theorem twinPointCh_finish (ch c : Fin 16) (slot : Nat) (s : State) : g (twinPointCh ch c slot s) = g s := by
  unfold twinPointCh
  split
  · rfl
  · exact (updEntry_core h.toBesideCore c slot _ _).trans (h.free s _)

theorem issueWrite_finish (c : Fin 16) (x : Cmd) (s : State) : g (issueWrite c x s) = g s := by
  unfold issueWrite
  extract_lets w noted stored
  have noted_eq : g noted = g s := onlyIf_inv g _ _ s fun y => notePoison_finish h c _ _ y
  have kept : g (if isBist x then noted else storeLine c x.line w.1 w.2 (besideRec c x noted)) = g s :=
    ite_keeps (P := (g · = g s)) (fun _ => noted_eq) fun _ => (storeLine_work h.toBesideWork c _ _ _ _).trans ((besideRec_finish h c x noted).trans noted_eq)
  have stored_eq : g stored = g s := (chargeCmd_finish h x _ _ _).trans ((fset_CH_core h.toBesideCore c (by decide) _ _).trans kept)
  split
  · exact (servePointCh_finish h c _ _ stored).trans stored_eq
  · exact (twinPointCh_finish h c _ _ stored).trans stored_eq
  · exact stored_eq

theorem finishOne_finish (c : Fin 16) (x : Cmd) (s : State) : g (finishOne c x s) = g s := by
  unfold finishOne
  split
  · exact (writeDone_core h.toBesideCore c _ _).trans ((issueWrite_finish h c _ _).trans (rowOnce_rows (rows_finish h) c _ _ s))
  · have read := readNow_finish h c x s
    split
    next l _ y e => exact (readDone_core h.toBesideCore c x _ _ y).trans ((congrArg (fun r : Option (Line × Bool) × State => g r.2) e).symm.trans read)
    next y e => exact (readDone_core h.toBesideCore c x _ _ y).trans ((congrArg (fun r : Option (Line × Bool) × State => g r.2) e).symm.trans read)

theorem finishCmd_finish (c : Fin 16) (x : Cmd) (s : State) : g (finishCmd c x s) = g s := by
  unfold finishCmd
  split
  · exact (led_work h.toBesideWork _ _).trans (finishOne_finish h c x s)
  · extract_lets r
    have done : g r = g s := finishOne_finish h c _ s
    exact (onlyIf_inv g _ _ r fun y => led_work h.toBesideWork y _).trans done

theorem finishFlight_finish (c : Fin 16) (f : Flight) (s : State) : g (finishFlight c f s) = g s := by
  unfold finishFlight
  split
  · exact writeDone_core h.toBesideCore c _ s
  · split
    · have read := decodeNow_finish h c { f.cmd with sym := if f.cmd.reread then f.cmd.again else f.cmd.sym } s
      split
      next l _ y e => exact (readDone_core h.toBesideCore c _ _ _ y).trans ((congrArg (fun r : Option (Line × Bool) × State => g r.2) e).symm.trans read)
      next y e => exact (readDone_core h.toBesideCore c _ _ _ y).trans ((congrArg (fun r : Option (Line × Bool) × State => g r.2) e).symm.trans read)
    · rfl

theorem finishLine_finish (c : Fin 16) (s : State) : g (finishLine c s) = g s := by
  unfold finishLine
  extract_lets y emptied ended more
  have ended_eq : g ended = g s := (forAll_inv g _ _ _ fun x z => finishCmd_finish h c x z).trans ((forAll_inv g _ _ _ fun f z => finishFlight_finish h c f z).trans (updChan_core h.toBesideCore c _ s))
  exact (fillStat_work h.toBesideWork c _).trans ((forAll_inv g _ _ _ fun x z => finishCmd_finish h c x z).trans ((updChan_core h.toBesideCore c _ ended).trans ended_eq))

theorem finishIntake_finish (c : Fin 16) (s : State) : g (finishIntake c s) = g s :=
  (forAll_inv g _ _ _ fun x z => finishCmd_finish h c x z).trans (updChan_core h.toBesideCore c _ s)

/-! ### The Waystation at rest -/

theorem endSlices_finish (s : State) : g (endSlices s) = g s :=
  (forAll_inv g _ _ _ fun c y => dropSlice_aside (aside_core h.toBesideCore (g y)).toBaseAside rfl c).trans (stopSlices_aside (aside_core h.toBesideCore (g s)).toMoveAside rfl)

theorem flushLine_finish (pin : Bool) (f i : Nat) (s : State) : g (flushLine pin f i s) = g s := by
  obtain ⟨e, -⟩ | ⟨p, e⟩ := flushLine_cases pin f i s
  · rw [e]
  · rw [e]
    exact (cleanLine_core h.toBesideCore pin f i _).trans ((fbump_core h.toBesideCore (by decide) _).trans (wroteLine_rows (rows_finish h) pin f i p s))

theorem flushFrame_finish (pin : Bool) (f : Nat × Frame) (s : State) : g (flushFrame pin f s) = g s := forAll_inv g _ _ s fun i y => flushLine_finish h pin f.1 i y

theorem flushAll_finish (s : State) : g (flushAll s) = g s := by
  rw [flushAll_eq]
  exact (forAll_inv g _ _ _ fun f y => flushFrame_finish h true f y).trans (forAll_inv g _ _ s fun f y => flushFrame_finish h false f y)

theorem dropMig_finish (c : Fin 16) (s : State) : g (dropMig c s) = g s := by
  unfold dropMig
  extract_lets mig
  exact updChan_core h.toBesideCore c _ s

theorem quietFrame_finish (pin : Bool) (f : Nat × Frame) (s : State) : g (quietFrame pin f s) = g s := by
  have events := events_core h.toBesideCore
  unfold quietFrame
  dsimp only
  split
  case h_1 => exact (setFrame_core h.toBesideCore pin f.1 _ _).trans (chans_core h.toBesideCore s _)
  case h_2 =>
    have emptied : g (setFrame pin f.1 {} (fbump WAY WAY_DEMOTE_COUNT s)) = g s := (setFrame_core h.toBesideCore pin f.1 _ _).trans (fbump_core h.toBesideCore (by decide) s)
    have retired : g (onlyIf f.2.thenRetire (if pin then retirePin f.1 else retireTier f.1) (setFrame pin f.1 {} (fbump WAY WAY_DEMOTE_COUNT s))) = g s := by
      refine (onlyIf_inv g _ _ _ fun y => ?_).trans emptied
      cases pin with
      | true => exact retirePin_aside (aside_core h.toBesideCore (g y)).toMoveAside rfl (fun s c => events (g y) s c) f.1
      | false => exact retireTier_aside (aside_core h.toBesideCore (g y)).toMoveAside rfl (fun s c => events (g y) s c) f.1
    generalize onlyIf f.2.thenRetire _ _ = y at retired ⊢
    split
    · exact pinStat_aside (aside_core h.toBesideCore (g s)).toMoveAside retired _
    · exact retired
  case h_3 => exact setFrame_core h.toBesideCore pin f.1 _ s

theorem quietWay_finish (s : State) : g (quietWay s) = g s := by
  unfold quietWay
  extract_lets emptied flushed quiet
  have emptied_eq : g emptied = g s := (forAll_inv g _ _ _ fun c y => (dropMig_finish h c _).trans ((finishIntake_finish h c _).trans (finishLine_finish h c y))).trans (endSlices_finish h s)
  have flushed_eq : g flushed = g s := (flushAll_finish h emptied).trans emptied_eq
  have quiet_eq : g quiet = g s := (forAll_inv g _ _ _ fun f y => quietFrame_finish h true f y).trans ((forAll_inv g _ _ _ fun f y => quietFrame_finish h false f y).trans flushed_eq)
  exact (wayStat_core h.toBesideCore _).trans ((way_core h.toBesideCore quiet _).trans quiet_eq)

end

theorem besideFinish_sleepView : BesideFinish sleepView := { besideCore_sleepView with
  time := fun _ _ => rfl
  free := fun _ _ => rfl
  counts := fun _ _ _ _ => rfl }

end Sys2Proof.Proofs

/-! PROOF. The entry to DOZE and BANKED up to the end of its drain, and its retention check (14 R399 to R401). -/

namespace Sys2Proof.Proofs
open Sys2Proof Sys2Proof.Machine Sys2Proof.Laws

/-! ### The verbs `sleep doze` and `sleep banked` (14 R399) -/

/-- An accepted command begins its entry at the drain. -/
def sleepBegun (banked : Bool) (s : State) : State := fset PWR PWR_STATE_SUB 1 { s with pwr := { s.pwr with entry := some (banked, s.ns, .drain) } }

theorem sleepVerb_ready {banked : Bool} {s : State} (ready : verbReady s = true) : sleepVerb banked s = (sleepBad s banked).elim (sleepBegun banked s) fun e => answer [e] s := by
  simp only [verbReady, Bool.and_eq_true, Bool.not_eq_eq_eq_not, Bool.not_true] at ready
  obtain ⟨⟨⟨on, none_⟩, idle⟩, fine⟩ := ready
  have line := Option.isNone_iff_eq_none.mp fine
  unfold sleepVerb
  rw [if_neg (by simp [on, none_, idle]), line]
  cases sleepBad s banked with
  | none => rfl
  | some e => rfl

theorem sleepVerb_begins {banked : Bool} {s : State} (ready : verbReady s = true) (fine : sleepBad s banked = none) : sleepVerb banked s = sleepBegun banked s :=
  (sleepVerb_ready ready).trans (by rw [fine, Option.elim_none])

theorem sleepVerb_refused {banked : Bool} {s : State} {e : OutLn} (ready : verbReady s = true) (bad : sleepBad s banked = some e) : sleepVerb banked s = answer [e] s :=
  (sleepVerb_ready ready).trans (by rw [bad, Option.elim_some])

theorem sleepBegun_entry (banked : Bool) (s : State) :
    (sleepBegun banked s).pwr.entry = some (banked, s.ns, .drain) ∧ fget (sleepBegun banked s) PWR PWR_STATE_SUB = 1
      ∧ (∀ a, a ≠ PWR + PWR_STATE_SUB.off → rg (sleepBegun banked s) a = rg s a) ∧ (sleepBegun banked s).con = s.con ∧ sameStore s (sleepBegun banked s) :=
  ⟨rfl, fget_fset PWR PWR_STATE_SUB _ _ (by decide), fun _ ne => rg_fset_ne PWR PWR_STATE_SUB _ _ ne, rfl, ⟨rfl, rfl, rfl, rfl, rfl, rfl⟩⟩

/-! ### The end of the drain (14 R400) -/

/-- The work of the entry begins. -/
def workBegun (b : Bool) (t0 : Nat) (s : State) : State := fset PWR PWR_STATE_SUB 2 { s with pwr := { s.pwr with entry := some (b, t0, .work) } }

theorem drainComplete_works {s : State} {b : Bool} {t0 : Nat} (entry : s.pwr.entry = some (b, t0, .drain)) (empty : drained s = true) :
    drainComplete s = workBegun b t0 (quietWay (answer [okLn [("state", .s "entering")]] s)) := by
  unfold drainComplete
  rw [entry]
  exact if_neg (by simp [empty])

theorem uncounted_portSt (p : Fin 4) : Uncounted (HP p + HP_STATUS_STATE.off) := by fin_cases p <;> decide

theorem portSt_of_view {s t : State} (same : sleepView t = sleepView s) (p : Fin 4) : portSt t p = portSt s p :=
  congrArg HP_STATUS_STATE.get (congrArg (fun v : PwrState × List OutLn × Word × (Fin 4 → Word) => v.2.2.2 p) same)

theorem workBegun_quiet (b : Bool) (t0 : Nat) (l : List OutLn) (s : State) :
    (workBegun b t0 (quietWay (answer l s))).pwr.entry = some (b, t0, .work) ∧ fget (workBegun b t0 (quietWay (answer l s))) PWR PWR_STATE_SUB = 2
      ∧ (workBegun b t0 (quietWay (answer l s))).con.ans = l ∧ (workBegun b t0 (quietWay (answer l s))).pwr.mode = s.pwr.mode
      ∧ ∀ p, portSt (workBegun b t0 (quietWay (answer l s))) p = portSt s p := by
  have same := quietWay_finish besideFinish_sleepView (answer l s)
  generalize quietWay (answer l s) = q at same
  have pwr : q.pwr = s.pwr := (congrArg (·.1) same).trans (answer_pwr l s)
  have ans : q.con.ans = l := (congrArg (fun v : PwrState × List OutLn × Word × (Fin 4 → Word) => v.2.1) same).trans (answer_ans l s)
  have ports (p : Fin 4) : portSt q p = portSt s p := (portSt_of_view same p).trans (fget_answer (uncounted_portSt p))
  refine ⟨rfl, fget_fset PWR PWR_STATE_SUB _ _ (by decide), ans, (congrArg PwrState.mode pwr :), fun p => Eq.trans ?_ (ports p)⟩
  exact fget_of_rg (rg_fset_ne _ _ _ _ (by have := p.isLt; simp only [HP, PWR, HP_STATUS_STATE, PWR_STATE_SUB]; omega))

/-! ### A drain that runs out (14 R400) -/

/-- The entry is taken back, and its command is answered with the entries that are left. -/
def drainAborted (x : State) : State := sleepAbort "drain" (answer [er490 "drain" [("pending", .n ((x.rings.toList.map fun r => r.entries.length).sum))]] x)

theorem drainTimeout_aborts {s : State} {b : Bool} {t0 : Nat} (entry : s.pwr.entry = some (b, t0, .drain)) (left : drained s = false) :
    drainTimeout s = settle (drainAborted (advanceToNs (t0 + drainNs s) s)) := by
  unfold drainTimeout
  rw [entry]
  exact if_neg (by simp [left])


theorem sleepAbort_store (w : String) {r s : State} (same : sameStore r s) : sameStore r (sleepAbort w s) :=
  emit_keeps (closed_sameStore r) _ _ (entryEnded s) same

theorem sleepAbort_settled (w : String) {s : State} (quiet : settled s) : settled (sleepAbort w s) :=
  settled_congr (s := entryEnded s) quiet (emit_caravans _ _ _) (emit_streams _ _ _)

theorem sleepAbort_ends (w : String) (l : List OutLn) (s : State) :
    (sleepAbort w (answer l s)).pwr.entry = none ∧ fget (sleepAbort w (answer l s)) PWR PWR_STATE_SUB = 0 ∧ (sleepAbort w (answer l s)).d8 = s.d8
      ∧ (sleepAbort w (answer l s)).con.ans = l ∧ sameStore s (sleepAbort w (answer l s)) := by
  obtain ⟨pwr, sub, ans⟩ := entryEnded_view (answer l s)
  rw [← sleepAbort_view w] at pwr sub ans
  exact ⟨congrArg PwrState.entry pwr, sub, (sleepAbort_d8 w _).trans (answer_d8 l s), ans.trans (answer_ans l s), sleepAbort_store w (sameStore_answer l s)⟩

theorem drainTimeout_ends {s : State} {b : Bool} {t0 : Nat} (entry : s.pwr.entry = some (b, t0, .drain)) (left : drained s = false) (quiet : settled s) :
    (drainTimeout s).pwr.entry = none ∧ fget (drainTimeout s) PWR PWR_STATE_SUB = 0 ∧ (drainTimeout s).d8 = firstCycle8 s (8 * (t0 + 1000 * max 1 (fget s PWR PWR_SLEEP_DRAIN_US)))
      ∧ (drainTimeout s).con.ans = [er490 "drain" [("pending", .n ((s.rings.toList.map fun r => r.entries.length).sum))]] ∧ sameStore s (drainTimeout s) := by
  rw [drainTimeout_aborts entry left]
  have due : (advanceToNs (t0 + drainNs s) s).d8 = firstCycle8 s (8 * (t0 + 1000 * max 1 (fget s PWR PWR_SLEEP_DRAIN_US))) := by
    have ns : (t0 + drainNs s) * 8 = 8 * (t0 + 1000 * max 1 (fget s PWR PWR_SLEEP_DRAIN_US)) := by unfold drainNs; omega
    rw [← ns]
    rfl
  have rings : (advanceToNs (t0 + drainNs s) s).rings = s.rings := rfl
  have store : sameStore s (advanceToNs (t0 + drainNs s) s) := ⟨rfl, rfl, rfl, rfl, rfl, rfl⟩
  have quiet' : settled (advanceToNs (t0 + drainNs s) s) := quiet
  generalize advanceToNs (t0 + drainNs s) s = x at due rings store quiet'
  unfold drainAborted
  rw [rings, settle_settled (sleepAbort_settled _ (settled_answer _ quiet'))]
  obtain ⟨gone, sub, d8, ans, kept⟩ := sleepAbort_ends "drain" [er490 "drain" [("pending", .n ((s.rings.toList.map fun r => r.entries.length).sum))]] x
  exact ⟨gone, sub, d8.trans due, ans, sameStore_trans store kept⟩

/-! ### The retention check (14 R401 step 11) -/

/-- The entry is over after `n` edges of CK_SLOW. -/
def retainedFor (n : Nat) (s : State) : State := { s with pwr := { s.pwr with lowPower := true, entry := none, slowEdges := n, bankEdges := n } }

theorem retentionCheck_ends {s : State} {b : Bool} {t0 : Nat} (inW : Bool) (entry : s.pwr.entry = some (b, t0, .retain)) (waits : s.pwr.wakeAfter = none) :
    ∃ n, s.pwr.slowEdges ≤ n ∧ retentionCheck inW s = retainedFor n (takeFree (onlyIf (!inW) (fset AON AON_STATUS_RET_LOST 1) s)).2 := by
  unfold retentionCheck
  rw [entry]
  extract_lets x base
  have pwr : x.pwr = s.pwr := onlyIf_inv (·.pwr) _ _ s fun _ => rfl
  change ∃ n, _ ∧ _ = retainedFor n (takeFree x).2
  clear_value x base
  rcases e : takeFree x with ⟨f, y⟩
  have same : y.pwr = s.pwr := (congrArg (fun r : Nat × State => r.2.pwr) e).symm.trans pwr
  have none_ : y.pwr.wakeAfter = none := by rw [same, waits]
  dsimp only
  split
  · next k woken => exact absurd (woken.symm.trans none_) (by simp)
  · exact ⟨y.pwr.slowEdges + base * 9 / 10 + f % (base / 5 + 2), (Nat.le_of_eq (congrArg PwrState.slowEdges same).symm).trans ((Nat.le_add_right _ _).trans (Nat.le_add_right _ _)), rfl⟩

theorem retained_view (inW : Bool) (n : Nat) (s : State) :
    let t := retainedFor n (takeFree (onlyIf (!inW) (fset AON AON_STATUS_RET_LOST 1) s)).2
    (inW = false → fbit t AON AON_STATUS_RET_LOST = true) ∧ (inW = true → t.regs = s.regs) ∧ t.d8 = s.d8 ∧ sameStore s t := by
  cases inW with
  | false => exact ⟨fun _ => fbit_fset_one AON AON_STATUS_RET_LOST s (by decide) (by decide), fun e => absurd e (by decide), rfl, rfl, rfl, rfl, rfl, rfl, rfl⟩
  | true => exact ⟨fun e => absurd e (by decide), fun _ => rfl, rfl, rfl, rfl, rfl, rfl, rfl, rfl⟩

end Sys2Proof.Proofs

/-! PROOF. The work of an entry to DOZE and BANKED: ports go to QUIET, channels to self-refresh, and the core is left (14 R401 steps 6 to 8). -/

namespace Sys2Proof.Proofs
open Sys2Proof Sys2Proof.Machine Sys2Proof.Laws

/-! ### Ports go to QUIET (03 R94, 14 R401 step 6) -/

section
variable {P : State → Prop} (h : ResetAside P) {s : State} (hs : P s) (p : Fin 4) (ports : ∀ {f : Fld} v s, f.off < 0x1000 → P s → P (fset (HP p) f v s))
include h hs ports

theorem quietCheck_aside : P (quietCheck p s) := by
  unfold quietCheck
  extract_lets ps
  split
  · exact forAll_keeps_prop _ _ (setPortSt_aside h (updPort_aside h hs p _) p ports _) fun _ _ hy => sendTrain_aside h hy p ports
  · exact hs

theorem toQuiet_aside : P (toQuiet p s) := by
  unfold toQuiet
  split
  · exact quietCheck_aside h (updPort_aside h hs p _) p ports
  · exact hs

end

/-- The state of a port and whether it is to go to QUIET. -/
def quietView (p : Fin 4) (s : State) : Nat × Bool := (portSt s p, (s.port p).toQuiet)

theorem quietView_toQuiet_ne {b p : Fin 4} (ne : p ≠ b) (s : State) : quietView p (toQuiet b s) = quietView p s := by
  have state : rg (toQuiet b s) (HP p + HP_STATUS_STATE.off) = rg s (HP p + HP_STATUS_STATE.off) :=
    toQuiet_aside (aside_HP p (by decide) _) rfl b fun _ _ small hs => (rg_fset_ne _ _ _ _ (HP_ne ne (by decide) small)).trans hs
  have record : (toQuiet b s).port p = s.port p := by
    unfold toQuiet
    split
    · exact ((PortOnly.updPort b _ s).trans (PortOnly.quietCheck b _)).others p ne
    · rfl
  exact Prod.ext (fget_of_rg state) (congrArg PortState.toQuiet record)

/-- An ACTIVE port that is to go to QUIET goes at once, or goes on as it is. -/
theorem quietCheck_active {p : Fin 4} {s : State} (active : portSt s p = PORT_ACTIVE) (asked : (s.port p).toQuiet = true) :
    portSt (quietCheck p s) p = PORT_QUIET ∨ quietView p (quietCheck p s) = (PORT_ACTIVE, true) := by
  unfold quietCheck
  extract_lets ps
  split
  · exact .inl ((forAll_inv (portSt · p) _ _ _ fun _ y => portSt_sendTrain p p y).trans (portSt_setPortSt p PORT_QUIET _))
  · exact .inr (Prod.ext active asked)

theorem toQuiet_active {p : Fin 4} {s : State} (active : portSt s p = PORT_ACTIVE) : portSt (toQuiet p s) p = PORT_QUIET ∨ quietView p (toQuiet p s) = (PORT_ACTIVE, true) := by
  unfold toQuiet
  rw [if_pos (.inl active)]
  exact quietCheck_active active (congrArg PortState.toQuiet (updPort_port p _ s))

theorem toQuiet_retrain {p : Fin 4} {s : State} (trains : portSt s p = PORT_RETRAIN) : quietView p (toQuiet p s) = (PORT_RETRAIN, true) := by
  have state : portSt (updPort p (fun y => { y with toQuiet := true }) s) p = PORT_RETRAIN := trains
  have asked : ((updPort p (fun y => { y with toQuiet := true }) s).port p).toQuiet = true := congrArg PortState.toQuiet (updPort_port p _ s)
  unfold toQuiet
  rw [if_pos (.inr trains)]
  generalize updPort p (fun y => { y with toQuiet := true }) s = y at state asked
  have stays : quietCheck p y = y := by
    unfold quietCheck
    exact if_neg (by simp [state, PORT_RETRAIN, PORT_ACTIVE])
  rw [stays]
  exact Prod.ext state asked

theorem toQuiet_quiet {p : Fin 4} {s : State} (quiet : portSt s p = PORT_QUIET) : toQuiet p s = s :=
  if_neg (by simp [quiet, PORT_QUIET, PORT_ACTIVE, PORT_RETRAIN])

/-- Every port begins its way to QUIET. -/
def portsToQuiet (s : State) : State := forAll allPorts toQuiet s

theorem portsToQuiet_active {p : Fin 4} {s : State} (active : portSt s p = PORT_ACTIVE) :
    portSt (portsToQuiet s) p = PORT_QUIET ∨ quietView p (portsToQuiet s) = (PORT_ACTIVE, true) := by
  have quiets {y : State} (hy : portSt y p = PORT_QUIET) : portSt (toQuiet p y) p = PORT_QUIET := by rw [toQuiet_quiet hy, hy]
  refine forAll_reaches_of (I := fun y => portSt y p = PORT_QUIET ∨ portSt y p = PORT_ACTIVE) (P := fun y => portSt y p = PORT_QUIET ∨ quietView p y = (PORT_ACTIVE, true)) (List.mem_finRange p)
    (fun b y hy => ?_) (fun y hy => ?_) (fun b y hy => ?_) (.inr active)
  · by_cases own : p = b
    · subst own
      exact hy.elim (fun quiet => .inl (quiets quiet)) fun runs => (toQuiet_active runs).imp_right (congrArg Prod.fst)
    · have same : portSt (toQuiet b y) p = portSt y p := congrArg Prod.fst (quietView_toQuiet_ne own y)
      rwa [same]
  · exact hy.elim (fun quiet => .inl (quiets quiet)) toQuiet_active
  · by_cases own : p = b
    · subst own
      exact hy.elim (fun quiet => .inl (quiets quiet)) fun runs => toQuiet_active (congrArg Prod.fst runs)
    · have same : portSt (toQuiet b y) p = portSt y p := congrArg Prod.fst (quietView_toQuiet_ne own y)
      rwa [same, quietView_toQuiet_ne own y]

theorem portsToQuiet_retrain {p : Fin 4} {s : State} (trains : portSt s p = PORT_RETRAIN) : quietView p (portsToQuiet s) = (PORT_RETRAIN, true) := by
  have once {b : Fin 4} {y : State} (hy : portSt y p = PORT_RETRAIN) : portSt (toQuiet b y) p = PORT_RETRAIN := by
    by_cases own : p = b
    · subst own
      exact congrArg Prod.fst (toQuiet_retrain hy)
    · exact (congrArg Prod.fst (quietView_toQuiet_ne own y)).trans hy
  unfold portsToQuiet
  refine forAll_reaches_of (I := fun y => portSt y p = PORT_RETRAIN) (P := fun y => quietView p y = (PORT_RETRAIN, true)) (List.mem_finRange p) (fun b y hy => once hy) (fun y hy => ?_) (fun b y hy => ?_) trains
  · exact toQuiet_retrain hy
  · by_cases own : p = b
    · subst own
      exact toQuiet_retrain (congrArg Prod.fst hy)
    · exact (quietView_toQuiet_ne own y).trans hy

theorem aside_pwr (v : PwrState) : ResetAside fun s => s.pwr = v where
  field _ _ _ hs := hs
  parts _ _ _ _ hs := hs
  moves _ _ _ hs := hs
  tables _ _ _ _ _ _ _ hs := hs
  chans _ _ _ hs := hs
  phys _ _ _ hs := hs

theorem portsToQuiet_pwr (s : State) : (portsToQuiet s).pwr = s.pwr := forAll_inv (·.pwr) _ _ s fun p y => toQuiet_aside (aside_pwr y.pwr) rfl p fun _ _ _ hs => hs

/-! ### Channels are parked (14 R401 step 7) -/

section
variable {P : State → Prop} (h : WorkAside P) {s : State} (hs : P s) {c : Fin 16} (console : ∀ s c, c.ans = s.con.ans → P s → P { s with con := c }) (state : ∀ v y, P y → P (setChState c v y))
include h hs console state

theorem parkSleep_aside : P (parkSleep c s) := by
  have rests : P (selfRefresh c (updChan c (fun y => { y with bg := (s.chan c).bg }) (clearChan c s))) :=
    selfRefresh_aside h (updChan_aside h.toBaseAside (clearChan_aside h hs c) c (f := fun y => { y with bg := (s.chan c).bg }) fun _ => ⟨rfl, rfl⟩) state
  unfold parkSleep
  split
  · exact trainAbort_aside h hs console state _
  · exact rests
  · exact rests
  · exact hs

end

/-- Every channel is parked. -/
def sleepParked (s : State) : State := forAll allChans parkSleep s

theorem chState_parkSleep_ne {b c : Fin 16} (ne : b ≠ c) (s : State) : chState (parkSleep b s) c = chState s c :=
  parkSleep_aside (aside_chState c (chState s c)).toWorkAside rfl (fun _ _ _ h => h) fun v y hy => (chState_setChState_ne ne v y).trans hy

theorem parkSleep_rests {c : Fin 16} {s : State} (state : chState s c = 2 ∨ chState s c = 3) : chState (parkSleep c s) c = 4 := by
  unfold parkSleep
  rcases state with ready | serves
  · simp only [ready]
    exact selfRefresh_chState c _
  · simp only [serves]
    exact selfRefresh_chState c _

theorem parkSleep_resting {c : Fin 16} {s : State} (state : chState s c = 4) : parkSleep c s = s := by
  unfold parkSleep
  simp only [state]

theorem sleepParked_rests {c : Fin 16} {s : State} (state : chState s c = 2 ∨ chState s c = 3) : chState (sleepParked s) c = 4 := by
  have rests {y : State} (hy : chState y c = 4) : chState (parkSleep c y) c = 4 := by rw [parkSleep_resting hy, hy]
  refine forAll_reaches_of (I := fun y => (chState y c = 2 ∨ chState y c = 3) ∨ chState y c = 4) (P := fun y => chState y c = 4) (List.mem_finRange c) (fun b y hy => ?_) (fun y hy => hy.elim parkSleep_rests rests) (fun b y hy => ?_) (.inl state)
  · by_cases own : b = c
    · subst own
      exact .inr (hy.elim parkSleep_rests rests)
    · rwa [chState_parkSleep_ne own]
  · by_cases own : b = c
    · subst own
      exact rests hy
    · exact (chState_parkSleep_ne own y).trans hy

/-- What the parking of channels leaves, beside the ports' states. -/
structure ParkKept (s t : State) : Prop where
  pwr : t.pwr = s.pwr
  d8 : t.d8 = s.d8
  dram : t.dram = s.dram
  wmem : t.wmem = s.wmem
  streams : t.streams = s.streams

theorem work_parkKept (r : State) : WorkAside (ParkKept r) where
  field _ _ _ hs := ⟨hs.pwr, hs.d8, hs.dram, hs.wmem, hs.streams⟩
  parts _ _ _ _ hs := ⟨hs.pwr, hs.d8, hs.dram, hs.wmem, hs.streams⟩
  chans _ _ _ hs := ⟨hs.pwr, hs.d8, hs.dram, hs.wmem, hs.streams⟩
  phys _ _ _ hs := ⟨hs.pwr, hs.d8, hs.dram, hs.wmem, hs.streams⟩

theorem sleepParked_kept (s : State) : ParkKept s (sleepParked s) :=
  forAll_keeps_prop _ _ ⟨rfl, rfl, rfl, rfl, rfl⟩ fun _ _ hy => parkSleep_aside (work_parkKept s) hy (fun _ _ _ hz => ⟨hz.pwr, hz.d8, hz.dram, hz.wmem, hz.streams⟩)
    fun _ _ hz => ⟨hz.pwr, hz.d8, hz.dram, hz.wmem, hz.streams⟩

theorem portSt_sleepParked (p : Fin 4) (s : State) : portSt (sleepParked s) p = portSt s p :=
  fget_of_rg (forAll_keeps_prop (P := fun y => rg y (HP p + HP_STATUS_STATE.off) = rg s (HP p + HP_STATUS_STATE.off)) _ _ rfl fun c _ hy =>
    parkSleep_aside (aside_HP p (by decide) _).toWorkAside hy (fun _ _ _ hz => hz) fun _ _ hz => (rg_fset_ne _ _ _ _ (by simp only [HP, CH, HP_STATUS_STATE]; omega)).trans hz)

end Sys2Proof.Proofs

/-! PROOF. Past the parking of an entry: DOZE is entered, or the wake window of BANKED opens (14 R401 steps 7 and 8, R404). -/

namespace Sys2Proof.Proofs
open Sys2Proof Sys2Proof.Machine Sys2Proof.Laws

/-- What leaving the core keeps: the states of channels and ports, the time and the memories. -/
structure SleepKept (s t : State) : Prop where
  states : ∀ c, chState t c = chState s c
  ports : ∀ p, portSt t p = portSt s p
  d8 : t.d8 = s.d8
  dram : t.dram = s.dram
  wmem : t.wmem = s.wmem
  streams : t.streams = s.streams

namespace SleepKept

variable {s t u : State}

theorem trans (h : SleepKept s t) (k : SleepKept t u) : SleepKept s u :=
  ⟨fun c => (k.states c).trans (h.states c), fun p => (k.ports p).trans (h.ports p), k.d8.trans h.d8, k.dram.trans h.dram, k.wmem.trans h.wmem, k.streams.trans h.streams⟩

theorem of_regs (regs : t.regs = s.regs) (d8 : t.d8 = s.d8) (dram : t.dram = s.dram) (wmem : t.wmem = s.wmem) (streams : t.streams = s.streams) : SleepKept s t :=
  ⟨fun _ => fget_congr regs _ _, fun _ => fget_congr regs _ _, d8, dram, wmem, streams⟩

/-- A field of PWR or AON is written. -/
theorem rgSet {a : Nat} (above : PWR ≤ a) (w : Word) (s : State) : SleepKept s (rgSet a w s) :=
  ⟨fun c => fget_of_rg (rg_rgSet_ne _ _ _ s (by simp only [CH, PWR, CH_STATUS_STATE] at *; omega)), fun p => fget_of_rg (rg_rgSet_ne _ _ _ s (by simp only [HP, PWR, HP_STATUS_STATE] at *; omega)), rfl, rfl, rfl, rfl⟩

theorem fset {b : Nat} {f : Fld} (above : PWR ≤ b + f.off) (v : Nat) (s : State) : SleepKept s (fset b f v s) := rgSet above _ s

theorem emit (k : String) (x : List (String × FVal)) (s : State) : SleepKept s (emit k x s) :=
  ⟨fun c => fget_emit _ _ _ _ _ (by simp only [CH, GLB, CH_STATUS_STATE]; omega) (by simp only [CH, CON, CH_STATUS_STATE, CON_STATUS_EV_LOST]; omega) (by simp only [CH, CON, CH_STATUS_STATE, CON_EVLOST_COUNT]; omega),
    fun p => fget_emit _ _ _ _ _ (by simp only [HP, GLB, HP_STATUS_STATE]; omega) (by simp only [HP, CON, HP_STATUS_STATE, CON_STATUS_EV_LOST]; omega) (by simp only [HP, CON, HP_STATUS_STATE, CON_EVLOST_COUNT]; omega),
    emit_d8 _ _ _, emit_dram _ _ _, emit_wmem _ _ _, emit_streams _ _ _⟩

end SleepKept

/-! ### The Starter store -/

/-- The words of the image lie in the AON window. -/
def starterWords (all : List (Word × Nat)) (s : State) : State := forAll all (fun x y => ixSet AON x.2 x.1 y) (takeFree (takeFree (takeFree s).2).2).2

/-- The image is in force. -/
def starterKept (kind : Nat) (s : State) : State :=
  fset AON AON_STARTER_VALID 1 (fset AON AON_STARTER_WORDS 1024 { s with pwr := { s.pwr with starter := some kind, img := some (bankImg kind s), savedD8 := s.d8, slowEdges := 0, bankEdges := 0 } })

theorem starterSave_keeps (kind : Nat) (s : State) : ∃ all, starterSave kind s = starterKept kind (starterWords all s) := by
  unfold starterSave
  split
  next f1 x e1 =>
  split
  next f2 y e2 =>
  split
  next f3 z e3 =>
  extract_lets w2 crc all u
  have three : (takeFree (takeFree (takeFree s).2).2).2 = z := by rw [e1, e2, e3]
  refine ⟨all.zipIdx, ?_⟩
  have words : starterWords all.zipIdx s = u := congrArg (forAll all.zipIdx (fun x y => ixSet AON x.2 x.1 y)) three
  rw [words]
  rfl

theorem starterWords_inv {β : Type} {g : State → β} (words : ∀ i w s, g (ixSet AON i w s) = g s) (free : ∀ (s : State) n, g { s with free := n } = g s) (all : List (Word × Nat)) (s : State) :
    g (starterWords all s) = g s := (forAll_inv g _ _ _ fun _ y => words _ _ y).trans ((free _ _).trans ((free _ _).trans (free s _)))

theorem starterWords_kept (all : List (Word × Nat)) (s : State) : SleepKept s (starterWords all s) :=
  .of_regs (starterWords_inv (g := (·.regs)) (fun _ _ _ => rfl) (fun _ _ => rfl) all s) (starterWords_inv (g := (·.d8)) (fun _ _ _ => rfl) (fun _ _ => rfl) all s)
    (starterWords_inv (g := (·.dram)) (fun _ _ _ => rfl) (fun _ _ => rfl) all s) (starterWords_inv (g := (·.wmem)) (fun _ _ _ => rfl) (fun _ _ => rfl) all s)
    (starterWords_inv (g := (·.streams)) (fun _ _ _ => rfl) (fun _ _ => rfl) all s)

theorem starterKept_kept (kind : Nat) (s : State) : SleepKept s (starterKept kind s) := by
  have image : SleepKept s { s with pwr := { s.pwr with starter := some kind, img := some (bankImg kind s), savedD8 := s.d8, slowEdges := 0, bankEdges := 0 } } := .of_regs rfl rfl rfl rfl rfl
  exact image.trans ((SleepKept.fset (by decide) _ _).trans (SleepKept.fset (by decide) _ _))

/-! ### The core is left (14 R401 steps 7 and 8) -/

/-- The ports are quiet, and neither a pause nor a replay runs. -/
def parkReady (s : State) : Prop := portsQuiet s = true ∧ ∀ c, (s.phy c).active = none ∧ (s.chan c).replay = none

/-- The channels are parked, and the length of the entry is shown. -/
def entryTimed (t0 : Nat) (s : State) : State := rgSet (PWR + PWR_ENTRY_US.off) (BitVec.ofNat 32 (((sleepParked s).ns - t0) / 1000)) (sleepParked s)

/-- DOZE is entered. -/
def dozeEntered (s : State) : State := fset PWR PWR_STATE_STATE 1 (fset PWR PWR_STATE_SUB 0 { s with pwr := { s.pwr with entry := none, mode := .doze, dozeAt := s.ns } })

/-- The wake window is open from an edge that `f2` picks; `f1` picks CK_SLOW's period. -/
def windowOpen (t0 f1 f2 : Nat) (s : State) : State :=
  { s with pwr := { s.pwr with entry := some (true, t0, .window), edgeAt8 := some (s.d8 + f2 % slowPer8 s f1, s.d8 + f2 % slowPer8 s f1 + 3 * slowPer8 s f1), wakeN := true } }

theorem parkReady_runs {s : State} (ready : parkReady s) : ¬((!portsQuiet s) = true ∨ (allChans.any fun c => (s.phy c).active.isSome || (s.chan c).replay.isSome) = true) := by
  obtain ⟨quiet, idle⟩ := ready
  simp [quiet, idle]

theorem parkReady_of_runs {s : State} (runs : ¬((!portsQuiet s) = true ∨ (allChans.any fun c => (s.phy c).active.isSome || (s.chan c).replay.isSome) = true)) : parkReady s := by
  obtain ⟨quiet, idle⟩ := not_or.mp runs
  refine ⟨by simpa using quiet, fun c => ?_⟩
  have free := List.any_eq_false.mp (Bool.not_eq_true _ ▸ idle) c (List.mem_finRange c)
  simpa using free

theorem parkStep_waits (b : Bool) (t0 : Nat) {s : State} (busy : ¬parkReady s) : parkStep b t0 s = s := by
  unfold parkStep
  exact if_pos (not_not.mp fun runs => busy (parkReady_of_runs runs))

theorem parkStep_doze (t0 : Nat) {s : State} (ready : parkReady s) (waits : s.pwr.wakeAfter = none) :
    parkStep false t0 s = dozeEntered (emit "sleep" [("state", .s "doze"), ("cause", .s "command")] (entryTimed t0 s)) := by
  have none_ : (entryTimed t0 s).pwr.wakeAfter = none := (congrArg PwrState.wakeAfter (sleepParked_kept s).pwr).trans waits
  have told : (emit "sleep" [("state", .s "doze"), ("cause", .s "command")] (entryTimed t0 s)).pwr.wakeAfter = none := by rw [emit_pwr, none_]
  unfold parkStep
  rw [if_neg (parkReady_runs ready)]
  extract_lets parked timed ev left power entered power'
  rw [if_neg (by decide)]
  have here : entered = dozeEntered (emit "sleep" [("state", .s "doze"), ("cause", .s "command")] (entryTimed t0 s)) := rfl
  rw [here]
  generalize emit "sleep" [("state", .s "doze"), ("cause", .s "command")] (entryTimed t0 s) = y at told
  have same : (dozeEntered y).pwr.wakeAfter = none := told
  generalize dozeEntered y = z at same
  rw [same]

theorem parkStep_banked (t0 : Nat) {s : State} (ready : parkReady s) :
    ∃ f1 f2, parkStep true t0 s = windowOpen t0 f1 f2 (takeFree (takeFree (emit "sleep" [("state", .s "banked"), ("cause", .s "command")] (starterSave 1 (entryTimed t0 s)))).2).2 := by
  unfold parkStep
  rw [if_neg (parkReady_runs ready)]
  extract_lets parked timed ev
  have told : ev "banked" (starterSave 1 timed) = emit "sleep" [("state", .s "banked"), ("cause", .s "command")] (starterSave 1 (entryTimed t0 s)) := rfl
  rw [if_pos rfl, told]
  generalize emit "sleep" [("state", .s "banked"), ("cause", .s "command")] (starterSave 1 (entryTimed t0 s)) = y
  split
  next f1 x e1 =>
  split
  next f2 z e2 =>
  have taken : (takeFree (takeFree y).2).2 = z := by rw [e1, e2]
  rw [taken]
  exact ⟨f1, f2, rfl⟩

/-! ### What is left of the state before -/

theorem entryTimed_kept (t0 : Nat) (s : State) : ParkKept s (entryTimed t0 s) := by
  obtain ⟨pwr, d8, dram, wmem, streams⟩ := sleepParked_kept s
  exact ⟨pwr, d8, dram, wmem, streams⟩

theorem entryTimed_rests (t0 : Nat) {c : Fin 16} {s : State} (state : chState s c = 2 ∨ chState s c = 3) : chState (entryTimed t0 s) c = 4 :=
  ((SleepKept.rgSet (by decide) _ _).states c).trans (sleepParked_rests state)

theorem portSt_entryTimed (t0 : Nat) (p : Fin 4) (s : State) : portSt (entryTimed t0 s) p = portSt s p :=
  ((SleepKept.rgSet (by decide) _ _).ports p).trans (portSt_sleepParked p s)

theorem dozeEntered_kept (s : State) : SleepKept s (dozeEntered s) := by
  have left : SleepKept s { s with pwr := { s.pwr with entry := none, mode := .doze, dozeAt := s.ns } } := .of_regs rfl rfl rfl rfl rfl
  exact left.trans ((SleepKept.fset (by decide) _ _).trans (SleepKept.fset (by decide) _ _))

theorem starterSave_kept (kind : Nat) (s : State) : SleepKept s (starterSave kind s) := by
  obtain ⟨all, e⟩ := starterSave_keeps kind s
  rw [e]
  exact (starterWords_kept all s).trans (starterKept_kept kind _)

/-- The power state once the image is kept. -/
theorem starterSave_pwr (kind : Nat) (s : State) : ∃ img, (starterSave kind s).pwr = { s.pwr with starter := some kind, img := some img, savedD8 := s.d8, slowEdges := 0, bankEdges := 0 } := by
  obtain ⟨all, e⟩ := starterSave_keeps kind s
  have pwr : (starterWords all s).pwr = s.pwr := starterWords_inv (g := (·.pwr)) (fun _ _ _ => rfl) (fun _ _ => rfl) all s
  have d8 : (starterWords all s).d8 = s.d8 := (starterWords_kept all s).d8
  rw [e]
  generalize starterWords all s = y at pwr d8
  rw [← pwr, ← d8]
  exact ⟨_, rfl⟩

theorem starterSave_valid (kind : Nat) (s : State) : fbit (starterSave kind s) AON AON_STARTER_VALID = true := by
  obtain ⟨all, e⟩ := starterSave_keeps kind s
  rw [e]
  exact fbit_fset_one AON AON_STARTER_VALID _ (by decide) (by decide)

theorem windowOpen_kept (t0 f1 f2 : Nat) (s : State) : SleepKept s (windowOpen t0 f1 f2 s) := .of_regs rfl rfl rfl rfl rfl

theorem slowPer8_bounds (s : State) (f : Nat) : 221600 ≤ slowPer8 s f ∧ slowPer8 s f ≤ 271200 ∧ (s.pwr.xtal = true → slowPer8 s f = 244140) := by
  unfold slowPer8
  split
  · exact ⟨by decide, by decide, fun _ => rfl⟩
  · next rc => exact ⟨by omega, by omega, fun xtal => absurd xtal rc⟩

theorem rg_emit_high {a : Nat} (above : PWR ≤ a) (k : String) (x : List (String × FVal)) (s : State) : rg (emit k x s) a = rg s a := by
  unfold emit
  split
  · exact rg_fset_ne _ _ _ _ (by simp only [PWR, GLB, GLB_IRQ_STAT_EVENT] at *; omega)
  · exact (rg_fset_ne _ _ _ _ (by simp only [PWR, CON, CON_STATUS_EV_LOST] at *; omega)).trans (rg_fset_ne _ _ _ _ (by simp only [PWR, CON, CON_EVLOST_COUNT] at *; omega))

/-! ### Both ways out of RUN -/

/-- The state in which DOZE is entered. -/
def dozed (t0 : Nat) (s : State) : State := dozeEntered (emit "sleep" [("state", .s "doze"), ("cause", .s "command")] (entryTimed t0 s))

/-- The state in which the wake window opens, but for the free values taken for the edges. -/
def banking (t0 : Nat) (s : State) : State := (takeFree (takeFree (emit "sleep" [("state", .s "banked"), ("cause", .s "command")] (starterSave 1 (entryTimed t0 s)))).2).2

theorem dozed_kept (t0 : Nat) (s : State) : SleepKept (entryTimed t0 s) (dozed t0 s) := (SleepKept.emit _ _ _).trans (dozeEntered_kept _)

theorem takeFree_kept (s : State) : SleepKept s (takeFree (takeFree s).2).2 := .of_regs rfl rfl rfl rfl rfl

theorem banking_kept (t0 : Nat) (s : State) : SleepKept (entryTimed t0 s) (banking t0 s) := by
  exact (starterSave_kept 1 _).trans ((SleepKept.emit _ _ _).trans (takeFree_kept _))

theorem banking_pwr (t0 : Nat) (s : State) : ∃ img, (banking t0 s).pwr = { s.pwr with starter := some 1, img := some img, savedD8 := s.d8, slowEdges := 0, bankEdges := 0 } := by
  obtain ⟨img, saved⟩ := starterSave_pwr 1 (entryTimed t0 s)
  rw [(entryTimed_kept t0 s).pwr, (entryTimed_kept t0 s).d8] at saved
  have told := (emit_pwr "sleep" [("state", .s "banked"), ("cause", .s "command")] (starterSave 1 (entryTimed t0 s))).trans saved
  unfold banking
  generalize emit "sleep" [("state", .s "banked"), ("cause", .s "command")] (starterSave 1 (entryTimed t0 s)) = y at told
  exact ⟨img, told⟩

theorem banking_valid (t0 : Nat) (s : State) : fbit (banking t0 s) AON AON_STARTER_VALID = true := by
  have told := (fbit_of_rg (f := AON_STARTER_VALID) (rg_emit_high (by decide) "sleep" [("state", .s "banked"), ("cause", .s "command")] (starterSave 1 (entryTimed t0 s)))).trans (starterSave_valid 1 _)
  unfold banking
  generalize emit "sleep" [("state", .s "banked"), ("cause", .s "command")] (starterSave 1 (entryTimed t0 s)) = y at told
  exact told

theorem dozed_fields (t0 : Nat) (s : State) : fget (dozed t0 s) PWR PWR_STATE_STATE = 1 ∧ fget (dozed t0 s) PWR PWR_STATE_SUB = 0 ∧
    rg (dozed t0 s) (PWR + PWR_ENTRY_US.off) = BitVec.ofNat 32 ((s.ns - t0) / 1000) := by
  have time : (sleepParked s).ns = s.ns := congrArg (· / 8) (sleepParked_kept s).d8
  have timed : rg (entryTimed t0 s) (PWR + PWR_ENTRY_US.off) = BitVec.ofNat 32 ((s.ns - t0) / 1000) := by
    unfold entryTimed
    rw [time]
    exact rg_rgSet _ _ _
  have told := (rg_emit_high (a := PWR + PWR_ENTRY_US.off) (by decide) "sleep" [("state", .s "doze"), ("cause", .s "command")] (entryTimed t0 s)).trans timed
  unfold dozed
  generalize emit "sleep" [("state", .s "doze"), ("cause", .s "command")] (entryTimed t0 s) = y at told
  unfold dozeEntered
  refine ⟨fget_fset _ _ _ _ (by decide), (fget_fset_apart _ (by decide) _ _).trans (fget_fset _ _ _ _ (by decide)), ?_⟩
  exact (rg_fset_ne _ _ _ _ (by decide)).trans ((rg_fset_ne _ _ _ _ (by decide)).trans told)

/-! ### SLEEP_PARK_DONE -/

theorem sleepParkDone_works {s : State} {b : Bool} {t0 : Nat} (entry : s.pwr.entry = some (b, t0, .work)) (mode : s.pwr.mode = .run) :
    sleepParkDone s = parkStep b t0 (portsToQuiet { s with pwr := { s.pwr with entry := some (b, t0, .park) } }) := by
  unfold sleepParkDone
  rw [if_neg (by simp [mode]), entry]
  rfl

theorem sleepParkDone_parks {s : State} {b : Bool} {t0 : Nat} (entry : s.pwr.entry = some (b, t0, .park)) (mode : s.pwr.mode = .run) : sleepParkDone s = parkStep b t0 s := by
  unfold sleepParkDone
  rw [if_neg (by simp [mode]), entry]

/-- Past the parking the ports are as they were, and the entry has gone on. -/
theorem parkStep_goes {s : State} {b : Bool} {t0 : Nat} (entry : s.pwr.entry = some (b, t0, .park)) (waits : s.pwr.wakeAfter = none) :
    (parkStep b t0 s).pwr.entry ≠ some (b, t0, .work) ∧ (∀ p, portSt (parkStep b t0 s) p = portSt s p) ∧ (parkReady s ∨ parkStep b t0 s = s) := by
  by_cases ready : parkReady s
  · refine ⟨?_, fun p => ?_, .inl ready⟩
    · cases b with
      | false =>
        rw [parkStep_doze t0 ready waits]
        exact fun e => nomatch e
      | true =>
        obtain ⟨f1, f2, e⟩ := parkStep_banked t0 ready
        rw [e]
        exact fun e => nomatch e
    · cases b with
      | false =>
        rw [parkStep_doze t0 ready waits]
        exact ((dozed_kept t0 s).ports p).trans (portSt_entryTimed t0 p s)
      | true =>
        obtain ⟨f1, f2, e⟩ := parkStep_banked t0 ready
        rw [e]
        exact ((windowOpen_kept t0 f1 f2 (banking t0 s)).ports p).trans (((banking_kept t0 s).ports p).trans (portSt_entryTimed t0 p s))
  · have stays := parkStep_waits b t0 ready
    rw [stays]
    refine ⟨fun e => ?_, fun _ => rfl, .inr rfl⟩
    exact nomatch entry.symm.trans e

theorem portsQuiet_port {s : State} (quiet : portsQuiet s = true) (p : Fin 4) : (s.port p).toQuiet = false := by
  have listed : s.port p ∈ s.ports.toList := Vector.mem_toList_iff.mpr (Vector.getElem_mem p.isLt)
  simpa using List.all_eq_true.mp quiet _ listed

/-- A port is on its way to QUIET, or there. -/
theorem parkStep_port {s : State} {b : Bool} {t0 : Nat} (entry : s.pwr.entry = some (b, t0, .park)) (waits : s.pwr.wakeAfter = none) {p : Fin 4} {v : Nat} (asked : quietView p s = (v, true)) :
    portSt (parkStep b t0 s) p = v ∧ ((parkStep b t0 s).port p).toQuiet = true := by
  obtain ⟨-, ports, ready | stays⟩ := parkStep_goes entry waits
  · have on : (s.port p).toQuiet = true := congrArg Prod.snd asked
    rw [portsQuiet_port ready.1 p] at on
    exact absurd on (by decide)
  · rw [stays]
    exact ⟨congrArg Prod.fst asked, congrArg Prod.snd asked⟩

end Sys2Proof.Proofs

/-! PROOF. The end of BANKED's wake window: what the loss of the core supply leaves (14 R395, R396, R401 steps 9 and 10). -/

namespace Sys2Proof.Proofs
open Sys2Proof Sys2Proof.Machine Sys2Proof.Laws

/-! ### A table that is rewritten entry by entry -/

section
variable {α : Type} [DecidableEq α] {d : Nat → α} {g : List (Nat × α) → Nat × α → List (Nat × α)} {a : Nat} (other : ∀ t e, a ≠ e.1 → tblGet d (g t e) a = tblGet d t a)
include other

theorem tblGet_foldl_above {l : List (Nat × α)} {b : Nat} (wf : tblWfFrom d b l = true) (lt : a < b) (t : List (Nat × α)) : tblGet d (l.foldl g t) a = tblGet d t a := by
  induction l generalizing b t with
  | nil => rfl
  | cons e r ih =>
    simp only [tblWfFrom, Bool.and_eq_true, decide_eq_true_eq] at wf
    obtain ⟨⟨low, -⟩, rest⟩ := wf
    exact (ih rest (by omega) _).trans (other t e (by omega))

theorem tblGet_foldl_listed (own : ∀ t e, a = e.1 → tblGet d (g t e) a = e.2) {l : List (Nat × α)} {b : Nat} (wf : tblWfFrom d b l = true) {t : List (Nat × α)} (unlisted : tblGet d t a = d a) :
    tblGet d (l.foldl g t) a = tblGet d l a := by
  induction l generalizing b t with
  | nil => exact unlisted
  | cons e r ih =>
    obtain ⟨k, v⟩ := e
    have wf' := wf
    simp only [tblWfFrom, Bool.and_eq_true, decide_eq_true_eq] at wf'
    obtain ⟨-, rest⟩ := wf'
    rcases Nat.lt_trichotomy a k with below | same | above
    · have keys : tblWfFrom d k ((k, v) :: r) = true := by
        simp only [tblWfFrom, Bool.and_eq_true, decide_eq_true_eq] at wf ⊢
        exact ⟨⟨Nat.le_refl k, wf.1.2⟩, rest⟩
      exact ((tblGet_foldl_above other keys below t).trans unlisted).trans (tblGet_below d keys below).symm
    · have read : tblGet d ((k, v) :: r) a = v := by simp [tblGet, same]
      exact ((tblGet_foldl_above other rest (by omega) _).trans (own t (k, v) same)).trans read.symm
    · have read : tblGet d ((k, v) :: r) a = tblGet d r a := by simp [tblGet, show ¬ a < k by omega, show a ≠ k by omega]
      exact (ih rest ((other t (k, v) (by omega)).trans unlisted)).trans read.symm

end

/-- A register whose value `f` keeps reads as before. -/
theorem rg_regsMap_kept {f : Nat → Word → Option Word} {a : Nat} (kept : ∀ w, f a w = some w) {s : State} (wf : tblWf regReset s.regs = true) : rg (regsMap f s) a = rg s a := by
  refine tblGet_foldl_listed (fun t e ne => ?_) (fun t e same => ?_) wf rfl
  · split
    · exact tblGet_tblSet_ne _ _ _ _ _ ne
    · rfl
  · subst same
    rw [kept]
    exact tblGet_tblSet _ _ _ _

/-! ### The states of the domains -/

/-- No flag of a domain's state is cleared where it is written 1. -/
theorem domState_unflagged : ∀ d : Fin 23, ((regRow (PWR + (PWR_DOMSTAT_STATE.nth d.val).off)).map fun x => x.1.fields.filter fun f => f.acc == .w1c) = some [] := by decide +kernel

theorem clearW1c_unflagged {a : Nat} (plain : ((regRow a).map fun x => x.1.fields.filter fun f => f.acc == .w1c) = some []) (w : Word) : clearW1c a w = w := by
  unfold clearW1c
  split
  · rfl
  next r _ row =>
    rw [row] at plain
    have none_ : (r.fields.filter fun f => f.acc == .w1c) = [] := Option.some.inj plain
    rw [none_]
    rfl

theorem rg_bankRegs_domain {d : Nat} (low : d < 23) {s : State} (wf : tblWf regReset s.regs = true) : rg (bankRegs s) (PWR + (PWR_DOMSTAT_STATE.nth d).off) = rg s (PWR + (PWR_DOMSTAT_STATE.nth d).off) := by
  refine rg_regsMap_kept (fun w => ?_) wf
  rw [if_neg (by simp only [PWR, Fld.nth, PWR_DOMSTAT_STATE]; omega), if_neg (by simp only [PWR, AON, Fld.nth, PWR_DOMSTAT_STATE]; omega)]
  exact congrArg some (clearW1c_unflagged (domState_unflagged ⟨d, low⟩) w)

/-! ### Ports and accounts lose what they hold -/

/-- A property that the loss of the core supply keeps, but for the registers and the ports. -/
structure BankAside (P : State → Prop) : Prop extends CoreAside P where
  retry : ∀ s, P s → P (fset PWR PWR_RETRY_DOM 0 s)
  snap : ∀ {a : Nat} s, SNP ≤ a → P s → P (rgSet a 0 s)
  hold : ∀ (s : State) h, P s → P { s with hold := h }
  clock : ∀ {f : Fld} v s, f.off = GLB_CLKSTAT_LINK_LOCK.off → P s → P (fset GLB f v s)
  pll : ∀ (s : State), P s → P { s with pwr := { s.pwr with pll := false } }

/-- Every port loses its supply. -/
def portsOff (s : State) : State := forAll allPorts portOff (bankRegs s)

/-- What the core holds of requests, and the console's state, is gone. -/
def bankCut (s : State) : State :=
  strmMap (fun _ r => { r with busy := false, waiting := [] }) { s with
    probe := none, guard := none, latches := [], shadow := none, hold := {}, led := { s.led with below := 0, due := false },
    arbs := s.arbs.map fun _ => {},
    con := { (({} : ConState)) with baud := s.con.baud } }

section
variable {P : State → Prop} (h : BankAside P) {s : State} (hs : P s)
include h hs

theorem clearTrackers_aside (c : Fin 16) : P (clearTrackers c s) := by
  unfold clearTrackers
  extract_lets limits cleared
  have limited : P limits := forAll_keeps_prop _ _ hs fun m y hy => h.core y _ _ _ _ _ _ (setAcct m.1.toNat c.val { y.acct m.1.toNat c.val with thr := 0x3FF } y).accts hy
  have empty : P cleared := updChan_aside h.toBaseAside limited c fun _ => ⟨rfl, rfl⟩
  have limit : ResetFld ARB (ARB_THRCH_LIMIT.nth c) := .plain (by simp only [ARB, Fld.nth, ARB_THRCH_LIMIT]; omega)
  exact h.field _ _ (.chan c (by decide) (by decide)) (h.field _ _ (.chan c (by decide) (by decide)) (h.field _ _ limit empty))

theorem acctsCut_aside : P (acctsZero (fun _ => true) { s with way := { s.way with hot := [] } }) := by
  have cold := way_aside h.toBaseAside hs { s.way with hot := [] }
  generalize ({ s with way := { s.way with hot := [] } } : State) = y at cold
  exact h.core y y.probe y.guard y.latches y.shadow y.wayOps y.wreads (acctsZero (fun _ => true) y).accts cold

theorem bankCut_aside : P (bankCut s) := by
  have core : P { s with probe := none, guard := none, latches := [], shadow := none } := h.core s none none [] none s.wayOps s.wreads s.accts hs
  have held : P { s with probe := none, guard := none, latches := [], shadow := none, hold := {} } := h.hold _ {} core
  have judged : P { s with probe := none, guard := none, latches := [], shadow := none, hold := {}, led := { s.led with below := 0, due := false } } := led_aside h.toBaseAside held _
  have free : P { s with probe := none, guard := none, latches := [], shadow := none, hold := {}, led := { s.led with below := 0, due := false }, arbs := s.arbs.map fun _ => {} } := h.moves _ _ s.wmem judged
  have silent := h.console _ { (({} : ConState)) with baud := s.con.baud } free
  exact h.tables _ s.ports _ s.caravans s.que s.walks s.toll silent

theorem clocksOff_aside : P (clocksOff s) :=
  h.clock _ _ rfl (h.clock _ _ rfl (h.clock _ _ rfl (h.clock _ _ rfl (h.clock _ _ rfl (h.clock _ _ rfl (h.pll s hs))))))

end

/-- What the core supply's loss leaves once the ports have lost theirs. -/
theorem bankLost_aside {P : State → Prop} (h : BankAside P) {s : State} (hs : P (portsOff s)) : P (bankLost s) := by
  unfold bankLost
  change P (portsOff s) at hs
  extract_lets ports trackers way tables tolls fields snaps led con
  have trackers_ : P trackers := forAll_keeps_prop _ _ hs fun c y hy => updChan_aside h.toBaseAside (clearTrackers_aside h hy c) c (f := fun y => { y with hist := [] }) fun _ => ⟨rfl, rfl⟩
  have tables_ : P tables := acctsCut_aside h trackers_
  have tolls_ : P tolls := forAll_keeps_prop _ _ tables_ fun p y hy => h.field _ _ (.toll p) (h.tables y _ _ _ _ _ _ hy)
  have fields_ : P fields := h.retry _ (h.watchdog _ (h.level _ (h.field _ _ (.plain (by decide)) tolls_)))
  have snaps_ : P snaps := h.field _ _ (.plain (by decide)) (h.snap _ (by decide) (h.snap _ (by decide) (h.snap _ (by decide) (h.snap _ (by decide) (h.snap _ (by decide) fields_)))))
  exact clocksOff_aside h (bankCut_aside h snaps_)

/-! ### What is left of ports, domains and memories -/

section
variable {P : State → Prop} (h : ResetAside P) {s : State} (hs : P s) (p : Fin 4) (ports : ∀ {f : Fld} v s, f.off < 0x1000 → P s → P (fset (HP p) f v s)) (console : ∀ s c, c.ans = s.con.ans → P s → P { s with con := c })
include h hs ports console

theorem portOff_aside : P (portOff p s) :=
  h.field _ _ .linkLock (setPortSt_aside h (clearPort_aside h hs p ports console) p ports _)

end

theorem portSt_portOff (p : Fin 4) (s : State) : portSt (portOff p s) p = PORT_DOWN :=
  (fget_of_rg (rg_fset_ne _ _ _ _ (by simp only [HP, GLB, HP_STATUS_STATE, GLB_CLKSTAT_LINK_LOCK]; omega))).trans (portSt_setPortSt p PORT_DOWN _)

theorem portSt_portOff_ne {b p : Fin 4} (ne : p ≠ b) (s : State) : portSt (portOff b s) p = portSt s p :=
  fget_of_rg (portOff_aside (aside_HP p (by decide) _) rfl b (fun _ _ small hs => (rg_fset_ne _ _ _ _ (HP_ne ne (by decide) small)).trans hs) fun _ _ _ hs => hs)

theorem portsOff_down (p : Fin 4) (s : State) : portSt (portsOff s) p = PORT_DOWN := by
  unfold portsOff
  refine forAll_reaches_of (I := fun _ => True) (P := fun y => portSt y p = PORT_DOWN) (List.mem_finRange p) (fun _ _ _ => trivial) (fun y _ => portSt_portOff p y) (fun b y hy => ?_) trivial
  by_cases own : p = b
  · subst own
    exact portSt_portOff p y
  · exact (portSt_portOff_ne own y).trans hy

theorem spared_domain {d : Nat} (low : d < 23) : Spared (PWR + (PWR_DOMSTAT_STATE.nth d).off) := .inr (.inr (by simp only [PWR, Fld.nth, PWR_DOMSTAT_STATE]; omega))

theorem rg_portsOff_domain {d : Nat} (low : d < 23) {s : State} (wf : tblWf regReset s.regs = true) :
    rg (portsOff s) (PWR + (PWR_DOMSTAT_STATE.nth d).off) = rg s (PWR + (PWR_DOMSTAT_STATE.nth d).off) :=
  (forAll_inv (rg · (PWR + (PWR_DOMSTAT_STATE.nth d).off)) _ _ _ fun p y => portOff_aside (aside_rg (spared_domain low) (rg y (PWR + (PWR_DOMSTAT_STATE.nth d).off))) rfl p
    (fun _ _ small hs => (rg_fset_ne _ _ _ _ (by simp only [HP, PWR, Fld.nth, PWR_DOMSTAT_STATE]; omega)).trans hs) fun _ _ _ hs => hs).trans (rg_bankRegs_domain low wf)

/-- A register above those of GLB that the loss of the core supply leaves. -/
theorem bankAside_rg {a : Nat} {w : Word} (reset : ResetAside fun s => rg s a = w) (above : 0x20000 ≤ a) (below : a < SNP) (level : a ≠ LED + LED_STATUS_LEVEL.off) (retry : a ≠ PWR + PWR_RETRY_DOM.off) :
    BankAside fun s => rg s a = w where
  toResetAside := reset
  console _ _ hs := hs
  watchdog s hs := (rg_rgSet_ne _ _ _ s (by simp only [GLB, GLB_WDOG_CTL_EN]; omega)).trans hs
  level s hs := (rg_fset_ne _ _ _ s level).trans hs
  core _ _ _ _ _ _ _ _ hs := hs
  retry s hs := (rg_fset_ne _ _ _ s retry).trans hs
  snap s high hs := (rg_rgSet_ne _ _ _ s (by omega)).trans hs
  hold _ _ hs := hs
  clock v s at_ hs := (rg_fset_ne _ _ v s (by rw [at_]; simp only [GLB, GLB_CLKSTAT_LINK_LOCK]; omega)).trans hs
  pll _ hs := hs

theorem portSt_bankLost (p : Fin 4) (s : State) : portSt (bankLost s) p = PORT_DOWN :=
  (fget_of_rg (bankLost_aside (bankAside_rg (aside_HP p (i := HP_STATUS_STATE.off) (by decide) _) (by simp only [HP]; omega) (by simp only [HP, SNP, HP_STATUS_STATE]; omega)
    (by simp only [HP, LED, HP_STATUS_STATE]; omega) (by simp only [HP, PWR, HP_STATUS_STATE]; omega)) rfl)).trans (portsOff_down p s)

theorem domState_bankLost {d : Nat} (low : d < 23) {s : State} (wf : tblWf regReset s.regs = true) : domState (bankLost s) d = domState s d :=
  fget_of_rg (bankLost_aside (bankAside_rg (aside_rg (spared_domain low) _) (by simp only [PWR]; omega) (by simp only [SNP, PWR, Fld.nth, PWR_DOMSTAT_STATE]; omega)
    (by simp only [LED, LED_STATUS_LEVEL, PWR, Fld.nth, PWR_DOMSTAT_STATE]; omega) (by simp only [PWR, Fld.nth, PWR_DOMSTAT_STATE, PWR_RETRY_DOM]; omega)) (rg_portsOff_domain low wf))

/-- The journal, the time, and the power state but for the PLL. -/
def bankView (s : State) : Vector Ring 16 × Nat × PwrState := (s.rings, s.d8, { s.pwr with pll := false })

theorem bankAside_view (v : Vector Ring 16 × Nat × PwrState) : BankAside fun s => bankView s = v where
  field _ _ _ hs := hs
  parts _ _ _ _ hs := hs
  moves _ _ _ hs := hs
  tables _ _ _ _ _ _ _ hs := hs
  chans _ _ _ hs := hs
  phys _ _ _ hs := hs
  console _ _ hs := hs
  watchdog _ hs := hs
  level _ hs := hs
  core _ _ _ _ _ _ _ _ hs := hs
  retry _ hs := hs
  snap _ _ hs := hs
  hold _ _ hs := hs
  clock _ _ _ hs := hs
  pll _ hs := hs

theorem bankView_bankLost (s : State) : bankView (bankLost s) = bankView s :=
  bankLost_aside (bankAside_view _) (forAll_keeps_prop (P := fun y => bankView y = bankView s) _ _ rfl fun p _ hy => portOff_aside (bankAside_view _).toResetAside hy p (fun _ _ _ hs => hs) fun _ _ _ hs => hs)

theorem bankLost_pll (s : State) : (bankLost s).pwr.pll = false := rfl

end Sys2Proof.Proofs

/-! PROOF. The entry to DOZE and BANKED, from its verb to the retention check (14 R396 to R404). -/

namespace Sys2Proof.Proofs
open Sys2Proof Sys2Proof.Machine Sys2Proof.Laws

/-! ### BANKED is entered (14 R401 steps 9 and 10) -/

/-- The part is in BANKED, and waits for the retention check. -/
def bankEntered (b : Bool) (t0 : Nat) (s : State) : State :=
  { s with pwr := { s.pwr with
      entry := some (b, t0, .retain), edgeAt8 := none, wk := .matcher, wakeN := true, mode := .banked, retEn := true, slowEdges := max 4 (edgesSince s) } }

theorem wakeWindowEnd_banks {s : State} {b : Bool} {t0 e e3 : Nat} (entry : s.pwr.entry = some (b, t0, .window)) (edge : s.pwr.edgeAt8 = some (e, e3)) (high : s.pwr.wakeN = true) :
    wakeWindowEnd s = bankEntered b t0 (gatesOpen (bankLost (advanceTo8 e3 s))) := by
  unfold wakeWindowEnd
  rw [entry, edge]
  extract_lets passed told banked
  have same : told = advanceTo8 e3 s := if_neg (by simp [passed, high])
  have open_ : banked = gatesOpen (bankLost (advanceTo8 e3 s)) := congrArg (fun x => gatesOpen (bankLost x)) same
  clear_value banked
  subst open_
  rfl

theorem closed_mem (r : State) : Closed fun s => s.dram = r.dram ∧ s.wmem = r.wmem where
  rgSet _ _ _ hs := hs
  regsMap _ _ hs := hs
  time _ _ _ hs := hs
  other _ _ _ _ _ _ _ _ _ _ _ _ _ _ _ _ _ _ _ _ _ _ _ _ _ _ _ _ _ hs := hs

theorem bankLost_mem (s : State) : (bankLost s).dram = s.dram ∧ (bankLost s).wmem = s.wmem :=
  bankLost_keeps (closed_mem s) ⟨fun _ _ _ _ hs => hs, fun _ _ hs => hs⟩ ⟨fun _ _ _ _ hs => hs, fun _ _ hs => hs⟩ s ⟨rfl, rfl⟩

/-- What the core supply's loss and the opening of the gates leave. -/
structure BankLeft (s t : State) : Prop where
  pll : t.pwr.pll = false
  wakeAfter : t.pwr.wakeAfter = s.pwr.wakeAfter
  d8 : t.d8 = s.d8
  domains : ∀ d, d < 23 → domState s d ≠ 3 → domState t d = 0
  ports : ∀ p, portSt t p = PORT_DOWN
  dram : t.dram = s.dram
  wmem : t.wmem = s.wmem
  rings : t.rings = s.rings

theorem gatesOpen_bankLost {s : State} (wf : tblWf regReset s.regs = true) : BankLeft s (gatesOpen (bankLost s)) := by
  have view := bankView_bankLost s
  have off := bankLost_pll s
  obtain ⟨dram, wmem⟩ := bankLost_mem s
  have ports (p : Fin 4) := portSt_bankLost p s
  have domains {d : Nat} (low : d < 23) := domState_bankLost low wf
  generalize bankLost s = y at view off dram wmem ports domains
  have open_ {β : Type} (g : State → β) (reg : ∀ a w s, g (rgSet a w s) = g s) (pwr : g { y with pwr := { y.pwr with ramps := [], rampQ := [], thermN := true } } = g y) : g (gatesOpen y) = g y :=
    (gatesOpen_inv g y reg).trans pwr
  obtain ⟨rings, d8, pwr⟩ := Prod.mk.inj view |>.imp_right Prod.mk.inj
  have wakeAfter : y.pwr.wakeAfter = s.pwr.wakeAfter := (congrArg PwrState.wakeAfter pwr :)
  exact {
    pll := (open_ (·.pwr.pll) (fun _ _ _ => rfl) rfl).trans off
    wakeAfter := (open_ (·.pwr.wakeAfter) (fun _ _ _ => rfl) rfl).trans wakeAfter
    d8 := (open_ (·.d8) (fun _ _ _ => rfl) rfl).trans d8
    domains := fun d low sound => domState_gatesOpen low y (by rwa [domains low])
    ports := fun p => (fget_of_rg (rg_gatesOpen_ne (by simp only [HP, PWR, HP_STATUS_STATE]; omega) y)).trans (ports p)
    dram := (open_ (·.dram) (fun _ _ _ => rfl) rfl).trans dram
    wmem := (open_ (·.wmem) (fun _ _ _ => rfl) rfl).trans wmem
    rings := (open_ (·.rings) (fun _ _ _ => rfl) rfl).trans rings }

/-- Settles O12: the entry goes from its verb over drain, parking and wake window to the retention check, each step by its own lemma. -/
theorem sleepEntrySteps : Obligations.SleepEntrySteps := by
  unfold Obligations.SleepEntrySteps
  refine ⟨?doze, ?banked, ?refused, ?drained, ?work, ?timeout, ?dozes, ?opens, ?banks, ?retained⟩
  case doze =>
    intro s ready fine
    exact ⟨sleepBegun false s, congrArg Host.Outcome.next (sleepVerb_begins ready fine), sleepBegun_entry false s⟩
  case banked =>
    intro s ready fine
    exact ⟨sleepBegun true s, congrArg Host.Outcome.next (sleepVerb_begins ready fine), sleepBegun_entry true s⟩
  case refused =>
    intro s e ready bad
    exact ⟨answer [e] s, congrArg Host.Outcome.next (sleepVerb_refused ready bad), answer_ans _ _, answer_pwr _ _, sameStore_answer _ _⟩
  case drained =>
    intro s b t0 entry empty
    exact ⟨_, congrArg Host.Outcome.next (drainComplete_works entry empty), workBegun_quiet b t0 _ s⟩
  case work =>
    intro s b t0 entry mode waits
    have e := sleepParkDone_works entry mode
    have active {p : Fin 4} (runs : portSt s p = PORT_ACTIVE) := portsToQuiet_active (s := { s with pwr := { s.pwr with entry := some (b, t0, .park) } }) (p := p) runs
    have retrain {p : Fin 4} (trains : portSt s p = PORT_RETRAIN) := portsToQuiet_retrain (s := { s with pwr := { s.pwr with entry := some (b, t0, .park) } }) (p := p) trains
    have pwr := portsToQuiet_pwr { s with pwr := { s.pwr with entry := some (b, t0, .park) } }
    generalize portsToQuiet { s with pwr := { s.pwr with entry := some (b, t0, .park) } } = y at e active retrain pwr
    have parks : y.pwr.entry = some (b, t0, .park) := congrArg PwrState.entry pwr
    have later : y.pwr.wakeAfter = none := (congrArg PwrState.wakeAfter pwr).trans waits
    obtain ⟨goes, ports, -⟩ := parkStep_goes parks later
    refine ⟨parkStep b t0 y, congrArg Host.Outcome.next e, entry ▸ goes, fun p runs => ?_, fun p trains => parkStep_port parks later (retrain trains)⟩
    exact (active runs).imp (fun quiet => (ports p).trans quiet) (parkStep_port parks later)
  case timeout =>
    intro s b t0 entry left quiet
    exact ⟨_, rfl, drainTimeout_ends entry left quiet⟩
  case dozes =>
    intro s t0 entry mode quiet waits idle
    have e : sleepParkDone s = dozed t0 s := (sleepParkDone_parks entry mode).trans (parkStep_doze t0 ⟨quiet, idle⟩ waits)
    have kept := dozed_kept t0 s
    have parked := entryTimed_kept t0 s
    obtain ⟨state, sub, us⟩ := dozed_fields t0 s
    exact ⟨dozed t0 s, congrArg Host.Outcome.next e, rfl, rfl, state, sub, fun c rests => (kept.states c).trans (entryTimed_rests t0 rests), us, kept.d8.trans parked.d8, kept.dram.trans parked.dram,
      kept.wmem.trans parked.wmem, kept.streams.trans parked.streams⟩
  case opens =>
    intro s t0 entry mode quiet idle
    obtain ⟨f1, f2, e⟩ := parkStep_banked t0 (s := s) ⟨quiet, idle⟩
    have e : sleepParkDone s = windowOpen t0 f1 f2 (banking t0 s) := (sleepParkDone_parks entry mode).trans e
    have kept := banking_kept t0 s
    have parked := entryTimed_kept t0 s
    have rests {c : Fin 16} (at_ : chState s c = 2 ∨ chState s c = 3) : chState (banking t0 s) c = 4 := (kept.states c).trans (entryTimed_rests t0 at_)
    have valid := banking_valid t0 s
    have d8 : (banking t0 s).d8 = s.d8 := kept.d8.trans parked.d8
    have dram := kept.dram.trans parked.dram
    have wmem := kept.wmem.trans parked.wmem
    have streams := kept.streams.trans parked.streams
    obtain ⟨img, pwr⟩ := banking_pwr t0 s
    generalize banking t0 s = y at e rests valid d8 dram wmem streams pwr
    obtain ⟨least, most, crystal⟩ := slowPer8_bounds y f1
    have xtal : y.pwr.xtal = s.pwr.xtal := (congrArg PwrState.xtal pwr :)
    have within := Nat.mod_lt f2 (show 0 < slowPer8 y f1 by omega)
    exact ⟨windowOpen t0 f1 f2 y, congrArg Host.Outcome.next e, rfl, (congrArg PwrState.starter pwr :), (congrArg PwrState.savedD8 pwr :), (congrArg (fun p : PwrState => p.img.isSome) pwr :), (congrArg PwrState.wk pwr :),
      ⟨y.d8 + f2 % slowPer8 y f1, slowPer8 y f1, rfl, by omega, by omega, least, most, fun on => crystal (xtal.trans on)⟩, valid, fun c at_ => rests at_, d8, dram, wmem, streams⟩
  case banks =>
    intro s b t0 e e3 canon entry edge high
    have left := gatesOpen_bankLost (s := advanceTo8 e3 s) canon.regs
    have due : (advanceTo8 e3 s).d8 = firstCycle8 s e3 := rfl
    have steps := wakeWindowEnd_banks entry edge high
    generalize gatesOpen (bankLost (advanceTo8 e3 s)) = y at left steps
    exact ⟨bankEntered b t0 y, congrArg Host.Outcome.next steps, rfl, rfl, rfl, rfl, left.d8.trans due, rfl, left.pll, left.wakeAfter, left.domains, left.ports, left.dram, left.wmem, left.rings⟩
  case retained =>
    intro s b inW t0 entry waits
    obtain ⟨n, least, e⟩ := retentionCheck_ends inW entry waits
    exact ⟨_, congrArg Host.Outcome.next e, rfl, rfl, rfl, least, retained_view inW n s⟩

end Sys2Proof.Proofs
